-- ==== Sys2Proof/Word.lean ====
section
/-! DEFINITION. Words, bytes and the index types of the package (00_scope.md, 01_architecture.md, 20_address_map.md). -/

namespace Sys2Proof

/-- A register word: every register is 32 bits wide (R5). -/
abbrev Word := BitVec 32

/-- One byte of a hall, a frame or an image. -/
abbrev Byte := BitVec 8

/-- A bus port LP0–LP127. -/
abbrev PortNo := Fin 128

/-- A message-operation slot 0x0000–0xFFFF (R156). -/
abbrev SlotNo := Fin 65536

/-- A channel engine 0–1023. -/
abbrev EngNo := Fin 1024

/-- A cluster 0–127. -/
abbrev CluNo := Fin 128

/-- A region 0–15. -/
abbrev RgnNo := Fin 16

/-- A ledger source 0–2047 (R343). -/
abbrev SrcNo := Fin 2048

/-- An offset in the register space (R488). -/
abbrev RegOff := Fin 134217728

/-- A table that holds a value for some keys and a stated default for every other key: pairs in rising key
order, none of them equal to the default. -/
abbrev SMap (V : Type) := List (Nat × V)

end Sys2Proof
end

