-- ==== Sys2Proof/Syntax.lean ====
section
/-! DEFINITION. The commands of the block: one constructor of `Instr` for each row of spec/opcode_table.json, in the
table's order, and the types of their operands. -/

namespace Sys2Proof

/-- Who makes an access (R6): the host or one engine. -/
inductive Requester where
  | host
  | engine (e : EngNo)
  deriving DecidableEq, Repr

/-- A frame as the wire and the descriptor words 1 to 3 give it (R161, R162). `fmt` is 0 CAN CC, 1 CAN FD, 2 CAN XL,
3 Ethernet; `len` is LEN. A remote frame carries no data; an Ethernet frame holds the bytes from the destination
address to the last byte before the FCS (R516). -/
structure Frame where
  fmt : Nat
  id : Nat := 0
  ide : Bool := false
  rmt : Bool := false
  brs : Bool := false
  esi : Bool := false
  sec : Bool := false
  sdt : Nat := 0
  vcid : Nat := 0
  af : Nat := 0
  len : Nat
  data : List Byte := []
  deriving DecidableEq, Repr

/-- What a wake detector sees (R94): a wake-up pattern, a CAN CC frame with its DLC, an erroneous frame, or 10BASE-T1S
activity. -/
inductive WakeSeen where
  | pattern
  | frame (f : Frame) (dlc : Nat)
  | erroneous
  | activity
  deriving DecidableEq, Repr

/-- What a read of an MRAM word met (R444): nothing, an ECC-corrected bit, or a hard failure. -/
inductive MramSeen where
  | ok
  | corrected
  | failed
  deriving DecidableEq, Repr

/-- How far an Xfly instruction runs (R281): to its own end; until, after some elements, another command comes, where an
enabled interrupt that is pending is taken; or until a HALT comes after some elements. -/
inductive XfStop where
  | run
  | intr (after : Nat)
  | halt (after : Nat)
  deriving DecidableEq, Repr

/-- Who makes a hall access (R312): the host through BAR2, an engine, or a block of the package. -/
inductive HallMaster where
  | host
  | engine (e : EngNo)
  | store
  | gateway
  | ledger
  | update
  deriving DecidableEq, Repr

/-- The atomic memory operations of RV32A (R271). -/
inductive AmoOp where
  | swap | add | xor | and | or | min | max | minu | maxu
  deriving DecidableEq, Repr

/-- What a hall access does: a read of `n` bytes, a write, a fetch of `n` bytes, an atomic operation on a word, or a
load-reserve or store-conditional of a word. -/
inductive HallAcc where
  | read (n : Nat)
  | write (bs : List Byte)
  | fetch (n : Nat)
  | amo (op : AmoOp) (w : Word)
  | lr
  | sc (w : Word)
  deriving DecidableEq, Repr

/-- A hall access: `addr` is a hall offset, or an engine's own address (R272). `waits` are the cycles that it waited for
a busy bank (R313). `single` and `double` are the hall words, by offset divided by 8, in which this access meets a
single-bit or a double-bit error that no access has met before (R315). -/
structure HallReq where
  master : HallMaster
  addr : Nat
  acc : HallAcc
  waits : Nat := 0
  single : List Nat := []
  double : List Nat := []
  deriving DecidableEq, Repr

/-- An ACF message (R263): `kind` 1 is ACF CAN and 2 ACF CAN Brief; `stamp` is message_timestamp. -/
structure AcfMsg where
  kind : Nat := 1
  mtv : Bool := false
  stamp : Nat := 0
  bus : Nat
  eff : Bool
  rtr : Bool
  fdf : Bool
  brs : Bool
  esi : Bool := false
  id : Nat
  data : List Byte
  deriving DecidableEq, Repr

/-- An AVTPDU (R263): subtype 0x82 NTSCF or 0x05 TSCF, tv of a TSCF header, stream_id, sequence_num and its messages. -/
structure Avtpdu where
  subtype : Nat
  tv : Bool := false
  sid : Nat
  seq : Nat
  msgs : List AcfMsg
  deriving DecidableEq, Repr

/-- Where a bit of a received frame lies (R131): up to RTR or RRS; from the next bit to the last bit of the CRC sequence,
or of an Ethernet frame from the first preamble symbol to the last bit of the FCS; sent in fast mode; or after these. -/
inductive FrameField where
  | arbitration
  | body
  | fast
  | rest
  deriving DecidableEq, Repr

/-- A bit of a received frame as the front end sampled it: its place, its logic value, and the voltages in µV of its central
samples, those in its middle half (R127, R131). -/
structure BitSeen where
  field : FrameField
  one : Bool
  central : List Int
  deriving DecidableEq, Repr

/-- An edge of a received frame (R131, R132): the number of the bit that begins at it, the time between 10% and 90% of the
swing and the position error against the bit grid, both in 1/16 sample, and the voltages in µV of the samples within the edge
and of those after it. -/
structure EdgeSeen where
  bit : Nat
  time : Nat
  error : Int
  within : List Int
  after : List Int
  deriving DecidableEq, Repr

/-- What the front end recorded of a frame (R131): its bits in order and its edges in order. -/
structure Wingprint where
  bits : List BitSeen
  edges : List EdgeSeen
  deriving DecidableEq, Repr

/-- A bucket boundary of a Line die's governor (R88): the die, and the energy in pJ that its ports drove since the last one
without a command of their own (R91). -/
structure BucketEnd where
  die : Fin 2
  rest : List (PortNo × Nat) := []
  deriving DecidableEq, Repr

/-- A frame received on a port, at its end (R24, R91, R99, R112, R259): the local time and the age in ticks of its
start-of-frame sample point, the line before the start-of-frame edge with the two samples after it, the three samples of that
bit (`true` is recessive), the FCS field of an Ethernet frame, the last end-of-frame bit, the local time of the frame's end,
its wingprint window, and the energy in pJ of the acknowledgement. -/
structure Reception where
  frame : Frame
  sof : Nat
  age : Nat := 0
  edge : Bool × Bool × Bool := (true, false, false)
  samples : Bool × Bool × Bool := (false, false, false)
  fcs : Nat := 0
  eofDominant : Bool := false
  endNs : Nat
  wp : Option Wingprint := none
  pj : Nat := 0
  deriving DecidableEq, Repr

/-- An error that a bit engine detects (R212): its type code, whether the port was transmitting, the data phase, the field
code and the bit position; whether it lies in the port's own flag or is a dominant bit after it, and whether the port saw
a dominant bit while it sent its passive flag (ISO 11898-1). With `overload` it is no error but an overload condition of the
standard (R101). `pj` is the energy of the flag that the port drives (R91). -/
structure BusError where
  type : Nat
  tx : Bool
  phase : Bool := false
  field : Nat
  pos : Nat
  inFlag : Bool := false
  dominant : Bool := true
  overload : Bool := false
  pj : Nat := 0
  deriving DecidableEq, Repr

/-- How far an attempt gets (R106, R107, R163): its start-of-frame is driven, arbitration is won, the data-phase timing set
comes into use, a data-phase bit driven as `sent` reads `seen` at `delay` samples after its start, arbitration is lost,
success, or an error. -/
inductive TxEnd where
  | started
  | won
  | switched
  | sampled (sent seen : Bool) (delay field pos : Nat)
  | lost
  | success
  | error (e : BusError)
  deriving DecidableEq, Repr

/-- The converter samples of a capture since the last command (R127, R150): the instant of the first, the voltages in µV
in whole groups of 2^DEC, whether sounding pulses fall in them and whether the port drove the line, and whether the stream
cannot accept a packet. -/
structure Packet where
  time : Nat
  volts : List Int
  snd : Bool := false
  tx : Bool := false
  full : Bool := false
  deriving DecidableEq, Repr

/-- The body of an AGREE message (R476): FENCED and THETA valid, VERSION, EPOCH, the agreement digest AD, the echo of the
last AGREE received from its destination (T1, T2, CORR), and THETA. -/
structure Agree where
  fenced : Bool
  thetaOk : Bool
  version : Nat
  epoch : Nat
  ad : List Byte
  echo : Nat × Nat × Nat
  theta : Int
  deriving DecidableEq, Repr

/-- A FRAME message at its target (R481): SRC, release time R, ingress timestamp T, selection key S, ROUTE, INGRESS,
message index and leg index, TAINT and the copy. -/
structure FrameMsg where
  src : Nat
  release : Nat
  stamp : Nat
  key : Nat
  route : Nat
  ingress : Nat
  msg : Nat
  idx : Nat
  taint : Bool
  frame : Frame
  deriving DecidableEq, Repr

/-- MACsec of a received frame (R414): none, or a secure channel, association and packet number, with the outcome of the
integrity check. -/
inductive Macsec where
  | plain
  | secured (sc an pn : Nat) (ok : Bool)
  deriving DecidableEq, Repr

/-- A frame received on an Ethernet lane (R407, R413): its bytes from the destination address to the last byte before the
FCS, after MACsec is taken off; the AVTPDU it spells when its EtherType is 0x22F0; its timestamp (R331); MACsec; and the
codewords that the FEC corrected since the last command of the lane. -/
structure EthRx where
  bytes : List Byte
  avtp : Option Avtpdu := none
  stamp : Nat
  sec : Macsec := .plain
  corr : Nat := 0
  deriving DecidableEq, Repr

/-- How the programming of a flash chunk ends (R458, R470): the read-back agrees, differs, or VBAT_OK deasserts before the
end of programming. -/
inductive FlashSeen where
  | ok
  | mismatch
  | cut
  deriving DecidableEq, Repr

/-- The header of a service request after OP (R421): COUNT, TAG, ADDR and ARG. -/
structure SvcReq where
  count : Byte := 1
  tag : BitVec 16 := 0
  addr : Word
  arg : BitVec 64 := 0
  deriving DecidableEq, Repr

/-- The register that an engine debug access names (R421): a general register or a CSR. -/
inductive DbgReg where
  | gpr (r : Fin 32)
  | csr (c : Fin 4096)
  deriving DecidableEq, Repr

/-- The commands, one for each row of the table, in its order. `q` is who makes a register access; the other operands
are what the event or the written word carries. -/
inductive Instr where
  /-- LOW_WORD_READ (R6). -/
  | lowWordRead (q : Requester) (off : RegOff) (size : Nat)
  /-- READ_CLEAR (R7). -/
  | readClear (q : Requester) (off : RegOff) (size : Nat)
  /-- REGISTER_WRITE (R7). -/
  | registerWrite (q : Requester) (off : RegOff) (size : Nat) (w : Word)
  /-- DIE_LINK_TRANSFER (R16). -/
  | dieLinkTransfer (d : Fin 3) (crcOk : Bool)
  /-- HEARTBEAT_LOSS (R17). -/
  | heartbeatLoss (d : Fin 3)
  /-- DIE_LINK_RETRAINED (R17). -/
  | dieLinkRetrained (d : Fin 3)
  /-- FUNCTION_READY (R31). -/
  | functionReady (b : Fin 40)
  /-- FUNCTION_NOT_READY (R33). -/
  | functionNotReady (b : Fin 40)
  /-- IMG_CHECK (R46). -/
  | imgCheck (q : Requester)
  /-- CHECK_DONE (R47). -/
  | checkDone
  /-- IMG_STAGE (R50). -/
  | imgStage (q : Requester)
  /-- STAGE_DONE (R50). -/
  | stageDone (ok : Bool)
  /-- IMG_COMMIT (R52). -/
  | imgCommit (q : Requester)
  /-- IMG_ABORT (R52). -/
  | imgAbort (q : Requester)
  /-- IMG_CMD_IGNORED (R64). -/
  | imgCmdIgnored (q : Requester) (code : Fin 16)
  /-- SWITCH_INSTANT (R57). -/
  | switchInstant
  /-- PORT_MOVE (R58). -/
  | portMove (n : PortNo)
  /-- PORT_FORCED (R59). -/
  | portForced (n : PortNo)
  /-- IMAGE_RESTORE (R55). -/
  | imageRestore
  /-- SHORT_DETECTED (R81). -/
  | shortDetected (n : PortNo) (within : Bool) (pj : Nat)
  /-- FAULT_EVENT_END (R81). -/
  | faultEventEnd (n : PortNo) (pj : Nat)
  /-- ENERGY_CUTOFF (R82). -/
  | energyCutoff (n : PortNo)
  /-- FAULT_WAIT_EXPIRY (R83). -/
  | faultWaitExpiry (n : PortNo)
  /-- RETRY_SUCCESS (R83). -/
  | retrySuccess (n : PortNo)
  /-- DRIVER_DISABLE (R80). -/
  | driverDisable (q : Requester) (n : PortNo)
  /-- DRIVER_ENABLE (R80). -/
  | driverEnable (q : Requester) (n : PortNo)
  /-- UNLATCH (R84). -/
  | unlatch (q : Requester) (n : PortNo)
  /-- PORT_RESET (R80). -/
  | portReset (q : Requester) (n : PortNo)
  /-- BIAS_CHECK (R86). -/
  | biasCheck (n : PortNo) (vh vl : Int)
  /-- GOVERNOR_SUBMIT (R90). -/
  | governorSubmit (n : PortNo)
  /-- GOVERNOR_BUCKET (R92). -/
  | governorBucket (e : BucketEnd)
  /-- DEFERRAL_FLAG (R93). -/
  | deferralFlag (n : PortNo)
  /-- WAKE_DETECTED (R95). -/
  | wakeDetected (n : PortNo) (w : WakeSeen)
  /-- FRAME_RECEPTION (R24). -/
  | frameReception (n : PortNo) (r : Reception)
  /-- EXCEPTION_END (R102). -/
  | exceptionEnd (n : PortNo)
  /-- INTEGRATION_COMPLETE (R117). -/
  | integrationComplete (n : PortNo)
  /-- TRANSMIT_ATTEMPT (R163). -/
  | transmitAttempt (n : PortNo) (u : TxEnd) (edges : List Nat) (load pj : Nat)
  /-- ERROR_DETECTED (R212). -/
  | errorDetected (n : PortNo) (e : BusError)
  /-- BEACON_DUE (R123). -/
  | beaconDue (n : PortNo)
  /-- PLCA_STATUS_CHANGE (R114). -/
  | plcaStatusChange (n : PortNo) (ok : Bool)
  /-- PLCA_FOREIGN_BEACON (R114). -/
  | plcaForeignBeacon (n : PortNo)
  /-- COLLISION (R115). -/
  | collision (n : PortNo)
  /-- OPMODE_WRITE (R119). -/
  | opmodeWrite (q : Requester) (n : PortNo) (v : Fin 4)
  /-- OPMODE_APPLY (R119). -/
  | opmodeApply (n : PortNo)
  /-- CEN_START (R145). -/
  | cenStart (q : Requester) (n : PortNo) (rep : Bool)
  /-- CEN_STOP (R148). -/
  | cenStop (q : Requester) (n : PortNo)
  /-- SND_START (R139). -/
  | sndStart (q : Requester) (n : PortNo)
  /-- SND_ABORT (R143). -/
  | sndAbort (q : Requester) (n : PortNo)
  /-- ENR_START (R137). -/
  | enrStart (q : Requester) (n : PortNo)
  /-- ENR_ABORT (R154). -/
  | enrAbort (q : Requester) (n : PortNo)
  /-- CAP_START (R149). -/
  | capStart (q : Requester) (n : PortNo)
  /-- CAP_STOP (R149). -/
  | capStop (q : Requester) (n : PortNo)
  /-- CAP_TRIG (R149). -/
  | capTrig (q : Requester) (n : PortNo)
  /-- OBS_CMD_IGNORED (R154). -/
  | obsCmdIgnored (q : Requester) (n : PortNo)
  /-- SOUNDING_UNIT_START (R140). -/
  | soundingUnitStart (d : Fin 2)
  /-- SOUNDING_RECORD_DISCARD (R140). -/
  | soundingRecordDiscard (n : PortNo)
  /-- SOUNDING_ANALYSIS_DONE (R142): records added to the trace, each of 256 voltages in µV, or, with none, the end of the
  analysis. -/
  | soundingAnalysisDone (n : PortNo) (recs : List (List Int))
  /-- SOUNDING_TIMEOUT (R143). -/
  | soundingTimeout (n : PortNo)
  /-- CENSUS_SLOT_DECISION (R145). -/
  | censusSlotDecision (n : PortNo) (k : Fin 32)
  /-- SPECIMEN_PACKET (R150). -/
  | specimenPacket (n : PortNo) (p : Packet)
  /-- DESCRIPTOR_WRITE (R167). -/
  | descriptorWrite (q : Requester) (k : SlotNo) (w : Fin 8) (v : Word)
  /-- QUEUE (R171). -/
  | queue (q : Requester) (k : SlotNo)
  /-- CANCEL (R176). -/
  | cancel (q : Requester) (k : SlotNo)
  /-- RELEASE (R165). -/
  | release (q : Requester) (k : SlotNo)
  /-- ABANDON (R165). -/
  | abandon (q : Requester) (k : SlotNo)
  /-- DOORBELL_IGNORED (R165). -/
  | doorbellIgnored (q : Requester) (k : SlotNo) (cmd : Fin 16)
  /-- PORT_SELECT (R175). -/
  | portSelect (n : PortNo)
  /-- TX_DEADLINE (R177). -/
  | txDeadline (k : SlotNo)
  /-- MONITOR_ARM (R184). -/
  | monitorArm (q : Requester) (m : Fin 4096) (k : SlotNo) (oneshot miss : Bool)
  /-- MONITOR_DEADLINE (R185). -/
  | monitorDeadline (m : Fin 4096)
  /-- FSP_RELAYOUT (R516). -/
  | fspRelayout (f : Fin 256)
  /-- CATALOGUE_SEARCH (R191). -/
  | catalogueSearch (n : PortNo) (sof : Nat) (f : Frame)
  /-- XL_CANDIDATE_COMPLETE (R191). -/
  | xlCandidateComplete (n : PortNo) (f : Frame)
  /-- INSERT (R204). -/
  | insert (q : Requester) (t : Fin 256)
  /-- DELETE (R204). -/
  | delete (q : Requester) (t : Fin 256)
  /-- REPLACE (R204). -/
  | replace (q : Requester) (t : Fin 256)
  /-- UPD_CMD_UNKNOWN (R204). -/
  | updCmdUnknown (q : Requester)
  /-- CAT_UPDATE_APPLY (R206). -/
  | catUpdateApply
  /-- CAT_UPDATE_DONE (R206). -/
  | catUpdateDone
  /-- HOLDOFF_END (R221). -/
  | holdoffEnd (n : PortNo)
  /-- RECOVERY_COMPLETE (R220). -/
  | recoveryComplete (n : PortNo)
  /-- RECOVER (R222). -/
  | recover (q : Requester) (n : PortNo)
  /-- QUAR (R226). -/
  | quar (q : Requester) (n : PortNo)
  /-- QUARANTINE_EFFECT (R227). -/
  | quarantineEffect (n : PortNo)
  /-- SLOPE_BUCKET (R229). -/
  | slopeBucket (n : PortNo)
  /-- GATEWAY_INGRESS (R241). -/
  | gatewayIngress (k : SlotNo)
  /-- TUNNEL_AVTPDU_RECEIVED (R260). -/
  | tunnelAvtpduReceived (st : Fin 64) (t : Nat) (a : Avtpdu)
  /-- RELEASE_INSTANT (R243). -/
  | releaseInstant (t : Fin 200)
  /-- WAITING_COPY_SLOT (R253). -/
  | waitingCopySlot (l : Fin 1024)
  /-- WAITING_COPY_EXPIRE (R253). -/
  | waitingCopyExpire (l : Fin 1024)
  /-- BREACH_WINDOW_CLOSE (R254). -/
  | breachWindowClose (t : Fin 200)
  /-- TUNNEL_WINDOW_TIMEOUT (R260). -/
  | tunnelWindowTimeout (st : Fin 64)
  /-- ENGINE_START (R268). -/
  | engineStart (q : Requester) (e : EngNo)
  /-- ENGINE_HALT (R268). -/
  | engineHalt (q : Requester) (e : EngNo)
  /-- ENGINE_RESET (R270). -/
  | engineReset (q : Requester) (e : EngNo)
  /-- ENGINE_CMD_IGNORED (R268). -/
  | engineCmdIgnored (q : Requester) (e : EngNo)
  /-- XF_SCAN (R277). -/
  | xfScan (e : EngNo) (size : Fin 3) (rd rs1 rs2 : Fin 32) (stop : XfStop)
  /-- XF_COPY (R280). -/
  | xfCopy (e : EngNo) (size : Fin 4) (rd rs1 rs2 : Fin 32) (stop : XfStop)
  /-- XF_CMAC_STEP (R282). -/
  | xfCmacStep (e : EngNo) (rd rs1 rs2 : Fin 32) (stop : XfStop)
  /-- XF_CMAC_FIN (R282). -/
  | xfCmacFin (e : EngNo) (rd rs1 rs2 : Fin 32) (stop : XfStop)
  /-- XF_PACK (R283). -/
  | xfPack (e : EngNo) (rd rs1 rs2 : Fin 32) (stop : XfStop)
  /-- XF_UNPACK (R283). -/
  | xfUnpack (e : EngNo) (rd rs1 rs2 : Fin 32) (stop : XfStop)
  /-- XCCLEAN (R288). -/
  | xcclean (e : EngNo) (a : Word)
  /-- XCFLUSH (R288). -/
  | xcflush (e : EngNo) (a : Word)
  /-- OWNERSHIP_REQUEST (R286). -/
  | ownershipRequest (r : RgnNo) (line : Fin 1048576) (evict : Option (Fin 64)) (reqs : List (Fin 64))
  /-- TIMER_COMPARE (R271). -/
  | timerCompare (e : EngNo)
  /-- CLU_DOORBELL (R271). -/
  | cluDoorbell (q : Requester) (c : CluNo) (mask : Byte)
  /-- CLU_DOORACK (R271). -/
  | cluDoorack (q : Requester) (c : CluNo) (mask : Byte)
  /-- ACQ (R290). -/
  | acq (q : Requester) (c : CluNo) (j : Fin 64)
  /-- TRY (R290). -/
  | tryLock (q : Requester) (c : CluNo) (j : Fin 64)
  /-- REL (R291). -/
  | rel (q : Requester) (c : CluNo) (j : Fin 64)
  /-- FIX (R292). -/
  | fix (q : Requester) (c : CluNo) (j : Fin 64)
  /-- WITHDRAW (R290). -/
  | withdraw (q : Requester) (c : CluNo) (j : Fin 64)
  /-- LOCK_CMD_IGNORED (R290). -/
  | lockCmdIgnored (q : Requester) (c : CluNo) (j : Fin 64) (cmd : Fin 8)
  /-- ISRAM_WRITE (R299). -/
  | isramWrite (q : Requester) (c : CluNo) (k : Fin 16384) (w : Word)
  /-- OPP_TARGET_WRITE (R295). -/
  | oppTargetWrite (q : Requester) (r : RgnNo) (v : Fin 8)
  /-- REGULATOR_GOOD (R386). -/
  | regulatorGood (r : RgnNo)
  /-- PLL_LOCK_STABLE (R388). -/
  | pllLockStable (r : RgnNo)
  /-- PLL_LOCK_TIMEOUT (R391). -/
  | pllLockTimeout (r : RgnNo)
  /-- OPP_CHANGE_DONE (R390). -/
  | oppChangeDone (r : RgnNo)
  /-- HALL_ACCESS (R303). -/
  | hallAccess (r : HallReq)
  /-- ECC_WRITEBACK (R315). -/
  | eccWriteback (w : Fin 8388608)
  /-- HALL_HANDOVER (R306). -/
  | hallHandover (q : Requester) (u : Fin 4096) (m1 : Fin 64) (clear : Bool)
  /-- HANDOVER_DONE (R307). -/
  | handoverDone
  /-- HALL_REVOKE (R309). -/
  | hallRevoke (q : Requester) (owner dest : Fin 128)
  /-- REVOCATION_DONE (R309). -/
  | revocationDone
  /-- UNIT_CLEAR_DONE (R310). -/
  | unitClearDone (u : Fin 4096)
  /-- TEST_WORD (R317). -/
  | testWord (h : Fin 4) (failed : Bool)
  /-- INC_LOW_WRITE (R323). -/
  | incLowWrite (q : Requester) (w : Word)
  /-- INC_HIGH_WRITE (R323). -/
  | incHighWrite (q : Requester) (w : Word)
  /-- STEP (R326). -/
  | step (q : Requester)
  /-- STEP_FORCED (R328). -/
  | stepForced (q : Requester)
  /-- STEP_APPLY (R326). -/
  | stepApply
  /-- LOCK (R329). -/
  | lock (q : Requester)
  /-- UNLOCK (R329). -/
  | unlock (q : Requester)
  /-- NONCE (R338). -/
  | nonce (q : Requester)
  /-- TOKEN (R338). -/
  | token (q : Requester)
  /-- TIME_CMD_IGNORED (R339). -/
  | timeCmdIgnored (q : Requester) (cmd : Fin 8)
  /-- SYNC_TIMEOUT (R329). -/
  | syncTimeout
  /-- NONCE_EXPIRY (R338). -/
  | nonceExpiry
  /-- TRUST_EXPIRY (R336). -/
  | trustExpiry
  /-- VAULT_TIME_LOAD (R330). -/
  | vaultTimeLoad
  /-- LOCAL_TIME_RESTORE (R330). -/
  | localTimeRestore
  /-- SOURCE_RAISE (R344). -/
  | sourceRaise (src : SrcNo) (detail : Word)
  /-- LEVEL_ASSERT (R345). -/
  | levelAssert (src : SrcNo)
  /-- LEVEL_DEASSERT (R346). -/
  | levelDeassert (src : SrcNo)
  /-- RECORD_DELIVERY (R350). -/
  | recordDelivery (k : Fin 64)
  /-- EOI (R347). -/
  | eoi (q : Requester) (src : SrcNo)
  /-- HEAD_WRITE (R351). -/
  | headWrite (q : Requester) (k : Fin 64) (v : Fin 131072)
  /-- MODERATION_EXPIRY (R355). -/
  | moderationExpiry (k : Fin 64)
  /-- HOLD_ON (R356). -/
  | holdOn (q : Requester) (mx : Byte)
  /-- HOLD_OFF (R356). -/
  | holdOff (q : Requester) (mx : Byte)
  /-- HOLD_EXPIRY (R356). -/
  | holdExpiry
  /-- RATE_INTERVAL_END (R515). -/
  | rateIntervalEnd (key : Fin 4224)
  /-- SRC_ENABLE (R344). -/
  | srcEnable (q : Requester) (src : Fin 2047) (en : Bool)
  /-- FAULT_OCCURRENCE (R363). -/
  | faultOccurrence
  /-- FAULT_CONDITION_END (R367). -/
  | faultConditionEnd
  /-- CLEAR (R367). -/
  | clear (q : Requester) (i : Fin 256)
  /-- CLEAR_ALL (R367). -/
  | clearAll (q : Requester)
  /-- ENTER (R365). -/
  | enter (q : Requester)
  /-- RECLAIM (R375). -/
  | reclaim (q : Requester) (st : Fin 64)
  /-- UNLOCK_RLOCK (R373). -/
  | unlockRlock (q : Requester)
  /-- RETURN (R376). -/
  | returnStn (q : Requester) (st : Fin 64)
  /-- CUR_CMD_IGNORED (R367). -/
  | curCmdIgnored (q : Requester)
  /-- AUTO_CLEAR (R367). -/
  | autoClear (i : Fin 256)
  /-- RECLAIM_COMPLETE (R375). -/
  | reclaimComplete
  /-- CURATOR_SELF (R377). -/
  | curatorSelf (corrected : Bool)
  /-- FAULT_INJECT (R378). -/
  | faultInject (q : Requester) (src : SrcNo) (kind : Byte)
  /-- VBAT_OK_RISE (R383). -/
  | vbatOkRise
  /-- VBAT_OK_FALL (R385). -/
  | vbatOkFall (torn : Bool)
  /-- RAIL_IN_WINDOW (R384). -/
  | railInWindow (i : Fin 4)
  /-- RAIL_FAILURE (R384). -/
  | railFailure (i : Fin 4)
  /-- RAIL_RETRY (R384). -/
  | railRetry
  /-- CRYSTAL_STABLE (R387). -/
  | crystalStable
  /-- CLOCK_LOSS (R401). -/
  | clockLoss (ref lost : Bool)
  /-- ENTER_A1 (R393). -/
  | enterA1
  /-- ENTER_A2 (R393). -/
  | enterA2
  /-- ENTER_A3 (R393). -/
  | enterA3
  /-- WAKE_FROM_A1 (R393). -/
  | wakeFromA1
  /-- WAKE_LEAD (R394). -/
  | wakeLead (bad : List (Fin 32))
  /-- WAKE_SOURCE (R357). -/
  | wakeSource (bad : List (Fin 32))
  /-- WATCH_TIMER_DUE (R404). -/
  | watchTimerDue (k : Fin 4)
  /-- ALLOW_WRITE (R393). -/
  | allowWrite (q : Requester) (v : Fin 4)
  /-- HALL_REFRESH (R396). -/
  | hallRefresh (single double : List (Fin 8388608))
  /-- VBK_LOW_WINDOW_OPEN (R399). -/
  | vbkLowWindowOpen
  /-- LAPSE_DECISION (R399). -/
  | lapseDecision (rose : Bool)
  /-- THERMAL_ONSET (R402). -/
  | thermalOnset (tj : Fin 1024)
  /-- THERMAL_END (R402). -/
  | thermalEnd (tj : Fin 1024)
  /-- LANE_LINK_UP (R409). -/
  | laneLinkUp (l : Fin 4) (corr unc : Nat)
  /-- LANE_LINK_DOWN (R409). -/
  | laneLinkDown (l : Fin 4) (cut fec : Bool) (corr unc : Nat)
  /-- STREAM_FAILBACK (R417). -/
  | streamFailback (st : Fin 64)
  /-- TRAINING_RETRY (R409). -/
  | trainingRetry (l : Fin 4)
  /-- KEEPALIVE_SEND (R408). -/
  | keepaliveSend (l : Fin 4)
  /-- LANE_FRAME_SEND (R410). -/
  | laneFrameSend (l : Fin 4)
  /-- LANE_FRAME_RECEIVED (R413). -/
  | laneFrameReceived (l : Fin 4) (r : EthRx)
  /-- NATIVE_FRAME_RECEIVED (R408). -/
  | nativeFrameReceived (l : Fin 4) (bs : List Byte) (stamp corr : Nat)
  /-- TX_AN_WRITE (R414). -/
  | txAnWrite (q : Requester) (l an : Fin 4)
  /-- HQ_TX_TAIL_WRITE (R415). -/
  | hqTxTailWrite (q : Requester) (l : Fin 4) (v : Fin 32)
  /-- HQ_RX_HEAD_WRITE (R415). -/
  | hqRxHeadWrite (q : Requester) (l : Fin 4) (v : Fin 32)
  /-- PCIE_RESET (R420). -/
  | pcieReset (cause : Fin 5)
  /-- PCIE_LINK_UP (R420). -/
  | pcieLinkUp (speed width : Fin 8)
  /-- MSIX_UNMASK (R420). -/
  | msixUnmask (k : Fin 64)
  /-- USB_BUS_RESET (R422). -/
  | usbBusReset (hs : Bool)
  /-- USB_SUSPEND (R421). -/
  | usbSuspend (on wake : Bool)
  /-- SVC_READ (R421). -/
  | svcRead (r : SvcReq)
  /-- SVC_WRITE (R421). -/
  | svcWrite (r : SvcReq) (ws : List Word)
  /-- SVC_CHALLENGE (R424). -/
  | svcChallenge (r : SvcReq)
  /-- SVC_UNLOCK (R424). -/
  | svcUnlock (r : SvcReq)
  /-- DBG_HALT (R421). -/
  | dbgHalt (r : SvcReq)
  /-- DBG_STEP (R421). -/
  | dbgStep (r : SvcReq)
  /-- DBG_RESUME (R421). -/
  | dbgResume (r : SvcReq)
  /-- DBG_READ_REG (R421). -/
  | dbgReadReg (r : SvcReq) (reg : DbgReg)
  /-- DBG_WRITE_REG (R421). -/
  | dbgWriteReg (r : SvcReq) (reg : DbgReg) (w : Word)
  /-- DFU_DETACH (R421). -/
  | dfuDetach
  /-- RELOCK (R424). -/
  | relock (q : Requester)
  /-- KEY_WRITE (R434). -/
  | keyWrite (q : Requester) (h : Fin 256) (checkOk : Bool)
  /-- IMPORT (R435). -/
  | importKey (q : Requester) (checkOk : Bool)
  /-- DERIVE (R429). -/
  | derive (q : Requester) (h arg : Fin 256)
  /-- ERASE (R434). -/
  | erase (q : Requester) (h : Fin 256)
  /-- LC (R437). -/
  | lc (q : Requester) (arg : Byte)
  /-- ROOT (R434). -/
  | root (q : Requester)
  /-- KEY_COMMAND_DONE (R434). -/
  | keyCommandDone
  /-- SIGN (R440). -/
  | sign (q : Requester) (b : Fin 1024) (len : Fin 4096) (m : MramSeen)
  /-- VERIFY (R441). -/
  | verify (q : Requester) (b : Fin 1024) (len : Fin 4096) (m : MramSeen)
  /-- INC (R443). -/
  | inc (q : Requester) (k : Fin 64) (m : MramSeen)
  /-- RAISE (R443). -/
  | raise (q : Requester) (k : Fin 64) (m : MramSeen)
  /-- TLOG_APPEND (R446). -/
  | tlogAppend (q : Requester) (d : BitVec 64)
  /-- TAMPER_EVENT (R447). -/
  | tamperEvent (m : MramSeen)
  /-- MANIFEST (R457). -/
  | manifest (q : Requester) (f : FlashSeen)
  /-- CHUNK (R458). -/
  | chunk (q : Requester) (k : Fin 256) (f : FlashSeen)
  /-- PREPARE (R461). -/
  | prepare (q : Requester) (ok : Bool)
  /-- HANDOVER (R463). -/
  | handover (q : Requester)
  /-- CONFIRM (R465). -/
  | confirm (q : Requester) (m : MramSeen)
  /-- FALLBACK (R466). -/
  | fallback (q : Requester) (stuck : List EngNo)
  /-- DISCARD (R469). -/
  | discard (q : Requester)
  /-- UPD_CMD_IGNORED (R469). -/
  | updCmdIgnored (q : Requester) (code : Fin 16) (arg : Byte)
  /-- UPD_COMMAND_DONE (R469). -/
  | updCommandDone
  /-- CHRYSALIS_DEADLINE (R463). -/
  | chrysalisDeadline (stuck : List (Fin 64))
  /-- HANDOVER_CODE_LOAD (R463). -/
  | handoverCodeLoad
  /-- TRIAL_JOURNAL (R463). -/
  | trialJournal
  /-- TRIAL_EXPIRY (R466). -/
  | trialExpiry (stuck : List EngNo)
  /-- UPDATE_BOOT (R460). -/
  | updateBoot (stuck : List EngNo)
  /-- DFU_DNLOAD (R467). -/
  | dfuDnload (n : Fin 65536) (bs : List Byte) (f : FlashSeen)
  /-- DFU_DNLOAD_END (R468). -/
  | dfuDnloadEnd (rcvr : Bool) (bad : List (Fin 32))
  /-- AGREE_SEND (R476). -/
  | agreeSend
  /-- AGREE_RECEIVE (R477). -/
  | agreeReceive (p : Fin 8) (a : Agree) (t3 t4 c2 : Nat)
  /-- PEER_SILENCE (R479). -/
  | peerSilence (p : Fin 8)
  /-- THETA_STALE (R478). -/
  | thetaStale
  /-- NOTICE_RECEIVE (R480). -/
  | noticeReceive (i j kind : Fin 8) (t : Nat)
  /-- FRAME_MESSAGE_RECEIVE (R482). -/
  | frameMessageReceive (m : FrameMsg)
  /-- POWER_ON_RESET (R311). -/
  | powerOnReset (rcvr : Bool) (bad : List (Fin 32))
  /-- PACKAGE_RESET (R508). -/
  | packageReset (bad : List (Fin 32))
  /-- RESET_RELEASE (R508). -/
  | resetRelease (rcvr : Bool)
  /-- VBAT_LOW_CHANGE (R383). -/
  | vbatLowChange (v : Byte)
  /-- VBK_LOW_CHANGE (R401). -/
  | vbkLowChange (v : Byte)
  /-- RAIL_WINDOW_LOSS (R401). -/
  | railWindowLoss (i : Fin 4) (inside : Bool)
  /-- WFI (R271). -/
  | wfi (e : EngNo)
  /-- MRET (R281). -/
  | mret (e : EngNo)
  /-- USB_VBUS_CHANGE (R423). -/
  | usbVbusChange (on : Bool)
  /-- PCIE_L2_ENTRY (R423). -/
  | pcieL2Entry
  /-- TAMPER_REARM (R447). -/
  | tamperRearm
  deriving DecidableEq, Repr

end Sys2Proof
end

