-- ==== Sys2Proof/Machine/State.lean ====
section
/-! DEFINITION. The state of the package as plain data, the reasons a step can stop, and the state after power-on
reset.

Everything software can see as a register lives in `regs`, by its offset in the register space; the sub-structures hold
what the spec gives the machine beside its registers (timers, queues, conditions, stores that no register shows). -/

namespace Sys2Proof.Machine

/-! ## Ledger -/

/-- What a ledger record reports before its PHASE bit is known (R348). -/
inductive RecBody where
  | event (src count detail : Nat)
  | completion (slot state : Nat) (dir dup taint : Bool) (wp code tag stamp pool mon : Nat)
  deriving DecidableEq, Repr

/-- A created record that waits for delivery (R352, R353): the tick and the local time of its creation, its ring, and
whether it occupies the staging store (EACH and COMPLETION records). -/
structure LedRec where
  tick : Nat
  nso : Nat
  ring : Nat
  staged : Bool
  body : RecBody
  deriving DecidableEq, Repr

/-- What a ring has beside its registers: armed (R354), the tick of its last signal (R355), and the records lost since
its last OVERFLOW record with the time of the first (R353). -/
structure RingHid where
  armed : Bool := true
  lastSig : Option Nat := none
  lost : Nat := 0
  lostNso : Nat := 0
  deriving DecidableEq, Repr

/-- An open millisecond of a rate-limited source (R515): its first tick, the qualifying happenings counted, and the
source and detail to raise at its end (count-carrying sources only). -/
structure RateHid where
  start : Nat := 0
  count : Nat := 0
  src : Nat := 0
  detail : Nat := 0
  deriving DecidableEq, Repr

/-- The ledger beside its registers (R343 to R360). -/
structure Ledger where
  queue : List LedRec := []
  /-- raises since the last record of a LATCH source in ACTIVE_PENDING: count, first detail, first time -/
  latched : SMap (Nat × Nat × Nat) := []
  rings : SMap RingHid := []
  holdSince : Option Nat := none
  rate : List (Nat × RateHid) := []
  /-- sources latched by the watch in A2 and A3 (R357): source, time of detection, detail -/
  wakes : List (Nat × Nat × Nat) := []
  deriving DecidableEq, Repr

/-! ## Curator -/

/-- A fault report on its way to the curator (R361): source, kind, detection time and tick, and the access that caused
it (address, master, access type; R365). -/
structure FaultReport where
  src : Nat
  kind : Nat
  nso : Nat := 0
  tick : Nat := 0
  addr : Nat := 0
  master : Nat := 2047
  acc : Nat := 0
  inj : Bool := false
  deriving DecidableEq, Repr

/-- The curator beside its registers (R361 to R382). -/
structure Curator where
  inbox : List FaultReport := []
  /-- fault conditions that hold now: source and kind -/
  live : List (Nat × Nat) := []
  /-- occurrences that window rules count: kind, source, detection time -/
  occ : List (Nat × Nat × Nat) := []
  /-- tick from which the quiet period of an entry runs -/
  quietFrom : SMap Nat := []
  /-- an overflowed occurrence ran SAFE while OVF holds (R371) -/
  ovfSafe : Bool := false
  /-- local times of automatic exits (R373) -/
  exits : List Nat := []
  /-- the station whose reclaim runs, and the stations queued behind it (R375) -/
  reclaim : Option Nat := none
  reclaimQueue : List Nat := []
  deriving DecidableEq, Repr

/-! ## Time -/

/-- The time unit beside its registers (R322 to R342): local time in whole nanoseconds since the origin with its
fraction in 2^-32 ns, and the ticks of the 500 MHz timebase since power-on. -/
structure TimeUnit where
  ns : Nat := 0
  frac : Nat := 0
  ticks : Nat := 0
  incHeld : Option Word := none
  stepReq : Option (Int × Bool) := none
  /-- tick of the last applied step -/
  lastStep : Option Nat := none
  lockTick : Nat := 0
  nonceTick : Option Nat := none
  /-- progress of the vault time towards its next 2^-15 s, in ticks times 128 (R330) -/
  vaultAcc : Nat := 0
  /-- SEQ of the last beacon accepted for a resynchronisation, by receive channel (R337) -/
  brxSeq : SMap (Option Nat) := []
  deriving DecidableEq, Repr

/-! ## Power and watch -/

/-- Power states (R392): Awake, Drowse, Cocoon, Diapause and Off. -/
inductive PowerState where
  | a0 | a1 | a2 | a3 | off
  deriving DecidableEq, Repr

/-- The supply and the watch beside their registers (R383 to R405). -/
structure Power where
  state : PowerState := .a0
  /-- a package reset holds: RST_N is low -/
  held : Bool := false
  vbatOk : Bool := true
  /-- rails enabled and rails inside their window, in up order; tick of the last enable, and of the end of the wait after a
  failure -/
  rails : Nat := 4
  inWindow : Nat := 4
  railTick : Nat := 0
  retryAt : Option Nat := none
  /-- the 25 MHz reference is valid -/
  refOk : Bool := true
  /-- rails outside their window during operation -/
  railsOut : List Nat := []
  /-- tick at which the lapse window opened (R399) -/
  vbkWindow : Option Nat := none
  /-- the vault time was valid when the watch started on its RC oscillator (R387) -/
  vtHeld : Bool := false
  /-- tick of the entry to A2 or A3, the tick at which the lead of the next known event is reached, that of the last hall
  refresh, and the wake trigger of a return from A3 that has not restored its image yet -/
  enterTick : Nat := 0
  wakeTick : Option Nat := none
  refreshTick : Nat := 0
  trigger : Option Nat := none
  /-- READY and RGN_READY before A2, and hall words whose double-bit error a refresh found -/
  readyWas : Word := 0
  rgnWas : Word := 0
  foundUe : List Nat := []
  deriving DecidableEq, Repr

/-! ## Ports -/

/-- An attempt on the wire: a beacon or the slot of the port's next request, the local time at which its start-of-frame
edge left the pins (R123), and whether it has won arbitration (R163). -/
structure Attempt where
  beacon : Bool
  slot : Nat
  sof : Nat
  won : Bool := false
  deriving DecidableEq, Repr

/-- A slot and buffer taken for a reception in progress (R180, R181): `replaces` when it takes a DONE slot. -/
structure Admission where
  pool : Nat
  slot : Nat
  buf : Nat
  replaces : Bool
  /-- the taken buffer came out of the free queue -/
  fresh : Bool
  deriving DecidableEq, Repr

/-- One candidate result of a catalogue search (R191): the format and remote flag it holds for, the entry that matched, and
the words of that entry as the search met them. -/
structure Cand where
  fmt : Nat
  rmt : Bool
  entry : Option Nat
  words : List Word := []
  deriving DecidableEq, Repr

/-- The search of the frame now on a port: its start-of-frame time, the candidates, whether the XL candidate is complete, the
slot and buffer taken for the candidate that applies, and whether R181 refused the frame there. -/
structure Search where
  sof : Nat
  cands : List Cand
  xl : Bool := false
  adm : Option Admission := none
  refused : Bool := false
  deriving DecidableEq, Repr

/-- The last frame a port received correctly (R259). -/
structure LastRx where
  frame : Frame
  endNs : Nat
  eofDominant : Bool
  deriving DecidableEq, Repr

/-- A port beside its registers: physical conditions (R75 to R86), governor (R88 to R93), bit engine (R117 to R124) and
error confinement (R212 to R233). -/
structure Port where
  latched : Bool := false
  /-- tick at which the driver turned off (R83) -/
  faultOff : Option Nat := none
  /-- energy of the fault event in progress, in 1/16 pJ (R82) -/
  event : Option Nat := none
  /-- energy so far of a fault event that a state change cut, until its end is metered (R82, R85) -/
  cutEvent : Option Nat := none
  /-- erroneous frames counted by the wake-up frame detector (R94) -/
  wakeErrs : Nat := 0
  /-- tick at which the engine entered INTEGRATING while it could be receiving (R118) -/
  intTick : Option Nat := none
  /-- consecutive failing and passing checks of each wire condition (R86) -/
  streak : SMap (Nat × Nat) := []
  attempt : Option Attempt := none
  /-- energy reserved by the admitted attempt, in 1/16 pJ (R89) -/
  reservation : Nat := 0
  /-- tick and local time at which the next frame was deferred (R92, R93) -/
  deferTick : Option Nat := none
  deferFlagged : Bool := false
  collisions : Nat := 0
  /-- OPMODE in effect, and a written mode that waits for IDLE (R119) -/
  opMode : Nat := 0
  opPending : Option Nat := none
  /-- next due instant of the beacon schedule, and the beacon that waits to be sent, by SEQ (R121 to R124) -/
  beaconNext : Option Nat := none
  beaconWait : Option Nat := none
  /-- SEQ of the next beacon, and the handle of the key that the SECURITY section binds to the port's beacon (R122) -/
  beaconSeq : Nat := 0
  beaconKey : Option Nat := none
  search : Option Search := none
  lastRx : Option LastRx := none
  /-- ticks of the bus-off entries of the GUARDED history (R221) -/
  boTicks : List Nat := []
  boTick : Nat := 0
  holdEnd : Nat := 0
  /-- increases of TEC and REC in buckets of 1 ms, the current one first (R228) -/
  slopeT : List Nat := []
  slopeR : List Nat := []
  /-- energy below one unit of LP[n].EMETER, in 1/16 pJ -/
  meterRest : Nat := 0
  deriving DecidableEq, Repr

/-- A streamed sample of a capture (R127, R149): its code, the saturated converter samples in it, whether sounding pulses
fall in it, and whether the port drove the line. -/
structure CapSample where
  code : Byte
  sat : Nat := 0
  snd : Bool := false
  tx : Bool := false
  deriving DecidableEq, Repr

/-- A frame for the census (R146, R147): its ingress timestamp, its slot or none for an unknown frame, and its identifier. -/
structure CenFrame where
  t : Nat
  slot : Option Nat
  id : Nat
  ide : Bool
  deriving DecidableEq, Repr

/-- Observation of a port beside its registers: the enrolment accumulators (R137), the census start with the REPEAT
option and the timestamps of the frames of each slot, newest first (R144, R145), and the capture (R149). -/
structure ObsPort where
  enrSq : List (Int × Bool) := []
  cenStart : Nat := 0
  cenRepeat : Bool := false
  /-- the trackers have started and no census has completed since -/
  cenFirst : Bool := true
  /-- censuses completed -/
  cenCount : Nat := 0
  /-- ingress timestamps by slot, newest first -/
  seen : SMap (List Nat) := []
  /-- frames later than the end of the running census, oldest first -/
  cenLater : List CenFrame := []
  /-- samples of the capture still to be streamed (R149) -/
  capLeft : Nat := 0
  capGap : Bool := false
  /-- the capture ends after the packet in progress -/
  capStop : Bool := false
  /-- the pre-trigger buffer and the samples not yet streamed, oldest first, the instant of the first in quarters of a
  nanosecond, and the places of the trigger samples -/
  capBuf : List CapSample := []
  capTime : Nat := 0
  capTrigs : List Nat := []
  deriving DecidableEq, Repr

/-- The trace of a sounding unit (R140, R141): REPS, GAIN and THRESH as they act, the records added, and the accumulators
of the 2,048 points. -/
structure Trace where
  cfg : Nat × Nat × Nat := (8, 0, 16)
  count : Nat := 0
  acc : List (Int × Bool) := []
  deriving DecidableEq, Repr

/-- The sounding units of a Line die (R139): the waiting ports with the tick of their request, in order, the port and start
tick of each of the four units, and their traces. -/
structure Sounding where
  queue : List (Nat × Nat) := []
  units : SMap (Option (Nat × Nat)) := []
  traces : SMap Trace := []
  /-- units whose record was discarded, and that wait for a quiet line again (R140) -/
  waiting : List Nat := []
  deriving DecidableEq, Repr

/-- Line observation beside its registers (R127 to R155). -/
structure Obs where
  ports : SMap ObsPort := []
  dies : SMap Sounding := []
  deriving DecidableEq, Repr

/-- A die link (R16, R17): up, the tick and the local time of its last valid transfer, the transfers replayed, and for a
Line die the local fallback in force. -/
structure DieLink where
  up : Bool := false
  /-- tick of the last training (R28) -/
  upTick : Nat := 0
  lastTick : Nat := 0
  lastNs : Nat := 0
  replays : Nat := 0
  fallback : Bool := false
  deriving DecidableEq, Repr

/-- The governor of a Line die (R88 to R92): the number of the current bucket of 100 µs since power-on, metered energy by
bucket, the current one first, in 1/16 pJ, and the deferred ports in queue order. -/
structure Governor where
  bucket : Nat := 0
  buckets : List Nat := []
  queue : List Nat := []
  deriving DecidableEq, Repr

/-! ## Store -/

/-- A slot beside its descriptor: queue time (R170), the original of a duplicate (R173), the code that ends the request
when its attempt in progress does not succeed (a CANCEL, a revocation; R176, R179), the order of its completion (R181)
and a mailbox's second buffer (R183). -/
structure Slot where
  qtime : Nat := 0
  dupOf : Option Nat := none
  stop : Option Nat := none
  doneSeq : Nat := 0
  spare : Nat := 0
  deriving DecidableEq, Repr

/-- One tag of a tag window: tag, slot and, once complete, STATE, CODE and words 6 and 7 (R172). -/
structure Tag where
  tag : Nat
  slot : Nat
  result : Option (Nat × Nat × Word × Word) := none
  deriving DecidableEq, Repr

/-- The message-operation store beside its registers (R156 to R188). -/
structure Store where
  slots : SMap Slot := []
  /-- tag windows by pool, newest tag first -/
  tags : SMap (List Tag) := []
  /-- slot last taken, by pool (R180) -/
  lastTaken : SMap (Option Nat) := []
  /-- free SMALL and LARGE buffers by frame-store pool, longest free first (R160) -/
  free : SMap (List Nat × List Nat) := []
  doneSeq : Nat := 0
  /-- slots taken by receptions in progress -/
  taken : List Nat := []
  /-- pools revoked by the curator (R179) -/
  revoked : List Nat := []
  /-- frame-store pools that wait for their new layout, with the new base, count and reserve words and the ports of the pools
  that name them in either image (R516) -/
  relayout : List (Nat × Word × Word × Word × List Nat) := []
  /-- slots whose QUEUE is held for a new layout (R516) -/
  heldQueue : List Nat := []
  deriving DecidableEq, Repr

/-! ## Catalogue -/

/-- A version of a table in the store (R192, R209): table number, base index, hash area and its exponent, and the length
of the ordered area. -/
structure TableVer where
  table : Nat
  base : Nat
  hash : Bool
  hbits : Nat
  nord : Nat
  deriving DecidableEq, Repr

/-- An accepted update command (R204): requester, code, table, index, staged words and the tick at which it was accepted. -/
structure CatCmd where
  req : Nat
  code : Nat
  table : Nat
  idx : Nat
  words : List Word
  tick : Nat := 0
  deriving DecidableEq, Repr

/-- The catalogue beside its registers: the tables that each port's frames search, in order (R194, R200, R209), the
accepted commands in order (R207), and, while the head has taken effect, its instant U with the content of its index
before it (R206). -/
structure Catalogue where
  bind : SMap (List TableVer) := []
  order : List CatCmd := []
  applied : Option (Nat × Nat × List Word) := none
  /-- U of the last update at each index (R206) -/
  updated : SMap Nat := []
  /-- versions of tables that an epoch change replaces, until no port is bound to them (R209) -/
  stale : List TableVer := []
  deriving DecidableEq, Repr

/-! ## Gateway -/

/-- What a leg copy waits for (R241, R253): staged in its slot or entry, waiting without one, or released. -/
inductive CopyState where
  | staged | waiting | released
  deriving DecidableEq, Repr

/-- What a copy keeps of its leg and its route, which may change before it is released (R60, R63): the leg's kind, index,
pool, queue depth, can_bus_id and route at the member, BREACH_ACT DROP, and the horizon. -/
structure LegAttr where
  kind : Nat := 0
  index : Nat := 0
  pool : Nat := 0
  depth : Nat := 0
  bus : Nat := 0
  remote : Nat := 0
  drop : Bool := false
  horizon : Nat := 0
  deriving DecidableEq, Repr

/-- A copy of an accepted frame on one leg (R241 to R261): route, leg number, what it keeps of them, the leg index of the
reference key, target code, release time R, ingress timestamp T, origin member, ingress source, message index and selection
key S. -/
structure Copy where
  route : Nat
  leg : Nat
  attr : LegAttr := {}
  idx : Nat
  target : Nat
  release : Nat
  stamp : Nat
  origin : Nat := 0
  source : Nat
  msg : Nat := 0
  key : Nat
  slot : Option Nat := none
  frame : Frame
  taint : Bool := false
  /-- words of its source data are poisoned (R315) -/
  poisoned : Bool := false
  state : CopyState
  /-- NOSLOT breach already counted for it -/
  breached : Bool := false
  /-- a forced step made it late: it is released as soon as it is staged (R328) -/
  forced : Bool := false
  deriving DecidableEq, Repr

/-- A frame that waits in the gateway's RX slot for its route to start (R241). -/
structure WaitingFrame where
  slot : Nat
  route : Nat
  port : Nat
  /-- a repetition under R259 -/
  dup : Bool
  sof : Nat
  /-- received before a forced step (R328) -/
  forced : Bool := false
  deriving DecidableEq, Repr

/-- What reached the gateway before it was usable, and is held for it (R32): an AVTPDU of a tunnel stream with its instant,
or a FRAME message. -/
inductive HeldIn where
  | avtpdu (stream t : Nat) (a : Avtpdu)
  | frame (m : FrameMsg)
  deriving DecidableEq, Repr

/-- The gateway beside its registers (R236 to R266). -/
structure Gateway where
  copies : List Copy := []
  /-- ingress timestamps of accepted frames by route (R246) -/
  accepted : SMap (List Nat) := []
  /-- slot last taken by leg (R241) -/
  legLast : SMap (Option Nat) := []
  waiting : List WaitingFrame := []
  /-- accepted sequence numbers below HI by stream, bit b for HI − b (R260), and the tick of the last acceptance -/
  tunMap : SMap Nat := []
  tunTick : SMap Nat := []
  /-- suspended routes (R62) -/
  suspended : List Nat := []
  /-- declared routes that have not started yet (R63) -/
  notStarted : List Nat := []
  /-- what waits for the gateway to become usable, oldest first (R32) -/
  heldIn : List HeldIn := []
  deriving DecidableEq, Repr

/-! ## Spine, host and service -/

/-- What a stream has to send: an AVTPDU with its priority, a specimen packet, or a constellation message with the leg
whose queue holds it and the receive timestamp of a message that is forwarded (R410, R475, R481). -/
inductive SpineItem where
  | tunnel (pcp : Nat) (a : Avtpdu)
  | specimen (bs : List Byte)
  | message (leg : Option Nat) (rx : Option Nat) (bs : List Byte)
  deriving DecidableEq, Repr

/-- A stream beside its registers (R411, R416): frames not yet started, oldest first, and SEQ of the next native frame. -/
structure Stream where
  queue : List SpineItem := []
  seq : Nat := 0
  deriving DecidableEq, Repr

/-- A lane beside its registers (R408, R409, R414): the tick at which its link came up, those of the last frame sent and
the last valid frame received, the stream of the frame last started, SEQ of KEEPALIVE frames, packet numbers sent by
association, and highest packet numbers received by secure channel and association. -/
structure Lane where
  upSince : Option Nat := none
  lastSent : Nat := 0
  lastValid : Option Nat := none
  started : Option Nat := none
  keepSeq : Nat := 0
  /-- tick from which the next restart of training is counted -/
  retryFrom : Nat := 0
  txPn : SMap Nat := []
  rxPn : SMap Nat := []
  deriving DecidableEq, Repr

/-- Spine, host and service interfaces beside their registers (R406 to R427): lanes, streams, the replay window of each
lane (SPINE section), the cause of an endpoint reset not yet reported, PCIe in L2/L3 Ready, PERST_N, USB_VBUS, remote
wakeup enabled by the USB host, and the DFU block in flight. -/
structure Spine where
  lanes : SMap Lane := []
  streams : SMap Stream := []
  replayWin : SMap Nat := []
  pcieCause : Option Nat := none
  pcieL2 : Bool := false
  perst : Bool := false
  vbus : Bool := false
  remoteWake : Bool := false
  deriving DecidableEq, Repr

/-! ## Constellation -/

/-- What a member knows of a peer beside its registers (R476 to R479): tick and content of its last AGREE, and the fields
the next AGREE to it echoes. -/
structure Peer where
  lastTick : Option Nat := none
  version : Nat := 0
  epoch : Nat := 0
  digest : List Byte := []
  echo : Option (Nat × Nat × Nat) := none
  deriving DecidableEq, Repr

/-- The constellation block beside its registers: peers, the tick at which THETA was last computed, the tick of the last
AGREE period, and the consecutive periods in which no fencing condition held (R478). -/
structure Con where
  peers : SMap Peer := []
  thetaTick : Option Nat := none
  periodTick : Nat := 0
  clearPeriods : Nat := 0
  /-- tick of the commit or move that made this package a member -/
  start : Nat := 0
  /-- tick at which CON.DIS took its record (R485) -/
  disTick : Nat := 0
  deriving DecidableEq, Repr

/-! ## Engines -/

/-- A line of an L1 data cache: 0 shared, 1 exclusive, 2 modified (R285). -/
structure L1Line where
  mesi : Nat
  data : List Byte
  deriving DecidableEq, Repr

/-- A line of a region L2, with the way of its set that holds it (R285, R296). -/
structure L2Line where
  dirty : Bool
  data : List Byte
  way : Nat := 0
  deriving DecidableEq, Repr

/-- An engine beside its registers (R267 to R289): x1–x31, pc, privilege mode, CSRs, the LR reservation by line, and the
L1 data cache by line address. -/
structure Engine where
  x : SMap Word := []
  pc : Word := 0
  user : Bool := false
  csr : SMap Word := []
  reservation : Option Nat := none
  l1 : SMap (Option L1Line) := []
  deriving DecidableEq, Repr

/-- A cluster beside its registers: instruction SRAM, scratchpad, and the last holder of each lock (R272, R291). -/
structure Cluster where
  isram : SMap Byte := []
  pad : SMap Byte := []
  lockLast : SMap Nat := []
  deriving DecidableEq, Repr

/-- A region beside its registers: L2 by line address, the last winner of a contested line (R286), and the operating
point asked for while a change runs (R295). -/
structure Region where
  l2 : SMap (Option L2Line) := []
  lastWinner : Nat := 63
  /-- the TARGET of the change in progress, and the value last written while it runs -/
  changing : Option Nat := none
  nextTarget : Option Nat := none
  /-- step of the change: 1 waits for the regulator before the clock moves, 2 for PLL lock, 3 for the regulator after it, 4
  is at its end (R390) -/
  stage : Nat := 0
  /-- failed PLL locks of the change, the tick of the last retuning, and the region left on the bridge clock (R391) -/
  pllFails : Nat := 0
  pllTick : Nat := 0
  bridge : Bool := false
  deriving DecidableEq, Repr

/-- The engines, clusters and regions (R267 to R299). -/
structure Cores where
  engines : SMap Engine := []
  clusters : SMap Cluster := []
  regions : SMap Region := []
  /-- replacements that a full cache has made: the model's own count -/
  victims : Nat := 0
  deriving DecidableEq, Repr

/-! ## Halls -/

/-- A hall access that waits: since which tick, and for a unit that is clearing (R308, R310, R313). -/
structure HeldAcc where
  req : HallReq
  since : Nat := 0
  clearing : Bool := false
  deriving DecidableEq, Repr

/-- The halls beside their registers and bytes (R300 to R319): poisoned words and words whose corrected value waits to be
written back, by offset divided by 8; the pending handover (first unit, count, CLEAR) and revocation (owner, TO, units);
accesses held for a clear, a handover or a hall credit; spare words used, by bank; the instant of each hall's last word
test (R317). -/
structure Halls where
  poison : SMap Bool := []
  fix : SMap Bool := []
  handover : Option (Nat × Nat × Bool) := none
  revoke : Option (Nat × Nat × List Nat) := none
  held : List HeldAcc := []
  spares : SMap Nat := []
  tested : SMap (Option Nat) := []
  deriving DecidableEq, Repr

/-! ## Structure image -/

/-- A copy of the image journal (R51): states 0 IDLE, 1 WRITING, 2 STAGED and 3 SWITCHING; GOV true is area B; SWITCH_TIME as
words 28 and 29 keep it; `crc` is word 31. -/
structure JCopy where
  seq : Nat := 0
  state : Nat := 0
  gov : Bool := false
  govValid : Bool := false
  epoch : Nat := 0
  govDigest : List Byte := []
  newDigest : List Byte := []
  newVersion : Nat := 0
  switchTime : Nat := 0
  crc : Nat := 0
  deriving DecidableEq, Repr

/-- IMG beside its registers (R38 to R64): the shadow, the areas A and B of the flash, the two journal copies (none is one
whose write was torn), the SWITCHING copy being written, the tick of the switch instant, and the images between which an
epoch change moves. -/
structure Image where
  shadow : List Byte := []
  areaA : List Byte := []
  areaB : List Byte := []
  copy0 : Option JCopy := some { seq := 1, crc := 0x61D1F499 }
  copy1 : Option JCopy := some { crc := 0x15D70E0C }
  writing : Option JCopy := none
  switchTick : Nat := 0
  /-- the journal has been settled since the last reset (R54) -/
  restored : Bool := false
  /-- bytes of the governing image as applied, and of the image before it while ports are in transition, with the words of
  its signature stores -/
  gov : List Byte := []
  old : List Byte := []
  sigs : SMap Word := []
  /-- base indexes of the catalogue tables of the governing image (R192, R209) -/
  bases : List (Nat × Nat) := []
  /-- old routes that have stopped since the switch instant (R63) -/
  stopped : List Nat := []
  deriving DecidableEq, Repr

/-! ## Update -/

/-- A copy of the update journal (R459); `crc` is word 31. -/
structure UCopy where
  seq : Nat := 0
  state : Nat := 0
  imago : Bool := false
  imagoValid : Bool := false
  tries : Nat := 0
  ver0 : Nat := 0
  ver1 : Nat := 0
  lwy0 : List Byte := []
  lwy1 : List Byte := []
  prefix8 : List Byte := []
  crc : Nat := 0
  deriving DecidableEq, Repr

/-- Update control beside its registers (R452 to R472): the chunks of the instar slots in flash by 256 × slot + chunk, and
the two journal copies. -/
structure Update where
  chunks : SMap (List Byte) := []
  copy0 : Option UCopy := some { seq := 1, crc := 0x61D1F499 }
  copy1 : Option UCopy := some { crc := 0x15D70E0C }
  /-- the command in progress, with its result once its work is over -/
  job : Option (Nat × Option Nat) := none
  /-- hall offset and part size of the chrysalis area, hall offset and number of the staged code pieces (R461) -/
  chrysalis : Nat × Nat := (0, 0)
  staging : Nat × Nat := (0, 0)
  /-- ticks of the HANDOVER write and of the start of the trial timer, and the handover has issued COMMIT (R463) -/
  hoTick : Option Nat := none
  trialTick : Option Nat := none
  committing : Bool := false
  /-- the cause of the fallback in progress, and it has issued COMMIT (R466) -/
  fallback : Option (Nat × Bool) := none
  /-- bytes of acknowledged DFU blocks of the chunk in flight (R467) -/
  dfu : List Byte := []
  /-- the outcome of R460 has been decided since the last reset, and engines with AUTO wait for it -/
  booted : Bool := false
  held : Bool := true
  deriving DecidableEq, Repr

/-! ## Vitrine and vault -/

/-- A monotonic counter beside its register (R443, R444): its value, the number of updates, and the update numbers at
which a read of each of its four physical words was corrected, since that word last migrated. -/
structure Counter where
  value : Nat := 0
  writes : Nat := 0
  corrected : SMap (List Nat) := []
  deriving DecidableEq, Repr

/-- The vitrine and the vault beside their registers (R428 to R447): key material by handle, the customer root, the
counters (0 to 63 general, 64 + b freshness), the next SEQ and the last MAC of the tamper log, the life-cycle state that
governs from the next reset, the key command in progress with its result, the tamper input's arming and the events that
wait for the vault's rails, and the random numbers drawn. -/
structure Vault where
  keys : SMap (List Byte) := []
  cr : Option (List Byte) := none
  counters : SMap Counter := []
  tlogSeq : Nat := 0
  tlogMac : List Byte := [0, 0, 0, 0, 0, 0, 0, 0]
  lcNext : Option Nat := none
  job : Option (Nat × Nat) := none
  tamperHeld : Bool := false
  tamperLog : List Nat := []
  drawn : Nat := 0
  deriving DecidableEq, Repr

/-! ## Accesses -/

/-- The answer to the last register or hall access: read data, a write accepted or discarded, a completer abort, or an
access fault on the engine (R5, R34, R491), data marked poisoned (R315). -/
inductive Resp where
  | data (w : Nat)
  | poisoned (w : Nat)
  | done
  | abort
  | fault
  deriving DecidableEq, Repr

/-- What the part has sent to the outside world, newest first. -/
inductive Output where
  /-- a frame driven on a bus port, to its end, with the FCS of an Ethernet frame (R112) -/
  | busFrame (port : Nat) (f : Frame) (fcs : Option Nat := none)
  /-- an MSI-X message of a vector to the host (R354) -/
  | msix (vector : Nat)
  /-- an Ethernet frame of a lane's host queue, to its last byte before the FCS, with the association and packet number
  that protect it (R414, R415) -/
  | laneEth (lane : Nat) (bs : List Byte) (sec : Option (Nat × Nat))
  /-- an AVTPDU of a tunnel stream: addresses, VLAN identifier and priority, and protection (R412) -/
  | laneTunnel (lane da sa vid pcp : Nat) (a : Avtpdu) (sec : Option (Nat × Nat))
  /-- a capture frame (R412) -/
  | laneCapture (lane da sa vid pcp : Nat) (bs : List Byte) (sec : Option (Nat × Nat))
  /-- a native frame with header and CRC (R408) -/
  | laneNative (lane : Nat) (bs : List Byte)
  /-- WAKE_N is asserted (R423) -/
  | wakeN
  /-- USB remote wakeup is signalled (R423) -/
  | remoteWakeup
  /-- a response of the service port (R421) -/
  | svc (bs : List Byte)
  /-- Ramorny answers a DFU block with a status: 0 OK, 1 errFILE, 2 errVERIFY, 3 errPROG, 4 errADDRESS, 5 errNOTDONE
  (R467, R468) -/
  | dfu (status : Nat)
  deriving DecidableEq, Repr

/-- The package. -/
structure State where
  /-- register words by offset (R488) -/
  regs : SMap Word := []
  /-- hall bytes by hall offset (R300) -/
  mem : List Host.Cell := []
  /-- commands that wait, first in first out -/
  pending : List Instr := []
  led : Ledger := {}
  cur : Curator := {}
  time : TimeUnit := {}
  pwr : Power := {}
  ports : SMap Port := []
  obs : Obs := {}
  links : SMap DieLink := []
  gov : SMap Governor := []
  store : Store := {}
  cat : Catalogue := {}
  gw : Gateway := {}
  spine : Spine := {}
  con : Con := {}
  cores : Cores := {}
  halls : Halls := {}
  img : Image := {}
  upd : Update := {}
  vault : Vault := {}
  /-- holding latches of 64-bit reads by requester, 0 the host and e + 1 engine e: register and high word (R6) -/
  latches : SMap (Option (Nat × Word)) := []
  resp : Option Resp := none
  out : List Output := []
  deriving DecidableEq, Repr

/-- Why the machine stops. -/
inductive Fault where
  /-- raised by a command whose operand no event of the package can carry; safe: the machine stops -/
  | illFormed (what : String)
  deriving DecidableEq, Repr

/-- Why the model gives no meaning. -/
inductive Refusal where
  /-- raised by Machine/Dispatch.lean for a command without a meaning; safe: the machine stops -/
  | notModelled (mnemonic : String)
  deriving DecidableEq, Repr

/-- What a step answers. -/
abbrev Out : Type := Host.Outcome State Fault Refusal

/-- The package right after power-on reset. -/
def State.reset : State := {}

end Sys2Proof.Machine
end

