-- ==== Sys2Proof/Machine/Store.lean ====
section
/-! DEFINITION. Sparse tables: reading, writing and the canonical form. The halls, the register space and the
per-unit tables of the state are all held this way. -/

namespace Sys2Proof.Machine

/-- The value at key `k`: the listed one, or the default `d k`. -/
def smapFind {V : Type} (d : Nat → V) : SMap V → Nat → V
  | [], k => d k
  | (k', v) :: m, k => if k = k' then v else smapFind d m k

/-- Drop every entry of key `k`. -/
def smapErase {V : Type} : SMap V → Nat → SMap V
  | [], _ => []
  | (k', v) :: m, k => if k = k' then smapErase m k else (k', v) :: smapErase m k

/-- Put an entry in front of the first one with a larger key. -/
def smapPlace {V : Type} : SMap V → Nat → V → SMap V
  | [], k, v => [(k, v)]
  | (k', v') :: m, k, v => if k < k' then (k, v) :: (k', v') :: m else (k', v') :: smapPlace m k v

/-- List value `v` at key `k`, whatever the default is. -/
def smapInsert {V : Type} (m : SMap V) (k : Nat) (v : V) : SMap V := smapPlace (smapErase m k) k v

/-- Write `v` at key `k`; a value equal to the default is not listed, so equal tables are equal data. -/
def smapPut {V : Type} [DecidableEq V] (d : Nat → V) (m : SMap V) (k : Nat) (v : V) : SMap V :=
  if v = d k then smapErase m k else smapInsert m k v

/-- The canonical form from key bound `lo` on: keys rising from `lo`, no value equal to the default. -/
def smapWfFrom {V : Type} [DecidableEq V] (d : Nat → V) : Nat → SMap V → Bool
  | _, [] => true
  | lo, (k, v) :: m => decide (lo ≤ k) && decide (v ≠ d k) && smapWfFrom d (k + 1) m

/-- The canonical form of a table. -/
def smapWf {V : Type} [DecidableEq V] (d : Nat → V) (m : SMap V) : Bool := smapWfFrom d 0 m

end Sys2Proof.Machine
end

