-- ==== Sys2Proof/Machine/Operands.lean ====
section
/-! DEFINITION. Operand forms: the register space as words, and every named field of every register.

A field `BLOCK.NAME.FIELD` of the spec is the `Loc` called `BLOCK_NAME_FIELD`, applied to the register's indexes.
Offsets, strides and bit places follow the register maps and field tables of the chapters (R488 to R490). An index counts
modulo the number of instances that its register map gives, so a field always lies in its own register. -/

namespace Sys2Proof.Machine

/-- A field: the register offset of its (low) word, its lowest bit and its width. A field that ends above bit 31
continues in the next word (R5). -/
structure Loc where
  addr : Nat
  lo : Nat
  len : Nat
  deriving DecidableEq, Repr

/-- The registers that the spec keeps "per requester" have one copy for each station 0–63 and one for the host, 64
(R203, R440); the copies of requester `q` lie `2^32 (q + 1)` above the offset that all of them share. -/
def perRequester (q : Nat) : Nat := 0x100000000 * (q % 128 + 1)

/-- Default severity, fixed SAFE reaction and FIXED bit of a fault kind: the reset word of CUR.KIND (R361, R382, R401,
R426, R449, R471, R486). Kinds 0x40–0x5F without a severity of their own are S2. -/
def kindResetWord (k : Nat) : Word :=
  if k = 0x01 ∨ k = 0x02 ∨ k = 0x04 ∨ k = 0x10 ∨ k = 0x22 ∨ k = 0x23 ∨ k = 0x30 then 1
  else if k = 0x03 ∨ k = 0x05 ∨ k = 0x21 ∨ k = 0x24 ∨ k = 0x31 then 2
  else if k = 0x38 ∨ k = 0x60 ∨ k = 0x62 then 0x87
  else if k = 0x40 ∨ k = 0x45 ∨ k = 0x49 ∨ k = 0x4A ∨ k = 0x51 ∨ k = 0x56 then 1
  else if k = 0x41 ∨ k = 0x42 then 3
  else if 0x40 ≤ k ∧ k ≤ 0x5F then 2
  else 0

/-- What a register word holds after power-on reset, and what an unlisted offset reads as: 0 but for the fields whose
table gives another reset value (R10). Fuse values: stepping 2A in CHIP.ID (R14). -/
def resetWord (a : Nat) : Word :=
  if a = 0x0 then 0x96402A01                                     -- CHIP.ID (R14, R496)
  else if a = 0x100028 then 0x00010000                           -- IMG.FMT
  else if a = 0x10002C then 1                                    -- IMG.SVER_MAX
  else if a = 0x100030 then 100                                  -- IMG.TRANS_LIMIT
  else if 0x1800000 ≤ a ∧ a < 0x1880000 then
    if a % 0x1000 = 0x100 then 0x00002008 else 0                 -- OBS.SND_CFG: REPS 8, THRESH 16
  else if 0x2008000 ≤ a ∧ a < 0x200A000 then
    if a % 32 = 16 then 0xFFFFFFFF else 0                        -- MOP.FSP_LOW
  else if a = 0x5000004 then 0x00000014                          -- LEDG.HOLD: MAX 10
  else if a = 0x5100004 then 0x00004000                          -- CUR.STAT: FAULTN 1
  else if 0x5101000 ≤ a ∧ a < 0x5101400 then
    if a % 4 = 0 then kindResetWord ((a - 0x5101000) / 4) else 0 -- CUR.KIND
  else if a = 0x5200014 then 2                                   -- TIME.INC, high word
  else if a = 0x5410004 then 1                                   -- PCIE.CFG: WAKE_EN
  else if 0x5418000 ≤ a ∧ a < 0x5418400 then
    if a % 16 = 12 then 1 else 0                                 -- MSI-X table: every vector masked (R419, PCIe)
  else if a = 0x5601008 then 0x02000000                          -- VAULT.MRAM: SPARES 512 (R444)
  else if 0x5501000 ≤ a ∧ a < 0x5505000 then
    if a % 4 = 0 then 0x001FE040 else 0                          -- HALL.OWN: CUR 64, OWNER 64, ALT 127
  else 0

/-- The `len` bits of `w` from bit `lo`. -/
def bitsOf {n : Nat} (w : BitVec n) (lo len : Nat) : Nat := (w.toNat >>> lo) % 2 ^ len

/-- `w` with its `len` bits from bit `lo` replaced by the low bits of `v`. -/
def putBits {n : Nat} (w : BitVec n) (lo len v : Nat) : BitVec n :=
  (w &&& ~~~(BitVec.ofNat n (2 ^ len - 1) <<< lo)) ||| (BitVec.ofNat n (v % 2 ^ len) <<< lo)

/-- The register word at offset `a`. -/
def State.word (s : State) (a : Nat) : Word := smapFind resetWord s.regs a

/-- `s` with the register word at offset `a` set. -/
def State.setWord (s : State) (a : Nat) (w : Word) : State := { s with regs := smapPut resetWord s.regs a w }

/-- The two words of a 64-bit register, low word at the lower offset (R5). -/
def State.word64 (s : State) (a : Nat) : BitVec 64 := (s.word (a + 4) : BitVec 32) ++ (s.word a : BitVec 32)

/-- `s` with both words of a 64-bit register set. -/
def State.setWord64 (s : State) (a : Nat) (w : BitVec 64) : State :=
  (s.setWord a (w.truncate 32)).setWord (a + 4) ((w >>> 32).truncate 32)

/-- The value of a field. -/
def State.get (s : State) (l : Loc) : Nat :=
  if l.lo + l.len ≤ 32 then bitsOf (s.word l.addr) l.lo l.len else bitsOf (s.word64 l.addr) l.lo l.len

/-- `s` with a field set; the other bits of its word stay. -/
def State.set (s : State) (l : Loc) (v : Nat) : State :=
  if l.lo + l.len ≤ 32 then s.setWord l.addr (putBits (s.word l.addr) l.lo l.len v)
  else s.setWord64 l.addr (putBits (s.word64 l.addr) l.lo l.len v)

/-- A one-bit field as a truth value. -/
def State.flag (s : State) (l : Loc) : Bool := s.get l = 1

/-- Set a one-bit field. -/
def State.put (s : State) (l : Loc) (b : Bool) : State := s.set l (if b then 1 else 0)

/-- Add `k` to a counter field that saturates at its largest value. -/
def State.add (s : State) (l : Loc) (k : Nat) : State := s.set l (min (s.get l + k) (2 ^ l.len - 1))

/-- Count one in a saturating counter field. -/
def State.inc (s : State) (l : Loc) : State := s.add l 1

/-- The unsigned field value read as a two's complement number of the field's width. -/
def State.getInt (s : State) (l : Loc) : Int :=
  if s.get l < 2 ^ (l.len - 1) then (s.get l : Int) else (s.get l : Int) - 2 ^ l.len

/-- Set a field to the low bits of an integer. -/
def State.setInt (s : State) (l : Loc) (v : Int) : State := s.set l (v % 2 ^ l.len).toNat

/-- The canonical form of the register space (no entry equals what an unlisted offset reads as). -/
def State.regsWf (s : State) : Bool := smapWf resetWord s.regs


/-! IMG.CTRL (02_structure_image.md, R64) -/
/-- [3:0], WO. -/
def IMG_CTRL_CMD : Loc := ⟨0x00100000, 0, 4⟩

/-! IMG.STATUS (02_structure_image.md, R64) -/
/-- [2:0], RO. -/
def IMG_STATUS_PHASE : Loc := ⟨0x00100004, 0, 3⟩
/-- [3], W1C. -/
def IMG_STATUS_CMDERR : Loc := ⟨0x00100004, 3, 1⟩
/-- [31:16], RO. -/
def IMG_STATUS_REASON : Loc := ⟨0x00100004, 16, 16⟩

/-! IMG.SRC (02_structure_image.md, R64) -/
/-- [25:3], RW. -/
def IMG_SRC_OFFSET : Loc := ⟨0x00100008, 3, 23⟩

/-! IMG.LEN (02_structure_image.md, R64) -/
/-- [22:0], RW. -/
def IMG_LEN_LEN : Loc := ⟨0x0010000C, 0, 23⟩

/-! IMG.CHK_LOC (02_structure_image.md, R64) -/
/-- [15:0], RO. -/
def IMG_CHK_LOC_SECT : Loc := ⟨0x00100010, 0, 16⟩
/-- [31:16], RO. -/
def IMG_CHK_LOC_ENTRY : Loc := ⟨0x00100010, 16, 16⟩

/-! IMG.CHK_COUNT (02_structure_image.md, R64) -/
/-- [15:0], RO. -/
def IMG_CHK_COUNT_COUNT : Loc := ⟨0x00100014, 0, 16⟩

/-! IMG.EPOCH (02_structure_image.md, R64) -/
/-- [31:0], RO. -/
def IMG_EPOCH_EPOCH : Loc := ⟨0x00100018, 0, 32⟩

/-! IMG.VERSION (02_structure_image.md, R64) -/
/-- [31:0], RO. -/
def IMG_VERSION_VERSION : Loc := ⟨0x0010001C, 0, 32⟩

/-! IMG.JRNL (02_structure_image.md, R64) -/
/-- [2:0], RO. -/
def IMG_JRNL_STATE : Loc := ⟨0x00100020, 0, 3⟩
/-- [3], RO. -/
def IMG_JRNL_GOV : Loc := ⟨0x00100020, 3, 1⟩
/-- [4], RO. -/
def IMG_JRNL_GOV_VALID : Loc := ⟨0x00100020, 4, 1⟩
/-- [5], RO. -/
def IMG_JRNL_TORN : Loc := ⟨0x00100020, 5, 1⟩

/-! IMG.BOOT (02_structure_image.md, R64) -/
/-- [1:0], RO. -/
def IMG_BOOT_OUTCOME : Loc := ⟨0x00100024, 0, 2⟩

/-! IMG.FMT (02_structure_image.md, R64) -/
/-- [15:0], RO. -/
def IMG_FMT_MINOR : Loc := ⟨0x00100028, 0, 16⟩
/-- [31:16], RO. -/
def IMG_FMT_MAJOR : Loc := ⟨0x00100028, 16, 16⟩

/-! IMG.SVER_MAX (02_structure_image.md, R64) -/
/-- [15:0], RO. -/
def IMG_SVER_MAX_SVER : Loc := ⟨0x0010002C, 0, 16⟩

/-! IMG.TRANS_LIMIT (02_structure_image.md, R64) -/
/-- [7:0], RW. -/
def IMG_TRANS_LIMIT_MS : Loc := ⟨0x00100030, 0, 8⟩

/-! IMG.SUSP (02_structure_image.md, R64) -/
/-- [15:0], RO. -/
def IMG_SUSP_ROUTES : Loc := ⟨0x00100034, 0, 16⟩

/-! IMG.XDROP (02_structure_image.md, R64) -/
/-- [31:0], RC. -/
def IMG_XDROP_COUNT : Loc := ⟨0x00100038, 0, 32⟩

/-! IMG.FORCED (02_structure_image.md, R64) -/
/-- [7:0], RC. -/
def IMG_FORCED_COUNT : Loc := ⟨0x0010003C, 0, 8⟩

/-! IMG.DIGEST[0..11] (02_structure_image.md, R64) -/
/-- [31:0], RO. -/
def IMG_DIGEST_D (k : Nat) : Loc := ⟨0x00100040 + 4 * (k % 12), 0, 32⟩

/-! IMG.TRANS[0..3] (02_structure_image.md, R64) -/
/-- [31:0], RO. -/
def IMG_TRANS_PORT (k : Nat) : Loc := ⟨0x00100080 + 4 * (k % 4), 0, 32⟩

/-! IMG.PORT_EPOCH[n], n = 0–127 (02_structure_image.md, R64) -/
/-- [31:0], RO. -/
def IMG_PORT_EPOCH_EPOCH (n : Nat) : Loc := ⟨0x00101000 + 0x4 * (n % 128), 0, 32⟩

/-! LP[n].CTRL (03_line_ports.md, R97) -/
/-- [0], RW. -/
def LP_CTRL_DRV_DIS (n : Nat) : Loc := ⟨0x01000000 + 0x1000 * (n % 128), 0, 1⟩
/-- [1], WO. -/
def LP_CTRL_UNLATCH (n : Nat) : Loc := ⟨0x01000000 + 0x1000 * (n % 128), 1, 1⟩
/-- [2], WO. -/
def LP_CTRL_PRESET (n : Nat) : Loc := ⟨0x01000000 + 0x1000 * (n % 128), 2, 1⟩

/-! LP[n].STATE (03_line_ports.md, R97) -/
/-- [2:0], RO. -/
def LP_STATE_PSTATE (n : Nat) : Loc := ⟨0x01000004 + 0x1000 * (n % 128), 0, 3⟩
/-- [3], RO. -/
def LP_STATE_FOLDED (n : Nat) : Loc := ⟨0x01000004 + 0x1000 * (n % 128), 3, 1⟩
/-- [4], RO. -/
def LP_STATE_DEFERRED (n : Nat) : Loc := ⟨0x01000004 + 0x1000 * (n % 128), 4, 1⟩
/-- [7:5], RO. -/
def LP_STATE_RETRY (n : Nat) : Loc := ⟨0x01000004 + 0x1000 * (n % 128), 5, 3⟩
/-- [8], RO. -/
def LP_STATE_DRV (n : Nat) : Loc := ⟨0x01000004 + 0x1000 * (n % 128), 8, 1⟩
/-- [9], RO. -/
def LP_STATE_PENDING (n : Nat) : Loc := ⟨0x01000004 + 0x1000 * (n % 128), 9, 1⟩

/-! LP[n].CFG (03_line_ports.md, R97) -/
/-- [2:0], RO. -/
def LP_CFG_MODE (n : Nat) : Loc := ⟨0x01000008 + 0x1000 * (n % 128), 0, 3⟩
/-- [4:3], RO. -/
def LP_CFG_TERM (n : Nat) : Loc := ⟨0x01000008 + 0x1000 * (n % 128), 3, 2⟩
/-- [11:5], RO. -/
def LP_CFG_NODES (n : Nat) : Loc := ⟨0x01000008 + 0x1000 * (n % 128), 5, 7⟩
/-- [12], RO. -/
def LP_CFG_WATCH (n : Nat) : Loc := ⟨0x01000008 + 0x1000 * (n % 128), 12, 1⟩
/-- [13], RO. -/
def LP_CFG_SAFE_BIAS (n : Nat) : Loc := ⟨0x01000008 + 0x1000 * (n % 128), 13, 1⟩
/-- [14], RO. -/
def LP_CFG_XL40_SEG (n : Nat) : Loc := ⟨0x01000008 + 0x1000 * (n % 128), 14, 1⟩
/-- [15], RO. -/
def LP_CFG_P2P (n : Nat) : Loc := ⟨0x01000008 + 0x1000 * (n % 128), 15, 1⟩

/-! LP[n].TOPO (03_line_ports.md, R97) -/
/-- [9:0], RO. -/
def LP_TOPO_LEN (n : Nat) : Loc := ⟨0x0100000C + 0x1000 * (n % 128), 0, 10⟩
/-- [19:10], RO. -/
def LP_TOPO_STUB (n : Nat) : Loc := ⟨0x0100000C + 0x1000 * (n % 128), 10, 10⟩

/-! LP[n].WIRE (03_line_ports.md, R97) -/
/-- [6:0], W1C. -/
def LP_WIRE_SEEN (n : Nat) : Loc := ⟨0x01000010 + 0x1000 * (n % 128), 0, 7⟩
/-- [14:8], RO. -/
def LP_WIRE_LIVE (n : Nat) : Loc := ⟨0x01000010 + 0x1000 * (n % 128), 8, 7⟩

/-! LP[n].FAULT (03_line_ports.md, R97) -/
/-- [15:0], RC. -/
def LP_FAULT_EVENTS (n : Nat) : Loc := ⟨0x01000014 + 0x1000 * (n % 128), 0, 16⟩
/-- [31:16], RO. -/
def LP_FAULT_LAST_E (n : Nat) : Loc := ⟨0x01000014 + 0x1000 * (n % 128), 16, 16⟩

/-! LP[n].MEAS (03_line_ports.md, R97) -/
/-- [7:0], RO. -/
def LP_MEAS_LOAD (n : Nat) : Loc := ⟨0x01000018 + 0x1000 * (n % 128), 0, 8⟩
/-- [15:8], RO. -/
def LP_MEAS_VH (n : Nat) : Loc := ⟨0x01000018 + 0x1000 * (n % 128), 8, 8⟩
/-- [23:16], RO. -/
def LP_MEAS_VL (n : Nat) : Loc := ⟨0x01000018 + 0x1000 * (n % 128), 16, 8⟩
/-- [31:24], RO. -/
def LP_MEAS_LOOP (n : Nat) : Loc := ⟨0x01000018 + 0x1000 * (n % 128), 24, 8⟩

/-! LP[n].EMETER (03_line_ports.md, R97) -/
/-- [31:0], RC. -/
def LP_EMETER_E (n : Nat) : Loc := ⟨0x0100001C + 0x1000 * (n % 128), 0, 32⟩

/-! LP[n].DEFER (03_line_ports.md, R97) -/
/-- [15:0], RC. -/
def LP_DEFER_DEFERRALS (n : Nat) : Loc := ⟨0x01000020 + 0x1000 * (n % 128), 0, 16⟩
/-- [31:16], RC. -/
def LP_DEFER_FLAGGED (n : Nat) : Loc := ⟨0x01000020 + 0x1000 * (n % 128), 16, 16⟩

/-! LP[n].WAKE_CFG (03_line_ports.md, R97) -/
/-- [1:0], RWL. -/
def LP_WAKE_CFG_KIND (n : Nat) : Loc := ⟨0x01000024 + 0x1000 * (n % 128), 0, 2⟩
/-- [2], RWL. -/
def LP_WAKE_CFG_IDE (n : Nat) : Loc := ⟨0x01000024 + 0x1000 * (n % 128), 2, 1⟩
/-- [6:3], RWL. -/
def LP_WAKE_CFG_DLC (n : Nat) : Loc := ⟨0x01000024 + 0x1000 * (n % 128), 3, 4⟩
/-- [7], RWL. -/
def LP_WAKE_CFG_DMATCH (n : Nat) : Loc := ⟨0x01000024 + 0x1000 * (n % 128), 7, 1⟩

/-! LP[n].WUF_ID (03_line_ports.md, R97) -/
/-- [28:0], RWL. -/
def LP_WUF_ID_ID (n : Nat) : Loc := ⟨0x01000028 + 0x1000 * (n % 128), 0, 29⟩

/-! LP[n].WUF_IDMASK (03_line_ports.md, R97) -/
/-- [28:0], RWL. -/
def LP_WUF_IDMASK_MASK (n : Nat) : Loc := ⟨0x0100002C + 0x1000 * (n % 128), 0, 29⟩

/-! LP[n].WUF_DATA (03_line_ports.md, R97) -/
/-- [63:0], RWL. -/
def LP_WUF_DATA_DATA (n : Nat) : Loc := ⟨0x01000030 + 0x1000 * (n % 128), 0, 64⟩

/-! LP[n].WAKE_STAT (03_line_ports.md, R97) -/
/-- [0], W1C. -/
def LP_WAKE_STAT_WOKE (n : Nat) : Loc := ⟨0x01000038 + 0x1000 * (n % 128), 0, 1⟩
/-- [2:1], RO. -/
def LP_WAKE_STAT_KIND (n : Nat) : Loc := ⟨0x01000038 + 0x1000 * (n % 128), 1, 2⟩

/-! LP[n].GOV_CFG (03_line_ports.md, R97) -/
/-- [13:0], RWL. -/
def LP_GOV_CFG_BUDGET_MW (d : Nat) : Loc := ⟨0x01000800 + 0x40000 * (d % 2), 0, 14⟩

/-! LP[n].GOV_STAT (03_line_ports.md, R97) -/
/-- [15:0], RO. -/
def LP_GOV_STAT_WINDOW (d : Nat) : Loc := ⟨0x01000804 + 0x40000 * (d % 2), 0, 16⟩
/-- [22:16], RO. -/
def LP_GOV_STAT_NDEF (d : Nat) : Loc := ⟨0x01000804 + 0x40000 * (d % 2), 16, 7⟩

/-! LP[n].GOV_PEAK (03_line_ports.md, R97) -/
/-- [15:0], RC. -/
def LP_GOV_PEAK_PEAK (d : Nat) : Loc := ⟨0x01000808 + 0x40000 * (d % 2), 0, 16⟩

/-! LP[n].GOV_CNT (03_line_ports.md, R97) -/
/-- [15:0], RC. -/
def LP_GOV_CNT_DEFER (d : Nat) : Loc := ⟨0x0100080C + 0x40000 * (d % 2), 0, 16⟩
/-- [31:16], RC. -/
def LP_GOV_CNT_FLAG (d : Nat) : Loc := ⟨0x0100080C + 0x40000 * (d % 2), 16, 16⟩

/-! BT[n].CTRL (04_arbitration_and_bit_timing.md, R126) -/
/-- [1:0], RW. -/
def BT_CTRL_OPMODE (n : Nat) : Loc := ⟨0x01000100 + 0x1000 * (n % 128), 0, 2⟩

/-! BT[n].STAT (04_arbitration_and_bit_timing.md, R126) -/
/-- [2:0], RO. -/
def BT_STAT_BSTATE (n : Nat) : Loc := ⟨0x01000104 + 0x1000 * (n % 128), 0, 3⟩
/-- [3], RO. -/
def BT_STAT_PHASE (n : Nat) : Loc := ⟨0x01000104 + 0x1000 * (n % 128), 3, 1⟩
/-- [4], RO. -/
def BT_STAT_RXONLY (n : Nat) : Loc := ⟨0x01000104 + 0x1000 * (n % 128), 4, 1⟩
/-- [6:5], RO. -/
def BT_STAT_LASTFMT (n : Nat) : Loc := ⟨0x01000104 + 0x1000 * (n % 128), 5, 2⟩

/-! BT[n].CFG (04_arbitration_and_bit_timing.md, R126) -/
/-- [0], RO. -/
def BT_CFG_PEX_CC (n : Nat) : Loc := ⟨0x01000108 + 0x1000 * (n % 128), 0, 1⟩
/-- [1], RO. -/
def BT_CFG_PEX_FD (n : Nat) : Loc := ⟨0x01000108 + 0x1000 * (n % 128), 1, 1⟩
/-- [2], RO. -/
def BT_CFG_BRS_EN (n : Nat) : Loc := ⟨0x01000108 + 0x1000 * (n % 128), 2, 1⟩
/-- [3], RO. -/
def BT_CFG_FD_IN_XL (n : Nat) : Loc := ⟨0x01000108 + 0x1000 * (n % 128), 3, 1⟩

/-! BT[n].PRESC (04_arbitration_and_bit_timing.md, R126) -/
/-- [10:0], RO. -/
def BT_PRESC_NBRP (n : Nat) : Loc := ⟨0x0100010C + 0x1000 * (n % 128), 0, 11⟩
/-- [21:16], RO. -/
def BT_PRESC_DBRP (n : Nat) : Loc := ⟨0x0100010C + 0x1000 * (n % 128), 16, 6⟩
/-- [29:24], RO. -/
def BT_PRESC_XBRP (n : Nat) : Loc := ⟨0x0100010C + 0x1000 * (n % 128), 24, 6⟩

/-! BT[n].NTIM (04_arbitration_and_bit_timing.md, R126) -/
/-- [8:0], RO. -/
def BT_NTIM_NTSEG1 (n : Nat) : Loc := ⟨0x01000110 + 0x1000 * (n % 128), 0, 9⟩
/-- [16:9], RO. -/
def BT_NTIM_NTSEG2 (n : Nat) : Loc := ⟨0x01000110 + 0x1000 * (n % 128), 9, 8⟩
/-- [24:17], RO. -/
def BT_NTIM_NSJW (n : Nat) : Loc := ⟨0x01000110 + 0x1000 * (n % 128), 17, 8⟩

/-! BT[n].DTIM (04_arbitration_and_bit_timing.md, R126) -/
/-- [7:0], RO. -/
def BT_DTIM_DTSEG1 (n : Nat) : Loc := ⟨0x01000114 + 0x1000 * (n % 128), 0, 8⟩
/-- [14:8], RO. -/
def BT_DTIM_DTSEG2 (n : Nat) : Loc := ⟨0x01000114 + 0x1000 * (n % 128), 8, 7⟩
/-- [21:15], RO. -/
def BT_DTIM_DSJW (n : Nat) : Loc := ⟨0x01000114 + 0x1000 * (n % 128), 15, 7⟩
/-- [31:24], RO. -/
def BT_DTIM_TDCO (n : Nat) : Loc := ⟨0x01000114 + 0x1000 * (n % 128), 24, 8⟩

/-! BT[n].XTIM (04_arbitration_and_bit_timing.md, R126) -/
/-- [7:0], RO. -/
def BT_XTIM_XTSEG1 (n : Nat) : Loc := ⟨0x01000118 + 0x1000 * (n % 128), 0, 8⟩
/-- [14:8], RO. -/
def BT_XTIM_XTSEG2 (n : Nat) : Loc := ⟨0x01000118 + 0x1000 * (n % 128), 8, 7⟩
/-- [21:15], RO. -/
def BT_XTIM_XSJW (n : Nat) : Loc := ⟨0x01000118 + 0x1000 * (n % 128), 15, 7⟩
/-- [31:24], RO. -/
def BT_XTIM_XTDCO (n : Nat) : Loc := ⟨0x01000118 + 0x1000 * (n % 128), 24, 8⟩

/-! BT[n].TDC (04_arbitration_and_bit_timing.md, R126) -/
/-- [7:0], RO. -/
def BT_TDC_TDCV (n : Nat) : Loc := ⟨0x0100011C + 0x1000 * (n % 128), 0, 8⟩
/-- [15:8], RO. -/
def BT_TDC_VMAX (n : Nat) : Loc := ⟨0x0100011C + 0x1000 * (n % 128), 8, 8⟩
/-- [23:16], RO. -/
def BT_TDC_TDCF (n : Nat) : Loc := ⟨0x0100011C + 0x1000 * (n % 128), 16, 8⟩

/-! BT[n].PLCA (04_arbitration_and_bit_timing.md, R126) -/
/-- [7:0], RO. -/
def BT_PLCA_NODE_ID (n : Nat) : Loc := ⟨0x01000120 + 0x1000 * (n % 128), 0, 8⟩
/-- [15:8], RO. -/
def BT_PLCA_NCOUNT (n : Nat) : Loc := ⟨0x01000120 + 0x1000 * (n % 128), 8, 8⟩
/-- [23:16], RO. -/
def BT_PLCA_TO_TMR (n : Nat) : Loc := ⟨0x01000120 + 0x1000 * (n % 128), 16, 8⟩
/-- [31:24], RO. -/
def BT_PLCA_MAX_BURST (n : Nat) : Loc := ⟨0x01000120 + 0x1000 * (n % 128), 24, 8⟩

/-! BT[n].PLCA_TMR (04_arbitration_and_bit_timing.md, R126) -/
/-- [7:0], RO. -/
def BT_PLCA_TMR_BURST_TMR (n : Nat) : Loc := ⟨0x01000124 + 0x1000 * (n % 128), 0, 8⟩

/-! BT[n].PLCA_STAT (04_arbitration_and_bit_timing.md, R126) -/
/-- [0], RO. -/
def BT_PLCA_STAT_OK (n : Nat) : Loc := ⟨0x01000128 + 0x1000 * (n % 128), 0, 1⟩
/-- [31:16], RC. -/
def BT_PLCA_STAT_LOST (n : Nat) : Loc := ⟨0x01000128 + 0x1000 * (n % 128), 16, 16⟩

/-! BT[n].BCN_ID (04_arbitration_and_bit_timing.md, R126) -/
/-- [28:0], RO. -/
def BT_BCN_ID_ID (n : Nat) : Loc := ⟨0x0100012C + 0x1000 * (n % 128), 0, 29⟩
/-- [29], RO. -/
def BT_BCN_ID_IDE (n : Nat) : Loc := ⟨0x0100012C + 0x1000 * (n % 128), 29, 1⟩

/-! BT[n].BCN_CFG (04_arbitration_and_bit_timing.md, R126) -/
/-- [0], RO. -/
def BT_BCN_CFG_EN (n : Nat) : Loc := ⟨0x01000130 + 0x1000 * (n % 128), 0, 1⟩
/-- [2:1], RO. -/
def BT_BCN_CFG_FMT (n : Nat) : Loc := ⟨0x01000130 + 0x1000 * (n % 128), 1, 2⟩
/-- [4:3], RO. -/
def BT_BCN_CFG_FRAME (n : Nat) : Loc := ⟨0x01000130 + 0x1000 * (n % 128), 3, 2⟩
/-- [5], RO. -/
def BT_BCN_CFG_BRS (n : Nat) : Loc := ⟨0x01000130 + 0x1000 * (n % 128), 5, 1⟩
/-- [15:8], RO. -/
def BT_BCN_CFG_SDT (n : Nat) : Loc := ⟨0x01000130 + 0x1000 * (n % 128), 8, 8⟩

/-! BT[n].BCN_STAT (04_arbitration_and_bit_timing.md, R126) -/
/-- [7:0], RO. -/
def BT_BCN_STAT_SEQ (n : Nat) : Loc := ⟨0x01000134 + 0x1000 * (n % 128), 0, 8⟩
/-- [15:8], RC. -/
def BT_BCN_STAT_MISSED (n : Nat) : Loc := ⟨0x01000134 + 0x1000 * (n % 128), 8, 8⟩
/-- [31:16], RC. -/
def BT_BCN_STAT_SENT (n : Nat) : Loc := ⟨0x01000134 + 0x1000 * (n % 128), 16, 16⟩

/-! BT[n].RXCNT (04_arbitration_and_bit_timing.md, R126) -/
/-- [31:0], RC. -/
def BT_RXCNT_COUNT (n : Nat) : Loc := ⟨0x01000138 + 0x1000 * (n % 128), 0, 32⟩

/-! BT[n].TXCNT (04_arbitration_and_bit_timing.md, R126) -/
/-- [31:0], RC. -/
def BT_TXCNT_COUNT (n : Nat) : Loc := ⟨0x0100013C + 0x1000 * (n % 128), 0, 32⟩

/-! BT[n].PEXCNT (04_arbitration_and_bit_timing.md, R126) -/
/-- [15:0], RC. -/
def BT_PEXCNT_PEX (n : Nat) : Loc := ⟨0x01000140 + 0x1000 * (n % 128), 0, 16⟩
/-- [31:16], RC. -/
def BT_PEXCNT_TDC_HIGH (n : Nat) : Loc := ⟨0x01000140 + 0x1000 * (n % 128), 16, 16⟩

/-! OBS[n].CTRL (05_line_observation.md, R155) -/
/-- [3:0], WO. -/
def OBS_CTRL_CMD (n : Nat) : Loc := ⟨0x01800000 + 0x1000 * (n % 128), 0, 4⟩
/-- [4], WO. -/
def OBS_CTRL_REPEAT (n : Nat) : Loc := ⟨0x01800000 + 0x1000 * (n % 128), 4, 1⟩

/-! OBS[n].STAT (05_line_observation.md, R155) -/
/-- [1:0], RO. -/
def OBS_STAT_CEN (n : Nat) : Loc := ⟨0x01800004 + 0x1000 * (n % 128), 0, 2⟩
/-- [3:2], RO. -/
def OBS_STAT_ENR (n : Nat) : Loc := ⟨0x01800004 + 0x1000 * (n % 128), 2, 2⟩
/-- [4], W1C. -/
def OBS_STAT_CMDERR (n : Nat) : Loc := ⟨0x01800004 + 0x1000 * (n % 128), 4, 1⟩

/-! OBS[n].CFG (05_line_observation.md, R155) -/
/-- [0], RO. -/
def OBS_CFG_WP_EN (n : Nat) : Loc := ⟨0x01800008 + 0x1000 * (n % 128), 0, 1⟩
/-- [2:1], RO. -/
def OBS_CFG_TAINT (n : Nat) : Loc := ⟨0x01800008 + 0x1000 * (n % 128), 1, 2⟩
/-- [8:3], RO. -/
def OBS_CFG_NSLOT (n : Nat) : Loc := ⟨0x01800008 + 0x1000 * (n % 128), 3, 6⟩
/-- [24:9], RO. -/
def OBS_CFG_DWELL (n : Nat) : Loc := ⟨0x01800008 + 0x1000 * (n % 128), 9, 16⟩

/-! OBS[n].WP_LAST (05_line_observation.md, R155) -/
/-- [1:0], RO. -/
def OBS_WP_LAST_RESULT (n : Nat) : Loc := ⟨0x0180000C + 0x1000 * (n % 128), 0, 2⟩
/-- [5:2], RO. -/
def OBS_WP_LAST_NOUT (n : Nat) : Loc := ⟨0x0180000C + 0x1000 * (n % 128), 2, 4⟩
/-- [9:6], RO. -/
def OBS_WP_LAST_NUSE (n : Nat) : Loc := ⟨0x0180000C + 0x1000 * (n % 128), 6, 4⟩
/-- [21:10], RO. -/
def OBS_WP_LAST_CLIPPED (n : Nat) : Loc := ⟨0x0180000C + 0x1000 * (n % 128), 10, 12⟩

/-! OBS[n].WP_CNT (05_line_observation.md, R155) -/
/-- [15:0], RC. -/
def OBS_WP_CNT_MISMATCH (n : Nat) : Loc := ⟨0x01800010 + 0x1000 * (n % 128), 0, 16⟩
/-- [31:16], RC. -/
def OBS_WP_CNT_UNDECIDED (n : Nat) : Loc := ⟨0x01800010 + 0x1000 * (n % 128), 16, 16⟩

/-! OBS[n].WP_FEAT[0..5] (05_line_observation.md, R155) -/
/-- [15:0], RO. -/
def OBS_WP_FEAT_LO (n k : Nat) : Loc := ⟨0x01800018 + 0x1000 * (n % 128) + 4 * (k % 6), 0, 16⟩
/-- [31:16], RO. -/
def OBS_WP_FEAT_HI (n k : Nat) : Loc := ⟨0x01800018 + 0x1000 * (n % 128) + 4 * (k % 6), 16, 16⟩

/-! OBS[n].ENR_SEL (05_line_observation.md, R155) -/
/-- [28:0], RW. -/
def OBS_ENR_SEL_ID (n : Nat) : Loc := ⟨0x01800040 + 0x1000 * (n % 128), 0, 29⟩
/-- [29], RW. -/
def OBS_ENR_SEL_IDE (n : Nat) : Loc := ⟨0x01800040 + 0x1000 * (n % 128), 29, 1⟩
/-- [31:30], RW. -/
def OBS_ENR_SEL_NSEL (n : Nat) : Loc := ⟨0x01800040 + 0x1000 * (n % 128), 30, 2⟩

/-! OBS[n].ENR_STAT (05_line_observation.md, R155) -/
/-- [10:0], RO. -/
def OBS_ENR_STAT_DONE (n : Nat) : Loc := ⟨0x01800044 + 0x1000 * (n % 128), 0, 11⟩
/-- [22:11], RO. -/
def OBS_ENR_STAT_CLIP (n : Nat) : Loc := ⟨0x01800044 + 0x1000 * (n % 128), 11, 12⟩
/-- [23], RO. -/
def OBS_ENR_STAT_CLASS (n : Nat) : Loc := ⟨0x01800044 + 0x1000 * (n % 128), 23, 1⟩

/-! OBS[n].ENR_SUM[0..11] (05_line_observation.md, R155) -/
/-- [31:0], RO. -/
def OBS_ENR_SUM_SUM (n k : Nat) : Loc := ⟨0x01800050 + 0x1000 * (n % 128) + 4 * (k % 12), 0, 32⟩

/-! OBS[n].ENR_SQ[0..11] (05_line_observation.md, R155) -/
/-- [39:0], RO. -/
def OBS_ENR_SQ_SQ (n k : Nat) : Loc := ⟨0x01800080 + 0x1000 * (n % 128) + 8 * (k % 12), 0, 40⟩

/-! OBS[n].ENR_USE[0..5] (05_line_observation.md, R155) -/
/-- [15:0], RO. -/
def OBS_ENR_USE_LO (n k : Nat) : Loc := ⟨0x018000E0 + 0x1000 * (n % 128) + 4 * (k % 6), 0, 16⟩
/-- [31:16], RO. -/
def OBS_ENR_USE_HI (n k : Nat) : Loc := ⟨0x018000E0 + 0x1000 * (n % 128) + 4 * (k % 6), 16, 16⟩

/-! OBS[n].SND_CFG (05_line_observation.md, R155) -/
/-- [3:0], RW. -/
def OBS_SND_CFG_REPS (n : Nat) : Loc := ⟨0x01800100 + 0x1000 * (n % 128), 0, 4⟩
/-- [8:4], RW. -/
def OBS_SND_CFG_GAIN (n : Nat) : Loc := ⟨0x01800100 + 0x1000 * (n % 128), 4, 5⟩
/-- [16:9], RW. -/
def OBS_SND_CFG_THRESH (n : Nat) : Loc := ⟨0x01800100 + 0x1000 * (n % 128), 9, 8⟩

/-! OBS[n].SND_STAT (05_line_observation.md, R155) -/
/-- [2:0], RO. -/
def OBS_SND_STAT_STATE (n : Nat) : Loc := ⟨0x01800104 + 0x1000 * (n % 128), 0, 3⟩
/-- [4:3], RO. -/
def OBS_SND_STAT_UNIT (n : Nat) : Loc := ⟨0x01800104 + 0x1000 * (n % 128), 3, 2⟩
/-- [8:5], RO. -/
def OBS_SND_STAT_NREFL (n : Nat) : Loc := ⟨0x01800104 + 0x1000 * (n % 128), 5, 4⟩
/-- [9], RO. -/
def OBS_SND_STAT_MORE (n : Nat) : Loc := ⟨0x01800104 + 0x1000 * (n % 128), 9, 1⟩
/-- [21:10], RO. -/
def OBS_SND_STAT_CLIPPED (n : Nat) : Loc := ⟨0x01800104 + 0x1000 * (n % 128), 10, 12⟩

/-! OBS[n].SND_REFL[0..7] (05_line_observation.md, R155) -/
/-- [11:0], RO. -/
def OBS_SND_REFL_DIST (n k : Nat) : Loc := ⟨0x01800110 + 0x1000 * (n % 128) + 4 * (k % 8), 0, 12⟩
/-- [12], RO. -/
def OBS_SND_REFL_POL (n k : Nat) : Loc := ⟨0x01800110 + 0x1000 * (n % 128) + 4 * (k % 8), 12, 1⟩
/-- [13], RO. -/
def OBS_SND_REFL_WHERE (n k : Nat) : Loc := ⟨0x01800110 + 0x1000 * (n % 128) + 4 * (k % 8), 13, 1⟩
/-- [14], RO. -/
def OBS_SND_REFL_CLIP (n k : Nat) : Loc := ⟨0x01800110 + 0x1000 * (n % 128) + 4 * (k % 8), 14, 1⟩
/-- [23:16], RO. -/
def OBS_SND_REFL_AMP (n k : Nat) : Loc := ⟨0x01800110 + 0x1000 * (n % 128) + 4 * (k % 8), 16, 8⟩
/-- [31], RO. -/
def OBS_SND_REFL_VALID (n k : Nat) : Loc := ⟨0x01800110 + 0x1000 * (n % 128) + 4 * (k % 8), 31, 1⟩

/-! OBS[n].CEN_STAT (05_line_observation.md, R155) -/
/-- [4:0], RO. -/
def OBS_CEN_STAT_SLOT (n : Nat) : Loc := ⟨0x01800200 + 0x1000 * (n % 128), 0, 5⟩
/-- [31:16], RO. -/
def OBS_CEN_STAT_UNK (n : Nat) : Loc := ⟨0x01800200 + 0x1000 * (n % 128), 16, 16⟩

/-! OBS[n].CEN_START (05_line_observation.md, R155) -/
/-- [31:0], RO. -/
def OBS_CEN_START_NS (n : Nat) : Loc := ⟨0x01800208 + 0x1000 * (n % 128), 0, 32⟩
/-- [63:32], RO. -/
def OBS_CEN_START_SEC (n : Nat) : Loc := ⟨0x01800208 + 0x1000 * (n % 128), 32, 32⟩

/-! OBS[n].CEN_END (05_line_observation.md, R155) -/
/-- [31:0], RO. -/
def OBS_CEN_END_NS (n : Nat) : Loc := ⟨0x01800210 + 0x1000 * (n % 128), 0, 32⟩
/-- [63:32], RO. -/
def OBS_CEN_END_SEC (n : Nat) : Loc := ⟨0x01800210 + 0x1000 * (n % 128), 32, 32⟩

/-! OBS[n].CEN_UNK (05_line_observation.md, R155) -/
/-- [28:0], RO. -/
def OBS_CEN_UNK_ID (n : Nat) : Loc := ⟨0x01800218 + 0x1000 * (n % 128), 0, 29⟩
/-- [29], RO. -/
def OBS_CEN_UNK_IDE (n : Nat) : Loc := ⟨0x01800218 + 0x1000 * (n % 128), 29, 1⟩
/-- [31], RO. -/
def OBS_CEN_UNK_VALID (n : Nat) : Loc := ⟨0x01800218 + 0x1000 * (n % 128), 31, 1⟩

/-! OBS[n].CEN_UNK_T (05_line_observation.md, R155) -/
/-- [31:0], RO. -/
def OBS_CEN_UNK_T_NS (n : Nat) : Loc := ⟨0x01800220 + 0x1000 * (n % 128), 0, 32⟩
/-- [63:32], RO. -/
def OBS_CEN_UNK_T_SEC (n : Nat) : Loc := ⟨0x01800220 + 0x1000 * (n % 128), 32, 32⟩

/-! OBS[n].CAP_CFG (05_line_observation.md, R155) -/
/-- [1:0], RO. -/
def OBS_CAP_CFG_MODE (n : Nat) : Loc := ⟨0x01800300 + 0x1000 * (n % 128), 0, 2⟩
/-- [3:2], RO. -/
def OBS_CAP_CFG_DEC (n : Nat) : Loc := ⟨0x01800300 + 0x1000 * (n % 128), 2, 2⟩
/-- [8:4], RO. -/
def OBS_CAP_CFG_PRE (n : Nat) : Loc := ⟨0x01800300 + 0x1000 * (n % 128), 4, 5⟩
/-- [16:9], RO. -/
def OBS_CAP_CFG_POST (n : Nat) : Loc := ⟨0x01800300 + 0x1000 * (n % 128), 9, 8⟩
/-- [23:17], RO. -/
def OBS_CAP_CFG_TRIG (n : Nat) : Loc := ⟨0x01800300 + 0x1000 * (n % 128), 17, 7⟩
/-- [29:24], RO. -/
def OBS_CAP_CFG_STREAM (n : Nat) : Loc := ⟨0x01800300 + 0x1000 * (n % 128), 24, 6⟩
/-- [30], RO. -/
def OBS_CAP_CFG_AUTO (n : Nat) : Loc := ⟨0x01800300 + 0x1000 * (n % 128), 30, 1⟩

/-! OBS[n].CAP_STAT (05_line_observation.md, R155) -/
/-- [1:0], RO. -/
def OBS_CAP_STAT_STATE (n : Nat) : Loc := ⟨0x01800304 + 0x1000 * (n % 128), 0, 2⟩

/-! OBS[n].CAP_SEQ (05_line_observation.md, R155) -/
/-- [31:0], RO. -/
def OBS_CAP_SEQ_SEQ (n : Nat) : Loc := ⟨0x01800308 + 0x1000 * (n % 128), 0, 32⟩

/-! OBS[n].CAP_CNT (05_line_observation.md, R155) -/
/-- [15:0], RC. -/
def OBS_CAP_CNT_DROP (n : Nat) : Loc := ⟨0x0180030C + 0x1000 * (n % 128), 0, 16⟩
/-- [31:16], RC. -/
def OBS_CAP_CNT_SAT (n : Nat) : Loc := ⟨0x0180030C + 0x1000 * (n % 128), 16, 16⟩

/-! OBS[n].CEN_RES[k], k = 0–31 (05_line_observation.md, R155) -/
/-- [10:0], RO. -/
def OBS_CEN_RES_SIG (n k : Nat) : Loc := ⟨0x01800400 + 0x1000 * (n % 128) + 0x10 * (k % 32), 0, 11⟩
/-- [31:16], RO. -/
def OBS_CEN_RES_SILENCE (n k : Nat) : Loc := ⟨0x01800400 + 0x1000 * (n % 128) + 0x10 * (k % 32), 16, 16⟩
/-- [2:0], RO. -/
def OBS_CEN_RES_STATUS (n k : Nat) : Loc := ⟨0x01800404 + 0x1000 * (n % 128) + 0x10 * (k % 32), 0, 3⟩
/-- [5:3], RO. -/
def OBS_CEN_RES_PREV (n k : Nat) : Loc := ⟨0x01800404 + 0x1000 * (n % 128) + 0x10 * (k % 32), 3, 3⟩
/-- [31:16], RO. -/
def OBS_CEN_RES_FRAMES (n k : Nat) : Loc := ⟨0x01800404 + 0x1000 * (n % 128) + 0x10 * (k % 32), 16, 16⟩
/-- [31:0], word w. -/
def OBS_CEN_RES_W (n k w : Nat) : Loc := ⟨0x01800400 + 0x1000 * (n % 128) + 0x10 * (k % 32) + 4 * (w % 4), 0, 32⟩

/-! MOP.DOORBELL (06_message_operations.md, R188) -/
/-- [15:0], WO. -/
def MOP_DOORBELL_SLOT : Loc := ⟨0x02000000, 0, 16⟩
/-- [19:16], WO. -/
def MOP_DOORBELL_CMD : Loc := ⟨0x02000000, 16, 4⟩

/-! MOP.ERR (06_message_operations.md, R188) -/
/-- [3:0], RO. -/
def MOP_ERR_REASON : Loc := ⟨0x02000004, 0, 4⟩
/-- [7:4], RO. -/
def MOP_ERR_CMD : Loc := ⟨0x02000004, 4, 4⟩
/-- [8], RO. -/
def MOP_ERR_SRC : Loc := ⟨0x02000004, 8, 1⟩
/-- [31], W1C. -/
def MOP_ERR_VALID : Loc := ⟨0x02000004, 31, 1⟩

/-! MOP.ERR_SLOT (06_message_operations.md, R188) -/
/-- [15:0], RO. -/
def MOP_ERR_SLOT_SLOT : Loc := ⟨0x02000008, 0, 16⟩
/-- [25:16], RO. -/
def MOP_ERR_SLOT_ENGINE : Loc := ⟨0x02000008, 16, 10⟩

/-! MOP.POOL_CFG0[p], p = 0–1023 (06_message_operations.md, R188) -/
/-- [15:0], RO. -/
def MOP_POOL_CFG0_BASE (p : Nat) : Loc := ⟨0x02001000 + 0x10 * (p % 1024), 0, 16⟩
/-- [31:16], RO. -/
def MOP_POOL_CFG0_COUNT_M1 (p : Nat) : Loc := ⟨0x02001000 + 0x10 * (p % 1024), 16, 16⟩

/-! MOP.POOL_CFG1[p] (06_message_operations.md, R188) -/
/-- [1:0], RO. -/
def MOP_POOL_CFG1_KIND (p : Nat) : Loc := ⟨0x02001004 + 0x10 * (p % 1024), 0, 2⟩
/-- [8:2], RO. -/
def MOP_POOL_CFG1_PORT (p : Nat) : Loc := ⟨0x02001004 + 0x10 * (p % 1024), 2, 7⟩
/-- [15:9], RO. -/
def MOP_POOL_CFG1_OWNER (p : Nat) : Loc := ⟨0x02001004 + 0x10 * (p % 1024), 9, 7⟩
/-- [21:16], RO. -/
def MOP_POOL_CFG1_RING (p : Nat) : Loc := ⟨0x02001004 + 0x10 * (p % 1024), 16, 6⟩
/-- [22], RO. -/
def MOP_POOL_CFG1_REPLACE (p : Nat) : Loc := ⟨0x02001004 + 0x10 * (p % 1024), 22, 1⟩
/-- [23], RO. -/
def MOP_POOL_CFG1_BUFCLASS (p : Nat) : Loc := ⟨0x02001004 + 0x10 * (p % 1024), 23, 1⟩
/-- [31:24], RO. -/
def MOP_POOL_CFG1_FSP (p : Nat) : Loc := ⟨0x02001004 + 0x10 * (p % 1024), 24, 8⟩

/-! MOP.POOL_STAT[p] (06_message_operations.md, R188) -/
/-- [15:0], RO. -/
def MOP_POOL_STAT_FREE (p : Nat) : Loc := ⟨0x02001008 + 0x10 * (p % 1024), 0, 16⟩
/-- [31:16], RC. -/
def MOP_POOL_STAT_DROP (p : Nat) : Loc := ⟨0x02001008 + 0x10 * (p % 1024), 16, 16⟩

/-! MOP.POOL_CNT[p] (06_message_operations.md, R188) -/
/-- [15:0], RC. -/
def MOP_POOL_CNT_DONE (p : Nat) : Loc := ⟨0x0200100C + 0x10 * (p % 1024), 0, 16⟩
/-- [31:16], RC. -/
def MOP_POOL_CNT_ABORT (p : Nat) : Loc := ⟨0x0200100C + 0x10 * (p % 1024), 16, 16⟩

/-! MOP.FSP_BASE[f], f = 0–255 (06_message_operations.md, R188) -/
/-- [25:11], RO. -/
def MOP_FSP_BASE_BASE (f : Nat) : Loc := ⟨0x02008000 + 0x20 * (f % 256), 11, 15⟩

/-! MOP.FSP_CNT[f] (06_message_operations.md, R188) -/
/-- [15:0], RO. -/
def MOP_FSP_CNT_NSMALL (f : Nat) : Loc := ⟨0x02008004 + 0x20 * (f % 256), 0, 16⟩
/-- [31:16], RO. -/
def MOP_FSP_CNT_NLARGE (f : Nat) : Loc := ⟨0x02008004 + 0x20 * (f % 256), 16, 16⟩

/-! MOP.FSP_RSV[f] (06_message_operations.md, R188) -/
/-- [15:0], RO. -/
def MOP_FSP_RSV_RSV_SMALL (f : Nat) : Loc := ⟨0x02008008 + 0x20 * (f % 256), 0, 16⟩
/-- [31:16], RO. -/
def MOP_FSP_RSV_RSV_LARGE (f : Nat) : Loc := ⟨0x02008008 + 0x20 * (f % 256), 16, 16⟩

/-! MOP.FSP_FREE[f] (06_message_operations.md, R188) -/
/-- [15:0], RO. -/
def MOP_FSP_FREE_SMALL (f : Nat) : Loc := ⟨0x0200800C + 0x20 * (f % 256), 0, 16⟩
/-- [31:16], RO. -/
def MOP_FSP_FREE_LARGE (f : Nat) : Loc := ⟨0x0200800C + 0x20 * (f % 256), 16, 16⟩

/-! MOP.FSP_LOW[f] (06_message_operations.md, R188) -/
/-- [15:0], RC. -/
def MOP_FSP_LOW_SMALL (f : Nat) : Loc := ⟨0x02008010 + 0x20 * (f % 256), 0, 16⟩
/-- [31:16], RC. -/
def MOP_FSP_LOW_LARGE (f : Nat) : Loc := ⟨0x02008010 + 0x20 * (f % 256), 16, 16⟩

/-! MOP.PORTQ[n], n = 0–127 (06_message_operations.md, R188) -/
/-- [0], RO. -/
def MOP_PORTQ_ORDER (n : Nat) : Loc := ⟨0x02010000 + 0x8 * (n % 128), 0, 1⟩
/-- [31:16], RO. -/
def MOP_PORTQ_NQ (n : Nat) : Loc := ⟨0x02010000 + 0x8 * (n % 128), 16, 16⟩

/-! MOP.PORTHEAD[n] (06_message_operations.md, R188) -/
/-- [15:0], RO. -/
def MOP_PORTHEAD_SLOT (n : Nat) : Loc := ⟨0x02010004 + 0x8 * (n % 128), 0, 16⟩
/-- [31], RO. -/
def MOP_PORTHEAD_VALID (n : Nat) : Loc := ⟨0x02010004 + 0x8 * (n % 128), 31, 1⟩

/-! MOP.MON_CFG[m], m = 0–4095 (06_message_operations.md, R188) -/
/-- [15:0], RW. -/
def MOP_MON_CFG_SLOT (m : Nat) : Loc := ⟨0x02020000 + 0x20 * (m % 4096), 0, 16⟩
/-- [16], RW. -/
def MOP_MON_CFG_EN (m : Nat) : Loc := ⟨0x02020000 + 0x20 * (m % 4096), 16, 1⟩
/-- [17], RW. -/
def MOP_MON_CFG_ONESHOT (m : Nat) : Loc := ⟨0x02020000 + 0x20 * (m % 4096), 17, 1⟩
/-- [18], RW. -/
def MOP_MON_CFG_TAINT_MISS (m : Nat) : Loc := ⟨0x02020000 + 0x20 * (m % 4096), 18, 1⟩

/-! MOP.MON_PERIOD[m] (06_message_operations.md, R188) -/
/-- [30:0], RW. -/
def MOP_MON_PERIOD_NS (m : Nat) : Loc := ⟨0x02020004 + 0x20 * (m % 4096), 0, 31⟩

/-! MOP.MON_NEXT[m] (06_message_operations.md, R188) -/
/-- [31:0], RO. -/
def MOP_MON_NEXT_NS (m : Nat) : Loc := ⟨0x02020008 + 0x20 * (m % 4096), 0, 32⟩
/-- [63:32], RO. -/
def MOP_MON_NEXT_SEC (m : Nat) : Loc := ⟨0x02020008 + 0x20 * (m % 4096), 32, 32⟩

/-! MOP.MON_STAT[m] (06_message_operations.md, R188) -/
/-- [15:0], RC. -/
def MOP_MON_STAT_TIMEOUTS (m : Nat) : Loc := ⟨0x02020010 + 0x20 * (m % 4096), 0, 16⟩
/-- [31:16], RC. -/
def MOP_MON_STAT_HITS (m : Nat) : Loc := ⟨0x02020010 + 0x20 * (m % 4096), 16, 16⟩

/-! Descriptor of slot s, words 0–7 (06_message_operations.md, R188) -/
/-- [2:0], RO. -/
def MOP_DESC_STATE (s : Nat) : Loc := ⟨0x02400000 + 0x20 * (s % 65536), 0, 3⟩
/-- [3], RO. -/
def MOP_DESC_DIR (s : Nat) : Loc := ⟨0x02400000 + 0x20 * (s % 65536), 3, 1⟩
/-- [4], RO. -/
def MOP_DESC_TAINT (s : Nat) : Loc := ⟨0x02400000 + 0x20 * (s % 65536), 4, 1⟩
/-- [6:5], RO. -/
def MOP_DESC_WP (s : Nat) : Loc := ⟨0x02400000 + 0x20 * (s % 65536), 5, 2⟩
/-- [7], RW. -/
def MOP_DESC_DL_EN (s : Nat) : Loc := ⟨0x02400000 + 0x20 * (s % 65536), 7, 1⟩
/-- [15:8], RO. -/
def MOP_DESC_CODE (s : Nat) : Loc := ⟨0x02400000 + 0x20 * (s % 65536), 8, 8⟩
/-- [31:16], RW. -/
def MOP_DESC_TAG (s : Nat) : Loc := ⟨0x02400000 + 0x20 * (s % 65536), 16, 16⟩
/-- [28:0], RW. -/
def MOP_DESC_ID (s : Nat) : Loc := ⟨0x02400004 + 0x20 * (s % 65536), 0, 29⟩
/-- [29], RW. -/
def MOP_DESC_IDE (s : Nat) : Loc := ⟨0x02400004 + 0x20 * (s % 65536), 29, 1⟩
/-- [30], RW. -/
def MOP_DESC_RMT (s : Nat) : Loc := ⟨0x02400004 + 0x20 * (s % 65536), 30, 1⟩
/-- [31], RW. -/
def MOP_DESC_BRS (s : Nat) : Loc := ⟨0x02400004 + 0x20 * (s % 65536), 31, 1⟩
/-- [11:0], RW. -/
def MOP_DESC_LEN (s : Nat) : Loc := ⟨0x02400008 + 0x20 * (s % 65536), 0, 12⟩
/-- [13:12], RW. -/
def MOP_DESC_FMT (s : Nat) : Loc := ⟨0x02400008 + 0x20 * (s % 65536), 12, 2⟩
/-- [14], RO. -/
def MOP_DESC_ESI (s : Nat) : Loc := ⟨0x02400008 + 0x20 * (s % 65536), 14, 1⟩
/-- [15], RW. -/
def MOP_DESC_SEC (s : Nat) : Loc := ⟨0x02400008 + 0x20 * (s % 65536), 15, 1⟩
/-- [23:16], RW. -/
def MOP_DESC_SDT (s : Nat) : Loc := ⟨0x02400008 + 0x20 * (s % 65536), 16, 8⟩
/-- [31:24], RW. -/
def MOP_DESC_VCID (s : Nat) : Loc := ⟨0x02400008 + 0x20 * (s % 65536), 24, 8⟩
/-- [31:0], RW. -/
def MOP_DESC_AF (s : Nat) : Loc := ⟨0x0240000C + 0x20 * (s % 65536), 0, 32⟩
/-- [25:3], RO. -/
def MOP_DESC_BUF (s : Nat) : Loc := ⟨0x02400010 + 0x20 * (s % 65536), 3, 23⟩
/-- [6:0], RO. -/
def MOP_DESC_PORT (s : Nat) : Loc := ⟨0x02400014 + 0x20 * (s % 65536), 0, 7⟩
/-- [7], RO. -/
def MOP_DESC_DUP (s : Nat) : Loc := ⟨0x02400014 + 0x20 * (s % 65536), 7, 1⟩
/-- [15:8], RO. -/
def MOP_DESC_ATT (s : Nat) : Loc := ⟨0x02400014 + 0x20 * (s % 65536), 8, 8⟩
/-- [30:16], RO. -/
def MOP_DESC_MATCH (s : Nat) : Loc := ⟨0x02400014 + 0x20 * (s % 65536), 16, 15⟩
/-- [31], RO. -/
def MOP_DESC_MATCHED (s : Nat) : Loc := ⟨0x02400014 + 0x20 * (s % 65536), 31, 1⟩
/-- [31:0], word w. -/
def MOP_DESC_W (s w : Nat) : Loc := ⟨0x02400000 + 0x20 * (s % 65536) + 4 * (w % 8), 0, 32⟩

/-! CAT.UPD_CMD (07_acceptance_catalogue.md, R211) -/
/-- [2:0], WO. -/
def CAT_UPD_CMD_CMD (q : Nat) : Loc := ⟨perRequester q + 0x02800000, 0, 3⟩
/-- [15:8], WO. -/
def CAT_UPD_CMD_TABLE (q : Nat) : Loc := ⟨perRequester q + 0x02800000, 8, 8⟩

/-! CAT.UPD_STAT (07_acceptance_catalogue.md, R211) -/
/-- [1:0], RO. -/
def CAT_UPD_STAT_STATE (q : Nat) : Loc := ⟨perRequester q + 0x02800004, 0, 2⟩
/-- [5:2], RO. -/
def CAT_UPD_STAT_REFUSE (q : Nat) : Loc := ⟨perRequester q + 0x02800004, 2, 4⟩
/-- [31:16], RO. -/
def CAT_UPD_STAT_REASON (q : Nat) : Loc := ⟨perRequester q + 0x02800004, 16, 16⟩

/-! CAT.UPD_IDX (07_acceptance_catalogue.md, R211) -/
/-- [14:0], RW. -/
def CAT_UPD_IDX_INDEX (q : Nat) : Loc := ⟨perRequester q + 0x02800008, 0, 15⟩

/-! CAT.UPD_T (07_acceptance_catalogue.md, R211) -/
/-- [31:0], RO. -/
def CAT_UPD_T_NS (q : Nat) : Loc := ⟨perRequester q + 0x02800010, 0, 32⟩
/-- [63:32], RO. -/
def CAT_UPD_T_SEC (q : Nat) : Loc := ⟨perRequester q + 0x02800010, 32, 32⟩

/-! CAT.UPD_W[0..7] (07_acceptance_catalogue.md, R211) -/
/-- [31:0], RW. -/
def CAT_UPD_W_W (q k : Nat) : Loc := ⟨perRequester q + 0x02800020 + 4 * (k % 8), 0, 32⟩

/-! CAT.USE (07_acceptance_catalogue.md, R211) -/
/-- [15:0], RO. -/
def CAT_USE_USED : Loc := ⟨0x02800040, 0, 16⟩
/-- [31:16], RO. -/
def CAT_USE_SPARE : Loc := ⟨0x02800040, 16, 16⟩

/-! CAT.TBL_CFG0[t], t = 0–255 (07_acceptance_catalogue.md, R211) -/
/-- [14:0], RO. -/
def CAT_TBL_CFG0_BASE (t : Nat) : Loc := ⟨0x02801000 + 0x8 * (t % 256), 0, 15⟩
/-- [19:16], RO. -/
def CAT_TBL_CFG0_HBITS (t : Nat) : Loc := ⟨0x02801000 + 0x8 * (t % 256), 16, 4⟩
/-- [20], RO. -/
def CAT_TBL_CFG0_HASH (t : Nat) : Loc := ⟨0x02801000 + 0x8 * (t % 256), 20, 1⟩
/-- [31], RO. -/
def CAT_TBL_CFG0_VALID (t : Nat) : Loc := ⟨0x02801000 + 0x8 * (t % 256), 31, 1⟩

/-! CAT.TBL_CFG1[t] (07_acceptance_catalogue.md, R211) -/
/-- [15:0], RO. -/
def CAT_TBL_CFG1_NORD (t : Nat) : Loc := ⟨0x02801004 + 0x8 * (t % 256), 0, 16⟩
/-- [22:16], RO. -/
def CAT_TBL_CFG1_UPD_OWNER (t : Nat) : Loc := ⟨0x02801004 + 0x8 * (t % 256), 16, 7⟩

/-! CAT.PBIND[n], n = 0–127 (07_acceptance_catalogue.md, R211) -/
/-- [7:0], RO. -/
def CAT_PBIND_PRIMARY (n : Nat) : Loc := ⟨0x02802000 + 0x10 * (n % 128), 0, 8⟩
/-- [15:8], RO. -/
def CAT_PBIND_SHARED (n : Nat) : Loc := ⟨0x02802000 + 0x10 * (n % 128), 8, 8⟩
/-- [16], RO. -/
def CAT_PBIND_P_EN (n : Nat) : Loc := ⟨0x02802000 + 0x10 * (n % 128), 16, 1⟩
/-- [17], RO. -/
def CAT_PBIND_S_EN (n : Nat) : Loc := ⟨0x02802000 + 0x10 * (n % 128), 17, 1⟩
/-- [18], RO. -/
def CAT_PBIND_PROMISC (n : Nat) : Loc := ⟨0x02802000 + 0x10 * (n % 128), 18, 1⟩

/-! CAT.PCNT[n] (07_acceptance_catalogue.md, R211) -/
/-- [15:0], RC. -/
def CAT_PCNT_HIT (n : Nat) : Loc := ⟨0x02802004 + 0x10 * (n % 128), 0, 16⟩
/-- [31:16], RC. -/
def CAT_PCNT_MISS (n : Nat) : Loc := ⟨0x02802004 + 0x10 * (n % 128), 16, 16⟩

/-! CAT.PADDR_LO[n] (07_acceptance_catalogue.md, R211) -/
/-- [31:0], RO. -/
def CAT_PADDR_LO_ADDR (n : Nat) : Loc := ⟨0x02802008 + 0x10 * (n % 128), 0, 32⟩

/-! CAT.PADDR_HI[n] (07_acceptance_catalogue.md, R211) -/
/-- [15:0], RO. -/
def CAT_PADDR_HI_ADDR (n : Nat) : Loc := ⟨0x0280200C + 0x10 * (n % 128), 0, 16⟩

/-! Entry i, i = 0–32,767, words 0–7 (07_acceptance_catalogue.md, R211) -/
/-- [2:0], RO. -/
def CAT_ENTRY_KIND (i : Nat) : Loc := ⟨0x02900000 + 0x20 * (i % 32768), 0, 3⟩
/-- [6:3], RO. -/
def CAT_ENTRY_FMTS (i : Nat) : Loc := ⟨0x02900000 + 0x20 * (i % 32768), 3, 4⟩
/-- [7], RO. -/
def CAT_ENTRY_IDE (i : Nat) : Loc := ⟨0x02900000 + 0x20 * (i % 32768), 7, 1⟩
/-- [9:8], RO. -/
def CAT_ENTRY_RMT (i : Nat) : Loc := ⟨0x02900000 + 0x20 * (i % 32768), 8, 2⟩
/-- [10], RO. -/
def CAT_ENTRY_PRIO (i : Nat) : Loc := ⟨0x02900000 + 0x20 * (i % 32768), 10, 1⟩
/-- [11], RO. -/
def CAT_ENTRY_LIVE (i : Nat) : Loc := ⟨0x02900000 + 0x20 * (i % 32768), 11, 1⟩
/-- [27:16], RO. -/
def CAT_ENTRY_SIG (i : Nat) : Loc := ⟨0x02900000 + 0x20 * (i % 32768), 16, 12⟩
/-- [31:0], word w. -/
def CAT_ENTRY_W (i w : Nat) : Loc := ⟨0x02900000 + 0x20 * (i % 32768) + 4 * (w % 8), 0, 32⟩

/-! ECF[n].CTRL (08_error_confinement.md, R235) -/
/-- [0], WO. -/
def ECF_CTRL_RECOVER (n : Nat) : Loc := ⟨0x01000200 + 0x1000 * (n % 128), 0, 1⟩
/-- [1], WO. -/
def ECF_CTRL_QUAR (n : Nat) : Loc := ⟨0x01000200 + 0x1000 * (n % 128), 1, 1⟩

/-! ECF[n].STAT (08_error_confinement.md, R235) -/
/-- [1:0], RO. -/
def ECF_STAT_ESTATE (n : Nat) : Loc := ⟨0x01000204 + 0x1000 * (n % 128), 0, 2⟩
/-- [2], RO. -/
def ECF_STAT_WARN (n : Nat) : Loc := ⟨0x01000204 + 0x1000 * (n % 128), 2, 1⟩
/-- [5:3], RO. -/
def ECF_STAT_RSTEP (n : Nat) : Loc := ⟨0x01000204 + 0x1000 * (n % 128), 3, 3⟩
/-- [6], W1C. -/
def ECF_STAT_CMDERR (n : Nat) : Loc := ⟨0x01000204 + 0x1000 * (n % 128), 6, 1⟩
/-- [7], RO. -/
def ECF_STAT_SLOPE (n : Nat) : Loc := ⟨0x01000204 + 0x1000 * (n % 128), 7, 1⟩
/-- [15:8], RO. -/
def ECF_STAT_SEQ (n : Nat) : Loc := ⟨0x01000204 + 0x1000 * (n % 128), 8, 8⟩
/-- [16], RO. -/
def ECF_STAT_QPEND (n : Nat) : Loc := ⟨0x01000204 + 0x1000 * (n % 128), 16, 1⟩

/-! ECF[n].CFG (08_error_confinement.md, R235) -/
/-- [1:0], RO. -/
def ECF_CFG_MODE (n : Nat) : Loc := ⟨0x01000208 + 0x1000 * (n % 128), 0, 2⟩
/-- [9:2], RO. -/
def ECF_CFG_WARN_LIM (n : Nat) : Loc := ⟨0x01000208 + 0x1000 * (n % 128), 2, 8⟩
/-- [10], RO. -/
def ECF_CFG_SND_BO (n : Nat) : Loc := ⟨0x01000208 + 0x1000 * (n % 128), 10, 1⟩
/-- [11], RO. -/
def ECF_CFG_SND_SLOPE (n : Nat) : Loc := ⟨0x01000208 + 0x1000 * (n % 128), 11, 1⟩
/-- [18:12], RO. -/
def ECF_CFG_OWNER (n : Nat) : Loc := ⟨0x01000208 + 0x1000 * (n % 128), 12, 7⟩

/-! ECF[n].GUARD (08_error_confinement.md, R235) -/
/-- [9:0], RO. -/
def ECF_GUARD_BASE (n : Nat) : Loc := ⟨0x0100020C + 0x1000 * (n % 128), 0, 10⟩
/-- [13:10], RO. -/
def ECF_GUARD_MAXSH (n : Nat) : Loc := ⟨0x0100020C + 0x1000 * (n % 128), 10, 4⟩
/-- [21:14], RO. -/
def ECF_GUARD_WIN (n : Nat) : Loc := ⟨0x0100020C + 0x1000 * (n % 128), 14, 8⟩
/-- [25:22], RO. -/
def ECF_GUARD_LIMIT (n : Nat) : Loc := ⟨0x0100020C + 0x1000 * (n % 128), 22, 4⟩

/-! ECF[n].SLOPE (08_error_confinement.md, R235) -/
/-- [7:0], RO. -/
def ECF_SLOPE_WIN (n : Nat) : Loc := ⟨0x01000210 + 0x1000 * (n % 128), 0, 8⟩
/-- [15:8], RO. -/
def ECF_SLOPE_TH (n : Nat) : Loc := ⟨0x01000210 + 0x1000 * (n % 128), 8, 8⟩

/-! ECF[n].CNT (08_error_confinement.md, R235) -/
/-- [8:0], RO. -/
def ECF_CNT_TEC (n : Nat) : Loc := ⟨0x01000214 + 0x1000 * (n % 128), 0, 9⟩
/-- [23:16], RO. -/
def ECF_CNT_REC (n : Nat) : Loc := ⟨0x01000214 + 0x1000 * (n % 128), 16, 8⟩

/-! ECF[n].LAST (08_error_confinement.md, R235) -/
/-- [3:0], RO. -/
def ECF_LAST_TYPE (n : Nat) : Loc := ⟨0x01000218 + 0x1000 * (n % 128), 0, 4⟩
/-- [4], RO. -/
def ECF_LAST_DIR (n : Nat) : Loc := ⟨0x01000218 + 0x1000 * (n % 128), 4, 1⟩
/-- [5], RO. -/
def ECF_LAST_PHASE (n : Nat) : Loc := ⟨0x01000218 + 0x1000 * (n % 128), 5, 1⟩
/-- [9:6], RO. -/
def ECF_LAST_FIELD (n : Nat) : Loc := ⟨0x01000218 + 0x1000 * (n % 128), 6, 4⟩
/-- [30:16], RO. -/
def ECF_LAST_POS (n : Nat) : Loc := ⟨0x01000218 + 0x1000 * (n % 128), 16, 15⟩
/-- [31], RO. -/
def ECF_LAST_VALID (n : Nat) : Loc := ⟨0x01000218 + 0x1000 * (n % 128), 31, 1⟩

/-! ECF[n].LAST_T (08_error_confinement.md, R235) -/
/-- [31:0], RO. -/
def ECF_LAST_T_NS (n : Nat) : Loc := ⟨0x01000220 + 0x1000 * (n % 128), 0, 32⟩
/-- [63:32], RO. -/
def ECF_LAST_T_SEC (n : Nat) : Loc := ⟨0x01000220 + 0x1000 * (n % 128), 32, 32⟩

/-! ECF[n].ERRCNT (08_error_confinement.md, R235) -/
/-- [15:0], RC. -/
def ECF_ERRCNT_RX (n : Nat) : Loc := ⟨0x01000228 + 0x1000 * (n % 128), 0, 16⟩
/-- [31:16], RC. -/
def ECF_ERRCNT_TX (n : Nat) : Loc := ⟨0x01000228 + 0x1000 * (n % 128), 16, 16⟩

/-! ECF[n].BO (08_error_confinement.md, R235) -/
/-- [15:0], RO. -/
def ECF_BO_TOTAL (n : Nat) : Loc := ⟨0x0100022C + 0x1000 * (n % 128), 0, 16⟩
/-- [19:16], RO. -/
def ECF_BO_WINK (n : Nat) : Loc := ⟨0x0100022C + 0x1000 * (n % 128), 16, 4⟩
/-- [20], RO. -/
def ECF_BO_ESC (n : Nat) : Loc := ⟨0x0100022C + 0x1000 * (n % 128), 20, 1⟩
/-- [21], RO. -/
def ECF_BO_CAUSE (n : Nat) : Loc := ⟨0x0100022C + 0x1000 * (n % 128), 21, 1⟩

/-! ECF[n].BO_T (08_error_confinement.md, R235) -/
/-- [31:0], RO. -/
def ECF_BO_T_NS (n : Nat) : Loc := ⟨0x01000230 + 0x1000 * (n % 128), 0, 32⟩
/-- [63:32], RO. -/
def ECF_BO_T_SEC (n : Nat) : Loc := ⟨0x01000230 + 0x1000 * (n % 128), 32, 32⟩

/-! ECF[n].BO_DUR (08_error_confinement.md, R235) -/
/-- [31:0], RO. -/
def ECF_BO_DUR_US (n : Nat) : Loc := ⟨0x01000238 + 0x1000 * (n % 128), 0, 32⟩

/-! ECF[n].MISC (08_error_confinement.md, R235) -/
/-- [15:0], RC. -/
def ECF_MISC_ABANDON (n : Nat) : Loc := ⟨0x0100023C + 0x1000 * (n % 128), 0, 16⟩
/-- [31:16], RC. -/
def ECF_MISC_SLOPEW (n : Nat) : Loc := ⟨0x0100023C + 0x1000 * (n % 128), 16, 16⟩

/-! ECF[n].ETH (08_error_confinement.md, R235) -/
/-- [15:0], RC. -/
def ECF_ETH_FCS (n : Nat) : Loc := ⟨0x01000240 + 0x1000 * (n % 128), 0, 16⟩
/-- [31:16], RC. -/
def ECF_ETH_LEN (n : Nat) : Loc := ⟨0x01000240 + 0x1000 * (n % 128), 16, 16⟩

/-! ECF[n].ETH_COLL (08_error_confinement.md, R235) -/
/-- [15:0], RC. -/
def ECF_ETH_COLL_COLL (n : Nat) : Loc := ⟨0x01000244 + 0x1000 * (n % 128), 0, 16⟩
/-- [31:16], RC. -/
def ECF_ETH_COLL_EXCESS (n : Nat) : Loc := ⟨0x01000244 + 0x1000 * (n % 128), 16, 16⟩

/-! GW.STAT (09_gateway_determinism.md, R266) -/
/-- [10:0], RO. -/
def GW_STAT_NROUTE : Loc := ⟨0x03000000, 0, 11⟩
/-- [21:11], RO. -/
def GW_STAT_NLEG : Loc := ⟨0x03000000, 11, 11⟩

/-! GW.BRK (09_gateway_determinism.md, R266) -/
/-- [2:0], RO. -/
def GW_BRK_KIND : Loc := ⟨0x03000004, 0, 3⟩
/-- [12:3], RO. -/
def GW_BRK_ROUTE : Loc := ⟨0x03000004, 3, 10⟩
/-- [14:13], RO. -/
def GW_BRK_LEG : Loc := ⟨0x03000004, 13, 2⟩
/-- [22:15], RO. -/
def GW_BRK_TARGET : Loc := ⟨0x03000004, 15, 8⟩
/-- [31], W1C. -/
def GW_BRK_VALID : Loc := ⟨0x03000004, 31, 1⟩

/-! GW.BRK_LATE (09_gateway_determinism.md, R266) -/
/-- [31:0], RO. -/
def GW_BRK_LATE_NS : Loc := ⟨0x03000008, 0, 32⟩

/-! GW.BRK_T (09_gateway_determinism.md, R266) -/
/-- [31:0], RO. -/
def GW_BRK_T_NS : Loc := ⟨0x03000010, 0, 32⟩
/-- [63:32], RO. -/
def GW_BRK_T_SEC : Loc := ⟨0x03000010, 32, 32⟩

/-! GW.BRKW[0..7] (09_gateway_determinism.md, R266) -/
/-- [31:0], RO. -/
def GW_BRKW_OPEN (k : Nat) : Loc := ⟨0x03000020 + 4 * (k % 8), 0, 32⟩

/-! GW.PCP_TH[0..6] (09_gateway_determinism.md, R266) -/
/-- [31:0], RO. -/
def GW_PCP_TH_KEY (k : Nat) : Loc := ⟨0x03000050 + 4 * (k % 7), 0, 32⟩

/-! GW.RT_CFG[r], r = 0–1023 (09_gateway_determinism.md, R266) -/
/-- [0], RO. -/
def GW_RT_CFG_VALID (r : Nat) : Loc := ⟨0x03001000 + 0x20 * (r % 1024), 0, 1⟩
/-- [1], RO. -/
def GW_RT_CFG_SRC (r : Nat) : Loc := ⟨0x03001000 + 0x20 * (r % 1024), 1, 1⟩
/-- [8:2], RO. -/
def GW_RT_CFG_PORT (r : Nat) : Loc := ⟨0x03001000 + 0x20 * (r % 1024), 2, 7⟩
/-- [14:9], RO. -/
def GW_RT_CFG_STREAM (r : Nat) : Loc := ⟨0x03001000 + 0x20 * (r % 1024), 9, 6⟩
/-- [19:15], RO. -/
def GW_RT_CFG_BUSID (r : Nat) : Loc := ⟨0x03001000 + 0x20 * (r % 1024), 15, 5⟩
/-- [20], RO. -/
def GW_RT_CFG_TAINT_OK (r : Nat) : Loc := ⟨0x03001000 + 0x20 * (r % 1024), 20, 1⟩
/-- [21], RO. -/
def GW_RT_CFG_INHERIT (r : Nat) : Loc := ⟨0x03001000 + 0x20 * (r % 1024), 21, 1⟩
/-- [22], RO. -/
def GW_RT_CFG_BREACH_ACT (r : Nat) : Loc := ⟨0x03001000 + 0x20 * (r % 1024), 22, 1⟩
/-- [23], RO. -/
def GW_RT_CFG_DUP_EOF (r : Nat) : Loc := ⟨0x03001000 + 0x20 * (r % 1024), 23, 1⟩
/-- [25:24], RO. -/
def GW_RT_CFG_NLEG_M1 (r : Nat) : Loc := ⟨0x03001000 + 0x20 * (r % 1024), 24, 2⟩

/-! GW.RT_H[r] (09_gateway_determinism.md, R266) -/
/-- [26:0], RO. -/
def GW_RT_H_NS (r : Nat) : Loc := ⟨0x03001004 + 0x20 * (r % 1024), 0, 27⟩

/-! GW.RT_HMIN[r] (09_gateway_determinism.md, R266) -/
/-- [26:0], RO. -/
def GW_RT_HMIN_NS (r : Nat) : Loc := ⟨0x03001008 + 0x20 * (r % 1024), 0, 27⟩

/-! GW.RT_BUD[r] (09_gateway_determinism.md, R266) -/
/-- [19:0], RO. -/
def GW_RT_BUD_BUDGET (r : Nat) : Loc := ⟨0x0300100C + 0x20 * (r % 1024), 0, 20⟩

/-! GW.RT_LEGS[r] (09_gateway_determinism.md, R266) -/
/-- [9:0], RO. -/
def GW_RT_LEGS_FIRST (r : Nat) : Loc := ⟨0x03001010 + 0x20 * (r % 1024), 0, 10⟩
/-- [31:16], RO. -/
def GW_RT_LEGS_M (r : Nat) : Loc := ⟨0x03001010 + 0x20 * (r % 1024), 16, 16⟩

/-! GW.RT_CNT[r] (09_gateway_determinism.md, R266) -/
/-- [31:0], RC. -/
def GW_RT_CNT_FWD (r : Nat) : Loc := ⟨0x03001014 + 0x20 * (r % 1024), 0, 32⟩

/-! GW.RT_DROP[r] (09_gateway_determinism.md, R266) -/
/-- [15:0], RC. -/
def GW_RT_DROP_POLICE (r : Nat) : Loc := ⟨0x03001018 + 0x20 * (r % 1024), 0, 16⟩
/-- [31:16], RC. -/
def GW_RT_DROP_TAINT (r : Nat) : Loc := ⟨0x03001018 + 0x20 * (r % 1024), 16, 16⟩

/-! GW.RT_BRK[r] (09_gateway_determinism.md, R266) -/
/-- [15:0], RC. -/
def GW_RT_BRK_BREACH (r : Nat) : Loc := ⟨0x0300101C + 0x20 * (r % 1024), 0, 16⟩
/-- [31:16], RC. -/
def GW_RT_BRK_DUP (r : Nat) : Loc := ⟨0x0300101C + 0x20 * (r % 1024), 16, 16⟩

/-! GW.LEG_CFG[l], l = 0–1023 (09_gateway_determinism.md, R266) -/
/-- [1:0], RO. -/
def GW_LEG_CFG_KIND (l : Nat) : Loc := ⟨0x03010000 + 0x10 * (l % 1024), 0, 2⟩
/-- [9:2], RO. -/
def GW_LEG_CFG_TARGET (l : Nat) : Loc := ⟨0x03010000 + 0x10 * (l % 1024), 2, 8⟩
/-- [14:10], RO. -/
def GW_LEG_CFG_BUSID (l : Nat) : Loc := ⟨0x03010000 + 0x10 * (l % 1024), 10, 5⟩
/-- [24:15], RO. -/
def GW_LEG_CFG_POOL (l : Nat) : Loc := ⟨0x03010000 + 0x10 * (l % 1024), 15, 10⟩
/-- [26:25], RO. -/
def GW_LEG_CFG_FMT (l : Nat) : Loc := ⟨0x03010000 + 0x10 * (l % 1024), 25, 2⟩
/-- [27], RO. -/
def GW_LEG_CFG_IDREP (l : Nat) : Loc := ⟨0x03010000 + 0x10 * (l % 1024), 27, 1⟩
/-- [29:28], RO. -/
def GW_LEG_CFG_INDEX (l : Nat) : Loc := ⟨0x03010000 + 0x10 * (l % 1024), 28, 2⟩

/-! GW.LEG_ID[l] (09_gateway_determinism.md, R266) -/
/-- [28:0], RO. -/
def GW_LEG_ID_ID (l : Nat) : Loc := ⟨0x03010004 + 0x10 * (l % 1024), 0, 29⟩
/-- [29], RO. -/
def GW_LEG_ID_IDE (l : Nat) : Loc := ⟨0x03010004 + 0x10 * (l % 1024), 29, 1⟩

/-! GW.LEG_Q[l] (09_gateway_determinism.md, R266) -/
/-- [15:0], RO. -/
def GW_LEG_Q_QDEPTH (l : Nat) : Loc := ⟨0x03010008 + 0x10 * (l % 1024), 0, 16⟩
/-- [31:16], RO. -/
def GW_LEG_Q_INUSE (l : Nat) : Loc := ⟨0x03010008 + 0x10 * (l % 1024), 16, 16⟩

/-! GW.LEG_STAT[l] (09_gateway_determinism.md, R266) -/
/-- [15:0], RC. -/
def GW_LEG_STAT_REL (l : Nat) : Loc := ⟨0x0301000C + 0x10 * (l % 1024), 0, 16⟩
/-- [31:16], RC. -/
def GW_LEG_STAT_DEFER2 (l : Nat) : Loc := ⟨0x0301000C + 0x10 * (l % 1024), 16, 16⟩

/-! GW.TUN_CFG[s], s = 0–63 (09_gateway_determinism.md, R266) -/
/-- [0], RO. -/
def GW_TUN_CFG_IN (s : Nat) : Loc := ⟨0x03020000 + 0x20 * (s % 64), 0, 1⟩
/-- [1], RO. -/
def GW_TUN_CFG_OUT (s : Nat) : Loc := ⟨0x03020000 + 0x20 * (s % 64), 1, 1⟩
/-- [2], RO. -/
def GW_TUN_CFG_SUBTYPE (s : Nat) : Loc := ⟨0x03020000 + 0x20 * (s % 64), 2, 1⟩
/-- [3], RO. -/
def GW_TUN_CFG_MTV (s : Nat) : Loc := ⟨0x03020000 + 0x20 * (s % 64), 3, 1⟩
/-- [4], RO. -/
def GW_TUN_CFG_TS_SRC (s : Nat) : Loc := ⟨0x03020000 + 0x20 * (s % 64), 4, 1⟩
/-- [5], RO. -/
def GW_TUN_CFG_PCP_MAP (s : Nat) : Loc := ⟨0x03020000 + 0x20 * (s % 64), 5, 1⟩
/-- [8:6], RO. -/
def GW_TUN_CFG_PCP (s : Nat) : Loc := ⟨0x03020000 + 0x20 * (s % 64), 6, 3⟩

/-! GW.TUN_SEQ[s] (09_gateway_determinism.md, R266) -/
/-- [7:0], RO. -/
def GW_TUN_SEQ_HI (s : Nat) : Loc := ⟨0x03020004 + 0x20 * (s % 64), 0, 8⟩
/-- [8], RO. -/
def GW_TUN_SEQ_HV (s : Nat) : Loc := ⟨0x03020004 + 0x20 * (s % 64), 8, 1⟩
/-- [23:16], RO. -/
def GW_TUN_SEQ_TXSEQ (s : Nat) : Loc := ⟨0x03020004 + 0x20 * (s % 64), 16, 8⟩

/-! GW.TUN_SID[s] (09_gateway_determinism.md, R266) -/
/-- [63:0], RO. -/
def GW_TUN_SID_SID (s : Nat) : Loc := ⟨0x03020008 + 0x20 * (s % 64), 0, 64⟩

/-! GW.TUN_CNT[s] (09_gateway_determinism.md, R266) -/
/-- [15:0], RC. -/
def GW_TUN_CNT_RX (s : Nat) : Loc := ⟨0x03020010 + 0x20 * (s % 64), 0, 16⟩
/-- [31:16], RC. -/
def GW_TUN_CNT_TX (s : Nat) : Loc := ⟨0x03020010 + 0x20 * (s % 64), 16, 16⟩

/-! GW.TUN_DUP[s] (09_gateway_determinism.md, R266) -/
/-- [15:0], RC. -/
def GW_TUN_DUP_DUP (s : Nat) : Loc := ⟨0x03020014 + 0x20 * (s % 64), 0, 16⟩
/-- [23:16], RC. -/
def GW_TUN_DUP_STALE (s : Nat) : Loc := ⟨0x03020014 + 0x20 * (s % 64), 16, 8⟩
/-- [31:24], RC. -/
def GW_TUN_DUP_SKIP (s : Nat) : Loc := ⟨0x03020014 + 0x20 * (s % 64), 24, 8⟩

/-! GW.EQ_STAT[t] (09_gateway_determinism.md, R266) -/
/-- [0], RO. -/
def GW_EQ_STAT_BRW (t : Nat) : Loc := ⟨0x03030000 + 0x8 * (t % 256), 0, 1⟩
/-- [1], RO. -/
def GW_EQ_STAT_SUSP (t : Nat) : Loc := ⟨0x03030000 + 0x8 * (t % 256), 1, 1⟩
/-- [17:2], RO. -/
def GW_EQ_STAT_NPEND (t : Nat) : Loc := ⟨0x03030000 + 0x8 * (t % 256), 2, 16⟩

/-! GW.EQ_CNT[t] (09_gateway_determinism.md, R266) -/
/-- [15:0], RC. -/
def GW_EQ_CNT_BREACH (t : Nat) : Loc := ⟨0x03030004 + 0x8 * (t % 256), 0, 16⟩
/-- [31:16], RC. -/
def GW_EQ_CNT_CLOSED (t : Nat) : Loc := ⟨0x03030004 + 0x8 * (t % 256), 16, 16⟩

/-! RGN[r].OPP (10_channel_engines.md, R299) -/
/-- [2:0], RW. -/
def RGN_OPP_TARGET (r : Nat) : Loc := ⟨0x04000000 + 0x100000 * (r % 16), 0, 3⟩
/-- [5:3], RO. -/
def RGN_OPP_CURRENT (r : Nat) : Loc := ⟨0x04000000 + 0x100000 * (r % 16), 3, 3⟩
/-- [8:6], RO. -/
def RGN_OPP_MAX (r : Nat) : Loc := ⟨0x04000000 + 0x100000 * (r % 16), 6, 3⟩
/-- [9], RO. -/
def RGN_OPP_BUSY (r : Nat) : Loc := ⟨0x04000000 + 0x100000 * (r % 16), 9, 1⟩

/-! RGN[r].STAT (10_channel_engines.md, R299) -/
/-- [0], RO. -/
def RGN_STAT_POWER (r : Nat) : Loc := ⟨0x04000004 + 0x100000 * (r % 16), 0, 1⟩
/-- [8:1], RO. -/
def RGN_STAT_CLUSTERS (r : Nat) : Loc := ⟨0x04000004 + 0x100000 * (r % 16), 1, 8⟩

/-! RGN[r].DIRCNT (10_channel_engines.md, R299) -/
/-- [15:0], RC. -/
def RGN_DIRCNT_CONTEND (r : Nat) : Loc := ⟨0x04000008 + 0x100000 * (r % 16), 0, 16⟩
/-- [31:16], RC. -/
def RGN_DIRCNT_EXTRA (r : Nat) : Loc := ⟨0x04000008 + 0x100000 * (r % 16), 16, 16⟩

/-! RGN[r].PART[k], k = 0–7 (10_channel_engines.md, R299) -/
/-- [15:0], RO. -/
def RGN_PART_WAYS (r k : Nat) : Loc := ⟨0x04000020 + 0x100000 * (r % 16) + 0x4 * (k % 8), 0, 16⟩
/-- [21:16], RO. -/
def RGN_PART_CRED (r k : Nat) : Loc := ⟨0x04000020 + 0x100000 * (r % 16) + 0x4 * (k % 8), 16, 6⟩

/-! CLU[c].CFG, c = 8r + k (10_channel_engines.md, R299) -/
/-- [5:0], RO. -/
def CLU_CFG_STATION (c : Nat) : Loc := ⟨0x04010000 + 0x100000 * (c / 8 % 16) + 0x1000 * (c % 8), 0, 6⟩
/-- [6], RO. -/
def CLU_CFG_ASSIGNED (c : Nat) : Loc := ⟨0x04010000 + 0x100000 * (c / 8 % 16) + 0x1000 * (c % 8), 6, 1⟩

/-! CLU[c].PRIO (10_channel_engines.md, R299) -/
/-- [15:0], RW. -/
def CLU_PRIO_P (c : Nat) : Loc := ⟨0x04010004 + 0x100000 * (c / 8 % 16) + 0x1000 * (c % 8), 0, 16⟩

/-! CLU[c].DOORBELL (10_channel_engines.md, R299) -/
/-- [7:0], W1S. -/
def CLU_DOORBELL_PEND (c : Nat) : Loc := ⟨0x04010008 + 0x100000 * (c / 8 % 16) + 0x1000 * (c % 8), 0, 8⟩

/-! CLU[c].DOORACK (10_channel_engines.md, R299) -/
/-- [7:0], W1C. -/
def CLU_DOORACK_PEND (c : Nat) : Loc := ⟨0x0401000C + 0x100000 * (c / 8 % 16) + 0x1000 * (c % 8), 0, 8⟩

/-! CLU[c].ERR (10_channel_engines.md, R299) -/
/-- [2:0], RO. -/
def CLU_ERR_REASON (c : Nat) : Loc := ⟨0x04010010 + 0x100000 * (c / 8 % 16) + 0x1000 * (c % 8), 0, 3⟩
/-- [8:3], RO. -/
def CLU_ERR_LOCK (c : Nat) : Loc := ⟨0x04010010 + 0x100000 * (c / 8 % 16) + 0x1000 * (c % 8), 3, 6⟩
/-- [11:9], RO. -/
def CLU_ERR_ENGINE (c : Nat) : Loc := ⟨0x04010010 + 0x100000 * (c / 8 % 16) + 0x1000 * (c % 8), 9, 3⟩
/-- [31], W1C. -/
def CLU_ERR_VALID (c : Nat) : Loc := ⟨0x04010010 + 0x100000 * (c / 8 % 16) + 0x1000 * (c % 8), 31, 1⟩

/-! CLU[c].WIN_A[w], w = 0–7 (10_channel_engines.md, R299) -/
/-- [0], RO. -/
def CLU_WIN_A_R (c w : Nat) : Loc := ⟨0x04010040 + 0x100000 * (c / 8 % 16) + 0x1000 * (c % 8) + 0x8 * (w % 8), 0, 1⟩
/-- [1], RO. -/
def CLU_WIN_A_W (c w : Nat) : Loc := ⟨0x04010040 + 0x100000 * (c / 8 % 16) + 0x1000 * (c % 8) + 0x8 * (w % 8), 1, 1⟩
/-- [2], RO. -/
def CLU_WIN_A_X (c w : Nat) : Loc := ⟨0x04010040 + 0x100000 * (c / 8 % 16) + 0x1000 * (c % 8) + 0x8 * (w % 8), 2, 1⟩
/-- [3], RO. -/
def CLU_WIN_A_VALID (c w : Nat) : Loc := ⟨0x04010040 + 0x100000 * (c / 8 % 16) + 0x1000 * (c % 8) + 0x8 * (w % 8), 3, 1⟩
/-- [11:4], RO. -/
def CLU_WIN_A_GROUPS (c w : Nat) : Loc := ⟨0x04010040 + 0x100000 * (c / 8 % 16) + 0x1000 * (c % 8) + 0x8 * (w % 8), 4, 8⟩
/-- [25:12], RO. -/
def CLU_WIN_A_BASE (c w : Nat) : Loc := ⟨0x04010040 + 0x100000 * (c / 8 % 16) + 0x1000 * (c % 8) + 0x8 * (w % 8), 12, 14⟩

/-! CLU[c].WIN_B[w] (10_channel_engines.md, R299) -/
/-- [25:12], RO. -/
def CLU_WIN_B_LAST (c w : Nat) : Loc := ⟨0x04010044 + 0x100000 * (c / 8 % 16) + 0x1000 * (c % 8) + 0x8 * (w % 8), 12, 14⟩

/-! CLU[c].LOCK[j], j = 0–63 (10_channel_engines.md, R299) -/
/-- [2:0], RO. -/
def CLU_LOCK_HOLDER (c j : Nat) : Loc := ⟨0x04010100 + 0x100000 * (c / 8 % 16) + 0x1000 * (c % 8) + 0x4 * (j % 64), 0, 3⟩
/-- [3], RO. -/
def CLU_LOCK_HELD (c j : Nat) : Loc := ⟨0x04010100 + 0x100000 * (c / 8 % 16) + 0x1000 * (c % 8) + 0x4 * (j % 64), 3, 1⟩
/-- [4], RO. -/
def CLU_LOCK_BROKEN (c j : Nat) : Loc := ⟨0x04010100 + 0x100000 * (c / 8 % 16) + 0x1000 * (c % 8) + 0x4 * (j % 64), 4, 1⟩
/-- [15:8], RO. -/
def CLU_LOCK_WAIT (c j : Nat) : Loc := ⟨0x04010100 + 0x100000 * (c / 8 % 16) + 0x1000 * (c % 8) + 0x4 * (j % 64), 8, 8⟩
/-- [26:24], WO. -/
def CLU_LOCK_CMD (c j : Nat) : Loc := ⟨0x04010100 + 0x100000 * (c / 8 % 16) + 0x1000 * (c % 8) + 0x4 * (j % 64), 24, 3⟩

/-! ENG[e].CTRL, e = 64r + i (10_channel_engines.md, R299) -/
/-- [1:0], WO. -/
def ENG_CTRL_CMD (e : Nat) : Loc := ⟨0x04020000 + 0x100000 * (e / 64 % 16) + 0x100 * (e % 64), 0, 2⟩

/-! ENG[e].STAT (10_channel_engines.md, R299) -/
/-- [2:0], RO. -/
def ENG_STAT_STATE (e : Nat) : Loc := ⟨0x04020004 + 0x100000 * (e / 64 % 16) + 0x100 * (e % 64), 0, 3⟩
/-- [3], RO. -/
def ENG_STAT_PRIV (e : Nat) : Loc := ⟨0x04020004 + 0x100000 * (e / 64 % 16) + 0x100 * (e % 64), 3, 1⟩
/-- [4], RO. -/
def ENG_STAT_XACTIVE (e : Nat) : Loc := ⟨0x04020004 + 0x100000 * (e / 64 % 16) + 0x100 * (e % 64), 4, 1⟩

/-! ENG[e].CFG (10_channel_engines.md, R299) -/
/-- [0], RO. -/
def ENG_CFG_AUTO (e : Nat) : Loc := ⟨0x04020008 + 0x100000 * (e / 64 % 16) + 0x100 * (e % 64), 0, 1⟩
/-- [1], RW. -/
def ENG_CFG_TEN (e : Nat) : Loc := ⟨0x04020008 + 0x100000 * (e / 64 % 16) + 0x100 * (e % 64), 1, 1⟩

/-! ENG[e].START (10_channel_engines.md, R299) -/
/-- [31:1], RWL. -/
def ENG_START_ADDR (e : Nat) : Loc := ⟨0x0402000C + 0x100000 * (e / 64 % 16) + 0x100 * (e % 64), 1, 31⟩

/-! ENG[e].TCMP (10_channel_engines.md, R299) -/
/-- [31:0], RW. -/
def ENG_TCMP_NS (e : Nat) : Loc := ⟨0x04020010 + 0x100000 * (e / 64 % 16) + 0x100 * (e % 64), 0, 32⟩

/-! ENG[e].TRAP (10_channel_engines.md, R299) -/
/-- [4:0], RO. -/
def ENG_TRAP_CAUSE (e : Nat) : Loc := ⟨0x04020014 + 0x100000 * (e / 64 % 16) + 0x100 * (e % 64), 0, 5⟩
/-- [31], RO. -/
def ENG_TRAP_INTR (e : Nat) : Loc := ⟨0x04020014 + 0x100000 * (e / 64 % 16) + 0x100 * (e % 64), 31, 1⟩

/-! ENG[e].TVAL (10_channel_engines.md, R299) -/
/-- [31:0], RO. -/
def ENG_TVAL_VAL (e : Nat) : Loc := ⟨0x04020018 + 0x100000 * (e / 64 % 16) + 0x100 * (e % 64), 0, 32⟩

/-! ENG[e].PC (10_channel_engines.md, R299) -/
/-- [31:0], RO. -/
def ENG_PC_PC (e : Nat) : Loc := ⟨0x0402001C + 0x100000 * (e / 64 % 16) + 0x100 * (e % 64), 0, 32⟩

/-! HALL.STAT (11_memory_halls.md, R321) -/
/-- [3:0], RO. -/
def HALL_STAT_CLEARING : Loc := ⟨0x05500000, 0, 4⟩
/-- [7:4], RO. -/
def HALL_STAT_RETAINED : Loc := ⟨0x05500000, 4, 4⟩

/-! HALL.ERR (11_memory_halls.md, R321) -/
/-- [2:0], RO. -/
def HALL_ERR_REASON : Loc := ⟨0x05500004, 0, 3⟩
/-- [7:3], RO. -/
def HALL_ERR_MASTER : Loc := ⟨0x05500004, 3, 5⟩
/-- [19:8], RO. -/
def HALL_ERR_UNIT : Loc := ⟨0x05500004, 8, 12⟩
/-- [31], W1C. -/
def HALL_ERR_VALID : Loc := ⟨0x05500004, 31, 1⟩

/-! HALL.ERR_ADDR (11_memory_halls.md, R321) -/
/-- [25:0], RO. -/
def HALL_ERR_ADDR_OFFSET : Loc := ⟨0x05500008, 0, 26⟩
/-- [26], RO. -/
def HALL_ERR_ADDR_WRITE : Loc := ⟨0x05500008, 26, 1⟩

/-! HALL.HANDOVER (11_memory_halls.md, R321) -/
/-- [11:0], WO. -/
def HALL_HANDOVER_UNIT : Loc := ⟨0x05500010, 0, 12⟩
/-- [17:12], WO. -/
def HALL_HANDOVER_COUNT_M1 : Loc := ⟨0x05500010, 12, 6⟩
/-- [18], WO. -/
def HALL_HANDOVER_CLEAR : Loc := ⟨0x05500010, 18, 1⟩

/-! HALL.HO_STAT (11_memory_halls.md, R321) -/
/-- [1:0], RO. -/
def HALL_HO_STAT_STATE : Loc := ⟨0x05500014, 0, 2⟩
/-- [4:2], RO. -/
def HALL_HO_STAT_REFUSE : Loc := ⟨0x05500014, 2, 3⟩

/-! HALL.REVOKE (11_memory_halls.md, R321) -/
/-- [6:0], WO. -/
def HALL_REVOKE_OWNER : Loc := ⟨0x05500018, 0, 7⟩
/-- [13:7], WO. -/
def HALL_REVOKE_TO : Loc := ⟨0x05500018, 7, 7⟩

/-! HALL.RV_STAT (11_memory_halls.md, R321) -/
/-- [1:0], RO. -/
def HALL_RV_STAT_STATE : Loc := ⟨0x0550001C, 0, 2⟩
/-- [8:2], RO. -/
def HALL_RV_STAT_OWNER : Loc := ⟨0x0550001C, 2, 7⟩
/-- [21:9], RO. -/
def HALL_RV_STAT_UNITS : Loc := ⟨0x0550001C, 9, 13⟩
/-- [22], W1C. -/
def HALL_RV_STAT_CMDERR : Loc := ⟨0x0550001C, 22, 1⟩

/-! HALL.ECC[h], h = 0–3 (11_memory_halls.md, R321) -/
/-- [15:0], RC. -/
def HALL_ECC_CE (h : Nat) : Loc := ⟨0x05500020 + 0x4 * (h % 4), 0, 16⟩
/-- [31:16], RC. -/
def HALL_ECC_UE (h : Nat) : Loc := ⟨0x05500020 + 0x4 * (h % 4), 16, 16⟩

/-! HALL.UE_ADDR[h] (11_memory_halls.md, R321) -/
/-- [20:0], RO. -/
def HALL_UE_ADDR_WORD (h : Nat) : Loc := ⟨0x05500030 + 0x4 * (h % 4), 0, 21⟩
/-- [25:21], RO. -/
def HALL_UE_ADDR_MASTER (h : Nat) : Loc := ⟨0x05500030 + 0x4 * (h % 4), 21, 5⟩
/-- [31], W1C. -/
def HALL_UE_ADDR_VALID (h : Nat) : Loc := ⟨0x05500030 + 0x4 * (h % 4), 31, 1⟩

/-! HALL.TEST_CFG[h] (11_memory_halls.md, R321) -/
/-- [0], RW. -/
def HALL_TEST_CFG_EN (h : Nat) : Loc := ⟨0x05500040 + 0x4 * (h % 4), 0, 1⟩
/-- [10:1], RW. -/
def HALL_TEST_CFG_INT (h : Nat) : Loc := ⟨0x05500040 + 0x4 * (h % 4), 1, 10⟩

/-! HALL.TEST_STAT[h] (11_memory_halls.md, R321) -/
/-- [20:0], RO. -/
def HALL_TEST_STAT_POS (h : Nat) : Loc := ⟨0x05500050 + 0x4 * (h % 4), 0, 21⟩
/-- [29:22], RO. -/
def HALL_TEST_STAT_REMAP (h : Nat) : Loc := ⟨0x05500050 + 0x4 * (h % 4), 22, 8⟩
/-- [30], RO. -/
def HALL_TEST_STAT_EXHAUST (h : Nat) : Loc := ⟨0x05500050 + 0x4 * (h % 4), 30, 1⟩

/-! HALL.CONF[m], m = 0–21 (11_memory_halls.md, R321) -/
/-- [15:0], RC. -/
def HALL_CONF_WAIT (m : Nat) : Loc := ⟨0x05500060 + 0x4 * (m % 22), 0, 16⟩
/-- [31:16], RC. -/
def HALL_CONF_SPLIT (m : Nat) : Loc := ⟨0x05500060 + 0x4 * (m % 22), 16, 16⟩

/-! HALL.OWN[u], u = 0–4095 (11_memory_halls.md, R321) -/
/-- [6:0], RO. -/
def HALL_OWN_CUR (u : Nat) : Loc := ⟨0x05501000 + 0x4 * (u % 4096), 0, 7⟩
/-- [13:7], RO. -/
def HALL_OWN_OWNER (u : Nat) : Loc := ⟨0x05501000 + 0x4 * (u % 4096), 7, 7⟩
/-- [20:14], RO. -/
def HALL_OWN_ALT (u : Nat) : Loc := ⟨0x05501000 + 0x4 * (u % 4096), 14, 7⟩
/-- [21], RO. -/
def HALL_OWN_CLEARING (u : Nat) : Loc := ⟨0x05501000 + 0x4 * (u % 4096), 21, 1⟩
/-- [22], RO. -/
def HALL_OWN_REVOKED (u : Nat) : Loc := ⟨0x05501000 + 0x4 * (u % 4096), 22, 1⟩

/-! TIME.CTRL (12_time.md, R342) -/
/-- [2:0], WO. -/
def TIME_CTRL_CMD : Loc := ⟨0x05200000, 0, 3⟩
/-- [3], WO. -/
def TIME_CTRL_FORCE : Loc := ⟨0x05200000, 3, 1⟩

/-! TIME.STAT (12_time.md, R342) -/
/-- [0], RO. -/
def TIME_STAT_SYNC : Loc := ⟨0x05200004, 0, 1⟩
/-- [2:1], RO. -/
def TIME_STAT_TRUST : Loc := ⟨0x05200004, 1, 2⟩
/-- [3], W1C. -/
def TIME_STAT_JREF : Loc := ⟨0x05200004, 3, 1⟩
/-- [4], W1C. -/
def TIME_STAT_CMDERR : Loc := ⟨0x05200004, 4, 1⟩
/-- [7:5], RO. -/
def TIME_STAT_TOKRES : Loc := ⟨0x05200004, 5, 3⟩
/-- [8], W1C. -/
def TIME_STAT_CLAMP : Loc := ⟨0x05200004, 8, 1⟩

/-! TIME.CFG (12_time.md, R342) -/
/-- [5:0], RO. -/
def TIME_CFG_TSTN : Loc := ⟨0x05200008, 0, 6⟩
/-- [6], RO. -/
def TIME_CFG_TSTN_EN : Loc := ⟨0x05200008, 6, 1⟩
/-- [22:7], RO. -/
def TIME_CFG_SYNC_TMO : Loc := ⟨0x05200008, 7, 16⟩

/-! TIME.JTH (12_time.md, R342) -/
/-- [30:0], RO. -/
def TIME_JTH_NS : Loc := ⟨0x0520000C, 0, 31⟩

/-! TIME.INC (12_time.md, R342) -/
/-- [33:0], RW. -/
def TIME_INC_INC : Loc := ⟨0x05200010, 0, 34⟩

/-! TIME.NOW_HI (12_time.md, R342) -/
/-- [15:0], RO. -/
def TIME_NOW_HI_SEC_HI : Loc := ⟨0x05200018, 0, 16⟩

/-! TIME.NOW (12_time.md, R342) -/
/-- [31:0], RO. -/
def TIME_NOW_NS : Loc := ⟨0x05200020, 0, 32⟩
/-- [63:32], RO. -/
def TIME_NOW_SEC_LO : Loc := ⟨0x05200020, 32, 32⟩

/-! TIME.NSO (12_time.md, R342) -/
/-- [63:0], RO. -/
def TIME_NSO_NSO : Loc := ⟨0x05200028, 0, 64⟩

/-! TIME.OFFS (12_time.md, R342) -/
/-- [63:0], RW. -/
def TIME_OFFS_NS : Loc := ⟨0x05200030, 0, 64⟩

/-! TIME.JREF (12_time.md, R342) -/
/-- [63:0], RO. -/
def TIME_JREF_NS : Loc := ⟨0x05200038, 0, 64⟩

/-! TIME.SEC_CFG (12_time.md, R342) -/
/-- [4:0], RO. -/
def TIME_SEC_CFG_SLOT : Loc := ⟨0x05200040, 0, 5⟩
/-- [20:5], RO. -/
def TIME_SEC_CFG_TOL : Loc := ⟨0x05200040, 5, 16⟩

/-! TIME.SEC_HOLD (12_time.md, R342) -/
/-- [31:0], RO. -/
def TIME_SEC_HOLD_S : Loc := ⟨0x05200044, 0, 32⟩

/-! TIME.SEC_LAST (12_time.md, R342) -/
/-- [31:0], RO. -/
def TIME_SEC_LAST_NS : Loc := ⟨0x05200048, 0, 32⟩
/-- [63:32], RO. -/
def TIME_SEC_LAST_SEC : Loc := ⟨0x05200048, 32, 32⟩

/-! TIME.SEC_ERR (12_time.md, R342) -/
/-- [63:0], RO. -/
def TIME_SEC_ERR_NS : Loc := ⟨0x05200050, 0, 64⟩

/-! TIME.NONCE (12_time.md, R342) -/
/-- [63:0], RO. -/
def TIME_NONCE_N : Loc := ⟨0x05200058, 0, 64⟩

/-! TIME.TOKEN[0..4] (12_time.md, R342) -/
/-- [31:0], WO. -/
def TIME_TOKEN_B (k : Nat) : Loc := ⟨0x05200060 + 4 * (k % 5), 0, 32⟩

/-! TIME.VT (12_time.md, R342) -/
/-- [14:0], RO. -/
def TIME_VT_FRAC : Loc := ⟨0x05200080, 0, 15⟩
/-- [62:15], RO. -/
def TIME_VT_SEC : Loc := ⟨0x05200080, 15, 48⟩
/-- [63], RO. -/
def TIME_VT_VALID : Loc := ⟨0x05200080, 63, 1⟩

/-! TIME.BRX_CFG[k], k = 0–3 (12_time.md, R342) -/
/-- [0], RO. -/
def TIME_BRX_CFG_EN (k : Nat) : Loc := ⟨0x05200100 + 0x20 * (k % 4), 0, 1⟩
/-- [7:1], RO. -/
def TIME_BRX_CFG_PORT (k : Nat) : Loc := ⟨0x05200100 + 0x20 * (k % 4), 1, 7⟩
/-- [8], RO. -/
def TIME_BRX_CFG_TRUST_SRC (k : Nat) : Loc := ⟨0x05200100 + 0x20 * (k % 4), 8, 1⟩
/-- [13:9], RO. -/
def TIME_BRX_CFG_KSLOT (k : Nat) : Loc := ⟨0x05200100 + 0x20 * (k % 4), 9, 5⟩
/-- [27:16], RO. -/
def TIME_BRX_CFG_PROP (k : Nat) : Loc := ⟨0x05200100 + 0x20 * (k % 4), 16, 12⟩

/-! TIME.BRX_ID[k] (12_time.md, R342) -/
/-- [28:0], RO. -/
def TIME_BRX_ID_ID (k : Nat) : Loc := ⟨0x05200104 + 0x20 * (k % 4), 0, 29⟩
/-- [29], RO. -/
def TIME_BRX_ID_IDE (k : Nat) : Loc := ⟨0x05200104 + 0x20 * (k % 4), 29, 1⟩

/-! TIME.BRX_RT[k] (12_time.md, R342) -/
/-- [31:0], RO. -/
def TIME_BRX_RT_NS (k : Nat) : Loc := ⟨0x05200108 + 0x20 * (k % 4), 0, 32⟩
/-- [63:32], RO. -/
def TIME_BRX_RT_SEC (k : Nat) : Loc := ⟨0x05200108 + 0x20 * (k % 4), 32, 32⟩

/-! TIME.BRX_LT[k] (12_time.md, R342) -/
/-- [31:0], RO. -/
def TIME_BRX_LT_NS (k : Nat) : Loc := ⟨0x05200110 + 0x20 * (k % 4), 0, 32⟩
/-- [63:32], RO. -/
def TIME_BRX_LT_SEC (k : Nat) : Loc := ⟨0x05200110 + 0x20 * (k % 4), 32, 32⟩

/-! TIME.BRX_OFF[k] (12_time.md, R342) -/
/-- [31:0], RO. -/
def TIME_BRX_OFF_OFF (k : Nat) : Loc := ⟨0x05200118 + 0x20 * (k % 4), 0, 32⟩

/-! TIME.BRX_STAT[k] (12_time.md, R342) -/
/-- [7:0], RO. -/
def TIME_BRX_STAT_SEQ (k : Nat) : Loc := ⟨0x0520011C + 0x20 * (k % 4), 0, 8⟩
/-- [9:8], RO. -/
def TIME_BRX_STAT_FMT (k : Nat) : Loc := ⟨0x0520011C + 0x20 * (k % 4), 8, 2⟩
/-- [10], RO. -/
def TIME_BRX_STAT_TRUSTED (k : Nat) : Loc := ⟨0x0520011C + 0x20 * (k % 4), 10, 1⟩
/-- [11], RO. -/
def TIME_BRX_STAT_SYNCED (k : Nat) : Loc := ⟨0x0520011C + 0x20 * (k % 4), 11, 1⟩
/-- [13:12], RO. -/
def TIME_BRX_STAT_AUTH (k : Nat) : Loc := ⟨0x0520011C + 0x20 * (k % 4), 12, 2⟩
/-- [14], RO. -/
def TIME_BRX_STAT_STEPPED (k : Nat) : Loc := ⟨0x0520011C + 0x20 * (k % 4), 14, 1⟩
/-- [31:16], RO. -/
def TIME_BRX_STAT_COUNT (k : Nat) : Loc := ⟨0x0520011C + 0x20 * (k % 4), 16, 16⟩

/-! TIME.BSCHED[n], n = 0–127 (12_time.md, R342) -/
/-- [15:0], RO. -/
def TIME_BSCHED_PER (n : Nat) : Loc := ⟨0x05200400 + 0x4 * (n % 128), 0, 16⟩
/-- [31:16], RO. -/
def TIME_BSCHED_PHASE (n : Nat) : Loc := ⟨0x05200400 + 0x4 * (n % 128), 16, 16⟩

/-! TIME.PTP[p], p = 0–131 (12_time.md, R342) -/
/-- [0], RO. -/
def TIME_PTP_RECOG (p : Nat) : Loc := ⟨0x05200600 + 0x4 * (p % 132), 0, 1⟩
/-- [1], RO. -/
def TIME_PTP_ONESTEP (p : Nat) : Loc := ⟨0x05200600 + 0x4 * (p % 132), 1, 1⟩

/-! LEDG.STAT (13_ledger_events.md, R360) -/
/-- [13:0], RO. -/
def LEDG_STAT_STAGED : Loc := ⟨0x05000000, 0, 14⟩
/-- [14], RO. -/
def LEDG_STAT_HELD : Loc := ⟨0x05000000, 14, 1⟩
/-- [15], W1C. -/
def LEDG_STAT_HOLD_EXP : Loc := ⟨0x05000000, 15, 1⟩

/-! LEDG.HOLD (13_ledger_events.md, R360) -/
/-- [0], RW. -/
def LEDG_HOLD_ON : Loc := ⟨0x05000004, 0, 1⟩
/-- [8:1], RW. -/
def LEDG_HOLD_MAX : Loc := ⟨0x05000004, 1, 8⟩

/-! LEDG.EOI (13_ledger_events.md, R360) -/
/-- [10:0], WO. -/
def LEDG_EOI_SRC : Loc := ⟨0x05000008, 0, 11⟩

/-! LEDG.ERR (13_ledger_events.md, R360) -/
/-- [2:0], RO. -/
def LEDG_ERR_REASON : Loc := ⟨0x0500000C, 0, 3⟩
/-- [13:3], RO. -/
def LEDG_ERR_NUM : Loc := ⟨0x0500000C, 3, 11⟩
/-- [14], RO. -/
def LEDG_ERR_REQ : Loc := ⟨0x0500000C, 14, 1⟩
/-- [24:15], RO. -/
def LEDG_ERR_ENGINE : Loc := ⟨0x0500000C, 15, 10⟩
/-- [31], W1C. -/
def LEDG_ERR_VALID : Loc := ⟨0x0500000C, 31, 1⟩

/-! LEDG.LOSTCNT (13_ledger_events.md, R360) -/
/-- [15:0], RC. -/
def LEDG_LOSTCNT_STAGING : Loc := ⟨0x05000010, 0, 16⟩
/-- [31:16], RC. -/
def LEDG_LOSTCNT_NORING : Loc := ⟨0x05000010, 16, 16⟩

/-! LEDG.EPEND (13_ledger_events.md, R360) -/
/-- [63:0], RO. -/
def LEDG_EPEND_PEND : Loc := ⟨0x05000018, 0, 64⟩

/-! LEDG.WAKE (13_ledger_events.md, R360) -/
/-- [10:0], RO. -/
def LEDG_WAKE_SRC : Loc := ⟨0x05000020, 0, 11⟩
/-- [11], W1C. -/
def LEDG_WAKE_VALID : Loc := ⟨0x05000020, 11, 1⟩
/-- [12], RWL. -/
def LEDG_WAKE_PORTS : Loc := ⟨0x05000020, 12, 1⟩
/-- [13], RWL. -/
def LEDG_WAKE_TIMER : Loc := ⟨0x05000020, 13, 1⟩
/-- [14], RWL. -/
def LEDG_WAKE_SUPPLY : Loc := ⟨0x05000020, 14, 1⟩
/-- [15], RWL. -/
def LEDG_WAKE_TAMPER : Loc := ⟨0x05000020, 15, 1⟩

/-! LEDG.RING_BASE[k], k = 0–63 (13_ledger_events.md, R360) -/
/-- [25:4], RO. -/
def LEDG_RING_BASE_BASE (k : Nat) : Loc := ⟨0x05001000 + 0x20 * (k % 64), 4, 22⟩

/-! LEDG.RING_CFG[k] (13_ledger_events.md, R360) -/
/-- [0], RO. -/
def LEDG_RING_CFG_EN (k : Nat) : Loc := ⟨0x05001004 + 0x20 * (k % 64), 0, 1⟩
/-- [1], RW. -/
def LEDG_RING_CFG_IEN (k : Nat) : Loc := ⟨0x05001004 + 0x20 * (k % 64), 1, 1⟩
/-- [6:2], RO. -/
def LEDG_RING_CFG_L (k : Nat) : Loc := ⟨0x05001004 + 0x20 * (k % 64), 2, 5⟩
/-- [17:7], RO. -/
def LEDG_RING_CFG_TARGET (k : Nat) : Loc := ⟨0x05001004 + 0x20 * (k % 64), 7, 11⟩

/-! LEDG.RING_MOD[k] (13_ledger_events.md, R360) -/
/-- [15:0], RW. -/
def LEDG_RING_MOD_US (k : Nat) : Loc := ⟨0x05001008 + 0x20 * (k % 64), 0, 16⟩

/-! LEDG.RING_HEAD[k] (13_ledger_events.md, R360) -/
/-- [16:0], RW. -/
def LEDG_RING_HEAD_HEAD (k : Nat) : Loc := ⟨0x0500100C + 0x20 * (k % 64), 0, 17⟩

/-! LEDG.RING_TAIL[k] (13_ledger_events.md, R360) -/
/-- [16:0], RO. -/
def LEDG_RING_TAIL_TAIL (k : Nat) : Loc := ⟨0x05001010 + 0x20 * (k % 64), 0, 17⟩

/-! LEDG.RING_STAT[k] (13_ledger_events.md, R360) -/
/-- [15:0], RC. -/
def LEDG_RING_STAT_LOST (k : Nat) : Loc := ⟨0x05001014 + 0x20 * (k % 64), 0, 16⟩
/-- [31:16], RC. -/
def LEDG_RING_STAT_SIGS (k : Nat) : Loc := ⟨0x05001014 + 0x20 * (k % 64), 16, 16⟩

/-! LEDG.SRC[s], s = 0–2046 (13_ledger_events.md, R360) -/
/-- [5:0], RO. -/
def LEDG_SRC_RING (s : Nat) : Loc := ⟨0x05010000 + 0x4 * (s % 2048), 0, 6⟩
/-- [7:6], RO. -/
def LEDG_SRC_SENSE (s : Nat) : Loc := ⟨0x05010000 + 0x4 * (s % 2048), 6, 2⟩
/-- [8], RW. -/
def LEDG_SRC_EN (s : Nat) : Loc := ⟨0x05010000 + 0x4 * (s % 2048), 8, 1⟩
/-- [10:9], RO. -/
def LEDG_SRC_STATE (s : Nat) : Loc := ⟨0x05010000 + 0x4 * (s % 2048), 9, 2⟩
/-- [11], RO. -/
def LEDG_SRC_LIVE (s : Nat) : Loc := ⟨0x05010000 + 0x4 * (s % 2048), 11, 1⟩

/-! CUR.CTRL (14_curator_faults.md, R382) -/
/-- [3:0], WO. -/
def CUR_CTRL_CMD : Loc := ⟨0x05100000, 0, 4⟩
/-- [15:8], WO. -/
def CUR_CTRL_ARG : Loc := ⟨0x05100000, 8, 8⟩

/-! CUR.STAT (14_curator_faults.md, R382) -/
/-- [0], RO. -/
def CUR_STAT_SAFE : Loc := ⟨0x05100004, 0, 1⟩
/-- [9:1], RO. -/
def CUR_STAT_NUNCL : Loc := ⟨0x05100004, 1, 9⟩
/-- [10], W1C. -/
def CUR_STAT_OVF : Loc := ⟨0x05100004, 10, 1⟩
/-- [11], RO. -/
def CUR_STAT_SELF : Loc := ⟨0x05100004, 11, 1⟩
/-- [12], RO. -/
def CUR_STAT_RLOCK : Loc := ⟨0x05100004, 12, 1⟩
/-- [13], W1C. -/
def CUR_STAT_CMDERR : Loc := ⟨0x05100004, 13, 1⟩
/-- [14], RO. -/
def CUR_STAT_FAULTN : Loc := ⟨0x05100004, 14, 1⟩
/-- [15], RO. -/
def CUR_STAT_RECL : Loc := ⟨0x05100004, 15, 1⟩

/-! CUR.CFG (14_curator_faults.md, R382) -/
/-- [15:0], RO. -/
def CUR_CFG_QUIET : Loc := ⟨0x05100008, 0, 16⟩
/-- [19:16], RO. -/
def CUR_CFG_RECOV_MAX : Loc := ⟨0x05100008, 16, 4⟩
/-- [27:20], RO. -/
def CUR_CFG_RECOV_WIN : Loc := ⟨0x05100008, 20, 8⟩
/-- [29:28], RO. -/
def CUR_CFG_RECLAIM_TO : Loc := ⟨0x05100008, 28, 2⟩

/-! CUR.RECOV (14_curator_faults.md, R382) -/
/-- [15:0], RO. -/
def CUR_RECOV_COUNT : Loc := ⟨0x0510000C, 0, 16⟩
/-- [19:16], RO. -/
def CUR_RECOV_WINCNT : Loc := ⟨0x0510000C, 16, 4⟩

/-! CUR.FIRST (14_curator_faults.md, R382) -/
/-- [10:0], RO. -/
def CUR_FIRST_SRC : Loc := ⟨0x05100010, 0, 11⟩
/-- [18:11], RO. -/
def CUR_FIRST_KIND : Loc := ⟨0x05100010, 11, 8⟩
/-- [20:19], RO. -/
def CUR_FIRST_SEV : Loc := ⟨0x05100010, 19, 2⟩
/-- [23], RO. -/
def CUR_FIRST_INJ : Loc := ⟨0x05100010, 23, 1⟩
/-- [31], W1C. -/
def CUR_FIRST_VALID : Loc := ⟨0x05100010, 31, 1⟩

/-! CUR.FIRST_ADDR (14_curator_faults.md, R382) -/
/-- [31:0], RO. -/
def CUR_FIRST_ADDR_ADDR : Loc := ⟨0x05100014, 0, 32⟩

/-! CUR.FIRST_ACC (14_curator_faults.md, R382) -/
/-- [10:0], RO. -/
def CUR_FIRST_ACC_MASTER : Loc := ⟨0x05100018, 0, 11⟩
/-- [13:11], RO. -/
def CUR_FIRST_ACC_ACC : Loc := ⟨0x05100018, 11, 3⟩

/-! CUR.FIRST_T (14_curator_faults.md, R382) -/
/-- [31:0], RO. -/
def CUR_FIRST_T_NS : Loc := ⟨0x05100020, 0, 32⟩
/-- [63:32], RO. -/
def CUR_FIRST_T_SEC : Loc := ⟨0x05100020, 32, 32⟩

/-! CUR.COIN (14_curator_faults.md, R382) -/
/-- [10:0], RO. -/
def CUR_COIN_SRC : Loc := ⟨0x05100028, 0, 11⟩
/-- [18:11], RO. -/
def CUR_COIN_KIND : Loc := ⟨0x05100028, 11, 8⟩
/-- [20:19], RO. -/
def CUR_COIN_SEV : Loc := ⟨0x05100028, 19, 2⟩
/-- [23], RO. -/
def CUR_COIN_INJ : Loc := ⟨0x05100028, 23, 1⟩
/-- [28:24], RO. -/
def CUR_COIN_OTHERS : Loc := ⟨0x05100028, 24, 5⟩
/-- [31], RO. -/
def CUR_COIN_VALID : Loc := ⟨0x05100028, 31, 1⟩

/-! CUR.SEVCNT (14_curator_faults.md, R382) -/
/-- [15:0], RC. -/
def CUR_SEVCNT_S0 : Loc := ⟨0x05100030, 0, 16⟩
/-- [31:16], RC. -/
def CUR_SEVCNT_S1 : Loc := ⟨0x05100030, 16, 16⟩
/-- [47:32], RC. -/
def CUR_SEVCNT_S2 : Loc := ⟨0x05100030, 32, 16⟩
/-- [63:48], RC. -/
def CUR_SEVCNT_S3 : Loc := ⟨0x05100030, 48, 16⟩

/-! CUR.GO_OUT (14_curator_faults.md, R382) -/
/-- [31:0], RW. -/
def CUR_GO_OUT_OUT : Loc := ⟨0x05100038, 0, 32⟩

/-! CUR.INJ (14_curator_faults.md, R382) -/
/-- [10:0], WO. -/
def CUR_INJ_SRC : Loc := ⟨0x0510003C, 0, 11⟩
/-- [18:11], WO. -/
def CUR_INJ_KIND : Loc := ⟨0x0510003C, 11, 8⟩
/-- [31], WO. -/
def CUR_INJ_GO : Loc := ⟨0x0510003C, 31, 1⟩

/-! CUR.GO_SAFE (14_curator_faults.md, R382) -/
/-- [63:0], RO. -/
def CUR_GO_SAFE_CODE : Loc := ⟨0x05100040, 0, 64⟩

/-! CUR.SAFE_T (14_curator_faults.md, R382) -/
/-- [31:0], RO. -/
def CUR_SAFE_T_NS : Loc := ⟨0x05100048, 0, 32⟩
/-- [63:32], RO. -/
def CUR_SAFE_T_SEC : Loc := ⟨0x05100048, 32, 32⟩

/-! CUR.KIND[k], k = 0–255 (14_curator_faults.md, R382) -/
/-- [1:0], RO. -/
def CUR_KIND_SEV (k : Nat) : Loc := ⟨0x05101000 + 0x4 * (k % 256), 0, 2⟩
/-- [5:2], RO. -/
def CUR_KIND_REACT (k : Nat) : Loc := ⟨0x05101000 + 0x4 * (k % 256), 2, 4⟩
/-- [6], RO. -/
def CUR_KIND_AUTO (k : Nat) : Loc := ⟨0x05101000 + 0x4 * (k % 256), 6, 1⟩
/-- [7], RO. -/
def CUR_KIND_FIXED (k : Nat) : Loc := ⟨0x05101000 + 0x4 * (k % 256), 7, 1⟩
/-- [9:8], RO. -/
def CUR_KIND_RSEV (k : Nat) : Loc := ⟨0x05101000 + 0x4 * (k % 256), 8, 2⟩

/-! CUR.WRULE0[w], w = 0–63 (14_curator_faults.md, R382) -/
/-- [7:0], RO. -/
def CUR_WRULE0_KIND (w : Nat) : Loc := ⟨0x05101400 + 0x8 * (w % 64), 0, 8⟩
/-- [18:8], RO. -/
def CUR_WRULE0_SRC (w : Nat) : Loc := ⟨0x05101400 + 0x8 * (w % 64), 8, 11⟩
/-- [22:19], RO. -/
def CUR_WRULE0_N (w : Nat) : Loc := ⟨0x05101400 + 0x8 * (w % 64), 19, 4⟩
/-- [24:23], RO. -/
def CUR_WRULE0_ESC (w : Nat) : Loc := ⟨0x05101400 + 0x8 * (w % 64), 23, 2⟩

/-! CUR.WRULE1[w] (14_curator_faults.md, R382) -/
/-- [15:0], RO. -/
def CUR_WRULE1_WIN (w : Nat) : Loc := ⟨0x05101404 + 0x8 * (w % 64), 0, 16⟩

/-! CUR.AFT[i], i = 0–255, words 0–3 (14_curator_faults.md, R382) -/
/-- [10:0], RO. -/
def CUR_AFT_SRC (i : Nat) : Loc := ⟨0x05102000 + 0x10 * (i % 256), 0, 11⟩
/-- [18:11], RO. -/
def CUR_AFT_KIND (i : Nat) : Loc := ⟨0x05102000 + 0x10 * (i % 256), 11, 8⟩
/-- [20:19], RO. -/
def CUR_AFT_SEV (i : Nat) : Loc := ⟨0x05102000 + 0x10 * (i % 256), 19, 2⟩
/-- [21], RO. -/
def CUR_AFT_SAFE (i : Nat) : Loc := ⟨0x05102000 + 0x10 * (i % 256), 21, 1⟩
/-- [22], RO. -/
def CUR_AFT_LIVE (i : Nat) : Loc := ⟨0x05102000 + 0x10 * (i % 256), 22, 1⟩
/-- [23], RO. -/
def CUR_AFT_INJ (i : Nat) : Loc := ⟨0x05102000 + 0x10 * (i % 256), 23, 1⟩
/-- [31], RO. -/
def CUR_AFT_VALID (i : Nat) : Loc := ⟨0x05102000 + 0x10 * (i % 256), 31, 1⟩
/-- [15:0], RO. -/
def CUR_AFT_COUNT (i : Nat) : Loc := ⟨0x05102004 + 0x10 * (i % 256), 0, 16⟩
/-- [31:0], RO. -/
def CUR_AFT_NS (i : Nat) : Loc := ⟨0x05102008 + 0x10 * (i % 256), 0, 32⟩
/-- [63:32], RO. -/
def CUR_AFT_SEC (i : Nat) : Loc := ⟨0x05102008 + 0x10 * (i % 256), 32, 32⟩
/-- [31:0], word w. -/
def CUR_AFT_W (i w : Nat) : Loc := ⟨0x05102000 + 0x10 * (i % 256) + 4 * (w % 4), 0, 32⟩

/-! PWR.CTRL (15_power_clocks_sleep.md, R405) -/
/-- [1:0], RW. -/
def PWR_CTRL_ALLOW : Loc := ⟨0x00000100, 0, 2⟩

/-! PWR.STAT (15_power_clocks_sleep.md, R405) -/
/-- [1:0], RO. -/
def PWR_STAT_STATE : Loc := ⟨0x00000104, 0, 2⟩
/-- [5:2], RO. -/
def PWR_STAT_BLOCK : Loc := ⟨0x00000104, 2, 4⟩
/-- [6], W1C. -/
def PWR_STAT_A3WOKE : Loc := ⟨0x00000104, 6, 1⟩

/-! PWR.NEXT (15_power_clocks_sleep.md, R405) -/
/-- [30:0], RO. -/
def PWR_NEXT_US : Loc := ⟨0x00000108, 0, 31⟩
/-- [31], RO. -/
def PWR_NEXT_VALID : Loc := ⟨0x00000108, 31, 1⟩

/-! PWR.RAILS (15_power_clocks_sleep.md, R405) -/
/-- [3:0], RO. -/
def PWR_RAILS_PG : Loc := ⟨0x0000010C, 0, 4⟩
/-- [4], RO. -/
def PWR_RAILS_VBAT_LOW : Loc := ⟨0x0000010C, 4, 1⟩
/-- [5], RO. -/
def PWR_RAILS_REF_OK : Loc := ⟨0x0000010C, 5, 1⟩
/-- [6], RO. -/
def PWR_RAILS_XW_OK : Loc := ⟨0x0000010C, 6, 1⟩
/-- [15:8], RO. -/
def PWR_RAILS_VBAT : Loc := ⟨0x0000010C, 8, 8⟩

/-! PWR.TEMP (15_power_clocks_sleep.md, R405) -/
/-- [9:0], RO. -/
def PWR_TEMP_TJ : Loc := ⟨0x00000110, 0, 10⟩
/-- [25:16], RC. -/
def PWR_TEMP_PEAK : Loc := ⟨0x00000110, 16, 10⟩

/-! PWR.CNT (15_power_clocks_sleep.md, R405) -/
/-- [15:0], RC. -/
def PWR_CNT_A1 : Loc := ⟨0x00000114, 0, 16⟩
/-- [31:16], RC. -/
def PWR_CNT_A2 : Loc := ⟨0x00000114, 16, 16⟩

/-! WATCH.STAT (15_power_clocks_sleep.md, R405) -/
/-- [0], RO. -/
def WATCH_STAT_XTAL : Loc := ⟨0x05600000, 0, 1⟩
/-- [1], RO. -/
def WATCH_STAT_VBK_SRC : Loc := ⟨0x05600000, 1, 1⟩
/-- [2], W1C. -/
def WATCH_STAT_LAPSE : Loc := ⟨0x05600000, 2, 1⟩
/-- [3], RO. -/
def WATCH_STAT_VBK_LOW : Loc := ⟨0x05600000, 3, 1⟩

/-! WATCH.WAKE (15_power_clocks_sleep.md, R405) -/
/-- [1:0], RO. -/
def WATCH_WAKE_FROM : Loc := ⟨0x05600004, 0, 2⟩
/-- [4:2], RO. -/
def WATCH_WAKE_CAUSE : Loc := ⟨0x05600004, 2, 3⟩

/-! WATCH.SUPPLY (15_power_clocks_sleep.md, R405) -/
/-- [1:0], RO. -/
def WATCH_SUPPLY_RAILFAIL : Loc := ⟨0x05600008, 0, 2⟩
/-- [15:2], RC. -/
def WATCH_SUPPLY_BROWNOUT : Loc := ⟨0x05600008, 2, 14⟩
/-- [23:16], RO. -/
def WATCH_SUPPLY_VBK : Loc := ⟨0x05600008, 16, 8⟩

/-! WATCH.TREST (15_power_clocks_sleep.md, R405) -/
/-- [16:0], RO. -/
def WATCH_TREST_US : Loc := ⟨0x0560000C, 0, 17⟩

/-! WATCH.CNT (15_power_clocks_sleep.md, R405) -/
/-- [15:0], RC. -/
def WATCH_CNT_A3 : Loc := ⟨0x05600010, 0, 16⟩
/-- [31:16], RC. -/
def WATCH_CNT_SCRUB : Loc := ⟨0x05600010, 16, 16⟩

/-! WATCH.TMR[k], k = 0–3 (15_power_clocks_sleep.md, R405) -/
/-- [14:0], RW. -/
def WATCH_TMR_FRAC (k : Nat) : Loc := ⟨0x05600020 + 0x8 * (k % 4), 0, 15⟩
/-- [62:15], RW. -/
def WATCH_TMR_SEC (k : Nat) : Loc := ⟨0x05600020 + 0x8 * (k % 4), 15, 48⟩
/-- [63], RW. -/
def WATCH_TMR_EN (k : Nat) : Loc := ⟨0x05600020 + 0x8 * (k % 4), 63, 1⟩

/-! WATCH.SCHED (15_power_clocks_sleep.md, R405) -/
/-- [14:0], RO. -/
def WATCH_SCHED_FRAC : Loc := ⟨0x05600040, 0, 15⟩
/-- [62:15], RO. -/
def WATCH_SCHED_SEC : Loc := ⟨0x05600040, 15, 48⟩
/-- [63], RO. -/
def WATCH_SCHED_EN : Loc := ⟨0x05600040, 63, 1⟩

/-! SPN.STAT (16_spine_host_service.md, R427) -/
/-- [3:0], RO. -/
def SPN_STAT_LINK : Loc := ⟨0x05400000, 0, 4⟩
/-- [19:4], RO. -/
def SPN_STAT_FAILBACK : Loc := ⟨0x05400000, 4, 16⟩

/-! SPN.LANE_CFG[l], l = 0–3 (16_spine_host_service.md, R427) -/
/-- [1:0], RO. -/
def SPN_LANE_CFG_MODE (l : Nat) : Loc := ⟨0x05401000 + 0x100 * (l % 4), 0, 2⟩
/-- [2], RO. -/
def SPN_LANE_CFG_MACSEC (l : Nat) : Loc := ⟨0x05401000 + 0x100 * (l % 4), 2, 1⟩
/-- [3], RW. -/
def SPN_LANE_CFG_SLEEP_OK (l : Nat) : Loc := ⟨0x05401000 + 0x100 * (l % 4), 3, 1⟩
/-- [4], RO. -/
def SPN_LANE_CFG_HOSTALL (l : Nat) : Loc := ⟨0x05401000 + 0x100 * (l % 4), 4, 1⟩
/-- [6:5], RW. -/
def SPN_LANE_CFG_TX_AN (l : Nat) : Loc := ⟨0x05401000 + 0x100 * (l % 4), 5, 2⟩

/-! SPN.LANE_STAT[l] (16_spine_host_service.md, R427) -/
/-- [0], RO. -/
def SPN_LANE_STAT_LINK (l : Nat) : Loc := ⟨0x05401004 + 0x100 * (l % 4), 0, 1⟩
/-- [1], RO. -/
def SPN_LANE_STAT_FEC_LOCK (l : Nat) : Loc := ⟨0x05401004 + 0x100 * (l % 4), 1, 1⟩
/-- [3:2], RO. -/
def SPN_LANE_STAT_TRAIN (l : Nat) : Loc := ⟨0x05401004 + 0x100 * (l % 4), 2, 2⟩
/-- [31:16], RC. -/
def SPN_LANE_STAT_DOWNS (l : Nat) : Loc := ⟨0x05401004 + 0x100 * (l % 4), 16, 16⟩

/-! SPN.LANE_SA[l] (16_spine_host_service.md, R427) -/
/-- [47:0], RO. -/
def SPN_LANE_SA_ADDR (l : Nat) : Loc := ⟨0x05401008 + 0x100 * (l % 4), 0, 48⟩

/-! SPN.LANE_FEC[l] (16_spine_host_service.md, R427) -/
/-- [15:0], RC. -/
def SPN_LANE_FEC_CORR (l : Nat) : Loc := ⟨0x05401010 + 0x100 * (l % 4), 0, 16⟩
/-- [31:16], RC. -/
def SPN_LANE_FEC_UNCORR (l : Nat) : Loc := ⟨0x05401010 + 0x100 * (l % 4), 16, 16⟩

/-! SPN.LANE_SEC[l] (16_spine_host_service.md, R427) -/
/-- [11:0], RC. -/
def SPN_LANE_SEC_DROP (l : Nat) : Loc := ⟨0x05401014 + 0x100 * (l % 4), 0, 12⟩
/-- [21:12], RC. -/
def SPN_LANE_SEC_REPLAY (l : Nat) : Loc := ⟨0x05401014 + 0x100 * (l % 4), 12, 10⟩
/-- [31:22], RC. -/
def SPN_LANE_SEC_HQDROP (l : Nat) : Loc := ⟨0x05401014 + 0x100 * (l % 4), 22, 10⟩

/-! SPN.HQ_BASE[l] (16_spine_host_service.md, R427) -/
/-- [25:16], RW. -/
def SPN_HQ_BASE_BASE (l : Nat) : Loc := ⟨0x05401018 + 0x100 * (l % 4), 16, 10⟩

/-! SPN.HQ_PTR[l] (16_spine_host_service.md, R427) -/
/-- [4:0], RO. -/
def SPN_HQ_PTR_RX_TAIL (l : Nat) : Loc := ⟨0x0540101C + 0x100 * (l % 4), 0, 5⟩
/-- [12:8], RW. -/
def SPN_HQ_PTR_RX_HEAD (l : Nat) : Loc := ⟨0x0540101C + 0x100 * (l % 4), 8, 5⟩
/-- [20:16], RW. -/
def SPN_HQ_PTR_TX_TAIL (l : Nat) : Loc := ⟨0x0540101C + 0x100 * (l % 4), 16, 5⟩
/-- [28:24], RO. -/
def SPN_HQ_PTR_TX_HEAD (l : Nat) : Loc := ⟨0x0540101C + 0x100 * (l % 4), 24, 5⟩

/-! SPN.STR_CFG[s], s = 0–63 (16_spine_host_service.md, R427) -/
/-- [1:0], RO. -/
def SPN_STR_CFG_KIND (s : Nat) : Loc := ⟨0x05402000 + 0x20 * (s % 64), 0, 2⟩
/-- [3:2], RO. -/
def SPN_STR_CFG_LANE (s : Nat) : Loc := ⟨0x05402000 + 0x20 * (s % 64), 2, 2⟩
/-- [5:4], RO. -/
def SPN_STR_CFG_ALT (s : Nat) : Loc := ⟨0x05402000 + 0x20 * (s % 64), 4, 2⟩
/-- [6], RO. -/
def SPN_STR_CFG_ALT_EN (s : Nat) : Loc := ⟨0x05402000 + 0x20 * (s % 64), 6, 1⟩
/-- [18:7], RO. -/
def SPN_STR_CFG_VID (s : Nat) : Loc := ⟨0x05402000 + 0x20 * (s % 64), 7, 12⟩
/-- [21:19], RO. -/
def SPN_STR_CFG_PCP (s : Nat) : Loc := ⟨0x05402000 + 0x20 * (s % 64), 19, 3⟩

/-! SPN.STR_DA[s] (16_spine_host_service.md, R427) -/
/-- [47:0], RO. -/
def SPN_STR_DA_ADDR (s : Nat) : Loc := ⟨0x05402008 + 0x20 * (s % 64), 0, 48⟩

/-! SPN.STR_STAT[s] (16_spine_host_service.md, R427) -/
/-- [1:0], RO. -/
def SPN_STR_STAT_ACTIVE (s : Nat) : Loc := ⟨0x05402010 + 0x20 * (s % 64), 0, 2⟩
/-- [2], RO. -/
def SPN_STR_STAT_RUN (s : Nat) : Loc := ⟨0x05402010 + 0x20 * (s % 64), 2, 1⟩
/-- [3], RO. -/
def SPN_STR_STAT_ON_ALT (s : Nat) : Loc := ⟨0x05402010 + 0x20 * (s % 64), 3, 1⟩
/-- [15:4], RC. -/
def SPN_STR_STAT_MOVES (s : Nat) : Loc := ⟨0x05402010 + 0x20 * (s % 64), 4, 12⟩
/-- [31:16], RC. -/
def SPN_STR_STAT_DROP (s : Nat) : Loc := ⟨0x05402010 + 0x20 * (s % 64), 16, 16⟩

/-! PCIE.STAT (16_spine_host_service.md, R427) -/
/-- [2:0], RO. -/
def PCIE_STAT_SPEED : Loc := ⟨0x05410000, 0, 3⟩
/-- [5:3], RO. -/
def PCIE_STAT_WIDTH : Loc := ⟨0x05410000, 3, 3⟩
/-- [6], RO. -/
def PCIE_STAT_LINK : Loc := ⟨0x05410000, 6, 1⟩
/-- [8:7], RO. -/
def PCIE_STAT_DSTATE : Loc := ⟨0x05410000, 7, 2⟩
/-- [9], RO. -/
def PCIE_STAT_MSIX_EN : Loc := ⟨0x05410000, 9, 1⟩

/-! PCIE.CFG (16_spine_host_service.md, R427) -/
/-- [0], RW. -/
def PCIE_CFG_WAKE_EN : Loc := ⟨0x05410004, 0, 1⟩

/-! PCIE.CNT (16_spine_host_service.md, R427) -/
/-- [15:0], RC. -/
def PCIE_CNT_HOTRST : Loc := ⟨0x05410008, 0, 16⟩
/-- [31:16], RC. -/
def PCIE_CNT_LINKDOWN : Loc := ⟨0x05410008, 16, 16⟩

/-! PCIE.PEND (16_spine_host_service.md, R427) -/
/-- [63:0], RO. -/
def PCIE_PEND_PEND : Loc := ⟨0x05410010, 0, 64⟩

/-! The MSI-X table and its pending bits (16_spine_host_service.md, R419), as PCI Express Base lays them out. -/
/-- Message address [31:2] of vector `k`. -/
def MSIX_ADDR (k : Nat) : Loc := ⟨0x05418000 + 0x10 * (k % 64), 2, 30⟩
/-- Upper message address. -/
def MSIX_ADDR_HI (k : Nat) : Loc := ⟨0x05418004 + 0x10 * (k % 64), 0, 32⟩
/-- Message data. -/
def MSIX_DATA (k : Nat) : Loc := ⟨0x05418008 + 0x10 * (k % 64), 0, 32⟩
/-- Mask bit of vector `k`. -/
def MSIX_MASK (k : Nat) : Loc := ⟨0x0541800C + 0x10 * (k % 64), 0, 1⟩
/-- Pending bits. -/
def MSIX_PBA : Loc := ⟨0x05419000, 0, 64⟩

/-! SVC.STAT (16_spine_host_service.md, R427) -/
/-- [1:0], RO. -/
def SVC_STAT_STATE : Loc := ⟨0x05420000, 0, 2⟩
/-- [2], RO. -/
def SVC_STAT_SUSPEND : Loc := ⟨0x05420000, 2, 1⟩
/-- [3], RO. -/
def SVC_STAT_HS : Loc := ⟨0x05420000, 3, 1⟩
/-- [10:4], RO. -/
def SVC_STAT_ADDR : Loc := ⟨0x05420000, 4, 7⟩
/-- [11], RO. -/
def SVC_STAT_RAMORNY : Loc := ⟨0x05420000, 11, 1⟩

/-! SVC.DBG (16_spine_host_service.md, R427) -/
/-- [2:0], RO. -/
def SVC_DBG_LC : Loc := ⟨0x05420004, 0, 3⟩
/-- [3], RO. -/
def SVC_DBG_UNLOCKED : Loc := ⟨0x05420004, 3, 1⟩
/-- [8:4], RO. -/
def SVC_DBG_SLOT : Loc := ⟨0x05420004, 4, 5⟩
/-- [9], WO. -/
def SVC_DBG_RELOCK : Loc := ⟨0x05420004, 9, 1⟩

/-! SVC.DFU_NEXT (16_spine_host_service.md, R427) -/
/-- [15:0], RO. -/
def SVC_DFU_NEXT_BLOCK : Loc := ⟨0x05420008, 0, 16⟩

/-! SVC.CHAL (16_spine_host_service.md, R427) -/
/-- [63:0], RO. -/
def SVC_CHAL_CHAL : Loc := ⟨0x05420010, 0, 64⟩

/-! VIT.STAT (17_vitrine_security.md, R451) -/
/-- [2:0], RO. -/
def VIT_STAT_LC : Loc := ⟨0x05300000, 0, 3⟩
/-- [3], RO. -/
def VIT_STAT_LC_PEND : Loc := ⟨0x05300000, 3, 1⟩
/-- [4], RO. -/
def VIT_STAT_CR : Loc := ⟨0x05300000, 4, 1⟩
/-- [10:5], RO. -/
def VIT_STAT_NUNUSABLE : Loc := ⟨0x05300000, 5, 6⟩

/-! VIT.KCMD (17_vitrine_security.md, R451) -/
/-- [3:0], WO. -/
def VIT_KCMD_CMD : Loc := ⟨0x05300004, 0, 4⟩
/-- [15:8], WO. -/
def VIT_KCMD_SLOT : Loc := ⟨0x05300004, 8, 8⟩
/-- [23:16], WO. -/
def VIT_KCMD_ARG : Loc := ⟨0x05300004, 16, 8⟩

/-! VIT.KSTAT (17_vitrine_security.md, R451) -/
/-- [1:0], RO. -/
def VIT_KSTAT_STATE : Loc := ⟨0x05300008, 0, 2⟩
/-- [5:2], RO. -/
def VIT_KSTAT_RESULT : Loc := ⟨0x05300008, 2, 4⟩

/-! VIT.KSRC (17_vitrine_security.md, R451) -/
/-- [25:0], RW. -/
def VIT_KSRC_OFFSET : Loc := ⟨0x0530000C, 0, 26⟩

/-! VIT.KATTR (17_vitrine_security.md, R451) -/
/-- [1:0], RO. -/
def VIT_KATTR_STATE : Loc := ⟨0x05300010, 0, 2⟩
/-- [3:2], RW. -/
def VIT_KATTR_KIND : Loc := ⟨0x05300010, 2, 2⟩
/-- [10:4], RW. -/
def VIT_KATTR_USE : Loc := ⟨0x05300010, 4, 7⟩
/-- [14:11], RW. -/
def VIT_KATTR_WORLD : Loc := ⟨0x05300010, 11, 4⟩
/-- [21:15], RW. -/
def VIT_KATTR_STN : Loc := ⟨0x05300010, 15, 7⟩
/-- [26:22], RW. -/
def VIT_KATTR_LC : Loc := ⟨0x05300010, 22, 5⟩
/-- [27], RW. -/
def VIT_KATTR_PERSIST : Loc := ⟨0x05300010, 27, 1⟩
/-- [28], RW. -/
def VIT_KATTR_ONCE : Loc := ⟨0x05300010, 28, 1⟩

/-! VIT.AU_CMD (17_vitrine_security.md, R451) -/
/-- [1:0], WO. -/
def VIT_AU_CMD_OP (q : Nat) : Loc := ⟨perRequester q + 0x05300020, 0, 2⟩
/-- [11:2], WO. -/
def VIT_AU_CMD_BIND (q : Nat) : Loc := ⟨perRequester q + 0x05300020, 2, 10⟩
/-- [23:12], WO. -/
def VIT_AU_CMD_LEN (q : Nat) : Loc := ⟨perRequester q + 0x05300020, 12, 12⟩

/-! VIT.AU_STAT (17_vitrine_security.md, R451) -/
/-- [1:0], RO. -/
def VIT_AU_STAT_STATE (q : Nat) : Loc := ⟨perRequester q + 0x05300024, 0, 2⟩
/-- [5:2], RO. -/
def VIT_AU_STAT_RES (q : Nat) : Loc := ⟨perRequester q + 0x05300024, 2, 4⟩
/-- [17:6], RO. -/
def VIT_AU_STAT_OUTLEN (q : Nat) : Loc := ⟨perRequester q + 0x05300024, 6, 12⟩

/-! VIT.AU_BUF (17_vitrine_security.md, R451) -/
/-- [25:0], RW. -/
def VIT_AU_BUF_OFFSET (q : Nat) : Loc := ⟨perRequester q + 0x05300028, 0, 26⟩

/-! VIT.AU_FV (17_vitrine_security.md, R451) -/
/-- [63:0], RO. -/
def VIT_AU_FV_FV (q : Nat) : Loc := ⟨perRequester q + 0x05300030, 0, 64⟩

/-! VIT.SLOT[i], i = 0–255 (17_vitrine_security.md, R451) -/
/-- [1:0], RO. -/
def VIT_SLOT_STATE (i : Nat) : Loc := ⟨0x05301000 + 0x4 * (i % 256), 0, 2⟩
/-- [3:2], RO. -/
def VIT_SLOT_KIND (i : Nat) : Loc := ⟨0x05301000 + 0x4 * (i % 256), 2, 2⟩
/-- [10:4], RO. -/
def VIT_SLOT_USE (i : Nat) : Loc := ⟨0x05301000 + 0x4 * (i % 256), 4, 7⟩
/-- [14:11], RO. -/
def VIT_SLOT_WORLD (i : Nat) : Loc := ⟨0x05301000 + 0x4 * (i % 256), 11, 4⟩
/-- [21:15], RO. -/
def VIT_SLOT_STN (i : Nat) : Loc := ⟨0x05301000 + 0x4 * (i % 256), 15, 7⟩
/-- [26:22], RO. -/
def VIT_SLOT_LC (i : Nat) : Loc := ⟨0x05301000 + 0x4 * (i % 256), 22, 5⟩
/-- [27], RO. -/
def VIT_SLOT_PERSIST (i : Nat) : Loc := ⟨0x05301000 + 0x4 * (i % 256), 27, 1⟩
/-- [28], RO. -/
def VIT_SLOT_ONCE (i : Nat) : Loc := ⟨0x05301000 + 0x4 * (i % 256), 28, 1⟩

/-! VIT.BIND0[b], b = 0–1023 (17_vitrine_security.md, R451) -/
/-- [0], RO. -/
def VIT_BIND0_VALID (b : Nat) : Loc := ⟨0x05302000 + 0x10 * (b % 1024), 0, 1⟩
/-- [1], RO. -/
def VIT_BIND0_DIR (b : Nat) : Loc := ⟨0x05302000 + 0x10 * (b % 1024), 1, 1⟩
/-- [3:2], RO. -/
def VIT_BIND0_ALG (b : Nat) : Loc := ⟨0x05302000 + 0x10 * (b % 1024), 2, 2⟩
/-- [11:4], RO. -/
def VIT_BIND0_SLOT (b : Nat) : Loc := ⟨0x05302000 + 0x10 * (b % 1024), 4, 8⟩
/-- [15:12], RO. -/
def VIT_BIND0_MACLEN_M1 (b : Nat) : Loc := ⟨0x05302000 + 0x10 * (b % 1024), 12, 4⟩
/-- [19:16], RO. -/
def VIT_BIND0_FVLEN (b : Nat) : Loc := ⟨0x05302000 + 0x10 * (b % 1024), 16, 4⟩
/-- [26:20], RO. -/
def VIT_BIND0_OWNER (b : Nat) : Loc := ⟨0x05302000 + 0x10 * (b % 1024), 20, 7⟩

/-! VIT.BIND1[b] (17_vitrine_security.md, R451) -/
/-- [28:0], RO. -/
def VIT_BIND1_ID (b : Nat) : Loc := ⟨0x05302004 + 0x10 * (b % 1024), 0, 29⟩
/-- [29], RO. -/
def VIT_BIND1_IDE (b : Nat) : Loc := ⟨0x05302004 + 0x10 * (b % 1024), 29, 1⟩

/-! VIT.BIND2[b] (17_vitrine_security.md, R451) -/
/-- [31:0], RO. -/
def VIT_BIND2_W (b : Nat) : Loc := ⟨0x05302008 + 0x10 * (b % 1024), 0, 32⟩

/-! VAULT.STAT (17_vitrine_security.md, R451) -/
/-- [0], RO. -/
def VAULT_STAT_TAMPER : Loc := ⟨0x05601000, 0, 1⟩
/-- [1], RO. -/
def VAULT_STAT_RAMVALID : Loc := ⟨0x05601000, 1, 1⟩

/-! VAULT.TAMPER_CFG (17_vitrine_security.md, R451) -/
/-- [0], RWL. -/
def VAULT_TAMPER_CFG_EN : Loc := ⟨0x05601004, 0, 1⟩
/-- [1], RWL. -/
def VAULT_TAMPER_CFG_POL : Loc := ⟨0x05601004, 1, 1⟩
/-- [2], RWL. -/
def VAULT_TAMPER_CFG_ZERO : Loc := ⟨0x05601004, 2, 1⟩

/-! VAULT.MRAM (17_vitrine_security.md, R451) -/
/-- [15:0], RO. -/
def VAULT_MRAM_MIG : Loc := ⟨0x05601008, 0, 16⟩
/-- [25:16], RO. -/
def VAULT_MRAM_SPARES : Loc := ⟨0x05601008, 16, 10⟩

/-! VAULT.MC_CMD (17_vitrine_security.md, R451) -/
/-- [1:0], WO. -/
def VAULT_MC_CMD_CMD : Loc := ⟨0x0560100C, 0, 2⟩
/-- [7:2], WO. -/
def VAULT_MC_CMD_MC : Loc := ⟨0x0560100C, 2, 6⟩

/-! VAULT.MC_ARG (17_vitrine_security.md, R451) -/
/-- [55:0], RW. -/
def VAULT_MC_ARG_VALUE : Loc := ⟨0x05601010, 0, 56⟩

/-! VAULT.TLOG_CFG (17_vitrine_security.md, R451) -/
/-- [5:0], RO. -/
def VAULT_TLOG_CFG_APPEND : Loc := ⟨0x05601018, 0, 6⟩
/-- [6], RO. -/
def VAULT_TLOG_CFG_APP_EN : Loc := ⟨0x05601018, 6, 1⟩

/-! VAULT.TLOG_APP (17_vitrine_security.md, R451) -/
/-- [63:0], WO. -/
def VAULT_TLOG_APP_DATA : Loc := ⟨0x05601020, 0, 64⟩

/-! VAULT.MC[k], k = 0–63 (17_vitrine_security.md, R451) -/
/-- [55:0], RO. -/
def VAULT_MC_VALUE (k : Nat) : Loc := ⟨0x05601100 + 0x8 * (k % 64), 0, 56⟩
/-- [62:56], RO. -/
def VAULT_MC_OWNER (k : Nat) : Loc := ⟨0x05601100 + 0x8 * (k % 64), 56, 7⟩
/-- [63], RO. -/
def VAULT_MC_RDONLY (k : Nat) : Loc := ⟨0x05601100 + 0x8 * (k % 64), 63, 1⟩

/-! VAULT.FV[b], b = 0–1023 (17_vitrine_security.md, R451) -/
/-- [55:0], RO. -/
def VAULT_FV_VALUE (b : Nat) : Loc := ⟨0x05603000 + 0x8 * (b % 1024), 0, 56⟩
/-- [62:56], RO. -/
def VAULT_FV_OWNER (b : Nat) : Loc := ⟨0x05603000 + 0x8 * (b % 1024), 56, 7⟩
/-- [63], RO. -/
def VAULT_FV_RDONLY (b : Nat) : Loc := ⟨0x05603000 + 0x8 * (b % 1024), 63, 1⟩

/-! Tamper-log entry j, j = 0–4095 (17_vitrine_security.md, R451) -/
/-- [31:0], word w. -/
def VAULT_TLOG_W (j w : Nat) : Loc := ⟨0x05681000 + 0x20 * (j % 4096) + 4 * (w % 8), 0, 32⟩

/-! UPD.CTRL (18_update_recovery.md, R472) -/
/-- [3:0], WO. -/
def UPD_CTRL_CMD : Loc := ⟨0x05700000, 0, 4⟩
/-- [11:4], WO. -/
def UPD_CTRL_ARG : Loc := ⟨0x05700000, 4, 8⟩

/-! UPD.STAT (18_update_recovery.md, R472) -/
/-- [2:0], RO. -/
def UPD_STAT_STATE : Loc := ⟨0x05700004, 0, 3⟩
/-- [3], RO. -/
def UPD_STAT_PREP : Loc := ⟨0x05700004, 3, 1⟩
/-- [4], RO. -/
def UPD_STAT_BUSY : Loc := ⟨0x05700004, 4, 1⟩
/-- [5], W1C. -/
def UPD_STAT_CMDERR : Loc := ⟨0x05700004, 5, 1⟩
/-- [9:6], RO. -/
def UPD_STAT_RESULT : Loc := ⟨0x05700004, 6, 4⟩
/-- [13:10], RO. -/
def UPD_STAT_TRIES : Loc := ⟨0x05700004, 10, 4⟩
/-- [14], RO. -/
def UPD_STAT_IMAGO : Loc := ⟨0x05700004, 14, 1⟩
/-- [15], RO. -/
def UPD_STAT_IMAGO_VALID : Loc := ⟨0x05700004, 15, 1⟩
/-- [16], RO. -/
def UPD_STAT_RAMORNY : Loc := ⟨0x05700004, 16, 1⟩

/-! UPD.SRC (18_update_recovery.md, R472) -/
/-- [25:3], RW. -/
def UPD_SRC_OFFSET : Loc := ⟨0x05700008, 3, 23⟩

/-! UPD.CFG (18_update_recovery.md, R472) -/
/-- [15:0], RWL. -/
def UPD_CFG_TRIAL_S : Loc := ⟨0x0570000C, 0, 16⟩
/-- [19:16], RWL. -/
def UPD_CFG_MAXTRY : Loc := ⟨0x0570000C, 16, 4⟩
/-- [27:20], RWL. -/
def UPD_CFG_CHRY_MS : Loc := ⟨0x0570000C, 20, 8⟩

/-! UPD.VER_IMAGO (18_update_recovery.md, R472) -/
/-- [31:0], RO. -/
def UPD_VER_IMAGO_VERSION : Loc := ⟨0x05700010, 0, 32⟩

/-! UPD.VER_STAGED (18_update_recovery.md, R472) -/
/-- [31:0], RO. -/
def UPD_VER_STAGED_VERSION : Loc := ⟨0x05700014, 0, 32⟩

/-! UPD.HO_LAT (18_update_recovery.md, R472) -/
/-- [31:0], RO. -/
def UPD_HO_LAT_US : Loc := ⟨0x05700018, 0, 32⟩

/-! UPD.MAP[0..7] (18_update_recovery.md, R472) -/
/-- [31:0], RO. -/
def UPD_MAP_BITS (k : Nat) : Loc := ⟨0x05700020 + 4 * (k % 8), 0, 32⟩

/-! UPD.FORCED[0..1] (18_update_recovery.md, R472) -/
/-- [31:0], RC. -/
def UPD_FORCED_BITS (k : Nat) : Loc := ⟨0x05700040 + 4 * (k % 2), 0, 32⟩

/-! CON.STAT (19_constellation.md, R487) -/
/-- [2:0], RO. -/
def CON_STAT_SELF : Loc := ⟨0x05800000, 0, 3⟩
/-- [3], RO. -/
def CON_STAT_MEMBER : Loc := ⟨0x05800000, 3, 1⟩
/-- [4], RO. -/
def CON_STAT_FENCED : Loc := ⟨0x05800000, 4, 1⟩
/-- [5], RO. -/
def CON_STAT_THETA_OK : Loc := ⟨0x05800000, 5, 1⟩
/-- [13:6], RO. -/
def CON_STAT_AGREED : Loc := ⟨0x05800000, 6, 8⟩

/-! CON.CFG (19_constellation.md, R487) -/
/-- [2:0], RO. -/
def CON_CFG_TREF : Loc := ⟨0x05800004, 0, 3⟩
/-- [12:3], RO. -/
def CON_CFG_PERIOD : Loc := ⟨0x05800004, 3, 10⟩

/-! CON.THR (19_constellation.md, R487) -/
/-- [30:0], RO. -/
def CON_THR_NS : Loc := ⟨0x05800008, 0, 31⟩

/-! CON.AHOR (19_constellation.md, R487) -/
/-- [26:0], RO. -/
def CON_AHOR_NS : Loc := ⟨0x0580000C, 0, 27⟩

/-! CON.THETA (19_constellation.md, R487) -/
/-- [63:0], RO. -/
def CON_THETA_NS : Loc := ⟨0x05800010, 0, 64⟩

/-! CON.DIS (19_constellation.md, R487) -/
/-- [2:0], RO. -/
def CON_DIS_I : Loc := ⟨0x05800018, 0, 3⟩
/-- [5:3], RO. -/
def CON_DIS_J : Loc := ⟨0x05800018, 3, 3⟩
/-- [8:6], RO. -/
def CON_DIS_KIND : Loc := ⟨0x05800018, 6, 3⟩
/-- [9], RO. -/
def CON_DIS_NOTICE : Loc := ⟨0x05800018, 9, 1⟩
/-- [31], W1C. -/
def CON_DIS_VALID : Loc := ⟨0x05800018, 31, 1⟩

/-! CON.DIS_T (19_constellation.md, R487) -/
/-- [31:0], RO. -/
def CON_DIS_T_NS : Loc := ⟨0x05800020, 0, 32⟩
/-- [63:32], RO. -/
def CON_DIS_T_SEC : Loc := ⟨0x05800020, 32, 32⟩

/-! CON.CD[0..7] (19_constellation.md, R487) -/
/-- [31:0], RO. -/
def CON_CD_D (k : Nat) : Loc := ⟨0x05800040 + 4 * (k % 8), 0, 32⟩

/-! CON.PEER_CFG[m], m = 0–7 (19_constellation.md, R487) -/
/-- [0], RO. -/
def CON_PEER_CFG_DECL (m : Nat) : Loc := ⟨0x05800100 + 0x10 * (m % 8), 0, 1⟩
/-- [6:1], RO. -/
def CON_PEER_CFG_STREAM (m : Nat) : Loc := ⟨0x05800100 + 0x10 * (m % 8), 1, 6⟩
/-- [9:7], RO. -/
def CON_PEER_CFG_HOPS (m : Nat) : Loc := ⟨0x05800100 + 0x10 * (m % 8), 7, 3⟩

/-! CON.PEER_STAT[m] (19_constellation.md, R487) -/
/-- [0], RO. -/
def CON_PEER_STAT_AGREED (m : Nat) : Loc := ⟨0x05800104 + 0x10 * (m % 8), 0, 1⟩
/-- [3:1], RO. -/
def CON_PEER_STAT_KIND (m : Nat) : Loc := ⟨0x05800104 + 0x10 * (m % 8), 1, 3⟩
/-- [4], RO. -/
def CON_PEER_STAT_PFENCED (m : Nat) : Loc := ⟨0x05800104 + 0x10 * (m % 8), 4, 1⟩

/-! CON.PEER_OFF[m] (19_constellation.md, R487) -/
/-- [31:0], RO. -/
def CON_PEER_OFF_NS (m : Nat) : Loc := ⟨0x05800108 + 0x10 * (m % 8), 0, 32⟩

/-! CON.PEER_CNT[m] (19_constellation.md, R487) -/
/-- [15:0], RC. -/
def CON_PEER_CNT_XDROP (m : Nat) : Loc := ⟨0x0580010C + 0x10 * (m % 8), 0, 16⟩
/-- [31:16], RC. -/
def CON_PEER_CNT_LOST (m : Nat) : Loc := ⟨0x0580010C + 0x10 * (m % 8), 16, 16⟩

/-! CON.PEER_SKIP[m], m = 0–7 (19_constellation.md, R487) -/
/-- [15:0], RC. -/
def CON_PEER_SKIP_SKIP (m : Nat) : Loc := ⟨0x05800180 + 0x4 * (m % 8), 0, 16⟩

/-! CHIP.ID (20_address_map.md, R496) -/
/-- [7:0], RO. -/
def CHIP_ID_VARIANT : Loc := ⟨0x00000000, 0, 8⟩
/-- [15:8], RO. -/
def CHIP_ID_STEP : Loc := ⟨0x00000000, 8, 8⟩
/-- [31:16], RO. -/
def CHIP_ID_PART : Loc := ⟨0x00000000, 16, 16⟩

/-! CHIP.UID (20_address_map.md, R496) -/
/-- [63:0], RO. -/
def CHIP_UID_UID : Loc := ⟨0x00000008, 0, 64⟩

/-! CHIP.READY (20_address_map.md, R496) -/
/-- [0], RO. -/
def CHIP_READY_WATCH : Loc := ⟨0x00000010, 0, 1⟩
/-- [1], RO. -/
def CHIP_READY_VAULT : Loc := ⟨0x00000010, 1, 1⟩
/-- [2], RO. -/
def CHIP_READY_CUR : Loc := ⟨0x00000010, 2, 1⟩
/-- [3], RO. -/
def CHIP_READY_LEDG : Loc := ⟨0x00000010, 3, 1⟩
/-- [4], RO. -/
def CHIP_READY_TIME : Loc := ⟨0x00000010, 4, 1⟩
/-- [5], RO. -/
def CHIP_READY_VIT : Loc := ⟨0x00000010, 5, 1⟩
/-- [6], RO. -/
def CHIP_READY_PCIE : Loc := ⟨0x00000010, 6, 1⟩
/-- [7], RO. -/
def CHIP_READY_SVC : Loc := ⟨0x00000010, 7, 1⟩
/-- [11:8], RO. -/
def CHIP_READY_HALL : Loc := ⟨0x00000010, 8, 4⟩
/-- [12], RO. -/
def CHIP_READY_IMG : Loc := ⟨0x00000010, 12, 1⟩
/-- [13], RO. -/
def CHIP_READY_CAT : Loc := ⟨0x00000010, 13, 1⟩
/-- [14], RO. -/
def CHIP_READY_MOP : Loc := ⟨0x00000010, 14, 1⟩
/-- [15], RO. -/
def CHIP_READY_GW : Loc := ⟨0x00000010, 15, 1⟩
/-- [16], RO. -/
def CHIP_READY_LINE0 : Loc := ⟨0x00000010, 16, 1⟩
/-- [17], RO. -/
def CHIP_READY_LINE1 : Loc := ⟨0x00000010, 17, 1⟩
/-- [18], RO. -/
def CHIP_READY_OBS : Loc := ⟨0x00000010, 18, 1⟩
/-- [19], RO. -/
def CHIP_READY_SPNA : Loc := ⟨0x00000010, 19, 1⟩
/-- [20], RO. -/
def CHIP_READY_SPNB : Loc := ⟨0x00000010, 20, 1⟩
/-- [21], RO. -/
def CHIP_READY_UPD : Loc := ⟨0x00000010, 21, 1⟩
/-- [22], RO. -/
def CHIP_READY_CON : Loc := ⟨0x00000010, 22, 1⟩
/-- [23], RO. -/
def CHIP_READY_RGN : Loc := ⟨0x00000010, 23, 1⟩

/-! CHIP.READY_CHG (20_address_map.md, R496) -/
/-- [23:0], W1C. -/
def CHIP_READY_CHG_CHG : Loc := ⟨0x00000014, 0, 24⟩

/-! CHIP.RGN_READY (20_address_map.md, R496) -/
/-- [15:0], RO. -/
def CHIP_RGN_READY_RGN : Loc := ⟨0x00000018, 0, 16⟩

/-! CHIP.NRACC (20_address_map.md, R496) -/
/-- [24:0], RO. -/
def CHIP_NRACC_WADDR : Loc := ⟨0x0000001C, 0, 25⟩
/-- [25], RO. -/
def CHIP_NRACC_SRC : Loc := ⟨0x0000001C, 25, 1⟩
/-- [31], W1C. -/
def CHIP_NRACC_VALID : Loc := ⟨0x0000001C, 31, 1⟩

/-! CHIP.UNMAP (20_address_map.md, R496) -/
/-- [24:0], RO. -/
def CHIP_UNMAP_WADDR : Loc := ⟨0x00000020, 0, 25⟩
/-- [25], RO. -/
def CHIP_UNMAP_SRC : Loc := ⟨0x00000020, 25, 1⟩
/-- [26], RO. -/
def CHIP_UNMAP_WRITE : Loc := ⟨0x00000020, 26, 1⟩
/-- [31], W1C. -/
def CHIP_UNMAP_VALID : Loc := ⟨0x00000020, 31, 1⟩

/-! OBS.SIGHDR[d][i] (05_line_observation.md, R153) -/
/-- [11:0], RO. -/
def OBS_SIGHDR_ENABLE (d i : Nat) : Loc := ⟨0x01900000 + 0x20000 * (d % 2) + 0x40 * (i % 2048), 0, 12⟩
/-- [19:16], RO. -/
def OBS_SIGHDR_ALLOW (d i : Nat) : Loc := ⟨0x01900000 + 0x20000 * (d % 2) + 0x40 * (i % 2048), 16, 4⟩
/-- [27:24], RO. -/
def OBS_SIGHDR_MINF (d i : Nat) : Loc := ⟨0x01900000 + 0x20000 * (d % 2) + 0x40 * (i % 2048), 24, 4⟩
/-- [30], RO. -/
def OBS_SIGHDR_CLASS (d i : Nat) : Loc := ⟨0x01900000 + 0x20000 * (d % 2) + 0x40 * (i % 2048), 30, 1⟩
/-- [31], RO. -/
def OBS_SIGHDR_VALID (d i : Nat) : Loc := ⟨0x01900000 + 0x20000 * (d % 2) + 0x40 * (i % 2048), 31, 1⟩

/-! OBS.SIGFEAT[d][i][k] (05_line_observation.md, R153) -/
/-- [15:0], RO. -/
def OBS_SIGFEAT_CENTRE (d i k : Nat) : Loc := ⟨0x01900004 + 0x20000 * (d % 2) + 0x40 * (i % 2048) + 0x4 * (k % 12), 0, 16⟩
/-- [31:16], RO. -/
def OBS_SIGFEAT_TOL (d i k : Nat) : Loc := ⟨0x01900004 + 0x20000 * (d % 2) + 0x40 * (i % 2048) + 0x4 * (k % 12), 16, 16⟩

/-! OBS.TRACE[u][j] (05_line_observation.md, R155) -/
/-- [31:0], RO. -/
def OBS_TRACE_ACC (u j : Nat) : Loc := ⟨0x01A00000 + 0x2000 * (u % 8) + 0x4 * (j % 2048), 0, 32⟩

/-! ## Single bits of wider fields -/

/-- Bit `b` of CHIP.READY (R37). -/
def readyLoc (b : Nat) : Loc := ⟨0x10, b % 32, 1⟩
/-- Bit `b` of CHIP.READY_CHG (R36). -/
def readyChgLoc (b : Nat) : Loc := ⟨0x14, b % 32, 1⟩
/-- The bit of region `r` in CHIP.RGN_READY (R37). -/
def rgnReadyLoc (r : Nat) : Loc := ⟨0x18, r % 16, 1⟩
/-- The bit of engine index `i` in WAIT of a lock. -/
def lockWaitLoc (c j i : Nat) : Loc := ⟨(CLU_LOCK_WAIT c j).addr, 8 + i % 8, 1⟩
/-- The bit of ring `k` in LEDG.EPEND. -/
def ependLoc (k : Nat) : Loc := ⟨LEDG_EPEND_PEND.addr + 4 * (k / 32 % 2), k % 32, 1⟩
/-- The bit of vector `k` in PCIE.PEND. -/
def pendLoc (k : Nat) : Loc := ⟨PCIE_PEND_PEND.addr + 4 * (k / 32 % 2), k % 32, 1⟩
/-- The bit of vector `k` in the MSI-X pending bits. -/
def pbaLoc (k : Nat) : Loc := ⟨MSIX_PBA.addr + 4 * (k / 32 % 2), k % 32, 1⟩
/-- The bit of egress queue `t` in GW.BRKW. -/
def brkwLoc (t : Nat) : Loc := ⟨(GW_BRKW_OPEN (t / 32)).addr, t % 32, 1⟩
/-- The bit of feature `k` in OBS.WP_LAST.CLIPPED. -/
def clippedLoc (n k : Nat) : Loc := ⟨(OBS_WP_LAST_CLIPPED n).addr, 10 + k % 12, 1⟩
/-- The bit of sum `k` in OBS.ENR_STAT.CLIP. -/
def clipLoc (n k : Nat) : Loc := ⟨(OBS_ENR_STAT_CLIP n).addr, 11 + k % 12, 1⟩
/-- The bit of station `st` in UPD.FORCED. -/
def forcedLoc (st : Nat) : Loc := ⟨(UPD_FORCED_BITS (st / 32)).addr, st % 32, 1⟩
/-- The bit of wire condition `b` in LP.WIRE.LIVE. -/
def wireLiveLoc (n b : Nat) : Loc := ⟨(LP_WIRE_LIVE n).addr, 8 + b % 8, 1⟩
/-- The bit of wire condition `b` in LP.WIRE.SEEN. -/
def wireSeenLoc (n b : Nat) : Loc := ⟨(LP_WIRE_SEEN n).addr, b % 8, 1⟩
/-- The bit of rail `i` in PWR.RAILS.PG. -/
def railLoc (i : Nat) : Loc := ⟨PWR_RAILS_PG.addr, i % 4, 1⟩
/-- The bit of lane `l` in SPN.STAT.LINK. -/
def linkLoc (l : Nat) : Loc := ⟨SPN_STAT_LINK.addr, l % 4, 1⟩
/-- The bit of member `m` in CON.STAT.AGREED. -/
def agreedLoc (m : Nat) : Loc := ⟨CON_STAT_AGREED.addr, CON_STAT_AGREED.lo + m % 8, 1⟩

end Sys2Proof.Machine
end

