-- ==== Sys2Proof/Machine/Ops.lean ====
section
/-! DEFINITION. The shared operations: local time, hall bytes, readiness, ledger records and fault reports. Every
family of commands is written over these. -/

namespace Sys2Proof.Machine

/-- `s` with every element of `l` folded in, left to right. -/
def State.each {α : Type} (s : State) (l : List α) (f : State → α → State) : State := l.foldl f s

/-- `f s` when `b` holds, else `s`. -/
def State.when (s : State) (b : Bool) (f : State → State) : State := if b then f s else s

/-! ## Time (R322, R323, R325) -/

/-- Local time in whole nanoseconds since the origin, NSO (R322). -/
def State.now (s : State) : Nat := s.time.ns

/-- Timebase ticks of 2 ns since power-on; no step and no INC change alters them (R323). -/
def State.ticks (s : State) : Nat := s.time.ticks

/-- NS of an instant. -/
def nsOf (t : Nat) : Nat := t % 1000000000

/-- SEC of an instant. -/
def secOf (t : Nat) : Nat := t / 1000000000

/-- The instant a 64-bit NS and SEC[31:0] register pair holds, as a 64-bit value (low word NS). -/
def stampWord (t : Nat) : Nat := nsOf t + (secOf t % 2 ^ 32) * 2 ^ 32

/-- Write an instant into a register of two words, NS in the low and SEC[31:0] in the high one. -/
def State.setStamp (s : State) (a : Nat) (t : Nat) : State := s.setWord64 a (BitVec.ofNat 64 (stampWord t))

/-- (b − a) mod 2^32 of the low 32 bits of NSO, as a signed number (R325). -/
def signedDiff32 (a b : Nat) : Int :=
  let d : Nat := (b + 2 ^ 32 - a % 2 ^ 32) % 2 ^ 32
  if d < 2 ^ 31 then (d : Int) else (d : Int) - 2 ^ 32

/-- A target is due at an instant when the signed difference is 0 or less (R325). -/
def dueAt (now target : Nat) : Bool := signedDiff32 now target ≤ 0

/-- The timebase ticks in `us` microseconds. -/
def ticksOfUs (us : Nat) : Nat := us * 500

/-- The timebase ticks in `ms` milliseconds. -/
def ticksOfMs (ms : Nat) : Nat := ms * 500000

/-! ## Hall bytes (R4, R300) -/

/-- A byte no command has written reads 0: halls are cleared after power-on (R310, R311). -/
def memDefault (_ : Nat) : Byte := 0

/-- The byte at a hall offset. -/
def State.byte (s : State) (a : Nat) : Byte := smapFind memDefault s.mem a

/-- `s` with the byte at a hall offset set. -/
def State.setByte (s : State) (a : Nat) (b : Byte) : State := { s with mem := smapPut memDefault s.mem a b }

/-- `n` bytes from a hall offset on. -/
def State.bytes (s : State) (a n : Nat) : List Byte := (List.range n).map fun i => s.byte (a + i)

/-- `s` with bytes stored from a hall offset on. -/
def State.setBytes (s : State) (a : Nat) : List Byte → State
  | [] => s
  | b :: bs => (s.setByte a b).setBytes (a + 1) bs

/-- The number that bytes spell, least significant byte first (R4). -/
def leNat : List Byte → Nat
  | [] => 0
  | b :: bs => b.toNat + 256 * leNat bs

/-- `n` bytes of a number, least significant byte first (R4). -/
def leBytes : Nat → Nat → List Byte
  | 0, _ => []
  | n + 1, v => BitVec.ofNat 8 v :: leBytes n (v / 256)

/-- The number that bytes spell, most significant byte first (R4, wire formats). -/
def beNat (bs : List Byte) : Nat := leNat bs.reverse

/-- `n` bytes of a number, most significant byte first. -/
def beBytes (n v : Nat) : List Byte := (leBytes n v).reverse

/-- The little-endian 32-bit word at a hall offset. -/
def State.memWord (s : State) (a : Nat) : Word := BitVec.ofNat 32 (leNat (s.bytes a 4))

/-- Store a little-endian 32-bit word. -/
def State.setMemWord (s : State) (a : Nat) (w : Word) : State := s.setBytes a (leBytes 4 w.toNat)

/-- The canonical form of the hall bytes. -/
def Memory.wf (m : List Host.Cell) : Bool := smapWf memDefault m

/-! ## Readiness (R31 to R37) -/

/-- The function of CHIP.READY bit `b` is usable. -/
def State.ready (s : State) (b : Nat) : Bool := s.get (readyLoc b) = 1

/-- The readiness bit of the Line die of a port (R15, R37). -/
def lineBit (n : Nat) : Nat := if n < 64 then 16 else 17

/-- The Line die of a port. -/
def dieOf (n : Nat) : Nat := n / 64

/-! ## Ledger records (R344 to R353) -/

/-- Sources 1797 and 1824 are the level sources (R36, R344, R368). -/
def isLevelSource (src : Nat) : Bool := src == 1797 || src == 1824

/-- The place of a record in its ring's order: creation tick, then EVENT by source, then COMPLETION by pool (R352). -/
def recKey (r : LedRec) : Nat × Nat × Nat :=
  match r.body with
  | .event src _ _ => (r.tick, 0, src)
  | .completion _ _ _ _ _ _ _ _ _ pool _ => (r.tick, 1, pool)

/-- Order of record keys. -/
def keyLe (a b : Nat × Nat × Nat) : Bool :=
  a.1 < b.1 || (a.1 == b.1 && (a.2.1 < b.2.1 || (a.2.1 == b.2.1 && a.2.2 ≤ b.2.2)))

/-- Put a record behind every record that is not after it. -/
def insertRec (r : LedRec) : List LedRec → List LedRec
  | [] => [r]
  | x :: xs => if keyLe (recKey x) (recKey r) then x :: insertRec r xs else r :: x :: xs

/-- Records in the staging store. -/
def Ledger.stagedCount (l : Ledger) : Nat := (l.queue.filter (·.staged)).length

/-- The hidden half of a ring. -/
def State.ringHid (s : State) (k : Nat) : RingHid := smapFind (fun _ => {}) s.led.rings k

/-- Set the hidden half of a ring. -/
def State.setRingHid (s : State) (k : Nat) (h : RingHid) : State :=
  { s with led := { s.led with rings := smapPut (fun _ => {}) s.led.rings k h } }

/-- Set the waiting records, and LEDG.STAT.STAGED with them. -/
def State.setQueue (s : State) (q : List LedRec) : State :=
  let s := { s with led := { s.led with queue := q } }
  s.set LEDG_STAT_STAGED s.led.stagedCount

/-- A fault report enters the curator's inbox with the detection timestamp (R361). -/
def State.reportFrom (s : State) (src kind addr master acc : Nat) : State :=
  { s with cur := { s.cur with
      inbox := s.cur.inbox ++ [{ src, kind, nso := s.now, tick := s.ticks, addr, master, acc }] } }

/-- A fault report that no access caused: address 0, master 2047, access type 0 (R365). -/
def State.report (s : State) (src kind : Nat) : State := s.reportFrom src kind 0 2047 0

/-- A fault condition starts: it is live from now on, and reported (R361). -/
def State.startCond (s : State) (src kind : Nat) : State :=
  if s.cur.live.contains (src, kind) then s
  else { s with cur := { s.cur with live := s.cur.live ++ [(src, kind)] } }.report src kind

/-- An occurrence of a fault condition: the condition is live from now on, and the occurrence is reported (R361). -/
def State.occur (s : State) (src kind : Nat) : State :=
  if s.cur.live.contains (src, kind) then s.report src kind else s.startCond src kind

/-- A fault condition ends. The entry's LIVE bit follows at FAULT_CONDITION_END (R367). -/
def State.endCond (s : State) (src kind : Nat) : State :=
  { s with cur := { s.cur with live := s.cur.live.filter (· != (src, kind)) } }

/-- A created record goes to wait for its ring: discarded and counted for a ring with EN 0, lost and counted when it
needs the staging store and the store is full (R353). -/
def State.enqueue (s : State) (r : LedRec) : State :=
  if !s.flag (LEDG_RING_CFG_EN r.ring) then s.inc LEDG_LOSTCNT_NORING
  else if r.staged && decide (8192 ≤ s.led.stagedCount) then
    let h := s.ringHid r.ring
    let s := s.setRingHid r.ring
      { h with lost := min (h.lost + 1) 65535, lostNso := if h.lost = 0 then r.nso else h.lostNso }
    ((s.inc LEDG_LOSTCNT_STAGING).inc (LEDG_RING_STAT_LOST r.ring)).report 1803 0x30
  else s.setQueue (insertRec r s.led.queue)

/-- Create the EVENT record of a source with a creation time of its own. -/
def State.createEventAt (s : State) (src count detail nso : Nat) (staged : Bool) : State :=
  s.enqueue { tick := s.ticks, nso, ring := s.get (LEDG_SRC_RING src), staged,
              body := .event src count (detail % 2 ^ 32) }

/-- Create the EVENT record of a source now. -/
def State.createEvent (s : State) (src count detail : Nat) (staged : Bool) : State :=
  s.createEventAt src count detail s.now staged

/-- Add one raise to the COUNT of a LATCH source's undelivered record (R345). -/
def bumpCount (src : Nat) (r : LedRec) : LedRec :=
  match r.body with
  | .event s' c d => if s' = src then { r with body := .event s' (min (c + 1) 255) d } else r
  | _ => r

/-- The package is in A2, A3 or Off: the ledger creates no record (R357). -/
def State.asleep (s : State) : Bool := s.pwr.state = .a2 || s.pwr.state = .a3 || s.pwr.state = .off

/-- A wake-capable source and detail: WAKE causes of wake-watched ports, 1825, 1826 and 1827 (R357). -/
def State.wakeCapable (s : State) (src detail : Nat) : Bool :=
  (src < 512 && src % 4 == 0 && detail % 256 == 6 && s.flag (LP_CFG_WATCH (src / 4)))
    || src == 1825 || src == 1826 || src == 1827

/-- Put a latched source in ascending source order; a source latched already keeps its first detection. -/
def insertWake (w : Nat × Nat × Nat) : List (Nat × Nat × Nat) → List (Nat × Nat × Nat)
  | [] => [w]
  | x :: xs => if x.1 < w.1 then x :: insertWake w xs else if x.1 = w.1 then x :: xs else w :: x :: xs

/-- The instant of a detection in A2 and A3, where local time stands still: the vault time, when it is valid, as local
time takes it (R330, R357). -/
def State.detected (s : State) : Nat :=
  if s.flag TIME_VT_VALID then s.get TIME_VT_SEC * 1000000000 + s.get TIME_VT_FRAC * 1000000000 / 2 ^ 15 else s.now

/-- Latch a wake-capable source in the watch domain (R357). -/
def State.latchWake (s : State) (src detail : Nat) : State :=
  if s.wakeCapable src detail then
    { s with led := { s.led with wakes := insertWake (src, s.detected, detail) s.led.wakes } }
  else s

/-- The state of a LATCH or LEVEL source after its record is created: PENDING, or still IDLE when the record was
discarded for want of a ring. -/
def State.pendingState (s : State) (src : Nat) : Nat :=
  if s.flag (LEDG_RING_CFG_EN (s.get (LEDG_SRC_RING src))) then 1 else 0

/-- A raise of a LATCH source, by its state (R345). -/
def State.raiseLatch (s : State) (src detail : Nat) : State :=
  match s.get (LEDG_SRC_STATE src) with
  | 0 => (s.createEvent src 1 detail false).set (LEDG_SRC_STATE src) (s.pendingState src)
  | 1 => s.setQueue (s.led.queue.map (bumpCount src))
  | 2 => { s with led := { s.led with latched := smapInsert s.led.latched src (1, detail, s.now) } }.set
           (LEDG_SRC_STATE src) 3
  | _ =>
    let (c, d, t) := smapFind (fun _ => (0, detail, s.now)) s.led.latched src
    { s with led := { s.led with latched := smapInsert s.led.latched src (min (c + 1) 255, d, t) } }

/-- Raise a source with a detail word (R344): EACH creates a record at every raise, any other mode of a source that is
not a level source acts as LATCH, EN 0 creates none; in A2, A3 and Off only the watch latches it (R357). -/
def State.raise (s : State) (src detail : Nat) : State :=
  if s.asleep then s.latchWake src detail
  else if src ≥ 2047 || isLevelSource src || !s.flag (LEDG_SRC_EN src) then s
  else if s.get (LEDG_SRC_SENSE src) = 0 then s.createEvent src 1 detail true
  else s.raiseLatch src detail

/-- Create the record of an asserted LEVEL source in IDLE (R344, R345). -/
def State.levelRecord (s : State) (src : Nat) : State :=
  if s.flag (LEDG_SRC_EN src) && !s.asleep then
    match s.get (LEDG_SRC_STATE src) with
    | 0 => (s.createEvent src 1 0 false).set (LEDG_SRC_STATE src) (s.pendingState src)
    | 2 => s.set (LEDG_SRC_STATE src) 3
    | _ => s
  else s

/-- A level source asserts (R345). -/
def State.assertLevel (s : State) (src : Nat) : State :=
  if s.flag (LEDG_SRC_LIVE src) then s else (s.put (LEDG_SRC_LIVE src) true).levelRecord src

/-- A level source deasserts; a record not yet delivered is delivered withdrawn (R346). -/
def State.deassertLevel (s : State) (src : Nat) : State := s.put (LEDG_SRC_LIVE src) false

/-- Make a level source follow its condition. -/
def State.level (s : State) (src : Nat) (on : Bool) : State :=
  if on then s.assertLevel src else s.deassertLevel src

/-- Raise a source at most once per millisecond of the timebase (R515). `key` names the rate-limited source. -/
def State.raiseOncePerMs (s : State) (key src detail : Nat) : State :=
  match s.led.rate.lookup key with
  | some h =>
    if s.ticks < h.start + 500000 then s
    else { s with led := { s.led with rate := (key, { start := s.ticks }) :: s.led.rate.filter (·.1 != key) } }.raise
           src detail
  | none => { s with led := { s.led with rate := (key, { start := s.ticks }) :: s.led.rate } }.raise src detail

/-- An interval of 1 ms that is over closes: a source that carries a count is raised with it (R515). Keys from 4096 on
stand for observation cause 0x0B of a port, whose count lies in bytes 2 and 3 (R151). -/
def State.closeRate (s : State) (key : Nat) : State :=
  match s.led.rate.lookup key with
  | some h =>
    if h.start + 500000 ≤ s.ticks then
      let s := { s with led := { s.led with rate := s.led.rate.filter (·.1 != key) } }
      if h.count = 0 then s else s.raise h.src (if 4096 ≤ key then h.detail + h.count * 65536 else h.count)
    else s
  | none => s

/-- Count a happening of a count-carrying source in its millisecond, which begins with the first one (R515). -/
def State.countPerMs (s : State) (key src detail : Nat) : State :=
  let s := s.closeRate key
  match s.led.rate.lookup key with
  | some h =>
    { s with led := { s.led with
        rate := (key, { h with count := min (h.count + 1) 65535 }) :: s.led.rate.filter (·.1 != key) } }
  | none => { s with led := { s.led with rate := (key, { start := s.ticks, count := 1, src, detail }) :: s.led.rate } }

/-- A die link: 0 and 1 the Line dies, 2 the Spine die. -/
def State.link (s : State) (d : Nat) : DieLink := smapFind (fun _ => {}) s.links d

/-- Source 1824 is asserted while any bit of CHIP.READY_CHG is 1 (R36). -/
def State.readyLevel (s : State) : State := s.level 1824 (s.get CHIP_READY_CHG_CHG != 0)

/-- Give a readiness bit a value; a change sets its bit of CHIP.READY_CHG and source 1824 follows (R33, R36). -/
def State.setReady (s : State) (b : Nat) (v : Bool) : State :=
  if s.ready b = v then s
  else (((s.put (readyLoc b) v).put (readyChgLoc b) true)).readyLevel

/-- CHIP.NRACC records the first access refused under R34. -/
def State.recordNracc (s : State) (off : Nat) (q : Requester) : State :=
  if s.flag CHIP_NRACC_VALID then s
  else ((s.set CHIP_NRACC_WADDR (off / 4 % 2 ^ 25)).put CHIP_NRACC_SRC (q != .host)).put CHIP_NRACC_VALID true

/-- CHIP.UNMAP records the first access to an undecoded offset (R491). -/
def State.recordUnmap (s : State) (off : Nat) (q : Requester) (write : Bool) : State :=
  if s.flag CHIP_UNMAP_VALID then s
  else (((s.set CHIP_UNMAP_WADDR (off / 4 % 2 ^ 25)).put CHIP_UNMAP_SRC (q != .host)).put CHIP_UNMAP_WRITE write).put
    CHIP_UNMAP_VALID true

end Sys2Proof.Machine
end

