-- ==== Sys2Proof/Machine/Access.lean ====
section
/-! DEFINITION. Register accesses by requester: engine traps, the checks of R492 that come before a block's own rules,
and the shape of a command that is a register write. -/

namespace Sys2Proof.Machine

/-! ## Engines and their CSRs (R271, R278) -/

/-- The CSRs that do not reset to 0: misa (R271). -/
def csrReset (c : Nat) : Word := if c = 0x301 then 0x40901105 else 0

/-- The hidden half of an engine. -/
def State.engine (s : State) (e : Nat) : Engine := smapFind (fun _ => {}) s.cores.engines e

/-- Set the hidden half of an engine. -/
def State.setEngine (s : State) (e : Nat) (v : Engine) : State :=
  { s with cores := { s.cores with engines := smapPut (fun _ => {}) s.cores.engines e v } }

/-- Change the hidden half of an engine. -/
def State.modEngine (s : State) (e : Nat) (f : Engine → Engine) : State := s.setEngine e (f (s.engine e))

/-- A CSR of an engine. -/
def Engine.getCsr (v : Engine) (c : Nat) : Word := smapFind csrReset v.csr c

/-- Set a CSR of an engine. -/
def Engine.setCsr (v : Engine) (c : Nat) (w : Word) : Engine := { v with csr := smapPut csrReset v.csr c w }

/-- Register x`r`; x0 reads 0. -/
def Engine.getX (v : Engine) (r : Nat) : Word := if r = 0 then 0 else smapFind (fun _ => 0) v.x r

/-- Set register x`r`; a write of x0 is discarded. -/
def Engine.setX (v : Engine) (r : Nat) (w : Word) : Engine :=
  if r = 0 then v else { v with x := smapPut (fun _ => 0) v.x r w }

/-- Counter `k` of mcycle, minstret and mhpmcounter3 to 6 takes `n` more, of 64 bits, unless mcountinhibit stops it
(R271). -/
def Engine.countBy (v : Engine) (k n : Nat) : Engine :=
  if (v.getCsr 0x320).getLsbD k then v
  else
    let c : BitVec 64 := (v.getCsr (0xB80 + k) ++ v.getCsr (0xB00 + k)) + BitVec.ofNat 64 n
    (v.setCsr (0xB00 + k) (c.setWidth 32)).setCsr (0xB80 + k) (c.extractLsb' 32 32)

/-- One more on a counter. -/
def Engine.count (v : Engine) (k : Nat) : Engine := v.countBy k 1

/-- XFST. -/
def csrXFST : Nat := 0x800
/-- mstatus. -/
def csrMstatus : Nat := 0x300
/-- mtvec. -/
def csrMtvec : Nat := 0x305
/-- mepc. -/
def csrMepc : Nat := 0x341
/-- mcause. -/
def csrMcause : Nat := 0x342
/-- mtval. -/
def csrMtval : Nat := 0x343

/-- PACT takes ACTIVE, and ACTIVE becomes 0 (R281). -/
def Engine.suspendXf (v : Engine) : Engine :=
  let w := v.getCsr csrXFST
  v.setCsr csrXFST (putBits (putBits w 1 1 (bitsOf w 0 1)) 0 1 0)

/-- mstatus on a trap: MPIE takes MIE, MIE 0, MPP the mode (Privileged ISA). -/
def trapStatus (m : Word) (user : Bool) : Word :=
  putBits (putBits (putBits m 7 1 (bitsOf m 3 1)) 3 1 0) 11 2 (if user then 0 else 3)

/-- ENG[e].STAT.XACTIVE follows ACTIVE and PACT. -/
def State.xactive (s : State) (e : Nat) : State :=
  s.put (ENG_STAT_XACTIVE e) (bitsOf ((s.engine e).getCsr csrXFST) 0 2 != 0)

/-- A trap of an engine into M-mode (R271, R281): the Xfly state is suspended, mepc holds the pc, mcause and mtval the
cause and value, and ENG[e].TRAP and TVAL record them. -/
def State.trap (s : State) (e cause : Nat) (tval : Word) (intr : Bool) : State :=
  let v := s.engine e
  let tv := v.getCsr csrMtvec
  let base := putBits tv 0 2 0
  let target := if intr && bitsOf tv 0 2 = 1 then base + BitVec.ofNat 32 (4 * cause) else base
  let w := v.suspendXf
  let w := w.setCsr csrMepc v.pc
  let w := w.setCsr csrMcause (BitVec.ofNat 32 (cause + if intr then 2 ^ 31 else 0))
  let w := w.setCsr csrMtval tval
  let w := w.setCsr csrMstatus (trapStatus (v.getCsr csrMstatus) v.user)
  let s := s.setEngine e { w with pc := target, user := false }
  let s := ((s.set (ENG_TRAP_CAUSE e) cause).put (ENG_TRAP_INTR e) intr).set (ENG_TVAL_VAL e) tval.toNat
  s.xactive e

/-- An engine's access fault: load 5, store 7, with mtval the address (R271, R274). -/
def State.accessTrap (s : State) (e addr : Nat) (write : Bool) : State :=
  { s.trap e (if write then 7 else 5) (BitVec.ofNat 32 addr) false with resp := some .fault }

/-- The engine address of a register offset (R488). -/
def deviceAddr (off : Nat) : Nat := 0x20000000 + off

/-- The first register offset of an engine's own CLU window. -/
def ownClu (e : Nat) : Nat := 0x4010000 + 0x100000 * (e / 64) + 0x1000 * (e / 8 % 8)

/-- The first register offset of an engine's own ENG window. -/
def ownEng (e : Nat) : Nat := 0x4020000 + 0x100000 * (e / 64) + 0x100 * (e % 64)

/-- The second address of a register of an engine's own cluster, or of the engine itself (R272). -/
def aliasAddr (e off : Nat) : Option Nat :=
  if ownClu e ≤ off && off < ownClu e + 0x1000 then some (0x12000000 + (off - ownClu e))
  else if ownEng e ≤ off && off < ownEng e + 0x100 then some (0x12010000 + (off - ownEng e))
  else none

/-! ## Physical memory protection (R275) -/

/-- The configuration byte of a PMP entry. -/
def Engine.pmpCfg (v : Engine) (i : Nat) : Nat := bitsOf (v.getCsr (0x3A0 + i / 4)) (8 * (i % 4)) 8

/-- The byte range of a PMP entry: TOR with a 64-byte grain, or NAPOT of 64 bytes or more. -/
def Engine.pmpRange (v : Engine) (i : Nat) : Option (Nat × Nat) :=
  let a := (v.getCsr (0x3B0 + i)).toNat
  match v.pmpCfg i / 8 % 4 with
  | 1 => some (if i = 0 then 0 else (v.getCsr (0x3B0 + i - 1)).toNat / 16 * 64, a / 16 * 64)
  | 3 =>
    let a := a ||| 7
    let ones := ((List.range 33).takeWhile fun k => a.testBit k).length
    let size := 2 ^ (ones + 3)
    some (a * 4 / size * size, a * 4 / size * size + size)
  | _ => none

/-- The permission bits R 1, W 2, X 4 that a matching entry gives in a mode (Smepmp). -/
def pmpPerm (cfg : Nat) (mml user : Bool) : Nat :=
  let rwx := cfg % 8
  let l := cfg.testBit 7
  if !mml then (if user || l then rwx else 7)
  else if rwx % 4 = 2 then
    if l then (if user then 4 else if rwx.testBit 2 then 5 else 4)
    else if user then (if rwx.testBit 2 then 3 else 1) else 3
  else if l && rwx = 7 then 1
  else if l = user then 0 else rwx

/-- PMP lets the access pass: `need` holds the permission bits it needs. -/
def Engine.pmpOk (v : Engine) (a n need : Nat) : Bool :=
  let sec := (v.getCsr 0x747).toNat
  let m := (v.getCsr csrMstatus)
  let user := if need != 4 && bitsOf m 17 1 = 1 then bitsOf m 11 2 = 0 else v.user
  match (List.range 16).find? fun i =>
      match v.pmpRange i with
      | some (lo, hi) => a < hi && lo < a + n
      | none => false with
  | some i =>
    match v.pmpRange i with
    | some (lo, hi) => lo ≤ a && a + n ≤ hi && (pmpPerm (v.pmpCfg i) (sec.testBit 0) user &&& need) == need
    | none => false
  | none => !user && !sec.testBit 1 && !(sec.testBit 0 && need == 4)

/-! ## Guards (R34, R274, R276, R492) -/

/-- PMP lets an engine reach a register, at its device address or at its second address (R274, check 3). -/
def State.regPmp (s : State) (e off : Nat) (write : Bool) : Bool :=
  let ok := fun a => (s.engine e).pmpOk a 4 (if write then 2 else 1)
  ok (deviceAddr off) || (match aliasAddr e off with
    | some a => ok a
    | none => false)

/-- The access is answered with no data. -/
def State.answerDone (s : State) : State := { s with resp := some .done }

/-- The access is answered with a word. -/
def State.answer (s : State) (w : Nat) : State := { s with resp := some (.data w) }

/-- The package is in END: only identification reads respond (R12). -/
def State.ended (s : State) : Bool := s.get VIT_STAT_LC = 4

/-- A register access whose width and decoding are right: an engine that PMP stops (R274), or whose blocks do not include
the register, takes an access fault (R276); a function that is not ready changes no state, and CHIP.NRACC records the
access (R34); else the block's own rules apply. -/
def State.access (s : State) (q : Requester) (off : Nat) (engOpen rdy write : Bool) (f : State → State) : State :=
  match q with
  | .host =>
    if s.ended then (if write then s.answerDone else s.answer 0)
    else if rdy then f s
    else
      let s := s.recordNracc off q
      if write then s.answerDone else s.answer 0
  | .engine e =>
    if !s.regPmp e.val off write || !engOpen || s.ended then s.accessTrap e.val (deviceAddr off) write
    else if rdy then f s
    else (s.recordNracc off q).accessTrap e.val (deviceAddr off) write

/-- A write command of a register that only the host may write (R276). -/
def State.hostWrite (s : State) (q : Requester) (off : Nat) (rdy : Bool) (f : State → State) : State :=
  s.access q off false rdy true fun s => f s.answerDone

/-- A write command of a register that the block opens to engines. -/
def State.openWrite (s : State) (q : Requester) (off : Nat) (rdy : Bool) (f : State → State) : State :=
  s.access q off true rdy true fun s => f s.answerDone

end Sys2Proof.Machine
end

