-- ==== Sys2Proof/Machine/Flags.lean ====
section
/-! DEFINITION. Values computed from frames and bytes: samples and bit values, arbitration keys, length rules, formats
by mode, frame durations, driver energy and the CRC-32 of images. -/

namespace Sys2Proof.Machine

/-! ## Sampling (R99) -/

/-- The value of a bit is the majority of its three samples; `true` is recessive (R99). -/
def majority (a b c : Bool) : Bool := (a && b) || (a && c) || (b && c)

/-- An edge is seen at the first of two consecutive samples that both differ from the value before them (R99). -/
def edgeSeen (before a b : Bool) : Bool := a != before && b != before

/-! ## Formats (R100, R162, R174) -/

/-- Frame format codes of descriptors (R161). -/
def fmtCC : Nat := 0
/-- CAN FD. -/
def fmtFD : Nat := 1
/-- CAN XL. -/
def fmtXL : Nat := 2
/-- Ethernet. -/
def fmtEth : Nat := 3

/-- A CAN-family mode code (R66). -/
def isCanMode (mode : Nat) : Bool := 1 ≤ mode && mode ≤ 5

/-- The port mode carries the frame format (R100). -/
def carries (mode : Nat) (fdInXl : Bool) (fmt : Nat) : Bool :=
  match mode with
  | 1 => fmt == 0
  | 2 => fmt ≤ 1
  | 3 => fmt ≤ 1
  | 4 => fmt == 0 || fmt == 2 || (fmt == 1 && fdInXl)
  | 5 => fmt == 0 || fmt == 2 || (fmt == 1 && fdInXl)
  | 6 => fmt == 3
  | _ => false

/-- A CAN FD data length (R162). -/
def fdLength (len : Nat) : Bool := len ≤ 8 || [12, 16, 20, 24, 32, 48, 64].contains len

/-- The fields of a frame lie within the table "Length rules" (R162). -/
def lengthRules (f : Frame) : Bool :=
  match f.fmt with
  | 0 => f.len ≤ 8
  | 1 => fdLength f.len && !f.rmt
  | 2 => 1 ≤ f.len && f.len ≤ 2048 && !f.rmt && !f.ide
  | 3 => 60 ≤ f.len && f.len ≤ 1518 && f.id == 0 && !f.ide && !f.rmt && !f.brs && f.sdt == 0 && !f.sec
           && f.vcid == 0 && f.af == 0
  | _ => false

/-- A frame needs a LARGE buffer above 64 bytes (R159). -/
def needsLarge (len : Nat) : Bool := 64 < len

/-- The 32-bit arbitration key of a frame (R174). -/
def arbKey (f : Frame) : Nat :=
  if f.ide then
    (f.id / 2 ^ 18 % 2 ^ 11) * 2 ^ 21 + 2 ^ 20 + 2 ^ 19 + (f.id % 2 ^ 18) * 2 + (if f.rmt then 1 else 0)
  else (f.id % 2 ^ 11) * 2 ^ 21 + (if f.rmt && f.fmt == 0 then 2 ^ 20 else 0)

/-! ## Frame durations (R103, R109) -/

/-- The bits of a number, most significant first; `true` is recessive, logical 1. -/
def bitsMsb (v n : Nat) : List Bool := (List.range n).map fun i => v.testBit (n - 1 - i)

/-- Stuff bits that a bit string produces under dynamic stuffing: one after every five equal consecutive bits, the stuff
bit itself counted in the next run. -/
def stuffCount : List Bool → Bool → Nat → Nat
  | [], _, _ => 0
  | b :: bs, last, run =>
    let run := if b == last then run + 1 else 1
    if run = 5 then stuffCount bs (!b) 1 + 1 else stuffCount bs b run

/-- One step of the CRC-15 of CAN CC, polynomial 0x4599 (ISO 11898-1). -/
def crc15Step (crc : Nat) (b : Bool) : Nat :=
  let top := crc.testBit 14 != b
  let c := crc * 2 % 2 ^ 15
  if top then c ^^^ 0x4599 else c

/-- The DLC of a data length (R162). -/
def dlcOf (f : Frame) : Nat :=
  if f.fmt == 1 then
    match f.len with
    | 12 => 9 | 16 => 10 | 20 => 11 | 24 => 12 | 32 => 13 | 48 => 14 | 64 => 15 | n => n
  else f.len

/-- The data bytes of a frame as bits, each most significant bit first. -/
def dataBits (f : Frame) : List Bool := f.data.flatMap fun b => bitsMsb b.toNat 8

/-- The stuffed bits of a CAN frame before its CRC, from start-of-frame on (ISO 11898-1). -/
def headBits (f : Frame) : List Bool :=
  if f.fmt == 0 then
    if f.ide then
      false :: bitsMsb (f.id / 2 ^ 18) 11 ++ [true, true] ++ bitsMsb f.id 18 ++ [f.rmt, false, false]
        ++ bitsMsb (dlcOf f) 4 ++ dataBits f
    else false :: bitsMsb f.id 11 ++ [f.rmt, false, false] ++ bitsMsb (dlcOf f) 4 ++ dataBits f
  else if f.ide then
    false :: bitsMsb (f.id / 2 ^ 18) 11 ++ [true, true] ++ bitsMsb f.id 18 ++ [false, true, false, f.brs]
  else false :: bitsMsb f.id 11 ++ [false, false, true, false, f.brs]

/-- The timing of a port in samples of 1.5625 ns: nominal, FD data and XL data bit lengths (R103). -/
structure BitTimes where
  ta : Nat
  td : Nat
  tx : Nat
  deriving DecidableEq, Repr

/-- Nominal and data-phase lengths of one attempt of a frame, in units of 1/16 ns (R109): each duration formula with
the stuff bits of the frame's own content. A sample of 1.5625 ns is 25 units. -/
def attemptUnits (f : Frame) (t : BitTimes) : Nat × Nat :=
  let b := f.data.length
  match f.fmt with
  | 0 =>
    let head := headBits f
    let crc := head.foldl crc15Step 0
    let s := stuffCount (head ++ bitsMsb crc 15) true 0
    (((if f.ide then 64 else 44) + 8 * b + s) * t.ta * 25, 0)
  | 1 =>
    let head := headBits f
    let rest := f.esi :: bitsMsb (dlcOf f) 4 ++ dataBits f
    let sa := stuffCount head true 0
    let sd := stuffCount (head ++ rest) true 0 - sa
    let c := if b ≤ 16 then 27 else 32
    let td := if f.brs then t.td else t.ta
    (((if f.ide then 36 else 17) + 10 + sa) * t.ta * 25, (5 + 8 * b + c + sd) * td * 25)
  | 2 =>
    let sa := stuffCount (false :: bitsMsb f.id 11 ++ [false, false, true, true, false]) true 0
    ((32 + sa) * t.ta * 25, (115 + 8 * b + (108 + 8 * b + 9) / 10) * t.tx * 25)
  | _ => (0, ((8 + f.len + 4) * 800 + 400) * 16)

/-- Worst-case stuff bits and duration of the longest frame of a format with `b` data bytes, in units of 1/16 ns (R109,
table "Duration formulas"). -/
def longestUnits (fmt : Nat) (ide brs : Bool) (b : Nat) (t : BitTimes) : Nat :=
  match fmt with
  | 0 => (if ide then 64 + 8 * b + (53 + 8 * b) / 4 else 44 + 8 * b + (33 + 8 * b) / 4) * t.ta * 25
  | 1 =>
    let m := if ide then 36 else 17
    let c := if b ≤ 16 then 27 else 32
    let s := (m + 4 + 8 * b) / 4
    let sa := min s ((m - 2) / 4)
    ((m + 10 + sa) * t.ta + (5 + 8 * b + c + (s - sa)) * (if brs then t.td else t.ta)) * 25
  | 2 => ((32 + 4) * t.ta + (115 + 8 * b + (108 + 8 * b + 9) / 10) * t.tx) * 25
  | _ => ((8 + b) * 800 + 400) * 16

/-- Worst-case driver power of a mode in mW: arbitration and data phase (R89). -/
def driverPower (mode : Nat) : Nat × Nat :=
  match mode with
  | 4 => (230, 160)
  | 5 => (230, 190)
  | 6 => (120, 120)
  | _ => (230, 230)

/-- The reservation of a frame, in units of 1/16 pJ (mW times 1/16 ns): each phase at its own power (R89). A CAN FD
frame of a CAN XL or XL-40 port keeps the transceiver in SIC mode (R100), so its data phase is charged at 230 mW. -/
def reservationOf (mode : Nat) (f : Frame) (t : BitTimes) : Nat :=
  let (na, nd) := attemptUnits f t
  let (pa, pd) := driverPower mode
  na * pa + nd * (if f.fmt == 1 then 230 else pd)

/-! ## CRC-32 of image sections (R38, R51) -/

/-- One bit of the reflected CRC-32, polynomial 0x04C1_1DB7. -/
def crc32Bit (c : Nat) : Nat := if c % 2 = 1 then (c / 2) ^^^ 0xEDB88320 else c / 2

/-- One byte of the CRC-32. -/
def crc32Byte (c : Nat) (b : Byte) : Nat :=
  let c := c ^^^ b.toNat
  crc32Bit (crc32Bit (crc32Bit (crc32Bit (crc32Bit (crc32Bit (crc32Bit (crc32Bit c)))))))

/-- CRC-32 with initial value and final XOR 0xFFFF_FFFF. -/
def crc32 (bs : List Byte) : Nat := bs.foldl crc32Byte 0xFFFFFFFF ^^^ 0xFFFFFFFF

end Sys2Proof.Machine
end

