-- ==== Sys2Proof/Machine/HallOps.lean ====
section
/-! DEFINITION. Hall memory as every master shares it: units and words, cache lines and snoops, poison, ECC counting,
engine interrupts, states and locks (R268 to R272, R285 to R292, R300, R301, R310, R315). -/

namespace Sys2Proof

/-- The number of a hall master (R312). -/
def HallMaster.number : HallMaster → Nat
  | .engine e => e / 64
  | .host => 16
  | .store => 17
  | .gateway => 18
  | .ledger => 19
  | .update => 20

/-- MASTER of CUR.FIRST_ACC (R365). -/
def HallMaster.faultCode : HallMaster → Nat
  | .engine e => e
  | .host => 1024
  | .store => 1025
  | .gateway => 1026
  | .ledger => 1027
  | .update => 1028

end Sys2Proof

namespace Sys2Proof.Machine

/-! ## Units and words (R300, R301) -/

/-- The unit of a hall offset. -/
def unitOf (a : Nat) : Nat := 1024 * (a / 2 ^ 24 % 4) + 64 * (a / 2 ^ 20 % 16) + a / 8 % 64

/-- The hall of a hall offset. -/
def hallOf (a : Nat) : Nat := a / 2 ^ 24 % 4

/-- The hall words, by offset divided by 8, that `n` bytes at `a` touch. -/
def wordsOf (a n : Nat) : List Nat := if n = 0 then [] else (List.range ((a + n - 1) / 8 - a / 8 + 1)).map (a / 8 + ·)

/-- The lines, by address, that `n` bytes at `a` touch. -/
def linesOf (a n : Nat) : List Nat :=
  if n = 0 then [] else (List.range ((a + n - 1) / 64 - a / 64 + 1)).map fun i => (a / 64 + i) * 64

/-- A word is poisoned. -/
def State.isPoison (s : State) (w : Nat) : Bool := smapFind (fun _ => false) s.halls.poison w

/-- Poison a word, or clear its poison. -/
def State.setPoison (s : State) (w : Nat) (b : Bool) : State :=
  { s with halls := { s.halls with poison := smapPut (fun _ => false) s.halls.poison w b } }

/-- A corrected word waits for its write-back, or no longer does. -/
def State.setFix (s : State) (w : Nat) (b : Bool) : State :=
  { s with halls := { s.halls with fix := smapPut (fun _ => false) s.halls.fix w b } }

/-- A poisoned read or a discarded partial write is counted and reported (R315, R316). -/
def State.countUe (s : State) (w master : Nat) : State :=
  (s.inc (HALL_ECC_UE (hallOf (w * 8)))).reportFrom (1604 + hallOf (w * 8)) 0x21 (w * 8) master 0

/-- A poisoned read (R315, R316): counted, recorded in HALL.UE_ADDR, reported, source 1604 + h. -/
def State.poisonRead (s : State) (w : Nat) (m : HallMaster) : State :=
  let h := hallOf (w * 8)
  let s := s.countUe w m.faultCode
  let s := s.raise (1604 + h) (unitOf (w * 8))
  if s.flag (HALL_UE_ADDR_VALID h) then s
  else ((s.set (HALL_UE_ADDR_WORD h) (w % 2 ^ 21)).set (HALL_UE_ADDR_MASTER h) m.number).put (HALL_UE_ADDR_VALID h) true

/-! ## Caches (R285 to R288) -/

/-- The hidden half of a region. -/
def State.region (s : State) (r : Nat) : Region := smapFind (fun _ => {}) s.cores.regions r

/-- Set the hidden half of a region. -/
def State.setRegion (s : State) (r : Nat) (v : Region) : State :=
  { s with cores := { s.cores with regions := smapPut (fun _ => {}) s.cores.regions r v } }

/-- The hidden half of a cluster. -/
def State.cluster (s : State) (c : Nat) : Cluster := smapFind (fun _ => {}) s.cores.clusters c

/-- Set the hidden half of a cluster. -/
def State.setCluster (s : State) (c : Nat) (v : Cluster) : State :=
  { s with cores := { s.cores with clusters := smapPut (fun _ => {}) s.cores.clusters c v } }

/-- The line of an engine's L1. -/
def State.l1 (s : State) (e line : Nat) : Option L1Line := smapFind (fun _ => none) (s.engine e).l1 line

/-- Set or drop a line of an engine's L1; a reservation on a dropped line ends. -/
def State.setL1 (s : State) (e line : Nat) (v : Option L1Line) : State :=
  s.modEngine e fun w =>
    { w with l1 := smapPut (fun _ => none) w.l1 line v,
             reservation := if v.isNone && w.reservation == some line then none else w.reservation }

/-- The line of a region's L2. -/
def State.l2 (s : State) (r line : Nat) : Option L2Line := smapFind (fun _ => none) (s.region r).l2 line

/-- Set or drop a line of a region's L2. -/
def State.setL2 (s : State) (r line : Nat) (v : Option L2Line) : State :=
  let g := s.region r
  s.setRegion r { g with l2 := smapPut (fun _ => none) g.l2 line v }

/-- The engines of a region. -/
def enginesOf (r : Nat) : List Nat := (List.range 64).map (64 * r + ·)

/-- The engines of a cluster. -/
def clusterEngines (c : Nat) : List Nat := (List.range 8).map (8 * c + ·)

/-- Store a whole line in the hall; full words clear poison (R315). -/
def State.writeLine (s : State) (line : Nat) (d : List Byte) : State :=
  ((wordsOf line 64).foldl (fun s w => (s.setPoison w false).setFix w false) s).setBytes line d

/-- Write an L1's modified copy back to the region L2; the copy stays, clean. -/
def State.writeBackL1 (s : State) (e line : Nat) : State :=
  match s.l1 e line with
  | some v =>
    if v.mesi = 2 then
      let way := match s.l2 (e / 64) line with
        | some w => w.way
        | none => 0
      (s.setL2 (e / 64) line (some { dirty := true, data := v.data, way })).setL1 e line (some { v with mesi := 0 })
    else s
  | none => s

/-- Write a region's copies of a line back to the hall; they stay, clean. -/
def State.cleanRegion (s : State) (r line : Nat) : State :=
  let s := s.each (enginesOf r) fun s e => s.writeBackL1 e line
  match s.l2 r line with
  | some v => if v.dirty then (s.writeLine line v.data).setL2 r line (some { v with dirty := false }) else s
  | none => s

/-- Every copy of a line in a region becomes invalid, without write-back. -/
def State.dropLine (s : State) (r line : Nat) : State :=
  (s.each (enginesOf r) fun s e => s.setL1 e line none).setL2 r line none

/-- A snoop of every region: a dirty line is written back, then the line is invalid everywhere (R287, R307). -/
def State.snoop (s : State) (line : Nat) : State :=
  s.each (List.range 16) fun s r => (s.cleanRegion r line).dropLine r line

/-- A write of bytes that lie in one hall word: a partial write of a poisoned word is discarded (R315). -/
def State.writeInWord (s : State) (a : Nat) (bs : List Byte) (master : Nat) : State :=
  if s.isPoison (a / 8) && bs.length < 8 then s.countUe (a / 8) master
  else ((s.setPoison (a / 8) false).setFix (a / 8) false).setBytes a bs

/-- Split a write at hall-word boundaries, lower address first (R314). -/
def State.writeWords (s : State) (master : Nat) : Nat → Nat → List Byte → State
  | 0, _, _ => s
  | _, _, [] => s
  | k + 1, a, bs =>
    let n := 8 - a % 8
    (s.writeInWord a (bs.take n) master).writeWords master k (a + n) (bs.drop n)

/-- Store bytes in the halls with no snoop: the uncached alias (R288, R314). -/
def State.hallPut (s : State) (a : Nat) (bs : List Byte) (master : Nat) : State :=
  s.writeWords master (bs.length / 8 + 2) a bs

/-- A write by a master other than an engine: every line is snooped first (R287). -/
def State.hallStore (s : State) (a : Nat) (bs : List Byte) (master : Nat) : State :=
  (s.each (linesOf a bs.length) fun s l => s.snoop l).hallPut a bs master

/-- Every copy of the lines of some units is written back, or discarded (R307, R309). -/
def State.flushUnits (s : State) (us : List Nat) (keep : Bool) : State :=
  let mine := fun line => (List.range 8).any fun i => us.contains (unitOf (line + 8 * i))
  let lines := s.cores.regions.flatMap fun p => (p.2.l2.map (·.1)).filter mine
  s.each lines fun s l =>
    s.each (List.range 16) fun s r => (if keep then s.cleanRegion r l else s).dropLine r l

/-- Clear units: every byte 0, no poison (R310). -/
def State.zeroUnits (s : State) (us : List Nat) : State :=
  { s with mem := s.mem.filter fun c => !us.contains (unitOf c.1),
           halls := { s.halls with poison := s.halls.poison.filter fun c => !us.contains (unitOf (c.1 * 8)),
                                   fix := s.halls.fix.filter fun c => !us.contains (unitOf (c.1 * 8)) } }

/-! ## Interrupts of engines (R271) -/

/-- mie. -/
def csrMie : Nat := 0x304

/-- The interrupts pending on an engine: MSIP 3, MTIP 7, MEIP 11 (R271, R354). -/
def State.mip (s : State) (e : Nat) : Nat :=
  let ms := (s.get (CLU_DOORBELL_PEND (e / 8))).testBit (e % 8)
  let mt := s.flag (ENG_CFG_TEN e) && dueAt s.now (s.get (ENG_TCMP_NS e))
  let me := (List.range 64).any fun k =>
    s.flag (LEDG_RING_CFG_EN k) && s.get (LEDG_RING_CFG_TARGET k) = e && (s.get LEDG_EPEND_PEND).testBit k
  (if ms then 8 else 0) + (if mt then 128 else 0) + (if me then 2048 else 0)

/-- The interrupt an engine takes: external, software, timer, in that order (Privileged ISA). -/
def intrCause (p : Nat) : Nat := if p.testBit 11 then 11 else if p.testBit 3 then 3 else 7

/-- The engine state code. -/
def State.estate (s : State) (e : Nat) : Nat := s.get (ENG_STAT_STATE e)

/-- A pending enabled interrupt ends WFI, and a RUNNING engine that has interrupts on takes it (R271). -/
def State.interrupt (s : State) (e : Nat) : State :=
  let v := s.engine e
  let p := s.mip e &&& (v.getCsr csrMie).toNat
  if p = 0 then s
  else
    let s := if s.estate e = 3 then s.set (ENG_STAT_STATE e) 2 else s
    if s.estate e = 2 && (v.user || bitsOf (v.getCsr csrMstatus) 3 1 = 1) then s.trap e (intrCause p) 0 true else s

/-! ## Engine states (R268 to R270) -/

/-- ENG[e].PC and STAT.PRIV show the pc and the mode. -/
def State.showEngine (s : State) (e : Nat) : State :=
  let v := s.engine e
  (s.set (ENG_PC_PC e) v.pc.toNat).put (ENG_STAT_PRIV e) (!v.user)

/-- Source 512 + e with a cause and an argument (R298). -/
def State.engCause (s : State) (e c b1 : Nat) : State := s.raise (512 + e) (c + b1 * 256)

/-- START: execution begins at ENG[e].START in M-mode with x1–x31 at 0. -/
def State.engineStart (s : State) (e : Nat) : State :=
  let s := s.modEngine e fun v =>
    { v with x := [], pc := BitVec.ofNat 32 (s.get (ENG_START_ADDR e) * 2), user := false }
  (s.showEngine e).set (ENG_STAT_STATE e) 2

/-- HALT: an Xfly instruction in progress is suspended as by a trap; locks stay held (R268, R269, R281). -/
def State.engineHalt (s : State) (e : Nat) : State :=
  if s.estate e = 2 || s.estate e = 3 then
    let s := s.modEngine e fun v =>
      if bitsOf (v.getCsr csrXFST) 0 1 = 1 then v.suspendXf.setCsr csrMepc v.pc else v
    ((((s.set (ENG_STAT_STATE e) 1).xactive e).showEngine e)).engCause e 0x04 0
  else s

/-! ## Locks (R290 to R292) -/

/-- The lock priority of engine index `i` of a cluster. -/
def State.lockPrio (s : State) (c i : Nat) : Nat := s.get (CLU_PRIO_P c) / 4 ^ i % 4

/-- The waiter that a free lock goes to: highest priority, then round-robin after the last holder (R291). -/
def State.nextHolder (s : State) (c j : Nat) : Option Nat :=
  let w := s.get (CLU_LOCK_WAIT c j)
  let last := smapFind (fun _ => 7) (s.cluster c).lockLast j
  ((List.range 8).map fun k => (last + 1 + k) % 8).foldl
    (fun acc i =>
      if w.testBit i then
        match acc with
        | none => some i
        | some b => if s.lockPrio c b < s.lockPrio c i then some i else some b
      else acc) none

/-- Grant a lock to engine index `i`: its request ends, and a grant of a broken lock raises cause 0x03; a grant ends a
WFI of the grantee (R290, R292). -/
def State.lockGrant (s : State) (c j i : Nat) : State :=
  let e := 8 * c + i
  let cl := s.cluster c
  let s := s.setCluster c { cl with lockLast := smapPut (fun _ => 7) cl.lockLast j i }
  let s := ((s.set (CLU_LOCK_HOLDER c j) i).put (CLU_LOCK_HELD c j) true).put
    (lockWaitLoc c j i) false
  let s := if s.estate e = 3 then s.set (ENG_STAT_STATE e) 2 else s
  if s.flag (CLU_LOCK_BROKEN c j) then s.engCause e 0x03 j else s

/-- A lock becomes free, with BROKEN as said, and is granted at once to its next waiter. -/
def State.lockFree (s : State) (c j : Nat) (broken : Bool) : State :=
  let s := (s.put (CLU_LOCK_HELD c j) false).put (CLU_LOCK_BROKEN c j) broken
  match s.nextHolder c j with
  | some i => s.lockGrant c j i
  | none => s

/-- Engine index `i` holds lock `j`. -/
def State.holds (s : State) (c j i : Nat) : Bool := s.flag (CLU_LOCK_HELD c j) && s.get (CLU_LOCK_HOLDER c j) = i

/-- The queued lock requests of an engine are withdrawn (R270). -/
def State.withdrawAll (s : State) (e : Nat) : State :=
  s.each (List.range 64) fun s j => s.put (lockWaitLoc (e / 8) j (e % 8)) false

/-- The requests of an engine are withdrawn, and its locks become free with BROKEN 1 (R270, R292). -/
def State.breakLocks (s : State) (e : Nat) : State :=
  let c := e / 8
  let i := e % 8
  let s := s.withdrawAll e
  s.each (List.range 64) fun s j => if s.holds c j i then s.lockFree c j true else s

/-- The waiting accesses of an engine are abandoned: none of them starts (R270). -/
def State.dropHeld (s : State) (e : Nat) : State :=
  { s with halls := { s.halls with held := s.halls.held.filter fun h => match h.req.master with
    | .engine o => o.val != e
    | _ => true } }

/-- A reset of an engine (R270): its waiting accesses are abandoned, its L1 is written back to the L2, its locks break,
its registers and CSRs reset, and it is HALTED, or RUNNING with AUTO. -/
def State.engineReset (s : State) (e : Nat) : State :=
  let s := s.dropHeld e
  let s := s.each ((s.engine e).l1.map (·.1)) fun s l => (s.writeBackL1 e l).setL1 e l none
  let s := s.breakLocks e
  let s := s.setEngine e { pc := BitVec.ofNat 32 (s.get (ENG_START_ADDR e) * 2) }
  let s := ((s.set (ENG_STAT_STATE e) 1).xactive e).showEngine e
  let s := if s.flag (ENG_CFG_AUTO e) then s.engineStart e else s
  s.engCause e 0x01 0

/-- The clusters of a station (R18). -/
def State.clustersOf (s : State) (st : Nat) : List Nat :=
  (List.range 128).filter fun c => s.flag (CLU_CFG_ASSIGNED c) && s.get (CLU_CFG_STATION c) = st

/-- The engines of a station. -/
def State.stationEngines (s : State) (st : Nat) : List Nat := (s.clustersOf st).flatMap clusterEngines

/-- An engine of an assigned cluster in a ready region enters HALTED, and starts with AUTO; any other is UNASSIGNED
(R268, R269). After a reset AUTO waits for the station code (R460). -/
def State.enterHalted (s : State) (e : Nat) : State :=
  if s.flag (CLU_CFG_ASSIGNED (e / 8)) && s.flag (rgnReadyLoc (e / 64)) then
    if s.estate e ≤ 1 then
      let s := s.set (ENG_STAT_STATE e) 1
      if s.flag (ENG_CFG_AUTO e) && !s.upd.held then s.engineStart e else s.showEngine e
    else s
  else s.set (ENG_STAT_STATE e) 0

end Sys2Proof.Machine
end

