-- ==== Sys2Proof/Machine/StoreOps.lean ====
section
/-! DEFINITION. Shared operations of the message-operation store and of the gateway's breaches: owners and pools,
buffers, slot states, completions, duplicates, QUEUE, admission (R156 to R183, R252 to R256). -/

namespace Sys2Proof.Machine

/-! ## Hidden halves -/

/-- The hidden half of port `n`. -/
def State.port (s : State) (n : Nat) : Port := smapFind (fun _ => {}) s.ports n

/-- Set the hidden half of port `n`. -/
def State.setPort (s : State) (n : Nat) (p : Port) : State :=
  { s with ports := smapPut (fun _ => {}) s.ports n p }

/-- Change the hidden half of port `n`. -/
def State.modPort (s : State) (n : Nat) (f : Port → Port) : State := s.setPort n (f (s.port n))

/-- The hidden half of a slot. -/
def State.slotHid (s : State) (k : Nat) : Slot := smapFind (fun _ => {}) s.store.slots k

/-- Change the hidden half of a slot. -/
def State.modSlot (s : State) (k : Nat) (f : Slot → Slot) : State :=
  { s with store := { s.store with slots := smapPut (fun _ => {}) s.store.slots k (f (s.slotHid k)) } }

/-- Record something sent to the outside world. -/
def State.emit (s : State) (o : Output) : State := { s with out := o :: s.out }

/-! ## Owners and pools (R156 to R158) -/

/-- The station of an engine: that of its cluster, when the cluster is assigned (R18). -/
def State.stationOf (s : State) (e : Nat) : Option Nat :=
  if s.flag (CLU_CFG_ASSIGNED (e / 8)) then some (s.get (CLU_CFG_STATION (e / 8))) else none

/-- The owner code of a requester: 64 for the host, else the station of the engine (R157, R165). -/
def State.ownerCode (s : State) (q : Requester) : Option Nat :=
  match q with
  | .host => some 64
  | .engine e => s.stationOf e.val

/-- Pool kinds (R157). -/
def kindRX : Nat := 1
/-- Mailboxes. -/
def kindMBX : Nat := 2
/-- Transmit pools. -/
def kindTX : Nat := 3

/-- The bit of IMG.TRANS of a port (R57). -/
def transLoc (n : Nat) : Loc := ⟨(IMG_TRANS_PORT (n / 32)).addr, n % 32, 1⟩

/-- The port is in transition to a new epoch (R57). -/
def State.inTransit (s : State) (n : Nat) : Bool := s.flag (transLoc n)

/-- The range of pool `p` covers slot `k`, and the pool is in use. -/
def State.covers (s : State) (p k : Nat) : Bool :=
  s.get (MOP_POOL_CFG1_KIND p) != 0 && s.get (MOP_POOL_CFG0_BASE p) ≤ k
    && k ≤ s.get (MOP_POOL_CFG0_BASE p) + s.get (MOP_POOL_CFG0_COUNT_M1 p)

/-- During an epoch change, a slot of a moved pool that still belongs to a pool whose port is in transition (R517). -/
def State.lent (s : State) (p k : Nat) : Bool :=
  s.get IMG_STATUS_PHASE = 5 && !s.inTransit (s.get (MOP_POOL_CFG1_PORT p))
    && (List.range 1024).any fun o => o != p && s.covers o k && s.inTransit (s.get (MOP_POOL_CFG1_PORT o))

/-- Slot `k` lies in pool `p`. -/
def State.inPool (s : State) (p k : Nat) : Bool := s.covers p k && !s.lent p k

/-- The slots of pool `p`. -/
def State.poolSlots (s : State) (p : Nat) : List Nat :=
  ((List.range (s.get (MOP_POOL_CFG0_COUNT_M1 p) + 1)).map (s.get (MOP_POOL_CFG0_BASE p) + ·)).filter fun k => !s.lent p k

/-- The pool of a slot; a revoked pool is in no use until it returns (R376). -/
def State.poolOf (s : State) (k : Nat) : Option Nat :=
  (List.range 1024).find? fun p => s.inPool p k && !s.store.revoked.contains p

/-- The pool of a slot, revoked or not: a request on the wire completes in it (R179). -/
def State.homePool (s : State) (k : Nat) : Option Nat := (List.range 1024).find? fun p => s.inPool p k

/-- The pools of a kind on a port. -/
def State.poolsOn (s : State) (kind n : Nat) : List Nat :=
  (List.range 1024).filter fun p =>
    s.get (MOP_POOL_CFG1_KIND p) = kind && s.get (MOP_POOL_CFG1_PORT p) = n && !s.store.revoked.contains p

/-- MOP.ERR and MOP.ERR_SLOT record the first refusal, and source 1594 is raised (R158, R165, R187). -/
def State.mopErr (s : State) (reason cmd : Nat) (q : Requester) (slot : Nat) : State :=
  if s.flag MOP_ERR_VALID then s
  else
    let s := ((s.set MOP_ERR_REASON reason).set MOP_ERR_CMD cmd).put MOP_ERR_SRC (q != .host)
    let s := s.set MOP_ERR_SLOT_SLOT slot
    let s := match q with
      | .host => s.set MOP_ERR_SLOT_ENGINE 0
      | .engine e => s.set MOP_ERR_SLOT_ENGINE e.val
    (s.put MOP_ERR_VALID true).raise 1594 reason

/-! ## Descriptors (R161) -/

/-- Slot states (R161). -/
def slotFree : Nat := 0
/-- STAGED. -/
def slotStaged : Nat := 1
/-- QUEUED. -/
def slotQueued : Nat := 2
/-- ARBITRATING. -/
def slotArb : Nat := 3
/-- ON_WIRE. -/
def slotOnWire : Nat := 4
/-- DONE. -/
def slotDone : Nat := 5
/-- ABORTED. -/
def slotAborted : Nat := 6

/-- Word 1 of a frame's descriptor. -/
def frameWord1 (f : Frame) : Word :=
  BitVec.ofNat 32 (f.id % 2 ^ 29 + (if f.ide then 2 ^ 29 else 0) + (if f.rmt then 2 ^ 30 else 0)
    + (if f.brs then 2 ^ 31 else 0))

/-- Word 2 of a frame's descriptor. -/
def frameWord2 (f : Frame) : Word :=
  BitVec.ofNat 32 (f.len % 2 ^ 12 + (f.fmt % 4) * 2 ^ 12 + (if f.esi then 2 ^ 14 else 0)
    + (if f.sec then 2 ^ 15 else 0) + (f.sdt % 256) * 2 ^ 16 + (f.vcid % 256) * 2 ^ 24)

/-- The hall offset of a slot's buffer. -/
def State.bufOf (s : State) (k : Nat) : Nat := s.get (MOP_DESC_BUF k) * 8

/-- Set the hall offset of a slot's buffer. -/
def State.setBuf (s : State) (k a : Nat) : State := s.set (MOP_DESC_BUF k) (a / 8)

/-- The stored frame of a slot: its descriptor words and the bytes at its buffer. -/
def State.slotFrame (s : State) (k : Nat) : Frame :=
  let len := s.get (MOP_DESC_LEN k)
  let rmt := s.flag (MOP_DESC_RMT k)
  { fmt := s.get (MOP_DESC_FMT k), id := s.get (MOP_DESC_ID k), ide := s.flag (MOP_DESC_IDE k), rmt,
    brs := s.flag (MOP_DESC_BRS k), esi := s.flag (MOP_DESC_ESI k), sec := s.flag (MOP_DESC_SEC k),
    sdt := s.get (MOP_DESC_SDT k), vcid := s.get (MOP_DESC_VCID k), af := s.get (MOP_DESC_AF k), len,
    data := if rmt then [] else s.bytes (s.bufOf k) len }

/-- Write words 1 to 3 of a slot from a frame. -/
def State.setSlotFrame (s : State) (k : Nat) (f : Frame) : State :=
  ((s.setWord (MOP_DESC_W k 1).addr (frameWord1 f)).setWord (MOP_DESC_W k 2).addr (frameWord2 f)).setWord
    (MOP_DESC_W k 3).addr (BitVec.ofNat 32 f.af)

/-- The instant that words 6 and 7 hold, as the low 32 bits of NSO (R325). -/
def State.slotStamp32 (s : State) (k : Nat) : Nat :=
  (s.get (MOP_DESC_W k 7) * 1000000000 + s.get (MOP_DESC_W k 6)) % 2 ^ 32

/-- Slots of pool `p` in state FREE. -/
def State.freeSlots (s : State) (p : Nat) : Nat :=
  ((s.poolSlots p).filter fun k => s.get (MOP_DESC_STATE k) = slotFree).length

/-- A slot enters a state: MOP.POOL_STAT.FREE and MOP.PORTQ.NQ follow (R163). -/
def State.setSlotState (s : State) (k st : Nat) : State :=
  let old := s.get (MOP_DESC_STATE k)
  let s := s.set (MOP_DESC_STATE k) st
  match s.poolOf k with
  | none => s
  | some p =>
    let s := s.set (MOP_POOL_STAT_FREE p) (min (s.freeSlots p) 65535)
    let n := s.get (MOP_POOL_CFG1_PORT p)
    let was := old = slotQueued || old = slotArb
    let is := st = slotQueued || st = slotArb
    if is && !was then s.inc (MOP_PORTQ_NQ n)
    else if was && !is then s.set (MOP_PORTQ_NQ n) (s.get (MOP_PORTQ_NQ n) - 1)
    else s

/-! ## Frame-store buffers (R159, R160, R181) -/

/-- The first hall offset of frame-store pool `f`. -/
def State.fspBase (s : State) (f : Nat) : Nat := s.get (MOP_FSP_BASE_BASE f) * 2048

/-- A buffer of frame-store pool `f` is LARGE when it lies before the SMALL buffers (R160). -/
def State.isLargeBuf (s : State) (f a : Nat) : Bool := a < s.fspBase f + s.get (MOP_FSP_CNT_NLARGE f) * 2048

/-- The free SMALL and LARGE buffers of a frame-store pool. -/
def State.freeBufs (s : State) (f : Nat) : List Nat × List Nat := smapFind (fun _ => ([], [])) s.store.free f

/-- Set the free buffers of a frame-store pool; MOP.FSP_FREE and MOP.FSP_LOW follow. -/
def State.setFreeBufs (s : State) (f : Nat) (b : List Nat × List Nat) : State :=
  let s := { s with store := { s.store with free := smapPut (fun _ => ([], [])) s.store.free f b } }
  let s := (s.set (MOP_FSP_FREE_SMALL f) b.1.length).set (MOP_FSP_FREE_LARGE f) b.2.length
  let s := s.set (MOP_FSP_LOW_SMALL f) (min (s.get (MOP_FSP_LOW_SMALL f)) b.1.length)
  s.set (MOP_FSP_LOW_LARGE f) (min (s.get (MOP_FSP_LOW_LARGE f)) b.2.length)

/-- A buffer of a class is available: above the reserve for a NORMAL frame, any for a PRIORITY frame (R181). -/
def State.bufAvailable (s : State) (f : Nat) (large prio : Bool) : Bool :=
  let n := if large then (s.freeBufs f).2.length else (s.freeBufs f).1.length
  let rsv := if large then s.get (MOP_FSP_RSV_RSV_LARGE f) else s.get (MOP_FSP_RSV_RSV_SMALL f)
  if prio then 0 < n else rsv < n

/-- Source 1592 when a class fell to its reserve (R182). -/
def State.reserveEvent (s : State) (f : Nat) (large : Bool) : State :=
  let n := if large then (s.freeBufs f).2.length else (s.freeBufs f).1.length
  let rsv := if large then s.get (MOP_FSP_RSV_RSV_LARGE f) else s.get (MOP_FSP_RSV_RSV_SMALL f)
  if n = rsv then s.raise 1592 (f + (if large then 2 ^ 15 else 0)) else s

/-- Take the buffer of a class that was freed longest ago. -/
def State.popBuf (s : State) (f : Nat) (large : Bool) : Option (Nat × State) :=
  let b := s.freeBufs f
  if large then
    match b.2 with
    | [] => none
    | a :: r => some (a, (s.setFreeBufs f (b.1, r)).reserveEvent f true)
  else
    match b.1 with
    | [] => none
    | a :: r => some (a, (s.setFreeBufs f (r, b.2)).reserveEvent f false)

/-- Take a buffer for a frame: of its class, or a LARGE one for a SMALL frame when no SMALL buffer is available to it
(R160, R181). -/
def State.takeBuf (s : State) (f : Nat) (large prio : Bool) : Option (Nat × State) :=
  if s.bufAvailable f large prio then s.popBuf f large
  else if !large && s.bufAvailable f true prio then s.popBuf f true
  else none

/-- A buffer returns to the end of its class's queue. -/
def State.returnBuf (s : State) (f a : Nat) : State :=
  let b := s.freeBufs f
  if s.isLargeBuf f a then s.setFreeBufs f (b.1, b.2 ++ [a]) else s.setFreeBufs f (b.1 ++ [a], b.2)

/-! ## Admission to RX pools (R180, R181) -/

/-- The slots of a pool in taking order: after the one last taken, ascending, wrapping (R180). -/
def rotated (slots : List Nat) (last : Option Nat) : List Nat :=
  match last with
  | none => slots
  | some l => slots.filter (l < ·) ++ slots.filter (· ≤ l)

/-- The slot last taken in a pool. -/
def State.lastTaken (s : State) (p : Nat) : Option Nat := smapFind (fun _ => none) s.store.lastTaken p

/-- Note the slot last taken in a pool. -/
def State.setLastTaken (s : State) (p k : Nat) : State :=
  { s with store := { s.store with lastTaken := smapPut (fun _ => none) s.store.lastTaken p (some k) } }

/-- Hold a slot for a reception in progress. -/
def State.holdSlot (s : State) (k : Nat) : State := { s with store := { s.store with taken := k :: s.store.taken } }

/-- The DONE slot that completed earliest (R181). -/
def State.oldestDone (s : State) (p : Nat) : Option Nat :=
  ((s.poolSlots p).filter fun k => s.get (MOP_DESC_STATE k) = slotDone && !s.store.taken.contains k).foldl
    (fun acc k => match acc with
      | none => some k
      | some j => if (s.slotHid k).doneSeq < (s.slotHid j).doneSeq then some k else some j) none

/-- The frame-store pool of a pool waits for a new layout, and the port of the pool has moved (R516). -/
def State.awaitsLayout (s : State) (p : Nat) : Bool :=
  s.store.relayout.any (·.1 == s.get (MOP_POOL_CFG1_FSP p)) && !s.inTransit (s.get (MOP_POOL_CFG1_PORT p))

/-- Admit a frame of `len` bytes to RX pool `p` (R181): a FREE slot with a buffer, or with REPLACE the DONE slot that
completed earliest, with its own buffer when that is large enough. A pool whose frame-store pool waits for a new layout
refuses every frame (R516). -/
def State.admitFrame (s : State) (p len : Nat) (prio : Bool) : Option (Admission × State) :=
  let f := s.get (MOP_POOL_CFG1_FSP p)
  let large := needsLarge len
  if s.awaitsLayout p then none
  else
    match (rotated (s.poolSlots p) (s.lastTaken p)).find? fun k =>
        s.get (MOP_DESC_STATE k) = slotFree && !s.store.taken.contains k with
    | some k =>
      match s.takeBuf f large prio with
      | some (a, s') =>
        some ({ pool := p, slot := k, buf := a, replaces := false, fresh := true },
              (s'.setLastTaken p k).holdSlot k)
      | none => none
    | none =>
      if !s.flag (MOP_POOL_CFG1_REPLACE p) then none
      else match s.oldestDone p with
        | none => none
        | some k =>
          if !large || s.isLargeBuf f (s.bufOf k) then
            some ({ pool := p, slot := k, buf := s.bufOf k, replaces := true, fresh := false },
                  (s.setLastTaken p k).holdSlot k)
          else if s.bufAvailable f true prio then
            match s.popBuf f true with
            | some (a, s') =>
              some ({ pool := p, slot := k, buf := a, replaces := true, fresh := true }, (s'.setLastTaken p k).holdSlot k)
            | none => none
          else none

/-- A taken slot is no longer held. -/
def State.unholdSlot (s : State) (k : Nat) : State :=
  { s with store := { s.store with taken := s.store.taken.erase k } }

/-- The frame failed: its slot and buffer return at once (R180). -/
def State.cancelAdmission (s : State) (a : Admission) : State :=
  let s := s.unholdSlot a.slot
  if a.fresh then s.returnBuf (s.get (MOP_POOL_CFG1_FSP a.pool)) a.buf else s

/-- A frame refused or dropped for pool `p` is counted, and source 1593 raised (R182). -/
def State.countDrop (s : State) (p : Nat) : State :=
  (s.inc (MOP_POOL_STAT_DROP p)).raiseOncePerMs 1593 1593 p

/-! ## Completions (R164, R166) -/

/-- Completion codes (R164). -/
def codeOK : Nat := 0x00
/-- This frame replaced a stored frame. -/
def codeOverwritten : Nat := 0x01
/-- Cancelled by the owner. -/
def codeCancelled : Nat := 0x10
/-- Transmit deadline passed. -/
def codeDeadline : Nat := 0x11
/-- Deadline more than 2 s ahead. -/
def codeDlRange : Nat := 0x12
/-- Descriptor breaks R162. -/
def codeBadDesc : Nat := 0x13
/-- Format not carried. -/
def codeFormat : Nat := 0x14
/-- Port mode OFF. -/
def codePortOff : Nat := 0x15
/-- Discarded at an epoch move. -/
def codeEpoch : Nat := 0x16
/-- Abandoned after 16 collisions. -/
def codeCollisions : Nat := 0x17
/-- Pool revoked. -/
def codeRevoked : Nat := 0x18
/-- Deadline monitor. -/
def codeTimeout : Nat := 0x20

/-- Post the completion record of a slot to its pool's ring (R166, R348). -/
def State.post (s : State) (k p code stamp mon : Nat) : State :=
  s.enqueue { tick := s.ticks, nso := s.now, ring := s.get (MOP_POOL_CFG1_RING p), staged := true,
              body := .completion k (s.get (MOP_DESC_STATE k)) (s.flag (MOP_DESC_DIR k)) (s.flag (MOP_DESC_DUP k))
                (s.flag (MOP_DESC_TAINT k)) (s.get (MOP_DESC_WP k)) code (s.get (MOP_DESC_TAG k)) stamp p mon }

/-- The codes that carry a timestamp (R166). -/
def codeStamped (code : Nat) : Bool := code = codeOK || code = codeOverwritten

/-- Count a completion of pool `p`: OK and OVERWRITTEN in DONE, ABORTED in ABORT. -/
def State.countCompletion (s : State) (p state code : Nat) : State :=
  if state = slotAborted then s.inc (MOP_POOL_CNT_ABORT p)
  else if codeStamped code then s.inc (MOP_POOL_CNT_DONE p) else s

/-- The bytes of a buffer become 0 (R310). -/
def State.zeroBuf (s : State) (f a : Nat) : State :=
  s.hallStore a (List.replicate (if s.isLargeBuf f a then 2048 else 64) 0) 1025

/-- A TX slot enters DONE or ABORTED with a code; its words 6 and 7 take the timestamp, or keep the deadline, or become
0 when DL_EN is 0 (R164, R178). In a revoked pool its buffer is then cleared (R179). -/
def State.endSlot (s : State) (k state code : Nat) (stamp : Option (Word × Word)) : State :=
  let s := (s.setSlotState k state).set (MOP_DESC_CODE k) code
  let s := match stamp with
    | some (ns, sec) => (s.setWord (MOP_DESC_W k 6).addr ns).setWord (MOP_DESC_W k 7).addr sec
    | none =>
      if s.flag (MOP_DESC_DL_EN k) then s
      else (s.setWord (MOP_DESC_W k 6).addr 0).setWord (MOP_DESC_W k 7).addr 0
  let s := { s with store := { s.store with doneSeq := s.store.doneSeq + 1 } }
  let s := s.modSlot k fun h => { h with stop := none, dupOf := none, doneSeq := s.store.doneSeq }
  match s.homePool k with
  | none => s
  | some p =>
    let s := (s.countCompletion p state code).post k p code (if codeStamped code then s.slotStamp32 k else 0) 0
    if s.store.revoked.contains p then s.zeroBuf (s.get (MOP_POOL_CFG1_FSP p)) (s.bufOf k) else s

/-- The duplicates of a slot. -/
def State.dupsOf (s : State) (k : Nat) : List Nat := (s.store.slots.filter (·.2.dupOf == some k)).map (·.1)

/-- Record the completion of a request in its pool's tag window; a CANCELLED request leaves it (R172). -/
def State.tagDone (s : State) (k code : Nat) : State :=
  match s.homePool k with
  | none => s
  | some p =>
    let w := smapFind (fun _ => []) s.store.tags p
    let r := (s.get (MOP_DESC_STATE k), s.get (MOP_DESC_CODE k), s.word (MOP_DESC_W k 6).addr,
              s.word (MOP_DESC_W k 7).addr)
    let w := if code = codeCancelled then w.filter fun t => !(t.slot == k && t.result.isNone)
      else w.map fun t => if t.slot == k && t.result.isNone then { t with result := some r } else t
    { s with store := { s.store with tags := smapPut (fun _ => []) s.store.tags p w } }

/-! ## Breaches (R252 to R255) -/

/-- EQ_STAT.NPEND of a target: copies staged, waiting, or queued and not yet submitted. -/
def State.updateNpend (s : State) (t : Nat) : State :=
  let pend := s.gw.copies.filter fun c =>
    c.target == t && (c.state != .released
      || (match c.slot with | some k => s.get (MOP_DESC_STATE k) == slotQueued | none => false))
  s.set (GW_EQ_STAT_NPEND t) (min pend.length 65535)

/-- A breach of a leg copy: counted, reported by source 1538, recorded in GW.BRK when that is free, and the breach
window of the target opens (R252, R254, R255). -/
def State.breach (s : State) (route idx target kind release late : Nat) : State :=
  let s := (s.inc (GW_RT_BRK_BREACH route)).inc (GW_EQ_CNT_BREACH target)
  let s := (s.put (GW_EQ_STAT_BRW target) true).put (brkwLoc target) true
  let s := s.raise 1538 (route + idx * 2 ^ 10 + kind * 2 ^ 12 + target * 2 ^ 16)
  if s.flag GW_BRK_VALID then s
  else
    let s := (((s.set GW_BRK_KIND kind).set GW_BRK_ROUTE route).set GW_BRK_LEG idx).set GW_BRK_TARGET target
    let s := (s.set GW_BRK_LATE_NS (min late (2 ^ 32 - 1))).setStamp GW_BRK_T_NS.addr release
    s.put GW_BRK_VALID true

/-- Codes of an ABORTED gateway slot that count as a breach when it was not submitted (R252): every refusal of R171 and
a revoked pool, but not an epoch move. -/
def abortBreach (code : Nat) : Bool :=
  [codePortOff, codeFormat, codeBadDesc, codeDlRange, codeDeadline, codeRevoked].contains code

/-- The gateway releases its slot when the slot completes: the copy is gone, the entry of its leg is free, and a copy
aborted before submission is a breach (R242, R252). -/
def State.gatewayEnd (s : State) (k code : Nat) (submitted : Bool) : State :=
  match s.gw.copies.find? (·.slot == some k) with
  | none => s
  | some c =>
    let s := { s with gw := { s.gw with copies := s.gw.copies.filter (·.slot != some k) } }
    let s := s.set (GW_LEG_Q_INUSE c.leg) (s.get (GW_LEG_Q_INUSE c.leg) - 1)
    let s := s.setSlotState k slotFree
    let s := if abortBreach code && !submitted then s.breach c.route c.attr.index c.target 4 c.release 0 else s
    s.updateNpend c.target

/-- The request of a TX slot completes: the slot, its tag, the duplicates that wait for it, and the port's head
(R164, R173, R242). -/
def State.completeTx (s : State) (k state code : Nat) (stamp : Option Nat) : State :=
  let submitted := s.get (MOP_DESC_STATE k) = slotArb || s.get (MOP_DESC_STATE k) = slotOnWire
  let w := stamp.map fun t => (BitVec.ofNat 32 (nsOf t), BitVec.ofNat 32 (secOf t))
  let dups := s.dupsOf k
  let s := (s.endSlot k state code w).tagDone k code
  let r := (s.word (MOP_DESC_W k 6).addr, s.word (MOP_DESC_W k 7).addr)
  let s := s.each dups fun s d => s.endSlot d state code (some r)
  let n := s.get (MOP_DESC_PORT k)
  let s := if s.flag (MOP_PORTHEAD_VALID n) && s.get (MOP_PORTHEAD_SLOT n) = k
    then s.put (MOP_PORTHEAD_VALID n) false else s
  s.gatewayEnd k code submitted

/-! ## QUEUE (R170 to R173) -/

/-- The port's mode and format options carry a frame format (R100). -/
def State.portCarries (s : State) (n fmt : Nat) : Bool :=
  carries (s.get (LP_CFG_MODE n)) (s.flag (BT_CFG_FD_IN_XL n)) fmt

/-- Put a request into the tag window of its pool, newest first, 64 at most; tag 0 and gateway pools keep none
(R172). -/
def State.enterTag (s : State) (p k : Nat) : State :=
  let t := s.get (MOP_DESC_TAG k)
  if t = 0 || s.get (MOP_POOL_CFG1_OWNER p) = 65 then s
  else
    let w := smapFind (fun _ => []) s.store.tags p
    { s with store := { s.store with
        tags := smapPut (fun _ => []) s.store.tags p (({ tag := t, slot := k } :: w).take 64) } }

/-- The tag of a request in its pool's window, when the request is a duplicate (R172). -/
def State.findTag (s : State) (p k : Nat) : Option Tag :=
  let t := s.get (MOP_DESC_TAG k)
  if t = 0 || s.get (MOP_POOL_CFG1_OWNER p) = 65 then none
  else (smapFind (fun _ => []) s.store.tags p).find? (·.tag == t)

/-- The first failing check of QUEUE, as a completion code (R171, checks 1 to 5). -/
def State.queueCheck (s : State) (p k : Nat) : Option Nat :=
  let n := s.get (MOP_POOL_CFG1_PORT p)
  let f := s.slotFrame k
  let dl := s.flag (MOP_DESC_DL_EN k)
  let d := s.get (MOP_DESC_W k 7) * 1000000000 + s.get (MOP_DESC_W k 6)
  if s.get (LP_CFG_MODE n) = 0 then some codePortOff
  else if !s.portCarries n f.fmt then some codeFormat
  else if !lengthRules f || (needsLarge f.len && !s.flag (MOP_POOL_CFG1_BUFCLASS p)) then some codeBadDesc
  else if dl && decide (nsOf s.now + (secOf s.now % 2 ^ 32) * 1000000000 + 2000000000 < d) then some codeDlRange
  else if dl && dueAt s.now d then some codeDeadline
  else none

/-- QUEUE of a STAGED slot of TX pool `p` with a queue time (R171, R173): refused with the code of the first failing
check, or QUEUED; a duplicate takes the completion of its original at once when that is complete. -/
def State.queueSlot (s : State) (p k qtime : Nat) : State :=
  let s := s.put (MOP_DESC_DUP k) false
  match s.queueCheck p k with
  | some code => s.completeTx k slotAborted code none
  | none =>
    match s.findTag p k with
    | some t =>
      let s := (s.setSlotState k slotQueued).put (MOP_DESC_DUP k) true
      match t.result with
      | some (st, code, ns, sec) => s.endSlot k st code (some (ns, sec))
      | none => s.modSlot k fun h => { h with qtime, dupOf := some t.slot }
    | none =>
      let s := s.setSlotState k slotQueued
      (s.modSlot k fun h => { h with qtime, dupOf := none }).enterTag p k

/-! ## Receptions (R178, R183) -/

/-- Words 0 to 7 of a receive slot take a frame; the slot completes as DONE (R161, R178, R180). -/
def State.fillRx (s : State) (k p : Nat) (f : Frame) (stamp wp : Nat) (taint : Bool) (entry : Option Nat)
    (buf : Nat) (code : Nat) : State :=
  let s := (s.setSlotFrame k f).hallStore buf f.data 1025
  let s := (((s.setBuf k buf).put (MOP_DESC_TAINT k) taint).set (MOP_DESC_WP k) wp).set (MOP_DESC_CODE k) code
  let s := s.set (MOP_DESC_ATT k) ((s.get (MOP_DESC_ATT k) + 1) % 256)
  let s := match entry with
    | some i => (s.set (MOP_DESC_MATCH k) i).put (MOP_DESC_MATCHED k) true
    | none => (s.set (MOP_DESC_MATCH k) 0).put (MOP_DESC_MATCHED k) false
  let s := (s.setWord (MOP_DESC_W k 6).addr (BitVec.ofNat 32 (nsOf stamp))).setWord (MOP_DESC_W k 7).addr
    (BitVec.ofNat 32 (secOf stamp))
  let s := (s.set (MOP_DESC_TAG k) 0).setSlotState k slotDone
  let s := { s with store := { s.store with doneSeq := s.store.doneSeq + 1 } }
  let s := s.modSlot k fun h => { h with doneSeq := s.store.doneSeq }
  (s.countCompletion p slotDone code).post k p code (s.slotStamp32 k) 0

/-- A valid frame completes the RX slot taken for it; the SMALL buffer of a replaced frame that needed a LARGE one
returns (R181). -/
def State.completeRx (s : State) (a : Admission) (f : Frame) (stamp wp : Nat) (taint : Bool)
    (entry : Option Nat) : State :=
  let s := s.unholdSlot a.slot
  let s := if a.replaces && a.fresh then s.returnBuf (s.get (MOP_POOL_CFG1_FSP a.pool)) (s.bufOf a.slot) else s
  s.fillRx a.slot a.pool f stamp wp taint entry a.buf (if a.replaces then codeOverwritten else codeOK)

/-- The port whose frame in progress is to replace the frame of slot `k`, with its admission (R181). -/
def State.replacing (s : State) (k : Nat) : Option (Nat × Admission) :=
  s.ports.findSome? fun e => match e.2.search.bind (·.adm) with
    | some a => if a.slot = k && a.replaces then some (e.1, a) else none
    | none => none

/-- A receive slot goes back to FREE and its buffer returns: RELEASE of an RX slot, and the gateway's own release. A frame in
progress that was to replace the released one keeps the slot, and the buffer when it uses that, as its own (R180, R181). -/
def State.releaseRx (s : State) (p k : Nat) : State :=
  let s := s.setSlotState k slotFree
  if s.get (MOP_POOL_CFG1_KIND p) = kindRX then
    match s.replacing k with
    | some (n, a) =>
      let s := s.modPort n fun q => { q with search := q.search.map fun sr =>
        { sr with adm := some { a with replaces := false, fresh := true } } }
      if a.fresh then s.returnBuf (s.get (MOP_POOL_CFG1_FSP p)) (s.bufOf k) else s
    | none => s.returnBuf (s.get (MOP_POOL_CFG1_FSP p)) (s.bufOf k)
  else s

end Sys2Proof.Machine
end

