-- ==== Sys2Proof/Machine/PortOps.lean ====
section
/-! DEFINITION. Shared operations of the bus ports: causes, the energy governor, attempts, soundings, error counters,
bus-off and the physical states (R75 to R93, R117 to R120, R139 to R143, R212 to R229). -/

namespace Sys2Proof.Machine

/-! ## Causes (R96, R125, R153, R234) -/

/-- Source 4n with a cause and an argument in byte 1. -/
def State.lpCause (s : State) (n c b1 : Nat) : State := s.raise (4 * n) (c + b1 % 256 * 256)

/-- Source 4n + 2 with a cause and an argument in byte 1. -/
def State.btCause (s : State) (n c b1 : Nat) : State := s.raise (4 * n + 2) (c + b1 % 256 * 256)

/-- Source 4n + 3 with a cause, an argument in byte 1 and a value in bytes 2 and 3. -/
def State.obsCause (s : State) (n c b1 v : Nat) : State :=
  s.raise (4 * n + 3) (c + b1 % 256 * 256 + v % 65536 * 65536)

/-! ## Modes and timing (R66, R103) -/

/-- The local fallback of a Line die is in force (R17). -/
def State.fallback (s : State) (d : Nat) : Bool := (s.link d).fallback

/-- The port is a CAN-family port. -/
def State.isCan (s : State) (n : Nat) : Bool := isCanMode (s.get (LP_CFG_MODE n))

/-- The port runs 10BASE-T1S. -/
def State.isEth (s : State) (n : Nat) : Bool := s.get (LP_CFG_MODE n) = 6

/-- The bit lengths of a port in samples (R103). -/
def State.bitTimes (s : State) (n : Nat) : BitTimes where
  ta := s.get (BT_PRESC_NBRP n) * (1 + s.get (BT_NTIM_NTSEG1 n) + s.get (BT_NTIM_NTSEG2 n))
  td := s.get (BT_PRESC_DBRP n) * (1 + s.get (BT_DTIM_DTSEG1 n) + s.get (BT_DTIM_DTSEG2 n))
  tx := s.get (BT_PRESC_XBRP n) * (1 + s.get (BT_XTIM_XTSEG1 n) + s.get (BT_XTIM_XTSEG2 n))

/-- The frame as the port sends it: BRS dominant where the port may not switch (R101). -/
def State.txFrame (s : State) (n : Nat) (f : Frame) : Frame :=
  { f with brs := f.brs && s.flag (BT_CFG_BRS_EN n), esi := if f.fmt == fmtEth then f.esi else
      f.fmt != fmtCC && s.get (ECF_STAT_ESTATE n) != 0 }

/-- The reservation of a slot's frame on its port (R89). -/
def State.reservationFor (s : State) (n k : Nat) : Nat :=
  reservationOf (s.get (LP_CFG_MODE n)) (s.txFrame n (s.slotFrame k)) (s.bitTimes n)

/-! ## Slots of the port (R176, R179) -/

/-- The slot that a port has selected or is attempting. -/
def State.headSlot (s : State) (n : Nat) : Option Nat :=
  if s.flag (MOP_PORTHEAD_VALID n) then some (s.get (MOP_PORTHEAD_SLOT n)) else none

/-- A slot that was admitted: ARBITRATING or ON_WIRE. -/
def State.admitted (s : State) (k : Nat) : Bool :=
  s.get (MOP_DESC_STATE k) = slotArb || s.get (MOP_DESC_STATE k) = slotOnWire

/-- The port's admitted slot returns to QUEUED with its queue time; a CANCEL or a revocation that waits for the attempt
then completes it (R179, R232). -/
def State.requeue (s : State) (n : Nat) : State :=
  match s.headSlot n with
  | none => s
  | some k =>
    if s.admitted k then
      let s := (s.setSlotState k slotQueued).put (MOP_PORTHEAD_VALID n) false
      match (s.slotHid k).stop with
      | some c => s.completeTx k slotAborted c none
      | none => s
    else s

/-! ## Governor (R88 to R93) -/

/-- The hidden half of a die's governor. -/
def State.govOf (s : State) (d : Nat) : Governor := smapFind (fun _ => {}) s.gov d

/-- Set the hidden half of a die's governor. -/
def State.setGov (s : State) (d : Nat) (g : Governor) : State := { s with gov := smapPut (fun _ => {}) s.gov d g }

/-- The ports of a Line die. -/
def portsOf (d : Nat) : List Nat := (List.range 64).map (64 * d + ·)

/-- The window sum: 100 buckets and the open reservations, in 1/16 pJ (R88). -/
def State.windowSum (s : State) (d : Nat) : Nat :=
  ((s.govOf d).buckets.take 100).sum + (s.ports.map fun e => if e.1 / 64 = d then e.2.reservation else 0).sum

/-- The budget B: BUDGET_MW, clamped, times 10 ms, in 1/16 pJ (R88). -/
def State.budget (s : State) (d : Nat) : Nat :=
  max 1000 (min 6000 (s.get (LP_GOV_CFG_BUDGET_MW d))) * 10000000 * 16

/-- LP[n].GOV_STAT and GOV_PEAK follow the window sum, in units of 10 µJ rounded down, 65,535 at most (DESIGN CHOICE, log
101), and the queue. -/
def State.govStat (s : State) (d : Nat) : State :=
  let w := min (s.windowSum d / 160000000) 65535
  let s := (s.set (LP_GOV_STAT_WINDOW d) w).set (LP_GOV_STAT_NDEF d) (s.govOf d).queue.length
  s.set (LP_GOV_PEAK_PEAK d) (max (s.get (LP_GOV_PEAK_PEAK d)) w)

/-- Driver energy in 1/16 pJ is metered: into the current bucket, and into LP[n].EMETER in units of 0.1 µJ. -/
def State.meter (s : State) (n e : Nat) : State :=
  let d := dieOf n
  let g := s.govOf d
  let s := s.setGov d { g with buckets := match g.buckets with | [] => [e] | b :: r => (b + e) :: r }
  let total := (s.port n).meterRest + e
  let s := s.modPort n fun p => { p with meterRest := total % 1600000 }
  (s.add (LP_EMETER_E n) (total / 1600000)).govStat d

/-- Energy that a port drove outside an attempt enters the window sum as metered (R91). -/
def State.drives (s : State) (n pj : Nat) : State := if pj = 0 then s else s.meter n (pj * 16)

/-- Admission of a port's next request: the reservation is taken, and its slot enters ARBITRATING (R89, R163). -/
def State.admitPort (s : State) (n k : Nat) : State :=
  let r := s.reservationFor n k
  let s := s.modPort n fun p => { p with reservation := r, deferTick := none, deferFlagged := false }
  ((s.put (LP_STATE_DEFERRED n) false).setSlotState k slotArb).govStat (dieOf n)

/-- The port's next request fits the budget. -/
def State.fits (s : State) (n k : Nat) : Bool :=
  s.windowSum (dieOf n) + s.reservationFor n k ≤ s.budget (dieOf n)

/-- A port leaves the deferred queue of its die. -/
def State.undefer (s : State) (n : Nat) : State :=
  let d := dieOf n
  let g := s.govOf d
  let s := s.setGov d { g with queue := g.queue.filter (· != n) }
  let s := s.modPort n fun p => { p with deferTick := none, deferFlagged := false }
  (s.put (LP_STATE_DEFERRED n) false).govStat d

/-- Admit deferred heads one after another while each fits (R92). -/
def State.admitHeads (s : State) (d : Nat) : Nat → State
  | 0 => s
  | fuel + 1 =>
    match (s.govOf d).queue with
    | [] => s
    | n :: _ =>
      match s.headSlot n with
      | none => (s.undefer n).admitHeads d fuel
      | some k => if s.fits n k then ((s.undefer n).admitPort n k).admitHeads d fuel else s

/-- The governor re-evaluates the head of the queue (R92). -/
def State.evaluate (s : State) (d : Nat) : State := (s.admitHeads d 64).govStat d

/-- A port's reservation is released (R89), and the governor re-evaluates its queue. -/
def State.releaseReservation (s : State) (n : Nat) : State :=
  if (s.port n).reservation = 0 then s
  else (s.modPort n fun p => { p with reservation := 0 }).evaluate (dieOf n)

/-! ## Attempts (R179, R213) -/

/-- The attempt in progress and the admission end without a completion: the slot returns to QUEUED and its reservation
is released (R179). -/
def State.dropAttempt (s : State) (n : Nat) : State :=
  let s := s.modPort n fun p => { p with attempt := none, collisions := 0 }
  (s.requeue n).releaseReservation n

/-- An attempt is abandoned because the physical state leaves ACTIVE, or by a forced move: MISC.ABANDON counts it on a
CAN-family port (R213). -/
def State.abandonAttempt (s : State) (n : Nat) : State :=
  let s := s.when ((s.port n).attempt.isSome && s.isCan n) fun s => s.inc (ECF_MISC_ABANDON n)
  s.dropAttempt n

/-- A request of the port has completed: the attempt is over and the reservation released (R89). -/
def State.requestEnd (s : State) (n : Nat) : State :=
  (s.modPort n fun p => { p with attempt := none, collisions := 0 }).releaseReservation n

/-! ## Searches (R180) -/

/-- The frame now on the port ends without a result: every slot and buffer taken for it returns. -/
def State.cancelSearch (s : State) (n : Nat) : State :=
  match (s.port n).search with
  | none => s
  | some sr =>
    let s := match sr.adm with
      | some a => s.cancelAdmission a
      | none => s
    s.modPort n fun p => { p with search := none }

/-! ## Observation (R139, R143, R148, R152) -/

/-- The hidden half of a port's observation. -/
def State.obsPort (s : State) (n : Nat) : ObsPort := smapFind (fun _ => {}) s.obs.ports n

/-- Change the hidden half of a port's observation. -/
def State.modObs (s : State) (n : Nat) (f : ObsPort → ObsPort) : State :=
  { s with obs := { s.obs with ports := smapPut (fun _ => {}) s.obs.ports n (f (s.obsPort n)) } }

/-- The sounding units of a die. -/
def State.sounding (s : State) (d : Nat) : Sounding := smapFind (fun _ => {}) s.obs.dies d

/-- Set the sounding units of a die. -/
def State.setSounding (s : State) (d : Nat) (u : Sounding) : State :=
  { s with obs := { s.obs with dies := smapPut (fun _ => {}) s.obs.dies d u } }

/-- The port and start tick of a unit. -/
def Sounding.unit (u : Sounding) (i : Nat) : Option (Nat × Nat) := smapFind (fun _ => none) u.units i

/-- Give a unit a port, or free it. -/
def Sounding.setUnit (u : Sounding) (i : Nat) (v : Option (Nat × Nat)) : Sounding :=
  { u with units := smapPut (fun _ => none) u.units i v }

/-- The unit that a port's sounding holds. -/
def Sounding.unitOf (u : Sounding) (n : Nat) : Option Nat :=
  (List.range 4).find? fun i => match u.unit i with | some (m, _) => m == n | none => false

/-- A sounding of the port is queued or running. -/
def State.sndBusy (s : State) (n : Nat) : Bool :=
  s.get (OBS_SND_STAT_STATE n) = 1 || s.get (OBS_SND_STAT_STATE n) = 2 || s.get (OBS_SND_STAT_STATE n) = 3

/-- The physical state permits a sounding (R139). -/
def State.sndPermitted (s : State) (n : Nat) : Bool :=
  let p := s.get (LP_STATE_PSTATE n)
  if s.isCan n then 1 ≤ p && p ≤ 4 else s.isEth n && (p = 3 || p = 4)

/-- Put a request in order of request, the lower port number first at equal time (R139). -/
def insertRequest (t n : Nat) : List (Nat × Nat) → List (Nat × Nat)
  | [] => [(t, n)]
  | x :: xs => if x.1 < t || (x.1 = t && x.2 ≤ n) then x :: insertRequest t n xs else (t, n) :: x :: xs

/-- Queue a sounding of the port for the next free unit (R139). -/
def State.sndQueue (s : State) (n : Nat) : State :=
  let u := s.sounding (dieOf n)
  (s.setSounding (dieOf n) { u with queue := insertRequest s.ticks n u.queue }).set (OBS_SND_STAT_STATE n) 1

/-- Queue a sounding that R154 would accept; nothing happens otherwise (R230). -/
def State.sndRequest (s : State) (n : Nat) : State :=
  if s.ready 18 && s.ready (lineBit n) && !s.sndBusy n && s.sndPermitted n then s.sndQueue n else s

/-- A sounding leaves the queue and its unit. -/
def State.sndLeave (s : State) (n : Nat) : State :=
  let u := s.sounding (dieOf n)
  let u := { u with queue := u.queue.filter (·.2 != n) }
  s.setSounding (dieOf n) (match u.unitOf n with | some i => u.setUnit i none | none => u)

/-- A sounding ends without a result, in state ABORTED 5 or TIMEOUT 6 (R143). -/
def State.sndEnd (s : State) (n st : Nat) : State :=
  ((s.sndLeave n).set (OBS_SND_STAT_STATE n) st).obsCause n 0x05 1 st

/-- End the port's sounding as ABORTED when one is queued or running. -/
def State.sndAbort (s : State) (n : Nat) : State := if s.sndBusy n then s.sndEnd n 5 else s

/-- A unit is recording for the port: its pulses have started, and it does not wait for quiet (R140). -/
def State.recording (s : State) (n : Nat) : Bool :=
  let u := s.sounding (dieOf n)
  match u.unitOf n with
  | some i => s.get (OBS_SND_STAT_STATE n) = 2 && !u.waiting.contains i
  | none => false

/-- An edge or a transmission start falls in a record of the port: it is discarded, and the unit waits for quiet again
(R140). -/
def State.discardRecord (s : State) (n : Nat) : State :=
  let u := s.sounding (dieOf n)
  match u.unitOf n with
  | some i => if s.recording n then s.setSounding (dieOf n) { u with waiting := u.waiting ++ [i] } else s
  | none => s

/-- A running census ends as ABORTED (R148). -/
def State.cenAbort (s : State) (n : Nat) : State :=
  if s.get (OBS_STAT_CEN n) = 1 then (s.set (OBS_STAT_CEN n) 3).obsCause n 0x05 2 0 else s

/-- The census trackers start empty (R144, R146). -/
def State.clearTrackers (s : State) (n : Nat) : State := s.modObs n fun o => { o with seen := [], cenFirst := true }

/-- A running enrolment ends as ABORTED (R152). Its sums stay as they are: guard bits are checked at completion only (DESIGN
CHOICE, log 108). -/
def State.enrAbort (s : State) (n : Nat) : State :=
  if s.get (OBS_STAT_ENR n) = 1 then (s.set (OBS_STAT_ENR n) 3).obsCause n 0x05 3 0 else s

/-- The capture stops after the packet in progress; an armed capture has none (R149, R152). -/
def State.capStopLater (s : State) (n : Nat) : State :=
  if s.get (OBS_CAP_STAT_STATE n) = 0 then s
  else if s.get (OBS_CAP_STAT_STATE n) = 1 then s.set (OBS_CAP_STAT_STATE n) 0
  else s.modObs n fun o => { o with capStop := true }

/-- A capture without samples. -/
def ObsPort.capClear (o : ObsPort) : ObsPort :=
  { o with capLeft := 0, capGap := false, capStop := false, capBuf := [], capTrigs := [] }

/-- The oldest `k` samples leave the buffer of a capture with decimation exponent `d`; a sample lasts 6.25 ns × 2^d
(R150). -/
def ObsPort.capDrop (o : ObsPort) (k d : Nat) : ObsPort :=
  { o with
    capBuf := o.capBuf.drop k, capTime := o.capTime + k * 25 * 2 ^ d,
    capTrigs := (o.capTrigs.filter (k ≤ ·)).map (· - k) }

/-- A trigger of a capture in TRIGGERED mode, when CAP_CFG.TRIG enables it (R149): PRE × 256 samples of the buffer, the next
sample and the post-trigger part are streamed, or the post-trigger part is extended. -/
def State.capTrigger (s : State) (n bit : Nat) : State :=
  if s.get (OBS_CAP_CFG_MODE n) = 2 && s.get (OBS_CAP_STAT_STATE n) != 0
      && (s.get (OBS_CAP_CFG_TRIG n)).testBit bit then
    let post := (max 1 (s.get (OBS_CAP_CFG_POST n))) * 2560
    let pre := min 16 (s.get (OBS_CAP_CFG_PRE n)) * 256
    let armed := s.get (OBS_CAP_STAT_STATE n) = 1
    let s := s.modObs n fun o =>
      let o := if armed then o.capDrop (o.capBuf.length - pre) (s.get (OBS_CAP_CFG_DEC n)) else o
      { o with capLeft := max o.capLeft (o.capBuf.length + 1 + post), capTrigs := o.capTrigs ++ [o.capBuf.length] }
    if armed then s.set (OBS_CAP_STAT_STATE n) 2 else s
  else s

/-- The front end of a port stops: A2, A3, Off or mode OFF (R128, R152). -/
def State.frontEndStop (s : State) (n : Nat) : State :=
  let s := (((s.sndAbort n).cenAbort n).enrAbort n).capStopLater n
  if s.pwr.state = .a2 then s else s.clearTrackers n

/-! ## Bit engine (R117 to R119) -/

/-- Bit-engine state of a port. -/
def State.bstate (s : State) (n : Nat) : Nat := s.get (BT_STAT_BSTATE n)

/-- Put the bit engine in a state. -/
def State.setB (s : State) (n b : Nat) : State := s.set (BT_STAT_BSTATE n) b

/-- RXONLY: the physical state is not ACTIVE, or MONITOR is in effect (R118). -/
def State.rxOnly (s : State) (n : Nat) : State :=
  s.put (BT_STAT_RXONLY n) (s.get (LP_STATE_PSTATE n) != 1 || (s.port n).opMode = 2)

/-- A written OPMODE takes effect (R119). In RESTRICTED and MONITOR the admitted slot returns to QUEUED (R179). -/
def State.applyOpmode (s : State) (n : Nat) : State :=
  match (s.port n).opPending with
  | none => s
  | some m =>
    let s := s.modPort n fun p => { p with opMode := m, opPending := none }
    let s := if m = 0 then s else ((s.dropAttempt n).undefer n)
    s.rxOnly n

/-- The port may start a transmission: its Line die ready, ACTIVE with its driver enabled, NORMAL, not bus-off, and PLCA
status OK where it applies (R32, R114, R118, R119, R218, R369). -/
def State.canSend (s : State) (n : Nat) : Bool :=
  s.ready (lineBit n) && s.get (LP_STATE_PSTATE n) = 1 && s.flag (LP_STATE_DRV n) && (s.port n).opMode = 0
    && s.get (ECF_STAT_ESTATE n) != 2
    && (!s.isEth n || s.flag (LP_CFG_P2P n) || s.get (BT_PLCA_NODE_ID n) = 0 || s.flag (BT_PLCA_STAT_OK n))

/-! ## Error states (R216 to R229) -/

/-- The warning level; 0 acts as 96 (R212). -/
def State.warnLim (s : State) (n : Nat) : Nat :=
  if s.get (ECF_CFG_WARN_LIM n) = 0 then 96 else s.get (ECF_CFG_WARN_LIM n)

/-- The bus-off entries of the GUARDED history within the last WIN seconds; WIN 0 acts as 1 (R221). -/
def State.boCount (s : State) (n : Nat) : Nat :=
  let win := max 1 (s.get (ECF_GUARD_WIN n)) * 500000000
  ((s.port n).boTicks.filter fun t => s.ticks < t + win).length

/-- The HOLDOFF length for history k, in ticks (R221). -/
def State.holdTicks (s : State) (n k : Nat) : Nat :=
  let base := min 1000 (max 1 (s.get (ECF_GUARD_BASE n)))
  ticksOfMs (base * 2 ^ min (k - 1) (min 10 (s.get (ECF_GUARD_MAXSH n))))

/-- The first recovery step of a bus-off that the counters caused (R219, R221). -/
def State.recoveryStep (s : State) (n : Nat) : State :=
  match s.get (ECF_CFG_MODE n) with
  | 0 => s.set (ECF_STAT_RSTEP n) 2
  | 1 =>
    let k := s.boCount n
    let lim := s.get (ECF_GUARD_LIMIT n)
    if lim != 0 && lim ≤ k then
      (((s.set (ECF_STAT_RSTEP n) 3).put (ECF_BO_ESC n) true).btCause n 0x26 (min k 255)).report (4 * n + 2) 0x05
    else (s.modPort n fun p => { p with holdEnd := s.ticks + s.holdTicks n k }).set (ECF_STAT_RSTEP n) 1
  | _ => s.set (ECF_STAT_RSTEP n) 3

/-- Entry to BUS_OFF, by TEC or by quarantine (R218, R227); without a die link it has no timestamp (R28). -/
def State.enterBusOff (s : State) (n : Nat) (quar : Bool) : State :=
  let s := s.dropAttempt n
  let s := (s.undefer n).put (MOP_PORTHEAD_VALID n) false
  let s := if s.fallback (dieOf n) then s else s.setStamp (ECF_BO_T_NS n).addr s.now
  let s := ((s.set (ECF_STAT_ESTATE n) 2).inc (ECF_BO_TOTAL n)).put (ECF_BO_CAUSE n) quar
  let s := ((s.put (ECF_BO_ESC n) false).set (ECF_STAT_SEQ n) 0).put (ECF_STAT_QPEND n) false
  let s := s.modPort n fun p => { p with
    boTick := s.ticks, boTicks := if quar then p.boTicks else (s.ticks :: p.boTicks).take 255 }
  let s := (s.when (s.bstate n != 0) fun s => s.setB n 7).put (BT_STAT_PHASE n) false
  let s := (s.btCause n 0x23 (if quar then 1 else 0)).occur (4 * n + 2) 0x04
  let s := if quar then s.set (ECF_STAT_RSTEP n) 4 else s.recoveryStep n
  s.when (s.flag (ECF_CFG_SND_BO n)) fun s => s.sndRequest n

/-- A pending quarantine takes effect; a recovery in progress ends (R227). -/
def State.quarantine (s : State) (n : Nat) : State := s.enterBusOff n true

/-- The bit engine enters IDLE: a written OPMODE applies, and a pending quarantine takes effect (R119, R227). -/
def State.enterIdle (s : State) (n : Nat) : State :=
  let s := ((s.setB n 2).put (BT_STAT_PHASE n) false).applyOpmode n
  if s.flag (ECF_STAT_QPEND n) then s.quarantine n else s

/-- The bit engine enters INTEGRATING; OPMODE and a pending quarantine take effect at once (R119, R227). A reception in
progress can only come from IDLE or RECEIVING (R118). -/
def State.integrate (s : State) (n : Nat) : State :=
  let rx := s.bstate n = 2 || s.bstate n = 3
  let s := s.modPort n fun p => { p with intTick := if rx then some s.ticks else none }
  let s := ((s.setB n 1).put (BT_STAT_PHASE n) false).applyOpmode n
  if s.flag (ECF_STAT_QPEND n) then s.quarantine n else s

/-- The slope of a counter over the current bucket and the WIN − 1 before it (R228). -/
def State.slopeSum (s : State) (n : Nat) (b : List Nat) : Nat := (b.take (max 1 (s.get (ECF_SLOPE_WIN n)))).sum

/-- Put an increase into the current 1 ms bucket. -/
def addBucket (b : List Nat) (k : Nat) : List Nat :=
  match b with
  | [] => [k]
  | x :: xs => (x + k) :: xs

/-- An increase enters the slope of TEC or REC, and may set the warning (R228, R229). -/
def State.slopeAdd (s : State) (n k : Nat) (rec : Bool) : State :=
  let s := s.modPort n fun p =>
    if rec then { p with slopeR := addBucket p.slopeR k } else { p with slopeT := addBucket p.slopeT k }
  let th := s.get (ECF_SLOPE_TH n)
  let sum := s.slopeSum n (if rec then (s.port n).slopeR else (s.port n).slopeT)
  if th != 0 && th ≤ sum && !s.flag (ECF_STAT_SLOPE n) then
    let s := ((s.put (ECF_STAT_SLOPE n) true).inc (ECF_MISC_SLOPEW n)).btCause n 0x25 (if rec then 1 else 0)
    s.when (s.flag (ECF_CFG_SND_SLOPE n)) fun s => s.sndRequest n
  else s

/-- WARN follows the counters and WARN_LIM; cause 0x20 with byte 1 `b` when it sets (R217). -/
def State.warnState (s : State) (n b : Nat) : State :=
  let w := decide (s.warnLim n ≤ s.get (ECF_CNT_TEC n)) || decide (s.warnLim n ≤ s.get (ECF_CNT_REC n))
  (s.when (w && !s.flag (ECF_STAT_WARN n)) fun s => s.btCause n 0x20 b).put (ECF_STAT_WARN n) w

/-- Warning level and error state follow the counters after a change of TEC or REC (R216, R217): cause 0x20, then 0x21,
then bus-off. -/
def State.errorState (s : State) (n : Nat) (rec : Bool) : State :=
  let b := if rec then 1 else 0
  let tec := s.get (ECF_CNT_TEC n)
  let rc := s.get (ECF_CNT_REC n)
  let s := s.warnState n b
  let s :=
    if s.get (ECF_STAT_ESTATE n) = 0 && (decide (127 < tec) || decide (127 < rc)) then
      (s.set (ECF_STAT_ESTATE n) 1).btCause n 0x21 b
    else if s.get (ECF_STAT_ESTATE n) = 1 && decide (tec ≤ 127) && decide (rc ≤ 127) then
      (s.set (ECF_STAT_ESTATE n) 0).btCause n 0x22 0
    else s
  if tec = 256 && s.get (ECF_STAT_ESTATE n) != 2 then s.enterBusOff n (s.flag (ECF_STAT_QPEND n)) else s

/-- TEC increases by `k` (R212); frozen in BUS_OFF (R218). -/
def State.tecUp (s : State) (n k : Nat) : State :=
  if s.get (ECF_STAT_ESTATE n) = 2 then s
  else
    let v := s.get (ECF_CNT_TEC n) + k
    let s := s.set (ECF_CNT_TEC n) (if 255 < v then 256 else v)
    (s.errorState n false).slopeAdd n k false

/-- REC increases by `k`; 255 at most (R212). -/
def State.recUp (s : State) (n k : Nat) : State :=
  if s.get (ECF_STAT_ESTATE n) = 2 then s
  else ((s.set (ECF_CNT_REC n) (min 255 (s.get (ECF_CNT_REC n) + k))).errorState n true).slopeAdd n k true

/-- A successful transmission lowers TEC by 1 (R212, ISO 11898-1). -/
def State.tecDown (s : State) (n : Nat) : State :=
  if s.get (ECF_STAT_ESTATE n) = 2 then s
  else (s.set (ECF_CNT_TEC n) (s.get (ECF_CNT_TEC n) - 1)).errorState n false

/-- A successful reception lowers REC by 1, or sets it to 120 when it was above 127 (R212). -/
def State.recDown (s : State) (n : Nat) : State :=
  if s.get (ECF_STAT_ESTATE n) = 2 then s
  else
    let v := s.get (ECF_CNT_REC n)
    (s.set (ECF_CNT_REC n) (if 127 < v then 120 else v - 1)).errorState n true

/-- COUNTING starts with SEQ 0 (R220). -/
def State.startCounting (s : State) (n : Nat) : State := (s.set (ECF_STAT_RSTEP n) 2).set (ECF_STAT_SEQ n) 0

/-! ## Fault events (R81 to R85) -/

/-- LP[n].FAULT.LAST_E in units of 0.1 µJ, rounded down (DESIGN CHOICE, log 101), from an energy in 1/16 pJ. -/
def State.lastEnergy (s : State) (n e : Nat) : State := s.set (LP_FAULT_LAST_E n) (min (e / 1600000) 65535)

/-- A fault event ends with the driver off: the fifth failed retry latches the port, else the port waits 10 ms
(R81, R84). -/
def State.endEvent (s : State) (n : Nat) : State :=
  match (s.port n).event with
  | none => s
  | some e =>
    let s := (s.modPort n fun p => { p with event := none }).lastEnergy n e
    if s.get (LP_STATE_RETRY n) = 5 then
      let s := (s.modPort n fun p => { p with latched := true, faultOff := none }).put (LP_STATE_PENDING n) false
      (s.lpCause n 0x03 0).occur (4 * n) 0x03
    else s.modPort n fun p => { p with faultOff := some s.ticks }

/-! ## Physical states (R75 to R80) -/

/-- The first applicable physical state (R76). -/
def State.pstateNow (s : State) (n : Nat) : Nat :=
  if s.get (LP_CFG_MODE n) = 0 then 0
  else if s.asleep then (if s.flag (LP_CFG_WATCH n) then 7 else 6)
  else if s.flag CUR_STAT_SAFE || s.fallback (dieOf n) then 5
  else if (s.port n).latched then 3
  else if s.flag (LP_CTRL_DRV_DIS n) then 4
  else if (s.port n).faultOff.isSome then 2
  else 1

/-- The engine is STOPPED in OFF, SLEEP and SLEEP_WATCH (R117). -/
def stopsEngine (p : Nat) : Bool := p = 0 || p = 6 || p = 7

/-- A fault event in progress is cut: its energy is metered on to driver turn-off by FAULT_EVENT_END (R82, R85). -/
def State.cut (s : State) (n : Nat) : State :=
  s.modPort n fun p => { p with cutEvent := if p.event.isSome then p.event else p.cutEvent }

/-- The port leaves ACTIVE: the driver stops, the attempt is abandoned, a fault event in progress ends, and the engine is
receive-only (R79, R80, R85, R120, R179). An engine that was TRANSMITTING goes on as RECEIVING (DESIGN CHOICE, log 104). -/
def State.leaveActive (s : State) (n : Nat) : State :=
  let s := ((s.abandonAttempt n).undefer n).put (LP_STATE_DRV n) false
  let s := (s.cut n).endEvent n
  s.when (s.bstate n = 4) fun s => s.setB n 3

/-- The engine stops; a recovery count returns to 0 (R117, R224). -/
def State.stopEngine (s : State) (n : Nat) : State :=
  let s := ((s.cancelSearch n).setB n 0).put (BT_STAT_PHASE n) false
  let s := s.when (s.get (ECF_STAT_RSTEP n) = 2) fun s => s.set (ECF_STAT_SEQ n) 0
  (s.applyOpmode n).frontEndStop n

/-- The engine leaves STOPPED; a bus-off port goes on to BUS_OFF in the same cycle (R117, R224). -/
def State.startEngine (s : State) (n : Nat) : State :=
  let s := s.integrate n
  s.when (s.get (ECF_STAT_ESTATE n) = 2) fun s => s.setB n 7

/-- The driver of an ACTIVE port is enabled once the curator is ready; FOLDED then clears (R81, R369). -/
def State.driver (s : State) (n : Nat) : State :=
  if s.get (LP_STATE_PSTATE n) = 1 && s.ready 2 then
    (s.put (LP_STATE_DRV n) true).put (LP_STATE_FOLDED n) (s.flag (LP_STATE_FOLDED n) && (s.port n).event.isSome)
  else s.put (LP_STATE_DRV n) false

/-- The physical state follows its conditions, with every effect of the change (R75 to R80, R117, R118, R143). -/
def State.refreshPort (s : State) (n : Nat) : State :=
  let old := s.get (LP_STATE_PSTATE n)
  let s := s.when (old = 1 && s.pstateNow n != 1) fun s => s.leaveActive n
  let new := s.pstateNow n
  if new = old then s.driver n
  else
    let s := s.set (LP_STATE_PSTATE n) new
    let s := s.when (new = 2 && old != 1) fun s => s.modPort n fun p => { p with faultOff := some s.ticks }
    let s := s.when (new = 7) fun s => s.modPort n fun p => { p with wakeErrs := 0 }
    let s := s.when (stopsEngine new && !stopsEngine old) fun s => s.stopEngine n
    let s := s.when (stopsEngine old && !stopsEngine new) fun s => s.startEngine n
    let s := s.when (new = 1 && 2 ≤ old && old ≤ 5 && 2 ≤ s.bstate n && s.bstate n ≤ 5) fun s => s.integrate n
    let s := s.when (new = 5) fun s => (s.sndAbort n).lpCause n 0x07 0
    let s := s.when (old = 5) fun s => s.lpCause n 0x08 0
    let s := s.when (s.sndBusy n && !s.sndPermitted n) fun s => s.sndEnd n 5
    (s.driver n).rxOnly n

/-- Every port of a Line die follows its conditions. -/
def State.refreshDie (s : State) (d : Nat) : State := s.each (portsOf d) fun s n => s.refreshPort n

/-- Every port follows its conditions. -/
def State.refreshPorts (s : State) : State := (s.refreshDie 0).refreshDie 1

/-- A port reset (R80, R126, R152, R179, R224): the driver turns off at once, latch, retry and wait clear, STATE, live
wire bits, MEAS, BT STAT and TDCV return to reset values, and the port reintegrates. -/
def State.portReset (s : State) (n : Nat) : State :=
  let s := (s.abandonAttempt n).undefer n
  let s := s.when ((s.port n).event.isSome) fun s => s.lastEnergy n ((s.port n).event.getD 0)
  let s := (s.cut n).cancelSearch n
  let s := s.modPort n fun p =>
    { p with latched := false, faultOff := none, event := none, streak := [], collisions := 0, lastRx := none }
  let s := (s.endCond (4 * n) 0x03).endCond (4 * n) 0x02
  let p := s.get (LP_STATE_PSTATE n)
  let s := ((s.setWord (LP_STATE_PSTATE n).addr 0).set (LP_WIRE_LIVE n) 0).setWord (LP_MEAS_LOAD n).addr 0
  let s := (s.setWord (BT_STAT_BSTATE n).addr 0).set (BT_TDC_TDCV n) 0
  let s := ((s.sndAbort n).cenAbort n).clearTrackers n
  let s := s.enrAbort n
  let new := s.pstateNow n
  let s := s.set (LP_STATE_PSTATE n) new
  let s := s.when (p != 5 && new = 5) fun s => s.lpCause n 0x07 0
  let s := s.when (!stopsEngine new) fun s => s.startEngine n
  (s.driver n).rxOnly n

end Sys2Proof.Machine
end

