-- ==== Sys2Proof/Machine/Catalogue.lean ====
section
/-! DEFINITION. The acceptance catalogue: keys, matching, searches with admission, and live updates (R189 to R211). -/

namespace Sys2Proof.Machine

/-! ## Keys and matching (R189, R190, R197) -/

/-- What a frame presents to the catalogue. -/
structure CatKey where
  fmt : Nat
  rmt : Bool
  ide : Bool
  id : Nat
  sdt : Nat := 0
  vcid : Nat := 0
  af : Nat := 0
  deriving DecidableEq, Repr

/-- The destination address of an Ethernet frame, first byte most significant. -/
def destAddr (f : Frame) : Nat := beNat (f.data.take 6)

/-- The Ethernet key (R190): tag present, VLAN identifier, EtherType after the tag. -/
def ethKey (f : Frame) : Nat :=
  let t := beNat ((f.data.drop 12).take 2)
  if t = 0x8100 then 2 ^ 28 + (beNat ((f.data.drop 14).take 2) % 4096) * 2 ^ 16 + beNat ((f.data.drop 16).take 2)
  else t

/-- A 10BASE-T1S frame is presented: a group address, the port's own address, or PROMISC (R190). -/
def State.presented (s : State) (n : Nat) (f : Frame) : Bool :=
  (destAddr f).testBit 40
    || destAddr f == s.get (CAT_PADDR_HI_ADDR n) * 2 ^ 32 + s.get (CAT_PADDR_LO_ADDR n)
    || s.flag (CAT_PBIND_PROMISC n)

/-- The key of a frame. -/
def catKey (f : Frame) : CatKey :=
  if f.fmt == fmtEth then { fmt := fmtEth, rmt := false, ide := true, id := ethKey f }
  else { fmt := f.fmt, rmt := f.rmt && f.fmt == fmtCC, ide := f.ide,
         id := if f.ide then f.id % 2 ^ 29 else f.id % 2 ^ 11, sdt := f.sdt, vcid := f.vcid, af := f.af }

/-- Word `w` of entry `i` as a frame with start-of-frame time `sof` sees it: the content before the command in progress
when `sof` is earlier than its U (R206). -/
def State.entryWord (s : State) (sof i w : Nat) : Word :=
  match s.cat.applied with
  | some (u, j, old) => if i = j && decide (sof < u) then old.getD w 0 else s.word (CAT_ENTRY_W i w).addr
  | none => s.word (CAT_ENTRY_W i w).addr

/-- An entry's words match a key (table "Match conditions", R197). -/
def entryMatches (w : Nat → Word) (k : CatKey) : Bool :=
  let w0 := w 0
  let kind := bitsOf w0 0 3
  let id := bitsOf (w 1) 0 29
  let mask := bitsOf (w 2) 0 29
  let ide := (bitsOf w0 7 1 == 1) == k.ide
  let fmtOk := (bitsOf w0 3 4).testBit k.fmt
  let r := bitsOf w0 8 2
  let rmtOk := 2 ≤ r || (r == 1) == k.rmt
  match kind with
  | 1 => fmtOk && rmtOk && ide && k.id == id
  | 2 => fmtOk && rmtOk && ide && (k.id &&& mask) == id
  | 3 => fmtOk && rmtOk && ide && id ≤ k.id && k.id ≤ mask
  | 4 =>
    let m := (w 3).toNat
    let sm := m / 2 ^ 8 % 256
    let vm := m / 2 ^ 24 % 256
    let am := (w 5).toNat
    k.fmt == fmtXL && (k.id &&& mask) == id && (k.sdt &&& sm) == (m % 256 &&& sm)
      && (k.vcid &&& vm) == (m / 2 ^ 16 % 256 &&& vm) && (k.af &&& am) == ((w 4).toNat &&& am)
  | _ => false

/-- The hash of an exact key (R199). -/
def catHash (ide : Bool) (id : Nat) : Nat :=
  let k := id % 2 ^ 29 + if ide then 2 ^ 31 else 0
  (k % 2 ^ 11) ^^^ (k / 2 ^ 11 % 2 ^ 11) ^^^ (k / 2 ^ 22)

/-- Indexes of the hash area. -/
def TableVer.hashLen (t : TableVer) : Nat := if t.hash then 4 * 2 ^ t.hbits else 0

/-- The first index of the ordered area (R193). -/
def TableVer.ordBase (t : TableVer) : Nat := t.base + t.hashLen

/-- The four ways of the bucket that a key selects; none without a hash area (R199). -/
def TableVer.ways (t : TableVer) (ide : Bool) (id : Nat) : List Nat :=
  if t.hash then (List.range 4).map (t.base + 4 * (catHash ide id % 2 ^ t.hbits) + ·) else []

/-- Index `i` lies in the ordered area. -/
def TableVer.inOrdered (t : TableVer) (i : Nat) : Bool := t.ordBase ≤ i && i < t.ordBase + t.nord

/-- Index `i` lies in the table. -/
def TableVer.inTable (t : TableVer) (i : Nat) : Bool := t.base ≤ i && i < t.ordBase + t.nord

/-- The indexes of a table that a key can meet, in match order (R200). -/
def TableVer.indexes (t : TableVer) (k : CatKey) : List Nat :=
  t.ways k.ide k.id ++ (List.range t.nord).map (t.ordBase + ·)

/-- The first matching entry of a port's tables (R200): primary before shared, hash area before ordered area. -/
def State.catLookup (s : State) (n sof : Nat) (k : CatKey) : Option Nat :=
  ((smapFind (fun _ => []) s.cat.bind n).flatMap fun t => t.indexes k).find? fun i =>
    entryMatches (s.entryWord sof i) k

/-! ## Searches (R180, R191) -/

/-- The candidate of a format and remote flag: the entry, and its words as the search meets them (R191, R201). -/
def State.candOf (s : State) (sof fmt : Nat) (rmt : Bool) (e : Option Nat) : Cand where
  fmt := fmt
  rmt := rmt
  entry := e
  words := match e with
    | some i => (List.range 8).map (s.entryWord sof i)
    | none => []

/-- The destination that the words of an entry name: DKIND and DEST. -/
def entryDest (ws : List Word) : Nat × Nat := (bitsOf (ws.getD 6 0) 16 2, bitsOf (ws.getD 6 0) 0 16)

/-- The RX pool of an owner on a port (R157, R195). -/
def State.rxPool (s : State) (n owner : Nat) : Option Nat :=
  (s.poolsOn kindRX n).find? fun p => s.get (MOP_POOL_CFG1_OWNER p) = owner

/-- Take a slot and a buffer for a frame whose result, an entry with words `ws`, names a route or a station (R180, R181,
R237). The flag says that the frame was refused. -/
def State.admitFor (s : State) (n len : Nat) (ws : List Word) : Option Admission × Bool × State :=
  let (dk, dest) := entryDest ws
  let prio := bitsOf (ws.getD 0 0) 10 1 = 1
  if dk = 1 then (none, false, s)
  else
    match s.rxPool n (if dk = 2 then 65 else dest) with
    | none => (none, true, s)
    | some p =>
      match s.admitFrame p len prio with
      | some (a, s') => (some a, false, s')
      | none => (none, true, s)

/-- The candidate that holds for a format and remote flag. -/
def Search.pick (sr : Search) (fmt : Nat) (rmt : Bool) : Option Cand :=
  sr.cands.find? fun c => c.fmt == fmt && c.rmt == rmt

/-- The search of a frame: one candidate for each combination of format and remote flag that the port's mode lets it
take; for the frame's own combination, when it is complete, a slot and a buffer are taken (R180, R191). -/
def State.searchFrame (s : State) (n sof : Nat) (f : Frame) : State :=
  let s := s.cancelSearch n
  let key := catKey f
  let combos : List (Nat × Bool) :=
    if f.fmt == fmtEth then [(fmtEth, false)]
    else [(fmtCC, false), (fmtCC, true), (fmtFD, false), (fmtXL, false)].filter fun c => s.portCarries n c.1
  let cands := combos.map fun c =>
    s.candOf sof c.1 c.2 (if c.1 == fmtXL || (c.1 == fmtEth && !s.presented n f) then none
      else s.catLookup n sof { key with fmt := c.1, rmt := c.2 })
  let sr : Search := { sof, cands }
  match sr.pick key.fmt key.rmt with
  | none => s.modPort n fun p => { p with search := some sr }
  | some c =>
    if c.entry.isNone then s.modPort n fun p => { p with search := some sr }
    else
      let (adm, refused, s) := s.admitFor n f.len c.words
      s.modPort n fun p => { p with search := some { sr with adm, refused } }

/-- Complete the XL candidate, once (R191). -/
def State.completeXl (s : State) (n : Nat) (f : Frame) : State :=
  match (s.port n).search with
  | none => s
  | some sr =>
    if sr.xl then s
    else
      let c := s.candOf sr.sof fmtXL false (s.catLookup n sr.sof (catKey f))
      let sr := { sr with xl := true, cands := sr.cands.map fun d => if d.fmt == fmtXL then c else d }
      if c.entry.isNone then s.modPort n fun p => { p with search := some sr }
      else
        let (adm, refused, s) := s.admitFor n f.len c.words
        s.modPort n fun p => { p with search := some { sr with adm, refused } }

/-- CATALOGUE_SEARCH: at the end of the identifier field of a frame on port `n` with start-of-frame time `sof` (R191); an
engine in IDLE is receiving since that start-of-frame (R117). A port whose Line die has lost its link gets no result
(R28). -/
def execCatalogueSearch (n : PortNo) (sof : Nat) (f : Frame) (s : State) : Out :=
  .next <|
    let s := (if s.bstate n = 2 then s.setB n 3 else s).discardRecord n
    if s.fallback (dieOf n) then s else s.searchFrame n sof f

/-- XL_CANDIDATE_COMPLETE: SDT, VCID and AF are known (R191); they lie in the data phase (R106). -/
def execXlCandidateComplete (n : PortNo) (f : Frame) (s : State) : Out :=
  .next <|
    if f.fmt != fmtXL then s
    else
      let s := s.when (s.bstate n = 3) fun s => s.put (BT_STAT_PHASE n) true
      if s.fallback (dieOf n) then s else s.completeXl n f

/-! ## Live updates (R203 to R209) -/

/-- The governing version of a table, from the table registers. -/
def State.tableOf (s : State) (t : Nat) : TableVer where
  table := t
  base := s.get (CAT_TBL_CFG0_BASE t)
  hash := s.flag (CAT_TBL_CFG0_HASH t)
  hbits := s.get (CAT_TBL_CFG0_HBITS t)
  nord := s.get (CAT_TBL_CFG1_NORD t)

/-- The ports bound to a table (R194). -/
def State.boundPorts (s : State) (t : Nat) : List Nat :=
  (List.range 128).filter fun n =>
    (s.flag (CAT_PBIND_P_EN n) && s.get (CAT_PBIND_PRIMARY n) = t)
      || (s.flag (CAT_PBIND_S_EN n) && s.get (CAT_PBIND_SHARED n) = t)

/-- The destination of a staged entry exists for port `n` (R195). -/
def State.destExists (s : State) (n dk dest : Nat) : Bool :=
  match dk with
  | 1 => match s.poolOf dest with
    | some p => s.get (MOP_POOL_CFG1_KIND p) = kindMBX && s.get (MOP_POOL_CFG1_PORT p) = n
    | none => false
  | 2 => dest < 1024 && s.flag (GW_RT_CFG_VALID dest) && s.get (GW_RT_CFG_SRC dest) = 0
           && s.get (GW_RT_CFG_PORT dest) = n
  | 3 => dest < 64 && (s.rxPool n dest).isSome
  | _ => false

/-- What an entry names is declared: a mailbox of some pool, a route, a station with a cluster (0x0505). -/
def State.destDeclared (s : State) (dk dest : Nat) : Bool :=
  match dk with
  | 1 => match s.poolOf dest with
    | some p => s.get (MOP_POOL_CFG1_KIND p) = kindMBX
    | none => false
  | 2 => dest < 1024 && s.flag (GW_RT_CFG_VALID dest)
  | 3 => dest < 64 && (List.range 128).any fun k => s.flag (CLU_CFG_ASSIGNED k) && s.get (CLU_CFG_STATION k) == dest
  | _ => false

/-- Every index of a table. -/
def TableVer.allIndexes (t : TableVer) : List Nat := (List.range (t.hashLen + t.nord)).map (t.base + ·)

/-- The reason codes of the rules that an entry of a table bound to `ports` fails, in the order in which the rules stand:
R195, R196, then those of R198. `dup`: another EXACT entry of the table has its identifier. -/
def State.entryFaults (s : State) (ports : List Nat) (w : Nat → Word) (dup : Bool) : List Nat :=
  let kind := bitsOf (w 0) 0 3
  let id := bitsOf (w 1) 0 29
  let mask := bitsOf (w 2) 0 29
  let ide := bitsOf (w 0) 7 1 = 1
  let sig := bitsOf (w 0) 16 12
  let dk := bitsOf (w 6) 16 2
  let dest := bitsOf (w 6) 0 16
  ([(0x0505, !s.destDeclared dk dest || !ports.all fun n => s.destExists n dk dest),
    (0x0501, decide (5 ≤ kind)),
    (0x0502, (kind = 2 || kind = 4) && (id &&& mask) != id),
    (0x0503, kind = 3 && decide (mask < id)),
    (0x0504, kind = 4 && ports.any fun n => s.get (LP_CFG_MODE n) != 4 && s.get (LP_CFG_MODE n) != 5),
    (0x0502, (!ide && decide (2 ^ 11 ≤ id)) || (kind = 4 && ide)),
    (0x0506, kind = 1 && dup),
    (0x0501, decide (0x800 ≤ sig) && decide (sig ≤ 0xFFE))].filter (·.2)).map (·.1)

/-- The reason code of the first failing rule of a staged entry, to be put at index `at_` (R205). An EMPTY one takes part in
no match and breaks no rule, as in the enable check (R196). -/
def State.entryCheck (s : State) (t : TableVer) (at_ : Nat) (w : Nat → Word) : Option Nat :=
  if bitsOf (w 0) 0 3 = 0 then none
  else
    (s.entryFaults (s.boundPorts t.table) w (t.allIndexes.any fun i => i != at_ && s.get (CAT_ENTRY_KIND i) = 1
      && (s.get (CAT_ENTRY_IDE i) = bitsOf (w 0) 7 1)
      && bitsOf (s.word (CAT_ENTRY_W i 1).addr) 0 29 = bitsOf (w 1) 0 29)).head?

/-- A command is refused: STATE REFUSED with the code and reason, and source 1589 (R204, R210). -/
def State.catRefuse (s : State) (q code reason : Nat) : State :=
  let s := ((s.set (CAT_UPD_STAT_STATE q) 3).set (CAT_UPD_STAT_REFUSE q) code).set (CAT_UPD_STAT_REASON q) reason
  s.raise 1589 (q + code * 256)

/-- A command comes behind every accepted command of an earlier cycle, and of its own cycle behind those of lower requester
numbers: stations 0 to 63, then the host, 64 (R207). -/
def insertCmd (c : CatCmd) : List CatCmd → List CatCmd
  | [] => [c]
  | d :: ds => if d.tick = c.tick && decide (c.req < d.req) then c :: d :: ds else d :: insertCmd c ds

/-- A command is accepted: it is PENDING, in the order of R207; the command in progress stays in front. -/
def State.catAccept (s : State) (c : CatCmd) : State :=
  let s := ((s.set (CAT_UPD_STAT_STATE c.req) 1).set (CAT_UPD_STAT_REFUSE c.req) 0).set (CAT_UPD_STAT_REASON c.req) 0
  let c := { c with tick := s.ticks }
  let n := if s.cat.applied.isSome then 1 else 0
  { s with cat := { s.cat with order := s.cat.order.take n ++ insertCmd c (s.cat.order.drop n) } }

/-- The staged entry of a requester: word k, with LIVE and HITS left out (R204). -/
def State.staged (s : State) (q k : Nat) : Word :=
  let w := s.word (CAT_UPD_W_W q k).addr
  if k = 0 then putBits w 11 1 0 else if k = 7 then 0 else w

/-- The conditions that refuse every command (R204): previous command pending 1, not the owner 2, a bound port in
transition 7. -/
def State.catCommon (s : State) (q t : Nat) : Option Nat :=
  if s.cat.order.any (·.req == q) then some 1
  else if s.get (CAT_TBL_CFG1_UPD_OWNER t) != q || !s.flag (CAT_TBL_CFG0_VALID t) then some 2
  else if (s.boundPorts t).any fun n => s.flag (transLoc n) then some 7
  else none

/-- The bits that a field of an entry occupies in word `k`, LIVE and HITS left out (R196). -/
def entryMask (k : Nat) : Word :=
  match k with
  | 0 => 0x0FFF07FF
  | 1 => 0x1FFFFFFF
  | 2 => 0x1FFFFFFF
  | 6 => 0x0003FFFF
  | 7 => 0
  | _ => 0xFFFFFFFF

/-- The words of an entry as the store keeps them: an EMPTY one has every field 0 (R196). -/
def storedWords (w : Nat → Word) : List Word :=
  (List.range 8).map fun k => if bitsOf (w 0) 0 3 = 0 then 0 else w k &&& entryMask k

/-- The words of a staged entry as they enter the table: LIVE 1, HITS 0 (R206); an EMPTY one has every field 0 (R196). -/
def State.liveWords (s : State) (q : Nat) : List Word :=
  let ws := storedWords (s.staged q)
  if bitsOf (s.staged q 0) 0 3 = 0 then ws else putBits (ws.headD 0) 11 1 1 :: ws.tail

/-- INSERT (R204, R205). -/
def State.catInsert (s : State) (q t : Nat) : State :=
  match s.catCommon q t with
  | some r => s.catRefuse q r 0
  | none =>
    let tv := s.tableOf t
    let w := s.staged q
    let kind := bitsOf (w 0) 0 3
    let empty := fun i => s.get (CAT_ENTRY_KIND i) = 0
    if kind = 1 && tv.hash then
      match s.entryCheck tv 32768 w with
      | some r => s.catRefuse q 8 r
      | none =>
        match (tv.ways (bitsOf (w 0) 7 1 = 1) (bitsOf (w 1) 0 29)).find? empty with
        | none => s.catRefuse q 8 0x0205
        | some i => (s.set (CAT_UPD_IDX_INDEX q) i).catAccept
            { req := q, code := 1, table := t, idx := i, words := s.liveWords q }
    else
      let i := s.get (CAT_UPD_IDX_INDEX q)
      if !tv.inOrdered i then s.catRefuse q 3 0
      else if !empty i then s.catRefuse q 4 0
      else match s.entryCheck tv i w with
        | some r => s.catRefuse q 8 r
        | none => s.catAccept { req := q, code := 1, table := t, idx := i, words := s.liveWords q }

/-- DELETE (R204). -/
def State.catDelete (s : State) (q t : Nat) : State :=
  match s.catCommon q t with
  | some r => s.catRefuse q r 0
  | none =>
    let i := s.get (CAT_UPD_IDX_INDEX q)
    if !(s.tableOf t).inTable i then s.catRefuse q 3 0
    else if s.get (CAT_ENTRY_KIND i) = 0 then s.catRefuse q 5 0
    else s.catAccept { req := q, code := 2, table := t, idx := i, words := List.replicate 8 0 }

/-- REPLACE (R204, R205). -/
def State.catReplace (s : State) (q t : Nat) : State :=
  match s.catCommon q t with
  | some r => s.catRefuse q r 0
  | none =>
    let tv := s.tableOf t
    let i := s.get (CAT_UPD_IDX_INDEX q)
    let w := s.staged q
    let kind := bitsOf (w 0) 0 3
    let other := kind != 1 || bitsOf (w 0) 7 1 != s.get (CAT_ENTRY_IDE i)
      || bitsOf (w 1) 0 29 != bitsOf (s.word (CAT_ENTRY_W i 1).addr) 0 29
    if !tv.inTable i then s.catRefuse q 3 0
    else if s.get (CAT_ENTRY_KIND i) = 0 then s.catRefuse q 5 0
    else if s.get (CAT_ENTRY_KIND i) = 1 && other then s.catRefuse q 6 0
    else match s.entryCheck tv i w with
      | some r => s.catRefuse q 8 r
      | none => s.catAccept { req := q, code := 3, table := t, idx := i, words := s.liveWords q }

/-- The update bank that an access reaches: the host's or that of the engine's station (R203). -/
def State.catBank (s : State) (q : Requester) (f : Nat → State → State) : State :=
  match s.ownerCode q with
  | some b => s.openWrite q 0x02800000 (s.ready 13) (f b)
  | none => s.hostWrite q 0x02800000 (s.ready 13) id

/-- A write of CAT.UPD_CMD with INSERT. -/
def execInsert (q : Requester) (t : Fin 256) (s : State) : Out := .next (s.catBank q fun b s => s.catInsert b t)

/-- A write of CAT.UPD_CMD with DELETE. -/
def execDelete (q : Requester) (t : Fin 256) (s : State) : Out := .next (s.catBank q fun b s => s.catDelete b t)

/-- A write of CAT.UPD_CMD with REPLACE. -/
def execReplace (q : Requester) (t : Fin 256) (s : State) : Out := .next (s.catBank q fun b s => s.catReplace b t)

/-- A write of CAT.UPD_CMD with an unknown code: REFUSE 3 (R204); a pending previous command gives REFUSE 1 first. -/
def State.catUnknown (s : State) (q : Nat) : State :=
  s.catRefuse q (if s.cat.order.any (·.req == q) then 1 else 3) 0

/-- UPD_CMD_UNKNOWN. -/
def execUpdCmdUnknown (q : Requester) (s : State) : Out := .next (s.catBank q fun b s => s.catUnknown b)

/-- Store words 0 to 7 of an entry. -/
def State.setEntry (s : State) (i : Nat) (ws : List Word) : State :=
  s.each (List.range 8) fun s w => s.setWord (CAT_ENTRY_W i w).addr (ws.getD w 0)

/-- CAT_UPDATE_APPLY: the head of the order takes effect at U, the present time (R206, R207). -/
def execCatUpdateApply (s : State) : Out :=
  .next <|
    match s.cat.order, s.cat.applied with
    | c :: _, none =>
      let old := (List.range 8).map fun w => s.word (CAT_ENTRY_W c.idx w).addr
      let was := s.get (CAT_ENTRY_KIND c.idx) != 0
      let s := (s.setEntry c.idx c.words).setStamp (CAT_UPD_T_NS c.req).addr s.now
      let is := s.get (CAT_ENTRY_KIND c.idx) != 0
      let s := { s with cat := { s.cat with
        applied := some (s.now, c.idx, old), updated := smapPut (fun _ => 0) s.cat.updated c.idx s.now } }
      if is && !was then s.set CAT_USE_USED (s.get CAT_USE_USED + 1)
      else if was && !is then s.set CAT_USE_USED (s.get CAT_USE_USED - 1) else s
    | _, _ => s

/-- CAT_UPDATE_DONE: no frame timestamped before U awaits its search; the update is DONE, a refusal reported meanwhile is
gone, and source 1588 is raised (R206, R210, R211). -/
def execCatUpdateDone (s : State) : Out :=
  .next <|
    match s.cat.order, s.cat.applied with
    | c :: r, some _ =>
      let s := { s with cat := { s.cat with order := r, applied := none } }
      let s := ((s.set (CAT_UPD_STAT_STATE c.req) 2).set (CAT_UPD_STAT_REFUSE c.req) 0).set (CAT_UPD_STAT_REASON c.req) 0
      s.raise 1588 c.req
    | _, _ => s

end Sys2Proof.Machine
end

