-- ==== Sys2Proof/Machine/SpineOps.lean ====
section
/-! DEFINITION. Shared operations of the spine: lanes, streams and the queues of frames that wait for a lane (R410, R411,
R416). -/

namespace Sys2Proof.Machine

/-- The hidden half of a lane. -/
def State.lane (s : State) (l : Nat) : Lane := smapFind (fun _ => {}) s.spine.lanes l

/-- Change the hidden half of a lane. -/
def State.modLane (s : State) (l : Nat) (f : Lane → Lane) : State :=
  { s with spine := { s.spine with lanes := smapPut (fun _ => {}) s.spine.lanes l (f (s.lane l)) } }

/-- The hidden half of a stream. -/
def State.stream (s : State) (st : Nat) : Stream := smapFind (fun _ => {}) s.spine.streams st

/-- Change the hidden half of a stream. -/
def State.modStream (s : State) (st : Nat) (f : Stream → Stream) : State :=
  { s with spine := { s.spine with streams := smapPut (fun _ => {}) s.spine.streams st (f (s.stream st)) } }

/-- The link of a lane is up. -/
def State.linkUp (s : State) (l : Nat) : Bool := s.flag (SPN_LANE_STAT_LINK l)

/-- A lane in an Ethernet mode. -/
def State.isEthLane (s : State) (l : Nat) : Bool := s.get (SPN_LANE_CFG_MODE l) = 1 || s.get (SPN_LANE_CFG_MODE l) = 2

/-- A stream is declared. -/
def State.declared (s : State) (st : Nat) : Bool := s.get (SPN_STR_CFG_KIND st) != 0

/-- The alternate lane of a stream, when it is usable: of the same kind, Ethernet or NATIVE, as the primary (R411). -/
def State.altLane (s : State) (st : Nat) : Option Nat :=
  let p := s.get (SPN_STR_CFG_LANE st)
  let a := s.get (SPN_STR_CFG_ALT st)
  if s.flag (SPN_STR_CFG_ALT_EN st) && s.isEthLane p == s.isEthLane a then some a else none

/-- A frame is handed to a stream: queued while the stream runs, else discarded and counted (R416). -/
def State.streamSend (s : State) (st : Nat) (x : SpineItem) : State :=
  if s.flag (SPN_STR_STAT_RUN st) then s.modStream st fun v => { v with queue := v.queue ++ [x] }
  else s.inc (SPN_STR_STAT_DROP st)

end Sys2Proof.Machine
end

