-- ==== Sys2Proof/Machine/GatewayOps.lean ====
section
/-! DEFINITION. Shared operations of the gateway: format conversion, reference keys, legs, release and ingress
(R239 to R262, R481). -/

namespace Sys2Proof.Machine

/-! ## Frames of a leg (R239, R261) -/

/-- The frame a leg sends: format conversion and identifier replacement (table "Format conversions"). -/
def State.legFrame (s : State) (l : Nat) (f : Frame) : Frame :=
  let f :=
    match s.get (GW_LEG_CFG_FMT l) with
    | 2 => if f.fmt ≤ fmtFD && !f.rmt then { f with fmt := fmtFD, brs := false } else f
    | 3 => if f.fmt ≤ fmtFD && !f.rmt then { f with fmt := fmtFD, brs := true } else f
    | _ => f
  if s.flag (GW_LEG_CFG_IDREP l) && s.get (GW_LEG_CFG_KIND l) != 3 then
    { f with id := s.get (GW_LEG_ID_ID l), ide := s.flag (GW_LEG_ID_IDE l) }
  else f

/-- The selection key of a copy: of the egress frame, or with INHERIT of the ingress frame (R261). -/
def State.selectionKey (s : State) (r : Nat) (ingress egress : Frame) : Nat :=
  arbKey (if s.flag (GW_RT_CFG_INHERIT r) then ingress else egress)

/-- What reaches the gateway while it is not usable is held (R32). -/
def State.holdIn (s : State) (x : HeldIn) : State := { s with gw := { s.gw with heldIn := s.gw.heldIn ++ [x] } }

/-- The gateway and the store whose slots it uses are usable. -/
def State.gwUsable (s : State) : Bool := s.ready 14 && s.ready 15

/-! ## Agreement with a member (R478, R479) -/

/-- The hidden half of a peer. -/
def State.peer (s : State) (m : Nat) : Peer := smapFind (fun _ => {}) s.con.peers m

/-- SELF. -/
def State.self (s : State) : Nat := s.get CON_STAT_SELF

/-- The AGREE period in ticks; 0 acts as 100 µs. -/
def State.period (s : State) : Nat := ticksOfUs (if s.get CON_CFG_PERIOD = 0 then 100 else s.get CON_CFG_PERIOD)

/-- THR; 0 acts as 1,000 ns. -/
def State.thr (s : State) : Nat := if s.get CON_THR_NS = 0 then 1000 else s.get CON_THR_NS

/-- The signed number in 8 bytes. -/
def s64 (n : Nat) : Int := if n < 2 ^ 63 then (n : Int) else (n : Int) - 2 ^ 64

/-- No AGREE of the peer within the last 3 periods. -/
def State.silent (s : State) (m : Nat) : Bool :=
  match (s.peer m).lastTick with
  | none => true
  | some t => decide (t + 3 * s.period < s.ticks)

/-- THETA was last computed more than 10 periods ago; on the reference it is always 0. -/
def State.thetaStale (s : State) : Bool :=
  s.get CON_CFG_TREF != s.self && decide (s.con.thetaTick.getD s.con.start + 10 * s.period < s.ticks)

/-- A fencing condition holds. -/
def State.mustFence (s : State) : Bool := decide (s.thr < (s64 (s.get CON_THETA_NS)).natAbs) || s.thetaStale

/-- The pair is agreed now: it was found agreed, and neither silence nor a fencing condition has come since (R479, R485). -/
def State.pairHolds (s : State) (m : Nat) : Bool := s.flag (CON_PEER_STAT_AGREED m) && !s.silent m && !s.mustFence

/-! ## Reference keys (R247) -/

/-- Lexicographic order of lists of numbers. -/
def lexLe : List Nat → List Nat → Bool
  | a :: as, b :: bs => a < b || (a == b && lexLe as bs)
  | [], _ => true
  | _ :: _, [] => false

/-- The reference key of a copy. -/
def Copy.refKey (c : Copy) : List Nat := [c.release, c.stamp, c.origin, c.source, c.msg, c.idx]

/-- Reference order of copies. -/
def refLe (a b : Copy) : Bool := lexLe a.refKey b.refKey

/-- Put a copy in reference order. -/
def insertCopy (c : Copy) : List Copy → List Copy
  | [] => [c]
  | x :: xs => if refLe x c then x :: insertCopy c xs else c :: x :: xs

/-- The copy that a slot holds. -/
def State.copyOf (s : State) (k : Nat) : Option Copy := s.gw.copies.find? (·.slot == some k)

/-- Set the copies of the gateway. -/
def State.setCopies (s : State) (cs : List Copy) : State := { s with gw := { s.gw with copies := cs } }

/-- Add a copy. -/
def State.addCopy (s : State) (c : Copy) : State := (s.setCopies (insertCopy c s.gw.copies)).updateNpend c.target

/-- Remove a copy. -/
def State.dropCopy (s : State) (c : Copy) : State := (s.setCopies (s.gw.copies.erase c)).updateNpend c.target

/-- Replace a copy. -/
def State.swapCopy (s : State) (c d : Copy) : State :=
  (s.setCopies (insertCopy d (s.gw.copies.erase c))).updateNpend c.target

/-! ## Release instants (R243) -/

/-- Local time one tick ago. -/
def State.before (s : State) : Nat := (s.time.ns * 2 ^ 32 + s.time.frac - s.get TIME_INC_INC) / 2 ^ 32

/-- The release instant of a copy has been reached, or a forced step passed over it. -/
def State.released (s : State) (c : Copy) : Bool := c.forced || c.release ≤ s.now

/-- The release instant of a copy lies before this tick: staging completed after it (R252). -/
def State.late (s : State) (r : Nat) : Bool := r ≤ s.before && s.time.ns != 0

/-- Nanoseconds from the release instant, the first tick at which local time was R or later, until now (R243, R255). -/
def State.lateness (s : State) (r : Nat) : Nat :=
  let inc := s.get TIME_INC_INC
  (s.time.ns * 2 ^ 32 + s.time.frac - r * 2 ^ 32) / inc * inc / 2 ^ 32

/-! ## Slots and entries of a leg (R241) -/

/-- What a copy keeps of leg `l` of route `r`. -/
def State.legAttr (s : State) (r l : Nat) : LegAttr where
  kind := s.get (GW_LEG_CFG_KIND l)
  index := s.get (GW_LEG_CFG_INDEX l)
  pool := s.get (GW_LEG_CFG_POOL l)
  depth := s.get (GW_LEG_Q_QDEPTH l)
  bus := s.get (GW_LEG_CFG_BUSID l)
  remote := s.get (GW_LEG_ID_ID l) % 1024
  drop := s.flag (GW_RT_CFG_BREACH_ACT r)
  horizon := s.get (GW_RT_H_NS r)

/-- The copy's leg is REMOTE: it waits for its stream alone. -/
def Copy.isRemote (c : Copy) : Bool := c.attr.kind == 3

/-- The next FREE slot of a copy's leg pool after the one that the leg last took. -/
def State.legSlot (s : State) (c : Copy) : Option Nat :=
  (rotated (s.poolSlots c.attr.pool) (smapFind (fun _ => none) s.gw.legLast c.leg)).find? fun k =>
    s.get (MOP_DESC_STATE k) = slotFree

/-- A queue entry of a copy's leg is free. -/
def State.legEntry (s : State) (c : Copy) : Bool := s.get (GW_LEG_Q_INUSE c.leg) < c.attr.depth

/-- A leg takes one slot or entry. -/
def State.legTake (s : State) (l : Nat) : State := s.inc (GW_LEG_Q_INUSE l)

/-- A leg's slot or entry is free again. -/
def State.legFree (s : State) (l : Nat) : State := s.set (GW_LEG_Q_INUSE l) (s.get (GW_LEG_Q_INUSE l) - 1)

/-- Write the descriptor and the data of a staged leg slot (R242): WP is 0 for a transmitted frame, and ESI waits for the
transmission (R161). Poisoned source data stays poisoned. -/
def State.fillLeg (s : State) (k : Nat) (c : Copy) : State :=
  let p := (s.poolOf k).getD 0
  let room := if s.flag (MOP_POOL_CFG1_BUFCLASS p) then 2048 else 64
  let d := c.frame.data.take room
  let s := (s.setSlotFrame k { c.frame with esi := false }).hallStore (s.bufOf k) d 1026
  let s := if c.poisoned then (wordsOf (s.bufOf k) d.length).foldl (fun s w => s.setPoison w true) s else s
  let s := ((s.put (MOP_DESC_DIR k) true).put (MOP_DESC_TAINT k) c.taint).set (MOP_DESC_WP k) 0
  let s := ((s.put (MOP_DESC_DL_EN k) false).set (MOP_DESC_TAG k) 0).set (MOP_DESC_CODE k) 0
  let s := (s.put (MOP_DESC_DUP k) false).set (MOP_DESC_ATT k) 0
  let s := (s.setWord (MOP_DESC_W k 6).addr 0).setWord (MOP_DESC_W k 7).addr 0
  s.setSlotState k slotStaged

/-- The AVTPDU of a copy on a TUNNEL leg; tv is 0 in a TSCF header (R263). -/
def State.avtpduOf (s : State) (c : Copy) : Avtpdu :=
  let st := c.target - 128
  let f := c.frame
  { subtype := if s.flag (GW_TUN_CFG_SUBTYPE st) then 0x05 else 0x82, tv := false, sid := s.get (GW_TUN_SID_SID st),
    seq := s.get (GW_TUN_SEQ_TXSEQ st),
    msgs := [{ mtv := s.flag (GW_TUN_CFG_MTV st), stamp := if s.flag (GW_TUN_CFG_MTV st) then c.stamp % 2 ^ 64 else 0,
               bus := c.attr.bus, eff := f.ide, rtr := f.rmt, fdf := f.fmt == fmtFD, brs := f.brs,
               esi := f.esi, id := f.id, data := f.data }] }

/-- The IEEE 802.1Q priority of a tunnel copy (R262). -/
def State.tunnelPcp (s : State) (st key : Nat) : Nat :=
  if s.flag (GW_TUN_CFG_PCP_MAP st) then
    7 - ((List.range 7).filter fun k => s.get (GW_PCP_TH_KEY k) ≤ key).length
  else s.get (GW_TUN_CFG_PCP st)

/-- Release a copy: QUEUE of its slot with queue time R, or its AVTPDU to the stream (R242, R243). While a new layout of
its frame-store pool waits, QUEUE is held (R516). -/
def State.releaseCopy (s : State) (c : Copy) : State :=
  match c.attr.kind, c.slot with
  | 1, some k =>
    let p := c.attr.pool
    let s := (s.swapCopy c { c with state := .released }).inc (GW_LEG_STAT_REL c.leg)
    if s.awaitsLayout p then
      { s with store := { s.store with heldQueue := s.store.heldQueue ++ [k] } }
    else (s.queueSlot p k c.release).updateNpend c.target
  | 2, _ =>
    let st := c.target - 128
    let x := SpineItem.tunnel (s.tunnelPcp st c.key) (s.avtpduOf c)
    let s := s.set (GW_TUN_SEQ_TXSEQ st) ((s.get (GW_TUN_SEQ_TXSEQ st) + 1) % 256)
    (((s.dropCopy c).legFree c.leg).inc (GW_LEG_STAT_REL c.leg)).streamSend st x
  | _, _ => s

/-- Discard a copy that is staged or waits: its slot or entry is free again. -/
def State.discardCopy (s : State) (c : Copy) : State :=
  let s := s.dropCopy c
  match c.state, c.slot with
  | .staged, some k => (s.legFree c.leg).setSlotState k slotFree
  | .staged, none => s.legFree c.leg
  | _, _ => s

/-! ## REMOTE legs (R475, R481) -/

/-- The body of a FRAME message, and its header. -/
def State.frameMessage (s : State) (c : Copy) : List Byte :=
  let f := c.frame
  [2, s.get CON_STAT_SELF * 16 + (c.target - 192), 0, 0].map (BitVec.ofNat 8 ·) ++ beBytes 4 0
    ++ beBytes 8 c.release ++ beBytes 8 c.stamp ++ beBytes 4 c.key ++ beBytes 2 c.attr.remote
    ++ [BitVec.ofNat 8 c.source, BitVec.ofNat 8 (c.msg % 16 + c.idx % 4 * 16 + if c.taint then 64 else 0)]
    ++ beBytes 4 (frameWord1 f).toNat ++ beBytes 4 (frameWord2 f).toNat ++ beBytes 4 f.af ++ f.data

/-- The stream that carries the messages to a REMOTE copy's member. -/
def State.remoteStream (s : State) (c : Copy) : Nat := s.get (CON_PEER_CFG_STREAM (c.target - 192))

/-- A REMOTE copy is handed to the next-hop stream of its member, and stays in its leg's queue until the stream has sent it;
a stream that does not run loses the message (R416, R481). -/
def State.sendRemote (s : State) (c : Copy) : State :=
  let st := s.remoteStream c
  if s.flag (SPN_STR_STAT_RUN st) then
    ((s.legTake c.leg).addCopy { c with state := .staged }).streamSend st (.message (some c.leg) none (s.frameMessage c))
  else s.streamSend st (.message none none [])

/-- A REMOTE copy that is discarded leaves the stream's queue. -/
def State.unsendRemote (s : State) (c : Copy) : State :=
  let x := SpineItem.message (some c.leg) none (s.frameMessage c)
  s.modStream (s.remoteStream c) fun v => { v with queue := v.queue.erase x }

/-! ## Staging (R241 step 4, R252, R253) -/

/-- A LATE breach of a copy. -/
def State.lateBreach (s : State) (c : Copy) : State :=
  s.breach c.route c.attr.index c.target 1 c.release (s.lateness c.release)

/-- A staged copy on its leg: late ones are a breach, and are released at once under HOLD or discarded under DROP. -/
def State.afterStage (s : State) (c : Copy) : State :=
  if (s.late c.release || c.forced) && !c.breached then
    let s := s.lateBreach c
    if c.attr.drop then s.discardCopy c else s.releaseCopy c
  else if s.released c && c.breached then s.releaseCopy c
  else s

/-- A REMOTE copy takes an entry of its leg: a late one is a breach, and lost under DROP (R252, R253). -/
def State.takeRemote (s : State) (c : Copy) : State :=
  if (s.late c.release || c.forced) && !c.breached then
    let s := s.lateBreach c
    if c.attr.drop then s else s.sendRemote c
  else s.sendRemote c

/-- Take a slot or entry for a copy and stage it; none when the leg has none free. -/
def State.takeLeg (s : State) (c : Copy) : Option State :=
  if c.attr.kind = 1 then
    match s.legSlot c with
    | some k =>
      let s := { s with gw := { s.gw with legLast := smapPut (fun _ => none) s.gw.legLast c.leg (some k) } }
      let d := { c with slot := some k, state := .staged }
      some ((((s.legTake c.leg).fillLeg k d).addCopy d).afterStage d)
    | none => none
  else if !s.legEntry c then none
  else if c.isRemote then some (s.takeRemote c)
  else
    let d := { c with state := .staged }
    some (((s.legTake c.leg).addCopy d).afterStage d)

/-- Waiting copies of a leg take its free slots or entries in reference order, `n` at most (R253). -/
def State.serveWaiting (s : State) (l : Nat) : Nat → State
  | 0 => s
  | n + 1 =>
    match s.gw.copies.find? fun c => c.leg == l && c.state == .waiting with
    | some c =>
      match (s.dropCopy c).takeLeg c with
      | some t => t.serveWaiting l n
      | none => s
    | none => s

/-- Step 4 for one leg: the copies that wait for it come first; then the copy is staged, or is a NOSLOT breach that waits
under HOLD and is lost under DROP (R253). A REMOTE copy of a pair that is not agreed is discarded (R481). -/
def State.stageLeg (s : State) (c : Copy) : State :=
  if c.attr.kind = 0 then s
  else if c.isRemote && !s.pairHolds (c.target - 192) then
    (s.inc (CON_PEER_CNT_XDROP (c.target - 192))).raiseOncePerMs 1892 1892 (c.target - 192)
  else
    let s := s.serveWaiting c.leg s.gw.copies.length
    match s.takeLeg c with
    | some s => s
    | none =>
      let s := s.breach c.route c.attr.index c.target 2 c.release 0
      if c.attr.drop then s else s.addCopy { c with state := .waiting, breached := true }

/-- The legs of a route. -/
def State.legsOf (s : State) (r : Nat) : List Nat :=
  (List.range (s.get (GW_RT_CFG_NLEG_M1 r) + 1)).map (s.get (GW_RT_LEGS_FIRST r) + ·)

/-- The copy of an accepted frame for a leg. -/
def State.copyFor (s : State) (r l : Nat) (f : Frame) (t source msg : Nat) (taint forced poisoned : Bool) : Copy :=
  let g := s.legFrame l f
  let at_ := s.legAttr r l
  let h := t + at_.horizon
  { route := r, leg := l, attr := at_, idx := at_.index, target := s.get (GW_LEG_CFG_TARGET l),
    release := if at_.kind = 3 then h + s.get CON_AHOR_NS else h, stamp := t,
    origin := s.get CON_STAT_SELF, source, msg, key := s.selectionKey r f g, frame := g, taint, poisoned,
    state := .waiting, forced }

/-- The window count of a route: ceil(BUDGET × H / 10^9) (R246); BUDGET 0 acts as 1. -/
def State.windowM (s : State) (r : Nat) : Nat :=
  (max 1 (s.get (GW_RT_BUD_BUDGET r)) * s.get (GW_RT_H_NS r) + 999999999) / 1000000000

/-- Steps 3 and 4 for a frame: the load budget, then every leg (R241, R246). -/
def State.acceptFrame (s : State) (r : Nat) (f : Frame) (t source msg : Nat) (taint forced poisoned : Bool) : State :=
  let h := s.get (GW_RT_H_NS r)
  let acc := smapFind (fun _ => []) s.gw.accepted r
  let inWindow := acc.filter fun u => decide (t < u + h) && decide (u ≤ t)
  if s.windowM r ≤ inWindow.length then
    (s.inc (GW_RT_DROP_POLICE r)).raiseOncePerMs 1540 1540 r
  else
    let acc := t :: acc.filter fun u => decide (t < u + 200000000)
    let s := { s with gw := { s.gw with accepted := smapPut (fun _ => []) s.gw.accepted r acc } }
    let s := s.inc (GW_RT_CNT_FWD r)
    s.each (s.legsOf r) fun s l => s.stageLeg (s.copyFor r l f t source msg taint forced poisoned)

/-! ## Port ingress (R241, R259) -/

/-- The gateway's RX slot returns to FREE (step 5). -/
def State.freeIngress (s : State) (k : Nat) : State :=
  let s := { s with gw := { s.gw with waiting := s.gw.waiting.filter (·.slot != k) } }
  match s.poolOf k with
  | some p => s.releaseRx p k
  | none => s

/-- Process the frame in the gateway's RX slot (R241). A poisoned buffer word is a poisoned read (R315, R316). -/
def State.ingress (s : State) (w : WaitingFrame) : State :=
  let k := w.slot
  let f := s.slotFrame k
  let taint := s.flag (MOP_DESC_TAINT k)
  let bad := if f.rmt then [] else (wordsOf (s.bufOf k) f.len).filter s.isPoison
  let s :=
    if taint && !s.flag (GW_RT_CFG_TAINT_OK w.route) then s.inc (GW_RT_DROP_TAINT w.route)
    else if w.dup && s.flag (GW_RT_CFG_DUP_EOF w.route) then s.inc (GW_RT_BRK_DUP w.route)
    else
      let s := bad.foldl (fun s x => s.poisonRead x .gateway) s
      s.acceptFrame w.route f w.sof w.port 0 taint w.forced (!bad.isEmpty)
  s.freeIngress k

/-- Process the frame in a gateway RX slot, after those of its route that came before it: the frames of a route are
considered in ascending order of T (R246). -/
def State.ingressInOrder (s : State) (w : WaitingFrame) : State :=
  (s.each (s.gw.waiting.filter fun v => v.route == w.route && decide (v.sof < w.sof)) State.ingress).ingress w

/-- An INGRESS breach on every leg of the route (R252). -/
def State.ingressBreach (s : State) (r t : Nat) : State :=
  s.each (s.legsOf r) fun s l =>
    let rel := t + s.get (GW_RT_H_NS r) + (if s.get (GW_LEG_CFG_KIND l) = 3 then s.get CON_AHOR_NS else 0)
    s.breach r (s.get (GW_LEG_CFG_INDEX l)) (s.get (GW_LEG_CFG_TARGET l)) 3 rel 0

end Sys2Proof.Machine
end

