-- ==== Sys2Proof/Machine/Mop.lean ====
section
/-! DEFINITION. The message-operation store: descriptor writes, doorbell commands, selection, deadlines, deadline monitors
and frame-store layouts (R158 to R188, R516). -/

namespace Sys2Proof.Machine

/-! ## Access (R158, R165) -/

/-- An access of a requester that does not own the slot: recorded; a host write is discarded, an engine takes an access
fault (R158). -/
def State.mopRefuse (s : State) (q : Requester) (reason k off : Nat) (write : Bool) : State :=
  let s := s.mopErr reason 0 q k
  match q with
  | .host => if write then s.answerDone else s.answer 0
  | .engine e => s.accessTrap e.val (deviceAddr off) write

/-- The writable bits of descriptor word `w` (R161). -/
def descMask (w : Nat) : Word :=
  match w with
  | 0 => 0xFFFF0080
  | 2 => 0xFFFFBFFF
  | 4 => 0
  | 5 => 0
  | _ => 0xFFFFFFFF

/-- The owner of a slot writes descriptor word `w`: a TX slot moves to STAGED, or, while it is queued, the write is
discarded and recorded (R163, R167). -/
def State.descWrite (s : State) (q : Requester) (p k w : Nat) (v : Word) : State :=
  let st := s.get (MOP_DESC_STATE k)
  if s.get (MOP_POOL_CFG1_KIND p) != kindTX then s.answerDone
  else if st = slotQueued || st = slotArb || st = slotOnWire then (s.mopErr 2 0 q k).answerDone
  else
    let m := descMask w
    let a := (MOP_DESC_W k w).addr
    let s := s.setWord a ((s.word a &&& ~~~m) ||| (v &&& m))
    ((s.put (MOP_DESC_DIR k) true).setSlotState k slotStaged).answerDone

/-- A write of a descriptor word. -/
def State.descAccess (s : State) (q : Requester) (k w : Nat) (v : Word) : State :=
  s.access q (MOP_DESC_W k w).addr true (s.ready 14) true fun s =>
    match s.poolOf k with
    | none => s.mopRefuse q 4 k (MOP_DESC_W k w).addr true
    | some p =>
      if s.ownerCode q == some (s.get (MOP_POOL_CFG1_OWNER p)) then s.descWrite q p k w v
      else s.mopRefuse q 1 k (MOP_DESC_W k w).addr true

/-- DESCRIPTOR_WRITE. -/
def execDescriptorWrite (q : Requester) (k : SlotNo) (w : Fin 8) (v : Word) (s : State) : Out :=
  .next (s.descAccess q k w v)

/-- A doorbell command of a requester: refused and recorded unless the requester owns the slot (R165). -/
def State.doorbellCmd (s : State) (q : Requester) (k cmd : Nat) (f : Nat → State → Option State) : State :=
  s.openWrite q MOP_DOORBELL_SLOT.addr (s.ready 14) fun s =>
    match s.poolOf k with
    | none => s.mopErr 4 cmd q k
    | some p =>
      if s.ownerCode q == some (s.get (MOP_POOL_CFG1_OWNER p)) then (f p s).getD (s.mopErr 3 cmd q k)
      else s.mopErr 1 cmd q k

/-- QUEUE of slot `k` of pool `p`; held while the pool's frame-store pool waits for a new layout (R171, R516). -/
def State.mopQueue (s : State) (p k : Nat) : Option State :=
  if s.get (MOP_POOL_CFG1_KIND p) = kindTX && s.get (MOP_DESC_STATE k) = slotStaged then
    if s.awaitsLayout p then
      some { s with store := { s.store with heldQueue := s.store.heldQueue ++ [k] } }
    else some (s.queueSlot p k (match s.copyOf k with | some c => c.release | none => s.now))
  else none

/-- The port of a slot has no attempt of it in progress. -/
def State.idleSlot (s : State) (k : Nat) : Bool :=
  match (s.port (s.get (MOP_DESC_PORT k))).attempt with
  | some a => a.beacon || a.slot != k
  | none => true

/-- End a request that is not on the wire, with a code; it leaves the governor's queue and its reservation is released
(R176, R177, R179). -/
def State.endRequest (s : State) (k code : Nat) : State :=
  let n := s.get (MOP_DESC_PORT k)
  let head := s.headSlot n == some k
  let arb := s.admitted k
  let s := s.completeTx k slotAborted code none
  if head then
    let s := s.undefer n
    let s := if arb then s.requestEnd n else s
    s.evaluate (dieOf n)
  else s

/-- CANCEL (table "Cancel outcomes", R176). -/
def State.mopCancel (s : State) (p k : Nat) : Option State :=
  let st := s.get (MOP_DESC_STATE k)
  if s.get (MOP_POOL_CFG1_KIND p) != kindTX || !(st = slotQueued || st = slotArb || st = slotOnWire) then none
  else if st = slotQueued || s.idleSlot k then some (s.endRequest k codeCancelled)
  else some (s.modSlot k fun h => { h with stop := some codeCancelled })

/-- RELEASE: DONE or ABORTED to FREE (R165). -/
def State.mopRelease (s : State) (p k : Nat) : Option State :=
  let st := s.get (MOP_DESC_STATE k)
  if st = slotDone || st = slotAborted then some (s.releaseRx p k) else none

/-- ABANDON: STAGED to FREE (R165). -/
def State.mopAbandon (s : State) (p k : Nat) : Option State :=
  if s.get (MOP_POOL_CFG1_KIND p) = kindTX && s.get (MOP_DESC_STATE k) = slotStaged
  then some (s.setSlotState k slotFree) else none

/-- QUEUE. -/
def execQueue (q : Requester) (k : SlotNo) (s : State) : Out := .next (s.doorbellCmd q k 1 fun p s => s.mopQueue p k)

/-- CANCEL. -/
def execCancel (q : Requester) (k : SlotNo) (s : State) : Out := .next (s.doorbellCmd q k 2 fun p s => s.mopCancel p k)

/-- RELEASE. -/
def execRelease (q : Requester) (k : SlotNo) (s : State) : Out := .next (s.doorbellCmd q k 3 fun p s => s.mopRelease p k)

/-- ABANDON. -/
def execAbandon (q : Requester) (k : SlotNo) (s : State) : Out := .next (s.doorbellCmd q k 4 fun p s => s.mopAbandon p k)

/-- DOORBELL_IGNORED: a command of another requester, or one not permitted, is recorded and changes no slot (R165). -/
def execDoorbellIgnored (q : Requester) (k : SlotNo) (cmd : Fin 16) (s : State) : Out :=
  .next (s.doorbellCmd q k cmd fun _ _ => none)

/-! ## Selection and deadlines (R174 to R177) -/

/-- The key by which a request is selected: its arbitration key, or the selection key of a gateway copy (R174, R250). -/
def State.selectKey (s : State) (k : Nat) : Nat :=
  match s.copyOf k with
  | some c => c.key
  | none => arbKey (s.slotFrame k)

/-- The last tie of selection: reference order between gateway copies, else the lower slot number (R174, R250). -/
def State.tieLe (s : State) (a b : Nat) : Bool :=
  match s.copyOf a, s.copyOf b with
  | some x, some y => refLe x y
  | _, _ => a ≤ b

/-- Request `a` is selected before request `b` (R174, R250). -/
def State.selectLe (s : State) (n a b : Nat) : Bool :=
  let fifo := s.flag (MOP_PORTQ_ORDER n) || s.isEth n
  let ka := if fifo then 0 else s.selectKey a
  let kb := if fifo then 0 else s.selectKey b
  let qa := (s.slotHid a).qtime
  let qb := (s.slotHid b).qtime
  ka < kb || (ka = kb && (qa < qb || (qa = qb && s.tieLe a b)))

/-- The QUEUED slots of a port that are not duplicates. -/
def State.candidates (s : State) (n : Nat) : List Nat :=
  ((s.poolsOn kindTX n).flatMap s.poolSlots).filter fun k =>
    s.get (MOP_DESC_STATE k) = slotQueued && (s.slotHid k).dupOf.isNone

/-- The port's next request (R174). -/
def State.nextRequest (s : State) (n : Nat) : Option Nat :=
  (s.candidates n).foldl (fun acc k => match acc with
    | none => some k
    | some j => if s.selectLe n j k then some j else some k) none

/-- PORT_SELECT: the bit engine can take its next transmission, and no request is selected (R175). -/
def execPortSelect (n : PortNo) (s : State) : Out :=
  .next <|
    if s.ready 14 && s.bstate n = 2 && s.canSend n && !s.flag (MOP_PORTHEAD_VALID n) && (s.port n).attempt.isNone then
      match s.nextRequest n with
      | some k => (s.set (MOP_PORTHEAD_SLOT n) k).put (MOP_PORTHEAD_VALID n) true
      | none => s
    else s

/-- TX_DEADLINE: a QUEUED slot that is no duplicate, or one ARBITRATING between attempts, reaches its deadline (R173,
R177). -/
def execTxDeadline (k : SlotNo) (s : State) : Out :=
  .next <|
    let st := s.get (MOP_DESC_STATE k)
    if s.flag (MOP_DESC_DL_EN k) && (s.slotHid k).dupOf.isNone && (st = slotQueued || (st = slotArb && s.idleSlot k)) && dueAt s.now (s.slotStamp32 k)
    then s.endRequest k codeDeadline else s

/-! ## Deadline monitors (R184 to R186) -/

/-- MON_PERIOD, clamped. -/
def State.monPeriod (s : State) (m : Nat) : Nat := max 1000 (min 2000000000 (s.get (MOP_MON_PERIOD_NS m)))

/-- MON_NEXT as an instant. -/
def State.monNext (s : State) (m : Nat) : Nat := s.get (MOP_MON_NEXT_SEC m) * 1000000000 + s.get (MOP_MON_NEXT_NS m)

/-- Set MON_NEXT. -/
def State.setMonNext (s : State) (m t : Nat) : State := s.setStamp (MOP_MON_NEXT_NS m).addr t

/-- Slot `k` is a mailbox of a pool that the requester owns. -/
def State.ownMailbox (s : State) (q : Requester) (k : Nat) : Bool :=
  match s.poolOf k with
  | some p => s.get (MOP_POOL_CFG1_KIND p) = kindMBX && s.ownerCode q == some (s.get (MOP_POOL_CFG1_OWNER p))
  | none => false

/-- A write of MON_CFG that names no mailbox of the writer is discarded and recorded; with EN 1 it arms the monitor
(R184). -/
def State.monWrite (s : State) (q : Requester) (m k : Nat) (en oneshot miss : Bool) : State :=
  if !s.ownMailbox q k then s.mopErr 5 0 q m
  else
    let s := ((s.set (MOP_MON_CFG_SLOT m) k).put (MOP_MON_CFG_EN m) en).put (MOP_MON_CFG_ONESHOT m) oneshot
    let s := s.put (MOP_MON_CFG_TAINT_MISS m) miss
    if en then s.setMonNext m (s.now + s.monPeriod m) else s

/-- MONITOR_ARM. -/
def execMonitorArm (q : Requester) (m : Fin 4096) (k : SlotNo) (oneshot miss : Bool) (s : State) : Out :=
  .next (s.openWrite q (MOP_MON_CFG_SLOT m).addr (s.ready 14) fun s => s.monWrite q m k true oneshot miss)

/-- A deadline that no satisfying frame met is reported as TIMEOUT (R185). -/
def State.monTimeout (s : State) (m : Nat) : State :=
  let d := s.monNext m
  let k := s.get (MOP_MON_CFG_SLOT m)
  let s := s.inc (MOP_MON_STAT_TIMEOUTS m)
  let s := match s.poolOf k with
    | some p => s.post k p codeTimeout (d % 2 ^ 32) m
    | none => s
  if s.flag (MOP_MON_CFG_ONESHOT m) then s.put (MOP_MON_CFG_EN m) false else s.setMonNext m (d + s.monPeriod m)

/-- The search of a reception in progress can still give mailbox `k` its frame: a candidate names it, or the XL candidate
is not complete. -/
def Search.mayReach (sr : Search) (k : Nat) : Bool :=
  sr.cands.any fun c => (c.entry.isSome && entryDest c.words == (1, k)) || (c.fmt == fmtXL && !sr.xl)

/-- A reception on the port of a monitor's mailbox that began at or before the next deadline can still satisfy it (R186). -/
def State.monHeld (s : State) (m : Nat) : Bool :=
  let k := s.get (MOP_MON_CFG_SLOT m)
  match s.poolOf k with
  | none => false
  | some p =>
    match (s.port (s.get (MOP_POOL_CFG1_PORT p))).search with
    | some sr => decide (sr.sof ≤ s.monNext m) && sr.mayReach k
    | none => false

/-- MONITOR_DEADLINE: the deadline has passed and every reception that could satisfy it has ended (R185, R186). -/
def execMonitorDeadline (m : Fin 4096) (s : State) : Out :=
  .next (if s.flag (MOP_MON_CFG_EN m) && decide (s.monNext m ≤ s.now) && !s.monHeld m then s.monTimeout m else s)

/-- Report every deadline of a monitor that lies before a satisfying frame's timestamp (R185). -/
def State.monCatchUp (s : State) (m t : Nat) : Nat → State
  | 0 => s
  | k + 1 => if s.flag (MOP_MON_CFG_EN m) && decide (s.monNext m < t) then (s.monTimeout m).monCatchUp m t k else s

/-- The deadlines of a monitor before `t`. -/
def State.monBefore (s : State) (m t : Nat) : Nat := (t - s.monNext m) / s.monPeriod m + 1

/-- A frame with ingress timestamp `t` becomes valid for mailbox `k`: it satisfies its monitors, unless it is tainted and
they do not take tainted frames (R184, R185). -/
def State.monFrame (s : State) (k t : Nat) (taint : Bool) : State :=
  s.each (List.range 4096) fun s m =>
    if s.flag (MOP_MON_CFG_EN m) && s.get (MOP_MON_CFG_SLOT m) = k && !(taint && s.flag (MOP_MON_CFG_TAINT_MISS m)) then
      let s := s.monCatchUp m t (s.monBefore m t)
      if s.flag (MOP_MON_CFG_EN m) then (s.inc (MOP_MON_STAT_HITS m)).setMonNext m (t + s.monPeriod m) else s
    else s

/-! ## Mailboxes (R183) -/

/-- A valid frame reaches mailbox `k` of pool `p`: it takes the second buffer, or is dropped (R183). -/
def State.mailbox (s : State) (k p : Nat) (f : Frame) (stamp wp : Nat) (taint : Bool) (entry : Option Nat) : State :=
  let st := s.get (MOP_DESC_STATE k)
  let s :=
    if s.awaitsLayout p then s.countDrop p
    else if st = slotDone && !s.flag (MOP_POOL_CFG1_REPLACE p) then s.countDrop p
    else
      let old := s.bufOf k
      let new := (s.slotHid k).spare
      let s := s.modSlot k fun h => { h with spare := old }
      s.fillRx k p f stamp wp taint entry new (if st = slotDone then codeOverwritten else codeOK)
  s.monFrame k stamp taint

/-! ## Pools that go, and layouts (R179, R376, R516) -/

/-- A TX slot of a pool that is revoked, removed or changed (R179): it ends with the code, one on the wire once its
attempt has ended, a duplicate with its original (R173); a staged gateway copy of a revoked leg pool is aborted (R257). -/
def State.dropTx (s : State) (code k : Nat) : State :=
  let st := s.get (MOP_DESC_STATE k)
  if (s.slotHid k).dupOf.isSome then s
  else if st = slotQueued || (st = slotArb && (s.idleSlot k || code = codeRevoked)) then s.endRequest k code
  else if st = slotArb || st = slotOnWire then s.modSlot k fun h => { h with stop := some code }
  else if st = slotStaged && code = codeRevoked && (s.copyOf k).isSome then s.completeTx k slotAborted code none
  else s

/-- A slot of a pool that is revoked, removed or changed (R179): a TX slot ends as `dropTx` says; an unreleased RX or MBX
frame is discarded without a completion, and its buffer returns. With `clear` the buffers of the pool become 0, that of a
slot on the wire at its end. -/
def State.dropSlot (s : State) (p code : Nat) (clear : Bool) (k : Nat) : State :=
  let st := s.get (MOP_DESC_STATE k)
  let f := s.get (MOP_POOL_CFG1_FSP p)
  let kind := s.get (MOP_POOL_CFG1_KIND p)
  if kind = kindTX then
    let s := s.dropTx code k
    if clear && s.get (MOP_DESC_STATE k) != slotOnWire then s.zeroBuf f (s.bufOf k) else s
  else
    let s := s.when (clear && (st = slotDone || kind = kindMBX)) fun s => s.zeroBuf f (s.bufOf k)
    let s := s.when (clear && kind = kindMBX) fun s => s.zeroBuf f (s.slotHid k).spare
    if st = slotDone then s.releaseRx p k else s

/-- Receptions in progress into a pool lose their slot and buffer (R179). -/
def State.dropAdmissions (s : State) (p : Nat) : State :=
  s.each s.ports fun s e => match e.2.search with
    | some sr =>
      match sr.adm with
      | some a =>
        if a.pool = p then
          (s.cancelAdmission a).modPort e.1 fun q => { q with search := some { sr with adm := none, refused := true } }
        else s
      | none => s
    | none => s

/-- Every slot of a pool is dropped. -/
def State.dropPool (s : State) (p code : Nat) (clear : Bool) : State :=
  (s.dropAdmissions p).each (s.poolSlots p) fun s k => s.dropSlot p code clear k

/-- The buffers of a layout in ascending hall offset: LARGE and SMALL. -/
def State.layoutBufs (s : State) (f : Nat) : List Nat × List Nat :=
  let b := s.fspBase f
  let nl := s.get (MOP_FSP_CNT_NLARGE f)
  ((List.range nl).map fun i => b + 2048 * i,
   (List.range (s.get (MOP_FSP_CNT_NSMALL f))).map fun i => b + 2048 * nl + 64 * i)

/-- Give the slots of a pool their fixed buffers: one for a TX slot, two for a mailbox (R160). -/
def State.fixBufs (s : State) (f : Nat) : List (Nat × Bool × Bool) → List Nat × List Nat → State
  | [], (l, sm) => s.setFreeBufs f (sm, l)
  | (k, mbx, large) :: ks, (l, sm) =>
    let pool := if large then l else sm
    let a := pool.headD 0
    let rest := pool.tail
    let b := rest.headD 0
    let rest := if mbx then rest.tail else rest
    let s := s.setBuf k a
    let s := if mbx then s.modSlot k fun h => { h with spare := b } else s
    s.fixBufs f ks (if large then (rest, sm) else (l, rest))

/-- Lay out frame-store pool `f`: the fixed buffers of its TX and MBX pools in ascending hall offset, the others free in
ascending order (R160). -/
def State.layoutFsp (s : State) (f : Nat) : State :=
  let ps := (List.range 1024).filter fun p =>
    s.get (MOP_POOL_CFG1_FSP p) = f
      && (s.get (MOP_POOL_CFG1_KIND p) = kindTX || s.get (MOP_POOL_CFG1_KIND p) = kindMBX)
  let slots := ps.flatMap fun p => (s.poolSlots p).map fun k =>
    (k, s.get (MOP_POOL_CFG1_KIND p) == kindMBX, s.flag (MOP_POOL_CFG1_BUFCLASS p))
  s.fixBufs f slots (s.layoutBufs f)

/-- No attempt and no reception in progress uses a buffer of frame-store pool `f` as it is laid out: every buffer has
returned. -/
def State.bufsBack (s : State) (f : Nat) : Bool :=
  let lo := s.fspBase f
  let hi := lo + s.get (MOP_FSP_CNT_NLARGE f) * 2048 + s.get (MOP_FSP_CNT_NSMALL f) * 64
  let inside := fun a => decide (lo ≤ a) && decide (a < hi)
  !s.ports.any fun e =>
    (match e.2.attempt with
      | some a => !a.beacon && inside (s.bufOf a.slot)
      | none => false)
    || (match e.2.search.bind (·.adm) with
      | some a => inside a.buf
      | none => false)

/-- Frame-store pool `f` takes its new layout once the ports of the pools that name it in either image have moved and its
buffers have returned, and the QUEUEs held for it proceed (R516). -/
def State.fspRelayout (s : State) (f : Nat) : State :=
  match s.store.relayout.find? (·.1 == f) with
  | none => s
  | some (_, b, c, r, ns) =>
    let mine := (List.range 1024).filter fun p =>
      s.get (MOP_POOL_CFG1_FSP p) = f && s.get (MOP_POOL_CFG1_KIND p) != 0
    if (ns ++ mine.map fun p => s.get (MOP_POOL_CFG1_PORT p)).any s.inTransit || !s.bufsBack f then s
    else
      let s := ((s.setWord (MOP_FSP_BASE_BASE f).addr b).setWord (MOP_FSP_CNT_NSMALL f).addr c).setWord
        (MOP_FSP_RSV_RSV_SMALL f).addr r
      let s := { s with store := { s.store with relayout := s.store.relayout.filter (·.1 != f) } }
      let s := s.layoutFsp f
      let go := s.store.heldQueue.filter fun k => match s.poolOf k with
        | some p => mine.contains p
        | none => true
      let s := { s with store := { s.store with heldQueue := s.store.heldQueue.filter (!go.contains ·) } }
      s.each go fun s k => match s.poolOf k with
        | some p => (s.mopQueue p k).getD s
        | none => s

/-- FSP_RELAYOUT: the ports of the pools that name frame-store pool `f` have moved and its buffers have returned. -/
def execFspRelayout (f : Fin 256) (s : State) : Out := .next (s.fspRelayout f)

end Sys2Proof.Machine
end

