-- ==== Sys2Proof/Config.lean ====
section
/-! DEFINITION. What one part fixes and the spec does not state: the device root of the fuses, random numbers, and values
and layouts that the spec leaves open. Nothing can see a value of any of them. -/

namespace Sys2Proof.Config

/-- The device root DR of the fuses (R428). -/
opaque deviceRoot : BitVec 256

/-- The n-th number of the device's random source (R338, R424). -/
opaque random64 : Nat → BitVec 64

/-- The label and the context of DERIVE that lie at a hall offset: R434 gives their place and no layout. -/
opaque labelContext : Nat → List Host.Cell → List Byte × List Byte

/-- The gain that wingprint feature k declares (R129): the manual names the gain and no field that holds it. -/
opaque featureGain : Nat → Nat

/-- The value of feature k of a window without an occurrence of it: R132 divides by a count of 0 there. -/
opaque emptyFeature : Nat → BitVec 16

/-- The MAC of the n-th AUTH beacon of a port whose key is refused (R433): no rule states what it carries. -/
opaque unkeyedMac : Nat → Nat → BitVec 64

/-- mtval of a breakpoint exception at a pc: the Privileged ISA lets it be 0 or the address, and R271 chooses neither. -/
opaque breakTval : BitVec 32 → BitVec 32

/-- The choice among the lines that a full L1 or L2 set may replace: R285 and R296 give no replacement rule. -/
opaque victim : Nat → Nat

/-- One declaration of a section of a structure image. The spec defines an image down to its sections and gives their
content no layout, so this is how the model holds what a section declares, in the order in which it lists it:

* `num`: the number of what is declared (station, port, pool, frame-store pool, table, route, unit, ring, region,
  member, guard output, stream, binding), and `ports`: the ports that it concerns;
* `vals`: the register fields it gives, as offset, mask and value;
* `kind`: in POOLS 0 a pool and 1 a frame-store pool; in ROUTES 0 a route and 1 a tunnel stream; in CATALOGUE 0 a table and 1 a port's binding; in LEDGER 0 a ring; in
  CURATOR 1 a guard output in use; in POWER 0 a region; in SPINE 1 a stream; in SECURITY 0 a binding and 1 the key handle of
  a port's beacon (in `aux`); in CONSTELLATION 0 a member;
* `aux`: in STATIONS the clusters; in PORTS the segment (ports of one segment have one number); in ROUTES the leg numbers; in TIME the default increment; in
  CONSTELLATION the first 64 bits of the member's identity; in DEVICE the power budget and the declared load in mW, the
  ambient in °C + 100, and further required sections; in POWER, kind 1, the driver loads of the two Line dies in mW;
* `regions`: in STATIONS the protection regions, as first and last hall offset;
* `exact`, `ordered`: in CATALOGUE the entries of a table, eight words each;
* `raw`: the bytes of the declaration. -/
structure Decl where
  num : Nat := 0
  ports : List Nat := []
  vals : List (Nat × Word × Word) := []
  kind : Nat := 0
  aux : List Nat := []
  regions : List (Nat × Nat) := []
  exact : List (List Word) := []
  ordered : List (List Word) := []
  raw : List Byte := []
  deriving DecidableEq, Repr

/-- What a section of a type declares: the spec gives the content of sections no byte layout. -/
opaque sectionDecls : Nat → List Byte → List Decl

/-- Features that an image enables and a life-cycle state forbids (reason code 0x0706), as section type and entry index: no
rule names one. -/
opaque forbiddenFeatures : Nat → List Byte → List (Nat × Nat)

end Sys2Proof.Config
end

