-- ==== Sys2Proof/Machine/ObsOps.lean ====
section
/-! DEFINITION. Shared operations of line observation: accumulators, wingprints, enrolment and census trackers (R129 to
R148). -/

namespace Sys2Proof.Machine

/-! ## The converter (R127) -/

/-- The code of a differential voltage in µV, of 31.25 mV in 8 bits, rounded down; beyond the range the extreme code, and the
sample is saturated (R127). -/
def adc (v : Int) : Int × Bool :=
  if v < -4000000 then (-128, true) else if 3968750 < v then (127, true) else (v / 31250, false)

/-- The codes of voltages. -/
def codesOf (vs : List Int) : List Int := vs.map fun v => (adc v).1

/-! ## Accumulators (R129, R130) -/

/-- Add a contribution to a 40-bit accumulator; the flag says that it saturated, and then it holds its value. -/
def acc40 (a : Int × Bool) (c : Int) : Int × Bool :=
  if a.2 then a
  else if a.1 + c < -549755813888 then (-549755813888, true)
  else if 549755813887 < a.1 + c then (549755813887, true)
  else (a.1 + c, false)

/-- The guard bits of an accumulator are not all equal to bit 31. -/
def guardsDiffer (v : Int) : Bool := v < -2147483648 || 2147483647 < v

/-- What an `n`-bit signed field reports of value `v` of accumulator `a`, and whether the quantity is clipped. -/
def reportOf (n : Nat) (a : Int × Bool) (v : Int) : Int × Bool :=
  let hi : Int := 2 ^ (n - 1) - 1
  if a.2 || guardsDiffer a.1 || v < -hi - 1 || hi < v then (if a.1 < 0 then -hi - 1 else hi, true) else (v, false)

/-! ## Wingprint features (R131, R132) -/

/-- A feature of a window: value, clipped, usable. -/
structure Feature where
  value : Int
  clipped : Bool
  usable : Bool
  deriving DecidableEq, Repr

/-- The accumulator and the count of a feature's occurrences. -/
def gather (gain : Nat) (occ : List (Int × Nat)) : (Int × Bool) × Nat :=
  occ.foldl (fun a o => (acc40 a.1 (o.1 * 2 ^ gain), a.2 + o.2)) ((0, false), 0)

/-- Feature `k` of a window. -/
def featureOf (k : Nat) (occ : List (Int × Nat)) : Feature :=
  let (a, c) := gather (Config.featureGain k) occ
  if c = 0 then { value := (Config.emptyFeature k).toInt, clipped := a.2 || guardsDiffer a.1, usable := false }
  else
    let (v, clipped) := reportOf 16 a (a.1.tdiv c)
    { value := v, clipped, usable := !clipped && decide (8 ≤ c) }

/-- A bit lies in the window of a frame: the fast mode of a CAN XL frame, else the body (table "Wingprint windows"). -/
def inWindow (xl : Bool) (b : BitSeen) : Bool := b.field = if xl then .fast else .body

/-- The central samples of a bit as codes. -/
def bitCodes (b : BitSeen) : List Int := codesOf b.central

/-- The edges between two bits of the window, each with the bit that begins at it. -/
def windowEdges (xl : Bool) (w : Wingprint) : List (EdgeSeen × BitSeen) :=
  w.edges.filterMap fun e =>
    match w.bits[e.bit - 1]?, w.bits[e.bit]? with
    | some a, some b => if 1 ≤ e.bit && inWindow xl a && inWindow xl b && a.one != b.one then some (e, b) else none
    | _, _ => none

/-- The differences of consecutive values. -/
def diffs (l : List Int) : List Int := (l.zip (l.drop 1)).map fun x => x.2 - x.1

/-- The largest of some values. -/
def largest (l : List Int) : Int := l.tail.foldl max (l.headD 0)

/-- The middle one of some samples. -/
def midOf (l : List Int) : Int := l.getD (l.length / 2) 0

/-- The runs of logic-0 bits; `cur` is the run in progress. -/
def zeroRuns : List BitSeen → List BitSeen → List (List BitSeen)
  | [], cur => [cur]
  | b :: bs, cur => if b.one then cur :: zeroRuns bs [] else zeroRuns bs (cur ++ [b])

/-- Occurrences that count one each. -/
def once (l : List Int) : List (Int × Nat) := l.map (·, 1)

/-- The occurrences of feature `k` in the window of a frame, each with its contribution and what it adds to the count (table
"Wingprint features"). -/
def occurrencesOf (xl : Bool) (w : Wingprint) (k : Nat) : List (Int × Nat) :=
  let bits := w.bits.filter (inWindow xl ·)
  let edges := windowEdges xl w
  let level := fun (one : Bool) => (bits.filter (·.one == one)).map bitCodes
  let toA := edges.filter fun x => !x.2.one
  let toB := edges.filter fun x => x.2.one
  match k with
  | 0 => once (level false).flatten
  | 1 => once (level true).flatten
  | 2 => once ((level false).flatMap fun l => (diffs l).map fun d => (d.natAbs : Int))
  | 3 => once ((level true).flatMap fun l => (diffs l).map fun d => (d.natAbs : Int))
  | 4 => once (toA.map fun x => (x.1.time : Int))
  | 5 => once (toB.map fun x => (x.1.time : Int))
  | 6 => once (toA.map fun x => largest (codesOf (x.1.after.take 4)) - midOf (bitCodes x.2))
  | 7 => once (toB.map fun x => ((diffs (codesOf (x.1.after.take 8))).map fun d => d * d).sum)
  | 8 =>
    match edges with
    | e :: es => es.map fun x => (x.1.error - e.1.error, x.1.bit - e.1.bit)
    | [] => []
  | 9 => once ((diffs (edges.map fun x => x.1.error)).map fun d => (d.natAbs : Int))
  | 10 => once (toA.map fun x => largest ((diffs (codesOf x.1.within)).map fun d => (d.natAbs : Int)))
  | _ =>
    let runs := (zeroRuns bits []).filter fun r => 5 ≤ r.length
    once (runs.map fun r => let l := r.flatMap bitCodes; l.getLastD 0 - l.headD 0)

/-- The twelve features of a window. -/
def featuresOf (xl : Bool) (w : Wingprint) : List Feature :=
  (List.range 12).map fun k => featureOf k (occurrencesOf xl w k)

/-! ## Comparison (R133, R134) -/

/-- The features that take part against signature `i` of Line die `d`. -/
def State.partOf (s : State) (d i : Nat) (fs : List Feature) : List (Feature × Nat) :=
  fs.zipIdx.filter fun x => x.1.usable && (s.get (OBS_SIGHDR_ENABLE d i)).testBit x.2

/-- The result of a comparison with its counts out of tolerance and taking part: 1 MATCH, 2 MISMATCH, 3 UNDECIDED. -/
def State.compareSig (s : State) (d i : Nat) (fast : Bool) (fs : List Feature) : Nat × Nat × Nat :=
  let part := s.partOf d i fs
  let out := part.filter fun x =>
    decide (s.get (OBS_SIGFEAT_TOL d i x.2) < (x.1.value - s.getInt (OBS_SIGFEAT_CENTRE d i x.2)).natAbs)
  let r :=
    if !s.flag (OBS_SIGHDR_VALID d i) || s.flag (OBS_SIGHDR_CLASS d i) != fast
        || decide (part.length < max 1 (s.get (OBS_SIGHDR_MINF d i))) then 3
    else if s.get (OBS_SIGHDR_ALLOW d i) < out.length then 2 else 1
  (r, out.length, part.length)

/-- The signature store as a port sees it: until it moves, that of the old image (R61, R152). -/
def State.sigView (s : State) (n : Nat) : State :=
  if s.inTransit n then { s with regs := s.img.sigs } else s

/-- The front end of a port runs (R128). -/
def State.frontEnd (s : State) (n : Nat) : Bool := !stopsEngine (s.get (LP_STATE_PSTATE n))

/-- OBS[n].WP_LAST and WP_FEAT take a comparison. -/
def State.setWpLast (s : State) (n : Nat) (c : Nat × Nat × Nat) (fs : List Feature) : State :=
  let s := ((s.set (OBS_WP_LAST_RESULT n) c.1).set (OBS_WP_LAST_NOUT n) c.2.1).set (OBS_WP_LAST_NUSE n) c.2.2
  s.each fs.zipIdx fun s x =>
    let s := s.put (clippedLoc n x.2) x.1.clipped
    s.setInt (if x.2 % 2 = 0 then OBS_WP_FEAT_LO n (x.2 / 2) else OBS_WP_FEAT_HI n (x.2 / 2)) x.1.value

/-- Compare a frame, of format CAN XL or not, with the signature `sig` that its entry names: result 0 when none is compared
(R133). Its class is FAST for CAN XL, else NOMINAL (R131). -/
def State.wingResult (s : State) (n sig : Nat) (xl : Bool) (w : Option Wingprint) : (Nat × Nat × Nat) × State :=
  match w with
  | some w =>
    if s.flag (OBS_CFG_WP_EN n) && sig != 0xFFF && s.frontEnd n then
      let fs := featuresOf xl w
      let c := (s.sigView n).compareSig (dieOf n) sig xl fs
      (c, s.setWpLast n c fs)
    else ((0, 0, 0), s)
  | none => ((0, 0, 0), s)

/-- The result taints the frame (R136). -/
def State.taints (s : State) (n r : Nat) : Bool :=
  (r = 2 && 1 ≤ s.get (OBS_CFG_TAINT n)) || (r = 3 && 2 ≤ s.get (OBS_CFG_TAINT n))

/-- Counts and causes of a result, with the slot that holds the frame (R136, R149, R153). -/
def State.wingReport (s : State) (n : Nat) (c : Nat × Nat × Nat) (slot : Option Nat) : State :=
  let no := if slot.isNone then 128 else 0
  match c.1 with
  | 2 => ((s.inc (OBS_WP_CNT_MISMATCH n)).obsCause n 0x01 (c.2.1 % 16 + no) (slot.getD 0)).capTrigger n 2
  | 3 =>
    let s := s.inc (OBS_WP_CNT_UNDECIDED n)
    (s.when (2 ≤ s.get (OBS_CFG_TAINT n)) fun s => s.obsCause n 0x02 (c.2.2 % 16 + no) (slot.getD 0)).capTrigger n 3
  | _ => s

/-! ## Enrolment (R137) -/

/-- The frames that ENR_SEL.NSEL selects. -/
def enrTarget (v : Nat) : Nat := match v with | 0 => 64 | 1 => 128 | 2 => 256 | _ => 1024

/-- Field SQ of ENR_SQ[k] and its accumulator. -/
def State.setEnrSq (s : State) (n k : Nat) (a : Int × Bool) : State :=
  let s := s.modObs n fun o =>
    { o with enrSq := (List.range 12).map fun j => if j = k then a else o.enrSq.getD j (0, false) }
  (s.setInt (OBS_ENR_SQ_SQ n k) a.1).when a.2 fun s => s.put (clipLoc n k) true

/-- A usable feature enters the sums. -/
def State.enrFeature (s : State) (n k : Nat) (v : Int) : State :=
  let s := s.setInt (OBS_ENR_SUM_SUM n k) (s.getInt (OBS_ENR_SUM_SUM n k) + v)
  let s := s.setEnrSq n k (acc40 ((s.obsPort n).enrSq.getD k (0, false)) (v * v))
  s.inc (if k % 2 = 0 then OBS_ENR_USE_LO n (k / 2) else OBS_ENR_USE_HI n (k / 2))

/-- The enrolment reaches its frame count: clipped sums read the extreme, and cause 0x03 is raised. -/
def State.enrDone (s : State) (n : Nat) : State :=
  let s := s.each (List.range 12) fun s k =>
    if guardsDiffer ((s.obsPort n).enrSq.getD k (0, false)).1 then s.setEnrSq n k (549755813887, true) else s
  (s.set (OBS_STAT_ENR n) 2).obsCause n 0x03 (min 255 (s.get (OBS_ENR_STAT_DONE n))) 0

/-- A received frame enters a running enrolment. -/
def State.enrFrame (s : State) (n : Nat) (f : Frame) (w : Wingprint) : State :=
  let first := s.get (OBS_ENR_STAT_DONE n) = 0
  let xl := f.fmt == fmtXL
  if s.get (OBS_STAT_ENR n) = 1 && f.id == s.get (OBS_ENR_SEL_ID n) && f.ide == s.flag (OBS_ENR_SEL_IDE n)
      && (first || s.flag (OBS_ENR_STAT_CLASS n) == xl) then
    let s := s.put (OBS_ENR_STAT_CLASS n) xl
    let s := s.each (featuresOf xl w).zipIdx fun s x => if x.1.usable then s.enrFeature n x.2 x.1.value else s
    let s := s.inc (OBS_ENR_STAT_DONE n)
    if enrTarget (s.get (OBS_ENR_SEL_NSEL n)) ≤ s.get (OBS_ENR_STAT_DONE n) then s.enrDone n else s
  else s

/-! ## Census trackers (R144 to R148) -/

/-- The decision time of slot `k`. -/
def State.cenTime (s : State) (n k : Nat) : Nat :=
  (s.obsPort n).cenStart + (k + 1) * s.get (OBS_CFG_DWELL n) * 1000000

/-- The decision time of the last slot, T_e. -/
def State.cenEnd (s : State) (n : Nat) : Nat := s.cenTime n (s.get (OBS_CFG_NSLOT n) - 1)

/-- A census is running. -/
def State.cenRuns (s : State) (n : Nat) : Bool := s.get (OBS_STAT_CEN n) = 1

/-- Slot `k` of a running census awaits its decision. -/
def State.cenAwaits (s : State) (n k : Nat) : Bool := s.cenRuns n && s.get (OBS_CEN_STAT_SLOT n) ≤ k

/-- The timestamps of slot `k`, newest first. -/
def State.seen (s : State) (n k : Nat) : List Nat := smapFind (fun _ => []) (s.obsPort n).seen k

/-- Keep of the timestamps, newest first, those later than the decision time and the newest that is not. -/
def keepSeen (t : Option Nat) (l : List Nat) : List Nat :=
  match t with
  | some t => l.takeWhile (t < ·) ++ (l.dropWhile (t < ·)).take 1
  | none => l.take 1

/-- A frame of slot `k` sets its last-seen time. -/
def State.saw (s : State) (n k t : Nat) : State :=
  let l := keepSeen (if s.cenRuns n then some (s.cenTime n k) else none) (t :: s.seen n k)
  s.modObs n fun o => { o with seen := smapPut (fun _ => []) o.seen k l }

/-- A slot takes a status with its status time; a status other than the previous census's raises its cause (R148). -/
def State.cenStatus (s : State) (n k st : Nat) (t : Option Nat) : State :=
  let old := s.get (OBS_CEN_RES_STATUS n k)
  let s := (s.set (OBS_CEN_RES_STATUS n k) st).setStamp (OBS_CEN_RES_W n k 2).addr (t.getD 0)
  let s := s.when (old != st) fun s => s.capTrigger n 4
  if st = s.get (OBS_CEN_RES_PREV n k) then s
  else match st with
    | 3 => s.obsCause n 0x07 k 0
    | 4 => s.obsCause n 0x07 k 0
    | 5 => s.obsCause n 0x08 k 0
    | 2 => s.obsCause n 0x09 k 0
    | _ => s

/-- The status of slot `k` at its decision time, with its status time (R145). -/
def State.cenBase (s : State) (n k : Nat) : Nat × Option Nat :=
  let t := s.cenTime n k
  let prev := s.get (OBS_CEN_RES_PREV n k)
  match (s.seen n k).find? (· ≤ t) with
  | some u =>
    if t ≤ u + s.get (OBS_CEN_RES_SILENCE n k) * 1000000 then (if prev = 3 || prev = 4 || prev = 5 then 2 else 1, some u)
    else (4, some u)
  | none => (3, none)

/-- The status of a decided slot: LATE from its first frame in (T_k, T_e] when it was ABSENT or ABSENT_SINCE (R146). -/
def State.cenResult (s : State) (n k : Nat) : Nat × Option Nat :=
  let late := ((s.seen n k).filter fun u => decide (s.cenTime n k < u) && decide (u ≤ s.cenEnd n)).getLast?
  match s.cenBase n k, late with
  | (3, _), some v => (5, some v)
  | (4, _), some v => (5, some v)
  | r, _ => r

/-- A decided slot shows its status: by ingress timestamps, whatever the order of processing (R145, R146). -/
def State.cenSettle (s : State) (n k : Nat) : State :=
  let r := s.cenResult n k
  if s.get (OBS_CEN_RES_STATUS n k) = r.1 then s.setStamp (OBS_CEN_RES_W n k 2).addr (r.2.getD 0)
  else s.cenStatus n k r.1 r.2

/-- The first unknown frame of a census is recorded; all are counted (R147). -/
def State.cenUnknown (s : State) (n : Nat) (c : CenFrame) : State :=
  let s := s.inc (OBS_CEN_STAT_UNK n)
  if s.flag (OBS_CEN_UNK_VALID n) then s
  else
    let s := ((s.set (OBS_CEN_UNK_ID n) c.id).put (OBS_CEN_UNK_IDE n) c.ide).put (OBS_CEN_UNK_VALID n) true
    (s.setStamp (OBS_CEN_UNK_T_NS n).addr c.t).obsCause n 0x0A 0 (c.id % 65536)

/-- A frame for the running census: one in [T_s, T_e] counts, for its slot or as unknown; a later one waits for the next
census (R145 to R147). -/
def State.cenTake (s : State) (n : Nat) (c : CenFrame) : State :=
  if !s.cenRuns n || decide (c.t < (s.obsPort n).cenStart) then s
  else if s.cenEnd n < c.t then s.modObs n fun o => { o with cenLater := o.cenLater ++ [c] }
  else
    match c.slot with
    | some k =>
      let s := s.inc (OBS_CEN_RES_FRAMES n k)
      if s.cenAwaits n k then s else s.cenSettle n k
    | none => s.cenUnknown n c

/-- A received frame goes to the trackers of a port with a census list: to the lowest slot that it matches, or, with MISMATCH
against every slot, as unknown (R144, R147). -/
def State.cenFrame (s : State) (n : Nat) (f : Frame) (t : Nat) (w : Wingprint) : State :=
  let slots := List.range (s.get (OBS_CFG_NSLOT n))
  let xl := f.fmt == fmtXL
  let fs := featuresOf xl w
  let res := slots.map fun k => ((s.sigView n).compareSig (dieOf n) (s.get (OBS_CEN_RES_SIG n k)) xl fs).1
  let c : CenFrame := { t, slot := slots.find? fun k => res.getD k 0 == 1, id := f.id, ide := f.ide }
  match c.slot with
  | some k => (s.saw n k t).cenTake n c
  | none => if !res.isEmpty && res.all (· == 2) then s.cenTake n c else s

/-- Enrolment and census of a received frame. -/
def State.observe (s : State) (n : Nat) (f : Frame) (t : Nat) (w : Option Wingprint) : State :=
  match w with
  | some w => if s.frontEnd n then (s.enrFrame n f w).cenFrame n f t w else s
  | none => s

end Sys2Proof.Machine
end

