-- ==== Sys2Proof/Machine/Crypto.lean ====
section
/-! DEFINITION. The cryptographic functions the chapters name: AES with CMAC and GCM (SP 800-38B, SP 800-38D), the key
derivation of R429, SHA-384 and the ECDSA P-384 signature check of FIPS 186-5. -/

namespace Sys2Proof.Machine

/-! ## AES (FIPS 197) -/

/-- Multiplication by x in GF(2^8). -/
def xtime (a : Nat) : Nat := if 128 ≤ a then (a * 2 - 256) ^^^ 0x1B else a * 2

/-- Multiplication in GF(2^8), by the bits of `b` from bit `n − 1` down. -/
def gmul (a b : Nat) : Nat → Nat
  | 0 => 0
  | n + 1 => xtime (gmul a (b / 2) n) ^^^ (if b % 2 = 1 then a else 0)

/-- The product in GF(2^8): Horner's rule over the bits of `b`. -/
def gf8 (a b : Nat) : Nat := gmul a b 8

/-- Rotate a byte left. -/
def rotl8 (a k : Nat) : Nat := (a * 2 ^ k + a / 2 ^ (8 - k)) % 256

/-- The inverse in GF(2^8): the 254th power. -/
def gfInv (a : Nat) : Nat :=
  let a2 := gf8 a a
  let a4 := gf8 a2 a2
  let a8 := gf8 a4 a4
  let a16 := gf8 a8 a8
  let a32 := gf8 a16 a16
  let a64 := gf8 a32 a32
  let a128 := gf8 a64 a64
  gf8 a128 (gf8 a64 (gf8 a32 (gf8 a16 (gf8 a8 (gf8 a4 a2)))))

/-- The S-box. -/
def sbox (a : Nat) : Nat :=
  let b := gfInv a
  b ^^^ rotl8 b 1 ^^^ rotl8 b 2 ^^^ rotl8 b 3 ^^^ rotl8 b 4 ^^^ 0x63

/-- XOR of two byte strings, as long as the shorter. -/
def xorBytes (a b : List Nat) : List Nat := List.zipWith (· ^^^ ·) a b

/-- One word of the key schedule: `ws` newest first, word number `i`, `nk` words of key, round constant `rc`. -/
def keyWord (nk i rc : Nat) (ws : List (List Nat)) : List Nat :=
  let prev := ws.headD []
  let back := ws.getD (nk - 1) []
  let t :=
    if i % nk = 0 then xorBytes ((prev.drop 1 ++ prev.take 1).map sbox) [rc, 0, 0, 0]
    else if 6 < nk && i % nk = 4 then prev.map sbox else prev
  xorBytes back t

/-- `n` further words of the key schedule. -/
def keyExpand (nk : Nat) : Nat → Nat → Nat → List (List Nat) → List (List Nat)
  | 0, _, _, ws => ws
  | n + 1, i, rc, ws =>
    keyExpand nk n (i + 1) (if i % nk = 0 then xtime rc else rc) (keyWord nk i rc ws :: ws)

/-- Split a list into `n` pieces of `k`. -/
def pieces {α : Type} (k : Nat) : Nat → List α → List (List α)
  | 0, _ => []
  | n + 1, l => l.take k :: pieces k n (l.drop k)

/-- The round keys of a 16- or 32-byte key. -/
def roundKeys (key : List Nat) : List (List Nat) :=
  let nk := key.length / 4
  let rounds := nk + 7
  let ws := (keyExpand nk (4 * rounds - nk) nk 1 (pieces 4 nk key).reverse).reverse
  pieces 16 rounds ws.flatten

/-- SubBytes and ShiftRows: byte `i` of the column-major state comes from row `i mod 4`, shifted left by the row. -/
def subShift (s : List Nat) : List Nat :=
  (List.range 16).map fun i => sbox (s.getD ((i / 4 + i % 4) % 4 * 4 + i % 4) 0)

/-- MixColumns of one column. -/
def mixColumn (c : List Nat) : List Nat :=
  (List.range 4).map fun i =>
    let g := fun j => c.getD ((i + j) % 4) 0
    xtime (g 0) ^^^ (xtime (g 1) ^^^ g 1) ^^^ g 2 ^^^ g 3

/-- The rounds after the first key addition. -/
def aesRounds : List (List Nat) → List Nat → List Nat
  | [], s => s
  | [k], s => xorBytes (subShift s) k
  | k :: ks, s => aesRounds ks (xorBytes ((pieces 4 4 (subShift s)).flatMap mixColumn) k)

/-- AES encryption of one block. -/
def aes (key block : List Byte) : List Byte :=
  match roundKeys (key.map (·.toNat)) with
  | [] => block
  | k :: ks => (aesRounds ks (xorBytes (block.map (·.toNat)) k)).map (BitVec.ofNat 8)

/-! ## CMAC (SP 800-38B) -/

/-- XOR of two byte strings. -/
def xorB (a b : List Byte) : List Byte := List.zipWith (· ^^^ ·) a b

/-- A block of zeros. -/
def zeroBlock : List Byte := List.replicate 16 0

/-- Doubling in GF(2^128) as CMAC subkeys use it. -/
def cmacDouble (b : List Byte) : List Byte :=
  let v := beNat b
  beBytes 16 (if 2 ^ 127 ≤ v then (v * 2 % 2 ^ 128) ^^^ 0x87 else v * 2)

/-- Subkey K1. -/
def cmacK1 (key : List Byte) : List Byte := cmacDouble (aes key zeroBlock)

/-- Subkey K2. -/
def cmacK2 (key : List Byte) : List Byte := cmacDouble (cmacK1 key)

/-- The final block of a message, padded and XORed with its subkey (R282). -/
def cmacFinal (key last : List Byte) : List Byte :=
  if last.length = 16 then xorB last (cmacK1 key)
  else xorB ((last ++ [0x80] ++ zeroBlock).take 16) (cmacK2 key)

/-- The chain over `n` full blocks and the final one. -/
def cmacChain (key : List Byte) : Nat → List Byte → List Byte → List Byte
  | 0, x, m => aes key (xorB x (cmacFinal key m))
  | n + 1, x, m => cmacChain key n (aes key (xorB x (m.take 16))) (m.drop 16)

/-- AES-CMAC of a message. -/
def cmac (key m : List Byte) : List Byte := cmacChain key ((m.length - 1) / 16) zeroBlock m

/-- The derivation of R429: two CMACs in counter mode over label and context. -/
def kdf (ki label context : List Byte) : List Byte :=
  let k := fun i : Nat => cmac ki (beBytes 4 i ++ label ++ [0] ++ context ++ beBytes 4 256)
  k 1 ++ k 2

/-! ## GCM (SP 800-38D) -/

/-- Multiplication in GF(2^128) with GCM's bit order: `z` collects, `v` is the shifted operand, over `n` bits of `x`. -/
def ghashMul : Nat → Nat → Nat → Nat → Nat
  | 0, _, _, z => z
  | n + 1, x, v, z =>
    ghashMul n x (if v % 2 = 1 then (v / 2) ^^^ (0xE1 * 2 ^ 120) else v / 2) (if x.testBit n then z ^^^ v else z)

/-- GHASH over whole blocks. -/
def ghash (h : Nat) : Nat → Nat → List Byte → Nat
  | 0, y, _ => y
  | n + 1, y, m => ghash h n (ghashMul 128 (y ^^^ beNat ((m.take 16 ++ zeroBlock).take 16)) h 0) (m.drop 16)

/-- Pad with zeros to whole blocks. -/
def padBlocks (m : List Byte) : List Byte := m ++ List.replicate ((16 - m.length % 16) % 16) 0

/-- Counter-mode encryption from counter `c`, the low 32 bits counting. -/
def gcmCtr (key : List Byte) : Nat → Nat → List Byte → List Byte
  | 0, _, _ => []
  | n + 1, c, m =>
    let c := c / 2 ^ 32 * 2 ^ 32 + (c + 1) % 2 ^ 32
    xorB (m.take 16) (aes key (beBytes 16 c)) ++ gcmCtr key n c (m.drop 16)

/-- AES-GCM with a 12-byte IV: the other text of a plaintext or ciphertext. -/
def gcmCrypt (key iv m : List Byte) : List Byte := gcmCtr key ((m.length + 15) / 16) (beNat iv * 2 ^ 32 + 1) m

/-- The AES-GCM tag over AAD and ciphertext. -/
def gcmTag (key iv aad c : List Byte) : List Byte :=
  let h := beNat (aes key zeroBlock)
  let data := padBlocks aad ++ padBlocks c ++ beBytes 8 (8 * aad.length) ++ beBytes 8 (8 * c.length)
  let g := ghash h (data.length / 16) 0 data
  xorB (beBytes 16 g) (aes key (beBytes 16 (beNat iv * 2 ^ 32 + 1)))

/-! ## SHA-384 (FIPS 180-4) -/

/-- Round constants of SHA-384 (FIPS 180-4), part 0. -/
def sha512K0 : List (BitVec 64) := [
  0x428a2f98d728ae22, 0x7137449123ef65cd, 0xb5c0fbcfec4d3b2f, 0xe9b5dba58189dbbc,
  0x3956c25bf348b538, 0x59f111f1b605d019, 0x923f82a4af194f9b, 0xab1c5ed5da6d8118,
  0xd807aa98a3030242, 0x12835b0145706fbe, 0x243185be4ee4b28c, 0x550c7dc3d5ffb4e2,
  0x72be5d74f27b896f, 0x80deb1fe3b1696b1, 0x9bdc06a725c71235, 0xc19bf174cf692694,
  0xe49b69c19ef14ad2, 0xefbe4786384f25e3, 0x0fc19dc68b8cd5b5, 0x240ca1cc77ac9c65]

/-- Round constants of SHA-384 (FIPS 180-4), part 1. -/
def sha512K1 : List (BitVec 64) := [
  0x2de92c6f592b0275, 0x4a7484aa6ea6e483, 0x5cb0a9dcbd41fbd4, 0x76f988da831153b5,
  0x983e5152ee66dfab, 0xa831c66d2db43210, 0xb00327c898fb213f, 0xbf597fc7beef0ee4,
  0xc6e00bf33da88fc2, 0xd5a79147930aa725, 0x06ca6351e003826f, 0x142929670a0e6e70,
  0x27b70a8546d22ffc, 0x2e1b21385c26c926, 0x4d2c6dfc5ac42aed, 0x53380d139d95b3df,
  0x650a73548baf63de, 0x766a0abb3c77b2a8, 0x81c2c92e47edaee6, 0x92722c851482353b]

/-- Round constants of SHA-384 (FIPS 180-4), part 2. -/
def sha512K2 : List (BitVec 64) := [
  0xa2bfe8a14cf10364, 0xa81a664bbc423001, 0xc24b8b70d0f89791, 0xc76c51a30654be30,
  0xd192e819d6ef5218, 0xd69906245565a910, 0xf40e35855771202a, 0x106aa07032bbd1b8,
  0x19a4c116b8d2d0c8, 0x1e376c085141ab53, 0x2748774cdf8eeb99, 0x34b0bcb5e19b48a8,
  0x391c0cb3c5c95a63, 0x4ed8aa4ae3418acb, 0x5b9cca4f7763e373, 0x682e6ff3d6b2b8a3,
  0x748f82ee5defb2fc, 0x78a5636f43172f60, 0x84c87814a1f0ab72, 0x8cc702081a6439ec]

/-- Round constants of SHA-384 (FIPS 180-4), part 3. -/
def sha512K3 : List (BitVec 64) := [
  0x90befffa23631e28, 0xa4506cebde82bde9, 0xbef9a3f7b2c67915, 0xc67178f2e372532b,
  0xca273eceea26619c, 0xd186b8c721c0c207, 0xeada7dd6cde0eb1e, 0xf57d4f7fee6ed178,
  0x06f067aa72176fba, 0x0a637dc5a2c898a6, 0x113f9804bef90dae, 0x1b710b35131c471b,
  0x28db77f523047d84, 0x32caab7b40c72493, 0x3c9ebe0a15c9bebc, 0x431d67c49c100d4c,
  0x4cc5d4becb3e42b6, 0x597f299cfc657e2a, 0x5fcb6fab3ad6faec, 0x6c44198c4a475817]

/-- Round constants of SHA-384 (FIPS 180-4). -/
def sha512K : List (BitVec 64) := sha512K0 ++ sha512K1 ++ sha512K2 ++ sha512K3

/-- Initial hash value of SHA-384 (FIPS 180-4). -/
def sha384Init : List (BitVec 64) := [
  0xcbbb9d5dc1059ed8, 0x629a292a367cd507, 0x9159015a3070dd17, 0x152fecd8f70e5939,
  0x67332667ffc00b31, 0x8eb44a8768581511, 0xdb0c2e0d64f98fa7, 0x47b5481dbefa4fa4]

/-- Word `t` of the message schedule from the words before it, newest first. -/
def shaSchedule (ws : List (BitVec 64)) : BitVec 64 :=
  let w2 := ws.getD 1 0
  let w7 := ws.getD 6 0
  let w15 := ws.getD 14 0
  let w16 := ws.getD 15 0
  let s0 := w15.rotateRight 1 ^^^ w15.rotateRight 8 ^^^ (w15 >>> 7)
  let s1 := w2.rotateRight 19 ^^^ w2.rotateRight 61 ^^^ (w2 >>> 6)
  s1 + w7 + s0 + w16

/-- Extend the message schedule by `n` words. -/
def shaExtend : Nat → List (BitVec 64) → List (BitVec 64)
  | 0, ws => ws
  | n + 1, ws => shaExtend n (shaSchedule ws :: ws)

/-- One round on the eight working variables. -/
def shaRound (v : List (BitVec 64)) (kw : BitVec 64) : List (BitVec 64) :=
  match v with
  | [a, b, c, d, e, f, g, h] =>
    let s1 := e.rotateRight 14 ^^^ e.rotateRight 18 ^^^ e.rotateRight 41
    let ch := (e &&& f) ^^^ (~~~e &&& g)
    let t1 := h + s1 + ch + kw
    let s0 := a.rotateRight 28 ^^^ a.rotateRight 34 ^^^ a.rotateRight 39
    let maj := (a &&& b) ^^^ (a &&& c) ^^^ (b &&& c)
    [t1 + (s0 + maj), a, b, c, d + t1, e, f, g]
  | _ => v

/-- Compress one 128-byte block. -/
def shaBlock (h : List (BitVec 64)) (block : List Byte) : List (BitVec 64) :=
  let ws := (pieces 8 16 block).map fun p => BitVec.ofNat 64 (beNat p)
  let ws := (shaExtend 64 ws.reverse).reverse
  List.zipWith (· + ·) h ((List.zipWith (· + ·) sha512K ws).foldl shaRound h)

/-- Compress `n` blocks. -/
def shaBlocks : Nat → List (BitVec 64) → List Byte → List (BitVec 64)
  | 0, h, _ => h
  | n + 1, h, m => shaBlocks n (shaBlock h (m.take 128)) (m.drop 128)

/-- SHA-384 of a message: 48 bytes. -/
def sha384 (m : List Byte) : List Byte :=
  let pad := (240 - (m.length + 1) % 128) % 128
  let p := m ++ [0x80] ++ List.replicate pad 0 ++ beBytes 16 (8 * m.length)
  ((shaBlocks (p.length / 128) sha384Init p).take 6).flatMap fun w => beBytes 8 w.toNat

/-! ## ECDSA P-384 (FIPS 186-5) -/

/-- The field prime of P-384. -/
def p384P : Nat := 2 ^ 384 - 2 ^ 128 - 2 ^ 96 + 2 ^ 32 - 1
/-- The group order of P-384. -/
def p384N : Nat :=
  0xFFFFFFFFFFFFFFFFFFFFFFFFFFFFFFFFFFFFFFFFFFFFFFFFC7634D81F4372DDF581A0DB248B0A77AECEC196ACCC52973
/-- The coefficient b of P-384. -/
def p384B : Nat :=
  0xB3312FA7E23EE7E4988E056BE3F82D19181D9C6EFE8141120314088F5013875AC656398D8A2ED19D2A85C8EDD3EC2AEF
/-- The base point of P-384. -/
def p384G : Nat × Nat :=
  (0xAA87CA22BE8B05378EB1C71EF320AD746E1D3B628BA79B9859F741E082542A385502F25DBF55296C3A545E3872760AB7,
   0x3617DE4A96262C6F5D9E98BF9292DC29F8F41DBD289A147CE9DA3113B5F0B8C00A60B1CE1D7E819D7A431D7C90EA0E5F)

/-- b^e mod m, over the low `n` bits of `e`. -/
def powMod (m b : Nat) : Nat → Nat → Nat
  | 0, _ => 1 % m
  | n + 1, e =>
    let h := powMod m b n (e / 2)
    let q := h * h % m
    if e % 2 = 1 then q * b % m else q

/-- The inverse modulo a prime of 384 bits. -/
def invMod (m a : Nat) : Nat := powMod m (a % m) 384 (m - 2)

/-- Addition of affine points; `none` is the point at infinity. -/
def ecAdd (a b : Option (Nat × Nat)) : Option (Nat × Nat) :=
  match a, b with
  | none, q => q
  | p, none => p
  | some (x1, y1), some (x2, y2) =>
    if x1 = x2 && (y1 + y2) % p384P = 0 then none
    else
      let l :=
        if x1 = x2 then (3 * x1 * x1 + (p384P - 3)) * invMod p384P (2 * y1) % p384P
        else (y2 + (p384P - y1)) * invMod p384P (x2 + (p384P - x1)) % p384P
      let x3 := (l * l + 2 * p384P - x1 - x2) % p384P
      some (x3, (l * (x1 + (p384P - x3)) + (p384P - y1)) % p384P)

/-- A multiple of a point, over the low `n` bits of `k`. -/
def ecMul (p : Nat × Nat) : Nat → Nat → Option (Nat × Nat)
  | 0, _ => none
  | n + 1, k =>
    let h := ecMul p n (k / 2)
    let d := ecAdd h h
    if k % 2 = 1 then ecAdd d (some p) else d

/-- An uncompressed public key of 97 bytes, when it is a point of the curve. -/
def p384Key (k : List Byte) : Option (Nat × Nat) :=
  let x := beNat ((k.drop 1).take 48)
  let y := beNat ((k.drop 49).take 48)
  if k.length = 97 && k.head? = some 4 && x < p384P && y < p384P
      && y * y % p384P = (x * x * x + (p384P - 3) * x + p384B) % p384P then some (x, y) else none

/-- The signature check of ECDSA P-384 with SHA-384: 97-byte key, message digest, r and s of 48 bytes each. -/
def ecdsaVerify (key digest sig : List Byte) : Bool :=
  match p384Key key with
  | none => false
  | some q =>
    let r := beNat (sig.take 48)
    let t := beNat ((sig.drop 48).take 48)
    if sig.length != 96 || r = 0 || p384N ≤ r || t = 0 || p384N ≤ t then false
    else
      let w := invMod p384N t
      let z := beNat digest
      match ecAdd (ecMul p384G 384 (z * w % p384N)) (ecMul q 384 (r * w % p384N)) with
      | none => false
      | some (x, _) => x % p384N = r

end Sys2Proof.Machine
end

