-- ==== Sys2Proof/Machine/Halls.lean ====
section
/-! DEFINITION. The memory halls: accesses with their checks, PMP, caches and ECC; handover, revocation, clearing and the
background test (R271 to R275, R300 to R321). -/

namespace Sys2Proof

/-! ## Requests (R312, R365) -/

/-- Bytes that an access touches. -/
def HallAcc.size : HallAcc → Nat
  | .read n => n
  | .write bs => bs.length
  | .fetch n => n
  | .amo _ _ => 4
  | .lr => 4
  | .sc _ => 4

/-- The access writes. -/
def HallAcc.writes : HallAcc → Bool
  | .write _ => true
  | .amo _ _ => true
  | .sc _ => true
  | _ => false

/-- The permission bits R 1, W 2, X 4 that an access needs. -/
def HallAcc.need : HallAcc → Nat
  | .read _ => 1
  | .write _ => 2
  | .fetch _ => 4
  | .amo _ _ => 3
  | .lr => 1
  | .sc _ => 2

/-- ACC of CUR.FIRST_ACC (R365). -/
def HallAcc.code : HallAcc → Nat
  | .read _ => 1
  | .write _ => 2
  | .fetch _ => 3
  | .amo _ _ => 4
  | .lr => 1
  | .sc _ => 2

/-- The exception cause of an access fault: fetch 1, load 5, store or AMO 7. -/
def HallAcc.cause (a : HallAcc) : Nat :=
  match a with
  | .fetch _ => 1
  | _ => if a.writes then 7 else 5

/-- Byte 1 of engine cause 0x02: 0 load, 1 store, 2 fetch (R298). -/
def HallAcc.kind (a : HallAcc) : Nat :=
  match a with
  | .fetch _ => 2
  | _ => if a.writes then 1 else 0

/-- The access needs its natural alignment (R271). -/
def HallAcc.atomic : HallAcc → Bool
  | .amo _ _ => true
  | .lr => true
  | .sc _ => true
  | _ => false

end Sys2Proof

namespace Sys2Proof.Machine

/-- The owner code of a master (R301). -/
def State.masterCode (s : State) : HallMaster → Option Nat
  | .host => some 64
  | .engine e => s.stationOf e
  | .store => some 66
  | .gateway => some 65
  | .ledger => some 67
  | .update => some 68

/-! ## Grants (R158, R273, R303, R349, R462) -/

/-- The buffers that slot `k` of pool `p` holds: both of a mailbox, none of a FREE receive slot (R160). -/
def State.slotBufs (s : State) (p k : Nat) : List Nat :=
  let kind := s.get (MOP_POOL_CFG1_KIND p)
  if kind = kindMBX then [s.bufOf k, (s.slotHid k).spare]
  else if kind = kindRX && s.get (MOP_DESC_STATE k) = slotFree then []
  else [s.bufOf k]

/-- A hall offset lies in a buffer of a pool that an owner holds (R158). -/
def State.inPoolBuffer (s : State) (code a : Nat) : Bool :=
  (List.range 1024).any fun p =>
    s.get (MOP_POOL_CFG1_KIND p) != 0 && s.get (MOP_POOL_CFG1_OWNER p) = code && !s.store.revoked.contains p
      && (s.poolSlots p).any fun k => (s.slotBufs p k).any fun b =>
        decide (b ≤ a) && decide (a < b + if s.isLargeBuf (s.get (MOP_POOL_CFG1_FSP p)) b then 2048 else 64)

/-- The hall offset lies in ring `k` (R349). -/
def State.inRing (s : State) (k a : Nat) : Bool :=
  let b := s.get (LEDG_RING_BASE_BASE k) * 16
  s.flag (LEDG_RING_CFG_EN k) && b ≤ a && a < b + 16 * 2 ^ s.get (LEDG_RING_CFG_L k)

/-- A station reads this ring offset: an engine of it is the ring's target; the host reads every ring (R349). -/
def State.ringReader (s : State) (code a : Nat) : Bool :=
  (List.range 64).any fun k => s.inRing k a
    && (code = 64 || (s.get (LEDG_RING_CFG_TARGET k) < 1024 && s.stationOf (s.get (LEDG_RING_CFG_TARGET k)) == some code))

/-- The hall offset lies in part `st` or `64 + st` of the chrysalis area (R462). -/
def State.inChrysalis (s : State) (st a : Nat) : Bool :=
  let (base, part) := s.upd.chrysalis
  let inPart := fun k => base + part * k ≤ a && a < base + part * (k + 1)
  st < 64 && part != 0 && (inPart st || inPart (64 + st))

/-- A master that is not the unit's owner is granted the access. -/
def State.granted (s : State) (code a : Nat) (write : Bool) : Bool :=
  match s.get (HALL_OWN_CUR (unitOf a)) with
  | 66 => code ≤ 64 && s.inPoolBuffer code a
  | 67 => !write && s.ringReader code a
  | 68 => s.inChrysalis code a
  | _ => false

/-- A station window of an engine's cluster covers a byte with a permission (R273). -/
def State.inWindow (s : State) (c a need : Nat) : Bool :=
  (List.range 8).any fun w =>
    let perm := (if s.flag (CLU_WIN_A_R c w) then 1 else 0) + (if s.flag (CLU_WIN_A_W c w) then 2 else 0)
      + (if s.flag (CLU_WIN_A_X c w) then 4 else 0)
    s.flag (CLU_WIN_A_VALID c w) && s.get (CLU_WIN_A_BASE c w) * 4096 ≤ a
      && a < s.get (CLU_WIN_B_LAST c w) * 4096 + 4096 && (s.get (CLU_WIN_A_GROUPS c w)).testBit (a / 64 % 8)
      && (perm &&& need) == need

/-- Check 2 of R274 for one byte. -/
def State.engineMay (s : State) (e a need : Nat) : Bool :=
  s.inWindow (e / 8) a need
    || (match s.stationOf e with
        | some st => need != 4 && (s.inPoolBuffer st a || (need == 1 && s.ringReader st a) || s.inChrysalis st a)
        | none => false)

/-- The unit belongs to the pending handover. -/
def State.inHandover (s : State) (u : Nat) : Bool :=
  match s.halls.handover with
  | some (u0, n, _) => decide (u0 ≤ u) && decide (u < u0 + n)
  | none => false

/-- The unit is being revoked. -/
def State.inRevoke (s : State) (u : Nat) : Bool :=
  match s.halls.revoke with
  | some (_, _, us) => us.contains u
  | none => false

/-- The owner code is the one whose accesses to a unit are refused from the start of its handover or revocation on: its
current owner (R308, R309). -/
def State.barred (s : State) (code : Option Nat) (u : Nat) : Bool :=
  (s.inHandover u || s.inRevoke u) && code == some (s.get (HALL_OWN_CUR u))

/-- The owner code is the one to which the pending handover gives a unit. -/
def State.nextOwner (s : State) (code : Option Nat) (u : Nat) : Bool :=
  s.inHandover u
    && code == some (if s.get (HALL_OWN_CUR u) = s.get (HALL_OWN_OWNER u) then s.get (HALL_OWN_ALT u) else s.get (HALL_OWN_OWNER u))

/-- What the hall does with an access of an owner code to a byte: 0 serve, 1 hold, 2 refuse (R303, R308 to R310). The old
owner is refused; an access to a unit that is clearing is held, and so is one by the next owner; then the unit's ownership
and the grants decide. -/
def State.verdict (s : State) (code : Option Nat) (a : Nat) (write : Bool) : Nat :=
  let u := unitOf a
  if s.barred code u then 2
  else if s.flag (HALL_OWN_CLEARING u) || s.nextOwner code u then 1
  else if s.inHandover u || s.inRevoke u then 2
  else match code with
    | some c => if s.get (HALL_OWN_CUR u) = c || s.granted c a write then 0 else 2
    | none => 2

/-! ## Answers and faults -/

/-- A trap of an engine on an access, answered as an access fault. -/
def State.accTrap (s : State) (e cause addr : Nat) : State :=
  { s.trap e cause (BitVec.ofNat 32 addr) false with resp := some .fault }

/-- A refused access (R303): recorded first, reported to the curator; a host read returns 0, a host write is discarded,
an engine traps. -/
def State.refuseAccess (s : State) (r : HallReq) (a : Nat) : State :=
  let s :=
    if s.flag HALL_ERR_VALID then s
    else
      let reason := if s.get (HALL_OWN_CUR (unitOf a)) = 127 then 2 else 1
      let s := ((s.set HALL_ERR_REASON reason).set HALL_ERR_MASTER r.master.number).set HALL_ERR_UNIT (unitOf a)
      let s := (s.set HALL_ERR_ADDR_OFFSET a).put HALL_ERR_ADDR_WRITE r.acc.writes
      (s.put HALL_ERR_VALID true).raise 1613 reason
  let s := s.reportFrom 1613 0x22 a r.master.faultCode r.acc.code
  match r.master with
  | .engine e => s.accTrap e r.acc.cause r.addr
  | .host => if r.acc.writes then s.answerDone else s.answer 0
  | _ => { s with resp := some .fault }

/-- Errors that an access meets: a single-bit error is corrected, counted, reported and waits for its write-back; a
double-bit error poisons the word (R315, R316, R320). -/
def State.meetErrors (s : State) (r : HallReq) : State :=
  let s := s.each r.double fun s w => s.setPoison w true
  s.each r.single fun s w =>
    let h := hallOf (w * 8)
    ((((s.inc (HALL_ECC_CE h)).setFix w true).countPerMs (1600 + h) (1600 + h) 0).report (1600 + h) 0x20)

/-- The first poisoned word among those that bytes touch. -/
def State.firstPoison (s : State) (a n : Nat) : Option Nat := (wordsOf a n).find? s.isPoison

/-! ## Cached data (R285, R286) -/

/-- Bytes replaced in a line. -/
def splice (d : List Byte) (i : Nat) (bs : List Byte) : List Byte := d.take i ++ bs ++ d.drop (i + bs.length)

/-- A line leaves an engine's L1: a modified one is written back to the region L2 first. -/
def State.evictL1 (s : State) (e line : Nat) : State := (s.writeBackL1 e line).setL1 e line none

/-- The line of some that a full cache replaces. -/
def State.victim (s : State) (ls : List Nat) : Option Nat × State :=
  (ls[Config.victim s.cores.victims % ls.length]?, { s with cores := { s.cores with victims := s.cores.victims + 1 } })

/-- Room for one more line in an engine's L1 of 128 lines; the lines of the access in progress stay (R285). -/
def State.roomL1 (s : State) (e : Nat) (keep : List Nat) : State :=
  let ls := (s.engine e).l1.map (·.1)
  if ls.length < 128 then s
  else match s.victim (ls.filter (!keep.contains ·)) with
    | (some v, s) => s.evictL1 e v
    | (none, s) => s

/-- The set of a line in a region L2 of 1,024 sets of 16 ways (R285). -/
def l2Set (line : Nat) : Nat := line / 64 % 1024

/-- The L2 ways in which an engine's cluster allocates (R296). -/
def State.waysOf (s : State) (e : Nat) : List Nat :=
  (List.range 16).filter fun w => (s.get (RGN_PART_WAYS (e / 64) (e / 8 % 8))).testBit w

/-- A way for a line in an engine's region L2: a free one of its own, or that of a line of the set in one of its ways,
which is written back to the hall and leaves every cache of the region (R285, R296). -/
def State.roomL2 (s : State) (e line : Nat) : Nat × State :=
  let set := (s.region (e / 64)).l2.filterMap fun p => match p.2 with
    | some v => if l2Set p.1 = l2Set line then some (p.1, v.way) else none
    | none => none
  let ways := s.waysOf e
  match ways.find? fun w => !set.any (·.2 == w) with
  | some w => (w, s)
  | none =>
    match s.victim ((set.filter fun p => ways.contains p.2).map (·.1)) with
    | (some v, s) => (((set.find? (·.1 == v)).map (·.2)).getD 0, (s.cleanRegion (e / 64) v).dropLine (e / 64) v)
    | (none, s) => (0, s)

/-- A hall line comes into an engine's region L2 when it is not there. -/
def State.fillL2 (s : State) (e line : Nat) : State :=
  match s.l2 (e / 64) line with
  | some _ => s
  | none =>
    let (way, s) := s.roomL2 e line
    s.setL2 (e / 64) line (some { dirty := false, data := s.bytes line 64, way })

/-- The poisoned hall word that an engine's access to a line meets on its fill (R315). -/
def State.badFill (s : State) (e line : Nat) : Option Nat :=
  if (s.l1 e line).isSome || (s.l2 (e / 64) line).isSome then none else s.firstPoison line 64

/-- Bring a line into an engine's L1, with ownership when `own`. mhpmcounter3 to 5 count a miss of the L1, a miss of the
L2 and an ownership round trip (R271). -/
def State.fillL1 (s : State) (e line : Nat) (own : Bool) (keep : List Nat) : State :=
  let r := e / 64
  let others := (enginesOf r).filter (· != e)
  let shared := others.any fun o => (s.l1 o line).isSome
  let miss1 := (s.l1 e line).isNone
  let miss2 := miss1 && (s.l2 r line).isNone
  let trip := own && (match s.l1 e line with | some v => v.mesi = 0 | none => true)
  let s := s.modEngine e fun v => (if trip then (·.count 5) else id) ((if miss2 then (·.count 4) else id)
    ((if miss1 then (·.count 3) else id) v))
  let s := s.each others fun s o =>
    match (s.writeBackL1 o line).l1 o line with
    | some v => (s.writeBackL1 o line).setL1 o line (if own then none else some { v with mesi := 0 })
    | none => s
  match s.l1 e line with
  | some v => s.setL1 e line (some { v with mesi := if own then max 1 v.mesi else v.mesi })
  | none =>
    let s := (s.fillL2 e line).roomL1 e keep
    let d := match s.l2 r line with
      | some v => v.data
      | none => []
    s.setL1 e line (some { mesi := if own || !shared then 1 else 0, data := d })

/-- Bring every line of an access into an engine's L1. -/
def State.fillLines (s : State) (e : Nat) (own : Bool) (ls : List Nat) : State := s.each ls fun s l => s.fillL1 e l own ls

/-- The byte an engine's L1 holds. -/
def State.l1Byte (s : State) (e a : Nat) : Byte :=
  match s.l1 e (a / 64 * 64) with
  | some v => v.data.getD (a % 64) 0
  | none => s.byte a

/-- Write bytes into an engine's L1 lines, which become modified. -/
def State.l1Write (s : State) (e a : Nat) : List Byte → State
  | [] => s
  | b :: bs =>
    let s := match s.l1 e (a / 64 * 64) with
      | some v => s.setL1 e (a / 64 * 64) (some { mesi := 2, data := splice v.data (a % 64) [b] })
      | none => s
    s.l1Write e (a + 1) bs

/-- The result of an atomic operation on the old word. -/
def amoApply (op : AmoOp) (old w : Word) : Word :=
  match op with
  | .swap => w
  | .add => old + w
  | .xor => old ^^^ w
  | .and => old &&& w
  | .or => old ||| w
  | .min => if old.toInt ≤ w.toInt then old else w
  | .max => if w.toInt ≤ old.toInt then old else w
  | .minu => if old.toNat ≤ w.toNat then old else w
  | .maxu => if w.toNat ≤ old.toNat then old else w

/-- A load, store or atomic of an engine on lines held in its L1 (R271, R285); a fill that meets a poisoned word fails,
and is a poisoned read of it (R315). -/
def State.serveCached (s : State) (e : Nat) (r : HallReq) (a : Nat) : State :=
  match (linesOf a r.acc.size).findSome? (s.badFill e) with
  | some w => (s.poisonRead w r.master).accTrap e (if r.acc.kind = 2 then 1 else 5) r.addr
  | none =>
    let s := s.fillLines e r.acc.writes (linesOf a r.acc.size)
    let old := fun n => leNat ((List.range n).map fun i => s.l1Byte e (a + i))
    match r.acc with
    | .read n => s.answer (old n)
    | .fetch n => s.answer (old n)
    | .write bs => (s.l1Write e a bs).answerDone
    | .amo op w =>
      let o := BitVec.ofNat 32 (old 4)
      (s.l1Write e a (leBytes 4 (amoApply op o w).toNat)).answer o.toNat
    | .lr => (s.modEngine e fun v => { v with reservation := some (a / 64 * 64) }).answer (old 4)
    | .sc w =>
      let hit := (s.engine e).reservation == some (a / 64 * 64)
      let s := s.modEngine e fun v => { v with reservation := none }
      if hit then (s.l1Write e a (leBytes 4 w.toNat)).answer 0 else s.answer 1

/-- An access that goes to the hall banks: reads with poison, writes, and AMOs at the bank (R289, R314, R315). -/
def State.serveBank (s : State) (r : HallReq) (a : Nat) : State :=
  let n := r.acc.size
  let reads := r.acc.need != 2
  match (if reads then s.firstPoison a n else none), r.master with
  | some w, .engine e => (s.poisonRead w r.master).accTrap e r.acc.cause r.addr
  | some w, _ => { s.poisonRead w r.master with resp := some (.poisoned (leNat (s.bytes a n))) }
  | none, m =>
    match r.acc with
    | .read _ => s.answer (leNat (s.bytes a n))
    | .fetch _ => s.answer (leNat (s.bytes a n))
    | .write bs =>
      match m with
      | .engine e => (s.hallPut a bs e.val).answerDone
      | _ => (s.hallStore a bs m.faultCode).answerDone
    | .amo op w =>
      let o := s.memWord a
      (s.hallPut a (leBytes 4 (amoApply op o w).toNat) r.master.faultCode).answer o.toNat
    | .lr => s.answer (leNat (s.bytes a n))
    | .sc w => (s.hallStore a (leBytes 4 w.toNat) m.faultCode).answerDone

/-- The part of an access that lies in each hall word it touches, as first byte and length, in ascending order (R314). -/
def piecesOf (a n : Nat) : List (Nat × Nat) :=
  (wordsOf a n).map fun w => (max a (w * 8), min (a + n) (w * 8 + 8) - max a (w * 8))

/-- One word of a host request: refused, or written, or read with its poison (R303, R314, R315). -/
def State.hostPiece (s : State) (r : HallReq) (a : Nat) (p : Nat × Nat) : State :=
  if s.verdict (s.masterCode r.master) p.1 r.acc.writes = 2 then s.refuseAccess r p.1
  else match r.acc with
    | .write bs => s.hallStore p.1 ((bs.drop (p.1 - a)).take p.2) r.master.faultCode
    | _ => match s.firstPoison p.1 p.2 with
      | some w => s.poisonRead w r.master
      | none => s

/-- A host request, word by word in ascending address order: words of units that are not open to the host read 0, and keep
their content (R303, R314). -/
def State.servePieces (s : State) (r : HallReq) (a : Nat) : State :=
  let n := r.acc.size
  let ps := piecesOf a n
  let closed := fun (p : Nat × Nat) => s.verdict (s.masterCode r.master) p.1 r.acc.writes = 2
  let d := leNat (ps.flatMap fun p => if closed p then List.replicate p.2 0 else s.bytes p.1 p.2)
  let bad := ps.any fun p => !closed p && (s.firstPoison p.1 p.2).isSome
  let t := s.each ps fun s p => s.hostPiece r a p
  if r.acc.writes then t.answerDone
  else if bad then { t with resp := some (.poisoned d) } else t.answer d

/-- Counts of a master's access: waiting cycles, and an access split at a word boundary (R313, R314). -/
def State.countAccess (s : State) (r : HallReq) (a : Nat) : State :=
  let m := r.master.number
  let s := s.add (HALL_CONF_WAIT m) r.waits
  if 1 < (wordsOf a r.acc.size).length then s.inc (HALL_CONF_SPLIT m) else s

/-- An access waits. -/
def State.holdAccess (s : State) (r : HallReq) (clearing : Bool) : State :=
  { s with halls := { s.halls with held := s.halls.held ++ [{ req := r, since := s.ticks, clearing }] }, resp := none }

/-- The requests of an engine's station that engines of its region have outstanding. -/
def State.outstanding (s : State) (e : Nat) : Nat :=
  (s.halls.held.filter fun h => match h.req.master with
    | .engine o => o.val / 64 == e / 64 && s.stationOf o.val == s.stationOf e
    | _ => false).length

/-- Every hall credit of an engine's station in its region is in use (R296). An access whose lines are in the L2 needs
none. -/
def State.noCredit (s : State) (e : Nat) (r : HallReq) (a : Nat) (cached : Bool) : Bool :=
  s.outstanding e != 0 && decide (s.get (RGN_PART_CRED (e / 64) (e / 8 % 8)) ≤ s.outstanding e)
    && !(cached && (linesOf a r.acc.size).all fun l => (s.l2 (e / 64) l).isSome)

/-- The access waits for a hall credit. -/
def State.waitsCredit (s : State) (r : HallReq) (a : Nat) (cached : Bool) : Bool :=
  match r.master with
  | .engine e => s.noCredit e r a cached
  | _ => false

/-- An access that has passed the requester's own checks reaches the hall: served, held or refused (R303, R310); while
the hall is not ready it is held (R32), and so is an engine's without a hall credit (R296). -/
def State.reachHall (s : State) (r : HallReq) (a : Nat) (cached : Bool) : State :=
  let code := s.masterCode r.master
  let vs := (piecesOf a r.acc.size).map fun p => (s.verdict code p.1 r.acc.writes, p.1)
  let refused := vs.find? (·.1 == 2)
  let clearing := vs.any fun v => v.1 == 1 && s.flag (HALL_OWN_CLEARING (unitOf v.2))
  if s.waitsCredit r a cached then s.holdAccess r false
  else match r.master, refused with
    | .host, _ =>
      if vs.any (·.1 == 1) || !s.ready (8 + hallOf a) then s.holdAccess r clearing
      else ((s.meetErrors r).countAccess r a).servePieces r a
    | _, some (_, b) => s.refuseAccess r b
    | m, none =>
      if vs.any (·.1 == 1) || !s.ready (8 + hallOf a) then s.holdAccess r clearing
      else
        let s := (s.meetErrors r).countAccess r a
        match m, cached with
        | .engine e, true => s.serveCached e r a
        | _, _ => s.serveBank r a

/-! ## Engine accesses (R272, R274) -/

/-- A write of the scratchpad ends the reservations of the cluster's other engines on the line (R271). -/
def State.endReservations (s : State) (e a : Nat) : State :=
  s.each ((clusterEngines (e / 8)).filter (· != e)) fun s o =>
    s.modEngine o fun v => { v with reservation := if v.reservation == some (a / 64 * 64) then none else v.reservation }

/-- An engine's access to its cluster's scratchpad or instruction SRAM (R272). -/
def State.serveLocal (s : State) (e : Nat) (r : HallReq) (pad : Bool) : State :=
  let c := e / 8
  let cl := s.cluster c
  let o := r.addr % 2 ^ 24
  let m := if pad then cl.pad else cl.isram
  let old := fun n => leNat ((List.range n).map fun i => smapFind (fun _ => (0 : Byte)) m (o + i))
  let put := fun (s : State) (bs : List Byte) =>
    let s := s.each (linesOf r.addr bs.length) fun s l => s.endReservations e l
    let t := bs.zipIdx.foldl (fun t b => smapPut (fun _ => (0 : Byte)) t (o + b.2) b.1) m
    s.setCluster c (if pad then { cl with pad := t } else { cl with isram := t })
  match r.acc with
  | .read n => s.answer (old n)
  | .fetch n => s.answer (old n)
  | .write bs => (put s bs).answerDone
  | .amo op w =>
    let v := BitVec.ofNat 32 (old 4)
    (put s (leBytes 4 (amoApply op v w).toNat)).answer v.toNat
  | .lr => (s.modEngine e fun v => { v with reservation := some (r.addr / 64 * 64) }).answer (old 4)
  | .sc w =>
    let hit := (s.engine e).reservation == some (r.addr / 64 * 64)
    let s := s.modEngine e fun v => { v with reservation := none }
    if hit then (put s (leBytes 4 w.toNat)).answer 0 else s.answer 1

/-- An engine's access to memory, in the order of R274: address map, station window, PMP, then the hall's own rules. A
misaligned atomic is refused after the address map (R271). -/
def State.engineAccess (s : State) (e : Nat) (r : HallReq) : State :=
  let n := r.acc.size
  let v := s.engine e
  let a := r.addr
  let fault := s.accTrap e r.acc.cause a
  let isIn := fun lo size => lo ≤ a && a + n ≤ lo + size
  let odd := r.acc.atomic && a % 4 != 0
  if isIn 0x10000000 0x10000 then
    if r.acc.need &&& 2 != 0 then fault
    else if odd then s.accTrap e 6 a
    else if !v.pmpOk a n r.acc.need || (r.acc == .read n && [2, 4, 8].contains n && a % n != 0) then fault
    else s.serveLocal e r false
  else if isIn 0x11000000 0x20000 then
    if odd then s.accTrap e 6 a
    else if !v.pmpOk a n r.acc.need then fault else s.serveLocal e r true
  else
    let cached := isIn 0x80000000 0x4000000
    if !cached && !isIn 0xA0000000 0x4000000 then fault
    else if odd then s.accTrap e 6 a
    else
      let o := a % 0x4000000
      if !((List.range n).all fun i => s.engineMay e (o + i) r.acc.need) then
        ((fault.engCause e 0x02 r.acc.kind).reportFrom (512 + e) 0x10 a e r.acc.code)
      else if !v.pmpOk a n r.acc.need then fault
      else if !cached && (r.acc == .lr || (match r.acc with | .sc _ => true | _ => false)) then s.accTrap e 7 a
      else s.reachHall r o cached

/-- An access of a master to the halls, or of an engine to memory (R273, R274, R303, R310, R315). -/
def State.hallAccess (s : State) (r : HallReq) : State :=
  match r.master with
  | .engine e => if s.estate e = 2 then s.engineAccess e r else s
  | .host =>
    if s.ended then s.answer 0
    else if r.addr + r.acc.size ≤ 0x4000000 then s.reachHall r r.addr false else { s with resp := some .abort }
  | _ => if r.addr + r.acc.size ≤ 0x4000000 then s.reachHall r r.addr false else { s with resp := some .abort }

/-- A held access comes again; what it waited for a clear counts toward master 21, in hall cycles of 1 ns (R312, R313). -/
def State.serveOne (s : State) (h : HeldAcc) : State :=
  (s.when h.clearing fun s => s.add (HALL_CONF_WAIT 21) (2 * (s.ticks - h.since))).hallAccess h.req

/-- Serve the held accesses again, in order. -/
def State.serveHeld (s : State) : State :=
  ({ s with halls := { s.halls with held := [] } }).each s.halls.held State.serveOne

/-- A corrected word is written back in an idle cycle of its bank, unless a write superseded it (R315). -/
def execEccWriteback (w : Fin 8388608) (s : State) : Out := .next (s.setFix w false)

/-! ## Handover (R306 to R308) -/

/-- The other owner of a unit's pair. -/
def State.otherOwner (s : State) (u : Nat) : Nat :=
  if s.get (HALL_OWN_CUR u) = s.get (HALL_OWN_OWNER u) then s.get (HALL_OWN_ALT u) else s.get (HALL_OWN_OWNER u)

/-- The REFUSE code of a handover request (R306). -/
def State.handoverRefuse (s : State) (u n : Nat) : Option Nat :=
  let us := (List.range n).map (u + ·)
  let ph := s.get IMG_STATUS_PHASE
  if s.halls.handover.isSome then some 1
  else if 4095 < u + n - 1 then some 2
  else if us.any fun u => s.get (HALL_OWN_ALT u) = 127 then some 3
  else if us.any fun u => s.flag (HALL_OWN_CLEARING u)
      || (match s.halls.revoke with | some (_, _, l) => l.contains u | none => false) then some 4
  else if 1 ≤ ph && ph ≤ 5 then some 5
  else none

/-- A HALL.HANDOVER write: refused with source 1609, or pending with the units' lines written back and invalid
(R306, R307). -/
def State.handover (s : State) (u n : Nat) (clear : Bool) : State :=
  match s.handoverRefuse u n with
  | some r =>
    let s := if r = 1 then s else (s.set HALL_HO_STAT_STATE 3)
    (s.set HALL_HO_STAT_REFUSE r).raise 1609 r
  | none =>
    let us := (List.range n).map (u + ·)
    let s := (s.set HALL_HO_STAT_STATE 1).set HALL_HO_STAT_REFUSE 0
    let s := { s.flushUnits us true with
      halls := { (s.flushUnits us true).halls with handover := some (u, n, clear) } }
    if clear then s.each us fun s u => s.put (HALL_OWN_CLEARING u) true else s

/-- HALL_HANDOVER. -/
def execHallHandover (q : Requester) (u : Fin 4096) (m1 : Fin 64) (clear : Bool) (s : State) : Out :=
  .next (s.hostWrite q 0x5500010 (s.get CHIP_READY_HALL != 0) fun s => s.handover u (m1 + 1) clear)

/-- The pending handover completes: units still to be cleared are cleared, every unit changes owner in one cycle, and
held accesses are served (R307, R308). -/
def State.handoverDone (s : State) : State :=
  match s.halls.handover with
  | none => s
  | some (u, n, _) =>
    let us := (List.range n).map (u + ·)
    let s := s.zeroUnits (us.filter fun u => s.flag (HALL_OWN_CLEARING u))
    let s := s.each us fun s u => (s.set (HALL_OWN_CUR u) (s.otherOwner u)).put (HALL_OWN_CLEARING u) false
    let s := { s with halls := { s.halls with handover := none } }
    ((s.set HALL_HO_STAT_STATE 2).raise 1608 u).serveHeld

/-- HANDOVER_DONE. -/
def execHandoverDone (s : State) : Out := .next s.handoverDone

/-! ## Revocation and clearing (R309, R310) -/

/-- A revocation starts: a pending handover of any of the units completes first; the owner's accesses are refused and
every cached copy is discarded (R309). -/
def State.revokeUnits (s : State) (owner dest : Nat) : State :=
  let owned := fun (s : State) => (List.range 4096).filter fun u => s.get (HALL_OWN_CUR u) = owner
  let s := match s.halls.handover with
    | some (u, n, _) => if (owned s).any fun x => u ≤ x && x < u + n then s.handoverDone else s
    | none => s
  let us := owned s
  let s := s.flushUnits us false
  let s := { s with halls := { s.halls with revoke := some (owner, dest, us) } }
  let s := ((s.set HALL_RV_STAT_STATE 1).set HALL_RV_STAT_OWNER owner).set HALL_RV_STAT_UNITS us.length
  s.each us fun s u => s.put (HALL_OWN_CLEARING u) true

/-- A HALL.REVOKE write (R309). -/
def State.hallRevoke (s : State) (owner dest : Nat) : State :=
  if s.halls.revoke.isSome || 64 < owner || !(dest = 64 || dest = 125 || dest = 127) then s.put HALL_RV_STAT_CMDERR true
  else s.revokeUnits owner dest

/-- HALL_REVOKE. -/
def execHallRevoke (q : Requester) (owner dest : Fin 128) (s : State) : Out :=
  .next (s.hostWrite q 0x5500018 (s.get CHIP_READY_HALL != 0) fun s => s.hallRevoke owner dest)

/-- The revocation in progress completes: the units are cleared and pass to the owner that TO names (R309). -/
def State.revocationDone (s : State) : State :=
  match s.halls.revoke with
  | none => s
  | some (owner, dest, us) =>
    let s := s.zeroUnits us
    let s := s.each us fun s u =>
      let home := s.get (HALL_OWN_OWNER u)
      let new := if dest = 125 then (if home = owner then 127 else home) else dest
      ((s.set (HALL_OWN_CUR u) new).put (HALL_OWN_CLEARING u) false).put (HALL_OWN_REVOKED u) true
    let s := { s with halls := { s.halls with revoke := none } }
    ((s.set HALL_RV_STAT_STATE 2).raise 1610 owner).serveHeld

/-- REVOCATION_DONE. -/
def execRevocationDone (s : State) : Out := .next s.revocationDone

/-- UNIT_CLEAR_DONE: the unit reads 0, and held accesses are served (R310). -/
def execUnitClearDone (u : Fin 4096) (s : State) : Out :=
  .next <|
    if s.flag (HALL_OWN_CLEARING u) then ((s.zeroUnits [u.val]).put (HALL_OWN_CLEARING u) false).serveHeld else s

/-! ## Background test (R317, R318) -/

/-- A word whose readback failed is remapped to a spare of its bank, or stays with EXHAUST when none is left (R318). -/
def State.remap (s : State) (w : Nat) : State :=
  let h := hallOf (w * 8)
  let bank := 64 * h + w % 64
  let used := smapFind (fun _ => 0) s.halls.spares bank
  if used < 4 then
    let s := { s with halls := { s.halls with spares := smapPut (fun _ => 0) s.halls.spares bank (used + 1) } }
    let s := ((s.inc (HALL_TEST_STAT_REMAP h)).raise 1611 (unitOf (w * 8))).report 1611 0x23
    if used + 1 = 4 then s.startCond 1612 0x24 else s
  else ((s.put (HALL_TEST_STAT_EXHAUST h) true).raise 1612 (unitOf (w * 8))).occur 1612 0x24

/-- The test of hall `h` is due: INT microseconds have passed since its last word, with 0 as 1 and values above 1,000 as
1,000 (R317). -/
def State.testDue (s : State) (h : Nat) : Bool :=
  match smapFind (fun _ => none) s.halls.tested h with
  | some t => decide (t + 1000 * min 1000 (max 1 (s.get (HALL_TEST_CFG_INT h))) ≤ s.now)
  | none => true

/-- TEST_WORD: when it is due, the test engine tests the word at POS of hall `h`, in A0 and A1, and goes on to the next;
units that are clearing are skipped (R317). -/
def execTestWord (h : Fin 4) (failed : Bool) (s : State) : Out :=
  .next <|
    if s.flag (HALL_TEST_CFG_EN h) && s.testDue h && s.ready (8 + h) && (s.pwr.state = .a0 || s.pwr.state = .a1) then
      let pos := s.get (HALL_TEST_STAT_POS h)
      let w := h.val * 2 ^ 21 + pos
      let s := if failed && !s.flag (HALL_OWN_CLEARING (unitOf (w * 8))) then s.remap w else s
      let s := { s with halls := { s.halls with tested := smapPut (fun _ => none) s.halls.tested h (some s.now) } }
      s.set (HALL_TEST_STAT_POS h) ((pos + 1) % 2 ^ 21)
    else s

end Sys2Proof.Machine
end

