-- ==== Sys2Proof/Machine/LedgerOps.lean ====
section
/-! DEFINITION. Ledger rings: indexes, record words, delivery and signals (R346 to R356, R420). -/

namespace Sys2Proof.Machine

/-! ## Rings (R349, R350) -/

/-- Records between two indexes that count modulo 2^(L+1). -/
def ringDist (l a b : Nat) : Nat := (b + 2 ^ (l + 1) - a % 2 ^ (l + 1)) % 2 ^ (l + 1)

/-- Records in ring `k`. -/
def State.ringLen (s : State) (k : Nat) : Nat :=
  ringDist (s.get (LEDG_RING_CFG_L k)) (s.get (LEDG_RING_HEAD_HEAD k)) (s.get (LEDG_RING_TAIL_TAIL k))

/-- Ring `k` is full. -/
def State.ringFull (s : State) (k : Nat) : Bool := 2 ^ s.get (LEDG_RING_CFG_L k) ≤ s.ringLen k

/-- The hall offset of record index `i` of ring `k`. -/
def State.recordAt (s : State) (k i : Nat) : Nat :=
  s.get (LEDG_RING_BASE_BASE k) * 16 + 16 * (i % 2 ^ s.get (LEDG_RING_CFG_L k))

/-- PHASE of a record delivered at index `i`: the inverse of bit L. -/
def State.phaseAt (s : State) (k i : Nat) : Bool := !i.testBit (s.get (LEDG_RING_CFG_L k))

/-! ## Record words (R348) -/

/-- One bit of a word. -/
def bitAt (b : Bool) (i : Nat) : Nat := if b then 2 ^ i else 0

/-- Words 0 to 3 of a record, without PHASE. -/
def recWords (r : LedRec) : Nat × Nat × Nat × Nat :=
  match r.body with
  | .event src count detail => (src % 2048 + count % 256 * 2 ^ 11, detail, r.nso % 2 ^ 32, r.nso / 2 ^ 32 % 2 ^ 32)
  | .completion slot st dir dup taint wp code tag stamp pool mon =>
    (slot % 65536 + st % 8 * 2 ^ 16 + bitAt dir 19 + bitAt dup 20 + bitAt taint 21 + wp % 4 * 2 ^ 22 + 2 ^ 28,
     code % 256 + tag % 65536 * 2 ^ 16, stamp % 2 ^ 32, pool % 1024 + mon % 4096 * 2 ^ 10)

/-- Write a record at TAIL and advance it. -/
def State.writeRecord (s : State) (k : Nat) (w : Nat × Nat × Nat × Nat) : State :=
  let i := s.get (LEDG_RING_TAIL_TAIL k)
  let w0 := w.1 + bitAt (s.phaseAt k i) 31
  let a := s.recordAt k i
  let s := s.hallStore (a + 8) (leBytes 4 w.2.2.1 ++ leBytes 4 w.2.2.2) 1027
  let s := s.hallStore a (leBytes 4 w0 ++ leBytes 4 w.2.1) 1027
  s.set (LEDG_RING_TAIL_TAIL k) ((i + 1) % 2 ^ (s.get (LEDG_RING_CFG_L k) + 1))

/-! ## Signals (R354, R355, R420) -/

/-- An MSI-X message of vector `k` can leave: the endpoint is up, MSI-X is enabled and the vector is not masked. -/
def State.vectorOpen (s : State) (k : Nat) : Bool :=
  s.ready 6 && s.flag PCIE_STAT_MSIX_EN && !s.flag (MSIX_MASK k)

/-- Set or clear a held vector; the MSI-X pending bits show PCIE.PEND. -/
def State.setHeld (s : State) (k : Nat) (b : Bool) : State :=
  (s.put (pendLoc k) b).put (pbaLoc k) b

/-- A signal to the host: the message of vector `k`, or its held bit (R354, R420). -/
def State.hostSignal (s : State) (k : Nat) : State :=
  if s.vectorOpen k then { s with out := .msix k :: s.out } else s.setHeld k true

/-- Every held vector that is now open is sent. -/
def State.sendHeld (s : State) : State :=
  s.each (List.range 64) fun s k =>
    if (s.get PCIE_PEND_PEND).testBit k && s.vectorOpen k then (s.setHeld k false).hostSignal k else s

/-- The target of ring `k` is idle (R355). -/
def State.targetIdle (s : State) (k : Nat) : Bool :=
  let t := s.get (LEDG_RING_CFG_TARGET k)
  if t < 1024 then s.estate t = 3
  else t = 1024 && (List.range 64).all fun j =>
    j == k || !s.flag (LEDG_RING_CFG_EN j) || s.get (LEDG_RING_CFG_TARGET j) != 1024 || (s.ringHid j).armed

/-- The ring's moderation interval runs, and its target is not idle. -/
def State.moderated (s : State) (k : Nat) : Bool :=
  let us := s.get (LEDG_RING_MOD_US k)
  us != 0 && (match (s.ringHid k).lastSig with
    | some t => decide (s.ticks < t + ticksOfUs us)
    | none => false) && !s.targetIdle k

/-- Signal ring `k` when it is armed, enabled and non-empty and neither hold-off nor moderation holds it back (R354 to
R356). -/
def State.signalRing (s : State) (k : Nat) : State :=
  let h := s.ringHid k
  let t := s.get (LEDG_RING_CFG_TARGET k)
  if h.armed && s.flag (LEDG_RING_CFG_EN k) && s.flag (LEDG_RING_CFG_IEN k) && s.ringLen k != 0 && t ≤ 1024
      && !s.flag LEDG_HOLD_ON && !s.asleep && !s.moderated k then
    let s := (s.setRingHid k { h with armed := false, lastSig := some s.ticks }).inc (LEDG_RING_STAT_SIGS k)
    if t = 1024 then s.hostSignal k
    else (s.put (ependLoc k) true).interrupt t
  else s

/-- Rings of a target that moderation holds back are signalled when the target becomes idle (R355). -/
def State.signalTarget (s : State) (t : Nat) : State :=
  s.each (List.range 64) fun s k => if s.get (LEDG_RING_CFG_TARGET k) = t then s.signalRing k else s

/-! ## Delivery (R346, R350 to R353) -/

/-- The first waiting record of a ring, and the others. -/
def takeRec (k : Nat) : List LedRec → Option (LedRec × List LedRec)
  | [] => none
  | r :: rs => if r.ring = k then some (r, rs) else (takeRec k rs).map fun p => (p.1, r :: p.2)

/-- A delivered record's source leaves PENDING; a level source that has deasserted is withdrawn (R345, R346). -/
def State.deliverRec (s : State) (k : Nat) (r : LedRec) : State :=
  match r.body, r.staged with
  | .event src _ _, false =>
    if isLevelSource src && !s.flag (LEDG_SRC_LIVE src) then
      (s.writeRecord k (recWords { r with body := .event 0x7FF 1 src })).set (LEDG_SRC_STATE src) 0
    else
      let s := s.writeRecord k (recWords r)
      if s.get (LEDG_SRC_STATE src) = 1 then s.set (LEDG_SRC_STATE src) 2 else s
  | _, _ => s.writeRecord k (recWords r)

/-- A record of a ring that no longer exists is discarded (R353). -/
def State.discardRec (s : State) (r : LedRec) : State :=
  let s := s.inc LEDG_LOSTCNT_NORING
  match r.body, r.staged with
  | .event src _ _, false => s.set (LEDG_SRC_STATE src) 0
  | _, _ => s

/-- Deliver the next record of ring `k`: an OVERFLOW record first when records of it were lost (R353). -/
def State.deliver (s : State) (k : Nat) : State :=
  if s.flag LEDG_HOLD_ON || s.asleep then s
  else if !s.flag (LEDG_RING_CFG_EN k) then
    match takeRec k s.led.queue with
    | some (r, q) => (s.setQueue q).discardRec r
    | none => s
  else if s.ringFull k then s
  else
    let h := s.ringHid k
    if h.lost != 0 then
      let s := s.writeRecord k (h.lost + 2 * 2 ^ 28, 0, h.lostNso % 2 ^ 32, h.lostNso / 2 ^ 32 % 2 ^ 32)
      (s.setRingHid k { h with lost := 0, lostNso := 0 }).signalRing k
    else
      match takeRec k s.led.queue with
      | some (r, q) => ((s.setQueue q).deliverRec k r).signalRing k
      | none => s

/-- Deliver up to `n` records of ring `k`. -/
def State.drain (s : State) (k : Nat) : Nat → State
  | 0 => s
  | n + 1 => (s.deliver k).drain k n

/-- Every ring receives its accumulated records, and its signal follows (R356). -/
def State.drainAll (s : State) : State :=
  s.each (List.range 64) fun s k => (s.drain k (s.led.queue.length + 1)).signalRing k

/-! ## Wake records (R357) -/

/-- Create the record of a source that the watch latched, with the instant of detection. -/
def State.wakeRecord (s : State) (src nso detail : Nat) : State :=
  if !s.flag (LEDG_SRC_EN src) then s
  else if s.get (LEDG_SRC_SENSE src) = 0 then s.createEventAt src 1 detail nso true
  else if s.get (LEDG_SRC_STATE src) = 0 then
    (s.createEventAt src 1 detail nso false).set (LEDG_SRC_STATE src) (s.pendingState src)
  else s.raiseLatch src detail

/-- One record for each latched source in ascending source number; a level source that asserted meanwhile creates its
own (R357). -/
def State.wakeRecords (s : State) : State :=
  let w := s.led.wakes
  let s := s.each w fun s x => s.wakeRecord x.1 x.2.1 x.2.2
  let s := { s with led := { s.led with wakes := [] } }
  s.each [1797, 1824] fun s l => if s.flag (LEDG_SRC_LIVE l) && s.get (LEDG_SRC_STATE l) = 0 then s.levelRecord l else s

/-- The source that was latched first, for LEDG.WAKE. -/
def firstWake : List (Nat × Nat × Nat) → Option (Nat × Nat × Nat)
  | [] => none
  | w :: ws => some (ws.foldl (fun a b => if b.2.1 < a.2.1 then b else a) w)

/-- LEDG.WAKE.SRC holds the first latched source from the return to A0 on. -/
def State.recordWake (s : State) : State :=
  match firstWake s.led.wakes with
  | some w => (s.set LEDG_WAKE_SRC w.1).put LEDG_WAKE_VALID true
  | none => s

end Sys2Proof.Machine
end

