-- ==== Sys2Proof/Machine/Engine.lean ====
section
/-! DEFINITION. Engine commands, interrupts, WFI and MRET, doorbells, locks and instruction SRAM (R268 to R272, R281,
R290 to R293, R299). -/

namespace Sys2Proof.Machine

/-- CHIP.RGN_READY of a region. -/
def State.rgnReady (s : State) (r : Nat) : Bool := s.flag (rgnReadyLoc r)

/-- The requester is an engine of the station of engine `e` (R268). -/
def State.sameStation (s : State) (q : Requester) (e : Nat) : Bool :=
  match q with
  | .host => true
  | .engine f => (s.stationOf f).isSome && s.stationOf f == s.stationOf e

/-- The requester is an engine of cluster `c`. -/
def inCluster (q : Requester) (c : Nat) : Bool :=
  match q with
  | .host => false
  | .engine f => f.val / 8 == c

/-- A write of ENG[e].CTRL or TCMP: the host and engines of the same station (R268, R276). -/
def State.engWrite (s : State) (q : Requester) (e : Nat) (f : State → State) : State :=
  s.access q (ENG_CTRL_CMD e).addr (s.sameStation q e) (s.rgnReady (e / 64)) true fun s => f s.answerDone

/-- START, permitted in HALTED. -/
def execEngineStart (q : Requester) (e : EngNo) (s : State) : Out :=
  .next (s.engWrite q e fun s => if s.estate e = 1 then s.engineStart e else s)

/-- HALT, permitted in RUNNING and WAITING. -/
def execEngineHalt (q : Requester) (e : EngNo) (s : State) : Out := .next (s.engWrite q e fun s => s.engineHalt e)

/-- RESET, permitted in HALTED, RUNNING and WAITING (R270). -/
def execEngineReset (q : Requester) (e : EngNo) (s : State) : Out :=
  .next (s.engWrite q e fun s => if 1 ≤ s.estate e && s.estate e ≤ 3 then s.engineReset e else s)

/-- A command that the engine's state does not permit is ignored (R268). -/
def execEngineCmdIgnored (q : Requester) (e : EngNo) (s : State) : Out := .next (s.engWrite q e id)

/-- TIMER_COMPARE: MTIP of an engine sets; it ends WFI and is taken when enabled (R271). -/
def execTimerCompare (e : EngNo) (s : State) : Out :=
  .next (if s.flag (ENG_CFG_TEN e) && dueAt s.now (s.get (ENG_TCMP_NS e)) then s.interrupt e else s)

/-- MSIP bits of a cluster. -/
def State.doorbell (s : State) (c mask : Nat) : State :=
  let s := s.set (CLU_DOORBELL_PEND c) (s.get (CLU_DOORBELL_PEND c) ||| mask % 256)
  s.each (List.range 8) fun s i => if mask.testBit i then s.interrupt (8 * c + i) else s

/-- The requester may write LOCK, DOORBELL and DOORACK of a cluster: the host, and its own engines (R276). -/
def State.cluWrite (s : State) (q : Requester) (c off : Nat) (f : State → State) : State :=
  s.access q off (inCluster q c) (s.rgnReady (c / 8)) true fun s => f s.answerDone

/-- A W1S write of CLU[c].DOORBELL. -/
def execCluDoorbell (q : Requester) (c : CluNo) (mask : Byte) (s : State) : Out :=
  .next (s.cluWrite q c (CLU_DOORBELL_PEND c).addr fun s => s.doorbell c mask.toNat)

/-- Clear MSIP bits of a cluster. -/
def State.doorack (s : State) (c mask : Nat) : State :=
  s.set (CLU_DOORBELL_PEND c) ((List.range 8).foldl
    (fun v i => v + if (s.get (CLU_DOORBELL_PEND c)).testBit i && !mask.testBit i then 2 ^ i else 0) 0)

/-- A W1C write of CLU[c].DOORACK. -/
def execCluDoorack (q : Requester) (c : CluNo) (mask : Byte) (s : State) : Out :=
  .next (s.cluWrite q c (CLU_DOORACK_PEND c).addr fun s => s.doorack c mask.toNat)

/-! ## Locks (R290 to R293) -/

/-- CLU[c].ERR records the first refusal: 1 lock command not permitted, 2 instruction SRAM write, 3 unknown lock
command. -/
def State.cluErr (s : State) (c reason lock : Nat) (q : Requester) : State :=
  if s.flag (CLU_ERR_VALID c) then s
  else
    let i := match q with
      | .host => 0
      | .engine e => e.val % 8
    (((s.set (CLU_ERR_REASON c) reason).set (CLU_ERR_LOCK c) lock).set (CLU_ERR_ENGINE c) i).put (CLU_ERR_VALID c) true

/-- Engine index `i` waits for lock `j`. -/
def State.waitsFor (s : State) (c j i : Nat) : Bool := (s.get (CLU_LOCK_WAIT c j)).testBit i

/-- A lock command of engine index `i`: not permitted is recorded, else its effect (table "Lock commands"). -/
def State.lockCommand (s : State) (q : Requester) (c j i cmd : Nat) : State :=
  let free := !s.flag (CLU_LOCK_HELD c j)
  let idle := !s.holds c j i && !s.waitsFor c j i
  match cmd with
  | 1 =>
    if !idle then s.cluErr c 1 j q
    else
      let s := s.put (lockWaitLoc c j i) true
      if free then
        match s.nextHolder c j with
        | some k => s.lockGrant c j k
        | none => s
      else s
  | 2 => if !idle then s.cluErr c 1 j q else if free then s.lockGrant c j i else s
  | 3 => if s.holds c j i then s.lockFree c j (s.flag (CLU_LOCK_BROKEN c j)) else s.cluErr c 1 j q
  | 4 => if s.holds c j i && s.flag (CLU_LOCK_BROKEN c j) then s.put (CLU_LOCK_BROKEN c j) false else s.cluErr c 1 j q
  | 5 =>
    if s.waitsFor c j i then s.put (lockWaitLoc c j i) false else s.cluErr c 1 j q
  | _ => s.cluErr c 3 j q

/-- A write of CLU[c].LOCK[j]: only the engines of the cluster command locks (R290). -/
def State.lockWrite (s : State) (q : Requester) (c j cmd : Nat) : State :=
  s.cluWrite q c (CLU_LOCK_CMD c j).addr fun s =>
    match q with
    | .host => s.cluErr c 1 j q
    | .engine e => s.lockCommand q c j (e.val % 8) cmd

/-- ACQ. -/
def execAcq (q : Requester) (c : CluNo) (j : Fin 64) (s : State) : Out := .next (s.lockWrite q c j 1)

/-- TRY. -/
def execTry (q : Requester) (c : CluNo) (j : Fin 64) (s : State) : Out := .next (s.lockWrite q c j 2)

/-- REL. -/
def execRel (q : Requester) (c : CluNo) (j : Fin 64) (s : State) : Out := .next (s.lockWrite q c j 3)

/-- FIX. -/
def execFix (q : Requester) (c : CluNo) (j : Fin 64) (s : State) : Out := .next (s.lockWrite q c j 4)

/-- WITHDRAW. -/
def execWithdraw (q : Requester) (c : CluNo) (j : Fin 64) (s : State) : Out := .next (s.lockWrite q c j 5)

/-- A lock command that is unknown or not permitted is ignored and recorded (R290, R292). -/
def execLockCmdIgnored (q : Requester) (c : CluNo) (j : Fin 64) (cmd : Fin 8) (s : State) : Out :=
  .next (s.cluWrite q c (CLU_LOCK_CMD c j).addr fun s =>
    s.cluErr c (if 1 ≤ cmd.val && cmd.val ≤ 5 then 1 else 3) j q)

/-! ## Instruction SRAM (R299) -/

/-- Every engine of a cluster is HALTED or UNASSIGNED. -/
def State.clusterHalted (s : State) (c : Nat) : Bool := (clusterEngines c).all fun e => s.estate e ≤ 1

/-- Write bytes into a cluster's instruction SRAM. -/
def State.isramPut (s : State) (c o : Nat) (bs : List Byte) : State :=
  let cl := s.cluster c
  let t := bs.zipIdx.foldl (fun t b => smapPut (fun _ => (0 : Byte)) t ((o + b.2) % 65536) b.1) cl.isram
  s.setCluster c { cl with isram := t }

/-- A word read of a cluster's instruction SRAM. -/
def State.isramWord (s : State) (c o : Nat) : Nat :=
  leNat ((List.range 4).map fun i => smapFind (fun _ => (0 : Byte)) (s.cluster c).isram (o + i))

/-- A host write of an instruction SRAM word: applied while the cluster is halted, else discarded and recorded. -/
def State.isramWrite (s : State) (q : Requester) (c o : Nat) (w : Word) : State :=
  if s.clusterHalted c then s.isramPut c o (leBytes 4 w.toNat) else s.cluErr c 2 0 q

/-- The register offset of a cluster's instruction SRAM (R299). -/
def isramBase (c : Nat) : Nat := 0x04000000 + 0x100000 * (c / 8) + 0x80000 + 0x10000 * (c % 8)

/-- ISRAM_WRITE. -/
def execIsramWrite (q : Requester) (c : CluNo) (k : Fin 16384) (w : Word) (s : State) : Out :=
  .next (s.hostWrite q (isramBase c + 4 * k) (s.rgnReady (c / 8)) fun s => s.isramWrite q c (4 * k) w)

/-! ## Instructions (R271, R281, R288) -/

/-- An engine's instruction of 4 bytes completes, and minstret counts it. -/
def State.retire (s : State) (e : Nat) : State := s.modEngine e fun v => { v.count 2 with pc := v.pc + 4 }

/-- WFI: the engine waits until an enabled interrupt is pending; in U-mode with mstatus.TW it is illegal. -/
def execWfi (e : EngNo) (s : State) : Out :=
  .next <|
    if s.estate e = 2 then
      let v := s.engine e
      if v.user && bitsOf (v.getCsr csrMstatus) 21 1 = 1 then s.trap e 2 0x10500073 false
      else (((s.retire e).set (ENG_STAT_STATE e) 3).interrupt e).signalTarget e
    else s

/-- mstatus on MRET: MIE takes MPIE, MPIE 1, MPP 0, and MPRV 0 when the mode returned to is U (Privileged ISA). -/
def mretStatus (m : Word) : Word :=
  let u := bitsOf m 11 2 = 0
  let m := putBits (putBits (putBits m 3 1 (bitsOf m 7 1)) 7 1 1) 11 2 0
  if u then putBits m 17 1 0 else m

/-- MRET: the pc takes mepc, the mode MPP, and XFST.ACTIVE takes PACT (R281); illegal in U-mode. -/
def execMret (e : EngNo) (s : State) : Out :=
  .next <|
    if s.estate e = 2 then
      let v := s.engine e
      if v.user then s.trap e 2 0x30200073 false
      else
        let m := v.getCsr csrMstatus
        let x := v.getCsr csrXFST
        let v := (v.setCsr csrMstatus (mretStatus m)).setCsr csrXFST (putBits x 0 1 (bitsOf x 1 1))
        let v := { v.count 2 with pc := v.getCsr csrMepc, user := bitsOf m 11 2 = 0 }
        ((s.setEngine e v).xactive e).interrupt e
    else s

/-- The line of a hall address in either hall range, when an engine may read it (R288). -/
def State.cleanTarget (s : State) (e a : Nat) : Option Nat :=
  if (0x80000000 ≤ a && a < 0x84000000) || (0xA0000000 ≤ a && a < 0xA4000000) then
    let o := a % 0x4000000
    if s.engineMay e o 1 then some (o / 64 * 64) else none
  else none

/-- XCCLEAN: the line goes back to the hall from the engine's L1 and the region L2, and stays valid (R288). -/
def execXcclean (e : EngNo) (a : Word) (s : State) : Out :=
  .next <|
    if s.estate e = 2 then
      match s.cleanTarget e a.toNat with
      | none => s.accTrap e 5 a.toNat
      | some l =>
        let s := s.writeBackL1 e l
        let s := match s.l2 (e / 64) l with
          | some v => if v.dirty then (s.writeLine l v.data).setL2 (e / 64) l (some { v with dirty := false }) else s
          | none => s
        s.retire e
    else s

/-- XCFLUSH: as XCCLEAN, and the line becomes invalid (R288). -/
def execXcflush (e : EngNo) (a : Word) (s : State) : Out :=
  .next <|
    if s.estate e = 2 then
      match s.cleanTarget e a.toNat with
      | none => s.accTrap e 5 a.toNat
      | some l => ((s.cleanRegion (e / 64) l).dropLine (e / 64) l).retire e
    else s

/-! ## Ownership requests (R286) -/

/-- The requesters of a line in round-robin order, from the engine after the last winner (R286). -/
def roundRobin (last : Nat) (rs : List Nat) : List Nat := ((List.range 64).map fun k => (last + 1 + k) % 64).filter rs.contains

/-- Give an engine ownership of a line, modified; a fill that meets a poisoned word is a load access fault (R315). -/
def State.ownLine (s : State) (e line : Nat) : State :=
  match s.badFill e line with
  | some w => (s.poisonRead w (.engine (Fin.ofNat 1024 e))).accTrap e 5 (0x80000000 + line)
  | none =>
    let s := s.fillL1 e line true [line]
    match s.l1 e line with
    | some v => s.setL1 e line (some { v with mesi := 2 })
    | none => s

/-- OWNERSHIP_REQUEST: the writeback completes first, then the L1s that ask in the same cycle are served one at a time;
two or more are a contested set, counted with its extra round trips (R286). -/
def execOwnershipRequest (r : RgnNo) (line : Fin 1048576) (evict : Option (Fin 64)) (reqs : List (Fin 64))
    (s : State) : Out :=
  .next <|
    let a := line.val * 64
    let s := match evict with
      | some i => (s.writeBackL1 (64 * r + i) a).setL1 (64 * r + i) a none
      | none => s
    let order := roundRobin (s.region r).lastWinner (reqs.map (·.val))
    let s := s.each order fun s i => s.ownLine (64 * r + i) a
    if 2 ≤ order.length then
      let s := s.setRegion r { s.region r with lastWinner := order.getLastD 63 }
      (s.inc (RGN_DIRCNT_CONTEND r)).add (RGN_DIRCNT_EXTRA r) (order.length - 1)
    else s

end Sys2Proof.Machine
end

