-- ==== Sys2Proof/Machine/VaultOps.lean ====
section
/-! DEFINITION. Shared operations of the vitrine and the vault: roots and derivations, use checks, monotonic counters,
MRAM wear, the tamper log, random numbers (R428 to R433, R443 to R446). -/

namespace Sys2Proof.Machine

/-- Change the vault's hidden half. -/
def State.modVault (s : State) (f : Vault → Vault) : State := { s with vault := f s.vault }

/-- The next random number. -/
def State.draw (s : State) : BitVec 64 × State :=
  (Config.random64 s.vault.drawn, s.modVault fun v => { v with drawn := v.drawn + 1 })

/-! ## Roots and internal keys (R428, R429) -/

/-- CHIP.ID as the context of a derivation, least significant byte first (R4). -/
def State.chipId (s : State) : List Byte := leBytes 4 (s.word 0).toNat

/-- The ASCII bytes of a label. -/
def ascii (t : String) : List Byte := t.toList.map fun c => BitVec.ofNat 8 c.toNat

/-- The device root. -/
def rootDR : List Byte := beBytes 32 Config.deviceRoot.toNat

/-- The customer root; fuses that are not programmed read 0. -/
def State.rootCR (s : State) : List Byte := s.vault.cr.getD (List.replicate 32 0)

/-- The device identity (label FY-UID). -/
def State.deviceIdentity (s : State) : List Byte := kdf rootDR (ascii "FY-UID") s.chipId

/-- The tamper-log key (label FY-TLOG). -/
def State.tlogKey (s : State) : List Byte := kdf s.rootCR (ascii "FY-TLOG") s.chipId

/-! ## Slots (R430 to R433) -/

/-- The material of a slot. -/
def State.keyOf (s : State) (h : Nat) : List Byte := smapFind (fun _ => []) s.vault.keys h

/-- Set the material of a slot. -/
def State.setKey (s : State) (h : Nat) (k : List Byte) : State :=
  s.modVault fun v => { v with keys := smapPut (fun _ => []) v.keys h k }

/-- The handle of sealed slot `i` (R430). -/
def sealed (i : Nat) : Nat := 224 + i

/-- Worlds of R433: host, station M-mode, station U-mode, device function. -/
inductive World where
  | host
  | station (st : Nat) (user : Bool)
  | device
  deriving DecidableEq, Repr

/-- The bit of ATTR.WORLD. -/
def World.bit : World → Nat
  | .host => 0
  | .station _ user => if user then 2 else 1
  | .device => 3

/-- Every use check of R433 passes. -/
def State.useOk (s : State) (h op : Nat) (w : World) : Bool :=
  s.get (VIT_SLOT_STATE h) = 1 && (s.get (VIT_SLOT_LC h)).testBit (s.get VIT_STAT_LC)
    && (s.get (VIT_SLOT_USE h)).testBit op && (s.get (VIT_SLOT_WORLD h)).testBit w.bit
    && (match w with
        | .station st _ => s.get (VIT_SLOT_STN h) = st || s.get (VIT_SLOT_STN h) = 64
        | _ => true)

/-- The world of a requester. -/
def State.worldOf (s : State) (q : Requester) : World :=
  match q with
  | .host => .host
  | .engine e => .station ((s.stationOf e).getD 127) (s.engine e).user

/-- VIT.STAT.NUNUSABLE, and the SEALED_UNUSABLE condition, follow the sealed slots (R432, R450). -/
def State.sealedState (s : State) : State :=
  let n := ((List.range 32).filter fun i => s.get (VIT_SLOT_STATE (sealed i)) = 2).length
  let s := s.set VIT_STAT_NUNUSABLE n
  if n = 0 then s.endCond 1761 0x50 else s

/-- A sealed slot fails its check: UNUSABLE, source 1761, a SEALED_UNUSABLE fault (R432). -/
def State.sealedFail (s : State) (i : Nat) : State :=
  (((s.set (VIT_SLOT_STATE (sealed i)) 2).sealedState).raise 1761 i).occur 1761 0x50

/-! ## Tamper log (R445) -/

/-- The vault time as TIME.VT lays it out, without VALID. -/
def State.vaultStamp (s : State) : Nat := (s.word64 TIME_VT_FRAC.addr).toNat % 2 ^ 63

/-- Append an entry with a vault time of its own. -/
def State.tlogAt (s : State) (type arg data stamp : Nat) : State :=
  let n := s.vault.tlogSeq
  let body := beBytes 4 n ++ [BitVec.ofNat 8 type] ++ leBytes 3 arg ++ leBytes 8 stamp ++ leBytes 8 data
  let mac := (cmac s.tlogKey (body ++ s.vault.tlogMac)).take 8
  let s := s.modVault fun v => { v with tlogSeq := n + 1, tlogMac := mac }
  let s := s.each (List.range 8) fun s w =>
    s.setWord (VAULT_TLOG_W (n % 4096) w).addr (BitVec.ofNat 32 (leNat (((body ++ mac).drop (4 * w)).take 4)))
  s.raise 1766 (n % 65536)

/-- Append an entry now. -/
def State.tlog (s : State) (type arg data : Nat) : State := s.tlogAt type arg data s.vaultStamp

/-! ## Monotonic counters (R443, R444) -/

/-- A counter: 0 to 63 general, 64 + b freshness. -/
def State.counter (s : State) (k : Nat) : Counter := smapFind (fun _ => {}) s.vault.counters k

/-- Set a counter; its register shows the low 56 bits. -/
def State.setCounter (s : State) (k : Nat) (c : Counter) : State :=
  let s := s.modVault fun v => { v with counters := smapPut (fun _ => {}) v.counters k c }
  s.set (if k < 64 then VAULT_MC_VALUE k else VAULT_FV_VALUE (k - 64)) (c.value % 2 ^ 56)

/-- RDONLY of a counter. -/
def rdonlyLoc (k : Nat) : Loc := if k < 64 then VAULT_MC_RDONLY k else VAULT_FV_RDONLY (k - 64)

/-- A hard failure: the counter becomes read-only at its value (R444). -/
def State.counterFail (s : State) (k : Nat) : State :=
  ((((s.put (rdonlyLoc k) true).tlog 8 k 0).raise 1765 k).occur 1765 0x52)

/-- A corrected read of word `w` of a counter: the eighth within the last 1,024 writes migrates the word to a spare, or is
a hard failure when none is left (R444). The flag says that the counter still advances. -/
def State.counterWear (s : State) (k w : Nat) : Bool × State :=
  let c := s.counter k
  let hits := c.writes :: ((smapFind (fun _ => []) c.corrected w).filter fun n => c.writes < n + 1024)
  if hits.length < 8 then
    (true, s.setCounter k { c with corrected := smapPut (fun _ => []) c.corrected w hits })
  else if s.get VAULT_MRAM_SPARES = 0 then (false, s.counterFail k)
  else
    let s := s.setCounter k { c with corrected := smapPut (fun _ => []) c.corrected w [] }
    let s := (s.set VAULT_MRAM_SPARES (s.get VAULT_MRAM_SPARES - 1)).inc VAULT_MRAM_MIG
    (true, (s.raise 1764 k).report 1764 0x51)

/-- A counter advances to a higher value: the next member of its ring is written and verified (R443). The flag says that
it advanced. -/
def State.advance (s : State) (k v : Nat) (m : MramSeen) : Bool × State :=
  if s.flag (rdonlyLoc k) then (false, s)
  else
    match m with
    | .failed => (false, s.counterFail k)
    | .ok =>
      let c := s.counter k
      (true, s.setCounter k { c with value := max c.value v, writes := c.writes + 1 })
    | .corrected =>
      let (ok, s) := s.counterWear k ((s.counter k).writes % 4)
      if ok then
        let c := s.counter k
        (true, s.setCounter k { c with value := max c.value v, writes := c.writes + 1 })
      else (false, s)

end Sys2Proof.Machine
end

