-- ==== Sys2Proof/Machine/TimeOps.lean ====
section
/-! DEFINITION. Shared operations of the time unit: the tick, vault time, trust, beacons and one-step insertion (R121 to
R124, R322 to R338). -/

namespace Sys2Proof.Machine

/-! ## The tick and vault time (R323, R330) -/

/-- Change the hidden half of the time unit. -/
def State.modTime (s : State) (f : TimeUnit → TimeUnit) : State := { s with time := f s.time }

/-- Vault time: seconds, fraction in 2^-15 s, validity. -/
def State.setVault (s : State) (sec frac : Nat) (valid : Bool) : State :=
  s.setWord64 TIME_VT_FRAC.addr
    (BitVec.ofNat 64 (frac % 2 ^ 15 + sec % 2 ^ 48 * 2 ^ 15 + (if valid then 2 ^ 63 else 0)))

/-- The vault time takes local time, with the fraction at 0; it is valid while the watch runs on its crystal (R387). -/
def State.loadVault (s : State) : State :=
  (s.modTime fun t => { t with vaultAcc := 0 }).setVault (secOf s.now) 0 (s.flag WATCH_STAT_XTAL)

/-- The vault time counts one tick of 2 ns: 128/1953125 of 2^-15 s. It goes on counting crystal cycles while the watch
starts on its RC oscillator (R387). -/
def State.vaultTick (s : State) : State :=
  if s.flag TIME_VT_VALID || s.pwr.vtHeld then
    let a := s.time.vaultAcc + 128
    if a < 1953125 then s.modTime fun t => { t with vaultAcc := a }
    else
      let v := s.get TIME_VT_SEC * 2 ^ 15 + s.get TIME_VT_FRAC + 1
      (s.modTime fun t => { t with vaultAcc := a - 1953125 }).setVault (v / 2 ^ 15) v (s.flag TIME_VT_VALID)
  else s

/-- One tick of the 500 MHz timebase: local time advances by INC while the time unit runs, and at a second boundary it
loads the vault time. -/
def State.tick (s : State) : State :=
  let s := (s.modTime fun t => { t with ticks := t.ticks + 1 }).vaultTick
  if s.ready 4 then
    let a := s.time.frac + s.get TIME_INC_INC
    let old := s.now
    let s := s.modTime fun t => { t with ns := (t.ns + a / 2 ^ 32) % (2 ^ 48 * 1000000000), frac := a % 2 ^ 32 }
    if secOf old = secOf s.now then s else s.loadVault
  else s

/-- Local time is loaded from the vault time, or starts at 0; CHIP.READY.TIME sets (R330). -/
def State.restoreTime (s : State) : State :=
  let v := if s.flag TIME_VT_VALID
    then s.get TIME_VT_SEC * 1000000000 + s.get TIME_VT_FRAC * 1000000000 / 2 ^ 15 else 0
  (s.modTime fun t => { t with ns := v, frac := 0 }).setReady 4 true

/-! ## Synchronisation and trust (R329, R336, R337) -/

/-- SYNC takes a state, with the cause of a change (R329). -/
def State.setSync (s : State) (v cause : Nat) : State :=
  if s.get TIME_STAT_SYNC = v then s else (s.set TIME_STAT_SYNC v).raise 1666 (v + cause * 256)

/-- TRUST takes a state, with the cause of a change (R336). -/
def State.setTrust (s : State) (v cause : Nat) : State :=
  if s.get TIME_STAT_TRUST = v then s else (s.set TIME_STAT_TRUST v).raise 1667 (v + cause * 256)

/-- The resynchronisation tolerance in ns. -/
def State.resyncTol (s : State) : Nat :=
  (if s.get TIME_SEC_CFG_TOL = 0 then 1000 else s.get TIME_SEC_CFG_TOL) * 1000000

/-- An error is within tolerance. -/
def State.within (s : State) (e : Int) : Bool := decide (e.natAbs ≤ s.resyncTol)

/-- A resynchronisation with error `e` (R337); cause 1 token, 2 beacon. -/
def State.resync (s : State) (e : Int) (cause : Nat) : State :=
  let ok := s.within e
  let s := s.setInt TIME_SEC_ERR_NS e
  if ok then (s.setTrust 1 cause).setStamp TIME_SEC_LAST_NS.addr s.now else s.setTrust 0 4

/-! ## Beacons (R121 to R124, R334, R335) -/

/-- The identifier word of a MAC input (R122). -/
def idWord (ide : Bool) (id : Nat) : List Byte := beBytes 4 (id % 2 ^ 29 + if ide then 2 ^ 31 else 0)

/-- A byte of a list as a number. -/
def byteAt (bs : List Byte) (i : Nat) : Nat := (bs.getD i 0).toNat

/-- The number in bytes `i` to `i + n - 1`, most significant first. -/
def beAt (bs : List Byte) (i n : Nat) : Nat := beNat ((bs.drop i).take n)

/-- The seconds value nearest `own` whose low 16 bits are `low` (R122). -/
def nearestSec (own low : Nat) : Nat :=
  let c := own / 65536 * 65536 + low
  if own + 32768 < c && 65536 ≤ c then c - 65536 else if c + 32768 < own then c + 65536 else c

/-- The sender's time in a beacon (R122, R334). -/
def beaconTime (own : Nat) (d : List Byte) : Nat :=
  if byteAt d 0 / 16 % 4 = 0 then nearestSec (secOf own) (beAt d 2 2) * 1000000000 + beAt d 4 4
  else beAt d 2 6 * 1000000000 + beAt d 8 4

/-- A beacon's format has all its bytes. -/
def beaconWhole (d : List Byte) : Bool :=
  match byteAt d 0 / 16 % 4 with
  | 0 => 8 ≤ d.length
  | 1 => 16 ≤ d.length
  | 2 => 24 ≤ d.length
  | _ => false

/-- The MAC of an AUTH beacon under the key of a handle (R122). -/
def State.beaconMac (s : State) (h : Nat) (ide : Bool) (id : Nat) (d : List Byte) : List Byte :=
  (cmac (s.keyOf h) (idWord ide id ++ d.take 16)).take 8

/-- A signed number clamped to 32 bits. -/
def clamp32 (v : Int) : Int := max (-2147483648) (min 2147483647 v)

/-- The corrected local time of a beacon received on port `n` at `trx`, truncated to ns (R335). -/
def State.beaconLt (s : State) (n k trx : Nat) : Int :=
  ((trx : Int) * 32 - ((1 + s.get (BT_NTIM_NTSEG1 n)) * s.get (BT_PRESC_NBRP n) * 50 : Nat)
    - (s.get (LP_MEAS_LOOP n) * 25 : Nat) - (s.get (TIME_BRX_CFG_PROP k) * 32 : Nat)) / 32

/-- A beacon on receive channel `k`, `age` ticks after its timestamp point (R334, R335, R337). -/
def State.brxUpdate (s : State) (k n : Nat) (f : Frame) (trx age : Nat) : State :=
  let d := f.data
  let fm := byteAt d 0 / 16 % 4
  let h := sealed (s.get (TIME_BRX_CFG_KSLOT k))
  let auth := if fm != 2 then 0
    else if s.useOk h 0 .device && s.beaconMac h f.ide f.id d == (d.drop 16).take 8 then 1 else 2
  let stepped := match s.time.lastStep with
    | some t => decide (s.ticks ≤ t + age)
    | none => false
  let rt := beaconTime trx d
  let lt := s.beaconLt n k trx
  let off := clamp32 (lt - rt)
  let seq := byteAt d 1
  let s := (s.setStamp (TIME_BRX_RT_NS k).addr rt).setStamp (TIME_BRX_LT_NS k).addr lt.toNat
  let s := (s.setInt (TIME_BRX_OFF_OFF k) off).set (TIME_BRX_STAT_SEQ k) seq
  let s := (s.set (TIME_BRX_STAT_FMT k) fm).put (TIME_BRX_STAT_TRUSTED k) ((byteAt d 0).testBit 3)
  let s := (s.put (TIME_BRX_STAT_SYNCED k) ((byteAt d 0).testBit 2)).set (TIME_BRX_STAT_AUTH k) auth
  let s := (s.put (TIME_BRX_STAT_STEPPED k) stepped).set (TIME_BRX_STAT_COUNT k)
    ((s.get (TIME_BRX_STAT_COUNT k) + 1) % 65536)
  let s := s.raise (1669 + k) (seq + auth * 256)
  if auth = 1 && s.flag (TIME_BRX_CFG_TRUST_SRC k) && (byteAt d 0).testBit 3 && !stepped
      && smapFind (fun _ => none) s.time.brxSeq k != some seq then
    let ok := s.within off
    let s := s.resync off 2
    if ok then s.modTime fun t => { t with brxSeq := smapPut (fun _ => none) t.brxSeq k (some seq) } else s
  else s

/-- A valid frame of a port goes to the beacon receive channels that watch it (R334). -/
def State.brxReceive (s : State) (n : Nat) (f : Frame) (trx age : Nat) : State :=
  s.each (List.range 4) fun s k =>
    if s.ready 4 && s.flag (TIME_BRX_CFG_EN k) && s.get (TIME_BRX_CFG_PORT k) = n && !f.rmt && f.fmt != fmtEth
        && f.ide == s.flag (TIME_BRX_ID_IDE k) && f.id = s.get (TIME_BRX_ID_ID k) && byteAt f.data 0 / 64 = 1
        && beaconWhole f.data
    then s.brxUpdate k n f trx age else s

/-- The first due instant of a beacon schedule after `t`: NSO = kP + φ (TIME.BSCHED). -/
def State.nextDue (s : State) (n t : Nat) : Option Nat :=
  let p := s.get (TIME_BSCHED_PER n) * 1000000
  if p = 0 then none
  else
    let f := s.get (TIME_BSCHED_PHASE n) * p / 65536
    some (if t < f then f else f + ((t - f) / p + 1) * p)

/-- Set a port's schedule to its first due instant after now; a port without beacons has none. -/
def State.reschedule (s : State) (n : Nat) : State :=
  s.modPort n fun p => { p with beaconNext := if s.flag (BT_BCN_CFG_EN n) then s.nextDue n s.now else none }

/-! ## IEEE 802.1AS (R332, R333) -/

/-- The place of the PTP message in an Ethernet frame: EtherType 0x88F7, untagged or after one tag. -/
def ptpAt (bs : List Byte) : Option Nat :=
  if beAt bs 12 2 = 0x88F7 then some 14
  else if beAt bs 12 2 = 0x8100 && beAt bs 16 2 = 0x88F7 then some 18
  else none

/-- One-step insertion: a recognised Sync with twoStepFlag 0 takes the transmit timestamp into originTimestamp. -/
def State.oneStep (s : State) (p : Nat) (bs : List Byte) (t : Nat) : List Byte :=
  if s.flag (TIME_PTP_RECOG p) && s.flag (TIME_PTP_ONESTEP p) then
    match ptpAt bs with
    | some o =>
      if byteAt bs o % 16 = 0 && !(byteAt bs (o + 6)).testBit 1 && o + 44 ≤ bs.length then
        bs.take (o + 34) ++ beBytes 6 (secOf t) ++ beBytes 4 (nsOf t) ++ bs.drop (o + 44)
      else bs
    | none => bs
  else bs

end Sys2Proof.Machine
end

