-- ==== Sys2Proof/Machine/BitOps.lean ====
section
/-! DEFINITION. Shared operations of the bit engine: detected errors, attempts and their ends, transmitter delay, beacons
and the delivery of received frames (R24, R100 to R124, R163 to R183, R212 to R215). -/

namespace Sys2Proof.Machine

/-! ## Ends of attempts (R169, R176, R177, R213) -/

/-- A frame that the engine was sending or receiving has ended with its delimiter and intermission: SIGNALLING ends
(R117, R214). -/
def State.settle (s : State) (n : Nat) : State := if s.bstate n = 5 then s.enterIdle n else s

/-- The attempt in progress has lost arbitration, met an error or a collision: it is over, and its slot stays in
ARBITRATING, or completes when a CANCEL, a revocation, a move or its deadline ends the request. -/
def State.attemptFailed (s : State) (n : Nat) : State :=
  match (s.port n).attempt with
  | none => s
  | some a =>
    let s := s.modPort n fun p => { p with attempt := none }
    if a.beacon then s
    else
      let k := a.slot
      let s := s.setSlotState k slotArb
      match (s.slotHid k).stop with
      | some c => s.endRequest k c
      | none =>
        if s.flag (MOP_DESC_DL_EN k) && dueAt s.now (s.slotStamp32 k) then s.endRequest k codeDeadline else s

/-! ## Detected errors (R212 to R215, R218, R514) -/

/-- ECF[n].LAST, LAST_T and ERRCNT record an error that the port detects; without a die link there is no timestamp (R28). -/
def State.recordError (s : State) (n : Nat) (e : BusError) : State :=
  let s := ((s.set (ECF_LAST_TYPE n) e.type).put (ECF_LAST_DIR n) e.tx).put (ECF_LAST_PHASE n) e.phase
  let s := ((s.set (ECF_LAST_FIELD n) e.field).set (ECF_LAST_POS n) (min e.pos 32767)).put (ECF_LAST_VALID n) true
  let s := if s.fallback (dieOf n) then s else s.setStamp (ECF_LAST_T_NS n).addr s.now
  s.inc (if e.tx && (s.port n).opMode != 1 then ECF_ERRCNT_TX n else ECF_ERRCNT_RX n)

/-- A transmitter's error leaves TEC alone (ISO 11898-1): an error-passive port without acknowledgement that saw no
dominant bit while it sent its passive flag, and a stuff error in the arbitration field. -/
def State.tecExempt (s : State) (n : Nat) (e : BusError) : Bool :=
  !e.inFlag && ((e.type = 5 && s.get (ECF_STAT_ESTATE n) = 1 && !e.dominant) || (e.type = 3 && e.field = 1))

/-- TEC or REC takes the increase of an error (R212, R213). -/
def State.countError (s : State) (n : Nat) (e : BusError) : State :=
  if e.tx then (if s.tecExempt n e then s else s.tecUp n 8)
  else s.recUp n (if e.inFlag && !s.flag (BT_STAT_RXONLY n) then 8 else 1)

/-- The bit engine of a CAN-family port detects an error: it is recorded and counted, the frame ends, and the engine signals,
or integrates in RESTRICTED (R117 to R119, R212 to R215). -/
def State.busError (s : State) (n : Nat) (e : BusError) : State :=
  let s := ((s.recordError n e).cancelSearch n).capTrigger n 0
  let s := s.put (BT_STAT_PHASE n) false
  if s.get (ECF_STAT_ESTATE n) = 2 then s.attemptFailed n
  else if (s.port n).opMode = 1 then (s.attemptFailed n).integrate n
  else
    let s := s.countError n e
    let s := s.attemptFailed n
    if s.bstate n = 2 || s.bstate n = 3 || s.bstate n = 4 then s.setB n 5 else s

/-! ## Transmitter delay (R107, R108) -/

/-- The frame has a data phase with a switched rate. -/
def switched (f : Frame) : Bool := f.fmt == fmtXL || (f.fmt == fmtFD && f.brs)

/-- The bits of a frame before its res bit, or its resXL bit, stuff bits left out. -/
def bitsBeforeRes (f : Frame) : List Bool :=
  if f.fmt == fmtXL then false :: bitsMsb f.id 11 ++ [false, false, true, true]
  else if f.ide then false :: bitsMsb (f.id / 2 ^ 18) 11 ++ [true, true] ++ bitsMsb f.id 18 ++ [false, true]
  else false :: bitsMsb f.id 11 ++ [false, false, true]

/-- The position of the bit after `bs`, the start-of-frame at 0 and stuff bits included (R514). -/
def posAfter (bs : List Bool) : Nat := bs.length + stuffCount bs true 0

/-- The delay from the received edges, in samples after the transmitted one: the first that TDCF does not leave out, within
255 samples (R107, R108). -/
def State.delayOf (s : State) (n : Nat) (edges : List Nat) : Option Nat :=
  (edges.find? fun v => decide (s.get (BT_TDC_TDCF n) ≤ v)).filter (· ≤ 255)

/-- The measured delay is in TDCV and LP[n].MEAS.LOOP; none when the measurement fails (R107, R108). -/
def State.tdc (s : State) (n : Nat) (edges : List Nat) : Bool × State :=
  match s.delayOf n edges with
  | some v =>
    let s := s.set (LP_MEAS_LOOP n) v
    if s.get (BT_TDC_VMAX n) < v then
      (false, ((s.btCause n 0x03 v).inc (BT_PEXCNT_TDC_HIGH n)).set (BT_TDC_TDCV n) 0xFF)
    else (true, s.set (BT_TDC_TDCV n) v)
  | none => (false, ((s.btCause n 0x03 0xFF).inc (BT_PEXCNT_TDC_HIGH n)).set (BT_TDC_TDCV n) 0xFF)

/-- The secondary sample point, in samples after the start of a data-phase bit (R107). -/
def State.ssp (s : State) (n : Nat) (f : Frame) : Nat :=
  s.get (BT_TDC_TDCV n) + if f.fmt == fmtXL then s.get (BT_XTIM_XTDCO n) else s.get (BT_DTIM_TDCO n)

/-! ## Beacons (R121 to R124) -/

/-- The beacon with sequence number `q` whose start-of-frame edge leaves the pins at `t` (R122). -/
def State.beaconFrame (s : State) (n q t : Nat) : Frame :=
  let fm := s.get (BT_BCN_CFG_FMT n)
  let xl := s.get (BT_BCN_CFG_FRAME n) = 2
  let b0 := 0x40 + fm * 16 + (if s.get TIME_STAT_TRUST = 1 then 8 else 0) + (if s.get TIME_STAT_SYNC = 1 then 4 else 0)
  let head := [BitVec.ofNat 8 b0, BitVec.ofNat 8 q]
  let long := head ++ beBytes 6 (secOf t) ++ beBytes 4 (nsOf t)
    ++ [BitVec.ofNat 8 (s.get CON_STAT_SELF), BitVec.ofNat 8 n, 0, 0]
  let ide := s.flag (BT_BCN_ID_IDE n)
  let id := s.get (BT_BCN_ID_ID n)
  let mac := match (s.port n).beaconKey with
    | some h => if s.useOk h 0 .device then s.beaconMac h ide id long
                else beBytes 8 (Config.unkeyedMac n s.ticks).toNat
    | none => beBytes 8 (Config.unkeyedMac n s.ticks).toNat
  let data := match fm with
    | 0 => head ++ beBytes 2 (secOf t) ++ beBytes 4 (nsOf t)
    | 1 => long
    | _ => long ++ mac
  { fmt := s.get (BT_BCN_CFG_FRAME n), id, ide, brs := s.flag (BT_BCN_CFG_BRS n),
    sdt := if xl then s.get (BT_BCN_CFG_SDT n) else 0, len := data.length, data }

/-! ## Attempts (R163, R169, R177, R178, R315) -/

/-- The local time at which a start-of-frame edge driven now leaves the pins, truncated to ns: half of LP[n].MEAS.LOOP
later (R123), or on a 10BASE-T1S port the first symbol after the SFD (R331). -/
def State.sofTime (s : State) (n : Nat) : Nat :=
  if s.isEth n then s.now + 6400
  else ((s.time.ns * 2 ^ 32 + s.time.frac) * 32 + s.get (LP_MEAS_LOOP n) * 25 * 2 ^ 32) / 2 ^ 37

/-- Start the attempt of admitted slot `k`: none after its deadline (R177); a poisoned buffer word ends the request instead
(R315). -/
def State.startSlot (s : State) (n k : Nat) : State :=
  let t := s.sofTime n
  let bad := (wordsOf (s.bufOf k) (s.slotFrame k).data.length).filter s.isPoison
  if s.flag (MOP_DESC_DL_EN k) && decide (signedDiff32 t (s.slotStamp32 k) < 0) then s.endRequest k codeDeadline
  else if !bad.isEmpty then (bad.foldl (fun s w => s.poisonRead w .store) s).endRequest k codeRevoked
  else
    let s := s.discardRecord n
    let s := (s.modPort n fun p => { p with attempt := some { beacon := false, slot := k, sof := t } }).setB n 4
    s.set (MOP_DESC_ATT k) (min 255 (s.get (MOP_DESC_ATT k) + 1))

/-- Start the port's next attempt: its waiting beacon first, then its admitted request (R123, R175); a record of a
sounding is discarded (R140). -/
def State.startAttempt (s : State) (n : Nat) : State :=
  if s.bstate n = 2 && s.canSend n && (s.port n).attempt.isNone then
    match (s.port n).beaconWait with
    | some q =>
      ((s.discardRecord n).modPort n fun p => { p with attempt := some { beacon := true, slot := q, sof := s.sofTime n } }).setB n 4
    | none =>
      match s.headSlot n with
      | some k => if s.get (MOP_DESC_STATE k) = slotArb then s.startSlot n k else s
      | none => s
  else s

/-- The frame of an attempt as it goes on the wire. -/
def State.attemptFrame (s : State) (n : Nat) (a : Attempt) : Frame :=
  s.txFrame n (if a.beacon then s.beaconFrame n a.slot a.sof else s.slotFrame a.slot)

/-- The attempt passes the end of its arbitration field, or sends its first preamble symbol (R163). -/
def State.wonAttempt (s : State) (n : Nat) (a : Attempt) : State :=
  if a.won then s
  else
    let s := s.modPort n fun p => { p with attempt := some { a with won := true } }
    if a.beacon then s else s.setSlotState a.slot slotOnWire

/-- The attempt succeeds (R112, R123, R163, R178, R333): the frame is on the bus, an Ethernet frame with its FCS, the slot or
the beacon completes, and TEC falls. -/
def State.attemptOk (s : State) (n : Nat) (a : Attempt) : State :=
  let f := s.attemptFrame n a
  let f := if s.isEth n then { f with data := s.oneStep n f.data a.sof } else f
  let s := (s.emit (.busFrame n f (if s.isEth n then some (crc32 f.data) else none))).inc (BT_TXCNT_COUNT n)
  let s := s.modPort n fun p => { p with attempt := none, collisions := 0 }
  let s :=
    if a.beacon then
      if (s.port n).beaconWait = some a.slot then
        (((s.modPort n fun p => { p with beaconWait := none }).inc (BT_BCN_STAT_SENT n)).set (BT_BCN_STAT_SEQ n) a.slot)
      else s
    else ((s.put (MOP_DESC_ESI a.slot) f.esi).completeTx a.slot slotDone codeOK (some a.sof)).requestEnd n
  let s := if s.isCan n then s.tecDown n else s
  s.enterIdle n

/-- The attempt loses arbitration: the engine receives the other frame (R117). -/
def State.attemptLost (s : State) (n : Nat) : State :=
  let s := s.attemptFailed n
  if s.bstate n = 4 then s.setB n 3 else s

/-- The measurement of the delay that this stage of the attempt implies (R107): the data phase of a switched frame, its
success, and every error at or after its data phase. -/
def tdcBefore (f : Frame) (u : TxEnd) : Bool :=
  switched f && match u with
    | .switched => true
    | .success => true
    | .error e => e.phase || (3 ≤ e.field && e.field ≤ 6)
    | _ => false

/-- The attempt in progress goes on to a stage, with the received edges of the delay measurement, which falls once, before
the data-phase timing set comes into use (R106, R107). -/
def State.advanceAttempt (s : State) (n : Nat) (a : Attempt) (u : TxEnd) (edges : List Nat) : State :=
  let f := s.attemptFrame n a
  let (ok, s) := if tdcBefore f u && !s.flag (BT_STAT_PHASE n) then s.tdc n edges else (true, s)
  if !ok then s.busError n { type := 9, tx := true, field := 2, pos := posAfter (bitsBeforeRes f) }
  else match u with
    | .started => s
    | .won => s.wonAttempt n a
    | .switched => if switched f then (s.wonAttempt n a).put (BT_STAT_PHASE n) true else s
    | .sampled sent seen delay field pos =>
      if s.flag (BT_STAT_PHASE n) && delay = s.ssp n f && sent != seen then
        s.busError n { type := if sent then 1 else 2, tx := true, phase := true, field, pos }
      else s
    | .lost => if a.won || s.isEth n then s else s.attemptLost n
    | .success => (s.wonAttempt n a).attemptOk n { a with won := true }
    | .error e => if s.isCan n && e.tx && !e.inFlag && 1 ≤ e.type && e.type ≤ 9 then s.busError n e else s

/-! ## Receptions (R24, R26, R100, R102, R180 to R183, R200, R259) -/

/-- The reaction to a format that the mode does not carry: byte 1 of cause 0x02 for a protocol exception, or the bits
before a form error (R100). -/
def State.foreign (s : State) (n : Nat) (f : Frame) : Nat ⊕ List Bool :=
  let toFdf := if f.fmt == fmtXL then false :: bitsMsb f.id 11 ++ [false, false, true] else bitsBeforeRes f
  match s.get (LP_CFG_MODE n) with
  | 1 => if s.flag (BT_CFG_PEX_CC n) then .inl 1 else .inr toFdf
  | 2 => if s.flag (BT_CFG_PEX_FD n) then .inl 2 else .inr (bitsBeforeRes f)
  | 3 => if s.flag (BT_CFG_PEX_FD n) then .inl 2 else .inr (bitsBeforeRes f)
  | _ => .inl 1

/-- A protocol exception (R102); a pending quarantine takes effect in EXCEPTION (R227). -/
def State.exception (s : State) (n b1 : Nat) : State :=
  let s := ((s.cancelSearch n).inc (BT_PEXCNT_PEX n)).btCause n 0x02 b1
  if s.bstate n = 2 || s.bstate n = 3 then
    let s := (s.setB n 6).put (BT_STAT_PHASE n) false
    if s.flag (ECF_STAT_QPEND n) then s.quarantine n else s
  else s

/-- Result and buffer of the frame: the search that ran for it, or one that runs now (R180, R191). -/
def State.resolve (s : State) (n : Nat) (r : Reception) : State :=
  let s := match (s.port n).search with
    | some sr => if sr.sof = r.sof then s else s.searchFrame n r.sof r.frame
    | none => s.searchFrame n r.sof r.frame
  match (s.port n).search with
  | some sr =>
    if r.frame.fmt == fmtXL && !sr.xl then s.completeXl n r.frame else s
  | none => s

/-- The entry's HITS counts a frame that reached a slot (R200), unless the entry has gone or changed since the frame was
matched (R196, R206). -/
def State.hit (s : State) (sof i : Nat) : State :=
  if s.get (CAT_ENTRY_KIND i) = 0 || decide (sof < smapFind (fun _ => 0) s.cat.updated i) then s
  else s.inc (CAT_ENTRY_W i 7)

/-- A mailbox drops a frame: its pool waits for a new layout, or an unreleased frame may not be replaced (R183, R516). -/
def State.mailboxDrops (s : State) (k p : Nat) : Bool :=
  s.awaitsLayout p
    || (s.get (MOP_DESC_STATE k) = slotDone && !s.flag (MOP_POOL_CFG1_REPLACE p))

/-- The repetition rule of R259 finds this frame a repetition of the last one. -/
def State.repeats (s : State) (n : Nat) (r : Reception) : Bool :=
  match (s.port n).lastRx with
  | none => false
  | some l =>
    let f := r.frame
    let bit := (s.bitTimes n).ta * 25
    l.eofDominant && l.frame.fmt == f.fmt && l.frame.ide == f.ide && l.frame.id == f.id && l.frame.len == f.len
      && l.frame.data == f.data && decide (r.sof * 16 ≤ l.endNs * 16 + 30 * bit)

/-- The destination of the matching entry, whose words were `ws`, takes the frame; the slot that holds it, if one does
(R201). -/
def State.place (s : State) (n i : Nat) (ws : List Word) (r : Reception) (sr : Search) (wp : Nat) (taint : Bool) :
    Option Nat × State :=
  match entryDest ws with
  | (1, k) =>
    match s.poolOf k with
    | none => (none, s)
    | some p =>
      (if s.mailboxDrops k p then none else some k, s.mailbox k p r.frame r.sof wp taint (some i))
  | (dk, dest) =>
    match sr.adm with
    | some a =>
      let s := s.completeRx a r.frame r.sof wp taint (some i)
      let s :=
        if dk = 2 then
          { s with gw := { s.gw with waiting := s.gw.waiting ++
              [{ slot := a.slot, route := dest, port := n, dup := s.repeats n r, sof := r.sof }] } }
        else s
      (some a.slot, s)
    | none =>
      let s := match s.rxPool n (if dk = 2 then 65 else dest) with
        | some p => s.countDrop p
        | none => s
      (none, if dk = 2 then s.ingressBreach dest r.sof else s)

/-- A valid frame goes to its destination, and its wingprint result is attached (R24, R26, R133 to R136). -/
def State.deliverFrame (s : State) (n : Nat) (r : Reception) : State :=
  let s := s.resolve n r
  match (s.port n).search with
  | none => s
  | some sr =>
    let s := s.modPort n fun p => { p with search := none }
    let d := sr.pick r.frame.fmt (r.frame.rmt && r.frame.fmt == fmtCC)
    match d.bind (·.entry) with
    | none => s.inc (CAT_PCNT_MISS n)
    | some i =>
      let ws := (d.map (·.words)).getD []
      let (c, s) := (s.inc (CAT_PCNT_HIT n)).wingResult n (bitsOf (ws.headD 0) 16 12) (r.frame.fmt == fmtXL) r.wp
      let (slot, s) := s.place n i ws r sr c.1 (s.taints n c.1)
      let s := if slot.isSome then s.hit r.sof i else s
      s.wingReport n c slot

/-- A frame received correctly: counters, delivery unless the die link is down or came up after its start-of-frame,
observers, beacon channels (R24, R28, R112, R144, R212, R334). -/
def State.goodFrame (s : State) (n : Nat) (r : Reception) : State :=
  let s := (s.inc (BT_RXCNT_COUNT n)).set (BT_STAT_LASTFMT n) r.frame.fmt
  let s := if s.isCan n then s.recDown n else s
  let s :=
    if s.fallback (dieOf n) || decide (s.ticks < (s.link (dieOf n)).upTick + r.age) then s.cancelSearch n
    else ((s.deliverFrame n r).observe n r.frame r.sof r.wp).brxReceive n r.frame r.sof r.age
  s.modPort n fun p => { p with lastRx := some { frame := r.frame, endNs := r.endNs, eofDominant := r.eofDominant } }

/-- An Ethernet frame outside 64–1,522 bytes, its FCS included, or with a wrong FCS, reaches no slot (R112, R233). -/
def State.ethFrame (s : State) (n : Nat) (r : Reception) : State :=
  if r.frame.len < 60 || 1518 < r.frame.len then
    let s := (s.cancelSearch n).inc (ECF_ETH_LEN n)
    if r.fcs != crc32 r.frame.data then s.inc (ECF_ETH_FCS n) else s
  else if r.fcs != crc32 r.frame.data then (s.cancelSearch n).inc (ECF_ETH_FCS n)
  else s.goodFrame n r

/-- The engine can be receiving a frame of age `age`: not STOPPED, in EXCEPTION, or sending; in INTEGRATING only a frame
that it was receiving when it entered (R118). -/
def State.receives (s : State) (n age : Nat) : Bool :=
  (s.port n).attempt.isNone && match s.bstate n with
    | 1 => (match (s.port n).intTick with
      | some t => decide (s.ticks ≤ t + age)
      | none => false)
    | b => b = 2 || b = 3 || b = 7

/-- The start-of-frame of a reception: an edge to a dominant bit (R99, R106). -/
def sofSeen (r : Reception) : Bool :=
  edgeSeen r.edge.1 r.edge.2.1 r.edge.2.2 && !majority r.samples.1 r.samples.2.1 r.samples.2.2

/-- The end of a frame on a port (R24, R91, R100, R117). -/
def State.receive (s : State) (n : Nat) (r : Reception) : State :=
  let s := (s.settle n).discardRecord n
  if !s.receives n r.age || !sofSeen r then s
  else if s.portCarries n r.frame.fmt then
    let s := if s.flag (BT_STAT_RXONLY n) then s else s.drives n r.pj
    let s := if s.isEth n then s.ethFrame n r else s.goodFrame n r
    if s.bstate n = 2 || s.bstate n = 3 then s.enterIdle n else s
  else
    match s.foreign n r.frame with
    | .inl b1 => s.exception n b1
    | .inr bs => s.busError n { type := 4, tx := false, field := 2, pos := posAfter bs }

/-- A frame that a port can have received: a CAN frame within the length rules, or an Ethernet frame, with its data. -/
def rxWellFormed (eth : Bool) (f : Frame) : Bool :=
  (f.fmt == fmtEth) == eth && (eth || lengthRules f) && f.data.length == (if f.rmt then 0 else f.len)

end Sys2Proof.Machine
end

