-- ==== Sys2Proof/Machine/Line.lean ====
section
/-! DEFINITION. Line ports and the driver power governor: fault events, retries, latches, wire checks, deferrals and
wakes (R75 to R97). -/

namespace Sys2Proof.Machine

/-! ## Wire conditions (R86) -/

/-- One check of wire condition `b`: confirmed after three consecutive failing checks, cleared after three passing ones;
a confirmed condition is reported (R86, R87, R96). -/
def State.wireCheck (s : State) (n b : Nat) (fail : Bool) : State :=
  let (f, p) := smapFind (fun _ => (0, 0)) (s.port n).streak b
  let v := if fail then (min (f + 1) 3, 0) else (0, min (p + 1) 3)
  let s := s.modPort n fun q => { q with streak := smapPut (fun _ => (0, 0)) q.streak b v }
  if fail && v.1 = 3 && !s.flag (wireLiveLoc n b) then
    (((s.put (wireSeenLoc n b) true).put (wireLiveLoc n b) true).lpCause n 0x04 b).occur (4 * n) 0x02
  else if !fail && v.2 = 3 && s.flag (wireLiveLoc n b) then
    let s := (s.put (wireLiveLoc n b) false).lpCause n 0x05 b
    if s.get (LP_WIRE_LIVE n) = 0 then s.endCond (4 * n) 0x02 else s
  else s

/-- The load check of a frame, with the average load in mΩ (R86): OPEN above 90 Ω, or 75 Ω on 10BASE-T1S; LOWLOAD below
35 Ω, or 30 Ω. MEAS.LOAD rounds down to 0.5 Ω (DESIGN CHOICE, log 101). -/
def State.loadCheck (s : State) (n mohm : Nat) : State :=
  let s := s.set (LP_MEAS_LOAD n) (min (mohm / 500) 255)
  let eth := s.isEth n
  let s := s.wireCheck n 5 (decide ((if eth then 75000 else 90000) < mohm))
  s.wireCheck n 6 (decide (mohm < if eth then 30000 else 35000))

/-- The code of a pin voltage in mV: 250 mV steps from −8 V, rounded down (DESIGN CHOICE, log 101), saturating
(LP[n].MEAS.VH). -/
def voltCode (mv : Int) : Nat := (min 255 (max 0 ((mv + 8000) / 250))).toNat

/-! ## Fault events (R81 to R85) -/

/-- SHORT_DETECTED: a fault event starts with the energy metered since the over-current began, the limit folds back to
8 mA, a pending retry fails, and H_L takes a check from the pin voltages (R81, R83, R86, R87). -/
def execShortDetected (n : PortNo) (within : Bool) (pj : Nat) (s : State) : Out :=
  .next <|
    if s.flag (LP_STATE_DRV n) && (s.port n).event.isNone then
      let s := s.modPort n fun p => { p with event := some (pj * 16), cutEvent := none }
      let s := ((s.meter n (pj * 16)).inc (LP_FAULT_EVENTS n)).put (LP_STATE_FOLDED n) true
      let s :=
        if s.flag (LP_STATE_PENDING n) then
          (s.put (LP_STATE_PENDING n) false).set (LP_STATE_RETRY n) (min 5 (s.get (LP_STATE_RETRY n) + 1))
        else s
      let s := ((s.lpCause n 0x01 0).report (4 * n) 0x01).wireCheck n 4 within
      s.capTrigger n 1
    else s

/-- The rest of the energy of a fault event that a state change cut (R82). -/
def State.finishCut (s : State) (n pj : Nat) : State :=
  match (s.port n).cutEvent with
  | none => s
  | some e =>
    ((s.modPort n fun p => { p with cutEvent := none }).meter n (pj * 16 - e)).lastEnergy n (max e (pj * 16))

/-- The driver turns off, or has turned off, with the event's total energy (R81, R82). -/
def State.finishEvent (s : State) (n pj : Nat) : State :=
  match (s.port n).event with
  | none => s.finishCut n pj
  | some e =>
    let s := (s.modPort n fun p => { p with event := some (max e (pj * 16)) }).meter n (pj * 16 - e)
    (s.endEvent n).refreshPort n

/-- FAULT_EVENT_END: the bit ends, the driver turns off, and the port enters FAULT_WAIT, or LATCHED when the event ended
the fifth failed retry (R81, R84). -/
def execFaultEventEnd (n : PortNo) (pj : Nat) (s : State) : Out := .next (s.finishEvent n pj)

/-- ENERGY_CUTOFF: the meter reaches 1.4 mJ, and the driver turns off at once (R82). -/
def execEnergyCutoff (n : PortNo) (s : State) : Out := .next (s.finishEvent n 1400000000)

/-- FAULT_WAIT_EXPIRY: 10 ms after the driver turned off the port returns to ACTIVE with a retry pending (R83). -/
def execFaultWaitExpiry (n : PortNo) (s : State) : Out :=
  .next <|
    match (s.port n).faultOff with
    | some t =>
      if s.get (LP_STATE_PSTATE n) = 2 && decide (t + ticksOfMs 10 ≤ s.ticks) then
        ((s.modPort n fun p => { p with faultOff := none }).put (LP_STATE_PENDING n) true).refreshPort n
      else s
    | none => s

/-- RETRY_SUCCESS: a complete dominant bit was driven without a detection (R83). -/
def execRetrySuccess (n : PortNo) (s : State) : Out :=
  .next <|
    if s.flag (LP_STATE_PENDING n) && s.flag (LP_STATE_DRV n) && (s.port n).event.isNone then
      ((s.put (LP_STATE_PENDING n) false).set (LP_STATE_RETRY n) 0).lpCause n 0x02 0
    else s

/-! ## LP[n].CTRL (R80, R84) -/

/-- DRIVER_DISABLE: DRV_DIS 1; the driver is off from the end of the bit being driven (R80). -/
def State.drvDisable (s : State) (n : Nat) : State := (s.put (LP_CTRL_DRV_DIS n) true).refreshPort n

/-- DRIVER_ENABLE: DRV_DIS 0 ends DISABLED (R80). -/
def State.drvEnable (s : State) (n : Nat) : State := (s.put (LP_CTRL_DRV_DIS n) false).refreshPort n

/-- UNLATCH: LATCHED ends with RETRY 0 and no retry pending (R84, R85). -/
def State.unlatch (s : State) (n : Nat) : State :=
  if (s.port n).latched then
    let s := s.modPort n fun p => { p with latched := false, faultOff := none }
    let s := ((s.set (LP_STATE_RETRY n) 0).put (LP_STATE_PENDING n) false).endCond (4 * n) 0x03
    s.refreshPort n
  else s

/-- A write of DRV_DIS 1. -/
def execDriverDisable (q : Requester) (n : PortNo) (s : State) : Out :=
  .next (s.hostWrite q (LP_CTRL_DRV_DIS n).addr (s.ready (lineBit n)) fun s => s.drvDisable n)

/-- A write of DRV_DIS 0. -/
def execDriverEnable (q : Requester) (n : PortNo) (s : State) : Out :=
  .next (s.hostWrite q (LP_CTRL_DRV_DIS n).addr (s.ready (lineBit n)) fun s => s.drvEnable n)

/-- A write of UNLATCH 1. -/
def execUnlatch (q : Requester) (n : PortNo) (s : State) : Out :=
  .next (s.hostWrite q (LP_CTRL_DRV_DIS n).addr (s.ready (lineBit n)) fun s => s.unlatch n)

/-! ## Checks, governor and wake -/

/-- BIAS_CHECK: the pins are measured in ACTIVE, FAULT_WAIT, LATCHED, DISABLED and SAFE; conditions 0 to 3 take a check
each (R86). Voltages in mV. There is no measurement during a record of a sounding (R140). -/
def execBiasCheck (n : PortNo) (vh vl : Int) (s : State) : Out :=
  .next <|
    if stopsEngine (s.get (LP_STATE_PSTATE n)) || s.recording n then s
    else
      let s := (s.set (LP_MEAS_VH n) (voltCode vh)).set (LP_MEAS_VL n) (voltCode vl)
      let s := (s.wireCheck n 0 (decide (vh < 500))).wireCheck n 1 (decide (6000 < vh))
      (s.wireCheck n 2 (decide (vl < 500))).wireCheck n 3 (decide (6000 < vl))

/-- Put a port into its die's queue: in order of deferral time, the lower port number first at equal time (R92). -/
def State.deferPort (s : State) (n : Nat) : State :=
  let d := dieOf n
  let g := s.govOf d
  let s := s.modPort n fun p => { p with deferTick := some s.ticks, deferFlagged := false }
  let before := fun m => (s.port m).deferTick != some s.ticks || m < n
  let s := s.setGov d { g with queue := g.queue.takeWhile before ++ n :: g.queue.dropWhile before }
  (((s.put (LP_STATE_DEFERRED n) true).inc (LP_DEFER_DEFERRALS n)).inc (LP_GOV_CNT_DEFER d)).govStat d

/-- GOVERNOR_SUBMIT: the selected frame is admitted when no port of the die is deferred and the window sum plus its
reservation is at most B; else it is deferred (R90, R92). -/
def execGovernorSubmit (n : PortNo) (s : State) : Out :=
  .next <|
    match s.headSlot n with
    | none => s
    | some k =>
      if s.canSend n && s.get (MOP_DESC_STATE k) = slotQueued && (s.port n).deferTick.isNone then
        if (s.govOf (dieOf n)).queue.isEmpty && s.fits n k then s.admitPort n k else s.deferPort n
      else s

/-- GOVERNOR_BUCKET: at a boundary of 100 µs the window slides and the head of the queue is re-evaluated (R88, R92).
The energy of ports that drove without a command of their own, such as PLCA BEACONs, enters first (R91). -/
def execGovernorBucket (e : BucketEnd) (s : State) : Out :=
  .next <|
    let d := e.die
    let s := s.each e.rest fun s x => if dieOf x.1 = d.val then s.drives x.1 x.2 else s
    let g := s.govOf d
    let b := s.ticks / 50000
    if g.bucket < b then
      (s.setGov d { g with
        bucket := b, buckets := (List.replicate (min 100 (b - g.bucket)) 0 ++ g.buckets).take 100 }).evaluate d
    else s

/-- DEFERRAL_FLAG: a frame deferred for 2 ms is flagged once; a gateway copy also raises source 1542 (R93, R256). -/
def execDeferralFlag (n : PortNo) (s : State) : Out :=
  .next <|
    match (s.port n).deferTick, s.headSlot n with
    | some t, some k =>
      if !(s.port n).deferFlagged && decide (t + ticksOfMs 2 ≤ s.ticks) then
        let s := s.modPort n fun p => { p with deferFlagged := true }
        let s := ((s.raise (4 * n + 1) k).inc (LP_DEFER_FLAGGED n)).inc (LP_GOV_CNT_FLAG (dieOf n))
        match s.gw.copies.find? (·.slot == some k) with
        | some c => (s.raise 1542 c.route).inc (GW_LEG_STAT_DEFER2 c.leg)
        | none => s
      else s
    | _, _ => s

/-- A wake-up frame matches: a CAN CC frame whose identifier agrees in every masked bit, whose DLC is the declared one,
and which, with DMATCH, carries a bit that WUF_DATA sets (R94). -/
def State.wufMatch (s : State) (n : Nat) (f : Frame) (dlc : Nat) : Bool :=
  let m := s.get (LP_WUF_IDMASK_MASK n)
  f.fmt == fmtCC && f.ide == s.flag (LP_WAKE_CFG_IDE n)
    && (f.id &&& m) == (s.get (LP_WUF_ID_ID n) &&& m) && dlc == s.get (LP_WAKE_CFG_DLC n)
    && (!s.flag (LP_WAKE_CFG_DMATCH n) || (leNat f.data &&& s.get (LP_WUF_DATA_DATA n)) != 0)

/-- The port's wake kind sees a wake (R94). -/
def State.wakes (s : State) (n : Nat) (w : WakeSeen) : Bool :=
  match s.get (LP_WAKE_CFG_KIND n), w with
  | 0, .pattern => true
  | 1, .frame f dlc => s.wufMatch n f dlc
  | 1, .erroneous => 32 ≤ (s.port n).wakeErrs
  | 2, .activity => true
  | _, _ => false

/-- WAKE_DETECTED: a SLEEP_WATCH port detects the wake kind that WAKE_CFG.KIND selects; WOKE is set and the watch latches
the line event (R94, R95, R357). An erroneous frame counts since the port entered SLEEP_WATCH. -/
def execWakeDetected (n : PortNo) (w : WakeSeen) (s : State) : Out :=
  .next <|
    if s.get (LP_STATE_PSTATE n) = 7 then
      let s := if w = .erroneous then s.modPort n fun p => { p with wakeErrs := p.wakeErrs + 1 } else s
      if s.wakes n w then
        ((s.put (LP_WAKE_STAT_WOKE n) true).set (LP_WAKE_STAT_KIND n) (s.get (LP_WAKE_CFG_KIND n))).lpCause n 0x06 0
      else s
    else s

end Sys2Proof.Machine
end

