-- ==== Sys2Proof/Machine/BitEngine.lean ====
section
/-! DEFINITION. The bit engine: receptions, attempts, errors, beacons, PLCA, collisions and OPMODE (R98 to R126,
R212 to R215). -/

namespace Sys2Proof.Machine

/-- FRAME_RECEPTION: a frame on port `n` ends; a frame that no bus of the port's kind can carry is ill-formed. -/
def execFrameReception (n : PortNo) (r : Reception) (s : State) : Out :=
  if s.get (LP_CFG_MODE n) != 0 && !rxWellFormed (s.isEth n) r.frame then .fault (.illFormed "frame")
  else .next (s.receive n r)

/-- EXCEPTION_END: 11 consecutive recessive bits (R102). -/
def execExceptionEnd (n : PortNo) (s : State) : Out := .next (if s.bstate n = 6 then s.enterIdle n else s)

/-- An occurrence of 11 consecutive recessive bits in COUNTING: SEQ holds the count, the 128th is RECOVERY_COMPLETE
(R220). -/
def State.countOccurrence (s : State) (n : Nat) : State :=
  if s.get (ECF_STAT_RSTEP n) = 2 && s.get (ECF_STAT_SEQ n) < 127 then s.inc (ECF_STAT_SEQ n) else s

/-- INTEGRATION_COMPLETE: 11 consecutive recessive bits, or PLCA status OK or 1.1 µs without carrier (R117, R125); the same
11 bits end SIGNALLING (R117, R214), and count towards the recovery of a bus-off port (R220). -/
def execIntegrationComplete (n : PortNo) (s : State) : Out :=
  .next <|
    if s.bstate n = 1 then
      if s.isEth n && !s.flag (LP_CFG_P2P n) && s.get (BT_PLCA_NODE_ID n) != 0 && !s.flag (BT_PLCA_STAT_OK n) then s
      else (s.btCause n 0x01 0).enterIdle n
    else if s.bstate n = 7 then s.countOccurrence n
    else s.settle n

/-- TRANSMIT_ATTEMPT: the port starts its next attempt when none is in progress, and the attempt goes on as far as `u`
says. `edges` are the received edges of the delay measurement, in samples after the transmitted one; `load` the average load
in mΩ of a frame that reached its end; `pj` the driver energy since the last command in pJ. -/
def execTransmitAttempt (n : PortNo) (u : TxEnd) (edges : List Nat) (load pj : Nat) (s : State) : Out :=
  .next <|
    let s := s.settle n
    let s := if (s.port n).attempt.isNone then s.startAttempt n else s
    match (s.port n).attempt with
    | none => s
    | some a =>
      let s := s.meter n (pj * 16)
      let s := if u = .success then s.loadCheck n load else s
      let s := if s.isEth n then s.wonAttempt n a else s
      s.advanceAttempt n { a with won := a.won || s.isEth n } u edges

/-- An overload condition of the standard: the engine signals it with an overload flag, unless it is receive-only, bus-off or
in RESTRICTED (R101, R117 to R119). -/
def State.overloadFlag (s : State) (n pj : Nat) : State :=
  if (s.bstate n = 2 || s.bstate n = 3) && !s.flag (BT_STAT_RXONLY n) && (s.port n).opMode = 0
      && s.get (ECF_STAT_ESTATE n) != 2 then (s.setB n 5).drives n pj
  else s

/-- An error outside a flag, with the energy of the error flag that an engine in SIGNALLING drives (R91, R212). -/
def State.errorFlag (s : State) (n : Nat) (e : BusError) : State :=
  let s := s.busError n e
  if s.bstate n = 5 && !s.flag (BT_STAT_RXONLY n) then s.drives n e.pj else s

/-- ERROR_DETECTED: an error that the bit engine of a CAN-family port detects, or an overload condition (R101, R212). -/
def execErrorDetected (n : PortNo) (e : BusError) (s : State) : Out :=
  .next <|
    if !s.isCan n then s
    else if e.overload then s.overloadFlag n e.pj
    else if e.type = 0 || 9 < e.type || s.bstate n = 0 || s.bstate n = 6 then s
    else if e.inFlag then (if s.bstate n = 5 && !s.flag (BT_STAT_RXONLY n) then (s.busError n e).drives n e.pj else s)
    else if e.tx = (s.port n).attempt.isSome then s.errorFlag n e else s

/-- BEACON_DUE: the schedule's due instant has come; an unfinished predecessor is dropped (R123, R124). -/
def execBeaconDue (n : PortNo) (s : State) : Out :=
  .next <|
    match (s.port n).beaconNext with
    | none => s
    | some t =>
      if s.flag (BT_BCN_CFG_EN n) && decide (t ≤ s.now) then
        let s := match (s.port n).beaconWait with
          | some q => (s.inc (BT_BCN_STAT_MISSED n)).btCause n 0x04 q
          | none => s
        s.modPort n fun p => { p with
          beaconWait := some p.beaconSeq, beaconSeq := (p.beaconSeq + 1) % 256, beaconNext := s.nextDue n s.now }
      else s

/-- The port runs PLCA: 10BASE-T1S on a mixing segment. -/
def State.plca (s : State) (n : Nat) : Bool := s.isEth n && !s.flag (LP_CFG_P2P n)

/-- PLCA_STATUS_CHANGE: PLCA status of a port that is not the coordinator falls or returns (R114). -/
def execPlcaStatusChange (n : PortNo) (ok : Bool) (s : State) : Out :=
  .next <|
    if s.plca n && s.get (BT_PLCA_NODE_ID n) != 0 && s.flag (BT_PLCA_STAT_OK n) != ok then
      let s := s.put (BT_PLCA_STAT_OK n) ok
      if ok then s.btCause n 0x06 0 else (s.inc (BT_PLCA_STAT_LOST n)).btCause n 0x05 0
    else s

/-- PLCA_FOREIGN_BEACON: the coordinator receives a BEACON it did not send, and remains coordinator (R114). -/
def execPlcaForeignBeacon (n : PortNo) (s : State) : Out :=
  .next (if s.plca n && s.get (BT_PLCA_NODE_ID n) = 0 && s.bstate n != 0 then s.btCause n 0x08 0 else s)

/-- COLLISION: the port's frame collides on a point-to-point segment; after the 16th it is abandoned (R115, R179, R233). -/
def execCollision (n : PortNo) (s : State) : Out :=
  .next <|
    match (s.port n).attempt with
    | none => s
    | some a =>
      if s.isEth n && s.flag (LP_CFG_P2P n) then
        let s := s.inc (ECF_ETH_COLL_COLL n)
        let s := s.modPort n fun p => { p with collisions := p.collisions + 1 }
        if 16 ≤ (s.port n).collisions then
          let s := (s.modPort n fun p => { p with attempt := none }).setSlotState a.slot slotArb
          let s := (s.inc (ECF_ETH_COLL_EXCESS n)).endRequest a.slot codeCollisions
          ((s.modPort n fun p => { p with collisions := 0 }).btCause n 0x07 0).enterIdle n
        else (s.attemptFailed n).enterIdle n
      else s

/-- A write of OPMODE: read from now on, in effect at once in STOPPED and INTEGRATING; 3 is ignored (R119). -/
def State.opmodeWrite (s : State) (n v : Nat) : State :=
  if v = 3 then s
  else
    let s := (s.set (BT_CTRL_OPMODE n) v).modPort n fun p => { p with opPending := some v }
    if s.bstate n = 0 || s.bstate n = 1 then s.applyOpmode n else s

/-- OPMODE_WRITE. -/
def execOpmodeWrite (q : Requester) (n : PortNo) (v : Fin 4) (s : State) : Out :=
  .next (s.hostWrite q (BT_CTRL_OPMODE n).addr (s.ready (lineBit n)) fun s => s.opmodeWrite n v)

/-- OPMODE_APPLY: the engine enters IDLE and the written mode takes effect (R119). -/
def execOpmodeApply (n : PortNo) (s : State) : Out :=
  .next <|
    if (s.port n).opPending.isNone || (s.port n).attempt.isSome then s
    else if s.bstate n = 0 || s.bstate n = 1 then s.applyOpmode n
    else if s.bstate n = 3 || s.bstate n = 5 || s.bstate n = 6 then s.enterIdle n
    else s

end Sys2Proof.Machine
end

