-- ==== Sys2Proof/Machine/Confinement.lean ====
section
/-! DEFINITION. Error confinement: recovery steps, RECOVER, quarantine and the slope buckets (R219 to R229). -/

namespace Sys2Proof.Machine

/-- HOLDOFF_END: the hold-off time has passed, no wire condition is live and the physical state is ACTIVE; COUNTING
starts (R221). -/
def execHoldoffEnd (n : PortNo) (s : State) : Out :=
  .next <|
    if s.get (ECF_STAT_RSTEP n) = 1 && decide ((s.port n).holdEnd ≤ s.ticks) && s.get (LP_WIRE_LIVE n) = 0
        && s.get (LP_STATE_PSTATE n) = 1 then s.startCounting n else s

/-- RECOVERY_COMPLETE: the sample point of the 128th occurrence of 11 recessive bits in COUNTING, which also completes the
integration (R125, R220). -/
def execRecoveryComplete (n : PortNo) (s : State) : Out :=
  .next <|
    if s.get (ECF_STAT_RSTEP n) = 2 && s.bstate n = 7 && s.get (ECF_STAT_SEQ n) = 127 then
      let s := (((s.set (ECF_CNT_TEC n) 0).set (ECF_CNT_REC n) 0).set (ECF_STAT_ESTATE n) 0).put (ECF_STAT_WARN n) false
      let s := (s.set (ECF_STAT_RSTEP n) 0).set (ECF_STAT_SEQ n) 0
      let us := (s.ticks - (s.port n).boTick) / 500
      let s := s.set (ECF_BO_DUR_US n) (min us (2 ^ (ECF_BO_DUR_US n).len - 1))
      let s := (s.endCond (4 * n + 2) 0x04).btCause n 0x24 (min (s.boCount n) 255)
      ((s.integrate n).btCause n 0x01 0).enterIdle n
    else s

/-- CMDERR of a CTRL write that is not permitted (R223). -/
def State.ecfErr (s : State) (n : Nat) : State := s.put (ECF_STAT_CMDERR n) true

/-- RECOVER (R222, R227): in WAIT_RECOVER or QUARANTINED, COUNTING starts and BO.ESC clears. -/
def State.recover (s : State) (n : Nat) : State :=
  if s.isCan n && s.get (ECF_STAT_ESTATE n) = 2 && (s.get (ECF_STAT_RSTEP n) = 3 || s.get (ECF_STAT_RSTEP n) = 4)
  then (s.startCounting n).put (ECF_BO_ESC n) false
  else s.ecfErr n

/-- QUAR (R226, R227): pending, and in effect at once in IDLE, INTEGRATING, EXCEPTION and BUS_OFF. -/
def State.quar (s : State) (n : Nat) : State :=
  if !s.isCan n || s.flag (ECF_STAT_QPEND n) || s.get (ECF_STAT_RSTEP n) = 4 then s.ecfErr n
  else
    let s := s.put (ECF_STAT_QPEND n) true
    let b := s.bstate n
    if b = 1 || b = 2 || b = 6 || b = 7 then s.quarantine n else s

/-- The requester may write ECF[n].CTRL: the host, or the station that CFG.OWNER names (R223). -/
def State.ecfWrite (s : State) (q : Requester) (n : Nat) (f : State → State) : State :=
  let may := match q with
    | .host => true
    | .engine e => s.stationOf e == some (s.get (ECF_CFG_OWNER n))
  s.access q (ECF_CTRL_RECOVER n).addr may (s.ready (lineBit n)) true fun s => f s.answerDone

/-- RECOVER. -/
def execRecover (q : Requester) (n : PortNo) (s : State) : Out := .next (s.ecfWrite q n fun s => s.recover n)

/-- QUAR. -/
def execQuar (q : Requester) (n : PortNo) (s : State) : Out := .next (s.ecfWrite q n fun s => s.quar n)

/-- QUARANTINE_EFFECT: the engine enters IDLE with a quarantine pending (R227). -/
def execQuarantineEffect (n : PortNo) (s : State) : Out :=
  .next <|
    if s.flag (ECF_STAT_QPEND n) && s.bstate n != 0 && (s.port n).attempt.isNone then s.enterIdle n else s

/-- SLOPE_BUCKET: a 1 ms bucket boundary; the slopes slide, and the warning clears when both are below
max(1, TH / 2) (R228, R229). -/
def execSlopeBucket (n : PortNo) (s : State) : Out :=
  .next <|
    let s := s.modPort n fun p => { p with slopeT := (0 :: p.slopeT).take 256, slopeR := (0 :: p.slopeR).take 256 }
    let lim := max 1 (s.get (ECF_SLOPE_TH n) / 2)
    if s.slopeSum n (s.port n).slopeT < lim && s.slopeSum n (s.port n).slopeR < lim
    then s.put (ECF_STAT_SLOPE n) false else s

end Sys2Proof.Machine
end

