-- ==== Sys2Proof/Machine/Constellation.lean ====
section
/-! DEFINITION. Constellations: AGREE, offsets, fencing, agreement by pair, notices, FRAME messages and forwarding (R473 to
R487). -/

namespace Sys2Proof.Machine

/-! ## Members (R473) -/

/-- Change the hidden half of a peer. -/
def State.modPeer (s : State) (m : Nat) (f : Peer → Peer) : State :=
  { s with con := { s.con with peers := smapPut (fun _ => {}) s.con.peers m (f (s.peer m)) } }

/-- The package is a member of a constellation, and its constellation control is usable. -/
def State.member (s : State) : Bool := s.flag CON_STAT_MEMBER && s.ready 22

/-- The declared members other than this one, in ascending order. -/
def State.peersOf (s : State) : List Nat :=
  (List.range 8).filter fun m => s.flag (CON_PEER_CFG_DECL m) && m != s.self

/-- The agreement digest: 16 bytes of SHA-384 over VERSION, CD and EPOCH. -/
def State.agreeDigest (s : State) : List Byte :=
  (sha384 (beBytes 4 (s.get IMG_VERSION_VERSION)
    ++ ((List.range 8).flatMap fun k => leBytes 4 (s.get (CON_CD_D k)))
    ++ beBytes 4 (s.get IMG_EPOCH_EPOCH))).take 16

/-- Eight bytes of a signed number, most significant first. -/
def sBytes8 (v : Int) : List Byte := beBytes 8 (v % 2 ^ 64).toNat

/-- Header of a message from this member: TYPE, SRC and DST, HOPS 0 and CORR 0 (R475). -/
def State.conHeader (s : State) (type dst : Nat) : List Byte :=
  [type, s.self * 16 + dst, 0, 0, 0, 0, 0, 0].map (BitVec.ofNat 8 ·)

/-- Hand a message of this member to the next hop of `dst`. -/
def State.conSend (s : State) (dst : Nat) (bs : List Byte) : State :=
  s.streamSend (s.get (CON_PEER_CFG_STREAM dst)) (.message none none bs)

/-! ## Agreement by pair (R479, R480) -/

/-- The lowest disagreement kind of a pair; 0 when it is agreed. -/
def State.pairKind (s : State) (m : Nat) : Nat :=
  let p := s.peer m
  if s.silent m then 1
  else if p.version != s.get IMG_VERSION_VERSION then 2
  else if p.epoch != s.get IMG_EPOCH_EPOCH then 3
  else if p.digest != s.agreeDigest then 4
  else if s.flag CON_STAT_FENCED || s.flag (CON_PEER_STAT_PFENCED m) then 5
  else 0

/-- CON.DIS holds what a NOTICE of this cycle told of the pair of this member and `j` (R485). -/
def State.toldNow (s : State) (j : Nat) : Bool :=
  s.flag CON_DIS_NOTICE && s.con.disTick = s.ticks
    && ((s.get CON_DIS_I = s.self && s.get CON_DIS_J = j) || (s.get CON_DIS_I = j && s.get CON_DIS_J = s.self))

/-- CON.DIS keeps the first disagreement (R480); one that a NOTICE tells and this member detects in the same cycle is marked
as detected here (R485). -/
def State.recordDis (s : State) (i j kind : Nat) (notice : Bool) (t : Nat) : State :=
  if s.flag CON_DIS_VALID && (notice || !s.toldNow j) then s
  else
    let s := { s with con := { s.con with disTick := s.ticks } }
    let s := ((s.set CON_DIS_I i).set CON_DIS_J j).set CON_DIS_KIND kind
    ((s.put CON_DIS_NOTICE notice).setStamp CON_DIS_T_NS.addr t).put CON_DIS_VALID true

/-- A NOTICE about a pair of this member to every member that it is still agreed with. -/
def State.sendNotices (s : State) (j kind : Nat) : State :=
  let body := [s.self, j, kind, 0].map (BitVec.ofNat 8 ·) ++ beBytes 8 s.now
  s.each (s.peersOf.filter fun m => s.flag (CON_PEER_STAT_AGREED m)) fun s m => s.conSend m (s.conHeader 3 m ++ body)

/-- The pair of a member takes its agreement. -/
def State.setAgreed (s : State) (m : Nat) (b : Bool) : State :=
  (s.put (CON_PEER_STAT_AGREED m) b).put (agreedLoc m) b

/-- A pair stops being agreed: counted, raised, reported, recorded and told to the others (R480). -/
def State.pairLost (s : State) (m kind : Nat) : State :=
  let s := ((s.inc (CON_PEER_CNT_LOST m)).raise 1889 (m + kind * 256)).report 1889 0x56
  (s.recordDis s.self m kind false s.now).sendNotices m kind

/-- The pairs of some members are decided again: every pair first takes its state, then the losses are told. -/
def State.evalPairs (s : State) (ms : List Nat) : State :=
  let lost := ms.filter fun m => s.flag (CON_PEER_STAT_AGREED m) && s.pairKind m != 0
  let won := ms.filter fun m => !s.flag (CON_PEER_STAT_AGREED m) && s.pairKind m = 0
  let s := s.each ms fun s m => (s.set (CON_PEER_STAT_KIND m) (s.pairKind m)).setAgreed m (s.pairKind m = 0)
  let s := s.each won fun s m => s.raise 1888 m
  s.each lost fun s m => s.pairLost m (s.get (CON_PEER_STAT_KIND m))

/-! ## Fencing (R478) -/

/-- Fencing sets while a condition holds; source 1890, CON_FENCED, and every pair is decided again. -/
def State.fence (s : State) : State :=
  if s.mustFence then
    let s := { s with con := { s.con with clearPeriods := 0 } }
    if s.flag CON_STAT_FENCED then s
    else (((s.put CON_STAT_FENCED true).raise 1890 1).startCond 1890 0x57).evalPairs s.peersOf
  else s

/-- Fencing ends after 3 periods without a condition. -/
def State.unfence (s : State) : State :=
  if s.flag CON_STAT_FENCED && !s.mustFence then
    let n := s.con.clearPeriods + 1
    let s := { s with con := { s.con with clearPeriods := n } }
    if 3 ≤ n then (((s.put CON_STAT_FENCED false).raise 1890 0).endCond 1890 0x57).evalPairs s.peersOf else s
  else s

/-! ## AGREE (R476, R477) -/

/-- The body of the AGREE to a member. -/
def State.agreeBody (s : State) (m : Nat) : List Byte :=
  let (e1, e2, ec) := (s.peer m).echo.getD (0, 0, 0)
  [BitVec.ofNat 8 ((if s.flag CON_STAT_FENCED then 1 else 0) + (if s.flag CON_STAT_THETA_OK then 2 else 0)), 0, 0, 0]
    ++ beBytes 4 (s.get IMG_VERSION_VERSION) ++ beBytes 4 (s.get IMG_EPOCH_EPOCH) ++ s.agreeDigest
    ++ beBytes 8 e1 ++ beBytes 8 e2 ++ beBytes 4 ec ++ sBytes8 (s64 (s.get CON_THETA_NS))

/-- AGREE_SEND: a period has passed; an AGREE goes to every other declared member. -/
def execAgreeSend (s : State) : Out :=
  .next <|
    if s.member && decide (s.con.periodTick + s.period ≤ s.ticks) then
      let s := { s with con := { s.con with periodTick := s.ticks } }
      let s := if s.get CON_CFG_TREF = s.self then s.put CON_STAT_THETA_OK true else s
      let s := s.unfence.fence
      s.each s.peersOf fun s m => s.conSend m (s.conHeader 1 m ++ s.agreeBody m)
    else s

/-- θ to a peer (R477). -/
def thetaOf (a : Agree) (t3 t4 c2 : Nat) : Int :=
  (((t4 : Int) - t3 - c2) - ((a.echo.2.1 : Int) - a.echo.1 - a.echo.2.2)).tdiv 2

/-- A number kept within 32 signed bits. -/
def sat32 (v : Int) : Int := max (-2147483648) (min 2147483647 v)

/-- An AGREE of peer `p`, sent at its NSO `t3` and received here at `t4`, with CORR `c2`. -/
def State.agreeReceive (s : State) (p : Nat) (a : Agree) (t3 t4 c2 : Nat) : State :=
  if !s.peersOf.contains p then s
  else
    let θ := thetaOf a t3 t4 c2
    let s := s.setInt (CON_PEER_OFF_NS p) (sat32 θ)
    let s := s.modPeer p fun _ =>
      { lastTick := some s.ticks, version := a.version, epoch := a.epoch, digest := a.ad, echo := some (t3, t4, c2) }
    let s := s.put (CON_PEER_STAT_PFENCED p) (a.fenced || decide (s.thr < a.theta.natAbs))
    let s := if s.get CON_CFG_TREF = p then
        let s := { s with con := { s.con with thetaTick := some s.ticks } }
        ((s.setInt CON_THETA_NS θ).put CON_STAT_THETA_OK true).fence
      else s
    s.evalPairs [p]

/-- AGREE_RECEIVE. -/
def execAgreeReceive (p : Fin 8) (a : Agree) (t3 t4 c2 : Nat) (s : State) : Out :=
  .next (if s.member then s.agreeReceive p a t3 t4 c2 else s)

/-- PEER_SILENCE: 3 periods have passed without an AGREE of a peer (R479). -/
def execPeerSilence (p : Fin 8) (s : State) : Out :=
  .next (if s.member && s.peersOf.contains p.val && s.silent p then s.evalPairs [p.val] else s)

/-- THETA_STALE: THETA was not computed for 10 periods (R478). -/
def execThetaStale (s : State) : Out :=
  .next (if s.member && s.thetaStale then (s.put CON_STAT_THETA_OK false).fence else s)

/-! ## Notices (R480) -/

/-- A NOTICE that pair `i`, `j` disagrees, detected at `t`. -/
def State.noticeReceive (s : State) (i j kind t : Nat) : State :=
  (s.raise 1891 (i + j * 256 + kind * 65536)).recordDis i j kind true t

/-- NOTICE_RECEIVE. -/
def execNoticeReceive (i j kind : Fin 8) (t : Nat) (s : State) : Out :=
  .next (if s.member then s.noticeReceive i j kind t else s)

/-! ## FRAME messages (R482) -/

/-- A FRAME message of member SRC: discarded when the pair is not agreed, a loss of the same cycle included (R485), else
the legs of its route are applied with the carried values; REMOTE legs are skipped and counted. -/
def State.frameReceive (s : State) (m : FrameMsg) : State :=
  if !s.pairHolds m.src then
    (s.inc (CON_PEER_CNT_XDROP m.src)).raiseOncePerMs 1892 1892 m.src
  else if !s.flag (GW_RT_CFG_VALID m.route) || s.gw.notStarted.contains m.route then s
  else
    s.each (s.legsOf m.route) fun s l =>
      if s.get (GW_LEG_CFG_KIND l) = 3 then s.inc (CON_PEER_SKIP_SKIP m.src)
      else
        s.stageLeg { route := m.route, leg := l, attr := s.legAttr m.route l, idx := m.idx,
                     target := s.get (GW_LEG_CFG_TARGET l), release := m.release, stamp := m.stamp, origin := m.src,
                     source := m.ingress, msg := m.msg, key := m.key, frame := s.legFrame l m.frame, taint := m.taint,
                     state := .waiting }

/-- A FRAME message for this member: received, or held until the gateway is usable (R32). -/
def State.frameArrive (s : State) (m : FrameMsg) : State :=
  if s.gwUsable then s.frameReceive m else s.holdIn (.frame m)

/-- FRAME_MESSAGE_RECEIVE. -/
def execFrameMessageReceive (m : FrameMsg) (s : State) : Out :=
  .next (if s.member && s.peersOf.contains m.src && m.route < 1024 then s.frameArrive m else s)

/-! ## Messages on native lanes (R475) -/

/-- The bytes of a list from an offset on, as a number, most significant first. -/
def beField (bs : List Byte) (i n : Nat) : Nat := beNat ((bs.drop i).take n)

/-- The frame that descriptor words 1 to 3 and data bytes describe (R161). -/
def frameOfWords (w1 w2 af : Nat) (data : List Byte) : Frame :=
  let rmt := w1.testBit 30
  { fmt := w2 / 2 ^ 12 % 4, id := w1 % 2 ^ 29, ide := w1.testBit 29, rmt, brs := w1.testBit 31, esi := w2.testBit 14,
    sec := w2.testBit 15, sdt := w2 / 2 ^ 16 % 256, vcid := w2 / 2 ^ 24 % 256, af, len := w2 % 2 ^ 12,
    data := if rmt then [] else data.take (w2 % 2 ^ 12) }

/-- The AGREE that a message spells. -/
def agreeOf (bs : List Byte) : Agree :=
  { fenced := (beField bs 8 1).testBit 0, thetaOk := (beField bs 8 1).testBit 1, version := beField bs 12 4,
    epoch := beField bs 16 4, ad := (bs.drop 20).take 16,
    echo := (beField bs 36 8, beField bs 44 8, beField bs 52 4), theta := s64 (beField bs 56 8) }

/-- The FRAME that a message spells. -/
def frameMsgOf (bs : List Byte) : FrameMsg :=
  let x := beField bs 31 1
  { src := beField bs 1 1 / 16 % 8, release := beField bs 8 8, stamp := beField bs 16 8, key := beField bs 24 4,
    route := beField bs 28 2 % 1024, ingress := beField bs 30 1, msg := x % 16, idx := x / 16 % 4, taint := x.testBit 6,
    frame := frameOfWords (beField bs 32 4) (beField bs 36 4) (beField bs 40 4) (bs.drop 44) }

/-- A message for another member: one more hop, towards its next hop; HOPS 7 is discarded. -/
def State.forward (s : State) (dst rx : Nat) (bs : List Byte) : State :=
  let hops := beField bs 2 1
  if 7 ≤ hops || !s.flag (CON_PEER_CFG_DECL dst) then s
  else
    s.streamSend (s.get (CON_PEER_CFG_STREAM dst))
      (.message none (some rx) (bs.take 2 ++ BitVec.ofNat 8 (hops + 1) :: bs.drop 3))

/-- A constellation message that arrived in a native frame with TX_NSO `t3` at `t4`. -/
def State.messageReceive (s : State) (t3 t4 : Nat) (bs : List Byte) : State :=
  let src := beField bs 1 1 / 16 % 8
  let dst := beField bs 1 1 % 8
  if !s.member || bs.length < 8 then s
  else if dst != s.self then s.forward dst t4 bs
  else if !s.peersOf.contains src then s
  else
    match beField bs 0 1 with
    | 1 => if 64 ≤ bs.length then s.agreeReceive src (agreeOf bs) t3 t4 (beField bs 4 4) else s
    | 2 => if 44 ≤ bs.length then s.frameArrive (frameMsgOf bs) else s
    | 3 =>
      if 20 ≤ bs.length then
        s.noticeReceive (beField bs 8 1 % 8) (beField bs 9 1 % 8) (beField bs 10 1 % 8) (beField bs 12 8)
      else s
    | _ => s

end Sys2Proof.Machine
end

