-- ==== Sys2Proof/Machine/Curator.lean ====
section
/-! DEFINITION. The curator: classification, the active fault table, first-fault record, reactions, safe state, forced
reclaim, self-faults and injection (R361 to R382). -/

namespace Sys2Proof.Machine

/-! ## The table and its outputs (R364, R367, R368) -/

/-- Entry `i` is uncleared. -/
def State.aftValid (s : State) (i : Nat) : Bool := s.flag (CUR_AFT_VALID i)

/-- The uncleared entries. -/
def State.aftEntries (s : State) : List Nat := (List.range 256).filter s.aftValid

/-- The entry of a source and kind. -/
def State.aftFind (s : State) (src kind : Nat) : Option Nat :=
  (List.range 256).find? fun i => s.aftValid i && s.get (CUR_AFT_SRC i) = src && s.get (CUR_AFT_KIND i) = kind

/-- Bits [23:0] of word 0 of an entry. -/
def State.aftDetail (s : State) (i : Nat) : Nat := bitsOf (s.word (CUR_AFT_SRC i).addr) 0 24

/-- NUNCL, FAULT_N and level source 1797 follow the table, OVF, the Line die 0 fallback and readiness (R368). -/
def State.faultPin (s : State) : State :=
  let n := s.aftEntries.length
  let low := n != 0 || s.flag CUR_STAT_OVF || s.fallback 0
  ((s.set CUR_STAT_NUNCL n).put CUR_STAT_FAULTN (low || !s.ready 2)).level 1797 low

/-- A condition of the safe state holds (R371). -/
def State.safeCondition (s : State) : Bool :=
  (s.aftEntries.any fun i => s.flag (CUR_AFT_SAFE i)) || s.flag CUR_STAT_SELF || (s.cur.ovfSafe && s.flag CUR_STAT_OVF)

/-- The level that guard output `g` drives: 0 low, 1 high, 2 high-impedance (R371, R374). It is low until the curator is
ready (R369). -/
def State.guardLevel (s : State) (g : Nat) : Nat :=
  let code := s.get CUR_GO_SAFE_CODE / 4 ^ g % 4
  if !s.ready 2 || code = 0 then 0
  else if s.flag CUR_STAT_SAFE || s.fallback (g / 16) then code - 1
  else if (s.get CUR_GO_OUT_OUT).testBit g then 1 else 0

/-- The safe state begins: every port enters SAFE, SAFE_T takes the detection time, source 1793 is raised (R371). -/
def State.enterSafe (s : State) (src nso : Nat) : State :=
  if s.flag CUR_STAT_SAFE then s
  else (((s.put CUR_STAT_SAFE true).setStamp CUR_SAFE_T_NS.addr nso).raise 1793 src).refreshPorts

/-- The safe state ends at the first cycle in which no condition holds (R373). -/
def State.exitSafe (s : State) : State :=
  if s.flag CUR_STAT_SAFE && !s.safeCondition then ((s.put CUR_STAT_SAFE false).raise 1794 0).refreshPorts else s

/-! ## Reclaim (R375, R376) -/

/-- During step 2 of a handover, the old part of a reclaimed station that is not READY becomes FORCED (R470). -/
def State.forcePart (s : State) (st : Nat) : State :=
  let a := s.upd.chrysalis.1 + s.upd.chrysalis.2 * st + 12
  if s.upd.hoTick.isSome && s.get UPD_STAT_STATE = 3 && !s.upd.committing && s.memWord a != 1 then
    s.hallStore a (leBytes 4 2) 1028
  else s

/-- A reclaim of a station starts: every engine of it receives HALT. -/
def State.startReclaim (s : State) (st : Nat) : State :=
  let s := { s with cur := { s.cur with reclaim := some st } }
  let s := (s.put CUR_STAT_RECL true).each (s.stationEngines st) fun s e => s.engineHalt e
  s.forcePart st

/-- Put a station in ascending order, once. -/
def insertStation (st : Nat) : List Nat → List Nat
  | [] => [st]
  | x :: xs => if st < x then st :: x :: xs else if st = x then x :: xs else x :: insertStation st xs

/-- A reclaim is requested: it starts, or is queued in ascending station order. -/
def State.requestReclaim (s : State) (st : Nat) : State :=
  match s.cur.reclaim with
  | none => s.startReclaim st
  | some r =>
    if r = st then s
    else { s with cur := { s.cur with reclaimQueue := insertStation st s.cur.reclaimQueue } }

/-- The pools of a station. -/
def State.poolsOwned (s : State) (st : Nat) : List Nat :=
  (List.range 1024).filter fun p => s.get (MOP_POOL_CFG1_KIND p) != 0 && s.get (MOP_POOL_CFG1_OWNER p) = st

/-- The lock requests of a station's engines are withdrawn, and then the locks they hold become free with BROKEN 1; its pools
and hall units are revoked (R375, steps 1 to 4). -/
def State.finishReclaim (s : State) (st : Nat) : State :=
  let s := s.each (s.stationEngines st) State.withdrawAll
  let s := s.each (s.stationEngines st) fun s e =>
    if s.estate e = 2 || s.estate e = 3 then s.engineReset e else s.breakLocks e
  let ps := (s.poolsOwned st).filter (!s.store.revoked.contains ·)
  let s := s.each ps fun s p => s.dropPool p codeRevoked true
  let s := { s with store := { s.store with revoked := s.store.revoked ++ ps } }
  let s := if s.halls.revoke.isSome then s.revocationDone else s
  let dest := match s.get CUR_CFG_RECLAIM_TO with
    | 1 => 125
    | 2 => 127
    | _ => 64
  (s.revokeUnits st dest).revocationDone

/-- RECLAIM_COMPLETE: the reclaim in progress ends with source 1796, and the next queued one starts. -/
def execReclaimComplete (s : State) : Out :=
  .next <|
    match s.cur.reclaim with
    | none => s
    | some st =>
      let s := s.finishReclaim st
      let s := ({ s with cur := { s.cur with reclaim := none } }).raise 1796 st
      match s.cur.reclaimQueue with
      | [] => s.put CUR_STAT_RECL false
      | x :: xs => ({ s with cur := { s.cur with reclaimQueue := xs } }).startReclaim x

/-! ## Occurrences (R363 to R370) -/

/-- The engine that an occurrence implicates (R370). -/
def FaultReport.engine (f : FaultReport) : Option Nat :=
  if f.master < 1024 then some f.master
  else if 512 ≤ f.src && f.src < 1536 then some (f.src - 512) else none

/-- The occurrences that a window rule counts for an occurrence (R363). -/
def State.windowCount (s : State) (w : Nat) (f : FaultReport) : Nat :=
  let win := max 1 (s.get (CUR_WRULE1_WIN w)) * 1000000
  let src := s.get (CUR_WRULE0_SRC w)
  (s.cur.occ.filter fun (k, so, t) => k = f.kind && (src = 2047 || so = src) && t ≤ f.nso && f.nso < t + win).length

/-- A window rule applies to an occurrence, already counted. -/
def State.ruleApplies (s : State) (w : Nat) (f : FaultReport) : Bool :=
  let n := s.get (CUR_WRULE0_N w)
  let src := s.get (CUR_WRULE0_SRC w)
  n != 0 && s.get (CUR_WRULE0_KIND w) = f.kind && (src = 2047 || src = f.src) && n ≤ s.windowCount w f

/-- The final severity of an occurrence, already counted (R363). -/
def State.severity (s : State) (f : FaultReport) : Nat :=
  let base := s.get (CUR_KIND_SEV f.kind)
  if s.flag (CUR_KIND_FIXED f.kind) then base
  else ((List.range 64).filter fun w => s.ruleApplies w f).foldl (fun a w => max a (s.get (CUR_WRULE0_ESC w))) base

/-- The reactions that an occurrence of a severity runs, as REACT bits 0 SAFE, 1 QUAR, 2 HALT, 3 RECLAIM (R370). -/
def State.reactions (s : State) (f : FaultReport) (sev : Nat) : Nat :=
  if s.flag (CUR_KIND_FIXED f.kind) then 1
  else
    let r := if s.get (CUR_KIND_RSEV f.kind) ≤ sev then s.get (CUR_KIND_REACT f.kind) else 0
    if sev = 3 then r ||| 1 else r

/-- The condition of an occurrence is live. -/
def State.isLive (s : State) (f : FaultReport) : Bool :=
  (!f.inj || f.kind = 0x60) && s.cur.live.contains (f.src, f.kind)

/-- Fill a new entry (R364). -/
def State.newEntry (s : State) (i : Nat) (f : FaultReport) (sev : Nat) (safe : Bool) : State :=
  let s := s.setWord (CUR_AFT_SRC i).addr 0
  let s := (((s.set (CUR_AFT_SRC i) f.src).set (CUR_AFT_KIND i) f.kind).set (CUR_AFT_SEV i) sev).put (CUR_AFT_SAFE i) safe
  let s := ((s.put (CUR_AFT_LIVE i) (s.isLive f)).put (CUR_AFT_INJ i) f.inj).put (CUR_AFT_VALID i) true
  let s := (s.setWord (CUR_AFT_COUNT i).addr 1).setStamp (CUR_AFT_NS i).addr f.nso
  s.raise 1792 (s.aftDetail i)

/-- One more occurrence of an entry (R364). -/
def State.oldEntry (s : State) (i : Nat) (f : FaultReport) (sev : Nat) (safe : Bool) : State :=
  let up := s.get (CUR_AFT_SEV i) < sev
  let s := (s.inc (CUR_AFT_COUNT i)).setStamp (CUR_AFT_NS i).addr f.nso
  let s := (s.set (CUR_AFT_SEV i) (max sev (s.get (CUR_AFT_SEV i)))).put (CUR_AFT_SAFE i) (safe || s.flag (CUR_AFT_SAFE i))
  let s := (s.put (CUR_AFT_LIVE i) (s.isLive f || s.flag (CUR_AFT_LIVE i))).put (CUR_AFT_INJ i)
    (f.inj || s.flag (CUR_AFT_INJ i))
  if up then s.raise 1792 (s.aftDetail i) else s

/-- The quiet period of an entry starts now. -/
def State.startQuiet (s : State) (i : Nat) : State :=
  { s with cur := { s.cur with quietFrom := smapInsert s.cur.quietFrom i s.ticks } }

/-- An occurrence enters the active fault table, or overflows it (R364). -/
def State.tableEntry (s : State) (f : FaultReport) (sev : Nat) (safe : Bool) : State :=
  match s.aftFind f.src f.kind with
  | some i => (s.oldEntry i f sev safe).startQuiet i
  | none =>
    match (List.range 256).find? fun i => !s.aftValid i with
    | some i => (s.newEntry i f sev safe).startQuiet i
    | none =>
      let s := (s.put CUR_STAT_OVF true).raise 1799 f.src
      { s with cur := { s.cur with ovfSafe := s.cur.ovfSafe || safe } }

/-- Run the reactions beside SAFE: quarantine, HALT and reclaim (R370). -/
def State.react (s : State) (f : FaultReport) (r : Nat) : State :=
  let s := if r.testBit 1 && f.src < 512 && s.isCan (f.src / 4) && !s.flag (ECF_STAT_QPEND (f.src / 4))
      && s.get (ECF_STAT_RSTEP (f.src / 4)) != 4 then s.quar (f.src / 4) else s
  match f.engine.bind s.stationOf with
  | none => s
  | some st =>
    let s := if r.testBit 2 then s.each (s.stationEngines st) fun s e => s.engineHalt e else s
    if r.testBit 3 then s.requestReclaim st else s

/-- The severity counter of a severity. -/
def sevcntLoc (sev : Nat) : Loc :=
  match sev with
  | 0 => CUR_SEVCNT_S0
  | 1 => CUR_SEVCNT_S1
  | 2 => CUR_SEVCNT_S2
  | _ => CUR_SEVCNT_S3

/-- Classify, count, record and react to one occurrence of severity `sev` (R364, R370). -/
def State.takeOccurrence (s : State) (f : FaultReport) (sev : Nat) : State :=
  let r := s.reactions f sev
  let safe := r.testBit 0
  let s := s.inc (sevcntLoc sev)
  let s := if sev != 0 || safe then s.tableEntry f sev safe else s
  let s := if safe then s.enterSafe f.src f.nso else s
  (s.react f r).faultPin

/-- The word that CUR.FIRST and CUR.COIN take (R365, R366). -/
def firstWord (f : FaultReport) (sev others : Nat) : Word :=
  BitVec.ofNat 32 (f.src % 2 ^ 11 + f.kind % 256 * 2 ^ 11 + sev % 4 * 2 ^ 19 + (if f.inj then 2 ^ 23 else 0)
    + min others 31 * 2 ^ 24 + 2 ^ 31)

/-- The first-fault record and the coincident one take the first two occurrences of a cycle, when the record is free
(R365, R366). -/
def State.firstRecord (s : State) (l : List (FaultReport × Nat)) : State :=
  if s.flag CUR_FIRST_VALID then s
  else
    match l with
    | [] => s
    | (f, sev) :: rest =>
      let s := (s.setWord CUR_FIRST_SRC.addr (firstWord f sev 0)).setWord CUR_FIRST_ADDR_ADDR.addr (BitVec.ofNat 32 f.addr)
      let s := ((s.set CUR_FIRST_ACC_MASTER f.master).set CUR_FIRST_ACC_ACC f.acc).setStamp CUR_FIRST_T_NS.addr f.nso
      match rest with
      | [] => s
      | (g, sg) :: more => s.setWord CUR_COIN_SRC.addr (firstWord g sg more.length)

/-- The order of occurrences of one cycle: higher severity, then lower source, then lower kind (R366). -/
def occLe (a b : FaultReport × Nat) : Bool :=
  b.2 < a.2 || (a.2 = b.2 && (a.1.src < b.1.src || (a.1.src = b.1.src && a.1.kind ≤ b.1.kind)))

/-- Insert into the order of a cycle. -/
def insertOcc (x : FaultReport × Nat) : List (FaultReport × Nat) → List (FaultReport × Nat)
  | [] => [x]
  | y :: ys => if occLe y x then y :: insertOcc x ys else x :: y :: ys

/-- The occurrences of one detection cycle are counted by the window rules, classified, ordered and taken. -/
def State.takeCycle (s : State) (l : List FaultReport) : State :=
  let s := { s with cur := { s.cur with occ := (l.map fun f : FaultReport => (f.kind, f.src, f.nso)).reverse ++ s.cur.occ } }
  let ranked := l.foldl (fun a f => insertOcc (f, s.severity f) a) []
  let s := s.firstRecord (ranked.filter fun (f, v) => v != 0 || (s.reactions f v).testBit 0)
  s.each ranked fun s (f, v) => s.takeOccurrence f v

/-- The curator takes the reports of the earliest detection cycle that wait. -/
def State.takeEarliest (s : State) : State :=
  match s.cur.inbox with
  | [] => s
  | x :: xs =>
    let t := xs.foldl (fun t f => min t f.tick) x.tick
    let now := s.cur.inbox.filter (·.tick == t)
    ({ s with cur := { s.cur with inbox := s.cur.inbox.filter (·.tick != t) } }).takeCycle now

/-- FAULT_OCCURRENCE (R363 to R366, R370). -/
def execFaultOccurrence (s : State) : Out := .next s.takeEarliest

/-- Every report that waits is taken, cycle by cycle: those detected up to this cycle come before what clears an entry in
it (R380). -/
def State.takeWaiting (s : State) : State := s.each s.cur.inbox fun s _ => s.takeEarliest

/-- FAULT_CONDITION_END: entries whose condition no longer holds stop being LIVE, and their quiet period starts (R367). -/
def execFaultConditionEnd (s : State) : Out :=
  .next (s.each s.aftEntries fun s i =>
    if s.flag (CUR_AFT_LIVE i) && !s.cur.live.contains (s.get (CUR_AFT_SRC i), s.get (CUR_AFT_KIND i))
    then (s.put (CUR_AFT_LIVE i) false).startQuiet i else s)

/-! ## Commands (R367, R373, R376) -/

/-- CMDERR. -/
def State.curErr (s : State) : State := s.put CUR_STAT_CMDERR true

/-- An entry goes. -/
def State.clearEntry (s : State) (i : Nat) : State := s.each (List.range 4) fun s w => s.setWord (CUR_AFT_W i w).addr 0

/-- The entry cannot be cleared: none, LIVE or CURATOR_SELF (R367). -/
def State.stuckEntry (s : State) (i : Nat) : Bool :=
  !s.aftValid i || s.flag (CUR_AFT_LIVE i) || s.get (CUR_AFT_KIND i) = 0x60

/-- A write of CUR.CTRL. -/
def State.curWrite (s : State) (q : Requester) (f : State → State) : State :=
  s.hostWrite q CUR_CTRL_CMD.addr (s.ready 2) f

/-- An occurrence of the entry waits: it counts, and a CLEAR of the entry is ignored (R380). -/
def State.entryWaits (s : State) (i : Nat) : Bool :=
  s.cur.inbox.any fun f => f.src == s.get (CUR_AFT_SRC i) && f.kind == s.get (CUR_AFT_KIND i)

/-- CLEAR. -/
def State.curClear (s : State) (i : Nat) : State :=
  let stuck := s.stuckEntry i || s.entryWaits i
  let s := s.takeWaiting
  if stuck then s.curErr else ((s.clearEntry i).faultPin).exitSafe

/-- CLEAR_ALL. -/
def State.curClearAll (s : State) : State :=
  let es := s.aftEntries.filter fun i => !(s.stuckEntry i || s.entryWaits i)
  let s := s.takeWaiting.each es fun s i => s.clearEntry i
  let s := s.put CUR_STAT_OVF false
  (({ s with cur := { s.cur with ovfSafe := false } }).faultPin).exitSafe

/-- ENTER: a HOST_SAFE occurrence caused by the host's write (R365). -/
def State.curEnter (s : State) : State := s.reportFrom 1805 0x62 0x05100000 1024 2

/-- RETURN of a station: units revoked from it come back, cleared first, and its pools return to service (R376). -/
def State.curReturn (s : State) (st : Nat) : State :=
  let busy := (s.stationEngines st).any fun e => s.estate e = 2 || s.estate e = 3
  if busy || s.cur.reclaim == some st || s.cur.reclaimQueue.contains st then s.curErr
  else
    let us := (List.range 4096).filter fun u => s.flag (HALL_OWN_REVOKED u) && s.get (HALL_OWN_OWNER u) = st
      && (s.get (HALL_OWN_CUR u) = 64 || s.get (HALL_OWN_CUR u) = 127)
    let s := (s.flushUnits us false).zeroUnits us
    let s := s.each us fun s u => (s.set (HALL_OWN_CUR u) st).put (HALL_OWN_REVOKED u) false
    let ps := s.poolsOwned st
    let s := { s with store := { s.store with revoked := s.store.revoked.filter (!ps.contains ·) } }
    s.each ps fun s p => s.each (s.poolSlots p) fun s k => s.setSlotState k slotFree

/-- CLEAR. -/
def execClear (q : Requester) (i : Fin 256) (s : State) : Out := .next (s.curWrite q fun s => s.curClear i)

/-- CLEAR_ALL. -/
def execClearAll (q : Requester) (s : State) : Out := .next (s.curWrite q fun s => s.curClearAll)

/-- ENTER. -/
def execEnter (q : Requester) (s : State) : Out := .next (s.curWrite q fun s => s.curEnter)

/-- RECLAIM of a station; one queued or running already has no further effect (R375). -/
def execReclaim (q : Requester) (st : Fin 64) (s : State) : Out := .next (s.curWrite q fun s => s.requestReclaim st)

/-- UNLOCK: RLOCK clears; WINCNT stays (R373). -/
def execUnlockRlock (q : Requester) (s : State) : Out := .next (s.curWrite q fun s => s.put CUR_STAT_RLOCK false)

/-- RETURN. -/
def execReturn (q : Requester) (st : Fin 64) (s : State) : Out := .next (s.curWrite q fun s => s.curReturn st)

/-- An unknown curator command sets CMDERR (R382). -/
def execCurCmdIgnored (q : Requester) (s : State) : Out := .next (s.curWrite q fun s => s.curErr)

/-! ## Automatic clears, self-faults, injection (R367, R373, R377, R378) -/

/-- The automatic exits within the last RECOV_WIN seconds. -/
def State.winCount (s : State) : Nat :=
  let w := if s.get CUR_CFG_RECOV_WIN = 0 then 60 else s.get CUR_CFG_RECOV_WIN
  (s.cur.exits.filter fun t => s.ticks < t + w * 500000000).length

/-- A safe state that ended by an automatic clear is counted, and may lock automatic exits (R373). -/
def State.countExit (s : State) : State :=
  let s := { s with cur := { s.cur with exits := s.ticks :: s.cur.exits } }
  let n := s.winCount
  let s := (s.inc CUR_RECOV_COUNT).set CUR_RECOV_WINCNT (min n 15)
  let m := s.get CUR_CFG_RECOV_MAX
  if m != 0 && m ≤ n && !s.flag CUR_STAT_RLOCK then (s.put CUR_STAT_RLOCK true).raise 1798 (min n 15) else s

/-- AUTO_CLEAR: an AUTO entry that is not LIVE clears after QUIET milliseconds without an occurrence; with SAFE 1 not
while RLOCK is 1 (R367, R373). -/
def execAutoClear (i : Fin 256) (s : State) : Out :=
  .next <|
    let s := s.takeWaiting
    let q := if s.get CUR_CFG_QUIET = 0 then 100 else s.get CUR_CFG_QUIET
    let from_ := smapFind (fun _ => 0) s.cur.quietFrom i
    if s.flag (CUR_KIND_AUTO (s.get (CUR_AFT_KIND i))) && !s.stuckEntry i && decide (from_ + ticksOfMs q ≤ s.ticks)
        && !(s.flag (CUR_AFT_SAFE i) && s.flag CUR_STAT_RLOCK) then
      let d := s.aftDetail i
      let was := s.flag CUR_STAT_SAFE
      let s := (((s.clearEntry i).raise 1795 d).faultPin).exitSafe
      if was && !s.flag CUR_STAT_SAFE then s.countExit else s
    else s

/-- A CURATOR_SELF fault: STAT.SELF, and the hardwired path raises the safe state at once (R377). -/
def State.selfFault (s : State) (inj : Bool) : State :=
  let f : FaultReport := { src := 1804, kind := 0x60, nso := s.now, tick := s.ticks, inj }
  let s := { s with cur := { s.cur with live := s.cur.live.filter (· != (1804, 0x60)) ++ [(1804, 0x60)] } }
  ((s.put CUR_STAT_SELF true).enterSafe 1804 s.now).takeCycle [f]

/-- CURATOR_SELF: a comparator mismatch or an uncorrectable table error; a corrected table error is a CURATOR_CORRECTED
occurrence (R377). -/
def execCuratorSelf (corrected : Bool) (s : State) : Out :=
  .next (if corrected then s.report 1804 0x61 else s.selfFault false)

/-- FAULT_INJECT: in MANUFACTURE, a write of CUR.INJ with GO 1 makes an occurrence with INJ set; in every other state the
write has no effect (R13, R378). -/
def execFaultInject (q : Requester) (src : SrcNo) (kind : Byte) (s : State) : Out :=
  .next (s.hostWrite q CUR_INJ_GO.addr (s.ready 2) fun s =>
    if s.get VIT_STAT_LC != 0 then s
    else if kind.toNat = 0x60 then s.selfFault true
    else { s with cur := { s.cur with inbox := s.cur.inbox ++
      [{ src := src.val, kind := kind.toNat, nso := s.now, tick := s.ticks, inj := true : FaultReport }] } })

end Sys2Proof.Machine
end

