-- ==== Sys2Proof/Machine/Gateway.lean ====
section
/-! DEFINITION. Gateway commands: ingress, tunnels, releases, waiting copies and breach windows (R241 to R264). -/

namespace Sys2Proof.Machine

/-- GATEWAY_INGRESS: the frame in the gateway's RX slot passes the taint, repetition and budget steps and is copied to its
legs; a frame of a route that has not started waits, and so does every frame until the gateway is usable (R32, R241). -/
def execGatewayIngress (k : SlotNo) (s : State) : Out :=
  .next <|
    match s.gw.waiting.find? (·.slot == k.val) with
    | some w => if s.gw.notStarted.contains w.route || !s.gwUsable then s else s.ingressInOrder w
    | none => s

/-! ## Tunnels (R244, R260, R263, R264) -/

/-- The receive map of a stream: bit b stands for HI − b. -/
def State.tunMap (s : State) (st : Nat) : Nat := smapFind (fun _ => 0) s.gw.tunMap st

/-- Set HI and the map. -/
def State.setTun (s : State) (st hi m : Nat) : State :=
  let s := { s with gw := { s.gw with tunMap := smapPut (fun _ => 0) s.gw.tunMap st (m % 2 ^ 64) } }
  (s.set (GW_TUN_SEQ_HI st) hi).put (GW_TUN_SEQ_HV st) true

/-- The window empties. -/
def State.emptyTun (s : State) (st : Nat) : State :=
  let s := { s with gw := { s.gw with tunMap := smapErase s.gw.tunMap st } }
  s.put (GW_TUN_SEQ_HV st) false

/-- A duplicate or stale AVTPDU (R260). -/
def State.tunDiscard (s : State) (st : Nat) : State := s.raiseOncePerMs 1541 1541 st

/-- The window check of sequence number `q`: accepted, with its effects, or discarded and counted (R260). -/
def State.tunWindow (s : State) (st q : Nat) : Bool × State :=
  let hi := s.get (GW_TUN_SEQ_HI st)
  let d := (q + 256 - hi) % 256
  let b := (hi + 256 - q) % 256
  if !s.flag (GW_TUN_SEQ_HV st) then (true, s.setTun st q 1)
  else if 1 ≤ d && d ≤ 127 then
    let s := s.setTun st q (s.tunMap st * 2 ^ d + 1)
    (true, if 1 < d then s.raise 1543 (st + (d - 1) * 256) else s)
  else if b ≤ 63 then
    if (s.tunMap st).testBit b then (false, (s.inc (GW_TUN_DUP_DUP st)).tunDiscard st)
    else (true, s.setTun st hi (s.tunMap st + 2 ^ b))
  else (false, (s.inc (GW_TUN_DUP_STALE st)).tunDiscard st)

/-- The frame of a message (R264). -/
def acfFrame (m : AcfMsg) : Frame :=
  { fmt := if m.fdf then fmtFD else fmtCC, id := m.id, ide := m.eff, rmt := m.rtr, brs := m.fdf && m.brs,
    len := m.data.length, data := if m.rtr then [] else m.data }

/-- The route that takes the messages of a stream and bus (R237). -/
def State.tunnelRoute (s : State) (st bus : Nat) : Option Nat :=
  (List.range 1024).find? fun r => s.flag (GW_RT_CFG_VALID r) && s.flag (GW_RT_CFG_SRC r)
    && s.get (GW_RT_CFG_STREAM r) = st && s.get (GW_RT_CFG_BUSID r) = bus && !s.gw.notStarted.contains r

/-- The ingress timestamp of a message of an AVTPDU that crossed the medium boundary at `t` (R244). -/
def State.tunTime (s : State) (st t : Nat) (m : AcfMsg) : Nat :=
  if s.flag (GW_TUN_CFG_TS_SRC st) && m.kind = 1 && m.mtv then min t m.stamp else t

/-- Put a message of an AVTPDU, with its ingress timestamp and position, in order of timestamp and then position (R246). -/
def insertMsg (x : Nat × Nat × AcfMsg) : List (Nat × Nat × AcfMsg) → List (Nat × Nat × AcfMsg)
  | [] => [x]
  | y :: ys => if y.1 ≤ x.1 then y :: insertMsg x ys else x :: y :: ys

/-- The messages of an AVTPDU in the order in which they are considered. -/
def State.tunOrder (s : State) (st t : Nat) (ms : List AcfMsg) : List (Nat × Nat × AcfMsg) :=
  ms.zipIdx.foldl (fun l x => insertMsg (s.tunTime st t x.1, x.2, x.1) l) []

/-- A message with its ingress timestamp and position (R263, R264). -/
def State.tunMessage (s : State) (st t i : Nat) (m : AcfMsg) : State :=
  let f := acfFrame m
  if 16 ≤ i || (m.kind != 1 && m.kind != 2) || !lengthRules f then s.inc (GW_TUN_DUP_SKIP st)
  else
    match s.tunnelRoute st m.bus with
    | some r => s.acceptFrame r f t (128 + st) i false false false
    | none => s

/-- An AVTPDU on a tunnel stream. -/
def State.tunnelReceive (s : State) (st t : Nat) (a : Avtpdu) : State :=
  if (a.subtype != 0x82 && a.subtype != 0x05) || a.sid != s.get (GW_TUN_SID_SID st) || !s.flag (GW_TUN_CFG_IN st) then
    s.inc (GW_TUN_DUP_SKIP st)
  else
    match s.tunWindow st (a.seq % 256) with
    | (false, s) => s
    | (true, s) =>
      let s := { s with gw := { s.gw with tunTick := smapInsert s.gw.tunTick st s.ticks } }
      (s.inc (GW_TUN_CNT_RX st)).each (s.tunOrder st t a.msgs) fun s x => s.tunMessage st x.1 x.2.1 x.2.2

/-- An AVTPDU for a tunnel stream: received, or held until the gateway is usable (R32). -/
def State.avtpdu (s : State) (st t : Nat) (a : Avtpdu) : State :=
  if s.gwUsable then s.tunnelReceive st t a else s.holdIn (.avtpdu st t a)

/-- TUNNEL_AVTPDU_RECEIVED: `t` is the instant at which the first bit of its Ethernet frame crossed the spine medium
boundary (R244). -/
def execTunnelAvtpduReceived (st : Fin 64) (t : Nat) (a : Avtpdu) (s : State) : Out :=
  .next (s.avtpdu st t a)

/-- TUNNEL_WINDOW_TIMEOUT: 100 ms without an accepted AVTPDU (R260). -/
def execTunnelWindowTimeout (st : Fin 64) (s : State) : Out :=
  .next <|
    if s.flag (GW_TUN_SEQ_HV st) && decide (smapFind (fun _ => 0) s.gw.tunTick st + ticksOfMs 100 ≤ s.ticks)
    then s.emptyTun st else s

/-! ## Releases and breaches (R243, R253, R254) -/

/-- RELEASE_INSTANT: the staged copies of a target whose release instant has come are released in reference order
(R243, R248). -/
def execReleaseInstant (t : Fin 200) (s : State) : Out :=
  .next <|
    let due := s.gw.copies.filter fun c =>
      s.gwUsable && c.target == t.val && c.state == .staged && !c.isRemote && s.released c
    s.each due fun s c => s.releaseCopy c

/-- WAITING_COPY_SLOT: the first waiting copy of a leg, in reference order, takes a freed slot or entry (R253). -/
def execWaitingCopySlot (l : Fin 1024) (s : State) : Out :=
  .next <|
    if s.gwUsable then s.serveWaiting l 1 else s

/-- WAITING_COPY_EXPIRE: a waiting copy of a leg without a slot by R + H is discarded (R253). -/
def execWaitingCopyExpire (l : Fin 1024) (s : State) : Out :=
  .next <|
    let old := s.gw.copies.filter fun c =>
      c.leg == l.val && c.state == .waiting && decide (c.release + c.attr.horizon ≤ s.now)
    s.each old fun s c => s.dropCopy c

/-- A target still holds a copy that keeps its breach window open (R254). -/
def State.holdsWindow (s : State) (t : Nat) : Bool :=
  s.gw.copies.any fun c => c.target == t && (c.state != .staged || s.released c)

/-- BREACH_WINDOW_CLOSE. -/
def execBreachWindowClose (t : Fin 200) (s : State) : Out :=
  .next <|
    if s.flag (GW_EQ_STAT_BRW t) && !s.holdsWindow t then
      let s := (s.put (GW_EQ_STAT_BRW t) false).put (brkwLoc t) false
      (s.inc (GW_EQ_CNT_CLOSED t)).raise 1539 t
    else s

/-- A forced step makes a copy LATE, which follows BREACH_ACT (R328): released, discarded, or released once it is staged. A
REMOTE copy is released at its member; under DROP it leaves its leg's queue and the stream. -/
def State.forceCopy (s : State) (c : Copy) : State :=
  let s := s.lateBreach c
  match c.attr.drop, c.state with
  | true, _ => (if c.isRemote then s.unsendRemote c else s).discardCopy c
  | false, .staged => s.releaseCopy c
  | false, _ => s.swapCopy c { c with breached := true, forced := true }

/-- A forced step, with local time `old` before it: every copy not yet released, with an ingress timestamp before the step
tick, is LATE and follows BREACH_ACT; frames not yet staged will be (R328). -/
def State.forcedCopies (s : State) (old : Nat) : State :=
  let gw := { s.gw with waiting := s.gw.waiting.map fun (w : WaitingFrame) => { w with forced := decide (w.sof < old) } }
  let s := { s with gw }
  s.each (s.gw.copies.filter fun c => decide (c.stamp < old) && c.state != .released) State.forceCopy

end Sys2Proof.Machine
end

