-- ==== Sys2Proof/Machine/Lifelines.lean ====
section
/-! DEFINITION. Die links and readiness (R16, R17, R28, R31 to R37, R362). -/

namespace Sys2Proof.Machine

/-- Set a die link. -/
def State.setLink (s : State) (d : Nat) (l : DieLink) : State := { s with links := smapPut (fun _ => {}) s.links d l }

/-- DIE_LINK_TRANSFER: a transfer whose CRC is right is valid; another is replayed in order and counted (R16). -/
def execDieLinkTransfer (d : Fin 3) (crcOk : Bool) (s : State) : Out :=
  .next <|
    let l := s.link d
    if !l.up then s
    else if crcOk then s.setLink d { l with lastTick := s.ticks, lastNs := s.now }
    else s.setLink d { l with replays := l.replays + 1 }

/-- HEARTBEAT_LOSS: 1 µs without a valid transfer. The Gallery end reports DIE_LINK at once; a Line die drives its ports
and guard outputs safe, and its frames in progress are lost (R17, R28, R362). -/
def execHeartbeatLoss (d : Fin 3) (s : State) : Out :=
  .next <|
    let l := s.link d
    if l.up && decide (l.lastTick + 500 ≤ s.ticks) then
      let s := s.setLink d { l with up := false, fallback := d.val < 2 }
      let s := s.startCond (1800 + d) 0x38
      if d.val < 2 then
        let s := s.each (portsOf d) fun s n => s.cancelSearch n
        ((s.refreshDie d).faultPin)
      else s
    else s

/-- DIE_LINK_RETRAINED: the fallback ends, and a Line die reports the loss with the time of the last valid transfer
(R17, R362). -/
def execDieLinkRetrained (d : Fin 3) (s : State) : Out :=
  .next <|
    let l := s.link d
    let was := l.fallback
    let s := s.setLink d { l with up := true, fallback := false, upTick := if l.up then l.upTick else s.ticks, lastTick := s.ticks, lastNs := s.now }
    let s := if was then
        { s with cur := { s.cur with inbox := s.cur.inbox ++
          [{ src := 1800 + d.val, kind := 0x38, nso := l.lastNs, tick := s.ticks : FaultReport }] } }
      else s
    let s := s.endCond (1800 + d) 0x38
    if d.val < 2 then (s.refreshDie d).faultPin else s

/-- What reached the gateway while it was not usable proceeds, in the order of arrival (R32). -/
def State.serveGateway (s : State) : State :=
  let held := s.gw.heldIn
  let s := { s with gw := { s.gw with heldIn := [] } }
  s.each held fun s x =>
    match x with
    | .avtpdu st t a => s.tunnelReceive st t a
    | .frame m => s.frameReceive m

/-- What follows a readiness bit that sets: operations held for the function proceed (R32). Bit 2: drivers and FAULT_N;
8 to 11: held hall accesses; 15: what waits for the gateway. Slots wait in their queues for the Line die's bit, and frames in
the gateway's RX slots for its own. -/
def State.resume (s : State) (b : Nat) : State :=
  if b = 2 then s.refreshPorts.faultPin
  else if 8 ≤ b && b ≤ 11 then s.serveHeld
  else if b = 15 then s.serveGateway
  else s

/-- Regions with an assigned cluster. -/
def State.usedRegions (s : State) : List Nat := (List.range 16).filter fun r => s.get (RGN_STAT_CLUSTERS r) != 0

/-- A region can become usable: it has an assigned cluster, so it is not power-gated, and it is at its operating point (R18,
R37). -/
def State.rgnMay (s : State) (r : Nat) : Bool := s.get (RGN_STAT_CLUSTERS r) != 0 && !s.flag (RGN_OPP_BUSY r)

/-- A region becomes usable or stops being usable (CHIP.RGN_READY, R37): RGN[r].STAT.POWER follows, and its engines enter
HALTED, or UNASSIGNED. CHIP bit 23 holds while every region in use is usable. -/
def State.setRgnReady (s : State) (r : Nat) (v : Bool) : State :=
  let s := (s.put (rgnReadyLoc r) v).put (RGN_STAT_POWER r) v
  let s := s.each (enginesOf r) fun s e => s.enterHalted e
  let used := s.usedRegions
  s.setReady 23 (!used.isEmpty && used.all s.rgnReady)

/-- The package is awake and out of reset: functions can become usable (R33). -/
def State.usable (s : State) : Bool := !s.asleep && !s.pwr.held

/-- The lapse decision of a power-up (R400): with the marker cleared, a lapse is recorded, counted and logged, and the marker
is rewritten. -/
def State.findLapse (s : State) : State :=
  if s.flag VAULT_STAT_RAMVALID then s
  else
    let s := (s.put VAULT_STAT_RAMVALID true).put WATCH_STAT_LAPSE true
    let s := (s.advance 2 ((s.counter 2).value + 1) .ok).2.tlog 2 0 0
    (s.raise 1826 5).report 1826 0x46

/-- The condition of a readiness bit that the state shows: the crystal for WATCH, the link for PCIE, the die link for a Line
die, the settled journals for IMG and UPD (R37, R54, R460, R472). -/
def State.readyWhen (s : State) (b : Nat) : Bool :=
  if b = 0 then s.flag WATCH_STAT_XTAL
  else if b = 6 then s.flag PCIE_STAT_LINK
  else if b = 12 then s.img.restored
  else if b = 21 then s.upd.booted
  else if b = 16 || b = 17 then (s.link (b - 16)).up
  else true

/-- PWR.RAILS shows the supply once the watch runs on its crystal. -/
def State.showSupply (s : State) : State :=
  let pg := (List.range 4).filter fun i => i < s.pwr.inWindow && !s.pwr.railsOut.contains i
  ((s.set PWR_RAILS_PG (pg.map (2 ^ ·)).sum).put PWR_RAILS_REF_OK s.pwr.refOk).put PWR_RAILS_XW_OK (s.flag WATCH_STAT_XTAL)

/-- What comes before a readiness bit sets: the supply is shown, the lapse decision falls, the identity is derived (R37,
R400, R496). -/
def State.prepare (s : State) (b : Nat) : State :=
  if b = 0 then s.showSupply
  else if b = 1 then s.findLapse
  else if b = 5 then s.set CHIP_UID_UID (beNat (s.deviceIdentity.take 8))
  else s

/-- FUNCTION_READY: function `b` becomes usable; its bit and its CHG bit set (R31 to R33). Functions 24 + r are the
regions of CHIP.RGN_READY; bit 23 follows them. TIME becomes usable with the load of local time (R330). -/
def execFunctionReady (b : Fin 40) (s : State) : Out :=
  .next <|
    if !s.usable then s
    else if 24 ≤ b.val then (if s.rgnMay (b - 24) then s.setRgnReady (b - 24) true else s)
    else if b.val = 23 || s.ready b || !s.readyWhen b then s
    else if b.val = 4 then s.restoreTime
    else ((s.prepare b).setReady b true).resume b

/-- FUNCTION_NOT_READY: function `b` stops being usable (R33). -/
def execFunctionNotReady (b : Fin 40) (s : State) : Out :=
  .next <|
    if !s.usable then s
    else if 24 ≤ b.val then s.setRgnReady (b - 24) false
    else if b.val = 23 || !s.ready b then s
    else
      let s := s.setReady b false
      if b.val = 2 then s.refreshPorts.faultPin else s

end Sys2Proof.Machine
end

