-- ==== Sys2Proof/Machine/Observation.lean ====
section
/-! DEFINITION. Line observation: the commands of OBS[n].CTRL, soundings, census decisions and specimen packets (R139 to
R154). -/

namespace Sys2Proof.Machine

/-! ## Census commands (R145, R148) -/

/-- A census starts at `t`: every slot's status becomes the previous one, and none is swept yet. The first census after the
trackers start treats every previous status as PRESENT (R146). -/
def State.cenBegin (s : State) (n t : Nat) (rep : Bool) : State :=
  let first := (s.obsPort n).cenFirst
  let s := s.each (List.range (s.get (OBS_CFG_NSLOT n))) fun s k =>
    let st := s.get (OBS_CEN_RES_STATUS n k)
    let s := if first then s.set (OBS_CEN_RES_PREV n k) 1
             else if st = 0 then s else s.set (OBS_CEN_RES_PREV n k) st
    ((s.set (OBS_CEN_RES_STATUS n k) 0).set (OBS_CEN_RES_FRAMES n k) 0).setStamp (OBS_CEN_RES_W n k 2).addr 0
  let s := s.modObs n fun o => { o with cenStart := t, cenRepeat := rep, cenLater := [] }
  let s := ((s.set (OBS_STAT_CEN n) 1).set (OBS_CEN_STAT_SLOT n) 0).set (OBS_CEN_STAT_UNK n) 0
  let s := (s.setWord (OBS_CEN_UNK_ID n).addr 0).setStamp (OBS_CEN_UNK_T_NS n).addr 0
  s.setStamp (OBS_CEN_START_NS n).addr t

/-- CEN_START is permitted (R154). -/
def State.cenMay (s : State) (n : Nat) : Bool :=
  s.get (OBS_STAT_CEN n) != 1 && s.get (OBS_CFG_NSLOT n) != 0 && s.frontEnd n

/-! ## Enrolment commands (R137) -/

/-- ENR_START clears the sums. -/
def State.enrBegin (s : State) (n : Nat) : State :=
  let s := s.modObs n fun o => { o with enrSq := [] }
  let s := s.each (List.range 12) fun s k => (s.set (OBS_ENR_SUM_SUM n k) 0).set (OBS_ENR_SQ_SQ n k) 0
  let s := s.each (List.range 6) fun s k => s.setWord (OBS_ENR_USE_LO n k).addr 0
  (s.setWord (OBS_ENR_STAT_DONE n).addr 0).set (OBS_STAT_ENR n) 1

/-! ## Capture commands (R149) -/

/-- The spine stream of a port's capture exists and runs (R151, R411). -/
def State.capStream (s : State) (n : Nat) : Bool :=
  let st := s.get (OBS_CAP_CFG_STREAM n)
  s.get (SPN_STR_CFG_KIND st) = 2 && s.flag (SPN_STR_STAT_RUN st)

/-- The capture's mode is CONTINUOUS or TRIGGERED. -/
def State.capOn (s : State) (n : Nat) : Bool := s.get (OBS_CAP_CFG_MODE n) = 1 || s.get (OBS_CAP_CFG_MODE n) = 2

/-- CAP_START: SEQ 0; CONTINUOUS streams, TRIGGERED is armed. -/
def State.capBegin (s : State) (n : Nat) : State :=
  ((s.modObs n ObsPort.capClear).set (OBS_CAP_SEQ_SEQ n) 0).set (OBS_CAP_STAT_STATE n)
    (if s.get (OBS_CAP_CFG_MODE n) = 2 then 1 else if s.capStream n then 2 else 3)

/-! ## Commands of OBS[n].CTRL (R154) -/

/-- The effect of an OBS command, when the table "OBS commands" permits it. -/
def State.obsEffect (s : State) (n cmd : Nat) (rep : Bool) : Option State :=
  match cmd with
  | 1 => if s.cenMay n then some (s.cenBegin n s.now rep) else none
  | 2 => if s.get (OBS_STAT_CEN n) = 1 then some (s.cenAbort n) else none
  | 3 => if !s.sndBusy n && s.sndPermitted n then some (s.sndQueue n) else none
  | 4 => if s.sndBusy n then some (s.sndAbort n) else none
  | 5 => if s.get (OBS_STAT_ENR n) != 1 && s.frontEnd n then some (s.enrBegin n) else none
  | 6 => if s.get (OBS_STAT_ENR n) = 1 then some (s.enrAbort n) else none
  | 7 => if s.capOn n && s.get (OBS_CAP_STAT_STATE n) = 0 then some (s.capBegin n) else none
  | 8 => if s.get (OBS_CAP_STAT_STATE n) != 0 then some (s.capStopLater n) else none
  | 9 =>
    if s.get (OBS_CAP_CFG_MODE n) = 2 && s.get (OBS_CAP_STAT_STATE n) != 0 then some (s.capTrigger n 5) else none
  | _ => none

/-- An ignored command sets CMDERR and changes nothing else. -/
def State.obsCommand (s : State) (n cmd : Nat) (rep : Bool) : State :=
  (s.obsEffect n cmd rep).getD (s.put (OBS_STAT_CMDERR n) true)

/-- A write of OBS[n].CTRL. -/
def State.obsWrite (s : State) (q : Requester) (n cmd : Nat) (rep : Bool) : State :=
  s.hostWrite q (OBS_CTRL_CMD n).addr (s.ready 18 && s.ready (lineBit n)) fun s => s.obsCommand n cmd rep

/-- CEN_START. -/
def execCenStart (q : Requester) (n : PortNo) (rep : Bool) (s : State) : Out := .next (s.obsWrite q n 1 rep)

/-- CEN_STOP. -/
def execCenStop (q : Requester) (n : PortNo) (s : State) : Out := .next (s.obsWrite q n 2 false)

/-- SND_START. -/
def execSndStart (q : Requester) (n : PortNo) (s : State) : Out := .next (s.obsWrite q n 3 false)

/-- SND_ABORT. -/
def execSndAbort (q : Requester) (n : PortNo) (s : State) : Out := .next (s.obsWrite q n 4 false)

/-- ENR_START. -/
def execEnrStart (q : Requester) (n : PortNo) (s : State) : Out := .next (s.obsWrite q n 5 false)

/-- ENR_ABORT. -/
def execEnrAbort (q : Requester) (n : PortNo) (s : State) : Out := .next (s.obsWrite q n 6 false)

/-- CAP_START. -/
def execCapStart (q : Requester) (n : PortNo) (s : State) : Out := .next (s.obsWrite q n 7 false)

/-- CAP_STOP. -/
def execCapStop (q : Requester) (n : PortNo) (s : State) : Out := .next (s.obsWrite q n 8 false)

/-- CAP_TRIG. -/
def execCapTrig (q : Requester) (n : PortNo) (s : State) : Out := .next (s.obsWrite q n 9 false)

/-- OBS_CMD_IGNORED: an unknown code, or a command that the present condition does not permit. -/
def execObsCmdIgnored (q : Requester) (n : PortNo) (s : State) : Out :=
  .next (s.hostWrite q (OBS_CTRL_CMD n).addr (s.ready 18 && s.ready (lineBit n)) fun s =>
    s.put (OBS_STAT_CMDERR n) true)

/-! ## Soundings (R139 to R143) -/

/-- The trace window of a unit becomes empty when its next sounding starts (R155). -/
def State.clearTrace (s : State) (u : Nat) : State :=
  { s with regs := s.regs.filter fun r => !((OBS_TRACE_ACC u 0).addr ≤ r.1 && r.1 < (OBS_TRACE_ACC u 0).addr + 0x2000) }

/-- REPS, GAIN and THRESH as they act. -/
def State.sndCfg (s : State) (n : Nat) : Nat × Nat × Nat :=
  (max 4 (min 12 (s.get (OBS_SND_CFG_REPS n))), min 24 (s.get (OBS_SND_CFG_GAIN n)), max 1 (s.get (OBS_SND_CFG_THRESH n)))

/-- The trace of a unit. -/
def Sounding.trace (u : Sounding) (i : Nat) : Trace := smapFind (fun _ => {}) u.traces i

/-- Set the trace of a unit. -/
def Sounding.setTrace (u : Sounding) (i : Nat) (t : Trace) : Sounding :=
  { u with traces := smapPut (fun _ => {}) u.traces i t }

/-- SOUNDING_UNIT_START: the lowest free unit of die `d` takes the request at the head of the queue; after the quiet time
it pulses, with SND_CFG as it is now. -/
def execSoundingUnitStart (d : Fin 2) (s : State) : Out :=
  .next <|
    let u := s.sounding d
    match u.queue, (List.range 4).find? fun i => (u.unit i).isNone with
    | (_, n) :: rest, some i =>
      let v := ({ u with queue := rest, waiting := u.waiting.filter (· != i) }).setTrace i { cfg := s.sndCfg n }
      let s := (s.setSounding d (v.setUnit i (some (n, s.ticks)))).clearTrace (4 * d + i)
      ((s.set (OBS_SND_STAT_STATE n) 2).set (OBS_SND_STAT_UNIT n) i).capTrigger n 6
    | _, _ => s

/-- SOUNDING_RECORD_DISCARD: an edge or a transmission start falls in a record of port `n`; the unit waits for quiet
again. -/
def execSoundingRecordDiscard (n : PortNo) (s : State) : Out := .next (s.discardRecord n)

/-- A record of phase `p` adds to the accumulators: sample `s` to trace point 8s + p (R141). -/
def addRecord (gain p : Nat) (acc : List (Int × Bool)) (r : List Int) : List (Int × Bool) :=
  acc.zipIdx.map fun x => if x.2 % 8 = p then acc40 x.1 ((adc (r.getD (x.2 / 8) 0)).1 * 2 ^ gain) else x.1

/-- The records of all phases, 2^REPS each (R140). -/
def Trace.whole (t : Trace) : Nat := 8 * 2 ^ t.cfg.1

/-- Add records in order: phase p is sent 2^REPS times before phase p + 1 (R140). -/
def Trace.add (t : Trace) (recs : List (List Int)) : Trace :=
  recs.foldl (fun t r => { t with
    count := t.count + 1,
    acc := addRecord t.cfg.2.1 (t.count / 2 ^ t.cfg.1) (if t.acc.isEmpty then List.replicate 2048 (0, false) else t.acc) r }) t

/-- A reflection: its peak point, the accumulator there and whether it is clipped. -/
structure Refl where
  point : Nat
  acc : Int
  clipped : Bool
  deriving DecidableEq, Repr

/-- The runs of points at or above the threshold, each with its largest point (R142). -/
def reflections (lim : Nat) : List (Nat × Int × Bool) → Option Refl → List Refl
  | [], none => []
  | [], some r => [r]
  | (j, v, c) :: ps, cur =>
    if lim ≤ v.natAbs * 16 then
      match cur with
      | some r => reflections lim ps (some (if r.acc.natAbs < v.natAbs then ⟨j, v, c⟩ else r))
      | none => reflections lim ps (some ⟨j, v, c⟩)
    else
      match cur with
      | some r => r :: reflections lim ps none
      | none => reflections lim ps none

/-- Report a reflection in OBS[n].SND_REFL[k]; `sh` is REPS + GAIN. -/
def State.setRefl (s : State) (n sh k : Nat) (r : Refl) : State :=
  let dist := if r.clipped then 0 else (r.point * 250 + 176) / 352
  let s := (s.setWord (OBS_SND_REFL_DIST n k).addr 0).set (OBS_SND_REFL_DIST n k) dist
  let s := (s.put (OBS_SND_REFL_POL n k) (r.acc < 0)).put (OBS_SND_REFL_CLIP n k) r.clipped
  let s := s.put (OBS_SND_REFL_WHERE n k) (s.get (LP_TOPO_LEN n) + 5 < dist)
  (s.set (OBS_SND_REFL_AMP n k) (min 255 (r.acc.natAbs * 16 / 2 ^ sh))).put (OBS_SND_REFL_VALID n k) true

/-- Trace point `j` with its value and whether it is clipped. -/
def Trace.point (t : Trace) (j : Nat) : Nat × Int × Bool :=
  let a := t.acc.getD j (0, false)
  (j, a.1, (reportOf 32 a a.1).2)

/-- Records are added to the trace of port `n`'s unit `i`; with the last the trace window holds the trace, and the unit
analyses it (R141, R142). -/
def State.sndAdd (s : State) (n i : Nat) (recs : List (List Int)) : State :=
  let d := dieOf n
  let u := s.sounding d
  let t := (u.trace i).add recs
  let s := s.setSounding d (({ u with waiting := u.waiting.filter (· != i) }).setTrace i t)
  if t.count = t.whole then
    let s := s.each t.acc.zipIdx fun s x => s.setInt (OBS_TRACE_ACC (4 * d + i) x.2) (reportOf 32 x.1 x.1.1).1
    s.set (OBS_SND_STAT_STATE n) 3
  else s

/-- The analysis is complete: the reflections are reported (R142). -/
def State.sndReport (s : State) (n i : Nat) : State :=
  let t := (s.sounding (dieOf n)).trace i
  let (reps, gain, th) := t.cfg
  let pts := (List.range 2048).map t.point
  let refl := reflections (th * 2 ^ (reps + gain)) (pts.drop 32) none
  let s := s.each (List.range 8) fun s k =>
    match refl[k]? with
    | some r => s.setRefl n (reps + gain) k r
    | none => s.setWord (OBS_SND_REFL_DIST n k).addr 0
  let s := (s.set (OBS_SND_STAT_NREFL n) (min 8 refl.length)).put (OBS_SND_STAT_MORE n) (8 < refl.length)
  let s := s.set (OBS_SND_STAT_CLIPPED n) (min 4095 (pts.filter (·.2.2)).length)
  ((s.sndLeave n).set (OBS_SND_STAT_STATE n) 4).obsCause n 0x04 (min 9 refl.length) (4 * dieOf n + i)

/-- SOUNDING_ANALYSIS_DONE: records are added, with the last of them the unit is ANALYSING; the command without records is
the end of the analysis. -/
def execSoundingAnalysisDone (n : PortNo) (recs : List (List Int)) (s : State) : Out :=
  .next <|
    match (s.sounding (dieOf n)).unitOf n with
    | some i =>
      let t := (s.sounding (dieOf n)).trace i
      if recs.isEmpty then (if s.get (OBS_SND_STAT_STATE n) = 3 then s.sndReport n i else s)
      else if s.get (OBS_SND_STAT_STATE n) = 2 && recs.all (·.length == 256) && decide (t.count + recs.length ≤ t.whole) then
        s.sndAdd n i recs
      else s
    | none => s

/-- SOUNDING_TIMEOUT: the records are not finished 1 s after the request left the queue (R143). -/
def execSoundingTimeout (n : PortNo) (s : State) : Out :=
  .next <|
    let u := s.sounding (dieOf n)
    match (u.unitOf n).bind u.unit with
    | some (_, t) => if s.get (OBS_SND_STAT_STATE n) = 2 && decide (t + 500000000 ≤ s.ticks) then s.sndEnd n 6 else s
    | none => s

/-! ## Census decisions (R145 to R148) -/

/-- Slot `k` is decided: it takes its status at T_k, and LATE when a later frame is known already (R145, R146). -/
def State.cenDecide (s : State) (n k : Nat) : State :=
  let s := s.set (OBS_CEN_STAT_SLOT n) ((k + 1) % 32)
  let r := s.cenBase n k
  (s.cenStatus n k r.1 r.2).cenSettle n k

/-- The census ends at T_e (R148); with REPEAT the next one starts there, with the frames that came after T_e. -/
def State.cenFinish (s : State) (n : Nat) : State :=
  let ns := s.get (OBS_CFG_NSLOT n)
  let te := s.cenEnd n
  let out := ((List.range ns).filter fun k => s.get (OBS_CEN_RES_STATUS n k) != 1).length
  let s := s.modObs n fun o => { o with cenFirst := false, cenCount := o.cenCount + 1 }
  let s := (s.set (OBS_STAT_CEN n) 2).setStamp (OBS_CEN_END_NS n).addr te
  let s := s.obsCause n 0x06 out ((s.obsPort n).cenCount % 65536)
  if (s.obsPort n).cenRepeat then
    let later := (s.obsPort n).cenLater
    (s.cenBegin n te true).each later fun s c => s.cenTake n c
  else s

/-- A frame whose start-of-frame was sampled at or before `t` is still being received (R145). -/
def State.receivingFrom (s : State) (n t : Nat) : Bool :=
  match (s.port n).search with
  | some sr => sr.sof ≤ t
  | none => false

/-- CENSUS_SLOT_DECISION: the decision time of the next slot has come, and no frame from before it is still being
received. -/
def execCensusSlotDecision (n : PortNo) (k : Fin 32) (s : State) : Out :=
  .next <|
    if s.cenRuns n && s.get (OBS_CEN_STAT_SLOT n) = k.val && decide (k.val < s.get (OBS_CFG_NSLOT n))
        && decide (s.cenTime n k ≤ s.now) && !s.receivingFrom n (s.cenTime n k) then
      let s := s.cenDecide n k
      if k.val + 1 = s.get (OBS_CFG_NSLOT n) then s.cenFinish n else s
    else s

/-! ## Specimen capture (R149 to R151) -/

/-- The mean of 2^d converter samples, rounded toward zero (R149). -/
def decimated (d : Nat) (p : Packet) (vs : List Int) : CapSample :=
  { code := BitVec.ofInt 8 ((codesOf vs).sum.tdiv (2 ^ d)), sat := (vs.filter fun v => (adc v).2).length,
    snd := p.snd, tx := p.tx }

/-- The streamed samples of converter samples: one of each whole group of 2^d (R149). -/
def samplesOf (d : Nat) (p : Packet) : List CapSample :=
  (List.range (p.volts.length / 2 ^ d)).map fun i => decimated d p ((p.volts.drop (i * 2 ^ d)).take (2 ^ d))

/-- Samples reach the capture of a port; an armed one keeps the newest 4,096 (R149). -/
def State.capFeed (s : State) (n : Nat) (p : Packet) : State :=
  let d := s.get (OBS_CAP_CFG_DEC n)
  let armed := s.get (OBS_CAP_STAT_STATE n) = 1
  s.modObs n fun o =>
    let o := { o with
      capTime := if o.capBuf.isEmpty then p.time * 4 else o.capTime, capBuf := o.capBuf ++ samplesOf d p }
    if armed then o.capDrop (o.capBuf.length - 4096) d else o

/-- The flags byte of a packet. -/
def packetFlags (xs : List CapSample) (trig gap last : Bool) (dec : Nat) : Nat :=
  (if xs.all (·.sat == 0) then 0 else 1) + (if xs.any (·.snd) then 2 else 0) + (if trig then 4 else 0)
    + (if gap then 8 else 0) + (if xs.any (·.tx) then 16 else 0) + dec % 4 * 32 + (if last then 128 else 0)

/-- A packet: header and sample bytes. -/
def State.packetBytes (s : State) (n : Nat) (xs : List CapSample) : List Byte :=
  let o := s.obsPort n
  let t := o.capTime / 4
  let trig := o.capTrigs.find? (· < xs.length)
  [1, BitVec.ofNat 8 (s.get CON_STAT_SELF), BitVec.ofNat 8 n,
   BitVec.ofNat 8 (packetFlags xs trig.isSome o.capGap o.capStop (s.get (OBS_CAP_CFG_DEC n)))]
    ++ beBytes 4 (s.get (OBS_CAP_SEQ_SEQ n)) ++ beBytes 6 (secOf t) ++ beBytes 4 (nsOf t)
    ++ beBytes 2 xs.length ++ beBytes 2 (trig.getD 0xFFFF)
    ++ BitVec.ofNat 8 (s.get (LP_CFG_MODE n)) :: List.replicate 9 0 ++ xs.map (·.code)

/-- A packet of a running capture is sent on its stream, or dropped and counted when the stream does not run or cannot
accept it (R150, R151). -/
def State.packet (s : State) (n : Nat) (xs : List CapSample) (full : Bool) : State :=
  let o := s.obsPort n
  let run := s.capStream n
  let bytes := s.packetBytes n xs
  let s' := s.add (OBS_CAP_CNT_SAT n) (xs.map (·.sat)).sum
  let s' :=
    if run && !full then
      (s'.modObs n fun o => { o with capGap := false }).streamSend (s.get (OBS_CAP_CFG_STREAM n)) (.specimen bytes)
    else
      ((s'.inc (OBS_CAP_CNT_DROP n)).modObs n fun o => { o with capGap := true }).countPerMs (4096 + n) (4 * n + 3) 0x0B
  let s' := s'.set (OBS_CAP_SEQ_SEQ n) ((s.get (OBS_CAP_SEQ_SEQ n) + 1) % 2 ^ 32)
  let left := o.capLeft - xs.length
  let s' := s'.modObs n fun o =>
    { o.capDrop xs.length (s.get (OBS_CAP_CFG_DEC n)) with capLeft := left, capStop := false }
  s'.set (OBS_CAP_STAT_STATE n)
    (if o.capStop then 0 else if s.get (OBS_CAP_CFG_MODE n) = 2 && left = 0 then 1 else if run then 2 else 3)

/-- The samples of the next packet: up to 1,024, and in TRIGGERED mode no more than the capture still streams. -/
def State.nextPacket (s : State) (n : Nat) : List CapSample :=
  let o := s.obsPort n
  o.capBuf.take (if s.get (OBS_CAP_CFG_MODE n) = 2 then min 1024 o.capLeft else 1024)

/-- A capture that runs sends its next packet, or, stopped without samples, ends. -/
def State.capRun (s : State) (n : Nat) (full : Bool) : State :=
  let xs := s.nextPacket n
  if s.get (OBS_CAP_STAT_STATE n) < 2 then s
  else if !xs.isEmpty then s.packet n xs full
  else if (s.obsPort n).capStop then (s.modObs n ObsPort.capClear).set (OBS_CAP_STAT_STATE n) 0
  else s

/-- SPECIMEN_PACKET: the front end's samples reach the capture, and a packet of 1 to 1,024 samples is full, or ends its
capture. A capture that stops sends the packet in progress without further samples of the front end (R128, R152). -/
def execSpecimenPacket (n : PortNo) (p : Packet) (s : State) : Out :=
  .next <|
    if s.get (OBS_CAP_STAT_STATE n) = 0 then s
    else if s.frontEnd n || (s.obsPort n).capStop then (s.capFeed n p).capRun n p.full
    else s

end Sys2Proof.Machine
end

