-- ==== Sys2Proof/Machine/Spine.lean ====
section
/-! DEFINITION. Spine lanes, streams, host queues, the PCIe endpoint and the USB service port's bus events (R406 to R423,
R331 to R333). -/

namespace Sys2Proof.Machine

/-! ## Streams (R411, R416, R417, R426) -/

/-- STREAM_DOWN holds while a declared stream has no lane up (R426). -/
def State.streamCond (s : State) : State :=
  if (List.range 64).any fun st => s.declared st && !s.flag (SPN_STR_STAT_RUN st) then s.startCond 1700 0x48
  else s.endCond 1700 0x48

/-- A stream moves to another lane: counted, and source 1700 (R417). -/
def State.moveStream (s : State) (st l : Nat) (alt : Bool) : State :=
  let s := (s.set (SPN_STR_STAT_ACTIVE st) l).put (SPN_STR_STAT_ON_ALT st) alt
  (s.inc (SPN_STR_STAT_MOVES st)).raise 1700 (st + l * 256)

/-- The captures of a stream that stops running enter NOLANE, and those of one that runs again stream (R151). -/
def State.streamCaptures (s : State) (st : Nat) (run : Bool) : State :=
  s.each (List.range 128) fun s n =>
    if s.get (OBS_CAP_CFG_STREAM n) = st && s.get (OBS_CAP_STAT_STATE n) = (if run then 3 else 2)
    then s.set (OBS_CAP_STAT_STATE n) (if run then 2 else 3) else s

/-- A stream starts to run on a lane, or stops. -/
def State.setRun (s : State) (st : Nat) (run : Bool) : State :=
  (s.put (SPN_STR_STAT_RUN st) run).when (s.get (SPN_STR_CFG_KIND st) = 2) fun s => s.streamCaptures st run

/-- A stream follows its lanes: it moves when its active lane is down and its other lane is up, stops when neither is up,
and starts on its primary, else on its alternate (R411, R416). -/
def State.followLanes (s : State) (st : Nat) : State :=
  if !s.declared st then s
  else
    let p := s.get (SPN_STR_CFG_LANE st)
    let pUp := s.linkUp p
    let aUp := (s.altLane st).any s.linkUp
    let a := (s.altLane st).getD p
    if s.flag (SPN_STR_STAT_RUN st) then
      if s.linkUp (s.get (SPN_STR_STAT_ACTIVE st)) then s
      else if s.flag (SPN_STR_STAT_ON_ALT st) && pUp then s.moveStream st p false
      else if !s.flag (SPN_STR_STAT_ON_ALT st) && aUp then s.moveStream st a true
      else s.setRun st false
    else if pUp then ((s.set (SPN_STR_STAT_ACTIVE st) p).put (SPN_STR_STAT_ON_ALT st) false).setRun st true
    else if aUp then ((s.set (SPN_STR_STAT_ACTIVE st) a).put (SPN_STR_STAT_ON_ALT st) true).setRun st true
    else s

/-- Every stream follows its lanes. -/
def State.streams (s : State) : State := (s.each (List.range 64) fun s st => s.followLanes st).streamCond

/-- STREAM_FAILBACK: the primary has been up for FAILBACK milliseconds without interruption; 0 acts as 500. -/
def execStreamFailback (st : Fin 64) (s : State) : Out :=
  .next <|
    let p := s.get (SPN_STR_CFG_LANE st)
    let ms := if s.get SPN_STAT_FAILBACK = 0 then 500 else s.get SPN_STAT_FAILBACK
    match (s.lane p).upSince with
    | some t =>
      if s.flag (SPN_STR_STAT_RUN st) && s.flag (SPN_STR_STAT_ON_ALT st) && s.linkUp p
          && decide (t + ticksOfMs ms ≤ s.ticks) then s.moveStream st p false
      else s
    | none => s

/-! ## Lanes (R406, R409) -/

/-- The port of a lane is calibrated (R37). -/
def State.laneReady (s : State) (l : Nat) : Bool := s.ready (19 + l / 2) && s.get (SPN_LANE_CFG_MODE l) != 0

/-- The Spine die can reach the other dies: its die link is up (R28). -/
def State.spineUp (s : State) : Bool := (s.link 2).up

/-- A frame that arrived at `t` has a timestamp: the Spine die's counter was aligned then, and the die link is up (R28). -/
def State.spineStamped (s : State) (t : Nat) : Bool :=
  s.spineUp && decide ((s.link 2).upTick + (s.now - t) / 2 ≤ s.ticks)

/-- A lane's link takes a state, and source 1696 + l is raised. -/
def State.setLaneLink (s : State) (l : Nat) (up : Bool) : State :=
  let s := (s.put (SPN_LANE_STAT_LINK l) up).put (linkLoc l) up
  s.raise (1696 + l) (if up then 1 else 0)

/-- Corrected and uncorrectable codewords are counted. -/
def State.codewords (s : State) (l corr unc : Nat) : State :=
  (s.add (SPN_LANE_FEC_CORR l) corr).add (SPN_LANE_FEC_UNCORR l) unc

/-- LANE_LINK_UP: training is complete and the FEC aligned. A NATIVE link is up once a valid frame was received within the
last 20 µs. -/
def execLaneLinkUp (l : Fin 4) (corr unc : Nat) (s : State) : Out :=
  .next <|
    if s.laneReady l then
      let s := ((s.codewords l corr unc).put (SPN_LANE_STAT_FEC_LOCK l) true).set (SPN_LANE_STAT_TRAIN l) 2
      let fresh := match (s.lane l).lastValid with
        | some t => decide (s.ticks ≤ t + 10000)
        | none => false
      if !s.linkUp l && (s.isEthLane l || fresh) then
        ((s.modLane l fun v => { v with upSince := some s.ticks, lastSent := s.ticks }).setLaneLink l true).streams
      else s
    else s

/-- A lane's link goes down: counted, the frame in transmission lost, and its streams fail over (R409, R416). `cut` says
that a frame was in transmission, `fec` that FEC alignment is lost. -/
def State.laneDown (s : State) (l : Nat) (cut fec : Bool) : State :=
  let s := if fec then s.put (SPN_LANE_STAT_FEC_LOCK l) false else s
  let s := s.set (SPN_LANE_STAT_TRAIN l) 3
  if s.linkUp l then
    let s := (s.inc (SPN_LANE_STAT_DOWNS l)).setLaneLink l false
    let s := match cut, (s.lane l).started with
      | true, some st => s.inc (SPN_STR_STAT_DROP st)
      | _, _ => s
    (s.modLane l fun v => { v with upSince := none, retryFrom := s.ticks, lastValid := none }).streams
  else s

/-- LANE_LINK_DOWN: FEC alignment lost, too many uncorrectable codewords, or 20 µs without a valid native frame. -/
def execLaneLinkDown (l : Fin 4) (cut fec : Bool) (corr unc : Nat) (s : State) : Out :=
  .next (if s.laneReady l then (s.codewords l corr unc).laneDown l cut fec else s)

/-- TRAINING_RETRY: a lane that is down restarts training every second. -/
def execTrainingRetry (l : Fin 4) (s : State) : Out :=
  .next <|
    if s.laneReady l && !s.linkUp l && decide ((s.lane l).retryFrom + 500000000 ≤ s.ticks) then
      (s.set (SPN_LANE_STAT_TRAIN l) 1).modLane l fun v => { v with retryFrom := s.ticks }
    else s

/-! ## Native frames (R408) -/

/-- A native frame: header with TX_NSO, payload and CRC-32. -/
def nativeFrame (kind stream seq t : Nat) (payload : List Byte) : List Byte :=
  let body := [BitVec.ofNat 8 (16 + kind), BitVec.ofNat 8 stream] ++ beBytes 2 payload.length ++ beBytes 4 seq
    ++ beBytes 8 t ++ payload
  body ++ beBytes 4 (crc32 body)

/-- KEEPALIVE_SEND: a NATIVE lane has sent no frame for 10 µs; without the die link its frame has no TX_NSO (R28). -/
def execKeepaliveSend (l : Fin 4) (s : State) : Out :=
  .next <|
    if s.laneReady l && s.get (SPN_LANE_CFG_MODE l) = 3 && s.get (SPN_LANE_STAT_TRAIN l) = 2
        && s.spineUp && decide ((s.lane l).lastSent + 5000 ≤ s.ticks) then
      let q := (s.lane l).keepSeq
      let s := s.emit (.laneNative l (nativeFrame 3 0 q s.now []))
      s.modLane l fun v => { v with lastSent := s.ticks, keepSeq := (q + 1) % 2 ^ 32 }
    else s

/-- The payload of a received native frame, when its VER, KIND, LEN and CRC are right. -/
def nativePayload (bs : List Byte) : Option (List Byte) :=
  let len := beField bs 2 2
  let v := beField bs 0 1
  if v / 16 = 1 && 1 ≤ v % 16 && v % 16 ≤ 3 && len ≤ 2112 && bs.length = 20 + len
      && beField bs (16 + len) 4 = crc32 (bs.take (16 + len)) then some ((bs.drop 16).take len)
  else none

/-- NATIVE_FRAME_RECEIVED: a valid frame keeps the link up; KIND 2 carries a constellation message, delivered here or
forwarded while the die link gives it a timestamp (R28, R408, R409, R475). Captures are sent only, and KEEPALIVE carries
nothing. -/
def execNativeFrameReceived (l : Fin 4) (bs : List Byte) (stamp corr : Nat) (s : State) : Out :=
  .next <|
    if s.laneReady l && s.get (SPN_LANE_CFG_MODE l) = 3 && s.get (SPN_LANE_STAT_TRAIN l) = 2 then
      let s := s.codewords l corr 0
      match nativePayload bs with
      | some p =>
        let s := s.modLane l fun v => { v with lastValid := some s.ticks }
        if s.linkUp l && s.spineStamped stamp && beField bs 0 1 % 16 = 2 then s.messageReceive (beField bs 8 8) stamp p else s
      | none => s
    else s

/-! ## Host queues (R415) -/

/-- The hall offset of a receive buffer. -/
def State.hqRx (s : State) (l i : Nat) : Nat := s.get (SPN_HQ_BASE_BASE l) * 65536 + 2048 * (i % 16)

/-- The hall offset of a transmit buffer. -/
def State.hqTx (s : State) (l i : Nat) : Nat := s.get (SPN_HQ_BASE_BASE l) * 65536 + 32768 + 2048 * (i % 16)

/-- A received frame goes into the lane's ring: discarded and counted when it is full or the frame is longer than 2,032
bytes. -/
def State.hqReceive (s : State) (l : Nat) (bs : List Byte) (unctrl : Bool) (t : Nat) : State :=
  let i := s.get (SPN_HQ_PTR_RX_TAIL l)
  if 2032 < bs.length || (i + 32 - s.get (SPN_HQ_PTR_RX_HEAD l)) % 32 = 16 then s.inc (SPN_LANE_SEC_HQDROP l)
  else
    let a := s.hqRx l i
    let s := s.hallStore (a + 16) bs 1024
    let s := s.hallStore (a + 8) (leBytes 8 (stampWord t)) 1024
    let s := s.hallStore a (leBytes 4 (bs.length + bitAt unctrl 13)) 1024
    (s.set (SPN_HQ_PTR_RX_TAIL l) ((i + 1) % 32)).raise 1702 (l + i % 16 * 256)

/-- Word 0 of the transmit buffer at TX_HEAD, when one waits. -/
def State.hqHead (s : State) (l : Nat) : Option Nat :=
  let i := s.get (SPN_HQ_PTR_TX_HEAD l)
  if i = s.get (SPN_HQ_PTR_TX_TAIL l) then none else some (s.memWord (s.hqTx l i)).toNat

/-- The buffer at TX_HEAD is done: word 0 and its timestamp, TX_HEAD advances, source 1703. -/
def State.hqDone (s : State) (l w : Nat) (stamp : Nat) : State :=
  let i := s.get (SPN_HQ_PTR_TX_HEAD l)
  let a := s.hqTx l i
  let s := (s.hallStore (a + 8) (leBytes 8 stamp) 1024).hallStore a (leBytes 4 w) 1024
  (s.set (SPN_HQ_PTR_TX_HEAD l) ((i + 1) % 32)).raise 1703 (l + i % 16 * 256)

/-- Transmit buffers at the head of the queue with a LEN below 60 or above 2,032 are not sent: ERR, timestamp 0. -/
def State.hqReject (s : State) (l : Nat) : Nat → State
  | 0 => s
  | n + 1 =>
    match s.hqHead l with
    | some w => if 60 ≤ w % 4096 && w % 4096 ≤ 2032 then s else (s.hqDone l (w ||| 2 ^ 14) 0).hqReject l n
    | none => s

/-- SPN registers are usable. -/
def State.spnReady (s : State) : Bool := s.ready 19 || s.ready 20

/-- TX_TAIL takes a value; unsendable buffers are rejected. -/
def State.hqTail (s : State) (l v : Nat) : State := (s.set (SPN_HQ_PTR_TX_TAIL l) v).hqReject l 32

/-- HQ_TX_TAIL_WRITE. -/
def execHqTxTailWrite (q : Requester) (l : Fin 4) (v : Fin 32) (s : State) : Out :=
  .next (s.hostWrite q (SPN_HQ_PTR_TX_TAIL l).addr s.spnReady fun s => s.hqTail l v)

/-- HQ_RX_HEAD_WRITE. -/
def execHqRxHeadWrite (q : Requester) (l : Fin 4) (v : Fin 32) (s : State) : Out :=
  .next (s.hostWrite q (SPN_HQ_PTR_RX_HEAD l).addr s.spnReady fun s => s.set (SPN_HQ_PTR_RX_HEAD l) v)

/-- TX_AN_WRITE: frames that start from now on use the association (R414). -/
def execTxAnWrite (q : Requester) (l an : Fin 4) (s : State) : Out :=
  .next (s.hostWrite q (SPN_LANE_CFG_TX_AN l).addr s.spnReady fun s => s.set (SPN_LANE_CFG_TX_AN l) an)

/-! ## Sending (R410, R412, R414, R475, R481) -/

/-- The first item of a stream, when the stream sends on lane `l` and the item is of class `c`: 1 constellation, 2 tunnel,
3 specimen. -/
def State.firstItem (s : State) (l c st : Nat) : Option SpineItem :=
  if s.flag (SPN_STR_STAT_RUN st) && s.get (SPN_STR_STAT_ACTIVE st) = l then
    match (s.stream st).queue with
    | [] => none
    | x :: _ =>
      match x with
      | .message _ _ _ => if c = 1 then some x else none
      | .tunnel _ _ => if c = 2 then some x else none
      | .specimen _ => if c = 3 then some x else none
  else none

/-- The stream that sends next on a lane, by precedence, the lowest number first. -/
def State.nextStream (s : State) (l : Nat) : Option (Nat × SpineItem) :=
  [1, 2, 3].findSome? fun c => (List.range 64).findSome? fun st => (s.firstItem l c st).map fun x => (st, x)

/-- The association and packet number that protect the next frame of a lane. -/
def State.protection (s : State) (l : Nat) (controlled : Bool) : Option (Nat × Nat) × State :=
  if s.flag (SPN_LANE_CFG_MACSEC l) && controlled then
    let an := s.get (SPN_LANE_CFG_TX_AN l)
    let pn := smapFind (fun _ => 0) (s.lane l).txPn an + 1
    (some (an, pn), s.modLane l fun v => { v with txPn := smapInsert v.txPn an pn })
  else (none, s)

/-- CORR of a forwarded message grows by its residence time. -/
def addCorr (bs : List Byte) (d : Nat) : List Byte :=
  bs.take 4 ++ beBytes 4 ((beField bs 4 4 + d) % 2 ^ 32) ++ bs.drop 8

/-- A sent message of a REMOTE leg leaves the leg's queue. -/
def State.remoteSent (s : State) (leg : Option Nat) : State :=
  match leg with
  | none => s
  | some l =>
    match s.gw.copies.find? fun c => c.leg == l && c.isRemote && c.state == .staged with
    | some c => ((s.dropCopy c).legFree l).inc (GW_LEG_STAT_REL l)
    | none => s

/-- A native frame of a stream. -/
def State.sendNative (s : State) (l st kind : Nat) (bs : List Byte) : State :=
  let q := (s.stream st).seq
  (s.emit (.laneNative l (nativeFrame kind st q s.now bs))).modStream st fun v => { v with seq := (q + 1) % 2 ^ 32 }

/-- A lane sends the first item of a stream. -/
def State.sendItem (s : State) (l st : Nat) (x : SpineItem) : State :=
  let s := s.modStream st fun v => { v with queue := v.queue.drop 1 }
  let s := s.modLane l fun v => { v with lastSent := s.ticks, started := some st }
  let da := s.get (SPN_STR_DA_ADDR st)
  let sa := s.get (SPN_LANE_SA_ADDR l)
  let vid := s.get (SPN_STR_CFG_VID st)
  match x with
  | .message leg rx bs =>
    let bs := match rx with
      | some t => addCorr bs (s.now - t)
      | none => bs
    (s.sendNative l st 2 bs).remoteSent leg
  | .tunnel pcp a =>
    let (sec, s) := s.protection l true
    (s.emit (.laneTunnel l da sa vid pcp a sec)).inc (GW_TUN_CNT_TX st)
  | .specimen bs =>
    if s.isEthLane l then
      let (sec, s) := s.protection l true
      s.emit (.laneCapture l da sa vid (s.get (SPN_STR_CFG_PCP st)) bs sec)
    else s.sendNative l st 1 bs

/-- A lane sends the buffer at TX_HEAD: on the uncontrolled port with UNCTRL and EtherType 0x888E or 0x88F7, with one-step
insertion into an unprotected Sync (R333, R415). -/
def State.sendHost (s : State) (l w : Nat) : State :=
  let bs := s.bytes (s.hqTx l (s.get (SPN_HQ_PTR_TX_HEAD l)) + 16) (w % 4096)
  let et := if beField bs 12 2 = 0x8100 then beField bs 16 2 else beField bs 12 2
  let unctrl := w.testBit 13 && (et = 0x888E || et = 0x88F7)
  let (sec, s) := s.protection l (!unctrl)
  let bs := if sec.isNone then s.oneStep (128 + l) bs s.now else bs
  let s := (s.emit (.laneEth l bs sec)).modLane l fun v => { v with lastSent := s.ticks, started := none }
  (s.hqDone l w (stampWord s.now)).hqReject l 32

/-- LANE_FRAME_SEND: a lane that is up sends its next frame, while the die link to the package is up (R28). -/
def execLaneFrameSend (l : Fin 4) (s : State) : Out :=
  .next <|
    if s.laneReady l && s.linkUp l && s.spineUp then
      match (if s.isEthLane l then s.hqHead l else none), s.nextStream l with
      | some w, _ => s.sendHost l w
      | none, some (st, x) => s.sendItem l st x
      | none, none => s
    else s

/-! ## Receiving (R407, R413, R414) -/

/-- The validation of a received frame: accepted, with the flag that it came from the uncontrolled port, or discarded and
counted. -/
def State.macsec (s : State) (l et : Nat) (m : Macsec) : Option Bool × State :=
  if !s.flag (SPN_LANE_CFG_MACSEC l) then (some false, s)
  else
    match m with
    | .plain =>
      if et = 0x888E || et = 0x88F7 then (some true, s)
      else (none, (s.inc (SPN_LANE_SEC_DROP l)).raiseOncePerMs 1701 1701 l)
    | .secured sc an pn ok =>
      if !ok || 4 ≤ sc then (none, (s.inc (SPN_LANE_SEC_DROP l)).raiseOncePerMs 1701 1701 l)
      else
        let key := 4 * sc + an % 4
        let next := smapFind (fun _ => 1) (s.lane l).rxPn key
        if pn + smapFind (fun _ => 0) s.spine.replayWin l < next then
          (none, (s.inc (SPN_LANE_SEC_REPLAY l)).raiseOncePerMs 1701 1701 l)
        else (some false, s.modLane l fun v => { v with rxPn := smapInsert v.rxPn key (max next (pn + 1)) })

/-- The lane takes a destination address: its own, or a group address. -/
def State.takesAddress (s : State) (l da : Nat) : Bool := da.testBit 40 || da = s.get (SPN_LANE_SA_ADDR l)

/-- The declared tunnel stream with a stream_id. -/
def State.tunnelOf (s : State) (a : Avtpdu) : Option Nat :=
  (List.range 64).find? fun st => s.get (SPN_STR_CFG_KIND st) = 1 && s.get (GW_TUN_SID_SID st) = a.sid

/-- The tunnel stream that counts an AVTPDU with the stream_id of none: the lowest that receives on the lane (R263). -/
def State.skipStream (s : State) (l : Nat) : Option Nat :=
  (List.range 64).find? fun st => s.get (SPN_STR_CFG_KIND st) = 1 && s.flag (GW_TUN_CFG_IN st)
    && s.flag (SPN_STR_STAT_RUN st) && s.get (SPN_STR_STAT_ACTIVE st) = l

/-- A validated frame goes to its tunnel stream, to the host queue, or nowhere (R413). Pause frames are discarded. -/
def State.routeEth (s : State) (l et : Nat) (r : EthRx) (unctrl : Bool) : State :=
  if et = 0x22F0 then
    match r.avtp with
    | some a =>
      match s.tunnelOf a with
      | some st => s.avtpdu st r.stamp a
      | none =>
        match s.skipStream l with
        | some st => s.inc (GW_TUN_DUP_SKIP st)
        | none => s
    | none => s
  else if et = 0x88F7 || et = 0x888E then s.hqReceive l r.bytes unctrl r.stamp
  else if s.flag (SPN_LANE_CFG_HOSTALL l) && et != 0x8808 then s.hqReceive l r.bytes unctrl r.stamp
  else s

/-- LANE_FRAME_RECEIVED: a frame without a timestamp is lost (R28). -/
def execLaneFrameReceived (l : Fin 4) (r : EthRx) (s : State) : Out :=
  .next <|
    if s.laneReady l && s.linkUp l && s.isEthLane l && s.spineStamped r.stamp then
      let s := s.codewords l r.corr 0
      let n := r.bytes.length + 4
      if n < 64 || 9216 < n || !s.takesAddress l (beField r.bytes 0 6) then s
      else
        let et := if beField r.bytes 12 2 = 0x8100 then beField r.bytes 16 2 else beField r.bytes 12 2
        match s.macsec l et r.sec with
        | (some unctrl, s) => s.routeEth l et r unctrl
        | (none, s) => s
    else s

/-! ## PCIe endpoint (R418 to R420, R423, R426) -/

/-- Change the hidden half of the interfaces. -/
def State.modSpine (s : State) (f : Spine → Spine) : State := { s with spine := f s.spine }

/-- Configuration space and the MSI-X table return to their reset values: no link, MSI-X disabled, every vector masked. -/
def State.endpointReset (s : State) : State :=
  let s := s.setWord PCIE_STAT_SPEED.addr 0
  s.each (List.range 64) fun s k => s.put (MSIX_MASK k) true

/-- PCIE_RESET: hot reset 1, link down 2, PERST_N 3 or FLR 4 resets the endpoint only. -/
def execPcieReset (cause : Fin 5) (s : State) : Out :=
  .next <|
    if cause.val = 0 then s
    else
      let s := (s.endpointReset.inc PCIE_CNT_HOTRST).when (cause.val = 2) fun s => s.inc PCIE_CNT_LINKDOWN
      let s := s.modSpine fun v =>
        { v with pcieCause := some cause.val, pcieL2 := false, perst := v.perst || cause.val = 3 }
      (s.setReady 6 false).report 1704 0x49

/-- PCIE_LINK_UP: the endpoint is ready; source 1705, and 1704 with the cause of a reset before it. -/
def execPcieLinkUp (speed width : Fin 8) (s : State) : Out :=
  .next <|
    if s.asleep then s
    else
      let c := s.spine.pcieCause
      let s := s.modSpine fun v => { v with pcieCause := none, pcieL2 := false, perst := false }
      let s := ((s.set PCIE_STAT_SPEED speed).set PCIE_STAT_WIDTH width).put PCIE_STAT_LINK true
      let s := (s.setReady 6 true).raise 1705 (speed + width * 256)
      match c with
      | some c => s.raise 1704 c
      | none => s

/-- Vectors that are enabled and unmasked from now on are sent when they are held. -/
def State.msixOpen (s : State) (k : Nat) : State := ((s.put PCIE_STAT_MSIX_EN true).put (MSIX_MASK k) false).sendHeld

/-- MSIX_UNMASK: the host enables MSI-X and unmasks a vector. -/
def execMsixUnmask (k : Fin 64) (s : State) : Out := .next (if s.ready 6 then s.msixOpen k else s)

/-- PCIE_L2_ENTRY: the link enters L2/L3 Ready, and the BARs decode no more (R423). -/
def execPcieL2Entry (s : State) : Out :=
  .next <|
    if s.ready 6 then ((s.modSpine fun v => { v with pcieL2 := true }).put PCIE_STAT_LINK false).setReady 6 false else s

/-! ## USB bus events (R421 to R423) -/

/-- An unlock is withdrawn (R424). -/
def State.withdrawUnlock (s : State) : State :=
  if s.flag SVC_DBG_UNLOCKED then (s.put SVC_DBG_UNLOCKED false).raise 1708 2 else s

/-- USB_BUS_RESET: Default state at address 0, the unlock withdrawn, source 1706; `hs` is the speed that the host offers. -/
def execUsbBusReset (hs : Bool) (s : State) : Out :=
  .next <|
    if s.spine.vbus then
      let s := (((s.set SVC_STAT_STATE 1).set SVC_STAT_ADDR 0).put SVC_STAT_SUSPEND false).put SVC_STAT_HS hs
      ((s.modSpine fun v => { v with remoteWake := false }).withdrawUnlock).raise 1706 0
    else s

/-- USB_SUSPEND: suspend, with remote wakeup as the USB host has set it, or resume. -/
def execUsbSuspend (on wake : Bool) (s : State) : Out :=
  .next <|
    if s.spine.vbus && s.flag SVC_STAT_SUSPEND != on then
      ((s.modSpine fun v => { v with remoteWake := on && wake }).put SVC_STAT_SUSPEND on).raise 1707 (if on then 1 else 2)
    else s

/-- USB_VBUS_CHANGE: the service port is attached or detached. -/
def execUsbVbusChange (on : Bool) (s : State) : Out :=
  .next <|
    if s.spine.vbus = on then s
    else
      let s := s.modSpine fun v => { v with vbus := on, remoteWake := false }
      if on then s
      else (((s.set SVC_STAT_STATE 0).set SVC_STAT_ADDR 0).put SVC_STAT_SUSPEND false).put SVC_STAT_HS false

end Sys2Proof.Machine
end

