-- ==== Sys2Proof/Machine/Vitrine.lean ====
section
/-! DEFINITION. The vitrine and the vault: key commands, life cycle, frame authentication, counters, tamper log and tamper
input (R428 to R451). -/

namespace Sys2Proof.Machine

/-! ## Key commands (R434, R435) -/

/-- A key command takes effect and is pending until KEY_COMMAND_DONE; none starts while one is pending. `f` answers the
RESULT and the new state. -/
def State.keyCommand (s : State) (q : Requester) (code : Nat) (f : State → Nat × State) : State :=
  s.hostWrite q 0x5300004 (s.ready 5) fun s =>
    if s.vault.job.isSome then s
    else
      let (r, s') := f s
      let s' := s'.modVault fun v => { v with job := some (code, r) }
      (s'.set VIT_KSTAT_STATE 1).set VIT_KSTAT_RESULT 0

/-- The material length of a slot kind: AES-128, AES-256, P-384 public key, comparison value (R432). -/
def kindLen (k : Nat) : Nat := if k = 0 then 16 else if k = 2 then 97 else 32

/-- A slot takes new material and attributes; a sealed slot is logged and checked (R432, R434). -/
def State.loadSlot (s : State) (h : Nat) (attr : Word) (k : List Byte) (checkOk : Bool) : State :=
  let s := (s.setKey h k).setWord (VIT_SLOT_STATE h).addr (putBits (attr &&& 0x1FFFFFFF) 0 2 1)
  if 224 ≤ h then
    let s := s.tlog 4 (h - 224) 0
    if checkOk then s.sealedState else s.sealedFail (h - 224)
  else s

/-- The attribute word of KATTR. -/
def State.kattr (s : State) : Word := s.word 0x5300010

/-- A masked slot takes AES keys only (R431). -/
def kindAllowed (h kind : Nat) : Bool := 224 ≤ h || kind ≤ 1

/-- ONCE refuses a rewrite while VALID (R434). -/
def State.onceHeld (s : State) (h : Nat) : Bool := s.flag (VIT_SLOT_ONCE h) && s.get (VIT_SLOT_STATE h) = 1

/-- KEY_WRITE: WRITE of clear material at KSRC into a slot (R434). -/
def execKeyWrite (q : Requester) (h : Fin 256) (checkOk : Bool) (s : State) : Out :=
  .next (s.keyCommand q 1 fun s =>
    let kind := s.get VIT_KATTR_KIND
    if 2 ≤ s.get VIT_STAT_LC then (1, s)
    else if !kindAllowed h kind then (6, s)
    else if s.onceHeld h then (2, s)
    else (0, s.loadSlot h s.kattr (s.bytes (s.get VIT_KSRC_OFFSET) (kindLen kind)) checkOk))

/-- KIND and length of a blob agree with its attribute word (R435). -/
def blobKind (kind len attrKind : Nat) : Bool :=
  (kind = 1 && attrKind ≤ 1 && len = kindLen attrKind) || (kind = 2 && attrKind = 2 && len = 97)
    || (kind = 3 && attrKind = 3 && len = 32)

/-- IMPORT: the blob at KSRC is unwrapped into the slot that it names (R435). -/
def execImport (q : Requester) (checkOk : Bool) (s : State) : Out :=
  .next (s.keyCommand q 2 fun s =>
    let a := s.get VIT_KSRC_OFFSET
    let b := fun i n => s.bytes (a + i) n
    let kind := leNat (b 0 1)
    let h := leNat (b 1 1)
    let kw := leNat (b 2 1)
    let attr : Word := BitVec.ofNat 32 (leNat (b 4 4))
    let len := leNat (b 20 4)
    let lc := s.get VIT_STAT_LC
    if !(1 ≤ lc && lc ≤ 3) then (1, s)
    else if !blobKind kind len (bitsOf attr 2 2) || !kindAllowed h (bitsOf attr 2 2) then (6, s)
    else if s.onceHeld h then (2, s)
    else if !((wordsOf a (40 + len)).all fun w => s.verdict (some 64) (w * 8) false == 0)
        || (224 ≤ h && kw < 224) || !s.useOk kw 3 .host then (4, s)
    else
      let key := s.keyOf kw
      let iv := b 8 12
      let c := b 24 len
      if gcmTag key iv (b 0 24 ++ s.deviceIdentity) c != b (24 + len) 16 then (3, s)
      else (0, s.loadSlot h attr (gcmCrypt key iv c) checkOk))

/-- DERIVE: a masked slot takes the key that R429 derives from slot ARG; PERSIST is 0 (R434). -/
def execDerive (q : Requester) (h arg : Fin 256) (s : State) : Out :=
  .next (s.keyCommand q 3 fun s =>
    let kind := s.get VIT_KATTR_KIND
    if s.get VIT_STAT_LC = 4 then (1, s)
    else if 224 ≤ h.val || 2 ≤ kind then (6, s)
    else if s.onceHeld h then (2, s)
    else if !s.useOk arg 2 .host then (4, s)
    else
      let (label, ctx) := Config.labelContext (s.get VIT_KSRC_OFFSET) s.mem
      let k := kdf (s.keyOf arg) label (s.chipId ++ [BitVec.ofNat 8 (s.get VIT_STAT_LC)] ++ ctx)
      (0, s.loadSlot h (putBits s.kattr 27 1 0) (k.take (kindLen kind)) true))

/-- A slot becomes EMPTY. -/
def State.eraseSlot (s : State) (h : Nat) : State := (s.setKey h []).setWord (VIT_SLOT_STATE h).addr 0

/-- ERASE: a slot becomes EMPTY; a sealed one only in MANUFACTURE, PROVISIONED and RETURNED (R434). -/
def execErase (q : Requester) (h : Fin 256) (s : State) : Out :=
  .next (s.keyCommand q 4 fun s =>
    let lc := s.get VIT_STAT_LC
    if lc = 4 || (224 ≤ h.val && lc = 2) then (1, s)
    else
      let s := s.eraseSlot h
      (0, if 224 ≤ h.val then ((s.tlog 4 (h - 224) 0).sealedState) else s))

/-- The transitions of R12. -/
def lcPermitted (a b : Nat) : Bool :=
  (b = a + 1 && b ≤ 4) || (b = 4 && a < 4)

/-- The condition of a transition (R437). -/
def State.lcCondition (s : State) (a b : Nat) : Bool :=
  if b = 4 then true
  else match a with
    | 0 => s.vault.cr.isSome
    | 1 => (List.range 32).any fun i =>
        s.get (VIT_SLOT_STATE (sealed i)) = 1 && (s.get (VIT_SLOT_USE (sealed i))).testBit 5
    | 2 => s.flag SVC_DBG_UNLOCKED
    | _ => false

/-- LC: the fuses of the new state are programmed; it governs from the next package reset (R437). -/
def execLc (q : Requester) (arg : Byte) (s : State) : Out :=
  .next (s.keyCommand q 5 fun s =>
    let a := s.get VIT_STAT_LC
    let b := arg.toNat
    if !lcPermitted a b then (1, s)
    else if !s.lcCondition a b then (5, s)
    else
      let s := s.modVault fun v => { v with lcNext := some (max b (v.lcNext.getD 0)) }
      (0, ((s.put VIT_STAT_LC_PEND true).raise 1767 b).tlog 3 b 0))

/-- ROOT: the customer root is programmed once from KSRC (R434). -/
def execRoot (q : Requester) (s : State) : Out :=
  .next (s.keyCommand q 6 fun s =>
    if 2 ≤ s.get VIT_STAT_LC then (1, s)
    else if s.vault.cr.isSome then (2, s)
    else
      let k := s.bytes (s.get VIT_KSRC_OFFSET) 32
      let s := s.modVault fun v => { v with cr := some k }
      (0, (s.put VIT_STAT_CR true).tlog 11 0 0))

/-- KEY_COMMAND_DONE: KSTAT takes the result, and source 1760 is raised (R434, R449). -/
def execKeyCommandDone (s : State) : Out :=
  .next <|
    match s.vault.job with
    | none => s
    | some (code, r) =>
      let s := s.modVault fun v => { v with job := none }
      ((s.set VIT_KSTAT_STATE (if r = 0 then 2 else 3)).set VIT_KSTAT_RESULT r).raise 1760 (code + r * 256)

/-! ## Frame authentication (R438 to R442) -/

/-- The MAC length of a binding. -/
def State.macLen (s : State) (b : Nat) : Nat :=
  let m := max 3 (s.get (VIT_BIND0_MACLEN_M1 b)) + 1
  match s.get (VIT_BIND0_ALG b) with
  | 1 => if m < 8 then 8 else if 9 ≤ m && m ≤ 11 then 12 else m
  | 2 => if m < 8 then 8 else if 9 ≤ m && m ≤ 11 then 12 else m
  | _ => m

/-- The freshness length of a binding. -/
def State.fvLen (s : State) (b : Nat) : Nat := min 8 (s.get (VIT_BIND0_FVLEN b))

/-- The identifier word of a binding, most significant byte first (R122, R439). -/
def State.idWord (s : State) (b : Nat) : List Byte :=
  beBytes 4 (s.get (VIT_BIND1_ID b) + if s.flag (VIT_BIND1_IDE b) then 2 ^ 31 else 0)

/-- The data as it travels, and the MAC, of a binding's plain data with a freshness value (R439). -/
def State.protect (s : State) (b : Nat) (data : List Byte) (fv : Nat) : List Byte × List Byte :=
  let key := s.keyOf (s.get (VIT_BIND0_SLOT b))
  let idw := s.idWord b
  let n := s.macLen b
  let iv := idw ++ beBytes 8 fv
  match s.get (VIT_BIND0_ALG b) with
  | 1 => (data, (gcmTag key iv (idw ++ data) []).take n)
  | 2 =>
    let c := gcmCrypt key iv data
    (c, (gcmTag key iv idw c).take n)
  | _ => (data, (cmac key (idw ++ data ++ beBytes 8 fv)).take n)

/-- The requester may read and write the bytes of its buffer (R442). -/
def State.bufferOk (s : State) (q : Requester) (a n : Nat) : Bool :=
  a + n ≤ 0x4000000 && (List.range n).all fun i =>
    s.verdict (s.ownerCode q) (a + i) true == 0
      && (match q with
          | .host => true
          | .engine e => s.engineMay e (a + i) 3 || (s.engineMay e (a + i) 1 && s.engineMay e (a + i) 2))

/-- A request completes with a result, an output length and a freshness value. -/
def State.auDone (s : State) (bank r outlen fv : Nat) : State :=
  (((s.set (VIT_AU_STAT_STATE bank) 2).set (VIT_AU_STAT_RES bank) r).set (VIT_AU_STAT_OUTLEN bank) outlen).set
    (VIT_AU_FV_FV bank) fv

/-- The first check that refuses a request, before its length and buffer (R438, R442). -/
def State.auRefuse (s : State) (q : Requester) (bank b dir : Nat) : Option Nat :=
  if s.get (VIT_AU_STAT_STATE bank) = 1 then some 8
  else if !s.flag (VIT_BIND0_VALID b) || s.get (VIT_BIND0_OWNER b) != bank || s.get (VIT_BIND0_DIR b) != dir then some 3
  else if !s.useOk (s.get (VIT_BIND0_SLOT b)) 6 (s.worldOf q) then some 4
  else none

/-- MASTER of a fault record for a requester. -/
def faultMaster (q : Requester) : Nat :=
  match q with
  | .host => 1024
  | .engine e => e.val

/-- SIGN: the counter advances to FV, which is spent whatever follows, and the protected payload is written (R440). -/
def State.auSign (s : State) (q : Requester) (bank b len : Nat) (m : MramSeen) : State :=
  let a := s.get (VIT_AU_BUF_OFFSET bank)
  let total := len + s.fvLen b + s.macLen b
  match s.auRefuse q bank b 0 with
  | some r => s.auDone bank r 0 0
  | none =>
    if !s.bufferOk q a total then s.auDone bank 5 0 0
    else if 2048 < total then s.auDone bank 6 0 0
    else
      let fv := (s.counter (64 + b)).value + 1
      if 2 ^ 64 ≤ fv then s.auDone bank 7 0 0
      else
        let (ok, s) := s.advance (64 + b) fv m
        if !ok then s.auDone bank 7 0 0
        else
          let (c, mac) := s.protect b (s.bytes a len) fv
          let s := s.hallStore a (c ++ (beBytes 8 fv).drop (8 - s.fvLen b) ++ mac) (faultMaster q)
          s.auDone bank 0 total fv

/-- The freshness value of a received payload: the low bytes, completed from the last accepted value (R441). -/
def rebuildFv (last n f : Nat) : Nat :=
  if 8 ≤ n then f
  else if n = 0 then last + 1
  else
    let m := 2 ^ (8 * n)
    let c := last / m * m + f
    if last < c then c else c + m

/-- A VERIFY failure raises source 1762 at most once per millisecond (R441). -/
def State.verifyFailed (s : State) (bank b r fv : Nat) : State :=
  (s.auDone bank r 0 fv).raiseOncePerMs 1762 1762 b

/-- VERIFY: the window first, the MAC second; acceptance advances the counter (R441). -/
def State.auVerify (s : State) (q : Requester) (bank b len : Nat) (m : MramSeen) : State :=
  let a := s.get (VIT_AU_BUF_OFFSET bank)
  let extra := s.fvLen b + s.macLen b
  match s.auRefuse q bank b 1 with
  | some r => s.auDone bank r 0 0
  | none =>
    if !s.bufferOk q a len then s.auDone bank 5 0 0
    else if 2048 < len || len < extra then s.auDone bank 6 0 0
    else
      let n := len - extra
      let last := (s.counter (64 + b)).value
      let fv := rebuildFv last (s.fvLen b) (beNat (s.bytes (a + n) (s.fvLen b)))
      if fv ≤ last || max 1 (s.get (VIT_BIND2_W b)) < fv - last || 2 ^ 64 ≤ fv then s.verifyFailed bank b 2 (fv % 2 ^ 64)
      else
        let body := s.bytes a n
        let mac := s.bytes (a + n + s.fvLen b) (s.macLen b)
        let enc := s.get (VIT_BIND0_ALG b) = 2
        let plain := if enc then gcmCrypt (s.keyOf (s.get (VIT_BIND0_SLOT b))) (s.idWord b ++ beBytes 8 fv) body else body
        if (s.protect b plain fv).2 != mac then s.verifyFailed bank b 1 fv
        else
          let (ok, s) := s.advance (64 + b) fv m
          if !ok then s.auDone bank 7 0 fv
          else
            let s := if enc then s.hallStore a plain (faultMaster q) else s
            s.auDone bank 0 n fv

/-- The authenticator bank of a requester. -/
def State.auBank (s : State) (q : Requester) (f : Nat → State → State) : State :=
  match s.ownerCode q with
  | some b => s.openWrite q 0x5300020 (s.ready 5) (f b)
  | none => s.hostWrite q 0x5300020 (s.ready 5) id

/-- SIGN. -/
def execSign (q : Requester) (b : Fin 1024) (len : Fin 4096) (m : MramSeen) (s : State) : Out :=
  .next (s.auBank q fun k s => s.auSign q k b len m)

/-- VERIFY. -/
def execVerify (q : Requester) (b : Fin 1024) (len : Fin 4096) (m : MramSeen) (s : State) : Out :=
  .next (s.auBank q fun k s => s.auVerify q k b len m)

/-! ## Counters, tamper log, tamper input (R443 to R447) -/

/-- A write of VAULT.MC_CMD for a customer counter by its owner; any other is ignored (R443). -/
def State.mcCommand (s : State) (q : Requester) (k v : Nat) (m : MramSeen) : State :=
  s.openWrite q VAULT_MC_CMD_CMD.addr (s.ready 1) fun s =>
    if 8 ≤ k && k ≤ 63 && s.ownerCode q == some (s.get (VAULT_MC_OWNER k)) && (s.counter k).value < v && v < 2 ^ 56
    then (s.advance k v m).2 else s

/-- INC. -/
def execInc (q : Requester) (k : Fin 64) (m : MramSeen) (s : State) : Out :=
  .next (s.mcCommand q k ((s.counter k).value + 1) m)

/-- RAISE: to MC_ARG when greater. -/
def execRaise (q : Requester) (k : Fin 64) (m : MramSeen) (s : State) : Out :=
  .next (s.mcCommand q k (s.get VAULT_MC_ARG_VALUE) m)

/-- TLOG_APPEND: a write of the high word of TLOG_APP, by the host or the station that TLOG_CFG names (R446). -/
def execTlogAppend (q : Requester) (d : BitVec 64) (s : State) : Out :=
  .next <|
    match q with
    | .host => s.openWrite q VAULT_TLOG_APP_DATA.addr (s.ready 1) fun s => s.tlog 9 0 d.toNat
    | .engine e =>
      let st := s.stationOf e
      let may := s.flag VAULT_TLOG_CFG_APP_EN && st == some (s.get VAULT_TLOG_CFG_APPEND)
      s.access q VAULT_TLOG_APP_DATA.addr may (s.ready 1) true fun s => s.answerDone.tlog 10 (st.getD 0) d.toNat

/-- Every masked slot is cleared (R447). -/
def State.zeroise (s : State) : State := s.each (List.range 224) fun s h => s.eraseSlot h

/-- The vault has its rails: in every state but A3 and Off. -/
def State.vaultRails (s : State) : Bool := s.pwr.state != .a3 && s.pwr.state != .off

/-- The tamper entries that waited for the vault's rails are written (R447). -/
def State.tamperFlush (s : State) : State :=
  let l := s.vault.tamperLog
  (s.modVault fun v => { v with tamperLog := [] }).each l fun s t => s.tlogAt 1 0 0 t

/-- TAMPER_EVENT: TAMPER_IN has been at its active level for 100 µs (R447). -/
def execTamperEvent (m : MramSeen) (s : State) : Out :=
  .next <|
    if s.flag VAULT_TAMPER_CFG_EN && !s.vault.tamperHeld then
      let t := s.vaultStamp
      let s := s.modVault fun v => { v with tamperHeld := true, tamperLog := v.tamperLog ++ [t] }
      let s := s.put VAULT_STAT_TAMPER true
      let s := if s.flag VAULT_TAMPER_CFG_ZERO then s.zeroise else s
      let s := (s.advance 3 ((s.counter 3).value + 1) m).2
      let s := (s.raise 1827 0).report 1827 0x53
      if s.vaultRails then s.tamperFlush else s
    else s

/-- TAMPER_REARM: TAMPER_IN has been inactive for 100 µs (R447). -/
def execTamperRearm (s : State) : Out :=
  .next ((s.modVault fun v => { v with tamperHeld := false }).put VAULT_STAT_TAMPER false)

end Sys2Proof.Machine
end

