-- ==== Sys2Proof/Machine/ResetOps.lean ====
section
/-! DEFINITION. What a reset keeps: power-on reset, package reset, Off and a return from A3 (R10, R311, R395, R398, R405,
R431, R436, R451, R472, R508). -/

namespace Sys2Proof.Machine

/-- The resets of the package: power-on reset (1), package reset (2), a return from A3 (3) and the entry to Off (0). -/
abbrev ResetKind : Type := Nat

/-- Entry to Off. -/
def kindOff : ResetKind := 0
/-- Power-on reset. -/
def kindPowerOn : ResetKind := 1
/-- Package reset. -/
def kindPackage : ResetKind := 2
/-- Return from A3. -/
def kindA3 : ResetKind := 3

/-- The VAULT registers and the tamper log. -/
def inVault (a : Nat) : Bool := 0x5601000 ≤ a && a < 0x56A1000

/-- In a port's window: the ECF registers, the wake settings and STATE.RETRY (R395). -/
def portKept (a : Nat) : Word :=
  let o := a % 0x1000
  if 0x200 ≤ o && o < 0x248 then 0xFFFFFFFF
  else if 0x24 ≤ o && o < 0x3C then 0xFFFFFFFF
  else if o = 4 then 0xE0
  else 0

/-- The bits of a register word that outlive a reset: fuse values; TRUST, SEC_LAST and vault time (R342); VAULT (R451);
sealed slots and persistent masked slots (R431, R432); the update journal and map (R472); WATCH but for power-on reset
(R405); in A3 also the retained port state and the whole vault (R395). -/
def keptBits (k : ResetKind) (a : Nat) (w : Word) : Word :=
  if a = TIME_STAT_SYNC.addr then 0x6
  else if a = TIME_VT_FRAC.addr || a = TIME_VT_FRAC.addr + 4 || a = TIME_SEC_LAST_NS.addr
      || a = TIME_SEC_LAST_NS.addr + 4 then 0xFFFFFFFF
  else if inVault a then
    if k = kindA3 || k = kindOff then 0xFFFFFFFF
    else if a = VAULT_TAMPER_CFG_EN.addr || a = VAULT_TLOG_CFG_APPEND.addr || a = VAULT_MC_ARG_VALUE.addr
        || a = VAULT_MC_ARG_VALUE.addr + 4 then 0
    else if ((VAULT_MC_VALUE 0).addr ≤ a && a < (VAULT_MC_VALUE 64).addr) && a % 8 = 4 then 0x80FFFFFF
    else 0xFFFFFFFF
  else if 0x5600000 ≤ a && a < 0x5600048 then (if k = kindPowerOn then 0 else 0xFFFFFFFF)
  else if a = VIT_STAT_LC.addr then 0x7FF
  else if a = SVC_DBG_LC.addr then 0x7
  else if (VIT_SLOT_STATE 0).addr ≤ a && a < (VIT_SLOT_STATE 256).addr then
    if (VIT_SLOT_STATE 224).addr ≤ a || bitsOf w 27 1 = 1 then 0xFFFFFFFF else 0
  else if a = UPD_STAT_STATE.addr then 0xFC07
  else if a = UPD_VER_IMAGO_VERSION.addr || a = UPD_VER_STAGED_VERSION.addr then 0xFFFFFFFF
  else if (UPD_MAP_BITS 0).addr ≤ a && a < (UPD_MAP_BITS 8).addr then 0xFFFFFFFF
  else if k = kindA3 && 0x1000000 ≤ a && a < 0x1080000 then portKept a
  else 0

/-- A register word after a reset. -/
def resetTo (k : ResetKind) (a : Nat) (w : Word) : Word :=
  let m := keptBits k a w
  (w &&& m) ||| (resetWord a &&& ~~~m)

/-- The register space after a reset. -/
def resetRegs (k : ResetKind) : SMap Word → SMap Word
  | [] => []
  | (a, w) :: m =>
    let v := resetTo k a w
    if v = resetWord a then resetRegs k m else (a, v) :: resetRegs k m

/-- Supply, clock and thermal conditions, unusable sealed slots and read-only counters hold through a reset and are reported
after it (R361, R401). -/
def lastingConds (l : List (Nat × Nat)) : List (Nat × Nat) :=
  l.filter fun c => (0x40 ≤ c.2 && c.2 ≤ 0x45) || c.2 = 0x50 || c.2 = 0x52

/-- The curator after a reset: it has no tables; conditions that still hold are reported, and so is a tamper event that fell
while the curator had no supply (R447). -/
def State.curAfter (s : State) (k : ResetKind) : Curator :=
  let c := lastingConds s.cur.live
  { live := c, inbox := (if k = kindPackage then [] else s.cur.inbox.filter (·.kind == 0x53)) ++
      c.map fun x => { src := x.1, kind := x.2, nso := s.now, tick := s.ticks } }

/-- A port after a return from A3: latch, retry and error confinement stay (R224, R395). -/
def portAfterA3 (p : Port) : Port :=
  { latched := p.latched, faultOff := p.faultOff, boTicks := p.boTicks, boTick := p.boTick, holdEnd := p.holdEnd }

/-- Keys that outlive a reset: sealed slots, and masked slots with PERSIST 1 (R431). -/
def State.keysAfter (s : State) : SMap (List Byte) :=
  s.vault.keys.filter fun e => 224 ≤ e.1 || s.flag (VIT_SLOT_PERSIST e.1)

/-- A life-cycle transition that was programmed governs, with its erasures (R436, R437). -/
def State.applyLc (s : State) : State :=
  match s.vault.lcNext with
  | none => s
  | some b =>
    let s := s.modVault fun v => { v with lcNext := none }
    let s := ((s.set VIT_STAT_LC b).put VIT_STAT_LC_PEND false).set SVC_DBG_LC b
    if b = 3 then s.zeroise
    else if b = 4 then
      let s := s.zeroise
      let s := s.each (List.range 32) fun s i => s.set (VIT_SLOT_STATE (sealed i)) 2
      (s.modVault fun v => { v with cr := none, keys := [] }).sealedState
    else s

/-! ## Journal copies (R51) -/

/-- Bytes brought to a length: cut, or filled with 0. -/
def padded (n : Nat) (bs : List Byte) : List Byte := (bs ++ List.replicate n 0).take n

/-- Words 0 to 30 of a journal copy (table "Journal copy layout"). -/
def JCopy.body (c : JCopy) : List Byte :=
  leBytes 4 c.seq ++ leBytes 4 (c.state % 8 + (if c.gov then 8 else 0) + if c.govValid then 16 else 0) ++ leBytes 4 c.epoch
    ++ padded 48 c.govDigest ++ padded 48 c.newDigest ++ leBytes 4 c.newVersion ++ leBytes 8 c.switchTime ++ leBytes 4 0

/-- A copy with its CRC word. -/
def JCopy.withCrc (c : JCopy) : JCopy := { c with crc := crc32 c.body }

/-- A copy is valid when its CRC matches and its STATE is one of the four. -/
def JCopy.valid (c : JCopy) : Bool := c.state ≤ 3 && c.crc == crc32 c.body

/-- SWITCH_TIME of an instant: seconds [47:0] and nanoseconds [31:16]. -/
def switchWord (t : Nat) : Nat := secOf t % 2 ^ 48 * 65536 + nsOf t / 65536

/-- Copy 0, if it is valid. -/
def Image.valid0 (i : Image) : Option JCopy := i.copy0.filter JCopy.valid
/-- Copy 1, if it is valid. -/
def Image.valid1 (i : Image) : Option JCopy := i.copy1.filter JCopy.valid

/-- The journal: the valid copy with the higher sequence number. -/
def Image.journal (i : Image) : Option JCopy :=
  match i.valid0, i.valid1 with
  | some a, some b => some (if a.seq < b.seq then b else a)
  | some a, none => some a
  | none, b => b

/-- The copy that a state change writes: the one that does not hold the current state. The flag says copy 0. -/
def Image.writesFirst (i : Image) : Bool :=
  match i.valid0, i.valid1 with
  | some a, some b => decide (a.seq < b.seq)
  | some _, none => false
  | none, _ => true

/-- A copy as the next state change writes it: its sequence number is one above the other copy's, with a CRC. -/
def Image.numbered (i : Image) (c : JCopy) : JCopy := { c with seq := (i.journal.getD {}).seq + 1 : JCopy }.withCrc

/-- Store a copy, or leave the copy invalid when its write was torn (R53). -/
def Image.putCopy (i : Image) (c : Option JCopy) : Image :=
  if i.writesFirst then { i with copy0 := c } else { i with copy1 := c }

/-- The write in progress ends, complete or torn. -/
def Image.endWrite (i : Image) (torn : Bool) : Image :=
  match i.writing with
  | some c => { i.putCopy (if torn then none else some c) with writing := none }
  | none => i

/-- A reset of the package. Halls are cleared and belong to the host (R302, R311); flash, MRAM, fuses, the vault and what
the outside world did stay; an MRAM write in progress completes (R508). -/
def State.resetPackage (s : State) (k : ResetKind) : State :=
  let img := s.img.endWrite false
  let img := { img with shadow := [], gov := [], old := [], sigs := [], bases := [], stopped := [], switchTick := 0, restored := false }
  let upd := { chunks := s.upd.chunks, copy0 := s.upd.copy0, copy1 := s.upd.copy1 : Update }
  let vault := { s.vault with keys := s.keysAfter, job := none }
  let time := { ticks := s.time.ticks, vaultAcc := s.time.vaultAcc : TimeUnit }
  let ports := if k = kindA3 then s.ports.map fun e => (e.1, portAfterA3 e.2) else []
  let led := if k = kindPackage || k = kindA3 then { wakes := s.led.wakes : Ledger } else {}
  let spine := { perst := s.spine.perst, vbus := s.spine.vbus : Spine }
  let s' : State :=
    { regs := resetRegs k s.regs, pending := s.pending, led, cur := s.curAfter k, time,
      pwr := { s.pwr with readyWas := 0, rgnWas := 0, foundUe := [], trigger := none, wakeTick := none }, ports, spine,
      img, upd, vault, out := s.out }
  if k = kindPowerOn || k = kindPackage then s'.applyLc else s'

/-- SVC.DFU_NEXT on entry to Ramorny: 16 times the lowest chunk whose map bit is 0 (R468). -/
def State.dfuStart (s : State) : State :=
  s.set SVC_DFU_NEXT_BLOCK
    (16 * (((List.range 256).find? fun k => !(s.get (UPD_MAP_BITS (k / 32))).testBit (k % 32)).getD 256))

/-- RCVR_N low as a reset ends hands the service port to Ramorny (R467, R509). -/
def State.ramorny (s : State) (cause : Nat) : State :=
  if s.flag SVC_STAT_RAMORNY then s
  else (((s.put SVC_STAT_RAMORNY true).put UPD_STAT_RAMORNY true).dfuStart).raise 1866 cause

/-- The device checks every sealed slot that is not empty before CHIP.READY.VIT sets; `bad` are those that fail (R432). -/
def State.checkSealed (s : State) (bad : List (Fin 32)) : State :=
  s.each bad fun s i => if s.get (VIT_SLOT_STATE (sealed i)) = 1 then s.sealedFail i else s

end Sys2Proof.Machine
end

