-- ==== Sys2Proof/Machine/Time.lean ====
section
/-! DEFINITION. Time commands: INC, steps, synchronisation, nonce and token, vault time (R322 to R340). -/

namespace Sys2Proof.Machine

/-- A write of TIME.INC, OFFS or CTRL: the host, and the time station (R339). -/
def State.timeWrite (s : State) (q : Requester) (off : Nat) (f : State → State) : State :=
  let may := match q with
    | .host => true
    | .engine e => s.flag TIME_CFG_TSTN_EN && s.stationOf e == some (s.get TIME_CFG_TSTN)
  s.access q off may (s.ready 4) true fun s => f s.answerDone

/-! ## INC (R323) -/

/-- A write of the low word is held. -/
def State.incLow (s : State) (w : Word) : State := s.modTime fun t => { t with incHeld := some w }

/-- The limits of INC. -/
def incMin : Nat := 0x1FF7CED92
/-- 2 ns + 1,000 ppm. -/
def incMax : Nat := 0x20083126E

/-- A write of the high word forms, clamps and applies INC, and clears the hold. -/
def State.incHigh (s : State) (w : Word) : State :=
  let low := match s.time.incHeld with
    | some v => v.toNat
    | none => s.get TIME_INC_INC % 2 ^ 32
  let v := w.toNat % 4 * 2 ^ 32 + low
  let c := max incMin (min incMax v)
  let s := (s.modTime fun t => { t with incHeld := none }).set TIME_INC_INC c
  if c = v then s else (s.put TIME_STAT_CLAMP true).raise 1673 0

/-- INC_LOW_WRITE. -/
def execIncLowWrite (q : Requester) (w : Word) (s : State) : Out :=
  .next (s.timeWrite q TIME_INC_INC.addr fun s => s.incLow w)

/-- INC_HIGH_WRITE. -/
def execIncHighWrite (q : Requester) (w : Word) (s : State) : Out :=
  .next (s.timeWrite q (TIME_INC_INC.addr + 4) fun s => s.incHigh w)

/-! ## Steps (R326 to R328) -/

/-- A command is ignored: CMDERR. -/
def State.timeErr (s : State) : State := s.put TIME_STAT_CMDERR true

/-- A refused step (R326, R327). -/
def State.stepRefuse (s : State) (detail : Nat) : State :=
  ((s.put TIME_STAT_JREF true).set TIME_JREF_NS (s.get TIME_OFFS_NS)).raise 1665 detail

/-- The jump-refusal threshold; 0 acts as 1,000. -/
def State.jth (s : State) : Nat := if s.get TIME_JTH_NS = 0 then 1000 else s.get TIME_JTH_NS

/-- STEP: refused when it would leave the range of local time; applied up to JTH; above, only forced, FREE and not
TRUSTED. -/
def State.stepCmd (s : State) (force : Bool) : State :=
  let o := s.getInt TIME_OFFS_NS
  let t := (s.now : Int) + o
  if t < 0 || 2 ^ 48 * 1000000000 ≤ t then s.stepRefuse 3
  else if o.natAbs ≤ s.jth then s.modTime fun u => { u with stepReq := some (o, false) }
  else if !force then s.stepRefuse 1
  else if s.get TIME_STAT_SYNC = 0 && s.get TIME_STAT_TRUST != 1 then s.modTime fun u => { u with stepReq := some (o, true) }
  else s.stepRefuse 2

/-- A command of TIME.CTRL: ignored with CMDERR while an earlier STEP awaits its tick (R339). -/
def State.timeCmd (s : State) (q : Requester) (f : State → State) : State :=
  s.timeWrite q TIME_CTRL_CMD.addr fun s => if s.time.stepReq.isSome then s.timeErr else f s

/-- STEP. -/
def execStep (q : Requester) (s : State) : Out := .next (s.timeCmd q fun s => s.stepCmd false)

/-- STEP with FORCE 1. -/
def execStepForced (q : Requester) (s : State) : Out := .next (s.timeCmd q fun s => s.stepCmd true)

/-- An instant moved by an offset. -/
def moveBy (t : Nat) (o : Int) : Nat := ((t : Int) + o).toNat

/-- Slots that queue or attempt a request. -/
def State.queuedSlots (s : State) : List Nat :=
  let cells := s.regs.filter fun c => decide (0x02400000 ≤ c.1) && decide (c.1 < 0x02600000) && c.1 % 32 == 0
  (cells.map fun c => (c.1 - 0x02400000) / 32).filter fun k =>
    2 ≤ s.get (MOP_DESC_STATE k) && s.get (MOP_DESC_STATE k) ≤ 4

/-- Queued transmit deadlines keep their distance (R328). -/
def State.moveDeadlines (s : State) (o : Int) : State :=
  s.each s.queuedSlots fun s k =>
    if s.flag (MOP_DESC_DL_EN k) then
      let d := s.get (MOP_DESC_W k 7) * 1000000000 + s.get (MOP_DESC_W k 6)
      s.setStamp (MOP_DESC_W k 6).addr (moveBy d o)
    else s

/-- The effects of a forced step (table "Effects of a forced step"). -/
def State.forcedStep (s : State) (o : Int) (old : Nat) : State :=
  let s := (s.forcedCopies old).moveDeadlines o
  let s := s.each (List.range 4096) fun s m =>
    if s.flag (MOP_MON_CFG_EN m) then s.setMonNext m (moveBy (s.monNext m) o) else s
  let s := s.each (List.range 1024) fun s e => s.setInt (ENG_TCMP_NS e) ((s.get (ENG_TCMP_NS e) : Int) + o)
  let s := s.each (List.range 128) fun s n => if (s.port n).beaconNext.isSome then s.reschedule n else s
  let s := s.each (List.range 128) fun s n =>
    if s.get (OBS_STAT_CEN n) = 1 then (s.cenAbort n).clearTrackers n else s
  if s.get TIME_STAT_TRUST = 2 then s.setTrust 0 6 else s

/-- STEP_APPLY: an accepted step is added to local time at one tick (R326, R328). -/
def execStepApply (s : State) : Out :=
  .next <|
    match s.time.stepReq with
    | none => s
    | some (o, forced) =>
      let old := s.now
      let s := s.modTime fun t => { t with ns := moveBy old o, stepReq := none, lastStep := some t.ticks }
      let s := s.raise 1664 (if forced then 1 else 0)
      if forced then s.forcedStep o old else s

/-! ## LOCK and UNLOCK (R329) -/

/-- LOCK sets SYNC and restarts the timer. -/
def State.lockSync (s : State) : State := (s.modTime fun t => { t with lockTick := t.ticks }).setSync 1 1

/-- LOCK. -/
def execLock (q : Requester) (s : State) : Out := .next (s.timeCmd q fun s => s.lockSync)

/-- UNLOCK. -/
def execUnlock (q : Requester) (s : State) : Out := .next (s.timeCmd q fun s => s.setSync 0 2)

/-- SYNC_TMO in ticks; 0 acts as 2,000 ms. -/
def State.syncTmo (s : State) : Nat :=
  ticksOfMs (if s.get TIME_CFG_SYNC_TMO = 0 then 2000 else s.get TIME_CFG_SYNC_TMO)

/-- SYNC_TIMEOUT: the timer expires without a further LOCK. -/
def execSyncTimeout (s : State) : Out :=
  .next (if s.get TIME_STAT_SYNC = 1 && decide (s.time.lockTick + s.syncTmo ≤ s.ticks) then s.setSync 0 3 else s)

/-! ## Nonce and token (R338) -/

/-- The nonce is no longer valid. -/
def State.clearNonce (s : State) : State := (s.modTime fun t => { t with nonceTick := none }).set TIME_NONCE_N 0

/-- NONCE draws a fresh nonce. -/
def State.nonceCmd (s : State) : State :=
  let (r, s) := s.draw
  (s.modTime fun t => { t with nonceTick := some t.ticks }).set TIME_NONCE_N r.toNat

/-- NONCE. -/
def execNonce (q : Requester) (s : State) : Out := .next (s.timeCmd q fun s => s.nonceCmd)

/-- The 20 bytes of TIME.TOKEN. -/
def State.token (s : State) : List Byte := (List.range 5).flatMap fun k => beBytes 4 (s.get (TIME_TOKEN_B k))

/-- A nonce drawn less than 100 ms ago and not used yet. -/
def State.nonceValid (s : State) : Bool :=
  match s.time.nonceTick with
  | some t => s.ticks < t + ticksOfMs 100
  | none => false

/-- The result of TOKEN: 3 without a valid nonce, 5 for a slot that cannot be used, 2 for a wrong MAC, 4 above the
tolerance, else 1. -/
def State.tokenResult (s : State) : Nat :=
  let t := s.token
  let h := sealed (s.get TIME_SEC_CFG_SLOT)
  let mac := (cmac (s.keyOf h) (beBytes 8 (s.get TIME_NONCE_N) ++ t.take 12)).take 8
  let e := (s.now : Int) - (beAt t 0 6 * 1000000000 + beAt t 6 4 : Nat)
  if !s.nonceValid then 3
  else if !s.useOk h 0 .device then 5
  else if mac != t.drop 12 then 2
  else if s.within e then 1 else 4

/-- TOKEN verifies the token and invalidates the nonce, whatever the result. -/
def State.tokenCmd (s : State) : State :=
  let r := s.tokenResult
  let t := s.token
  let e := (s.now : Int) - (beAt t 0 6 * 1000000000 + beAt t 6 4 : Nat)
  let s := if r = 1 || r = 4 then s.resync e 1 else s
  (s.clearNonce.set TIME_STAT_TOKRES r).raise 1668 r

/-- TOKEN. -/
def execToken (q : Requester) (s : State) : Out := .next (s.timeCmd q fun s => s.tokenCmd)

/-- NONCE_EXPIRY: the nonce lapses after 100 ms. -/
def execNonceExpiry (s : State) : Out :=
  .next <|
    match s.time.nonceTick with
    | some t => if t + ticksOfMs 100 ≤ s.ticks then s.clearNonce else s
    | none => s

/-- TIME_CMD_IGNORED: an unknown or overlapping command sets CMDERR; CMD 0 is no command (R339). -/
def execTimeCmdIgnored (q : Requester) (cmd : Fin 8) (s : State) : Out :=
  .next (s.timeWrite q TIME_CTRL_CMD.addr fun s => if cmd.val = 0 then s else s.timeErr)

/-! ## Trust and vault time (R330, R336) -/

/-- TRUST_EXPIRY: SEC_HOLD seconds since SEC_LAST; 0 acts as 604,800. -/
def execTrustExpiry (s : State) : Out :=
  .next <|
    let hold := if s.get TIME_SEC_HOLD_S = 0 then 604800 else s.get TIME_SEC_HOLD_S
    let last := s.get TIME_SEC_LAST_SEC * 1000000000 + s.get TIME_SEC_LAST_NS
    let now := secOf s.now % 2 ^ 32 * 1000000000 + nsOf s.now
    if s.get TIME_STAT_TRUST = 1 && decide (last + hold * 1000000000 ≤ now) then s.setTrust 2 3 else s

/-- VAULT_TIME_LOAD: at a second boundary the vault time takes local time (R330). The boundary lies at the tick in which
NS carried into SEC. -/
def execVaultTimeLoad (s : State) : Out :=
  .next (if s.ready 4 && secOf s.before != secOf s.now then s.loadVault else s)

/-- LOCAL_TIME_RESTORE: the first watch edge after the timebase restarts (R330). -/
def execLocalTimeRestore (s : State) : Out := .next (if s.ready 4 || s.asleep then s else s.restoreTime)

end Sys2Proof.Machine
end

