-- ==== Sys2Proof/Machine/Power.lean ====
section
/-! DEFINITION. Power: operating points, supplies, clocks, sleep and wake, the watch, thermal events and resets (R294, R295,
R383 to R405, R508 to R510). -/

namespace Sys2Proof.Machine

/-- Change the hidden half of the supply and the watch. -/
def State.modPwr (s : State) (f : Power → Power) : State := { s with pwr := f s.pwr }

/-- Change the hidden half of a region. -/
def State.modRegion (s : State) (r : Nat) (f : Region → Region) : State := s.setRegion r (f (s.region r))

/-! ## Operating points (R294, R295, R390, R391, R402) -/

/-- THERMAL is live. -/
def State.thermal (s : State) : Bool := s.cur.live.contains (1829, 0x44)

/-- The point that a region's TARGET asks for: MAX at most, and 2 at most while THERMAL is live. -/
def State.goalOf (s : State) (r : Nat) : Nat :=
  let t := min (s.get (RGN_OPP_TARGET r)) (s.get (RGN_OPP_MAX r))
  if s.thermal then min t 2 else t

/-- A change of a region starts: rising, the regulator first; falling, the bridge clock and the PLL first (R390). -/
def State.startChange (s : State) (r : Nat) : State :=
  let a := s.get (RGN_OPP_CURRENT r)
  let b := s.goalOf r
  if a = b && !(s.region r).bridge then s
  else
    let s := s.put (RGN_OPP_BUSY r) true
    s.modRegion r fun v => { v with changing := some b, stage := if a < b then 1 else 2, pllFails := 0, pllTick := s.ticks }

/-- A change ends; a TARGET written meanwhile, or a thermal limit, starts the next. -/
def State.endChange (s : State) (r : Nat) (again : Bool) : State :=
  let s := s.put (RGN_OPP_BUSY r) false
  let s := s.modRegion r fun v => { v with changing := none, nextTarget := none, stage := 0 }
  if again then s.startChange r else s

/-- A write of RGN[r].OPP.TARGET; while a change runs, the last value written waits. -/
def State.oppWrite (s : State) (r v : Nat) : State :=
  let s := s.set (RGN_OPP_TARGET r) (min v (s.get (RGN_OPP_MAX r)))
  if s.flag (RGN_OPP_BUSY r) then s.modRegion r fun w => { w with nextTarget := some v } else s.startChange r

/-- OPP_TARGET_WRITE. -/
def execOppTargetWrite (q : Requester) (r : RgnNo) (v : Fin 8) (s : State) : Out :=
  .next (s.hostWrite q (RGN_OPP_TARGET r).addr (s.rgnReady r) fun s => s.oppWrite r v)

/-- REGULATOR_GOOD: a rising change goes on to the bridge clock and the PLL; a falling one is at its end (R386). -/
def execRegulatorGood (r : RgnNo) (s : State) : Out :=
  .next <|
    match (s.region r).stage with
    | 1 => s.modRegion r fun v => { v with stage := 2, pllTick := s.ticks }
    | 3 => s.modRegion r fun v => { v with stage := 4 }
    | _ => s

/-- PLL_LOCK_STABLE: 81.92 µs of lock; the clock moves to the PLL. Falling, CURRENT takes the point and the regulator is
lowered (R388, R390). -/
def execPllLockStable (r : RgnNo) (s : State) : Out :=
  .next <|
    let g := s.region r
    match g.stage, g.changing with
    | 2, some b =>
      if g.pllTick + 40960 ≤ s.ticks then
        if b < s.get (RGN_OPP_CURRENT r) then
          (s.set (RGN_OPP_CURRENT r) b).modRegion r fun v => { v with stage := 3, bridge := false }
        else s.modRegion r fun v => { v with stage := 4, bridge := false }
      else s
    | _, _ => s

/-- PLL_LOCK_TIMEOUT: 500 µs after retuning the PLL is retuned again; after the third failure the region stays on the bridge
clock, CURRENT reads 0, BUSY clears and PLL_LOCK is reported (R391). -/
def execPllLockTimeout (r : RgnNo) (s : State) : Out :=
  .next <|
    let g := s.region r
    if g.stage = 2 && decide (g.pllTick + ticksOfUs 500 ≤ s.ticks) then
      if g.pllFails < 2 then s.modRegion r fun v => { v with pllFails := v.pllFails + 1, pllTick := s.ticks }
      else
        let s := (s.set (RGN_OPP_CURRENT r) 0).modRegion r fun v => { v with bridge := true }
        let s := (s.raise 1828 (5 + r * 256)).report 1828 0x47
        s.endChange r g.nextTarget.isSome
    else s

/-- OPP_CHANGE_DONE: CURRENT holds the point, BUSY clears, source 1831. -/
def execOppChangeDone (r : RgnNo) (s : State) : Out :=
  .next <|
    let g := s.region r
    match g.stage, g.changing with
    | 4, some b =>
      let s := (s.set (RGN_OPP_CURRENT r) b).raise 1831 (r + b * 256)
      s.endChange r (g.nextTarget.isSome || s.goalOf r < b)
    | _, _ => s

/-! ## Thermal (R401, R402) -/

/-- A junction temperature reading. -/
def State.setTemp (s : State) (tj : Nat) : State :=
  (s.set PWR_TEMP_TJ tj).set PWR_TEMP_PEAK (max (s.get PWR_TEMP_PEAK) tj)

/-- THERMAL_ONSET: the junction is above 120 °C; regions above point 2 change to point 2. -/
def execThermalOnset (tj : Fin 1024) (s : State) : Out :=
  .next <|
    if 736 < tj.val && !s.thermal then
      let s := ((s.setTemp tj).raise 1829 1).startCond 1829 0x44
      s.each (List.range 16) fun s r =>
        if 2 < s.get (RGN_OPP_CURRENT r) && !s.flag (RGN_OPP_BUSY r) then s.startChange r else s
    else s

/-- THERMAL_END: the junction is below 115 °C; each region returns to its last TARGET. -/
def execThermalEnd (tj : Fin 1024) (s : State) : Out :=
  .next <|
    if tj.val < 716 && s.thermal then
      let s := ((s.setTemp tj).raise 1829 2).endCond 1829 0x44
      s.each (List.range 16) fun s r =>
        if s.flag (RGN_OPP_BUSY r) then s.modRegion r fun v => { v with nextTarget := some (s.get (RGN_OPP_TARGET r)) }
        else if (s.region r).bridge then s
        else s.startChange r
    else s

/-! ## Known events and the choice of a state (R393, R394) -/

/-- Indexes below `n` whose register at `base + stride i` is listed. -/
def State.listed (s : State) (base stride n : Nat) : List Nat :=
  s.regs.filterMap fun e =>
    if base ≤ e.1 && (e.1 - base) % stride = 0 && (e.1 - base) / stride < n then some ((e.1 - base) / stride) else none

/-- Engines with TEN 1. -/
def State.timedEngines (s : State) : List Nat := (List.range 1024).filter fun e => s.flag (ENG_CFG_TEN e)

/-- Armed monitors. -/
def State.armed (s : State) : List Nat :=
  (s.listed (MOP_MON_CFG_SLOT 0).addr 0x20 4096).filter fun m => s.flag (MOP_MON_CFG_EN m)

/-- A known event: nanoseconds until it, and the port that it concerns. -/
abbrev Known : Type := Nat × Option Nat

/-- TCMP compares. -/
def State.knownTcmp (s : State) : List Known :=
  s.timedEngines.map fun e => ((signedDiff32 s.now (s.get (ENG_TCMP_NS e))).toNat, none)

/-- Deadlines of armed monitors. -/
def State.knownMon (s : State) : List Known :=
  s.armed.map fun m =>
    (s.monNext m - s.now, (s.poolOf (s.get (MOP_MON_CFG_SLOT m))).map fun p => s.get (MOP_POOL_CFG1_PORT p))

/-- Release instants of copies not yet released. -/
def State.knownCopies (s : State) : List Known :=
  (s.gw.copies.filter (·.state != .released)).map fun c =>
    (c.release - s.now, if c.target < 128 then some c.target else none)

/-- Due instants of beacons, and decision times of running censuses. -/
def State.knownPorts (s : State) : List Known :=
  (List.range 128).flatMap fun n =>
    (match (s.port n).beaconNext with
     | some t => [(t - s.now, some n)]
     | none => [])
    ++ (if s.get (OBS_STAT_CEN n) = 1 then [(s.cenTime n (s.get (OBS_CEN_STAT_SLOT n)) - s.now, some n)] else [])

/-- Ends of quiet periods of curator entries with AUTO 1. -/
def State.knownQuiet (s : State) : List Known :=
  let q := ticksOfMs (if s.get CUR_CFG_QUIET = 0 then 100 else s.get CUR_CFG_QUIET)
  s.cur.quietFrom.filterMap fun e =>
    if s.flag (CUR_AFT_VALID e.1) && s.flag (CUR_KIND_AUTO (s.get (CUR_AFT_KIND e.1)))
    then some (2 * (e.2 + q - s.ticks), none) else none

/-- Vault time in units of 2^-15 s. -/
def State.vaultUnits (s : State) : Nat := s.get TIME_VT_SEC * 2 ^ 15 + s.get TIME_VT_FRAC

/-- The time of a watch timer, in units of 2^-15 s. -/
def State.timerUnits (s : State) (k : Nat) : Nat := s.get (WATCH_TMR_SEC k) * 2 ^ 15 + s.get (WATCH_TMR_FRAC k)

/-- Watch timers. -/
def State.knownTimers (s : State) : List Known :=
  ((List.range 4).filter fun k => s.flag (WATCH_TMR_EN k)).map fun k =>
    ((s.timerUnits k - s.vaultUnits) * 1000000000 / 2 ^ 15, none)

/-- The known events that count for a state: in A1 only TCMP compares (R394). -/
def State.known (s : State) (st : Nat) : List Known :=
  if st = 1 then s.knownTcmp
  else s.knownTcmp ++ s.knownMon ++ s.knownCopies ++ s.knownPorts ++ s.knownQuiet ++ s.knownTimers

/-- Time to the next known event, in ns. -/
def tNext : List Known → Option Nat
  | [] => none
  | k :: ks => some (ks.foldl (fun a b => min a b.1) k.1)

/-- P: 11 nominal bit times of the slowest port that the next known event concerns, in ns. -/
def State.portBits (s : State) (ks : List Known) : Nat :=
  match tNext ks with
  | none => 0
  | some t =>
    (ks.filterMap fun k => if k.1 = t then k.2 else none).foldl
      (fun a n => max a ((11 * (s.bitTimes n).ta * 25 + 15) / 16)) 0

/-- Wake latency, entry time and break-even time of a state, in ns (R392, R394). -/
def stateTimes (st : Nat) : Nat × Nat × Nat :=
  if st = 1 then (2000, 200, 5000)
  else if st = 2 then (180000, 50000, 2000000)
  else (4000000, 1000000, 200000000)

/-- The lead L(s) in ns; TREST 0 acts as 60,000 µs (R394, R398). -/
def State.lead (s : State) (st : Nat) : Nat :=
  let trest := if s.get WATCH_TREST_US = 0 then 60000 else s.get WATCH_TREST_US
  (stateTimes st).1 + s.portBits (s.known st) + (if st = 3 then trest * 1000 else 0)

/-- The selection rule for a state (condition 4). -/
def State.selects (s : State) (st : Nat) : Bool :=
  match tNext (s.known st) with
  | none => true
  | some t => (stateTimes st).2.1 + s.lead st ≤ t && (stateTimes st).2.2 ≤ t

/-- Every interface permits A2 and A3 (R423, condition 9). -/
def State.linksSleep (s : State) : Bool :=
  (s.spine.pcieL2 || s.spine.perst) && (s.flag SVC_STAT_SUSPEND || !s.spine.vbus)
    && (List.range 4).all fun l => s.get (SPN_LANE_CFG_MODE l) = 0 || s.flag (SPN_LANE_CFG_SLEEP_OK l)

/-- No transmission and no copy waits, and every bit engine rests (condition 3). -/
def State.portsQuiet (s : State) : Bool :=
  (s.gw.copies.all (·.state == .released)) && (List.range 128).all fun n =>
    s.get (MOP_PORTQ_NQ n) = 0 && !(s.headSlot n).isSome
      && (s.bstate n = 0 || s.bstate n = 2 || s.bstate n = 7)

/-- No image change, hall change, operating-point change or reclaim runs (condition 7). -/
def State.nothingRuns (s : State) : Bool :=
  s.get IMG_STATUS_PHASE = 0 && s.halls.handover.isNone && s.halls.revoke.isNone && s.get HALL_STAT_CLEARING = 0
    && s.cur.reclaim.isNone && (List.range 16).all fun r => !s.flag (RGN_OPP_BUSY r)

/-- Entry condition `k` of the table "Entry conditions", for a state. -/
def State.entryCond (s : State) (st k : Nat) : Bool :=
  match k with
  | 1 => decide (st ≤ s.get PWR_CTRL_ALLOW)
  | 2 => (List.range 1024).all fun e => s.estate e != 2
  | 3 => st = 1 || s.portsQuiet
  | 4 => s.selects st
  | 5 => st = 1 || (s.led.stagedCount = 0 && !s.flag LEDG_HOLD_ON)
  | 6 => st = 1 || !s.flag CUR_STAT_SAFE
  | 7 => st = 1 || s.nothingRuns
  | 8 => st != 3 || (s.timedEngines.isEmpty && s.armed.isEmpty && s.get CUR_STAT_NUNCL = 0)
  | _ => st = 1 || s.linksSleep

/-- The first entry condition that a state does not meet; 0 when it may be entered. -/
def State.blockOf (s : State) (st : Nat) : Nat :=
  ((List.range 9).find? fun k => !s.entryCond st (k + 1)).elim 0 (· + 1)

/-- PWR.STAT.BLOCK: the first condition that keeps the package out of the next deeper state. -/
def State.block (s : State) : Nat := if s.get PWR_STAT_STATE < 3 then s.blockOf (s.get PWR_STAT_STATE + 1) else 0

/-- PWR.NEXT: microseconds to the next known event, saturating, and VALID. -/
def State.nextWord (s : State) : Word :=
  match tNext (s.known 2) with
  | none => 0
  | some t => BitVec.ofNat 32 (min (t / 1000) (2 ^ 31 - 1) + 2 ^ 31)

/-! ## A1 (R393) -/

/-- ENTER_A1: the watch stops the region clocks; no deeper state is permitted. -/
def execEnterA1 (s : State) : Out :=
  .next <|
    if s.pwr.state = .a0 && !s.pwr.held && s.blockOf 1 = 0 && s.blockOf 2 != 0 && s.blockOf 3 != 0 then
      ((s.modPwr fun p => { p with state := .a1 }).set PWR_STAT_STATE 1).inc PWR_CNT_A1
    else s

/-- The package returns from A1 to A0. -/
def State.leaveA1 (s : State) : State :=
  if s.pwr.state = .a1 then (s.modPwr fun p => { p with state := .a0 }).set PWR_STAT_STATE 0 else s

/-- WAKE_FROM_A1: an engine runs after an interrupt or START, ALLOW is 0, or the lead of the next TCMP is reached. -/
def execWakeFromA1 (s : State) : Out :=
  .next <|
    let due := match tNext s.knownTcmp with
      | some t => decide (t ≤ s.lead 1)
      | none => false
    if due || s.get PWR_CTRL_ALLOW = 0 || (List.range 1024).any fun e => s.estate e = 2 then s.leaveA1 else s

/-- ALLOW takes a value; 0 ends A1. -/
def State.allowWrite (s : State) (v : Nat) : State :=
  let s := s.set PWR_CTRL_ALLOW v
  if v = 0 then s.leaveA1 else s

/-- ALLOW_WRITE. -/
def execAllowWrite (q : Requester) (v : Fin 4) (s : State) : Out :=
  .next (s.hostWrite q PWR_CTRL_ALLOW.addr true fun s => s.allowWrite v)

/-! ## A2 and A3 (R392 to R398, R423) -/

/-- The last 32.768 kHz tick at or before an instant, in timebase ticks. -/
def floorTick (t : Nat) : Nat := ((t * 128 / 1953125) * 1953125 + 127) / 128

/-- The wake that the schedule asks for: the next known event less the lead, as a tick and in WATCH.SCHED. -/
def State.schedule (s : State) (st : Nat) : State :=
  match tNext (s.known st) with
  | none => (s.modPwr fun p => { p with wakeTick := none }).setWord64 WATCH_SCHED_FRAC.addr 0
  | some t =>
    let d := t - s.lead st
    let v := s.vaultUnits + d * 2 ^ 15 / 1000000000
    let s := s.modPwr fun p => { p with wakeTick := some (floorTick (s.ticks + d / 2)) }
    ((s.set WATCH_SCHED_FRAC (v % 2 ^ 15)).set WATCH_SCHED_SEC (v / 2 ^ 15)).put WATCH_SCHED_EN true

/-- Readiness bits of functions that lose power clear; WATCH and VAULT stay (R33). -/
def State.functionsDown (s : State) : State :=
  let s := s.modPwr fun p => { p with readyWas := s.word 0x10, rgnWas := s.word 0x18 }
  let s := s.each ((List.range 22).map (· + 2)) fun s b => s.setReady b false
  let s := s.each (List.range 16) fun s r => s.put (RGN_STAT_POWER r) false
  s.setWord CHIP_RGN_READY_RGN.addr 0

/-- Entry to A2 or A3: the lanes lose their supply, readiness bits clear, the ports sleep (R77, R78, R423). -/
def State.goToSleep (s : State) (p : PowerState) (st : Nat) : State :=
  let s := s.schedule st
  let s := s.each (List.range 4) fun s l => if s.linkUp l then s.laneDown l false true else s
  let s := s.modPwr fun v => { v with state := p, enterTick := s.ticks, refreshTick := s.ticks }
  (s.functionsDown).refreshPorts

/-- ENTER_A2: every condition of A2 holds, and A3 is not permitted. -/
def execEnterA2 (s : State) : Out :=
  .next <|
    if (s.pwr.state = .a0 || s.pwr.state = .a1) && !s.pwr.held && s.blockOf 2 = 0 && s.blockOf 3 != 0 then
      ((s.goToSleep .a2 2).set PWR_STAT_STATE 2).inc PWR_CNT_A2
    else s

/-- ENTER_A3. -/
def execEnterA3 (s : State) : Out :=
  .next <|
    if (s.pwr.state = .a0 || s.pwr.state = .a1) && !s.pwr.held && s.blockOf 3 = 0 then
      (s.goToSleep .a3 3).inc WATCH_CNT_A3
    else s

/-- HALL_REFRESH: in A2, 4 s after the last pass, every hall word is read; a corrected one is written back and counted, one
with a double-bit error is poisoned and reported at the return to A0 (R396). -/
def execHallRefresh (single double : List (Fin 8388608)) (s : State) : Out :=
  .next <|
    if s.pwr.state = .a2 && decide (s.pwr.refreshTick + ticksOfMs 4000 ≤ s.ticks) then
      let s := s.each single fun s w => (s.inc (HALL_ECC_CE (hallOf (w * 8)))).setFix w false
      let new := (double.map (·.val)).filter fun w => !s.isPoison w
      let s := s.each new fun s w => s.setPoison w true
      (s.modPwr fun p => { p with refreshTick := s.ticks, foundUe := p.foundUe ++ new }).inc WATCH_CNT_SCRUB
    else s

/-- WATCH.WAKE, WATCH.SCHED and PWR.STAT.STATE at a wake; links that were in L2 or suspended are told (R423). -/
def State.wakeRegs (s : State) (from_ cause : Nat) : State :=
  let s := ((s.set WATCH_WAKE_FROM from_).set WATCH_WAKE_CAUSE cause).setWord64 WATCH_SCHED_FRAC.addr 0
  let s := (s.modPwr fun p => { p with state := .a0, wakeTick := none }).set PWR_STAT_STATE 0
  let s := if s.spine.pcieL2 && s.flag PCIE_CFG_WAKE_EN then s.emit .wakeN else s
  if s.spine.vbus && s.spine.remoteWake && s.flag SVC_STAT_SUSPEND then s.emit .remoteWakeup else s

/-- Die links that were up are up again. -/
def State.linksAgain (s : State) : State :=
  { s with links := s.links.map fun e => (e.1, { e.2 with lastTick := s.ticks }) }

/-- Return from A2: retained functions are ready, local time is loaded, SYNC may fall, the wake records come first, then
1830 and the faults of the refresh passes (R329, R357, R396). -/
def State.returnA2 (s : State) (cause : Nat) : State :=
  let long := s.pwr.enterTick + s.syncTmo < s.ticks
  let was := s.pwr.readyWas
  let rgn := s.pwr.rgnWas
  let s := (s.wakeRegs 2 cause).linksAgain
  let s := (s.each ((List.range 22).map (· + 2)) fun s b =>
    if b = 4 || b = 6 then s else s.setReady b (was.getLsbD b)).setWord CHIP_RGN_READY_RGN.addr rgn
  let s := s.each (List.range 16) fun s r => s.put (RGN_STAT_POWER r) (rgn.getLsbD r)
  let s := if was.getLsbD 4 then s.restoreTime else s
  let s := (s.set HALL_STAT_RETAINED 15).refreshPorts
  let s := s.recordWake.wakeRecords
  let s := s.when long fun s => s.setSync 0 5
  let s := s.raise 1830 2
  let ue := s.pwr.foundUe
  (s.modPwr fun p => { p with foundUe := [] }).each ue fun s w => s.countUe w 1029

/-- A3_RESTORE: the Gallery and Spine dies start as after a package reset; the readiness bits of WATCH, VAULT, CUR, LEDG,
TIME and the Line dies set, and the restore of the image follows. `bad` are the sealed slots that fail their check (R392,
R398, R432). -/
def State.returnA3 (s : State) (cause : Nat) (bad : List (Fin 32)) : State :=
  let links := s.links.filter fun e => e.1 < 2 && e.2.up
  let l2 := s.spine.pcieL2
  let wakeEn := s.flag PCIE_CFG_WAKE_EN
  let usb := s.spine.vbus && s.spine.remoteWake && s.flag SVC_STAT_SUSPEND
  let s := s.resetPackage kindA3
  let s := { s with links }.linksAgain
  let s := if l2 && wakeEn then s.emit .wakeN else s
  let s := if usb then s.emit .remoteWakeup else s
  let s := (s.wakeRegs 3 cause).modPwr fun p => { p with trigger := some s.ticks }
  let s := (s.put PWR_STAT_A3WOKE true).tamperFlush
  let s := s.each [0, 1, 2, 3, 16, 17] fun s b => if s.readyWhen b then (s.prepare b).setReady b true else s
  ((s.restoreTime.recordWake).checkSealed bad).raise 1830 3

/-- A wake from A2 or A3. -/
def State.wake (s : State) (cause : Nat) (bad : List (Fin 32)) : State :=
  match s.pwr.state with
  | .a2 => s.returnA2 cause
  | .a3 => s.returnA3 cause bad
  | _ => s

/-- WAKE_LEAD: the lead of the next known event is reached (R394). -/
def execWakeLead (bad : List (Fin 32)) (s : State) : Out :=
  .next <|
    match s.pwr.wakeTick with
    | some t => if decide (t ≤ s.ticks) && s.asleep && !s.pwr.held then (s.raise 1825 4).wake 1 bad else s
    | none => s

/-- A latched source that LEDG.WAKE enables (R357). -/
def State.wakeEnabled (s : State) (src : Nat) : Bool :=
  if src < 512 then s.flag LEDG_WAKE_PORTS
  else if src = 1825 then s.flag LEDG_WAKE_TIMER
  else if src = 1826 then s.flag LEDG_WAKE_SUPPLY
  else s.flag LEDG_WAKE_TAMPER

/-- WAKE_SOURCE: an enabled latched source wakes the package. -/
def execWakeSource (bad : List (Fin 32)) (s : State) : Out :=
  .next (if s.led.wakes.any (fun w => s.wakeEnabled w.1) && !s.pwr.held then s.wake 2 bad else s)

/-- WATCH_TIMER_DUE: a timer that vault time has reached raises source 1825 and is disarmed (R404). -/
def execWatchTimerDue (k : Fin 4) (s : State) : Out :=
  .next <|
    if s.flag (WATCH_TMR_EN k) && s.flag TIME_VT_VALID && decide (s.timerUnits k ≤ s.vaultUnits) then
      (s.put (WATCH_TMR_EN k) false).raise 1825 k
    else s

/-! ## Supplies (R383 to R385, R399 to R401) -/

/-- VBAT_OK_RISE: the vault moves to VBAT, a lapse window closes, and the rail sequence begins from Off. -/
def execVbatOkRise (s : State) : Out :=
  .next <|
    if s.pwr.vbatOk then s
    else
      let s := (s.modPwr fun p => { p with
        vbatOk := true, rails := 1, inWindow := 0, railTick := s.ticks, retryAt := none, vbkWindow := none }).put
          WATCH_STAT_VBK_SRC false
      s.set WATCH_SUPPLY_RAILFAIL 0

/-- VBAT_OK_FALL: ports and guard outputs go safe, an MRAM write in progress completes, or is torn when the board's hold-up
is too short, and the package enters Off (R53, R385). -/
def execVbatOkFall (torn : Bool) (s : State) : Out :=
  .next <|
    if !s.pwr.vbatOk then s
    else
      let s := { s with img := s.img.endWrite torn }
      let s := s.resetPackage kindOff
      let s := s.modPwr fun p => { p with
        state := .off, held := false, vbatOk := false, rails := 0, inWindow := 0, retryAt := none, railsOut := [] }
      let valid := s.flag TIME_VT_VALID
      let s := (s.modPwr fun p => { p with vtHeld := valid || p.vtHeld }).put TIME_VT_VALID false
      ((s.put WATCH_STAT_VBK_SRC true).put WATCH_STAT_XTAL false).inc WATCH_SUPPLY_BROWNOUT

/-- RAIL_IN_WINDOW: the rail enabled last has been in its window for 100 µs; the next is enabled. -/
def execRailInWindow (i : Fin 4) (s : State) : Out :=
  .next <|
    if s.pwr.state = .off && s.pwr.rails = i.val + 1 && s.pwr.inWindow = i.val
        && decide (s.pwr.railTick + ticksOfUs 100 ≤ s.ticks) then
      let s := s.put (railLoc i) true
      s.modPwr fun p => { p with inWindow := i + 1, rails := min 4 (i + 2), railTick := s.ticks }
    else s

/-- RAIL_FAILURE: a rail is not inside its window within 2 ms of its enable; every rail turns off, and after three failures
the package stays in Off. -/
def execRailFailure (i : Fin 4) (s : State) : Out :=
  .next <|
    if s.pwr.state = .off && s.pwr.rails = i.val + 1 && s.pwr.inWindow = i.val
        && decide (s.pwr.railTick + ticksOfMs 2 ≤ s.ticks) then
      let n := s.get WATCH_SUPPLY_RAILFAIL + 1
      let s := ((s.set WATCH_SUPPLY_RAILFAIL n).set PWR_RAILS_PG 0).raise 1826 3
      s.modPwr fun p => { p with
        rails := 0, inWindow := 0, retryAt := if n < 3 then some (s.ticks + ticksOfMs 100) else none }
    else s

/-- RAIL_RETRY: 100 ms after a rail failure the sequence starts again. -/
def execRailRetry (s : State) : Out :=
  .next <|
    match s.pwr.retryAt with
    | some t =>
      if t ≤ s.ticks then s.modPwr fun p => { p with rails := 1, inWindow := 0, railTick := s.ticks, retryAt := none } else s
    | none => s

/-- The external rails that a power state keeps on. -/
def railsOn (p : PowerState) : Nat :=
  match p with
  | .a0 => 4
  | .a1 => 4
  | .a2 => 3
  | .a3 => 0
  | .off => 0

/-- RAIL_WINDOW_LOSS: a rail leaves its window during operation, or re-enters it (R401). -/
def execRailWindowLoss (i : Fin 4) (inside : Bool) (s : State) : Out :=
  .next <|
    if railsOn s.pwr.state ≤ i.val then s
    else
      let out := s.pwr.railsOut.filter (· != i.val)
      let s := s.put (railLoc i) inside
      if inside then
        let s := s.modPwr fun p => { p with railsOut := out }
        if out.isEmpty then s.endCond 1826 0x41 else s
      else ((s.modPwr fun p => { p with railsOut := i.val :: out }).raise 1826 3).startCond 1826 0x41

/-- VBAT_LOW_CHANGE: VBAT, in units of 0.25 V, falls below 6.0 V or rises above 6.5 V. -/
def execVbatLowChange (v : Byte) (s : State) : Out :=
  .next <|
    let low := s.cur.live.contains (1826, 0x40)
    let s := s.set PWR_RAILS_VBAT v.toNat
    if v.toNat < 24 && !low then ((s.put PWR_RAILS_VBAT_LOW true).raise 1826 1).startCond 1826 0x40
    else if 26 < v.toNat && low then ((s.put PWR_RAILS_VBAT_LOW false).raise 1826 2).endCond 1826 0x40
    else s

/-- VBK_LOW_CHANGE: VBK, in units of 20 mV, falls below 2.5 V, or no longer lies below it. -/
def execVbkLowChange (v : Byte) (s : State) : Out :=
  .next <|
    let low := s.cur.live.contains (1826, 0x45)
    let s := s.set WATCH_SUPPLY_VBK v.toNat
    if v.toNat < 125 && !low then ((s.put WATCH_STAT_VBK_LOW true).raise 1826 4).startCond 1826 0x45
    else if 125 ≤ v.toNat && low then (s.put WATCH_STAT_VBK_LOW false).endCond 1826 0x45
    else s

/-- VBK_LOW_WINDOW_OPEN: VBK falls below 2.05 V while the vault runs on VBK. -/
def execVbkLowWindowOpen (s : State) : Out :=
  .next <|
    if s.pwr.vbatOk || s.pwr.vbkWindow.isSome then s else s.modPwr fun p => { p with vbkWindow := some s.ticks }

/-- A lapse: vault RAM and its marker are cleared whole; vault time is not valid and secure time UNTRUSTED (R400). -/
def State.lapse (s : State) : State :=
  let s := (s.setWord64 TIME_VT_FRAC.addr 0).modPwr fun p => { p with vtHeld := false }
  let s := (s.setTrust 0 5).setWord64 TIME_SEC_LAST_NS.addr 0
  s.put VAULT_STAT_RAMVALID false

/-- LAPSE_DECISION: VBK rose above 2.05 V again within the window, or the window ends without it: a lapse, unless VBAT_OK
asserted (R399). -/
def execLapseDecision (rose : Bool) (s : State) : Out :=
  .next <|
    match s.pwr.vbkWindow with
    | none => s
    | some t =>
      if rose && decide (s.ticks ≤ t + ticksOfUs 30) then s.modPwr fun p => { p with vbkWindow := none }
      else if t + ticksOfUs 30 ≤ s.ticks then (s.modPwr fun p => { p with vbkWindow := none }).lapse
      else s

/-! ## Clocks (R387, R401) -/

/-- CRYSTAL_STABLE: the watch moves from its RC oscillator to the crystal, and CHIP.READY.WATCH sets. Vault time that the
crystal counted meanwhile is valid again. -/
def execCrystalStable (s : State) : Out :=
  .next <|
    if s.flag WATCH_STAT_XTAL || !s.pwr.vbatOk then s
    else
      let s := s.put WATCH_STAT_XTAL true
      let s := s.when s.pwr.vtHeld fun s => (s.put TIME_VT_VALID true).modPwr fun p => { p with vtHeld := false }
      if s.usable then s.showSupply.setReady 0 true else s

/-- CLOCK_LOSS: the 25 MHz reference, or the watch crystal, is lost or returns. Without its crystal the watch runs on RC, and
vault time is not valid. -/
def execClockLoss (ref lost : Bool) (s : State) : Out :=
  .next <|
    if ref then
      let s := (s.modPwr fun p => { p with refOk := !lost }).put PWR_RAILS_REF_OK (!lost)
      if lost then (s.raise 1828 1).startCond 1828 0x42 else (s.raise 1828 2).endCond 1828 0x42
    else if lost then
      let s := (s.put WATCH_STAT_XTAL false).put PWR_RAILS_XW_OK false
      let s := (s.put TIME_VT_VALID false).modPwr fun p => { p with vtHeld := false }
      ((s.setReady 0 false).raise 1828 3).startCond 1828 0x43
    else (s.raise 1828 4).endCond 1828 0x43

/-! ## Resets (R508 to R510) -/

/-- POWER_ON_RESET: the rails are inside their windows; the package is reset whole and starts. `rcvr` is RCVR_N low, `bad`
are the sealed slots that fail their check. -/
def execPowerOnReset (rcvr : Bool) (bad : List (Fin 32)) (s : State) : Out :=
  .next <|
    if !s.pwr.vbatOk || s.pwr.inWindow != 4 then s
    else
      let fails := s.get WATCH_SUPPLY_RAILFAIL
      let valid := s.flag TIME_VT_VALID
      let s := s.resetPackage kindPowerOn
      let s := s.modPwr fun p => { p with state := .a0, held := false, vtHeld := valid || p.vtHeld, railsOut := [] }
      let s := ((s.tamperFlush).put TIME_VT_VALID false).set WATCH_WAKE_CAUSE 3
      let s := (s.set WATCH_SUPPLY_RAILFAIL fails).checkSealed bad
      if rcvr then s.ramorny 3 else s

/-- PACKAGE_RESET: RST_N has been low for 500 ns. The watch, the vault, MRAM and the fuses keep their state; the reset holds
until RST_N rises. -/
def execPackageReset (bad : List (Fin 32)) (s : State) : Out :=
  .next <|
    if s.pwr.state = .off then s
    else
      let s := s.resetPackage kindPackage
      (s.modPwr fun p => { p with state := .a0, held := true }).checkSealed bad

/-- RESET_RELEASE: RST_N rises; a low RCVR_N hands the service port to Ramorny. -/
def execResetRelease (rcvr : Bool) (s : State) : Out :=
  .next <|
    if s.pwr.held then
      let s := s.modPwr fun p => { p with held := false }
      if rcvr then s.ramorny 3 else s
    else s

end Sys2Proof.Machine
end

