-- ==== Sys2Proof/Machine/RegTable.lean ====
section
/-! DEFINITION. The register map: for every 32-bit register word of the package, where its instances lie, which
block it belongs to and how each of its bits is accessed (R7, R488 to R490 and the field tables of the chapters).
A bit that no mask names is reserved (R9); `image` marks the bits whose reset value is "image" and that are not
RWL (R10). A 64-bit register gives two rows, one for each word (R5). -/

namespace Sys2Proof.Machine

/-- The blocks that share one readiness rule and one engine-access rule (R489, R276). -/
inductive Blk where
  | chip | pwr | img | line | obs | mop | cat | gw | rgn | ledg | cur | time | vit | spn | pcie | svc | hall
  | watch | vault | upd | con
  deriving DecidableEq, Repr

/-- One register word and its instances: `dims` lists stride and count, outermost index first. -/
structure RegRow where
  base : Nat
  dims : List (Nat × Nat) := []
  blk : Blk
  /-- one copy for each requester -/
  perReq : Bool := false
  rw : Word := 0
  w1c : Word := 0
  w1s : Word := 0
  rc : Word := 0
  rwl : Word := 0
  wo : Word := 0
  ro : Word := 0
  image : Word := 0
  /-- the high word of a 64-bit register -/
  hi : Bool := false
  deriving DecidableEq, Repr



/-- Words of the IMG registers (02_structure_image.md, R64). -/
def rowsImg1 : List RegRow := [
  { base := 0x00100000, blk := .img, wo := 0x0000000F } /- IMG.CTRL word 0 -/,
  { base := 0x00100004, blk := .img, w1c := 0x00000008, ro := 0xFFFF0007 } /- IMG.STATUS word 0 -/,
  { base := 0x00100008, blk := .img, rw := 0x03FFFFF8 } /- IMG.SRC word 0 -/,
  { base := 0x0010000C, blk := .img, rw := 0x007FFFFF } /- IMG.LEN word 0 -/,
  { base := 0x00100010, blk := .img, ro := 0xFFFFFFFF } /- IMG.CHK_LOC word 0 -/,
  { base := 0x00100014, blk := .img, ro := 0x0000FFFF } /- IMG.CHK_COUNT word 0 -/,
  { base := 0x00100018, blk := .img, ro := 0xFFFFFFFF } /- IMG.EPOCH word 0 -/,
  { base := 0x0010001C, blk := .img, ro := 0xFFFFFFFF } /- IMG.VERSION word 0 -/,
  { base := 0x00100020, blk := .img, ro := 0x0000003F } /- IMG.JRNL word 0 -/,
  { base := 0x00100024, blk := .img, ro := 0x00000003 } /- IMG.BOOT word 0 -/,
  { base := 0x00100028, blk := .img, ro := 0xFFFFFFFF } /- IMG.FMT word 0 -/,
  { base := 0x0010002C, blk := .img, ro := 0x0000FFFF } /- IMG.SVER_MAX word 0 -/,
  { base := 0x00100030, blk := .img, rw := 0x000000FF } /- IMG.TRANS_LIMIT word 0 -/,
  { base := 0x00100034, blk := .img, ro := 0x0000FFFF } /- IMG.SUSP word 0 -/,
  { base := 0x00100038, blk := .img, rc := 0xFFFFFFFF } /- IMG.XDROP word 0 -/,
  { base := 0x0010003C, blk := .img, rc := 0x000000FF } /- IMG.FORCED word 0 -/,
  { base := 0x00100040, dims := [(0x4, 12)], blk := .img, ro := 0xFFFFFFFF } /- IMG.DIGEST word 0 -/,
  { base := 0x00100080, dims := [(0x4, 4)], blk := .img, ro := 0xFFFFFFFF } /- IMG.TRANS word 0 -/,
  { base := 0x00101000, dims := [(0x4, 128)], blk := .img, ro := 0xFFFFFFFF } /- IMG.PORT_EPOCH word 0 -/
]

/-- Words of the LP registers (03_line_ports.md, R97). -/
def rowsLp1 : List RegRow := [
  { base := 0x01000000, dims := [(0x1000, 128)], blk := .line, rw := 0x00000001, wo := 0x00000006 } /- LP.CTRL word 0 -/,
  { base := 0x01000004, dims := [(0x1000, 128)], blk := .line, ro := 0x000003FF } /- LP.STATE word 0 -/,
  { base := 0x01000008, dims := [(0x1000, 128)], blk := .line, ro := 0x0000FFFF, image := 0x0000FFFF } /- LP.CFG word 0 -/,
  { base := 0x0100000C, dims := [(0x1000, 128)], blk := .line, ro := 0x000FFFFF, image := 0x000FFFFF } /- LP.TOPO word 0 -/,
  { base := 0x01000010, dims := [(0x1000, 128)], blk := .line, w1c := 0x0000007F, ro := 0x00007F00 } /- LP.WIRE word 0 -/,
  { base := 0x01000014, dims := [(0x1000, 128)], blk := .line, rc := 0x0000FFFF, ro := 0xFFFF0000 } /- LP.FAULT word 0 -/,
  { base := 0x01000018, dims := [(0x1000, 128)], blk := .line, ro := 0xFFFFFFFF } /- LP.MEAS word 0 -/,
  { base := 0x0100001C, dims := [(0x1000, 128)], blk := .line, rc := 0xFFFFFFFF } /- LP.EMETER word 0 -/,
  { base := 0x01000020, dims := [(0x1000, 128)], blk := .line, rc := 0xFFFFFFFF } /- LP.DEFER word 0 -/,
  { base := 0x01000024, dims := [(0x1000, 128)], blk := .line, rwl := 0x000000FF } /- LP.WAKE_CFG word 0 -/,
  { base := 0x01000028, dims := [(0x1000, 128)], blk := .line, rwl := 0x1FFFFFFF } /- LP.WUF_ID word 0 -/,
  { base := 0x0100002C, dims := [(0x1000, 128)], blk := .line, rwl := 0x1FFFFFFF } /- LP.WUF_IDMASK word 0 -/,
  { base := 0x01000030, dims := [(0x1000, 128)], blk := .line, rwl := 0xFFFFFFFF } /- LP.WUF_DATA word 0 -/,
  { base := 0x01000034, dims := [(0x1000, 128)], blk := .line, rwl := 0xFFFFFFFF, hi := true } /- LP.WUF_DATA word 1 -/,
  { base := 0x01000038, dims := [(0x1000, 128)], blk := .line, w1c := 0x00000001, ro := 0x00000006 } /- LP.WAKE_STAT word 0 -/,
  { base := 0x01000800, dims := [(0x40000, 2)], blk := .line, rwl := 0x00003FFF } /- LP.GOV_CFG word 0 -/,
  { base := 0x01000804, dims := [(0x40000, 2)], blk := .line, ro := 0x007FFFFF } /- LP.GOV_STAT word 0 -/,
  { base := 0x01000808, dims := [(0x40000, 2)], blk := .line, rc := 0x0000FFFF } /- LP.GOV_PEAK word 0 -/,
  { base := 0x0100080C, dims := [(0x40000, 2)], blk := .line, rc := 0xFFFFFFFF } /- LP.GOV_CNT word 0 -/
]

/-- Words of the BT registers (04_arbitration_and_bit_timing.md, R126). -/
def rowsBt1 : List RegRow := [
  { base := 0x01000100, dims := [(0x1000, 128)], blk := .line, rw := 0x00000003, image := 0x00000003 } /- BT.CTRL word 0 -/,
  { base := 0x01000104, dims := [(0x1000, 128)], blk := .line, ro := 0x0000007F } /- BT.STAT word 0 -/,
  { base := 0x01000108, dims := [(0x1000, 128)], blk := .line, ro := 0x0000000F, image := 0x0000000F } /- BT.CFG word 0 -/,
  { base := 0x0100010C, dims := [(0x1000, 128)], blk := .line, ro := 0x3F3F07FF, image := 0x3F3F07FF } /- BT.PRESC word 0 -/,
  { base := 0x01000110, dims := [(0x1000, 128)], blk := .line, ro := 0x01FFFFFF, image := 0x01FFFFFF } /- BT.NTIM word 0 -/,
  { base := 0x01000114, dims := [(0x1000, 128)], blk := .line, ro := 0xFF3FFFFF, image := 0xFF3FFFFF } /- BT.DTIM word 0 -/,
  { base := 0x01000118, dims := [(0x1000, 128)], blk := .line, ro := 0xFF3FFFFF, image := 0xFF3FFFFF } /- BT.XTIM word 0 -/,
  { base := 0x0100011C, dims := [(0x1000, 128)], blk := .line, ro := 0x00FFFFFF, image := 0x00FFFF00 } /- BT.TDC word 0 -/,
  { base := 0x01000120, dims := [(0x1000, 128)], blk := .line, ro := 0xFFFFFFFF, image := 0xFFFFFFFF } /- BT.PLCA word 0 -/,
  { base := 0x01000124, dims := [(0x1000, 128)], blk := .line, ro := 0x000000FF, image := 0x000000FF } /- BT.PLCA_TMR word 0 -/,
  { base := 0x01000128, dims := [(0x1000, 128)], blk := .line, rc := 0xFFFF0000, ro := 0x00000001 } /- BT.PLCA_STAT word 0 -/,
  { base := 0x0100012C, dims := [(0x1000, 128)], blk := .line, ro := 0x3FFFFFFF, image := 0x3FFFFFFF } /- BT.BCN_ID word 0 -/,
  { base := 0x01000130, dims := [(0x1000, 128)], blk := .line, ro := 0x0000FF3F, image := 0x0000FF3F } /- BT.BCN_CFG word 0 -/,
  { base := 0x01000134, dims := [(0x1000, 128)], blk := .line, rc := 0xFFFFFF00, ro := 0x000000FF } /- BT.BCN_STAT word 0 -/,
  { base := 0x01000138, dims := [(0x1000, 128)], blk := .line, rc := 0xFFFFFFFF } /- BT.RXCNT word 0 -/,
  { base := 0x0100013C, dims := [(0x1000, 128)], blk := .line, rc := 0xFFFFFFFF } /- BT.TXCNT word 0 -/,
  { base := 0x01000140, dims := [(0x1000, 128)], blk := .line, rc := 0xFFFFFFFF } /- BT.PEXCNT word 0 -/
]

/-- Words of the OBS registers (05_line_observation.md, R155). -/
def rowsObs1 : List RegRow := [
  { base := 0x01800000, dims := [(0x1000, 128)], blk := .obs, wo := 0x0000001F } /- OBS.CTRL word 0 -/,
  { base := 0x01800004, dims := [(0x1000, 128)], blk := .obs, w1c := 0x00000010, ro := 0x0000000F } /- OBS.STAT word 0 -/,
  { base := 0x01800008, dims := [(0x1000, 128)], blk := .obs, ro := 0x01FFFFFF, image := 0x01FFFFFF } /- OBS.CFG word 0 -/,
  { base := 0x0180000C, dims := [(0x1000, 128)], blk := .obs, ro := 0x003FFFFF } /- OBS.WP_LAST word 0 -/,
  { base := 0x01800010, dims := [(0x1000, 128)], blk := .obs, rc := 0xFFFFFFFF } /- OBS.WP_CNT word 0 -/,
  { base := 0x01800018, dims := [(0x1000, 128), (0x4, 6)], blk := .obs, ro := 0xFFFFFFFF } /- OBS.WP_FEAT word 0 -/,
  { base := 0x01800040, dims := [(0x1000, 128)], blk := .obs, rw := 0xFFFFFFFF } /- OBS.ENR_SEL word 0 -/,
  { base := 0x01800044, dims := [(0x1000, 128)], blk := .obs, ro := 0x00FFFFFF } /- OBS.ENR_STAT word 0 -/,
  { base := 0x01800050, dims := [(0x1000, 128), (0x4, 12)], blk := .obs, ro := 0xFFFFFFFF } /- OBS.ENR_SUM word 0 -/,
  { base := 0x01800080, dims := [(0x1000, 128), (0x8, 12)], blk := .obs, ro := 0xFFFFFFFF } /- OBS.ENR_SQ word 0 -/,
  { base := 0x01800084, dims := [(0x1000, 128), (0x8, 12)], blk := .obs, ro := 0x000000FF, hi := true } /- OBS.ENR_SQ word 1 -/,
  { base := 0x018000E0, dims := [(0x1000, 128), (0x4, 6)], blk := .obs, ro := 0xFFFFFFFF } /- OBS.ENR_USE word 0 -/,
  { base := 0x01800100, dims := [(0x1000, 128)], blk := .obs, rw := 0x0001FFFF } /- OBS.SND_CFG word 0 -/,
  { base := 0x01800104, dims := [(0x1000, 128)], blk := .obs, ro := 0x003FFFFF } /- OBS.SND_STAT word 0 -/,
  { base := 0x01800110, dims := [(0x1000, 128), (0x4, 8)], blk := .obs, ro := 0x80FF7FFF } /- OBS.SND_REFL word 0 -/,
  { base := 0x01800200, dims := [(0x1000, 128)], blk := .obs, ro := 0xFFFF001F } /- OBS.CEN_STAT word 0 -/,
  { base := 0x01800208, dims := [(0x1000, 128)], blk := .obs, ro := 0xFFFFFFFF } /- OBS.CEN_START word 0 -/,
  { base := 0x0180020C, dims := [(0x1000, 128)], blk := .obs, ro := 0xFFFFFFFF, hi := true } /- OBS.CEN_START word 1 -/,
  { base := 0x01800210, dims := [(0x1000, 128)], blk := .obs, ro := 0xFFFFFFFF } /- OBS.CEN_END word 0 -/,
  { base := 0x01800214, dims := [(0x1000, 128)], blk := .obs, ro := 0xFFFFFFFF, hi := true } /- OBS.CEN_END word 1 -/,
  { base := 0x01800218, dims := [(0x1000, 128)], blk := .obs, ro := 0xBFFFFFFF } /- OBS.CEN_UNK word 0 -/,
  { base := 0x01800220, dims := [(0x1000, 128)], blk := .obs, ro := 0xFFFFFFFF } /- OBS.CEN_UNK_T word 0 -/,
  { base := 0x01800224, dims := [(0x1000, 128)], blk := .obs, ro := 0xFFFFFFFF, hi := true } /- OBS.CEN_UNK_T word 1 -/,
  { base := 0x01800300, dims := [(0x1000, 128)], blk := .obs, ro := 0x7FFFFFFF, image := 0x7FFFFFFF } /- OBS.CAP_CFG word 0 -/
]

/-- Words of the OBS registers (05_line_observation.md, R155). -/
def rowsObs2 : List RegRow := [
  { base := 0x01800304, dims := [(0x1000, 128)], blk := .obs, ro := 0x00000003 } /- OBS.CAP_STAT word 0 -/,
  { base := 0x01800308, dims := [(0x1000, 128)], blk := .obs, ro := 0xFFFFFFFF } /- OBS.CAP_SEQ word 0 -/,
  { base := 0x0180030C, dims := [(0x1000, 128)], blk := .obs, rc := 0xFFFFFFFF } /- OBS.CAP_CNT word 0 -/,
  { base := 0x01800400, dims := [(0x1000, 128), (0x10, 32)], blk := .obs, ro := 0xFFFF07FF, image := 0xFFFF07FF } /- OBS.CEN_RES word 0 -/,
  { base := 0x01800404, dims := [(0x1000, 128), (0x10, 32)], blk := .obs, ro := 0xFFFF003F } /- OBS.CEN_RES word 1 -/,
  { base := 0x01800408, dims := [(0x1000, 128), (0x10, 32)], blk := .obs,  } /- OBS.CEN_RES word 2 -/,
  { base := 0x0180040C, dims := [(0x1000, 128), (0x10, 32)], blk := .obs,  } /- OBS.CEN_RES word 3 -/
]

/-- Words of the MOP registers (06_message_operations.md, R188). -/
def rowsMop1 : List RegRow := [
  { base := 0x02000000, blk := .mop, wo := 0x000FFFFF } /- MOP.DOORBELL word 0 -/,
  { base := 0x02000004, blk := .mop, w1c := 0x80000000, ro := 0x000001FF } /- MOP.ERR word 0 -/,
  { base := 0x02000008, blk := .mop, ro := 0x03FFFFFF } /- MOP.ERR_SLOT word 0 -/,
  { base := 0x02001000, dims := [(0x10, 1024)], blk := .mop, ro := 0xFFFFFFFF, image := 0xFFFFFFFF } /- MOP.POOL_CFG0 word 0 -/,
  { base := 0x02001004, dims := [(0x10, 1024)], blk := .mop, ro := 0xFFFFFFFF, image := 0xFFFFFFFF } /- MOP.POOL_CFG1 word 0 -/,
  { base := 0x02001008, dims := [(0x10, 1024)], blk := .mop, rc := 0xFFFF0000, ro := 0x0000FFFF } /- MOP.POOL_STAT word 0 -/,
  { base := 0x0200100C, dims := [(0x10, 1024)], blk := .mop, rc := 0xFFFFFFFF } /- MOP.POOL_CNT word 0 -/,
  { base := 0x02008000, dims := [(0x20, 256)], blk := .mop, ro := 0x03FFF800, image := 0x03FFF800 } /- MOP.FSP_BASE word 0 -/,
  { base := 0x02008004, dims := [(0x20, 256)], blk := .mop, ro := 0xFFFFFFFF, image := 0xFFFFFFFF } /- MOP.FSP_CNT word 0 -/,
  { base := 0x02008008, dims := [(0x20, 256)], blk := .mop, ro := 0xFFFFFFFF, image := 0xFFFFFFFF } /- MOP.FSP_RSV word 0 -/,
  { base := 0x0200800C, dims := [(0x20, 256)], blk := .mop, ro := 0xFFFFFFFF } /- MOP.FSP_FREE word 0 -/,
  { base := 0x02008010, dims := [(0x20, 256)], blk := .mop, rc := 0xFFFFFFFF } /- MOP.FSP_LOW word 0 -/,
  { base := 0x02010000, dims := [(0x8, 128)], blk := .mop, ro := 0xFFFF0001, image := 0x00000001 } /- MOP.PORTQ word 0 -/,
  { base := 0x02010004, dims := [(0x8, 128)], blk := .mop, ro := 0x8000FFFF } /- MOP.PORTHEAD word 0 -/,
  { base := 0x02020000, dims := [(0x20, 4096)], blk := .mop, rw := 0x0007FFFF } /- MOP.MON_CFG word 0 -/,
  { base := 0x02020004, dims := [(0x20, 4096)], blk := .mop, rw := 0x7FFFFFFF } /- MOP.MON_PERIOD word 0 -/,
  { base := 0x02020008, dims := [(0x20, 4096)], blk := .mop, ro := 0xFFFFFFFF } /- MOP.MON_NEXT word 0 -/,
  { base := 0x0202000C, dims := [(0x20, 4096)], blk := .mop, ro := 0xFFFFFFFF, hi := true } /- MOP.MON_NEXT word 1 -/,
  { base := 0x02020010, dims := [(0x20, 4096)], blk := .mop, rc := 0xFFFFFFFF } /- MOP.MON_STAT word 0 -/,
  { base := 0x02400000, dims := [(0x20, 65536)], blk := .mop, rw := 0xFFFF0080, ro := 0x0000FF7F } /- MOP.DESC word 0 -/,
  { base := 0x02400004, dims := [(0x20, 65536)], blk := .mop, rw := 0xFFFFFFFF } /- MOP.DESC word 1 -/,
  { base := 0x02400008, dims := [(0x20, 65536)], blk := .mop, rw := 0xFFFFBFFF, ro := 0x00004000 } /- MOP.DESC word 2 -/,
  { base := 0x0240000C, dims := [(0x20, 65536)], blk := .mop, rw := 0xFFFFFFFF } /- MOP.DESC word 3 -/,
  { base := 0x02400010, dims := [(0x20, 65536)], blk := .mop, ro := 0x03FFFFF8, image := 0x03FFFFF8 } /- MOP.DESC word 4 -/
]

/-- Words of the MOP registers (06_message_operations.md, R188). -/
def rowsMop2 : List RegRow := [
  { base := 0x02400014, dims := [(0x20, 65536)], blk := .mop, ro := 0xFFFFFFFF, image := 0x0000007F } /- MOP.DESC word 5 -/,
  { base := 0x02400018, dims := [(0x20, 65536)], blk := .mop, rw := 0xFFFFFFFF } /- MOP.DESC word 6 -/,
  { base := 0x0240001C, dims := [(0x20, 65536)], blk := .mop, rw := 0xFFFFFFFF } /- MOP.DESC word 7 -/
]

/-- Words of the CAT registers (07_acceptance_catalogue.md, R211). -/
def rowsCat1 : List RegRow := [
  { base := 0x02800000, blk := .cat, perReq := true, wo := 0x0000FF07 } /- CAT.UPD_CMD word 0 -/,
  { base := 0x02800004, blk := .cat, perReq := true, ro := 0xFFFF003F } /- CAT.UPD_STAT word 0 -/,
  { base := 0x02800008, blk := .cat, perReq := true, rw := 0x00007FFF } /- CAT.UPD_IDX word 0 -/,
  { base := 0x02800010, blk := .cat, perReq := true, ro := 0xFFFFFFFF } /- CAT.UPD_T word 0 -/,
  { base := 0x02800014, blk := .cat, perReq := true, ro := 0xFFFFFFFF, hi := true } /- CAT.UPD_T word 1 -/,
  { base := 0x02800020, dims := [(0x4, 8)], blk := .cat, perReq := true, rw := 0xFFFFFFFF } /- CAT.UPD_W word 0 -/,
  { base := 0x02800040, blk := .cat, ro := 0xFFFFFFFF } /- CAT.USE word 0 -/,
  { base := 0x02801000, dims := [(0x8, 256)], blk := .cat, ro := 0x801F7FFF, image := 0x801F7FFF } /- CAT.TBL_CFG0 word 0 -/,
  { base := 0x02801004, dims := [(0x8, 256)], blk := .cat, ro := 0x007FFFFF, image := 0x007FFFFF } /- CAT.TBL_CFG1 word 0 -/,
  { base := 0x02802000, dims := [(0x10, 128)], blk := .cat, ro := 0x0007FFFF, image := 0x0007FFFF } /- CAT.PBIND word 0 -/,
  { base := 0x02802004, dims := [(0x10, 128)], blk := .cat, rc := 0xFFFFFFFF } /- CAT.PCNT word 0 -/,
  { base := 0x02802008, dims := [(0x10, 128)], blk := .cat, ro := 0xFFFFFFFF, image := 0xFFFFFFFF } /- CAT.PADDR_LO word 0 -/,
  { base := 0x0280200C, dims := [(0x10, 128)], blk := .cat, ro := 0x0000FFFF, image := 0x0000FFFF } /- CAT.PADDR_HI word 0 -/,
  { base := 0x02900000, dims := [(0x20, 32768)], blk := .cat, ro := 0x0FFF0FFF, image := 0x0FFF07FF } /- CAT.ENTRY word 0 -/,
  { base := 0x02900004, dims := [(0x20, 32768)], blk := .cat, ro := 0x1FFFFFFF, image := 0x1FFFFFFF } /- CAT.ENTRY word 1 -/,
  { base := 0x02900008, dims := [(0x20, 32768)], blk := .cat, ro := 0x1FFFFFFF, image := 0x1FFFFFFF } /- CAT.ENTRY word 2 -/,
  { base := 0x0290000C, dims := [(0x20, 32768)], blk := .cat, ro := 0xFFFFFFFF, image := 0xFFFFFFFF } /- CAT.ENTRY word 3 -/,
  { base := 0x02900010, dims := [(0x20, 32768)], blk := .cat, ro := 0xFFFFFFFF, image := 0xFFFFFFFF } /- CAT.ENTRY word 4 -/,
  { base := 0x02900014, dims := [(0x20, 32768)], blk := .cat, ro := 0xFFFFFFFF, image := 0xFFFFFFFF } /- CAT.ENTRY word 5 -/,
  { base := 0x02900018, dims := [(0x20, 32768)], blk := .cat, ro := 0x0003FFFF, image := 0x0003FFFF } /- CAT.ENTRY word 6 -/,
  { base := 0x0290001C, dims := [(0x20, 32768)], blk := .cat, rc := 0xFFFFFFFF } /- CAT.ENTRY word 7 -/
]

/-- Words of the ECF registers (08_error_confinement.md, R235). -/
def rowsEcf1 : List RegRow := [
  { base := 0x01000200, dims := [(0x1000, 128)], blk := .line, wo := 0x00000003 } /- ECF.CTRL word 0 -/,
  { base := 0x01000204, dims := [(0x1000, 128)], blk := .line, w1c := 0x00000040, ro := 0x0001FFBF } /- ECF.STAT word 0 -/,
  { base := 0x01000208, dims := [(0x1000, 128)], blk := .line, ro := 0x0007FFFF, image := 0x0007FFFF } /- ECF.CFG word 0 -/,
  { base := 0x0100020C, dims := [(0x1000, 128)], blk := .line, ro := 0x03FFFFFF, image := 0x03FFFFFF } /- ECF.GUARD word 0 -/,
  { base := 0x01000210, dims := [(0x1000, 128)], blk := .line, ro := 0x0000FFFF, image := 0x0000FFFF } /- ECF.SLOPE word 0 -/,
  { base := 0x01000214, dims := [(0x1000, 128)], blk := .line, ro := 0x00FF01FF } /- ECF.CNT word 0 -/,
  { base := 0x01000218, dims := [(0x1000, 128)], blk := .line, ro := 0xFFFF03FF } /- ECF.LAST word 0 -/,
  { base := 0x01000220, dims := [(0x1000, 128)], blk := .line, ro := 0xFFFFFFFF } /- ECF.LAST_T word 0 -/,
  { base := 0x01000224, dims := [(0x1000, 128)], blk := .line, ro := 0xFFFFFFFF, hi := true } /- ECF.LAST_T word 1 -/,
  { base := 0x01000228, dims := [(0x1000, 128)], blk := .line, rc := 0xFFFFFFFF } /- ECF.ERRCNT word 0 -/,
  { base := 0x0100022C, dims := [(0x1000, 128)], blk := .line, ro := 0x003FFFFF } /- ECF.BO word 0 -/,
  { base := 0x01000230, dims := [(0x1000, 128)], blk := .line, ro := 0xFFFFFFFF } /- ECF.BO_T word 0 -/,
  { base := 0x01000234, dims := [(0x1000, 128)], blk := .line, ro := 0xFFFFFFFF, hi := true } /- ECF.BO_T word 1 -/,
  { base := 0x01000238, dims := [(0x1000, 128)], blk := .line, ro := 0xFFFFFFFF } /- ECF.BO_DUR word 0 -/,
  { base := 0x0100023C, dims := [(0x1000, 128)], blk := .line, rc := 0xFFFFFFFF } /- ECF.MISC word 0 -/,
  { base := 0x01000240, dims := [(0x1000, 128)], blk := .line, rc := 0xFFFFFFFF } /- ECF.ETH word 0 -/,
  { base := 0x01000244, dims := [(0x1000, 128)], blk := .line, rc := 0xFFFFFFFF } /- ECF.ETH_COLL word 0 -/
]

/-- Words of the GW registers (09_gateway_determinism.md, R266). -/
def rowsGw1 : List RegRow := [
  { base := 0x03000000, blk := .gw, ro := 0x003FFFFF, image := 0x003FFFFF } /- GW.STAT word 0 -/,
  { base := 0x03000004, blk := .gw, w1c := 0x80000000, ro := 0x007FFFFF } /- GW.BRK word 0 -/,
  { base := 0x03000008, blk := .gw, ro := 0xFFFFFFFF } /- GW.BRK_LATE word 0 -/,
  { base := 0x03000010, blk := .gw, ro := 0xFFFFFFFF } /- GW.BRK_T word 0 -/,
  { base := 0x03000014, blk := .gw, ro := 0xFFFFFFFF, hi := true } /- GW.BRK_T word 1 -/,
  { base := 0x03000020, dims := [(0x4, 8)], blk := .gw, ro := 0xFFFFFFFF } /- GW.BRKW word 0 -/,
  { base := 0x03000050, dims := [(0x4, 7)], blk := .gw, ro := 0xFFFFFFFF, image := 0xFFFFFFFF } /- GW.PCP_TH word 0 -/,
  { base := 0x03001000, dims := [(0x20, 1024)], blk := .gw, ro := 0x03FFFFFF, image := 0x03FFFFFF } /- GW.RT_CFG word 0 -/,
  { base := 0x03001004, dims := [(0x20, 1024)], blk := .gw, ro := 0x07FFFFFF, image := 0x07FFFFFF } /- GW.RT_H word 0 -/,
  { base := 0x03001008, dims := [(0x20, 1024)], blk := .gw, ro := 0x07FFFFFF, image := 0x07FFFFFF } /- GW.RT_HMIN word 0 -/,
  { base := 0x0300100C, dims := [(0x20, 1024)], blk := .gw, ro := 0x000FFFFF, image := 0x000FFFFF } /- GW.RT_BUD word 0 -/,
  { base := 0x03001010, dims := [(0x20, 1024)], blk := .gw, ro := 0xFFFF03FF, image := 0xFFFF03FF } /- GW.RT_LEGS word 0 -/,
  { base := 0x03001014, dims := [(0x20, 1024)], blk := .gw, rc := 0xFFFFFFFF } /- GW.RT_CNT word 0 -/,
  { base := 0x03001018, dims := [(0x20, 1024)], blk := .gw, rc := 0xFFFFFFFF } /- GW.RT_DROP word 0 -/,
  { base := 0x0300101C, dims := [(0x20, 1024)], blk := .gw, rc := 0xFFFFFFFF } /- GW.RT_BRK word 0 -/,
  { base := 0x03010000, dims := [(0x10, 1024)], blk := .gw, ro := 0x3FFFFFFF, image := 0x3FFFFFFF } /- GW.LEG_CFG word 0 -/,
  { base := 0x03010004, dims := [(0x10, 1024)], blk := .gw, ro := 0x3FFFFFFF, image := 0x3FFFFFFF } /- GW.LEG_ID word 0 -/,
  { base := 0x03010008, dims := [(0x10, 1024)], blk := .gw, ro := 0xFFFFFFFF, image := 0x0000FFFF } /- GW.LEG_Q word 0 -/,
  { base := 0x0301000C, dims := [(0x10, 1024)], blk := .gw, rc := 0xFFFFFFFF } /- GW.LEG_STAT word 0 -/,
  { base := 0x03020000, dims := [(0x20, 64)], blk := .gw, ro := 0x000001FF, image := 0x000001FF } /- GW.TUN_CFG word 0 -/,
  { base := 0x03020004, dims := [(0x20, 64)], blk := .gw, ro := 0x00FF01FF } /- GW.TUN_SEQ word 0 -/,
  { base := 0x03020008, dims := [(0x20, 64)], blk := .gw, ro := 0xFFFFFFFF, image := 0xFFFFFFFF } /- GW.TUN_SID word 0 -/,
  { base := 0x0302000C, dims := [(0x20, 64)], blk := .gw, ro := 0xFFFFFFFF, image := 0xFFFFFFFF, hi := true } /- GW.TUN_SID word 1 -/,
  { base := 0x03020010, dims := [(0x20, 64)], blk := .gw, rc := 0xFFFFFFFF } /- GW.TUN_CNT word 0 -/
]

/-- Words of the GW registers (09_gateway_determinism.md, R266). -/
def rowsGw2 : List RegRow := [
  { base := 0x03020014, dims := [(0x20, 64)], blk := .gw, rc := 0xFFFFFFFF } /- GW.TUN_DUP word 0 -/,
  { base := 0x03030000, dims := [(0x8, 200)], blk := .gw, ro := 0x0003FFFF } /- GW.EQ_STAT word 0 -/,
  { base := 0x03030004, dims := [(0x8, 200)], blk := .gw, rc := 0xFFFFFFFF } /- GW.EQ_CNT word 0 -/
]

/-- Words of the RGN registers (10_channel_engines.md, R299). -/
def rowsRgn1 : List RegRow := [
  { base := 0x04000000, dims := [(0x100000, 16)], blk := .rgn, rw := 0x00000007, ro := 0x000003F8, image := 0x000001FF } /- RGN.OPP word 0 -/,
  { base := 0x04000004, dims := [(0x100000, 16)], blk := .rgn, ro := 0x000001FF, image := 0x000001FE } /- RGN.STAT word 0 -/,
  { base := 0x04000008, dims := [(0x100000, 16)], blk := .rgn, rc := 0xFFFFFFFF } /- RGN.DIRCNT word 0 -/,
  { base := 0x04000020, dims := [(0x100000, 16), (0x4, 8)], blk := .rgn, ro := 0x003FFFFF, image := 0x003FFFFF } /- RGN.PART word 0 -/
]

/-- Words of the CLU registers (10_channel_engines.md, R299). -/
def rowsClu1 : List RegRow := [
  { base := 0x04010000, dims := [(0x100000, 16), (0x1000, 8)], blk := .rgn, ro := 0x0000007F, image := 0x0000007F } /- CLU.CFG word 0 -/,
  { base := 0x04010004, dims := [(0x100000, 16), (0x1000, 8)], blk := .rgn, rw := 0x0000FFFF } /- CLU.PRIO word 0 -/,
  { base := 0x04010008, dims := [(0x100000, 16), (0x1000, 8)], blk := .rgn, w1s := 0x000000FF } /- CLU.DOORBELL word 0 -/,
  { base := 0x0401000C, dims := [(0x100000, 16), (0x1000, 8)], blk := .rgn, w1c := 0x000000FF } /- CLU.DOORACK word 0 -/,
  { base := 0x04010010, dims := [(0x100000, 16), (0x1000, 8)], blk := .rgn, w1c := 0x80000000, ro := 0x00000FFF } /- CLU.ERR word 0 -/,
  { base := 0x04010040, dims := [(0x100000, 16), (0x1000, 8), (0x8, 8)], blk := .rgn, ro := 0x03FFFFFF, image := 0x03FFFFFF } /- CLU.WIN_A word 0 -/,
  { base := 0x04010044, dims := [(0x100000, 16), (0x1000, 8), (0x8, 8)], blk := .rgn, ro := 0x03FFF000, image := 0x03FFF000 } /- CLU.WIN_B word 0 -/,
  { base := 0x04010100, dims := [(0x100000, 16), (0x1000, 8), (0x4, 64)], blk := .rgn, wo := 0x07000000, ro := 0x0000FF1F } /- CLU.LOCK word 0 -/
]

/-- Words of the ENG registers (10_channel_engines.md, R299). -/
def rowsEng1 : List RegRow := [
  { base := 0x04020000, dims := [(0x100000, 16), (0x100, 64)], blk := .rgn, wo := 0x00000003 } /- ENG.CTRL word 0 -/,
  { base := 0x04020004, dims := [(0x100000, 16), (0x100, 64)], blk := .rgn, ro := 0x0000001F } /- ENG.STAT word 0 -/,
  { base := 0x04020008, dims := [(0x100000, 16), (0x100, 64)], blk := .rgn, rw := 0x00000002, ro := 0x00000001, image := 0x00000001 } /- ENG.CFG word 0 -/,
  { base := 0x0402000C, dims := [(0x100000, 16), (0x100, 64)], blk := .rgn, rwl := 0xFFFFFFFE } /- ENG.START word 0 -/,
  { base := 0x04020010, dims := [(0x100000, 16), (0x100, 64)], blk := .rgn, rw := 0xFFFFFFFF } /- ENG.TCMP word 0 -/,
  { base := 0x04020014, dims := [(0x100000, 16), (0x100, 64)], blk := .rgn, ro := 0x8000001F } /- ENG.TRAP word 0 -/,
  { base := 0x04020018, dims := [(0x100000, 16), (0x100, 64)], blk := .rgn, ro := 0xFFFFFFFF } /- ENG.TVAL word 0 -/,
  { base := 0x0402001C, dims := [(0x100000, 16), (0x100, 64)], blk := .rgn, ro := 0xFFFFFFFF } /- ENG.PC word 0 -/
]

/-- Words of the HALL registers (11_memory_halls.md, R321). -/
def rowsHall1 : List RegRow := [
  { base := 0x05500000, blk := .hall, ro := 0x000000FF } /- HALL.STAT word 0 -/,
  { base := 0x05500004, blk := .hall, w1c := 0x80000000, ro := 0x000FFFFF } /- HALL.ERR word 0 -/,
  { base := 0x05500008, blk := .hall, ro := 0x07FFFFFF } /- HALL.ERR_ADDR word 0 -/,
  { base := 0x05500010, blk := .hall, wo := 0x0007FFFF } /- HALL.HANDOVER word 0 -/,
  { base := 0x05500014, blk := .hall, ro := 0x0000001F } /- HALL.HO_STAT word 0 -/,
  { base := 0x05500018, blk := .hall, wo := 0x00003FFF } /- HALL.REVOKE word 0 -/,
  { base := 0x0550001C, blk := .hall, w1c := 0x00400000, ro := 0x003FFFFF } /- HALL.RV_STAT word 0 -/,
  { base := 0x05500020, dims := [(0x4, 4)], blk := .hall, rc := 0xFFFFFFFF } /- HALL.ECC word 0 -/,
  { base := 0x05500030, dims := [(0x4, 4)], blk := .hall, w1c := 0x80000000, ro := 0x03FFFFFF } /- HALL.UE_ADDR word 0 -/,
  { base := 0x05500040, dims := [(0x4, 4)], blk := .hall, rw := 0x000007FF, image := 0x000007FF } /- HALL.TEST_CFG word 0 -/,
  { base := 0x05500050, dims := [(0x4, 4)], blk := .hall, ro := 0x7FDFFFFF } /- HALL.TEST_STAT word 0 -/,
  { base := 0x05500060, dims := [(0x4, 22)], blk := .hall, rc := 0xFFFFFFFF } /- HALL.CONF word 0 -/,
  { base := 0x05501000, dims := [(0x4, 4096)], blk := .hall, ro := 0x007FFFFF } /- HALL.OWN word 0 -/
]

/-- Words of the TIME registers (12_time.md, R342). -/
def rowsTime1 : List RegRow := [
  { base := 0x05200000, blk := .time, wo := 0x0000000F } /- TIME.CTRL word 0 -/,
  { base := 0x05200004, blk := .time, w1c := 0x00000118, ro := 0x000000E7 } /- TIME.STAT word 0 -/,
  { base := 0x05200008, blk := .time, ro := 0x007FFFFF, image := 0x007FFFFF } /- TIME.CFG word 0 -/,
  { base := 0x0520000C, blk := .time, ro := 0x7FFFFFFF, image := 0x7FFFFFFF } /- TIME.JTH word 0 -/,
  { base := 0x05200010, blk := .time, rw := 0xFFFFFFFF } /- TIME.INC word 0 -/,
  { base := 0x05200014, blk := .time, rw := 0x00000003, hi := true } /- TIME.INC word 1 -/,
  { base := 0x05200018, blk := .time, ro := 0x0000FFFF } /- TIME.NOW_HI word 0 -/,
  { base := 0x05200020, blk := .time, ro := 0xFFFFFFFF } /- TIME.NOW word 0 -/,
  { base := 0x05200024, blk := .time, ro := 0xFFFFFFFF, hi := true } /- TIME.NOW word 1 -/,
  { base := 0x05200028, blk := .time, ro := 0xFFFFFFFF } /- TIME.NSO word 0 -/,
  { base := 0x0520002C, blk := .time, ro := 0xFFFFFFFF, hi := true } /- TIME.NSO word 1 -/,
  { base := 0x05200030, blk := .time, rw := 0xFFFFFFFF } /- TIME.OFFS word 0 -/,
  { base := 0x05200034, blk := .time, rw := 0xFFFFFFFF, hi := true } /- TIME.OFFS word 1 -/,
  { base := 0x05200038, blk := .time, ro := 0xFFFFFFFF } /- TIME.JREF word 0 -/,
  { base := 0x0520003C, blk := .time, ro := 0xFFFFFFFF, hi := true } /- TIME.JREF word 1 -/,
  { base := 0x05200040, blk := .time, ro := 0x001FFFFF, image := 0x001FFFFF } /- TIME.SEC_CFG word 0 -/,
  { base := 0x05200044, blk := .time, ro := 0xFFFFFFFF, image := 0xFFFFFFFF } /- TIME.SEC_HOLD word 0 -/,
  { base := 0x05200048, blk := .time, ro := 0xFFFFFFFF } /- TIME.SEC_LAST word 0 -/,
  { base := 0x0520004C, blk := .time, ro := 0xFFFFFFFF, hi := true } /- TIME.SEC_LAST word 1 -/,
  { base := 0x05200050, blk := .time, ro := 0xFFFFFFFF } /- TIME.SEC_ERR word 0 -/,
  { base := 0x05200054, blk := .time, ro := 0xFFFFFFFF, hi := true } /- TIME.SEC_ERR word 1 -/,
  { base := 0x05200058, blk := .time, ro := 0xFFFFFFFF } /- TIME.NONCE word 0 -/,
  { base := 0x0520005C, blk := .time, ro := 0xFFFFFFFF, hi := true } /- TIME.NONCE word 1 -/,
  { base := 0x05200060, dims := [(0x4, 5)], blk := .time, wo := 0xFFFFFFFF } /- TIME.TOKEN word 0 -/
]

/-- Words of the TIME registers (12_time.md, R342). -/
def rowsTime2 : List RegRow := [
  { base := 0x05200080, blk := .time, ro := 0xFFFFFFFF } /- TIME.VT word 0 -/,
  { base := 0x05200084, blk := .time, ro := 0xFFFFFFFF, hi := true } /- TIME.VT word 1 -/,
  { base := 0x05200100, dims := [(0x20, 4)], blk := .time, ro := 0x0FFF3FFF, image := 0x0FFF3FFF } /- TIME.BRX_CFG word 0 -/,
  { base := 0x05200104, dims := [(0x20, 4)], blk := .time, ro := 0x3FFFFFFF, image := 0x3FFFFFFF } /- TIME.BRX_ID word 0 -/,
  { base := 0x05200108, dims := [(0x20, 4)], blk := .time, ro := 0xFFFFFFFF } /- TIME.BRX_RT word 0 -/,
  { base := 0x0520010C, dims := [(0x20, 4)], blk := .time, ro := 0xFFFFFFFF, hi := true } /- TIME.BRX_RT word 1 -/,
  { base := 0x05200110, dims := [(0x20, 4)], blk := .time, ro := 0xFFFFFFFF } /- TIME.BRX_LT word 0 -/,
  { base := 0x05200114, dims := [(0x20, 4)], blk := .time, ro := 0xFFFFFFFF, hi := true } /- TIME.BRX_LT word 1 -/,
  { base := 0x05200118, dims := [(0x20, 4)], blk := .time, ro := 0xFFFFFFFF } /- TIME.BRX_OFF word 0 -/,
  { base := 0x0520011C, dims := [(0x20, 4)], blk := .time, ro := 0xFFFF7FFF } /- TIME.BRX_STAT word 0 -/,
  { base := 0x05200400, dims := [(0x4, 128)], blk := .time, ro := 0xFFFFFFFF, image := 0xFFFFFFFF } /- TIME.BSCHED word 0 -/,
  { base := 0x05200600, dims := [(0x4, 132)], blk := .time, ro := 0x00000003, image := 0x00000003 } /- TIME.PTP word 0 -/
]

/-- Words of the LEDG registers (13_ledger_events.md, R360). -/
def rowsLedg1 : List RegRow := [
  { base := 0x05000000, blk := .ledg, w1c := 0x00008000, ro := 0x00007FFF } /- LEDG.STAT word 0 -/,
  { base := 0x05000004, blk := .ledg, rw := 0x000001FF } /- LEDG.HOLD word 0 -/,
  { base := 0x05000008, blk := .ledg, wo := 0x000007FF } /- LEDG.EOI word 0 -/,
  { base := 0x0500000C, blk := .ledg, w1c := 0x80000000, ro := 0x01FFFFFF } /- LEDG.ERR word 0 -/,
  { base := 0x05000010, blk := .ledg, rc := 0xFFFFFFFF } /- LEDG.LOSTCNT word 0 -/,
  { base := 0x05000018, blk := .ledg, ro := 0xFFFFFFFF } /- LEDG.EPEND word 0 -/,
  { base := 0x0500001C, blk := .ledg, ro := 0xFFFFFFFF, hi := true } /- LEDG.EPEND word 1 -/,
  { base := 0x05000020, blk := .ledg, w1c := 0x00000800, rwl := 0x0000F000, ro := 0x000007FF } /- LEDG.WAKE word 0 -/,
  { base := 0x05001000, dims := [(0x20, 64)], blk := .ledg, ro := 0x03FFFFF0, image := 0x03FFFFF0 } /- LEDG.RING_BASE word 0 -/,
  { base := 0x05001004, dims := [(0x20, 64)], blk := .ledg, rw := 0x00000002, ro := 0x0003FFFD, image := 0x0003FFFF } /- LEDG.RING_CFG word 0 -/,
  { base := 0x05001008, dims := [(0x20, 64)], blk := .ledg, rw := 0x0000FFFF, image := 0x0000FFFF } /- LEDG.RING_MOD word 0 -/,
  { base := 0x0500100C, dims := [(0x20, 64)], blk := .ledg, rw := 0x0001FFFF } /- LEDG.RING_HEAD word 0 -/,
  { base := 0x05001010, dims := [(0x20, 64)], blk := .ledg, ro := 0x0001FFFF } /- LEDG.RING_TAIL word 0 -/,
  { base := 0x05001014, dims := [(0x20, 64)], blk := .ledg, rc := 0xFFFFFFFF } /- LEDG.RING_STAT word 0 -/,
  { base := 0x05010000, dims := [(0x4, 2047)], blk := .ledg, rw := 0x00000100, ro := 0x00000EFF, image := 0x000001FF } /- LEDG.SRC word 0 -/
]

/-- Words of the CUR registers (14_curator_faults.md, R382). -/
def rowsCur1 : List RegRow := [
  { base := 0x05100000, blk := .cur, wo := 0x0000FF0F } /- CUR.CTRL word 0 -/,
  { base := 0x05100004, blk := .cur, w1c := 0x00002400, ro := 0x0000DBFF } /- CUR.STAT word 0 -/,
  { base := 0x05100008, blk := .cur, ro := 0x3FFFFFFF, image := 0x3FFFFFFF } /- CUR.CFG word 0 -/,
  { base := 0x0510000C, blk := .cur, ro := 0x000FFFFF } /- CUR.RECOV word 0 -/,
  { base := 0x05100010, blk := .cur, w1c := 0x80000000, ro := 0x009FFFFF } /- CUR.FIRST word 0 -/,
  { base := 0x05100014, blk := .cur, ro := 0xFFFFFFFF } /- CUR.FIRST_ADDR word 0 -/,
  { base := 0x05100018, blk := .cur, ro := 0x00003FFF } /- CUR.FIRST_ACC word 0 -/,
  { base := 0x05100020, blk := .cur, ro := 0xFFFFFFFF } /- CUR.FIRST_T word 0 -/,
  { base := 0x05100024, blk := .cur, ro := 0xFFFFFFFF, hi := true } /- CUR.FIRST_T word 1 -/,
  { base := 0x05100028, blk := .cur, ro := 0x9F9FFFFF } /- CUR.COIN word 0 -/,
  { base := 0x05100030, blk := .cur, rc := 0xFFFFFFFF } /- CUR.SEVCNT word 0 -/,
  { base := 0x05100034, blk := .cur, rc := 0xFFFFFFFF, hi := true } /- CUR.SEVCNT word 1 -/,
  { base := 0x05100038, blk := .cur, rw := 0xFFFFFFFF } /- CUR.GO_OUT word 0 -/,
  { base := 0x0510003C, blk := .cur, wo := 0x8007FFFF } /- CUR.INJ word 0 -/,
  { base := 0x05100040, blk := .cur, ro := 0xFFFFFFFF, image := 0xFFFFFFFF } /- CUR.GO_SAFE word 0 -/,
  { base := 0x05100044, blk := .cur, ro := 0xFFFFFFFF, image := 0xFFFFFFFF, hi := true } /- CUR.GO_SAFE word 1 -/,
  { base := 0x05100048, blk := .cur, ro := 0xFFFFFFFF } /- CUR.SAFE_T word 0 -/,
  { base := 0x0510004C, blk := .cur, ro := 0xFFFFFFFF, hi := true } /- CUR.SAFE_T word 1 -/,
  { base := 0x05101000, dims := [(0x4, 256)], blk := .cur, ro := 0x000003FF } /- CUR.KIND word 0 -/,
  { base := 0x05101400, dims := [(0x8, 64)], blk := .cur, ro := 0x01FFFFFF, image := 0x01FFFFFF } /- CUR.WRULE0 word 0 -/,
  { base := 0x05101404, dims := [(0x8, 64)], blk := .cur, ro := 0x0000FFFF, image := 0x0000FFFF } /- CUR.WRULE1 word 0 -/,
  { base := 0x05102000, dims := [(0x10, 256)], blk := .cur, ro := 0x80FFFFFF } /- CUR.AFT word 0 -/,
  { base := 0x05102004, dims := [(0x10, 256)], blk := .cur, ro := 0x0000FFFF } /- CUR.AFT word 1 -/,
  { base := 0x05102008, dims := [(0x10, 256)], blk := .cur, ro := 0xFFFFFFFF } /- CUR.AFT word 2 -/
]

/-- Words of the CUR registers (14_curator_faults.md, R382). -/
def rowsCur2 : List RegRow := [
  { base := 0x0510200C, dims := [(0x10, 256)], blk := .cur, ro := 0xFFFFFFFF } /- CUR.AFT word 3 -/
]

/-- Words of the PWR registers (15_power_clocks_sleep.md, R405). -/
def rowsPwr1 : List RegRow := [
  { base := 0x00000100, blk := .pwr, rw := 0x00000003, image := 0x00000003 } /- PWR.CTRL word 0 -/,
  { base := 0x00000104, blk := .pwr, w1c := 0x00000040, ro := 0x0000003F } /- PWR.STAT word 0 -/,
  { base := 0x00000108, blk := .pwr, ro := 0xFFFFFFFF } /- PWR.NEXT word 0 -/,
  { base := 0x0000010C, blk := .pwr, ro := 0x0000FF7F } /- PWR.RAILS word 0 -/,
  { base := 0x00000110, blk := .pwr, rc := 0x03FF0000, ro := 0x000003FF } /- PWR.TEMP word 0 -/,
  { base := 0x00000114, blk := .pwr, rc := 0xFFFFFFFF } /- PWR.CNT word 0 -/
]

/-- Words of the WATCH registers (15_power_clocks_sleep.md, R405). -/
def rowsWatch1 : List RegRow := [
  { base := 0x05600000, blk := .watch, w1c := 0x00000004, ro := 0x0000000B } /- WATCH.STAT word 0 -/,
  { base := 0x05600004, blk := .watch, ro := 0x0000001F } /- WATCH.WAKE word 0 -/,
  { base := 0x05600008, blk := .watch, rc := 0x0000FFFC, ro := 0x00FF0003 } /- WATCH.SUPPLY word 0 -/,
  { base := 0x0560000C, blk := .watch, ro := 0x0001FFFF } /- WATCH.TREST word 0 -/,
  { base := 0x05600010, blk := .watch, rc := 0xFFFFFFFF } /- WATCH.CNT word 0 -/,
  { base := 0x05600020, dims := [(0x8, 4)], blk := .watch, rw := 0xFFFFFFFF } /- WATCH.TMR word 0 -/,
  { base := 0x05600024, dims := [(0x8, 4)], blk := .watch, rw := 0xFFFFFFFF, hi := true } /- WATCH.TMR word 1 -/,
  { base := 0x05600040, blk := .watch, ro := 0xFFFFFFFF } /- WATCH.SCHED word 0 -/,
  { base := 0x05600044, blk := .watch, ro := 0xFFFFFFFF, hi := true } /- WATCH.SCHED word 1 -/
]

/-- Words of the SPN registers (16_spine_host_service.md, R427). -/
def rowsSpn1 : List RegRow := [
  { base := 0x05400000, blk := .spn, ro := 0x000FFFFF, image := 0x000FFFF0 } /- SPN.STAT word 0 -/,
  { base := 0x05401000, dims := [(0x100, 4)], blk := .spn, rw := 0x00000068, ro := 0x00000017, image := 0x0000007F } /- SPN.LANE_CFG word 0 -/,
  { base := 0x05401004, dims := [(0x100, 4)], blk := .spn, rc := 0xFFFF0000, ro := 0x0000000F } /- SPN.LANE_STAT word 0 -/,
  { base := 0x05401008, dims := [(0x100, 4)], blk := .spn, ro := 0xFFFFFFFF, image := 0xFFFFFFFF } /- SPN.LANE_SA word 0 -/,
  { base := 0x0540100C, dims := [(0x100, 4)], blk := .spn, ro := 0x0000FFFF, image := 0x0000FFFF, hi := true } /- SPN.LANE_SA word 1 -/,
  { base := 0x05401010, dims := [(0x100, 4)], blk := .spn, rc := 0xFFFFFFFF } /- SPN.LANE_FEC word 0 -/,
  { base := 0x05401014, dims := [(0x100, 4)], blk := .spn, rc := 0xFFFFFFFF } /- SPN.LANE_SEC word 0 -/,
  { base := 0x05401018, dims := [(0x100, 4)], blk := .spn, rw := 0x03FF0000 } /- SPN.HQ_BASE word 0 -/,
  { base := 0x0540101C, dims := [(0x100, 4)], blk := .spn, rw := 0x001F1F00, ro := 0x1F00001F } /- SPN.HQ_PTR word 0 -/,
  { base := 0x05402000, dims := [(0x20, 64)], blk := .spn, ro := 0x003FFFFF, image := 0x003FFFFF } /- SPN.STR_CFG word 0 -/,
  { base := 0x05402008, dims := [(0x20, 64)], blk := .spn, ro := 0xFFFFFFFF, image := 0xFFFFFFFF } /- SPN.STR_DA word 0 -/,
  { base := 0x0540200C, dims := [(0x20, 64)], blk := .spn, ro := 0x0000FFFF, image := 0x0000FFFF, hi := true } /- SPN.STR_DA word 1 -/,
  { base := 0x05402010, dims := [(0x20, 64)], blk := .spn, rc := 0xFFFFFFF0, ro := 0x0000000F } /- SPN.STR_STAT word 0 -/
]

/-- Words of the PCIE registers (16_spine_host_service.md, R427). -/
def rowsPcie1 : List RegRow := [
  { base := 0x05410000, blk := .pcie, ro := 0x000003FF } /- PCIE.STAT word 0 -/,
  { base := 0x05410004, blk := .pcie, rw := 0x00000001 } /- PCIE.CFG word 0 -/,
  { base := 0x05410008, blk := .pcie, rc := 0xFFFFFFFF } /- PCIE.CNT word 0 -/,
  { base := 0x05410010, blk := .pcie, ro := 0xFFFFFFFF } /- PCIE.PEND word 0 -/,
  { base := 0x05410014, blk := .pcie, ro := 0xFFFFFFFF, hi := true } /- PCIE.PEND word 1 -/,
  { base := 0x05418000, dims := [(0x10, 64)], blk := .pcie, rw := 0xFFFFFFFC } /- MSI-X table entry, message address (R419) -/,
  { base := 0x05418004, dims := [(0x10, 64)], blk := .pcie, rw := 0xFFFFFFFF } /- MSI-X table entry, upper address -/,
  { base := 0x05418008, dims := [(0x10, 64)], blk := .pcie, rw := 0xFFFFFFFF } /- MSI-X table entry, message data -/,
  { base := 0x0541800C, dims := [(0x10, 64)], blk := .pcie, rw := 0x00000001 } /- MSI-X table entry, vector control -/,
  { base := 0x05419000, blk := .pcie, ro := 0xFFFFFFFF } /- MSI-X PBA word 0 -/,
  { base := 0x05419004, blk := .pcie, ro := 0xFFFFFFFF, hi := true } /- MSI-X PBA word 1 -/
]

/-- Words of the SVC registers (16_spine_host_service.md, R427). -/
def rowsSvc1 : List RegRow := [
  { base := 0x05420000, blk := .svc, ro := 0x00000FFF } /- SVC.STAT word 0 -/,
  { base := 0x05420004, blk := .svc, wo := 0x00000200, ro := 0x000001FF, image := 0x000001F0 } /- SVC.DBG word 0 -/,
  { base := 0x05420008, blk := .svc, ro := 0x0000FFFF } /- SVC.DFU_NEXT word 0 -/,
  { base := 0x05420010, blk := .svc, ro := 0xFFFFFFFF } /- SVC.CHAL word 0 -/,
  { base := 0x05420014, blk := .svc, ro := 0xFFFFFFFF, hi := true } /- SVC.CHAL word 1 -/
]

/-- Words of the VIT registers (17_vitrine_security.md, R451). -/
def rowsVit1 : List RegRow := [
  { base := 0x05300000, blk := .vit, ro := 0x000007FF } /- VIT.STAT word 0 -/,
  { base := 0x05300004, blk := .vit, wo := 0x00FFFF0F } /- VIT.KCMD word 0 -/,
  { base := 0x05300008, blk := .vit, ro := 0x0000003F } /- VIT.KSTAT word 0 -/,
  { base := 0x0530000C, blk := .vit, rw := 0x03FFFFFF } /- VIT.KSRC word 0 -/,
  { base := 0x05300010, blk := .vit, rw := 0x1FFFFFFC, ro := 0x00000003 } /- VIT.KATTR word 0 -/,
  { base := 0x05300020, blk := .vit, perReq := true, wo := 0x00FFFFFF } /- VIT.AU_CMD word 0 -/,
  { base := 0x05300024, blk := .vit, perReq := true, ro := 0x0003FFFF } /- VIT.AU_STAT word 0 -/,
  { base := 0x05300028, blk := .vit, perReq := true, rw := 0x03FFFFFF } /- VIT.AU_BUF word 0 -/,
  { base := 0x05300030, blk := .vit, perReq := true, ro := 0xFFFFFFFF } /- VIT.AU_FV word 0 -/,
  { base := 0x05300034, blk := .vit, perReq := true, ro := 0xFFFFFFFF, hi := true } /- VIT.AU_FV word 1 -/,
  { base := 0x05301000, dims := [(0x4, 256)], blk := .vit, ro := 0x1FFFFFFF } /- VIT.SLOT word 0 -/,
  { base := 0x05302000, dims := [(0x10, 1024)], blk := .vit, ro := 0x07FFFFFF, image := 0x07FFFFFF } /- VIT.BIND0 word 0 -/,
  { base := 0x05302004, dims := [(0x10, 1024)], blk := .vit, ro := 0x3FFFFFFF, image := 0x3FFFFFFF } /- VIT.BIND1 word 0 -/,
  { base := 0x05302008, dims := [(0x10, 1024)], blk := .vit, ro := 0xFFFFFFFF, image := 0xFFFFFFFF } /- VIT.BIND2 word 0 -/
]

/-- Words of the VAULT registers (17_vitrine_security.md, R451). -/
def rowsVault1 : List RegRow := [
  { base := 0x05601000, blk := .vault, ro := 0x00000003 } /- VAULT.STAT word 0 -/,
  { base := 0x05601004, blk := .vault, rwl := 0x00000007 } /- VAULT.TAMPER_CFG word 0 -/,
  { base := 0x05601008, blk := .vault, ro := 0x03FFFFFF } /- VAULT.MRAM word 0 -/,
  { base := 0x0560100C, blk := .vault, wo := 0x000000FF } /- VAULT.MC_CMD word 0 -/,
  { base := 0x05601010, blk := .vault, rw := 0xFFFFFFFF } /- VAULT.MC_ARG word 0 -/,
  { base := 0x05601014, blk := .vault, rw := 0x00FFFFFF, hi := true } /- VAULT.MC_ARG word 1 -/,
  { base := 0x05601018, blk := .vault, ro := 0x0000007F, image := 0x0000007F } /- VAULT.TLOG_CFG word 0 -/,
  { base := 0x05601020, blk := .vault, wo := 0xFFFFFFFF } /- VAULT.TLOG_APP word 0 -/,
  { base := 0x05601024, blk := .vault, wo := 0xFFFFFFFF, hi := true } /- VAULT.TLOG_APP word 1 -/,
  { base := 0x05601100, dims := [(0x8, 64)], blk := .vault, ro := 0xFFFFFFFF } /- VAULT.MC word 0 -/,
  { base := 0x05601104, dims := [(0x8, 64)], blk := .vault, ro := 0xFFFFFFFF, image := 0x7F000000, hi := true } /- VAULT.MC word 1 -/,
  { base := 0x05603000, dims := [(0x8, 1024)], blk := .vault, ro := 0xFFFFFFFF } /- VAULT.FV word 0 -/,
  { base := 0x05603004, dims := [(0x8, 1024)], blk := .vault, ro := 0xFFFFFFFF, image := 0x7F000000, hi := true } /- VAULT.FV word 1 -/,
  { base := 0x05681000, dims := [(0x20, 4096)], blk := .vault, ro := 0xFFFFFFFF } /- VAULT.TLOG word 0 -/,
  { base := 0x05681004, dims := [(0x20, 4096)], blk := .vault, ro := 0xFFFFFFFF } /- VAULT.TLOG word 1 -/,
  { base := 0x05681008, dims := [(0x20, 4096)], blk := .vault, ro := 0xFFFFFFFF } /- VAULT.TLOG word 2 -/,
  { base := 0x0568100C, dims := [(0x20, 4096)], blk := .vault, ro := 0xFFFFFFFF } /- VAULT.TLOG word 3 -/,
  { base := 0x05681010, dims := [(0x20, 4096)], blk := .vault, ro := 0xFFFFFFFF } /- VAULT.TLOG word 4 -/,
  { base := 0x05681014, dims := [(0x20, 4096)], blk := .vault, ro := 0xFFFFFFFF } /- VAULT.TLOG word 5 -/,
  { base := 0x05681018, dims := [(0x20, 4096)], blk := .vault, ro := 0xFFFFFFFF } /- VAULT.TLOG word 6 -/,
  { base := 0x0568101C, dims := [(0x20, 4096)], blk := .vault, ro := 0xFFFFFFFF } /- VAULT.TLOG word 7 -/
]

/-- Words of the UPD registers (18_update_recovery.md, R472). -/
def rowsUpd1 : List RegRow := [
  { base := 0x05700000, blk := .upd, wo := 0x00000FFF } /- UPD.CTRL word 0 -/,
  { base := 0x05700004, blk := .upd, w1c := 0x00000020, ro := 0x0001FFDF } /- UPD.STAT word 0 -/,
  { base := 0x05700008, blk := .upd, rw := 0x03FFFFF8 } /- UPD.SRC word 0 -/,
  { base := 0x0570000C, blk := .upd, rwl := 0x0FFFFFFF } /- UPD.CFG word 0 -/,
  { base := 0x05700010, blk := .upd, ro := 0xFFFFFFFF } /- UPD.VER_IMAGO word 0 -/,
  { base := 0x05700014, blk := .upd, ro := 0xFFFFFFFF } /- UPD.VER_STAGED word 0 -/,
  { base := 0x05700018, blk := .upd, ro := 0xFFFFFFFF } /- UPD.HO_LAT word 0 -/,
  { base := 0x05700020, dims := [(0x4, 8)], blk := .upd, ro := 0xFFFFFFFF } /- UPD.MAP word 0 -/,
  { base := 0x05700040, dims := [(0x4, 2)], blk := .upd, rc := 0xFFFFFFFF } /- UPD.FORCED word 0 -/
]

/-- Words of the CON registers (19_constellation.md, R487). -/
def rowsCon1 : List RegRow := [
  { base := 0x05800000, blk := .con, ro := 0x00003FFF, image := 0x0000000F } /- CON.STAT word 0 -/,
  { base := 0x05800004, blk := .con, ro := 0x00001FFF, image := 0x00001FFF } /- CON.CFG word 0 -/,
  { base := 0x05800008, blk := .con, ro := 0x7FFFFFFF, image := 0x7FFFFFFF } /- CON.THR word 0 -/,
  { base := 0x0580000C, blk := .con, ro := 0x07FFFFFF, image := 0x07FFFFFF } /- CON.AHOR word 0 -/,
  { base := 0x05800010, blk := .con, ro := 0xFFFFFFFF } /- CON.THETA word 0 -/,
  { base := 0x05800014, blk := .con, ro := 0xFFFFFFFF, hi := true } /- CON.THETA word 1 -/,
  { base := 0x05800018, blk := .con, w1c := 0x80000000, ro := 0x000003FF } /- CON.DIS word 0 -/,
  { base := 0x05800020, blk := .con, ro := 0xFFFFFFFF } /- CON.DIS_T word 0 -/,
  { base := 0x05800024, blk := .con, ro := 0xFFFFFFFF, hi := true } /- CON.DIS_T word 1 -/,
  { base := 0x05800040, dims := [(0x4, 8)], blk := .con, ro := 0xFFFFFFFF, image := 0xFFFFFFFF } /- CON.CD word 0 -/,
  { base := 0x05800100, dims := [(0x10, 8)], blk := .con, ro := 0x000003FF, image := 0x000003FF } /- CON.PEER_CFG word 0 -/,
  { base := 0x05800104, dims := [(0x10, 8)], blk := .con, ro := 0x0000001F } /- CON.PEER_STAT word 0 -/,
  { base := 0x05800108, dims := [(0x10, 8)], blk := .con, ro := 0xFFFFFFFF } /- CON.PEER_OFF word 0 -/,
  { base := 0x0580010C, dims := [(0x10, 8)], blk := .con, rc := 0xFFFFFFFF } /- CON.PEER_CNT word 0 -/,
  { base := 0x05800180, dims := [(0x4, 8)], blk := .con, rc := 0x0000FFFF } /- CON.PEER_SKIP word 0 -/
]

/-- Words of the CHIP registers (20_address_map.md, R496). -/
def rowsChip1 : List RegRow := [
  { base := 0x00000000, blk := .chip, ro := 0xFFFFFFFF } /- CHIP.ID word 0 -/,
  { base := 0x00000008, blk := .chip, ro := 0xFFFFFFFF } /- CHIP.UID word 0 -/,
  { base := 0x0000000C, blk := .chip, ro := 0xFFFFFFFF, hi := true } /- CHIP.UID word 1 -/,
  { base := 0x00000010, blk := .chip, ro := 0x00FFFFFF } /- CHIP.READY word 0 -/,
  { base := 0x00000014, blk := .chip, w1c := 0x00FFFFFF } /- CHIP.READY_CHG word 0 -/,
  { base := 0x00000018, blk := .chip, ro := 0x0000FFFF } /- CHIP.RGN_READY word 0 -/,
  { base := 0x0000001C, blk := .chip, w1c := 0x80000000, ro := 0x03FFFFFF } /- CHIP.NRACC word 0 -/,
  { base := 0x00000020, blk := .chip, w1c := 0x80000000, ro := 0x07FFFFFF } /- CHIP.UNMAP word 0 -/
]

/-- Words of the OBS registers (05_line_observation.md, R153). -/
def rowsObs3 : List RegRow := [
  { base := 0x01900000, dims := [(0x20000, 2), (0x40, 2048)], blk := .obs, ro := 0xCF0F0FFF, image := 0xCF0F0FFF } /- OBS.SIGHDR word 0 -/,
  { base := 0x01900004, dims := [(0x20000, 2), (0x40, 2048), (0x4, 12)], blk := .obs, ro := 0xFFFFFFFF, image := 0xFFFFFFFF } /- OBS.SIGFEAT word 0 -/,
  { base := 0x01A00000, dims := [(0x2000, 8), (0x4, 2048)], blk := .obs, ro := 0xFFFFFFFF } /- OBS.TRACE word 0 -/
]

/-- Every register word of the package, block by block (R489, R490). -/
def regRows : List RegRow :=
  rowsImg1 ++ rowsLp1 ++ rowsBt1 ++ rowsObs1 ++ rowsObs2 ++ rowsMop1 ++ rowsMop2 ++ rowsCat1 ++ rowsEcf1 ++ rowsGw1 ++ rowsGw2 ++ rowsRgn1 ++ rowsClu1 ++ rowsEng1 ++ rowsHall1 ++ rowsTime1 ++ rowsTime2 ++ rowsLedg1 ++ rowsCur1 ++ rowsCur2 ++ rowsPwr1 ++ rowsWatch1 ++ rowsSpn1 ++ rowsPcie1 ++ rowsSvc1 ++ rowsVit1 ++ rowsVault1 ++ rowsUpd1 ++ rowsCon1 ++ rowsChip1 ++ rowsObs3

/-- The offset `o` from a row's base is that of one of its instances. -/
def atInstance : Nat → List (Nat × Nat) → Bool
  | o, [] => o == 0
  | o, (st, n) :: ds => decide (o / st < n) && atInstance (o % st) ds

/-- The row of the register word at offset `a`; none at an offset that no register occupies (R491). -/
def rowAt (a : Nat) : Option RegRow := regRows.find? fun r => decide (r.base ≤ a) && atInstance (a - r.base) r.dims

end Sys2Proof.Machine
end

