-- ==== Sys2Proof/Machine/ImageFormat.lean ====
section
/-! DEFINITION. The structure image: file layout, digest, format rules (R38 to R42, R48), and the register values that
result when an image governs (R10, R43). The content of a section has no layout in the spec: `Config.sectionDecls` reads
it. -/

namespace Sys2Proof.Machine

open Sys2Proof.Config (Decl)

/-! ## Section types -/

/-- DEVICE. -/
def sDevice : Nat := 0x1
/-- STATIONS. -/
def sStations : Nat := 0x2
/-- PORTS. -/
def sPorts : Nat := 0x3
/-- POOLS. -/
def sPools : Nat := 0x4
/-- CATALOGUE. -/
def sCatalogue : Nat := 0x5
/-- ROUTES. -/
def sRoutes : Nat := 0x6
/-- HALLS. -/
def sHalls : Nat := 0x7
/-- LEDGER. -/
def sLedger : Nat := 0x8
/-- CURATOR. -/
def sCurator : Nat := 0x9
/-- TIME. -/
def sTime : Nat := 0xA
/-- OBSERVATION. -/
def sObservation : Nat := 0xB
/-- POWER. -/
def sPower : Nat := 0xC
/-- SPINE. -/
def sSpine : Nat := 0xD
/-- SECURITY. -/
def sSecurity : Nat := 0xE
/-- CONSTELLATION. -/
def sConstellation : Nat := 0xF
/-- REGISTERS. -/
def sRegisters : Nat := 0x10
/-- SIGNATURE. -/
def sSignature : Nat := 0xFF

/-! ## Header and section table (R38) -/

/-- A little-endian field of `n` bytes (R4). -/
def leAt (b : List Byte) (i n : Nat) : Nat := leNat ((b.drop i).take n)

/-- LENGTH. -/
def imgLength (b : List Byte) : Nat := leAt b 0x10 4

/-- VERSION. -/
def imgVersion (b : List Byte) : Nat := leAt b 0x0C 4

/-- FLAGS. -/
def imgFlags (b : List Byte) : Nat := leAt b 0x17 1

/-- LC_MASK. -/
def imgLcMask (b : List Byte) : Nat := leAt b 0x16 1

/-- NSECT. -/
def imgNsect (b : List Byte) : Nat := leAt b 0x14 2

/-- The end of the section table. -/
def tableEnd (b : List Byte) : Nat := 0x40 + 16 * imgNsect b

/-- An entry of the section table. -/
structure Sect where
  type : Nat
  sver : Nat
  off : Nat
  len : Nat
  crc : Nat
  deriving DecidableEq, Repr

/-- The section table can be used (0x0105). -/
def tableUsable (b : List Byte) : Bool :=
  imgNsect b != 0 && decide (imgNsect b ≤ 32) && decide (tableEnd b ≤ imgLength b)

/-- The entries of the section table. -/
def imgSections (b : List Byte) : List Sect :=
  if tableUsable b then
    (List.range (imgNsect b)).map fun i =>
      let e := 0x40 + 16 * i
      { type := leAt b e 2, sver := leAt b (e + 2) 2, off := leAt b (e + 4) 4, len := leAt b (e + 8) 4,
        crc := leAt b (e + 12) 4 }
  else []

/-- The bytes of a section. -/
def sectBytes (b : List Byte) (x : Sect) : List Byte := (b.drop x.off).take x.len

/-- The image has a section of a type. -/
def hasSection (b : List Byte) (t : Nat) : Bool := (imgSections b).any (·.type == t)

/-- The content of the section of a type. -/
def sectionOf (b : List Byte) (t : Nat) : List Byte :=
  match (imgSections b).find? (·.type == t) with
  | some x => sectBytes b x
  | none => []

/-- What the section of a type declares, in its order. -/
def decls (b : List Byte) (t : Nat) : List Decl :=
  if hasSection b t then Config.sectionDecls t (sectionOf b t) else []

/-- The image digest (R39): up to the SIGNATURE section, with the CRC of its table entry taken as 0. -/
def imageDigest (b : List Byte) : List Byte :=
  match (imgSections b).zipIdx.find? (·.1.type == sSignature) with
  | none => sha384 b
  | some (x, i) => sha384 ((splice b (0x40 + 16 * i + 12) [0, 0, 0, 0]).take x.off)

/-! ## Format rules (class 0x01; R38, R41, R42, R48) -/

/-- A failure: reason code, section type and entry index (R47). -/
abbrev Found : Type := Nat × Nat × Nat

/-- The failures whose condition holds. -/
def holding (l : List (Found × Bool)) : List Found := (l.filter (·.2)).map (·.1)

/-- The header rules. `len` is IMG.LEN, or the length itself at a restore. -/
def State.headerFails (s : State) (b : List Byte) (len : Nat) : List Found :=
  holding [
    ((0x0101, 0, 0), b.take 4 != [0x4C, 0x57, 0x59, 0x31]),
    ((0x0102, 0, 0), leAt b 0x04 2 != 1),
    ((0x0103, 0, 0), decide (s.get IMG_FMT_MINOR < leAt b 0x06 2)),
    ((0x0104, 0, 0), imgLength b != len || decide (0x400000 < imgLength b)),
    ((0x0105, 0, 0), !tableUsable b),
    ((0x010B, 0, 0), leAt b 0x08 2 != 0x9640 || leAt b 0x0A 1 != 1),
    ((0x010C, 0, 0), decide (s.get CHIP_ID_STEP < leAt b 0x0B 1)),
    ((0x010E, 0, 0), ((b.drop 0x20).take 32).any (· != 0) || decide (4 ≤ imgFlags b))]

/-- A section type that R41 knows. -/
def knownType (t : Nat) : Bool := (1 ≤ t && t ≤ 0x10) || t = sSignature || 0x8000 ≤ t

/-- Two sections share a byte. -/
def overlap (a b : Sect) : Bool := a.len != 0 && b.len != 0 && a.off < b.off + b.len && b.off < a.off + a.len

/-- The section at position `i` breaks a rule of R38. -/
def misplaced (b : List Byte) (x : Sect) (i : Nat) : Bool :=
  x.off % 8 != 0 || decide (imgLength b < x.off + x.len) || (x.len != 0 && decide (x.off < tableEnd b))
    || (imgSections b).zipIdx.any fun y => y.2 != i && overlap x y.1

/-- The SIGNATURE section is not the last one, or not of the form that R40 gives it. -/
def badSignature (b : List Byte) (x : Sect) (i : Nat) : Bool :=
  ((imgSections b).zipIdx.any fun y => y.2 != i && decide (x.off < y.1.off)) || x.len != 104
    || ((sectBytes b x).drop 1 |>.take 7).any (· != 0) || decide (32 ≤ ((sectBytes b x).headD 0).toNat)

/-- A byte between sections is not 0. All gaps count as one failure (DESIGN CHOICE, log 24). -/
def gapNotZero (b : List Byte) : Bool :=
  b.zipIdx.any fun x => x.1 != 0 && decide (tableEnd b ≤ x.2)
    && !(imgSections b).any fun y => decide (y.off ≤ x.2) && decide (x.2 < y.off + y.len)

/-- Sections that R41 and the DEVICE section require. -/
def requiredTypes (b : List Byte) : List Nat :=
  [sDevice, sPorts, sPools] ++ (decls b sDevice).flatMap fun d => d.aux.drop 3

/-- The rules that read the section table. -/
def State.tableFails (s : State) (b : List Byte) : List Found :=
  let ss := (imgSections b).zipIdx
  (ss.flatMap fun (x, i) => holding [
    ((0x0106, x.type, 0), !knownType x.type),
    ((0x0107, x.type, 0), x.sver = 0 || decide (s.get IMG_SVER_MAX_SVER < x.sver)),
    ((0x0108, x.type, 0), misplaced b x i),
    ((0x0109, x.type, 0), crc32 (sectBytes b x) != x.crc),
    ((0x010A, x.type, 0), decide (x.type < 0x8000) && (ss.take i).any (·.1.type == x.type)),
    ((0x010D, x.type, 0), x.type = sSignature && badSignature b x i)])
  ++ holding ((requiredTypes b).map fun t => ((0x010A, t, 0), !hasSection b t))
  ++ holding [((0x010E, 0, 0), gapNotZero b)]

/-- The failures of class 0x01. -/
def State.formatFails (s : State) (b : List Byte) (len : Nat) : List Found :=
  s.headerFails b len ++ (if tableUsable b then s.tableFails b else [])

/-! ## Register values under an image (R10, R43) -/

/-- The bits of a register word whose value comes from the image: those with reset value "image", the home and alternate
owner of a hall unit (R302), and the settings of a fault kind that is not fixed (R382). -/
def imageBits (a : Nat) : Word :=
  if 0x5501000 ≤ a && a < 0x5505000 then 0x1FFF80
  else if 0x5101000 ≤ a && a < 0x5101400 then (if (resetWord a).getLsbD 7 then 0 else 0x37F)
  else match rowAt a with
    | some r => r.image
    | none => 0

/-- The RWL bits of a register word. -/
def rwlBits (a : Nat) : Word :=
  match rowAt a with
  | some r => r.rwl
  | none => 0

/-- The bits that the device derives itself and no section names (R43): TBL_CFG0.BASE, RT_LEGS.M, BUF and PORT of a
descriptor. -/
def derivedBits (a : Nat) : Word :=
  if 0x2801000 ≤ a && a < 0x2801800 && a % 8 = 0 then 0x7FFF
  else if 0x3001000 ≤ a && a < 0x3009000 && a % 32 = 16 then 0xFFFF0000
  else if 0x2400000 ≤ a && a < 0x2600000 && a % 32 = 16 then 0x03FFFFF8
  else if 0x2400000 ≤ a && a < 0x2600000 && a % 32 = 20 then 0x7F
  else 0

/-- The bits that REGISTERS can name: RWL fields and fields with reset value "image" that the device does not derive
(R43). -/
def registerBits (a : Nat) : Word :=
  ((match rowAt a with
    | some r => r.image
    | none => 0) ||| rwlBits a) &&& ~~~(derivedBits a)

/-- The bits that a declaration of another section can give. -/
def declBits (a : Nat) : Word := (imageBits a ||| rwlBits a) &&& ~~~(derivedBits a)

/-- Words that the store fills itself: catalogue entries and descriptors. -/
def storeWord (a : Nat) : Bool := (0x2400000 ≤ a && a < 0x2600000) || (0x2900000 ≤ a && a < 0x2A00000)

/-- The register space with every image field back at the value it has when no section declares it. -/
def undeclared : SMap Word → SMap Word
  | [] => []
  | (a, w) :: m =>
    let i := if storeWord a then 0 else imageBits a &&& ~~~(derivedBits a)
    let v := (w &&& ~~~i) ||| (resetWord a &&& i)
    if v = resetWord a then undeclared m else (a, v) :: undeclared m

/-- Apply a declared value to the bits `m` of its word. -/
def State.declare (s : State) (m : Word) (v : Nat × Word × Word) : State :=
  let k := v.2.1 &&& m
  s.setWord v.1 ((s.word v.1 &&& ~~~k) ||| (v.2.2 &&& k))

/-- Apply the values of declarations, to the bits that `m` gives for each word. -/
def State.declareAll (s : State) (m : Nat → Word) (ds : List Decl) : State :=
  s.each ds fun s d => s.each d.vals fun s v => s.declare (m v.1) v

/-- A word as REGISTERS leaves it (R43). -/
def registerWord (b : List Byte) (a : Nat) (w : Word) : Word :=
  ((decls b sRegisters).flatMap (·.vals)).foldl (fun w v =>
    if v.1 = a then (w &&& ~~~(v.2.1 &&& registerBits a)) ||| (v.2.2 &&& (v.2.1 &&& registerBits a)) else w) w

/-- The catalogue indexes whose words REGISTERS names. -/
def registerEntries (b : List Byte) : List Nat :=
  ((((decls b sRegisters).flatMap (·.vals)).filter fun v => 0x2900000 ≤ v.1 && v.1 < 0x2A00000).map
    fun v => (v.1 - 0x2900000) / 32).eraseDups

/-- A declaration gives a value for the word at `a`. -/
def declares (d : Decl) (a : Nat) : Bool := d.vals.any (·.1 == a)

/-- Routes declared, in section order. -/
def routesOf (b : List Byte) : List Decl := (decls b sRoutes).filter (·.kind == 0)

/-- Default values of the chapters: the horizon of a route (R44) and the PLCA parameters of a mixing segment (R113). -/
def State.defaults (s : State) (b : List Byte) : State :=
  let s := s.each (routesOf b) fun s d =>
    if declares d (GW_RT_H_NS d.num).addr then s else s.set (GW_RT_H_NS d.num) 25000
  s.each (decls b sPorts) fun s d =>
    let n := d.num
    if s.get (LP_CFG_MODE n) = 6 && !s.flag (LP_CFG_P2P n) then
      let given := fun (l : Loc) => d.vals.any fun v => v.1 == l.addr && bitsOf v.2.1 l.lo l.len != 0
      let s := if given (BT_PLCA_NCOUNT n) || s.get (BT_PLCA_NODE_ID n) != 0 then s
        else s.set (BT_PLCA_NCOUNT n) (s.get (LP_CFG_NODES n))
      let s := if given (BT_PLCA_TO_TMR n) then s else s.set (BT_PLCA_TO_TMR n) 32
      if given (BT_PLCA_TMR_BURST_TMR n) then s else s.set (BT_PLCA_TMR_BURST_TMR n) 128
    else s

/-- The member of the constellation whose identity is the package's own (R473). -/
def State.ownMember (s : State) (b : List Byte) : Option Decl :=
  (decls b sConstellation).find? fun d => d.kind == 0 && d.aux.headD 0 == beNat (s.deviceIdentity.take 8)

/-- Fields that the device derives from the image (R37, R236, R238, R473). -/
def State.derived (s : State) (b : List Byte) : State :=
  let s := s.set GW_STAT_NROUTE (routesOf b).length
  let s := s.set GW_STAT_NLEG ((routesOf b).map (·.aux.length)).sum
  let s := s.each (List.range 16) fun s r =>
    s.set (RGN_STAT_CLUSTERS r) (((List.range 8).filter fun k => s.flag (CLU_CFG_ASSIGNED (8 * r + k))).map (2 ^ ·)).sum
  let s := s.each ((routesOf b).flatMap (·.aux)) fun s l =>
    if s.get (GW_LEG_CFG_KIND l) = 1 then
      s.set (GW_LEG_Q_QDEPTH l) (s.get (MOP_POOL_CFG0_COUNT_M1 (s.get (GW_LEG_CFG_POOL l))) + 1)
    else s
  let s := s.put CON_STAT_MEMBER (hasSection b sConstellation)
  match s.ownMember b with
  | some d => s.set CON_STAT_SELF d.num
  | none => s.set CON_STAT_SELF 0

/-- RT_LEGS.M of every route. -/
def State.deriveM (s : State) (b : List Byte) : State :=
  s.each (routesOf b) fun s d => s.set (GW_RT_LEGS_M d.num) (min 65535 (s.windowM d.num))

/-- PORTQ.ORDER of a 10BASE-T1S port: always FIFO (R174). -/
def State.ethOrder (s : State) (b : List Byte) : State :=
  s.each (decls b sPorts) fun s d => if s.get (LP_CFG_MODE d.num) = 6 then s.put (MOP_PORTQ_ORDER d.num) true else s

/-- The registers as they read when every field of them is that of image `b` (R10, R43): the sections, then REGISTERS.
Catalogue entries are filled by the store. -/
def State.candidate (s : State) (b : List Byte) : State :=
  let s := { s with regs := undeclared s.regs }
  let s := s.declareAll declBits ((List.range 15).flatMap fun t => decls b (t + 1))
  let s := ((s.defaults b).derived b).declareAll (fun a => if storeWord a then 0 else registerBits a) (decls b sRegisters)
  (s.deriveM b).ethOrder b

end Sys2Proof.Machine
end

