-- ==== Sys2Proof/Machine/ImageCheck.lean ====
section
/-! DEFINITION. The enable check (R43 to R49): every rule of the table "Enable reason codes" over the register values that
an image gives. A failure is a reason code with the section type and the position of the declaration at fault. -/

namespace Sys2Proof.Machine

open Sys2Proof.Config (Decl)

/-- The failures of a rule over the declarations of a section; the rule sees a declaration and its position. -/
def failsAt (code t : Nat) (ds : List Decl) (p : Decl → Nat → Bool) : List Found :=
  (ds.zipIdx.filter fun x => p x.1 x.2).map fun x => (code, t, x.2)

/-- An earlier declaration of the section meets a condition. -/
def beforeIn (ds : List Decl) (i : Nat) (p : Decl → Bool) : Bool := (ds.take i).any p

/-- A count over the declarations up to position `i` passes a limit there. -/
def crosses (ds : List Decl) (i lim : Nat) (f : Decl → Nat) : Bool :=
  decide (lim < ((ds.take (i + 1)).map f).sum) && decide (((ds.take i).map f).sum ≤ lim)

/-- Two ranges of `n` and `m` places from `a` and `b` share a place. -/
def rangesMeet (a n b m : Nat) : Bool := n != 0 && m != 0 && decide (a < b + m) && decide (b < a + n)

/-- Unit `u` has a byte in the hall offsets `first` to `last` (R300, R301). -/
def unitMeets (u first last : Nat) : Bool :=
  let base := u / 1024 * 2 ^ 24 + u / 64 % 16 * 2 ^ 20
  let lo := max first base
  let hi := min last (base + 2 ^ 20 - 1)
  decide (lo ≤ hi) && (List.range 64).any fun i => decide (lo / 8 + i ≤ hi / 8) && (lo / 8 + i) % 64 = u % 64

/-- The units with a byte in a range of hall offsets. -/
def unitsIn (first last : Nat) : List Nat := (List.range 4096).filter fun u => unitMeets u first last

/-! ## Pools, catalogue and quotas (class 0x02) -/

/-- The first slot after a pool. -/
def State.poolEnd (s : State) (p : Nat) : Nat := s.get (MOP_POOL_CFG0_BASE p) + s.get (MOP_POOL_CFG0_COUNT_M1 p) + 1

/-- Slots of a pool. -/
def State.poolCount (s : State) (p : Nat) : Nat := s.get (MOP_POOL_CFG0_COUNT_M1 p) + 1

/-- Bytes of a frame-store pool. -/
def State.fspSize (s : State) (f : Nat) : Nat := s.get (MOP_FSP_CNT_NLARGE f) * 2048 + s.get (MOP_FSP_CNT_NSMALL f) * 64

/-- Pools and frame-store pools that an image declares. -/
def poolDecls (b : List Byte) (kind : Nat) : List Decl := (decls b sPools).filter (·.kind == kind)

/-- Fixed buffers of a class that the TX and MBX pools of frame-store pool `f` need (R160). -/
def State.fixedNeed (s : State) (b : List Byte) (f : Nat) (large : Bool) : Nat :=
  ((poolDecls b 0).map fun d =>
    if s.get (MOP_POOL_CFG1_FSP d.num) = f && s.flag (MOP_POOL_CFG1_BUFCLASS d.num) = large then
      (if s.get (MOP_POOL_CFG1_KIND d.num) = kindTX then s.poolCount d.num
       else if s.get (MOP_POOL_CFG1_KIND d.num) = kindMBX then 2 * s.poolCount d.num else 0)
    else 0).sum

/-- The version of a table under an image, placed at `base`. -/
def State.newTable (s : State) (t base : Nat) : TableVer := { s.tableOf t with base }

/-- Indexes that a table takes. -/
def TableVer.size (t : TableVer) : Nat := t.hashLen + t.nord

/-- Catalogue tables that an image declares. -/
def tableDecls (b : List Byte) : List Decl := (decls b sCatalogue).filter (·.kind == 0)

/-- The lowest base from which `n` indexes lie free beside the ranges `used`. -/
def firstFit (used : List (Nat × Nat)) (n : Nat) : Option Nat :=
  ((0 :: used.map fun u => u.1 + u.2).filter fun a =>
    decide (a + n ≤ 32768) && !used.any fun u => rangesMeet a n u.1 u.2).min?

/-- The declaration of table `t` is byte-identical in the governing image. -/
def sameTable (old new : List Byte) (t : Nat) : Bool :=
  match (tableDecls old).find? (·.num == t), (tableDecls new).find? (·.num == t) with
  | some a, some b => a.raw == b.raw
  | _, _ => false

/-- The tables in the store now, with their bases. -/
def State.storedTables (s : State) : List (Nat × Nat) :=
  (s.img.bases.filter fun x => s.flag (CAT_TBL_CFG0_VALID x.1)).map fun x => (x.2, (s.tableOf x.1).size)

/-- Where the tables of image `b` go (R192, R209): in table order from index 0, or at a live epoch beside the governing
layout, where a byte-identical table stays. `c` holds the new table registers. A table that does not fit has no base. -/
def State.placing (s c : State) (b : List Byte) (live : Bool) : List (Nat × Option Nat) :=
  let ts := (List.range 256).filter fun t => (tableDecls b).any (·.num == t)
  let go := ts.foldl (fun (acc : List (Nat × Option Nat) × List (Nat × Nat) × Nat) t =>
    let n := (c.newTable t 0).size
    if live && sameTable s.img.gov b t then
      (acc.1 ++ [(t, some ((s.img.bases.lookup t).getD 0))], acc.2.1, acc.2.2)
    else
      let at_ := if live then firstFit acc.2.1 n else if acc.2.2 + n ≤ 32768 then some acc.2.2 else none
      (acc.1 ++ [(t, at_)], (match at_ with
        | some a => (a, n) :: acc.2.1
        | none => acc.2.1), acc.2.2 + n)) ([], if live then s.storedTables else [], 0)
  go.1

/-- Put exact entries into the lowest empty way of their buckets (R193): entries by index; none when a bucket overflows. -/
def fillExact (t : TableVer) : List (List Word) → List (Nat × List Word) → Option (List (Nat × List Word))
  | [], m => some m
  | w :: ws, m =>
    match (t.ways ((w.getD 0 0).getLsbD 7) (bitsOf (w.getD 1 0) 0 29)).find? fun i => !m.any (·.1 == i) with
    | some i => fillExact t ws (m ++ [(i, w)])
    | none => none

/-- The entries of a table by index (R193). -/
def tableEntries (t : TableVer) (d : Decl) : List (Nat × List Word) :=
  (fillExact t d.exact []).getD [] ++ d.ordered.zipIdx.map fun x => (t.ordBase + x.2, x.1)

/-- The content of a table under image `b` by index: the entries that its section lists, EMPTY elsewhere, as REGISTERS leaves
them (R43). -/
def tableContent (b : List Byte) (t : TableVer) (d : Decl) : List (Nat × List Word) :=
  let es := tableEntries t d
  let more := (registerEntries b).filter fun i => t.inTable i && !es.any (·.1 == i)
  (es ++ more.map fun i => (i, ([] : List Word))).map fun (x : Nat × List Word) =>
    (x.1, (List.range 8).map fun k => registerWord b (CAT_ENTRY_W x.1 k).addr (x.2.getD k 0))

/-- Halls, rings, pools and quotas (0x0201 to 0x020A). `s` is the present state and `c` the registers under image `b`. -/
def State.allocFails (s c : State) (b : List Byte) (live : Bool) : List Found :=
  let st := decls b sStations
  let po := decls b sPools
  let ro := decls b sRoutes
  let le := decls b sLedger
  let isPool := fun (d : Decl) => d.kind == 0
  let kind := fun (d : Decl) => c.get (MOP_POOL_CFG1_KIND d.num)
  let port := fun (d : Decl) => c.get (MOP_POOL_CFG1_PORT d.num)
  let owner := fun (d : Decl) => c.get (MOP_POOL_CFG1_OWNER d.num)
  let fsp := fun (d : Decl) => c.get (MOP_POOL_CFG1_FSP d.num)
  let places := s.placing c b live
  let ringLen := fun (d : Decl) => 16 * 2 ^ c.get (LEDG_RING_CFG_L d.num)
  failsAt 0x0201 sStations st (fun d i => d.aux.any fun x => 127 < x || beforeIn st i fun e => e.aux.contains x)
  ++ failsAt 0x0202 sStations st (fun d i => decide (64 ≤ i) || decide (64 ≤ d.num))
  ++ failsAt 0x0203 sPools po (fun d i =>
    if isPool d then
      decide (1024 ≤ d.num) || decide (1024 ≤ ((po.take i).filter isPool).length) || decide (65536 < c.poolEnd d.num)
        || (beforeIn po i fun e => isPool e
              && rangesMeet (c.get (MOP_POOL_CFG0_BASE d.num)) (c.poolCount d.num)
                   (c.get (MOP_POOL_CFG0_BASE e.num)) (c.poolCount e.num))
        || (kind d = kindRX && decide (owner d < 64)
              && beforeIn po i fun e => isPool e && kind e == kindRX && owner e == owner d && port e == port d)
    else decide (256 ≤ d.num) || decide (256 ≤ ((po.take i).filter fun e => !isPool e).length))
  ++ failsAt 0x0203 sRoutes ro (fun d i => d.kind == 0 && (c.legsOf d.num).zipIdx.any fun (l, j) =>
      c.get (GW_LEG_CFG_KIND l) = 1 &&
        (let p := c.get (GW_LEG_CFG_POOL l)
         let same := fun (m : Nat) => c.get (GW_LEG_CFG_KIND m) == 1 && c.get (GW_LEG_CFG_POOL m) == p
         ((c.legsOf d.num).take j).any same || (beforeIn ro i fun e => e.kind == 0 && (c.legsOf e.num).any same)
         || c.get (MOP_POOL_CFG1_KIND p) != kindTX || c.get (MOP_POOL_CFG1_OWNER p) != 65
         || c.get (MOP_POOL_CFG1_PORT p) != c.get (GW_LEG_CFG_TARGET l)))
  ++ failsAt 0x0204 sPools po (fun d i => isPool d && kind d = kindMBX
      && crosses po i 512 fun e => if isPool e && kind e == kindMBX && port e == port d then c.poolCount e.num else 0)
  ++ failsAt 0x0205 sCatalogue (decls b sCatalogue) (fun d _ => d.kind == 0
      && (let t := c.newTable d.num (((places.lookup d.num).getD none).getD 0)
          (places.lookup d.num).getD none = none || (!t.hash && !d.exact.isEmpty)
            || (t.hash && (fillExact t d.exact []).isNone) || decide (t.nord < d.ordered.length)))
  ++ failsAt 0x0206 sRoutes ro (fun d i => d.kind == 0
      && (decide (1024 ≤ d.num) || decide (1024 ≤ ((ro.take i).filter (·.kind == 0)).length) || d.aux.isEmpty
            || decide (4 < d.aux.length) || d.aux.any (1024 ≤ ·)
            || d.aux != (List.range d.aux.length).map (d.aux.headD 0 + ·)
            || beforeIn ro i fun e => e.kind == 0 && e.aux.any d.aux.contains))
  ++ failsAt 0x0207 sLedger le (fun d i => d.kind == 0
      && (decide (64 ≤ d.num) || beforeIn le i fun e => e.kind == 0
            && rangesMeet (c.get (LEDG_RING_BASE_BASE d.num) * 16) (ringLen d)
                 (c.get (LEDG_RING_BASE_BASE e.num) * 16) (ringLen e)))
  ++ failsAt 0x0208 sPools po (fun d i =>
    if isPool d then !(poolDecls b 1).any (·.num == fsp d)
    else
      let f := d.num
      decide (2 ^ 24 < c.fspBase f % 2 ^ 24 + c.fspSize f)
        || (beforeIn po i fun e => !isPool e && rangesMeet (c.fspBase f) (c.fspSize f) (c.fspBase e.num) (c.fspSize e.num))
        || decide (c.get (MOP_FSP_CNT_NSMALL f) < c.fixedNeed b f false)
        || decide (c.get (MOP_FSP_CNT_NLARGE f) < c.fixedNeed b f true))
  ++ failsAt 0x0209 sStations st (fun d i =>
      let ways := fun (k : Nat) => c.get (RGN_PART_WAYS (k / 8) (k % 8))
      let cred := fun (r : Nat) (e : Decl) => match e.aux.find? (· / 8 == r) with
        | some k => c.get (RGN_PART_CRED r (k % 8))
        | none => 0
      (d.aux.any fun k => ways k = 0 || beforeIn st i fun e => e.aux.any fun j => j / 8 == k / 8 && (ways j &&& ways k) != 0)
        || (List.range 16).any fun r => d.aux.any (· / 8 == r) && crosses st i 32 (cred r))
  ++ (if live then
        ((List.range 128).filter fun k =>
            s.word (CLU_CFG_STATION k).addr != c.word (CLU_CFG_STATION k).addr
              && (clusterEngines k).any fun e => decide (2 ≤ s.estate e) && decide (s.estate e ≤ 3)).map fun k =>
          (0x020A, sStations, (st.findIdx? fun d => d.aux.contains k).getD 0)
      else [])

/-! ## Ports and topology (class 0x03) -/

/-- A timing set is unused: all its fields are 0. -/
def zeroSet (l : List Nat) : Bool := l.all (· == 0)

/-- The rules of R104 for a nominal set and R105. -/
def State.nominalBad (c : State) (n : Nat) : Bool :=
  let brp := c.get (BT_PRESC_NBRP n)
  let s1 := c.get (BT_NTIM_NTSEG1 n)
  let s2 := c.get (BT_NTIM_NTSEG2 n)
  let sjw := c.get (BT_NTIM_NSJW n)
  brp < 1 || 1024 < brp || s1 < 2 || 256 < s1 || s2 < 1 || 128 < s2 || sjw < 1 || 128 < sjw || s2 < sjw
    || 1 + s1 + s2 < 8 || 385 < 1 + s1 + s2 || 64000 < brp * (1 + s1 + s2)
    || (s1 - sjw) * brp * 125 < 30000 + 88 * c.get (LP_TOPO_LEN n)

/-- The rules of R104 for a data set: prescaler, segments, SJW and TDCO, with the nominal bit in samples. -/
def dataBad (brp s1 s2 sjw tdco nominal : Nat) : Bool :=
  brp < 1 || 32 < brp || s1 < 1 || 128 < s1 || s2 < 1 || 64 < s2 || sjw < 1 || 64 < sjw || s2 < sjw
    || 1 + s1 + s2 < 8 || 193 < 1 + s1 + s2 || nominal < brp * (1 + s1 + s2) || brp * (1 + s1 + s2) < tdco

/-- 0x0302: ranges, unused sets, R105, and R110 of an XL-40 port. -/
def State.timingBad (c : State) (n : Nat) : Bool :=
  let m := c.get (LP_CFG_MODE n)
  let t := c.bitTimes n
  let nom := [c.get (BT_PRESC_NBRP n), c.get (BT_NTIM_NTSEG1 n), c.get (BT_NTIM_NTSEG2 n), c.get (BT_NTIM_NSJW n)]
  let fd := [c.get (BT_PRESC_DBRP n), c.get (BT_DTIM_DTSEG1 n), c.get (BT_DTIM_DTSEG2 n), c.get (BT_DTIM_DSJW n),
    c.get (BT_DTIM_TDCO n)]
  let xl := [c.get (BT_PRESC_XBRP n), c.get (BT_XTIM_XTSEG1 n), c.get (BT_XTIM_XTSEG2 n), c.get (BT_XTIM_XSJW n),
    c.get (BT_XTIM_XTDCO n)]
  let bad := fun (l : List Nat) =>
    dataBad (l.getD 0 0) (l.getD 1 0) (l.getD 2 0) (l.getD 3 0) (l.getD 4 0) t.ta
  (if isCanMode m then c.nominalBad n else !zeroSet nom)
    || (if m = 2 || m = 3 then bad fd
        else if m = 4 || m = 5 then (c.flag (BT_CFG_FD_IN_XL n) || !zeroSet fd) && bad fd
        else !zeroSet fd)
    || (if m = 4 || m = 5 then bad xl else !zeroSet xl)
    || (m = 5 && (c.get (BT_PRESC_XBRP n) != 1 || 1 + xl.getD 1 0 + xl.getD 2 0 != 16 || decide (xl.getD 1 0 < 9)
          || decide (11 < xl.getD 1 0) || decide (xl.getD 3 0 < 2)))

/-- 0x0303: a bit rate above the maximum of the mode; 640 samples are 1 µs (R66, R104, R110). -/
def State.rateBad (c : State) (n : Nat) : Bool :=
  let m := c.get (LP_CFG_MODE n)
  let t := c.bitTimes n
  isCanMode m && (decide (t.ta < 640) || (t.td != 0 && decide (t.td < 80))
    || (m = 4 && decide (t.tx < 32)) || (m = 5 && decide (t.tx < 16)))

/-- The row of the table "Declared topology limits" that a port breaks (R70): most nodes, length in 0.1 m, stub in cm,
termination code of a segment end. -/
def State.topoBad (c : State) (n : Nat) : Bool :=
  let (nodes, len, stub, term) : Nat × Nat × Nat × Nat :=
    match c.get (LP_CFG_MODE n) with
    | 1 => (64, 1000, 300, 1)
    | 2 => (32, 400, 100, 1)
    | 3 => (32, 400, 300, 1)
    | 4 => (16, 250, 100, 1)
    | 5 => (8, 100, 30, 1)
    | _ => if c.flag (LP_CFG_P2P n) then (2, 150, 0, 2) else (8, 250, 10, 2)
  c.get (LP_CFG_NODES n) < 2 || nodes < c.get (LP_CFG_NODES n) || len < c.get (LP_TOPO_LEN n)
    || stub < c.get (LP_TOPO_STUB n) || (c.get (LP_CFG_TERM n) != 0 && c.get (LP_CFG_TERM n) != term)

/-- The mode of a port cannot carry its beacon (R121). -/
def State.beaconBad (c : State) (n : Nat) : Bool :=
  c.flag (BT_BCN_CFG_EN n)
    && (c.get (BT_BCN_CFG_FRAME n) = 3 || c.get (BT_BCN_CFG_FMT n) = 3
        || !carries (c.get (LP_CFG_MODE n)) (c.flag (BT_CFG_FD_IN_XL n)) (c.get (BT_BCN_CFG_FRAME n))
        || (c.get (BT_BCN_CFG_FRAME n) = 0 && c.get (BT_BCN_CFG_FMT n) != 0))

/-- The wake kind of a port does not fit its mode or rate (R94). -/
def State.wakeBad (c : State) (n : Nat) : Bool :=
  if c.get (LP_WAKE_CFG_KIND n) = 2 then c.get (LP_CFG_MODE n) != 6
  else c.get (LP_CFG_MODE n) = 6 || (c.get (LP_WAKE_CFG_KIND n) = 1 && decide (12800 < (c.bitTimes n).ta))

/-- Ports (0x0301 to 0x0308). -/
def State.portFails (c : State) (b : List Byte) : List Found :=
  let ps := decls b sPorts
  let mode := fun (d : Decl) => c.get (LP_CFG_MODE d.num)
  let plca := fun (d : Decl) => mode d == 6 && !c.flag (LP_CFG_P2P d.num)
  let node := fun (d : Decl) => c.get (BT_PLCA_NODE_ID d.num)
  failsAt 0x0301 sPorts ps (fun d _ => mode d = 7 || c.wakeBad d.num || c.beaconBad d.num || c.get (BT_CTRL_OPMODE d.num) = 3)
  ++ failsAt 0x0302 sPorts ps (fun d _ => mode d != 7 && c.timingBad d.num)
  ++ failsAt 0x0303 sPorts ps (fun d _ => c.rateBad d.num)
  ++ failsAt 0x0304 sPorts ps (fun d _ => mode d = 5 && (!c.flag (LP_CFG_XL40_SEG d.num) || c.topoBad d.num))
  ++ failsAt 0x0305 sPorts ps (fun d _ => mode d != 0 && mode d != 5 && mode d != 7 && c.topoBad d.num)
  ++ failsAt 0x0306 sPorts ps (fun d i => plca d
      && (decide (c.get (LP_CFG_NODES d.num) ≤ node d)
          || (beforeIn ps i fun e => plca e && e.aux.headD 0 == d.aux.headD 0 && node e == node d)
          || (node d = 0 && c.get (BT_PLCA_NCOUNT d.num) != c.get (LP_CFG_NODES d.num))))
  ++ failsAt 0x0307 sPorts ps (fun _ i => crosses ps i 16 fun e => if c.flag (LP_CFG_WATCH e.num) then 1 else 0)
  ++ failsAt 0x0308 sPorts ps (fun d i => decide (127 < d.num) || beforeIn ps i fun e => e.num == d.num)

/-! ## Routes (class 0x04) -/

/-- A format that an entry admits: format, IDE and remote. -/
abbrev Form : Type := Nat × Bool × Bool

/-- The forms that an entry admits in FMTS and RMT (R197). -/
def entryForms (w : List Word) : List Form :=
  let w0 := w.getD 0 0
  let ide := w0.getLsbD 7
  match bitsOf w0 0 3 with
  | 0 => []
  | 4 => [(fmtXL, false, false)]
  | _ =>
    (if w0.getLsbD 3 then
      (if bitsOf w0 8 2 != 1 then [(fmtCC, ide, false)] else [])
        ++ (if bitsOf w0 8 2 != 0 then [(fmtCC, ide, true)] else [])
     else [])
    ++ if bitsOf w0 8 2 = 1 then []
       else (if w0.getLsbD 4 then [(fmtFD, ide, false)] else []) ++ (if w0.getLsbD 5 then [(fmtXL, ide, false)] else [])
          ++ (if w0.getLsbD 6 then [(fmtEth, ide, false)] else [])

/-- The forms that the catalogue entries which name route `r` admit in FMTS (R239). A tunnel route has no entries. -/
def entriesForms (b : List Byte) (r : Nat) : List Form :=
  (((tableDecls b).flatMap fun d => d.exact ++ d.ordered).filter fun w =>
    bitsOf (w.getD 6 0) 16 2 = 2 && bitsOf (w.getD 6 0) 0 16 = r).flatMap entryForms

/-- The forms that can reach route `r`: those of its entries that its ingress port can carry; CAN CC and CAN FD from a tunnel
(R237, R263). -/
def State.routeForms (c : State) (b : List Byte) (r : Nat) : List Form :=
  if c.flag (GW_RT_CFG_SRC r) then
    [(fmtCC, false, false), (fmtCC, true, false), (fmtCC, false, true), (fmtCC, true, true), (fmtFD, false, false),
      (fmtFD, true, false)]
  else (entriesForms b r).filter fun x => c.portCarries (c.get (GW_RT_CFG_PORT r)) x.1

/-- The largest data length of a form, and the longest Ethernet frame. -/
def formLen (x : Form) : Nat :=
  match x.1 with
  | 0 => if x.2.2 then 0 else 8
  | 1 => 64
  | 2 => 2048
  | _ => 1522

/-- The duration of the longest frame of a form with `len` data bytes on a port, in 1/16 ns (R109). -/
def State.longest (c : State) (n : Nat) (brs : Bool) (len : Nat) (x : Form) : Nat :=
  longestUnits x.1 x.2.1 brs len (c.bitTimes n)

/-- D of a route in 1/16 ns (R44, R109, R245). -/
def State.routeD (c : State) (b : List Byte) (r : Nat) : Nat :=
  if c.flag (GW_RT_CFG_SRC r) then 32000
  else ((c.routeForms b r).map fun x => c.longest (c.get (GW_RT_CFG_PORT r)) true (formLen x) x).foldl max 0

/-- The form that a leg sends for an ingress form; none where the table "Format conversions" refuses it (R239). -/
def State.converted (c : State) (l : Nat) (x : Form) : Option Form :=
  match c.get (GW_LEG_CFG_FMT l) with
  | 0 => some x
  | 1 => if x.1 = fmtCC then some x else none
  | _ => if x.1 ≤ fmtFD && !x.2.2 then some (fmtFD, x.2.1, false) else none

/-- A leg cannot forward a form (R239). -/
def State.legRefuses (c : State) (l : Nat) (x : Form) : Bool :=
  match c.converted l x with
  | none => true
  | some y =>
    (c.get (GW_LEG_CFG_KIND l) = 1 && !c.portCarries (c.get (GW_LEG_CFG_TARGET l)) y.1)
      || (c.flag (GW_LEG_CFG_IDREP l) && (y.1 = fmtEth || (y.1 = fmtXL && c.flag (GW_LEG_ID_IDE l))))
      || (c.get (GW_LEG_CFG_KIND l) = 2 && decide (fmtFD < y.1))

/-- The longest frame that a leg sends on port `q` for an ingress form: a converted CAN CC frame keeps its length, and BRS is
dominant where the leg or the port sends it so (R101, R109, R239). -/
def State.legLongest (c : State) (q l : Nat) (x : Form) : Nat :=
  match c.converted l x with
  | none => 0
  | some y =>
    let y : Form := if c.flag (GW_LEG_CFG_IDREP l) then (y.1, c.flag (GW_LEG_ID_IDE l), y.2.2) else y
    if c.portCarries q y.1 then
      c.longest q (c.flag (BT_CFG_BRS_EN q) && c.get (GW_LEG_CFG_FMT l) != 2) (formLen (if y.1 = fmtFD then x else y)) y
    else 0

/-- The load of the legs of a route on egress port `q`, and the longest frame it sends there (R45). -/
def State.egressOf (c : State) (b : List Byte) (q r : Nat) : Nat × Nat :=
  let ls := (c.legsOf r).filter fun l => c.get (GW_LEG_CFG_KIND l) = 1 && c.get (GW_LEG_CFG_TARGET l) = q
  (ls.length * max 1 (c.get (GW_RT_BUD_BUDGET r)),
   (ls.flatMap fun l => (c.routeForms b r).map (c.legLongest q l)).foldl max 0)

/-- The target code of a leg does not fit its kind, or names an undeclared port or stream (R238). -/
def State.targetBad (c : State) (port stream : Nat → Bool) (l : Nat) : Bool :=
  let t := c.get (GW_LEG_CFG_TARGET l)
  match c.get (GW_LEG_CFG_KIND l) with
  | 1 => !port t
  | 2 => t < 128 || 192 ≤ t || !stream (t - 128)
  | 3 => t < 192 || 200 ≤ t
  | _ => false

/-- The load budgets of the routes up to a position exceed what an egress port carries (R45). -/
def State.overload (c : State) (b : List Byte) (q : Nat) (rs : List Decl) : Bool :=
  let l := (rs.filter (·.kind == 0)).map fun d => c.egressOf b q d.num
  decide (16000000000 < (l.map (·.1)).sum * (l.map (·.2)).foldl max 0)

/-- An Ethernet lane; with an alternate in use, both lanes are (R412). -/
def State.onEthernet (c : State) (st : Nat) : Bool :=
  c.isEthLane (c.get (SPN_STR_CFG_LANE st)) && (!c.flag (SPN_STR_CFG_ALT_EN st) || c.isEthLane (c.get (SPN_STR_CFG_ALT st)))

/-- A NATIVE lane; with an alternate in use, both lanes are (R475). -/
def State.onNative (c : State) (st : Nat) : Bool :=
  c.get (SPN_LANE_CFG_MODE (c.get (SPN_STR_CFG_LANE st))) = 3
    && (!c.flag (SPN_STR_CFG_ALT_EN st) || c.get (SPN_LANE_CFG_MODE (c.get (SPN_STR_CFG_ALT st))) = 3)

/-- Routes (0x0401 to 0x0407). -/
def State.routeFails (c : State) (b : List Byte) : List Found :=
  let ro := decls b sRoutes
  let sp := decls b sSpine
  let rule := fun (code : Nat) (p : Nat → Bool) => failsAt code sRoutes ro fun d _ => d.kind == 0 && p d.num
  let port := fun (n : Nat) => (decls b sPorts).any (·.num == n)
  let stream := fun (st : Nat) => sp.any fun d => d.kind == 1 && d.num == st
  let src := fun (r : Nat) => c.flag (GW_RT_CFG_SRC r)
  let kind := fun (l : Nat) => c.get (GW_LEG_CFG_KIND l)
  let target := fun (l : Nat) => c.get (GW_LEG_CFG_TARGET l)
  rule 0x0401 (fun r => (if src r then !stream (c.get (GW_RT_CFG_STREAM r)) else !port (c.get (GW_RT_CFG_PORT r)))
    || (c.legsOf r).any (c.targetBad port stream))
  ++ rule 0x0402 (fun r => decide (c.get (GW_RT_H_NS r) < c.get (GW_RT_HMIN_NS r))
    || decide (c.get (GW_RT_HMIN_NS r) * 16 < c.routeD b r + 64000) || decide (100000000 < c.get (GW_RT_H_NS r)))
  ++ failsAt 0x0403 sRoutes ro (fun d i => d.kind == 0 && (List.range 128).any fun q =>
      ((c.legsOf d.num).any fun l => kind l == 1 && target l == q)
        && c.overload b q (ro.take (i + 1)) && !c.overload b q (ro.take i))
  ++ rule 0x0404 (fun r => (c.legsOf r).any fun l =>
      decide (c.get (GW_LEG_Q_QDEPTH l) * 1000000000 < max 1 (c.get (GW_RT_BUD_BUDGET r)) * c.get (GW_RT_H_NS r)))
  ++ rule 0x0405 (fun r => (c.legsOf r).any fun l =>
      if src r then kind l == 2 && target l == 128 + c.get (GW_RT_CFG_STREAM r)
        && c.get (GW_LEG_CFG_BUSID l) == c.get (GW_RT_CFG_BUSID r)
      else kind l == 1 && target l == c.get (GW_RT_CFG_PORT r))
  ++ rule 0x0406 (fun r => !c.flag (GW_RT_CFG_SRC r) && (c.legsOf r).any fun l => (entriesForms b r).any (c.legRefuses l))
  ++ rule 0x0407 (fun r => (src r && !c.onEthernet (c.get (GW_RT_CFG_STREAM r)))
      || (c.legsOf r).any fun l => kind l == 2 && !c.onEthernet (target l - 128))
  ++ failsAt 0x0407 sSpine sp (fun d _ => d.kind == 1 && c.get (SPN_STR_CFG_KIND d.num) = 3 && !c.onNative d.num)

/-! ## Catalogue entries (class 0x05) -/

/-- A port that may not be bound to a table: undeclared, or in mode OFF (R194). -/
def State.unbindable (c : State) (b : List Byte) (n : Nat) : Bool :=
  !(decls b sPorts).any (·.num == n) || c.get (LP_CFG_MODE n) = 0

/-- A port's binding to table `t`: at its table, or at its own declaration when the table is undeclared. -/
def State.bindingBad (c : State) (b : List Byte) (d : Decl) : Bool :=
  if d.kind = 0 then (c.boundPorts d.num).any (c.unbindable b)
  else d.kind = 1 && c.unbindable b d.num && (List.range 256).any fun t =>
    !(tableDecls b).any (·.num == t) && (c.boundPorts t).contains d.num

/-- Catalogue entries and bindings (0x0501 to 0x0507), over the entries and bindings that result once REGISTERS has been
applied (R43). -/
def State.entryFails (s c : State) (b : List Byte) (live : Bool) : List Found :=
  let places := s.placing c b live
  let c := { c with store := { c.store with revoked := [] } }
  let ca := decls b sCatalogue
  (ca.zipIdx.filter (·.1.kind == 0)).flatMap (fun (d, i) =>
    let es := (tableContent b (c.newTable d.num (((places.lookup d.num).getD none).getD 0)) d).map (·.2)
    es.zipIdx.flatMap fun (w, j) =>
      if bitsOf (w.getD 0 0) 0 3 = 0 then []
      else
        let dup := (es.take j).any fun v => bitsOf (v.getD 0 0) 0 3 = 1 && bitsOf (v.getD 0 0) 7 1 = bitsOf (w.getD 0 0) 7 1
          && bitsOf (v.getD 1 0) 0 29 = bitsOf (w.getD 1 0) 0 29
        (c.entryFaults (c.boundPorts d.num) (fun k => w.getD k 0) dup).map fun code => (code, sCatalogue, i))
  ++ failsAt 0x0507 sCatalogue ca (fun d _ => c.bindingBad b d)

/-! ## Halls (class 0x06) -/

/-- A pool, queue, ring or staging area lies in unit `u` under the governing epoch (R305). The queue entries of tunnel
legs lie in the units of owner 65 (R301), in any of them (DESIGN CHOICE, log 114). -/
def State.unitUsed (s : State) (u : Nat) : Bool :=
  ((List.range 256).any fun f => s.fspSize f != 0 && unitMeets u (s.fspBase f) (s.fspBase f + s.fspSize f - 1))
  || ((List.range 64).any fun k => s.flag (LEDG_RING_CFG_EN k)
        && unitMeets u (s.recordAt k 0) (s.recordAt k 0 + 16 * 2 ^ s.get (LEDG_RING_CFG_L k) - 1))
  || ((List.range 4).any fun l => s.isEthLane l
        && unitMeets u (s.get (SPN_HQ_BASE_BASE l) * 65536) (s.get (SPN_HQ_BASE_BASE l) * 65536 + 65535))
  || (s.get (HALL_OWN_CUR u) = 65 && (List.range 1024).any fun r => s.flag (GW_RT_CFG_VALID r)
        && (s.legsOf r).any fun l => s.get (GW_LEG_CFG_KIND l) = 2)
  || (s.upd.chrysalis.2 != 0 && unitMeets u s.upd.chrysalis.1 (s.upd.chrysalis.1 + 128 * s.upd.chrysalis.2 - 1))
  || (s.upd.staging.2 != 0 && unitMeets u s.upd.staging.1 (s.upd.staging.1 + 65536 * s.upd.staging.2 - 1))

/-- A live epoch may not change the owner of a unit (R305). -/
def State.unitStays (s : State) (u : Nat) : Bool :=
  let cur := s.get (HALL_OWN_CUR u)
  cur != s.get (HALL_OWN_OWNER u)
    || (decide (cur < 64) && (s.stationEngines cur).any fun e => decide (2 ≤ s.estate e) && decide (s.estate e ≤ 3))
    || (decide (65 ≤ cur) && decide (cur ≤ 68) && s.unitUsed u)

/-- Home and alternate owner of a unit. -/
def State.ownPair (s : State) (u : Nat) : Nat × Nat := (s.get (HALL_OWN_OWNER u), s.get (HALL_OWN_ALT u))

/-- A station window breaks R273 or R304. -/
def State.windowBad (c : State) (st k w : Nat) : Bool :=
  let first := c.get (CLU_WIN_A_BASE k w)
  let last := c.get (CLU_WIN_B_LAST k w)
  c.flag (CLU_WIN_A_VALID k w)
    && (first / 4096 != last / 4096
        || (unitsIn (first * 4096) (last * 4096 + 4095)).any fun u =>
             (c.get (CLU_WIN_A_GROUPS k w)).testBit (u % 64 / 8) && (c.ownPair u).1 != st && (c.ownPair u).2 != st)

/-- Halls (0x0601 to 0x0605). -/
def State.hallFails (s c : State) (b : List Byte) (live : Bool) : List Found :=
  let ha := decls b sHalls
  let st := decls b sStations
  failsAt 0x0601 sHalls ha (fun d i =>
      let p := c.ownPair d.num
      (beforeIn ha i fun e => e.num == d.num && e.vals != d.vals)
        || !(p.2 ≤ 64 || p.2 = 127) || (65 ≤ p.1 && p.1 ≤ 68 && p.2 != 127))
  ++ failsAt 0x0602 sPools (decls b sPools) (fun d _ => d.kind == 1 && c.fspSize d.num != 0
      && (unitsIn (c.fspBase d.num) (c.fspBase d.num + c.fspSize d.num - 1)).any fun u => (c.ownPair u).1 != 66)
  ++ failsAt 0x0603 sStations st (fun d _ => d.aux.any fun k => (List.range 8).any fun w => c.windowBad d.num k w)
  ++ failsAt 0x0604 sStations st (fun d _ => d.regions.any fun r => (unitsIn r.1 r.2).any fun u =>
      decide ((c.ownPair u).1 < 64) && (c.ownPair u).1 != d.num)
  ++ (if live then
        ((List.range 4096).filter fun u => s.ownPair u != c.ownPair u && s.unitStays u).map fun u =>
          (0x0605, sHalls, (ha.findIdx? fun d => d.num == u).getD 0)
      else [])

/-! ## Security, power, constellation, time and registers (classes 0x07 to 0x0A) -/

/-- Security (0x0701 to 0x0707). -/
def State.securityFails (s c : State) (b : List Byte) (live : Bool) : List Found :=
  let lc := s.get VIT_STAT_LC
  let se := decls b sSecurity
  let sig := sectionOf b sSignature
  let slot := sealed (sig.headD 0).toNat
  let gcm := fun (d : Decl) => d.kind == 0 && (c.get (VIT_BIND0_ALG d.num) == 1 || c.get (VIT_BIND0_ALG d.num) == 2)
  holding [((0x0701, 0, 0), !hasSection b sSignature && (lc = 2 || lc = 3)),
    ((0x0702, sSignature, 0), hasSection b sSignature
      && !(s.useOk slot 5 .device && ecdsaVerify (s.keyOf slot) (imageDigest b) (sig.drop 8))),
    ((0x0703, 0, 0), decide (imgVersion b < (s.counter 0).value))]
  ++ failsAt 0x0704 sSecurity se (fun d i => d.kind == 0
      && (s.get (VIT_SLOT_STATE (c.get (VIT_BIND0_SLOT d.num))) != 1
          || !(s.get (VIT_SLOT_USE (c.get (VIT_BIND0_SLOT d.num)))).testBit 6
          || (gcm d && beforeIn se i fun e => gcm e && c.get (VIT_BIND0_SLOT e.num) == c.get (VIT_BIND0_SLOT d.num)
                && c.get (VIT_BIND1_ID e.num) == c.get (VIT_BIND1_ID d.num)
                && c.get (VIT_BIND1_IDE e.num) == c.get (VIT_BIND1_IDE d.num))))
  ++ holding [((0x0705, 0, 0), !(imgLcMask b).testBit lc)]
  ++ (Config.forbiddenFeatures lc b).map (fun x => (0x0706, x.1, x.2))
  ++ holding [((0x0707, 0, 0), live && s.get IMG_EPOCH_EPOCH = 0xFFFFFFFF)]

/-- Power (0x0801 to 0x0804). -/
def State.powerFails (c : State) (b : List Byte) : List Found :=
  let de := decls b sDevice
  let hot := de.any fun d => decide (195 < d.aux.getD 2 0)
  failsAt 0x0801 sDevice de (fun d _ => decide (32000 < d.aux.getD 1 0) || decide (d.aux.getD 0 0 < d.aux.getD 1 0))
  ++ failsAt 0x0802 sPower (decls b sPower) (fun d _ => d.kind == 1 && d.aux.any (6000 < ·))
  ++ failsAt 0x0803 sPower (decls b sPower) (fun d _ => d.kind == 0
      && [c.get (RGN_OPP_TARGET d.num), c.get (RGN_OPP_MAX d.num)].any fun p => decide (5 < p) || (p = 5 && hot))
  ++ failsAt 0x0804 sCurator (decls b sCurator) (fun d _ => d.kind == 1 && c.get CUR_GO_SAFE_CODE / 4 ^ d.num % 4 = 0)

/-- Amin of a member (R484). -/
def State.amin (c : State) (m : Nat) : Nat := c.get (CON_PEER_CFG_HOPS m) * 2000 + 2 * c.thr + 2000

/-- Constellation (0x0901 to 0x0904). -/
def State.memberFails (s c : State) (b : List Byte) (live : Bool) : List Found :=
  let co := decls b sConstellation
  let isMember := fun (d : Decl) => d.kind == 0
  failsAt 0x0901 sConstellation co (fun d i => isMember d
      && (decide (8 ≤ d.num) || decide (8 ≤ ((co.take i).filter isMember).length)
          || beforeIn co i fun e => isMember e && (e.num == d.num || e.aux.headD 0 == d.aux.headD 0)))
  ++ holding [((0x0902, sConstellation, 0), hasSection b sConstellation && (s.ownMember b).isNone)]
  ++ failsAt 0x0903 sRoutes (decls b sRoutes) (fun d _ => d.kind == 0 && (c.legsOf d.num).any fun l =>
      c.get (GW_LEG_CFG_KIND l) = 3 && (!hasSection b sConstellation
        || decide (c.get CON_AHOR_NS < c.amin (c.get (GW_LEG_CFG_TARGET l) - 192))))
  ++ holding ([sSpine, sConstellation].map fun t => ((0x0904, t, 0),
      live && (hasSection b t != hasSection s.img.gov t || sectionOf b t != sectionOf s.img.gov t)))

/-- TIME and REGISTERS (0x0A01, 0x0A02). -/
def valueFails (b : List Byte) : List Found :=
  failsAt 0x0A01 sTime (decls b sTime) (fun d _ => d.aux.any fun v => decide (v < incMin) || decide (incMax < v))
  ++ failsAt 0x0A02 sRegisters (decls b sRegisters) (fun d _ => d.vals.any fun v => v.2.1 &&& ~~~(registerBits v.1) != 0)

/-! ## The check (R46 to R48) -/

/-- Every failure of an image. -/
def State.allFails (s : State) (b : List Byte) (len : Nat) : List Found :=
  let f := s.formatFails b len
  if !f.isEmpty then f
  else
    let live := !s.img.gov.isEmpty
    let c := s.candidate b
    s.allocFails c b live ++ c.portFails b ++ c.routeFails b ++ s.entryFails c b live ++ s.hallFails c b live
      ++ s.securityFails c b live ++ c.powerFails b ++ s.memberFails c b live ++ valueFails b

/-- The first failure in ascending order of reason code, the first in the order of the sections where a code fails more
than once. -/
def firstFound : List Found → Option Found
  | [] => none
  | f :: fs =>
    match firstFound fs with
    | none => some f
    | some g => some (if g.1 < f.1 then g else f)

/-- The result of the enable check in IMG.STATUS.REASON, CHK_LOC and CHK_COUNT (R47): whether the image is accepted. -/
def State.runCheck (s : State) (b : List Byte) (len : Nat) : Bool × State :=
  let fs := s.allFails b len
  match firstFound fs with
  | none => (true, ((s.set IMG_STATUS_REASON 0).setWord IMG_CHK_LOC_SECT.addr 0).set IMG_CHK_COUNT_COUNT 0)
  | some (code, t, i) =>
    (false, (((s.set IMG_STATUS_REASON code).set IMG_CHK_LOC_SECT t).set IMG_CHK_LOC_ENTRY i).set IMG_CHK_COUNT_COUNT
      (min 0xFFFF fs.length))

end Sys2Proof.Machine
end

