-- ==== Sys2Proof/Machine/ImageOps.lean ====
section
/-! DEFINITION. Shared operations of IMG: the journal, the switch instant and the move of a port to a new epoch (R50 to
R63, R179, R209, R224, R225, R302, R305, R358, R379, R516, R517). -/

namespace Sys2Proof.Machine

open Sys2Proof.Config (Decl)

/-! ## Journal (R51 to R53) -/

/-- Change IMG's hidden half. -/
def State.modImg (s : State) (f : Image → Image) : State := { s with img := f s.img }

/-- IMG.JRNL shows the journal. -/
def State.showJournal (s : State) : State :=
  let j := s.img.journal.getD {}
  ((s.set IMG_JRNL_STATE j.state).put IMG_JRNL_GOV j.gov).put IMG_JRNL_GOV_VALID j.govValid

/-- Write the journal: the copy that does not hold the current state, with the next sequence number. -/
def State.writeJournal (s : State) (c : JCopy) : State :=
  (s.modImg fun i => i.putCopy (some (i.numbered c))).showJournal

/-- The journal as it stands. -/
def State.journal (s : State) : JCopy := s.img.journal.getD {}

/-- The image in area A or B. -/
def Image.area (i : Image) (b : Bool) : List Byte := if b then i.areaB else i.areaA

/-- Store an image in area A or B. -/
def Image.setArea (i : Image) (b : Bool) (bs : List Byte) : Image := if b then { i with areaB := bs } else { i with areaA := bs }

/-- The area beside the governing one: A before the first commit (R50). -/
def JCopy.other (j : JCopy) : Bool := j.govValid && !j.gov

/-- The journal returns to IDLE without the image in the other area (R52). -/
def State.journalIdle (s : State) : State :=
  let j := s.journal
  (s.writeJournal { j with state := 0, newDigest := [], newVersion := 0, switchTime := 0 }).modImg fun i =>
    i.setArea j.other []

/-- COMMIT begins to write the SWITCHING copy (R53). -/
def State.startCommit (s : State) : State :=
  let j := s.journal
  (s.modImg fun i => { i with writing := some (i.numbered { j with state := 3, switchTime := switchWord s.now }) }).set IMG_STATUS_PHASE 5

/-- ABORT discards the shadow and any staged area (R52, R64). -/
def State.imgAbort (s : State) : State :=
  let s := if s.journal.state = 1 || s.journal.state = 2 then s.journalIdle else s
  (s.modImg fun i => { i with shadow := [] }).set IMG_STATUS_PHASE 0

/-! ## Which words a change touches -/

/-- Everything an image declares, section by section. -/
def contentDecls (b : List Byte) : List Decl := (List.range 16).flatMap fun t => decls b (t + 1)

/-- The ports whose move a change of the word at `a` waits for. -/
def scopeOf (old new : List Byte) (a : Nat) : List Nat :=
  ((contentDecls old ++ contentDecls new).filter fun d => declares d a).flatMap (·.ports)

/-- Words of routes and legs: they change as the routes stop and start (R63). -/
def isRouteWord (a : Nat) : Bool := (0x3001000 ≤ a && a < 0x3009000) || (0x3010000 ≤ a && a < 0x3014000)

/-- Words that change for every port at the switch instant: signature stores, tunnel streams, and beacons, which the TIME
section declares. -/
def isGlobalWord (a : Nat) : Bool :=
  (0x1900000 ≤ a && a < 0x1940000) || (0x3020000 ≤ a && a < 0x3030000)
    || (0x1000000 ≤ a && a < 0x1080000 && (a % 0x1000 = 0x12C || a % 0x1000 = 0x130))

/-- No port of a list is in transition. -/
def State.settled (s : State) (ns : List Nat) : Bool := !ns.any s.inTransit

/-- Give the words that `p` names the values of the registers of `c`. -/
def State.commitWords (s c : State) (p : Nat → Bool) : State :=
  s.each (((s.regs ++ c.regs).map (·.1)).filter fun a => p a && !storeWord a) fun s a => s.setWord a (c.word a)

/-- The bytes that a section declares for a port. -/
def portBytes (b : List Byte) (t n : Nat) : List (List Byte) :=
  ((decls b t).filter fun d => d.ports.contains n).map (·.raw)

/-- Words whose image fields differ between the registers of two images. -/
def wordsDiffer (co c : State) (as : List Nat) : Bool := as.any fun a => (co.word a ^^^ c.word a) &&& imageBits a != 0

/-- A frame-store pool differs between two images, in its declaration or by REGISTERS (R43, R516); `co` and `c` are their
registers. -/
def fspChanged (co c : State) (old new : List Byte) (f : Nat) : Bool :=
  ((poolDecls old 1).find? (·.num == f)).map (·.raw) != ((poolDecls new 1).find? (·.num == f)).map (·.raw)
    || wordsDiffer co c [(MOP_FSP_BASE_BASE f).addr, (MOP_FSP_CNT_NSMALL f).addr, (MOP_FSP_RSV_RSV_SMALL f).addr]

/-- Pools on a port, from the registers. -/
def State.allPools (s : State) (n : Nat) : List Nat :=
  (List.range 1024).filter fun p => s.get (MOP_POOL_CFG1_KIND p) != 0 && s.get (MOP_POOL_CFG1_PORT p) = n

/-- The content of a port is byte-identical in both images (R57), and no frame-store pool of its pools changes (R516). -/
def State.samePort (co c : State) (old new : List Byte) (n : Nat) : Bool :=
  [sPorts, sPools, sCatalogue, sRoutes, sObservation, sSecurity, sRegisters].all (fun t => portBytes old t n == portBytes new t n)
    && !(co.allPools n).any (fun p => fspChanged co c old new (co.get (MOP_POOL_CFG1_FSP p)))
    && !(c.allPools n).any fun p => fspChanged co c old new (c.get (MOP_POOL_CFG1_FSP p))

/-- A port that moves at the switch instant although its content changes: bus-off, HELD recovery, disabled (R58), or
without a running engine. -/
def State.movesAtOnce (s : State) (n : Nat) : Bool :=
  s.bstate n = 0 || s.get (ECF_STAT_ESTATE n) = 2 || s.get (LP_STATE_PSTATE n) = 4

/-! ## Slots and buffers (R160, R179, R517) -/

/-- A pool that an epoch change removes or changes, by its declaration or by REGISTERS, or whose frame-store pool changes;
`co` and `c` are the registers of the two images. -/
def State.poolChanged (co c : State) (old new : List Byte) (p : Nat) : Bool :=
  ((poolDecls old 0).find? (·.num == p)).map (·.raw) != ((poolDecls new 0).find? (·.num == p)).map (·.raw)
    || wordsDiffer co c [(MOP_POOL_CFG0_BASE p).addr, (MOP_POOL_CFG1_KIND p).addr]
    || fspChanged co c old new (co.get (MOP_POOL_CFG1_FSP p)) || fspChanged co c old new (c.get (MOP_POOL_CFG1_FSP p))

/-- A slot leaves its pool: its fixed buffers return, and it takes its FREE state. A slot whose attempt still runs ends
with it. -/
def State.resetSlot (s : State) (p k : Nat) : State :=
  let f := s.get (MOP_POOL_CFG1_FSP p)
  let kind := s.get (MOP_POOL_CFG1_KIND p)
  let s := if kind = kindTX || kind = kindMBX then s.returnBuf f (s.bufOf k) else s
  let s := if kind = kindMBX then s.returnBuf f (s.slotHid k).spare else s
  let s := s.setSlotState k slotFree
  let s := s.each (List.range 8) fun s w => s.setWord (MOP_DESC_W k w).addr 0
  s.modSlot k fun _ => {}

/-- The pools of a moving port that change let their slots go (R179). -/
def State.leavePools (s co c : State) (old new : List Byte) (n : Nat) : State :=
  s.each ((s.allPools n).filter fun p => co.poolChanged c old new p) fun s p =>
    let s := s.dropPool p codeEpoch false
    let s := s.each ((s.poolSlots p).filter fun k => (s.slotHid k).stop.isNone) fun s k => s.resetSlot p k
    let s := { s with store := { s.store with tags := smapErase s.store.tags p, lastTaken := smapErase s.store.lastTaken p } }
    s.set (MOP_POOL_CFG1_KIND p) 0

/-- The free buffer of a class that lies lowest in a frame-store pool. -/
def State.lowestBuf (s : State) (f : Nat) (large : Bool) : Nat :=
  ((if large then (s.freeBufs f).2 else (s.freeBufs f).1).min?).getD 0

/-- Take a fixed buffer. -/
def State.takeFixed (s : State) (f : Nat) (large : Bool) : Nat × State :=
  let a := s.lowestBuf f large
  let b := s.freeBufs f
  (a, s.setFreeBufs f (if large then (b.1, b.2.erase a) else (b.1.erase a, b.2)))

/-- A slot enters its new pool: PORT, and the fixed buffers of a TX slot or a mailbox, in ascending hall offset. -/
def State.joinSlot (s : State) (p k : Nat) : State :=
  let f := s.get (MOP_POOL_CFG1_FSP p)
  let kind := s.get (MOP_POOL_CFG1_KIND p)
  let large := s.flag (MOP_POOL_CFG1_BUFCLASS p)
  let s := s.set (MOP_DESC_PORT k) (s.get (MOP_POOL_CFG1_PORT p))
  if (kind = kindTX || kind = kindMBX) && !s.store.relayout.any (·.1 == f) then
    let (a, s) := s.takeFixed f large
    let s := s.setBuf k a
    if kind = kindMBX then
      let (b, s) := s.takeFixed f large
      s.modSlot k fun h => { h with spare := b }
    else s
  else s

/-- The slots of new pools that no old pool holds any more join them (R517). `was` is the state before the ports moved, and
`left` that in which their old pools have let go: a slot that lay in the pool in both has joined before. -/
def State.joinPools (s was left : State) (ps : List Nat) : State :=
  s.each ps fun s p =>
    let mine := (s.poolSlots p).filter fun k => s.covers p k && !(was.inPool p k && left.inPool p k)
    let s := s.each mine fun s k => s.joinSlot p k
    s.set (MOP_POOL_STAT_FREE p) (min (s.freeSlots p) 65535)

/-- The ports of the pools that name frame-store pool `f`, in the registers of `c`. -/
def State.fspPorts (c : State) (f : Nat) : List Nat :=
  ((List.range 1024).filter fun p => c.get (MOP_POOL_CFG1_KIND p) != 0 && c.get (MOP_POOL_CFG1_FSP p) = f).map
    fun p => c.get (MOP_POOL_CFG1_PORT p)

/-- Frame-store pools that change wait for their new layout (R516); at a commit without a governing epoch they take it at
once. -/
def State.startLayouts (s co c : State) (old new : List Byte) : State :=
  let fs := (List.range 256).filter fun f => fspChanged co c old new f
  { s with store := { s.store with relayout := s.store.relayout ++ fs.map fun f =>
      (f, c.word (MOP_FSP_BASE_BASE f).addr, c.word (MOP_FSP_CNT_NSMALL f).addr, c.word (MOP_FSP_RSV_RSV_SMALL f).addr,
       co.fspPorts f ++ c.fspPorts f) } }

/-- Words of frame-store pools: they change with the layout. -/
def isFspWord (a : Nat) : Bool := 0x2008000 ≤ a && a < 0x200A000

/-! ## Catalogue (R192, R193, R206, R209) -/

/-- The indexes of a version become EMPTY. -/
def State.emptyTable (s : State) (t : TableVer) : State :=
  s.each t.allIndexes fun s i =>
    let s := s.each (List.range 8) fun s w => s.setWord (CAT_ENTRY_W i w).addr 0
    { s with cat := { s.cat with updated := smapPut (fun _ => 0) s.cat.updated i 0 } }

/-- Fill a new version with its entries under image `b`. -/
def State.fillTable (s : State) (b : List Byte) (t : TableVer) (d : Decl) : State :=
  let s := s.emptyTable t
  s.each (tableContent b t d) fun s e => s.each (storedWords fun k => e.2.getD k 0).zipIdx fun s w =>
    s.setWord (CAT_ENTRY_W e.1 w.2).addr w.1

/-- The versions in the store: those of the governing image with their bases in `c`, and those still bound. -/
def State.storeVersions (s c : State) : List TableVer := (s.img.bases.map fun x => c.newTable x.1 x.2) ++ s.cat.stale

/-- CAT.USE follows the store. -/
def State.catUse (s c : State) : State :=
  let vs := s.storeVersions c
  let used := ((vs.flatMap TableVer.allIndexes).filter fun i => s.get (CAT_ENTRY_KIND i) != 0).length
  (s.set CAT_USE_USED used).set CAT_USE_SPARE (32768 - (vs.map TableVer.size).sum)

/-- At the switch instant the new versions are placed and filled; those they replace are held until no port is bound to
them. -/
def State.placeTables (s c : State) (new : List Byte) (live : Bool) : State :=
  let bases := (s.placing c new live).filterMap fun x => x.2.map fun a => (x.1, a)
  let fresh := (tableDecls new).filter fun d => !(live && sameTable s.img.old new d.num)
  let stale := (s.img.bases.filter fun x => !(tableDecls new).any (fun d => d.num == x.1) || fresh.any fun d => d.num == x.1).map
    fun x => s.newTable x.1 x.2
  let s := s.modImg fun i => { i with bases }
  let s := { s with cat := { s.cat with stale := s.cat.stale ++ stale } }
  s.each fresh fun s d => s.fillTable new (c.newTable d.num ((bases.lookup d.num).getD 0)) d

/-- The versions that a port searches under the new image. -/
def State.bindPort (s c : State) (n : Nat) : State :=
  let v := fun (t : Nat) => c.newTable t ((s.img.bases.lookup t).getD 0)
  let l := (if c.flag (CAT_PBIND_P_EN n) then [v (c.get (CAT_PBIND_PRIMARY n))] else [])
    ++ if c.flag (CAT_PBIND_S_EN n) then [v (c.get (CAT_PBIND_SHARED n))] else []
  { s with cat := { s.cat with bind := smapPut (fun _ => []) s.cat.bind n l } }

/-- BASE of every table whose ports have moved; versions that no port is bound to are freed (R209). -/
def State.settleTables (s c : State) (old new : List Byte) : State :=
  let s := s.each (s.img.bases.filter fun x => s.settled (scopeOf old new (CAT_TBL_CFG0_BASE x.1).addr)) fun s x =>
    s.set (CAT_TBL_CFG0_BASE x.1) x.2
  let gone := s.cat.stale.filter fun t => !s.cat.bind.any fun e => e.2.contains t
  let s := { s with cat := { s.cat with stale := s.cat.stale.filter fun t => !gone.contains t } }
  (s.each gone State.emptyTable).catUse c

/-! ## Routes (R62, R63) -/

/-- The ports that a route touches, in the registers of `c`. -/
def State.touches (c : State) (r : Nat) : List Nat :=
  (if c.flag (GW_RT_CFG_SRC r) then [] else [c.get (GW_RT_CFG_PORT r)])
    ++ ((c.legsOf r).filter fun l => c.get (GW_LEG_CFG_KIND l) = 1).map fun l => c.get (GW_LEG_CFG_TARGET l)

/-- The declaration of a route number in an image. -/
def routeDecl (b : List Byte) (r : Nat) : Option (List Byte) := ((routesOf b).find? (·.num == r)).map (·.raw)

/-- GW.EQ_STAT.SUSP and IMG.SUSP follow the suspended routes; `co` are the registers of the old image. -/
def State.showSuspended (s co : State) : State :=
  let s := s.set IMG_SUSP_ROUTES s.gw.suspended.length
  let ts := s.gw.suspended.flatMap fun r => (co.legsOf r).map fun l => co.get (GW_LEG_CFG_TARGET l)
  s.each (List.range 200) fun s t => s.put (GW_EQ_STAT_SUSP t) (ts.contains t)

/-- At the switch instant the old routes that touch a port in transition are suspended, and the new ones wait (R62, R63). -/
def State.suspendRoutes (s co : State) (old new : List Byte) : State :=
  let rs := ((routesOf old).map (·.num)).filter fun r => !s.settled (co.touches r)
  let s := s.each rs fun s r => s.raise 1536 r
  let first := ((routesOf new).map (·.num)).filter fun r => (routeDecl old r).isNone
  ({ s with gw := { s.gw with suspended := rs, notStarted := first } }).showSuspended co

/-- The words of a route and of its legs, in the registers of `c`. -/
def State.routeAddrs (c : State) (r : Nat) : List Nat :=
  ((List.range 5).map fun k => 0x3001000 + 0x20 * r + 4 * k)
    ++ (c.legsOf r).flatMap fun l => (List.range 3).map fun k => 0x3010000 + 0x10 * l + 4 * k

/-- The image fields of a word take the values of the registers of `c`. -/
def State.takeImage (s c : State) (a : Nat) : State :=
  s.setWord a ((s.word a &&& ~~~(imageBits a)) ||| (c.word a &&& imageBits a))

/-- The words of a route and its legs take the values of the new image. -/
def State.routeWords (s c : State) (r : Nat) : State := s.each (c.routeAddrs r) fun s a => s.takeImage c a

/-- A route differs between two images, in its declaration or by REGISTERS (R43, R63). -/
def State.routeChanged (co c : State) (old new : List Byte) (r : Nat) : Bool :=
  routeDecl old r != routeDecl new r || wordsDiffer co c (co.routeAddrs r ++ c.routeAddrs r)

/-- An old route stops: the frames that wait for it are processed by it, its words and those of its legs take the values
of the new image (R10, R60), and its number waits for a new version. -/
def State.stopRoute (s co c : State) (new : List Byte) (r : Nat) : State :=
  let s := s.each (s.gw.waiting.filter (·.route == r)) State.ingress
  let s := (s.each (co.routeAddrs r) fun s a => s.takeImage c a).put (GW_RT_CFG_VALID r) false
  let g := { s.gw with accepted := smapErase s.gw.accepted r }
  { s with gw := { g with notStarted := if (routeDecl new r).isSome then s.gw.notStarted ++ [r] else s.gw.notStarted } }

/-- Old routes stop when their ingress port has moved; new ones start when all their ports have moved and the old version
has stopped; suspensions end (R62, R63). -/
def State.moveRoutes (s co c : State) (old new : List Byte) : State :=
  let stops := ((routesOf old).map (·.num)).filter fun r =>
    co.routeChanged c old new r && !s.img.stopped.contains r
      && (co.flag (GW_RT_CFG_SRC r) || !s.inTransit (co.get (GW_RT_CFG_PORT r)))
  let s := s.each stops fun s r => (s.stopRoute co c new r).modImg fun i => { i with stopped := r :: i.stopped }
  let starts := s.gw.notStarted.filter fun r => s.settled (c.touches r)
  let s := s.each starts fun s r => s.routeWords c r
  let s := { s with gw := { s.gw with notStarted := s.gw.notStarted.filter fun r => !starts.contains r } }
  let past := s.gw.suspended.filter fun r => s.settled (co.touches r)
  let s := s.each past fun s r => s.raise 1537 r
  ({ s with gw := { s.gw with suspended := s.gw.suspended.filter fun r => !past.contains r } }).showSuspended co

end Sys2Proof.Machine
end

