-- ==== Sys2Proof/Machine/UpdateOps.lean ====
section
/-! DEFINITION. Shared operations of update control: the update journal, the instar slots and their manifests, the delivery
of chunks, and the fallback (R452 to R459, R466). -/

namespace Sys2Proof.Machine

/-! ## Journal (R459) -/

/-- Change the hidden half of update control. -/
def State.modUpd (s : State) (f : Update → Update) : State := { s with upd := f s.upd }

/-- Words 0 to 30 of an update journal copy (table "Update journal copy"). -/
def UCopy.body (c : UCopy) : List Byte :=
  leBytes 4 c.seq
    ++ leBytes 4 (c.state % 8 + (if c.imago then 8 else 0) + (if c.imagoValid then 16 else 0) + c.tries % 16 * 32)
    ++ leBytes 4 c.ver0 ++ leBytes 4 c.ver1 ++ padded 48 c.lwy0 ++ padded 48 c.lwy1 ++ padded 8 c.prefix8 ++ leBytes 4 0

/-- A copy with its CRC word. -/
def UCopy.withCrc (c : UCopy) : UCopy := { c with crc := crc32 c.body }

/-- A copy is valid when its CRC matches and its STATE is one of the six. -/
def UCopy.valid (c : UCopy) : Bool := c.state ≤ 5 && c.crc == crc32 c.body

/-- Copy 0, if it is valid. -/
def Update.valid0 (u : Update) : Option UCopy := u.copy0.filter UCopy.valid
/-- Copy 1, if it is valid. -/
def Update.valid1 (u : Update) : Option UCopy := u.copy1.filter UCopy.valid

/-- The update journal: the valid copy with the higher sequence number. -/
def Update.journal (u : Update) : UCopy :=
  match u.valid0, u.valid1 with
  | some a, some b => if a.seq < b.seq then b else a
  | some a, none => a
  | none, some b => b
  | none, none => {}

/-- Write the journal: the copy that does not hold the current state, with the next sequence number (R51). -/
def Update.putJournal (u : Update) (c : UCopy) : Update :=
  let c := { c with seq := u.journal.seq + 1 : UCopy }.withCrc
  let first := match u.valid0, u.valid1 with
    | some a, some b => decide (a.seq < b.seq)
    | some _, none => false
    | none, _ => true
  if first then { u with copy0 := some c } else { u with copy1 := some c }

/-- The update journal. -/
def State.updJournal (s : State) : UCopy := s.upd.journal

/-- The slot that an update is written into: the one that the journal does not name as imago. Flag true is slot 1. -/
def UCopy.spare (j : UCopy) : Bool := j.imagoValid && !j.imago

/-- VERSION of the manifest of a slot. -/
def UCopy.ver (j : UCopy) (b : Bool) : Nat := if b then j.ver1 else j.ver0

/-- Digest of the structure image of a slot. -/
def UCopy.lwy (j : UCopy) (b : Bool) : List Byte := if b then j.lwy1 else j.lwy0

/-- Set VERSION and structure-image digest of a slot. -/
def UCopy.setSlot (j : UCopy) (b : Bool) (ver : Nat) (lwy : List Byte) : UCopy :=
  if b then { j with ver1 := ver, lwy1 := lwy } else { j with ver0 := ver, lwy0 := lwy }

/-- UPD.STAT, VER_IMAGO and VER_STAGED show the journal (R472). -/
def State.showUpdate (s : State) : State :=
  let j := s.updJournal
  let s := ((s.set UPD_STAT_STATE j.state).set UPD_STAT_TRIES j.tries).put UPD_STAT_IMAGO j.imago
  let runs := j.imagoValid && !s.cur.live.contains (1866, 0x55)
  let s := (s.put UPD_STAT_IMAGO_VALID runs).set UPD_VER_IMAGO_VERSION (if j.imagoValid then j.ver j.imago else 0)
  s.set UPD_VER_STAGED_VERSION (j.ver j.spare)

/-- Write the update journal. -/
def State.writeUpdate (s : State) (c : UCopy) : State := (s.modUpd fun u => u.putJournal c).showUpdate

/-! ## Resume map (R456) -/

/-- Bit `k` of the resume map. -/
def mapLoc (k : Nat) : Loc := ⟨(UPD_MAP_BITS (k / 32)).addr, k % 32, 1⟩

/-- Clear the resume map. -/
def State.clearMap (s : State) : State := s.each (List.range 8) fun s k => s.set (UPD_MAP_BITS k) 0

/-! ## Instar slots and manifests (R453, R454) -/

/-- Chunk `k` of a slot. -/
def State.chunk (s : State) (b : Bool) (k : Nat) : List Byte :=
  smapFind (fun _ => []) s.upd.chunks ((if b then 256 else 0) + k)

/-- Program chunk `k` of a slot. -/
def State.program (s : State) (b : Bool) (k : Nat) (bs : List Byte) : State :=
  s.modUpd fun u => { u with chunks := smapPut (fun _ => []) u.chunks ((if b then 256 else 0) + k) bs }

/-- The bytes of a manifest. -/
def manifestSize : Nat := 0x3868

/-- The manifest of a slot. -/
def State.manifest (s : State) (b : Bool) : List Byte := (s.chunk b 0).take manifestSize

/-- NCHUNK. -/
def nchunk (m : List Byte) : Nat := leAt m 0x0A 2

/-- VERSION. -/
def manifestVersion (m : List Byte) : Nat := leAt m 0x0C 4

/-- The manifest digest. -/
def manifestDigest (m : List Byte) : List Byte := sha384 (m.take 0x3800)

/-- Clusters with code: cluster, payload offset and length, in the order of the code table. -/
def codeTable (m : List Byte) : List (Nat × Nat × Nat) :=
  ((List.range 128).map fun c => (c, leAt m (0x100 + 8 * c) 4, leAt m (0x104 + 8 * c) 4)).filter fun x => x.2.2 != 0

/-- The payload of a slot. -/
def State.payload (s : State) (b : Bool) : List Byte :=
  (List.range (nchunk (s.manifest b))).flatMap fun i => s.chunk b (i + 1)

/-- Bytes of the payload of a slot. -/
def State.payloadAt (s : State) (b : Bool) (o n : Nat) : List Byte := ((s.payload b).drop o).take n

/-- The structure image of a slot. -/
def State.slotImage (s : State) (b : Bool) : List Byte :=
  let m := s.manifest b
  s.payloadAt b (leAt m 0x14 4) (leAt m 0x18 4)

/-- The code of a cluster in a slot. -/
def State.slotCode (s : State) (b : Bool) (x : Nat × Nat × Nat) : List Byte := s.payloadAt b x.2.1 x.2.2

/-- A slot's station code goes from flash into the instruction SRAM of every cluster in its code table (R460, R466). -/
def State.loadCode (s : State) (b : Bool) : State :=
  s.each (codeTable (s.manifest b)) fun s x => s.isramPut x.1 0 (s.slotCode b x)

/-- The manifest checks of R455: the first that fails gives its result, 0 when none does. -/
def State.manifestCheck (s : State) (m : List Byte) : Nat :=
  let lc := s.get VIT_STAT_LC
  let sig := m.drop 0x3800
  let slot := sealed (sig.headD 0).toNat
  let size := nchunk m * 65536
  if m.take 4 != [0x49, 0x4E, 0x53, 0x54] || leAt m 4 2 != 1 || leAt m 6 2 != 0x9640 || leAt m 8 1 != 1
      || s.get CHIP_ID_STEP < leAt m 9 1 then 2
  else if !(if (leAt m 0x10 4).testBit 1 then
      decide ((sig.headD 0).toNat < 32) && ((sig.drop 1).take 7).all (· == 0) && s.useOk slot 5 .device
        && ecdsaVerify (s.keyOf slot) (manifestDigest m) ((sig.drop 8).take 96)
    else lc = 0 || lc = 1) then 1
  else if manifestVersion m < (s.counter 1).value then 3
  else if nchunk m = 0 || 255 < nchunk m || size < leAt m 0x14 4 + leAt m 0x18 4
      || (codeTable m).any (fun x => decide (65536 < x.2.2) || decide (size < x.2.1 + x.2.2)) then 6
  else 0

/-! ## Delivery (R456 to R458) -/

/-- Every chunk of the slot being written is in flash: the journal enters STAGED (R458). -/
def State.slotComplete (s : State) : State :=
  let j := s.updJournal
  let b := j.spare
  if j.state != 2 && (List.range (nchunk (s.manifest b) + 1)).all fun k => s.flag (mapLoc k) then
    (s.writeUpdate ({ j with state := 2 }.setSlot b (j.ver b) (imageDigest (s.slotImage b)))).raise 1862 (j.ver b % 65536)
  else s

/-- A manifest arrives: delivery of the same one resumes, another is programmed, and the map starts again (R457). The result
is none when programming was cut off. -/
def State.takeManifest (s : State) (m : List Byte) (f : FlashSeen) : Option Nat × State :=
  let r := s.manifestCheck m
  let j := s.updJournal
  let b := j.spare
  let p := (manifestDigest m).take 8
  if r != 0 then (some r, s)
  else if p = j.prefix8 && s.flag (mapLoc 0) then
    (some 0, (if j.state = 0 then s.writeUpdate { j with state := 1 } else s).slotComplete)
  else
    let s := s.clearMap
    let gone := { j with state := 0, prefix8 := [] }.setSlot b 0 []
    match f with
    | .ok =>
      let s := s.program b 0 (m ++ List.replicate (65536 - m.length) 0)
      let s := s.put (mapLoc 0) true
      (some 0, s.writeUpdate { gone.setSlot b (manifestVersion m) [] with state := 1, prefix8 := p })
    | .mismatch => (some 5, (s.program b 0 []).writeUpdate gone)
    | .cut => (none, (s.program b 0 []).writeUpdate gone)

/-- Chunk `k` arrives: one that is in flash already costs nothing; another must have its hash, and is programmed and read
back before its bit sets (R458). -/
def State.takeChunk (s : State) (k : Nat) (bs : List Byte) (f : FlashSeen) : Option Nat × State :=
  let b := s.updJournal.spare
  let m := s.manifest b
  if s.flag (mapLoc k) then (some 0, s)
  else if k = 0 || nchunk m < k then (some 6, s)
  else if sha384 bs != (m.drop (0x800 + 48 * (k - 1))).take 48 then (some 4, s)
  else
    match f with
    | .ok => (some 0, ((s.program b k bs).put (mapLoc k) true).slotComplete)
    | .mismatch => (some 5, s.program b k [])
    | .cut => (none, s.program b k [])

/-! ## Engines -/

/-- An engine that has not halted in time is reset, and stays HALTED (R463, R466). -/
def State.haltByReset (s : State) (e : Nat) : State :=
  let s := s.engineReset e
  if s.estate e = 2 || s.estate e = 3 then (s.set (ENG_STAT_STATE e) 1).showEngine e else s

/-- Hall offset of chrysalis part `k` (R461). -/
def State.chrysalisPart (s : State) (k : Nat) : Nat := s.upd.chrysalis.1 + s.upd.chrysalis.2 * k

/-- Write a word of the header of a chrysalis part: 0 REQ, 1 FMT, 2 LEN, 3 STATE. -/
def State.setPartWord (s : State) (k w v : Nat) : State := s.hallStore (s.chrysalisPart k + 4 * w) (leBytes 4 v) 1028

/-- Bytes of a hall range become 0, in the halls and in no cache any more. -/
def State.zeroRange (s : State) (a n : Nat) : State :=
  let inside := fun x => decide (a ≤ x) && decide (x < a + n)
  let lines := (s.cores.regions.flatMap fun p => p.2.l2.map (·.1)).filter inside
  let s := s.each lines fun s l => s.each (List.range 16) fun s r => s.dropLine r l
  { s with mem := s.mem.filter fun c => !inside c.1,
           halls := { s.halls with poison := s.halls.poison.filter fun c => !inside (c.1 * 8),
                                   fix := s.halls.fix.filter fun c => !inside (c.1 * 8) } }

/-! ## Fallback (R466) -/

/-- The work of the command in progress is over. -/
def State.jobOver (s : State) (code r : Nat) : State :=
  match s.upd.job with
  | some (c, none) => if c = code then s.modUpd fun u => { u with job := some (c, some r) } else s
  | _ => s

/-- The old structure image in the other area is verified and committed; an epoch change in progress ends first, and any
other image work is dropped (steps 4 and 5). -/
def State.fallbackCommit (s : State) : State :=
  match s.upd.fallback with
  | some (cause, false) =>
    if s.get IMG_STATUS_PHASE = 5 then s
    else
      let s := if s.get IMG_STATUS_PHASE = 0 then s else s.imgAbort
      let j := s.journal
      let b := s.img.area j.other
      if imageDigest b = s.updJournal.lwy s.updJournal.spare then
        let s := s.writeJournal { j with state := 2, newDigest := imageDigest b, newVersion := imgVersion b }
        (s.startCommit).modUpd fun u => { u with fallback := some (cause, true) }
      else s
  | _ => s

/-- The fallback starts: the journal enters FALLBACK, every engine of every station halts (`stuck`: those that have not
within 2 µs), and the old slot's code is loaded (steps 1 to 5). -/
def State.startFallback (s : State) (cause : Nat) (stuck : List EngNo) : State :=
  let s := s.writeUpdate { s.updJournal with state := 5 }
  let s := s.modUpd fun u => { u with fallback := some (cause, false), trialTick := none }
  let s := s.each ((List.range 1024).filter fun e => s.flag (CLU_CFG_ASSIGNED (e / 8))) fun s e =>
    if stuck.any (·.val == e) then s.haltByReset e else s.engineHalt e
  (s.loadCode s.updJournal.spare).fallbackCommit

/-- The IMG journal is IDLE again: a fallback ends with the old slot as imago (step 6), or issues the commit that waited. -/
def State.fallbackNext (s : State) : State :=
  match s.upd.fallback with
  | some (cause, true) =>
    let j := s.updJournal
    let s := (s.writeUpdate { j with state := 0, imago := j.spare, tries := 0, prefix8 := [] }).clearMap
    let s := (s.put UPD_STAT_PREP false).modUpd fun u => { u with fallback := none, hoTick := none }
    ((s.raise 1865 cause).report 1865 0x54).jobOver 6 0
  | some (_, false) => s.fallbackCommit
  | none => s

/-- The switch instant of a handover: UPD.HO_LAT (R464). -/
def State.handoverSwitch (s : State) : State :=
  match s.upd.committing, s.upd.hoTick with
  | true, some t => s.set UPD_HO_LAT_US (min ((s.ticks - t) / 500) 0xFFFFFFFF)
  | _, _ => s

end Sys2Proof.Machine
end

