-- ==== Sys2Proof/Machine/Image.lean ====
section
/-! DEFINITION. Structure-image commands: check, staging, commit, the switch instant, moves of ports, and the restore after
a reset (R46 to R64). -/

namespace Sys2Proof.Machine

open Sys2Proof.Config (Decl)

/-! ## The move of ports (R60, R61, R152, R224, R225) -/

/-- Mode, timing sets, bit rates and recovery mode of a port. -/
structure PortSet where
  mode : Nat
  timing : List Word
  rate : BitTimes
  recovery : Nat
  deriving DecidableEq, Repr

/-- The present settings of a port. -/
def State.portSet (s : State) (n : Nat) : PortSet where
  mode := s.get (LP_CFG_MODE n)
  timing := [(BT_PRESC_NBRP n).addr, (BT_NTIM_NTSEG1 n).addr, (BT_DTIM_DTSEG1 n).addr, (BT_XTIM_XTSEG1 n).addr].map s.word
  rate := s.bitTimes n
  recovery := s.get (ECF_CFG_MODE n)

/-- TEC, REC and ESTATE start again (R224). -/
def State.clearErrors (s : State) (n : Nat) : State :=
  (((s.set (ECF_CNT_TEC n) 0).set (ECF_CNT_REC n) 0).set (ECF_STAT_ESTATE n) 0).put (ECF_STAT_WARN n) false

/-- Recovery goes on under a new MODE (R225). -/
def State.newRecovery (s : State) (n : Nat) : State :=
  let step := s.get (ECF_STAT_RSTEP n)
  match s.get (ECF_CFG_MODE n) with
  | 0 => if step = 1 || step = 3 then s.startCounting n else s
  | 1 =>
    if step = 3 then
      (s.modPort n fun p => { p with holdEnd := s.ticks + s.holdTicks n (max 1 (s.boCount n)) }).set (ECF_STAT_RSTEP n) 1
    else s
  | _ => if step = 1 || step = 2 then (s.set (ECF_STAT_RSTEP n) 3).set (ECF_STAT_SEQ n) 0 else s

/-- The error state of a port at its move (R224, R233). `live`: an epoch governed before; a commit or restore without one
is no move. -/
def State.moveErrors (s : State) (n : Nat) (was : PortSet) (live : Bool) : State :=
  let now := s.portSet n
  let off := s.get (ECF_STAT_ESTATE n) = 2
  if !live then s
  else if now.mode = 6 && was.mode != 6 then
    let s := ((s.clearErrors n).endCond (4 * n + 2) 0x04).set (ECF_STAT_SEQ n) 0
    let s := ((s.set (ECF_STAT_RSTEP n) 0).put (ECF_BO_ESC n) false).put (ECF_STAT_QPEND n) false
    s.when (s.bstate n = 7) fun s => s.setB n 1
  else if off then (if now.recovery = was.recovery then s else s.newRecovery n)
  else if isCanMode now.mode && (now.mode != was.mode || now.timing != was.timing) then
    let passive := s.get (ECF_STAT_ESTATE n) = 1
    (s.clearErrors n).when passive fun s => s.btCause n 0x22 1
  else s

/-- Queued frames whose format the new mode does not carry are discarded (R61, R179); a duplicate ends with its original
(R173). -/
def State.dropUncarried (s : State) (n : Nat) : State :=
  let ks := ((s.allPools n).filter fun p => s.get (MOP_POOL_CFG1_KIND p) = kindTX).flatMap s.poolSlots
  s.each ks fun s k =>
    let st := s.get (MOP_DESC_STATE k)
    if s.portCarries n (s.get (MOP_DESC_FMT k)) || (s.slotHid k).dupOf.isSome then s
    else if st = slotQueued || (st = slotArb && s.idleSlot k) then (s.endRequest k codeEpoch).inc IMG_XDROP_COUNT
    else if st = slotArb || st = slotOnWire then
      (s.modSlot k fun h => { h with stop := some codeEpoch }).inc IMG_XDROP_COUNT
    else s

/-- Observation of a port whose OBSERVATION content changes (R152). -/
def State.moveObservation (s : State) (n : Nat) : State :=
  let s := (((s.sndAbort n).cenAbort n).clearTrackers n).enrAbort n
  let s := (s.set (OBS_CAP_STAT_STATE n) 0).modObs n ObsPort.capClear
  s.when (s.flag (OBS_CAP_CFG_AUTO n) && s.capOn n) fun s => s.capBegin n

/-- The key that the SECURITY section binds to a port's beacon (R122). -/
def beaconKeyOf (b : List Byte) (n : Nat) : Option Nat :=
  match (decls b sSecurity).find? fun d => d.kind == 1 && d.ports.contains n with
  | some d => d.aux.head?
  | none => none

/-- The OPMODE that an image gives takes effect with the port's new words, before a mode that software wrote (R119). -/
def State.imageOpmode (s : State) (n : Nat) : State :=
  let given := s.img.old.isEmpty || (scopeOf s.img.old s.img.gov (BT_CTRL_OPMODE n).addr).contains n
  if given then
    (s.modPort n fun p => { p with opPending := some (s.get (BT_CTRL_OPMODE n)) }).applyOpmode n
  else s

/-- WARN follows a WARN_LIM that a move changes (R217, R225). -/
def State.moveWarn (s : State) (n : Nat) : State :=
  s.warnState n (if s.warnLim n ≤ s.get (ECF_CNT_TEC n) then 0 else 1)

/-- A port is at the new epoch: everything that follows its new words. -/
def State.enterEpoch (s c : State) (n : Nat) (was : PortSet) : State :=
  let old := s.img.old
  let new := s.img.gov
  let now := s.portSet n
  let s := (((s.moveErrors n was !old.isEmpty).moveWarn n).bindPort c n).dropUncarried n
  let s := s.when (portBytes old sObservation n != portBytes new sObservation n) fun s => s.moveObservation n
  let s := (s.modPort n fun p => { p with beaconKey := beaconKeyOf new n }).refreshPort n
  let b := s.bstate n
  let s := s.when ((now.mode != was.mode || now.rate != was.rate) && b != 0 && b != 1 && b != 7) fun s => s.integrate n
  let s := s.imageOpmode n
  ((s.reschedule n).set (IMG_PORT_EPOCH_EPOCH n) (s.get IMG_EPOCH_EPOCH)).evaluate (dieOf n)

/-- Ports move together: their pools let go, the words that `p` names and that wait for no other port change, and the
ports, tables and routes follow (R60 to R63). -/
def State.moveTogether (s : State) (ns : List Nat) (p : Nat → Bool) : State :=
  let old := s.img.old
  let new := s.img.gov
  let was := ns.map fun n => (n, s.portSet n)
  let start := s
  let co := s.candidate old
  let c0 := s.candidate new
  let s := s.each ns fun s n => s.leavePools co c0 old new n
  let s := s.each ns fun s n => s.put (transLoc n) false
  let left := s
  let c := s.candidate new
  let s := s.commitWords c fun a =>
    p a && !isRouteWord a && !isFspWord a && (isGlobalWord a || left.settled (scopeOf old new a))
  let ps := (List.range 1024).filter fun q => s.get (MOP_POOL_CFG1_KIND q) != 0 && co.poolChanged c old new q
  let s := s.joinPools start left ps
  let s := s.each was fun s x => s.enterEpoch c x.1 x.2
  (s.settleTables c old new).moveRoutes (s.candidate old) (s.candidate new) old new

/-! ## The switch instant (R57) -/

/-- Units take their owners (R302, R305): those whose codes change, all of them without a governing epoch; a unit whose
owner changes is cleared. -/
def State.takeUnits (s : State) (us : List Nat) (clear : Bool) : State :=
  let s := if s.halls.handover.isSome then s.handoverDone else s
  let moved := us.filter fun u => s.get (HALL_OWN_CUR u) != s.get (HALL_OWN_OWNER u)
  let s := s.when clear fun s => s.flushUnits moved false
  s.each moved fun s u => (s.set (HALL_OWN_CUR u) (s.get (HALL_OWN_OWNER u))).put (HALL_OWN_CLEARING u) clear

/-- The placement of a ring: BASE, size and TARGET (R358). -/
def State.ringPlace (s : State) (k : Nat) : Nat × Nat × Nat × Bool :=
  (s.get (LEDG_RING_BASE_BASE k), s.get (LEDG_RING_CFG_L k), s.get (LEDG_RING_CFG_TARGET k), s.flag (LEDG_RING_CFG_EN k))

/-- A ring whose placement changes restarts with HEAD and TAIL 0, armed. -/
def State.restartRing (s : State) (k : Nat) : State :=
  ((s.set (LEDG_RING_HEAD_HEAD k) 0).set (LEDG_RING_TAIL_TAIL k) 0).setRingHid k { s.ringHid k with armed := true }

/-- MC 0 rises to VERSION for an image with FLAGS bit 1 (table of the named counters, R443, R445). -/
def State.imageFloor (s : State) (b : List Byte) : State :=
  let v := imgVersion b
  if (imgFlags b).testBit 1 && decide ((s.counter 0).value < v) then
    let (ok, s) := s.advance 0 v .ok
    if ok then s.tlog 7 0 v else s
  else s

/-- The operating points under a new image: the start point without a governing epoch, else a change of the region (R294). -/
def State.newPoints (s : State) (was : List Nat) (live : Bool) : State :=
  s.each (List.range 16) fun s r =>
    if live then
      let s := s.set (RGN_OPP_CURRENT r) (was.getD r 0)
      if s.goalOf r != was.getD r 0 && !s.flag (RGN_OPP_BUSY r) then s.startChange r else s
    else s.set (RGN_OPP_CURRENT r) (min (s.get (RGN_OPP_TARGET r)) (s.get (RGN_OPP_MAX r)))

/-- IMG.EPOCH, VERSION and DIGEST show the governing image. -/
def State.showImage (s : State) (b : List Byte) (epoch : Nat) : State :=
  let d := imageDigest b
  let s := (s.set IMG_EPOCH_EPOCH epoch).set IMG_VERSION_VERSION (imgVersion b)
  s.each (List.range 12) fun s k => s.set (IMG_DIGEST_D k) (leAt d (4 * k) 4)

/-- What starts when no image governed before: the constellation's time base and its streams (R57). -/
def State.firstImage (s : State) : State :=
  let s := { s with con := { s.con with start := s.ticks } }
  (s.each (List.range 4) fun s l => s.modLane l fun v => { v with retryFrom := s.ticks }).streams

/-- The level sources that the image enables, asserted and not yet recorded, give their records (R57). -/
def State.recordLevels (s : State) (enabled : List Nat) : State :=
  s.each [1797, 1824] fun s x =>
    if s.flag (LEDG_SRC_EN x) && !enabled.contains x && s.flag (LEDG_SRC_LIVE x) && s.get (LEDG_SRC_STATE x) = 0 then
      s.levelRecord x else s

/-- The end of `applyImage`: operating points, searches, engines, readiness, the ledger and the constellation. -/
def State.applyRest (s : State) (b : List Byte) (live clear : Bool) (points enabled : List Nat) : State :=
  let s := s.newPoints points live
  let s := if live then s else s.set TIME_INC_INC (((decls b sTime).flatMap (·.aux)).headD 0x200000000)
  let s := s.each (List.range 128) fun s n => s.reschedule n
  let s := if clear then s.modUpd fun u => { u with held := false } else s
  let s := s.each ((List.range 16).filter fun r => s.get (RGN_STAT_CLUSTERS r) = 0) fun s r =>
    (s.put (rgnReadyLoc r) false).put (RGN_STAT_POWER r) false
  let s := s.each (List.range 1024) fun s e => s.enterHalted e
  let s := s.setReady 23 (!s.usedRegions.isEmpty && s.usedRegions.all s.rgnReady)
  let s := s.recordLevels enabled
  let s := if live then s else s.firstImage
  let s := if s.member then s.evalPairs s.peersOf else s
  ((s.endCond 1858 0x31).faultPin).refreshPorts

/-- Image `b` governs from now on as `epoch` (R55, R57): global content changes, and the ports whose content is the same in
both images, and those that do not wait, are at the new epoch. `clear`: a switch instant, not a restore. -/
def State.applyImage (s : State) (b : List Byte) (epoch : Nat) (clear : Bool) : State :=
  let old := s.img.gov
  let live := !old.isEmpty
  let co := s.candidate old
  let c := s.candidate b
  let ports := List.range 128
  let same := ports.filter fun n => co.samePort c old b n
  let trans := ports.filter fun n => live && !same.contains n && !s.movesAtOnce n
  let go := ports.filter fun n => !same.contains n && !trans.contains n
  let units := (List.range 4096).filter fun u => !live || s.ownPair u != c.ownPair u
  let rings := (List.range 64).filter fun k => s.ringPlace k != c.ringPlace k
  let tunnels := (List.range 64).filter fun t => [0, 8, 12].any fun o => co.word (0x3020000 + 32 * t + o) != c.word (0x3020000 + 32 * t + o)
  let points := (List.range 16).map fun r => s.get (RGN_OPP_CURRENT r)
  let enabled := [1797, 1824].filter fun x => s.flag (LEDG_SRC_EN x)
  let pools := sectionOf old sPools != sectionOf b sPools
  let s := s.modImg fun i => { i with
    gov := b, old, stopped := [], switchTick := s.ticks,
    sigs := if trans.isEmpty then [] else s.regs.filter fun e => 0x1900000 ≤ e.1 && e.1 < 0x1940000 }
  let s := s.showImage b epoch
  let s := s.each trans fun s n => s.put (transLoc n) true
  let s := ((s.suspendRoutes co old b).startLayouts co c old b).placeTables c b live
  let s := s.moveTogether go fun a => !live || co.word a != c.word a || (scopeOf old b a).any go.contains
  let s := s.each same fun s n => s.set (IMG_PORT_EPOCH_EPOCH n) epoch
  let s := if live then s else s.each (s.store.relayout.map (·.1)) State.fspRelayout
  let s := s.takeUnits units clear
  let s := s.each rings State.restartRing
  let s := s.each tunnels fun s t => (s.emptyTun t).set (GW_TUN_SEQ_TXSEQ t) 0
  let s := if pools then { s with regs := s.regs.filter fun e => !(0x2020000 ≤ e.1 && e.1 < 0x2040000) } else s
  ({ s with cur := { s.cur with occ := [] } }).applyRest b live clear points enabled

/-- Every port has moved: the IDLE copy is written, and the epoch is complete (R63). A fallback goes on from there (R466). -/
def State.completeEpoch (s : State) : State :=
  if s.get IMG_STATUS_PHASE = 5 && s.img.writing.isNone && s.settled (List.range 128) then
    let j := s.journal
    let s := s.writeJournal { state := 0, gov := j.other, govValid := true, epoch := s.get IMG_EPOCH_EPOCH,
                              govDigest := j.newDigest }
    let s := s.modImg fun i => { i with old := [], sigs := [], stopped := [] }
    ((s.raise 1857 (s.get IMG_EPOCH_EPOCH % 65536)).set IMG_STATUS_PHASE 0).fallbackNext
  else s

/-- SWITCH_INSTANT: the SWITCHING copy is complete, and the new epoch governs (R53, R57). The curator must be ready
(R369). -/
def execSwitchInstant (s : State) : Out :=
  .next <|
    if s.get IMG_STATUS_PHASE = 5 && s.img.writing.isSome && s.ready 2 && !s.asleep then
      let s := (s.modImg fun i => i.endWrite false).showJournal
      let j := s.journal
      let b := s.img.area j.other
      let epoch := j.epoch + 1
      let s := ((s.tlog 6 0 (imgVersion b)).imageFloor b).applyImage b epoch true
      ((s.raise 1856 (epoch % 65536)).handoverSwitch).completeEpoch
    else s

/-- A port in transition moves, and the epoch completes with the last one (R58, R60, R63). -/
def State.movePort (s : State) (n : Nat) : State :=
  let old := s.img.old
  let new := s.img.gov
  (s.moveTogether [n] fun a => !isGlobalWord a && (scopeOf old new a).contains n).completeEpoch

/-- PORT_MOVE: the quiet point of a port in transition (R58). -/
def execPortMove (n : PortNo) (s : State) : Out :=
  .next (if s.inTransit n && (s.port n).attempt.isNone && !s.asleep then s.movePort n else s)

/-- PORT_FORCED: IMG.TRANS_LIMIT milliseconds have passed since the switch instant; 0 acts as 1 (R59). -/
def execPortForced (n : PortNo) (s : State) : Out :=
  .next <|
    if s.inTransit n && decide (s.img.switchTick + ticksOfMs (max 1 (s.get IMG_TRANS_LIMIT_MS)) ≤ s.ticks) && !s.asleep then
      let s := (s.abandonAttempt n).cancelSearch n
      let s := (s.inc IMG_FORCED_COUNT).raise 1859 n
      let s := s.moveTogether [n] fun a => !isGlobalWord a && (scopeOf s.img.old s.img.gov a).contains n
      let b := s.bstate n
      (s.when (b != 0 && b != 1 && b != 7) fun s => s.integrate n).completeEpoch
    else s

/-- A port reset; during a transition it brings the port up in the new epoch (R64). -/
def State.resetPort (s : State) (n : Nat) : State :=
  if s.inTransit n then (s.portReset n).movePort n else s.portReset n

/-- PORT_RESET: a write of PRESET 1 to LP[n].CTRL (R80). -/
def execPortReset (q : Requester) (n : PortNo) (s : State) : Out :=
  .next (s.hostWrite q (LP_CTRL_DRV_DIS n).addr (s.ready (lineBit n)) fun s => s.resetPort n)

/-! ## Commands (R46, R50, R52, R64) -/

/-- A command that the phase does not permit is ignored (R64). -/
def State.imgErr (s : State) : State := s.put IMG_STATUS_CMDERR true

/-- The phase is one of a list. -/
def State.inPhase (s : State) (l : List Nat) : Bool := l.contains (s.get IMG_STATUS_PHASE)

/-- CHECK copies the image into the shadow (R46). -/
def State.startCheck (s : State) : State :=
  let a := s.get IMG_SRC_OFFSET * 8
  let n := min (s.get IMG_LEN_LEN) 0x400000
  (s.modImg fun i => { i with shadow := s.bytes a n }).set IMG_STATUS_PHASE 1

/-- STAGE begins to write the other area (R50, R52). -/
def State.startStage (s : State) : State :=
  let j := s.journal
  let b := s.img.shadow
  let s := s.writeJournal { j with state := 1, newDigest := imageDigest b, newVersion := imgVersion b }
  (s.modImg fun i => i.setArea j.other b).set IMG_STATUS_PHASE 3

/-- A write of a code to IMG.CTRL.CMD. While a firmware update is prepared, host commands are ignored (R462). -/
def State.imgCommand (s : State) (code : Nat) : State :=
  if s.flag UPD_STAT_PREP then s.imgErr
  else
    match code with
    | 1 => if s.inPhase [0, 2, 6] then s.startCheck else s.imgErr
    | 2 => if s.inPhase [2] then s.startStage else s.imgErr
    | 3 => if s.inPhase [4] then s.startCommit else s.imgErr
    | 4 => if s.inPhase [2, 3, 4, 6] then s.imgAbort else s.imgErr
    | _ => s.imgErr

/-- A write to IMG.CTRL. -/
def State.imgWrite (s : State) (q : Requester) (code : Nat) : State :=
  s.hostWrite q IMG_CTRL_CMD.addr (s.ready 12) fun s => s.imgCommand code

/-- IMG_CHECK. -/
def execImgCheck (q : Requester) (s : State) : Out := .next (s.imgWrite q 1)

/-- IMG_STAGE. -/
def execImgStage (q : Requester) (s : State) : Out := .next (s.imgWrite q 2)

/-- IMG_COMMIT. -/
def execImgCommit (q : Requester) (s : State) : Out := .next (s.imgWrite q 3)

/-- IMG_ABORT. -/
def execImgAbort (q : Requester) (s : State) : Out := .next (s.imgWrite q 4)

/-- IMG_CMD_IGNORED: a code that the phase does not permit, or no command; a permitted one has its effect. -/
def execImgCmdIgnored (q : Requester) (code : Fin 16) (s : State) : Out := .next (s.imgWrite q code)

/-- The enable check ends: CHECKED or FAILED (R46, R47). LENGTH is compared with IMG.LEN as it stands at the end of the check
(DESIGN CHOICE, log 102). -/
def State.checkDone (s : State) : State :=
  let (ok, s) := s.runCheck s.img.shadow (s.get IMG_LEN_LEN)
  (s.set IMG_STATUS_PHASE (if ok then 2 else 6)).raise 1858 (s.get IMG_STATUS_REASON)

/-- CHECK_DONE. -/
def execCheckDone (s : State) : Out := .next (if s.inPhase [1] then s.checkDone else s)

/-- The area has been read back; `ok` when its digest is that of the shadow (R50). -/
def State.stageDone (s : State) (ok : Bool) : State :=
  let s := if ok then s.writeJournal { s.journal with state := 2 } else s.journalIdle
  (s.set IMG_STATUS_PHASE (if ok then 4 else 6)).raise 1858 (s.get IMG_STATUS_REASON)

/-- STAGE_DONE. -/
def execStageDone (ok : Bool) (s : State) : Out := .next (if s.inPhase [3] then s.stageDone ok else s)

/-! ## Restore (R54 to R56) -/

/-- IMG becomes usable, and the time since a wake from A3 is measured (R398). -/
def State.imgReady (s : State) (outcome : Nat) : State :=
  let s := (s.set IMG_BOOT_OUTCOME outcome).modImg fun i => { i with restored := true }
  let s := match s.pwr.trigger with
    | some t => (s.set WATCH_TREST_US (min ((s.ticks - t) / 500) 131071)).modPwr fun p => { p with trigger := none }
    | none => s
  (s.setReady 12 true).wakeRecords

/-- The restore fails: no image, and an S2 fault (R56). -/
def State.restoreFail (s : State) : State :=
  let s := (s.raise 1858 (s.get IMG_STATUS_REASON)).occur 1858 0x31
  s.imgReady 3

/-- The image that the journal names is restored as `epoch` (R55); `switched`: from SWITCHING. -/
def State.restoreImage (s : State) (j : JCopy) (switched : Bool) : State :=
  let b := s.img.area (if switched then j.other else j.gov)
  let digest := if switched then j.newDigest else j.govDigest
  let epoch := if switched then j.epoch + 1 else j.epoch
  let (ok, s) := s.runCheck b (imgLength b)
  if ok && imageDigest b = digest then
    let s := if switched then s.imageFloor b else s
    let s := s.applyImage b epoch false
    let s := s.modImg fun i => { i with old := [], sigs := [], stopped := [] }
    let s := if switched then s.writeJournal { state := 0, gov := j.other, govValid := true, epoch, govDigest := digest } else s
    (s.raise 1858 0).imgReady (if switched then 2 else 1)
  else s.restoreFail

/-- IMAGE_RESTORE: after a reset the journal is settled before CHIP.READY.IMG sets (R54 to R56). The curator must be ready
(R369); in END everything is disabled (R12). -/
def execImageRestore (s : State) : Out :=
  .next <|
    if s.usable && s.ready 2 && !s.img.restored && !s.ended then
      let s := s.put IMG_JRNL_TORN (s.img.valid0.isNone || s.img.valid1.isNone)
      match s.img.journal with
      | none => s.restoreFail
      | some j =>
        let s := s.showJournal
        if j.state = 3 then s.restoreImage j true
        else
          let s := if j.state = 0 then s else s.journalIdle
          if j.govValid then s.restoreImage s.journal false else s.imgReady 0
    else s

end Sys2Proof.Machine
end

