-- ==== Sys2Proof/Machine/Ledger.lean ====
section
/-! DEFINITION. Ledger commands: raises, levels, delivery, acknowledgement, HEAD, moderation and hold-off (R343 to R360,
R515). -/

namespace Sys2Proof.Machine

/-! ## Raises and levels (R343 to R346) -/

/-- The sources that a chapter names (R343 and the source tables of the chapters). -/
def namedSource (n : Nat) : Bool :=
  n < 1544 || n = 1588 || n = 1589 || (1592 ≤ n && n ≤ 1594) || (1600 ≤ n && n ≤ 1613) || (1664 ≤ n && n ≤ 1673)
    || (1696 ≤ n && n ≤ 1708) || n = 1760 || n = 1761 || n = 1762 || (1764 ≤ n && n ≤ 1767) || (1792 ≤ n && n ≤ 1799)
    || (1824 ≤ n && n ≤ 1831) || (1856 ≤ n && n ≤ 1860) || (1862 ≤ n && n ≤ 1866) || (1888 ≤ n && n ≤ 1892)

/-- SOURCE_RAISE: a source that its chapter names is raised with a detail word (R343, R344). -/
def execSourceRaise (src : SrcNo) (detail : Word) (s : State) : Out :=
  .next (if namedSource src then s.raise src detail.toNat else s)

/-- The condition of a level source: FAULT_N low, or a readiness change (R36, R368). -/
def State.levelCondition (s : State) (src : Nat) : Bool :=
  if src = 1824 then s.get CHIP_READY_CHG_CHG != 0 else src = 1797 && s.flag CUR_STAT_FAULTN

/-- LEVEL_ASSERT: the condition of a level source holds (R345). -/
def execLevelAssert (src : SrcNo) (s : State) : Out :=
  .next (if isLevelSource src && s.levelCondition src then s.assertLevel src else s)

/-- LEVEL_DEASSERT: the condition of a level source no longer holds (R346). -/
def execLevelDeassert (src : SrcNo) (s : State) : Out :=
  .next (if isLevelSource src && !s.levelCondition src then s.deassertLevel src else s)

/-- RECORD_DELIVERY: the next record of a ring (R350 to R353). -/
def execRecordDelivery (k : Fin 64) (s : State) : Out := .next (s.deliver k)

/-! ## EOI and HEAD (R345, R347, R351) -/

/-- LEDG.ERR records the first refusal. -/
def State.ledgErr (s : State) (reason num : Nat) (q : Requester) : State :=
  if s.flag LEDG_ERR_VALID then s
  else
    let e := match q with
      | .host => 0
      | .engine e => e.val
    ((((s.set LEDG_ERR_REASON reason).set LEDG_ERR_NUM num).put LEDG_ERR_REQ (q != .host)).set LEDG_ERR_ENGINE e).put
      LEDG_ERR_VALID true

/-- The requester may acknowledge the sources of ring `k`, write its HEAD and read its registers: the host, and the
engines of the station of the engine that the ring targets (R347, R351, R360). -/
def State.ringOpen (s : State) (q : Requester) (k : Nat) : Bool :=
  match q with
  | .host => true
  | .engine _ => s.get (LEDG_RING_CFG_TARGET k) < 1024 && s.sameStation q (s.get (LEDG_RING_CFG_TARGET k))

/-- A new record of a source at its EOI; a source with EN 0 creates none (R344). -/
def State.redeliver (s : State) (src count detail nso : Nat) : State :=
  if s.flag (LEDG_SRC_EN src) then
    (s.createEventAt src count detail nso false).set (LEDG_SRC_STATE src) (s.pendingState src)
  else s.set (LEDG_SRC_STATE src) 0

/-- EOI of a source that is ACTIVE or ACTIVE_PENDING (R345). -/
def State.eoi (s : State) (src : Nat) : State :=
  if isLevelSource src then
    if s.flag (LEDG_SRC_LIVE src) then s.redeliver src 1 0 s.now else s.set (LEDG_SRC_STATE src) 0
  else if s.get (LEDG_SRC_STATE src) = 3 then
    let (c, d, t) := smapFind (fun _ => (1, 0, s.now)) s.led.latched src
    ({ s with led := { s.led with latched := smapErase s.led.latched src } }).redeliver src c d t
  else s.set (LEDG_SRC_STATE src) 0

/-- A write of LEDG.EOI (R347). -/
def State.eoiWrite (s : State) (q : Requester) (src : Nat) : State :=
  if src = 2047 then s
  else if !s.ringOpen q (s.get (LEDG_SRC_RING src)) then s.ledgErr 2 src q
  else if s.get (LEDG_SRC_STATE src) < 2 then s.ledgErr 1 src q
  else s.eoi src

/-- EOI. -/
def execEoi (q : Requester) (src : SrcNo) (s : State) : Out :=
  .next (s.openWrite q LEDG_EOI_SRC.addr (s.ready 3) fun s => s.eoiWrite q src)

/-- A HEAD write frees records, arms the ring and clears its EPEND bit; a ring left non-empty signals again, and the host
may have become idle (R351, R354, R355). -/
def State.headWrite (s : State) (q : Requester) (k v : Nat) : State :=
  let l := s.get (LEDG_RING_CFG_L k)
  let h := s.get (LEDG_RING_HEAD_HEAD k)
  if 2 ^ (l + 1) ≤ v || s.ringLen k < ringDist l h v then s.ledgErr 3 k q
  else
    let s := s.set (LEDG_RING_HEAD_HEAD k) v
    let s := s.setRingHid k { s.ringHid k with armed := true }
    let s := s.put (ependLoc k) false
    (s.signalRing k).signalTarget 1024

/-- A write of LEDG.RING_HEAD; one that is not permitted is recorded, and an engine takes an access fault (R351,
R360). -/
def State.headAccess (s : State) (q : Requester) (k v : Nat) : State :=
  let stray := match q with
    | .host => false
    | .engine e => !s.ringOpen q k && s.regPmp e (LEDG_RING_HEAD_HEAD k).addr true && s.ready 3 && !s.ended
  let s := if stray then s.ledgErr 4 k q else s
  s.access q (LEDG_RING_HEAD_HEAD k).addr (s.ringOpen q k) (s.ready 3) true fun s => (s.headWrite q k v).answerDone

/-- HEAD_WRITE. -/
def execHeadWrite (q : Requester) (k : Fin 64) (v : Fin 131072) (s : State) : Out := .next (s.headAccess q k v)

/-- MODERATION_EXPIRY: a signal held back is sent (R355). -/
def execModerationExpiry (k : Fin 64) (s : State) : Out := .next (s.signalRing k)

/-! ## Hold-off (R356) -/

/-- HOLD.ON 1: the hold-off starts; while one runs, it goes on. -/
def State.holdOn (s : State) : State :=
  if s.flag LEDG_HOLD_ON then s
  else
    let s := { s with led := { s.led with holdSince := some s.ticks } }
    (s.put LEDG_HOLD_ON true).put LEDG_STAT_HELD true

/-- The hold-off ends, and the accumulated records are delivered. -/
def State.holdOff (s : State) : State :=
  if s.flag LEDG_HOLD_ON then
    let s := { s with led := { s.led with holdSince := none } }
    ((s.put LEDG_HOLD_ON false).put LEDG_STAT_HELD false).drainAll
  else s

/-- A write of LEDG.HOLD: MAX, and ON. -/
def State.holdWrite (s : State) (on : Bool) (mx : Nat) : State :=
  let s := s.set LEDG_HOLD_MAX mx
  if on then s.holdOn else s.holdOff

/-- HOLD_ON. -/
def execHoldOn (q : Requester) (mx : Byte) (s : State) : Out :=
  .next (s.hostWrite q LEDG_HOLD_ON.addr (s.ready 3) fun s => s.holdWrite true mx.toNat)

/-- HOLD_OFF. -/
def execHoldOff (q : Requester) (mx : Byte) (s : State) : Out :=
  .next (s.hostWrite q LEDG_HOLD_ON.addr (s.ready 3) fun s => s.holdWrite false mx.toNat)

/-- HOLD_EXPIRY: MAX milliseconds after it began, the hold-off ends with HOLD_EXP; 0 acts as 10. -/
def execHoldExpiry (s : State) : Out :=
  .next <|
    match s.led.holdSince with
    | some t =>
      let mx := if s.get LEDG_HOLD_MAX = 0 then 10 else s.get LEDG_HOLD_MAX
      if t + ticksOfMs mx ≤ s.ticks then (s.put LEDG_STAT_HOLD_EXP true).holdOff else s
    | none => s

/-! ## Rates and enables (R344, R515) -/

/-- RATE_INTERVAL_END: a millisecond ends; a source that carries a count is raised with it (R515). -/
def execRateIntervalEnd (key : Fin 4224) (s : State) : Out := .next (s.closeRate key)

/-- A write of LEDG.SRC[src].EN: an asserted level source creates its record when EN becomes 1 (R344). -/
def State.srcEnable (s : State) (src : Nat) (en : Bool) : State :=
  let was := s.flag (LEDG_SRC_EN src)
  let s := s.put (LEDG_SRC_EN src) en
  if en && !was && isLevelSource src && s.flag (LEDG_SRC_LIVE src) && s.get (LEDG_SRC_STATE src) = 0 then
    s.levelRecord src
  else s

/-- SRC_ENABLE. -/
def execSrcEnable (q : Requester) (src : Fin 2047) (en : Bool) (s : State) : Out :=
  .next (s.hostWrite q (LEDG_SRC_EN src).addr (s.ready 3) fun s => s.srcEnable src en)

end Sys2Proof.Machine
end

