-- ==== Sys2Proof/Machine/Update.lean ====
section
/-! DEFINITION. Update commands, the handover, the fallback, the outcome after a reset, and Ramorny (R460 to R470). -/

namespace Sys2Proof.Machine

/-! ## Delivery -/

/-- The bytes at UPD.SRC, when they lie in units that the host owns. -/
def State.updSource (s : State) (n : Nat) : Option (List Byte) :=
  let a := s.get UPD_SRC_OFFSET * 8
  if a + n ≤ 0x4000000 && (unitsIn a (a + n - 1)).all fun u => s.get (HALL_OWN_CUR u) = 64 then some (s.bytes a n) else none

/-- A command begins; it ends with UPD_COMMAND_DONE, unless it still has work to do. -/
def State.updBegin (s : State) (code : Nat) (r : Option Nat) : State :=
  (s.put UPD_STAT_BUSY true).modUpd fun u => { u with job := some (code, r) }

/-- MANIFEST reads 14,440 bytes from UPD.SRC (R457). -/
def State.updManifest (s : State) (f : FlashSeen) : State :=
  match s.updSource manifestSize with
  | none => s.updBegin 1 (some 6)
  | some m =>
    let (r, s) := s.takeManifest m f
    s.updBegin 1 r

/-- CHUNK `k` reads 65,536 bytes from UPD.SRC (R458). -/
def State.updChunk (s : State) (k : Nat) (f : FlashSeen) : State :=
  if s.flag (mapLoc k) then s.updBegin 2 (some 0)
  else
    match s.updSource 65536 with
    | none => s.updBegin 2 (some 6)
    | some bs =>
      let (r, s) := s.takeChunk k bs f
      s.updBegin 2 r

/-! ## PREPARE (R461) -/

/-- A hall range lies in tracts that update control owns in the registers of `c`. -/
def State.tractsOwned (c : State) (a n : Nat) : Bool :=
  n = 0 || (decide (a + n ≤ 0x4000000) && (List.range 64).all fun t =>
    decide (t * 2 ^ 20 + 2 ^ 20 ≤ a) || decide (a + n ≤ t * 2 ^ 20)
      || (List.range 64).all fun k => c.get (HALL_OWN_OWNER (64 * t + k)) = 68)

/-- Chrysalis area and code staging of a manifest lie where R461 requires (step 3). -/
def State.areasOk (s c : State) (m : List Byte) : Bool :=
  let base := leAt m 0x1C 4
  let part := leAt m 0x20 4
  let stg := leAt m 0x24 4
  let n := 65536 * (codeTable m).length
  base % 65536 = 0 && stg % 65536 = 0 && part % 64 = 0 && decide (part ≤ 65536)
    && [s, c].all fun x => x.tractsOwned base (128 * part) && x.tractsOwned stg n

/-- Chrysalis formats and cluster assignments fit (step 4). -/
def State.formatsOk (s c : State) (m : List Byte) : Bool :=
  let j := s.updJournal
  let old := s.manifest j.imago
  ((List.range 64).all fun st =>
      let f := leAt old (0x500 + 8 * st) 2
      (c.clustersOf st).isEmpty || !j.imagoValid
        || (decide (leAt m (0x502 + 8 * st) 2 ≤ f) && decide (f ≤ leAt m (0x504 + 8 * st) 2)))
    && (codeTable m).all fun x => c.flag (CLU_CFG_ASSIGNED x.1)

/-- The enable check and the staging of the slot's structure image (step 2): the result code, 0 when both succeed. `ok`: the
read-back of the area agrees. -/
def State.prepareImage (s : State) (b : List Byte) (ok : Bool) : Nat × State :=
  let s := s.modImg fun i => { i with shadow := b }
  let (good, s) := s.runCheck b b.length
  let s := (s.set IMG_STATUS_PHASE (if good then 2 else 6)).raise 1858 (s.get IMG_STATUS_REASON)
  if !good || (imgFlags b).testBit 1 then (7, s)
  else
    let s := (s.startStage).stageDone ok
    (if ok then 0 else 5, s)

/-- The copy of the structure image in hall memory, in the code staging, where update control owns it (step 2). -/
def State.imageToHall (s : State) (m b : List Byte) : State :=
  let a := leAt m 0x24 4
  if s.tractsOwned a b.length then s.hallStore a b 1028 else s

/-- PREPARE: verify the slot, check and stage its structure image, stage the code. The first step that fails gives the
result. -/
def State.prepareSlot (s : State) (ok : Bool) : Nat × State :=
  let b := s.updJournal.spare
  let m := s.manifest b
  let r := s.manifestCheck m
  if r != 0 then (r, s)
  else if !(List.range (nchunk m)).all fun i => sha384 (s.chunk b (i + 1)) = (m.drop (0x800 + 48 * i)).take 48 then (4, s)
  else
    let img := s.slotImage b
    let (r, s) := (s.imageToHall m img).prepareImage img ok
    if r != 0 then (r, s)
    else
      let c := s.candidate img
      if !s.areasOk c m then (8, s)
      else if !s.formatsOk c m then (9, s)
      else
        let stg := leAt m 0x24 4
        let s := s.each (codeTable m).zipIdx fun s x => s.hallStore (stg + 65536 * x.2) (s.slotCode b x.1) 1028
        let s := s.modUpd fun u => { u with chrysalis := (leAt m 0x1C 4, leAt m 0x20 4), staging := (stg, (codeTable m).length) }
        (0, s.put UPD_STAT_PREP true)

/-! ## Handover (R463) -/

/-- An engine of the station is RUNNING or WAITING. -/
def State.stationRuns (s : State) (st : Nat) : Bool :=
  (s.stationEngines st).any fun e => s.estate e = 2 || s.estate e = 3

/-- HANDOVER, step 1: the journal, REQ 1 in every old part, and DOORBELL bit 0 of the lowest cluster of each station that
runs. -/
def State.startHandover (s : State) : State :=
  let j := s.updJournal
  let s := (s.writeUpdate { j with state := 3 }).raise 1863 (j.ver j.spare % 65536)
  let s := s.modUpd fun u => { u with hoTick := some s.ticks, committing := false }
  let s := s.each [0, 1] fun s k => s.set (UPD_FORCED_BITS k) 0
  let s := s.each (List.range 64) fun s st => s.setPartWord st 0 1
  s.each ((List.range 64).filter s.stationRuns) fun s st =>
    match s.clustersOf st with
    | [] => s
    | c :: _ => s.doorbell c 1

/-- Step 2 or 3 of a handover runs. -/
def State.handingOver (s : State) : Bool :=
  s.get UPD_STAT_STATE = 3 && s.upd.hoTick.isSome && !s.upd.committing

/-! ## CONFIRM (R465) -/

/-- The new slot becomes the imago; the floor may rise, and the chrysalis is cleared. -/
def State.confirm (s : State) (m : MramSeen) : State :=
  let j := s.updJournal
  let man := s.manifest j.imago
  let v := manifestVersion man
  let s := (s.writeUpdate { j with state := 0, tries := 0, prefix8 := [] }).clearMap
  let s := if (leAt man 0x10 4).testBit 0 && decide ((s.counter 1).value < v) then
      let (ok, s) := s.advance 1 v m
      if ok then s.tlog 7 1 v else s
    else s
  let s := s.zeroRange s.upd.chrysalis.1 (128 * s.upd.chrysalis.2)
  let s := (s.put UPD_STAT_PREP false).modUpd fun u => { u with trialTick := none }
  s.raise 1864 (v % 65536)

/-! ## Commands (R469) -/

/-- A command that is not permitted sets CMDERR (R469). -/
def State.updErr (s : State) : State := s.put UPD_STAT_CMDERR true

/-- DISCARD: IDLE, map cleared, a prepared shadow aborted. -/
def State.discard (s : State) : State :=
  let s := if s.flag UPD_STAT_PREP then (s.imgAbort).put UPD_STAT_PREP false else s
  let s := s.modUpd fun u => { u with chrysalis := (0, 0), staging := (0, 0) }
  (s.writeUpdate { s.updJournal with state := 0, prefix8 := [] }).clearMap

/-- A code of the table "Update commands" in a state that permits it. -/
def State.updPermits (s : State) (code : Nat) : Bool :=
  let st := s.get UPD_STAT_STATE
  let prep := s.flag UPD_STAT_PREP
  let idle := s.get IMG_STATUS_PHASE = 0
  !s.flag UPD_STAT_BUSY &&
    match code with
    | 1 => st = 0 || st = 1 || (st = 2 && !prep)
    | 2 => st = 1 || (st = 2 && !prep)
    | 3 => st = 2 && idle
    | 4 => st = 2 && prep
    | 5 => st = 4 && idle
    | 6 => st = 4
    | 7 => st = 1 || st = 2
    | _ => false

/-- A command and its outcomes: how programming ends, how the floor's MRAM reads, which engines do not halt in time. -/
def State.updCommand (s : State) (code arg : Nat) (f : FlashSeen) (m : MramSeen) (stuck : List EngNo) : State :=
  if !s.updPermits code then s.updErr
  else
    match code with
    | 1 => s.updManifest f
    | 2 => s.updChunk arg f
    | 3 =>
      let (r, s) := s.prepareSlot (f = .ok)
      s.updBegin 3 (some r)
    | 4 => (s.updBegin 4 none).startHandover
    | 5 => (s.confirm m).updBegin 5 (some 0)
    | 6 => (s.updBegin 6 none).startFallback 2 stuck
    | _ => (s.discard).updBegin 7 (some 0)

/-- A write of UPD.CTRL: only the host reaches it (R472). -/
def State.updWrite (s : State) (q : Requester) (code arg : Nat) (f : FlashSeen) (m : MramSeen) (stuck : List EngNo) : State :=
  s.hostWrite q UPD_CTRL_CMD.addr (s.ready 21) fun s => s.updCommand code arg f m stuck

/-- MANIFEST. -/
def execManifest (q : Requester) (f : FlashSeen) (s : State) : Out := .next (s.updWrite q 1 0 f .ok [])

/-- CHUNK. -/
def execChunk (q : Requester) (k : Fin 256) (f : FlashSeen) (s : State) : Out := .next (s.updWrite q 2 k f .ok [])

/-- PREPARE; `ok` when the staged area reads back as written. -/
def execPrepare (q : Requester) (ok : Bool) (s : State) : Out :=
  .next (s.updWrite q 3 0 (if ok then .ok else .mismatch) .ok [])

/-- HANDOVER. -/
def execHandover (q : Requester) (s : State) : Out := .next (s.updWrite q 4 0 .ok .ok [])

/-- CONFIRM. -/
def execConfirm (q : Requester) (m : MramSeen) (s : State) : Out := .next (s.updWrite q 5 0 .ok m [])

/-- FALLBACK. -/
def execFallback (q : Requester) (stuck : List EngNo) (s : State) : Out := .next (s.updWrite q 6 0 .ok .ok stuck)

/-- DISCARD. -/
def execDiscard (q : Requester) (s : State) : Out := .next (s.updWrite q 7 0 .ok .ok [])

/-- UPD_CMD_IGNORED: a code outside its permitted state, or no command; a permitted one has its effect. -/
def execUpdCmdIgnored (q : Requester) (code : Fin 16) (arg : Byte) (s : State) : Out :=
  .next (s.updWrite q code arg.toNat .ok .ok [])

/-- UPD_COMMAND_DONE: a command whose work is over finishes, and source 1860 carries its code and result (R469). -/
def execUpdCommandDone (s : State) : Out :=
  .next <|
    match s.upd.job with
    | some (code, some r) =>
      let s := (s.put UPD_STAT_BUSY false).set UPD_STAT_RESULT r
      (s.modUpd fun u => { u with job := none }).raise 1860 (code + 256 * r)
    | _ => s

/-! ## Steps of a handover -/

/-- CHRY_MS; 0 acts as 10. -/
def State.chryMs (s : State) : Nat := if s.get UPD_CFG_CHRY_MS = 0 then 10 else s.get UPD_CFG_CHRY_MS

/-- CHRYSALIS_DEADLINE: stations that still run are halted, those in `stuck` by a reset, and their parts become FORCED (step
3). -/
def execChrysalisDeadline (stuck : List (Fin 64)) (s : State) : Out :=
  .next <|
    match s.upd.hoTick with
    | some t =>
      if s.handingOver && decide (t + ticksOfMs s.chryMs ≤ s.ticks) then
        s.each ((List.range 64).filter s.stationRuns) fun s st =>
          let s := s.each (s.stationEngines st) fun s e =>
            if stuck.any (·.val == st) then s.haltByReset e else s.engineHalt e
          (s.setPartWord st 3 2).put (forcedLoc st) true
      else s
    | none => s

/-- HANDOVER_CODE_LOAD: every engine is HALTED or UNASSIGNED; the staged code goes into the instruction SRAM, and COMMIT is
issued (steps 4 and 5). -/
def execHandoverCodeLoad (s : State) : Out :=
  .next <|
    if s.handingOver && s.get IMG_STATUS_PHASE = 4 && (List.range 1024).all (fun e => decide (s.estate e ≤ 1)) then
      let m := s.manifest s.updJournal.spare
      let s := s.each (codeTable m).zipIdx fun s x =>
        s.isramPut x.1.1 0 (s.bytes (s.upd.staging.1 + 65536 * x.2) x.1.2.2)
      (s.startCommit).modUpd fun u => { u with committing := true }
    else s

/-- TRIAL_JOURNAL: the switch instant has passed; the journal enters TRIAL with the new slot, and the trial timer starts
(step 6). -/
def execTrialJournal (s : State) : Out :=
  .next <|
    if s.get UPD_STAT_STATE = 3 && s.upd.committing && s.img.writing.isNone then
      let j := s.updJournal
      let s := s.writeUpdate { j with state := 4, imago := j.spare, imagoValid := true, tries := 0 }
      (s.modUpd fun u => { u with trialTick := some s.ticks, hoTick := none, committing := false }).jobOver 4 0
    else s

/-- TRIAL_S; 0 acts as 600. -/
def State.trialS (s : State) : Nat := if s.get UPD_CFG_TRIAL_S = 0 then 600 else s.get UPD_CFG_TRIAL_S

/-- TRIAL_EXPIRY: the trial timer reaches TRIAL_S, and the fallback starts with cause 1 (R466). -/
def execTrialExpiry (stuck : List EngNo) (s : State) : Out :=
  .next <|
    match s.upd.trialTick with
    | some t =>
      if s.get UPD_STAT_STATE = 4 && decide (t + s.trialS * 500000000 ≤ s.ticks) then s.startFallback 1 stuck else s
    | none => s

/-! ## After a reset (R460) -/

/-- The slot whose structure image governs, the journal's imago first. -/
def State.imagoSlot (s : State) : Option Bool :=
  let j := s.updJournal
  let d := imageDigest s.img.gov
  if s.img.gov.isEmpty then none
  else if j.imagoValid && j.lwy j.imago = d then some j.imago
  else if j.lwy j.spare = d then some j.spare
  else none

/-- The journal after a reset that comes up with slot `b` (table "Outcome after reset"), and whether a fallback goes on. -/
def State.bootJournal (s : State) (b : Bool) : Bool × State :=
  let j := s.updJournal
  let own := j.imagoValid && j.imago == b
  match j.state, own with
  | 3, true => (false, s.writeUpdate { j with state := 2 })
  | 3, false => (false, s.writeUpdate { j with state := 4, imago := b, imagoValid := true, tries := 1 })
  | 4, true => (decide (s.get UPD_CFG_MAXTRY < j.tries + 1), s.writeUpdate { j with tries := min 15 (j.tries + 1) })
  | 5, true => (true, s)
  | 5, false =>
    (false, (s.writeUpdate { j with state := 0, imago := b, imagoValid := true, tries := 0, prefix8 := [] }).clearMap)
  | _, true => (false, s)
  | _, false => (false, s.writeUpdate { j with imago := b, imagoValid := true })

/-- UPDATE_BOOT: once the IMG journal is settled, the slot of the governing image becomes the imago, its code is loaded, and
engines with AUTO start; without one Ramorny takes the service port. -/
def execUpdateBoot (stuck : List EngNo) (s : State) : Out :=
  .next <|
    if s.usable && s.img.restored && !s.upd.booted then
      let s := (s.modUpd fun u => { u with booted := true }).showUpdate
      match s.imagoSlot with
      | none => ((s.put UPD_STAT_IMAGO_VALID false).ramorny 1).startCond 1866 0x55
      | some b =>
        let (back, s) := s.bootJournal b
        let m := s.manifest b
        let s := s.loadCode b
        let s := s.modUpd fun u => { u with
          held := false, chrysalis := (leAt m 0x1C 4, leAt m 0x20 4),
          trialTick := if u.journal.state = 4 then some s.ticks else none }
        let s := s.each (List.range 1024) fun s e => s.enterHalted e
        if back then s.startFallback 3 stuck else s
    else s

/-! ## Ramorny (R467, R468) -/

/-- Ramorny answers a DFU request: 0 OK, 1 errFILE, 2 errVERIFY, 3 errPROG, 4 errADDRESS, 5 errNOTDONE. -/
def State.dfuAnswer (s : State) (status : Nat) : State := { s with out := .dfu status :: s.out }

/-- The DFU status of an update result (table "Ramorny DFU attributes"). -/
def dfuStatus (r : Nat) : Nat :=
  match r with
  | 0 => 0
  | 4 => 2
  | 5 => 3
  | _ => 1

/-- A chunk is complete: Ramorny runs MANIFEST or CHUNK. A failure discards its blocks. -/
def State.dfuRun (s : State) (k : Nat) (bs : List Byte) (f : FlashSeen) : State :=
  let (r, s) := if k = 0 then s.takeManifest (bs.take manifestSize) f else s.takeChunk k bs f
  let s := s.modUpd fun u => { u with dfu := [] }
  match r with
  | some 0 => (s.set SVC_DFU_NEXT_BLOCK (16 * k + 16)).dfuAnswer 0
  | some r => (s.set SVC_DFU_NEXT_BLOCK (16 * k)).dfuAnswer (dfuStatus r)
  | none => s.set SVC_DFU_NEXT_BLOCK (16 * k)

/-- DFU_DNLOAD: block `n` with its bytes. Blocks below DFU_NEXT are acknowledged without effect, a block out of sequence or
beyond NCHUNK is refused. In END nothing answers (R12). -/
def execDfuDnload (n : Fin 65536) (bs : List Byte) (f : FlashSeen) (s : State) : Out :=
  .next <|
    if !s.flag SVC_STAT_RAMORNY || s.ended then s
    else
      let k := n.val / 16
      let next := s.get SVC_DFU_NEXT_BLOCK
      let st := s.get UPD_STAT_STATE
      let open_ := st ≤ 1 || (st = 2 && !s.flag UPD_STAT_PREP)
      if n.val < next then s.dfuAnswer 0
      else if n.val != next || !open_ || (k != 0 && decide (nchunk (s.manifest s.updJournal.spare) < k)) then s.dfuAnswer 4
      else
        let block := (bs ++ List.replicate (4096 - bs.length) 0).take 4096
        let all := s.upd.dfu ++ block
        if n.val % 16 = 15 then s.dfuRun k all f
        else ((s.modUpd fun u => { u with dfu := all }).set SVC_DFU_NEXT_BLOCK (n.val + 1)).dfuAnswer 0

/-- DFU_DNLOAD_END: a zero-length block. With every chunk present and no imago, the slot's image is committed through the IMG
journal, and the package resets; `rcvr` and `bad` are what that reset finds. In END nothing answers (R12). -/
def execDfuDnloadEnd (rcvr : Bool) (bad : List (Fin 32)) (s : State) : Out :=
  .next <|
    if !s.flag SVC_STAT_RAMORNY || s.ended || s.get IMG_STATUS_PHASE = 5 then s
    else if !(s.get UPD_STAT_STATE = 2) then s.dfuAnswer 5
    else if s.flag UPD_STAT_IMAGO_VALID then s.dfuAnswer 0
    else
      let s := s.dfuAnswer 0
      let u := s.updJournal
      let b := s.slotImage u.spare
      let s := s.imgAbort
      let j := s.journal
      let s := s.modImg fun i => i.setArea j.other b
      let j := { j with state := 2, newDigest := imageDigest b, newVersion := imgVersion b }
      let s := (s.writeJournal j).writeJournal { j with state := 3, switchTime := switchWord s.now }
      let s := s.writeUpdate { u with state := 0, imago := u.spare, imagoValid := true, tries := 0 }
      let s := s.resetPackage kindPackage
      let s := (s.modPwr fun p => { p with state := .a0, held := false }).checkSealed bad
      if rcvr then s.ramorny 3 else s

end Sys2Proof.Machine
end

