-- ==== Sys2Proof/Machine/Registers.lean ====
section
/-! DEFINITION. Reads and writes of the register space: width, decoding, readiness, engine access, the access types and the
holding latches (R5 to R11, R34, R276, R488 to R495). -/

namespace Sys2Proof.Machine

/-! ## Blocks (R34, R276, R489) -/

/-- The block of a register word is usable. -/
def State.blkReady (s : State) (b : Blk) (a : Nat) : Bool :=
  let line := s.ready (if a % 0x80000 < 0x40000 then 16 else 17)
  match b with
  | .chip => true
  | .pwr => true
  | .img => s.ready 12
  | .line => line
  | .obs =>
    s.ready 18 && (if a < 0x1900000 then line else if a < 0x1A00000 then s.ready (if a < 0x1920000 then 16 else 17)
      else s.ready (if a < 0x1A08000 then 16 else 17))
  | .mop => s.ready 14
  | .cat => s.ready 13
  | .gw => s.ready 15
  | .rgn => s.rgnReady ((a - 0x4000000) / 0x100000)
  | .ledg => s.ready 3
  | .cur => s.ready 2
  | .time => s.ready 4
  | .vit => s.ready 5
  | .spn => s.spnReady
  | .pcie => s.ready 6
  | .svc => s.ready 7
  | .hall => s.get CHIP_READY_HALL != 0
  | .watch => s.ready 0
  | .vault => s.ready 1
  | .upd => s.ready 21
  | .con => s.ready 22

/-- The cluster of a cluster window, and the engine of an engine window. -/
def cluAt (a : Nat) : Nat := 8 * ((a - 0x4000000) / 0x100000) + (a % 0x100000 - 0x10000) / 0x1000
/-- The engine of an engine window. -/
def engAt (a : Nat) : Nat := 64 * ((a - 0x4000000) / 0x100000) + (a % 0x100000 - 0x20000) / 0x100

/-- The requester is the time station (R339). -/
def State.timeStation (s : State) (e : EngNo) : Bool :=
  s.flag TIME_CFG_TSTN_EN && s.stationOf e == some (s.get TIME_CFG_TSTN)

/-- An engine's access to an offset of the region windows (R276). -/
def State.rgnOpen (s : State) (e : EngNo) (a : Nat) (write : Bool) : Bool :=
  let x := a % 0x100000
  if x < 0x10000 then !write && e.val / 64 == (a - 0x4000000) / 0x100000
  else if x < 0x18000 then
    e.val / 8 == cluAt a && (!write || x % 0x1000 = 8 || x % 0x1000 = 0xC || (0x100 ≤ x % 0x1000 && x % 0x1000 < 0x200))
  else if 0x20000 ≤ x && x < 0x24000 then
    s.sameStation (.engine e) (engAt a) && (!write || x % 0x100 = 0 || x % 0x100 = 0x10)
  else false

/-- The blocks that R276 opens to engines, by the chapters' own rules. -/
def State.engineOpen (s : State) (e : EngNo) (a : Nat) (write : Bool) : Bool :=
  if a < 0x100000 then !write
  else if 0x1000000 ≤ a && a < 0x1800000 then
    let o := a % 0x1000
    0x200 ≤ o && o < 0x248
      && (!write || (o = 0x200 && s.stationOf e == some (s.get (ECF_CFG_OWNER ((a - 0x1000000) / 0x1000)))))
  else if 0x2000000 ≤ a && a < 0x2800000 then
    !write || a = 0x2000000 || 0x2400000 ≤ a || (0x2020000 ≤ a && a < 0x2040000 && a % 32 < 8)
  else if 0x2800000 ≤ a && a < 0x3000000 then a < 0x2800040 && (s.stationOf e).isSome
  else if 0x4000000 ≤ a && a < 0x5000000 then s.rgnOpen e a write
  else if 0x5001000 ≤ a && a < 0x5001800 then
    s.ringOpen (.engine e) ((a - 0x5001000) / 0x20) && (!write || a % 0x20 = 0xC)
  else if 0x5000000 ≤ a && a < 0x5100000 then
    if write then a = 0x5000008 else a = 0x5000018 || a = 0x500001C
  else if 0x5200000 ≤ a && a < 0x5300000 then
    !write || (s.timeStation e && (a = 0x5200000 || (0x5200010 ≤ a && a < 0x5200018) || (0x5200030 ≤ a && a < 0x5200038)))
  else if 0x5300000 ≤ a && a < 0x5400000 then
    (0x5300020 ≤ a && a < 0x5300038 && (s.stationOf e).isSome) || (!write && 0x5301000 ≤ a && a < 0x5306000)
  else if 0x5600000 ≤ a && a < 0x5601000 then !write || (0x5600020 ≤ a && a < 0x5600040 && s.timeStation e)
  else if 0x5601000 ≤ a && a < 0x5700000 then
    if write then a = 0x560100C || ((a = 0x5601020 || a = 0x5601024)
      && s.flag VAULT_TLOG_CFG_APP_EN && s.stationOf e == some (s.get VAULT_TLOG_CFG_APPEND))
    else (0x5601100 ≤ a && a < 0x5601300) || (0x5603000 ≤ a && a < 0x5605000)
  else 0x5800000 ≤ a && a < 0x5900000 && !write

/-! ## Which word an offset reaches -/

/-- Windows that reach one register: the governor of a Line die from each of its ports' windows (R97). -/
def canonical (a : Nat) : Nat :=
  if 0x1000000 ≤ a && a < 0x1080000 && 0x800 ≤ a % 0x1000 && a % 0x1000 < 0x810 then
    0x1000000 + 0x40000 * ((a - 0x1000000) / 0x40000) + a % 0x1000
  else a

/-- The copy of a register that a requester reaches (R203, R440). -/
def State.copyAt (s : State) (q : Requester) (r : RegRow) (a : Nat) : Nat :=
  if r.perReq then perRequester ((s.ownerCode q).getD 64) + a else a

/-- The number of a requester's latch. -/
def latchOf (q : Requester) : Nat :=
  match q with
  | .host => 0
  | .engine e => e.val + 1

/-! ## Reads (R6, R7) -/

/-- A register word as it reads: local time, the sleep reasons, WINCNT (R373), WINK of a GUARDED port (R221), the pc of an
engine, the MSI-X pending bits and the bits of DOORACK are taken at the read. -/
def State.liveWord (s : State) (a : Nat) : Word :=
  if a = TIME_NOW_NS.addr then BitVec.ofNat 32 (nsOf s.now)
  else if a = TIME_NOW_NS.addr + 4 then BitVec.ofNat 32 (secOf s.now)
  else if a = TIME_NOW_HI_SEC_HI.addr then BitVec.ofNat 32 (secOf s.now / 2 ^ 32 % 65536)
  else if a = 0x5200028 then BitVec.ofNat 32 s.now
  else if a = 0x520002C then BitVec.ofNat 32 (s.now / 2 ^ 32)
  else if a = PWR_STAT_BLOCK.addr then putBits (s.word a) 2 4 s.block
  else if a = PWR_NEXT_US.addr then s.nextWord
  else if a = CUR_RECOV_COUNT.addr then putBits (s.word a) 16 4 (min s.winCount 15)
  else if 0x1000000 ≤ a && a < 0x1080000 && a % 0x1000 = 0x22C then
    let n := (a - 0x1000000) / 0x1000
    putBits (s.word a) 16 4 (if s.get (ECF_CFG_MODE n) = 1 then min (s.boCount n) 15 else 0)
  else if a = 0x5419000 || a = 0x5419004 then s.word (a - 0x5419000 + 0x5410010)
  else if 0x4000000 ≤ a && a < 0x5000000 && 0x10000 ≤ a % 0x100000 && a % 0x100000 < 0x18000 && a % 0x1000 = 0xC then
    s.word (a - 4)
  else if 0x4000000 ≤ a && a < 0x5000000 && 0x20000 ≤ a % 0x100000 && a % 0x100000 < 0x24000 && a % 0x100 = 0x1C then
    (s.engine (engAt a)).pc
  else s.word a

/-- Set or clear a latch. -/
def State.setLatch (s : State) (k : Nat) (v : Option (Nat × Word)) : State :=
  { s with latches := smapPut (fun _ => none) s.latches k v }

/-- RC fields of a word return to their reset values. -/
def State.readClears (s : State) (r : RegRow) (c : Nat) : State :=
  if r.rc = 0 then s else s.setWord c ((s.word c &&& ~~~r.rc) ||| (resetWord c &&& r.rc))

/-- The value that a read of a word returns: WO fields read 0. -/
def State.readValue (s : State) (r : RegRow) (c : Nat) : Word := s.liveWord c &&& ~~~r.wo

/-- A read of the low word of a 64-bit register latches the high word, which counts as its read; TIME.NOW latches the whole
local time (R6, R342). -/
def State.latchHigh (s : State) (q : Requester) (a : Nat) : State :=
  match rowAt (a + 4) with
  | some r =>
    if r.hi then
      let c := s.copyAt q r (a + 4)
      let v := s.readValue r c
      let s := (s.setLatch (latchOf q) (some (a + 4, v))).readClears r c
      if a = TIME_NOW_NS.addr then
        s.setLatch (latchOf q + 2048) (some (TIME_NOW_HI_SEC_HI.addr, s.liveWord TIME_NOW_HI_SEC_HI.addr))
      else s
    else s
  | none => s

/-- The read of a decoded word of a usable block. -/
def State.readRow (s : State) (q : Requester) (r : RegRow) (a : Nat) : State :=
  let c := s.copyAt q r a
  let k := if a = TIME_NOW_HI_SEC_HI.addr then latchOf q + 2048 else latchOf q
  match smapFind (fun _ => none) s.latches k with
  | some (b, v) =>
    if b = a then (s.setLatch k none).answer v.toNat
    else ((s.readClears r c).latchHigh q a).answer (s.readValue r c).toNat
  | none => ((s.readClears r c).latchHigh q a).answer (s.readValue r c).toNat

/-- An access of a wrong width or alignment: a completer abort, or an access fault of the engine (R5). -/
def State.badWidth (s : State) (q : Requester) (a : Nat) (write : Bool) : State :=
  match q with
  | .host => { s with resp := some .abort }
  | .engine e => s.accessTrap e.val (deviceAddr a) write

/-- An access to an offset that no register occupies (R491). -/
def State.undecoded (s : State) (q : Requester) (a : Nat) (write : Bool) : State :=
  match q with
  | .host =>
    let s := if s.ended then s else s.recordUnmap a q write
    if write then s.answerDone else s.answer 0
  | .engine e =>
    let s := if s.regPmp e a write && s.engineOpen e a write && !s.ended then s.recordUnmap a q write else s
    s.accessTrap e.val (deviceAddr a) write

/-- The requester is the host, or the block is open to the engine. -/
def State.opens (s : State) (q : Requester) (a : Nat) (write : Bool) : Bool :=
  match q with
  | .host => true
  | .engine e => s.engineOpen e a write

/-- A decoded read of offset `off`, which reaches word `a`: descriptors answer their owner and the host (R158); CHIP.ID and
CHIP.UID answer in END (R12). -/
def State.readDecoded (s : State) (q : Requester) (r : RegRow) (off a : Nat) : State :=
  if s.ended && (a = 0 || a = 8 || a = 0xC) then s.readRow q r a
  else s.access q off (s.opens q a false) (s.blkReady r.blk a) false fun s =>
    if 0x2400000 ≤ a && a < 0x2600000 && q != .host then
      let k := (a - 0x2400000) / 32
      match s.poolOf k with
      | none => s.mopRefuse q 4 k a false
      | some p =>
        if s.ownerCode q == some (s.get (MOP_POOL_CFG1_OWNER p)) then s.readRow q r a else s.mopRefuse q 1 k a false
    else s.readRow q r a

/-- The cluster and the byte of an instruction SRAM word in the register space. -/
def isramAt (a : Nat) : Option (Nat × Nat) :=
  if 0x4000000 ≤ a && a < 0x5000000 && 0x80000 ≤ a % 0x100000 then
    some (8 * ((a - 0x4000000) / 0x100000) + (a % 0x100000 - 0x80000) / 0x10000, a % 0x10000)
  else none

/-- A read of `size` bytes at a register offset (R492). -/
def State.readReg (s : State) (q : Requester) (off size : Nat) : State :=
  if size != 4 || off % 4 != 0 then s.badWidth q off false
  else
    match isramAt off with
    | some (c, o) => s.access q off false (s.rgnReady (c / 8)) false fun s => s.answer (s.isramWord c o)
    | none =>
      let a := canonical off
      match rowAt a with
      | some r => s.readDecoded q r off a
      | none => s.undecoded q off false

/-! ## Writes (R7, R9, R11) -/

/-- A word after a write under the access types: RW and WO bits take the value, W1C bits clear, W1S bits set, RWL bits take
the value until an image governs. -/
def writeBits (r : RegRow) (live : Bool) (old w : Word) : Word :=
  let m := r.rw ||| r.wo ||| (if live then 0 else r.rwl)
  (((old &&& ~~~m) ||| (w &&& m)) &&& ~~~(w &&& r.w1c)) ||| (w &&& r.w1s)

/-- What follows a write of a word by the meaning of its fields: source 1824 follows READY_CHG; OVF of the curator; a freed
FIRST record frees COIN (R36, R366, R371); ring signals follow IEN and MOD; an unmasked vector sends. -/
def State.afterWrite (s : State) (a : Nat) (w : Word) : State :=
  if a = 0x14 then s.readyLevel
  else if a = 0x5100004 && w.getLsbD 10 then (({ s with cur := { s.cur with ovfSafe := false } }).faultPin).exitSafe
  else if a = 0x5100010 && w.getLsbD 31 then s.setWord CUR_COIN_OTHERS.addr 0
  else if 0x5001000 ≤ a && a < 0x5001800 && (a % 0x20 = 4 || a % 0x20 = 8) then s.signalRing ((a - 0x5001000) / 0x20)
  else if 0x5418000 ≤ a && a < 0x5418400 then s.sendHeld
  else s

/-- The write of a decoded word of a usable block that has no command. -/
def State.writeRow (s : State) (q : Requester) (r : RegRow) (a : Nat) (w : Word) : State :=
  let c := s.copyAt q r a
  ((s.setWord c (writeBits r (!s.img.gov.isEmpty) (s.word c) w)).afterWrite a w).answerDone

/-- The state after a command. -/
def State.after (s : State) (o : Out) : State :=
  match o with
  | .next t => t
  | _ => s

/-- A field of a written word. -/
def fieldOf (w : Word) (lo len : Nat) : Nat := bitsOf w lo len

/-- LP[n].CTRL: DRV_DIS takes its value, then UNLATCH, then PRESET. -/
def State.lpCtrl (s : State) (n : Nat) (w : Word) : State :=
  let s := if w.getLsbD 0 then s.drvDisable n else s.drvEnable n
  let s := if w.getLsbD 1 then s.unlatch n else s
  if w.getLsbD 2 then s.resetPort n else s

/-- ECF[n].CTRL: QUAR, or RECOVER without it (R226). -/
def State.ecfCtrl (s : State) (n : Nat) (w : Word) : State :=
  if w.getLsbD 1 then s.quar n else if w.getLsbD 0 then s.recover n else s

/-- A write in a port window that starts an action. -/
def State.portAction (s : State) (q : Requester) (a : Nat) (w : Word) : Option State :=
  let n := (a - 0x1000000) / 0x1000
  match a % 0x1000 with
  | 0 => some (s.hostWrite q a (s.ready (lineBit n)) fun s => s.lpCtrl n w)
  | 0x100 => some (s.hostWrite q a (s.ready (lineBit n)) fun s => s.opmodeWrite n (fieldOf w 0 2))
  | 0x200 => some (s.ecfWrite q n fun s => s.ecfCtrl n w)
  | _ => none

/-- A write of MOP.DOORBELL, a descriptor or MON_CFG. -/
def State.mopAction (s : State) (q : Requester) (a : Nat) (w : Word) : Option State :=
  if a = 0x2000000 then
    let k := fieldOf w 0 16
    some <| match fieldOf w 16 4 with
      | 1 => s.doorbellCmd q k 1 fun p s => s.mopQueue p k
      | 2 => s.doorbellCmd q k 2 fun p s => s.mopCancel p k
      | 3 => s.doorbellCmd q k 3 fun p s => s.mopRelease p k
      | 4 => s.doorbellCmd q k 4 fun p s => s.mopAbandon p k
      | cmd => s.doorbellCmd q k cmd fun _ _ => none
  else if 0x2400000 ≤ a then some (s.descAccess q ((a - 0x2400000) / 32) (a % 32 / 4) w)
  else if 0x2020000 ≤ a && a < 0x2040000 && a % 32 = 0 then
    some (s.openWrite q a (s.ready 14) fun s =>
      s.monWrite q ((a - 0x2020000) / 32) (fieldOf w 0 16) (w.getLsbD 16) (w.getLsbD 17) (w.getLsbD 18))
  else none

/-- A write in a region window that starts an action. -/
def State.rgnAction (s : State) (q : Requester) (a : Nat) (w : Word) : Option State :=
  let x := a % 0x100000
  let r := (a - 0x4000000) / 0x100000
  if x = 0 then some (s.hostWrite q a (s.rgnReady r) fun s => s.oppWrite r (fieldOf w 0 3))
  else if 0x10000 ≤ x && x < 0x18000 then
    let c := cluAt a
    let o := x % 0x1000
    if o = 8 then some (s.cluWrite q c a fun s => s.doorbell c (fieldOf w 0 8))
    else if o = 0xC then some (s.cluWrite q c a fun s => s.doorack c (fieldOf w 0 8))
    else if 0x100 ≤ o && o < 0x200 then some (s.lockWrite q c ((o - 0x100) / 4) (fieldOf w 24 3))
    else none
  else if 0x20000 ≤ x && x < 0x24000 then
    let e := engAt a
    if x % 0x100 = 0 then
      some (s.engWrite q e fun s => match fieldOf w 0 2 with
        | 1 => if s.estate e = 1 then s.engineStart e else s
        | 2 => s.engineHalt e
        | 3 => if 1 ≤ s.estate e && s.estate e ≤ 3 then s.engineReset e else s
        | _ => s)
    else none
  else none

/-- A write of a TIME register that starts an action. -/
def State.timeAction (s : State) (q : Requester) (a : Nat) (w : Word) : Option State :=
  if a = 0x5200010 then some (s.timeWrite q a fun s => s.incLow w)
  else if a = 0x5200014 then some (s.timeWrite q a fun s => s.incHigh w)
  else if a = 0x5200000 then
    some <| match fieldOf w 0 3 with
      | 0 => s.timeWrite q a id
      | 1 => s.timeCmd q fun s => s.stepCmd (w.getLsbD 3)
      | 2 => s.timeCmd q fun s => s.lockSync
      | 3 => s.timeCmd q fun s => s.setSync 0 2
      | 4 => s.timeCmd q fun s => s.nonceCmd
      | 5 => s.timeCmd q fun s => s.tokenCmd
      | _ => s.timeWrite q a fun s => s.timeErr
  else none

/-- A write of a LEDG register that starts an action. -/
def State.ledgAction (s : State) (q : Requester) (a : Nat) (w : Word) : Option State :=
  if a = 0x5000004 then some (s.hostWrite q a (s.ready 3) fun s => s.holdWrite (w.getLsbD 0) (fieldOf w 1 8))
  else if a = 0x5000008 then some (s.openWrite q a (s.ready 3) fun s => s.eoiWrite q (fieldOf w 0 11))
  else if 0x5001000 ≤ a && a < 0x5001800 && a % 0x20 = 0xC then
    some (s.headAccess q ((a - 0x5001000) / 0x20) (fieldOf w 0 17))
  else if 0x5010000 ≤ a then
    some (s.hostWrite q a (s.ready 3) fun s => s.srcEnable ((a - 0x5010000) / 4) (w.getLsbD 8))
  else none

/-- A write of a CUR register that starts an action. -/
def State.curAction (s : State) (q : Requester) (a : Nat) (w : Word) : Option State :=
  let arg := fieldOf w 8 8
  if a = 0x5100000 then
    some (s.curWrite q fun s => match fieldOf w 0 4 with
      | 1 => s.curClear arg
      | 2 => s.curClearAll
      | 3 => s.curEnter
      | 4 => if arg < 64 then s.requestReclaim arg else s.curErr
      | 5 => s.put CUR_STAT_RLOCK false
      | 6 => if arg < 64 then s.curReturn arg else s.curErr
      | _ => s.curErr)
  else if a = 0x510003C then
    some (if w.getLsbD 31 then s.after (execFaultInject q (Fin.ofNat 2048 (fieldOf w 0 11)) (BitVec.ofNat 8 (fieldOf w 11 8)) s)
      else s.hostWrite q a (s.ready 2) id)
  else none

/-- A write of a VIT or VAULT register that starts an action. -/
def State.vitAction (s : State) (q : Requester) (a : Nat) (w : Word) : Option State :=
  if a = 0x5300004 then
    let h := Fin.ofNat 256 (fieldOf w 8 8)
    let arg := fieldOf w 16 8
    some <| match fieldOf w 0 4 with
      | 1 => s.after (execKeyWrite q h true s)
      | 2 => s.after (execImport q true s)
      | 3 => s.after (execDerive q h (Fin.ofNat 256 arg) s)
      | 4 => s.after (execErase q h s)
      | 5 => s.after (execLc q (BitVec.ofNat 8 arg) s)
      | 6 => s.after (execRoot q s)
      | _ => s.hostWrite q a (s.ready 5) id
  else if a = 0x5300020 then
    let b := fieldOf w 2 10
    let n := fieldOf w 12 12
    some <| s.auBank q fun k s => match fieldOf w 0 2 with
      | 1 => s.auSign q k b n .ok
      | 2 => s.auVerify q k b n .ok
      | _ => s
  else if a = 0x560100C then
    let k := fieldOf w 2 6
    some <| match fieldOf w 0 2 with
      | 1 => s.mcCommand q k ((s.counter k).value + 1) .ok
      | 2 => s.mcCommand q k (s.get VAULT_MC_ARG_VALUE) .ok
      | _ => s.openWrite q a (s.ready 1) id
  else if a = 0x5601024 then some (s.after (execTlogAppend q (w ++ s.word 0x5601020) s))
  else none

/-- A write of an interface register that starts an action. -/
def State.spineAction (s : State) (q : Requester) (a : Nat) (w : Word) : Option State :=
  if 0x5401000 ≤ a && a < 0x5401400 && a % 0x100 = 0x1C then
    let l := (a - 0x5401000) / 0x100
    some (s.hostWrite q a s.spnReady fun s => (s.set (SPN_HQ_PTR_RX_HEAD l) (fieldOf w 8 5)).hqTail l (fieldOf w 16 5))
  else if a = 0x5420004 then some (s.hostWrite q a (s.ready 7) fun s => if w.getLsbD 9 then s.withdrawUnlock else s)
  else none

/-- A write that starts an action: the command of its register. -/
def State.action (s : State) (q : Requester) (a : Nat) (w : Word) : Option State :=
  if a = 0x100 then some (s.hostWrite q a true fun s => s.allowWrite (fieldOf w 0 2))
  else if a = 0x100000 then some (s.imgWrite q (fieldOf w 0 4))
  else if 0x1000000 ≤ a && a < 0x1080000 then s.portAction q a w
  else if 0x1800000 ≤ a && a < 0x1880000 then
    if a % 0x1000 = 0 then some (s.obsWrite q ((a - 0x1800000) / 0x1000) (fieldOf w 0 4) (w.getLsbD 4)) else none
  else if 0x2000000 ≤ a && a < 0x2800000 then s.mopAction q a w
  else if a = 0x2800000 then
    let t := fieldOf w 8 8
    some (s.catBank q fun b s => match fieldOf w 0 3 with
      | 1 => s.catInsert b t
      | 2 => s.catDelete b t
      | 3 => s.catReplace b t
      | _ => s.catUnknown b)
  else if 0x4000000 ≤ a && a < 0x5000000 then s.rgnAction q a w
  else if 0x5000000 ≤ a && a < 0x5100000 then s.ledgAction q a w
  else if 0x5100000 ≤ a && a < 0x5200000 then s.curAction q a w
  else if 0x5200000 ≤ a && a < 0x5300000 then s.timeAction q a w
  else if (0x5300000 ≤ a && a < 0x5400000) || (0x5600000 ≤ a && a < 0x5700000) then s.vitAction q a w
  else if 0x5400000 ≤ a && a < 0x5500000 then s.spineAction q a w
  else if a = 0x5500010 then
    some (s.hostWrite q a (s.blkReady .hall a) fun s => s.handover (fieldOf w 0 12) (fieldOf w 12 6 + 1) (w.getLsbD 18))
  else if a = 0x5500018 then
    some (s.hostWrite q a (s.blkReady .hall a) fun s => s.hallRevoke (fieldOf w 0 7) (fieldOf w 7 7))
  else if a = 0x5700000 then some (s.updWrite q (fieldOf w 0 4) (fieldOf w 4 8) .ok .ok [])
  else none

/-- A write of `size` bytes at a register offset (R492). -/
def State.writeReg (s : State) (q : Requester) (off size : Nat) (w : Word) : State :=
  if size != 4 || off % 4 != 0 then s.badWidth q off true
  else
    match isramAt off with
    | some (c, o) => s.hostWrite q off (s.rgnReady (c / 8)) fun s => s.isramWrite q c o w
    | none =>
      let a := canonical off
      match rowAt a with
      | some r =>
        match s.action q a w with
        | some s => s
        | none => s.access q off (s.opens q a true) (s.blkReady r.blk a) true fun s => s.writeRow q r a w
      | none => s.undecoded q off true

/-! ## Commands -/

/-- LOW_WORD_READ: a read of the low word of a 64-bit register. -/
def execLowWordRead (q : Requester) (off : RegOff) (size : Nat) (s : State) : Out := .next (s.readReg q off size)

/-- READ_CLEAR: a read of any other register word. -/
def execReadClear (q : Requester) (off : RegOff) (size : Nat) (s : State) : Out := .next (s.readReg q off size)

/-- REGISTER_WRITE. -/
def execRegisterWrite (q : Requester) (off : RegOff) (size : Nat) (w : Word) (s : State) : Out :=
  .next (s.writeReg q off size w)

end Sys2Proof.Machine
end

