-- ==== Sys2Proof/Machine/EngineAccess.lean ====
section
/-! DEFINITION. An engine's accesses by its own addresses: registers through its own windows and the device range, memory
otherwise (R272, R274), and the hall access command. -/

namespace Sys2Proof.Machine

/-- The register offset that an engine address reaches: its own CLU and ENG windows, and the device range. -/
def deviceOff (e a : Nat) : Option Nat :=
  if 0x12000000 ≤ a && a < 0x12001000 then some (ownClu e + (a - 0x12000000))
  else if 0x12010000 ≤ a && a < 0x12010100 then some (ownEng e + (a - 0x12010000))
  else if 0x20000000 ≤ a && a < 0x28000000 then some (a - 0x20000000)
  else none

/-- An access fault that a register access took has the address that the engine used in mtval. -/
def State.faultAt (s : State) (e a : Nat) : State :=
  if s.resp == some .fault then
    (s.modEngine e fun v => v.setCsr csrMtval (BitVec.ofNat 32 a)).set (ENG_TVAL_VAL e) a
  else s

/-- An engine's access to the register at offset `off` through its address `a`. A store has its effect with the pc `len`
bytes on, where the instruction after it lies, and faults with the pc on its own. -/
def State.deviceAccess (s : State) (e len off : Nat) (r : HallReq) : State :=
  let q : Requester := .engine (Fin.ofNat 1024 e)
  let s := { s with resp := none }
  let atNext := s.modEngine e fun v => { v with pc := v.pc + BitVec.ofNat 32 len }
  if !(s.engine e).pmpOk r.addr r.acc.size r.acc.need then s.accTrap e r.acc.cause r.addr
  else match r.acc with
    | .read n => (s.readReg q off n).faultAt e r.addr
    | .write bs =>
      let w := BitVec.ofNat 32 (leNat bs)
      if (atNext.writeReg q off bs.length w).resp == some .fault then (s.writeReg q off bs.length w).faultAt e r.addr
      else atNext.writeReg q off bs.length w
    | _ => if r.acc.atomic && r.addr % 4 != 0 then s.accTrap e 6 r.addr else s.accTrap e r.acc.cause r.addr

/-- An engine's access at one of its addresses, in the order of R274. -/
def State.engineBus (s : State) (e len : Nat) (r : HallReq) : State :=
  match deviceOff e r.addr with
  | some off => s.deviceAccess e len off r
  | none => s.engineAccess e r

/-- HALL_ACCESS: an access of a master to the halls, or of a RUNNING engine at one of its addresses (R272, R312). -/
def execHallAccess (r : HallReq) (s : State) : Out :=
  .next <|
    match r.master with
    | .engine e => if s.estate e = 2 then s.engineBus e 0 r else s
    | _ => s.hallAccess r

end Sys2Proof.Machine
end

