-- ==== Sys2Proof/Machine/Xfly.lean ====
section
/-! DEFINITION. The Xfly block instructions: operands in CSRs, one element at a time, suspension and resumption
(R277 to R284). -/

namespace Sys2Proof.Machine

/-- An Xfly CSR (R278). -/
def State.xcsr (s : State) (e c : Nat) : Word := (s.engine e).getCsr c

/-- Set an Xfly CSR. -/
def State.setXcsr (s : State) (e c : Nat) (w : Word) : State := s.modEngine e fun v => v.setCsr c w

/-- XFCNT. -/
def csrXFCNT : Nat := 0x801
/-- XFSRC. -/
def csrXFSRC : Nat := 0x802
/-- XFDST. -/
def csrXFDST : Nat := 0x803
/-- XFARG. -/
def csrXFARG : Nat := 0x804
/-- XFLIM. -/
def csrXFLIM : Nat := 0x805
/-- XFMASK. -/
def csrXFMASK : Nat := 0x806
/-- XFIDX. -/
def csrXFIDX : Nat := 0x807
/-- XFMAC0. -/
def csrXFMAC : Nat := 0x808

/-- What an element does: it completes, it ends the instruction with a result for rd, it takes a trap, or its access
waits (R281, R310). -/
inductive XfRes where
  | go (s : State)
  | done (s : State) (rd : Word)
  | trapped (s : State)
  | waits
  deriving DecidableEq, Repr

/-- An Xfly instruction of the engine is in progress. -/
def State.xBusy (s : State) (e : Nat) : Bool := bitsOf (s.xcsr e csrXFST) 0 1 = 1

/-- One memory or register access of an instruction `len` bytes long, or of an element: the data, or a trap, or a wait. An
element whose store resets its own engine is abandoned (R270). -/
def State.xAccess (s : State) (e a len : Nat) (acc : HallAcc) : XfRes × Nat :=
  let master : HallMaster := .engine (Fin.ofNat 1024 e)
  let t := ({ s with resp := none }).engineBus e len { master, addr := a, acc }
  if s.xBusy e && bitsOf (t.xcsr e csrXFST) 0 2 = 0 then (.trapped t, 0)
  else match t.resp with
    | some (.data w) => (.go t, w)
    | some .done => (.go t, 0)
    | none => (.waits, 0)
    | _ => (.trapped t, 0)

/-- Continue with the data of an access. -/
def xBind (r : XfRes × Nat) (f : State → Nat → XfRes) : XfRes :=
  match r with
  | (.go s, w) => f s w
  | (x, _) => x

/-- Load `n` bytes. -/
def State.xLoad (s : State) (e a n : Nat) : XfRes × Nat := s.xAccess e a 0 (.read n)

/-- Store bytes. -/
def State.xStore (s : State) (e a : Nat) (bs : List Byte) : XfRes × Nat := s.xAccess e a 0 (.write bs)

/-- After an element the CSRs advance past it: XFCNT, XFSRC and XFIDX (R279); mhpmcounter6 counts it (R271). -/
def State.xAdvance (s : State) (e step : Nat) : State :=
  let s := s.modEngine e fun v => v.count 6
  let s := s.setXcsr e csrXFCNT (s.xcsr e csrXFCNT - 1)
  let s := s.setXcsr e csrXFSRC (s.xcsr e csrXFSRC + BitVec.ofNat 32 step)
  s.setXcsr e csrXFIDX (s.xcsr e csrXFIDX + 1)

/-- One element of SCAN (R277): its index when it matches. -/
def State.scanElem (s : State) (e size : Nat) : XfRes :=
  xBind (s.xLoad e (s.xcsr e csrXFSRC).toNat (2 ^ size)) fun s w =>
    let m := s.xcsr e csrXFMASK
    let i := s.xcsr e csrXFIDX
    let hit := (BitVec.ofNat 32 w &&& m) == (s.xcsr e csrXFARG &&& m)
    let s := s.xAdvance e (2 ^ size)
    if hit then .done s i else .go s

/-- One element of COPY: the load before the store (R280). -/
def State.copyElem (s : State) (e size : Nat) : XfRes :=
  xBind (s.xLoad e (s.xcsr e csrXFSRC).toNat (2 ^ size)) fun s w =>
    let d := s.xcsr e csrXFDST
    xBind (s.xStore e d.toNat (leBytes (2 ^ size) w)) fun s _ =>
      .go ((s.xAdvance e (2 ^ size)).setXcsr e csrXFDST (d + BitVec.ofNat 32 (2 ^ size)))

/-- The chaining value of XFMAC0 to XFMAC3. -/
def State.xMac (s : State) (e : Nat) : List Byte :=
  (List.range 4).flatMap fun k => leBytes 4 (s.xcsr e (csrXFMAC + k)).toNat

/-- Set the chaining value. -/
def State.setXMac (s : State) (e : Nat) (m : List Byte) : State :=
  s.each (List.range 4) fun s k => s.setXcsr e (csrXFMAC + k) (BitVec.ofNat 32 (leNat ((m.drop (4 * k)).take 4)))

/-- The station of an engine may use the handle for CMAC (R284, R433). -/
def State.xKeyOk (s : State) (e : Nat) : Bool :=
  let h := (s.xcsr e csrXFARG).toNat
  h < 256 && s.useOk h 0 (s.worldOf (.engine (Fin.ofNat 1024 e))) && (s.keyOf h).length ≤ 32

/-- The key fault: exception 24 with mtval the handle (R284). -/
def State.xKeyFault (s : State) (e : Nat) : XfRes := .trapped (s.trap e 24 (s.xcsr e csrXFARG) false)

/-- One block of CMAC STEP (R282). -/
def State.cmacElem (s : State) (e : Nat) : XfRes :=
  if !s.xKeyOk e then s.xKeyFault e
  else
    xBind (s.xLoad e (s.xcsr e csrXFSRC).toNat 16) fun s w =>
      let key := s.keyOf (s.xcsr e csrXFARG).toNat
      .go ((s.setXMac e (aes key (xorB (s.xMac e) (leBytes 16 w)))).xAdvance e 16)

/-- The final block of CMAC FIN, of XFCNT bytes (R282). -/
def State.cmacFinElem (s : State) (e : Nat) : XfRes :=
  if !s.xKeyOk e then s.xKeyFault e
  else
    let n := (s.xcsr e csrXFCNT).toNat
    let src := s.xcsr e csrXFSRC
    let r := if n = 0 then (.go s, 0) else s.xLoad e src.toNat n
    xBind r fun s w =>
      let key := s.keyOf (s.xcsr e csrXFARG).toNat
      let block :=
        if n = 16 then xorB (leBytes 16 w) (cmacK1 key)
        else xorB (leBytes n w ++ [0x80] ++ List.replicate (15 - n) 0) (cmacK2 key)
      let s := s.setXMac e (aes key (xorB (s.xMac e) block))
      let s := (s.setXcsr e csrXFCNT 0).setXcsr e csrXFSRC (src + BitVec.ofNat 32 n)
      .done ((s.setXcsr e csrXFIDX 1).modEngine e fun v => v.count 6) 0

/-! ## Signals (R283) -/

/-- The frame position of signal bit `i`; none below 0. -/
def signalPos (start i : Nat) (big : Bool) : Option Nat :=
  if !big then some (start + i)
  else
    match i with
    | 0 => some start
    | i + 1 =>
      match signalPos start i big with
      | none => none
      | some q => if q % 8 = 7 then (if q < 15 then none else some (q - 15)) else some (q + 1)

/-- The positions of a signal, bit 0 first; none when one lies outside the frame. -/
def signalBits (w0 : Nat) (lim : Nat) : Option (List Nat) :=
  let big := w0.testBit 19
  let ps := (List.range (w0 / 2 ^ 14 % 32 + 1)).map fun i => signalPos (w0 % 2 ^ 14) i big
  if ps.all fun p => match p with | some q => q < 8 * lim | none => false then some (ps.map (·.getD 0)) else none

/-- The signal ends the instruction before it: rd takes XFIDX (R283). -/
def State.signalEnd (s : State) (e : Nat) : XfRes := .done s (s.xcsr e csrXFIDX)

/-- Load single bytes of the frame buffer, in order. -/
def State.xBytes (s : State) (e : Nat) : List Nat → List Nat → (State → List Nat → XfRes) → XfRes
  | [], acc, f => f s acc.reverse
  | a :: as, acc, f => xBind (s.xLoad e a 1) fun s w => s.xBytes e as (w :: acc) f

/-- Store single bytes of the frame buffer, in order. -/
def State.xPutBytes (s : State) (e : Nat) : List (Nat × Nat) → (State → XfRes) → XfRes
  | [], f => f s
  | (a, v) :: as, f => xBind (s.xStore e a [BitVec.ofNat 8 v]) fun s _ => s.xPutBytes e as f

/-- The descriptor of the next signal, then its bit positions. -/
def State.signal (s : State) (e : Nat) (f : State → Nat → Nat → List Nat → XfRes) : XfRes :=
  let t := (s.xcsr e csrXFSRC).toNat
  xBind (s.xLoad e t 4) fun s w0 => xBind (s.xLoad e (t + 4) 4) fun s w1 =>
    match signalBits w0 (s.xcsr e csrXFLIM).toNat with
    | none => s.signalEnd e
    | some ps => f s w0 w1 ps

/-- One signal of PACK: the low bits of the value word go to their positions, every other frame bit stays (R283). -/
def State.packElem (s : State) (e : Nat) : XfRes :=
  s.signal e fun s _ w1 ps =>
    if w1 % 4 != 0 then .trapped (s.trap e 4 (BitVec.ofNat 32 w1) false)
    else
      xBind (s.xLoad e w1 4) fun s v =>
        let buf := (s.xcsr e csrXFDST).toNat
        let idx := (ps.map (· / 8)).eraseDups
        s.xBytes e (idx.map (buf + ·)) [] fun s old =>
          let new := (idx.zip old).map fun (k, b) =>
            (buf + k, (ps.zipIdx.filter fun p => p.1 / 8 == k).foldl
              (fun b p => b % 2 ^ (p.1 % 8) + (if v.testBit p.2 then 2 ^ (p.1 % 8) else 0)
                + b / 2 ^ (p.1 % 8 + 1) * 2 ^ (p.1 % 8 + 1)) b)
          s.xPutBytes e new fun s => .go (s.xAdvance e 8)

/-- One signal of UNPACK: its bits are gathered and stored as a word, sign- or zero-extended (R283). -/
def State.unpackElem (s : State) (e : Nat) : XfRes :=
  s.signal e fun s w0 w1 ps =>
    if w1 % 4 != 0 then .trapped (s.trap e 6 (BitVec.ofNat 32 w1) false)
    else
      let buf := (s.xcsr e csrXFDST).toNat
      let idx := (ps.map (· / 8)).eraseDups
      s.xBytes e (idx.map (buf + ·)) [] fun s old =>
        let byte := fun k => ((idx.zip old).lookup k).getD 0
        let v := ps.zipIdx.foldl (fun v p => v + if (byte (p.1 / 8)).testBit (p.1 % 8) then 2 ^ p.2 else 0) 0
        let n := ps.length
        let v := if w0.testBit 20 && v.testBit (n - 1) then v + (2 ^ 32 - 2 ^ n) else v
        xBind (s.xStore e w1 (leBytes 4 v)) fun s _ => .go (s.xAdvance e 8)

/-! ## Running (R279, R281) -/

/-- The instruction retires: rd takes its result, ACTIVE becomes 0, and the pc moves on. -/
def State.xFinish (s : State) (e rd : Nat) (w : Word) : State :=
  let s := s.modEngine e fun v => (v.setCsr csrXFST (putBits (v.getCsr csrXFST) 0 1 0)).setX rd w
  (s.xactive e).retire e

/-- A pending enabled interrupt is taken after the current element (R281). -/
def State.xIntr (s : State) (e : Nat) : Option State :=
  let v := s.engine e
  let p := s.mip e &&& (v.getCsr csrMie).toNat
  if p != 0 && (v.user || bitsOf (v.getCsr csrMstatus) 3 1 = 1) then some (s.trap e (intrCause p) 0 true) else none

/-- Run elements until the count is 0, an element ends the instruction or suspends it, or the stop applies; after each
element an enabled interrupt that is pending is taken. `n` counts the elements done in this run, `fuel` is XFCNT at its
start. -/
def State.xRun (elem : State → XfRes) (e rd : Nat) (last : State → Word) (stop : XfStop) :
    Nat → Nat → State → State
  | 0, _, s => s.xFinish e rd (last s)
  | fuel + 1, n, s =>
    let next := match elem s with
      | .go t =>
        if !t.xBusy e then t
        else if fuel = 0 then t.xFinish e rd (last t)
        else match t.xIntr e with
          | some u => u
          | none => t.xRun elem e rd last stop fuel (n + 1)
      | .done t w => t.xFinish e rd w
      | .trapped t => t.xactive e
      | .waits => s
    match stop with
    | .intr k => if n = k && 0 < k then s else next
    | .halt k => if n = k then s else next
    | .run => next

/-- What follows the run: a HALT takes effect after the element in progress, or at the end of an instruction that ended
before it (R268, R281). -/
def State.xStop (s : State) (e : Nat) (stop : XfStop) : State :=
  match stop with
  | .halt _ => s.engineHalt e
  | _ => s

/-- The operands of an Xfly instruction are loaded when ACTIVE is 0; with ACTIVE 1 the same operation resumes, and
another one is illegal (R279). -/
def State.xBegin (s : State) (e op size cnt src : Nat) (arg : Word) (argCsr : Nat) : Option State :=
  let st := s.xcsr e csrXFST
  if bitsOf st 0 1 = 1 then
    if bitsOf st 2 3 = op && bitsOf st 5 2 = size then some s else none
  else
    let s := (s.setXcsr e csrXFCNT (BitVec.ofNat 32 cnt)).setXcsr e csrXFSRC (BitVec.ofNat 32 src)
    let s := (s.setXcsr e argCsr arg).setXcsr e csrXFIDX 0
    let st := putBits (putBits (putBits st 2 3 op) 5 2 size) 0 1 1
    some ((s.setXcsr e csrXFST st).xactive e)

/-- The word of an Xfly instruction (R277). -/
def xfWord (op size rd rs1 rs2 : Nat) : Word :=
  BitVec.ofNat 32 (op * 2 ^ 25 + rs2 * 2 ^ 20 + rs1 * 2 ^ 15 + size * 2 ^ 12 + rd * 2 ^ 7 + 0x0B)

/-- An Xfly instruction of a RUNNING engine: operands, alignment of the start addresses (R280), then its elements.
`aligned` gives the cause and the address of a misaligned start. -/
def State.xfly (s : State) (e op size rd rs1 rs2 argCsr : Nat) (bad : Bool) (aligned : State → Option (Nat × Word))
    (elem : State → XfRes) (last : State → Word) (stop : XfStop) : State :=
  if s.estate e != 2 then s
  else
    let v := s.engine e
    let illegal := s.trap e 2 (xfWord op size rd rs1 rs2) false
    if bad then illegal
    else match s.xBegin e op size (v.getX rd).toNat (v.getX rs1).toNat (v.getX rs2) argCsr with
      | none => illegal
      | some s =>
        match aligned s with
        | some (c, a) => (s.trap e c a false).xactive e
        | none => (s.xRun elem e rd last stop (if op = 2 && size = 1 then 1 else (s.xcsr e csrXFCNT).toNat) 0).xStop e stop

/-- A misaligned load start. -/
def State.srcAligned (s : State) (e n : Nat) : Option (Nat × Word) :=
  if (s.xcsr e csrXFSRC).toNat % n = 0 then none else some (4, s.xcsr e csrXFSRC)

/-- XF_SCAN. -/
def execXfScan (e : EngNo) (size : Fin 3) (rd rs1 rs2 : Fin 32) (stop : XfStop) (s : State) : Out :=
  .next (s.xfly e 0 size rd rs1 rs2 csrXFARG false (fun s => s.srcAligned e (2 ^ size.val))
    (fun s => s.scanElem e size) (fun _ => 0xFFFFFFFF) stop)

/-- XF_COPY. -/
def execXfCopy (e : EngNo) (size : Fin 4) (rd rs1 rs2 : Fin 32) (stop : XfStop) (s : State) : Out :=
  .next (s.xfly e 1 size rd rs1 rs2 csrXFDST false
    (fun s => match s.srcAligned e (2 ^ size.val) with
      | some x => some x
      | none => if (s.xcsr e csrXFDST).toNat % 2 ^ size.val = 0 then none else some (6, s.xcsr e csrXFDST))
    (fun s => s.copyElem e size) (fun _ => 0) stop)

/-- XF_CMAC_STEP. -/
def execXfCmacStep (e : EngNo) (rd rs1 rs2 : Fin 32) (stop : XfStop) (s : State) : Out :=
  .next (s.xfly e 2 0 rd rs1 rs2 csrXFARG false (fun s => s.srcAligned e 4) (fun s => s.cmacElem e) (fun _ => 0) stop)

/-- XF_CMAC_FIN: a length above 16 is illegal (R282). -/
def execXfCmacFin (e : EngNo) (rd rs1 rs2 : Fin 32) (stop : XfStop) (s : State) : Out :=
  .next (s.xfly e 2 1 rd rs1 rs2 csrXFARG
    (decide (16 < (if bitsOf (s.xcsr e csrXFST) 0 1 = 1 then (s.xcsr e csrXFCNT).toNat else ((s.engine e).getX rd).toNat)))
    (fun s => s.srcAligned e 4) (fun s => s.cmacFinElem e) (fun _ => 0) stop)

/-- XF_PACK. -/
def execXfPack (e : EngNo) (rd rs1 rs2 : Fin 32) (stop : XfStop) (s : State) : Out :=
  .next (s.xfly e 3 0 rd rs1 rs2 csrXFDST false (fun s => s.srcAligned e 4) (fun s => s.packElem e)
    (fun s => s.xcsr e csrXFIDX) stop)

/-- XF_UNPACK. -/
def execXfUnpack (e : EngNo) (rd rs1 rs2 : Fin 32) (stop : XfStop) (s : State) : Out :=
  .next (s.xfly e 4 0 rd rs1 rs2 csrXFDST false (fun s => s.srcAligned e 4) (fun s => s.unpackElem e)
    (fun s => s.xcsr e csrXFIDX) stop)

end Sys2Proof.Machine
end

