-- ==== Sys2Proof/Machine/Rv32.lean ====
section
/-! DEFINITION. One instruction of an engine: RV32IMAC with Zicsr and Zifencei in M-mode and U-mode (R271, R272, R275), as
the RISC-V ISA gives it. The engine debug step runs one
(R421), and a tick of the timebase one of every RUNNING engine. -/

namespace Sys2Proof.Machine

/-! ## Instruction fields -/

/-- Bits `lo + n − 1` to `lo` of an instruction. -/
def bf (w lo n : Nat) : Nat := w / 2 ^ lo % 2 ^ n

/-- A field of `n` bits as a signed number, modulo 2^32. -/
def sx (v n : Nat) : Word := (BitVec.ofNat n v).signExtend 32

/-- The I immediate. -/
def immI (w : Nat) : Word := sx (bf w 20 12) 12
/-- The S immediate. -/
def immS (w : Nat) : Word := sx (bf w 25 7 * 32 + bf w 7 5) 12
/-- The B immediate. -/
def immB (w : Nat) : Word := sx (bf w 31 1 * 2 ^ 12 + bf w 7 1 * 2 ^ 11 + bf w 25 6 * 32 + bf w 8 4 * 2) 13
/-- The U immediate. -/
def immU (w : Nat) : Word := BitVec.ofNat 32 (bf w 12 20 * 2 ^ 12)
/-- The J immediate. -/
def immJ (w : Nat) : Word := sx (bf w 31 1 * 2 ^ 20 + bf w 12 8 * 2 ^ 12 + bf w 20 1 * 2 ^ 11 + bf w 21 10 * 2) 21

/-! ## Compressed instructions (C) -/

/-- The word of an I-type instruction. -/
def mkI (imm rs1 f3 rd op : Nat) : Nat := imm % 4096 * 2 ^ 20 + rs1 * 2 ^ 15 + f3 * 2 ^ 12 + rd * 2 ^ 7 + op
/-- The word of an S-type instruction. -/
def mkS (imm rs2 rs1 f3 op : Nat) : Nat :=
  bf imm 5 7 * 2 ^ 25 + rs2 * 2 ^ 20 + rs1 * 2 ^ 15 + f3 * 2 ^ 12 + imm % 32 * 2 ^ 7 + op
/-- The word of an R-type instruction. -/
def mkR (f7 rs2 rs1 f3 rd op : Nat) : Nat := f7 * 2 ^ 25 + rs2 * 2 ^ 20 + rs1 * 2 ^ 15 + f3 * 2 ^ 12 + rd * 2 ^ 7 + op
/-- The word of a branch. -/
def mkB (imm rs2 rs1 f3 : Nat) : Nat :=
  bf imm 12 1 * 2 ^ 31 + bf imm 5 6 * 2 ^ 25 + rs2 * 2 ^ 20 + rs1 * 2 ^ 15 + f3 * 2 ^ 12 + bf imm 1 4 * 2 ^ 8
    + bf imm 11 1 * 2 ^ 7 + 0x63
/-- The word of JAL. -/
def mkJ (imm rd : Nat) : Nat :=
  bf imm 20 1 * 2 ^ 31 + bf imm 1 10 * 2 ^ 21 + bf imm 11 1 * 2 ^ 20 + bf imm 12 8 * 2 ^ 12 + rd * 2 ^ 7 + 0x6F

/-- A field of `n` bits as a signed number, modulo 2^21. -/
def sx21 (v n : Nat) : Nat := if v.testBit (n - 1) then v + 2 ^ 21 - 2 ^ n else v

/-- Quadrant 0. -/
def expand0 (h : Nat) : Option Nat :=
  let rdp := 8 + bf h 2 3
  let rsp := 8 + bf h 7 3
  let off := bf h 10 3 * 8 + bf h 6 1 * 4 + bf h 5 1 * 64
  match bf h 13 3 with
  | 0 =>
    let imm := bf h 11 2 * 16 + bf h 7 4 * 64 + bf h 6 1 * 4 + bf h 5 1 * 8
    if imm = 0 then none else some (mkI imm 2 0 rdp 0x13)
  | 2 => some (mkI off rsp 2 rdp 0x03)
  | 6 => some (mkS off rdp rsp 2 0x23)
  | _ => none

/-- The offset of C.J and C.JAL. -/
def offCJ (h : Nat) : Nat :=
  sx21 (bf h 12 1 * 2 ^ 11 + bf h 11 1 * 16 + bf h 9 2 * 256 + bf h 8 1 * 1024 + bf h 7 1 * 64 + bf h 6 1 * 128
    + bf h 3 3 * 2 + bf h 2 1 * 32) 12

/-- The offset of C.BEQZ and C.BNEZ. -/
def offCB (h : Nat) : Nat :=
  sx21 (bf h 12 1 * 256 + bf h 10 2 * 8 + bf h 5 2 * 64 + bf h 3 2 * 2 + bf h 2 1 * 32) 9

/-- Quadrant 1. -/
def expand1 (h : Nat) : Option Nat :=
  let rd := bf h 7 5
  let rp := 8 + bf h 7 3
  let imm := sx21 (bf h 12 1 * 32 + bf h 2 5) 6
  match bf h 13 3 with
  | 0 => some (mkI imm rd 0 rd 0x13)
  | 1 => some (mkJ (offCJ h) 1)
  | 2 => some (mkI imm 0 0 rd 0x13)
  | 3 =>
    if rd = 2 then
      let v := bf h 12 1 * 512 + bf h 6 1 * 16 + bf h 5 1 * 64 + bf h 3 2 * 128 + bf h 2 1 * 32
      if v = 0 then none else some (mkI (sx21 v 10) 2 0 2 0x13)
    else if bf h 12 1 * 32 + bf h 2 5 = 0 then none
    else some (imm % 2 ^ 20 * 2 ^ 12 + rd * 2 ^ 7 + 0x37)
  | 4 =>
    let alu := fun f7 f3 => some (mkR f7 (8 + bf h 2 3) rp f3 rp 0x33)
    match bf h 10 2, bf h 12 1, bf h 5 2 with
    | 0, 0, _ => some (mkR 0 (bf h 2 5) rp 5 rp 0x13)
    | 1, 0, _ => some (mkR 0x20 (bf h 2 5) rp 5 rp 0x13)
    | 2, _, _ => some (mkI imm rp 7 rp 0x13)
    | 3, 0, 0 => alu 0x20 0
    | 3, 0, 1 => alu 0 4
    | 3, 0, 2 => alu 0 6
    | 3, 0, _ => alu 0 7
    | _, _, _ => none
  | 5 => some (mkJ (offCJ h) 0)
  | 6 => some (mkB (offCB h) 0 rp 0)
  | _ => some (mkB (offCB h) 0 rp 1)

/-- Quadrant 2. -/
def expand2 (h : Nat) : Option Nat :=
  let rd := bf h 7 5
  let rs2 := bf h 2 5
  match bf h 13 3, bf h 12 1 with
  | 0, 0 => some (mkR 0 rs2 rd 1 rd 0x13)
  | 2, _ =>
    if rd = 0 then none else some (mkI (bf h 12 1 * 32 + bf h 4 3 * 4 + bf h 2 2 * 64) 2 2 rd 0x03)
  | 4, 0 =>
    if rs2 = 0 then (if rd = 0 then none else some (mkI 0 rd 0 0 0x67)) else some (mkR 0 rs2 0 0 rd 0x33)
  | 4, _ =>
    if rs2 = 0 then (if rd = 0 then some 0x00100073 else some (mkI 0 rd 0 1 0x67)) else some (mkR 0 rs2 rd 0 rd 0x33)
  | 6, _ => some (mkS (bf h 9 4 * 4 + bf h 7 2 * 64) rs2 2 2 0x23)
  | _, _ => none

/-- The 32-bit instruction that a compressed one stands for; none for an illegal one. -/
def expand (h : Nat) : Option Nat :=
  match h % 4 with
  | 0 => expand0 h
  | 1 => expand1 h
  | 2 => expand2 h
  | _ => none

/-! ## Arithmetic (I, M) -/

/-- The integer operations of OP and OP-IMM. -/
def aluOp (f3 : Nat) (alt : Bool) (a b : Word) : Word :=
  match f3 with
  | 0 => if alt then a - b else a + b
  | 1 => a <<< (b.toNat % 32)
  | 2 => if a.toInt < b.toInt then 1 else 0
  | 3 => if a.toNat < b.toNat then 1 else 0
  | 4 => a ^^^ b
  | 5 => if alt then a.sshiftRight (b.toNat % 32) else a >>> (b.toNat % 32)
  | 6 => a ||| b
  | _ => a &&& b

/-- Multiplication and division; a division by 0 and the signed overflow give what the M extension says. -/
def mulOp (f3 : Nat) (a b : Word) : Word :=
  match f3 with
  | 0 => a * b
  | 1 => BitVec.ofInt 32 (a.toInt * b.toInt / 2 ^ 32)
  | 2 => BitVec.ofInt 32 (a.toInt * (b.toNat : Int) / 2 ^ 32)
  | 3 => BitVec.ofNat 32 (a.toNat * b.toNat / 2 ^ 32)
  | 4 => if b = 0 then -1 else BitVec.ofInt 32 (a.toInt.tdiv b.toInt)
  | 5 => if b = 0 then -1 else BitVec.ofNat 32 (a.toNat / b.toNat)
  | 6 => if b = 0 then a else BitVec.ofInt 32 (a.toInt.tmod b.toInt)
  | _ => if b = 0 then a else BitVec.ofNat 32 (a.toNat % b.toNat)

/-- A branch is taken; none for a reserved condition. -/
def branchTaken (f3 : Nat) (a b : Word) : Option Bool :=
  match f3 with
  | 0 => some (a == b)
  | 1 => some (a != b)
  | 4 => some (a.toInt < b.toInt)
  | 5 => some (b.toInt ≤ a.toInt)
  | 6 => some (a.toNat < b.toNat)
  | 7 => some (b.toNat ≤ a.toNat)
  | _ => none

/-- The operation of an AMO. -/
def amoOf (f5 : Nat) : Option AmoOp :=
  match f5 with
  | 1 => some .swap
  | 0 => some .add
  | 4 => some .xor
  | 12 => some .and
  | 8 => some .or
  | 16 => some .min
  | 20 => some .max
  | 24 => some .minu
  | 28 => some .maxu
  | _ => none

/-! ## CSRs (R271, R275, R278) -/

/-- The lowest mode and the writing that a CSR's number allows. -/
def csrAllowed (c : Nat) (user write : Bool) : Bool := !(user && bf c 8 2 != 0) && !(write && bf c 10 2 = 3)

/-- A CSR as it reads; none for a number that is not implemented. -/
def State.csrRead (s : State) (e c : Nat) : Option Word :=
  let v := s.engine e
  if (0x800 ≤ c && c ≤ 0x80B) then some (v.getCsr c)
  else if c = 0x810 || c = 0x811 then some 0
  else if c = 0xF11 || c = 0xF12 || c = 0xF15 then some 0
  else if c = 0xF13 then some (BitVec.ofNat 32 (s.get CHIP_ID_STEP))
  else if c = 0xF14 then some (BitVec.ofNat 32 e)
  else if c = csrMip then some (BitVec.ofNat 32 (s.mip e))
  else if c = 0x310 || c = 0x31A || c = 0x757 then some 0
  else if (0x323 ≤ c && c ≤ 0x33F) then some 0
  else if 0x3B0 ≤ c && c ≤ 0x3BF then
    let w := v.getCsr c
    some (if (v.pmpCfg (c - 0x3B0)).testBit 4 then w ||| 7#32 else w &&& ~~~15#32)
  else if c = 0xC01 then some (BitVec.ofNat 32 s.now)
  else if c = 0xC81 then some (BitVec.ofNat 32 (s.now / 2 ^ 32))
  else if (0xC00 ≤ c && c ≤ 0xC1F) || (0xC80 ≤ c && c ≤ 0xC9F) then some (v.getCsr (c - 0x100))
  else if (0xB00 ≤ c && c ≤ 0xB1F && c != 0xB01) || (0xB80 ≤ c && c ≤ 0xB9F && c != 0xB81) then some (v.getCsr c)
  else if [0x300, 0x301, 0x304, 0x305, 0x306, 0x30A, 0x320, 0x340, 0x341, 0x342, 0x343, 0x3A0, 0x3A1, 0x3A2, 0x3A3,
    0x747].contains c then some (v.getCsr c)
  else none
where
  /-- mip. -/
  csrMip : Nat := 0x344

/-- An engine may read a CSR in its mode: the counters in U-mode by mcounteren. -/
def State.csrOpen (s : State) (e c : Nat) (user write : Bool) : Bool :=
  csrAllowed c user write
    && !(user && 0xC00 ≤ c && c < 0xCA0 && !((s.engine e).getCsr 0x306).getLsbD (c % 32))

/-- Some PMP entry is locked. -/
def Engine.pmpLocked (v : Engine) : Bool := (List.range 16).any fun i => (v.pmpCfg i).testBit 7

/-- A PMP entry is locked and no rule-locking bypass is on (Smepmp). -/
def Engine.pmpHeld (v : Engine) (i : Nat) : Bool := (v.pmpCfg i).testBit 7 && !(v.getCsr 0x747).getLsbD 2

/-- A written configuration byte of a PMP entry: a locked entry keeps its byte, and so does one that would become an
executable rule of M-mode under MML; NA4 is not selectable (grain of 64 bytes), and W without R is reserved without MML. -/
def Engine.pmpByte (v : Engine) (i b : Nat) : Nat :=
  let old := v.pmpCfg i
  let sec := v.getCsr 0x747
  let b := b &&& 0x9F
  let lockedExec := b.testBit 7 && ((b.testBit 2 && b % 8 != 7) || b % 4 = 2)
  if v.pmpHeld i then old
  else if sec.getLsbD 0 && !sec.getLsbD 2 && lockedExec then old
  else
    let b := if b / 8 % 4 = 2 then b - 16 + old / 8 % 4 * 8 else b
    if !sec.getLsbD 0 && b % 4 = 2 then b / 8 * 8 + old % 8 else b

/-- A write of a CSR that is not one of the computed ones. -/
def Engine.csrPut (v : Engine) (c : Nat) (w : Word) : Engine :=
  if c = 0x800 then v.setCsr c (w &&& 0x7F#32)
  else if c = csrMstatus then
    let old := v.getCsr c
    let mpp := if bitsOf w 11 2 = 0 || bitsOf w 11 2 = 3 then bitsOf w 11 2 else bitsOf old 11 2
    v.setCsr c (putBits (w &&& 0x00220088#32) 11 2 mpp)
  else if c = csrMie then v.setCsr c (w &&& 0x888#32)
  else if c = csrMtvec then v.setCsr c (w &&& ~~~2#32)
  else if c = csrMepc then v.setCsr c (w &&& ~~~1#32)
  else if c = 0x30A then v.setCsr c (w &&& 1#32)
  else if c = 0x320 then v.setCsr c (w &&& 0x7D#32)
  else if 0x3A0 ≤ c && c ≤ 0x3A3 then
    v.setCsr c ((List.range 4).foldl
      (fun acc k => putBits acc (8 * k) 8 (v.pmpByte (4 * (c - 0x3A0) + k) (bitsOf w (8 * k) 8))) (v.getCsr c))
  else if 0x3B0 ≤ c && c ≤ 0x3BF then
    let i := c - 0x3B0
    if v.pmpHeld i || (i < 15 && v.pmpHeld (i + 1) && v.pmpCfg (i + 1) / 8 % 4 = 1) then v else v.setCsr c w
  else if c = 0x747 then
    let old := v.getCsr c
    let rlb := w.getLsbD 2 && (old.getLsbD 2 || !v.pmpLocked)
    v.setCsr c (BitVec.ofNat 32 ((if rlb then 4 else 0) + (if w.getLsbD 1 || old.getLsbD 1 then 2 else 0)
      + (if w.getLsbD 0 || old.getLsbD 0 then 1 else 0)))
  else if (0x801 ≤ c && c ≤ 0x80B) || [0x306, 0x340, 0x342, 0x343].contains c
      || (0xB00 ≤ c && c ≤ 0xB06 && c != 0xB01) || (0xB80 ≤ c && c ≤ 0xB86 && c != 0xB81) then v.setCsr c w
  else v

/-- A write of a CSR; fields that hold no other value keep theirs. -/
def State.csrWrite (s : State) (e c : Nat) (w : Word) : State :=
  let s := s.modEngine e fun v => v.csrPut c w
  if c = csrXFST then s.xactive e else s

/-! ## The instruction (R271) -/

/-- The running instruction completes with a value for rd and the pc given. -/
def State.rvDone (s : State) (e rd : Nat) (w pc : Word) : State :=
  s.modEngine e fun v => { (v.setX rd w).count 2 with pc }

/-- A load of `n` bytes, sign-extended when `signed`. -/
def State.rvLoad (s : State) (e a n rd len : Nat) (signed : Bool) : XfRes :=
  xBind (s.xAccess e a len (.read n)) fun s w =>
    .go (s.rvDone e rd (if signed then sx w (8 * n) else BitVec.ofNat 32 w) ((s.engine e).pc + BitVec.ofNat 32 len))

/-- A store. The pc has moved on already for a register; for memory it moves on now. -/
def State.rvStore (s : State) (e a len : Nat) (bs : List Byte) : XfRes :=
  xBind (s.xAccess e a len (.write bs)) fun s _ =>
    if (deviceOff e a).isSome then .go (s.modEngine e fun v => v.count 2)
    else .go (s.rvDone e 0 0 ((s.engine e).pc + BitVec.ofNat 32 len))

/-- A CSR instruction: `f3` is its operation, `src` its register value or immediate, `noWrite` that its source field is 0. -/
def State.rvCsr (s : State) (e c f3 rd len : Nat) (src : Word) (noWrite : Bool) : Option State :=
  let write := f3 % 4 = 1 || !noWrite
  match s.csrRead e c with
  | none => none
  | some old =>
    if !s.csrOpen e c (s.engine e).user write then none
    else
      let w := match f3 % 4 with
        | 1 => src
        | 2 => old ||| src
        | _ => old &&& ~~~src
      if write && c = 0x810 then
        let t := s.after (execXcclean (Fin.ofNat 1024 e) w s)
        some (if t.resp == some .fault then t else t.modEngine e fun v => v.setX rd 0)
      else if write && c = 0x811 then
        let t := s.after (execXcflush (Fin.ofNat 1024 e) w s)
        some (if t.resp == some .fault then t else t.modEngine e fun v => v.setX rd 0)
      else
        let s := if write then s.csrWrite e c w else s
        some (s.rvDone e rd old ((s.engine e).pc + BitVec.ofNat 32 len))

/-- An Xfly instruction by its fields; none when no Xfly instruction has them (R277). -/
def State.rvXfly (s : State) (e w : Nat) : Option State :=
  let q : EngNo := Fin.ofNat 1024 e
  let rd := Fin.ofNat 32 (bf w 7 5)
  let r1 := Fin.ofNat 32 (bf w 15 5)
  let r2 := Fin.ofNat 32 (bf w 20 5)
  let f3 := bf w 12 3
  match bf w 25 7 with
  | 0 => if f3 < 3 then some (s.after (execXfScan q (Fin.ofNat 3 f3) rd r1 r2 .run s)) else none
  | 1 => if f3 < 4 then some (s.after (execXfCopy q (Fin.ofNat 4 f3) rd r1 r2 .run s)) else none
  | 2 =>
    if f3 = 0 then some (s.after (execXfCmacStep q rd r1 r2 .run s))
    else if f3 = 1 then some (s.after (execXfCmacFin q rd r1 r2 .run s)) else none
  | 3 => if f3 = 0 then some (s.after (execXfPack q rd r1 r2 .run s)) else none
  | 4 => if f3 = 0 then some (s.after (execXfUnpack q rd r1 r2 .run s)) else none
  | _ => none

/-- SYSTEM instructions. -/
def State.rvSystem (s : State) (e w len : Nat) : Option XfRes :=
  let v := s.engine e
  let f3 := bf w 12 3
  if f3 = 0 then
    if w = 0x00000073 then some (.trapped (s.trap e (if v.user then 8 else 11) 0 false))
    else if w = 0x00100073 then some (.trapped (s.trap e 3 (Config.breakTval v.pc) false))
    else if w = 0x30200073 && !v.user then some (.go (s.after (execMret (Fin.ofNat 1024 e) s)))
    else if w = 0x10500073 then some (.go (s.after (execWfi (Fin.ofNat 1024 e) s)))
    else none
  else if f3 = 4 then none
  else
    let i := bf w 15 5
    let src := if 4 ≤ f3 then BitVec.ofNat 32 i else v.getX i
    (s.rvCsr e (bf w 20 12) f3 (bf w 7 5) len src (i = 0)).map .go

/-- Atomic instructions. -/
def State.rvAtomic (s : State) (e w len : Nat) : Option XfRes :=
  let v := s.engine e
  let a := (v.getX (bf w 15 5)).toNat
  let r2 := v.getX (bf w 20 5)
  let acc : Option HallAcc :=
    if bf w 12 3 != 2 then none
    else if bf w 27 5 = 2 then (if bf w 20 5 = 0 then some .lr else none)
    else if bf w 27 5 = 3 then some (.sc r2)
    else (amoOf (bf w 27 5)).map fun op => .amo op r2
  acc.map fun acc => xBind (s.xAccess e a len acc) fun s x =>
    .go (s.rvDone e (bf w 7 5) (BitVec.ofNat 32 x) ((s.engine e).pc + BitVec.ofNat 32 len))

/-- One 32-bit instruction, `len` bytes long in memory; none for an illegal one. -/
def State.rvExec (s : State) (e w len : Nat) : Option XfRes :=
  let v := s.engine e
  let rd := bf w 7 5
  let a := v.getX (bf w 15 5)
  let b := v.getX (bf w 20 5)
  let f3 := bf w 12 3
  let f7 := bf w 25 7
  let next := v.pc + BitVec.ofNat 32 len
  let val := fun x => some (XfRes.go (s.rvDone e rd x next))
  match w % 128 with
  | 0x37 => val (immU w)
  | 0x17 => val (v.pc + immU w)
  | 0x6F => some (.go (s.rvDone e rd next (v.pc + immJ w)))
  | 0x67 => if f3 = 0 then some (.go (s.rvDone e rd next ((a + immI w) &&& ~~~1#32))) else none
  | 0x63 => (branchTaken f3 a b).map fun t => .go (s.rvDone e 0 0 (if t then v.pc + immB w else next))
  | 0x03 =>
    let addr := (a + immI w).toNat
    if [0, 1, 2].contains f3 then some (s.rvLoad e addr (2 ^ f3) rd len (f3 != 2))
    else if f3 = 4 || f3 = 5 then some (s.rvLoad e addr (2 ^ (f3 - 4)) rd len false) else none
  | 0x23 => if f3 ≤ 2 then some (s.rvStore e (a + immS w).toNat len (leBytes (2 ^ f3) b.toNat)) else none
  | 0x13 =>
    if f3 = 1 then (if f7 = 0 then val (aluOp 1 false a (BitVec.ofNat 32 (bf w 20 5))) else none)
    else if f3 = 5 then
      (if f7 = 0 || f7 = 0x20 then val (aluOp 5 (f7 = 0x20) a (BitVec.ofNat 32 (bf w 20 5))) else none)
    else val (aluOp f3 false a (immI w))
  | 0x33 =>
    if f7 = 0 then val (aluOp f3 false a b)
    else if f7 = 0x20 && (f3 = 0 || f3 = 5) then val (aluOp f3 true a b)
    else if f7 = 1 then val (mulOp f3 a b) else none
  | 0x0F => if f3 ≤ 1 then some (.go (s.rvDone e 0 0 next)) else none
  | 0x2F => s.rvAtomic e w len
  | 0x73 => s.rvSystem e w len
  | 0x0B => (s.rvXfly e w).map .go
  | _ => none

/-- What a result leaves: a wait leaves the state as it was. -/
def XfRes.state (r : XfRes) (s : State) : State :=
  match r with
  | .go t => t
  | .done t _ => t
  | .trapped t => t
  | .waits => s

/-- Fetch and run one instruction. -/
def State.rvStep (s : State) (e : Nat) : State :=
  let pc := (s.engine e).pc
  let run := fun (s : State) (w raw len : Nat) => (s.rvExec e w len).getD (.trapped (s.trap e 2 (BitVec.ofNat 32 raw) false))
  XfRes.state
    (xBind (s.xAccess e pc.toNat 0 (.fetch 2)) fun s lo =>
      if lo % 4 = 3 then
        xBind (s.xAccess e (pc + 2).toNat 0 (.fetch 2)) fun s hi => run s (lo + hi * 65536) (lo + hi * 65536) 4
      else match expand lo with
        | some w => run s w lo 2
        | none => .trapped (s.trap e 2 (BitVec.ofNat 32 lo) false)) s

/-! ## Running engines (R268, R271, R294) -/

/-- The engine of an ENG[e].STAT word that shows RUNNING. -/
def runningAt (p : Nat × Word) : Option Nat :=
  if 0x4000000 ≤ p.1 && p.1 < 0x5000000 && 0x20000 ≤ p.1 % 0x100000 && p.1 % 0x100000 < 0x24000 && p.1 % 0x100 = 4
      && bitsOf p.2 0 3 = 2 then some (engAt p.1)
  else none

/-- The RUNNING engines, ascending. -/
def State.running (s : State) : List Nat := s.regs.filterMap runningAt

/-- The clock of an operating point in MHz (R294). -/
def pointMHz (p : Nat) : Nat :=
  match p with
  | 0 => 200
  | 1 => 400
  | 2 => 533
  | 3 => 667
  | 4 => 800
  | _ => 1000

/-- The clock of region `r` in MHz: the bridge clock of 200 MHz during step 2 of a change and after failed PLL locks, else
that of its operating point (R388, R390, R391). -/
def State.regionMHz (s : State) (r : Nat) : Nat :=
  if (s.region r).stage = 2 || (s.region r).bridge then 200 else pointMHz (s.get (RGN_OPP_CURRENT r))

/-- The cycles of a clock in the tick of 2 ns that ends at tick `t`. -/
def cyclesIn (mhz t : Nat) : Nat := t * mhz / 500 - (t - 1) * mhz / 500

/-- A RUNNING engine in the tick that has passed: mcycle counts its clock's cycles, a pending enabled interrupt is taken, and
one instruction runs. -/
def State.runEngine (s : State) (e : Nat) : State :=
  if s.estate e = 2 then
    let c := cyclesIn (s.regionMHz (e / 64)) s.ticks
    { ((s.modEngine e fun v => v.countBy 0 c).interrupt e).rvStep e with resp := s.resp }
  else s

/-- What happens while no command waits: a tick of the timebase (R323), and one instruction of every RUNNING engine. -/
def State.idle (s : State) : State := s.tick.each s.running State.runEngine

end Sys2Proof.Machine
end

