-- ==== Sys2Proof/Machine/Service.lean ====
section
/-! DEFINITION. The USB service port: register and hall words, debug unlock, engine debug, and the way to Ramorny (R421,
R422, R424). -/

namespace Sys2Proof.Machine

/-! ## Requests and responses (R421) -/

/-- A service request arrives: VBUS present, CHIP.READY.SVC set, and the port not served by Ramorny. The device is then
configured. -/
def State.svc (s : State) (f : State → State) : State :=
  if s.spine.vbus && s.ready 7 && !s.flag SVC_STAT_RAMORNY then f (s.set SVC_STAT_STATE 3) else s

/-- The response: the header with STATUS in byte 1, most significant byte first, then data words, little-endian. -/
def State.svcAnswer (s : State) (op : Nat) (r : SvcReq) (status : Nat) (data : List Word) : State :=
  let head := beBytes 1 op ++ beBytes 1 status ++ beBytes 2 r.tag.toNat ++ beBytes 4 r.addr.toNat ++ beBytes 8 r.arg.toNat
  { s with out := .svc (head ++ data.flatMap fun w => leBytes 4 w.toNat) :: s.out }

/-- Debug access has been unlocked. -/
def State.unlocked (s : State) : Bool := s.flag SVC_DBG_UNLOCKED

/-- The life-cycle state lets the service port read a register word (table "Debug access by life-cycle state"). -/
def State.svcReadOk (s : State) (a : Nat) : Bool :=
  match s.get VIT_STAT_LC with
  | 2 => s.unlocked || a = LEDG_STAT_STAGED.addr
    || (match rowAt a with
        | some r => r.blk == .chip || r.blk == .pwr || r.blk == .cur
        | none => false)
  | 4 => a = 0
  | _ => true

/-- The life-cycle state lets the service port write register words, or read hall words. -/
def State.svcFull (s : State) : Bool :=
  match s.get VIT_STAT_LC with
  | 0 => true
  | 1 => true
  | 4 => false
  | _ => s.unlocked

/-- The life-cycle state permits engine debug. -/
def State.svcDebug (s : State) : Bool :=
  match s.get VIT_STAT_LC with
  | 0 => true
  | 4 => false
  | _ => s.unlocked

/-- A register word is one that R34 refuses. -/
def State.svcNotReady (s : State) (a : Nat) : Bool :=
  match isramAt a with
  | some (c, _) => !s.rgnReady (c / 8)
  | none =>
    match rowAt (canonical a) with
    | some r => !s.blkReady r.blk (canonical a)
    | none => false

/-- The addresses of the words of a request. -/
def svcAddrs (r : SvcReq) (base : Nat) : List Nat := (List.range r.count.toNat).map fun i => base + 4 * i

/-- Register words read as the host reads them; none when an access rule refuses one. -/
def State.svcReadRegs (s : State) : List Nat → List Word → State × Option (List Word)
  | [], acc => (s, some acc.reverse)
  | a :: as, acc =>
    let no := s.svcNotReady a
    let t := s.readReg .host a 4
    match t.resp, no with
    | some (.data w), false => t.svcReadRegs as (BitVec.ofNat 32 w :: acc)
    | _, _ => (t, none)

/-- Hall words read as the host reads them; none when an access rule refuses one. -/
def State.svcReadHall (s : State) : List Nat → List Word → State × Option (List Word)
  | [], acc => (s, some acc.reverse)
  | a :: as, acc =>
    let no := (wordsOf a 4).any fun w => s.verdict (some 64) (max a (w * 8)) false == 2
    let t := s.hallAccess { master := .host, addr := a, acc := .read 4 }
    match t.resp, no with
    | some (.data w), false => t.svcReadHall as (BitVec.ofNat 32 w :: acc)
    | some (.poisoned w), false => t.svcReadHall as (BitVec.ofNat 32 w :: acc)
    | _, _ => (t, none)

/-- A hall word of the request is held (R32, R303): the request waits. -/
def State.svcHeld (s : State) (as : List Nat) : Bool :=
  as.any fun a => a + 4 ≤ 0x4000000
    && (!s.ready (8 + hallOf a) || (wordsOf a 4).any fun w => s.verdict (some 64) (max a (w * 8)) false == 1)

/-- COUNT lies in 1 to 64, and the words lie in the register space. -/
def svcInRange (r : SvcReq) : Bool :=
  1 ≤ r.count.toNat && r.count.toNat ≤ 64 && r.addr.toNat + 4 * r.count.toNat ≤ 0x8000000

/-- SVC_READ: OP 1. -/
def execSvcRead (r : SvcReq) (s : State) : Out :=
  .next <| s.svc fun s =>
    let hall := r.addr.getLsbD 31
    let base := r.addr.toNat % 2 ^ 31
    let as := svcAddrs r base
    if hall then
      if !s.svcFull then s.svcAnswer 1 r 1 []
      else if !(1 ≤ r.count.toNat && r.count.toNat ≤ 64) then s.svcAnswer 1 r 2 []
      else if s.svcHeld as then s
      else match s.svcReadHall as [] with
        | (s, some ws) => s.svcAnswer 1 r 0 ws
        | (s, none) => s.svcAnswer 1 r 2 []
    else if !svcInRange r then s.svcAnswer 1 r 2 []
    else if !(as.all s.svcReadOk) then s.svcAnswer 1 r 1 []
    else match s.svcReadRegs as [] with
      | (s, some ws) => s.svcAnswer 1 r 0 ws
      | (s, none) => s.svcAnswer 1 r 2 []

/-- Register words written as the host writes them; false when an access rule refuses one. -/
def State.svcWriteRegs (s : State) : List (Nat × Word) → State × Bool
  | [] => (s, true)
  | (a, w) :: as =>
    let no := s.svcNotReady a
    let t := s.writeReg .host a 4 w
    if t.resp == some .abort || no then (t, false) else t.svcWriteRegs as

/-- SVC_WRITE: OP 2, with its data words. -/
def execSvcWrite (r : SvcReq) (ws : List Word) (s : State) : Out :=
  .next <| s.svc fun s =>
    if !s.svcFull then s.svcAnswer 2 r 1 []
    else if !svcInRange r || ws.length != r.count.toNat then s.svcAnswer 2 r 2 []
    else match s.svcWriteRegs ((svcAddrs r r.addr.toNat).zip ws) with
      | (s, true) => s.svcAnswer 2 r 0 []
      | (s, false) => s.svcAnswer 2 r 2 []

/-! ## Debug unlock (R424) -/

/-- SVC_CHALLENGE: OP 3 draws a fresh value into SVC.CHAL, which the answer carries, most significant byte first. -/
def execSvcChallenge (r : SvcReq) (s : State) : Out :=
  .next <| s.svc fun s =>
    if s.get VIT_STAT_LC = 4 then s.svcAnswer 3 r 1 []
    else
      let (v, s) := s.draw
      (s.setWord64 SVC_CHAL_CHAL.addr v).svcAnswer 3 { r with arg := v } 0 []

/-- The answer that unlocks: the 64 most significant bits of AES-CMAC over SVC.CHAL and CHIP.ID. -/
def State.unlockAnswer (s : State) : Nat :=
  beNat ((cmac (s.keyOf (sealed (s.get SVC_DBG_SLOT)))
    (beBytes 8 (s.word64 SVC_CHAL_CHAL.addr).toNat ++ beBytes 4 (s.word 0).toNat)).take 8)

/-- An unlock answer is correct: a challenge is open, the slot may be used for CMAC by the device, and the answer agrees. -/
def State.unlockOk (s : State) (arg : BitVec 64) : Bool :=
  s.word64 SVC_CHAL_CHAL.addr != 0 && s.useOk (sealed (s.get SVC_DBG_SLOT)) 0 .device && arg.toNat == s.unlockAnswer

/-- SVC_UNLOCK: OP 4, the answer in ARG. A correct one unlocks, with source 1708, a DEBUG_UNLOCK fault and a tamper-log
entry; a wrong one clears SVC.CHAL. -/
def execSvcUnlock (r : SvcReq) (s : State) : Out :=
  .next <| s.svc fun s =>
    if s.get VIT_STAT_LC = 4 then s.svcAnswer 4 r 1 []
    else if s.unlockOk r.arg then
      (((((s.put SVC_DBG_UNLOCKED true).raise 1708 1).report 1708 0x4A).tlog 5 0 0)).svcAnswer 4 r 0 []
    else (s.setWord64 SVC_CHAL_CHAL.addr 0).svcAnswer 4 r 2 []

/-- RELOCK: a write of SVC.DBG with RELOCK 1. -/
def execRelock (q : Requester) (s : State) : Out :=
  .next (s.hostWrite q SVC_DBG_RELOCK.addr (s.ready 7) fun s => s.withdrawUnlock)

/-! ## Engine debug (R421, R281) -/

/-- An engine debug request: refused by life cycle, by an engine that does not exist or whose region is not ready, else its
effect with the data words it answers. -/
def State.svcEngine (s : State) (r : SvcReq) (f : State → Nat → State × Option (List Word)) : State :=
  s.svc fun s =>
    if !s.svcDebug then s.svcAnswer 5 r 1 []
    else if 1024 ≤ r.addr.toNat || !s.rgnReady (r.addr.toNat / 64) then s.svcAnswer 5 r 2 []
    else match f s r.addr.toNat with
      | (s, some ws) => s.svcAnswer 5 r 0 ws
      | (s, none) => s.svcAnswer 5 r 2 []

/-- DBG_HALT: as HALT does. -/
def execDbgHalt (r : SvcReq) (s : State) : Out := .next (s.svcEngine r fun s e => (s.engineHalt e, some []))

/-- One instruction of a HALTED engine, which is HALTED again after it. -/
def State.debugStep (s : State) (e : Nat) : State :=
  if s.estate e = 1 then
    let t := { (s.set (ENG_STAT_STATE e) 2).rvStep e with resp := s.resp }
    if t.estate e = 0 then t else (t.set (ENG_STAT_STATE e) 1).showEngine e
  else s

/-- DBG_STEP. -/
def execDbgStep (r : SvcReq) (s : State) : Out := .next (s.svcEngine r fun s e => (s.debugStep e, some []))

/-- A HALTED engine goes on where it stopped. -/
def State.debugResume (s : State) (e : Nat) : State :=
  if s.estate e = 1 then ((s.set (ENG_STAT_STATE e) 2).interrupt e) else s

/-- DBG_RESUME. -/
def execDbgResume (r : SvcReq) (s : State) : Out := .next (s.svcEngine r fun s e => (s.debugResume e, some []))

/-- DBG_READ_REG: the register's value is the data word of the answer. -/
def execDbgReadReg (r : SvcReq) (reg : DbgReg) (s : State) : Out :=
  .next <| s.svcEngine r fun s e =>
    match reg with
    | .gpr i => (s, some [(s.engine e).getX i])
    | .csr c => (s, (s.csrRead e c).map fun w => [w])

/-- DBG_WRITE_REG: a CSR that does not exist or is read-only is refused. -/
def execDbgWriteReg (r : SvcReq) (reg : DbgReg) (w : Word) (s : State) : Out :=
  .next <| s.svcEngine r fun s e =>
    match reg with
    | .gpr i => (s.modEngine e fun v => v.setX i w, some [])
    | .csr c =>
      if (s.csrRead e c).isSome && csrAllowed c false true && c.val != 0x810 && c.val != 0x811 then
        (s.csrWrite e c w, some [])
      else (s, none)

/-! ## Ramorny -/

/-- DFU_DETACH: the run-time DFU interface hands the port to Ramorny; not in END (R12, R421, R467). -/
def execDfuDetach (s : State) : Out := .next (s.svc fun s => if s.ended then s else s.ramorny 2)

end Sys2Proof.Machine
end

