-- ==== Sys2Proof/Machine/Dispatch.lean ====
section
/-! DEFINITION. One arm for each command: a direct call of its meaning. -/

namespace Sys2Proof.Machine

def exec (i : Instr) (s : State) : Host.Outcome State Fault Refusal :=
  match i with
  | .lowWordRead q off size => Sys2Proof.Machine.execLowWordRead q off size s
  | .readClear q off size => Sys2Proof.Machine.execReadClear q off size s
  | .registerWrite q off size w => Sys2Proof.Machine.execRegisterWrite q off size w s
  | .dieLinkTransfer d crcOk => Sys2Proof.Machine.execDieLinkTransfer d crcOk s
  | .heartbeatLoss d => Sys2Proof.Machine.execHeartbeatLoss d s
  | .dieLinkRetrained d => Sys2Proof.Machine.execDieLinkRetrained d s
  | .functionReady b => Sys2Proof.Machine.execFunctionReady b s
  | .functionNotReady b => Sys2Proof.Machine.execFunctionNotReady b s
  | .imgCheck q => Sys2Proof.Machine.execImgCheck q s
  | .checkDone => Sys2Proof.Machine.execCheckDone s
  | .imgStage q => Sys2Proof.Machine.execImgStage q s
  | .stageDone ok => Sys2Proof.Machine.execStageDone ok s
  | .imgCommit q => Sys2Proof.Machine.execImgCommit q s
  | .imgAbort q => Sys2Proof.Machine.execImgAbort q s
  | .imgCmdIgnored q code => Sys2Proof.Machine.execImgCmdIgnored q code s
  | .switchInstant => Sys2Proof.Machine.execSwitchInstant s
  | .portMove n => Sys2Proof.Machine.execPortMove n s
  | .portForced n => Sys2Proof.Machine.execPortForced n s
  | .imageRestore => Sys2Proof.Machine.execImageRestore s
  | .shortDetected n within pj => Sys2Proof.Machine.execShortDetected n within pj s
  | .faultEventEnd n pj => Sys2Proof.Machine.execFaultEventEnd n pj s
  | .energyCutoff n => Sys2Proof.Machine.execEnergyCutoff n s
  | .faultWaitExpiry n => Sys2Proof.Machine.execFaultWaitExpiry n s
  | .retrySuccess n => Sys2Proof.Machine.execRetrySuccess n s
  | .driverDisable q n => Sys2Proof.Machine.execDriverDisable q n s
  | .driverEnable q n => Sys2Proof.Machine.execDriverEnable q n s
  | .unlatch q n => Sys2Proof.Machine.execUnlatch q n s
  | .portReset q n => Sys2Proof.Machine.execPortReset q n s
  | .biasCheck n vh vl => Sys2Proof.Machine.execBiasCheck n vh vl s
  | .governorSubmit n => Sys2Proof.Machine.execGovernorSubmit n s
  | .governorBucket e => Sys2Proof.Machine.execGovernorBucket e s
  | .deferralFlag n => Sys2Proof.Machine.execDeferralFlag n s
  | .wakeDetected n w => Sys2Proof.Machine.execWakeDetected n w s
  | .frameReception n r => Sys2Proof.Machine.execFrameReception n r s
  | .exceptionEnd n => Sys2Proof.Machine.execExceptionEnd n s
  | .integrationComplete n => Sys2Proof.Machine.execIntegrationComplete n s
  | .transmitAttempt n u edges load pj => Sys2Proof.Machine.execTransmitAttempt n u edges load pj s
  | .errorDetected n e => Sys2Proof.Machine.execErrorDetected n e s
  | .beaconDue n => Sys2Proof.Machine.execBeaconDue n s
  | .plcaStatusChange n ok => Sys2Proof.Machine.execPlcaStatusChange n ok s
  | .plcaForeignBeacon n => Sys2Proof.Machine.execPlcaForeignBeacon n s
  | .collision n => Sys2Proof.Machine.execCollision n s
  | .opmodeWrite q n v => Sys2Proof.Machine.execOpmodeWrite q n v s
  | .opmodeApply n => Sys2Proof.Machine.execOpmodeApply n s
  | .cenStart q n rep => Sys2Proof.Machine.execCenStart q n rep s
  | .cenStop q n => Sys2Proof.Machine.execCenStop q n s
  | .sndStart q n => Sys2Proof.Machine.execSndStart q n s
  | .sndAbort q n => Sys2Proof.Machine.execSndAbort q n s
  | .enrStart q n => Sys2Proof.Machine.execEnrStart q n s
  | .enrAbort q n => Sys2Proof.Machine.execEnrAbort q n s
  | .capStart q n => Sys2Proof.Machine.execCapStart q n s
  | .capStop q n => Sys2Proof.Machine.execCapStop q n s
  | .capTrig q n => Sys2Proof.Machine.execCapTrig q n s
  | .obsCmdIgnored q n => Sys2Proof.Machine.execObsCmdIgnored q n s
  | .soundingUnitStart d => Sys2Proof.Machine.execSoundingUnitStart d s
  | .soundingRecordDiscard n => Sys2Proof.Machine.execSoundingRecordDiscard n s
  | .soundingAnalysisDone n recs => Sys2Proof.Machine.execSoundingAnalysisDone n recs s
  | .soundingTimeout n => Sys2Proof.Machine.execSoundingTimeout n s
  | .censusSlotDecision n k => Sys2Proof.Machine.execCensusSlotDecision n k s
  | .specimenPacket n p => Sys2Proof.Machine.execSpecimenPacket n p s
  | .descriptorWrite q k w v => Sys2Proof.Machine.execDescriptorWrite q k w v s
  | .queue q k => Sys2Proof.Machine.execQueue q k s
  | .cancel q k => Sys2Proof.Machine.execCancel q k s
  | .release q k => Sys2Proof.Machine.execRelease q k s
  | .abandon q k => Sys2Proof.Machine.execAbandon q k s
  | .doorbellIgnored q k cmd => Sys2Proof.Machine.execDoorbellIgnored q k cmd s
  | .portSelect n => Sys2Proof.Machine.execPortSelect n s
  | .txDeadline k => Sys2Proof.Machine.execTxDeadline k s
  | .monitorArm q m k oneshot miss => Sys2Proof.Machine.execMonitorArm q m k oneshot miss s
  | .monitorDeadline m => Sys2Proof.Machine.execMonitorDeadline m s
  | .fspRelayout f => Sys2Proof.Machine.execFspRelayout f s
  | .catalogueSearch n sof f => Sys2Proof.Machine.execCatalogueSearch n sof f s
  | .xlCandidateComplete n f => Sys2Proof.Machine.execXlCandidateComplete n f s
  | .insert q t => Sys2Proof.Machine.execInsert q t s
  | .delete q t => Sys2Proof.Machine.execDelete q t s
  | .replace q t => Sys2Proof.Machine.execReplace q t s
  | .updCmdUnknown q => Sys2Proof.Machine.execUpdCmdUnknown q s
  | .catUpdateApply => Sys2Proof.Machine.execCatUpdateApply s
  | .catUpdateDone => Sys2Proof.Machine.execCatUpdateDone s
  | .holdoffEnd n => Sys2Proof.Machine.execHoldoffEnd n s
  | .recoveryComplete n => Sys2Proof.Machine.execRecoveryComplete n s
  | .recover q n => Sys2Proof.Machine.execRecover q n s
  | .quar q n => Sys2Proof.Machine.execQuar q n s
  | .quarantineEffect n => Sys2Proof.Machine.execQuarantineEffect n s
  | .slopeBucket n => Sys2Proof.Machine.execSlopeBucket n s
  | .gatewayIngress k => Sys2Proof.Machine.execGatewayIngress k s
  | .tunnelAvtpduReceived st t a => Sys2Proof.Machine.execTunnelAvtpduReceived st t a s
  | .releaseInstant t => Sys2Proof.Machine.execReleaseInstant t s
  | .waitingCopySlot l => Sys2Proof.Machine.execWaitingCopySlot l s
  | .waitingCopyExpire l => Sys2Proof.Machine.execWaitingCopyExpire l s
  | .breachWindowClose t => Sys2Proof.Machine.execBreachWindowClose t s
  | .tunnelWindowTimeout st => Sys2Proof.Machine.execTunnelWindowTimeout st s
  | .engineStart q e => Sys2Proof.Machine.execEngineStart q e s
  | .engineHalt q e => Sys2Proof.Machine.execEngineHalt q e s
  | .engineReset q e => Sys2Proof.Machine.execEngineReset q e s
  | .engineCmdIgnored q e => Sys2Proof.Machine.execEngineCmdIgnored q e s
  | .xfScan e size rd rs1 rs2 stop => Sys2Proof.Machine.execXfScan e size rd rs1 rs2 stop s
  | .xfCopy e size rd rs1 rs2 stop => Sys2Proof.Machine.execXfCopy e size rd rs1 rs2 stop s
  | .xfCmacStep e rd rs1 rs2 stop => Sys2Proof.Machine.execXfCmacStep e rd rs1 rs2 stop s
  | .xfCmacFin e rd rs1 rs2 stop => Sys2Proof.Machine.execXfCmacFin e rd rs1 rs2 stop s
  | .xfPack e rd rs1 rs2 stop => Sys2Proof.Machine.execXfPack e rd rs1 rs2 stop s
  | .xfUnpack e rd rs1 rs2 stop => Sys2Proof.Machine.execXfUnpack e rd rs1 rs2 stop s
  | .xcclean e a => Sys2Proof.Machine.execXcclean e a s
  | .xcflush e a => Sys2Proof.Machine.execXcflush e a s
  | .ownershipRequest r line evict reqs => Sys2Proof.Machine.execOwnershipRequest r line evict reqs s
  | .timerCompare e => Sys2Proof.Machine.execTimerCompare e s
  | .cluDoorbell q c mask => Sys2Proof.Machine.execCluDoorbell q c mask s
  | .cluDoorack q c mask => Sys2Proof.Machine.execCluDoorack q c mask s
  | .acq q c j => Sys2Proof.Machine.execAcq q c j s
  | .tryLock q c j => Sys2Proof.Machine.execTry q c j s
  | .rel q c j => Sys2Proof.Machine.execRel q c j s
  | .fix q c j => Sys2Proof.Machine.execFix q c j s
  | .withdraw q c j => Sys2Proof.Machine.execWithdraw q c j s
  | .lockCmdIgnored q c j cmd => Sys2Proof.Machine.execLockCmdIgnored q c j cmd s
  | .isramWrite q c k w => Sys2Proof.Machine.execIsramWrite q c k w s
  | .oppTargetWrite q r v => Sys2Proof.Machine.execOppTargetWrite q r v s
  | .regulatorGood r => Sys2Proof.Machine.execRegulatorGood r s
  | .pllLockStable r => Sys2Proof.Machine.execPllLockStable r s
  | .pllLockTimeout r => Sys2Proof.Machine.execPllLockTimeout r s
  | .oppChangeDone r => Sys2Proof.Machine.execOppChangeDone r s
  | .hallAccess r => Sys2Proof.Machine.execHallAccess r s
  | .eccWriteback w => Sys2Proof.Machine.execEccWriteback w s
  | .hallHandover q u m1 clear => Sys2Proof.Machine.execHallHandover q u m1 clear s
  | .handoverDone => Sys2Proof.Machine.execHandoverDone s
  | .hallRevoke q owner dest => Sys2Proof.Machine.execHallRevoke q owner dest s
  | .revocationDone => Sys2Proof.Machine.execRevocationDone s
  | .unitClearDone u => Sys2Proof.Machine.execUnitClearDone u s
  | .testWord h failed => Sys2Proof.Machine.execTestWord h failed s
  | .incLowWrite q w => Sys2Proof.Machine.execIncLowWrite q w s
  | .incHighWrite q w => Sys2Proof.Machine.execIncHighWrite q w s
  | .step q => Sys2Proof.Machine.execStep q s
  | .stepForced q => Sys2Proof.Machine.execStepForced q s
  | .stepApply => Sys2Proof.Machine.execStepApply s
  | .lock q => Sys2Proof.Machine.execLock q s
  | .unlock q => Sys2Proof.Machine.execUnlock q s
  | .nonce q => Sys2Proof.Machine.execNonce q s
  | .token q => Sys2Proof.Machine.execToken q s
  | .timeCmdIgnored q cmd => Sys2Proof.Machine.execTimeCmdIgnored q cmd s
  | .syncTimeout => Sys2Proof.Machine.execSyncTimeout s
  | .nonceExpiry => Sys2Proof.Machine.execNonceExpiry s
  | .trustExpiry => Sys2Proof.Machine.execTrustExpiry s
  | .vaultTimeLoad => Sys2Proof.Machine.execVaultTimeLoad s
  | .localTimeRestore => Sys2Proof.Machine.execLocalTimeRestore s
  | .sourceRaise src detail => Sys2Proof.Machine.execSourceRaise src detail s
  | .levelAssert src => Sys2Proof.Machine.execLevelAssert src s
  | .levelDeassert src => Sys2Proof.Machine.execLevelDeassert src s
  | .recordDelivery k => Sys2Proof.Machine.execRecordDelivery k s
  | .eoi q src => Sys2Proof.Machine.execEoi q src s
  | .headWrite q k v => Sys2Proof.Machine.execHeadWrite q k v s
  | .moderationExpiry k => Sys2Proof.Machine.execModerationExpiry k s
  | .holdOn q mx => Sys2Proof.Machine.execHoldOn q mx s
  | .holdOff q mx => Sys2Proof.Machine.execHoldOff q mx s
  | .holdExpiry => Sys2Proof.Machine.execHoldExpiry s
  | .rateIntervalEnd key => Sys2Proof.Machine.execRateIntervalEnd key s
  | .srcEnable q src en => Sys2Proof.Machine.execSrcEnable q src en s
  | .faultOccurrence => Sys2Proof.Machine.execFaultOccurrence s
  | .faultConditionEnd => Sys2Proof.Machine.execFaultConditionEnd s
  | .clear q ix => Sys2Proof.Machine.execClear q ix s
  | .clearAll q => Sys2Proof.Machine.execClearAll q s
  | .enter q => Sys2Proof.Machine.execEnter q s
  | .reclaim q st => Sys2Proof.Machine.execReclaim q st s
  | .unlockRlock q => Sys2Proof.Machine.execUnlockRlock q s
  | .returnStn q st => Sys2Proof.Machine.execReturn q st s
  | .curCmdIgnored q => Sys2Proof.Machine.execCurCmdIgnored q s
  | .autoClear ix => Sys2Proof.Machine.execAutoClear ix s
  | .reclaimComplete => Sys2Proof.Machine.execReclaimComplete s
  | .curatorSelf corrected => Sys2Proof.Machine.execCuratorSelf corrected s
  | .faultInject q src kind => Sys2Proof.Machine.execFaultInject q src kind s
  | .vbatOkRise => Sys2Proof.Machine.execVbatOkRise s
  | .vbatOkFall torn => Sys2Proof.Machine.execVbatOkFall torn s
  | .railInWindow ix => Sys2Proof.Machine.execRailInWindow ix s
  | .railFailure ix => Sys2Proof.Machine.execRailFailure ix s
  | .railRetry => Sys2Proof.Machine.execRailRetry s
  | .crystalStable => Sys2Proof.Machine.execCrystalStable s
  | .clockLoss ref lost => Sys2Proof.Machine.execClockLoss ref lost s
  | .enterA1 => Sys2Proof.Machine.execEnterA1 s
  | .enterA2 => Sys2Proof.Machine.execEnterA2 s
  | .enterA3 => Sys2Proof.Machine.execEnterA3 s
  | .wakeFromA1 => Sys2Proof.Machine.execWakeFromA1 s
  | .wakeLead bad => Sys2Proof.Machine.execWakeLead bad s
  | .wakeSource bad => Sys2Proof.Machine.execWakeSource bad s
  | .watchTimerDue k => Sys2Proof.Machine.execWatchTimerDue k s
  | .allowWrite q v => Sys2Proof.Machine.execAllowWrite q v s
  | .hallRefresh single double => Sys2Proof.Machine.execHallRefresh single double s
  | .vbkLowWindowOpen => Sys2Proof.Machine.execVbkLowWindowOpen s
  | .lapseDecision rose => Sys2Proof.Machine.execLapseDecision rose s
  | .thermalOnset tj => Sys2Proof.Machine.execThermalOnset tj s
  | .thermalEnd tj => Sys2Proof.Machine.execThermalEnd tj s
  | .laneLinkUp l corr unc => Sys2Proof.Machine.execLaneLinkUp l corr unc s
  | .laneLinkDown l cut fec corr unc => Sys2Proof.Machine.execLaneLinkDown l cut fec corr unc s
  | .streamFailback st => Sys2Proof.Machine.execStreamFailback st s
  | .trainingRetry l => Sys2Proof.Machine.execTrainingRetry l s
  | .keepaliveSend l => Sys2Proof.Machine.execKeepaliveSend l s
  | .laneFrameSend l => Sys2Proof.Machine.execLaneFrameSend l s
  | .laneFrameReceived l r => Sys2Proof.Machine.execLaneFrameReceived l r s
  | .nativeFrameReceived l bs stamp corr => Sys2Proof.Machine.execNativeFrameReceived l bs stamp corr s
  | .txAnWrite q l an => Sys2Proof.Machine.execTxAnWrite q l an s
  | .hqTxTailWrite q l v => Sys2Proof.Machine.execHqTxTailWrite q l v s
  | .hqRxHeadWrite q l v => Sys2Proof.Machine.execHqRxHeadWrite q l v s
  | .pcieReset cause => Sys2Proof.Machine.execPcieReset cause s
  | .pcieLinkUp speed width => Sys2Proof.Machine.execPcieLinkUp speed width s
  | .msixUnmask k => Sys2Proof.Machine.execMsixUnmask k s
  | .usbBusReset hs => Sys2Proof.Machine.execUsbBusReset hs s
  | .usbSuspend on wake => Sys2Proof.Machine.execUsbSuspend on wake s
  | .svcRead r => Sys2Proof.Machine.execSvcRead r s
  | .svcWrite r ws => Sys2Proof.Machine.execSvcWrite r ws s
  | .svcChallenge r => Sys2Proof.Machine.execSvcChallenge r s
  | .svcUnlock r => Sys2Proof.Machine.execSvcUnlock r s
  | .dbgHalt r => Sys2Proof.Machine.execDbgHalt r s
  | .dbgStep r => Sys2Proof.Machine.execDbgStep r s
  | .dbgResume r => Sys2Proof.Machine.execDbgResume r s
  | .dbgReadReg r reg => Sys2Proof.Machine.execDbgReadReg r reg s
  | .dbgWriteReg r reg w => Sys2Proof.Machine.execDbgWriteReg r reg w s
  | .dfuDetach => Sys2Proof.Machine.execDfuDetach s
  | .relock q => Sys2Proof.Machine.execRelock q s
  | .keyWrite q h checkOk => Sys2Proof.Machine.execKeyWrite q h checkOk s
  | .importKey q checkOk => Sys2Proof.Machine.execImport q checkOk s
  | .derive q h arg => Sys2Proof.Machine.execDerive q h arg s
  | .erase q h => Sys2Proof.Machine.execErase q h s
  | .lc q arg => Sys2Proof.Machine.execLc q arg s
  | .root q => Sys2Proof.Machine.execRoot q s
  | .keyCommandDone => Sys2Proof.Machine.execKeyCommandDone s
  | .sign q b len m => Sys2Proof.Machine.execSign q b len m s
  | .verify q b len m => Sys2Proof.Machine.execVerify q b len m s
  | .inc q k m => Sys2Proof.Machine.execInc q k m s
  | .raise q k m => Sys2Proof.Machine.execRaise q k m s
  | .tlogAppend q d => Sys2Proof.Machine.execTlogAppend q d s
  | .tamperEvent m => Sys2Proof.Machine.execTamperEvent m s
  | .manifest q f => Sys2Proof.Machine.execManifest q f s
  | .chunk q k f => Sys2Proof.Machine.execChunk q k f s
  | .prepare q ok => Sys2Proof.Machine.execPrepare q ok s
  | .handover q => Sys2Proof.Machine.execHandover q s
  | .confirm q m => Sys2Proof.Machine.execConfirm q m s
  | .fallback q stuck => Sys2Proof.Machine.execFallback q stuck s
  | .discard q => Sys2Proof.Machine.execDiscard q s
  | .updCmdIgnored q code arg => Sys2Proof.Machine.execUpdCmdIgnored q code arg s
  | .updCommandDone => Sys2Proof.Machine.execUpdCommandDone s
  | .chrysalisDeadline stuck => Sys2Proof.Machine.execChrysalisDeadline stuck s
  | .handoverCodeLoad => Sys2Proof.Machine.execHandoverCodeLoad s
  | .trialJournal => Sys2Proof.Machine.execTrialJournal s
  | .trialExpiry stuck => Sys2Proof.Machine.execTrialExpiry stuck s
  | .updateBoot stuck => Sys2Proof.Machine.execUpdateBoot stuck s
  | .dfuDnload n bs f => Sys2Proof.Machine.execDfuDnload n bs f s
  | .dfuDnloadEnd rcvr bad => Sys2Proof.Machine.execDfuDnloadEnd rcvr bad s
  | .agreeSend => Sys2Proof.Machine.execAgreeSend s
  | .agreeReceive p a t3 t4 c2 => Sys2Proof.Machine.execAgreeReceive p a t3 t4 c2 s
  | .peerSilence p => Sys2Proof.Machine.execPeerSilence p s
  | .thetaStale => Sys2Proof.Machine.execThetaStale s
  | .noticeReceive ix j kind t => Sys2Proof.Machine.execNoticeReceive ix j kind t s
  | .frameMessageReceive m => Sys2Proof.Machine.execFrameMessageReceive m s
  | .powerOnReset rcvr bad => Sys2Proof.Machine.execPowerOnReset rcvr bad s
  | .packageReset bad => Sys2Proof.Machine.execPackageReset bad s
  | .resetRelease rcvr => Sys2Proof.Machine.execResetRelease rcvr s
  | .vbatLowChange v => Sys2Proof.Machine.execVbatLowChange v s
  | .vbkLowChange v => Sys2Proof.Machine.execVbkLowChange v s
  | .railWindowLoss ix inside => Sys2Proof.Machine.execRailWindowLoss ix inside s
  | .wfi e => Sys2Proof.Machine.execWfi e s
  | .mret e => Sys2Proof.Machine.execMret e s
  | .usbVbusChange on => Sys2Proof.Machine.execUsbVbusChange on s
  | .pcieL2Entry => Sys2Proof.Machine.execPcieL2Entry s
  | .tamperRearm => Sys2Proof.Machine.execTamperRearm s

end Sys2Proof.Machine
end

