-- ==== Sys2Proof/Machine/Step.lean ====
section
/-! DEFINITION. The step: the command at the front of the queue, or one timebase tick when none waits. -/

namespace Sys2Proof.Machine

/-- One step: the front command is taken off the queue and has its effect on the rest of the state; with an empty queue
one tick of 2 ns of the 500 MHz timebase passes (R323), in which every RUNNING engine runs an instruction (R268). -/
def step (s : State) : Host.Outcome State Fault Refusal :=
  match s.pending with
  | [] => .next s.idle
  | c :: cs => exec c { s with pending := cs }

/-- `s` with the command that a word spells in front of its queue; the table gives no row bits, so no word spells one. -/
def State.withFetchWord (s : State) (nbits w : Nat) : State :=
  match decodeTableWord nbits w with
  | some c => { s with pending := c :: s.pending }
  | none => s

end Sys2Proof.Machine
end

