-- ==== Sys2Proof/Machine/Parts.lean ====
section
/-! DEFINITION. The pieces of the machine that a frame names: every register of the register map, and every other field of
`State`; and `Only`, which says that a step changes only some of them. -/

namespace Sys2Proof.Machine

/-- A piece of the machine: a field of `State` beside the registers, any register at all, or one register of the register
map with all its instances. -/
inductive Part where
  | mem | pending | led | cur | time | pwr | ports | obs | links | gov | store | cat | gw | spine | con | cores | halls
  | img | upd | vault | latches | resp | out | anyReg
  | IMG_CTRL | IMG_STATUS | IMG_SRC | IMG_LEN | IMG_CHK_LOC | IMG_CHK_COUNT | IMG_EPOCH | IMG_VERSION | IMG_JRNL
  | IMG_BOOT | IMG_FMT | IMG_SVER_MAX | IMG_TRANS_LIMIT | IMG_SUSP | IMG_XDROP | IMG_FORCED | IMG_DIGEST | IMG_TRANS
  | IMG_PORT_EPOCH | LP_CTRL | LP_STATE | LP_CFG | LP_TOPO | LP_WIRE | LP_FAULT | LP_MEAS | LP_EMETER | LP_DEFER
  | LP_WAKE_CFG | LP_WUF_ID | LP_WUF_IDMASK | LP_WUF_DATA | LP_WAKE_STAT | LP_GOV_CFG | LP_GOV_STAT | LP_GOV_PEAK
  | LP_GOV_CNT | BT_CTRL | BT_STAT | BT_CFG | BT_PRESC | BT_NTIM | BT_DTIM | BT_XTIM | BT_TDC | BT_PLCA | BT_PLCA_TMR
  | BT_PLCA_STAT | BT_BCN_ID | BT_BCN_CFG | BT_BCN_STAT | BT_RXCNT | BT_TXCNT | BT_PEXCNT | OBS_CTRL | OBS_STAT
  | OBS_CFG | OBS_WP_LAST | OBS_WP_CNT | OBS_WP_FEAT | OBS_ENR_SEL | OBS_ENR_STAT | OBS_ENR_SUM | OBS_ENR_SQ
  | OBS_ENR_USE | OBS_SND_CFG | OBS_SND_STAT | OBS_SND_REFL | OBS_CEN_STAT | OBS_CEN_START | OBS_CEN_END
  | OBS_CEN_UNK | OBS_CEN_UNK_T | OBS_CAP_CFG | OBS_CAP_STAT | OBS_CAP_SEQ | OBS_CAP_CNT | OBS_CEN_RES | MOP_DOORBELL
  | MOP_ERR | MOP_ERR_SLOT | MOP_POOL_CFG0 | MOP_POOL_CFG1 | MOP_POOL_STAT | MOP_POOL_CNT | MOP_FSP_BASE
  | MOP_FSP_CNT | MOP_FSP_RSV | MOP_FSP_FREE | MOP_FSP_LOW | MOP_PORTQ | MOP_PORTHEAD | MOP_MON_CFG | MOP_MON_PERIOD
  | MOP_MON_NEXT | MOP_MON_STAT | MOP_DESC | CAT_UPD_CMD | CAT_UPD_STAT | CAT_UPD_IDX | CAT_UPD_T | CAT_UPD_W
  | CAT_USE | CAT_TBL_CFG0 | CAT_TBL_CFG1 | CAT_PBIND | CAT_PCNT | CAT_PADDR_LO | CAT_PADDR_HI | CAT_ENTRY | ECF_CTRL
  | ECF_STAT | ECF_CFG | ECF_GUARD | ECF_SLOPE | ECF_CNT | ECF_LAST | ECF_LAST_T | ECF_ERRCNT | ECF_BO | ECF_BO_T
  | ECF_BO_DUR | ECF_MISC | ECF_ETH | ECF_ETH_COLL | GW_STAT | GW_BRK | GW_BRK_LATE | GW_BRK_T | GW_BRKW | GW_PCP_TH
  | GW_RT_CFG | GW_RT_H | GW_RT_HMIN | GW_RT_BUD | GW_RT_LEGS | GW_RT_CNT | GW_RT_DROP | GW_RT_BRK | GW_LEG_CFG
  | GW_LEG_ID | GW_LEG_Q | GW_LEG_STAT | GW_TUN_CFG | GW_TUN_SEQ | GW_TUN_SID | GW_TUN_CNT | GW_TUN_DUP | GW_EQ_STAT
  | GW_EQ_CNT | RGN_OPP | RGN_STAT | RGN_DIRCNT | RGN_PART | CLU_CFG | CLU_PRIO | CLU_DOORBELL | CLU_DOORACK
  | CLU_ERR | CLU_WIN_A | CLU_WIN_B | CLU_LOCK | ENG_CTRL | ENG_STAT | ENG_CFG | ENG_START | ENG_TCMP | ENG_TRAP
  | ENG_TVAL | ENG_PC | HALL_STAT | HALL_ERR | HALL_ERR_ADDR | HALL_HANDOVER | HALL_HO_STAT | HALL_REVOKE
  | HALL_RV_STAT | HALL_ECC | HALL_UE_ADDR | HALL_TEST_CFG | HALL_TEST_STAT | HALL_CONF | HALL_OWN | TIME_CTRL
  | TIME_STAT | TIME_CFG | TIME_JTH | TIME_INC | TIME_NOW_HI | TIME_NOW | TIME_NSO | TIME_OFFS | TIME_JREF
  | TIME_SEC_CFG | TIME_SEC_HOLD | TIME_SEC_LAST | TIME_SEC_ERR | TIME_NONCE | TIME_TOKEN | TIME_VT | TIME_BRX_CFG
  | TIME_BRX_ID | TIME_BRX_RT | TIME_BRX_LT | TIME_BRX_OFF | TIME_BRX_STAT | TIME_BSCHED | TIME_PTP | LEDG_STAT
  | LEDG_HOLD | LEDG_EOI | LEDG_ERR | LEDG_LOSTCNT | LEDG_EPEND | LEDG_WAKE | LEDG_RING_BASE | LEDG_RING_CFG
  | LEDG_RING_MOD | LEDG_RING_HEAD | LEDG_RING_TAIL | LEDG_RING_STAT | LEDG_SRC | CUR_CTRL | CUR_STAT | CUR_CFG
  | CUR_RECOV | CUR_FIRST | CUR_FIRST_ADDR | CUR_FIRST_ACC | CUR_FIRST_T | CUR_COIN | CUR_SEVCNT | CUR_GO_OUT
  | CUR_INJ | CUR_GO_SAFE | CUR_SAFE_T | CUR_KIND | CUR_WRULE0 | CUR_WRULE1 | CUR_AFT | PWR_CTRL | PWR_STAT
  | PWR_NEXT | PWR_RAILS | PWR_TEMP | PWR_CNT | WATCH_STAT | WATCH_WAKE | WATCH_SUPPLY | WATCH_TREST | WATCH_CNT
  | WATCH_TMR | WATCH_SCHED | SPN_STAT | SPN_LANE_CFG | SPN_LANE_STAT | SPN_LANE_SA | SPN_LANE_FEC | SPN_LANE_SEC
  | SPN_HQ_BASE | SPN_HQ_PTR | SPN_STR_CFG | SPN_STR_DA | SPN_STR_STAT | PCIE_STAT | PCIE_CFG | PCIE_CNT | PCIE_PEND
  | SVC_STAT | SVC_DBG | SVC_DFU_NEXT | SVC_CHAL | VIT_STAT | VIT_KCMD | VIT_KSTAT | VIT_KSRC | VIT_KATTR
  | VIT_AU_CMD | VIT_AU_STAT | VIT_AU_BUF | VIT_AU_FV | VIT_SLOT | VIT_BIND0 | VIT_BIND1 | VIT_BIND2 | VAULT_STAT
  | VAULT_TAMPER_CFG | VAULT_MRAM | VAULT_MC_CMD | VAULT_MC_ARG | VAULT_TLOG_CFG | VAULT_TLOG_APP | VAULT_MC
  | VAULT_FV | VAULT_TLOG | UPD_CTRL | UPD_STAT | UPD_SRC | UPD_CFG | UPD_VER_IMAGO | UPD_VER_STAGED | UPD_HO_LAT
  | UPD_MAP | UPD_FORCED | CON_STAT | CON_CFG | CON_THR | CON_AHOR | CON_THETA | CON_DIS | CON_DIS_T | CON_CD
  | CON_PEER_CFG | CON_PEER_STAT | CON_PEER_OFF | CON_PEER_CNT | CON_PEER_SKIP | CHIP_ID | CHIP_UID | CHIP_READY
  | CHIP_READY_CHG | CHIP_RGN_READY | CHIP_NRACC | CHIP_UNMAP | OBS_SIGHDR | OBS_SIGFEAT | OBS_TRACE | MSIX
  deriving DecidableEq, Repr

/-- The words that a register has, all instances of it together (the register maps, R488 to R490). -/
def Part.owns : Part → Nat → Prop
  | .IMG_CTRL, a => a = 0x00100000
  | .IMG_STATUS, a => a = 0x00100004
  | .IMG_SRC, a => a = 0x00100008
  | .IMG_LEN, a => a = 0x0010000C
  | .IMG_CHK_LOC, a => a = 0x00100010
  | .IMG_CHK_COUNT, a => a = 0x00100014
  | .IMG_EPOCH, a => a = 0x00100018
  | .IMG_VERSION, a => a = 0x0010001C
  | .IMG_JRNL, a => a = 0x00100020
  | .IMG_BOOT, a => a = 0x00100024
  | .IMG_FMT, a => a = 0x00100028
  | .IMG_SVER_MAX, a => a = 0x0010002C
  | .IMG_TRANS_LIMIT, a => a = 0x00100030
  | .IMG_SUSP, a => a = 0x00100034
  | .IMG_XDROP, a => a = 0x00100038
  | .IMG_FORCED, a => a = 0x0010003C
  | .IMG_DIGEST, a => ∃ n < 12, a = 0x00100040 + 0x4 * n
  | .IMG_TRANS, a => ∃ n < 4, a = 0x00100080 + 0x4 * n
  | .IMG_PORT_EPOCH, a => ∃ n < 128, a = 0x00101000 + 0x4 * n
  | .LP_CTRL, a => ∃ n < 128, a = 0x01000000 + 0x1000 * n
  | .LP_STATE, a => ∃ n < 128, a = 0x01000004 + 0x1000 * n
  | .LP_CFG, a => ∃ n < 128, a = 0x01000008 + 0x1000 * n
  | .LP_TOPO, a => ∃ n < 128, a = 0x0100000C + 0x1000 * n
  | .LP_WIRE, a => ∃ n < 128, a = 0x01000010 + 0x1000 * n
  | .LP_FAULT, a => ∃ n < 128, a = 0x01000014 + 0x1000 * n
  | .LP_MEAS, a => ∃ n < 128, a = 0x01000018 + 0x1000 * n
  | .LP_EMETER, a => ∃ n < 128, a = 0x0100001C + 0x1000 * n
  | .LP_DEFER, a => ∃ n < 128, a = 0x01000020 + 0x1000 * n
  | .LP_WAKE_CFG, a => ∃ n < 128, a = 0x01000024 + 0x1000 * n
  | .LP_WUF_ID, a => ∃ n < 128, a = 0x01000028 + 0x1000 * n
  | .LP_WUF_IDMASK, a => ∃ n < 128, a = 0x0100002C + 0x1000 * n
  | .LP_WUF_DATA, a => ∃ n < 128, ∃ w < 2, a = 0x01000030 + 0x1000 * n + 4 * w
  | .LP_WAKE_STAT, a => ∃ n < 128, a = 0x01000038 + 0x1000 * n
  | .LP_GOV_CFG, a => ∃ n < 2, a = 0x01000800 + 0x40000 * n
  | .LP_GOV_STAT, a => ∃ n < 2, a = 0x01000804 + 0x40000 * n
  | .LP_GOV_PEAK, a => ∃ n < 2, a = 0x01000808 + 0x40000 * n
  | .LP_GOV_CNT, a => ∃ n < 2, a = 0x0100080C + 0x40000 * n
  | .BT_CTRL, a => ∃ n < 128, a = 0x01000100 + 0x1000 * n
  | .BT_STAT, a => ∃ n < 128, a = 0x01000104 + 0x1000 * n
  | .BT_CFG, a => ∃ n < 128, a = 0x01000108 + 0x1000 * n
  | .BT_PRESC, a => ∃ n < 128, a = 0x0100010C + 0x1000 * n
  | .BT_NTIM, a => ∃ n < 128, a = 0x01000110 + 0x1000 * n
  | .BT_DTIM, a => ∃ n < 128, a = 0x01000114 + 0x1000 * n
  | .BT_XTIM, a => ∃ n < 128, a = 0x01000118 + 0x1000 * n
  | .BT_TDC, a => ∃ n < 128, a = 0x0100011C + 0x1000 * n
  | .BT_PLCA, a => ∃ n < 128, a = 0x01000120 + 0x1000 * n
  | .BT_PLCA_TMR, a => ∃ n < 128, a = 0x01000124 + 0x1000 * n
  | .BT_PLCA_STAT, a => ∃ n < 128, a = 0x01000128 + 0x1000 * n
  | .BT_BCN_ID, a => ∃ n < 128, a = 0x0100012C + 0x1000 * n
  | .BT_BCN_CFG, a => ∃ n < 128, a = 0x01000130 + 0x1000 * n
  | .BT_BCN_STAT, a => ∃ n < 128, a = 0x01000134 + 0x1000 * n
  | .BT_RXCNT, a => ∃ n < 128, a = 0x01000138 + 0x1000 * n
  | .BT_TXCNT, a => ∃ n < 128, a = 0x0100013C + 0x1000 * n
  | .BT_PEXCNT, a => ∃ n < 128, a = 0x01000140 + 0x1000 * n
  | .OBS_CTRL, a => ∃ n < 128, a = 0x01800000 + 0x1000 * n
  | .OBS_STAT, a => ∃ n < 128, a = 0x01800004 + 0x1000 * n
  | .OBS_CFG, a => ∃ n < 128, a = 0x01800008 + 0x1000 * n
  | .OBS_WP_LAST, a => ∃ n < 128, a = 0x0180000C + 0x1000 * n
  | .OBS_WP_CNT, a => ∃ n < 128, a = 0x01800010 + 0x1000 * n
  | .OBS_WP_FEAT, a => ∃ n < 128, ∃ k < 6, a = 0x01800018 + 0x1000 * n + 0x4 * k
  | .OBS_ENR_SEL, a => ∃ n < 128, a = 0x01800040 + 0x1000 * n
  | .OBS_ENR_STAT, a => ∃ n < 128, a = 0x01800044 + 0x1000 * n
  | .OBS_ENR_SUM, a => ∃ n < 128, ∃ k < 12, a = 0x01800050 + 0x1000 * n + 0x4 * k
  | .OBS_ENR_SQ, a => ∃ n < 128, ∃ k < 12, ∃ w < 2, a = 0x01800080 + 0x1000 * n + 0x8 * k + 4 * w
  | .OBS_ENR_USE, a => ∃ n < 128, ∃ k < 6, a = 0x018000E0 + 0x1000 * n + 0x4 * k
  | .OBS_SND_CFG, a => ∃ n < 128, a = 0x01800100 + 0x1000 * n
  | .OBS_SND_STAT, a => ∃ n < 128, a = 0x01800104 + 0x1000 * n
  | .OBS_SND_REFL, a => ∃ n < 128, ∃ k < 8, a = 0x01800110 + 0x1000 * n + 0x4 * k
  | .OBS_CEN_STAT, a => ∃ n < 128, a = 0x01800200 + 0x1000 * n
  | .OBS_CEN_START, a => ∃ n < 128, ∃ w < 2, a = 0x01800208 + 0x1000 * n + 4 * w
  | .OBS_CEN_END, a => ∃ n < 128, ∃ w < 2, a = 0x01800210 + 0x1000 * n + 4 * w
  | .OBS_CEN_UNK, a => ∃ n < 128, a = 0x01800218 + 0x1000 * n
  | .OBS_CEN_UNK_T, a => ∃ n < 128, ∃ w < 2, a = 0x01800220 + 0x1000 * n + 4 * w
  | .OBS_CAP_CFG, a => ∃ n < 128, a = 0x01800300 + 0x1000 * n
  | .OBS_CAP_STAT, a => ∃ n < 128, a = 0x01800304 + 0x1000 * n
  | .OBS_CAP_SEQ, a => ∃ n < 128, a = 0x01800308 + 0x1000 * n
  | .OBS_CAP_CNT, a => ∃ n < 128, a = 0x0180030C + 0x1000 * n
  | .OBS_CEN_RES, a => ∃ n < 128, ∃ k < 32, ∃ w < 4, a = 0x01800400 + 0x1000 * n + 0x10 * k + 4 * w
  | .MOP_DOORBELL, a => a = 0x02000000
  | .MOP_ERR, a => a = 0x02000004
  | .MOP_ERR_SLOT, a => a = 0x02000008
  | .MOP_POOL_CFG0, a => ∃ n < 1024, a = 0x02001000 + 0x10 * n
  | .MOP_POOL_CFG1, a => ∃ n < 1024, a = 0x02001004 + 0x10 * n
  | .MOP_POOL_STAT, a => ∃ n < 1024, a = 0x02001008 + 0x10 * n
  | .MOP_POOL_CNT, a => ∃ n < 1024, a = 0x0200100C + 0x10 * n
  | .MOP_FSP_BASE, a => ∃ n < 256, a = 0x02008000 + 0x20 * n
  | .MOP_FSP_CNT, a => ∃ n < 256, a = 0x02008004 + 0x20 * n
  | .MOP_FSP_RSV, a => ∃ n < 256, a = 0x02008008 + 0x20 * n
  | .MOP_FSP_FREE, a => ∃ n < 256, a = 0x0200800C + 0x20 * n
  | .MOP_FSP_LOW, a => ∃ n < 256, a = 0x02008010 + 0x20 * n
  | .MOP_PORTQ, a => ∃ n < 128, a = 0x02010000 + 0x8 * n
  | .MOP_PORTHEAD, a => ∃ n < 128, a = 0x02010004 + 0x8 * n
  | .MOP_MON_CFG, a => ∃ n < 4096, a = 0x02020000 + 0x20 * n
  | .MOP_MON_PERIOD, a => ∃ n < 4096, a = 0x02020004 + 0x20 * n
  | .MOP_MON_NEXT, a => ∃ n < 4096, ∃ w < 2, a = 0x02020008 + 0x20 * n + 4 * w
  | .MOP_MON_STAT, a => ∃ n < 4096, a = 0x02020010 + 0x20 * n
  | .MOP_DESC, a => ∃ n < 65536, ∃ w < 8, a = 0x02400000 + 0x20 * n + 4 * w
  | .CAT_UPD_CMD, a => ∃ q < 128, a = perRequester q + 0x02800000
  | .CAT_UPD_STAT, a => ∃ q < 128, a = perRequester q + 0x02800004
  | .CAT_UPD_IDX, a => ∃ q < 128, a = perRequester q + 0x02800008
  | .CAT_UPD_T, a => ∃ q < 128, ∃ w < 2, a = perRequester q + 0x02800010 + 4 * w
  | .CAT_UPD_W, a => ∃ q < 128, ∃ n < 8, a = perRequester q + 0x02800020 + 0x4 * n
  | .CAT_USE, a => a = 0x02800040
  | .CAT_TBL_CFG0, a => ∃ n < 256, a = 0x02801000 + 0x8 * n
  | .CAT_TBL_CFG1, a => ∃ n < 256, a = 0x02801004 + 0x8 * n
  | .CAT_PBIND, a => ∃ n < 128, a = 0x02802000 + 0x10 * n
  | .CAT_PCNT, a => ∃ n < 128, a = 0x02802004 + 0x10 * n
  | .CAT_PADDR_LO, a => ∃ n < 128, a = 0x02802008 + 0x10 * n
  | .CAT_PADDR_HI, a => ∃ n < 128, a = 0x0280200C + 0x10 * n
  | .CAT_ENTRY, a => ∃ n < 32768, ∃ w < 8, a = 0x02900000 + 0x20 * n + 4 * w
  | .ECF_CTRL, a => ∃ n < 128, a = 0x01000200 + 0x1000 * n
  | .ECF_STAT, a => ∃ n < 128, a = 0x01000204 + 0x1000 * n
  | .ECF_CFG, a => ∃ n < 128, a = 0x01000208 + 0x1000 * n
  | .ECF_GUARD, a => ∃ n < 128, a = 0x0100020C + 0x1000 * n
  | .ECF_SLOPE, a => ∃ n < 128, a = 0x01000210 + 0x1000 * n
  | .ECF_CNT, a => ∃ n < 128, a = 0x01000214 + 0x1000 * n
  | .ECF_LAST, a => ∃ n < 128, a = 0x01000218 + 0x1000 * n
  | .ECF_LAST_T, a => ∃ n < 128, ∃ w < 2, a = 0x01000220 + 0x1000 * n + 4 * w
  | .ECF_ERRCNT, a => ∃ n < 128, a = 0x01000228 + 0x1000 * n
  | .ECF_BO, a => ∃ n < 128, a = 0x0100022C + 0x1000 * n
  | .ECF_BO_T, a => ∃ n < 128, ∃ w < 2, a = 0x01000230 + 0x1000 * n + 4 * w
  | .ECF_BO_DUR, a => ∃ n < 128, a = 0x01000238 + 0x1000 * n
  | .ECF_MISC, a => ∃ n < 128, a = 0x0100023C + 0x1000 * n
  | .ECF_ETH, a => ∃ n < 128, a = 0x01000240 + 0x1000 * n
  | .ECF_ETH_COLL, a => ∃ n < 128, a = 0x01000244 + 0x1000 * n
  | .GW_STAT, a => a = 0x03000000
  | .GW_BRK, a => a = 0x03000004
  | .GW_BRK_LATE, a => a = 0x03000008
  | .GW_BRK_T, a => ∃ w < 2, a = 0x03000010 + 4 * w
  | .GW_BRKW, a => ∃ n < 8, a = 0x03000020 + 0x4 * n
  | .GW_PCP_TH, a => ∃ n < 7, a = 0x03000050 + 0x4 * n
  | .GW_RT_CFG, a => ∃ n < 1024, a = 0x03001000 + 0x20 * n
  | .GW_RT_H, a => ∃ n < 1024, a = 0x03001004 + 0x20 * n
  | .GW_RT_HMIN, a => ∃ n < 1024, a = 0x03001008 + 0x20 * n
  | .GW_RT_BUD, a => ∃ n < 1024, a = 0x0300100C + 0x20 * n
  | .GW_RT_LEGS, a => ∃ n < 1024, a = 0x03001010 + 0x20 * n
  | .GW_RT_CNT, a => ∃ n < 1024, a = 0x03001014 + 0x20 * n
  | .GW_RT_DROP, a => ∃ n < 1024, a = 0x03001018 + 0x20 * n
  | .GW_RT_BRK, a => ∃ n < 1024, a = 0x0300101C + 0x20 * n
  | .GW_LEG_CFG, a => ∃ n < 1024, a = 0x03010000 + 0x10 * n
  | .GW_LEG_ID, a => ∃ n < 1024, a = 0x03010004 + 0x10 * n
  | .GW_LEG_Q, a => ∃ n < 1024, a = 0x03010008 + 0x10 * n
  | .GW_LEG_STAT, a => ∃ n < 1024, a = 0x0301000C + 0x10 * n
  | .GW_TUN_CFG, a => ∃ n < 64, a = 0x03020000 + 0x20 * n
  | .GW_TUN_SEQ, a => ∃ n < 64, a = 0x03020004 + 0x20 * n
  | .GW_TUN_SID, a => ∃ n < 64, ∃ w < 2, a = 0x03020008 + 0x20 * n + 4 * w
  | .GW_TUN_CNT, a => ∃ n < 64, a = 0x03020010 + 0x20 * n
  | .GW_TUN_DUP, a => ∃ n < 64, a = 0x03020014 + 0x20 * n
  | .GW_EQ_STAT, a => ∃ n < 256, a = 0x03030000 + 0x8 * n
  | .GW_EQ_CNT, a => ∃ n < 256, a = 0x03030004 + 0x8 * n
  | .RGN_OPP, a => ∃ n < 16, a = 0x04000000 + 0x100000 * n
  | .RGN_STAT, a => ∃ n < 16, a = 0x04000004 + 0x100000 * n
  | .RGN_DIRCNT, a => ∃ n < 16, a = 0x04000008 + 0x100000 * n
  | .RGN_PART, a => ∃ n < 16, ∃ k < 8, a = 0x04000020 + 0x100000 * n + 0x4 * k
  | .CLU_CFG, a => ∃ n < 16, ∃ k < 8, a = 0x04010000 + 0x100000 * n + 0x1000 * k
  | .CLU_PRIO, a => ∃ n < 16, ∃ k < 8, a = 0x04010004 + 0x100000 * n + 0x1000 * k
  | .CLU_DOORBELL, a => ∃ n < 16, ∃ k < 8, a = 0x04010008 + 0x100000 * n + 0x1000 * k
  | .CLU_DOORACK, a => ∃ n < 16, ∃ k < 8, a = 0x0401000C + 0x100000 * n + 0x1000 * k
  | .CLU_ERR, a => ∃ n < 16, ∃ k < 8, a = 0x04010010 + 0x100000 * n + 0x1000 * k
  | .CLU_WIN_A, a => ∃ m < 16, ∃ n < 8, ∃ k < 8, a = 0x04010040 + 0x100000 * m + 0x1000 * n + 0x8 * k
  | .CLU_WIN_B, a => ∃ m < 16, ∃ n < 8, ∃ k < 8, a = 0x04010044 + 0x100000 * m + 0x1000 * n + 0x8 * k
  | .CLU_LOCK, a => ∃ m < 16, ∃ n < 8, ∃ k < 64, a = 0x04010100 + 0x100000 * m + 0x1000 * n + 0x4 * k
  | .ENG_CTRL, a => ∃ n < 16, ∃ k < 64, a = 0x04020000 + 0x100000 * n + 0x100 * k
  | .ENG_STAT, a => ∃ n < 16, ∃ k < 64, a = 0x04020004 + 0x100000 * n + 0x100 * k
  | .ENG_CFG, a => ∃ n < 16, ∃ k < 64, a = 0x04020008 + 0x100000 * n + 0x100 * k
  | .ENG_START, a => ∃ n < 16, ∃ k < 64, a = 0x0402000C + 0x100000 * n + 0x100 * k
  | .ENG_TCMP, a => ∃ n < 16, ∃ k < 64, a = 0x04020010 + 0x100000 * n + 0x100 * k
  | .ENG_TRAP, a => ∃ n < 16, ∃ k < 64, a = 0x04020014 + 0x100000 * n + 0x100 * k
  | .ENG_TVAL, a => ∃ n < 16, ∃ k < 64, a = 0x04020018 + 0x100000 * n + 0x100 * k
  | .ENG_PC, a => ∃ n < 16, ∃ k < 64, a = 0x0402001C + 0x100000 * n + 0x100 * k
  | .HALL_STAT, a => a = 0x05500000
  | .HALL_ERR, a => a = 0x05500004
  | .HALL_ERR_ADDR, a => a = 0x05500008
  | .HALL_HANDOVER, a => a = 0x05500010
  | .HALL_HO_STAT, a => a = 0x05500014
  | .HALL_REVOKE, a => a = 0x05500018
  | .HALL_RV_STAT, a => a = 0x0550001C
  | .HALL_ECC, a => ∃ n < 4, a = 0x05500020 + 0x4 * n
  | .HALL_UE_ADDR, a => ∃ n < 4, a = 0x05500030 + 0x4 * n
  | .HALL_TEST_CFG, a => ∃ n < 4, a = 0x05500040 + 0x4 * n
  | .HALL_TEST_STAT, a => ∃ n < 4, a = 0x05500050 + 0x4 * n
  | .HALL_CONF, a => ∃ n < 22, a = 0x05500060 + 0x4 * n
  | .HALL_OWN, a => ∃ n < 4096, a = 0x05501000 + 0x4 * n
  | .TIME_CTRL, a => a = 0x05200000
  | .TIME_STAT, a => a = 0x05200004
  | .TIME_CFG, a => a = 0x05200008
  | .TIME_JTH, a => a = 0x0520000C
  | .TIME_INC, a => ∃ w < 2, a = 0x05200010 + 4 * w
  | .TIME_NOW_HI, a => a = 0x05200018
  | .TIME_NOW, a => ∃ w < 2, a = 0x05200020 + 4 * w
  | .TIME_NSO, a => ∃ w < 2, a = 0x05200028 + 4 * w
  | .TIME_OFFS, a => ∃ w < 2, a = 0x05200030 + 4 * w
  | .TIME_JREF, a => ∃ w < 2, a = 0x05200038 + 4 * w
  | .TIME_SEC_CFG, a => a = 0x05200040
  | .TIME_SEC_HOLD, a => a = 0x05200044
  | .TIME_SEC_LAST, a => ∃ w < 2, a = 0x05200048 + 4 * w
  | .TIME_SEC_ERR, a => ∃ w < 2, a = 0x05200050 + 4 * w
  | .TIME_NONCE, a => ∃ w < 2, a = 0x05200058 + 4 * w
  | .TIME_TOKEN, a => ∃ n < 5, a = 0x05200060 + 0x4 * n
  | .TIME_VT, a => ∃ w < 2, a = 0x05200080 + 4 * w
  | .TIME_BRX_CFG, a => ∃ n < 4, a = 0x05200100 + 0x20 * n
  | .TIME_BRX_ID, a => ∃ n < 4, a = 0x05200104 + 0x20 * n
  | .TIME_BRX_RT, a => ∃ n < 4, ∃ w < 2, a = 0x05200108 + 0x20 * n + 4 * w
  | .TIME_BRX_LT, a => ∃ n < 4, ∃ w < 2, a = 0x05200110 + 0x20 * n + 4 * w
  | .TIME_BRX_OFF, a => ∃ n < 4, a = 0x05200118 + 0x20 * n
  | .TIME_BRX_STAT, a => ∃ n < 4, a = 0x0520011C + 0x20 * n
  | .TIME_BSCHED, a => ∃ n < 128, a = 0x05200400 + 0x4 * n
  | .TIME_PTP, a => ∃ n < 132, a = 0x05200600 + 0x4 * n
  | .LEDG_STAT, a => a = 0x05000000
  | .LEDG_HOLD, a => a = 0x05000004
  | .LEDG_EOI, a => a = 0x05000008
  | .LEDG_ERR, a => a = 0x0500000C
  | .LEDG_LOSTCNT, a => a = 0x05000010
  | .LEDG_EPEND, a => ∃ w < 2, a = 0x05000018 + 4 * w
  | .LEDG_WAKE, a => a = 0x05000020
  | .LEDG_RING_BASE, a => ∃ n < 64, a = 0x05001000 + 0x20 * n
  | .LEDG_RING_CFG, a => ∃ n < 64, a = 0x05001004 + 0x20 * n
  | .LEDG_RING_MOD, a => ∃ n < 64, a = 0x05001008 + 0x20 * n
  | .LEDG_RING_HEAD, a => ∃ n < 64, a = 0x0500100C + 0x20 * n
  | .LEDG_RING_TAIL, a => ∃ n < 64, a = 0x05001010 + 0x20 * n
  | .LEDG_RING_STAT, a => ∃ n < 64, a = 0x05001014 + 0x20 * n
  | .LEDG_SRC, a => ∃ n < 2048, a = 0x05010000 + 0x4 * n
  | .CUR_CTRL, a => a = 0x05100000
  | .CUR_STAT, a => a = 0x05100004
  | .CUR_CFG, a => a = 0x05100008
  | .CUR_RECOV, a => a = 0x0510000C
  | .CUR_FIRST, a => a = 0x05100010
  | .CUR_FIRST_ADDR, a => a = 0x05100014
  | .CUR_FIRST_ACC, a => a = 0x05100018
  | .CUR_FIRST_T, a => ∃ w < 2, a = 0x05100020 + 4 * w
  | .CUR_COIN, a => a = 0x05100028
  | .CUR_SEVCNT, a => ∃ w < 2, a = 0x05100030 + 4 * w
  | .CUR_GO_OUT, a => a = 0x05100038
  | .CUR_INJ, a => a = 0x0510003C
  | .CUR_GO_SAFE, a => ∃ w < 2, a = 0x05100040 + 4 * w
  | .CUR_SAFE_T, a => ∃ w < 2, a = 0x05100048 + 4 * w
  | .CUR_KIND, a => ∃ n < 256, a = 0x05101000 + 0x4 * n
  | .CUR_WRULE0, a => ∃ n < 64, a = 0x05101400 + 0x8 * n
  | .CUR_WRULE1, a => ∃ n < 64, a = 0x05101404 + 0x8 * n
  | .CUR_AFT, a => ∃ n < 256, ∃ w < 4, a = 0x05102000 + 0x10 * n + 4 * w
  | .PWR_CTRL, a => a = 0x00000100
  | .PWR_STAT, a => a = 0x00000104
  | .PWR_NEXT, a => a = 0x00000108
  | .PWR_RAILS, a => a = 0x0000010C
  | .PWR_TEMP, a => a = 0x00000110
  | .PWR_CNT, a => a = 0x00000114
  | .WATCH_STAT, a => a = 0x05600000
  | .WATCH_WAKE, a => a = 0x05600004
  | .WATCH_SUPPLY, a => a = 0x05600008
  | .WATCH_TREST, a => a = 0x0560000C
  | .WATCH_CNT, a => a = 0x05600010
  | .WATCH_TMR, a => ∃ n < 4, ∃ w < 2, a = 0x05600020 + 0x8 * n + 4 * w
  | .WATCH_SCHED, a => ∃ w < 2, a = 0x05600040 + 4 * w
  | .SPN_STAT, a => a = 0x05400000
  | .SPN_LANE_CFG, a => ∃ n < 4, a = 0x05401000 + 0x100 * n
  | .SPN_LANE_STAT, a => ∃ n < 4, a = 0x05401004 + 0x100 * n
  | .SPN_LANE_SA, a => ∃ n < 4, ∃ w < 2, a = 0x05401008 + 0x100 * n + 4 * w
  | .SPN_LANE_FEC, a => ∃ n < 4, a = 0x05401010 + 0x100 * n
  | .SPN_LANE_SEC, a => ∃ n < 4, a = 0x05401014 + 0x100 * n
  | .SPN_HQ_BASE, a => ∃ n < 4, a = 0x05401018 + 0x100 * n
  | .SPN_HQ_PTR, a => ∃ n < 4, a = 0x0540101C + 0x100 * n
  | .SPN_STR_CFG, a => ∃ n < 64, a = 0x05402000 + 0x20 * n
  | .SPN_STR_DA, a => ∃ n < 64, ∃ w < 2, a = 0x05402008 + 0x20 * n + 4 * w
  | .SPN_STR_STAT, a => ∃ n < 64, a = 0x05402010 + 0x20 * n
  | .PCIE_STAT, a => a = 0x05410000
  | .PCIE_CFG, a => a = 0x05410004
  | .PCIE_CNT, a => a = 0x05410008
  | .PCIE_PEND, a => ∃ w < 2, a = 0x05410010 + 4 * w
  | .SVC_STAT, a => a = 0x05420000
  | .SVC_DBG, a => a = 0x05420004
  | .SVC_DFU_NEXT, a => a = 0x05420008
  | .SVC_CHAL, a => ∃ w < 2, a = 0x05420010 + 4 * w
  | .VIT_STAT, a => a = 0x05300000
  | .VIT_KCMD, a => a = 0x05300004
  | .VIT_KSTAT, a => a = 0x05300008
  | .VIT_KSRC, a => a = 0x0530000C
  | .VIT_KATTR, a => a = 0x05300010
  | .VIT_AU_CMD, a => ∃ q < 128, a = perRequester q + 0x05300020
  | .VIT_AU_STAT, a => ∃ q < 128, a = perRequester q + 0x05300024
  | .VIT_AU_BUF, a => ∃ q < 128, a = perRequester q + 0x05300028
  | .VIT_AU_FV, a => ∃ q < 128, ∃ w < 2, a = perRequester q + 0x05300030 + 4 * w
  | .VIT_SLOT, a => ∃ n < 256, a = 0x05301000 + 0x4 * n
  | .VIT_BIND0, a => ∃ n < 1024, a = 0x05302000 + 0x10 * n
  | .VIT_BIND1, a => ∃ n < 1024, a = 0x05302004 + 0x10 * n
  | .VIT_BIND2, a => ∃ n < 1024, a = 0x05302008 + 0x10 * n
  | .VAULT_STAT, a => a = 0x05601000
  | .VAULT_TAMPER_CFG, a => a = 0x05601004
  | .VAULT_MRAM, a => a = 0x05601008
  | .VAULT_MC_CMD, a => a = 0x0560100C
  | .VAULT_MC_ARG, a => ∃ w < 2, a = 0x05601010 + 4 * w
  | .VAULT_TLOG_CFG, a => a = 0x05601018
  | .VAULT_TLOG_APP, a => ∃ w < 2, a = 0x05601020 + 4 * w
  | .VAULT_MC, a => ∃ n < 64, ∃ w < 2, a = 0x05601100 + 0x8 * n + 4 * w
  | .VAULT_FV, a => ∃ n < 1024, ∃ w < 2, a = 0x05603000 + 0x8 * n + 4 * w
  | .VAULT_TLOG, a => ∃ n < 4096, ∃ w < 8, a = 0x05681000 + 0x20 * n + 4 * w
  | .UPD_CTRL, a => a = 0x05700000
  | .UPD_STAT, a => a = 0x05700004
  | .UPD_SRC, a => a = 0x05700008
  | .UPD_CFG, a => a = 0x0570000C
  | .UPD_VER_IMAGO, a => a = 0x05700010
  | .UPD_VER_STAGED, a => a = 0x05700014
  | .UPD_HO_LAT, a => a = 0x05700018
  | .UPD_MAP, a => ∃ n < 8, a = 0x05700020 + 0x4 * n
  | .UPD_FORCED, a => ∃ n < 2, a = 0x05700040 + 0x4 * n
  | .CON_STAT, a => a = 0x05800000
  | .CON_CFG, a => a = 0x05800004
  | .CON_THR, a => a = 0x05800008
  | .CON_AHOR, a => a = 0x0580000C
  | .CON_THETA, a => ∃ w < 2, a = 0x05800010 + 4 * w
  | .CON_DIS, a => a = 0x05800018
  | .CON_DIS_T, a => ∃ w < 2, a = 0x05800020 + 4 * w
  | .CON_CD, a => ∃ n < 8, a = 0x05800040 + 0x4 * n
  | .CON_PEER_CFG, a => ∃ n < 8, a = 0x05800100 + 0x10 * n
  | .CON_PEER_STAT, a => ∃ n < 8, a = 0x05800104 + 0x10 * n
  | .CON_PEER_OFF, a => ∃ n < 8, a = 0x05800108 + 0x10 * n
  | .CON_PEER_CNT, a => ∃ n < 8, a = 0x0580010C + 0x10 * n
  | .CON_PEER_SKIP, a => ∃ n < 8, a = 0x05800180 + 0x4 * n
  | .CHIP_ID, a => a = 0x00000000
  | .CHIP_UID, a => ∃ w < 2, a = 0x00000008 + 4 * w
  | .CHIP_READY, a => a = 0x00000010
  | .CHIP_READY_CHG, a => a = 0x00000014
  | .CHIP_RGN_READY, a => a = 0x00000018
  | .CHIP_NRACC, a => a = 0x0000001C
  | .CHIP_UNMAP, a => a = 0x00000020
  | .OBS_SIGHDR, a => ∃ n < 2, ∃ k < 2048, a = 0x01900000 + 0x20000 * n + 0x40 * k
  | .OBS_SIGFEAT, a => ∃ m < 2, ∃ n < 2048, ∃ k < 12, a = 0x01900004 + 0x20000 * m + 0x40 * n + 0x4 * k
  | .OBS_TRACE, a => ∃ n < 8, ∃ k < 2048, a = 0x01A00000 + 0x2000 * n + 0x4 * k
  | .MSIX, a => (∃ n < 64, ∃ w < 4, a = 0x05418000 + 0x10 * n + 4 * w) ∨ a = 0x05419000 ∨ a = 0x05419004
  | .anyReg, _ => True
  | .mem, _ => False
  | .pending, _ => False
  | .led, _ => False
  | .cur, _ => False
  | .time, _ => False
  | .pwr, _ => False
  | .ports, _ => False
  | .obs, _ => False
  | .links, _ => False
  | .gov, _ => False
  | .store, _ => False
  | .cat, _ => False
  | .gw, _ => False
  | .spine, _ => False
  | .con, _ => False
  | .cores, _ => False
  | .halls, _ => False
  | .img, _ => False
  | .upd, _ => False
  | .vault, _ => False
  | .latches, _ => False
  | .resp, _ => False
  | .out, _ => False

/-- Two states agree on a field of `State`; of registers this says nothing, their words do. -/
def Part.same : Part → State → State → Prop
  | .mem, s, t => t.mem = s.mem
  | .pending, s, t => t.pending = s.pending
  | .led, s, t => t.led = s.led
  | .cur, s, t => t.cur = s.cur
  | .time, s, t => t.time = s.time
  | .pwr, s, t => t.pwr = s.pwr
  | .ports, s, t => t.ports = s.ports
  | .obs, s, t => t.obs = s.obs
  | .links, s, t => t.links = s.links
  | .gov, s, t => t.gov = s.gov
  | .store, s, t => t.store = s.store
  | .cat, s, t => t.cat = s.cat
  | .gw, s, t => t.gw = s.gw
  | .spine, s, t => t.spine = s.spine
  | .con, s, t => t.con = s.con
  | .cores, s, t => t.cores = s.cores
  | .halls, s, t => t.halls = s.halls
  | .img, s, t => t.img = s.img
  | .upd, s, t => t.upd = s.upd
  | .vault, s, t => t.vault = s.vault
  | .latches, s, t => t.latches = s.latches
  | .resp, s, t => t.resp = s.resp
  | .out, s, t => t.out = s.out
  | _, _, _ => True

/-- From `s` to `t` only the parts that `may` names change: every register word that no such part owns reads as before, and
every other field of `State` is the same. -/
structure Only (may : Part → Prop) (s t : State) : Prop where
  words : ∀ a, (∀ p, may p → ¬ p.owns a) → t.word a = s.word a
  parts : ∀ p, ¬ may p → p.same s t

/-- From `s` to `t` only the register words at the listed offsets, and of the other fields of `State` only the listed ones,
change. -/
structure Writes (words : List Nat) (fields : List Part) (s t : State) : Prop where
  words : ∀ a, a ∉ words → t.word a = s.word a
  fields : ∀ p, p ∉ fields → p.same s t

end Sys2Proof.Machine
end

