-- ==== Sys2Proof/Machine/Frames.lean ====
section
/-! DEFINITION. For every command, the parts of the state that it may change: the frame of each command. A part is a field of
`State`, or the words of one register, all its instances together; a field of `State` that holds several pieces counts as one part, so the
list says what stays, and the statements of each family say what becomes of the rest. -/

namespace Sys2Proof.Machine

/-! ## Parts that change together -/

/-- What a guarded access may change whatever it reaches: an engine that traps, the answer, and CHIP.NRACC (R34,
R276). -/
def guardParts : List Part := [.cores, .resp, .ENG_STAT, .ENG_TRAP, .ENG_TVAL, .CHIP_NRACC]

/-- What the raise of a ledger source may change (R343 to R353). -/
def raiseParts : List Part := [.led, .cur, .LEDG_STAT, .LEDG_LOSTCNT, .LEDG_RING_STAT, .LEDG_SRC]

/-- What a store into the halls may change: the bytes, poison and the copies of their lines in the caches (R285 to
R288, R315). -/
def hallParts : List Part := [.mem, .halls, .HALL_ECC]

/-- What moving a slot may change: its descriptor, its pool, its port's request and the gateway copy that it carries
(R163 to R178, R241 to R257). -/
def slotParts : List Part := [.store, .gw, .MOP_POOL_STAT, .MOP_POOL_CNT, .MOP_PORTQ, .MOP_PORTHEAD, .MOP_DESC,
  .GW_BRK, .GW_BRK_LATE, .GW_BRK_T, .GW_BRKW, .GW_RT_BRK, .GW_LEG_Q, .GW_EQ_STAT, .GW_EQ_CNT]

/-- The units of a frame-store pool (R159). -/
def fspParts : List Part := [.MOP_FSP_FREE, .MOP_FSP_LOW]

/-- A port and its driver power governor (R77 to R93). -/
def portParts : List Part := [.ports, .gov, .LP_STATE, .LP_GOV_STAT, .LP_GOV_PEAK]

/-- A bit engine with its error confinement, and the sounding that its state can end (R99, R210 to R228, R143). -/
def busParts : List Part := [.obs, .BT_STAT, .OBS_SND_STAT, .ECF_STAT, .ECF_BO, .ECF_BO_T]

/-- The observation of a port (R128 to R155). -/
def obsParts : List Part := [.ports, .obs, .OBS_STAT, .OBS_ENR_STAT, .OBS_ENR_SUM, .OBS_ENR_SQ, .OBS_ENR_USE,
  .OBS_SND_STAT, .OBS_CEN_STAT, .OBS_CEN_START, .OBS_CEN_UNK, .OBS_CEN_UNK_T, .OBS_CAP_STAT, .OBS_CAP_SEQ,
  .OBS_CEN_RES]

/-- Update control (R452 to R472). -/
def updParts : List Part := [.upd, .UPD_STAT, .UPD_VER_IMAGO, .UPD_VER_STAGED, .UPD_MAP, .UPD_FORCED]

/-- IMG and what an epoch derives (R46 to R64). -/
def imgParts : List Part := [.img, .IMG_STATUS, .IMG_JRNL]

/-- The vault (R443 to R447). -/
def vaultParts : List Part := [.vault, .VAULT_MRAM, .VAULT_MC, .VAULT_FV, .VAULT_TLOG]

/-! ## Commands -/

/-- The parts that a command may change when it goes on (every rule of the command's family that writes state). -/
def mayChange (c : Instr) : List Part :=
  match c with
  | .lowWordRead _ _ _ | .readClear _ _ _ =>
    guardParts ++ raiseParts ++ [.latches, .anyReg, .MOP_ERR, .MOP_ERR_SLOT, .CHIP_UNMAP]
  | .registerWrite _ _ _ _ =>
    guardParts ++ raiseParts ++ hallParts ++ slotParts ++ fspParts ++ portParts ++ busParts ++ updParts ++ imgParts ++
    vaultParts ++ [.time, .pwr, .cat, .spine, .out, .anyReg, .IMG_CHK_LOC, .IMG_CHK_COUNT, .IMG_SUSP, .IMG_XDROP,
    .IMG_TRANS, .IMG_PORT_EPOCH, .LP_CTRL, .LP_WIRE, .LP_FAULT, .LP_MEAS, .BT_CTRL, .BT_TDC, .BT_PLCA, .BT_PLCA_TMR,
    .OBS_STAT, .OBS_ENR_STAT, .OBS_ENR_SUM, .OBS_ENR_SQ, .OBS_ENR_USE, .OBS_CEN_STAT, .OBS_CEN_START, .OBS_CEN_UNK,
    .OBS_CEN_UNK_T, .OBS_CAP_STAT, .OBS_CAP_SEQ, .OBS_CEN_RES, .MOP_ERR, .MOP_ERR_SLOT, .MOP_POOL_CFG1, .MOP_MON_CFG,
    .MOP_MON_NEXT, .CAT_UPD_STAT, .CAT_UPD_IDX, .CAT_USE, .CAT_TBL_CFG0, .CAT_ENTRY, .ECF_CNT, .ECF_MISC, .GW_STAT,
    .GW_RT_CFG, .GW_RT_H, .GW_RT_LEGS, .GW_RT_CNT, .GW_RT_DROP, .GW_LEG_STAT, .GW_TUN_SEQ, .RGN_OPP, .RGN_STAT,
    .CLU_DOORBELL, .CLU_ERR, .CLU_LOCK, .ENG_PC, .HALL_ERR, .HALL_ERR_ADDR, .HALL_HO_STAT, .HALL_RV_STAT,
    .HALL_UE_ADDR, .HALL_CONF, .HALL_OWN, .TIME_STAT, .TIME_INC, .TIME_JREF, .TIME_SEC_LAST, .TIME_SEC_ERR,
    .TIME_NONCE, .TIME_VT, .LEDG_HOLD, .LEDG_ERR, .LEDG_EPEND, .LEDG_RING_HEAD, .LEDG_RING_TAIL, .CUR_STAT,
    .CUR_FIRST, .CUR_FIRST_ADDR, .CUR_FIRST_ACC, .CUR_FIRST_T, .CUR_COIN, .CUR_SEVCNT, .CUR_SAFE_T, .CUR_AFT,
    .PWR_CTRL, .PWR_STAT, .SPN_HQ_PTR, .SPN_STR_STAT, .PCIE_PEND, .SVC_DBG, .VIT_STAT, .VIT_KSTAT, .VIT_AU_STAT,
    .VIT_AU_FV, .VIT_SLOT, .CON_STAT, .CON_PEER_CNT, .CHIP_UNMAP, .MSIX]
  | .dieLinkTransfer _ _ =>
    [.links]
  | .heartbeatLoss _ =>
    raiseParts ++ hallParts ++ slotParts ++ fspParts ++ portParts ++ busParts ++ [.links, .cores, .LP_FAULT,
    .OBS_STAT, .OBS_CAP_STAT, .ECF_MISC, .CUR_STAT]
  | .dieLinkRetrained _ =>
    raiseParts ++ hallParts ++ slotParts ++ fspParts ++ portParts ++ busParts ++ [.time, .links, .cores, .LP_FAULT,
    .OBS_STAT, .OBS_CAP_STAT, .ECF_MISC, .TIME_VT, .CUR_STAT]
  | .functionReady _ =>
    raiseParts ++ hallParts ++ slotParts ++ fspParts ++ portParts ++ busParts ++ vaultParts ++ [.time, .spine, .cores,
    .resp, .LP_FAULT, .OBS_STAT, .OBS_CAP_STAT, .ECF_MISC, .GW_RT_CNT, .GW_RT_DROP, .GW_LEG_STAT, .GW_TUN_SEQ,
    .GW_TUN_CNT, .GW_TUN_DUP, .RGN_STAT, .ENG_STAT, .ENG_TRAP, .ENG_TVAL, .ENG_PC, .HALL_ERR, .HALL_ERR_ADDR,
    .HALL_UE_ADDR, .HALL_CONF, .CUR_STAT, .PWR_RAILS, .WATCH_STAT, .SPN_STR_STAT, .VAULT_STAT, .CON_PEER_CNT,
    .CON_PEER_SKIP, .CHIP_UID, .CHIP_READY, .CHIP_READY_CHG, .CHIP_RGN_READY]
  | .functionNotReady _ =>
    raiseParts ++ hallParts ++ slotParts ++ fspParts ++ portParts ++ busParts ++ [.cores, .LP_FAULT, .OBS_STAT,
    .OBS_CAP_STAT, .ECF_MISC, .RGN_STAT, .ENG_STAT, .ENG_PC, .CUR_STAT, .CHIP_READY, .CHIP_READY_CHG, .CHIP_RGN_READY]
  | .imgCheck _ | .imgStage _ | .imgCommit _ | .imgAbort _ | .imgCmdIgnored _ _ =>
    guardParts ++ imgParts
  | .checkDone =>
    raiseParts ++ [.IMG_STATUS, .IMG_CHK_LOC, .IMG_CHK_COUNT]
  | .stageDone _ =>
    raiseParts ++ imgParts
  | .switchInstant =>
    raiseParts ++ hallParts ++ slotParts ++ fspParts ++ portParts ++ busParts ++ imgParts ++ vaultParts ++ [.cat,
    .spine, .con, .cores, .upd, .resp, .anyReg, .IMG_EPOCH, .IMG_VERSION, .IMG_SUSP, .IMG_XDROP, .IMG_DIGEST,
    .IMG_TRANS, .IMG_PORT_EPOCH, .LP_FAULT, .BT_PLCA, .BT_PLCA_TMR, .OBS_STAT, .OBS_CAP_STAT, .OBS_CAP_SEQ,
    .MOP_POOL_CFG1, .MOP_FSP_BASE, .MOP_FSP_CNT, .MOP_FSP_RSV, .CAT_USE, .CAT_TBL_CFG0, .CAT_ENTRY, .ECF_CNT,
    .ECF_MISC, .GW_STAT, .GW_RT_CFG, .GW_RT_H, .GW_RT_LEGS, .GW_RT_CNT, .GW_RT_DROP, .GW_LEG_STAT, .GW_TUN_SEQ,
    .RGN_OPP, .RGN_STAT, .ENG_STAT, .ENG_TRAP, .ENG_TVAL, .ENG_PC, .HALL_ERR, .HALL_ERR_ADDR, .HALL_HO_STAT,
    .HALL_UE_ADDR, .HALL_CONF, .HALL_OWN, .TIME_INC, .LEDG_RING_HEAD, .LEDG_RING_TAIL, .CUR_STAT, .SPN_STR_STAT,
    .UPD_STAT, .UPD_VER_IMAGO, .UPD_VER_STAGED, .UPD_HO_LAT, .UPD_MAP, .CON_STAT, .CON_DIS, .CON_DIS_T,
    .CON_PEER_STAT, .CON_PEER_CNT, .CHIP_READY, .CHIP_READY_CHG, .CHIP_RGN_READY]
  | .portMove _ =>
    raiseParts ++ hallParts ++ slotParts ++ fspParts ++ portParts ++ busParts ++ imgParts ++ [.cat, .spine, .cores,
    .upd, .anyReg, .IMG_SUSP, .IMG_XDROP, .IMG_TRANS, .IMG_PORT_EPOCH, .LP_FAULT, .BT_PLCA, .BT_PLCA_TMR, .OBS_STAT,
    .OBS_CAP_STAT, .OBS_CAP_SEQ, .MOP_POOL_CFG1, .CAT_USE, .CAT_TBL_CFG0, .CAT_ENTRY, .ECF_CNT, .ECF_MISC, .GW_STAT,
    .GW_RT_CFG, .GW_RT_H, .GW_RT_LEGS, .GW_RT_CNT, .GW_RT_DROP, .GW_LEG_STAT, .GW_TUN_SEQ, .RGN_STAT, .HALL_UE_ADDR,
    .SPN_STR_STAT, .UPD_STAT, .UPD_VER_IMAGO, .UPD_VER_STAGED, .UPD_MAP, .CON_STAT, .CON_PEER_CNT]
  | .portForced _ =>
    raiseParts ++ hallParts ++ slotParts ++ fspParts ++ portParts ++ busParts ++ imgParts ++ [.cat, .spine, .cores,
    .upd, .anyReg, .IMG_SUSP, .IMG_XDROP, .IMG_FORCED, .IMG_TRANS, .IMG_PORT_EPOCH, .LP_FAULT, .BT_PLCA, .BT_PLCA_TMR,
    .OBS_STAT, .OBS_CAP_STAT, .OBS_CAP_SEQ, .MOP_POOL_CFG1, .CAT_USE, .CAT_TBL_CFG0, .CAT_ENTRY, .ECF_CNT, .ECF_MISC,
    .GW_STAT, .GW_RT_CFG, .GW_RT_H, .GW_RT_LEGS, .GW_RT_CNT, .GW_RT_DROP, .GW_LEG_STAT, .GW_TUN_SEQ, .RGN_STAT,
    .HALL_UE_ADDR, .SPN_STR_STAT, .UPD_STAT, .UPD_VER_IMAGO, .UPD_VER_STAGED, .UPD_MAP, .CON_STAT, .CON_PEER_CNT]
  | .imageRestore =>
    raiseParts ++ hallParts ++ slotParts ++ fspParts ++ portParts ++ busParts ++ imgParts ++ vaultParts ++ [.pwr,
    .cat, .spine, .con, .cores, .upd, .resp, .anyReg, .IMG_CHK_LOC, .IMG_CHK_COUNT, .IMG_EPOCH, .IMG_VERSION,
    .IMG_BOOT, .IMG_SUSP, .IMG_XDROP, .IMG_DIGEST, .IMG_TRANS, .IMG_PORT_EPOCH, .LP_FAULT, .BT_PLCA, .BT_PLCA_TMR,
    .OBS_STAT, .OBS_CAP_STAT, .OBS_CAP_SEQ, .MOP_POOL_CFG1, .MOP_FSP_BASE, .MOP_FSP_CNT, .MOP_FSP_RSV, .CAT_USE,
    .CAT_TBL_CFG0, .CAT_ENTRY, .ECF_CNT, .ECF_MISC, .GW_STAT, .GW_RT_CFG, .GW_RT_H, .GW_RT_LEGS, .GW_RT_CNT,
    .GW_RT_DROP, .GW_LEG_STAT, .GW_TUN_SEQ, .RGN_OPP, .RGN_STAT, .ENG_STAT, .ENG_TRAP, .ENG_TVAL, .ENG_PC, .HALL_ERR,
    .HALL_ERR_ADDR, .HALL_HO_STAT, .HALL_UE_ADDR, .HALL_CONF, .HALL_OWN, .TIME_INC, .LEDG_RING_HEAD, .LEDG_RING_TAIL,
    .CUR_STAT, .WATCH_TREST, .SPN_STR_STAT, .CON_STAT, .CON_DIS, .CON_DIS_T, .CON_PEER_STAT, .CON_PEER_CNT,
    .CHIP_READY, .CHIP_READY_CHG, .CHIP_RGN_READY]
  | .shortDetected _ _ _ =>
    raiseParts ++ portParts ++ [.obs, .LP_WIRE, .LP_FAULT, .LP_EMETER, .OBS_CAP_STAT]
  | .faultEventEnd _ _ | .energyCutoff _ =>
    raiseParts ++ hallParts ++ slotParts ++ fspParts ++ portParts ++ busParts ++ [.cores, .LP_FAULT, .LP_EMETER,
    .OBS_STAT, .OBS_CAP_STAT, .ECF_MISC]
  | .faultWaitExpiry _ =>
    raiseParts ++ hallParts ++ slotParts ++ fspParts ++ portParts ++ busParts ++ [.cores, .LP_FAULT, .OBS_STAT,
    .OBS_CAP_STAT, .ECF_MISC]
  | .retrySuccess _ =>
    raiseParts ++ [.LP_STATE]
  | .driverDisable _ _ | .driverEnable _ _ =>
    guardParts ++ raiseParts ++ hallParts ++ slotParts ++ fspParts ++ portParts ++ busParts ++ [.LP_CTRL, .LP_FAULT,
    .OBS_STAT, .OBS_CAP_STAT, .ECF_MISC]
  | .unlatch _ _ =>
    guardParts ++ raiseParts ++ hallParts ++ slotParts ++ fspParts ++ portParts ++ busParts ++ [.LP_FAULT, .OBS_STAT,
    .OBS_CAP_STAT, .ECF_MISC]
  | .portReset _ _ =>
    guardParts ++ raiseParts ++ hallParts ++ slotParts ++ fspParts ++ portParts ++ busParts ++ imgParts ++ [.cat,
    .spine, .upd, .anyReg, .IMG_SUSP, .IMG_XDROP, .IMG_TRANS, .IMG_PORT_EPOCH, .LP_WIRE, .LP_FAULT, .LP_MEAS, .BT_TDC,
    .BT_PLCA, .BT_PLCA_TMR, .OBS_STAT, .OBS_CAP_STAT, .OBS_CAP_SEQ, .MOP_POOL_CFG1, .CAT_USE, .CAT_TBL_CFG0,
    .CAT_ENTRY, .ECF_CNT, .ECF_MISC, .GW_STAT, .GW_RT_CFG, .GW_RT_H, .GW_RT_LEGS, .GW_RT_CNT, .GW_RT_DROP,
    .GW_LEG_STAT, .GW_TUN_SEQ, .RGN_STAT, .HALL_UE_ADDR, .SPN_STR_STAT, .UPD_STAT, .UPD_VER_IMAGO, .UPD_VER_STAGED,
    .UPD_MAP, .CON_STAT, .CON_PEER_CNT]
  | .biasCheck _ _ _ =>
    raiseParts ++ [.ports, .LP_WIRE, .LP_MEAS]
  | .governorSubmit _ =>
    portParts ++ [.LP_DEFER, .LP_GOV_CNT, .MOP_POOL_STAT, .MOP_PORTQ, .MOP_DESC]
  | .governorBucket _ =>
    portParts ++ [.LP_EMETER, .MOP_POOL_STAT, .MOP_PORTQ, .MOP_DESC]
  | .deferralFlag _ =>
    raiseParts ++ [.ports, .LP_DEFER, .LP_GOV_CNT, .GW_LEG_STAT]
  | .wakeDetected _ _ =>
    raiseParts ++ [.ports, .LP_WAKE_STAT]
  | .frameReception _ _ =>
    raiseParts ++ hallParts ++ slotParts ++ fspParts ++ portParts ++ busParts ++ [.time, .cores, .LP_EMETER,
    .BT_RXCNT, .BT_PEXCNT, .OBS_STAT, .OBS_WP_LAST, .OBS_WP_CNT, .OBS_WP_FEAT, .OBS_ENR_STAT, .OBS_ENR_SUM,
    .OBS_ENR_SQ, .OBS_ENR_USE, .OBS_CEN_STAT, .OBS_CEN_UNK, .OBS_CEN_UNK_T, .OBS_CAP_STAT, .OBS_CEN_RES, .MOP_MON_CFG,
    .MOP_MON_NEXT, .MOP_MON_STAT, .CAT_PCNT, .CAT_ENTRY, .ECF_CNT, .ECF_LAST, .ECF_LAST_T, .ECF_ERRCNT, .ECF_MISC,
    .ECF_ETH, .TIME_STAT, .TIME_SEC_LAST, .TIME_SEC_ERR, .TIME_BRX_RT, .TIME_BRX_LT, .TIME_BRX_OFF, .TIME_BRX_STAT]
  | .exceptionEnd _ | .integrationComplete _ | .opmodeApply _ | .quarantineEffect _ =>
    raiseParts ++ hallParts ++ slotParts ++ portParts ++ busParts ++ [.cores]
  | .transmitAttempt _ _ _ _ _ =>
    raiseParts ++ hallParts ++ slotParts ++ fspParts ++ portParts ++ busParts ++ [.cores, .out, .LP_WIRE, .LP_MEAS,
    .LP_EMETER, .BT_TDC, .BT_BCN_STAT, .BT_TXCNT, .BT_PEXCNT, .OBS_CAP_STAT, .ECF_CNT, .ECF_LAST, .ECF_LAST_T,
    .ECF_ERRCNT, .ECF_MISC, .HALL_UE_ADDR]
  | .errorDetected _ _ =>
    raiseParts ++ hallParts ++ slotParts ++ fspParts ++ portParts ++ busParts ++ [.cores, .LP_EMETER, .OBS_CAP_STAT,
    .ECF_CNT, .ECF_LAST, .ECF_LAST_T, .ECF_ERRCNT, .ECF_MISC]
  | .beaconDue _ =>
    raiseParts ++ [.ports, .BT_BCN_STAT]
  | .plcaStatusChange _ _ =>
    raiseParts ++ [.BT_PLCA_STAT]
  | .plcaForeignBeacon _ | .sourceRaise _ _ | .levelAssert _ | .rateIntervalEnd _ =>
    raiseParts
  | .collision _ =>
    raiseParts ++ hallParts ++ slotParts ++ portParts ++ busParts ++ [.cores, .ECF_ETH_COLL]
  | .opmodeWrite _ _ _ =>
    guardParts ++ raiseParts ++ hallParts ++ slotParts ++ portParts ++ [.BT_CTRL, .BT_STAT]
  | .cenStart _ _ _ | .cenStop _ _ | .sndStart _ _ | .sndAbort _ _ | .enrStart _ _ | .enrAbort _ _ | .capStart _ _ |
  .capStop _ _ | .capTrig _ _ =>
    guardParts ++ raiseParts ++ obsParts
  | .obsCmdIgnored _ _ =>
    guardParts ++ [.OBS_STAT]
  | .soundingUnitStart _ =>
    [.led, .cur, .ports, .obs, .anyReg, .OBS_SND_STAT, .OBS_CAP_STAT, .LEDG_STAT, .LEDG_LOSTCNT, .LEDG_RING_STAT]
  | .soundingRecordDiscard _ =>
    [.obs]
  | .soundingAnalysisDone _ _ =>
    raiseParts ++ [.obs, .OBS_SND_STAT, .OBS_SND_REFL, .OBS_TRACE]
  | .soundingTimeout _ =>
    raiseParts ++ [.obs, .OBS_SND_STAT]
  | .censusSlotDecision _ _ =>
    raiseParts ++ [.ports, .obs, .out, .OBS_STAT, .OBS_CEN_STAT, .OBS_CEN_START, .OBS_CEN_END, .OBS_CEN_UNK,
    .OBS_CEN_UNK_T, .OBS_CAP_STAT, .OBS_CEN_RES]
  | .specimenPacket _ _ =>
    raiseParts ++ [.ports, .obs, .spine, .OBS_CAP_STAT, .OBS_CAP_SEQ, .OBS_CAP_CNT, .SPN_STR_STAT]
  | .descriptorWrite _ _ _ _ | .abandon _ _ =>
    guardParts ++ raiseParts ++ [.MOP_ERR, .MOP_ERR_SLOT, .MOP_POOL_STAT, .MOP_PORTQ, .MOP_DESC]
  | .queue _ _ =>
    guardParts ++ raiseParts ++ hallParts ++ slotParts ++ [.MOP_ERR, .MOP_ERR_SLOT]
  | .cancel _ _ =>
    guardParts ++ raiseParts ++ hallParts ++ slotParts ++ portParts ++ [.MOP_ERR, .MOP_ERR_SLOT]
  | .release _ _ =>
    guardParts ++ raiseParts ++ fspParts ++ [.ports, .store, .MOP_ERR, .MOP_ERR_SLOT, .MOP_POOL_STAT, .MOP_PORTQ,
    .MOP_DESC]
  | .doorbellIgnored _ _ _ =>
    guardParts ++ raiseParts ++ [.MOP_ERR, .MOP_ERR_SLOT]
  | .portSelect _ =>
    [.MOP_PORTHEAD]
  | .txDeadline _ =>
    raiseParts ++ hallParts ++ slotParts ++ portParts ++ [.cores]
  | .monitorArm _ _ _ _ _ =>
    guardParts ++ raiseParts ++ [.MOP_ERR, .MOP_ERR_SLOT, .MOP_MON_CFG, .MOP_MON_NEXT]
  | .monitorDeadline _ =>
    [.led, .cur, .MOP_MON_CFG, .MOP_MON_NEXT, .MOP_MON_STAT, .LEDG_STAT, .LEDG_LOSTCNT, .LEDG_RING_STAT]
  | .fspRelayout _ =>
    raiseParts ++ hallParts ++ slotParts ++ fspParts ++ [.cores, .MOP_FSP_BASE, .MOP_FSP_CNT, .MOP_FSP_RSV]
  | .catalogueSearch _ _ _ =>
    raiseParts ++ fspParts ++ [.ports, .obs, .store, .BT_STAT]
  | .xlCandidateComplete _ _ =>
    raiseParts ++ fspParts ++ [.ports, .store, .BT_STAT]
  | .insert _ _ =>
    guardParts ++ raiseParts ++ [.cat, .CAT_UPD_STAT, .CAT_UPD_IDX]
  | .delete _ _ | .replace _ _ =>
    guardParts ++ raiseParts ++ [.cat, .CAT_UPD_STAT]
  | .updCmdUnknown _ =>
    guardParts ++ raiseParts ++ [.CAT_UPD_STAT]
  | .catUpdateApply =>
    [.cat, .CAT_UPD_T, .CAT_USE, .CAT_ENTRY]
  | .catUpdateDone =>
    raiseParts ++ [.cat, .CAT_UPD_STAT]
  | .holdoffEnd _ =>
    [.ECF_STAT]
  | .recoveryComplete _ =>
    raiseParts ++ hallParts ++ slotParts ++ portParts ++ busParts ++ [.cores, .ECF_CNT, .ECF_BO_DUR]
  | .recover _ _ =>
    guardParts ++ [.ECF_STAT, .ECF_BO]
  | .quar _ _ =>
    guardParts ++ raiseParts ++ hallParts ++ slotParts ++ portParts ++ busParts
  | .slopeBucket _ =>
    [.ports, .ECF_STAT]
  | .gatewayIngress _ =>
    raiseParts ++ hallParts ++ slotParts ++ fspParts ++ [.ports, .spine, .cores, .GW_RT_CNT, .GW_RT_DROP,
    .GW_LEG_STAT, .GW_TUN_SEQ, .HALL_UE_ADDR, .SPN_STR_STAT, .CON_PEER_CNT]
  | .tunnelAvtpduReceived _ _ _ =>
    raiseParts ++ hallParts ++ slotParts ++ [.spine, .cores, .GW_RT_CNT, .GW_RT_DROP, .GW_LEG_STAT, .GW_TUN_SEQ,
    .GW_TUN_CNT, .GW_TUN_DUP, .SPN_STR_STAT, .CON_PEER_CNT]
  | .releaseInstant _ | .waitingCopySlot _ =>
    raiseParts ++ hallParts ++ slotParts ++ [.spine, .cores, .GW_LEG_STAT, .GW_TUN_SEQ, .SPN_STR_STAT]
  | .waitingCopyExpire _ =>
    [.gw, .GW_EQ_STAT]
  | .breachWindowClose _ =>
    raiseParts ++ [.GW_BRKW, .GW_EQ_STAT, .GW_EQ_CNT]
  | .tunnelWindowTimeout _ =>
    [.gw, .GW_TUN_SEQ]
  | .engineStart _ _ =>
    guardParts ++ [.ENG_PC]
  | .engineHalt _ _ =>
    guardParts ++ raiseParts ++ [.ENG_PC]
  | .engineReset _ _ =>
    guardParts ++ raiseParts ++ [.halls, .CLU_LOCK, .ENG_PC]
  | .engineCmdIgnored _ _ =>
    guardParts
  | .xfScan _ _ _ _ _ _ | .xfCopy _ _ _ _ _ _ | .xfCmacStep _ _ _ _ _ | .xfCmacFin _ _ _ _ _ | .xfPack _ _ _ _ _ |
  .xfUnpack _ _ _ _ _ | .hallAccess _ =>
    guardParts ++ raiseParts ++ hallParts ++ slotParts ++ fspParts ++ portParts ++ busParts ++ updParts ++ imgParts ++
    vaultParts ++ [.time, .pwr, .cat, .spine, .latches, .out, .anyReg, .IMG_CHK_LOC, .IMG_CHK_COUNT, .IMG_SUSP,
    .IMG_XDROP, .IMG_TRANS, .IMG_PORT_EPOCH, .LP_CTRL, .LP_WIRE, .LP_FAULT, .LP_MEAS, .BT_CTRL, .BT_TDC, .BT_PLCA,
    .BT_PLCA_TMR, .OBS_STAT, .OBS_ENR_STAT, .OBS_ENR_SUM, .OBS_ENR_SQ, .OBS_ENR_USE, .OBS_CEN_STAT, .OBS_CEN_START,
    .OBS_CEN_UNK, .OBS_CEN_UNK_T, .OBS_CAP_STAT, .OBS_CAP_SEQ, .OBS_CEN_RES, .MOP_ERR, .MOP_ERR_SLOT, .MOP_POOL_CFG1,
    .MOP_MON_CFG, .MOP_MON_NEXT, .CAT_UPD_STAT, .CAT_UPD_IDX, .CAT_USE, .CAT_TBL_CFG0, .CAT_ENTRY, .ECF_CNT,
    .ECF_MISC, .GW_STAT, .GW_RT_CFG, .GW_RT_H, .GW_RT_LEGS, .GW_RT_CNT, .GW_RT_DROP, .GW_LEG_STAT, .GW_TUN_SEQ,
    .RGN_OPP, .RGN_STAT, .CLU_DOORBELL, .CLU_ERR, .CLU_LOCK, .ENG_PC, .HALL_ERR, .HALL_ERR_ADDR, .HALL_HO_STAT,
    .HALL_RV_STAT, .HALL_UE_ADDR, .HALL_CONF, .HALL_OWN, .TIME_STAT, .TIME_INC, .TIME_JREF, .TIME_SEC_LAST,
    .TIME_SEC_ERR, .TIME_NONCE, .TIME_VT, .LEDG_HOLD, .LEDG_ERR, .LEDG_EPEND, .LEDG_RING_HEAD, .LEDG_RING_TAIL,
    .CUR_STAT, .CUR_FIRST, .CUR_FIRST_ADDR, .CUR_FIRST_ACC, .CUR_FIRST_T, .CUR_COIN, .CUR_SEVCNT, .CUR_SAFE_T,
    .CUR_AFT, .PWR_CTRL, .PWR_STAT, .SPN_HQ_PTR, .SPN_STR_STAT, .PCIE_PEND, .SVC_DBG, .VIT_STAT, .VIT_KSTAT,
    .VIT_AU_STAT, .VIT_AU_FV, .VIT_SLOT, .CON_STAT, .CON_PEER_CNT, .CHIP_UNMAP, .MSIX]
  | .xcclean _ _ | .xcflush _ _ =>
    [.mem, .cores, .halls, .resp, .ENG_STAT, .ENG_TRAP, .ENG_TVAL]
  | .ownershipRequest _ _ _ _ =>
    raiseParts ++ hallParts ++ [.cores, .resp, .RGN_DIRCNT, .ENG_STAT, .ENG_TRAP, .ENG_TVAL, .HALL_UE_ADDR]
  | .timerCompare _ | .mret _ =>
    [.cores, .ENG_STAT, .ENG_TRAP, .ENG_TVAL]
  | .cluDoorbell _ _ _ | .cluDoorack _ _ _ =>
    guardParts ++ [.CLU_DOORBELL]
  | .acq _ _ _ | .tryLock _ _ _ | .rel _ _ _ | .fix _ _ _ | .withdraw _ _ _ =>
    guardParts ++ raiseParts ++ [.CLU_ERR, .CLU_LOCK]
  | .lockCmdIgnored _ _ _ _ | .isramWrite _ _ _ _ =>
    guardParts ++ [.CLU_ERR]
  | .oppTargetWrite _ _ _ =>
    guardParts ++ [.RGN_OPP]
  | .regulatorGood _ =>
    [.cores]
  | .pllLockStable _ =>
    [.cores, .RGN_OPP]
  | .pllLockTimeout _ | .oppChangeDone _ =>
    raiseParts ++ [.cores, .RGN_OPP]
  | .eccWriteback _ =>
    [.halls]
  | .hallHandover _ _ _ _ =>
    guardParts ++ raiseParts ++ [.mem, .halls, .HALL_HO_STAT, .HALL_OWN]
  | .handoverDone =>
    raiseParts ++ hallParts ++ [.cores, .resp, .ENG_STAT, .ENG_TRAP, .ENG_TVAL, .HALL_ERR, .HALL_ERR_ADDR,
    .HALL_HO_STAT, .HALL_UE_ADDR, .HALL_CONF, .HALL_OWN]
  | .hallRevoke _ _ _ =>
    guardParts ++ raiseParts ++ hallParts ++ [.HALL_ERR, .HALL_ERR_ADDR, .HALL_HO_STAT, .HALL_RV_STAT, .HALL_UE_ADDR,
    .HALL_CONF, .HALL_OWN]
  | .revocationDone =>
    raiseParts ++ hallParts ++ [.cores, .resp, .ENG_STAT, .ENG_TRAP, .ENG_TVAL, .HALL_ERR, .HALL_ERR_ADDR,
    .HALL_RV_STAT, .HALL_UE_ADDR, .HALL_CONF, .HALL_OWN]
  | .unitClearDone _ =>
    raiseParts ++ hallParts ++ [.cores, .resp, .ENG_STAT, .ENG_TRAP, .ENG_TVAL, .HALL_ERR, .HALL_ERR_ADDR,
    .HALL_UE_ADDR, .HALL_CONF, .HALL_OWN]
  | .testWord _ _ =>
    raiseParts ++ [.halls, .HALL_TEST_STAT]
  | .incLowWrite _ _ =>
    guardParts ++ [.time]
  | .incHighWrite _ _ =>
    guardParts ++ raiseParts ++ [.time, .TIME_STAT, .TIME_INC]
  | .step _ | .stepForced _ =>
    guardParts ++ raiseParts ++ [.time, .TIME_STAT, .TIME_JREF]
  | .stepApply =>
    raiseParts ++ hallParts ++ slotParts ++ [.time, .ports, .obs, .spine, .cores, .OBS_STAT, .MOP_MON_NEXT,
    .GW_LEG_STAT, .GW_TUN_SEQ, .ENG_TCMP, .TIME_STAT, .SPN_STR_STAT]
  | .lock _ =>
    guardParts ++ raiseParts ++ [.time, .TIME_STAT]
  | .unlock _ =>
    guardParts ++ raiseParts ++ [.TIME_STAT]
  | .nonce _ =>
    guardParts ++ [.time, .vault, .TIME_STAT, .TIME_NONCE]
  | .token _ =>
    guardParts ++ raiseParts ++ [.time, .TIME_STAT, .TIME_SEC_LAST, .TIME_SEC_ERR, .TIME_NONCE]
  | .timeCmdIgnored _ _ =>
    guardParts ++ [.TIME_STAT]
  | .syncTimeout | .trustExpiry =>
    raiseParts ++ [.TIME_STAT]
  | .nonceExpiry =>
    [.time, .TIME_NONCE]
  | .vaultTimeLoad =>
    [.time, .TIME_VT]
  | .localTimeRestore =>
    raiseParts ++ [.time, .CHIP_READY, .CHIP_READY_CHG]
  | .levelDeassert _ =>
    [.LEDG_SRC]
  | .recordDelivery _ =>
    raiseParts ++ hallParts ++ [.cores, .out, .ENG_STAT, .ENG_TRAP, .ENG_TVAL, .LEDG_EPEND, .LEDG_RING_TAIL,
    .PCIE_PEND, .MSIX]
  | .eoi _ _ =>
    guardParts ++ raiseParts ++ [.LEDG_ERR]
  | .headWrite _ _ _ =>
    guardParts ++ [.led, .out, .LEDG_ERR, .LEDG_EPEND, .LEDG_RING_HEAD, .LEDG_RING_STAT, .PCIE_PEND, .MSIX]
  | .moderationExpiry _ | .wfi _ =>
    [.led, .cores, .out, .ENG_STAT, .ENG_TRAP, .ENG_TVAL, .LEDG_EPEND, .LEDG_RING_STAT, .PCIE_PEND, .MSIX]
  | .holdOn _ _ | .holdOff _ _ =>
    guardParts ++ raiseParts ++ hallParts ++ [.out, .LEDG_HOLD, .LEDG_EPEND, .LEDG_RING_TAIL, .PCIE_PEND, .MSIX]
  | .holdExpiry =>
    raiseParts ++ hallParts ++ [.cores, .out, .ENG_STAT, .ENG_TRAP, .ENG_TVAL, .LEDG_HOLD, .LEDG_EPEND,
    .LEDG_RING_TAIL, .PCIE_PEND, .MSIX]
  | .srcEnable _ _ _ =>
    guardParts ++ raiseParts
  | .faultOccurrence | .curatorSelf _ =>
    raiseParts ++ hallParts ++ slotParts ++ fspParts ++ portParts ++ busParts ++ [.time, .cores, .LP_FAULT, .OBS_STAT,
    .OBS_CAP_STAT, .ECF_MISC, .ENG_STAT, .ENG_PC, .TIME_VT, .CUR_STAT, .CUR_FIRST, .CUR_FIRST_ADDR, .CUR_FIRST_ACC,
    .CUR_FIRST_T, .CUR_COIN, .CUR_SEVCNT, .CUR_SAFE_T, .CUR_AFT]
  | .faultConditionEnd =>
    [.cur, .CUR_AFT]
  | .clear _ _ | .clearAll _ | .faultInject _ _ _ =>
    guardParts ++ raiseParts ++ hallParts ++ slotParts ++ fspParts ++ portParts ++ busParts ++ [.time, .LP_FAULT,
    .OBS_STAT, .OBS_CAP_STAT, .ECF_MISC, .ENG_PC, .TIME_VT, .CUR_STAT, .CUR_FIRST, .CUR_FIRST_ADDR, .CUR_FIRST_ACC,
    .CUR_FIRST_T, .CUR_COIN, .CUR_SEVCNT, .CUR_SAFE_T, .CUR_AFT]
  | .enter _ =>
    guardParts ++ [.cur]
  | .reclaim _ _ =>
    guardParts ++ raiseParts ++ hallParts ++ [.ENG_PC, .CUR_STAT]
  | .unlockRlock _ | .curCmdIgnored _ =>
    guardParts ++ [.CUR_STAT]
  | .returnStn _ _ =>
    guardParts ++ [.mem, .store, .halls, .MOP_POOL_STAT, .MOP_PORTQ, .MOP_DESC, .HALL_OWN, .CUR_STAT]
  | .autoClear _ =>
    raiseParts ++ hallParts ++ slotParts ++ fspParts ++ portParts ++ busParts ++ [.time, .cores, .LP_FAULT, .OBS_STAT,
    .OBS_CAP_STAT, .ECF_MISC, .ENG_STAT, .ENG_PC, .TIME_VT, .CUR_STAT, .CUR_RECOV, .CUR_FIRST, .CUR_FIRST_ADDR,
    .CUR_FIRST_ACC, .CUR_FIRST_T, .CUR_COIN, .CUR_SEVCNT, .CUR_SAFE_T, .CUR_AFT]
  | .reclaimComplete =>
    raiseParts ++ hallParts ++ slotParts ++ fspParts ++ portParts ++ [.cores, .resp, .CLU_LOCK, .ENG_STAT, .ENG_TRAP,
    .ENG_TVAL, .ENG_PC, .HALL_ERR, .HALL_ERR_ADDR, .HALL_HO_STAT, .HALL_RV_STAT, .HALL_UE_ADDR, .HALL_CONF, .HALL_OWN,
    .CUR_STAT]
  | .vbatOkRise =>
    [.pwr, .WATCH_STAT, .WATCH_SUPPLY]
  | .vbatOkFall _ =>
    [.mem, .led, .cur, .time, .pwr, .ports, .obs, .links, .gov, .store, .cat, .gw, .spine, .con, .cores, .halls, .img,
    .upd, .vault, .latches, .resp, .out, .anyReg, .TIME_VT, .WATCH_STAT, .WATCH_SUPPLY, .SVC_DBG, .VIT_STAT,
    .VIT_SLOT]
  | .railInWindow _ =>
    [.pwr, .PWR_RAILS]
  | .railFailure _ =>
    raiseParts ++ [.pwr, .PWR_RAILS, .WATCH_SUPPLY]
  | .railRetry | .vbkLowWindowOpen =>
    [.pwr]
  | .crystalStable | .clockLoss _ _ =>
    raiseParts ++ [.pwr, .TIME_VT, .PWR_RAILS, .WATCH_STAT, .CHIP_READY, .CHIP_READY_CHG]
  | .enterA1 =>
    [.pwr, .PWR_STAT, .PWR_CNT]
  | .enterA2 =>
    raiseParts ++ hallParts ++ slotParts ++ fspParts ++ portParts ++ busParts ++ [.pwr, .spine, .cores, .LP_FAULT,
    .OBS_STAT, .OBS_CAP_STAT, .ECF_MISC, .RGN_STAT, .PWR_STAT, .PWR_CNT, .WATCH_SCHED, .SPN_STAT, .SPN_LANE_STAT,
    .SPN_STR_STAT, .CHIP_READY, .CHIP_READY_CHG, .CHIP_RGN_READY]
  | .enterA3 =>
    raiseParts ++ hallParts ++ slotParts ++ fspParts ++ portParts ++ busParts ++ [.pwr, .spine, .cores, .LP_FAULT,
    .OBS_STAT, .OBS_CAP_STAT, .ECF_MISC, .RGN_STAT, .WATCH_CNT, .WATCH_SCHED, .SPN_STAT, .SPN_LANE_STAT,
    .SPN_STR_STAT, .CHIP_READY, .CHIP_READY_CHG, .CHIP_RGN_READY]
  | .wakeFromA1 =>
    [.pwr, .PWR_STAT]
  | .wakeLead _ | .wakeSource _ =>
    raiseParts ++ hallParts ++ slotParts ++ fspParts ++ portParts ++ busParts ++ vaultParts ++ [.time, .pwr, .links,
    .cat, .spine, .con, .cores, .img, .upd, .latches, .resp, .out, .anyReg, .LP_FAULT, .OBS_STAT, .OBS_CAP_STAT,
    .ECF_MISC, .RGN_STAT, .HALL_STAT, .TIME_STAT, .LEDG_WAKE, .PWR_STAT, .PWR_RAILS, .WATCH_STAT, .WATCH_WAKE,
    .WATCH_SCHED, .SVC_DBG, .VIT_STAT, .VIT_SLOT, .VAULT_STAT, .CHIP_UID, .CHIP_READY, .CHIP_READY_CHG,
    .CHIP_RGN_READY]
  | .watchTimerDue _ =>
    raiseParts ++ [.WATCH_TMR]
  | .allowWrite _ _ =>
    guardParts ++ [.pwr, .PWR_CTRL, .PWR_STAT]
  | .hallRefresh _ _ =>
    [.pwr, .halls, .HALL_ECC, .WATCH_CNT]
  | .lapseDecision _ =>
    raiseParts ++ [.pwr, .TIME_STAT, .TIME_SEC_LAST, .TIME_VT, .VAULT_STAT]
  | .thermalOnset _ | .thermalEnd _ =>
    raiseParts ++ [.cores, .RGN_OPP, .PWR_TEMP]
  | .laneLinkUp _ _ _ =>
    raiseParts ++ [.spine, .OBS_CAP_STAT, .SPN_STAT, .SPN_LANE_STAT, .SPN_LANE_FEC, .SPN_STR_STAT]
  | .laneLinkDown _ _ _ _ _ =>
    raiseParts ++ [.ports, .spine, .OBS_CAP_STAT, .SPN_STAT, .SPN_LANE_STAT, .SPN_LANE_FEC, .SPN_STR_STAT]
  | .streamFailback _ =>
    raiseParts ++ [.SPN_STR_STAT]
  | .trainingRetry _ =>
    [.spine, .SPN_LANE_STAT]
  | .keepaliveSend _ =>
    [.spine, .out]
  | .laneFrameSend _ =>
    raiseParts ++ hallParts ++ [.gw, .spine, .cores, .out, .GW_LEG_Q, .GW_LEG_STAT, .GW_TUN_CNT, .GW_EQ_STAT,
    .SPN_HQ_PTR]
  | .laneFrameReceived _ _ =>
    raiseParts ++ hallParts ++ slotParts ++ [.spine, .cores, .GW_RT_CNT, .GW_RT_DROP, .GW_LEG_STAT, .GW_TUN_SEQ,
    .GW_TUN_CNT, .GW_TUN_DUP, .SPN_LANE_FEC, .SPN_LANE_SEC, .SPN_HQ_PTR, .SPN_STR_STAT, .CON_PEER_CNT]
  | .nativeFrameReceived _ _ _ _ =>
    raiseParts ++ hallParts ++ slotParts ++ fspParts ++ [.ports, .spine, .con, .cores, .GW_RT_CNT, .GW_RT_DROP,
    .GW_LEG_STAT, .GW_TUN_SEQ, .HALL_UE_ADDR, .SPN_LANE_FEC, .SPN_STR_STAT, .CON_STAT, .CON_THETA, .CON_DIS,
    .CON_DIS_T, .CON_PEER_STAT, .CON_PEER_OFF, .CON_PEER_CNT, .CON_PEER_SKIP]
  | .txAnWrite _ _ _ =>
    guardParts ++ [.SPN_LANE_CFG]
  | .hqTxTailWrite _ _ _ =>
    guardParts ++ raiseParts ++ hallParts ++ [.SPN_HQ_PTR]
  | .hqRxHeadWrite _ _ _ =>
    guardParts ++ [.SPN_HQ_PTR]
  | .pcieReset _ =>
    raiseParts ++ [.spine, .PCIE_STAT, .PCIE_CNT, .CHIP_READY, .CHIP_READY_CHG, .MSIX]
  | .pcieLinkUp _ _ | .pcieL2Entry =>
    raiseParts ++ [.spine, .PCIE_STAT, .CHIP_READY, .CHIP_READY_CHG]
  | .msixUnmask _ =>
    [.out, .PCIE_STAT, .PCIE_PEND, .MSIX]
  | .usbBusReset _ =>
    raiseParts ++ [.spine, .SVC_STAT, .SVC_DBG]
  | .usbSuspend _ _ =>
    raiseParts ++ [.spine, .SVC_STAT]
  | .svcRead _ =>
    guardParts ++ raiseParts ++ hallParts ++ [.latches, .out, .anyReg, .MOP_ERR, .MOP_ERR_SLOT, .HALL_ERR,
    .HALL_ERR_ADDR, .HALL_UE_ADDR, .HALL_CONF, .SVC_STAT, .CHIP_UNMAP]
  | .svcWrite _ _ =>
    guardParts ++ raiseParts ++ hallParts ++ slotParts ++ fspParts ++ portParts ++ busParts ++ updParts ++ imgParts ++
    vaultParts ++ [.time, .pwr, .cat, .spine, .out, .anyReg, .IMG_CHK_LOC, .IMG_CHK_COUNT, .IMG_SUSP, .IMG_XDROP,
    .IMG_TRANS, .IMG_PORT_EPOCH, .LP_CTRL, .LP_WIRE, .LP_FAULT, .LP_MEAS, .BT_CTRL, .BT_TDC, .BT_PLCA, .BT_PLCA_TMR,
    .OBS_STAT, .OBS_ENR_STAT, .OBS_ENR_SUM, .OBS_ENR_SQ, .OBS_ENR_USE, .OBS_CEN_STAT, .OBS_CEN_START, .OBS_CEN_UNK,
    .OBS_CEN_UNK_T, .OBS_CAP_STAT, .OBS_CAP_SEQ, .OBS_CEN_RES, .MOP_ERR, .MOP_ERR_SLOT, .MOP_POOL_CFG1, .MOP_MON_CFG,
    .MOP_MON_NEXT, .CAT_UPD_STAT, .CAT_UPD_IDX, .CAT_USE, .CAT_TBL_CFG0, .CAT_ENTRY, .ECF_CNT, .ECF_MISC, .GW_STAT,
    .GW_RT_CFG, .GW_RT_H, .GW_RT_LEGS, .GW_RT_CNT, .GW_RT_DROP, .GW_LEG_STAT, .GW_TUN_SEQ, .RGN_OPP, .RGN_STAT,
    .CLU_DOORBELL, .CLU_ERR, .CLU_LOCK, .ENG_PC, .HALL_ERR, .HALL_ERR_ADDR, .HALL_HO_STAT, .HALL_RV_STAT,
    .HALL_UE_ADDR, .HALL_CONF, .HALL_OWN, .TIME_STAT, .TIME_INC, .TIME_JREF, .TIME_SEC_LAST, .TIME_SEC_ERR,
    .TIME_NONCE, .TIME_VT, .LEDG_HOLD, .LEDG_ERR, .LEDG_EPEND, .LEDG_RING_HEAD, .LEDG_RING_TAIL, .CUR_STAT,
    .CUR_FIRST, .CUR_FIRST_ADDR, .CUR_FIRST_ACC, .CUR_FIRST_T, .CUR_COIN, .CUR_SEVCNT, .CUR_SAFE_T, .CUR_AFT,
    .PWR_CTRL, .PWR_STAT, .SPN_HQ_PTR, .SPN_STR_STAT, .PCIE_PEND, .SVC_STAT, .SVC_DBG, .VIT_STAT, .VIT_KSTAT,
    .VIT_AU_STAT, .VIT_AU_FV, .VIT_SLOT, .CON_STAT, .CON_PEER_CNT, .CHIP_UNMAP, .MSIX]
  | .svcChallenge _ =>
    [.vault, .out, .SVC_STAT, .SVC_CHAL]
  | .svcUnlock _ =>
    raiseParts ++ [.vault, .out, .SVC_STAT, .SVC_DBG, .SVC_CHAL, .VAULT_TLOG]
  | .dbgHalt _ =>
    raiseParts ++ [.cores, .out, .ENG_STAT, .ENG_PC, .SVC_STAT]
  | .dbgStep _ =>
    guardParts ++ raiseParts ++ hallParts ++ slotParts ++ fspParts ++ portParts ++ busParts ++ updParts ++ imgParts ++
    vaultParts ++ [.time, .pwr, .cat, .spine, .latches, .out, .anyReg, .IMG_CHK_LOC, .IMG_CHK_COUNT, .IMG_SUSP,
    .IMG_XDROP, .IMG_TRANS, .IMG_PORT_EPOCH, .LP_CTRL, .LP_WIRE, .LP_FAULT, .LP_MEAS, .BT_CTRL, .BT_TDC, .BT_PLCA,
    .BT_PLCA_TMR, .OBS_STAT, .OBS_ENR_STAT, .OBS_ENR_SUM, .OBS_ENR_SQ, .OBS_ENR_USE, .OBS_CEN_STAT, .OBS_CEN_START,
    .OBS_CEN_UNK, .OBS_CEN_UNK_T, .OBS_CAP_STAT, .OBS_CAP_SEQ, .OBS_CEN_RES, .MOP_ERR, .MOP_ERR_SLOT, .MOP_POOL_CFG1,
    .MOP_MON_CFG, .MOP_MON_NEXT, .CAT_UPD_STAT, .CAT_UPD_IDX, .CAT_USE, .CAT_TBL_CFG0, .CAT_ENTRY, .ECF_CNT,
    .ECF_MISC, .GW_STAT, .GW_RT_CFG, .GW_RT_H, .GW_RT_LEGS, .GW_RT_CNT, .GW_RT_DROP, .GW_LEG_STAT, .GW_TUN_SEQ,
    .RGN_OPP, .RGN_STAT, .CLU_DOORBELL, .CLU_ERR, .CLU_LOCK, .ENG_PC, .HALL_ERR, .HALL_ERR_ADDR, .HALL_HO_STAT,
    .HALL_RV_STAT, .HALL_UE_ADDR, .HALL_CONF, .HALL_OWN, .TIME_STAT, .TIME_INC, .TIME_JREF, .TIME_SEC_LAST,
    .TIME_SEC_ERR, .TIME_NONCE, .TIME_VT, .LEDG_HOLD, .LEDG_ERR, .LEDG_EPEND, .LEDG_RING_HEAD, .LEDG_RING_TAIL,
    .CUR_STAT, .CUR_FIRST, .CUR_FIRST_ADDR, .CUR_FIRST_ACC, .CUR_FIRST_T, .CUR_COIN, .CUR_SEVCNT, .CUR_SAFE_T,
    .CUR_AFT, .PWR_CTRL, .PWR_STAT, .SPN_HQ_PTR, .SPN_STR_STAT, .PCIE_PEND, .SVC_STAT, .SVC_DBG, .VIT_STAT,
    .VIT_KSTAT, .VIT_AU_STAT, .VIT_AU_FV, .VIT_SLOT, .CON_STAT, .CON_PEER_CNT, .CHIP_UNMAP, .MSIX]
  | .dbgResume _ =>
    [.cores, .out, .ENG_STAT, .ENG_TRAP, .ENG_TVAL, .SVC_STAT]
  | .dbgReadReg _ _ =>
    [.out, .SVC_STAT]
  | .dbgWriteReg _ _ _ =>
    [.cores, .out, .ENG_STAT, .SVC_STAT]
  | .dfuDetach =>
    raiseParts ++ [.SVC_STAT, .SVC_DFU_NEXT, .UPD_STAT]
  | .relock _ =>
    guardParts ++ raiseParts ++ [.SVC_DBG]
  | .keyWrite _ _ _ | .importKey _ _ | .derive _ _ _ | .erase _ _ =>
    guardParts ++ raiseParts ++ [.vault, .VIT_STAT, .VIT_KSTAT, .VIT_SLOT, .VAULT_TLOG]
  | .lc _ _ | .root _ =>
    guardParts ++ raiseParts ++ [.vault, .VIT_STAT, .VIT_KSTAT, .VAULT_TLOG]
  | .keyCommandDone =>
    raiseParts ++ [.vault, .VIT_KSTAT]
  | .sign _ _ _ _ | .verify _ _ _ _ =>
    guardParts ++ raiseParts ++ hallParts ++ vaultParts ++ [.VIT_AU_STAT, .VIT_AU_FV]
  | .inc _ _ _ | .raise _ _ _ =>
    guardParts ++ raiseParts ++ vaultParts
  | .tlogAppend _ _ =>
    guardParts ++ raiseParts ++ [.vault, .VAULT_TLOG]
  | .tamperEvent _ =>
    raiseParts ++ vaultParts ++ [.VIT_SLOT, .VAULT_STAT]
  | .manifest _ _ | .chunk _ _ _ | .prepare _ _ | .handover _ | .confirm _ _ | .fallback _ _ | .discard _ |
  .updCmdIgnored _ _ _ =>
    guardParts ++ raiseParts ++ hallParts ++ updParts ++ imgParts ++ vaultParts ++ [.ports, .anyReg, .IMG_CHK_LOC,
    .IMG_CHK_COUNT, .BT_PLCA, .BT_PLCA_TMR, .MOP_PORTQ, .GW_STAT, .GW_RT_H, .GW_RT_LEGS, .GW_LEG_Q, .RGN_STAT,
    .CLU_DOORBELL, .CLU_LOCK, .ENG_PC, .CON_STAT]
  | .updCommandDone =>
    raiseParts ++ [.upd, .UPD_STAT]
  | .chrysalisDeadline _ =>
    raiseParts ++ hallParts ++ [.cores, .CLU_LOCK, .ENG_STAT, .ENG_PC, .UPD_FORCED]
  | .handoverCodeLoad =>
    [.cores, .img, .upd, .IMG_STATUS]
  | .trialJournal =>
    [.upd, .UPD_STAT, .UPD_VER_IMAGO, .UPD_VER_STAGED]
  | .trialExpiry _ =>
    raiseParts ++ imgParts ++ [.cores, .halls, .upd, .CLU_LOCK, .ENG_STAT, .ENG_PC, .UPD_STAT, .UPD_VER_IMAGO,
    .UPD_VER_STAGED]
  | .updateBoot _ =>
    raiseParts ++ imgParts ++ [.cores, .halls, .upd, .CLU_LOCK, .ENG_STAT, .ENG_PC, .SVC_STAT, .SVC_DFU_NEXT,
    .UPD_STAT, .UPD_VER_IMAGO, .UPD_VER_STAGED, .UPD_MAP]
  | .dfuDnload _ _ _ =>
    raiseParts ++ [.ports, .upd, .out, .SVC_DFU_NEXT, .UPD_STAT, .UPD_VER_IMAGO, .UPD_VER_STAGED, .UPD_MAP]
  | .dfuDnloadEnd _ _ =>
    raiseParts ++ imgParts ++ [.mem, .time, .pwr, .ports, .obs, .links, .gov, .store, .cat, .gw, .spine, .con, .cores,
    .halls, .upd, .vault, .latches, .resp, .out, .anyReg, .SVC_STAT, .SVC_DBG, .SVC_DFU_NEXT, .VIT_STAT, .VIT_SLOT,
    .UPD_STAT, .UPD_VER_IMAGO, .UPD_VER_STAGED]
  | .agreeSend | .peerSilence _ | .thetaStale =>
    raiseParts ++ [.spine, .con, .SPN_STR_STAT, .CON_STAT, .CON_DIS, .CON_DIS_T, .CON_PEER_STAT, .CON_PEER_CNT]
  | .agreeReceive _ _ _ _ _ =>
    raiseParts ++ [.spine, .con, .SPN_STR_STAT, .CON_STAT, .CON_THETA, .CON_DIS, .CON_DIS_T, .CON_PEER_STAT,
    .CON_PEER_OFF, .CON_PEER_CNT]
  | .noticeReceive _ _ _ _ =>
    raiseParts ++ [.con, .CON_DIS, .CON_DIS_T]
  | .frameMessageReceive _ =>
    raiseParts ++ hallParts ++ slotParts ++ fspParts ++ [.ports, .spine, .cores, .GW_RT_CNT, .GW_RT_DROP,
    .GW_LEG_STAT, .GW_TUN_SEQ, .HALL_UE_ADDR, .SPN_STR_STAT, .CON_PEER_CNT, .CON_PEER_SKIP]
  | .powerOnReset _ _ =>
    raiseParts ++ [.mem, .time, .pwr, .ports, .obs, .links, .gov, .store, .cat, .gw, .spine, .con, .cores, .halls,
    .img, .upd, .vault, .latches, .resp, .out, .anyReg, .TIME_VT, .WATCH_WAKE, .WATCH_SUPPLY, .SVC_STAT, .SVC_DBG,
    .SVC_DFU_NEXT, .VIT_STAT, .VIT_SLOT, .VAULT_TLOG, .UPD_STAT]
  | .packageReset _ =>
    raiseParts ++ [.mem, .time, .pwr, .ports, .obs, .links, .gov, .store, .cat, .gw, .spine, .con, .cores, .halls,
    .img, .upd, .vault, .latches, .resp, .out, .anyReg, .SVC_DBG, .VIT_STAT, .VIT_SLOT]
  | .resetRelease _ =>
    raiseParts ++ [.pwr, .SVC_STAT, .SVC_DFU_NEXT, .UPD_STAT]
  | .vbatLowChange _ =>
    raiseParts ++ [.PWR_RAILS]
  | .vbkLowChange _ =>
    raiseParts ++ [.WATCH_STAT, .WATCH_SUPPLY]
  | .railWindowLoss _ _ =>
    raiseParts ++ [.pwr, .out, .PWR_RAILS]
  | .usbVbusChange _ =>
    [.spine, .SVC_STAT]
  | .tamperRearm =>
    [.vault, .VAULT_STAT]

end Sys2Proof.Machine
end

