-- ==== Sys2Proof/Safety.lean ====
section
/-! DEFINITION. What the statements say of states and steps: canonical tables, what every command keeps, and the form
"a command goes on, and then so-and-so holds". -/

namespace Sys2Proof.Machine

/-- The register table and the hall bytes have their canonical form, so equal contents are equal data. -/
def State.Canonical (s : State) : Prop := smapWf resetWord s.regs = true ∧ Memory.wf s.mem = true

/-- What every command keeps, from a state `s` to a state `t`: the canonical form, the queue of waiting commands, the values
of the monotonic counters, which only rise (R443), and the SEQ of the tamper log, which never falls (R445). -/
structure Keeps (s t : State) : Prop where
  regs : smapWf resetWord s.regs = true → smapWf resetWord t.regs = true
  mem : Memory.wf s.mem = true → Memory.wf t.mem = true
  pending : t.pending = s.pending
  counters : ∀ k, (s.counter k).value ≤ (t.counter k).value
  tlog : s.vault.tlogSeq ≤ t.vault.tlogSeq

/-- The package is not in END, and the function of CHIP.READY bit `b` is usable: accesses to it are served (R12, R34). -/
def State.serves (s : State) (b : Nat) : Prop := s.ended = false ∧ s.ready b = true

/-- The PMP of a requesting engine lets it reach the register at `off`; nothing stands in the host's way (R274, check 3). -/
def State.passes (s : State) (q : Requester) (off : Nat) (write : Bool) : Prop := ∀ e, q = .engine e → s.regPmp e off write = true

/-- The host's access of an aligned word reaches register word `r` of a usable block at offset `off`: no alias window and no
instruction SRAM lies there, and the package is not in END (R12, R34, R491, R492). -/
structure State.Reaches (s : State) (off : Nat) (r : RegRow) : Prop where
  aligned : off % 4 = 0
  register : isramAt off = none ∧ canonical off = off ∧ rowAt off = some r
  usable : s.blkReady r.blk off = true ∧ s.ended = false

/-- What requester `q` has in its holding latch (R6). -/
def State.latch (s : State) (q : Requester) : Option (Nat × Word) := smapFind (fun _ => none) s.latches (latchOf q)

/-- A command goes on from a state, and the next state has a property. -/
def Answers (c : Instr) (s : State) (P : State → Prop) : Prop := ∃ t, exec c s = .next t ∧ P t

end Sys2Proof.Machine
end

