-- ==== Sys2Proof/Certificates/Slice0/Obligations.lean ====
section
/-! DEFINITION. The statements about the block: what its step does, what every command keeps, and for every family of commands
what the spec says they do. -/

open Sys2Proof Sys2Proof.Machine

/-- A step takes the command at the front of the queue and runs it with the queue's rest. Where the spec leaves a point open
it follows the model's choices of log entries 1, 109. -/
def Obligations.StepRunsFrontCommand : Prop :=
  ∀ (c : Instr) (cs : List Instr) (s : State), s.pending = c :: cs → step s = exec c { s with pending := cs }

/-- With an empty queue one tick of 2 ns of the 500 MHz timebase passes, and then every engine that was RUNNING runs one
instruction, in ascending order (the model's choice, log entries 2 and 115). The tick itself: the tick count rises by one;
local time stands while the time unit is not usable, and else advances by INC units of 2^-32 ns (R323), modulo the range of
SEC and NS; and nothing changes but the time unit and the vault time. With no engine RUNNING that is all. -/
def Obligations.IdleStepIsOneTick : Prop :=
  ∀ s : State, s.pending = [] → ∃ t, step s = .next (t.each s.running State.runEngine) ∧
    (s.running = [] → step s = .next t) ∧ t.time.ticks = s.time.ticks + 1 ∧
    (s.ready 4 = false → t.time.ns = s.time.ns ∧ t.time.frac = s.time.frac) ∧
    (s.ready 4 = true → ∃ k, t.time.ns * 2 ^ 32 + t.time.frac + k * (2 ^ 48 * 1000000000 * 2 ^ 32)
        = s.time.ns * 2 ^ 32 + s.time.frac + s.get TIME_INC_INC) ∧
    Only (· ∈ [.time, .TIME_VT]) s t

/-- Every command leaves the queue as it stands: commands enter and leave it only through the step (the model's form of a
block that takes its commands one after another). Where the spec leaves a point open it follows the model's choices of log
entry 1. -/
def Obligations.CommandsKeepQueue : Prop :=
  ∀ (c : Instr) (s t : State), exec c s = .next t → t.pending = s.pending

/-- The frame of every command: whatever the state, a command that goes on changes no part of the state outside the list that
`mayChange` gives it; a part is a field of the state, or every word of one register, so every other register word, every hall
byte where the halls are not listed, and every other field stay as they were (each command's own rules say what it writes;
R7, R9, R34). -/
def Obligations.FrameOfEveryCommand : Prop :=
  ∀ (c : Instr) (s t : State), exec c s = .next t → Only (· ∈ mayChange c) s t

/-- Every step from a state whose register table and hall bytes are canonical gives such a state: equal contents stay equal
data. -/
def Obligations.StepKeepsCanonical : Prop :=
  ∀ s t : State, s.Canonical → step s = .next t → t.Canonical

/-- The state after power-on reset is canonical, with no command waiting. -/
def Obligations.ResetIsCanonical : Prop :=
  State.reset.Canonical ∧ State.reset.pending = []

/-- "A counter only increases. It is stored as a ring of four physical words" (R443): whatever the step, no monotonic
counter, general or freshness, has a smaller value after it. SEQ of the tamper log never goes back, whatever the step, every
reset and power loss included (R445). -/
def Obligations.VaultHistoryOnlyGrows : Prop :=
  (∀ (s t : State) (k : Nat), step s = .next t → (s.counter k).value ≤ (t.counter k).value) ∧
  (∀ s t : State, step s = .next t → s.vault.tlogSeq ≤ t.vault.tlogSeq)

/-- Every well-formed command goes on, in every state, except a reception whose frame the port's kind of bus cannot carry:
that one, and no other command, stops with the fault `illFormed`. Where the spec leaves a point open it follows the model's
choices of log entry 7. -/
def Obligations.CommandsGoOn : Prop :=
  (∀ (c : Instr) (s : State), (∀ n r, c ≠ .frameReception n r) → ∃ t, exec c s = .next t) ∧
  (∀ (n : PortNo) (r : Reception) (s : State), s.get (LP_CFG_MODE n) ≠ 0 → rxWellFormed (s.isEth n) r.frame = false →
    exec (.frameReception n r) s = .fault (.illFormed "frame")) ∧
  (∀ (n : PortNo) (r : Reception) (s : State), s.get (LP_CFG_MODE n) = 0 ∨ rxWellFormed (s.isEth n) r.frame = true →
    ∃ t, exec (.frameReception n r) s = .next t)

/-- A read of the low word of a 64-bit register copies the high word into the requester's holding latch, which counts as the
read of the high word's RC fields (R6). The requester's next read of the high word returns the latched value and clears
nothing further (R6); a read without a latched value returns the live word, with WO bits as 0, and returns its RC fields to
their reset values (R7). Where the spec leaves a point open it follows the model's choices of log entries 8, 12. -/
def Obligations.RegisterReads : Prop :=
  (∀ (s : State) (off : RegOff) (r h : RegRow), s.Reaches off r → rowAt (off.val + 4) = some h → h.hi = true →
     (∀ v, s.latch .host ≠ some (off.val, v)) →
     Answers (.lowWordRead .host off 4) s fun t =>
       t.resp = some (.data (s.readValue r (s.copyAt .host r off)).toNat) ∧
       t.latch .host = some (off.val + 4, (s.readClears r (s.copyAt .host r off)).readValue h (s.copyAt .host h (off.val + 4))) ∧
       t.word (s.copyAt .host h (off.val + 4))
         = (s.word (s.copyAt .host h (off.val + 4)) &&& ~~~h.rc) ||| (resetWord (s.copyAt .host h (off.val + 4)) &&& h.rc)) ∧
  ((∀ (s : State) (off : RegOff) (r : RegRow) (v : Word), s.Reaches off r → off.val ≠ TIME_NOW_HI_SEC_HI.addr →
     s.latch .host = some (off.val, v) →
     Answers (.readClear .host off 4) s fun t =>
       t.resp = some (.data v.toNat) ∧ t.latch .host = none ∧ Writes [] [.latches, .resp] s t) ∧
   (∀ (s : State) (off : RegOff) (r : RegRow), s.Reaches off r → off.val ≠ TIME_NOW_HI_SEC_HI.addr →
     (∀ v, s.latch .host ≠ some (off.val, v)) → (∀ h, rowAt (off.val + 4) = some h → h.hi = false) →
     Answers (.readClear .host off 4) s fun t =>
       t.resp = some (.data (s.liveWord (s.copyAt .host r off) &&& ~~~r.wo).toNat) ∧
       t.word (s.copyAt .host r off)
         = (s.word (s.copyAt .host r off) &&& ~~~r.rc) ||| (resetWord (s.copyAt .host r off) &&& r.rc) ∧
       Writes [s.copyAt .host r off] [.resp] s t))

/-- A write of a register word that starts no action follows the access types of the table of R7: RW and WO bits take the
value, each 1 clears a W1C bit and sets a W1S bit, RWL bits take the value only while no image governs (R11), and every other
bit of the word, reserved bits among them (R9), and every other word stay. Where the spec leaves a point open it follows the
model's choices of log entry 11. -/
def Obligations.WriteFollowsAccessTypes : Prop :=
  ∀ (s : State) (off : RegOff) (r : RegRow) (w : Word), s.Reaches off r →
    (∀ u : State, u.action .host off w = none ∧ u.afterWrite off w = u) →
    Answers (.registerWrite .host off 4 w) s fun t => t.resp = some .done ∧
      (∀ i < 32, (t.word (s.copyAt .host r off)).getLsbD i =
        if r.w1s.getLsbD i && w.getLsbD i then true
        else if r.w1c.getLsbD i && w.getLsbD i then false
        else if r.rw.getLsbD i || r.wo.getLsbD i || (r.rwl.getLsbD i && s.img.gov.isEmpty) then w.getLsbD i
        else (s.word (s.copyAt .host r off)).getLsbD i) ∧
      Writes [s.copyAt .host r off] [.resp] s t

/-- "An access of another width or alignment is refused with a completer abort on PCIe and an access fault on an engine. The
target register does not change." (R5): on the host's side nothing at all changes. "An access to the registers of a function
whose readiness bit is 0 changes no state" (R34): a host read answers 0, and CHIP.NRACC records the first such access since
its VALID was last cleared. Where the spec leaves a point open it follows the model's choices of log entries 9, 12, 119. -/
def Obligations.RefusedAccesses : Prop :=
  (∀ (s : State) (off : RegOff) (size : Nat) (w : Word), size ≠ 4 ∨ off.val % 4 ≠ 0 →
     Answers (.registerWrite .host off size w) s (fun t => t.resp = some .abort ∧ Writes [] [.resp] s t) ∧
     Answers (.readClear .host off size) s (fun t => t.resp = some .abort ∧ Writes [] [.resp] s t) ∧
     Answers (.lowWordRead .host off size) s (fun t => t.resp = some .abort ∧ Writes [] [.resp] s t) ∧
     ∀ e : EngNo,
       Answers (.registerWrite (.engine e) off size w) s (fun t => t = s.accessTrap e (0x20000000 + off) true) ∧
       Answers (.readClear (.engine e) off size) s (fun t => t = s.accessTrap e (0x20000000 + off) false)) ∧
  (∀ (s : State) (off : RegOff) (r : RegRow), off.val % 4 = 0 → isramAt off = none → canonical off = off →
     rowAt off = some r → s.blkReady r.blk off = false → s.ended = false →
     Answers (.readClear .host off 4) s (fun t => t.resp = some (.data 0) ∧ Writes [0x1C] [.resp] s t ∧
       t.get CHIP_NRACC_WADDR = (if s.flag CHIP_NRACC_VALID then s.get CHIP_NRACC_WADDR else off / 4) ∧
       (s.flag CHIP_NRACC_VALID = false → t.flag CHIP_NRACC_SRC = false) ∧ t.flag CHIP_NRACC_VALID = true) ∧
     ∀ w : Word, (∀ u : State, u.action .host off w = none) →
       Answers (.registerWrite .host off 4 w) s (fun t => t.resp = some .done ∧ Writes [0x1C] [.resp] s t))

/-- An access to an undecoded offset (R491), after the checks that R492 puts before the decoding. A host read completes with
0 and a host write is discarded; an engine's access that its PMP lets pass raises a load or store access fault; and no state
changes, except that CHIP.UNMAP records the first such access since its VALID was last cleared. -/
def Obligations.UndecodedOffsetIsRecorded : Prop :=
  ∀ (s : State) (off : RegOff) (w : Word), off.val % 4 = 0 → isramAt off = none → rowAt (canonical off) = none →
    s.ended = false →
    let recorded (u : State) (src write : Bool) := Writes [0x20] [] s u ∧ u.flag CHIP_UNMAP_VALID = true ∧
      (s.flag CHIP_UNMAP_VALID = true → u = s) ∧
      (s.flag CHIP_UNMAP_VALID = false → u.get CHIP_UNMAP_WADDR = off / 4 ∧ u.flag CHIP_UNMAP_SRC = src ∧
        u.flag CHIP_UNMAP_WRITE = write)
    Answers (.readClear .host off 4) s (fun t => ∃ u, recorded u false false ∧ t = { u with resp := some (.data 0) }) ∧
    Answers (.registerWrite .host off 4 w) s (fun t => ∃ u, recorded u false true ∧ t = { u with resp := some .done }) ∧
    ∀ e : EngNo,
      (s.regPmp e off false = true → s.engineOpen e off false = true → Answers (.readClear (.engine e) off 4) s fun t =>
        ∃ u, recorded u true false ∧ t = u.accessTrap e (0x20000000 + off) false) ∧
      (s.regPmp e off true = true → s.engineOpen e off true = true → Answers (.registerWrite (.engine e) off 4 w) s fun t =>
        ∃ u, recorded u true true ∧ t = u.accessTrap e (0x20000000 + off) true)

/-- An engine's access fault (R271, R274, R276): the engine goes to its trap vector in M-mode with mepc the pc, mcause 5 for
a load and 7 for a store and mtval the address, its Xfly instruction is suspended (R281), ENG.TRAP and TVAL record the trap,
and no register of any other kind changes. -/
def Obligations.AccessFaultTrapsTheEngine : Prop :=
  ∀ (s : State) (e : EngNo) (a : Nat) (write : Bool),
    let t := s.accessTrap e a write
    ((t.engine e).pc = putBits ((s.engine e).getCsr csrMtvec) 0 2 0 ∧ (t.engine e).user = false) ∧
    ((t.engine e).getCsr csrMepc = (s.engine e).pc ∧ (t.engine e).getCsr csrMcause = (if write then 7 else 5) ∧
      (t.engine e).getCsr csrMtval = BitVec.ofNat 32 a ∧
      (t.engine e).getCsr csrMstatus = trapStatus ((s.engine e).getCsr csrMstatus) (s.engine e).user) ∧
    (∀ r : Nat, (t.engine e).getX r = (s.engine e).getX r) ∧
    (t.get (ENG_TRAP_CAUSE e) = (if write then 7 else 5) ∧ t.flag (ENG_TRAP_INTR e) = false ∧
      t.get (ENG_TVAL_VAL e) = a % 2 ^ 32) ∧ t.resp = some .fault ∧
    (∀ k : Nat, k ≠ e → t.engine k = s.engine k) ∧ Only (· ∈ [.cores, .ENG_TRAP, .ENG_TVAL, .ENG_STAT, .resp]) s t

/-- Die links (R16, R17): a valid transfer is timed and a failed one replayed and counted; 1 µs without a valid transfer
takes the link down, with the local fallback of a Line die and, for the Spine die, nothing but the fault report of the link;
retraining brings the link up and ends the fallback. Readiness (R31 to R33, R37): a function that becomes usable sets its bit
of CHIP.READY, one that stops being usable clears it, and either change sets its bit of CHIP.READY_CHG; a region's bit of
CHIP.RGN_READY and its STAT.POWER follow the region, which becomes usable only with an assigned cluster and at its operating
point (R18, R37). Where the spec leaves a point open it follows the model's choices of log entries 21, 98, 113, 126. -/
def Obligations.DieLinksAndReadiness : Prop :=
  ((∀ (s : State) (d : Fin 3), (s.link d).up = true →
     Answers (.dieLinkTransfer d true) s (fun t => Writes [] [.links] s t ∧
       t.link d = { s.link d with lastTick := s.time.ticks, lastNs := s.time.ns }) ∧
     Answers (.dieLinkTransfer d false) s (fun t => Writes [] [.links] s t ∧
       t.link d = { s.link d with replays := (s.link d).replays + 1 })) ∧
   (∀ (s : State) (d : Fin 3), (s.link d).up = true → (s.link d).lastTick + 500 ≤ s.time.ticks →
     Answers (.heartbeatLoss d) s fun t => (t.link d).up = false ∧ (t.link d).fallback = decide (d.val < 2) ∧
       (d = 2 → (1802, 0x38) ∉ s.cur.live → t.cur.live = s.cur.live ++ [(1802, 0x38)] ∧
         t.cur.inbox = s.cur.inbox ++ [{ src := 1802, kind := 0x38, nso := s.time.ns, tick := s.time.ticks }] ∧
         Writes [] [.links, .cur] s t)) ∧
   (∀ (s : State) (d : Fin 3), Answers (.dieLinkRetrained d) s fun t =>
     t.link d = { s.link d with up := true, fallback := false, lastTick := s.time.ticks, lastNs := s.time.ns,
                                upTick := if (s.link d).up then (s.link d).upTick else s.time.ticks })) ∧
  ((∀ (s : State) (b : Fin 40), s.usable = true → b.val < 23 → s.ready b = false → s.readyWhen b = true →
     Answers (.functionReady b) s fun t => t.ready b = true ∧ t.flag (readyChgLoc b) = true) ∧
   (∀ (s : State) (b : Fin 40), s.usable = true → b.val < 23 → s.ready b = true →
     Answers (.functionNotReady b) s fun t => t.ready b = false ∧ t.flag (readyChgLoc b) = true) ∧
   (∀ (s : State) (b : Fin 40), s.usable = true → 24 ≤ b.val →
     (s.get (RGN_STAT_CLUSTERS (b - 24)) ≠ 0 ∧ s.flag (RGN_OPP_BUSY (b - 24)) = false →
       Answers (.functionReady b) s fun t => t.rgnReady (b - 24) = true ∧ t.flag (RGN_STAT_POWER (b - 24)) = true) ∧
     (s.get (RGN_STAT_CLUSTERS (b - 24)) = 0 ∨ s.flag (RGN_OPP_BUSY (b - 24)) = true →
       exec (.functionReady b) s = .next s) ∧
     Answers (.functionNotReady b) s (fun t => t.rgnReady (b - 24) = false ∧ t.flag (RGN_STAT_POWER (b - 24)) = false)))

/-- A raise of a source that is no level source, awake and with EN 1, by its sense mode and state (R344, R345): EACH queues a
staged record with COUNT 1 and stays IDLE; LATCH, and SENSE 2 or 3 of such a source, queues a record and becomes PENDING,
adds to the COUNT of the undelivered record in PENDING, and in ACTIVE and ACTIVE_PENDING keeps count, detail and time of the
first raise for the re-delivery. A level source follows its condition (R345, R346): at assertion in IDLE its record is queued
and it becomes PENDING, in ACTIVE it becomes ACTIVE_PENDING; at deassertion LIVE clears and nothing else changes, so an
undelivered record is withdrawn at its delivery. Where the spec leaves a point open it follows the model's choices of log
entry 68. -/
def Obligations.RaisesAndLevels : Prop :=
  (∀ (s : State) (src : SrcNo) (detail : Word), namedSource src = true → isLevelSource src = false → s.asleep = false →
     s.flag (LEDG_SRC_EN src) = true →
     let rec1 (staged : Bool) : LedRec := 
       { tick := s.ticks, nso := s.now, ring := s.get (LEDG_SRC_RING src), staged := staged, body := .event src 1 detail.toNat }
     let ring := s.flag (LEDG_RING_CFG_EN (s.get (LEDG_SRC_RING src)))
     (s.get (LEDG_SRC_SENSE src) = 0 → ring = true → s.led.stagedCount < 8192 →
       Answers (.sourceRaise src detail) s fun t => t.led.queue = insertRec (rec1 true) s.led.queue ∧
         t.get (LEDG_SRC_STATE src) = s.get (LEDG_SRC_STATE src)) ∧
     (s.get (LEDG_SRC_SENSE src) ≠ 0 → s.get (LEDG_SRC_STATE src) = 0 → ring = true →
       Answers (.sourceRaise src detail) s fun t => t.led.queue = insertRec (rec1 false) s.led.queue ∧
         t.get (LEDG_SRC_STATE src) = 1) ∧
     (s.get (LEDG_SRC_SENSE src) ≠ 0 → s.get (LEDG_SRC_STATE src) = 1 →
       Answers (.sourceRaise src detail) s fun t => t.led.queue = s.led.queue.map (bumpCount src) ∧
         t.get (LEDG_SRC_STATE src) = 1) ∧
     (s.get (LEDG_SRC_SENSE src) ≠ 0 → s.get (LEDG_SRC_STATE src) = 2 →
       Answers (.sourceRaise src detail) s fun t => t.led.queue = s.led.queue ∧ t.get (LEDG_SRC_STATE src) = 3 ∧
         smapFind (fun _ => (0, 0, 0)) t.led.latched src = (1, detail.toNat, s.now)) ∧
     (s.get (LEDG_SRC_SENSE src) ≠ 0 → s.get (LEDG_SRC_STATE src) = 3 →
       Answers (.sourceRaise src detail) s fun t => t.led.queue = s.led.queue ∧ t.get (LEDG_SRC_STATE src) = 3 ∧
         smapFind (fun _ => (0, 0, 0)) t.led.latched src =
           (let l := smapFind (fun _ => (0, detail.toNat, s.now)) s.led.latched src; (min (l.1 + 1) 255, l.2.1, l.2.2)))) ∧
  ((∀ (s : State) (src : SrcNo), isLevelSource src = true → s.levelCondition src = true → s.flag (LEDG_SRC_LIVE src) = false →
     s.flag (LEDG_SRC_EN src) = true → s.asleep = false →
     (s.get (LEDG_SRC_STATE src) = 0 → s.flag (LEDG_RING_CFG_EN (s.get (LEDG_SRC_RING src))) = true →
       Answers (.levelAssert src) s fun t => t.flag (LEDG_SRC_LIVE src) = true ∧ t.get (LEDG_SRC_STATE src) = 1 ∧
         t.led.queue = insertRec 
           { tick := s.ticks, nso := s.now, ring := s.get (LEDG_SRC_RING src), staged := false, body := .event src 1 0 }
           s.led.queue) ∧
     (s.get (LEDG_SRC_STATE src) = 2 →
       Answers (.levelAssert src) s fun t => t.flag (LEDG_SRC_LIVE src) = true ∧ t.get (LEDG_SRC_STATE src) = 3 ∧
         Writes [(LEDG_SRC_STATE src).addr] [] s t)) ∧
   (∀ (s : State) (src : SrcNo), isLevelSource src = true → s.levelCondition src = false →
     Answers (.levelDeassert src) s fun t => t.flag (LEDG_SRC_LIVE src) = false ∧
       t.get (LEDG_SRC_STATE src) = s.get (LEDG_SRC_STATE src) ∧ Writes [(LEDG_SRC_STATE src).addr] [] s t))

/-- Delivery (R348, R350): with no hold-off, a ring that exists and is not full, and no lost records to report, the oldest
waiting record of ring `k` that is not withdrawn leaves the queue and its four words stand at index TAIL, in hall memory
whatever the caches held, with PHASE the inverse of bit L of TAIL; TAIL counts on modulo 2^(L+1). Hold-off, moderation, rates
and source enables (R344, R354 to R356, R515). Where the spec leaves a point open it follows the model's choices of log entry
68. -/
def Obligations.DeliveryAndSignals : Prop :=
  (∀ (s : State) (k : Fin 64) (r : LedRec) (q : List LedRec), s.flag LEDG_HOLD_ON = false → s.asleep = false →
     s.flag (LEDG_RING_CFG_EN k) = true → s.ringFull k = false → (s.ringHid k).lost = 0 →
     takeRec k s.led.queue = some (r, q) →
     (∀ src c d, r.body = .event src c d → r.staged = false → isLevelSource src = true → s.flag (LEDG_SRC_LIVE src) = true) →
     Answers (.recordDelivery k) s fun t =>
       let i := s.get (LEDG_RING_TAIL_TAIL k)
       let l := s.get (LEDG_RING_CFG_L k)
       let a := s.get (LEDG_RING_BASE_BASE k) * 16 + 16 * (i % 2 ^ l)
       t.led.queue = q ∧ t.get (LEDG_RING_TAIL_TAIL k) = (i + 1) % 2 ^ (l + 1) % 2 ^ 17 ∧
       t.memWord a = BitVec.ofNat 32 ((recWords r).1 + if i.testBit l then 0 else 2 ^ 31) ∧
       t.memWord (a + 4) = BitVec.ofNat 32 (recWords r).2.1 ∧
       t.memWord (a + 8) = BitVec.ofNat 32 (recWords r).2.2.1 ∧
       t.memWord (a + 12) = BitVec.ofNat 32 (recWords r).2.2.2) ∧
  ((∀ (s : State) (mx : Byte), s.serves 3 → s.flag LEDG_HOLD_ON = false →
     Answers (.holdOn .host mx) s fun t => t.flag LEDG_HOLD_ON = true ∧ t.flag LEDG_STAT_HELD = true ∧
       t.get LEDG_HOLD_MAX = mx.toNat ∧ t.led = { s.led with holdSince := some s.ticks } ∧
       Writes [LEDG_HOLD_ON.addr, LEDG_STAT_HELD.addr] [.led, .resp] s t) ∧
   (∀ (s : State) (mx : Byte), s.serves 3 → s.flag LEDG_HOLD_ON = true →
     Answers (.holdOff .host mx) s fun t => t.flag LEDG_HOLD_ON = false ∧ t.flag LEDG_STAT_HELD = false ∧
       t.get LEDG_HOLD_MAX = mx.toNat) ∧
   (∀ (s : State) (b : Nat), s.led.holdSince = some b → s.flag LEDG_HOLD_ON = true →
     b + ticksOfMs (if s.get LEDG_HOLD_MAX = 0 then 10 else s.get LEDG_HOLD_MAX) ≤ s.ticks →
     Answers .holdExpiry s fun t => t.flag LEDG_HOLD_ON = false ∧ t.flag LEDG_STAT_HELD = false ∧
       t.flag LEDG_STAT_HOLD_EXP = true) ∧
   (∀ (s : State) (k : Fin 64), (s.ringHid k).armed = true → s.flag (LEDG_RING_CFG_EN k) = true →
     s.flag (LEDG_RING_CFG_IEN k) = true → s.ringLen k ≠ 0 → s.get (LEDG_RING_CFG_TARGET k) = 1024 →
     s.flag LEDG_HOLD_ON = false → s.asleep = false → s.moderated k = false → s.vectorOpen k = true →
     Answers (.moderationExpiry k) s fun t => t.out = .msix k :: s.out ∧ (t.ringHid k).armed = false ∧
       (t.ringHid k).lastSig = some s.ticks ∧
       t.get (LEDG_RING_STAT_SIGS k) = min (s.get (LEDG_RING_STAT_SIGS k) + 1) 65535 ∧
       Writes [(LEDG_RING_STAT_SIGS k).addr] [.led, .out] s t) ∧
   (∀ (s : State) (key : Fin 4224) (h : RateHid), s.led.rate.lookup key.val = some h → h.start + 500000 ≤ s.ticks →
     Answers (.rateIntervalEnd key) s fun t =>
       let u : State := { s with led := { s.led with rate := s.led.rate.filter (·.1 != key.val) } }
       t = if h.count = 0 then u
         else u.raise h.src (if 4096 ≤ key.val then h.detail + h.count * 65536 else h.count)) ∧
   (∀ (s : State) (src : Fin 2047) (en : Bool), s.serves 3 →
     Answers (.srcEnable .host src en) s fun t => t.flag (LEDG_SRC_EN src) = en ∧
       (en = false ∨ isLevelSource src = false → Writes [(LEDG_SRC_EN src).addr] [.resp] s t) ∧
       (en = true → s.flag (LEDG_SRC_EN src) = false → isLevelSource src = true → s.flag (LEDG_SRC_LIVE src) = true →
         s.get (LEDG_SRC_STATE src) = 0 → s.asleep = false →
         s.flag (LEDG_RING_CFG_EN (s.get (LEDG_SRC_RING src))) = true → t.get (LEDG_SRC_STATE src) = 1)))

/-- EOI (R347, and R345 for what follows). The host can acknowledge every source, an engine only a source whose ring targets
an engine of its own station; any other EOI, and an EOI for a source that is not ACTIVE or ACTIVE_PENDING, changes nothing
and is recorded in LEDG.ERR. An ACTIVE source that is no level source becomes IDLE; one in ACTIVE_PENDING gets the record of
the raises since the last one and becomes PENDING; a level source that is still asserted gets a new record, one that is not
becomes IDLE. A source with EN 0 gets no record (R344). The clauses on level sources rest on log entry 68 and not on R347. -/
def Obligations.EoiAcknowledges : Prop :=
  ∀ (s : State) (q : Requester) (src : SrcNo), s.serves 3 → s.passes q LEDG_EOI_SRC.addr true → src.val ≠ 2047 →
    let target := s.get (LEDG_RING_CFG_TARGET (s.get (LEDG_SRC_RING src)))
    let may := q = .host ∨ ∃ e : EngNo, q = .engine e ∧ target < 1024 ∧ (s.stationOf e).isSome = true ∧
      s.stationOf e = s.stationOf target
    let refused (reason : Nat) := Answers (.eoi q src) s fun t => t.flag LEDG_ERR_VALID = true ∧
      Writes [LEDG_ERR_VALID.addr] [.resp] s t ∧
      (s.flag LEDG_ERR_VALID = true → t.word LEDG_ERR_VALID.addr = s.word LEDG_ERR_VALID.addr) ∧
      (s.flag LEDG_ERR_VALID = false → t.get LEDG_ERR_REASON = reason ∧ t.get LEDG_ERR_NUM = src ∧
        (t.flag LEDG_ERR_REQ = true ↔ q ≠ .host))
    let level := isLevelSource src = true
    (¬may → refused 2) ∧
    (may → s.get (LEDG_SRC_STATE src) < 2 → refused 1) ∧
    (may → ¬level → s.get (LEDG_SRC_STATE src) = 2 →
      Answers (.eoi q src) s fun t => t.get (LEDG_SRC_STATE src) = 0 ∧ Writes [(LEDG_SRC_STATE src).addr] [.resp] s t) ∧
    let on := s.flag (LEDG_SRC_EN src) = true
    (may → ¬on → (level → s.flag (LEDG_SRC_LIVE src) = true) → 2 ≤ s.get (LEDG_SRC_STATE src) →
      Answers (.eoi q src) s fun t => t.get (LEDG_SRC_STATE src) = 0 ∧ t.led.queue = s.led.queue) ∧
    (may → ¬level → on → s.get (LEDG_SRC_STATE src) = 3 → s.flag (LEDG_RING_CFG_EN (s.get (LEDG_SRC_RING src))) = true →
      Answers (.eoi q src) s fun t => t.get (LEDG_SRC_STATE src) = 1 ∧
        t.led.queue = insertRec (let l := smapFind (fun _ => (1, 0, s.now)) s.led.latched src
          { tick := s.ticks, nso := l.2.2, ring := s.get (LEDG_SRC_RING src), staged := false, body := .event src l.1 (l.2.1 % 2 ^ 32) })
          s.led.queue) ∧
    (may → level → 2 ≤ s.get (LEDG_SRC_STATE src) → s.flag (LEDG_SRC_LIVE src) = false →
      Answers (.eoi q src) s fun t => t.get (LEDG_SRC_STATE src) = 0) ∧
    (may → level → on → 2 ≤ s.get (LEDG_SRC_STATE src) → s.flag (LEDG_SRC_LIVE src) = true →
      s.flag (LEDG_RING_CFG_EN (s.get (LEDG_SRC_RING src))) = true →
      Answers (.eoi q src) s fun t => t.get (LEDG_SRC_STATE src) = 1 ∧
        t.led.queue = insertRec
          { tick := s.ticks, nso := s.now, ring := s.get (LEDG_SRC_RING src), staged := false, body := .event src 1 0 }
          s.led.queue)

/-- HEAD (R351). A HEAD value from the current HEAD to TAIL takes effect and frees the records before it; any other value is
ignored and recorded in LEDG.ERR. Only the host and the engines of the target's station write HEAD: another engine's write
leaves it, is recorded and takes an access fault. -/
def Obligations.HeadWriteFreesRecords : Prop :=
  ∀ (s : State) (q : Requester) (k : Fin 64) (v : Fin 131072), s.serves 3 → s.passes q (LEDG_RING_HEAD_HEAD k).addr true →
    let target := s.get (LEDG_RING_CFG_TARGET k)
    let may := q = .host ∨ ∃ e : EngNo, q = .engine e ∧ target < 1024 ∧ (s.stationOf e).isSome = true ∧
      s.stationOf e = s.stationOf target
    let l := s.get (LEDG_RING_CFG_L k)
    let inRange := v.val < 2 ^ (l + 1) ∧ ringDist l (s.get (LEDG_RING_HEAD_HEAD k)) v ≤ s.ringLen k
    let recorded (reason : Nat) (t : State) := t.get (LEDG_RING_HEAD_HEAD k) = s.get (LEDG_RING_HEAD_HEAD k) ∧
      t.led.queue = s.led.queue ∧ t.flag LEDG_ERR_VALID = true ∧
      (s.flag LEDG_ERR_VALID = false → t.get LEDG_ERR_REASON = reason ∧ t.get LEDG_ERR_NUM = k ∧
        (t.flag LEDG_ERR_REQ = true ↔ q ≠ .host))
    (may → inRange → Answers (.headWrite q k v) s fun t => t.get (LEDG_RING_HEAD_HEAD k) = v ∧
      t.ringLen k = ringDist l v (s.get (LEDG_RING_TAIL_TAIL k)) ∧ t.led.queue = s.led.queue ∧ t.resp = some .done) ∧
    (may → ¬inRange → Answers (.headWrite q k v) s fun t => recorded 3 t ∧ Writes [LEDG_ERR_VALID.addr] [.resp] s t) ∧
    (¬may → Answers (.headWrite q k v) s fun t => recorded 4 t ∧ t.resp = some .fault)

/-- IMG commands (table "IMG commands", R46, R50 to R53, R64). CHECK in IDLE, CHECKED or FAILED copies IMG.LEN bytes from
hall offset IMG.SRC into the shadow and starts the check; STAGE in CHECKED begins to write the shadow into the area that does
not govern, with the journal in WRITING; COMMIT in STAGED begins to write the SWITCHING copy and leaves the journal as it is;
ABORT discards the shadow and a staged area and returns to IDLE. A command that the phase does not permit, a code that is no
command, and every command while a firmware update is prepared (R462) sets CMDERR and changes nothing else. Where the spec
leaves a point open it follows the model's choices of log entry 32. -/
def Obligations.ImageCommands : Prop :=
  ∀ s : State, s.serves 12 →
    (s.flag UPD_STAT_PREP = false →
      (s.inPhase [0, 2, 6] = true → Answers (.imgCheck .host) s fun t => t.get IMG_STATUS_PHASE = 1 ∧
        t.img = { s.img with shadow := s.bytes (s.get IMG_SRC_OFFSET * 8) (min (s.get IMG_LEN_LEN) 0x400000) } ∧
        Only (· ∈ [.img, .IMG_STATUS, .resp]) s t) ∧
      (s.inPhase [2] = true → Answers (.imgStage .host) s fun t => t.get IMG_STATUS_PHASE = 3 ∧
        t.journal = { s.journal with
          seq := t.journal.seq, crc := t.journal.crc, state := 1, newDigest := imageDigest s.img.shadow, newVersion := imgVersion s.img.shadow } ∧
        t.img.area s.journal.other = s.img.shadow ∧ t.img.area (!s.journal.other) = s.img.area (!s.journal.other) ∧
        t.get IMG_JRNL_STATE = 1 ∧ Only (· ∈ [.img, .IMG_JRNL, .IMG_STATUS, .resp]) s t) ∧
      (s.inPhase [4] = true → Answers (.imgCommit .host) s fun t => t.get IMG_STATUS_PHASE = 5 ∧
        t.img = { s.img with writing := some (s.img.numbered { s.journal with state := 3, switchTime := switchWord s.now }) } ∧
        Only (· ∈ [.img, .IMG_STATUS, .resp]) s t) ∧
      (s.inPhase [2, 3, 4, 6] = true → Answers (.imgAbort .host) s fun t => t.get IMG_STATUS_PHASE = 0 ∧
        t.img.shadow = [] ∧ (s.journal.state = 1 ∨ s.journal.state = 2 → t.journal.state = 0 ∧ t.img.area s.journal.other = []) ∧
        (s.journal.state = 0 ∨ s.journal.state = 3 → t.journal = s.journal) ∧
        t.img.area (!s.journal.other) = s.img.area (!s.journal.other) ∧
        Only (· ∈ [.img, .IMG_JRNL, .IMG_STATUS, .resp]) s t)) ∧
    ∀ code : Fin 16, s.flag UPD_STAT_PREP = true ∨ (code.val = 1 ∧ s.inPhase [0, 2, 6] = false) ∨
        (code.val = 2 ∧ s.inPhase [2] = false) ∨ (code.val = 3 ∧ s.inPhase [4] = false) ∨
        (code.val = 4 ∧ s.inPhase [2, 3, 4, 6] = false) ∨ code.val = 0 ∨ 5 ≤ code.val →
      Answers (.imgCmdIgnored .host code) s fun t => t.flag IMG_STATUS_CMDERR = true ∧
        t.get IMG_STATUS_PHASE = s.get IMG_STATUS_PHASE ∧ t.get IMG_STATUS_REASON = s.get IMG_STATUS_REASON ∧
        Writes [IMG_STATUS_CMDERR.addr] [.resp] s t

/-- The end of the check and of the staging. The check reports 0 and CHECKED when no rule fails, else the code of the first
failure in ascending order of reason code, its place and the number of failures, saturating, and FAILED (R46, R47); with
failures of the format no other class is evaluated (R48). Staging ends in STAGED, or, when the area's digest is not that of
the shadow, in FAILED with the journal back in IDLE (R50, R52). The switch instant (R53, R57): when the SWITCHING copy is
complete, the image in the area that did not govern governs from then on as the next epoch, which IMG.EPOCH and IMG.VERSION
show, and every port is at the new epoch or in transition. Where the spec leaves a point open it follows the model's choices
of log entries 24, 32, 102. -/
def Obligations.ImageWorkAndSwitch : Prop :=
  (∀ s : State,
     (s.inPhase [1] = true → Answers .checkDone s fun t =>
       let fs := s.allFails s.img.shadow (s.get IMG_LEN_LEN)
       (fs = [] → t.get IMG_STATUS_PHASE = 2 ∧ t.get IMG_STATUS_REASON = 0 ∧ t.get IMG_CHK_COUNT_COUNT = 0) ∧
       (fs ≠ [] → ∃ code sect i, (code, sect, i) ∈ fs ∧ (∀ f ∈ fs, code ≤ f.1) ∧ t.get IMG_STATUS_PHASE = 6 ∧
         t.get IMG_STATUS_REASON = code % 2 ^ 16 ∧ t.get IMG_CHK_LOC_SECT = sect % 2 ^ 16 ∧
         t.get IMG_CHK_LOC_ENTRY = i % 2 ^ 16 ∧ t.get IMG_CHK_COUNT_COUNT = min 0xFFFF fs.length) ∧
       (s.formatFails s.img.shadow (s.get IMG_LEN_LEN) ≠ [] → fs = s.formatFails s.img.shadow (s.get IMG_LEN_LEN)) ∧
       t.img = s.img) ∧
     (s.inPhase [3] = true →
       Answers (.stageDone true) s (fun t => t.get IMG_STATUS_PHASE = 4 ∧ t.journal.state = 2 ∧
         t.journal.newDigest = s.journal.newDigest ∧ t.img.shadow = s.img.shadow ∧ t.img.areaA = s.img.areaA ∧
         t.img.areaB = s.img.areaB) ∧
       Answers (.stageDone false) s (fun t => t.get IMG_STATUS_PHASE = 6 ∧ t.journal.state = 0 ∧
         t.img.area s.journal.other = []))) ∧
  (∀ s : State, s.Canonical → s.get IMG_STATUS_PHASE = 5 → s.img.writing.isSome = true → s.ready 2 = true →
     s.asleep = false → Answers .switchInstant s fun t =>
       let j := (s.img.endWrite false).journal.getD {}
       t.img.gov = s.img.area j.other ∧ t.img.switchTick = s.ticks ∧
       t.get IMG_EPOCH_EPOCH = (j.epoch + 1) % 2 ^ 32 ∧ t.get IMG_VERSION_VERSION = imgVersion (s.img.area j.other) % 2 ^ 32 ∧
       ∀ n : PortNo, t.inTransit n = true ∨ t.get (IMG_PORT_EPOCH_EPOCH n) = t.get IMG_EPOCH_EPOCH)

/-- A port in transition moves at its quiet point (R58), or is forced after IMG.TRANS_LIMIT milliseconds, 0 acting as 1
(R59), or moves with a reset of the port (R64): its IMG.TRANS bit clears and IMG.PORT_EPOCH takes the new epoch (R60), while
the other ports' bits and epochs stay; a forced port is counted in IMG.FORCED. Restore after a reset (table "Outcome after
reset", R54 to R56): from SWITCHING the image in the other area is read, its digest and its enable check verified, and it
governs as EPOCH + 1 (in END nothing is restored, R12); from the other states the governing image, if there is one, as EPOCH;
an image whose digest or check fails, or a journal without a valid copy, leaves OUTCOME 3 and no new image; and IMG is then
usable, whatever the outcome. Where the spec leaves a point open it follows the model's choices of log entries 31, 32. -/
def Obligations.EpochMovesAndRestore : Prop :=
  (∀ (s : State) (n : PortNo), s.Canonical → s.inTransit n = true → s.asleep = false →
     let moved (t : State) := t.inTransit n = false ∧ t.get (IMG_PORT_EPOCH_EPOCH n) = s.get IMG_EPOCH_EPOCH ∧
       t.get IMG_EPOCH_EPOCH = s.get IMG_EPOCH_EPOCH ∧ t.img.gov = s.img.gov ∧
       ∀ m : PortNo, m ≠ n → t.inTransit m = s.inTransit m ∧ t.get (IMG_PORT_EPOCH_EPOCH m) = s.get (IMG_PORT_EPOCH_EPOCH m)
     ((s.port n).attempt = none → Answers (.portMove n) s moved) ∧
     (s.img.switchTick + ticksOfMs (max 1 (s.get IMG_TRANS_LIMIT_MS)) ≤ s.ticks →
       Answers (.portForced n) s fun t => moved t ∧ t.get IMG_FORCED_COUNT = min (s.get IMG_FORCED_COUNT + 1) 255) ∧
     (s.serves (lineBit n) → Answers (.portReset .host n) s moved)) ∧
  (∀ s : State, s.Canonical → s.usable = true → s.ready 2 = true → s.img.restored = false → s.ended = false →
     Answers .imageRestore s fun t => t.img.restored = true ∧ t.ready 12 = true ∧
       (s.img.journal = none → t.get IMG_BOOT_OUTCOME = 3 ∧ t.img.gov = s.img.gov) ∧
       ∀ j, s.img.journal = some j →
         let v := (s.put IMG_JRNL_TORN (s.img.valid0.isNone || s.img.valid1.isNone)).showJournal
         let u := if j.state = 0 ∨ j.state = 3 then v else v.journalIdle
         let ok (b d : List Byte) : Prop := (u.runCheck b (imgLength b)).1 = true ∧ imageDigest b = d
         let governs (b : List Byte) (epoch outcome : Nat) := t.get IMG_BOOT_OUTCOME = outcome ∧ t.img.gov = b ∧
           t.get IMG_EPOCH_EPOCH = epoch % 2 ^ 32
         let fails := t.get IMG_BOOT_OUTCOME = 3 ∧ t.img.gov = s.img.gov
         if j.state = 3 then
           (ok (s.img.area j.other) j.newDigest → governs (s.img.area j.other) (j.epoch + 1) 2) ∧
           (¬ ok (s.img.area j.other) j.newDigest → fails)
         else if j.govValid then
           (ok (s.img.area j.gov) j.govDigest → governs (s.img.area j.gov) j.epoch 1) ∧
           (¬ ok (s.img.area j.gov) j.govDigest → fails)
         else t.get IMG_BOOT_OUTCOME = 0 ∧ t.img.gov = s.img.gov)

/-- Fault events and retries (R81 to R85). A short detected while the driver is on starts a fault event: the current limit
folds back, the event is counted, and a pending retry fails. When the bit ends, or the meter reaches 1.4 mJ, the driver turns
off, LAST_E records the energy, and the port waits in FAULT_WAIT, or is latched by the fifth failed retry; 10 ms later the
port is ACTIVE with a retry pending; a complete dominant bit without a detection ends the retries. Where the spec leaves a
point open it follows the model's choices of log entries 36, 101, 104. -/
def Obligations.FaultEventsAndRetries : Prop :=
  ∀ (s : State) (n : PortNo),
    (∀ within pj, s.flag (LP_STATE_DRV n) = true → (s.port n).event = none →
      Answers (.shortDetected n within pj) s fun t => (t.port n).event = some (pj * 16) ∧ t.flag (LP_STATE_FOLDED n) = true ∧
        t.get (LP_FAULT_EVENTS n) = min (s.get (LP_FAULT_EVENTS n) + 1) (2 ^ 16 - 1) ∧ t.flag (LP_STATE_PENDING n) = false ∧
        t.get (LP_STATE_RETRY n) =
          if s.flag (LP_STATE_PENDING n) then min 5 (s.get (LP_STATE_RETRY n) + 1) else s.get (LP_STATE_RETRY n)) ∧
    (let ends (e : Nat) (t : State) := (t.port n).event = none ∧ t.get (LP_FAULT_LAST_E n) = min (e / 1600000) 65535 ∧
        t.flag (LP_STATE_DRV n) = false ∧ t.get (LP_STATE_RETRY n) = s.get (LP_STATE_RETRY n) ∧
        (s.get (LP_STATE_RETRY n) = 5 → t.get (LP_STATE_PSTATE n) = 3 ∧ (t.port n).latched = true ∧
          t.flag (LP_STATE_PENDING n) = false) ∧
        (s.get (LP_STATE_RETRY n) ≠ 5 → t.get (LP_STATE_PSTATE n) = 2 ∧ (t.port n).faultOff = some s.ticks)
      ∀ e, (s.port n).event = some e → s.get (LP_STATE_PSTATE n) = 1 → s.pstateNow n = 1 →
        (∀ pj, Answers (.faultEventEnd n pj) s (ends (max e (pj * 16)))) ∧
        Answers (.energyCutoff n) s (ends (max e (1400000000 * 16)))) ∧
    (∀ t0, (s.port n).faultOff = some t0 → t0 + ticksOfMs 10 ≤ s.ticks → s.get (LP_STATE_PSTATE n) = 2 →
      s.pstateNow n = 2 → Answers (.faultWaitExpiry n) s fun t => t.get (LP_STATE_PSTATE n) = 1 ∧
        t.flag (LP_STATE_PENDING n) = true ∧ t.flag (LP_STATE_DRV n) = s.ready 2 ∧ (t.port n).faultOff = none ∧
        t.get (LP_STATE_RETRY n) = s.get (LP_STATE_RETRY n)) ∧
    (s.flag (LP_STATE_PENDING n) = true → s.flag (LP_STATE_DRV n) = true → (s.port n).event = none →
      Answers (.retrySuccess n) s fun t => t.flag (LP_STATE_PENDING n) = false ∧ t.get (LP_STATE_RETRY n) = 0)

/-- LP[n].CTRL (R80, R84, R85). DRV_DIS 1 takes an ACTIVE port to DISABLED with its driver off; DRV_DIS 0 brings it back;
UNLATCH ends LATCHED with RETRY 0 and no retry pending; a port reset ends latch, retries, wait and fault event and returns
MEAS, the live wire bits and TDCV to their reset values. Bias checks and wakes (R86, R94, R95). In a state whose engine runs,
outside a record of a sounding, the pin voltages are shown in 250 mV steps, and each of the conditions H_GND, H_BAT, L_GND
and L_BAT is confirmed by its third failing check in a row and cleared by its third passing one. A SLEEP_WATCH port that sees
the wake that KIND selects sets WOKE; for KIND 1 the 32nd erroneous frame is one. Where the spec leaves a point open it
follows the model's choices of log entries 34, 36, 101, 111, 124. -/
def Obligations.PortControlAndWireChecks : Prop :=
  (∀ (s : State) (n : PortNo), s.serves (lineBit n) →
     (s.get (LP_STATE_PSTATE n) = 1 → s.pstateNow n = 1 → Answers (.driverDisable .host n) s fun t =>
       t.flag (LP_CTRL_DRV_DIS n) = true ∧ t.flag (LP_STATE_DRV n) = false ∧
       ((s.port n).event = none → t.get (LP_STATE_PSTATE n) = 4)) ∧
     (s.get (LP_STATE_PSTATE n) = 4 → s.pstateNow n = 4 → (s.port n).faultOff = none →
       Answers (.driverEnable .host n) s fun t => t.flag (LP_CTRL_DRV_DIS n) = false ∧ t.get (LP_STATE_PSTATE n) = 1 ∧
         t.flag (LP_STATE_DRV n) = s.ready 2) ∧
     (s.get (LP_STATE_PSTATE n) = 3 → s.pstateNow n = 3 → s.flag (LP_CTRL_DRV_DIS n) = false →
       Answers (.unlatch .host n) s fun t => t.get (LP_STATE_PSTATE n) = 1 ∧ (t.port n).latched = false ∧
         t.get (LP_STATE_RETRY n) = 0 ∧ t.flag (LP_STATE_PENDING n) = false) ∧
     (s.inTransit n = false → Answers (.portReset .host n) s fun t => (t.port n).latched = false ∧ (t.port n).faultOff = none ∧
       (t.port n).event = none ∧ t.get (LP_STATE_RETRY n) = 0 ∧ t.flag (LP_STATE_PENDING n) = false ∧
       t.flag (LP_STATE_FOLDED n) = false ∧ t.word (LP_MEAS_LOAD n).addr = 0 ∧ t.get (LP_WIRE_LIVE n) = 0 ∧
       t.get (BT_TDC_TDCV n) = 0)) ∧
  (∀ (s : State) (n : PortNo),
     (∀ vh vl : Int, stopsEngine (s.get (LP_STATE_PSTATE n)) = false → s.recording n = false → Answers (.biasCheck n vh vl) s fun t =>
       t.get (LP_MEAS_VH n) = voltCode vh ∧ t.get (LP_MEAS_VL n) = voltCode vl ∧
       ∀ b < 4,
         let fail := [decide (vh < 500), decide (6000 < vh), decide (vl < 500), decide (6000 < vl)].getD b false
         let run := smapFind (fun _ => (0, 0)) (s.port n).streak b
         smapFind (fun _ => (0, 0)) (t.port n).streak b = (if fail then (min (run.1 + 1) 3, 0) else (0, min (run.2 + 1) 3)) ∧
         t.flag (wireLiveLoc n b) =
           (if fail && 2 ≤ run.1 then true else if !fail && 2 ≤ run.2 then false else s.flag (wireLiveLoc n b))) ∧
     (∀ w, s.get (LP_STATE_PSTATE n) = 7 →
       (if w = .erroneous then s.get (LP_WAKE_CFG_KIND n) = 1 ∧ 31 ≤ (s.port n).wakeErrs else s.wakes n w = true) → Answers (.wakeDetected n w) s fun t =>
       t.flag (LP_WAKE_STAT_WOKE n) = true ∧ t.get (LP_WAKE_STAT_KIND n) = s.get (LP_WAKE_CFG_KIND n)))

/-- The driver power governor (R88 to R93). A submitted frame is admitted with its reservation when no port of the die waits
and the window sum with the reservation is at most B; else it is deferred; at a boundary of 100 µs the window moves on by the
buckets that have passed; a frame deferred for 2 ms is flagged once. Where the spec leaves a point open it follows the
model's choices of log entries 36, 101, 112. -/
def Obligations.GovernorAdmitsDefersFlags : Prop :=
  (∀ (s : State) (n : PortNo) (k : Nat), s.headSlot n = some k → s.canSend n = true →
    s.get (MOP_DESC_STATE k) = slotQueued → (s.port n).deferTick = none →
    let open_ := (s.govOf (dieOf n)).queue = [] ∧ s.windowSum (dieOf n) + s.reservationFor n k ≤ s.budget (dieOf n)
    (open_ → Answers (.governorSubmit n) s fun t => t.get (MOP_DESC_STATE k) = slotArb ∧
      (t.port n).reservation = s.reservationFor n k ∧ t.flag (LP_STATE_DEFERRED n) = false) ∧
    (¬ open_ → Answers (.governorSubmit n) s fun t => t.get (MOP_DESC_STATE k) = slotQueued ∧
      t.flag (LP_STATE_DEFERRED n) = true ∧ n.val ∈ (t.govOf (dieOf n)).queue ∧ (t.port n).deferTick = some s.ticks ∧
      t.get (LP_DEFER_DEFERRALS n) = min (s.get (LP_DEFER_DEFERRALS n) + 1) (2 ^ 16 - 1))) ∧
  (∀ (s : State) (d : Fin 2) (rest : List (PortNo × Nat)), (s.govOf d).bucket < s.ticks / 50000 →
    Answers (.governorBucket ⟨d, rest⟩) s fun t => (t.govOf d).bucket = s.ticks / 50000 ∧
      (rest = [] → (t.govOf d).buckets =
          (List.replicate (min 100 (s.ticks / 50000 - (s.govOf d).bucket)) 0 ++ (s.govOf d).buckets).take 100 ∧
        ((s.govOf d).queue = [] → Only (· ∈ [.gov, .LP_GOV_STAT, .LP_GOV_PEAK]) s t))) ∧
  (∀ (s : State) (n : PortNo) (t0 k : Nat), (s.port n).deferTick = some t0 → s.headSlot n = some k →
    (s.port n).deferFlagged = false → t0 + ticksOfMs 2 ≤ s.ticks → Answers (.deferralFlag n) s fun t =>
      (t.port n).deferFlagged = true ∧
      t.get (LP_DEFER_FLAGGED n) = min (s.get (LP_DEFER_FLAGGED n) + 1) (2 ^ 16 - 1) ∧
      ∀ c, s.gw.copies.find? (·.slot == some k) = some c →
        t.get (GW_LEG_STAT_DEFER2 c.leg) = min (s.get (GW_LEG_STAT_DEFER2 c.leg) + 1) (2 ^ (GW_LEG_STAT_DEFER2 c.leg).len - 1))

/-- The end of a frame on a port whose engine receives (R24, R100, R102, R112, R117). A format that the mode carries is
counted in RXCNT, with its format in LASTFMT; an Ethernet frame of a wrong length or with a wrong FCS is counted in ECF.ETH
instead, one of both kinds in both counters. A foreign format is a protocol exception, which is counted, leaves the error
counters alone and takes the engine to EXCEPTION, or a form error, which is recorded. An error that a CAN-family port detects
outside its own flag, in error-active or error-passive operation (R212, R213): it is recorded in ECF.LAST and counted; a
transmitter's error adds 8 to TEC, a receiver's adds 1 to REC; and the engine signals. An overload condition makes an idle or
receiving engine signal and counts nothing (R101). Where the spec leaves a point open it follows the model's choices of log
entries 36, 42, 110, 112, 131. -/
def Obligations.ReceptionsAndErrors : Prop :=
  (∀ (s : State) (n : PortNo) (r : Reception), s.receives n r.age = true →
     sofSeen r = true → rxWellFormed (s.isEth n) r.frame = true →
     let counted (t : State) := t.get (BT_RXCNT_COUNT n) = min (s.get (BT_RXCNT_COUNT n) + 1) (2 ^ 32 - 1) ∧
       t.get (BT_STAT_LASTFMT n) = r.frame.fmt % 4
     (s.portCarries n r.frame.fmt = true → s.isEth n = false → Answers (.frameReception n r) s counted) ∧
     (s.portCarries n r.frame.fmt = true → s.isEth n = true →
       (r.frame.len < 60 ∨ 1518 < r.frame.len → Answers (.frameReception n r) s fun t =>
         t.get (ECF_ETH_LEN n) = min (s.get (ECF_ETH_LEN n) + 1) (2 ^ 16 - 1) ∧
         t.get (ECF_ETH_FCS n) = (if r.fcs = crc32 r.frame.data then s.get (ECF_ETH_FCS n)
           else min (s.get (ECF_ETH_FCS n) + 1) (2 ^ 16 - 1)) ∧
         t.get (BT_RXCNT_COUNT n) = s.get (BT_RXCNT_COUNT n)) ∧
       (60 ≤ r.frame.len → r.frame.len ≤ 1518 → r.fcs ≠ crc32 r.frame.data → Answers (.frameReception n r) s fun t =>
         t.get (ECF_ETH_FCS n) = min (s.get (ECF_ETH_FCS n) + 1) (2 ^ 16 - 1) ∧
         t.get (BT_RXCNT_COUNT n) = s.get (BT_RXCNT_COUNT n)) ∧
       (60 ≤ r.frame.len → r.frame.len ≤ 1518 → r.fcs = crc32 r.frame.data → Answers (.frameReception n r) s counted)) ∧
     (s.portCarries n r.frame.fmt = false →
       (∀ b, s.foreign n r.frame = .inl b → Answers (.frameReception n r) s fun t =>
         t.get (BT_PEXCNT_PEX n) = min (s.get (BT_PEXCNT_PEX n) + 1) (2 ^ 16 - 1) ∧
         t.get (BT_RXCNT_COUNT n) = s.get (BT_RXCNT_COUNT n) ∧ t.get (ECF_CNT_TEC n) = s.get (ECF_CNT_TEC n) ∧
         t.get (ECF_CNT_REC n) = s.get (ECF_CNT_REC n) ∧ (s.bstate n = 2 ∨ s.bstate n = 3 →
           s.flag (ECF_STAT_QPEND n) = false → t.bstate n = 6)) ∧
       (∀ bs, s.foreign n r.frame = .inr bs → Answers (.frameReception n r) s fun t =>
         t.get (ECF_LAST_TYPE n) = 4 ∧ t.flag (ECF_LAST_DIR n) = false ∧ t.get (ECF_LAST_POS n) = min (posAfter bs) 32767 ∧
         t.flag (ECF_LAST_VALID n) = true ∧ t.get (BT_RXCNT_COUNT n) = s.get (BT_RXCNT_COUNT n)))) ∧
  ((∀ (s : State) (n : PortNo) (e : BusError), s.isCan n = true → e.overload = true → s.bstate n = 2 ∨ s.bstate n = 3 →
     s.flag (BT_STAT_RXONLY n) = false → (s.port n).opMode = 0 → s.get (ECF_STAT_ESTATE n) ≠ 2 →
     Answers (.errorDetected n e) s fun t => t.bstate n = 5 ∧ t.get (ECF_CNT_TEC n) = s.get (ECF_CNT_TEC n) ∧
       t.get (ECF_CNT_REC n) = s.get (ECF_CNT_REC n) ∧ t.get (ECF_LAST_TYPE n) = s.get (ECF_LAST_TYPE n)) ∧
   ∀ (s : State) (n : PortNo) (e : BusError), s.isCan n = true → 1 ≤ e.type → e.type ≤ 9 → e.overload = false →
     (s.bstate n = 2 ∨ s.bstate n = 3 ∨ s.bstate n = 4) → e.inFlag = false → e.tx = (s.port n).attempt.isSome →
     s.get (ECF_STAT_ESTATE n) < 2 → (s.port n).opMode ≠ 1 → s.get (ECF_CNT_TEC n) < 248 →
     Answers (.errorDetected n e) s fun t =>
       t.get (ECF_LAST_TYPE n) = e.type ∧ t.flag (ECF_LAST_DIR n) = e.tx ∧ t.flag (ECF_LAST_PHASE n) = e.phase ∧
       t.get (ECF_LAST_FIELD n) = e.field % 2 ^ (ECF_LAST_FIELD n).len ∧ t.get (ECF_LAST_POS n) = min e.pos 32767 ∧
       t.flag (ECF_LAST_VALID n) = true ∧
       (e.tx = true → s.tecExempt n e = false → t.get (ECF_CNT_TEC n) = s.get (ECF_CNT_TEC n) + 8 ∧
         t.get (ECF_CNT_REC n) = s.get (ECF_CNT_REC n)) ∧
       (e.tx = false → t.get (ECF_CNT_REC n) = min 255 (s.get (ECF_CNT_REC n) + 1) ∧
         t.get (ECF_CNT_TEC n) = s.get (ECF_CNT_TEC n)) ∧
       t.bstate n = 5)

/-- Attempts (R117, R123, R163, R169, R175). An idle engine that may send starts with a waiting beacon, else with the
admitted request at the port's head, and counts the attempt. An attempt that passes arbitration puts its slot ON_WIRE; one
that loses it returns the slot to ARBITRATING while the engine receives; a success counts TXCNT, drives the frame and ends
the attempt. The data-phase timing set of a switched frame comes into use with the delay measured from the first edge that
TDCF does not leave out (R106, R107). Where the spec leaves a point open it follows the model's choices of log entries 38,
110. -/
def Obligations.TransmitAttempts : Prop :=
  (∀ (s : State) (n : PortNo) (d : List Nat) (load pj : Nat), s.bstate n = 2 → s.canSend n = true →
    (s.port n).attempt = none → s.isEth n = false →
    (∀ q, (s.port n).beaconWait = some q → Answers (.transmitAttempt n .started d load pj) s fun t =>
      (t.port n).attempt = some { beacon := true, slot := q, sof := s.sofTime n } ∧ t.bstate n = 4) ∧
    (∀ k, (s.port n).beaconWait = none → s.headSlot n = some k → s.get (MOP_DESC_STATE k) = slotArb →
      s.flag (MOP_DESC_DL_EN k) = false →
      (wordsOf (s.bufOf k) (s.slotFrame k).data.length).filter s.isPoison = [] →
      Answers (.transmitAttempt n .started d load pj) s fun t =>
        (t.port n).attempt = some { beacon := false, slot := k, sof := s.sofTime n } ∧ t.bstate n = 4 ∧
        t.get (MOP_DESC_ATT k) = min 255 (s.get (MOP_DESC_ATT k) + 1))) ∧
  (∀ (s : State) (n : PortNo) (a : Attempt) (d : List Nat) (load pj : Nat), s.bstate n = 4 →
    (s.port n).attempt = some a → a.won = false → s.isEth n = false → a.beacon = false →
    Answers (.transmitAttempt n .won d load pj) s (fun t =>
      (t.port n).attempt = some { a with won := true } ∧ t.get (MOP_DESC_STATE a.slot) = slotOnWire ∧ t.bstate n = 4) ∧
    ((s.slotHid a.slot).stop = none → s.flag (MOP_DESC_DL_EN a.slot) = false →
      Answers (.transmitAttempt n .lost d load pj) s fun t =>
        (t.port n).attempt = none ∧ t.get (MOP_DESC_STATE a.slot) = slotArb ∧ t.bstate n = 3)) ∧
  (∀ (s : State) (n : PortNo) (a : Attempt) (d : List Nat) (load pj : Nat), s.bstate n = 4 →
    (s.port n).attempt = some a → switched (s.attemptFrame n a) = false → s.isEth n = false → a.beacon = true →
    Answers (.transmitAttempt n .success d load pj) s fun t =>
      t.get (BT_TXCNT_COUNT n) = min (s.get (BT_TXCNT_COUNT n) + 1) (2 ^ 32 - 1) ∧
      ((s.port n).beaconWait = some a.slot → (t.port n).beaconWait = none ∧
        t.get (BT_BCN_STAT_SENT n) = min (s.get (BT_BCN_STAT_SENT n) + 1) (2 ^ (BT_BCN_STAT_SENT n).len - 1))) ∧
  (∀ (s : State) (n : PortNo) (a : Attempt) (d : List Nat) (load pj v : Nat), s.bstate n = 4 →
    (s.port n).attempt = some a → switched (s.attemptFrame n a) = true → s.isEth n = false →
    s.flag (BT_STAT_PHASE n) = false → d.find? (fun v => decide (s.get (BT_TDC_TDCF n) ≤ v)) = some v →
    v ≤ s.get (BT_TDC_VMAX n) → Answers (.transmitAttempt n .switched d load pj) s fun t =>
      t.get (BT_TDC_TDCV n) = v ∧ t.get (LP_MEAS_LOOP n) = v ∧ t.flag (BT_STAT_PHASE n) = true ∧ t.bstate n = 4)

/-- The engine's other events (R102, R114, R115, R117, R119, R123, R124). Eleven recessive bits end EXCEPTION and
INTEGRATING; a due beacon drops and counts an unsent predecessor; PLCA status changes and foreign beacons raise their causes;
a collision is counted; OPMODE is readable at once and in effect at once while the engine is STOPPED or INTEGRATING, else at
the next entry to IDLE. Where the spec leaves a point open it follows the model's choices of log entries 37, 40. -/
def Obligations.EngineEvents : Prop :=
  ∀ (s : State) (n : PortNo),
    (s.bstate n = 6 → (s.port n).opPending = none → s.flag (ECF_STAT_QPEND n) = false →
      Answers (.exceptionEnd n) s fun t => t.bstate n = 2 ∧ Writes [(BT_STAT_BSTATE n).addr] [] s t) ∧
    (s.bstate n = 1 → (s.port n).opPending = none → s.flag (ECF_STAT_QPEND n) = false → s.isEth n = false →
      Answers (.integrationComplete n) s fun t => t.bstate n = 2) ∧
    (∀ t0, (s.port n).beaconNext = some t0 → t0 ≤ s.now → s.flag (BT_BCN_CFG_EN n) = true →
      Answers (.beaconDue n) s fun t => (t.port n).beaconWait = some (s.port n).beaconSeq ∧
        (t.port n).beaconSeq = ((s.port n).beaconSeq + 1) % 256 ∧
        t.get (BT_BCN_STAT_MISSED n) =
          if (s.port n).beaconWait = none then s.get (BT_BCN_STAT_MISSED n)
          else min (s.get (BT_BCN_STAT_MISSED n) + 1) (2 ^ (BT_BCN_STAT_MISSED n).len - 1)) ∧
    (∀ ok, s.plca n = true → s.get (BT_PLCA_NODE_ID n) ≠ 0 → s.flag (BT_PLCA_STAT_OK n) ≠ ok →
      Answers (.plcaStatusChange n ok) s fun t => t.flag (BT_PLCA_STAT_OK n) = ok ∧
        t.get (BT_PLCA_STAT_LOST n) =
          if ok then s.get (BT_PLCA_STAT_LOST n) else min (s.get (BT_PLCA_STAT_LOST n) + 1) (2 ^ (BT_PLCA_STAT_LOST n).len - 1)) ∧
    (s.plca n = true → s.get (BT_PLCA_NODE_ID n) = 0 → s.bstate n ≠ 0 →
      Answers (.plcaForeignBeacon n) s fun t => t = s.btCause n 0x08 0) ∧
    (∀ a, (s.port n).attempt = some a → s.isEth n = true → s.flag (LP_CFG_P2P n) = true → (s.port n).collisions < 15 →
      a.beacon = false → (s.port n).opPending = none → s.flag (ECF_STAT_QPEND n) = false → (s.slotHid a.slot).stop = none → s.flag (MOP_DESC_DL_EN a.slot) = false →
      Answers (.collision n) s fun t => (t.port n).collisions = (s.port n).collisions + 1 ∧ (t.port n).attempt = none ∧
        t.get (MOP_DESC_STATE a.slot) = slotArb ∧
        t.get (ECF_ETH_COLL_COLL n) = min (s.get (ECF_ETH_COLL_COLL n) + 1) (2 ^ (ECF_ETH_COLL_COLL n).len - 1)) ∧
    (∀ v : Fin 4, s.serves (lineBit n) → v.val ≠ 3 → Answers (.opmodeWrite .host n v) s fun t =>
      t.get (BT_CTRL_OPMODE n) = v ∧
      (s.bstate n = 0 ∨ s.bstate n = 1 → (t.port n).opMode = v ∧ (t.port n).opPending = none) ∧
      (2 ≤ s.bstate n → (t.port n).opMode = (s.port n).opMode ∧ (t.port n).opPending = some v.val)) ∧
    (∀ v, (s.port n).opPending = some v → (s.port n).attempt = none → s.flag (ECF_STAT_QPEND n) = false →
      s.bstate n = 3 ∨ s.bstate n = 5 ∨ s.bstate n = 6 →
      Answers (.opmodeApply n) s fun t => t.bstate n = 2 ∧ (t.port n).opMode = v ∧ (t.port n).opPending = none)

/-- Recovery from bus-off (R220 to R222, R227). HOLDOFF ends, once its time has passed, no wire condition is live and the
physical state is ACTIVE, in COUNTING with SEQ 0; RECOVER starts COUNTING from WAIT_RECOVER and from QUARANTINED and clears
BO.ESC, and in any other step it sets CMDERR alone; each of the first 127 occurrences of 11 recessive bits counts in SEQ; the
128th makes TEC, REC and ESTATE 0, RSTEP NONE and the engine IDLE, and BO_DUR takes the time since bus-off entry. Quarantine
and slope (R226 to R229). QUAR is pending until the engine enters IDLE, and takes effect at once in IDLE, INTEGRATING,
EXCEPTION and BUS_OFF: the port is then BUS_OFF and QUARANTINED, with BO.CAUSE 1, TEC and REC kept, BO.TOTAL counted and no
entry in the bus-off history. QUAR sets CMDERR alone on a 10BASE-T1S port and on a port whose quarantine is pending or in
effect. A bucket boundary clears the slope warning once both slopes are below max(1, TH / 2). Where the spec leaves a point
open it follows the model's choices of log entries 35, 51. -/
def Obligations.RecoveryAndQuarantine : Prop :=
  (∀ (s : State) (n : PortNo),
     (s.get (ECF_STAT_RSTEP n) = 1 → (s.port n).holdEnd ≤ s.ticks → s.get (LP_WIRE_LIVE n) = 0 →
       s.get (LP_STATE_PSTATE n) = 1 → Answers (.holdoffEnd n) s fun t =>
         t.get (ECF_STAT_RSTEP n) = 2 ∧ t.get (ECF_STAT_SEQ n) = 0 ∧ Writes [(ECF_STAT_RSTEP n).addr] [] s t) ∧
     (s.serves (lineBit n) →
       (s.isCan n = true → s.get (ECF_STAT_ESTATE n) = 2 → s.get (ECF_STAT_RSTEP n) = 3 ∨ s.get (ECF_STAT_RSTEP n) = 4 →
         Answers (.recover .host n) s fun t => t.get (ECF_STAT_RSTEP n) = 2 ∧ t.get (ECF_STAT_SEQ n) = 0 ∧
           t.flag (ECF_BO_ESC n) = false ∧ Writes [(ECF_STAT_RSTEP n).addr, (ECF_BO_ESC n).addr] [.resp] s t) ∧
       (s.isCan n = false ∨ s.get (ECF_STAT_ESTATE n) ≠ 2 ∨
           (s.get (ECF_STAT_RSTEP n) ≠ 3 ∧ s.get (ECF_STAT_RSTEP n) ≠ 4) →
         Answers (.recover .host n) s fun t => t.flag (ECF_STAT_CMDERR n) = true ∧
           t.get (ECF_STAT_RSTEP n) = s.get (ECF_STAT_RSTEP n) ∧ Writes [(ECF_STAT_CMDERR n).addr] [.resp] s t)) ∧
     (s.get (ECF_STAT_RSTEP n) = 2 → s.bstate n = 7 → s.get (ECF_STAT_SEQ n) < 127 →
       Answers (.integrationComplete n) s fun t => t.get (ECF_STAT_SEQ n) = s.get (ECF_STAT_SEQ n) + 1 ∧
         Writes [(ECF_STAT_SEQ n).addr] [] s t) ∧
     (s.get (ECF_STAT_RSTEP n) = 2 → s.bstate n = 7 → s.get (ECF_STAT_SEQ n) = 127 → s.flag (ECF_STAT_QPEND n) = false → (s.port n).opPending = none →
       Answers (.recoveryComplete n) s fun t =>
         t.get (ECF_CNT_TEC n) = 0 ∧ t.get (ECF_CNT_REC n) = 0 ∧ t.get (ECF_STAT_ESTATE n) = 0 ∧
         t.get (ECF_STAT_RSTEP n) = 0 ∧ t.bstate n = 2 ∧
         t.get (ECF_BO_DUR_US n) = min ((s.ticks - (s.port n).boTick) / 500) (2 ^ 32 - 1))) ∧
  (∀ (s : State) (n : PortNo),
     let quarantined (t : State) := t.get (ECF_STAT_ESTATE n) = 2 ∧ t.get (ECF_STAT_RSTEP n) = 4 ∧
       t.flag (ECF_BO_CAUSE n) = true ∧ t.flag (ECF_STAT_QPEND n) = false ∧ t.bstate n = 7 ∧
       t.get (ECF_CNT_TEC n) = s.get (ECF_CNT_TEC n) ∧ t.get (ECF_CNT_REC n) = s.get (ECF_CNT_REC n) ∧
       t.get (ECF_BO_TOTAL n) = min (s.get (ECF_BO_TOTAL n) + 1) (2 ^ 16 - 1) ∧ (t.port n).boTicks = (s.port n).boTicks
     (s.serves (lineBit n) →
       (s.isCan n = true → s.flag (ECF_STAT_QPEND n) = false → s.get (ECF_STAT_RSTEP n) ≠ 4 →
         (s.bstate n = 1 ∨ s.bstate n = 2 ∨ s.bstate n = 6 ∨ s.bstate n = 7 →
           Answers (.quar .host n) s quarantined) ∧
         (s.bstate n = 0 ∨ s.bstate n = 3 ∨ s.bstate n = 4 ∨ s.bstate n = 5 → Answers (.quar .host n) s fun t =>
           t.flag (ECF_STAT_QPEND n) = true ∧ Writes [(ECF_STAT_QPEND n).addr] [.resp] s t)) ∧
       (s.isCan n = false ∨ s.flag (ECF_STAT_QPEND n) = true ∨ s.get (ECF_STAT_RSTEP n) = 4 →
         Answers (.quar .host n) s fun t => t.flag (ECF_STAT_CMDERR n) = true ∧
           Writes [(ECF_STAT_CMDERR n).addr] [.resp] s t)) ∧
     (s.flag (ECF_STAT_QPEND n) = true → s.bstate n ≠ 0 → (s.port n).attempt = none → (s.port n).opPending = none →
       Answers (.quarantineEffect n) s quarantined) ∧
     (let bucket (l : List Nat) := s.slopeSum n ((0 :: l).take 256)
       let lim := max 1 (s.get (ECF_SLOPE_TH n) / 2)
       (bucket (s.port n).slopeT < lim → bucket (s.port n).slopeR < lim →
         Answers (.slopeBucket n) s fun t => t.flag (ECF_STAT_SLOPE n) = false ∧
           Writes [(ECF_STAT_SLOPE n).addr] [.ports] s t) ∧
       (lim ≤ bucket (s.port n).slopeT ∨ lim ≤ bucket (s.port n).slopeR →
         Answers (.slopeBucket n) s fun t => t.flag (ECF_STAT_SLOPE n) = s.flag (ECF_STAT_SLOPE n) ∧ Writes [] [.ports] s t)))

/-- The commands of OBS[n].CTRL while OBS and the port's Line die are usable (R137, R139, R143, R148, R149, R154). A
permitted command has its effect; each command that the table "OBS commands" does not permit, and every unknown code, sets
CMDERR and changes nothing else. Where the spec leaves a point open it follows the model's choices of log entries 45, 107,
108. -/
def Obligations.ObservationCommands : Prop :=
  ∀ (s : State) (n : PortNo), s.serves 18 → s.ready (lineBit n) = true →
    let ignored (c : Instr) := Answers c s fun t => t.flag (OBS_STAT_CMDERR n) = true ∧
      Writes [(OBS_STAT_CMDERR n).addr] [.resp] s t
    (∀ rep, (s.get (OBS_STAT_CEN n) ≠ 1 → s.get (OBS_CFG_NSLOT n) ≠ 0 → s.frontEnd n = true →
        Answers (.cenStart .host n rep) s fun t => t.get (OBS_STAT_CEN n) = 1 ∧ t.get (OBS_CEN_STAT_SLOT n) = 0 ∧
          t.get (OBS_CEN_STAT_UNK n) = 0 ∧ t.flag (OBS_CEN_UNK_VALID n) = false ∧
          (t.obsPort n).cenStart = s.now ∧ (t.obsPort n).cenRepeat = rep) ∧
      (s.get (OBS_STAT_CEN n) = 1 ∨ s.get (OBS_CFG_NSLOT n) = 0 ∨ s.frontEnd n = false → ignored (.cenStart .host n rep))) ∧
    ((s.get (OBS_STAT_CEN n) = 1 → Answers (.cenStop .host n) s fun t => t.get (OBS_STAT_CEN n) = 3) ∧
      (s.get (OBS_STAT_CEN n) ≠ 1 → ignored (.cenStop .host n))) ∧
    ((s.sndBusy n = false → s.sndPermitted n = true → Answers (.sndStart .host n) s fun t =>
        t.get (OBS_SND_STAT_STATE n) = 1 ∧ Writes [(OBS_SND_STAT_STATE n).addr] [.obs, .resp] s t ∧
        (s.ticks, n.val) ∈ (t.sounding (dieOf n)).queue) ∧
      (s.sndBusy n = true ∨ s.sndPermitted n = false → ignored (.sndStart .host n))) ∧
    ((s.sndBusy n = true → Answers (.sndAbort .host n) s fun t => t.get (OBS_SND_STAT_STATE n) = 5 ∧
        (∀ x ∈ (t.sounding (dieOf n)).queue, x.2 ≠ n.val)) ∧
      (s.sndBusy n = false → ignored (.sndAbort .host n))) ∧
    ((s.get (OBS_STAT_ENR n) ≠ 1 → s.frontEnd n = true → Answers (.enrStart .host n) s fun t =>
        t.get (OBS_STAT_ENR n) = 1 ∧ t.get (OBS_ENR_STAT_DONE n) = 0 ∧
        ∀ k < 12, t.get (OBS_ENR_SUM_SUM n k) = 0 ∧ t.get (OBS_ENR_SQ_SQ n k) = 0) ∧
      (s.get (OBS_STAT_ENR n) = 1 ∨ s.frontEnd n = false → ignored (.enrStart .host n))) ∧
    ((s.get (OBS_STAT_ENR n) = 1 → Answers (.enrAbort .host n) s fun t => t.get (OBS_STAT_ENR n) = 3) ∧
      (s.get (OBS_STAT_ENR n) ≠ 1 → ignored (.enrAbort .host n))) ∧
    ((s.capOn n = true → s.get (OBS_CAP_STAT_STATE n) = 0 → Answers (.capStart .host n) s fun t =>
        t.get (OBS_CAP_SEQ_SEQ n) = 0 ∧ (s.get (OBS_CAP_CFG_MODE n) = 2 → t.get (OBS_CAP_STAT_STATE n) = 1) ∧
        (s.get (OBS_CAP_CFG_MODE n) = 1 → t.get (OBS_CAP_STAT_STATE n) = if s.capStream n then 2 else 3)) ∧
      (s.capOn n = false ∨ s.get (OBS_CAP_STAT_STATE n) ≠ 0 → ignored (.capStart .host n))) ∧
    ((s.get (OBS_CAP_STAT_STATE n) = 1 → Answers (.capStop .host n) s fun t => t.get (OBS_CAP_STAT_STATE n) = 0) ∧
      (2 ≤ s.get (OBS_CAP_STAT_STATE n) → Answers (.capStop .host n) s fun t => (t.obsPort n).capStop = true ∧
        Writes [] [.obs, .resp] s t) ∧
      (s.get (OBS_CAP_STAT_STATE n) = 0 → ignored (.capStop .host n))) ∧
    ((s.get (OBS_CAP_CFG_MODE n) = 2 → s.get (OBS_CAP_STAT_STATE n) = 1 → (s.get (OBS_CAP_CFG_TRIG n)).testBit 5 = true →
        Answers (.capTrig .host n) s fun t => t.get (OBS_CAP_STAT_STATE n) = 2 ∧
          let pre := min (s.obsPort n).capBuf.length (min 16 (s.get (OBS_CAP_CFG_PRE n)) * 256)
          (t.obsPort n).capBuf.length = pre ∧ (t.obsPort n).capLeft =
            max (s.obsPort n).capLeft (pre + 1 + max 1 (s.get (OBS_CAP_CFG_POST n)) * 2560)) ∧
      (s.get (OBS_CAP_CFG_MODE n) ≠ 2 ∨ s.get (OBS_CAP_STAT_STATE n) = 0 → ignored (.capTrig .host n))) ∧
    ignored (.obsCmdIgnored .host n)

/-- Line sounding (R139, R140, R142, R143, R155). The lowest free unit takes the request at the head of the queue and starts
with an empty trace; a record that an edge spoils sends the unit back to its quiet time; with the last of its records the
unit is ANALYSING, and the end of the analysis is DONE; a sounding whose records are not finished 1 s after it left the queue
ends in TIMEOUT; and each end frees the unit. Census decisions and specimen packets (R145, R148, R150, R151). At its decision
time a slot that no frame was seen of reads ABSENT; one last seen at L at or before T_k reads PRESENT or ARRIVED when L ≥ T_k
− S_k, and SLOT moves on, once no frame from before that time is still being received. A packet counts SEQ on, whether it is
sent or dropped; a packet of a stream that does not run is dropped and counted, and the capture is in NOLANE; a port whose
front end does not run streams nothing. Where the spec leaves a point open it follows the model's choices of log entries 45,
46, 105, 106, 107, 122, 124. -/
def Obligations.SoundingCensusCapture : Prop :=
  ((∀ (s : State) (d : Fin 2) (t0 n i : Nat) (rest : List (Nat × Nat)), (s.sounding d).queue = (t0, n) :: rest → n < 128 →
     i < 4 → (s.sounding d).unit i = none → (∀ j < i, (s.sounding d).unit j ≠ none) →
     Answers (.soundingUnitStart d) s fun t => (t.sounding d).unit i = some (n, s.ticks) ∧ (t.sounding d).queue = rest ∧
       t.get (OBS_SND_STAT_STATE n) = 2 ∧ t.get (OBS_SND_STAT_UNIT n) = i ∧
       (t.sounding d).trace i = { cfg := s.sndCfg n } ∧
       ∀ j < 2048, t.get (OBS_TRACE_ACC (4 * d + i) j) = 0) ∧
   (∀ (s : State) (n : PortNo) (i : Nat), (s.sounding (dieOf n)).unitOf n = some i →
     (s.get (OBS_SND_STAT_STATE n) = 2 → Answers (.soundingRecordDiscard n) s fun t =>
       i ∈ (t.sounding (dieOf n)).waiting ∧ Writes [] [.obs] s t) ∧
     (∀ recs, s.get (OBS_SND_STAT_STATE n) = 2 → recs ≠ [] → (∀ r ∈ recs, r.length = 256) →
       let tr := (s.sounding (dieOf n)).trace i
       tr.count + recs.length ≤ tr.whole → Answers (.soundingAnalysisDone n recs) s fun t =>
         ((t.sounding (dieOf n)).trace i).count = tr.count + recs.length ∧
         t.get (OBS_SND_STAT_STATE n) = if tr.count + recs.length = tr.whole then 3 else 2) ∧
     (s.get (OBS_SND_STAT_STATE n) = 3 → Answers (.soundingAnalysisDone n []) s fun t => t.get (OBS_SND_STAT_STATE n) = 4 ∧
       (t.sounding (dieOf n)).unit i = none ∧ t.get (OBS_SND_STAT_UNIT n) = s.get (OBS_SND_STAT_UNIT n)) ∧
     (∀ m t0, (s.sounding (dieOf n)).unit i = some (m, t0) → s.get (OBS_SND_STAT_STATE n) = 2 → t0 + 500000000 ≤ s.ticks →
       Answers (.soundingTimeout n) s fun t => t.get (OBS_SND_STAT_STATE n) = 6 ∧ (t.sounding (dieOf n)).unit i = none))) ∧
  ((∀ (s : State) (n : PortNo) (k : Fin 32), s.get (OBS_STAT_CEN n) = 1 → s.get (OBS_CEN_STAT_SLOT n) = k →
     k.val + 1 < s.get (OBS_CFG_NSLOT n) → s.get (OBS_CFG_NSLOT n) ≤ 32 → s.cenTime n k ≤ s.now →
     s.receivingFrom n (s.cenTime n k) = false →
     (s.seen n k = [] → Answers (.censusSlotDecision n k) s fun t =>
       t.get (OBS_CEN_RES_STATUS n k) = 3 ∧ t.get (OBS_CEN_STAT_SLOT n) = k + 1) ∧
     (∀ l ls, s.seen n k = l :: ls → l ≤ s.cenTime n k →
       s.cenTime n k ≤ l + s.get (OBS_CEN_RES_SILENCE n k) * 1000000 →
       Answers (.censusSlotDecision n k) s fun t => t.get (OBS_CEN_STAT_SLOT n) = k + 1 ∧
         t.get (OBS_CEN_RES_STATUS n k) =
           let p := s.get (OBS_CEN_RES_PREV n k)
           if p = 3 ∨ p = 4 ∨ p = 5 then 2 else 1)) ∧
   (∀ (s : State) (n : PortNo) (p : Packet), 2 ≤ s.get (OBS_CAP_STAT_STATE n) →
     (s.frontEnd n = true → 2 ^ s.get (OBS_CAP_CFG_DEC n) ≤ p.volts.length →
       (s.get (OBS_CAP_CFG_MODE n) = 2 → 0 < (s.obsPort n).capLeft) →
       Answers (.specimenPacket n p) s (fun t => t.get (OBS_CAP_SEQ_SEQ n) = (s.get (OBS_CAP_SEQ_SEQ n) + 1) % 2 ^ 32) ∧
       (s.capStream n = false → (s.obsPort n).capStop = false → s.get (OBS_CAP_CFG_MODE n) = 1 →
         Answers (.specimenPacket n p) s fun t => t.get (OBS_CAP_STAT_STATE n) = 3 ∧
           t.get (OBS_CAP_CNT_DROP n) = min (s.get (OBS_CAP_CNT_DROP n) + 1) (2 ^ 16 - 1) ∧ t.out = s.out)) ∧
     (s.frontEnd n = false → (s.obsPort n).capStop = false → Answers (.specimenPacket n p) s fun t => t = s)))

/-- The owner's descriptor writes (R158, R161, R163, R167). A write of a word of a TX slot that is not queued takes the
fields marked RW, moves the slot to STAGED and sets DIR, and no other descriptor changes; a write to a slot in QUEUED,
ARBITRATING or ON_WIRE, of another requester's slot or of a slot in no pool is discarded, and MOP.ERR records the first with
its reason. -/
def Obligations.DescriptorWrites : Prop :=
  ∀ (s : State) (k : SlotNo) (w : Fin 8) (v : Word), s.serves 14 →
    let discarded (reason : Nat) := Answers (.descriptorWrite .host k w v) s fun t =>
      (∀ j < 8, t.word (MOP_DESC_W k j).addr = s.word (MOP_DESC_W k j).addr) ∧ t.flag MOP_ERR_VALID = true ∧
      (s.flag MOP_ERR_VALID = false → t.get MOP_ERR_REASON = reason ∧ t.get MOP_ERR_CMD = 0 ∧ t.flag MOP_ERR_SRC = false ∧
        t.get MOP_ERR_SLOT_SLOT = k)
    (s.poolOf k = none → discarded 4) ∧
    ∀ p, s.poolOf k = some p →
      (s.get (MOP_POOL_CFG1_OWNER p) ≠ 64 → discarded 1) ∧
      (s.get (MOP_POOL_CFG1_OWNER p) = 64 → s.get (MOP_POOL_CFG1_KIND p) = 3 →
        (2 ≤ s.get (MOP_DESC_STATE k) → s.get (MOP_DESC_STATE k) ≤ 4 → discarded 2) ∧
        (s.get (MOP_DESC_STATE k) < 2 ∨ 4 < s.get (MOP_DESC_STATE k) →
          Answers (.descriptorWrite .host k w v) s fun t => t.resp = some .done ∧
            t.get (MOP_DESC_STATE k) = 1 ∧ t.flag (MOP_DESC_DIR k) = true ∧
            (w.val ≠ 0 → t.word (MOP_DESC_W k w).addr = (s.word (MOP_DESC_W k w).addr &&& ~~~descMask w) ||| (v &&& descMask w)) ∧
            (w.val = 0 → t.get (MOP_DESC_TAG k) = (v.toNat / 2 ^ 16) ∧ t.flag (MOP_DESC_DL_EN k) = v.getLsbD 7 ∧
              t.get (MOP_DESC_CODE k) = s.get (MOP_DESC_CODE k)) ∧
            Writes [(MOP_DESC_W k 0).addr, (MOP_DESC_W k w).addr, (MOP_POOL_STAT_FREE p).addr] [.resp] s t))

/-- The doorbell commands of the host (R163 to R165, R170 to R173, R176). QUEUE of a STAGED slot completes it as ABORTED with
the code of the first failing check, or queues it at the present time, or with DUP 1 behind the request that has its tag, or
gives it that request's completion at once; CANCEL of a request that waits completes it as CANCELLED, and one of an attempt
in progress waits for its end; RELEASE and ABANDON free the slot. A command of a slot of another owner or of no pool, one
that the slot's state or kind does not permit and an unknown code change no descriptor, and MOP.ERR records the first. Where
the spec leaves a point open it follows the model's choices of log entry 48. -/
def Obligations.SlotCommands : Prop :=
  ∀ (s : State) (k : SlotNo), s.serves 14 →
    let st := s.get (MOP_DESC_STATE k)
    let refused (c : Instr) (cmd reason : Nat) := Answers c s fun t =>
      (∀ j < 8, t.word (MOP_DESC_W k j).addr = s.word (MOP_DESC_W k j).addr) ∧ t.flag MOP_ERR_VALID = true ∧
      (s.flag MOP_ERR_VALID = false → t.get MOP_ERR_REASON = reason ∧ t.get MOP_ERR_CMD = cmd ∧
        t.flag MOP_ERR_SRC = false ∧ t.get MOP_ERR_SLOT_SLOT = k)
    let all (reason : Nat) := refused (.queue .host k) 1 reason ∧ refused (.cancel .host k) 2 reason ∧
      refused (.release .host k) 3 reason ∧ refused (.abandon .host k) 4 reason ∧
      ∀ cmd : Fin 16, refused (.doorbellIgnored .host k cmd) cmd reason
    (s.poolOf k = none → all 4) ∧
    ∀ p, s.poolOf k = some p → (s.get (MOP_POOL_CFG1_OWNER p) ≠ 64 → all 1) ∧
      (s.get (MOP_POOL_CFG1_OWNER p) = 64 →
        (s.get (MOP_POOL_CFG1_KIND p) ≠ 3 ∨ st ≠ 1 → refused (.queue .host k) 1 3 ∧ refused (.abandon .host k) 4 3) ∧
        (s.get (MOP_POOL_CFG1_KIND p) ≠ 3 ∨ st < 2 ∨ 4 < st → refused (.cancel .host k) 2 3) ∧
        (st ≠ 5 ∧ st ≠ 6 → refused (.release .host k) 3 3) ∧
        (∀ cmd : Fin 16, refused (.doorbellIgnored .host k cmd) cmd 3) ∧
        (st = 5 ∨ st = 6 → Answers (.release .host k) s fun t => t.get (MOP_DESC_STATE k) = 0 ∧ t.resp = some .done) ∧
        (s.get (MOP_POOL_CFG1_KIND p) = 3 → s.copyOf k = none →
          (st = 1 → Answers (.abandon .host k) s fun t => t.get (MOP_DESC_STATE k) = 0 ∧
            Writes [(MOP_DESC_STATE k).addr, (MOP_POOL_STAT_FREE p).addr] [.resp] s t) ∧
          (st = 1 → s.awaitsLayout p = false →
            (∀ code, s.queueCheck p k = some code →
              Answers (.queue .host k) s fun t => t.get (MOP_DESC_STATE k) = 6 ∧ t.get (MOP_DESC_CODE k) = code) ∧
            (s.queueCheck p k = none →
              (s.findTag p k = none → Answers (.queue .host k) s fun t => t.get (MOP_DESC_STATE k) = 2 ∧
                t.flag (MOP_DESC_DUP k) = false ∧ (t.slotHid k).qtime = s.now ∧ (t.slotHid k).dupOf = none) ∧
              (∀ g, s.findTag p k = some g → g.result = none → Answers (.queue .host k) s fun t =>
                t.get (MOP_DESC_STATE k) = 2 ∧ t.flag (MOP_DESC_DUP k) = true ∧ (t.slotHid k).dupOf = some g.slot) ∧
              (∀ g x c ns sec, s.findTag p k = some g → g.result = some (x, c, ns, sec) → x < 8 → c < 256 →
                Answers (.queue .host k) s fun t => t.get (MOP_DESC_STATE k) = x ∧ t.get (MOP_DESC_CODE k) = c ∧
                  t.flag (MOP_DESC_DUP k) = true ∧ t.word (MOP_DESC_W k 6).addr = ns ∧
                  t.word (MOP_DESC_W k 7).addr = sec))) ∧
          (st = 2 → (∀ n, s.headSlot n ≠ some k.val) → Answers (.cancel .host k) s fun t =>
            t.get (MOP_DESC_STATE k) = 6 ∧ t.get (MOP_DESC_CODE k) = 0x10) ∧
          (st = 3 ∨ st = 4 → s.idleSlot k = false → Answers (.cancel .host k) s fun t =>
            (t.slotHid k).stop = some 0x10 ∧ Writes [] [.store, .resp] s t)))

/-- Selection, deadlines, monitors and layouts (R174, R175, R177, R184 to R186, R516). A port that can send takes its next
request into PORTHEAD; a waiting slot, no duplicate, whose deadline is due completes as DEADLINE, and one whose deadline is
not due stays; arming a monitor sets its first deadline one period ahead, or is discarded for a slot that is no mailbox of
the writer; a deadline without a frame, and without a reception that could still be one, posts TIMEOUT with that deadline,
and disarms the monitor or sets the next one a period later; a frame-store pool takes its new layout once no port of its
pools, old and new, is in transition and its buffers have returned, and not before. Where the spec leaves a point open it
follows the model's choices of log entry 48. -/
def Obligations.SelectionAndMonitors : Prop :=
  (∀ (s : State) (n : PortNo) (k : Nat), s.ready 14 = true → s.bstate n = 2 → s.canSend n = true → s.flag (MOP_PORTHEAD_VALID n) = false →
    (s.port n).attempt = none → s.nextRequest n = some k → k < 65536 →
    Answers (.portSelect n) s fun t => t.get (MOP_PORTHEAD_SLOT n) = k ∧ t.flag (MOP_PORTHEAD_VALID n) = true ∧
      s.get (MOP_DESC_STATE k) = 2 ∧ Writes [(MOP_PORTHEAD_SLOT n).addr] [] s t) ∧
  (∀ (s : State) (k : SlotNo), s.flag (MOP_DESC_DL_EN k) = true → s.get (MOP_DESC_STATE k) = 2 →
    (dueAt s.now (s.slotStamp32 k) = true → (s.slotHid k).dupOf = none → s.copyOf k = none → (∀ n, s.headSlot n ≠ some k.val) →
      Answers (.txDeadline k) s fun t => t.get (MOP_DESC_STATE k) = 6 ∧ t.get (MOP_DESC_CODE k) = 0x11) ∧
    (dueAt s.now (s.slotStamp32 k) = false → Answers (.txDeadline k) s fun t => t = s)) ∧
  (∀ (s : State) (m : Fin 4096) (k : SlotNo) (oneshot miss : Bool), s.serves 14 →
    (s.ownMailbox .host k = true → Answers (.monitorArm .host m k oneshot miss) s fun t =>
      t.flag (MOP_MON_CFG_EN m) = true ∧ t.get (MOP_MON_CFG_SLOT m) = k ∧ t.flag (MOP_MON_CFG_ONESHOT m) = oneshot ∧
      t.flag (MOP_MON_CFG_TAINT_MISS m) = miss ∧
      t.get (MOP_MON_NEXT_NS m) = nsOf (s.now + s.monPeriod m) ∧
      t.get (MOP_MON_NEXT_SEC m) = secOf (s.now + s.monPeriod m) % 2 ^ 32 ∧
      Writes [(MOP_MON_CFG_SLOT m).addr, (MOP_MON_NEXT_NS m).addr, (MOP_MON_NEXT_SEC m).addr] [.resp] s t) ∧
    (s.ownMailbox .host k = false → Answers (.monitorArm .host m k oneshot miss) s fun t =>
      t.word (MOP_MON_CFG_SLOT m).addr = s.word (MOP_MON_CFG_SLOT m).addr ∧ t.flag MOP_ERR_VALID = true ∧
      (s.flag MOP_ERR_VALID = false → t.get MOP_ERR_REASON = 5 ∧ t.get MOP_ERR_SLOT_SLOT = m))) ∧
  (∀ (s : State) (m : Fin 4096) (p : Nat), s.flag (MOP_MON_CFG_EN m) = true → s.monNext m ≤ s.now →
    s.monHeld m = false →
    s.poolOf (s.get (MOP_MON_CFG_SLOT m)) = some p →
    Answers (.monitorDeadline m) s fun t =>
      t.led = (s.post (s.get (MOP_MON_CFG_SLOT m)) p 0x20 (s.monNext m % 2 ^ 32) m).led ∧
      t.get (MOP_MON_STAT_TIMEOUTS m) = min (s.get (MOP_MON_STAT_TIMEOUTS m) + 1) (2 ^ 16 - 1) ∧
      (s.flag (MOP_MON_CFG_ONESHOT m) = true → t.flag (MOP_MON_CFG_EN m) = false) ∧
      (s.flag (MOP_MON_CFG_ONESHOT m) = false → t.flag (MOP_MON_CFG_EN m) = true ∧
        t.get (MOP_MON_NEXT_NS m) = nsOf (s.monNext m + s.monPeriod m) ∧
        t.get (MOP_MON_NEXT_SEC m) = secOf (s.monNext m + s.monPeriod m) % 2 ^ 32)) ∧
  (∀ (s : State) (f : Fin 256) (b c r : Word) (ns : List Nat),
    s.store.relayout.find? (·.1 == f.val) = some (f.val, b, c, r, ns) →
    let mine := (List.range 1024).filter fun p => s.get (MOP_POOL_CFG1_FSP p) = f && s.get (MOP_POOL_CFG1_KIND p) != 0
    let moving := (∃ n ∈ ns, s.inTransit n = true) ∨ ∃ p ∈ mine, s.inTransit (s.get (MOP_POOL_CFG1_PORT p)) = true
    (moving ∨ s.bufsBack f = false → Answers (.fspRelayout f) s fun t => t = s) ∧
    (¬moving → s.bufsBack f = true → Answers (.fspRelayout f) s fun t =>
      t.word (MOP_FSP_BASE_BASE f).addr = b ∧ t.word (MOP_FSP_CNT_NSMALL f).addr = c ∧
      t.word (MOP_FSP_RSV_RSV_SMALL f).addr = r ∧ t.store.relayout.find? (·.1 == f.val) = none))

/-- Searches (R191, R200, R201). At the end of the identifier field the port's tables are searched once for each combination
of format and remote flag, in match order, and the CAN XL candidate waits; it takes its entry once, when SDT, VCID and AF are
known. A candidate keeps the words of its entry as the search met them (R201, R206). A presented Ethernet frame has one
candidate, another none. The head of the command order takes effect at its instant U, recorded in CAT.UPD_T: a frame with a
start-of-frame time at or after U sees the new entry, an earlier one the old entry, until the command is DONE and the next
may apply (R206, R207). Where the spec leaves a point open it follows the model's choices of log entries 49, 131. -/
def Obligations.SearchesAndUpdateInstants : Prop :=
  ((∀ (s : State) (n : PortNo) (sof : Nat) (f : Frame), s.fallback (dieOf n) = false →
     Answers (.catalogueSearch n sof f) s fun t => ∃ sr, (t.port n).search = some sr ∧ sr.sof = sof ∧
       (f.fmt ≠ fmtEth → ∀ fmt rmt, fmt ≤ fmtXL → s.portCarries n fmt = true → rmt = false ∨ fmt = fmtCC →
         ∃ c ∈ sr.cands, c.fmt = fmt ∧ c.rmt = rmt) ∧
       (∀ c ∈ sr.cands, c.entry =
         if c.fmt = fmtXL ∨ (c.fmt = fmtEth ∧ s.presented n f = false) then none
         else s.catLookup n sof { catKey f with fmt := c.fmt, rmt := c.rmt }) ∧
       ∀ c ∈ sr.cands, ∀ i, c.entry = some i → c.words = (List.range 8).map (s.entryWord sof i)) ∧
   (∀ (s : State) (n : PortNo) (f : Frame) (sr : Search), s.fallback (dieOf n) = false → f.fmt = fmtXL →
     (s.port n).search = some sr →
     (sr.xl = false → Answers (.xlCandidateComplete n f) s fun t => ∃ sr', (t.port n).search = some sr' ∧ sr'.sof = sr.sof ∧
       sr'.xl = true ∧ ∀ c ∈ sr'.cands, c.fmt = fmtXL → c.entry = s.catLookup n sr.sof (catKey f) ∧
         ∀ i, c.entry = some i → c.words = (List.range 8).map (s.entryWord sr.sof i)) ∧
     (sr.xl = true → Answers (.xlCandidateComplete n f) s fun t => t.ports = s.ports))) ∧
  (∀ (s : State) (c : CatCmd) (r : List CatCmd), s.cat.order = c :: r → c.idx < 32768 → c.req ≤ 64 →
     (s.cat.applied = none → Answers .catUpdateApply s fun t =>
       (∀ k < 8, t.word (CAT_ENTRY_W c.idx k).addr = c.words.getD k 0 ∧
         (∀ sof, s.now ≤ sof → t.entryWord sof c.idx k = c.words.getD k 0) ∧
         (∀ sof < s.now, t.entryWord sof c.idx k = s.word (CAT_ENTRY_W c.idx k).addr)) ∧
       t.get (CAT_UPD_T_NS c.req) = nsOf s.now ∧ t.get (CAT_UPD_T_SEC c.req) = secOf s.now % 2 ^ 32 ∧
       t.cat.order = s.cat.order ∧
       ∀ j < 32768, j ≠ c.idx → ∀ k < 8, t.word (CAT_ENTRY_W j k).addr = s.word (CAT_ENTRY_W j k).addr) ∧
     (∀ a, s.cat.applied = some a →
       (Answers .catUpdateApply s fun t => t = s) ∧
       (Answers .catUpdateDone s fun t => t.get (CAT_UPD_STAT_STATE c.req) = 2 ∧ t.get (CAT_UPD_STAT_REFUSE c.req) = 0 ∧
         t.cat = { s.cat with order := r, applied := none })))

/-- A write of CAT.UPD_CMD by the host, to its own bank (R203 to R207). A command that one of the conditions of R204 refuses
reads REFUSED with its code, no entry and no accepted command changes; an accepted one is PENDING behind every command
accepted before it, and an EXACT INSERT returns the way chosen. Where the spec leaves a point open it follows the model's
choices of log entries 50, 128. -/
def Obligations.LiveUpdateCommands : Prop :=
  ∀ (s : State) (t : Fin 256), s.serves 13 → (∀ c ∈ s.cat.order, c.req ≤ 64) →
    let i := s.get (CAT_UPD_IDX_INDEX 64)
    let w0 := s.staged 64 0
    let kind := bitsOf w0 0 3
    let exactHash := kind = 1 ∧ (s.tableOf t).hash = true
    let refused (c : Instr) (code reason : Nat) := Answers c s fun u => u.get (CAT_UPD_STAT_STATE 64) = 3 ∧
      u.get (CAT_UPD_STAT_REFUSE 64) = code ∧ u.get (CAT_UPD_STAT_REASON 64) = reason % 65536 ∧ u.cat = s.cat ∧
      ∀ j < 32768, ∀ k < 8, u.word (CAT_ENTRY_W j k).addr = s.word (CAT_ENTRY_W j k).addr
    let accepted (c : Instr) (code idx : Nat) (ws : List Word) := Answers c s fun u => u.get (CAT_UPD_STAT_STATE 64) = 1 ∧
      u.get (CAT_UPD_IDX_INDEX 64) = idx % 32768 ∧
      u.cat = { s.cat with order := s.cat.order ++ [{ req := 64, code, table := t, idx, words := ws, tick := s.ticks }] } ∧
      ∀ j < 32768, ∀ k < 8, u.word (CAT_ENTRY_W j k).addr = s.word (CAT_ENTRY_W j k).addr
    ((∃ c ∈ s.cat.order, c.req = 64) → refused (.updCmdUnknown .host) 1 0) ∧
    ((∀ c ∈ s.cat.order, c.req ≠ 64) → refused (.updCmdUnknown .host) 3 0) ∧
    (∀ r, s.catCommon 64 t = some r → r < 16 →
      refused (.insert .host t) r 0 ∧ refused (.delete .host t) r 0 ∧ refused (.replace .host t) r 0) ∧
    (s.catCommon 64 t = none →
      ((s.tableOf t).inTable i = false → refused (.delete .host t) 3 0 ∧ refused (.replace .host t) 3 0) ∧
      ((s.tableOf t).inTable i = true →
        (s.get (CAT_ENTRY_KIND i) = 0 → refused (.delete .host t) 5 0 ∧ refused (.replace .host t) 5 0) ∧
        (s.get (CAT_ENTRY_KIND i) ≠ 0 → accepted (.delete .host t) 2 i (List.replicate 8 0)) ∧
        (s.get (CAT_ENTRY_KIND i) = 1 → kind ≠ 1 → refused (.replace .host t) 6 0) ∧
        (1 < s.get (CAT_ENTRY_KIND i) →
          (∀ r, s.entryCheck (s.tableOf t) i (s.staged 64) = some r → refused (.replace .host t) 8 r) ∧
          (s.entryCheck (s.tableOf t) i (s.staged 64) = none → accepted (.replace .host t) 3 i (s.liveWords 64)))) ∧
      (¬exactHash →
        ((s.tableOf t).inOrdered i = false → refused (.insert .host t) 3 0) ∧
        ((s.tableOf t).inOrdered i = true →
          (s.get (CAT_ENTRY_KIND i) ≠ 0 → refused (.insert .host t) 4 0) ∧
          (s.get (CAT_ENTRY_KIND i) = 0 →
            (∀ r, s.entryCheck (s.tableOf t) i (s.staged 64) = some r → refused (.insert .host t) 8 r) ∧
            (s.entryCheck (s.tableOf t) i (s.staged 64) = none → accepted (.insert .host t) 1 i (s.liveWords 64))))) ∧
      (exactHash → s.entryCheck (s.tableOf t) 32768 (s.staged 64) = none →
        let ways := (s.tableOf t).ways (bitsOf w0 7 1 = 1) (bitsOf (s.staged 64 1) 0 29)
        ((∀ j ∈ ways, s.get (CAT_ENTRY_KIND j) ≠ 0) → refused (.insert .host t) 8 0x0205) ∧
        (∀ a b j, ways = a ++ j :: b → (∀ x ∈ a, s.get (CAT_ENTRY_KIND x) ≠ 0) → s.get (CAT_ENTRY_KIND j) = 0 →
          accepted (.insert .host t) 1 j (s.liveWords 64))))

/-- Port ingress (R241, R243, R246, R259). A frame of a route that has not started waits, and so does every frame while the
gateway is not usable (R32); the frames of a route go in ascending order of T. A tainted frame of a route without TAINT_OK, a
repetition under DUP_EOF and a frame beyond the load budget are discarded, each with its count and no copy; any other frame
is accepted, and its one PORT leg's copy is staged in the leg's next free slot for release at T + H. Whatever becomes of it,
the frame's RX slot returns to FREE. The receive window of a tunnel stream (R260, R263). An AVTPDU of another subtype or
stream_id is skipped and counted; the first one, one 1 to 127 ahead of HI and one behind HI that the map does not hold are
accepted, and HI and the map follow; a duplicate and a stale one are counted and change neither. While the gateway is not
usable an AVTPDU is held (R32). 100 ms without an accepted AVTPDU empty the window. Where the spec leaves a point open it
follows the model's choices of log entries 52, 126. -/
def Obligations.IngressAndTunnels : Prop :=
  (∀ (s : State) (k : SlotNo) (w : WaitingFrame), s.gw.waiting.find? (·.slot == k.val) = some w →
     let r := w.route
     let waits := r ∈ s.gw.notStarted ∨ s.gwUsable = false
     (waits → Answers (.gatewayIngress k) s fun t => t = s) ∧
     (¬waits → Answers (.gatewayIngress k) s fun t =>
       ∀ v ∈ s.gw.waiting, v = w ∨ (v.route = r ∧ v.sof < w.sof) → ∀ x ∈ t.gw.waiting, x.slot ≠ v.slot) ∧
     ∀ p, s.poolOf k = some p → ¬waits → (∀ v ∈ s.gw.waiting, v.route = r → w.sof ≤ v.sof) →
       let f := s.slotFrame k
       let tainted := s.flag (MOP_DESC_TAINT k) = true ∧ s.flag (GW_RT_CFG_TAINT_OK r) = false
       let again := w.dup = true ∧ s.flag (GW_RT_CFG_DUP_EOF r) = true
       let full := s.windowM r ≤ ((smapFind (fun _ => []) s.gw.accepted r).filter fun u =>
         decide (w.sof < u + s.get (GW_RT_H_NS r)) && decide (u ≤ w.sof)).length
       let discarded (l : Loc) := Answers (.gatewayIngress k) s fun t =>
         t.get l = min (s.get l + 1) (2 ^ l.len - 1) ∧ t.get (GW_RT_CNT_FWD r) = s.get (GW_RT_CNT_FWD r) ∧
         t.gw.copies = s.gw.copies ∧ t.gw.accepted = s.gw.accepted ∧ t.get (MOP_DESC_STATE k) = 0
       (tainted → discarded (GW_RT_DROP_TAINT r)) ∧
       (¬tainted → again → discarded (GW_RT_BRK_DUP r)) ∧
       (¬tainted → ¬again → full → discarded (GW_RT_DROP_POLICE r)) ∧
       (¬tainted → ¬again → ¬full → ∀ l j, s.legsOf r = [l] → s.get (GW_LEG_CFG_KIND l) = 1 →
         (∀ c ∈ s.gw.copies, c.leg ≠ l ∨ c.state ≠ .waiting) →
         s.legSlot (s.copyFor r l f w.sof w.port 0 false false false) = some j → j < 65536 → j ≠ k → w.forced = false →
         s.late (w.sof + s.get (GW_RT_H_NS r)) = false →
         Answers (.gatewayIngress k) s fun t =>
           t.get (GW_RT_CNT_FWD r) = min (s.get (GW_RT_CNT_FWD r) + 1) (2 ^ 32 - 1) ∧
           t.get (MOP_DESC_STATE k) = 0 ∧ t.get (MOP_DESC_STATE j) = 1 ∧ t.get (MOP_DESC_WP j) = 0 ∧
           ∃ c ∈ t.gw.copies, c.slot = some j ∧ c.leg = l ∧ c.state = .staged ∧ c.stamp = w.sof ∧
             c.release = w.sof + s.get (GW_RT_H_NS r) ∧ c.frame = s.legFrame l f)) ∧
  (∀ (s : State) (st : Fin 64),
     (∀ (x : Nat) (a : Avtpdu), s.gwUsable = false → Answers (.tunnelAvtpduReceived st x a) s fun t =>
       t.gw.heldIn = s.gw.heldIn ++ [.avtpdu st x a] ∧ Writes [] [.gw] s t) ∧
     (∀ (x : Nat) (a : Avtpdu), s.gwUsable = true →
       let q := a.seq % 256
       let hi := s.get (GW_TUN_SEQ_HI st)
       let d := (q + 256 - hi) % 256
       let b := (hi + 256 - q) % 256
       let ours := (a.subtype = 0x82 ∨ a.subtype = 0x05) ∧ a.sid = s.get (GW_TUN_SID_SID st) ∧ s.flag (GW_TUN_CFG_IN st) = true
       let accepted (h m : Nat) := Answers (.tunnelAvtpduReceived st x a) s fun t =>
         t.get (GW_TUN_SEQ_HI st) = h ∧ t.flag (GW_TUN_SEQ_HV st) = true ∧ t.tunMap st = m % 2 ^ 64 ∧
         t.get (GW_TUN_CNT_RX st) = min (s.get (GW_TUN_CNT_RX st) + 1) (2 ^ 16 - 1)
       let discarded (l : Loc) := Answers (.tunnelAvtpduReceived st x a) s fun t =>
         t.get l = min (s.get l + 1) (2 ^ l.len - 1) ∧ t.get (GW_TUN_SEQ_HI st) = hi ∧ t.tunMap st = s.tunMap st ∧
         t.gw.copies = s.gw.copies ∧ t.get (GW_TUN_CNT_RX st) = s.get (GW_TUN_CNT_RX st)
       (¬ours → discarded (GW_TUN_DUP_SKIP st)) ∧
       (ours → s.flag (GW_TUN_SEQ_HV st) = false → accepted q 1) ∧
       (ours → s.flag (GW_TUN_SEQ_HV st) = true →
         (1 ≤ d → d ≤ 127 → accepted q (s.tunMap st * 2 ^ d + 1)) ∧
         (d = 0 ∨ 128 ≤ d →
           (b ≤ 63 → (s.tunMap st).testBit b = true → discarded (GW_TUN_DUP_DUP st)) ∧
           (b ≤ 63 → (s.tunMap st).testBit b = false → accepted hi (s.tunMap st + 2 ^ b)) ∧
           (64 ≤ b → discarded (GW_TUN_DUP_STALE st))))) ∧
     (s.flag (GW_TUN_SEQ_HV st) = true → smapFind (fun _ => 0) s.gw.tunTick st + 50000000 ≤ s.ticks →
       Answers (.tunnelWindowTimeout st) s fun t => t.flag (GW_TUN_SEQ_HV st) = false ∧ t.tunMap st = 0 ∧
         Writes [(GW_TUN_SEQ_HV st).addr] [.gw] s t) ∧
     (s.flag (GW_TUN_SEQ_HV st) = false ∨ s.ticks < smapFind (fun _ => 0) s.gw.tunTick st + 50000000 →
       Answers (.tunnelWindowTimeout st) s fun t => t = s))

/-- Release and waiting copies (R242, R243, R253, R254). At its release instant a staged copy of a PORT leg enters QUEUED
with queue time R, and a copy of a TUNNEL leg goes to its stream with the next sequence number; a copy that is not due stays,
as all do while the gateway is not usable (R32). A waiting copy takes a freed entry of its leg, and those without one by R +
H are discarded; a breach window closes once its target holds no copy that keeps it open, and not before. Where the spec
leaves a point open it follows the model's choices of log entries 52, 127. -/
def Obligations.ReleaseAndBreachWindows : Prop :=
  (∀ (s : State) (g : Fin 200),
    let due := s.gw.copies.filter fun c =>
      s.gwUsable && c.target == g.val && c.state == .staged && !c.isRemote && s.released c
    (due = [] → Answers (.releaseInstant g) s fun t => t = s) ∧
    (∀ c, due = [c] →
      (∀ k, c.attr.kind = 1 → c.slot = some k →
        s.awaitsLayout c.attr.pool = false → s.queueCheck c.attr.pool k = none →
        s.get (MOP_POOL_CFG1_OWNER c.attr.pool) = 65 →
        Answers (.releaseInstant g) s fun t => t.get (MOP_DESC_STATE k) = 2 ∧ (t.slotHid k).qtime = c.release ∧
          t.get (GW_LEG_STAT_REL c.leg) = min (s.get (GW_LEG_STAT_REL c.leg) + 1) (2 ^ 16 - 1) ∧
          t.gw.copies = insertCopy { c with state := .released } (s.gw.copies.erase c)) ∧
      (c.attr.kind = 2 → Answers (.releaseInstant g) s fun t =>
        t.get (GW_TUN_SEQ_TXSEQ (c.target - 128)) = (s.get (GW_TUN_SEQ_TXSEQ (c.target - 128)) + 1) % 256 ∧
        t.get (GW_LEG_STAT_REL c.leg) = min (s.get (GW_LEG_STAT_REL c.leg) + 1) (2 ^ 16 - 1) ∧
        t.gw.copies = s.gw.copies.erase c))) ∧
  (∀ (s : State) (l : Fin 1024),
    let expired (c : Copy) := c.leg == l.val && c.state == .waiting && decide (c.release + c.attr.horizon ≤ s.now)
    (Answers (.waitingCopyExpire l) s fun t => t.gw.copies = s.gw.copies.filter fun c => !expired c) ∧
    ((∀ c ∈ s.gw.copies, c.leg ≠ l.val ∨ c.state ≠ .waiting) → Answers (.waitingCopySlot l) s fun t => t = s) ∧
    (∀ c, (s.gw.copies.find? fun c => c.leg == l.val && c.state == .waiting) = some c →
      c.attr.kind = 2 → s.gwUsable = true →
      (c.attr.depth ≤ s.get (GW_LEG_Q_INUSE l) → Answers (.waitingCopySlot l) s fun t => t = s) ∧
      (s.get (GW_LEG_Q_INUSE l) < c.attr.depth → c.breached = true → s.released c = false →
        Answers (.waitingCopySlot l) s fun t => t.get (GW_LEG_Q_INUSE l) =
            min (s.get (GW_LEG_Q_INUSE l) + 1) (2 ^ (GW_LEG_Q_INUSE l).len - 1) ∧
          t.gw.copies = insertCopy { c with state := .staged } (s.gw.copies.erase c)))) ∧
  (∀ (s : State) (g : Fin 200),
    (s.flag (GW_EQ_STAT_BRW g) = true → s.holdsWindow g = false → Answers (.breachWindowClose g) s fun t =>
      t.flag (GW_EQ_STAT_BRW g) = false ∧ t.flag (brkwLoc g) = false ∧
      t.get (GW_EQ_CNT_CLOSED g) = min (s.get (GW_EQ_CNT_CLOSED g) + 1) (2 ^ 16 - 1)) ∧
    (s.flag (GW_EQ_STAT_BRW g) = false ∨ s.holdsWindow g = true → Answers (.breachWindowClose g) s fun t => t = s))

/-- Engine commands (R268, R270, R276). START from HALTED begins at ENG.START in M-mode with x1 to x31 at 0; HALT of a
RUNNING or WAITING engine leaves it HALTED with its locks; RESET leaves it HALTED, or RUNNING with AUTO, with every register
and CSR at its reset value, holding and awaiting no lock, and a lock it held is BROKEN; in another state the command is
ignored; an engine of another station takes a store access fault that changes nothing else. Interrupts, WFI and MRET (R268,
R271, R281). A timer compare that is due is taken, when it alone is pending and enabled, by an engine with interrupts on,
which a WFI held in WAITING or not; DOORBELL sets and DOORACK clears MSIP bits; WFI without a pending enabled interrupt
leaves the engine WAITING at the next instruction; MRET returns to mepc in the mode MPP with ACTIVE at PACT; in U-mode MRET,
and WFI with TW, are illegal. Where the spec leaves a point open it follows the model's choices of log entries 57, 58, 61. -/
def Obligations.EnginesRunAndTrap : Prop :=
  (∀ (s : State) (e : EngNo), s.rgnReady (e / 64) = true → s.ended = false →
     let st := s.estate e
     let nothing (c : Instr) := Answers c s fun t => t.resp = some .done ∧ Writes [] [.resp] s t
     let start := BitVec.ofNat 32 (s.get (ENG_START_ADDR e) * 2)
     (st = 1 → Answers (.engineStart .host e) s fun t => t.estate e = 2 ∧ (t.engine e).pc = start ∧
       (t.engine e).user = false ∧ (∀ r, (t.engine e).getX r = 0) ∧ ∀ c, (t.engine e).getCsr c = (s.engine e).getCsr c) ∧
     (st ≠ 1 → nothing (.engineStart .host e)) ∧
     (st = 2 ∨ st = 3 → Answers (.engineHalt .host e) s fun t => t.estate e = 1 ∧ (t.engine e).pc = (s.engine e).pc ∧
       t.get (ENG_PC_PC e) = (s.engine e).pc.toNat ∧ bitsOf ((t.engine e).getCsr csrXFST) 0 1 = 0 ∧
       ∀ j < 64, t.word (CLU_LOCK_HELD (e / 8) j).addr = s.word (CLU_LOCK_HELD (e / 8) j).addr) ∧
     (st ≠ 2 → st ≠ 3 → nothing (.engineHalt .host e)) ∧
     (1 ≤ st → st ≤ 3 → Answers (.engineReset .host e) s fun t =>
       t.estate e = (if s.flag (ENG_CFG_AUTO e) then 2 else 1) ∧ (t.engine e).pc = start ∧
       (∀ r, (t.engine e).getX r = 0) ∧ (∀ c, (t.engine e).getCsr c = csrReset c) ∧ (t.engine e).reservation = none ∧
       ∀ j < 64, t.holds (e / 8) j (e % 8) = false ∧ t.waitsFor (e / 8) j (e % 8) = false ∧
         (s.holds (e / 8) j (e % 8) = true → t.flag (CLU_LOCK_BROKEN (e / 8) j) = true)) ∧
     (st = 0 ∨ 4 ≤ st → nothing (.engineReset .host e)) ∧
     nothing (.engineCmdIgnored .host e) ∧
     ∀ f : EngNo, s.sameStation (.engine f) e = false →
       let traps (c : Instr) := Answers c s fun t => t = s.accessTrap f (0x20000000 + (ENG_CTRL_CMD e).addr) true
       traps (.engineStart (.engine f) e) ∧ traps (.engineHalt (.engine f) e) ∧ traps (.engineReset (.engine f) e) ∧
         traps (.engineCmdIgnored (.engine f) e)) ∧
  ((∀ (s : State) (e : EngNo),
     let v := s.engine e
     let due := s.flag (ENG_CFG_TEN e) = true ∧ dueAt s.now (s.get (ENG_TCMP_NS e)) = true
     (¬due → Answers (.timerCompare e) s fun t => t = s) ∧
     (due → s.mip e &&& (v.getCsr csrMie).toNat = 128 → s.estate e = 2 ∨ s.estate e = 3 →
       v.user = true ∨ bitsOf (v.getCsr csrMstatus) 3 1 = 1 → Answers (.timerCompare e) s fun t =>
         t.estate e = 2 ∧ (t.engine e).getCsr csrMcause = 0x80000007 ∧ (t.engine e).getCsr csrMepc = v.pc ∧
         (t.engine e).user = false ∧ (t.engine e).getCsr csrMstatus = trapStatus (v.getCsr csrMstatus) v.user ∧
         (t.engine e).pc = (let base := putBits (v.getCsr csrMtvec) 0 2 0
           if bitsOf (v.getCsr csrMtvec) 0 2 = 1 then base + 28 else base)) ∧
     (s.estate e ≠ 2 → (Answers (.wfi e) s fun t => t = s) ∧ Answers (.mret e) s fun t => t = s) ∧
     (s.estate e = 2 →
       (v.user = true → Answers (.mret e) s fun t => t = s.trap e 2 0x30200073 false) ∧
       (v.user = true → bitsOf (v.getCsr csrMstatus) 21 1 = 1 →
         Answers (.wfi e) s fun t => t = s.trap e 2 0x10500073 false) ∧
       (v.user = false ∨ bitsOf (v.getCsr csrMstatus) 21 1 = 0 → s.mip e &&& (v.getCsr csrMie).toNat = 0 →
         (∀ k < 64, s.get (LEDG_RING_CFG_TARGET k) ≠ e) →
         Answers (.wfi e) s fun t => t.estate e = 3 ∧ (t.engine e).pc = v.pc + 4 ∧ (t.engine e).user = v.user) ∧
       (v.user = false → s.mip e &&& (v.getCsr csrMie).toNat = 0 → Answers (.mret e) s fun t =>
         (t.engine e).pc = v.getCsr csrMepc ∧ (t.engine e).user = decide (bitsOf (v.getCsr csrMstatus) 11 2 = 0) ∧
         bitsOf ((t.engine e).getCsr csrXFST) 0 1 = bitsOf (v.getCsr csrXFST) 1 1 ∧
         bitsOf ((t.engine e).getCsr csrMstatus) 3 1 = bitsOf (v.getCsr csrMstatus) 7 1 ∧
         bitsOf ((t.engine e).getCsr csrMstatus) 11 2 = 0))) ∧
   (∀ (s : State) (c : CluNo) (m : Byte), s.rgnReady (c / 8) = true → s.ended = false →
     (Answers (.cluDoorbell .host c m) s fun t => t.get (CLU_DOORBELL_PEND c) = s.get (CLU_DOORBELL_PEND c) ||| m.toNat) ∧
     (Answers (.cluDoorack .host c m) s fun t =>
       (∀ i < 8, (t.get (CLU_DOORBELL_PEND c)).testBit i = ((s.get (CLU_DOORBELL_PEND c)).testBit i && !m.getLsbD i)) ∧
       Writes [(CLU_DOORBELL_PEND c).addr] [.resp] s t)))

/-- Cluster locks (R290 to R292) and the instruction SRAM (R299). An engine of the cluster whose PMP passes and that neither
holds nor waits takes a free lock by ACQ or TRY, or waits by ACQ; REL by the holder frees the lock with BROKEN as it stands,
or hands it to a waiter of the highest priority; FIX by the holder clears BROKEN; WITHDRAW ends a wait; any other lock
command, and every one of the host, changes no lock and CLU.ERR records the first. The host writes the SRAM of a cluster that
is wholly HALTED or UNASSIGNED, and a write at another time is discarded and recorded. Cache commands and contested lines
(R286, R288). XCCLEAN of a line that the engine's L1 holds modified stores it in the hall, and the line stays valid and clean
in L1 and L2; XCFLUSH also invalidates it in both; an address outside a readable window raises a load access fault. Two or
more L1s that ask for a line in the same cycle are served in round-robin order, and RGN.DIRCNT counts the set and its extra
round trips. Where the spec leaves a point open it follows the model's choices of log entries 53, 54, 60. -/
def Obligations.LocksSramAndCaches : Prop :=
  (∀ (s : State) (c : CluNo), s.rgnReady (c / 8) = true → s.ended = false →
     let err (reason lock i : Nat) (t : State) := t.flag (CLU_ERR_VALID c) = true ∧
       (s.flag (CLU_ERR_VALID c) = false → t.get (CLU_ERR_REASON c) = reason ∧ t.get (CLU_ERR_LOCK c) = lock ∧
         t.get (CLU_ERR_ENGINE c) = i) ∧ Writes [(CLU_ERR_VALID c).addr] [.resp] s t
     (∀ (f : EngNo) (j : Fin 64), f.val / 8 = c → s.passes (.engine f) (CLU_LOCK_CMD c j).addr true →
       let q := Requester.engine f
       let i := f.val % 8
       let lock := (CLU_LOCK_HELD c j).addr
       let refused (x : Instr) (reason : Nat) := Answers x s (err reason j i)
       let takes (x : Instr) := Answers x s fun t => t.holds c j i = true ∧ t.waitsFor c j i = false ∧
         t.flag (CLU_LOCK_BROKEN c j) = s.flag (CLU_LOCK_BROKEN c j)
       let idle := s.holds c j i = false ∧ s.waitsFor c j i = false
       (idle → s.flag (CLU_LOCK_HELD c j) = false →
         (s.get (CLU_LOCK_WAIT c j) = 0 → takes (.acq q c j)) ∧ takes (.tryLock q c j)) ∧
       (idle → s.flag (CLU_LOCK_HELD c j) = true →
         (Answers (.acq q c j) s fun t => t.waitsFor c j i = true ∧ t.flag (CLU_LOCK_HELD c j) = true ∧
           t.get (CLU_LOCK_HOLDER c j) = s.get (CLU_LOCK_HOLDER c j) ∧ Writes [lock] [.resp] s t) ∧
         Answers (.tryLock q c j) s fun t => Writes [] [.resp] s t) ∧
       (¬idle → refused (.acq q c j) 1 ∧ refused (.tryLock q c j) 1) ∧
       (s.holds c j i = true →
         (s.get (CLU_LOCK_WAIT c j) = 0 → Answers (.rel q c j) s fun t => t.flag (CLU_LOCK_HELD c j) = false ∧
           t.flag (CLU_LOCK_BROKEN c j) = s.flag (CLU_LOCK_BROKEN c j) ∧ Writes [lock] [.resp] s t) ∧
         (s.get (CLU_LOCK_WAIT c j) ≠ 0 → Answers (.rel q c j) s fun t => ∃ k < 8, t.holds c j k = true ∧
           s.waitsFor c j k = true ∧ t.waitsFor c j k = false ∧ t.flag (CLU_LOCK_BROKEN c j) = s.flag (CLU_LOCK_BROKEN c j) ∧
           ∀ x < 8, s.waitsFor c j x = true → s.lockPrio c x ≤ s.lockPrio c k) ∧
         (s.flag (CLU_LOCK_BROKEN c j) = true → Answers (.fix q c j) s fun t => t.flag (CLU_LOCK_BROKEN c j) = false ∧
           t.holds c j i = true ∧ Writes [lock] [.resp] s t)) ∧
       (s.holds c j i = false → refused (.rel q c j) 1) ∧
       (s.holds c j i = false ∨ s.flag (CLU_LOCK_BROKEN c j) = false → refused (.fix q c j) 1) ∧
       (s.waitsFor c j i = true → Answers (.withdraw q c j) s fun t => t.waitsFor c j i = false ∧ Writes [lock] [.resp] s t) ∧
       (s.waitsFor c j i = false → refused (.withdraw q c j) 1) ∧
       (∀ cmd : Fin 8, refused (.lockCmdIgnored q c j cmd) (if 1 ≤ cmd.val ∧ cmd.val ≤ 5 then 1 else 3)) ∧
       let hostRefused (x : Instr) := Answers x s (err 1 j 0)
       hostRefused (.acq .host c j) ∧ hostRefused (.tryLock .host c j) ∧ hostRefused (.rel .host c j) ∧
         hostRefused (.fix .host c j) ∧ hostRefused (.withdraw .host c j)) ∧
     (∀ (k : Fin 16384) (w : Word),
       (s.clusterHalted c = true → Answers (.isramWrite .host c k w) s fun t => t.isramWord c (4 * k) = w.toNat ∧
         (∀ m : Fin 16384, m ≠ k → t.isramWord c (4 * m) = s.isramWord c (4 * m)) ∧ Writes [] [.cores, .resp] s t) ∧
       (s.clusterHalted c = false → Answers (.isramWrite .host c k w) s (err 2 0 0)))) ∧
  ((∀ (s : State) (e : EngNo) (a : Word), s.estate e = 2 →
     (s.cleanTarget e a.toNat = none → (Answers (.xcclean e a) s fun t => t = s.accTrap e 5 a.toNat) ∧
       Answers (.xcflush e a) s fun t => t = s.accTrap e 5 a.toNat) ∧
     (∀ l, s.cleanTarget e a.toNat = some l →
       (∀ v, s.l1 e l = some v → v.mesi = 2 → v.data.length = 64 → Answers (.xcclean e a) s fun t =>
         t.bytes l 64 = v.data ∧ t.l1 e l = some { v with mesi := 0 } ∧
         t.l2 (e / 64) l = some { dirty := false, data := v.data, way := ((s.l2 (e / 64) l).map (·.way)).getD 0 } ∧ (t.engine e).pc = (s.engine e).pc + 4) ∧
       (Answers (.xcflush e a) s fun t => t.l1 e l = none ∧ t.l2 (e / 64) l = none ∧
         (t.engine e).pc = (s.engine e).pc + 4))) ∧
   (∀ (s : State) (r : RgnNo) (line : Fin 1048576) (evict : Option (Fin 64)) (reqs : List (Fin 64)),
     let order := roundRobin (s.region r).lastWinner (reqs.map (·.val))
     (order.length < 2 → Answers (.ownershipRequest r line evict reqs) s fun t =>
       t.word (RGN_DIRCNT_CONTEND r).addr = s.word (RGN_DIRCNT_CONTEND r).addr) ∧
     (2 ≤ order.length → Answers (.ownershipRequest r line evict reqs) s fun t =>
       (t.region r).lastWinner = order.getLastD 63 ∧
       t.get (RGN_DIRCNT_CONTEND r) = min (s.get (RGN_DIRCNT_CONTEND r) + 1) (2 ^ 16 - 1) ∧
       t.get (RGN_DIRCNT_EXTRA r) = min (s.get (RGN_DIRCNT_EXTRA r) + (order.length - 1)) (2 ^ 16 - 1))))

/-- What ends an Xfly instruction that has no element left, and what stops it before its first (R277, R279, R280, R282). On a
RUNNING engine with ACTIVE 0, a count of 0 completes at once with the table's result in rd, ACTIVE 0 and the pc behind it; a
misaligned source raises load address-misaligned with the address, and PACT keeps ACTIVE; a HALT before the first element
suspends the instruction with its operands loaded and leaves the engine HALTED (R268, R281); with ACTIVE 1 another OP or
SIZE, and a FIN length above 16, are illegal instructions. One element of SCAN, COPY and CMAC (R277, R279, R282, R284), on a
RUNNING engine with ACTIVE 0 whose operands are aligned. With a count of 1 the element's accesses, made in the state with the
loaded CSRs, and which leave the instruction in progress, decide: SCAN gives index 0 or 0xFFFFFFFF as the element agrees with
the pattern under XFMASK, COPY stores what it loaded and the CSRs advance past the element, STEP and a whole FIN block
replace XFMAC by AES of its XOR with the block (FIN: and with subkey K1); a key that the station cannot use raises exception
24 with the handle. Where the spec leaves a point open it follows the model's choices of log entries 54, 121. -/
def Obligations.XflyInstructions : Prop :=
  (∀ (s : State) (e : EngNo) (rd rs1 rs2 : Fin 32), s.estate e = 2 →
     let v := s.engine e
     let src := (v.getX rs1).toNat
     let ends (c : Instr) (w : Word) := Answers c s fun t =>
       (rd.val ≠ 0 → (t.engine e).getX rd = w) ∧ (∀ r : Nat, r ≠ rd.val → (t.engine e).getX r = v.getX r) ∧
       bitsOf (t.xcsr e csrXFST) 0 1 = 0 ∧ t.xcsr e csrXFIDX = 0 ∧ t.xcsr e csrXFSRC = v.getX rs1 ∧
       (t.engine e).pc = v.pc + 4 ∧ Writes [(ENG_STAT_XACTIVE e).addr] [.cores] s t
     let misaligned (c : Instr) (op size : Nat) := Answers c s fun t =>
       (t.engine e).getCsr csrMcause = 4 ∧ (t.engine e).getCsr csrMtval = v.getX rs1 ∧
       (t.engine e).getCsr csrMepc = v.pc ∧ bitsOf (t.xcsr e csrXFST) 0 2 = 2 ∧ bitsOf (t.xcsr e csrXFST) 2 3 = op ∧
       bitsOf (t.xcsr e csrXFST) 5 2 = size ∧ (t.engine e).user = false ∧ ∀ r : Nat, (t.engine e).getX r = v.getX r
     let halted (c : Instr) := Answers c s fun t => t.estate e = 1 ∧ (t.engine e).pc = v.pc ∧
       (t.engine e).getCsr csrMepc = v.pc ∧ bitsOf (t.xcsr e csrXFST) 0 2 = 2 ∧ t.xcsr e csrXFCNT = v.getX rd ∧
       t.xcsr e csrXFSRC = v.getX rs1 ∧ ∀ r : Nat, (t.engine e).getX r = v.getX r
     let illegal (c : Instr) (w : Word) := Answers c s fun t => t = s.trap e 2 w false
     (bitsOf (s.xcsr e csrXFST) 0 1 = 0 →
       (∀ size : Fin 3, (src % 2 ^ size.val = 0 → v.getX rd = 0 → ends (.xfScan e size rd rs1 rs2 .run) 0xFFFFFFFF) ∧
         (src % 2 ^ size.val ≠ 0 → ∀ stop, misaligned (.xfScan e size rd rs1 rs2 stop) 0 size)) ∧
       (∀ size : Fin 4, (src % 2 ^ size.val = 0 → (v.getX rs2).toNat % 2 ^ size.val = 0 → v.getX rd = 0 →
           ends (.xfCopy e size rd rs1 rs2 .run) 0) ∧
         (src % 2 ^ size.val ≠ 0 → ∀ stop, misaligned (.xfCopy e size rd rs1 rs2 stop) 1 size)) ∧
       (src % 4 = 0 → v.getX rd = 0 → ends (.xfCmacStep e rd rs1 rs2 .run) 0 ∧ ends (.xfPack e rd rs1 rs2 .run) 0 ∧
         ends (.xfUnpack e rd rs1 rs2 .run) 0) ∧
       (src % 4 ≠ 0 → ∀ stop, misaligned (.xfCmacStep e rd rs1 rs2 stop) 2 0 ∧ misaligned (.xfPack e rd rs1 rs2 stop) 3 0 ∧
         misaligned (.xfUnpack e rd rs1 rs2 stop) 4 0) ∧
       (v.getX rd ≠ 0 →
         (∀ size : Fin 3, src % 2 ^ size.val = 0 → halted (.xfScan e size rd rs1 rs2 (.halt 0))) ∧
         (∀ size : Fin 4, src % 2 ^ size.val = 0 → (v.getX rs2).toNat % 2 ^ size.val = 0 →
           halted (.xfCopy e size rd rs1 rs2 (.halt 0))) ∧
         (src % 4 = 0 → halted (.xfCmacStep e rd rs1 rs2 (.halt 0)) ∧ halted (.xfPack e rd rs1 rs2 (.halt 0)) ∧
           halted (.xfUnpack e rd rs1 rs2 (.halt 0)) ∧
           ((v.getX rd).toNat ≤ 16 → halted (.xfCmacFin e rd rs1 rs2 (.halt 0))))) ∧
       (16 < (v.getX rd).toNat → ∀ stop, illegal (.xfCmacFin e rd rs1 rs2 stop) (xfWord 2 1 rd rs1 rs2))) ∧
     (bitsOf (s.xcsr e csrXFST) 0 1 = 1 → ∀ stop,
       let other (op size : Nat) := bitsOf (s.xcsr e csrXFST) 2 3 ≠ op ∨ bitsOf (s.xcsr e csrXFST) 5 2 ≠ size
       (∀ size : Fin 3, other 0 size → illegal (.xfScan e size rd rs1 rs2 stop) (xfWord 0 size rd rs1 rs2)) ∧
       (∀ size : Fin 4, other 1 size → illegal (.xfCopy e size rd rs1 rs2 stop) (xfWord 1 size rd rs1 rs2)) ∧
       (other 2 0 → illegal (.xfCmacStep e rd rs1 rs2 stop) (xfWord 2 0 rd rs1 rs2)) ∧
       (other 2 1 → illegal (.xfCmacFin e rd rs1 rs2 stop) (xfWord 2 1 rd rs1 rs2)) ∧
       (other 3 0 → illegal (.xfPack e rd rs1 rs2 stop) (xfWord 3 0 rd rs1 rs2)) ∧
       (other 4 0 → illegal (.xfUnpack e rd rs1 rs2 stop) (xfWord 4 0 rd rs1 rs2)))) ∧
  (∀ (s : State) (e : EngNo) (rd rs1 rs2 : Fin 32), s.estate e = 2 → bitsOf (s.xcsr e csrXFST) 0 1 = 0 →
     let v := s.engine e
     let src := (v.getX rs1).toNat
     let mac (t : State) (m : List Byte) := ∀ k < 4, t.xcsr e (csrXFMAC + k) = BitVec.ofNat 32 (leNat ((m.drop (4 * k)).take 4))
     let done (t : State) (w : Word) := (rd.val ≠ 0 → (t.engine e).getX rd = w) ∧ bitsOf (t.xcsr e csrXFST) 0 1 = 0
     (∀ (size : Fin 3) (s1 s2 : State) (w : Nat), src % 2 ^ size.val = 0 →
       s.xBegin e 0 size 1 src (v.getX rs2) csrXFARG = some s1 → v.getX rd = 1 →
       s1.xLoad e src (2 ^ size.val) = (.go s2, w) → s2.xBusy e = true →
       Answers (.xfScan e size rd rs1 rs2 .run) s fun t => t.xcsr e csrXFIDX = s2.xcsr e csrXFIDX + 1 ∧
         done t (if (BitVec.ofNat 32 w &&& s2.xcsr e csrXFMASK) = (s2.xcsr e csrXFARG &&& s2.xcsr e csrXFMASK)
           then s2.xcsr e csrXFIDX else 0xFFFFFFFF)) ∧
     (∀ (size : Fin 4) (s1 s2 s3 : State) (w x : Nat), src % 2 ^ size.val = 0 → (v.getX rs2).toNat % 2 ^ size.val = 0 →
       s.xBegin e 1 size 1 src (v.getX rs2) csrXFDST = some s1 → v.getX rd = 1 →
       s1.xLoad e src (2 ^ size.val) = (.go s2, w) →
       s2.xStore e (s2.xcsr e csrXFDST).toNat (leBytes (2 ^ size.val) w) = (.go s3, x) → s3.xBusy e = true →
       Answers (.xfCopy e size rd rs1 rs2 .run) s fun t => done t 0 ∧ t.mem = s3.mem ∧
         t.xcsr e csrXFDST = s2.xcsr e csrXFDST + BitVec.ofNat 32 (2 ^ size.val) ∧
         t.xcsr e csrXFSRC = s3.xcsr e csrXFSRC + BitVec.ofNat 32 (2 ^ size.val)) ∧
     (∀ (s1 s2 : State) (w : Nat), src % 4 = 0 →
       (s.xBegin e 2 0 1 src (v.getX rs2) csrXFARG = some s1 → v.getX rd = 1 →
         (s1.xKeyOk e = true → s1.xLoad e src 16 = (.go s2, w) → s2.xBusy e = true →
           Answers (.xfCmacStep e rd rs1 rs2 .run) s fun t =>
           done t 0 ∧ mac t (aes (s2.keyOf (s2.xcsr e csrXFARG).toNat) (xorB (s2.xMac e) (leBytes 16 w)))) ∧
         (s1.xKeyOk e = false → Answers (.xfCmacStep e rd rs1 rs2 .run) s fun t =>
           (t.engine e).getCsr csrMcause = 24 ∧ (t.engine e).getCsr csrMtval = s1.xcsr e csrXFARG ∧ t.xMac e = s1.xMac e)) ∧
       (s.xBegin e 2 1 16 src (v.getX rs2) csrXFARG = some s1 → v.getX rd = 16 → s1.xKeyOk e = true →
         s1.xLoad e src 16 = (.go s2, w) → Answers (.xfCmacFin e rd rs1 rs2 .run) s fun t =>
           done t 0 ∧ mac t (aes (s2.keyOf (s2.xcsr e csrXFARG).toNat)
             (xorB (s2.xMac e) (xorB (leBytes 16 w) (cmacK1 (s2.keyOf (s2.xcsr e csrXFARG).toNat))))))))

/-- A hall access (R296, R300, R303, R308, R310, R314, R315). When no word that the host touches is held, the host reads the
bytes of the words that are open to it and 0 for the others, and a single-bit error is counted; a poisoned word reaches the
host as poisoned; a write stores its bytes, and a partial write of a poisoned word is discarded. A master that no unit in it
is owned by or granted to changes no memory, its read gives 0, and HALL.ERR keeps the first such access; an access to a unit
that clears, or that its new owner waits for, or to a hall that is not ready, is held, and so is an engine's without a hall
credit. A store of the host leaves every other byte as the write-back of dirty cached lines leaves it (R287). Where the spec
leaves a point open it follows the model's choices of log entries 62, 64, 116, 117, 118. -/
def Obligations.HallAccesses : Prop :=
  ∀ (s : State), s.ended = false →
    (∀ (a : Nat), a < 0x4000000 → s.ready (8 + hallOf a) = true →
      (∀ (n : Nat), 1 ≤ n → a + n ≤ 0x4000000 →
        let verdict (w : Nat) := s.verdict (some 64) (max a (w * 8)) false
        let seen := leNat ((List.range n).map fun i => if verdict ((a + i) / 8) = 2 then 0 else s.byte (a + i))
        ((∀ w ∈ wordsOf a n, verdict w ≠ 1 ∧ s.isPoison w = false) →
          (Answers (.hallAccess { master := .host, addr := a, acc := .read n }) s fun t =>
            t.resp = some (.data seen) ∧ t.mem = s.mem) ∧
          ∀ w ∈ wordsOf a n, Answers (.hallAccess { master := .host, addr := a, acc := .read n, single := [w] }) s fun t =>
            t.resp = some (.data seen) ∧ t.mem = s.mem ∧
            t.get (HALL_ECC_CE (hallOf (w * 8))) = min (s.get (HALL_ECC_CE (hallOf (w * 8))) + 1) 65535) ∧
        (∀ w ∈ wordsOf a n, (∀ x ∈ wordsOf a n, verdict x = 0) → s.firstPoison a n = some w →
          Answers (.hallAccess { master := .host, addr := a, acc := .read n }) s fun t =>
            t.resp = some (.poisoned (leNat (s.bytes a n))) ∧ t.mem = s.mem ∧
            ((∀ x ∈ wordsOf a n, s.isPoison x = true → x = w) →
              t.get (HALL_ECC_UE (hallOf (w * 8))) = min (s.get (HALL_ECC_UE (hallOf (w * 8))) + 1) 65535) ∧
            t.flag (HALL_UE_ADDR_VALID (hallOf (w * 8))) = true ∧
            (s.flag (HALL_UE_ADDR_VALID (hallOf (w * 8))) = false →
              t.get (HALL_UE_ADDR_WORD (hallOf (w * 8))) = w % 2 ^ 21 ∧ t.get (HALL_UE_ADDR_MASTER (hallOf (w * 8))) = 16))) ∧
      (∀ (bs : List Byte), bs ≠ [] → a + bs.length ≤ 0x4000000 →
        (∀ w ∈ wordsOf a bs.length, s.verdict (some 64) (max a (w * 8)) true = 0) →
        let clean := s.each (linesOf a bs.length) fun s l => s.snoop l
        let c : Instr := .hallAccess { master := .host, addr := a, acc := .write bs }
        ((∀ w ∈ wordsOf a bs.length, clean.isPoison w = false) → Answers c s fun t => t.resp = some .done ∧
          (∀ i (h : i < bs.length), t.byte (a + i) = bs[i]) ∧
          ∀ x, (x < a ∨ a + bs.length ≤ x) → t.byte x = clean.byte x) ∧
        (a % 8 + bs.length ≤ 8 → bs.length < 8 → clean.isPoison (a / 8) = true → Answers c s fun t =>
          t.resp = some .done ∧ t.mem = clean.mem ∧ t.isPoison (a / 8) = true))) ∧
    (∀ (m : HallMaster) (a : Nat) (acc : HallAcc), (∀ e, m ≠ .engine e) → a + acc.size ≤ 0x4000000 → 1 ≤ acc.size →
      let r : HallReq := { master := m, addr := a, acc := acc }
      let verdict (w : Nat) := s.verdict (s.masterCode m) (max a (w * 8)) acc.writes
      ((∀ w ∈ wordsOf a acc.size, verdict w = 2) → (m = .host → s.ready (8 + hallOf a) = true) →
        Answers (.hallAccess r) s fun t =>
        t.mem = s.mem ∧ (m = .host → t.resp = some (if acc.writes then .done else .data 0)) ∧
        t.flag HALL_ERR_VALID = true ∧ (s.flag HALL_ERR_VALID = false →
          t.get HALL_ERR_UNIT = unitOf a ∧ t.get HALL_ERR_MASTER = m.number ∧ t.get HALL_ERR_ADDR_OFFSET = a ∧
          t.flag HALL_ERR_ADDR_WRITE = acc.writes ∧
          t.get HALL_ERR_REASON = if s.get (HALL_OWN_CUR (unitOf a)) = 127 then 2 else 1)) ∧
      ((∀ w ∈ wordsOf a acc.size, verdict w ≠ 2) →
        ((∃ w ∈ wordsOf a acc.size, verdict w = 1) ∨ s.ready (8 + hallOf a) = false) →
        Answers (.hallAccess r) s fun t => t.resp = none ∧ t.mem = s.mem ∧ ∃ c,
          t.halls.held = s.halls.held ++ [{ req := r, since := s.ticks, clearing := c }] ∧
          (c = true ↔ ∃ w ∈ wordsOf a acc.size, verdict w = 1 ∧
            s.flag (HALL_OWN_CLEARING (unitOf (max a (w * 8)))) = true))) ∧
    (∀ (e : EngNo) (a : Nat), a < 0x4000000 → a % 4 = 0 → s.estate e = 2 → s.ready (8 + hallOf a) = true →
      let address := 0xA0000000 + a
      let r : HallReq := { master := .engine e, addr := address, acc := .read 4 }
      let load : Instr := .hallAccess r
      let credit := s.outstanding e = 0 ∨ s.outstanding e < s.get (RGN_PART_CRED (e / 64) (e / 8 % 8))
      (s.engineMay e a 1 = true → s.engineMay e (a + 1) 1 = true → s.engineMay e (a + 2) 1 = true →
        s.engineMay e (a + 3) 1 = true → (s.engine e).pmpOk address 4 1 = true →
        (¬credit → Answers load s fun t => t.resp = none ∧ t.mem = s.mem ∧
          t.halls.held = s.halls.held ++ [{ req := r, since := s.ticks, clearing := false }]) ∧
        (credit → s.verdict (s.stationOf e) a false = 0 → s.isPoison (a / 8) = false → Answers load s fun t =>
          t.resp = some (.data (s.memWord a).toNat) ∧ t.mem = s.mem) ∧
        (credit → s.verdict (s.stationOf e) a false = 2 → Answers load s fun t => t.resp = some .fault ∧ t.mem = s.mem ∧
          (t.engine e).getCsr csrMcause = 5 ∧ (t.engine e).getCsr csrMtval = BitVec.ofNat 32 address)) ∧
      (s.engineMay e a 1 = false → Answers load s fun t => t.resp = some .fault ∧ t.mem = s.mem ∧
        (t.engine e).getCsr csrMcause = 5 ∧ t.word HALL_ERR_VALID.addr = s.word HALL_ERR_VALID.addr)) ∧
    ∀ (w : Fin 8388608), Answers (.eccWriteback w) s fun t =>
      smapFind (fun _ => false) t.halls.fix w.val = false ∧ t.mem = s.mem ∧ Writes [] [.halls] s t

/-- Handover, revocation and clearing (R306 to R310), and the background test (R317, R318). Where the spec leaves a point
open it follows the model's choices of log entries 62, 120. -/
def Obligations.HandoverAndRevocation : Prop :=
  (∀ (s : State) (u : Fin 4096) (m1 : Fin 64) (clear : Bool), s.ended = false → s.get CHIP_READY_HALL ≠ 0 →
    let c : Instr := .hallHandover .host u m1 clear
    let us := (List.range (m1.val + 1)).map (u.val + ·)
    let phase := s.get IMG_STATUS_PHASE
    let refused (k : Nat) := Answers c s fun t => t.get HALL_HO_STAT_REFUSE = k ∧
      t.get HALL_HO_STAT_STATE = (if k = 1 then s.get HALL_HO_STAT_STATE else 3) ∧
      ∀ x < 4096, t.word (HALL_OWN_CUR x).addr = s.word (HALL_OWN_CUR x).addr
    (s.halls.handover.isSome = true → refused 1) ∧
    (s.halls.handover = none →
      (4095 < u.val + m1.val → refused 2) ∧
      (u.val + m1.val ≤ 4095 →
        ((∃ x ∈ us, s.get (HALL_OWN_ALT x) = 127) → refused 3) ∧
        ((∀ x ∈ us, s.get (HALL_OWN_ALT x) ≠ 127) →
          ((∃ x ∈ us, s.flag (HALL_OWN_CLEARING x) = true) → refused 4) ∧
          ((∀ x ∈ us, s.flag (HALL_OWN_CLEARING x) = false) → s.halls.revoke = none →
            (1 ≤ phase → phase ≤ 5 → refused 5) ∧
            (phase = 0 ∨ 5 < phase → Answers c s fun t => t.get HALL_HO_STAT_STATE = 1 ∧ t.get HALL_HO_STAT_REFUSE = 0 ∧
              t.halls.handover = some (u.val, m1.val + 1, clear) ∧
              (∀ x ∈ us, t.get (HALL_OWN_CUR x) = s.get (HALL_OWN_CUR x) ∧
                t.flag (HALL_OWN_CLEARING x) = clear))))))) ∧
  (∀ (s : State) (u n : Nat) (clear : Bool), s.halls.handover = some (u, n, clear) → s.halls.held = [] → 1 ≤ n →
    u + n ≤ 4096 → Answers .handoverDone s fun t => t.halls.handover = none ∧ t.get HALL_HO_STAT_STATE = 2 ∧
      (∀ x, u ≤ x → x < u + n → t.get (HALL_OWN_CUR x) = s.otherOwner x ∧ t.flag (HALL_OWN_CLEARING x) = false) ∧
      (∀ x < 4096, x < u ∨ u + n ≤ x → t.word (HALL_OWN_CUR x).addr = s.word (HALL_OWN_CUR x).addr) ∧
      ∀ a < 0x4000000, t.byte a =
        if u ≤ unitOf a ∧ unitOf a < u + n ∧ s.flag (HALL_OWN_CLEARING (unitOf a)) = true then 0 else s.byte a) ∧
  (∀ (s : State), s.halls.handover = none → Answers .handoverDone s fun t => t = s) ∧
  (∀ (s : State) (owner dest : Fin 128), s.ended = false → s.get CHIP_READY_HALL ≠ 0 →
    let legal := s.halls.revoke = none ∧ owner.val ≤ 64 ∧ (dest.val = 64 ∨ dest.val = 125 ∨ dest.val = 127)
    (¬legal → Answers (.hallRevoke .host owner dest) s fun t => t.flag HALL_RV_STAT_CMDERR = true ∧
      Writes [HALL_RV_STAT_CMDERR.addr] [.resp] s t) ∧
    (legal → s.halls.handover = none → Answers (.hallRevoke .host owner dest) s fun t =>
      t.get HALL_RV_STAT_STATE = 1 ∧ t.get HALL_RV_STAT_OWNER = owner ∧
      t.get HALL_RV_STAT_UNITS = ((List.range 4096).filter fun u => s.get (HALL_OWN_CUR u) = owner).length ∧ t.mem = s.mem ∧
      ∀ x < 4096, t.get (HALL_OWN_CUR x) = s.get (HALL_OWN_CUR x) ∧
        (s.get (HALL_OWN_CUR x) = owner → t.flag (HALL_OWN_CLEARING x) = true ∧
          t.verdict (some owner.val) (8 * (x % 64) + 2 ^ 20 * (x / 64 % 16) + 2 ^ 24 * (x / 1024)) false = 2))) ∧
  (∀ (s : State) (owner dest : Nat) (us : List Nat), s.halls.revoke = some (owner, dest, us) → s.halls.held = [] →
    owner ≤ 64 → (dest = 64 ∨ dest = 125 ∨ dest = 127) → (∀ x ∈ us, x < 4096) →
    Answers .revocationDone s fun t => t.halls.revoke = none ∧ t.get HALL_RV_STAT_STATE = 2 ∧
      (∀ x ∈ us, t.flag (HALL_OWN_CLEARING x) = false ∧ t.flag (HALL_OWN_REVOKED x) = true ∧
        t.get (HALL_OWN_CUR x) =
          if dest = 125 then (if s.get (HALL_OWN_OWNER x) = owner then 127 else s.get (HALL_OWN_OWNER x)) else dest) ∧
      (∀ x < 4096, x ∉ us → t.word (HALL_OWN_CUR x).addr = s.word (HALL_OWN_CUR x).addr) ∧
      ∀ a < 0x4000000, t.byte a = if unitOf a ∈ us then 0 else s.byte a) ∧
  (∀ (s : State) (u : Fin 4096),
    (s.flag (HALL_OWN_CLEARING u) = false → Answers (.unitClearDone u) s fun t => t = s) ∧
    (s.flag (HALL_OWN_CLEARING u) = true → s.halls.held = [] → Answers (.unitClearDone u) s fun t =>
      t.flag (HALL_OWN_CLEARING u) = false ∧ t.get (HALL_OWN_CUR u) = s.get (HALL_OWN_CUR u) ∧
      ∀ a < 0x4000000, t.byte a = if unitOf a = u then 0 else s.byte a)) ∧
  ∀ (s : State) (h : Fin 4) (failed : Bool),
    let pos := s.get (HALL_TEST_STAT_POS h)
    let w := h.val * 2 ^ 21 + pos
    let runs := s.flag (HALL_TEST_CFG_EN h) = true ∧ s.testDue h = true ∧ s.ready (8 + h) = true ∧ (s.pwr.state = .a0 ∨ s.pwr.state = .a1)
    let spares := smapFind (fun _ => 0) s.halls.spares (64 * h.val + w % 64)
    (¬runs → Answers (.testWord h failed) s fun t => t = s) ∧
    (runs → Answers (.testWord h failed) s fun t => t.mem = s.mem ∧ t.get (HALL_TEST_STAT_POS h) = (pos + 1) % 2 ^ 21 ∧
      smapFind (fun _ => none) t.halls.tested h = some s.now ∧
      (failed = false → Writes [(HALL_TEST_STAT_POS h).addr] [.halls] s t) ∧
      (failed = true → s.flag (HALL_OWN_CLEARING (unitOf (w * 8))) = false →
        (spares < 4 → t.get (HALL_TEST_STAT_REMAP h) = min (s.get (HALL_TEST_STAT_REMAP h) + 1) 255) ∧
        (4 ≤ spares → t.flag (HALL_TEST_STAT_EXHAUST h) = true)))

/-- Commands that steer the clock (R323, R326 to R329, R338, R339), from the host or an engine of the time station whose PMP
passes, while TIME is usable: INC is held by its low word, and formed and clamped by its high word; a STEP waits for its
tick, or is refused with the jump flag and OFFS; LOCK and UNLOCK set SYNC; NONCE draws a nonce; TOKEN verifies and consumes
it; a command that finds a step waiting, and an unknown one, set CMDERR. Any other engine takes a store access fault and
changes nothing else. Where the spec leaves a point open it follows the model's choices of log entries 65, 66, 67. -/
def Obligations.ClockCommands : Prop :=
  (∀ (s : State) (q : Requester) (w : Word), s.ended = false → s.ready 4 = true →
    (q = .host ∨ ∃ e, q = .engine e ∧ s.flag TIME_CFG_TSTN_EN = true ∧ s.stationOf e = some (s.get TIME_CFG_TSTN)) →
    (∀ off ∈ [TIME_INC_INC.addr, TIME_INC_INC.addr + 4, TIME_CTRL_CMD.addr], s.passes q off true) →
    (Answers (.incLowWrite q w) s fun t => t.time.incHeld = some w ∧ Writes [] [.time, .resp] s t) ∧
    (let low := match s.time.incHeld with
        | some v => v.toNat
        | none => s.get TIME_INC_INC % 2 ^ 32
      let v := w.toNat % 4 * 2 ^ 32 + low
      Answers (.incHighWrite q w) s fun t => t.time.incHeld = none ∧
        t.get TIME_INC_INC = (if v < 0x1FF7CED92 then 0x1FF7CED92 else if 0x20083126E < v then 0x20083126E else v) ∧
        t.time.ns = s.time.ns ∧
        (0x1FF7CED92 ≤ v → v ≤ 0x20083126E → Writes [TIME_INC_INC.addr, TIME_INC_INC.addr + 4] [.time, .resp] s t) ∧
        (v < 0x1FF7CED92 ∨ 0x20083126E < v → t.flag TIME_STAT_CLAMP = true)) ∧
    (s.time.stepReq = none →
      let o := s.getInt TIME_OFFS_NS
      let inside := 0 ≤ (s.now : Int) + o ∧ (s.now : Int) + o < 2 ^ 48 * 1000000000
      let jth := if s.get TIME_JTH_NS = 0 then 1000 else s.get TIME_JTH_NS
      let waits (c : Instr) (forced : Bool) := Answers c s fun t => t.time.stepReq = some (o, forced) ∧ t.now = s.now ∧
        Writes [] [.time, .resp] s t
      let refused (c : Instr) := Answers c s fun t => t.time = s.time ∧ t.flag TIME_STAT_JREF = true ∧
        t.get TIME_JREF_NS = s.get TIME_OFFS_NS
      (¬inside → refused (.step q) ∧ refused (.stepForced q)) ∧
      (inside → o.natAbs ≤ jth → waits (.step q) false ∧ waits (.stepForced q) false) ∧
      (inside → jth < o.natAbs → refused (.step q) ∧
        (s.get TIME_STAT_SYNC = 0 → s.get TIME_STAT_TRUST ≠ 1 → waits (.stepForced q) true) ∧
        (s.get TIME_STAT_SYNC ≠ 0 ∨ s.get TIME_STAT_TRUST = 1 → refused (.stepForced q))) ∧
      (Answers (.lock q) s fun t => t.get TIME_STAT_SYNC = 1 ∧ t.time.lockTick = s.ticks ∧ t.now = s.now ∧
        t.get TIME_STAT_TRUST = s.get TIME_STAT_TRUST) ∧
      (Answers (.unlock q) s fun t => t.get TIME_STAT_SYNC = 0 ∧ t.time = s.time ∧
        t.get TIME_STAT_TRUST = s.get TIME_STAT_TRUST) ∧
      (Answers (.nonce q) s fun t => t.get TIME_NONCE_N = s.draw.1.toNat ∧ t.time.nonceTick = some s.ticks ∧
        t.get TIME_STAT_TRUST = s.get TIME_STAT_TRUST) ∧
      let r := s.tokenResult
      let e := (s.now : Int) - (beAt s.token 0 6 * 1000000000 + beAt s.token 6 4 : Nat)
      Answers (.token q) s fun t => t.get TIME_STAT_TOKRES = r ∧ t.get TIME_NONCE_N = 0 ∧ t.time.nonceTick = none ∧
        t.now = s.now ∧ (s.nonceValid = false → r = 3) ∧
        t.get TIME_STAT_TRUST = (if r = 1 then 1 else if r = 4 then 0 else s.get TIME_STAT_TRUST) ∧
        (r = 1 ∨ r = 4 → t.getInt TIME_SEC_ERR_NS = (s.setInt TIME_SEC_ERR_NS e).getInt TIME_SEC_ERR_NS) ∧
        (r = 1 → t.get TIME_SEC_LAST_NS = nsOf s.now ∧ t.get TIME_SEC_LAST_SEC = secOf s.now % 2 ^ 32) ∧
        (r ≠ 1 → t.get TIME_SEC_LAST_NS = s.get TIME_SEC_LAST_NS ∧ t.get TIME_SEC_LAST_SEC = s.get TIME_SEC_LAST_SEC)) ∧
    let ignored (c : Instr) := Answers c s fun t => t.flag TIME_STAT_CMDERR = true ∧ Writes [TIME_STAT_CMDERR.addr] [.resp] s t
    (∀ cmd : Fin 8, (cmd.val ≠ 0 → ignored (.timeCmdIgnored q cmd)) ∧
      (cmd.val = 0 → Answers (.timeCmdIgnored q cmd) s fun t => Writes [] [.resp] s t)) ∧
    (s.time.stepReq.isSome = true → ignored (.step q) ∧ ignored (.stepForced q) ∧ ignored (.lock q) ∧ ignored (.unlock q) ∧
      ignored (.nonce q) ∧ ignored (.token q))) ∧
  ∀ (s : State) (e : EngNo) (w : Word), s.flag TIME_CFG_TSTN_EN = false ∨ s.stationOf e ≠ some (s.get TIME_CFG_TSTN) →
    let traps (c : Instr) (off : Nat) := Answers c s fun t => t = s.accessTrap e (0x20000000 + off) true
    traps (.incLowWrite (.engine e) w) 0x5200010 ∧ traps (.incHighWrite (.engine e) w) 0x5200014 ∧
      traps (.step (.engine e)) 0x5200000 ∧ traps (.stepForced (.engine e)) 0x5200000 ∧ traps (.lock (.engine e)) 0x5200000 ∧
      traps (.unlock (.engine e)) 0x5200000 ∧ traps (.nonce (.engine e)) 0x5200000 ∧ traps (.token (.engine e)) 0x5200000

/-- What time does (R326, R328 to R330, R336, R338): a waiting step moves local time at its tick, and forced also the TCMP of
every engine, EXPIRED trust and running censuses; the SYNC timer, the nonce, the trust, the vault load at a second boundary
and the load of local time from a valid or a not valid vault time act when due, and change nothing before. Where the spec
leaves a point open it follows the model's choices of log entry 65. -/
def Obligations.ClockEvents : Prop :=
  ∀ (s : State),
    (s.time.stepReq = none → Answers .stepApply s fun t => t = s) ∧
    (∀ (o : Int) (forced : Bool), s.time.stepReq = some (o, forced) → 0 ≤ (s.now : Int) + o → Answers .stepApply s fun t =>
      (t.now : Int) = s.now + o ∧ t.time.stepReq = none ∧ t.ticks = s.ticks ∧ t.time.frac = s.time.frac ∧ (forced = false → t.mem = s.mem) ∧
      (∀ e : EngNo, t.get (ENG_TCMP_NS e) =
        if forced then (((s.get (ENG_TCMP_NS e) : Int) + o) % 2 ^ 32).toNat else s.get (ENG_TCMP_NS e)) ∧
      t.get TIME_STAT_TRUST = (if forced ∧ s.get TIME_STAT_TRUST = 2 then 0 else s.get TIME_STAT_TRUST) ∧
      (forced = true → ∀ n : PortNo, s.get (OBS_STAT_CEN n) = 1 → t.get (OBS_STAT_CEN n) ≠ 1)) ∧
    (let tmo := 500000 * (if s.get TIME_CFG_SYNC_TMO = 0 then 2000 else s.get TIME_CFG_SYNC_TMO);
      (s.get TIME_STAT_SYNC = 1 → s.time.lockTick + tmo ≤ s.ticks → Answers .syncTimeout s fun t => t.get TIME_STAT_SYNC = 0 ∧
        t.time = s.time) ∧
      (s.get TIME_STAT_SYNC = 0 ∨ s.ticks < s.time.lockTick + tmo → Answers .syncTimeout s fun t => t = s)) ∧
    (∀ n, s.time.nonceTick = some n →
      (n + 50000000 ≤ s.ticks → Answers .nonceExpiry s fun t => t.time.nonceTick = none ∧ t.get TIME_NONCE_N = 0 ∧
        Writes [TIME_NONCE_N.addr, TIME_NONCE_N.addr + 4] [.time] s t) ∧
      (s.ticks < n + 50000000 → Answers .nonceExpiry s fun t => t = s)) ∧
    (let hold := if s.get TIME_SEC_HOLD_S = 0 then 604800 else s.get TIME_SEC_HOLD_S
      let last := s.get TIME_SEC_LAST_SEC * 1000000000 + s.get TIME_SEC_LAST_NS
      let now := secOf s.now % 2 ^ 32 * 1000000000 + nsOf s.now;
      (s.get TIME_STAT_TRUST = 1 → last + hold * 1000000000 ≤ now → Answers .trustExpiry s fun t =>
        t.get TIME_STAT_TRUST = 2 ∧ t.time = s.time ∧ t.get TIME_STAT_SYNC = s.get TIME_STAT_SYNC) ∧
      (s.get TIME_STAT_TRUST ≠ 1 ∨ now < last + hold * 1000000000 → Answers .trustExpiry s fun t => t = s)) ∧
    (s.ready 4 = true → secOf s.before ≠ secOf s.now → Answers .vaultTimeLoad s fun t =>
      t.get TIME_VT_SEC = secOf s.now % 2 ^ 48 ∧ t.get TIME_VT_FRAC = 0 ∧ t.flag TIME_VT_VALID = s.flag WATCH_STAT_XTAL ∧
      t.now = s.now ∧ Writes [TIME_VT_FRAC.addr, TIME_VT_FRAC.addr + 4] [.time] s t) ∧
    (s.ready 4 = false ∨ secOf s.before = secOf s.now → Answers .vaultTimeLoad s fun t => t = s) ∧
    (s.ready 4 = false → s.asleep = false → Answers .localTimeRestore s fun t => t.ready 4 = true ∧ t.time.frac = 0 ∧
      t.ticks = s.ticks ∧
      t.now = if s.flag TIME_VT_VALID then s.get TIME_VT_SEC * 1000000000 + s.get TIME_VT_FRAC * 1000000000 / 2 ^ 15 else 0) ∧
    (s.ready 4 = true ∨ s.asleep = true → Answers .localTimeRestore s fun t => t = s)

/-- How the curator takes fault occurrences (R363 to R366, R370, R371, R377, R378). The base severity is raised by the window
rules whose count is reached, unless the kind is fixed. A report that waits alone is counted by severity; at S1 to S3, or
when it runs SAFE, it takes a free first-fault record, and one more occurrence of its entry or the lowest free entry, or sets
OVF in a full table; SAFE begins the safe state. Of two reports of one cycle the more severe, then the lower source, then the
lower kind is first, and the other goes to CUR.COIN. A CURATOR_SELF fault enters the safe state at once. Where the spec
leaves a point open it follows the model's choices of log entries 64, 70, 71. -/
def Obligations.FaultOccurrences : Prop :=
  (∀ (s : State) (f : FaultReport),
    let rule (w : Nat) := s.get (CUR_WRULE0_N w) ≠ 0 ∧ s.get (CUR_WRULE0_KIND w) = f.kind ∧
      (s.get (CUR_WRULE0_SRC w) = 2047 ∨ s.get (CUR_WRULE0_SRC w) = f.src) ∧
      s.get (CUR_WRULE0_N w) ≤ (s.cur.occ.filter fun o => o.1 = f.kind ∧
        (s.get (CUR_WRULE0_SRC w) = 2047 ∨ o.2.1 = s.get (CUR_WRULE0_SRC w)) ∧ o.2.2 ≤ f.nso ∧
        f.nso < o.2.2 + max 1 (s.get (CUR_WRULE1_WIN w)) * 1000000).length
    let base := s.get (CUR_KIND_SEV f.kind)
    (s.flag (CUR_KIND_FIXED f.kind) = true → s.severity f = base) ∧
    (s.flag (CUR_KIND_FIXED f.kind) = false → base ≤ s.severity f ∧
      (∀ w < 64, rule w → s.get (CUR_WRULE0_ESC w) ≤ s.severity f) ∧
      (s.severity f = base ∨ ∃ w < 64, rule w ∧ s.severity f = s.get (CUR_WRULE0_ESC w)))) ∧
  (∀ (s : State), s.cur.inbox = [] → Answers .faultOccurrence s fun t => t = s) ∧
  (∀ (s : State) (f : FaultReport), s.cur.inbox = [f] → f.src < 2048 → f.kind < 256 → f.master < 2048 → f.acc < 8 →
    let c := { s with cur := { s.cur with inbox := [], occ := (f.kind, f.src, f.nso) :: s.cur.occ } }
    let sev := c.severity f
    let r := c.reactions f sev
    let safe := r.testBit 0
    let recorded := sev ≠ 0 ∨ safe = true
    Answers .faultOccurrence s fun t =>
      t.get (sevcntLoc sev) = min (s.get (sevcntLoc sev) + 1) 65535 ∧
      (safe = true → t.flag CUR_STAT_SAFE = true ∧ (s.flag CUR_STAT_SAFE = false →
        t.get CUR_SAFE_T_NS = nsOf f.nso ∧ t.get CUR_SAFE_T_SEC = secOf f.nso % 2 ^ 32)) ∧
      (safe = false → t.flag CUR_STAT_SAFE = s.flag CUR_STAT_SAFE) ∧
      (s.flag CUR_FIRST_VALID = true ∨ ¬recorded → t.word CUR_FIRST_SRC.addr = s.word CUR_FIRST_SRC.addr ∧
        t.word CUR_FIRST_ADDR_ADDR.addr = s.word CUR_FIRST_ADDR_ADDR.addr) ∧
      (s.flag CUR_FIRST_VALID = false → recorded → t.flag CUR_FIRST_VALID = true ∧ t.get CUR_FIRST_SRC = f.src ∧
        t.get CUR_FIRST_KIND = f.kind ∧ t.get CUR_FIRST_SEV = sev ∧ t.flag CUR_FIRST_INJ = f.inj ∧
        t.word CUR_FIRST_ADDR_ADDR.addr = BitVec.ofNat 32 f.addr ∧ t.get CUR_FIRST_ACC_MASTER = f.master ∧
        t.get CUR_FIRST_ACC_ACC = f.acc ∧ t.get CUR_FIRST_T_NS = nsOf f.nso ∧ t.get CUR_FIRST_T_SEC = secOf f.nso % 2 ^ 32) ∧
      (¬recorded → ∀ i < 256, t.word (CUR_AFT_SRC i).addr = s.word (CUR_AFT_SRC i).addr) ∧
      (recorded → t.flag CUR_STAT_FAULTN = true ∧
        (∀ i, s.aftFind f.src f.kind = some i →
          t.get (CUR_AFT_COUNT i) = min (s.get (CUR_AFT_COUNT i) + 1) 65535 ∧
          t.get (CUR_AFT_SEV i) = max sev (s.get (CUR_AFT_SEV i)) ∧ t.get (CUR_AFT_NS i) = nsOf f.nso) ∧
        (s.aftFind f.src f.kind = none →
          (∀ i < 256, s.aftValid i = false → (∀ k < i, s.aftValid k = true) →
            t.aftValid i = true ∧ t.get (CUR_AFT_SRC i) = f.src ∧ t.get (CUR_AFT_KIND i) = f.kind ∧
            t.get (CUR_AFT_SEV i) = sev ∧ t.flag (CUR_AFT_SAFE i) = safe ∧ t.flag (CUR_AFT_INJ i) = f.inj ∧
            t.get (CUR_AFT_COUNT i) = 1) ∧
          ((∀ i < 256, s.aftValid i = true) → t.flag CUR_STAT_OVF = true)))) ∧
  (∀ (s : State) (f g : FaultReport), s.cur.inbox = [f, g] → f.tick = g.tick → s.flag CUR_FIRST_VALID = false →
    let c := { s with cur := { s.cur with inbox := [], occ := (g.kind, g.src, g.nso) :: (f.kind, f.src, f.nso) :: s.cur.occ } }
    c.severity f ≠ 0 → c.severity g ≠ 0 →
    (c.severity g < c.severity f ∨ c.severity f = c.severity g ∧ (f.src < g.src ∨ f.src = g.src ∧ f.kind ≤ g.kind)) →
    Answers .faultOccurrence s fun t => t.word CUR_FIRST_SRC.addr = firstWord f (c.severity f) 0 ∧
      t.word CUR_COIN_SRC.addr = firstWord g (c.severity g) 0) ∧
  ∀ (s : State),
    (Answers (.curatorSelf true) s fun t => Writes [] [.cur] s t ∧
      t.cur.inbox = s.cur.inbox ++ [{ src := 1804, kind := 0x61, nso := s.now, tick := s.ticks }]) ∧
    let self (c : Instr) := Answers c s fun t => t.flag CUR_STAT_SELF = true ∧ t.flag CUR_STAT_SAFE = true ∧
      (s.flag (CUR_KIND_FIXED 0x60) = true → t.flag CUR_STAT_FAULTN = true)
    self (.curatorSelf false) ∧
    (s.serves 2 → ∀ (src : SrcNo) (kind : Byte),
      (s.get VIT_STAT_LC ≠ 0 → Answers (.faultInject .host src kind) s fun t => Writes [] [.resp] s t) ∧
      (s.get VIT_STAT_LC = 0 → kind = 0x60 → self (.faultInject .host src kind)) ∧
      (s.get VIT_STAT_LC = 0 → kind ≠ 0x60 → Answers (.faultInject .host src kind) s fun t =>
        Writes [] [.cur, .resp] s t ∧ t.cur.inbox = s.cur.inbox ++
          [{ src := src.val, kind := kind.toNat, nso := s.now, tick := s.ticks, inj := true }]))

/-- Clearing, the host's commands and forced reclaim (R365, R367, R371, R373, R375, R376). Where no report waits, a clear
removes the entry it may; a CLEAR of an entry of which an occurrence waits is ignored, and the occurrence counts (R380).
Where the spec leaves a point open it follows the model's choices of log entries 17, 62, 132. -/
def Obligations.CuratorCommands : Prop :=
  (∀ (s : State), s.serves 2 →
    let err (c : Instr) := Answers c s fun t => t.flag CUR_STAT_CMDERR = true ∧ Writes [CUR_STAT_CMDERR.addr] [.resp] s t
    let stuck (i : Nat) := s.aftValid i = false ∨ s.flag (CUR_AFT_LIVE i) = true ∨ s.get (CUR_AFT_KIND i) = 0x60
    let holds (gone : Nat → Prop) (ovf : Prop) := (∃ i < 256, ¬gone i ∧ s.aftValid i = true ∧ s.flag (CUR_AFT_SAFE i) = true) ∨
      s.flag CUR_STAT_SELF = true ∨ (ovf ∧ s.cur.ovfSafe = true)
    let cleared (gone : Nat → Prop) (ovf : Prop) (t : State) :=
      (∀ i < 256, (gone i → t.aftValid i = false ∧ t.get (CUR_AFT_COUNT i) = 0) ∧
        (¬gone i → t.word (CUR_AFT_SRC i).addr = s.word (CUR_AFT_SRC i).addr)) ∧
      (t.flag CUR_STAT_SAFE = true ↔ s.flag CUR_STAT_SAFE = true ∧ holds gone ovf) ∧ t.mem = s.mem
    (∀ i : Fin 256, (s.cur.inbox = [] →
      (stuck i → err (.clear .host i)) ∧
      (¬stuck i → Answers (.clear .host i) s (cleared (· = i.val) (s.flag CUR_STAT_OVF = true)))) ∧
      (∀ f, s.cur.inbox = [f] → f.src < 2048 → f.kind < 256 → s.aftFind f.src f.kind = some i.val →
        ({ s with cur := { s.cur with inbox := [], occ := (f.kind, f.src, f.nso) :: s.cur.occ } } : State).severity f ≠ 0 →
        Answers (.clear .host i) s fun t => t.flag CUR_STAT_CMDERR = true ∧ t.aftValid i = true ∧
          t.get (CUR_AFT_COUNT i) = min (s.get (CUR_AFT_COUNT i) + 1) 65535)) ∧
    (s.cur.inbox = [] →
      Answers (.clearAll .host) s fun t => t.flag CUR_STAT_OVF = false ∧ cleared (fun i => ¬stuck i) False t) ∧
    err (.curCmdIgnored .host) ∧
    (Answers (.enter .host) s fun t => Writes [] [.cur, .resp] s t ∧ t.cur.inbox = s.cur.inbox ++
      [{ src := 1805, kind := 0x62, nso := s.now, tick := s.ticks, addr := 0x05100000, master := 1024, acc := 2 }]) ∧
    (Answers (.unlockRlock .host) s fun t => t.flag CUR_STAT_RLOCK = false ∧ t.get CUR_RECOV_WINCNT = s.get CUR_RECOV_WINCNT ∧
      Writes [CUR_STAT_RLOCK.addr] [.resp] s t) ∧
    ∀ st : Fin 64,
      (s.cur.reclaim = none → Answers (.reclaim .host st) s fun t => t.cur.reclaim = some st.val ∧
        t.flag CUR_STAT_RECL = true ∧ ∀ e ∈ s.stationEngines st, t.estate e ≠ 2 ∧ t.estate e ≠ 3) ∧
      (s.cur.reclaim = some st.val → Answers (.reclaim .host st) s fun t => Writes [] [.resp] s t) ∧
      (∀ r, s.cur.reclaim = some r → r ≠ st.val → Answers (.reclaim .host st) s fun t =>
        (∀ x, x ∈ t.cur.reclaimQueue ↔ x = st.val ∨ x ∈ s.cur.reclaimQueue) ∧ t.cur.reclaim = some r ∧
        Writes [] [.cur, .resp] s t) ∧
      let busy := (∃ e ∈ s.stationEngines st, s.estate e = 2 ∨ s.estate e = 3) ∨ s.cur.reclaim = some st.val ∨
        st.val ∈ s.cur.reclaimQueue
      let back (u : Nat) := s.flag (HALL_OWN_REVOKED u) = true ∧ s.get (HALL_OWN_OWNER u) = st ∧
        (s.get (HALL_OWN_CUR u) = 64 ∨ s.get (HALL_OWN_CUR u) = 127)
      (busy → err (.returnStn .host st)) ∧
      (¬busy → Answers (.returnStn .host st) s fun t =>
        (∀ u < 4096, (back u → t.get (HALL_OWN_CUR u) = st ∧ t.flag (HALL_OWN_REVOKED u) = false) ∧
          (¬back u → t.word (HALL_OWN_CUR u).addr = s.word (HALL_OWN_CUR u).addr)) ∧
        (∀ a < 0x4000000, (back (unitOf a) → t.byte a = 0) ∧ (¬back (unitOf a) → t.byte a = s.byte a)) ∧
        ∀ p ∈ s.poolsOwned st, p ∉ t.store.revoked ∧ ∀ k ∈ s.poolSlots p, t.get (MOP_DESC_STATE k) = 0)) ∧
  (∀ (s : State),
    (Answers .faultConditionEnd s fun t =>
      (∀ i < 256, t.flag (CUR_AFT_LIVE i) = (s.flag (CUR_AFT_LIVE i) && (!s.aftValid i ||
        s.cur.live.contains (s.get (CUR_AFT_SRC i), s.get (CUR_AFT_KIND i)))) ∧ t.aftValid i = s.aftValid i) ∧ t.mem = s.mem) ∧
    (s.cur.reclaim = none → Answers .reclaimComplete s fun t => t = s) ∧
    ∀ st, s.cur.reclaim = some st → s.cur.reclaimQueue = [] → s.halls.revoke = none → s.halls.handover = none →
      s.halls.held = [] → st < 64 → Answers .reclaimComplete s fun t =>
        t.cur.reclaim = none ∧ t.flag CUR_STAT_RECL = false ∧
        (∀ e ∈ s.stationEngines st, ∀ j < 64, t.holds (e / 8) j (e % 8) = false ∧
          (s.holds (e / 8) j (e % 8) = true → t.flag (CLU_LOCK_BROKEN (e / 8) j) = true)) ∧
        (∀ p ∈ s.poolsOwned st, p ∈ t.store.revoked) ∧
        ∀ u < 4096, s.get (HALL_OWN_CUR u) = st → t.flag (HALL_OWN_REVOKED u) = true ∧ t.get (HALL_OWN_CUR u) =
          match s.get CUR_CFG_RECLAIM_TO with
          | 1 => if s.get (HALL_OWN_OWNER u) = st then 127 else s.get (HALL_OWN_OWNER u)
          | 2 => 127
          | _ => 64) ∧
  ∀ (s : State) (i : Fin 256), s.cur.inbox = [] →
    let quiet := 500000 * (if s.get CUR_CFG_QUIET = 0 then 100 else s.get CUR_CFG_QUIET)
    let due := s.flag (CUR_KIND_AUTO (s.get (CUR_AFT_KIND i))) = true ∧ s.aftValid i = true ∧ s.flag (CUR_AFT_LIVE i) = false ∧
      s.get (CUR_AFT_KIND i) ≠ 0x60 ∧ smapFind (fun _ => 0) s.cur.quietFrom i.val + quiet ≤ s.ticks ∧
      (s.flag (CUR_AFT_SAFE i) = false ∨ s.flag CUR_STAT_RLOCK = false)
    (¬due → Answers (.autoClear i) s fun t => t = s) ∧
    (due → Answers (.autoClear i) s fun t => t.aftValid i = false ∧
      (∀ k < 256, k ≠ i.val → t.word (CUR_AFT_SRC k).addr = s.word (CUR_AFT_SRC k).addr) ∧
      t.get CUR_RECOV_COUNT = if s.flag CUR_STAT_SAFE = true ∧ t.flag CUR_STAT_SAFE = false
        then min (s.get CUR_RECOV_COUNT + 1) 65535 else s.get CUR_RECOV_COUNT)

/-- Operating points (R294, R390, R391, R402). A TARGET write, at most MAX and at most 2 while THERMAL is live, starts a
change or waits for the one that runs; rising, the regulator comes first, falling, the PLL; 81.92 µs of lock move the clock
to the PLL, where a falling region takes its point; a change ends with CURRENT at the point; the third failed lock leaves the
region on the bridge with CURRENT 0 and is reported; THERMAL takes every region above point 2 to it, and its end back to
TARGET. Where the spec leaves a point open it follows the model's choices of log entry 33. -/
def Obligations.OperatingPoints : Prop :=
  (∀ (s : State) (r : RgnNo) (v : Fin 8), s.ended = false → s.rgnReady r = true →
    let point := min v.val (s.get (RGN_OPP_MAX r))
    let goal := if s.thermal then min point 2 else point
    let a := s.get (RGN_OPP_CURRENT r)
    let c : Instr := .oppTargetWrite .host r v
    (s.flag (RGN_OPP_BUSY r) = true → Answers c s fun t => t.get (RGN_OPP_TARGET r) = point ∧
      (t.region r).nextTarget = some v.val ∧ (t.region r).changing = (s.region r).changing ∧
      Writes [(RGN_OPP_TARGET r).addr] [.cores, .resp] s t) ∧
    (s.flag (RGN_OPP_BUSY r) = false →
      (a = goal → (s.region r).bridge = false → Answers c s fun t => t.get (RGN_OPP_TARGET r) = point ∧
        t.flag (RGN_OPP_BUSY r) = false ∧ Writes [(RGN_OPP_TARGET r).addr] [.resp] s t) ∧
      (a ≠ goal ∨ (s.region r).bridge = true → Answers c s fun t => t.get (RGN_OPP_TARGET r) = point ∧
        t.flag (RGN_OPP_BUSY r) = true ∧ t.get (RGN_OPP_CURRENT r) = a ∧ (t.region r).changing = some goal ∧
        (t.region r).stage = (if a < goal then 1 else 2) ∧ Writes [(RGN_OPP_TARGET r).addr] [.cores, .resp] s t))) ∧
  (∀ (s : State) (r : RgnNo),
    let g := s.region r
    ((g.stage = 1 ∨ g.stage = 3) → Answers (.regulatorGood r) s fun t => (t.region r).stage = g.stage + 1 ∧
      (t.region r).changing = g.changing ∧ Writes [] [.cores] s t) ∧
    (g.stage ≠ 1 → g.stage ≠ 3 → Answers (.regulatorGood r) s fun t => t = s) ∧
    (∀ b, g.stage = 2 → g.changing = some b → b < 8 → g.pllTick + 40960 ≤ s.ticks →
      (b < s.get (RGN_OPP_CURRENT r) → Answers (.pllLockStable r) s fun t => t.get (RGN_OPP_CURRENT r) = b ∧
        (t.region r).stage = 3 ∧ (t.region r).bridge = false ∧ Writes [(RGN_OPP_CURRENT r).addr] [.cores] s t) ∧
      (s.get (RGN_OPP_CURRENT r) ≤ b → Answers (.pllLockStable r) s fun t => (t.region r).stage = 4 ∧
        (t.region r).bridge = false ∧ Writes [] [.cores] s t)) ∧
    (g.stage ≠ 2 ∨ s.ticks < g.pllTick + 40960 → Answers (.pllLockStable r) s fun t => t = s) ∧
    (g.stage = 2 → g.pllTick + 250000 ≤ s.ticks →
      (g.pllFails < 2 → Answers (.pllLockTimeout r) s fun t => (t.region r).pllFails = g.pllFails + 1 ∧
        (t.region r).pllTick = s.ticks ∧ (t.region r).stage = 2 ∧ Writes [] [.cores] s t) ∧
      (2 ≤ g.pllFails → g.nextTarget = none → Answers (.pllLockTimeout r) s fun t => t.get (RGN_OPP_CURRENT r) = 0 ∧
        t.flag (RGN_OPP_BUSY r) = false ∧ (t.region r).bridge = true ∧ (t.region r).changing = none ∧
        ∃ f ∈ t.cur.inbox, f.src = 1828 ∧ f.kind = 0x47)) ∧
    (g.stage ≠ 2 ∨ s.ticks < g.pllTick + 250000 → Answers (.pllLockTimeout r) s fun t => t = s) ∧
    (∀ b, g.stage = 4 → g.changing = some b → b < 8 → g.nextTarget = none → b ≤ s.goalOf r →
      Answers (.oppChangeDone r) s fun t => t.get (RGN_OPP_CURRENT r) = b ∧ t.flag (RGN_OPP_BUSY r) = false ∧
        (t.region r).changing = none ∧ t.get (RGN_OPP_TARGET r) = s.get (RGN_OPP_TARGET r)) ∧
    (g.stage ≠ 4 ∨ g.changing = none → Answers (.oppChangeDone r) s fun t => t = s)) ∧
  ∀ (s : State) (tj : Fin 1024),
    (s.thermal = false → 736 < tj.val → Answers (.thermalOnset tj) s fun t => t.thermal = true ∧ t.get PWR_TEMP_TJ = tj ∧
      t.get PWR_TEMP_PEAK = max (s.get PWR_TEMP_PEAK) tj ∧ ∀ r : RgnNo,
        (2 < s.get (RGN_OPP_CURRENT r) → s.flag (RGN_OPP_BUSY r) = false → t.flag (RGN_OPP_BUSY r) = true ∧
          ∃ b ≤ 2, (t.region r).changing = some b) ∧
        (s.get (RGN_OPP_CURRENT r) ≤ 2 ∨ s.flag (RGN_OPP_BUSY r) = true → t.region r = s.region r ∧
          t.word (RGN_OPP_CURRENT r).addr = s.word (RGN_OPP_CURRENT r).addr)) ∧
    (s.thermal = true ∨ tj.val ≤ 736 → Answers (.thermalOnset tj) s fun t => t = s) ∧
    (s.thermal = true → tj.val < 716 → Answers (.thermalEnd tj) s fun t => t.thermal = false ∧ t.get PWR_TEMP_TJ = tj ∧
      ∀ r : RgnNo,
        let goal := min (s.get (RGN_OPP_TARGET r)) (s.get (RGN_OPP_MAX r))
        (s.flag (RGN_OPP_BUSY r) = true → (t.region r).nextTarget = some (s.get (RGN_OPP_TARGET r))) ∧
        (s.flag (RGN_OPP_BUSY r) = false → (s.region r).bridge = false → s.get (RGN_OPP_CURRENT r) ≠ goal →
          t.flag (RGN_OPP_BUSY r) = true ∧ (t.region r).changing = some goal)) ∧
    (s.thermal = false ∨ 716 ≤ tj.val → Answers (.thermalEnd tj) s fun t => t = s)

/-- Sleep and wake (R392 to R398, R404). A state is entered only when it is the deepest whose nine conditions hold; A2 and A3
clear the readiness of every function but WATCH and VAULT, and the wake is scheduled at or before the next known event less
its lead; A1 ends when an engine runs, ALLOW is 0 or the lead of a TCMP is reached; a scheduled wake and an enabled latched
source return the package to A0, with its retained functions or as after a package reset; a due timer is disarmed; A2
refreshes the halls. Where the spec leaves a point open it follows the model's choices of log entry 72. -/
def Obligations.SleepAndWake : Prop :=
  (∀ (s : State) (v : Fin 4), s.ended = false → Answers (.allowWrite .host v) s fun t => t.get PWR_CTRL_ALLOW = v ∧
    (s.pwr.state = .a1 → v.val = 0 → t.pwr.state = .a0 ∧ t.get PWR_STAT_STATE = 0) ∧
    (s.pwr.state ≠ .a1 ∨ v.val ≠ 0 → Writes [PWR_CTRL_ALLOW.addr] [.resp] s t)) ∧
  (∀ (s : State),
    let awake := s.pwr.held = false ∧ (s.pwr.state = .a0 ∨ s.pwr.state = .a1)
    let a1 := s.pwr.held = false ∧ s.pwr.state = .a0 ∧ s.blockOf 1 = 0 ∧ s.blockOf 2 ≠ 0 ∧ s.blockOf 3 ≠ 0
    let a2 := awake ∧ s.blockOf 2 = 0 ∧ s.blockOf 3 ≠ 0
    let a3 := awake ∧ s.blockOf 3 = 0
    let sleeps (st : Nat) (t : State) := (∀ b, 2 ≤ b → b < 24 → t.ready b = false) ∧ t.ready 0 = s.ready 0 ∧
      t.ready 1 = s.ready 1 ∧ (∀ r : RgnNo, t.rgnReady r = false) ∧ t.pwr.enterTick = s.ticks ∧
      (tNext (s.known st) = none → t.pwr.wakeTick = none ∧ t.flag WATCH_SCHED_EN = false) ∧
      ∀ d, tNext (s.known st) = some d → t.flag WATCH_SCHED_EN = true ∧
        ∃ w, t.pwr.wakeTick = some w ∧ w ≤ s.ticks + (d - s.lead st) / 2
    (∀ st, s.blockOf st = 0 ↔ ∀ k, 1 ≤ k → k ≤ 9 → s.entryCond st k = true) ∧
    (a1 → Answers .enterA1 s fun t => t.pwr.state = .a1 ∧ t.get PWR_STAT_STATE = 1 ∧
      t.get PWR_CNT_A1 = min (s.get PWR_CNT_A1 + 1) 65535 ∧ Writes [PWR_STAT_STATE.addr, PWR_CNT_A1.addr] [.pwr] s t) ∧
    (¬a1 → Answers .enterA1 s fun t => t = s) ∧
    (a2 → Answers .enterA2 s fun t => t.pwr.state = .a2 ∧ t.get PWR_STAT_STATE = 2 ∧
      t.get PWR_CNT_A2 = min (s.get PWR_CNT_A2 + 1) 65535 ∧ sleeps 2 t) ∧
    (¬a2 → Answers .enterA2 s fun t => t = s) ∧
    (a3 → Answers .enterA3 s fun t => t.pwr.state = .a3 ∧ t.get WATCH_CNT_A3 = min (s.get WATCH_CNT_A3 + 1) 65535 ∧
      sleeps 3 t) ∧
    (¬a3 → Answers .enterA3 s fun t => t = s) ∧
    let ends := s.get PWR_CTRL_ALLOW = 0 ∨ (∃ e < 1024, s.estate e = 2) ∨ ∃ d, tNext s.knownTcmp = some d ∧ d ≤ s.lead 1
    (s.pwr.state = .a1 → ends → Answers .wakeFromA1 s fun t => t.pwr.state = .a0 ∧ t.get PWR_STAT_STATE = 0 ∧
      Writes [PWR_STAT_STATE.addr] [.pwr] s t) ∧
    (s.pwr.state ≠ .a1 ∨ ¬ends → Answers .wakeFromA1 s fun t => t = s)) ∧
  (∀ (s : State) (bad : List (Fin 32)), s.pwr.held = false →
    let from2 (cause : Nat) (t : State) := t.pwr.state = .a0 ∧ t.get PWR_STAT_STATE = 0 ∧ t.get WATCH_WAKE_FROM = 2 ∧
      t.get WATCH_WAKE_CAUSE = cause ∧ t.flag WATCH_SCHED_EN = false ∧ t.get HALL_STAT_RETAINED = 15 ∧
      ∀ b, 2 ≤ b → b < 24 → b ≠ 4 → b ≠ 6 → t.ready b = s.pwr.readyWas.getLsbD b
    let from3 (cause : Nat) (t : State) := t.pwr.state = .a0 ∧ t.get WATCH_WAKE_FROM = 3 ∧ t.get WATCH_WAKE_CAUSE = cause ∧
      t.flag PWR_STAT_A3WOKE = true ∧ t.pwr.trigger = some s.ticks ∧ t.ready 2 = true ∧ t.ready 3 = true ∧
      t.ready 4 = true ∧ t.mem = []
    let latched := ∃ w ∈ s.led.wakes, s.wakeEnabled w.1 = true
    (∀ w, s.pwr.wakeTick = some w →
      (w ≤ s.ticks → (s.pwr.state = .a2 → Answers (.wakeLead bad) s (from2 1)) ∧
        (s.pwr.state = .a3 → Answers (.wakeLead bad) s (from3 1))) ∧
      (s.ticks < w ∨ s.asleep = false → Answers (.wakeLead bad) s fun t => t = s)) ∧
    (latched → (s.pwr.state = .a2 → Answers (.wakeSource bad) s (from2 2)) ∧
      (s.pwr.state = .a3 → Answers (.wakeSource bad) s (from3 2)) ∧
      (s.pwr.state = .a0 ∨ s.pwr.state = .a1 → Answers (.wakeSource bad) s fun t => t = s)) ∧
    (¬latched → Answers (.wakeSource bad) s fun t => t = s)) ∧
  (∀ (s : State) (k : Fin 4),
    let due := s.flag (WATCH_TMR_EN k) = true ∧ s.flag TIME_VT_VALID = true ∧ s.timerUnits k ≤ s.vaultUnits
    (due → Answers (.watchTimerDue k) s fun t => t.flag (WATCH_TMR_EN k) = false ∧ t.timerUnits k = s.timerUnits k) ∧
    (¬due → Answers (.watchTimerDue k) s fun t => t = s)) ∧
  ∀ (s : State) (w : Fin 8388608) (double : List (Fin 8388608)),
    let due := s.pwr.state = .a2 ∧ s.pwr.refreshTick + 2000000000 ≤ s.ticks
    (due → Answers (.hallRefresh [w] double) s fun t => t.get WATCH_CNT_SCRUB = min (s.get WATCH_CNT_SCRUB + 1) 65535 ∧
      t.get (HALL_ECC_CE (hallOf (w * 8))) = min (s.get (HALL_ECC_CE (hallOf (w * 8))) + 1) 65535 ∧ t.mem = s.mem ∧
      (∀ v ∈ double, t.isPoison v.val = true) ∧ t.pwr.refreshTick = s.ticks ∧ t.pwr.state = .a2) ∧
    (¬due → Answers (.hallRefresh [w] double) s fun t => t = s)

/-- Supplies, rails, clocks and resets (R383 to R387, R399 to R401, R405, R467, R508). Where the spec leaves a point open it
follows the model's choices of log entries 71, 72, 73. -/
def Obligations.SuppliesAndResets : Prop :=
  (∀ (s : State),
    (s.pwr.vbatOk = true → Answers .vbatOkRise s fun t => t = s) ∧
    (s.pwr.vbatOk = false → Answers .vbatOkRise s fun t => t.pwr.vbatOk = true ∧ t.pwr.rails = 1 ∧ t.pwr.inWindow = 0 ∧
      t.pwr.railTick = s.ticks ∧ t.pwr.vbkWindow = none ∧ t.flag WATCH_STAT_VBK_SRC = false ∧ t.get WATCH_SUPPLY_RAILFAIL = 0 ∧
      Writes [WATCH_STAT_VBK_SRC.addr, WATCH_SUPPLY_RAILFAIL.addr] [.pwr] s t) ∧
    (∀ torn, (s.pwr.vbatOk = false → Answers (.vbatOkFall torn) s fun t => t = s) ∧
      (s.pwr.vbatOk = true → s.Canonical → Answers (.vbatOkFall torn) s fun t => t.pwr.state = .off ∧ t.pwr.vbatOk = false ∧
        t.pwr.rails = 0 ∧ t.flag WATCH_STAT_VBK_SRC = true ∧ t.flag WATCH_STAT_XTAL = false ∧ t.flag TIME_VT_VALID = false ∧
        t.get WATCH_SUPPLY_BROWNOUT = min (s.get WATCH_SUPPLY_BROWNOUT + 1) 16383 ∧ t.mem = [] ∧
        ∀ b < 24, t.ready b = false)) ∧
    (∀ i : Fin 4,
      let next := s.pwr.state = .off ∧ s.pwr.rails = i.val + 1 ∧ s.pwr.inWindow = i.val
      (next → s.pwr.railTick + 50000 ≤ s.ticks → Answers (.railInWindow i) s fun t => t.pwr.inWindow = i.val + 1 ∧
        t.pwr.rails = min 4 (i.val + 2) ∧ t.pwr.railTick = s.ticks ∧ (t.get PWR_RAILS_PG).testBit i = true ∧
        Writes [PWR_RAILS_PG.addr] [.pwr] s t) ∧
      (¬next ∨ s.ticks < s.pwr.railTick + 50000 → Answers (.railInWindow i) s fun t => t = s) ∧
      (next → s.pwr.railTick + 1000000 ≤ s.ticks → s.get WATCH_SUPPLY_RAILFAIL < 3 → Answers (.railFailure i) s fun t =>
        t.get WATCH_SUPPLY_RAILFAIL = s.get WATCH_SUPPLY_RAILFAIL + 1 ∧ t.get PWR_RAILS_PG = 0 ∧ t.pwr.rails = 0 ∧
        t.pwr.retryAt = if s.get WATCH_SUPPLY_RAILFAIL < 2 then some (s.ticks + 50000000) else none) ∧
      (¬next ∨ s.ticks < s.pwr.railTick + 1000000 → Answers (.railFailure i) s fun t => t = s) ∧
      (∀ inside, (railsOn s.pwr.state ≤ i.val → Answers (.railWindowLoss i inside) s fun t => t = s) ∧
        (i.val < railsOn s.pwr.state → Answers (.railWindowLoss i inside) s fun t =>
          (t.get PWR_RAILS_PG).testBit i = inside ∧ t.pwr.state = s.pwr.state ∧
          (inside = false → (1826, 0x41) ∈ t.cur.live) ∧
          (inside = true → (∀ k ∈ s.pwr.railsOut, k = i.val) → (1826, 0x41) ∉ t.cur.live)))) ∧
    (∀ r, s.pwr.retryAt = some r →
      (r ≤ s.ticks → Answers .railRetry s fun t => t.pwr.rails = 1 ∧ t.pwr.inWindow = 0 ∧ t.pwr.retryAt = none ∧
        Writes [] [.pwr] s t) ∧
      (s.ticks < r → Answers .railRetry s fun t => t = s)) ∧
    (∀ v : Byte,
      let low := (1826, 0x40) ∈ s.cur.live
      let vbkLow := (1826, 0x45) ∈ s.cur.live
      (Answers (.vbatLowChange v) s fun t => t.get PWR_RAILS_VBAT = v.toNat ∧
        (v.toNat < 24 → ¬low → t.flag PWR_RAILS_VBAT_LOW = true ∧ (1826, 0x40) ∈ t.cur.live) ∧
        (26 < v.toNat → low → t.flag PWR_RAILS_VBAT_LOW = false ∧ (1826, 0x40) ∉ t.cur.live) ∧
        (24 ≤ v.toNat → v.toNat ≤ 26 → Writes [PWR_RAILS_VBAT.addr] [] s t)) ∧
      Answers (.vbkLowChange v) s fun t => t.get WATCH_SUPPLY_VBK = v.toNat ∧
        (v.toNat < 125 → ¬vbkLow → t.flag WATCH_STAT_VBK_LOW = true ∧ (1826, 0x45) ∈ t.cur.live) ∧
        (125 ≤ v.toNat → vbkLow → t.flag WATCH_STAT_VBK_LOW = false ∧ (1826, 0x45) ∉ t.cur.live)) ∧
    (s.pwr.vbatOk = false → s.pwr.vbkWindow = none → Answers .vbkLowWindowOpen s fun t =>
      t.pwr.vbkWindow = some s.ticks ∧ Writes [] [.pwr] s t) ∧
    (s.pwr.vbatOk = true ∨ s.pwr.vbkWindow ≠ none → Answers .vbkLowWindowOpen s fun t => t = s) ∧
    (∀ o, s.pwr.vbkWindow = some o →
      (s.ticks ≤ o + 15000 → Answers (.lapseDecision true) s fun t => t.pwr.vbkWindow = none ∧ Writes [] [.pwr] s t) ∧
      (o + 15000 ≤ s.ticks → Answers (.lapseDecision false) s fun t => t.pwr.vbkWindow = none ∧
        t.flag VAULT_STAT_RAMVALID = false ∧ t.flag TIME_VT_VALID = false ∧ t.get TIME_STAT_TRUST = 0) ∧
      (s.ticks < o + 15000 → Answers (.lapseDecision false) s fun t => t = s)) ∧
    (s.flag WATCH_STAT_XTAL = true ∨ s.pwr.vbatOk = false → Answers .crystalStable s fun t => t = s) ∧
    (s.flag WATCH_STAT_XTAL = false → s.pwr.vbatOk = true → Answers .crystalStable s fun t => t.flag WATCH_STAT_XTAL = true ∧
      (s.usable = true → t.ready 0 = true) ∧ (s.pwr.vtHeld = true → t.flag TIME_VT_VALID = true)) ∧
    (∀ lost, (Answers (.clockLoss true lost) s fun t => t.flag PWR_RAILS_REF_OK = !lost ∧
        ((1828, 0x42) ∈ t.cur.live ↔ lost = true)) ∧
      Answers (.clockLoss false lost) s fun t => ((1828, 0x43) ∈ t.cur.live ↔ lost = true) ∧
        (lost = true → t.flag WATCH_STAT_XTAL = false ∧ t.flag TIME_VT_VALID = false ∧ t.ready 0 = false))) ∧
  ∀ (s : State) (bad : List (Fin 32)) (rcvr : Bool),
    let up := s.pwr.vbatOk = true ∧ s.pwr.inWindow = 4
    let asReset (t : State) := t.pwr.state = .a0 ∧ t.mem = [] ∧ (∀ a < 0x5000000, t.word a = resetWord a)
    (¬up → Answers (.powerOnReset rcvr bad) s fun t => t = s) ∧
    (up → Answers (.powerOnReset rcvr bad) s fun t => asReset t ∧ t.pwr.held = false ∧ t.get WATCH_WAKE_CAUSE = 3 ∧
      t.get WATCH_SUPPLY_RAILFAIL = s.get WATCH_SUPPLY_RAILFAIL ∧ t.flag TIME_VT_VALID = false ∧
      (rcvr = true → t.flag SVC_STAT_RAMORNY = true)) ∧
    (s.pwr.state = .off → Answers (.packageReset bad) s fun t => t = s) ∧
    (s.pwr.state ≠ .off → s.Canonical → Answers (.packageReset bad) s fun t => asReset t ∧ t.pwr.held = true ∧
      ∀ a, 0x5600000 ≤ a → a < 0x5600048 → t.word a = s.word a) ∧
    (s.pwr.held = true → Answers (.resetRelease rcvr) s fun t => t.pwr.held = false ∧
      (rcvr = true → t.flag SVC_STAT_RAMORNY = true) ∧ (rcvr = false → Writes [] [.pwr] s t)) ∧
    (s.pwr.held = false → Answers (.resetRelease rcvr) s fun t => t = s)

/-- Lanes and streams (R406 to R409, R411, R416, R417, R426). A link of a calibrated lane comes up when it is trained, NATIVE
with a recent valid frame, and starts the streams whose primary it is; when it goes down the loss is counted, a stream on it
moves to its usable alternate, or stops; a stream returns to its primary after FAILBACK; a lane that is down retries training
every second; a NATIVE lane sends KEEPALIVE after 10 µs and takes valid frames only; without the Spine die link it sends
nothing, and a message without a timestamp is lost (R28). A lane not in use takes no event. Where the spec leaves a point
open it follows the model's choices of log entry 75. -/
def Obligations.LanesAndStreams : Prop :=
  (∀ (s : State) (l : Fin 4), s.laneReady l = false →
    (∀ corr unc, Answers (.laneLinkUp l corr unc) s fun t => t = s) ∧
    (∀ cut fec corr unc, Answers (.laneLinkDown l cut fec corr unc) s fun t => t = s) ∧
    (Answers (.trainingRetry l) s fun t => t = s) ∧ (Answers (.keepaliveSend l) s fun t => t = s) ∧
    (Answers (.laneFrameSend l) s fun t => t = s) ∧ (∀ r, Answers (.laneFrameReceived l r) s fun t => t = s) ∧
    ∀ bs stamp corr, Answers (.nativeFrameReceived l bs stamp corr) s fun t => t = s) ∧
  (∀ (s : State) (l : Fin 4) (corr unc : Nat), s.laneReady l = true →
    let counted (t : State) := t.get (SPN_LANE_FEC_CORR l) = min (s.get (SPN_LANE_FEC_CORR l) + corr) 65535 ∧
      t.get (SPN_LANE_FEC_UNCORR l) = min (s.get (SPN_LANE_FEC_UNCORR l) + unc) 65535
    let downNow (t : State) := ((1700, 0x48) ∈ t.cur.live ↔ ∃ st < 64, t.declared st = true ∧ t.flag (SPN_STR_STAT_RUN st) = false)
    let fresh := ∃ v, (s.lane l).lastValid = some v ∧ s.ticks ≤ v + 10000
    (s.linkUp l = false → (s.isEthLane l = true ∨ fresh) → Answers (.laneLinkUp l corr unc) s fun t => counted t ∧
      downNow t ∧ t.linkUp l = true ∧ (t.get SPN_STAT_LINK).testBit l = true ∧ t.get (SPN_LANE_STAT_TRAIN l) = 2 ∧
      t.flag (SPN_LANE_STAT_FEC_LOCK l) = true ∧ (t.lane l).upSince = some s.ticks ∧
      ∀ st < 64, s.declared st = true → s.get (SPN_STR_CFG_LANE st) = l → s.flag (SPN_STR_STAT_RUN st) = false →
        t.flag (SPN_STR_STAT_RUN st) = true ∧ t.get (SPN_STR_STAT_ACTIVE st) = l ∧ t.flag (SPN_STR_STAT_ON_ALT st) = false) ∧
    (s.linkUp l = true ∨ s.isEthLane l = false ∧ ¬fresh → Answers (.laneLinkUp l corr unc) s fun t => counted t ∧
      t.get (SPN_LANE_STAT_TRAIN l) = 2 ∧ t.linkUp l = s.linkUp l ∧ Writes [(SPN_LANE_FEC_CORR l).addr,
        (SPN_LANE_STAT_TRAIN l).addr] [] s t) ∧
    ∀ cut fec,
      (s.linkUp l = false → Answers (.laneLinkDown l cut fec corr unc) s fun t => counted t ∧
        t.get (SPN_LANE_STAT_TRAIN l) = 3 ∧ Writes [(SPN_LANE_FEC_CORR l).addr, (SPN_LANE_STAT_TRAIN l).addr] [] s t) ∧
      (s.linkUp l = true → Answers (.laneLinkDown l cut fec corr unc) s fun t => counted t ∧ downNow t ∧
        t.linkUp l = false ∧ t.get (SPN_LANE_STAT_TRAIN l) = 3 ∧
        t.get (SPN_LANE_STAT_DOWNS l) = min (s.get (SPN_LANE_STAT_DOWNS l) + 1) 65535 ∧
        (∀ st, st < 64 → cut = true → (s.lane l).started = some st →
          t.get (SPN_STR_STAT_DROP st) = min (s.get (SPN_STR_STAT_DROP st) + 1) 65535) ∧
        ∀ st < 64, s.declared st = true → s.get (SPN_STR_CFG_LANE st) = l → s.flag (SPN_STR_STAT_RUN st) = true →
          s.get (SPN_STR_STAT_ACTIVE st) = l → s.flag (SPN_STR_STAT_ON_ALT st) = false →
          (∀ a, s.altLane st = some a → a ≠ l.val → s.linkUp a = true → t.flag (SPN_STR_STAT_RUN st) = true ∧
            t.get (SPN_STR_STAT_ACTIVE st) = a ∧ t.flag (SPN_STR_STAT_ON_ALT st) = true ∧
            t.get (SPN_STR_STAT_MOVES st) = min (s.get (SPN_STR_STAT_MOVES st) + 1) 4095) ∧
          ((∀ a, s.altLane st = some a → a = l.val ∨ s.linkUp a = false) → t.flag (SPN_STR_STAT_RUN st) = false))) ∧
  (∀ (s : State) (st : Fin 64),
    let p := s.get (SPN_STR_CFG_LANE st)
    let ms := if s.get SPN_STAT_FAILBACK = 0 then 500 else s.get SPN_STAT_FAILBACK
    let due := s.flag (SPN_STR_STAT_RUN st) = true ∧ s.flag (SPN_STR_STAT_ON_ALT st) = true ∧ s.linkUp p = true ∧
      ∃ u, (s.lane p).upSince = some u ∧ u + 500000 * ms ≤ s.ticks
    (due → Answers (.streamFailback st) s fun t => t.get (SPN_STR_STAT_ACTIVE st) = p ∧
      t.flag (SPN_STR_STAT_ON_ALT st) = false ∧ t.flag (SPN_STR_STAT_RUN st) = true ∧
      t.get (SPN_STR_STAT_MOVES st) = min (s.get (SPN_STR_STAT_MOVES st) + 1) 4095 ∧ t.spine = s.spine) ∧
    (¬due → Answers (.streamFailback st) s fun t => t = s)) ∧
  ∀ (s : State) (l : Fin 4), s.laneReady l = true →
    (let due := s.linkUp l = false ∧ (s.lane l).retryFrom + 500000000 ≤ s.ticks;
      (due → Answers (.trainingRetry l) s fun t => t.get (SPN_LANE_STAT_TRAIN l) = 1 ∧ (t.lane l).retryFrom = s.ticks ∧
        Writes [(SPN_LANE_STAT_TRAIN l).addr] [.spine] s t) ∧
      (¬due → Answers (.trainingRetry l) s fun t => t = s)) ∧
    (let due := s.get (SPN_LANE_CFG_MODE l) = 3 ∧ s.get (SPN_LANE_STAT_TRAIN l) = 2 ∧ (s.link 2).up = true ∧
        (s.lane l).lastSent + 5000 ≤ s.ticks;
      (due → Answers (.keepaliveSend l) s fun t => (t.lane l).lastSent = s.ticks ∧
        t.out = .laneNative l (nativeFrame 3 0 (s.lane l).keepSeq s.now []) :: s.out ∧ Writes [] [.spine, .out] s t) ∧
      (¬due → Answers (.keepaliveSend l) s fun t => t = s)) ∧
    (s.get (SPN_LANE_CFG_MODE l) = 3 → s.get (SPN_LANE_STAT_TRAIN l) = 2 → ∀ bs stamp corr,
      let c : Instr := .nativeFrameReceived l bs stamp corr
      (nativePayload bs = none → Answers c s fun t =>
        t.get (SPN_LANE_FEC_CORR l) = min (s.get (SPN_LANE_FEC_CORR l) + corr) 65535 ∧
        Writes [(SPN_LANE_FEC_CORR l).addr] [] s t) ∧
      ((nativePayload bs).isSome = true → (beField bs 0 1 % 16 ≠ 2 ∨ s.linkUp l = false ∨ s.spineStamped stamp = false) → Answers c s fun t =>
        (t.lane l).lastValid = some s.ticks ∧ Writes [(SPN_LANE_FEC_CORR l).addr] [.spine] s t))

/-- Frames of a lane and its host queue (R407, R410, R413 to R415). The host's buffer goes before every stream, is stamped,
and advances TX_HEAD; a tunnel AVTPDU and a native capture leave their stream's queue; a buffer of a length that may not be
sent takes ERR; a received frame whose address and protection the lane accepts goes to its ring, or is counted in HQDROP when
the ring is full or the frame too long; other frames are discarded. Without the Spine die link no frame is sent, and a frame
that arrived before the link was aligned is lost (R28). Where the spec leaves a point open it follows the model's choices of
log entries 75, 76, 125, 133. -/
def Obligations.LaneFrames : Prop :=
  (∀ (s : State) (l : Fin 4), (s.link 2).up = false → Answers (.laneFrameSend l) s fun t => t = s) ∧
  (∀ (s : State) (l : Fin 4), s.laneReady l = true → s.linkUp l = true → (s.link 2).up = true →
    let i := s.get (SPN_HQ_PTR_TX_HEAD l)
    let a := s.get (SPN_HQ_BASE_BASE l) * 65536 + 32768 + 2048 * (i % 16)
    let w := (s.memWord a).toNat
    let len := w % 4096
    (s.isEthLane l = true → s.get (SPN_HQ_PTR_TX_TAIL l) = (i + 1) % 32 → 60 ≤ len → len ≤ 2032 →
      s.flag (SPN_LANE_CFG_MACSEC l) = false → s.flag (TIME_PTP_RECOG (128 + l)) = false →
      Answers (.laneFrameSend l) s fun t => t.out = .laneEth l (s.bytes (a + 16) len) none :: s.out ∧
        t.get (SPN_HQ_PTR_TX_HEAD l) = (i + 1) % 32 ∧ t.bytes (a + 8) 8 = leBytes 8 (stampWord s.now) ∧
        (t.lane l).lastSent = s.ticks ∧ (t.lane l).started = none) ∧
    (s.isEthLane l = false ∨ s.get (SPN_HQ_PTR_TX_TAIL l) = i →
      (s.nextStream l = none → Answers (.laneFrameSend l) s fun t => t = s) ∧
      (∀ st pcp p, s.nextStream l = some (st, .tunnel pcp p) → s.flag (SPN_LANE_CFG_MACSEC l) = false → st < 64 →
        Answers (.laneFrameSend l) s fun t => (t.stream st).queue = (s.stream st).queue.drop 1 ∧
          t.out = .laneTunnel l (s.get (SPN_STR_DA_ADDR st)) (s.get (SPN_LANE_SA_ADDR l)) (s.get (SPN_STR_CFG_VID st)) pcp p
            none :: s.out ∧ (t.lane l).started = some st ∧ t.mem = s.mem ∧
          t.get (GW_TUN_CNT_TX st) = min (s.get (GW_TUN_CNT_TX st) + 1) (2 ^ (GW_TUN_CNT_TX st).len - 1)) ∧
      (∀ st bs, s.nextStream l = some (st, .specimen bs) → s.isEthLane l = false → Answers (.laneFrameSend l) s fun t =>
        t.out = .laneNative l (nativeFrame 1 st (s.stream st).seq s.now bs) :: s.out ∧
        (t.stream st).queue = (s.stream st).queue.drop 1 ∧ (t.stream st).seq = ((s.stream st).seq + 1) % 2 ^ 32 ∧
        Writes [] [.spine, .out] s t))) ∧
  (∀ (s : State) (l : Fin 4) (v : Fin 32) (an : Fin 4), s.ended = false → s.spnReady = true →
    let i := s.get (SPN_HQ_PTR_TX_HEAD l)
    let a := s.get (SPN_HQ_BASE_BASE l) * 65536 + 32768 + 2048 * (i % 16)
    let w := (s.memWord a).toNat
    let ptr := (SPN_HQ_PTR_TX_HEAD l).addr
    (Answers (.txAnWrite .host l an) s fun t => t.get (SPN_LANE_CFG_TX_AN l) = an ∧
      Writes [(SPN_LANE_CFG_TX_AN l).addr] [.resp] s t) ∧
    (Answers (.hqRxHeadWrite .host l v) s fun t => t.get (SPN_HQ_PTR_RX_HEAD l) = v ∧ Writes [ptr] [.resp] s t) ∧
    (v.val = i ∨ (60 ≤ w % 4096 ∧ w % 4096 ≤ 2032) → Answers (.hqTxTailWrite .host l v) s fun t =>
      t.get (SPN_HQ_PTR_TX_TAIL l) = v ∧ t.get (SPN_HQ_PTR_TX_HEAD l) = i ∧ Writes [ptr] [.resp] s t) ∧
    (v.val = (i + 1) % 32 → s.halls.poison = [] → w % 4096 < 60 ∨ 2032 < w % 4096 →
      Answers (.hqTxTailWrite .host l v) s fun t => t.get (SPN_HQ_PTR_TX_TAIL l) = v ∧ t.get (SPN_HQ_PTR_TX_HEAD l) = v ∧
        (t.memWord a).toNat = w ||| 2 ^ 14 ∧ t.bytes (a + 8) 8 = leBytes 8 0)) ∧
  (∀ (s : State) (l : Fin 4) (r : EthRx), (s.link 2).up = false ∨ s.ticks < (s.link 2).upTick + (s.now - r.stamp) / 2 →
    Answers (.laneFrameReceived l r) s fun t => t = s) ∧
  ∀ (s : State) (l : Fin 4) (r : EthRx), s.laneReady l = true → s.linkUp l = true → s.isEthLane l = true →
    (s.link 2).up = true → (s.link 2).upTick + (s.now - r.stamp) / 2 ≤ s.ticks →
    let n := r.bytes.length
    let da := beField r.bytes 0 6
    let et := if beField r.bytes 12 2 = 0x8100 then beField r.bytes 16 2 else beField r.bytes 12 2
    let i := s.get (SPN_HQ_PTR_RX_TAIL l)
    let a := s.get (SPN_HQ_BASE_BASE l) * 65536 + 2048 * (i % 16)
    let c : Instr := .laneFrameReceived l r
    let full := (i + 32 - s.get (SPN_HQ_PTR_RX_HEAD l)) % 32 = 16
    let fec := (SPN_LANE_FEC_CORR l).addr
    let taken := 60 ≤ n ∧ n ≤ 9212 ∧ (da.testBit 40 = true ∨ da = s.get (SPN_LANE_SA_ADDR l))
    let toHost := et = 0x88F7 ∨ et = 0x888E ∨ (et ≠ 0x22F0 ∧ et ≠ 0x8808 ∧ s.flag (SPN_LANE_CFG_HOSTALL l) = true)
    (¬taken → Answers c s fun t => Writes [fec] [] s t) ∧
    (taken → s.flag (SPN_LANE_CFG_MACSEC l) = false →
      (toHost → (n ≤ 2032 → ¬full → s.halls.poison = [] → Answers c s fun t =>
          t.get (SPN_HQ_PTR_RX_TAIL l) = (i + 1) % 32 ∧ t.bytes (a + 16) n = r.bytes ∧
          (t.memWord a).toNat = n ∧ t.bytes (a + 8) 8 = leBytes 8 (stampWord r.stamp)) ∧
        (2032 < n ∨ full → Answers c s fun t =>
          t.get (SPN_LANE_SEC_HQDROP l) = min (s.get (SPN_LANE_SEC_HQDROP l) + 1) 1023 ∧
          Writes [fec, (SPN_LANE_SEC_HQDROP l).addr] [] s t)) ∧
      (¬toHost → et ≠ 0x22F0 → Answers c s fun t => Writes [fec] [] s t)) ∧
    (taken → s.flag (SPN_LANE_CFG_MACSEC l) = true →
      (r.sec = .plain ∧ et ≠ 0x888E ∧ et ≠ 0x88F7 ∨ ∃ sc an pn, r.sec = .secured sc an pn false) → Answers c s fun t =>
        t.get (SPN_LANE_SEC_DROP l) = min (s.get (SPN_LANE_SEC_DROP l) + 1) 4095 ∧ t.mem = s.mem)

/-- The PCIe endpoint and the service port (R418 to R423). A reset of the endpoint disables MSI-X, masks every vector, clears
the readiness of PCIE and leaves halls, ports, engines and the image alone; link up makes it ready; an open vector that is
held is sent; a USB bus reset withdraws the debug unlock and leaves the device at address 0; suspend, resume and VBUS follow
the bus. Where the spec leaves a point open it follows the model's choices of log entries 76, 77. -/
def Obligations.HostAndServicePort : Prop :=
  ∀ (s : State),
    (Answers (.pcieReset 0) s fun t => t = s) ∧
    (∀ cause : Fin 5, cause.val ≠ 0 → Answers (.pcieReset cause) s fun t => t.ready 6 = false ∧
      t.word PCIE_STAT_LINK.addr = 0 ∧ (∀ k : Fin 64, t.flag (MSIX_MASK k) = true) ∧ t.spine.pcieCause = some cause.val ∧
      t.get PCIE_CNT_HOTRST = min (s.get PCIE_CNT_HOTRST + 1) 65535 ∧
      t.get PCIE_CNT_LINKDOWN = (if cause.val = 2 then min (s.get PCIE_CNT_LINKDOWN + 1) 65535 else s.get PCIE_CNT_LINKDOWN) ∧
      t.mem = s.mem ∧ t.ports = s.ports ∧ t.cores = s.cores ∧ t.img = s.img ∧ t.store = s.store ∧
      ∃ f ∈ t.cur.inbox, f.src = 1704 ∧ f.kind = 0x49) ∧
    (∀ speed width : Fin 8,
      (s.asleep = true → Answers (.pcieLinkUp speed width) s fun t => t = s) ∧
      (s.asleep = false → Answers (.pcieLinkUp speed width) s fun t => t.ready 6 = true ∧ t.flag PCIE_STAT_LINK = true ∧
        t.get PCIE_STAT_SPEED = speed ∧ t.get PCIE_STAT_WIDTH = width ∧ t.spine.pcieCause = none ∧ t.mem = s.mem)) ∧
    (∀ k : Fin 64,
      (s.ready 6 = false → Answers (.msixUnmask k) s fun t => t = s) ∧
      (s.ready 6 = true → Answers (.msixUnmask k) s fun t => t.flag PCIE_STAT_MSIX_EN = true ∧
        t.flag (MSIX_MASK k) = false ∧ (t.get PCIE_PEND_PEND).testBit k = false ∧
        ((s.get PCIE_PEND_PEND).testBit k = true → .msix k.val ∈ t.out) ∧
        Writes [PCIE_STAT_MSIX_EN.addr, (MSIX_MASK k).addr, PCIE_PEND_PEND.addr, PCIE_PEND_PEND.addr + 4,
          0x5419000, 0x5419004] [.out] s t)) ∧
    (s.ready 6 = true → Answers .pcieL2Entry s fun t => t.spine.pcieL2 = true ∧ t.flag PCIE_STAT_LINK = false ∧
      t.ready 6 = false ∧ t.mem = s.mem) ∧
    (s.ready 6 = false → Answers .pcieL2Entry s fun t => t = s) ∧
    (∀ hs, (s.spine.vbus = true → Answers (.usbBusReset hs) s fun t => t.get SVC_STAT_STATE = 1 ∧ t.get SVC_STAT_ADDR = 0 ∧
        t.flag SVC_STAT_SUSPEND = false ∧ t.flag SVC_STAT_HS = hs ∧ t.flag SVC_DBG_UNLOCKED = false ∧
        t.get SVC_DFU_NEXT_BLOCK = s.get SVC_DFU_NEXT_BLOCK ∧ t.upd = s.upd ∧ t.ready 6 = s.ready 6) ∧
      (s.spine.vbus = false → Answers (.usbBusReset hs) s fun t => t = s)) ∧
    (∀ on wake, let acts := s.spine.vbus = true ∧ s.flag SVC_STAT_SUSPEND ≠ on;
      (acts → Answers (.usbSuspend on wake) s fun t => t.flag SVC_STAT_SUSPEND = on ∧
        t.spine.remoteWake = (on && wake) ∧ t.get SVC_STAT_STATE = s.get SVC_STAT_STATE) ∧
      (¬acts → Answers (.usbSuspend on wake) s fun t => t = s)) ∧
    ∀ on, (s.spine.vbus = on → Answers (.usbVbusChange on) s fun t => t = s) ∧
      (s.spine.vbus ≠ on → Answers (.usbVbusChange on) s fun t => t.spine.vbus = on ∧ t.spine.remoteWake = false ∧
        (on = false → t.get SVC_STAT_STATE = 0 ∧ t.get SVC_STAT_ADDR = 0 ∧ t.flag SVC_STAT_SUSPEND = false) ∧
        Writes [SVC_STAT_STATE.addr] [.spine] s t)

/-- Requests of the service port (R421, R424, R467). With VBUS, SVC ready and no Ramorny, every request is answered with its
header and STATUS: 1 refused by life cycle, 2 by access rules, 0 done. A word reads and writes as the host's; a challenge
draws SVC.CHAL, the right answer unlocks and a wrong one clears it; the engine commands halt, step, resume, read and write as
their state allows; DETACH (but not in END, R12) and RELOCK act on the port. Without the port no request has an effect. Where
the spec leaves a point open it follows the model's choices of log entries 78, 79, 80, 81. -/
def Obligations.ServiceRequests : Prop :=
  (∀ (s : State), s.spine.vbus = false ∨ s.ready 7 = false ∨ s.flag SVC_STAT_RAMORNY = true →
    (∀ r ws reg w, (Answers (.svcRead r) s fun t => t = s) ∧ (Answers (.svcWrite r ws) s fun t => t = s) ∧
      (Answers (.svcChallenge r) s fun t => t = s) ∧ (Answers (.svcUnlock r) s fun t => t = s) ∧
      (Answers (.dbgHalt r) s fun t => t = s) ∧ (Answers (.dbgStep r) s fun t => t = s) ∧
      (Answers (.dbgResume r) s fun t => t = s) ∧ (Answers (.dbgReadReg r reg) s fun t => t = s) ∧
      Answers (.dbgWriteReg r reg w) s fun t => t = s) ∧
    Answers .dfuDetach s fun t => t = s) ∧
  (∀ (s : State) (r : SvcReq), s.spine.vbus = true → s.ready 7 = true → s.flag SVC_STAT_RAMORNY = false →
    let v := s.set SVC_STAT_STATE 3
    let answer (op : Nat) (q : SvcReq) (status : Nat) (data : List Word) : Output :=
      .svc (beBytes 1 op ++ beBytes 1 status ++ beBytes 2 q.tag.toNat ++ beBytes 4 q.addr.toNat ++ beBytes 8 q.arg.toNat ++
        data.flatMap fun w => leBytes 4 w.toNat)
    let refused (c : Instr) (op status : Nat) := Answers c s fun t => t.out = answer op r status [] :: s.out ∧
      Writes [SVC_STAT_STATE.addr] [.out] s t
    let lc := s.get VIT_STAT_LC
    let all := lc = 0 ∨ lc = 1 ∨ lc ≠ 4 ∧ s.flag SVC_DBG_UNLOCKED = true
    let a := r.addr.toNat
    let inRange := r.count = 1 ∧ a + 4 ≤ 0x8000000
    -- registers and hall words
    (∀ w, inRange → v.svcReadOk a = true → v.svcNotReady a = false → (v.readReg .host a 4).resp = some (.data w) →
      Answers (.svcRead r) s fun t => t.out = answer 1 r 0 [BitVec.ofNat 32 w] :: (v.readReg .host a 4).out ∧
        t.regs = (v.readReg .host a 4).regs) ∧
    (inRange → v.svcReadOk a = true → v.svcNotReady a = true → Answers (.svcRead r) s fun t =>
      t.out = answer 1 r 2 [] :: (v.readReg .host a 4).out) ∧
    (inRange → v.svcReadOk a = false → refused (.svcRead r) 1 1) ∧
    (lc = 4 → inRange → a ≠ 0 → refused (.svcRead r) 1 1) ∧
    (r.count = 0 → r.addr.getLsbD 31 = false → refused (.svcRead r) 1 2) ∧
    (¬all → r.addr.getLsbD 31 = true → refused (.svcRead r) 1 1) ∧
    (∀ w, all → r.count = 1 → r.addr.getLsbD 31 = true → a % 2 ^ 31 + 4 ≤ 0x4000000 → v.ready (8 + hallOf (a % 2 ^ 31)) = true →
      (∀ x ∈ wordsOf (a % 2 ^ 31) 4, v.verdict (some 64) (max (a % 2 ^ 31) (x * 8)) false = 0) →
      let read := v.hallAccess { master := .host, addr := a % 2 ^ 31, acc := .read 4 };
      read.resp = some (.data w) → Answers (.svcRead r) s fun t =>
        t.out = answer 1 r 0 [BitVec.ofNat 32 w] :: s.out ∧ t.mem = s.mem) ∧
    (∀ ws, ¬all → refused (.svcWrite r ws) 2 1) ∧
    (∀ ws, all → ws.length ≠ r.count.toNat → refused (.svcWrite r ws) 2 2) ∧
    (∀ w, all → inRange → v.svcNotReady a = false → (v.writeReg .host a 4 w).resp ≠ some .abort →
      Answers (.svcWrite r [w]) s fun t => t.out = answer 2 r 0 [] :: (v.writeReg .host a 4 w).out ∧
        t.regs = (v.writeReg .host a 4 w).regs ∧ t.mem = (v.writeReg .host a 4 w).mem) ∧
    -- unlock
    (lc = 4 → refused (.svcChallenge r) 3 1 ∧ refused (.svcUnlock r) 4 1) ∧
    (lc ≠ 4 →
      (Answers (.svcChallenge r) s fun t => t.word64 SVC_CHAL_CHAL.addr = s.draw.1 ∧
        t.out = answer 3 { r with arg := s.draw.1 } 0 [] :: s.out ∧
        Writes [SVC_STAT_STATE.addr, SVC_CHAL_CHAL.addr, SVC_CHAL_CHAL.addr + 4] [.vault, .out] s t) ∧
      (v.unlockOk r.arg = true → Answers (.svcUnlock r) s fun t => t.flag SVC_DBG_UNLOCKED = true ∧
        t.out = answer 4 r 0 [] :: s.out ∧ ∃ f ∈ t.cur.inbox, f.src = 1708 ∧ f.kind = 0x4A) ∧
      (v.unlockOk r.arg = false → Answers (.svcUnlock r) s fun t => t.word64 SVC_CHAL_CHAL.addr = 0 ∧
        t.flag SVC_DBG_UNLOCKED = s.flag SVC_DBG_UNLOCKED ∧ t.out = answer 4 r 2 [] :: s.out ∧
        Writes [SVC_STAT_STATE.addr, SVC_CHAL_CHAL.addr, SVC_CHAL_CHAL.addr + 4] [.out] s t)) ∧
    -- engine debug
    (let debug := lc = 0 ∨ lc ≠ 4 ∧ s.flag SVC_DBG_UNLOCKED = true;
      (¬debug → refused (.dbgHalt r) 5 1 ∧ refused (.dbgStep r) 5 1 ∧ refused (.dbgResume r) 5 1 ∧
        ∀ reg w, refused (.dbgReadReg r reg) 5 1 ∧ refused (.dbgWriteReg r reg w) 5 1) ∧
      (debug → 1024 ≤ a → refused (.dbgHalt r) 5 2 ∧ refused (.dbgStep r) 5 2 ∧ refused (.dbgResume r) 5 2 ∧
        ∀ reg w, refused (.dbgReadReg r reg) 5 2 ∧ refused (.dbgWriteReg r reg w) 5 2) ∧
      (debug → a < 1024 → s.rgnReady (a / 64) = true →
        let done (data : List Word) (t : State) := t.out = answer 5 r 0 data :: s.out;
        (s.estate a = 2 ∨ s.estate a = 3 → Answers (.dbgHalt r) s fun t => done [] t ∧ t.estate a = 1 ∧
          (t.engine a).pc = (s.engine a).pc) ∧
        (s.estate a ≠ 2 → s.estate a ≠ 3 → Answers (.dbgHalt r) s fun t => done [] t ∧
          Writes [SVC_STAT_STATE.addr] [.out] s t) ∧
        (s.estate a = 1 → Answers (.dbgStep r) s fun t => t.out.head? = some (answer 5 r 0 []) ∧
          (t.estate a = 0 ∨ t.estate a = 1 ∧ t.get (ENG_PC_PC a) = (t.engine a).pc.toNat)) ∧
        (s.estate a ≠ 1 → Answers (.dbgStep r) s fun t => done [] t ∧ Writes [SVC_STAT_STATE.addr] [.out] s t) ∧
        (s.estate a = 1 → s.mip a &&& ((s.engine a).getCsr csrMie).toNat = 0 → Answers (.dbgResume r) s fun t =>
          done [] t ∧ t.estate a = 2 ∧ t.engine a = s.engine a) ∧
        (s.estate a ≠ 1 → Answers (.dbgResume r) s fun t => done [] t ∧ Writes [SVC_STAT_STATE.addr] [.out] s t) ∧
        (∀ i : Fin 32, (Answers (.dbgReadReg r (.gpr i)) s fun t => done [(s.engine a).getX i] t ∧
            Writes [SVC_STAT_STATE.addr] [.out] s t) ∧
          ∀ w, Answers (.dbgWriteReg r (.gpr i) w) s fun t => done [] t ∧
            (t.engine a).getX i = (if i.val = 0 then 0 else w) ∧
            (∀ j : Fin 32, j ≠ i → (t.engine a).getX j = (s.engine a).getX j) ∧
            Writes [SVC_STAT_STATE.addr] [.cores, .out] s t) ∧
        ∀ c : Fin 4096, (∀ w, s.csrRead a c = some w → Answers (.dbgReadReg r (.csr c)) s (done [w])) ∧
          (s.csrRead a c = none → refused (.dbgReadReg r (.csr c)) 5 2 ∧ ∀ w, refused (.dbgWriteReg r (.csr c) w) 5 2))) ∧
    (lc = 4 → Answers .dfuDetach s fun t => Writes [SVC_STAT_STATE.addr] [] s t) ∧
    (lc ≠ 4 → Answers .dfuDetach s fun t => t.flag SVC_STAT_RAMORNY = true ∧ t.flag UPD_STAT_RAMORNY = true ∧
      (∀ k < 256, (s.get (UPD_MAP_BITS (k / 32))).testBit (k % 32) = false →
        (∀ j < k, (s.get (UPD_MAP_BITS (j / 32))).testBit (j % 32) = true) → t.get SVC_DFU_NEXT_BLOCK = 16 * k))) ∧
  ∀ (s : State), s.serves 7 → Answers (.relock .host) s fun t => t.flag SVC_DBG_UNLOCKED = false ∧ t.resp = some .done ∧
    (s.flag SVC_DBG_UNLOCKED = false → Writes [] [.resp] s t)

/-- Key commands (R430 to R437). The host's command runs unless one is pending: it is refused for the first check that fails,
and then no slot changes, or it takes effect; either way it is pending until KEY_COMMAND_DONE reports its result. WRITE and
DERIVE fill a slot with its attributes VALID, IMPORT one that its blob's tag proves, ERASE empties it, ROOT programs the
customer root once, and LC programs a permitted transition whose condition holds. Where the spec leaves a point open it
follows the model's choices of log entries 82, 83, 84. -/
def Obligations.KeyCommands : Prop :=
  (∀ (s : State), s.serves 5 →
    let pend (c : Instr) (code r : Nat) (P : State → Prop) := Answers c s fun t => t.vault.job = some (code, r) ∧
      t.get VIT_KSTAT_STATE = 1 ∧ t.resp = some .done ∧ P t
    let no (c : Instr) (code r : Nat) := pend c code r fun t => t.vault.keys = s.vault.keys ∧
      Writes [VIT_KSTAT_STATE.addr] [.vault, .resp] s t
    let lc := s.get VIT_STAT_LC
    let src := s.get VIT_KSRC_OFFSET
    let kind := s.get VIT_KATTR_KIND
    let once (h : Nat) := s.flag (VIT_SLOT_ONCE h) = true ∧ s.get (VIT_SLOT_STATE h) = 1
    (s.vault.job.isSome = true → ∀ (h arg : Fin 256) (ok : Bool) (b : Byte),
      let waits (c : Instr) := Answers c s fun t => Writes [] [.resp] s t
      waits (.keyWrite .host h ok) ∧ waits (.importKey .host ok) ∧ waits (.derive .host h arg) ∧ waits (.erase .host h) ∧
        waits (.lc .host b) ∧ waits (.root .host)) ∧
    (s.vault.job = none →
      (∀ (h : Fin 256) (ok : Bool),
        let c : Instr := .keyWrite .host h ok
        (2 ≤ lc → no c 1 1) ∧
        (lc < 2 → h.val < 224 → 2 ≤ kind → no c 1 6) ∧
        (lc < 2 → (224 ≤ h.val ∨ kind < 2) → once h → no c 1 2) ∧
        (lc < 2 → (224 ≤ h.val ∨ kind < 2) → ¬once h → pend c 1 0 fun t => t.keyOf h = s.bytes src (kindLen kind) ∧
          t.get (VIT_SLOT_STATE h) = (if 224 ≤ h.val ∧ ok = false then 2 else 1) ∧ t.get (VIT_SLOT_KIND h) = kind ∧
          t.get (VIT_SLOT_USE h) = s.get VIT_KATTR_USE ∧ t.get (VIT_SLOT_LC h) = s.get VIT_KATTR_LC ∧
          t.get (VIT_SLOT_WORLD h) = s.get VIT_KATTR_WORLD ∧ t.mem = s.mem ∧
          (∀ k : Fin 256, k ≠ h → t.keyOf k = s.keyOf k ∧ t.get (VIT_SLOT_STATE k) = s.get (VIT_SLOT_STATE k)) ∧
          (224 ≤ h.val → ok = false → (1761, 0x50) ∈ t.cur.live))) ∧
      (∀ (h arg : Fin 256),
        let c : Instr := .derive .host h arg
        let k := kdf (s.keyOf arg) (Config.labelContext src s.mem).1
          (s.chipId ++ [BitVec.ofNat 8 lc] ++ (Config.labelContext src s.mem).2)
        (lc = 4 → no c 3 1) ∧
        (lc ≠ 4 → 224 ≤ h.val ∨ 2 ≤ kind → no c 3 6) ∧
        (lc ≠ 4 → h.val < 224 → kind < 2 → (once h → no c 3 2) ∧
          (¬once h → (s.useOk arg 2 .host = false → no c 3 4) ∧
            (s.useOk arg 2 .host = true → pend c 3 0 fun t => t.keyOf h = k.take (kindLen kind) ∧
              t.get (VIT_SLOT_STATE h) = 1 ∧ t.flag (VIT_SLOT_PERSIST h) = false ∧ t.get (VIT_SLOT_KIND h) = kind ∧
              t.mem = s.mem ∧ ∀ x : Fin 256, x ≠ h → t.keyOf x = s.keyOf x)))) ∧
      (∀ ok : Bool,
        let c : Instr := .importKey .host ok
        let b (i n : Nat) := s.bytes (src + i) n
        let h := leNat (b 1 1)
        let kw := leNat (b 2 1)
        let attr : Word := BitVec.ofNat 32 (leNat (b 4 4))
        let len := leNat (b 20 4)
        let wellMade := blobKind (leNat (b 0 1)) len (bitsOf attr 2 2) = true ∧ (224 ≤ h ∨ bitsOf attr 2 2 < 2)
        (lc = 0 ∨ 3 < lc → no c 2 1) ∧
        (1 ≤ lc → lc ≤ 3 →
          (¬wellMade → no c 2 6) ∧
          (wellMade → once h → no c 2 2) ∧
          (wellMade → ¬once h →
            let allowed := (∀ w ∈ wordsOf src (40 + len), s.verdict (some 64) (w * 8) false = 0) ∧
              (224 ≤ h → 224 ≤ kw) ∧ s.useOk kw 3 .host = true
            let tag := gcmTag (s.keyOf kw) (b 8 12) (b 0 24 ++ s.deviceIdentity) (b 24 len)
            (¬allowed → no c 2 4) ∧
            (allowed → tag ≠ b (24 + len) 16 → no c 2 3) ∧
            (allowed → tag = b (24 + len) 16 → pend c 2 0 fun t =>
              t.keyOf h = gcmCrypt (s.keyOf kw) (b 8 12) (b 24 len) ∧
              t.get (VIT_SLOT_STATE h) = (if 224 ≤ h ∧ ok = false then 2 else 1) ∧ t.mem = s.mem)))) ∧
      (∀ h : Fin 256,
        (lc = 4 ∨ (224 ≤ h.val ∧ lc = 2) → no (.erase .host h) 4 1) ∧
        (lc ≠ 4 → (224 ≤ h.val → lc ≠ 2) → pend (.erase .host h) 4 0 fun t => t.keyOf h = [] ∧
          t.get (VIT_SLOT_STATE h) = 0 ∧ t.mem = s.mem ∧
          (224 ≤ h.val → t.vault.tlogSeq = s.vault.tlogSeq + 1) ∧ ∀ k : Fin 256, k ≠ h → t.keyOf k = s.keyOf k)) ∧
      (∀ b : Byte,
        let permitted := b.toNat ≤ 4 ∧ (b.toNat = lc + 1 ∨ b.toNat = 4 ∧ lc < 4)
        let condition := b.toNat = 4 ∨ (lc = 0 ∧ s.vault.cr.isSome = true) ∨ (lc = 1 ∧ ∃ i < 32,
          s.get (VIT_SLOT_STATE (224 + i)) = 1 ∧ (s.get (VIT_SLOT_USE (224 + i))).testBit 5 = true) ∨
          (lc = 2 ∧ s.flag SVC_DBG_UNLOCKED = true)
        (¬permitted → no (.lc .host b) 5 1) ∧
        (permitted → ¬condition → no (.lc .host b) 5 5) ∧
        (permitted → condition → pend (.lc .host b) 5 0 fun t => t.flag VIT_STAT_LC_PEND = true ∧
          t.get VIT_STAT_LC = lc ∧ t.vault.lcNext = some (max b.toNat (s.vault.lcNext.getD 0)) ∧
          t.vault.tlogSeq = s.vault.tlogSeq + 1 ∧ t.vault.keys = s.vault.keys)) ∧
      (2 ≤ lc → no (.root .host) 6 1) ∧
      (lc < 2 → s.vault.cr.isSome = true → no (.root .host) 6 2) ∧
      (lc < 2 → s.vault.cr = none → pend (.root .host) 6 0 fun t => t.vault.cr = some (s.bytes src 32) ∧
        t.flag VIT_STAT_CR = true ∧ t.vault.tlogSeq = s.vault.tlogSeq + 1 ∧ t.vault.keys = s.vault.keys))) ∧
  ∀ (s : State),
    (s.vault.job = none → Answers .keyCommandDone s fun t => t = s) ∧
    ∀ code r, s.vault.job = some (code, r) → r < 16 → Answers .keyCommandDone s fun t => t.vault.job = none ∧
      t.get VIT_KSTAT_STATE = (if r = 0 then 2 else 3) ∧ t.get VIT_KSTAT_RESULT = r ∧ t.vault.keys = s.vault.keys

/-- The authenticator, the counters, the tamper log and the tamper input (R438 to R447), commanded by the host or by an
engine that its PMP lets reach the register (R274). Where the spec leaves a point open it follows the model's choices of log
entries 85, 86, 99, 100. -/
def Obligations.AuthenticatorAndVault : Prop :=
  (∀ (s : State) (q : Requester) (k : Nat) (b : Fin 1024) (len : Fin 4096), s.serves 5 → s.passes q 0x5300020 true →
    s.ownerCode q = some k → k ≤ 64 →
    let a := s.get (VIT_AU_BUF_OFFSET k)
    let tail := s.fvLen b + s.macLen b
    let c := s.counter (64 + b)
    let done (i : Instr) (r out fv : Nat) (P : State → Prop) := Answers i s fun t => t.get (VIT_AU_STAT_STATE k) = 2 ∧
      t.get (VIT_AU_STAT_RES k) = r ∧ t.get (VIT_AU_STAT_OUTLEN k) = out ∧ t.get (VIT_AU_FV_FV k) = fv ∧ P t
    let same (t : State) := t.mem = s.mem ∧ t.vault.counters = s.vault.counters
    let mine (dir : Nat) := s.flag (VIT_BIND0_VALID b) = true ∧ s.get (VIT_BIND0_OWNER b) = k ∧ s.get (VIT_BIND0_DIR b) = dir
    let keyOk := s.useOk (s.get (VIT_BIND0_SLOT b)) 6 (s.worldOf q) = true
    s.get (VIT_AU_STAT_STATE k) ≠ 1 →
    (∀ m,
      (¬mine 0 → done (.sign q b len m) 3 0 0 same) ∧ (¬mine 1 → done (.verify q b len m) 3 0 0 same) ∧
      (mine 0 → ¬keyOk → done (.sign q b len m) 4 0 0 same) ∧ (mine 1 → ¬keyOk → done (.verify q b len m) 4 0 0 same) ∧
      (mine 0 → keyOk → s.bufferOk q a (len + tail) = false → done (.sign q b len m) 5 0 0 same) ∧
      (mine 1 → keyOk → s.bufferOk q a len = false → done (.verify q b len m) 5 0 0 same) ∧
      (mine 0 → keyOk → s.bufferOk q a (len + tail) = true → 2048 < len + tail → done (.sign q b len m) 6 0 0 same) ∧
      (mine 1 → keyOk → s.bufferOk q a len = true → (2048 < len.val ∨ len < tail) → done (.verify q b len m) 6 0 0 same)) ∧
    (mine 0 → keyOk → s.bufferOk q a (len + tail) = true → len + tail ≤ 2048 → s.halls.poison = [] →
      let fv := c.value + 1
      (s.flag (VAULT_FV_RDONLY b) = true ∨ 2 ^ 64 ≤ fv → done (.sign q b len .ok) 7 0 0 same) ∧
      (s.flag (VAULT_FV_RDONLY b) = false → fv < 2 ^ 64 → done (.sign q b len .ok) 0 (len + tail) fv fun t =>
        (t.counter (64 + b)).value = fv ∧
        let p := s.protect b (s.bytes a len) fv
        let payload := p.1 ++ (beBytes 8 fv).drop (8 - s.fvLen b) ++ p.2
        ∀ i (h : i < payload.length), t.byte (a + i) = payload[i])) ∧
    (mine 1 → keyOk → s.bufferOk q a len = true → len.val ≤ 2048 → tail ≤ len →
      let n := len.val - tail
      let fv := rebuildFv c.value (s.fvLen b) (beNat (s.bytes (a + n) (s.fvLen b)))
      let inWindow := c.value < fv ∧ fv - c.value ≤ max 1 (s.get (VIT_BIND2_W b)) ∧ fv < 2 ^ 64
      let body := s.bytes a n
      let plain := if s.get (VIT_BIND0_ALG b) = 2
        then gcmCrypt (s.keyOf (s.get (VIT_BIND0_SLOT b))) (s.idWord b ++ beBytes 8 fv) body else body
      let matches_ := (s.protect b plain fv).2 = s.bytes (a + n + s.fvLen b) (s.macLen b)
      (¬inWindow → done (.verify q b len .ok) 2 0 (fv % 2 ^ 64) same) ∧
      (inWindow → ¬matches_ → done (.verify q b len .ok) 1 0 fv same) ∧
      (inWindow → matches_ → s.flag (VAULT_FV_RDONLY b) = false → done (.verify q b len .ok) 0 n fv fun t =>
        (t.counter (64 + b)).value = fv ∧ (s.get (VIT_BIND0_ALG b) ≠ 2 → t.mem = s.mem)))) ∧
  (∀ (s : State) (q : Requester) (k : Fin 64), s.serves 1 → s.passes q VAULT_MC_CMD_CMD.addr true →
    let owns := 8 ≤ k.val ∧ s.ownerCode q = some (s.get (VAULT_MC_OWNER k))
    let v := (s.counter k).value
    let arg := s.get VAULT_MC_ARG_VALUE
    let still (c : Instr) := Answers c s fun t => Writes [] [.resp] s t
    let rises (c : Instr) (w : Nat) := Answers c s fun t => (t.counter k).value = w ∧ t.get (VAULT_MC_VALUE k) = w ∧
      ∀ j, j ≠ k.val → t.counter j = s.counter j
    (∀ m, (¬owns → still (.inc q k m) ∧ still (.raise q k m)) ∧ (arg ≤ v → still (.raise q k m))) ∧
    (owns → s.flag (VAULT_MC_RDONLY k) = true → still (.inc q k .ok) ∧ still (.raise q k .ok)) ∧
    (owns → s.flag (VAULT_MC_RDONLY k) = false → (v + 1 < 2 ^ 56 → rises (.inc q k .ok) (v + 1)) ∧
      (v < arg → rises (.raise q k .ok) arg) ∧
      Answers (.inc q k .failed) s fun t => v + 1 < 2 ^ 56 → t.flag (VAULT_MC_RDONLY k) = true ∧
        (t.counter k).value = v ∧ (1765, 0x52) ∈ t.cur.live)) ∧
  (∀ (s : State) (q : Requester) (d : BitVec 64), s.serves 1 → s.passes q VAULT_TLOG_APP_DATA.addr true →
    (q = .host ∨ ∃ e, q = .engine e ∧ s.flag VAULT_TLOG_CFG_APP_EN = true ∧
      s.stationOf e = some (s.get VAULT_TLOG_CFG_APPEND)) →
    let n := s.vault.tlogSeq
    let body := beBytes 4 n ++ [if q = .host then 9 else 10] ++
      leBytes 3 (if q = .host then 0 else s.get VAULT_TLOG_CFG_APPEND) ++ leBytes 8 s.vaultStamp ++ leBytes 8 d.toNat
    let mac := (cmac s.tlogKey (body ++ s.vault.tlogMac)).take 8
    Answers (.tlogAppend q d) s fun t => t.vault.tlogSeq = n + 1 ∧ t.vault.tlogMac = mac ∧ t.mem = s.mem ∧
      ∀ w < 8, t.word (VAULT_TLOG_W (n % 4096) w).addr = BitVec.ofNat 32 (leNat (((body ++ mac).drop (4 * w)).take 4))) ∧
  ∀ (s : State),
    let happens := s.flag VAULT_TAMPER_CFG_EN = true ∧ s.vault.tamperHeld = false
    (∀ m, ¬happens → Answers (.tamperEvent m) s fun t => t = s) ∧
    (happens → s.flag (VAULT_MC_RDONLY 3) = false → Answers (.tamperEvent .ok) s fun t => t.vault.tamperHeld = true ∧
      t.flag VAULT_STAT_TAMPER = true ∧ (t.counter 3).value = (s.counter 3).value + 1 ∧
      (∃ f ∈ t.cur.inbox, f.src = 1827 ∧ f.kind = 0x53) ∧
      (s.vaultRails = true → t.vault.tlogSeq = s.vault.tlogSeq + s.vault.tamperLog.length + 1) ∧
      (s.flag VAULT_TAMPER_CFG_ZERO = true → ∀ h < 224, t.keyOf h = [] ∧ t.get (VIT_SLOT_STATE h) = 0) ∧
      (s.flag VAULT_TAMPER_CFG_ZERO = false → t.vault.keys = s.vault.keys)) ∧
    Answers .tamperRearm s fun t => t.vault.tamperHeld = false ∧ t.flag VAULT_STAT_TAMPER = false ∧
      Writes [VAULT_STAT_TAMPER.addr] [.vault] s t

/-- Delivery of a firmware image (R455 to R459, R469). MANIFEST and CHUNK in a state that does not permit them, and while a
command runs, set CMDERR and change nothing else. A manifest that fails a check has its result and changes no chunk and no
journal; the one whose digest prefix the journal holds keeps the resume map; another clears it, and once it is programmed bit
0 alone is set and the journal is LOADING. A chunk in flash already writes nothing; one with another hash has result 4; one
whose read-back differs has result 5; else it is programmed and its bit sets, and with bits 0 to NCHUNK all set the journal
enters STAGED. UPD_COMMAND_DONE shows the result. Where the spec leaves a point open it follows the model's choices of log
entries 87, 88, 89. -/
def Obligations.FirmwareDelivery : Prop :=
  (∀ s : State, s.serves 21 →
    let st := s.get UPD_STAT_STATE
    let busy := s.flag UPD_STAT_BUSY = true
    let prep := s.flag UPD_STAT_PREP = true
    let bad (c : Instr) := Answers c s fun t => t.flag UPD_STAT_CMDERR = true ∧ Writes [UPD_STAT_CMDERR.addr] [.resp] s t
    let j := s.updJournal
    let b := j.spare
    let man := s.manifest b
    let ends (c : Instr) (code : Nat) (r : Option Nat) (P : State → Prop) :=
      Answers c s fun t => t.upd.job = some (code, r) ∧ t.flag UPD_STAT_BUSY = true ∧ t.resp = some .done ∧ P t
    let kept (t : State) := t.upd.chunks = s.upd.chunks ∧ t.updJournal = j ∧ Writes [UPD_STAT_BUSY.addr] [.upd, .resp] s t
    let otherSlot (t : State) := ∀ k < 256, t.chunk (!b) k = s.chunk (!b) k
    let loads := st = 0 ∨ st = 1 ∨ st = 2 ∧ ¬prep
    let loading := st = 1 ∨ st = 2 ∧ ¬prep
    (∀ f,
      let c : Instr := .manifest .host f
      (busy ∨ ¬loads → bad c) ∧
      (¬busy → loads →
        (s.updSource manifestSize = none → ends c 1 (some 6) kept) ∧
        ∀ m, s.updSource manifestSize = some m →
          let p := (manifestDigest m).take 8
          let resumes := p = j.prefix8 ∧ s.flag (mapLoc 0) = true
          (s.manifestCheck m ≠ 0 → ends c 1 (some (s.manifestCheck m)) kept) ∧
          (s.manifestCheck m = 0 → resumes → ends c 1 (some 0) fun t => t.upd.chunks = s.upd.chunks ∧
            (∀ k < 256, t.flag (mapLoc k) = s.flag (mapLoc k)) ∧ t.updJournal.prefix8 = p ∧
            t.updJournal.state = (if j.state = 2 ∨ ∀ k < nchunk man + 1, s.flag (mapLoc k) = true then 2
              else if j.state = 0 then 1 else j.state)) ∧
          (s.manifestCheck m = 0 → ¬resumes →
            (f = .ok → ends c 1 (some 0) fun t => t.chunk b 0 = m ++ List.replicate (65536 - m.length) 0 ∧
              (∀ k < 256, t.flag (mapLoc k) = decide (k = 0)) ∧ t.updJournal.state = 1 ∧ t.updJournal.prefix8 = p ∧
              t.updJournal.ver b = manifestVersion m ∧ t.get UPD_STAT_STATE = 1 ∧ otherSlot t) ∧
            (f = .mismatch → ends c 1 (some 5) fun t => (∀ k < 256, t.flag (mapLoc k) = false) ∧ otherSlot t) ∧
            (f = .cut → ends c 1 none fun t => (∀ k < 256, t.flag (mapLoc k) = false) ∧ otherSlot t)))) ∧
    ∀ (k : Fin 256) (f : FlashSeen),
      let c : Instr := .chunk .host k f
      (busy ∨ ¬loading → bad c) ∧
      (¬busy → loading →
        (s.flag (mapLoc k) = true → ends c 2 (some 0) kept) ∧
        (s.flag (mapLoc k) = false →
          (s.updSource 65536 = none → ends c 2 (some 6) kept) ∧
          ∀ bs, s.updSource 65536 = some bs →
            let hashed := sha384 bs = (man.drop (0x800 + 48 * (k.val - 1))).take 48
            let inside := 1 ≤ k.val ∧ k.val ≤ nchunk man
            let onlyK (t : State) := (∀ i < 256, i ≠ k.val → t.flag (mapLoc i) = s.flag (mapLoc i) ∧ t.chunk b i = s.chunk b i) ∧
              otherSlot t
            (¬inside → ends c 2 (some 6) kept) ∧
            (inside → ¬hashed → ends c 2 (some 4) kept) ∧
            (inside → hashed →
              (f = .ok → ends c 2 (some 0) fun t => t.chunk b k = bs ∧ t.flag (mapLoc k) = true ∧ onlyK t ∧
                (j.state ≠ 2 → (∀ i < nchunk man + 1, i ≠ k.val → s.flag (mapLoc i) = true) → t.updJournal.state = 2 ∧
                  t.get UPD_STAT_STATE = 2 ∧ t.updJournal.lwy b = imageDigest (t.slotImage b))) ∧
              (f = .mismatch → ends c 2 (some 5) fun t => t.flag (mapLoc k) = false ∧ onlyK t) ∧
              (f = .cut → ends c 2 none fun t => t.flag (mapLoc k) = false ∧ onlyK t))))) ∧
  ∀ s : State,
    (∀ code r, s.upd.job = some (code, some r) → r < 16 → Answers .updCommandDone s fun t => t.upd.job = none ∧
      t.flag UPD_STAT_BUSY = false ∧ t.get UPD_STAT_RESULT = r ∧ t.upd.chunks = s.upd.chunks ∧ t.updJournal = s.updJournal) ∧
    ((s.upd.job = none ∨ ∃ code, s.upd.job = some (code, none)) → Answers .updCommandDone s fun t => t = s)

/-- PREPARE and the steps of a handover (R461, R463). PREPARE ends with the result of the first step that fails and leaves
STAGED, or with the structure image staged, the code in its staging area and PREP 1. HANDOVER writes the journal and REQ 1
into each old part and rings the lowest cluster of each station that runs; the deadline halts every station that still runs
and sets its FORCED bit; once every engine is halted the staged code goes into the instruction SRAM and COMMIT is issued;
after the switch instant the journal enters TRIAL with the new slot as imago. Where the spec leaves a point open it follows
the model's choices of log entries 90, 91. -/
def Obligations.FirmwareHandover : Prop :=
  (∀ s : State, s.serves 21 →
    let st := s.get UPD_STAT_STATE
    let busy := s.flag UPD_STAT_BUSY = true
    let prep := s.flag UPD_STAT_PREP = true
    let bad (c : Instr) := Answers c s fun t => t.flag UPD_STAT_CMDERR = true ∧ Writes [UPD_STAT_CMDERR.addr] [.resp] s t
    let j := s.updJournal
    let b := j.spare
    let m := s.manifest b
    (∀ ok,
      let c : Instr := .prepare .host ok
      let kept (r : Nat) := Answers c s fun t => t.upd.job = some (3, some r) ∧ Writes [UPD_STAT_BUSY.addr] [.upd, .resp] s t
      let hashes := ∀ i < nchunk m, sha384 (s.chunk b (i + 1)) = (m.drop (0x800 + 48 * i)).take 48
      (busy ∨ st ≠ 2 ∨ s.get IMG_STATUS_PHASE ≠ 0 → bad c) ∧
      (¬busy → st = 2 → s.get IMG_STATUS_PHASE = 0 →
        (s.manifestCheck m ≠ 0 → kept (s.manifestCheck m)) ∧
        (s.manifestCheck m = 0 → ¬hashes → kept 4) ∧
        (s.manifestCheck m = 0 → hashes → ∃ r, (r = 0 ∨ r = 5 ∨ r = 7 ∨ r = 8 ∨ r = 9) ∧ Answers c s fun t =>
          t.upd.job = some (3, some r) ∧ t.get UPD_STAT_STATE = 2 ∧ t.updJournal = j ∧ t.upd.chunks = s.upd.chunks ∧
          (t.flag UPD_STAT_PREP = true ↔ r = 0 ∨ prep) ∧
          ((imgFlags (s.slotImage b)).testBit 1 = true → r = 7) ∧
          (r = 7 → (imgFlags (s.slotImage b)).testBit 1 = true ∨ t.get IMG_STATUS_PHASE = 6) ∧
          (r = 5 → ok = false) ∧
          (r = 0 → ok = true ∧ t.get IMG_STATUS_PHASE = 4 ∧ t.journal.state = 2 ∧
            t.journal.newDigest = imageDigest (s.slotImage b) ∧
            t.upd.chrysalis = (leAt m 0x1C 4, leAt m 0x20 4) ∧ leAt m 0x1C 4 % 65536 = 0 ∧
            (s.halls.poison = [] → ∀ x ∈ (codeTable m).zipIdx, ∀ i (h : i < (s.slotCode b x.1).length),
              t.byte (leAt m 0x24 4 + 65536 * x.2 + i) = (s.slotCode b x.1)[i]))))) ∧
    (let c : Instr := .handover .host
     (busy ∨ ¬(st = 2 ∧ prep) → bad c) ∧
     (¬busy → st = 2 → prep → Answers c s fun t => t.upd.job = some (4, none) ∧ t.updJournal.state = 3 ∧
       t.get UPD_STAT_STATE = 3 ∧ t.upd.hoTick = some s.ticks ∧ t.upd.committing = false ∧
       (∀ k < 2, t.get (UPD_FORCED_BITS k) = 0) ∧
       (∀ k < 64, ∀ c', s.stationRuns k = true → (s.clustersOf k).head? = some c' →
         (t.get (CLU_DOORBELL_PEND c')).testBit 0 = true) ∧
       (s.upd.chrysalis.1 % 64 = 0 → s.upd.chrysalis.2 % 64 = 0 → 0 < s.upd.chrysalis.2 → s.halls.poison = [] →
         ∀ k < 64, t.bytes (s.chrysalisPart k) 4 = [1, 0, 0, 0])))) ∧
  ∀ s : State,
    let due := s.handingOver = true ∧ ∃ t0, s.upd.hoTick = some t0 ∧ t0 + ticksOfMs s.chryMs ≤ s.ticks
    (∀ stuck,
      (¬due → Answers (.chrysalisDeadline stuck) s fun t => t = s) ∧
      (due → Answers (.chrysalisDeadline stuck) s fun t =>
        (∀ k < 64, s.stationRuns k = true → t.flag (forcedLoc k) = true ∧ ∀ e ∈ s.stationEngines k, t.estate e ≤ 1) ∧
        (∀ k < 64, s.stationRuns k = false → t.flag (forcedLoc k) = s.flag (forcedLoc k)) ∧
        (stuck = [] → s.upd.chrysalis.1 % 64 = 0 → s.upd.chrysalis.2 % 64 = 0 → 0 < s.upd.chrysalis.2 →
          s.halls.poison = [] → ∀ k < 64, s.stationRuns k = true → t.bytes (s.chrysalisPart k + 12) 4 = [2, 0, 0, 0]))) ∧
    (let halted := s.handingOver = true ∧ s.get IMG_STATUS_PHASE = 4 ∧ ∀ e < 1024, s.estate e ≤ 1
     let m := s.manifest s.updJournal.spare
     (¬halted → Answers .handoverCodeLoad s fun t => t = s) ∧
     (halted → Answers .handoverCodeLoad s fun t => t.upd.committing = true ∧ t.get IMG_STATUS_PHASE = 5 ∧
       t.img.writing.isSome = true ∧ t.mem = s.mem ∧
       ∀ x ∈ (codeTable m).zipIdx, x.1.2.2 ≤ 65536 → ∀ i < x.1.2.2,
         smapFind (fun _ => 0) (t.cluster x.1.1).isram i = s.byte (s.upd.staging.1 + 65536 * x.2 + i))) ∧
    (let switched := s.get UPD_STAT_STATE = 3 ∧ s.upd.committing = true ∧ s.img.writing = none
     let j := s.updJournal
     (¬switched → Answers .trialJournal s fun t => t = s) ∧
     (switched → Answers .trialJournal s fun t => t.updJournal.state = 4 ∧ t.updJournal.imago = j.spare ∧
       t.updJournal.imagoValid = true ∧ t.updJournal.tries = 0 ∧ t.get UPD_STAT_STATE = 4 ∧
       t.upd.trialTick = some s.ticks ∧ t.upd.hoTick = none ∧
       (s.upd.job = some (4, none) → t.upd.job = some (4, some 0))))

/-- Confirmation, fallback, the outcome after a reset and Ramorny (R460, R465 to R469). CONFIRM makes the journal IDLE with
the new slot as imago, raises MC 1 to VERSION where the manifest says so, leaves MC 0 and clears the chrysalis. The fallback
writes FALLBACK, halts every engine, loads the old slot's code and commits the old image. DISCARD returns to IDLE. A boot
takes as imago the slot whose digest governs, loads its code, starts engines with AUTO 1 and moves the journal as the table
"Outcome after reset" says; with none Ramorny takes the service port. Ramorny writes the slot through the checks of MANIFEST
and CHUNK; in END nothing answers (R12). Where the spec leaves a point open it follows the model's choices of log entries 89,
92, 93, 94. -/
def Obligations.FirmwareOutcomes : Prop :=
  let coded (t s : State) (b : Bool) := ∀ x ∈ codeTable (s.manifest b), x.2.2 ≤ 65536 →
    ∀ i (h : i < (s.slotCode b x).length), smapFind (fun _ => 0) (t.cluster x.1).isram i = (s.slotCode b x)[i]
  let falls (t s : State) (cause : Nat) := t.updJournal.state = 5 ∧ t.get UPD_STAT_STATE = 5 ∧ t.upd.trialTick = none ∧
    (∃ done, t.upd.fallback = some (cause, done)) ∧ (∀ e < 1024, s.flag (CLU_CFG_ASSIGNED (e / 8)) = true → t.estate e ≤ 1) ∧
    coded t s s.updJournal.spare
  (∀ s : State, s.serves 21 →
    let st := s.get UPD_STAT_STATE
    let busy := s.flag UPD_STAT_BUSY = true
    let bad (c : Instr) := Answers c s fun t => t.flag UPD_STAT_CMDERR = true ∧ Writes [UPD_STAT_CMDERR.addr] [.resp] s t
    let j := s.updJournal
    (∀ m,
      let c : Instr := .confirm .host m
      let man := s.manifest j.imago
      (busy ∨ st ≠ 4 ∨ s.get IMG_STATUS_PHASE ≠ 0 → bad c) ∧
      (¬busy → st = 4 → s.get IMG_STATUS_PHASE = 0 → Answers c s fun t => t.upd.job = some (5, some 0) ∧
        t.updJournal.state = 0 ∧ t.updJournal.imago = j.imago ∧ t.get UPD_STAT_STATE = 0 ∧ t.upd.trialTick = none ∧
        (∀ a, s.upd.chrysalis.1 ≤ a → a < s.upd.chrysalis.1 + 128 * s.upd.chrysalis.2 → t.byte a = 0) ∧
        t.counter 0 = s.counter 0 ∧
        ((leAt man 0x10 4).testBit 0 = false → t.counter 1 = s.counter 1) ∧
        ((leAt man 0x10 4).testBit 0 = true → m = .ok → s.flag (VAULT_MC_RDONLY 1) = false →
          (t.counter 1).value = max (s.counter 1).value (manifestVersion man)))) ∧
    (∀ stuck,
      let c : Instr := .fallback .host stuck
      (busy ∨ st ≠ 4 → bad c) ∧
      (¬busy → st = 4 → Answers c s fun t => t.upd.job = some (6, none) ∧ falls t s 2 ∧
        (s.get IMG_STATUS_PHASE = 0 → imageDigest (s.img.area s.journal.other) = j.lwy j.spare →
          t.get IMG_STATUS_PHASE = 5 ∧ t.img.writing.isSome = true ∧ t.upd.fallback = some (2, true)))) ∧
    (let c : Instr := .discard .host
     (busy ∨ ¬(st = 1 ∨ st = 2) → bad c) ∧
     (¬busy → st = 1 ∨ st = 2 → Answers c s fun t => t.upd.job = some (7, some 0) ∧ t.updJournal.state = 0 ∧
       t.get UPD_STAT_STATE = 0 ∧ (∀ k < 256, t.flag (mapLoc k) = false) ∧ t.flag UPD_STAT_PREP = false ∧
       (s.flag UPD_STAT_PREP = true → t.get IMG_STATUS_PHASE = 0 ∧ t.img.shadow = []))) ∧
    ∀ (code : Fin 16) (arg : Byte), busy ∨ code.val = 0 ∨ 8 ≤ code.val ∨ (code.val = 1 ∧ 3 ≤ st) ∨
      (code.val = 2 ∧ st ≠ 1 ∧ st ≠ 2) ∨ ((code.val = 3 ∨ code.val = 4) ∧ st ≠ 2) ∨ ((code.val = 5 ∨ code.val = 6) ∧ st ≠ 4) ∨
      (code.val = 7 ∧ st ≠ 1 ∧ st ≠ 2) → bad (.updCmdIgnored .host code arg)) ∧
  (∀ (s : State) (stuck : List EngNo),
    let due := s.get UPD_STAT_STATE = 4 ∧ ∃ t0, s.upd.trialTick = some t0 ∧ t0 + s.trialS * 500000000 ≤ s.ticks
    (¬due → Answers (.trialExpiry stuck) s fun t => t = s) ∧
    (due → Answers (.trialExpiry stuck) s fun t => falls t s 1)) ∧
  (∀ (s : State) (stuck : List EngNo),
    let settled := s.usable = true ∧ s.img.restored = true ∧ s.upd.booted = false
    let j := s.updJournal
    let d := imageDigest s.img.gov
    let own := s.img.gov ≠ [] ∧ j.imagoValid = true ∧ j.lwy j.imago = d
    let new := s.img.gov ≠ [] ∧ ¬own ∧ j.lwy j.spare = d
    let boots (P : State → Prop) := Answers (.updateBoot stuck) s fun t => t.upd.booted = true ∧ P t
    let runs (b : Bool) (t : State) := coded t s b ∧ t.upd.fallback = s.upd.fallback ∧
      ∀ e < 1024, s.flag (CLU_CFG_ASSIGNED (e / 8)) = true → s.flag (rgnReadyLoc (e / 64)) = true → s.estate e ≤ 1 →
        t.estate e = (if s.flag (ENG_CFG_AUTO e) then 2 else 1)
    let is (t : State) (state : Nat) (b : Bool) (tries : Nat) := t.updJournal.state = state ∧ t.updJournal.imago = b ∧
      t.updJournal.imagoValid = true ∧ t.updJournal.tries = tries
    (¬settled → Answers (.updateBoot stuck) s fun t => t = s) ∧
    (settled → s.get SVC_STAT_RAMORNY = 0 → ¬own → ¬new → boots fun t => t.updJournal = j ∧ t.flag SVC_STAT_RAMORNY = true ∧
      t.flag UPD_STAT_IMAGO_VALID = false ∧ (1866, 0x55) ∈ t.cur.live ∧ t.upd.held = s.upd.held ∧
      ∀ e < 1024, t.estate e = s.estate e) ∧
    (settled → own → j.state ≤ 2 → boots fun t => t.updJournal = j ∧ runs j.imago t) ∧
    (settled → own → j.state = 3 → boots fun t => is t 2 j.imago j.tries ∧ runs j.imago t) ∧
    (settled → own → j.state = 4 → j.tries < s.get UPD_CFG_MAXTRY → boots fun t => is t 4 j.imago (j.tries + 1) ∧
      runs j.imago t ∧ t.upd.trialTick = some s.ticks) ∧
    (settled → own → j.state = 4 → s.get UPD_CFG_MAXTRY ≤ j.tries → boots fun t => falls t s 3) ∧
    (settled → own → j.state = 5 → boots fun t => falls t s 3) ∧
    (settled → new → j.state = 3 → boots fun t => is t 4 j.spare 1 ∧ runs j.spare t ∧ t.upd.trialTick = some s.ticks) ∧
    (settled → new → j.state = 5 → boots fun t => is t 0 j.spare 0 ∧ (∀ k < 256, t.flag (mapLoc k) = false) ∧
      runs j.spare t)) ∧
  ∀ s : State,
    let next := s.get SVC_DFU_NEXT_BLOCK
    let st := s.get UPD_STAT_STATE
    let b := s.updJournal.spare
    (s.flag SVC_STAT_RAMORNY = false ∨ s.ended = true → ∀ n bs f rcvr bad, (Answers (.dfuDnload n bs f) s fun t => t = s) ∧
      Answers (.dfuDnloadEnd rcvr bad) s fun t => t = s) ∧
    (s.flag SVC_STAT_RAMORNY = true → s.ended = false → ∀ (n : Fin 65536) (bs : List Byte) (f : FlashSeen),
      let c : Instr := .dfuDnload n bs f
      let sends (x : Nat) := Answers c s fun t => t.out = .dfu x :: s.out ∧ Writes [] [.out] s t
      let k := n.val / 16
      let writable := st ≤ 1 ∨ st = 2 ∧ s.flag UPD_STAT_PREP = false
      let block := (bs ++ List.replicate (4096 - bs.length) 0).take 4096
      let all := s.upd.dfu ++ block
      let man := s.manifest b
      let fits := n.val = next ∧ writable ∧ (k = 0 ∨ k ≤ nchunk man)
      let ran (x next' : Nat) (P : State → Prop) := Answers c s fun t => t.out = .dfu x :: s.out ∧
        t.get SVC_DFU_NEXT_BLOCK = next' ∧ t.upd.dfu = [] ∧ P t
      (n.val < next → sends 0) ∧
      (next ≤ n.val → ¬fits → sends 4) ∧
      (fits → n.val % 16 ≠ 15 → Answers c s fun t => t.out = .dfu 0 :: s.out ∧ t.get SVC_DFU_NEXT_BLOCK = n.val + 1 ∧
        t.upd.dfu = all ∧ t.upd.chunks = s.upd.chunks) ∧
      (fits → n.val = 15 → s.manifestCheck (all.take manifestSize) ≠ 0 →
        ran (dfuStatus (s.manifestCheck (all.take manifestSize))) 0 fun t => t.upd.chunks = s.upd.chunks) ∧
      (fits → n.val % 16 = 15 → 15 < n.val → s.flag (mapLoc k) = false →
        (sha384 all ≠ (man.drop (0x800 + 48 * (k - 1))).take 48 → ran 2 (16 * k) fun t => t.upd.chunks = s.upd.chunks) ∧
        (sha384 all = (man.drop (0x800 + 48 * (k - 1))).take 48 →
          (f = .mismatch → ran 3 (16 * k) fun t => t.flag (mapLoc k) = false) ∧
          (f = .ok → k < 256 → ran 0 (16 * k + 16) fun t => t.flag (mapLoc k) = true ∧ t.chunk b k = all)))) ∧
    (s.flag SVC_STAT_RAMORNY = true → s.ended = false → s.get IMG_STATUS_PHASE ≠ 5 → s.img.writing = none → ∀ rcvr bad,
      let c : Instr := .dfuDnloadEnd rcvr bad
      (st ≠ 2 → Answers c s fun t => t.out = .dfu 5 :: s.out ∧ Writes [] [.out] s t) ∧
      (st = 2 → s.flag UPD_STAT_IMAGO_VALID = true → Answers c s fun t => t.out = .dfu 0 :: s.out ∧ Writes [] [.out] s t) ∧
      (st = 2 → s.flag UPD_STAT_IMAGO_VALID = false → Answers c s fun t => t.updJournal.state = 0 ∧ t.updJournal.imago = b ∧
        t.updJournal.imagoValid = true ∧ t.journal.state = 3 ∧ t.journal.newDigest = imageDigest (s.slotImage b) ∧
        t.img.area t.journal.other = s.slotImage b ∧ t.img.gov = [] ∧ t.upd.chunks = s.upd.chunks ∧ t.upd.booted = false))

/-- Agreement of a constellation (R476 to R480). Once in every period a member hands every other member an AGREE, fences
itself while a fencing condition holds and ends its fencing after 3 periods without one. An AGREE sets the offset to its
peer, THETA where the peer is the reference, and the pair's agreement or the lowest disagreement kind; silence and a stale
THETA end agreement; a pair that is lost is counted and recorded; a NOTICE is recorded where no record is held, and a loss
that a NOTICE told in the same cycle is marked as detected here (R485). FRAME messages (R32, R482, R485). While the gateway
is not usable the message is held. From a member whose pair does not hold now it is discarded and counted in XDROP; else the
legs of its route are applied with the carried values, its REMOTE legs are skipped and counted in PEER_SKIP, and the route's
budget does not count it. Where the spec leaves a point open it follows the model's choices of log entries 65, 95. -/
def Obligations.Constellations : Prop :=
  (∀ s : State,
     let isPeer (p : Nat) := s.member = true ∧ p ∈ s.peersOf
     let told (j : Nat) := s.flag CON_DIS_NOTICE = true ∧ s.con.disTick = s.ticks ∧
       (s.get CON_DIS_I = s.self ∧ s.get CON_DIS_J = j ∨ s.get CON_DIS_I = j ∧ s.get CON_DIS_J = s.self)
     let recorded (t : State) (i j kind : Nat) (notice : Bool) (at_ : Nat) := t.flag CON_DIS_VALID = true ∧
       (s.flag CON_DIS_VALID = false ∨ notice = false ∧ told j → t.get CON_DIS_I = i ∧ t.get CON_DIS_J = j ∧ t.get CON_DIS_KIND = kind ∧
         t.flag CON_DIS_NOTICE = notice ∧ t.word64 CON_DIS_T_NS.addr = BitVec.ofNat 64 (stampWord at_)) ∧
       (s.flag CON_DIS_VALID = true → ¬(notice = false ∧ told j) → t.word CON_DIS_I.addr = s.word CON_DIS_I.addr ∧
         t.word64 CON_DIS_T_NS.addr = s.word64 CON_DIS_T_NS.addr)
     let pair (t : State) (p kind : Nat) := t.get (CON_PEER_STAT_KIND p) = kind ∧
       t.flag (CON_PEER_STAT_AGREED p) = decide (kind = 0) ∧ t.flag (agreedLoc p) = decide (kind = 0)
     let lost (t : State) (p kind : Nat) := s.flag (CON_PEER_STAT_AGREED p) = true → recorded t s.self p kind false s.now ∧
       t.get (CON_PEER_CNT_LOST p) = min (s.get (CON_PEER_CNT_LOST p) + 1) 0xFFFF ∧ ∃ f ∈ t.cur.inbox, f.src = 1889 ∧ f.kind = 0x56
     -- AGREE_SEND
     (let due := s.member = true ∧ s.con.periodTick + s.period ≤ s.ticks
      (¬due → Answers .agreeSend s fun t => t = s) ∧
      (due → Answers .agreeSend s fun t => t.con.periodTick = s.ticks ∧
        (s.get CON_CFG_TREF = s.self → t.flag CON_STAT_THETA_OK = true) ∧
        (s.mustFence = true → t.flag CON_STAT_FENCED = true ∧ t.con.clearPeriods = 0) ∧
        (s.mustFence = false → s.flag CON_STAT_FENCED = true →
          t.flag CON_STAT_FENCED = decide (s.con.clearPeriods + 1 < 3) ∧ t.con.clearPeriods = s.con.clearPeriods + 1) ∧
        ∀ m ∈ s.peersOf, s.flag (SPN_STR_STAT_RUN (s.get (CON_PEER_CFG_STREAM m))) = true →
          .message none none (t.conHeader 1 m ++ t.agreeBody m) ∈ (t.stream (s.get (CON_PEER_CFG_STREAM m))).queue)) ∧
     -- AGREE_RECEIVE
     (∀ (p : Fin 8) (a : Agree) (t3 t4 c2 : Nat),
       let c : Instr := .agreeReceive p a t3 t4 c2
       let θ := thetaOf a t3 t4 c2
       let pf := a.fenced = true ∨ s.thr < a.theta.natAbs
       (¬isPeer p → Answers c s fun t => t = s) ∧
       (isPeer p → Answers c s fun t => t.getInt (CON_PEER_OFF_NS p) = sat32 θ ∧
         t.peer p = { lastTick := some s.ticks, version := a.version, epoch := a.epoch, digest := a.ad, echo := some (t3, t4, c2) } ∧
         (t.flag (CON_PEER_STAT_PFENCED p) = true ↔ pf) ∧
         (s.get CON_CFG_TREF = p → t.get CON_THETA_NS = (θ % 2 ^ 64).toNat ∧ t.flag CON_STAT_THETA_OK = true ∧
           t.con.thetaTick = some s.ticks ∧ (s.thr < (s64 (θ % 2 ^ 64).toNat).natAbs → t.flag CON_STAT_FENCED = true)) ∧
         (s.get CON_CFG_TREF ≠ p → t.get CON_THETA_NS = s.get CON_THETA_NS ∧
           t.flag CON_STAT_FENCED = s.flag CON_STAT_FENCED) ∧
         (let sameVersion := a.version = s.get IMG_VERSION_VERSION
          let sameEpoch := a.epoch = s.get IMG_EPOCH_EPOCH
          let kind := if ¬sameVersion then 2 else if ¬sameEpoch then 3 else if a.ad ≠ s.agreeDigest then 4
            else if t.flag CON_STAT_FENCED = true ∨ t.flag (CON_PEER_STAT_PFENCED p) = true then 5 else 0
          pair t p kind ∧ (s.get CON_CFG_TREF ≠ p → kind ≠ 0 → lost t p kind)))) ∧
     -- PEER_SILENCE and THETA_STALE
     (∀ p : Fin 8,
       (¬(isPeer p ∧ s.silent p = true) → Answers (.peerSilence p) s fun t => t = s) ∧
       (isPeer p ∧ s.silent p = true → Answers (.peerSilence p) s fun t => pair t p 1 ∧ lost t p 1)) ∧
     (¬(s.member = true ∧ s.thetaStale = true) → Answers .thetaStale s fun t => t = s) ∧
     (s.member = true → s.thetaStale = true → Answers .thetaStale s fun t => t.flag CON_STAT_THETA_OK = false ∧
       t.flag CON_STAT_FENCED = true ∧
       (s.flag CON_STAT_FENCED = false → (1890, 0x57) ∈ t.cur.live ∧ ∀ m ∈ s.peersOf, t.flag (CON_PEER_STAT_AGREED m) = false)) ∧
     -- NOTICE_RECEIVE
     ∀ (i j kind : Fin 8) (at_ : Nat),
       (s.member = false → Answers (.noticeReceive i j kind at_) s fun t => t = s) ∧
       (s.member = true → Answers (.noticeReceive i j kind at_) s fun t => recorded t i j kind true at_)) ∧
  (∀ (s : State) (m : FrameMsg),
     let c : Instr := .frameMessageReceive m
     let meant := s.member = true ∧ m.src ∈ s.peersOf ∧ m.route < 1024
     let usable := s.ready 14 = true ∧ s.ready 15 = true
     let agreed := s.flag (CON_PEER_STAT_AGREED m.src) = true ∧ s.silent m.src = false ∧ s.mustFence = false
     let open_ := s.flag (GW_RT_CFG_VALID m.route) = true ∧ m.route ∉ s.gw.notStarted
     let copy (l : Nat) : Copy :=
       { route := m.route, leg := l, attr := s.legAttr m.route l, idx := m.idx, target := s.get (GW_LEG_CFG_TARGET l),
         release := m.release, stamp := m.stamp, origin := m.src, source := m.ingress, msg := m.msg, key := m.key,
         frame := s.legFrame l m.frame, taint := m.taint, state := .waiting }
     (¬meant → Answers c s fun t => t = s) ∧
     (meant → ¬usable → Answers c s fun t => t.gw.heldIn = s.gw.heldIn ++ [.frame m] ∧ Writes [] [.gw] s t) ∧
     (meant → usable → ¬agreed → Answers c s fun t =>
       t.get (CON_PEER_CNT_XDROP m.src) = min (s.get (CON_PEER_CNT_XDROP m.src) + 1) 0xFFFF ∧ t.gw = s.gw ∧ t.store = s.store ∧
       t.ports = s.ports) ∧
     (meant → usable → agreed → ¬open_ → Answers c s fun t => t = s) ∧
     (meant → usable → agreed → open_ → Answers c s fun t => t.gw.accepted = s.gw.accepted ∧
       t.get (CON_PEER_SKIP_SKIP m.src) = min (s.get (CON_PEER_SKIP_SKIP m.src) +
         ((s.legsOf m.route).filter fun l => s.get (GW_LEG_CFG_KIND l) = 3).length) 0xFFFF ∧
       (s.get (GW_RT_CFG_NLEG_M1 m.route) = 0 → s.get (GW_LEG_CFG_KIND (s.get (GW_RT_LEGS_FIRST m.route))) ≠ 3 →
         t = s.stageLeg (copy (s.get (GW_RT_LEGS_FIRST m.route))))))

/-- Where six commands complete with their own effect. A transmit attempt that succeeds puts the frame on the bus, counts it
in TXCNT and completes its slot with code OK, the engine being IDLE (R117, R163, R164). PREPARE of a slot whose manifest and
chunks are right, and after the check and staging of whose structure image, with result 0 in state `v`, areas and formats
fit, sets PREP (R461). HANDOVER of a prepared slot enters HANDOVER (R463). The chrysalis deadline halts the stations that run
and marks them FORCED; with every engine halted the code is loaded and COMMIT issued; after the switch instant the journal
enters TRIAL (R463). -/
def Obligations.AttemptsAndHandoversComplete : Prop :=
  (∀ (s : State) (n : PortNo) (a : Attempt) (edges : List Nat) (load pj : Nat), s.bstate n = 4 → (s.port n).attempt = some a →
    a.beacon = false → a.slot < 65536 → s.isEth n = false → switched (s.attemptFrame n a) = false →
    s.flag (ECF_STAT_QPEND n) = false → (s.port n).opPending = none → s.dupsOf a.slot = [] →
    s.gw.copies.find? (·.slot == some a.slot) = none →
    ∃ t, Sys2Proof.Machine.exec (.transmitAttempt n .success edges load pj) s = .next t ∧
      .busFrame n (s.attemptFrame n a) none ∈ t.out ∧
      t.get (BT_TXCNT_COUNT n) = min (s.get (BT_TXCNT_COUNT n) + 1) (2 ^ 32 - 1) ∧
      t.get (MOP_DESC_CODE a.slot) = codeOK ∧ (t.port n).attempt = none ∧ t.bstate n = 2 ∧
      ((s.govOf (dieOf n)).queue = [] → t.get (MOP_DESC_STATE a.slot) = slotDone)) ∧
  (∀ (s v : State),
    let b := s.updJournal.spare
    let m := s.manifest b
    let image := s.slotImage b
    s.serves 21 → s.flag UPD_STAT_BUSY = false → s.get UPD_STAT_STATE = 2 → s.get IMG_STATUS_PHASE = 0 →
    s.manifestCheck m = 0 → (∀ i < nchunk m, sha384 (s.chunk b (i + 1)) = (m.drop (0x800 + 48 * i)).take 48) →
    (s.imageToHall m image).prepareImage image true = (0, v) → v.areasOk (v.candidate image) m = true →
    v.formatsOk (v.candidate image) m = true →
    ∃ t, Sys2Proof.Machine.exec (.prepare .host true) s = .next t ∧ t.upd.job = some (3, some 0) ∧
      t.flag UPD_STAT_BUSY = true ∧ t.flag UPD_STAT_PREP = true ∧ t.get IMG_STATUS_PHASE = 4 ∧ t.journal.state = 2 ∧
      t.journal.newDigest = imageDigest image ∧ t.upd.chrysalis = (leAt m 0x1C 4, leAt m 0x20 4) ∧ t.upd.chunks = s.upd.chunks) ∧
  (∀ (s : State), s.serves 21 → s.flag UPD_STAT_BUSY = false → s.get UPD_STAT_STATE = 2 → s.flag UPD_STAT_PREP = true →
    ∃ t, Sys2Proof.Machine.exec (.handover .host) s = .next t ∧ t.updJournal.state = 3 ∧ t.get UPD_STAT_STATE = 3 ∧
      t.upd.hoTick = some s.ticks ∧ t.upd.job = some (4, none) ∧ t.upd.chunks = s.upd.chunks) ∧
  (∀ (s : State) (stuck : List (Fin 64)) (since : Nat), s.get UPD_STAT_STATE = 3 → s.upd.committing = false →
    s.upd.hoTick = some since → since + ticksOfMs s.chryMs ≤ s.ticks →
    ∃ t, Sys2Proof.Machine.exec (.chrysalisDeadline stuck) s = .next t ∧ t.updJournal = s.updJournal ∧
      ∀ k < 64, s.stationRuns k = true → t.flag (forcedLoc k) = true ∧ ∀ e ∈ s.stationEngines k, t.estate e ≤ 1) ∧
  (∀ (s : State), s.get UPD_STAT_STATE = 3 → s.upd.hoTick.isSome = true → s.upd.committing = false →
    s.get IMG_STATUS_PHASE = 4 → (∀ e < 1024, s.estate e ≤ 1) →
    ∃ t, Sys2Proof.Machine.exec .handoverCodeLoad s = .next t ∧ t.upd.committing = true ∧ t.get IMG_STATUS_PHASE = 5 ∧
      t.img.writing.isSome = true ∧ t.updJournal = s.updJournal ∧ t.mem = s.mem) ∧
  ∀ (s : State), s.get UPD_STAT_STATE = 3 → s.upd.committing = true → s.img.writing = none →
    ∃ t, Sys2Proof.Machine.exec .trialJournal s = .next t ∧ t.updJournal.state = 4 ∧
      t.updJournal.imago = s.updJournal.spare ∧ t.get UPD_STAT_STATE = 4 ∧ t.upd.trialTick = some s.ticks ∧
      t.upd.chunks = s.upd.chunks
end

