-- ==== Sys2Proof/Laws/Table.lean ====
section
/-! SUPPORT. The laws of sparse tables: read after write, and the canonical form. -/

namespace Sys2Proof.Machine

theorem smapFind_erase_self {V : Type} (d : Nat → V) (m : SMap V) (k : Nat) : smapFind d (smapErase m k) k = d k := by
  induction m with
  | nil => rfl
  | cons e m ih =>
    obtain ⟨k', v⟩ := e
    unfold smapErase
    split
    · exact ih
    · simp [smapFind, *]

theorem smapFind_erase_ne {V : Type} (d : Nat → V) (m : SMap V) {k k' : Nat} (h : k' ≠ k) :
    smapFind d (smapErase m k) k' = smapFind d m k' := by
  induction m with
  | nil => rfl
  | cons e m ih =>
    obtain ⟨a, v⟩ := e
    unfold smapErase
    split
    · subst a; simp [smapFind, h, ih]
    · simp only [smapFind, ih]

theorem smapFind_place_ne {V : Type} (d : Nat → V) (m : SMap V) {k k' : Nat} (v : V) (h : k' ≠ k) :
    smapFind d (smapPlace m k v) k' = smapFind d m k' := by
  induction m with
  | nil => simp [smapPlace, smapFind, h]
  | cons e m ih =>
    obtain ⟨a, w⟩ := e
    unfold smapPlace
    split
    · simp [smapFind, h]
    · simp only [smapFind, ih]

theorem smapFind_place_erase {V : Type} (d : Nat → V) (m : SMap V) (k : Nat) (v : V) :
    smapFind d (smapPlace (smapErase m k) k v) k = v := by
  induction m with
  | nil => simp [smapErase, smapPlace, smapFind]
  | cons e m ih =>
    obtain ⟨a, w⟩ := e
    unfold smapErase
    split
    · exact ih
    · unfold smapPlace
      split
      · simp [smapFind]
      · simp only [smapFind, ih]
        simp [*]

/-- Read after write: the value written at its key, and every other key as before. -/
theorem smapFind_put {V : Type} [DecidableEq V] (d : Nat → V) (m : SMap V) (k k' : Nat) (v : V) :
    smapFind d (smapPut d m k v) k' = if k' = k then v else smapFind d m k' := by
  unfold smapPut smapInsert
  by_cases h : k' = k
  · subst h
    split
    · simp [smapFind_erase_self, *]
    · simp [smapFind_place_erase]
  · split
    · simp [smapFind_erase_ne, h]
    · simp [smapFind_place_ne, smapFind_erase_ne, h]

/-! ## The canonical form -/

theorem smapWfFrom_mono {V : Type} [DecidableEq V] {d : Nat → V} {m : SMap V} {a b : Nat} (h : a ≤ b)
    (hm : smapWfFrom d b m = true) : smapWfFrom d a m = true := by
  cases m with
  | nil => rfl
  | cons e m =>
    simp only [smapWfFrom, Bool.and_eq_true, decide_eq_true_eq] at hm ⊢
    exact ⟨⟨by omega, hm.1.2⟩, hm.2⟩

theorem smapWfFrom_filter {V : Type} [DecidableEq V] {d : Nat → V} (p : Nat × V → Bool) {m : SMap V} {a : Nat}
    (hm : smapWfFrom d a m = true) : smapWfFrom d a (m.filter p) = true := by
  induction m generalizing a with
  | nil => rfl
  | cons e m ih =>
    simp only [smapWfFrom, Bool.and_eq_true, decide_eq_true_eq] at hm
    rw [List.filter_cons]
    split
    · simp only [smapWfFrom, Bool.and_eq_true, decide_eq_true_eq]
      exact ⟨hm.1, ih hm.2⟩
    · exact smapWfFrom_mono (by omega) (ih hm.2)

theorem smapErase_eq_filter {V : Type} (m : SMap V) (k : Nat) : smapErase m k = m.filter fun e => decide (k ≠ e.1) := by
  induction m with
  | nil => rfl
  | cons e m ih =>
    obtain ⟨a, v⟩ := e
    unfold smapErase
    rw [List.filter_cons, ih]
    by_cases h : k = a <;> simp [h]

theorem smapWfFrom_place {V : Type} [DecidableEq V] {d : Nat → V} {m : SMap V} {a k : Nat} {v : V} (ha : a ≤ k)
    (hv : v ≠ d k) (hk : ∀ e ∈ m, k ≠ e.1) (hm : smapWfFrom d a m = true) :
    smapWfFrom d a (smapPlace m k v) = true := by
  induction m generalizing a with
  | nil => simp [smapPlace, smapWfFrom, ha, hv]
  | cons e m ih =>
    obtain ⟨b, w⟩ := e
    simp only [smapWfFrom, Bool.and_eq_true, decide_eq_true_eq] at hm
    have hb : k ≠ b := hk (b, w) (by simp)
    unfold smapPlace
    split
    · simp only [smapWfFrom, Bool.and_eq_true, decide_eq_true_eq]
      exact ⟨⟨ha, hv⟩, ⟨by omega, hm.1.2⟩, hm.2⟩
    · simp only [smapWfFrom, Bool.and_eq_true, decide_eq_true_eq]
      exact ⟨hm.1, ih (by omega) (fun e he => hk e (by simp [he])) hm.2⟩

theorem smapWf_put {V : Type} [DecidableEq V] {d : Nat → V} {m : SMap V} (k : Nat) (v : V) (hm : smapWf d m = true) :
    smapWf d (smapPut d m k v) = true := by
  have he : smapWf d (smapErase m k) = true := by
    rw [smapErase_eq_filter]; exact smapWfFrom_filter _ hm
  unfold smapPut smapInsert
  split
  · exact he
  · refine smapWfFrom_place (Nat.zero_le k) ‹_› ?_ he
    intro e h
    rw [smapErase_eq_filter] at h
    simpa using (List.mem_filter.mp h).2

theorem smapWf_filter {V : Type} [DecidableEq V] {d : Nat → V} {m : SMap V} (p : Nat × V → Bool)
    (hm : smapWf d m = true) : smapWf d (m.filter p) = true := smapWfFrom_filter p hm

end Sys2Proof.Machine
end

