-- ==== Sys2Proof/Laws/Fields.lean ====
section
/-! SUPPORT. The laws of registers and their fields: what a word, a field and a flag read after a write. -/

namespace Sys2Proof.Machine

/-! ## Bits of a word -/

theorem testBit_bitsOf {n : Nat} (w : BitVec n) (lo len i : Nat) :
    (bitsOf w lo len).testBit i = (decide (i < len) && w.getLsbD (lo + i)) := by
  simp [bitsOf, Nat.testBit_mod_two_pow, Nat.testBit_shiftRight, BitVec.getLsbD]

theorem getLsbD_putBits {n : Nat} (w : BitVec n) (lo len v i : Nat) :
    (putBits w lo len v).getLsbD i
      = if lo ≤ i ∧ i < lo + len ∧ i < n then v.testBit (i - lo) else w.getLsbD i := by
  by_cases hn : i < n
  · simp only [putBits, BitVec.getLsbD_or, BitVec.getLsbD_and, BitVec.getLsbD_not, BitVec.getLsbD_shiftLeft, hn,
      BitVec.getLsbD_ofNat, Nat.testBit_two_pow_sub_one, Nat.testBit_mod_two_pow]
    by_cases h1 : lo ≤ i
    · by_cases h2 : i < lo + len
      · have a1 : i - lo < n := by omega
        have a2 : i - lo < len := by omega
        simp [h1, h2, a1, a2, Nat.not_lt.mpr h1]
      · have a2 : ¬ i - lo < len := by omega
        simp [h2, a2]
    · have : i < lo := by omega
      simp [h1, this]
  · have : n ≤ i := by omega
    simp [hn, BitVec.getLsbD_of_ge _ _ this]

/-- A field reads what was put into it. -/
theorem bitsOf_putBits_self {n : Nat} (w : BitVec n) (lo len v : Nat) (h : lo + len ≤ n) :
    bitsOf (putBits w lo len v) lo len = v % 2 ^ len := by
  apply Nat.eq_of_testBit_eq
  intro i
  rw [testBit_bitsOf, getLsbD_putBits, Nat.testBit_mod_two_pow]
  by_cases hi : i < len
  · have : lo + i < n := by omega
    simp [hi, this]
  · simp [hi]

/-- A field that shares no bit with the one put reads as before. -/
theorem bitsOf_putBits_ne {n : Nat} (w : BitVec n) (lo len v lo' len' : Nat) (h : lo' + len' ≤ lo ∨ lo + len ≤ lo') :
    bitsOf (putBits w lo len v) lo' len' = bitsOf w lo' len' := by
  apply Nat.eq_of_testBit_eq
  intro i
  rw [testBit_bitsOf, getLsbD_putBits, testBit_bitsOf]
  by_cases hi : i < len'
  · have : ¬ (lo ≤ lo' + i ∧ lo' + i < lo + len ∧ lo' + i < n) := by omega
    simp [this]
  · simp [hi]

/-! ## Words -/

@[simp] theorem State.word_setWord (s : State) (a b : Nat) (w : Word) :
    (s.setWord a w).word b = if b = a then w else s.word b := smapFind_put _ _ _ _ _

theorem State.word_setWord64 (s : State) (a b : Nat) (w : BitVec 64) :
    (s.setWord64 a w).word b
      = if b = a + 4 then w.extractLsb' 32 32 else if b = a then w.extractLsb' 0 32 else s.word b := by
  unfold State.setWord64
  simp only [State.word_setWord]
  have h1 : (w >>> 32).truncate 32 = w.extractLsb' 32 32 := by ext i hi; simp
  have h2 : w.truncate 32 = w.extractLsb' 0 32 := by ext i hi; simp
  rw [h1, h2]

@[simp] theorem State.word64_setWord64 (s : State) (a : Nat) (w : BitVec 64) : (s.setWord64 a w).word64 a = w := by
  unfold State.word64
  simp only [State.word_setWord64]
  ext i hi
  simp only [BitVec.getElem_append]
  split
  · simp [BitVec.getLsbD_eq_getElem hi]
  · have : 32 + (i - 32) = i := by omega
    simp [this, BitVec.getLsbD_eq_getElem hi]

/-- A write of a field leaves the words at other offsets. -/
theorem State.word_set_ne (s : State) (l : Loc) (v a : Nat) (h : a ≠ l.addr) (h' : a ≠ l.addr + 4) :
    (s.set l v).word a = s.word a := by
  unfold State.set
  split
  · simp [h]
  · simp [State.word_setWord64, h, h']

/-- A write of a field within one word leaves every other word. -/
theorem State.word_set_narrow (s : State) (l : Loc) (v a : Nat) (hl : l.lo + l.len ≤ 32) (h : a ≠ l.addr) :
    (s.set l v).word a = s.word a := by
  unfold State.set
  simp [hl, h]

/-! ## Fields -/

/-- Two fields that share no bit: they end in their words and lie in different words, or apart in one word. -/
def Loc.apart (a b : Loc) : Prop :=
  a.lo + a.len ≤ 32 ∧ b.lo + b.len ≤ 32 ∧ (a.addr ≠ b.addr ∨ a.lo + a.len ≤ b.lo ∨ b.lo + b.len ≤ a.lo)

/-- A field reads what was set. -/
theorem State.get_set_self (s : State) (l : Loc) (v : Nat) (h : l.lo + l.len ≤ 64) : (s.set l v).get l = v % 2 ^ l.len := by
  unfold State.get State.set
  split
  · simp [bitsOf_putBits_self _ _ _ _ ‹_›]
  · simp [bitsOf_putBits_self _ _ _ _ h]

/-- A field apart from the one set reads as before. -/
theorem State.get_set_apart (s : State) (l m : Loc) (v : Nat) (h : l.apart m) : (s.set l v).get m = s.get m := by
  obtain ⟨h1, h2, h3⟩ := h
  unfold State.get State.set
  simp only [h1, h2, if_true, State.word_setWord]
  split
  · rename_i e
    rw [e] at h3 ⊢
    rcases h3 with h3 | h3 | h3
    · exact absurd rfl h3
    · exact bitsOf_putBits_ne _ _ _ _ _ _ (Or.inr h3)
    · exact bitsOf_putBits_ne _ _ _ _ _ _ (Or.inl h3)
  · rfl

/-- A field depends on the words that hold it alone. -/
theorem State.get_congr {s t : State} {l : Loc} (h : t.word l.addr = s.word l.addr)
    (h' : 32 < l.lo + l.len → t.word (l.addr + 4) = s.word (l.addr + 4)) : t.get l = s.get l := by
  unfold State.get State.word64
  split
  · rw [h]
  · rw [h, h' (by omega)]

/-- A flag depends on its word alone. -/
theorem State.flag_congr {s t : State} {l : Loc} (hl : l.lo + l.len ≤ 32) (h : t.word l.addr = s.word l.addr) :
    t.flag l = s.flag l := by
  unfold State.flag
  rw [State.get_congr h (by omega)]

theorem State.flag_put_self (s : State) (l : Loc) (b : Bool) (h : l.lo + l.len ≤ 32) (h1 : l.len = 1) :
    (s.put l b).flag l = b := by
  unfold State.flag State.put
  rw [State.get_set_self _ _ _ (by omega), h1]
  cases b <;> simp

end Sys2Proof.Machine
end

