-- ==== Sys2Proof/Laws/Keeps.lean ====
section
/-! SUPPORT. `Keeps`, once for the primitives: what a write of a word, of hall bytes or of any other part of the state
keeps. Every other lemma of this kind follows the definition of its operation. -/

namespace Sys2Proof.Machine

theorem Keeps.rfl {s : State} : Keeps s s := ⟨id, id, Eq.refl _, fun _ => Nat.le_refl _, Nat.le_refl _⟩

theorem Keeps.trans {s t u : State} (h : Keeps s t) (k : Keeps t u) : Keeps s u :=
  ⟨k.regs ∘ h.regs, k.mem ∘ h.mem, k.pending.trans h.pending, fun i => Nat.le_trans (h.counters i) (k.counters i),
    Nat.le_trans h.tlog k.tlog⟩

/-- A change of anything but registers, hall bytes, the queue and the vault. -/
theorem Keeps.upd {s0 s : State} {led cur time pwr ports obs links gov store cat gw spine con cores halls img upd latches resp out} (h : Keeps s0 s) :
    Keeps s0 (State.mk s.regs s.mem s.pending
      led cur time pwr ports obs links gov store cat gw spine con cores halls img upd s.vault latches resp out) :=
  ⟨h.regs, h.mem, h.pending, h.counters, h.tlog⟩

/-- Register words dropped from the table. -/
theorem Keeps.regsFilter {s0 s : State} {p : Nat × Word → Bool} (h : Keeps s0 s) :
    Keeps s0 { s with regs := s.regs.filter p } :=
  ⟨fun x => smapWf_filter p (h.regs x), h.mem, h.pending, h.counters, h.tlog⟩

/-! ## Primitives -/

theorem State.setWord_keeps {s0 s : State} {a : Nat} {w : Word} (h : Keeps s0 s) : Keeps s0 (s.setWord a w) :=
  ⟨fun x => smapWf_put a w (h.regs x), h.mem, h.pending, h.counters, h.tlog⟩

theorem State.setByte_keeps {s0 s : State} {a : Nat} {b : Byte} (h : Keeps s0 s) : Keeps s0 (s.setByte a b) :=
  ⟨h.regs, fun x => smapWf_put a b (h.mem x), h.pending, h.counters, h.tlog⟩

/-- A change of the vault that leaves its counters and does not lower the SEQ of the tamper log. -/
theorem State.modVault_keeps {s0 s : State} {f : Vault → Vault} (h : Keeps s0 s)
    (hc : (f s.vault).counters = s.vault.counters) (ht : s.vault.tlogSeq ≤ (f s.vault).tlogSeq) :
    Keeps s0 (s.modVault f) := by
  refine ⟨h.regs, h.mem, h.pending, fun k => ?_, Nat.le_trans h.tlog ht⟩
  have : (s.modVault f).counter k = s.counter k := by simp only [State.counter, State.modVault, hc]
  rw [this]
  exact h.counters k

end Sys2Proof.Machine
end

