-- ==== Sys2Proof/Laws/Only.lean ====
section
/-! SUPPORT. `Only` over sets of parts written as numbers, bit `p.ctorIdx` for part `p`, and what the primitives may change.
Every other lemma of this kind follows the definition of its operation, and gives its set of parts as a numeral. -/

namespace Sys2Proof.Machine

/-- The set `a` lies within the set `b`. -/
def Sub (a b : Nat) : Prop := (a ||| b) = b

theorem Sub.refl (a : Nat) : Sub a a := Nat.or_self a

theorem Sub.trans {a b c : Nat} (h : Sub a b) (k : Sub b c) : Sub a c := by
  unfold Sub at *
  rw [← k, ← Nat.or_assoc, h]

theorem Sub.of {a b c : Nat} (k : Sub b c) (h : (a ||| b) = b) : Sub a c := Sub.trans h k

theorem Sub.bit {a b i : Nat} (k : Sub a b) (h : a.testBit i = true) : b.testBit i = true := by
  unfold Sub at k
  rw [← k, Nat.testBit_or, h, Bool.true_or]

/-- From `s` to `t` only the parts of the set `m` change. -/
structure OnlyM (m : Nat) (s t : State) : Prop where
  words : ∀ a, (∀ p : Part, m.testBit p.ctorIdx = true → ¬ p.owns a) → t.word a = s.word a
  mem : m.testBit 0 = true ∨ t.mem = s.mem
  pending : m.testBit 1 = true ∨ t.pending = s.pending
  led : m.testBit 2 = true ∨ t.led = s.led
  cur : m.testBit 3 = true ∨ t.cur = s.cur
  time : m.testBit 4 = true ∨ t.time = s.time
  pwr : m.testBit 5 = true ∨ t.pwr = s.pwr
  ports : m.testBit 6 = true ∨ t.ports = s.ports
  obs : m.testBit 7 = true ∨ t.obs = s.obs
  links : m.testBit 8 = true ∨ t.links = s.links
  gov : m.testBit 9 = true ∨ t.gov = s.gov
  store : m.testBit 10 = true ∨ t.store = s.store
  cat : m.testBit 11 = true ∨ t.cat = s.cat
  gw : m.testBit 12 = true ∨ t.gw = s.gw
  spine : m.testBit 13 = true ∨ t.spine = s.spine
  con : m.testBit 14 = true ∨ t.con = s.con
  cores : m.testBit 15 = true ∨ t.cores = s.cores
  halls : m.testBit 16 = true ∨ t.halls = s.halls
  img : m.testBit 17 = true ∨ t.img = s.img
  upd : m.testBit 18 = true ∨ t.upd = s.upd
  vault : m.testBit 19 = true ∨ t.vault = s.vault
  latches : m.testBit 20 = true ∨ t.latches = s.latches
  resp : m.testBit 21 = true ∨ t.resp = s.resp
  out : m.testBit 22 = true ∨ t.out = s.out
  keeps : Keeps s t

theorem OnlyM.refl {m : Nat} {s : State} : OnlyM m s s where
  words _ _ := rfl
  mem := Or.inr rfl
  pending := Or.inr rfl
  led := Or.inr rfl
  cur := Or.inr rfl
  time := Or.inr rfl
  pwr := Or.inr rfl
  ports := Or.inr rfl
  obs := Or.inr rfl
  links := Or.inr rfl
  gov := Or.inr rfl
  store := Or.inr rfl
  cat := Or.inr rfl
  gw := Or.inr rfl
  spine := Or.inr rfl
  con := Or.inr rfl
  cores := Or.inr rfl
  halls := Or.inr rfl
  img := Or.inr rfl
  upd := Or.inr rfl
  vault := Or.inr rfl
  latches := Or.inr rfl
  resp := Or.inr rfl
  out := Or.inr rfl
  keeps := Keeps.rfl

theorem or_trans_eq {p : Prop} {α : Type} {a b c : α} (h : p ∨ b = a) (k : p ∨ c = b) : p ∨ c = a := by
  rcases h with h | h
  · exact Or.inl h
  · rcases k with k | k
    · exact Or.inl k
    · exact Or.inr (k.trans h)

theorem OnlyM.trans {m : Nat} {s t u : State} (h : OnlyM m s t) (k : OnlyM m t u) : OnlyM m s u where
  words a ha := (k.words a ha).trans (h.words a ha)
  mem := or_trans_eq h.mem k.mem
  pending := or_trans_eq h.pending k.pending
  led := or_trans_eq h.led k.led
  cur := or_trans_eq h.cur k.cur
  time := or_trans_eq h.time k.time
  pwr := or_trans_eq h.pwr k.pwr
  ports := or_trans_eq h.ports k.ports
  obs := or_trans_eq h.obs k.obs
  links := or_trans_eq h.links k.links
  gov := or_trans_eq h.gov k.gov
  store := or_trans_eq h.store k.store
  cat := or_trans_eq h.cat k.cat
  gw := or_trans_eq h.gw k.gw
  spine := or_trans_eq h.spine k.spine
  con := or_trans_eq h.con k.con
  cores := or_trans_eq h.cores k.cores
  halls := or_trans_eq h.halls k.halls
  img := or_trans_eq h.img k.img
  upd := or_trans_eq h.upd k.upd
  vault := or_trans_eq h.vault k.vault
  latches := or_trans_eq h.latches k.latches
  resp := or_trans_eq h.resp k.resp
  out := or_trans_eq h.out k.out
  keeps := h.keeps.trans k.keeps

/-- A change of anything but registers. -/
theorem OnlyM.update {m : Nat} {s0 s : State} {led cur time pwr ports obs links gov store cat gw spine con cores halls img upd latches resp out} (h : OnlyM m s0 s)
    (h_led : m.testBit 2 = true ∨ led = s.led)
    (h_cur : m.testBit 3 = true ∨ cur = s.cur)
    (h_time : m.testBit 4 = true ∨ time = s.time)
    (h_pwr : m.testBit 5 = true ∨ pwr = s.pwr)
    (h_ports : m.testBit 6 = true ∨ ports = s.ports)
    (h_obs : m.testBit 7 = true ∨ obs = s.obs)
    (h_links : m.testBit 8 = true ∨ links = s.links)
    (h_gov : m.testBit 9 = true ∨ gov = s.gov)
    (h_store : m.testBit 10 = true ∨ store = s.store)
    (h_cat : m.testBit 11 = true ∨ cat = s.cat)
    (h_gw : m.testBit 12 = true ∨ gw = s.gw)
    (h_spine : m.testBit 13 = true ∨ spine = s.spine)
    (h_con : m.testBit 14 = true ∨ con = s.con)
    (h_cores : m.testBit 15 = true ∨ cores = s.cores)
    (h_halls : m.testBit 16 = true ∨ halls = s.halls)
    (h_img : m.testBit 17 = true ∨ img = s.img)
    (h_upd : m.testBit 18 = true ∨ upd = s.upd)
    (h_latches : m.testBit 20 = true ∨ latches = s.latches)
    (h_resp : m.testBit 21 = true ∨ resp = s.resp)
    (h_out : m.testBit 22 = true ∨ out = s.out) :
    OnlyM m s0 (State.mk s.regs s.mem s.pending led cur time pwr ports obs links gov store cat gw spine con cores halls img upd s.vault latches resp out) where
  words := h.words
  mem := h.mem
  pending := h.pending
  led := or_trans_eq h.led h_led
  cur := or_trans_eq h.cur h_cur
  time := or_trans_eq h.time h_time
  pwr := or_trans_eq h.pwr h_pwr
  ports := or_trans_eq h.ports h_ports
  obs := or_trans_eq h.obs h_obs
  links := or_trans_eq h.links h_links
  gov := or_trans_eq h.gov h_gov
  store := or_trans_eq h.store h_store
  cat := or_trans_eq h.cat h_cat
  gw := or_trans_eq h.gw h_gw
  spine := or_trans_eq h.spine h_spine
  con := or_trans_eq h.con h_con
  cores := or_trans_eq h.cores h_cores
  halls := or_trans_eq h.halls h_halls
  img := or_trans_eq h.img h_img
  upd := or_trans_eq h.upd h_upd
  vault := h.vault
  latches := or_trans_eq h.latches h_latches
  resp := or_trans_eq h.resp h_resp
  out := or_trans_eq h.out h_out
  keeps := Keeps.upd h.keeps

/-- The set of a list of parts. -/
def maskOf (l : List Part) : Nat := l.foldl (fun m p => m ||| 1 <<< p.ctorIdx) 0

theorem ctorIdx_inj {p q : Part} (h : p.ctorIdx = q.ctorIdx) : p = q := by
  have inv : ∀ p : Part, Part.ofNat p.ctorIdx = p := by intro p; cases p <;> rfl
  rw [← inv p, h, inv q]

theorem OnlyM.ite {M0 : Nat} {s0 a b : State} {c : Prop} [Decidable c] (h1 : OnlyM M0 s0 a) (h2 : OnlyM M0 s0 b) :
    OnlyM M0 s0 (if c then a else b) := by split <;> assumption

theorem OnlyM.cut {M0 : Nat} {s0 : State} {P : Prop} (x : State) (h1 : OnlyM M0 s0 x) (h2 : OnlyM M0 s0 x → P) : P := h2 h1

theorem OnlyM.pair {M0 : Nat} {α : Type} {s0 t : State} {a : α} {p : α × State} (h : OnlyM M0 s0 p.2) (e : p = (a, t)) : OnlyM M0 s0 t := by
  subst e; exact h

theorem OnlyM.pairL {M0 : Nat} {α : Type} {s0 t : State} {a : α} {p : State × α} (h : OnlyM M0 s0 p.1) (e : p = (t, a)) : OnlyM M0 s0 t := by
  subst e; exact h

theorem OnlyM.triple {M0 : Nat} {α β : Type} {s0 t : State} {a : α} {b : β} {p : α × β × State} (h : OnlyM M0 s0 p.2.2)
    (e : p = (a, b, t)) : OnlyM M0 s0 t := by subst e; exact h

/-- From `s0` to an outcome that is a next state only the parts of the set change. -/
def OnlyOut (M0 : Nat) (s0 : State) : Out → Prop
  | .next t => OnlyM M0 s0 t
  | _ => True

theorem OnlyOut.next {M0 : Nat} {s0 t : State} (h : OnlyM M0 s0 t) : OnlyOut M0 s0 (.next t) := h

theorem OnlyOut.fault {M0 : Nat} {s0 : State} {f : Fault} : OnlyOut M0 s0 (.fault f) := trivial

theorem OnlyOut.ite {M0 : Nat} {s0 : State} {a b : Out} {c : Prop} [Decidable c] (h1 : OnlyOut M0 s0 a) (h2 : OnlyOut M0 s0 b) :
    OnlyOut M0 s0 (if c then a else b) := by split <;> assumption

theorem OnlyM.id {M0 : Nat} {s0 s : State} (h : OnlyM M0 s0 s) : OnlyM M0 s0 (id s) := h

theorem OnlyM.getD {M0 : Nat} {s0 s : State} {o : Option State} (h : OnlyM M0 s0 s) (ho : ∀ t, o = some t → OnlyM M0 s0 t) :
    OnlyM M0 s0 (o.getD s) := by
  cases o with
  | none => exact h
  | some t => exact ho t (Eq.refl _)

/-- A state that an operation may give. -/
def OnlyOpt (M0 : Nat) (s0 : State) : Option State → Prop
  | some t => OnlyM M0 s0 t
  | none => True

theorem OnlyOpt.some {M0 : Nat} {s0 t : State} (h : OnlyM M0 s0 t) : OnlyOpt M0 s0 (some t) := h

theorem OnlyOpt.none {M0 : Nat} {s0 : State} : OnlyOpt M0 s0 none := trivial

theorem OnlyOpt.elim {M0 : Nat} {s0 t : State} {o : Option State} (h : OnlyOpt M0 s0 o) (e : o = .some t) : OnlyM M0 s0 t := by
  subst e; exact h

theorem OnlyOpt.ite {M0 : Nat} {s0 : State} {a b : Option State} {c : Prop} [Decidable c] (h1 : OnlyOpt M0 s0 a) (h2 : OnlyOpt M0 s0 b) :
    OnlyOpt M0 s0 (if c then a else b) := by split <;> assumption

theorem OnlyOpt.map {M0 : Nat} {s0 : State} {o : Option State} {f : State → State} (h : OnlyOpt M0 s0 o)
    (hf : ∀ t, OnlyM M0 s0 t → OnlyM M0 s0 (f t)) : OnlyOpt M0 s0 (o.map f) := by
  cases o with
  | none => exact trivial
  | some t => exact hf t h

theorem OnlyOpt.cut {M0 : Nat} {s0 : State} {P : Prop} (o : Option State) (h1 : OnlyOpt M0 s0 o) (h2 : OnlyOpt M0 s0 o → P) : P := h2 h1

theorem OnlyM.getDOpt {M0 : Nat} {s0 s : State} {o : Option State} (h : OnlyM M0 s0 s) (ho : OnlyOpt M0 s0 o) : OnlyM M0 s0 (o.getD s) :=
  OnlyM.getD h fun _ e => OnlyOpt.elim ho e

/-- What an element of an instruction gives. -/
def OnlyRes (M0 : Nat) (s0 : State) : XfRes → Prop
  | .go t => OnlyM M0 s0 t
  | .done t _ => OnlyM M0 s0 t
  | .trapped t => OnlyM M0 s0 t
  | .waits => True

theorem OnlyRes.go {M0 : Nat} {s0 t : State} (h : OnlyM M0 s0 t) : OnlyRes M0 s0 (.go t) := h

theorem OnlyRes.done {M0 : Nat} {s0 t : State} {w : Word} (h : OnlyM M0 s0 t) : OnlyRes M0 s0 (.done t w) := h

theorem OnlyRes.trapped {M0 : Nat} {s0 t : State} (h : OnlyM M0 s0 t) : OnlyRes M0 s0 (.trapped t) := h

theorem OnlyRes.waits {M0 : Nat} {s0 : State} : OnlyRes M0 s0 .waits := trivial

theorem OnlyRes.elimGo {M0 : Nat} {s0 t : State} {r : XfRes} (h : OnlyRes M0 s0 r) (e : r = .go t) : OnlyM M0 s0 t := by subst e; exact h

theorem OnlyRes.elimDone {M0 : Nat} {s0 t : State} {w : Word} {r : XfRes} (h : OnlyRes M0 s0 r) (e : r = .done t w) : OnlyM M0 s0 t := by
  subst e; exact h

theorem OnlyRes.elimTrapped {M0 : Nat} {s0 t : State} {r : XfRes} (h : OnlyRes M0 s0 r) (e : r = .trapped t) : OnlyM M0 s0 t := by
  subst e; exact h

/-- What an instruction gives when it is legal. -/
def OnlyOptRes (M0 : Nat) (s0 : State) : Option XfRes → Prop
  | some r => OnlyRes M0 s0 r
  | none => True

theorem OnlyOptRes.some {M0 : Nat} {s0 : State} {r : XfRes} (h : OnlyRes M0 s0 r) : OnlyOptRes M0 s0 (some r) := h

theorem OnlyOptRes.none {M0 : Nat} {s0 : State} : OnlyOptRes M0 s0 none := trivial

theorem OnlyOptRes.map {M0 : Nat} {α : Type} {s0 : State} {o : Option α} {f : α → XfRes} (h : ∀ a, o = .some a → OnlyRes M0 s0 (f a)) :
    OnlyOptRes M0 s0 (o.map f) := by
  cases o with
  | none => exact trivial
  | some a => exact h a (Eq.refl _)

theorem OnlyOptRes.mapGo {M0 : Nat} {s0 : State} {o : Option State} (h : OnlyOpt M0 s0 o) : OnlyOptRes M0 s0 (o.map XfRes.go) :=
  OnlyOptRes.map fun _ e => OnlyOpt.elim h e

/-- A value and a state that an operation may give. -/
def OnlyOptP {α : Type} (M0 : Nat) (s0 : State) : Option (α × State) → Prop
  | some p => OnlyM M0 s0 p.2
  | none => True

theorem OnlyOptP.some {M0 : Nat} {α : Type} {a : α} {s0 t : State} (h : OnlyM M0 s0 t) : OnlyOptP M0 s0 (some (a, t)) := h

theorem OnlyOptP.none {M0 : Nat} {α : Type} {s0 : State} : OnlyOptP (α := α) M0 s0 none := trivial

theorem OnlyOptP.elim {M0 : Nat} {α : Type} {a : α} {s0 t : State} {o : Option (α × State)} (h : OnlyOptP M0 s0 o)
    (e : o = .some (a, t)) : OnlyM M0 s0 t := by subst e; exact h

/-! ## Primitives -/

/-- A part owns the words that hold a field. -/
def Part.holds (p : Part) (l : Loc) : Prop := p.owns l.addr ∧ (32 < l.lo + l.len → p.owns (l.addr + 4))

theorem Part.holds.own {p : Part} {l : Loc} (h : p.holds l) : p.owns l.addr := h.1

theorem State.setWord_only {M0 : Nat} {s0 s : State} {a : Nat} {w : Word} {p : Part} (ho : p.owns a) (h : OnlyM M0 s0 s)
    (hp : M0.testBit p.ctorIdx = true) : OnlyM M0 s0 (s.setWord a w) where
  words b hb := by
    rw [State.word_setWord]
    split
    · rename_i e
      subst e
      exact absurd ho (hb p hp)
    · exact h.words b hb
  mem := h.mem
  pending := h.pending
  led := h.led
  cur := h.cur
  time := h.time
  pwr := h.pwr
  ports := h.ports
  obs := h.obs
  links := h.links
  gov := h.gov
  store := h.store
  cat := h.cat
  gw := h.gw
  spine := h.spine
  con := h.con
  cores := h.cores
  halls := h.halls
  img := h.img
  upd := h.upd
  vault := h.vault
  latches := h.latches
  resp := h.resp
  out := h.out
  keeps := State.setWord_keeps h.keeps

theorem State.setWord_any_only {M0 : Nat} {s0 s : State} {a : Nat} {w : Word} (h : OnlyM M0 s0 s)
    (hp : M0.testBit 23 = true) : OnlyM M0 s0 (s.setWord a w) :=
  State.setWord_only (p := .anyReg) trivial h hp

theorem State.setWord64_only {M0 : Nat} {s0 s : State} {a : Nat} {w : BitVec 64} {p : Part} (ho : p.owns a)
    (ho' : p.owns (a + 4)) (h : OnlyM M0 s0 s) (hp : M0.testBit p.ctorIdx = true) : OnlyM M0 s0 (s.setWord64 a w) :=
  State.setWord_only ho' (State.setWord_only ho h hp) hp

theorem State.setStamp_only {M0 : Nat} {s0 s : State} {a t : Nat} {p : Part} (ho : p.owns a) (ho' : p.owns (a + 4))
    (h : OnlyM M0 s0 s) (hp : M0.testBit p.ctorIdx = true) : OnlyM M0 s0 (s.setStamp a t) :=
  State.setWord64_only ho ho' h hp

theorem State.set_only {M0 : Nat} {s0 s : State} {l : Loc} {v : Nat} {p : Part} (hl : p.holds l) (h : OnlyM M0 s0 s)
    (hp : M0.testBit p.ctorIdx = true) : OnlyM M0 s0 (s.set l v) := by
  unfold State.set
  split
  · exact State.setWord_only hl.1 h hp
  · exact State.setWord64_only hl.1 (hl.2 (by omega)) h hp

theorem State.put_only {M0 : Nat} {s0 s : State} {l : Loc} {v : Bool} {p : Part} (hl : p.holds l) (h : OnlyM M0 s0 s)
    (hp : M0.testBit p.ctorIdx = true) : OnlyM M0 s0 (s.put l v) := State.set_only hl h hp

theorem State.add_only {M0 : Nat} {s0 s : State} {l : Loc} {v : Nat} {p : Part} (hl : p.holds l) (h : OnlyM M0 s0 s)
    (hp : M0.testBit p.ctorIdx = true) : OnlyM M0 s0 (s.add l v) := State.set_only hl h hp

theorem State.inc_only {M0 : Nat} {s0 s : State} {l : Loc} {p : Part} (hl : p.holds l) (h : OnlyM M0 s0 s)
    (hp : M0.testBit p.ctorIdx = true) : OnlyM M0 s0 (s.inc l) := State.set_only hl h hp

theorem State.setInt_only {M0 : Nat} {s0 s : State} {l : Loc} {v : Int} {p : Part} (hl : p.holds l) (h : OnlyM M0 s0 s)
    (hp : M0.testBit p.ctorIdx = true) : OnlyM M0 s0 (s.setInt l v) := State.set_only hl h hp

theorem State.setByte_only {M0 : Nat} {s0 s : State} {a : Nat} {b : Byte} (h : OnlyM M0 s0 s)
    (hp : M0.testBit 0 = true) : OnlyM M0 s0 (s.setByte a b) :=
  { h with words := h.words, mem := Or.inl hp, keeps := State.setByte_keeps h.keeps }

theorem State.setBytes_only {M0 : Nat} {s0 s : State} {a : Nat} {bs : List Byte} (h : OnlyM M0 s0 s)
    (hp : M0.testBit 0 = true) : OnlyM M0 s0 (s.setBytes a bs) := by
  induction bs generalizing s a with
  | nil => exact h
  | cons b bs ih => exact ih (State.setByte_only h hp)

theorem State.each_only {M0 : Nat} {α : Type} {s0 s : State} {l : List α} {f : State → α → State} (h : OnlyM M0 s0 s)
    (hf : ∀ t x, OnlyM M0 s0 t → OnlyM M0 s0 (f t x)) : OnlyM M0 s0 (s.each l f) := by
  unfold State.each
  induction l generalizing s with
  | nil => exact h
  | cons a l ih => exact ih (hf s a h)

theorem foldl_only {M0 : Nat} {α : Type} {s0 s : State} {l : List α} {f : State → α → State} (h : OnlyM M0 s0 s)
    (hf : ∀ t x, OnlyM M0 s0 t → OnlyM M0 s0 (f t x)) : OnlyM M0 s0 (l.foldl f s) := State.each_only h hf

theorem State.when_only {M0 : Nat} {s0 s : State} {b : Bool} {f : State → State} (h : OnlyM M0 s0 s)
    (hf : ∀ t, OnlyM M0 s0 t → OnlyM M0 s0 (f t)) : OnlyM M0 s0 (s.when b f) := by
  unfold State.when
  split
  · exact hf s h
  · exact h

/-- A set that names every register. -/
theorem OnlyM.anyRegs {M0 : Nat} {s0 s : State} {r : SMap Word} (h : OnlyM M0 s0 s)
    (hr : smapWf resetWord s.regs = true → smapWf resetWord r = true) (hp : M0.testBit 23 = true) :
    OnlyM M0 s0 { s with regs := r } :=
  { h with words := fun _ ha => absurd trivial (ha .anyReg hp),
           keeps := ⟨fun x => hr (h.keeps.regs x), h.keeps.mem, h.keeps.pending, h.keeps.counters, h.keeps.tlog⟩ }

/-- Register words dropped from the table. -/
theorem OnlyM.regsFilter {M0 : Nat} {s0 s : State} {p : Nat × Word → Bool} (h : OnlyM M0 s0 s) (hp : M0.testBit 23 = true) :
    OnlyM M0 s0 { s with regs := s.regs.filter p } := OnlyM.anyRegs h (smapWf_filter p) hp

/-- A change of the vault that leaves its counters and does not lower the SEQ of the tamper log. -/
theorem State.modVault_only {M0 : Nat} {s0 s : State} {f : Vault → Vault} (h : OnlyM M0 s0 s)
    (hc : (f s.vault).counters = s.vault.counters) (ht : s.vault.tlogSeq ≤ (f s.vault).tlogSeq)
    (hp : M0.testBit 19 = true) : OnlyM M0 s0 (s.modVault f) :=
  { h with words := h.words, vault := Or.inl hp, keeps := State.modVault_keeps h.keeps hc ht }

theorem OnlyM.respTo {M0 : Nat} {s0 s : State} {r : Option Resp} (h : OnlyM M0 s0 s) (hp : M0.testBit 21 = true) :
    OnlyM M0 s0 { s with resp := r } := { h with words := h.words, resp := Or.inl hp, keeps := Keeps.upd h.keeps }

end Sys2Proof.Machine
end

