-- ==== Sys2Proof/Laws/Away.lean ====
section
/-! SUPPORT. A quick check that no part of a set owns a word: each register lies in a box of the register space. -/

namespace Sys2Proof.Machine

/-- A box of the register space: lowest word, end, stride and size of an instance. -/
abbrev Box := Nat × Nat × Nat × Nat

/-- Boxes of registers, in the order of `Part`. -/
def boxes0 : List Box := [
  (0x100000, 0x100004, 0x4, 4),
  (0x100004, 0x100008, 0x4, 4),
  (0x100008, 0x10000C, 0x4, 4),
  (0x10000C, 0x100010, 0x4, 4),
  (0x100010, 0x100014, 0x4, 4),
  (0x100014, 0x100018, 0x4, 4),
  (0x100018, 0x10001C, 0x4, 4),
  (0x10001C, 0x100020, 0x4, 4),
  (0x100020, 0x100024, 0x4, 4),
  (0x100024, 0x100028, 0x4, 4),
  (0x100028, 0x10002C, 0x4, 4),
  (0x10002C, 0x100030, 0x4, 4),
  (0x100030, 0x100034, 0x4, 4),
  (0x100034, 0x100038, 0x4, 4),
  (0x100038, 0x10003C, 0x4, 4),
  (0x10003C, 0x100040, 0x4, 4),
  (0x100040, 0x100070, 0x4, 4),
  (0x100080, 0x100090, 0x4, 4),
  (0x101000, 0x101200, 0x4, 4),
  (0x1000000, 0x107F004, 0x1000, 4),
  (0x1000004, 0x107F008, 0x1000, 4),
  (0x1000008, 0x107F00C, 0x1000, 4),
  (0x100000C, 0x107F010, 0x1000, 4),
  (0x1000010, 0x107F014, 0x1000, 4),
  (0x1000014, 0x107F018, 0x1000, 4),
  (0x1000018, 0x107F01C, 0x1000, 4),
  (0x100001C, 0x107F020, 0x1000, 4),
  (0x1000020, 0x107F024, 0x1000, 4),
  (0x1000024, 0x107F028, 0x1000, 4),
  (0x1000028, 0x107F02C, 0x1000, 4),
  (0x100002C, 0x107F030, 0x1000, 4),
  (0x1000030, 0x107F038, 0x1000, 8),
  (0x1000038, 0x107F03C, 0x1000, 4),
  (0x1000800, 0x1040804, 0x40000, 4),
  (0x1000804, 0x1040808, 0x40000, 4),
  (0x1000808, 0x104080C, 0x40000, 4),
  (0x100080C, 0x1040810, 0x40000, 4),
  (0x1000100, 0x107F104, 0x1000, 4),
  (0x1000104, 0x107F108, 0x1000, 4),
  (0x1000108, 0x107F10C, 0x1000, 4),
  (0x100010C, 0x107F110, 0x1000, 4),
  (0x1000110, 0x107F114, 0x1000, 4),
  (0x1000114, 0x107F118, 0x1000, 4),
  (0x1000118, 0x107F11C, 0x1000, 4),
  (0x100011C, 0x107F120, 0x1000, 4),
  (0x1000120, 0x107F124, 0x1000, 4),
  (0x1000124, 0x107F128, 0x1000, 4),
  (0x1000128, 0x107F12C, 0x1000, 4),
  (0x100012C, 0x107F130, 0x1000, 4),
  (0x1000130, 0x107F134, 0x1000, 4)]

/-- Boxes of registers, in the order of `Part`. -/
def boxes1 : List Box := [
  (0x1000134, 0x107F138, 0x1000, 4),
  (0x1000138, 0x107F13C, 0x1000, 4),
  (0x100013C, 0x107F140, 0x1000, 4),
  (0x1000140, 0x107F144, 0x1000, 4),
  (0x1800000, 0x187F004, 0x1000, 4),
  (0x1800004, 0x187F008, 0x1000, 4),
  (0x1800008, 0x187F00C, 0x1000, 4),
  (0x180000C, 0x187F010, 0x1000, 4),
  (0x1800010, 0x187F014, 0x1000, 4),
  (0x1800018, 0x187F030, 0x4, 4),
  (0x1800040, 0x187F044, 0x1000, 4),
  (0x1800044, 0x187F048, 0x1000, 4),
  (0x1800050, 0x187F080, 0x4, 4),
  (0x1800080, 0x187F0E0, 0x8, 8),
  (0x18000E0, 0x187F0F8, 0x4, 4),
  (0x1800100, 0x187F104, 0x1000, 4),
  (0x1800104, 0x187F108, 0x1000, 4),
  (0x1800110, 0x187F130, 0x4, 4),
  (0x1800200, 0x187F204, 0x1000, 4),
  (0x1800208, 0x187F210, 0x1000, 8),
  (0x1800210, 0x187F218, 0x1000, 8),
  (0x1800218, 0x187F21C, 0x1000, 4),
  (0x1800220, 0x187F228, 0x1000, 8),
  (0x1800300, 0x187F304, 0x1000, 4),
  (0x1800304, 0x187F308, 0x1000, 4),
  (0x1800308, 0x187F30C, 0x1000, 4),
  (0x180030C, 0x187F310, 0x1000, 4),
  (0x1800400, 0x187F600, 0x10, 16),
  (0x2000000, 0x2000004, 0x4, 4),
  (0x2000004, 0x2000008, 0x4, 4),
  (0x2000008, 0x200000C, 0x4, 4),
  (0x2001000, 0x2004FF4, 0x10, 4),
  (0x2001004, 0x2004FF8, 0x10, 4),
  (0x2001008, 0x2004FFC, 0x10, 4),
  (0x200100C, 0x2005000, 0x10, 4),
  (0x2008000, 0x2009FE4, 0x20, 4),
  (0x2008004, 0x2009FE8, 0x20, 4),
  (0x2008008, 0x2009FEC, 0x20, 4),
  (0x200800C, 0x2009FF0, 0x20, 4),
  (0x2008010, 0x2009FF4, 0x20, 4),
  (0x2010000, 0x20103FC, 0x8, 4),
  (0x2010004, 0x2010400, 0x8, 4),
  (0x2020000, 0x203FFE4, 0x20, 4),
  (0x2020004, 0x203FFE8, 0x20, 4),
  (0x2020008, 0x203FFF0, 0x20, 8),
  (0x2020010, 0x203FFF4, 0x20, 4),
  (0x2400000, 0x2600000, 0x20, 32),
  (0x102800000, 0x8002800004, 0x100000000, 4),
  (0x102800004, 0x8002800008, 0x100000000, 4),
  (0x102800008, 0x800280000C, 0x100000000, 4)]

/-- Boxes of registers, in the order of `Part`. -/
def boxes2 : List Box := [
  (0x102800010, 0x8002800018, 0x100000000, 8),
  (0x102800020, 0x8002800040, 0x4, 4),
  (0x2800040, 0x2800044, 0x4, 4),
  (0x2801000, 0x28017FC, 0x8, 4),
  (0x2801004, 0x2801800, 0x8, 4),
  (0x2802000, 0x28027F4, 0x10, 4),
  (0x2802004, 0x28027F8, 0x10, 4),
  (0x2802008, 0x28027FC, 0x10, 4),
  (0x280200C, 0x2802800, 0x10, 4),
  (0x2900000, 0x2A00000, 0x20, 32),
  (0x1000200, 0x107F204, 0x1000, 4),
  (0x1000204, 0x107F208, 0x1000, 4),
  (0x1000208, 0x107F20C, 0x1000, 4),
  (0x100020C, 0x107F210, 0x1000, 4),
  (0x1000210, 0x107F214, 0x1000, 4),
  (0x1000214, 0x107F218, 0x1000, 4),
  (0x1000218, 0x107F21C, 0x1000, 4),
  (0x1000220, 0x107F228, 0x1000, 8),
  (0x1000228, 0x107F22C, 0x1000, 4),
  (0x100022C, 0x107F230, 0x1000, 4),
  (0x1000230, 0x107F238, 0x1000, 8),
  (0x1000238, 0x107F23C, 0x1000, 4),
  (0x100023C, 0x107F240, 0x1000, 4),
  (0x1000240, 0x107F244, 0x1000, 4),
  (0x1000244, 0x107F248, 0x1000, 4),
  (0x3000000, 0x3000004, 0x4, 4),
  (0x3000004, 0x3000008, 0x4, 4),
  (0x3000008, 0x300000C, 0x4, 4),
  (0x3000010, 0x3000018, 0x8, 8),
  (0x3000020, 0x3000040, 0x4, 4),
  (0x3000050, 0x300006C, 0x4, 4),
  (0x3001000, 0x3008FE4, 0x20, 4),
  (0x3001004, 0x3008FE8, 0x20, 4),
  (0x3001008, 0x3008FEC, 0x20, 4),
  (0x300100C, 0x3008FF0, 0x20, 4),
  (0x3001010, 0x3008FF4, 0x20, 4),
  (0x3001014, 0x3008FF8, 0x20, 4),
  (0x3001018, 0x3008FFC, 0x20, 4),
  (0x300101C, 0x3009000, 0x20, 4),
  (0x3010000, 0x3013FF4, 0x10, 4),
  (0x3010004, 0x3013FF8, 0x10, 4),
  (0x3010008, 0x3013FFC, 0x10, 4),
  (0x301000C, 0x3014000, 0x10, 4),
  (0x3020000, 0x30207E4, 0x20, 4),
  (0x3020004, 0x30207E8, 0x20, 4),
  (0x3020008, 0x30207F0, 0x20, 8),
  (0x3020010, 0x30207F4, 0x20, 4),
  (0x3020014, 0x30207F8, 0x20, 4),
  (0x3030000, 0x30307FC, 0x8, 4),
  (0x3030004, 0x3030800, 0x8, 4)]

/-- Boxes of registers, in the order of `Part`. -/
def boxes3 : List Box := [
  (0x4000000, 0x4F00004, 0x100000, 4),
  (0x4000004, 0x4F00008, 0x100000, 4),
  (0x4000008, 0x4F0000C, 0x100000, 4),
  (0x4000020, 0x4F00040, 0x4, 4),
  (0x4010000, 0x4F17004, 0x1000, 4),
  (0x4010004, 0x4F17008, 0x1000, 4),
  (0x4010008, 0x4F1700C, 0x1000, 4),
  (0x401000C, 0x4F17010, 0x1000, 4),
  (0x4010010, 0x4F17014, 0x1000, 4),
  (0x4010040, 0x4F1707C, 0x8, 4),
  (0x4010044, 0x4F17080, 0x8, 4),
  (0x4010100, 0x4F17200, 0x4, 4),
  (0x4020000, 0x4F23F04, 0x100, 4),
  (0x4020004, 0x4F23F08, 0x100, 4),
  (0x4020008, 0x4F23F0C, 0x100, 4),
  (0x402000C, 0x4F23F10, 0x100, 4),
  (0x4020010, 0x4F23F14, 0x100, 4),
  (0x4020014, 0x4F23F18, 0x100, 4),
  (0x4020018, 0x4F23F1C, 0x100, 4),
  (0x402001C, 0x4F23F20, 0x100, 4),
  (0x5500000, 0x5500004, 0x4, 4),
  (0x5500004, 0x5500008, 0x4, 4),
  (0x5500008, 0x550000C, 0x4, 4),
  (0x5500010, 0x5500014, 0x4, 4),
  (0x5500014, 0x5500018, 0x4, 4),
  (0x5500018, 0x550001C, 0x4, 4),
  (0x550001C, 0x5500020, 0x4, 4),
  (0x5500020, 0x5500030, 0x4, 4),
  (0x5500030, 0x5500040, 0x4, 4),
  (0x5500040, 0x5500050, 0x4, 4),
  (0x5500050, 0x5500060, 0x4, 4),
  (0x5500060, 0x55000B8, 0x4, 4),
  (0x5501000, 0x5505000, 0x4, 4),
  (0x5200000, 0x5200004, 0x4, 4),
  (0x5200004, 0x5200008, 0x4, 4),
  (0x5200008, 0x520000C, 0x4, 4),
  (0x520000C, 0x5200010, 0x4, 4),
  (0x5200010, 0x5200018, 0x8, 8),
  (0x5200018, 0x520001C, 0x4, 4),
  (0x5200020, 0x5200028, 0x8, 8),
  (0x5200028, 0x5200030, 0x8, 8),
  (0x5200030, 0x5200038, 0x8, 8),
  (0x5200038, 0x5200040, 0x8, 8),
  (0x5200040, 0x5200044, 0x4, 4),
  (0x5200044, 0x5200048, 0x4, 4),
  (0x5200048, 0x5200050, 0x8, 8),
  (0x5200050, 0x5200058, 0x8, 8),
  (0x5200058, 0x5200060, 0x8, 8),
  (0x5200060, 0x5200074, 0x4, 4),
  (0x5200080, 0x5200088, 0x8, 8)]

/-- Boxes of registers, in the order of `Part`. -/
def boxes4 : List Box := [
  (0x5200100, 0x5200164, 0x20, 4),
  (0x5200104, 0x5200168, 0x20, 4),
  (0x5200108, 0x5200170, 0x20, 8),
  (0x5200110, 0x5200178, 0x20, 8),
  (0x5200118, 0x520017C, 0x20, 4),
  (0x520011C, 0x5200180, 0x20, 4),
  (0x5200400, 0x5200600, 0x4, 4),
  (0x5200600, 0x5200810, 0x4, 4),
  (0x5000000, 0x5000004, 0x4, 4),
  (0x5000004, 0x5000008, 0x4, 4),
  (0x5000008, 0x500000C, 0x4, 4),
  (0x500000C, 0x5000010, 0x4, 4),
  (0x5000010, 0x5000014, 0x4, 4),
  (0x5000018, 0x5000020, 0x8, 8),
  (0x5000020, 0x5000024, 0x4, 4),
  (0x5001000, 0x50017E4, 0x20, 4),
  (0x5001004, 0x50017E8, 0x20, 4),
  (0x5001008, 0x50017EC, 0x20, 4),
  (0x500100C, 0x50017F0, 0x20, 4),
  (0x5001010, 0x50017F4, 0x20, 4),
  (0x5001014, 0x50017F8, 0x20, 4),
  (0x5010000, 0x5012000, 0x4, 4),
  (0x5100000, 0x5100004, 0x4, 4),
  (0x5100004, 0x5100008, 0x4, 4),
  (0x5100008, 0x510000C, 0x4, 4),
  (0x510000C, 0x5100010, 0x4, 4),
  (0x5100010, 0x5100014, 0x4, 4),
  (0x5100014, 0x5100018, 0x4, 4),
  (0x5100018, 0x510001C, 0x4, 4),
  (0x5100020, 0x5100028, 0x8, 8),
  (0x5100028, 0x510002C, 0x4, 4),
  (0x5100030, 0x5100038, 0x8, 8),
  (0x5100038, 0x510003C, 0x4, 4),
  (0x510003C, 0x5100040, 0x4, 4),
  (0x5100040, 0x5100048, 0x8, 8),
  (0x5100048, 0x5100050, 0x8, 8),
  (0x5101000, 0x5101400, 0x4, 4),
  (0x5101400, 0x51015FC, 0x8, 4),
  (0x5101404, 0x5101600, 0x8, 4),
  (0x5102000, 0x5103000, 0x10, 16),
  (0x100, 0x104, 0x4, 4),
  (0x104, 0x108, 0x4, 4),
  (0x108, 0x10C, 0x4, 4),
  (0x10C, 0x110, 0x4, 4),
  (0x110, 0x114, 0x4, 4),
  (0x114, 0x118, 0x4, 4),
  (0x5600000, 0x5600004, 0x4, 4),
  (0x5600004, 0x5600008, 0x4, 4),
  (0x5600008, 0x560000C, 0x4, 4),
  (0x560000C, 0x5600010, 0x4, 4)]

/-- Boxes of registers, in the order of `Part`. -/
def boxes5 : List Box := [
  (0x5600010, 0x5600014, 0x4, 4),
  (0x5600020, 0x5600040, 0x8, 8),
  (0x5600040, 0x5600048, 0x8, 8),
  (0x5400000, 0x5400004, 0x4, 4),
  (0x5401000, 0x5401304, 0x100, 4),
  (0x5401004, 0x5401308, 0x100, 4),
  (0x5401008, 0x5401310, 0x100, 8),
  (0x5401010, 0x5401314, 0x100, 4),
  (0x5401014, 0x5401318, 0x100, 4),
  (0x5401018, 0x540131C, 0x100, 4),
  (0x540101C, 0x5401320, 0x100, 4),
  (0x5402000, 0x54027E4, 0x20, 4),
  (0x5402008, 0x54027F0, 0x20, 8),
  (0x5402010, 0x54027F4, 0x20, 4),
  (0x5410000, 0x5410004, 0x4, 4),
  (0x5410004, 0x5410008, 0x4, 4),
  (0x5410008, 0x541000C, 0x4, 4),
  (0x5410010, 0x5410018, 0x8, 8),
  (0x5420000, 0x5420004, 0x4, 4),
  (0x5420004, 0x5420008, 0x4, 4),
  (0x5420008, 0x542000C, 0x4, 4),
  (0x5420010, 0x5420018, 0x8, 8),
  (0x5300000, 0x5300004, 0x4, 4),
  (0x5300004, 0x5300008, 0x4, 4),
  (0x5300008, 0x530000C, 0x4, 4),
  (0x530000C, 0x5300010, 0x4, 4),
  (0x5300010, 0x5300014, 0x4, 4),
  (0x105300020, 0x8005300024, 0x100000000, 4),
  (0x105300024, 0x8005300028, 0x100000000, 4),
  (0x105300028, 0x800530002C, 0x100000000, 4),
  (0x105300030, 0x8005300038, 0x100000000, 8),
  (0x5301000, 0x5301400, 0x4, 4),
  (0x5302000, 0x5305FF4, 0x10, 4),
  (0x5302004, 0x5305FF8, 0x10, 4),
  (0x5302008, 0x5305FFC, 0x10, 4),
  (0x5601000, 0x5601004, 0x4, 4),
  (0x5601004, 0x5601008, 0x4, 4),
  (0x5601008, 0x560100C, 0x4, 4),
  (0x560100C, 0x5601010, 0x4, 4),
  (0x5601010, 0x5601018, 0x8, 8),
  (0x5601018, 0x560101C, 0x4, 4),
  (0x5601020, 0x5601028, 0x8, 8),
  (0x5601100, 0x5601300, 0x8, 8),
  (0x5603000, 0x5605000, 0x8, 8),
  (0x5681000, 0x56A1000, 0x20, 32),
  (0x5700000, 0x5700004, 0x4, 4),
  (0x5700004, 0x5700008, 0x4, 4),
  (0x5700008, 0x570000C, 0x4, 4),
  (0x570000C, 0x5700010, 0x4, 4),
  (0x5700010, 0x5700014, 0x4, 4)]

/-- Boxes of registers, in the order of `Part`. -/
def boxes6 : List Box := [
  (0x5700014, 0x5700018, 0x4, 4),
  (0x5700018, 0x570001C, 0x4, 4),
  (0x5700020, 0x5700040, 0x4, 4),
  (0x5700040, 0x5700048, 0x4, 4),
  (0x5800000, 0x5800004, 0x4, 4),
  (0x5800004, 0x5800008, 0x4, 4),
  (0x5800008, 0x580000C, 0x4, 4),
  (0x580000C, 0x5800010, 0x4, 4),
  (0x5800010, 0x5800018, 0x8, 8),
  (0x5800018, 0x580001C, 0x4, 4),
  (0x5800020, 0x5800028, 0x8, 8),
  (0x5800040, 0x5800060, 0x4, 4),
  (0x5800100, 0x5800174, 0x10, 4),
  (0x5800104, 0x5800178, 0x10, 4),
  (0x5800108, 0x580017C, 0x10, 4),
  (0x580010C, 0x5800180, 0x10, 4),
  (0x5800180, 0x58001A0, 0x4, 4),
  (0x0, 0x4, 0x4, 4),
  (0x8, 0x10, 0x8, 8),
  (0x10, 0x14, 0x4, 4),
  (0x14, 0x18, 0x4, 4),
  (0x18, 0x1C, 0x4, 4),
  (0x1C, 0x20, 0x4, 4),
  (0x20, 0x24, 0x4, 4),
  (0x1900000, 0x193FFC4, 0x40, 4),
  (0x1900004, 0x193FFF4, 0x4, 4),
  (0x1A00000, 0x1A10000, 0x4, 4),
  (0x5418000, 0x5419008, 0x4, 4)]

/-- The boxes of all registers, in the order of `Part`. -/
def boxes : List Box := boxes0 ++ boxes1 ++ boxes2 ++ boxes3 ++ boxes4 ++ boxes5 ++ boxes6

/-- A word may lie in a box. -/
def Box.may (b : Box) (a : Nat) : Bool := decide (b.1 ≤ a) && decide (a < b.2.1) && decide ((a - b.1) % b.2.2.1 < b.2.2.2)

theorem Box.may_intro {lo hi st sz a : Nat} (h : lo ≤ a ∧ a < hi ∧ (a - lo) % st < sz) : Box.may (lo, hi, st, sz) a = true := by
  simp [Box.may, h.1, h.2.1, h.2.2]

/-- No register of the set `m` owns a word, by the boxes; `i` is the number of the first box. -/
def awayFrom (m a : Nat) : Nat → List Box → Bool
  | _, [] => true
  | i, b :: bs => (!m.testBit i || !b.may a) && awayFrom m a (i + 1) bs

/-- No part of the set `m` owns a word, by the boxes. -/
def away (m a : Nat) : Bool := !m.testBit 23 && awayFrom m a 24 boxes

theorem awayFrom_get {m a i : Nat} {l : List Box} (h : awayFrom m a i l = true) (k : Nat) (b : Box) (hk : l[k]? = some b)
    (hm : m.testBit (i + k) = true) : b.may a = false := by
  induction l generalizing i k with
  | nil => simp at hk
  | cons c l ih =>
    simp only [awayFrom, Bool.and_eq_true, Bool.or_eq_true, Bool.not_eq_true'] at h
    cases k with
    | zero =>
      simp only [List.getElem?_cons_zero, Option.some.injEq] at hk
      subst hk
      rcases h.1 with h1 | h1
      · rw [Nat.add_zero] at hm
        rw [hm] at h1
        exact absurd h1 (by decide)
      · exact h1
    | succ k =>
      simp only [List.getElem?_cons_succ] at hk
      exact ih h.2 k hk (by rwa [Nat.add_assoc, Nat.add_comm 1 k])
theorem IMG_CTRL_may {a : Nat} (h : Part.IMG_CTRL.owns a) : Box.may (0x100000, 0x100004, 0x4, 4) a = true := by
  have h : a = _ := h
  exact Box.may_intro (by omega)

theorem IMG_STATUS_may {a : Nat} (h : Part.IMG_STATUS.owns a) : Box.may (0x100004, 0x100008, 0x4, 4) a = true := by
  have h : a = _ := h
  exact Box.may_intro (by omega)

theorem IMG_SRC_may {a : Nat} (h : Part.IMG_SRC.owns a) : Box.may (0x100008, 0x10000C, 0x4, 4) a = true := by
  have h : a = _ := h
  exact Box.may_intro (by omega)

theorem IMG_LEN_may {a : Nat} (h : Part.IMG_LEN.owns a) : Box.may (0x10000C, 0x100010, 0x4, 4) a = true := by
  have h : a = _ := h
  exact Box.may_intro (by omega)

theorem IMG_CHK_LOC_may {a : Nat} (h : Part.IMG_CHK_LOC.owns a) : Box.may (0x100010, 0x100014, 0x4, 4) a = true := by
  have h : a = _ := h
  exact Box.may_intro (by omega)

theorem IMG_CHK_COUNT_may {a : Nat} (h : Part.IMG_CHK_COUNT.owns a) : Box.may (0x100014, 0x100018, 0x4, 4) a = true := by
  have h : a = _ := h
  exact Box.may_intro (by omega)

theorem IMG_EPOCH_may {a : Nat} (h : Part.IMG_EPOCH.owns a) : Box.may (0x100018, 0x10001C, 0x4, 4) a = true := by
  have h : a = _ := h
  exact Box.may_intro (by omega)

theorem IMG_VERSION_may {a : Nat} (h : Part.IMG_VERSION.owns a) : Box.may (0x10001C, 0x100020, 0x4, 4) a = true := by
  have h : a = _ := h
  exact Box.may_intro (by omega)

theorem IMG_JRNL_may {a : Nat} (h : Part.IMG_JRNL.owns a) : Box.may (0x100020, 0x100024, 0x4, 4) a = true := by
  have h : a = _ := h
  exact Box.may_intro (by omega)

theorem IMG_BOOT_may {a : Nat} (h : Part.IMG_BOOT.owns a) : Box.may (0x100024, 0x100028, 0x4, 4) a = true := by
  have h : a = _ := h
  exact Box.may_intro (by omega)

theorem IMG_FMT_may {a : Nat} (h : Part.IMG_FMT.owns a) : Box.may (0x100028, 0x10002C, 0x4, 4) a = true := by
  have h : a = _ := h
  exact Box.may_intro (by omega)

theorem IMG_SVER_MAX_may {a : Nat} (h : Part.IMG_SVER_MAX.owns a) : Box.may (0x10002C, 0x100030, 0x4, 4) a = true := by
  have h : a = _ := h
  exact Box.may_intro (by omega)

theorem IMG_TRANS_LIMIT_may {a : Nat} (h : Part.IMG_TRANS_LIMIT.owns a) : Box.may (0x100030, 0x100034, 0x4, 4) a = true := by
  have h : a = _ := h
  exact Box.may_intro (by omega)

theorem IMG_SUSP_may {a : Nat} (h : Part.IMG_SUSP.owns a) : Box.may (0x100034, 0x100038, 0x4, 4) a = true := by
  have h : a = _ := h
  exact Box.may_intro (by omega)

theorem IMG_XDROP_may {a : Nat} (h : Part.IMG_XDROP.owns a) : Box.may (0x100038, 0x10003C, 0x4, 4) a = true := by
  have h : a = _ := h
  exact Box.may_intro (by omega)

theorem IMG_FORCED_may {a : Nat} (h : Part.IMG_FORCED.owns a) : Box.may (0x10003C, 0x100040, 0x4, 4) a = true := by
  have h : a = _ := h
  exact Box.may_intro (by omega)

theorem IMG_DIGEST_may {a : Nat} (h : Part.IMG_DIGEST.owns a) : Box.may (0x100040, 0x100070, 0x4, 4) a = true := by
  obtain ⟨n, hn, h⟩ := h
  exact Box.may_intro (by omega)

theorem IMG_TRANS_may {a : Nat} (h : Part.IMG_TRANS.owns a) : Box.may (0x100080, 0x100090, 0x4, 4) a = true := by
  obtain ⟨n, hn, h⟩ := h
  exact Box.may_intro (by omega)

theorem IMG_PORT_EPOCH_may {a : Nat} (h : Part.IMG_PORT_EPOCH.owns a) : Box.may (0x101000, 0x101200, 0x4, 4) a = true := by
  obtain ⟨n, hn, h⟩ := h
  exact Box.may_intro (by omega)

theorem LP_CTRL_may {a : Nat} (h : Part.LP_CTRL.owns a) : Box.may (0x1000000, 0x107F004, 0x1000, 4) a = true := by
  obtain ⟨n, hn, h⟩ := h
  exact Box.may_intro (by omega)

theorem LP_STATE_may {a : Nat} (h : Part.LP_STATE.owns a) : Box.may (0x1000004, 0x107F008, 0x1000, 4) a = true := by
  obtain ⟨n, hn, h⟩ := h
  exact Box.may_intro (by omega)

theorem LP_CFG_may {a : Nat} (h : Part.LP_CFG.owns a) : Box.may (0x1000008, 0x107F00C, 0x1000, 4) a = true := by
  obtain ⟨n, hn, h⟩ := h
  exact Box.may_intro (by omega)

theorem LP_TOPO_may {a : Nat} (h : Part.LP_TOPO.owns a) : Box.may (0x100000C, 0x107F010, 0x1000, 4) a = true := by
  obtain ⟨n, hn, h⟩ := h
  exact Box.may_intro (by omega)

theorem LP_WIRE_may {a : Nat} (h : Part.LP_WIRE.owns a) : Box.may (0x1000010, 0x107F014, 0x1000, 4) a = true := by
  obtain ⟨n, hn, h⟩ := h
  exact Box.may_intro (by omega)

theorem LP_FAULT_may {a : Nat} (h : Part.LP_FAULT.owns a) : Box.may (0x1000014, 0x107F018, 0x1000, 4) a = true := by
  obtain ⟨n, hn, h⟩ := h
  exact Box.may_intro (by omega)

theorem LP_MEAS_may {a : Nat} (h : Part.LP_MEAS.owns a) : Box.may (0x1000018, 0x107F01C, 0x1000, 4) a = true := by
  obtain ⟨n, hn, h⟩ := h
  exact Box.may_intro (by omega)

theorem LP_EMETER_may {a : Nat} (h : Part.LP_EMETER.owns a) : Box.may (0x100001C, 0x107F020, 0x1000, 4) a = true := by
  obtain ⟨n, hn, h⟩ := h
  exact Box.may_intro (by omega)

theorem LP_DEFER_may {a : Nat} (h : Part.LP_DEFER.owns a) : Box.may (0x1000020, 0x107F024, 0x1000, 4) a = true := by
  obtain ⟨n, hn, h⟩ := h
  exact Box.may_intro (by omega)

theorem LP_WAKE_CFG_may {a : Nat} (h : Part.LP_WAKE_CFG.owns a) : Box.may (0x1000024, 0x107F028, 0x1000, 4) a = true := by
  obtain ⟨n, hn, h⟩ := h
  exact Box.may_intro (by omega)

theorem LP_WUF_ID_may {a : Nat} (h : Part.LP_WUF_ID.owns a) : Box.may (0x1000028, 0x107F02C, 0x1000, 4) a = true := by
  obtain ⟨n, hn, h⟩ := h
  exact Box.may_intro (by omega)

theorem LP_WUF_IDMASK_may {a : Nat} (h : Part.LP_WUF_IDMASK.owns a) : Box.may (0x100002C, 0x107F030, 0x1000, 4) a = true := by
  obtain ⟨n, hn, h⟩ := h
  exact Box.may_intro (by omega)

theorem LP_WUF_DATA_may {a : Nat} (h : Part.LP_WUF_DATA.owns a) : Box.may (0x1000030, 0x107F038, 0x1000, 8) a = true := by
  obtain ⟨n, hn, w, hw, h⟩ := h
  exact Box.may_intro (by omega)

theorem LP_WAKE_STAT_may {a : Nat} (h : Part.LP_WAKE_STAT.owns a) : Box.may (0x1000038, 0x107F03C, 0x1000, 4) a = true := by
  obtain ⟨n, hn, h⟩ := h
  exact Box.may_intro (by omega)

theorem LP_GOV_CFG_may {a : Nat} (h : Part.LP_GOV_CFG.owns a) : Box.may (0x1000800, 0x1040804, 0x40000, 4) a = true := by
  obtain ⟨n, hn, h⟩ := h
  exact Box.may_intro (by omega)

theorem LP_GOV_STAT_may {a : Nat} (h : Part.LP_GOV_STAT.owns a) : Box.may (0x1000804, 0x1040808, 0x40000, 4) a = true := by
  obtain ⟨n, hn, h⟩ := h
  exact Box.may_intro (by omega)

theorem LP_GOV_PEAK_may {a : Nat} (h : Part.LP_GOV_PEAK.owns a) : Box.may (0x1000808, 0x104080C, 0x40000, 4) a = true := by
  obtain ⟨n, hn, h⟩ := h
  exact Box.may_intro (by omega)

theorem LP_GOV_CNT_may {a : Nat} (h : Part.LP_GOV_CNT.owns a) : Box.may (0x100080C, 0x1040810, 0x40000, 4) a = true := by
  obtain ⟨n, hn, h⟩ := h
  exact Box.may_intro (by omega)

theorem BT_CTRL_may {a : Nat} (h : Part.BT_CTRL.owns a) : Box.may (0x1000100, 0x107F104, 0x1000, 4) a = true := by
  obtain ⟨n, hn, h⟩ := h
  exact Box.may_intro (by omega)

theorem BT_STAT_may {a : Nat} (h : Part.BT_STAT.owns a) : Box.may (0x1000104, 0x107F108, 0x1000, 4) a = true := by
  obtain ⟨n, hn, h⟩ := h
  exact Box.may_intro (by omega)

theorem BT_CFG_may {a : Nat} (h : Part.BT_CFG.owns a) : Box.may (0x1000108, 0x107F10C, 0x1000, 4) a = true := by
  obtain ⟨n, hn, h⟩ := h
  exact Box.may_intro (by omega)

theorem BT_PRESC_may {a : Nat} (h : Part.BT_PRESC.owns a) : Box.may (0x100010C, 0x107F110, 0x1000, 4) a = true := by
  obtain ⟨n, hn, h⟩ := h
  exact Box.may_intro (by omega)

theorem BT_NTIM_may {a : Nat} (h : Part.BT_NTIM.owns a) : Box.may (0x1000110, 0x107F114, 0x1000, 4) a = true := by
  obtain ⟨n, hn, h⟩ := h
  exact Box.may_intro (by omega)

theorem BT_DTIM_may {a : Nat} (h : Part.BT_DTIM.owns a) : Box.may (0x1000114, 0x107F118, 0x1000, 4) a = true := by
  obtain ⟨n, hn, h⟩ := h
  exact Box.may_intro (by omega)

theorem BT_XTIM_may {a : Nat} (h : Part.BT_XTIM.owns a) : Box.may (0x1000118, 0x107F11C, 0x1000, 4) a = true := by
  obtain ⟨n, hn, h⟩ := h
  exact Box.may_intro (by omega)

theorem BT_TDC_may {a : Nat} (h : Part.BT_TDC.owns a) : Box.may (0x100011C, 0x107F120, 0x1000, 4) a = true := by
  obtain ⟨n, hn, h⟩ := h
  exact Box.may_intro (by omega)

theorem BT_PLCA_may {a : Nat} (h : Part.BT_PLCA.owns a) : Box.may (0x1000120, 0x107F124, 0x1000, 4) a = true := by
  obtain ⟨n, hn, h⟩ := h
  exact Box.may_intro (by omega)

theorem BT_PLCA_TMR_may {a : Nat} (h : Part.BT_PLCA_TMR.owns a) : Box.may (0x1000124, 0x107F128, 0x1000, 4) a = true := by
  obtain ⟨n, hn, h⟩ := h
  exact Box.may_intro (by omega)

theorem BT_PLCA_STAT_may {a : Nat} (h : Part.BT_PLCA_STAT.owns a) : Box.may (0x1000128, 0x107F12C, 0x1000, 4) a = true := by
  obtain ⟨n, hn, h⟩ := h
  exact Box.may_intro (by omega)

theorem BT_BCN_ID_may {a : Nat} (h : Part.BT_BCN_ID.owns a) : Box.may (0x100012C, 0x107F130, 0x1000, 4) a = true := by
  obtain ⟨n, hn, h⟩ := h
  exact Box.may_intro (by omega)

theorem BT_BCN_CFG_may {a : Nat} (h : Part.BT_BCN_CFG.owns a) : Box.may (0x1000130, 0x107F134, 0x1000, 4) a = true := by
  obtain ⟨n, hn, h⟩ := h
  exact Box.may_intro (by omega)

theorem BT_BCN_STAT_may {a : Nat} (h : Part.BT_BCN_STAT.owns a) : Box.may (0x1000134, 0x107F138, 0x1000, 4) a = true := by
  obtain ⟨n, hn, h⟩ := h
  exact Box.may_intro (by omega)

theorem BT_RXCNT_may {a : Nat} (h : Part.BT_RXCNT.owns a) : Box.may (0x1000138, 0x107F13C, 0x1000, 4) a = true := by
  obtain ⟨n, hn, h⟩ := h
  exact Box.may_intro (by omega)

theorem BT_TXCNT_may {a : Nat} (h : Part.BT_TXCNT.owns a) : Box.may (0x100013C, 0x107F140, 0x1000, 4) a = true := by
  obtain ⟨n, hn, h⟩ := h
  exact Box.may_intro (by omega)

theorem BT_PEXCNT_may {a : Nat} (h : Part.BT_PEXCNT.owns a) : Box.may (0x1000140, 0x107F144, 0x1000, 4) a = true := by
  obtain ⟨n, hn, h⟩ := h
  exact Box.may_intro (by omega)

theorem OBS_CTRL_may {a : Nat} (h : Part.OBS_CTRL.owns a) : Box.may (0x1800000, 0x187F004, 0x1000, 4) a = true := by
  obtain ⟨n, hn, h⟩ := h
  exact Box.may_intro (by omega)

theorem OBS_STAT_may {a : Nat} (h : Part.OBS_STAT.owns a) : Box.may (0x1800004, 0x187F008, 0x1000, 4) a = true := by
  obtain ⟨n, hn, h⟩ := h
  exact Box.may_intro (by omega)

theorem OBS_CFG_may {a : Nat} (h : Part.OBS_CFG.owns a) : Box.may (0x1800008, 0x187F00C, 0x1000, 4) a = true := by
  obtain ⟨n, hn, h⟩ := h
  exact Box.may_intro (by omega)

theorem OBS_WP_LAST_may {a : Nat} (h : Part.OBS_WP_LAST.owns a) : Box.may (0x180000C, 0x187F010, 0x1000, 4) a = true := by
  obtain ⟨n, hn, h⟩ := h
  exact Box.may_intro (by omega)

theorem OBS_WP_CNT_may {a : Nat} (h : Part.OBS_WP_CNT.owns a) : Box.may (0x1800010, 0x187F014, 0x1000, 4) a = true := by
  obtain ⟨n, hn, h⟩ := h
  exact Box.may_intro (by omega)

theorem OBS_WP_FEAT_may {a : Nat} (h : Part.OBS_WP_FEAT.owns a) : Box.may (0x1800018, 0x187F030, 0x4, 4) a = true := by
  obtain ⟨n, hn, k, hk, h⟩ := h
  exact Box.may_intro (by omega)

theorem OBS_ENR_SEL_may {a : Nat} (h : Part.OBS_ENR_SEL.owns a) : Box.may (0x1800040, 0x187F044, 0x1000, 4) a = true := by
  obtain ⟨n, hn, h⟩ := h
  exact Box.may_intro (by omega)

theorem OBS_ENR_STAT_may {a : Nat} (h : Part.OBS_ENR_STAT.owns a) : Box.may (0x1800044, 0x187F048, 0x1000, 4) a = true := by
  obtain ⟨n, hn, h⟩ := h
  exact Box.may_intro (by omega)

theorem OBS_ENR_SUM_may {a : Nat} (h : Part.OBS_ENR_SUM.owns a) : Box.may (0x1800050, 0x187F080, 0x4, 4) a = true := by
  obtain ⟨n, hn, k, hk, h⟩ := h
  exact Box.may_intro (by omega)

theorem OBS_ENR_SQ_may {a : Nat} (h : Part.OBS_ENR_SQ.owns a) : Box.may (0x1800080, 0x187F0E0, 0x8, 8) a = true := by
  obtain ⟨n, hn, k, hk, w, hw, h⟩ := h
  exact Box.may_intro (by omega)

theorem OBS_ENR_USE_may {a : Nat} (h : Part.OBS_ENR_USE.owns a) : Box.may (0x18000E0, 0x187F0F8, 0x4, 4) a = true := by
  obtain ⟨n, hn, k, hk, h⟩ := h
  exact Box.may_intro (by omega)

theorem OBS_SND_CFG_may {a : Nat} (h : Part.OBS_SND_CFG.owns a) : Box.may (0x1800100, 0x187F104, 0x1000, 4) a = true := by
  obtain ⟨n, hn, h⟩ := h
  exact Box.may_intro (by omega)

theorem OBS_SND_STAT_may {a : Nat} (h : Part.OBS_SND_STAT.owns a) : Box.may (0x1800104, 0x187F108, 0x1000, 4) a = true := by
  obtain ⟨n, hn, h⟩ := h
  exact Box.may_intro (by omega)

theorem OBS_SND_REFL_may {a : Nat} (h : Part.OBS_SND_REFL.owns a) : Box.may (0x1800110, 0x187F130, 0x4, 4) a = true := by
  obtain ⟨n, hn, k, hk, h⟩ := h
  exact Box.may_intro (by omega)

theorem OBS_CEN_STAT_may {a : Nat} (h : Part.OBS_CEN_STAT.owns a) : Box.may (0x1800200, 0x187F204, 0x1000, 4) a = true := by
  obtain ⟨n, hn, h⟩ := h
  exact Box.may_intro (by omega)

theorem OBS_CEN_START_may {a : Nat} (h : Part.OBS_CEN_START.owns a) : Box.may (0x1800208, 0x187F210, 0x1000, 8) a = true := by
  obtain ⟨n, hn, w, hw, h⟩ := h
  exact Box.may_intro (by omega)

theorem OBS_CEN_END_may {a : Nat} (h : Part.OBS_CEN_END.owns a) : Box.may (0x1800210, 0x187F218, 0x1000, 8) a = true := by
  obtain ⟨n, hn, w, hw, h⟩ := h
  exact Box.may_intro (by omega)

theorem OBS_CEN_UNK_may {a : Nat} (h : Part.OBS_CEN_UNK.owns a) : Box.may (0x1800218, 0x187F21C, 0x1000, 4) a = true := by
  obtain ⟨n, hn, h⟩ := h
  exact Box.may_intro (by omega)

theorem OBS_CEN_UNK_T_may {a : Nat} (h : Part.OBS_CEN_UNK_T.owns a) : Box.may (0x1800220, 0x187F228, 0x1000, 8) a = true := by
  obtain ⟨n, hn, w, hw, h⟩ := h
  exact Box.may_intro (by omega)

theorem OBS_CAP_CFG_may {a : Nat} (h : Part.OBS_CAP_CFG.owns a) : Box.may (0x1800300, 0x187F304, 0x1000, 4) a = true := by
  obtain ⟨n, hn, h⟩ := h
  exact Box.may_intro (by omega)

theorem OBS_CAP_STAT_may {a : Nat} (h : Part.OBS_CAP_STAT.owns a) : Box.may (0x1800304, 0x187F308, 0x1000, 4) a = true := by
  obtain ⟨n, hn, h⟩ := h
  exact Box.may_intro (by omega)

theorem OBS_CAP_SEQ_may {a : Nat} (h : Part.OBS_CAP_SEQ.owns a) : Box.may (0x1800308, 0x187F30C, 0x1000, 4) a = true := by
  obtain ⟨n, hn, h⟩ := h
  exact Box.may_intro (by omega)

theorem OBS_CAP_CNT_may {a : Nat} (h : Part.OBS_CAP_CNT.owns a) : Box.may (0x180030C, 0x187F310, 0x1000, 4) a = true := by
  obtain ⟨n, hn, h⟩ := h
  exact Box.may_intro (by omega)

theorem OBS_CEN_RES_may {a : Nat} (h : Part.OBS_CEN_RES.owns a) : Box.may (0x1800400, 0x187F600, 0x10, 16) a = true := by
  obtain ⟨n, hn, k, hk, w, hw, h⟩ := h
  exact Box.may_intro (by omega)

theorem MOP_DOORBELL_may {a : Nat} (h : Part.MOP_DOORBELL.owns a) : Box.may (0x2000000, 0x2000004, 0x4, 4) a = true := by
  have h : a = _ := h
  exact Box.may_intro (by omega)

theorem MOP_ERR_may {a : Nat} (h : Part.MOP_ERR.owns a) : Box.may (0x2000004, 0x2000008, 0x4, 4) a = true := by
  have h : a = _ := h
  exact Box.may_intro (by omega)

theorem MOP_ERR_SLOT_may {a : Nat} (h : Part.MOP_ERR_SLOT.owns a) : Box.may (0x2000008, 0x200000C, 0x4, 4) a = true := by
  have h : a = _ := h
  exact Box.may_intro (by omega)

theorem MOP_POOL_CFG0_may {a : Nat} (h : Part.MOP_POOL_CFG0.owns a) : Box.may (0x2001000, 0x2004FF4, 0x10, 4) a = true := by
  obtain ⟨n, hn, h⟩ := h
  exact Box.may_intro (by omega)

theorem MOP_POOL_CFG1_may {a : Nat} (h : Part.MOP_POOL_CFG1.owns a) : Box.may (0x2001004, 0x2004FF8, 0x10, 4) a = true := by
  obtain ⟨n, hn, h⟩ := h
  exact Box.may_intro (by omega)

theorem MOP_POOL_STAT_may {a : Nat} (h : Part.MOP_POOL_STAT.owns a) : Box.may (0x2001008, 0x2004FFC, 0x10, 4) a = true := by
  obtain ⟨n, hn, h⟩ := h
  exact Box.may_intro (by omega)

theorem MOP_POOL_CNT_may {a : Nat} (h : Part.MOP_POOL_CNT.owns a) : Box.may (0x200100C, 0x2005000, 0x10, 4) a = true := by
  obtain ⟨n, hn, h⟩ := h
  exact Box.may_intro (by omega)

theorem MOP_FSP_BASE_may {a : Nat} (h : Part.MOP_FSP_BASE.owns a) : Box.may (0x2008000, 0x2009FE4, 0x20, 4) a = true := by
  obtain ⟨n, hn, h⟩ := h
  exact Box.may_intro (by omega)

theorem MOP_FSP_CNT_may {a : Nat} (h : Part.MOP_FSP_CNT.owns a) : Box.may (0x2008004, 0x2009FE8, 0x20, 4) a = true := by
  obtain ⟨n, hn, h⟩ := h
  exact Box.may_intro (by omega)

theorem MOP_FSP_RSV_may {a : Nat} (h : Part.MOP_FSP_RSV.owns a) : Box.may (0x2008008, 0x2009FEC, 0x20, 4) a = true := by
  obtain ⟨n, hn, h⟩ := h
  exact Box.may_intro (by omega)

theorem MOP_FSP_FREE_may {a : Nat} (h : Part.MOP_FSP_FREE.owns a) : Box.may (0x200800C, 0x2009FF0, 0x20, 4) a = true := by
  obtain ⟨n, hn, h⟩ := h
  exact Box.may_intro (by omega)

theorem MOP_FSP_LOW_may {a : Nat} (h : Part.MOP_FSP_LOW.owns a) : Box.may (0x2008010, 0x2009FF4, 0x20, 4) a = true := by
  obtain ⟨n, hn, h⟩ := h
  exact Box.may_intro (by omega)

theorem MOP_PORTQ_may {a : Nat} (h : Part.MOP_PORTQ.owns a) : Box.may (0x2010000, 0x20103FC, 0x8, 4) a = true := by
  obtain ⟨n, hn, h⟩ := h
  exact Box.may_intro (by omega)

theorem MOP_PORTHEAD_may {a : Nat} (h : Part.MOP_PORTHEAD.owns a) : Box.may (0x2010004, 0x2010400, 0x8, 4) a = true := by
  obtain ⟨n, hn, h⟩ := h
  exact Box.may_intro (by omega)

theorem MOP_MON_CFG_may {a : Nat} (h : Part.MOP_MON_CFG.owns a) : Box.may (0x2020000, 0x203FFE4, 0x20, 4) a = true := by
  obtain ⟨n, hn, h⟩ := h
  exact Box.may_intro (by omega)

theorem MOP_MON_PERIOD_may {a : Nat} (h : Part.MOP_MON_PERIOD.owns a) : Box.may (0x2020004, 0x203FFE8, 0x20, 4) a = true := by
  obtain ⟨n, hn, h⟩ := h
  exact Box.may_intro (by omega)

theorem MOP_MON_NEXT_may {a : Nat} (h : Part.MOP_MON_NEXT.owns a) : Box.may (0x2020008, 0x203FFF0, 0x20, 8) a = true := by
  obtain ⟨n, hn, w, hw, h⟩ := h
  exact Box.may_intro (by omega)

theorem MOP_MON_STAT_may {a : Nat} (h : Part.MOP_MON_STAT.owns a) : Box.may (0x2020010, 0x203FFF4, 0x20, 4) a = true := by
  obtain ⟨n, hn, h⟩ := h
  exact Box.may_intro (by omega)

theorem MOP_DESC_may {a : Nat} (h : Part.MOP_DESC.owns a) : Box.may (0x2400000, 0x2600000, 0x20, 32) a = true := by
  obtain ⟨n, hn, w, hw, h⟩ := h
  exact Box.may_intro (by omega)

theorem CAT_UPD_CMD_may {a : Nat} (h : Part.CAT_UPD_CMD.owns a) : Box.may (0x102800000, 0x8002800004, 0x100000000, 4) a = true := by
  obtain ⟨q, hq, h⟩ := h
  unfold perRequester at h
  exact Box.may_intro (by omega)

theorem CAT_UPD_STAT_may {a : Nat} (h : Part.CAT_UPD_STAT.owns a) : Box.may (0x102800004, 0x8002800008, 0x100000000, 4) a = true := by
  obtain ⟨q, hq, h⟩ := h
  unfold perRequester at h
  exact Box.may_intro (by omega)

theorem CAT_UPD_IDX_may {a : Nat} (h : Part.CAT_UPD_IDX.owns a) : Box.may (0x102800008, 0x800280000C, 0x100000000, 4) a = true := by
  obtain ⟨q, hq, h⟩ := h
  unfold perRequester at h
  exact Box.may_intro (by omega)

theorem CAT_UPD_T_may {a : Nat} (h : Part.CAT_UPD_T.owns a) : Box.may (0x102800010, 0x8002800018, 0x100000000, 8) a = true := by
  obtain ⟨q, hq, w, hw, h⟩ := h
  unfold perRequester at h
  exact Box.may_intro (by omega)

theorem CAT_UPD_W_may {a : Nat} (h : Part.CAT_UPD_W.owns a) : Box.may (0x102800020, 0x8002800040, 0x4, 4) a = true := by
  obtain ⟨q, hq, n, hn, h⟩ := h
  unfold perRequester at h
  exact Box.may_intro (by omega)

theorem CAT_USE_may {a : Nat} (h : Part.CAT_USE.owns a) : Box.may (0x2800040, 0x2800044, 0x4, 4) a = true := by
  have h : a = _ := h
  exact Box.may_intro (by omega)

theorem CAT_TBL_CFG0_may {a : Nat} (h : Part.CAT_TBL_CFG0.owns a) : Box.may (0x2801000, 0x28017FC, 0x8, 4) a = true := by
  obtain ⟨n, hn, h⟩ := h
  exact Box.may_intro (by omega)

theorem CAT_TBL_CFG1_may {a : Nat} (h : Part.CAT_TBL_CFG1.owns a) : Box.may (0x2801004, 0x2801800, 0x8, 4) a = true := by
  obtain ⟨n, hn, h⟩ := h
  exact Box.may_intro (by omega)

theorem CAT_PBIND_may {a : Nat} (h : Part.CAT_PBIND.owns a) : Box.may (0x2802000, 0x28027F4, 0x10, 4) a = true := by
  obtain ⟨n, hn, h⟩ := h
  exact Box.may_intro (by omega)

theorem CAT_PCNT_may {a : Nat} (h : Part.CAT_PCNT.owns a) : Box.may (0x2802004, 0x28027F8, 0x10, 4) a = true := by
  obtain ⟨n, hn, h⟩ := h
  exact Box.may_intro (by omega)

theorem CAT_PADDR_LO_may {a : Nat} (h : Part.CAT_PADDR_LO.owns a) : Box.may (0x2802008, 0x28027FC, 0x10, 4) a = true := by
  obtain ⟨n, hn, h⟩ := h
  exact Box.may_intro (by omega)

theorem CAT_PADDR_HI_may {a : Nat} (h : Part.CAT_PADDR_HI.owns a) : Box.may (0x280200C, 0x2802800, 0x10, 4) a = true := by
  obtain ⟨n, hn, h⟩ := h
  exact Box.may_intro (by omega)

theorem CAT_ENTRY_may {a : Nat} (h : Part.CAT_ENTRY.owns a) : Box.may (0x2900000, 0x2A00000, 0x20, 32) a = true := by
  obtain ⟨n, hn, w, hw, h⟩ := h
  exact Box.may_intro (by omega)

theorem ECF_CTRL_may {a : Nat} (h : Part.ECF_CTRL.owns a) : Box.may (0x1000200, 0x107F204, 0x1000, 4) a = true := by
  obtain ⟨n, hn, h⟩ := h
  exact Box.may_intro (by omega)

theorem ECF_STAT_may {a : Nat} (h : Part.ECF_STAT.owns a) : Box.may (0x1000204, 0x107F208, 0x1000, 4) a = true := by
  obtain ⟨n, hn, h⟩ := h
  exact Box.may_intro (by omega)

theorem ECF_CFG_may {a : Nat} (h : Part.ECF_CFG.owns a) : Box.may (0x1000208, 0x107F20C, 0x1000, 4) a = true := by
  obtain ⟨n, hn, h⟩ := h
  exact Box.may_intro (by omega)

theorem ECF_GUARD_may {a : Nat} (h : Part.ECF_GUARD.owns a) : Box.may (0x100020C, 0x107F210, 0x1000, 4) a = true := by
  obtain ⟨n, hn, h⟩ := h
  exact Box.may_intro (by omega)

theorem ECF_SLOPE_may {a : Nat} (h : Part.ECF_SLOPE.owns a) : Box.may (0x1000210, 0x107F214, 0x1000, 4) a = true := by
  obtain ⟨n, hn, h⟩ := h
  exact Box.may_intro (by omega)

theorem ECF_CNT_may {a : Nat} (h : Part.ECF_CNT.owns a) : Box.may (0x1000214, 0x107F218, 0x1000, 4) a = true := by
  obtain ⟨n, hn, h⟩ := h
  exact Box.may_intro (by omega)

theorem ECF_LAST_may {a : Nat} (h : Part.ECF_LAST.owns a) : Box.may (0x1000218, 0x107F21C, 0x1000, 4) a = true := by
  obtain ⟨n, hn, h⟩ := h
  exact Box.may_intro (by omega)

theorem ECF_LAST_T_may {a : Nat} (h : Part.ECF_LAST_T.owns a) : Box.may (0x1000220, 0x107F228, 0x1000, 8) a = true := by
  obtain ⟨n, hn, w, hw, h⟩ := h
  exact Box.may_intro (by omega)

theorem ECF_ERRCNT_may {a : Nat} (h : Part.ECF_ERRCNT.owns a) : Box.may (0x1000228, 0x107F22C, 0x1000, 4) a = true := by
  obtain ⟨n, hn, h⟩ := h
  exact Box.may_intro (by omega)

theorem ECF_BO_may {a : Nat} (h : Part.ECF_BO.owns a) : Box.may (0x100022C, 0x107F230, 0x1000, 4) a = true := by
  obtain ⟨n, hn, h⟩ := h
  exact Box.may_intro (by omega)

theorem ECF_BO_T_may {a : Nat} (h : Part.ECF_BO_T.owns a) : Box.may (0x1000230, 0x107F238, 0x1000, 8) a = true := by
  obtain ⟨n, hn, w, hw, h⟩ := h
  exact Box.may_intro (by omega)

theorem ECF_BO_DUR_may {a : Nat} (h : Part.ECF_BO_DUR.owns a) : Box.may (0x1000238, 0x107F23C, 0x1000, 4) a = true := by
  obtain ⟨n, hn, h⟩ := h
  exact Box.may_intro (by omega)

theorem ECF_MISC_may {a : Nat} (h : Part.ECF_MISC.owns a) : Box.may (0x100023C, 0x107F240, 0x1000, 4) a = true := by
  obtain ⟨n, hn, h⟩ := h
  exact Box.may_intro (by omega)

theorem ECF_ETH_may {a : Nat} (h : Part.ECF_ETH.owns a) : Box.may (0x1000240, 0x107F244, 0x1000, 4) a = true := by
  obtain ⟨n, hn, h⟩ := h
  exact Box.may_intro (by omega)

theorem ECF_ETH_COLL_may {a : Nat} (h : Part.ECF_ETH_COLL.owns a) : Box.may (0x1000244, 0x107F248, 0x1000, 4) a = true := by
  obtain ⟨n, hn, h⟩ := h
  exact Box.may_intro (by omega)

theorem GW_STAT_may {a : Nat} (h : Part.GW_STAT.owns a) : Box.may (0x3000000, 0x3000004, 0x4, 4) a = true := by
  have h : a = _ := h
  exact Box.may_intro (by omega)

theorem GW_BRK_may {a : Nat} (h : Part.GW_BRK.owns a) : Box.may (0x3000004, 0x3000008, 0x4, 4) a = true := by
  have h : a = _ := h
  exact Box.may_intro (by omega)

theorem GW_BRK_LATE_may {a : Nat} (h : Part.GW_BRK_LATE.owns a) : Box.may (0x3000008, 0x300000C, 0x4, 4) a = true := by
  have h : a = _ := h
  exact Box.may_intro (by omega)

theorem GW_BRK_T_may {a : Nat} (h : Part.GW_BRK_T.owns a) : Box.may (0x3000010, 0x3000018, 0x8, 8) a = true := by
  obtain ⟨w, hw, h⟩ := h
  exact Box.may_intro (by omega)

theorem GW_BRKW_may {a : Nat} (h : Part.GW_BRKW.owns a) : Box.may (0x3000020, 0x3000040, 0x4, 4) a = true := by
  obtain ⟨n, hn, h⟩ := h
  exact Box.may_intro (by omega)

theorem GW_PCP_TH_may {a : Nat} (h : Part.GW_PCP_TH.owns a) : Box.may (0x3000050, 0x300006C, 0x4, 4) a = true := by
  obtain ⟨n, hn, h⟩ := h
  exact Box.may_intro (by omega)

theorem GW_RT_CFG_may {a : Nat} (h : Part.GW_RT_CFG.owns a) : Box.may (0x3001000, 0x3008FE4, 0x20, 4) a = true := by
  obtain ⟨n, hn, h⟩ := h
  exact Box.may_intro (by omega)

theorem GW_RT_H_may {a : Nat} (h : Part.GW_RT_H.owns a) : Box.may (0x3001004, 0x3008FE8, 0x20, 4) a = true := by
  obtain ⟨n, hn, h⟩ := h
  exact Box.may_intro (by omega)

theorem GW_RT_HMIN_may {a : Nat} (h : Part.GW_RT_HMIN.owns a) : Box.may (0x3001008, 0x3008FEC, 0x20, 4) a = true := by
  obtain ⟨n, hn, h⟩ := h
  exact Box.may_intro (by omega)

theorem GW_RT_BUD_may {a : Nat} (h : Part.GW_RT_BUD.owns a) : Box.may (0x300100C, 0x3008FF0, 0x20, 4) a = true := by
  obtain ⟨n, hn, h⟩ := h
  exact Box.may_intro (by omega)

theorem GW_RT_LEGS_may {a : Nat} (h : Part.GW_RT_LEGS.owns a) : Box.may (0x3001010, 0x3008FF4, 0x20, 4) a = true := by
  obtain ⟨n, hn, h⟩ := h
  exact Box.may_intro (by omega)

theorem GW_RT_CNT_may {a : Nat} (h : Part.GW_RT_CNT.owns a) : Box.may (0x3001014, 0x3008FF8, 0x20, 4) a = true := by
  obtain ⟨n, hn, h⟩ := h
  exact Box.may_intro (by omega)

theorem GW_RT_DROP_may {a : Nat} (h : Part.GW_RT_DROP.owns a) : Box.may (0x3001018, 0x3008FFC, 0x20, 4) a = true := by
  obtain ⟨n, hn, h⟩ := h
  exact Box.may_intro (by omega)

theorem GW_RT_BRK_may {a : Nat} (h : Part.GW_RT_BRK.owns a) : Box.may (0x300101C, 0x3009000, 0x20, 4) a = true := by
  obtain ⟨n, hn, h⟩ := h
  exact Box.may_intro (by omega)

theorem GW_LEG_CFG_may {a : Nat} (h : Part.GW_LEG_CFG.owns a) : Box.may (0x3010000, 0x3013FF4, 0x10, 4) a = true := by
  obtain ⟨n, hn, h⟩ := h
  exact Box.may_intro (by omega)

theorem GW_LEG_ID_may {a : Nat} (h : Part.GW_LEG_ID.owns a) : Box.may (0x3010004, 0x3013FF8, 0x10, 4) a = true := by
  obtain ⟨n, hn, h⟩ := h
  exact Box.may_intro (by omega)

theorem GW_LEG_Q_may {a : Nat} (h : Part.GW_LEG_Q.owns a) : Box.may (0x3010008, 0x3013FFC, 0x10, 4) a = true := by
  obtain ⟨n, hn, h⟩ := h
  exact Box.may_intro (by omega)

theorem GW_LEG_STAT_may {a : Nat} (h : Part.GW_LEG_STAT.owns a) : Box.may (0x301000C, 0x3014000, 0x10, 4) a = true := by
  obtain ⟨n, hn, h⟩ := h
  exact Box.may_intro (by omega)

theorem GW_TUN_CFG_may {a : Nat} (h : Part.GW_TUN_CFG.owns a) : Box.may (0x3020000, 0x30207E4, 0x20, 4) a = true := by
  obtain ⟨n, hn, h⟩ := h
  exact Box.may_intro (by omega)

theorem GW_TUN_SEQ_may {a : Nat} (h : Part.GW_TUN_SEQ.owns a) : Box.may (0x3020004, 0x30207E8, 0x20, 4) a = true := by
  obtain ⟨n, hn, h⟩ := h
  exact Box.may_intro (by omega)

theorem GW_TUN_SID_may {a : Nat} (h : Part.GW_TUN_SID.owns a) : Box.may (0x3020008, 0x30207F0, 0x20, 8) a = true := by
  obtain ⟨n, hn, w, hw, h⟩ := h
  exact Box.may_intro (by omega)

theorem GW_TUN_CNT_may {a : Nat} (h : Part.GW_TUN_CNT.owns a) : Box.may (0x3020010, 0x30207F4, 0x20, 4) a = true := by
  obtain ⟨n, hn, h⟩ := h
  exact Box.may_intro (by omega)

theorem GW_TUN_DUP_may {a : Nat} (h : Part.GW_TUN_DUP.owns a) : Box.may (0x3020014, 0x30207F8, 0x20, 4) a = true := by
  obtain ⟨n, hn, h⟩ := h
  exact Box.may_intro (by omega)

theorem GW_EQ_STAT_may {a : Nat} (h : Part.GW_EQ_STAT.owns a) : Box.may (0x3030000, 0x30307FC, 0x8, 4) a = true := by
  obtain ⟨n, hn, h⟩ := h
  exact Box.may_intro (by omega)

theorem GW_EQ_CNT_may {a : Nat} (h : Part.GW_EQ_CNT.owns a) : Box.may (0x3030004, 0x3030800, 0x8, 4) a = true := by
  obtain ⟨n, hn, h⟩ := h
  exact Box.may_intro (by omega)

theorem RGN_OPP_may {a : Nat} (h : Part.RGN_OPP.owns a) : Box.may (0x4000000, 0x4F00004, 0x100000, 4) a = true := by
  obtain ⟨n, hn, h⟩ := h
  exact Box.may_intro (by omega)

theorem RGN_STAT_may {a : Nat} (h : Part.RGN_STAT.owns a) : Box.may (0x4000004, 0x4F00008, 0x100000, 4) a = true := by
  obtain ⟨n, hn, h⟩ := h
  exact Box.may_intro (by omega)

theorem RGN_DIRCNT_may {a : Nat} (h : Part.RGN_DIRCNT.owns a) : Box.may (0x4000008, 0x4F0000C, 0x100000, 4) a = true := by
  obtain ⟨n, hn, h⟩ := h
  exact Box.may_intro (by omega)

theorem RGN_PART_may {a : Nat} (h : Part.RGN_PART.owns a) : Box.may (0x4000020, 0x4F00040, 0x4, 4) a = true := by
  obtain ⟨n, hn, k, hk, h⟩ := h
  exact Box.may_intro (by omega)

theorem CLU_CFG_may {a : Nat} (h : Part.CLU_CFG.owns a) : Box.may (0x4010000, 0x4F17004, 0x1000, 4) a = true := by
  obtain ⟨n, hn, k, hk, h⟩ := h
  exact Box.may_intro (by omega)

theorem CLU_PRIO_may {a : Nat} (h : Part.CLU_PRIO.owns a) : Box.may (0x4010004, 0x4F17008, 0x1000, 4) a = true := by
  obtain ⟨n, hn, k, hk, h⟩ := h
  exact Box.may_intro (by omega)

theorem CLU_DOORBELL_may {a : Nat} (h : Part.CLU_DOORBELL.owns a) : Box.may (0x4010008, 0x4F1700C, 0x1000, 4) a = true := by
  obtain ⟨n, hn, k, hk, h⟩ := h
  exact Box.may_intro (by omega)

theorem CLU_DOORACK_may {a : Nat} (h : Part.CLU_DOORACK.owns a) : Box.may (0x401000C, 0x4F17010, 0x1000, 4) a = true := by
  obtain ⟨n, hn, k, hk, h⟩ := h
  exact Box.may_intro (by omega)

theorem CLU_ERR_may {a : Nat} (h : Part.CLU_ERR.owns a) : Box.may (0x4010010, 0x4F17014, 0x1000, 4) a = true := by
  obtain ⟨n, hn, k, hk, h⟩ := h
  exact Box.may_intro (by omega)

theorem CLU_WIN_A_may {a : Nat} (h : Part.CLU_WIN_A.owns a) : Box.may (0x4010040, 0x4F1707C, 0x8, 4) a = true := by
  obtain ⟨m, hm, n, hn, k, hk, h⟩ := h
  exact Box.may_intro (by omega)

theorem CLU_WIN_B_may {a : Nat} (h : Part.CLU_WIN_B.owns a) : Box.may (0x4010044, 0x4F17080, 0x8, 4) a = true := by
  obtain ⟨m, hm, n, hn, k, hk, h⟩ := h
  exact Box.may_intro (by omega)

theorem CLU_LOCK_may {a : Nat} (h : Part.CLU_LOCK.owns a) : Box.may (0x4010100, 0x4F17200, 0x4, 4) a = true := by
  obtain ⟨m, hm, n, hn, k, hk, h⟩ := h
  exact Box.may_intro (by omega)

theorem ENG_CTRL_may {a : Nat} (h : Part.ENG_CTRL.owns a) : Box.may (0x4020000, 0x4F23F04, 0x100, 4) a = true := by
  obtain ⟨n, hn, k, hk, h⟩ := h
  exact Box.may_intro (by omega)

theorem ENG_STAT_may {a : Nat} (h : Part.ENG_STAT.owns a) : Box.may (0x4020004, 0x4F23F08, 0x100, 4) a = true := by
  obtain ⟨n, hn, k, hk, h⟩ := h
  exact Box.may_intro (by omega)

theorem ENG_CFG_may {a : Nat} (h : Part.ENG_CFG.owns a) : Box.may (0x4020008, 0x4F23F0C, 0x100, 4) a = true := by
  obtain ⟨n, hn, k, hk, h⟩ := h
  exact Box.may_intro (by omega)

theorem ENG_START_may {a : Nat} (h : Part.ENG_START.owns a) : Box.may (0x402000C, 0x4F23F10, 0x100, 4) a = true := by
  obtain ⟨n, hn, k, hk, h⟩ := h
  exact Box.may_intro (by omega)

theorem ENG_TCMP_may {a : Nat} (h : Part.ENG_TCMP.owns a) : Box.may (0x4020010, 0x4F23F14, 0x100, 4) a = true := by
  obtain ⟨n, hn, k, hk, h⟩ := h
  exact Box.may_intro (by omega)

theorem ENG_TRAP_may {a : Nat} (h : Part.ENG_TRAP.owns a) : Box.may (0x4020014, 0x4F23F18, 0x100, 4) a = true := by
  obtain ⟨n, hn, k, hk, h⟩ := h
  exact Box.may_intro (by omega)

theorem ENG_TVAL_may {a : Nat} (h : Part.ENG_TVAL.owns a) : Box.may (0x4020018, 0x4F23F1C, 0x100, 4) a = true := by
  obtain ⟨n, hn, k, hk, h⟩ := h
  exact Box.may_intro (by omega)

theorem ENG_PC_may {a : Nat} (h : Part.ENG_PC.owns a) : Box.may (0x402001C, 0x4F23F20, 0x100, 4) a = true := by
  obtain ⟨n, hn, k, hk, h⟩ := h
  exact Box.may_intro (by omega)

theorem HALL_STAT_may {a : Nat} (h : Part.HALL_STAT.owns a) : Box.may (0x5500000, 0x5500004, 0x4, 4) a = true := by
  have h : a = _ := h
  exact Box.may_intro (by omega)

theorem HALL_ERR_may {a : Nat} (h : Part.HALL_ERR.owns a) : Box.may (0x5500004, 0x5500008, 0x4, 4) a = true := by
  have h : a = _ := h
  exact Box.may_intro (by omega)

theorem HALL_ERR_ADDR_may {a : Nat} (h : Part.HALL_ERR_ADDR.owns a) : Box.may (0x5500008, 0x550000C, 0x4, 4) a = true := by
  have h : a = _ := h
  exact Box.may_intro (by omega)

theorem HALL_HANDOVER_may {a : Nat} (h : Part.HALL_HANDOVER.owns a) : Box.may (0x5500010, 0x5500014, 0x4, 4) a = true := by
  have h : a = _ := h
  exact Box.may_intro (by omega)

theorem HALL_HO_STAT_may {a : Nat} (h : Part.HALL_HO_STAT.owns a) : Box.may (0x5500014, 0x5500018, 0x4, 4) a = true := by
  have h : a = _ := h
  exact Box.may_intro (by omega)

theorem HALL_REVOKE_may {a : Nat} (h : Part.HALL_REVOKE.owns a) : Box.may (0x5500018, 0x550001C, 0x4, 4) a = true := by
  have h : a = _ := h
  exact Box.may_intro (by omega)

theorem HALL_RV_STAT_may {a : Nat} (h : Part.HALL_RV_STAT.owns a) : Box.may (0x550001C, 0x5500020, 0x4, 4) a = true := by
  have h : a = _ := h
  exact Box.may_intro (by omega)

theorem HALL_ECC_may {a : Nat} (h : Part.HALL_ECC.owns a) : Box.may (0x5500020, 0x5500030, 0x4, 4) a = true := by
  obtain ⟨n, hn, h⟩ := h
  exact Box.may_intro (by omega)

theorem HALL_UE_ADDR_may {a : Nat} (h : Part.HALL_UE_ADDR.owns a) : Box.may (0x5500030, 0x5500040, 0x4, 4) a = true := by
  obtain ⟨n, hn, h⟩ := h
  exact Box.may_intro (by omega)

theorem HALL_TEST_CFG_may {a : Nat} (h : Part.HALL_TEST_CFG.owns a) : Box.may (0x5500040, 0x5500050, 0x4, 4) a = true := by
  obtain ⟨n, hn, h⟩ := h
  exact Box.may_intro (by omega)

theorem HALL_TEST_STAT_may {a : Nat} (h : Part.HALL_TEST_STAT.owns a) : Box.may (0x5500050, 0x5500060, 0x4, 4) a = true := by
  obtain ⟨n, hn, h⟩ := h
  exact Box.may_intro (by omega)

theorem HALL_CONF_may {a : Nat} (h : Part.HALL_CONF.owns a) : Box.may (0x5500060, 0x55000B8, 0x4, 4) a = true := by
  obtain ⟨n, hn, h⟩ := h
  exact Box.may_intro (by omega)

theorem HALL_OWN_may {a : Nat} (h : Part.HALL_OWN.owns a) : Box.may (0x5501000, 0x5505000, 0x4, 4) a = true := by
  obtain ⟨n, hn, h⟩ := h
  exact Box.may_intro (by omega)

theorem TIME_CTRL_may {a : Nat} (h : Part.TIME_CTRL.owns a) : Box.may (0x5200000, 0x5200004, 0x4, 4) a = true := by
  have h : a = _ := h
  exact Box.may_intro (by omega)

theorem TIME_STAT_may {a : Nat} (h : Part.TIME_STAT.owns a) : Box.may (0x5200004, 0x5200008, 0x4, 4) a = true := by
  have h : a = _ := h
  exact Box.may_intro (by omega)

theorem TIME_CFG_may {a : Nat} (h : Part.TIME_CFG.owns a) : Box.may (0x5200008, 0x520000C, 0x4, 4) a = true := by
  have h : a = _ := h
  exact Box.may_intro (by omega)

theorem TIME_JTH_may {a : Nat} (h : Part.TIME_JTH.owns a) : Box.may (0x520000C, 0x5200010, 0x4, 4) a = true := by
  have h : a = _ := h
  exact Box.may_intro (by omega)

theorem TIME_INC_may {a : Nat} (h : Part.TIME_INC.owns a) : Box.may (0x5200010, 0x5200018, 0x8, 8) a = true := by
  obtain ⟨w, hw, h⟩ := h
  exact Box.may_intro (by omega)

theorem TIME_NOW_HI_may {a : Nat} (h : Part.TIME_NOW_HI.owns a) : Box.may (0x5200018, 0x520001C, 0x4, 4) a = true := by
  have h : a = _ := h
  exact Box.may_intro (by omega)

theorem TIME_NOW_may {a : Nat} (h : Part.TIME_NOW.owns a) : Box.may (0x5200020, 0x5200028, 0x8, 8) a = true := by
  obtain ⟨w, hw, h⟩ := h
  exact Box.may_intro (by omega)

theorem TIME_NSO_may {a : Nat} (h : Part.TIME_NSO.owns a) : Box.may (0x5200028, 0x5200030, 0x8, 8) a = true := by
  obtain ⟨w, hw, h⟩ := h
  exact Box.may_intro (by omega)

theorem TIME_OFFS_may {a : Nat} (h : Part.TIME_OFFS.owns a) : Box.may (0x5200030, 0x5200038, 0x8, 8) a = true := by
  obtain ⟨w, hw, h⟩ := h
  exact Box.may_intro (by omega)

theorem TIME_JREF_may {a : Nat} (h : Part.TIME_JREF.owns a) : Box.may (0x5200038, 0x5200040, 0x8, 8) a = true := by
  obtain ⟨w, hw, h⟩ := h
  exact Box.may_intro (by omega)

theorem TIME_SEC_CFG_may {a : Nat} (h : Part.TIME_SEC_CFG.owns a) : Box.may (0x5200040, 0x5200044, 0x4, 4) a = true := by
  have h : a = _ := h
  exact Box.may_intro (by omega)

theorem TIME_SEC_HOLD_may {a : Nat} (h : Part.TIME_SEC_HOLD.owns a) : Box.may (0x5200044, 0x5200048, 0x4, 4) a = true := by
  have h : a = _ := h
  exact Box.may_intro (by omega)

theorem TIME_SEC_LAST_may {a : Nat} (h : Part.TIME_SEC_LAST.owns a) : Box.may (0x5200048, 0x5200050, 0x8, 8) a = true := by
  obtain ⟨w, hw, h⟩ := h
  exact Box.may_intro (by omega)

theorem TIME_SEC_ERR_may {a : Nat} (h : Part.TIME_SEC_ERR.owns a) : Box.may (0x5200050, 0x5200058, 0x8, 8) a = true := by
  obtain ⟨w, hw, h⟩ := h
  exact Box.may_intro (by omega)

theorem TIME_NONCE_may {a : Nat} (h : Part.TIME_NONCE.owns a) : Box.may (0x5200058, 0x5200060, 0x8, 8) a = true := by
  obtain ⟨w, hw, h⟩ := h
  exact Box.may_intro (by omega)

theorem TIME_TOKEN_may {a : Nat} (h : Part.TIME_TOKEN.owns a) : Box.may (0x5200060, 0x5200074, 0x4, 4) a = true := by
  obtain ⟨n, hn, h⟩ := h
  exact Box.may_intro (by omega)

theorem TIME_VT_may {a : Nat} (h : Part.TIME_VT.owns a) : Box.may (0x5200080, 0x5200088, 0x8, 8) a = true := by
  obtain ⟨w, hw, h⟩ := h
  exact Box.may_intro (by omega)

theorem TIME_BRX_CFG_may {a : Nat} (h : Part.TIME_BRX_CFG.owns a) : Box.may (0x5200100, 0x5200164, 0x20, 4) a = true := by
  obtain ⟨n, hn, h⟩ := h
  exact Box.may_intro (by omega)

theorem TIME_BRX_ID_may {a : Nat} (h : Part.TIME_BRX_ID.owns a) : Box.may (0x5200104, 0x5200168, 0x20, 4) a = true := by
  obtain ⟨n, hn, h⟩ := h
  exact Box.may_intro (by omega)

theorem TIME_BRX_RT_may {a : Nat} (h : Part.TIME_BRX_RT.owns a) : Box.may (0x5200108, 0x5200170, 0x20, 8) a = true := by
  obtain ⟨n, hn, w, hw, h⟩ := h
  exact Box.may_intro (by omega)

theorem TIME_BRX_LT_may {a : Nat} (h : Part.TIME_BRX_LT.owns a) : Box.may (0x5200110, 0x5200178, 0x20, 8) a = true := by
  obtain ⟨n, hn, w, hw, h⟩ := h
  exact Box.may_intro (by omega)

theorem TIME_BRX_OFF_may {a : Nat} (h : Part.TIME_BRX_OFF.owns a) : Box.may (0x5200118, 0x520017C, 0x20, 4) a = true := by
  obtain ⟨n, hn, h⟩ := h
  exact Box.may_intro (by omega)

theorem TIME_BRX_STAT_may {a : Nat} (h : Part.TIME_BRX_STAT.owns a) : Box.may (0x520011C, 0x5200180, 0x20, 4) a = true := by
  obtain ⟨n, hn, h⟩ := h
  exact Box.may_intro (by omega)

theorem TIME_BSCHED_may {a : Nat} (h : Part.TIME_BSCHED.owns a) : Box.may (0x5200400, 0x5200600, 0x4, 4) a = true := by
  obtain ⟨n, hn, h⟩ := h
  exact Box.may_intro (by omega)

theorem TIME_PTP_may {a : Nat} (h : Part.TIME_PTP.owns a) : Box.may (0x5200600, 0x5200810, 0x4, 4) a = true := by
  obtain ⟨n, hn, h⟩ := h
  exact Box.may_intro (by omega)

theorem LEDG_STAT_may {a : Nat} (h : Part.LEDG_STAT.owns a) : Box.may (0x5000000, 0x5000004, 0x4, 4) a = true := by
  have h : a = _ := h
  exact Box.may_intro (by omega)

theorem LEDG_HOLD_may {a : Nat} (h : Part.LEDG_HOLD.owns a) : Box.may (0x5000004, 0x5000008, 0x4, 4) a = true := by
  have h : a = _ := h
  exact Box.may_intro (by omega)

theorem LEDG_EOI_may {a : Nat} (h : Part.LEDG_EOI.owns a) : Box.may (0x5000008, 0x500000C, 0x4, 4) a = true := by
  have h : a = _ := h
  exact Box.may_intro (by omega)

theorem LEDG_ERR_may {a : Nat} (h : Part.LEDG_ERR.owns a) : Box.may (0x500000C, 0x5000010, 0x4, 4) a = true := by
  have h : a = _ := h
  exact Box.may_intro (by omega)

theorem LEDG_LOSTCNT_may {a : Nat} (h : Part.LEDG_LOSTCNT.owns a) : Box.may (0x5000010, 0x5000014, 0x4, 4) a = true := by
  have h : a = _ := h
  exact Box.may_intro (by omega)

theorem LEDG_EPEND_may {a : Nat} (h : Part.LEDG_EPEND.owns a) : Box.may (0x5000018, 0x5000020, 0x8, 8) a = true := by
  obtain ⟨w, hw, h⟩ := h
  exact Box.may_intro (by omega)

theorem LEDG_WAKE_may {a : Nat} (h : Part.LEDG_WAKE.owns a) : Box.may (0x5000020, 0x5000024, 0x4, 4) a = true := by
  have h : a = _ := h
  exact Box.may_intro (by omega)

theorem LEDG_RING_BASE_may {a : Nat} (h : Part.LEDG_RING_BASE.owns a) : Box.may (0x5001000, 0x50017E4, 0x20, 4) a = true := by
  obtain ⟨n, hn, h⟩ := h
  exact Box.may_intro (by omega)

theorem LEDG_RING_CFG_may {a : Nat} (h : Part.LEDG_RING_CFG.owns a) : Box.may (0x5001004, 0x50017E8, 0x20, 4) a = true := by
  obtain ⟨n, hn, h⟩ := h
  exact Box.may_intro (by omega)

theorem LEDG_RING_MOD_may {a : Nat} (h : Part.LEDG_RING_MOD.owns a) : Box.may (0x5001008, 0x50017EC, 0x20, 4) a = true := by
  obtain ⟨n, hn, h⟩ := h
  exact Box.may_intro (by omega)

theorem LEDG_RING_HEAD_may {a : Nat} (h : Part.LEDG_RING_HEAD.owns a) : Box.may (0x500100C, 0x50017F0, 0x20, 4) a = true := by
  obtain ⟨n, hn, h⟩ := h
  exact Box.may_intro (by omega)

theorem LEDG_RING_TAIL_may {a : Nat} (h : Part.LEDG_RING_TAIL.owns a) : Box.may (0x5001010, 0x50017F4, 0x20, 4) a = true := by
  obtain ⟨n, hn, h⟩ := h
  exact Box.may_intro (by omega)

theorem LEDG_RING_STAT_may {a : Nat} (h : Part.LEDG_RING_STAT.owns a) : Box.may (0x5001014, 0x50017F8, 0x20, 4) a = true := by
  obtain ⟨n, hn, h⟩ := h
  exact Box.may_intro (by omega)

theorem LEDG_SRC_may {a : Nat} (h : Part.LEDG_SRC.owns a) : Box.may (0x5010000, 0x5012000, 0x4, 4) a = true := by
  obtain ⟨n, hn, h⟩ := h
  exact Box.may_intro (by omega)

theorem CUR_CTRL_may {a : Nat} (h : Part.CUR_CTRL.owns a) : Box.may (0x5100000, 0x5100004, 0x4, 4) a = true := by
  have h : a = _ := h
  exact Box.may_intro (by omega)

theorem CUR_STAT_may {a : Nat} (h : Part.CUR_STAT.owns a) : Box.may (0x5100004, 0x5100008, 0x4, 4) a = true := by
  have h : a = _ := h
  exact Box.may_intro (by omega)

theorem CUR_CFG_may {a : Nat} (h : Part.CUR_CFG.owns a) : Box.may (0x5100008, 0x510000C, 0x4, 4) a = true := by
  have h : a = _ := h
  exact Box.may_intro (by omega)

theorem CUR_RECOV_may {a : Nat} (h : Part.CUR_RECOV.owns a) : Box.may (0x510000C, 0x5100010, 0x4, 4) a = true := by
  have h : a = _ := h
  exact Box.may_intro (by omega)

theorem CUR_FIRST_may {a : Nat} (h : Part.CUR_FIRST.owns a) : Box.may (0x5100010, 0x5100014, 0x4, 4) a = true := by
  have h : a = _ := h
  exact Box.may_intro (by omega)

theorem CUR_FIRST_ADDR_may {a : Nat} (h : Part.CUR_FIRST_ADDR.owns a) : Box.may (0x5100014, 0x5100018, 0x4, 4) a = true := by
  have h : a = _ := h
  exact Box.may_intro (by omega)

theorem CUR_FIRST_ACC_may {a : Nat} (h : Part.CUR_FIRST_ACC.owns a) : Box.may (0x5100018, 0x510001C, 0x4, 4) a = true := by
  have h : a = _ := h
  exact Box.may_intro (by omega)

theorem CUR_FIRST_T_may {a : Nat} (h : Part.CUR_FIRST_T.owns a) : Box.may (0x5100020, 0x5100028, 0x8, 8) a = true := by
  obtain ⟨w, hw, h⟩ := h
  exact Box.may_intro (by omega)

theorem CUR_COIN_may {a : Nat} (h : Part.CUR_COIN.owns a) : Box.may (0x5100028, 0x510002C, 0x4, 4) a = true := by
  have h : a = _ := h
  exact Box.may_intro (by omega)

theorem CUR_SEVCNT_may {a : Nat} (h : Part.CUR_SEVCNT.owns a) : Box.may (0x5100030, 0x5100038, 0x8, 8) a = true := by
  obtain ⟨w, hw, h⟩ := h
  exact Box.may_intro (by omega)

theorem CUR_GO_OUT_may {a : Nat} (h : Part.CUR_GO_OUT.owns a) : Box.may (0x5100038, 0x510003C, 0x4, 4) a = true := by
  have h : a = _ := h
  exact Box.may_intro (by omega)

theorem CUR_INJ_may {a : Nat} (h : Part.CUR_INJ.owns a) : Box.may (0x510003C, 0x5100040, 0x4, 4) a = true := by
  have h : a = _ := h
  exact Box.may_intro (by omega)

theorem CUR_GO_SAFE_may {a : Nat} (h : Part.CUR_GO_SAFE.owns a) : Box.may (0x5100040, 0x5100048, 0x8, 8) a = true := by
  obtain ⟨w, hw, h⟩ := h
  exact Box.may_intro (by omega)

theorem CUR_SAFE_T_may {a : Nat} (h : Part.CUR_SAFE_T.owns a) : Box.may (0x5100048, 0x5100050, 0x8, 8) a = true := by
  obtain ⟨w, hw, h⟩ := h
  exact Box.may_intro (by omega)

theorem CUR_KIND_may {a : Nat} (h : Part.CUR_KIND.owns a) : Box.may (0x5101000, 0x5101400, 0x4, 4) a = true := by
  obtain ⟨n, hn, h⟩ := h
  exact Box.may_intro (by omega)

theorem CUR_WRULE0_may {a : Nat} (h : Part.CUR_WRULE0.owns a) : Box.may (0x5101400, 0x51015FC, 0x8, 4) a = true := by
  obtain ⟨n, hn, h⟩ := h
  exact Box.may_intro (by omega)

theorem CUR_WRULE1_may {a : Nat} (h : Part.CUR_WRULE1.owns a) : Box.may (0x5101404, 0x5101600, 0x8, 4) a = true := by
  obtain ⟨n, hn, h⟩ := h
  exact Box.may_intro (by omega)

theorem CUR_AFT_may {a : Nat} (h : Part.CUR_AFT.owns a) : Box.may (0x5102000, 0x5103000, 0x10, 16) a = true := by
  obtain ⟨n, hn, w, hw, h⟩ := h
  exact Box.may_intro (by omega)

theorem PWR_CTRL_may {a : Nat} (h : Part.PWR_CTRL.owns a) : Box.may (0x100, 0x104, 0x4, 4) a = true := by
  have h : a = _ := h
  exact Box.may_intro (by omega)

theorem PWR_STAT_may {a : Nat} (h : Part.PWR_STAT.owns a) : Box.may (0x104, 0x108, 0x4, 4) a = true := by
  have h : a = _ := h
  exact Box.may_intro (by omega)

theorem PWR_NEXT_may {a : Nat} (h : Part.PWR_NEXT.owns a) : Box.may (0x108, 0x10C, 0x4, 4) a = true := by
  have h : a = _ := h
  exact Box.may_intro (by omega)

theorem PWR_RAILS_may {a : Nat} (h : Part.PWR_RAILS.owns a) : Box.may (0x10C, 0x110, 0x4, 4) a = true := by
  have h : a = _ := h
  exact Box.may_intro (by omega)

theorem PWR_TEMP_may {a : Nat} (h : Part.PWR_TEMP.owns a) : Box.may (0x110, 0x114, 0x4, 4) a = true := by
  have h : a = _ := h
  exact Box.may_intro (by omega)

theorem PWR_CNT_may {a : Nat} (h : Part.PWR_CNT.owns a) : Box.may (0x114, 0x118, 0x4, 4) a = true := by
  have h : a = _ := h
  exact Box.may_intro (by omega)

theorem WATCH_STAT_may {a : Nat} (h : Part.WATCH_STAT.owns a) : Box.may (0x5600000, 0x5600004, 0x4, 4) a = true := by
  have h : a = _ := h
  exact Box.may_intro (by omega)

theorem WATCH_WAKE_may {a : Nat} (h : Part.WATCH_WAKE.owns a) : Box.may (0x5600004, 0x5600008, 0x4, 4) a = true := by
  have h : a = _ := h
  exact Box.may_intro (by omega)

theorem WATCH_SUPPLY_may {a : Nat} (h : Part.WATCH_SUPPLY.owns a) : Box.may (0x5600008, 0x560000C, 0x4, 4) a = true := by
  have h : a = _ := h
  exact Box.may_intro (by omega)

theorem WATCH_TREST_may {a : Nat} (h : Part.WATCH_TREST.owns a) : Box.may (0x560000C, 0x5600010, 0x4, 4) a = true := by
  have h : a = _ := h
  exact Box.may_intro (by omega)

theorem WATCH_CNT_may {a : Nat} (h : Part.WATCH_CNT.owns a) : Box.may (0x5600010, 0x5600014, 0x4, 4) a = true := by
  have h : a = _ := h
  exact Box.may_intro (by omega)

theorem WATCH_TMR_may {a : Nat} (h : Part.WATCH_TMR.owns a) : Box.may (0x5600020, 0x5600040, 0x8, 8) a = true := by
  obtain ⟨n, hn, w, hw, h⟩ := h
  exact Box.may_intro (by omega)

theorem WATCH_SCHED_may {a : Nat} (h : Part.WATCH_SCHED.owns a) : Box.may (0x5600040, 0x5600048, 0x8, 8) a = true := by
  obtain ⟨w, hw, h⟩ := h
  exact Box.may_intro (by omega)

theorem SPN_STAT_may {a : Nat} (h : Part.SPN_STAT.owns a) : Box.may (0x5400000, 0x5400004, 0x4, 4) a = true := by
  have h : a = _ := h
  exact Box.may_intro (by omega)

theorem SPN_LANE_CFG_may {a : Nat} (h : Part.SPN_LANE_CFG.owns a) : Box.may (0x5401000, 0x5401304, 0x100, 4) a = true := by
  obtain ⟨n, hn, h⟩ := h
  exact Box.may_intro (by omega)

theorem SPN_LANE_STAT_may {a : Nat} (h : Part.SPN_LANE_STAT.owns a) : Box.may (0x5401004, 0x5401308, 0x100, 4) a = true := by
  obtain ⟨n, hn, h⟩ := h
  exact Box.may_intro (by omega)

theorem SPN_LANE_SA_may {a : Nat} (h : Part.SPN_LANE_SA.owns a) : Box.may (0x5401008, 0x5401310, 0x100, 8) a = true := by
  obtain ⟨n, hn, w, hw, h⟩ := h
  exact Box.may_intro (by omega)

theorem SPN_LANE_FEC_may {a : Nat} (h : Part.SPN_LANE_FEC.owns a) : Box.may (0x5401010, 0x5401314, 0x100, 4) a = true := by
  obtain ⟨n, hn, h⟩ := h
  exact Box.may_intro (by omega)

theorem SPN_LANE_SEC_may {a : Nat} (h : Part.SPN_LANE_SEC.owns a) : Box.may (0x5401014, 0x5401318, 0x100, 4) a = true := by
  obtain ⟨n, hn, h⟩ := h
  exact Box.may_intro (by omega)

theorem SPN_HQ_BASE_may {a : Nat} (h : Part.SPN_HQ_BASE.owns a) : Box.may (0x5401018, 0x540131C, 0x100, 4) a = true := by
  obtain ⟨n, hn, h⟩ := h
  exact Box.may_intro (by omega)

theorem SPN_HQ_PTR_may {a : Nat} (h : Part.SPN_HQ_PTR.owns a) : Box.may (0x540101C, 0x5401320, 0x100, 4) a = true := by
  obtain ⟨n, hn, h⟩ := h
  exact Box.may_intro (by omega)

theorem SPN_STR_CFG_may {a : Nat} (h : Part.SPN_STR_CFG.owns a) : Box.may (0x5402000, 0x54027E4, 0x20, 4) a = true := by
  obtain ⟨n, hn, h⟩ := h
  exact Box.may_intro (by omega)

theorem SPN_STR_DA_may {a : Nat} (h : Part.SPN_STR_DA.owns a) : Box.may (0x5402008, 0x54027F0, 0x20, 8) a = true := by
  obtain ⟨n, hn, w, hw, h⟩ := h
  exact Box.may_intro (by omega)

theorem SPN_STR_STAT_may {a : Nat} (h : Part.SPN_STR_STAT.owns a) : Box.may (0x5402010, 0x54027F4, 0x20, 4) a = true := by
  obtain ⟨n, hn, h⟩ := h
  exact Box.may_intro (by omega)

theorem PCIE_STAT_may {a : Nat} (h : Part.PCIE_STAT.owns a) : Box.may (0x5410000, 0x5410004, 0x4, 4) a = true := by
  have h : a = _ := h
  exact Box.may_intro (by omega)

theorem PCIE_CFG_may {a : Nat} (h : Part.PCIE_CFG.owns a) : Box.may (0x5410004, 0x5410008, 0x4, 4) a = true := by
  have h : a = _ := h
  exact Box.may_intro (by omega)

theorem PCIE_CNT_may {a : Nat} (h : Part.PCIE_CNT.owns a) : Box.may (0x5410008, 0x541000C, 0x4, 4) a = true := by
  have h : a = _ := h
  exact Box.may_intro (by omega)

theorem PCIE_PEND_may {a : Nat} (h : Part.PCIE_PEND.owns a) : Box.may (0x5410010, 0x5410018, 0x8, 8) a = true := by
  obtain ⟨w, hw, h⟩ := h
  exact Box.may_intro (by omega)

theorem SVC_STAT_may {a : Nat} (h : Part.SVC_STAT.owns a) : Box.may (0x5420000, 0x5420004, 0x4, 4) a = true := by
  have h : a = _ := h
  exact Box.may_intro (by omega)

theorem SVC_DBG_may {a : Nat} (h : Part.SVC_DBG.owns a) : Box.may (0x5420004, 0x5420008, 0x4, 4) a = true := by
  have h : a = _ := h
  exact Box.may_intro (by omega)

theorem SVC_DFU_NEXT_may {a : Nat} (h : Part.SVC_DFU_NEXT.owns a) : Box.may (0x5420008, 0x542000C, 0x4, 4) a = true := by
  have h : a = _ := h
  exact Box.may_intro (by omega)

theorem SVC_CHAL_may {a : Nat} (h : Part.SVC_CHAL.owns a) : Box.may (0x5420010, 0x5420018, 0x8, 8) a = true := by
  obtain ⟨w, hw, h⟩ := h
  exact Box.may_intro (by omega)

theorem VIT_STAT_may {a : Nat} (h : Part.VIT_STAT.owns a) : Box.may (0x5300000, 0x5300004, 0x4, 4) a = true := by
  have h : a = _ := h
  exact Box.may_intro (by omega)

theorem VIT_KCMD_may {a : Nat} (h : Part.VIT_KCMD.owns a) : Box.may (0x5300004, 0x5300008, 0x4, 4) a = true := by
  have h : a = _ := h
  exact Box.may_intro (by omega)

theorem VIT_KSTAT_may {a : Nat} (h : Part.VIT_KSTAT.owns a) : Box.may (0x5300008, 0x530000C, 0x4, 4) a = true := by
  have h : a = _ := h
  exact Box.may_intro (by omega)

theorem VIT_KSRC_may {a : Nat} (h : Part.VIT_KSRC.owns a) : Box.may (0x530000C, 0x5300010, 0x4, 4) a = true := by
  have h : a = _ := h
  exact Box.may_intro (by omega)

theorem VIT_KATTR_may {a : Nat} (h : Part.VIT_KATTR.owns a) : Box.may (0x5300010, 0x5300014, 0x4, 4) a = true := by
  have h : a = _ := h
  exact Box.may_intro (by omega)

theorem VIT_AU_CMD_may {a : Nat} (h : Part.VIT_AU_CMD.owns a) : Box.may (0x105300020, 0x8005300024, 0x100000000, 4) a = true := by
  obtain ⟨q, hq, h⟩ := h
  unfold perRequester at h
  exact Box.may_intro (by omega)

theorem VIT_AU_STAT_may {a : Nat} (h : Part.VIT_AU_STAT.owns a) : Box.may (0x105300024, 0x8005300028, 0x100000000, 4) a = true := by
  obtain ⟨q, hq, h⟩ := h
  unfold perRequester at h
  exact Box.may_intro (by omega)

theorem VIT_AU_BUF_may {a : Nat} (h : Part.VIT_AU_BUF.owns a) : Box.may (0x105300028, 0x800530002C, 0x100000000, 4) a = true := by
  obtain ⟨q, hq, h⟩ := h
  unfold perRequester at h
  exact Box.may_intro (by omega)

theorem VIT_AU_FV_may {a : Nat} (h : Part.VIT_AU_FV.owns a) : Box.may (0x105300030, 0x8005300038, 0x100000000, 8) a = true := by
  obtain ⟨q, hq, w, hw, h⟩ := h
  unfold perRequester at h
  exact Box.may_intro (by omega)

theorem VIT_SLOT_may {a : Nat} (h : Part.VIT_SLOT.owns a) : Box.may (0x5301000, 0x5301400, 0x4, 4) a = true := by
  obtain ⟨n, hn, h⟩ := h
  exact Box.may_intro (by omega)

theorem VIT_BIND0_may {a : Nat} (h : Part.VIT_BIND0.owns a) : Box.may (0x5302000, 0x5305FF4, 0x10, 4) a = true := by
  obtain ⟨n, hn, h⟩ := h
  exact Box.may_intro (by omega)

theorem VIT_BIND1_may {a : Nat} (h : Part.VIT_BIND1.owns a) : Box.may (0x5302004, 0x5305FF8, 0x10, 4) a = true := by
  obtain ⟨n, hn, h⟩ := h
  exact Box.may_intro (by omega)

theorem VIT_BIND2_may {a : Nat} (h : Part.VIT_BIND2.owns a) : Box.may (0x5302008, 0x5305FFC, 0x10, 4) a = true := by
  obtain ⟨n, hn, h⟩ := h
  exact Box.may_intro (by omega)

theorem VAULT_STAT_may {a : Nat} (h : Part.VAULT_STAT.owns a) : Box.may (0x5601000, 0x5601004, 0x4, 4) a = true := by
  have h : a = _ := h
  exact Box.may_intro (by omega)

theorem VAULT_TAMPER_CFG_may {a : Nat} (h : Part.VAULT_TAMPER_CFG.owns a) : Box.may (0x5601004, 0x5601008, 0x4, 4) a = true := by
  have h : a = _ := h
  exact Box.may_intro (by omega)

theorem VAULT_MRAM_may {a : Nat} (h : Part.VAULT_MRAM.owns a) : Box.may (0x5601008, 0x560100C, 0x4, 4) a = true := by
  have h : a = _ := h
  exact Box.may_intro (by omega)

theorem VAULT_MC_CMD_may {a : Nat} (h : Part.VAULT_MC_CMD.owns a) : Box.may (0x560100C, 0x5601010, 0x4, 4) a = true := by
  have h : a = _ := h
  exact Box.may_intro (by omega)

theorem VAULT_MC_ARG_may {a : Nat} (h : Part.VAULT_MC_ARG.owns a) : Box.may (0x5601010, 0x5601018, 0x8, 8) a = true := by
  obtain ⟨w, hw, h⟩ := h
  exact Box.may_intro (by omega)

theorem VAULT_TLOG_CFG_may {a : Nat} (h : Part.VAULT_TLOG_CFG.owns a) : Box.may (0x5601018, 0x560101C, 0x4, 4) a = true := by
  have h : a = _ := h
  exact Box.may_intro (by omega)

theorem VAULT_TLOG_APP_may {a : Nat} (h : Part.VAULT_TLOG_APP.owns a) : Box.may (0x5601020, 0x5601028, 0x8, 8) a = true := by
  obtain ⟨w, hw, h⟩ := h
  exact Box.may_intro (by omega)

theorem VAULT_MC_may {a : Nat} (h : Part.VAULT_MC.owns a) : Box.may (0x5601100, 0x5601300, 0x8, 8) a = true := by
  obtain ⟨n, hn, w, hw, h⟩ := h
  exact Box.may_intro (by omega)

theorem VAULT_FV_may {a : Nat} (h : Part.VAULT_FV.owns a) : Box.may (0x5603000, 0x5605000, 0x8, 8) a = true := by
  obtain ⟨n, hn, w, hw, h⟩ := h
  exact Box.may_intro (by omega)

theorem VAULT_TLOG_may {a : Nat} (h : Part.VAULT_TLOG.owns a) : Box.may (0x5681000, 0x56A1000, 0x20, 32) a = true := by
  obtain ⟨n, hn, w, hw, h⟩ := h
  exact Box.may_intro (by omega)

theorem UPD_CTRL_may {a : Nat} (h : Part.UPD_CTRL.owns a) : Box.may (0x5700000, 0x5700004, 0x4, 4) a = true := by
  have h : a = _ := h
  exact Box.may_intro (by omega)

theorem UPD_STAT_may {a : Nat} (h : Part.UPD_STAT.owns a) : Box.may (0x5700004, 0x5700008, 0x4, 4) a = true := by
  have h : a = _ := h
  exact Box.may_intro (by omega)

theorem UPD_SRC_may {a : Nat} (h : Part.UPD_SRC.owns a) : Box.may (0x5700008, 0x570000C, 0x4, 4) a = true := by
  have h : a = _ := h
  exact Box.may_intro (by omega)

theorem UPD_CFG_may {a : Nat} (h : Part.UPD_CFG.owns a) : Box.may (0x570000C, 0x5700010, 0x4, 4) a = true := by
  have h : a = _ := h
  exact Box.may_intro (by omega)

theorem UPD_VER_IMAGO_may {a : Nat} (h : Part.UPD_VER_IMAGO.owns a) : Box.may (0x5700010, 0x5700014, 0x4, 4) a = true := by
  have h : a = _ := h
  exact Box.may_intro (by omega)

theorem UPD_VER_STAGED_may {a : Nat} (h : Part.UPD_VER_STAGED.owns a) : Box.may (0x5700014, 0x5700018, 0x4, 4) a = true := by
  have h : a = _ := h
  exact Box.may_intro (by omega)

theorem UPD_HO_LAT_may {a : Nat} (h : Part.UPD_HO_LAT.owns a) : Box.may (0x5700018, 0x570001C, 0x4, 4) a = true := by
  have h : a = _ := h
  exact Box.may_intro (by omega)

theorem UPD_MAP_may {a : Nat} (h : Part.UPD_MAP.owns a) : Box.may (0x5700020, 0x5700040, 0x4, 4) a = true := by
  obtain ⟨n, hn, h⟩ := h
  exact Box.may_intro (by omega)

theorem UPD_FORCED_may {a : Nat} (h : Part.UPD_FORCED.owns a) : Box.may (0x5700040, 0x5700048, 0x4, 4) a = true := by
  obtain ⟨n, hn, h⟩ := h
  exact Box.may_intro (by omega)

theorem CON_STAT_may {a : Nat} (h : Part.CON_STAT.owns a) : Box.may (0x5800000, 0x5800004, 0x4, 4) a = true := by
  have h : a = _ := h
  exact Box.may_intro (by omega)

theorem CON_CFG_may {a : Nat} (h : Part.CON_CFG.owns a) : Box.may (0x5800004, 0x5800008, 0x4, 4) a = true := by
  have h : a = _ := h
  exact Box.may_intro (by omega)

theorem CON_THR_may {a : Nat} (h : Part.CON_THR.owns a) : Box.may (0x5800008, 0x580000C, 0x4, 4) a = true := by
  have h : a = _ := h
  exact Box.may_intro (by omega)

theorem CON_AHOR_may {a : Nat} (h : Part.CON_AHOR.owns a) : Box.may (0x580000C, 0x5800010, 0x4, 4) a = true := by
  have h : a = _ := h
  exact Box.may_intro (by omega)

theorem CON_THETA_may {a : Nat} (h : Part.CON_THETA.owns a) : Box.may (0x5800010, 0x5800018, 0x8, 8) a = true := by
  obtain ⟨w, hw, h⟩ := h
  exact Box.may_intro (by omega)

theorem CON_DIS_may {a : Nat} (h : Part.CON_DIS.owns a) : Box.may (0x5800018, 0x580001C, 0x4, 4) a = true := by
  have h : a = _ := h
  exact Box.may_intro (by omega)

theorem CON_DIS_T_may {a : Nat} (h : Part.CON_DIS_T.owns a) : Box.may (0x5800020, 0x5800028, 0x8, 8) a = true := by
  obtain ⟨w, hw, h⟩ := h
  exact Box.may_intro (by omega)

theorem CON_CD_may {a : Nat} (h : Part.CON_CD.owns a) : Box.may (0x5800040, 0x5800060, 0x4, 4) a = true := by
  obtain ⟨n, hn, h⟩ := h
  exact Box.may_intro (by omega)

theorem CON_PEER_CFG_may {a : Nat} (h : Part.CON_PEER_CFG.owns a) : Box.may (0x5800100, 0x5800174, 0x10, 4) a = true := by
  obtain ⟨n, hn, h⟩ := h
  exact Box.may_intro (by omega)

theorem CON_PEER_STAT_may {a : Nat} (h : Part.CON_PEER_STAT.owns a) : Box.may (0x5800104, 0x5800178, 0x10, 4) a = true := by
  obtain ⟨n, hn, h⟩ := h
  exact Box.may_intro (by omega)

theorem CON_PEER_OFF_may {a : Nat} (h : Part.CON_PEER_OFF.owns a) : Box.may (0x5800108, 0x580017C, 0x10, 4) a = true := by
  obtain ⟨n, hn, h⟩ := h
  exact Box.may_intro (by omega)

theorem CON_PEER_CNT_may {a : Nat} (h : Part.CON_PEER_CNT.owns a) : Box.may (0x580010C, 0x5800180, 0x10, 4) a = true := by
  obtain ⟨n, hn, h⟩ := h
  exact Box.may_intro (by omega)

theorem CON_PEER_SKIP_may {a : Nat} (h : Part.CON_PEER_SKIP.owns a) : Box.may (0x5800180, 0x58001A0, 0x4, 4) a = true := by
  obtain ⟨n, hn, h⟩ := h
  exact Box.may_intro (by omega)

theorem CHIP_ID_may {a : Nat} (h : Part.CHIP_ID.owns a) : Box.may (0x0, 0x4, 0x4, 4) a = true := by
  have h : a = _ := h
  exact Box.may_intro (by omega)

theorem CHIP_UID_may {a : Nat} (h : Part.CHIP_UID.owns a) : Box.may (0x8, 0x10, 0x8, 8) a = true := by
  obtain ⟨w, hw, h⟩ := h
  exact Box.may_intro (by omega)

theorem CHIP_READY_may {a : Nat} (h : Part.CHIP_READY.owns a) : Box.may (0x10, 0x14, 0x4, 4) a = true := by
  have h : a = _ := h
  exact Box.may_intro (by omega)

theorem CHIP_READY_CHG_may {a : Nat} (h : Part.CHIP_READY_CHG.owns a) : Box.may (0x14, 0x18, 0x4, 4) a = true := by
  have h : a = _ := h
  exact Box.may_intro (by omega)

theorem CHIP_RGN_READY_may {a : Nat} (h : Part.CHIP_RGN_READY.owns a) : Box.may (0x18, 0x1C, 0x4, 4) a = true := by
  have h : a = _ := h
  exact Box.may_intro (by omega)

theorem CHIP_NRACC_may {a : Nat} (h : Part.CHIP_NRACC.owns a) : Box.may (0x1C, 0x20, 0x4, 4) a = true := by
  have h : a = _ := h
  exact Box.may_intro (by omega)

theorem CHIP_UNMAP_may {a : Nat} (h : Part.CHIP_UNMAP.owns a) : Box.may (0x20, 0x24, 0x4, 4) a = true := by
  have h : a = _ := h
  exact Box.may_intro (by omega)

theorem OBS_SIGHDR_may {a : Nat} (h : Part.OBS_SIGHDR.owns a) : Box.may (0x1900000, 0x193FFC4, 0x40, 4) a = true := by
  obtain ⟨n, hn, k, hk, h⟩ := h
  exact Box.may_intro (by omega)

theorem OBS_SIGFEAT_may {a : Nat} (h : Part.OBS_SIGFEAT.owns a) : Box.may (0x1900004, 0x193FFF4, 0x4, 4) a = true := by
  obtain ⟨m, hm, n, hn, k, hk, h⟩ := h
  exact Box.may_intro (by omega)

theorem OBS_TRACE_may {a : Nat} (h : Part.OBS_TRACE.owns a) : Box.may (0x1A00000, 0x1A10000, 0x4, 4) a = true := by
  obtain ⟨n, hn, k, hk, h⟩ := h
  exact Box.may_intro (by omega)

theorem MSIX_may {a : Nat} (h : Part.MSIX.owns a) : Box.may (0x5418000, 0x5419008, 0x4, 4) a = true := by
  rcases h with ⟨n, hn, w, hw, h⟩ | h | h <;> exact Box.may_intro (by omega)

/-- The box of a register. -/
theorem may_of_owns {p : Part} {a : Nat} (h : p.owns a) (hp : p ≠ .anyReg) :
    ∃ k b, p.ctorIdx = 24 + k ∧ boxes[k]? = some b ∧ b.may a = true := by
  cases p with
  | mem => exact h.elim
  | pending => exact h.elim
  | led => exact h.elim
  | cur => exact h.elim
  | time => exact h.elim
  | pwr => exact h.elim
  | ports => exact h.elim
  | obs => exact h.elim
  | links => exact h.elim
  | gov => exact h.elim
  | store => exact h.elim
  | cat => exact h.elim
  | gw => exact h.elim
  | spine => exact h.elim
  | con => exact h.elim
  | cores => exact h.elim
  | halls => exact h.elim
  | img => exact h.elim
  | upd => exact h.elim
  | vault => exact h.elim
  | latches => exact h.elim
  | resp => exact h.elim
  | out => exact h.elim
  | anyReg => exact absurd rfl hp
  | IMG_CTRL => exact ⟨0, _, rfl, rfl, IMG_CTRL_may h⟩
  | IMG_STATUS => exact ⟨1, _, rfl, rfl, IMG_STATUS_may h⟩
  | IMG_SRC => exact ⟨2, _, rfl, rfl, IMG_SRC_may h⟩
  | IMG_LEN => exact ⟨3, _, rfl, rfl, IMG_LEN_may h⟩
  | IMG_CHK_LOC => exact ⟨4, _, rfl, rfl, IMG_CHK_LOC_may h⟩
  | IMG_CHK_COUNT => exact ⟨5, _, rfl, rfl, IMG_CHK_COUNT_may h⟩
  | IMG_EPOCH => exact ⟨6, _, rfl, rfl, IMG_EPOCH_may h⟩
  | IMG_VERSION => exact ⟨7, _, rfl, rfl, IMG_VERSION_may h⟩
  | IMG_JRNL => exact ⟨8, _, rfl, rfl, IMG_JRNL_may h⟩
  | IMG_BOOT => exact ⟨9, _, rfl, rfl, IMG_BOOT_may h⟩
  | IMG_FMT => exact ⟨10, _, rfl, rfl, IMG_FMT_may h⟩
  | IMG_SVER_MAX => exact ⟨11, _, rfl, rfl, IMG_SVER_MAX_may h⟩
  | IMG_TRANS_LIMIT => exact ⟨12, _, rfl, rfl, IMG_TRANS_LIMIT_may h⟩
  | IMG_SUSP => exact ⟨13, _, rfl, rfl, IMG_SUSP_may h⟩
  | IMG_XDROP => exact ⟨14, _, rfl, rfl, IMG_XDROP_may h⟩
  | IMG_FORCED => exact ⟨15, _, rfl, rfl, IMG_FORCED_may h⟩
  | IMG_DIGEST => exact ⟨16, _, rfl, rfl, IMG_DIGEST_may h⟩
  | IMG_TRANS => exact ⟨17, _, rfl, rfl, IMG_TRANS_may h⟩
  | IMG_PORT_EPOCH => exact ⟨18, _, rfl, rfl, IMG_PORT_EPOCH_may h⟩
  | LP_CTRL => exact ⟨19, _, rfl, rfl, LP_CTRL_may h⟩
  | LP_STATE => exact ⟨20, _, rfl, rfl, LP_STATE_may h⟩
  | LP_CFG => exact ⟨21, _, rfl, rfl, LP_CFG_may h⟩
  | LP_TOPO => exact ⟨22, _, rfl, rfl, LP_TOPO_may h⟩
  | LP_WIRE => exact ⟨23, _, rfl, rfl, LP_WIRE_may h⟩
  | LP_FAULT => exact ⟨24, _, rfl, rfl, LP_FAULT_may h⟩
  | LP_MEAS => exact ⟨25, _, rfl, rfl, LP_MEAS_may h⟩
  | LP_EMETER => exact ⟨26, _, rfl, rfl, LP_EMETER_may h⟩
  | LP_DEFER => exact ⟨27, _, rfl, rfl, LP_DEFER_may h⟩
  | LP_WAKE_CFG => exact ⟨28, _, rfl, rfl, LP_WAKE_CFG_may h⟩
  | LP_WUF_ID => exact ⟨29, _, rfl, rfl, LP_WUF_ID_may h⟩
  | LP_WUF_IDMASK => exact ⟨30, _, rfl, rfl, LP_WUF_IDMASK_may h⟩
  | LP_WUF_DATA => exact ⟨31, _, rfl, rfl, LP_WUF_DATA_may h⟩
  | LP_WAKE_STAT => exact ⟨32, _, rfl, rfl, LP_WAKE_STAT_may h⟩
  | LP_GOV_CFG => exact ⟨33, _, rfl, rfl, LP_GOV_CFG_may h⟩
  | LP_GOV_STAT => exact ⟨34, _, rfl, rfl, LP_GOV_STAT_may h⟩
  | LP_GOV_PEAK => exact ⟨35, _, rfl, rfl, LP_GOV_PEAK_may h⟩
  | LP_GOV_CNT => exact ⟨36, _, rfl, rfl, LP_GOV_CNT_may h⟩
  | BT_CTRL => exact ⟨37, _, rfl, rfl, BT_CTRL_may h⟩
  | BT_STAT => exact ⟨38, _, rfl, rfl, BT_STAT_may h⟩
  | BT_CFG => exact ⟨39, _, rfl, rfl, BT_CFG_may h⟩
  | BT_PRESC => exact ⟨40, _, rfl, rfl, BT_PRESC_may h⟩
  | BT_NTIM => exact ⟨41, _, rfl, rfl, BT_NTIM_may h⟩
  | BT_DTIM => exact ⟨42, _, rfl, rfl, BT_DTIM_may h⟩
  | BT_XTIM => exact ⟨43, _, rfl, rfl, BT_XTIM_may h⟩
  | BT_TDC => exact ⟨44, _, rfl, rfl, BT_TDC_may h⟩
  | BT_PLCA => exact ⟨45, _, rfl, rfl, BT_PLCA_may h⟩
  | BT_PLCA_TMR => exact ⟨46, _, rfl, rfl, BT_PLCA_TMR_may h⟩
  | BT_PLCA_STAT => exact ⟨47, _, rfl, rfl, BT_PLCA_STAT_may h⟩
  | BT_BCN_ID => exact ⟨48, _, rfl, rfl, BT_BCN_ID_may h⟩
  | BT_BCN_CFG => exact ⟨49, _, rfl, rfl, BT_BCN_CFG_may h⟩
  | BT_BCN_STAT => exact ⟨50, _, rfl, rfl, BT_BCN_STAT_may h⟩
  | BT_RXCNT => exact ⟨51, _, rfl, rfl, BT_RXCNT_may h⟩
  | BT_TXCNT => exact ⟨52, _, rfl, rfl, BT_TXCNT_may h⟩
  | BT_PEXCNT => exact ⟨53, _, rfl, rfl, BT_PEXCNT_may h⟩
  | OBS_CTRL => exact ⟨54, _, rfl, rfl, OBS_CTRL_may h⟩
  | OBS_STAT => exact ⟨55, _, rfl, rfl, OBS_STAT_may h⟩
  | OBS_CFG => exact ⟨56, _, rfl, rfl, OBS_CFG_may h⟩
  | OBS_WP_LAST => exact ⟨57, _, rfl, rfl, OBS_WP_LAST_may h⟩
  | OBS_WP_CNT => exact ⟨58, _, rfl, rfl, OBS_WP_CNT_may h⟩
  | OBS_WP_FEAT => exact ⟨59, _, rfl, rfl, OBS_WP_FEAT_may h⟩
  | OBS_ENR_SEL => exact ⟨60, _, rfl, rfl, OBS_ENR_SEL_may h⟩
  | OBS_ENR_STAT => exact ⟨61, _, rfl, rfl, OBS_ENR_STAT_may h⟩
  | OBS_ENR_SUM => exact ⟨62, _, rfl, rfl, OBS_ENR_SUM_may h⟩
  | OBS_ENR_SQ => exact ⟨63, _, rfl, rfl, OBS_ENR_SQ_may h⟩
  | OBS_ENR_USE => exact ⟨64, _, rfl, rfl, OBS_ENR_USE_may h⟩
  | OBS_SND_CFG => exact ⟨65, _, rfl, rfl, OBS_SND_CFG_may h⟩
  | OBS_SND_STAT => exact ⟨66, _, rfl, rfl, OBS_SND_STAT_may h⟩
  | OBS_SND_REFL => exact ⟨67, _, rfl, rfl, OBS_SND_REFL_may h⟩
  | OBS_CEN_STAT => exact ⟨68, _, rfl, rfl, OBS_CEN_STAT_may h⟩
  | OBS_CEN_START => exact ⟨69, _, rfl, rfl, OBS_CEN_START_may h⟩
  | OBS_CEN_END => exact ⟨70, _, rfl, rfl, OBS_CEN_END_may h⟩
  | OBS_CEN_UNK => exact ⟨71, _, rfl, rfl, OBS_CEN_UNK_may h⟩
  | OBS_CEN_UNK_T => exact ⟨72, _, rfl, rfl, OBS_CEN_UNK_T_may h⟩
  | OBS_CAP_CFG => exact ⟨73, _, rfl, rfl, OBS_CAP_CFG_may h⟩
  | OBS_CAP_STAT => exact ⟨74, _, rfl, rfl, OBS_CAP_STAT_may h⟩
  | OBS_CAP_SEQ => exact ⟨75, _, rfl, rfl, OBS_CAP_SEQ_may h⟩
  | OBS_CAP_CNT => exact ⟨76, _, rfl, rfl, OBS_CAP_CNT_may h⟩
  | OBS_CEN_RES => exact ⟨77, _, rfl, rfl, OBS_CEN_RES_may h⟩
  | MOP_DOORBELL => exact ⟨78, _, rfl, rfl, MOP_DOORBELL_may h⟩
  | MOP_ERR => exact ⟨79, _, rfl, rfl, MOP_ERR_may h⟩
  | MOP_ERR_SLOT => exact ⟨80, _, rfl, rfl, MOP_ERR_SLOT_may h⟩
  | MOP_POOL_CFG0 => exact ⟨81, _, rfl, rfl, MOP_POOL_CFG0_may h⟩
  | MOP_POOL_CFG1 => exact ⟨82, _, rfl, rfl, MOP_POOL_CFG1_may h⟩
  | MOP_POOL_STAT => exact ⟨83, _, rfl, rfl, MOP_POOL_STAT_may h⟩
  | MOP_POOL_CNT => exact ⟨84, _, rfl, rfl, MOP_POOL_CNT_may h⟩
  | MOP_FSP_BASE => exact ⟨85, _, rfl, rfl, MOP_FSP_BASE_may h⟩
  | MOP_FSP_CNT => exact ⟨86, _, rfl, rfl, MOP_FSP_CNT_may h⟩
  | MOP_FSP_RSV => exact ⟨87, _, rfl, rfl, MOP_FSP_RSV_may h⟩
  | MOP_FSP_FREE => exact ⟨88, _, rfl, rfl, MOP_FSP_FREE_may h⟩
  | MOP_FSP_LOW => exact ⟨89, _, rfl, rfl, MOP_FSP_LOW_may h⟩
  | MOP_PORTQ => exact ⟨90, _, rfl, rfl, MOP_PORTQ_may h⟩
  | MOP_PORTHEAD => exact ⟨91, _, rfl, rfl, MOP_PORTHEAD_may h⟩
  | MOP_MON_CFG => exact ⟨92, _, rfl, rfl, MOP_MON_CFG_may h⟩
  | MOP_MON_PERIOD => exact ⟨93, _, rfl, rfl, MOP_MON_PERIOD_may h⟩
  | MOP_MON_NEXT => exact ⟨94, _, rfl, rfl, MOP_MON_NEXT_may h⟩
  | MOP_MON_STAT => exact ⟨95, _, rfl, rfl, MOP_MON_STAT_may h⟩
  | MOP_DESC => exact ⟨96, _, rfl, rfl, MOP_DESC_may h⟩
  | CAT_UPD_CMD => exact ⟨97, _, rfl, rfl, CAT_UPD_CMD_may h⟩
  | CAT_UPD_STAT => exact ⟨98, _, rfl, rfl, CAT_UPD_STAT_may h⟩
  | CAT_UPD_IDX => exact ⟨99, _, rfl, rfl, CAT_UPD_IDX_may h⟩
  | CAT_UPD_T => exact ⟨100, _, rfl, rfl, CAT_UPD_T_may h⟩
  | CAT_UPD_W => exact ⟨101, _, rfl, rfl, CAT_UPD_W_may h⟩
  | CAT_USE => exact ⟨102, _, rfl, rfl, CAT_USE_may h⟩
  | CAT_TBL_CFG0 => exact ⟨103, _, rfl, rfl, CAT_TBL_CFG0_may h⟩
  | CAT_TBL_CFG1 => exact ⟨104, _, rfl, rfl, CAT_TBL_CFG1_may h⟩
  | CAT_PBIND => exact ⟨105, _, rfl, rfl, CAT_PBIND_may h⟩
  | CAT_PCNT => exact ⟨106, _, rfl, rfl, CAT_PCNT_may h⟩
  | CAT_PADDR_LO => exact ⟨107, _, rfl, rfl, CAT_PADDR_LO_may h⟩
  | CAT_PADDR_HI => exact ⟨108, _, rfl, rfl, CAT_PADDR_HI_may h⟩
  | CAT_ENTRY => exact ⟨109, _, rfl, rfl, CAT_ENTRY_may h⟩
  | ECF_CTRL => exact ⟨110, _, rfl, rfl, ECF_CTRL_may h⟩
  | ECF_STAT => exact ⟨111, _, rfl, rfl, ECF_STAT_may h⟩
  | ECF_CFG => exact ⟨112, _, rfl, rfl, ECF_CFG_may h⟩
  | ECF_GUARD => exact ⟨113, _, rfl, rfl, ECF_GUARD_may h⟩
  | ECF_SLOPE => exact ⟨114, _, rfl, rfl, ECF_SLOPE_may h⟩
  | ECF_CNT => exact ⟨115, _, rfl, rfl, ECF_CNT_may h⟩
  | ECF_LAST => exact ⟨116, _, rfl, rfl, ECF_LAST_may h⟩
  | ECF_LAST_T => exact ⟨117, _, rfl, rfl, ECF_LAST_T_may h⟩
  | ECF_ERRCNT => exact ⟨118, _, rfl, rfl, ECF_ERRCNT_may h⟩
  | ECF_BO => exact ⟨119, _, rfl, rfl, ECF_BO_may h⟩
  | ECF_BO_T => exact ⟨120, _, rfl, rfl, ECF_BO_T_may h⟩
  | ECF_BO_DUR => exact ⟨121, _, rfl, rfl, ECF_BO_DUR_may h⟩
  | ECF_MISC => exact ⟨122, _, rfl, rfl, ECF_MISC_may h⟩
  | ECF_ETH => exact ⟨123, _, rfl, rfl, ECF_ETH_may h⟩
  | ECF_ETH_COLL => exact ⟨124, _, rfl, rfl, ECF_ETH_COLL_may h⟩
  | GW_STAT => exact ⟨125, _, rfl, rfl, GW_STAT_may h⟩
  | GW_BRK => exact ⟨126, _, rfl, rfl, GW_BRK_may h⟩
  | GW_BRK_LATE => exact ⟨127, _, rfl, rfl, GW_BRK_LATE_may h⟩
  | GW_BRK_T => exact ⟨128, _, rfl, rfl, GW_BRK_T_may h⟩
  | GW_BRKW => exact ⟨129, _, rfl, rfl, GW_BRKW_may h⟩
  | GW_PCP_TH => exact ⟨130, _, rfl, rfl, GW_PCP_TH_may h⟩
  | GW_RT_CFG => exact ⟨131, _, rfl, rfl, GW_RT_CFG_may h⟩
  | GW_RT_H => exact ⟨132, _, rfl, rfl, GW_RT_H_may h⟩
  | GW_RT_HMIN => exact ⟨133, _, rfl, rfl, GW_RT_HMIN_may h⟩
  | GW_RT_BUD => exact ⟨134, _, rfl, rfl, GW_RT_BUD_may h⟩
  | GW_RT_LEGS => exact ⟨135, _, rfl, rfl, GW_RT_LEGS_may h⟩
  | GW_RT_CNT => exact ⟨136, _, rfl, rfl, GW_RT_CNT_may h⟩
  | GW_RT_DROP => exact ⟨137, _, rfl, rfl, GW_RT_DROP_may h⟩
  | GW_RT_BRK => exact ⟨138, _, rfl, rfl, GW_RT_BRK_may h⟩
  | GW_LEG_CFG => exact ⟨139, _, rfl, rfl, GW_LEG_CFG_may h⟩
  | GW_LEG_ID => exact ⟨140, _, rfl, rfl, GW_LEG_ID_may h⟩
  | GW_LEG_Q => exact ⟨141, _, rfl, rfl, GW_LEG_Q_may h⟩
  | GW_LEG_STAT => exact ⟨142, _, rfl, rfl, GW_LEG_STAT_may h⟩
  | GW_TUN_CFG => exact ⟨143, _, rfl, rfl, GW_TUN_CFG_may h⟩
  | GW_TUN_SEQ => exact ⟨144, _, rfl, rfl, GW_TUN_SEQ_may h⟩
  | GW_TUN_SID => exact ⟨145, _, rfl, rfl, GW_TUN_SID_may h⟩
  | GW_TUN_CNT => exact ⟨146, _, rfl, rfl, GW_TUN_CNT_may h⟩
  | GW_TUN_DUP => exact ⟨147, _, rfl, rfl, GW_TUN_DUP_may h⟩
  | GW_EQ_STAT => exact ⟨148, _, rfl, rfl, GW_EQ_STAT_may h⟩
  | GW_EQ_CNT => exact ⟨149, _, rfl, rfl, GW_EQ_CNT_may h⟩
  | RGN_OPP => exact ⟨150, _, rfl, rfl, RGN_OPP_may h⟩
  | RGN_STAT => exact ⟨151, _, rfl, rfl, RGN_STAT_may h⟩
  | RGN_DIRCNT => exact ⟨152, _, rfl, rfl, RGN_DIRCNT_may h⟩
  | RGN_PART => exact ⟨153, _, rfl, rfl, RGN_PART_may h⟩
  | CLU_CFG => exact ⟨154, _, rfl, rfl, CLU_CFG_may h⟩
  | CLU_PRIO => exact ⟨155, _, rfl, rfl, CLU_PRIO_may h⟩
  | CLU_DOORBELL => exact ⟨156, _, rfl, rfl, CLU_DOORBELL_may h⟩
  | CLU_DOORACK => exact ⟨157, _, rfl, rfl, CLU_DOORACK_may h⟩
  | CLU_ERR => exact ⟨158, _, rfl, rfl, CLU_ERR_may h⟩
  | CLU_WIN_A => exact ⟨159, _, rfl, rfl, CLU_WIN_A_may h⟩
  | CLU_WIN_B => exact ⟨160, _, rfl, rfl, CLU_WIN_B_may h⟩
  | CLU_LOCK => exact ⟨161, _, rfl, rfl, CLU_LOCK_may h⟩
  | ENG_CTRL => exact ⟨162, _, rfl, rfl, ENG_CTRL_may h⟩
  | ENG_STAT => exact ⟨163, _, rfl, rfl, ENG_STAT_may h⟩
  | ENG_CFG => exact ⟨164, _, rfl, rfl, ENG_CFG_may h⟩
  | ENG_START => exact ⟨165, _, rfl, rfl, ENG_START_may h⟩
  | ENG_TCMP => exact ⟨166, _, rfl, rfl, ENG_TCMP_may h⟩
  | ENG_TRAP => exact ⟨167, _, rfl, rfl, ENG_TRAP_may h⟩
  | ENG_TVAL => exact ⟨168, _, rfl, rfl, ENG_TVAL_may h⟩
  | ENG_PC => exact ⟨169, _, rfl, rfl, ENG_PC_may h⟩
  | HALL_STAT => exact ⟨170, _, rfl, rfl, HALL_STAT_may h⟩
  | HALL_ERR => exact ⟨171, _, rfl, rfl, HALL_ERR_may h⟩
  | HALL_ERR_ADDR => exact ⟨172, _, rfl, rfl, HALL_ERR_ADDR_may h⟩
  | HALL_HANDOVER => exact ⟨173, _, rfl, rfl, HALL_HANDOVER_may h⟩
  | HALL_HO_STAT => exact ⟨174, _, rfl, rfl, HALL_HO_STAT_may h⟩
  | HALL_REVOKE => exact ⟨175, _, rfl, rfl, HALL_REVOKE_may h⟩
  | HALL_RV_STAT => exact ⟨176, _, rfl, rfl, HALL_RV_STAT_may h⟩
  | HALL_ECC => exact ⟨177, _, rfl, rfl, HALL_ECC_may h⟩
  | HALL_UE_ADDR => exact ⟨178, _, rfl, rfl, HALL_UE_ADDR_may h⟩
  | HALL_TEST_CFG => exact ⟨179, _, rfl, rfl, HALL_TEST_CFG_may h⟩
  | HALL_TEST_STAT => exact ⟨180, _, rfl, rfl, HALL_TEST_STAT_may h⟩
  | HALL_CONF => exact ⟨181, _, rfl, rfl, HALL_CONF_may h⟩
  | HALL_OWN => exact ⟨182, _, rfl, rfl, HALL_OWN_may h⟩
  | TIME_CTRL => exact ⟨183, _, rfl, rfl, TIME_CTRL_may h⟩
  | TIME_STAT => exact ⟨184, _, rfl, rfl, TIME_STAT_may h⟩
  | TIME_CFG => exact ⟨185, _, rfl, rfl, TIME_CFG_may h⟩
  | TIME_JTH => exact ⟨186, _, rfl, rfl, TIME_JTH_may h⟩
  | TIME_INC => exact ⟨187, _, rfl, rfl, TIME_INC_may h⟩
  | TIME_NOW_HI => exact ⟨188, _, rfl, rfl, TIME_NOW_HI_may h⟩
  | TIME_NOW => exact ⟨189, _, rfl, rfl, TIME_NOW_may h⟩
  | TIME_NSO => exact ⟨190, _, rfl, rfl, TIME_NSO_may h⟩
  | TIME_OFFS => exact ⟨191, _, rfl, rfl, TIME_OFFS_may h⟩
  | TIME_JREF => exact ⟨192, _, rfl, rfl, TIME_JREF_may h⟩
  | TIME_SEC_CFG => exact ⟨193, _, rfl, rfl, TIME_SEC_CFG_may h⟩
  | TIME_SEC_HOLD => exact ⟨194, _, rfl, rfl, TIME_SEC_HOLD_may h⟩
  | TIME_SEC_LAST => exact ⟨195, _, rfl, rfl, TIME_SEC_LAST_may h⟩
  | TIME_SEC_ERR => exact ⟨196, _, rfl, rfl, TIME_SEC_ERR_may h⟩
  | TIME_NONCE => exact ⟨197, _, rfl, rfl, TIME_NONCE_may h⟩
  | TIME_TOKEN => exact ⟨198, _, rfl, rfl, TIME_TOKEN_may h⟩
  | TIME_VT => exact ⟨199, _, rfl, rfl, TIME_VT_may h⟩
  | TIME_BRX_CFG => exact ⟨200, _, rfl, rfl, TIME_BRX_CFG_may h⟩
  | TIME_BRX_ID => exact ⟨201, _, rfl, rfl, TIME_BRX_ID_may h⟩
  | TIME_BRX_RT => exact ⟨202, _, rfl, rfl, TIME_BRX_RT_may h⟩
  | TIME_BRX_LT => exact ⟨203, _, rfl, rfl, TIME_BRX_LT_may h⟩
  | TIME_BRX_OFF => exact ⟨204, _, rfl, rfl, TIME_BRX_OFF_may h⟩
  | TIME_BRX_STAT => exact ⟨205, _, rfl, rfl, TIME_BRX_STAT_may h⟩
  | TIME_BSCHED => exact ⟨206, _, rfl, rfl, TIME_BSCHED_may h⟩
  | TIME_PTP => exact ⟨207, _, rfl, rfl, TIME_PTP_may h⟩
  | LEDG_STAT => exact ⟨208, _, rfl, rfl, LEDG_STAT_may h⟩
  | LEDG_HOLD => exact ⟨209, _, rfl, rfl, LEDG_HOLD_may h⟩
  | LEDG_EOI => exact ⟨210, _, rfl, rfl, LEDG_EOI_may h⟩
  | LEDG_ERR => exact ⟨211, _, rfl, rfl, LEDG_ERR_may h⟩
  | LEDG_LOSTCNT => exact ⟨212, _, rfl, rfl, LEDG_LOSTCNT_may h⟩
  | LEDG_EPEND => exact ⟨213, _, rfl, rfl, LEDG_EPEND_may h⟩
  | LEDG_WAKE => exact ⟨214, _, rfl, rfl, LEDG_WAKE_may h⟩
  | LEDG_RING_BASE => exact ⟨215, _, rfl, rfl, LEDG_RING_BASE_may h⟩
  | LEDG_RING_CFG => exact ⟨216, _, rfl, rfl, LEDG_RING_CFG_may h⟩
  | LEDG_RING_MOD => exact ⟨217, _, rfl, rfl, LEDG_RING_MOD_may h⟩
  | LEDG_RING_HEAD => exact ⟨218, _, rfl, rfl, LEDG_RING_HEAD_may h⟩
  | LEDG_RING_TAIL => exact ⟨219, _, rfl, rfl, LEDG_RING_TAIL_may h⟩
  | LEDG_RING_STAT => exact ⟨220, _, rfl, rfl, LEDG_RING_STAT_may h⟩
  | LEDG_SRC => exact ⟨221, _, rfl, rfl, LEDG_SRC_may h⟩
  | CUR_CTRL => exact ⟨222, _, rfl, rfl, CUR_CTRL_may h⟩
  | CUR_STAT => exact ⟨223, _, rfl, rfl, CUR_STAT_may h⟩
  | CUR_CFG => exact ⟨224, _, rfl, rfl, CUR_CFG_may h⟩
  | CUR_RECOV => exact ⟨225, _, rfl, rfl, CUR_RECOV_may h⟩
  | CUR_FIRST => exact ⟨226, _, rfl, rfl, CUR_FIRST_may h⟩
  | CUR_FIRST_ADDR => exact ⟨227, _, rfl, rfl, CUR_FIRST_ADDR_may h⟩
  | CUR_FIRST_ACC => exact ⟨228, _, rfl, rfl, CUR_FIRST_ACC_may h⟩
  | CUR_FIRST_T => exact ⟨229, _, rfl, rfl, CUR_FIRST_T_may h⟩
  | CUR_COIN => exact ⟨230, _, rfl, rfl, CUR_COIN_may h⟩
  | CUR_SEVCNT => exact ⟨231, _, rfl, rfl, CUR_SEVCNT_may h⟩
  | CUR_GO_OUT => exact ⟨232, _, rfl, rfl, CUR_GO_OUT_may h⟩
  | CUR_INJ => exact ⟨233, _, rfl, rfl, CUR_INJ_may h⟩
  | CUR_GO_SAFE => exact ⟨234, _, rfl, rfl, CUR_GO_SAFE_may h⟩
  | CUR_SAFE_T => exact ⟨235, _, rfl, rfl, CUR_SAFE_T_may h⟩
  | CUR_KIND => exact ⟨236, _, rfl, rfl, CUR_KIND_may h⟩
  | CUR_WRULE0 => exact ⟨237, _, rfl, rfl, CUR_WRULE0_may h⟩
  | CUR_WRULE1 => exact ⟨238, _, rfl, rfl, CUR_WRULE1_may h⟩
  | CUR_AFT => exact ⟨239, _, rfl, rfl, CUR_AFT_may h⟩
  | PWR_CTRL => exact ⟨240, _, rfl, rfl, PWR_CTRL_may h⟩
  | PWR_STAT => exact ⟨241, _, rfl, rfl, PWR_STAT_may h⟩
  | PWR_NEXT => exact ⟨242, _, rfl, rfl, PWR_NEXT_may h⟩
  | PWR_RAILS => exact ⟨243, _, rfl, rfl, PWR_RAILS_may h⟩
  | PWR_TEMP => exact ⟨244, _, rfl, rfl, PWR_TEMP_may h⟩
  | PWR_CNT => exact ⟨245, _, rfl, rfl, PWR_CNT_may h⟩
  | WATCH_STAT => exact ⟨246, _, rfl, rfl, WATCH_STAT_may h⟩
  | WATCH_WAKE => exact ⟨247, _, rfl, rfl, WATCH_WAKE_may h⟩
  | WATCH_SUPPLY => exact ⟨248, _, rfl, rfl, WATCH_SUPPLY_may h⟩
  | WATCH_TREST => exact ⟨249, _, rfl, rfl, WATCH_TREST_may h⟩
  | WATCH_CNT => exact ⟨250, _, rfl, rfl, WATCH_CNT_may h⟩
  | WATCH_TMR => exact ⟨251, _, rfl, rfl, WATCH_TMR_may h⟩
  | WATCH_SCHED => exact ⟨252, _, rfl, rfl, WATCH_SCHED_may h⟩
  | SPN_STAT => exact ⟨253, _, rfl, rfl, SPN_STAT_may h⟩
  | SPN_LANE_CFG => exact ⟨254, _, rfl, rfl, SPN_LANE_CFG_may h⟩
  | SPN_LANE_STAT => exact ⟨255, _, rfl, rfl, SPN_LANE_STAT_may h⟩
  | SPN_LANE_SA => exact ⟨256, _, rfl, rfl, SPN_LANE_SA_may h⟩
  | SPN_LANE_FEC => exact ⟨257, _, rfl, rfl, SPN_LANE_FEC_may h⟩
  | SPN_LANE_SEC => exact ⟨258, _, rfl, rfl, SPN_LANE_SEC_may h⟩
  | SPN_HQ_BASE => exact ⟨259, _, rfl, rfl, SPN_HQ_BASE_may h⟩
  | SPN_HQ_PTR => exact ⟨260, _, rfl, rfl, SPN_HQ_PTR_may h⟩
  | SPN_STR_CFG => exact ⟨261, _, rfl, rfl, SPN_STR_CFG_may h⟩
  | SPN_STR_DA => exact ⟨262, _, rfl, rfl, SPN_STR_DA_may h⟩
  | SPN_STR_STAT => exact ⟨263, _, rfl, rfl, SPN_STR_STAT_may h⟩
  | PCIE_STAT => exact ⟨264, _, rfl, rfl, PCIE_STAT_may h⟩
  | PCIE_CFG => exact ⟨265, _, rfl, rfl, PCIE_CFG_may h⟩
  | PCIE_CNT => exact ⟨266, _, rfl, rfl, PCIE_CNT_may h⟩
  | PCIE_PEND => exact ⟨267, _, rfl, rfl, PCIE_PEND_may h⟩
  | SVC_STAT => exact ⟨268, _, rfl, rfl, SVC_STAT_may h⟩
  | SVC_DBG => exact ⟨269, _, rfl, rfl, SVC_DBG_may h⟩
  | SVC_DFU_NEXT => exact ⟨270, _, rfl, rfl, SVC_DFU_NEXT_may h⟩
  | SVC_CHAL => exact ⟨271, _, rfl, rfl, SVC_CHAL_may h⟩
  | VIT_STAT => exact ⟨272, _, rfl, rfl, VIT_STAT_may h⟩
  | VIT_KCMD => exact ⟨273, _, rfl, rfl, VIT_KCMD_may h⟩
  | VIT_KSTAT => exact ⟨274, _, rfl, rfl, VIT_KSTAT_may h⟩
  | VIT_KSRC => exact ⟨275, _, rfl, rfl, VIT_KSRC_may h⟩
  | VIT_KATTR => exact ⟨276, _, rfl, rfl, VIT_KATTR_may h⟩
  | VIT_AU_CMD => exact ⟨277, _, rfl, rfl, VIT_AU_CMD_may h⟩
  | VIT_AU_STAT => exact ⟨278, _, rfl, rfl, VIT_AU_STAT_may h⟩
  | VIT_AU_BUF => exact ⟨279, _, rfl, rfl, VIT_AU_BUF_may h⟩
  | VIT_AU_FV => exact ⟨280, _, rfl, rfl, VIT_AU_FV_may h⟩
  | VIT_SLOT => exact ⟨281, _, rfl, rfl, VIT_SLOT_may h⟩
  | VIT_BIND0 => exact ⟨282, _, rfl, rfl, VIT_BIND0_may h⟩
  | VIT_BIND1 => exact ⟨283, _, rfl, rfl, VIT_BIND1_may h⟩
  | VIT_BIND2 => exact ⟨284, _, rfl, rfl, VIT_BIND2_may h⟩
  | VAULT_STAT => exact ⟨285, _, rfl, rfl, VAULT_STAT_may h⟩
  | VAULT_TAMPER_CFG => exact ⟨286, _, rfl, rfl, VAULT_TAMPER_CFG_may h⟩
  | VAULT_MRAM => exact ⟨287, _, rfl, rfl, VAULT_MRAM_may h⟩
  | VAULT_MC_CMD => exact ⟨288, _, rfl, rfl, VAULT_MC_CMD_may h⟩
  | VAULT_MC_ARG => exact ⟨289, _, rfl, rfl, VAULT_MC_ARG_may h⟩
  | VAULT_TLOG_CFG => exact ⟨290, _, rfl, rfl, VAULT_TLOG_CFG_may h⟩
  | VAULT_TLOG_APP => exact ⟨291, _, rfl, rfl, VAULT_TLOG_APP_may h⟩
  | VAULT_MC => exact ⟨292, _, rfl, rfl, VAULT_MC_may h⟩
  | VAULT_FV => exact ⟨293, _, rfl, rfl, VAULT_FV_may h⟩
  | VAULT_TLOG => exact ⟨294, _, rfl, rfl, VAULT_TLOG_may h⟩
  | UPD_CTRL => exact ⟨295, _, rfl, rfl, UPD_CTRL_may h⟩
  | UPD_STAT => exact ⟨296, _, rfl, rfl, UPD_STAT_may h⟩
  | UPD_SRC => exact ⟨297, _, rfl, rfl, UPD_SRC_may h⟩
  | UPD_CFG => exact ⟨298, _, rfl, rfl, UPD_CFG_may h⟩
  | UPD_VER_IMAGO => exact ⟨299, _, rfl, rfl, UPD_VER_IMAGO_may h⟩
  | UPD_VER_STAGED => exact ⟨300, _, rfl, rfl, UPD_VER_STAGED_may h⟩
  | UPD_HO_LAT => exact ⟨301, _, rfl, rfl, UPD_HO_LAT_may h⟩
  | UPD_MAP => exact ⟨302, _, rfl, rfl, UPD_MAP_may h⟩
  | UPD_FORCED => exact ⟨303, _, rfl, rfl, UPD_FORCED_may h⟩
  | CON_STAT => exact ⟨304, _, rfl, rfl, CON_STAT_may h⟩
  | CON_CFG => exact ⟨305, _, rfl, rfl, CON_CFG_may h⟩
  | CON_THR => exact ⟨306, _, rfl, rfl, CON_THR_may h⟩
  | CON_AHOR => exact ⟨307, _, rfl, rfl, CON_AHOR_may h⟩
  | CON_THETA => exact ⟨308, _, rfl, rfl, CON_THETA_may h⟩
  | CON_DIS => exact ⟨309, _, rfl, rfl, CON_DIS_may h⟩
  | CON_DIS_T => exact ⟨310, _, rfl, rfl, CON_DIS_T_may h⟩
  | CON_CD => exact ⟨311, _, rfl, rfl, CON_CD_may h⟩
  | CON_PEER_CFG => exact ⟨312, _, rfl, rfl, CON_PEER_CFG_may h⟩
  | CON_PEER_STAT => exact ⟨313, _, rfl, rfl, CON_PEER_STAT_may h⟩
  | CON_PEER_OFF => exact ⟨314, _, rfl, rfl, CON_PEER_OFF_may h⟩
  | CON_PEER_CNT => exact ⟨315, _, rfl, rfl, CON_PEER_CNT_may h⟩
  | CON_PEER_SKIP => exact ⟨316, _, rfl, rfl, CON_PEER_SKIP_may h⟩
  | CHIP_ID => exact ⟨317, _, rfl, rfl, CHIP_ID_may h⟩
  | CHIP_UID => exact ⟨318, _, rfl, rfl, CHIP_UID_may h⟩
  | CHIP_READY => exact ⟨319, _, rfl, rfl, CHIP_READY_may h⟩
  | CHIP_READY_CHG => exact ⟨320, _, rfl, rfl, CHIP_READY_CHG_may h⟩
  | CHIP_RGN_READY => exact ⟨321, _, rfl, rfl, CHIP_RGN_READY_may h⟩
  | CHIP_NRACC => exact ⟨322, _, rfl, rfl, CHIP_NRACC_may h⟩
  | CHIP_UNMAP => exact ⟨323, _, rfl, rfl, CHIP_UNMAP_may h⟩
  | OBS_SIGHDR => exact ⟨324, _, rfl, rfl, OBS_SIGHDR_may h⟩
  | OBS_SIGFEAT => exact ⟨325, _, rfl, rfl, OBS_SIGFEAT_may h⟩
  | OBS_TRACE => exact ⟨326, _, rfl, rfl, OBS_TRACE_may h⟩
  | MSIX => exact ⟨327, _, rfl, rfl, MSIX_may h⟩

/-- A word that no box of the set holds reads as before. -/
theorem OnlyM.word {m : Nat} {s t : State} (h : OnlyM m s t) (a : Nat) (ha : away m a = true) : t.word a = s.word a := by
  apply h.words
  intro p hp ho
  simp only [away, Bool.and_eq_true, Bool.not_eq_true'] at ha
  by_cases e : p = .anyReg
  · subst e
    exact absurd (hp.symm.trans ha.1) (by decide)
  · obtain ⟨k, b, e, hb, hm⟩ := may_of_owns ho e
    rw [awayFrom_get ha.2 k b hb (e ▸ hp)] at hm
    exact absurd hm (by decide)

/-- A field that no box of the set holds reads as before. -/
theorem OnlyM.get {m : Nat} {s t : State} (h : OnlyM m s t) (l : Loc) (ha : away m l.addr = true)
    (hl : l.lo + l.len ≤ 32) : t.get l = s.get l :=
  State.get_congr (h.word _ ha) (by omega)

/-- A flag that no box of the set holds reads as before. -/
theorem OnlyM.flag {m : Nat} {s t : State} (h : OnlyM m s t) (l : Loc) (ha : away m l.addr = true)
    (hl : l.lo + l.len ≤ 32) : t.flag l = s.flag l :=
  State.flag_congr hl (h.word _ ha)

end Sys2Proof.Machine
end

