-- ==== Sys2Proof/Laws/Exec.lean ====
section
/-! SUPPORT. What each command runs: one equation for each constructor of `Instr`. -/

namespace Sys2Proof.Machine

@[simp] theorem exec_lowWordRead (q : Requester) (off : RegOff) (size : Nat) (s : State) : exec (.lowWordRead q off size) s = execLowWordRead q off size s :=
  rfl

@[simp] theorem exec_readClear (q : Requester) (off : RegOff) (size : Nat) (s : State) : exec (.readClear q off size) s = execReadClear q off size s :=
  rfl

@[simp] theorem exec_registerWrite (q : Requester) (off : RegOff) (size : Nat) (w : Word) (s : State) : exec (.registerWrite q off size w) s = execRegisterWrite q off size w s :=
  rfl

@[simp] theorem exec_dieLinkTransfer (d : Fin 3) (crcOk : Bool) (s : State) : exec (.dieLinkTransfer d crcOk) s = execDieLinkTransfer d crcOk s :=
  rfl

@[simp] theorem exec_heartbeatLoss (d : Fin 3) (s : State) : exec (.heartbeatLoss d) s = execHeartbeatLoss d s :=
  rfl

@[simp] theorem exec_dieLinkRetrained (d : Fin 3) (s : State) : exec (.dieLinkRetrained d) s = execDieLinkRetrained d s :=
  rfl

@[simp] theorem exec_functionReady (b : Fin 40) (s : State) : exec (.functionReady b) s = execFunctionReady b s :=
  rfl

@[simp] theorem exec_functionNotReady (b : Fin 40) (s : State) : exec (.functionNotReady b) s = execFunctionNotReady b s :=
  rfl

@[simp] theorem exec_imgCheck (q : Requester) (s : State) : exec (.imgCheck q) s = execImgCheck q s :=
  rfl

@[simp] theorem exec_checkDone (s : State) : exec (.checkDone) s = execCheckDone s :=
  rfl

@[simp] theorem exec_imgStage (q : Requester) (s : State) : exec (.imgStage q) s = execImgStage q s :=
  rfl

@[simp] theorem exec_stageDone (ok : Bool) (s : State) : exec (.stageDone ok) s = execStageDone ok s :=
  rfl

@[simp] theorem exec_imgCommit (q : Requester) (s : State) : exec (.imgCommit q) s = execImgCommit q s :=
  rfl

@[simp] theorem exec_imgAbort (q : Requester) (s : State) : exec (.imgAbort q) s = execImgAbort q s :=
  rfl

@[simp] theorem exec_imgCmdIgnored (q : Requester) (code : Fin 16) (s : State) : exec (.imgCmdIgnored q code) s = execImgCmdIgnored q code s :=
  rfl

@[simp] theorem exec_switchInstant (s : State) : exec (.switchInstant) s = execSwitchInstant s :=
  rfl

@[simp] theorem exec_portMove (n : PortNo) (s : State) : exec (.portMove n) s = execPortMove n s :=
  rfl

@[simp] theorem exec_portForced (n : PortNo) (s : State) : exec (.portForced n) s = execPortForced n s :=
  rfl

@[simp] theorem exec_imageRestore (s : State) : exec (.imageRestore) s = execImageRestore s :=
  rfl

@[simp] theorem exec_shortDetected (n : PortNo) (within : Bool) (pj : Nat) (s : State) : exec (.shortDetected n within pj) s = execShortDetected n within pj s :=
  rfl

@[simp] theorem exec_faultEventEnd (n : PortNo) (pj : Nat) (s : State) : exec (.faultEventEnd n pj) s = execFaultEventEnd n pj s :=
  rfl

@[simp] theorem exec_energyCutoff (n : PortNo) (s : State) : exec (.energyCutoff n) s = execEnergyCutoff n s :=
  rfl

@[simp] theorem exec_faultWaitExpiry (n : PortNo) (s : State) : exec (.faultWaitExpiry n) s = execFaultWaitExpiry n s :=
  rfl

@[simp] theorem exec_retrySuccess (n : PortNo) (s : State) : exec (.retrySuccess n) s = execRetrySuccess n s :=
  rfl

@[simp] theorem exec_driverDisable (q : Requester) (n : PortNo) (s : State) : exec (.driverDisable q n) s = execDriverDisable q n s :=
  rfl

@[simp] theorem exec_driverEnable (q : Requester) (n : PortNo) (s : State) : exec (.driverEnable q n) s = execDriverEnable q n s :=
  rfl

@[simp] theorem exec_unlatch (q : Requester) (n : PortNo) (s : State) : exec (.unlatch q n) s = execUnlatch q n s :=
  rfl

@[simp] theorem exec_portReset (q : Requester) (n : PortNo) (s : State) : exec (.portReset q n) s = execPortReset q n s :=
  rfl

@[simp] theorem exec_biasCheck (n : PortNo) (vh vl : Int) (s : State) : exec (.biasCheck n vh vl) s = execBiasCheck n vh vl s :=
  rfl

@[simp] theorem exec_governorSubmit (n : PortNo) (s : State) : exec (.governorSubmit n) s = execGovernorSubmit n s :=
  rfl

@[simp] theorem exec_governorBucket (e : BucketEnd) (s : State) : exec (.governorBucket e) s = execGovernorBucket e s :=
  rfl

@[simp] theorem exec_deferralFlag (n : PortNo) (s : State) : exec (.deferralFlag n) s = execDeferralFlag n s :=
  rfl

@[simp] theorem exec_wakeDetected (n : PortNo) (w : WakeSeen) (s : State) : exec (.wakeDetected n w) s = execWakeDetected n w s :=
  rfl

@[simp] theorem exec_frameReception (n : PortNo) (r : Reception) (s : State) : exec (.frameReception n r) s = execFrameReception n r s :=
  rfl

@[simp] theorem exec_exceptionEnd (n : PortNo) (s : State) : exec (.exceptionEnd n) s = execExceptionEnd n s :=
  rfl

@[simp] theorem exec_integrationComplete (n : PortNo) (s : State) : exec (.integrationComplete n) s = execIntegrationComplete n s :=
  rfl

@[simp] theorem exec_transmitAttempt (n : PortNo) (u : TxEnd) (edges : List Nat) (load pj : Nat) (s : State) : exec (.transmitAttempt n u edges load pj) s = execTransmitAttempt n u edges load pj s :=
  rfl

@[simp] theorem exec_errorDetected (n : PortNo) (e : BusError) (s : State) : exec (.errorDetected n e) s = execErrorDetected n e s :=
  rfl

@[simp] theorem exec_beaconDue (n : PortNo) (s : State) : exec (.beaconDue n) s = execBeaconDue n s :=
  rfl

@[simp] theorem exec_plcaStatusChange (n : PortNo) (ok : Bool) (s : State) : exec (.plcaStatusChange n ok) s = execPlcaStatusChange n ok s :=
  rfl

@[simp] theorem exec_plcaForeignBeacon (n : PortNo) (s : State) : exec (.plcaForeignBeacon n) s = execPlcaForeignBeacon n s :=
  rfl

@[simp] theorem exec_collision (n : PortNo) (s : State) : exec (.collision n) s = execCollision n s :=
  rfl

@[simp] theorem exec_opmodeWrite (q : Requester) (n : PortNo) (v : Fin 4) (s : State) : exec (.opmodeWrite q n v) s = execOpmodeWrite q n v s :=
  rfl

@[simp] theorem exec_opmodeApply (n : PortNo) (s : State) : exec (.opmodeApply n) s = execOpmodeApply n s :=
  rfl

@[simp] theorem exec_cenStart (q : Requester) (n : PortNo) (rep : Bool) (s : State) : exec (.cenStart q n rep) s = execCenStart q n rep s :=
  rfl

@[simp] theorem exec_cenStop (q : Requester) (n : PortNo) (s : State) : exec (.cenStop q n) s = execCenStop q n s :=
  rfl

@[simp] theorem exec_sndStart (q : Requester) (n : PortNo) (s : State) : exec (.sndStart q n) s = execSndStart q n s :=
  rfl

@[simp] theorem exec_sndAbort (q : Requester) (n : PortNo) (s : State) : exec (.sndAbort q n) s = execSndAbort q n s :=
  rfl

@[simp] theorem exec_enrStart (q : Requester) (n : PortNo) (s : State) : exec (.enrStart q n) s = execEnrStart q n s :=
  rfl

@[simp] theorem exec_enrAbort (q : Requester) (n : PortNo) (s : State) : exec (.enrAbort q n) s = execEnrAbort q n s :=
  rfl

@[simp] theorem exec_capStart (q : Requester) (n : PortNo) (s : State) : exec (.capStart q n) s = execCapStart q n s :=
  rfl

@[simp] theorem exec_capStop (q : Requester) (n : PortNo) (s : State) : exec (.capStop q n) s = execCapStop q n s :=
  rfl

@[simp] theorem exec_capTrig (q : Requester) (n : PortNo) (s : State) : exec (.capTrig q n) s = execCapTrig q n s :=
  rfl

@[simp] theorem exec_obsCmdIgnored (q : Requester) (n : PortNo) (s : State) : exec (.obsCmdIgnored q n) s = execObsCmdIgnored q n s :=
  rfl

@[simp] theorem exec_soundingUnitStart (d : Fin 2) (s : State) : exec (.soundingUnitStart d) s = execSoundingUnitStart d s :=
  rfl

@[simp] theorem exec_soundingRecordDiscard (n : PortNo) (s : State) : exec (.soundingRecordDiscard n) s = execSoundingRecordDiscard n s :=
  rfl

@[simp] theorem exec_soundingAnalysisDone (n : PortNo) (recs : List (List Int)) (s : State) : exec (.soundingAnalysisDone n recs) s = execSoundingAnalysisDone n recs s :=
  rfl

@[simp] theorem exec_soundingTimeout (n : PortNo) (s : State) : exec (.soundingTimeout n) s = execSoundingTimeout n s :=
  rfl

@[simp] theorem exec_censusSlotDecision (n : PortNo) (k : Fin 32) (s : State) : exec (.censusSlotDecision n k) s = execCensusSlotDecision n k s :=
  rfl

@[simp] theorem exec_specimenPacket (n : PortNo) (p : Packet) (s : State) : exec (.specimenPacket n p) s = execSpecimenPacket n p s :=
  rfl

@[simp] theorem exec_descriptorWrite (q : Requester) (k : SlotNo) (w : Fin 8) (v : Word) (s : State) : exec (.descriptorWrite q k w v) s = execDescriptorWrite q k w v s :=
  rfl

@[simp] theorem exec_queue (q : Requester) (k : SlotNo) (s : State) : exec (.queue q k) s = execQueue q k s :=
  rfl

@[simp] theorem exec_cancel (q : Requester) (k : SlotNo) (s : State) : exec (.cancel q k) s = execCancel q k s :=
  rfl

@[simp] theorem exec_release (q : Requester) (k : SlotNo) (s : State) : exec (.release q k) s = execRelease q k s :=
  rfl

@[simp] theorem exec_abandon (q : Requester) (k : SlotNo) (s : State) : exec (.abandon q k) s = execAbandon q k s :=
  rfl

@[simp] theorem exec_doorbellIgnored (q : Requester) (k : SlotNo) (cmd : Fin 16) (s : State) : exec (.doorbellIgnored q k cmd) s = execDoorbellIgnored q k cmd s :=
  rfl

@[simp] theorem exec_portSelect (n : PortNo) (s : State) : exec (.portSelect n) s = execPortSelect n s :=
  rfl

@[simp] theorem exec_txDeadline (k : SlotNo) (s : State) : exec (.txDeadline k) s = execTxDeadline k s :=
  rfl

@[simp] theorem exec_monitorArm (q : Requester) (m : Fin 4096) (k : SlotNo) (oneshot miss : Bool) (s : State) : exec (.monitorArm q m k oneshot miss) s = execMonitorArm q m k oneshot miss s :=
  rfl

@[simp] theorem exec_monitorDeadline (m : Fin 4096) (s : State) : exec (.monitorDeadline m) s = execMonitorDeadline m s :=
  rfl

@[simp] theorem exec_fspRelayout (f : Fin 256) (s : State) : exec (.fspRelayout f) s = execFspRelayout f s :=
  rfl

@[simp] theorem exec_catalogueSearch (n : PortNo) (sof : Nat) (f : Frame) (s : State) : exec (.catalogueSearch n sof f) s = execCatalogueSearch n sof f s :=
  rfl

@[simp] theorem exec_xlCandidateComplete (n : PortNo) (f : Frame) (s : State) : exec (.xlCandidateComplete n f) s = execXlCandidateComplete n f s :=
  rfl

@[simp] theorem exec_insert (q : Requester) (t : Fin 256) (s : State) : exec (.insert q t) s = execInsert q t s :=
  rfl

@[simp] theorem exec_delete (q : Requester) (t : Fin 256) (s : State) : exec (.delete q t) s = execDelete q t s :=
  rfl

@[simp] theorem exec_replace (q : Requester) (t : Fin 256) (s : State) : exec (.replace q t) s = execReplace q t s :=
  rfl

@[simp] theorem exec_updCmdUnknown (q : Requester) (s : State) : exec (.updCmdUnknown q) s = execUpdCmdUnknown q s :=
  rfl

@[simp] theorem exec_catUpdateApply (s : State) : exec (.catUpdateApply) s = execCatUpdateApply s :=
  rfl

@[simp] theorem exec_catUpdateDone (s : State) : exec (.catUpdateDone) s = execCatUpdateDone s :=
  rfl

@[simp] theorem exec_holdoffEnd (n : PortNo) (s : State) : exec (.holdoffEnd n) s = execHoldoffEnd n s :=
  rfl

@[simp] theorem exec_recoveryComplete (n : PortNo) (s : State) : exec (.recoveryComplete n) s = execRecoveryComplete n s :=
  rfl

@[simp] theorem exec_recover (q : Requester) (n : PortNo) (s : State) : exec (.recover q n) s = execRecover q n s :=
  rfl

@[simp] theorem exec_quar (q : Requester) (n : PortNo) (s : State) : exec (.quar q n) s = execQuar q n s :=
  rfl

@[simp] theorem exec_quarantineEffect (n : PortNo) (s : State) : exec (.quarantineEffect n) s = execQuarantineEffect n s :=
  rfl

@[simp] theorem exec_slopeBucket (n : PortNo) (s : State) : exec (.slopeBucket n) s = execSlopeBucket n s :=
  rfl

@[simp] theorem exec_gatewayIngress (k : SlotNo) (s : State) : exec (.gatewayIngress k) s = execGatewayIngress k s :=
  rfl

@[simp] theorem exec_tunnelAvtpduReceived (st : Fin 64) (t : Nat) (a : Avtpdu) (s : State) : exec (.tunnelAvtpduReceived st t a) s = execTunnelAvtpduReceived st t a s :=
  rfl

@[simp] theorem exec_releaseInstant (t : Fin 200) (s : State) : exec (.releaseInstant t) s = execReleaseInstant t s :=
  rfl

@[simp] theorem exec_waitingCopySlot (l : Fin 1024) (s : State) : exec (.waitingCopySlot l) s = execWaitingCopySlot l s :=
  rfl

@[simp] theorem exec_waitingCopyExpire (l : Fin 1024) (s : State) : exec (.waitingCopyExpire l) s = execWaitingCopyExpire l s :=
  rfl

@[simp] theorem exec_breachWindowClose (t : Fin 200) (s : State) : exec (.breachWindowClose t) s = execBreachWindowClose t s :=
  rfl

@[simp] theorem exec_tunnelWindowTimeout (st : Fin 64) (s : State) : exec (.tunnelWindowTimeout st) s = execTunnelWindowTimeout st s :=
  rfl

@[simp] theorem exec_engineStart (q : Requester) (e : EngNo) (s : State) : exec (.engineStart q e) s = execEngineStart q e s :=
  rfl

@[simp] theorem exec_engineHalt (q : Requester) (e : EngNo) (s : State) : exec (.engineHalt q e) s = execEngineHalt q e s :=
  rfl

@[simp] theorem exec_engineReset (q : Requester) (e : EngNo) (s : State) : exec (.engineReset q e) s = execEngineReset q e s :=
  rfl

@[simp] theorem exec_engineCmdIgnored (q : Requester) (e : EngNo) (s : State) : exec (.engineCmdIgnored q e) s = execEngineCmdIgnored q e s :=
  rfl

@[simp] theorem exec_xfScan (e : EngNo) (size : Fin 3) (rd rs1 rs2 : Fin 32) (stop : XfStop) (s : State) : exec (.xfScan e size rd rs1 rs2 stop) s = execXfScan e size rd rs1 rs2 stop s :=
  rfl

@[simp] theorem exec_xfCopy (e : EngNo) (size : Fin 4) (rd rs1 rs2 : Fin 32) (stop : XfStop) (s : State) : exec (.xfCopy e size rd rs1 rs2 stop) s = execXfCopy e size rd rs1 rs2 stop s :=
  rfl

@[simp] theorem exec_xfCmacStep (e : EngNo) (rd rs1 rs2 : Fin 32) (stop : XfStop) (s : State) : exec (.xfCmacStep e rd rs1 rs2 stop) s = execXfCmacStep e rd rs1 rs2 stop s :=
  rfl

@[simp] theorem exec_xfCmacFin (e : EngNo) (rd rs1 rs2 : Fin 32) (stop : XfStop) (s : State) : exec (.xfCmacFin e rd rs1 rs2 stop) s = execXfCmacFin e rd rs1 rs2 stop s :=
  rfl

@[simp] theorem exec_xfPack (e : EngNo) (rd rs1 rs2 : Fin 32) (stop : XfStop) (s : State) : exec (.xfPack e rd rs1 rs2 stop) s = execXfPack e rd rs1 rs2 stop s :=
  rfl

@[simp] theorem exec_xfUnpack (e : EngNo) (rd rs1 rs2 : Fin 32) (stop : XfStop) (s : State) : exec (.xfUnpack e rd rs1 rs2 stop) s = execXfUnpack e rd rs1 rs2 stop s :=
  rfl

@[simp] theorem exec_xcclean (e : EngNo) (a : Word) (s : State) : exec (.xcclean e a) s = execXcclean e a s :=
  rfl

@[simp] theorem exec_xcflush (e : EngNo) (a : Word) (s : State) : exec (.xcflush e a) s = execXcflush e a s :=
  rfl

@[simp] theorem exec_ownershipRequest (r : RgnNo) (line : Fin 1048576) (evict : Option (Fin 64)) (reqs : List (Fin 64)) (s : State) : exec (.ownershipRequest r line evict reqs) s = execOwnershipRequest r line evict reqs s :=
  rfl

@[simp] theorem exec_timerCompare (e : EngNo) (s : State) : exec (.timerCompare e) s = execTimerCompare e s :=
  rfl

@[simp] theorem exec_cluDoorbell (q : Requester) (c : CluNo) (mask : Byte) (s : State) : exec (.cluDoorbell q c mask) s = execCluDoorbell q c mask s :=
  rfl

@[simp] theorem exec_cluDoorack (q : Requester) (c : CluNo) (mask : Byte) (s : State) : exec (.cluDoorack q c mask) s = execCluDoorack q c mask s :=
  rfl

@[simp] theorem exec_acq (q : Requester) (c : CluNo) (j : Fin 64) (s : State) : exec (.acq q c j) s = execAcq q c j s :=
  rfl

@[simp] theorem exec_tryLock (q : Requester) (c : CluNo) (j : Fin 64) (s : State) : exec (.tryLock q c j) s = execTry q c j s :=
  rfl

@[simp] theorem exec_rel (q : Requester) (c : CluNo) (j : Fin 64) (s : State) : exec (.rel q c j) s = execRel q c j s :=
  rfl

@[simp] theorem exec_fix (q : Requester) (c : CluNo) (j : Fin 64) (s : State) : exec (.fix q c j) s = execFix q c j s :=
  rfl

@[simp] theorem exec_withdraw (q : Requester) (c : CluNo) (j : Fin 64) (s : State) : exec (.withdraw q c j) s = execWithdraw q c j s :=
  rfl

@[simp] theorem exec_lockCmdIgnored (q : Requester) (c : CluNo) (j : Fin 64) (cmd : Fin 8) (s : State) : exec (.lockCmdIgnored q c j cmd) s = execLockCmdIgnored q c j cmd s :=
  rfl

@[simp] theorem exec_isramWrite (q : Requester) (c : CluNo) (k : Fin 16384) (w : Word) (s : State) : exec (.isramWrite q c k w) s = execIsramWrite q c k w s :=
  rfl

@[simp] theorem exec_oppTargetWrite (q : Requester) (r : RgnNo) (v : Fin 8) (s : State) : exec (.oppTargetWrite q r v) s = execOppTargetWrite q r v s :=
  rfl

@[simp] theorem exec_regulatorGood (r : RgnNo) (s : State) : exec (.regulatorGood r) s = execRegulatorGood r s :=
  rfl

@[simp] theorem exec_pllLockStable (r : RgnNo) (s : State) : exec (.pllLockStable r) s = execPllLockStable r s :=
  rfl

@[simp] theorem exec_pllLockTimeout (r : RgnNo) (s : State) : exec (.pllLockTimeout r) s = execPllLockTimeout r s :=
  rfl

@[simp] theorem exec_oppChangeDone (r : RgnNo) (s : State) : exec (.oppChangeDone r) s = execOppChangeDone r s :=
  rfl

@[simp] theorem exec_hallAccess (r : HallReq) (s : State) : exec (.hallAccess r) s = execHallAccess r s :=
  rfl

@[simp] theorem exec_eccWriteback (w : Fin 8388608) (s : State) : exec (.eccWriteback w) s = execEccWriteback w s :=
  rfl

@[simp] theorem exec_hallHandover (q : Requester) (u : Fin 4096) (m1 : Fin 64) (clear : Bool) (s : State) : exec (.hallHandover q u m1 clear) s = execHallHandover q u m1 clear s :=
  rfl

@[simp] theorem exec_handoverDone (s : State) : exec (.handoverDone) s = execHandoverDone s :=
  rfl

@[simp] theorem exec_hallRevoke (q : Requester) (owner dest : Fin 128) (s : State) : exec (.hallRevoke q owner dest) s = execHallRevoke q owner dest s :=
  rfl

@[simp] theorem exec_revocationDone (s : State) : exec (.revocationDone) s = execRevocationDone s :=
  rfl

@[simp] theorem exec_unitClearDone (u : Fin 4096) (s : State) : exec (.unitClearDone u) s = execUnitClearDone u s :=
  rfl

@[simp] theorem exec_testWord (h : Fin 4) (failed : Bool) (s : State) : exec (.testWord h failed) s = execTestWord h failed s :=
  rfl

@[simp] theorem exec_incLowWrite (q : Requester) (w : Word) (s : State) : exec (.incLowWrite q w) s = execIncLowWrite q w s :=
  rfl

@[simp] theorem exec_incHighWrite (q : Requester) (w : Word) (s : State) : exec (.incHighWrite q w) s = execIncHighWrite q w s :=
  rfl

@[simp] theorem exec_step (q : Requester) (s : State) : exec (.step q) s = execStep q s :=
  rfl

@[simp] theorem exec_stepForced (q : Requester) (s : State) : exec (.stepForced q) s = execStepForced q s :=
  rfl

@[simp] theorem exec_stepApply (s : State) : exec (.stepApply) s = execStepApply s :=
  rfl

@[simp] theorem exec_lock (q : Requester) (s : State) : exec (.lock q) s = execLock q s :=
  rfl

@[simp] theorem exec_unlock (q : Requester) (s : State) : exec (.unlock q) s = execUnlock q s :=
  rfl

@[simp] theorem exec_nonce (q : Requester) (s : State) : exec (.nonce q) s = execNonce q s :=
  rfl

@[simp] theorem exec_token (q : Requester) (s : State) : exec (.token q) s = execToken q s :=
  rfl

@[simp] theorem exec_timeCmdIgnored (q : Requester) (cmd : Fin 8) (s : State) : exec (.timeCmdIgnored q cmd) s = execTimeCmdIgnored q cmd s :=
  rfl

@[simp] theorem exec_syncTimeout (s : State) : exec (.syncTimeout) s = execSyncTimeout s :=
  rfl

@[simp] theorem exec_nonceExpiry (s : State) : exec (.nonceExpiry) s = execNonceExpiry s :=
  rfl

@[simp] theorem exec_trustExpiry (s : State) : exec (.trustExpiry) s = execTrustExpiry s :=
  rfl

@[simp] theorem exec_vaultTimeLoad (s : State) : exec (.vaultTimeLoad) s = execVaultTimeLoad s :=
  rfl

@[simp] theorem exec_localTimeRestore (s : State) : exec (.localTimeRestore) s = execLocalTimeRestore s :=
  rfl

@[simp] theorem exec_sourceRaise (src : SrcNo) (detail : Word) (s : State) : exec (.sourceRaise src detail) s = execSourceRaise src detail s :=
  rfl

@[simp] theorem exec_levelAssert (src : SrcNo) (s : State) : exec (.levelAssert src) s = execLevelAssert src s :=
  rfl

@[simp] theorem exec_levelDeassert (src : SrcNo) (s : State) : exec (.levelDeassert src) s = execLevelDeassert src s :=
  rfl

@[simp] theorem exec_recordDelivery (k : Fin 64) (s : State) : exec (.recordDelivery k) s = execRecordDelivery k s :=
  rfl

@[simp] theorem exec_eoi (q : Requester) (src : SrcNo) (s : State) : exec (.eoi q src) s = execEoi q src s :=
  rfl

@[simp] theorem exec_headWrite (q : Requester) (k : Fin 64) (v : Fin 131072) (s : State) : exec (.headWrite q k v) s = execHeadWrite q k v s :=
  rfl

@[simp] theorem exec_moderationExpiry (k : Fin 64) (s : State) : exec (.moderationExpiry k) s = execModerationExpiry k s :=
  rfl

@[simp] theorem exec_holdOn (q : Requester) (mx : Byte) (s : State) : exec (.holdOn q mx) s = execHoldOn q mx s :=
  rfl

@[simp] theorem exec_holdOff (q : Requester) (mx : Byte) (s : State) : exec (.holdOff q mx) s = execHoldOff q mx s :=
  rfl

@[simp] theorem exec_holdExpiry (s : State) : exec (.holdExpiry) s = execHoldExpiry s :=
  rfl

@[simp] theorem exec_rateIntervalEnd (key : Fin 4224) (s : State) : exec (.rateIntervalEnd key) s = execRateIntervalEnd key s :=
  rfl

@[simp] theorem exec_srcEnable (q : Requester) (src : Fin 2047) (en : Bool) (s : State) : exec (.srcEnable q src en) s = execSrcEnable q src en s :=
  rfl

@[simp] theorem exec_faultOccurrence (s : State) : exec (.faultOccurrence) s = execFaultOccurrence s :=
  rfl

@[simp] theorem exec_faultConditionEnd (s : State) : exec (.faultConditionEnd) s = execFaultConditionEnd s :=
  rfl

@[simp] theorem exec_clear (q : Requester) (ix : Fin 256) (s : State) : exec (.clear q ix) s = execClear q ix s :=
  rfl

@[simp] theorem exec_clearAll (q : Requester) (s : State) : exec (.clearAll q) s = execClearAll q s :=
  rfl

@[simp] theorem exec_enter (q : Requester) (s : State) : exec (.enter q) s = execEnter q s :=
  rfl

@[simp] theorem exec_reclaim (q : Requester) (st : Fin 64) (s : State) : exec (.reclaim q st) s = execReclaim q st s :=
  rfl

@[simp] theorem exec_unlockRlock (q : Requester) (s : State) : exec (.unlockRlock q) s = execUnlockRlock q s :=
  rfl

@[simp] theorem exec_returnStn (q : Requester) (st : Fin 64) (s : State) : exec (.returnStn q st) s = execReturn q st s :=
  rfl

@[simp] theorem exec_curCmdIgnored (q : Requester) (s : State) : exec (.curCmdIgnored q) s = execCurCmdIgnored q s :=
  rfl

@[simp] theorem exec_autoClear (ix : Fin 256) (s : State) : exec (.autoClear ix) s = execAutoClear ix s :=
  rfl

@[simp] theorem exec_reclaimComplete (s : State) : exec (.reclaimComplete) s = execReclaimComplete s :=
  rfl

@[simp] theorem exec_curatorSelf (corrected : Bool) (s : State) : exec (.curatorSelf corrected) s = execCuratorSelf corrected s :=
  rfl

@[simp] theorem exec_faultInject (q : Requester) (src : SrcNo) (kind : Byte) (s : State) : exec (.faultInject q src kind) s = execFaultInject q src kind s :=
  rfl

@[simp] theorem exec_vbatOkRise (s : State) : exec (.vbatOkRise) s = execVbatOkRise s :=
  rfl

@[simp] theorem exec_vbatOkFall (torn : Bool) (s : State) : exec (.vbatOkFall torn) s = execVbatOkFall torn s :=
  rfl

@[simp] theorem exec_railInWindow (ix : Fin 4) (s : State) : exec (.railInWindow ix) s = execRailInWindow ix s :=
  rfl

@[simp] theorem exec_railFailure (ix : Fin 4) (s : State) : exec (.railFailure ix) s = execRailFailure ix s :=
  rfl

@[simp] theorem exec_railRetry (s : State) : exec (.railRetry) s = execRailRetry s :=
  rfl

@[simp] theorem exec_crystalStable (s : State) : exec (.crystalStable) s = execCrystalStable s :=
  rfl

@[simp] theorem exec_clockLoss (ref lost : Bool) (s : State) : exec (.clockLoss ref lost) s = execClockLoss ref lost s :=
  rfl

@[simp] theorem exec_enterA1 (s : State) : exec (.enterA1) s = execEnterA1 s :=
  rfl

@[simp] theorem exec_enterA2 (s : State) : exec (.enterA2) s = execEnterA2 s :=
  rfl

@[simp] theorem exec_enterA3 (s : State) : exec (.enterA3) s = execEnterA3 s :=
  rfl

@[simp] theorem exec_wakeFromA1 (s : State) : exec (.wakeFromA1) s = execWakeFromA1 s :=
  rfl

@[simp] theorem exec_wakeLead (bad : List (Fin 32)) (s : State) : exec (.wakeLead bad) s = execWakeLead bad s :=
  rfl

@[simp] theorem exec_wakeSource (bad : List (Fin 32)) (s : State) : exec (.wakeSource bad) s = execWakeSource bad s :=
  rfl

@[simp] theorem exec_watchTimerDue (k : Fin 4) (s : State) : exec (.watchTimerDue k) s = execWatchTimerDue k s :=
  rfl

@[simp] theorem exec_allowWrite (q : Requester) (v : Fin 4) (s : State) : exec (.allowWrite q v) s = execAllowWrite q v s :=
  rfl

@[simp] theorem exec_hallRefresh (single double : List (Fin 8388608)) (s : State) : exec (.hallRefresh single double) s = execHallRefresh single double s :=
  rfl

@[simp] theorem exec_vbkLowWindowOpen (s : State) : exec (.vbkLowWindowOpen) s = execVbkLowWindowOpen s :=
  rfl

@[simp] theorem exec_lapseDecision (rose : Bool) (s : State) : exec (.lapseDecision rose) s = execLapseDecision rose s :=
  rfl

@[simp] theorem exec_thermalOnset (tj : Fin 1024) (s : State) : exec (.thermalOnset tj) s = execThermalOnset tj s :=
  rfl

@[simp] theorem exec_thermalEnd (tj : Fin 1024) (s : State) : exec (.thermalEnd tj) s = execThermalEnd tj s :=
  rfl

@[simp] theorem exec_laneLinkUp (l : Fin 4) (corr unc : Nat) (s : State) : exec (.laneLinkUp l corr unc) s = execLaneLinkUp l corr unc s :=
  rfl

@[simp] theorem exec_laneLinkDown (l : Fin 4) (cut fec : Bool) (corr unc : Nat) (s : State) : exec (.laneLinkDown l cut fec corr unc) s = execLaneLinkDown l cut fec corr unc s :=
  rfl

@[simp] theorem exec_streamFailback (st : Fin 64) (s : State) : exec (.streamFailback st) s = execStreamFailback st s :=
  rfl

@[simp] theorem exec_trainingRetry (l : Fin 4) (s : State) : exec (.trainingRetry l) s = execTrainingRetry l s :=
  rfl

@[simp] theorem exec_keepaliveSend (l : Fin 4) (s : State) : exec (.keepaliveSend l) s = execKeepaliveSend l s :=
  rfl

@[simp] theorem exec_laneFrameSend (l : Fin 4) (s : State) : exec (.laneFrameSend l) s = execLaneFrameSend l s :=
  rfl

@[simp] theorem exec_laneFrameReceived (l : Fin 4) (r : EthRx) (s : State) : exec (.laneFrameReceived l r) s = execLaneFrameReceived l r s :=
  rfl

@[simp] theorem exec_nativeFrameReceived (l : Fin 4) (bs : List Byte) (stamp corr : Nat) (s : State) : exec (.nativeFrameReceived l bs stamp corr) s = execNativeFrameReceived l bs stamp corr s :=
  rfl

@[simp] theorem exec_txAnWrite (q : Requester) (l an : Fin 4) (s : State) : exec (.txAnWrite q l an) s = execTxAnWrite q l an s :=
  rfl

@[simp] theorem exec_hqTxTailWrite (q : Requester) (l : Fin 4) (v : Fin 32) (s : State) : exec (.hqTxTailWrite q l v) s = execHqTxTailWrite q l v s :=
  rfl

@[simp] theorem exec_hqRxHeadWrite (q : Requester) (l : Fin 4) (v : Fin 32) (s : State) : exec (.hqRxHeadWrite q l v) s = execHqRxHeadWrite q l v s :=
  rfl

@[simp] theorem exec_pcieReset (cause : Fin 5) (s : State) : exec (.pcieReset cause) s = execPcieReset cause s :=
  rfl

@[simp] theorem exec_pcieLinkUp (speed width : Fin 8) (s : State) : exec (.pcieLinkUp speed width) s = execPcieLinkUp speed width s :=
  rfl

@[simp] theorem exec_msixUnmask (k : Fin 64) (s : State) : exec (.msixUnmask k) s = execMsixUnmask k s :=
  rfl

@[simp] theorem exec_usbBusReset (hs : Bool) (s : State) : exec (.usbBusReset hs) s = execUsbBusReset hs s :=
  rfl

@[simp] theorem exec_usbSuspend (on wake : Bool) (s : State) : exec (.usbSuspend on wake) s = execUsbSuspend on wake s :=
  rfl

@[simp] theorem exec_svcRead (r : SvcReq) (s : State) : exec (.svcRead r) s = execSvcRead r s :=
  rfl

@[simp] theorem exec_svcWrite (r : SvcReq) (ws : List Word) (s : State) : exec (.svcWrite r ws) s = execSvcWrite r ws s :=
  rfl

@[simp] theorem exec_svcChallenge (r : SvcReq) (s : State) : exec (.svcChallenge r) s = execSvcChallenge r s :=
  rfl

@[simp] theorem exec_svcUnlock (r : SvcReq) (s : State) : exec (.svcUnlock r) s = execSvcUnlock r s :=
  rfl

@[simp] theorem exec_dbgHalt (r : SvcReq) (s : State) : exec (.dbgHalt r) s = execDbgHalt r s :=
  rfl

@[simp] theorem exec_dbgStep (r : SvcReq) (s : State) : exec (.dbgStep r) s = execDbgStep r s :=
  rfl

@[simp] theorem exec_dbgResume (r : SvcReq) (s : State) : exec (.dbgResume r) s = execDbgResume r s :=
  rfl

@[simp] theorem exec_dbgReadReg (r : SvcReq) (reg : DbgReg) (s : State) : exec (.dbgReadReg r reg) s = execDbgReadReg r reg s :=
  rfl

@[simp] theorem exec_dbgWriteReg (r : SvcReq) (reg : DbgReg) (w : Word) (s : State) : exec (.dbgWriteReg r reg w) s = execDbgWriteReg r reg w s :=
  rfl

@[simp] theorem exec_dfuDetach (s : State) : exec (.dfuDetach) s = execDfuDetach s :=
  rfl

@[simp] theorem exec_relock (q : Requester) (s : State) : exec (.relock q) s = execRelock q s :=
  rfl

@[simp] theorem exec_keyWrite (q : Requester) (h : Fin 256) (checkOk : Bool) (s : State) : exec (.keyWrite q h checkOk) s = execKeyWrite q h checkOk s :=
  rfl

@[simp] theorem exec_importKey (q : Requester) (checkOk : Bool) (s : State) : exec (.importKey q checkOk) s = execImport q checkOk s :=
  rfl

@[simp] theorem exec_derive (q : Requester) (h arg : Fin 256) (s : State) : exec (.derive q h arg) s = execDerive q h arg s :=
  rfl

@[simp] theorem exec_erase (q : Requester) (h : Fin 256) (s : State) : exec (.erase q h) s = execErase q h s :=
  rfl

@[simp] theorem exec_lc (q : Requester) (arg : Byte) (s : State) : exec (.lc q arg) s = execLc q arg s :=
  rfl

@[simp] theorem exec_root (q : Requester) (s : State) : exec (.root q) s = execRoot q s :=
  rfl

@[simp] theorem exec_keyCommandDone (s : State) : exec (.keyCommandDone) s = execKeyCommandDone s :=
  rfl

@[simp] theorem exec_sign (q : Requester) (b : Fin 1024) (len : Fin 4096) (m : MramSeen) (s : State) : exec (.sign q b len m) s = execSign q b len m s :=
  rfl

@[simp] theorem exec_verify (q : Requester) (b : Fin 1024) (len : Fin 4096) (m : MramSeen) (s : State) : exec (.verify q b len m) s = execVerify q b len m s :=
  rfl

@[simp] theorem exec_inc (q : Requester) (k : Fin 64) (m : MramSeen) (s : State) : exec (.inc q k m) s = execInc q k m s :=
  rfl

@[simp] theorem exec_raise (q : Requester) (k : Fin 64) (m : MramSeen) (s : State) : exec (.raise q k m) s = execRaise q k m s :=
  rfl

@[simp] theorem exec_tlogAppend (q : Requester) (d : BitVec 64) (s : State) : exec (.tlogAppend q d) s = execTlogAppend q d s :=
  rfl

@[simp] theorem exec_tamperEvent (m : MramSeen) (s : State) : exec (.tamperEvent m) s = execTamperEvent m s :=
  rfl

@[simp] theorem exec_manifest (q : Requester) (f : FlashSeen) (s : State) : exec (.manifest q f) s = execManifest q f s :=
  rfl

@[simp] theorem exec_chunk (q : Requester) (k : Fin 256) (f : FlashSeen) (s : State) : exec (.chunk q k f) s = execChunk q k f s :=
  rfl

@[simp] theorem exec_prepare (q : Requester) (ok : Bool) (s : State) : exec (.prepare q ok) s = execPrepare q ok s :=
  rfl

@[simp] theorem exec_handover (q : Requester) (s : State) : exec (.handover q) s = execHandover q s :=
  rfl

@[simp] theorem exec_confirm (q : Requester) (m : MramSeen) (s : State) : exec (.confirm q m) s = execConfirm q m s :=
  rfl

@[simp] theorem exec_fallback (q : Requester) (stuck : List EngNo) (s : State) : exec (.fallback q stuck) s = execFallback q stuck s :=
  rfl

@[simp] theorem exec_discard (q : Requester) (s : State) : exec (.discard q) s = execDiscard q s :=
  rfl

@[simp] theorem exec_updCmdIgnored (q : Requester) (code : Fin 16) (arg : Byte) (s : State) : exec (.updCmdIgnored q code arg) s = execUpdCmdIgnored q code arg s :=
  rfl

@[simp] theorem exec_updCommandDone (s : State) : exec (.updCommandDone) s = execUpdCommandDone s :=
  rfl

@[simp] theorem exec_chrysalisDeadline (stuck : List (Fin 64)) (s : State) : exec (.chrysalisDeadline stuck) s = execChrysalisDeadline stuck s :=
  rfl

@[simp] theorem exec_handoverCodeLoad (s : State) : exec (.handoverCodeLoad) s = execHandoverCodeLoad s :=
  rfl

@[simp] theorem exec_trialJournal (s : State) : exec (.trialJournal) s = execTrialJournal s :=
  rfl

@[simp] theorem exec_trialExpiry (stuck : List EngNo) (s : State) : exec (.trialExpiry stuck) s = execTrialExpiry stuck s :=
  rfl

@[simp] theorem exec_updateBoot (stuck : List EngNo) (s : State) : exec (.updateBoot stuck) s = execUpdateBoot stuck s :=
  rfl

@[simp] theorem exec_dfuDnload (n : Fin 65536) (bs : List Byte) (f : FlashSeen) (s : State) : exec (.dfuDnload n bs f) s = execDfuDnload n bs f s :=
  rfl

@[simp] theorem exec_dfuDnloadEnd (rcvr : Bool) (bad : List (Fin 32)) (s : State) : exec (.dfuDnloadEnd rcvr bad) s = execDfuDnloadEnd rcvr bad s :=
  rfl

@[simp] theorem exec_agreeSend (s : State) : exec (.agreeSend) s = execAgreeSend s :=
  rfl

@[simp] theorem exec_agreeReceive (p : Fin 8) (a : Agree) (t3 t4 c2 : Nat) (s : State) : exec (.agreeReceive p a t3 t4 c2) s = execAgreeReceive p a t3 t4 c2 s :=
  rfl

@[simp] theorem exec_peerSilence (p : Fin 8) (s : State) : exec (.peerSilence p) s = execPeerSilence p s :=
  rfl

@[simp] theorem exec_thetaStale (s : State) : exec (.thetaStale) s = execThetaStale s :=
  rfl

@[simp] theorem exec_noticeReceive (ix j kind : Fin 8) (t : Nat) (s : State) : exec (.noticeReceive ix j kind t) s = execNoticeReceive ix j kind t s :=
  rfl

@[simp] theorem exec_frameMessageReceive (m : FrameMsg) (s : State) : exec (.frameMessageReceive m) s = execFrameMessageReceive m s :=
  rfl

@[simp] theorem exec_powerOnReset (rcvr : Bool) (bad : List (Fin 32)) (s : State) : exec (.powerOnReset rcvr bad) s = execPowerOnReset rcvr bad s :=
  rfl

@[simp] theorem exec_packageReset (bad : List (Fin 32)) (s : State) : exec (.packageReset bad) s = execPackageReset bad s :=
  rfl

@[simp] theorem exec_resetRelease (rcvr : Bool) (s : State) : exec (.resetRelease rcvr) s = execResetRelease rcvr s :=
  rfl

@[simp] theorem exec_vbatLowChange (v : Byte) (s : State) : exec (.vbatLowChange v) s = execVbatLowChange v s :=
  rfl

@[simp] theorem exec_vbkLowChange (v : Byte) (s : State) : exec (.vbkLowChange v) s = execVbkLowChange v s :=
  rfl

@[simp] theorem exec_railWindowLoss (ix : Fin 4) (inside : Bool) (s : State) : exec (.railWindowLoss ix inside) s = execRailWindowLoss ix inside s :=
  rfl

@[simp] theorem exec_wfi (e : EngNo) (s : State) : exec (.wfi e) s = execWfi e s :=
  rfl

@[simp] theorem exec_mret (e : EngNo) (s : State) : exec (.mret e) s = execMret e s :=
  rfl

@[simp] theorem exec_usbVbusChange (on : Bool) (s : State) : exec (.usbVbusChange on) s = execUsbVbusChange on s :=
  rfl

@[simp] theorem exec_pcieL2Entry (s : State) : exec (.pcieL2Entry) s = execPcieL2Entry s :=
  rfl

@[simp] theorem exec_tamperRearm (s : State) : exec (.tamperRearm) s = execTamperRearm s :=
  rfl

end Sys2Proof.Machine
end

