-- ==== Sys2Proof/Laws/State.lean ====
section
/-! SUPPORT. One lemma for each field of `State` and each of its updates, and what registers read after an update of any
other field: no later proof unfolds a record update. -/

namespace Sys2Proof.Machine

/-! ## Registers after an update of another field -/

/-- A field of a register table by itself. -/
def regsGet (r : SMap Word) (l : Loc) : Nat := State.get { regs := r } l

/-- A flag of a register table by itself. -/
def regsFlag (r : SMap Word) (l : Loc) : Bool := State.flag { regs := r } l

@[simp] theorem State.smapFind_regs (s : State) (a : Nat) : smapFind resetWord s.regs a = s.word a := rfl
@[simp] theorem State.regsGet_regs (s : State) (l : Loc) : regsGet s.regs l = s.get l := rfl
@[simp] theorem State.regsFlag_regs (s : State) (l : Loc) : regsFlag s.regs l = s.flag l := rfl

section

variable (regs : SMap Word) (mem : List Host.Cell) (pending : List Instr) (led : Ledger) (cur : Curator) (time : TimeUnit)
  (pwr : Power) (ports : SMap Port) (obs : Obs) (links : SMap DieLink) (gov : SMap Governor) (store : Store) (cat : Catalogue)
  (gw : Gateway) (spine : Spine) (con : Con) (cores : Cores) (halls : Halls) (img : Image) (upd : Update) (vault : Vault)
  (latches : SMap (Option (Nat × Word))) (resp : Option Resp) (out : List Output)

@[simp] theorem State.word_mk (a : Nat) :
    State.word (State.mk regs mem pending led cur time pwr ports obs links gov store cat gw spine con cores halls img upd vault latches resp out) a = smapFind resetWord regs a := rfl

@[simp] theorem State.get_mk (l : Loc) :
    State.get (State.mk regs mem pending led cur time pwr ports obs links gov store cat gw spine con cores halls img upd vault latches resp out) l = regsGet regs l := rfl

@[simp] theorem State.flag_mk (l : Loc) :
    State.flag (State.mk regs mem pending led cur time pwr ports obs links gov store cat gw spine con cores halls img upd vault latches resp out) l = regsFlag regs l := rfl

@[simp] theorem State.byte_mk (a : Nat) :
    State.byte (State.mk regs mem pending led cur time pwr ports obs links gov store cat gw spine con cores halls img upd vault latches resp out) a = smapFind memDefault mem a := rfl

end

@[simp] theorem State.smapFind_mem (s : State) (a : Nat) : smapFind memDefault s.mem a = s.byte a := rfl

/-! ## Other fields after a register write -/

@[simp] theorem State.setWord_mem (s : State) (a : Nat) (w : Word) : (s.setWord a w).mem = s.mem := rfl
@[simp] theorem State.setWord_pending (s : State) (a : Nat) (w : Word) : (s.setWord a w).pending = s.pending := rfl
@[simp] theorem State.setWord_led (s : State) (a : Nat) (w : Word) : (s.setWord a w).led = s.led := rfl
@[simp] theorem State.setWord_cur (s : State) (a : Nat) (w : Word) : (s.setWord a w).cur = s.cur := rfl
@[simp] theorem State.setWord_time (s : State) (a : Nat) (w : Word) : (s.setWord a w).time = s.time := rfl
@[simp] theorem State.setWord_pwr (s : State) (a : Nat) (w : Word) : (s.setWord a w).pwr = s.pwr := rfl
@[simp] theorem State.setWord_ports (s : State) (a : Nat) (w : Word) : (s.setWord a w).ports = s.ports := rfl
@[simp] theorem State.setWord_obs (s : State) (a : Nat) (w : Word) : (s.setWord a w).obs = s.obs := rfl
@[simp] theorem State.setWord_links (s : State) (a : Nat) (w : Word) : (s.setWord a w).links = s.links := rfl
@[simp] theorem State.setWord_gov (s : State) (a : Nat) (w : Word) : (s.setWord a w).gov = s.gov := rfl
@[simp] theorem State.setWord_store (s : State) (a : Nat) (w : Word) : (s.setWord a w).store = s.store := rfl
@[simp] theorem State.setWord_cat (s : State) (a : Nat) (w : Word) : (s.setWord a w).cat = s.cat := rfl
@[simp] theorem State.setWord_gw (s : State) (a : Nat) (w : Word) : (s.setWord a w).gw = s.gw := rfl
@[simp] theorem State.setWord_spine (s : State) (a : Nat) (w : Word) : (s.setWord a w).spine = s.spine := rfl
@[simp] theorem State.setWord_con (s : State) (a : Nat) (w : Word) : (s.setWord a w).con = s.con := rfl
@[simp] theorem State.setWord_cores (s : State) (a : Nat) (w : Word) : (s.setWord a w).cores = s.cores := rfl
@[simp] theorem State.setWord_halls (s : State) (a : Nat) (w : Word) : (s.setWord a w).halls = s.halls := rfl
@[simp] theorem State.setWord_img (s : State) (a : Nat) (w : Word) : (s.setWord a w).img = s.img := rfl
@[simp] theorem State.setWord_upd (s : State) (a : Nat) (w : Word) : (s.setWord a w).upd = s.upd := rfl
@[simp] theorem State.setWord_vault (s : State) (a : Nat) (w : Word) : (s.setWord a w).vault = s.vault := rfl
@[simp] theorem State.setWord_latches (s : State) (a : Nat) (w : Word) : (s.setWord a w).latches = s.latches := rfl
@[simp] theorem State.setWord_resp (s : State) (a : Nat) (w : Word) : (s.setWord a w).resp = s.resp := rfl
@[simp] theorem State.setWord_out (s : State) (a : Nat) (w : Word) : (s.setWord a w).out = s.out := rfl

@[simp] theorem State.setWord64_mem (s : State) (a : Nat) (w : BitVec 64) : (s.setWord64 a w).mem = s.mem := by
  unfold State.setWord64; rw [State.setWord_mem, State.setWord_mem]
@[simp] theorem State.setWord64_pending (s : State) (a : Nat) (w : BitVec 64) : (s.setWord64 a w).pending = s.pending := by
  unfold State.setWord64; rw [State.setWord_pending, State.setWord_pending]
@[simp] theorem State.setWord64_led (s : State) (a : Nat) (w : BitVec 64) : (s.setWord64 a w).led = s.led := by
  unfold State.setWord64; rw [State.setWord_led, State.setWord_led]
@[simp] theorem State.setWord64_cur (s : State) (a : Nat) (w : BitVec 64) : (s.setWord64 a w).cur = s.cur := by
  unfold State.setWord64; rw [State.setWord_cur, State.setWord_cur]
@[simp] theorem State.setWord64_time (s : State) (a : Nat) (w : BitVec 64) : (s.setWord64 a w).time = s.time := by
  unfold State.setWord64; rw [State.setWord_time, State.setWord_time]
@[simp] theorem State.setWord64_pwr (s : State) (a : Nat) (w : BitVec 64) : (s.setWord64 a w).pwr = s.pwr := by
  unfold State.setWord64; rw [State.setWord_pwr, State.setWord_pwr]
@[simp] theorem State.setWord64_ports (s : State) (a : Nat) (w : BitVec 64) : (s.setWord64 a w).ports = s.ports := by
  unfold State.setWord64; rw [State.setWord_ports, State.setWord_ports]
@[simp] theorem State.setWord64_obs (s : State) (a : Nat) (w : BitVec 64) : (s.setWord64 a w).obs = s.obs := by
  unfold State.setWord64; rw [State.setWord_obs, State.setWord_obs]
@[simp] theorem State.setWord64_links (s : State) (a : Nat) (w : BitVec 64) : (s.setWord64 a w).links = s.links := by
  unfold State.setWord64; rw [State.setWord_links, State.setWord_links]
@[simp] theorem State.setWord64_gov (s : State) (a : Nat) (w : BitVec 64) : (s.setWord64 a w).gov = s.gov := by
  unfold State.setWord64; rw [State.setWord_gov, State.setWord_gov]
@[simp] theorem State.setWord64_store (s : State) (a : Nat) (w : BitVec 64) : (s.setWord64 a w).store = s.store := by
  unfold State.setWord64; rw [State.setWord_store, State.setWord_store]
@[simp] theorem State.setWord64_cat (s : State) (a : Nat) (w : BitVec 64) : (s.setWord64 a w).cat = s.cat := by
  unfold State.setWord64; rw [State.setWord_cat, State.setWord_cat]
@[simp] theorem State.setWord64_gw (s : State) (a : Nat) (w : BitVec 64) : (s.setWord64 a w).gw = s.gw := by
  unfold State.setWord64; rw [State.setWord_gw, State.setWord_gw]
@[simp] theorem State.setWord64_spine (s : State) (a : Nat) (w : BitVec 64) : (s.setWord64 a w).spine = s.spine := by
  unfold State.setWord64; rw [State.setWord_spine, State.setWord_spine]
@[simp] theorem State.setWord64_con (s : State) (a : Nat) (w : BitVec 64) : (s.setWord64 a w).con = s.con := by
  unfold State.setWord64; rw [State.setWord_con, State.setWord_con]
@[simp] theorem State.setWord64_cores (s : State) (a : Nat) (w : BitVec 64) : (s.setWord64 a w).cores = s.cores := by
  unfold State.setWord64; rw [State.setWord_cores, State.setWord_cores]
@[simp] theorem State.setWord64_halls (s : State) (a : Nat) (w : BitVec 64) : (s.setWord64 a w).halls = s.halls := by
  unfold State.setWord64; rw [State.setWord_halls, State.setWord_halls]
@[simp] theorem State.setWord64_img (s : State) (a : Nat) (w : BitVec 64) : (s.setWord64 a w).img = s.img := by
  unfold State.setWord64; rw [State.setWord_img, State.setWord_img]
@[simp] theorem State.setWord64_upd (s : State) (a : Nat) (w : BitVec 64) : (s.setWord64 a w).upd = s.upd := by
  unfold State.setWord64; rw [State.setWord_upd, State.setWord_upd]
@[simp] theorem State.setWord64_vault (s : State) (a : Nat) (w : BitVec 64) : (s.setWord64 a w).vault = s.vault := by
  unfold State.setWord64; rw [State.setWord_vault, State.setWord_vault]
@[simp] theorem State.setWord64_latches (s : State) (a : Nat) (w : BitVec 64) : (s.setWord64 a w).latches = s.latches := by
  unfold State.setWord64; rw [State.setWord_latches, State.setWord_latches]
@[simp] theorem State.setWord64_resp (s : State) (a : Nat) (w : BitVec 64) : (s.setWord64 a w).resp = s.resp := by
  unfold State.setWord64; rw [State.setWord_resp, State.setWord_resp]
@[simp] theorem State.setWord64_out (s : State) (a : Nat) (w : BitVec 64) : (s.setWord64 a w).out = s.out := by
  unfold State.setWord64; rw [State.setWord_out, State.setWord_out]

@[simp] theorem State.setStamp_mem (s : State) (a t : Nat) : (s.setStamp a t).mem = s.mem := by
  unfold State.setStamp; rw [State.setWord64_mem]
@[simp] theorem State.setStamp_pending (s : State) (a t : Nat) : (s.setStamp a t).pending = s.pending := by
  unfold State.setStamp; rw [State.setWord64_pending]
@[simp] theorem State.setStamp_led (s : State) (a t : Nat) : (s.setStamp a t).led = s.led := by
  unfold State.setStamp; rw [State.setWord64_led]
@[simp] theorem State.setStamp_cur (s : State) (a t : Nat) : (s.setStamp a t).cur = s.cur := by
  unfold State.setStamp; rw [State.setWord64_cur]
@[simp] theorem State.setStamp_time (s : State) (a t : Nat) : (s.setStamp a t).time = s.time := by
  unfold State.setStamp; rw [State.setWord64_time]
@[simp] theorem State.setStamp_pwr (s : State) (a t : Nat) : (s.setStamp a t).pwr = s.pwr := by
  unfold State.setStamp; rw [State.setWord64_pwr]
@[simp] theorem State.setStamp_ports (s : State) (a t : Nat) : (s.setStamp a t).ports = s.ports := by
  unfold State.setStamp; rw [State.setWord64_ports]
@[simp] theorem State.setStamp_obs (s : State) (a t : Nat) : (s.setStamp a t).obs = s.obs := by
  unfold State.setStamp; rw [State.setWord64_obs]
@[simp] theorem State.setStamp_links (s : State) (a t : Nat) : (s.setStamp a t).links = s.links := by
  unfold State.setStamp; rw [State.setWord64_links]
@[simp] theorem State.setStamp_gov (s : State) (a t : Nat) : (s.setStamp a t).gov = s.gov := by
  unfold State.setStamp; rw [State.setWord64_gov]
@[simp] theorem State.setStamp_store (s : State) (a t : Nat) : (s.setStamp a t).store = s.store := by
  unfold State.setStamp; rw [State.setWord64_store]
@[simp] theorem State.setStamp_cat (s : State) (a t : Nat) : (s.setStamp a t).cat = s.cat := by
  unfold State.setStamp; rw [State.setWord64_cat]
@[simp] theorem State.setStamp_gw (s : State) (a t : Nat) : (s.setStamp a t).gw = s.gw := by
  unfold State.setStamp; rw [State.setWord64_gw]
@[simp] theorem State.setStamp_spine (s : State) (a t : Nat) : (s.setStamp a t).spine = s.spine := by
  unfold State.setStamp; rw [State.setWord64_spine]
@[simp] theorem State.setStamp_con (s : State) (a t : Nat) : (s.setStamp a t).con = s.con := by
  unfold State.setStamp; rw [State.setWord64_con]
@[simp] theorem State.setStamp_cores (s : State) (a t : Nat) : (s.setStamp a t).cores = s.cores := by
  unfold State.setStamp; rw [State.setWord64_cores]
@[simp] theorem State.setStamp_halls (s : State) (a t : Nat) : (s.setStamp a t).halls = s.halls := by
  unfold State.setStamp; rw [State.setWord64_halls]
@[simp] theorem State.setStamp_img (s : State) (a t : Nat) : (s.setStamp a t).img = s.img := by
  unfold State.setStamp; rw [State.setWord64_img]
@[simp] theorem State.setStamp_upd (s : State) (a t : Nat) : (s.setStamp a t).upd = s.upd := by
  unfold State.setStamp; rw [State.setWord64_upd]
@[simp] theorem State.setStamp_vault (s : State) (a t : Nat) : (s.setStamp a t).vault = s.vault := by
  unfold State.setStamp; rw [State.setWord64_vault]
@[simp] theorem State.setStamp_latches (s : State) (a t : Nat) : (s.setStamp a t).latches = s.latches := by
  unfold State.setStamp; rw [State.setWord64_latches]
@[simp] theorem State.setStamp_resp (s : State) (a t : Nat) : (s.setStamp a t).resp = s.resp := by
  unfold State.setStamp; rw [State.setWord64_resp]
@[simp] theorem State.setStamp_out (s : State) (a t : Nat) : (s.setStamp a t).out = s.out := by
  unfold State.setStamp; rw [State.setWord64_out]

@[simp] theorem State.set_mem (s : State) (l : Loc) (v : Nat) : (s.set l v).mem = s.mem := by
  unfold State.set; split
  · rw [State.setWord_mem]
  · rw [State.setWord64_mem]
@[simp] theorem State.set_pending (s : State) (l : Loc) (v : Nat) : (s.set l v).pending = s.pending := by
  unfold State.set; split
  · rw [State.setWord_pending]
  · rw [State.setWord64_pending]
@[simp] theorem State.set_led (s : State) (l : Loc) (v : Nat) : (s.set l v).led = s.led := by
  unfold State.set; split
  · rw [State.setWord_led]
  · rw [State.setWord64_led]
@[simp] theorem State.set_cur (s : State) (l : Loc) (v : Nat) : (s.set l v).cur = s.cur := by
  unfold State.set; split
  · rw [State.setWord_cur]
  · rw [State.setWord64_cur]
@[simp] theorem State.set_time (s : State) (l : Loc) (v : Nat) : (s.set l v).time = s.time := by
  unfold State.set; split
  · rw [State.setWord_time]
  · rw [State.setWord64_time]
@[simp] theorem State.set_pwr (s : State) (l : Loc) (v : Nat) : (s.set l v).pwr = s.pwr := by
  unfold State.set; split
  · rw [State.setWord_pwr]
  · rw [State.setWord64_pwr]
@[simp] theorem State.set_ports (s : State) (l : Loc) (v : Nat) : (s.set l v).ports = s.ports := by
  unfold State.set; split
  · rw [State.setWord_ports]
  · rw [State.setWord64_ports]
@[simp] theorem State.set_obs (s : State) (l : Loc) (v : Nat) : (s.set l v).obs = s.obs := by
  unfold State.set; split
  · rw [State.setWord_obs]
  · rw [State.setWord64_obs]
@[simp] theorem State.set_links (s : State) (l : Loc) (v : Nat) : (s.set l v).links = s.links := by
  unfold State.set; split
  · rw [State.setWord_links]
  · rw [State.setWord64_links]
@[simp] theorem State.set_gov (s : State) (l : Loc) (v : Nat) : (s.set l v).gov = s.gov := by
  unfold State.set; split
  · rw [State.setWord_gov]
  · rw [State.setWord64_gov]
@[simp] theorem State.set_store (s : State) (l : Loc) (v : Nat) : (s.set l v).store = s.store := by
  unfold State.set; split
  · rw [State.setWord_store]
  · rw [State.setWord64_store]
@[simp] theorem State.set_cat (s : State) (l : Loc) (v : Nat) : (s.set l v).cat = s.cat := by
  unfold State.set; split
  · rw [State.setWord_cat]
  · rw [State.setWord64_cat]
@[simp] theorem State.set_gw (s : State) (l : Loc) (v : Nat) : (s.set l v).gw = s.gw := by
  unfold State.set; split
  · rw [State.setWord_gw]
  · rw [State.setWord64_gw]
@[simp] theorem State.set_spine (s : State) (l : Loc) (v : Nat) : (s.set l v).spine = s.spine := by
  unfold State.set; split
  · rw [State.setWord_spine]
  · rw [State.setWord64_spine]
@[simp] theorem State.set_con (s : State) (l : Loc) (v : Nat) : (s.set l v).con = s.con := by
  unfold State.set; split
  · rw [State.setWord_con]
  · rw [State.setWord64_con]
@[simp] theorem State.set_cores (s : State) (l : Loc) (v : Nat) : (s.set l v).cores = s.cores := by
  unfold State.set; split
  · rw [State.setWord_cores]
  · rw [State.setWord64_cores]
@[simp] theorem State.set_halls (s : State) (l : Loc) (v : Nat) : (s.set l v).halls = s.halls := by
  unfold State.set; split
  · rw [State.setWord_halls]
  · rw [State.setWord64_halls]
@[simp] theorem State.set_img (s : State) (l : Loc) (v : Nat) : (s.set l v).img = s.img := by
  unfold State.set; split
  · rw [State.setWord_img]
  · rw [State.setWord64_img]
@[simp] theorem State.set_upd (s : State) (l : Loc) (v : Nat) : (s.set l v).upd = s.upd := by
  unfold State.set; split
  · rw [State.setWord_upd]
  · rw [State.setWord64_upd]
@[simp] theorem State.set_vault (s : State) (l : Loc) (v : Nat) : (s.set l v).vault = s.vault := by
  unfold State.set; split
  · rw [State.setWord_vault]
  · rw [State.setWord64_vault]
@[simp] theorem State.set_latches (s : State) (l : Loc) (v : Nat) : (s.set l v).latches = s.latches := by
  unfold State.set; split
  · rw [State.setWord_latches]
  · rw [State.setWord64_latches]
@[simp] theorem State.set_resp (s : State) (l : Loc) (v : Nat) : (s.set l v).resp = s.resp := by
  unfold State.set; split
  · rw [State.setWord_resp]
  · rw [State.setWord64_resp]
@[simp] theorem State.set_out (s : State) (l : Loc) (v : Nat) : (s.set l v).out = s.out := by
  unfold State.set; split
  · rw [State.setWord_out]
  · rw [State.setWord64_out]

@[simp] theorem State.put_mem (s : State) (l : Loc) (b : Bool) : (s.put l b).mem = s.mem := by
  unfold State.put; rw [State.set_mem]
@[simp] theorem State.put_pending (s : State) (l : Loc) (b : Bool) : (s.put l b).pending = s.pending := by
  unfold State.put; rw [State.set_pending]
@[simp] theorem State.put_led (s : State) (l : Loc) (b : Bool) : (s.put l b).led = s.led := by
  unfold State.put; rw [State.set_led]
@[simp] theorem State.put_cur (s : State) (l : Loc) (b : Bool) : (s.put l b).cur = s.cur := by
  unfold State.put; rw [State.set_cur]
@[simp] theorem State.put_time (s : State) (l : Loc) (b : Bool) : (s.put l b).time = s.time := by
  unfold State.put; rw [State.set_time]
@[simp] theorem State.put_pwr (s : State) (l : Loc) (b : Bool) : (s.put l b).pwr = s.pwr := by
  unfold State.put; rw [State.set_pwr]
@[simp] theorem State.put_ports (s : State) (l : Loc) (b : Bool) : (s.put l b).ports = s.ports := by
  unfold State.put; rw [State.set_ports]
@[simp] theorem State.put_obs (s : State) (l : Loc) (b : Bool) : (s.put l b).obs = s.obs := by
  unfold State.put; rw [State.set_obs]
@[simp] theorem State.put_links (s : State) (l : Loc) (b : Bool) : (s.put l b).links = s.links := by
  unfold State.put; rw [State.set_links]
@[simp] theorem State.put_gov (s : State) (l : Loc) (b : Bool) : (s.put l b).gov = s.gov := by
  unfold State.put; rw [State.set_gov]
@[simp] theorem State.put_store (s : State) (l : Loc) (b : Bool) : (s.put l b).store = s.store := by
  unfold State.put; rw [State.set_store]
@[simp] theorem State.put_cat (s : State) (l : Loc) (b : Bool) : (s.put l b).cat = s.cat := by
  unfold State.put; rw [State.set_cat]
@[simp] theorem State.put_gw (s : State) (l : Loc) (b : Bool) : (s.put l b).gw = s.gw := by
  unfold State.put; rw [State.set_gw]
@[simp] theorem State.put_spine (s : State) (l : Loc) (b : Bool) : (s.put l b).spine = s.spine := by
  unfold State.put; rw [State.set_spine]
@[simp] theorem State.put_con (s : State) (l : Loc) (b : Bool) : (s.put l b).con = s.con := by
  unfold State.put; rw [State.set_con]
@[simp] theorem State.put_cores (s : State) (l : Loc) (b : Bool) : (s.put l b).cores = s.cores := by
  unfold State.put; rw [State.set_cores]
@[simp] theorem State.put_halls (s : State) (l : Loc) (b : Bool) : (s.put l b).halls = s.halls := by
  unfold State.put; rw [State.set_halls]
@[simp] theorem State.put_img (s : State) (l : Loc) (b : Bool) : (s.put l b).img = s.img := by
  unfold State.put; rw [State.set_img]
@[simp] theorem State.put_upd (s : State) (l : Loc) (b : Bool) : (s.put l b).upd = s.upd := by
  unfold State.put; rw [State.set_upd]
@[simp] theorem State.put_vault (s : State) (l : Loc) (b : Bool) : (s.put l b).vault = s.vault := by
  unfold State.put; rw [State.set_vault]
@[simp] theorem State.put_latches (s : State) (l : Loc) (b : Bool) : (s.put l b).latches = s.latches := by
  unfold State.put; rw [State.set_latches]
@[simp] theorem State.put_resp (s : State) (l : Loc) (b : Bool) : (s.put l b).resp = s.resp := by
  unfold State.put; rw [State.set_resp]
@[simp] theorem State.put_out (s : State) (l : Loc) (b : Bool) : (s.put l b).out = s.out := by
  unfold State.put; rw [State.set_out]

@[simp] theorem State.add_mem (s : State) (l : Loc) (k : Nat) : (s.add l k).mem = s.mem := by
  unfold State.add; rw [State.set_mem]
@[simp] theorem State.add_pending (s : State) (l : Loc) (k : Nat) : (s.add l k).pending = s.pending := by
  unfold State.add; rw [State.set_pending]
@[simp] theorem State.add_led (s : State) (l : Loc) (k : Nat) : (s.add l k).led = s.led := by
  unfold State.add; rw [State.set_led]
@[simp] theorem State.add_cur (s : State) (l : Loc) (k : Nat) : (s.add l k).cur = s.cur := by
  unfold State.add; rw [State.set_cur]
@[simp] theorem State.add_time (s : State) (l : Loc) (k : Nat) : (s.add l k).time = s.time := by
  unfold State.add; rw [State.set_time]
@[simp] theorem State.add_pwr (s : State) (l : Loc) (k : Nat) : (s.add l k).pwr = s.pwr := by
  unfold State.add; rw [State.set_pwr]
@[simp] theorem State.add_ports (s : State) (l : Loc) (k : Nat) : (s.add l k).ports = s.ports := by
  unfold State.add; rw [State.set_ports]
@[simp] theorem State.add_obs (s : State) (l : Loc) (k : Nat) : (s.add l k).obs = s.obs := by
  unfold State.add; rw [State.set_obs]
@[simp] theorem State.add_links (s : State) (l : Loc) (k : Nat) : (s.add l k).links = s.links := by
  unfold State.add; rw [State.set_links]
@[simp] theorem State.add_gov (s : State) (l : Loc) (k : Nat) : (s.add l k).gov = s.gov := by
  unfold State.add; rw [State.set_gov]
@[simp] theorem State.add_store (s : State) (l : Loc) (k : Nat) : (s.add l k).store = s.store := by
  unfold State.add; rw [State.set_store]
@[simp] theorem State.add_cat (s : State) (l : Loc) (k : Nat) : (s.add l k).cat = s.cat := by
  unfold State.add; rw [State.set_cat]
@[simp] theorem State.add_gw (s : State) (l : Loc) (k : Nat) : (s.add l k).gw = s.gw := by
  unfold State.add; rw [State.set_gw]
@[simp] theorem State.add_spine (s : State) (l : Loc) (k : Nat) : (s.add l k).spine = s.spine := by
  unfold State.add; rw [State.set_spine]
@[simp] theorem State.add_con (s : State) (l : Loc) (k : Nat) : (s.add l k).con = s.con := by
  unfold State.add; rw [State.set_con]
@[simp] theorem State.add_cores (s : State) (l : Loc) (k : Nat) : (s.add l k).cores = s.cores := by
  unfold State.add; rw [State.set_cores]
@[simp] theorem State.add_halls (s : State) (l : Loc) (k : Nat) : (s.add l k).halls = s.halls := by
  unfold State.add; rw [State.set_halls]
@[simp] theorem State.add_img (s : State) (l : Loc) (k : Nat) : (s.add l k).img = s.img := by
  unfold State.add; rw [State.set_img]
@[simp] theorem State.add_upd (s : State) (l : Loc) (k : Nat) : (s.add l k).upd = s.upd := by
  unfold State.add; rw [State.set_upd]
@[simp] theorem State.add_vault (s : State) (l : Loc) (k : Nat) : (s.add l k).vault = s.vault := by
  unfold State.add; rw [State.set_vault]
@[simp] theorem State.add_latches (s : State) (l : Loc) (k : Nat) : (s.add l k).latches = s.latches := by
  unfold State.add; rw [State.set_latches]
@[simp] theorem State.add_resp (s : State) (l : Loc) (k : Nat) : (s.add l k).resp = s.resp := by
  unfold State.add; rw [State.set_resp]
@[simp] theorem State.add_out (s : State) (l : Loc) (k : Nat) : (s.add l k).out = s.out := by
  unfold State.add; rw [State.set_out]

@[simp] theorem State.inc_mem (s : State) (l : Loc) : (s.inc l).mem = s.mem := by
  unfold State.inc; rw [State.add_mem]
@[simp] theorem State.inc_pending (s : State) (l : Loc) : (s.inc l).pending = s.pending := by
  unfold State.inc; rw [State.add_pending]
@[simp] theorem State.inc_led (s : State) (l : Loc) : (s.inc l).led = s.led := by
  unfold State.inc; rw [State.add_led]
@[simp] theorem State.inc_cur (s : State) (l : Loc) : (s.inc l).cur = s.cur := by
  unfold State.inc; rw [State.add_cur]
@[simp] theorem State.inc_time (s : State) (l : Loc) : (s.inc l).time = s.time := by
  unfold State.inc; rw [State.add_time]
@[simp] theorem State.inc_pwr (s : State) (l : Loc) : (s.inc l).pwr = s.pwr := by
  unfold State.inc; rw [State.add_pwr]
@[simp] theorem State.inc_ports (s : State) (l : Loc) : (s.inc l).ports = s.ports := by
  unfold State.inc; rw [State.add_ports]
@[simp] theorem State.inc_obs (s : State) (l : Loc) : (s.inc l).obs = s.obs := by
  unfold State.inc; rw [State.add_obs]
@[simp] theorem State.inc_links (s : State) (l : Loc) : (s.inc l).links = s.links := by
  unfold State.inc; rw [State.add_links]
@[simp] theorem State.inc_gov (s : State) (l : Loc) : (s.inc l).gov = s.gov := by
  unfold State.inc; rw [State.add_gov]
@[simp] theorem State.inc_store (s : State) (l : Loc) : (s.inc l).store = s.store := by
  unfold State.inc; rw [State.add_store]
@[simp] theorem State.inc_cat (s : State) (l : Loc) : (s.inc l).cat = s.cat := by
  unfold State.inc; rw [State.add_cat]
@[simp] theorem State.inc_gw (s : State) (l : Loc) : (s.inc l).gw = s.gw := by
  unfold State.inc; rw [State.add_gw]
@[simp] theorem State.inc_spine (s : State) (l : Loc) : (s.inc l).spine = s.spine := by
  unfold State.inc; rw [State.add_spine]
@[simp] theorem State.inc_con (s : State) (l : Loc) : (s.inc l).con = s.con := by
  unfold State.inc; rw [State.add_con]
@[simp] theorem State.inc_cores (s : State) (l : Loc) : (s.inc l).cores = s.cores := by
  unfold State.inc; rw [State.add_cores]
@[simp] theorem State.inc_halls (s : State) (l : Loc) : (s.inc l).halls = s.halls := by
  unfold State.inc; rw [State.add_halls]
@[simp] theorem State.inc_img (s : State) (l : Loc) : (s.inc l).img = s.img := by
  unfold State.inc; rw [State.add_img]
@[simp] theorem State.inc_upd (s : State) (l : Loc) : (s.inc l).upd = s.upd := by
  unfold State.inc; rw [State.add_upd]
@[simp] theorem State.inc_vault (s : State) (l : Loc) : (s.inc l).vault = s.vault := by
  unfold State.inc; rw [State.add_vault]
@[simp] theorem State.inc_latches (s : State) (l : Loc) : (s.inc l).latches = s.latches := by
  unfold State.inc; rw [State.add_latches]
@[simp] theorem State.inc_resp (s : State) (l : Loc) : (s.inc l).resp = s.resp := by
  unfold State.inc; rw [State.add_resp]
@[simp] theorem State.inc_out (s : State) (l : Loc) : (s.inc l).out = s.out := by
  unfold State.inc; rw [State.add_out]

@[simp] theorem State.setInt_mem (s : State) (l : Loc) (v : Int) : (s.setInt l v).mem = s.mem := by
  unfold State.setInt; rw [State.set_mem]
@[simp] theorem State.setInt_pending (s : State) (l : Loc) (v : Int) : (s.setInt l v).pending = s.pending := by
  unfold State.setInt; rw [State.set_pending]
@[simp] theorem State.setInt_led (s : State) (l : Loc) (v : Int) : (s.setInt l v).led = s.led := by
  unfold State.setInt; rw [State.set_led]
@[simp] theorem State.setInt_cur (s : State) (l : Loc) (v : Int) : (s.setInt l v).cur = s.cur := by
  unfold State.setInt; rw [State.set_cur]
@[simp] theorem State.setInt_time (s : State) (l : Loc) (v : Int) : (s.setInt l v).time = s.time := by
  unfold State.setInt; rw [State.set_time]
@[simp] theorem State.setInt_pwr (s : State) (l : Loc) (v : Int) : (s.setInt l v).pwr = s.pwr := by
  unfold State.setInt; rw [State.set_pwr]
@[simp] theorem State.setInt_ports (s : State) (l : Loc) (v : Int) : (s.setInt l v).ports = s.ports := by
  unfold State.setInt; rw [State.set_ports]
@[simp] theorem State.setInt_obs (s : State) (l : Loc) (v : Int) : (s.setInt l v).obs = s.obs := by
  unfold State.setInt; rw [State.set_obs]
@[simp] theorem State.setInt_links (s : State) (l : Loc) (v : Int) : (s.setInt l v).links = s.links := by
  unfold State.setInt; rw [State.set_links]
@[simp] theorem State.setInt_gov (s : State) (l : Loc) (v : Int) : (s.setInt l v).gov = s.gov := by
  unfold State.setInt; rw [State.set_gov]
@[simp] theorem State.setInt_store (s : State) (l : Loc) (v : Int) : (s.setInt l v).store = s.store := by
  unfold State.setInt; rw [State.set_store]
@[simp] theorem State.setInt_cat (s : State) (l : Loc) (v : Int) : (s.setInt l v).cat = s.cat := by
  unfold State.setInt; rw [State.set_cat]
@[simp] theorem State.setInt_gw (s : State) (l : Loc) (v : Int) : (s.setInt l v).gw = s.gw := by
  unfold State.setInt; rw [State.set_gw]
@[simp] theorem State.setInt_spine (s : State) (l : Loc) (v : Int) : (s.setInt l v).spine = s.spine := by
  unfold State.setInt; rw [State.set_spine]
@[simp] theorem State.setInt_con (s : State) (l : Loc) (v : Int) : (s.setInt l v).con = s.con := by
  unfold State.setInt; rw [State.set_con]
@[simp] theorem State.setInt_cores (s : State) (l : Loc) (v : Int) : (s.setInt l v).cores = s.cores := by
  unfold State.setInt; rw [State.set_cores]
@[simp] theorem State.setInt_halls (s : State) (l : Loc) (v : Int) : (s.setInt l v).halls = s.halls := by
  unfold State.setInt; rw [State.set_halls]
@[simp] theorem State.setInt_img (s : State) (l : Loc) (v : Int) : (s.setInt l v).img = s.img := by
  unfold State.setInt; rw [State.set_img]
@[simp] theorem State.setInt_upd (s : State) (l : Loc) (v : Int) : (s.setInt l v).upd = s.upd := by
  unfold State.setInt; rw [State.set_upd]
@[simp] theorem State.setInt_vault (s : State) (l : Loc) (v : Int) : (s.setInt l v).vault = s.vault := by
  unfold State.setInt; rw [State.set_vault]
@[simp] theorem State.setInt_latches (s : State) (l : Loc) (v : Int) : (s.setInt l v).latches = s.latches := by
  unfold State.setInt; rw [State.set_latches]
@[simp] theorem State.setInt_resp (s : State) (l : Loc) (v : Int) : (s.setInt l v).resp = s.resp := by
  unfold State.setInt; rw [State.set_resp]
@[simp] theorem State.setInt_out (s : State) (l : Loc) (v : Int) : (s.setInt l v).out = s.out := by
  unfold State.setInt; rw [State.set_out]

/-! ## Hall bytes -/

@[simp] theorem State.setByte_word (s : State) (a : Nat) (b : Byte) (r : Nat) : (s.setByte a b).word r = s.word r := rfl

/-- A byte read after a write of one byte. -/
theorem State.byte_setByte (s : State) (a b : Nat) (v : Byte) :
    (s.setByte a v).byte b = if b = a then v else s.byte b := smapFind_put _ _ _ _ _

/-- A write of bytes leaves every byte outside them. -/
theorem State.byte_setBytes_outside (s : State) (a b : Nat) (bs : List Byte) (h : b < a ∨ a + bs.length ≤ b) :
    (s.setBytes a bs).byte b = s.byte b := by
  induction bs generalizing s a with
  | nil => rfl
  | cons v bs ih =>
    simp only [List.length_cons] at h
    rw [State.setBytes, ih _ _ (by omega), State.byte_setByte, if_neg (by omega)]

/-- A byte of those written reads as written. -/
theorem State.byte_setBytes_inside (s : State) (a i : Nat) (bs : List Byte) (h : i < bs.length) :
    (s.setBytes a bs).byte (a + i) = bs[i] := by
  induction bs generalizing s a i with
  | nil => simp at h
  | cons v bs ih =>
    cases i with
    | zero =>
      rw [State.setBytes, State.byte_setBytes_outside _ _ _ _ (by omega), State.byte_setByte]
      simp
    | succ i =>
      rw [State.setBytes, show a + (i + 1) = (a + 1) + i by omega, ih _ _ _ (by simpa using h)]
      simp

/-! ## Answers -/

@[simp] theorem State.answerDone_word (s : State) (a : Nat) : s.answerDone.word a = s.word a := rfl
@[simp] theorem State.answerDone_get (s : State) (l : Loc) : s.answerDone.get l = s.get l := rfl
@[simp] theorem State.answerDone_flag (s : State) (l : Loc) : s.answerDone.flag l = s.flag l := rfl
@[simp] theorem State.answerDone_resp (s : State) : s.answerDone.resp = some .done := rfl
@[simp] theorem State.answer_word (s : State) (w a : Nat) : (s.answer w).word a = s.word a := rfl
@[simp] theorem State.answer_get (s : State) (w : Nat) (l : Loc) : (s.answer w).get l = s.get l := rfl
@[simp] theorem State.answer_resp (s : State) (w : Nat) : (s.answer w).resp = some (.data w) := rfl

/-! ## Fields after a write of a field -/

theorem State.get_put_apart (s : State) (l m : Loc) (b : Bool) (h : l.apart m) : (s.put l b).get m = s.get m :=
  State.get_set_apart s l m _ h

theorem State.get_add_apart (s : State) (l m : Loc) (k : Nat) (h : l.apart m) : (s.add l k).get m = s.get m :=
  State.get_set_apart s l m _ h

theorem State.get_inc_apart (s : State) (l m : Loc) (h : l.apart m) : (s.inc l).get m = s.get m :=
  State.get_set_apart s l m _ h

theorem State.flag_set_apart (s : State) (l m : Loc) (v : Nat) (h : l.apart m) : (s.set l v).flag m = s.flag m := by
  unfold State.flag; rw [State.get_set_apart s l m v h]

theorem State.flag_put_apart (s : State) (l m : Loc) (b : Bool) (h : l.apart m) : (s.put l b).flag m = s.flag m :=
  State.flag_set_apart s l m _ h

theorem State.flag_inc_apart (s : State) (l m : Loc) (h : l.apart m) : (s.inc l).flag m = s.flag m :=
  State.flag_set_apart s l m _ h

theorem State.get_put_self (s : State) (l : Loc) (b : Bool) (h : l.lo + l.len ≤ 64) (h1 : l.len = 1) :
    (s.put l b).get l = if b then 1 else 0 := by
  unfold State.put
  rw [State.get_set_self _ _ _ h, h1]
  cases b <;> rfl

theorem bitsOf_lt {n : Nat} (w : BitVec n) (lo len : Nat) : bitsOf w lo len < 2 ^ len := Nat.mod_lt _ (Nat.two_pow_pos len)

/-- A field is smaller than 2 to its width. -/
theorem State.get_lt (s : State) (l : Loc) : s.get l < 2 ^ l.len := by
  unfold State.get
  split <;> exact bitsOf_lt _ _ _

/-- A saturating counter field after one more. -/
theorem State.get_inc_self (s : State) (l : Loc) (h : l.lo + l.len ≤ 64) :
    (s.inc l).get l = min (s.get l + 1) (2 ^ l.len - 1) := by
  have := Nat.two_pow_pos l.len
  unfold State.inc State.add
  rw [State.get_set_self _ _ _ h, Nat.mod_eq_of_lt (by omega)]

end Sys2Proof.Machine
end

