-- ==== Sys2Proof/Laws/Frames.lean ====
section
/-! SUPPORT. What lies outside a set of parts, for a family of words and for a range of words; and what a guarded register
write does once its guards let it pass. -/

namespace Sys2Proof.Machine

/-! ## Families and ranges -/

/-- No part of the set owns a word `c + k * x`, `x < N`, by the boxes; `i` is the number of the first box. -/
def awayFamFrom (m c k N : Nat) : Nat → List Box → Bool
  | _, [] => true
  | i, b :: bs => (!m.testBit i || !(decide (b.1 < c + k * N) && decide (c < b.2.1)) || (List.range N).all fun x => !b.may (c + k * x)) && awayFamFrom m c k N (i + 1) bs

/-- No part of the set owns a word of a family. -/
def awayFam (m c k N : Nat) : Bool := decide (0 < k) && !m.testBit 23 && awayFamFrom m c k N 24 boxes

theorem awayFamFrom_spec {m c k N x : Nat} (hk : 0 < k) (hx : x < N) : ∀ {i : Nat} {l : List Box}, awayFamFrom m c k N i l = true → awayFrom m (c + k * x) i l = true := by
  intro i l h
  induction l generalizing i with
  | nil => rfl
  | cons b l ih =>
    simp only [awayFamFrom, Bool.and_eq_true, Bool.or_eq_true, Bool.not_eq_true', List.all_eq_true] at h
    simp only [awayFrom, Bool.and_eq_true, Bool.or_eq_true, Bool.not_eq_true']
    refine ⟨?_, ih h.2⟩
    rcases h.1 with (h1 | h1) | h1
    · exact Or.inl h1
    · right
      have : k * x < k * N := Nat.mul_lt_mul_of_pos_left hx hk
      simp only [Box.may, Bool.and_eq_false_iff, decide_eq_false_iff_not] at h1 ⊢
      omega
    · exact Or.inr (h1 x (List.mem_range.mpr hx))

theorem awayFam_spec {m c k N x : Nat} (hN : 0 < N) (h : awayFam m c k N = true) : away m (c + k * (x % N)) = true := by
  simp only [awayFam, Bool.and_eq_true, decide_eq_true_eq] at h
  simp only [away, Bool.and_eq_true]
  exact ⟨h.1.2, awayFamFrom_spec h.1.1 (Nat.mod_lt _ hN) h.2⟩

theorem awayFam_spec4 {m c k N x : Nat} (hN : 0 < N) (h : awayFam m (c+4) k N = true) : away m (c + k * (x % N) + 4) = true := by
  have := awayFam_spec (x := x) hN h
  rwa [show c + 4 + k * (x % N) = c + k * (x % N) + 4 by omega] at this

theorem awayFam2_spec {m c k N k' N' x y : Nat} (hN : 0 < N) (hN' : 0 < N') (h : ((List.range N').all fun j => awayFam m (c + k' * j) k N) = true) :
    away m (c + k * (x % N) + k' * (y % N')) = true := by
  rw [List.all_eq_true] at h
  have := awayFam_spec (x := x) hN (h (y % N') (List.mem_range.mpr (Nat.mod_lt _ hN')))
  rwa [show c + k' * (y % N') + k * (x % N) = c + k * (x % N) + k' * (y % N') by omega] at this


/-- A box meets a range of words. -/
def Box.meets (b : Box) (lo hi : Nat) : Bool := decide (b.1 < hi) && decide (lo < b.2.1)

/-- No part of the set meets a range of words, by the boxes. -/
def awayInFrom (m lo hi : Nat) : Nat → List Box → Bool
  | _, [] => true
  | i, b :: bs => (!m.testBit i || !b.meets lo hi) && awayInFrom m lo hi (i + 1) bs

/-- No part of the set meets a range of words. -/
def awayIn (m lo hi : Nat) : Bool := !m.testBit 23 && awayInFrom m lo hi 24 boxes

theorem awayInFrom_spec {m lo hi a i : Nat} {l : List Box} (h1 : lo ≤ a) (h2 : a < hi) (h : awayInFrom m lo hi i l = true) :
    awayFrom m a i l = true := by
  induction l generalizing i with
  | nil => rfl
  | cons b l ih =>
    simp only [awayInFrom, Bool.and_eq_true, Bool.or_eq_true, Bool.not_eq_true'] at h
    simp only [awayFrom, Bool.and_eq_true, Bool.or_eq_true, Bool.not_eq_true']
    refine ⟨h.1.imp id fun hb => ?_, ih h.2⟩
    simp only [Box.meets, Box.may, Bool.and_eq_false_iff, decide_eq_false_iff_not] at hb ⊢
    omega

theorem awayIn_spec {m lo hi a : Nat} (h : awayIn m lo hi = true) (h1 : lo ≤ a) (h2 : a < hi) : away m a = true := by
  simp only [awayIn, Bool.and_eq_true] at h
  simp only [away, Bool.and_eq_true]
  exact ⟨h.1, awayInFrom_spec h1 h2 h.2⟩

/-- A field outside a set of parts reads as before. -/
theorem OnlyM.getAway {m : Nat} {s t : State} (h : OnlyM m s t) (l : Loc) (ha : away m l.addr = true)
    (hb : l.lo + l.len ≤ 32 ∨ away m (l.addr + 4) = true) : t.get l = s.get l :=
  State.get_congr (h.word _ ha) fun h1 => by
    rcases hb with hb | hb
    · omega
    · exact h.word _ hb

/-- A flag outside a set of parts reads as before. -/
theorem OnlyM.flagAway {m : Nat} {s t : State} (h : OnlyM m s t) (l : Loc) (ha : away m l.addr = true)
    (hb : l.lo + l.len ≤ 32 ∨ away m (l.addr + 4) = true) : t.flag l = s.flag l := by
  unfold State.flag
  rw [h.getAway l ha hb]

/-! ## Frames -/

theorem testBit_or_foldl (l : List Part) (m : Nat) (p : Part) :
    (l.foldl (fun m q => m ||| 1 <<< q.ctorIdx) m).testBit p.ctorIdx = true → m.testBit p.ctorIdx = true ∨ p ∈ l := by
  induction l generalizing m with
  | nil => exact Or.inl
  | cons q l ih =>
    intro h
    rcases ih _ h with h | h
    · rw [Nat.testBit_or, Bool.or_eq_true] at h
      rcases h with h | h
      · exact Or.inl h
      · right
        rw [Nat.shiftLeft_eq, Nat.one_mul, Nat.testBit_two_pow] at h
        rw [ctorIdx_inj (of_decide_eq_true h).symm]
        exact List.mem_cons_self
    · exact Or.inr (List.mem_cons_of_mem _ h)

/-- A set of parts written as the number of a list names the members of the list. -/
theorem mem_of_testBit_maskOf {l : List Part} {p : Part} (h : (maskOf l).testBit p.ctorIdx = true) : p ∈ l := by
  rcases testBit_or_foldl l 0 p h with h | h
  · exact absurd h (by simp)
  · exact h

theorem same_of_testBit {p : Prop} {b : Bool} (h : b = true ∨ p) (hb : ¬ b = true) : p := h.resolve_left hb

/-- Only the parts of a list change, when the number of the list says so. -/
theorem OnlyM.only {l : List Part} {m : Nat} {s t : State} (h : OnlyM m s t) (hm : Sub m (maskOf l)) :
    Only (· ∈ l) s t where
  words a ha := h.words a fun p hp => ha p (mem_of_testBit_maskOf (Sub.bit hm hp))
  parts p hp := by
    have hb : ¬ m.testBit p.ctorIdx = true := fun hb => hp (mem_of_testBit_maskOf (Sub.bit hm hb))
    cases p with
    | mem => exact same_of_testBit h.mem hb
    | pending => exact same_of_testBit h.pending hb
    | led => exact same_of_testBit h.led hb
    | cur => exact same_of_testBit h.cur hb
    | time => exact same_of_testBit h.time hb
    | pwr => exact same_of_testBit h.pwr hb
    | ports => exact same_of_testBit h.ports hb
    | obs => exact same_of_testBit h.obs hb
    | links => exact same_of_testBit h.links hb
    | gov => exact same_of_testBit h.gov hb
    | store => exact same_of_testBit h.store hb
    | cat => exact same_of_testBit h.cat hb
    | gw => exact same_of_testBit h.gw hb
    | spine => exact same_of_testBit h.spine hb
    | con => exact same_of_testBit h.con hb
    | cores => exact same_of_testBit h.cores hb
    | halls => exact same_of_testBit h.halls hb
    | img => exact same_of_testBit h.img hb
    | upd => exact same_of_testBit h.upd hb
    | vault => exact same_of_testBit h.vault hb
    | latches => exact same_of_testBit h.latches hb
    | resp => exact same_of_testBit h.resp hb
    | out => exact same_of_testBit h.out hb
    | _ => trivial

/-- An outcome that goes on, and the parts that it may change. -/
theorem OnlyOut.elim {m : Nat} {s t : State} {o : Out} (h : OnlyOut m s o) (e : o = .next t) : OnlyM m s t := by
  subst e
  exact h

/-! ## Guards -/

/-- The host's access to a usable function is served. -/
theorem State.access_host (s : State) (off : Nat) (e rdy w : Bool) (f : State → State) (he : s.ended = false)
    (hr : rdy = true) : s.access .host off e rdy w f = f s := by
  simp only [State.access, he, hr, if_true, if_false, Bool.false_eq_true]

/-- A host write to a usable function is answered and has its effect. -/
theorem State.hostWrite_host (s : State) (off : Nat) (rdy : Bool) (f : State → State) (he : s.ended = false)
    (hr : rdy = true) : s.hostWrite .host off rdy f = f s.answerDone := State.access_host s off _ _ _ _ he hr

/-- The same, for a register that is open to engines. -/
theorem State.openWrite_host (s : State) (off : Nat) (rdy : Bool) (f : State → State) (he : s.ended = false)
    (hr : rdy = true) : s.openWrite .host off rdy f = f s.answerDone := State.access_host s off _ _ _ _ he hr

/-- An engine's access to a usable function that is open to it, and that its PMP lets pass, is served. -/
theorem State.access_engine (s : State) (e : EngNo) (off : Nat) (rdy w : Bool) (f : State → State) (he : s.ended = false)
    (hp : s.regPmp e off w = true) (hr : rdy = true) : s.access (.engine e) off true rdy w f = f s := by
  simp [State.access, he, hp, hr]

end Sys2Proof.Machine
end

