-- ==== Sys2Proof/Laws/Owns.lean ====
section
/-! SUPPORT. The part that owns each field that an operation writes. -/

namespace Sys2Proof.Machine

theorem IMG_STATUS_PHASE_holds : Part.IMG_STATUS.holds IMG_STATUS_PHASE :=
  ⟨by first | rfl | (simp only [IMG_STATUS_PHASE]; omega), fun h => by simp [IMG_STATUS_PHASE] at h⟩

theorem IMG_STATUS_CMDERR_holds : Part.IMG_STATUS.holds IMG_STATUS_CMDERR :=
  ⟨by first | rfl | (simp only [IMG_STATUS_CMDERR]; omega), fun h => by simp [IMG_STATUS_CMDERR] at h⟩

theorem IMG_STATUS_REASON_holds : Part.IMG_STATUS.holds IMG_STATUS_REASON :=
  ⟨by first | rfl | (simp only [IMG_STATUS_REASON]; omega), fun h => by simp [IMG_STATUS_REASON] at h⟩

theorem IMG_CHK_LOC_SECT_holds : Part.IMG_CHK_LOC.holds IMG_CHK_LOC_SECT :=
  ⟨by first | rfl | (simp only [IMG_CHK_LOC_SECT]; omega), fun h => by simp [IMG_CHK_LOC_SECT] at h⟩

theorem IMG_CHK_LOC_ENTRY_holds : Part.IMG_CHK_LOC.holds IMG_CHK_LOC_ENTRY :=
  ⟨by first | rfl | (simp only [IMG_CHK_LOC_ENTRY]; omega), fun h => by simp [IMG_CHK_LOC_ENTRY] at h⟩

theorem IMG_CHK_COUNT_COUNT_holds : Part.IMG_CHK_COUNT.holds IMG_CHK_COUNT_COUNT :=
  ⟨by first | rfl | (simp only [IMG_CHK_COUNT_COUNT]; omega), fun h => by simp [IMG_CHK_COUNT_COUNT] at h⟩

theorem IMG_EPOCH_EPOCH_holds : Part.IMG_EPOCH.holds IMG_EPOCH_EPOCH :=
  ⟨by first | rfl | (simp only [IMG_EPOCH_EPOCH]; omega), fun h => by simp [IMG_EPOCH_EPOCH] at h⟩

theorem IMG_VERSION_VERSION_holds : Part.IMG_VERSION.holds IMG_VERSION_VERSION :=
  ⟨by first | rfl | (simp only [IMG_VERSION_VERSION]; omega), fun h => by simp [IMG_VERSION_VERSION] at h⟩

theorem IMG_JRNL_STATE_holds : Part.IMG_JRNL.holds IMG_JRNL_STATE :=
  ⟨by first | rfl | (simp only [IMG_JRNL_STATE]; omega), fun h => by simp [IMG_JRNL_STATE] at h⟩

theorem IMG_JRNL_GOV_holds : Part.IMG_JRNL.holds IMG_JRNL_GOV :=
  ⟨by first | rfl | (simp only [IMG_JRNL_GOV]; omega), fun h => by simp [IMG_JRNL_GOV] at h⟩

theorem IMG_JRNL_GOV_VALID_holds : Part.IMG_JRNL.holds IMG_JRNL_GOV_VALID :=
  ⟨by first | rfl | (simp only [IMG_JRNL_GOV_VALID]; omega), fun h => by simp [IMG_JRNL_GOV_VALID] at h⟩

theorem IMG_JRNL_TORN_holds : Part.IMG_JRNL.holds IMG_JRNL_TORN :=
  ⟨by first | rfl | (simp only [IMG_JRNL_TORN]; omega), fun h => by simp [IMG_JRNL_TORN] at h⟩

theorem IMG_BOOT_OUTCOME_holds : Part.IMG_BOOT.holds IMG_BOOT_OUTCOME :=
  ⟨by first | rfl | (simp only [IMG_BOOT_OUTCOME]; omega), fun h => by simp [IMG_BOOT_OUTCOME] at h⟩

theorem IMG_SUSP_ROUTES_holds : Part.IMG_SUSP.holds IMG_SUSP_ROUTES :=
  ⟨by first | rfl | (simp only [IMG_SUSP_ROUTES]; omega), fun h => by simp [IMG_SUSP_ROUTES] at h⟩

theorem IMG_XDROP_COUNT_holds : Part.IMG_XDROP.holds IMG_XDROP_COUNT :=
  ⟨by first | rfl | (simp only [IMG_XDROP_COUNT]; omega), fun h => by simp [IMG_XDROP_COUNT] at h⟩

theorem IMG_FORCED_COUNT_holds : Part.IMG_FORCED.holds IMG_FORCED_COUNT :=
  ⟨by first | rfl | (simp only [IMG_FORCED_COUNT]; omega), fun h => by simp [IMG_FORCED_COUNT] at h⟩

theorem IMG_DIGEST_D_holds (k : Nat) : Part.IMG_DIGEST.holds (IMG_DIGEST_D k) :=
  ⟨⟨k % 12, Nat.mod_lt _ (by decide), by first | rfl | (simp only [IMG_DIGEST_D]; omega)⟩, fun h => by simp [IMG_DIGEST_D] at h⟩

theorem IMG_TRANS_PORT_holds (k : Nat) : Part.IMG_TRANS.holds (IMG_TRANS_PORT k) :=
  ⟨⟨k % 4, Nat.mod_lt _ (by decide), by first | rfl | (simp only [IMG_TRANS_PORT]; omega)⟩, fun h => by simp [IMG_TRANS_PORT] at h⟩

theorem IMG_PORT_EPOCH_EPOCH_holds (n : Nat) : Part.IMG_PORT_EPOCH.holds (IMG_PORT_EPOCH_EPOCH n) :=
  ⟨⟨n % 128, Nat.mod_lt _ (by decide), by first | rfl | (simp only [IMG_PORT_EPOCH_EPOCH]; omega)⟩, fun h => by simp [IMG_PORT_EPOCH_EPOCH] at h⟩

theorem LP_CTRL_DRV_DIS_holds (n : Nat) : Part.LP_CTRL.holds (LP_CTRL_DRV_DIS n) :=
  ⟨⟨n % 128, Nat.mod_lt _ (by decide), by first | rfl | (simp only [LP_CTRL_DRV_DIS]; omega)⟩, fun h => by simp [LP_CTRL_DRV_DIS] at h⟩

theorem LP_STATE_PSTATE_holds (n : Nat) : Part.LP_STATE.holds (LP_STATE_PSTATE n) :=
  ⟨⟨n % 128, Nat.mod_lt _ (by decide), by first | rfl | (simp only [LP_STATE_PSTATE]; omega)⟩, fun h => by simp [LP_STATE_PSTATE] at h⟩

theorem LP_STATE_FOLDED_holds (n : Nat) : Part.LP_STATE.holds (LP_STATE_FOLDED n) :=
  ⟨⟨n % 128, Nat.mod_lt _ (by decide), by first | rfl | (simp only [LP_STATE_FOLDED]; omega)⟩, fun h => by simp [LP_STATE_FOLDED] at h⟩

theorem LP_STATE_DEFERRED_holds (n : Nat) : Part.LP_STATE.holds (LP_STATE_DEFERRED n) :=
  ⟨⟨n % 128, Nat.mod_lt _ (by decide), by first | rfl | (simp only [LP_STATE_DEFERRED]; omega)⟩, fun h => by simp [LP_STATE_DEFERRED] at h⟩

theorem LP_STATE_RETRY_holds (n : Nat) : Part.LP_STATE.holds (LP_STATE_RETRY n) :=
  ⟨⟨n % 128, Nat.mod_lt _ (by decide), by first | rfl | (simp only [LP_STATE_RETRY]; omega)⟩, fun h => by simp [LP_STATE_RETRY] at h⟩

theorem LP_STATE_DRV_holds (n : Nat) : Part.LP_STATE.holds (LP_STATE_DRV n) :=
  ⟨⟨n % 128, Nat.mod_lt _ (by decide), by first | rfl | (simp only [LP_STATE_DRV]; omega)⟩, fun h => by simp [LP_STATE_DRV] at h⟩

theorem LP_STATE_PENDING_holds (n : Nat) : Part.LP_STATE.holds (LP_STATE_PENDING n) :=
  ⟨⟨n % 128, Nat.mod_lt _ (by decide), by first | rfl | (simp only [LP_STATE_PENDING]; omega)⟩, fun h => by simp [LP_STATE_PENDING] at h⟩

theorem LP_WIRE_SEEN_holds (n : Nat) : Part.LP_WIRE.holds (LP_WIRE_SEEN n) :=
  ⟨⟨n % 128, Nat.mod_lt _ (by decide), by first | rfl | (simp only [LP_WIRE_SEEN]; omega)⟩, fun h => by simp [LP_WIRE_SEEN] at h⟩

theorem LP_WIRE_LIVE_holds (n : Nat) : Part.LP_WIRE.holds (LP_WIRE_LIVE n) :=
  ⟨⟨n % 128, Nat.mod_lt _ (by decide), by first | rfl | (simp only [LP_WIRE_LIVE]; omega)⟩, fun h => by simp [LP_WIRE_LIVE] at h⟩

theorem LP_FAULT_EVENTS_holds (n : Nat) : Part.LP_FAULT.holds (LP_FAULT_EVENTS n) :=
  ⟨⟨n % 128, Nat.mod_lt _ (by decide), by first | rfl | (simp only [LP_FAULT_EVENTS]; omega)⟩, fun h => by simp [LP_FAULT_EVENTS] at h⟩

theorem LP_FAULT_LAST_E_holds (n : Nat) : Part.LP_FAULT.holds (LP_FAULT_LAST_E n) :=
  ⟨⟨n % 128, Nat.mod_lt _ (by decide), by first | rfl | (simp only [LP_FAULT_LAST_E]; omega)⟩, fun h => by simp [LP_FAULT_LAST_E] at h⟩

theorem LP_MEAS_LOAD_holds (n : Nat) : Part.LP_MEAS.holds (LP_MEAS_LOAD n) :=
  ⟨⟨n % 128, Nat.mod_lt _ (by decide), by first | rfl | (simp only [LP_MEAS_LOAD]; omega)⟩, fun h => by simp [LP_MEAS_LOAD] at h⟩

theorem LP_MEAS_VH_holds (n : Nat) : Part.LP_MEAS.holds (LP_MEAS_VH n) :=
  ⟨⟨n % 128, Nat.mod_lt _ (by decide), by first | rfl | (simp only [LP_MEAS_VH]; omega)⟩, fun h => by simp [LP_MEAS_VH] at h⟩

theorem LP_MEAS_VL_holds (n : Nat) : Part.LP_MEAS.holds (LP_MEAS_VL n) :=
  ⟨⟨n % 128, Nat.mod_lt _ (by decide), by first | rfl | (simp only [LP_MEAS_VL]; omega)⟩, fun h => by simp [LP_MEAS_VL] at h⟩

theorem LP_MEAS_LOOP_holds (n : Nat) : Part.LP_MEAS.holds (LP_MEAS_LOOP n) :=
  ⟨⟨n % 128, Nat.mod_lt _ (by decide), by first | rfl | (simp only [LP_MEAS_LOOP]; omega)⟩, fun h => by simp [LP_MEAS_LOOP] at h⟩

theorem LP_EMETER_E_holds (n : Nat) : Part.LP_EMETER.holds (LP_EMETER_E n) :=
  ⟨⟨n % 128, Nat.mod_lt _ (by decide), by first | rfl | (simp only [LP_EMETER_E]; omega)⟩, fun h => by simp [LP_EMETER_E] at h⟩

theorem LP_DEFER_DEFERRALS_holds (n : Nat) : Part.LP_DEFER.holds (LP_DEFER_DEFERRALS n) :=
  ⟨⟨n % 128, Nat.mod_lt _ (by decide), by first | rfl | (simp only [LP_DEFER_DEFERRALS]; omega)⟩, fun h => by simp [LP_DEFER_DEFERRALS] at h⟩

theorem LP_DEFER_FLAGGED_holds (n : Nat) : Part.LP_DEFER.holds (LP_DEFER_FLAGGED n) :=
  ⟨⟨n % 128, Nat.mod_lt _ (by decide), by first | rfl | (simp only [LP_DEFER_FLAGGED]; omega)⟩, fun h => by simp [LP_DEFER_FLAGGED] at h⟩

theorem LP_WAKE_STAT_WOKE_holds (n : Nat) : Part.LP_WAKE_STAT.holds (LP_WAKE_STAT_WOKE n) :=
  ⟨⟨n % 128, Nat.mod_lt _ (by decide), by first | rfl | (simp only [LP_WAKE_STAT_WOKE]; omega)⟩, fun h => by simp [LP_WAKE_STAT_WOKE] at h⟩

theorem LP_WAKE_STAT_KIND_holds (n : Nat) : Part.LP_WAKE_STAT.holds (LP_WAKE_STAT_KIND n) :=
  ⟨⟨n % 128, Nat.mod_lt _ (by decide), by first | rfl | (simp only [LP_WAKE_STAT_KIND]; omega)⟩, fun h => by simp [LP_WAKE_STAT_KIND] at h⟩

theorem LP_GOV_STAT_WINDOW_holds (d : Nat) : Part.LP_GOV_STAT.holds (LP_GOV_STAT_WINDOW d) :=
  ⟨⟨d % 2, Nat.mod_lt _ (by decide), by first | rfl | (simp only [LP_GOV_STAT_WINDOW]; omega)⟩, fun h => by simp [LP_GOV_STAT_WINDOW] at h⟩

theorem LP_GOV_STAT_NDEF_holds (d : Nat) : Part.LP_GOV_STAT.holds (LP_GOV_STAT_NDEF d) :=
  ⟨⟨d % 2, Nat.mod_lt _ (by decide), by first | rfl | (simp only [LP_GOV_STAT_NDEF]; omega)⟩, fun h => by simp [LP_GOV_STAT_NDEF] at h⟩

theorem LP_GOV_PEAK_PEAK_holds (d : Nat) : Part.LP_GOV_PEAK.holds (LP_GOV_PEAK_PEAK d) :=
  ⟨⟨d % 2, Nat.mod_lt _ (by decide), by first | rfl | (simp only [LP_GOV_PEAK_PEAK]; omega)⟩, fun h => by simp [LP_GOV_PEAK_PEAK] at h⟩

theorem LP_GOV_CNT_DEFER_holds (d : Nat) : Part.LP_GOV_CNT.holds (LP_GOV_CNT_DEFER d) :=
  ⟨⟨d % 2, Nat.mod_lt _ (by decide), by first | rfl | (simp only [LP_GOV_CNT_DEFER]; omega)⟩, fun h => by simp [LP_GOV_CNT_DEFER] at h⟩

theorem LP_GOV_CNT_FLAG_holds (d : Nat) : Part.LP_GOV_CNT.holds (LP_GOV_CNT_FLAG d) :=
  ⟨⟨d % 2, Nat.mod_lt _ (by decide), by first | rfl | (simp only [LP_GOV_CNT_FLAG]; omega)⟩, fun h => by simp [LP_GOV_CNT_FLAG] at h⟩

theorem BT_CTRL_OPMODE_holds (n : Nat) : Part.BT_CTRL.holds (BT_CTRL_OPMODE n) :=
  ⟨⟨n % 128, Nat.mod_lt _ (by decide), by first | rfl | (simp only [BT_CTRL_OPMODE]; omega)⟩, fun h => by simp [BT_CTRL_OPMODE] at h⟩

theorem BT_STAT_BSTATE_holds (n : Nat) : Part.BT_STAT.holds (BT_STAT_BSTATE n) :=
  ⟨⟨n % 128, Nat.mod_lt _ (by decide), by first | rfl | (simp only [BT_STAT_BSTATE]; omega)⟩, fun h => by simp [BT_STAT_BSTATE] at h⟩

theorem BT_STAT_PHASE_holds (n : Nat) : Part.BT_STAT.holds (BT_STAT_PHASE n) :=
  ⟨⟨n % 128, Nat.mod_lt _ (by decide), by first | rfl | (simp only [BT_STAT_PHASE]; omega)⟩, fun h => by simp [BT_STAT_PHASE] at h⟩

theorem BT_STAT_RXONLY_holds (n : Nat) : Part.BT_STAT.holds (BT_STAT_RXONLY n) :=
  ⟨⟨n % 128, Nat.mod_lt _ (by decide), by first | rfl | (simp only [BT_STAT_RXONLY]; omega)⟩, fun h => by simp [BT_STAT_RXONLY] at h⟩

theorem BT_STAT_LASTFMT_holds (n : Nat) : Part.BT_STAT.holds (BT_STAT_LASTFMT n) :=
  ⟨⟨n % 128, Nat.mod_lt _ (by decide), by first | rfl | (simp only [BT_STAT_LASTFMT]; omega)⟩, fun h => by simp [BT_STAT_LASTFMT] at h⟩

theorem BT_TDC_TDCV_holds (n : Nat) : Part.BT_TDC.holds (BT_TDC_TDCV n) :=
  ⟨⟨n % 128, Nat.mod_lt _ (by decide), by first | rfl | (simp only [BT_TDC_TDCV]; omega)⟩, fun h => by simp [BT_TDC_TDCV] at h⟩

theorem BT_PLCA_NCOUNT_holds (n : Nat) : Part.BT_PLCA.holds (BT_PLCA_NCOUNT n) :=
  ⟨⟨n % 128, Nat.mod_lt _ (by decide), by first | rfl | (simp only [BT_PLCA_NCOUNT]; omega)⟩, fun h => by simp [BT_PLCA_NCOUNT] at h⟩

theorem BT_PLCA_TO_TMR_holds (n : Nat) : Part.BT_PLCA.holds (BT_PLCA_TO_TMR n) :=
  ⟨⟨n % 128, Nat.mod_lt _ (by decide), by first | rfl | (simp only [BT_PLCA_TO_TMR]; omega)⟩, fun h => by simp [BT_PLCA_TO_TMR] at h⟩

theorem BT_PLCA_TMR_BURST_TMR_holds (n : Nat) : Part.BT_PLCA_TMR.holds (BT_PLCA_TMR_BURST_TMR n) :=
  ⟨⟨n % 128, Nat.mod_lt _ (by decide), by first | rfl | (simp only [BT_PLCA_TMR_BURST_TMR]; omega)⟩, fun h => by simp [BT_PLCA_TMR_BURST_TMR] at h⟩

theorem BT_PLCA_STAT_OK_holds (n : Nat) : Part.BT_PLCA_STAT.holds (BT_PLCA_STAT_OK n) :=
  ⟨⟨n % 128, Nat.mod_lt _ (by decide), by first | rfl | (simp only [BT_PLCA_STAT_OK]; omega)⟩, fun h => by simp [BT_PLCA_STAT_OK] at h⟩

theorem BT_PLCA_STAT_LOST_holds (n : Nat) : Part.BT_PLCA_STAT.holds (BT_PLCA_STAT_LOST n) :=
  ⟨⟨n % 128, Nat.mod_lt _ (by decide), by first | rfl | (simp only [BT_PLCA_STAT_LOST]; omega)⟩, fun h => by simp [BT_PLCA_STAT_LOST] at h⟩

theorem BT_BCN_STAT_SEQ_holds (n : Nat) : Part.BT_BCN_STAT.holds (BT_BCN_STAT_SEQ n) :=
  ⟨⟨n % 128, Nat.mod_lt _ (by decide), by first | rfl | (simp only [BT_BCN_STAT_SEQ]; omega)⟩, fun h => by simp [BT_BCN_STAT_SEQ] at h⟩

theorem BT_BCN_STAT_MISSED_holds (n : Nat) : Part.BT_BCN_STAT.holds (BT_BCN_STAT_MISSED n) :=
  ⟨⟨n % 128, Nat.mod_lt _ (by decide), by first | rfl | (simp only [BT_BCN_STAT_MISSED]; omega)⟩, fun h => by simp [BT_BCN_STAT_MISSED] at h⟩

theorem BT_BCN_STAT_SENT_holds (n : Nat) : Part.BT_BCN_STAT.holds (BT_BCN_STAT_SENT n) :=
  ⟨⟨n % 128, Nat.mod_lt _ (by decide), by first | rfl | (simp only [BT_BCN_STAT_SENT]; omega)⟩, fun h => by simp [BT_BCN_STAT_SENT] at h⟩

theorem BT_RXCNT_COUNT_holds (n : Nat) : Part.BT_RXCNT.holds (BT_RXCNT_COUNT n) :=
  ⟨⟨n % 128, Nat.mod_lt _ (by decide), by first | rfl | (simp only [BT_RXCNT_COUNT]; omega)⟩, fun h => by simp [BT_RXCNT_COUNT] at h⟩

theorem BT_TXCNT_COUNT_holds (n : Nat) : Part.BT_TXCNT.holds (BT_TXCNT_COUNT n) :=
  ⟨⟨n % 128, Nat.mod_lt _ (by decide), by first | rfl | (simp only [BT_TXCNT_COUNT]; omega)⟩, fun h => by simp [BT_TXCNT_COUNT] at h⟩

theorem BT_PEXCNT_PEX_holds (n : Nat) : Part.BT_PEXCNT.holds (BT_PEXCNT_PEX n) :=
  ⟨⟨n % 128, Nat.mod_lt _ (by decide), by first | rfl | (simp only [BT_PEXCNT_PEX]; omega)⟩, fun h => by simp [BT_PEXCNT_PEX] at h⟩

theorem BT_PEXCNT_TDC_HIGH_holds (n : Nat) : Part.BT_PEXCNT.holds (BT_PEXCNT_TDC_HIGH n) :=
  ⟨⟨n % 128, Nat.mod_lt _ (by decide), by first | rfl | (simp only [BT_PEXCNT_TDC_HIGH]; omega)⟩, fun h => by simp [BT_PEXCNT_TDC_HIGH] at h⟩

theorem OBS_STAT_CEN_holds (n : Nat) : Part.OBS_STAT.holds (OBS_STAT_CEN n) :=
  ⟨⟨n % 128, Nat.mod_lt _ (by decide), by first | rfl | (simp only [OBS_STAT_CEN]; omega)⟩, fun h => by simp [OBS_STAT_CEN] at h⟩

theorem OBS_STAT_ENR_holds (n : Nat) : Part.OBS_STAT.holds (OBS_STAT_ENR n) :=
  ⟨⟨n % 128, Nat.mod_lt _ (by decide), by first | rfl | (simp only [OBS_STAT_ENR]; omega)⟩, fun h => by simp [OBS_STAT_ENR] at h⟩

theorem OBS_STAT_CMDERR_holds (n : Nat) : Part.OBS_STAT.holds (OBS_STAT_CMDERR n) :=
  ⟨⟨n % 128, Nat.mod_lt _ (by decide), by first | rfl | (simp only [OBS_STAT_CMDERR]; omega)⟩, fun h => by simp [OBS_STAT_CMDERR] at h⟩

theorem OBS_WP_LAST_RESULT_holds (n : Nat) : Part.OBS_WP_LAST.holds (OBS_WP_LAST_RESULT n) :=
  ⟨⟨n % 128, Nat.mod_lt _ (by decide), by first | rfl | (simp only [OBS_WP_LAST_RESULT]; omega)⟩, fun h => by simp [OBS_WP_LAST_RESULT] at h⟩

theorem OBS_WP_LAST_NOUT_holds (n : Nat) : Part.OBS_WP_LAST.holds (OBS_WP_LAST_NOUT n) :=
  ⟨⟨n % 128, Nat.mod_lt _ (by decide), by first | rfl | (simp only [OBS_WP_LAST_NOUT]; omega)⟩, fun h => by simp [OBS_WP_LAST_NOUT] at h⟩

theorem OBS_WP_LAST_NUSE_holds (n : Nat) : Part.OBS_WP_LAST.holds (OBS_WP_LAST_NUSE n) :=
  ⟨⟨n % 128, Nat.mod_lt _ (by decide), by first | rfl | (simp only [OBS_WP_LAST_NUSE]; omega)⟩, fun h => by simp [OBS_WP_LAST_NUSE] at h⟩

theorem OBS_WP_LAST_CLIPPED_holds (n : Nat) : Part.OBS_WP_LAST.holds (OBS_WP_LAST_CLIPPED n) :=
  ⟨⟨n % 128, Nat.mod_lt _ (by decide), by first | rfl | (simp only [OBS_WP_LAST_CLIPPED]; omega)⟩, fun h => by simp [OBS_WP_LAST_CLIPPED] at h⟩

theorem OBS_WP_CNT_MISMATCH_holds (n : Nat) : Part.OBS_WP_CNT.holds (OBS_WP_CNT_MISMATCH n) :=
  ⟨⟨n % 128, Nat.mod_lt _ (by decide), by first | rfl | (simp only [OBS_WP_CNT_MISMATCH]; omega)⟩, fun h => by simp [OBS_WP_CNT_MISMATCH] at h⟩

theorem OBS_WP_CNT_UNDECIDED_holds (n : Nat) : Part.OBS_WP_CNT.holds (OBS_WP_CNT_UNDECIDED n) :=
  ⟨⟨n % 128, Nat.mod_lt _ (by decide), by first | rfl | (simp only [OBS_WP_CNT_UNDECIDED]; omega)⟩, fun h => by simp [OBS_WP_CNT_UNDECIDED] at h⟩

theorem OBS_WP_FEAT_LO_holds (n k : Nat) : Part.OBS_WP_FEAT.holds (OBS_WP_FEAT_LO n k) :=
  ⟨⟨n % 128, Nat.mod_lt _ (by decide), k % 6, Nat.mod_lt _ (by decide), by first | rfl | (simp only [OBS_WP_FEAT_LO]; omega)⟩, fun h => by simp [OBS_WP_FEAT_LO] at h⟩

theorem OBS_WP_FEAT_HI_holds (n k : Nat) : Part.OBS_WP_FEAT.holds (OBS_WP_FEAT_HI n k) :=
  ⟨⟨n % 128, Nat.mod_lt _ (by decide), k % 6, Nat.mod_lt _ (by decide), by first | rfl | (simp only [OBS_WP_FEAT_HI]; omega)⟩, fun h => by simp [OBS_WP_FEAT_HI] at h⟩

theorem OBS_ENR_STAT_DONE_holds (n : Nat) : Part.OBS_ENR_STAT.holds (OBS_ENR_STAT_DONE n) :=
  ⟨⟨n % 128, Nat.mod_lt _ (by decide), by first | rfl | (simp only [OBS_ENR_STAT_DONE]; omega)⟩, fun h => by simp [OBS_ENR_STAT_DONE] at h⟩

theorem OBS_ENR_STAT_CLIP_holds (n : Nat) : Part.OBS_ENR_STAT.holds (OBS_ENR_STAT_CLIP n) :=
  ⟨⟨n % 128, Nat.mod_lt _ (by decide), by first | rfl | (simp only [OBS_ENR_STAT_CLIP]; omega)⟩, fun h => by simp [OBS_ENR_STAT_CLIP] at h⟩

theorem OBS_ENR_STAT_CLASS_holds (n : Nat) : Part.OBS_ENR_STAT.holds (OBS_ENR_STAT_CLASS n) :=
  ⟨⟨n % 128, Nat.mod_lt _ (by decide), by first | rfl | (simp only [OBS_ENR_STAT_CLASS]; omega)⟩, fun h => by simp [OBS_ENR_STAT_CLASS] at h⟩

theorem OBS_ENR_SUM_SUM_holds (n k : Nat) : Part.OBS_ENR_SUM.holds (OBS_ENR_SUM_SUM n k) :=
  ⟨⟨n % 128, Nat.mod_lt _ (by decide), k % 12, Nat.mod_lt _ (by decide), by first | rfl | (simp only [OBS_ENR_SUM_SUM]; omega)⟩, fun h => by simp [OBS_ENR_SUM_SUM] at h⟩

theorem OBS_ENR_SQ_SQ_holds (n k : Nat) : Part.OBS_ENR_SQ.holds (OBS_ENR_SQ_SQ n k) :=
  ⟨⟨n % 128, Nat.mod_lt _ (by decide), k % 12, Nat.mod_lt _ (by decide), 0, by decide, by first | rfl | (simp only [OBS_ENR_SQ_SQ]; omega)⟩, fun _ => ⟨n % 128, Nat.mod_lt _ (by decide), k % 12, Nat.mod_lt _ (by decide), 1, by decide, by first | rfl | (simp only [OBS_ENR_SQ_SQ]; omega)⟩⟩

theorem OBS_ENR_USE_LO_holds (n k : Nat) : Part.OBS_ENR_USE.holds (OBS_ENR_USE_LO n k) :=
  ⟨⟨n % 128, Nat.mod_lt _ (by decide), k % 6, Nat.mod_lt _ (by decide), by first | rfl | (simp only [OBS_ENR_USE_LO]; omega)⟩, fun h => by simp [OBS_ENR_USE_LO] at h⟩

theorem OBS_ENR_USE_HI_holds (n k : Nat) : Part.OBS_ENR_USE.holds (OBS_ENR_USE_HI n k) :=
  ⟨⟨n % 128, Nat.mod_lt _ (by decide), k % 6, Nat.mod_lt _ (by decide), by first | rfl | (simp only [OBS_ENR_USE_HI]; omega)⟩, fun h => by simp [OBS_ENR_USE_HI] at h⟩

theorem OBS_SND_STAT_STATE_holds (n : Nat) : Part.OBS_SND_STAT.holds (OBS_SND_STAT_STATE n) :=
  ⟨⟨n % 128, Nat.mod_lt _ (by decide), by first | rfl | (simp only [OBS_SND_STAT_STATE]; omega)⟩, fun h => by simp [OBS_SND_STAT_STATE] at h⟩

theorem OBS_SND_STAT_UNIT_holds (n : Nat) : Part.OBS_SND_STAT.holds (OBS_SND_STAT_UNIT n) :=
  ⟨⟨n % 128, Nat.mod_lt _ (by decide), by first | rfl | (simp only [OBS_SND_STAT_UNIT]; omega)⟩, fun h => by simp [OBS_SND_STAT_UNIT] at h⟩

theorem OBS_SND_STAT_NREFL_holds (n : Nat) : Part.OBS_SND_STAT.holds (OBS_SND_STAT_NREFL n) :=
  ⟨⟨n % 128, Nat.mod_lt _ (by decide), by first | rfl | (simp only [OBS_SND_STAT_NREFL]; omega)⟩, fun h => by simp [OBS_SND_STAT_NREFL] at h⟩

theorem OBS_SND_STAT_MORE_holds (n : Nat) : Part.OBS_SND_STAT.holds (OBS_SND_STAT_MORE n) :=
  ⟨⟨n % 128, Nat.mod_lt _ (by decide), by first | rfl | (simp only [OBS_SND_STAT_MORE]; omega)⟩, fun h => by simp [OBS_SND_STAT_MORE] at h⟩

theorem OBS_SND_STAT_CLIPPED_holds (n : Nat) : Part.OBS_SND_STAT.holds (OBS_SND_STAT_CLIPPED n) :=
  ⟨⟨n % 128, Nat.mod_lt _ (by decide), by first | rfl | (simp only [OBS_SND_STAT_CLIPPED]; omega)⟩, fun h => by simp [OBS_SND_STAT_CLIPPED] at h⟩

theorem OBS_SND_REFL_DIST_holds (n k : Nat) : Part.OBS_SND_REFL.holds (OBS_SND_REFL_DIST n k) :=
  ⟨⟨n % 128, Nat.mod_lt _ (by decide), k % 8, Nat.mod_lt _ (by decide), by first | rfl | (simp only [OBS_SND_REFL_DIST]; omega)⟩, fun h => by simp [OBS_SND_REFL_DIST] at h⟩

theorem OBS_SND_REFL_POL_holds (n k : Nat) : Part.OBS_SND_REFL.holds (OBS_SND_REFL_POL n k) :=
  ⟨⟨n % 128, Nat.mod_lt _ (by decide), k % 8, Nat.mod_lt _ (by decide), by first | rfl | (simp only [OBS_SND_REFL_POL]; omega)⟩, fun h => by simp [OBS_SND_REFL_POL] at h⟩

theorem OBS_SND_REFL_WHERE_holds (n k : Nat) : Part.OBS_SND_REFL.holds (OBS_SND_REFL_WHERE n k) :=
  ⟨⟨n % 128, Nat.mod_lt _ (by decide), k % 8, Nat.mod_lt _ (by decide), by first | rfl | (simp only [OBS_SND_REFL_WHERE]; omega)⟩, fun h => by simp [OBS_SND_REFL_WHERE] at h⟩

theorem OBS_SND_REFL_CLIP_holds (n k : Nat) : Part.OBS_SND_REFL.holds (OBS_SND_REFL_CLIP n k) :=
  ⟨⟨n % 128, Nat.mod_lt _ (by decide), k % 8, Nat.mod_lt _ (by decide), by first | rfl | (simp only [OBS_SND_REFL_CLIP]; omega)⟩, fun h => by simp [OBS_SND_REFL_CLIP] at h⟩

theorem OBS_SND_REFL_AMP_holds (n k : Nat) : Part.OBS_SND_REFL.holds (OBS_SND_REFL_AMP n k) :=
  ⟨⟨n % 128, Nat.mod_lt _ (by decide), k % 8, Nat.mod_lt _ (by decide), by first | rfl | (simp only [OBS_SND_REFL_AMP]; omega)⟩, fun h => by simp [OBS_SND_REFL_AMP] at h⟩

theorem OBS_SND_REFL_VALID_holds (n k : Nat) : Part.OBS_SND_REFL.holds (OBS_SND_REFL_VALID n k) :=
  ⟨⟨n % 128, Nat.mod_lt _ (by decide), k % 8, Nat.mod_lt _ (by decide), by first | rfl | (simp only [OBS_SND_REFL_VALID]; omega)⟩, fun h => by simp [OBS_SND_REFL_VALID] at h⟩

theorem OBS_CEN_STAT_SLOT_holds (n : Nat) : Part.OBS_CEN_STAT.holds (OBS_CEN_STAT_SLOT n) :=
  ⟨⟨n % 128, Nat.mod_lt _ (by decide), by first | rfl | (simp only [OBS_CEN_STAT_SLOT]; omega)⟩, fun h => by simp [OBS_CEN_STAT_SLOT] at h⟩

theorem OBS_CEN_STAT_UNK_holds (n : Nat) : Part.OBS_CEN_STAT.holds (OBS_CEN_STAT_UNK n) :=
  ⟨⟨n % 128, Nat.mod_lt _ (by decide), by first | rfl | (simp only [OBS_CEN_STAT_UNK]; omega)⟩, fun h => by simp [OBS_CEN_STAT_UNK] at h⟩

theorem OBS_CEN_START_NS_holds (n : Nat) : Part.OBS_CEN_START.holds (OBS_CEN_START_NS n) :=
  ⟨⟨n % 128, Nat.mod_lt _ (by decide), 0, by decide, by first | rfl | (simp only [OBS_CEN_START_NS]; omega)⟩, fun h => by simp [OBS_CEN_START_NS] at h⟩

theorem OBS_CEN_END_NS_holds (n : Nat) : Part.OBS_CEN_END.holds (OBS_CEN_END_NS n) :=
  ⟨⟨n % 128, Nat.mod_lt _ (by decide), 0, by decide, by first | rfl | (simp only [OBS_CEN_END_NS]; omega)⟩, fun h => by simp [OBS_CEN_END_NS] at h⟩

theorem OBS_CEN_UNK_ID_holds (n : Nat) : Part.OBS_CEN_UNK.holds (OBS_CEN_UNK_ID n) :=
  ⟨⟨n % 128, Nat.mod_lt _ (by decide), by first | rfl | (simp only [OBS_CEN_UNK_ID]; omega)⟩, fun h => by simp [OBS_CEN_UNK_ID] at h⟩

theorem OBS_CEN_UNK_IDE_holds (n : Nat) : Part.OBS_CEN_UNK.holds (OBS_CEN_UNK_IDE n) :=
  ⟨⟨n % 128, Nat.mod_lt _ (by decide), by first | rfl | (simp only [OBS_CEN_UNK_IDE]; omega)⟩, fun h => by simp [OBS_CEN_UNK_IDE] at h⟩

theorem OBS_CEN_UNK_VALID_holds (n : Nat) : Part.OBS_CEN_UNK.holds (OBS_CEN_UNK_VALID n) :=
  ⟨⟨n % 128, Nat.mod_lt _ (by decide), by first | rfl | (simp only [OBS_CEN_UNK_VALID]; omega)⟩, fun h => by simp [OBS_CEN_UNK_VALID] at h⟩

theorem OBS_CEN_UNK_T_NS_holds (n : Nat) : Part.OBS_CEN_UNK_T.holds (OBS_CEN_UNK_T_NS n) :=
  ⟨⟨n % 128, Nat.mod_lt _ (by decide), 0, by decide, by first | rfl | (simp only [OBS_CEN_UNK_T_NS]; omega)⟩, fun h => by simp [OBS_CEN_UNK_T_NS] at h⟩

theorem OBS_CAP_STAT_STATE_holds (n : Nat) : Part.OBS_CAP_STAT.holds (OBS_CAP_STAT_STATE n) :=
  ⟨⟨n % 128, Nat.mod_lt _ (by decide), by first | rfl | (simp only [OBS_CAP_STAT_STATE]; omega)⟩, fun h => by simp [OBS_CAP_STAT_STATE] at h⟩

theorem OBS_CAP_SEQ_SEQ_holds (n : Nat) : Part.OBS_CAP_SEQ.holds (OBS_CAP_SEQ_SEQ n) :=
  ⟨⟨n % 128, Nat.mod_lt _ (by decide), by first | rfl | (simp only [OBS_CAP_SEQ_SEQ]; omega)⟩, fun h => by simp [OBS_CAP_SEQ_SEQ] at h⟩

theorem OBS_CAP_CNT_DROP_holds (n : Nat) : Part.OBS_CAP_CNT.holds (OBS_CAP_CNT_DROP n) :=
  ⟨⟨n % 128, Nat.mod_lt _ (by decide), by first | rfl | (simp only [OBS_CAP_CNT_DROP]; omega)⟩, fun h => by simp [OBS_CAP_CNT_DROP] at h⟩

theorem OBS_CAP_CNT_SAT_holds (n : Nat) : Part.OBS_CAP_CNT.holds (OBS_CAP_CNT_SAT n) :=
  ⟨⟨n % 128, Nat.mod_lt _ (by decide), by first | rfl | (simp only [OBS_CAP_CNT_SAT]; omega)⟩, fun h => by simp [OBS_CAP_CNT_SAT] at h⟩

theorem OBS_CEN_RES_STATUS_holds (n k : Nat) : Part.OBS_CEN_RES.holds (OBS_CEN_RES_STATUS n k) :=
  ⟨⟨n % 128, Nat.mod_lt _ (by decide), k % 32, Nat.mod_lt _ (by decide), 1, by decide, by first | rfl | (simp only [OBS_CEN_RES_STATUS]; omega)⟩, fun h => by simp [OBS_CEN_RES_STATUS] at h⟩

theorem OBS_CEN_RES_PREV_holds (n k : Nat) : Part.OBS_CEN_RES.holds (OBS_CEN_RES_PREV n k) :=
  ⟨⟨n % 128, Nat.mod_lt _ (by decide), k % 32, Nat.mod_lt _ (by decide), 1, by decide, by first | rfl | (simp only [OBS_CEN_RES_PREV]; omega)⟩, fun h => by simp [OBS_CEN_RES_PREV] at h⟩

theorem OBS_CEN_RES_FRAMES_holds (n k : Nat) : Part.OBS_CEN_RES.holds (OBS_CEN_RES_FRAMES n k) :=
  ⟨⟨n % 128, Nat.mod_lt _ (by decide), k % 32, Nat.mod_lt _ (by decide), 1, by decide, by first | rfl | (simp only [OBS_CEN_RES_FRAMES]; omega)⟩, fun h => by simp [OBS_CEN_RES_FRAMES] at h⟩

theorem OBS_CEN_RES_W_holds (n k w : Nat) : Part.OBS_CEN_RES.holds (OBS_CEN_RES_W n k w) :=
  ⟨⟨n % 128, Nat.mod_lt _ (by decide), k % 32, Nat.mod_lt _ (by decide), w % 4, Nat.mod_lt _ (by decide), by first | rfl | (simp only [OBS_CEN_RES_W]; omega)⟩, fun h => by simp [OBS_CEN_RES_W] at h⟩

theorem MOP_ERR_REASON_holds : Part.MOP_ERR.holds MOP_ERR_REASON :=
  ⟨by first | rfl | (simp only [MOP_ERR_REASON]; omega), fun h => by simp [MOP_ERR_REASON] at h⟩

theorem MOP_ERR_CMD_holds : Part.MOP_ERR.holds MOP_ERR_CMD :=
  ⟨by first | rfl | (simp only [MOP_ERR_CMD]; omega), fun h => by simp [MOP_ERR_CMD] at h⟩

theorem MOP_ERR_SRC_holds : Part.MOP_ERR.holds MOP_ERR_SRC :=
  ⟨by first | rfl | (simp only [MOP_ERR_SRC]; omega), fun h => by simp [MOP_ERR_SRC] at h⟩

theorem MOP_ERR_VALID_holds : Part.MOP_ERR.holds MOP_ERR_VALID :=
  ⟨by first | rfl | (simp only [MOP_ERR_VALID]; omega), fun h => by simp [MOP_ERR_VALID] at h⟩

theorem MOP_ERR_SLOT_SLOT_holds : Part.MOP_ERR_SLOT.holds MOP_ERR_SLOT_SLOT :=
  ⟨by first | rfl | (simp only [MOP_ERR_SLOT_SLOT]; omega), fun h => by simp [MOP_ERR_SLOT_SLOT] at h⟩

theorem MOP_ERR_SLOT_ENGINE_holds : Part.MOP_ERR_SLOT.holds MOP_ERR_SLOT_ENGINE :=
  ⟨by first | rfl | (simp only [MOP_ERR_SLOT_ENGINE]; omega), fun h => by simp [MOP_ERR_SLOT_ENGINE] at h⟩

theorem MOP_POOL_CFG1_KIND_holds (p : Nat) : Part.MOP_POOL_CFG1.holds (MOP_POOL_CFG1_KIND p) :=
  ⟨⟨p % 1024, Nat.mod_lt _ (by decide), by first | rfl | (simp only [MOP_POOL_CFG1_KIND]; omega)⟩, fun h => by simp [MOP_POOL_CFG1_KIND] at h⟩

theorem MOP_POOL_STAT_FREE_holds (p : Nat) : Part.MOP_POOL_STAT.holds (MOP_POOL_STAT_FREE p) :=
  ⟨⟨p % 1024, Nat.mod_lt _ (by decide), by first | rfl | (simp only [MOP_POOL_STAT_FREE]; omega)⟩, fun h => by simp [MOP_POOL_STAT_FREE] at h⟩

theorem MOP_POOL_STAT_DROP_holds (p : Nat) : Part.MOP_POOL_STAT.holds (MOP_POOL_STAT_DROP p) :=
  ⟨⟨p % 1024, Nat.mod_lt _ (by decide), by first | rfl | (simp only [MOP_POOL_STAT_DROP]; omega)⟩, fun h => by simp [MOP_POOL_STAT_DROP] at h⟩

theorem MOP_POOL_CNT_DONE_holds (p : Nat) : Part.MOP_POOL_CNT.holds (MOP_POOL_CNT_DONE p) :=
  ⟨⟨p % 1024, Nat.mod_lt _ (by decide), by first | rfl | (simp only [MOP_POOL_CNT_DONE]; omega)⟩, fun h => by simp [MOP_POOL_CNT_DONE] at h⟩

theorem MOP_POOL_CNT_ABORT_holds (p : Nat) : Part.MOP_POOL_CNT.holds (MOP_POOL_CNT_ABORT p) :=
  ⟨⟨p % 1024, Nat.mod_lt _ (by decide), by first | rfl | (simp only [MOP_POOL_CNT_ABORT]; omega)⟩, fun h => by simp [MOP_POOL_CNT_ABORT] at h⟩

theorem MOP_FSP_BASE_BASE_holds (f : Nat) : Part.MOP_FSP_BASE.holds (MOP_FSP_BASE_BASE f) :=
  ⟨⟨f % 256, Nat.mod_lt _ (by decide), by first | rfl | (simp only [MOP_FSP_BASE_BASE]; omega)⟩, fun h => by simp [MOP_FSP_BASE_BASE] at h⟩

theorem MOP_FSP_CNT_NSMALL_holds (f : Nat) : Part.MOP_FSP_CNT.holds (MOP_FSP_CNT_NSMALL f) :=
  ⟨⟨f % 256, Nat.mod_lt _ (by decide), by first | rfl | (simp only [MOP_FSP_CNT_NSMALL]; omega)⟩, fun h => by simp [MOP_FSP_CNT_NSMALL] at h⟩

theorem MOP_FSP_RSV_RSV_SMALL_holds (f : Nat) : Part.MOP_FSP_RSV.holds (MOP_FSP_RSV_RSV_SMALL f) :=
  ⟨⟨f % 256, Nat.mod_lt _ (by decide), by first | rfl | (simp only [MOP_FSP_RSV_RSV_SMALL]; omega)⟩, fun h => by simp [MOP_FSP_RSV_RSV_SMALL] at h⟩

theorem MOP_FSP_FREE_SMALL_holds (f : Nat) : Part.MOP_FSP_FREE.holds (MOP_FSP_FREE_SMALL f) :=
  ⟨⟨f % 256, Nat.mod_lt _ (by decide), by first | rfl | (simp only [MOP_FSP_FREE_SMALL]; omega)⟩, fun h => by simp [MOP_FSP_FREE_SMALL] at h⟩

theorem MOP_FSP_FREE_LARGE_holds (f : Nat) : Part.MOP_FSP_FREE.holds (MOP_FSP_FREE_LARGE f) :=
  ⟨⟨f % 256, Nat.mod_lt _ (by decide), by first | rfl | (simp only [MOP_FSP_FREE_LARGE]; omega)⟩, fun h => by simp [MOP_FSP_FREE_LARGE] at h⟩

theorem MOP_FSP_LOW_SMALL_holds (f : Nat) : Part.MOP_FSP_LOW.holds (MOP_FSP_LOW_SMALL f) :=
  ⟨⟨f % 256, Nat.mod_lt _ (by decide), by first | rfl | (simp only [MOP_FSP_LOW_SMALL]; omega)⟩, fun h => by simp [MOP_FSP_LOW_SMALL] at h⟩

theorem MOP_FSP_LOW_LARGE_holds (f : Nat) : Part.MOP_FSP_LOW.holds (MOP_FSP_LOW_LARGE f) :=
  ⟨⟨f % 256, Nat.mod_lt _ (by decide), by first | rfl | (simp only [MOP_FSP_LOW_LARGE]; omega)⟩, fun h => by simp [MOP_FSP_LOW_LARGE] at h⟩

theorem MOP_PORTQ_ORDER_holds (n : Nat) : Part.MOP_PORTQ.holds (MOP_PORTQ_ORDER n) :=
  ⟨⟨n % 128, Nat.mod_lt _ (by decide), by first | rfl | (simp only [MOP_PORTQ_ORDER]; omega)⟩, fun h => by simp [MOP_PORTQ_ORDER] at h⟩

theorem MOP_PORTQ_NQ_holds (n : Nat) : Part.MOP_PORTQ.holds (MOP_PORTQ_NQ n) :=
  ⟨⟨n % 128, Nat.mod_lt _ (by decide), by first | rfl | (simp only [MOP_PORTQ_NQ]; omega)⟩, fun h => by simp [MOP_PORTQ_NQ] at h⟩

theorem MOP_PORTHEAD_SLOT_holds (n : Nat) : Part.MOP_PORTHEAD.holds (MOP_PORTHEAD_SLOT n) :=
  ⟨⟨n % 128, Nat.mod_lt _ (by decide), by first | rfl | (simp only [MOP_PORTHEAD_SLOT]; omega)⟩, fun h => by simp [MOP_PORTHEAD_SLOT] at h⟩

theorem MOP_PORTHEAD_VALID_holds (n : Nat) : Part.MOP_PORTHEAD.holds (MOP_PORTHEAD_VALID n) :=
  ⟨⟨n % 128, Nat.mod_lt _ (by decide), by first | rfl | (simp only [MOP_PORTHEAD_VALID]; omega)⟩, fun h => by simp [MOP_PORTHEAD_VALID] at h⟩

theorem MOP_MON_CFG_SLOT_holds (m : Nat) : Part.MOP_MON_CFG.holds (MOP_MON_CFG_SLOT m) :=
  ⟨⟨m % 4096, Nat.mod_lt _ (by decide), by first | rfl | (simp only [MOP_MON_CFG_SLOT]; omega)⟩, fun h => by simp [MOP_MON_CFG_SLOT] at h⟩

theorem MOP_MON_CFG_EN_holds (m : Nat) : Part.MOP_MON_CFG.holds (MOP_MON_CFG_EN m) :=
  ⟨⟨m % 4096, Nat.mod_lt _ (by decide), by first | rfl | (simp only [MOP_MON_CFG_EN]; omega)⟩, fun h => by simp [MOP_MON_CFG_EN] at h⟩

theorem MOP_MON_CFG_ONESHOT_holds (m : Nat) : Part.MOP_MON_CFG.holds (MOP_MON_CFG_ONESHOT m) :=
  ⟨⟨m % 4096, Nat.mod_lt _ (by decide), by first | rfl | (simp only [MOP_MON_CFG_ONESHOT]; omega)⟩, fun h => by simp [MOP_MON_CFG_ONESHOT] at h⟩

theorem MOP_MON_CFG_TAINT_MISS_holds (m : Nat) : Part.MOP_MON_CFG.holds (MOP_MON_CFG_TAINT_MISS m) :=
  ⟨⟨m % 4096, Nat.mod_lt _ (by decide), by first | rfl | (simp only [MOP_MON_CFG_TAINT_MISS]; omega)⟩, fun h => by simp [MOP_MON_CFG_TAINT_MISS] at h⟩

theorem MOP_MON_NEXT_NS_holds (m : Nat) : Part.MOP_MON_NEXT.holds (MOP_MON_NEXT_NS m) :=
  ⟨⟨m % 4096, Nat.mod_lt _ (by decide), 0, by decide, by first | rfl | (simp only [MOP_MON_NEXT_NS]; omega)⟩, fun h => by simp [MOP_MON_NEXT_NS] at h⟩

theorem MOP_MON_STAT_TIMEOUTS_holds (m : Nat) : Part.MOP_MON_STAT.holds (MOP_MON_STAT_TIMEOUTS m) :=
  ⟨⟨m % 4096, Nat.mod_lt _ (by decide), by first | rfl | (simp only [MOP_MON_STAT_TIMEOUTS]; omega)⟩, fun h => by simp [MOP_MON_STAT_TIMEOUTS] at h⟩

theorem MOP_MON_STAT_HITS_holds (m : Nat) : Part.MOP_MON_STAT.holds (MOP_MON_STAT_HITS m) :=
  ⟨⟨m % 4096, Nat.mod_lt _ (by decide), by first | rfl | (simp only [MOP_MON_STAT_HITS]; omega)⟩, fun h => by simp [MOP_MON_STAT_HITS] at h⟩

theorem MOP_DESC_STATE_holds (s : Nat) : Part.MOP_DESC.holds (MOP_DESC_STATE s) :=
  ⟨⟨s % 65536, Nat.mod_lt _ (by decide), 0, by decide, by first | rfl | (simp only [MOP_DESC_STATE]; omega)⟩, fun h => by simp [MOP_DESC_STATE] at h⟩

theorem MOP_DESC_DIR_holds (s : Nat) : Part.MOP_DESC.holds (MOP_DESC_DIR s) :=
  ⟨⟨s % 65536, Nat.mod_lt _ (by decide), 0, by decide, by first | rfl | (simp only [MOP_DESC_DIR]; omega)⟩, fun h => by simp [MOP_DESC_DIR] at h⟩

theorem MOP_DESC_TAINT_holds (s : Nat) : Part.MOP_DESC.holds (MOP_DESC_TAINT s) :=
  ⟨⟨s % 65536, Nat.mod_lt _ (by decide), 0, by decide, by first | rfl | (simp only [MOP_DESC_TAINT]; omega)⟩, fun h => by simp [MOP_DESC_TAINT] at h⟩

theorem MOP_DESC_WP_holds (s : Nat) : Part.MOP_DESC.holds (MOP_DESC_WP s) :=
  ⟨⟨s % 65536, Nat.mod_lt _ (by decide), 0, by decide, by first | rfl | (simp only [MOP_DESC_WP]; omega)⟩, fun h => by simp [MOP_DESC_WP] at h⟩

theorem MOP_DESC_DL_EN_holds (s : Nat) : Part.MOP_DESC.holds (MOP_DESC_DL_EN s) :=
  ⟨⟨s % 65536, Nat.mod_lt _ (by decide), 0, by decide, by first | rfl | (simp only [MOP_DESC_DL_EN]; omega)⟩, fun h => by simp [MOP_DESC_DL_EN] at h⟩

theorem MOP_DESC_CODE_holds (s : Nat) : Part.MOP_DESC.holds (MOP_DESC_CODE s) :=
  ⟨⟨s % 65536, Nat.mod_lt _ (by decide), 0, by decide, by first | rfl | (simp only [MOP_DESC_CODE]; omega)⟩, fun h => by simp [MOP_DESC_CODE] at h⟩

theorem MOP_DESC_TAG_holds (s : Nat) : Part.MOP_DESC.holds (MOP_DESC_TAG s) :=
  ⟨⟨s % 65536, Nat.mod_lt _ (by decide), 0, by decide, by first | rfl | (simp only [MOP_DESC_TAG]; omega)⟩, fun h => by simp [MOP_DESC_TAG] at h⟩

theorem MOP_DESC_ESI_holds (s : Nat) : Part.MOP_DESC.holds (MOP_DESC_ESI s) :=
  ⟨⟨s % 65536, Nat.mod_lt _ (by decide), 2, by decide, by first | rfl | (simp only [MOP_DESC_ESI]; omega)⟩, fun h => by simp [MOP_DESC_ESI] at h⟩

theorem MOP_DESC_BUF_holds (s : Nat) : Part.MOP_DESC.holds (MOP_DESC_BUF s) :=
  ⟨⟨s % 65536, Nat.mod_lt _ (by decide), 4, by decide, by first | rfl | (simp only [MOP_DESC_BUF]; omega)⟩, fun h => by simp [MOP_DESC_BUF] at h⟩

theorem MOP_DESC_PORT_holds (s : Nat) : Part.MOP_DESC.holds (MOP_DESC_PORT s) :=
  ⟨⟨s % 65536, Nat.mod_lt _ (by decide), 5, by decide, by first | rfl | (simp only [MOP_DESC_PORT]; omega)⟩, fun h => by simp [MOP_DESC_PORT] at h⟩

theorem MOP_DESC_DUP_holds (s : Nat) : Part.MOP_DESC.holds (MOP_DESC_DUP s) :=
  ⟨⟨s % 65536, Nat.mod_lt _ (by decide), 5, by decide, by first | rfl | (simp only [MOP_DESC_DUP]; omega)⟩, fun h => by simp [MOP_DESC_DUP] at h⟩

theorem MOP_DESC_ATT_holds (s : Nat) : Part.MOP_DESC.holds (MOP_DESC_ATT s) :=
  ⟨⟨s % 65536, Nat.mod_lt _ (by decide), 5, by decide, by first | rfl | (simp only [MOP_DESC_ATT]; omega)⟩, fun h => by simp [MOP_DESC_ATT] at h⟩

theorem MOP_DESC_MATCH_holds (s : Nat) : Part.MOP_DESC.holds (MOP_DESC_MATCH s) :=
  ⟨⟨s % 65536, Nat.mod_lt _ (by decide), 5, by decide, by first | rfl | (simp only [MOP_DESC_MATCH]; omega)⟩, fun h => by simp [MOP_DESC_MATCH] at h⟩

theorem MOP_DESC_MATCHED_holds (s : Nat) : Part.MOP_DESC.holds (MOP_DESC_MATCHED s) :=
  ⟨⟨s % 65536, Nat.mod_lt _ (by decide), 5, by decide, by first | rfl | (simp only [MOP_DESC_MATCHED]; omega)⟩, fun h => by simp [MOP_DESC_MATCHED] at h⟩

theorem MOP_DESC_W_holds (s w : Nat) : Part.MOP_DESC.holds (MOP_DESC_W s w) :=
  ⟨⟨s % 65536, Nat.mod_lt _ (by decide), w % 8, Nat.mod_lt _ (by decide), by first | rfl | (simp only [MOP_DESC_W]; omega)⟩, fun h => by simp [MOP_DESC_W] at h⟩

theorem CAT_UPD_STAT_STATE_holds (q : Nat) : Part.CAT_UPD_STAT.holds (CAT_UPD_STAT_STATE q) :=
  ⟨⟨q % 128, Nat.mod_lt _ (by decide), by first | rfl | (simp only [CAT_UPD_STAT_STATE, perRequester]; omega)⟩, fun h => by simp [CAT_UPD_STAT_STATE] at h⟩

theorem CAT_UPD_STAT_REFUSE_holds (q : Nat) : Part.CAT_UPD_STAT.holds (CAT_UPD_STAT_REFUSE q) :=
  ⟨⟨q % 128, Nat.mod_lt _ (by decide), by first | rfl | (simp only [CAT_UPD_STAT_REFUSE, perRequester]; omega)⟩, fun h => by simp [CAT_UPD_STAT_REFUSE] at h⟩

theorem CAT_UPD_STAT_REASON_holds (q : Nat) : Part.CAT_UPD_STAT.holds (CAT_UPD_STAT_REASON q) :=
  ⟨⟨q % 128, Nat.mod_lt _ (by decide), by first | rfl | (simp only [CAT_UPD_STAT_REASON, perRequester]; omega)⟩, fun h => by simp [CAT_UPD_STAT_REASON] at h⟩

theorem CAT_UPD_IDX_INDEX_holds (q : Nat) : Part.CAT_UPD_IDX.holds (CAT_UPD_IDX_INDEX q) :=
  ⟨⟨q % 128, Nat.mod_lt _ (by decide), by first | rfl | (simp only [CAT_UPD_IDX_INDEX, perRequester]; omega)⟩, fun h => by simp [CAT_UPD_IDX_INDEX] at h⟩

theorem CAT_UPD_T_NS_holds (q : Nat) : Part.CAT_UPD_T.holds (CAT_UPD_T_NS q) :=
  ⟨⟨q % 128, Nat.mod_lt _ (by decide), 0, by decide, by first | rfl | (simp only [CAT_UPD_T_NS, perRequester]; omega)⟩, fun h => by simp [CAT_UPD_T_NS] at h⟩

theorem CAT_USE_USED_holds : Part.CAT_USE.holds CAT_USE_USED :=
  ⟨by first | rfl | (simp only [CAT_USE_USED]; omega), fun h => by simp [CAT_USE_USED] at h⟩

theorem CAT_USE_SPARE_holds : Part.CAT_USE.holds CAT_USE_SPARE :=
  ⟨by first | rfl | (simp only [CAT_USE_SPARE]; omega), fun h => by simp [CAT_USE_SPARE] at h⟩

theorem CAT_TBL_CFG0_BASE_holds (t : Nat) : Part.CAT_TBL_CFG0.holds (CAT_TBL_CFG0_BASE t) :=
  ⟨⟨t % 256, Nat.mod_lt _ (by decide), by first | rfl | (simp only [CAT_TBL_CFG0_BASE]; omega)⟩, fun h => by simp [CAT_TBL_CFG0_BASE] at h⟩

theorem CAT_PCNT_HIT_holds (n : Nat) : Part.CAT_PCNT.holds (CAT_PCNT_HIT n) :=
  ⟨⟨n % 128, Nat.mod_lt _ (by decide), by first | rfl | (simp only [CAT_PCNT_HIT]; omega)⟩, fun h => by simp [CAT_PCNT_HIT] at h⟩

theorem CAT_PCNT_MISS_holds (n : Nat) : Part.CAT_PCNT.holds (CAT_PCNT_MISS n) :=
  ⟨⟨n % 128, Nat.mod_lt _ (by decide), by first | rfl | (simp only [CAT_PCNT_MISS]; omega)⟩, fun h => by simp [CAT_PCNT_MISS] at h⟩

theorem CAT_ENTRY_W_holds (i w : Nat) : Part.CAT_ENTRY.holds (CAT_ENTRY_W i w) :=
  ⟨⟨i % 32768, Nat.mod_lt _ (by decide), w % 8, Nat.mod_lt _ (by decide), by first | rfl | (simp only [CAT_ENTRY_W]; omega)⟩, fun h => by simp [CAT_ENTRY_W] at h⟩

theorem ECF_STAT_ESTATE_holds (n : Nat) : Part.ECF_STAT.holds (ECF_STAT_ESTATE n) :=
  ⟨⟨n % 128, Nat.mod_lt _ (by decide), by first | rfl | (simp only [ECF_STAT_ESTATE]; omega)⟩, fun h => by simp [ECF_STAT_ESTATE] at h⟩

theorem ECF_STAT_WARN_holds (n : Nat) : Part.ECF_STAT.holds (ECF_STAT_WARN n) :=
  ⟨⟨n % 128, Nat.mod_lt _ (by decide), by first | rfl | (simp only [ECF_STAT_WARN]; omega)⟩, fun h => by simp [ECF_STAT_WARN] at h⟩

theorem ECF_STAT_RSTEP_holds (n : Nat) : Part.ECF_STAT.holds (ECF_STAT_RSTEP n) :=
  ⟨⟨n % 128, Nat.mod_lt _ (by decide), by first | rfl | (simp only [ECF_STAT_RSTEP]; omega)⟩, fun h => by simp [ECF_STAT_RSTEP] at h⟩

theorem ECF_STAT_CMDERR_holds (n : Nat) : Part.ECF_STAT.holds (ECF_STAT_CMDERR n) :=
  ⟨⟨n % 128, Nat.mod_lt _ (by decide), by first | rfl | (simp only [ECF_STAT_CMDERR]; omega)⟩, fun h => by simp [ECF_STAT_CMDERR] at h⟩

theorem ECF_STAT_SLOPE_holds (n : Nat) : Part.ECF_STAT.holds (ECF_STAT_SLOPE n) :=
  ⟨⟨n % 128, Nat.mod_lt _ (by decide), by first | rfl | (simp only [ECF_STAT_SLOPE]; omega)⟩, fun h => by simp [ECF_STAT_SLOPE] at h⟩

theorem ECF_STAT_SEQ_holds (n : Nat) : Part.ECF_STAT.holds (ECF_STAT_SEQ n) :=
  ⟨⟨n % 128, Nat.mod_lt _ (by decide), by first | rfl | (simp only [ECF_STAT_SEQ]; omega)⟩, fun h => by simp [ECF_STAT_SEQ] at h⟩

theorem ECF_STAT_QPEND_holds (n : Nat) : Part.ECF_STAT.holds (ECF_STAT_QPEND n) :=
  ⟨⟨n % 128, Nat.mod_lt _ (by decide), by first | rfl | (simp only [ECF_STAT_QPEND]; omega)⟩, fun h => by simp [ECF_STAT_QPEND] at h⟩

theorem ECF_CNT_TEC_holds (n : Nat) : Part.ECF_CNT.holds (ECF_CNT_TEC n) :=
  ⟨⟨n % 128, Nat.mod_lt _ (by decide), by first | rfl | (simp only [ECF_CNT_TEC]; omega)⟩, fun h => by simp [ECF_CNT_TEC] at h⟩

theorem ECF_CNT_REC_holds (n : Nat) : Part.ECF_CNT.holds (ECF_CNT_REC n) :=
  ⟨⟨n % 128, Nat.mod_lt _ (by decide), by first | rfl | (simp only [ECF_CNT_REC]; omega)⟩, fun h => by simp [ECF_CNT_REC] at h⟩

theorem ECF_LAST_TYPE_holds (n : Nat) : Part.ECF_LAST.holds (ECF_LAST_TYPE n) :=
  ⟨⟨n % 128, Nat.mod_lt _ (by decide), by first | rfl | (simp only [ECF_LAST_TYPE]; omega)⟩, fun h => by simp [ECF_LAST_TYPE] at h⟩

theorem ECF_LAST_DIR_holds (n : Nat) : Part.ECF_LAST.holds (ECF_LAST_DIR n) :=
  ⟨⟨n % 128, Nat.mod_lt _ (by decide), by first | rfl | (simp only [ECF_LAST_DIR]; omega)⟩, fun h => by simp [ECF_LAST_DIR] at h⟩

theorem ECF_LAST_PHASE_holds (n : Nat) : Part.ECF_LAST.holds (ECF_LAST_PHASE n) :=
  ⟨⟨n % 128, Nat.mod_lt _ (by decide), by first | rfl | (simp only [ECF_LAST_PHASE]; omega)⟩, fun h => by simp [ECF_LAST_PHASE] at h⟩

theorem ECF_LAST_FIELD_holds (n : Nat) : Part.ECF_LAST.holds (ECF_LAST_FIELD n) :=
  ⟨⟨n % 128, Nat.mod_lt _ (by decide), by first | rfl | (simp only [ECF_LAST_FIELD]; omega)⟩, fun h => by simp [ECF_LAST_FIELD] at h⟩

theorem ECF_LAST_POS_holds (n : Nat) : Part.ECF_LAST.holds (ECF_LAST_POS n) :=
  ⟨⟨n % 128, Nat.mod_lt _ (by decide), by first | rfl | (simp only [ECF_LAST_POS]; omega)⟩, fun h => by simp [ECF_LAST_POS] at h⟩

theorem ECF_LAST_VALID_holds (n : Nat) : Part.ECF_LAST.holds (ECF_LAST_VALID n) :=
  ⟨⟨n % 128, Nat.mod_lt _ (by decide), by first | rfl | (simp only [ECF_LAST_VALID]; omega)⟩, fun h => by simp [ECF_LAST_VALID] at h⟩

theorem ECF_LAST_T_NS_holds (n : Nat) : Part.ECF_LAST_T.holds (ECF_LAST_T_NS n) :=
  ⟨⟨n % 128, Nat.mod_lt _ (by decide), 0, by decide, by first | rfl | (simp only [ECF_LAST_T_NS]; omega)⟩, fun h => by simp [ECF_LAST_T_NS] at h⟩

theorem ECF_ERRCNT_RX_holds (n : Nat) : Part.ECF_ERRCNT.holds (ECF_ERRCNT_RX n) :=
  ⟨⟨n % 128, Nat.mod_lt _ (by decide), by first | rfl | (simp only [ECF_ERRCNT_RX]; omega)⟩, fun h => by simp [ECF_ERRCNT_RX] at h⟩

theorem ECF_ERRCNT_TX_holds (n : Nat) : Part.ECF_ERRCNT.holds (ECF_ERRCNT_TX n) :=
  ⟨⟨n % 128, Nat.mod_lt _ (by decide), by first | rfl | (simp only [ECF_ERRCNT_TX]; omega)⟩, fun h => by simp [ECF_ERRCNT_TX] at h⟩

theorem ECF_BO_TOTAL_holds (n : Nat) : Part.ECF_BO.holds (ECF_BO_TOTAL n) :=
  ⟨⟨n % 128, Nat.mod_lt _ (by decide), by first | rfl | (simp only [ECF_BO_TOTAL]; omega)⟩, fun h => by simp [ECF_BO_TOTAL] at h⟩

theorem ECF_BO_ESC_holds (n : Nat) : Part.ECF_BO.holds (ECF_BO_ESC n) :=
  ⟨⟨n % 128, Nat.mod_lt _ (by decide), by first | rfl | (simp only [ECF_BO_ESC]; omega)⟩, fun h => by simp [ECF_BO_ESC] at h⟩

theorem ECF_BO_CAUSE_holds (n : Nat) : Part.ECF_BO.holds (ECF_BO_CAUSE n) :=
  ⟨⟨n % 128, Nat.mod_lt _ (by decide), by first | rfl | (simp only [ECF_BO_CAUSE]; omega)⟩, fun h => by simp [ECF_BO_CAUSE] at h⟩

theorem ECF_BO_T_NS_holds (n : Nat) : Part.ECF_BO_T.holds (ECF_BO_T_NS n) :=
  ⟨⟨n % 128, Nat.mod_lt _ (by decide), 0, by decide, by first | rfl | (simp only [ECF_BO_T_NS]; omega)⟩, fun h => by simp [ECF_BO_T_NS] at h⟩

theorem ECF_BO_DUR_US_holds (n : Nat) : Part.ECF_BO_DUR.holds (ECF_BO_DUR_US n) :=
  ⟨⟨n % 128, Nat.mod_lt _ (by decide), by first | rfl | (simp only [ECF_BO_DUR_US]; omega)⟩, fun h => by simp [ECF_BO_DUR_US] at h⟩

theorem ECF_MISC_ABANDON_holds (n : Nat) : Part.ECF_MISC.holds (ECF_MISC_ABANDON n) :=
  ⟨⟨n % 128, Nat.mod_lt _ (by decide), by first | rfl | (simp only [ECF_MISC_ABANDON]; omega)⟩, fun h => by simp [ECF_MISC_ABANDON] at h⟩

theorem ECF_MISC_SLOPEW_holds (n : Nat) : Part.ECF_MISC.holds (ECF_MISC_SLOPEW n) :=
  ⟨⟨n % 128, Nat.mod_lt _ (by decide), by first | rfl | (simp only [ECF_MISC_SLOPEW]; omega)⟩, fun h => by simp [ECF_MISC_SLOPEW] at h⟩

theorem ECF_ETH_FCS_holds (n : Nat) : Part.ECF_ETH.holds (ECF_ETH_FCS n) :=
  ⟨⟨n % 128, Nat.mod_lt _ (by decide), by first | rfl | (simp only [ECF_ETH_FCS]; omega)⟩, fun h => by simp [ECF_ETH_FCS] at h⟩

theorem ECF_ETH_LEN_holds (n : Nat) : Part.ECF_ETH.holds (ECF_ETH_LEN n) :=
  ⟨⟨n % 128, Nat.mod_lt _ (by decide), by first | rfl | (simp only [ECF_ETH_LEN]; omega)⟩, fun h => by simp [ECF_ETH_LEN] at h⟩

theorem ECF_ETH_COLL_COLL_holds (n : Nat) : Part.ECF_ETH_COLL.holds (ECF_ETH_COLL_COLL n) :=
  ⟨⟨n % 128, Nat.mod_lt _ (by decide), by first | rfl | (simp only [ECF_ETH_COLL_COLL]; omega)⟩, fun h => by simp [ECF_ETH_COLL_COLL] at h⟩

theorem ECF_ETH_COLL_EXCESS_holds (n : Nat) : Part.ECF_ETH_COLL.holds (ECF_ETH_COLL_EXCESS n) :=
  ⟨⟨n % 128, Nat.mod_lt _ (by decide), by first | rfl | (simp only [ECF_ETH_COLL_EXCESS]; omega)⟩, fun h => by simp [ECF_ETH_COLL_EXCESS] at h⟩

theorem GW_STAT_NROUTE_holds : Part.GW_STAT.holds GW_STAT_NROUTE :=
  ⟨by first | rfl | (simp only [GW_STAT_NROUTE]; omega), fun h => by simp [GW_STAT_NROUTE] at h⟩

theorem GW_STAT_NLEG_holds : Part.GW_STAT.holds GW_STAT_NLEG :=
  ⟨by first | rfl | (simp only [GW_STAT_NLEG]; omega), fun h => by simp [GW_STAT_NLEG] at h⟩

theorem GW_BRK_KIND_holds : Part.GW_BRK.holds GW_BRK_KIND :=
  ⟨by first | rfl | (simp only [GW_BRK_KIND]; omega), fun h => by simp [GW_BRK_KIND] at h⟩

theorem GW_BRK_ROUTE_holds : Part.GW_BRK.holds GW_BRK_ROUTE :=
  ⟨by first | rfl | (simp only [GW_BRK_ROUTE]; omega), fun h => by simp [GW_BRK_ROUTE] at h⟩

theorem GW_BRK_LEG_holds : Part.GW_BRK.holds GW_BRK_LEG :=
  ⟨by first | rfl | (simp only [GW_BRK_LEG]; omega), fun h => by simp [GW_BRK_LEG] at h⟩

theorem GW_BRK_TARGET_holds : Part.GW_BRK.holds GW_BRK_TARGET :=
  ⟨by first | rfl | (simp only [GW_BRK_TARGET]; omega), fun h => by simp [GW_BRK_TARGET] at h⟩

theorem GW_BRK_VALID_holds : Part.GW_BRK.holds GW_BRK_VALID :=
  ⟨by first | rfl | (simp only [GW_BRK_VALID]; omega), fun h => by simp [GW_BRK_VALID] at h⟩

theorem GW_BRK_LATE_NS_holds : Part.GW_BRK_LATE.holds GW_BRK_LATE_NS :=
  ⟨by first | rfl | (simp only [GW_BRK_LATE_NS]; omega), fun h => by simp [GW_BRK_LATE_NS] at h⟩

theorem GW_BRK_T_NS_holds : Part.GW_BRK_T.holds GW_BRK_T_NS :=
  ⟨⟨0, by decide, by first | rfl | (simp only [GW_BRK_T_NS]; omega)⟩, fun h => by simp [GW_BRK_T_NS] at h⟩

theorem GW_BRKW_OPEN_holds (k : Nat) : Part.GW_BRKW.holds (GW_BRKW_OPEN k) :=
  ⟨⟨k % 8, Nat.mod_lt _ (by decide), by first | rfl | (simp only [GW_BRKW_OPEN]; omega)⟩, fun h => by simp [GW_BRKW_OPEN] at h⟩

theorem GW_RT_CFG_VALID_holds (r : Nat) : Part.GW_RT_CFG.holds (GW_RT_CFG_VALID r) :=
  ⟨⟨r % 1024, Nat.mod_lt _ (by decide), by first | rfl | (simp only [GW_RT_CFG_VALID]; omega)⟩, fun h => by simp [GW_RT_CFG_VALID] at h⟩

theorem GW_RT_H_NS_holds (r : Nat) : Part.GW_RT_H.holds (GW_RT_H_NS r) :=
  ⟨⟨r % 1024, Nat.mod_lt _ (by decide), by first | rfl | (simp only [GW_RT_H_NS]; omega)⟩, fun h => by simp [GW_RT_H_NS] at h⟩

theorem GW_RT_LEGS_M_holds (r : Nat) : Part.GW_RT_LEGS.holds (GW_RT_LEGS_M r) :=
  ⟨⟨r % 1024, Nat.mod_lt _ (by decide), by first | rfl | (simp only [GW_RT_LEGS_M]; omega)⟩, fun h => by simp [GW_RT_LEGS_M] at h⟩

theorem GW_RT_CNT_FWD_holds (r : Nat) : Part.GW_RT_CNT.holds (GW_RT_CNT_FWD r) :=
  ⟨⟨r % 1024, Nat.mod_lt _ (by decide), by first | rfl | (simp only [GW_RT_CNT_FWD]; omega)⟩, fun h => by simp [GW_RT_CNT_FWD] at h⟩

theorem GW_RT_DROP_POLICE_holds (r : Nat) : Part.GW_RT_DROP.holds (GW_RT_DROP_POLICE r) :=
  ⟨⟨r % 1024, Nat.mod_lt _ (by decide), by first | rfl | (simp only [GW_RT_DROP_POLICE]; omega)⟩, fun h => by simp [GW_RT_DROP_POLICE] at h⟩

theorem GW_RT_DROP_TAINT_holds (r : Nat) : Part.GW_RT_DROP.holds (GW_RT_DROP_TAINT r) :=
  ⟨⟨r % 1024, Nat.mod_lt _ (by decide), by first | rfl | (simp only [GW_RT_DROP_TAINT]; omega)⟩, fun h => by simp [GW_RT_DROP_TAINT] at h⟩

theorem GW_RT_BRK_BREACH_holds (r : Nat) : Part.GW_RT_BRK.holds (GW_RT_BRK_BREACH r) :=
  ⟨⟨r % 1024, Nat.mod_lt _ (by decide), by first | rfl | (simp only [GW_RT_BRK_BREACH]; omega)⟩, fun h => by simp [GW_RT_BRK_BREACH] at h⟩

theorem GW_RT_BRK_DUP_holds (r : Nat) : Part.GW_RT_BRK.holds (GW_RT_BRK_DUP r) :=
  ⟨⟨r % 1024, Nat.mod_lt _ (by decide), by first | rfl | (simp only [GW_RT_BRK_DUP]; omega)⟩, fun h => by simp [GW_RT_BRK_DUP] at h⟩

theorem GW_LEG_Q_QDEPTH_holds (l : Nat) : Part.GW_LEG_Q.holds (GW_LEG_Q_QDEPTH l) :=
  ⟨⟨l % 1024, Nat.mod_lt _ (by decide), by first | rfl | (simp only [GW_LEG_Q_QDEPTH]; omega)⟩, fun h => by simp [GW_LEG_Q_QDEPTH] at h⟩

theorem GW_LEG_Q_INUSE_holds (l : Nat) : Part.GW_LEG_Q.holds (GW_LEG_Q_INUSE l) :=
  ⟨⟨l % 1024, Nat.mod_lt _ (by decide), by first | rfl | (simp only [GW_LEG_Q_INUSE]; omega)⟩, fun h => by simp [GW_LEG_Q_INUSE] at h⟩

theorem GW_LEG_STAT_REL_holds (l : Nat) : Part.GW_LEG_STAT.holds (GW_LEG_STAT_REL l) :=
  ⟨⟨l % 1024, Nat.mod_lt _ (by decide), by first | rfl | (simp only [GW_LEG_STAT_REL]; omega)⟩, fun h => by simp [GW_LEG_STAT_REL] at h⟩

theorem GW_LEG_STAT_DEFER2_holds (l : Nat) : Part.GW_LEG_STAT.holds (GW_LEG_STAT_DEFER2 l) :=
  ⟨⟨l % 1024, Nat.mod_lt _ (by decide), by first | rfl | (simp only [GW_LEG_STAT_DEFER2]; omega)⟩, fun h => by simp [GW_LEG_STAT_DEFER2] at h⟩

theorem GW_TUN_SEQ_HI_holds (s : Nat) : Part.GW_TUN_SEQ.holds (GW_TUN_SEQ_HI s) :=
  ⟨⟨s % 64, Nat.mod_lt _ (by decide), by first | rfl | (simp only [GW_TUN_SEQ_HI]; omega)⟩, fun h => by simp [GW_TUN_SEQ_HI] at h⟩

theorem GW_TUN_SEQ_HV_holds (s : Nat) : Part.GW_TUN_SEQ.holds (GW_TUN_SEQ_HV s) :=
  ⟨⟨s % 64, Nat.mod_lt _ (by decide), by first | rfl | (simp only [GW_TUN_SEQ_HV]; omega)⟩, fun h => by simp [GW_TUN_SEQ_HV] at h⟩

theorem GW_TUN_SEQ_TXSEQ_holds (s : Nat) : Part.GW_TUN_SEQ.holds (GW_TUN_SEQ_TXSEQ s) :=
  ⟨⟨s % 64, Nat.mod_lt _ (by decide), by first | rfl | (simp only [GW_TUN_SEQ_TXSEQ]; omega)⟩, fun h => by simp [GW_TUN_SEQ_TXSEQ] at h⟩

theorem GW_TUN_CNT_RX_holds (s : Nat) : Part.GW_TUN_CNT.holds (GW_TUN_CNT_RX s) :=
  ⟨⟨s % 64, Nat.mod_lt _ (by decide), by first | rfl | (simp only [GW_TUN_CNT_RX]; omega)⟩, fun h => by simp [GW_TUN_CNT_RX] at h⟩

theorem GW_TUN_CNT_TX_holds (s : Nat) : Part.GW_TUN_CNT.holds (GW_TUN_CNT_TX s) :=
  ⟨⟨s % 64, Nat.mod_lt _ (by decide), by first | rfl | (simp only [GW_TUN_CNT_TX]; omega)⟩, fun h => by simp [GW_TUN_CNT_TX] at h⟩

theorem GW_TUN_DUP_DUP_holds (s : Nat) : Part.GW_TUN_DUP.holds (GW_TUN_DUP_DUP s) :=
  ⟨⟨s % 64, Nat.mod_lt _ (by decide), by first | rfl | (simp only [GW_TUN_DUP_DUP]; omega)⟩, fun h => by simp [GW_TUN_DUP_DUP] at h⟩

theorem GW_TUN_DUP_STALE_holds (s : Nat) : Part.GW_TUN_DUP.holds (GW_TUN_DUP_STALE s) :=
  ⟨⟨s % 64, Nat.mod_lt _ (by decide), by first | rfl | (simp only [GW_TUN_DUP_STALE]; omega)⟩, fun h => by simp [GW_TUN_DUP_STALE] at h⟩

theorem GW_TUN_DUP_SKIP_holds (s : Nat) : Part.GW_TUN_DUP.holds (GW_TUN_DUP_SKIP s) :=
  ⟨⟨s % 64, Nat.mod_lt _ (by decide), by first | rfl | (simp only [GW_TUN_DUP_SKIP]; omega)⟩, fun h => by simp [GW_TUN_DUP_SKIP] at h⟩

theorem GW_EQ_STAT_BRW_holds (t : Nat) : Part.GW_EQ_STAT.holds (GW_EQ_STAT_BRW t) :=
  ⟨⟨t % 256, Nat.mod_lt _ (by decide), by first | rfl | (simp only [GW_EQ_STAT_BRW]; omega)⟩, fun h => by simp [GW_EQ_STAT_BRW] at h⟩

theorem GW_EQ_STAT_SUSP_holds (t : Nat) : Part.GW_EQ_STAT.holds (GW_EQ_STAT_SUSP t) :=
  ⟨⟨t % 256, Nat.mod_lt _ (by decide), by first | rfl | (simp only [GW_EQ_STAT_SUSP]; omega)⟩, fun h => by simp [GW_EQ_STAT_SUSP] at h⟩

theorem GW_EQ_STAT_NPEND_holds (t : Nat) : Part.GW_EQ_STAT.holds (GW_EQ_STAT_NPEND t) :=
  ⟨⟨t % 256, Nat.mod_lt _ (by decide), by first | rfl | (simp only [GW_EQ_STAT_NPEND]; omega)⟩, fun h => by simp [GW_EQ_STAT_NPEND] at h⟩

theorem GW_EQ_CNT_BREACH_holds (t : Nat) : Part.GW_EQ_CNT.holds (GW_EQ_CNT_BREACH t) :=
  ⟨⟨t % 256, Nat.mod_lt _ (by decide), by first | rfl | (simp only [GW_EQ_CNT_BREACH]; omega)⟩, fun h => by simp [GW_EQ_CNT_BREACH] at h⟩

theorem GW_EQ_CNT_CLOSED_holds (t : Nat) : Part.GW_EQ_CNT.holds (GW_EQ_CNT_CLOSED t) :=
  ⟨⟨t % 256, Nat.mod_lt _ (by decide), by first | rfl | (simp only [GW_EQ_CNT_CLOSED]; omega)⟩, fun h => by simp [GW_EQ_CNT_CLOSED] at h⟩

theorem RGN_OPP_TARGET_holds (r : Nat) : Part.RGN_OPP.holds (RGN_OPP_TARGET r) :=
  ⟨⟨r % 16, Nat.mod_lt _ (by decide), by first | rfl | (simp only [RGN_OPP_TARGET]; omega)⟩, fun h => by simp [RGN_OPP_TARGET] at h⟩

theorem RGN_OPP_CURRENT_holds (r : Nat) : Part.RGN_OPP.holds (RGN_OPP_CURRENT r) :=
  ⟨⟨r % 16, Nat.mod_lt _ (by decide), by first | rfl | (simp only [RGN_OPP_CURRENT]; omega)⟩, fun h => by simp [RGN_OPP_CURRENT] at h⟩

theorem RGN_OPP_BUSY_holds (r : Nat) : Part.RGN_OPP.holds (RGN_OPP_BUSY r) :=
  ⟨⟨r % 16, Nat.mod_lt _ (by decide), by first | rfl | (simp only [RGN_OPP_BUSY]; omega)⟩, fun h => by simp [RGN_OPP_BUSY] at h⟩

theorem RGN_STAT_POWER_holds (r : Nat) : Part.RGN_STAT.holds (RGN_STAT_POWER r) :=
  ⟨⟨r % 16, Nat.mod_lt _ (by decide), by first | rfl | (simp only [RGN_STAT_POWER]; omega)⟩, fun h => by simp [RGN_STAT_POWER] at h⟩

theorem RGN_STAT_CLUSTERS_holds (r : Nat) : Part.RGN_STAT.holds (RGN_STAT_CLUSTERS r) :=
  ⟨⟨r % 16, Nat.mod_lt _ (by decide), by first | rfl | (simp only [RGN_STAT_CLUSTERS]; omega)⟩, fun h => by simp [RGN_STAT_CLUSTERS] at h⟩

theorem RGN_DIRCNT_CONTEND_holds (r : Nat) : Part.RGN_DIRCNT.holds (RGN_DIRCNT_CONTEND r) :=
  ⟨⟨r % 16, Nat.mod_lt _ (by decide), by first | rfl | (simp only [RGN_DIRCNT_CONTEND]; omega)⟩, fun h => by simp [RGN_DIRCNT_CONTEND] at h⟩

theorem RGN_DIRCNT_EXTRA_holds (r : Nat) : Part.RGN_DIRCNT.holds (RGN_DIRCNT_EXTRA r) :=
  ⟨⟨r % 16, Nat.mod_lt _ (by decide), by first | rfl | (simp only [RGN_DIRCNT_EXTRA]; omega)⟩, fun h => by simp [RGN_DIRCNT_EXTRA] at h⟩

theorem CLU_DOORBELL_PEND_holds (c : Nat) : Part.CLU_DOORBELL.holds (CLU_DOORBELL_PEND c) :=
  ⟨⟨c / 8 % 16, Nat.mod_lt _ (by decide), c % 8, Nat.mod_lt _ (by decide), by first | rfl | (simp only [CLU_DOORBELL_PEND]; omega)⟩, fun h => by simp [CLU_DOORBELL_PEND] at h⟩

theorem CLU_ERR_REASON_holds (c : Nat) : Part.CLU_ERR.holds (CLU_ERR_REASON c) :=
  ⟨⟨c / 8 % 16, Nat.mod_lt _ (by decide), c % 8, Nat.mod_lt _ (by decide), by first | rfl | (simp only [CLU_ERR_REASON]; omega)⟩, fun h => by simp [CLU_ERR_REASON] at h⟩

theorem CLU_ERR_LOCK_holds (c : Nat) : Part.CLU_ERR.holds (CLU_ERR_LOCK c) :=
  ⟨⟨c / 8 % 16, Nat.mod_lt _ (by decide), c % 8, Nat.mod_lt _ (by decide), by first | rfl | (simp only [CLU_ERR_LOCK]; omega)⟩, fun h => by simp [CLU_ERR_LOCK] at h⟩

theorem CLU_ERR_ENGINE_holds (c : Nat) : Part.CLU_ERR.holds (CLU_ERR_ENGINE c) :=
  ⟨⟨c / 8 % 16, Nat.mod_lt _ (by decide), c % 8, Nat.mod_lt _ (by decide), by first | rfl | (simp only [CLU_ERR_ENGINE]; omega)⟩, fun h => by simp [CLU_ERR_ENGINE] at h⟩

theorem CLU_ERR_VALID_holds (c : Nat) : Part.CLU_ERR.holds (CLU_ERR_VALID c) :=
  ⟨⟨c / 8 % 16, Nat.mod_lt _ (by decide), c % 8, Nat.mod_lt _ (by decide), by first | rfl | (simp only [CLU_ERR_VALID]; omega)⟩, fun h => by simp [CLU_ERR_VALID] at h⟩

theorem CLU_LOCK_HOLDER_holds (c j : Nat) : Part.CLU_LOCK.holds (CLU_LOCK_HOLDER c j) :=
  ⟨⟨c / 8 % 16, Nat.mod_lt _ (by decide), c % 8, Nat.mod_lt _ (by decide), j % 64, Nat.mod_lt _ (by decide), by first | rfl | (simp only [CLU_LOCK_HOLDER]; omega)⟩, fun h => by simp [CLU_LOCK_HOLDER] at h⟩

theorem CLU_LOCK_HELD_holds (c j : Nat) : Part.CLU_LOCK.holds (CLU_LOCK_HELD c j) :=
  ⟨⟨c / 8 % 16, Nat.mod_lt _ (by decide), c % 8, Nat.mod_lt _ (by decide), j % 64, Nat.mod_lt _ (by decide), by first | rfl | (simp only [CLU_LOCK_HELD]; omega)⟩, fun h => by simp [CLU_LOCK_HELD] at h⟩

theorem CLU_LOCK_BROKEN_holds (c j : Nat) : Part.CLU_LOCK.holds (CLU_LOCK_BROKEN c j) :=
  ⟨⟨c / 8 % 16, Nat.mod_lt _ (by decide), c % 8, Nat.mod_lt _ (by decide), j % 64, Nat.mod_lt _ (by decide), by first | rfl | (simp only [CLU_LOCK_BROKEN]; omega)⟩, fun h => by simp [CLU_LOCK_BROKEN] at h⟩

theorem CLU_LOCK_WAIT_holds (c j : Nat) : Part.CLU_LOCK.holds (CLU_LOCK_WAIT c j) :=
  ⟨⟨c / 8 % 16, Nat.mod_lt _ (by decide), c % 8, Nat.mod_lt _ (by decide), j % 64, Nat.mod_lt _ (by decide), by first | rfl | (simp only [CLU_LOCK_WAIT]; omega)⟩, fun h => by simp [CLU_LOCK_WAIT] at h⟩

theorem ENG_STAT_STATE_holds (e : Nat) : Part.ENG_STAT.holds (ENG_STAT_STATE e) :=
  ⟨⟨e / 64 % 16, Nat.mod_lt _ (by decide), e % 64, Nat.mod_lt _ (by decide), by first | rfl | (simp only [ENG_STAT_STATE]; omega)⟩, fun h => by simp [ENG_STAT_STATE] at h⟩

theorem ENG_STAT_PRIV_holds (e : Nat) : Part.ENG_STAT.holds (ENG_STAT_PRIV e) :=
  ⟨⟨e / 64 % 16, Nat.mod_lt _ (by decide), e % 64, Nat.mod_lt _ (by decide), by first | rfl | (simp only [ENG_STAT_PRIV]; omega)⟩, fun h => by simp [ENG_STAT_PRIV] at h⟩

theorem ENG_STAT_XACTIVE_holds (e : Nat) : Part.ENG_STAT.holds (ENG_STAT_XACTIVE e) :=
  ⟨⟨e / 64 % 16, Nat.mod_lt _ (by decide), e % 64, Nat.mod_lt _ (by decide), by first | rfl | (simp only [ENG_STAT_XACTIVE]; omega)⟩, fun h => by simp [ENG_STAT_XACTIVE] at h⟩

theorem ENG_TCMP_NS_holds (e : Nat) : Part.ENG_TCMP.holds (ENG_TCMP_NS e) :=
  ⟨⟨e / 64 % 16, Nat.mod_lt _ (by decide), e % 64, Nat.mod_lt _ (by decide), by first | rfl | (simp only [ENG_TCMP_NS]; omega)⟩, fun h => by simp [ENG_TCMP_NS] at h⟩

theorem ENG_TRAP_CAUSE_holds (e : Nat) : Part.ENG_TRAP.holds (ENG_TRAP_CAUSE e) :=
  ⟨⟨e / 64 % 16, Nat.mod_lt _ (by decide), e % 64, Nat.mod_lt _ (by decide), by first | rfl | (simp only [ENG_TRAP_CAUSE]; omega)⟩, fun h => by simp [ENG_TRAP_CAUSE] at h⟩

theorem ENG_TRAP_INTR_holds (e : Nat) : Part.ENG_TRAP.holds (ENG_TRAP_INTR e) :=
  ⟨⟨e / 64 % 16, Nat.mod_lt _ (by decide), e % 64, Nat.mod_lt _ (by decide), by first | rfl | (simp only [ENG_TRAP_INTR]; omega)⟩, fun h => by simp [ENG_TRAP_INTR] at h⟩

theorem ENG_TVAL_VAL_holds (e : Nat) : Part.ENG_TVAL.holds (ENG_TVAL_VAL e) :=
  ⟨⟨e / 64 % 16, Nat.mod_lt _ (by decide), e % 64, Nat.mod_lt _ (by decide), by first | rfl | (simp only [ENG_TVAL_VAL]; omega)⟩, fun h => by simp [ENG_TVAL_VAL] at h⟩

theorem ENG_PC_PC_holds (e : Nat) : Part.ENG_PC.holds (ENG_PC_PC e) :=
  ⟨⟨e / 64 % 16, Nat.mod_lt _ (by decide), e % 64, Nat.mod_lt _ (by decide), by first | rfl | (simp only [ENG_PC_PC]; omega)⟩, fun h => by simp [ENG_PC_PC] at h⟩

theorem HALL_STAT_RETAINED_holds : Part.HALL_STAT.holds HALL_STAT_RETAINED :=
  ⟨by first | rfl | (simp only [HALL_STAT_RETAINED]; omega), fun h => by simp [HALL_STAT_RETAINED] at h⟩

theorem HALL_ERR_REASON_holds : Part.HALL_ERR.holds HALL_ERR_REASON :=
  ⟨by first | rfl | (simp only [HALL_ERR_REASON]; omega), fun h => by simp [HALL_ERR_REASON] at h⟩

theorem HALL_ERR_MASTER_holds : Part.HALL_ERR.holds HALL_ERR_MASTER :=
  ⟨by first | rfl | (simp only [HALL_ERR_MASTER]; omega), fun h => by simp [HALL_ERR_MASTER] at h⟩

theorem HALL_ERR_UNIT_holds : Part.HALL_ERR.holds HALL_ERR_UNIT :=
  ⟨by first | rfl | (simp only [HALL_ERR_UNIT]; omega), fun h => by simp [HALL_ERR_UNIT] at h⟩

theorem HALL_ERR_VALID_holds : Part.HALL_ERR.holds HALL_ERR_VALID :=
  ⟨by first | rfl | (simp only [HALL_ERR_VALID]; omega), fun h => by simp [HALL_ERR_VALID] at h⟩

theorem HALL_ERR_ADDR_OFFSET_holds : Part.HALL_ERR_ADDR.holds HALL_ERR_ADDR_OFFSET :=
  ⟨by first | rfl | (simp only [HALL_ERR_ADDR_OFFSET]; omega), fun h => by simp [HALL_ERR_ADDR_OFFSET] at h⟩

theorem HALL_ERR_ADDR_WRITE_holds : Part.HALL_ERR_ADDR.holds HALL_ERR_ADDR_WRITE :=
  ⟨by first | rfl | (simp only [HALL_ERR_ADDR_WRITE]; omega), fun h => by simp [HALL_ERR_ADDR_WRITE] at h⟩

theorem HALL_HO_STAT_STATE_holds : Part.HALL_HO_STAT.holds HALL_HO_STAT_STATE :=
  ⟨by first | rfl | (simp only [HALL_HO_STAT_STATE]; omega), fun h => by simp [HALL_HO_STAT_STATE] at h⟩

theorem HALL_HO_STAT_REFUSE_holds : Part.HALL_HO_STAT.holds HALL_HO_STAT_REFUSE :=
  ⟨by first | rfl | (simp only [HALL_HO_STAT_REFUSE]; omega), fun h => by simp [HALL_HO_STAT_REFUSE] at h⟩

theorem HALL_RV_STAT_STATE_holds : Part.HALL_RV_STAT.holds HALL_RV_STAT_STATE :=
  ⟨by first | rfl | (simp only [HALL_RV_STAT_STATE]; omega), fun h => by simp [HALL_RV_STAT_STATE] at h⟩

theorem HALL_RV_STAT_OWNER_holds : Part.HALL_RV_STAT.holds HALL_RV_STAT_OWNER :=
  ⟨by first | rfl | (simp only [HALL_RV_STAT_OWNER]; omega), fun h => by simp [HALL_RV_STAT_OWNER] at h⟩

theorem HALL_RV_STAT_UNITS_holds : Part.HALL_RV_STAT.holds HALL_RV_STAT_UNITS :=
  ⟨by first | rfl | (simp only [HALL_RV_STAT_UNITS]; omega), fun h => by simp [HALL_RV_STAT_UNITS] at h⟩

theorem HALL_RV_STAT_CMDERR_holds : Part.HALL_RV_STAT.holds HALL_RV_STAT_CMDERR :=
  ⟨by first | rfl | (simp only [HALL_RV_STAT_CMDERR]; omega), fun h => by simp [HALL_RV_STAT_CMDERR] at h⟩

theorem HALL_ECC_CE_holds (h : Nat) : Part.HALL_ECC.holds (HALL_ECC_CE h) :=
  ⟨⟨h % 4, Nat.mod_lt _ (by decide), by first | rfl | (simp only [HALL_ECC_CE]; omega)⟩, fun h => by simp [HALL_ECC_CE] at h⟩

theorem HALL_ECC_UE_holds (h : Nat) : Part.HALL_ECC.holds (HALL_ECC_UE h) :=
  ⟨⟨h % 4, Nat.mod_lt _ (by decide), by first | rfl | (simp only [HALL_ECC_UE]; omega)⟩, fun h => by simp [HALL_ECC_UE] at h⟩

theorem HALL_UE_ADDR_WORD_holds (h : Nat) : Part.HALL_UE_ADDR.holds (HALL_UE_ADDR_WORD h) :=
  ⟨⟨h % 4, Nat.mod_lt _ (by decide), by first | rfl | (simp only [HALL_UE_ADDR_WORD]; omega)⟩, fun h => by simp [HALL_UE_ADDR_WORD] at h⟩

theorem HALL_UE_ADDR_MASTER_holds (h : Nat) : Part.HALL_UE_ADDR.holds (HALL_UE_ADDR_MASTER h) :=
  ⟨⟨h % 4, Nat.mod_lt _ (by decide), by first | rfl | (simp only [HALL_UE_ADDR_MASTER]; omega)⟩, fun h => by simp [HALL_UE_ADDR_MASTER] at h⟩

theorem HALL_UE_ADDR_VALID_holds (h : Nat) : Part.HALL_UE_ADDR.holds (HALL_UE_ADDR_VALID h) :=
  ⟨⟨h % 4, Nat.mod_lt _ (by decide), by first | rfl | (simp only [HALL_UE_ADDR_VALID]; omega)⟩, fun h => by simp [HALL_UE_ADDR_VALID] at h⟩

theorem HALL_TEST_STAT_POS_holds (h : Nat) : Part.HALL_TEST_STAT.holds (HALL_TEST_STAT_POS h) :=
  ⟨⟨h % 4, Nat.mod_lt _ (by decide), by first | rfl | (simp only [HALL_TEST_STAT_POS]; omega)⟩, fun h => by simp [HALL_TEST_STAT_POS] at h⟩

theorem HALL_TEST_STAT_REMAP_holds (h : Nat) : Part.HALL_TEST_STAT.holds (HALL_TEST_STAT_REMAP h) :=
  ⟨⟨h % 4, Nat.mod_lt _ (by decide), by first | rfl | (simp only [HALL_TEST_STAT_REMAP]; omega)⟩, fun h => by simp [HALL_TEST_STAT_REMAP] at h⟩

theorem HALL_TEST_STAT_EXHAUST_holds (h : Nat) : Part.HALL_TEST_STAT.holds (HALL_TEST_STAT_EXHAUST h) :=
  ⟨⟨h % 4, Nat.mod_lt _ (by decide), by first | rfl | (simp only [HALL_TEST_STAT_EXHAUST]; omega)⟩, fun h => by simp [HALL_TEST_STAT_EXHAUST] at h⟩

theorem HALL_CONF_WAIT_holds (m : Nat) : Part.HALL_CONF.holds (HALL_CONF_WAIT m) :=
  ⟨⟨m % 22, Nat.mod_lt _ (by decide), by first | rfl | (simp only [HALL_CONF_WAIT]; omega)⟩, fun h => by simp [HALL_CONF_WAIT] at h⟩

theorem HALL_CONF_SPLIT_holds (m : Nat) : Part.HALL_CONF.holds (HALL_CONF_SPLIT m) :=
  ⟨⟨m % 22, Nat.mod_lt _ (by decide), by first | rfl | (simp only [HALL_CONF_SPLIT]; omega)⟩, fun h => by simp [HALL_CONF_SPLIT] at h⟩

theorem HALL_OWN_CUR_holds (u : Nat) : Part.HALL_OWN.holds (HALL_OWN_CUR u) :=
  ⟨⟨u % 4096, Nat.mod_lt _ (by decide), by first | rfl | (simp only [HALL_OWN_CUR]; omega)⟩, fun h => by simp [HALL_OWN_CUR] at h⟩

theorem HALL_OWN_CLEARING_holds (u : Nat) : Part.HALL_OWN.holds (HALL_OWN_CLEARING u) :=
  ⟨⟨u % 4096, Nat.mod_lt _ (by decide), by first | rfl | (simp only [HALL_OWN_CLEARING]; omega)⟩, fun h => by simp [HALL_OWN_CLEARING] at h⟩

theorem HALL_OWN_REVOKED_holds (u : Nat) : Part.HALL_OWN.holds (HALL_OWN_REVOKED u) :=
  ⟨⟨u % 4096, Nat.mod_lt _ (by decide), by first | rfl | (simp only [HALL_OWN_REVOKED]; omega)⟩, fun h => by simp [HALL_OWN_REVOKED] at h⟩

theorem TIME_STAT_SYNC_holds : Part.TIME_STAT.holds TIME_STAT_SYNC :=
  ⟨by first | rfl | (simp only [TIME_STAT_SYNC]; omega), fun h => by simp [TIME_STAT_SYNC] at h⟩

theorem TIME_STAT_TRUST_holds : Part.TIME_STAT.holds TIME_STAT_TRUST :=
  ⟨by first | rfl | (simp only [TIME_STAT_TRUST]; omega), fun h => by simp [TIME_STAT_TRUST] at h⟩

theorem TIME_STAT_JREF_holds : Part.TIME_STAT.holds TIME_STAT_JREF :=
  ⟨by first | rfl | (simp only [TIME_STAT_JREF]; omega), fun h => by simp [TIME_STAT_JREF] at h⟩

theorem TIME_STAT_CMDERR_holds : Part.TIME_STAT.holds TIME_STAT_CMDERR :=
  ⟨by first | rfl | (simp only [TIME_STAT_CMDERR]; omega), fun h => by simp [TIME_STAT_CMDERR] at h⟩

theorem TIME_STAT_TOKRES_holds : Part.TIME_STAT.holds TIME_STAT_TOKRES :=
  ⟨by first | rfl | (simp only [TIME_STAT_TOKRES]; omega), fun h => by simp [TIME_STAT_TOKRES] at h⟩

theorem TIME_STAT_CLAMP_holds : Part.TIME_STAT.holds TIME_STAT_CLAMP :=
  ⟨by first | rfl | (simp only [TIME_STAT_CLAMP]; omega), fun h => by simp [TIME_STAT_CLAMP] at h⟩

theorem TIME_INC_INC_holds : Part.TIME_INC.holds TIME_INC_INC :=
  ⟨⟨0, by decide, by first | rfl | (simp only [TIME_INC_INC]; omega)⟩, fun _ => ⟨1, by decide, by first | rfl | (simp only [TIME_INC_INC]; omega)⟩⟩

theorem TIME_JREF_NS_holds : Part.TIME_JREF.holds TIME_JREF_NS :=
  ⟨⟨0, by decide, by first | rfl | (simp only [TIME_JREF_NS]; omega)⟩, fun _ => ⟨1, by decide, by first | rfl | (simp only [TIME_JREF_NS]; omega)⟩⟩

theorem TIME_SEC_LAST_NS_holds : Part.TIME_SEC_LAST.holds TIME_SEC_LAST_NS :=
  ⟨⟨0, by decide, by first | rfl | (simp only [TIME_SEC_LAST_NS]; omega)⟩, fun h => by simp [TIME_SEC_LAST_NS] at h⟩

theorem TIME_SEC_ERR_NS_holds : Part.TIME_SEC_ERR.holds TIME_SEC_ERR_NS :=
  ⟨⟨0, by decide, by first | rfl | (simp only [TIME_SEC_ERR_NS]; omega)⟩, fun _ => ⟨1, by decide, by first | rfl | (simp only [TIME_SEC_ERR_NS]; omega)⟩⟩

theorem TIME_NONCE_N_holds : Part.TIME_NONCE.holds TIME_NONCE_N :=
  ⟨⟨0, by decide, by first | rfl | (simp only [TIME_NONCE_N]; omega)⟩, fun _ => ⟨1, by decide, by first | rfl | (simp only [TIME_NONCE_N]; omega)⟩⟩

theorem TIME_VT_FRAC_holds : Part.TIME_VT.holds TIME_VT_FRAC :=
  ⟨⟨0, by decide, by first | rfl | (simp only [TIME_VT_FRAC]; omega)⟩, fun h => by simp [TIME_VT_FRAC] at h⟩

theorem TIME_VT_VALID_holds : Part.TIME_VT.holds TIME_VT_VALID :=
  ⟨⟨0, by decide, by first | rfl | (simp only [TIME_VT_VALID]; omega)⟩, fun _ => ⟨1, by decide, by first | rfl | (simp only [TIME_VT_VALID]; omega)⟩⟩

theorem TIME_BRX_RT_NS_holds (k : Nat) : Part.TIME_BRX_RT.holds (TIME_BRX_RT_NS k) :=
  ⟨⟨k % 4, Nat.mod_lt _ (by decide), 0, by decide, by first | rfl | (simp only [TIME_BRX_RT_NS]; omega)⟩, fun h => by simp [TIME_BRX_RT_NS] at h⟩

theorem TIME_BRX_LT_NS_holds (k : Nat) : Part.TIME_BRX_LT.holds (TIME_BRX_LT_NS k) :=
  ⟨⟨k % 4, Nat.mod_lt _ (by decide), 0, by decide, by first | rfl | (simp only [TIME_BRX_LT_NS]; omega)⟩, fun h => by simp [TIME_BRX_LT_NS] at h⟩

theorem TIME_BRX_OFF_OFF_holds (k : Nat) : Part.TIME_BRX_OFF.holds (TIME_BRX_OFF_OFF k) :=
  ⟨⟨k % 4, Nat.mod_lt _ (by decide), by first | rfl | (simp only [TIME_BRX_OFF_OFF]; omega)⟩, fun h => by simp [TIME_BRX_OFF_OFF] at h⟩

theorem TIME_BRX_STAT_SEQ_holds (k : Nat) : Part.TIME_BRX_STAT.holds (TIME_BRX_STAT_SEQ k) :=
  ⟨⟨k % 4, Nat.mod_lt _ (by decide), by first | rfl | (simp only [TIME_BRX_STAT_SEQ]; omega)⟩, fun h => by simp [TIME_BRX_STAT_SEQ] at h⟩

theorem TIME_BRX_STAT_FMT_holds (k : Nat) : Part.TIME_BRX_STAT.holds (TIME_BRX_STAT_FMT k) :=
  ⟨⟨k % 4, Nat.mod_lt _ (by decide), by first | rfl | (simp only [TIME_BRX_STAT_FMT]; omega)⟩, fun h => by simp [TIME_BRX_STAT_FMT] at h⟩

theorem TIME_BRX_STAT_TRUSTED_holds (k : Nat) : Part.TIME_BRX_STAT.holds (TIME_BRX_STAT_TRUSTED k) :=
  ⟨⟨k % 4, Nat.mod_lt _ (by decide), by first | rfl | (simp only [TIME_BRX_STAT_TRUSTED]; omega)⟩, fun h => by simp [TIME_BRX_STAT_TRUSTED] at h⟩

theorem TIME_BRX_STAT_SYNCED_holds (k : Nat) : Part.TIME_BRX_STAT.holds (TIME_BRX_STAT_SYNCED k) :=
  ⟨⟨k % 4, Nat.mod_lt _ (by decide), by first | rfl | (simp only [TIME_BRX_STAT_SYNCED]; omega)⟩, fun h => by simp [TIME_BRX_STAT_SYNCED] at h⟩

theorem TIME_BRX_STAT_AUTH_holds (k : Nat) : Part.TIME_BRX_STAT.holds (TIME_BRX_STAT_AUTH k) :=
  ⟨⟨k % 4, Nat.mod_lt _ (by decide), by first | rfl | (simp only [TIME_BRX_STAT_AUTH]; omega)⟩, fun h => by simp [TIME_BRX_STAT_AUTH] at h⟩

theorem TIME_BRX_STAT_STEPPED_holds (k : Nat) : Part.TIME_BRX_STAT.holds (TIME_BRX_STAT_STEPPED k) :=
  ⟨⟨k % 4, Nat.mod_lt _ (by decide), by first | rfl | (simp only [TIME_BRX_STAT_STEPPED]; omega)⟩, fun h => by simp [TIME_BRX_STAT_STEPPED] at h⟩

theorem TIME_BRX_STAT_COUNT_holds (k : Nat) : Part.TIME_BRX_STAT.holds (TIME_BRX_STAT_COUNT k) :=
  ⟨⟨k % 4, Nat.mod_lt _ (by decide), by first | rfl | (simp only [TIME_BRX_STAT_COUNT]; omega)⟩, fun h => by simp [TIME_BRX_STAT_COUNT] at h⟩

theorem LEDG_STAT_STAGED_holds : Part.LEDG_STAT.holds LEDG_STAT_STAGED :=
  ⟨by first | rfl | (simp only [LEDG_STAT_STAGED]; omega), fun h => by simp [LEDG_STAT_STAGED] at h⟩

theorem LEDG_STAT_HELD_holds : Part.LEDG_STAT.holds LEDG_STAT_HELD :=
  ⟨by first | rfl | (simp only [LEDG_STAT_HELD]; omega), fun h => by simp [LEDG_STAT_HELD] at h⟩

theorem LEDG_STAT_HOLD_EXP_holds : Part.LEDG_STAT.holds LEDG_STAT_HOLD_EXP :=
  ⟨by first | rfl | (simp only [LEDG_STAT_HOLD_EXP]; omega), fun h => by simp [LEDG_STAT_HOLD_EXP] at h⟩

theorem LEDG_HOLD_ON_holds : Part.LEDG_HOLD.holds LEDG_HOLD_ON :=
  ⟨by first | rfl | (simp only [LEDG_HOLD_ON]; omega), fun h => by simp [LEDG_HOLD_ON] at h⟩

theorem LEDG_HOLD_MAX_holds : Part.LEDG_HOLD.holds LEDG_HOLD_MAX :=
  ⟨by first | rfl | (simp only [LEDG_HOLD_MAX]; omega), fun h => by simp [LEDG_HOLD_MAX] at h⟩

theorem LEDG_ERR_REASON_holds : Part.LEDG_ERR.holds LEDG_ERR_REASON :=
  ⟨by first | rfl | (simp only [LEDG_ERR_REASON]; omega), fun h => by simp [LEDG_ERR_REASON] at h⟩

theorem LEDG_ERR_NUM_holds : Part.LEDG_ERR.holds LEDG_ERR_NUM :=
  ⟨by first | rfl | (simp only [LEDG_ERR_NUM]; omega), fun h => by simp [LEDG_ERR_NUM] at h⟩

theorem LEDG_ERR_REQ_holds : Part.LEDG_ERR.holds LEDG_ERR_REQ :=
  ⟨by first | rfl | (simp only [LEDG_ERR_REQ]; omega), fun h => by simp [LEDG_ERR_REQ] at h⟩

theorem LEDG_ERR_ENGINE_holds : Part.LEDG_ERR.holds LEDG_ERR_ENGINE :=
  ⟨by first | rfl | (simp only [LEDG_ERR_ENGINE]; omega), fun h => by simp [LEDG_ERR_ENGINE] at h⟩

theorem LEDG_ERR_VALID_holds : Part.LEDG_ERR.holds LEDG_ERR_VALID :=
  ⟨by first | rfl | (simp only [LEDG_ERR_VALID]; omega), fun h => by simp [LEDG_ERR_VALID] at h⟩

theorem LEDG_LOSTCNT_STAGING_holds : Part.LEDG_LOSTCNT.holds LEDG_LOSTCNT_STAGING :=
  ⟨by first | rfl | (simp only [LEDG_LOSTCNT_STAGING]; omega), fun h => by simp [LEDG_LOSTCNT_STAGING] at h⟩

theorem LEDG_LOSTCNT_NORING_holds : Part.LEDG_LOSTCNT.holds LEDG_LOSTCNT_NORING :=
  ⟨by first | rfl | (simp only [LEDG_LOSTCNT_NORING]; omega), fun h => by simp [LEDG_LOSTCNT_NORING] at h⟩

theorem LEDG_EPEND_PEND_holds : Part.LEDG_EPEND.holds LEDG_EPEND_PEND :=
  ⟨⟨0, by decide, by first | rfl | (simp only [LEDG_EPEND_PEND]; omega)⟩, fun _ => ⟨1, by decide, by first | rfl | (simp only [LEDG_EPEND_PEND]; omega)⟩⟩

theorem LEDG_WAKE_SRC_holds : Part.LEDG_WAKE.holds LEDG_WAKE_SRC :=
  ⟨by first | rfl | (simp only [LEDG_WAKE_SRC]; omega), fun h => by simp [LEDG_WAKE_SRC] at h⟩

theorem LEDG_WAKE_VALID_holds : Part.LEDG_WAKE.holds LEDG_WAKE_VALID :=
  ⟨by first | rfl | (simp only [LEDG_WAKE_VALID]; omega), fun h => by simp [LEDG_WAKE_VALID] at h⟩

theorem LEDG_RING_HEAD_HEAD_holds (k : Nat) : Part.LEDG_RING_HEAD.holds (LEDG_RING_HEAD_HEAD k) :=
  ⟨⟨k % 64, Nat.mod_lt _ (by decide), by first | rfl | (simp only [LEDG_RING_HEAD_HEAD]; omega)⟩, fun h => by simp [LEDG_RING_HEAD_HEAD] at h⟩

theorem LEDG_RING_TAIL_TAIL_holds (k : Nat) : Part.LEDG_RING_TAIL.holds (LEDG_RING_TAIL_TAIL k) :=
  ⟨⟨k % 64, Nat.mod_lt _ (by decide), by first | rfl | (simp only [LEDG_RING_TAIL_TAIL]; omega)⟩, fun h => by simp [LEDG_RING_TAIL_TAIL] at h⟩

theorem LEDG_RING_STAT_LOST_holds (k : Nat) : Part.LEDG_RING_STAT.holds (LEDG_RING_STAT_LOST k) :=
  ⟨⟨k % 64, Nat.mod_lt _ (by decide), by first | rfl | (simp only [LEDG_RING_STAT_LOST]; omega)⟩, fun h => by simp [LEDG_RING_STAT_LOST] at h⟩

theorem LEDG_RING_STAT_SIGS_holds (k : Nat) : Part.LEDG_RING_STAT.holds (LEDG_RING_STAT_SIGS k) :=
  ⟨⟨k % 64, Nat.mod_lt _ (by decide), by first | rfl | (simp only [LEDG_RING_STAT_SIGS]; omega)⟩, fun h => by simp [LEDG_RING_STAT_SIGS] at h⟩

theorem LEDG_SRC_EN_holds (s : Nat) : Part.LEDG_SRC.holds (LEDG_SRC_EN s) :=
  ⟨⟨s % 2048, Nat.mod_lt _ (by decide), by first | rfl | (simp only [LEDG_SRC_EN]; omega)⟩, fun h => by simp [LEDG_SRC_EN] at h⟩

theorem LEDG_SRC_STATE_holds (s : Nat) : Part.LEDG_SRC.holds (LEDG_SRC_STATE s) :=
  ⟨⟨s % 2048, Nat.mod_lt _ (by decide), by first | rfl | (simp only [LEDG_SRC_STATE]; omega)⟩, fun h => by simp [LEDG_SRC_STATE] at h⟩

theorem LEDG_SRC_LIVE_holds (s : Nat) : Part.LEDG_SRC.holds (LEDG_SRC_LIVE s) :=
  ⟨⟨s % 2048, Nat.mod_lt _ (by decide), by first | rfl | (simp only [LEDG_SRC_LIVE]; omega)⟩, fun h => by simp [LEDG_SRC_LIVE] at h⟩

theorem CUR_STAT_SAFE_holds : Part.CUR_STAT.holds CUR_STAT_SAFE :=
  ⟨by first | rfl | (simp only [CUR_STAT_SAFE]; omega), fun h => by simp [CUR_STAT_SAFE] at h⟩

theorem CUR_STAT_NUNCL_holds : Part.CUR_STAT.holds CUR_STAT_NUNCL :=
  ⟨by first | rfl | (simp only [CUR_STAT_NUNCL]; omega), fun h => by simp [CUR_STAT_NUNCL] at h⟩

theorem CUR_STAT_OVF_holds : Part.CUR_STAT.holds CUR_STAT_OVF :=
  ⟨by first | rfl | (simp only [CUR_STAT_OVF]; omega), fun h => by simp [CUR_STAT_OVF] at h⟩

theorem CUR_STAT_SELF_holds : Part.CUR_STAT.holds CUR_STAT_SELF :=
  ⟨by first | rfl | (simp only [CUR_STAT_SELF]; omega), fun h => by simp [CUR_STAT_SELF] at h⟩

theorem CUR_STAT_RLOCK_holds : Part.CUR_STAT.holds CUR_STAT_RLOCK :=
  ⟨by first | rfl | (simp only [CUR_STAT_RLOCK]; omega), fun h => by simp [CUR_STAT_RLOCK] at h⟩

theorem CUR_STAT_CMDERR_holds : Part.CUR_STAT.holds CUR_STAT_CMDERR :=
  ⟨by first | rfl | (simp only [CUR_STAT_CMDERR]; omega), fun h => by simp [CUR_STAT_CMDERR] at h⟩

theorem CUR_STAT_FAULTN_holds : Part.CUR_STAT.holds CUR_STAT_FAULTN :=
  ⟨by first | rfl | (simp only [CUR_STAT_FAULTN]; omega), fun h => by simp [CUR_STAT_FAULTN] at h⟩

theorem CUR_STAT_RECL_holds : Part.CUR_STAT.holds CUR_STAT_RECL :=
  ⟨by first | rfl | (simp only [CUR_STAT_RECL]; omega), fun h => by simp [CUR_STAT_RECL] at h⟩

theorem CUR_RECOV_COUNT_holds : Part.CUR_RECOV.holds CUR_RECOV_COUNT :=
  ⟨by first | rfl | (simp only [CUR_RECOV_COUNT]; omega), fun h => by simp [CUR_RECOV_COUNT] at h⟩

theorem CUR_RECOV_WINCNT_holds : Part.CUR_RECOV.holds CUR_RECOV_WINCNT :=
  ⟨by first | rfl | (simp only [CUR_RECOV_WINCNT]; omega), fun h => by simp [CUR_RECOV_WINCNT] at h⟩

theorem CUR_FIRST_SRC_holds : Part.CUR_FIRST.holds CUR_FIRST_SRC :=
  ⟨by first | rfl | (simp only [CUR_FIRST_SRC]; omega), fun h => by simp [CUR_FIRST_SRC] at h⟩

theorem CUR_FIRST_ADDR_ADDR_holds : Part.CUR_FIRST_ADDR.holds CUR_FIRST_ADDR_ADDR :=
  ⟨by first | rfl | (simp only [CUR_FIRST_ADDR_ADDR]; omega), fun h => by simp [CUR_FIRST_ADDR_ADDR] at h⟩

theorem CUR_FIRST_ACC_MASTER_holds : Part.CUR_FIRST_ACC.holds CUR_FIRST_ACC_MASTER :=
  ⟨by first | rfl | (simp only [CUR_FIRST_ACC_MASTER]; omega), fun h => by simp [CUR_FIRST_ACC_MASTER] at h⟩

theorem CUR_FIRST_ACC_ACC_holds : Part.CUR_FIRST_ACC.holds CUR_FIRST_ACC_ACC :=
  ⟨by first | rfl | (simp only [CUR_FIRST_ACC_ACC]; omega), fun h => by simp [CUR_FIRST_ACC_ACC] at h⟩

theorem CUR_FIRST_T_NS_holds : Part.CUR_FIRST_T.holds CUR_FIRST_T_NS :=
  ⟨⟨0, by decide, by first | rfl | (simp only [CUR_FIRST_T_NS]; omega)⟩, fun h => by simp [CUR_FIRST_T_NS] at h⟩

theorem CUR_COIN_SRC_holds : Part.CUR_COIN.holds CUR_COIN_SRC :=
  ⟨by first | rfl | (simp only [CUR_COIN_SRC]; omega), fun h => by simp [CUR_COIN_SRC] at h⟩

theorem CUR_COIN_OTHERS_holds : Part.CUR_COIN.holds CUR_COIN_OTHERS :=
  ⟨by first | rfl | (simp only [CUR_COIN_OTHERS]; omega), fun h => by simp [CUR_COIN_OTHERS] at h⟩

theorem CUR_SEVCNT_S0_holds : Part.CUR_SEVCNT.holds CUR_SEVCNT_S0 :=
  ⟨⟨0, by decide, by first | rfl | (simp only [CUR_SEVCNT_S0]; omega)⟩, fun h => by simp [CUR_SEVCNT_S0] at h⟩

theorem CUR_SEVCNT_S1_holds : Part.CUR_SEVCNT.holds CUR_SEVCNT_S1 :=
  ⟨⟨0, by decide, by first | rfl | (simp only [CUR_SEVCNT_S1]; omega)⟩, fun h => by simp [CUR_SEVCNT_S1] at h⟩

theorem CUR_SEVCNT_S2_holds : Part.CUR_SEVCNT.holds CUR_SEVCNT_S2 :=
  ⟨⟨0, by decide, by first | rfl | (simp only [CUR_SEVCNT_S2]; omega)⟩, fun _ => ⟨1, by decide, by first | rfl | (simp only [CUR_SEVCNT_S2]; omega)⟩⟩

theorem CUR_SEVCNT_S3_holds : Part.CUR_SEVCNT.holds CUR_SEVCNT_S3 :=
  ⟨⟨0, by decide, by first | rfl | (simp only [CUR_SEVCNT_S3]; omega)⟩, fun _ => ⟨1, by decide, by first | rfl | (simp only [CUR_SEVCNT_S3]; omega)⟩⟩

theorem CUR_SAFE_T_NS_holds : Part.CUR_SAFE_T.holds CUR_SAFE_T_NS :=
  ⟨⟨0, by decide, by first | rfl | (simp only [CUR_SAFE_T_NS]; omega)⟩, fun h => by simp [CUR_SAFE_T_NS] at h⟩

theorem CUR_AFT_SRC_holds (i : Nat) : Part.CUR_AFT.holds (CUR_AFT_SRC i) :=
  ⟨⟨i % 256, Nat.mod_lt _ (by decide), 0, by decide, by first | rfl | (simp only [CUR_AFT_SRC]; omega)⟩, fun h => by simp [CUR_AFT_SRC] at h⟩

theorem CUR_AFT_KIND_holds (i : Nat) : Part.CUR_AFT.holds (CUR_AFT_KIND i) :=
  ⟨⟨i % 256, Nat.mod_lt _ (by decide), 0, by decide, by first | rfl | (simp only [CUR_AFT_KIND]; omega)⟩, fun h => by simp [CUR_AFT_KIND] at h⟩

theorem CUR_AFT_SEV_holds (i : Nat) : Part.CUR_AFT.holds (CUR_AFT_SEV i) :=
  ⟨⟨i % 256, Nat.mod_lt _ (by decide), 0, by decide, by first | rfl | (simp only [CUR_AFT_SEV]; omega)⟩, fun h => by simp [CUR_AFT_SEV] at h⟩

theorem CUR_AFT_SAFE_holds (i : Nat) : Part.CUR_AFT.holds (CUR_AFT_SAFE i) :=
  ⟨⟨i % 256, Nat.mod_lt _ (by decide), 0, by decide, by first | rfl | (simp only [CUR_AFT_SAFE]; omega)⟩, fun h => by simp [CUR_AFT_SAFE] at h⟩

theorem CUR_AFT_LIVE_holds (i : Nat) : Part.CUR_AFT.holds (CUR_AFT_LIVE i) :=
  ⟨⟨i % 256, Nat.mod_lt _ (by decide), 0, by decide, by first | rfl | (simp only [CUR_AFT_LIVE]; omega)⟩, fun h => by simp [CUR_AFT_LIVE] at h⟩

theorem CUR_AFT_INJ_holds (i : Nat) : Part.CUR_AFT.holds (CUR_AFT_INJ i) :=
  ⟨⟨i % 256, Nat.mod_lt _ (by decide), 0, by decide, by first | rfl | (simp only [CUR_AFT_INJ]; omega)⟩, fun h => by simp [CUR_AFT_INJ] at h⟩

theorem CUR_AFT_VALID_holds (i : Nat) : Part.CUR_AFT.holds (CUR_AFT_VALID i) :=
  ⟨⟨i % 256, Nat.mod_lt _ (by decide), 0, by decide, by first | rfl | (simp only [CUR_AFT_VALID]; omega)⟩, fun h => by simp [CUR_AFT_VALID] at h⟩

theorem CUR_AFT_COUNT_holds (i : Nat) : Part.CUR_AFT.holds (CUR_AFT_COUNT i) :=
  ⟨⟨i % 256, Nat.mod_lt _ (by decide), 1, by decide, by first | rfl | (simp only [CUR_AFT_COUNT]; omega)⟩, fun h => by simp [CUR_AFT_COUNT] at h⟩

theorem CUR_AFT_NS_holds (i : Nat) : Part.CUR_AFT.holds (CUR_AFT_NS i) :=
  ⟨⟨i % 256, Nat.mod_lt _ (by decide), 2, by decide, by first | rfl | (simp only [CUR_AFT_NS]; omega)⟩, fun h => by simp [CUR_AFT_NS] at h⟩

theorem CUR_AFT_W_holds (i w : Nat) : Part.CUR_AFT.holds (CUR_AFT_W i w) :=
  ⟨⟨i % 256, Nat.mod_lt _ (by decide), w % 4, Nat.mod_lt _ (by decide), by first | rfl | (simp only [CUR_AFT_W]; omega)⟩, fun h => by simp [CUR_AFT_W] at h⟩

theorem PWR_CTRL_ALLOW_holds : Part.PWR_CTRL.holds PWR_CTRL_ALLOW :=
  ⟨by first | rfl | (simp only [PWR_CTRL_ALLOW]; omega), fun h => by simp [PWR_CTRL_ALLOW] at h⟩

theorem PWR_STAT_STATE_holds : Part.PWR_STAT.holds PWR_STAT_STATE :=
  ⟨by first | rfl | (simp only [PWR_STAT_STATE]; omega), fun h => by simp [PWR_STAT_STATE] at h⟩

theorem PWR_STAT_A3WOKE_holds : Part.PWR_STAT.holds PWR_STAT_A3WOKE :=
  ⟨by first | rfl | (simp only [PWR_STAT_A3WOKE]; omega), fun h => by simp [PWR_STAT_A3WOKE] at h⟩

theorem PWR_RAILS_PG_holds : Part.PWR_RAILS.holds PWR_RAILS_PG :=
  ⟨by first | rfl | (simp only [PWR_RAILS_PG]; omega), fun h => by simp [PWR_RAILS_PG] at h⟩

theorem PWR_RAILS_VBAT_LOW_holds : Part.PWR_RAILS.holds PWR_RAILS_VBAT_LOW :=
  ⟨by first | rfl | (simp only [PWR_RAILS_VBAT_LOW]; omega), fun h => by simp [PWR_RAILS_VBAT_LOW] at h⟩

theorem PWR_RAILS_REF_OK_holds : Part.PWR_RAILS.holds PWR_RAILS_REF_OK :=
  ⟨by first | rfl | (simp only [PWR_RAILS_REF_OK]; omega), fun h => by simp [PWR_RAILS_REF_OK] at h⟩

theorem PWR_RAILS_XW_OK_holds : Part.PWR_RAILS.holds PWR_RAILS_XW_OK :=
  ⟨by first | rfl | (simp only [PWR_RAILS_XW_OK]; omega), fun h => by simp [PWR_RAILS_XW_OK] at h⟩

theorem PWR_RAILS_VBAT_holds : Part.PWR_RAILS.holds PWR_RAILS_VBAT :=
  ⟨by first | rfl | (simp only [PWR_RAILS_VBAT]; omega), fun h => by simp [PWR_RAILS_VBAT] at h⟩

theorem PWR_TEMP_TJ_holds : Part.PWR_TEMP.holds PWR_TEMP_TJ :=
  ⟨by first | rfl | (simp only [PWR_TEMP_TJ]; omega), fun h => by simp [PWR_TEMP_TJ] at h⟩

theorem PWR_TEMP_PEAK_holds : Part.PWR_TEMP.holds PWR_TEMP_PEAK :=
  ⟨by first | rfl | (simp only [PWR_TEMP_PEAK]; omega), fun h => by simp [PWR_TEMP_PEAK] at h⟩

theorem PWR_CNT_A1_holds : Part.PWR_CNT.holds PWR_CNT_A1 :=
  ⟨by first | rfl | (simp only [PWR_CNT_A1]; omega), fun h => by simp [PWR_CNT_A1] at h⟩

theorem PWR_CNT_A2_holds : Part.PWR_CNT.holds PWR_CNT_A2 :=
  ⟨by first | rfl | (simp only [PWR_CNT_A2]; omega), fun h => by simp [PWR_CNT_A2] at h⟩

theorem WATCH_STAT_XTAL_holds : Part.WATCH_STAT.holds WATCH_STAT_XTAL :=
  ⟨by first | rfl | (simp only [WATCH_STAT_XTAL]; omega), fun h => by simp [WATCH_STAT_XTAL] at h⟩

theorem WATCH_STAT_VBK_SRC_holds : Part.WATCH_STAT.holds WATCH_STAT_VBK_SRC :=
  ⟨by first | rfl | (simp only [WATCH_STAT_VBK_SRC]; omega), fun h => by simp [WATCH_STAT_VBK_SRC] at h⟩

theorem WATCH_STAT_LAPSE_holds : Part.WATCH_STAT.holds WATCH_STAT_LAPSE :=
  ⟨by first | rfl | (simp only [WATCH_STAT_LAPSE]; omega), fun h => by simp [WATCH_STAT_LAPSE] at h⟩

theorem WATCH_STAT_VBK_LOW_holds : Part.WATCH_STAT.holds WATCH_STAT_VBK_LOW :=
  ⟨by first | rfl | (simp only [WATCH_STAT_VBK_LOW]; omega), fun h => by simp [WATCH_STAT_VBK_LOW] at h⟩

theorem WATCH_WAKE_FROM_holds : Part.WATCH_WAKE.holds WATCH_WAKE_FROM :=
  ⟨by first | rfl | (simp only [WATCH_WAKE_FROM]; omega), fun h => by simp [WATCH_WAKE_FROM] at h⟩

theorem WATCH_WAKE_CAUSE_holds : Part.WATCH_WAKE.holds WATCH_WAKE_CAUSE :=
  ⟨by first | rfl | (simp only [WATCH_WAKE_CAUSE]; omega), fun h => by simp [WATCH_WAKE_CAUSE] at h⟩

theorem WATCH_SUPPLY_RAILFAIL_holds : Part.WATCH_SUPPLY.holds WATCH_SUPPLY_RAILFAIL :=
  ⟨by first | rfl | (simp only [WATCH_SUPPLY_RAILFAIL]; omega), fun h => by simp [WATCH_SUPPLY_RAILFAIL] at h⟩

theorem WATCH_SUPPLY_BROWNOUT_holds : Part.WATCH_SUPPLY.holds WATCH_SUPPLY_BROWNOUT :=
  ⟨by first | rfl | (simp only [WATCH_SUPPLY_BROWNOUT]; omega), fun h => by simp [WATCH_SUPPLY_BROWNOUT] at h⟩

theorem WATCH_SUPPLY_VBK_holds : Part.WATCH_SUPPLY.holds WATCH_SUPPLY_VBK :=
  ⟨by first | rfl | (simp only [WATCH_SUPPLY_VBK]; omega), fun h => by simp [WATCH_SUPPLY_VBK] at h⟩

theorem WATCH_TREST_US_holds : Part.WATCH_TREST.holds WATCH_TREST_US :=
  ⟨by first | rfl | (simp only [WATCH_TREST_US]; omega), fun h => by simp [WATCH_TREST_US] at h⟩

theorem WATCH_CNT_A3_holds : Part.WATCH_CNT.holds WATCH_CNT_A3 :=
  ⟨by first | rfl | (simp only [WATCH_CNT_A3]; omega), fun h => by simp [WATCH_CNT_A3] at h⟩

theorem WATCH_CNT_SCRUB_holds : Part.WATCH_CNT.holds WATCH_CNT_SCRUB :=
  ⟨by first | rfl | (simp only [WATCH_CNT_SCRUB]; omega), fun h => by simp [WATCH_CNT_SCRUB] at h⟩

theorem WATCH_TMR_EN_holds (k : Nat) : Part.WATCH_TMR.holds (WATCH_TMR_EN k) :=
  ⟨⟨k % 4, Nat.mod_lt _ (by decide), 0, by decide, by first | rfl | (simp only [WATCH_TMR_EN]; omega)⟩, fun _ => ⟨k % 4, Nat.mod_lt _ (by decide), 1, by decide, by first | rfl | (simp only [WATCH_TMR_EN]; omega)⟩⟩

theorem WATCH_SCHED_FRAC_holds : Part.WATCH_SCHED.holds WATCH_SCHED_FRAC :=
  ⟨⟨0, by decide, by first | rfl | (simp only [WATCH_SCHED_FRAC]; omega)⟩, fun h => by simp [WATCH_SCHED_FRAC] at h⟩

theorem WATCH_SCHED_SEC_holds : Part.WATCH_SCHED.holds WATCH_SCHED_SEC :=
  ⟨⟨0, by decide, by first | rfl | (simp only [WATCH_SCHED_SEC]; omega)⟩, fun _ => ⟨1, by decide, by first | rfl | (simp only [WATCH_SCHED_SEC]; omega)⟩⟩

theorem WATCH_SCHED_EN_holds : Part.WATCH_SCHED.holds WATCH_SCHED_EN :=
  ⟨⟨0, by decide, by first | rfl | (simp only [WATCH_SCHED_EN]; omega)⟩, fun _ => ⟨1, by decide, by first | rfl | (simp only [WATCH_SCHED_EN]; omega)⟩⟩

theorem SPN_STAT_LINK_holds : Part.SPN_STAT.holds SPN_STAT_LINK :=
  ⟨by first | rfl | (simp only [SPN_STAT_LINK]; omega), fun h => by simp [SPN_STAT_LINK] at h⟩

theorem SPN_LANE_CFG_TX_AN_holds (l : Nat) : Part.SPN_LANE_CFG.holds (SPN_LANE_CFG_TX_AN l) :=
  ⟨⟨l % 4, Nat.mod_lt _ (by decide), by first | rfl | (simp only [SPN_LANE_CFG_TX_AN]; omega)⟩, fun h => by simp [SPN_LANE_CFG_TX_AN] at h⟩

theorem SPN_LANE_STAT_LINK_holds (l : Nat) : Part.SPN_LANE_STAT.holds (SPN_LANE_STAT_LINK l) :=
  ⟨⟨l % 4, Nat.mod_lt _ (by decide), by first | rfl | (simp only [SPN_LANE_STAT_LINK]; omega)⟩, fun h => by simp [SPN_LANE_STAT_LINK] at h⟩

theorem SPN_LANE_STAT_FEC_LOCK_holds (l : Nat) : Part.SPN_LANE_STAT.holds (SPN_LANE_STAT_FEC_LOCK l) :=
  ⟨⟨l % 4, Nat.mod_lt _ (by decide), by first | rfl | (simp only [SPN_LANE_STAT_FEC_LOCK]; omega)⟩, fun h => by simp [SPN_LANE_STAT_FEC_LOCK] at h⟩

theorem SPN_LANE_STAT_TRAIN_holds (l : Nat) : Part.SPN_LANE_STAT.holds (SPN_LANE_STAT_TRAIN l) :=
  ⟨⟨l % 4, Nat.mod_lt _ (by decide), by first | rfl | (simp only [SPN_LANE_STAT_TRAIN]; omega)⟩, fun h => by simp [SPN_LANE_STAT_TRAIN] at h⟩

theorem SPN_LANE_STAT_DOWNS_holds (l : Nat) : Part.SPN_LANE_STAT.holds (SPN_LANE_STAT_DOWNS l) :=
  ⟨⟨l % 4, Nat.mod_lt _ (by decide), by first | rfl | (simp only [SPN_LANE_STAT_DOWNS]; omega)⟩, fun h => by simp [SPN_LANE_STAT_DOWNS] at h⟩

theorem SPN_LANE_FEC_CORR_holds (l : Nat) : Part.SPN_LANE_FEC.holds (SPN_LANE_FEC_CORR l) :=
  ⟨⟨l % 4, Nat.mod_lt _ (by decide), by first | rfl | (simp only [SPN_LANE_FEC_CORR]; omega)⟩, fun h => by simp [SPN_LANE_FEC_CORR] at h⟩

theorem SPN_LANE_FEC_UNCORR_holds (l : Nat) : Part.SPN_LANE_FEC.holds (SPN_LANE_FEC_UNCORR l) :=
  ⟨⟨l % 4, Nat.mod_lt _ (by decide), by first | rfl | (simp only [SPN_LANE_FEC_UNCORR]; omega)⟩, fun h => by simp [SPN_LANE_FEC_UNCORR] at h⟩

theorem SPN_LANE_SEC_DROP_holds (l : Nat) : Part.SPN_LANE_SEC.holds (SPN_LANE_SEC_DROP l) :=
  ⟨⟨l % 4, Nat.mod_lt _ (by decide), by first | rfl | (simp only [SPN_LANE_SEC_DROP]; omega)⟩, fun h => by simp [SPN_LANE_SEC_DROP] at h⟩

theorem SPN_LANE_SEC_REPLAY_holds (l : Nat) : Part.SPN_LANE_SEC.holds (SPN_LANE_SEC_REPLAY l) :=
  ⟨⟨l % 4, Nat.mod_lt _ (by decide), by first | rfl | (simp only [SPN_LANE_SEC_REPLAY]; omega)⟩, fun h => by simp [SPN_LANE_SEC_REPLAY] at h⟩

theorem SPN_LANE_SEC_HQDROP_holds (l : Nat) : Part.SPN_LANE_SEC.holds (SPN_LANE_SEC_HQDROP l) :=
  ⟨⟨l % 4, Nat.mod_lt _ (by decide), by first | rfl | (simp only [SPN_LANE_SEC_HQDROP]; omega)⟩, fun h => by simp [SPN_LANE_SEC_HQDROP] at h⟩

theorem SPN_HQ_PTR_RX_TAIL_holds (l : Nat) : Part.SPN_HQ_PTR.holds (SPN_HQ_PTR_RX_TAIL l) :=
  ⟨⟨l % 4, Nat.mod_lt _ (by decide), by first | rfl | (simp only [SPN_HQ_PTR_RX_TAIL]; omega)⟩, fun h => by simp [SPN_HQ_PTR_RX_TAIL] at h⟩

theorem SPN_HQ_PTR_RX_HEAD_holds (l : Nat) : Part.SPN_HQ_PTR.holds (SPN_HQ_PTR_RX_HEAD l) :=
  ⟨⟨l % 4, Nat.mod_lt _ (by decide), by first | rfl | (simp only [SPN_HQ_PTR_RX_HEAD]; omega)⟩, fun h => by simp [SPN_HQ_PTR_RX_HEAD] at h⟩

theorem SPN_HQ_PTR_TX_TAIL_holds (l : Nat) : Part.SPN_HQ_PTR.holds (SPN_HQ_PTR_TX_TAIL l) :=
  ⟨⟨l % 4, Nat.mod_lt _ (by decide), by first | rfl | (simp only [SPN_HQ_PTR_TX_TAIL]; omega)⟩, fun h => by simp [SPN_HQ_PTR_TX_TAIL] at h⟩

theorem SPN_HQ_PTR_TX_HEAD_holds (l : Nat) : Part.SPN_HQ_PTR.holds (SPN_HQ_PTR_TX_HEAD l) :=
  ⟨⟨l % 4, Nat.mod_lt _ (by decide), by first | rfl | (simp only [SPN_HQ_PTR_TX_HEAD]; omega)⟩, fun h => by simp [SPN_HQ_PTR_TX_HEAD] at h⟩

theorem SPN_STR_STAT_ACTIVE_holds (s : Nat) : Part.SPN_STR_STAT.holds (SPN_STR_STAT_ACTIVE s) :=
  ⟨⟨s % 64, Nat.mod_lt _ (by decide), by first | rfl | (simp only [SPN_STR_STAT_ACTIVE]; omega)⟩, fun h => by simp [SPN_STR_STAT_ACTIVE] at h⟩

theorem SPN_STR_STAT_RUN_holds (s : Nat) : Part.SPN_STR_STAT.holds (SPN_STR_STAT_RUN s) :=
  ⟨⟨s % 64, Nat.mod_lt _ (by decide), by first | rfl | (simp only [SPN_STR_STAT_RUN]; omega)⟩, fun h => by simp [SPN_STR_STAT_RUN] at h⟩

theorem SPN_STR_STAT_ON_ALT_holds (s : Nat) : Part.SPN_STR_STAT.holds (SPN_STR_STAT_ON_ALT s) :=
  ⟨⟨s % 64, Nat.mod_lt _ (by decide), by first | rfl | (simp only [SPN_STR_STAT_ON_ALT]; omega)⟩, fun h => by simp [SPN_STR_STAT_ON_ALT] at h⟩

theorem SPN_STR_STAT_MOVES_holds (s : Nat) : Part.SPN_STR_STAT.holds (SPN_STR_STAT_MOVES s) :=
  ⟨⟨s % 64, Nat.mod_lt _ (by decide), by first | rfl | (simp only [SPN_STR_STAT_MOVES]; omega)⟩, fun h => by simp [SPN_STR_STAT_MOVES] at h⟩

theorem SPN_STR_STAT_DROP_holds (s : Nat) : Part.SPN_STR_STAT.holds (SPN_STR_STAT_DROP s) :=
  ⟨⟨s % 64, Nat.mod_lt _ (by decide), by first | rfl | (simp only [SPN_STR_STAT_DROP]; omega)⟩, fun h => by simp [SPN_STR_STAT_DROP] at h⟩

theorem PCIE_STAT_SPEED_holds : Part.PCIE_STAT.holds PCIE_STAT_SPEED :=
  ⟨by first | rfl | (simp only [PCIE_STAT_SPEED]; omega), fun h => by simp [PCIE_STAT_SPEED] at h⟩

theorem PCIE_STAT_WIDTH_holds : Part.PCIE_STAT.holds PCIE_STAT_WIDTH :=
  ⟨by first | rfl | (simp only [PCIE_STAT_WIDTH]; omega), fun h => by simp [PCIE_STAT_WIDTH] at h⟩

theorem PCIE_STAT_LINK_holds : Part.PCIE_STAT.holds PCIE_STAT_LINK :=
  ⟨by first | rfl | (simp only [PCIE_STAT_LINK]; omega), fun h => by simp [PCIE_STAT_LINK] at h⟩

theorem PCIE_STAT_MSIX_EN_holds : Part.PCIE_STAT.holds PCIE_STAT_MSIX_EN :=
  ⟨by first | rfl | (simp only [PCIE_STAT_MSIX_EN]; omega), fun h => by simp [PCIE_STAT_MSIX_EN] at h⟩

theorem PCIE_CNT_HOTRST_holds : Part.PCIE_CNT.holds PCIE_CNT_HOTRST :=
  ⟨by first | rfl | (simp only [PCIE_CNT_HOTRST]; omega), fun h => by simp [PCIE_CNT_HOTRST] at h⟩

theorem PCIE_CNT_LINKDOWN_holds : Part.PCIE_CNT.holds PCIE_CNT_LINKDOWN :=
  ⟨by first | rfl | (simp only [PCIE_CNT_LINKDOWN]; omega), fun h => by simp [PCIE_CNT_LINKDOWN] at h⟩

theorem PCIE_PEND_PEND_holds : Part.PCIE_PEND.holds PCIE_PEND_PEND :=
  ⟨⟨0, by decide, by first | rfl | (simp only [PCIE_PEND_PEND]; omega)⟩, fun _ => ⟨1, by decide, by first | rfl | (simp only [PCIE_PEND_PEND]; omega)⟩⟩

theorem MSIX_MASK_holds (k : Nat) : Part.MSIX.holds (MSIX_MASK k) :=
  ⟨Or.inl ⟨k % 64, Nat.mod_lt _ (by decide), 3, by decide, by first | rfl | (simp only [MSIX_MASK]; omega)⟩, fun h => by simp [MSIX_MASK] at h⟩

theorem MSIX_PBA_holds : Part.MSIX.holds MSIX_PBA :=
  ⟨Or.inr (Or.inl rfl), fun _ => Or.inr (Or.inr rfl)⟩

theorem SVC_STAT_STATE_holds : Part.SVC_STAT.holds SVC_STAT_STATE :=
  ⟨by first | rfl | (simp only [SVC_STAT_STATE]; omega), fun h => by simp [SVC_STAT_STATE] at h⟩

theorem SVC_STAT_SUSPEND_holds : Part.SVC_STAT.holds SVC_STAT_SUSPEND :=
  ⟨by first | rfl | (simp only [SVC_STAT_SUSPEND]; omega), fun h => by simp [SVC_STAT_SUSPEND] at h⟩

theorem SVC_STAT_HS_holds : Part.SVC_STAT.holds SVC_STAT_HS :=
  ⟨by first | rfl | (simp only [SVC_STAT_HS]; omega), fun h => by simp [SVC_STAT_HS] at h⟩

theorem SVC_STAT_ADDR_holds : Part.SVC_STAT.holds SVC_STAT_ADDR :=
  ⟨by first | rfl | (simp only [SVC_STAT_ADDR]; omega), fun h => by simp [SVC_STAT_ADDR] at h⟩

theorem SVC_STAT_RAMORNY_holds : Part.SVC_STAT.holds SVC_STAT_RAMORNY :=
  ⟨by first | rfl | (simp only [SVC_STAT_RAMORNY]; omega), fun h => by simp [SVC_STAT_RAMORNY] at h⟩

theorem SVC_DBG_LC_holds : Part.SVC_DBG.holds SVC_DBG_LC :=
  ⟨by first | rfl | (simp only [SVC_DBG_LC]; omega), fun h => by simp [SVC_DBG_LC] at h⟩

theorem SVC_DBG_UNLOCKED_holds : Part.SVC_DBG.holds SVC_DBG_UNLOCKED :=
  ⟨by first | rfl | (simp only [SVC_DBG_UNLOCKED]; omega), fun h => by simp [SVC_DBG_UNLOCKED] at h⟩

theorem SVC_DFU_NEXT_BLOCK_holds : Part.SVC_DFU_NEXT.holds SVC_DFU_NEXT_BLOCK :=
  ⟨by first | rfl | (simp only [SVC_DFU_NEXT_BLOCK]; omega), fun h => by simp [SVC_DFU_NEXT_BLOCK] at h⟩

theorem SVC_CHAL_CHAL_holds : Part.SVC_CHAL.holds SVC_CHAL_CHAL :=
  ⟨⟨0, by decide, by first | rfl | (simp only [SVC_CHAL_CHAL]; omega)⟩, fun _ => ⟨1, by decide, by first | rfl | (simp only [SVC_CHAL_CHAL]; omega)⟩⟩

theorem VIT_STAT_LC_holds : Part.VIT_STAT.holds VIT_STAT_LC :=
  ⟨by first | rfl | (simp only [VIT_STAT_LC]; omega), fun h => by simp [VIT_STAT_LC] at h⟩

theorem VIT_STAT_LC_PEND_holds : Part.VIT_STAT.holds VIT_STAT_LC_PEND :=
  ⟨by first | rfl | (simp only [VIT_STAT_LC_PEND]; omega), fun h => by simp [VIT_STAT_LC_PEND] at h⟩

theorem VIT_STAT_CR_holds : Part.VIT_STAT.holds VIT_STAT_CR :=
  ⟨by first | rfl | (simp only [VIT_STAT_CR]; omega), fun h => by simp [VIT_STAT_CR] at h⟩

theorem VIT_STAT_NUNUSABLE_holds : Part.VIT_STAT.holds VIT_STAT_NUNUSABLE :=
  ⟨by first | rfl | (simp only [VIT_STAT_NUNUSABLE]; omega), fun h => by simp [VIT_STAT_NUNUSABLE] at h⟩

theorem VIT_KSTAT_STATE_holds : Part.VIT_KSTAT.holds VIT_KSTAT_STATE :=
  ⟨by first | rfl | (simp only [VIT_KSTAT_STATE]; omega), fun h => by simp [VIT_KSTAT_STATE] at h⟩

theorem VIT_KSTAT_RESULT_holds : Part.VIT_KSTAT.holds VIT_KSTAT_RESULT :=
  ⟨by first | rfl | (simp only [VIT_KSTAT_RESULT]; omega), fun h => by simp [VIT_KSTAT_RESULT] at h⟩

theorem VIT_AU_STAT_STATE_holds (q : Nat) : Part.VIT_AU_STAT.holds (VIT_AU_STAT_STATE q) :=
  ⟨⟨q % 128, Nat.mod_lt _ (by decide), by first | rfl | (simp only [VIT_AU_STAT_STATE, perRequester]; omega)⟩, fun h => by simp [VIT_AU_STAT_STATE] at h⟩

theorem VIT_AU_STAT_RES_holds (q : Nat) : Part.VIT_AU_STAT.holds (VIT_AU_STAT_RES q) :=
  ⟨⟨q % 128, Nat.mod_lt _ (by decide), by first | rfl | (simp only [VIT_AU_STAT_RES, perRequester]; omega)⟩, fun h => by simp [VIT_AU_STAT_RES] at h⟩

theorem VIT_AU_STAT_OUTLEN_holds (q : Nat) : Part.VIT_AU_STAT.holds (VIT_AU_STAT_OUTLEN q) :=
  ⟨⟨q % 128, Nat.mod_lt _ (by decide), by first | rfl | (simp only [VIT_AU_STAT_OUTLEN, perRequester]; omega)⟩, fun h => by simp [VIT_AU_STAT_OUTLEN] at h⟩

theorem VIT_AU_FV_FV_holds (q : Nat) : Part.VIT_AU_FV.holds (VIT_AU_FV_FV q) :=
  ⟨⟨q % 128, Nat.mod_lt _ (by decide), 0, by decide, by first | rfl | (simp only [VIT_AU_FV_FV, perRequester]; omega)⟩, fun _ => ⟨q % 128, Nat.mod_lt _ (by decide), 1, by decide, by first | rfl | (simp only [VIT_AU_FV_FV, perRequester]; omega)⟩⟩

theorem VIT_SLOT_STATE_holds (i : Nat) : Part.VIT_SLOT.holds (VIT_SLOT_STATE i) :=
  ⟨⟨i % 256, Nat.mod_lt _ (by decide), by first | rfl | (simp only [VIT_SLOT_STATE]; omega)⟩, fun h => by simp [VIT_SLOT_STATE] at h⟩

theorem VAULT_STAT_TAMPER_holds : Part.VAULT_STAT.holds VAULT_STAT_TAMPER :=
  ⟨by first | rfl | (simp only [VAULT_STAT_TAMPER]; omega), fun h => by simp [VAULT_STAT_TAMPER] at h⟩

theorem VAULT_STAT_RAMVALID_holds : Part.VAULT_STAT.holds VAULT_STAT_RAMVALID :=
  ⟨by first | rfl | (simp only [VAULT_STAT_RAMVALID]; omega), fun h => by simp [VAULT_STAT_RAMVALID] at h⟩

theorem VAULT_MRAM_MIG_holds : Part.VAULT_MRAM.holds VAULT_MRAM_MIG :=
  ⟨by first | rfl | (simp only [VAULT_MRAM_MIG]; omega), fun h => by simp [VAULT_MRAM_MIG] at h⟩

theorem VAULT_MRAM_SPARES_holds : Part.VAULT_MRAM.holds VAULT_MRAM_SPARES :=
  ⟨by first | rfl | (simp only [VAULT_MRAM_SPARES]; omega), fun h => by simp [VAULT_MRAM_SPARES] at h⟩

theorem VAULT_MC_VALUE_holds (k : Nat) : Part.VAULT_MC.holds (VAULT_MC_VALUE k) :=
  ⟨⟨k % 64, Nat.mod_lt _ (by decide), 0, by decide, by first | rfl | (simp only [VAULT_MC_VALUE]; omega)⟩, fun _ => ⟨k % 64, Nat.mod_lt _ (by decide), 1, by decide, by first | rfl | (simp only [VAULT_MC_VALUE]; omega)⟩⟩

theorem VAULT_MC_RDONLY_holds (k : Nat) : Part.VAULT_MC.holds (VAULT_MC_RDONLY k) :=
  ⟨⟨k % 64, Nat.mod_lt _ (by decide), 0, by decide, by first | rfl | (simp only [VAULT_MC_RDONLY]; omega)⟩, fun _ => ⟨k % 64, Nat.mod_lt _ (by decide), 1, by decide, by first | rfl | (simp only [VAULT_MC_RDONLY]; omega)⟩⟩

theorem VAULT_FV_VALUE_holds (b : Nat) : Part.VAULT_FV.holds (VAULT_FV_VALUE b) :=
  ⟨⟨b % 1024, Nat.mod_lt _ (by decide), 0, by decide, by first | rfl | (simp only [VAULT_FV_VALUE]; omega)⟩, fun _ => ⟨b % 1024, Nat.mod_lt _ (by decide), 1, by decide, by first | rfl | (simp only [VAULT_FV_VALUE]; omega)⟩⟩

theorem VAULT_FV_RDONLY_holds (b : Nat) : Part.VAULT_FV.holds (VAULT_FV_RDONLY b) :=
  ⟨⟨b % 1024, Nat.mod_lt _ (by decide), 0, by decide, by first | rfl | (simp only [VAULT_FV_RDONLY]; omega)⟩, fun _ => ⟨b % 1024, Nat.mod_lt _ (by decide), 1, by decide, by first | rfl | (simp only [VAULT_FV_RDONLY]; omega)⟩⟩

theorem VAULT_TLOG_W_holds (j w : Nat) : Part.VAULT_TLOG.holds (VAULT_TLOG_W j w) :=
  ⟨⟨j % 4096, Nat.mod_lt _ (by decide), w % 8, Nat.mod_lt _ (by decide), by first | rfl | (simp only [VAULT_TLOG_W]; omega)⟩, fun h => by simp [VAULT_TLOG_W] at h⟩

theorem UPD_STAT_STATE_holds : Part.UPD_STAT.holds UPD_STAT_STATE :=
  ⟨by first | rfl | (simp only [UPD_STAT_STATE]; omega), fun h => by simp [UPD_STAT_STATE] at h⟩

theorem UPD_STAT_PREP_holds : Part.UPD_STAT.holds UPD_STAT_PREP :=
  ⟨by first | rfl | (simp only [UPD_STAT_PREP]; omega), fun h => by simp [UPD_STAT_PREP] at h⟩

theorem UPD_STAT_BUSY_holds : Part.UPD_STAT.holds UPD_STAT_BUSY :=
  ⟨by first | rfl | (simp only [UPD_STAT_BUSY]; omega), fun h => by simp [UPD_STAT_BUSY] at h⟩

theorem UPD_STAT_CMDERR_holds : Part.UPD_STAT.holds UPD_STAT_CMDERR :=
  ⟨by first | rfl | (simp only [UPD_STAT_CMDERR]; omega), fun h => by simp [UPD_STAT_CMDERR] at h⟩

theorem UPD_STAT_RESULT_holds : Part.UPD_STAT.holds UPD_STAT_RESULT :=
  ⟨by first | rfl | (simp only [UPD_STAT_RESULT]; omega), fun h => by simp [UPD_STAT_RESULT] at h⟩

theorem UPD_STAT_TRIES_holds : Part.UPD_STAT.holds UPD_STAT_TRIES :=
  ⟨by first | rfl | (simp only [UPD_STAT_TRIES]; omega), fun h => by simp [UPD_STAT_TRIES] at h⟩

theorem UPD_STAT_IMAGO_holds : Part.UPD_STAT.holds UPD_STAT_IMAGO :=
  ⟨by first | rfl | (simp only [UPD_STAT_IMAGO]; omega), fun h => by simp [UPD_STAT_IMAGO] at h⟩

theorem UPD_STAT_IMAGO_VALID_holds : Part.UPD_STAT.holds UPD_STAT_IMAGO_VALID :=
  ⟨by first | rfl | (simp only [UPD_STAT_IMAGO_VALID]; omega), fun h => by simp [UPD_STAT_IMAGO_VALID] at h⟩

theorem UPD_STAT_RAMORNY_holds : Part.UPD_STAT.holds UPD_STAT_RAMORNY :=
  ⟨by first | rfl | (simp only [UPD_STAT_RAMORNY]; omega), fun h => by simp [UPD_STAT_RAMORNY] at h⟩

theorem UPD_VER_IMAGO_VERSION_holds : Part.UPD_VER_IMAGO.holds UPD_VER_IMAGO_VERSION :=
  ⟨by first | rfl | (simp only [UPD_VER_IMAGO_VERSION]; omega), fun h => by simp [UPD_VER_IMAGO_VERSION] at h⟩

theorem UPD_VER_STAGED_VERSION_holds : Part.UPD_VER_STAGED.holds UPD_VER_STAGED_VERSION :=
  ⟨by first | rfl | (simp only [UPD_VER_STAGED_VERSION]; omega), fun h => by simp [UPD_VER_STAGED_VERSION] at h⟩

theorem UPD_HO_LAT_US_holds : Part.UPD_HO_LAT.holds UPD_HO_LAT_US :=
  ⟨by first | rfl | (simp only [UPD_HO_LAT_US]; omega), fun h => by simp [UPD_HO_LAT_US] at h⟩

theorem UPD_MAP_BITS_holds (k : Nat) : Part.UPD_MAP.holds (UPD_MAP_BITS k) :=
  ⟨⟨k % 8, Nat.mod_lt _ (by decide), by first | rfl | (simp only [UPD_MAP_BITS]; omega)⟩, fun h => by simp [UPD_MAP_BITS] at h⟩

theorem UPD_FORCED_BITS_holds (k : Nat) : Part.UPD_FORCED.holds (UPD_FORCED_BITS k) :=
  ⟨⟨k % 2, Nat.mod_lt _ (by decide), by first | rfl | (simp only [UPD_FORCED_BITS]; omega)⟩, fun h => by simp [UPD_FORCED_BITS] at h⟩

theorem CON_STAT_SELF_holds : Part.CON_STAT.holds CON_STAT_SELF :=
  ⟨by first | rfl | (simp only [CON_STAT_SELF]; omega), fun h => by simp [CON_STAT_SELF] at h⟩

theorem CON_STAT_MEMBER_holds : Part.CON_STAT.holds CON_STAT_MEMBER :=
  ⟨by first | rfl | (simp only [CON_STAT_MEMBER]; omega), fun h => by simp [CON_STAT_MEMBER] at h⟩

theorem CON_STAT_FENCED_holds : Part.CON_STAT.holds CON_STAT_FENCED :=
  ⟨by first | rfl | (simp only [CON_STAT_FENCED]; omega), fun h => by simp [CON_STAT_FENCED] at h⟩

theorem CON_STAT_THETA_OK_holds : Part.CON_STAT.holds CON_STAT_THETA_OK :=
  ⟨by first | rfl | (simp only [CON_STAT_THETA_OK]; omega), fun h => by simp [CON_STAT_THETA_OK] at h⟩

theorem CON_STAT_AGREED_holds : Part.CON_STAT.holds CON_STAT_AGREED :=
  ⟨by first | rfl | (simp only [CON_STAT_AGREED]; omega), fun h => by simp [CON_STAT_AGREED] at h⟩

theorem CON_THETA_NS_holds : Part.CON_THETA.holds CON_THETA_NS :=
  ⟨⟨0, by decide, by first | rfl | (simp only [CON_THETA_NS]; omega)⟩, fun _ => ⟨1, by decide, by first | rfl | (simp only [CON_THETA_NS]; omega)⟩⟩

theorem CON_DIS_I_holds : Part.CON_DIS.holds CON_DIS_I :=
  ⟨by first | rfl | (simp only [CON_DIS_I]; omega), fun h => by simp [CON_DIS_I] at h⟩

theorem CON_DIS_J_holds : Part.CON_DIS.holds CON_DIS_J :=
  ⟨by first | rfl | (simp only [CON_DIS_J]; omega), fun h => by simp [CON_DIS_J] at h⟩

theorem CON_DIS_KIND_holds : Part.CON_DIS.holds CON_DIS_KIND :=
  ⟨by first | rfl | (simp only [CON_DIS_KIND]; omega), fun h => by simp [CON_DIS_KIND] at h⟩

theorem CON_DIS_NOTICE_holds : Part.CON_DIS.holds CON_DIS_NOTICE :=
  ⟨by first | rfl | (simp only [CON_DIS_NOTICE]; omega), fun h => by simp [CON_DIS_NOTICE] at h⟩

theorem CON_DIS_VALID_holds : Part.CON_DIS.holds CON_DIS_VALID :=
  ⟨by first | rfl | (simp only [CON_DIS_VALID]; omega), fun h => by simp [CON_DIS_VALID] at h⟩

theorem CON_DIS_T_NS_holds : Part.CON_DIS_T.holds CON_DIS_T_NS :=
  ⟨⟨0, by decide, by first | rfl | (simp only [CON_DIS_T_NS]; omega)⟩, fun h => by simp [CON_DIS_T_NS] at h⟩

theorem CON_PEER_STAT_AGREED_holds (m : Nat) : Part.CON_PEER_STAT.holds (CON_PEER_STAT_AGREED m) :=
  ⟨⟨m % 8, Nat.mod_lt _ (by decide), by first | rfl | (simp only [CON_PEER_STAT_AGREED]; omega)⟩, fun h => by simp [CON_PEER_STAT_AGREED] at h⟩

theorem CON_PEER_STAT_KIND_holds (m : Nat) : Part.CON_PEER_STAT.holds (CON_PEER_STAT_KIND m) :=
  ⟨⟨m % 8, Nat.mod_lt _ (by decide), by first | rfl | (simp only [CON_PEER_STAT_KIND]; omega)⟩, fun h => by simp [CON_PEER_STAT_KIND] at h⟩

theorem CON_PEER_STAT_PFENCED_holds (m : Nat) : Part.CON_PEER_STAT.holds (CON_PEER_STAT_PFENCED m) :=
  ⟨⟨m % 8, Nat.mod_lt _ (by decide), by first | rfl | (simp only [CON_PEER_STAT_PFENCED]; omega)⟩, fun h => by simp [CON_PEER_STAT_PFENCED] at h⟩

theorem CON_PEER_OFF_NS_holds (m : Nat) : Part.CON_PEER_OFF.holds (CON_PEER_OFF_NS m) :=
  ⟨⟨m % 8, Nat.mod_lt _ (by decide), by first | rfl | (simp only [CON_PEER_OFF_NS]; omega)⟩, fun h => by simp [CON_PEER_OFF_NS] at h⟩

theorem CON_PEER_CNT_XDROP_holds (m : Nat) : Part.CON_PEER_CNT.holds (CON_PEER_CNT_XDROP m) :=
  ⟨⟨m % 8, Nat.mod_lt _ (by decide), by first | rfl | (simp only [CON_PEER_CNT_XDROP]; omega)⟩, fun h => by simp [CON_PEER_CNT_XDROP] at h⟩

theorem CON_PEER_CNT_LOST_holds (m : Nat) : Part.CON_PEER_CNT.holds (CON_PEER_CNT_LOST m) :=
  ⟨⟨m % 8, Nat.mod_lt _ (by decide), by first | rfl | (simp only [CON_PEER_CNT_LOST]; omega)⟩, fun h => by simp [CON_PEER_CNT_LOST] at h⟩

theorem CON_PEER_SKIP_SKIP_holds (m : Nat) : Part.CON_PEER_SKIP.holds (CON_PEER_SKIP_SKIP m) :=
  ⟨⟨m % 8, Nat.mod_lt _ (by decide), by first | rfl | (simp only [CON_PEER_SKIP_SKIP]; omega)⟩, fun h => by simp [CON_PEER_SKIP_SKIP] at h⟩

theorem CHIP_UID_UID_holds : Part.CHIP_UID.holds CHIP_UID_UID :=
  ⟨⟨0, by decide, by first | rfl | (simp only [CHIP_UID_UID]; omega)⟩, fun _ => ⟨1, by decide, by first | rfl | (simp only [CHIP_UID_UID]; omega)⟩⟩

theorem CHIP_READY_WATCH_holds : Part.CHIP_READY.holds CHIP_READY_WATCH :=
  ⟨by first | rfl | (simp only [CHIP_READY_WATCH]; omega), fun h => by simp [CHIP_READY_WATCH] at h⟩

theorem CHIP_READY_CHG_CHG_holds : Part.CHIP_READY_CHG.holds CHIP_READY_CHG_CHG :=
  ⟨by first | rfl | (simp only [CHIP_READY_CHG_CHG]; omega), fun h => by simp [CHIP_READY_CHG_CHG] at h⟩

theorem CHIP_RGN_READY_RGN_holds : Part.CHIP_RGN_READY.holds CHIP_RGN_READY_RGN :=
  ⟨by first | rfl | (simp only [CHIP_RGN_READY_RGN]; omega), fun h => by simp [CHIP_RGN_READY_RGN] at h⟩

theorem CHIP_NRACC_WADDR_holds : Part.CHIP_NRACC.holds CHIP_NRACC_WADDR :=
  ⟨by first | rfl | (simp only [CHIP_NRACC_WADDR]; omega), fun h => by simp [CHIP_NRACC_WADDR] at h⟩

theorem CHIP_NRACC_SRC_holds : Part.CHIP_NRACC.holds CHIP_NRACC_SRC :=
  ⟨by first | rfl | (simp only [CHIP_NRACC_SRC]; omega), fun h => by simp [CHIP_NRACC_SRC] at h⟩

theorem CHIP_NRACC_VALID_holds : Part.CHIP_NRACC.holds CHIP_NRACC_VALID :=
  ⟨by first | rfl | (simp only [CHIP_NRACC_VALID]; omega), fun h => by simp [CHIP_NRACC_VALID] at h⟩

theorem CHIP_UNMAP_WADDR_holds : Part.CHIP_UNMAP.holds CHIP_UNMAP_WADDR :=
  ⟨by first | rfl | (simp only [CHIP_UNMAP_WADDR]; omega), fun h => by simp [CHIP_UNMAP_WADDR] at h⟩

theorem CHIP_UNMAP_SRC_holds : Part.CHIP_UNMAP.holds CHIP_UNMAP_SRC :=
  ⟨by first | rfl | (simp only [CHIP_UNMAP_SRC]; omega), fun h => by simp [CHIP_UNMAP_SRC] at h⟩

theorem CHIP_UNMAP_WRITE_holds : Part.CHIP_UNMAP.holds CHIP_UNMAP_WRITE :=
  ⟨by first | rfl | (simp only [CHIP_UNMAP_WRITE]; omega), fun h => by simp [CHIP_UNMAP_WRITE] at h⟩

theorem CHIP_UNMAP_VALID_holds : Part.CHIP_UNMAP.holds CHIP_UNMAP_VALID :=
  ⟨by first | rfl | (simp only [CHIP_UNMAP_VALID]; omega), fun h => by simp [CHIP_UNMAP_VALID] at h⟩

theorem OBS_TRACE_ACC_holds (u j : Nat) : Part.OBS_TRACE.holds (OBS_TRACE_ACC u j) :=
  ⟨⟨u % 8, Nat.mod_lt _ (by decide), j % 2048, Nat.mod_lt _ (by decide), by first | rfl | (simp only [OBS_TRACE_ACC]; omega)⟩, fun h => by simp [OBS_TRACE_ACC] at h⟩

theorem readyLoc_holds (b : Nat) : Part.CHIP_READY.holds (readyLoc b) :=
  ⟨(CHIP_READY_WATCH_holds).1, fun h => by simp only [readyLoc] at h; omega⟩

theorem readyChgLoc_holds (b : Nat) : Part.CHIP_READY_CHG.holds (readyChgLoc b) :=
  ⟨(CHIP_READY_CHG_CHG_holds).1, fun h => by simp only [readyChgLoc] at h; omega⟩

theorem rgnReadyLoc_holds (r : Nat) : Part.CHIP_RGN_READY.holds (rgnReadyLoc r) :=
  ⟨(CHIP_RGN_READY_RGN_holds).1, fun h => by simp only [rgnReadyLoc] at h; omega⟩

theorem lockWaitLoc_holds (c j i : Nat) : Part.CLU_LOCK.holds (lockWaitLoc c j i) :=
  ⟨(CLU_LOCK_WAIT_holds c j).1, fun h => by simp only [lockWaitLoc] at h; omega⟩

theorem railLoc_holds (i : Nat) : Part.PWR_RAILS.holds (railLoc i) :=
  ⟨(PWR_RAILS_PG_holds).1, fun h => by simp only [railLoc] at h; omega⟩

theorem linkLoc_holds (l : Nat) : Part.SPN_STAT.holds (linkLoc l) :=
  ⟨(SPN_STAT_LINK_holds).1, fun h => by simp only [linkLoc] at h; omega⟩

theorem agreedLoc_holds (m : Nat) : Part.CON_STAT.holds (agreedLoc m) :=
  ⟨(CON_STAT_AGREED_holds).1, fun h => by simp only [agreedLoc, CON_STAT_AGREED] at h; omega⟩

theorem brkwLoc_holds (t : Nat) : Part.GW_BRKW.holds (brkwLoc t) :=
  ⟨(GW_BRKW_OPEN_holds (t / 32)).1, fun h => by simp only [brkwLoc] at h; omega⟩

theorem clippedLoc_holds (n k : Nat) : Part.OBS_WP_LAST.holds (clippedLoc n k) :=
  ⟨(OBS_WP_LAST_CLIPPED_holds n).1, fun h => by simp only [clippedLoc] at h; omega⟩

theorem clipLoc_holds (n k : Nat) : Part.OBS_ENR_STAT.holds (clipLoc n k) :=
  ⟨(OBS_ENR_STAT_CLIP_holds n).1, fun h => by simp only [clipLoc] at h; omega⟩

theorem forcedLoc_holds (st : Nat) : Part.UPD_FORCED.holds (forcedLoc st) :=
  ⟨(UPD_FORCED_BITS_holds (st / 32)).1, fun h => by simp only [forcedLoc] at h; omega⟩

theorem wireLiveLoc_holds (n b : Nat) : Part.LP_WIRE.holds (wireLiveLoc n b) :=
  ⟨(LP_WIRE_LIVE_holds n).1, fun h => by simp only [wireLiveLoc] at h; omega⟩

theorem wireSeenLoc_holds (n b : Nat) : Part.LP_WIRE.holds (wireSeenLoc n b) :=
  ⟨(LP_WIRE_SEEN_holds n).1, fun h => by simp only [wireSeenLoc] at h; omega⟩

theorem transLoc_holds (n : Nat) : Part.IMG_TRANS.holds (transLoc n) :=
  ⟨(IMG_TRANS_PORT_holds (n / 32)).1, fun h => by simp only [transLoc] at h; omega⟩

theorem mapLoc_holds (k : Nat) : Part.UPD_MAP.holds (mapLoc k) :=
  ⟨(UPD_MAP_BITS_holds (k / 32)).1, fun h => by simp only [mapLoc] at h; omega⟩

theorem ependLoc_holds (k : Nat) : Part.LEDG_EPEND.holds (ependLoc k) :=
  ⟨⟨k / 32 % 2, Nat.mod_lt _ (by decide), by simp only [ependLoc, LEDG_EPEND_PEND]⟩, fun h => by simp only [ependLoc] at h; omega⟩

theorem pendLoc_holds (k : Nat) : Part.PCIE_PEND.holds (pendLoc k) :=
  ⟨⟨k / 32 % 2, Nat.mod_lt _ (by decide), by simp only [pendLoc, PCIE_PEND_PEND]⟩, fun h => by simp only [pendLoc] at h; omega⟩

theorem pbaLoc_holds (k : Nat) : Part.MSIX.holds (pbaLoc k) := by
  refine ⟨Or.inr ?_, fun h => by simp only [pbaLoc] at h; omega⟩
  simp only [pbaLoc, MSIX_PBA]
  have := Nat.mod_lt (k / 32) (show 0 < 2 by decide)
  omega

theorem sevcntLoc_holds (v : Nat) : Part.CUR_SEVCNT.holds (sevcntLoc v) := by
  unfold sevcntLoc
  split
  · exact CUR_SEVCNT_S0_holds
  · exact CUR_SEVCNT_S1_holds
  · exact CUR_SEVCNT_S2_holds
  · exact CUR_SEVCNT_S3_holds

theorem CAT_UPD_T_NS_next (q : Nat) : Part.CAT_UPD_T.owns ((CAT_UPD_T_NS q).addr + 4) := by
  exact ⟨q % 128, Nat.mod_lt _ (by decide), 1, by decide, by first | rfl | (simp only [CAT_UPD_T_NS, perRequester]; omega)⟩

theorem CON_DIS_T_NS_next : Part.CON_DIS_T.owns (CON_DIS_T_NS.addr + 4) := by
  exact ⟨1, by decide, by first | rfl | (simp only [CON_DIS_T_NS]; omega)⟩

theorem CUR_AFT_NS_next (i : Nat) : Part.CUR_AFT.owns ((CUR_AFT_NS i).addr + 4) := by
  exact ⟨i % 256, Nat.mod_lt _ (by decide), 3, by decide, by first | rfl | (simp only [CUR_AFT_NS]; omega)⟩

theorem CUR_FIRST_T_NS_next : Part.CUR_FIRST_T.owns (CUR_FIRST_T_NS.addr + 4) := by
  exact ⟨1, by decide, by first | rfl | (simp only [CUR_FIRST_T_NS]; omega)⟩

theorem CUR_SAFE_T_NS_next : Part.CUR_SAFE_T.owns (CUR_SAFE_T_NS.addr + 4) := by
  exact ⟨1, by decide, by first | rfl | (simp only [CUR_SAFE_T_NS]; omega)⟩

theorem ECF_BO_T_NS_next (n : Nat) : Part.ECF_BO_T.owns ((ECF_BO_T_NS n).addr + 4) := by
  exact ⟨n % 128, Nat.mod_lt _ (by decide), 1, by decide, by first | rfl | (simp only [ECF_BO_T_NS]; omega)⟩

theorem ECF_LAST_T_NS_next (n : Nat) : Part.ECF_LAST_T.owns ((ECF_LAST_T_NS n).addr + 4) := by
  exact ⟨n % 128, Nat.mod_lt _ (by decide), 1, by decide, by first | rfl | (simp only [ECF_LAST_T_NS]; omega)⟩

theorem GW_BRK_T_NS_next : Part.GW_BRK_T.owns (GW_BRK_T_NS.addr + 4) := by
  exact ⟨1, by decide, by first | rfl | (simp only [GW_BRK_T_NS]; omega)⟩

theorem MOP_DESC_W_next (s : Nat) : Part.MOP_DESC.owns ((MOP_DESC_W s 6).addr + 4) :=
  ⟨s % 65536, Nat.mod_lt _ (by decide), 7, by decide, by simp only [MOP_DESC_W]⟩

theorem MOP_MON_NEXT_NS_next (m : Nat) : Part.MOP_MON_NEXT.owns ((MOP_MON_NEXT_NS m).addr + 4) := by
  exact ⟨m % 4096, Nat.mod_lt _ (by decide), 1, by decide, by first | rfl | (simp only [MOP_MON_NEXT_NS]; omega)⟩

theorem OBS_CEN_END_NS_next (n : Nat) : Part.OBS_CEN_END.owns ((OBS_CEN_END_NS n).addr + 4) := by
  exact ⟨n % 128, Nat.mod_lt _ (by decide), 1, by decide, by first | rfl | (simp only [OBS_CEN_END_NS]; omega)⟩

theorem OBS_CEN_RES_W_next (n k : Nat) : Part.OBS_CEN_RES.owns ((OBS_CEN_RES_W n k 2).addr + 4) :=
  ⟨n % 128, Nat.mod_lt _ (by decide), k % 32, Nat.mod_lt _ (by decide), 3, by decide, by simp only [OBS_CEN_RES_W]⟩

theorem OBS_CEN_START_NS_next (n : Nat) : Part.OBS_CEN_START.owns ((OBS_CEN_START_NS n).addr + 4) := by
  exact ⟨n % 128, Nat.mod_lt _ (by decide), 1, by decide, by first | rfl | (simp only [OBS_CEN_START_NS]; omega)⟩

theorem OBS_CEN_UNK_T_NS_next (n : Nat) : Part.OBS_CEN_UNK_T.owns ((OBS_CEN_UNK_T_NS n).addr + 4) := by
  exact ⟨n % 128, Nat.mod_lt _ (by decide), 1, by decide, by first | rfl | (simp only [OBS_CEN_UNK_T_NS]; omega)⟩

theorem SVC_CHAL_CHAL_next : Part.SVC_CHAL.owns (SVC_CHAL_CHAL.addr + 4) := by
  exact ⟨1, by decide, by first | rfl | (simp only [SVC_CHAL_CHAL]; omega)⟩

theorem TIME_BRX_LT_NS_next (k : Nat) : Part.TIME_BRX_LT.owns ((TIME_BRX_LT_NS k).addr + 4) := by
  exact ⟨k % 4, Nat.mod_lt _ (by decide), 1, by decide, by first | rfl | (simp only [TIME_BRX_LT_NS]; omega)⟩

theorem TIME_BRX_RT_NS_next (k : Nat) : Part.TIME_BRX_RT.owns ((TIME_BRX_RT_NS k).addr + 4) := by
  exact ⟨k % 4, Nat.mod_lt _ (by decide), 1, by decide, by first | rfl | (simp only [TIME_BRX_RT_NS]; omega)⟩

theorem TIME_SEC_LAST_NS_next : Part.TIME_SEC_LAST.owns (TIME_SEC_LAST_NS.addr + 4) := by
  exact ⟨1, by decide, by first | rfl | (simp only [TIME_SEC_LAST_NS]; omega)⟩

theorem TIME_VT_FRAC_next : Part.TIME_VT.owns (TIME_VT_FRAC.addr + 4) := by
  exact ⟨1, by decide, by first | rfl | (simp only [TIME_VT_FRAC]; omega)⟩

theorem WATCH_SCHED_FRAC_next : Part.WATCH_SCHED.owns (WATCH_SCHED_FRAC.addr + 4) := by
  exact ⟨1, by decide, by first | rfl | (simp only [WATCH_SCHED_FRAC]; omega)⟩

end Sys2Proof.Machine
end

