-- ==== Sys2Proof/Laws/OnlyOps.lean ====
section
/-! SUPPORT. Which parts each operation of `Machine/Ops.lean` may change, and that it keeps what every command keeps: each
lemma follows the operation's own text, piece by piece, and gives the parts as a set of part numbers. -/

namespace Sys2Proof.Machine

theorem State.setMemWord_only {M0 : Nat} {s0 : State} {s : State} {a : Nat} {w : Word} (kp_s : OnlyM M0 s0 s)
    (hm : Sub 0x1 M0 := by exact Sub.of hm rfl) :
    OnlyM M0 s0 (State.setMemWord s a w) := by
  unfold State.setMemWord
  repeat' first
    | (refine Sub.of hm ?_; exact Eq.refl _) | (refine Sub.bit hm ?_; exact Eq.refl _)
    | intro _ | with_reducible assumption
    | with_reducible apply State.setBytes_only

theorem State.setRingHid_only {M0 : Nat} {s0 : State} {s : State} {k : Nat} {h : RingHid} (kp_s : OnlyM M0 s0 s)
    (hm : Sub 0x4 M0 := by exact Sub.of hm rfl) :
    OnlyM M0 s0 (State.setRingHid s k h) := by
  unfold State.setRingHid
  repeat' first
    | (refine Sub.of hm ?_; exact Eq.refl _) | (refine Sub.bit hm ?_; exact Eq.refl _)
    | (refine Or.inl (Sub.bit hm ?_); exact Eq.refl _) | with_reducible exact Or.inr rfl
    | intro _ | with_reducible assumption
    | with_reducible apply OnlyM.update

theorem State.setQueue_only {M0 : Nat} {s0 : State} {s : State} {q : List LedRec} (kp_s : OnlyM M0 s0 s)
    (hm : Sub 0x10000000000000000000000000000000000000000000000000000000004 M0 := by exact Sub.of hm rfl) :
    OnlyM M0 s0 (State.setQueue s q) := by
  unfold State.setQueue
  repeat' first
    | (refine Sub.of hm ?_; exact Eq.refl _) | (refine Sub.bit hm ?_; exact Eq.refl _)
    | (refine Or.inl (Sub.bit hm ?_); exact Eq.refl _) | with_reducible exact Or.inr rfl
    | with_reducible refine State.set_only LEDG_STAT_STAGED_holds ?_ ?_
    | intro _ | with_reducible assumption
    | (extract_lets +onlyGivenNames x; refine OnlyM.cut (M0 := M0) (s0 := s0) x ?_ ?_ <;> first | (intro hx; clear_value x) | unfold x)
    | (extract_lets +onlyGivenNames x; clear_value x)
    | with_reducible apply OnlyM.update

theorem State.reportFrom_only {M0 : Nat} {s0 : State} {s : State} {src kind addr master acc : Nat} (kp_s : OnlyM M0 s0 s)
    (hm : Sub 0x8 M0 := by exact Sub.of hm rfl) :
    OnlyM M0 s0 (State.reportFrom s src kind addr master acc) := by
  unfold State.reportFrom
  repeat' first
    | (refine Sub.of hm ?_; exact Eq.refl _) | (refine Sub.bit hm ?_; exact Eq.refl _)
    | (refine Or.inl (Sub.bit hm ?_); exact Eq.refl _) | with_reducible exact Or.inr rfl
    | intro _ | with_reducible assumption
    | with_reducible apply OnlyM.update

theorem State.report_only {M0 : Nat} {s0 : State} {s : State} {src kind : Nat} (kp_s : OnlyM M0 s0 s)
    (hm : Sub 0x8 M0 := by exact Sub.of hm rfl) :
    OnlyM M0 s0 (State.report s src kind) := by
  unfold State.report
  repeat' first
    | (refine Sub.of hm ?_; exact Eq.refl _) | (refine Sub.bit hm ?_; exact Eq.refl _)
    | intro _ | with_reducible assumption
    | with_reducible apply State.reportFrom_only

theorem State.startCond_only {M0 : Nat} {s0 : State} {s : State} {src kind : Nat} (kp_s : OnlyM M0 s0 s)
    (hm : Sub 0x8 M0 := by exact Sub.of hm rfl) :
    OnlyM M0 s0 (State.startCond s src kind) := by
  unfold State.startCond
  repeat' first
    | (refine Sub.of hm ?_; exact Eq.refl _) | (refine Sub.bit hm ?_; exact Eq.refl _)
    | (refine Or.inl (Sub.bit hm ?_); exact Eq.refl _) | with_reducible exact Or.inr rfl
    | intro _ | with_reducible assumption
    | with_reducible apply State.report_only | with_reducible apply OnlyM.ite
    | split | with_reducible apply OnlyM.update

theorem State.occur_only {M0 : Nat} {s0 : State} {s : State} {src kind : Nat} (kp_s : OnlyM M0 s0 s)
    (hm : Sub 0x8 M0 := by exact Sub.of hm rfl) :
    OnlyM M0 s0 (State.occur s src kind) := by
  unfold State.occur
  repeat' first
    | (refine Sub.of hm ?_; exact Eq.refl _) | (refine Sub.bit hm ?_; exact Eq.refl _)
    | intro _ | with_reducible assumption
    | with_reducible apply State.report_only | with_reducible apply State.startCond_only
    | with_reducible apply OnlyM.ite
    | split

theorem State.endCond_only {M0 : Nat} {s0 : State} {s : State} {src kind : Nat} (kp_s : OnlyM M0 s0 s)
    (hm : Sub 0x8 M0 := by exact Sub.of hm rfl) :
    OnlyM M0 s0 (State.endCond s src kind) := by
  unfold State.endCond
  repeat' first
    | (refine Sub.of hm ?_; exact Eq.refl _) | (refine Sub.bit hm ?_; exact Eq.refl _)
    | (refine Or.inl (Sub.bit hm ?_); exact Eq.refl _) | with_reducible exact Or.inr rfl
    | intro _ | with_reducible assumption
    | with_reducible apply OnlyM.update

theorem State.enqueue_only {M0 : Nat} {s0 : State} {s : State} {r : LedRec} (kp_s : OnlyM M0 s0 s)
    (hm : Sub 0x1011000000000000000000000000000000000000000000000000000000000C M0 := by exact Sub.of hm rfl) :
    OnlyM M0 s0 (State.enqueue s r) := by
  unfold State.enqueue
  repeat' first
    | (refine Sub.of hm ?_; exact Eq.refl _) | (refine Sub.bit hm ?_; exact Eq.refl _)
    | (refine Or.inl (Sub.bit hm ?_); exact Eq.refl _) | with_reducible exact Or.inr rfl
    | with_reducible refine State.inc_only LEDG_LOSTCNT_NORING_holds ?_ ?_
    | with_reducible refine State.inc_only LEDG_LOSTCNT_STAGING_holds ?_ ?_
    | with_reducible refine State.inc_only (LEDG_RING_STAT_LOST_holds ..) ?_ ?_
    | intro _ | with_reducible assumption | with_reducible apply State.setRingHid_only
    | with_reducible apply State.report_only | with_reducible apply State.setQueue_only
    | with_reducible apply OnlyM.ite
    | (extract_lets +onlyGivenNames x; refine OnlyM.cut (M0 := M0) (s0 := s0) x ?_ ?_ <;> first | (intro hx; clear_value x) | unfold x)
    | (extract_lets +onlyGivenNames x; clear_value x)
    | split | with_reducible apply OnlyM.update

theorem State.createEventAt_only {M0 : Nat} {s0 : State} {s : State} {src count detail nso : Nat} {staged : Bool} (kp_s : OnlyM M0 s0 s)
    (hm : Sub 0x1011000000000000000000000000000000000000000000000000000000000C M0 := by exact Sub.of hm rfl) :
    OnlyM M0 s0 (State.createEventAt s src count detail nso staged) := by
  unfold State.createEventAt
  repeat' first
    | (refine Sub.of hm ?_; exact Eq.refl _) | (refine Sub.bit hm ?_; exact Eq.refl _)
    | intro _ | with_reducible assumption
    | with_reducible apply State.enqueue_only

theorem State.createEvent_only {M0 : Nat} {s0 : State} {s : State} {src count detail : Nat} {staged : Bool} (kp_s : OnlyM M0 s0 s)
    (hm : Sub 0x1011000000000000000000000000000000000000000000000000000000000C M0 := by exact Sub.of hm rfl) :
    OnlyM M0 s0 (State.createEvent s src count detail staged) := by
  unfold State.createEvent
  repeat' first
    | (refine Sub.of hm ?_; exact Eq.refl _) | (refine Sub.bit hm ?_; exact Eq.refl _)
    | intro _ | with_reducible assumption
    | with_reducible apply State.createEventAt_only

theorem State.latchWake_only {M0 : Nat} {s0 : State} {s : State} {src detail : Nat} (kp_s : OnlyM M0 s0 s)
    (hm : Sub 0x4 M0 := by exact Sub.of hm rfl) :
    OnlyM M0 s0 (State.latchWake s src detail) := by
  unfold State.latchWake
  repeat' first
    | (refine Sub.of hm ?_; exact Eq.refl _) | (refine Sub.bit hm ?_; exact Eq.refl _)
    | (refine Or.inl (Sub.bit hm ?_); exact Eq.refl _) | with_reducible exact Or.inr rfl
    | intro _ | with_reducible assumption
    | with_reducible apply OnlyM.ite
    | split | with_reducible apply OnlyM.update

theorem State.raiseLatch_only {M0 : Nat} {s0 : State} {s : State} {src detail : Nat} (kp_s : OnlyM M0 s0 s)
    (hm : Sub 0x3011000000000000000000000000000000000000000000000000000000000C M0 := by exact Sub.of hm rfl) :
    OnlyM M0 s0 (State.raiseLatch s src detail) := by
  unfold State.raiseLatch
  repeat' first
    | (refine Sub.of hm ?_; exact Eq.refl _) | (refine Sub.bit hm ?_; exact Eq.refl _)
    | (refine Or.inl (Sub.bit hm ?_); exact Eq.refl _) | with_reducible exact Or.inr rfl
    | with_reducible refine State.set_only (LEDG_SRC_STATE_holds ..) ?_ ?_
    | intro _ | with_reducible assumption
    | with_reducible apply State.createEvent_only
    | with_reducible apply State.setQueue_only
    | (extract_lets +onlyGivenNames x; refine OnlyM.cut (M0 := M0) (s0 := s0) x ?_ ?_ <;> first | (intro hx; clear_value x) | unfold x)
    | (extract_lets +onlyGivenNames x; clear_value x)
    | split | with_reducible apply OnlyM.update

theorem State.raise_only {M0 : Nat} {s0 : State} {s : State} {src detail : Nat} (kp_s : OnlyM M0 s0 s)
    (hm : Sub 0x3011000000000000000000000000000000000000000000000000000000000C M0 := by exact Sub.of hm rfl) :
    OnlyM M0 s0 (State.raise s src detail) := by
  unfold State.raise
  repeat' first
    | (refine Sub.of hm ?_; exact Eq.refl _) | (refine Sub.bit hm ?_; exact Eq.refl _)
    | intro _ | with_reducible assumption
    | with_reducible apply State.latchWake_only | with_reducible apply State.createEvent_only
    | with_reducible apply State.raiseLatch_only | with_reducible apply OnlyM.ite
    | split

theorem State.levelRecord_only {M0 : Nat} {s0 : State} {s : State} {src : Nat} (kp_s : OnlyM M0 s0 s)
    (hm : Sub 0x3011000000000000000000000000000000000000000000000000000000000C M0 := by exact Sub.of hm rfl) :
    OnlyM M0 s0 (State.levelRecord s src) := by
  unfold State.levelRecord
  repeat' first
    | (refine Sub.of hm ?_; exact Eq.refl _) | (refine Sub.bit hm ?_; exact Eq.refl _)
    | (refine Or.inl (Sub.bit hm ?_); exact Eq.refl _) | with_reducible exact Or.inr rfl
    | with_reducible refine State.set_only (LEDG_SRC_STATE_holds ..) ?_ ?_
    | intro _ | with_reducible assumption
    | with_reducible apply State.createEvent_only
    | with_reducible apply OnlyM.ite
    | split | with_reducible apply OnlyM.update

theorem State.assertLevel_only {M0 : Nat} {s0 : State} {s : State} {src : Nat} (kp_s : OnlyM M0 s0 s)
    (hm : Sub 0x3011000000000000000000000000000000000000000000000000000000000C M0 := by exact Sub.of hm rfl) :
    OnlyM M0 s0 (State.assertLevel s src) := by
  unfold State.assertLevel
  repeat' first
    | (refine Sub.of hm ?_; exact Eq.refl _) | (refine Sub.bit hm ?_; exact Eq.refl _)
    | with_reducible refine State.put_only (LEDG_SRC_LIVE_holds ..) ?_ ?_
    | intro _ | with_reducible assumption | with_reducible apply State.levelRecord_only
    | with_reducible apply OnlyM.ite
    | split

theorem State.deassertLevel_only {M0 : Nat} {s0 : State} {s : State} {src : Nat} (kp_s : OnlyM M0 s0 s)
    (hm : Sub 0x20000000000000000000000000000000000000000000000000000000000000 M0 := by exact Sub.of hm rfl) :
    OnlyM M0 s0 (State.deassertLevel s src) := by
  unfold State.deassertLevel
  repeat' first
    | (refine Sub.of hm ?_; exact Eq.refl _) | (refine Sub.bit hm ?_; exact Eq.refl _)
    | with_reducible refine State.put_only (LEDG_SRC_LIVE_holds ..) ?_ ?_
    | intro _ | with_reducible assumption

theorem State.level_only {M0 : Nat} {s0 : State} {s : State} {src : Nat} {on : Bool} (kp_s : OnlyM M0 s0 s)
    (hm : Sub 0x3011000000000000000000000000000000000000000000000000000000000C M0 := by exact Sub.of hm rfl) :
    OnlyM M0 s0 (State.level s src on) := by
  unfold State.level
  repeat' first
    | (refine Sub.of hm ?_; exact Eq.refl _) | (refine Sub.bit hm ?_; exact Eq.refl _)
    | intro _ | with_reducible assumption
    | with_reducible apply State.assertLevel_only | with_reducible apply State.deassertLevel_only
    | with_reducible apply OnlyM.ite
    | split

theorem State.raiseOncePerMs_only {M0 : Nat} {s0 : State} {s : State} {key src detail : Nat} (kp_s : OnlyM M0 s0 s)
    (hm : Sub 0x3011000000000000000000000000000000000000000000000000000000000C M0 := by exact Sub.of hm rfl) :
    OnlyM M0 s0 (State.raiseOncePerMs s key src detail) := by
  unfold State.raiseOncePerMs
  repeat' first
    | (refine Sub.of hm ?_; exact Eq.refl _) | (refine Sub.bit hm ?_; exact Eq.refl _)
    | (refine Or.inl (Sub.bit hm ?_); exact Eq.refl _) | with_reducible exact Or.inr rfl
    | intro _ | with_reducible assumption
    | with_reducible apply State.raise_only | with_reducible apply OnlyOpt.none
    | with_reducible apply OnlyOpt.some | with_reducible apply OnlyM.ite
    | split | with_reducible apply OnlyM.update

theorem State.closeRate_only {M0 : Nat} {s0 : State} {s : State} {key : Nat} (kp_s : OnlyM M0 s0 s)
    (hm : Sub 0x3011000000000000000000000000000000000000000000000000000000000C M0 := by exact Sub.of hm rfl) :
    OnlyM M0 s0 (State.closeRate s key) := by
  unfold State.closeRate
  repeat' first
    | (refine Sub.of hm ?_; exact Eq.refl _) | (refine Sub.bit hm ?_; exact Eq.refl _)
    | (refine Or.inl (Sub.bit hm ?_); exact Eq.refl _) | with_reducible exact Or.inr rfl
    | intro _ | with_reducible assumption
    | with_reducible apply State.raise_only | with_reducible apply OnlyOpt.none
    | with_reducible apply OnlyOpt.some | with_reducible apply OnlyM.ite
    | (extract_lets +onlyGivenNames x; refine OnlyM.cut (M0 := M0) (s0 := s0) x ?_ ?_ <;> first | (intro hx; clear_value x) | unfold x)
    | (extract_lets +onlyGivenNames x; clear_value x)
    | split | with_reducible apply OnlyM.update

theorem State.countPerMs_only {M0 : Nat} {s0 : State} {s : State} {key src detail : Nat} (kp_s : OnlyM M0 s0 s)
    (hm : Sub 0x3011000000000000000000000000000000000000000000000000000000000C M0 := by exact Sub.of hm rfl) :
    OnlyM M0 s0 (State.countPerMs s key src detail) := by
  unfold State.countPerMs
  repeat' first
    | (refine Sub.of hm ?_; exact Eq.refl _) | (refine Sub.bit hm ?_; exact Eq.refl _)
    | (refine Or.inl (Sub.bit hm ?_); exact Eq.refl _) | with_reducible exact Or.inr rfl
    | intro _ | with_reducible assumption
    | with_reducible apply State.closeRate_only | with_reducible apply OnlyOpt.none
    | with_reducible apply OnlyOpt.some
    | (extract_lets +onlyGivenNames x; refine OnlyM.cut (M0 := M0) (s0 := s0) x ?_ ?_ <;> first | (intro hx; clear_value x) | unfold x)
    | (extract_lets +onlyGivenNames x; clear_value x)
    | split | with_reducible apply OnlyM.update

theorem State.readyLevel_only {M0 : Nat} {s0 : State} {s : State} (kp_s : OnlyM M0 s0 s)
    (hm : Sub 0x3011000000000000000000000000000000000000000000000000000000000C M0 := by exact Sub.of hm rfl) :
    OnlyM M0 s0 (State.readyLevel s) := by
  unfold State.readyLevel
  repeat' first
    | (refine Sub.of hm ?_; exact Eq.refl _) | (refine Sub.bit hm ?_; exact Eq.refl _)
    | intro _ | with_reducible assumption
    | with_reducible apply State.level_only

theorem State.setReady_only {M0 : Nat} {s0 : State} {s : State} {b : Nat} {v : Bool} (kp_s : OnlyM M0 s0 s)
    (hm : Sub 0x18000000000000000000000003011000000000000000000000000000000000000000000000000000000000C M0 := by exact Sub.of hm rfl) :
    OnlyM M0 s0 (State.setReady s b v) := by
  unfold State.setReady
  repeat' first
    | (refine Sub.of hm ?_; exact Eq.refl _) | (refine Sub.bit hm ?_; exact Eq.refl _)
    | with_reducible refine State.put_only (readyLoc_holds ..) ?_ ?_
    | with_reducible refine State.put_only (readyChgLoc_holds ..) ?_ ?_
    | intro _ | with_reducible assumption | with_reducible apply State.readyLevel_only
    | with_reducible apply OnlyM.ite
    | split

theorem State.recordNracc_only {M0 : Nat} {s0 : State} {s : State} {off : Nat} {q : Requester} (kp_s : OnlyM M0 s0 s)
    (hm : Sub 0x400000000000000000000000000000000000000000000000000000000000000000000000000000000000000 M0 := by exact Sub.of hm rfl) :
    OnlyM M0 s0 (State.recordNracc s off q) := by
  unfold State.recordNracc
  repeat' first
    | (refine Sub.of hm ?_; exact Eq.refl _) | (refine Sub.bit hm ?_; exact Eq.refl _)
    | with_reducible refine State.set_only CHIP_NRACC_WADDR_holds ?_ ?_
    | with_reducible refine State.put_only CHIP_NRACC_SRC_holds ?_ ?_
    | with_reducible refine State.put_only CHIP_NRACC_VALID_holds ?_ ?_
    | intro _ | with_reducible assumption
    | with_reducible apply OnlyM.ite
    | split

theorem State.recordUnmap_only {M0 : Nat} {s0 : State} {s : State} {off : Nat} {q : Requester} {write : Bool} (kp_s : OnlyM M0 s0 s)
    (hm : Sub 0x800000000000000000000000000000000000000000000000000000000000000000000000000000000000000 M0 := by exact Sub.of hm rfl) :
    OnlyM M0 s0 (State.recordUnmap s off q write) := by
  unfold State.recordUnmap
  repeat' first
    | (refine Sub.of hm ?_; exact Eq.refl _) | (refine Sub.bit hm ?_; exact Eq.refl _)
    | with_reducible refine State.set_only CHIP_UNMAP_WADDR_holds ?_ ?_
    | with_reducible refine State.put_only CHIP_UNMAP_SRC_holds ?_ ?_
    | with_reducible refine State.put_only CHIP_UNMAP_WRITE_holds ?_ ?_
    | with_reducible refine State.put_only CHIP_UNMAP_VALID_holds ?_ ?_
    | intro _ | with_reducible assumption
    | with_reducible apply OnlyM.ite
    | split

end Sys2Proof.Machine
end

