-- ==== Sys2Proof/Laws/OnlyAccess.lean ====
section
/-! SUPPORT. Which parts each operation of `Machine/Access.lean` may change, and that it keeps what every command keeps: each
lemma follows the operation's own text, piece by piece, and gives the parts as a set of part numbers. -/

namespace Sys2Proof.Machine

theorem State.setEngine_only {M0 : Nat} {s0 : State} {s : State} {e : Nat} {v : Engine} (kp_s : OnlyM M0 s0 s)
    (hm : Sub 0x8000 M0 := by exact Sub.of hm rfl) :
    OnlyM M0 s0 (State.setEngine s e v) := by
  unfold State.setEngine
  repeat' first
    | (refine Sub.of hm ?_; exact Eq.refl _) | (refine Sub.bit hm ?_; exact Eq.refl _)
    | (refine Or.inl (Sub.bit hm ?_); exact Eq.refl _) | with_reducible exact Or.inr rfl
    | intro _ | with_reducible assumption
    | with_reducible apply OnlyM.update

theorem State.modEngine_only {M0 : Nat} {s0 : State} {s : State} {e : Nat} {f : Engine → Engine} (kp_s : OnlyM M0 s0 s)
    (hm : Sub 0x8000 M0 := by exact Sub.of hm rfl) :
    OnlyM M0 s0 (State.modEngine s e f) := by
  unfold State.modEngine
  repeat' first
    | (refine Sub.of hm ?_; exact Eq.refl _) | (refine Sub.bit hm ?_; exact Eq.refl _)
    | intro _ | with_reducible assumption
    | with_reducible apply State.setEngine_only

theorem State.xactive_only {M0 : Nat} {s0 : State} {s : State} {e : Nat} (kp_s : OnlyM M0 s0 s)
    (hm : Sub 0x80000000000000000000000000000000000000000000000 M0 := by exact Sub.of hm rfl) :
    OnlyM M0 s0 (State.xactive s e) := by
  unfold State.xactive
  repeat' first
    | (refine Sub.of hm ?_; exact Eq.refl _) | (refine Sub.bit hm ?_; exact Eq.refl _)
    | with_reducible refine State.put_only (ENG_STAT_XACTIVE_holds ..) ?_ ?_
    | intro _ | with_reducible assumption

theorem State.trap_only {M0 : Nat} {s0 : State} {s : State} {e cause : Nat} {tval : Word} {intr : Bool} (kp_s : OnlyM M0 s0 s)
    (hm : Sub 0x1880000000000000000000000000000000000000000008000 M0 := by exact Sub.of hm rfl) :
    OnlyM M0 s0 (State.trap s e cause tval intr) := by
  unfold State.trap
  repeat' first
    | (refine Sub.of hm ?_; exact Eq.refl _) | (refine Sub.bit hm ?_; exact Eq.refl _)
    | (refine Or.inl (Sub.bit hm ?_); exact Eq.refl _) | with_reducible exact Or.inr rfl
    | with_reducible refine State.set_only (ENG_TRAP_CAUSE_holds ..) ?_ ?_
    | with_reducible refine State.put_only (ENG_TRAP_INTR_holds ..) ?_ ?_
    | with_reducible refine State.set_only (ENG_TVAL_VAL_holds ..) ?_ ?_
    | intro _ | with_reducible assumption
    | with_reducible apply State.setEngine_only | with_reducible apply State.xactive_only
    | with_reducible apply OnlyM.ite
    | (extract_lets +onlyGivenNames x; refine OnlyM.cut (M0 := M0) (s0 := s0) x ?_ ?_ <;> first | (intro hx; clear_value x) | unfold x)
    | (extract_lets +onlyGivenNames x; clear_value x)
    | split | with_reducible apply OnlyM.update

theorem State.accessTrap_only {M0 : Nat} {s0 : State} {s : State} {e addr : Nat} {write : Bool} (kp_s : OnlyM M0 s0 s)
    (hm : Sub 0x1880000000000000000000000000000000000000000208000 M0 := by exact Sub.of hm rfl) :
    OnlyM M0 s0 (State.accessTrap s e addr write) := by
  unfold State.accessTrap
  repeat' first
    | (refine Sub.of hm ?_; exact Eq.refl _) | (refine Sub.bit hm ?_; exact Eq.refl _)
    | (refine Or.inl (Sub.bit hm ?_); exact Eq.refl _) | with_reducible exact Or.inr rfl
    | intro _ | with_reducible assumption
    | with_reducible apply State.trap_only | with_reducible apply OnlyM.ite
    | split | with_reducible apply OnlyM.update

theorem State.answerDone_only {M0 : Nat} {s0 : State} {s : State} (kp_s : OnlyM M0 s0 s)
    (hm : Sub 0x200000 M0 := by exact Sub.of hm rfl) :
    OnlyM M0 s0 (State.answerDone s) := by
  unfold State.answerDone
  repeat' first
    | (refine Sub.of hm ?_; exact Eq.refl _) | (refine Sub.bit hm ?_; exact Eq.refl _)
    | (refine Or.inl (Sub.bit hm ?_); exact Eq.refl _) | with_reducible exact Or.inr rfl
    | intro _ | with_reducible assumption
    | with_reducible apply OnlyM.update

theorem State.answer_only {M0 : Nat} {s0 : State} {s : State} {w : Nat} (kp_s : OnlyM M0 s0 s)
    (hm : Sub 0x200000 M0 := by exact Sub.of hm rfl) :
    OnlyM M0 s0 (State.answer s w) := by
  unfold State.answer
  repeat' first
    | (refine Sub.of hm ?_; exact Eq.refl _) | (refine Sub.bit hm ?_; exact Eq.refl _)
    | (refine Or.inl (Sub.bit hm ?_); exact Eq.refl _) | with_reducible exact Or.inr rfl
    | intro _ | with_reducible assumption
    | with_reducible apply OnlyM.update

theorem State.access_only {M0 : Nat} {s0 : State} {s : State} {q : Requester} {off : Nat} {engOpen rdy write : Bool} {f : State → State} (kp_s : OnlyM M0 s0 s) (kp_f : ∀ t, OnlyM M0 s0 t → OnlyM M0 s0 (f t))
    (hm : Sub 0x400000000000000000000000000000000000001880000000000000000000000000000000000000000208000 M0 := by exact Sub.of hm rfl) :
    OnlyM M0 s0 (State.access s q off engOpen rdy write f) := by
  unfold State.access
  repeat' first
    | (refine Sub.of hm ?_; exact Eq.refl _) | (refine Sub.bit hm ?_; exact Eq.refl _)
    | (refine Or.inl (Sub.bit hm ?_); exact Eq.refl _) | with_reducible exact Or.inr rfl
    | intro _ | with_reducible assumption
    | with_reducible apply kp_f | with_reducible apply State.answerDone_only
    | with_reducible apply State.answer_only | with_reducible apply State.recordNracc_only
    | with_reducible apply State.accessTrap_only | with_reducible apply OnlyM.ite
    | (extract_lets +onlyGivenNames x; refine OnlyM.cut (M0 := M0) (s0 := s0) x ?_ ?_ <;> first | (intro hx; clear_value x) | unfold x)
    | (extract_lets +onlyGivenNames x; clear_value x)
    | split | with_reducible apply OnlyM.update

theorem State.hostWrite_only {M0 : Nat} {s0 : State} {s : State} {q : Requester} {off : Nat} {rdy : Bool} {f : State → State} (kp_s : OnlyM M0 s0 s) (kp_f : ∀ t, OnlyM M0 s0 t → OnlyM M0 s0 (f t))
    (hm : Sub 0x400000000000000000000000000000000000001880000000000000000000000000000000000000000208000 M0 := by exact Sub.of hm rfl) :
    OnlyM M0 s0 (State.hostWrite s q off rdy f) := by
  unfold State.hostWrite
  repeat' first
    | (refine Sub.of hm ?_; exact Eq.refl _) | (refine Sub.bit hm ?_; exact Eq.refl _)
    | intro _ | with_reducible assumption
    | with_reducible apply kp_f | with_reducible apply State.access_only
    | with_reducible apply State.answerDone_only

theorem State.openWrite_only {M0 : Nat} {s0 : State} {s : State} {q : Requester} {off : Nat} {rdy : Bool} {f : State → State} (kp_s : OnlyM M0 s0 s) (kp_f : ∀ t, OnlyM M0 s0 t → OnlyM M0 s0 (f t))
    (hm : Sub 0x400000000000000000000000000000000000001880000000000000000000000000000000000000000208000 M0 := by exact Sub.of hm rfl) :
    OnlyM M0 s0 (State.openWrite s q off rdy f) := by
  unfold State.openWrite
  repeat' first
    | (refine Sub.of hm ?_; exact Eq.refl _) | (refine Sub.bit hm ?_; exact Eq.refl _)
    | intro _ | with_reducible assumption
    | with_reducible apply kp_f | with_reducible apply State.access_only
    | with_reducible apply State.answerDone_only

end Sys2Proof.Machine
end

