-- ==== Sys2Proof/Laws/OnlyHallOps.lean ====
section
/-! SUPPORT. Which parts each operation of `Machine/HallOps.lean` may change, and that it keeps what every command keeps: each
lemma follows the operation's own text, piece by piece, and gives the parts as a set of part numbers. -/

namespace Sys2Proof.Machine

theorem State.setPoison_only {M0 : Nat} {s0 : State} {s : State} {w : Nat} {b : Bool} (kp_s : OnlyM M0 s0 s)
    (hm : Sub 0x10000 M0 := by exact Sub.of hm rfl) :
    OnlyM M0 s0 (State.setPoison s w b) := by
  unfold State.setPoison
  repeat' first
    | (refine Sub.of hm ?_; exact Eq.refl _) | (refine Sub.bit hm ?_; exact Eq.refl _)
    | (refine Or.inl (Sub.bit hm ?_); exact Eq.refl _) | with_reducible exact Or.inr rfl
    | intro _ | with_reducible assumption
    | with_reducible apply OnlyM.update

theorem State.setFix_only {M0 : Nat} {s0 : State} {s : State} {w : Nat} {b : Bool} (kp_s : OnlyM M0 s0 s)
    (hm : Sub 0x10000 M0 := by exact Sub.of hm rfl) :
    OnlyM M0 s0 (State.setFix s w b) := by
  unfold State.setFix
  repeat' first
    | (refine Sub.of hm ?_; exact Eq.refl _) | (refine Sub.bit hm ?_; exact Eq.refl _)
    | (refine Or.inl (Sub.bit hm ?_); exact Eq.refl _) | with_reducible exact Or.inr rfl
    | intro _ | with_reducible assumption
    | with_reducible apply OnlyM.update

theorem State.countUe_only {M0 : Nat} {s0 : State} {s : State} {w master : Nat} (kp_s : OnlyM M0 s0 s)
    (hm : Sub 0x200000000000000000000000000000000000000000000000008 M0 := by exact Sub.of hm rfl) :
    OnlyM M0 s0 (State.countUe s w master) := by
  unfold State.countUe
  repeat' first
    | (refine Sub.of hm ?_; exact Eq.refl _) | (refine Sub.bit hm ?_; exact Eq.refl _)
    | with_reducible refine State.inc_only (HALL_ECC_UE_holds ..) ?_ ?_
    | intro _ | with_reducible assumption | with_reducible apply State.reportFrom_only

theorem State.poisonRead_only {M0 : Nat} {s0 : State} {s : State} {w : Nat} {m : HallMaster} (kp_s : OnlyM M0 s0 s)
    (hm : Sub 0x3011000000060000000000000000000000000000000000000000000000000C M0 := by exact Sub.of hm rfl) :
    OnlyM M0 s0 (State.poisonRead s w m) := by
  unfold State.poisonRead
  repeat' first
    | (refine Sub.of hm ?_; exact Eq.refl _) | (refine Sub.bit hm ?_; exact Eq.refl _)
    | with_reducible refine State.set_only (HALL_UE_ADDR_WORD_holds ..) ?_ ?_
    | with_reducible refine State.set_only (HALL_UE_ADDR_MASTER_holds ..) ?_ ?_
    | with_reducible refine State.put_only (HALL_UE_ADDR_VALID_holds ..) ?_ ?_
    | intro _ | with_reducible assumption
    | with_reducible apply State.countUe_only | with_reducible apply State.raise_only
    | with_reducible apply OnlyM.ite
    | (extract_lets +onlyGivenNames x; refine OnlyM.cut (M0 := M0) (s0 := s0) x ?_ ?_ <;> first | (intro hx; clear_value x) | unfold x)
    | (extract_lets +onlyGivenNames x; clear_value x)
    | split

theorem State.setRegion_only {M0 : Nat} {s0 : State} {s : State} {r : Nat} {v : Region} (kp_s : OnlyM M0 s0 s)
    (hm : Sub 0x8000 M0 := by exact Sub.of hm rfl) :
    OnlyM M0 s0 (State.setRegion s r v) := by
  unfold State.setRegion
  repeat' first
    | (refine Sub.of hm ?_; exact Eq.refl _) | (refine Sub.bit hm ?_; exact Eq.refl _)
    | (refine Or.inl (Sub.bit hm ?_); exact Eq.refl _) | with_reducible exact Or.inr rfl
    | intro _ | with_reducible assumption
    | with_reducible apply OnlyM.update

theorem State.setCluster_only {M0 : Nat} {s0 : State} {s : State} {c : Nat} {v : Cluster} (kp_s : OnlyM M0 s0 s)
    (hm : Sub 0x8000 M0 := by exact Sub.of hm rfl) :
    OnlyM M0 s0 (State.setCluster s c v) := by
  unfold State.setCluster
  repeat' first
    | (refine Sub.of hm ?_; exact Eq.refl _) | (refine Sub.bit hm ?_; exact Eq.refl _)
    | (refine Or.inl (Sub.bit hm ?_); exact Eq.refl _) | with_reducible exact Or.inr rfl
    | intro _ | with_reducible assumption
    | with_reducible apply OnlyM.update

theorem State.setL1_only {M0 : Nat} {s0 : State} {s : State} {e line : Nat} {v : Option L1Line} (kp_s : OnlyM M0 s0 s)
    (hm : Sub 0x8000 M0 := by exact Sub.of hm rfl) :
    OnlyM M0 s0 (State.setL1 s e line v) := by
  unfold State.setL1
  repeat' first
    | (refine Sub.of hm ?_; exact Eq.refl _) | (refine Sub.bit hm ?_; exact Eq.refl _)
    | (refine Or.inl (Sub.bit hm ?_); exact Eq.refl _) | with_reducible exact Or.inr rfl
    | intro _ | with_reducible assumption
    | with_reducible apply State.modEngine_only | with_reducible apply OnlyOpt.none
    | with_reducible apply OnlyOpt.some | with_reducible apply OnlyM.ite
    | split | with_reducible apply OnlyM.update

theorem State.setL2_only {M0 : Nat} {s0 : State} {s : State} {r line : Nat} {v : Option L2Line} (kp_s : OnlyM M0 s0 s)
    (hm : Sub 0x8000 M0 := by exact Sub.of hm rfl) :
    OnlyM M0 s0 (State.setL2 s r line v) := by
  unfold State.setL2
  repeat' first
    | (refine Sub.of hm ?_; exact Eq.refl _) | (refine Sub.bit hm ?_; exact Eq.refl _)
    | (refine Or.inl (Sub.bit hm ?_); exact Eq.refl _) | with_reducible exact Or.inr rfl
    | intro _ | with_reducible assumption
    | with_reducible apply State.setRegion_only | with_reducible apply OnlyOpt.none
    | with_reducible apply OnlyOpt.some
    | (extract_lets +onlyGivenNames x; refine OnlyM.cut (M0 := M0) (s0 := s0) x ?_ ?_ <;> first | (intro hx; clear_value x) | unfold x)
    | (extract_lets +onlyGivenNames x; clear_value x)
    | with_reducible apply OnlyM.update

theorem State.writeLine_only {M0 : Nat} {s0 : State} {s : State} {line : Nat} {d : List Byte} (kp_s : OnlyM M0 s0 s)
    (hm : Sub 0x10001 M0 := by exact Sub.of hm rfl) :
    OnlyM M0 s0 (State.writeLine s line d) := by
  unfold State.writeLine
  repeat' first
    | (refine Sub.of hm ?_; exact Eq.refl _) | (refine Sub.bit hm ?_; exact Eq.refl _)
    | intro _ | with_reducible assumption
    | with_reducible apply State.setPoison_only | with_reducible apply State.setFix_only
    | with_reducible apply State.setBytes_only | with_reducible apply foldl_only

theorem State.writeBackL1_only {M0 : Nat} {s0 : State} {s : State} {e line : Nat} (kp_s : OnlyM M0 s0 s)
    (hm : Sub 0x8000 M0 := by exact Sub.of hm rfl) :
    OnlyM M0 s0 (State.writeBackL1 s e line) := by
  unfold State.writeBackL1
  repeat' first
    | (refine Sub.of hm ?_; exact Eq.refl _) | (refine Sub.bit hm ?_; exact Eq.refl _)
    | (refine Or.inl (Sub.bit hm ?_); exact Eq.refl _) | with_reducible exact Or.inr rfl
    | intro _ | with_reducible assumption
    | with_reducible apply State.setL2_only | with_reducible apply State.setL1_only
    | with_reducible apply OnlyOpt.none | with_reducible apply OnlyOpt.some
    | with_reducible apply OnlyM.ite
    | (extract_lets +onlyGivenNames x; refine OnlyM.cut (M0 := M0) (s0 := s0) x ?_ ?_ <;> first | (intro hx; clear_value x) | unfold x)
    | (extract_lets +onlyGivenNames x; clear_value x)
    | split | with_reducible apply OnlyM.update

theorem State.cleanRegion_only {M0 : Nat} {s0 : State} {s : State} {r line : Nat} (kp_s : OnlyM M0 s0 s)
    (hm : Sub 0x18001 M0 := by exact Sub.of hm rfl) :
    OnlyM M0 s0 (State.cleanRegion s r line) := by
  unfold State.cleanRegion
  repeat' first
    | (refine Sub.of hm ?_; exact Eq.refl _) | (refine Sub.bit hm ?_; exact Eq.refl _)
    | (refine Or.inl (Sub.bit hm ?_); exact Eq.refl _) | with_reducible exact Or.inr rfl
    | intro _ | with_reducible assumption
    | with_reducible apply State.writeBackL1_only | with_reducible apply State.writeLine_only
    | with_reducible apply State.setL2_only | with_reducible apply State.each_only
    | with_reducible apply OnlyOpt.none | with_reducible apply OnlyOpt.some
    | with_reducible apply OnlyM.ite
    | (extract_lets +onlyGivenNames x; refine OnlyM.cut (M0 := M0) (s0 := s0) x ?_ ?_ <;> first | (intro hx; clear_value x) | unfold x)
    | (extract_lets +onlyGivenNames x; clear_value x)
    | split | with_reducible apply OnlyM.update

theorem State.dropLine_only {M0 : Nat} {s0 : State} {s : State} {r line : Nat} (kp_s : OnlyM M0 s0 s)
    (hm : Sub 0x8000 M0 := by exact Sub.of hm rfl) :
    OnlyM M0 s0 (State.dropLine s r line) := by
  unfold State.dropLine
  repeat' first
    | (refine Sub.of hm ?_; exact Eq.refl _) | (refine Sub.bit hm ?_; exact Eq.refl _)
    | intro _ | with_reducible assumption
    | with_reducible apply State.setL1_only | with_reducible apply State.setL2_only
    | with_reducible apply State.each_only | with_reducible apply OnlyOpt.none
    | with_reducible apply OnlyOpt.some

theorem State.snoop_only {M0 : Nat} {s0 : State} {s : State} {line : Nat} (kp_s : OnlyM M0 s0 s)
    (hm : Sub 0x18001 M0 := by exact Sub.of hm rfl) :
    OnlyM M0 s0 (State.snoop s line) := by
  unfold State.snoop
  repeat' first
    | (refine Sub.of hm ?_; exact Eq.refl _) | (refine Sub.bit hm ?_; exact Eq.refl _)
    | intro _ | with_reducible assumption
    | with_reducible apply State.cleanRegion_only | with_reducible apply State.dropLine_only
    | with_reducible apply State.each_only

theorem State.writeInWord_only {M0 : Nat} {s0 : State} {s : State} {a : Nat} {bs : List Byte} {master : Nat} (kp_s : OnlyM M0 s0 s)
    (hm : Sub 0x200000000000000000000000000000000000000000000010009 M0 := by exact Sub.of hm rfl) :
    OnlyM M0 s0 (State.writeInWord s a bs master) := by
  unfold State.writeInWord
  repeat' first
    | (refine Sub.of hm ?_; exact Eq.refl _) | (refine Sub.bit hm ?_; exact Eq.refl _)
    | intro _ | with_reducible assumption
    | with_reducible apply State.countUe_only | with_reducible apply State.setPoison_only
    | with_reducible apply State.setFix_only | with_reducible apply State.setBytes_only
    | with_reducible apply OnlyM.ite
    | split

theorem State.writeWords_only {M0 : Nat} {s0 s : State} {m k a : Nat} {bs : List Byte} (hs : OnlyM M0 s0 s)
    (hm : Sub 0x200000000000000000000000000000000000000000000010009 M0 := by exact Sub.of hm rfl) :
    OnlyM M0 s0 (s.writeWords m k a bs) := by
  induction k generalizing s a bs with
  | zero => cases bs <;> exact hs
  | succ k ih => cases bs with
    | nil => exact hs
    | cons b bs => exact ih (State.writeInWord_only hs)

theorem State.hallPut_only {M0 : Nat} {s0 : State} {s : State} {a : Nat} {bs : List Byte} {master : Nat} (kp_s : OnlyM M0 s0 s)
    (hm : Sub 0x200000000000000000000000000000000000000000000010009 M0 := by exact Sub.of hm rfl) :
    OnlyM M0 s0 (State.hallPut s a bs master) := by
  unfold State.hallPut
  repeat' first
    | (refine Sub.of hm ?_; exact Eq.refl _) | (refine Sub.bit hm ?_; exact Eq.refl _)
    | intro _ | with_reducible assumption
    | with_reducible apply State.writeWords_only

theorem State.hallStore_only {M0 : Nat} {s0 : State} {s : State} {a : Nat} {bs : List Byte} {master : Nat} (kp_s : OnlyM M0 s0 s)
    (hm : Sub 0x200000000000000000000000000000000000000000000018009 M0 := by exact Sub.of hm rfl) :
    OnlyM M0 s0 (State.hallStore s a bs master) := by
  unfold State.hallStore
  repeat' first
    | (refine Sub.of hm ?_; exact Eq.refl _) | (refine Sub.bit hm ?_; exact Eq.refl _)
    | intro _ | with_reducible assumption
    | with_reducible apply State.snoop_only | with_reducible apply State.hallPut_only
    | with_reducible apply State.each_only

theorem State.flushUnits_only {M0 : Nat} {s0 : State} {s : State} {us : List Nat} {keep : Bool} (kp_s : OnlyM M0 s0 s)
    (hm : Sub 0x18001 M0 := by exact Sub.of hm rfl) :
    OnlyM M0 s0 (State.flushUnits s us keep) := by
  unfold State.flushUnits
  repeat' first
    | (refine Sub.of hm ?_; exact Eq.refl _) | (refine Sub.bit hm ?_; exact Eq.refl _)
    | intro _ | with_reducible assumption
    | with_reducible apply State.cleanRegion_only | with_reducible apply State.dropLine_only
    | with_reducible apply State.each_only | with_reducible apply OnlyM.ite
    | (extract_lets +onlyGivenNames x; refine OnlyM.cut (M0 := M0) (s0 := s0) x ?_ ?_ <;> first | (intro hx; clear_value x) | unfold x)
    | (extract_lets +onlyGivenNames x; clear_value x)
    | split

theorem State.zeroUnits_only {M0 : Nat} {s0 s : State} {us : List Nat} (hs : OnlyM M0 s0 s)
    (hm : Sub 0x10001 M0 := by exact Sub.of hm rfl) :
    OnlyM M0 s0 (s.zeroUnits us) :=
  { hs with words := hs.words, mem := Or.inl (Sub.bit hm rfl), halls := Or.inl (Sub.bit hm rfl),
            keeps := ⟨hs.keeps.regs, fun x => smapWf_filter _ (hs.keeps.mem x), hs.keeps.pending, hs.keeps.counters, hs.keeps.tlog⟩ }

theorem State.interrupt_only {M0 : Nat} {s0 : State} {s : State} {e : Nat} (kp_s : OnlyM M0 s0 s)
    (hm : Sub 0x1880000000000000000000000000000000000000000008000 M0 := by exact Sub.of hm rfl) :
    OnlyM M0 s0 (State.interrupt s e) := by
  unfold State.interrupt
  repeat' first
    | (refine Sub.of hm ?_; exact Eq.refl _) | (refine Sub.bit hm ?_; exact Eq.refl _)
    | with_reducible refine State.set_only (ENG_STAT_STATE_holds ..) ?_ ?_
    | intro _ | with_reducible assumption | with_reducible apply State.trap_only
    | with_reducible apply OnlyM.ite
    | (extract_lets +onlyGivenNames x; refine OnlyM.cut (M0 := M0) (s0 := s0) x ?_ ?_ <;> first | (intro hx; clear_value x) | unfold x)
    | (extract_lets +onlyGivenNames x; clear_value x)
    | split

theorem State.showEngine_only {M0 : Nat} {s0 : State} {s : State} {e : Nat} (kp_s : OnlyM M0 s0 s)
    (hm : Sub 0x2080000000000000000000000000000000000000000000000 M0 := by exact Sub.of hm rfl) :
    OnlyM M0 s0 (State.showEngine s e) := by
  unfold State.showEngine
  repeat' first
    | (refine Sub.of hm ?_; exact Eq.refl _) | (refine Sub.bit hm ?_; exact Eq.refl _)
    | with_reducible refine State.set_only (ENG_PC_PC_holds ..) ?_ ?_
    | with_reducible refine State.put_only (ENG_STAT_PRIV_holds ..) ?_ ?_
    | intro _ | with_reducible assumption
    | (extract_lets +onlyGivenNames x; refine OnlyM.cut (M0 := M0) (s0 := s0) x ?_ ?_ <;> first | (intro hx; clear_value x) | unfold x)
    | (extract_lets +onlyGivenNames x; clear_value x)

theorem State.engCause_only {M0 : Nat} {s0 : State} {s : State} {e c b1 : Nat} (kp_s : OnlyM M0 s0 s)
    (hm : Sub 0x3011000000000000000000000000000000000000000000000000000000000C M0 := by exact Sub.of hm rfl) :
    OnlyM M0 s0 (State.engCause s e c b1) := by
  unfold State.engCause
  repeat' first
    | (refine Sub.of hm ?_; exact Eq.refl _) | (refine Sub.bit hm ?_; exact Eq.refl _)
    | intro _ | with_reducible assumption
    | with_reducible apply State.raise_only

theorem State.engineStart_only {M0 : Nat} {s0 : State} {s : State} {e : Nat} (kp_s : OnlyM M0 s0 s)
    (hm : Sub 0x2080000000000000000000000000000000000000000008000 M0 := by exact Sub.of hm rfl) :
    OnlyM M0 s0 (State.engineStart s e) := by
  unfold State.engineStart
  repeat' first
    | (refine Sub.of hm ?_; exact Eq.refl _) | (refine Sub.bit hm ?_; exact Eq.refl _)
    | (refine Or.inl (Sub.bit hm ?_); exact Eq.refl _) | with_reducible exact Or.inr rfl
    | with_reducible refine State.set_only (ENG_STAT_STATE_holds ..) ?_ ?_
    | intro _ | with_reducible assumption
    | with_reducible apply State.modEngine_only | with_reducible apply State.showEngine_only
    | (extract_lets +onlyGivenNames x; refine OnlyM.cut (M0 := M0) (s0 := s0) x ?_ ?_ <;> first | (intro hx; clear_value x) | unfold x)
    | (extract_lets +onlyGivenNames x; clear_value x)
    | with_reducible apply OnlyM.update

theorem State.engineHalt_only {M0 : Nat} {s0 : State} {s : State} {e : Nat} (kp_s : OnlyM M0 s0 s)
    (hm : Sub 0x3011000000000208000000000000000000000000000000000000000000800C M0 := by exact Sub.of hm rfl) :
    OnlyM M0 s0 (State.engineHalt s e) := by
  unfold State.engineHalt
  repeat' first
    | (refine Sub.of hm ?_; exact Eq.refl _) | (refine Sub.bit hm ?_; exact Eq.refl _)
    | with_reducible refine State.set_only (ENG_STAT_STATE_holds ..) ?_ ?_
    | intro _ | with_reducible assumption
    | with_reducible apply State.modEngine_only
    | with_reducible apply State.xactive_only | with_reducible apply State.showEngine_only
    | with_reducible apply State.engCause_only | with_reducible apply OnlyM.ite
    | (extract_lets +onlyGivenNames x; refine OnlyM.cut (M0 := M0) (s0 := s0) x ?_ ?_ <;> first | (intro hx; clear_value x) | unfold x)
    | (extract_lets +onlyGivenNames x; clear_value x)
    | split

theorem State.lockGrant_only {M0 : Nat} {s0 : State} {s : State} {c j i : Nat} (kp_s : OnlyM M0 s0 s)
    (hm : Sub 0x301100000000000A000000000000000000000000000000000000000000800C M0 := by exact Sub.of hm rfl) :
    OnlyM M0 s0 (State.lockGrant s c j i) := by
  unfold State.lockGrant
  repeat' first
    | (refine Sub.of hm ?_; exact Eq.refl _) | (refine Sub.bit hm ?_; exact Eq.refl _)
    | (refine Or.inl (Sub.bit hm ?_); exact Eq.refl _) | with_reducible exact Or.inr rfl
    | with_reducible refine State.set_only (CLU_LOCK_HOLDER_holds ..) ?_ ?_
    | with_reducible refine State.put_only (CLU_LOCK_HELD_holds ..) ?_ ?_
    | with_reducible refine State.put_only (lockWaitLoc_holds ..) ?_ ?_
    | with_reducible refine State.set_only (ENG_STAT_STATE_holds ..) ?_ ?_
    | intro _ | with_reducible assumption
    | with_reducible apply State.setCluster_only | with_reducible apply State.engCause_only
    | with_reducible apply OnlyM.ite
    | (extract_lets +onlyGivenNames x; refine OnlyM.cut (M0 := M0) (s0 := s0) x ?_ ?_ <;> first | (intro hx; clear_value x) | unfold x)
    | (extract_lets +onlyGivenNames x; clear_value x)
    | split | with_reducible apply OnlyM.update

theorem State.lockFree_only {M0 : Nat} {s0 : State} {s : State} {c j : Nat} {broken : Bool} (kp_s : OnlyM M0 s0 s)
    (hm : Sub 0x301100000000000A000000000000000000000000000000000000000000800C M0 := by exact Sub.of hm rfl) :
    OnlyM M0 s0 (State.lockFree s c j broken) := by
  unfold State.lockFree
  repeat' first
    | (refine Sub.of hm ?_; exact Eq.refl _) | (refine Sub.bit hm ?_; exact Eq.refl _)
    | (refine Or.inl (Sub.bit hm ?_); exact Eq.refl _) | with_reducible exact Or.inr rfl
    | with_reducible refine State.put_only (CLU_LOCK_HELD_holds ..) ?_ ?_
    | with_reducible refine State.put_only (CLU_LOCK_BROKEN_holds ..) ?_ ?_
    | intro _ | with_reducible assumption | with_reducible apply State.lockGrant_only
    | with_reducible apply OnlyOpt.none | with_reducible apply OnlyOpt.some
    | (extract_lets +onlyGivenNames x; refine OnlyM.cut (M0 := M0) (s0 := s0) x ?_ ?_ <;> first | (intro hx; clear_value x) | unfold x)
    | (extract_lets +onlyGivenNames x; clear_value x)
    | split | with_reducible apply OnlyM.update

theorem State.withdrawAll_only {M0 : Nat} {s0 : State} {s : State} {e : Nat} (kp_s : OnlyM M0 s0 s)
    (hm : Sub 0x20000000000000000000000000000000000000000000000 M0 := by exact Sub.of hm rfl) :
    OnlyM M0 s0 (State.withdrawAll s e) := by
  unfold State.withdrawAll
  repeat' first
    | (refine Sub.of hm ?_; exact Eq.refl _) | (refine Sub.bit hm ?_; exact Eq.refl _)
    | with_reducible refine State.put_only (lockWaitLoc_holds ..) ?_ ?_
    | intro _ | with_reducible assumption | with_reducible apply State.each_only

theorem State.breakLocks_only {M0 : Nat} {s0 : State} {s : State} {e : Nat} (kp_s : OnlyM M0 s0 s)
    (hm : Sub 0x301100000000000A000000000000000000000000000000000000000000800C M0 := by exact Sub.of hm rfl) :
    OnlyM M0 s0 (State.breakLocks s e) := by
  unfold State.breakLocks
  repeat' first
    | (refine Sub.of hm ?_; exact Eq.refl _) | (refine Sub.bit hm ?_; exact Eq.refl _)
    | intro _ | with_reducible assumption
    | with_reducible apply State.withdrawAll_only | with_reducible apply State.lockFree_only
    | with_reducible apply State.each_only | with_reducible apply OnlyM.ite
    | (extract_lets +onlyGivenNames x; refine OnlyM.cut (M0 := M0) (s0 := s0) x ?_ ?_ <;> first | (intro hx; clear_value x) | unfold x)
    | (extract_lets +onlyGivenNames x; clear_value x)
    | split

theorem State.dropHeld_only {M0 : Nat} {s0 : State} {s : State} {e : Nat} (kp_s : OnlyM M0 s0 s)
    (hm : Sub 0x10000 M0 := by exact Sub.of hm rfl) :
    OnlyM M0 s0 (State.dropHeld s e) := by
  unfold State.dropHeld
  repeat' first
    | (refine Sub.of hm ?_; exact Eq.refl _) | (refine Sub.bit hm ?_; exact Eq.refl _)
    | (refine Or.inl (Sub.bit hm ?_); exact Eq.refl _) | with_reducible exact Or.inr rfl
    | intro _ | with_reducible assumption
    | split | with_reducible apply OnlyM.update

theorem State.engineReset_only {M0 : Nat} {s0 : State} {s : State} {e : Nat} (kp_s : OnlyM M0 s0 s)
    (hm : Sub 0x301100000000020A000000000000000000000000000000000000000001800C M0 := by exact Sub.of hm rfl) :
    OnlyM M0 s0 (State.engineReset s e) := by
  unfold State.engineReset
  repeat' first
    | (refine Sub.of hm ?_; exact Eq.refl _) | (refine Sub.bit hm ?_; exact Eq.refl _)
    | with_reducible refine State.set_only (ENG_STAT_STATE_holds ..) ?_ ?_
    | intro _ | with_reducible assumption
    | with_reducible apply State.dropHeld_only | with_reducible apply State.writeBackL1_only
    | with_reducible apply State.setL1_only | with_reducible apply State.breakLocks_only
    | with_reducible apply State.setEngine_only
    | with_reducible apply State.xactive_only | with_reducible apply State.showEngine_only
    | with_reducible apply State.engineStart_only | with_reducible apply State.engCause_only
    | with_reducible apply State.each_only | with_reducible apply OnlyOpt.none
    | with_reducible apply OnlyOpt.some | with_reducible apply OnlyM.ite
    | (extract_lets +onlyGivenNames x; refine OnlyM.cut (M0 := M0) (s0 := s0) x ?_ ?_ <;> first | (intro hx; clear_value x) | unfold x)
    | (extract_lets +onlyGivenNames x; clear_value x)
    | split

theorem State.enterHalted_only {M0 : Nat} {s0 : State} {s : State} {e : Nat} (kp_s : OnlyM M0 s0 s)
    (hm : Sub 0x2080000000000000000000000000000000000000000008000 M0 := by exact Sub.of hm rfl) :
    OnlyM M0 s0 (State.enterHalted s e) := by
  unfold State.enterHalted
  repeat' first
    | (refine Sub.of hm ?_; exact Eq.refl _) | (refine Sub.bit hm ?_; exact Eq.refl _)
    | with_reducible refine State.set_only (ENG_STAT_STATE_holds ..) ?_ ?_
    | intro _ | with_reducible assumption | with_reducible apply State.engineStart_only
    | with_reducible apply State.showEngine_only | with_reducible apply OnlyM.ite
    | (extract_lets +onlyGivenNames x; refine OnlyM.cut (M0 := M0) (s0 := s0) x ?_ ?_ <;> first | (intro hx; clear_value x) | unfold x)
    | (extract_lets +onlyGivenNames x; clear_value x)
    | split

end Sys2Proof.Machine
end

