-- ==== Sys2Proof/Laws/OnlyStoreOps.lean ====
section
/-! SUPPORT. Which parts each operation of `Machine/StoreOps.lean` may change, and that it keeps what every command keeps: each
lemma follows the operation's own text, piece by piece, and gives the parts as a set of part numbers. -/

namespace Sys2Proof.Machine

theorem State.setPort_only {M0 : Nat} {s0 : State} {s : State} {n : Nat} {p : Port} (kp_s : OnlyM M0 s0 s)
    (hm : Sub 0x40 M0 := by exact Sub.of hm rfl) :
    OnlyM M0 s0 (State.setPort s n p) := by
  unfold State.setPort
  repeat' first
    | (refine Sub.of hm ?_; exact Eq.refl _) | (refine Sub.bit hm ?_; exact Eq.refl _)
    | (refine Or.inl (Sub.bit hm ?_); exact Eq.refl _) | with_reducible exact Or.inr rfl
    | intro _ | with_reducible assumption
    | with_reducible apply OnlyM.update

theorem State.modPort_only {M0 : Nat} {s0 : State} {s : State} {n : Nat} {f : Port → Port} (kp_s : OnlyM M0 s0 s)
    (hm : Sub 0x40 M0 := by exact Sub.of hm rfl) :
    OnlyM M0 s0 (State.modPort s n f) := by
  unfold State.modPort
  repeat' first
    | (refine Sub.of hm ?_; exact Eq.refl _) | (refine Sub.bit hm ?_; exact Eq.refl _)
    | intro _ | with_reducible assumption
    | with_reducible apply State.setPort_only

theorem State.modSlot_only {M0 : Nat} {s0 : State} {s : State} {k : Nat} {f : Slot → Slot} (kp_s : OnlyM M0 s0 s)
    (hm : Sub 0x400 M0 := by exact Sub.of hm rfl) :
    OnlyM M0 s0 (State.modSlot s k f) := by
  unfold State.modSlot
  repeat' first
    | (refine Sub.of hm ?_; exact Eq.refl _) | (refine Sub.bit hm ?_; exact Eq.refl _)
    | (refine Or.inl (Sub.bit hm ?_); exact Eq.refl _) | with_reducible exact Or.inr rfl
    | intro _ | with_reducible assumption
    | with_reducible apply OnlyM.update

theorem State.emit_only {M0 : Nat} {s0 : State} {s : State} {o : Output} (kp_s : OnlyM M0 s0 s)
    (hm : Sub 0x400000 M0 := by exact Sub.of hm rfl) :
    OnlyM M0 s0 (State.emit s o) := by
  unfold State.emit
  repeat' first
    | (refine Sub.of hm ?_; exact Eq.refl _) | (refine Sub.bit hm ?_; exact Eq.refl _)
    | (refine Or.inl (Sub.bit hm ?_); exact Eq.refl _) | with_reducible exact Or.inr rfl
    | intro _ | with_reducible assumption
    | with_reducible apply OnlyM.update

theorem State.mopErr_only {M0 : Nat} {s0 : State} {s : State} {reason cmd : Nat} {q : Requester} {slot : Nat} (kp_s : OnlyM M0 s0 s)
    (hm : Sub 0x3011000000000000000000000000000000018000000000000000000000000C M0 := by exact Sub.of hm rfl) :
    OnlyM M0 s0 (State.mopErr s reason cmd q slot) := by
  unfold State.mopErr
  repeat' first
    | (refine Sub.of hm ?_; exact Eq.refl _) | (refine Sub.bit hm ?_; exact Eq.refl _)
    | (refine Or.inl (Sub.bit hm ?_); exact Eq.refl _) | with_reducible exact Or.inr rfl
    | with_reducible refine State.set_only MOP_ERR_REASON_holds ?_ ?_
    | with_reducible refine State.set_only MOP_ERR_CMD_holds ?_ ?_
    | with_reducible refine State.put_only MOP_ERR_SRC_holds ?_ ?_
    | with_reducible refine State.set_only MOP_ERR_SLOT_SLOT_holds ?_ ?_
    | with_reducible refine State.set_only MOP_ERR_SLOT_ENGINE_holds ?_ ?_
    | with_reducible refine State.put_only MOP_ERR_VALID_holds ?_ ?_
    | intro _ | with_reducible assumption
    | with_reducible apply State.raise_only | with_reducible apply OnlyM.ite
    | (extract_lets +onlyGivenNames x; refine OnlyM.cut (M0 := M0) (s0 := s0) x ?_ ?_ <;> first | (intro hx; clear_value x) | unfold x)
    | (extract_lets +onlyGivenNames x; clear_value x)
    | split | with_reducible apply OnlyM.update

theorem State.setBuf_only {M0 : Nat} {s0 : State} {s : State} {k a : Nat} (kp_s : OnlyM M0 s0 s)
    (hm : Sub 0x1000000000000000000000000000000 M0 := by exact Sub.of hm rfl) :
    OnlyM M0 s0 (State.setBuf s k a) := by
  unfold State.setBuf
  repeat' first
    | (refine Sub.of hm ?_; exact Eq.refl _) | (refine Sub.bit hm ?_; exact Eq.refl _)
    | with_reducible refine State.set_only (MOP_DESC_BUF_holds ..) ?_ ?_
    | intro _ | with_reducible assumption

theorem State.setSlotFrame_only {M0 : Nat} {s0 : State} {s : State} {k : Nat} {f : Frame} (kp_s : OnlyM M0 s0 s)
    (hm : Sub 0x1000000000000000000000000000000 M0 := by exact Sub.of hm rfl) :
    OnlyM M0 s0 (State.setSlotFrame s k f) := by
  unfold State.setSlotFrame
  repeat' first
    | (refine Sub.of hm ?_; exact Eq.refl _) | (refine Sub.bit hm ?_; exact Eq.refl _)
    | with_reducible refine State.setWord_only (Part.holds.own (MOP_DESC_W_holds ..)) ?_ ?_
    | intro _ | with_reducible assumption

theorem State.setSlotState_only {M0 : Nat} {s0 : State} {s : State} {k st : Nat} (kp_s : OnlyM M0 s0 s)
    (hm : Sub 0x1040800000000000000000000000000 M0 := by exact Sub.of hm rfl) :
    OnlyM M0 s0 (State.setSlotState s k st) := by
  unfold State.setSlotState
  repeat' first
    | (refine Sub.of hm ?_; exact Eq.refl _) | (refine Sub.bit hm ?_; exact Eq.refl _)
    | (refine Or.inl (Sub.bit hm ?_); exact Eq.refl _) | with_reducible exact Or.inr rfl
    | with_reducible refine State.set_only (MOP_DESC_STATE_holds ..) ?_ ?_
    | with_reducible refine State.set_only (MOP_POOL_STAT_FREE_holds ..) ?_ ?_
    | with_reducible refine State.inc_only (MOP_PORTQ_NQ_holds ..) ?_ ?_
    | with_reducible refine State.set_only (MOP_PORTQ_NQ_holds ..) ?_ ?_
    | intro _ | with_reducible assumption
    | with_reducible apply OnlyOpt.none | with_reducible apply OnlyOpt.some
    | with_reducible apply OnlyM.ite
    | (extract_lets +onlyGivenNames x; refine OnlyM.cut (M0 := M0) (s0 := s0) x ?_ ?_ <;> first | (intro hx; clear_value x) | unfold x)
    | (extract_lets +onlyGivenNames x; clear_value x)
    | split | with_reducible apply OnlyM.update

theorem State.setFreeBufs_only {M0 : Nat} {s0 : State} {s : State} {f : Nat} {b : List Nat × List Nat} (kp_s : OnlyM M0 s0 s)
    (hm : Sub 0x30000000000000000000000000400 M0 := by exact Sub.of hm rfl) :
    OnlyM M0 s0 (State.setFreeBufs s f b) := by
  unfold State.setFreeBufs
  repeat' first
    | (refine Sub.of hm ?_; exact Eq.refl _) | (refine Sub.bit hm ?_; exact Eq.refl _)
    | (refine Or.inl (Sub.bit hm ?_); exact Eq.refl _) | with_reducible exact Or.inr rfl
    | with_reducible refine State.set_only (MOP_FSP_FREE_SMALL_holds ..) ?_ ?_
    | with_reducible refine State.set_only (MOP_FSP_FREE_LARGE_holds ..) ?_ ?_
    | with_reducible refine State.set_only (MOP_FSP_LOW_SMALL_holds ..) ?_ ?_
    | with_reducible refine State.set_only (MOP_FSP_LOW_LARGE_holds ..) ?_ ?_
    | intro _ | with_reducible assumption
    | (extract_lets +onlyGivenNames x; refine OnlyM.cut (M0 := M0) (s0 := s0) x ?_ ?_ <;> first | (intro hx; clear_value x) | unfold x)
    | (extract_lets +onlyGivenNames x; clear_value x)
    | with_reducible apply OnlyM.update

theorem State.reserveEvent_only {M0 : Nat} {s0 : State} {s : State} {f : Nat} {large : Bool} (kp_s : OnlyM M0 s0 s)
    (hm : Sub 0x3011000000000000000000000000000000000000000000000000000000000C M0 := by exact Sub.of hm rfl) :
    OnlyM M0 s0 (State.reserveEvent s f large) := by
  unfold State.reserveEvent
  repeat' first
    | (refine Sub.of hm ?_; exact Eq.refl _) | (refine Sub.bit hm ?_; exact Eq.refl _)
    | intro _ | with_reducible assumption
    | with_reducible apply State.raise_only | with_reducible apply OnlyM.ite
    | (extract_lets +onlyGivenNames x; refine OnlyM.cut (M0 := M0) (s0 := s0) x ?_ ?_ <;> first | (intro hx; clear_value x) | unfold x)
    | (extract_lets +onlyGivenNames x; clear_value x)
    | split

theorem State.popBuf_only {M0 : Nat} {s0 : State} {s : State} {f : Nat} {large : Bool} (kp_s : OnlyM M0 s0 s)
    (hm : Sub 0x3011000000000000000000000000000003000000000000000000000000040C M0 := by exact Sub.of hm rfl) :
    OnlyOptP M0 s0 (State.popBuf s f large) := by
  unfold State.popBuf
  repeat' first
    | (refine Sub.of hm ?_; exact Eq.refl _) | (refine Sub.bit hm ?_; exact Eq.refl _)
    | (refine Or.inl (Sub.bit hm ?_); exact Eq.refl _) | with_reducible exact Or.inr rfl
    | intro _ | with_reducible assumption
    | with_reducible apply State.setFreeBufs_only | with_reducible apply State.reserveEvent_only
    | with_reducible apply OnlyOptP.some | with_reducible apply OnlyOptP.none
    | with_reducible apply OnlyM.ite
    | (extract_lets +onlyGivenNames x; refine OnlyM.cut (M0 := M0) (s0 := s0) x ?_ ?_ <;> first | (intro hx; clear_value x) | unfold x)
    | (extract_lets +onlyGivenNames x; clear_value x)
    | split | with_reducible apply OnlyM.update

theorem State.takeBuf_only {M0 : Nat} {s0 : State} {s : State} {f : Nat} {large prio : Bool} (kp_s : OnlyM M0 s0 s)
    (hm : Sub 0x3011000000000000000000000000000003000000000000000000000000040C M0 := by exact Sub.of hm rfl) :
    OnlyOptP M0 s0 (State.takeBuf s f large prio) := by
  unfold State.takeBuf
  repeat' first
    | (refine Sub.of hm ?_; exact Eq.refl _) | (refine Sub.bit hm ?_; exact Eq.refl _)
    | intro _ | with_reducible assumption
    | with_reducible apply State.popBuf_only | with_reducible apply OnlyOptP.some
    | with_reducible apply OnlyOptP.none | with_reducible apply OnlyM.ite
    | with_reducible (refine OnlyOptP.elim ?_ (by assumption))
    | split

theorem State.returnBuf_only {M0 : Nat} {s0 : State} {s : State} {f a : Nat} (kp_s : OnlyM M0 s0 s)
    (hm : Sub 0x30000000000000000000000000400 M0 := by exact Sub.of hm rfl) :
    OnlyM M0 s0 (State.returnBuf s f a) := by
  unfold State.returnBuf
  repeat' first
    | (refine Sub.of hm ?_; exact Eq.refl _) | (refine Sub.bit hm ?_; exact Eq.refl _)
    | intro _ | with_reducible assumption
    | with_reducible apply State.setFreeBufs_only | with_reducible apply OnlyM.ite
    | (extract_lets +onlyGivenNames x; refine OnlyM.cut (M0 := M0) (s0 := s0) x ?_ ?_ <;> first | (intro hx; clear_value x) | unfold x)
    | (extract_lets +onlyGivenNames x; clear_value x)
    | split

theorem State.setLastTaken_only {M0 : Nat} {s0 : State} {s : State} {p k : Nat} (kp_s : OnlyM M0 s0 s)
    (hm : Sub 0x400 M0 := by exact Sub.of hm rfl) :
    OnlyM M0 s0 (State.setLastTaken s p k) := by
  unfold State.setLastTaken
  repeat' first
    | (refine Sub.of hm ?_; exact Eq.refl _) | (refine Sub.bit hm ?_; exact Eq.refl _)
    | (refine Or.inl (Sub.bit hm ?_); exact Eq.refl _) | with_reducible exact Or.inr rfl
    | intro _ | with_reducible assumption
    | with_reducible apply OnlyOpt.none | with_reducible apply OnlyOpt.some
    | with_reducible apply OnlyM.update

theorem State.holdSlot_only {M0 : Nat} {s0 : State} {s : State} {k : Nat} (kp_s : OnlyM M0 s0 s)
    (hm : Sub 0x400 M0 := by exact Sub.of hm rfl) :
    OnlyM M0 s0 (State.holdSlot s k) := by
  unfold State.holdSlot
  repeat' first
    | (refine Sub.of hm ?_; exact Eq.refl _) | (refine Sub.bit hm ?_; exact Eq.refl _)
    | (refine Or.inl (Sub.bit hm ?_); exact Eq.refl _) | with_reducible exact Or.inr rfl
    | intro _ | with_reducible assumption
    | with_reducible apply OnlyM.update

theorem State.admitFrame_only {M0 : Nat} {s0 : State} {s : State} {p len : Nat} {prio : Bool} (kp_s : OnlyM M0 s0 s)
    (hm : Sub 0x3011000000000000000000000000000003000000000000000000000000040C M0 := by exact Sub.of hm rfl) :
    OnlyOptP M0 s0 (State.admitFrame s p len prio) := by
  unfold State.admitFrame
  repeat' first
    | (refine Sub.of hm ?_; exact Eq.refl _) | (refine Sub.bit hm ?_; exact Eq.refl _)
    | (refine Or.inl (Sub.bit hm ?_); exact Eq.refl _) | with_reducible exact Or.inr rfl
    | intro _ | with_reducible assumption
    | with_reducible apply State.takeBuf_only | with_reducible apply State.setLastTaken_only
    | with_reducible apply State.holdSlot_only | with_reducible apply State.popBuf_only
    | with_reducible apply OnlyOptP.some | with_reducible apply OnlyOptP.none
    | with_reducible apply OnlyM.ite
    | (extract_lets +onlyGivenNames x; refine OnlyM.cut (M0 := M0) (s0 := s0) x ?_ ?_ <;> first | (intro hx; clear_value x) | unfold x)
    | (extract_lets +onlyGivenNames x; clear_value x)
    | with_reducible (refine OnlyOptP.elim ?_ (by assumption))
    | split | with_reducible apply OnlyM.update

theorem State.unholdSlot_only {M0 : Nat} {s0 : State} {s : State} {k : Nat} (kp_s : OnlyM M0 s0 s)
    (hm : Sub 0x400 M0 := by exact Sub.of hm rfl) :
    OnlyM M0 s0 (State.unholdSlot s k) := by
  unfold State.unholdSlot
  repeat' first
    | (refine Sub.of hm ?_; exact Eq.refl _) | (refine Sub.bit hm ?_; exact Eq.refl _)
    | (refine Or.inl (Sub.bit hm ?_); exact Eq.refl _) | with_reducible exact Or.inr rfl
    | intro _ | with_reducible assumption
    | with_reducible apply OnlyM.update

theorem State.cancelAdmission_only {M0 : Nat} {s0 : State} {s : State} {a : Admission} (kp_s : OnlyM M0 s0 s)
    (hm : Sub 0x30000000000000000000000000400 M0 := by exact Sub.of hm rfl) :
    OnlyM M0 s0 (State.cancelAdmission s a) := by
  unfold State.cancelAdmission
  repeat' first
    | (refine Sub.of hm ?_; exact Eq.refl _) | (refine Sub.bit hm ?_; exact Eq.refl _)
    | intro _ | with_reducible assumption
    | with_reducible apply State.unholdSlot_only | with_reducible apply State.returnBuf_only
    | with_reducible apply OnlyM.ite
    | (extract_lets +onlyGivenNames x; refine OnlyM.cut (M0 := M0) (s0 := s0) x ?_ ?_ <;> first | (intro hx; clear_value x) | unfold x)
    | (extract_lets +onlyGivenNames x; clear_value x)
    | split

theorem State.countDrop_only {M0 : Nat} {s0 : State} {s : State} {p : Nat} (kp_s : OnlyM M0 s0 s)
    (hm : Sub 0x3011000000000000000000000000000000080000000000000000000000000C M0 := by exact Sub.of hm rfl) :
    OnlyM M0 s0 (State.countDrop s p) := by
  unfold State.countDrop
  repeat' first
    | (refine Sub.of hm ?_; exact Eq.refl _) | (refine Sub.bit hm ?_; exact Eq.refl _)
    | with_reducible refine State.inc_only (MOP_POOL_STAT_DROP_holds ..) ?_ ?_
    | intro _ | with_reducible assumption | with_reducible apply State.raiseOncePerMs_only

theorem State.post_only {M0 : Nat} {s0 : State} {s : State} {k p code stamp mon : Nat} (kp_s : OnlyM M0 s0 s)
    (hm : Sub 0x1011000000000000000000000000000000000000000000000000000000000C M0 := by exact Sub.of hm rfl) :
    OnlyM M0 s0 (State.post s k p code stamp mon) := by
  unfold State.post
  repeat' first
    | (refine Sub.of hm ?_; exact Eq.refl _) | (refine Sub.bit hm ?_; exact Eq.refl _)
    | intro _ | with_reducible assumption
    | with_reducible apply State.enqueue_only

theorem State.countCompletion_only {M0 : Nat} {s0 : State} {s : State} {p state code : Nat} (kp_s : OnlyM M0 s0 s)
    (hm : Sub 0x1000000000000000000000000000 M0 := by exact Sub.of hm rfl) :
    OnlyM M0 s0 (State.countCompletion s p state code) := by
  unfold State.countCompletion
  repeat' first
    | (refine Sub.of hm ?_; exact Eq.refl _) | (refine Sub.bit hm ?_; exact Eq.refl _)
    | with_reducible refine State.inc_only (MOP_POOL_CNT_ABORT_holds ..) ?_ ?_
    | with_reducible refine State.inc_only (MOP_POOL_CNT_DONE_holds ..) ?_ ?_
    | intro _ | with_reducible assumption | with_reducible apply OnlyM.ite
    | split

theorem State.zeroBuf_only {M0 : Nat} {s0 : State} {s : State} {f a : Nat} (kp_s : OnlyM M0 s0 s)
    (hm : Sub 0x200000000000000000000000000000000000000000000018009 M0 := by exact Sub.of hm rfl) :
    OnlyM M0 s0 (State.zeroBuf s f a) := by
  unfold State.zeroBuf
  repeat' first
    | (refine Sub.of hm ?_; exact Eq.refl _) | (refine Sub.bit hm ?_; exact Eq.refl _)
    | intro _ | with_reducible assumption
    | with_reducible apply State.hallStore_only | with_reducible apply OnlyM.ite
    | split

theorem State.endSlot_only {M0 : Nat} {s0 : State} {s : State} {k state code : Nat} {stamp : Option (Word × Word)} (kp_s : OnlyM M0 s0 s)
    (hm : Sub 0x1011000000020000000000000000000104180000000000000000000001840D M0 := by exact Sub.of hm rfl) :
    OnlyM M0 s0 (State.endSlot s k state code stamp) := by
  unfold State.endSlot
  repeat' first
    | (refine Sub.of hm ?_; exact Eq.refl _) | (refine Sub.bit hm ?_; exact Eq.refl _)
    | (refine Or.inl (Sub.bit hm ?_); exact Eq.refl _) | with_reducible exact Or.inr rfl
    | with_reducible refine State.set_only (MOP_DESC_CODE_holds ..) ?_ ?_
    | with_reducible refine State.setWord_only (Part.holds.own (MOP_DESC_W_holds ..)) ?_ ?_
    | intro _ | with_reducible assumption
    | with_reducible apply State.setSlotState_only | with_reducible apply State.modSlot_only
    | with_reducible apply State.countCompletion_only | with_reducible apply State.post_only
    | with_reducible apply State.zeroBuf_only | with_reducible apply OnlyOpt.none
    | with_reducible apply OnlyOpt.some | with_reducible apply OnlyM.ite
    | (extract_lets +onlyGivenNames x; refine OnlyM.cut (M0 := M0) (s0 := s0) x ?_ ?_ <;> first | (intro hx; clear_value x) | unfold x)
    | (extract_lets +onlyGivenNames x; clear_value x)
    | split | with_reducible apply OnlyM.update

theorem State.tagDone_only {M0 : Nat} {s0 : State} {s : State} {k code : Nat} (kp_s : OnlyM M0 s0 s)
    (hm : Sub 0x400 M0 := by exact Sub.of hm rfl) :
    OnlyM M0 s0 (State.tagDone s k code) := by
  unfold State.tagDone
  repeat' first
    | (refine Sub.of hm ?_; exact Eq.refl _) | (refine Sub.bit hm ?_; exact Eq.refl _)
    | (refine Or.inl (Sub.bit hm ?_); exact Eq.refl _) | with_reducible exact Or.inr rfl
    | intro _ | with_reducible assumption
    | with_reducible apply OnlyOpt.none | with_reducible apply OnlyOpt.some
    | with_reducible apply OnlyM.ite
    | (extract_lets +onlyGivenNames x; refine OnlyM.cut (M0 := M0) (s0 := s0) x ?_ ?_ <;> first | (intro hx; clear_value x) | unfold x)
    | (extract_lets +onlyGivenNames x; clear_value x)
    | split | with_reducible apply OnlyM.update

theorem State.updateNpend_only {M0 : Nat} {s0 : State} {s : State} {t : Nat} (kp_s : OnlyM M0 s0 s)
    (hm : Sub 0x10000000000000000000000000000000000000000000 M0 := by exact Sub.of hm rfl) :
    OnlyM M0 s0 (State.updateNpend s t) := by
  unfold State.updateNpend
  repeat' first
    | (refine Sub.of hm ?_; exact Eq.refl _) | (refine Sub.bit hm ?_; exact Eq.refl _)
    | (refine Or.inl (Sub.bit hm ?_); exact Eq.refl _) | with_reducible exact Or.inr rfl
    | with_reducible refine State.set_only (GW_EQ_STAT_NPEND_holds ..) ?_ ?_
    | intro _ | with_reducible assumption | with_reducible apply OnlyOpt.none
    | with_reducible apply OnlyOpt.some
    | (extract_lets +onlyGivenNames x; refine OnlyM.cut (M0 := M0) (s0 := s0) x ?_ ?_ <;> first | (intro hx; clear_value x) | unfold x)
    | (extract_lets +onlyGivenNames x; clear_value x)
    | split | with_reducible apply OnlyM.update

theorem State.breach_only {M0 : Nat} {s0 : State} {s : State} {route idx target kind release late : Nat} (kp_s : OnlyM M0 s0 s)
    (hm : Sub 0x301100000000000000300403C000000000000000000000000000000000000C M0 := by exact Sub.of hm rfl) :
    OnlyM M0 s0 (State.breach s route idx target kind release late) := by
  unfold State.breach
  repeat' first
    | (refine Sub.of hm ?_; exact Eq.refl _) | (refine Sub.bit hm ?_; exact Eq.refl _)
    | with_reducible refine State.inc_only (GW_RT_BRK_BREACH_holds ..) ?_ ?_
    | with_reducible refine State.inc_only (GW_EQ_CNT_BREACH_holds ..) ?_ ?_
    | with_reducible refine State.put_only (GW_EQ_STAT_BRW_holds ..) ?_ ?_
    | with_reducible refine State.put_only (brkwLoc_holds ..) ?_ ?_
    | with_reducible refine State.set_only GW_BRK_KIND_holds ?_ ?_
    | with_reducible refine State.set_only GW_BRK_ROUTE_holds ?_ ?_
    | with_reducible refine State.set_only GW_BRK_LEG_holds ?_ ?_
    | with_reducible refine State.set_only GW_BRK_TARGET_holds ?_ ?_
    | with_reducible refine State.set_only GW_BRK_LATE_NS_holds ?_ ?_
    | with_reducible refine State.setStamp_only (Part.holds.own GW_BRK_T_NS_holds) GW_BRK_T_NS_next ?_ ?_
    | with_reducible refine State.put_only GW_BRK_VALID_holds ?_ ?_
    | intro _ | with_reducible assumption
    | with_reducible apply State.raise_only | with_reducible apply OnlyM.ite
    | (extract_lets +onlyGivenNames x; refine OnlyM.cut (M0 := M0) (s0 := s0) x ?_ ?_ <;> first | (intro hx; clear_value x) | unfold x)
    | (extract_lets +onlyGivenNames x; clear_value x)
    | split

theorem State.gatewayEnd_only {M0 : Nat} {s0 : State} {s : State} {k code : Nat} {submitted : Bool} (kp_s : OnlyM M0 s0 s)
    (hm : Sub 0x301100000000000000302403C000000104080000000000000000000000100C M0 := by exact Sub.of hm rfl) :
    OnlyM M0 s0 (State.gatewayEnd s k code submitted) := by
  unfold State.gatewayEnd
  try dsimp only
  repeat' first
    | (refine Sub.of hm ?_; exact Eq.refl _) | (refine Sub.bit hm ?_; exact Eq.refl _)
    | (refine Or.inl (Sub.bit hm ?_); exact Eq.refl _) | with_reducible exact Or.inr rfl
    | with_reducible refine State.set_only (GW_LEG_Q_INUSE_holds ..) ?_ ?_
    | intro _ | with_reducible assumption | with_reducible apply State.setSlotState_only
    | with_reducible apply State.breach_only | with_reducible apply State.updateNpend_only
    | with_reducible apply State.each_only | with_reducible apply OnlyOpt.none
    | with_reducible apply OnlyOpt.some | with_reducible apply OnlyM.ite
    | split | with_reducible apply OnlyM.update

theorem State.completeTx_only {M0 : Nat} {s0 : State} {s : State} {k state code : Nat} {stamp : Option Nat} (kp_s : OnlyM M0 s0 s)
    (hm : Sub 0x301100000002000000302403C00000010C180000000000000000000001940D M0 := by exact Sub.of hm rfl) :
    OnlyM M0 s0 (State.completeTx s k state code stamp) := by
  unfold State.completeTx
  repeat' first
    | (refine Sub.of hm ?_; exact Eq.refl _) | (refine Sub.bit hm ?_; exact Eq.refl _)
    | with_reducible refine State.put_only (MOP_PORTHEAD_VALID_holds ..) ?_ ?_
    | intro _ | with_reducible assumption
    | with_reducible apply State.endSlot_only | with_reducible apply State.tagDone_only | with_reducible apply State.gatewayEnd_only
    | with_reducible apply State.each_only | with_reducible apply OnlyM.ite
    | (extract_lets +onlyGivenNames x; refine OnlyM.cut (M0 := M0) (s0 := s0) x ?_ ?_ <;> first | (intro hx; clear_value x) | unfold x)
    | (extract_lets +onlyGivenNames x; clear_value x)
    | split

theorem State.enterTag_only {M0 : Nat} {s0 : State} {s : State} {p k : Nat} (kp_s : OnlyM M0 s0 s)
    (hm : Sub 0x400 M0 := by exact Sub.of hm rfl) :
    OnlyM M0 s0 (State.enterTag s p k) := by
  unfold State.enterTag
  repeat' first
    | (refine Sub.of hm ?_; exact Eq.refl _) | (refine Sub.bit hm ?_; exact Eq.refl _)
    | (refine Or.inl (Sub.bit hm ?_); exact Eq.refl _) | with_reducible exact Or.inr rfl
    | intro _ | with_reducible assumption
    | with_reducible apply OnlyM.ite
    | (extract_lets +onlyGivenNames x; refine OnlyM.cut (M0 := M0) (s0 := s0) x ?_ ?_ <;> first | (intro hx; clear_value x) | unfold x)
    | (extract_lets +onlyGivenNames x; clear_value x)
    | split | with_reducible apply OnlyM.update

theorem State.queueSlot_only {M0 : Nat} {s0 : State} {s : State} {p k qtime : Nat} (kp_s : OnlyM M0 s0 s)
    (hm : Sub 0x301100000002000000302403C00000010C180000000000000000000001940D M0 := by exact Sub.of hm rfl) :
    OnlyM M0 s0 (State.queueSlot s p k qtime) := by
  unfold State.queueSlot
  repeat' first
    | (refine Sub.of hm ?_; exact Eq.refl _) | (refine Sub.bit hm ?_; exact Eq.refl _)
    | (refine Or.inl (Sub.bit hm ?_); exact Eq.refl _) | with_reducible exact Or.inr rfl
    | with_reducible refine State.put_only (MOP_DESC_DUP_holds ..) ?_ ?_
    | intro _ | with_reducible assumption | with_reducible apply State.completeTx_only
    | with_reducible apply State.setSlotState_only | with_reducible apply State.endSlot_only
    | with_reducible apply State.modSlot_only | with_reducible apply State.enterTag_only
    | with_reducible apply OnlyOpt.none | with_reducible apply OnlyOpt.some
    | (extract_lets +onlyGivenNames x; refine OnlyM.cut (M0 := M0) (s0 := s0) x ?_ ?_ <;> first | (intro hx; clear_value x) | unfold x)
    | (extract_lets +onlyGivenNames x; clear_value x)
    | split | with_reducible apply OnlyM.update

theorem State.fillRx_only {M0 : Nat} {s0 : State} {s : State} {k p : Nat} {f : Frame} {stamp wp : Nat} {taint : Bool} {entry : Option Nat} {buf : Nat} {code : Nat} (kp_s : OnlyM M0 s0 s)
    (hm : Sub 0x1011000000020000000000000000000104180000000000000000000001840D M0 := by exact Sub.of hm rfl) :
    OnlyM M0 s0 (State.fillRx s k p f stamp wp taint entry buf code) := by
  unfold State.fillRx
  repeat' first
    | (refine Sub.of hm ?_; exact Eq.refl _) | (refine Sub.bit hm ?_; exact Eq.refl _)
    | (refine Or.inl (Sub.bit hm ?_); exact Eq.refl _) | with_reducible exact Or.inr rfl
    | with_reducible refine State.put_only (MOP_DESC_TAINT_holds ..) ?_ ?_
    | with_reducible refine State.set_only (MOP_DESC_WP_holds ..) ?_ ?_
    | with_reducible refine State.set_only (MOP_DESC_CODE_holds ..) ?_ ?_
    | with_reducible refine State.set_only (MOP_DESC_ATT_holds ..) ?_ ?_
    | with_reducible refine State.set_only (MOP_DESC_MATCH_holds ..) ?_ ?_
    | with_reducible refine State.put_only (MOP_DESC_MATCHED_holds ..) ?_ ?_
    | with_reducible refine State.setWord_only (Part.holds.own (MOP_DESC_W_holds ..)) ?_ ?_
    | with_reducible refine State.set_only (MOP_DESC_TAG_holds ..) ?_ ?_
    | intro _ | with_reducible assumption
    | with_reducible apply State.setSlotFrame_only | with_reducible apply State.hallStore_only
    | with_reducible apply State.setBuf_only
    | with_reducible apply State.setSlotState_only | with_reducible apply State.modSlot_only
    | with_reducible apply State.countCompletion_only | with_reducible apply State.post_only
    | with_reducible apply OnlyOpt.none | with_reducible apply OnlyOpt.some
    | (extract_lets +onlyGivenNames x; refine OnlyM.cut (M0 := M0) (s0 := s0) x ?_ ?_ <;> first | (intro hx; clear_value x) | unfold x)
    | (extract_lets +onlyGivenNames x; clear_value x)
    | split | with_reducible apply OnlyM.update

theorem State.completeRx_only {M0 : Nat} {s0 : State} {s : State} {a : Admission} {f : Frame} {stamp wp : Nat} {taint : Bool} {entry : Option Nat} (kp_s : OnlyM M0 s0 s)
    (hm : Sub 0x1011000000020000000000000000000107180000000000000000000001840D M0 := by exact Sub.of hm rfl) :
    OnlyM M0 s0 (State.completeRx s a f stamp wp taint entry) := by
  unfold State.completeRx
  repeat' first
    | (refine Sub.of hm ?_; exact Eq.refl _) | (refine Sub.bit hm ?_; exact Eq.refl _)
    | intro _ | with_reducible assumption
    | with_reducible apply State.unholdSlot_only | with_reducible apply State.returnBuf_only
    | with_reducible apply State.fillRx_only | with_reducible apply OnlyM.ite
    | (extract_lets +onlyGivenNames x; refine OnlyM.cut (M0 := M0) (s0 := s0) x ?_ ?_ <;> first | (intro hx; clear_value x) | unfold x)
    | (extract_lets +onlyGivenNames x; clear_value x)
    | split

theorem State.releaseRx_only {M0 : Nat} {s0 : State} {s : State} {p k : Nat} (kp_s : OnlyM M0 s0 s)
    (hm : Sub 0x1070800000000000000000000000440 M0 := by exact Sub.of hm rfl) :
    OnlyM M0 s0 (State.releaseRx s p k) := by
  unfold State.releaseRx
  repeat' first
    | (refine Sub.of hm ?_; exact Eq.refl _) | (refine Sub.bit hm ?_; exact Eq.refl _)
    | (refine Or.inl (Sub.bit hm ?_); exact Eq.refl _) | with_reducible exact Or.inr rfl
    | intro _ | with_reducible assumption
    | with_reducible apply State.setSlotState_only | with_reducible apply State.modPort_only
    | with_reducible apply State.returnBuf_only | with_reducible apply OnlyOpt.none
    | with_reducible apply OnlyOpt.some | with_reducible apply OnlyM.ite
    | (extract_lets +onlyGivenNames x; refine OnlyM.cut (M0 := M0) (s0 := s0) x ?_ ?_ <;> first | (intro hx; clear_value x) | unfold x)
    | (extract_lets +onlyGivenNames x; clear_value x)
    | split | with_reducible apply OnlyM.update

end Sys2Proof.Machine
end

