-- ==== Sys2Proof/Laws/OnlyPortOps.lean ====
section
/-! SUPPORT. Which parts each operation of `Machine/PortOps.lean` may change, and that it keeps what every command keeps: each
lemma follows the operation's own text, piece by piece, and gives the parts as a set of part numbers. -/

namespace Sys2Proof.Machine

theorem State.lpCause_only {M0 : Nat} {s0 : State} {s : State} {n c b1 : Nat} (kp_s : OnlyM M0 s0 s)
    (hm : Sub 0x3011000000000000000000000000000000000000000000000000000000000C M0 := by exact Sub.of hm rfl) :
    OnlyM M0 s0 (State.lpCause s n c b1) := by
  unfold State.lpCause
  repeat' first
    | (refine Sub.of hm ?_; exact Eq.refl _) | (refine Sub.bit hm ?_; exact Eq.refl _)
    | intro _ | with_reducible assumption
    | with_reducible apply State.raise_only

theorem State.btCause_only {M0 : Nat} {s0 : State} {s : State} {n c b1 : Nat} (kp_s : OnlyM M0 s0 s)
    (hm : Sub 0x3011000000000000000000000000000000000000000000000000000000000C M0 := by exact Sub.of hm rfl) :
    OnlyM M0 s0 (State.btCause s n c b1) := by
  unfold State.btCause
  repeat' first
    | (refine Sub.of hm ?_; exact Eq.refl _) | (refine Sub.bit hm ?_; exact Eq.refl _)
    | intro _ | with_reducible assumption
    | with_reducible apply State.raise_only

theorem State.obsCause_only {M0 : Nat} {s0 : State} {s : State} {n c b1 v : Nat} (kp_s : OnlyM M0 s0 s)
    (hm : Sub 0x3011000000000000000000000000000000000000000000000000000000000C M0 := by exact Sub.of hm rfl) :
    OnlyM M0 s0 (State.obsCause s n c b1 v) := by
  unfold State.obsCause
  repeat' first
    | (refine Sub.of hm ?_; exact Eq.refl _) | (refine Sub.bit hm ?_; exact Eq.refl _)
    | intro _ | with_reducible assumption
    | with_reducible apply State.raise_only

theorem State.requeue_only {M0 : Nat} {s0 : State} {s : State} {n : Nat} (kp_s : OnlyM M0 s0 s)
    (hm : Sub 0x301100000002000000302403C00000010C180000000000000000000001940D M0 := by exact Sub.of hm rfl) :
    OnlyM M0 s0 (State.requeue s n) := by
  unfold State.requeue
  repeat' first
    | (refine Sub.of hm ?_; exact Eq.refl _) | (refine Sub.bit hm ?_; exact Eq.refl _)
    | (refine Or.inl (Sub.bit hm ?_); exact Eq.refl _) | with_reducible exact Or.inr rfl
    | with_reducible refine State.put_only (MOP_PORTHEAD_VALID_holds ..) ?_ ?_
    | intro _ | with_reducible assumption
    | with_reducible apply State.setSlotState_only
    | with_reducible apply State.completeTx_only | with_reducible apply OnlyOpt.none
    | with_reducible apply OnlyOpt.some | with_reducible apply OnlyM.ite
    | (extract_lets +onlyGivenNames x; refine OnlyM.cut (M0 := M0) (s0 := s0) x ?_ ?_ <;> first | (intro hx; clear_value x) | unfold x)
    | (extract_lets +onlyGivenNames x; clear_value x)
    | split | with_reducible apply OnlyM.update

theorem State.setGov_only {M0 : Nat} {s0 : State} {s : State} {d : Nat} {g : Governor} (kp_s : OnlyM M0 s0 s)
    (hm : Sub 0x200 M0 := by exact Sub.of hm rfl) :
    OnlyM M0 s0 (State.setGov s d g) := by
  unfold State.setGov
  repeat' first
    | (refine Sub.of hm ?_; exact Eq.refl _) | (refine Sub.bit hm ?_; exact Eq.refl _)
    | (refine Or.inl (Sub.bit hm ?_); exact Eq.refl _) | with_reducible exact Or.inr rfl
    | intro _ | with_reducible assumption
    | with_reducible apply OnlyM.update

theorem State.govStat_only {M0 : Nat} {s0 : State} {s : State} {d : Nat} (kp_s : OnlyM M0 s0 s)
    (hm : Sub 0xC00000000000000 M0 := by exact Sub.of hm rfl) :
    OnlyM M0 s0 (State.govStat s d) := by
  unfold State.govStat
  repeat' first
    | (refine Sub.of hm ?_; exact Eq.refl _) | (refine Sub.bit hm ?_; exact Eq.refl _)
    | with_reducible refine State.set_only (LP_GOV_STAT_WINDOW_holds ..) ?_ ?_
    | with_reducible refine State.set_only (LP_GOV_STAT_NDEF_holds ..) ?_ ?_
    | with_reducible refine State.set_only (LP_GOV_PEAK_PEAK_holds ..) ?_ ?_
    | intro _ | with_reducible assumption
    | (extract_lets +onlyGivenNames x; refine OnlyM.cut (M0 := M0) (s0 := s0) x ?_ ?_ <;> first | (intro hx; clear_value x) | unfold x)
    | (extract_lets +onlyGivenNames x; clear_value x)

theorem State.meter_only {M0 : Nat} {s0 : State} {s : State} {n e : Nat} (kp_s : OnlyM M0 s0 s)
    (hm : Sub 0xC04000000000240 M0 := by exact Sub.of hm rfl) :
    OnlyM M0 s0 (State.meter s n e) := by
  unfold State.meter
  repeat' first
    | (refine Sub.of hm ?_; exact Eq.refl _) | (refine Sub.bit hm ?_; exact Eq.refl _)
    | (refine Or.inl (Sub.bit hm ?_); exact Eq.refl _) | with_reducible exact Or.inr rfl
    | with_reducible refine State.add_only (LP_EMETER_E_holds ..) ?_ ?_
    | intro _ | with_reducible assumption
    | with_reducible apply State.setGov_only | with_reducible apply State.modPort_only | with_reducible apply State.govStat_only
    | (extract_lets +onlyGivenNames x; refine OnlyM.cut (M0 := M0) (s0 := s0) x ?_ ?_ <;> first | (intro hx; clear_value x) | unfold x)
    | (extract_lets +onlyGivenNames x; clear_value x)
    | split | with_reducible apply OnlyM.update

theorem State.drives_only {M0 : Nat} {s0 : State} {s : State} {n pj : Nat} (kp_s : OnlyM M0 s0 s)
    (hm : Sub 0xC04000000000240 M0 := by exact Sub.of hm rfl) :
    OnlyM M0 s0 (State.drives s n pj) := by
  unfold State.drives
  repeat' first
    | (refine Sub.of hm ?_; exact Eq.refl _) | (refine Sub.bit hm ?_; exact Eq.refl _)
    | intro _ | with_reducible assumption
    | with_reducible apply State.meter_only | with_reducible apply OnlyM.ite
    | split

theorem State.admitPort_only {M0 : Nat} {s0 : State} {s : State} {n k : Nat} (kp_s : OnlyM M0 s0 s)
    (hm : Sub 0x1040800000000000C00100000000040 M0 := by exact Sub.of hm rfl) :
    OnlyM M0 s0 (State.admitPort s n k) := by
  unfold State.admitPort
  repeat' first
    | (refine Sub.of hm ?_; exact Eq.refl _) | (refine Sub.bit hm ?_; exact Eq.refl _)
    | (refine Or.inl (Sub.bit hm ?_); exact Eq.refl _) | with_reducible exact Or.inr rfl
    | with_reducible refine State.put_only (LP_STATE_DEFERRED_holds ..) ?_ ?_
    | intro _ | with_reducible assumption
    | with_reducible apply State.modPort_only
    | with_reducible apply State.setSlotState_only | with_reducible apply State.govStat_only
    | with_reducible apply OnlyOpt.none | with_reducible apply OnlyOpt.some
    | (extract_lets +onlyGivenNames x; refine OnlyM.cut (M0 := M0) (s0 := s0) x ?_ ?_ <;> first | (intro hx; clear_value x) | unfold x)
    | (extract_lets +onlyGivenNames x; clear_value x)
    | with_reducible apply OnlyM.update

theorem State.undefer_only {M0 : Nat} {s0 : State} {s : State} {n : Nat} (kp_s : OnlyM M0 s0 s)
    (hm : Sub 0xC00100000000240 M0 := by exact Sub.of hm rfl) :
    OnlyM M0 s0 (State.undefer s n) := by
  unfold State.undefer
  repeat' first
    | (refine Sub.of hm ?_; exact Eq.refl _) | (refine Sub.bit hm ?_; exact Eq.refl _)
    | (refine Or.inl (Sub.bit hm ?_); exact Eq.refl _) | with_reducible exact Or.inr rfl
    | with_reducible refine State.put_only (LP_STATE_DEFERRED_holds ..) ?_ ?_
    | intro _ | with_reducible assumption
    | with_reducible apply State.setGov_only | with_reducible apply State.modPort_only | with_reducible apply State.govStat_only
    | with_reducible apply OnlyOpt.none | with_reducible apply OnlyOpt.some
    | (extract_lets +onlyGivenNames x; refine OnlyM.cut (M0 := M0) (s0 := s0) x ?_ ?_ <;> first | (intro hx; clear_value x) | unfold x)
    | (extract_lets +onlyGivenNames x; clear_value x)
    | with_reducible apply OnlyM.update

theorem State.admitHeads_only {M0 : Nat} {s0 s : State} {d k : Nat} (hs : OnlyM M0 s0 s)
    (hm : Sub 0x1040800000000000C00100000000240 M0 := by exact Sub.of hm rfl) : OnlyM M0 s0 (s.admitHeads d k) := by
  induction k generalizing s with
  | zero => exact hs
  | succ k ih =>
    unfold State.admitHeads
    repeat' first
      | (refine Sub.of hm ?_; exact Eq.refl _) | (refine Sub.bit hm ?_; exact Eq.refl _)
      | (refine Or.inl (Sub.bit hm ?_); exact Eq.refl _) | with_reducible exact Or.inr rfl
      | intro _ | with_reducible assumption
      | with_reducible exact trivial
      | with_reducible apply ih | with_reducible apply State.undefer_only
      | with_reducible apply State.admitPort_only
      | with_reducible apply State.each_only | with_reducible apply State.when_only | with_reducible apply OnlyM.ite
      | (extract_lets +onlyGivenNames x; refine OnlyM.cut (M0 := M0) (s0 := s0) x ?_ ?_ <;> first | (intro hx; clear_value x) | unfold x)
      | (extract_lets +onlyGivenNames x; clear_value x)
      | with_reducible (refine OnlyOpt.elim ?_ (by assumption)) | with_reducible (refine OnlyM.pair ?_ (by assumption))
      | split | with_reducible apply OnlyM.update

theorem State.evaluate_only {M0 : Nat} {s0 : State} {s : State} {d : Nat} (kp_s : OnlyM M0 s0 s)
    (hm : Sub 0x1040800000000000C00100000000240 M0 := by exact Sub.of hm rfl) :
    OnlyM M0 s0 (State.evaluate s d) := by
  unfold State.evaluate
  repeat' first
    | (refine Sub.of hm ?_; exact Eq.refl _) | (refine Sub.bit hm ?_; exact Eq.refl _)
    | intro _ | with_reducible assumption
    | with_reducible apply State.admitHeads_only | with_reducible apply State.govStat_only

theorem State.releaseReservation_only {M0 : Nat} {s0 : State} {s : State} {n : Nat} (kp_s : OnlyM M0 s0 s)
    (hm : Sub 0x1040800000000000C00100000000240 M0 := by exact Sub.of hm rfl) :
    OnlyM M0 s0 (State.releaseReservation s n) := by
  unfold State.releaseReservation
  repeat' first
    | (refine Sub.of hm ?_; exact Eq.refl _) | (refine Sub.bit hm ?_; exact Eq.refl _)
    | (refine Or.inl (Sub.bit hm ?_); exact Eq.refl _) | with_reducible exact Or.inr rfl
    | intro _ | with_reducible assumption
    | with_reducible apply State.modPort_only | with_reducible apply State.evaluate_only
    | with_reducible apply OnlyM.ite
    | split | with_reducible apply OnlyM.update

theorem State.dropAttempt_only {M0 : Nat} {s0 : State} {s : State} {n : Nat} (kp_s : OnlyM M0 s0 s)
    (hm : Sub 0x301100000002000000302403C00000010C1800000000000C0010000001964D M0 := by exact Sub.of hm rfl) :
    OnlyM M0 s0 (State.dropAttempt s n) := by
  unfold State.dropAttempt
  repeat' first
    | (refine Sub.of hm ?_; exact Eq.refl _) | (refine Sub.bit hm ?_; exact Eq.refl _)
    | (refine Or.inl (Sub.bit hm ?_); exact Eq.refl _) | with_reducible exact Or.inr rfl
    | intro _ | with_reducible assumption
    | with_reducible apply State.modPort_only | with_reducible apply State.requeue_only
    | with_reducible apply State.releaseReservation_only | with_reducible apply OnlyOpt.none
    | with_reducible apply OnlyOpt.some
    | (extract_lets +onlyGivenNames x; refine OnlyM.cut (M0 := M0) (s0 := s0) x ?_ ?_ <;> first | (intro hx; clear_value x) | unfold x)
    | (extract_lets +onlyGivenNames x; clear_value x)
    | with_reducible apply OnlyM.update

theorem State.abandonAttempt_only {M0 : Nat} {s0 : State} {s : State} {n : Nat} (kp_s : OnlyM M0 s0 s)
    (hm : Sub 0x301100000002000000302403C40000010C1800000000000C0010000001964D M0 := by exact Sub.of hm rfl) :
    OnlyM M0 s0 (State.abandonAttempt s n) := by
  unfold State.abandonAttempt
  repeat' first
    | (refine Sub.of hm ?_; exact Eq.refl _) | (refine Sub.bit hm ?_; exact Eq.refl _)
    | with_reducible refine State.inc_only (ECF_MISC_ABANDON_holds ..) ?_ ?_
    | intro _ | with_reducible assumption | with_reducible apply State.dropAttempt_only
    | with_reducible apply State.when_only
    | (extract_lets +onlyGivenNames x; refine OnlyM.cut (M0 := M0) (s0 := s0) x ?_ ?_ <;> first | (intro hx; clear_value x) | unfold x)
    | (extract_lets +onlyGivenNames x; clear_value x)

theorem State.requestEnd_only {M0 : Nat} {s0 : State} {s : State} {n : Nat} (kp_s : OnlyM M0 s0 s)
    (hm : Sub 0x1040800000000000C00100000000240 M0 := by exact Sub.of hm rfl) :
    OnlyM M0 s0 (State.requestEnd s n) := by
  unfold State.requestEnd
  repeat' first
    | (refine Sub.of hm ?_; exact Eq.refl _) | (refine Sub.bit hm ?_; exact Eq.refl _)
    | (refine Or.inl (Sub.bit hm ?_); exact Eq.refl _) | with_reducible exact Or.inr rfl
    | intro _ | with_reducible assumption
    | with_reducible apply State.modPort_only | with_reducible apply State.releaseReservation_only
    | with_reducible apply OnlyOpt.none | with_reducible apply OnlyOpt.some
    | with_reducible apply OnlyM.update

theorem State.cancelSearch_only {M0 : Nat} {s0 : State} {s : State} {n : Nat} (kp_s : OnlyM M0 s0 s)
    (hm : Sub 0x30000000000000000000000000440 M0 := by exact Sub.of hm rfl) :
    OnlyM M0 s0 (State.cancelSearch s n) := by
  unfold State.cancelSearch
  repeat' first
    | (refine Sub.of hm ?_; exact Eq.refl _) | (refine Sub.bit hm ?_; exact Eq.refl _)
    | (refine Or.inl (Sub.bit hm ?_); exact Eq.refl _) | with_reducible exact Or.inr rfl
    | intro _ | with_reducible assumption
    | with_reducible apply State.cancelAdmission_only | with_reducible apply State.modPort_only
    | with_reducible apply OnlyOpt.none | with_reducible apply OnlyOpt.some
    | (extract_lets +onlyGivenNames x; refine OnlyM.cut (M0 := M0) (s0 := s0) x ?_ ?_ <;> first | (intro hx; clear_value x) | unfold x)
    | (extract_lets +onlyGivenNames x; clear_value x)
    | split | with_reducible apply OnlyM.update

theorem State.modObs_only {M0 : Nat} {s0 : State} {s : State} {n : Nat} {f : ObsPort → ObsPort} (kp_s : OnlyM M0 s0 s)
    (hm : Sub 0xC0 M0 := by exact Sub.of hm rfl) :
    OnlyM M0 s0 (State.modObs s n f) := by
  unfold State.modObs
  repeat' first
    | (refine Sub.of hm ?_; exact Eq.refl _) | (refine Sub.bit hm ?_; exact Eq.refl _)
    | (refine Or.inl (Sub.bit hm ?_); exact Eq.refl _) | with_reducible exact Or.inr rfl
    | intro _ | with_reducible assumption
    | with_reducible apply OnlyM.update

theorem State.setSounding_only {M0 : Nat} {s0 : State} {s : State} {d : Nat} {u : Sounding} (kp_s : OnlyM M0 s0 s)
    (hm : Sub 0x80 M0 := by exact Sub.of hm rfl) :
    OnlyM M0 s0 (State.setSounding s d u) := by
  unfold State.setSounding
  repeat' first
    | (refine Sub.of hm ?_; exact Eq.refl _) | (refine Sub.bit hm ?_; exact Eq.refl _)
    | (refine Or.inl (Sub.bit hm ?_); exact Eq.refl _) | with_reducible exact Or.inr rfl
    | intro _ | with_reducible assumption
    | with_reducible apply OnlyM.update

theorem State.sndQueue_only {M0 : Nat} {s0 : State} {s : State} {n : Nat} (kp_s : OnlyM M0 s0 s)
    (hm : Sub 0x40000000000000000000080 M0 := by exact Sub.of hm rfl) :
    OnlyM M0 s0 (State.sndQueue s n) := by
  unfold State.sndQueue
  repeat' first
    | (refine Sub.of hm ?_; exact Eq.refl _) | (refine Sub.bit hm ?_; exact Eq.refl _)
    | (refine Or.inl (Sub.bit hm ?_); exact Eq.refl _) | with_reducible exact Or.inr rfl
    | with_reducible refine State.set_only (OBS_SND_STAT_STATE_holds ..) ?_ ?_
    | intro _ | with_reducible assumption
    | with_reducible apply State.setSounding_only
    | (extract_lets +onlyGivenNames x; refine OnlyM.cut (M0 := M0) (s0 := s0) x ?_ ?_ <;> first | (intro hx; clear_value x) | unfold x)
    | (extract_lets +onlyGivenNames x; clear_value x)
    | with_reducible apply OnlyM.update

theorem State.sndRequest_only {M0 : Nat} {s0 : State} {s : State} {n : Nat} (kp_s : OnlyM M0 s0 s)
    (hm : Sub 0x40000000000000000000080 M0 := by exact Sub.of hm rfl) :
    OnlyM M0 s0 (State.sndRequest s n) := by
  unfold State.sndRequest
  repeat' first
    | (refine Sub.of hm ?_; exact Eq.refl _) | (refine Sub.bit hm ?_; exact Eq.refl _)
    | intro _ | with_reducible assumption
    | with_reducible apply State.sndQueue_only | with_reducible apply OnlyM.ite
    | split

theorem State.sndLeave_only {M0 : Nat} {s0 : State} {s : State} {n : Nat} (kp_s : OnlyM M0 s0 s)
    (hm : Sub 0x80 M0 := by exact Sub.of hm rfl) :
    OnlyM M0 s0 (State.sndLeave s n) := by
  unfold State.sndLeave
  repeat' first
    | (refine Sub.of hm ?_; exact Eq.refl _) | (refine Sub.bit hm ?_; exact Eq.refl _)
    | (refine Or.inl (Sub.bit hm ?_); exact Eq.refl _) | with_reducible exact Or.inr rfl
    | intro _ | with_reducible assumption
    | with_reducible apply State.setSounding_only | with_reducible apply OnlyOpt.none
    | with_reducible apply OnlyOpt.some
    | (extract_lets +onlyGivenNames x; refine OnlyM.cut (M0 := M0) (s0 := s0) x ?_ ?_ <;> first | (intro hx; clear_value x) | unfold x)
    | (extract_lets +onlyGivenNames x; clear_value x)
    | split | with_reducible apply OnlyM.update

theorem State.sndEnd_only {M0 : Nat} {s0 : State} {s : State} {n st : Nat} (kp_s : OnlyM M0 s0 s)
    (hm : Sub 0x3011000000000000000000000000000000000004000000000000000000008C M0 := by exact Sub.of hm rfl) :
    OnlyM M0 s0 (State.sndEnd s n st) := by
  unfold State.sndEnd
  repeat' first
    | (refine Sub.of hm ?_; exact Eq.refl _) | (refine Sub.bit hm ?_; exact Eq.refl _)
    | with_reducible refine State.set_only (OBS_SND_STAT_STATE_holds ..) ?_ ?_
    | intro _ | with_reducible assumption
    | with_reducible apply State.sndLeave_only
    | with_reducible apply State.obsCause_only

theorem State.sndAbort_only {M0 : Nat} {s0 : State} {s : State} {n : Nat} (kp_s : OnlyM M0 s0 s)
    (hm : Sub 0x3011000000000000000000000000000000000004000000000000000000008C M0 := by exact Sub.of hm rfl) :
    OnlyM M0 s0 (State.sndAbort s n) := by
  unfold State.sndAbort
  repeat' first
    | (refine Sub.of hm ?_; exact Eq.refl _) | (refine Sub.bit hm ?_; exact Eq.refl _)
    | intro _ | with_reducible assumption
    | with_reducible apply State.sndEnd_only | with_reducible apply OnlyM.ite
    | split

theorem State.discardRecord_only {M0 : Nat} {s0 : State} {s : State} {n : Nat} (kp_s : OnlyM M0 s0 s)
    (hm : Sub 0x80 M0 := by exact Sub.of hm rfl) :
    OnlyM M0 s0 (State.discardRecord s n) := by
  unfold State.discardRecord
  repeat' first
    | (refine Sub.of hm ?_; exact Eq.refl _) | (refine Sub.bit hm ?_; exact Eq.refl _)
    | (refine Or.inl (Sub.bit hm ?_); exact Eq.refl _) | with_reducible exact Or.inr rfl
    | intro _ | with_reducible assumption
    | with_reducible apply State.setSounding_only | with_reducible apply OnlyOpt.none
    | with_reducible apply OnlyOpt.some | with_reducible apply OnlyM.ite
    | (extract_lets +onlyGivenNames x; refine OnlyM.cut (M0 := M0) (s0 := s0) x ?_ ?_ <;> first | (intro hx; clear_value x) | unfold x)
    | (extract_lets +onlyGivenNames x; clear_value x)
    | split | with_reducible apply OnlyM.update

theorem State.cenAbort_only {M0 : Nat} {s0 : State} {s : State} {n : Nat} (kp_s : OnlyM M0 s0 s)
    (hm : Sub 0x3011000000000000000000000000000000000000008000000000000000000C M0 := by exact Sub.of hm rfl) :
    OnlyM M0 s0 (State.cenAbort s n) := by
  unfold State.cenAbort
  repeat' first
    | (refine Sub.of hm ?_; exact Eq.refl _) | (refine Sub.bit hm ?_; exact Eq.refl _)
    | with_reducible refine State.set_only (OBS_STAT_CEN_holds ..) ?_ ?_
    | intro _ | with_reducible assumption | with_reducible apply State.obsCause_only
    | with_reducible apply OnlyM.ite
    | split

theorem State.clearTrackers_only {M0 : Nat} {s0 : State} {s : State} {n : Nat} (kp_s : OnlyM M0 s0 s)
    (hm : Sub 0xC0 M0 := by exact Sub.of hm rfl) :
    OnlyM M0 s0 (State.clearTrackers s n) := by
  unfold State.clearTrackers
  repeat' first
    | (refine Sub.of hm ?_; exact Eq.refl _) | (refine Sub.bit hm ?_; exact Eq.refl _)
    | (refine Or.inl (Sub.bit hm ?_); exact Eq.refl _) | with_reducible exact Or.inr rfl
    | intro _ | with_reducible assumption
    | with_reducible apply State.modObs_only
    | with_reducible apply OnlyM.update

theorem State.enrAbort_only {M0 : Nat} {s0 : State} {s : State} {n : Nat} (kp_s : OnlyM M0 s0 s)
    (hm : Sub 0x3011000000000000000000000000000000000000008000000000000000000C M0 := by exact Sub.of hm rfl) :
    OnlyM M0 s0 (State.enrAbort s n) := by
  unfold State.enrAbort
  repeat' first
    | (refine Sub.of hm ?_; exact Eq.refl _) | (refine Sub.bit hm ?_; exact Eq.refl _)
    | with_reducible refine State.set_only (OBS_STAT_ENR_holds ..) ?_ ?_
    | intro _ | with_reducible assumption | with_reducible apply State.obsCause_only
    | with_reducible apply OnlyM.ite
    | split

theorem State.capStopLater_only {M0 : Nat} {s0 : State} {s : State} {n : Nat} (kp_s : OnlyM M0 s0 s)
    (hm : Sub 0x40000000000000000000000C0 M0 := by exact Sub.of hm rfl) :
    OnlyM M0 s0 (State.capStopLater s n) := by
  unfold State.capStopLater
  repeat' first
    | (refine Sub.of hm ?_; exact Eq.refl _) | (refine Sub.bit hm ?_; exact Eq.refl _)
    | (refine Or.inl (Sub.bit hm ?_); exact Eq.refl _) | with_reducible exact Or.inr rfl
    | with_reducible refine State.set_only (OBS_CAP_STAT_STATE_holds ..) ?_ ?_
    | intro _ | with_reducible assumption | with_reducible apply State.modObs_only
    | with_reducible apply OnlyM.ite
    | split | with_reducible apply OnlyM.update

theorem State.capTrigger_only {M0 : Nat} {s0 : State} {s : State} {n bit : Nat} (kp_s : OnlyM M0 s0 s)
    (hm : Sub 0x101100000000000000000000000000000000040000000000000000000000CC M0 := by exact Sub.of hm rfl) :
    OnlyM M0 s0 (State.capTrigger s n bit) := by
  unfold State.capTrigger
  repeat' first
    | (refine Sub.of hm ?_; exact Eq.refl _) | (refine Sub.bit hm ?_; exact Eq.refl _)
    | (refine Or.inl (Sub.bit hm ?_); exact Eq.refl _) | with_reducible exact Or.inr rfl
    | with_reducible refine State.set_only (OBS_CAP_STAT_STATE_holds ..) ?_ ?_
    | intro _ | with_reducible assumption
    | with_reducible apply State.post_only | with_reducible apply State.modObs_only | with_reducible apply OnlyM.ite
    | (extract_lets +onlyGivenNames x; refine OnlyM.cut (M0 := M0) (s0 := s0) x ?_ ?_ <;> first | (intro hx; clear_value x) | unfold x)
    | (extract_lets +onlyGivenNames x; clear_value x)
    | split | with_reducible apply OnlyM.update

theorem State.frontEndStop_only {M0 : Nat} {s0 : State} {s : State} {n : Nat} (kp_s : OnlyM M0 s0 s)
    (hm : Sub 0x301100000000000000000000000000000000040400800000000000000000CC M0 := by exact Sub.of hm rfl) :
    OnlyM M0 s0 (State.frontEndStop s n) := by
  unfold State.frontEndStop
  repeat' first
    | (refine Sub.of hm ?_; exact Eq.refl _) | (refine Sub.bit hm ?_; exact Eq.refl _)
    | intro _ | with_reducible assumption
    | with_reducible apply State.sndAbort_only | with_reducible apply State.cenAbort_only
    | with_reducible apply State.enrAbort_only | with_reducible apply State.capStopLater_only
    | with_reducible apply State.clearTrackers_only | with_reducible apply OnlyM.ite
    | (extract_lets +onlyGivenNames x; refine OnlyM.cut (M0 := M0) (s0 := s0) x ?_ ?_ <;> first | (intro hx; clear_value x) | unfold x)
    | (extract_lets +onlyGivenNames x; clear_value x)
    | split

theorem State.setB_only {M0 : Nat} {s0 : State} {s : State} {n b : Nat} (kp_s : OnlyM M0 s0 s)
    (hm : Sub 0x4000000000000000 M0 := by exact Sub.of hm rfl) :
    OnlyM M0 s0 (State.setB s n b) := by
  unfold State.setB
  repeat' first
    | (refine Sub.of hm ?_; exact Eq.refl _) | (refine Sub.bit hm ?_; exact Eq.refl _)
    | with_reducible refine State.set_only (BT_STAT_BSTATE_holds ..) ?_ ?_
    | intro _ | with_reducible assumption

theorem State.rxOnly_only {M0 : Nat} {s0 : State} {s : State} {n : Nat} (kp_s : OnlyM M0 s0 s)
    (hm : Sub 0x4000000000000000 M0 := by exact Sub.of hm rfl) :
    OnlyM M0 s0 (State.rxOnly s n) := by
  unfold State.rxOnly
  repeat' first
    | (refine Sub.of hm ?_; exact Eq.refl _) | (refine Sub.bit hm ?_; exact Eq.refl _)
    | with_reducible refine State.put_only (BT_STAT_RXONLY_holds ..) ?_ ?_
    | intro _ | with_reducible assumption

theorem State.applyOpmode_only {M0 : Nat} {s0 : State} {s : State} {n : Nat} (kp_s : OnlyM M0 s0 s)
    (hm : Sub 0x301100000002000000302403C00000010C1800000000004C0010000001964D M0 := by exact Sub.of hm rfl) :
    OnlyM M0 s0 (State.applyOpmode s n) := by
  unfold State.applyOpmode
  repeat' first
    | (refine Sub.of hm ?_; exact Eq.refl _) | (refine Sub.bit hm ?_; exact Eq.refl _)
    | (refine Or.inl (Sub.bit hm ?_); exact Eq.refl _) | with_reducible exact Or.inr rfl
    | intro _ | with_reducible assumption
    | with_reducible apply State.modPort_only | with_reducible apply State.dropAttempt_only
    | with_reducible apply State.undefer_only | with_reducible apply State.rxOnly_only
    | with_reducible apply OnlyOpt.none | with_reducible apply OnlyOpt.some
    | with_reducible apply OnlyM.ite
    | (extract_lets +onlyGivenNames x; refine OnlyM.cut (M0 := M0) (s0 := s0) x ?_ ?_ <;> first | (intro hx; clear_value x) | unfold x)
    | (extract_lets +onlyGivenNames x; clear_value x)
    | split | with_reducible apply OnlyM.update

theorem State.recoveryStep_only {M0 : Nat} {s0 : State} {s : State} {n : Nat} (kp_s : OnlyM M0 s0 s)
    (hm : Sub 0x3011000000000000000000000080800000000000000000000000000000004C M0 := by exact Sub.of hm rfl) :
    OnlyM M0 s0 (State.recoveryStep s n) := by
  unfold State.recoveryStep
  repeat' first
    | (refine Sub.of hm ?_; exact Eq.refl _) | (refine Sub.bit hm ?_; exact Eq.refl _)
    | (refine Or.inl (Sub.bit hm ?_); exact Eq.refl _) | with_reducible exact Or.inr rfl
    | with_reducible refine State.set_only (ECF_STAT_RSTEP_holds ..) ?_ ?_
    | with_reducible refine State.put_only (ECF_BO_ESC_holds ..) ?_ ?_
    | intro _ | with_reducible assumption
    | with_reducible apply State.btCause_only | with_reducible apply State.report_only
    | with_reducible apply State.modPort_only | with_reducible apply OnlyM.ite
    | (extract_lets +onlyGivenNames x; refine OnlyM.cut (M0 := M0) (s0 := s0) x ?_ ?_ <;> first | (intro hx; clear_value x) | unfold x)
    | (extract_lets +onlyGivenNames x; clear_value x)
    | split | with_reducible apply OnlyM.update

theorem State.enterBusOff_only {M0 : Nat} {s0 : State} {s : State} {n : Nat} {quar : Bool} (kp_s : OnlyM M0 s0 s)
    (hm : Sub 0x301100000002000000302403C18080010C1800040000004C001000000196CD M0 := by exact Sub.of hm rfl) :
    OnlyM M0 s0 (State.enterBusOff s n quar) := by
  unfold State.enterBusOff
  repeat' first
    | (refine Sub.of hm ?_; exact Eq.refl _) | (refine Sub.bit hm ?_; exact Eq.refl _)
    | (refine Or.inl (Sub.bit hm ?_); exact Eq.refl _) | with_reducible exact Or.inr rfl
    | with_reducible refine State.put_only (MOP_PORTHEAD_VALID_holds ..) ?_ ?_
    | with_reducible refine State.setStamp_only (Part.holds.own (ECF_BO_T_NS_holds ..)) (ECF_BO_T_NS_next ..) ?_ ?_
    | with_reducible refine State.set_only (ECF_STAT_ESTATE_holds ..) ?_ ?_
    | with_reducible refine State.inc_only (ECF_BO_TOTAL_holds ..) ?_ ?_
    | with_reducible refine State.put_only (ECF_BO_CAUSE_holds ..) ?_ ?_
    | with_reducible refine State.put_only (ECF_BO_ESC_holds ..) ?_ ?_
    | with_reducible refine State.set_only (ECF_STAT_SEQ_holds ..) ?_ ?_
    | with_reducible refine State.put_only (ECF_STAT_QPEND_holds ..) ?_ ?_
    | with_reducible refine State.put_only (BT_STAT_PHASE_holds ..) ?_ ?_
    | with_reducible refine State.set_only (ECF_STAT_RSTEP_holds ..) ?_ ?_
    | intro _ | with_reducible assumption
    | with_reducible apply State.dropAttempt_only | with_reducible apply State.undefer_only
    | with_reducible apply State.modPort_only | with_reducible apply State.setB_only
    | with_reducible apply State.btCause_only | with_reducible apply State.occur_only
    | with_reducible apply State.recoveryStep_only | with_reducible apply State.sndRequest_only
    | with_reducible apply State.when_only | with_reducible apply OnlyM.ite
    | (extract_lets +onlyGivenNames x; refine OnlyM.cut (M0 := M0) (s0 := s0) x ?_ ?_ <;> first | (intro hx; clear_value x) | unfold x)
    | (extract_lets +onlyGivenNames x; clear_value x)
    | split | with_reducible apply OnlyM.update

theorem State.quarantine_only {M0 : Nat} {s0 : State} {s : State} {n : Nat} (kp_s : OnlyM M0 s0 s)
    (hm : Sub 0x301100000002000000302403C18080010C1800040000004C001000000196CD M0 := by exact Sub.of hm rfl) :
    OnlyM M0 s0 (State.quarantine s n) := by
  unfold State.quarantine
  repeat' first
    | (refine Sub.of hm ?_; exact Eq.refl _) | (refine Sub.bit hm ?_; exact Eq.refl _)
    | intro _ | with_reducible assumption
    | with_reducible apply State.enterBusOff_only

theorem State.enterIdle_only {M0 : Nat} {s0 : State} {s : State} {n : Nat} (kp_s : OnlyM M0 s0 s)
    (hm : Sub 0x301100000002000000302403C18080010C1800040000004C001000000196CD M0 := by exact Sub.of hm rfl) :
    OnlyM M0 s0 (State.enterIdle s n) := by
  unfold State.enterIdle
  repeat' first
    | (refine Sub.of hm ?_; exact Eq.refl _) | (refine Sub.bit hm ?_; exact Eq.refl _)
    | with_reducible refine State.put_only (BT_STAT_PHASE_holds ..) ?_ ?_
    | intro _ | with_reducible assumption
    | with_reducible apply State.setB_only
    | with_reducible apply State.applyOpmode_only | with_reducible apply State.quarantine_only
    | with_reducible apply OnlyM.ite
    | (extract_lets +onlyGivenNames x; refine OnlyM.cut (M0 := M0) (s0 := s0) x ?_ ?_ <;> first | (intro hx; clear_value x) | unfold x)
    | (extract_lets +onlyGivenNames x; clear_value x)
    | split

theorem State.integrate_only {M0 : Nat} {s0 : State} {s : State} {n : Nat} (kp_s : OnlyM M0 s0 s)
    (hm : Sub 0x301100000002000000302403C18080010C1800040000004C001000000196CD M0 := by exact Sub.of hm rfl) :
    OnlyM M0 s0 (State.integrate s n) := by
  unfold State.integrate
  repeat' first
    | (refine Sub.of hm ?_; exact Eq.refl _) | (refine Sub.bit hm ?_; exact Eq.refl _)
    | (refine Or.inl (Sub.bit hm ?_); exact Eq.refl _) | with_reducible exact Or.inr rfl
    | with_reducible refine State.put_only (BT_STAT_PHASE_holds ..) ?_ ?_
    | intro _ | with_reducible assumption
    | with_reducible apply State.modPort_only | with_reducible apply State.setB_only | with_reducible apply State.applyOpmode_only
    | with_reducible apply State.quarantine_only | with_reducible apply OnlyOpt.none
    | with_reducible apply OnlyOpt.some | with_reducible apply OnlyM.ite
    | (extract_lets +onlyGivenNames x; refine OnlyM.cut (M0 := M0) (s0 := s0) x ?_ ?_ <;> first | (intro hx; clear_value x) | unfold x)
    | (extract_lets +onlyGivenNames x; clear_value x)
    | split | with_reducible apply OnlyM.update

theorem State.slopeAdd_only {M0 : Nat} {s0 : State} {s : State} {n k : Nat} {rec : Bool} (kp_s : OnlyM M0 s0 s)
    (hm : Sub 0x301100000000000000000000040080000000000400000000000000000000CC M0 := by exact Sub.of hm rfl) :
    OnlyM M0 s0 (State.slopeAdd s n k rec) := by
  unfold State.slopeAdd
  repeat' first
    | (refine Sub.of hm ?_; exact Eq.refl _) | (refine Sub.bit hm ?_; exact Eq.refl _)
    | (refine Or.inl (Sub.bit hm ?_); exact Eq.refl _) | with_reducible exact Or.inr rfl
    | with_reducible refine State.put_only (ECF_STAT_SLOPE_holds ..) ?_ ?_
    | with_reducible refine State.inc_only (ECF_MISC_SLOPEW_holds ..) ?_ ?_
    | intro _ | with_reducible assumption
    | with_reducible apply State.modPort_only | with_reducible apply State.btCause_only
    | with_reducible apply State.sndRequest_only | with_reducible apply State.when_only
    | with_reducible apply OnlyM.ite
    | (extract_lets +onlyGivenNames x; refine OnlyM.cut (M0 := M0) (s0 := s0) x ?_ ?_ <;> first | (intro hx; clear_value x) | unfold x)
    | (extract_lets +onlyGivenNames x; clear_value x)
    | split | with_reducible apply OnlyM.update

theorem State.warnState_only {M0 : Nat} {s0 : State} {s : State} {n b : Nat} (kp_s : OnlyM M0 s0 s)
    (hm : Sub 0x3011000000000000000000000000800000000000000000000000000000000C M0 := by exact Sub.of hm rfl) :
    OnlyM M0 s0 (State.warnState s n b) := by
  unfold State.warnState
  repeat' first
    | (refine Sub.of hm ?_; exact Eq.refl _) | (refine Sub.bit hm ?_; exact Eq.refl _)
    | with_reducible refine State.put_only (ECF_STAT_WARN_holds ..) ?_ ?_
    | intro _ | with_reducible assumption
    | with_reducible apply State.btCause_only
    | with_reducible apply State.when_only
    | (extract_lets +onlyGivenNames x; refine OnlyM.cut (M0 := M0) (s0 := s0) x ?_ ?_ <;> first | (intro hx; clear_value x) | unfold x)
    | (extract_lets +onlyGivenNames x; clear_value x)

theorem State.errorState_only {M0 : Nat} {s0 : State} {s : State} {n : Nat} {rec : Bool} (kp_s : OnlyM M0 s0 s)
    (hm : Sub 0x301100000002000000302403C18080010C1800040000004C001000000196CD M0 := by exact Sub.of hm rfl) :
    OnlyM M0 s0 (State.errorState s n rec) := by
  unfold State.errorState
  repeat' first
    | (refine Sub.of hm ?_; exact Eq.refl _) | (refine Sub.bit hm ?_; exact Eq.refl _)
    | with_reducible refine State.set_only (ECF_STAT_ESTATE_holds ..) ?_ ?_
    | intro _ | with_reducible assumption
    | with_reducible apply State.warnState_only
    | with_reducible apply State.btCause_only | with_reducible apply State.enterBusOff_only
    | with_reducible apply OnlyM.ite
    | (extract_lets +onlyGivenNames x; refine OnlyM.cut (M0 := M0) (s0 := s0) x ?_ ?_ <;> first | (intro hx; clear_value x) | unfold x)
    | (extract_lets +onlyGivenNames x; clear_value x)
    | split

theorem State.tecUp_only {M0 : Nat} {s0 : State} {s : State} {n k : Nat} (kp_s : OnlyM M0 s0 s)
    (hm : Sub 0x301100000002000000302403C58880010C1800040000004C001000000196CD M0 := by exact Sub.of hm rfl) :
    OnlyM M0 s0 (State.tecUp s n k) := by
  unfold State.tecUp
  repeat' first
    | (refine Sub.of hm ?_; exact Eq.refl _) | (refine Sub.bit hm ?_; exact Eq.refl _)
    | with_reducible refine State.set_only (ECF_CNT_TEC_holds ..) ?_ ?_
    | intro _ | with_reducible assumption | with_reducible apply State.errorState_only
    | with_reducible apply State.slopeAdd_only | with_reducible apply OnlyM.ite
    | (extract_lets +onlyGivenNames x; refine OnlyM.cut (M0 := M0) (s0 := s0) x ?_ ?_ <;> first | (intro hx; clear_value x) | unfold x)
    | (extract_lets +onlyGivenNames x; clear_value x)
    | split

theorem State.recUp_only {M0 : Nat} {s0 : State} {s : State} {n k : Nat} (kp_s : OnlyM M0 s0 s)
    (hm : Sub 0x301100000002000000302403C58880010C1800040000004C001000000196CD M0 := by exact Sub.of hm rfl) :
    OnlyM M0 s0 (State.recUp s n k) := by
  unfold State.recUp
  repeat' first
    | (refine Sub.of hm ?_; exact Eq.refl _) | (refine Sub.bit hm ?_; exact Eq.refl _)
    | with_reducible refine State.set_only (ECF_CNT_REC_holds ..) ?_ ?_
    | intro _ | with_reducible assumption | with_reducible apply State.errorState_only
    | with_reducible apply State.slopeAdd_only | with_reducible apply OnlyM.ite
    | split

theorem State.tecDown_only {M0 : Nat} {s0 : State} {s : State} {n : Nat} (kp_s : OnlyM M0 s0 s)
    (hm : Sub 0x301100000002000000302403C18880010C1800040000004C001000000196CD M0 := by exact Sub.of hm rfl) :
    OnlyM M0 s0 (State.tecDown s n) := by
  unfold State.tecDown
  repeat' first
    | (refine Sub.of hm ?_; exact Eq.refl _) | (refine Sub.bit hm ?_; exact Eq.refl _)
    | with_reducible refine State.set_only (ECF_CNT_TEC_holds ..) ?_ ?_
    | intro _ | with_reducible assumption | with_reducible apply State.errorState_only
    | with_reducible apply OnlyM.ite
    | split

theorem State.recDown_only {M0 : Nat} {s0 : State} {s : State} {n : Nat} (kp_s : OnlyM M0 s0 s)
    (hm : Sub 0x301100000002000000302403C18880010C1800040000004C001000000196CD M0 := by exact Sub.of hm rfl) :
    OnlyM M0 s0 (State.recDown s n) := by
  unfold State.recDown
  repeat' first
    | (refine Sub.of hm ?_; exact Eq.refl _) | (refine Sub.bit hm ?_; exact Eq.refl _)
    | with_reducible refine State.set_only (ECF_CNT_REC_holds ..) ?_ ?_
    | intro _ | with_reducible assumption | with_reducible apply State.errorState_only
    | with_reducible apply OnlyM.ite
    | (extract_lets +onlyGivenNames x; refine OnlyM.cut (M0 := M0) (s0 := s0) x ?_ ?_ <;> first | (intro hx; clear_value x) | unfold x)
    | (extract_lets +onlyGivenNames x; clear_value x)
    | split

theorem State.startCounting_only {M0 : Nat} {s0 : State} {s : State} {n : Nat} (kp_s : OnlyM M0 s0 s)
    (hm : Sub 0x8000000000000000000000000000000000 M0 := by exact Sub.of hm rfl) :
    OnlyM M0 s0 (State.startCounting s n) := by
  unfold State.startCounting
  repeat' first
    | (refine Sub.of hm ?_; exact Eq.refl _) | (refine Sub.bit hm ?_; exact Eq.refl _)
    | with_reducible refine State.set_only (ECF_STAT_RSTEP_holds ..) ?_ ?_
    | with_reducible refine State.set_only (ECF_STAT_SEQ_holds ..) ?_ ?_
    | intro _ | with_reducible assumption

theorem State.lastEnergy_only {M0 : Nat} {s0 : State} {s : State} {n e : Nat} (kp_s : OnlyM M0 s0 s)
    (hm : Sub 0x1000000000000 M0 := by exact Sub.of hm rfl) :
    OnlyM M0 s0 (State.lastEnergy s n e) := by
  unfold State.lastEnergy
  repeat' first
    | (refine Sub.of hm ?_; exact Eq.refl _) | (refine Sub.bit hm ?_; exact Eq.refl _)
    | with_reducible refine State.set_only (LP_FAULT_LAST_E_holds ..) ?_ ?_
    | intro _ | with_reducible assumption

theorem State.endEvent_only {M0 : Nat} {s0 : State} {s : State} {n : Nat} (kp_s : OnlyM M0 s0 s)
    (hm : Sub 0x3011000000000000000000000000000000000000000000000110000000004C M0 := by exact Sub.of hm rfl) :
    OnlyM M0 s0 (State.endEvent s n) := by
  unfold State.endEvent
  repeat' first
    | (refine Sub.of hm ?_; exact Eq.refl _) | (refine Sub.bit hm ?_; exact Eq.refl _)
    | (refine Or.inl (Sub.bit hm ?_); exact Eq.refl _) | with_reducible exact Or.inr rfl
    | with_reducible refine State.put_only (LP_STATE_PENDING_holds ..) ?_ ?_
    | intro _ | with_reducible assumption
    | with_reducible apply State.modPort_only | with_reducible apply State.lastEnergy_only | with_reducible apply State.lpCause_only
    | with_reducible apply State.occur_only | with_reducible apply OnlyOpt.none
    | with_reducible apply OnlyOpt.some | with_reducible apply OnlyM.ite
    | (extract_lets +onlyGivenNames x; refine OnlyM.cut (M0 := M0) (s0 := s0) x ?_ ?_ <;> first | (intro hx; clear_value x) | unfold x)
    | (extract_lets +onlyGivenNames x; clear_value x)
    | split | with_reducible apply OnlyM.update

theorem State.cut_only {M0 : Nat} {s0 : State} {s : State} {n : Nat} (kp_s : OnlyM M0 s0 s)
    (hm : Sub 0x40 M0 := by exact Sub.of hm rfl) :
    OnlyM M0 s0 (State.cut s n) := by
  unfold State.cut
  repeat' first
    | (refine Sub.of hm ?_; exact Eq.refl _) | (refine Sub.bit hm ?_; exact Eq.refl _)
    | (refine Or.inl (Sub.bit hm ?_); exact Eq.refl _) | with_reducible exact Or.inr rfl
    | intro _ | with_reducible assumption
    | with_reducible apply State.modPort_only | with_reducible apply OnlyM.ite
    | split | with_reducible apply OnlyM.update

theorem State.leaveActive_only {M0 : Nat} {s0 : State} {s : State} {n : Nat} (kp_s : OnlyM M0 s0 s)
    (hm : Sub 0x301100000002000000302403C40000010C1800000000004C0110000001964D M0 := by exact Sub.of hm rfl) :
    OnlyM M0 s0 (State.leaveActive s n) := by
  unfold State.leaveActive
  repeat' first
    | (refine Sub.of hm ?_; exact Eq.refl _) | (refine Sub.bit hm ?_; exact Eq.refl _)
    | with_reducible refine State.put_only (LP_STATE_DRV_holds ..) ?_ ?_
    | intro _ | with_reducible assumption
    | with_reducible apply State.abandonAttempt_only | with_reducible apply State.undefer_only | with_reducible apply State.cut_only
    | with_reducible apply State.endEvent_only | with_reducible apply State.setB_only
    | with_reducible apply State.when_only
    | (extract_lets +onlyGivenNames x; refine OnlyM.cut (M0 := M0) (s0 := s0) x ?_ ?_ <;> first | (intro hx; clear_value x) | unfold x)
    | (extract_lets +onlyGivenNames x; clear_value x)

theorem State.stopEngine_only {M0 : Nat} {s0 : State} {s : State} {n : Nat} (kp_s : OnlyM M0 s0 s)
    (hm : Sub 0x301100000002000000302403C00080010F1804040080004C001000000196CD M0 := by exact Sub.of hm rfl) :
    OnlyM M0 s0 (State.stopEngine s n) := by
  unfold State.stopEngine
  repeat' first
    | (refine Sub.of hm ?_; exact Eq.refl _) | (refine Sub.bit hm ?_; exact Eq.refl _)
    | with_reducible refine State.put_only (BT_STAT_PHASE_holds ..) ?_ ?_
    | with_reducible refine State.set_only (ECF_STAT_SEQ_holds ..) ?_ ?_
    | intro _ | with_reducible assumption
    | with_reducible apply State.cancelSearch_only | with_reducible apply State.setB_only
    | with_reducible apply State.applyOpmode_only | with_reducible apply State.frontEndStop_only
    | with_reducible apply State.when_only
    | (extract_lets +onlyGivenNames x; refine OnlyM.cut (M0 := M0) (s0 := s0) x ?_ ?_ <;> first | (intro hx; clear_value x) | unfold x)
    | (extract_lets +onlyGivenNames x; clear_value x)

theorem State.startEngine_only {M0 : Nat} {s0 : State} {s : State} {n : Nat} (kp_s : OnlyM M0 s0 s)
    (hm : Sub 0x301100000002000000302403C18080010C1800040000004C001000000196CD M0 := by exact Sub.of hm rfl) :
    OnlyM M0 s0 (State.startEngine s n) := by
  unfold State.startEngine
  repeat' first
    | (refine Sub.of hm ?_; exact Eq.refl _) | (refine Sub.bit hm ?_; exact Eq.refl _)
    | intro _ | with_reducible assumption
    | with_reducible apply State.integrate_only | with_reducible apply State.setB_only
    | with_reducible apply State.when_only
    | (extract_lets +onlyGivenNames x; refine OnlyM.cut (M0 := M0) (s0 := s0) x ?_ ?_ <;> first | (intro hx; clear_value x) | unfold x)
    | (extract_lets +onlyGivenNames x; clear_value x)

theorem State.driver_only {M0 : Nat} {s0 : State} {s : State} {n : Nat} (kp_s : OnlyM M0 s0 s)
    (hm : Sub 0x100000000000 M0 := by exact Sub.of hm rfl) :
    OnlyM M0 s0 (State.driver s n) := by
  unfold State.driver
  repeat' first
    | (refine Sub.of hm ?_; exact Eq.refl _) | (refine Sub.bit hm ?_; exact Eq.refl _)
    | with_reducible refine State.put_only (LP_STATE_DRV_holds ..) ?_ ?_
    | with_reducible refine State.put_only (LP_STATE_FOLDED_holds ..) ?_ ?_
    | intro _ | with_reducible assumption | with_reducible apply OnlyM.ite
    | split

theorem State.refreshPort_only {M0 : Nat} {s0 : State} {s : State} {n : Nat} (kp_s : OnlyM M0 s0 s)
    (hm : Sub 0x301100000002000000302403C58080010F1804040080004C011000000196CD M0 := by exact Sub.of hm rfl) :
    OnlyM M0 s0 (State.refreshPort s n) := by
  unfold State.refreshPort
  repeat' first
    | (refine Sub.of hm ?_; exact Eq.refl _) | (refine Sub.bit hm ?_; exact Eq.refl _)
    | (refine Or.inl (Sub.bit hm ?_); exact Eq.refl _) | with_reducible exact Or.inr rfl
    | with_reducible refine State.set_only (LP_STATE_PSTATE_holds ..) ?_ ?_
    | intro _ | with_reducible assumption
    | with_reducible apply State.leaveActive_only | with_reducible apply State.driver_only | with_reducible apply State.modPort_only
    | with_reducible apply State.stopEngine_only | with_reducible apply State.startEngine_only
    | with_reducible apply State.integrate_only | with_reducible apply State.sndAbort_only
    | with_reducible apply State.lpCause_only | with_reducible apply State.sndEnd_only
    | with_reducible apply State.rxOnly_only | with_reducible apply State.when_only
    | with_reducible apply OnlyM.ite
    | (extract_lets +onlyGivenNames x; refine OnlyM.cut (M0 := M0) (s0 := s0) x ?_ ?_ <;> first | (intro hx; clear_value x) | unfold x)
    | (extract_lets +onlyGivenNames x; clear_value x)
    | split | with_reducible apply OnlyM.update

theorem State.refreshDie_only {M0 : Nat} {s0 : State} {s : State} {d : Nat} (kp_s : OnlyM M0 s0 s)
    (hm : Sub 0x301100000002000000302403C58080010F1804040080004C011000000196CD M0 := by exact Sub.of hm rfl) :
    OnlyM M0 s0 (State.refreshDie s d) := by
  unfold State.refreshDie
  repeat' first
    | (refine Sub.of hm ?_; exact Eq.refl _) | (refine Sub.bit hm ?_; exact Eq.refl _)
    | intro _ | with_reducible assumption
    | with_reducible apply State.refreshPort_only | with_reducible apply State.each_only

theorem State.refreshPorts_only {M0 : Nat} {s0 : State} {s : State} (kp_s : OnlyM M0 s0 s)
    (hm : Sub 0x301100000002000000302403C58080010F1804040080004C011000000196CD M0 := by exact Sub.of hm rfl) :
    OnlyM M0 s0 (State.refreshPorts s) := by
  unfold State.refreshPorts
  repeat' first
    | (refine Sub.of hm ?_; exact Eq.refl _) | (refine Sub.bit hm ?_; exact Eq.refl _)
    | intro _ | with_reducible assumption
    | with_reducible apply State.refreshDie_only

theorem State.portReset_only {M0 : Nat} {s0 : State} {s : State} {n : Nat} (kp_s : OnlyM M0 s0 s)
    (hm : Sub 0x301100000002000000302403C58080010F1800040080104C039000000196CD M0 := by exact Sub.of hm rfl) :
    OnlyM M0 s0 (State.portReset s n) := by
  unfold State.portReset
  repeat' first
    | (refine Sub.of hm ?_; exact Eq.refl _) | (refine Sub.bit hm ?_; exact Eq.refl _)
    | (refine Or.inl (Sub.bit hm ?_); exact Eq.refl _) | with_reducible exact Or.inr rfl
    | with_reducible refine State.setWord_only (Part.holds.own (LP_STATE_PSTATE_holds ..)) ?_ ?_
    | with_reducible refine State.set_only (LP_WIRE_LIVE_holds ..) ?_ ?_
    | with_reducible refine State.setWord_only (Part.holds.own (LP_MEAS_LOAD_holds ..)) ?_ ?_
    | with_reducible refine State.setWord_only (Part.holds.own (BT_STAT_BSTATE_holds ..)) ?_ ?_
    | with_reducible refine State.set_only (BT_TDC_TDCV_holds ..) ?_ ?_
    | with_reducible refine State.set_only (LP_STATE_PSTATE_holds ..) ?_ ?_
    | intro _ | with_reducible assumption
    | with_reducible apply State.abandonAttempt_only | with_reducible apply State.undefer_only
    | with_reducible apply State.lastEnergy_only | with_reducible apply State.cut_only
    | with_reducible apply State.cancelSearch_only | with_reducible apply State.modPort_only
    | with_reducible apply State.endCond_only | with_reducible apply State.sndAbort_only
    | with_reducible apply State.cenAbort_only | with_reducible apply State.clearTrackers_only
    | with_reducible apply State.enrAbort_only | with_reducible apply State.lpCause_only
    | with_reducible apply State.startEngine_only | with_reducible apply State.driver_only
    | with_reducible apply State.rxOnly_only | with_reducible apply OnlyOpt.none
    | with_reducible apply OnlyOpt.some | with_reducible apply State.when_only
    | (extract_lets +onlyGivenNames x; refine OnlyM.cut (M0 := M0) (s0 := s0) x ?_ ?_ <;> first | (intro hx; clear_value x) | unfold x)
    | (extract_lets +onlyGivenNames x; clear_value x)
    | with_reducible apply OnlyM.update

end Sys2Proof.Machine
end

