-- ==== Sys2Proof/Laws/OnlyCatalogue.lean ====
section
/-! SUPPORT. Which parts each operation of `Machine/Catalogue.lean` may change, and that it keeps what every command keeps: each
lemma follows the operation's own text, piece by piece, and gives the parts as a set of part numbers. -/

namespace Sys2Proof.Machine

theorem State.admitFor_only {M0 : Nat} {s0 : State} {s : State} {n len : Nat} {ws : List Word} (kp_s : OnlyM M0 s0 s)
    (hm : Sub 0x3011000000000000000000000000000003000000000000000000000000040C M0 := by exact Sub.of hm rfl) :
    OnlyM M0 s0 (State.admitFor s n len ws).2.2 := by
  unfold State.admitFor
  try dsimp only
  repeat' first
    | (refine Sub.of hm ?_; exact Eq.refl _) | (refine Sub.bit hm ?_; exact Eq.refl _)
    | (refine Or.inl (Sub.bit hm ?_); exact Eq.refl _) | with_reducible exact Or.inr rfl
    | intro _ | with_reducible assumption
    | with_reducible apply State.admitFrame_only | with_reducible apply OnlyM.ite
    | with_reducible (refine OnlyOptP.elim ?_ (by assumption))
    | split | with_reducible apply OnlyM.update

theorem State.searchFrame_only {M0 : Nat} {s0 : State} {s : State} {n sof : Nat} {f : Frame} (kp_s : OnlyM M0 s0 s)
    (hm : Sub 0x3011000000000000000000000000000003000000000000000000000000044C M0 := by exact Sub.of hm rfl) :
    OnlyM M0 s0 (State.searchFrame s n sof f) := by
  unfold State.searchFrame
  repeat' first
    | (refine Sub.of hm ?_; exact Eq.refl _) | (refine Sub.bit hm ?_; exact Eq.refl _)
    | (refine Or.inl (Sub.bit hm ?_); exact Eq.refl _) | with_reducible exact Or.inr rfl
    | intro _ | with_reducible assumption
    | with_reducible apply State.cancelSearch_only | with_reducible apply State.modPort_only
    | with_reducible apply State.admitFor_only | with_reducible apply OnlyOpt.none
    | with_reducible apply OnlyOpt.some | with_reducible apply OnlyM.ite
    | (extract_lets +onlyGivenNames x; refine OnlyM.cut (M0 := M0) (s0 := s0) x ?_ ?_ <;> first | (intro hx; clear_value x) | unfold x)
    | (extract_lets +onlyGivenNames x; clear_value x)
    | with_reducible (refine OnlyM.triple ?_ (by assumption))
    | split | with_reducible apply OnlyM.update

theorem State.completeXl_only {M0 : Nat} {s0 : State} {s : State} {n : Nat} {f : Frame} (kp_s : OnlyM M0 s0 s)
    (hm : Sub 0x3011000000000000000000000000000003000000000000000000000000044C M0 := by exact Sub.of hm rfl) :
    OnlyM M0 s0 (State.completeXl s n f) := by
  unfold State.completeXl
  repeat' first
    | (refine Sub.of hm ?_; exact Eq.refl _) | (refine Sub.bit hm ?_; exact Eq.refl _)
    | (refine Or.inl (Sub.bit hm ?_); exact Eq.refl _) | with_reducible exact Or.inr rfl
    | intro _ | with_reducible assumption
    | with_reducible apply State.modPort_only | with_reducible apply State.admitFor_only
    | with_reducible apply OnlyOpt.none | with_reducible apply OnlyOpt.some
    | with_reducible apply OnlyM.ite
    | (extract_lets +onlyGivenNames x; refine OnlyM.cut (M0 := M0) (s0 := s0) x ?_ ?_ <;> first | (intro hx; clear_value x) | unfold x)
    | (extract_lets +onlyGivenNames x; clear_value x)
    | with_reducible (refine OnlyM.triple ?_ (by assumption))
    | split | with_reducible apply OnlyM.update

theorem execCatalogueSearch_only {M0 : Nat} {s0 : State} {n : PortNo} {sof : Nat} {f : Frame} {s : State} (kp_s : OnlyM M0 s0 s)
    (hm : Sub 0x301100000000000000000000000000000300000000000040000000000004CC M0 := by exact Sub.of hm rfl) :
    OnlyOut M0 s0 (execCatalogueSearch n sof f s) := by
  unfold execCatalogueSearch
  repeat' first
    | (refine Sub.of hm ?_; exact Eq.refl _) | (refine Sub.bit hm ?_; exact Eq.refl _)
    | intro _ | with_reducible assumption
    | with_reducible apply State.setB_only | with_reducible apply State.discardRecord_only
    | with_reducible apply State.searchFrame_only | with_reducible apply OnlyOut.next
    | with_reducible apply OnlyOut.fault | with_reducible apply OnlyOut.ite
    | with_reducible apply OnlyM.ite
    | (extract_lets +onlyGivenNames x; refine OnlyM.cut (M0 := M0) (s0 := s0) x ?_ ?_ <;> first | (intro hx; clear_value x) | unfold x)
    | (extract_lets +onlyGivenNames x; clear_value x)
    | split

theorem execXlCandidateComplete_only {M0 : Nat} {s0 : State} {n : PortNo} {f : Frame} {s : State} (kp_s : OnlyM M0 s0 s)
    (hm : Sub 0x3011000000000000000000000000000003000000000000400000000000044C M0 := by exact Sub.of hm rfl) :
    OnlyOut M0 s0 (execXlCandidateComplete n f s) := by
  unfold execXlCandidateComplete
  repeat' first
    | (refine Sub.of hm ?_; exact Eq.refl _) | (refine Sub.bit hm ?_; exact Eq.refl _)
    | with_reducible refine State.put_only (BT_STAT_PHASE_holds ..) ?_ ?_
    | intro _ | with_reducible assumption | with_reducible apply State.completeXl_only
    | with_reducible apply OnlyOut.next | with_reducible apply OnlyOut.fault
    | with_reducible apply OnlyOut.ite | with_reducible apply State.when_only
    | with_reducible apply OnlyM.ite
    | (extract_lets +onlyGivenNames x; refine OnlyM.cut (M0 := M0) (s0 := s0) x ?_ ?_ <;> first | (intro hx; clear_value x) | unfold x)
    | (extract_lets +onlyGivenNames x; clear_value x)
    | split

theorem State.catRefuse_only {M0 : Nat} {s0 : State} {s : State} {q code reason : Nat} (kp_s : OnlyM M0 s0 s)
    (hm : Sub 0x3011000000000000000000000000000400000000000000000000000000000C M0 := by exact Sub.of hm rfl) :
    OnlyM M0 s0 (State.catRefuse s q code reason) := by
  unfold State.catRefuse
  repeat' first
    | (refine Sub.of hm ?_; exact Eq.refl _) | (refine Sub.bit hm ?_; exact Eq.refl _)
    | with_reducible refine State.set_only (CAT_UPD_STAT_STATE_holds ..) ?_ ?_
    | with_reducible refine State.set_only (CAT_UPD_STAT_REFUSE_holds ..) ?_ ?_
    | with_reducible refine State.set_only (CAT_UPD_STAT_REASON_holds ..) ?_ ?_
    | intro _ | with_reducible assumption | with_reducible apply State.raise_only
    | (extract_lets +onlyGivenNames x; refine OnlyM.cut (M0 := M0) (s0 := s0) x ?_ ?_ <;> first | (intro hx; clear_value x) | unfold x)
    | (extract_lets +onlyGivenNames x; clear_value x)

theorem State.catAccept_only {M0 : Nat} {s0 : State} {s : State} {c : CatCmd} (kp_s : OnlyM M0 s0 s)
    (hm : Sub 0x4000000000000000000000000000800 M0 := by exact Sub.of hm rfl) :
    OnlyM M0 s0 (State.catAccept s c) := by
  unfold State.catAccept
  repeat' first
    | (refine Sub.of hm ?_; exact Eq.refl _) | (refine Sub.bit hm ?_; exact Eq.refl _)
    | (refine Or.inl (Sub.bit hm ?_); exact Eq.refl _) | with_reducible exact Or.inr rfl
    | with_reducible refine State.set_only (CAT_UPD_STAT_STATE_holds ..) ?_ ?_
    | with_reducible refine State.set_only (CAT_UPD_STAT_REFUSE_holds ..) ?_ ?_
    | with_reducible refine State.set_only (CAT_UPD_STAT_REASON_holds ..) ?_ ?_
    | intro _ | with_reducible assumption | with_reducible apply OnlyM.ite
    | (extract_lets +onlyGivenNames x; refine OnlyM.cut (M0 := M0) (s0 := s0) x ?_ ?_ <;> first | (intro hx; clear_value x) | unfold x)
    | (extract_lets +onlyGivenNames x; clear_value x)
    | split | with_reducible apply OnlyM.update

theorem State.catInsert_only {M0 : Nat} {s0 : State} {s : State} {q t : Nat} (kp_s : OnlyM M0 s0 s)
    (hm : Sub 0x3011000000000000000000000000000C00000000000000000000000000080C M0 := by exact Sub.of hm rfl) :
    OnlyM M0 s0 (State.catInsert s q t) := by
  unfold State.catInsert
  repeat' first
    | (refine Sub.of hm ?_; exact Eq.refl _) | (refine Sub.bit hm ?_; exact Eq.refl _)
    | (refine Or.inl (Sub.bit hm ?_); exact Eq.refl _) | with_reducible exact Or.inr rfl
    | with_reducible refine State.set_only (CAT_UPD_IDX_INDEX_holds ..) ?_ ?_
    | intro _ | with_reducible assumption
    | with_reducible apply State.catRefuse_only
    | with_reducible apply State.catAccept_only | with_reducible apply OnlyOpt.none
    | with_reducible apply OnlyOpt.some | with_reducible apply OnlyM.ite
    | (extract_lets +onlyGivenNames x; refine OnlyM.cut (M0 := M0) (s0 := s0) x ?_ ?_ <;> first | (intro hx; clear_value x) | unfold x)
    | (extract_lets +onlyGivenNames x; clear_value x)
    | split | with_reducible apply OnlyM.update

theorem State.catDelete_only {M0 : Nat} {s0 : State} {s : State} {q t : Nat} (kp_s : OnlyM M0 s0 s)
    (hm : Sub 0x3011000000000000000000000000000400000000000000000000000000080C M0 := by exact Sub.of hm rfl) :
    OnlyM M0 s0 (State.catDelete s q t) := by
  unfold State.catDelete
  repeat' first
    | (refine Sub.of hm ?_; exact Eq.refl _) | (refine Sub.bit hm ?_; exact Eq.refl _)
    | (refine Or.inl (Sub.bit hm ?_); exact Eq.refl _) | with_reducible exact Or.inr rfl
    | intro _ | with_reducible assumption
    | with_reducible apply State.catRefuse_only | with_reducible apply State.catAccept_only
    | with_reducible apply OnlyOpt.none | with_reducible apply OnlyOpt.some
    | with_reducible apply OnlyM.ite
    | (extract_lets +onlyGivenNames x; refine OnlyM.cut (M0 := M0) (s0 := s0) x ?_ ?_ <;> first | (intro hx; clear_value x) | unfold x)
    | (extract_lets +onlyGivenNames x; clear_value x)
    | split | with_reducible apply OnlyM.update

theorem State.catReplace_only {M0 : Nat} {s0 : State} {s : State} {q t : Nat} (kp_s : OnlyM M0 s0 s)
    (hm : Sub 0x3011000000000000000000000000000400000000000000000000000000080C M0 := by exact Sub.of hm rfl) :
    OnlyM M0 s0 (State.catReplace s q t) := by
  unfold State.catReplace
  repeat' first
    | (refine Sub.of hm ?_; exact Eq.refl _) | (refine Sub.bit hm ?_; exact Eq.refl _)
    | (refine Or.inl (Sub.bit hm ?_); exact Eq.refl _) | with_reducible exact Or.inr rfl
    | intro _ | with_reducible assumption
    | with_reducible apply State.catRefuse_only | with_reducible apply State.catAccept_only
    | with_reducible apply OnlyOpt.none | with_reducible apply OnlyOpt.some
    | with_reducible apply OnlyM.ite
    | (extract_lets +onlyGivenNames x; refine OnlyM.cut (M0 := M0) (s0 := s0) x ?_ ?_ <;> first | (intro hx; clear_value x) | unfold x)
    | (extract_lets +onlyGivenNames x; clear_value x)
    | split | with_reducible apply OnlyM.update

theorem State.catBank_only {M0 : Nat} {s0 : State} {s : State} {q : Requester} {f : Nat → State → State} (kp_s : OnlyM M0 s0 s) (kp_f : ∀ k t, OnlyM M0 s0 t → OnlyM M0 s0 (f k t))
    (hm : Sub 0x400000000000000000000000000000000000001880000000000000000000000000000000000000000208000 M0 := by exact Sub.of hm rfl) :
    OnlyM M0 s0 (State.catBank s q f) := by
  unfold State.catBank
  repeat' first
    | (refine Sub.of hm ?_; exact Eq.refl _) | (refine Sub.bit hm ?_; exact Eq.refl _)
    | (refine Or.inl (Sub.bit hm ?_); exact Eq.refl _) | with_reducible exact Or.inr rfl
    | intro _ | with_reducible assumption
    | with_reducible apply kp_f | with_reducible apply State.openWrite_only
    | with_reducible apply State.hostWrite_only | with_reducible apply OnlyOpt.none
    | with_reducible apply OnlyOpt.some | with_reducible apply OnlyM.id
    | split | with_reducible apply OnlyM.update

theorem execInsert_only {M0 : Nat} {s0 : State} {q : Requester} {t : Fin 256} {s : State} (kp_s : OnlyM M0 s0 s)
    (hm : Sub 0x40000000000000000000000003011000000000188000000000000000C00000000000000000000000020880C M0 := by exact Sub.of hm rfl) :
    OnlyOut M0 s0 (execInsert q t s) := by
  unfold execInsert
  repeat' first
    | (refine Sub.of hm ?_; exact Eq.refl _) | (refine Sub.bit hm ?_; exact Eq.refl _)
    | intro _ | with_reducible assumption
    | with_reducible apply State.catBank_only | with_reducible apply State.catInsert_only
    | with_reducible apply OnlyOut.next | with_reducible apply OnlyOut.fault
    | with_reducible apply OnlyOut.ite

theorem execDelete_only {M0 : Nat} {s0 : State} {q : Requester} {t : Fin 256} {s : State} (kp_s : OnlyM M0 s0 s)
    (hm : Sub 0x40000000000000000000000003011000000000188000000000000000400000000000000000000000020880C M0 := by exact Sub.of hm rfl) :
    OnlyOut M0 s0 (execDelete q t s) := by
  unfold execDelete
  repeat' first
    | (refine Sub.of hm ?_; exact Eq.refl _) | (refine Sub.bit hm ?_; exact Eq.refl _)
    | intro _ | with_reducible assumption
    | with_reducible apply State.catBank_only | with_reducible apply State.catDelete_only
    | with_reducible apply OnlyOut.next | with_reducible apply OnlyOut.fault
    | with_reducible apply OnlyOut.ite

theorem execReplace_only {M0 : Nat} {s0 : State} {q : Requester} {t : Fin 256} {s : State} (kp_s : OnlyM M0 s0 s)
    (hm : Sub 0x40000000000000000000000003011000000000188000000000000000400000000000000000000000020880C M0 := by exact Sub.of hm rfl) :
    OnlyOut M0 s0 (execReplace q t s) := by
  unfold execReplace
  repeat' first
    | (refine Sub.of hm ?_; exact Eq.refl _) | (refine Sub.bit hm ?_; exact Eq.refl _)
    | intro _ | with_reducible assumption
    | with_reducible apply State.catBank_only | with_reducible apply State.catReplace_only
    | with_reducible apply OnlyOut.next | with_reducible apply OnlyOut.fault
    | with_reducible apply OnlyOut.ite

theorem State.catUnknown_only {M0 : Nat} {s0 : State} {s : State} {q : Nat} (kp_s : OnlyM M0 s0 s)
    (hm : Sub 0x3011000000000000000000000000000400000000000000000000000000000C M0 := by exact Sub.of hm rfl) :
    OnlyM M0 s0 (State.catUnknown s q) := by
  unfold State.catUnknown
  repeat' first
    | (refine Sub.of hm ?_; exact Eq.refl _) | (refine Sub.bit hm ?_; exact Eq.refl _)
    | intro _ | with_reducible assumption
    | with_reducible apply State.catRefuse_only | with_reducible apply OnlyM.ite
    | split

theorem execUpdCmdUnknown_only {M0 : Nat} {s0 : State} {q : Requester} {s : State} (kp_s : OnlyM M0 s0 s)
    (hm : Sub 0x40000000000000000000000003011000000000188000000000000000400000000000000000000000020800C M0 := by exact Sub.of hm rfl) :
    OnlyOut M0 s0 (execUpdCmdUnknown q s) := by
  unfold execUpdCmdUnknown
  repeat' first
    | (refine Sub.of hm ?_; exact Eq.refl _) | (refine Sub.bit hm ?_; exact Eq.refl _)
    | intro _ | with_reducible assumption
    | with_reducible apply State.catBank_only | with_reducible apply State.catUnknown_only
    | with_reducible apply OnlyOut.next | with_reducible apply OnlyOut.fault
    | with_reducible apply OnlyOut.ite

theorem State.setEntry_only {M0 : Nat} {s0 : State} {s : State} {i : Nat} {ws : List Word} (kp_s : OnlyM M0 s0 s)
    (hm : Sub 0x2000000000000000000000000000000000 M0 := by exact Sub.of hm rfl) :
    OnlyM M0 s0 (State.setEntry s i ws) := by
  unfold State.setEntry
  repeat' first
    | (refine Sub.of hm ?_; exact Eq.refl _) | (refine Sub.bit hm ?_; exact Eq.refl _)
    | with_reducible refine State.setWord_only (Part.holds.own (CAT_ENTRY_W_holds ..)) ?_ ?_
    | intro _ | with_reducible assumption | with_reducible apply State.each_only

theorem execCatUpdateApply_only {M0 : Nat} {s0 : State} {s : State} (kp_s : OnlyM M0 s0 s)
    (hm : Sub 0x2050000000000000000000000000000800 M0 := by exact Sub.of hm rfl) :
    OnlyOut M0 s0 (execCatUpdateApply s) := by
  unfold execCatUpdateApply
  repeat' first
    | (refine Sub.of hm ?_; exact Eq.refl _) | (refine Sub.bit hm ?_; exact Eq.refl _)
    | (refine Or.inl (Sub.bit hm ?_); exact Eq.refl _) | with_reducible exact Or.inr rfl

    | with_reducible refine State.setStamp_only (Part.holds.own (CAT_UPD_T_NS_holds ..)) (CAT_UPD_T_NS_next ..) ?_ ?_
    | with_reducible refine State.set_only CAT_USE_USED_holds ?_ ?_
    | intro _ | with_reducible assumption
    | with_reducible apply State.setEntry_only | with_reducible apply OnlyOut.next
    | with_reducible apply OnlyOut.fault | with_reducible apply OnlyOut.ite
    | with_reducible apply OnlyOpt.none | with_reducible apply OnlyOpt.some
    | with_reducible apply OnlyM.ite
    | (extract_lets +onlyGivenNames x; refine OnlyM.cut (M0 := M0) (s0 := s0) x ?_ ?_ <;> first | (intro hx; clear_value x) | unfold x)
    | (extract_lets +onlyGivenNames x; clear_value x)
    | split | with_reducible apply OnlyM.update

theorem execCatUpdateDone_only {M0 : Nat} {s0 : State} {s : State} (kp_s : OnlyM M0 s0 s)
    (hm : Sub 0x3011000000000000000000000000000400000000000000000000000000080C M0 := by exact Sub.of hm rfl) :
    OnlyOut M0 s0 (execCatUpdateDone s) := by
  unfold execCatUpdateDone
  repeat' first
    | (refine Sub.of hm ?_; exact Eq.refl _) | (refine Sub.bit hm ?_; exact Eq.refl _)
    | (refine Or.inl (Sub.bit hm ?_); exact Eq.refl _) | with_reducible exact Or.inr rfl
    | with_reducible refine State.set_only (CAT_UPD_STAT_STATE_holds ..) ?_ ?_
    | with_reducible refine State.set_only (CAT_UPD_STAT_REFUSE_holds ..) ?_ ?_
    | with_reducible refine State.set_only (CAT_UPD_STAT_REASON_holds ..) ?_ ?_
    | intro _ | with_reducible assumption | with_reducible apply State.raise_only
    | with_reducible apply OnlyOut.next | with_reducible apply OnlyOut.fault
    | with_reducible apply OnlyOut.ite | with_reducible apply OnlyOpt.none
    | with_reducible apply OnlyOpt.some
    | (extract_lets +onlyGivenNames x; refine OnlyM.cut (M0 := M0) (s0 := s0) x ?_ ?_ <;> first | (intro hx; clear_value x) | unfold x)
    | (extract_lets +onlyGivenNames x; clear_value x)
    | split | with_reducible apply OnlyM.update

end Sys2Proof.Machine
end

