-- ==== Sys2Proof/Laws/OnlySpineOps.lean ====
section
/-! SUPPORT. Which parts each operation of `Machine/SpineOps.lean` may change, and that it keeps what every command keeps: each
lemma follows the operation's own text, piece by piece, and gives the parts as a set of part numbers. -/

namespace Sys2Proof.Machine

theorem State.modLane_only {M0 : Nat} {s0 : State} {s : State} {l : Nat} {f : Lane → Lane} (kp_s : OnlyM M0 s0 s)
    (hm : Sub 0x2000 M0 := by exact Sub.of hm rfl) :
    OnlyM M0 s0 (State.modLane s l f) := by
  unfold State.modLane
  repeat' first
    | (refine Sub.of hm ?_; exact Eq.refl _) | (refine Sub.bit hm ?_; exact Eq.refl _)
    | (refine Or.inl (Sub.bit hm ?_); exact Eq.refl _) | with_reducible exact Or.inr rfl
    | intro _ | with_reducible assumption
    | with_reducible apply OnlyM.update

theorem State.modStream_only {M0 : Nat} {s0 : State} {s : State} {st : Nat} {f : Stream → Stream} (kp_s : OnlyM M0 s0 s)
    (hm : Sub 0x2000 M0 := by exact Sub.of hm rfl) :
    OnlyM M0 s0 (State.modStream s st f) := by
  unfold State.modStream
  repeat' first
    | (refine Sub.of hm ?_; exact Eq.refl _) | (refine Sub.bit hm ?_; exact Eq.refl _)
    | (refine Or.inl (Sub.bit hm ?_); exact Eq.refl _) | with_reducible exact Or.inr rfl
    | intro _ | with_reducible assumption
    | with_reducible apply OnlyM.update

theorem State.streamSend_only {M0 : Nat} {s0 : State} {s : State} {st : Nat} {x : SpineItem} (kp_s : OnlyM M0 s0 s)
    (hm : Sub 0x800000000000000000000000000000000000000000000000000000000000000000002000 M0 := by exact Sub.of hm rfl) :
    OnlyM M0 s0 (State.streamSend s st x) := by
  unfold State.streamSend
  repeat' first
    | (refine Sub.of hm ?_; exact Eq.refl _) | (refine Sub.bit hm ?_; exact Eq.refl _)
    | (refine Or.inl (Sub.bit hm ?_); exact Eq.refl _) | with_reducible exact Or.inr rfl
    | with_reducible refine State.inc_only (SPN_STR_STAT_DROP_holds ..) ?_ ?_
    | intro _ | with_reducible assumption
    | with_reducible apply State.modStream_only
    | with_reducible apply OnlyM.ite
    | split | with_reducible apply OnlyM.update

end Sys2Proof.Machine
end

