-- ==== Sys2Proof/Laws/OnlyGatewayOps.lean ====
section
/-! SUPPORT. Which parts each operation of `Machine/GatewayOps.lean` may change, and that it keeps what every command keeps: each
lemma follows the operation's own text, piece by piece, and gives the parts as a set of part numbers. -/

namespace Sys2Proof.Machine

theorem State.holdIn_only {M0 : Nat} {s0 : State} {s : State} {x : HeldIn} (kp_s : OnlyM M0 s0 s)
    (hm : Sub 0x1000 M0 := by exact Sub.of hm rfl) :
    OnlyM M0 s0 (State.holdIn s x) := by
  unfold State.holdIn
  repeat' first
    | (refine Sub.of hm ?_; exact Eq.refl _) | (refine Sub.bit hm ?_; exact Eq.refl _)
    | (refine Or.inl (Sub.bit hm ?_); exact Eq.refl _) | with_reducible exact Or.inr rfl
    | intro _ | with_reducible assumption
    | with_reducible apply OnlyM.update

theorem State.setCopies_only {M0 : Nat} {s0 : State} {s : State} {cs : List Copy} (kp_s : OnlyM M0 s0 s)
    (hm : Sub 0x1000 M0 := by exact Sub.of hm rfl) :
    OnlyM M0 s0 (State.setCopies s cs) := by
  unfold State.setCopies
  repeat' first
    | (refine Sub.of hm ?_; exact Eq.refl _) | (refine Sub.bit hm ?_; exact Eq.refl _)
    | (refine Or.inl (Sub.bit hm ?_); exact Eq.refl _) | with_reducible exact Or.inr rfl
    | intro _ | with_reducible assumption
    | with_reducible apply OnlyM.update

theorem State.addCopy_only {M0 : Nat} {s0 : State} {s : State} {c : Copy} (kp_s : OnlyM M0 s0 s)
    (hm : Sub 0x10000000000000000000000000000000000000001000 M0 := by exact Sub.of hm rfl) :
    OnlyM M0 s0 (State.addCopy s c) := by
  unfold State.addCopy
  repeat' first
    | (refine Sub.of hm ?_; exact Eq.refl _) | (refine Sub.bit hm ?_; exact Eq.refl _)
    | intro _ | with_reducible assumption
    | with_reducible apply State.setCopies_only | with_reducible apply State.updateNpend_only

theorem State.dropCopy_only {M0 : Nat} {s0 : State} {s : State} {c : Copy} (kp_s : OnlyM M0 s0 s)
    (hm : Sub 0x10000000000000000000000000000000000000001000 M0 := by exact Sub.of hm rfl) :
    OnlyM M0 s0 (State.dropCopy s c) := by
  unfold State.dropCopy
  repeat' first
    | (refine Sub.of hm ?_; exact Eq.refl _) | (refine Sub.bit hm ?_; exact Eq.refl _)
    | intro _ | with_reducible assumption
    | with_reducible apply State.setCopies_only | with_reducible apply State.updateNpend_only

theorem State.swapCopy_only {M0 : Nat} {s0 : State} {s : State} {c d : Copy} (kp_s : OnlyM M0 s0 s)
    (hm : Sub 0x10000000000000000000000000000000000000001000 M0 := by exact Sub.of hm rfl) :
    OnlyM M0 s0 (State.swapCopy s c d) := by
  unfold State.swapCopy
  repeat' first
    | (refine Sub.of hm ?_; exact Eq.refl _) | (refine Sub.bit hm ?_; exact Eq.refl _)
    | intro _ | with_reducible assumption
    | with_reducible apply State.setCopies_only | with_reducible apply State.updateNpend_only

theorem State.legTake_only {M0 : Nat} {s0 : State} {s : State} {l : Nat} (kp_s : OnlyM M0 s0 s)
    (hm : Sub 0x200000000000000000000000000000000000000000 M0 := by exact Sub.of hm rfl) :
    OnlyM M0 s0 (State.legTake s l) := by
  unfold State.legTake
  repeat' first
    | (refine Sub.of hm ?_; exact Eq.refl _) | (refine Sub.bit hm ?_; exact Eq.refl _)
    | with_reducible refine State.inc_only (GW_LEG_Q_INUSE_holds ..) ?_ ?_
    | intro _ | with_reducible assumption

theorem State.legFree_only {M0 : Nat} {s0 : State} {s : State} {l : Nat} (kp_s : OnlyM M0 s0 s)
    (hm : Sub 0x200000000000000000000000000000000000000000 M0 := by exact Sub.of hm rfl) :
    OnlyM M0 s0 (State.legFree s l) := by
  unfold State.legFree
  repeat' first
    | (refine Sub.of hm ?_; exact Eq.refl _) | (refine Sub.bit hm ?_; exact Eq.refl _)
    | with_reducible refine State.set_only (GW_LEG_Q_INUSE_holds ..) ?_ ?_
    | intro _ | with_reducible assumption

theorem State.fillLeg_only {M0 : Nat} {s0 : State} {s : State} {k : Nat} {c : Copy} (kp_s : OnlyM M0 s0 s)
    (hm : Sub 0x200000000000000000001040800000000000000000000018009 M0 := by exact Sub.of hm rfl) :
    OnlyM M0 s0 (State.fillLeg s k c) := by
  unfold State.fillLeg
  repeat' first
    | (refine Sub.of hm ?_; exact Eq.refl _) | (refine Sub.bit hm ?_; exact Eq.refl _)
    | (refine Or.inl (Sub.bit hm ?_); exact Eq.refl _) | with_reducible exact Or.inr rfl
    | with_reducible refine State.put_only (MOP_DESC_DIR_holds ..) ?_ ?_
    | with_reducible refine State.put_only (MOP_DESC_TAINT_holds ..) ?_ ?_
    | with_reducible refine State.set_only (MOP_DESC_WP_holds ..) ?_ ?_
    | with_reducible refine State.put_only (MOP_DESC_DL_EN_holds ..) ?_ ?_
    | with_reducible refine State.set_only (MOP_DESC_TAG_holds ..) ?_ ?_
    | with_reducible refine State.set_only (MOP_DESC_CODE_holds ..) ?_ ?_
    | with_reducible refine State.put_only (MOP_DESC_DUP_holds ..) ?_ ?_
    | with_reducible refine State.set_only (MOP_DESC_ATT_holds ..) ?_ ?_
    | with_reducible refine State.setWord_only (Part.holds.own (MOP_DESC_W_holds ..)) ?_ ?_
    | intro _ | with_reducible assumption
    | with_reducible apply State.setSlotFrame_only | with_reducible apply State.hallStore_only
    | with_reducible apply State.setPoison_only
    | with_reducible apply State.setSlotState_only | with_reducible apply foldl_only
    | with_reducible apply OnlyM.ite
    | (extract_lets +onlyGivenNames x; refine OnlyM.cut (M0 := M0) (s0 := s0) x ?_ ?_ <;> first | (intro hx; clear_value x) | unfold x)
    | (extract_lets +onlyGivenNames x; clear_value x)
    | split | with_reducible apply OnlyM.update

theorem State.releaseCopy_only {M0 : Nat} {s0 : State} {s : State} {c : Copy} (kp_s : OnlyM M0 s0 s)
    (hm : Sub 0x8000000000301100000002000000316403C00000010C180000000000000000000001B40D M0 := by exact Sub.of hm rfl) :
    OnlyM M0 s0 (State.releaseCopy s c) := by
  unfold State.releaseCopy
  repeat' first
    | (refine Sub.of hm ?_; exact Eq.refl _) | (refine Sub.bit hm ?_; exact Eq.refl _)
    | (refine Or.inl (Sub.bit hm ?_); exact Eq.refl _) | with_reducible exact Or.inr rfl
    | with_reducible refine State.inc_only (GW_LEG_STAT_REL_holds ..) ?_ ?_
    | with_reducible refine State.set_only (GW_TUN_SEQ_TXSEQ_holds ..) ?_ ?_
    | intro _ | with_reducible assumption
    | with_reducible apply State.swapCopy_only
    | with_reducible apply State.queueSlot_only | with_reducible apply State.updateNpend_only | with_reducible apply State.dropCopy_only
    | with_reducible apply State.legFree_only | with_reducible apply State.streamSend_only
    | with_reducible apply OnlyM.ite
    | (extract_lets +onlyGivenNames x; refine OnlyM.cut (M0 := M0) (s0 := s0) x ?_ ?_ <;> first | (intro hx; clear_value x) | unfold x)
    | (extract_lets +onlyGivenNames x; clear_value x)
    | split | with_reducible apply OnlyM.update

theorem State.discardCopy_only {M0 : Nat} {s0 : State} {s : State} {c : Copy} (kp_s : OnlyM M0 s0 s)
    (hm : Sub 0x10200000000001040800000000000000000000001000 M0 := by exact Sub.of hm rfl) :
    OnlyM M0 s0 (State.discardCopy s c) := by
  unfold State.discardCopy
  repeat' first
    | (refine Sub.of hm ?_; exact Eq.refl _) | (refine Sub.bit hm ?_; exact Eq.refl _)
    | (refine Or.inl (Sub.bit hm ?_); exact Eq.refl _) | with_reducible exact Or.inr rfl
    | intro _ | with_reducible assumption
    | with_reducible apply State.dropCopy_only | with_reducible apply State.legFree_only
    | with_reducible apply State.setSlotState_only | with_reducible apply OnlyOpt.none
    | with_reducible apply OnlyOpt.some
    | (extract_lets +onlyGivenNames x; refine OnlyM.cut (M0 := M0) (s0 := s0) x ?_ ?_ <;> first | (intro hx; clear_value x) | unfold x)
    | (extract_lets +onlyGivenNames x; clear_value x)
    | split | with_reducible apply OnlyM.update

theorem State.sendRemote_only {M0 : Nat} {s0 : State} {s : State} {c : Copy} (kp_s : OnlyM M0 s0 s)
    (hm : Sub 0x800000000000000000000000000010200000000000000000000000000000000000003000 M0 := by exact Sub.of hm rfl) :
    OnlyM M0 s0 (State.sendRemote s c) := by
  unfold State.sendRemote
  repeat' first
    | (refine Sub.of hm ?_; exact Eq.refl _) | (refine Sub.bit hm ?_; exact Eq.refl _)
    | (refine Or.inl (Sub.bit hm ?_); exact Eq.refl _) | with_reducible exact Or.inr rfl
    | intro _ | with_reducible assumption
    | with_reducible apply State.legTake_only | with_reducible apply State.addCopy_only
    | with_reducible apply State.streamSend_only | with_reducible apply OnlyOpt.none
    | with_reducible apply OnlyOpt.some | with_reducible apply OnlyM.ite
    | (extract_lets +onlyGivenNames x; refine OnlyM.cut (M0 := M0) (s0 := s0) x ?_ ?_ <;> first | (intro hx; clear_value x) | unfold x)
    | (extract_lets +onlyGivenNames x; clear_value x)
    | split | with_reducible apply OnlyM.update

theorem State.unsendRemote_only {M0 : Nat} {s0 : State} {s : State} {c : Copy} (kp_s : OnlyM M0 s0 s)
    (hm : Sub 0x2000 M0 := by exact Sub.of hm rfl) :
    OnlyM M0 s0 (State.unsendRemote s c) := by
  unfold State.unsendRemote
  repeat' first
    | (refine Sub.of hm ?_; exact Eq.refl _) | (refine Sub.bit hm ?_; exact Eq.refl _)
    | (refine Or.inl (Sub.bit hm ?_); exact Eq.refl _) | with_reducible exact Or.inr rfl
    | intro _ | with_reducible assumption
    | with_reducible apply State.modStream_only | with_reducible apply OnlyOpt.none
    | with_reducible apply OnlyOpt.some
    | (extract_lets +onlyGivenNames x; refine OnlyM.cut (M0 := M0) (s0 := s0) x ?_ ?_ <;> first | (intro hx; clear_value x) | unfold x)
    | (extract_lets +onlyGivenNames x; clear_value x)
    | with_reducible apply OnlyM.update

theorem State.lateBreach_only {M0 : Nat} {s0 : State} {s : State} {c : Copy} (kp_s : OnlyM M0 s0 s)
    (hm : Sub 0x301100000000000000300403C000000000000000000000000000000000000C M0 := by exact Sub.of hm rfl) :
    OnlyM M0 s0 (State.lateBreach s c) := by
  unfold State.lateBreach
  repeat' first
    | (refine Sub.of hm ?_; exact Eq.refl _) | (refine Sub.bit hm ?_; exact Eq.refl _)
    | intro _ | with_reducible assumption
    | with_reducible apply State.breach_only | with_reducible apply State.each_only

theorem State.afterStage_only {M0 : Nat} {s0 : State} {s : State} {c : Copy} (kp_s : OnlyM M0 s0 s)
    (hm : Sub 0x8000000000301100000002000000316403C00000010C180000000000000000000001B40D M0 := by exact Sub.of hm rfl) :
    OnlyM M0 s0 (State.afterStage s c) := by
  unfold State.afterStage
  repeat' first
    | (refine Sub.of hm ?_; exact Eq.refl _) | (refine Sub.bit hm ?_; exact Eq.refl _)
    | intro _ | with_reducible assumption
    | with_reducible apply State.lateBreach_only | with_reducible apply State.discardCopy_only
    | with_reducible apply State.releaseCopy_only | with_reducible apply State.each_only
    | with_reducible apply OnlyM.ite
    | (extract_lets +onlyGivenNames x; refine OnlyM.cut (M0 := M0) (s0 := s0) x ?_ ?_ <;> first | (intro hx; clear_value x) | unfold x)
    | (extract_lets +onlyGivenNames x; clear_value x)
    | split

theorem State.takeRemote_only {M0 : Nat} {s0 : State} {s : State} {c : Copy} (kp_s : OnlyM M0 s0 s)
    (hm : Sub 0x8000000000301100000000000000302403C000000000000000000000000000000000300C M0 := by exact Sub.of hm rfl) :
    OnlyM M0 s0 (State.takeRemote s c) := by
  unfold State.takeRemote
  repeat' first
    | (refine Sub.of hm ?_; exact Eq.refl _) | (refine Sub.bit hm ?_; exact Eq.refl _)
    | intro _ | with_reducible assumption
    | with_reducible apply State.lateBreach_only | with_reducible apply State.sendRemote_only
    | with_reducible apply State.each_only | with_reducible apply OnlyM.ite
    | (extract_lets +onlyGivenNames x; refine OnlyM.cut (M0 := M0) (s0 := s0) x ?_ ?_ <;> first | (intro hx; clear_value x) | unfold x)
    | (extract_lets +onlyGivenNames x; clear_value x)
    | split

theorem State.takeLeg_only {M0 : Nat} {s0 : State} {s : State} {c : Copy} (kp_s : OnlyM M0 s0 s)
    (hm : Sub 0x8000000000301100000002000000316403C00000010C180000000000000000000001B40D M0 := by exact Sub.of hm rfl) :
    OnlyOpt M0 s0 (State.takeLeg s c) := by
  unfold State.takeLeg
  repeat' first
    | (refine Sub.of hm ?_; exact Eq.refl _) | (refine Sub.bit hm ?_; exact Eq.refl _)
    | (refine Or.inl (Sub.bit hm ?_); exact Eq.refl _) | with_reducible exact Or.inr rfl
    | intro _ | with_reducible assumption
    | with_reducible apply State.legTake_only | with_reducible apply State.fillLeg_only
    | with_reducible apply State.addCopy_only | with_reducible apply State.afterStage_only
    | with_reducible apply State.takeRemote_only | with_reducible apply OnlyOpt.some
    | with_reducible apply OnlyOpt.none | with_reducible apply OnlyOpt.ite | with_reducible apply OnlyM.ite
    | (extract_lets +onlyGivenNames x; refine OnlyM.cut (M0 := M0) (s0 := s0) x ?_ ?_ <;> first | (intro hx; clear_value x) | unfold x)
    | (extract_lets +onlyGivenNames x; clear_value x)
    | split | with_reducible apply OnlyM.update

theorem State.serveWaiting_only {M0 : Nat} {s0 s : State} {l k : Nat} (hs : OnlyM M0 s0 s)
    (hm : Sub 0x8000000000301100000002000000316403C00000010C180000000000000000000001B40D M0 := by exact Sub.of hm rfl) : OnlyM M0 s0 (s.serveWaiting l k) := by
  induction k generalizing s with
  | zero => exact hs
  | succ k ih =>
    unfold State.serveWaiting
    split
    · split
      · exact ih (OnlyOpt.elim (State.takeLeg_only (State.dropCopy_only hs)) (by assumption))
      · exact hs
    · exact hs

theorem State.stageLeg_only {M0 : Nat} {s0 : State} {s : State} {c : Copy} (kp_s : OnlyM M0 s0 s)
    (hm : Sub 0x80000000000008000000000301100000002000000316403C00000010C180000000000000000000001B40D M0 := by exact Sub.of hm rfl) :
    OnlyM M0 s0 (State.stageLeg s c) := by
  unfold State.stageLeg
  repeat' first
    | (refine Sub.of hm ?_; exact Eq.refl _) | (refine Sub.bit hm ?_; exact Eq.refl _)
    | (refine Or.inl (Sub.bit hm ?_); exact Eq.refl _) | with_reducible exact Or.inr rfl
    | with_reducible refine State.inc_only (CON_PEER_CNT_XDROP_holds ..) ?_ ?_
    | intro _ | with_reducible assumption | with_reducible apply State.raiseOncePerMs_only
    | with_reducible apply State.serveWaiting_only | with_reducible apply State.takeLeg_only
    | with_reducible apply State.breach_only | with_reducible apply State.addCopy_only
    | with_reducible apply State.each_only | with_reducible apply OnlyOpt.none
    | with_reducible apply OnlyOpt.some | with_reducible apply OnlyM.ite
    | (extract_lets +onlyGivenNames x; refine OnlyM.cut (M0 := M0) (s0 := s0) x ?_ ?_ <;> first | (intro hx; clear_value x) | unfold x)
    | (extract_lets +onlyGivenNames x; clear_value x)
    | with_reducible (refine OnlyOpt.elim ?_ (by assumption))
    | split | with_reducible apply OnlyM.update

theorem State.acceptFrame_only {M0 : Nat} {s0 : State} {s : State} {r : Nat} {f : Frame} {t source msg : Nat} {taint forced poisoned : Bool} (kp_s : OnlyM M0 s0 s)
    (hm : Sub 0x80000000000008000000000301100000002000000316703C00000010C180000000000000000000001B40D M0 := by exact Sub.of hm rfl) :
    OnlyM M0 s0 (State.acceptFrame s r f t source msg taint forced poisoned) := by
  unfold State.acceptFrame
  repeat' first
    | (refine Sub.of hm ?_; exact Eq.refl _) | (refine Sub.bit hm ?_; exact Eq.refl _)
    | (refine Or.inl (Sub.bit hm ?_); exact Eq.refl _) | with_reducible exact Or.inr rfl
    | with_reducible refine State.inc_only (GW_RT_DROP_POLICE_holds ..) ?_ ?_
    | with_reducible refine State.inc_only (GW_RT_CNT_FWD_holds ..) ?_ ?_
    | intro _ | with_reducible assumption | with_reducible apply State.raiseOncePerMs_only
    | with_reducible apply State.stageLeg_only | with_reducible apply State.each_only
    | with_reducible apply OnlyM.ite
    | (extract_lets +onlyGivenNames x; refine OnlyM.cut (M0 := M0) (s0 := s0) x ?_ ?_ <;> first | (intro hx; clear_value x) | unfold x)
    | (extract_lets +onlyGivenNames x; clear_value x)
    | split | with_reducible apply OnlyM.update

theorem State.freeIngress_only {M0 : Nat} {s0 : State} {s : State} {k : Nat} (kp_s : OnlyM M0 s0 s)
    (hm : Sub 0x1070800000000000000000000001440 M0 := by exact Sub.of hm rfl) :
    OnlyM M0 s0 (State.freeIngress s k) := by
  unfold State.freeIngress
  try dsimp only
  repeat' first
    | (refine Sub.of hm ?_; exact Eq.refl _) | (refine Sub.bit hm ?_; exact Eq.refl _)
    | (refine Or.inl (Sub.bit hm ?_); exact Eq.refl _) | with_reducible exact Or.inr rfl
    | intro _ | with_reducible assumption
    | with_reducible apply State.releaseRx_only | with_reducible apply OnlyOpt.none
    | with_reducible apply OnlyOpt.some
    | split | with_reducible apply OnlyM.update

theorem State.ingress_only {M0 : Nat} {s0 : State} {s : State} {w : WaitingFrame} (kp_s : OnlyM M0 s0 s)
    (hm : Sub 0x80000000000008000000000301100000006000000316703C00000010F180000000000000000000001B44D M0 := by exact Sub.of hm rfl) :
    OnlyM M0 s0 (State.ingress s w) := by
  unfold State.ingress
  repeat' first
    | (refine Sub.of hm ?_; exact Eq.refl _) | (refine Sub.bit hm ?_; exact Eq.refl _)
    | with_reducible refine State.inc_only (GW_RT_DROP_TAINT_holds ..) ?_ ?_
    | with_reducible refine State.inc_only (GW_RT_BRK_DUP_holds ..) ?_ ?_
    | intro _ | with_reducible assumption | with_reducible apply State.poisonRead_only
    | with_reducible apply State.acceptFrame_only | with_reducible apply State.freeIngress_only
    | with_reducible apply foldl_only | with_reducible apply OnlyM.ite
    | (extract_lets +onlyGivenNames x; refine OnlyM.cut (M0 := M0) (s0 := s0) x ?_ ?_ <;> first | (intro hx; clear_value x) | unfold x)
    | (extract_lets +onlyGivenNames x; clear_value x)
    | split

theorem State.ingressInOrder_only {M0 : Nat} {s0 : State} {s : State} {w : WaitingFrame} (kp_s : OnlyM M0 s0 s)
    (hm : Sub 0x80000000000008000000000301100000006000000316703C00000010F180000000000000000000001B44D M0 := by exact Sub.of hm rfl) :
    OnlyM M0 s0 (State.ingressInOrder s w) := by
  unfold State.ingressInOrder
  repeat' first
    | (refine Sub.of hm ?_; exact Eq.refl _) | (refine Sub.bit hm ?_; exact Eq.refl _)
    | intro _ | with_reducible assumption
    | with_reducible apply State.ingress_only | with_reducible apply State.each_only

theorem State.ingressBreach_only {M0 : Nat} {s0 : State} {s : State} {r t : Nat} (kp_s : OnlyM M0 s0 s)
    (hm : Sub 0x301100000000000000300403C000000000000000000000000000000000000C M0 := by exact Sub.of hm rfl) :
    OnlyM M0 s0 (State.ingressBreach s r t) := by
  unfold State.ingressBreach
  repeat' first
    | (refine Sub.of hm ?_; exact Eq.refl _) | (refine Sub.bit hm ?_; exact Eq.refl _)
    | intro _ | with_reducible assumption
    | with_reducible apply State.breach_only | with_reducible apply State.each_only
    | with_reducible apply OnlyM.ite
    | (extract_lets +onlyGivenNames x; refine OnlyM.cut (M0 := M0) (s0 := s0) x ?_ ?_ <;> first | (intro hx; clear_value x) | unfold x)
    | (extract_lets +onlyGivenNames x; clear_value x)
    | split

end Sys2Proof.Machine
end

