-- ==== Sys2Proof/Laws/OnlyMop.lean ====
section
/-! SUPPORT. Which parts each operation of `Machine/Mop.lean` may change, and that it keeps what every command keeps: each
lemma follows the operation's own text, piece by piece, and gives the parts as a set of part numbers. -/

namespace Sys2Proof.Machine

theorem State.mopRefuse_only {M0 : Nat} {s0 : State} {s : State} {q : Requester} {reason k off : Nat} {write : Bool} (kp_s : OnlyM M0 s0 s)
    (hm : Sub 0x3011000000000188000000000000000000018000000000000000000020800C M0 := by exact Sub.of hm rfl) :
    OnlyM M0 s0 (State.mopRefuse s q reason k off write) := by
  unfold State.mopRefuse
  repeat' first
    | (refine Sub.of hm ?_; exact Eq.refl _) | (refine Sub.bit hm ?_; exact Eq.refl _)
    | (refine Or.inl (Sub.bit hm ?_); exact Eq.refl _) | with_reducible exact Or.inr rfl
    | intro _ | with_reducible assumption
    | with_reducible apply State.mopErr_only | with_reducible apply State.answerDone_only
    | with_reducible apply State.answer_only | with_reducible apply State.accessTrap_only
    | with_reducible apply OnlyM.ite
    | (extract_lets +onlyGivenNames x; refine OnlyM.cut (M0 := M0) (s0 := s0) x ?_ ?_ <;> first | (intro hx; clear_value x) | unfold x)
    | (extract_lets +onlyGivenNames x; clear_value x)
    | split | with_reducible apply OnlyM.update

theorem State.descWrite_only {M0 : Nat} {s0 : State} {s : State} {q : Requester} {p k w : Nat} {v : Word} (kp_s : OnlyM M0 s0 s)
    (hm : Sub 0x3011000000000000000000000000000104098000000000000000000020000C M0 := by exact Sub.of hm rfl) :
    OnlyM M0 s0 (State.descWrite s q p k w v) := by
  unfold State.descWrite
  repeat' first
    | (refine Sub.of hm ?_; exact Eq.refl _) | (refine Sub.bit hm ?_; exact Eq.refl _)
    | with_reducible refine State.put_only (MOP_DESC_DIR_holds ..) ?_ ?_
    | with_reducible refine State.setWord_only (Part.holds.own (MOP_DESC_W_holds ..)) ?_ ?_
    | intro _ | with_reducible assumption
    | with_reducible apply State.answerDone_only | with_reducible apply State.mopErr_only
    | with_reducible apply State.setSlotState_only | with_reducible apply OnlyM.ite
    | (extract_lets +onlyGivenNames x; refine OnlyM.cut (M0 := M0) (s0 := s0) x ?_ ?_ <;> first | (intro hx; clear_value x) | unfold x)
    | (extract_lets +onlyGivenNames x; clear_value x)
    | split

theorem State.descAccess_only {M0 : Nat} {s0 : State} {s : State} {q : Requester} {k w : Nat} {v : Word} (kp_s : OnlyM M0 s0 s)
    (hm : Sub 0x40000000000000000000000003011000000000188000000000000000104098000000000000000000020800C M0 := by exact Sub.of hm rfl) :
    OnlyM M0 s0 (State.descAccess s q k w v) := by
  unfold State.descAccess
  repeat' first
    | (refine Sub.of hm ?_; exact Eq.refl _) | (refine Sub.bit hm ?_; exact Eq.refl _)
    | (refine Or.inl (Sub.bit hm ?_); exact Eq.refl _) | with_reducible exact Or.inr rfl
    | intro _ | with_reducible assumption
    | with_reducible apply State.access_only | with_reducible apply State.mopRefuse_only
    | with_reducible apply State.descWrite_only | with_reducible apply OnlyOpt.none
    | with_reducible apply OnlyOpt.some | with_reducible apply OnlyM.ite
    | split | with_reducible apply OnlyM.update

theorem execDescriptorWrite_only {M0 : Nat} {s0 : State} {q : Requester} {k : SlotNo} {w : Fin 8} {v : Word} {s : State} (kp_s : OnlyM M0 s0 s)
    (hm : Sub 0x40000000000000000000000003011000000000188000000000000000104098000000000000000000020800C M0 := by exact Sub.of hm rfl) :
    OnlyOut M0 s0 (execDescriptorWrite q k w v s) := by
  unfold execDescriptorWrite
  repeat' first
    | (refine Sub.of hm ?_; exact Eq.refl _) | (refine Sub.bit hm ?_; exact Eq.refl _)
    | intro _ | with_reducible assumption
    | with_reducible apply State.descAccess_only | with_reducible apply OnlyOut.next
    | with_reducible apply OnlyOut.fault | with_reducible apply OnlyOut.ite

theorem State.doorbellCmd_only {M0 : Nat} {s0 : State} {s : State} {q : Requester} {k cmd : Nat} {f : Nat → State → Option State} (kp_s : OnlyM M0 s0 s) (kp_f : ∀ k t, OnlyM M0 s0 t → OnlyOpt M0 s0 (f k t))
    (hm : Sub 0x40000000000000000000000003011000000000188000000000000000000018000000000000000000020800C M0 := by exact Sub.of hm rfl) :
    OnlyM M0 s0 (State.doorbellCmd s q k cmd f) := by
  unfold State.doorbellCmd
  repeat' first
    | (refine Sub.of hm ?_; exact Eq.refl _) | (refine Sub.bit hm ?_; exact Eq.refl _)
    | (refine Or.inl (Sub.bit hm ?_); exact Eq.refl _) | with_reducible exact Or.inr rfl
    | intro _ | with_reducible assumption
    | with_reducible apply kp_f | with_reducible apply State.openWrite_only
    | with_reducible apply State.mopErr_only | with_reducible apply OnlyOpt.none
    | with_reducible apply OnlyOpt.some | with_reducible apply OnlyM.getDOpt
    | with_reducible apply OnlyM.ite
    | with_reducible (refine OnlyOpt.elim ?_ (by assumption))
    | split | with_reducible apply OnlyM.update

theorem State.mopQueue_only {M0 : Nat} {s0 : State} {s : State} {p k : Nat} (kp_s : OnlyM M0 s0 s)
    (hm : Sub 0x301100000002000000302403C00000010C180000000000000000000001940D M0 := by exact Sub.of hm rfl) :
    OnlyOpt M0 s0 (State.mopQueue s p k) := by
  unfold State.mopQueue
  repeat' first
    | (refine Sub.of hm ?_; exact Eq.refl _) | (refine Sub.bit hm ?_; exact Eq.refl _)
    | (refine Or.inl (Sub.bit hm ?_); exact Eq.refl _) | with_reducible exact Or.inr rfl
    | intro _ | with_reducible assumption
    | with_reducible apply State.queueSlot_only | with_reducible apply OnlyOpt.some
    | with_reducible apply OnlyOpt.none | with_reducible apply OnlyOpt.ite | with_reducible apply OnlyM.ite
    | split | with_reducible apply OnlyM.update

theorem State.endRequest_only {M0 : Nat} {s0 : State} {s : State} {k code : Nat} (kp_s : OnlyM M0 s0 s)
    (hm : Sub 0x301100000002000000302403C00000010C1800000000000C0010000001964D M0 := by exact Sub.of hm rfl) :
    OnlyM M0 s0 (State.endRequest s k code) := by
  unfold State.endRequest
  repeat' first
    | (refine Sub.of hm ?_; exact Eq.refl _) | (refine Sub.bit hm ?_; exact Eq.refl _)
    | intro _ | with_reducible assumption
    | with_reducible apply State.completeTx_only | with_reducible apply State.undefer_only
    | with_reducible apply State.requestEnd_only | with_reducible apply State.evaluate_only
    | with_reducible apply OnlyOpt.none | with_reducible apply OnlyOpt.some
    | with_reducible apply OnlyM.ite
    | (extract_lets +onlyGivenNames x; refine OnlyM.cut (M0 := M0) (s0 := s0) x ?_ ?_ <;> first | (intro hx; clear_value x) | unfold x)
    | (extract_lets +onlyGivenNames x; clear_value x)
    | split

theorem State.mopCancel_only {M0 : Nat} {s0 : State} {s : State} {p k : Nat} (kp_s : OnlyM M0 s0 s)
    (hm : Sub 0x301100000002000000302403C00000010C1800000000000C0010000001964D M0 := by exact Sub.of hm rfl) :
    OnlyOpt M0 s0 (State.mopCancel s p k) := by
  unfold State.mopCancel
  repeat' first
    | (refine Sub.of hm ?_; exact Eq.refl _) | (refine Sub.bit hm ?_; exact Eq.refl _)
    | (refine Or.inl (Sub.bit hm ?_); exact Eq.refl _) | with_reducible exact Or.inr rfl
    | intro _ | with_reducible assumption
    | with_reducible apply State.endRequest_only | with_reducible apply State.modSlot_only
    | with_reducible apply OnlyOpt.some | with_reducible apply OnlyOpt.none
    | with_reducible apply OnlyOpt.ite | with_reducible apply OnlyM.ite
    | (extract_lets +onlyGivenNames x; refine OnlyM.cut (M0 := M0) (s0 := s0) x ?_ ?_ <;> first | (intro hx; clear_value x) | unfold x)
    | (extract_lets +onlyGivenNames x; clear_value x)
    | split | with_reducible apply OnlyM.update

theorem State.mopRelease_only {M0 : Nat} {s0 : State} {s : State} {p k : Nat} (kp_s : OnlyM M0 s0 s)
    (hm : Sub 0x1070800000000000000000000000440 M0 := by exact Sub.of hm rfl) :
    OnlyOpt M0 s0 (State.mopRelease s p k) := by
  unfold State.mopRelease
  repeat' first
    | (refine Sub.of hm ?_; exact Eq.refl _) | (refine Sub.bit hm ?_; exact Eq.refl _)
    | intro _ | with_reducible assumption
    | with_reducible apply State.releaseRx_only | with_reducible apply OnlyOpt.some
    | with_reducible apply OnlyOpt.none | with_reducible apply OnlyOpt.ite | with_reducible apply OnlyM.ite
    | (extract_lets +onlyGivenNames x; refine OnlyM.cut (M0 := M0) (s0 := s0) x ?_ ?_ <;> first | (intro hx; clear_value x) | unfold x)
    | (extract_lets +onlyGivenNames x; clear_value x)
    | split

theorem State.mopAbandon_only {M0 : Nat} {s0 : State} {s : State} {p k : Nat} (kp_s : OnlyM M0 s0 s)
    (hm : Sub 0x1040800000000000000000000000000 M0 := by exact Sub.of hm rfl) :
    OnlyOpt M0 s0 (State.mopAbandon s p k) := by
  unfold State.mopAbandon
  repeat' first
    | (refine Sub.of hm ?_; exact Eq.refl _) | (refine Sub.bit hm ?_; exact Eq.refl _)
    | intro _ | with_reducible assumption
    | with_reducible apply State.setSlotState_only | with_reducible apply OnlyOpt.some
    | with_reducible apply OnlyOpt.none | with_reducible apply OnlyOpt.ite | with_reducible apply OnlyM.ite
    | split

theorem execQueue_only {M0 : Nat} {s0 : State} {q : Requester} {k : SlotNo} {s : State} (kp_s : OnlyM M0 s0 s)
    (hm : Sub 0x4000000000000000000000000301100000002018800302403C00000010C198000000000000000000021940D M0 := by exact Sub.of hm rfl) :
    OnlyOut M0 s0 (execQueue q k s) := by
  unfold execQueue
  repeat' first
    | (refine Sub.of hm ?_; exact Eq.refl _) | (refine Sub.bit hm ?_; exact Eq.refl _)
    | intro _ | with_reducible assumption
    | with_reducible apply State.doorbellCmd_only | with_reducible apply State.mopQueue_only
    | with_reducible apply OnlyOut.next | with_reducible apply OnlyOut.fault
    | with_reducible apply OnlyOut.ite
    | with_reducible (refine OnlyOpt.elim ?_ (by assumption))

theorem execCancel_only {M0 : Nat} {s0 : State} {q : Requester} {k : SlotNo} {s : State} (kp_s : OnlyM M0 s0 s)
    (hm : Sub 0x4000000000000000000000000301100000002018800302403C00000010C1980000000000C0010000021964D M0 := by exact Sub.of hm rfl) :
    OnlyOut M0 s0 (execCancel q k s) := by
  unfold execCancel
  repeat' first
    | (refine Sub.of hm ?_; exact Eq.refl _) | (refine Sub.bit hm ?_; exact Eq.refl _)
    | intro _ | with_reducible assumption
    | with_reducible apply State.doorbellCmd_only | with_reducible apply State.mopCancel_only
    | with_reducible apply OnlyOut.next | with_reducible apply OnlyOut.fault
    | with_reducible apply OnlyOut.ite
    | with_reducible (refine OnlyOpt.elim ?_ (by assumption))

theorem execRelease_only {M0 : Nat} {s0 : State} {q : Requester} {k : SlotNo} {s : State} (kp_s : OnlyM M0 s0 s)
    (hm : Sub 0x40000000000000000000000003011000000000188000000000000000107098000000000000000000020844C M0 := by exact Sub.of hm rfl) :
    OnlyOut M0 s0 (execRelease q k s) := by
  unfold execRelease
  repeat' first
    | (refine Sub.of hm ?_; exact Eq.refl _) | (refine Sub.bit hm ?_; exact Eq.refl _)
    | intro _ | with_reducible assumption
    | with_reducible apply State.doorbellCmd_only | with_reducible apply State.mopRelease_only
    | with_reducible apply OnlyOut.next | with_reducible apply OnlyOut.fault
    | with_reducible apply OnlyOut.ite
    | with_reducible (refine OnlyOpt.elim ?_ (by assumption))

theorem execAbandon_only {M0 : Nat} {s0 : State} {q : Requester} {k : SlotNo} {s : State} (kp_s : OnlyM M0 s0 s)
    (hm : Sub 0x40000000000000000000000003011000000000188000000000000000104098000000000000000000020800C M0 := by exact Sub.of hm rfl) :
    OnlyOut M0 s0 (execAbandon q k s) := by
  unfold execAbandon
  repeat' first
    | (refine Sub.of hm ?_; exact Eq.refl _) | (refine Sub.bit hm ?_; exact Eq.refl _)
    | intro _ | with_reducible assumption
    | with_reducible apply State.doorbellCmd_only | with_reducible apply State.mopAbandon_only
    | with_reducible apply OnlyOut.next | with_reducible apply OnlyOut.fault
    | with_reducible apply OnlyOut.ite
    | with_reducible (refine OnlyOpt.elim ?_ (by assumption))

theorem execDoorbellIgnored_only {M0 : Nat} {s0 : State} {q : Requester} {k : SlotNo} {cmd : Fin 16} {s : State} (kp_s : OnlyM M0 s0 s)
    (hm : Sub 0x40000000000000000000000003011000000000188000000000000000000018000000000000000000020800C M0 := by exact Sub.of hm rfl) :
    OnlyOut M0 s0 (execDoorbellIgnored q k cmd s) := by
  unfold execDoorbellIgnored
  repeat' first
    | (refine Sub.of hm ?_; exact Eq.refl _) | (refine Sub.bit hm ?_; exact Eq.refl _)
    | intro _ | with_reducible assumption
    | with_reducible apply State.doorbellCmd_only | with_reducible apply OnlyOut.next
    | with_reducible apply OnlyOut.fault | with_reducible apply OnlyOut.ite
    | with_reducible apply OnlyOpt.none | with_reducible apply OnlyOpt.some

theorem execPortSelect_only {M0 : Nat} {s0 : State} {n : PortNo} {s : State} (kp_s : OnlyM M0 s0 s)
    (hm : Sub 0x80000000000000000000000000000 M0 := by exact Sub.of hm rfl) :
    OnlyOut M0 s0 (execPortSelect n s) := by
  unfold execPortSelect
  repeat' first
    | (refine Sub.of hm ?_; exact Eq.refl _) | (refine Sub.bit hm ?_; exact Eq.refl _)
    | (refine Or.inl (Sub.bit hm ?_); exact Eq.refl _) | with_reducible exact Or.inr rfl
    | with_reducible refine State.set_only (MOP_PORTHEAD_SLOT_holds ..) ?_ ?_
    | with_reducible refine State.put_only (MOP_PORTHEAD_VALID_holds ..) ?_ ?_
    | intro _ | with_reducible assumption
    | with_reducible apply OnlyOut.next | with_reducible apply OnlyOut.fault
    | with_reducible apply OnlyOut.ite | with_reducible apply OnlyOpt.none
    | with_reducible apply OnlyOpt.some | with_reducible apply OnlyM.ite
    | split | with_reducible apply OnlyM.update

theorem execTxDeadline_only {M0 : Nat} {s0 : State} {k : SlotNo} {s : State} (kp_s : OnlyM M0 s0 s)
    (hm : Sub 0x301100000002000000302403C00000010C1800000000000C0010000001964D M0 := by exact Sub.of hm rfl) :
    OnlyOut M0 s0 (execTxDeadline k s) := by
  unfold execTxDeadline
  repeat' first
    | (refine Sub.of hm ?_; exact Eq.refl _) | (refine Sub.bit hm ?_; exact Eq.refl _)
    | intro _ | with_reducible assumption
    | with_reducible apply State.endRequest_only | with_reducible apply OnlyOut.next
    | with_reducible apply OnlyOut.fault | with_reducible apply OnlyOut.ite
    | with_reducible apply OnlyM.ite
    | (extract_lets +onlyGivenNames x; refine OnlyM.cut (M0 := M0) (s0 := s0) x ?_ ?_ <;> first | (intro hx; clear_value x) | unfold x)
    | (extract_lets +onlyGivenNames x; clear_value x)
    | split

theorem State.setMonNext_only {M0 : Nat} {s0 : State} {s : State} {m t : Nat} (kp_s : OnlyM M0 s0 s)
    (hm : Sub 0x400000000000000000000000000000 M0 := by exact Sub.of hm rfl) :
    OnlyM M0 s0 (State.setMonNext s m t) := by
  unfold State.setMonNext
  repeat' first
    | (refine Sub.of hm ?_; exact Eq.refl _) | (refine Sub.bit hm ?_; exact Eq.refl _)

    | with_reducible refine State.setStamp_only (Part.holds.own (MOP_MON_NEXT_NS_holds ..)) (MOP_MON_NEXT_NS_next ..) ?_ ?_
    | intro _ | with_reducible assumption

theorem State.monWrite_only {M0 : Nat} {s0 : State} {s : State} {q : Requester} {m k : Nat} {en oneshot miss : Bool} (kp_s : OnlyM M0 s0 s)
    (hm : Sub 0x3011000000000000000000000000000050018000000000000000000000000C M0 := by exact Sub.of hm rfl) :
    OnlyM M0 s0 (State.monWrite s q m k en oneshot miss) := by
  unfold State.monWrite
  repeat' first
    | (refine Sub.of hm ?_; exact Eq.refl _) | (refine Sub.bit hm ?_; exact Eq.refl _)
    | with_reducible refine State.set_only (MOP_MON_CFG_SLOT_holds ..) ?_ ?_
    | with_reducible refine State.put_only (MOP_MON_CFG_EN_holds ..) ?_ ?_
    | with_reducible refine State.put_only (MOP_MON_CFG_ONESHOT_holds ..) ?_ ?_
    | with_reducible refine State.put_only (MOP_MON_CFG_TAINT_MISS_holds ..) ?_ ?_
    | intro _ | with_reducible assumption
    | with_reducible apply State.mopErr_only | with_reducible apply State.setMonNext_only
    | with_reducible apply OnlyM.ite
    | (extract_lets +onlyGivenNames x; refine OnlyM.cut (M0 := M0) (s0 := s0) x ?_ ?_ <;> first | (intro hx; clear_value x) | unfold x)
    | (extract_lets +onlyGivenNames x; clear_value x)
    | split

theorem execMonitorArm_only {M0 : Nat} {s0 : State} {q : Requester} {m : Fin 4096} {k : SlotNo} {oneshot miss : Bool} {s : State} (kp_s : OnlyM M0 s0 s)
    (hm : Sub 0x40000000000000000000000003011000000000188000000000000000050018000000000000000000020800C M0 := by exact Sub.of hm rfl) :
    OnlyOut M0 s0 (execMonitorArm q m k oneshot miss s) := by
  unfold execMonitorArm
  repeat' first
    | (refine Sub.of hm ?_; exact Eq.refl _) | (refine Sub.bit hm ?_; exact Eq.refl _)
    | intro _ | with_reducible assumption
    | with_reducible apply State.openWrite_only | with_reducible apply State.monWrite_only
    | with_reducible apply OnlyOut.next | with_reducible apply OnlyOut.fault
    | with_reducible apply OnlyOut.ite

theorem State.monTimeout_only {M0 : Nat} {s0 : State} {s : State} {m : Nat} (kp_s : OnlyM M0 s0 s)
    (hm : Sub 0x10110000000000000000000000000000D0000000000000000000000000000C M0 := by exact Sub.of hm rfl) :
    OnlyM M0 s0 (State.monTimeout s m) := by
  unfold State.monTimeout
  repeat' first
    | (refine Sub.of hm ?_; exact Eq.refl _) | (refine Sub.bit hm ?_; exact Eq.refl _)
    | (refine Or.inl (Sub.bit hm ?_); exact Eq.refl _) | with_reducible exact Or.inr rfl
    | with_reducible refine State.inc_only (MOP_MON_STAT_TIMEOUTS_holds ..) ?_ ?_
    | with_reducible refine State.put_only (MOP_MON_CFG_EN_holds ..) ?_ ?_
    | intro _ | with_reducible assumption | with_reducible apply State.post_only | with_reducible apply State.setMonNext_only
    | with_reducible apply OnlyOpt.none | with_reducible apply OnlyOpt.some
    | with_reducible apply OnlyM.ite
    | (extract_lets +onlyGivenNames x; refine OnlyM.cut (M0 := M0) (s0 := s0) x ?_ ?_ <;> first | (intro hx; clear_value x) | unfold x)
    | (extract_lets +onlyGivenNames x; clear_value x)
    | split | with_reducible apply OnlyM.update

theorem execMonitorDeadline_only {M0 : Nat} {s0 : State} {m : Fin 4096} {s : State} (kp_s : OnlyM M0 s0 s)
    (hm : Sub 0x10110000000000000000000000000000D0000000000000000000000000000C M0 := by exact Sub.of hm rfl) :
    OnlyOut M0 s0 (execMonitorDeadline m s) := by
  unfold execMonitorDeadline
  repeat' first
    | (refine Sub.of hm ?_; exact Eq.refl _) | (refine Sub.bit hm ?_; exact Eq.refl _)
    | intro _ | with_reducible assumption
    | with_reducible apply State.monTimeout_only | with_reducible apply OnlyOut.next
    | with_reducible apply OnlyOut.fault | with_reducible apply OnlyOut.ite
    | with_reducible apply OnlyM.ite
    | split

theorem State.monCatchUp_only {M0 : Nat} {s0 s : State} {m t k : Nat} (hs : OnlyM M0 s0 s)
    (hm : Sub 0x10110000000000000000000000000000D0000000000000000000000000000C M0 := by exact Sub.of hm rfl) : OnlyM M0 s0 (s.monCatchUp m t k) := by
  induction k generalizing s with
  | zero => exact hs
  | succ k ih =>
    unfold State.monCatchUp
    repeat' first
      | (refine Sub.of hm ?_; exact Eq.refl _) | (refine Sub.bit hm ?_; exact Eq.refl _)
      | (refine Or.inl (Sub.bit hm ?_); exact Eq.refl _) | with_reducible exact Or.inr rfl
      | intro _ | with_reducible assumption
      | with_reducible exact trivial
      | with_reducible apply ih | with_reducible apply State.monTimeout_only
      | with_reducible apply State.each_only | with_reducible apply State.when_only | with_reducible apply OnlyM.ite
      | (extract_lets +onlyGivenNames x; refine OnlyM.cut (M0 := M0) (s0 := s0) x ?_ ?_ <;> first | (intro hx; clear_value x) | unfold x)
      | (extract_lets +onlyGivenNames x; clear_value x)
      | with_reducible (refine OnlyOpt.elim ?_ (by assumption)) | with_reducible (refine OnlyM.pair ?_ (by assumption))
      | split | with_reducible apply OnlyM.update

theorem State.monFrame_only {M0 : Nat} {s0 : State} {s : State} {k t : Nat} {taint : Bool} (kp_s : OnlyM M0 s0 s)
    (hm : Sub 0x10110000000000000000000000000000D0000000000000000000000000000C M0 := by exact Sub.of hm rfl) :
    OnlyM M0 s0 (State.monFrame s k t taint) := by
  unfold State.monFrame
  repeat' first
    | (refine Sub.of hm ?_; exact Eq.refl _) | (refine Sub.bit hm ?_; exact Eq.refl _)
    | with_reducible refine State.inc_only (MOP_MON_STAT_HITS_holds ..) ?_ ?_
    | intro _ | with_reducible assumption
    | with_reducible apply State.monCatchUp_only
    | with_reducible apply State.setMonNext_only | with_reducible apply State.each_only
    | with_reducible apply OnlyM.ite
    | (extract_lets +onlyGivenNames x; refine OnlyM.cut (M0 := M0) (s0 := s0) x ?_ ?_ <;> first | (intro hx; clear_value x) | unfold x)
    | (extract_lets +onlyGivenNames x; clear_value x)
    | split

theorem State.mailbox_only {M0 : Nat} {s0 : State} {s : State} {k p : Nat} {f : Frame} {stamp wp : Nat} {taint : Bool} {entry : Option Nat} (kp_s : OnlyM M0 s0 s)
    (hm : Sub 0x30110000000200000000000000000001D4180000000000000000000001840D M0 := by exact Sub.of hm rfl) :
    OnlyM M0 s0 (State.mailbox s k p f stamp wp taint entry) := by
  unfold State.mailbox
  repeat' first
    | (refine Sub.of hm ?_; exact Eq.refl _) | (refine Sub.bit hm ?_; exact Eq.refl _)
    | (refine Or.inl (Sub.bit hm ?_); exact Eq.refl _) | with_reducible exact Or.inr rfl
    | intro _ | with_reducible assumption
    | with_reducible apply State.countDrop_only | with_reducible apply State.modSlot_only
    | with_reducible apply State.fillRx_only | with_reducible apply State.monFrame_only
    | with_reducible apply OnlyM.ite
    | (extract_lets +onlyGivenNames x; refine OnlyM.cut (M0 := M0) (s0 := s0) x ?_ ?_ <;> first | (intro hx; clear_value x) | unfold x)
    | (extract_lets +onlyGivenNames x; clear_value x)
    | split | with_reducible apply OnlyM.update

theorem State.dropTx_only {M0 : Nat} {s0 : State} {s : State} {code k : Nat} (kp_s : OnlyM M0 s0 s)
    (hm : Sub 0x301100000002000000302403C00000010C1800000000000C0010000001964D M0 := by exact Sub.of hm rfl) :
    OnlyM M0 s0 (State.dropTx s code k) := by
  unfold State.dropTx
  repeat' first
    | (refine Sub.of hm ?_; exact Eq.refl _) | (refine Sub.bit hm ?_; exact Eq.refl _)
    | (refine Or.inl (Sub.bit hm ?_); exact Eq.refl _) | with_reducible exact Or.inr rfl
    | intro _ | with_reducible assumption
    | with_reducible apply State.endRequest_only | with_reducible apply State.modSlot_only
    | with_reducible apply State.completeTx_only | with_reducible apply OnlyOpt.none
    | with_reducible apply OnlyOpt.some | with_reducible apply OnlyM.ite
    | (extract_lets +onlyGivenNames x; refine OnlyM.cut (M0 := M0) (s0 := s0) x ?_ ?_ <;> first | (intro hx; clear_value x) | unfold x)
    | (extract_lets +onlyGivenNames x; clear_value x)
    | split | with_reducible apply OnlyM.update

theorem State.dropSlot_only {M0 : Nat} {s0 : State} {s : State} {p code : Nat} {clear : Bool} {k : Nat} (kp_s : OnlyM M0 s0 s)
    (hm : Sub 0x301100000002000000302403C00000010F1800000000000C0010000001964D M0 := by exact Sub.of hm rfl) :
    OnlyM M0 s0 (State.dropSlot s p code clear k) := by
  unfold State.dropSlot
  repeat' first
    | (refine Sub.of hm ?_; exact Eq.refl _) | (refine Sub.bit hm ?_; exact Eq.refl _)
    | intro _ | with_reducible assumption
    | with_reducible apply State.dropTx_only | with_reducible apply State.zeroBuf_only
    | with_reducible apply State.releaseRx_only | with_reducible apply State.when_only
    | with_reducible apply OnlyM.ite
    | (extract_lets +onlyGivenNames x; refine OnlyM.cut (M0 := M0) (s0 := s0) x ?_ ?_ <;> first | (intro hx; clear_value x) | unfold x)
    | (extract_lets +onlyGivenNames x; clear_value x)
    | split

theorem State.dropAdmissions_only {M0 : Nat} {s0 : State} {s : State} {p : Nat} (kp_s : OnlyM M0 s0 s)
    (hm : Sub 0x30000000000000000000000000440 M0 := by exact Sub.of hm rfl) :
    OnlyM M0 s0 (State.dropAdmissions s p) := by
  unfold State.dropAdmissions
  repeat' first
    | (refine Sub.of hm ?_; exact Eq.refl _) | (refine Sub.bit hm ?_; exact Eq.refl _)
    | (refine Or.inl (Sub.bit hm ?_); exact Eq.refl _) | with_reducible exact Or.inr rfl
    | intro _ | with_reducible assumption
    | with_reducible apply State.cancelAdmission_only | with_reducible apply State.modPort_only
    | with_reducible apply State.each_only | with_reducible apply OnlyOpt.none
    | with_reducible apply OnlyOpt.some | with_reducible apply OnlyM.ite
    | split | with_reducible apply OnlyM.update

theorem State.dropPool_only {M0 : Nat} {s0 : State} {s : State} {p code : Nat} {clear : Bool} (kp_s : OnlyM M0 s0 s)
    (hm : Sub 0x301100000002000000302403C00000010F1800000000000C0010000001964D M0 := by exact Sub.of hm rfl) :
    OnlyM M0 s0 (State.dropPool s p code clear) := by
  unfold State.dropPool
  repeat' first
    | (refine Sub.of hm ?_; exact Eq.refl _) | (refine Sub.bit hm ?_; exact Eq.refl _)
    | intro _ | with_reducible assumption
    | with_reducible apply State.dropAdmissions_only | with_reducible apply State.dropSlot_only
    | with_reducible apply State.each_only

theorem State.fixBufs_only {M0 : Nat} {s0 s : State} {f : Nat} {ks : List (Nat × Bool × Bool)} {p : List Nat × List Nat}
    (hs : OnlyM M0 s0 s) (hm : Sub 0x1030000000000000000000000000400 M0 := by exact Sub.of hm rfl) : OnlyM M0 s0 (s.fixBufs f ks p) := by
  induction ks generalizing s p with
  | nil => obtain ⟨l, m⟩ := p; exact State.setFreeBufs_only hs
  | cons k ks ih =>
    obtain ⟨k, mbx, large⟩ := k
    obtain ⟨l, m⟩ := p
    unfold State.fixBufs
    repeat' first
      | (refine Sub.of hm ?_; exact Eq.refl _) | (refine Sub.bit hm ?_; exact Eq.refl _)
      | (refine Or.inl (Sub.bit hm ?_); exact Eq.refl _) | with_reducible exact Or.inr rfl
      | intro _ | with_reducible assumption
      | with_reducible exact trivial
      | with_reducible apply ih | with_reducible apply State.setBuf_only
      | with_reducible apply State.modSlot_only
      | with_reducible apply State.each_only | with_reducible apply State.when_only | with_reducible apply OnlyM.ite
      | (extract_lets +onlyGivenNames x; refine OnlyM.cut (M0 := M0) (s0 := s0) x ?_ ?_ <;> first | (intro hx; clear_value x) | unfold x)
      | (extract_lets +onlyGivenNames x; clear_value x)
      | with_reducible (refine OnlyOpt.elim ?_ (by assumption)) | with_reducible (refine OnlyM.pair ?_ (by assumption))
      | split | with_reducible apply OnlyM.update

theorem State.layoutFsp_only {M0 : Nat} {s0 : State} {s : State} {f : Nat} (kp_s : OnlyM M0 s0 s)
    (hm : Sub 0x1030000000000000000000000000400 M0 := by exact Sub.of hm rfl) :
    OnlyM M0 s0 (State.layoutFsp s f) := by
  unfold State.layoutFsp
  repeat' first
    | (refine Sub.of hm ?_; exact Eq.refl _) | (refine Sub.bit hm ?_; exact Eq.refl _)
    | intro _ | with_reducible assumption
    | with_reducible apply State.fixBufs_only
    | (extract_lets +onlyGivenNames x; refine OnlyM.cut (M0 := M0) (s0 := s0) x ?_ ?_ <;> first | (intro hx; clear_value x) | unfold x)
    | (extract_lets +onlyGivenNames x; clear_value x)

theorem State.fspRelayout_only {M0 : Nat} {s0 : State} {s : State} {f : Nat} (kp_s : OnlyM M0 s0 s)
    (hm : Sub 0x301100000002000000302403C00000010FF80000000000000000000001940D M0 := by exact Sub.of hm rfl) :
    OnlyM M0 s0 (State.fspRelayout s f) := by
  unfold State.fspRelayout
  repeat' first
    | (refine Sub.of hm ?_; exact Eq.refl _) | (refine Sub.bit hm ?_; exact Eq.refl _)
    | (refine Or.inl (Sub.bit hm ?_); exact Eq.refl _) | with_reducible exact Or.inr rfl
    | with_reducible refine State.setWord_only (Part.holds.own (MOP_FSP_BASE_BASE_holds ..)) ?_ ?_
    | with_reducible refine State.setWord_only (Part.holds.own (MOP_FSP_CNT_NSMALL_holds ..)) ?_ ?_
    | with_reducible refine State.setWord_only (Part.holds.own (MOP_FSP_RSV_RSV_SMALL_holds ..)) ?_ ?_
    | intro _ | with_reducible assumption | with_reducible apply State.layoutFsp_only
    | with_reducible apply State.mopQueue_only | with_reducible apply State.each_only
    | with_reducible apply OnlyOpt.none | with_reducible apply OnlyOpt.some
    | with_reducible apply OnlyM.getDOpt | with_reducible apply OnlyM.ite
    | (extract_lets +onlyGivenNames x; refine OnlyM.cut (M0 := M0) (s0 := s0) x ?_ ?_ <;> first | (intro hx; clear_value x) | unfold x)
    | (extract_lets +onlyGivenNames x; clear_value x)
    | with_reducible (refine OnlyOpt.elim ?_ (by assumption))
    | split | with_reducible apply OnlyM.update

theorem execFspRelayout_only {M0 : Nat} {s0 : State} {f : Fin 256} {s : State} (kp_s : OnlyM M0 s0 s)
    (hm : Sub 0x301100000002000000302403C00000010FF80000000000000000000001940D M0 := by exact Sub.of hm rfl) :
    OnlyOut M0 s0 (execFspRelayout f s) := by
  unfold execFspRelayout
  repeat' first
    | (refine Sub.of hm ?_; exact Eq.refl _) | (refine Sub.bit hm ?_; exact Eq.refl _)
    | intro _ | with_reducible assumption
    | with_reducible apply State.fspRelayout_only | with_reducible apply OnlyOut.next
    | with_reducible apply OnlyOut.fault | with_reducible apply OnlyOut.ite

end Sys2Proof.Machine
end

