-- ==== Sys2Proof/Laws/OnlyObsOps.lean ====
section
/-! SUPPORT. Which parts each operation of `Machine/ObsOps.lean` may change, and that it keeps what every command keeps: each
lemma follows the operation's own text, piece by piece, and gives the parts as a set of part numbers. -/

namespace Sys2Proof.Machine

theorem State.setWpLast_only {M0 : Nat} {s0 : State} {s : State} {n : Nat} {c : Nat × Nat × Nat} {fs : List Feature} (kp_s : OnlyM M0 s0 s)
    (hm : Sub 0xA00000000000000000000 M0 := by exact Sub.of hm rfl) :
    OnlyM M0 s0 (State.setWpLast s n c fs) := by
  unfold State.setWpLast
  repeat' first
    | (refine Sub.of hm ?_; exact Eq.refl _) | (refine Sub.bit hm ?_; exact Eq.refl _)
    | with_reducible refine State.set_only (OBS_WP_LAST_RESULT_holds ..) ?_ ?_
    | with_reducible refine State.set_only (OBS_WP_LAST_NOUT_holds ..) ?_ ?_
    | with_reducible refine State.set_only (OBS_WP_LAST_NUSE_holds ..) ?_ ?_
    | with_reducible refine State.put_only (clippedLoc_holds ..) ?_ ?_
    | with_reducible refine State.setInt_only (OBS_WP_FEAT_LO_holds ..) ?_ ?_
    | with_reducible refine State.setInt_only (OBS_WP_FEAT_HI_holds ..) ?_ ?_
    | intro _ | with_reducible assumption | with_reducible apply State.each_only
    | with_reducible apply OnlyM.ite
    | (extract_lets +onlyGivenNames x; refine OnlyM.cut (M0 := M0) (s0 := s0) x ?_ ?_ <;> first | (intro hx; clear_value x) | unfold x)
    | (extract_lets +onlyGivenNames x; clear_value x)
    | split

theorem State.wingResult_only {M0 : Nat} {s0 : State} {s : State} {n sig : Nat} {xl : Bool} {w : Option Wingprint} (kp_s : OnlyM M0 s0 s)
    (hm : Sub 0xA00000000000000000000 M0 := by exact Sub.of hm rfl) :
    OnlyM M0 s0 (State.wingResult s n sig xl w).2 := by
  unfold State.wingResult
  repeat' first
    | (refine Sub.of hm ?_; exact Eq.refl _) | (refine Sub.bit hm ?_; exact Eq.refl _)
    | (refine Or.inl (Sub.bit hm ?_); exact Eq.refl _) | with_reducible exact Or.inr rfl
    | intro _ | with_reducible assumption
    | with_reducible apply State.setWpLast_only | with_reducible apply OnlyM.ite
    | (extract_lets +onlyGivenNames x; refine OnlyM.cut (M0 := M0) (s0 := s0) x ?_ ?_ <;> first | (intro hx; clear_value x) | unfold x)
    | (extract_lets +onlyGivenNames x; clear_value x)
    | split | with_reducible apply OnlyM.update

theorem State.wingReport_only {M0 : Nat} {s0 : State} {s : State} {n : Nat} {c : Nat × Nat × Nat} {slot : Option Nat} (kp_s : OnlyM M0 s0 s)
    (hm : Sub 0x301100000000000000000000000000000000040004000000000000000000CC M0 := by exact Sub.of hm rfl) :
    OnlyM M0 s0 (State.wingReport s n c slot) := by
  unfold State.wingReport
  repeat' first
    | (refine Sub.of hm ?_; exact Eq.refl _) | (refine Sub.bit hm ?_; exact Eq.refl _)
    | (refine Or.inl (Sub.bit hm ?_); exact Eq.refl _) | with_reducible exact Or.inr rfl
    | with_reducible refine State.inc_only (OBS_WP_CNT_MISMATCH_holds ..) ?_ ?_
    | with_reducible refine State.inc_only (OBS_WP_CNT_UNDECIDED_holds ..) ?_ ?_
    | intro _ | with_reducible assumption | with_reducible apply State.obsCause_only
    | with_reducible apply State.capTrigger_only | with_reducible apply State.when_only
    | with_reducible apply OnlyM.ite
    | (extract_lets +onlyGivenNames x; refine OnlyM.cut (M0 := M0) (s0 := s0) x ?_ ?_ <;> first | (intro hx; clear_value x) | unfold x)
    | (extract_lets +onlyGivenNames x; clear_value x)
    | split | with_reducible apply OnlyM.update

theorem State.setEnrSq_only {M0 : Nat} {s0 : State} {s : State} {n k : Nat} {a : Int × Bool} (kp_s : OnlyM M0 s0 s)
    (hm : Sub 0xA0000000000000000000C0 M0 := by exact Sub.of hm rfl) :
    OnlyM M0 s0 (State.setEnrSq s n k a) := by
  unfold State.setEnrSq
  repeat' first
    | (refine Sub.of hm ?_; exact Eq.refl _) | (refine Sub.bit hm ?_; exact Eq.refl _)
    | (refine Or.inl (Sub.bit hm ?_); exact Eq.refl _) | with_reducible exact Or.inr rfl
    | with_reducible refine State.setInt_only (OBS_ENR_SQ_SQ_holds ..) ?_ ?_
    | with_reducible refine State.put_only (clipLoc_holds ..) ?_ ?_
    | intro _ | with_reducible assumption
    | with_reducible apply State.modObs_only | with_reducible apply State.when_only
    | with_reducible apply OnlyM.ite
    | (extract_lets +onlyGivenNames x; refine OnlyM.cut (M0 := M0) (s0 := s0) x ?_ ?_ <;> first | (intro hx; clear_value x) | unfold x)
    | (extract_lets +onlyGivenNames x; clear_value x)
    | split | with_reducible apply OnlyM.update

theorem State.enrFeature_only {M0 : Nat} {s0 : State} {s : State} {n k : Nat} {v : Int} (kp_s : OnlyM M0 s0 s)
    (hm : Sub 0x1E0000000000000000000C0 M0 := by exact Sub.of hm rfl) :
    OnlyM M0 s0 (State.enrFeature s n k v) := by
  unfold State.enrFeature
  repeat' first
    | (refine Sub.of hm ?_; exact Eq.refl _) | (refine Sub.bit hm ?_; exact Eq.refl _)
    | with_reducible refine State.setInt_only (OBS_ENR_SUM_SUM_holds ..) ?_ ?_
    | with_reducible refine State.inc_only (OBS_ENR_USE_LO_holds ..) ?_ ?_
    | with_reducible refine State.inc_only (OBS_ENR_USE_HI_holds ..) ?_ ?_
    | intro _ | with_reducible assumption | with_reducible apply State.setEnrSq_only | with_reducible apply OnlyM.ite
    | (extract_lets +onlyGivenNames x; refine OnlyM.cut (M0 := M0) (s0 := s0) x ?_ ?_ <;> first | (intro hx; clear_value x) | unfold x)
    | (extract_lets +onlyGivenNames x; clear_value x)
    | split

theorem State.enrDone_only {M0 : Nat} {s0 : State} {s : State} {n : Nat} (kp_s : OnlyM M0 s0 s)
    (hm : Sub 0x3011000000000000000000000000000000000000A0800000000000000000CC M0 := by exact Sub.of hm rfl) :
    OnlyM M0 s0 (State.enrDone s n) := by
  unfold State.enrDone
  repeat' first
    | (refine Sub.of hm ?_; exact Eq.refl _) | (refine Sub.bit hm ?_; exact Eq.refl _)
    | with_reducible refine State.set_only (OBS_STAT_ENR_holds ..) ?_ ?_
    | intro _ | with_reducible assumption
    | with_reducible apply State.setEnrSq_only
    | with_reducible apply State.obsCause_only | with_reducible apply State.each_only
    | with_reducible apply OnlyM.ite
    | (extract_lets +onlyGivenNames x; refine OnlyM.cut (M0 := M0) (s0 := s0) x ?_ ?_ <;> first | (intro hx; clear_value x) | unfold x)
    | (extract_lets +onlyGivenNames x; clear_value x)
    | split

theorem State.enrFrame_only {M0 : Nat} {s0 : State} {s : State} {n : Nat} {f : Frame} {w : Wingprint} (kp_s : OnlyM M0 s0 s)
    (hm : Sub 0x3011000000000000000000000000000000000001E0800000000000000000CC M0 := by exact Sub.of hm rfl) :
    OnlyM M0 s0 (State.enrFrame s n f w) := by
  unfold State.enrFrame
  repeat' first
    | (refine Sub.of hm ?_; exact Eq.refl _) | (refine Sub.bit hm ?_; exact Eq.refl _)
    | with_reducible refine State.put_only (OBS_ENR_STAT_CLASS_holds ..) ?_ ?_
    | with_reducible refine State.inc_only (OBS_ENR_STAT_DONE_holds ..) ?_ ?_
    | intro _ | with_reducible assumption | with_reducible apply State.enrFeature_only | with_reducible apply State.enrDone_only
    | with_reducible apply State.each_only | with_reducible apply OnlyM.id | with_reducible apply OnlyM.ite
    | (extract_lets +onlyGivenNames x; refine OnlyM.cut (M0 := M0) (s0 := s0) x ?_ ?_ <;> first | (intro hx; clear_value x) | unfold x)
    | (extract_lets +onlyGivenNames x; clear_value x)
    | split

theorem State.saw_only {M0 : Nat} {s0 : State} {s : State} {n k t : Nat} (kp_s : OnlyM M0 s0 s)
    (hm : Sub 0xC0 M0 := by exact Sub.of hm rfl) :
    OnlyM M0 s0 (State.saw s n k t) := by
  unfold State.saw
  repeat' first
    | (refine Sub.of hm ?_; exact Eq.refl _) | (refine Sub.bit hm ?_; exact Eq.refl _)
    | (refine Or.inl (Sub.bit hm ?_); exact Eq.refl _) | with_reducible exact Or.inr rfl
    | intro _ | with_reducible assumption
    | with_reducible apply State.modObs_only | with_reducible apply OnlyOpt.none
    | with_reducible apply OnlyOpt.some | with_reducible apply OnlyM.ite
    | (extract_lets +onlyGivenNames x; refine OnlyM.cut (M0 := M0) (s0 := s0) x ?_ ?_ <;> first | (intro hx; clear_value x) | unfold x)
    | (extract_lets +onlyGivenNames x; clear_value x)
    | split | with_reducible apply OnlyM.update

theorem State.cenStatus_only {M0 : Nat} {s0 : State} {s : State} {n k st : Nat} {t : Option Nat} (kp_s : OnlyM M0 s0 s)
    (hm : Sub 0x301100000000000000000000000000000000240000000000000000000000CC M0 := by exact Sub.of hm rfl) :
    OnlyM M0 s0 (State.cenStatus s n k st t) := by
  unfold State.cenStatus
  repeat' first
    | (refine Sub.of hm ?_; exact Eq.refl _) | (refine Sub.bit hm ?_; exact Eq.refl _)
    | (refine Or.inl (Sub.bit hm ?_); exact Eq.refl _) | with_reducible exact Or.inr rfl
    | with_reducible refine State.set_only (OBS_CEN_RES_STATUS_holds ..) ?_ ?_
    | with_reducible refine State.setStamp_only (Part.holds.own (OBS_CEN_RES_W_holds ..)) (OBS_CEN_RES_W_next ..) ?_ ?_
    | intro _ | with_reducible assumption
    | with_reducible apply State.capTrigger_only | with_reducible apply State.obsCause_only
    | with_reducible apply State.when_only | with_reducible apply OnlyM.ite
    | (extract_lets +onlyGivenNames x; refine OnlyM.cut (M0 := M0) (s0 := s0) x ?_ ?_ <;> first | (intro hx; clear_value x) | unfold x)
    | (extract_lets +onlyGivenNames x; clear_value x)
    | split | with_reducible apply OnlyM.update

theorem State.cenSettle_only {M0 : Nat} {s0 : State} {s : State} {n k : Nat} (kp_s : OnlyM M0 s0 s)
    (hm : Sub 0x301100000000000000000000000000000000240000000000000000000000CC M0 := by exact Sub.of hm rfl) :
    OnlyM M0 s0 (State.cenSettle s n k) := by
  unfold State.cenSettle
  repeat' first
    | (refine Sub.of hm ?_; exact Eq.refl _) | (refine Sub.bit hm ?_; exact Eq.refl _)

    | with_reducible refine State.setStamp_only (Part.holds.own (OBS_CEN_RES_W_holds ..)) (OBS_CEN_RES_W_next ..) ?_ ?_
    | intro _ | with_reducible assumption | with_reducible apply State.cenStatus_only
    | with_reducible apply OnlyM.ite
    | (extract_lets +onlyGivenNames x; refine OnlyM.cut (M0 := M0) (s0 := s0) x ?_ ?_ <;> first | (intro hx; clear_value x) | unfold x)
    | (extract_lets +onlyGivenNames x; clear_value x)
    | split

theorem State.cenUnknown_only {M0 : Nat} {s0 : State} {s : State} {n : Nat} {c : CenFrame} (kp_s : OnlyM M0 s0 s)
    (hm : Sub 0x3011000000000000000000000000000000000190000000000000000000000C M0 := by exact Sub.of hm rfl) :
    OnlyM M0 s0 (State.cenUnknown s n c) := by
  unfold State.cenUnknown
  repeat' first
    | (refine Sub.of hm ?_; exact Eq.refl _) | (refine Sub.bit hm ?_; exact Eq.refl _)
    | with_reducible refine State.inc_only (OBS_CEN_STAT_UNK_holds ..) ?_ ?_
    | with_reducible refine State.set_only (OBS_CEN_UNK_ID_holds ..) ?_ ?_
    | with_reducible refine State.put_only (OBS_CEN_UNK_IDE_holds ..) ?_ ?_
    | with_reducible refine State.put_only (OBS_CEN_UNK_VALID_holds ..) ?_ ?_
    | with_reducible refine State.setStamp_only (Part.holds.own (OBS_CEN_UNK_T_NS_holds ..)) (OBS_CEN_UNK_T_NS_next ..) ?_ ?_
    | intro _ | with_reducible assumption
    | with_reducible apply State.obsCause_only | with_reducible apply OnlyM.id
    | with_reducible apply OnlyM.ite
    | (extract_lets +onlyGivenNames x; refine OnlyM.cut (M0 := M0) (s0 := s0) x ?_ ?_ <;> first | (intro hx; clear_value x) | unfold x)
    | (extract_lets +onlyGivenNames x; clear_value x)
    | split

theorem State.cenTake_only {M0 : Nat} {s0 : State} {s : State} {n : Nat} {c : CenFrame} (kp_s : OnlyM M0 s0 s)
    (hm : Sub 0x301100000000000000000000000000000000259000000000000000000000CC M0 := by exact Sub.of hm rfl) :
    OnlyM M0 s0 (State.cenTake s n c) := by
  unfold State.cenTake
  repeat' first
    | (refine Sub.of hm ?_; exact Eq.refl _) | (refine Sub.bit hm ?_; exact Eq.refl _)
    | (refine Or.inl (Sub.bit hm ?_); exact Eq.refl _) | with_reducible exact Or.inr rfl
    | with_reducible refine State.inc_only (OBS_CEN_RES_FRAMES_holds ..) ?_ ?_
    | intro _ | with_reducible assumption
    | with_reducible apply State.modObs_only
    | with_reducible apply State.cenSettle_only | with_reducible apply State.cenUnknown_only
    | with_reducible apply OnlyOpt.none | with_reducible apply OnlyOpt.some
    | with_reducible apply OnlyM.ite
    | (extract_lets +onlyGivenNames x; refine OnlyM.cut (M0 := M0) (s0 := s0) x ?_ ?_ <;> first | (intro hx; clear_value x) | unfold x)
    | (extract_lets +onlyGivenNames x; clear_value x)
    | split | with_reducible apply OnlyM.update

theorem State.cenFrame_only {M0 : Nat} {s0 : State} {s : State} {n : Nat} {f : Frame} {t : Nat} {w : Wingprint} (kp_s : OnlyM M0 s0 s)
    (hm : Sub 0x301100000000000000000000000000000000259000000000000000000000CC M0 := by exact Sub.of hm rfl) :
    OnlyM M0 s0 (State.cenFrame s n f t w) := by
  unfold State.cenFrame
  repeat' first
    | (refine Sub.of hm ?_; exact Eq.refl _) | (refine Sub.bit hm ?_; exact Eq.refl _)
    | (refine Or.inl (Sub.bit hm ?_); exact Eq.refl _) | with_reducible exact Or.inr rfl
    | intro _ | with_reducible assumption
    | with_reducible apply State.saw_only | with_reducible apply State.cenTake_only
    | with_reducible apply OnlyOpt.none | with_reducible apply OnlyOpt.some | with_reducible apply OnlyM.id
    | with_reducible apply OnlyM.ite
    | (extract_lets +onlyGivenNames x; refine OnlyM.cut (M0 := M0) (s0 := s0) x ?_ ?_ <;> first | (intro hx; clear_value x) | unfold x)
    | (extract_lets +onlyGivenNames x; clear_value x)
    | split | with_reducible apply OnlyM.update

theorem State.observe_only {M0 : Nat} {s0 : State} {s : State} {n : Nat} {f : Frame} {t : Nat} {w : Option Wingprint} (kp_s : OnlyM M0 s0 s)
    (hm : Sub 0x3011000000000000000000000000000000002591E0800000000000000000CC M0 := by exact Sub.of hm rfl) :
    OnlyM M0 s0 (State.observe s n f t w) := by
  unfold State.observe
  repeat' first
    | (refine Sub.of hm ?_; exact Eq.refl _) | (refine Sub.bit hm ?_; exact Eq.refl _)
    | (refine Or.inl (Sub.bit hm ?_); exact Eq.refl _) | with_reducible exact Or.inr rfl
    | intro _ | with_reducible assumption
    | with_reducible apply State.enrFrame_only | with_reducible apply State.cenFrame_only
    | with_reducible apply OnlyOpt.none | with_reducible apply OnlyOpt.some
    | with_reducible apply OnlyM.ite
    | split | with_reducible apply OnlyM.update

end Sys2Proof.Machine
end

