-- ==== Sys2Proof/Laws/OnlyHalls.lean ====
section
/-! SUPPORT. Which parts each operation of `Machine/Halls.lean` may change, and that it keeps what every command keeps: each
lemma follows the operation's own text, piece by piece, and gives the parts as a set of part numbers. -/

namespace Sys2Proof.Machine

theorem State.accTrap_only {M0 : Nat} {s0 : State} {s : State} {e cause addr : Nat} (kp_s : OnlyM M0 s0 s)
    (hm : Sub 0x1880000000000000000000000000000000000000000208000 M0 := by exact Sub.of hm rfl) :
    OnlyM M0 s0 (State.accTrap s e cause addr) := by
  unfold State.accTrap
  repeat' first
    | (refine Sub.of hm ?_; exact Eq.refl _) | (refine Sub.bit hm ?_; exact Eq.refl _)
    | (refine Or.inl (Sub.bit hm ?_); exact Eq.refl _) | with_reducible exact Or.inr rfl
    | intro _ | with_reducible assumption
    | with_reducible apply State.trap_only
    | with_reducible apply OnlyM.update

theorem State.refuseAccess_only {M0 : Nat} {s0 s : State} {r : HallReq} {a : Nat} (hs : OnlyM M0 s0 s)
    (hm : Sub 0x3011000000001988000000000000000000000000000000000000000020800C M0 := by exact Sub.of hm rfl) :
    OnlyM M0 s0 (s.refuseAccess r a) := by
  have tail : ∀ (m : HallMaster) (t : State) (w : Bool) (c x : Nat), OnlyM M0 s0 t → OnlyM M0 s0 (match m with
      | .engine e => t.accTrap e c x
      | .host => if w then t.answerDone else t.answer 0
      | _ => { t with resp := some .fault }) := by
    intro m t w c x h
    cases m with
    | engine e => exact State.accTrap_only h
    | host => exact OnlyM.ite (State.answerDone_only h) (State.answer_only h)
    | _ => exact OnlyM.respTo h (Sub.bit hm rfl)
  unfold State.refuseAccess
  refine tail _ _ _ _ _ (State.reportFrom_only ?_)
  repeat' first
    | (refine Sub.of hm ?_; exact Eq.refl _) | (refine Sub.bit hm ?_; exact Eq.refl _)
    | (refine Or.inl (Sub.bit hm ?_); exact Eq.refl _) | with_reducible exact Or.inr rfl
    | with_reducible refine State.set_only HALL_ERR_REASON_holds ?_ ?_
    | with_reducible refine State.set_only HALL_ERR_MASTER_holds ?_ ?_
    | with_reducible refine State.set_only HALL_ERR_UNIT_holds ?_ ?_
    | with_reducible refine State.set_only HALL_ERR_ADDR_OFFSET_holds ?_ ?_
    | with_reducible refine State.put_only HALL_ERR_ADDR_WRITE_holds ?_ ?_
    | with_reducible refine State.put_only HALL_ERR_VALID_holds ?_ ?_
    | intro _ | with_reducible assumption
    | with_reducible exact trivial
    | with_reducible apply State.raise_only
    | with_reducible apply State.each_only | with_reducible apply State.when_only | with_reducible apply OnlyM.ite
    | (extract_lets +onlyGivenNames x; refine OnlyM.cut (M0 := M0) (s0 := s0) x ?_ ?_ <;> first | (intro hx; clear_value x) | unfold x)
    | (extract_lets +onlyGivenNames x; clear_value x)
    | with_reducible (refine OnlyOpt.elim ?_ (by assumption)) | with_reducible (refine OnlyM.pair ?_ (by assumption))
    | split | with_reducible apply OnlyM.update

theorem State.meetErrors_only {M0 : Nat} {s0 : State} {s : State} {r : HallReq} (kp_s : OnlyM M0 s0 s)
    (hm : Sub 0x3011000000020000000000000000000000000000000000000000000001000C M0 := by exact Sub.of hm rfl) :
    OnlyM M0 s0 (State.meetErrors s r) := by
  unfold State.meetErrors
  repeat' first
    | (refine Sub.of hm ?_; exact Eq.refl _) | (refine Sub.bit hm ?_; exact Eq.refl _)
    | with_reducible refine State.inc_only (HALL_ECC_CE_holds ..) ?_ ?_
    | intro _ | with_reducible assumption
    | with_reducible apply State.setPoison_only
    | with_reducible apply State.setFix_only | with_reducible apply State.countPerMs_only
    | with_reducible apply State.report_only | with_reducible apply State.each_only
    | (extract_lets +onlyGivenNames x; refine OnlyM.cut (M0 := M0) (s0 := s0) x ?_ ?_ <;> first | (intro hx; clear_value x) | unfold x)
    | (extract_lets +onlyGivenNames x; clear_value x)

theorem State.evictL1_only {M0 : Nat} {s0 : State} {s : State} {e line : Nat} (kp_s : OnlyM M0 s0 s)
    (hm : Sub 0x8000 M0 := by exact Sub.of hm rfl) :
    OnlyM M0 s0 (State.evictL1 s e line) := by
  unfold State.evictL1
  repeat' first
    | (refine Sub.of hm ?_; exact Eq.refl _) | (refine Sub.bit hm ?_; exact Eq.refl _)
    | intro _ | with_reducible assumption
    | with_reducible apply State.writeBackL1_only | with_reducible apply State.setL1_only
    | with_reducible apply OnlyOpt.none | with_reducible apply OnlyOpt.some

theorem State.victim_only {M0 : Nat} {s0 : State} {s : State} {ls : List Nat} (kp_s : OnlyM M0 s0 s)
    (hm : Sub 0x8000 M0 := by exact Sub.of hm rfl) :
    OnlyM M0 s0 (State.victim s ls).2 := by
  unfold State.victim
  repeat' first
    | (refine Sub.of hm ?_; exact Eq.refl _) | (refine Sub.bit hm ?_; exact Eq.refl _)
    | (refine Or.inl (Sub.bit hm ?_); exact Eq.refl _) | with_reducible exact Or.inr rfl
    | intro _ | with_reducible assumption
    | with_reducible apply OnlyM.update

theorem State.roomL1_only {M0 : Nat} {s0 : State} {s : State} {e : Nat} {keep : List Nat} (kp_s : OnlyM M0 s0 s)
    (hm : Sub 0x8000 M0 := by exact Sub.of hm rfl) :
    OnlyM M0 s0 (State.roomL1 s e keep) := by
  unfold State.roomL1
  repeat' first
    | (refine Sub.of hm ?_; exact Eq.refl _) | (refine Sub.bit hm ?_; exact Eq.refl _)
    | (refine Or.inl (Sub.bit hm ?_); exact Eq.refl _) | with_reducible exact Or.inr rfl
    | intro _ | with_reducible assumption
    | with_reducible apply State.victim_only | with_reducible apply State.evictL1_only
    | with_reducible apply OnlyOpt.none | with_reducible apply OnlyOpt.some
    | with_reducible apply OnlyM.ite
    | (extract_lets +onlyGivenNames x; refine OnlyM.cut (M0 := M0) (s0 := s0) x ?_ ?_ <;> first | (intro hx; clear_value x) | unfold x)
    | (extract_lets +onlyGivenNames x; clear_value x)
    | with_reducible (refine OnlyM.pair ?_ (by assumption))
    | split | with_reducible apply OnlyM.update

theorem State.roomL2_only {M0 : Nat} {s0 : State} {s : State} {e line : Nat} (kp_s : OnlyM M0 s0 s)
    (hm : Sub 0x18001 M0 := by exact Sub.of hm rfl) :
    OnlyM M0 s0 (State.roomL2 s e line).2 := by
  unfold State.roomL2
  repeat' first
    | (refine Sub.of hm ?_; exact Eq.refl _) | (refine Sub.bit hm ?_; exact Eq.refl _)
    | (refine Or.inl (Sub.bit hm ?_); exact Eq.refl _) | with_reducible exact Or.inr rfl
    | intro _ | with_reducible assumption | with_reducible apply State.victim_only
    | with_reducible apply State.cleanRegion_only | with_reducible apply State.dropLine_only
    | with_reducible apply OnlyM.ite
    | (extract_lets +onlyGivenNames x; refine OnlyM.cut (M0 := M0) (s0 := s0) x ?_ ?_ <;> first | (intro hx; clear_value x) | unfold x)
    | (extract_lets +onlyGivenNames x; clear_value x)
    | with_reducible (refine OnlyM.pair ?_ (by assumption))
    | split | with_reducible apply OnlyM.update

theorem State.fillL2_only {M0 : Nat} {s0 : State} {s : State} {e line : Nat} (kp_s : OnlyM M0 s0 s)
    (hm : Sub 0x18001 M0 := by exact Sub.of hm rfl) :
    OnlyM M0 s0 (State.fillL2 s e line) := by
  unfold State.fillL2
  repeat' first
    | (refine Sub.of hm ?_; exact Eq.refl _) | (refine Sub.bit hm ?_; exact Eq.refl _)
    | (refine Or.inl (Sub.bit hm ?_); exact Eq.refl _) | with_reducible exact Or.inr rfl
    | intro _ | with_reducible assumption
    | with_reducible apply State.roomL2_only | with_reducible apply State.setL2_only
    | with_reducible apply OnlyOpt.none | with_reducible apply OnlyOpt.some
    | (extract_lets +onlyGivenNames x; refine OnlyM.cut (M0 := M0) (s0 := s0) x ?_ ?_ <;> first | (intro hx; clear_value x) | unfold x)
    | (extract_lets +onlyGivenNames x; clear_value x)
    | with_reducible (refine OnlyM.pair ?_ (by assumption))
    | split | with_reducible apply OnlyM.update

theorem State.fillL1_only {M0 : Nat} {s0 : State} {s : State} {e line : Nat} {own : Bool} {keep : List Nat} (kp_s : OnlyM M0 s0 s)
    (hm : Sub 0x18001 M0 := by exact Sub.of hm rfl) :
    OnlyM M0 s0 (State.fillL1 s e line own keep) := by
  unfold State.fillL1
  try dsimp only
  repeat' first
    | (refine Sub.of hm ?_; exact Eq.refl _) | (refine Sub.bit hm ?_; exact Eq.refl _)
    | (refine Or.inl (Sub.bit hm ?_); exact Eq.refl _) | with_reducible exact Or.inr rfl
    | intro _ | with_reducible assumption
    | with_reducible apply State.modEngine_only | with_reducible apply State.writeBackL1_only
    | with_reducible apply State.setL1_only | with_reducible apply State.fillL2_only
    | with_reducible apply State.roomL1_only | with_reducible apply State.each_only
    | with_reducible apply OnlyOpt.none | with_reducible apply OnlyOpt.some | with_reducible apply OnlyM.id
    | with_reducible apply OnlyM.ite
    | split | with_reducible apply OnlyM.update

theorem State.fillLines_only {M0 : Nat} {s0 : State} {s : State} {e : Nat} {own : Bool} {ls : List Nat} (kp_s : OnlyM M0 s0 s)
    (hm : Sub 0x18001 M0 := by exact Sub.of hm rfl) :
    OnlyM M0 s0 (State.fillLines s e own ls) := by
  unfold State.fillLines
  repeat' first
    | (refine Sub.of hm ?_; exact Eq.refl _) | (refine Sub.bit hm ?_; exact Eq.refl _)
    | intro _ | with_reducible assumption
    | with_reducible apply State.fillL1_only | with_reducible apply State.each_only

theorem State.l1Write_only {M0 : Nat} {s0 s : State} {e a : Nat} {bs : List Byte} (hs : OnlyM M0 s0 s)
    (hm : Sub 0x8000 M0 := by exact Sub.of hm rfl) :
    OnlyM M0 s0 (s.l1Write e a bs) := by
  induction bs generalizing s a with
  | nil => exact hs
  | cons b bs ih =>
    unfold State.l1Write
    repeat' first
      | (refine Sub.of hm ?_; exact Eq.refl _) | (refine Sub.bit hm ?_; exact Eq.refl _)
      | (refine Or.inl (Sub.bit hm ?_); exact Eq.refl _) | with_reducible exact Or.inr rfl
      | intro _ | with_reducible assumption
      | with_reducible exact trivial
      | with_reducible apply ih | with_reducible apply State.setL1_only
      | with_reducible apply State.each_only | with_reducible apply State.when_only | with_reducible apply OnlyM.ite
      | (extract_lets +onlyGivenNames x; refine OnlyM.cut (M0 := M0) (s0 := s0) x ?_ ?_ <;> first | (intro hx; clear_value x) | unfold x)
      | (extract_lets +onlyGivenNames x; clear_value x)
      | with_reducible (refine OnlyOpt.elim ?_ (by assumption)) | with_reducible (refine OnlyM.pair ?_ (by assumption))
      | split | with_reducible apply OnlyM.update

theorem State.serveCached_only {M0 : Nat} {s0 : State} {s : State} {e : Nat} {r : HallReq} {a : Nat} (kp_s : OnlyM M0 s0 s)
    (hm : Sub 0x3011000000060188000000000000000000000000000000000000000021800D M0 := by exact Sub.of hm rfl) :
    OnlyM M0 s0 (State.serveCached s e r a) := by
  unfold State.serveCached
  try dsimp only
  repeat' first
    | (refine Sub.of hm ?_; exact Eq.refl _) | (refine Sub.bit hm ?_; exact Eq.refl _)
    | (refine Or.inl (Sub.bit hm ?_); exact Eq.refl _) | with_reducible exact Or.inr rfl
    | intro _ | with_reducible assumption
    | with_reducible apply State.poisonRead_only | with_reducible apply State.accTrap_only
    | with_reducible apply State.fillLines_only | with_reducible apply State.answer_only
    | with_reducible apply State.l1Write_only | with_reducible apply State.answerDone_only
    | with_reducible apply State.modEngine_only | with_reducible apply OnlyOpt.none
    | with_reducible apply OnlyOpt.some | with_reducible apply OnlyM.ite
    | split | with_reducible apply OnlyM.update

theorem State.serveBank_only {M0 : Nat} {s0 : State} {s : State} {r : HallReq} {a : Nat} (kp_s : OnlyM M0 s0 s)
    (hm : Sub 0x3011000000060188000000000000000000000000000000000000000021800D M0 := by exact Sub.of hm rfl) :
    OnlyM M0 s0 (State.serveBank s r a) := by
  unfold State.serveBank
  repeat' first
    | (refine Sub.of hm ?_; exact Eq.refl _) | (refine Sub.bit hm ?_; exact Eq.refl _)
    | (refine Or.inl (Sub.bit hm ?_); exact Eq.refl _) | with_reducible exact Or.inr rfl
    | intro _ | with_reducible assumption
    | with_reducible apply State.poisonRead_only | with_reducible apply State.accTrap_only
    | with_reducible apply State.answer_only | with_reducible apply State.hallPut_only
    | with_reducible apply State.answerDone_only | with_reducible apply State.hallStore_only
    | with_reducible apply OnlyOpt.none | with_reducible apply OnlyOpt.some
    | with_reducible apply OnlyM.ite
    | (extract_lets +onlyGivenNames x; refine OnlyM.cut (M0 := M0) (s0 := s0) x ?_ ?_ <;> first | (intro hx; clear_value x) | unfold x)
    | (extract_lets +onlyGivenNames x; clear_value x)
    | split | with_reducible apply OnlyM.update

theorem State.hostPiece_only {M0 : Nat} {s0 : State} {s : State} {r : HallReq} {a : Nat} {p : Nat × Nat} (kp_s : OnlyM M0 s0 s)
    (hm : Sub 0x3011000000061988000000000000000000000000000000000000000021800D M0 := by exact Sub.of hm rfl) :
    OnlyM M0 s0 (State.hostPiece s r a p) := by
  unfold State.hostPiece
  repeat' first
    | (refine Sub.of hm ?_; exact Eq.refl _) | (refine Sub.bit hm ?_; exact Eq.refl _)
    | (refine Or.inl (Sub.bit hm ?_); exact Eq.refl _) | with_reducible exact Or.inr rfl
    | intro _ | with_reducible assumption
    | with_reducible apply State.refuseAccess_only | with_reducible apply State.hallStore_only
    | with_reducible apply State.poisonRead_only | with_reducible apply OnlyOpt.none
    | with_reducible apply OnlyOpt.some | with_reducible apply OnlyM.ite
    | split | with_reducible apply OnlyM.update

theorem State.servePieces_only {M0 : Nat} {s0 : State} {s : State} {r : HallReq} {a : Nat} (kp_s : OnlyM M0 s0 s)
    (hm : Sub 0x3011000000061988000000000000000000000000000000000000000021800D M0 := by exact Sub.of hm rfl) :
    OnlyM M0 s0 (State.servePieces s r a) := by
  unfold State.servePieces
  repeat' first
    | (refine Sub.of hm ?_; exact Eq.refl _) | (refine Sub.bit hm ?_; exact Eq.refl _)
    | (refine Or.inl (Sub.bit hm ?_); exact Eq.refl _) | with_reducible exact Or.inr rfl
    | intro _ | with_reducible assumption
    | with_reducible apply State.hostPiece_only | with_reducible apply State.answerDone_only
    | with_reducible apply State.answer_only | with_reducible apply State.each_only
    | with_reducible apply OnlyM.ite
    | (extract_lets +onlyGivenNames x; refine OnlyM.cut (M0 := M0) (s0 := s0) x ?_ ?_ <;> first | (intro hx; clear_value x) | unfold x)
    | (extract_lets +onlyGivenNames x; clear_value x)
    | split | with_reducible apply OnlyM.update

theorem State.countAccess_only {M0 : Nat} {s0 : State} {s : State} {r : HallReq} {a : Nat} (kp_s : OnlyM M0 s0 s)
    (hm : Sub 0x2000000000000000000000000000000000000000000000000000 M0 := by exact Sub.of hm rfl) :
    OnlyM M0 s0 (State.countAccess s r a) := by
  unfold State.countAccess
  repeat' first
    | (refine Sub.of hm ?_; exact Eq.refl _) | (refine Sub.bit hm ?_; exact Eq.refl _)
    | with_reducible refine State.add_only (HALL_CONF_WAIT_holds ..) ?_ ?_
    | with_reducible refine State.inc_only (HALL_CONF_SPLIT_holds ..) ?_ ?_
    | intro _ | with_reducible assumption
    | with_reducible apply OnlyM.ite
    | (extract_lets +onlyGivenNames x; refine OnlyM.cut (M0 := M0) (s0 := s0) x ?_ ?_ <;> first | (intro hx; clear_value x) | unfold x)
    | (extract_lets +onlyGivenNames x; clear_value x)
    | split

theorem State.holdAccess_only {M0 : Nat} {s0 : State} {s : State} {r : HallReq} {clearing : Bool} (kp_s : OnlyM M0 s0 s)
    (hm : Sub 0x210000 M0 := by exact Sub.of hm rfl) :
    OnlyM M0 s0 (State.holdAccess s r clearing) := by
  unfold State.holdAccess
  repeat' first
    | (refine Sub.of hm ?_; exact Eq.refl _) | (refine Sub.bit hm ?_; exact Eq.refl _)
    | (refine Or.inl (Sub.bit hm ?_); exact Eq.refl _) | with_reducible exact Or.inr rfl
    | intro _ | with_reducible assumption
    | with_reducible apply OnlyOpt.none | with_reducible apply OnlyOpt.some
    | with_reducible apply OnlyM.update

theorem State.reachHall_only {M0 : Nat} {s0 : State} {s : State} {r : HallReq} {a : Nat} {cached : Bool} (kp_s : OnlyM M0 s0 s)
    (hm : Sub 0x3011000000261988000000000000000000000000000000000000000021800D M0 := by exact Sub.of hm rfl) :
    OnlyM M0 s0 (State.reachHall s r a cached) := by
  unfold State.reachHall
  repeat' first
    | (refine Sub.of hm ?_; exact Eq.refl _) | (refine Sub.bit hm ?_; exact Eq.refl _)
    | (refine Or.inl (Sub.bit hm ?_); exact Eq.refl _) | with_reducible exact Or.inr rfl
    | intro _ | with_reducible assumption
    | with_reducible apply State.holdAccess_only | with_reducible apply State.meetErrors_only
    | with_reducible apply State.countAccess_only | with_reducible apply State.servePieces_only
    | with_reducible apply State.refuseAccess_only | with_reducible apply State.serveCached_only
    | with_reducible apply State.serveBank_only | with_reducible apply OnlyOpt.none
    | with_reducible apply OnlyOpt.some | with_reducible apply OnlyM.ite
    | (extract_lets +onlyGivenNames x; refine OnlyM.cut (M0 := M0) (s0 := s0) x ?_ ?_ <;> first | (intro hx; clear_value x) | unfold x)
    | (extract_lets +onlyGivenNames x; clear_value x)
    | split | with_reducible apply OnlyM.update

theorem State.endReservations_only {M0 : Nat} {s0 : State} {s : State} {e a : Nat} (kp_s : OnlyM M0 s0 s)
    (hm : Sub 0x8000 M0 := by exact Sub.of hm rfl) :
    OnlyM M0 s0 (State.endReservations s e a) := by
  unfold State.endReservations
  repeat' first
    | (refine Sub.of hm ?_; exact Eq.refl _) | (refine Sub.bit hm ?_; exact Eq.refl _)
    | (refine Or.inl (Sub.bit hm ?_); exact Eq.refl _) | with_reducible exact Or.inr rfl
    | intro _ | with_reducible assumption
    | with_reducible apply State.modEngine_only | with_reducible apply State.each_only
    | with_reducible apply OnlyOpt.none | with_reducible apply OnlyOpt.some
    | with_reducible apply OnlyM.ite
    | split | with_reducible apply OnlyM.update

theorem State.serveLocal_only {M0 : Nat} {s0 : State} {s : State} {e : Nat} {r : HallReq} {pad : Bool} (kp_s : OnlyM M0 s0 s)
    (hm : Sub 0x208000 M0 := by exact Sub.of hm rfl) :
    OnlyM M0 s0 (State.serveLocal s e r pad) := by
  unfold State.serveLocal
  try dsimp only
  repeat' first
    | (refine Sub.of hm ?_; exact Eq.refl _) | (refine Sub.bit hm ?_; exact Eq.refl _)
    | (refine Or.inl (Sub.bit hm ?_); exact Eq.refl _) | with_reducible exact Or.inr rfl
    | intro _ | with_reducible assumption | with_reducible apply State.endReservations_only
    | with_reducible apply State.setCluster_only | with_reducible apply State.answer_only
    | with_reducible apply State.answerDone_only | with_reducible apply State.modEngine_only
    | with_reducible apply State.each_only | with_reducible apply foldl_only
    | with_reducible apply OnlyOpt.none | with_reducible apply OnlyOpt.some
    | with_reducible apply OnlyM.ite
    | split | with_reducible apply OnlyM.update

theorem State.engineAccess_only {M0 : Nat} {s0 : State} {s : State} {e : Nat} {r : HallReq} (kp_s : OnlyM M0 s0 s)
    (hm : Sub 0x3011000000261988000000000000000000000000000000000000000021800D M0 := by exact Sub.of hm rfl) :
    OnlyM M0 s0 (State.engineAccess s e r) := by
  unfold State.engineAccess
  try dsimp only
  repeat' first
    | (refine Sub.of hm ?_; exact Eq.refl _) | (refine Sub.bit hm ?_; exact Eq.refl _)
    | (refine Or.inl (Sub.bit hm ?_); exact Eq.refl _) | with_reducible exact Or.inr rfl
    | intro _ | with_reducible assumption
    | with_reducible apply State.accTrap_only | with_reducible apply State.serveLocal_only
    | with_reducible apply State.engCause_only | with_reducible apply State.reportFrom_only
    | with_reducible apply State.reachHall_only | with_reducible apply State.each_only
    | with_reducible apply OnlyM.ite
    | split | with_reducible apply OnlyM.update

theorem State.hallAccess_only {M0 : Nat} {s0 s : State} {r : HallReq} (hs : OnlyM M0 s0 s)
    (hm : Sub 0x3011000000261988000000000000000000000000000000000000000021800D M0 := by exact Sub.of hm rfl) : OnlyM M0 s0 (s.hallAccess r) := by
  have tail : ∀ (m : HallMaster) (x y z : State), (∀ e, OnlyM M0 s0 (s.engineAccess e r)) → OnlyM M0 s0 x → OnlyM M0 s0 y →
      OnlyM M0 s0 (match m with
        | .engine e => if s.estate e = 2 then s.engineAccess e r else s
        | .host => x
        | _ => y) := by
    intro m x y z h1 h2 h3
    cases m with
    | engine e => exact OnlyM.ite (h1 _) hs
    | host => exact h2
    | _ => exact h3
  unfold State.hallAccess
  refine tail _ _ _ s (fun e => State.engineAccess_only hs) ?_ ?_
  · exact OnlyM.ite (State.answer_only hs) (OnlyM.ite (State.reachHall_only hs) (OnlyM.respTo hs (Sub.bit hm rfl)))
  · exact OnlyM.ite (State.reachHall_only hs) (OnlyM.respTo hs (Sub.bit hm rfl))

theorem State.serveOne_only {M0 : Nat} {s0 : State} {s : State} {h : HeldAcc} (kp_s : OnlyM M0 s0 s)
    (hm : Sub 0x3011000000261988000000000000000000000000000000000000000021800D M0 := by exact Sub.of hm rfl) :
    OnlyM M0 s0 (State.serveOne s h) := by
  unfold State.serveOne
  repeat' first
    | (refine Sub.of hm ?_; exact Eq.refl _) | (refine Sub.bit hm ?_; exact Eq.refl _)
    | with_reducible refine State.add_only (HALL_CONF_WAIT_holds ..) ?_ ?_
    | intro _ | with_reducible assumption | with_reducible apply State.hallAccess_only
    | with_reducible apply State.when_only

theorem State.serveHeld_only {M0 : Nat} {s0 : State} {s : State} (kp_s : OnlyM M0 s0 s)
    (hm : Sub 0x3011000000261988000000000000000000000000000000000000000021800D M0 := by exact Sub.of hm rfl) :
    OnlyM M0 s0 (State.serveHeld s) := by
  unfold State.serveHeld
  repeat' first
    | (refine Sub.of hm ?_; exact Eq.refl _) | (refine Sub.bit hm ?_; exact Eq.refl _)
    | (refine Or.inl (Sub.bit hm ?_); exact Eq.refl _) | with_reducible exact Or.inr rfl
    | intro _ | with_reducible assumption
    | with_reducible apply State.serveOne_only | with_reducible apply State.each_only
    | with_reducible apply OnlyM.update

theorem execEccWriteback_only {M0 : Nat} {s0 : State} {w : Fin 8388608} {s : State} (kp_s : OnlyM M0 s0 s)
    (hm : Sub 0x10000 M0 := by exact Sub.of hm rfl) :
    OnlyOut M0 s0 (execEccWriteback w s) := by
  unfold execEccWriteback
  repeat' first
    | (refine Sub.of hm ?_; exact Eq.refl _) | (refine Sub.bit hm ?_; exact Eq.refl _)
    | intro _ | with_reducible assumption
    | with_reducible apply State.setFix_only | with_reducible apply OnlyOut.next
    | with_reducible apply OnlyOut.fault | with_reducible apply OnlyOut.ite

theorem State.handover_only {M0 : Nat} {s0 : State} {s : State} {u n : Nat} {clear : Bool} (kp_s : OnlyM M0 s0 s)
    (hm : Sub 0x3011000000404000000000000000000000000000000000000000000001800D M0 := by exact Sub.of hm rfl) :
    OnlyM M0 s0 (State.handover s u n clear) := by
  unfold State.handover
  try dsimp only
  repeat' first
    | (refine Sub.of hm ?_; exact Eq.refl _) | (refine Sub.bit hm ?_; exact Eq.refl _)
    | (refine Or.inl (Sub.bit hm ?_); exact Eq.refl _) | with_reducible exact Or.inr rfl
    | with_reducible refine State.set_only HALL_HO_STAT_STATE_holds ?_ ?_
    | with_reducible refine State.set_only HALL_HO_STAT_REFUSE_holds ?_ ?_
    | with_reducible refine State.put_only (HALL_OWN_CLEARING_holds ..) ?_ ?_
    | intro _ | with_reducible assumption | with_reducible apply State.raise_only
    | with_reducible apply State.flushUnits_only
    | with_reducible apply State.each_only | with_reducible apply OnlyOpt.none
    | with_reducible apply OnlyOpt.some | with_reducible apply OnlyM.ite
    | split | with_reducible apply OnlyM.update

theorem execHallHandover_only {M0 : Nat} {s0 : State} {q : Requester} {u : Fin 4096} {m1 : Fin 64} {clear : Bool} {s : State} (kp_s : OnlyM M0 s0 s)
    (hm : Sub 0x40000000000000000000000003011000000404188000000000000000000000000000000000000000021800D M0 := by exact Sub.of hm rfl) :
    OnlyOut M0 s0 (execHallHandover q u m1 clear s) := by
  unfold execHallHandover
  repeat' first
    | (refine Sub.of hm ?_; exact Eq.refl _) | (refine Sub.bit hm ?_; exact Eq.refl _)
    | intro _ | with_reducible assumption
    | with_reducible apply State.hostWrite_only | with_reducible apply State.handover_only
    | with_reducible apply OnlyOut.next | with_reducible apply OnlyOut.fault
    | with_reducible apply OnlyOut.ite

theorem State.handoverDone_only {M0 : Nat} {s0 : State} {s : State} (kp_s : OnlyM M0 s0 s)
    (hm : Sub 0x3011000000665988000000000000000000000000000000000000000021800D M0 := by exact Sub.of hm rfl) :
    OnlyM M0 s0 (State.handoverDone s) := by
  unfold State.handoverDone
  repeat' first
    | (refine Sub.of hm ?_; exact Eq.refl _) | (refine Sub.bit hm ?_; exact Eq.refl _)
    | (refine Or.inl (Sub.bit hm ?_); exact Eq.refl _) | with_reducible exact Or.inr rfl
    | with_reducible refine State.set_only (HALL_OWN_CUR_holds ..) ?_ ?_
    | with_reducible refine State.put_only (HALL_OWN_CLEARING_holds ..) ?_ ?_
    | with_reducible refine State.set_only HALL_HO_STAT_STATE_holds ?_ ?_
    | intro _ | with_reducible assumption
    | with_reducible apply State.handover_only | with_reducible apply State.zeroUnits_only
    | with_reducible apply State.raise_only | with_reducible apply State.serveHeld_only
    | with_reducible apply State.each_only | with_reducible apply OnlyOpt.none
    | with_reducible apply OnlyOpt.some
    | (extract_lets +onlyGivenNames x; refine OnlyM.cut (M0 := M0) (s0 := s0) x ?_ ?_ <;> first | (intro hx; clear_value x) | unfold x)
    | (extract_lets +onlyGivenNames x; clear_value x)
    | split | with_reducible apply OnlyM.update

theorem execHandoverDone_only {M0 : Nat} {s0 : State} {s : State} (kp_s : OnlyM M0 s0 s)
    (hm : Sub 0x3011000000665988000000000000000000000000000000000000000021800D M0 := by exact Sub.of hm rfl) :
    OnlyOut M0 s0 (execHandoverDone s) := by
  unfold execHandoverDone
  repeat' first
    | (refine Sub.of hm ?_; exact Eq.refl _) | (refine Sub.bit hm ?_; exact Eq.refl _)
    | intro _ | with_reducible assumption
    | with_reducible apply State.handoverDone_only | with_reducible apply OnlyOut.next
    | with_reducible apply OnlyOut.fault | with_reducible apply OnlyOut.ite

theorem State.revokeUnits_only {M0 : Nat} {s0 : State} {s : State} {owner dest : Nat} (kp_s : OnlyM M0 s0 s)
    (hm : Sub 0x3011000000675988000000000000000000000000000000000000000021800D M0 := by exact Sub.of hm rfl) :
    OnlyM M0 s0 (State.revokeUnits s owner dest) := by
  unfold State.revokeUnits
  repeat' first
    | (refine Sub.of hm ?_; exact Eq.refl _) | (refine Sub.bit hm ?_; exact Eq.refl _)
    | (refine Or.inl (Sub.bit hm ?_); exact Eq.refl _) | with_reducible exact Or.inr rfl
    | with_reducible refine State.set_only HALL_RV_STAT_STATE_holds ?_ ?_
    | with_reducible refine State.set_only HALL_RV_STAT_OWNER_holds ?_ ?_
    | with_reducible refine State.set_only HALL_RV_STAT_UNITS_holds ?_ ?_
    | with_reducible refine State.put_only (HALL_OWN_CLEARING_holds ..) ?_ ?_
    | intro _ | with_reducible assumption
    | with_reducible apply State.handover_only | with_reducible apply State.handoverDone_only
    | with_reducible apply State.flushUnits_only | with_reducible apply State.each_only
    | with_reducible apply OnlyOpt.none | with_reducible apply OnlyOpt.some
    | with_reducible apply OnlyM.ite
    | (extract_lets +onlyGivenNames x; refine OnlyM.cut (M0 := M0) (s0 := s0) x ?_ ?_ <;> first | (intro hx; clear_value x) | unfold x)
    | (extract_lets +onlyGivenNames x; clear_value x)
    | split | with_reducible apply OnlyM.update

theorem State.hallRevoke_only {M0 : Nat} {s0 : State} {s : State} {owner dest : Nat} (kp_s : OnlyM M0 s0 s)
    (hm : Sub 0x3011000000675988000000000000000000000000000000000000000021800D M0 := by exact Sub.of hm rfl) :
    OnlyM M0 s0 (State.hallRevoke s owner dest) := by
  unfold State.hallRevoke
  repeat' first
    | (refine Sub.of hm ?_; exact Eq.refl _) | (refine Sub.bit hm ?_; exact Eq.refl _)
    | with_reducible refine State.put_only HALL_RV_STAT_CMDERR_holds ?_ ?_
    | intro _ | with_reducible assumption | with_reducible apply State.revokeUnits_only
    | with_reducible apply OnlyM.ite
    | split

theorem execHallRevoke_only {M0 : Nat} {s0 : State} {q : Requester} {owner dest : Fin 128} {s : State} (kp_s : OnlyM M0 s0 s)
    (hm : Sub 0x40000000000000000000000003011000000675988000000000000000000000000000000000000000021800D M0 := by exact Sub.of hm rfl) :
    OnlyOut M0 s0 (execHallRevoke q owner dest s) := by
  unfold execHallRevoke
  repeat' first
    | (refine Sub.of hm ?_; exact Eq.refl _) | (refine Sub.bit hm ?_; exact Eq.refl _)
    | intro _ | with_reducible assumption
    | with_reducible apply State.hostWrite_only | with_reducible apply State.hallRevoke_only
    | with_reducible apply OnlyOut.next | with_reducible apply OnlyOut.fault
    | with_reducible apply OnlyOut.ite

theorem State.revocationDone_only {M0 : Nat} {s0 : State} {s : State} (kp_s : OnlyM M0 s0 s)
    (hm : Sub 0x3011000000671988000000000000000000000000000000000000000021800D M0 := by exact Sub.of hm rfl) :
    OnlyM M0 s0 (State.revocationDone s) := by
  unfold State.revocationDone
  repeat' first
    | (refine Sub.of hm ?_; exact Eq.refl _) | (refine Sub.bit hm ?_; exact Eq.refl _)
    | (refine Or.inl (Sub.bit hm ?_); exact Eq.refl _) | with_reducible exact Or.inr rfl
    | with_reducible refine State.set_only (HALL_OWN_CUR_holds ..) ?_ ?_
    | with_reducible refine State.put_only (HALL_OWN_CLEARING_holds ..) ?_ ?_
    | with_reducible refine State.put_only (HALL_OWN_REVOKED_holds ..) ?_ ?_
    | with_reducible refine State.set_only HALL_RV_STAT_STATE_holds ?_ ?_
    | intro _ | with_reducible assumption
    | with_reducible apply State.zeroUnits_only | with_reducible apply State.raise_only
    | with_reducible apply State.serveHeld_only | with_reducible apply State.each_only
    | with_reducible apply OnlyOpt.none | with_reducible apply OnlyOpt.some
    | with_reducible apply OnlyM.ite
    | (extract_lets +onlyGivenNames x; refine OnlyM.cut (M0 := M0) (s0 := s0) x ?_ ?_ <;> first | (intro hx; clear_value x) | unfold x)
    | (extract_lets +onlyGivenNames x; clear_value x)
    | split | with_reducible apply OnlyM.update

theorem execRevocationDone_only {M0 : Nat} {s0 : State} {s : State} (kp_s : OnlyM M0 s0 s)
    (hm : Sub 0x3011000000671988000000000000000000000000000000000000000021800D M0 := by exact Sub.of hm rfl) :
    OnlyOut M0 s0 (execRevocationDone s) := by
  unfold execRevocationDone
  repeat' first
    | (refine Sub.of hm ?_; exact Eq.refl _) | (refine Sub.bit hm ?_; exact Eq.refl _)
    | intro _ | with_reducible assumption
    | with_reducible apply State.revocationDone_only | with_reducible apply OnlyOut.next
    | with_reducible apply OnlyOut.fault | with_reducible apply OnlyOut.ite

theorem execUnitClearDone_only {M0 : Nat} {s0 : State} {u : Fin 4096} {s : State} (kp_s : OnlyM M0 s0 s)
    (hm : Sub 0x3011000000661988000000000000000000000000000000000000000021800D M0 := by exact Sub.of hm rfl) :
    OnlyOut M0 s0 (execUnitClearDone u s) := by
  unfold execUnitClearDone
  repeat' first
    | (refine Sub.of hm ?_; exact Eq.refl _) | (refine Sub.bit hm ?_; exact Eq.refl _)
    | with_reducible refine State.put_only (HALL_OWN_CLEARING_holds ..) ?_ ?_
    | intro _ | with_reducible assumption
    | with_reducible apply State.zeroUnits_only
    | with_reducible apply State.serveHeld_only | with_reducible apply OnlyOut.next
    | with_reducible apply OnlyOut.fault | with_reducible apply OnlyOut.ite
    | with_reducible apply OnlyM.ite
    | split

theorem State.remap_only {M0 : Nat} {s0 : State} {s : State} {w : Nat} (kp_s : OnlyM M0 s0 s)
    (hm : Sub 0x3011000000100000000000000000000000000000000000000000000001000C M0 := by exact Sub.of hm rfl) :
    OnlyM M0 s0 (State.remap s w) := by
  unfold State.remap
  repeat' first
    | (refine Sub.of hm ?_; exact Eq.refl _) | (refine Sub.bit hm ?_; exact Eq.refl _)
    | (refine Or.inl (Sub.bit hm ?_); exact Eq.refl _) | with_reducible exact Or.inr rfl
    | with_reducible refine State.inc_only (HALL_TEST_STAT_REMAP_holds ..) ?_ ?_
    | with_reducible refine State.put_only (HALL_TEST_STAT_EXHAUST_holds ..) ?_ ?_
    | intro _ | with_reducible assumption | with_reducible apply State.raise_only
    | with_reducible apply State.report_only | with_reducible apply State.startCond_only | with_reducible apply State.occur_only
    | with_reducible apply OnlyM.ite
    | (extract_lets +onlyGivenNames x; refine OnlyM.cut (M0 := M0) (s0 := s0) x ?_ ?_ <;> first | (intro hx; clear_value x) | unfold x)
    | (extract_lets +onlyGivenNames x; clear_value x)
    | split | with_reducible apply OnlyM.update

theorem execTestWord_only {M0 : Nat} {s0 : State} {h : Fin 4} {failed : Bool} {s : State} (kp_s : OnlyM M0 s0 s)
    (hm : Sub 0x3011000000100000000000000000000000000000000000000000000001000C M0 := by exact Sub.of hm rfl) :
    OnlyOut M0 s0 (execTestWord h failed s) := by
  unfold execTestWord
  repeat' first
    | (refine Sub.of hm ?_; exact Eq.refl _) | (refine Sub.bit hm ?_; exact Eq.refl _)
    | (refine Or.inl (Sub.bit hm ?_); exact Eq.refl _) | with_reducible exact Or.inr rfl
    | with_reducible refine State.set_only (HALL_TEST_STAT_POS_holds ..) ?_ ?_
    | intro _ | with_reducible assumption
    | with_reducible apply State.remap_only
    | with_reducible apply OnlyOut.next | with_reducible apply OnlyOut.fault
    | with_reducible apply OnlyOut.ite | with_reducible apply OnlyOpt.none
    | with_reducible apply OnlyOpt.some | with_reducible apply OnlyM.ite
    | (extract_lets +onlyGivenNames x; refine OnlyM.cut (M0 := M0) (s0 := s0) x ?_ ?_ <;> first | (intro hx; clear_value x) | unfold x)
    | (extract_lets +onlyGivenNames x; clear_value x)
    | split | with_reducible apply OnlyM.update

end Sys2Proof.Machine
end

