-- ==== Sys2Proof/Laws/OnlyLedgerOps.lean ====
section
/-! SUPPORT. Which parts each operation of `Machine/LedgerOps.lean` may change, and that it keeps what every command keeps: each
lemma follows the operation's own text, piece by piece, and gives the parts as a set of part numbers. -/

namespace Sys2Proof.Machine

theorem State.writeRecord_only {M0 : Nat} {s0 : State} {s : State} {k : Nat} {w : Nat × Nat × Nat × Nat} (kp_s : OnlyM M0 s0 s)
    (hm : Sub 0x8000000000200000000000000000000000000000000000000000000018009 M0 := by exact Sub.of hm rfl) :
    OnlyM M0 s0 (State.writeRecord s k w) := by
  unfold State.writeRecord
  repeat' first
    | (refine Sub.of hm ?_; exact Eq.refl _) | (refine Sub.bit hm ?_; exact Eq.refl _)
    | with_reducible refine State.set_only (LEDG_RING_TAIL_TAIL_holds ..) ?_ ?_
    | intro _ | with_reducible assumption
    | with_reducible apply State.hallStore_only
    | (extract_lets +onlyGivenNames x; refine OnlyM.cut (M0 := M0) (s0 := s0) x ?_ ?_ <;> first | (intro hx; clear_value x) | unfold x)
    | (extract_lets +onlyGivenNames x; clear_value x)

theorem State.setHeld_only {M0 : Nat} {s0 : State} {s : State} {k : Nat} {b : Bool} (kp_s : OnlyM M0 s0 s)
    (hm : Sub 0x8000000000000008000000000000000000000000000000000000000000000000000000000000000000000000 M0 := by exact Sub.of hm rfl) :
    OnlyM M0 s0 (State.setHeld s k b) := by
  unfold State.setHeld
  repeat' first
    | (refine Sub.of hm ?_; exact Eq.refl _) | (refine Sub.bit hm ?_; exact Eq.refl _)
    | with_reducible refine State.put_only (pendLoc_holds ..) ?_ ?_
    | with_reducible refine State.put_only (pbaLoc_holds ..) ?_ ?_
    | intro _ | with_reducible assumption

theorem State.hostSignal_only {M0 : Nat} {s0 : State} {s : State} {k : Nat} (kp_s : OnlyM M0 s0 s)
    (hm : Sub 0x8000000000000008000000000000000000000000000000000000000000000000000000000000000000400000 M0 := by exact Sub.of hm rfl) :
    OnlyM M0 s0 (State.hostSignal s k) := by
  unfold State.hostSignal
  repeat' first
    | (refine Sub.of hm ?_; exact Eq.refl _) | (refine Sub.bit hm ?_; exact Eq.refl _)
    | (refine Or.inl (Sub.bit hm ?_); exact Eq.refl _) | with_reducible exact Or.inr rfl
    | intro _ | with_reducible assumption
    | with_reducible apply State.setHeld_only | with_reducible apply OnlyM.ite
    | split | with_reducible apply OnlyM.update

theorem State.sendHeld_only {M0 : Nat} {s0 : State} {s : State} (kp_s : OnlyM M0 s0 s)
    (hm : Sub 0x8000000000000008000000000000000000000000000000000000000000000000000000000000000000400000 M0 := by exact Sub.of hm rfl) :
    OnlyM M0 s0 (State.sendHeld s) := by
  unfold State.sendHeld
  repeat' first
    | (refine Sub.of hm ?_; exact Eq.refl _) | (refine Sub.bit hm ?_; exact Eq.refl _)
    | intro _ | with_reducible assumption
    | with_reducible apply State.setHeld_only | with_reducible apply State.hostSignal_only
    | with_reducible apply State.each_only | with_reducible apply OnlyM.ite
    | split

theorem State.signalRing_only {M0 : Nat} {s0 : State} {s : State} {k : Nat} (kp_s : OnlyM M0 s0 s)
    (hm : Sub 0x8000000000000008000000000010200000000001880000000000000000000000000000000000000000408004 M0 := by exact Sub.of hm rfl) :
    OnlyM M0 s0 (State.signalRing s k) := by
  unfold State.signalRing
  repeat' first
    | (refine Sub.of hm ?_; exact Eq.refl _) | (refine Sub.bit hm ?_; exact Eq.refl _)
    | (refine Or.inl (Sub.bit hm ?_); exact Eq.refl _) | with_reducible exact Or.inr rfl
    | with_reducible refine State.inc_only (LEDG_RING_STAT_SIGS_holds ..) ?_ ?_
    | with_reducible refine State.put_only (ependLoc_holds ..) ?_ ?_
    | intro _ | with_reducible assumption
    | with_reducible apply State.setRingHid_only
    | with_reducible apply State.hostSignal_only
    | with_reducible apply State.interrupt_only | with_reducible apply OnlyM.ite
    | (extract_lets +onlyGivenNames x; refine OnlyM.cut (M0 := M0) (s0 := s0) x ?_ ?_ <;> first | (intro hx; clear_value x) | unfold x)
    | (extract_lets +onlyGivenNames x; clear_value x)
    | split | with_reducible apply OnlyM.update

theorem State.signalTarget_only {M0 : Nat} {s0 : State} {s : State} {t : Nat} (kp_s : OnlyM M0 s0 s)
    (hm : Sub 0x8000000000000008000000000010200000000001880000000000000000000000000000000000000000408004 M0 := by exact Sub.of hm rfl) :
    OnlyM M0 s0 (State.signalTarget s t) := by
  unfold State.signalTarget
  repeat' first
    | (refine Sub.of hm ?_; exact Eq.refl _) | (refine Sub.bit hm ?_; exact Eq.refl _)
    | intro _ | with_reducible assumption
    | with_reducible apply State.signalRing_only | with_reducible apply State.each_only
    | with_reducible apply OnlyM.ite
    | split

theorem State.deliverRec_only {M0 : Nat} {s0 : State} {s : State} {k : Nat} {r : LedRec} (kp_s : OnlyM M0 s0 s)
    (hm : Sub 0x28000000000200000000000000000000000000000000000000000000018009 M0 := by exact Sub.of hm rfl) :
    OnlyM M0 s0 (State.deliverRec s k r) := by
  unfold State.deliverRec
  repeat' first
    | (refine Sub.of hm ?_; exact Eq.refl _) | (refine Sub.bit hm ?_; exact Eq.refl _)
    | (refine Or.inl (Sub.bit hm ?_); exact Eq.refl _) | with_reducible exact Or.inr rfl
    | with_reducible refine State.set_only (LEDG_SRC_STATE_holds ..) ?_ ?_
    | intro _ | with_reducible assumption
    | with_reducible apply State.writeRecord_only
    | with_reducible apply OnlyM.ite
    | (extract_lets +onlyGivenNames x; refine OnlyM.cut (M0 := M0) (s0 := s0) x ?_ ?_ <;> first | (intro hx; clear_value x) | unfold x)
    | (extract_lets +onlyGivenNames x; clear_value x)
    | split | with_reducible apply OnlyM.update

theorem State.discardRec_only {M0 : Nat} {s0 : State} {s : State} {r : LedRec} (kp_s : OnlyM M0 s0 s)
    (hm : Sub 0x20100000000000000000000000000000000000000000000000000000000000 M0 := by exact Sub.of hm rfl) :
    OnlyM M0 s0 (State.discardRec s r) := by
  unfold State.discardRec
  repeat' first
    | (refine Sub.of hm ?_; exact Eq.refl _) | (refine Sub.bit hm ?_; exact Eq.refl _)
    | (refine Or.inl (Sub.bit hm ?_); exact Eq.refl _) | with_reducible exact Or.inr rfl
    | with_reducible refine State.inc_only LEDG_LOSTCNT_NORING_holds ?_ ?_
    | with_reducible refine State.set_only (LEDG_SRC_STATE_holds ..) ?_ ?_
    | intro _ | with_reducible assumption
    | (extract_lets +onlyGivenNames x; refine OnlyM.cut (M0 := M0) (s0 := s0) x ?_ ?_ <;> first | (intro hx; clear_value x) | unfold x)
    | (extract_lets +onlyGivenNames x; clear_value x)
    | split | with_reducible apply OnlyM.update

theorem State.deliver_only {M0 : Nat} {s0 : State} {s : State} {k : Nat} (kp_s : OnlyM M0 s0 s)
    (hm : Sub 0x800000000000000800000000003831000000020188000000000000000000000000000000000000000041800D M0 := by exact Sub.of hm rfl) :
    OnlyM M0 s0 (State.deliver s k) := by
  unfold State.deliver
  repeat' first
    | (refine Sub.of hm ?_; exact Eq.refl _) | (refine Sub.bit hm ?_; exact Eq.refl _)
    | (refine Or.inl (Sub.bit hm ?_); exact Eq.refl _) | with_reducible exact Or.inr rfl
    | intro _ | with_reducible assumption
    | with_reducible apply State.setQueue_only | with_reducible apply State.discardRec_only
    | with_reducible apply State.writeRecord_only | with_reducible apply State.setRingHid_only
    | with_reducible apply State.signalRing_only | with_reducible apply State.deliverRec_only
    | with_reducible apply OnlyOpt.none | with_reducible apply OnlyOpt.some
    | with_reducible apply OnlyM.ite
    | (extract_lets +onlyGivenNames x; refine OnlyM.cut (M0 := M0) (s0 := s0) x ?_ ?_ <;> first | (intro hx; clear_value x) | unfold x)
    | (extract_lets +onlyGivenNames x; clear_value x)
    | split | with_reducible apply OnlyM.update

theorem State.drain_only {M0 : Nat} {s0 s : State} {k n : Nat} (hs : OnlyM M0 s0 s)
    (hm : Sub 0x800000000000000800000000003831000000020188000000000000000000000000000000000000000041800D M0 := by exact Sub.of hm rfl) : OnlyM M0 s0 (s.drain k n) := by
  induction n generalizing s with
  | zero => exact hs
  | succ n ih => exact ih (State.deliver_only hs)

theorem State.drainAll_only {M0 : Nat} {s0 : State} {s : State} (kp_s : OnlyM M0 s0 s)
    (hm : Sub 0x800000000000000800000000003831000000020188000000000000000000000000000000000000000041800D M0 := by exact Sub.of hm rfl) :
    OnlyM M0 s0 (State.drainAll s) := by
  unfold State.drainAll
  repeat' first
    | (refine Sub.of hm ?_; exact Eq.refl _) | (refine Sub.bit hm ?_; exact Eq.refl _)
    | intro _ | with_reducible assumption
    | with_reducible apply State.drain_only | with_reducible apply State.signalRing_only
    | with_reducible apply State.each_only

theorem State.wakeRecord_only {M0 : Nat} {s0 : State} {s : State} {src nso detail : Nat} (kp_s : OnlyM M0 s0 s)
    (hm : Sub 0x3011000000000000000000000000000000000000000000000000000000000C M0 := by exact Sub.of hm rfl) :
    OnlyM M0 s0 (State.wakeRecord s src nso detail) := by
  unfold State.wakeRecord
  repeat' first
    | (refine Sub.of hm ?_; exact Eq.refl _) | (refine Sub.bit hm ?_; exact Eq.refl _)
    | with_reducible refine State.set_only (LEDG_SRC_STATE_holds ..) ?_ ?_
    | intro _ | with_reducible assumption
    | with_reducible apply State.createEventAt_only
    | with_reducible apply State.raiseLatch_only | with_reducible apply OnlyM.ite
    | split

theorem State.wakeRecords_only {M0 : Nat} {s0 : State} {s : State} (kp_s : OnlyM M0 s0 s)
    (hm : Sub 0x3011000000000000000000000000000000000000000000000000000000000C M0 := by exact Sub.of hm rfl) :
    OnlyM M0 s0 (State.wakeRecords s) := by
  unfold State.wakeRecords
  repeat' first
    | (refine Sub.of hm ?_; exact Eq.refl _) | (refine Sub.bit hm ?_; exact Eq.refl _)
    | (refine Or.inl (Sub.bit hm ?_); exact Eq.refl _) | with_reducible exact Or.inr rfl
    | intro _ | with_reducible assumption
    | with_reducible apply State.wakeRecord_only | with_reducible apply State.levelRecord_only
    | with_reducible apply State.each_only | with_reducible apply OnlyM.ite
    | (extract_lets +onlyGivenNames x; refine OnlyM.cut (M0 := M0) (s0 := s0) x ?_ ?_ <;> first | (intro hx; clear_value x) | unfold x)
    | (extract_lets +onlyGivenNames x; clear_value x)
    | split | with_reducible apply OnlyM.update

theorem State.recordWake_only {M0 : Nat} {s0 : State} {s : State} (kp_s : OnlyM M0 s0 s)
    (hm : Sub 0x400000000000000000000000000000000000000000000000000000000000 M0 := by exact Sub.of hm rfl) :
    OnlyM M0 s0 (State.recordWake s) := by
  unfold State.recordWake
  repeat' first
    | (refine Sub.of hm ?_; exact Eq.refl _) | (refine Sub.bit hm ?_; exact Eq.refl _)
    | (refine Or.inl (Sub.bit hm ?_); exact Eq.refl _) | with_reducible exact Or.inr rfl
    | with_reducible refine State.set_only LEDG_WAKE_SRC_holds ?_ ?_
    | with_reducible refine State.put_only LEDG_WAKE_VALID_holds ?_ ?_
    | intro _ | with_reducible assumption
    | with_reducible apply OnlyOpt.none | with_reducible apply OnlyOpt.some
    | split | with_reducible apply OnlyM.update

end Sys2Proof.Machine
end

