-- ==== Sys2Proof/Laws/OnlyEngine.lean ====
section
/-! SUPPORT. Which parts each operation of `Machine/Engine.lean` may change, and that it keeps what every command keeps: each
lemma follows the operation's own text, piece by piece, and gives the parts as a set of part numbers. -/

namespace Sys2Proof.Machine

theorem State.engWrite_only {M0 : Nat} {s0 : State} {s : State} {q : Requester} {e : Nat} {f : State → State} (kp_s : OnlyM M0 s0 s) (kp_f : ∀ t, OnlyM M0 s0 t → OnlyM M0 s0 (f t))
    (hm : Sub 0x400000000000000000000000000000000000001880000000000000000000000000000000000000000208000 M0 := by exact Sub.of hm rfl) :
    OnlyM M0 s0 (State.engWrite s q e f) := by
  unfold State.engWrite
  repeat' first
    | (refine Sub.of hm ?_; exact Eq.refl _) | (refine Sub.bit hm ?_; exact Eq.refl _)
    | intro _ | with_reducible assumption
    | with_reducible apply kp_f | with_reducible apply State.access_only
    | with_reducible apply State.answerDone_only

theorem execEngineStart_only {M0 : Nat} {s0 : State} {q : Requester} {e : EngNo} {s : State} (kp_s : OnlyM M0 s0 s)
    (hm : Sub 0x400000000000000000000000000000000000003880000000000000000000000000000000000000000208000 M0 := by exact Sub.of hm rfl) :
    OnlyOut M0 s0 (execEngineStart q e s) := by
  unfold execEngineStart
  repeat' first
    | (refine Sub.of hm ?_; exact Eq.refl _) | (refine Sub.bit hm ?_; exact Eq.refl _)
    | intro _ | with_reducible assumption
    | with_reducible apply State.engWrite_only | with_reducible apply State.engineStart_only
    | with_reducible apply OnlyOut.next | with_reducible apply OnlyOut.fault
    | with_reducible apply OnlyOut.ite | with_reducible apply OnlyM.ite
    | split

theorem execEngineHalt_only {M0 : Nat} {s0 : State} {q : Requester} {e : EngNo} {s : State} (kp_s : OnlyM M0 s0 s)
    (hm : Sub 0x40000000000000000000000003011000000000388000000000000000000000000000000000000000020800C M0 := by exact Sub.of hm rfl) :
    OnlyOut M0 s0 (execEngineHalt q e s) := by
  unfold execEngineHalt
  repeat' first
    | (refine Sub.of hm ?_; exact Eq.refl _) | (refine Sub.bit hm ?_; exact Eq.refl _)
    | intro _ | with_reducible assumption
    | with_reducible apply State.engWrite_only | with_reducible apply State.engineHalt_only
    | with_reducible apply OnlyOut.next | with_reducible apply OnlyOut.fault
    | with_reducible apply OnlyOut.ite

theorem execEngineReset_only {M0 : Nat} {s0 : State} {q : Requester} {e : EngNo} {s : State} (kp_s : OnlyM M0 s0 s)
    (hm : Sub 0x4000000000000000000000000301100000000038A000000000000000000000000000000000000000021800C M0 := by exact Sub.of hm rfl) :
    OnlyOut M0 s0 (execEngineReset q e s) := by
  unfold execEngineReset
  repeat' first
    | (refine Sub.of hm ?_; exact Eq.refl _) | (refine Sub.bit hm ?_; exact Eq.refl _)
    | intro _ | with_reducible assumption
    | with_reducible apply State.engWrite_only | with_reducible apply State.engineReset_only
    | with_reducible apply OnlyOut.next | with_reducible apply OnlyOut.fault
    | with_reducible apply OnlyOut.ite | with_reducible apply OnlyM.ite
    | split

theorem execEngineCmdIgnored_only {M0 : Nat} {s0 : State} {q : Requester} {e : EngNo} {s : State} (kp_s : OnlyM M0 s0 s)
    (hm : Sub 0x400000000000000000000000000000000000001880000000000000000000000000000000000000000208000 M0 := by exact Sub.of hm rfl) :
    OnlyOut M0 s0 (execEngineCmdIgnored q e s) := by
  unfold execEngineCmdIgnored
  repeat' first
    | (refine Sub.of hm ?_; exact Eq.refl _) | (refine Sub.bit hm ?_; exact Eq.refl _)
    | intro _ | with_reducible assumption
    | with_reducible apply State.engWrite_only | with_reducible apply OnlyOut.next
    | with_reducible apply OnlyOut.fault | with_reducible apply OnlyOut.ite | with_reducible apply OnlyM.id

theorem execTimerCompare_only {M0 : Nat} {s0 : State} {e : EngNo} {s : State} (kp_s : OnlyM M0 s0 s)
    (hm : Sub 0x1880000000000000000000000000000000000000000008000 M0 := by exact Sub.of hm rfl) :
    OnlyOut M0 s0 (execTimerCompare e s) := by
  unfold execTimerCompare
  repeat' first
    | (refine Sub.of hm ?_; exact Eq.refl _) | (refine Sub.bit hm ?_; exact Eq.refl _)
    | intro _ | with_reducible assumption
    | with_reducible apply State.interrupt_only | with_reducible apply OnlyOut.next
    | with_reducible apply OnlyOut.fault | with_reducible apply OnlyOut.ite
    | with_reducible apply OnlyM.ite
    | split

theorem State.doorbell_only {M0 : Nat} {s0 : State} {s : State} {c mask : Nat} (kp_s : OnlyM M0 s0 s)
    (hm : Sub 0x1881000000000000000000000000000000000000000008000 M0 := by exact Sub.of hm rfl) :
    OnlyM M0 s0 (State.doorbell s c mask) := by
  unfold State.doorbell
  repeat' first
    | (refine Sub.of hm ?_; exact Eq.refl _) | (refine Sub.bit hm ?_; exact Eq.refl _)
    | with_reducible refine State.set_only (CLU_DOORBELL_PEND_holds ..) ?_ ?_
    | intro _ | with_reducible assumption | with_reducible apply State.interrupt_only
    | with_reducible apply State.each_only | with_reducible apply OnlyM.ite
    | (extract_lets +onlyGivenNames x; refine OnlyM.cut (M0 := M0) (s0 := s0) x ?_ ?_ <;> first | (intro hx; clear_value x) | unfold x)
    | (extract_lets +onlyGivenNames x; clear_value x)
    | split

theorem State.cluWrite_only {M0 : Nat} {s0 : State} {s : State} {q : Requester} {c off : Nat} {f : State → State} (kp_s : OnlyM M0 s0 s) (kp_f : ∀ t, OnlyM M0 s0 t → OnlyM M0 s0 (f t))
    (hm : Sub 0x400000000000000000000000000000000000001880000000000000000000000000000000000000000208000 M0 := by exact Sub.of hm rfl) :
    OnlyM M0 s0 (State.cluWrite s q c off f) := by
  unfold State.cluWrite
  repeat' first
    | (refine Sub.of hm ?_; exact Eq.refl _) | (refine Sub.bit hm ?_; exact Eq.refl _)
    | intro _ | with_reducible assumption
    | with_reducible apply kp_f | with_reducible apply State.access_only
    | with_reducible apply State.answerDone_only

theorem execCluDoorbell_only {M0 : Nat} {s0 : State} {q : Requester} {c : CluNo} {mask : Byte} {s : State} (kp_s : OnlyM M0 s0 s)
    (hm : Sub 0x400000000000000000000000000000000000001881000000000000000000000000000000000000000208000 M0 := by exact Sub.of hm rfl) :
    OnlyOut M0 s0 (execCluDoorbell q c mask s) := by
  unfold execCluDoorbell
  repeat' first
    | (refine Sub.of hm ?_; exact Eq.refl _) | (refine Sub.bit hm ?_; exact Eq.refl _)
    | intro _ | with_reducible assumption
    | with_reducible apply State.cluWrite_only | with_reducible apply State.doorbell_only
    | with_reducible apply OnlyOut.next | with_reducible apply OnlyOut.fault
    | with_reducible apply OnlyOut.ite

theorem State.doorack_only {M0 : Nat} {s0 : State} {s : State} {c mask : Nat} (kp_s : OnlyM M0 s0 s)
    (hm : Sub 0x1000000000000000000000000000000000000000000000 M0 := by exact Sub.of hm rfl) :
    OnlyM M0 s0 (State.doorack s c mask) := by
  unfold State.doorack
  repeat' first
    | (refine Sub.of hm ?_; exact Eq.refl _) | (refine Sub.bit hm ?_; exact Eq.refl _)
    | with_reducible refine State.set_only (CLU_DOORBELL_PEND_holds ..) ?_ ?_
    | intro _ | with_reducible assumption | with_reducible apply foldl_only
    | with_reducible apply OnlyM.ite
    | split

theorem execCluDoorack_only {M0 : Nat} {s0 : State} {q : Requester} {c : CluNo} {mask : Byte} {s : State} (kp_s : OnlyM M0 s0 s)
    (hm : Sub 0x400000000000000000000000000000000000001881000000000000000000000000000000000000000208000 M0 := by exact Sub.of hm rfl) :
    OnlyOut M0 s0 (execCluDoorack q c mask s) := by
  unfold execCluDoorack
  repeat' first
    | (refine Sub.of hm ?_; exact Eq.refl _) | (refine Sub.bit hm ?_; exact Eq.refl _)
    | intro _ | with_reducible assumption
    | with_reducible apply State.cluWrite_only | with_reducible apply State.doorack_only
    | with_reducible apply OnlyOut.next | with_reducible apply OnlyOut.fault
    | with_reducible apply OnlyOut.ite

theorem State.cluErr_only {M0 : Nat} {s0 : State} {s : State} {c reason lock : Nat} {q : Requester} (kp_s : OnlyM M0 s0 s)
    (hm : Sub 0x4000000000000000000000000000000000000000000000 M0 := by exact Sub.of hm rfl) :
    OnlyM M0 s0 (State.cluErr s c reason lock q) := by
  unfold State.cluErr
  repeat' first
    | (refine Sub.of hm ?_; exact Eq.refl _) | (refine Sub.bit hm ?_; exact Eq.refl _)
    | (refine Or.inl (Sub.bit hm ?_); exact Eq.refl _) | with_reducible exact Or.inr rfl
    | with_reducible refine State.set_only (CLU_ERR_REASON_holds ..) ?_ ?_
    | with_reducible refine State.set_only (CLU_ERR_LOCK_holds ..) ?_ ?_
    | with_reducible refine State.set_only (CLU_ERR_ENGINE_holds ..) ?_ ?_
    | with_reducible refine State.put_only (CLU_ERR_VALID_holds ..) ?_ ?_
    | intro _ | with_reducible assumption
    | with_reducible apply OnlyM.ite
    | (extract_lets +onlyGivenNames x; refine OnlyM.cut (M0 := M0) (s0 := s0) x ?_ ?_ <;> first | (intro hx; clear_value x) | unfold x)
    | (extract_lets +onlyGivenNames x; clear_value x)
    | split | with_reducible apply OnlyM.update

theorem State.lockCommand_only {M0 : Nat} {s0 : State} {s : State} {q : Requester} {c j i cmd : Nat} (kp_s : OnlyM M0 s0 s)
    (hm : Sub 0x301100000000000A400000000000000000000000000000000000000000800C M0 := by exact Sub.of hm rfl) :
    OnlyM M0 s0 (State.lockCommand s q c j i cmd) := by
  unfold State.lockCommand
  repeat' first
    | (refine Sub.of hm ?_; exact Eq.refl _) | (refine Sub.bit hm ?_; exact Eq.refl _)
    | (refine Or.inl (Sub.bit hm ?_); exact Eq.refl _) | with_reducible exact Or.inr rfl
    | with_reducible refine State.put_only (lockWaitLoc_holds ..) ?_ ?_
    | with_reducible refine State.put_only (CLU_LOCK_BROKEN_holds ..) ?_ ?_
    | intro _ | with_reducible assumption
    | with_reducible apply State.cluErr_only
    | with_reducible apply State.lockGrant_only | with_reducible apply State.lockFree_only
    | with_reducible apply OnlyOpt.none | with_reducible apply OnlyOpt.some
    | with_reducible apply OnlyM.ite
    | (extract_lets +onlyGivenNames x; refine OnlyM.cut (M0 := M0) (s0 := s0) x ?_ ?_ <;> first | (intro hx; clear_value x) | unfold x)
    | (extract_lets +onlyGivenNames x; clear_value x)
    | split | with_reducible apply OnlyM.update

theorem State.lockWrite_only {M0 : Nat} {s0 : State} {s : State} {q : Requester} {c j cmd : Nat} (kp_s : OnlyM M0 s0 s)
    (hm : Sub 0x4000000000000000000000000301100000000018A400000000000000000000000000000000000000020800C M0 := by exact Sub.of hm rfl) :
    OnlyM M0 s0 (State.lockWrite s q c j cmd) := by
  unfold State.lockWrite
  repeat' first
    | (refine Sub.of hm ?_; exact Eq.refl _) | (refine Sub.bit hm ?_; exact Eq.refl _)
    | (refine Or.inl (Sub.bit hm ?_); exact Eq.refl _) | with_reducible exact Or.inr rfl
    | intro _ | with_reducible assumption
    | with_reducible apply State.cluWrite_only | with_reducible apply State.cluErr_only
    | with_reducible apply State.lockCommand_only
    | split | with_reducible apply OnlyM.update

theorem execAcq_only {M0 : Nat} {s0 : State} {q : Requester} {c : CluNo} {j : Fin 64} {s : State} (kp_s : OnlyM M0 s0 s)
    (hm : Sub 0x4000000000000000000000000301100000000018A400000000000000000000000000000000000000020800C M0 := by exact Sub.of hm rfl) :
    OnlyOut M0 s0 (execAcq q c j s) := by
  unfold execAcq
  repeat' first
    | (refine Sub.of hm ?_; exact Eq.refl _) | (refine Sub.bit hm ?_; exact Eq.refl _)
    | intro _ | with_reducible assumption
    | with_reducible apply State.lockWrite_only | with_reducible apply OnlyOut.next
    | with_reducible apply OnlyOut.fault | with_reducible apply OnlyOut.ite

theorem execTry_only {M0 : Nat} {s0 : State} {q : Requester} {c : CluNo} {j : Fin 64} {s : State} (kp_s : OnlyM M0 s0 s)
    (hm : Sub 0x4000000000000000000000000301100000000018A400000000000000000000000000000000000000020800C M0 := by exact Sub.of hm rfl) :
    OnlyOut M0 s0 (execTry q c j s) := by
  unfold execTry
  repeat' first
    | (refine Sub.of hm ?_; exact Eq.refl _) | (refine Sub.bit hm ?_; exact Eq.refl _)
    | intro _ | with_reducible assumption
    | with_reducible apply State.lockWrite_only | with_reducible apply OnlyOut.next
    | with_reducible apply OnlyOut.fault | with_reducible apply OnlyOut.ite

theorem execRel_only {M0 : Nat} {s0 : State} {q : Requester} {c : CluNo} {j : Fin 64} {s : State} (kp_s : OnlyM M0 s0 s)
    (hm : Sub 0x4000000000000000000000000301100000000018A400000000000000000000000000000000000000020800C M0 := by exact Sub.of hm rfl) :
    OnlyOut M0 s0 (execRel q c j s) := by
  unfold execRel
  repeat' first
    | (refine Sub.of hm ?_; exact Eq.refl _) | (refine Sub.bit hm ?_; exact Eq.refl _)
    | intro _ | with_reducible assumption
    | with_reducible apply State.lockWrite_only | with_reducible apply OnlyOut.next
    | with_reducible apply OnlyOut.fault | with_reducible apply OnlyOut.ite

theorem execFix_only {M0 : Nat} {s0 : State} {q : Requester} {c : CluNo} {j : Fin 64} {s : State} (kp_s : OnlyM M0 s0 s)
    (hm : Sub 0x4000000000000000000000000301100000000018A400000000000000000000000000000000000000020800C M0 := by exact Sub.of hm rfl) :
    OnlyOut M0 s0 (execFix q c j s) := by
  unfold execFix
  repeat' first
    | (refine Sub.of hm ?_; exact Eq.refl _) | (refine Sub.bit hm ?_; exact Eq.refl _)
    | intro _ | with_reducible assumption
    | with_reducible apply State.lockWrite_only | with_reducible apply OnlyOut.next
    | with_reducible apply OnlyOut.fault | with_reducible apply OnlyOut.ite

theorem execWithdraw_only {M0 : Nat} {s0 : State} {q : Requester} {c : CluNo} {j : Fin 64} {s : State} (kp_s : OnlyM M0 s0 s)
    (hm : Sub 0x4000000000000000000000000301100000000018A400000000000000000000000000000000000000020800C M0 := by exact Sub.of hm rfl) :
    OnlyOut M0 s0 (execWithdraw q c j s) := by
  unfold execWithdraw
  repeat' first
    | (refine Sub.of hm ?_; exact Eq.refl _) | (refine Sub.bit hm ?_; exact Eq.refl _)
    | intro _ | with_reducible assumption
    | with_reducible apply State.lockWrite_only | with_reducible apply OnlyOut.next
    | with_reducible apply OnlyOut.fault | with_reducible apply OnlyOut.ite

theorem execLockCmdIgnored_only {M0 : Nat} {s0 : State} {q : Requester} {c : CluNo} {j : Fin 64} {cmd : Fin 8} {s : State} (kp_s : OnlyM M0 s0 s)
    (hm : Sub 0x400000000000000000000000000000000000001884000000000000000000000000000000000000000208000 M0 := by exact Sub.of hm rfl) :
    OnlyOut M0 s0 (execLockCmdIgnored q c j cmd s) := by
  unfold execLockCmdIgnored
  repeat' first
    | (refine Sub.of hm ?_; exact Eq.refl _) | (refine Sub.bit hm ?_; exact Eq.refl _)
    | intro _ | with_reducible assumption
    | with_reducible apply State.cluWrite_only | with_reducible apply State.cluErr_only
    | with_reducible apply OnlyOut.next | with_reducible apply OnlyOut.fault
    | with_reducible apply OnlyOut.ite | with_reducible apply OnlyM.ite
    | split

theorem State.isramPut_only {M0 : Nat} {s0 : State} {s : State} {c o : Nat} {bs : List Byte} (kp_s : OnlyM M0 s0 s)
    (hm : Sub 0x8000 M0 := by exact Sub.of hm rfl) :
    OnlyM M0 s0 (State.isramPut s c o bs) := by
  unfold State.isramPut
  repeat' first
    | (refine Sub.of hm ?_; exact Eq.refl _) | (refine Sub.bit hm ?_; exact Eq.refl _)
    | (refine Or.inl (Sub.bit hm ?_); exact Eq.refl _) | with_reducible exact Or.inr rfl
    | intro _ | with_reducible assumption
    | with_reducible apply State.setCluster_only | with_reducible apply foldl_only
    | (extract_lets +onlyGivenNames x; refine OnlyM.cut (M0 := M0) (s0 := s0) x ?_ ?_ <;> first | (intro hx; clear_value x) | unfold x)
    | (extract_lets +onlyGivenNames x; clear_value x)
    | with_reducible apply OnlyM.update

theorem State.isramWrite_only {M0 : Nat} {s0 : State} {s : State} {q : Requester} {c o : Nat} {w : Word} (kp_s : OnlyM M0 s0 s)
    (hm : Sub 0x4000000000000000000000000000000000000000008000 M0 := by exact Sub.of hm rfl) :
    OnlyM M0 s0 (State.isramWrite s q c o w) := by
  unfold State.isramWrite
  repeat' first
    | (refine Sub.of hm ?_; exact Eq.refl _) | (refine Sub.bit hm ?_; exact Eq.refl _)
    | intro _ | with_reducible assumption
    | with_reducible apply State.isramPut_only | with_reducible apply State.cluErr_only
    | with_reducible apply OnlyM.ite
    | split

theorem execIsramWrite_only {M0 : Nat} {s0 : State} {q : Requester} {c : CluNo} {k : Fin 16384} {w : Word} {s : State} (kp_s : OnlyM M0 s0 s)
    (hm : Sub 0x400000000000000000000000000000000000001884000000000000000000000000000000000000000208000 M0 := by exact Sub.of hm rfl) :
    OnlyOut M0 s0 (execIsramWrite q c k w s) := by
  unfold execIsramWrite
  repeat' first
    | (refine Sub.of hm ?_; exact Eq.refl _) | (refine Sub.bit hm ?_; exact Eq.refl _)
    | intro _ | with_reducible assumption
    | with_reducible apply State.hostWrite_only | with_reducible apply State.isramWrite_only
    | with_reducible apply OnlyOut.next | with_reducible apply OnlyOut.fault
    | with_reducible apply OnlyOut.ite

theorem State.retire_only {M0 : Nat} {s0 : State} {s : State} {e : Nat} (kp_s : OnlyM M0 s0 s)
    (hm : Sub 0x8000 M0 := by exact Sub.of hm rfl) :
    OnlyM M0 s0 (State.retire s e) := by
  unfold State.retire
  repeat' first
    | (refine Sub.of hm ?_; exact Eq.refl _) | (refine Sub.bit hm ?_; exact Eq.refl _)
    | (refine Or.inl (Sub.bit hm ?_); exact Eq.refl _) | with_reducible exact Or.inr rfl
    | intro _ | with_reducible assumption
    | with_reducible apply State.modEngine_only
    | with_reducible apply OnlyM.update

theorem execWfi_only {M0 : Nat} {s0 : State} {e : EngNo} {s : State} (kp_s : OnlyM M0 s0 s)
    (hm : Sub 0x8000000000000008000000000010200000000001880000000000000000000000000000000000000000408004 M0 := by exact Sub.of hm rfl) :
    OnlyOut M0 s0 (execWfi e s) := by
  unfold execWfi
  repeat' first
    | (refine Sub.of hm ?_; exact Eq.refl _) | (refine Sub.bit hm ?_; exact Eq.refl _)
    | with_reducible refine State.set_only (ENG_STAT_STATE_holds ..) ?_ ?_
    | intro _ | with_reducible assumption
    | with_reducible apply State.trap_only | with_reducible apply State.retire_only | with_reducible apply State.interrupt_only
    | with_reducible apply State.signalTarget_only | with_reducible apply OnlyOut.next
    | with_reducible apply OnlyOut.fault | with_reducible apply OnlyOut.ite
    | with_reducible apply OnlyM.ite
    | (extract_lets +onlyGivenNames x; refine OnlyM.cut (M0 := M0) (s0 := s0) x ?_ ?_ <;> first | (intro hx; clear_value x) | unfold x)
    | (extract_lets +onlyGivenNames x; clear_value x)
    | split

theorem execMret_only {M0 : Nat} {s0 : State} {e : EngNo} {s : State} (kp_s : OnlyM M0 s0 s)
    (hm : Sub 0x1880000000000000000000000000000000000000000008000 M0 := by exact Sub.of hm rfl) :
    OnlyOut M0 s0 (execMret e s) := by
  unfold execMret
  repeat' first
    | (refine Sub.of hm ?_; exact Eq.refl _) | (refine Sub.bit hm ?_; exact Eq.refl _)
    | (refine Or.inl (Sub.bit hm ?_); exact Eq.refl _) | with_reducible exact Or.inr rfl
    | intro _ | with_reducible assumption
    | with_reducible apply State.trap_only | with_reducible apply State.setEngine_only
    | with_reducible apply State.xactive_only | with_reducible apply State.interrupt_only
    | with_reducible apply OnlyOut.next | with_reducible apply OnlyOut.fault
    | with_reducible apply OnlyOut.ite | with_reducible apply OnlyM.ite
    | (extract_lets +onlyGivenNames x; refine OnlyM.cut (M0 := M0) (s0 := s0) x ?_ ?_ <;> first | (intro hx; clear_value x) | unfold x)
    | (extract_lets +onlyGivenNames x; clear_value x)
    | split | with_reducible apply OnlyM.update

theorem execXcclean_only {M0 : Nat} {s0 : State} {e : EngNo} {a : Word} {s : State} (kp_s : OnlyM M0 s0 s)
    (hm : Sub 0x1880000000000000000000000000000000000000000218001 M0 := by exact Sub.of hm rfl) :
    OnlyOut M0 s0 (execXcclean e a s) := by
  unfold execXcclean
  repeat' first
    | (refine Sub.of hm ?_; exact Eq.refl _) | (refine Sub.bit hm ?_; exact Eq.refl _)
    | (refine Or.inl (Sub.bit hm ?_); exact Eq.refl _) | with_reducible exact Or.inr rfl
    | intro _ | with_reducible assumption
    | with_reducible apply State.accTrap_only | with_reducible apply State.writeBackL1_only
    | with_reducible apply State.writeLine_only | with_reducible apply State.setL2_only
    | with_reducible apply State.retire_only | with_reducible apply OnlyOut.next
    | with_reducible apply OnlyOut.fault | with_reducible apply OnlyOut.ite
    | with_reducible apply OnlyOpt.none | with_reducible apply OnlyOpt.some
    | with_reducible apply OnlyM.ite
    | (extract_lets +onlyGivenNames x; refine OnlyM.cut (M0 := M0) (s0 := s0) x ?_ ?_ <;> first | (intro hx; clear_value x) | unfold x)
    | (extract_lets +onlyGivenNames x; clear_value x)
    | split | with_reducible apply OnlyM.update

theorem execXcflush_only {M0 : Nat} {s0 : State} {e : EngNo} {a : Word} {s : State} (kp_s : OnlyM M0 s0 s)
    (hm : Sub 0x1880000000000000000000000000000000000000000218001 M0 := by exact Sub.of hm rfl) :
    OnlyOut M0 s0 (execXcflush e a s) := by
  unfold execXcflush
  repeat' first
    | (refine Sub.of hm ?_; exact Eq.refl _) | (refine Sub.bit hm ?_; exact Eq.refl _)
    | (refine Or.inl (Sub.bit hm ?_); exact Eq.refl _) | with_reducible exact Or.inr rfl
    | intro _ | with_reducible assumption
    | with_reducible apply State.accTrap_only | with_reducible apply State.cleanRegion_only
    | with_reducible apply State.dropLine_only | with_reducible apply State.retire_only
    | with_reducible apply OnlyOut.next | with_reducible apply OnlyOut.fault
    | with_reducible apply OnlyOut.ite | with_reducible apply OnlyOpt.none
    | with_reducible apply OnlyOpt.some | with_reducible apply OnlyM.ite
    | split | with_reducible apply OnlyM.update

theorem State.ownLine_only {M0 : Nat} {s0 : State} {s : State} {e line : Nat} (kp_s : OnlyM M0 s0 s)
    (hm : Sub 0x3011000000060188000000000000000000000000000000000000000021800D M0 := by exact Sub.of hm rfl) :
    OnlyM M0 s0 (State.ownLine s e line) := by
  unfold State.ownLine
  repeat' first
    | (refine Sub.of hm ?_; exact Eq.refl _) | (refine Sub.bit hm ?_; exact Eq.refl _)
    | (refine Or.inl (Sub.bit hm ?_); exact Eq.refl _) | with_reducible exact Or.inr rfl
    | intro _ | with_reducible assumption
    | with_reducible apply State.poisonRead_only | with_reducible apply State.accTrap_only
    | with_reducible apply State.fillL1_only | with_reducible apply State.setL1_only
    | with_reducible apply OnlyOpt.none | with_reducible apply OnlyOpt.some
    | (extract_lets +onlyGivenNames x; refine OnlyM.cut (M0 := M0) (s0 := s0) x ?_ ?_ <;> first | (intro hx; clear_value x) | unfold x)
    | (extract_lets +onlyGivenNames x; clear_value x)
    | split | with_reducible apply OnlyM.update

theorem execOwnershipRequest_only {M0 : Nat} {s0 : State} {r : RgnNo} {line : Fin 1048576} {evict : Option (Fin 64)} {reqs : List (Fin 64)} {s : State} (kp_s : OnlyM M0 s0 s)
    (hm : Sub 0x3011000000060188010000000000000000000000000000000000000021800D M0 := by exact Sub.of hm rfl) :
    OnlyOut M0 s0 (execOwnershipRequest r line evict reqs s) := by
  unfold execOwnershipRequest
  repeat' first
    | (refine Sub.of hm ?_; exact Eq.refl _) | (refine Sub.bit hm ?_; exact Eq.refl _)
    | (refine Or.inl (Sub.bit hm ?_); exact Eq.refl _) | with_reducible exact Or.inr rfl
    | with_reducible refine State.inc_only (RGN_DIRCNT_CONTEND_holds ..) ?_ ?_
    | with_reducible refine State.add_only (RGN_DIRCNT_EXTRA_holds ..) ?_ ?_
    | intro _ | with_reducible assumption
    | with_reducible apply State.writeBackL1_only | with_reducible apply State.setL1_only
    | with_reducible apply State.ownLine_only | with_reducible apply State.setRegion_only
    | with_reducible apply OnlyOut.next | with_reducible apply OnlyOut.fault
    | with_reducible apply OnlyOut.ite | with_reducible apply State.each_only
    | with_reducible apply OnlyOpt.none | with_reducible apply OnlyOpt.some
    | with_reducible apply OnlyM.ite
    | (extract_lets +onlyGivenNames x; refine OnlyM.cut (M0 := M0) (s0 := s0) x ?_ ?_ <;> first | (intro hx; clear_value x) | unfold x)
    | (extract_lets +onlyGivenNames x; clear_value x)
    | split | with_reducible apply OnlyM.update

end Sys2Proof.Machine
end

