-- ==== Sys2Proof/Laws/OnlyVaultOps.lean ====
section
/-! SUPPORT. Which parts each operation of `Machine/VaultOps.lean` may change, and that it keeps what every command keeps: each
lemma follows the operation's own text, piece by piece, and gives the parts as a set of part numbers. -/

namespace Sys2Proof.Machine

theorem State.draw_only {M0 : Nat} {s0 : State} {s : State} (kp_s : OnlyM M0 s0 s)
    (hm : Sub 0x80000 M0 := by exact Sub.of hm rfl) :
    OnlyM M0 s0 (State.draw s).2 := by
  unfold State.draw
  repeat' first
    | (refine Sub.of hm ?_; exact Eq.refl _) | (refine Sub.bit hm ?_; exact Eq.refl _)
    | (refine Or.inl (Sub.bit hm ?_); exact Eq.refl _) | with_reducible exact Or.inr rfl
    | intro _ | with_reducible assumption
    | with_reducible apply State.modVault_only | with_reducible apply State.modVault_only
    | exact rfl | exact Nat.le_refl _ | exact Nat.le_succ _
    | with_reducible apply OnlyM.update

theorem State.setKey_only {M0 : Nat} {s0 : State} {s : State} {h : Nat} {k : List Byte} (kp_s : OnlyM M0 s0 s)
    (hm : Sub 0x80000 M0 := by exact Sub.of hm rfl) :
    OnlyM M0 s0 (State.setKey s h k) := by
  unfold State.setKey
  repeat' first
    | (refine Sub.of hm ?_; exact Eq.refl _) | (refine Sub.bit hm ?_; exact Eq.refl _)
    | (refine Or.inl (Sub.bit hm ?_); exact Eq.refl _) | with_reducible exact Or.inr rfl
    | intro _ | with_reducible assumption
    | with_reducible apply State.modVault_only | with_reducible apply State.modVault_only
    | exact rfl | exact Nat.le_refl _ | exact Nat.le_succ _
    | with_reducible apply OnlyM.update

theorem State.sealedState_only {M0 : Nat} {s0 : State} {s : State} (kp_s : OnlyM M0 s0 s)
    (hm : Sub 0x100000000000000000000000000000000000000000000000000000000000000000000000008 M0 := by exact Sub.of hm rfl) :
    OnlyM M0 s0 (State.sealedState s) := by
  unfold State.sealedState
  repeat' first
    | (refine Sub.of hm ?_; exact Eq.refl _) | (refine Sub.bit hm ?_; exact Eq.refl _)
    | with_reducible refine State.set_only VIT_STAT_NUNUSABLE_holds ?_ ?_
    | intro _ | with_reducible assumption | with_reducible apply State.endCond_only
    | with_reducible apply OnlyM.ite
    | (extract_lets +onlyGivenNames x; refine OnlyM.cut (M0 := M0) (s0 := s0) x ?_ ?_ <;> first | (intro hx; clear_value x) | unfold x)
    | (extract_lets +onlyGivenNames x; clear_value x)
    | split

theorem State.sealedFail_only {M0 : Nat} {s0 : State} {s : State} {i : Nat} (kp_s : OnlyM M0 s0 s)
    (hm : Sub 0x2010000000000003011000000000000000000000000000000000000000000000000000000000C M0 := by exact Sub.of hm rfl) :
    OnlyM M0 s0 (State.sealedFail s i) := by
  unfold State.sealedFail
  repeat' first
    | (refine Sub.of hm ?_; exact Eq.refl _) | (refine Sub.bit hm ?_; exact Eq.refl _)
    | with_reducible refine State.set_only (VIT_SLOT_STATE_holds ..) ?_ ?_
    | intro _ | with_reducible assumption | with_reducible apply State.sealedState_only
    | with_reducible apply State.raise_only | with_reducible apply State.occur_only

theorem State.tlogAt_only {M0 : Nat} {s0 : State} {s : State} {type arg data stamp : Nat} (kp_s : OnlyM M0 s0 s)
    (hm : Sub 0x4000000000000000003011000000000000000000000000000000000000000000000000000008000C M0 := by exact Sub.of hm rfl) :
    OnlyM M0 s0 (State.tlogAt s type arg data stamp) := by
  unfold State.tlogAt
  repeat' first
    | (refine Sub.of hm ?_; exact Eq.refl _) | (refine Sub.bit hm ?_; exact Eq.refl _)
    | (refine Or.inl (Sub.bit hm ?_); exact Eq.refl _) | with_reducible exact Or.inr rfl
    | with_reducible refine State.setWord_only (Part.holds.own (VAULT_TLOG_W_holds ..)) ?_ ?_
    | intro _ | with_reducible assumption
    | with_reducible apply State.modVault_only
    | with_reducible apply State.raise_only | with_reducible apply State.each_only
    | with_reducible apply State.modVault_only
    | exact rfl | exact Nat.le_refl _ | exact Nat.le_succ _
    | (extract_lets +onlyGivenNames x; refine OnlyM.cut (M0 := M0) (s0 := s0) x ?_ ?_ <;> first | (intro hx; clear_value x) | unfold x)
    | (extract_lets +onlyGivenNames x; clear_value x)
    | with_reducible apply OnlyM.update

theorem State.tlog_only {M0 : Nat} {s0 : State} {s : State} {type arg data : Nat} (kp_s : OnlyM M0 s0 s)
    (hm : Sub 0x4000000000000000003011000000000000000000000000000000000000000000000000000008000C M0 := by exact Sub.of hm rfl) :
    OnlyM M0 s0 (State.tlog s type arg data) := by
  unfold State.tlog
  repeat' first
    | (refine Sub.of hm ?_; exact Eq.refl _) | (refine Sub.bit hm ?_; exact Eq.refl _)
    | intro _ | with_reducible assumption
    | with_reducible apply State.tlogAt_only

theorem State.setCounter_only {M0 : Nat} {s0 s : State} {k : Nat} {c : Counter} (hs : OnlyM M0 s0 s)
    (hc : (s.counter k).value ≤ c.value) (hm : Sub 0x30000000000000000000000000000000000000000000000000000000000000000000000000080000 M0 := by exact Sub.of hm rfl) : OnlyM M0 s0 (s.setCounter k c) := by
  unfold State.setCounter
  extract_lets t
  have h : OnlyM M0 s0 t :=
    { hs with words := hs.words, vault := Or.inl (Sub.bit hm rfl),
              keeps := ⟨hs.keeps.regs, hs.keeps.mem, hs.keeps.pending, fun i => Nat.le_trans (hs.keeps.counters i) (by
                simp only [t, State.counter, State.modVault, smapFind_put] at hc ⊢
                split
                · subst i; exact hc
                · exact Nat.le_refl _), hs.keeps.tlog⟩ }
  clear_value t
  split
  · exact State.set_only (VAULT_MC_VALUE_holds ..) h (Sub.bit hm rfl)
  · exact State.set_only (VAULT_FV_VALUE_holds ..) h (Sub.bit hm rfl)

theorem State.counterFail_only {M0 : Nat} {s0 : State} {s : State} {k : Nat} (kp_s : OnlyM M0 s0 s)
    (hm : Sub 0x7000000000000000003011000000000000000000000000000000000000000000000000000008000C M0 := by exact Sub.of hm rfl) :
    OnlyM M0 s0 (State.counterFail s k) := by
  unfold State.counterFail
  repeat' first
    | (refine Sub.of hm ?_; exact Eq.refl _) | (refine Sub.bit hm ?_; exact Eq.refl _)
    | with_reducible unfold rdonlyLoc
    | with_reducible refine State.put_only (VAULT_MC_RDONLY_holds ..) ?_ ?_
    | with_reducible refine State.put_only (VAULT_FV_RDONLY_holds ..) ?_ ?_
    | with_reducible refine State.put_only (rdonlyLoc_holds ..) ?_ ?_
    | intro _ | with_reducible assumption | with_reducible apply State.tlog_only
    | with_reducible apply State.raise_only | with_reducible apply State.occur_only | split

theorem State.counterWear_only {M0 : Nat} {s0 s : State} {k w : Nat} (hs : OnlyM M0 s0 s)
    (hm : Sub 0x7080000000000000003011000000000000000000000000000000000000000000000000000008000C M0 := by exact Sub.of hm rfl) :
    OnlyM M0 s0 (s.counterWear k w).2 := by
  unfold State.counterWear
  extract_lets c hits s1 s2
  split
  · exact State.setCounter_only hs (Nat.le_refl _)
  · split
    · exact State.counterFail_only hs
    · exact State.report_only (State.raise_only (State.inc_only VAULT_MRAM_MIG_holds
        (State.set_only VAULT_MRAM_SPARES_holds
          (State.setCounter_only hs (Nat.le_refl _)) (Sub.bit hm rfl)) (Sub.bit hm rfl)))

theorem State.advance_only {M0 : Nat} {s0 s : State} {k v : Nat} {m : MramSeen} (hs : OnlyM M0 s0 s)
    (hm : Sub 0x7080000000000000003011000000000000000000000000000000000000000000000000000008000C M0 := by exact Sub.of hm rfl) :
    OnlyM M0 s0 (s.advance k v m).2 := by
  unfold State.advance
  split
  · exact hs
  · split
    · exact State.counterFail_only hs
    · exact State.setCounter_only hs (Nat.le_max_left _ _)
    · have h := State.counterWear_only (k := k) (w := (s.counter k).writes % 4) hs
      split
      rename_i ok t e
      rw [e] at h
      split
      · exact State.setCounter_only h (Nat.le_max_left _ _)
      · exact h

end Sys2Proof.Machine
end

