-- ==== Sys2Proof/Laws/OnlyTimeOps.lean ====
section
/-! SUPPORT. Which parts each operation of `Machine/TimeOps.lean` may change, and that it keeps what every command keeps: each
lemma follows the operation's own text, piece by piece, and gives the parts as a set of part numbers. -/

namespace Sys2Proof.Machine

theorem State.modTime_only {M0 : Nat} {s0 : State} {s : State} {f : TimeUnit → TimeUnit} (kp_s : OnlyM M0 s0 s)
    (hm : Sub 0x10 M0 := by exact Sub.of hm rfl) :
    OnlyM M0 s0 (State.modTime s f) := by
  unfold State.modTime
  repeat' first
    | (refine Sub.of hm ?_; exact Eq.refl _) | (refine Sub.bit hm ?_; exact Eq.refl _)
    | (refine Or.inl (Sub.bit hm ?_); exact Eq.refl _) | with_reducible exact Or.inr rfl
    | intro _ | with_reducible assumption
    | with_reducible apply OnlyM.update

theorem State.setVault_only {M0 : Nat} {s0 : State} {s : State} {sec frac : Nat} {valid : Bool} (kp_s : OnlyM M0 s0 s)
    (hm : Sub 0x80000000000000000000000000000000000000000000000000000000 M0 := by exact Sub.of hm rfl) :
    OnlyM M0 s0 (State.setVault s sec frac valid) := by
  unfold State.setVault
  repeat' first
    | (refine Sub.of hm ?_; exact Eq.refl _) | (refine Sub.bit hm ?_; exact Eq.refl _)
    | with_reducible refine State.setWord64_only (Part.holds.own TIME_VT_FRAC_holds) TIME_VT_FRAC_next ?_ ?_
    | intro _ | with_reducible assumption | with_reducible apply OnlyM.ite
    | split

theorem State.loadVault_only {M0 : Nat} {s0 : State} {s : State} (kp_s : OnlyM M0 s0 s)
    (hm : Sub 0x80000000000000000000000000000000000000000000000000000010 M0 := by exact Sub.of hm rfl) :
    OnlyM M0 s0 (State.loadVault s) := by
  unfold State.loadVault
  repeat' first
    | (refine Sub.of hm ?_; exact Eq.refl _) | (refine Sub.bit hm ?_; exact Eq.refl _)
    | (refine Or.inl (Sub.bit hm ?_); exact Eq.refl _) | with_reducible exact Or.inr rfl
    | intro _ | with_reducible assumption
    | with_reducible apply State.modTime_only | with_reducible apply State.setVault_only
    | with_reducible apply OnlyM.update

theorem State.vaultTick_only {M0 : Nat} {s0 : State} {s : State} (kp_s : OnlyM M0 s0 s)
    (hm : Sub 0x80000000000000000000000000000000000000000000000000000010 M0 := by exact Sub.of hm rfl) :
    OnlyM M0 s0 (State.vaultTick s) := by
  unfold State.vaultTick
  repeat' first
    | (refine Sub.of hm ?_; exact Eq.refl _) | (refine Sub.bit hm ?_; exact Eq.refl _)
    | (refine Or.inl (Sub.bit hm ?_); exact Eq.refl _) | with_reducible exact Or.inr rfl
    | intro _ | with_reducible assumption
    | with_reducible apply State.modTime_only | with_reducible apply State.setVault_only
    | with_reducible apply OnlyM.ite
    | (extract_lets +onlyGivenNames x; refine OnlyM.cut (M0 := M0) (s0 := s0) x ?_ ?_ <;> first | (intro hx; clear_value x) | unfold x)
    | (extract_lets +onlyGivenNames x; clear_value x)
    | split | with_reducible apply OnlyM.update

theorem State.tick_only {M0 : Nat} {s0 : State} {s : State} (kp_s : OnlyM M0 s0 s)
    (hm : Sub 0x80000000000000000000000000000000000000000000000000000010 M0 := by exact Sub.of hm rfl) :
    OnlyM M0 s0 (State.tick s) := by
  unfold State.tick
  repeat' first
    | (refine Sub.of hm ?_; exact Eq.refl _) | (refine Sub.bit hm ?_; exact Eq.refl _)
    | (refine Or.inl (Sub.bit hm ?_); exact Eq.refl _) | with_reducible exact Or.inr rfl
    | intro _ | with_reducible assumption
    | with_reducible apply State.modTime_only | with_reducible apply State.vaultTick_only
    | with_reducible apply State.loadVault_only | with_reducible apply OnlyM.ite
    | (extract_lets +onlyGivenNames x; refine OnlyM.cut (M0 := M0) (s0 := s0) x ?_ ?_ <;> first | (intro hx; clear_value x) | unfold x)
    | (extract_lets +onlyGivenNames x; clear_value x)
    | split | with_reducible apply OnlyM.update

theorem State.restoreTime_only {M0 : Nat} {s0 : State} {s : State} (kp_s : OnlyM M0 s0 s)
    (hm : Sub 0x18000000000000000000000003011000000000000000000000000000000000000000000000000000000001C M0 := by exact Sub.of hm rfl) :
    OnlyM M0 s0 (State.restoreTime s) := by
  unfold State.restoreTime
  repeat' first
    | (refine Sub.of hm ?_; exact Eq.refl _) | (refine Sub.bit hm ?_; exact Eq.refl _)
    | (refine Or.inl (Sub.bit hm ?_); exact Eq.refl _) | with_reducible exact Or.inr rfl
    | intro _ | with_reducible assumption
    | with_reducible apply State.modTime_only | with_reducible apply State.setReady_only
    | with_reducible apply OnlyM.ite
    | (extract_lets +onlyGivenNames x; refine OnlyM.cut (M0 := M0) (s0 := s0) x ?_ ?_ <;> first | (intro hx; clear_value x) | unfold x)
    | (extract_lets +onlyGivenNames x; clear_value x)
    | split | with_reducible apply OnlyM.update

theorem State.setSync_only {M0 : Nat} {s0 : State} {s : State} {v cause : Nat} (kp_s : OnlyM M0 s0 s)
    (hm : Sub 0x3011000001000000000000000000000000000000000000000000000000000C M0 := by exact Sub.of hm rfl) :
    OnlyM M0 s0 (State.setSync s v cause) := by
  unfold State.setSync
  repeat' first
    | (refine Sub.of hm ?_; exact Eq.refl _) | (refine Sub.bit hm ?_; exact Eq.refl _)
    | with_reducible refine State.set_only TIME_STAT_SYNC_holds ?_ ?_
    | intro _ | with_reducible assumption | with_reducible apply State.raise_only
    | with_reducible apply OnlyM.ite
    | split

theorem State.setTrust_only {M0 : Nat} {s0 : State} {s : State} {v cause : Nat} (kp_s : OnlyM M0 s0 s)
    (hm : Sub 0x3011000001000000000000000000000000000000000000000000000000000C M0 := by exact Sub.of hm rfl) :
    OnlyM M0 s0 (State.setTrust s v cause) := by
  unfold State.setTrust
  repeat' first
    | (refine Sub.of hm ?_; exact Eq.refl _) | (refine Sub.bit hm ?_; exact Eq.refl _)
    | with_reducible refine State.set_only TIME_STAT_TRUST_holds ?_ ?_
    | intro _ | with_reducible assumption | with_reducible apply State.raise_only
    | with_reducible apply OnlyM.ite
    | split

theorem State.resync_only {M0 : Nat} {s0 : State} {s : State} {e : Int} {cause : Nat} (kp_s : OnlyM M0 s0 s)
    (hm : Sub 0x3011001801000000000000000000000000000000000000000000000000000C M0 := by exact Sub.of hm rfl) :
    OnlyM M0 s0 (State.resync s e cause) := by
  unfold State.resync
  repeat' first
    | (refine Sub.of hm ?_; exact Eq.refl _) | (refine Sub.bit hm ?_; exact Eq.refl _)
    | with_reducible refine State.setInt_only TIME_SEC_ERR_NS_holds ?_ ?_
    | with_reducible refine State.setStamp_only (Part.holds.own TIME_SEC_LAST_NS_holds) TIME_SEC_LAST_NS_next ?_ ?_
    | intro _ | with_reducible assumption | with_reducible apply State.setTrust_only | with_reducible apply OnlyM.ite
    | (extract_lets +onlyGivenNames x; refine OnlyM.cut (M0 := M0) (s0 := s0) x ?_ ?_ <;> first | (intro hx; clear_value x) | unfold x)
    | (extract_lets +onlyGivenNames x; clear_value x)
    | split

theorem State.brxUpdate_only {M0 : Nat} {s0 : State} {s : State} {k n : Nat} {f : Frame} {trx age : Nat} (kp_s : OnlyM M0 s0 s)
    (hm : Sub 0x30113C1801000000000000000000000000000000000000000000000000001C M0 := by exact Sub.of hm rfl) :
    OnlyM M0 s0 (State.brxUpdate s k n f trx age) := by
  unfold State.brxUpdate
  repeat' first
    | (refine Sub.of hm ?_; exact Eq.refl _) | (refine Sub.bit hm ?_; exact Eq.refl _)
    | (refine Or.inl (Sub.bit hm ?_); exact Eq.refl _) | with_reducible exact Or.inr rfl

    | with_reducible refine State.setStamp_only (Part.holds.own (TIME_BRX_RT_NS_holds ..)) (TIME_BRX_RT_NS_next ..) ?_ ?_
    | with_reducible refine State.setStamp_only (Part.holds.own (TIME_BRX_LT_NS_holds ..)) (TIME_BRX_LT_NS_next ..) ?_ ?_
    | with_reducible refine State.setInt_only (TIME_BRX_OFF_OFF_holds ..) ?_ ?_
    | with_reducible refine State.set_only (TIME_BRX_STAT_SEQ_holds ..) ?_ ?_
    | with_reducible refine State.set_only (TIME_BRX_STAT_FMT_holds ..) ?_ ?_
    | with_reducible refine State.put_only (TIME_BRX_STAT_TRUSTED_holds ..) ?_ ?_
    | with_reducible refine State.put_only (TIME_BRX_STAT_SYNCED_holds ..) ?_ ?_
    | with_reducible refine State.set_only (TIME_BRX_STAT_AUTH_holds ..) ?_ ?_
    | with_reducible refine State.put_only (TIME_BRX_STAT_STEPPED_holds ..) ?_ ?_
    | with_reducible refine State.set_only (TIME_BRX_STAT_COUNT_holds ..) ?_ ?_
    | intro _ | with_reducible assumption
    | with_reducible apply State.raise_only | with_reducible apply State.resync_only
    | with_reducible apply State.modTime_only | with_reducible apply OnlyOpt.none
    | with_reducible apply OnlyOpt.some | with_reducible apply OnlyM.id | with_reducible apply OnlyM.ite
    | (extract_lets +onlyGivenNames x; refine OnlyM.cut (M0 := M0) (s0 := s0) x ?_ ?_ <;> first | (intro hx; clear_value x) | unfold x)
    | (extract_lets +onlyGivenNames x; clear_value x)
    | split | with_reducible apply OnlyM.update

theorem State.brxReceive_only {M0 : Nat} {s0 : State} {s : State} {n : Nat} {f : Frame} {trx age : Nat} (kp_s : OnlyM M0 s0 s)
    (hm : Sub 0x30113C1801000000000000000000000000000000000000000000000000001C M0 := by exact Sub.of hm rfl) :
    OnlyM M0 s0 (State.brxReceive s n f trx age) := by
  unfold State.brxReceive
  repeat' first
    | (refine Sub.of hm ?_; exact Eq.refl _) | (refine Sub.bit hm ?_; exact Eq.refl _)
    | intro _ | with_reducible assumption
    | with_reducible apply State.brxUpdate_only | with_reducible apply State.each_only
    | with_reducible apply OnlyM.id | with_reducible apply OnlyM.ite
    | split

theorem State.reschedule_only {M0 : Nat} {s0 : State} {s : State} {n : Nat} (kp_s : OnlyM M0 s0 s)
    (hm : Sub 0x40 M0 := by exact Sub.of hm rfl) :
    OnlyM M0 s0 (State.reschedule s n) := by
  unfold State.reschedule
  repeat' first
    | (refine Sub.of hm ?_; exact Eq.refl _) | (refine Sub.bit hm ?_; exact Eq.refl _)
    | (refine Or.inl (Sub.bit hm ?_); exact Eq.refl _) | with_reducible exact Or.inr rfl
    | intro _ | with_reducible assumption
    | with_reducible apply State.modPort_only | with_reducible apply OnlyOpt.none
    | with_reducible apply OnlyOpt.some | with_reducible apply OnlyM.ite
    | split | with_reducible apply OnlyM.update

end Sys2Proof.Machine
end

