-- ==== Sys2Proof/Laws/OnlyBitOps.lean ====
section
/-! SUPPORT. Which parts each operation of `Machine/BitOps.lean` may change, and that it keeps what every command keeps: each
lemma follows the operation's own text, piece by piece, and gives the parts as a set of part numbers. -/

namespace Sys2Proof.Machine

theorem State.settle_only {M0 : Nat} {s0 : State} {s : State} {n : Nat} (kp_s : OnlyM M0 s0 s)
    (hm : Sub 0x301100000002000000302403C18080010C1800040000004C001000000196CD M0 := by exact Sub.of hm rfl) :
    OnlyM M0 s0 (State.settle s n) := by
  unfold State.settle
  repeat' first
    | (refine Sub.of hm ?_; exact Eq.refl _) | (refine Sub.bit hm ?_; exact Eq.refl _)
    | intro _ | with_reducible assumption
    | with_reducible apply State.enterIdle_only | with_reducible apply OnlyM.ite
    | split

theorem State.attemptFailed_only {M0 : Nat} {s0 : State} {s : State} {n : Nat} (kp_s : OnlyM M0 s0 s)
    (hm : Sub 0x301100000002000000302403C00000010C1800000000000C0010000001964D M0 := by exact Sub.of hm rfl) :
    OnlyM M0 s0 (State.attemptFailed s n) := by
  unfold State.attemptFailed
  repeat' first
    | (refine Sub.of hm ?_; exact Eq.refl _) | (refine Sub.bit hm ?_; exact Eq.refl _)
    | (refine Or.inl (Sub.bit hm ?_); exact Eq.refl _) | with_reducible exact Or.inr rfl
    | intro _ | with_reducible assumption
    | with_reducible apply State.modPort_only | with_reducible apply State.setSlotState_only
    | with_reducible apply State.endRequest_only | with_reducible apply OnlyOpt.none
    | with_reducible apply OnlyOpt.some | with_reducible apply OnlyM.ite
    | (extract_lets +onlyGivenNames x; refine OnlyM.cut (M0 := M0) (s0 := s0) x ?_ ?_ <;> first | (intro hx; clear_value x) | unfold x)
    | (extract_lets +onlyGivenNames x; clear_value x)
    | split | with_reducible apply OnlyM.update

theorem State.recordError_only {M0 : Nat} {s0 : State} {s : State} {n : Nat} {e : BusError} (kp_s : OnlyM M0 s0 s)
    (hm : Sub 0x700000000000000000000000000000000000 M0 := by exact Sub.of hm rfl) :
    OnlyM M0 s0 (State.recordError s n e) := by
  unfold State.recordError
  repeat' first
    | (refine Sub.of hm ?_; exact Eq.refl _) | (refine Sub.bit hm ?_; exact Eq.refl _)
    | with_reducible refine State.set_only (ECF_LAST_TYPE_holds ..) ?_ ?_
    | with_reducible refine State.put_only (ECF_LAST_DIR_holds ..) ?_ ?_
    | with_reducible refine State.put_only (ECF_LAST_PHASE_holds ..) ?_ ?_
    | with_reducible refine State.set_only (ECF_LAST_FIELD_holds ..) ?_ ?_
    | with_reducible refine State.set_only (ECF_LAST_POS_holds ..) ?_ ?_
    | with_reducible refine State.put_only (ECF_LAST_VALID_holds ..) ?_ ?_
    | with_reducible refine State.setStamp_only (Part.holds.own (ECF_LAST_T_NS_holds ..)) (ECF_LAST_T_NS_next ..) ?_ ?_
    | with_reducible refine State.inc_only (ECF_ERRCNT_TX_holds ..) ?_ ?_
    | with_reducible refine State.inc_only (ECF_ERRCNT_RX_holds ..) ?_ ?_
    | intro _ | with_reducible assumption
    | with_reducible apply OnlyM.ite
    | (extract_lets +onlyGivenNames x; refine OnlyM.cut (M0 := M0) (s0 := s0) x ?_ ?_ <;> first | (intro hx; clear_value x) | unfold x)
    | (extract_lets +onlyGivenNames x; clear_value x)
    | split

theorem State.countError_only {M0 : Nat} {s0 : State} {s : State} {n : Nat} {e : BusError} (kp_s : OnlyM M0 s0 s)
    (hm : Sub 0x301100000002000000302403C58880010C1800040000004C001000000196CD M0 := by exact Sub.of hm rfl) :
    OnlyM M0 s0 (State.countError s n e) := by
  unfold State.countError
  repeat' first
    | (refine Sub.of hm ?_; exact Eq.refl _) | (refine Sub.bit hm ?_; exact Eq.refl _)
    | intro _ | with_reducible assumption
    | with_reducible apply State.tecUp_only | with_reducible apply State.recUp_only
    | with_reducible apply OnlyM.ite
    | split

theorem State.busError_only {M0 : Nat} {s0 : State} {s : State} {n : Nat} {e : BusError} (kp_s : OnlyM M0 s0 s)
    (hm : Sub 0x301100000002000000302403C5F880010F1804040000004C001000000196CD M0 := by exact Sub.of hm rfl) :
    OnlyM M0 s0 (State.busError s n e) := by
  unfold State.busError
  repeat' first
    | (refine Sub.of hm ?_; exact Eq.refl _) | (refine Sub.bit hm ?_; exact Eq.refl _)
    | with_reducible refine State.put_only (BT_STAT_PHASE_holds ..) ?_ ?_
    | intro _ | with_reducible assumption
    | with_reducible apply State.recordError_only | with_reducible apply State.cancelSearch_only
    | with_reducible apply State.capTrigger_only
    | with_reducible apply State.attemptFailed_only | with_reducible apply State.integrate_only
    | with_reducible apply State.countError_only | with_reducible apply State.setB_only
    | with_reducible apply OnlyM.ite
    | (extract_lets +onlyGivenNames x; refine OnlyM.cut (M0 := M0) (s0 := s0) x ?_ ?_ <;> first | (intro hx; clear_value x) | unfold x)
    | (extract_lets +onlyGivenNames x; clear_value x)
    | split

theorem State.tdc_only {M0 : Nat} {s0 : State} {s : State} {n : Nat} {edges : List Nat} (kp_s : OnlyM M0 s0 s)
    (hm : Sub 0x3011000000000000000000000000000000000000002010000200000000000C M0 := by exact Sub.of hm rfl) :
    OnlyM M0 s0 (State.tdc s n edges).2 := by
  unfold State.tdc
  repeat' first
    | (refine Sub.of hm ?_; exact Eq.refl _) | (refine Sub.bit hm ?_; exact Eq.refl _)
    | (refine Or.inl (Sub.bit hm ?_); exact Eq.refl _) | with_reducible exact Or.inr rfl
    | with_reducible refine State.set_only (LP_MEAS_LOOP_holds ..) ?_ ?_
    | with_reducible refine State.inc_only (BT_PEXCNT_TDC_HIGH_holds ..) ?_ ?_
    | with_reducible refine State.set_only (BT_TDC_TDCV_holds ..) ?_ ?_
    | intro _ | with_reducible assumption | with_reducible apply State.btCause_only | with_reducible apply OnlyM.ite
    | (extract_lets +onlyGivenNames x; refine OnlyM.cut (M0 := M0) (s0 := s0) x ?_ ?_ <;> first | (intro hx; clear_value x) | unfold x)
    | (extract_lets +onlyGivenNames x; clear_value x)
    | split | with_reducible apply OnlyM.update

theorem State.startSlot_only {M0 : Nat} {s0 : State} {s : State} {n k : Nat} (kp_s : OnlyM M0 s0 s)
    (hm : Sub 0x301100000006000000302403C00000010C1800000000004C001000000196CD M0 := by exact Sub.of hm rfl) :
    OnlyM M0 s0 (State.startSlot s n k) := by
  unfold State.startSlot
  repeat' first
    | (refine Sub.of hm ?_; exact Eq.refl _) | (refine Sub.bit hm ?_; exact Eq.refl _)
    | (refine Or.inl (Sub.bit hm ?_); exact Eq.refl _) | with_reducible exact Or.inr rfl
    | with_reducible refine State.set_only (MOP_DESC_ATT_holds ..) ?_ ?_
    | intro _ | with_reducible assumption
    | with_reducible apply State.endRequest_only | with_reducible apply State.poisonRead_only
    | with_reducible apply State.discardRecord_only | with_reducible apply State.modPort_only
    | with_reducible apply State.setB_only
    | with_reducible apply foldl_only | with_reducible apply OnlyM.ite
    | (extract_lets +onlyGivenNames x; refine OnlyM.cut (M0 := M0) (s0 := s0) x ?_ ?_ <;> first | (intro hx; clear_value x) | unfold x)
    | (extract_lets +onlyGivenNames x; clear_value x)
    | split | with_reducible apply OnlyM.update

theorem State.startAttempt_only {M0 : Nat} {s0 : State} {s : State} {n : Nat} (kp_s : OnlyM M0 s0 s)
    (hm : Sub 0x301100000006000000302403C00000010C1800000000004C001000000196CD M0 := by exact Sub.of hm rfl) :
    OnlyM M0 s0 (State.startAttempt s n) := by
  unfold State.startAttempt
  repeat' first
    | (refine Sub.of hm ?_; exact Eq.refl _) | (refine Sub.bit hm ?_; exact Eq.refl _)
    | (refine Or.inl (Sub.bit hm ?_); exact Eq.refl _) | with_reducible exact Or.inr rfl
    | intro _ | with_reducible assumption
    | with_reducible apply State.discardRecord_only | with_reducible apply State.modPort_only
    | with_reducible apply State.setB_only | with_reducible apply State.startSlot_only
    | with_reducible apply OnlyOpt.none | with_reducible apply OnlyOpt.some
    | with_reducible apply OnlyM.ite
    | split | with_reducible apply OnlyM.update

theorem State.wonAttempt_only {M0 : Nat} {s0 : State} {s : State} {n : Nat} {a : Attempt} (kp_s : OnlyM M0 s0 s)
    (hm : Sub 0x1040800000000000000000000000040 M0 := by exact Sub.of hm rfl) :
    OnlyM M0 s0 (State.wonAttempt s n a) := by
  unfold State.wonAttempt
  repeat' first
    | (refine Sub.of hm ?_; exact Eq.refl _) | (refine Sub.bit hm ?_; exact Eq.refl _)
    | (refine Or.inl (Sub.bit hm ?_); exact Eq.refl _) | with_reducible exact Or.inr rfl
    | intro _ | with_reducible assumption
    | with_reducible apply State.modPort_only | with_reducible apply State.setSlotState_only
    | with_reducible apply OnlyM.ite
    | (extract_lets +onlyGivenNames x; refine OnlyM.cut (M0 := M0) (s0 := s0) x ?_ ?_ <;> first | (intro hx; clear_value x) | unfold x)
    | (extract_lets +onlyGivenNames x; clear_value x)
    | split | with_reducible apply OnlyM.update

theorem State.attemptOk_only {M0 : Nat} {s0 : State} {s : State} {n : Nat} {a : Attempt} (kp_s : OnlyM M0 s0 s)
    (hm : Sub 0x301100000002000000302403C18880010C1800040014004C001000004196CD M0 := by exact Sub.of hm rfl) :
    OnlyM M0 s0 (State.attemptOk s n a) := by
  unfold State.attemptOk
  repeat' first
    | (refine Sub.of hm ?_; exact Eq.refl _) | (refine Sub.bit hm ?_; exact Eq.refl _)
    | (refine Or.inl (Sub.bit hm ?_); exact Eq.refl _) | with_reducible exact Or.inr rfl
    | with_reducible refine State.inc_only (BT_TXCNT_COUNT_holds ..) ?_ ?_
    | with_reducible refine State.inc_only (BT_BCN_STAT_SENT_holds ..) ?_ ?_
    | with_reducible refine State.set_only (BT_BCN_STAT_SEQ_holds ..) ?_ ?_
    | with_reducible refine State.put_only (MOP_DESC_ESI_holds ..) ?_ ?_
    | intro _ | with_reducible assumption
    | with_reducible apply State.emit_only
    | with_reducible apply State.modPort_only | with_reducible apply State.completeTx_only
    | with_reducible apply State.requestEnd_only | with_reducible apply State.tecDown_only
    | with_reducible apply State.enterIdle_only | with_reducible apply OnlyOpt.none
    | with_reducible apply OnlyOpt.some | with_reducible apply OnlyM.ite
    | (extract_lets +onlyGivenNames x; refine OnlyM.cut (M0 := M0) (s0 := s0) x ?_ ?_ <;> first | (intro hx; clear_value x) | unfold x)
    | (extract_lets +onlyGivenNames x; clear_value x)
    | split | with_reducible apply OnlyM.update

theorem State.attemptLost_only {M0 : Nat} {s0 : State} {s : State} {n : Nat} (kp_s : OnlyM M0 s0 s)
    (hm : Sub 0x301100000002000000302403C00000010C1800000000004C0010000001964D M0 := by exact Sub.of hm rfl) :
    OnlyM M0 s0 (State.attemptLost s n) := by
  unfold State.attemptLost
  repeat' first
    | (refine Sub.of hm ?_; exact Eq.refl _) | (refine Sub.bit hm ?_; exact Eq.refl _)
    | intro _ | with_reducible assumption
    | with_reducible apply State.attemptFailed_only | with_reducible apply State.setB_only
    | with_reducible apply OnlyM.ite
    | (extract_lets +onlyGivenNames x; refine OnlyM.cut (M0 := M0) (s0 := s0) x ?_ ?_ <;> first | (intro hx; clear_value x) | unfold x)
    | (extract_lets +onlyGivenNames x; clear_value x)
    | split

theorem State.advanceAttempt_only {M0 : Nat} {s0 : State} {s : State} {n : Nat} {a : Attempt} {u : TxEnd} {edges : List Nat} (kp_s : OnlyM M0 s0 s)
    (hm : Sub 0x301100000002000000302403C5F880010F1804040034104C021000004196CD M0 := by exact Sub.of hm rfl) :
    OnlyM M0 s0 (State.advanceAttempt s n a u edges) := by
  unfold State.advanceAttempt
  repeat' first
    | (refine Sub.of hm ?_; exact Eq.refl _) | (refine Sub.bit hm ?_; exact Eq.refl _)
    | (refine Or.inl (Sub.bit hm ?_); exact Eq.refl _) | with_reducible exact Or.inr rfl
    | with_reducible refine State.put_only (BT_STAT_PHASE_holds ..) ?_ ?_
    | intro _ | with_reducible assumption
    | with_reducible apply State.tdc_only | with_reducible apply State.busError_only
    | with_reducible apply State.wonAttempt_only
    | with_reducible apply State.attemptLost_only | with_reducible apply State.attemptOk_only
    | with_reducible apply OnlyM.ite
    | (extract_lets +onlyGivenNames x; refine OnlyM.cut (M0 := M0) (s0 := s0) x ?_ ?_ <;> first | (intro hx; clear_value x) | unfold x)
    | (extract_lets +onlyGivenNames x; clear_value x)
    | with_reducible (refine OnlyM.pair ?_ (by assumption))
    | split | with_reducible apply OnlyM.update

theorem State.exception_only {M0 : Nat} {s0 : State} {s : State} {n b1 : Nat} (kp_s : OnlyM M0 s0 s)
    (hm : Sub 0x301100000002000000302403C18080010F1800040020004C001000000196CD M0 := by exact Sub.of hm rfl) :
    OnlyM M0 s0 (State.exception s n b1) := by
  unfold State.exception
  repeat' first
    | (refine Sub.of hm ?_; exact Eq.refl _) | (refine Sub.bit hm ?_; exact Eq.refl _)
    | with_reducible refine State.inc_only (BT_PEXCNT_PEX_holds ..) ?_ ?_
    | with_reducible refine State.put_only (BT_STAT_PHASE_holds ..) ?_ ?_
    | intro _ | with_reducible assumption
    | with_reducible apply State.cancelSearch_only
    | with_reducible apply State.btCause_only | with_reducible apply State.setB_only | with_reducible apply State.quarantine_only
    | with_reducible apply OnlyM.ite
    | (extract_lets +onlyGivenNames x; refine OnlyM.cut (M0 := M0) (s0 := s0) x ?_ ?_ <;> first | (intro hx; clear_value x) | unfold x)
    | (extract_lets +onlyGivenNames x; clear_value x)
    | split

theorem State.resolve_only {M0 : Nat} {s0 : State} {s : State} {n : Nat} {r : Reception} (kp_s : OnlyM M0 s0 s)
    (hm : Sub 0x3011000000000000000000000000000003000000000000000000000000044C M0 := by exact Sub.of hm rfl) :
    OnlyM M0 s0 (State.resolve s n r) := by
  unfold State.resolve
  repeat' first
    | (refine Sub.of hm ?_; exact Eq.refl _) | (refine Sub.bit hm ?_; exact Eq.refl _)
    | (refine Or.inl (Sub.bit hm ?_); exact Eq.refl _) | with_reducible exact Or.inr rfl
    | intro _ | with_reducible assumption
    | with_reducible apply State.searchFrame_only | with_reducible apply State.completeXl_only
    | with_reducible apply OnlyOpt.none | with_reducible apply OnlyOpt.some
    | with_reducible apply OnlyM.ite
    | (extract_lets +onlyGivenNames x; refine OnlyM.cut (M0 := M0) (s0 := s0) x ?_ ?_ <;> first | (intro hx; clear_value x) | unfold x)
    | (extract_lets +onlyGivenNames x; clear_value x)
    | split | with_reducible apply OnlyM.update

theorem State.hit_only {M0 : Nat} {s0 : State} {s : State} {sof i : Nat} (kp_s : OnlyM M0 s0 s)
    (hm : Sub 0x2000000000000000000000000000000000 M0 := by exact Sub.of hm rfl) :
    OnlyM M0 s0 (State.hit s sof i) := by
  unfold State.hit
  repeat' first
    | (refine Sub.of hm ?_; exact Eq.refl _) | (refine Sub.bit hm ?_; exact Eq.refl _)
    | with_reducible refine State.inc_only (CAT_ENTRY_W_holds ..) ?_ ?_
    | intro _ | with_reducible assumption | with_reducible apply OnlyM.ite
    | split

theorem State.place_only {M0 : Nat} {s0 : State} {s : State} {n i : Nat} {ws : List Word} {r : Reception} {sr : Search} {wp : Nat} {taint : Bool} (kp_s : OnlyM M0 s0 s)
    (hm : Sub 0x301100000002000000300403C0000001D7180000000000000000000001940D M0 := by exact Sub.of hm rfl) :
    OnlyM M0 s0 (State.place s n i ws r sr wp taint).2 := by
  unfold State.place
  repeat' first
    | (refine Sub.of hm ?_; exact Eq.refl _) | (refine Sub.bit hm ?_; exact Eq.refl _)
    | (refine Or.inl (Sub.bit hm ?_); exact Eq.refl _) | with_reducible exact Or.inr rfl
    | intro _ | with_reducible assumption
    | with_reducible apply State.mailbox_only | with_reducible apply State.completeRx_only
    | with_reducible apply State.countDrop_only | with_reducible apply State.ingressBreach_only
    | with_reducible apply State.each_only | with_reducible apply OnlyM.ite
    | (extract_lets +onlyGivenNames x; refine OnlyM.cut (M0 := M0) (s0 := s0) x ?_ ?_ <;> first | (intro hx; clear_value x) | unfold x)
    | (extract_lets +onlyGivenNames x; clear_value x)
    | split | with_reducible apply OnlyM.update

theorem State.deliverFrame_only {M0 : Nat} {s0 : State} {s : State} {n : Nat} {r : Reception} (kp_s : OnlyM M0 s0 s)
    (hm : Sub 0x301100000002000000300403C0002401D71804000E000000000000000194CD M0 := by exact Sub.of hm rfl) :
    OnlyM M0 s0 (State.deliverFrame s n r) := by
  unfold State.deliverFrame
  repeat' first
    | (refine Sub.of hm ?_; exact Eq.refl _) | (refine Sub.bit hm ?_; exact Eq.refl _)
    | (refine Or.inl (Sub.bit hm ?_); exact Eq.refl _) | with_reducible exact Or.inr rfl
    | with_reducible refine State.inc_only (CAT_PCNT_MISS_holds ..) ?_ ?_
    | with_reducible refine State.inc_only (CAT_PCNT_HIT_holds ..) ?_ ?_
    | intro _ | with_reducible assumption
    | with_reducible apply State.resolve_only | with_reducible apply State.modPort_only | with_reducible apply State.wingResult_only
    | with_reducible apply State.place_only | with_reducible apply State.hit_only
    | with_reducible apply State.wingReport_only | with_reducible apply OnlyOpt.none
    | with_reducible apply OnlyOpt.some | with_reducible apply OnlyM.ite
    | (extract_lets +onlyGivenNames x; refine OnlyM.cut (M0 := M0) (s0 := s0) x ?_ ?_ <;> first | (intro hx; clear_value x) | unfold x)
    | (extract_lets +onlyGivenNames x; clear_value x)
    | with_reducible (refine OnlyM.pair ?_ (by assumption))
    | split | with_reducible apply OnlyM.update

theorem State.goodFrame_only {M0 : Nat} {s0 : State} {s : State} {n : Nat} {r : Reception} (kp_s : OnlyM M0 s0 s)
    (hm : Sub 0x30113C180102000000302403C188A401DF182595EE88004C001000000196DD M0 := by exact Sub.of hm rfl) :
    OnlyM M0 s0 (State.goodFrame s n r) := by
  unfold State.goodFrame
  repeat' first
    | (refine Sub.of hm ?_; exact Eq.refl _) | (refine Sub.bit hm ?_; exact Eq.refl _)
    | (refine Or.inl (Sub.bit hm ?_); exact Eq.refl _) | with_reducible exact Or.inr rfl
    | with_reducible refine State.inc_only (BT_RXCNT_COUNT_holds ..) ?_ ?_
    | with_reducible refine State.set_only (BT_STAT_LASTFMT_holds ..) ?_ ?_
    | intro _ | with_reducible assumption
    | with_reducible apply State.recDown_only | with_reducible apply State.cancelSearch_only
    | with_reducible apply State.deliverFrame_only | with_reducible apply State.observe_only
    | with_reducible apply State.brxReceive_only | with_reducible apply State.modPort_only
    | with_reducible apply OnlyM.ite
    | (extract_lets +onlyGivenNames x; refine OnlyM.cut (M0 := M0) (s0 := s0) x ?_ ?_ <;> first | (intro hx; clear_value x) | unfold x)
    | (extract_lets +onlyGivenNames x; clear_value x)
    | split | with_reducible apply OnlyM.update

theorem State.ethFrame_only {M0 : Nat} {s0 : State} {s : State} {n : Nat} {r : Reception} (kp_s : OnlyM M0 s0 s)
    (hm : Sub 0x30113C180102000000302403C988A401DF182595EE88004C001000000196DD M0 := by exact Sub.of hm rfl) :
    OnlyM M0 s0 (State.ethFrame s n r) := by
  unfold State.ethFrame
  repeat' first
    | (refine Sub.of hm ?_; exact Eq.refl _) | (refine Sub.bit hm ?_; exact Eq.refl _)
    | with_reducible refine State.inc_only (ECF_ETH_LEN_holds ..) ?_ ?_
    | with_reducible refine State.inc_only (ECF_ETH_FCS_holds ..) ?_ ?_
    | intro _ | with_reducible assumption
    | with_reducible apply State.cancelSearch_only
    | with_reducible apply State.goodFrame_only | with_reducible apply OnlyM.ite
    | (extract_lets +onlyGivenNames x; refine OnlyM.cut (M0 := M0) (s0 := s0) x ?_ ?_ <;> first | (intro hx; clear_value x) | unfold x)
    | (extract_lets +onlyGivenNames x; clear_value x)
    | split

theorem State.receive_only {M0 : Nat} {s0 : State} {s : State} {n : Nat} {r : Reception} (kp_s : OnlyM M0 s0 s)
    (hm : Sub 0x30113C180102000000302403CDF8A401DF182595EEA8004C041000000196DD M0 := by exact Sub.of hm rfl) :
    OnlyM M0 s0 (State.receive s n r) := by
  unfold State.receive
  repeat' first
    | (refine Sub.of hm ?_; exact Eq.refl _) | (refine Sub.bit hm ?_; exact Eq.refl _)
    | (refine Or.inl (Sub.bit hm ?_); exact Eq.refl _) | with_reducible exact Or.inr rfl
    | intro _ | with_reducible assumption
    | with_reducible apply State.settle_only | with_reducible apply State.discardRecord_only
    | with_reducible apply State.drives_only | with_reducible apply State.ethFrame_only
    | with_reducible apply State.goodFrame_only | with_reducible apply State.enterIdle_only
    | with_reducible apply State.exception_only | with_reducible apply State.busError_only
    | with_reducible apply OnlyM.ite
    | (extract_lets +onlyGivenNames x; refine OnlyM.cut (M0 := M0) (s0 := s0) x ?_ ?_ <;> first | (intro hx; clear_value x) | unfold x)
    | (extract_lets +onlyGivenNames x; clear_value x)
    | split | with_reducible apply OnlyM.update

end Sys2Proof.Machine
end

