-- ==== Sys2Proof/Laws/OnlyLine.lean ====
section
/-! SUPPORT. Which parts each operation of `Machine/Line.lean` may change, and that it keeps what every command keeps: each
lemma follows the operation's own text, piece by piece, and gives the parts as a set of part numbers. -/

namespace Sys2Proof.Machine

theorem State.wireCheck_only {M0 : Nat} {s0 : State} {s : State} {n b : Nat} {fail : Bool} (kp_s : OnlyM M0 s0 s)
    (hm : Sub 0x3011000000000000000000000000000000000000000000000080000000004C M0 := by exact Sub.of hm rfl) :
    OnlyM M0 s0 (State.wireCheck s n b fail) := by
  unfold State.wireCheck
  repeat' first
    | (refine Sub.of hm ?_; exact Eq.refl _) | (refine Sub.bit hm ?_; exact Eq.refl _)
    | (refine Or.inl (Sub.bit hm ?_); exact Eq.refl _) | with_reducible exact Or.inr rfl
    | with_reducible refine State.put_only (wireSeenLoc_holds ..) ?_ ?_
    | with_reducible refine State.put_only (wireLiveLoc_holds ..) ?_ ?_
    | intro _ | with_reducible assumption
    | with_reducible apply State.modPort_only
    | with_reducible apply State.lpCause_only | with_reducible apply State.occur_only
    | with_reducible apply State.endCond_only | with_reducible apply OnlyM.ite
    | (extract_lets +onlyGivenNames x; refine OnlyM.cut (M0 := M0) (s0 := s0) x ?_ ?_ <;> first | (intro hx; clear_value x) | unfold x)
    | (extract_lets +onlyGivenNames x; clear_value x)
    | split | with_reducible apply OnlyM.update

theorem State.loadCheck_only {M0 : Nat} {s0 : State} {s : State} {n mohm : Nat} (kp_s : OnlyM M0 s0 s)
    (hm : Sub 0x3011000000000000000000000000000000000000000000000280000000004C M0 := by exact Sub.of hm rfl) :
    OnlyM M0 s0 (State.loadCheck s n mohm) := by
  unfold State.loadCheck
  repeat' first
    | (refine Sub.of hm ?_; exact Eq.refl _) | (refine Sub.bit hm ?_; exact Eq.refl _)
    | with_reducible refine State.set_only (LP_MEAS_LOAD_holds ..) ?_ ?_
    | intro _ | with_reducible assumption | with_reducible apply State.wireCheck_only
    | with_reducible apply OnlyM.ite
    | (extract_lets +onlyGivenNames x; refine OnlyM.cut (M0 := M0) (s0 := s0) x ?_ ?_ <;> first | (intro hx; clear_value x) | unfold x)
    | (extract_lets +onlyGivenNames x; clear_value x)
    | split

theorem execShortDetected_only {M0 : Nat} {s0 : State} {n : PortNo} {within : Bool} {pj : Nat} {s : State} (kp_s : OnlyM M0 s0 s)
    (hm : Sub 0x30110000000000000000000000000000000004000000000C059000000002CC M0 := by exact Sub.of hm rfl) :
    OnlyOut M0 s0 (execShortDetected n within pj s) := by
  unfold execShortDetected
  repeat' first
    | (refine Sub.of hm ?_; exact Eq.refl _) | (refine Sub.bit hm ?_; exact Eq.refl _)
    | (refine Or.inl (Sub.bit hm ?_); exact Eq.refl _) | with_reducible exact Or.inr rfl
    | with_reducible refine State.inc_only (LP_FAULT_EVENTS_holds ..) ?_ ?_
    | with_reducible refine State.put_only (LP_STATE_FOLDED_holds ..) ?_ ?_
    | with_reducible refine State.put_only (LP_STATE_PENDING_holds ..) ?_ ?_
    | with_reducible refine State.set_only (LP_STATE_RETRY_holds ..) ?_ ?_
    | intro _ | with_reducible assumption
    | with_reducible apply State.modPort_only | with_reducible apply State.meter_only | with_reducible apply State.lpCause_only
    | with_reducible apply State.report_only | with_reducible apply State.wireCheck_only
    | with_reducible apply State.capTrigger_only | with_reducible apply OnlyOut.next
    | with_reducible apply OnlyOut.fault | with_reducible apply OnlyOut.ite
    | with_reducible apply OnlyOpt.none | with_reducible apply OnlyOpt.some
    | with_reducible apply OnlyM.ite
    | (extract_lets +onlyGivenNames x; refine OnlyM.cut (M0 := M0) (s0 := s0) x ?_ ?_ <;> first | (intro hx; clear_value x) | unfold x)
    | (extract_lets +onlyGivenNames x; clear_value x)
    | split | with_reducible apply OnlyM.update

theorem State.finishCut_only {M0 : Nat} {s0 : State} {s : State} {n pj : Nat} (kp_s : OnlyM M0 s0 s)
    (hm : Sub 0xC05000000000240 M0 := by exact Sub.of hm rfl) :
    OnlyM M0 s0 (State.finishCut s n pj) := by
  unfold State.finishCut
  repeat' first
    | (refine Sub.of hm ?_; exact Eq.refl _) | (refine Sub.bit hm ?_; exact Eq.refl _)
    | (refine Or.inl (Sub.bit hm ?_); exact Eq.refl _) | with_reducible exact Or.inr rfl
    | intro _ | with_reducible assumption
    | with_reducible apply State.modPort_only | with_reducible apply State.meter_only
    | with_reducible apply State.lastEnergy_only | with_reducible apply OnlyOpt.none
    | with_reducible apply OnlyOpt.some
    | split | with_reducible apply OnlyM.update

theorem State.finishEvent_only {M0 : Nat} {s0 : State} {s : State} {n pj : Nat} (kp_s : OnlyM M0 s0 s)
    (hm : Sub 0x301100000002000000302403C58080010F1804040080004C051000000196CD M0 := by exact Sub.of hm rfl) :
    OnlyM M0 s0 (State.finishEvent s n pj) := by
  unfold State.finishEvent
  repeat' first
    | (refine Sub.of hm ?_; exact Eq.refl _) | (refine Sub.bit hm ?_; exact Eq.refl _)
    | (refine Or.inl (Sub.bit hm ?_); exact Eq.refl _) | with_reducible exact Or.inr rfl
    | intro _ | with_reducible assumption
    | with_reducible apply State.finishCut_only | with_reducible apply State.modPort_only
    | with_reducible apply State.meter_only | with_reducible apply State.endEvent_only
    | with_reducible apply State.refreshPort_only | with_reducible apply OnlyOpt.none
    | with_reducible apply OnlyOpt.some
    | (extract_lets +onlyGivenNames x; refine OnlyM.cut (M0 := M0) (s0 := s0) x ?_ ?_ <;> first | (intro hx; clear_value x) | unfold x)
    | (extract_lets +onlyGivenNames x; clear_value x)
    | split | with_reducible apply OnlyM.update

theorem execFaultEventEnd_only {M0 : Nat} {s0 : State} {n : PortNo} {pj : Nat} {s : State} (kp_s : OnlyM M0 s0 s)
    (hm : Sub 0x301100000002000000302403C58080010F1804040080004C051000000196CD M0 := by exact Sub.of hm rfl) :
    OnlyOut M0 s0 (execFaultEventEnd n pj s) := by
  unfold execFaultEventEnd
  repeat' first
    | (refine Sub.of hm ?_; exact Eq.refl _) | (refine Sub.bit hm ?_; exact Eq.refl _)
    | intro _ | with_reducible assumption
    | with_reducible apply State.finishEvent_only | with_reducible apply OnlyOut.next
    | with_reducible apply OnlyOut.fault | with_reducible apply OnlyOut.ite

theorem execEnergyCutoff_only {M0 : Nat} {s0 : State} {n : PortNo} {s : State} (kp_s : OnlyM M0 s0 s)
    (hm : Sub 0x301100000002000000302403C58080010F1804040080004C051000000196CD M0 := by exact Sub.of hm rfl) :
    OnlyOut M0 s0 (execEnergyCutoff n s) := by
  unfold execEnergyCutoff
  repeat' first
    | (refine Sub.of hm ?_; exact Eq.refl _) | (refine Sub.bit hm ?_; exact Eq.refl _)
    | intro _ | with_reducible assumption
    | with_reducible apply State.finishEvent_only | with_reducible apply OnlyOut.next
    | with_reducible apply OnlyOut.fault | with_reducible apply OnlyOut.ite

theorem execFaultWaitExpiry_only {M0 : Nat} {s0 : State} {n : PortNo} {s : State} (kp_s : OnlyM M0 s0 s)
    (hm : Sub 0x301100000002000000302403C58080010F1804040080004C011000000196CD M0 := by exact Sub.of hm rfl) :
    OnlyOut M0 s0 (execFaultWaitExpiry n s) := by
  unfold execFaultWaitExpiry
  repeat' first
    | (refine Sub.of hm ?_; exact Eq.refl _) | (refine Sub.bit hm ?_; exact Eq.refl _)
    | (refine Or.inl (Sub.bit hm ?_); exact Eq.refl _) | with_reducible exact Or.inr rfl
    | with_reducible refine State.put_only (LP_STATE_PENDING_holds ..) ?_ ?_
    | intro _ | with_reducible assumption
    | with_reducible apply State.modPort_only
    | with_reducible apply State.refreshPort_only | with_reducible apply OnlyOut.next
    | with_reducible apply OnlyOut.fault | with_reducible apply OnlyOut.ite
    | with_reducible apply OnlyOpt.none | with_reducible apply OnlyOpt.some
    | with_reducible apply OnlyM.ite
    | split | with_reducible apply OnlyM.update

theorem execRetrySuccess_only {M0 : Nat} {s0 : State} {n : PortNo} {s : State} (kp_s : OnlyM M0 s0 s)
    (hm : Sub 0x3011000000000000000000000000000000000000000000000010000000000C M0 := by exact Sub.of hm rfl) :
    OnlyOut M0 s0 (execRetrySuccess n s) := by
  unfold execRetrySuccess
  repeat' first
    | (refine Sub.of hm ?_; exact Eq.refl _) | (refine Sub.bit hm ?_; exact Eq.refl _)
    | with_reducible refine State.put_only (LP_STATE_PENDING_holds ..) ?_ ?_
    | with_reducible refine State.set_only (LP_STATE_RETRY_holds ..) ?_ ?_
    | intro _ | with_reducible assumption
    | with_reducible apply State.lpCause_only | with_reducible apply OnlyOut.next
    | with_reducible apply OnlyOut.fault | with_reducible apply OnlyOut.ite
    | with_reducible apply OnlyM.ite
    | split

theorem State.drvDisable_only {M0 : Nat} {s0 : State} {s : State} {n : Nat} (kp_s : OnlyM M0 s0 s)
    (hm : Sub 0x301100000002000000302403C58080010F1804040080004C011800000196CD M0 := by exact Sub.of hm rfl) :
    OnlyM M0 s0 (State.drvDisable s n) := by
  unfold State.drvDisable
  repeat' first
    | (refine Sub.of hm ?_; exact Eq.refl _) | (refine Sub.bit hm ?_; exact Eq.refl _)
    | with_reducible refine State.put_only (LP_CTRL_DRV_DIS_holds ..) ?_ ?_
    | intro _ | with_reducible assumption | with_reducible apply State.refreshPort_only

theorem State.drvEnable_only {M0 : Nat} {s0 : State} {s : State} {n : Nat} (kp_s : OnlyM M0 s0 s)
    (hm : Sub 0x301100000002000000302403C58080010F1804040080004C011800000196CD M0 := by exact Sub.of hm rfl) :
    OnlyM M0 s0 (State.drvEnable s n) := by
  unfold State.drvEnable
  repeat' first
    | (refine Sub.of hm ?_; exact Eq.refl _) | (refine Sub.bit hm ?_; exact Eq.refl _)
    | with_reducible refine State.put_only (LP_CTRL_DRV_DIS_holds ..) ?_ ?_
    | intro _ | with_reducible assumption | with_reducible apply State.refreshPort_only

theorem State.unlatch_only {M0 : Nat} {s0 : State} {s : State} {n : Nat} (kp_s : OnlyM M0 s0 s)
    (hm : Sub 0x301100000002000000302403C58080010F1804040080004C011000000196CD M0 := by exact Sub.of hm rfl) :
    OnlyM M0 s0 (State.unlatch s n) := by
  unfold State.unlatch
  repeat' first
    | (refine Sub.of hm ?_; exact Eq.refl _) | (refine Sub.bit hm ?_; exact Eq.refl _)
    | (refine Or.inl (Sub.bit hm ?_); exact Eq.refl _) | with_reducible exact Or.inr rfl
    | with_reducible refine State.set_only (LP_STATE_RETRY_holds ..) ?_ ?_
    | with_reducible refine State.put_only (LP_STATE_PENDING_holds ..) ?_ ?_
    | intro _ | with_reducible assumption
    | with_reducible apply State.modPort_only | with_reducible apply State.endCond_only
    | with_reducible apply State.refreshPort_only | with_reducible apply OnlyOpt.none
    | with_reducible apply OnlyOpt.some | with_reducible apply OnlyM.ite
    | (extract_lets +onlyGivenNames x; refine OnlyM.cut (M0 := M0) (s0 := s0) x ?_ ?_ <;> first | (intro hx; clear_value x) | unfold x)
    | (extract_lets +onlyGivenNames x; clear_value x)
    | split | with_reducible apply OnlyM.update

theorem execDriverDisable_only {M0 : Nat} {s0 : State} {q : Requester} {n : PortNo} {s : State} (kp_s : OnlyM M0 s0 s)
    (hm : Sub 0x4000000000000000000000000301100000002018800302403C58080010F1804040080004C011800002196CD M0 := by exact Sub.of hm rfl) :
    OnlyOut M0 s0 (execDriverDisable q n s) := by
  unfold execDriverDisable
  repeat' first
    | (refine Sub.of hm ?_; exact Eq.refl _) | (refine Sub.bit hm ?_; exact Eq.refl _)
    | intro _ | with_reducible assumption
    | with_reducible apply State.hostWrite_only | with_reducible apply State.drvDisable_only
    | with_reducible apply OnlyOut.next | with_reducible apply OnlyOut.fault
    | with_reducible apply OnlyOut.ite

theorem execDriverEnable_only {M0 : Nat} {s0 : State} {q : Requester} {n : PortNo} {s : State} (kp_s : OnlyM M0 s0 s)
    (hm : Sub 0x4000000000000000000000000301100000002018800302403C58080010F1804040080004C011800002196CD M0 := by exact Sub.of hm rfl) :
    OnlyOut M0 s0 (execDriverEnable q n s) := by
  unfold execDriverEnable
  repeat' first
    | (refine Sub.of hm ?_; exact Eq.refl _) | (refine Sub.bit hm ?_; exact Eq.refl _)
    | intro _ | with_reducible assumption
    | with_reducible apply State.hostWrite_only | with_reducible apply State.drvEnable_only
    | with_reducible apply OnlyOut.next | with_reducible apply OnlyOut.fault
    | with_reducible apply OnlyOut.ite

theorem execUnlatch_only {M0 : Nat} {s0 : State} {q : Requester} {n : PortNo} {s : State} (kp_s : OnlyM M0 s0 s)
    (hm : Sub 0x4000000000000000000000000301100000002018800302403C58080010F1804040080004C011000002196CD M0 := by exact Sub.of hm rfl) :
    OnlyOut M0 s0 (execUnlatch q n s) := by
  unfold execUnlatch
  repeat' first
    | (refine Sub.of hm ?_; exact Eq.refl _) | (refine Sub.bit hm ?_; exact Eq.refl _)
    | intro _ | with_reducible assumption
    | with_reducible apply State.hostWrite_only | with_reducible apply State.unlatch_only
    | with_reducible apply OnlyOut.next | with_reducible apply OnlyOut.fault
    | with_reducible apply OnlyOut.ite

theorem execBiasCheck_only {M0 : Nat} {s0 : State} {n : PortNo} {vh vl : Int} {s : State} (kp_s : OnlyM M0 s0 s)
    (hm : Sub 0x3011000000000000000000000000000000000000000000000280000000004C M0 := by exact Sub.of hm rfl) :
    OnlyOut M0 s0 (execBiasCheck n vh vl s) := by
  unfold execBiasCheck
  repeat' first
    | (refine Sub.of hm ?_; exact Eq.refl _) | (refine Sub.bit hm ?_; exact Eq.refl _)
    | with_reducible refine State.set_only (LP_MEAS_VH_holds ..) ?_ ?_
    | with_reducible refine State.set_only (LP_MEAS_VL_holds ..) ?_ ?_
    | intro _ | with_reducible assumption | with_reducible apply State.wireCheck_only
    | with_reducible apply OnlyOut.next | with_reducible apply OnlyOut.fault
    | with_reducible apply OnlyOut.ite | with_reducible apply OnlyM.ite
    | (extract_lets +onlyGivenNames x; refine OnlyM.cut (M0 := M0) (s0 := s0) x ?_ ?_ <;> first | (intro hx; clear_value x) | unfold x)
    | (extract_lets +onlyGivenNames x; clear_value x)
    | split

theorem State.deferPort_only {M0 : Nat} {s0 : State} {s : State} {n : Nat} (kp_s : OnlyM M0 s0 s)
    (hm : Sub 0x1C08100000000240 M0 := by exact Sub.of hm rfl) :
    OnlyM M0 s0 (State.deferPort s n) := by
  unfold State.deferPort
  repeat' first
    | (refine Sub.of hm ?_; exact Eq.refl _) | (refine Sub.bit hm ?_; exact Eq.refl _)
    | (refine Or.inl (Sub.bit hm ?_); exact Eq.refl _) | with_reducible exact Or.inr rfl
    | with_reducible refine State.put_only (LP_STATE_DEFERRED_holds ..) ?_ ?_
    | with_reducible refine State.inc_only (LP_DEFER_DEFERRALS_holds ..) ?_ ?_
    | with_reducible refine State.inc_only (LP_GOV_CNT_DEFER_holds ..) ?_ ?_
    | intro _ | with_reducible assumption
    | with_reducible apply State.modPort_only | with_reducible apply State.setGov_only
    | with_reducible apply State.govStat_only
    | (extract_lets +onlyGivenNames x; refine OnlyM.cut (M0 := M0) (s0 := s0) x ?_ ?_ <;> first | (intro hx; clear_value x) | unfold x)
    | (extract_lets +onlyGivenNames x; clear_value x)
    | with_reducible apply OnlyM.update

theorem execGovernorSubmit_only {M0 : Nat} {s0 : State} {n : PortNo} {s : State} (kp_s : OnlyM M0 s0 s)
    (hm : Sub 0x1040800000000001C08100000000240 M0 := by exact Sub.of hm rfl) :
    OnlyOut M0 s0 (execGovernorSubmit n s) := by
  unfold execGovernorSubmit
  repeat' first
    | (refine Sub.of hm ?_; exact Eq.refl _) | (refine Sub.bit hm ?_; exact Eq.refl _)
    | (refine Or.inl (Sub.bit hm ?_); exact Eq.refl _) | with_reducible exact Or.inr rfl
    | intro _ | with_reducible assumption
    | with_reducible apply State.admitPort_only | with_reducible apply State.deferPort_only
    | with_reducible apply OnlyOut.next | with_reducible apply OnlyOut.fault
    | with_reducible apply OnlyOut.ite | with_reducible apply OnlyOpt.none
    | with_reducible apply OnlyOpt.some | with_reducible apply OnlyM.ite
    | split | with_reducible apply OnlyM.update

theorem execGovernorBucket_only {M0 : Nat} {s0 : State} {e : BucketEnd} {s : State} (kp_s : OnlyM M0 s0 s)
    (hm : Sub 0x1040800000000000C04100000000240 M0 := by exact Sub.of hm rfl) :
    OnlyOut M0 s0 (execGovernorBucket e s) := by
  unfold execGovernorBucket
  repeat' first
    | (refine Sub.of hm ?_; exact Eq.refl _) | (refine Sub.bit hm ?_; exact Eq.refl _)
    | (refine Or.inl (Sub.bit hm ?_); exact Eq.refl _) | with_reducible exact Or.inr rfl
    | intro _ | with_reducible assumption
    | with_reducible apply State.drives_only | with_reducible apply State.setGov_only
    | with_reducible apply State.evaluate_only | with_reducible apply OnlyOut.next
    | with_reducible apply OnlyOut.fault | with_reducible apply OnlyOut.ite
    | with_reducible apply State.each_only | with_reducible apply OnlyM.ite
    | (extract_lets +onlyGivenNames x; refine OnlyM.cut (M0 := M0) (s0 := s0) x ?_ ?_ <;> first | (intro hx; clear_value x) | unfold x)
    | (extract_lets +onlyGivenNames x; clear_value x)
    | split | with_reducible apply OnlyM.update

theorem execDeferralFlag_only {M0 : Nat} {s0 : State} {n : PortNo} {s : State} (kp_s : OnlyM M0 s0 s)
    (hm : Sub 0x3011000000000000000040000000000000000000000000100800000000004C M0 := by exact Sub.of hm rfl) :
    OnlyOut M0 s0 (execDeferralFlag n s) := by
  unfold execDeferralFlag
  repeat' first
    | (refine Sub.of hm ?_; exact Eq.refl _) | (refine Sub.bit hm ?_; exact Eq.refl _)
    | (refine Or.inl (Sub.bit hm ?_); exact Eq.refl _) | with_reducible exact Or.inr rfl
    | with_reducible refine State.inc_only (LP_DEFER_FLAGGED_holds ..) ?_ ?_
    | with_reducible refine State.inc_only (LP_GOV_CNT_FLAG_holds ..) ?_ ?_
    | with_reducible refine State.inc_only (GW_LEG_STAT_DEFER2_holds ..) ?_ ?_
    | intro _ | with_reducible assumption
    | with_reducible apply State.modPort_only | with_reducible apply State.raise_only | with_reducible apply OnlyOut.next
    | with_reducible apply OnlyOut.fault | with_reducible apply OnlyOut.ite
    | with_reducible apply OnlyOpt.none | with_reducible apply OnlyOpt.some
    | with_reducible apply OnlyM.ite
    | (extract_lets +onlyGivenNames x; refine OnlyM.cut (M0 := M0) (s0 := s0) x ?_ ?_ <;> first | (intro hx; clear_value x) | unfold x)
    | (extract_lets +onlyGivenNames x; clear_value x)
    | split | with_reducible apply OnlyM.update

theorem execWakeDetected_only {M0 : Nat} {s0 : State} {n : PortNo} {w : WakeSeen} {s : State} (kp_s : OnlyM M0 s0 s)
    (hm : Sub 0x3011000000000000000000000000000000000000000000010000000000004C M0 := by exact Sub.of hm rfl) :
    OnlyOut M0 s0 (execWakeDetected n w s) := by
  unfold execWakeDetected
  repeat' first
    | (refine Sub.of hm ?_; exact Eq.refl _) | (refine Sub.bit hm ?_; exact Eq.refl _)
    | (refine Or.inl (Sub.bit hm ?_); exact Eq.refl _) | with_reducible exact Or.inr rfl
    | with_reducible refine State.put_only (LP_WAKE_STAT_WOKE_holds ..) ?_ ?_
    | with_reducible refine State.set_only (LP_WAKE_STAT_KIND_holds ..) ?_ ?_
    | intro _ | with_reducible assumption
    | with_reducible apply State.modPort_only | with_reducible apply State.lpCause_only
    | with_reducible apply OnlyOut.next | with_reducible apply OnlyOut.fault
    | with_reducible apply OnlyOut.ite | with_reducible apply OnlyM.ite
    | (extract_lets +onlyGivenNames x; refine OnlyM.cut (M0 := M0) (s0 := s0) x ?_ ?_ <;> first | (intro hx; clear_value x) | unfold x)
    | (extract_lets +onlyGivenNames x; clear_value x)
    | split | with_reducible apply OnlyM.update

end Sys2Proof.Machine
end

