-- ==== Sys2Proof/Laws/OnlyBitEngine.lean ====
section
/-! SUPPORT. Which parts each operation of `Machine/BitEngine.lean` may change, and that it keeps what every command keeps: each
lemma follows the operation's own text, piece by piece, and gives the parts as a set of part numbers. -/

namespace Sys2Proof.Machine

theorem execFrameReception_only {M0 : Nat} {s0 : State} {n : PortNo} {r : Reception} {s : State} (kp_s : OnlyM M0 s0 s)
    (hm : Sub 0x30113C180102000000302403CDF8A401DF182595EEA8004C041000000196DD M0 := by exact Sub.of hm rfl) :
    OnlyOut M0 s0 (execFrameReception n r s) := by
  unfold execFrameReception
  repeat' first
    | (refine Sub.of hm ?_; exact Eq.refl _) | (refine Sub.bit hm ?_; exact Eq.refl _)
    | intro _ | with_reducible assumption
    | with_reducible apply State.receive_only | with_reducible apply OnlyOut.next
    | with_reducible apply OnlyOut.fault | with_reducible apply OnlyOut.ite
    | with_reducible apply OnlyM.ite
    | split

theorem execExceptionEnd_only {M0 : Nat} {s0 : State} {n : PortNo} {s : State} (kp_s : OnlyM M0 s0 s)
    (hm : Sub 0x301100000002000000302403C18080010C1800040000004C001000000196CD M0 := by exact Sub.of hm rfl) :
    OnlyOut M0 s0 (execExceptionEnd n s) := by
  unfold execExceptionEnd
  repeat' first
    | (refine Sub.of hm ?_; exact Eq.refl _) | (refine Sub.bit hm ?_; exact Eq.refl _)
    | intro _ | with_reducible assumption
    | with_reducible apply State.enterIdle_only | with_reducible apply OnlyOut.next
    | with_reducible apply OnlyOut.fault | with_reducible apply OnlyOut.ite
    | with_reducible apply OnlyM.ite
    | split

theorem State.countOccurrence_only {M0 : Nat} {s0 : State} {s : State} {n : Nat} (kp_s : OnlyM M0 s0 s)
    (hm : Sub 0x8000000000000000000000000000000000 M0 := by exact Sub.of hm rfl) :
    OnlyM M0 s0 (State.countOccurrence s n) := by
  unfold State.countOccurrence
  repeat' first
    | (refine Sub.of hm ?_; exact Eq.refl _) | (refine Sub.bit hm ?_; exact Eq.refl _)
    | with_reducible refine State.inc_only (ECF_STAT_SEQ_holds ..) ?_ ?_
    | intro _ | with_reducible assumption | with_reducible apply OnlyM.ite
    | split

theorem execIntegrationComplete_only {M0 : Nat} {s0 : State} {n : PortNo} {s : State} (kp_s : OnlyM M0 s0 s)
    (hm : Sub 0x301100000002000000302403C18080010C1800040000004C001000000196CD M0 := by exact Sub.of hm rfl) :
    OnlyOut M0 s0 (execIntegrationComplete n s) := by
  unfold execIntegrationComplete
  repeat' first
    | (refine Sub.of hm ?_; exact Eq.refl _) | (refine Sub.bit hm ?_; exact Eq.refl _)
    | intro _ | with_reducible assumption
    | with_reducible apply State.btCause_only | with_reducible apply State.enterIdle_only
    | with_reducible apply State.countOccurrence_only | with_reducible apply State.settle_only
    | with_reducible apply OnlyOut.next | with_reducible apply OnlyOut.fault
    | with_reducible apply OnlyOut.ite | with_reducible apply OnlyM.ite
    | split

theorem execTransmitAttempt_only {M0 : Nat} {s0 : State} {n : PortNo} {u : TxEnd} {edges : List Nat} {load pj : Nat} {s : State} (kp_s : OnlyM M0 s0 s)
    (hm : Sub 0x301100000006000000302403C5F880010F1804040034104C069000004196CD M0 := by exact Sub.of hm rfl) :
    OnlyOut M0 s0 (execTransmitAttempt n u edges load pj s) := by
  unfold execTransmitAttempt
  repeat' first
    | (refine Sub.of hm ?_; exact Eq.refl _) | (refine Sub.bit hm ?_; exact Eq.refl _)
    | (refine Or.inl (Sub.bit hm ?_); exact Eq.refl _) | with_reducible exact Or.inr rfl
    | intro _ | with_reducible assumption
    | with_reducible apply State.settle_only | with_reducible apply State.startAttempt_only
    | with_reducible apply State.meter_only | with_reducible apply State.loadCheck_only
    | with_reducible apply State.wonAttempt_only | with_reducible apply State.advanceAttempt_only
    | with_reducible apply OnlyOut.next | with_reducible apply OnlyOut.fault
    | with_reducible apply OnlyOut.ite | with_reducible apply OnlyOpt.none
    | with_reducible apply OnlyOpt.some | with_reducible apply OnlyM.ite
    | (extract_lets +onlyGivenNames x; refine OnlyM.cut (M0 := M0) (s0 := s0) x ?_ ?_ <;> first | (intro hx; clear_value x) | unfold x)
    | (extract_lets +onlyGivenNames x; clear_value x)
    | split | with_reducible apply OnlyM.update

theorem State.overloadFlag_only {M0 : Nat} {s0 : State} {s : State} {n pj : Nat} (kp_s : OnlyM M0 s0 s)
    (hm : Sub 0x4C04000000000240 M0 := by exact Sub.of hm rfl) :
    OnlyM M0 s0 (State.overloadFlag s n pj) := by
  unfold State.overloadFlag
  repeat' first
    | (refine Sub.of hm ?_; exact Eq.refl _) | (refine Sub.bit hm ?_; exact Eq.refl _)
    | intro _ | with_reducible assumption
    | with_reducible apply State.setB_only | with_reducible apply State.drives_only
    | with_reducible apply OnlyM.ite
    | split

theorem State.errorFlag_only {M0 : Nat} {s0 : State} {s : State} {n : Nat} {e : BusError} (kp_s : OnlyM M0 s0 s)
    (hm : Sub 0x301100000002000000302403C5F880010F1804040000004C041000000196CD M0 := by exact Sub.of hm rfl) :
    OnlyM M0 s0 (State.errorFlag s n e) := by
  unfold State.errorFlag
  repeat' first
    | (refine Sub.of hm ?_; exact Eq.refl _) | (refine Sub.bit hm ?_; exact Eq.refl _)
    | intro _ | with_reducible assumption
    | with_reducible apply State.busError_only | with_reducible apply State.drives_only
    | with_reducible apply OnlyM.ite
    | (extract_lets +onlyGivenNames x; refine OnlyM.cut (M0 := M0) (s0 := s0) x ?_ ?_ <;> first | (intro hx; clear_value x) | unfold x)
    | (extract_lets +onlyGivenNames x; clear_value x)
    | split

theorem execErrorDetected_only {M0 : Nat} {s0 : State} {n : PortNo} {e : BusError} {s : State} (kp_s : OnlyM M0 s0 s)
    (hm : Sub 0x301100000002000000302403C5F880010F1804040000004C041000000196CD M0 := by exact Sub.of hm rfl) :
    OnlyOut M0 s0 (execErrorDetected n e s) := by
  unfold execErrorDetected
  repeat' first
    | (refine Sub.of hm ?_; exact Eq.refl _) | (refine Sub.bit hm ?_; exact Eq.refl _)
    | intro _ | with_reducible assumption
    | with_reducible apply State.overloadFlag_only | with_reducible apply State.busError_only
    | with_reducible apply State.drives_only | with_reducible apply State.errorFlag_only
    | with_reducible apply OnlyOut.next | with_reducible apply OnlyOut.fault
    | with_reducible apply OnlyOut.ite | with_reducible apply OnlyM.ite
    | split

theorem execBeaconDue_only {M0 : Nat} {s0 : State} {n : PortNo} {s : State} (kp_s : OnlyM M0 s0 s)
    (hm : Sub 0x3011000000000000000000000000000000000000000400000000000000004C M0 := by exact Sub.of hm rfl) :
    OnlyOut M0 s0 (execBeaconDue n s) := by
  unfold execBeaconDue
  repeat' first
    | (refine Sub.of hm ?_; exact Eq.refl _) | (refine Sub.bit hm ?_; exact Eq.refl _)
    | (refine Or.inl (Sub.bit hm ?_); exact Eq.refl _) | with_reducible exact Or.inr rfl
    | with_reducible refine State.inc_only (BT_BCN_STAT_MISSED_holds ..) ?_ ?_
    | intro _ | with_reducible assumption | with_reducible apply State.btCause_only
    | with_reducible apply State.modPort_only | with_reducible apply OnlyOut.next
    | with_reducible apply OnlyOut.fault | with_reducible apply OnlyOut.ite
    | with_reducible apply OnlyOpt.none | with_reducible apply OnlyOpt.some
    | with_reducible apply OnlyM.ite
    | (extract_lets +onlyGivenNames x; refine OnlyM.cut (M0 := M0) (s0 := s0) x ?_ ?_ <;> first | (intro hx; clear_value x) | unfold x)
    | (extract_lets +onlyGivenNames x; clear_value x)
    | split | with_reducible apply OnlyM.update

theorem execPlcaStatusChange_only {M0 : Nat} {s0 : State} {n : PortNo} {ok : Bool} {s : State} (kp_s : OnlyM M0 s0 s)
    (hm : Sub 0x3011000000000000000000000000000000000000000080000000000000000C M0 := by exact Sub.of hm rfl) :
    OnlyOut M0 s0 (execPlcaStatusChange n ok s) := by
  unfold execPlcaStatusChange
  repeat' first
    | (refine Sub.of hm ?_; exact Eq.refl _) | (refine Sub.bit hm ?_; exact Eq.refl _)
    | with_reducible refine State.put_only (BT_PLCA_STAT_OK_holds ..) ?_ ?_
    | with_reducible refine State.inc_only (BT_PLCA_STAT_LOST_holds ..) ?_ ?_
    | intro _ | with_reducible assumption | with_reducible apply State.btCause_only | with_reducible apply OnlyOut.next
    | with_reducible apply OnlyOut.fault | with_reducible apply OnlyOut.ite
    | with_reducible apply OnlyM.ite
    | (extract_lets +onlyGivenNames x; refine OnlyM.cut (M0 := M0) (s0 := s0) x ?_ ?_ <;> first | (intro hx; clear_value x) | unfold x)
    | (extract_lets +onlyGivenNames x; clear_value x)
    | split

theorem execPlcaForeignBeacon_only {M0 : Nat} {s0 : State} {n : PortNo} {s : State} (kp_s : OnlyM M0 s0 s)
    (hm : Sub 0x3011000000000000000000000000000000000000000000000000000000000C M0 := by exact Sub.of hm rfl) :
    OnlyOut M0 s0 (execPlcaForeignBeacon n s) := by
  unfold execPlcaForeignBeacon
  repeat' first
    | (refine Sub.of hm ?_; exact Eq.refl _) | (refine Sub.bit hm ?_; exact Eq.refl _)
    | intro _ | with_reducible assumption
    | with_reducible apply State.btCause_only | with_reducible apply OnlyOut.next
    | with_reducible apply OnlyOut.fault | with_reducible apply OnlyOut.ite
    | with_reducible apply OnlyM.ite
    | split

theorem execCollision_only {M0 : Nat} {s0 : State} {n : PortNo} {s : State} (kp_s : OnlyM M0 s0 s)
    (hm : Sub 0x301100000002000000302403D18080010C1800040000004C001000000196CD M0 := by exact Sub.of hm rfl) :
    OnlyOut M0 s0 (execCollision n s) := by
  unfold execCollision
  repeat' first
    | (refine Sub.of hm ?_; exact Eq.refl _) | (refine Sub.bit hm ?_; exact Eq.refl _)
    | (refine Or.inl (Sub.bit hm ?_); exact Eq.refl _) | with_reducible exact Or.inr rfl
    | with_reducible refine State.inc_only (ECF_ETH_COLL_COLL_holds ..) ?_ ?_
    | with_reducible refine State.inc_only (ECF_ETH_COLL_EXCESS_holds ..) ?_ ?_
    | intro _ | with_reducible assumption | with_reducible apply State.modPort_only
    | with_reducible apply State.setSlotState_only | with_reducible apply State.endRequest_only
    | with_reducible apply State.btCause_only | with_reducible apply State.enterIdle_only
    | with_reducible apply State.attemptFailed_only | with_reducible apply OnlyOut.next
    | with_reducible apply OnlyOut.fault | with_reducible apply OnlyOut.ite
    | with_reducible apply OnlyOpt.none | with_reducible apply OnlyOpt.some
    | with_reducible apply OnlyM.ite
    | (extract_lets +onlyGivenNames x; refine OnlyM.cut (M0 := M0) (s0 := s0) x ?_ ?_ <;> first | (intro hx; clear_value x) | unfold x)
    | (extract_lets +onlyGivenNames x; clear_value x)
    | split | with_reducible apply OnlyM.update

theorem State.opmodeWrite_only {M0 : Nat} {s0 : State} {s : State} {n v : Nat} (kp_s : OnlyM M0 s0 s)
    (hm : Sub 0x301100000002000000302403C00000010C1800000000006C0010000001964D M0 := by exact Sub.of hm rfl) :
    OnlyM M0 s0 (State.opmodeWrite s n v) := by
  unfold State.opmodeWrite
  repeat' first
    | (refine Sub.of hm ?_; exact Eq.refl _) | (refine Sub.bit hm ?_; exact Eq.refl _)
    | (refine Or.inl (Sub.bit hm ?_); exact Eq.refl _) | with_reducible exact Or.inr rfl
    | with_reducible refine State.set_only (BT_CTRL_OPMODE_holds ..) ?_ ?_
    | intro _ | with_reducible assumption | with_reducible apply State.modPort_only
    | with_reducible apply State.applyOpmode_only | with_reducible apply OnlyM.ite
    | (extract_lets +onlyGivenNames x; refine OnlyM.cut (M0 := M0) (s0 := s0) x ?_ ?_ <;> first | (intro hx; clear_value x) | unfold x)
    | (extract_lets +onlyGivenNames x; clear_value x)
    | split | with_reducible apply OnlyM.update

theorem execOpmodeWrite_only {M0 : Nat} {s0 : State} {q : Requester} {n : PortNo} {v : Fin 4} {s : State} (kp_s : OnlyM M0 s0 s)
    (hm : Sub 0x4000000000000000000000000301100000002018800302403C00000010C1800000000006C0010000021964D M0 := by exact Sub.of hm rfl) :
    OnlyOut M0 s0 (execOpmodeWrite q n v s) := by
  unfold execOpmodeWrite
  repeat' first
    | (refine Sub.of hm ?_; exact Eq.refl _) | (refine Sub.bit hm ?_; exact Eq.refl _)
    | intro _ | with_reducible assumption
    | with_reducible apply State.hostWrite_only | with_reducible apply State.opmodeWrite_only
    | with_reducible apply OnlyOut.next | with_reducible apply OnlyOut.fault
    | with_reducible apply OnlyOut.ite

theorem execOpmodeApply_only {M0 : Nat} {s0 : State} {n : PortNo} {s : State} (kp_s : OnlyM M0 s0 s)
    (hm : Sub 0x301100000002000000302403C18080010C1800040000004C001000000196CD M0 := by exact Sub.of hm rfl) :
    OnlyOut M0 s0 (execOpmodeApply n s) := by
  unfold execOpmodeApply
  repeat' first
    | (refine Sub.of hm ?_; exact Eq.refl _) | (refine Sub.bit hm ?_; exact Eq.refl _)
    | intro _ | with_reducible assumption
    | with_reducible apply State.applyOpmode_only | with_reducible apply State.enterIdle_only
    | with_reducible apply OnlyOut.next | with_reducible apply OnlyOut.fault
    | with_reducible apply OnlyOut.ite | with_reducible apply OnlyM.ite
    | split

end Sys2Proof.Machine
end

