-- ==== Sys2Proof/Laws/OnlyConfinement.lean ====
section
/-! SUPPORT. Which parts each operation of `Machine/Confinement.lean` may change, and that it keeps what every command keeps: each
lemma follows the operation's own text, piece by piece, and gives the parts as a set of part numbers. -/

namespace Sys2Proof.Machine

theorem execHoldoffEnd_only {M0 : Nat} {s0 : State} {n : PortNo} {s : State} (kp_s : OnlyM M0 s0 s)
    (hm : Sub 0x8000000000000000000000000000000000 M0 := by exact Sub.of hm rfl) :
    OnlyOut M0 s0 (execHoldoffEnd n s) := by
  unfold execHoldoffEnd
  repeat' first
    | (refine Sub.of hm ?_; exact Eq.refl _) | (refine Sub.bit hm ?_; exact Eq.refl _)
    | intro _ | with_reducible assumption
    | with_reducible apply State.startCounting_only | with_reducible apply OnlyOut.next
    | with_reducible apply OnlyOut.fault | with_reducible apply OnlyOut.ite
    | with_reducible apply OnlyM.ite
    | split

theorem execRecoveryComplete_only {M0 : Nat} {s0 : State} {n : PortNo} {s : State} (kp_s : OnlyM M0 s0 s)
    (hm : Sub 0x301100000002000000302403C38880010C1800040000004C001000000196CD M0 := by exact Sub.of hm rfl) :
    OnlyOut M0 s0 (execRecoveryComplete n s) := by
  unfold execRecoveryComplete
  repeat' first
    | (refine Sub.of hm ?_; exact Eq.refl _) | (refine Sub.bit hm ?_; exact Eq.refl _)
    | with_reducible refine State.set_only (ECF_CNT_TEC_holds ..) ?_ ?_
    | with_reducible refine State.set_only (ECF_CNT_REC_holds ..) ?_ ?_
    | with_reducible refine State.set_only (ECF_STAT_ESTATE_holds ..) ?_ ?_
    | with_reducible refine State.put_only (ECF_STAT_WARN_holds ..) ?_ ?_
    | with_reducible refine State.set_only (ECF_STAT_RSTEP_holds ..) ?_ ?_
    | with_reducible refine State.set_only (ECF_STAT_SEQ_holds ..) ?_ ?_
    | with_reducible refine State.set_only (ECF_BO_DUR_US_holds ..) ?_ ?_
    | intro _ | with_reducible assumption
    | with_reducible apply State.endCond_only | with_reducible apply State.btCause_only
    | with_reducible apply State.integrate_only | with_reducible apply State.enterIdle_only
    | with_reducible apply OnlyOut.next | with_reducible apply OnlyOut.fault
    | with_reducible apply OnlyOut.ite | with_reducible apply OnlyM.ite
    | (extract_lets +onlyGivenNames x; refine OnlyM.cut (M0 := M0) (s0 := s0) x ?_ ?_ <;> first | (intro hx; clear_value x) | unfold x)
    | (extract_lets +onlyGivenNames x; clear_value x)
    | split

theorem State.ecfErr_only {M0 : Nat} {s0 : State} {s : State} {n : Nat} (kp_s : OnlyM M0 s0 s)
    (hm : Sub 0x8000000000000000000000000000000000 M0 := by exact Sub.of hm rfl) :
    OnlyM M0 s0 (State.ecfErr s n) := by
  unfold State.ecfErr
  repeat' first
    | (refine Sub.of hm ?_; exact Eq.refl _) | (refine Sub.bit hm ?_; exact Eq.refl _)
    | with_reducible refine State.put_only (ECF_STAT_CMDERR_holds ..) ?_ ?_
    | intro _ | with_reducible assumption

theorem State.recover_only {M0 : Nat} {s0 : State} {s : State} {n : Nat} (kp_s : OnlyM M0 s0 s)
    (hm : Sub 0x808000000000000000000000000000000000 M0 := by exact Sub.of hm rfl) :
    OnlyM M0 s0 (State.recover s n) := by
  unfold State.recover
  repeat' first
    | (refine Sub.of hm ?_; exact Eq.refl _) | (refine Sub.bit hm ?_; exact Eq.refl _)
    | with_reducible refine State.put_only (ECF_BO_ESC_holds ..) ?_ ?_
    | intro _ | with_reducible assumption
    | with_reducible apply State.startCounting_only
    | with_reducible apply State.ecfErr_only | with_reducible apply OnlyM.ite
    | split

theorem State.quar_only {M0 : Nat} {s0 : State} {s : State} {n : Nat} (kp_s : OnlyM M0 s0 s)
    (hm : Sub 0x301100000002000000302403C18080010C1800040000004C001000000196CD M0 := by exact Sub.of hm rfl) :
    OnlyM M0 s0 (State.quar s n) := by
  unfold State.quar
  repeat' first
    | (refine Sub.of hm ?_; exact Eq.refl _) | (refine Sub.bit hm ?_; exact Eq.refl _)
    | with_reducible refine State.put_only (ECF_STAT_QPEND_holds ..) ?_ ?_
    | intro _ | with_reducible assumption
    | with_reducible apply State.ecfErr_only
    | with_reducible apply State.quarantine_only | with_reducible apply OnlyM.ite
    | (extract_lets +onlyGivenNames x; refine OnlyM.cut (M0 := M0) (s0 := s0) x ?_ ?_ <;> first | (intro hx; clear_value x) | unfold x)
    | (extract_lets +onlyGivenNames x; clear_value x)
    | split

theorem State.ecfWrite_only {M0 : Nat} {s0 : State} {s : State} {q : Requester} {n : Nat} {f : State → State} (kp_s : OnlyM M0 s0 s) (kp_f : ∀ t, OnlyM M0 s0 t → OnlyM M0 s0 (f t))
    (hm : Sub 0x400000000000000000000000000000000000001880000000000000000000000000000000000000000208000 M0 := by exact Sub.of hm rfl) :
    OnlyM M0 s0 (State.ecfWrite s q n f) := by
  unfold State.ecfWrite
  repeat' first
    | (refine Sub.of hm ?_; exact Eq.refl _) | (refine Sub.bit hm ?_; exact Eq.refl _)
    | (refine Or.inl (Sub.bit hm ?_); exact Eq.refl _) | with_reducible exact Or.inr rfl
    | intro _ | with_reducible assumption
    | with_reducible apply kp_f | with_reducible apply State.access_only
    | with_reducible apply State.answerDone_only
    | (extract_lets +onlyGivenNames x; refine OnlyM.cut (M0 := M0) (s0 := s0) x ?_ ?_ <;> first | (intro hx; clear_value x) | unfold x)
    | (extract_lets +onlyGivenNames x; clear_value x)
    | split | with_reducible apply OnlyM.update

theorem execRecover_only {M0 : Nat} {s0 : State} {q : Requester} {n : PortNo} {s : State} (kp_s : OnlyM M0 s0 s)
    (hm : Sub 0x400000000000000000000000000000000000001880000000000808000000000000000000000000000208000 M0 := by exact Sub.of hm rfl) :
    OnlyOut M0 s0 (execRecover q n s) := by
  unfold execRecover
  repeat' first
    | (refine Sub.of hm ?_; exact Eq.refl _) | (refine Sub.bit hm ?_; exact Eq.refl _)
    | intro _ | with_reducible assumption
    | with_reducible apply State.ecfWrite_only | with_reducible apply State.recover_only
    | with_reducible apply OnlyOut.next | with_reducible apply OnlyOut.fault
    | with_reducible apply OnlyOut.ite

theorem execQuar_only {M0 : Nat} {s0 : State} {q : Requester} {n : PortNo} {s : State} (kp_s : OnlyM M0 s0 s)
    (hm : Sub 0x4000000000000000000000000301100000002018800302403C18080010C1800040000004C001000002196CD M0 := by exact Sub.of hm rfl) :
    OnlyOut M0 s0 (execQuar q n s) := by
  unfold execQuar
  repeat' first
    | (refine Sub.of hm ?_; exact Eq.refl _) | (refine Sub.bit hm ?_; exact Eq.refl _)
    | intro _ | with_reducible assumption
    | with_reducible apply State.ecfWrite_only | with_reducible apply State.quar_only
    | with_reducible apply OnlyOut.next | with_reducible apply OnlyOut.fault
    | with_reducible apply OnlyOut.ite

theorem execQuarantineEffect_only {M0 : Nat} {s0 : State} {n : PortNo} {s : State} (kp_s : OnlyM M0 s0 s)
    (hm : Sub 0x301100000002000000302403C18080010C1800040000004C001000000196CD M0 := by exact Sub.of hm rfl) :
    OnlyOut M0 s0 (execQuarantineEffect n s) := by
  unfold execQuarantineEffect
  repeat' first
    | (refine Sub.of hm ?_; exact Eq.refl _) | (refine Sub.bit hm ?_; exact Eq.refl _)
    | intro _ | with_reducible assumption
    | with_reducible apply State.enterIdle_only | with_reducible apply OnlyOut.next
    | with_reducible apply OnlyOut.fault | with_reducible apply OnlyOut.ite
    | with_reducible apply OnlyM.ite
    | split

theorem execSlopeBucket_only {M0 : Nat} {s0 : State} {n : PortNo} {s : State} (kp_s : OnlyM M0 s0 s)
    (hm : Sub 0x8000000000000000000000000000000040 M0 := by exact Sub.of hm rfl) :
    OnlyOut M0 s0 (execSlopeBucket n s) := by
  unfold execSlopeBucket
  repeat' first
    | (refine Sub.of hm ?_; exact Eq.refl _) | (refine Sub.bit hm ?_; exact Eq.refl _)
    | (refine Or.inl (Sub.bit hm ?_); exact Eq.refl _) | with_reducible exact Or.inr rfl
    | with_reducible refine State.put_only (ECF_STAT_SLOPE_holds ..) ?_ ?_
    | intro _ | with_reducible assumption
    | with_reducible apply State.modPort_only
    | with_reducible apply OnlyOut.next | with_reducible apply OnlyOut.fault
    | with_reducible apply OnlyOut.ite | with_reducible apply OnlyM.ite
    | (extract_lets +onlyGivenNames x; refine OnlyM.cut (M0 := M0) (s0 := s0) x ?_ ?_ <;> first | (intro hx; clear_value x) | unfold x)
    | (extract_lets +onlyGivenNames x; clear_value x)
    | split | with_reducible apply OnlyM.update

end Sys2Proof.Machine
end

