-- ==== Sys2Proof/Laws/OnlyConstellation.lean ====
section
/-! SUPPORT. Which parts each operation of `Machine/Constellation.lean` may change, and that it keeps what every command keeps: each
lemma follows the operation's own text, piece by piece, and gives the parts as a set of part numbers. -/

namespace Sys2Proof.Machine

theorem State.modPeer_only {M0 : Nat} {s0 : State} {s : State} {m : Nat} {f : Peer → Peer} (kp_s : OnlyM M0 s0 s)
    (hm : Sub 0x4000 M0 := by exact Sub.of hm rfl) :
    OnlyM M0 s0 (State.modPeer s m f) := by
  unfold State.modPeer
  repeat' first
    | (refine Sub.of hm ?_; exact Eq.refl _) | (refine Sub.bit hm ?_; exact Eq.refl _)
    | (refine Or.inl (Sub.bit hm ?_); exact Eq.refl _) | with_reducible exact Or.inr rfl
    | intro _ | with_reducible assumption
    | with_reducible apply OnlyM.update

theorem State.conSend_only {M0 : Nat} {s0 : State} {s : State} {dst : Nat} {bs : List Byte} (kp_s : OnlyM M0 s0 s)
    (hm : Sub 0x800000000000000000000000000000000000000000000000000000000000000000002000 M0 := by exact Sub.of hm rfl) :
    OnlyM M0 s0 (State.conSend s dst bs) := by
  unfold State.conSend
  repeat' first
    | (refine Sub.of hm ?_; exact Eq.refl _) | (refine Sub.bit hm ?_; exact Eq.refl _)
    | intro _ | with_reducible assumption
    | with_reducible apply State.streamSend_only | with_reducible apply OnlyOpt.none
    | with_reducible apply OnlyOpt.some

theorem State.recordDis_only {M0 : Nat} {s0 : State} {s : State} {i j kind : Nat} {notice : Bool} {t : Nat} (kp_s : OnlyM M0 s0 s)
    (hm : Sub 0x600000000000000000000000000000000000000000000000000000000000000000000000000000004000 M0 := by exact Sub.of hm rfl) :
    OnlyM M0 s0 (State.recordDis s i j kind notice t) := by
  unfold State.recordDis
  repeat' first
    | (refine Sub.of hm ?_; exact Eq.refl _) | (refine Sub.bit hm ?_; exact Eq.refl _)
    | (refine Or.inl (Sub.bit hm ?_); exact Eq.refl _) | with_reducible exact Or.inr rfl
    | with_reducible refine State.set_only CON_DIS_I_holds ?_ ?_
    | with_reducible refine State.set_only CON_DIS_J_holds ?_ ?_
    | with_reducible refine State.set_only CON_DIS_KIND_holds ?_ ?_
    | with_reducible refine State.put_only CON_DIS_NOTICE_holds ?_ ?_
    | with_reducible refine State.setStamp_only (Part.holds.own CON_DIS_T_NS_holds) CON_DIS_T_NS_next ?_ ?_
    | with_reducible refine State.put_only CON_DIS_VALID_holds ?_ ?_
    | intro _ | with_reducible assumption | with_reducible apply OnlyM.ite
    | (extract_lets +onlyGivenNames x; refine OnlyM.cut (M0 := M0) (s0 := s0) x ?_ ?_ <;> first | (intro hx; clear_value x) | unfold x)
    | (extract_lets +onlyGivenNames x; clear_value x)
    | split | with_reducible apply OnlyM.update

theorem State.sendNotices_only {M0 : Nat} {s0 : State} {s : State} {j kind : Nat} (kp_s : OnlyM M0 s0 s)
    (hm : Sub 0x800000000000000000000000000000000000000000000000000000000000000000002000 M0 := by exact Sub.of hm rfl) :
    OnlyM M0 s0 (State.sendNotices s j kind) := by
  unfold State.sendNotices
  repeat' first
    | (refine Sub.of hm ?_; exact Eq.refl _) | (refine Sub.bit hm ?_; exact Eq.refl _)
    | intro _ | with_reducible assumption
    | with_reducible apply State.conSend_only | with_reducible apply State.each_only
    | (extract_lets +onlyGivenNames x; refine OnlyM.cut (M0 := M0) (s0 := s0) x ?_ ?_ <;> first | (intro hx; clear_value x) | unfold x)
    | (extract_lets +onlyGivenNames x; clear_value x)

theorem State.setAgreed_only {M0 : Nat} {s0 : State} {s : State} {m : Nat} {b : Bool} (kp_s : OnlyM M0 s0 s)
    (hm : Sub 0x2010000000000000000000000000000000000000000000000000000000000000000000000000000000000 M0 := by exact Sub.of hm rfl) :
    OnlyM M0 s0 (State.setAgreed s m b) := by
  unfold State.setAgreed
  repeat' first
    | (refine Sub.of hm ?_; exact Eq.refl _) | (refine Sub.bit hm ?_; exact Eq.refl _)
    | with_reducible refine State.put_only (CON_PEER_STAT_AGREED_holds ..) ?_ ?_
    | with_reducible refine State.put_only (agreedLoc_holds ..) ?_ ?_
    | intro _ | with_reducible assumption

theorem State.pairLost_only {M0 : Nat} {s0 : State} {s : State} {m kind : Nat} (kp_s : OnlyM M0 s0 s)
    (hm : Sub 0x860000000000080000000003011000000000000000000000000000000000000000000000000000000600C M0 := by exact Sub.of hm rfl) :
    OnlyM M0 s0 (State.pairLost s m kind) := by
  unfold State.pairLost
  repeat' first
    | (refine Sub.of hm ?_; exact Eq.refl _) | (refine Sub.bit hm ?_; exact Eq.refl _)
    | with_reducible refine State.inc_only (CON_PEER_CNT_LOST_holds ..) ?_ ?_
    | intro _ | with_reducible assumption | with_reducible apply State.raise_only
    | with_reducible apply State.report_only | with_reducible apply State.recordDis_only
    | with_reducible apply State.sendNotices_only
    | (extract_lets +onlyGivenNames x; refine OnlyM.cut (M0 := M0) (s0 := s0) x ?_ ?_ <;> first | (intro hx; clear_value x) | unfold x)
    | (extract_lets +onlyGivenNames x; clear_value x)

theorem State.evalPairs_only {M0 : Nat} {s0 : State} {s : State} {ms : List Nat} (kp_s : OnlyM M0 s0 s)
    (hm : Sub 0xA61000000000080000000003011000000000000000000000000000000000000000000000000000000600C M0 := by exact Sub.of hm rfl) :
    OnlyM M0 s0 (State.evalPairs s ms) := by
  unfold State.evalPairs
  repeat' first
    | (refine Sub.of hm ?_; exact Eq.refl _) | (refine Sub.bit hm ?_; exact Eq.refl _)
    | with_reducible refine State.set_only (CON_PEER_STAT_KIND_holds ..) ?_ ?_
    | intro _ | with_reducible assumption | with_reducible apply State.setAgreed_only
    | with_reducible apply State.raise_only | with_reducible apply State.pairLost_only
    | with_reducible apply State.each_only
    | (extract_lets +onlyGivenNames x; refine OnlyM.cut (M0 := M0) (s0 := s0) x ?_ ?_ <;> first | (intro hx; clear_value x) | unfold x)
    | (extract_lets +onlyGivenNames x; clear_value x)

theorem State.fence_only {M0 : Nat} {s0 : State} {s : State} (kp_s : OnlyM M0 s0 s)
    (hm : Sub 0xA61000000000080000000003011000000000000000000000000000000000000000000000000000000600C M0 := by exact Sub.of hm rfl) :
    OnlyM M0 s0 (State.fence s) := by
  unfold State.fence
  repeat' first
    | (refine Sub.of hm ?_; exact Eq.refl _) | (refine Sub.bit hm ?_; exact Eq.refl _)
    | (refine Or.inl (Sub.bit hm ?_); exact Eq.refl _) | with_reducible exact Or.inr rfl
    | with_reducible refine State.put_only CON_STAT_FENCED_holds ?_ ?_
    | intro _ | with_reducible assumption | with_reducible apply State.raise_only
    | with_reducible apply State.startCond_only | with_reducible apply State.evalPairs_only
    | with_reducible apply OnlyM.ite
    | (extract_lets +onlyGivenNames x; refine OnlyM.cut (M0 := M0) (s0 := s0) x ?_ ?_ <;> first | (intro hx; clear_value x) | unfold x)
    | (extract_lets +onlyGivenNames x; clear_value x)
    | split | with_reducible apply OnlyM.update

theorem State.unfence_only {M0 : Nat} {s0 : State} {s : State} (kp_s : OnlyM M0 s0 s)
    (hm : Sub 0xA61000000000080000000003011000000000000000000000000000000000000000000000000000000600C M0 := by exact Sub.of hm rfl) :
    OnlyM M0 s0 (State.unfence s) := by
  unfold State.unfence
  repeat' first
    | (refine Sub.of hm ?_; exact Eq.refl _) | (refine Sub.bit hm ?_; exact Eq.refl _)
    | (refine Or.inl (Sub.bit hm ?_); exact Eq.refl _) | with_reducible exact Or.inr rfl
    | with_reducible refine State.put_only CON_STAT_FENCED_holds ?_ ?_
    | intro _ | with_reducible assumption | with_reducible apply State.raise_only
    | with_reducible apply State.endCond_only | with_reducible apply State.evalPairs_only
    | with_reducible apply OnlyM.ite
    | (extract_lets +onlyGivenNames x; refine OnlyM.cut (M0 := M0) (s0 := s0) x ?_ ?_ <;> first | (intro hx; clear_value x) | unfold x)
    | (extract_lets +onlyGivenNames x; clear_value x)
    | split | with_reducible apply OnlyM.update

theorem execAgreeSend_only {M0 : Nat} {s0 : State} {s : State} (kp_s : OnlyM M0 s0 s)
    (hm : Sub 0xA61000000000080000000003011000000000000000000000000000000000000000000000000000000600C M0 := by exact Sub.of hm rfl) :
    OnlyOut M0 s0 (execAgreeSend s) := by
  unfold execAgreeSend
  repeat' first
    | (refine Sub.of hm ?_; exact Eq.refl _) | (refine Sub.bit hm ?_; exact Eq.refl _)
    | (refine Or.inl (Sub.bit hm ?_); exact Eq.refl _) | with_reducible exact Or.inr rfl
    | with_reducible refine State.put_only CON_STAT_THETA_OK_holds ?_ ?_
    | intro _ | with_reducible assumption | with_reducible apply State.unfence_only
    | with_reducible apply State.fence_only | with_reducible apply State.conSend_only
    | with_reducible apply OnlyOut.next | with_reducible apply OnlyOut.fault
    | with_reducible apply OnlyOut.ite | with_reducible apply State.each_only
    | with_reducible apply OnlyM.ite
    | (extract_lets +onlyGivenNames x; refine OnlyM.cut (M0 := M0) (s0 := s0) x ?_ ?_ <;> first | (intro hx; clear_value x) | unfold x)
    | (extract_lets +onlyGivenNames x; clear_value x)
    | split | with_reducible apply OnlyM.update

theorem State.agreeReceive_only {M0 : Nat} {s0 : State} {s : State} {p : Nat} {a : Agree} {t3 t4 c2 : Nat} (kp_s : OnlyM M0 s0 s)
    (hm : Sub 0xE71000000000080000000003011000000000000000000000000000000000000000000000000000000600C M0 := by exact Sub.of hm rfl) :
    OnlyM M0 s0 (State.agreeReceive s p a t3 t4 c2) := by
  unfold State.agreeReceive
  repeat' first
    | (refine Sub.of hm ?_; exact Eq.refl _) | (refine Sub.bit hm ?_; exact Eq.refl _)
    | (refine Or.inl (Sub.bit hm ?_); exact Eq.refl _) | with_reducible exact Or.inr rfl
    | with_reducible refine State.setInt_only (CON_PEER_OFF_NS_holds ..) ?_ ?_
    | with_reducible refine State.put_only (CON_PEER_STAT_PFENCED_holds ..) ?_ ?_
    | with_reducible refine State.setInt_only CON_THETA_NS_holds ?_ ?_
    | with_reducible refine State.put_only CON_STAT_THETA_OK_holds ?_ ?_
    | intro _ | with_reducible assumption | with_reducible apply State.modPeer_only | with_reducible apply State.fence_only
    | with_reducible apply State.evalPairs_only | with_reducible apply OnlyM.ite
    | (extract_lets +onlyGivenNames x; refine OnlyM.cut (M0 := M0) (s0 := s0) x ?_ ?_ <;> first | (intro hx; clear_value x) | unfold x)
    | (extract_lets +onlyGivenNames x; clear_value x)
    | split | with_reducible apply OnlyM.update

theorem execAgreeReceive_only {M0 : Nat} {s0 : State} {p : Fin 8} {a : Agree} {t3 t4 c2 : Nat} {s : State} (kp_s : OnlyM M0 s0 s)
    (hm : Sub 0xE71000000000080000000003011000000000000000000000000000000000000000000000000000000600C M0 := by exact Sub.of hm rfl) :
    OnlyOut M0 s0 (execAgreeReceive p a t3 t4 c2 s) := by
  unfold execAgreeReceive
  repeat' first
    | (refine Sub.of hm ?_; exact Eq.refl _) | (refine Sub.bit hm ?_; exact Eq.refl _)
    | intro _ | with_reducible assumption
    | with_reducible apply State.agreeReceive_only | with_reducible apply OnlyOut.next
    | with_reducible apply OnlyOut.fault | with_reducible apply OnlyOut.ite
    | with_reducible apply OnlyM.ite
    | split

theorem execPeerSilence_only {M0 : Nat} {s0 : State} {p : Fin 8} {s : State} (kp_s : OnlyM M0 s0 s)
    (hm : Sub 0xA61000000000080000000003011000000000000000000000000000000000000000000000000000000600C M0 := by exact Sub.of hm rfl) :
    OnlyOut M0 s0 (execPeerSilence p s) := by
  unfold execPeerSilence
  repeat' first
    | (refine Sub.of hm ?_; exact Eq.refl _) | (refine Sub.bit hm ?_; exact Eq.refl _)
    | intro _ | with_reducible assumption
    | with_reducible apply State.evalPairs_only | with_reducible apply OnlyOut.next
    | with_reducible apply OnlyOut.fault | with_reducible apply OnlyOut.ite
    | with_reducible apply OnlyM.ite
    | split

theorem execThetaStale_only {M0 : Nat} {s0 : State} {s : State} (kp_s : OnlyM M0 s0 s)
    (hm : Sub 0xA61000000000080000000003011000000000000000000000000000000000000000000000000000000600C M0 := by exact Sub.of hm rfl) :
    OnlyOut M0 s0 (execThetaStale s) := by
  unfold execThetaStale
  repeat' first
    | (refine Sub.of hm ?_; exact Eq.refl _) | (refine Sub.bit hm ?_; exact Eq.refl _)
    | with_reducible refine State.put_only CON_STAT_THETA_OK_holds ?_ ?_
    | intro _ | with_reducible assumption | with_reducible apply State.fence_only
    | with_reducible apply OnlyOut.next | with_reducible apply OnlyOut.fault
    | with_reducible apply OnlyOut.ite | with_reducible apply OnlyM.ite
    | split

theorem State.noticeReceive_only {M0 : Nat} {s0 : State} {s : State} {i j kind t : Nat} (kp_s : OnlyM M0 s0 s)
    (hm : Sub 0x60000000000000000000003011000000000000000000000000000000000000000000000000000000400C M0 := by exact Sub.of hm rfl) :
    OnlyM M0 s0 (State.noticeReceive s i j kind t) := by
  unfold State.noticeReceive
  repeat' first
    | (refine Sub.of hm ?_; exact Eq.refl _) | (refine Sub.bit hm ?_; exact Eq.refl _)
    | intro _ | with_reducible assumption
    | with_reducible apply State.raise_only | with_reducible apply State.recordDis_only

theorem execNoticeReceive_only {M0 : Nat} {s0 : State} {i j kind : Fin 8} {t : Nat} {s : State} (kp_s : OnlyM M0 s0 s)
    (hm : Sub 0x60000000000000000000003011000000000000000000000000000000000000000000000000000000400C M0 := by exact Sub.of hm rfl) :
    OnlyOut M0 s0 (execNoticeReceive i j kind t s) := by
  unfold execNoticeReceive
  repeat' first
    | (refine Sub.of hm ?_; exact Eq.refl _) | (refine Sub.bit hm ?_; exact Eq.refl _)
    | intro _ | with_reducible assumption
    | with_reducible apply State.noticeReceive_only | with_reducible apply OnlyOut.next
    | with_reducible apply OnlyOut.fault | with_reducible apply OnlyOut.ite
    | with_reducible apply OnlyM.ite
    | split

theorem State.frameReceive_only {M0 : Nat} {s0 : State} {s : State} {m : FrameMsg} (kp_s : OnlyM M0 s0 s)
    (hm : Sub 0x180000000000008000000000301100000006000000316703C00000010F180000000000000000000001B44D M0 := by exact Sub.of hm rfl) :
    OnlyM M0 s0 (State.frameReceive s m) := by
  unfold State.frameReceive
  repeat' first
    | (refine Sub.of hm ?_; exact Eq.refl _) | (refine Sub.bit hm ?_; exact Eq.refl _)
    | with_reducible refine State.inc_only (CON_PEER_CNT_XDROP_holds ..) ?_ ?_
    | with_reducible refine State.inc_only (CON_PEER_SKIP_SKIP_holds ..) ?_ ?_
    | intro _ | with_reducible assumption | with_reducible apply State.raiseOncePerMs_only
    | with_reducible apply State.stageLeg_only | with_reducible apply State.ingress_only
    | with_reducible apply State.each_only | with_reducible apply OnlyM.ite
    | split

theorem State.frameArrive_only {M0 : Nat} {s0 : State} {s : State} {m : FrameMsg} (kp_s : OnlyM M0 s0 s)
    (hm : Sub 0x180000000000008000000000301100000006000000316703C00000010F180000000000000000000001B44D M0 := by exact Sub.of hm rfl) :
    OnlyM M0 s0 (State.frameArrive s m) := by
  unfold State.frameArrive
  repeat' first
    | (refine Sub.of hm ?_; exact Eq.refl _) | (refine Sub.bit hm ?_; exact Eq.refl _)
    | intro _ | with_reducible assumption
    | with_reducible apply State.frameReceive_only | with_reducible apply State.holdIn_only
    | with_reducible apply OnlyM.ite
    | split

theorem execFrameMessageReceive_only {M0 : Nat} {s0 : State} {m : FrameMsg} {s : State} (kp_s : OnlyM M0 s0 s)
    (hm : Sub 0x180000000000008000000000301100000006000000316703C00000010F180000000000000000000001B44D M0 := by exact Sub.of hm rfl) :
    OnlyOut M0 s0 (execFrameMessageReceive m s) := by
  unfold execFrameMessageReceive
  repeat' first
    | (refine Sub.of hm ?_; exact Eq.refl _) | (refine Sub.bit hm ?_; exact Eq.refl _)
    | intro _ | with_reducible assumption
    | with_reducible apply State.frameArrive_only | with_reducible apply OnlyOut.next
    | with_reducible apply OnlyOut.fault | with_reducible apply OnlyOut.ite
    | with_reducible apply OnlyM.ite
    | split

theorem State.forward_only {M0 : Nat} {s0 : State} {s : State} {dst rx : Nat} {bs : List Byte} (kp_s : OnlyM M0 s0 s)
    (hm : Sub 0x800000000000000000000000000000000000000000000000000000000000000000002000 M0 := by exact Sub.of hm rfl) :
    OnlyM M0 s0 (State.forward s dst rx bs) := by
  unfold State.forward
  repeat' first
    | (refine Sub.of hm ?_; exact Eq.refl _) | (refine Sub.bit hm ?_; exact Eq.refl _)
    | intro _ | with_reducible assumption
    | with_reducible apply State.streamSend_only | with_reducible apply OnlyOpt.none
    | with_reducible apply OnlyOpt.some | with_reducible apply OnlyM.ite
    | (extract_lets +onlyGivenNames x; refine OnlyM.cut (M0 := M0) (s0 := s0) x ?_ ?_ <;> first | (intro hx; clear_value x) | unfold x)
    | (extract_lets +onlyGivenNames x; clear_value x)
    | split

theorem State.messageReceive_only {M0 : Nat} {s0 : State} {s : State} {t3 t4 : Nat} {bs : List Byte} (kp_s : OnlyM M0 s0 s)
    (hm : Sub 0x1E7100000000008000000000301100000006000000316703C00000010F180000000000000000000001F44D M0 := by exact Sub.of hm rfl) :
    OnlyM M0 s0 (State.messageReceive s t3 t4 bs) := by
  unfold State.messageReceive
  repeat' first
    | (refine Sub.of hm ?_; exact Eq.refl _) | (refine Sub.bit hm ?_; exact Eq.refl _)
    | (refine Or.inl (Sub.bit hm ?_); exact Eq.refl _) | with_reducible exact Or.inr rfl
    | intro _ | with_reducible assumption
    | with_reducible apply State.forward_only | with_reducible apply State.agreeReceive_only
    | with_reducible apply State.frameArrive_only | with_reducible apply State.noticeReceive_only
    | with_reducible apply OnlyM.ite
    | (extract_lets +onlyGivenNames x; refine OnlyM.cut (M0 := M0) (s0 := s0) x ?_ ?_ <;> first | (intro hx; clear_value x) | unfold x)
    | (extract_lets +onlyGivenNames x; clear_value x)
    | split | with_reducible apply OnlyM.update

end Sys2Proof.Machine
end

