-- ==== Sys2Proof/Laws/OnlyCurator.lean ====
section
/-! SUPPORT. Which parts each operation of `Machine/Curator.lean` may change, and that it keeps what every command keeps: each
lemma follows the operation's own text, piece by piece, and gives the parts as a set of part numbers. -/

namespace Sys2Proof.Machine

theorem State.faultPin_only {M0 : Nat} {s0 : State} {s : State} (kp_s : OnlyM M0 s0 s)
    (hm : Sub 0xB011000000000000000000000000000000000000000000000000000000000C M0 := by exact Sub.of hm rfl) :
    OnlyM M0 s0 (State.faultPin s) := by
  unfold State.faultPin
  repeat' first
    | (refine Sub.of hm ?_; exact Eq.refl _) | (refine Sub.bit hm ?_; exact Eq.refl _)
    | with_reducible refine State.set_only CUR_STAT_NUNCL_holds ?_ ?_
    | with_reducible refine State.put_only CUR_STAT_FAULTN_holds ?_ ?_
    | intro _ | with_reducible assumption
    | with_reducible apply State.level_only
    | (extract_lets +onlyGivenNames x; refine OnlyM.cut (M0 := M0) (s0 := s0) x ?_ ?_ <;> first | (intro hx; clear_value x) | unfold x)
    | (extract_lets +onlyGivenNames x; clear_value x)

theorem State.enterSafe_only {M0 : Nat} {s0 : State} {s : State} {src nso : Nat} (kp_s : OnlyM M0 s0 s)
    (hm : Sub 0x800B01100000002000000302403C58080010F1804040080004C011000000196CD M0 := by exact Sub.of hm rfl) :
    OnlyM M0 s0 (State.enterSafe s src nso) := by
  unfold State.enterSafe
  repeat' first
    | (refine Sub.of hm ?_; exact Eq.refl _) | (refine Sub.bit hm ?_; exact Eq.refl _)
    | with_reducible refine State.put_only CUR_STAT_SAFE_holds ?_ ?_
    | with_reducible refine State.setStamp_only (Part.holds.own CUR_SAFE_T_NS_holds) CUR_SAFE_T_NS_next ?_ ?_
    | intro _ | with_reducible assumption
    | with_reducible apply State.raise_only | with_reducible apply State.refreshPorts_only
    | with_reducible apply OnlyM.ite
    | split

theorem State.exitSafe_only {M0 : Nat} {s0 : State} {s : State} (kp_s : OnlyM M0 s0 s)
    (hm : Sub 0xB01100000002000000302403C58080010F1804040080004C011000000196CD M0 := by exact Sub.of hm rfl) :
    OnlyM M0 s0 (State.exitSafe s) := by
  unfold State.exitSafe
  repeat' first
    | (refine Sub.of hm ?_; exact Eq.refl _) | (refine Sub.bit hm ?_; exact Eq.refl _)
    | with_reducible refine State.put_only CUR_STAT_SAFE_holds ?_ ?_
    | intro _ | with_reducible assumption | with_reducible apply State.raise_only
    | with_reducible apply State.refreshPorts_only | with_reducible apply OnlyM.ite
    | split

theorem State.forcePart_only {M0 : Nat} {s0 : State} {s : State} {st : Nat} (kp_s : OnlyM M0 s0 s)
    (hm : Sub 0x200000000000000000000000000000000000000000000018009 M0 := by exact Sub.of hm rfl) :
    OnlyM M0 s0 (State.forcePart s st) := by
  unfold State.forcePart
  repeat' first
    | (refine Sub.of hm ?_; exact Eq.refl _) | (refine Sub.bit hm ?_; exact Eq.refl _)
    | intro _ | with_reducible assumption
    | with_reducible apply State.hallStore_only | with_reducible apply OnlyM.ite
    | (extract_lets +onlyGivenNames x; refine OnlyM.cut (M0 := M0) (s0 := s0) x ?_ ?_ <;> first | (intro hx; clear_value x) | unfold x)
    | (extract_lets +onlyGivenNames x; clear_value x)
    | split

theorem State.startReclaim_only {M0 : Nat} {s0 : State} {s : State} {st : Nat} (kp_s : OnlyM M0 s0 s)
    (hm : Sub 0xB011000000020208000000000000000000000000000000000000000001800D M0 := by exact Sub.of hm rfl) :
    OnlyM M0 s0 (State.startReclaim s st) := by
  unfold State.startReclaim
  repeat' first
    | (refine Sub.of hm ?_; exact Eq.refl _) | (refine Sub.bit hm ?_; exact Eq.refl _)
    | (refine Or.inl (Sub.bit hm ?_); exact Eq.refl _) | with_reducible exact Or.inr rfl
    | with_reducible refine State.put_only CUR_STAT_RECL_holds ?_ ?_
    | intro _ | with_reducible assumption | with_reducible apply State.engineHalt_only
    | with_reducible apply State.forcePart_only | with_reducible apply State.each_only
    | (extract_lets +onlyGivenNames x; refine OnlyM.cut (M0 := M0) (s0 := s0) x ?_ ?_ <;> first | (intro hx; clear_value x) | unfold x)
    | (extract_lets +onlyGivenNames x; clear_value x)
    | with_reducible apply OnlyM.update

theorem State.requestReclaim_only {M0 : Nat} {s0 : State} {s : State} {st : Nat} (kp_s : OnlyM M0 s0 s)
    (hm : Sub 0xB011000000020208000000000000000000000000000000000000000001800D M0 := by exact Sub.of hm rfl) :
    OnlyM M0 s0 (State.requestReclaim s st) := by
  unfold State.requestReclaim
  repeat' first
    | (refine Sub.of hm ?_; exact Eq.refl _) | (refine Sub.bit hm ?_; exact Eq.refl _)
    | (refine Or.inl (Sub.bit hm ?_); exact Eq.refl _) | with_reducible exact Or.inr rfl
    | intro _ | with_reducible assumption
    | with_reducible apply State.startReclaim_only | with_reducible apply OnlyOpt.none
    | with_reducible apply OnlyOpt.some | with_reducible apply OnlyM.ite
    | split | with_reducible apply OnlyM.update

theorem State.finishReclaim_only {M0 : Nat} {s0 : State} {s : State} {st : Nat} (kp_s : OnlyM M0 s0 s)
    (hm : Sub 0x3011000000675B8A00302403C00000010F1800000000000C0010000021964D M0 := by exact Sub.of hm rfl) :
    OnlyM M0 s0 (State.finishReclaim s st) := by
  unfold State.finishReclaim
  repeat' first
    | (refine Sub.of hm ?_; exact Eq.refl _) | (refine Sub.bit hm ?_; exact Eq.refl _)
    | (refine Or.inl (Sub.bit hm ?_); exact Eq.refl _) | with_reducible exact Or.inr rfl
    | intro _ | with_reducible assumption
    | with_reducible apply State.withdrawAll_only | with_reducible apply State.engineReset_only
    | with_reducible apply State.breakLocks_only | with_reducible apply State.dropPool_only
    | with_reducible apply State.revocationDone_only | with_reducible apply State.revokeUnits_only
    | with_reducible apply State.each_only | with_reducible apply OnlyM.ite
    | (extract_lets +onlyGivenNames x; refine OnlyM.cut (M0 := M0) (s0 := s0) x ?_ ?_ <;> first | (intro hx; clear_value x) | unfold x)
    | (extract_lets +onlyGivenNames x; clear_value x)
    | split | with_reducible apply OnlyM.update

theorem execReclaimComplete_only {M0 : Nat} {s0 : State} {s : State} (kp_s : OnlyM M0 s0 s)
    (hm : Sub 0xB011000000675B8A00302403C00000010F1800000000000C0010000021964D M0 := by exact Sub.of hm rfl) :
    OnlyOut M0 s0 (execReclaimComplete s) := by
  unfold execReclaimComplete
  try dsimp only
  repeat' first
    | (refine Sub.of hm ?_; exact Eq.refl _) | (refine Sub.bit hm ?_; exact Eq.refl _)
    | (refine Or.inl (Sub.bit hm ?_); exact Eq.refl _) | with_reducible exact Or.inr rfl
    | with_reducible refine State.put_only CUR_STAT_RECL_holds ?_ ?_
    | intro _ | with_reducible assumption
    | with_reducible apply State.finishReclaim_only | with_reducible apply State.raise_only | with_reducible apply State.startReclaim_only
    | with_reducible apply OnlyOut.next | with_reducible apply OnlyOut.fault
    | with_reducible apply OnlyOut.ite | with_reducible apply OnlyOpt.none
    | with_reducible apply OnlyOpt.some
    | split | with_reducible apply OnlyM.update

theorem State.newEntry_only {M0 : Nat} {s0 : State} {s : State} {i : Nat} {f : FaultReport} {sev : Nat} {safe : Bool} (kp_s : OnlyM M0 s0 s)
    (hm : Sub 0x80003011000000000000000000000000000000000000000000000000000000000C M0 := by exact Sub.of hm rfl) :
    OnlyM M0 s0 (State.newEntry s i f sev safe) := by
  unfold State.newEntry
  repeat' first
    | (refine Sub.of hm ?_; exact Eq.refl _) | (refine Sub.bit hm ?_; exact Eq.refl _)
    | with_reducible refine State.setWord_only (Part.holds.own (CUR_AFT_SRC_holds ..)) ?_ ?_
    | with_reducible refine State.set_only (CUR_AFT_SRC_holds ..) ?_ ?_
    | with_reducible refine State.set_only (CUR_AFT_KIND_holds ..) ?_ ?_
    | with_reducible refine State.set_only (CUR_AFT_SEV_holds ..) ?_ ?_
    | with_reducible refine State.put_only (CUR_AFT_SAFE_holds ..) ?_ ?_
    | with_reducible refine State.put_only (CUR_AFT_LIVE_holds ..) ?_ ?_
    | with_reducible refine State.put_only (CUR_AFT_INJ_holds ..) ?_ ?_
    | with_reducible refine State.put_only (CUR_AFT_VALID_holds ..) ?_ ?_
    | with_reducible refine State.setWord_only (Part.holds.own (CUR_AFT_COUNT_holds ..)) ?_ ?_
    | with_reducible refine State.setStamp_only (Part.holds.own (CUR_AFT_NS_holds ..)) (CUR_AFT_NS_next ..) ?_ ?_
    | intro _ | with_reducible assumption
    | with_reducible apply State.raise_only
    | (extract_lets +onlyGivenNames x; refine OnlyM.cut (M0 := M0) (s0 := s0) x ?_ ?_ <;> first | (intro hx; clear_value x) | unfold x)
    | (extract_lets +onlyGivenNames x; clear_value x)

theorem State.oldEntry_only {M0 : Nat} {s0 : State} {s : State} {i : Nat} {f : FaultReport} {sev : Nat} {safe : Bool} (kp_s : OnlyM M0 s0 s)
    (hm : Sub 0x80003011000000000000000000000000000000000000000000000000000000000C M0 := by exact Sub.of hm rfl) :
    OnlyM M0 s0 (State.oldEntry s i f sev safe) := by
  unfold State.oldEntry
  repeat' first
    | (refine Sub.of hm ?_; exact Eq.refl _) | (refine Sub.bit hm ?_; exact Eq.refl _)
    | with_reducible refine State.inc_only (CUR_AFT_COUNT_holds ..) ?_ ?_
    | with_reducible refine State.setStamp_only (Part.holds.own (CUR_AFT_NS_holds ..)) (CUR_AFT_NS_next ..) ?_ ?_
    | with_reducible refine State.set_only (CUR_AFT_SEV_holds ..) ?_ ?_
    | with_reducible refine State.put_only (CUR_AFT_SAFE_holds ..) ?_ ?_
    | with_reducible refine State.put_only (CUR_AFT_LIVE_holds ..) ?_ ?_
    | with_reducible refine State.put_only (CUR_AFT_INJ_holds ..) ?_ ?_
    | intro _ | with_reducible assumption
    | with_reducible apply State.raise_only | with_reducible apply OnlyM.ite
    | (extract_lets +onlyGivenNames x; refine OnlyM.cut (M0 := M0) (s0 := s0) x ?_ ?_ <;> first | (intro hx; clear_value x) | unfold x)
    | (extract_lets +onlyGivenNames x; clear_value x)
    | split

theorem State.startQuiet_only {M0 : Nat} {s0 : State} {s : State} {i : Nat} (kp_s : OnlyM M0 s0 s)
    (hm : Sub 0x8 M0 := by exact Sub.of hm rfl) :
    OnlyM M0 s0 (State.startQuiet s i) := by
  unfold State.startQuiet
  repeat' first
    | (refine Sub.of hm ?_; exact Eq.refl _) | (refine Sub.bit hm ?_; exact Eq.refl _)
    | (refine Or.inl (Sub.bit hm ?_); exact Eq.refl _) | with_reducible exact Or.inr rfl
    | intro _ | with_reducible assumption
    | with_reducible apply OnlyM.update

theorem State.tableEntry_only {M0 : Nat} {s0 : State} {s : State} {f : FaultReport} {sev : Nat} {safe : Bool} (kp_s : OnlyM M0 s0 s)
    (hm : Sub 0x8000B011000000000000000000000000000000000000000000000000000000000C M0 := by exact Sub.of hm rfl) :
    OnlyM M0 s0 (State.tableEntry s f sev safe) := by
  unfold State.tableEntry
  repeat' first
    | (refine Sub.of hm ?_; exact Eq.refl _) | (refine Sub.bit hm ?_; exact Eq.refl _)
    | (refine Or.inl (Sub.bit hm ?_); exact Eq.refl _) | with_reducible exact Or.inr rfl
    | with_reducible refine State.put_only CUR_STAT_OVF_holds ?_ ?_
    | intro _ | with_reducible assumption
    | with_reducible apply State.oldEntry_only | with_reducible apply State.startQuiet_only
    | with_reducible apply State.newEntry_only
    | with_reducible apply State.raise_only | with_reducible apply OnlyOpt.none
    | with_reducible apply OnlyOpt.some
    | (extract_lets +onlyGivenNames x; refine OnlyM.cut (M0 := M0) (s0 := s0) x ?_ ?_ <;> first | (intro hx; clear_value x) | unfold x)
    | (extract_lets +onlyGivenNames x; clear_value x)
    | split | with_reducible apply OnlyM.update

theorem State.react_only {M0 : Nat} {s0 : State} {s : State} {f : FaultReport} {r : Nat} (kp_s : OnlyM M0 s0 s)
    (hm : Sub 0xB01100000002020800302403C18080010C1800040000004C001000000196CD M0 := by exact Sub.of hm rfl) :
    OnlyM M0 s0 (State.react s f r) := by
  unfold State.react
  repeat' first
    | (refine Sub.of hm ?_; exact Eq.refl _) | (refine Sub.bit hm ?_; exact Eq.refl _)
    | (refine Or.inl (Sub.bit hm ?_); exact Eq.refl _) | with_reducible exact Or.inr rfl
    | intro _ | with_reducible assumption
    | with_reducible apply State.quar_only | with_reducible apply State.engineHalt_only
    | with_reducible apply State.requestReclaim_only | with_reducible apply State.each_only
    | with_reducible apply OnlyOpt.none | with_reducible apply OnlyOpt.some
    | with_reducible apply OnlyM.ite
    | (extract_lets +onlyGivenNames x; refine OnlyM.cut (M0 := M0) (s0 := s0) x ?_ ?_ <;> first | (intro hx; clear_value x) | unfold x)
    | (extract_lets +onlyGivenNames x; clear_value x)
    | split | with_reducible apply OnlyM.update

theorem State.takeOccurrence_only {M0 : Nat} {s0 : State} {s : State} {f : FaultReport} {sev : Nat} (kp_s : OnlyM M0 s0 s)
    (hm : Sub 0x8880B01100000002020800302403C58080010F1804040080004C011000000196CD M0 := by exact Sub.of hm rfl) :
    OnlyM M0 s0 (State.takeOccurrence s f sev) := by
  unfold State.takeOccurrence
  repeat' first
    | (refine Sub.of hm ?_; exact Eq.refl _) | (refine Sub.bit hm ?_; exact Eq.refl _)
    | with_reducible unfold rdonlyLoc
    | with_reducible refine State.inc_only (sevcntLoc_holds ..) ?_ ?_
    | intro _ | with_reducible assumption | with_reducible apply State.tableEntry_only
    | with_reducible apply State.enterSafe_only | with_reducible apply State.react_only
    | with_reducible apply State.faultPin_only | with_reducible apply OnlyM.ite
    | (extract_lets +onlyGivenNames x; refine OnlyM.cut (M0 := M0) (s0 := s0) x ?_ ?_ <;> first | (intro hx; clear_value x) | unfold x)
    | (extract_lets +onlyGivenNames x; clear_value x)
    | split | split

theorem State.firstRecord_only {M0 : Nat} {s0 : State} {s : State} {l : List (FaultReport × Nat)} (kp_s : OnlyM M0 s0 s)
    (hm : Sub 0x7C00000000000000000000000000000000000000000000000000000000000000 M0 := by exact Sub.of hm rfl) :
    OnlyM M0 s0 (State.firstRecord s l) := by
  unfold State.firstRecord
  repeat' first
    | (refine Sub.of hm ?_; exact Eq.refl _) | (refine Sub.bit hm ?_; exact Eq.refl _)
    | (refine Or.inl (Sub.bit hm ?_); exact Eq.refl _) | with_reducible exact Or.inr rfl
    | with_reducible refine State.setWord_only (Part.holds.own CUR_FIRST_SRC_holds) ?_ ?_
    | with_reducible refine State.setWord_only (Part.holds.own CUR_FIRST_ADDR_ADDR_holds) ?_ ?_
    | with_reducible refine State.set_only CUR_FIRST_ACC_MASTER_holds ?_ ?_
    | with_reducible refine State.set_only CUR_FIRST_ACC_ACC_holds ?_ ?_
    | with_reducible refine State.setStamp_only (Part.holds.own CUR_FIRST_T_NS_holds) CUR_FIRST_T_NS_next ?_ ?_
    | with_reducible refine State.setWord_only (Part.holds.own CUR_COIN_SRC_holds) ?_ ?_
    | intro _ | with_reducible assumption | with_reducible apply OnlyM.ite
    | (extract_lets +onlyGivenNames x; refine OnlyM.cut (M0 := M0) (s0 := s0) x ?_ ?_ <;> first | (intro hx; clear_value x) | unfold x)
    | (extract_lets +onlyGivenNames x; clear_value x)
    | split | with_reducible apply OnlyM.update

theorem State.takeCycle_only {M0 : Nat} {s0 : State} {s : State} {l : List FaultReport} (kp_s : OnlyM M0 s0 s)
    (hm : Sub 0x88FCB01100000002020800302403C58080010F1804040080004C011000000196CD M0 := by exact Sub.of hm rfl) :
    OnlyM M0 s0 (State.takeCycle s l) := by
  unfold State.takeCycle
  repeat' first
    | (refine Sub.of hm ?_; exact Eq.refl _) | (refine Sub.bit hm ?_; exact Eq.refl _)
    | (refine Or.inl (Sub.bit hm ?_); exact Eq.refl _) | with_reducible exact Or.inr rfl
    | intro _ | with_reducible assumption
    | with_reducible apply State.firstRecord_only | with_reducible apply State.takeOccurrence_only
    | with_reducible apply State.each_only | with_reducible apply foldl_only
    | (extract_lets +onlyGivenNames x; refine OnlyM.cut (M0 := M0) (s0 := s0) x ?_ ?_ <;> first | (intro hx; clear_value x) | unfold x)
    | (extract_lets +onlyGivenNames x; clear_value x)
    | with_reducible apply OnlyM.update

theorem State.takeEarliest_only {M0 : Nat} {s0 : State} {s : State} (kp_s : OnlyM M0 s0 s)
    (hm : Sub 0x88FCB01100800002020800302403C58080010F1804040080004C011000000196DD M0 := by exact Sub.of hm rfl) :
    OnlyM M0 s0 (State.takeEarliest s) := by
  unfold State.takeEarliest
  repeat' first
    | (refine Sub.of hm ?_; exact Eq.refl _) | (refine Sub.bit hm ?_; exact Eq.refl _)
    | (refine Or.inl (Sub.bit hm ?_); exact Eq.refl _) | with_reducible exact Or.inr rfl
    | intro _ | with_reducible assumption
    | with_reducible apply State.tick_only | with_reducible apply State.takeCycle_only
    | with_reducible apply foldl_only
    | (extract_lets +onlyGivenNames x; refine OnlyM.cut (M0 := M0) (s0 := s0) x ?_ ?_ <;> first | (intro hx; clear_value x) | unfold x)
    | (extract_lets +onlyGivenNames x; clear_value x)
    | split | with_reducible apply OnlyM.update

theorem execFaultOccurrence_only {M0 : Nat} {s0 : State} {s : State} (kp_s : OnlyM M0 s0 s)
    (hm : Sub 0x88FCB01100800002020800302403C58080010F1804040080004C011000000196DD M0 := by exact Sub.of hm rfl) :
    OnlyOut M0 s0 (execFaultOccurrence s) := by
  unfold execFaultOccurrence
  repeat' first
    | (refine Sub.of hm ?_; exact Eq.refl _) | (refine Sub.bit hm ?_; exact Eq.refl _)
    | intro _ | with_reducible assumption
    | with_reducible apply State.takeEarliest_only | with_reducible apply OnlyOut.next
    | with_reducible apply OnlyOut.fault | with_reducible apply OnlyOut.ite

theorem State.takeWaiting_only {M0 : Nat} {s0 : State} {s : State} (kp_s : OnlyM M0 s0 s)
    (hm : Sub 0x88FCB01100800002020800302403C58080010F1804040080004C011000000196DD M0 := by exact Sub.of hm rfl) :
    OnlyM M0 s0 (State.takeWaiting s) := by
  unfold State.takeWaiting
  repeat' first
    | (refine Sub.of hm ?_; exact Eq.refl _) | (refine Sub.bit hm ?_; exact Eq.refl _)
    | intro _ | with_reducible assumption
    | with_reducible apply State.takeEarliest_only | with_reducible apply State.each_only

theorem execFaultConditionEnd_only {M0 : Nat} {s0 : State} {s : State} (kp_s : OnlyM M0 s0 s)
    (hm : Sub 0x800000000000000000000000000000000000000000000000000000000000000008 M0 := by exact Sub.of hm rfl) :
    OnlyOut M0 s0 (execFaultConditionEnd s) := by
  unfold execFaultConditionEnd
  repeat' first
    | (refine Sub.of hm ?_; exact Eq.refl _) | (refine Sub.bit hm ?_; exact Eq.refl _)
    | with_reducible refine State.put_only (CUR_AFT_LIVE_holds ..) ?_ ?_
    | intro _ | with_reducible assumption | with_reducible apply State.startQuiet_only
    | with_reducible apply OnlyOut.next | with_reducible apply OnlyOut.fault
    | with_reducible apply OnlyOut.ite | with_reducible apply State.each_only
    | with_reducible apply OnlyM.ite
    | split

theorem State.curErr_only {M0 : Nat} {s0 : State} {s : State} (kp_s : OnlyM M0 s0 s)
    (hm : Sub 0x80000000000000000000000000000000000000000000000000000000000000 M0 := by exact Sub.of hm rfl) :
    OnlyM M0 s0 (State.curErr s) := by
  unfold State.curErr
  repeat' first
    | (refine Sub.of hm ?_; exact Eq.refl _) | (refine Sub.bit hm ?_; exact Eq.refl _)
    | with_reducible refine State.put_only CUR_STAT_CMDERR_holds ?_ ?_
    | intro _ | with_reducible assumption

theorem State.clearEntry_only {M0 : Nat} {s0 : State} {s : State} {i : Nat} (kp_s : OnlyM M0 s0 s)
    (hm : Sub 0x800000000000000000000000000000000000000000000000000000000000000000 M0 := by exact Sub.of hm rfl) :
    OnlyM M0 s0 (State.clearEntry s i) := by
  unfold State.clearEntry
  repeat' first
    | (refine Sub.of hm ?_; exact Eq.refl _) | (refine Sub.bit hm ?_; exact Eq.refl _)
    | with_reducible refine State.setWord_only (Part.holds.own (CUR_AFT_W_holds ..)) ?_ ?_
    | intro _ | with_reducible assumption | with_reducible apply State.each_only

theorem State.curWrite_only {M0 : Nat} {s0 : State} {s : State} {q : Requester} {f : State → State} (kp_s : OnlyM M0 s0 s) (kp_f : ∀ t, OnlyM M0 s0 t → OnlyM M0 s0 (f t))
    (hm : Sub 0x400000000000000000000000000000000000001880000000000000000000000000000000000000000208000 M0 := by exact Sub.of hm rfl) :
    OnlyM M0 s0 (State.curWrite s q f) := by
  unfold State.curWrite
  repeat' first
    | (refine Sub.of hm ?_; exact Eq.refl _) | (refine Sub.bit hm ?_; exact Eq.refl _)
    | intro _ | with_reducible assumption
    | with_reducible apply kp_f | with_reducible apply State.hostWrite_only

theorem State.curClear_only {M0 : Nat} {s0 : State} {s : State} {i : Nat} (kp_s : OnlyM M0 s0 s)
    (hm : Sub 0x88FCB01100800002020800302403C58080010F1804040080004C011000000196DD M0 := by exact Sub.of hm rfl) :
    OnlyM M0 s0 (State.curClear s i) := by
  unfold State.curClear
  repeat' first
    | (refine Sub.of hm ?_; exact Eq.refl _) | (refine Sub.bit hm ?_; exact Eq.refl _)
    | intro _ | with_reducible assumption
    | with_reducible apply State.takeWaiting_only | with_reducible apply State.curErr_only
    | with_reducible apply State.clearEntry_only | with_reducible apply State.faultPin_only
    | with_reducible apply State.exitSafe_only | with_reducible apply OnlyM.ite
    | (extract_lets +onlyGivenNames x; refine OnlyM.cut (M0 := M0) (s0 := s0) x ?_ ?_ <;> first | (intro hx; clear_value x) | unfold x)
    | (extract_lets +onlyGivenNames x; clear_value x)
    | split

theorem State.curClearAll_only {M0 : Nat} {s0 : State} {s : State} (kp_s : OnlyM M0 s0 s)
    (hm : Sub 0x88FCB01100800002020800302403C58080010F1804040080004C011000000196DD M0 := by exact Sub.of hm rfl) :
    OnlyM M0 s0 (State.curClearAll s) := by
  unfold State.curClearAll
  repeat' first
    | (refine Sub.of hm ?_; exact Eq.refl _) | (refine Sub.bit hm ?_; exact Eq.refl _)
    | (refine Or.inl (Sub.bit hm ?_); exact Eq.refl _) | with_reducible exact Or.inr rfl
    | with_reducible refine State.put_only CUR_STAT_OVF_holds ?_ ?_
    | intro _ | with_reducible assumption
    | with_reducible apply State.takeWaiting_only | with_reducible apply State.clearEntry_only | with_reducible apply State.faultPin_only
    | with_reducible apply State.exitSafe_only | with_reducible apply State.each_only
    | (extract_lets +onlyGivenNames x; refine OnlyM.cut (M0 := M0) (s0 := s0) x ?_ ?_ <;> first | (intro hx; clear_value x) | unfold x)
    | (extract_lets +onlyGivenNames x; clear_value x)
    | with_reducible apply OnlyM.update

theorem State.curEnter_only {M0 : Nat} {s0 : State} {s : State} (kp_s : OnlyM M0 s0 s)
    (hm : Sub 0x8 M0 := by exact Sub.of hm rfl) :
    OnlyM M0 s0 (State.curEnter s) := by
  unfold State.curEnter
  repeat' first
    | (refine Sub.of hm ?_; exact Eq.refl _) | (refine Sub.bit hm ?_; exact Eq.refl _)
    | intro _ | with_reducible assumption
    | with_reducible apply State.reportFrom_only

theorem State.curReturn_only {M0 : Nat} {s0 : State} {s : State} {st : Nat} (kp_s : OnlyM M0 s0 s)
    (hm : Sub 0x80000000004000000000000000000001040800000000000000000000018401 M0 := by exact Sub.of hm rfl) :
    OnlyM M0 s0 (State.curReturn s st) := by
  unfold State.curReturn
  repeat' first
    | (refine Sub.of hm ?_; exact Eq.refl _) | (refine Sub.bit hm ?_; exact Eq.refl _)
    | (refine Or.inl (Sub.bit hm ?_); exact Eq.refl _) | with_reducible exact Or.inr rfl
    | with_reducible refine State.set_only (HALL_OWN_CUR_holds ..) ?_ ?_
    | with_reducible refine State.put_only (HALL_OWN_REVOKED_holds ..) ?_ ?_
    | intro _ | with_reducible assumption
    | with_reducible apply State.curErr_only | with_reducible apply State.flushUnits_only
    | with_reducible apply State.zeroUnits_only | with_reducible apply State.setSlotState_only
    | with_reducible apply State.each_only | with_reducible apply OnlyM.ite
    | (extract_lets +onlyGivenNames x; refine OnlyM.cut (M0 := M0) (s0 := s0) x ?_ ?_ <;> first | (intro hx; clear_value x) | unfold x)
    | (extract_lets +onlyGivenNames x; clear_value x)
    | split | with_reducible apply OnlyM.update

theorem execClear_only {M0 : Nat} {s0 : State} {q : Requester} {i : Fin 256} {s : State} (kp_s : OnlyM M0 s0 s)
    (hm : Sub 0x40000000000000000000088FCB01100800002038800302403C58080010F1804040080004C011000002196DD M0 := by exact Sub.of hm rfl) :
    OnlyOut M0 s0 (execClear q i s) := by
  unfold execClear
  repeat' first
    | (refine Sub.of hm ?_; exact Eq.refl _) | (refine Sub.bit hm ?_; exact Eq.refl _)
    | intro _ | with_reducible assumption
    | with_reducible apply State.curWrite_only | with_reducible apply State.curClear_only
    | with_reducible apply OnlyOut.next | with_reducible apply OnlyOut.fault
    | with_reducible apply OnlyOut.ite

theorem execClearAll_only {M0 : Nat} {s0 : State} {q : Requester} {s : State} (kp_s : OnlyM M0 s0 s)
    (hm : Sub 0x40000000000000000000088FCB01100800002038800302403C58080010F1804040080004C011000002196DD M0 := by exact Sub.of hm rfl) :
    OnlyOut M0 s0 (execClearAll q s) := by
  unfold execClearAll
  repeat' first
    | (refine Sub.of hm ?_; exact Eq.refl _) | (refine Sub.bit hm ?_; exact Eq.refl _)
    | intro _ | with_reducible assumption
    | with_reducible apply State.curWrite_only | with_reducible apply State.curClearAll_only
    | with_reducible apply OnlyOut.next | with_reducible apply OnlyOut.fault
    | with_reducible apply OnlyOut.ite

theorem execEnter_only {M0 : Nat} {s0 : State} {q : Requester} {s : State} (kp_s : OnlyM M0 s0 s)
    (hm : Sub 0x400000000000000000000000000000000000001880000000000000000000000000000000000000000208008 M0 := by exact Sub.of hm rfl) :
    OnlyOut M0 s0 (execEnter q s) := by
  unfold execEnter
  repeat' first
    | (refine Sub.of hm ?_; exact Eq.refl _) | (refine Sub.bit hm ?_; exact Eq.refl _)
    | intro _ | with_reducible assumption
    | with_reducible apply State.curWrite_only | with_reducible apply State.curEnter_only
    | with_reducible apply OnlyOut.next | with_reducible apply OnlyOut.fault
    | with_reducible apply OnlyOut.ite

theorem execReclaim_only {M0 : Nat} {s0 : State} {q : Requester} {st : Fin 64} {s : State} (kp_s : OnlyM M0 s0 s)
    (hm : Sub 0x4000000000000000000000000B011000000020388000000000000000000000000000000000000000021800D M0 := by exact Sub.of hm rfl) :
    OnlyOut M0 s0 (execReclaim q st s) := by
  unfold execReclaim
  repeat' first
    | (refine Sub.of hm ?_; exact Eq.refl _) | (refine Sub.bit hm ?_; exact Eq.refl _)
    | intro _ | with_reducible assumption
    | with_reducible apply State.curWrite_only | with_reducible apply State.requestReclaim_only
    | with_reducible apply OnlyOut.next | with_reducible apply OnlyOut.fault
    | with_reducible apply OnlyOut.ite

theorem execUnlockRlock_only {M0 : Nat} {s0 : State} {q : Requester} {s : State} (kp_s : OnlyM M0 s0 s)
    (hm : Sub 0x400000000000000000000000080000000000001880000000000000000000000000000000000000000208000 M0 := by exact Sub.of hm rfl) :
    OnlyOut M0 s0 (execUnlockRlock q s) := by
  unfold execUnlockRlock
  repeat' first
    | (refine Sub.of hm ?_; exact Eq.refl _) | (refine Sub.bit hm ?_; exact Eq.refl _)
    | with_reducible refine State.put_only CUR_STAT_RLOCK_holds ?_ ?_
    | intro _ | with_reducible assumption
    | with_reducible apply State.curWrite_only
    | with_reducible apply OnlyOut.next | with_reducible apply OnlyOut.fault
    | with_reducible apply OnlyOut.ite

theorem execReturn_only {M0 : Nat} {s0 : State} {q : Requester} {st : Fin 64} {s : State} (kp_s : OnlyM M0 s0 s)
    (hm : Sub 0x400000000000000000000000080000000004001880000000000000001040800000000000000000000218401 M0 := by exact Sub.of hm rfl) :
    OnlyOut M0 s0 (execReturn q st s) := by
  unfold execReturn
  repeat' first
    | (refine Sub.of hm ?_; exact Eq.refl _) | (refine Sub.bit hm ?_; exact Eq.refl _)
    | intro _ | with_reducible assumption
    | with_reducible apply State.curWrite_only | with_reducible apply State.curReturn_only
    | with_reducible apply OnlyOut.next | with_reducible apply OnlyOut.fault
    | with_reducible apply OnlyOut.ite

theorem execCurCmdIgnored_only {M0 : Nat} {s0 : State} {q : Requester} {s : State} (kp_s : OnlyM M0 s0 s)
    (hm : Sub 0x400000000000000000000000080000000000001880000000000000000000000000000000000000000208000 M0 := by exact Sub.of hm rfl) :
    OnlyOut M0 s0 (execCurCmdIgnored q s) := by
  unfold execCurCmdIgnored
  repeat' first
    | (refine Sub.of hm ?_; exact Eq.refl _) | (refine Sub.bit hm ?_; exact Eq.refl _)
    | intro _ | with_reducible assumption
    | with_reducible apply State.curWrite_only | with_reducible apply State.curErr_only
    | with_reducible apply OnlyOut.next | with_reducible apply OnlyOut.fault
    | with_reducible apply OnlyOut.ite

theorem State.countExit_only {M0 : Nat} {s0 : State} {s : State} (kp_s : OnlyM M0 s0 s)
    (hm : Sub 0x2B011000000000000000000000000000000000000000000000000000000000C M0 := by exact Sub.of hm rfl) :
    OnlyM M0 s0 (State.countExit s) := by
  unfold State.countExit
  repeat' first
    | (refine Sub.of hm ?_; exact Eq.refl _) | (refine Sub.bit hm ?_; exact Eq.refl _)
    | (refine Or.inl (Sub.bit hm ?_); exact Eq.refl _) | with_reducible exact Or.inr rfl
    | with_reducible refine State.inc_only CUR_RECOV_COUNT_holds ?_ ?_
    | with_reducible refine State.set_only CUR_RECOV_WINCNT_holds ?_ ?_
    | with_reducible refine State.put_only CUR_STAT_RLOCK_holds ?_ ?_
    | intro _ | with_reducible assumption | with_reducible apply State.raise_only
    | with_reducible apply OnlyM.ite
    | (extract_lets +onlyGivenNames x; refine OnlyM.cut (M0 := M0) (s0 := s0) x ?_ ?_ <;> first | (intro hx; clear_value x) | unfold x)
    | (extract_lets +onlyGivenNames x; clear_value x)
    | split | with_reducible apply OnlyM.update

theorem execAutoClear_only {M0 : Nat} {s0 : State} {i : Fin 256} {s : State} (kp_s : OnlyM M0 s0 s)
    (hm : Sub 0x88FEB01100800002020800302403C58080010F1804040080004C011000000196DD M0 := by exact Sub.of hm rfl) :
    OnlyOut M0 s0 (execAutoClear i s) := by
  unfold execAutoClear
  repeat' first
    | (refine Sub.of hm ?_; exact Eq.refl _) | (refine Sub.bit hm ?_; exact Eq.refl _)
    | intro _ | with_reducible assumption
    | with_reducible apply State.takeWaiting_only | with_reducible apply State.clearEntry_only
    | with_reducible apply State.raise_only | with_reducible apply State.faultPin_only
    | with_reducible apply State.exitSafe_only | with_reducible apply State.countExit_only
    | with_reducible apply OnlyOut.next | with_reducible apply OnlyOut.fault
    | with_reducible apply OnlyOut.ite | with_reducible apply OnlyM.ite
    | (extract_lets +onlyGivenNames x; refine OnlyM.cut (M0 := M0) (s0 := s0) x ?_ ?_ <;> first | (intro hx; clear_value x) | unfold x)
    | (extract_lets +onlyGivenNames x; clear_value x)
    | split

theorem State.selfFault_only {M0 : Nat} {s0 : State} {s : State} {inj : Bool} (kp_s : OnlyM M0 s0 s)
    (hm : Sub 0x88FCB01100800002020800302403C58080010F1804040080004C011000000196DD M0 := by exact Sub.of hm rfl) :
    OnlyM M0 s0 (State.selfFault s inj) := by
  unfold State.selfFault
  repeat' first
    | (refine Sub.of hm ?_; exact Eq.refl _) | (refine Sub.bit hm ?_; exact Eq.refl _)
    | (refine Or.inl (Sub.bit hm ?_); exact Eq.refl _) | with_reducible exact Or.inr rfl
    | with_reducible refine State.put_only CUR_STAT_SELF_holds ?_ ?_
    | intro _ | with_reducible assumption
    | with_reducible apply State.tick_only
    | with_reducible apply State.enterSafe_only | with_reducible apply State.takeCycle_only
    | (extract_lets +onlyGivenNames x; refine OnlyM.cut (M0 := M0) (s0 := s0) x ?_ ?_ <;> first | (intro hx; clear_value x) | unfold x)
    | (extract_lets +onlyGivenNames x; clear_value x)
    | with_reducible apply OnlyM.update

theorem execCuratorSelf_only {M0 : Nat} {s0 : State} {corrected : Bool} {s : State} (kp_s : OnlyM M0 s0 s)
    (hm : Sub 0x88FCB01100800002020800302403C58080010F1804040080004C011000000196DD M0 := by exact Sub.of hm rfl) :
    OnlyOut M0 s0 (execCuratorSelf corrected s) := by
  unfold execCuratorSelf
  repeat' first
    | (refine Sub.of hm ?_; exact Eq.refl _) | (refine Sub.bit hm ?_; exact Eq.refl _)
    | intro _ | with_reducible assumption
    | with_reducible apply State.report_only | with_reducible apply State.selfFault_only
    | with_reducible apply OnlyOut.next | with_reducible apply OnlyOut.fault
    | with_reducible apply OnlyOut.ite | with_reducible apply OnlyM.ite
    | split

theorem execFaultInject_only {M0 : Nat} {s0 : State} {q : Requester} {src : SrcNo} {kind : Byte} {s : State} (kp_s : OnlyM M0 s0 s)
    (hm : Sub 0x40000000000000000000088FCB01100800002038800302403C58080010F1804040080004C011000002196DD M0 := by exact Sub.of hm rfl) :
    OnlyOut M0 s0 (execFaultInject q src kind s) := by
  unfold execFaultInject
  repeat' first
    | (refine Sub.of hm ?_; exact Eq.refl _) | (refine Sub.bit hm ?_; exact Eq.refl _)
    | (refine Or.inl (Sub.bit hm ?_); exact Eq.refl _) | with_reducible exact Or.inr rfl
    | intro _ | with_reducible assumption
    | with_reducible apply State.hostWrite_only | with_reducible apply State.selfFault_only
    | with_reducible apply State.tick_only | with_reducible apply OnlyOut.next
    | with_reducible apply OnlyOut.fault | with_reducible apply OnlyOut.ite
    | with_reducible apply OnlyM.ite
    | split | with_reducible apply OnlyM.update

end Sys2Proof.Machine
end

