-- ==== Sys2Proof/Laws/OnlyGateway.lean ====
section
/-! SUPPORT. Which parts each operation of `Machine/Gateway.lean` may change, and that it keeps what every command keeps: each
lemma follows the operation's own text, piece by piece, and gives the parts as a set of part numbers. -/

namespace Sys2Proof.Machine

theorem execGatewayIngress_only {M0 : Nat} {s0 : State} {k : SlotNo} {s : State} (kp_s : OnlyM M0 s0 s)
    (hm : Sub 0x80000000000008000000000301100000006000000316703C00000010F180000000000000000000001B44D M0 := by exact Sub.of hm rfl) :
    OnlyOut M0 s0 (execGatewayIngress k s) := by
  unfold execGatewayIngress
  repeat' first
    | (refine Sub.of hm ?_; exact Eq.refl _) | (refine Sub.bit hm ?_; exact Eq.refl _)
    | (refine Or.inl (Sub.bit hm ?_); exact Eq.refl _) | with_reducible exact Or.inr rfl
    | intro _ | with_reducible assumption
    | with_reducible apply State.ingressInOrder_only | with_reducible apply OnlyOut.next
    | with_reducible apply OnlyOut.fault | with_reducible apply OnlyOut.ite
    | with_reducible apply OnlyOpt.none | with_reducible apply OnlyOpt.some
    | with_reducible apply OnlyM.ite
    | split | with_reducible apply OnlyM.update

theorem State.setTun_only {M0 : Nat} {s0 : State} {s : State} {st hi m : Nat} (kp_s : OnlyM M0 s0 s)
    (hm : Sub 0x1000000000000000000000000000000000000001000 M0 := by exact Sub.of hm rfl) :
    OnlyM M0 s0 (State.setTun s st hi m) := by
  unfold State.setTun
  repeat' first
    | (refine Sub.of hm ?_; exact Eq.refl _) | (refine Sub.bit hm ?_; exact Eq.refl _)
    | (refine Or.inl (Sub.bit hm ?_); exact Eq.refl _) | with_reducible exact Or.inr rfl
    | with_reducible refine State.set_only (GW_TUN_SEQ_HI_holds ..) ?_ ?_
    | with_reducible refine State.put_only (GW_TUN_SEQ_HV_holds ..) ?_ ?_
    | intro _ | with_reducible assumption
    | (extract_lets +onlyGivenNames x; refine OnlyM.cut (M0 := M0) (s0 := s0) x ?_ ?_ <;> first | (intro hx; clear_value x) | unfold x)
    | (extract_lets +onlyGivenNames x; clear_value x)
    | with_reducible apply OnlyM.update

theorem State.emptyTun_only {M0 : Nat} {s0 : State} {s : State} {st : Nat} (kp_s : OnlyM M0 s0 s)
    (hm : Sub 0x1000000000000000000000000000000000000001000 M0 := by exact Sub.of hm rfl) :
    OnlyM M0 s0 (State.emptyTun s st) := by
  unfold State.emptyTun
  repeat' first
    | (refine Sub.of hm ?_; exact Eq.refl _) | (refine Sub.bit hm ?_; exact Eq.refl _)
    | (refine Or.inl (Sub.bit hm ?_); exact Eq.refl _) | with_reducible exact Or.inr rfl
    | with_reducible refine State.put_only (GW_TUN_SEQ_HV_holds ..) ?_ ?_
    | intro _ | with_reducible assumption
    | (extract_lets +onlyGivenNames x; refine OnlyM.cut (M0 := M0) (s0 := s0) x ?_ ?_ <;> first | (intro hx; clear_value x) | unfold x)
    | (extract_lets +onlyGivenNames x; clear_value x)
    | with_reducible apply OnlyM.update

theorem State.tunDiscard_only {M0 : Nat} {s0 : State} {s : State} {st : Nat} (kp_s : OnlyM M0 s0 s)
    (hm : Sub 0x3011000000000000000000000000000000000000000000000000000000000C M0 := by exact Sub.of hm rfl) :
    OnlyM M0 s0 (State.tunDiscard s st) := by
  unfold State.tunDiscard
  repeat' first
    | (refine Sub.of hm ?_; exact Eq.refl _) | (refine Sub.bit hm ?_; exact Eq.refl _)
    | intro _ | with_reducible assumption
    | with_reducible apply State.raiseOncePerMs_only

theorem State.tunWindow_only {M0 : Nat} {s0 : State} {s : State} {st q : Nat} (kp_s : OnlyM M0 s0 s)
    (hm : Sub 0x3011000000000000000900000000000000000000000000000000000000100C M0 := by exact Sub.of hm rfl) :
    OnlyM M0 s0 (State.tunWindow s st q).2 := by
  unfold State.tunWindow
  repeat' first
    | (refine Sub.of hm ?_; exact Eq.refl _) | (refine Sub.bit hm ?_; exact Eq.refl _)
    | with_reducible refine State.inc_only (GW_TUN_DUP_DUP_holds ..) ?_ ?_
    | with_reducible refine State.inc_only (GW_TUN_DUP_STALE_holds ..) ?_ ?_
    | intro _ | with_reducible assumption
    | with_reducible apply State.setTun_only | with_reducible apply State.raise_only | with_reducible apply State.tunDiscard_only
    | with_reducible apply OnlyM.ite
    | (extract_lets +onlyGivenNames x; refine OnlyM.cut (M0 := M0) (s0 := s0) x ?_ ?_ <;> first | (intro hx; clear_value x) | unfold x)
    | (extract_lets +onlyGivenNames x; clear_value x)
    | split

theorem State.tunMessage_only {M0 : Nat} {s0 : State} {s : State} {st t i : Nat} {m : AcfMsg} (kp_s : OnlyM M0 s0 s)
    (hm : Sub 0x80000000000008000000000301100000002000000396703C00000010C180000000000000000000001B40D M0 := by exact Sub.of hm rfl) :
    OnlyM M0 s0 (State.tunMessage s st t i m) := by
  unfold State.tunMessage
  repeat' first
    | (refine Sub.of hm ?_; exact Eq.refl _) | (refine Sub.bit hm ?_; exact Eq.refl _)
    | (refine Or.inl (Sub.bit hm ?_); exact Eq.refl _) | with_reducible exact Or.inr rfl
    | with_reducible refine State.inc_only (GW_TUN_DUP_SKIP_holds ..) ?_ ?_
    | intro _ | with_reducible assumption | with_reducible apply State.acceptFrame_only
    | with_reducible apply OnlyOpt.none | with_reducible apply OnlyOpt.some
    | with_reducible apply OnlyM.ite
    | (extract_lets +onlyGivenNames x; refine OnlyM.cut (M0 := M0) (s0 := s0) x ?_ ?_ <;> first | (intro hx; clear_value x) | unfold x)
    | (extract_lets +onlyGivenNames x; clear_value x)
    | split | with_reducible apply OnlyM.update

theorem State.tunnelReceive_only {M0 : Nat} {s0 : State} {s : State} {st t : Nat} {a : Avtpdu} (kp_s : OnlyM M0 s0 s)
    (hm : Sub 0x800000000000080000000003011000000020000003D6703C00000010C180000000000000000000001B40D M0 := by exact Sub.of hm rfl) :
    OnlyM M0 s0 (State.tunnelReceive s st t a) := by
  unfold State.tunnelReceive
  repeat' first
    | (refine Sub.of hm ?_; exact Eq.refl _) | (refine Sub.bit hm ?_; exact Eq.refl _)
    | (refine Or.inl (Sub.bit hm ?_); exact Eq.refl _) | with_reducible exact Or.inr rfl
    | with_reducible refine State.inc_only (GW_TUN_DUP_SKIP_holds ..) ?_ ?_
    | with_reducible refine State.inc_only (GW_TUN_CNT_RX_holds ..) ?_ ?_
    | intro _ | with_reducible assumption | with_reducible apply State.tunWindow_only
    | with_reducible apply State.tunMessage_only | with_reducible apply State.each_only
    | with_reducible apply OnlyM.ite
    | (extract_lets +onlyGivenNames x; refine OnlyM.cut (M0 := M0) (s0 := s0) x ?_ ?_ <;> first | (intro hx; clear_value x) | unfold x)
    | (extract_lets +onlyGivenNames x; clear_value x)
    | with_reducible (refine OnlyM.pair ?_ (by assumption))
    | split | with_reducible apply OnlyM.update

theorem State.avtpdu_only {M0 : Nat} {s0 : State} {s : State} {st t : Nat} {a : Avtpdu} (kp_s : OnlyM M0 s0 s)
    (hm : Sub 0x800000000000080000000003011000000020000003D6703C00000010C180000000000000000000001B40D M0 := by exact Sub.of hm rfl) :
    OnlyM M0 s0 (State.avtpdu s st t a) := by
  unfold State.avtpdu
  repeat' first
    | (refine Sub.of hm ?_; exact Eq.refl _) | (refine Sub.bit hm ?_; exact Eq.refl _)
    | intro _ | with_reducible assumption
    | with_reducible apply State.tunnelReceive_only | with_reducible apply State.holdIn_only
    | with_reducible apply OnlyM.ite
    | split

theorem execTunnelAvtpduReceived_only {M0 : Nat} {s0 : State} {st : Fin 64} {t : Nat} {a : Avtpdu} {s : State} (kp_s : OnlyM M0 s0 s)
    (hm : Sub 0x800000000000080000000003011000000020000003D6703C00000010C180000000000000000000001B40D M0 := by exact Sub.of hm rfl) :
    OnlyOut M0 s0 (execTunnelAvtpduReceived st t a s) := by
  unfold execTunnelAvtpduReceived
  repeat' first
    | (refine Sub.of hm ?_; exact Eq.refl _) | (refine Sub.bit hm ?_; exact Eq.refl _)
    | intro _ | with_reducible assumption
    | with_reducible apply State.avtpdu_only | with_reducible apply OnlyOut.next
    | with_reducible apply OnlyOut.fault | with_reducible apply OnlyOut.ite

theorem execTunnelWindowTimeout_only {M0 : Nat} {s0 : State} {st : Fin 64} {s : State} (kp_s : OnlyM M0 s0 s)
    (hm : Sub 0x1000000000000000000000000000000000000001000 M0 := by exact Sub.of hm rfl) :
    OnlyOut M0 s0 (execTunnelWindowTimeout st s) := by
  unfold execTunnelWindowTimeout
  repeat' first
    | (refine Sub.of hm ?_; exact Eq.refl _) | (refine Sub.bit hm ?_; exact Eq.refl _)
    | intro _ | with_reducible assumption
    | with_reducible apply State.emptyTun_only | with_reducible apply OnlyOut.next
    | with_reducible apply OnlyOut.fault | with_reducible apply OnlyOut.ite
    | with_reducible apply OnlyM.ite
    | split

theorem execReleaseInstant_only {M0 : Nat} {s0 : State} {t : Fin 200} {s : State} (kp_s : OnlyM M0 s0 s)
    (hm : Sub 0x8000000000301100000002000000316403C00000010C180000000000000000000001B40D M0 := by exact Sub.of hm rfl) :
    OnlyOut M0 s0 (execReleaseInstant t s) := by
  unfold execReleaseInstant
  repeat' first
    | (refine Sub.of hm ?_; exact Eq.refl _) | (refine Sub.bit hm ?_; exact Eq.refl _)
    | intro _ | with_reducible assumption
    | with_reducible apply State.releaseCopy_only | with_reducible apply OnlyOut.next
    | with_reducible apply OnlyOut.fault | with_reducible apply OnlyOut.ite
    | with_reducible apply State.each_only
    | (extract_lets +onlyGivenNames x; refine OnlyM.cut (M0 := M0) (s0 := s0) x ?_ ?_ <;> first | (intro hx; clear_value x) | unfold x)
    | (extract_lets +onlyGivenNames x; clear_value x)

theorem execWaitingCopySlot_only {M0 : Nat} {s0 : State} {l : Fin 1024} {s : State} (kp_s : OnlyM M0 s0 s)
    (hm : Sub 0x8000000000301100000002000000316403C00000010C180000000000000000000001B40D M0 := by exact Sub.of hm rfl) :
    OnlyOut M0 s0 (execWaitingCopySlot l s) := by
  unfold execWaitingCopySlot
  repeat' first
    | (refine Sub.of hm ?_; exact Eq.refl _) | (refine Sub.bit hm ?_; exact Eq.refl _)
    | intro _ | with_reducible assumption
    | with_reducible apply State.serveWaiting_only | with_reducible apply OnlyOut.next
    | with_reducible apply OnlyOut.fault | with_reducible apply OnlyOut.ite
    | with_reducible apply OnlyM.ite
    | split

theorem execWaitingCopyExpire_only {M0 : Nat} {s0 : State} {l : Fin 1024} {s : State} (kp_s : OnlyM M0 s0 s)
    (hm : Sub 0x10000000000000000000000000000000000000001000 M0 := by exact Sub.of hm rfl) :
    OnlyOut M0 s0 (execWaitingCopyExpire l s) := by
  unfold execWaitingCopyExpire
  repeat' first
    | (refine Sub.of hm ?_; exact Eq.refl _) | (refine Sub.bit hm ?_; exact Eq.refl _)
    | intro _ | with_reducible assumption
    | with_reducible apply State.dropCopy_only | with_reducible apply OnlyOut.next
    | with_reducible apply OnlyOut.fault | with_reducible apply OnlyOut.ite
    | with_reducible apply State.each_only
    | (extract_lets +onlyGivenNames x; refine OnlyM.cut (M0 := M0) (s0 := s0) x ?_ ?_ <;> first | (intro hx; clear_value x) | unfold x)
    | (extract_lets +onlyGivenNames x; clear_value x)

theorem execBreachWindowClose_only {M0 : Nat} {s0 : State} {t : Fin 200} {s : State} (kp_s : OnlyM M0 s0 s)
    (hm : Sub 0x3011000000000000003000020000000000000000000000000000000000000C M0 := by exact Sub.of hm rfl) :
    OnlyOut M0 s0 (execBreachWindowClose t s) := by
  unfold execBreachWindowClose
  repeat' first
    | (refine Sub.of hm ?_; exact Eq.refl _) | (refine Sub.bit hm ?_; exact Eq.refl _)
    | with_reducible refine State.put_only (GW_EQ_STAT_BRW_holds ..) ?_ ?_
    | with_reducible refine State.put_only (brkwLoc_holds ..) ?_ ?_
    | with_reducible refine State.inc_only (GW_EQ_CNT_CLOSED_holds ..) ?_ ?_
    | intro _ | with_reducible assumption
    | with_reducible apply State.raise_only | with_reducible apply OnlyOut.next
    | with_reducible apply OnlyOut.fault | with_reducible apply OnlyOut.ite
    | with_reducible apply OnlyM.ite
    | (extract_lets +onlyGivenNames x; refine OnlyM.cut (M0 := M0) (s0 := s0) x ?_ ?_ <;> first | (intro hx; clear_value x) | unfold x)
    | (extract_lets +onlyGivenNames x; clear_value x)
    | split

theorem State.forceCopy_only {M0 : Nat} {s0 : State} {s : State} {c : Copy} (kp_s : OnlyM M0 s0 s)
    (hm : Sub 0x8000000000301100000002000000316403C00000010C180000000000000000000001B40D M0 := by exact Sub.of hm rfl) :
    OnlyM M0 s0 (State.forceCopy s c) := by
  unfold State.forceCopy
  repeat' first
    | (refine Sub.of hm ?_; exact Eq.refl _) | (refine Sub.bit hm ?_; exact Eq.refl _)
    | (refine Or.inl (Sub.bit hm ?_); exact Eq.refl _) | with_reducible exact Or.inr rfl
    | intro _ | with_reducible assumption
    | with_reducible apply State.lateBreach_only | with_reducible apply State.unsendRemote_only
    | with_reducible apply State.discardCopy_only | with_reducible apply State.releaseCopy_only
    | with_reducible apply State.swapCopy_only | with_reducible apply State.each_only
    | with_reducible apply OnlyM.ite
    | (extract_lets +onlyGivenNames x; refine OnlyM.cut (M0 := M0) (s0 := s0) x ?_ ?_ <;> first | (intro hx; clear_value x) | unfold x)
    | (extract_lets +onlyGivenNames x; clear_value x)
    | split | with_reducible apply OnlyM.update

theorem State.forcedCopies_only {M0 : Nat} {s0 : State} {s : State} {old : Nat} (kp_s : OnlyM M0 s0 s)
    (hm : Sub 0x8000000000301100000002000000316403C00000010C180000000000000000000001B40D M0 := by exact Sub.of hm rfl) :
    OnlyM M0 s0 (State.forcedCopies s old) := by
  unfold State.forcedCopies
  repeat' first
    | (refine Sub.of hm ?_; exact Eq.refl _) | (refine Sub.bit hm ?_; exact Eq.refl _)
    | (refine Or.inl (Sub.bit hm ?_); exact Eq.refl _) | with_reducible exact Or.inr rfl
    | intro _ | with_reducible assumption
    | with_reducible apply State.forceCopy_only | with_reducible apply State.each_only
    | (extract_lets +onlyGivenNames x; refine OnlyM.cut (M0 := M0) (s0 := s0) x ?_ ?_ <;> first | (intro hx; clear_value x) | unfold x)
    | (extract_lets +onlyGivenNames x; clear_value x)
    | with_reducible apply OnlyM.update

end Sys2Proof.Machine
end

