-- ==== Sys2Proof/Laws/OnlyLifelines.lean ====
section
/-! SUPPORT. Which parts each operation of `Machine/Lifelines.lean` may change, and that it keeps what every command keeps: each
lemma follows the operation's own text, piece by piece, and gives the parts as a set of part numbers. -/

namespace Sys2Proof.Machine

theorem State.setLink_only {M0 : Nat} {s0 : State} {s : State} {d : Nat} {l : DieLink} (kp_s : OnlyM M0 s0 s)
    (hm : Sub 0x100 M0 := by exact Sub.of hm rfl) :
    OnlyM M0 s0 (State.setLink s d l) := by
  unfold State.setLink
  repeat' first
    | (refine Sub.of hm ?_; exact Eq.refl _) | (refine Sub.bit hm ?_; exact Eq.refl _)
    | (refine Or.inl (Sub.bit hm ?_); exact Eq.refl _) | with_reducible exact Or.inr rfl
    | intro _ | with_reducible assumption
    | with_reducible apply OnlyM.update

theorem execDieLinkTransfer_only {M0 : Nat} {s0 : State} {d : Fin 3} {crcOk : Bool} {s : State} (kp_s : OnlyM M0 s0 s)
    (hm : Sub 0x100 M0 := by exact Sub.of hm rfl) :
    OnlyOut M0 s0 (execDieLinkTransfer d crcOk s) := by
  unfold execDieLinkTransfer
  repeat' first
    | (refine Sub.of hm ?_; exact Eq.refl _) | (refine Sub.bit hm ?_; exact Eq.refl _)
    | (refine Or.inl (Sub.bit hm ?_); exact Eq.refl _) | with_reducible exact Or.inr rfl
    | intro _ | with_reducible assumption
    | with_reducible apply State.setLink_only | with_reducible apply OnlyOut.next
    | with_reducible apply OnlyOut.fault | with_reducible apply OnlyOut.ite
    | with_reducible apply OnlyM.ite
    | (extract_lets +onlyGivenNames x; refine OnlyM.cut (M0 := M0) (s0 := s0) x ?_ ?_ <;> first | (intro hx; clear_value x) | unfold x)
    | (extract_lets +onlyGivenNames x; clear_value x)
    | split | with_reducible apply OnlyM.update

theorem execHeartbeatLoss_only {M0 : Nat} {s0 : State} {d : Fin 3} {s : State} (kp_s : OnlyM M0 s0 s)
    (hm : Sub 0xB01100000002000000302403C58080010F1804040080004C011000000197CD M0 := by exact Sub.of hm rfl) :
    OnlyOut M0 s0 (execHeartbeatLoss d s) := by
  unfold execHeartbeatLoss
  repeat' first
    | (refine Sub.of hm ?_; exact Eq.refl _) | (refine Sub.bit hm ?_; exact Eq.refl _)
    | (refine Or.inl (Sub.bit hm ?_); exact Eq.refl _) | with_reducible exact Or.inr rfl
    | intro _ | with_reducible assumption
    | with_reducible apply State.setLink_only | with_reducible apply State.startCond_only
    | with_reducible apply State.cancelSearch_only | with_reducible apply State.refreshDie_only
    | with_reducible apply State.faultPin_only | with_reducible apply OnlyOut.next
    | with_reducible apply OnlyOut.fault | with_reducible apply OnlyOut.ite
    | with_reducible apply State.each_only | with_reducible apply OnlyM.ite
    | (extract_lets +onlyGivenNames x; refine OnlyM.cut (M0 := M0) (s0 := s0) x ?_ ?_ <;> first | (intro hx; clear_value x) | unfold x)
    | (extract_lets +onlyGivenNames x; clear_value x)
    | split | with_reducible apply OnlyM.update

theorem execDieLinkRetrained_only {M0 : Nat} {s0 : State} {d : Fin 3} {s : State} (kp_s : OnlyM M0 s0 s)
    (hm : Sub 0xB01100800002000000302403C58080010F1804040080004C011000000197DD M0 := by exact Sub.of hm rfl) :
    OnlyOut M0 s0 (execDieLinkRetrained d s) := by
  unfold execDieLinkRetrained
  repeat' first
    | (refine Sub.of hm ?_; exact Eq.refl _) | (refine Sub.bit hm ?_; exact Eq.refl _)
    | (refine Or.inl (Sub.bit hm ?_); exact Eq.refl _) | with_reducible exact Or.inr rfl
    | intro _ | with_reducible assumption
    | with_reducible apply State.setLink_only | with_reducible apply State.tick_only
    | with_reducible apply State.endCond_only | with_reducible apply State.refreshDie_only
    | with_reducible apply State.faultPin_only | with_reducible apply OnlyOut.next
    | with_reducible apply OnlyOut.fault | with_reducible apply OnlyOut.ite
    | with_reducible apply OnlyM.ite
    | (extract_lets +onlyGivenNames x; refine OnlyM.cut (M0 := M0) (s0 := s0) x ?_ ?_ <;> first | (intro hx; clear_value x) | unfold x)
    | (extract_lets +onlyGivenNames x; clear_value x)
    | split | with_reducible apply OnlyM.update

theorem State.serveGateway_only {M0 : Nat} {s0 : State} {s : State} (kp_s : OnlyM M0 s0 s)
    (hm : Sub 0x1800000000000080000000003011000000060000003D6703C00000010F180000000000000000000001B44D M0 := by exact Sub.of hm rfl) :
    OnlyM M0 s0 (State.serveGateway s) := by
  unfold State.serveGateway
  repeat' first
    | (refine Sub.of hm ?_; exact Eq.refl _) | (refine Sub.bit hm ?_; exact Eq.refl _)
    | (refine Or.inl (Sub.bit hm ?_); exact Eq.refl _) | with_reducible exact Or.inr rfl
    | intro _ | with_reducible assumption
    | with_reducible apply State.avtpdu_only | with_reducible apply State.tunnelReceive_only
    | with_reducible apply State.frameReceive_only | with_reducible apply State.each_only
    | (extract_lets +onlyGivenNames x; refine OnlyM.cut (M0 := M0) (s0 := s0) x ?_ ?_ <;> first | (intro hx; clear_value x) | unfold x)
    | (extract_lets +onlyGivenNames x; clear_value x)
    | split | with_reducible apply OnlyM.update

theorem State.resume_only {M0 : Nat} {s0 : State} {s : State} {b : Nat} (kp_s : OnlyM M0 s0 s)
    (hm : Sub 0x180000000000008000000000B011000000261988003D6703C58080010F1804040080004C0110000021B6CD M0 := by exact Sub.of hm rfl) :
    OnlyM M0 s0 (State.resume s b) := by
  unfold State.resume
  repeat' first
    | (refine Sub.of hm ?_; exact Eq.refl _) | (refine Sub.bit hm ?_; exact Eq.refl _)
    | intro _ | with_reducible assumption
    | with_reducible apply State.refreshPorts_only | with_reducible apply State.faultPin_only
    | with_reducible apply State.serveHeld_only | with_reducible apply State.serveGateway_only
    | with_reducible apply OnlyM.ite
    | split

theorem State.setRgnReady_only {M0 : Nat} {s0 : State} {s : State} {r : Nat} {v : Bool} (kp_s : OnlyM M0 s0 s)
    (hm : Sub 0x38000000000000000000000003011000000000208008000000000000000000000000000000000000000800C M0 := by exact Sub.of hm rfl) :
    OnlyM M0 s0 (State.setRgnReady s r v) := by
  unfold State.setRgnReady
  repeat' first
    | (refine Sub.of hm ?_; exact Eq.refl _) | (refine Sub.bit hm ?_; exact Eq.refl _)
    | with_reducible refine State.put_only (rgnReadyLoc_holds ..) ?_ ?_
    | with_reducible refine State.put_only (RGN_STAT_POWER_holds ..) ?_ ?_
    | intro _ | with_reducible assumption | with_reducible apply State.enterHalted_only
    | with_reducible apply State.setReady_only | with_reducible apply State.each_only
    | (extract_lets +onlyGivenNames x; refine OnlyM.cut (M0 := M0) (s0 := s0) x ?_ ?_ <;> first | (intro hx; clear_value x) | unfold x)
    | (extract_lets +onlyGivenNames x; clear_value x)

theorem State.findLapse_only {M0 : Nat} {s0 : State} {s : State} (kp_s : OnlyM M0 s0 s)
    (hm : Sub 0x70A0000000004000003011000000000000000000000000000000000000000000000000000008000C M0 := by exact Sub.of hm rfl) :
    OnlyM M0 s0 (State.findLapse s) := by
  unfold State.findLapse
  repeat' first
    | (refine Sub.of hm ?_; exact Eq.refl _) | (refine Sub.bit hm ?_; exact Eq.refl _)
    | with_reducible refine State.put_only VAULT_STAT_RAMVALID_holds ?_ ?_
    | with_reducible refine State.put_only WATCH_STAT_LAPSE_holds ?_ ?_
    | intro _ | with_reducible assumption | with_reducible apply State.advance_only
    | with_reducible apply State.tlog_only | with_reducible apply State.raise_only
    | with_reducible apply State.report_only | with_reducible apply OnlyM.ite
    | (extract_lets +onlyGivenNames x; refine OnlyM.cut (M0 := M0) (s0 := s0) x ?_ ?_ <;> first | (intro hx; clear_value x) | unfold x)
    | (extract_lets +onlyGivenNames x; clear_value x)
    | with_reducible (refine OnlyM.pair ?_ (by assumption))
    | split

theorem State.showSupply_only {M0 : Nat} {s0 : State} {s : State} (kp_s : OnlyM M0 s0 s)
    (hm : Sub 0x8000000000000000000000000000000000000000000000000000000000000000000 M0 := by exact Sub.of hm rfl) :
    OnlyM M0 s0 (State.showSupply s) := by
  unfold State.showSupply
  repeat' first
    | (refine Sub.of hm ?_; exact Eq.refl _) | (refine Sub.bit hm ?_; exact Eq.refl _)
    | with_reducible refine State.set_only PWR_RAILS_PG_holds ?_ ?_
    | with_reducible refine State.put_only PWR_RAILS_REF_OK_holds ?_ ?_
    | with_reducible refine State.put_only PWR_RAILS_XW_OK_holds ?_ ?_
    | intro _ | with_reducible assumption
    | (extract_lets +onlyGivenNames x; refine OnlyM.cut (M0 := M0) (s0 := s0) x ?_ ?_ <;> first | (intro hx; clear_value x) | unfold x)
    | (extract_lets +onlyGivenNames x; clear_value x)

theorem State.prepare_only {M0 : Nat} {s0 : State} {s : State} {b : Nat} (kp_s : OnlyM M0 s0 s)
    (hm : Sub 0x40000070A0000000004800003011000000000000000000000000000000000000000000000000000008000C M0 := by exact Sub.of hm rfl) :
    OnlyM M0 s0 (State.prepare s b) := by
  unfold State.prepare
  repeat' first
    | (refine Sub.of hm ?_; exact Eq.refl _) | (refine Sub.bit hm ?_; exact Eq.refl _)
    | with_reducible refine State.set_only CHIP_UID_UID_holds ?_ ?_
    | intro _ | with_reducible assumption
    | with_reducible apply State.showSupply_only | with_reducible apply State.findLapse_only | with_reducible apply OnlyM.ite
    | split

theorem execFunctionReady_only {M0 : Nat} {s0 : State} {b : Fin 40} {s : State} (kp_s : OnlyM M0 s0 s)
    (hm : Sub 0x3D8000070A000008000480000B011000000261B8800BD6703C58080010F1804040080004C0110000029B6DD M0 := by exact Sub.of hm rfl) :
    OnlyOut M0 s0 (execFunctionReady b s) := by
  unfold execFunctionReady
  repeat' first
    | (refine Sub.of hm ?_; exact Eq.refl _) | (refine Sub.bit hm ?_; exact Eq.refl _)
    | intro _ | with_reducible assumption
    | with_reducible apply State.setRgnReady_only | with_reducible apply State.restoreTime_only
    | with_reducible apply State.prepare_only | with_reducible apply State.setReady_only
    | with_reducible apply State.resume_only | with_reducible apply OnlyOut.next
    | with_reducible apply OnlyOut.fault | with_reducible apply OnlyOut.ite
    | with_reducible apply OnlyM.ite
    | split

theorem execFunctionNotReady_only {M0 : Nat} {s0 : State} {b : Fin 40} {s : State} (kp_s : OnlyM M0 s0 s)
    (hm : Sub 0x3800000000000000000000000B01100000002020800B02403C58080010F1804040080004C011000000196CD M0 := by exact Sub.of hm rfl) :
    OnlyOut M0 s0 (execFunctionNotReady b s) := by
  unfold execFunctionNotReady
  repeat' first
    | (refine Sub.of hm ?_; exact Eq.refl _) | (refine Sub.bit hm ?_; exact Eq.refl _)
    | intro _ | with_reducible assumption
    | with_reducible apply State.setRgnReady_only | with_reducible apply State.setReady_only
    | with_reducible apply State.refreshPorts_only | with_reducible apply State.faultPin_only
    | with_reducible apply OnlyOut.next | with_reducible apply OnlyOut.fault
    | with_reducible apply OnlyOut.ite | with_reducible apply OnlyM.ite
    | (extract_lets +onlyGivenNames x; refine OnlyM.cut (M0 := M0) (s0 := s0) x ?_ ?_ <;> first | (intro hx; clear_value x) | unfold x)
    | (extract_lets +onlyGivenNames x; clear_value x)
    | split

end Sys2Proof.Machine
end

