-- ==== Sys2Proof/Laws/OnlyObservation.lean ====
section
/-! SUPPORT. Which parts each operation of `Machine/Observation.lean` may change, and that it keeps what every command keeps: each
lemma follows the operation's own text, piece by piece, and gives the parts as a set of part numbers. -/

namespace Sys2Proof.Machine

theorem State.cenBegin_only {M0 : Nat} {s0 : State} {s : State} {n t : Nat} {rep : Bool} (kp_s : OnlyM M0 s0 s)
    (hm : Sub 0x21B000800000000000000000C0 M0 := by exact Sub.of hm rfl) :
    OnlyM M0 s0 (State.cenBegin s n t rep) := by
  unfold State.cenBegin
  repeat' first
    | (refine Sub.of hm ?_; exact Eq.refl _) | (refine Sub.bit hm ?_; exact Eq.refl _)
    | (refine Or.inl (Sub.bit hm ?_); exact Eq.refl _) | with_reducible exact Or.inr rfl
    | with_reducible refine State.set_only (OBS_CEN_RES_PREV_holds ..) ?_ ?_
    | with_reducible refine State.set_only (OBS_CEN_RES_STATUS_holds ..) ?_ ?_
    | with_reducible refine State.set_only (OBS_CEN_RES_FRAMES_holds ..) ?_ ?_
    | with_reducible refine State.setStamp_only (Part.holds.own (OBS_CEN_RES_W_holds ..)) (OBS_CEN_RES_W_next ..) ?_ ?_
    | with_reducible refine State.set_only (OBS_STAT_CEN_holds ..) ?_ ?_
    | with_reducible refine State.set_only (OBS_CEN_STAT_SLOT_holds ..) ?_ ?_
    | with_reducible refine State.set_only (OBS_CEN_STAT_UNK_holds ..) ?_ ?_
    | with_reducible refine State.setWord_only (Part.holds.own (OBS_CEN_UNK_ID_holds ..)) ?_ ?_
    | with_reducible refine State.setStamp_only (Part.holds.own (OBS_CEN_UNK_T_NS_holds ..)) (OBS_CEN_UNK_T_NS_next ..) ?_ ?_
    | with_reducible refine State.setStamp_only (Part.holds.own (OBS_CEN_START_NS_holds ..)) (OBS_CEN_START_NS_next ..) ?_ ?_
    | intro _ | with_reducible assumption
    | with_reducible apply State.modObs_only
    | with_reducible apply State.each_only | with_reducible apply OnlyM.ite
    | (extract_lets +onlyGivenNames x; refine OnlyM.cut (M0 := M0) (s0 := s0) x ?_ ?_ <;> first | (intro hx; clear_value x) | unfold x)
    | (extract_lets +onlyGivenNames x; clear_value x)
    | split | with_reducible apply OnlyM.update

theorem State.enrBegin_only {M0 : Nat} {s0 : State} {s : State} {n : Nat} (kp_s : OnlyM M0 s0 s)
    (hm : Sub 0x1E0800000000000000000C0 M0 := by exact Sub.of hm rfl) :
    OnlyM M0 s0 (State.enrBegin s n) := by
  unfold State.enrBegin
  repeat' first
    | (refine Sub.of hm ?_; exact Eq.refl _) | (refine Sub.bit hm ?_; exact Eq.refl _)
    | (refine Or.inl (Sub.bit hm ?_); exact Eq.refl _) | with_reducible exact Or.inr rfl
    | with_reducible refine State.set_only (OBS_ENR_SUM_SUM_holds ..) ?_ ?_
    | with_reducible refine State.set_only (OBS_ENR_SQ_SQ_holds ..) ?_ ?_
    | with_reducible refine State.setWord_only (Part.holds.own (OBS_ENR_USE_LO_holds ..)) ?_ ?_
    | with_reducible refine State.setWord_only (Part.holds.own (OBS_ENR_STAT_DONE_holds ..)) ?_ ?_
    | with_reducible refine State.set_only (OBS_STAT_ENR_holds ..) ?_ ?_
    | intro _ | with_reducible assumption
    | with_reducible apply State.modObs_only | with_reducible apply State.each_only
    | (extract_lets +onlyGivenNames x; refine OnlyM.cut (M0 := M0) (s0 := s0) x ?_ ?_ <;> first | (intro hx; clear_value x) | unfold x)
    | (extract_lets +onlyGivenNames x; clear_value x)
    | with_reducible apply OnlyM.update

theorem State.capBegin_only {M0 : Nat} {s0 : State} {s : State} {n : Nat} (kp_s : OnlyM M0 s0 s)
    (hm : Sub 0xC0000000000000000000000C0 M0 := by exact Sub.of hm rfl) :
    OnlyM M0 s0 (State.capBegin s n) := by
  unfold State.capBegin
  repeat' first
    | (refine Sub.of hm ?_; exact Eq.refl _) | (refine Sub.bit hm ?_; exact Eq.refl _)
    | with_reducible refine State.set_only (OBS_CAP_SEQ_SEQ_holds ..) ?_ ?_
    | with_reducible refine State.set_only (OBS_CAP_STAT_STATE_holds ..) ?_ ?_
    | intro _ | with_reducible assumption
    | with_reducible apply State.modObs_only
    | with_reducible apply OnlyM.ite
    | split

theorem State.obsEffect_only {M0 : Nat} {s0 : State} {s : State} {n cmd : Nat} {rep : Bool} (kp_s : OnlyM M0 s0 s)
    (hm : Sub 0x3011000000000000000000000000000000002DB5E0800000000000000000CC M0 := by exact Sub.of hm rfl) :
    OnlyOpt M0 s0 (State.obsEffect s n cmd rep) := by
  unfold State.obsEffect
  repeat' first
    | (refine Sub.of hm ?_; exact Eq.refl _) | (refine Sub.bit hm ?_; exact Eq.refl _)
    | (refine Or.inl (Sub.bit hm ?_); exact Eq.refl _) | with_reducible exact Or.inr rfl
    | intro _ | with_reducible assumption
    | with_reducible apply State.cenBegin_only | with_reducible apply State.cenAbort_only
    | with_reducible apply State.sndQueue_only | with_reducible apply State.sndAbort_only
    | with_reducible apply State.enrBegin_only | with_reducible apply State.enrAbort_only
    | with_reducible apply State.capBegin_only | with_reducible apply State.capStopLater_only
    | with_reducible apply State.capTrigger_only | with_reducible apply OnlyOpt.some
    | with_reducible apply OnlyOpt.none | with_reducible apply OnlyOpt.ite | with_reducible apply OnlyM.ite
    | split | with_reducible apply OnlyM.update

theorem State.obsCommand_only {M0 : Nat} {s0 : State} {s : State} {n cmd : Nat} {rep : Bool} (kp_s : OnlyM M0 s0 s)
    (hm : Sub 0x3011000000000000000000000000000000002DB5E0800000000000000000CC M0 := by exact Sub.of hm rfl) :
    OnlyM M0 s0 (State.obsCommand s n cmd rep) := by
  unfold State.obsCommand
  repeat' first
    | (refine Sub.of hm ?_; exact Eq.refl _) | (refine Sub.bit hm ?_; exact Eq.refl _)
    | with_reducible refine State.put_only (OBS_STAT_CMDERR_holds ..) ?_ ?_
    | intro _ | with_reducible assumption
    | with_reducible apply State.obsEffect_only
    | with_reducible apply OnlyM.getDOpt
    | with_reducible (refine OnlyOpt.elim ?_ (by assumption))

theorem State.obsWrite_only {M0 : Nat} {s0 : State} {s : State} {q : Requester} {n cmd : Nat} {rep : Bool} (kp_s : OnlyM M0 s0 s)
    (hm : Sub 0x40000000000000000000000003011000000000188000000000000000000002DB5E0800000000000002080CC M0 := by exact Sub.of hm rfl) :
    OnlyM M0 s0 (State.obsWrite s q n cmd rep) := by
  unfold State.obsWrite
  repeat' first
    | (refine Sub.of hm ?_; exact Eq.refl _) | (refine Sub.bit hm ?_; exact Eq.refl _)
    | intro _ | with_reducible assumption
    | with_reducible apply State.hostWrite_only | with_reducible apply State.obsCommand_only

theorem execCenStart_only {M0 : Nat} {s0 : State} {q : Requester} {n : PortNo} {rep : Bool} {s : State} (kp_s : OnlyM M0 s0 s)
    (hm : Sub 0x40000000000000000000000003011000000000188000000000000000000002DB5E0800000000000002080CC M0 := by exact Sub.of hm rfl) :
    OnlyOut M0 s0 (execCenStart q n rep s) := by
  unfold execCenStart
  repeat' first
    | (refine Sub.of hm ?_; exact Eq.refl _) | (refine Sub.bit hm ?_; exact Eq.refl _)
    | intro _ | with_reducible assumption
    | with_reducible apply State.obsWrite_only | with_reducible apply OnlyOut.next
    | with_reducible apply OnlyOut.fault | with_reducible apply OnlyOut.ite

theorem execCenStop_only {M0 : Nat} {s0 : State} {q : Requester} {n : PortNo} {s : State} (kp_s : OnlyM M0 s0 s)
    (hm : Sub 0x40000000000000000000000003011000000000188000000000000000000002DB5E0800000000000002080CC M0 := by exact Sub.of hm rfl) :
    OnlyOut M0 s0 (execCenStop q n s) := by
  unfold execCenStop
  repeat' first
    | (refine Sub.of hm ?_; exact Eq.refl _) | (refine Sub.bit hm ?_; exact Eq.refl _)
    | intro _ | with_reducible assumption
    | with_reducible apply State.obsWrite_only | with_reducible apply OnlyOut.next
    | with_reducible apply OnlyOut.fault | with_reducible apply OnlyOut.ite

theorem execSndStart_only {M0 : Nat} {s0 : State} {q : Requester} {n : PortNo} {s : State} (kp_s : OnlyM M0 s0 s)
    (hm : Sub 0x40000000000000000000000003011000000000188000000000000000000002DB5E0800000000000002080CC M0 := by exact Sub.of hm rfl) :
    OnlyOut M0 s0 (execSndStart q n s) := by
  unfold execSndStart
  repeat' first
    | (refine Sub.of hm ?_; exact Eq.refl _) | (refine Sub.bit hm ?_; exact Eq.refl _)
    | intro _ | with_reducible assumption
    | with_reducible apply State.obsWrite_only | with_reducible apply OnlyOut.next
    | with_reducible apply OnlyOut.fault | with_reducible apply OnlyOut.ite

theorem execSndAbort_only {M0 : Nat} {s0 : State} {q : Requester} {n : PortNo} {s : State} (kp_s : OnlyM M0 s0 s)
    (hm : Sub 0x40000000000000000000000003011000000000188000000000000000000002DB5E0800000000000002080CC M0 := by exact Sub.of hm rfl) :
    OnlyOut M0 s0 (execSndAbort q n s) := by
  unfold execSndAbort
  repeat' first
    | (refine Sub.of hm ?_; exact Eq.refl _) | (refine Sub.bit hm ?_; exact Eq.refl _)
    | intro _ | with_reducible assumption
    | with_reducible apply State.obsWrite_only | with_reducible apply OnlyOut.next
    | with_reducible apply OnlyOut.fault | with_reducible apply OnlyOut.ite

theorem execEnrStart_only {M0 : Nat} {s0 : State} {q : Requester} {n : PortNo} {s : State} (kp_s : OnlyM M0 s0 s)
    (hm : Sub 0x40000000000000000000000003011000000000188000000000000000000002DB5E0800000000000002080CC M0 := by exact Sub.of hm rfl) :
    OnlyOut M0 s0 (execEnrStart q n s) := by
  unfold execEnrStart
  repeat' first
    | (refine Sub.of hm ?_; exact Eq.refl _) | (refine Sub.bit hm ?_; exact Eq.refl _)
    | intro _ | with_reducible assumption
    | with_reducible apply State.obsWrite_only | with_reducible apply OnlyOut.next
    | with_reducible apply OnlyOut.fault | with_reducible apply OnlyOut.ite

theorem execEnrAbort_only {M0 : Nat} {s0 : State} {q : Requester} {n : PortNo} {s : State} (kp_s : OnlyM M0 s0 s)
    (hm : Sub 0x40000000000000000000000003011000000000188000000000000000000002DB5E0800000000000002080CC M0 := by exact Sub.of hm rfl) :
    OnlyOut M0 s0 (execEnrAbort q n s) := by
  unfold execEnrAbort
  repeat' first
    | (refine Sub.of hm ?_; exact Eq.refl _) | (refine Sub.bit hm ?_; exact Eq.refl _)
    | intro _ | with_reducible assumption
    | with_reducible apply State.obsWrite_only | with_reducible apply OnlyOut.next
    | with_reducible apply OnlyOut.fault | with_reducible apply OnlyOut.ite

theorem execCapStart_only {M0 : Nat} {s0 : State} {q : Requester} {n : PortNo} {s : State} (kp_s : OnlyM M0 s0 s)
    (hm : Sub 0x40000000000000000000000003011000000000188000000000000000000002DB5E0800000000000002080CC M0 := by exact Sub.of hm rfl) :
    OnlyOut M0 s0 (execCapStart q n s) := by
  unfold execCapStart
  repeat' first
    | (refine Sub.of hm ?_; exact Eq.refl _) | (refine Sub.bit hm ?_; exact Eq.refl _)
    | intro _ | with_reducible assumption
    | with_reducible apply State.obsWrite_only | with_reducible apply OnlyOut.next
    | with_reducible apply OnlyOut.fault | with_reducible apply OnlyOut.ite

theorem execCapStop_only {M0 : Nat} {s0 : State} {q : Requester} {n : PortNo} {s : State} (kp_s : OnlyM M0 s0 s)
    (hm : Sub 0x40000000000000000000000003011000000000188000000000000000000002DB5E0800000000000002080CC M0 := by exact Sub.of hm rfl) :
    OnlyOut M0 s0 (execCapStop q n s) := by
  unfold execCapStop
  repeat' first
    | (refine Sub.of hm ?_; exact Eq.refl _) | (refine Sub.bit hm ?_; exact Eq.refl _)
    | intro _ | with_reducible assumption
    | with_reducible apply State.obsWrite_only | with_reducible apply OnlyOut.next
    | with_reducible apply OnlyOut.fault | with_reducible apply OnlyOut.ite

theorem execCapTrig_only {M0 : Nat} {s0 : State} {q : Requester} {n : PortNo} {s : State} (kp_s : OnlyM M0 s0 s)
    (hm : Sub 0x40000000000000000000000003011000000000188000000000000000000002DB5E0800000000000002080CC M0 := by exact Sub.of hm rfl) :
    OnlyOut M0 s0 (execCapTrig q n s) := by
  unfold execCapTrig
  repeat' first
    | (refine Sub.of hm ?_; exact Eq.refl _) | (refine Sub.bit hm ?_; exact Eq.refl _)
    | intro _ | with_reducible assumption
    | with_reducible apply State.obsWrite_only | with_reducible apply OnlyOut.next
    | with_reducible apply OnlyOut.fault | with_reducible apply OnlyOut.ite

theorem execObsCmdIgnored_only {M0 : Nat} {s0 : State} {q : Requester} {n : PortNo} {s : State} (kp_s : OnlyM M0 s0 s)
    (hm : Sub 0x400000000000000000000000000000000000001880000000000000000000000000080000000000000208000 M0 := by exact Sub.of hm rfl) :
    OnlyOut M0 s0 (execObsCmdIgnored q n s) := by
  unfold execObsCmdIgnored
  repeat' first
    | (refine Sub.of hm ?_; exact Eq.refl _) | (refine Sub.bit hm ?_; exact Eq.refl _)
    | with_reducible refine State.put_only (OBS_STAT_CMDERR_holds ..) ?_ ?_
    | intro _ | with_reducible assumption
    | with_reducible apply State.hostWrite_only
    | with_reducible apply OnlyOut.next | with_reducible apply OnlyOut.fault
    | with_reducible apply OnlyOut.ite

theorem State.clearTrace_only {M0 : Nat} {s0 : State} {s : State} {u : Nat} (kp_s : OnlyM M0 s0 s)
    (hm : Sub 0x800000 M0 := by exact Sub.of hm rfl) :
    OnlyM M0 s0 (State.clearTrace s u) := by
  unfold State.clearTrace
  repeat' first
    | (refine Sub.of hm ?_; exact Eq.refl _) | (refine Sub.bit hm ?_; exact Eq.refl _)
    | (refine Or.inl (Sub.bit hm ?_); exact Eq.refl _) | with_reducible exact Or.inr rfl
    | intro _ | with_reducible assumption
    | with_reducible apply OnlyM.regsFilter
    | with_reducible apply OnlyM.update

theorem execSoundingUnitStart_only {M0 : Nat} {s0 : State} {d : Fin 2} {s : State} (kp_s : OnlyM M0 s0 s)
    (hm : Sub 0x101100000000000000000000000000000000040400000000000000008000CC M0 := by exact Sub.of hm rfl) :
    OnlyOut M0 s0 (execSoundingUnitStart d s) := by
  unfold execSoundingUnitStart
  repeat' first
    | (refine Sub.of hm ?_; exact Eq.refl _) | (refine Sub.bit hm ?_; exact Eq.refl _)
    | (refine Or.inl (Sub.bit hm ?_); exact Eq.refl _) | with_reducible exact Or.inr rfl
    | with_reducible refine State.set_only (OBS_SND_STAT_STATE_holds ..) ?_ ?_
    | with_reducible refine State.set_only (OBS_SND_STAT_UNIT_holds ..) ?_ ?_
    | intro _ | with_reducible assumption
    | with_reducible apply State.setSounding_only | with_reducible apply State.clearTrace_only | with_reducible apply State.capTrigger_only
    | with_reducible apply OnlyOut.next | with_reducible apply OnlyOut.fault
    | with_reducible apply OnlyOut.ite
    | (extract_lets +onlyGivenNames x; refine OnlyM.cut (M0 := M0) (s0 := s0) x ?_ ?_ <;> first | (intro hx; clear_value x) | unfold x)
    | (extract_lets +onlyGivenNames x; clear_value x)
    | split | with_reducible apply OnlyM.update

theorem execSoundingRecordDiscard_only {M0 : Nat} {s0 : State} {n : PortNo} {s : State} (kp_s : OnlyM M0 s0 s)
    (hm : Sub 0x80 M0 := by exact Sub.of hm rfl) :
    OnlyOut M0 s0 (execSoundingRecordDiscard n s) := by
  unfold execSoundingRecordDiscard
  repeat' first
    | (refine Sub.of hm ?_; exact Eq.refl _) | (refine Sub.bit hm ?_; exact Eq.refl _)
    | intro _ | with_reducible assumption
    | with_reducible apply State.discardRecord_only | with_reducible apply OnlyOut.next
    | with_reducible apply OnlyOut.fault | with_reducible apply OnlyOut.ite

theorem State.setRefl_only {M0 : Nat} {s0 : State} {s : State} {n sh k : Nat} {r : Refl} (kp_s : OnlyM M0 s0 s)
    (hm : Sub 0x80000000000000000000000 M0 := by exact Sub.of hm rfl) :
    OnlyM M0 s0 (State.setRefl s n sh k r) := by
  unfold State.setRefl
  repeat' first
    | (refine Sub.of hm ?_; exact Eq.refl _) | (refine Sub.bit hm ?_; exact Eq.refl _)
    | with_reducible refine State.setWord_only (Part.holds.own (OBS_SND_REFL_DIST_holds ..)) ?_ ?_
    | with_reducible refine State.set_only (OBS_SND_REFL_DIST_holds ..) ?_ ?_
    | with_reducible refine State.put_only (OBS_SND_REFL_POL_holds ..) ?_ ?_
    | with_reducible refine State.put_only (OBS_SND_REFL_CLIP_holds ..) ?_ ?_
    | with_reducible refine State.put_only (OBS_SND_REFL_WHERE_holds ..) ?_ ?_
    | with_reducible refine State.set_only (OBS_SND_REFL_AMP_holds ..) ?_ ?_
    | with_reducible refine State.put_only (OBS_SND_REFL_VALID_holds ..) ?_ ?_
    | intro _ | with_reducible assumption | with_reducible apply OnlyM.ite
    | (extract_lets +onlyGivenNames x; refine OnlyM.cut (M0 := M0) (s0 := s0) x ?_ ?_ <;> first | (intro hx; clear_value x) | unfold x)
    | (extract_lets +onlyGivenNames x; clear_value x)
    | split

theorem State.sndAdd_only {M0 : Nat} {s0 : State} {s : State} {n i : Nat} {recs : List (List Int)} (kp_s : OnlyM M0 s0 s)
    (hm : Sub 0x4000000000000000000000000000000000000000000000000000000000000000040000000000000000000080 M0 := by exact Sub.of hm rfl) :
    OnlyM M0 s0 (State.sndAdd s n i recs) := by
  unfold State.sndAdd
  repeat' first
    | (refine Sub.of hm ?_; exact Eq.refl _) | (refine Sub.bit hm ?_; exact Eq.refl _)
    | (refine Or.inl (Sub.bit hm ?_); exact Eq.refl _) | with_reducible exact Or.inr rfl
    | with_reducible refine State.setInt_only (OBS_TRACE_ACC_holds ..) ?_ ?_
    | with_reducible refine State.set_only (OBS_SND_STAT_STATE_holds ..) ?_ ?_
    | intro _ | with_reducible assumption | with_reducible apply State.setSounding_only
    | with_reducible apply State.each_only | with_reducible apply OnlyM.ite
    | (extract_lets +onlyGivenNames x; refine OnlyM.cut (M0 := M0) (s0 := s0) x ?_ ?_ <;> first | (intro hx; clear_value x) | unfold x)
    | (extract_lets +onlyGivenNames x; clear_value x)
    | split | with_reducible apply OnlyM.update

theorem State.sndReport_only {M0 : Nat} {s0 : State} {s : State} {n i : Nat} (kp_s : OnlyM M0 s0 s)
    (hm : Sub 0x301100000000000000000000000000000000000C000000000000000000008C M0 := by exact Sub.of hm rfl) :
    OnlyM M0 s0 (State.sndReport s n i) := by
  unfold State.sndReport
  repeat' first
    | (refine Sub.of hm ?_; exact Eq.refl _) | (refine Sub.bit hm ?_; exact Eq.refl _)
    | (refine Or.inl (Sub.bit hm ?_); exact Eq.refl _) | with_reducible exact Or.inr rfl
    | with_reducible refine State.setWord_only (Part.holds.own (OBS_SND_REFL_DIST_holds ..)) ?_ ?_
    | with_reducible refine State.set_only (OBS_SND_STAT_NREFL_holds ..) ?_ ?_
    | with_reducible refine State.put_only (OBS_SND_STAT_MORE_holds ..) ?_ ?_
    | with_reducible refine State.set_only (OBS_SND_STAT_CLIPPED_holds ..) ?_ ?_
    | with_reducible refine State.set_only (OBS_SND_STAT_STATE_holds ..) ?_ ?_
    | intro _ | with_reducible assumption
    | with_reducible apply State.setRefl_only
    | with_reducible apply State.sndLeave_only | with_reducible apply State.obsCause_only
    | with_reducible apply State.each_only | with_reducible apply OnlyOpt.none
    | with_reducible apply OnlyOpt.some
    | (extract_lets +onlyGivenNames x; refine OnlyM.cut (M0 := M0) (s0 := s0) x ?_ ?_ <;> first | (intro hx; clear_value x) | unfold x)
    | (extract_lets +onlyGivenNames x; clear_value x)
    | split | with_reducible apply OnlyM.update

theorem execSoundingAnalysisDone_only {M0 : Nat} {s0 : State} {n : PortNo} {recs : List (List Int)} {s : State} (kp_s : OnlyM M0 s0 s)
    (hm : Sub 0x40000000000000000000000000301100000000000000000000000000000000000C000000000000000000008C M0 := by exact Sub.of hm rfl) :
    OnlyOut M0 s0 (execSoundingAnalysisDone n recs s) := by
  unfold execSoundingAnalysisDone
  repeat' first
    | (refine Sub.of hm ?_; exact Eq.refl _) | (refine Sub.bit hm ?_; exact Eq.refl _)
    | (refine Or.inl (Sub.bit hm ?_); exact Eq.refl _) | with_reducible exact Or.inr rfl
    | intro _ | with_reducible assumption
    | with_reducible apply State.sndReport_only | with_reducible apply State.sndAdd_only
    | with_reducible apply OnlyOut.next | with_reducible apply OnlyOut.fault
    | with_reducible apply OnlyOut.ite | with_reducible apply OnlyOpt.none
    | with_reducible apply OnlyOpt.some | with_reducible apply OnlyM.ite
    | (extract_lets +onlyGivenNames x; refine OnlyM.cut (M0 := M0) (s0 := s0) x ?_ ?_ <;> first | (intro hx; clear_value x) | unfold x)
    | (extract_lets +onlyGivenNames x; clear_value x)
    | split | with_reducible apply OnlyM.update

theorem execSoundingTimeout_only {M0 : Nat} {s0 : State} {n : PortNo} {s : State} (kp_s : OnlyM M0 s0 s)
    (hm : Sub 0x3011000000000000000000000000000000000004000000000000000000008C M0 := by exact Sub.of hm rfl) :
    OnlyOut M0 s0 (execSoundingTimeout n s) := by
  unfold execSoundingTimeout
  repeat' first
    | (refine Sub.of hm ?_; exact Eq.refl _) | (refine Sub.bit hm ?_; exact Eq.refl _)
    | (refine Or.inl (Sub.bit hm ?_); exact Eq.refl _) | with_reducible exact Or.inr rfl
    | intro _ | with_reducible assumption
    | with_reducible apply State.sndEnd_only | with_reducible apply OnlyOut.next
    | with_reducible apply OnlyOut.fault | with_reducible apply OnlyOut.ite
    | with_reducible apply OnlyOpt.none | with_reducible apply OnlyOpt.some
    | with_reducible apply OnlyM.ite
    | (extract_lets +onlyGivenNames x; refine OnlyM.cut (M0 := M0) (s0 := s0) x ?_ ?_ <;> first | (intro hx; clear_value x) | unfold x)
    | (extract_lets +onlyGivenNames x; clear_value x)
    | split | with_reducible apply OnlyM.update

theorem State.cenDecide_only {M0 : Nat} {s0 : State} {s : State} {n k : Nat} (kp_s : OnlyM M0 s0 s)
    (hm : Sub 0x301100000000000000000000000000000000241000000000000000000000CC M0 := by exact Sub.of hm rfl) :
    OnlyM M0 s0 (State.cenDecide s n k) := by
  unfold State.cenDecide
  repeat' first
    | (refine Sub.of hm ?_; exact Eq.refl _) | (refine Sub.bit hm ?_; exact Eq.refl _)
    | with_reducible refine State.set_only (OBS_CEN_STAT_SLOT_holds ..) ?_ ?_
    | intro _ | with_reducible assumption | with_reducible apply State.cenStatus_only
    | with_reducible apply State.cenSettle_only
    | (extract_lets +onlyGivenNames x; refine OnlyM.cut (M0 := M0) (s0 := s0) x ?_ ?_ <;> first | (intro hx; clear_value x) | unfold x)
    | (extract_lets +onlyGivenNames x; clear_value x)

theorem State.cenFinish_only {M0 : Nat} {s0 : State} {s : State} {n : Nat} (kp_s : OnlyM M0 s0 s)
    (hm : Sub 0x30110000000000000000000000000000000025F000800000000000004000CC M0 := by exact Sub.of hm rfl) :
    OnlyM M0 s0 (State.cenFinish s n) := by
  unfold State.cenFinish
  repeat' first
    | (refine Sub.of hm ?_; exact Eq.refl _) | (refine Sub.bit hm ?_; exact Eq.refl _)
    | (refine Or.inl (Sub.bit hm ?_); exact Eq.refl _) | with_reducible exact Or.inr rfl
    | with_reducible refine State.set_only (OBS_STAT_CEN_holds ..) ?_ ?_
    | with_reducible refine State.setStamp_only (Part.holds.own (OBS_CEN_END_NS_holds ..)) (OBS_CEN_END_NS_next ..) ?_ ?_
    | intro _ | with_reducible assumption
    | with_reducible apply State.modObs_only | with_reducible apply State.obsCause_only
    | with_reducible apply State.cenBegin_only | with_reducible apply State.cenTake_only
    | with_reducible apply State.each_only | with_reducible apply OnlyM.ite
    | (extract_lets +onlyGivenNames x; refine OnlyM.cut (M0 := M0) (s0 := s0) x ?_ ?_ <;> first | (intro hx; clear_value x) | unfold x)
    | (extract_lets +onlyGivenNames x; clear_value x)
    | split | with_reducible apply OnlyM.update

theorem execCensusSlotDecision_only {M0 : Nat} {s0 : State} {n : PortNo} {k : Fin 32} {s : State} (kp_s : OnlyM M0 s0 s)
    (hm : Sub 0x30110000000000000000000000000000000025F000800000000000004000CC M0 := by exact Sub.of hm rfl) :
    OnlyOut M0 s0 (execCensusSlotDecision n k s) := by
  unfold execCensusSlotDecision
  repeat' first
    | (refine Sub.of hm ?_; exact Eq.refl _) | (refine Sub.bit hm ?_; exact Eq.refl _)
    | intro _ | with_reducible assumption
    | with_reducible apply State.cenDecide_only | with_reducible apply State.cenFinish_only
    | with_reducible apply OnlyOut.next | with_reducible apply OnlyOut.fault
    | with_reducible apply OnlyOut.ite | with_reducible apply OnlyM.ite
    | (extract_lets +onlyGivenNames x; refine OnlyM.cut (M0 := M0) (s0 := s0) x ?_ ?_ <;> first | (intro hx; clear_value x) | unfold x)
    | (extract_lets +onlyGivenNames x; clear_value x)
    | split

theorem State.capFeed_only {M0 : Nat} {s0 : State} {s : State} {n : Nat} {p : Packet} (kp_s : OnlyM M0 s0 s)
    (hm : Sub 0xC0 M0 := by exact Sub.of hm rfl) :
    OnlyM M0 s0 (State.capFeed s n p) := by
  unfold State.capFeed
  repeat' first
    | (refine Sub.of hm ?_; exact Eq.refl _) | (refine Sub.bit hm ?_; exact Eq.refl _)
    | (refine Or.inl (Sub.bit hm ?_); exact Eq.refl _) | with_reducible exact Or.inr rfl
    | intro _ | with_reducible assumption
    | with_reducible apply State.modObs_only | with_reducible apply OnlyM.ite
    | (extract_lets +onlyGivenNames x; refine OnlyM.cut (M0 := M0) (s0 := s0) x ?_ ?_ <;> first | (intro hx; clear_value x) | unfold x)
    | (extract_lets +onlyGivenNames x; clear_value x)
    | split | with_reducible apply OnlyM.update

theorem State.packet_only {M0 : Nat} {s0 : State} {s : State} {n : Nat} {xs : List CapSample} {full : Bool} (kp_s : OnlyM M0 s0 s)
    (hm : Sub 0x80000000003011000000000000000000000000000000001C0000000000000000000020CC M0 := by exact Sub.of hm rfl) :
    OnlyM M0 s0 (State.packet s n xs full) := by
  unfold State.packet
  repeat' first
    | (refine Sub.of hm ?_; exact Eq.refl _) | (refine Sub.bit hm ?_; exact Eq.refl _)
    | (refine Or.inl (Sub.bit hm ?_); exact Eq.refl _) | with_reducible exact Or.inr rfl
    | with_reducible refine State.add_only (OBS_CAP_CNT_SAT_holds ..) ?_ ?_
    | with_reducible refine State.inc_only (OBS_CAP_CNT_DROP_holds ..) ?_ ?_
    | with_reducible refine State.set_only (OBS_CAP_SEQ_SEQ_holds ..) ?_ ?_
    | with_reducible refine State.set_only (OBS_CAP_STAT_STATE_holds ..) ?_ ?_
    | intro _ | with_reducible assumption | with_reducible apply State.modObs_only
    | with_reducible apply State.streamSend_only
    | with_reducible apply State.countPerMs_only
    | with_reducible apply OnlyM.ite
    | (extract_lets +onlyGivenNames x; refine OnlyM.cut (M0 := M0) (s0 := s0) x ?_ ?_ <;> first | (intro hx; clear_value x) | unfold x)
    | (extract_lets +onlyGivenNames x; clear_value x)
    | split | with_reducible apply OnlyM.update

theorem State.capRun_only {M0 : Nat} {s0 : State} {s : State} {n : Nat} {full : Bool} (kp_s : OnlyM M0 s0 s)
    (hm : Sub 0x80000000003011000000000000000000000000000000001C0000000000000000000020CC M0 := by exact Sub.of hm rfl) :
    OnlyM M0 s0 (State.capRun s n full) := by
  unfold State.capRun
  repeat' first
    | (refine Sub.of hm ?_; exact Eq.refl _) | (refine Sub.bit hm ?_; exact Eq.refl _)
    | with_reducible refine State.set_only (OBS_CAP_STAT_STATE_holds ..) ?_ ?_
    | intro _ | with_reducible assumption
    | with_reducible apply State.packet_only | with_reducible apply State.modObs_only | with_reducible apply OnlyM.ite
    | (extract_lets +onlyGivenNames x; refine OnlyM.cut (M0 := M0) (s0 := s0) x ?_ ?_ <;> first | (intro hx; clear_value x) | unfold x)
    | (extract_lets +onlyGivenNames x; clear_value x)
    | split

theorem execSpecimenPacket_only {M0 : Nat} {s0 : State} {n : PortNo} {p : Packet} {s : State} (kp_s : OnlyM M0 s0 s)
    (hm : Sub 0x80000000003011000000000000000000000000000000001C0000000000000000000020CC M0 := by exact Sub.of hm rfl) :
    OnlyOut M0 s0 (execSpecimenPacket n p s) := by
  unfold execSpecimenPacket
  repeat' first
    | (refine Sub.of hm ?_; exact Eq.refl _) | (refine Sub.bit hm ?_; exact Eq.refl _)
    | intro _ | with_reducible assumption
    | with_reducible apply State.capFeed_only | with_reducible apply State.capRun_only
    | with_reducible apply OnlyOut.next | with_reducible apply OnlyOut.fault
    | with_reducible apply OnlyOut.ite | with_reducible apply OnlyM.ite
    | split

end Sys2Proof.Machine
end

