-- ==== Sys2Proof/Laws/OnlySpine.lean ====
section
/-! SUPPORT. Which parts each operation of `Machine/Spine.lean` may change, and that it keeps what every command keeps: each
lemma follows the operation's own text, piece by piece, and gives the parts as a set of part numbers. -/

namespace Sys2Proof.Machine

theorem State.streamCond_only {M0 : Nat} {s0 : State} {s : State} (kp_s : OnlyM M0 s0 s)
    (hm : Sub 0x8 M0 := by exact Sub.of hm rfl) :
    OnlyM M0 s0 (State.streamCond s) := by
  unfold State.streamCond
  repeat' first
    | (refine Sub.of hm ?_; exact Eq.refl _) | (refine Sub.bit hm ?_; exact Eq.refl _)
    | intro _ | with_reducible assumption
    | with_reducible apply State.startCond_only | with_reducible apply State.endCond_only
    | with_reducible apply OnlyM.ite
    | split

theorem State.moveStream_only {M0 : Nat} {s0 : State} {s : State} {st l : Nat} {alt : Bool} (kp_s : OnlyM M0 s0 s)
    (hm : Sub 0x80000000003011000000000000000000000000000000000000000000000000000000000C M0 := by exact Sub.of hm rfl) :
    OnlyM M0 s0 (State.moveStream s st l alt) := by
  unfold State.moveStream
  repeat' first
    | (refine Sub.of hm ?_; exact Eq.refl _) | (refine Sub.bit hm ?_; exact Eq.refl _)
    | with_reducible refine State.set_only (SPN_STR_STAT_ACTIVE_holds ..) ?_ ?_
    | with_reducible refine State.put_only (SPN_STR_STAT_ON_ALT_holds ..) ?_ ?_
    | with_reducible refine State.inc_only (SPN_STR_STAT_MOVES_holds ..) ?_ ?_
    | intro _ | with_reducible assumption | with_reducible apply State.raise_only
    | (extract_lets +onlyGivenNames x; refine OnlyM.cut (M0 := M0) (s0 := s0) x ?_ ?_ <;> first | (intro hx; clear_value x) | unfold x)
    | (extract_lets +onlyGivenNames x; clear_value x)

theorem State.streamCaptures_only {M0 : Nat} {s0 : State} {s : State} {st : Nat} {run : Bool} (kp_s : OnlyM M0 s0 s)
    (hm : Sub 0x4000000000000000000000000 M0 := by exact Sub.of hm rfl) :
    OnlyM M0 s0 (State.streamCaptures s st run) := by
  unfold State.streamCaptures
  repeat' first
    | (refine Sub.of hm ?_; exact Eq.refl _) | (refine Sub.bit hm ?_; exact Eq.refl _)
    | with_reducible refine State.set_only (OBS_CAP_STAT_STATE_holds ..) ?_ ?_
    | intro _ | with_reducible assumption | with_reducible apply State.each_only
    | with_reducible apply OnlyM.ite
    | split

theorem State.setRun_only {M0 : Nat} {s0 : State} {s : State} {st : Nat} {run : Bool} (kp_s : OnlyM M0 s0 s)
    (hm : Sub 0x800000000000000000000000000000000000000000000004000000000000000000000000 M0 := by exact Sub.of hm rfl) :
    OnlyM M0 s0 (State.setRun s st run) := by
  unfold State.setRun
  repeat' first
    | (refine Sub.of hm ?_; exact Eq.refl _) | (refine Sub.bit hm ?_; exact Eq.refl _)
    | with_reducible refine State.put_only (SPN_STR_STAT_RUN_holds ..) ?_ ?_
    | intro _ | with_reducible assumption | with_reducible apply State.streamCaptures_only
    | with_reducible apply State.when_only

theorem State.followLanes_only {M0 : Nat} {s0 : State} {s : State} {st : Nat} (kp_s : OnlyM M0 s0 s)
    (hm : Sub 0x80000000003011000000000000000000000000000000000400000000000000000000000C M0 := by exact Sub.of hm rfl) :
    OnlyM M0 s0 (State.followLanes s st) := by
  unfold State.followLanes
  repeat' first
    | (refine Sub.of hm ?_; exact Eq.refl _) | (refine Sub.bit hm ?_; exact Eq.refl _)
    | with_reducible refine State.set_only (SPN_STR_STAT_ACTIVE_holds ..) ?_ ?_
    | with_reducible refine State.put_only (SPN_STR_STAT_ON_ALT_holds ..) ?_ ?_
    | intro _ | with_reducible assumption
    | with_reducible apply State.moveStream_only | with_reducible apply State.setRun_only
    | with_reducible apply OnlyM.ite
    | (extract_lets +onlyGivenNames x; refine OnlyM.cut (M0 := M0) (s0 := s0) x ?_ ?_ <;> first | (intro hx; clear_value x) | unfold x)
    | (extract_lets +onlyGivenNames x; clear_value x)
    | split

theorem State.streams_only {M0 : Nat} {s0 : State} {s : State} (kp_s : OnlyM M0 s0 s)
    (hm : Sub 0x80000000003011000000000000000000000000000000000400000000000000000000000C M0 := by exact Sub.of hm rfl) :
    OnlyM M0 s0 (State.streams s) := by
  unfold State.streams
  repeat' first
    | (refine Sub.of hm ?_; exact Eq.refl _) | (refine Sub.bit hm ?_; exact Eq.refl _)
    | intro _ | with_reducible assumption
    | with_reducible apply State.followLanes_only | with_reducible apply State.streamCond_only
    | with_reducible apply State.each_only

theorem execStreamFailback_only {M0 : Nat} {s0 : State} {st : Fin 64} {s : State} (kp_s : OnlyM M0 s0 s)
    (hm : Sub 0x80000000003011000000000000000000000000000000000000000000000000000000000C M0 := by exact Sub.of hm rfl) :
    OnlyOut M0 s0 (execStreamFailback st s) := by
  unfold execStreamFailback
  repeat' first
    | (refine Sub.of hm ?_; exact Eq.refl _) | (refine Sub.bit hm ?_; exact Eq.refl _)
    | (refine Or.inl (Sub.bit hm ?_); exact Eq.refl _) | with_reducible exact Or.inr rfl
    | intro _ | with_reducible assumption
    | with_reducible apply State.moveStream_only | with_reducible apply OnlyOut.next
    | with_reducible apply OnlyOut.fault | with_reducible apply OnlyOut.ite
    | with_reducible apply OnlyOpt.none | with_reducible apply OnlyOpt.some
    | with_reducible apply OnlyM.ite
    | (extract_lets +onlyGivenNames x; refine OnlyM.cut (M0 := M0) (s0 := s0) x ?_ ?_ <;> first | (intro hx; clear_value x) | unfold x)
    | (extract_lets +onlyGivenNames x; clear_value x)
    | split | with_reducible apply OnlyM.update

theorem State.setLaneLink_only {M0 : Nat} {s0 : State} {s : State} {l : Nat} {up : Bool} (kp_s : OnlyM M0 s0 s)
    (hm : Sub 0xA00000003011000000000000000000000000000000000000000000000000000000000C M0 := by exact Sub.of hm rfl) :
    OnlyM M0 s0 (State.setLaneLink s l up) := by
  unfold State.setLaneLink
  repeat' first
    | (refine Sub.of hm ?_; exact Eq.refl _) | (refine Sub.bit hm ?_; exact Eq.refl _)
    | with_reducible refine State.put_only (SPN_LANE_STAT_LINK_holds ..) ?_ ?_
    | with_reducible refine State.put_only (linkLoc_holds ..) ?_ ?_
    | intro _ | with_reducible assumption | with_reducible apply State.raise_only
    | with_reducible apply OnlyM.ite
    | (extract_lets +onlyGivenNames x; refine OnlyM.cut (M0 := M0) (s0 := s0) x ?_ ?_ <;> first | (intro hx; clear_value x) | unfold x)
    | (extract_lets +onlyGivenNames x; clear_value x)
    | split

theorem State.codewords_only {M0 : Nat} {s0 : State} {s : State} {l corr unc : Nat} (kp_s : OnlyM M0 s0 s)
    (hm : Sub 0x20000000000000000000000000000000000000000000000000000000000000000000000 M0 := by exact Sub.of hm rfl) :
    OnlyM M0 s0 (State.codewords s l corr unc) := by
  unfold State.codewords
  repeat' first
    | (refine Sub.of hm ?_; exact Eq.refl _) | (refine Sub.bit hm ?_; exact Eq.refl _)
    | with_reducible refine State.add_only (SPN_LANE_FEC_CORR_holds ..) ?_ ?_
    | with_reducible refine State.add_only (SPN_LANE_FEC_UNCORR_holds ..) ?_ ?_
    | intro _ | with_reducible assumption

theorem execLaneLinkUp_only {M0 : Nat} {s0 : State} {l : Fin 4} {corr unc : Nat} {s : State} (kp_s : OnlyM M0 s0 s)
    (hm : Sub 0x82A00000003011000000000000000000000000000000000400000000000000000000200C M0 := by exact Sub.of hm rfl) :
    OnlyOut M0 s0 (execLaneLinkUp l corr unc s) := by
  unfold execLaneLinkUp
  repeat' first
    | (refine Sub.of hm ?_; exact Eq.refl _) | (refine Sub.bit hm ?_; exact Eq.refl _)
    | (refine Or.inl (Sub.bit hm ?_); exact Eq.refl _) | with_reducible exact Or.inr rfl
    | with_reducible refine State.put_only (SPN_LANE_STAT_FEC_LOCK_holds ..) ?_ ?_
    | with_reducible refine State.set_only (SPN_LANE_STAT_TRAIN_holds ..) ?_ ?_
    | intro _ | with_reducible assumption
    | with_reducible apply State.codewords_only | with_reducible apply State.modLane_only
    | with_reducible apply State.setLaneLink_only | with_reducible apply State.streams_only
    | with_reducible apply OnlyOut.next | with_reducible apply OnlyOut.fault
    | with_reducible apply OnlyOut.ite | with_reducible apply OnlyOpt.none
    | with_reducible apply OnlyOpt.some | with_reducible apply OnlyM.ite
    | (extract_lets +onlyGivenNames x; refine OnlyM.cut (M0 := M0) (s0 := s0) x ?_ ?_ <;> first | (intro hx; clear_value x) | unfold x)
    | (extract_lets +onlyGivenNames x; clear_value x)
    | split | with_reducible apply OnlyM.update

theorem State.laneDown_only {M0 : Nat} {s0 : State} {s : State} {l : Nat} {cut fec : Bool} (kp_s : OnlyM M0 s0 s)
    (hm : Sub 0x80A00000003011000000000000000000000000000000000400000000000000000000204C M0 := by exact Sub.of hm rfl) :
    OnlyM M0 s0 (State.laneDown s l cut fec) := by
  unfold State.laneDown
  repeat' first
    | (refine Sub.of hm ?_; exact Eq.refl _) | (refine Sub.bit hm ?_; exact Eq.refl _)
    | (refine Or.inl (Sub.bit hm ?_); exact Eq.refl _) | with_reducible exact Or.inr rfl
    | with_reducible refine State.put_only (SPN_LANE_STAT_FEC_LOCK_holds ..) ?_ ?_
    | with_reducible refine State.set_only (SPN_LANE_STAT_TRAIN_holds ..) ?_ ?_
    | with_reducible refine State.inc_only (SPN_LANE_STAT_DOWNS_holds ..) ?_ ?_
    | with_reducible refine State.inc_only (SPN_STR_STAT_DROP_holds ..) ?_ ?_
    | intro _ | with_reducible assumption | with_reducible apply State.setLaneLink_only
    | with_reducible apply State.cut_only | with_reducible apply State.modLane_only
    | with_reducible apply State.streams_only | with_reducible apply OnlyOpt.none
    | with_reducible apply OnlyOpt.some | with_reducible apply OnlyM.ite
    | (extract_lets +onlyGivenNames x; refine OnlyM.cut (M0 := M0) (s0 := s0) x ?_ ?_ <;> first | (intro hx; clear_value x) | unfold x)
    | (extract_lets +onlyGivenNames x; clear_value x)
    | split | with_reducible apply OnlyM.update

theorem execLaneLinkDown_only {M0 : Nat} {s0 : State} {l : Fin 4} {cut fec : Bool} {corr unc : Nat} {s : State} (kp_s : OnlyM M0 s0 s)
    (hm : Sub 0x82A00000003011000000000000000000000000000000000400000000000000000000204C M0 := by exact Sub.of hm rfl) :
    OnlyOut M0 s0 (execLaneLinkDown l cut fec corr unc s) := by
  unfold execLaneLinkDown
  repeat' first
    | (refine Sub.of hm ?_; exact Eq.refl _) | (refine Sub.bit hm ?_; exact Eq.refl _)
    | intro _ | with_reducible assumption
    | with_reducible apply State.codewords_only | with_reducible apply State.laneDown_only
    | with_reducible apply State.cut_only | with_reducible apply OnlyOut.next
    | with_reducible apply OnlyOut.fault | with_reducible apply OnlyOut.ite
    | with_reducible apply OnlyM.ite
    | split

theorem execTrainingRetry_only {M0 : Nat} {s0 : State} {l : Fin 4} {s : State} (kp_s : OnlyM M0 s0 s)
    (hm : Sub 0x8000000000000000000000000000000000000000000000000000000000000000002000 M0 := by exact Sub.of hm rfl) :
    OnlyOut M0 s0 (execTrainingRetry l s) := by
  unfold execTrainingRetry
  repeat' first
    | (refine Sub.of hm ?_; exact Eq.refl _) | (refine Sub.bit hm ?_; exact Eq.refl _)
    | (refine Or.inl (Sub.bit hm ?_); exact Eq.refl _) | with_reducible exact Or.inr rfl
    | with_reducible refine State.set_only (SPN_LANE_STAT_TRAIN_holds ..) ?_ ?_
    | intro _ | with_reducible assumption | with_reducible apply State.modLane_only
    | with_reducible apply OnlyOut.next | with_reducible apply OnlyOut.fault
    | with_reducible apply OnlyOut.ite | with_reducible apply OnlyM.ite
    | split | with_reducible apply OnlyM.update

theorem execKeepaliveSend_only {M0 : Nat} {s0 : State} {l : Fin 4} {s : State} (kp_s : OnlyM M0 s0 s)
    (hm : Sub 0x402000 M0 := by exact Sub.of hm rfl) :
    OnlyOut M0 s0 (execKeepaliveSend l s) := by
  unfold execKeepaliveSend
  repeat' first
    | (refine Sub.of hm ?_; exact Eq.refl _) | (refine Sub.bit hm ?_; exact Eq.refl _)
    | (refine Or.inl (Sub.bit hm ?_); exact Eq.refl _) | with_reducible exact Or.inr rfl
    | intro _ | with_reducible assumption
    | with_reducible apply State.emit_only | with_reducible apply State.modLane_only
    | with_reducible apply OnlyOut.next | with_reducible apply OnlyOut.fault
    | with_reducible apply OnlyOut.ite | with_reducible apply OnlyM.ite
    | (extract_lets +onlyGivenNames x; refine OnlyM.cut (M0 := M0) (s0 := s0) x ?_ ?_ <;> first | (intro hx; clear_value x) | unfold x)
    | (extract_lets +onlyGivenNames x; clear_value x)
    | split | with_reducible apply OnlyM.update

theorem execNativeFrameReceived_only {M0 : Nat} {s0 : State} {l : Fin 4} {bs : List Byte} {stamp corr : Nat} {s : State} (kp_s : OnlyM M0 s0 s)
    (hm : Sub 0x1E7100000000008200000000301100000006000000316703C00000010F180000000000000000000001F44D M0 := by exact Sub.of hm rfl) :
    OnlyOut M0 s0 (execNativeFrameReceived l bs stamp corr s) := by
  unfold execNativeFrameReceived
  repeat' first
    | (refine Sub.of hm ?_; exact Eq.refl _) | (refine Sub.bit hm ?_; exact Eq.refl _)
    | (refine Or.inl (Sub.bit hm ?_); exact Eq.refl _) | with_reducible exact Or.inr rfl
    | intro _ | with_reducible assumption
    | with_reducible apply State.codewords_only | with_reducible apply State.modLane_only
    | with_reducible apply State.messageReceive_only | with_reducible apply OnlyOut.next
    | with_reducible apply OnlyOut.fault | with_reducible apply OnlyOut.ite
    | with_reducible apply OnlyOpt.none | with_reducible apply OnlyOpt.some
    | with_reducible apply OnlyM.ite
    | (extract_lets +onlyGivenNames x; refine OnlyM.cut (M0 := M0) (s0 := s0) x ?_ ?_ <;> first | (intro hx; clear_value x) | unfold x)
    | (extract_lets +onlyGivenNames x; clear_value x)
    | split | with_reducible apply OnlyM.update

theorem State.hqReceive_only {M0 : Nat} {s0 : State} {s : State} {l : Nat} {bs : List Byte} {unctrl : Bool} {t : Nat} (kp_s : OnlyM M0 s0 s)
    (hm : Sub 0x14000000003011000000020000000000000000000000000000000000000000000001800D M0 := by exact Sub.of hm rfl) :
    OnlyM M0 s0 (State.hqReceive s l bs unctrl t) := by
  unfold State.hqReceive
  repeat' first
    | (refine Sub.of hm ?_; exact Eq.refl _) | (refine Sub.bit hm ?_; exact Eq.refl _)
    | with_reducible refine State.inc_only (SPN_LANE_SEC_HQDROP_holds ..) ?_ ?_
    | with_reducible refine State.set_only (SPN_HQ_PTR_RX_TAIL_holds ..) ?_ ?_
    | intro _ | with_reducible assumption | with_reducible apply State.hallStore_only | with_reducible apply State.raise_only
    | with_reducible apply OnlyM.ite
    | (extract_lets +onlyGivenNames x; refine OnlyM.cut (M0 := M0) (s0 := s0) x ?_ ?_ <;> first | (intro hx; clear_value x) | unfold x)
    | (extract_lets +onlyGivenNames x; clear_value x)
    | split

theorem State.hqDone_only {M0 : Nat} {s0 : State} {s : State} {l w : Nat} {stamp : Nat} (kp_s : OnlyM M0 s0 s)
    (hm : Sub 0x10000000003011000000020000000000000000000000000000000000000000000001800D M0 := by exact Sub.of hm rfl) :
    OnlyM M0 s0 (State.hqDone s l w stamp) := by
  unfold State.hqDone
  repeat' first
    | (refine Sub.of hm ?_; exact Eq.refl _) | (refine Sub.bit hm ?_; exact Eq.refl _)
    | with_reducible refine State.set_only (SPN_HQ_PTR_TX_HEAD_holds ..) ?_ ?_
    | intro _ | with_reducible assumption
    | with_reducible apply State.hallStore_only
    | with_reducible apply State.raise_only
    | (extract_lets +onlyGivenNames x; refine OnlyM.cut (M0 := M0) (s0 := s0) x ?_ ?_ <;> first | (intro hx; clear_value x) | unfold x)
    | (extract_lets +onlyGivenNames x; clear_value x)

theorem State.hqReject_only {M0 : Nat} {s0 s : State} {l n : Nat} (hs : OnlyM M0 s0 s)
    (hm : Sub 0x10000000003011000000020000000000000000000000000000000000000000000001800D M0 := by exact Sub.of hm rfl) : OnlyM M0 s0 (s.hqReject l n) := by
  induction n generalizing s with
  | zero => exact hs
  | succ n ih =>
    unfold State.hqReject
    repeat' first
      | (refine Sub.of hm ?_; exact Eq.refl _) | (refine Sub.bit hm ?_; exact Eq.refl _)
      | (refine Or.inl (Sub.bit hm ?_); exact Eq.refl _) | with_reducible exact Or.inr rfl
      | intro _ | with_reducible assumption
      | with_reducible exact trivial
      | with_reducible apply ih | with_reducible apply State.hqDone_only
      | with_reducible apply State.each_only | with_reducible apply State.when_only | with_reducible apply OnlyM.ite
      | (extract_lets +onlyGivenNames x; refine OnlyM.cut (M0 := M0) (s0 := s0) x ?_ ?_ <;> first | (intro hx; clear_value x) | unfold x)
      | (extract_lets +onlyGivenNames x; clear_value x)
      | with_reducible (refine OnlyOpt.elim ?_ (by assumption)) | with_reducible (refine OnlyM.pair ?_ (by assumption))
      | split | with_reducible apply OnlyM.update

theorem State.hqTail_only {M0 : Nat} {s0 : State} {s : State} {l v : Nat} (kp_s : OnlyM M0 s0 s)
    (hm : Sub 0x10000000003011000000020000000000000000000000000000000000000000000001800D M0 := by exact Sub.of hm rfl) :
    OnlyM M0 s0 (State.hqTail s l v) := by
  unfold State.hqTail
  repeat' first
    | (refine Sub.of hm ?_; exact Eq.refl _) | (refine Sub.bit hm ?_; exact Eq.refl _)
    | with_reducible refine State.set_only (SPN_HQ_PTR_TX_TAIL_holds ..) ?_ ?_
    | intro _ | with_reducible assumption | with_reducible apply State.hqReject_only

theorem execHqTxTailWrite_only {M0 : Nat} {s0 : State} {q : Requester} {l : Fin 4} {v : Fin 32} {s : State} (kp_s : OnlyM M0 s0 s)
    (hm : Sub 0x40000000000000010000000003011000000020188000000000000000000000000000000000000000021800D M0 := by exact Sub.of hm rfl) :
    OnlyOut M0 s0 (execHqTxTailWrite q l v s) := by
  unfold execHqTxTailWrite
  repeat' first
    | (refine Sub.of hm ?_; exact Eq.refl _) | (refine Sub.bit hm ?_; exact Eq.refl _)
    | intro _ | with_reducible assumption
    | with_reducible apply State.hostWrite_only | with_reducible apply State.hqTail_only
    | with_reducible apply OnlyOut.next | with_reducible apply OnlyOut.fault
    | with_reducible apply OnlyOut.ite

theorem execHqRxHeadWrite_only {M0 : Nat} {s0 : State} {q : Requester} {l : Fin 4} {v : Fin 32} {s : State} (kp_s : OnlyM M0 s0 s)
    (hm : Sub 0x400000000000000100000000000000000000001880000000000000000000000000000000000000000208000 M0 := by exact Sub.of hm rfl) :
    OnlyOut M0 s0 (execHqRxHeadWrite q l v s) := by
  unfold execHqRxHeadWrite
  repeat' first
    | (refine Sub.of hm ?_; exact Eq.refl _) | (refine Sub.bit hm ?_; exact Eq.refl _)
    | with_reducible refine State.set_only (SPN_HQ_PTR_RX_HEAD_holds ..) ?_ ?_
    | intro _ | with_reducible assumption
    | with_reducible apply State.hostWrite_only
    | with_reducible apply OnlyOut.next | with_reducible apply OnlyOut.fault
    | with_reducible apply OnlyOut.ite

theorem execTxAnWrite_only {M0 : Nat} {s0 : State} {q : Requester} {l an : Fin 4} {s : State} (kp_s : OnlyM M0 s0 s)
    (hm : Sub 0x400000000000000004000000000000000000001880000000000000000000000000000000000000000208000 M0 := by exact Sub.of hm rfl) :
    OnlyOut M0 s0 (execTxAnWrite q l an s) := by
  unfold execTxAnWrite
  repeat' first
    | (refine Sub.of hm ?_; exact Eq.refl _) | (refine Sub.bit hm ?_; exact Eq.refl _)
    | with_reducible refine State.set_only (SPN_LANE_CFG_TX_AN_holds ..) ?_ ?_
    | intro _ | with_reducible assumption
    | with_reducible apply State.hostWrite_only
    | with_reducible apply OnlyOut.next | with_reducible apply OnlyOut.fault
    | with_reducible apply OnlyOut.ite

theorem State.protection_only {M0 : Nat} {s0 : State} {s : State} {l : Nat} {controlled : Bool} (kp_s : OnlyM M0 s0 s)
    (hm : Sub 0x2000 M0 := by exact Sub.of hm rfl) :
    OnlyM M0 s0 (State.protection s l controlled).2 := by
  unfold State.protection
  repeat' first
    | (refine Sub.of hm ?_; exact Eq.refl _) | (refine Sub.bit hm ?_; exact Eq.refl _)
    | (refine Or.inl (Sub.bit hm ?_); exact Eq.refl _) | with_reducible exact Or.inr rfl
    | intro _ | with_reducible assumption
    | with_reducible apply State.modLane_only | with_reducible apply OnlyM.ite
    | (extract_lets +onlyGivenNames x; refine OnlyM.cut (M0 := M0) (s0 := s0) x ?_ ?_ <;> first | (intro hx; clear_value x) | unfold x)
    | (extract_lets +onlyGivenNames x; clear_value x)
    | split | with_reducible apply OnlyM.update

theorem State.remoteSent_only {M0 : Nat} {s0 : State} {s : State} {leg : Option Nat} (kp_s : OnlyM M0 s0 s)
    (hm : Sub 0x10600000000000000000000000000000000000001000 M0 := by exact Sub.of hm rfl) :
    OnlyM M0 s0 (State.remoteSent s leg) := by
  unfold State.remoteSent
  repeat' first
    | (refine Sub.of hm ?_; exact Eq.refl _) | (refine Sub.bit hm ?_; exact Eq.refl _)
    | (refine Or.inl (Sub.bit hm ?_); exact Eq.refl _) | with_reducible exact Or.inr rfl
    | with_reducible refine State.inc_only (GW_LEG_STAT_REL_holds ..) ?_ ?_
    | intro _ | with_reducible assumption
    | with_reducible apply State.dropCopy_only | with_reducible apply State.legFree_only | with_reducible apply OnlyOpt.none
    | with_reducible apply OnlyOpt.some
    | split | with_reducible apply OnlyM.update

theorem State.sendNative_only {M0 : Nat} {s0 : State} {s : State} {l st kind : Nat} {bs : List Byte} (kp_s : OnlyM M0 s0 s)
    (hm : Sub 0x402000 M0 := by exact Sub.of hm rfl) :
    OnlyM M0 s0 (State.sendNative s l st kind bs) := by
  unfold State.sendNative
  repeat' first
    | (refine Sub.of hm ?_; exact Eq.refl _) | (refine Sub.bit hm ?_; exact Eq.refl _)
    | (refine Or.inl (Sub.bit hm ?_); exact Eq.refl _) | with_reducible exact Or.inr rfl
    | intro _ | with_reducible assumption
    | with_reducible apply State.emit_only | with_reducible apply State.modStream_only
    | (extract_lets +onlyGivenNames x; refine OnlyM.cut (M0 := M0) (s0 := s0) x ?_ ?_ <;> first | (intro hx; clear_value x) | unfold x)
    | (extract_lets +onlyGivenNames x; clear_value x)
    | with_reducible apply OnlyM.update

theorem State.sendItem_only {M0 : Nat} {s0 : State} {s : State} {l st : Nat} {x : SpineItem} (kp_s : OnlyM M0 s0 s)
    (hm : Sub 0x14600000000000000000000000000000000000403000 M0 := by exact Sub.of hm rfl) :
    OnlyM M0 s0 (State.sendItem s l st x) := by
  unfold State.sendItem
  repeat' first
    | (refine Sub.of hm ?_; exact Eq.refl _) | (refine Sub.bit hm ?_; exact Eq.refl _)
    | (refine Or.inl (Sub.bit hm ?_); exact Eq.refl _) | with_reducible exact Or.inr rfl
    | with_reducible refine State.inc_only (GW_TUN_CNT_TX_holds ..) ?_ ?_
    | intro _ | with_reducible assumption
    | with_reducible apply State.modStream_only | with_reducible apply State.modLane_only
    | with_reducible apply State.sendNative_only | with_reducible apply State.remoteSent_only
    | with_reducible apply State.protection_only | with_reducible apply State.emit_only | with_reducible apply OnlyOpt.none
    | with_reducible apply OnlyOpt.some | with_reducible apply OnlyM.ite
    | (extract_lets +onlyGivenNames x; refine OnlyM.cut (M0 := M0) (s0 := s0) x ?_ ?_ <;> first | (intro hx; clear_value x) | unfold x)
    | (extract_lets +onlyGivenNames x; clear_value x)
    | with_reducible (refine OnlyM.pair ?_ (by assumption))
    | split | with_reducible apply OnlyM.update

theorem State.sendHost_only {M0 : Nat} {s0 : State} {s : State} {l w : Nat} (kp_s : OnlyM M0 s0 s)
    (hm : Sub 0x10000000003011000000020000000000000000000000000000000000000000000041A00D M0 := by exact Sub.of hm rfl) :
    OnlyM M0 s0 (State.sendHost s l w) := by
  unfold State.sendHost
  repeat' first
    | (refine Sub.of hm ?_; exact Eq.refl _) | (refine Sub.bit hm ?_; exact Eq.refl _)
    | (refine Or.inl (Sub.bit hm ?_); exact Eq.refl _) | with_reducible exact Or.inr rfl
    | intro _ | with_reducible assumption
    | with_reducible apply State.protection_only | with_reducible apply State.emit_only
    | with_reducible apply State.modLane_only | with_reducible apply State.hqDone_only
    | with_reducible apply State.hqReject_only | with_reducible apply OnlyOpt.none
    | with_reducible apply OnlyOpt.some | with_reducible apply OnlyM.ite
    | (extract_lets +onlyGivenNames x; refine OnlyM.cut (M0 := M0) (s0 := s0) x ?_ ?_ <;> first | (intro hx; clear_value x) | unfold x)
    | (extract_lets +onlyGivenNames x; clear_value x)
    | with_reducible (refine OnlyM.pair ?_ (by assumption))
    | split | with_reducible apply OnlyM.update

theorem execLaneFrameSend_only {M0 : Nat} {s0 : State} {l : Fin 4} {s : State} (kp_s : OnlyM M0 s0 s)
    (hm : Sub 0x10000000003011000000020000001460000000000000000000000000000000000041B00D M0 := by exact Sub.of hm rfl) :
    OnlyOut M0 s0 (execLaneFrameSend l s) := by
  unfold execLaneFrameSend
  repeat' first
    | (refine Sub.of hm ?_; exact Eq.refl _) | (refine Sub.bit hm ?_; exact Eq.refl _)
    | (refine Or.inl (Sub.bit hm ?_); exact Eq.refl _) | with_reducible exact Or.inr rfl
    | intro _ | with_reducible assumption
    | with_reducible apply State.sendHost_only | with_reducible apply State.sendItem_only
    | with_reducible apply OnlyOut.next | with_reducible apply OnlyOut.fault
    | with_reducible apply OnlyOut.ite | with_reducible apply OnlyOpt.none
    | with_reducible apply OnlyOpt.some | with_reducible apply OnlyM.ite
    | split | with_reducible apply OnlyM.update

theorem State.macsec_only {M0 : Nat} {s0 : State} {s : State} {l et : Nat} {m : Macsec} (kp_s : OnlyM M0 s0 s)
    (hm : Sub 0x4000000003011000000000000000000000000000000000000000000000000000000200C M0 := by exact Sub.of hm rfl) :
    OnlyM M0 s0 (State.macsec s l et m).2 := by
  unfold State.macsec
  repeat' first
    | (refine Sub.of hm ?_; exact Eq.refl _) | (refine Sub.bit hm ?_; exact Eq.refl _)
    | (refine Or.inl (Sub.bit hm ?_); exact Eq.refl _) | with_reducible exact Or.inr rfl
    | with_reducible refine State.inc_only (SPN_LANE_SEC_DROP_holds ..) ?_ ?_
    | with_reducible refine State.inc_only (SPN_LANE_SEC_REPLAY_holds ..) ?_ ?_
    | intro _ | with_reducible assumption | with_reducible apply State.raiseOncePerMs_only
    | with_reducible apply State.modLane_only | with_reducible apply OnlyM.ite
    | (extract_lets +onlyGivenNames x; refine OnlyM.cut (M0 := M0) (s0 := s0) x ?_ ?_ <;> first | (intro hx; clear_value x) | unfold x)
    | (extract_lets +onlyGivenNames x; clear_value x)
    | split | with_reducible apply OnlyM.update

theorem State.routeEth_only {M0 : Nat} {s0 : State} {s : State} {l et : Nat} {r : EthRx} {unctrl : Bool} (kp_s : OnlyM M0 s0 s)
    (hm : Sub 0x800000000000094000000003011000000020000003D6703C00000010C180000000000000000000001B40D M0 := by exact Sub.of hm rfl) :
    OnlyM M0 s0 (State.routeEth s l et r unctrl) := by
  unfold State.routeEth
  repeat' first
    | (refine Sub.of hm ?_; exact Eq.refl _) | (refine Sub.bit hm ?_; exact Eq.refl _)
    | (refine Or.inl (Sub.bit hm ?_); exact Eq.refl _) | with_reducible exact Or.inr rfl
    | with_reducible refine State.inc_only (GW_TUN_DUP_SKIP_holds ..) ?_ ?_
    | intro _ | with_reducible assumption
    | with_reducible apply State.avtpdu_only
    | with_reducible apply State.hqReceive_only | with_reducible apply OnlyOpt.none
    | with_reducible apply OnlyOpt.some | with_reducible apply OnlyM.ite
    | split | with_reducible apply OnlyM.update

theorem execLaneFrameReceived_only {M0 : Nat} {s0 : State} {l : Fin 4} {r : EthRx} {s : State} (kp_s : OnlyM M0 s0 s)
    (hm : Sub 0x800000000000096000000003011000000020000003D6703C00000010C180000000000000000000001B40D M0 := by exact Sub.of hm rfl) :
    OnlyOut M0 s0 (execLaneFrameReceived l r s) := by
  unfold execLaneFrameReceived
  repeat' first
    | (refine Sub.of hm ?_; exact Eq.refl _) | (refine Sub.bit hm ?_; exact Eq.refl _)
    | (refine Or.inl (Sub.bit hm ?_); exact Eq.refl _) | with_reducible exact Or.inr rfl
    | intro _ | with_reducible assumption
    | with_reducible apply State.codewords_only | with_reducible apply State.macsec_only
    | with_reducible apply State.routeEth_only | with_reducible apply OnlyOut.next
    | with_reducible apply OnlyOut.fault | with_reducible apply OnlyOut.ite
    | with_reducible apply OnlyOpt.none | with_reducible apply OnlyOpt.some
    | with_reducible apply OnlyM.ite
    | (extract_lets +onlyGivenNames x; refine OnlyM.cut (M0 := M0) (s0 := s0) x ?_ ?_ <;> first | (intro hx; clear_value x) | unfold x)
    | (extract_lets +onlyGivenNames x; clear_value x)
    | with_reducible (refine OnlyM.pair ?_ (by assumption))
    | split | with_reducible apply OnlyM.update

theorem State.modSpine_only {M0 : Nat} {s0 : State} {s : State} {f : Spine → Spine} (kp_s : OnlyM M0 s0 s)
    (hm : Sub 0x2000 M0 := by exact Sub.of hm rfl) :
    OnlyM M0 s0 (State.modSpine s f) := by
  unfold State.modSpine
  repeat' first
    | (refine Sub.of hm ?_; exact Eq.refl _) | (refine Sub.bit hm ?_; exact Eq.refl _)
    | (refine Or.inl (Sub.bit hm ?_); exact Eq.refl _) | with_reducible exact Or.inr rfl
    | intro _ | with_reducible assumption
    | with_reducible apply OnlyM.update

theorem State.endpointReset_only {M0 : Nat} {s0 : State} {s : State} (kp_s : OnlyM M0 s0 s)
    (hm : Sub 0x8000000000000001000000000000000000000000000000000000000000000000000000000000000000000000 M0 := by exact Sub.of hm rfl) :
    OnlyM M0 s0 (State.endpointReset s) := by
  unfold State.endpointReset
  repeat' first
    | (refine Sub.of hm ?_; exact Eq.refl _) | (refine Sub.bit hm ?_; exact Eq.refl _)
    | with_reducible refine State.setWord_only (Part.holds.own PCIE_STAT_SPEED_holds) ?_ ?_
    | with_reducible refine State.put_only (MSIX_MASK_holds ..) ?_ ?_
    | intro _ | with_reducible assumption
    | with_reducible apply State.each_only
    | (extract_lets +onlyGivenNames x; refine OnlyM.cut (M0 := M0) (s0 := s0) x ?_ ?_ <;> first | (intro hx; clear_value x) | unfold x)
    | (extract_lets +onlyGivenNames x; clear_value x)

theorem execPcieReset_only {M0 : Nat} {s0 : State} {cause : Fin 5} {s : State} (kp_s : OnlyM M0 s0 s)
    (hm : Sub 0x818000000000000500000000003011000000000000000000000000000000000000000000000000000000200C M0 := by exact Sub.of hm rfl) :
    OnlyOut M0 s0 (execPcieReset cause s) := by
  unfold execPcieReset
  repeat' first
    | (refine Sub.of hm ?_; exact Eq.refl _) | (refine Sub.bit hm ?_; exact Eq.refl _)
    | (refine Or.inl (Sub.bit hm ?_); exact Eq.refl _) | with_reducible exact Or.inr rfl
    | with_reducible refine State.inc_only PCIE_CNT_HOTRST_holds ?_ ?_
    | with_reducible refine State.inc_only PCIE_CNT_LINKDOWN_holds ?_ ?_
    | intro _ | with_reducible assumption
    | with_reducible apply State.endpointReset_only
    | with_reducible apply State.modSpine_only | with_reducible apply State.setReady_only
    | with_reducible apply State.report_only | with_reducible apply OnlyOut.next
    | with_reducible apply OnlyOut.fault | with_reducible apply OnlyOut.ite
    | with_reducible apply State.when_only | with_reducible apply OnlyM.ite
    | (extract_lets +onlyGivenNames x; refine OnlyM.cut (M0 := M0) (s0 := s0) x ?_ ?_ <;> first | (intro hx; clear_value x) | unfold x)
    | (extract_lets +onlyGivenNames x; clear_value x)
    | split | with_reducible apply OnlyM.update

theorem execPcieLinkUp_only {M0 : Nat} {s0 : State} {speed width : Fin 8} {s : State} (kp_s : OnlyM M0 s0 s)
    (hm : Sub 0x18000000000000100000000003011000000000000000000000000000000000000000000000000000000200C M0 := by exact Sub.of hm rfl) :
    OnlyOut M0 s0 (execPcieLinkUp speed width s) := by
  unfold execPcieLinkUp
  repeat' first
    | (refine Sub.of hm ?_; exact Eq.refl _) | (refine Sub.bit hm ?_; exact Eq.refl _)
    | (refine Or.inl (Sub.bit hm ?_); exact Eq.refl _) | with_reducible exact Or.inr rfl
    | with_reducible refine State.set_only PCIE_STAT_SPEED_holds ?_ ?_
    | with_reducible refine State.set_only PCIE_STAT_WIDTH_holds ?_ ?_
    | with_reducible refine State.put_only PCIE_STAT_LINK_holds ?_ ?_
    | intro _ | with_reducible assumption
    | with_reducible apply State.modSpine_only | with_reducible apply State.setReady_only
    | with_reducible apply State.raise_only | with_reducible apply OnlyOut.next
    | with_reducible apply OnlyOut.fault | with_reducible apply OnlyOut.ite
    | with_reducible apply OnlyOpt.none | with_reducible apply OnlyOpt.some
    | with_reducible apply OnlyM.ite
    | (extract_lets +onlyGivenNames x; refine OnlyM.cut (M0 := M0) (s0 := s0) x ?_ ?_ <;> first | (intro hx; clear_value x) | unfold x)
    | (extract_lets +onlyGivenNames x; clear_value x)
    | split | with_reducible apply OnlyM.update

theorem State.msixOpen_only {M0 : Nat} {s0 : State} {s : State} {k : Nat} (kp_s : OnlyM M0 s0 s)
    (hm : Sub 0x8000000000000009000000000000000000000000000000000000000000000000000000000000000000400000 M0 := by exact Sub.of hm rfl) :
    OnlyM M0 s0 (State.msixOpen s k) := by
  unfold State.msixOpen
  repeat' first
    | (refine Sub.of hm ?_; exact Eq.refl _) | (refine Sub.bit hm ?_; exact Eq.refl _)
    | with_reducible refine State.put_only PCIE_STAT_MSIX_EN_holds ?_ ?_
    | with_reducible refine State.put_only (MSIX_MASK_holds ..) ?_ ?_
    | intro _ | with_reducible assumption | with_reducible apply State.sendHeld_only

theorem execMsixUnmask_only {M0 : Nat} {s0 : State} {k : Fin 64} {s : State} (kp_s : OnlyM M0 s0 s)
    (hm : Sub 0x8000000000000009000000000000000000000000000000000000000000000000000000000000000000400000 M0 := by exact Sub.of hm rfl) :
    OnlyOut M0 s0 (execMsixUnmask k s) := by
  unfold execMsixUnmask
  repeat' first
    | (refine Sub.of hm ?_; exact Eq.refl _) | (refine Sub.bit hm ?_; exact Eq.refl _)
    | intro _ | with_reducible assumption
    | with_reducible apply State.msixOpen_only | with_reducible apply OnlyOut.next
    | with_reducible apply OnlyOut.fault | with_reducible apply OnlyOut.ite
    | with_reducible apply OnlyM.ite
    | split

theorem execPcieL2Entry_only {M0 : Nat} {s0 : State} {s : State} (kp_s : OnlyM M0 s0 s)
    (hm : Sub 0x18000000000000100000000003011000000000000000000000000000000000000000000000000000000200C M0 := by exact Sub.of hm rfl) :
    OnlyOut M0 s0 (execPcieL2Entry s) := by
  unfold execPcieL2Entry
  repeat' first
    | (refine Sub.of hm ?_; exact Eq.refl _) | (refine Sub.bit hm ?_; exact Eq.refl _)
    | (refine Or.inl (Sub.bit hm ?_); exact Eq.refl _) | with_reducible exact Or.inr rfl
    | with_reducible refine State.put_only PCIE_STAT_LINK_holds ?_ ?_
    | intro _ | with_reducible assumption
    | with_reducible apply State.modSpine_only
    | with_reducible apply State.setReady_only | with_reducible apply OnlyOut.next
    | with_reducible apply OnlyOut.fault | with_reducible apply OnlyOut.ite
    | with_reducible apply OnlyM.ite
    | split | with_reducible apply OnlyM.update

theorem State.withdrawUnlock_only {M0 : Nat} {s0 : State} {s : State} (kp_s : OnlyM M0 s0 s)
    (hm : Sub 0x2000000000003011000000000000000000000000000000000000000000000000000000000C M0 := by exact Sub.of hm rfl) :
    OnlyM M0 s0 (State.withdrawUnlock s) := by
  unfold State.withdrawUnlock
  repeat' first
    | (refine Sub.of hm ?_; exact Eq.refl _) | (refine Sub.bit hm ?_; exact Eq.refl _)
    | with_reducible refine State.put_only SVC_DBG_UNLOCKED_holds ?_ ?_
    | intro _ | with_reducible assumption | with_reducible apply State.raise_only
    | with_reducible apply OnlyM.ite
    | split

theorem execUsbBusReset_only {M0 : Nat} {s0 : State} {hs : Bool} {s : State} (kp_s : OnlyM M0 s0 s)
    (hm : Sub 0x3000000000003011000000000000000000000000000000000000000000000000000000200C M0 := by exact Sub.of hm rfl) :
    OnlyOut M0 s0 (execUsbBusReset hs s) := by
  unfold execUsbBusReset
  repeat' first
    | (refine Sub.of hm ?_; exact Eq.refl _) | (refine Sub.bit hm ?_; exact Eq.refl _)
    | (refine Or.inl (Sub.bit hm ?_); exact Eq.refl _) | with_reducible exact Or.inr rfl
    | with_reducible refine State.set_only SVC_STAT_STATE_holds ?_ ?_
    | with_reducible refine State.set_only SVC_STAT_ADDR_holds ?_ ?_
    | with_reducible refine State.put_only SVC_STAT_SUSPEND_holds ?_ ?_
    | with_reducible refine State.put_only SVC_STAT_HS_holds ?_ ?_
    | intro _ | with_reducible assumption
    | with_reducible apply State.modSpine_only | with_reducible apply State.withdrawUnlock_only
    | with_reducible apply State.raise_only | with_reducible apply OnlyOut.next
    | with_reducible apply OnlyOut.fault | with_reducible apply OnlyOut.ite
    | with_reducible apply OnlyM.ite
    | (extract_lets +onlyGivenNames x; refine OnlyM.cut (M0 := M0) (s0 := s0) x ?_ ?_ <;> first | (intro hx; clear_value x) | unfold x)
    | (extract_lets +onlyGivenNames x; clear_value x)
    | split | with_reducible apply OnlyM.update

theorem execUsbSuspend_only {M0 : Nat} {s0 : State} {on wake : Bool} {s : State} (kp_s : OnlyM M0 s0 s)
    (hm : Sub 0x1000000000003011000000000000000000000000000000000000000000000000000000200C M0 := by exact Sub.of hm rfl) :
    OnlyOut M0 s0 (execUsbSuspend on wake s) := by
  unfold execUsbSuspend
  repeat' first
    | (refine Sub.of hm ?_; exact Eq.refl _) | (refine Sub.bit hm ?_; exact Eq.refl _)
    | (refine Or.inl (Sub.bit hm ?_); exact Eq.refl _) | with_reducible exact Or.inr rfl
    | with_reducible refine State.put_only SVC_STAT_SUSPEND_holds ?_ ?_
    | intro _ | with_reducible assumption
    | with_reducible apply State.modSpine_only
    | with_reducible apply State.raise_only | with_reducible apply OnlyOut.next
    | with_reducible apply OnlyOut.fault | with_reducible apply OnlyOut.ite
    | with_reducible apply OnlyM.ite
    | split | with_reducible apply OnlyM.update

theorem execUsbVbusChange_only {M0 : Nat} {s0 : State} {on : Bool} {s : State} (kp_s : OnlyM M0 s0 s)
    (hm : Sub 0x10000000000000000000000000000000000000000000000000000000000000000000002000 M0 := by exact Sub.of hm rfl) :
    OnlyOut M0 s0 (execUsbVbusChange on s) := by
  unfold execUsbVbusChange
  repeat' first
    | (refine Sub.of hm ?_; exact Eq.refl _) | (refine Sub.bit hm ?_; exact Eq.refl _)
    | (refine Or.inl (Sub.bit hm ?_); exact Eq.refl _) | with_reducible exact Or.inr rfl
    | with_reducible refine State.set_only SVC_STAT_STATE_holds ?_ ?_
    | with_reducible refine State.set_only SVC_STAT_ADDR_holds ?_ ?_
    | with_reducible refine State.put_only SVC_STAT_SUSPEND_holds ?_ ?_
    | with_reducible refine State.put_only SVC_STAT_HS_holds ?_ ?_
    | intro _ | with_reducible assumption
    | with_reducible apply State.modSpine_only | with_reducible apply OnlyOut.next
    | with_reducible apply OnlyOut.fault | with_reducible apply OnlyOut.ite
    | with_reducible apply OnlyM.ite
    | (extract_lets +onlyGivenNames x; refine OnlyM.cut (M0 := M0) (s0 := s0) x ?_ ?_ <;> first | (intro hx; clear_value x) | unfold x)
    | (extract_lets +onlyGivenNames x; clear_value x)
    | split | with_reducible apply OnlyM.update

end Sys2Proof.Machine
end

