-- ==== Sys2Proof/Laws/OnlyVitrine.lean ====
section
/-! SUPPORT. Which parts each operation of `Machine/Vitrine.lean` may change, and that it keeps what every command keeps: each
lemma follows the operation's own text, piece by piece, and gives the parts as a set of part numbers. -/

namespace Sys2Proof.Machine

theorem State.keyCommand_only {M0 : Nat} {s0 : State} {s : State} {q : Requester} {code : Nat} {f : State → Nat × State} (kp_s : OnlyM M0 s0 s) (kp_f : ∀ t, OnlyM M0 s0 t → OnlyM M0 s0 (f t).2)
    (hm : Sub 0x400000000000400000000000000000000000001880000000000000000000000000000000000000000288000 M0 := by exact Sub.of hm rfl) :
    OnlyM M0 s0 (State.keyCommand s q code f) := by
  unfold State.keyCommand
  repeat' first
    | (refine Sub.of hm ?_; exact Eq.refl _) | (refine Sub.bit hm ?_; exact Eq.refl _)
    | (refine Or.inl (Sub.bit hm ?_); exact Eq.refl _) | with_reducible exact Or.inr rfl
    | with_reducible refine State.set_only VIT_KSTAT_STATE_holds ?_ ?_
    | with_reducible refine State.set_only VIT_KSTAT_RESULT_holds ?_ ?_
    | intro _ | with_reducible assumption
    | with_reducible apply kp_f | with_reducible apply State.hostWrite_only
    | with_reducible apply State.modVault_only
    | with_reducible apply State.modVault_only | with_reducible apply OnlyM.ite
    | exact rfl | exact Nat.le_refl _ | exact Nat.le_succ _
    | (extract_lets +onlyGivenNames x; refine OnlyM.cut (M0 := M0) (s0 := s0) x ?_ ?_ <;> first | (intro hx; clear_value x) | unfold x)
    | (extract_lets +onlyGivenNames x; clear_value x)
    | with_reducible (refine OnlyM.pair ?_ (by assumption))
    | split | with_reducible apply OnlyM.update

theorem State.loadSlot_only {M0 : Nat} {s0 : State} {s : State} {h : Nat} {attr : Word} {k : List Byte} {checkOk : Bool} (kp_s : OnlyM M0 s0 s)
    (hm : Sub 0x4002010000000000003011000000000000000000000000000000000000000000000000000008000C M0 := by exact Sub.of hm rfl) :
    OnlyM M0 s0 (State.loadSlot s h attr k checkOk) := by
  unfold State.loadSlot
  repeat' first
    | (refine Sub.of hm ?_; exact Eq.refl _) | (refine Sub.bit hm ?_; exact Eq.refl _)
    | with_reducible refine State.setWord_only (Part.holds.own (VIT_SLOT_STATE_holds ..)) ?_ ?_
    | intro _ | with_reducible assumption
    | with_reducible apply State.setKey_only
    | with_reducible apply State.tlog_only | with_reducible apply State.sealedState_only
    | with_reducible apply State.sealedFail_only | with_reducible apply OnlyM.ite
    | (extract_lets +onlyGivenNames x; refine OnlyM.cut (M0 := M0) (s0 := s0) x ?_ ?_ <;> first | (intro hx; clear_value x) | unfold x)
    | (extract_lets +onlyGivenNames x; clear_value x)
    | split

theorem execKeyWrite_only {M0 : Nat} {s0 : State} {q : Requester} {h : Fin 256} {checkOk : Bool} {s : State} (kp_s : OnlyM M0 s0 s)
    (hm : Sub 0x40000004002050000000000003011000000000188000000000000000000000000000000000000000028800C M0 := by exact Sub.of hm rfl) :
    OnlyOut M0 s0 (execKeyWrite q h checkOk s) := by
  unfold execKeyWrite
  repeat' first
    | (refine Sub.of hm ?_; exact Eq.refl _) | (refine Sub.bit hm ?_; exact Eq.refl _)
    | intro _ | with_reducible assumption
    | with_reducible apply State.keyCommand_only | with_reducible apply State.loadSlot_only
    | with_reducible apply OnlyOut.next | with_reducible apply OnlyOut.fault
    | with_reducible apply OnlyOut.ite | with_reducible apply OnlyM.ite
    | (extract_lets +onlyGivenNames x; refine OnlyM.cut (M0 := M0) (s0 := s0) x ?_ ?_ <;> first | (intro hx; clear_value x) | unfold x)
    | (extract_lets +onlyGivenNames x; clear_value x)
    | split

theorem execImport_only {M0 : Nat} {s0 : State} {q : Requester} {checkOk : Bool} {s : State} (kp_s : OnlyM M0 s0 s)
    (hm : Sub 0x40000004002050000000000003011000000000188000000000000000000000000000000000000000028800C M0 := by exact Sub.of hm rfl) :
    OnlyOut M0 s0 (execImport q checkOk s) := by
  unfold execImport
  repeat' first
    | (refine Sub.of hm ?_; exact Eq.refl _) | (refine Sub.bit hm ?_; exact Eq.refl _)
    | intro _ | with_reducible assumption
    | with_reducible apply State.keyCommand_only | with_reducible apply State.loadSlot_only
    | with_reducible apply OnlyOut.next | with_reducible apply OnlyOut.fault
    | with_reducible apply OnlyOut.ite | with_reducible apply OnlyM.ite
    | (extract_lets +onlyGivenNames x; refine OnlyM.cut (M0 := M0) (s0 := s0) x ?_ ?_ <;> first | (intro hx; clear_value x) | unfold x)
    | (extract_lets +onlyGivenNames x; clear_value x)
    | split

theorem execDerive_only {M0 : Nat} {s0 : State} {q : Requester} {h arg : Fin 256} {s : State} (kp_s : OnlyM M0 s0 s)
    (hm : Sub 0x40000004002050000000000003011000000000188000000000000000000000000000000000000000028800C M0 := by exact Sub.of hm rfl) :
    OnlyOut M0 s0 (execDerive q h arg s) := by
  unfold execDerive
  repeat' first
    | (refine Sub.of hm ?_; exact Eq.refl _) | (refine Sub.bit hm ?_; exact Eq.refl _)
    | intro _ | with_reducible assumption
    | with_reducible apply State.keyCommand_only | with_reducible apply State.loadSlot_only
    | with_reducible apply OnlyOut.next | with_reducible apply OnlyOut.fault
    | with_reducible apply OnlyOut.ite | with_reducible apply OnlyM.ite
    | (extract_lets +onlyGivenNames x; refine OnlyM.cut (M0 := M0) (s0 := s0) x ?_ ?_ <;> first | (intro hx; clear_value x) | unfold x)
    | (extract_lets +onlyGivenNames x; clear_value x)
    | split

theorem State.eraseSlot_only {M0 : Nat} {s0 : State} {s : State} {h : Nat} (kp_s : OnlyM M0 s0 s)
    (hm : Sub 0x20000000000000000000000000000000000000000000000000000000000000000000000080000 M0 := by exact Sub.of hm rfl) :
    OnlyM M0 s0 (State.eraseSlot s h) := by
  unfold State.eraseSlot
  repeat' first
    | (refine Sub.of hm ?_; exact Eq.refl _) | (refine Sub.bit hm ?_; exact Eq.refl _)
    | with_reducible refine State.setWord_only (Part.holds.own (VIT_SLOT_STATE_holds ..)) ?_ ?_
    | intro _ | with_reducible assumption
    | with_reducible apply State.setKey_only

theorem execErase_only {M0 : Nat} {s0 : State} {q : Requester} {h : Fin 256} {s : State} (kp_s : OnlyM M0 s0 s)
    (hm : Sub 0x40000004002050000000000003011000000000188000000000000000000000000000000000000000028800C M0 := by exact Sub.of hm rfl) :
    OnlyOut M0 s0 (execErase q h s) := by
  unfold execErase
  repeat' first
    | (refine Sub.of hm ?_; exact Eq.refl _) | (refine Sub.bit hm ?_; exact Eq.refl _)
    | intro _ | with_reducible assumption
    | with_reducible apply State.keyCommand_only | with_reducible apply State.eraseSlot_only
    | with_reducible apply State.tlog_only | with_reducible apply State.sealedState_only
    | with_reducible apply OnlyOut.next | with_reducible apply OnlyOut.fault
    | with_reducible apply OnlyOut.ite | with_reducible apply OnlyM.ite
    | (extract_lets +onlyGivenNames x; refine OnlyM.cut (M0 := M0) (s0 := s0) x ?_ ?_ <;> first | (intro hx; clear_value x) | unfold x)
    | (extract_lets +onlyGivenNames x; clear_value x)
    | split

theorem execLc_only {M0 : Nat} {s0 : State} {q : Requester} {arg : Byte} {s : State} (kp_s : OnlyM M0 s0 s)
    (hm : Sub 0x40000004000050000000000003011000000000188000000000000000000000000000000000000000028800C M0 := by exact Sub.of hm rfl) :
    OnlyOut M0 s0 (execLc q arg s) := by
  unfold execLc
  repeat' first
    | (refine Sub.of hm ?_; exact Eq.refl _) | (refine Sub.bit hm ?_; exact Eq.refl _)
    | (refine Or.inl (Sub.bit hm ?_); exact Eq.refl _) | with_reducible exact Or.inr rfl
    | with_reducible refine State.put_only VIT_STAT_LC_PEND_holds ?_ ?_
    | intro _ | with_reducible assumption
    | with_reducible apply State.keyCommand_only | with_reducible apply State.modVault_only | with_reducible apply State.raise_only
    | with_reducible apply State.tlog_only | with_reducible apply OnlyOut.next
    | with_reducible apply OnlyOut.fault | with_reducible apply OnlyOut.ite
    | with_reducible apply State.modVault_only | with_reducible apply OnlyM.ite
    | exact rfl | exact Nat.le_refl _ | exact Nat.le_succ _
    | (extract_lets +onlyGivenNames x; refine OnlyM.cut (M0 := M0) (s0 := s0) x ?_ ?_ <;> first | (intro hx; clear_value x) | unfold x)
    | (extract_lets +onlyGivenNames x; clear_value x)
    | split | with_reducible apply OnlyM.update

theorem execRoot_only {M0 : Nat} {s0 : State} {q : Requester} {s : State} (kp_s : OnlyM M0 s0 s)
    (hm : Sub 0x40000004000050000000000003011000000000188000000000000000000000000000000000000000028800C M0 := by exact Sub.of hm rfl) :
    OnlyOut M0 s0 (execRoot q s) := by
  unfold execRoot
  repeat' first
    | (refine Sub.of hm ?_; exact Eq.refl _) | (refine Sub.bit hm ?_; exact Eq.refl _)
    | (refine Or.inl (Sub.bit hm ?_); exact Eq.refl _) | with_reducible exact Or.inr rfl
    | with_reducible refine State.put_only VIT_STAT_CR_holds ?_ ?_
    | intro _ | with_reducible assumption
    | with_reducible apply State.keyCommand_only | with_reducible apply State.modVault_only | with_reducible apply State.tlog_only
    | with_reducible apply OnlyOut.next | with_reducible apply OnlyOut.fault
    | with_reducible apply OnlyOut.ite | with_reducible apply State.modVault_only
    | with_reducible apply OnlyM.ite
    | exact rfl | exact Nat.le_refl _ | exact Nat.le_succ _
    | (extract_lets +onlyGivenNames x; refine OnlyM.cut (M0 := M0) (s0 := s0) x ?_ ?_ <;> first | (intro hx; clear_value x) | unfold x)
    | (extract_lets +onlyGivenNames x; clear_value x)
    | split | with_reducible apply OnlyM.update

theorem execKeyCommandDone_only {M0 : Nat} {s0 : State} {s : State} (kp_s : OnlyM M0 s0 s)
    (hm : Sub 0x40000000000003011000000000000000000000000000000000000000000000000000008000C M0 := by exact Sub.of hm rfl) :
    OnlyOut M0 s0 (execKeyCommandDone s) := by
  unfold execKeyCommandDone
  repeat' first
    | (refine Sub.of hm ?_; exact Eq.refl _) | (refine Sub.bit hm ?_; exact Eq.refl _)
    | (refine Or.inl (Sub.bit hm ?_); exact Eq.refl _) | with_reducible exact Or.inr rfl
    | with_reducible refine State.set_only VIT_KSTAT_STATE_holds ?_ ?_
    | with_reducible refine State.set_only VIT_KSTAT_RESULT_holds ?_ ?_
    | intro _ | with_reducible assumption
    | with_reducible apply State.modVault_only
    | with_reducible apply State.raise_only | with_reducible apply OnlyOut.next
    | with_reducible apply OnlyOut.fault | with_reducible apply OnlyOut.ite
    | with_reducible apply OnlyOpt.none | with_reducible apply OnlyOpt.some
    | with_reducible apply State.modVault_only | with_reducible apply OnlyM.ite
    | exact rfl | exact Nat.le_refl _ | exact Nat.le_succ _
    | (extract_lets +onlyGivenNames x; refine OnlyM.cut (M0 := M0) (s0 := s0) x ?_ ?_ <;> first | (intro hx; clear_value x) | unfold x)
    | (extract_lets +onlyGivenNames x; clear_value x)
    | split | with_reducible apply OnlyM.update

theorem State.auDone_only {M0 : Nat} {s0 : State} {s : State} {bank r outlen fv : Nat} (kp_s : OnlyM M0 s0 s)
    (hm : Sub 0x14000000000000000000000000000000000000000000000000000000000000000000000000000 M0 := by exact Sub.of hm rfl) :
    OnlyM M0 s0 (State.auDone s bank r outlen fv) := by
  unfold State.auDone
  repeat' first
    | (refine Sub.of hm ?_; exact Eq.refl _) | (refine Sub.bit hm ?_; exact Eq.refl _)
    | with_reducible refine State.set_only (VIT_AU_STAT_STATE_holds ..) ?_ ?_
    | with_reducible refine State.set_only (VIT_AU_STAT_RES_holds ..) ?_ ?_
    | with_reducible refine State.set_only (VIT_AU_STAT_OUTLEN_holds ..) ?_ ?_
    | with_reducible refine State.set_only (VIT_AU_FV_FV_holds ..) ?_ ?_
    | intro _ | with_reducible assumption

theorem State.auSign_only {M0 : Nat} {s0 : State} {s : State} {q : Requester} {bank b len : Nat} {m : MramSeen} (kp_s : OnlyM M0 s0 s)
    (hm : Sub 0x7081400000000000003011000000020000000000000000000000000000000000000000000009800D M0 := by exact Sub.of hm rfl) :
    OnlyM M0 s0 (State.auSign s q bank b len m) := by
  unfold State.auSign
  repeat' first
    | (refine Sub.of hm ?_; exact Eq.refl _) | (refine Sub.bit hm ?_; exact Eq.refl _)
    | (refine Or.inl (Sub.bit hm ?_); exact Eq.refl _) | with_reducible exact Or.inr rfl
    | intro _ | with_reducible assumption
    | with_reducible apply State.auDone_only | with_reducible apply State.advance_only
    | with_reducible apply State.hallStore_only | with_reducible apply OnlyOpt.none
    | with_reducible apply OnlyOpt.some | with_reducible apply OnlyM.ite
    | (extract_lets +onlyGivenNames x; refine OnlyM.cut (M0 := M0) (s0 := s0) x ?_ ?_ <;> first | (intro hx; clear_value x) | unfold x)
    | (extract_lets +onlyGivenNames x; clear_value x)
    | with_reducible (refine OnlyM.pair ?_ (by assumption))
    | split | with_reducible apply OnlyM.update

theorem State.verifyFailed_only {M0 : Nat} {s0 : State} {s : State} {bank b r fv : Nat} (kp_s : OnlyM M0 s0 s)
    (hm : Sub 0x1400000000000003011000000000000000000000000000000000000000000000000000000000C M0 := by exact Sub.of hm rfl) :
    OnlyM M0 s0 (State.verifyFailed s bank b r fv) := by
  unfold State.verifyFailed
  repeat' first
    | (refine Sub.of hm ?_; exact Eq.refl _) | (refine Sub.bit hm ?_; exact Eq.refl _)
    | intro _ | with_reducible assumption
    | with_reducible apply State.auDone_only | with_reducible apply State.raiseOncePerMs_only

theorem State.auVerify_only {M0 : Nat} {s0 : State} {s : State} {q : Requester} {bank b len : Nat} {m : MramSeen} (kp_s : OnlyM M0 s0 s)
    (hm : Sub 0x7081400000000000003011000000020000000000000000000000000000000000000000000009800D M0 := by exact Sub.of hm rfl) :
    OnlyM M0 s0 (State.auVerify s q bank b len m) := by
  unfold State.auVerify
  repeat' first
    | (refine Sub.of hm ?_; exact Eq.refl _) | (refine Sub.bit hm ?_; exact Eq.refl _)
    | (refine Or.inl (Sub.bit hm ?_); exact Eq.refl _) | with_reducible exact Or.inr rfl
    | intro _ | with_reducible assumption
    | with_reducible apply State.auDone_only | with_reducible apply State.verifyFailed_only
    | with_reducible apply State.advance_only | with_reducible apply State.hallStore_only
    | with_reducible apply OnlyOpt.none | with_reducible apply OnlyOpt.some
    | with_reducible apply OnlyM.ite
    | (extract_lets +onlyGivenNames x; refine OnlyM.cut (M0 := M0) (s0 := s0) x ?_ ?_ <;> first | (intro hx; clear_value x) | unfold x)
    | (extract_lets +onlyGivenNames x; clear_value x)
    | with_reducible (refine OnlyM.pair ?_ (by assumption))
    | split | with_reducible apply OnlyM.update

theorem State.auBank_only {M0 : Nat} {s0 : State} {s : State} {q : Requester} {f : Nat → State → State} (kp_s : OnlyM M0 s0 s) (kp_f : ∀ k t, OnlyM M0 s0 t → OnlyM M0 s0 (f k t))
    (hm : Sub 0x400000000000000000000000000000000000001880000000000000000000000000000000000000000208000 M0 := by exact Sub.of hm rfl) :
    OnlyM M0 s0 (State.auBank s q f) := by
  unfold State.auBank
  repeat' first
    | (refine Sub.of hm ?_; exact Eq.refl _) | (refine Sub.bit hm ?_; exact Eq.refl _)
    | (refine Or.inl (Sub.bit hm ?_); exact Eq.refl _) | with_reducible exact Or.inr rfl
    | intro _ | with_reducible assumption
    | with_reducible apply kp_f | with_reducible apply State.openWrite_only
    | with_reducible apply State.hostWrite_only | with_reducible apply OnlyOpt.none
    | with_reducible apply OnlyOpt.some | with_reducible apply OnlyM.id
    | split | with_reducible apply OnlyM.update

theorem execSign_only {M0 : Nat} {s0 : State} {q : Requester} {b : Fin 1024} {len : Fin 4096} {m : MramSeen} {s : State} (kp_s : OnlyM M0 s0 s)
    (hm : Sub 0x40000007081400000000000003011000000020188000000000000000000000000000000000000000029800D M0 := by exact Sub.of hm rfl) :
    OnlyOut M0 s0 (execSign q b len m s) := by
  unfold execSign
  repeat' first
    | (refine Sub.of hm ?_; exact Eq.refl _) | (refine Sub.bit hm ?_; exact Eq.refl _)
    | intro _ | with_reducible assumption
    | with_reducible apply State.auBank_only | with_reducible apply State.auSign_only
    | with_reducible apply OnlyOut.next | with_reducible apply OnlyOut.fault
    | with_reducible apply OnlyOut.ite

theorem execVerify_only {M0 : Nat} {s0 : State} {q : Requester} {b : Fin 1024} {len : Fin 4096} {m : MramSeen} {s : State} (kp_s : OnlyM M0 s0 s)
    (hm : Sub 0x40000007081400000000000003011000000020188000000000000000000000000000000000000000029800D M0 := by exact Sub.of hm rfl) :
    OnlyOut M0 s0 (execVerify q b len m s) := by
  unfold execVerify
  repeat' first
    | (refine Sub.of hm ?_; exact Eq.refl _) | (refine Sub.bit hm ?_; exact Eq.refl _)
    | intro _ | with_reducible assumption
    | with_reducible apply State.auBank_only | with_reducible apply State.auVerify_only
    | with_reducible apply OnlyOut.next | with_reducible apply OnlyOut.fault
    | with_reducible apply OnlyOut.ite

theorem State.mcCommand_only {M0 : Nat} {s0 : State} {s : State} {q : Requester} {k v : Nat} {m : MramSeen} (kp_s : OnlyM M0 s0 s)
    (hm : Sub 0x40000007080000000000000003011000000000188000000000000000000000000000000000000000028800C M0 := by exact Sub.of hm rfl) :
    OnlyM M0 s0 (State.mcCommand s q k v m) := by
  unfold State.mcCommand
  repeat' first
    | (refine Sub.of hm ?_; exact Eq.refl _) | (refine Sub.bit hm ?_; exact Eq.refl _)
    | intro _ | with_reducible assumption
    | with_reducible apply State.openWrite_only | with_reducible apply State.advance_only
    | with_reducible apply OnlyM.ite
    | with_reducible (refine OnlyM.pair ?_ (by assumption))
    | split

theorem execInc_only {M0 : Nat} {s0 : State} {q : Requester} {k : Fin 64} {m : MramSeen} {s : State} (kp_s : OnlyM M0 s0 s)
    (hm : Sub 0x40000007080000000000000003011000000000188000000000000000000000000000000000000000028800C M0 := by exact Sub.of hm rfl) :
    OnlyOut M0 s0 (execInc q k m s) := by
  unfold execInc
  repeat' first
    | (refine Sub.of hm ?_; exact Eq.refl _) | (refine Sub.bit hm ?_; exact Eq.refl _)
    | intro _ | with_reducible assumption
    | with_reducible apply State.mcCommand_only | with_reducible apply OnlyOut.next
    | with_reducible apply OnlyOut.fault | with_reducible apply OnlyOut.ite

theorem execRaise_only {M0 : Nat} {s0 : State} {q : Requester} {k : Fin 64} {m : MramSeen} {s : State} (kp_s : OnlyM M0 s0 s)
    (hm : Sub 0x40000007080000000000000003011000000000188000000000000000000000000000000000000000028800C M0 := by exact Sub.of hm rfl) :
    OnlyOut M0 s0 (execRaise q k m s) := by
  unfold execRaise
  repeat' first
    | (refine Sub.of hm ?_; exact Eq.refl _) | (refine Sub.bit hm ?_; exact Eq.refl _)
    | intro _ | with_reducible assumption
    | with_reducible apply State.mcCommand_only | with_reducible apply OnlyOut.next
    | with_reducible apply OnlyOut.fault | with_reducible apply OnlyOut.ite

theorem execTlogAppend_only {M0 : Nat} {s0 : State} {q : Requester} {d : BitVec 64} {s : State} (kp_s : OnlyM M0 s0 s)
    (hm : Sub 0x40000004000000000000000003011000000000188000000000000000000000000000000000000000028800C M0 := by exact Sub.of hm rfl) :
    OnlyOut M0 s0 (execTlogAppend q d s) := by
  unfold execTlogAppend
  repeat' first
    | (refine Sub.of hm ?_; exact Eq.refl _) | (refine Sub.bit hm ?_; exact Eq.refl _)
    | (refine Or.inl (Sub.bit hm ?_); exact Eq.refl _) | with_reducible exact Or.inr rfl
    | intro _ | with_reducible assumption
    | with_reducible apply State.openWrite_only | with_reducible apply State.tlog_only
    | with_reducible apply State.access_only | with_reducible apply State.answerDone_only
    | with_reducible apply OnlyOut.next | with_reducible apply OnlyOut.fault
    | with_reducible apply OnlyOut.ite
    | (extract_lets +onlyGivenNames x; refine OnlyM.cut (M0 := M0) (s0 := s0) x ?_ ?_ <;> first | (intro hx; clear_value x) | unfold x)
    | (extract_lets +onlyGivenNames x; clear_value x)
    | split | with_reducible apply OnlyM.update

theorem State.zeroise_only {M0 : Nat} {s0 : State} {s : State} (kp_s : OnlyM M0 s0 s)
    (hm : Sub 0x20000000000000000000000000000000000000000000000000000000000000000000000080000 M0 := by exact Sub.of hm rfl) :
    OnlyM M0 s0 (State.zeroise s) := by
  unfold State.zeroise
  repeat' first
    | (refine Sub.of hm ?_; exact Eq.refl _) | (refine Sub.bit hm ?_; exact Eq.refl _)
    | intro _ | with_reducible assumption
    | with_reducible apply State.eraseSlot_only | with_reducible apply State.each_only

theorem State.tamperFlush_only {M0 : Nat} {s0 : State} {s : State} (kp_s : OnlyM M0 s0 s)
    (hm : Sub 0x4000000000000000003011000000000000000000000000000000000000000000000000000008000C M0 := by exact Sub.of hm rfl) :
    OnlyM M0 s0 (State.tamperFlush s) := by
  unfold State.tamperFlush
  repeat' first
    | (refine Sub.of hm ?_; exact Eq.refl _) | (refine Sub.bit hm ?_; exact Eq.refl _)
    | (refine Or.inl (Sub.bit hm ?_); exact Eq.refl _) | with_reducible exact Or.inr rfl
    | intro _ | with_reducible assumption
    | with_reducible apply State.modVault_only | with_reducible apply State.tlogAt_only
    | with_reducible apply State.each_only | with_reducible apply State.modVault_only
    | exact rfl | exact Nat.le_refl _ | exact Nat.le_succ _
    | (extract_lets +onlyGivenNames x; refine OnlyM.cut (M0 := M0) (s0 := s0) x ?_ ?_ <;> first | (intro hx; clear_value x) | unfold x)
    | (extract_lets +onlyGivenNames x; clear_value x)
    | with_reducible apply OnlyM.update

theorem execTamperEvent_only {M0 : Nat} {s0 : State} {m : MramSeen} {s : State} (kp_s : OnlyM M0 s0 s)
    (hm : Sub 0x70A2000000000000003011000000000000000000000000000000000000000000000000000008000C M0 := by exact Sub.of hm rfl) :
    OnlyOut M0 s0 (execTamperEvent m s) := by
  unfold execTamperEvent
  repeat' first
    | (refine Sub.of hm ?_; exact Eq.refl _) | (refine Sub.bit hm ?_; exact Eq.refl _)
    | (refine Or.inl (Sub.bit hm ?_); exact Eq.refl _) | with_reducible exact Or.inr rfl
    | with_reducible refine State.put_only VAULT_STAT_TAMPER_holds ?_ ?_
    | intro _ | with_reducible assumption
    | with_reducible apply State.modVault_only
    | with_reducible apply State.zeroise_only | with_reducible apply State.advance_only
    | with_reducible apply State.raise_only | with_reducible apply State.report_only
    | with_reducible apply State.tamperFlush_only | with_reducible apply OnlyOut.next
    | with_reducible apply OnlyOut.fault | with_reducible apply OnlyOut.ite
    | with_reducible apply State.modVault_only | with_reducible apply OnlyM.ite
    | exact rfl | exact Nat.le_refl _ | exact Nat.le_succ _
    | (extract_lets +onlyGivenNames x; refine OnlyM.cut (M0 := M0) (s0 := s0) x ?_ ?_ <;> first | (intro hx; clear_value x) | unfold x)
    | (extract_lets +onlyGivenNames x; clear_value x)
    | with_reducible (refine OnlyM.pair ?_ (by assumption))
    | split | with_reducible apply OnlyM.update

theorem execTamperRearm_only {M0 : Nat} {s0 : State} {s : State} (kp_s : OnlyM M0 s0 s)
    (hm : Sub 0x200000000000000000000000000000000000000000000000000000000000000000000000080000 M0 := by exact Sub.of hm rfl) :
    OnlyOut M0 s0 (execTamperRearm s) := by
  unfold execTamperRearm
  repeat' first
    | (refine Sub.of hm ?_; exact Eq.refl _) | (refine Sub.bit hm ?_; exact Eq.refl _)
    | (refine Or.inl (Sub.bit hm ?_); exact Eq.refl _) | with_reducible exact Or.inr rfl
    | with_reducible refine State.put_only VAULT_STAT_TAMPER_holds ?_ ?_
    | intro _ | with_reducible assumption
    | with_reducible apply State.modVault_only
    | with_reducible apply OnlyOut.next | with_reducible apply OnlyOut.fault
    | with_reducible apply OnlyOut.ite | with_reducible apply State.modVault_only
    | exact rfl | exact Nat.le_refl _ | exact Nat.le_succ _
    | with_reducible apply OnlyM.update

end Sys2Proof.Machine
end

