-- ==== Sys2Proof/Laws/OnlyResetOps.lean ====
section
/-! SUPPORT. Which parts each operation of `Machine/ResetOps.lean` may change, and that it keeps what every command keeps: each
lemma follows the operation's own text, piece by piece, and gives the parts as a set of part numbers. -/

namespace Sys2Proof.Machine

theorem State.applyLc_only {M0 : Nat} {s0 : State} {s : State} (kp_s : OnlyM M0 s0 s)
    (hm : Sub 0x20120000000000000000000000000000000000000000000000000000000000000000000080008 M0 := by exact Sub.of hm rfl) :
    OnlyM M0 s0 (State.applyLc s) := by
  unfold State.applyLc
  repeat' first
    | (refine Sub.of hm ?_; exact Eq.refl _) | (refine Sub.bit hm ?_; exact Eq.refl _)
    | (refine Or.inl (Sub.bit hm ?_); exact Eq.refl _) | with_reducible exact Or.inr rfl
    | with_reducible refine State.set_only VIT_STAT_LC_holds ?_ ?_
    | with_reducible refine State.put_only VIT_STAT_LC_PEND_holds ?_ ?_
    | with_reducible refine State.set_only SVC_DBG_LC_holds ?_ ?_
    | with_reducible refine State.set_only (VIT_SLOT_STATE_holds ..) ?_ ?_
    | intro _ | with_reducible assumption
    | with_reducible apply State.modVault_only | with_reducible apply State.zeroise_only
    | with_reducible apply State.sealedState_only | with_reducible apply State.each_only
    | with_reducible apply OnlyOpt.none | with_reducible apply OnlyOpt.some
    | with_reducible apply State.modVault_only | with_reducible apply OnlyM.ite
    | exact rfl | exact Nat.le_refl _ | exact Nat.le_succ _
    | (extract_lets +onlyGivenNames x; refine OnlyM.cut (M0 := M0) (s0 := s0) x ?_ ?_ <;> first | (intro hx; clear_value x) | unfold x)
    | (extract_lets +onlyGivenNames x; clear_value x)
    | split | with_reducible apply OnlyM.update

theorem resetRegs_wf {k : ResetKind} {m : SMap Word} {a : Nat} (h : smapWfFrom resetWord a m = true) :
    smapWfFrom resetWord a (resetRegs k m) = true := by
  induction m generalizing a with
  | nil => exact h
  | cons e m ih =>
    obtain ⟨b, w⟩ := e
    simp only [smapWfFrom, Bool.and_eq_true, decide_eq_true_eq] at h
    unfold resetRegs
    dsimp only
    split
    · exact smapWfFrom_mono (b := b + 1) (by omega) (ih h.2)
    · simp only [smapWfFrom, Bool.and_eq_true, decide_eq_true_eq]
      exact ⟨⟨h.1.1, ‹_›⟩, ih h.2⟩

theorem State.resetPackage_only {M0 : Nat} {s0 s : State} {k : ResetKind} (hs : OnlyM M0 s0 s)
    (hm : Sub 0x20120000000000000000000000000000000000000000000000000000000000000000000FFFFFD M0 := by exact Sub.of hm rfl) :
    OnlyM M0 s0 (s.resetPackage k) := by
  unfold State.resetPackage
  extract_lets img img' upd v vault time ports led spine p s'
  have h : OnlyM M0 s0 s' :=
    { words := fun _ ha => absurd trivial (ha .anyReg (Sub.bit hm rfl))
      mem := Or.inl (Sub.bit hm rfl)
      pending := hs.pending
      led := Or.inl (Sub.bit hm rfl)
      cur := Or.inl (Sub.bit hm rfl)
      time := Or.inl (Sub.bit hm rfl)
      pwr := Or.inl (Sub.bit hm rfl)
      ports := Or.inl (Sub.bit hm rfl)
      obs := Or.inl (Sub.bit hm rfl)
      links := Or.inl (Sub.bit hm rfl)
      gov := Or.inl (Sub.bit hm rfl)
      store := Or.inl (Sub.bit hm rfl)
      cat := Or.inl (Sub.bit hm rfl)
      gw := Or.inl (Sub.bit hm rfl)
      spine := Or.inl (Sub.bit hm rfl)
      con := Or.inl (Sub.bit hm rfl)
      cores := Or.inl (Sub.bit hm rfl)
      halls := Or.inl (Sub.bit hm rfl)
      img := Or.inl (Sub.bit hm rfl)
      upd := Or.inl (Sub.bit hm rfl)
      vault := Or.inl (Sub.bit hm rfl)
      latches := Or.inl (Sub.bit hm rfl)
      resp := Or.inl (Sub.bit hm rfl)
      out := Or.inl (Sub.bit hm rfl)
      keeps := ⟨fun x => resetRegs_wf (hs.keeps.regs x), fun _ => rfl, hs.keeps.pending, hs.keeps.counters, hs.keeps.tlog⟩ }
  exact OnlyM.ite (State.applyLc_only h) h

theorem State.dfuStart_only {M0 : Nat} {s0 : State} {s : State} (kp_s : OnlyM M0 s0 s)
    (hm : Sub 0x40000000000000000000000000000000000000000000000000000000000000000000000000 M0 := by exact Sub.of hm rfl) :
    OnlyM M0 s0 (State.dfuStart s) := by
  unfold State.dfuStart
  repeat' first
    | (refine Sub.of hm ?_; exact Eq.refl _) | (refine Sub.bit hm ?_; exact Eq.refl _)
    | with_reducible refine State.set_only SVC_DFU_NEXT_BLOCK_holds ?_ ?_
    | intro _ | with_reducible assumption

theorem State.ramorny_only {M0 : Nat} {s0 : State} {s : State} {cause : Nat} (kp_s : OnlyM M0 s0 s)
    (hm : Sub 0x10000005000000000003011000000000000000000000000000000000000000000000000000000000C M0 := by exact Sub.of hm rfl) :
    OnlyM M0 s0 (State.ramorny s cause) := by
  unfold State.ramorny
  repeat' first
    | (refine Sub.of hm ?_; exact Eq.refl _) | (refine Sub.bit hm ?_; exact Eq.refl _)
    | with_reducible refine State.put_only SVC_STAT_RAMORNY_holds ?_ ?_
    | with_reducible refine State.put_only UPD_STAT_RAMORNY_holds ?_ ?_
    | intro _ | with_reducible assumption | with_reducible apply State.dfuStart_only
    | with_reducible apply State.raise_only | with_reducible apply OnlyM.ite
    | split

theorem State.checkSealed_only {M0 : Nat} {s0 : State} {s : State} {bad : List (Fin 32)} (kp_s : OnlyM M0 s0 s)
    (hm : Sub 0x2010000000000003011000000000000000000000000000000000000000000000000000000000C M0 := by exact Sub.of hm rfl) :
    OnlyM M0 s0 (State.checkSealed s bad) := by
  unfold State.checkSealed
  repeat' first
    | (refine Sub.of hm ?_; exact Eq.refl _) | (refine Sub.bit hm ?_; exact Eq.refl _)
    | intro _ | with_reducible assumption
    | with_reducible apply State.sealedFail_only | with_reducible apply State.each_only
    | with_reducible apply OnlyM.ite
    | split

end Sys2Proof.Machine
end

