-- ==== Sys2Proof/Laws/OnlyTime.lean ====
section
/-! SUPPORT. Which parts each operation of `Machine/Time.lean` may change, and that it keeps what every command keeps: each
lemma follows the operation's own text, piece by piece, and gives the parts as a set of part numbers. -/

namespace Sys2Proof.Machine

theorem State.timeWrite_only {M0 : Nat} {s0 : State} {s : State} {q : Requester} {off : Nat} {f : State → State} (kp_s : OnlyM M0 s0 s) (kp_f : ∀ t, OnlyM M0 s0 t → OnlyM M0 s0 (f t))
    (hm : Sub 0x400000000000000000000000000000000000001880000000000000000000000000000000000000000208000 M0 := by exact Sub.of hm rfl) :
    OnlyM M0 s0 (State.timeWrite s q off f) := by
  unfold State.timeWrite
  repeat' first
    | (refine Sub.of hm ?_; exact Eq.refl _) | (refine Sub.bit hm ?_; exact Eq.refl _)
    | (refine Or.inl (Sub.bit hm ?_); exact Eq.refl _) | with_reducible exact Or.inr rfl
    | intro _ | with_reducible assumption
    | with_reducible apply kp_f | with_reducible apply State.access_only
    | with_reducible apply State.answerDone_only
    | (extract_lets +onlyGivenNames x; refine OnlyM.cut (M0 := M0) (s0 := s0) x ?_ ?_ <;> first | (intro hx; clear_value x) | unfold x)
    | (extract_lets +onlyGivenNames x; clear_value x)
    | split | with_reducible apply OnlyM.update

theorem State.incLow_only {M0 : Nat} {s0 : State} {s : State} {w : Word} (kp_s : OnlyM M0 s0 s)
    (hm : Sub 0x10 M0 := by exact Sub.of hm rfl) :
    OnlyM M0 s0 (State.incLow s w) := by
  unfold State.incLow
  repeat' first
    | (refine Sub.of hm ?_; exact Eq.refl _) | (refine Sub.bit hm ?_; exact Eq.refl _)
    | (refine Or.inl (Sub.bit hm ?_); exact Eq.refl _) | with_reducible exact Or.inr rfl
    | intro _ | with_reducible assumption
    | with_reducible apply State.modTime_only
    | with_reducible apply OnlyM.update

theorem State.incHigh_only {M0 : Nat} {s0 : State} {s : State} {w : Word} (kp_s : OnlyM M0 s0 s)
    (hm : Sub 0x3011000009000000000000000000000000000000000000000000000000001C M0 := by exact Sub.of hm rfl) :
    OnlyM M0 s0 (State.incHigh s w) := by
  unfold State.incHigh
  repeat' first
    | (refine Sub.of hm ?_; exact Eq.refl _) | (refine Sub.bit hm ?_; exact Eq.refl _)
    | (refine Or.inl (Sub.bit hm ?_); exact Eq.refl _) | with_reducible exact Or.inr rfl
    | with_reducible refine State.set_only TIME_INC_INC_holds ?_ ?_
    | with_reducible refine State.put_only TIME_STAT_CLAMP_holds ?_ ?_
    | intro _ | with_reducible assumption
    | with_reducible apply State.modTime_only | with_reducible apply State.raise_only
    | with_reducible apply OnlyOpt.none | with_reducible apply OnlyOpt.some
    | with_reducible apply OnlyM.ite
    | (extract_lets +onlyGivenNames x; refine OnlyM.cut (M0 := M0) (s0 := s0) x ?_ ?_ <;> first | (intro hx; clear_value x) | unfold x)
    | (extract_lets +onlyGivenNames x; clear_value x)
    | split | with_reducible apply OnlyM.update

theorem execIncLowWrite_only {M0 : Nat} {s0 : State} {q : Requester} {w : Word} {s : State} (kp_s : OnlyM M0 s0 s)
    (hm : Sub 0x400000000000000000000000000000000000001880000000000000000000000000000000000000000208010 M0 := by exact Sub.of hm rfl) :
    OnlyOut M0 s0 (execIncLowWrite q w s) := by
  unfold execIncLowWrite
  repeat' first
    | (refine Sub.of hm ?_; exact Eq.refl _) | (refine Sub.bit hm ?_; exact Eq.refl _)
    | intro _ | with_reducible assumption
    | with_reducible apply State.timeWrite_only | with_reducible apply State.incLow_only
    | with_reducible apply OnlyOut.next | with_reducible apply OnlyOut.fault
    | with_reducible apply OnlyOut.ite

theorem execIncHighWrite_only {M0 : Nat} {s0 : State} {q : Requester} {w : Word} {s : State} (kp_s : OnlyM M0 s0 s)
    (hm : Sub 0x40000000000000000000000003011000009000188000000000000000000000000000000000000000020801C M0 := by exact Sub.of hm rfl) :
    OnlyOut M0 s0 (execIncHighWrite q w s) := by
  unfold execIncHighWrite
  repeat' first
    | (refine Sub.of hm ?_; exact Eq.refl _) | (refine Sub.bit hm ?_; exact Eq.refl _)
    | intro _ | with_reducible assumption
    | with_reducible apply State.timeWrite_only | with_reducible apply State.incHigh_only
    | with_reducible apply OnlyOut.next | with_reducible apply OnlyOut.fault
    | with_reducible apply OnlyOut.ite

theorem State.timeErr_only {M0 : Nat} {s0 : State} {s : State} (kp_s : OnlyM M0 s0 s)
    (hm : Sub 0x10000000000000000000000000000000000000000000000000000 M0 := by exact Sub.of hm rfl) :
    OnlyM M0 s0 (State.timeErr s) := by
  unfold State.timeErr
  repeat' first
    | (refine Sub.of hm ?_; exact Eq.refl _) | (refine Sub.bit hm ?_; exact Eq.refl _)
    | with_reducible refine State.put_only TIME_STAT_CMDERR_holds ?_ ?_
    | intro _ | with_reducible assumption

theorem State.stepRefuse_only {M0 : Nat} {s0 : State} {s : State} {detail : Nat} (kp_s : OnlyM M0 s0 s)
    (hm : Sub 0x3011000101000000000000000000000000000000000000000000000000000C M0 := by exact Sub.of hm rfl) :
    OnlyM M0 s0 (State.stepRefuse s detail) := by
  unfold State.stepRefuse
  repeat' first
    | (refine Sub.of hm ?_; exact Eq.refl _) | (refine Sub.bit hm ?_; exact Eq.refl _)
    | with_reducible refine State.put_only TIME_STAT_JREF_holds ?_ ?_
    | with_reducible refine State.set_only TIME_JREF_NS_holds ?_ ?_
    | intro _ | with_reducible assumption
    | with_reducible apply State.raise_only

theorem State.stepCmd_only {M0 : Nat} {s0 : State} {s : State} {force : Bool} (kp_s : OnlyM M0 s0 s)
    (hm : Sub 0x3011000101000000000000000000000000000000000000000000000000001C M0 := by exact Sub.of hm rfl) :
    OnlyM M0 s0 (State.stepCmd s force) := by
  unfold State.stepCmd
  repeat' first
    | (refine Sub.of hm ?_; exact Eq.refl _) | (refine Sub.bit hm ?_; exact Eq.refl _)
    | (refine Or.inl (Sub.bit hm ?_); exact Eq.refl _) | with_reducible exact Or.inr rfl
    | intro _ | with_reducible assumption
    | with_reducible apply State.stepRefuse_only | with_reducible apply State.modTime_only
    | with_reducible apply OnlyM.ite
    | (extract_lets +onlyGivenNames x; refine OnlyM.cut (M0 := M0) (s0 := s0) x ?_ ?_ <;> first | (intro hx; clear_value x) | unfold x)
    | (extract_lets +onlyGivenNames x; clear_value x)
    | split | with_reducible apply OnlyM.update

theorem State.timeCmd_only {M0 : Nat} {s0 : State} {s : State} {q : Requester} {f : State → State} (kp_s : OnlyM M0 s0 s) (kp_f : ∀ t, OnlyM M0 s0 t → OnlyM M0 s0 (f t))
    (hm : Sub 0x400000000000000000000000000000000010001880000000000000000000000000000000000000000208000 M0 := by exact Sub.of hm rfl) :
    OnlyM M0 s0 (State.timeCmd s q f) := by
  unfold State.timeCmd
  repeat' first
    | (refine Sub.of hm ?_; exact Eq.refl _) | (refine Sub.bit hm ?_; exact Eq.refl _)
    | intro _ | with_reducible assumption
    | with_reducible apply kp_f | with_reducible apply State.timeWrite_only
    | with_reducible apply State.timeErr_only | with_reducible apply OnlyM.ite
    | split

theorem execStep_only {M0 : Nat} {s0 : State} {q : Requester} {s : State} (kp_s : OnlyM M0 s0 s)
    (hm : Sub 0x40000000000000000000000003011000101000188000000000000000000000000000000000000000020801C M0 := by exact Sub.of hm rfl) :
    OnlyOut M0 s0 (execStep q s) := by
  unfold execStep
  repeat' first
    | (refine Sub.of hm ?_; exact Eq.refl _) | (refine Sub.bit hm ?_; exact Eq.refl _)
    | intro _ | with_reducible assumption
    | with_reducible apply State.timeCmd_only | with_reducible apply State.stepCmd_only
    | with_reducible apply OnlyOut.next | with_reducible apply OnlyOut.fault
    | with_reducible apply OnlyOut.ite

theorem execStepForced_only {M0 : Nat} {s0 : State} {q : Requester} {s : State} (kp_s : OnlyM M0 s0 s)
    (hm : Sub 0x40000000000000000000000003011000101000188000000000000000000000000000000000000000020801C M0 := by exact Sub.of hm rfl) :
    OnlyOut M0 s0 (execStepForced q s) := by
  unfold execStepForced
  repeat' first
    | (refine Sub.of hm ?_; exact Eq.refl _) | (refine Sub.bit hm ?_; exact Eq.refl _)
    | intro _ | with_reducible assumption
    | with_reducible apply State.timeCmd_only | with_reducible apply State.stepCmd_only
    | with_reducible apply OnlyOut.next | with_reducible apply OnlyOut.fault
    | with_reducible apply OnlyOut.ite

theorem State.moveDeadlines_only {M0 : Nat} {s0 : State} {s : State} {o : Int} (kp_s : OnlyM M0 s0 s)
    (hm : Sub 0x1000000000000000000000000000000 M0 := by exact Sub.of hm rfl) :
    OnlyM M0 s0 (State.moveDeadlines s o) := by
  unfold State.moveDeadlines
  repeat' first
    | (refine Sub.of hm ?_; exact Eq.refl _) | (refine Sub.bit hm ?_; exact Eq.refl _)

    | with_reducible refine State.setStamp_only (Part.holds.own (MOP_DESC_W_holds ..)) (MOP_DESC_W_next ..) ?_ ?_
    | intro _ | with_reducible assumption | with_reducible apply State.each_only
    | with_reducible apply OnlyM.ite
    | (extract_lets +onlyGivenNames x; refine OnlyM.cut (M0 := M0) (s0 := s0) x ?_ ?_ <;> first | (intro hx; clear_value x) | unfold x)
    | (extract_lets +onlyGivenNames x; clear_value x)
    | split

theorem State.forcedStep_only {M0 : Nat} {s0 : State} {s : State} {o : Int} {old : Nat} (kp_s : OnlyM M0 s0 s)
    (hm : Sub 0x8000000000301100000102004000316403C00000014C180000008000000000000001B4CD M0 := by exact Sub.of hm rfl) :
    OnlyM M0 s0 (State.forcedStep s o old) := by
  unfold State.forcedStep
  repeat' first
    | (refine Sub.of hm ?_; exact Eq.refl _) | (refine Sub.bit hm ?_; exact Eq.refl _)
    | with_reducible refine State.setInt_only (ENG_TCMP_NS_holds ..) ?_ ?_
    | intro _ | with_reducible assumption
    | with_reducible apply State.forcedCopies_only | with_reducible apply State.moveDeadlines_only
    | with_reducible apply State.setMonNext_only
    | with_reducible apply State.reschedule_only | with_reducible apply State.cenAbort_only
    | with_reducible apply State.clearTrackers_only | with_reducible apply State.setTrust_only
    | with_reducible apply State.each_only | with_reducible apply OnlyM.ite
    | (extract_lets +onlyGivenNames x; refine OnlyM.cut (M0 := M0) (s0 := s0) x ?_ ?_ <;> first | (intro hx; clear_value x) | unfold x)
    | (extract_lets +onlyGivenNames x; clear_value x)
    | split

theorem execStepApply_only {M0 : Nat} {s0 : State} {s : State} (kp_s : OnlyM M0 s0 s)
    (hm : Sub 0x8000000000301100000102004000316403C00000014C180000008000000000000001B4DD M0 := by exact Sub.of hm rfl) :
    OnlyOut M0 s0 (execStepApply s) := by
  unfold execStepApply
  repeat' first
    | (refine Sub.of hm ?_; exact Eq.refl _) | (refine Sub.bit hm ?_; exact Eq.refl _)
    | (refine Or.inl (Sub.bit hm ?_); exact Eq.refl _) | with_reducible exact Or.inr rfl
    | intro _ | with_reducible assumption
    | with_reducible apply State.modTime_only | with_reducible apply State.raise_only
    | with_reducible apply State.forcedStep_only | with_reducible apply OnlyOut.next
    | with_reducible apply OnlyOut.fault | with_reducible apply OnlyOut.ite
    | with_reducible apply OnlyOpt.none | with_reducible apply OnlyOpt.some
    | with_reducible apply OnlyM.ite
    | (extract_lets +onlyGivenNames x; refine OnlyM.cut (M0 := M0) (s0 := s0) x ?_ ?_ <;> first | (intro hx; clear_value x) | unfold x)
    | (extract_lets +onlyGivenNames x; clear_value x)
    | split | with_reducible apply OnlyM.update

theorem State.lockSync_only {M0 : Nat} {s0 : State} {s : State} (kp_s : OnlyM M0 s0 s)
    (hm : Sub 0x3011000001000000000000000000000000000000000000000000000000001C M0 := by exact Sub.of hm rfl) :
    OnlyM M0 s0 (State.lockSync s) := by
  unfold State.lockSync
  repeat' first
    | (refine Sub.of hm ?_; exact Eq.refl _) | (refine Sub.bit hm ?_; exact Eq.refl _)
    | (refine Or.inl (Sub.bit hm ?_); exact Eq.refl _) | with_reducible exact Or.inr rfl
    | intro _ | with_reducible assumption
    | with_reducible apply State.modTime_only | with_reducible apply State.setSync_only
    | with_reducible apply OnlyM.update

theorem execLock_only {M0 : Nat} {s0 : State} {q : Requester} {s : State} (kp_s : OnlyM M0 s0 s)
    (hm : Sub 0x40000000000000000000000003011000001000188000000000000000000000000000000000000000020801C M0 := by exact Sub.of hm rfl) :
    OnlyOut M0 s0 (execLock q s) := by
  unfold execLock
  repeat' first
    | (refine Sub.of hm ?_; exact Eq.refl _) | (refine Sub.bit hm ?_; exact Eq.refl _)
    | intro _ | with_reducible assumption
    | with_reducible apply State.timeCmd_only | with_reducible apply State.lockSync_only
    | with_reducible apply OnlyOut.next | with_reducible apply OnlyOut.fault
    | with_reducible apply OnlyOut.ite

theorem execUnlock_only {M0 : Nat} {s0 : State} {q : Requester} {s : State} (kp_s : OnlyM M0 s0 s)
    (hm : Sub 0x40000000000000000000000003011000001000188000000000000000000000000000000000000000020800C M0 := by exact Sub.of hm rfl) :
    OnlyOut M0 s0 (execUnlock q s) := by
  unfold execUnlock
  repeat' first
    | (refine Sub.of hm ?_; exact Eq.refl _) | (refine Sub.bit hm ?_; exact Eq.refl _)
    | intro _ | with_reducible assumption
    | with_reducible apply State.timeCmd_only | with_reducible apply State.setSync_only
    | with_reducible apply OnlyOut.next | with_reducible apply OnlyOut.fault
    | with_reducible apply OnlyOut.ite

theorem execSyncTimeout_only {M0 : Nat} {s0 : State} {s : State} (kp_s : OnlyM M0 s0 s)
    (hm : Sub 0x3011000001000000000000000000000000000000000000000000000000000C M0 := by exact Sub.of hm rfl) :
    OnlyOut M0 s0 (execSyncTimeout s) := by
  unfold execSyncTimeout
  repeat' first
    | (refine Sub.of hm ?_; exact Eq.refl _) | (refine Sub.bit hm ?_; exact Eq.refl _)
    | intro _ | with_reducible assumption
    | with_reducible apply State.setSync_only | with_reducible apply OnlyOut.next
    | with_reducible apply OnlyOut.fault | with_reducible apply OnlyOut.ite
    | with_reducible apply OnlyM.ite
    | split

theorem State.clearNonce_only {M0 : Nat} {s0 : State} {s : State} (kp_s : OnlyM M0 s0 s)
    (hm : Sub 0x20000000000000000000000000000000000000000000000000000010 M0 := by exact Sub.of hm rfl) :
    OnlyM M0 s0 (State.clearNonce s) := by
  unfold State.clearNonce
  repeat' first
    | (refine Sub.of hm ?_; exact Eq.refl _) | (refine Sub.bit hm ?_; exact Eq.refl _)
    | (refine Or.inl (Sub.bit hm ?_); exact Eq.refl _) | with_reducible exact Or.inr rfl
    | with_reducible refine State.set_only TIME_NONCE_N_holds ?_ ?_
    | intro _ | with_reducible assumption
    | with_reducible apply State.modTime_only
    | with_reducible apply OnlyOpt.none | with_reducible apply OnlyOpt.some
    | with_reducible apply OnlyM.update

theorem State.nonceCmd_only {M0 : Nat} {s0 : State} {s : State} (kp_s : OnlyM M0 s0 s)
    (hm : Sub 0x20000000000000000000000000000000000000000000000000080010 M0 := by exact Sub.of hm rfl) :
    OnlyM M0 s0 (State.nonceCmd s) := by
  unfold State.nonceCmd
  repeat' first
    | (refine Sub.of hm ?_; exact Eq.refl _) | (refine Sub.bit hm ?_; exact Eq.refl _)
    | (refine Or.inl (Sub.bit hm ?_); exact Eq.refl _) | with_reducible exact Or.inr rfl
    | with_reducible refine State.set_only TIME_NONCE_N_holds ?_ ?_
    | intro _ | with_reducible assumption
    | with_reducible apply State.draw_only | with_reducible apply State.modTime_only
    | (extract_lets +onlyGivenNames x; refine OnlyM.cut (M0 := M0) (s0 := s0) x ?_ ?_ <;> first | (intro hx; clear_value x) | unfold x)
    | (extract_lets +onlyGivenNames x; clear_value x)
    | with_reducible (refine OnlyM.pair ?_ (by assumption))
    | split | with_reducible apply OnlyM.update

theorem execNonce_only {M0 : Nat} {s0 : State} {q : Requester} {s : State} (kp_s : OnlyM M0 s0 s)
    (hm : Sub 0x400000000000000000000000000000020010001880000000000000000000000000000000000000000288010 M0 := by exact Sub.of hm rfl) :
    OnlyOut M0 s0 (execNonce q s) := by
  unfold execNonce
  repeat' first
    | (refine Sub.of hm ?_; exact Eq.refl _) | (refine Sub.bit hm ?_; exact Eq.refl _)
    | intro _ | with_reducible assumption
    | with_reducible apply State.timeCmd_only | with_reducible apply State.nonceCmd_only
    | with_reducible apply OnlyOut.next | with_reducible apply OnlyOut.fault
    | with_reducible apply OnlyOut.ite

theorem State.tokenCmd_only {M0 : Nat} {s0 : State} {s : State} (kp_s : OnlyM M0 s0 s)
    (hm : Sub 0x3011003801000000000000000000000000000000000000000000000000001C M0 := by exact Sub.of hm rfl) :
    OnlyM M0 s0 (State.tokenCmd s) := by
  unfold State.tokenCmd
  repeat' first
    | (refine Sub.of hm ?_; exact Eq.refl _) | (refine Sub.bit hm ?_; exact Eq.refl _)
    | with_reducible refine State.set_only TIME_STAT_TOKRES_holds ?_ ?_
    | intro _ | with_reducible assumption
    | with_reducible apply State.resync_only | with_reducible apply State.clearNonce_only | with_reducible apply State.raise_only
    | with_reducible apply OnlyM.ite
    | (extract_lets +onlyGivenNames x; refine OnlyM.cut (M0 := M0) (s0 := s0) x ?_ ?_ <;> first | (intro hx; clear_value x) | unfold x)
    | (extract_lets +onlyGivenNames x; clear_value x)
    | split

theorem execToken_only {M0 : Nat} {s0 : State} {q : Requester} {s : State} (kp_s : OnlyM M0 s0 s)
    (hm : Sub 0x40000000000000000000000003011003801000188000000000000000000000000000000000000000020801C M0 := by exact Sub.of hm rfl) :
    OnlyOut M0 s0 (execToken q s) := by
  unfold execToken
  repeat' first
    | (refine Sub.of hm ?_; exact Eq.refl _) | (refine Sub.bit hm ?_; exact Eq.refl _)
    | intro _ | with_reducible assumption
    | with_reducible apply State.timeCmd_only | with_reducible apply State.tokenCmd_only
    | with_reducible apply OnlyOut.next | with_reducible apply OnlyOut.fault
    | with_reducible apply OnlyOut.ite

theorem execNonceExpiry_only {M0 : Nat} {s0 : State} {s : State} (kp_s : OnlyM M0 s0 s)
    (hm : Sub 0x20000000000000000000000000000000000000000000000000000010 M0 := by exact Sub.of hm rfl) :
    OnlyOut M0 s0 (execNonceExpiry s) := by
  unfold execNonceExpiry
  repeat' first
    | (refine Sub.of hm ?_; exact Eq.refl _) | (refine Sub.bit hm ?_; exact Eq.refl _)
    | (refine Or.inl (Sub.bit hm ?_); exact Eq.refl _) | with_reducible exact Or.inr rfl
    | intro _ | with_reducible assumption
    | with_reducible apply State.clearNonce_only | with_reducible apply OnlyOut.next
    | with_reducible apply OnlyOut.fault | with_reducible apply OnlyOut.ite
    | with_reducible apply OnlyOpt.none | with_reducible apply OnlyOpt.some
    | with_reducible apply OnlyM.ite
    | split | with_reducible apply OnlyM.update

theorem execTimeCmdIgnored_only {M0 : Nat} {s0 : State} {q : Requester} {cmd : Fin 8} {s : State} (kp_s : OnlyM M0 s0 s)
    (hm : Sub 0x400000000000000000000000000000000010001880000000000000000000000000000000000000000208000 M0 := by exact Sub.of hm rfl) :
    OnlyOut M0 s0 (execTimeCmdIgnored q cmd s) := by
  unfold execTimeCmdIgnored
  repeat' first
    | (refine Sub.of hm ?_; exact Eq.refl _) | (refine Sub.bit hm ?_; exact Eq.refl _)
    | intro _ | with_reducible assumption
    | with_reducible apply State.timeWrite_only | with_reducible apply State.timeErr_only
    | with_reducible apply OnlyOut.next | with_reducible apply OnlyOut.fault
    | with_reducible apply OnlyOut.ite | with_reducible apply OnlyM.ite
    | split

theorem execTrustExpiry_only {M0 : Nat} {s0 : State} {s : State} (kp_s : OnlyM M0 s0 s)
    (hm : Sub 0x3011000001000000000000000000000000000000000000000000000000000C M0 := by exact Sub.of hm rfl) :
    OnlyOut M0 s0 (execTrustExpiry s) := by
  unfold execTrustExpiry
  repeat' first
    | (refine Sub.of hm ?_; exact Eq.refl _) | (refine Sub.bit hm ?_; exact Eq.refl _)
    | intro _ | with_reducible assumption
    | with_reducible apply State.setTrust_only | with_reducible apply OnlyOut.next
    | with_reducible apply OnlyOut.fault | with_reducible apply OnlyOut.ite
    | with_reducible apply OnlyM.ite
    | (extract_lets +onlyGivenNames x; refine OnlyM.cut (M0 := M0) (s0 := s0) x ?_ ?_ <;> first | (intro hx; clear_value x) | unfold x)
    | (extract_lets +onlyGivenNames x; clear_value x)
    | split

theorem execVaultTimeLoad_only {M0 : Nat} {s0 : State} {s : State} (kp_s : OnlyM M0 s0 s)
    (hm : Sub 0x80000000000000000000000000000000000000000000000000000010 M0 := by exact Sub.of hm rfl) :
    OnlyOut M0 s0 (execVaultTimeLoad s) := by
  unfold execVaultTimeLoad
  repeat' first
    | (refine Sub.of hm ?_; exact Eq.refl _) | (refine Sub.bit hm ?_; exact Eq.refl _)
    | intro _ | with_reducible assumption
    | with_reducible apply State.loadVault_only | with_reducible apply OnlyOut.next
    | with_reducible apply OnlyOut.fault | with_reducible apply OnlyOut.ite
    | with_reducible apply OnlyM.ite
    | split

theorem execLocalTimeRestore_only {M0 : Nat} {s0 : State} {s : State} (kp_s : OnlyM M0 s0 s)
    (hm : Sub 0x18000000000000000000000003011000000000000000000000000000000000000000000000000000000001C M0 := by exact Sub.of hm rfl) :
    OnlyOut M0 s0 (execLocalTimeRestore s) := by
  unfold execLocalTimeRestore
  repeat' first
    | (refine Sub.of hm ?_; exact Eq.refl _) | (refine Sub.bit hm ?_; exact Eq.refl _)
    | intro _ | with_reducible assumption
    | with_reducible apply State.restoreTime_only | with_reducible apply OnlyOut.next
    | with_reducible apply OnlyOut.fault | with_reducible apply OnlyOut.ite
    | with_reducible apply OnlyM.ite
    | split

end Sys2Proof.Machine
end

