-- ==== Sys2Proof/Laws/OnlyPower.lean ====
section
/-! SUPPORT. Which parts each operation of `Machine/Power.lean` may change, and that it keeps what every command keeps: each
lemma follows the operation's own text, piece by piece, and gives the parts as a set of part numbers. -/

namespace Sys2Proof.Machine

theorem State.modPwr_only {M0 : Nat} {s0 : State} {s : State} {f : Power → Power} (kp_s : OnlyM M0 s0 s)
    (hm : Sub 0x20 M0 := by exact Sub.of hm rfl) :
    OnlyM M0 s0 (State.modPwr s f) := by
  unfold State.modPwr
  repeat' first
    | (refine Sub.of hm ?_; exact Eq.refl _) | (refine Sub.bit hm ?_; exact Eq.refl _)
    | (refine Or.inl (Sub.bit hm ?_); exact Eq.refl _) | with_reducible exact Or.inr rfl
    | intro _ | with_reducible assumption
    | with_reducible apply OnlyM.update

theorem State.modRegion_only {M0 : Nat} {s0 : State} {s : State} {r : Nat} {f : Region → Region} (kp_s : OnlyM M0 s0 s)
    (hm : Sub 0x8000 M0 := by exact Sub.of hm rfl) :
    OnlyM M0 s0 (State.modRegion s r f) := by
  unfold State.modRegion
  repeat' first
    | (refine Sub.of hm ?_; exact Eq.refl _) | (refine Sub.bit hm ?_; exact Eq.refl _)
    | intro _ | with_reducible assumption
    | with_reducible apply State.setRegion_only

theorem State.startChange_only {M0 : Nat} {s0 : State} {s : State} {r : Nat} (kp_s : OnlyM M0 s0 s)
    (hm : Sub 0x40000000000000000000000000000000000000008000 M0 := by exact Sub.of hm rfl) :
    OnlyM M0 s0 (State.startChange s r) := by
  unfold State.startChange
  repeat' first
    | (refine Sub.of hm ?_; exact Eq.refl _) | (refine Sub.bit hm ?_; exact Eq.refl _)
    | (refine Or.inl (Sub.bit hm ?_); exact Eq.refl _) | with_reducible exact Or.inr rfl
    | with_reducible refine State.put_only (RGN_OPP_BUSY_holds ..) ?_ ?_
    | intro _ | with_reducible assumption | with_reducible apply State.modRegion_only
    | with_reducible apply OnlyM.ite
    | (extract_lets +onlyGivenNames x; refine OnlyM.cut (M0 := M0) (s0 := s0) x ?_ ?_ <;> first | (intro hx; clear_value x) | unfold x)
    | (extract_lets +onlyGivenNames x; clear_value x)
    | split | with_reducible apply OnlyM.update

theorem State.endChange_only {M0 : Nat} {s0 : State} {s : State} {r : Nat} {again : Bool} (kp_s : OnlyM M0 s0 s)
    (hm : Sub 0x40000000000000000000000000000000000000008000 M0 := by exact Sub.of hm rfl) :
    OnlyM M0 s0 (State.endChange s r again) := by
  unfold State.endChange
  repeat' first
    | (refine Sub.of hm ?_; exact Eq.refl _) | (refine Sub.bit hm ?_; exact Eq.refl _)
    | (refine Or.inl (Sub.bit hm ?_); exact Eq.refl _) | with_reducible exact Or.inr rfl
    | with_reducible refine State.put_only (RGN_OPP_BUSY_holds ..) ?_ ?_
    | intro _ | with_reducible assumption | with_reducible apply State.modRegion_only
    | with_reducible apply State.startChange_only | with_reducible apply OnlyOpt.none
    | with_reducible apply OnlyOpt.some | with_reducible apply OnlyM.ite
    | (extract_lets +onlyGivenNames x; refine OnlyM.cut (M0 := M0) (s0 := s0) x ?_ ?_ <;> first | (intro hx; clear_value x) | unfold x)
    | (extract_lets +onlyGivenNames x; clear_value x)
    | split | with_reducible apply OnlyM.update

theorem State.oppWrite_only {M0 : Nat} {s0 : State} {s : State} {r v : Nat} (kp_s : OnlyM M0 s0 s)
    (hm : Sub 0x40000000000000000000000000000000000000008000 M0 := by exact Sub.of hm rfl) :
    OnlyM M0 s0 (State.oppWrite s r v) := by
  unfold State.oppWrite
  repeat' first
    | (refine Sub.of hm ?_; exact Eq.refl _) | (refine Sub.bit hm ?_; exact Eq.refl _)
    | (refine Or.inl (Sub.bit hm ?_); exact Eq.refl _) | with_reducible exact Or.inr rfl
    | with_reducible refine State.set_only (RGN_OPP_TARGET_holds ..) ?_ ?_
    | intro _ | with_reducible assumption | with_reducible apply State.modRegion_only
    | with_reducible apply State.startChange_only | with_reducible apply OnlyM.ite
    | (extract_lets +onlyGivenNames x; refine OnlyM.cut (M0 := M0) (s0 := s0) x ?_ ?_ <;> first | (intro hx; clear_value x) | unfold x)
    | (extract_lets +onlyGivenNames x; clear_value x)
    | split | with_reducible apply OnlyM.update

theorem execOppTargetWrite_only {M0 : Nat} {s0 : State} {q : Requester} {r : RgnNo} {v : Fin 8} {s : State} (kp_s : OnlyM M0 s0 s)
    (hm : Sub 0x400000000000000000000000000000000000001880040000000000000000000000000000000000000208000 M0 := by exact Sub.of hm rfl) :
    OnlyOut M0 s0 (execOppTargetWrite q r v s) := by
  unfold execOppTargetWrite
  repeat' first
    | (refine Sub.of hm ?_; exact Eq.refl _) | (refine Sub.bit hm ?_; exact Eq.refl _)
    | intro _ | with_reducible assumption
    | with_reducible apply State.hostWrite_only | with_reducible apply State.oppWrite_only
    | with_reducible apply OnlyOut.next | with_reducible apply OnlyOut.fault
    | with_reducible apply OnlyOut.ite

theorem execRegulatorGood_only {M0 : Nat} {s0 : State} {r : RgnNo} {s : State} (kp_s : OnlyM M0 s0 s)
    (hm : Sub 0x8000 M0 := by exact Sub.of hm rfl) :
    OnlyOut M0 s0 (execRegulatorGood r s) := by
  unfold execRegulatorGood
  repeat' first
    | (refine Sub.of hm ?_; exact Eq.refl _) | (refine Sub.bit hm ?_; exact Eq.refl _)
    | (refine Or.inl (Sub.bit hm ?_); exact Eq.refl _) | with_reducible exact Or.inr rfl
    | intro _ | with_reducible assumption
    | with_reducible apply State.modRegion_only | with_reducible apply OnlyOut.next
    | with_reducible apply OnlyOut.fault | with_reducible apply OnlyOut.ite
    | split | with_reducible apply OnlyM.update

theorem execPllLockStable_only {M0 : Nat} {s0 : State} {r : RgnNo} {s : State} (kp_s : OnlyM M0 s0 s)
    (hm : Sub 0x40000000000000000000000000000000000000008000 M0 := by exact Sub.of hm rfl) :
    OnlyOut M0 s0 (execPllLockStable r s) := by
  unfold execPllLockStable
  repeat' first
    | (refine Sub.of hm ?_; exact Eq.refl _) | (refine Sub.bit hm ?_; exact Eq.refl _)
    | (refine Or.inl (Sub.bit hm ?_); exact Eq.refl _) | with_reducible exact Or.inr rfl
    | with_reducible refine State.set_only (RGN_OPP_CURRENT_holds ..) ?_ ?_
    | intro _ | with_reducible assumption | with_reducible apply State.modRegion_only
    | with_reducible apply OnlyOut.next | with_reducible apply OnlyOut.fault
    | with_reducible apply OnlyOut.ite | with_reducible apply OnlyM.ite
    | (extract_lets +onlyGivenNames x; refine OnlyM.cut (M0 := M0) (s0 := s0) x ?_ ?_ <;> first | (intro hx; clear_value x) | unfold x)
    | (extract_lets +onlyGivenNames x; clear_value x)
    | split | with_reducible apply OnlyM.update

theorem execPllLockTimeout_only {M0 : Nat} {s0 : State} {r : RgnNo} {s : State} (kp_s : OnlyM M0 s0 s)
    (hm : Sub 0x3011000000000000004000000000000000000000000000000000000000800C M0 := by exact Sub.of hm rfl) :
    OnlyOut M0 s0 (execPllLockTimeout r s) := by
  unfold execPllLockTimeout
  repeat' first
    | (refine Sub.of hm ?_; exact Eq.refl _) | (refine Sub.bit hm ?_; exact Eq.refl _)
    | (refine Or.inl (Sub.bit hm ?_); exact Eq.refl _) | with_reducible exact Or.inr rfl
    | with_reducible refine State.set_only (RGN_OPP_CURRENT_holds ..) ?_ ?_
    | intro _ | with_reducible assumption
    | with_reducible apply State.modRegion_only
    | with_reducible apply State.raise_only | with_reducible apply State.report_only
    | with_reducible apply State.endChange_only | with_reducible apply OnlyOut.next
    | with_reducible apply OnlyOut.fault | with_reducible apply OnlyOut.ite
    | with_reducible apply OnlyM.ite
    | (extract_lets +onlyGivenNames x; refine OnlyM.cut (M0 := M0) (s0 := s0) x ?_ ?_ <;> first | (intro hx; clear_value x) | unfold x)
    | (extract_lets +onlyGivenNames x; clear_value x)
    | split | with_reducible apply OnlyM.update

theorem execOppChangeDone_only {M0 : Nat} {s0 : State} {r : RgnNo} {s : State} (kp_s : OnlyM M0 s0 s)
    (hm : Sub 0x3011000000000000004000000000000000000000000000000000000000800C M0 := by exact Sub.of hm rfl) :
    OnlyOut M0 s0 (execOppChangeDone r s) := by
  unfold execOppChangeDone
  repeat' first
    | (refine Sub.of hm ?_; exact Eq.refl _) | (refine Sub.bit hm ?_; exact Eq.refl _)
    | (refine Or.inl (Sub.bit hm ?_); exact Eq.refl _) | with_reducible exact Or.inr rfl
    | with_reducible refine State.set_only (RGN_OPP_CURRENT_holds ..) ?_ ?_
    | intro _ | with_reducible assumption | with_reducible apply State.raise_only
    | with_reducible apply State.endChange_only | with_reducible apply OnlyOut.next
    | with_reducible apply OnlyOut.fault | with_reducible apply OnlyOut.ite
    | (extract_lets +onlyGivenNames x; refine OnlyM.cut (M0 := M0) (s0 := s0) x ?_ ?_ <;> first | (intro hx; clear_value x) | unfold x)
    | (extract_lets +onlyGivenNames x; clear_value x)
    | split | with_reducible apply OnlyM.update

theorem State.setTemp_only {M0 : Nat} {s0 : State} {s : State} {tj : Nat} (kp_s : OnlyM M0 s0 s)
    (hm : Sub 0x10000000000000000000000000000000000000000000000000000000000000000000 M0 := by exact Sub.of hm rfl) :
    OnlyM M0 s0 (State.setTemp s tj) := by
  unfold State.setTemp
  repeat' first
    | (refine Sub.of hm ?_; exact Eq.refl _) | (refine Sub.bit hm ?_; exact Eq.refl _)
    | with_reducible refine State.set_only PWR_TEMP_TJ_holds ?_ ?_
    | with_reducible refine State.set_only PWR_TEMP_PEAK_holds ?_ ?_
    | intro _ | with_reducible assumption

theorem execThermalOnset_only {M0 : Nat} {s0 : State} {tj : Fin 1024} {s : State} (kp_s : OnlyM M0 s0 s)
    (hm : Sub 0x1000003011000000000000004000000000000000000000000000000000000000800C M0 := by exact Sub.of hm rfl) :
    OnlyOut M0 s0 (execThermalOnset tj s) := by
  unfold execThermalOnset
  repeat' first
    | (refine Sub.of hm ?_; exact Eq.refl _) | (refine Sub.bit hm ?_; exact Eq.refl _)
    | intro _ | with_reducible assumption
    | with_reducible apply State.setTemp_only | with_reducible apply State.raise_only
    | with_reducible apply State.startCond_only | with_reducible apply State.startChange_only
    | with_reducible apply OnlyOut.next | with_reducible apply OnlyOut.fault
    | with_reducible apply OnlyOut.ite | with_reducible apply State.each_only
    | with_reducible apply OnlyM.ite
    | (extract_lets +onlyGivenNames x; refine OnlyM.cut (M0 := M0) (s0 := s0) x ?_ ?_ <;> first | (intro hx; clear_value x) | unfold x)
    | (extract_lets +onlyGivenNames x; clear_value x)
    | split

theorem execThermalEnd_only {M0 : Nat} {s0 : State} {tj : Fin 1024} {s : State} (kp_s : OnlyM M0 s0 s)
    (hm : Sub 0x1000003011000000000000004000000000000000000000000000000000000000800C M0 := by exact Sub.of hm rfl) :
    OnlyOut M0 s0 (execThermalEnd tj s) := by
  unfold execThermalEnd
  repeat' first
    | (refine Sub.of hm ?_; exact Eq.refl _) | (refine Sub.bit hm ?_; exact Eq.refl _)
    | (refine Or.inl (Sub.bit hm ?_); exact Eq.refl _) | with_reducible exact Or.inr rfl
    | intro _ | with_reducible assumption
    | with_reducible apply State.setTemp_only | with_reducible apply State.raise_only
    | with_reducible apply State.endCond_only | with_reducible apply State.modRegion_only
    | with_reducible apply State.startChange_only | with_reducible apply OnlyOut.next
    | with_reducible apply OnlyOut.fault | with_reducible apply OnlyOut.ite
    | with_reducible apply State.each_only | with_reducible apply OnlyM.ite
    | (extract_lets +onlyGivenNames x; refine OnlyM.cut (M0 := M0) (s0 := s0) x ?_ ?_ <;> first | (intro hx; clear_value x) | unfold x)
    | (extract_lets +onlyGivenNames x; clear_value x)
    | split | with_reducible apply OnlyM.update

theorem execEnterA1_only {M0 : Nat} {s0 : State} {s : State} (kp_s : OnlyM M0 s0 s)
    (hm : Sub 0x22000000000000000000000000000000000000000000000000000000000000000020 M0 := by exact Sub.of hm rfl) :
    OnlyOut M0 s0 (execEnterA1 s) := by
  unfold execEnterA1
  repeat' first
    | (refine Sub.of hm ?_; exact Eq.refl _) | (refine Sub.bit hm ?_; exact Eq.refl _)
    | (refine Or.inl (Sub.bit hm ?_); exact Eq.refl _) | with_reducible exact Or.inr rfl
    | with_reducible refine State.set_only PWR_STAT_STATE_holds ?_ ?_
    | with_reducible refine State.inc_only PWR_CNT_A1_holds ?_ ?_
    | intro _ | with_reducible assumption
    | with_reducible apply State.modPwr_only | with_reducible apply OnlyOut.next
    | with_reducible apply OnlyOut.fault | with_reducible apply OnlyOut.ite
    | with_reducible apply OnlyM.ite
    | split | with_reducible apply OnlyM.update

theorem State.leaveA1_only {M0 : Nat} {s0 : State} {s : State} (kp_s : OnlyM M0 s0 s)
    (hm : Sub 0x2000000000000000000000000000000000000000000000000000000000000000020 M0 := by exact Sub.of hm rfl) :
    OnlyM M0 s0 (State.leaveA1 s) := by
  unfold State.leaveA1
  repeat' first
    | (refine Sub.of hm ?_; exact Eq.refl _) | (refine Sub.bit hm ?_; exact Eq.refl _)
    | (refine Or.inl (Sub.bit hm ?_); exact Eq.refl _) | with_reducible exact Or.inr rfl
    | with_reducible refine State.set_only PWR_STAT_STATE_holds ?_ ?_
    | intro _ | with_reducible assumption
    | with_reducible apply State.modPwr_only
    | with_reducible apply OnlyM.ite
    | split | with_reducible apply OnlyM.update

theorem execWakeFromA1_only {M0 : Nat} {s0 : State} {s : State} (kp_s : OnlyM M0 s0 s)
    (hm : Sub 0x2000000000000000000000000000000000000000000000000000000000000000020 M0 := by exact Sub.of hm rfl) :
    OnlyOut M0 s0 (execWakeFromA1 s) := by
  unfold execWakeFromA1
  repeat' first
    | (refine Sub.of hm ?_; exact Eq.refl _) | (refine Sub.bit hm ?_; exact Eq.refl _)
    | (refine Or.inl (Sub.bit hm ?_); exact Eq.refl _) | with_reducible exact Or.inr rfl
    | intro _ | with_reducible assumption
    | with_reducible apply State.leaveA1_only | with_reducible apply OnlyOut.next
    | with_reducible apply OnlyOut.fault | with_reducible apply OnlyOut.ite
    | with_reducible apply OnlyOpt.none | with_reducible apply OnlyOpt.some
    | with_reducible apply OnlyM.ite
    | (extract_lets +onlyGivenNames x; refine OnlyM.cut (M0 := M0) (s0 := s0) x ?_ ?_ <;> first | (intro hx; clear_value x) | unfold x)
    | (extract_lets +onlyGivenNames x; clear_value x)
    | split | with_reducible apply OnlyM.update

theorem State.allowWrite_only {M0 : Nat} {s0 : State} {s : State} {v : Nat} (kp_s : OnlyM M0 s0 s)
    (hm : Sub 0x3000000000000000000000000000000000000000000000000000000000000000020 M0 := by exact Sub.of hm rfl) :
    OnlyM M0 s0 (State.allowWrite s v) := by
  unfold State.allowWrite
  repeat' first
    | (refine Sub.of hm ?_; exact Eq.refl _) | (refine Sub.bit hm ?_; exact Eq.refl _)
    | with_reducible refine State.set_only PWR_CTRL_ALLOW_holds ?_ ?_
    | intro _ | with_reducible assumption | with_reducible apply State.leaveA1_only
    | with_reducible apply OnlyM.ite
    | (extract_lets +onlyGivenNames x; refine OnlyM.cut (M0 := M0) (s0 := s0) x ?_ ?_ <;> first | (intro hx; clear_value x) | unfold x)
    | (extract_lets +onlyGivenNames x; clear_value x)
    | split

theorem execAllowWrite_only {M0 : Nat} {s0 : State} {q : Requester} {v : Fin 4} {s : State} (kp_s : OnlyM M0 s0 s)
    (hm : Sub 0x400000000000000000003000000000000000001880000000000000000000000000000000000000000208020 M0 := by exact Sub.of hm rfl) :
    OnlyOut M0 s0 (execAllowWrite q v s) := by
  unfold execAllowWrite
  repeat' first
    | (refine Sub.of hm ?_; exact Eq.refl _) | (refine Sub.bit hm ?_; exact Eq.refl _)
    | intro _ | with_reducible assumption
    | with_reducible apply State.hostWrite_only | with_reducible apply State.allowWrite_only
    | with_reducible apply OnlyOut.next | with_reducible apply OnlyOut.fault
    | with_reducible apply OnlyOut.ite

theorem State.schedule_only {M0 : Nat} {s0 : State} {s : State} {st : Nat} (kp_s : OnlyM M0 s0 s)
    (hm : Sub 0x1000000000000000000000000000000000000000000000000000000000000000000020 M0 := by exact Sub.of hm rfl) :
    OnlyM M0 s0 (State.schedule s st) := by
  unfold State.schedule
  repeat' first
    | (refine Sub.of hm ?_; exact Eq.refl _) | (refine Sub.bit hm ?_; exact Eq.refl _)
    | (refine Or.inl (Sub.bit hm ?_); exact Eq.refl _) | with_reducible exact Or.inr rfl

    | with_reducible refine State.setWord64_only (Part.holds.own WATCH_SCHED_FRAC_holds) WATCH_SCHED_FRAC_next ?_ ?_
    | with_reducible refine State.set_only WATCH_SCHED_FRAC_holds ?_ ?_
    | with_reducible refine State.set_only WATCH_SCHED_SEC_holds ?_ ?_
    | with_reducible refine State.put_only WATCH_SCHED_EN_holds ?_ ?_
    | intro _ | with_reducible assumption
    | with_reducible apply State.modPwr_only
    | with_reducible apply OnlyOpt.none | with_reducible apply OnlyOpt.some
    | (extract_lets +onlyGivenNames x; refine OnlyM.cut (M0 := M0) (s0 := s0) x ?_ ?_ <;> first | (intro hx; clear_value x) | unfold x)
    | (extract_lets +onlyGivenNames x; clear_value x)
    | split | with_reducible apply OnlyM.update

theorem State.functionsDown_only {M0 : Nat} {s0 : State} {s : State} (kp_s : OnlyM M0 s0 s)
    (hm : Sub 0x38000000000000000000000003011000000000000008000000000000000000000000000000000000000002C M0 := by exact Sub.of hm rfl) :
    OnlyM M0 s0 (State.functionsDown s) := by
  unfold State.functionsDown
  repeat' first
    | (refine Sub.of hm ?_; exact Eq.refl _) | (refine Sub.bit hm ?_; exact Eq.refl _)
    | (refine Or.inl (Sub.bit hm ?_); exact Eq.refl _) | with_reducible exact Or.inr rfl
    | with_reducible refine State.put_only (RGN_STAT_POWER_holds ..) ?_ ?_
    | with_reducible refine State.setWord_only (Part.holds.own CHIP_RGN_READY_RGN_holds) ?_ ?_
    | intro _ | with_reducible assumption
    | with_reducible apply State.modPwr_only | with_reducible apply State.setReady_only
    | with_reducible apply State.each_only
    | (extract_lets +onlyGivenNames x; refine OnlyM.cut (M0 := M0) (s0 := s0) x ?_ ?_ <;> first | (intro hx; clear_value x) | unfold x)
    | (extract_lets +onlyGivenNames x; clear_value x)
    | with_reducible apply OnlyM.update

theorem State.goToSleep_only {M0 : Nat} {s0 : State} {s : State} {p : PowerState} {st : Nat} (kp_s : OnlyM M0 s0 s)
    (hm : Sub 0x38000000000000080B0000000301100000002000000B02403C58080010F1804040080004C0110000001B6ED M0 := by exact Sub.of hm rfl) :
    OnlyM M0 s0 (State.goToSleep s p st) := by
  unfold State.goToSleep
  repeat' first
    | (refine Sub.of hm ?_; exact Eq.refl _) | (refine Sub.bit hm ?_; exact Eq.refl _)
    | (refine Or.inl (Sub.bit hm ?_); exact Eq.refl _) | with_reducible exact Or.inr rfl
    | intro _ | with_reducible assumption
    | with_reducible apply State.schedule_only | with_reducible apply State.laneDown_only
    | with_reducible apply State.modPwr_only | with_reducible apply State.functionsDown_only
    | with_reducible apply State.refreshPorts_only | with_reducible apply State.each_only
    | with_reducible apply OnlyM.ite
    | (extract_lets +onlyGivenNames x; refine OnlyM.cut (M0 := M0) (s0 := s0) x ?_ ?_ <;> first | (intro hx; clear_value x) | unfold x)
    | (extract_lets +onlyGivenNames x; clear_value x)
    | split | with_reducible apply OnlyM.update

theorem execEnterA2_only {M0 : Nat} {s0 : State} {s : State} (kp_s : OnlyM M0 s0 s)
    (hm : Sub 0x38000000000000080B0220000301100000002000000B02403C58080010F1804040080004C0110000001B6ED M0 := by exact Sub.of hm rfl) :
    OnlyOut M0 s0 (execEnterA2 s) := by
  unfold execEnterA2
  repeat' first
    | (refine Sub.of hm ?_; exact Eq.refl _) | (refine Sub.bit hm ?_; exact Eq.refl _)
    | with_reducible refine State.set_only PWR_STAT_STATE_holds ?_ ?_
    | with_reducible refine State.inc_only PWR_CNT_A2_holds ?_ ?_
    | intro _ | with_reducible assumption
    | with_reducible apply State.goToSleep_only | with_reducible apply OnlyOut.next
    | with_reducible apply OnlyOut.fault | with_reducible apply OnlyOut.ite
    | with_reducible apply OnlyM.ite
    | split

theorem execEnterA3_only {M0 : Nat} {s0 : State} {s : State} (kp_s : OnlyM M0 s0 s)
    (hm : Sub 0x38000000000000080B4000000301100000002000000B02403C58080010F1804040080004C0110000001B6ED M0 := by exact Sub.of hm rfl) :
    OnlyOut M0 s0 (execEnterA3 s) := by
  unfold execEnterA3
  repeat' first
    | (refine Sub.of hm ?_; exact Eq.refl _) | (refine Sub.bit hm ?_; exact Eq.refl _)
    | with_reducible refine State.inc_only WATCH_CNT_A3_holds ?_ ?_
    | intro _ | with_reducible assumption
    | with_reducible apply State.goToSleep_only
    | with_reducible apply OnlyOut.next | with_reducible apply OnlyOut.fault
    | with_reducible apply OnlyOut.ite | with_reducible apply OnlyM.ite
    | split

theorem execHallRefresh_only {M0 : Nat} {s0 : State} {single double : List (Fin 8388608)} {s : State} (kp_s : OnlyM M0 s0 s)
    (hm : Sub 0x400000000000000000200000000000000000000000000000000000000000000010020 M0 := by exact Sub.of hm rfl) :
    OnlyOut M0 s0 (execHallRefresh single double s) := by
  unfold execHallRefresh
  repeat' first
    | (refine Sub.of hm ?_; exact Eq.refl _) | (refine Sub.bit hm ?_; exact Eq.refl _)
    | (refine Or.inl (Sub.bit hm ?_); exact Eq.refl _) | with_reducible exact Or.inr rfl
    | with_reducible refine State.inc_only (HALL_ECC_CE_holds ..) ?_ ?_
    | with_reducible refine State.inc_only WATCH_CNT_SCRUB_holds ?_ ?_
    | intro _ | with_reducible assumption | with_reducible apply State.setFix_only
    | with_reducible apply State.setPoison_only | with_reducible apply State.modPwr_only
    | with_reducible apply OnlyOut.next | with_reducible apply OnlyOut.fault
    | with_reducible apply OnlyOut.ite | with_reducible apply State.each_only
    | with_reducible apply OnlyM.ite
    | (extract_lets +onlyGivenNames x; refine OnlyM.cut (M0 := M0) (s0 := s0) x ?_ ?_ <;> first | (intro hx; clear_value x) | unfold x)
    | (extract_lets +onlyGivenNames x; clear_value x)
    | split | with_reducible apply OnlyM.update

theorem State.wakeRegs_only {M0 : Nat} {s0 : State} {s : State} {from_ cause : Nat} (kp_s : OnlyM M0 s0 s)
    (hm : Sub 0x1082000000000000000000000000000000000000000000000000000000000000400020 M0 := by exact Sub.of hm rfl) :
    OnlyM M0 s0 (State.wakeRegs s from_ cause) := by
  unfold State.wakeRegs
  repeat' first
    | (refine Sub.of hm ?_; exact Eq.refl _) | (refine Sub.bit hm ?_; exact Eq.refl _)
    | (refine Or.inl (Sub.bit hm ?_); exact Eq.refl _) | with_reducible exact Or.inr rfl
    | with_reducible refine State.set_only WATCH_WAKE_FROM_holds ?_ ?_
    | with_reducible refine State.set_only WATCH_WAKE_CAUSE_holds ?_ ?_
    | with_reducible refine State.setWord64_only (Part.holds.own WATCH_SCHED_FRAC_holds) WATCH_SCHED_FRAC_next ?_ ?_
    | with_reducible refine State.set_only PWR_STAT_STATE_holds ?_ ?_
    | intro _ | with_reducible assumption
    | with_reducible apply State.modPwr_only | with_reducible apply State.emit_only
    | with_reducible apply OnlyOpt.none | with_reducible apply OnlyOpt.some
    | with_reducible apply OnlyM.ite
    | (extract_lets +onlyGivenNames x; refine OnlyM.cut (M0 := M0) (s0 := s0) x ?_ ?_ <;> first | (intro hx; clear_value x) | unfold x)
    | (extract_lets +onlyGivenNames x; clear_value x)
    | split | with_reducible apply OnlyM.update

theorem State.linksAgain_only {M0 : Nat} {s0 : State} {s : State} (kp_s : OnlyM M0 s0 s)
    (hm : Sub 0x100 M0 := by exact Sub.of hm rfl) :
    OnlyM M0 s0 (State.linksAgain s) := by
  unfold State.linksAgain
  repeat' first
    | (refine Sub.of hm ?_; exact Eq.refl _) | (refine Sub.bit hm ?_; exact Eq.refl _)
    | (refine Or.inl (Sub.bit hm ?_); exact Eq.refl _) | with_reducible exact Or.inr rfl
    | intro _ | with_reducible assumption
    | with_reducible apply OnlyM.update

theorem State.returnA2_only {M0 : Nat} {s0 : State} {s : State} {cause : Nat} (kp_s : OnlyM M0 s0 s)
    (hm : Sub 0x3800000000000000010820000305100000102040000B02403C58080010F1804040080004C011000004197FD M0 := by exact Sub.of hm rfl) :
    OnlyM M0 s0 (State.returnA2 s cause) := by
  unfold State.returnA2
  repeat' first
    | (refine Sub.of hm ?_; exact Eq.refl _) | (refine Sub.bit hm ?_; exact Eq.refl _)
    | (refine Or.inl (Sub.bit hm ?_); exact Eq.refl _) | with_reducible exact Or.inr rfl
    | with_reducible refine State.setWord_only (Part.holds.own CHIP_RGN_READY_RGN_holds) ?_ ?_
    | with_reducible refine State.put_only (RGN_STAT_POWER_holds ..) ?_ ?_
    | with_reducible refine State.set_only HALL_STAT_RETAINED_holds ?_ ?_
    | intro _ | with_reducible assumption
    | with_reducible apply State.wakeRegs_only | with_reducible apply State.linksAgain_only
    | with_reducible apply State.setReady_only | with_reducible apply State.restoreTime_only | with_reducible apply State.refreshPorts_only
    | with_reducible apply State.recordWake_only | with_reducible apply State.wakeRecords_only
    | with_reducible apply State.setSync_only | with_reducible apply State.raise_only
    | with_reducible apply State.modPwr_only | with_reducible apply State.countUe_only
    | with_reducible apply State.each_only | with_reducible apply State.when_only
    | with_reducible apply OnlyM.ite
    | (extract_lets +onlyGivenNames x; refine OnlyM.cut (M0 := M0) (s0 := s0) x ?_ ?_ <;> first | (intro hx; clear_value x) | unfold x)
    | (extract_lets +onlyGivenNames x; clear_value x)
    | split | with_reducible apply OnlyM.update

theorem State.returnA3_only {M0 : Nat} {s0 : State} {s : State} {cause : Nat} {bad : List (Fin 32)} (kp_s : OnlyM M0 s0 s)
    (hm : Sub 0x1C0000070A201200010CA000030510000000000000000000000000000000000000000000000000000FFFFFD M0 := by exact Sub.of hm rfl) :
    OnlyM M0 s0 (State.returnA3 s cause bad) := by
  unfold State.returnA3
  repeat' first
    | (refine Sub.of hm ?_; exact Eq.refl _) | (refine Sub.bit hm ?_; exact Eq.refl _)
    | (refine Or.inl (Sub.bit hm ?_); exact Eq.refl _) | with_reducible exact Or.inr rfl
    | with_reducible refine State.put_only PWR_STAT_A3WOKE_holds ?_ ?_
    | intro _ | with_reducible assumption
    | with_reducible apply State.resetPackage_only | with_reducible apply State.linksAgain_only
    | with_reducible apply State.emit_only | with_reducible apply State.wakeRegs_only
    | with_reducible apply State.modPwr_only
    | with_reducible apply State.tamperFlush_only | with_reducible apply State.prepare_only
    | with_reducible apply State.setReady_only | with_reducible apply State.restoreTime_only
    | with_reducible apply State.recordWake_only | with_reducible apply State.checkSealed_only
    | with_reducible apply State.raise_only | with_reducible apply State.each_only
    | with_reducible apply OnlyM.ite
    | (extract_lets +onlyGivenNames x; refine OnlyM.cut (M0 := M0) (s0 := s0) x ?_ ?_ <;> first | (intro hx; clear_value x) | unfold x)
    | (extract_lets +onlyGivenNames x; clear_value x)
    | split | with_reducible apply OnlyM.update

theorem State.wake_only {M0 : Nat} {s0 : State} {s : State} {cause : Nat} {bad : List (Fin 32)} (kp_s : OnlyM M0 s0 s)
    (hm : Sub 0x3C0000070A201200010CA0000305100000102040000B02403C58080010F1804040080004C01100000FFFFFD M0 := by exact Sub.of hm rfl) :
    OnlyM M0 s0 (State.wake s cause bad) := by
  unfold State.wake
  repeat' first
    | (refine Sub.of hm ?_; exact Eq.refl _) | (refine Sub.bit hm ?_; exact Eq.refl _)
    | (refine Or.inl (Sub.bit hm ?_); exact Eq.refl _) | with_reducible exact Or.inr rfl
    | intro _ | with_reducible assumption
    | with_reducible apply State.returnA2_only | with_reducible apply State.returnA3_only
    | split | with_reducible apply OnlyM.update

theorem execWakeLead_only {M0 : Nat} {s0 : State} {bad : List (Fin 32)} {s : State} (kp_s : OnlyM M0 s0 s)
    (hm : Sub 0x3C0000070A201200010CA0000305100000102040000B02403C58080010F1804040080004C01100000FFFFFD M0 := by exact Sub.of hm rfl) :
    OnlyOut M0 s0 (execWakeLead bad s) := by
  unfold execWakeLead
  repeat' first
    | (refine Sub.of hm ?_; exact Eq.refl _) | (refine Sub.bit hm ?_; exact Eq.refl _)
    | (refine Or.inl (Sub.bit hm ?_); exact Eq.refl _) | with_reducible exact Or.inr rfl
    | intro _ | with_reducible assumption
    | with_reducible apply State.raise_only | with_reducible apply State.wake_only
    | with_reducible apply OnlyOut.next | with_reducible apply OnlyOut.fault
    | with_reducible apply OnlyOut.ite | with_reducible apply OnlyOpt.none
    | with_reducible apply OnlyOpt.some | with_reducible apply OnlyM.ite
    | split | with_reducible apply OnlyM.update

theorem execWakeSource_only {M0 : Nat} {s0 : State} {bad : List (Fin 32)} {s : State} (kp_s : OnlyM M0 s0 s)
    (hm : Sub 0x3C0000070A201200010CA0000305100000102040000B02403C58080010F1804040080004C01100000FFFFFD M0 := by exact Sub.of hm rfl) :
    OnlyOut M0 s0 (execWakeSource bad s) := by
  unfold execWakeSource
  repeat' first
    | (refine Sub.of hm ?_; exact Eq.refl _) | (refine Sub.bit hm ?_; exact Eq.refl _)
    | intro _ | with_reducible assumption
    | with_reducible apply State.wake_only | with_reducible apply OnlyOut.next
    | with_reducible apply OnlyOut.fault | with_reducible apply OnlyOut.ite
    | with_reducible apply OnlyM.ite
    | split

theorem execWatchTimerDue_only {M0 : Nat} {s0 : State} {k : Fin 4} {s : State} (kp_s : OnlyM M0 s0 s)
    (hm : Sub 0x80000003011000000000000000000000000000000000000000000000000000000000C M0 := by exact Sub.of hm rfl) :
    OnlyOut M0 s0 (execWatchTimerDue k s) := by
  unfold execWatchTimerDue
  repeat' first
    | (refine Sub.of hm ?_; exact Eq.refl _) | (refine Sub.bit hm ?_; exact Eq.refl _)
    | with_reducible refine State.put_only (WATCH_TMR_EN_holds ..) ?_ ?_
    | intro _ | with_reducible assumption | with_reducible apply State.raise_only
    | with_reducible apply OnlyOut.next | with_reducible apply OnlyOut.fault
    | with_reducible apply OnlyOut.ite | with_reducible apply OnlyM.ite
    | split

theorem execVbatOkRise_only {M0 : Nat} {s0 : State} {s : State} (kp_s : OnlyM M0 s0 s)
    (hm : Sub 0x140000000000000000000000000000000000000000000000000000000000000000020 M0 := by exact Sub.of hm rfl) :
    OnlyOut M0 s0 (execVbatOkRise s) := by
  unfold execVbatOkRise
  repeat' first
    | (refine Sub.of hm ?_; exact Eq.refl _) | (refine Sub.bit hm ?_; exact Eq.refl _)
    | (refine Or.inl (Sub.bit hm ?_); exact Eq.refl _) | with_reducible exact Or.inr rfl
    | with_reducible refine State.put_only WATCH_STAT_VBK_SRC_holds ?_ ?_
    | with_reducible refine State.set_only WATCH_SUPPLY_RAILFAIL_holds ?_ ?_
    | intro _ | with_reducible assumption
    | with_reducible apply State.modPwr_only | with_reducible apply OnlyOut.next
    | with_reducible apply OnlyOut.fault | with_reducible apply OnlyOut.ite
    | with_reducible apply OnlyOpt.none | with_reducible apply OnlyOpt.some
    | with_reducible apply OnlyM.ite
    | (extract_lets +onlyGivenNames x; refine OnlyM.cut (M0 := M0) (s0 := s0) x ?_ ?_ <;> first | (intro hx; clear_value x) | unfold x)
    | (extract_lets +onlyGivenNames x; clear_value x)
    | split | with_reducible apply OnlyM.update

theorem execVbatOkFall_only {M0 : Nat} {s0 : State} {torn : Bool} {s : State} (kp_s : OnlyM M0 s0 s)
    (hm : Sub 0x20120000140000000000080000000000000000000000000000000000000000000000000FFFFFD M0 := by exact Sub.of hm rfl) :
    OnlyOut M0 s0 (execVbatOkFall torn s) := by
  unfold execVbatOkFall
  repeat' first
    | (refine Sub.of hm ?_; exact Eq.refl _) | (refine Sub.bit hm ?_; exact Eq.refl _)
    | (refine Or.inl (Sub.bit hm ?_); exact Eq.refl _) | with_reducible exact Or.inr rfl
    | with_reducible refine State.put_only TIME_VT_VALID_holds ?_ ?_
    | with_reducible refine State.put_only WATCH_STAT_VBK_SRC_holds ?_ ?_
    | with_reducible refine State.put_only WATCH_STAT_XTAL_holds ?_ ?_
    | with_reducible refine State.inc_only WATCH_SUPPLY_BROWNOUT_holds ?_ ?_
    | intro _ | with_reducible assumption
    | with_reducible apply State.resetPackage_only | with_reducible apply State.modPwr_only
    | with_reducible apply OnlyOut.next | with_reducible apply OnlyOut.fault
    | with_reducible apply OnlyOut.ite | with_reducible apply OnlyOpt.none
    | with_reducible apply OnlyOpt.some | with_reducible apply OnlyM.ite
    | (extract_lets +onlyGivenNames x; refine OnlyM.cut (M0 := M0) (s0 := s0) x ?_ ?_ <;> first | (intro hx; clear_value x) | unfold x)
    | (extract_lets +onlyGivenNames x; clear_value x)
    | split | with_reducible apply OnlyM.update

theorem execRailInWindow_only {M0 : Nat} {s0 : State} {i : Fin 4} {s : State} (kp_s : OnlyM M0 s0 s)
    (hm : Sub 0x8000000000000000000000000000000000000000000000000000000000000000020 M0 := by exact Sub.of hm rfl) :
    OnlyOut M0 s0 (execRailInWindow i s) := by
  unfold execRailInWindow
  repeat' first
    | (refine Sub.of hm ?_; exact Eq.refl _) | (refine Sub.bit hm ?_; exact Eq.refl _)
    | (refine Or.inl (Sub.bit hm ?_); exact Eq.refl _) | with_reducible exact Or.inr rfl
    | with_reducible refine State.put_only (railLoc_holds ..) ?_ ?_
    | intro _ | with_reducible assumption | with_reducible apply State.modPwr_only
    | with_reducible apply OnlyOut.next | with_reducible apply OnlyOut.fault
    | with_reducible apply OnlyOut.ite | with_reducible apply OnlyM.ite
    | (extract_lets +onlyGivenNames x; refine OnlyM.cut (M0 := M0) (s0 := s0) x ?_ ?_ <;> first | (intro hx; clear_value x) | unfold x)
    | (extract_lets +onlyGivenNames x; clear_value x)
    | split | with_reducible apply OnlyM.update

theorem execRailFailure_only {M0 : Nat} {s0 : State} {i : Fin 4} {s : State} (kp_s : OnlyM M0 s0 s)
    (hm : Sub 0x10800003011000000000000000000000000000000000000000000000000000000002C M0 := by exact Sub.of hm rfl) :
    OnlyOut M0 s0 (execRailFailure i s) := by
  unfold execRailFailure
  repeat' first
    | (refine Sub.of hm ?_; exact Eq.refl _) | (refine Sub.bit hm ?_; exact Eq.refl _)
    | (refine Or.inl (Sub.bit hm ?_); exact Eq.refl _) | with_reducible exact Or.inr rfl
    | with_reducible refine State.set_only WATCH_SUPPLY_RAILFAIL_holds ?_ ?_
    | with_reducible refine State.set_only PWR_RAILS_PG_holds ?_ ?_
    | intro _ | with_reducible assumption | with_reducible apply State.raise_only
    | with_reducible apply State.modPwr_only | with_reducible apply OnlyOut.next
    | with_reducible apply OnlyOut.fault | with_reducible apply OnlyOut.ite
    | with_reducible apply OnlyOpt.none | with_reducible apply OnlyOpt.some
    | with_reducible apply OnlyM.ite
    | (extract_lets +onlyGivenNames x; refine OnlyM.cut (M0 := M0) (s0 := s0) x ?_ ?_ <;> first | (intro hx; clear_value x) | unfold x)
    | (extract_lets +onlyGivenNames x; clear_value x)
    | split | with_reducible apply OnlyM.update

theorem execRailRetry_only {M0 : Nat} {s0 : State} {s : State} (kp_s : OnlyM M0 s0 s)
    (hm : Sub 0x20 M0 := by exact Sub.of hm rfl) :
    OnlyOut M0 s0 (execRailRetry s) := by
  unfold execRailRetry
  repeat' first
    | (refine Sub.of hm ?_; exact Eq.refl _) | (refine Sub.bit hm ?_; exact Eq.refl _)
    | (refine Or.inl (Sub.bit hm ?_); exact Eq.refl _) | with_reducible exact Or.inr rfl
    | intro _ | with_reducible assumption
    | with_reducible apply State.modPwr_only | with_reducible apply OnlyOut.next
    | with_reducible apply OnlyOut.fault | with_reducible apply OnlyOut.ite
    | with_reducible apply OnlyOpt.none | with_reducible apply OnlyOpt.some
    | with_reducible apply OnlyM.ite
    | split | with_reducible apply OnlyM.update

theorem execRailWindowLoss_only {M0 : Nat} {s0 : State} {i : Fin 4} {inside : Bool} {s : State} (kp_s : OnlyM M0 s0 s)
    (hm : Sub 0x800003011000000000000000000000000000000000000000000000000000040002C M0 := by exact Sub.of hm rfl) :
    OnlyOut M0 s0 (execRailWindowLoss i inside s) := by
  unfold execRailWindowLoss
  repeat' first
    | (refine Sub.of hm ?_; exact Eq.refl _) | (refine Sub.bit hm ?_; exact Eq.refl _)
    | (refine Or.inl (Sub.bit hm ?_); exact Eq.refl _) | with_reducible exact Or.inr rfl
    | with_reducible refine State.put_only (railLoc_holds ..) ?_ ?_
    | intro _ | with_reducible assumption | with_reducible apply State.modPwr_only
    | with_reducible apply State.endCond_only | with_reducible apply State.raise_only
    | with_reducible apply State.startCond_only | with_reducible apply OnlyOut.next
    | with_reducible apply OnlyOut.fault | with_reducible apply OnlyOut.ite
    | with_reducible apply OnlyM.ite
    | (extract_lets +onlyGivenNames x; refine OnlyM.cut (M0 := M0) (s0 := s0) x ?_ ?_ <;> first | (intro hx; clear_value x) | unfold x)
    | (extract_lets +onlyGivenNames x; clear_value x)
    | split | with_reducible apply OnlyM.update

theorem execVbatLowChange_only {M0 : Nat} {s0 : State} {v : Byte} {s : State} (kp_s : OnlyM M0 s0 s)
    (hm : Sub 0x800003011000000000000000000000000000000000000000000000000000000000C M0 := by exact Sub.of hm rfl) :
    OnlyOut M0 s0 (execVbatLowChange v s) := by
  unfold execVbatLowChange
  repeat' first
    | (refine Sub.of hm ?_; exact Eq.refl _) | (refine Sub.bit hm ?_; exact Eq.refl _)
    | with_reducible refine State.set_only PWR_RAILS_VBAT_holds ?_ ?_
    | with_reducible refine State.put_only PWR_RAILS_VBAT_LOW_holds ?_ ?_
    | intro _ | with_reducible assumption
    | with_reducible apply State.raise_only | with_reducible apply State.startCond_only
    | with_reducible apply State.endCond_only | with_reducible apply OnlyOut.next
    | with_reducible apply OnlyOut.fault | with_reducible apply OnlyOut.ite
    | with_reducible apply OnlyM.ite
    | (extract_lets +onlyGivenNames x; refine OnlyM.cut (M0 := M0) (s0 := s0) x ?_ ?_ <;> first | (intro hx; clear_value x) | unfold x)
    | (extract_lets +onlyGivenNames x; clear_value x)
    | split

theorem execVbkLowChange_only {M0 : Nat} {s0 : State} {v : Byte} {s : State} (kp_s : OnlyM M0 s0 s)
    (hm : Sub 0x14000003011000000000000000000000000000000000000000000000000000000000C M0 := by exact Sub.of hm rfl) :
    OnlyOut M0 s0 (execVbkLowChange v s) := by
  unfold execVbkLowChange
  repeat' first
    | (refine Sub.of hm ?_; exact Eq.refl _) | (refine Sub.bit hm ?_; exact Eq.refl _)
    | with_reducible refine State.set_only WATCH_SUPPLY_VBK_holds ?_ ?_
    | with_reducible refine State.put_only WATCH_STAT_VBK_LOW_holds ?_ ?_
    | intro _ | with_reducible assumption
    | with_reducible apply State.raise_only | with_reducible apply State.startCond_only
    | with_reducible apply State.endCond_only | with_reducible apply OnlyOut.next
    | with_reducible apply OnlyOut.fault | with_reducible apply OnlyOut.ite
    | with_reducible apply OnlyM.ite
    | (extract_lets +onlyGivenNames x; refine OnlyM.cut (M0 := M0) (s0 := s0) x ?_ ?_ <;> first | (intro hx; clear_value x) | unfold x)
    | (extract_lets +onlyGivenNames x; clear_value x)
    | split

theorem execVbkLowWindowOpen_only {M0 : Nat} {s0 : State} {s : State} (kp_s : OnlyM M0 s0 s)
    (hm : Sub 0x20 M0 := by exact Sub.of hm rfl) :
    OnlyOut M0 s0 (execVbkLowWindowOpen s) := by
  unfold execVbkLowWindowOpen
  repeat' first
    | (refine Sub.of hm ?_; exact Eq.refl _) | (refine Sub.bit hm ?_; exact Eq.refl _)
    | (refine Or.inl (Sub.bit hm ?_); exact Eq.refl _) | with_reducible exact Or.inr rfl
    | intro _ | with_reducible assumption
    | with_reducible apply State.modPwr_only | with_reducible apply OnlyOut.next
    | with_reducible apply OnlyOut.fault | with_reducible apply OnlyOut.ite
    | with_reducible apply OnlyM.ite
    | split | with_reducible apply OnlyM.update

theorem State.lapse_only {M0 : Nat} {s0 : State} {s : State} (kp_s : OnlyM M0 s0 s)
    (hm : Sub 0x20000000000000003011008801000000000000000000000000000000000000000000000000002C M0 := by exact Sub.of hm rfl) :
    OnlyM M0 s0 (State.lapse s) := by
  unfold State.lapse
  repeat' first
    | (refine Sub.of hm ?_; exact Eq.refl _) | (refine Sub.bit hm ?_; exact Eq.refl _)
    | (refine Or.inl (Sub.bit hm ?_); exact Eq.refl _) | with_reducible exact Or.inr rfl
    | with_reducible refine State.setWord64_only (Part.holds.own TIME_VT_FRAC_holds) TIME_VT_FRAC_next ?_ ?_
    | with_reducible refine State.setWord64_only (Part.holds.own TIME_SEC_LAST_NS_holds) TIME_SEC_LAST_NS_next ?_ ?_
    | with_reducible refine State.put_only VAULT_STAT_RAMVALID_holds ?_ ?_
    | intro _ | with_reducible assumption | with_reducible apply State.modPwr_only
    | with_reducible apply State.setTrust_only
    | (extract_lets +onlyGivenNames x; refine OnlyM.cut (M0 := M0) (s0 := s0) x ?_ ?_ <;> first | (intro hx; clear_value x) | unfold x)
    | (extract_lets +onlyGivenNames x; clear_value x)
    | with_reducible apply OnlyM.update

theorem execLapseDecision_only {M0 : Nat} {s0 : State} {rose : Bool} {s : State} (kp_s : OnlyM M0 s0 s)
    (hm : Sub 0x20000000000000003011008801000000000000000000000000000000000000000000000000002C M0 := by exact Sub.of hm rfl) :
    OnlyOut M0 s0 (execLapseDecision rose s) := by
  unfold execLapseDecision
  repeat' first
    | (refine Sub.of hm ?_; exact Eq.refl _) | (refine Sub.bit hm ?_; exact Eq.refl _)
    | (refine Or.inl (Sub.bit hm ?_); exact Eq.refl _) | with_reducible exact Or.inr rfl
    | intro _ | with_reducible assumption
    | with_reducible apply State.modPwr_only | with_reducible apply State.lapse_only
    | with_reducible apply OnlyOut.next | with_reducible apply OnlyOut.fault
    | with_reducible apply OnlyOut.ite | with_reducible apply OnlyOpt.none
    | with_reducible apply OnlyOpt.some | with_reducible apply OnlyM.ite
    | split | with_reducible apply OnlyM.update

theorem execCrystalStable_only {M0 : Nat} {s0 : State} {s : State} (kp_s : OnlyM M0 s0 s)
    (hm : Sub 0x18000000000000000004800003011008000000000000000000000000000000000000000000000000000002C M0 := by exact Sub.of hm rfl) :
    OnlyOut M0 s0 (execCrystalStable s) := by
  unfold execCrystalStable
  repeat' first
    | (refine Sub.of hm ?_; exact Eq.refl _) | (refine Sub.bit hm ?_; exact Eq.refl _)
    | (refine Or.inl (Sub.bit hm ?_); exact Eq.refl _) | with_reducible exact Or.inr rfl
    | with_reducible refine State.put_only WATCH_STAT_XTAL_holds ?_ ?_
    | with_reducible refine State.put_only TIME_VT_VALID_holds ?_ ?_
    | intro _ | with_reducible assumption | with_reducible apply State.modPwr_only
    | with_reducible apply State.showSupply_only | with_reducible apply State.setReady_only
    | with_reducible apply OnlyOut.next | with_reducible apply OnlyOut.fault
    | with_reducible apply OnlyOut.ite | with_reducible apply State.when_only
    | with_reducible apply OnlyM.ite
    | (extract_lets +onlyGivenNames x; refine OnlyM.cut (M0 := M0) (s0 := s0) x ?_ ?_ <;> first | (intro hx; clear_value x) | unfold x)
    | (extract_lets +onlyGivenNames x; clear_value x)
    | split | with_reducible apply OnlyM.update

theorem execClockLoss_only {M0 : Nat} {s0 : State} {ref lost : Bool} {s : State} (kp_s : OnlyM M0 s0 s)
    (hm : Sub 0x18000000000000000004800003011008000000000000000000000000000000000000000000000000000002C M0 := by exact Sub.of hm rfl) :
    OnlyOut M0 s0 (execClockLoss ref lost s) := by
  unfold execClockLoss
  repeat' first
    | (refine Sub.of hm ?_; exact Eq.refl _) | (refine Sub.bit hm ?_; exact Eq.refl _)
    | (refine Or.inl (Sub.bit hm ?_); exact Eq.refl _) | with_reducible exact Or.inr rfl
    | with_reducible refine State.put_only PWR_RAILS_REF_OK_holds ?_ ?_
    | with_reducible refine State.put_only WATCH_STAT_XTAL_holds ?_ ?_
    | with_reducible refine State.put_only PWR_RAILS_XW_OK_holds ?_ ?_
    | with_reducible refine State.put_only TIME_VT_VALID_holds ?_ ?_
    | intro _ | with_reducible assumption
    | with_reducible apply State.modPwr_only
    | with_reducible apply State.raise_only | with_reducible apply State.startCond_only
    | with_reducible apply State.endCond_only | with_reducible apply State.setReady_only
    | with_reducible apply OnlyOut.next | with_reducible apply OnlyOut.fault
    | with_reducible apply OnlyOut.ite | with_reducible apply OnlyM.ite
    | (extract_lets +onlyGivenNames x; refine OnlyM.cut (M0 := M0) (s0 := s0) x ?_ ?_ <;> first | (intro hx; clear_value x) | unfold x)
    | (extract_lets +onlyGivenNames x; clear_value x)
    | split | with_reducible apply OnlyM.update

theorem execPowerOnReset_only {M0 : Nat} {s0 : State} {rcvr : Bool} {bad : List (Fin 32)} {s : State} (kp_s : OnlyM M0 s0 s)
    (hm : Sub 0x140020170000180000030110080000000000000000000000000000000000000000000000000FFFFFD M0 := by exact Sub.of hm rfl) :
    OnlyOut M0 s0 (execPowerOnReset rcvr bad s) := by
  unfold execPowerOnReset
  repeat' first
    | (refine Sub.of hm ?_; exact Eq.refl _) | (refine Sub.bit hm ?_; exact Eq.refl _)
    | (refine Or.inl (Sub.bit hm ?_); exact Eq.refl _) | with_reducible exact Or.inr rfl
    | with_reducible refine State.put_only TIME_VT_VALID_holds ?_ ?_
    | with_reducible refine State.set_only WATCH_WAKE_CAUSE_holds ?_ ?_
    | with_reducible refine State.set_only WATCH_SUPPLY_RAILFAIL_holds ?_ ?_
    | intro _ | with_reducible assumption
    | with_reducible apply State.resetPackage_only | with_reducible apply State.modPwr_only
    | with_reducible apply State.tamperFlush_only | with_reducible apply State.checkSealed_only
    | with_reducible apply State.ramorny_only | with_reducible apply OnlyOut.next
    | with_reducible apply OnlyOut.fault | with_reducible apply OnlyOut.ite
    | with_reducible apply OnlyM.ite
    | (extract_lets +onlyGivenNames x; refine OnlyM.cut (M0 := M0) (s0 := s0) x ?_ ?_ <;> first | (intro hx; clear_value x) | unfold x)
    | (extract_lets +onlyGivenNames x; clear_value x)
    | split | with_reducible apply OnlyM.update

theorem execPackageReset_only {M0 : Nat} {s0 : State} {bad : List (Fin 32)} {s : State} (kp_s : OnlyM M0 s0 s)
    (hm : Sub 0x20120000000000030110000000000000000000000000000000000000000000000000000FFFFFD M0 := by exact Sub.of hm rfl) :
    OnlyOut M0 s0 (execPackageReset bad s) := by
  unfold execPackageReset
  repeat' first
    | (refine Sub.of hm ?_; exact Eq.refl _) | (refine Sub.bit hm ?_; exact Eq.refl _)
    | (refine Or.inl (Sub.bit hm ?_); exact Eq.refl _) | with_reducible exact Or.inr rfl
    | intro _ | with_reducible assumption
    | with_reducible apply State.resetPackage_only | with_reducible apply State.modPwr_only
    | with_reducible apply State.checkSealed_only | with_reducible apply OnlyOut.next
    | with_reducible apply OnlyOut.fault | with_reducible apply OnlyOut.ite
    | with_reducible apply OnlyM.ite
    | (extract_lets +onlyGivenNames x; refine OnlyM.cut (M0 := M0) (s0 := s0) x ?_ ?_ <;> first | (intro hx; clear_value x) | unfold x)
    | (extract_lets +onlyGivenNames x; clear_value x)
    | split | with_reducible apply OnlyM.update

theorem execResetRelease_only {M0 : Nat} {s0 : State} {rcvr : Bool} {s : State} (kp_s : OnlyM M0 s0 s)
    (hm : Sub 0x10000005000000000003011000000000000000000000000000000000000000000000000000000002C M0 := by exact Sub.of hm rfl) :
    OnlyOut M0 s0 (execResetRelease rcvr s) := by
  unfold execResetRelease
  repeat' first
    | (refine Sub.of hm ?_; exact Eq.refl _) | (refine Sub.bit hm ?_; exact Eq.refl _)
    | (refine Or.inl (Sub.bit hm ?_); exact Eq.refl _) | with_reducible exact Or.inr rfl
    | intro _ | with_reducible assumption
    | with_reducible apply State.modPwr_only | with_reducible apply State.ramorny_only
    | with_reducible apply OnlyOut.next | with_reducible apply OnlyOut.fault
    | with_reducible apply OnlyOut.ite | with_reducible apply OnlyM.ite
    | (extract_lets +onlyGivenNames x; refine OnlyM.cut (M0 := M0) (s0 := s0) x ?_ ?_ <;> first | (intro hx; clear_value x) | unfold x)
    | (extract_lets +onlyGivenNames x; clear_value x)
    | split | with_reducible apply OnlyM.update

end Sys2Proof.Machine
end

