-- ==== Sys2Proof/Laws/OnlyImageFormat.lean ====
section
/-! SUPPORT. Which parts each operation of `Machine/ImageFormat.lean` may change, and that it keeps what every command keeps: each
lemma follows the operation's own text, piece by piece, and gives the parts as a set of part numbers. -/

namespace Sys2Proof.Machine

theorem State.declare_only {M0 : Nat} {s0 : State} {s : State} {m : Word} {v : Nat × Word × Word} (kp_s : OnlyM M0 s0 s)
    (hm : Sub 0x800000 M0 := by exact Sub.of hm rfl) :
    OnlyM M0 s0 (State.declare s m v) := by
  unfold State.declare
  repeat' first
    | (refine Sub.of hm ?_; exact Eq.refl _) | (refine Sub.bit hm ?_; exact Eq.refl _)
    | with_reducible refine State.setWord_any_only ?_ ?_
    | intro _ | with_reducible assumption
    | (extract_lets +onlyGivenNames x; refine OnlyM.cut (M0 := M0) (s0 := s0) x ?_ ?_ <;> first | (intro hx; clear_value x) | unfold x)
    | (extract_lets +onlyGivenNames x; clear_value x)

theorem State.declareAll_only {M0 : Nat} {s0 : State} {s : State} {m : Nat → Word} {ds : List Config.Decl} (kp_s : OnlyM M0 s0 s)
    (hm : Sub 0x800000 M0 := by exact Sub.of hm rfl) :
    OnlyM M0 s0 (State.declareAll s m ds) := by
  unfold State.declareAll
  repeat' first
    | (refine Sub.of hm ?_; exact Eq.refl _) | (refine Sub.bit hm ?_; exact Eq.refl _)
    | intro _ | with_reducible assumption
    | with_reducible apply State.declare_only | with_reducible apply State.each_only

theorem State.defaults_only {M0 : Nat} {s0 : State} {s : State} {b : List Byte} (kp_s : OnlyM M0 s0 s)
    (hm : Sub 0x1000000000000000000000600000000000000000 M0 := by exact Sub.of hm rfl) :
    OnlyM M0 s0 (State.defaults s b) := by
  unfold State.defaults
  repeat' first
    | (refine Sub.of hm ?_; exact Eq.refl _) | (refine Sub.bit hm ?_; exact Eq.refl _)
    | with_reducible refine State.set_only (GW_RT_H_NS_holds ..) ?_ ?_
    | with_reducible refine State.set_only (BT_PLCA_NCOUNT_holds ..) ?_ ?_
    | with_reducible refine State.set_only (BT_PLCA_TO_TMR_holds ..) ?_ ?_
    | with_reducible refine State.set_only (BT_PLCA_TMR_BURST_TMR_holds ..) ?_ ?_
    | intro _ | with_reducible assumption | with_reducible apply State.each_only
    | with_reducible apply OnlyM.ite
    | (extract_lets +onlyGivenNames x; refine OnlyM.cut (M0 := M0) (s0 := s0) x ?_ ?_ <;> first | (intro hx; clear_value x) | unfold x)
    | (extract_lets +onlyGivenNames x; clear_value x)
    | split

theorem State.derived_only {M0 : Nat} {s0 : State} {s : State} {b : List Byte} (kp_s : OnlyM M0 s0 s)
    (hm : Sub 0x10000000000000000000000000000000000000080200020000000000000000000000000000000000000 M0 := by exact Sub.of hm rfl) :
    OnlyM M0 s0 (State.derived s b) := by
  unfold State.derived
  repeat' first
    | (refine Sub.of hm ?_; exact Eq.refl _) | (refine Sub.bit hm ?_; exact Eq.refl _)
    | (refine Or.inl (Sub.bit hm ?_); exact Eq.refl _) | with_reducible exact Or.inr rfl
    | with_reducible refine State.set_only GW_STAT_NROUTE_holds ?_ ?_
    | with_reducible refine State.set_only GW_STAT_NLEG_holds ?_ ?_
    | with_reducible refine State.set_only (RGN_STAT_CLUSTERS_holds ..) ?_ ?_
    | with_reducible refine State.set_only (GW_LEG_Q_QDEPTH_holds ..) ?_ ?_
    | with_reducible refine State.put_only CON_STAT_MEMBER_holds ?_ ?_
    | with_reducible refine State.set_only CON_STAT_SELF_holds ?_ ?_
    | intro _ | with_reducible assumption
    | with_reducible apply State.each_only | with_reducible apply OnlyOpt.none
    | with_reducible apply OnlyOpt.some | with_reducible apply OnlyM.ite
    | (extract_lets +onlyGivenNames x; refine OnlyM.cut (M0 := M0) (s0 := s0) x ?_ ?_ <;> first | (intro hx; clear_value x) | unfold x)
    | (extract_lets +onlyGivenNames x; clear_value x)
    | split | with_reducible apply OnlyM.update

theorem State.deriveM_only {M0 : Nat} {s0 : State} {s : State} {b : List Byte} (kp_s : OnlyM M0 s0 s)
    (hm : Sub 0x8000000000000000000000000000000000000000 M0 := by exact Sub.of hm rfl) :
    OnlyM M0 s0 (State.deriveM s b) := by
  unfold State.deriveM
  repeat' first
    | (refine Sub.of hm ?_; exact Eq.refl _) | (refine Sub.bit hm ?_; exact Eq.refl _)
    | with_reducible refine State.set_only (GW_RT_LEGS_M_holds ..) ?_ ?_
    | intro _ | with_reducible assumption | with_reducible apply State.each_only

theorem State.ethOrder_only {M0 : Nat} {s0 : State} {s : State} {b : List Byte} (kp_s : OnlyM M0 s0 s)
    (hm : Sub 0x40000000000000000000000000000 M0 := by exact Sub.of hm rfl) :
    OnlyM M0 s0 (State.ethOrder s b) := by
  unfold State.ethOrder
  repeat' first
    | (refine Sub.of hm ?_; exact Eq.refl _) | (refine Sub.bit hm ?_; exact Eq.refl _)
    | with_reducible refine State.put_only (MOP_PORTQ_ORDER_holds ..) ?_ ?_
    | intro _ | with_reducible assumption | with_reducible apply State.each_only
    | with_reducible apply OnlyM.ite
    | split

theorem undeclared_wf {m : SMap Word} {a : Nat} (h : smapWfFrom resetWord a m = true) :
    smapWfFrom resetWord a (undeclared m) = true := by
  induction m generalizing a with
  | nil => exact h
  | cons e m ih =>
    obtain ⟨b, w⟩ := e
    simp only [smapWfFrom, Bool.and_eq_true, decide_eq_true_eq] at h
    unfold undeclared
    extract_lets i v
    clear_value v
    split
    · exact smapWfFrom_mono (b := b + 1) (by omega) (ih h.2)
    · simp only [smapWfFrom, Bool.and_eq_true, decide_eq_true_eq]
      exact ⟨⟨h.1.1, ‹_›⟩, ih h.2⟩

theorem State.candidate_only {M0 : Nat} {s0 s : State} {b : List Byte} (hs : OnlyM M0 s0 s)
    (hm : Sub 0x10000000000000000000000000000000000000080209020000000040000000000600000000000800000 M0 := by exact Sub.of hm rfl) :
    OnlyM M0 s0 (s.candidate b) := by
  unfold State.candidate
  exact State.ethOrder_only (State.deriveM_only (State.declareAll_only (State.derived_only (State.defaults_only (State.declareAll_only
    (OnlyM.anyRegs hs undeclared_wf (Sub.bit hm rfl)))))))

end Sys2Proof.Machine
end

