-- ==== Sys2Proof/Laws/OnlyImageCheck.lean ====
section
/-! SUPPORT. Which parts each operation of `Machine/ImageCheck.lean` may change, and that it keeps what every command keeps: each
lemma follows the operation's own text, piece by piece, and gives the parts as a set of part numbers. -/

namespace Sys2Proof.Machine

theorem State.runCheck_only {M0 : Nat} {s0 : State} {s : State} {b : List Byte} {len : Nat} (kp_s : OnlyM M0 s0 s)
    (hm : Sub 0x32000000 M0 := by exact Sub.of hm rfl) :
    OnlyM M0 s0 (State.runCheck s b len).2 := by
  unfold State.runCheck
  repeat' first
    | (refine Sub.of hm ?_; exact Eq.refl _) | (refine Sub.bit hm ?_; exact Eq.refl _)
    | (refine Or.inl (Sub.bit hm ?_); exact Eq.refl _) | with_reducible exact Or.inr rfl
    | with_reducible refine State.set_only IMG_STATUS_REASON_holds ?_ ?_
    | with_reducible refine State.setWord_only (Part.holds.own IMG_CHK_LOC_SECT_holds) ?_ ?_
    | with_reducible refine State.set_only IMG_CHK_COUNT_COUNT_holds ?_ ?_
    | with_reducible refine State.set_only IMG_CHK_LOC_SECT_holds ?_ ?_
    | with_reducible refine State.set_only IMG_CHK_LOC_ENTRY_holds ?_ ?_
    | intro _ | with_reducible assumption
    | (extract_lets +onlyGivenNames x; refine OnlyM.cut (M0 := M0) (s0 := s0) x ?_ ?_ <;> first | (intro hx; clear_value x) | unfold x)
    | (extract_lets +onlyGivenNames x; clear_value x)
    | split | with_reducible apply OnlyM.update

end Sys2Proof.Machine
end

