-- ==== Sys2Proof/Laws/OnlyImageOps.lean ====
section
/-! SUPPORT. Which parts each operation of `Machine/ImageOps.lean` may change, and that it keeps what every command keeps: each
lemma follows the operation's own text, piece by piece, and gives the parts as a set of part numbers. -/

namespace Sys2Proof.Machine

theorem State.modImg_only {M0 : Nat} {s0 : State} {s : State} {f : Image → Image} (kp_s : OnlyM M0 s0 s)
    (hm : Sub 0x20000 M0 := by exact Sub.of hm rfl) :
    OnlyM M0 s0 (State.modImg s f) := by
  unfold State.modImg
  repeat' first
    | (refine Sub.of hm ?_; exact Eq.refl _) | (refine Sub.bit hm ?_; exact Eq.refl _)
    | (refine Or.inl (Sub.bit hm ?_); exact Eq.refl _) | with_reducible exact Or.inr rfl
    | intro _ | with_reducible assumption
    | with_reducible apply OnlyM.update

theorem State.showJournal_only {M0 : Nat} {s0 : State} {s : State} (kp_s : OnlyM M0 s0 s)
    (hm : Sub 0x100000000 M0 := by exact Sub.of hm rfl) :
    OnlyM M0 s0 (State.showJournal s) := by
  unfold State.showJournal
  repeat' first
    | (refine Sub.of hm ?_; exact Eq.refl _) | (refine Sub.bit hm ?_; exact Eq.refl _)
    | with_reducible refine State.set_only IMG_JRNL_STATE_holds ?_ ?_
    | with_reducible refine State.put_only IMG_JRNL_GOV_holds ?_ ?_
    | with_reducible refine State.put_only IMG_JRNL_GOV_VALID_holds ?_ ?_
    | intro _ | with_reducible assumption
    | (extract_lets +onlyGivenNames x; refine OnlyM.cut (M0 := M0) (s0 := s0) x ?_ ?_ <;> first | (intro hx; clear_value x) | unfold x)
    | (extract_lets +onlyGivenNames x; clear_value x)

theorem State.writeJournal_only {M0 : Nat} {s0 : State} {s : State} {c : JCopy} (kp_s : OnlyM M0 s0 s)
    (hm : Sub 0x100020000 M0 := by exact Sub.of hm rfl) :
    OnlyM M0 s0 (State.writeJournal s c) := by
  unfold State.writeJournal
  repeat' first
    | (refine Sub.of hm ?_; exact Eq.refl _) | (refine Sub.bit hm ?_; exact Eq.refl _)
    | intro _ | with_reducible assumption
    | with_reducible apply State.modImg_only | with_reducible apply State.showJournal_only

theorem State.journalIdle_only {M0 : Nat} {s0 : State} {s : State} (kp_s : OnlyM M0 s0 s)
    (hm : Sub 0x100020000 M0 := by exact Sub.of hm rfl) :
    OnlyM M0 s0 (State.journalIdle s) := by
  unfold State.journalIdle
  repeat' first
    | (refine Sub.of hm ?_; exact Eq.refl _) | (refine Sub.bit hm ?_; exact Eq.refl _)
    | (refine Or.inl (Sub.bit hm ?_); exact Eq.refl _) | with_reducible exact Or.inr rfl
    | intro _ | with_reducible assumption
    | with_reducible apply State.writeJournal_only | with_reducible apply State.modImg_only
    | (extract_lets +onlyGivenNames x; refine OnlyM.cut (M0 := M0) (s0 := s0) x ?_ ?_ <;> first | (intro hx; clear_value x) | unfold x)
    | (extract_lets +onlyGivenNames x; clear_value x)
    | with_reducible apply OnlyM.update

theorem State.startCommit_only {M0 : Nat} {s0 : State} {s : State} (kp_s : OnlyM M0 s0 s)
    (hm : Sub 0x2020000 M0 := by exact Sub.of hm rfl) :
    OnlyM M0 s0 (State.startCommit s) := by
  unfold State.startCommit
  repeat' first
    | (refine Sub.of hm ?_; exact Eq.refl _) | (refine Sub.bit hm ?_; exact Eq.refl _)
    | (refine Or.inl (Sub.bit hm ?_); exact Eq.refl _) | with_reducible exact Or.inr rfl
    | with_reducible refine State.set_only IMG_STATUS_PHASE_holds ?_ ?_
    | intro _ | with_reducible assumption
    | with_reducible apply State.modImg_only
    | (extract_lets +onlyGivenNames x; refine OnlyM.cut (M0 := M0) (s0 := s0) x ?_ ?_ <;> first | (intro hx; clear_value x) | unfold x)
    | (extract_lets +onlyGivenNames x; clear_value x)
    | with_reducible apply OnlyM.update

theorem State.imgAbort_only {M0 : Nat} {s0 : State} {s : State} (kp_s : OnlyM M0 s0 s)
    (hm : Sub 0x102020000 M0 := by exact Sub.of hm rfl) :
    OnlyM M0 s0 (State.imgAbort s) := by
  unfold State.imgAbort
  repeat' first
    | (refine Sub.of hm ?_; exact Eq.refl _) | (refine Sub.bit hm ?_; exact Eq.refl _)
    | (refine Or.inl (Sub.bit hm ?_); exact Eq.refl _) | with_reducible exact Or.inr rfl
    | with_reducible refine State.set_only IMG_STATUS_PHASE_holds ?_ ?_
    | intro _ | with_reducible assumption
    | with_reducible apply State.journalIdle_only | with_reducible apply State.modImg_only | with_reducible apply OnlyM.ite
    | (extract_lets +onlyGivenNames x; refine OnlyM.cut (M0 := M0) (s0 := s0) x ?_ ?_ <;> first | (intro hx; clear_value x) | unfold x)
    | (extract_lets +onlyGivenNames x; clear_value x)
    | split | with_reducible apply OnlyM.update

theorem State.commitWords_only {M0 : Nat} {s0 : State} {s c : State} {p : Nat → Bool} (kp_s : OnlyM M0 s0 s) (kp_c : OnlyM M0 s0 c)
    (hm : Sub 0x800000 M0 := by exact Sub.of hm rfl) :
    OnlyM M0 s0 (State.commitWords s c p) := by
  unfold State.commitWords
  repeat' first
    | (refine Sub.of hm ?_; exact Eq.refl _) | (refine Sub.bit hm ?_; exact Eq.refl _)
    | with_reducible refine State.setWord_any_only ?_ ?_
    | intro _ | with_reducible assumption | with_reducible apply State.each_only

theorem State.resetSlot_only {M0 : Nat} {s0 : State} {s : State} {p k : Nat} (kp_s : OnlyM M0 s0 s)
    (hm : Sub 0x1070800000000000000000000000400 M0 := by exact Sub.of hm rfl) :
    OnlyM M0 s0 (State.resetSlot s p k) := by
  unfold State.resetSlot
  repeat' first
    | (refine Sub.of hm ?_; exact Eq.refl _) | (refine Sub.bit hm ?_; exact Eq.refl _)
    | with_reducible refine State.setWord_only (Part.holds.own (MOP_DESC_W_holds ..)) ?_ ?_
    | intro _ | with_reducible assumption
    | with_reducible apply State.returnBuf_only | with_reducible apply State.setSlotState_only | with_reducible apply State.modSlot_only
    | with_reducible apply State.each_only | with_reducible apply OnlyM.ite
    | (extract_lets +onlyGivenNames x; refine OnlyM.cut (M0 := M0) (s0 := s0) x ?_ ?_ <;> first | (intro hx; clear_value x) | unfold x)
    | (extract_lets +onlyGivenNames x; clear_value x)
    | split

theorem State.leavePools_only {M0 : Nat} {s0 : State} {s co c : State} {old new : List Byte} {n : Nat} (kp_s : OnlyM M0 s0 s) (kp_co : OnlyM M0 s0 co) (kp_c : OnlyM M0 s0 c)
    (hm : Sub 0x301100000002000000302403C00000010F1C00000000000C0010000001964D M0 := by exact Sub.of hm rfl) :
    OnlyM M0 s0 (State.leavePools s co c old new n) := by
  unfold State.leavePools
  repeat' first
    | (refine Sub.of hm ?_; exact Eq.refl _) | (refine Sub.bit hm ?_; exact Eq.refl _)
    | (refine Or.inl (Sub.bit hm ?_); exact Eq.refl _) | with_reducible exact Or.inr rfl
    | with_reducible refine State.set_only (MOP_POOL_CFG1_KIND_holds ..) ?_ ?_
    | intro _ | with_reducible assumption
    | with_reducible apply State.dropPool_only | with_reducible apply State.resetSlot_only | with_reducible apply State.each_only
    | (extract_lets +onlyGivenNames x; refine OnlyM.cut (M0 := M0) (s0 := s0) x ?_ ?_ <;> first | (intro hx; clear_value x) | unfold x)
    | (extract_lets +onlyGivenNames x; clear_value x)
    | with_reducible apply OnlyM.update

theorem State.takeFixed_only {M0 : Nat} {s0 : State} {s : State} {f : Nat} {large : Bool} (kp_s : OnlyM M0 s0 s)
    (hm : Sub 0x30000000000000000000000000400 M0 := by exact Sub.of hm rfl) :
    OnlyM M0 s0 (State.takeFixed s f large).2 := by
  unfold State.takeFixed
  repeat' first
    | (refine Sub.of hm ?_; exact Eq.refl _) | (refine Sub.bit hm ?_; exact Eq.refl _)
    | intro _ | with_reducible assumption
    | with_reducible apply State.setFreeBufs_only | with_reducible apply OnlyM.ite
    | (extract_lets +onlyGivenNames x; refine OnlyM.cut (M0 := M0) (s0 := s0) x ?_ ?_ <;> first | (intro hx; clear_value x) | unfold x)
    | (extract_lets +onlyGivenNames x; clear_value x)
    | split

theorem State.joinSlot_only {M0 : Nat} {s0 : State} {s : State} {p k : Nat} (kp_s : OnlyM M0 s0 s)
    (hm : Sub 0x1030000000000000000000000000400 M0 := by exact Sub.of hm rfl) :
    OnlyM M0 s0 (State.joinSlot s p k) := by
  unfold State.joinSlot
  repeat' first
    | (refine Sub.of hm ?_; exact Eq.refl _) | (refine Sub.bit hm ?_; exact Eq.refl _)
    | (refine Or.inl (Sub.bit hm ?_); exact Eq.refl _) | with_reducible exact Or.inr rfl
    | with_reducible refine State.set_only (MOP_DESC_PORT_holds ..) ?_ ?_
    | intro _ | with_reducible assumption | with_reducible apply State.takeFixed_only
    | with_reducible apply State.setBuf_only | with_reducible apply State.modSlot_only
    | with_reducible apply OnlyM.ite
    | (extract_lets +onlyGivenNames x; refine OnlyM.cut (M0 := M0) (s0 := s0) x ?_ ?_ <;> first | (intro hx; clear_value x) | unfold x)
    | (extract_lets +onlyGivenNames x; clear_value x)
    | with_reducible (refine OnlyM.pair ?_ (by assumption))
    | split | with_reducible apply OnlyM.update

theorem State.joinPools_only {M0 : Nat} {s0 : State} {s was left : State} {ps : List Nat} (kp_s : OnlyM M0 s0 s) (kp_was : OnlyM M0 s0 was) (kp_left : OnlyM M0 s0 left)
    (hm : Sub 0x1030800000000000000000000000400 M0 := by exact Sub.of hm rfl) :
    OnlyM M0 s0 (State.joinPools s was left ps) := by
  unfold State.joinPools
  repeat' first
    | (refine Sub.of hm ?_; exact Eq.refl _) | (refine Sub.bit hm ?_; exact Eq.refl _)
    | with_reducible refine State.set_only (MOP_POOL_STAT_FREE_holds ..) ?_ ?_
    | intro _ | with_reducible assumption
    | with_reducible apply State.joinSlot_only
    | with_reducible apply State.each_only
    | (extract_lets +onlyGivenNames x; refine OnlyM.cut (M0 := M0) (s0 := s0) x ?_ ?_ <;> first | (intro hx; clear_value x) | unfold x)
    | (extract_lets +onlyGivenNames x; clear_value x)

theorem State.startLayouts_only {M0 : Nat} {s0 : State} {s co c : State} {old new : List Byte} (kp_s : OnlyM M0 s0 s) (kp_co : OnlyM M0 s0 co) (kp_c : OnlyM M0 s0 c)
    (hm : Sub 0x400 M0 := by exact Sub.of hm rfl) :
    OnlyM M0 s0 (State.startLayouts s co c old new) := by
  unfold State.startLayouts
  repeat' first
    | (refine Sub.of hm ?_; exact Eq.refl _) | (refine Sub.bit hm ?_; exact Eq.refl _)
    | (refine Or.inl (Sub.bit hm ?_); exact Eq.refl _) | with_reducible exact Or.inr rfl
    | intro _ | with_reducible assumption
    | (extract_lets +onlyGivenNames x; refine OnlyM.cut (M0 := M0) (s0 := s0) x ?_ ?_ <;> first | (intro hx; clear_value x) | unfold x)
    | (extract_lets +onlyGivenNames x; clear_value x)
    | with_reducible apply OnlyM.update

theorem State.emptyTable_only {M0 : Nat} {s0 : State} {s : State} {t : TableVer} (kp_s : OnlyM M0 s0 s)
    (hm : Sub 0x2000000000000000000000000000000800 M0 := by exact Sub.of hm rfl) :
    OnlyM M0 s0 (State.emptyTable s t) := by
  unfold State.emptyTable
  repeat' first
    | (refine Sub.of hm ?_; exact Eq.refl _) | (refine Sub.bit hm ?_; exact Eq.refl _)
    | (refine Or.inl (Sub.bit hm ?_); exact Eq.refl _) | with_reducible exact Or.inr rfl
    | with_reducible refine State.setWord_only (Part.holds.own (CAT_ENTRY_W_holds ..)) ?_ ?_
    | intro _ | with_reducible assumption | with_reducible apply State.each_only
    | (extract_lets +onlyGivenNames x; refine OnlyM.cut (M0 := M0) (s0 := s0) x ?_ ?_ <;> first | (intro hx; clear_value x) | unfold x)
    | (extract_lets +onlyGivenNames x; clear_value x)
    | with_reducible apply OnlyM.update

theorem State.fillTable_only {M0 : Nat} {s0 : State} {s : State} {b : List Byte} {t : TableVer} {d : Config.Decl} (kp_s : OnlyM M0 s0 s)
    (hm : Sub 0x2000000000000000000000000000000800 M0 := by exact Sub.of hm rfl) :
    OnlyM M0 s0 (State.fillTable s b t d) := by
  unfold State.fillTable
  repeat' first
    | (refine Sub.of hm ?_; exact Eq.refl _) | (refine Sub.bit hm ?_; exact Eq.refl _)
    | with_reducible refine State.setWord_only (Part.holds.own (CAT_ENTRY_W_holds ..)) ?_ ?_
    | intro _ | with_reducible assumption
    | with_reducible apply State.emptyTable_only
    | with_reducible apply State.each_only
    | (extract_lets +onlyGivenNames x; refine OnlyM.cut (M0 := M0) (s0 := s0) x ?_ ?_ <;> first | (intro hx; clear_value x) | unfold x)
    | (extract_lets +onlyGivenNames x; clear_value x)

theorem State.catUse_only {M0 : Nat} {s0 : State} {s c : State} (kp_s : OnlyM M0 s0 s) (kp_c : OnlyM M0 s0 c)
    (hm : Sub 0x40000000000000000000000000000000 M0 := by exact Sub.of hm rfl) :
    OnlyM M0 s0 (State.catUse s c) := by
  unfold State.catUse
  repeat' first
    | (refine Sub.of hm ?_; exact Eq.refl _) | (refine Sub.bit hm ?_; exact Eq.refl _)
    | with_reducible refine State.set_only CAT_USE_USED_holds ?_ ?_
    | with_reducible refine State.set_only CAT_USE_SPARE_holds ?_ ?_
    | intro _ | with_reducible assumption
    | (extract_lets +onlyGivenNames x; refine OnlyM.cut (M0 := M0) (s0 := s0) x ?_ ?_ <;> first | (intro hx; clear_value x) | unfold x)
    | (extract_lets +onlyGivenNames x; clear_value x)

theorem State.placeTables_only {M0 : Nat} {s0 : State} {s c : State} {new : List Byte} {live : Bool} (kp_s : OnlyM M0 s0 s) (kp_c : OnlyM M0 s0 c)
    (hm : Sub 0x2000000000000000000000000000020800 M0 := by exact Sub.of hm rfl) :
    OnlyM M0 s0 (State.placeTables s c new live) := by
  unfold State.placeTables
  repeat' first
    | (refine Sub.of hm ?_; exact Eq.refl _) | (refine Sub.bit hm ?_; exact Eq.refl _)
    | (refine Or.inl (Sub.bit hm ?_); exact Eq.refl _) | with_reducible exact Or.inr rfl
    | intro _ | with_reducible assumption
    | with_reducible apply State.modImg_only | with_reducible apply State.fillTable_only
    | with_reducible apply State.each_only
    | (extract_lets +onlyGivenNames x; refine OnlyM.cut (M0 := M0) (s0 := s0) x ?_ ?_ <;> first | (intro hx; clear_value x) | unfold x)
    | (extract_lets +onlyGivenNames x; clear_value x)
    | with_reducible apply OnlyM.update

theorem State.bindPort_only {M0 : Nat} {s0 : State} {s c : State} {n : Nat} (kp_s : OnlyM M0 s0 s) (kp_c : OnlyM M0 s0 c)
    (hm : Sub 0x800 M0 := by exact Sub.of hm rfl) :
    OnlyM M0 s0 (State.bindPort s c n) := by
  unfold State.bindPort
  repeat' first
    | (refine Sub.of hm ?_; exact Eq.refl _) | (refine Sub.bit hm ?_; exact Eq.refl _)
    | (refine Or.inl (Sub.bit hm ?_); exact Eq.refl _) | with_reducible exact Or.inr rfl
    | intro _ | with_reducible assumption
    | with_reducible apply OnlyM.ite
    | (extract_lets +onlyGivenNames x; refine OnlyM.cut (M0 := M0) (s0 := s0) x ?_ ?_ <;> first | (intro hx; clear_value x) | unfold x)
    | (extract_lets +onlyGivenNames x; clear_value x)
    | split | with_reducible apply OnlyM.update

theorem State.settleTables_only {M0 : Nat} {s0 : State} {s c : State} {old new : List Byte} (kp_s : OnlyM M0 s0 s) (kp_c : OnlyM M0 s0 c)
    (hm : Sub 0x20C0000000000000000000000000000800 M0 := by exact Sub.of hm rfl) :
    OnlyM M0 s0 (State.settleTables s c old new) := by
  unfold State.settleTables
  repeat' first
    | (refine Sub.of hm ?_; exact Eq.refl _) | (refine Sub.bit hm ?_; exact Eq.refl _)
    | (refine Or.inl (Sub.bit hm ?_); exact Eq.refl _) | with_reducible exact Or.inr rfl
    | with_reducible refine State.set_only (CAT_TBL_CFG0_BASE_holds ..) ?_ ?_
    | intro _ | with_reducible assumption | with_reducible apply State.emptyTable_only
    | with_reducible apply State.catUse_only | with_reducible apply State.each_only
    | (extract_lets +onlyGivenNames x; refine OnlyM.cut (M0 := M0) (s0 := s0) x ?_ ?_ <;> first | (intro hx; clear_value x) | unfold x)
    | (extract_lets +onlyGivenNames x; clear_value x)
    | with_reducible apply OnlyM.update

theorem State.showSuspended_only {M0 : Nat} {s0 : State} {s co : State} (kp_s : OnlyM M0 s0 s) (kp_co : OnlyM M0 s0 co)
    (hm : Sub 0x10000000000000000000000000000000002000000000 M0 := by exact Sub.of hm rfl) :
    OnlyM M0 s0 (State.showSuspended s co) := by
  unfold State.showSuspended
  repeat' first
    | (refine Sub.of hm ?_; exact Eq.refl _) | (refine Sub.bit hm ?_; exact Eq.refl _)
    | with_reducible refine State.set_only IMG_SUSP_ROUTES_holds ?_ ?_
    | with_reducible refine State.put_only (GW_EQ_STAT_SUSP_holds ..) ?_ ?_
    | intro _ | with_reducible assumption
    | with_reducible apply State.each_only
    | (extract_lets +onlyGivenNames x; refine OnlyM.cut (M0 := M0) (s0 := s0) x ?_ ?_ <;> first | (intro hx; clear_value x) | unfold x)
    | (extract_lets +onlyGivenNames x; clear_value x)

theorem State.suspendRoutes_only {M0 : Nat} {s0 : State} {s co : State} {old new : List Byte} (kp_s : OnlyM M0 s0 s) (kp_co : OnlyM M0 s0 co)
    (hm : Sub 0x3011000000000000001000000000000000000000000000000000200000100C M0 := by exact Sub.of hm rfl) :
    OnlyM M0 s0 (State.suspendRoutes s co old new) := by
  unfold State.suspendRoutes
  repeat' first
    | (refine Sub.of hm ?_; exact Eq.refl _) | (refine Sub.bit hm ?_; exact Eq.refl _)
    | (refine Or.inl (Sub.bit hm ?_); exact Eq.refl _) | with_reducible exact Or.inr rfl
    | intro _ | with_reducible assumption
    | with_reducible apply State.raise_only | with_reducible apply State.showSuspended_only
    | with_reducible apply State.each_only
    | (extract_lets +onlyGivenNames x; refine OnlyM.cut (M0 := M0) (s0 := s0) x ?_ ?_ <;> first | (intro hx; clear_value x) | unfold x)
    | (extract_lets +onlyGivenNames x; clear_value x)
    | with_reducible apply OnlyM.update

theorem State.takeImage_only {M0 : Nat} {s0 : State} {s c : State} {a : Nat} (kp_s : OnlyM M0 s0 s) (kp_c : OnlyM M0 s0 c)
    (hm : Sub 0x800000 M0 := by exact Sub.of hm rfl) :
    OnlyM M0 s0 (State.takeImage s c a) := by
  unfold State.takeImage
  repeat' first
    | (refine Sub.of hm ?_; exact Eq.refl _) | (refine Sub.bit hm ?_; exact Eq.refl _)
    | with_reducible refine State.setWord_any_only ?_ ?_
    | intro _ | with_reducible assumption

theorem State.routeWords_only {M0 : Nat} {s0 : State} {s c : State} {r : Nat} (kp_s : OnlyM M0 s0 s) (kp_c : OnlyM M0 s0 c)
    (hm : Sub 0x800000 M0 := by exact Sub.of hm rfl) :
    OnlyM M0 s0 (State.routeWords s c r) := by
  unfold State.routeWords
  repeat' first
    | (refine Sub.of hm ?_; exact Eq.refl _) | (refine Sub.bit hm ?_; exact Eq.refl _)
    | intro _ | with_reducible assumption
    | with_reducible apply State.takeImage_only | with_reducible apply State.each_only

theorem State.stopRoute_only {M0 : Nat} {s0 : State} {s co c : State} {new : List Byte} {r : Nat} (kp_s : OnlyM M0 s0 s) (kp_co : OnlyM M0 s0 co) (kp_c : OnlyM M0 s0 c)
    (hm : Sub 0x8000000000000800000000030110000000600000031670BC00000010F180000000000000000000081B44D M0 := by exact Sub.of hm rfl) :
    OnlyM M0 s0 (State.stopRoute s co c new r) := by
  unfold State.stopRoute
  repeat' first
    | (refine Sub.of hm ?_; exact Eq.refl _) | (refine Sub.bit hm ?_; exact Eq.refl _)
    | (refine Or.inl (Sub.bit hm ?_); exact Eq.refl _) | with_reducible exact Or.inr rfl
    | with_reducible refine State.put_only (GW_RT_CFG_VALID_holds ..) ?_ ?_
    | intro _ | with_reducible assumption
    | with_reducible apply State.ingress_only | with_reducible apply State.takeImage_only | with_reducible apply State.each_only
    | with_reducible apply OnlyM.ite
    | (extract_lets +onlyGivenNames x; refine OnlyM.cut (M0 := M0) (s0 := s0) x ?_ ?_ <;> first | (intro hx; clear_value x) | unfold x)
    | (extract_lets +onlyGivenNames x; clear_value x)
    | split | with_reducible apply OnlyM.update

theorem State.moveRoutes_only {M0 : Nat} {s0 : State} {s co c : State} {old new : List Byte} (kp_s : OnlyM M0 s0 s) (kp_co : OnlyM M0 s0 co) (kp_c : OnlyM M0 s0 c)
    (hm : Sub 0x8000000000000800000000030110000000600000031670BC00000010F180000000000000000200083B44D M0 := by exact Sub.of hm rfl) :
    OnlyM M0 s0 (State.moveRoutes s co c old new) := by
  unfold State.moveRoutes
  repeat' first
    | (refine Sub.of hm ?_; exact Eq.refl _) | (refine Sub.bit hm ?_; exact Eq.refl _)
    | (refine Or.inl (Sub.bit hm ?_); exact Eq.refl _) | with_reducible exact Or.inr rfl
    | intro _ | with_reducible assumption
    | with_reducible apply State.stopRoute_only | with_reducible apply State.modImg_only
    | with_reducible apply State.routeWords_only | with_reducible apply State.raise_only
    | with_reducible apply State.showSuspended_only | with_reducible apply State.each_only
    | (extract_lets +onlyGivenNames x; refine OnlyM.cut (M0 := M0) (s0 := s0) x ?_ ?_ <;> first | (intro hx; clear_value x) | unfold x)
    | (extract_lets +onlyGivenNames x; clear_value x)
    | with_reducible apply OnlyM.update

end Sys2Proof.Machine
end

