-- ==== Sys2Proof/Laws/OnlyUpdateOps.lean ====
section
/-! SUPPORT. Which parts each operation of `Machine/UpdateOps.lean` may change, and that it keeps what every command keeps: each
lemma follows the operation's own text, piece by piece, and gives the parts as a set of part numbers. -/

namespace Sys2Proof.Machine

theorem State.modUpd_only {M0 : Nat} {s0 : State} {s : State} {f : Update → Update} (kp_s : OnlyM M0 s0 s)
    (hm : Sub 0x40000 M0 := by exact Sub.of hm rfl) :
    OnlyM M0 s0 (State.modUpd s f) := by
  unfold State.modUpd
  repeat' first
    | (refine Sub.of hm ?_; exact Eq.refl _) | (refine Sub.bit hm ?_; exact Eq.refl _)
    | (refine Or.inl (Sub.bit hm ?_); exact Eq.refl _) | with_reducible exact Or.inr rfl
    | intro _ | with_reducible assumption
    | with_reducible apply OnlyM.update

theorem State.showUpdate_only {M0 : Nat} {s0 : State} {s : State} (kp_s : OnlyM M0 s0 s)
    (hm : Sub 0x1900000000000000000000000000000000000000000000000000000000000000000000000000000000 M0 := by exact Sub.of hm rfl) :
    OnlyM M0 s0 (State.showUpdate s) := by
  unfold State.showUpdate
  repeat' first
    | (refine Sub.of hm ?_; exact Eq.refl _) | (refine Sub.bit hm ?_; exact Eq.refl _)
    | with_reducible refine State.set_only UPD_STAT_STATE_holds ?_ ?_
    | with_reducible refine State.set_only UPD_STAT_TRIES_holds ?_ ?_
    | with_reducible refine State.put_only UPD_STAT_IMAGO_holds ?_ ?_
    | with_reducible refine State.put_only UPD_STAT_IMAGO_VALID_holds ?_ ?_
    | with_reducible refine State.set_only UPD_VER_IMAGO_VERSION_holds ?_ ?_
    | with_reducible refine State.set_only UPD_VER_STAGED_VERSION_holds ?_ ?_
    | intro _ | with_reducible assumption
    | with_reducible apply OnlyM.ite
    | (extract_lets +onlyGivenNames x; refine OnlyM.cut (M0 := M0) (s0 := s0) x ?_ ?_ <;> first | (intro hx; clear_value x) | unfold x)
    | (extract_lets +onlyGivenNames x; clear_value x)
    | split

theorem State.writeUpdate_only {M0 : Nat} {s0 : State} {s : State} {c : UCopy} (kp_s : OnlyM M0 s0 s)
    (hm : Sub 0x1900000000000000000000000000000000000000000000000000000000000000000000000000040000 M0 := by exact Sub.of hm rfl) :
    OnlyM M0 s0 (State.writeUpdate s c) := by
  unfold State.writeUpdate
  repeat' first
    | (refine Sub.of hm ?_; exact Eq.refl _) | (refine Sub.bit hm ?_; exact Eq.refl _)
    | intro _ | with_reducible assumption
    | with_reducible apply State.modUpd_only | with_reducible apply State.showUpdate_only

theorem State.clearMap_only {M0 : Nat} {s0 : State} {s : State} (kp_s : OnlyM M0 s0 s)
    (hm : Sub 0x4000000000000000000000000000000000000000000000000000000000000000000000000000000000 M0 := by exact Sub.of hm rfl) :
    OnlyM M0 s0 (State.clearMap s) := by
  unfold State.clearMap
  repeat' first
    | (refine Sub.of hm ?_; exact Eq.refl _) | (refine Sub.bit hm ?_; exact Eq.refl _)
    | with_reducible refine State.set_only (UPD_MAP_BITS_holds ..) ?_ ?_
    | intro _ | with_reducible assumption | with_reducible apply State.each_only

theorem State.program_only {M0 : Nat} {s0 : State} {s : State} {b : Bool} {k : Nat} {bs : List Byte} (kp_s : OnlyM M0 s0 s)
    (hm : Sub 0x40000 M0 := by exact Sub.of hm rfl) :
    OnlyM M0 s0 (State.program s b k bs) := by
  unfold State.program
  repeat' first
    | (refine Sub.of hm ?_; exact Eq.refl _) | (refine Sub.bit hm ?_; exact Eq.refl _)
    | (refine Or.inl (Sub.bit hm ?_); exact Eq.refl _) | with_reducible exact Or.inr rfl
    | intro _ | with_reducible assumption
    | with_reducible apply State.modUpd_only | with_reducible apply OnlyM.ite
    | split | with_reducible apply OnlyM.update

theorem State.loadCode_only {M0 : Nat} {s0 : State} {s : State} {b : Bool} (kp_s : OnlyM M0 s0 s)
    (hm : Sub 0x8000 M0 := by exact Sub.of hm rfl) :
    OnlyM M0 s0 (State.loadCode s b) := by
  unfold State.loadCode
  repeat' first
    | (refine Sub.of hm ?_; exact Eq.refl _) | (refine Sub.bit hm ?_; exact Eq.refl _)
    | intro _ | with_reducible assumption
    | with_reducible apply State.isramPut_only | with_reducible apply State.each_only

theorem State.slotComplete_only {M0 : Nat} {s0 : State} {s : State} (kp_s : OnlyM M0 s0 s)
    (hm : Sub 0x190000000000000000003011000000000000000000000000000000000000000000000000000004000C M0 := by exact Sub.of hm rfl) :
    OnlyM M0 s0 (State.slotComplete s) := by
  unfold State.slotComplete
  repeat' first
    | (refine Sub.of hm ?_; exact Eq.refl _) | (refine Sub.bit hm ?_; exact Eq.refl _)
    | (refine Or.inl (Sub.bit hm ?_); exact Eq.refl _) | with_reducible exact Or.inr rfl
    | intro _ | with_reducible assumption
    | with_reducible apply State.writeUpdate_only | with_reducible apply State.raise_only
    | with_reducible apply OnlyM.ite
    | (extract_lets +onlyGivenNames x; refine OnlyM.cut (M0 := M0) (s0 := s0) x ?_ ?_ <;> first | (intro hx; clear_value x) | unfold x)
    | (extract_lets +onlyGivenNames x; clear_value x)
    | split | with_reducible apply OnlyM.update

theorem State.takeManifest_only {M0 : Nat} {s0 : State} {s : State} {m : List Byte} {f : FlashSeen} (kp_s : OnlyM M0 s0 s)
    (hm : Sub 0x590000000000000000003011000000000000000000000000000000000000000000000000000004004C M0 := by exact Sub.of hm rfl) :
    OnlyM M0 s0 (State.takeManifest s m f).2 := by
  unfold State.takeManifest
  repeat' first
    | (refine Sub.of hm ?_; exact Eq.refl _) | (refine Sub.bit hm ?_; exact Eq.refl _)
    | (refine Or.inl (Sub.bit hm ?_); exact Eq.refl _) | with_reducible exact Or.inr rfl
    | with_reducible refine State.put_only (mapLoc_holds ..) ?_ ?_
    | intro _ | with_reducible assumption
    | with_reducible apply State.writeUpdate_only | with_reducible apply State.slotComplete_only
    | with_reducible apply State.clearMap_only | with_reducible apply State.program_only | with_reducible apply State.cut_only
    | with_reducible apply OnlyM.ite
    | (extract_lets +onlyGivenNames x; refine OnlyM.cut (M0 := M0) (s0 := s0) x ?_ ?_ <;> first | (intro hx; clear_value x) | unfold x)
    | (extract_lets +onlyGivenNames x; clear_value x)
    | split | with_reducible apply OnlyM.update

theorem State.takeChunk_only {M0 : Nat} {s0 : State} {s : State} {k : Nat} {bs : List Byte} {f : FlashSeen} (kp_s : OnlyM M0 s0 s)
    (hm : Sub 0x590000000000000000003011000000000000000000000000000000000000000000000000000004004C M0 := by exact Sub.of hm rfl) :
    OnlyM M0 s0 (State.takeChunk s k bs f).2 := by
  unfold State.takeChunk
  repeat' first
    | (refine Sub.of hm ?_; exact Eq.refl _) | (refine Sub.bit hm ?_; exact Eq.refl _)
    | (refine Or.inl (Sub.bit hm ?_); exact Eq.refl _) | with_reducible exact Or.inr rfl
    | with_reducible refine State.put_only (mapLoc_holds ..) ?_ ?_
    | intro _ | with_reducible assumption
    | with_reducible apply State.program_only
    | with_reducible apply State.slotComplete_only | with_reducible apply State.cut_only
    | with_reducible apply OnlyM.ite
    | (extract_lets +onlyGivenNames x; refine OnlyM.cut (M0 := M0) (s0 := s0) x ?_ ?_ <;> first | (intro hx; clear_value x) | unfold x)
    | (extract_lets +onlyGivenNames x; clear_value x)
    | split | with_reducible apply OnlyM.update

theorem State.haltByReset_only {M0 : Nat} {s0 : State} {s : State} {e : Nat} (kp_s : OnlyM M0 s0 s)
    (hm : Sub 0x301100000000020A000000000000000000000000000000000000000001800C M0 := by exact Sub.of hm rfl) :
    OnlyM M0 s0 (State.haltByReset s e) := by
  unfold State.haltByReset
  repeat' first
    | (refine Sub.of hm ?_; exact Eq.refl _) | (refine Sub.bit hm ?_; exact Eq.refl _)
    | with_reducible refine State.set_only (ENG_STAT_STATE_holds ..) ?_ ?_
    | intro _ | with_reducible assumption
    | with_reducible apply State.engineReset_only
    | with_reducible apply State.showEngine_only | with_reducible apply OnlyM.ite
    | (extract_lets +onlyGivenNames x; refine OnlyM.cut (M0 := M0) (s0 := s0) x ?_ ?_ <;> first | (intro hx; clear_value x) | unfold x)
    | (extract_lets +onlyGivenNames x; clear_value x)
    | split

theorem State.setPartWord_only {M0 : Nat} {s0 : State} {s : State} {k w v : Nat} (kp_s : OnlyM M0 s0 s)
    (hm : Sub 0x200000000000000000000000000000000000000000000018009 M0 := by exact Sub.of hm rfl) :
    OnlyM M0 s0 (State.setPartWord s k w v) := by
  unfold State.setPartWord
  repeat' first
    | (refine Sub.of hm ?_; exact Eq.refl _) | (refine Sub.bit hm ?_; exact Eq.refl _)
    | intro _ | with_reducible assumption
    | with_reducible apply State.hallStore_only

theorem State.zeroRange_only {M0 : Nat} {s0 s : State} {a n : Nat} (hs : OnlyM M0 s0 s)
    (hm : Sub 0x18001 M0 := by exact Sub.of hm rfl) :
    OnlyM M0 s0 (s.zeroRange a n) := by
  unfold State.zeroRange
  extract_lets inside lines s1
  have h : OnlyM M0 s0 s1 := State.each_only hs fun t x ht => State.each_only ht fun t x ht => State.dropLine_only ht
  exact { h with words := h.words, mem := Or.inl (Sub.bit hm rfl), halls := Or.inl (Sub.bit hm rfl),
                 keeps := ⟨h.keeps.regs, fun x => smapWf_filter _ (h.keeps.mem x), h.keeps.pending, h.keeps.counters, h.keeps.tlog⟩ }

theorem State.jobOver_only {M0 : Nat} {s0 : State} {s : State} {code r : Nat} (kp_s : OnlyM M0 s0 s)
    (hm : Sub 0x40000 M0 := by exact Sub.of hm rfl) :
    OnlyM M0 s0 (State.jobOver s code r) := by
  unfold State.jobOver
  repeat' first
    | (refine Sub.of hm ?_; exact Eq.refl _) | (refine Sub.bit hm ?_; exact Eq.refl _)
    | (refine Or.inl (Sub.bit hm ?_); exact Eq.refl _) | with_reducible exact Or.inr rfl
    | intro _ | with_reducible assumption
    | with_reducible apply State.modUpd_only | with_reducible apply OnlyOpt.none
    | with_reducible apply OnlyOpt.some | with_reducible apply OnlyM.ite
    | split | with_reducible apply OnlyM.update

theorem State.fallbackCommit_only {M0 : Nat} {s0 : State} {s : State} (kp_s : OnlyM M0 s0 s)
    (hm : Sub 0x102060000 M0 := by exact Sub.of hm rfl) :
    OnlyM M0 s0 (State.fallbackCommit s) := by
  unfold State.fallbackCommit
  repeat' first
    | (refine Sub.of hm ?_; exact Eq.refl _) | (refine Sub.bit hm ?_; exact Eq.refl _)
    | (refine Or.inl (Sub.bit hm ?_); exact Eq.refl _) | with_reducible exact Or.inr rfl
    | intro _ | with_reducible assumption
    | with_reducible apply State.imgAbort_only | with_reducible apply State.writeJournal_only
    | with_reducible apply State.startCommit_only | with_reducible apply State.modUpd_only
    | with_reducible apply OnlyM.ite
    | (extract_lets +onlyGivenNames x; refine OnlyM.cut (M0 := M0) (s0 := s0) x ?_ ?_ <;> first | (intro hx; clear_value x) | unfold x)
    | (extract_lets +onlyGivenNames x; clear_value x)
    | split | with_reducible apply OnlyM.update

theorem State.startFallback_only {M0 : Nat} {s0 : State} {s : State} {cause : Nat} {stuck : List EngNo} (kp_s : OnlyM M0 s0 s)
    (hm : Sub 0x19000000000000000000301100000000020A000000000000000000000000000000000000010207800C M0 := by exact Sub.of hm rfl) :
    OnlyM M0 s0 (State.startFallback s cause stuck) := by
  unfold State.startFallback
  repeat' first
    | (refine Sub.of hm ?_; exact Eq.refl _) | (refine Sub.bit hm ?_; exact Eq.refl _)
    | (refine Or.inl (Sub.bit hm ?_); exact Eq.refl _) | with_reducible exact Or.inr rfl
    | intro _ | with_reducible assumption
    | with_reducible apply State.writeUpdate_only | with_reducible apply State.modUpd_only
    | with_reducible apply State.haltByReset_only | with_reducible apply State.engineHalt_only
    | with_reducible apply State.loadCode_only | with_reducible apply State.fallbackCommit_only
    | with_reducible apply State.each_only | with_reducible apply OnlyOpt.none
    | with_reducible apply OnlyOpt.some | with_reducible apply OnlyM.ite
    | (extract_lets +onlyGivenNames x; refine OnlyM.cut (M0 := M0) (s0 := s0) x ?_ ?_ <;> first | (intro hx; clear_value x) | unfold x)
    | (extract_lets +onlyGivenNames x; clear_value x)
    | split | with_reducible apply OnlyM.update

theorem State.fallbackNext_only {M0 : Nat} {s0 : State} {s : State} (kp_s : OnlyM M0 s0 s)
    (hm : Sub 0x590000000000000000003011000000000000000000000000000000000000000000000000010206000C M0 := by exact Sub.of hm rfl) :
    OnlyM M0 s0 (State.fallbackNext s) := by
  unfold State.fallbackNext
  repeat' first
    | (refine Sub.of hm ?_; exact Eq.refl _) | (refine Sub.bit hm ?_; exact Eq.refl _)
    | (refine Or.inl (Sub.bit hm ?_); exact Eq.refl _) | with_reducible exact Or.inr rfl
    | with_reducible refine State.put_only UPD_STAT_PREP_holds ?_ ?_
    | intro _ | with_reducible assumption
    | with_reducible apply State.writeUpdate_only | with_reducible apply State.clearMap_only | with_reducible apply State.modUpd_only
    | with_reducible apply State.raise_only | with_reducible apply State.report_only
    | with_reducible apply State.jobOver_only | with_reducible apply State.fallbackCommit_only
    | with_reducible apply OnlyOpt.none | with_reducible apply OnlyOpt.some
    | (extract_lets +onlyGivenNames x; refine OnlyM.cut (M0 := M0) (s0 := s0) x ?_ ?_ <;> first | (intro hx; clear_value x) | unfold x)
    | (extract_lets +onlyGivenNames x; clear_value x)
    | split | with_reducible apply OnlyM.update

theorem State.handoverSwitch_only {M0 : Nat} {s0 : State} {s : State} (kp_s : OnlyM M0 s0 s)
    (hm : Sub 0x2000000000000000000000000000000000000000000000000000000000000000000000000000000000 M0 := by exact Sub.of hm rfl) :
    OnlyM M0 s0 (State.handoverSwitch s) := by
  unfold State.handoverSwitch
  repeat' first
    | (refine Sub.of hm ?_; exact Eq.refl _) | (refine Sub.bit hm ?_; exact Eq.refl _)
    | (refine Or.inl (Sub.bit hm ?_); exact Eq.refl _) | with_reducible exact Or.inr rfl
    | with_reducible refine State.set_only UPD_HO_LAT_US_holds ?_ ?_
    | intro _ | with_reducible assumption
    | split | with_reducible apply OnlyM.update

end Sys2Proof.Machine
end

