-- ==== Sys2Proof/Laws/OnlyImage.lean ====
section
/-! SUPPORT. Which parts each operation of `Machine/Image.lean` may change, and that it keeps what every command keeps: each
lemma follows the operation's own text, piece by piece, and gives the parts as a set of part numbers. -/

namespace Sys2Proof.Machine

theorem State.clearErrors_only {M0 : Nat} {s0 : State} {s : State} {n : Nat} (kp_s : OnlyM M0 s0 s)
    (hm : Sub 0x88000000000000000000000000000000000 M0 := by exact Sub.of hm rfl) :
    OnlyM M0 s0 (State.clearErrors s n) := by
  unfold State.clearErrors
  repeat' first
    | (refine Sub.of hm ?_; exact Eq.refl _) | (refine Sub.bit hm ?_; exact Eq.refl _)
    | with_reducible refine State.set_only (ECF_CNT_TEC_holds ..) ?_ ?_
    | with_reducible refine State.set_only (ECF_CNT_REC_holds ..) ?_ ?_
    | with_reducible refine State.set_only (ECF_STAT_ESTATE_holds ..) ?_ ?_
    | with_reducible refine State.put_only (ECF_STAT_WARN_holds ..) ?_ ?_
    | intro _ | with_reducible assumption

theorem State.newRecovery_only {M0 : Nat} {s0 : State} {s : State} {n : Nat} (kp_s : OnlyM M0 s0 s)
    (hm : Sub 0x8000000000000000000000000000000040 M0 := by exact Sub.of hm rfl) :
    OnlyM M0 s0 (State.newRecovery s n) := by
  unfold State.newRecovery
  repeat' first
    | (refine Sub.of hm ?_; exact Eq.refl _) | (refine Sub.bit hm ?_; exact Eq.refl _)
    | (refine Or.inl (Sub.bit hm ?_); exact Eq.refl _) | with_reducible exact Or.inr rfl
    | with_reducible refine State.set_only (ECF_STAT_RSTEP_holds ..) ?_ ?_
    | with_reducible refine State.set_only (ECF_STAT_SEQ_holds ..) ?_ ?_
    | intro _ | with_reducible assumption
    | with_reducible apply State.startCounting_only | with_reducible apply State.modPort_only | with_reducible apply OnlyM.ite
    | (extract_lets +onlyGivenNames x; refine OnlyM.cut (M0 := M0) (s0 := s0) x ?_ ?_ <;> first | (intro hx; clear_value x) | unfold x)
    | (extract_lets +onlyGivenNames x; clear_value x)
    | split | with_reducible apply OnlyM.update

theorem State.moveErrors_only {M0 : Nat} {s0 : State} {s : State} {n : Nat} {was : PortSet} {live : Bool} (kp_s : OnlyM M0 s0 s)
    (hm : Sub 0x3011000000000000000000000088800000000000000000400000000000004C M0 := by exact Sub.of hm rfl) :
    OnlyM M0 s0 (State.moveErrors s n was live) := by
  unfold State.moveErrors
  repeat' first
    | (refine Sub.of hm ?_; exact Eq.refl _) | (refine Sub.bit hm ?_; exact Eq.refl _)
    | with_reducible refine State.set_only (ECF_STAT_SEQ_holds ..) ?_ ?_
    | with_reducible refine State.set_only (ECF_STAT_RSTEP_holds ..) ?_ ?_
    | with_reducible refine State.put_only (ECF_BO_ESC_holds ..) ?_ ?_
    | with_reducible refine State.put_only (ECF_STAT_QPEND_holds ..) ?_ ?_
    | intro _ | with_reducible assumption
    | with_reducible apply State.clearErrors_only | with_reducible apply State.endCond_only
    | with_reducible apply State.setB_only | with_reducible apply State.newRecovery_only
    | with_reducible apply State.btCause_only | with_reducible apply State.when_only
    | with_reducible apply OnlyM.ite
    | (extract_lets +onlyGivenNames x; refine OnlyM.cut (M0 := M0) (s0 := s0) x ?_ ?_ <;> first | (intro hx; clear_value x) | unfold x)
    | (extract_lets +onlyGivenNames x; clear_value x)
    | split

theorem State.dropUncarried_only {M0 : Nat} {s0 : State} {s : State} {n : Nat} (kp_s : OnlyM M0 s0 s)
    (hm : Sub 0x301100000002000000302403C00000010C1800000000000C0010400001964D M0 := by exact Sub.of hm rfl) :
    OnlyM M0 s0 (State.dropUncarried s n) := by
  unfold State.dropUncarried
  repeat' first
    | (refine Sub.of hm ?_; exact Eq.refl _) | (refine Sub.bit hm ?_; exact Eq.refl _)
    | (refine Or.inl (Sub.bit hm ?_); exact Eq.refl _) | with_reducible exact Or.inr rfl
    | with_reducible refine State.inc_only IMG_XDROP_COUNT_holds ?_ ?_
    | intro _ | with_reducible assumption
    | with_reducible apply State.endRequest_only
    | with_reducible apply State.modSlot_only | with_reducible apply State.each_only
    | with_reducible apply OnlyM.ite
    | (extract_lets +onlyGivenNames x; refine OnlyM.cut (M0 := M0) (s0 := s0) x ?_ ?_ <;> first | (intro hx; clear_value x) | unfold x)
    | (extract_lets +onlyGivenNames x; clear_value x)
    | split | with_reducible apply OnlyM.update

theorem State.moveObservation_only {M0 : Nat} {s0 : State} {s : State} {n : Nat} (kp_s : OnlyM M0 s0 s)
    (hm : Sub 0x3011000000000000000000000000000000000C0400800000000000000000CC M0 := by exact Sub.of hm rfl) :
    OnlyM M0 s0 (State.moveObservation s n) := by
  unfold State.moveObservation
  repeat' first
    | (refine Sub.of hm ?_; exact Eq.refl _) | (refine Sub.bit hm ?_; exact Eq.refl _)
    | with_reducible refine State.set_only (OBS_CAP_STAT_STATE_holds ..) ?_ ?_
    | intro _ | with_reducible assumption
    | with_reducible apply State.sndAbort_only | with_reducible apply State.cenAbort_only
    | with_reducible apply State.clearTrackers_only | with_reducible apply State.enrAbort_only | with_reducible apply State.modObs_only
    | with_reducible apply State.capBegin_only | with_reducible apply State.when_only
    | (extract_lets +onlyGivenNames x; refine OnlyM.cut (M0 := M0) (s0 := s0) x ?_ ?_ <;> first | (intro hx; clear_value x) | unfold x)
    | (extract_lets +onlyGivenNames x; clear_value x)

theorem State.imageOpmode_only {M0 : Nat} {s0 : State} {s : State} {n : Nat} (kp_s : OnlyM M0 s0 s)
    (hm : Sub 0x301100000002000000302403C00000010C1800000000004C0010000001964D M0 := by exact Sub.of hm rfl) :
    OnlyM M0 s0 (State.imageOpmode s n) := by
  unfold State.imageOpmode
  repeat' first
    | (refine Sub.of hm ?_; exact Eq.refl _) | (refine Sub.bit hm ?_; exact Eq.refl _)
    | (refine Or.inl (Sub.bit hm ?_); exact Eq.refl _) | with_reducible exact Or.inr rfl
    | intro _ | with_reducible assumption
    | with_reducible apply State.modPort_only | with_reducible apply State.applyOpmode_only
    | with_reducible apply OnlyM.ite
    | (extract_lets +onlyGivenNames x; refine OnlyM.cut (M0 := M0) (s0 := s0) x ?_ ?_ <;> first | (intro hx; clear_value x) | unfold x)
    | (extract_lets +onlyGivenNames x; clear_value x)
    | split | with_reducible apply OnlyM.update

theorem State.moveWarn_only {M0 : Nat} {s0 : State} {s : State} {n : Nat} (kp_s : OnlyM M0 s0 s)
    (hm : Sub 0x3011000000000000000000000000800000000000000000000000000000000C M0 := by exact Sub.of hm rfl) :
    OnlyM M0 s0 (State.moveWarn s n) := by
  unfold State.moveWarn
  repeat' first
    | (refine Sub.of hm ?_; exact Eq.refl _) | (refine Sub.bit hm ?_; exact Eq.refl _)
    | intro _ | with_reducible assumption
    | with_reducible apply State.warnState_only | with_reducible apply OnlyM.ite
    | split

theorem State.enterEpoch_only {M0 : Nat} {s0 : State} {s c : State} {n : Nat} {was : PortSet} (kp_s : OnlyM M0 s0 s) (kp_c : OnlyM M0 s0 c)
    (hm : Sub 0x301100000002000000302403C58880010F180C040080004C01144000019ECD M0 := by exact Sub.of hm rfl) :
    OnlyM M0 s0 (State.enterEpoch s c n was) := by
  unfold State.enterEpoch
  repeat' first
    | (refine Sub.of hm ?_; exact Eq.refl _) | (refine Sub.bit hm ?_; exact Eq.refl _)
    | (refine Or.inl (Sub.bit hm ?_); exact Eq.refl _) | with_reducible exact Or.inr rfl
    | with_reducible refine State.set_only (IMG_PORT_EPOCH_EPOCH_holds ..) ?_ ?_
    | intro _ | with_reducible assumption
    | with_reducible apply State.moveErrors_only | with_reducible apply State.moveWarn_only
    | with_reducible apply State.bindPort_only | with_reducible apply State.dropUncarried_only
    | with_reducible apply State.moveObservation_only | with_reducible apply State.modPort_only
    | with_reducible apply State.refreshPort_only | with_reducible apply State.integrate_only
    | with_reducible apply State.imageOpmode_only | with_reducible apply State.reschedule_only | with_reducible apply State.evaluate_only
    | with_reducible apply State.when_only
    | (extract_lets +onlyGivenNames x; refine OnlyM.cut (M0 := M0) (s0 := s0) x ?_ ?_ <;> first | (intro hx; clear_value x) | unfold x)
    | (extract_lets +onlyGivenNames x; clear_value x)
    | with_reducible apply OnlyM.update

theorem State.moveTogether_only {M0 : Nat} {s0 : State} {s : State} {ns : List Nat} {p : Nat → Bool} (kp_s : OnlyM M0 s0 s)
    (hm : Sub 0x80100000000008000000000301100000006000000B1679BE588A0C10F1C0C040080604C0116600083BECD M0 := by exact Sub.of hm rfl) :
    OnlyM M0 s0 (State.moveTogether s ns p) := by
  unfold State.moveTogether
  repeat' first
    | (refine Sub.of hm ?_; exact Eq.refl _) | (refine Sub.bit hm ?_; exact Eq.refl _)
    | with_reducible refine State.put_only (transLoc_holds ..) ?_ ?_
    | intro _ | with_reducible assumption
    | with_reducible apply State.candidate_only | with_reducible apply State.leavePools_only | with_reducible apply State.commitWords_only
    | with_reducible apply State.joinPools_only | with_reducible apply State.enterEpoch_only
    | with_reducible apply State.settleTables_only | with_reducible apply State.moveRoutes_only
    | with_reducible apply State.each_only
    | (extract_lets +onlyGivenNames x; refine OnlyM.cut (M0 := M0) (s0 := s0) x ?_ ?_ <;> first | (intro hx; clear_value x) | unfold x)
    | (extract_lets +onlyGivenNames x; clear_value x)

theorem State.takeUnits_only {M0 : Nat} {s0 : State} {s : State} {us : List Nat} {clear : Bool} (kp_s : OnlyM M0 s0 s)
    (hm : Sub 0x3011000000665988000000000000000000000000000000000000000021800D M0 := by exact Sub.of hm rfl) :
    OnlyM M0 s0 (State.takeUnits s us clear) := by
  unfold State.takeUnits
  repeat' first
    | (refine Sub.of hm ?_; exact Eq.refl _) | (refine Sub.bit hm ?_; exact Eq.refl _)
    | with_reducible refine State.set_only (HALL_OWN_CUR_holds ..) ?_ ?_
    | with_reducible refine State.put_only (HALL_OWN_CLEARING_holds ..) ?_ ?_
    | intro _ | with_reducible assumption
    | with_reducible apply State.handover_only | with_reducible apply State.handoverDone_only
    | with_reducible apply State.flushUnits_only | with_reducible apply State.each_only
    | with_reducible apply State.when_only | with_reducible apply OnlyM.ite
    | (extract_lets +onlyGivenNames x; refine OnlyM.cut (M0 := M0) (s0 := s0) x ?_ ?_ <;> first | (intro hx; clear_value x) | unfold x)
    | (extract_lets +onlyGivenNames x; clear_value x)
    | split

theorem State.restartRing_only {M0 : Nat} {s0 : State} {s : State} {k : Nat} (kp_s : OnlyM M0 s0 s)
    (hm : Sub 0xC000000000000000000000000000000000000000000000000000000000004 M0 := by exact Sub.of hm rfl) :
    OnlyM M0 s0 (State.restartRing s k) := by
  unfold State.restartRing
  repeat' first
    | (refine Sub.of hm ?_; exact Eq.refl _) | (refine Sub.bit hm ?_; exact Eq.refl _)
    | (refine Or.inl (Sub.bit hm ?_); exact Eq.refl _) | with_reducible exact Or.inr rfl
    | with_reducible refine State.set_only (LEDG_RING_HEAD_HEAD_holds ..) ?_ ?_
    | with_reducible refine State.set_only (LEDG_RING_TAIL_TAIL_holds ..) ?_ ?_
    | intro _ | with_reducible assumption | with_reducible apply State.setRingHid_only
    | with_reducible apply OnlyM.update

theorem State.imageFloor_only {M0 : Nat} {s0 : State} {s : State} {b : List Byte} (kp_s : OnlyM M0 s0 s)
    (hm : Sub 0x7080000000000000003011000000000000000000000000000000000000000000000000000008000C M0 := by exact Sub.of hm rfl) :
    OnlyM M0 s0 (State.imageFloor s b) := by
  unfold State.imageFloor
  repeat' first
    | (refine Sub.of hm ?_; exact Eq.refl _) | (refine Sub.bit hm ?_; exact Eq.refl _)
    | intro _ | with_reducible assumption
    | with_reducible apply State.advance_only | with_reducible apply State.tlog_only
    | with_reducible apply OnlyM.ite
    | (extract_lets +onlyGivenNames x; refine OnlyM.cut (M0 := M0) (s0 := s0) x ?_ ?_ <;> first | (intro hx; clear_value x) | unfold x)
    | (extract_lets +onlyGivenNames x; clear_value x)
    | with_reducible (refine OnlyM.pair ?_ (by assumption))
    | split

theorem State.newPoints_only {M0 : Nat} {s0 : State} {s : State} {was : List Nat} {live : Bool} (kp_s : OnlyM M0 s0 s)
    (hm : Sub 0x40000000000000000000000000000000000000008000 M0 := by exact Sub.of hm rfl) :
    OnlyM M0 s0 (State.newPoints s was live) := by
  unfold State.newPoints
  repeat' first
    | (refine Sub.of hm ?_; exact Eq.refl _) | (refine Sub.bit hm ?_; exact Eq.refl _)
    | with_reducible refine State.set_only (RGN_OPP_CURRENT_holds ..) ?_ ?_
    | intro _ | with_reducible assumption | with_reducible apply State.startChange_only
    | with_reducible apply State.each_only | with_reducible apply OnlyM.ite
    | (extract_lets +onlyGivenNames x; refine OnlyM.cut (M0 := M0) (s0 := s0) x ?_ ?_ <;> first | (intro hx; clear_value x) | unfold x)
    | (extract_lets +onlyGivenNames x; clear_value x)
    | split

theorem State.showImage_only {M0 : Nat} {s0 : State} {s : State} {b : List Byte} {epoch : Nat} (kp_s : OnlyM M0 s0 s)
    (hm : Sub 0x100C0000000 M0 := by exact Sub.of hm rfl) :
    OnlyM M0 s0 (State.showImage s b epoch) := by
  unfold State.showImage
  repeat' first
    | (refine Sub.of hm ?_; exact Eq.refl _) | (refine Sub.bit hm ?_; exact Eq.refl _)
    | with_reducible refine State.set_only IMG_EPOCH_EPOCH_holds ?_ ?_
    | with_reducible refine State.set_only IMG_VERSION_VERSION_holds ?_ ?_
    | with_reducible refine State.set_only (IMG_DIGEST_D_holds ..) ?_ ?_
    | intro _ | with_reducible assumption | with_reducible apply State.each_only
    | (extract_lets +onlyGivenNames x; refine OnlyM.cut (M0 := M0) (s0 := s0) x ?_ ?_ <;> first | (intro hx; clear_value x) | unfold x)
    | (extract_lets +onlyGivenNames x; clear_value x)

theorem State.firstImage_only {M0 : Nat} {s0 : State} {s : State} (kp_s : OnlyM M0 s0 s)
    (hm : Sub 0x80000000003011000000000000000000000000000000000400000000000000000000600C M0 := by exact Sub.of hm rfl) :
    OnlyM M0 s0 (State.firstImage s) := by
  unfold State.firstImage
  repeat' first
    | (refine Sub.of hm ?_; exact Eq.refl _) | (refine Sub.bit hm ?_; exact Eq.refl _)
    | (refine Or.inl (Sub.bit hm ?_); exact Eq.refl _) | with_reducible exact Or.inr rfl
    | intro _ | with_reducible assumption
    | with_reducible apply State.modLane_only | with_reducible apply State.streams_only
    | with_reducible apply State.each_only
    | (extract_lets +onlyGivenNames x; refine OnlyM.cut (M0 := M0) (s0 := s0) x ?_ ?_ <;> first | (intro hx; clear_value x) | unfold x)
    | (extract_lets +onlyGivenNames x; clear_value x)
    | with_reducible apply OnlyM.update

theorem State.recordLevels_only {M0 : Nat} {s0 : State} {s : State} {enabled : List Nat} (kp_s : OnlyM M0 s0 s)
    (hm : Sub 0x3011000000000000000000000000000000000000000000000000000000000C M0 := by exact Sub.of hm rfl) :
    OnlyM M0 s0 (State.recordLevels s enabled) := by
  unfold State.recordLevels
  repeat' first
    | (refine Sub.of hm ?_; exact Eq.refl _) | (refine Sub.bit hm ?_; exact Eq.refl _)
    | intro _ | with_reducible assumption
    | with_reducible apply State.levelRecord_only | with_reducible apply State.each_only
    | with_reducible apply OnlyM.ite
    | split

theorem State.applyRest_only {M0 : Nat} {s0 : State} {s : State} {b : List Byte} {live clear : Bool} {points enabled : List Nat} (kp_s : OnlyM M0 s0 s)
    (hm : Sub 0x38A6100000000008000000000B01100000802020800F02403C58080010F1804040080004C0110000005F6CD M0 := by exact Sub.of hm rfl) :
    OnlyM M0 s0 (State.applyRest s b live clear points enabled) := by
  unfold State.applyRest
  repeat' first
    | (refine Sub.of hm ?_; exact Eq.refl _) | (refine Sub.bit hm ?_; exact Eq.refl _)
    | (refine Or.inl (Sub.bit hm ?_); exact Eq.refl _) | with_reducible exact Or.inr rfl
    | with_reducible refine State.set_only TIME_INC_INC_holds ?_ ?_
    | with_reducible refine State.put_only (rgnReadyLoc_holds ..) ?_ ?_
    | with_reducible refine State.put_only (RGN_STAT_POWER_holds ..) ?_ ?_
    | intro _ | with_reducible assumption
    | with_reducible apply State.newPoints_only
    | with_reducible apply State.reschedule_only | with_reducible apply State.modUpd_only | with_reducible apply State.enterHalted_only
    | with_reducible apply State.setReady_only | with_reducible apply State.recordLevels_only
    | with_reducible apply State.firstImage_only | with_reducible apply State.evalPairs_only
    | with_reducible apply State.endCond_only | with_reducible apply State.faultPin_only
    | with_reducible apply State.refreshPorts_only | with_reducible apply State.each_only
    | with_reducible apply OnlyM.ite
    | (extract_lets +onlyGivenNames x; refine OnlyM.cut (M0 := M0) (s0 := s0) x ?_ ?_ <;> first | (intro hx; clear_value x) | unfold x)
    | (extract_lets +onlyGivenNames x; clear_value x)
    | split | with_reducible apply OnlyM.update

theorem State.applyImage_only {M0 : Nat} {s0 : State} {s : State} {b : List Byte} {epoch : Nat} {clear : Bool} (kp_s : OnlyM M0 s0 s)
    (hm : Sub 0x38A6100000000008000000000BC11000008665B8800F1679BE588A0C10FFC0C040080604C011760C0A7FECD M0 := by exact Sub.of hm rfl) :
    OnlyM M0 s0 (State.applyImage s b epoch clear) := by
  unfold State.applyImage
  repeat' first
    | (refine Sub.of hm ?_; exact Eq.refl _) | (refine Sub.bit hm ?_; exact Eq.refl _)
    | (refine Or.inl (Sub.bit hm ?_); exact Eq.refl _) | with_reducible exact Or.inr rfl
    | with_reducible refine State.put_only (transLoc_holds ..) ?_ ?_
    | with_reducible refine State.set_only (IMG_PORT_EPOCH_EPOCH_holds ..) ?_ ?_
    | with_reducible refine State.set_only (GW_TUN_SEQ_TXSEQ_holds ..) ?_ ?_
    | intro _ | with_reducible assumption
    | with_reducible apply State.candidate_only | with_reducible apply State.modImg_only
    | with_reducible apply State.showImage_only
    | with_reducible apply State.suspendRoutes_only | with_reducible apply State.startLayouts_only
    | with_reducible apply State.placeTables_only | with_reducible apply State.moveTogether_only | with_reducible apply State.fspRelayout_only
    | with_reducible apply State.takeUnits_only | with_reducible apply State.restartRing_only
    | with_reducible apply State.emptyTun_only | with_reducible apply State.applyRest_only
    | with_reducible apply State.each_only | with_reducible apply OnlyM.regsFilter
    | with_reducible apply OnlyM.ite
    | (extract_lets +onlyGivenNames x; refine OnlyM.cut (M0 := M0) (s0 := s0) x ?_ ?_ <;> first | (intro hx; clear_value x) | unfold x)
    | (extract_lets +onlyGivenNames x; clear_value x)
    | split | with_reducible apply OnlyM.update

theorem State.completeEpoch_only {M0 : Nat} {s0 : State} {s : State} (kp_s : OnlyM M0 s0 s)
    (hm : Sub 0x590000000000000000003011000000000000000000000000000000000000000000000000010206020C M0 := by exact Sub.of hm rfl) :
    OnlyM M0 s0 (State.completeEpoch s) := by
  unfold State.completeEpoch
  repeat' first
    | (refine Sub.of hm ?_; exact Eq.refl _) | (refine Sub.bit hm ?_; exact Eq.refl _)
    | (refine Or.inl (Sub.bit hm ?_); exact Eq.refl _) | with_reducible exact Or.inr rfl
    | with_reducible refine State.set_only IMG_STATUS_PHASE_holds ?_ ?_
    | intro _ | with_reducible assumption
    | with_reducible apply State.writeJournal_only | with_reducible apply State.modImg_only
    | with_reducible apply State.raise_only
    | with_reducible apply State.fallbackNext_only | with_reducible apply OnlyM.ite
    | (extract_lets +onlyGivenNames x; refine OnlyM.cut (M0 := M0) (s0 := s0) x ?_ ?_ <;> first | (intro hx; clear_value x) | unfold x)
    | (extract_lets +onlyGivenNames x; clear_value x)
    | split | with_reducible apply OnlyM.update

theorem execSwitchInstant_only {M0 : Nat} {s0 : State} {s : State} (kp_s : OnlyM M0 s0 s)
    (hm : Sub 0x38A6179708000008000000000BC11000008665B8800F1679BE588A0C10FFC0C040080604C011761C2AFFECD M0 := by exact Sub.of hm rfl) :
    OnlyOut M0 s0 (execSwitchInstant s) := by
  unfold execSwitchInstant
  repeat' first
    | (refine Sub.of hm ?_; exact Eq.refl _) | (refine Sub.bit hm ?_; exact Eq.refl _)
    | intro _ | with_reducible assumption
    | with_reducible apply State.modImg_only | with_reducible apply State.showJournal_only
    | with_reducible apply State.tlog_only | with_reducible apply State.imageFloor_only
    | with_reducible apply State.applyImage_only | with_reducible apply State.raise_only
    | with_reducible apply State.handoverSwitch_only | with_reducible apply State.completeEpoch_only
    | with_reducible apply OnlyOut.next | with_reducible apply OnlyOut.fault
    | with_reducible apply OnlyOut.ite | with_reducible apply OnlyM.ite
    | (extract_lets +onlyGivenNames x; refine OnlyM.cut (M0 := M0) (s0 := s0) x ?_ ?_ <;> first | (intro hx; clear_value x) | unfold x)
    | (extract_lets +onlyGivenNames x; clear_value x)
    | split

theorem State.movePort_only {M0 : Nat} {s0 : State} {s : State} {n : Nat} (kp_s : OnlyM M0 s0 s)
    (hm : Sub 0x80159000000008000000000301100000006000000B1679BE588A0C10F1C0C040080604C0116610287BECD M0 := by exact Sub.of hm rfl) :
    OnlyM M0 s0 (State.movePort s n) := by
  unfold State.movePort
  repeat' first
    | (refine Sub.of hm ?_; exact Eq.refl _) | (refine Sub.bit hm ?_; exact Eq.refl _)
    | intro _ | with_reducible assumption
    | with_reducible apply State.moveTogether_only | with_reducible apply State.completeEpoch_only
    | (extract_lets +onlyGivenNames x; refine OnlyM.cut (M0 := M0) (s0 := s0) x ?_ ?_ <;> first | (intro hx; clear_value x) | unfold x)
    | (extract_lets +onlyGivenNames x; clear_value x)

theorem execPortMove_only {M0 : Nat} {s0 : State} {n : PortNo} {s : State} (kp_s : OnlyM M0 s0 s)
    (hm : Sub 0x80159000000008000000000301100000006000000B1679BE588A0C10F1C0C040080604C0116610287BECD M0 := by exact Sub.of hm rfl) :
    OnlyOut M0 s0 (execPortMove n s) := by
  unfold execPortMove
  repeat' first
    | (refine Sub.of hm ?_; exact Eq.refl _) | (refine Sub.bit hm ?_; exact Eq.refl _)
    | intro _ | with_reducible assumption
    | with_reducible apply State.movePort_only | with_reducible apply OnlyOut.next
    | with_reducible apply OnlyOut.fault | with_reducible apply OnlyOut.ite
    | with_reducible apply OnlyM.ite
    | split

theorem execPortForced_only {M0 : Nat} {s0 : State} {n : PortNo} {s : State} (kp_s : OnlyM M0 s0 s)
    (hm : Sub 0x80159000000008000000000301100000006000000B1679BE588A0C10F1C0C040080604C0116E10287BECD M0 := by exact Sub.of hm rfl) :
    OnlyOut M0 s0 (execPortForced n s) := by
  unfold execPortForced
  repeat' first
    | (refine Sub.of hm ?_; exact Eq.refl _) | (refine Sub.bit hm ?_; exact Eq.refl _)
    | with_reducible refine State.inc_only IMG_FORCED_COUNT_holds ?_ ?_
    | intro _ | with_reducible assumption
    | with_reducible apply State.abandonAttempt_only | with_reducible apply State.cancelSearch_only | with_reducible apply State.raise_only
    | with_reducible apply State.moveTogether_only | with_reducible apply State.integrate_only
    | with_reducible apply State.completeEpoch_only | with_reducible apply OnlyOut.next
    | with_reducible apply OnlyOut.fault | with_reducible apply OnlyOut.ite
    | with_reducible apply State.when_only | with_reducible apply OnlyM.ite
    | (extract_lets +onlyGivenNames x; refine OnlyM.cut (M0 := M0) (s0 := s0) x ?_ ?_ <;> first | (intro hx; clear_value x) | unfold x)
    | (extract_lets +onlyGivenNames x; clear_value x)
    | split

theorem State.resetPort_only {M0 : Nat} {s0 : State} {s : State} {n : Nat} (kp_s : OnlyM M0 s0 s)
    (hm : Sub 0x80159000000008000000000301100000006000000B1679BE588A0C10F1C0C040080704C0396610287BECD M0 := by exact Sub.of hm rfl) :
    OnlyM M0 s0 (State.resetPort s n) := by
  unfold State.resetPort
  repeat' first
    | (refine Sub.of hm ?_; exact Eq.refl _) | (refine Sub.bit hm ?_; exact Eq.refl _)
    | intro _ | with_reducible assumption
    | with_reducible apply State.portReset_only | with_reducible apply State.movePort_only
    | with_reducible apply OnlyM.ite
    | split

theorem execPortReset_only {M0 : Nat} {s0 : State} {q : Requester} {n : PortNo} {s : State} (kp_s : OnlyM M0 s0 s)
    (hm : Sub 0x4080159000000008000000000301100000006018800B1679BE588A0C10F1C0C040080704C03966102A7BECD M0 := by exact Sub.of hm rfl) :
    OnlyOut M0 s0 (execPortReset q n s) := by
  unfold execPortReset
  repeat' first
    | (refine Sub.of hm ?_; exact Eq.refl _) | (refine Sub.bit hm ?_; exact Eq.refl _)
    | intro _ | with_reducible assumption
    | with_reducible apply State.hostWrite_only | with_reducible apply State.resetPort_only
    | with_reducible apply OnlyOut.next | with_reducible apply OnlyOut.fault
    | with_reducible apply OnlyOut.ite

theorem State.imgErr_only {M0 : Nat} {s0 : State} {s : State} (kp_s : OnlyM M0 s0 s)
    (hm : Sub 0x2000000 M0 := by exact Sub.of hm rfl) :
    OnlyM M0 s0 (State.imgErr s) := by
  unfold State.imgErr
  repeat' first
    | (refine Sub.of hm ?_; exact Eq.refl _) | (refine Sub.bit hm ?_; exact Eq.refl _)
    | with_reducible refine State.put_only IMG_STATUS_CMDERR_holds ?_ ?_
    | intro _ | with_reducible assumption

theorem State.startCheck_only {M0 : Nat} {s0 : State} {s : State} (kp_s : OnlyM M0 s0 s)
    (hm : Sub 0x2020000 M0 := by exact Sub.of hm rfl) :
    OnlyM M0 s0 (State.startCheck s) := by
  unfold State.startCheck
  repeat' first
    | (refine Sub.of hm ?_; exact Eq.refl _) | (refine Sub.bit hm ?_; exact Eq.refl _)
    | (refine Or.inl (Sub.bit hm ?_); exact Eq.refl _) | with_reducible exact Or.inr rfl
    | with_reducible refine State.set_only IMG_STATUS_PHASE_holds ?_ ?_
    | intro _ | with_reducible assumption
    | with_reducible apply State.modImg_only
    | (extract_lets +onlyGivenNames x; refine OnlyM.cut (M0 := M0) (s0 := s0) x ?_ ?_ <;> first | (intro hx; clear_value x) | unfold x)
    | (extract_lets +onlyGivenNames x; clear_value x)
    | with_reducible apply OnlyM.update

theorem State.startStage_only {M0 : Nat} {s0 : State} {s : State} (kp_s : OnlyM M0 s0 s)
    (hm : Sub 0x102020000 M0 := by exact Sub.of hm rfl) :
    OnlyM M0 s0 (State.startStage s) := by
  unfold State.startStage
  repeat' first
    | (refine Sub.of hm ?_; exact Eq.refl _) | (refine Sub.bit hm ?_; exact Eq.refl _)
    | (refine Or.inl (Sub.bit hm ?_); exact Eq.refl _) | with_reducible exact Or.inr rfl
    | with_reducible refine State.set_only IMG_STATUS_PHASE_holds ?_ ?_
    | intro _ | with_reducible assumption
    | with_reducible apply State.writeJournal_only | with_reducible apply State.modImg_only
    | (extract_lets +onlyGivenNames x; refine OnlyM.cut (M0 := M0) (s0 := s0) x ?_ ?_ <;> first | (intro hx; clear_value x) | unfold x)
    | (extract_lets +onlyGivenNames x; clear_value x)
    | with_reducible apply OnlyM.update

theorem State.imgCommand_only {M0 : Nat} {s0 : State} {s : State} {code : Nat} (kp_s : OnlyM M0 s0 s)
    (hm : Sub 0x102020000 M0 := by exact Sub.of hm rfl) :
    OnlyM M0 s0 (State.imgCommand s code) := by
  unfold State.imgCommand
  repeat' first
    | (refine Sub.of hm ?_; exact Eq.refl _) | (refine Sub.bit hm ?_; exact Eq.refl _)
    | (refine Or.inl (Sub.bit hm ?_); exact Eq.refl _) | with_reducible exact Or.inr rfl
    | intro _ | with_reducible assumption
    | with_reducible apply State.imgErr_only | with_reducible apply State.startCheck_only
    | with_reducible apply State.startStage_only | with_reducible apply State.startCommit_only
    | with_reducible apply State.imgAbort_only | with_reducible apply OnlyM.ite
    | split | with_reducible apply OnlyM.update

theorem State.imgWrite_only {M0 : Nat} {s0 : State} {s : State} {q : Requester} {code : Nat} (kp_s : OnlyM M0 s0 s)
    (hm : Sub 0x400000000000000000000000000000000000001880000000000000000000000000000000000000102228000 M0 := by exact Sub.of hm rfl) :
    OnlyM M0 s0 (State.imgWrite s q code) := by
  unfold State.imgWrite
  repeat' first
    | (refine Sub.of hm ?_; exact Eq.refl _) | (refine Sub.bit hm ?_; exact Eq.refl _)
    | intro _ | with_reducible assumption
    | with_reducible apply State.hostWrite_only | with_reducible apply State.imgCommand_only

theorem execImgCheck_only {M0 : Nat} {s0 : State} {q : Requester} {s : State} (kp_s : OnlyM M0 s0 s)
    (hm : Sub 0x400000000000000000000000000000000000001880000000000000000000000000000000000000102228000 M0 := by exact Sub.of hm rfl) :
    OnlyOut M0 s0 (execImgCheck q s) := by
  unfold execImgCheck
  repeat' first
    | (refine Sub.of hm ?_; exact Eq.refl _) | (refine Sub.bit hm ?_; exact Eq.refl _)
    | intro _ | with_reducible assumption
    | with_reducible apply State.imgWrite_only | with_reducible apply OnlyOut.next
    | with_reducible apply OnlyOut.fault | with_reducible apply OnlyOut.ite

theorem execImgStage_only {M0 : Nat} {s0 : State} {q : Requester} {s : State} (kp_s : OnlyM M0 s0 s)
    (hm : Sub 0x400000000000000000000000000000000000001880000000000000000000000000000000000000102228000 M0 := by exact Sub.of hm rfl) :
    OnlyOut M0 s0 (execImgStage q s) := by
  unfold execImgStage
  repeat' first
    | (refine Sub.of hm ?_; exact Eq.refl _) | (refine Sub.bit hm ?_; exact Eq.refl _)
    | intro _ | with_reducible assumption
    | with_reducible apply State.imgWrite_only | with_reducible apply OnlyOut.next
    | with_reducible apply OnlyOut.fault | with_reducible apply OnlyOut.ite

theorem execImgCommit_only {M0 : Nat} {s0 : State} {q : Requester} {s : State} (kp_s : OnlyM M0 s0 s)
    (hm : Sub 0x400000000000000000000000000000000000001880000000000000000000000000000000000000102228000 M0 := by exact Sub.of hm rfl) :
    OnlyOut M0 s0 (execImgCommit q s) := by
  unfold execImgCommit
  repeat' first
    | (refine Sub.of hm ?_; exact Eq.refl _) | (refine Sub.bit hm ?_; exact Eq.refl _)
    | intro _ | with_reducible assumption
    | with_reducible apply State.imgWrite_only | with_reducible apply OnlyOut.next
    | with_reducible apply OnlyOut.fault | with_reducible apply OnlyOut.ite

theorem execImgAbort_only {M0 : Nat} {s0 : State} {q : Requester} {s : State} (kp_s : OnlyM M0 s0 s)
    (hm : Sub 0x400000000000000000000000000000000000001880000000000000000000000000000000000000102228000 M0 := by exact Sub.of hm rfl) :
    OnlyOut M0 s0 (execImgAbort q s) := by
  unfold execImgAbort
  repeat' first
    | (refine Sub.of hm ?_; exact Eq.refl _) | (refine Sub.bit hm ?_; exact Eq.refl _)
    | intro _ | with_reducible assumption
    | with_reducible apply State.imgWrite_only | with_reducible apply OnlyOut.next
    | with_reducible apply OnlyOut.fault | with_reducible apply OnlyOut.ite

theorem execImgCmdIgnored_only {M0 : Nat} {s0 : State} {q : Requester} {code : Fin 16} {s : State} (kp_s : OnlyM M0 s0 s)
    (hm : Sub 0x400000000000000000000000000000000000001880000000000000000000000000000000000000102228000 M0 := by exact Sub.of hm rfl) :
    OnlyOut M0 s0 (execImgCmdIgnored q code s) := by
  unfold execImgCmdIgnored
  repeat' first
    | (refine Sub.of hm ?_; exact Eq.refl _) | (refine Sub.bit hm ?_; exact Eq.refl _)
    | intro _ | with_reducible assumption
    | with_reducible apply State.imgWrite_only | with_reducible apply OnlyOut.next
    | with_reducible apply OnlyOut.fault | with_reducible apply OnlyOut.ite

theorem State.checkDone_only {M0 : Nat} {s0 : State} {s : State} (kp_s : OnlyM M0 s0 s)
    (hm : Sub 0x3011000000000000000000000000000000000000000000000000003200000C M0 := by exact Sub.of hm rfl) :
    OnlyM M0 s0 (State.checkDone s) := by
  unfold State.checkDone
  repeat' first
    | (refine Sub.of hm ?_; exact Eq.refl _) | (refine Sub.bit hm ?_; exact Eq.refl _)
    | with_reducible refine State.set_only IMG_STATUS_PHASE_holds ?_ ?_
    | intro _ | with_reducible assumption
    | with_reducible apply State.runCheck_only
    | with_reducible apply State.raise_only | with_reducible apply OnlyM.ite
    | (extract_lets +onlyGivenNames x; refine OnlyM.cut (M0 := M0) (s0 := s0) x ?_ ?_ <;> first | (intro hx; clear_value x) | unfold x)
    | (extract_lets +onlyGivenNames x; clear_value x)
    | with_reducible (refine OnlyM.pair ?_ (by assumption))
    | split

theorem execCheckDone_only {M0 : Nat} {s0 : State} {s : State} (kp_s : OnlyM M0 s0 s)
    (hm : Sub 0x3011000000000000000000000000000000000000000000000000003200000C M0 := by exact Sub.of hm rfl) :
    OnlyOut M0 s0 (execCheckDone s) := by
  unfold execCheckDone
  repeat' first
    | (refine Sub.of hm ?_; exact Eq.refl _) | (refine Sub.bit hm ?_; exact Eq.refl _)
    | intro _ | with_reducible assumption
    | with_reducible apply State.checkDone_only | with_reducible apply OnlyOut.next
    | with_reducible apply OnlyOut.fault | with_reducible apply OnlyOut.ite
    | with_reducible apply OnlyM.ite
    | split

theorem State.stageDone_only {M0 : Nat} {s0 : State} {s : State} {ok : Bool} (kp_s : OnlyM M0 s0 s)
    (hm : Sub 0x3011000000000000000000000000000000000000000000000000010202000C M0 := by exact Sub.of hm rfl) :
    OnlyM M0 s0 (State.stageDone s ok) := by
  unfold State.stageDone
  repeat' first
    | (refine Sub.of hm ?_; exact Eq.refl _) | (refine Sub.bit hm ?_; exact Eq.refl _)
    | (refine Or.inl (Sub.bit hm ?_); exact Eq.refl _) | with_reducible exact Or.inr rfl
    | with_reducible refine State.set_only IMG_STATUS_PHASE_holds ?_ ?_
    | intro _ | with_reducible assumption
    | with_reducible apply State.writeJournal_only | with_reducible apply State.journalIdle_only | with_reducible apply State.raise_only
    | with_reducible apply OnlyM.ite
    | (extract_lets +onlyGivenNames x; refine OnlyM.cut (M0 := M0) (s0 := s0) x ?_ ?_ <;> first | (intro hx; clear_value x) | unfold x)
    | (extract_lets +onlyGivenNames x; clear_value x)
    | split | with_reducible apply OnlyM.update

theorem execStageDone_only {M0 : Nat} {s0 : State} {ok : Bool} {s : State} (kp_s : OnlyM M0 s0 s)
    (hm : Sub 0x3011000000000000000000000000000000000000000000000000010202000C M0 := by exact Sub.of hm rfl) :
    OnlyOut M0 s0 (execStageDone ok s) := by
  unfold execStageDone
  repeat' first
    | (refine Sub.of hm ?_; exact Eq.refl _) | (refine Sub.bit hm ?_; exact Eq.refl _)
    | intro _ | with_reducible assumption
    | with_reducible apply State.stageDone_only | with_reducible apply OnlyOut.next
    | with_reducible apply OnlyOut.fault | with_reducible apply OnlyOut.ite
    | with_reducible apply OnlyM.ite
    | split

theorem State.imgReady_only {M0 : Nat} {s0 : State} {s : State} {outcome : Nat} (kp_s : OnlyM M0 s0 s)
    (hm : Sub 0x18000000000000000020000003011000000000000000000000000000000000000000000000000020002002C M0 := by exact Sub.of hm rfl) :
    OnlyM M0 s0 (State.imgReady s outcome) := by
  unfold State.imgReady
  repeat' first
    | (refine Sub.of hm ?_; exact Eq.refl _) | (refine Sub.bit hm ?_; exact Eq.refl _)
    | (refine Or.inl (Sub.bit hm ?_); exact Eq.refl _) | with_reducible exact Or.inr rfl
    | with_reducible refine State.set_only IMG_BOOT_OUTCOME_holds ?_ ?_
    | with_reducible refine State.set_only WATCH_TREST_US_holds ?_ ?_
    | intro _ | with_reducible assumption | with_reducible apply State.modImg_only
    | with_reducible apply State.modPwr_only | with_reducible apply State.setReady_only
    | with_reducible apply State.wakeRecords_only | with_reducible apply OnlyOpt.none
    | with_reducible apply OnlyOpt.some
    | (extract_lets +onlyGivenNames x; refine OnlyM.cut (M0 := M0) (s0 := s0) x ?_ ?_ <;> first | (intro hx; clear_value x) | unfold x)
    | (extract_lets +onlyGivenNames x; clear_value x)
    | split | with_reducible apply OnlyM.update

theorem State.restoreFail_only {M0 : Nat} {s0 : State} {s : State} (kp_s : OnlyM M0 s0 s)
    (hm : Sub 0x18000000000000000020000003011000000000000000000000000000000000000000000000000020002002C M0 := by exact Sub.of hm rfl) :
    OnlyM M0 s0 (State.restoreFail s) := by
  unfold State.restoreFail
  repeat' first
    | (refine Sub.of hm ?_; exact Eq.refl _) | (refine Sub.bit hm ?_; exact Eq.refl _)
    | intro _ | with_reducible assumption
    | with_reducible apply State.raise_only | with_reducible apply State.occur_only
    | with_reducible apply State.imgReady_only
    | (extract_lets +onlyGivenNames x; refine OnlyM.cut (M0 := M0) (s0 := s0) x ?_ ?_ <;> first | (intro hx; clear_value x) | unfold x)
    | (extract_lets +onlyGivenNames x; clear_value x)

theorem State.restoreImage_only {M0 : Nat} {s0 : State} {s : State} {j : JCopy} {switched : Bool} (kp_s : OnlyM M0 s0 s)
    (hm : Sub 0x38A6100708000008002000000BC11000008665B8800F1679BE588A0C10FFC0C040080604C011763F2AFFEED M0 := by exact Sub.of hm rfl) :
    OnlyM M0 s0 (State.restoreImage s j switched) := by
  unfold State.restoreImage
  repeat' first
    | (refine Sub.of hm ?_; exact Eq.refl _) | (refine Sub.bit hm ?_; exact Eq.refl _)
    | (refine Or.inl (Sub.bit hm ?_); exact Eq.refl _) | with_reducible exact Or.inr rfl
    | intro _ | with_reducible assumption
    | with_reducible apply State.runCheck_only | with_reducible apply State.imageFloor_only
    | with_reducible apply State.applyImage_only | with_reducible apply State.modImg_only
    | with_reducible apply State.writeJournal_only | with_reducible apply State.raise_only
    | with_reducible apply State.imgReady_only | with_reducible apply State.restoreFail_only
    | with_reducible apply OnlyM.ite
    | (extract_lets +onlyGivenNames x; refine OnlyM.cut (M0 := M0) (s0 := s0) x ?_ ?_ <;> first | (intro hx; clear_value x) | unfold x)
    | (extract_lets +onlyGivenNames x; clear_value x)
    | with_reducible (refine OnlyM.pair ?_ (by assumption))
    | split | with_reducible apply OnlyM.update

theorem execImageRestore_only {M0 : Nat} {s0 : State} {s : State} (kp_s : OnlyM M0 s0 s)
    (hm : Sub 0x38A6100708000008002000000BC11000008665B8800F1679BE588A0C10FFC0C040080604C011763F2AFFEED M0 := by exact Sub.of hm rfl) :
    OnlyOut M0 s0 (execImageRestore s) := by
  unfold execImageRestore
  repeat' first
    | (refine Sub.of hm ?_; exact Eq.refl _) | (refine Sub.bit hm ?_; exact Eq.refl _)
    | (refine Or.inl (Sub.bit hm ?_); exact Eq.refl _) | with_reducible exact Or.inr rfl
    | with_reducible refine State.put_only IMG_JRNL_TORN_holds ?_ ?_
    | intro _ | with_reducible assumption | with_reducible apply State.restoreFail_only
    | with_reducible apply State.showJournal_only | with_reducible apply State.restoreImage_only
    | with_reducible apply State.journalIdle_only | with_reducible apply State.imgReady_only
    | with_reducible apply OnlyOut.next | with_reducible apply OnlyOut.fault
    | with_reducible apply OnlyOut.ite | with_reducible apply OnlyOpt.none
    | with_reducible apply OnlyOpt.some | with_reducible apply OnlyM.ite
    | (extract_lets +onlyGivenNames x; refine OnlyM.cut (M0 := M0) (s0 := s0) x ?_ ?_ <;> first | (intro hx; clear_value x) | unfold x)
    | (extract_lets +onlyGivenNames x; clear_value x)
    | split | with_reducible apply OnlyM.update

end Sys2Proof.Machine
end

