-- ==== Sys2Proof/Laws/OnlyLedger.lean ====
section
/-! SUPPORT. Which parts each operation of `Machine/Ledger.lean` may change, and that it keeps what every command keeps: each
lemma follows the operation's own text, piece by piece, and gives the parts as a set of part numbers. -/

namespace Sys2Proof.Machine

theorem execSourceRaise_only {M0 : Nat} {s0 : State} {src : SrcNo} {detail : Word} {s : State} (kp_s : OnlyM M0 s0 s)
    (hm : Sub 0x3011000000000000000000000000000000000000000000000000000000000C M0 := by exact Sub.of hm rfl) :
    OnlyOut M0 s0 (execSourceRaise src detail s) := by
  unfold execSourceRaise
  repeat' first
    | (refine Sub.of hm ?_; exact Eq.refl _) | (refine Sub.bit hm ?_; exact Eq.refl _)
    | intro _ | with_reducible assumption
    | with_reducible apply State.raise_only | with_reducible apply OnlyOut.next
    | with_reducible apply OnlyOut.fault | with_reducible apply OnlyOut.ite
    | with_reducible apply OnlyM.ite
    | split

theorem execLevelAssert_only {M0 : Nat} {s0 : State} {src : SrcNo} {s : State} (kp_s : OnlyM M0 s0 s)
    (hm : Sub 0x3011000000000000000000000000000000000000000000000000000000000C M0 := by exact Sub.of hm rfl) :
    OnlyOut M0 s0 (execLevelAssert src s) := by
  unfold execLevelAssert
  repeat' first
    | (refine Sub.of hm ?_; exact Eq.refl _) | (refine Sub.bit hm ?_; exact Eq.refl _)
    | intro _ | with_reducible assumption
    | with_reducible apply State.assertLevel_only | with_reducible apply OnlyOut.next
    | with_reducible apply OnlyOut.fault | with_reducible apply OnlyOut.ite
    | with_reducible apply OnlyM.ite
    | split

theorem execLevelDeassert_only {M0 : Nat} {s0 : State} {src : SrcNo} {s : State} (kp_s : OnlyM M0 s0 s)
    (hm : Sub 0x20000000000000000000000000000000000000000000000000000000000000 M0 := by exact Sub.of hm rfl) :
    OnlyOut M0 s0 (execLevelDeassert src s) := by
  unfold execLevelDeassert
  repeat' first
    | (refine Sub.of hm ?_; exact Eq.refl _) | (refine Sub.bit hm ?_; exact Eq.refl _)
    | intro _ | with_reducible assumption
    | with_reducible apply State.deassertLevel_only | with_reducible apply OnlyOut.next
    | with_reducible apply OnlyOut.fault | with_reducible apply OnlyOut.ite
    | with_reducible apply OnlyM.ite
    | split

theorem execRecordDelivery_only {M0 : Nat} {s0 : State} {k : Fin 64} {s : State} (kp_s : OnlyM M0 s0 s)
    (hm : Sub 0x800000000000000800000000003831000000020188000000000000000000000000000000000000000041800D M0 := by exact Sub.of hm rfl) :
    OnlyOut M0 s0 (execRecordDelivery k s) := by
  unfold execRecordDelivery
  repeat' first
    | (refine Sub.of hm ?_; exact Eq.refl _) | (refine Sub.bit hm ?_; exact Eq.refl _)
    | intro _ | with_reducible assumption
    | with_reducible apply State.deliver_only | with_reducible apply OnlyOut.next
    | with_reducible apply OnlyOut.fault | with_reducible apply OnlyOut.ite

theorem State.ledgErr_only {M0 : Nat} {s0 : State} {s : State} {reason num : Nat} {q : Requester} (kp_s : OnlyM M0 s0 s)
    (hm : Sub 0x80000000000000000000000000000000000000000000000000000000000 M0 := by exact Sub.of hm rfl) :
    OnlyM M0 s0 (State.ledgErr s reason num q) := by
  unfold State.ledgErr
  repeat' first
    | (refine Sub.of hm ?_; exact Eq.refl _) | (refine Sub.bit hm ?_; exact Eq.refl _)
    | (refine Or.inl (Sub.bit hm ?_); exact Eq.refl _) | with_reducible exact Or.inr rfl
    | with_reducible refine State.set_only LEDG_ERR_REASON_holds ?_ ?_
    | with_reducible refine State.set_only LEDG_ERR_NUM_holds ?_ ?_
    | with_reducible refine State.put_only LEDG_ERR_REQ_holds ?_ ?_
    | with_reducible refine State.set_only LEDG_ERR_ENGINE_holds ?_ ?_
    | with_reducible refine State.put_only LEDG_ERR_VALID_holds ?_ ?_
    | intro _ | with_reducible assumption
    | with_reducible apply OnlyM.ite
    | (extract_lets +onlyGivenNames x; refine OnlyM.cut (M0 := M0) (s0 := s0) x ?_ ?_ <;> first | (intro hx; clear_value x) | unfold x)
    | (extract_lets +onlyGivenNames x; clear_value x)
    | split | with_reducible apply OnlyM.update

theorem State.redeliver_only {M0 : Nat} {s0 : State} {s : State} {src count detail nso : Nat} (kp_s : OnlyM M0 s0 s)
    (hm : Sub 0x3011000000000000000000000000000000000000000000000000000000000C M0 := by exact Sub.of hm rfl) :
    OnlyM M0 s0 (State.redeliver s src count detail nso) := by
  unfold State.redeliver
  repeat' first
    | (refine Sub.of hm ?_; exact Eq.refl _) | (refine Sub.bit hm ?_; exact Eq.refl _)
    | with_reducible refine State.set_only (LEDG_SRC_STATE_holds ..) ?_ ?_
    | intro _ | with_reducible assumption
    | with_reducible apply State.createEventAt_only
    | with_reducible apply OnlyM.ite
    | split

theorem State.eoi_only {M0 : Nat} {s0 : State} {s : State} {src : Nat} (kp_s : OnlyM M0 s0 s)
    (hm : Sub 0x3011000000000000000000000000000000000000000000000000000000000C M0 := by exact Sub.of hm rfl) :
    OnlyM M0 s0 (State.eoi s src) := by
  unfold State.eoi
  repeat' first
    | (refine Sub.of hm ?_; exact Eq.refl _) | (refine Sub.bit hm ?_; exact Eq.refl _)
    | (refine Or.inl (Sub.bit hm ?_); exact Eq.refl _) | with_reducible exact Or.inr rfl
    | with_reducible refine State.set_only (LEDG_SRC_STATE_holds ..) ?_ ?_
    | intro _ | with_reducible assumption
    | with_reducible apply State.redeliver_only
    | with_reducible apply OnlyM.ite
    | (extract_lets +onlyGivenNames x; refine OnlyM.cut (M0 := M0) (s0 := s0) x ?_ ?_ <;> first | (intro hx; clear_value x) | unfold x)
    | (extract_lets +onlyGivenNames x; clear_value x)
    | split | with_reducible apply OnlyM.update

theorem State.eoiWrite_only {M0 : Nat} {s0 : State} {s : State} {q : Requester} {src : Nat} (kp_s : OnlyM M0 s0 s)
    (hm : Sub 0x3019000000000000000000000000000000000000000000000000000000000C M0 := by exact Sub.of hm rfl) :
    OnlyM M0 s0 (State.eoiWrite s q src) := by
  unfold State.eoiWrite
  repeat' first
    | (refine Sub.of hm ?_; exact Eq.refl _) | (refine Sub.bit hm ?_; exact Eq.refl _)
    | intro _ | with_reducible assumption
    | with_reducible apply State.ledgErr_only | with_reducible apply State.eoi_only
    | with_reducible apply OnlyM.ite
    | split

theorem execEoi_only {M0 : Nat} {s0 : State} {q : Requester} {src : SrcNo} {s : State} (kp_s : OnlyM M0 s0 s)
    (hm : Sub 0x40000000000000000000000003019000000000188000000000000000000000000000000000000000020800C M0 := by exact Sub.of hm rfl) :
    OnlyOut M0 s0 (execEoi q src s) := by
  unfold execEoi
  repeat' first
    | (refine Sub.of hm ?_; exact Eq.refl _) | (refine Sub.bit hm ?_; exact Eq.refl _)
    | intro _ | with_reducible assumption
    | with_reducible apply State.openWrite_only | with_reducible apply State.eoiWrite_only
    | with_reducible apply OnlyOut.next | with_reducible apply OnlyOut.fault
    | with_reducible apply OnlyOut.ite

theorem State.headWrite_only {M0 : Nat} {s0 : State} {s : State} {q : Requester} {k v : Nat} (kp_s : OnlyM M0 s0 s)
    (hm : Sub 0x8000000000000008000000000014280000000001880000000000000000000000000000000000000000408004 M0 := by exact Sub.of hm rfl) :
    OnlyM M0 s0 (State.headWrite s q k v) := by
  unfold State.headWrite
  repeat' first
    | (refine Sub.of hm ?_; exact Eq.refl _) | (refine Sub.bit hm ?_; exact Eq.refl _)
    | (refine Or.inl (Sub.bit hm ?_); exact Eq.refl _) | with_reducible exact Or.inr rfl
    | with_reducible refine State.set_only (LEDG_RING_HEAD_HEAD_holds ..) ?_ ?_
    | with_reducible refine State.put_only (ependLoc_holds ..) ?_ ?_
    | intro _ | with_reducible assumption
    | with_reducible apply State.ledgErr_only
    | with_reducible apply State.setRingHid_only
    | with_reducible apply State.signalRing_only | with_reducible apply State.signalTarget_only
    | with_reducible apply OnlyM.ite
    | (extract_lets +onlyGivenNames x; refine OnlyM.cut (M0 := M0) (s0 := s0) x ?_ ?_ <;> first | (intro hx; clear_value x) | unfold x)
    | (extract_lets +onlyGivenNames x; clear_value x)
    | split | with_reducible apply OnlyM.update

theorem State.headAccess_only {M0 : Nat} {s0 : State} {s : State} {q : Requester} {k v : Nat} (kp_s : OnlyM M0 s0 s)
    (hm : Sub 0x8400000000000008000000000014280000000001880000000000000000000000000000000000000000608004 M0 := by exact Sub.of hm rfl) :
    OnlyM M0 s0 (State.headAccess s q k v) := by
  unfold State.headAccess
  repeat' first
    | (refine Sub.of hm ?_; exact Eq.refl _) | (refine Sub.bit hm ?_; exact Eq.refl _)
    | intro _ | with_reducible assumption
    | with_reducible apply State.ledgErr_only | with_reducible apply State.access_only
    | with_reducible apply State.headWrite_only | with_reducible apply State.answerDone_only
    | with_reducible apply OnlyM.ite
    | (extract_lets +onlyGivenNames x; refine OnlyM.cut (M0 := M0) (s0 := s0) x ?_ ?_ <;> first | (intro hx; clear_value x) | unfold x)
    | (extract_lets +onlyGivenNames x; clear_value x)
    | split

theorem execHeadWrite_only {M0 : Nat} {s0 : State} {q : Requester} {k : Fin 64} {v : Fin 131072} {s : State} (kp_s : OnlyM M0 s0 s)
    (hm : Sub 0x8400000000000008000000000014280000000001880000000000000000000000000000000000000000608004 M0 := by exact Sub.of hm rfl) :
    OnlyOut M0 s0 (execHeadWrite q k v s) := by
  unfold execHeadWrite
  repeat' first
    | (refine Sub.of hm ?_; exact Eq.refl _) | (refine Sub.bit hm ?_; exact Eq.refl _)
    | intro _ | with_reducible assumption
    | with_reducible apply State.headAccess_only | with_reducible apply OnlyOut.next
    | with_reducible apply OnlyOut.fault | with_reducible apply OnlyOut.ite

theorem execModerationExpiry_only {M0 : Nat} {s0 : State} {k : Fin 64} {s : State} (kp_s : OnlyM M0 s0 s)
    (hm : Sub 0x8000000000000008000000000010200000000001880000000000000000000000000000000000000000408004 M0 := by exact Sub.of hm rfl) :
    OnlyOut M0 s0 (execModerationExpiry k s) := by
  unfold execModerationExpiry
  repeat' first
    | (refine Sub.of hm ?_; exact Eq.refl _) | (refine Sub.bit hm ?_; exact Eq.refl _)
    | intro _ | with_reducible assumption
    | with_reducible apply State.signalRing_only | with_reducible apply OnlyOut.next
    | with_reducible apply OnlyOut.fault | with_reducible apply OnlyOut.ite

theorem State.holdOn_only {M0 : Nat} {s0 : State} {s : State} (kp_s : OnlyM M0 s0 s)
    (hm : Sub 0x30000000000000000000000000000000000000000000000000000000004 M0 := by exact Sub.of hm rfl) :
    OnlyM M0 s0 (State.holdOn s) := by
  unfold State.holdOn
  repeat' first
    | (refine Sub.of hm ?_; exact Eq.refl _) | (refine Sub.bit hm ?_; exact Eq.refl _)
    | (refine Or.inl (Sub.bit hm ?_); exact Eq.refl _) | with_reducible exact Or.inr rfl
    | with_reducible refine State.put_only LEDG_HOLD_ON_holds ?_ ?_
    | with_reducible refine State.put_only LEDG_STAT_HELD_holds ?_ ?_
    | intro _ | with_reducible assumption | with_reducible apply OnlyM.ite
    | (extract_lets +onlyGivenNames x; refine OnlyM.cut (M0 := M0) (s0 := s0) x ?_ ?_ <;> first | (intro hx; clear_value x) | unfold x)
    | (extract_lets +onlyGivenNames x; clear_value x)
    | split | with_reducible apply OnlyM.update

theorem State.holdOff_only {M0 : Nat} {s0 : State} {s : State} (kp_s : OnlyM M0 s0 s)
    (hm : Sub 0x800000000000000800000000003833000000020188000000000000000000000000000000000000000041800D M0 := by exact Sub.of hm rfl) :
    OnlyM M0 s0 (State.holdOff s) := by
  unfold State.holdOff
  repeat' first
    | (refine Sub.of hm ?_; exact Eq.refl _) | (refine Sub.bit hm ?_; exact Eq.refl _)
    | (refine Or.inl (Sub.bit hm ?_); exact Eq.refl _) | with_reducible exact Or.inr rfl
    | with_reducible refine State.put_only LEDG_HOLD_ON_holds ?_ ?_
    | with_reducible refine State.put_only LEDG_STAT_HELD_holds ?_ ?_
    | intro _ | with_reducible assumption | with_reducible apply State.drainAll_only
    | with_reducible apply OnlyOpt.none | with_reducible apply OnlyOpt.some
    | with_reducible apply OnlyM.ite
    | (extract_lets +onlyGivenNames x; refine OnlyM.cut (M0 := M0) (s0 := s0) x ?_ ?_ <;> first | (intro hx; clear_value x) | unfold x)
    | (extract_lets +onlyGivenNames x; clear_value x)
    | split | with_reducible apply OnlyM.update

theorem State.holdWrite_only {M0 : Nat} {s0 : State} {s : State} {on : Bool} {mx : Nat} (kp_s : OnlyM M0 s0 s)
    (hm : Sub 0x800000000000000800000000003833000000020188000000000000000000000000000000000000000041800D M0 := by exact Sub.of hm rfl) :
    OnlyM M0 s0 (State.holdWrite s on mx) := by
  unfold State.holdWrite
  repeat' first
    | (refine Sub.of hm ?_; exact Eq.refl _) | (refine Sub.bit hm ?_; exact Eq.refl _)
    | with_reducible refine State.set_only LEDG_HOLD_MAX_holds ?_ ?_
    | intro _ | with_reducible assumption | with_reducible apply State.holdOn_only
    | with_reducible apply State.holdOff_only | with_reducible apply OnlyM.ite
    | (extract_lets +onlyGivenNames x; refine OnlyM.cut (M0 := M0) (s0 := s0) x ?_ ?_ <;> first | (intro hx; clear_value x) | unfold x)
    | (extract_lets +onlyGivenNames x; clear_value x)
    | split

theorem execHoldOn_only {M0 : Nat} {s0 : State} {q : Requester} {mx : Byte} {s : State} (kp_s : OnlyM M0 s0 s)
    (hm : Sub 0x840000000000000800000000003833000000020188000000000000000000000000000000000000000061800D M0 := by exact Sub.of hm rfl) :
    OnlyOut M0 s0 (execHoldOn q mx s) := by
  unfold execHoldOn
  repeat' first
    | (refine Sub.of hm ?_; exact Eq.refl _) | (refine Sub.bit hm ?_; exact Eq.refl _)
    | intro _ | with_reducible assumption
    | with_reducible apply State.hostWrite_only | with_reducible apply State.holdWrite_only
    | with_reducible apply OnlyOut.next | with_reducible apply OnlyOut.fault
    | with_reducible apply OnlyOut.ite

theorem execHoldOff_only {M0 : Nat} {s0 : State} {q : Requester} {mx : Byte} {s : State} (kp_s : OnlyM M0 s0 s)
    (hm : Sub 0x840000000000000800000000003833000000020188000000000000000000000000000000000000000061800D M0 := by exact Sub.of hm rfl) :
    OnlyOut M0 s0 (execHoldOff q mx s) := by
  unfold execHoldOff
  repeat' first
    | (refine Sub.of hm ?_; exact Eq.refl _) | (refine Sub.bit hm ?_; exact Eq.refl _)
    | intro _ | with_reducible assumption
    | with_reducible apply State.hostWrite_only | with_reducible apply State.holdWrite_only
    | with_reducible apply OnlyOut.next | with_reducible apply OnlyOut.fault
    | with_reducible apply OnlyOut.ite

theorem execHoldExpiry_only {M0 : Nat} {s0 : State} {s : State} (kp_s : OnlyM M0 s0 s)
    (hm : Sub 0x800000000000000800000000003833000000020188000000000000000000000000000000000000000041800D M0 := by exact Sub.of hm rfl) :
    OnlyOut M0 s0 (execHoldExpiry s) := by
  unfold execHoldExpiry
  repeat' first
    | (refine Sub.of hm ?_; exact Eq.refl _) | (refine Sub.bit hm ?_; exact Eq.refl _)
    | (refine Or.inl (Sub.bit hm ?_); exact Eq.refl _) | with_reducible exact Or.inr rfl
    | with_reducible refine State.put_only LEDG_STAT_HOLD_EXP_holds ?_ ?_
    | intro _ | with_reducible assumption | with_reducible apply State.holdOff_only
    | with_reducible apply OnlyOut.next | with_reducible apply OnlyOut.fault
    | with_reducible apply OnlyOut.ite | with_reducible apply OnlyOpt.none
    | with_reducible apply OnlyOpt.some | with_reducible apply OnlyM.ite
    | (extract_lets +onlyGivenNames x; refine OnlyM.cut (M0 := M0) (s0 := s0) x ?_ ?_ <;> first | (intro hx; clear_value x) | unfold x)
    | (extract_lets +onlyGivenNames x; clear_value x)
    | split | with_reducible apply OnlyM.update

theorem execRateIntervalEnd_only {M0 : Nat} {s0 : State} {key : Fin 4224} {s : State} (kp_s : OnlyM M0 s0 s)
    (hm : Sub 0x3011000000000000000000000000000000000000000000000000000000000C M0 := by exact Sub.of hm rfl) :
    OnlyOut M0 s0 (execRateIntervalEnd key s) := by
  unfold execRateIntervalEnd
  try dsimp only
  repeat' first
    | (refine Sub.of hm ?_; exact Eq.refl _) | (refine Sub.bit hm ?_; exact Eq.refl _)
    | intro _ | with_reducible assumption
    | with_reducible apply State.closeRate_only | with_reducible apply OnlyOut.next
    | with_reducible apply OnlyOut.fault | with_reducible apply OnlyOut.ite

theorem State.srcEnable_only {M0 : Nat} {s0 : State} {s : State} {src : Nat} {en : Bool} (kp_s : OnlyM M0 s0 s)
    (hm : Sub 0x3011000000000000000000000000000000000000000000000000000000000C M0 := by exact Sub.of hm rfl) :
    OnlyM M0 s0 (State.srcEnable s src en) := by
  unfold State.srcEnable
  repeat' first
    | (refine Sub.of hm ?_; exact Eq.refl _) | (refine Sub.bit hm ?_; exact Eq.refl _)
    | with_reducible refine State.put_only (LEDG_SRC_EN_holds ..) ?_ ?_
    | intro _ | with_reducible assumption | with_reducible apply State.levelRecord_only
    | with_reducible apply OnlyM.ite
    | (extract_lets +onlyGivenNames x; refine OnlyM.cut (M0 := M0) (s0 := s0) x ?_ ?_ <;> first | (intro hx; clear_value x) | unfold x)
    | (extract_lets +onlyGivenNames x; clear_value x)
    | split

theorem execSrcEnable_only {M0 : Nat} {s0 : State} {q : Requester} {src : Fin 2047} {en : Bool} {s : State} (kp_s : OnlyM M0 s0 s)
    (hm : Sub 0x40000000000000000000000003011000000000188000000000000000000000000000000000000000020800C M0 := by exact Sub.of hm rfl) :
    OnlyOut M0 s0 (execSrcEnable q src en s) := by
  unfold execSrcEnable
  repeat' first
    | (refine Sub.of hm ?_; exact Eq.refl _) | (refine Sub.bit hm ?_; exact Eq.refl _)
    | intro _ | with_reducible assumption
    | with_reducible apply State.hostWrite_only | with_reducible apply State.srcEnable_only
    | with_reducible apply OnlyOut.next | with_reducible apply OnlyOut.fault
    | with_reducible apply OnlyOut.ite

end Sys2Proof.Machine
end

