-- ==== Sys2Proof/Laws/OnlyUpdate.lean ====
section
/-! SUPPORT. Which parts each operation of `Machine/Update.lean` may change, and that it keeps what every command keeps: each
lemma follows the operation's own text, piece by piece, and gives the parts as a set of part numbers. -/

namespace Sys2Proof.Machine

theorem State.updBegin_only {M0 : Nat} {s0 : State} {s : State} {code : Nat} {r : Option Nat} (kp_s : OnlyM M0 s0 s)
    (hm : Sub 0x100000000000000000000000000000000000000000000000000000000000000000000000000040000 M0 := by exact Sub.of hm rfl) :
    OnlyM M0 s0 (State.updBegin s code r) := by
  unfold State.updBegin
  repeat' first
    | (refine Sub.of hm ?_; exact Eq.refl _) | (refine Sub.bit hm ?_; exact Eq.refl _)
    | (refine Or.inl (Sub.bit hm ?_); exact Eq.refl _) | with_reducible exact Or.inr rfl
    | with_reducible refine State.put_only UPD_STAT_BUSY_holds ?_ ?_
    | intro _ | with_reducible assumption | with_reducible apply State.modUpd_only
    | with_reducible apply OnlyM.update

theorem State.updManifest_only {M0 : Nat} {s0 : State} {s : State} {f : FlashSeen} (kp_s : OnlyM M0 s0 s)
    (hm : Sub 0x590000000000000000003011000000000000000000000000000000000000000000000000000004004C M0 := by exact Sub.of hm rfl) :
    OnlyM M0 s0 (State.updManifest s f) := by
  unfold State.updManifest
  repeat' first
    | (refine Sub.of hm ?_; exact Eq.refl _) | (refine Sub.bit hm ?_; exact Eq.refl _)
    | (refine Or.inl (Sub.bit hm ?_); exact Eq.refl _) | with_reducible exact Or.inr rfl
    | intro _ | with_reducible assumption
    | with_reducible apply State.updBegin_only | with_reducible apply State.takeManifest_only
    | with_reducible apply OnlyOpt.none | with_reducible apply OnlyOpt.some
    | (extract_lets +onlyGivenNames x; refine OnlyM.cut (M0 := M0) (s0 := s0) x ?_ ?_ <;> first | (intro hx; clear_value x) | unfold x)
    | (extract_lets +onlyGivenNames x; clear_value x)
    | with_reducible (refine OnlyM.pair ?_ (by assumption))
    | split | with_reducible apply OnlyM.update

theorem State.updChunk_only {M0 : Nat} {s0 : State} {s : State} {k : Nat} {f : FlashSeen} (kp_s : OnlyM M0 s0 s)
    (hm : Sub 0x590000000000000000003011000000000000000000000000000000000000000000000000000004004C M0 := by exact Sub.of hm rfl) :
    OnlyM M0 s0 (State.updChunk s k f) := by
  unfold State.updChunk
  repeat' first
    | (refine Sub.of hm ?_; exact Eq.refl _) | (refine Sub.bit hm ?_; exact Eq.refl _)
    | (refine Or.inl (Sub.bit hm ?_); exact Eq.refl _) | with_reducible exact Or.inr rfl
    | intro _ | with_reducible assumption
    | with_reducible apply State.updBegin_only | with_reducible apply State.takeChunk_only
    | with_reducible apply OnlyOpt.none | with_reducible apply OnlyOpt.some
    | with_reducible apply OnlyM.ite
    | (extract_lets +onlyGivenNames x; refine OnlyM.cut (M0 := M0) (s0 := s0) x ?_ ?_ <;> first | (intro hx; clear_value x) | unfold x)
    | (extract_lets +onlyGivenNames x; clear_value x)
    | with_reducible (refine OnlyM.pair ?_ (by assumption))
    | split | with_reducible apply OnlyM.update

theorem State.prepareImage_only {M0 : Nat} {s0 : State} {s : State} {b : List Byte} {ok : Bool} (kp_s : OnlyM M0 s0 s)
    (hm : Sub 0x3011000000000000000000000000000000000000000000000000013202000C M0 := by exact Sub.of hm rfl) :
    OnlyM M0 s0 (State.prepareImage s b ok).2 := by
  unfold State.prepareImage
  try dsimp only
  repeat' first
    | (refine Sub.of hm ?_; exact Eq.refl _) | (refine Sub.bit hm ?_; exact Eq.refl _)
    | (refine Or.inl (Sub.bit hm ?_); exact Eq.refl _) | with_reducible exact Or.inr rfl
    | with_reducible refine State.set_only IMG_STATUS_PHASE_holds ?_ ?_
    | intro _ | with_reducible assumption
    | with_reducible apply State.modImg_only | with_reducible apply State.runCheck_only | with_reducible apply State.raise_only
    | with_reducible apply State.startStage_only | with_reducible apply State.stageDone_only
    | with_reducible apply OnlyM.ite
    | with_reducible (refine OnlyM.pair ?_ (by assumption))
    | split | with_reducible apply OnlyM.update

theorem State.imageToHall_only {M0 : Nat} {s0 : State} {s : State} {m b : List Byte} (kp_s : OnlyM M0 s0 s)
    (hm : Sub 0x200000000000000000000000000000000000000000000018009 M0 := by exact Sub.of hm rfl) :
    OnlyM M0 s0 (State.imageToHall s m b) := by
  unfold State.imageToHall
  repeat' first
    | (refine Sub.of hm ?_; exact Eq.refl _) | (refine Sub.bit hm ?_; exact Eq.refl _)
    | intro _ | with_reducible assumption
    | with_reducible apply State.hallStore_only | with_reducible apply OnlyM.ite
    | (extract_lets +onlyGivenNames x; refine OnlyM.cut (M0 := M0) (s0 := s0) x ?_ ?_ <;> first | (intro hx; clear_value x) | unfold x)
    | (extract_lets +onlyGivenNames x; clear_value x)
    | split

theorem State.prepareSlot_only {M0 : Nat} {s0 : State} {s : State} {ok : Bool} (kp_s : OnlyM M0 s0 s)
    (hm : Sub 0x1010000000000000000003011000000020000008020902000000004000000000060000000013287800D M0 := by exact Sub.of hm rfl) :
    OnlyM M0 s0 (State.prepareSlot s ok).2 := by
  unfold State.prepareSlot
  try dsimp only
  repeat' first
    | (refine Sub.of hm ?_; exact Eq.refl _) | (refine Sub.bit hm ?_; exact Eq.refl _)
    | (refine Or.inl (Sub.bit hm ?_); exact Eq.refl _) | with_reducible exact Or.inr rfl
    | with_reducible refine State.put_only UPD_STAT_PREP_holds ?_ ?_
    | intro _ | with_reducible assumption
    | with_reducible apply State.imageToHall_only | with_reducible apply State.prepareImage_only
    | with_reducible apply State.candidate_only | with_reducible apply State.hallStore_only
    | with_reducible apply State.modUpd_only
    | with_reducible apply State.each_only | with_reducible apply OnlyM.ite
    | with_reducible (refine OnlyM.pair ?_ (by assumption))
    | split | with_reducible apply OnlyM.update

theorem State.startHandover_only {M0 : Nat} {s0 : State} {s : State} (kp_s : OnlyM M0 s0 s)
    (hm : Sub 0x990000000000000000003011000000020188100000000000000000000000000000000000000005800D M0 := by exact Sub.of hm rfl) :
    OnlyM M0 s0 (State.startHandover s) := by
  unfold State.startHandover
  repeat' first
    | (refine Sub.of hm ?_; exact Eq.refl _) | (refine Sub.bit hm ?_; exact Eq.refl _)
    | (refine Or.inl (Sub.bit hm ?_); exact Eq.refl _) | with_reducible exact Or.inr rfl
    | with_reducible refine State.set_only (UPD_FORCED_BITS_holds ..) ?_ ?_
    | intro _ | with_reducible assumption
    | with_reducible apply State.writeUpdate_only | with_reducible apply State.raise_only
    | with_reducible apply State.modUpd_only
    | with_reducible apply State.setPartWord_only | with_reducible apply State.doorbell_only
    | with_reducible apply State.each_only
    | (extract_lets +onlyGivenNames x; refine OnlyM.cut (M0 := M0) (s0 := s0) x ?_ ?_ <;> first | (intro hx; clear_value x) | unfold x)
    | (extract_lets +onlyGivenNames x; clear_value x)
    | split | with_reducible apply OnlyM.update

theorem State.confirm_only {M0 : Nat} {s0 : State} {s : State} {m : MramSeen} (kp_s : OnlyM M0 s0 s)
    (hm : Sub 0x59708000000000000000301100000000000000000000000000000000000000000000000000000D800D M0 := by exact Sub.of hm rfl) :
    OnlyM M0 s0 (State.confirm s m) := by
  unfold State.confirm
  repeat' first
    | (refine Sub.of hm ?_; exact Eq.refl _) | (refine Sub.bit hm ?_; exact Eq.refl _)
    | (refine Or.inl (Sub.bit hm ?_); exact Eq.refl _) | with_reducible exact Or.inr rfl
    | with_reducible refine State.put_only UPD_STAT_PREP_holds ?_ ?_
    | intro _ | with_reducible assumption
    | with_reducible apply State.writeUpdate_only | with_reducible apply State.clearMap_only
    | with_reducible apply State.advance_only | with_reducible apply State.tlog_only
    | with_reducible apply State.zeroRange_only
    | with_reducible apply State.modUpd_only | with_reducible apply State.raise_only
    | with_reducible apply OnlyOpt.none | with_reducible apply OnlyOpt.some
    | with_reducible apply OnlyM.ite
    | (extract_lets +onlyGivenNames x; refine OnlyM.cut (M0 := M0) (s0 := s0) x ?_ ?_ <;> first | (intro hx; clear_value x) | unfold x)
    | (extract_lets +onlyGivenNames x; clear_value x)
    | with_reducible (refine OnlyM.pair ?_ (by assumption))
    | split | with_reducible apply OnlyM.update

theorem State.updErr_only {M0 : Nat} {s0 : State} {s : State} (kp_s : OnlyM M0 s0 s)
    (hm : Sub 0x100000000000000000000000000000000000000000000000000000000000000000000000000000000 M0 := by exact Sub.of hm rfl) :
    OnlyM M0 s0 (State.updErr s) := by
  unfold State.updErr
  repeat' first
    | (refine Sub.of hm ?_; exact Eq.refl _) | (refine Sub.bit hm ?_; exact Eq.refl _)
    | with_reducible refine State.put_only UPD_STAT_CMDERR_holds ?_ ?_
    | intro _ | with_reducible assumption

theorem State.discard_only {M0 : Nat} {s0 : State} {s : State} (kp_s : OnlyM M0 s0 s)
    (hm : Sub 0x5900000000000000000000000000000000000000000000000000000000000000000000000102060000 M0 := by exact Sub.of hm rfl) :
    OnlyM M0 s0 (State.discard s) := by
  unfold State.discard
  repeat' first
    | (refine Sub.of hm ?_; exact Eq.refl _) | (refine Sub.bit hm ?_; exact Eq.refl _)
    | (refine Or.inl (Sub.bit hm ?_); exact Eq.refl _) | with_reducible exact Or.inr rfl
    | with_reducible refine State.put_only UPD_STAT_PREP_holds ?_ ?_
    | intro _ | with_reducible assumption
    | with_reducible apply State.imgAbort_only
    | with_reducible apply State.modUpd_only | with_reducible apply State.writeUpdate_only
    | with_reducible apply State.clearMap_only | with_reducible apply OnlyM.ite
    | (extract_lets +onlyGivenNames x; refine OnlyM.cut (M0 := M0) (s0 := s0) x ?_ ?_ <;> first | (intro hx; clear_value x) | unfold x)
    | (extract_lets +onlyGivenNames x; clear_value x)
    | split | with_reducible apply OnlyM.update

theorem State.updCommand_only {M0 : Nat} {s0 : State} {s : State} {code arg : Nat} {f : FlashSeen} {m : MramSeen} {stuck : List EngNo} (kp_s : OnlyM M0 s0 s)
    (hm : Sub 0x1D9708000000000000000301100000002038A10802090200000000400000000006000000001328F804D M0 := by exact Sub.of hm rfl) :
    OnlyM M0 s0 (State.updCommand s code arg f m stuck) := by
  unfold State.updCommand
  try dsimp only
  repeat' first
    | (refine Sub.of hm ?_; exact Eq.refl _) | (refine Sub.bit hm ?_; exact Eq.refl _)
    | (refine Or.inl (Sub.bit hm ?_); exact Eq.refl _) | with_reducible exact Or.inr rfl
    | intro _ | with_reducible assumption
    | with_reducible apply State.updErr_only | with_reducible apply State.updManifest_only
    | with_reducible apply State.updChunk_only | with_reducible apply State.prepareSlot_only
    | with_reducible apply State.updBegin_only | with_reducible apply State.startHandover_only
    | with_reducible apply State.confirm_only | with_reducible apply State.startFallback_only
    | with_reducible apply State.discard_only | with_reducible apply OnlyOpt.none
    | with_reducible apply OnlyOpt.some | with_reducible apply OnlyM.ite
    | with_reducible (refine OnlyM.pair ?_ (by assumption))
    | split | with_reducible apply OnlyM.update

theorem State.updWrite_only {M0 : Nat} {s0 : State} {s : State} {q : Requester} {code arg : Nat} {f : FlashSeen} {m : MramSeen} {stuck : List EngNo} (kp_s : OnlyM M0 s0 s)
    (hm : Sub 0x40001D9708000000000000000301100000002038A1080209020000000040000000000600000000132AF804D M0 := by exact Sub.of hm rfl) :
    OnlyM M0 s0 (State.updWrite s q code arg f m stuck) := by
  unfold State.updWrite
  repeat' first
    | (refine Sub.of hm ?_; exact Eq.refl _) | (refine Sub.bit hm ?_; exact Eq.refl _)
    | intro _ | with_reducible assumption
    | with_reducible apply State.hostWrite_only | with_reducible apply State.updCommand_only

theorem execManifest_only {M0 : Nat} {s0 : State} {q : Requester} {f : FlashSeen} {s : State} (kp_s : OnlyM M0 s0 s)
    (hm : Sub 0x40001D9708000000000000000301100000002038A1080209020000000040000000000600000000132AF804D M0 := by exact Sub.of hm rfl) :
    OnlyOut M0 s0 (execManifest q f s) := by
  unfold execManifest
  repeat' first
    | (refine Sub.of hm ?_; exact Eq.refl _) | (refine Sub.bit hm ?_; exact Eq.refl _)
    | intro _ | with_reducible assumption
    | with_reducible apply State.updWrite_only | with_reducible apply OnlyOut.next
    | with_reducible apply OnlyOut.fault | with_reducible apply OnlyOut.ite

theorem execChunk_only {M0 : Nat} {s0 : State} {q : Requester} {k : Fin 256} {f : FlashSeen} {s : State} (kp_s : OnlyM M0 s0 s)
    (hm : Sub 0x40001D9708000000000000000301100000002038A1080209020000000040000000000600000000132AF804D M0 := by exact Sub.of hm rfl) :
    OnlyOut M0 s0 (execChunk q k f s) := by
  unfold execChunk
  repeat' first
    | (refine Sub.of hm ?_; exact Eq.refl _) | (refine Sub.bit hm ?_; exact Eq.refl _)
    | intro _ | with_reducible assumption
    | with_reducible apply State.updWrite_only | with_reducible apply OnlyOut.next
    | with_reducible apply OnlyOut.fault | with_reducible apply OnlyOut.ite

theorem execPrepare_only {M0 : Nat} {s0 : State} {q : Requester} {ok : Bool} {s : State} (kp_s : OnlyM M0 s0 s)
    (hm : Sub 0x40001D9708000000000000000301100000002038A1080209020000000040000000000600000000132AF804D M0 := by exact Sub.of hm rfl) :
    OnlyOut M0 s0 (execPrepare q ok s) := by
  unfold execPrepare
  repeat' first
    | (refine Sub.of hm ?_; exact Eq.refl _) | (refine Sub.bit hm ?_; exact Eq.refl _)
    | intro _ | with_reducible assumption
    | with_reducible apply State.updWrite_only | with_reducible apply OnlyOut.next
    | with_reducible apply OnlyOut.fault | with_reducible apply OnlyOut.ite
    | with_reducible apply OnlyM.ite
    | split

theorem execHandover_only {M0 : Nat} {s0 : State} {q : Requester} {s : State} (kp_s : OnlyM M0 s0 s)
    (hm : Sub 0x40001D9708000000000000000301100000002038A1080209020000000040000000000600000000132AF804D M0 := by exact Sub.of hm rfl) :
    OnlyOut M0 s0 (execHandover q s) := by
  unfold execHandover
  repeat' first
    | (refine Sub.of hm ?_; exact Eq.refl _) | (refine Sub.bit hm ?_; exact Eq.refl _)
    | intro _ | with_reducible assumption
    | with_reducible apply State.updWrite_only | with_reducible apply OnlyOut.next
    | with_reducible apply OnlyOut.fault | with_reducible apply OnlyOut.ite

theorem execConfirm_only {M0 : Nat} {s0 : State} {q : Requester} {m : MramSeen} {s : State} (kp_s : OnlyM M0 s0 s)
    (hm : Sub 0x40001D9708000000000000000301100000002038A1080209020000000040000000000600000000132AF804D M0 := by exact Sub.of hm rfl) :
    OnlyOut M0 s0 (execConfirm q m s) := by
  unfold execConfirm
  repeat' first
    | (refine Sub.of hm ?_; exact Eq.refl _) | (refine Sub.bit hm ?_; exact Eq.refl _)
    | intro _ | with_reducible assumption
    | with_reducible apply State.updWrite_only | with_reducible apply OnlyOut.next
    | with_reducible apply OnlyOut.fault | with_reducible apply OnlyOut.ite

theorem execFallback_only {M0 : Nat} {s0 : State} {q : Requester} {stuck : List EngNo} {s : State} (kp_s : OnlyM M0 s0 s)
    (hm : Sub 0x40001D9708000000000000000301100000002038A1080209020000000040000000000600000000132AF804D M0 := by exact Sub.of hm rfl) :
    OnlyOut M0 s0 (execFallback q stuck s) := by
  unfold execFallback
  repeat' first
    | (refine Sub.of hm ?_; exact Eq.refl _) | (refine Sub.bit hm ?_; exact Eq.refl _)
    | intro _ | with_reducible assumption
    | with_reducible apply State.updWrite_only | with_reducible apply OnlyOut.next
    | with_reducible apply OnlyOut.fault | with_reducible apply OnlyOut.ite

theorem execDiscard_only {M0 : Nat} {s0 : State} {q : Requester} {s : State} (kp_s : OnlyM M0 s0 s)
    (hm : Sub 0x40001D9708000000000000000301100000002038A1080209020000000040000000000600000000132AF804D M0 := by exact Sub.of hm rfl) :
    OnlyOut M0 s0 (execDiscard q s) := by
  unfold execDiscard
  repeat' first
    | (refine Sub.of hm ?_; exact Eq.refl _) | (refine Sub.bit hm ?_; exact Eq.refl _)
    | intro _ | with_reducible assumption
    | with_reducible apply State.updWrite_only | with_reducible apply OnlyOut.next
    | with_reducible apply OnlyOut.fault | with_reducible apply OnlyOut.ite

theorem execUpdCmdIgnored_only {M0 : Nat} {s0 : State} {q : Requester} {code : Fin 16} {arg : Byte} {s : State} (kp_s : OnlyM M0 s0 s)
    (hm : Sub 0x40001D9708000000000000000301100000002038A1080209020000000040000000000600000000132AF804D M0 := by exact Sub.of hm rfl) :
    OnlyOut M0 s0 (execUpdCmdIgnored q code arg s) := by
  unfold execUpdCmdIgnored
  repeat' first
    | (refine Sub.of hm ?_; exact Eq.refl _) | (refine Sub.bit hm ?_; exact Eq.refl _)
    | intro _ | with_reducible assumption
    | with_reducible apply State.updWrite_only | with_reducible apply OnlyOut.next
    | with_reducible apply OnlyOut.fault | with_reducible apply OnlyOut.ite

theorem execUpdCommandDone_only {M0 : Nat} {s0 : State} {s : State} (kp_s : OnlyM M0 s0 s)
    (hm : Sub 0x10000000000000000003011000000000000000000000000000000000000000000000000000004000C M0 := by exact Sub.of hm rfl) :
    OnlyOut M0 s0 (execUpdCommandDone s) := by
  unfold execUpdCommandDone
  repeat' first
    | (refine Sub.of hm ?_; exact Eq.refl _) | (refine Sub.bit hm ?_; exact Eq.refl _)
    | (refine Or.inl (Sub.bit hm ?_); exact Eq.refl _) | with_reducible exact Or.inr rfl
    | with_reducible refine State.put_only UPD_STAT_BUSY_holds ?_ ?_
    | with_reducible refine State.set_only UPD_STAT_RESULT_holds ?_ ?_
    | intro _ | with_reducible assumption
    | with_reducible apply State.modUpd_only | with_reducible apply State.raise_only
    | with_reducible apply OnlyOut.next | with_reducible apply OnlyOut.fault
    | with_reducible apply OnlyOut.ite | with_reducible apply OnlyOpt.none
    | with_reducible apply OnlyOpt.some
    | (extract_lets +onlyGivenNames x; refine OnlyM.cut (M0 := M0) (s0 := s0) x ?_ ?_ <;> first | (intro hx; clear_value x) | unfold x)
    | (extract_lets +onlyGivenNames x; clear_value x)
    | split | with_reducible apply OnlyM.update

theorem execChrysalisDeadline_only {M0 : Nat} {s0 : State} {stuck : List (Fin 64)} {s : State} (kp_s : OnlyM M0 s0 s)
    (hm : Sub 0x80000000000000000000301100000002020A000000000000000000000000000000000000000001800D M0 := by exact Sub.of hm rfl) :
    OnlyOut M0 s0 (execChrysalisDeadline stuck s) := by
  unfold execChrysalisDeadline
  repeat' first
    | (refine Sub.of hm ?_; exact Eq.refl _) | (refine Sub.bit hm ?_; exact Eq.refl _)
    | (refine Or.inl (Sub.bit hm ?_); exact Eq.refl _) | with_reducible exact Or.inr rfl
    | with_reducible refine State.put_only (forcedLoc_holds ..) ?_ ?_
    | intro _ | with_reducible assumption
    | with_reducible apply State.haltByReset_only | with_reducible apply State.engineHalt_only
    | with_reducible apply State.setPartWord_only
    | with_reducible apply OnlyOut.next | with_reducible apply OnlyOut.fault
    | with_reducible apply OnlyOut.ite | with_reducible apply State.each_only
    | with_reducible apply OnlyOpt.none | with_reducible apply OnlyOpt.some
    | with_reducible apply OnlyM.ite
    | (extract_lets +onlyGivenNames x; refine OnlyM.cut (M0 := M0) (s0 := s0) x ?_ ?_ <;> first | (intro hx; clear_value x) | unfold x)
    | (extract_lets +onlyGivenNames x; clear_value x)
    | split | with_reducible apply OnlyM.update

theorem execHandoverCodeLoad_only {M0 : Nat} {s0 : State} {s : State} (kp_s : OnlyM M0 s0 s)
    (hm : Sub 0x2068000 M0 := by exact Sub.of hm rfl) :
    OnlyOut M0 s0 (execHandoverCodeLoad s) := by
  unfold execHandoverCodeLoad
  repeat' first
    | (refine Sub.of hm ?_; exact Eq.refl _) | (refine Sub.bit hm ?_; exact Eq.refl _)
    | (refine Or.inl (Sub.bit hm ?_); exact Eq.refl _) | with_reducible exact Or.inr rfl
    | intro _ | with_reducible assumption
    | with_reducible apply State.isramPut_only | with_reducible apply State.startCommit_only
    | with_reducible apply State.modUpd_only | with_reducible apply OnlyOut.next
    | with_reducible apply OnlyOut.fault | with_reducible apply OnlyOut.ite
    | with_reducible apply State.each_only | with_reducible apply OnlyM.ite
    | (extract_lets +onlyGivenNames x; refine OnlyM.cut (M0 := M0) (s0 := s0) x ?_ ?_ <;> first | (intro hx; clear_value x) | unfold x)
    | (extract_lets +onlyGivenNames x; clear_value x)
    | split | with_reducible apply OnlyM.update

theorem execTrialJournal_only {M0 : Nat} {s0 : State} {s : State} (kp_s : OnlyM M0 s0 s)
    (hm : Sub 0x1900000000000000000000000000000000000000000000000000000000000000000000000000040000 M0 := by exact Sub.of hm rfl) :
    OnlyOut M0 s0 (execTrialJournal s) := by
  unfold execTrialJournal
  repeat' first
    | (refine Sub.of hm ?_; exact Eq.refl _) | (refine Sub.bit hm ?_; exact Eq.refl _)
    | (refine Or.inl (Sub.bit hm ?_); exact Eq.refl _) | with_reducible exact Or.inr rfl
    | intro _ | with_reducible assumption
    | with_reducible apply State.writeUpdate_only | with_reducible apply State.modUpd_only
    | with_reducible apply State.jobOver_only | with_reducible apply OnlyOut.next
    | with_reducible apply OnlyOut.fault | with_reducible apply OnlyOut.ite
    | with_reducible apply OnlyOpt.none | with_reducible apply OnlyOpt.some
    | with_reducible apply OnlyM.ite
    | (extract_lets +onlyGivenNames x; refine OnlyM.cut (M0 := M0) (s0 := s0) x ?_ ?_ <;> first | (intro hx; clear_value x) | unfold x)
    | (extract_lets +onlyGivenNames x; clear_value x)
    | split | with_reducible apply OnlyM.update

theorem execTrialExpiry_only {M0 : Nat} {s0 : State} {stuck : List EngNo} {s : State} (kp_s : OnlyM M0 s0 s)
    (hm : Sub 0x19000000000000000000301100000000020A000000000000000000000000000000000000010207800C M0 := by exact Sub.of hm rfl) :
    OnlyOut M0 s0 (execTrialExpiry stuck s) := by
  unfold execTrialExpiry
  repeat' first
    | (refine Sub.of hm ?_; exact Eq.refl _) | (refine Sub.bit hm ?_; exact Eq.refl _)
    | (refine Or.inl (Sub.bit hm ?_); exact Eq.refl _) | with_reducible exact Or.inr rfl
    | intro _ | with_reducible assumption
    | with_reducible apply State.startFallback_only | with_reducible apply OnlyOut.next
    | with_reducible apply OnlyOut.fault | with_reducible apply OnlyOut.ite
    | with_reducible apply OnlyOpt.none | with_reducible apply OnlyOpt.some
    | with_reducible apply OnlyM.ite
    | split | with_reducible apply OnlyM.update

theorem State.bootJournal_only {M0 : Nat} {s0 : State} {s : State} {b : Bool} (kp_s : OnlyM M0 s0 s)
    (hm : Sub 0x5900000000000000000000000000000000000000000000000000000000000000000000000000040000 M0 := by exact Sub.of hm rfl) :
    OnlyM M0 s0 (State.bootJournal s b).2 := by
  unfold State.bootJournal
  repeat' first
    | (refine Sub.of hm ?_; exact Eq.refl _) | (refine Sub.bit hm ?_; exact Eq.refl _)
    | (refine Or.inl (Sub.bit hm ?_); exact Eq.refl _) | with_reducible exact Or.inr rfl
    | intro _ | with_reducible assumption
    | with_reducible apply State.writeUpdate_only | with_reducible apply State.clearMap_only
    | (extract_lets +onlyGivenNames x; refine OnlyM.cut (M0 := M0) (s0 := s0) x ?_ ?_ <;> first | (intro hx; clear_value x) | unfold x)
    | (extract_lets +onlyGivenNames x; clear_value x)
    | split | with_reducible apply OnlyM.update

theorem execUpdateBoot_only {M0 : Nat} {s0 : State} {stuck : List EngNo} {s : State} (kp_s : OnlyM M0 s0 s)
    (hm : Sub 0x59000000500000000000301100000000020A000000000000000000000000000000000000010207800C M0 := by exact Sub.of hm rfl) :
    OnlyOut M0 s0 (execUpdateBoot stuck s) := by
  unfold execUpdateBoot
  repeat' first
    | (refine Sub.of hm ?_; exact Eq.refl _) | (refine Sub.bit hm ?_; exact Eq.refl _)
    | (refine Or.inl (Sub.bit hm ?_); exact Eq.refl _) | with_reducible exact Or.inr rfl
    | with_reducible refine State.put_only UPD_STAT_IMAGO_VALID_holds ?_ ?_
    | intro _ | with_reducible assumption
    | with_reducible apply State.modUpd_only | with_reducible apply State.showUpdate_only | with_reducible apply State.ramorny_only
    | with_reducible apply State.startCond_only | with_reducible apply State.bootJournal_only
    | with_reducible apply State.loadCode_only | with_reducible apply State.enterHalted_only
    | with_reducible apply State.startFallback_only | with_reducible apply OnlyOut.next
    | with_reducible apply OnlyOut.fault | with_reducible apply OnlyOut.ite
    | with_reducible apply State.each_only | with_reducible apply OnlyOpt.none
    | with_reducible apply OnlyOpt.some | with_reducible apply OnlyM.ite
    | (extract_lets +onlyGivenNames x; refine OnlyM.cut (M0 := M0) (s0 := s0) x ?_ ?_ <;> first | (intro hx; clear_value x) | unfold x)
    | (extract_lets +onlyGivenNames x; clear_value x)
    | with_reducible (refine OnlyM.pair ?_ (by assumption))
    | split | with_reducible apply OnlyM.update

theorem State.dfuAnswer_only {M0 : Nat} {s0 : State} {s : State} {status : Nat} (kp_s : OnlyM M0 s0 s)
    (hm : Sub 0x400000 M0 := by exact Sub.of hm rfl) :
    OnlyM M0 s0 (State.dfuAnswer s status) := by
  unfold State.dfuAnswer
  repeat' first
    | (refine Sub.of hm ?_; exact Eq.refl _) | (refine Sub.bit hm ?_; exact Eq.refl _)
    | (refine Or.inl (Sub.bit hm ?_); exact Eq.refl _) | with_reducible exact Or.inr rfl
    | intro _ | with_reducible assumption
    | with_reducible apply OnlyM.update

theorem State.dfuRun_only {M0 : Nat} {s0 : State} {s : State} {k : Nat} {bs : List Byte} {f : FlashSeen} (kp_s : OnlyM M0 s0 s)
    (hm : Sub 0x590000004000000000003011000000000000000000000000000000000000000000000000000044004C M0 := by exact Sub.of hm rfl) :
    OnlyM M0 s0 (State.dfuRun s k bs f) := by
  unfold State.dfuRun
  try dsimp only
  repeat' first
    | (refine Sub.of hm ?_; exact Eq.refl _) | (refine Sub.bit hm ?_; exact Eq.refl _)
    | (refine Or.inl (Sub.bit hm ?_); exact Eq.refl _) | with_reducible exact Or.inr rfl
    | with_reducible refine State.set_only SVC_DFU_NEXT_BLOCK_holds ?_ ?_
    | intro _ | with_reducible assumption
    | with_reducible apply State.takeManifest_only | with_reducible apply State.takeChunk_only
    | with_reducible apply State.modUpd_only
    | with_reducible apply State.dfuAnswer_only | with_reducible apply OnlyOpt.none
    | with_reducible apply OnlyOpt.some | with_reducible apply OnlyM.ite
    | with_reducible (refine OnlyM.pair ?_ (by assumption))
    | split | with_reducible apply OnlyM.update

theorem execDfuDnload_only {M0 : Nat} {s0 : State} {n : Fin 65536} {bs : List Byte} {f : FlashSeen} {s : State} (kp_s : OnlyM M0 s0 s)
    (hm : Sub 0x590000004000000000003011000000000000000000000000000000000000000000000000000044004C M0 := by exact Sub.of hm rfl) :
    OnlyOut M0 s0 (execDfuDnload n bs f s) := by
  unfold execDfuDnload
  repeat' first
    | (refine Sub.of hm ?_; exact Eq.refl _) | (refine Sub.bit hm ?_; exact Eq.refl _)
    | (refine Or.inl (Sub.bit hm ?_); exact Eq.refl _) | with_reducible exact Or.inr rfl
    | with_reducible refine State.set_only SVC_DFU_NEXT_BLOCK_holds ?_ ?_
    | intro _ | with_reducible assumption
    | with_reducible apply State.dfuAnswer_only | with_reducible apply State.dfuRun_only
    | with_reducible apply State.modUpd_only
    | with_reducible apply OnlyOut.next | with_reducible apply OnlyOut.fault
    | with_reducible apply OnlyOut.ite | with_reducible apply OnlyM.ite
    | (extract_lets +onlyGivenNames x; refine OnlyM.cut (M0 := M0) (s0 := s0) x ?_ ?_ <;> first | (intro hx; clear_value x) | unfold x)
    | (extract_lets +onlyGivenNames x; clear_value x)
    | split | with_reducible apply OnlyM.update

theorem execDfuDnloadEnd_only {M0 : Nat} {s0 : State} {rcvr : Bool} {bad : List (Fin 32)} {s : State} (kp_s : OnlyM M0 s0 s)
    (hm : Sub 0x1900020170000000000030110000000000000000000000000000000000000000000000000102FFFFFD M0 := by exact Sub.of hm rfl) :
    OnlyOut M0 s0 (execDfuDnloadEnd rcvr bad s) := by
  unfold execDfuDnloadEnd
  repeat' first
    | (refine Sub.of hm ?_; exact Eq.refl _) | (refine Sub.bit hm ?_; exact Eq.refl _)
    | (refine Or.inl (Sub.bit hm ?_); exact Eq.refl _) | with_reducible exact Or.inr rfl
    | intro _ | with_reducible assumption
    | with_reducible apply State.dfuAnswer_only | with_reducible apply State.imgAbort_only
    | with_reducible apply State.modImg_only | with_reducible apply State.writeJournal_only
    | with_reducible apply State.writeUpdate_only | with_reducible apply State.resetPackage_only
    | with_reducible apply State.modPwr_only | with_reducible apply State.checkSealed_only
    | with_reducible apply State.ramorny_only | with_reducible apply OnlyOut.next
    | with_reducible apply OnlyOut.fault | with_reducible apply OnlyOut.ite
    | with_reducible apply OnlyM.ite
    | (extract_lets +onlyGivenNames x; refine OnlyM.cut (M0 := M0) (s0 := s0) x ?_ ?_ <;> first | (intro hx; clear_value x) | unfold x)
    | (extract_lets +onlyGivenNames x; clear_value x)
    | split | with_reducible apply OnlyM.update

end Sys2Proof.Machine
end

