-- ==== Sys2Proof/Laws/OnlyRegisters.lean ====
section
/-! SUPPORT. Which parts each operation of `Machine/Registers.lean` may change, and that it keeps what every command keeps: each
lemma follows the operation's own text, piece by piece, and gives the parts as a set of part numbers. -/

namespace Sys2Proof.Machine

theorem State.setLatch_only {M0 : Nat} {s0 : State} {s : State} {k : Nat} {v : Option (Nat × Word)} (kp_s : OnlyM M0 s0 s)
    (hm : Sub 0x100000 M0 := by exact Sub.of hm rfl) :
    OnlyM M0 s0 (State.setLatch s k v) := by
  unfold State.setLatch
  repeat' first
    | (refine Sub.of hm ?_; exact Eq.refl _) | (refine Sub.bit hm ?_; exact Eq.refl _)
    | (refine Or.inl (Sub.bit hm ?_); exact Eq.refl _) | with_reducible exact Or.inr rfl
    | intro _ | with_reducible assumption
    | with_reducible apply OnlyOpt.none | with_reducible apply OnlyOpt.some
    | with_reducible apply OnlyM.update

theorem State.readClears_only {M0 : Nat} {s0 : State} {s : State} {r : RegRow} {c : Nat} (kp_s : OnlyM M0 s0 s)
    (hm : Sub 0x800000 M0 := by exact Sub.of hm rfl) :
    OnlyM M0 s0 (State.readClears s r c) := by
  unfold State.readClears
  repeat' first
    | (refine Sub.of hm ?_; exact Eq.refl _) | (refine Sub.bit hm ?_; exact Eq.refl _)
    | with_reducible refine State.setWord_any_only ?_ ?_
    | intro _ | with_reducible assumption | with_reducible apply OnlyM.ite
    | split

theorem State.latchHigh_only {M0 : Nat} {s0 : State} {s : State} {q : Requester} {a : Nat} (kp_s : OnlyM M0 s0 s)
    (hm : Sub 0x900000 M0 := by exact Sub.of hm rfl) :
    OnlyM M0 s0 (State.latchHigh s q a) := by
  unfold State.latchHigh
  repeat' first
    | (refine Sub.of hm ?_; exact Eq.refl _) | (refine Sub.bit hm ?_; exact Eq.refl _)
    | (refine Or.inl (Sub.bit hm ?_); exact Eq.refl _) | with_reducible exact Or.inr rfl
    | intro _ | with_reducible assumption
    | with_reducible apply State.setLatch_only | with_reducible apply State.readClears_only
    | with_reducible apply OnlyOpt.none | with_reducible apply OnlyOpt.some
    | with_reducible apply OnlyM.ite
    | (extract_lets +onlyGivenNames x; refine OnlyM.cut (M0 := M0) (s0 := s0) x ?_ ?_ <;> first | (intro hx; clear_value x) | unfold x)
    | (extract_lets +onlyGivenNames x; clear_value x)
    | split | with_reducible apply OnlyM.update

theorem State.readRow_only {M0 : Nat} {s0 : State} {s : State} {q : Requester} {r : RegRow} {a : Nat} (kp_s : OnlyM M0 s0 s)
    (hm : Sub 0xB00000 M0 := by exact Sub.of hm rfl) :
    OnlyM M0 s0 (State.readRow s q r a) := by
  unfold State.readRow
  repeat' first
    | (refine Sub.of hm ?_; exact Eq.refl _) | (refine Sub.bit hm ?_; exact Eq.refl _)
    | (refine Or.inl (Sub.bit hm ?_); exact Eq.refl _) | with_reducible exact Or.inr rfl
    | intro _ | with_reducible assumption
    | with_reducible apply State.setLatch_only | with_reducible apply State.answer_only
    | with_reducible apply State.readClears_only | with_reducible apply State.latchHigh_only
    | with_reducible apply OnlyOpt.none | with_reducible apply OnlyOpt.some
    | with_reducible apply OnlyM.ite
    | (extract_lets +onlyGivenNames x; refine OnlyM.cut (M0 := M0) (s0 := s0) x ?_ ?_ <;> first | (intro hx; clear_value x) | unfold x)
    | (extract_lets +onlyGivenNames x; clear_value x)
    | split | with_reducible apply OnlyM.update

theorem State.badWidth_only {M0 : Nat} {s0 : State} {s : State} {q : Requester} {a : Nat} {write : Bool} (kp_s : OnlyM M0 s0 s)
    (hm : Sub 0x1880000000000000000000000000000000000000000208000 M0 := by exact Sub.of hm rfl) :
    OnlyM M0 s0 (State.badWidth s q a write) := by
  unfold State.badWidth
  repeat' first
    | (refine Sub.of hm ?_; exact Eq.refl _) | (refine Sub.bit hm ?_; exact Eq.refl _)
    | (refine Or.inl (Sub.bit hm ?_); exact Eq.refl _) | with_reducible exact Or.inr rfl
    | intro _ | with_reducible assumption
    | with_reducible apply State.accessTrap_only
    | split | with_reducible apply OnlyM.update

theorem State.undecoded_only {M0 : Nat} {s0 : State} {s : State} {q : Requester} {a : Nat} {write : Bool} (kp_s : OnlyM M0 s0 s)
    (hm : Sub 0x800000000000000000000000000000000000001880000000000000000000000000000000000000000208000 M0 := by exact Sub.of hm rfl) :
    OnlyM M0 s0 (State.undecoded s q a write) := by
  unfold State.undecoded
  repeat' first
    | (refine Sub.of hm ?_; exact Eq.refl _) | (refine Sub.bit hm ?_; exact Eq.refl _)
    | (refine Or.inl (Sub.bit hm ?_); exact Eq.refl _) | with_reducible exact Or.inr rfl
    | intro _ | with_reducible assumption
    | with_reducible apply State.recordUnmap_only | with_reducible apply State.answerDone_only
    | with_reducible apply State.answer_only | with_reducible apply State.accessTrap_only
    | with_reducible apply OnlyM.ite
    | (extract_lets +onlyGivenNames x; refine OnlyM.cut (M0 := M0) (s0 := s0) x ?_ ?_ <;> first | (intro hx; clear_value x) | unfold x)
    | (extract_lets +onlyGivenNames x; clear_value x)
    | split | with_reducible apply OnlyM.update

theorem State.readDecoded_only {M0 : Nat} {s0 : State} {s : State} {q : Requester} {r : RegRow} {off a : Nat} (kp_s : OnlyM M0 s0 s)
    (hm : Sub 0x400000000000000000000000030110000000001880000000000000000000180000000000000000000B0800C M0 := by exact Sub.of hm rfl) :
    OnlyM M0 s0 (State.readDecoded s q r off a) := by
  unfold State.readDecoded
  repeat' first
    | (refine Sub.of hm ?_; exact Eq.refl _) | (refine Sub.bit hm ?_; exact Eq.refl _)
    | (refine Or.inl (Sub.bit hm ?_); exact Eq.refl _) | with_reducible exact Or.inr rfl
    | intro _ | with_reducible assumption
    | with_reducible apply State.readRow_only | with_reducible apply State.access_only
    | with_reducible apply State.mopRefuse_only | with_reducible apply OnlyOpt.none
    | with_reducible apply OnlyOpt.some | with_reducible apply OnlyM.ite
    | (extract_lets +onlyGivenNames x; refine OnlyM.cut (M0 := M0) (s0 := s0) x ?_ ?_ <;> first | (intro hx; clear_value x) | unfold x)
    | (extract_lets +onlyGivenNames x; clear_value x)
    | split | with_reducible apply OnlyM.update

theorem State.readReg_only {M0 : Nat} {s0 : State} {s : State} {q : Requester} {off size : Nat} (kp_s : OnlyM M0 s0 s)
    (hm : Sub 0xC00000000000000000000000030110000000001880000000000000000000180000000000000000000B0800C M0 := by exact Sub.of hm rfl) :
    OnlyM M0 s0 (State.readReg s q off size) := by
  unfold State.readReg
  repeat' first
    | (refine Sub.of hm ?_; exact Eq.refl _) | (refine Sub.bit hm ?_; exact Eq.refl _)
    | (refine Or.inl (Sub.bit hm ?_); exact Eq.refl _) | with_reducible exact Or.inr rfl
    | intro _ | with_reducible assumption
    | with_reducible apply State.badWidth_only | with_reducible apply State.access_only
    | with_reducible apply State.answer_only | with_reducible apply State.readDecoded_only
    | with_reducible apply State.undecoded_only | with_reducible apply OnlyOpt.none
    | with_reducible apply OnlyOpt.some | with_reducible apply OnlyM.ite
    | (extract_lets +onlyGivenNames x; refine OnlyM.cut (M0 := M0) (s0 := s0) x ?_ ?_ <;> first | (intro hx; clear_value x) | unfold x)
    | (extract_lets +onlyGivenNames x; clear_value x)
    | split | with_reducible apply OnlyM.update

theorem State.afterWrite_only {M0 : Nat} {s0 : State} {s : State} {a : Nat} {w : Word} (kp_s : OnlyM M0 s0 s)
    (hm : Sub 0x80000000000000080000000040B03100000002018800302403C58080010F1804040080004C011000004196CD M0 := by exact Sub.of hm rfl) :
    OnlyM M0 s0 (State.afterWrite s a w) := by
  unfold State.afterWrite
  repeat' first
    | (refine Sub.of hm ?_; exact Eq.refl _) | (refine Sub.bit hm ?_; exact Eq.refl _)
    | (refine Or.inl (Sub.bit hm ?_); exact Eq.refl _) | with_reducible exact Or.inr rfl
    | with_reducible refine State.setWord_only (Part.holds.own CUR_COIN_OTHERS_holds) ?_ ?_
    | intro _ | with_reducible assumption
    | with_reducible apply State.readyLevel_only | with_reducible apply State.faultPin_only
    | with_reducible apply State.exitSafe_only
    | with_reducible apply State.signalRing_only | with_reducible apply State.sendHeld_only
    | with_reducible apply OnlyM.ite
    | split | with_reducible apply OnlyM.update

theorem State.writeRow_only {M0 : Nat} {s0 : State} {s : State} {q : Requester} {r : RegRow} {a : Nat} {w : Word} (kp_s : OnlyM M0 s0 s)
    (hm : Sub 0x80000000000000080000000040B03100000002018800302403C58080010F1804040080004C01100000E196CD M0 := by exact Sub.of hm rfl) :
    OnlyM M0 s0 (State.writeRow s q r a w) := by
  unfold State.writeRow
  repeat' first
    | (refine Sub.of hm ?_; exact Eq.refl _) | (refine Sub.bit hm ?_; exact Eq.refl _)
    | with_reducible refine State.setWord_any_only ?_ ?_
    | intro _ | with_reducible assumption | with_reducible apply State.afterWrite_only
    | with_reducible apply State.answerDone_only
    | (extract_lets +onlyGivenNames x; refine OnlyM.cut (M0 := M0) (s0 := s0) x ?_ ?_ <;> first | (intro hx; clear_value x) | unfold x)
    | (extract_lets +onlyGivenNames x; clear_value x)

theorem State.after_only {M0 : Nat} {s0 s : State} {o : Out} (hs : OnlyM M0 s0 s) (ho : OnlyOut M0 s0 o)
    (hm : Sub 0x0 M0 := by exact Sub.of hm rfl) : OnlyM M0 s0 (s.after o) := by
  cases o with
  | next t => exact ho
  | _ => exact hs

theorem State.lpCtrl_only {M0 : Nat} {s0 : State} {s : State} {n : Nat} {w : Word} (kp_s : OnlyM M0 s0 s)
    (hm : Sub 0x80159000000008000000000301100000006000000B1679BE588A0C10F1C0C040080704C039E610287BECD M0 := by exact Sub.of hm rfl) :
    OnlyM M0 s0 (State.lpCtrl s n w) := by
  unfold State.lpCtrl
  repeat' first
    | (refine Sub.of hm ?_; exact Eq.refl _) | (refine Sub.bit hm ?_; exact Eq.refl _)
    | intro _ | with_reducible assumption
    | with_reducible apply State.drvDisable_only | with_reducible apply State.drvEnable_only
    | with_reducible apply State.unlatch_only | with_reducible apply State.resetPort_only
    | with_reducible apply OnlyM.ite
    | (extract_lets +onlyGivenNames x; refine OnlyM.cut (M0 := M0) (s0 := s0) x ?_ ?_ <;> first | (intro hx; clear_value x) | unfold x)
    | (extract_lets +onlyGivenNames x; clear_value x)
    | split

theorem State.ecfCtrl_only {M0 : Nat} {s0 : State} {s : State} {n : Nat} {w : Word} (kp_s : OnlyM M0 s0 s)
    (hm : Sub 0x301100000002000000302403C18080010C1800040000004C001000000196CD M0 := by exact Sub.of hm rfl) :
    OnlyM M0 s0 (State.ecfCtrl s n w) := by
  unfold State.ecfCtrl
  repeat' first
    | (refine Sub.of hm ?_; exact Eq.refl _) | (refine Sub.bit hm ?_; exact Eq.refl _)
    | intro _ | with_reducible assumption
    | with_reducible apply State.quar_only | with_reducible apply State.recover_only
    | with_reducible apply OnlyM.ite
    | split

theorem State.portAction_only {M0 : Nat} {s0 : State} {s : State} {q : Requester} {a : Nat} {w : Word} (kp_s : OnlyM M0 s0 s)
    (hm : Sub 0x4080159000000008000000000301100000006018800B1679BE588A0C10F1C0C040080706C039E6102A7BECD M0 := by exact Sub.of hm rfl) :
    OnlyOpt M0 s0 (State.portAction s q a w) := by
  unfold State.portAction
  repeat' first
    | (refine Sub.of hm ?_; exact Eq.refl _) | (refine Sub.bit hm ?_; exact Eq.refl _)
    | (refine Or.inl (Sub.bit hm ?_); exact Eq.refl _) | with_reducible exact Or.inr rfl
    | intro _ | with_reducible assumption
    | with_reducible apply State.hostWrite_only | with_reducible apply State.lpCtrl_only
    | with_reducible apply State.opmodeWrite_only | with_reducible apply State.ecfWrite_only
    | with_reducible apply State.ecfCtrl_only | with_reducible apply OnlyOpt.some
    | with_reducible apply OnlyOpt.none | with_reducible apply OnlyOpt.ite
    | (extract_lets +onlyGivenNames x; refine OnlyM.cut (M0 := M0) (s0 := s0) x ?_ ?_ <;> first | (intro hx; clear_value x) | unfold x)
    | (extract_lets +onlyGivenNames x; clear_value x)
    | split | with_reducible apply OnlyM.update

theorem State.mopAction_only {M0 : Nat} {s0 : State} {s : State} {q : Requester} {a : Nat} {w : Word} (kp_s : OnlyM M0 s0 s)
    (hm : Sub 0x4000000000000000000000000301100000002018800302403C00000015F1980000000000C0010000021964D M0 := by exact Sub.of hm rfl) :
    OnlyOpt M0 s0 (State.mopAction s q a w) := by
  unfold State.mopAction
  repeat' first
    | (refine Sub.of hm ?_; exact Eq.refl _) | (refine Sub.bit hm ?_; exact Eq.refl _)
    | (refine Or.inl (Sub.bit hm ?_); exact Eq.refl _) | with_reducible exact Or.inr rfl
    | intro _ | with_reducible assumption
    | with_reducible apply State.doorbellCmd_only | with_reducible apply State.mopQueue_only
    | with_reducible apply State.mopCancel_only | with_reducible apply State.mopRelease_only
    | with_reducible apply State.mopAbandon_only | with_reducible apply State.descAccess_only
    | with_reducible apply State.openWrite_only | with_reducible apply State.monWrite_only
    | with_reducible apply OnlyOpt.some | with_reducible apply OnlyOpt.none
    | with_reducible apply OnlyOpt.ite | with_reducible apply OnlyM.ite
    | (extract_lets +onlyGivenNames x; refine OnlyM.cut (M0 := M0) (s0 := s0) x ?_ ?_ <;> first | (intro hx; clear_value x) | unfold x)
    | (extract_lets +onlyGivenNames x; clear_value x)
    | with_reducible (refine OnlyOpt.elim ?_ (by assumption))
    | split | with_reducible apply OnlyM.update

theorem State.rgnAction_only {M0 : Nat} {s0 : State} {s : State} {q : Requester} {a : Nat} {w : Word} (kp_s : OnlyM M0 s0 s)
    (hm : Sub 0x4000000000000000000000000301100000000038A504000000000000000000000000000000000000021800C M0 := by exact Sub.of hm rfl) :
    OnlyOpt M0 s0 (State.rgnAction s q a w) := by
  unfold State.rgnAction
  repeat' first
    | (refine Sub.of hm ?_; exact Eq.refl _) | (refine Sub.bit hm ?_; exact Eq.refl _)
    | (refine Or.inl (Sub.bit hm ?_); exact Eq.refl _) | with_reducible exact Or.inr rfl
    | intro _ | with_reducible assumption
    | with_reducible apply State.hostWrite_only | with_reducible apply State.oppWrite_only
    | with_reducible apply State.cluWrite_only | with_reducible apply State.doorbell_only
    | with_reducible apply State.doorack_only | with_reducible apply State.lockWrite_only
    | with_reducible apply State.engWrite_only | with_reducible apply State.engineStart_only
    | with_reducible apply State.engineHalt_only | with_reducible apply State.engineReset_only
    | with_reducible apply OnlyOpt.some | with_reducible apply OnlyOpt.none
    | with_reducible apply OnlyOpt.ite | with_reducible apply OnlyM.ite
    | (extract_lets +onlyGivenNames x; refine OnlyM.cut (M0 := M0) (s0 := s0) x ?_ ?_ <;> first | (intro hx; clear_value x) | unfold x)
    | (extract_lets +onlyGivenNames x; clear_value x)
    | split | with_reducible apply OnlyM.update

theorem State.timeAction_only {M0 : Nat} {s0 : State} {s : State} {q : Requester} {a : Nat} {w : Word} (kp_s : OnlyM M0 s0 s)
    (hm : Sub 0x40000000000000000000000003011003909000188000000000000000000000000000000000000000028801C M0 := by exact Sub.of hm rfl) :
    OnlyOpt M0 s0 (State.timeAction s q a w) := by
  unfold State.timeAction
  repeat' first
    | (refine Sub.of hm ?_; exact Eq.refl _) | (refine Sub.bit hm ?_; exact Eq.refl _)
    | (refine Or.inl (Sub.bit hm ?_); exact Eq.refl _) | with_reducible exact Or.inr rfl
    | intro _ | with_reducible assumption
    | with_reducible apply State.timeWrite_only | with_reducible apply State.incLow_only
    | with_reducible apply State.incHigh_only | with_reducible apply State.timeCmd_only
    | with_reducible apply State.stepCmd_only | with_reducible apply State.lockSync_only
    | with_reducible apply State.setSync_only | with_reducible apply State.nonceCmd_only
    | with_reducible apply State.tokenCmd_only | with_reducible apply State.timeErr_only
    | with_reducible apply OnlyOpt.some | with_reducible apply OnlyOpt.none
    | with_reducible apply OnlyOpt.ite | with_reducible apply OnlyM.id | with_reducible apply OnlyM.ite
    | split | with_reducible apply OnlyM.update

theorem State.ledgAction_only {M0 : Nat} {s0 : State} {s : State} {q : Requester} {a : Nat} {w : Word} (kp_s : OnlyM M0 s0 s)
    (hm : Sub 0x840000000000000800000000003C3B000000020188000000000000000000000000000000000000000061800D M0 := by exact Sub.of hm rfl) :
    OnlyOpt M0 s0 (State.ledgAction s q a w) := by
  unfold State.ledgAction
  repeat' first
    | (refine Sub.of hm ?_; exact Eq.refl _) | (refine Sub.bit hm ?_; exact Eq.refl _)
    | intro _ | with_reducible assumption
    | with_reducible apply State.hostWrite_only | with_reducible apply State.holdWrite_only
    | with_reducible apply State.openWrite_only | with_reducible apply State.eoiWrite_only
    | with_reducible apply State.headAccess_only | with_reducible apply State.srcEnable_only
    | with_reducible apply OnlyOpt.some | with_reducible apply OnlyOpt.none
    | with_reducible apply OnlyOpt.ite | with_reducible apply OnlyM.ite
    | split

theorem State.curAction_only {M0 : Nat} {s0 : State} {s : State} {q : Requester} {a : Nat} {w : Word} (kp_s : OnlyM M0 s0 s)
    (hm : Sub 0x40000000000000000000088FCB01100800042038800302403C58080010F1804040080004C011000002196DD M0 := by exact Sub.of hm rfl) :
    OnlyOpt M0 s0 (State.curAction s q a w) := by
  unfold State.curAction
  repeat' first
    | (refine Sub.of hm ?_; exact Eq.refl _) | (refine Sub.bit hm ?_; exact Eq.refl _)
    | (refine Or.inl (Sub.bit hm ?_); exact Eq.refl _) | with_reducible exact Or.inr rfl
    | with_reducible refine State.put_only CUR_STAT_RLOCK_holds ?_ ?_
    | intro _ | with_reducible assumption
    | with_reducible apply State.curWrite_only | with_reducible apply State.curClear_only
    | with_reducible apply State.curClearAll_only | with_reducible apply State.curEnter_only
    | with_reducible apply State.requestReclaim_only | with_reducible apply State.curErr_only | with_reducible apply State.curReturn_only
    | with_reducible apply State.after_only | with_reducible apply execFaultInject_only
    | with_reducible apply State.hostWrite_only | with_reducible apply OnlyOpt.some
    | with_reducible apply OnlyOpt.none | with_reducible apply OnlyOpt.ite | with_reducible apply OnlyM.id
    | with_reducible apply OnlyM.ite
    | (extract_lets +onlyGivenNames x; refine OnlyM.cut (M0 := M0) (s0 := s0) x ?_ ?_ <;> first | (intro hx; clear_value x) | unfold x)
    | (extract_lets +onlyGivenNames x; clear_value x)
    | split | with_reducible apply OnlyM.update

theorem State.vitAction_only {M0 : Nat} {s0 : State} {s : State} {q : Requester} {a : Nat} {w : Word} (kp_s : OnlyM M0 s0 s)
    (hm : Sub 0x40000007083450000000000003011000000020188000000000000000000000000000000000000000029800D M0 := by exact Sub.of hm rfl) :
    OnlyOpt M0 s0 (State.vitAction s q a w) := by
  unfold State.vitAction
  repeat' first
    | (refine Sub.of hm ?_; exact Eq.refl _) | (refine Sub.bit hm ?_; exact Eq.refl _)
    | (refine Or.inl (Sub.bit hm ?_); exact Eq.refl _) | with_reducible exact Or.inr rfl
    | intro _ | with_reducible assumption
    | with_reducible apply State.after_only | with_reducible apply execKeyWrite_only
    | with_reducible apply execImport_only | with_reducible apply execDerive_only
    | with_reducible apply execErase_only | with_reducible apply execLc_only
    | with_reducible apply execRoot_only | with_reducible apply State.hostWrite_only
    | with_reducible apply State.auBank_only | with_reducible apply State.auSign_only
    | with_reducible apply State.auVerify_only | with_reducible apply State.mcCommand_only
    | with_reducible apply State.openWrite_only | with_reducible apply execTlogAppend_only
    | with_reducible apply OnlyOpt.some | with_reducible apply OnlyOpt.none
    | with_reducible apply OnlyOpt.ite | with_reducible apply OnlyM.id | with_reducible apply OnlyM.ite
    | (extract_lets +onlyGivenNames x; refine OnlyM.cut (M0 := M0) (s0 := s0) x ?_ ?_ <;> first | (intro hx; clear_value x) | unfold x)
    | (extract_lets +onlyGivenNames x; clear_value x)
    | split | with_reducible apply OnlyM.update

theorem State.spineAction_only {M0 : Nat} {s0 : State} {s : State} {q : Requester} {a : Nat} {w : Word} (kp_s : OnlyM M0 s0 s)
    (hm : Sub 0x40000000000002010000000003011000000020188000000000000000000000000000000000000000021800D M0 := by exact Sub.of hm rfl) :
    OnlyOpt M0 s0 (State.spineAction s q a w) := by
  unfold State.spineAction
  repeat' first
    | (refine Sub.of hm ?_; exact Eq.refl _) | (refine Sub.bit hm ?_; exact Eq.refl _)
    | with_reducible refine State.set_only (SPN_HQ_PTR_RX_HEAD_holds ..) ?_ ?_
    | intro _ | with_reducible assumption
    | with_reducible apply State.hostWrite_only
    | with_reducible apply State.hqTail_only | with_reducible apply State.withdrawUnlock_only
    | with_reducible apply OnlyOpt.some | with_reducible apply OnlyOpt.none
    | with_reducible apply OnlyOpt.ite | with_reducible apply OnlyM.ite
    | (extract_lets +onlyGivenNames x; refine OnlyM.cut (M0 := M0) (s0 := s0) x ?_ ?_ <;> first | (intro hx; clear_value x) | unfold x)
    | (extract_lets +onlyGivenNames x; clear_value x)
    | split

theorem State.action_only {M0 : Nat} {s0 : State} {s : State} {q : Requester} {a : Nat} {w : Word} (kp_s : OnlyM M0 s0 s)
    (hm : Sub 0x840801D97083452890000388FCBC3B00B909675B8A50F1679BE588A0CD5F1DADB5E080706C039E6132EFBEFD M0 := by exact Sub.of hm rfl) :
    OnlyOpt M0 s0 (State.action s q a w) := by
  unfold State.action
  repeat' first
    | (refine Sub.of hm ?_; exact Eq.refl _) | (refine Sub.bit hm ?_; exact Eq.refl _)
    | (refine Or.inl (Sub.bit hm ?_); exact Eq.refl _) | with_reducible exact Or.inr rfl
    | intro _ | with_reducible assumption
    | with_reducible apply State.hostWrite_only | with_reducible apply State.allowWrite_only
    | with_reducible apply State.imgWrite_only | with_reducible apply State.portAction_only
    | with_reducible apply State.obsWrite_only | with_reducible apply State.mopAction_only
    | with_reducible apply State.catBank_only | with_reducible apply State.catInsert_only
    | with_reducible apply State.catDelete_only | with_reducible apply State.catReplace_only
    | with_reducible apply State.catUnknown_only | with_reducible apply State.rgnAction_only
    | with_reducible apply State.ledgAction_only | with_reducible apply State.curAction_only
    | with_reducible apply State.timeAction_only | with_reducible apply State.vitAction_only
    | with_reducible apply State.spineAction_only | with_reducible apply State.handover_only
    | with_reducible apply State.hallRevoke_only | with_reducible apply State.updWrite_only
    | with_reducible apply OnlyOpt.some | with_reducible apply OnlyOpt.none
    | with_reducible apply OnlyOpt.ite | with_reducible apply OnlyM.ite
    | (extract_lets +onlyGivenNames x; refine OnlyM.cut (M0 := M0) (s0 := s0) x ?_ ?_ <;> first | (intro hx; clear_value x) | unfold x)
    | (extract_lets +onlyGivenNames x; clear_value x)
    | with_reducible (refine OnlyOpt.elim ?_ (by assumption))
    | split | with_reducible apply OnlyM.update

theorem State.writeReg_only {M0 : Nat} {s0 : State} {s : State} {q : Requester} {off size : Nat} {w : Word} (kp_s : OnlyM M0 s0 s)
    (hm : Sub 0x8C0801D97083452890000388FCBC3B00B909675B8A50F1679BE588A0CD5F1DADB5E080706C039E6132EFBEFD M0 := by exact Sub.of hm rfl) :
    OnlyM M0 s0 (State.writeReg s q off size w) := by
  unfold State.writeReg
  repeat' first
    | (refine Sub.of hm ?_; exact Eq.refl _) | (refine Sub.bit hm ?_; exact Eq.refl _)
    | (refine Or.inl (Sub.bit hm ?_); exact Eq.refl _) | with_reducible exact Or.inr rfl
    | intro _ | with_reducible assumption
    | with_reducible apply State.badWidth_only | with_reducible apply State.hostWrite_only
    | with_reducible apply State.isramWrite_only | with_reducible apply State.action_only
    | with_reducible apply State.access_only | with_reducible apply State.writeRow_only
    | with_reducible apply State.undecoded_only | with_reducible apply OnlyOpt.none
    | with_reducible apply OnlyOpt.some | with_reducible apply OnlyM.ite
    | (extract_lets +onlyGivenNames x; refine OnlyM.cut (M0 := M0) (s0 := s0) x ?_ ?_ <;> first | (intro hx; clear_value x) | unfold x)
    | (extract_lets +onlyGivenNames x; clear_value x)
    | with_reducible (refine OnlyOpt.elim ?_ (by assumption))
    | split | with_reducible apply OnlyM.update

theorem execLowWordRead_only {M0 : Nat} {s0 : State} {q : Requester} {off : RegOff} {size : Nat} {s : State} (kp_s : OnlyM M0 s0 s)
    (hm : Sub 0xC00000000000000000000000030110000000001880000000000000000000180000000000000000000B0800C M0 := by exact Sub.of hm rfl) :
    OnlyOut M0 s0 (execLowWordRead q off size s) := by
  unfold execLowWordRead
  repeat' first
    | (refine Sub.of hm ?_; exact Eq.refl _) | (refine Sub.bit hm ?_; exact Eq.refl _)
    | intro _ | with_reducible assumption
    | with_reducible apply State.readReg_only | with_reducible apply OnlyOut.next
    | with_reducible apply OnlyOut.fault | with_reducible apply OnlyOut.ite

theorem execReadClear_only {M0 : Nat} {s0 : State} {q : Requester} {off : RegOff} {size : Nat} {s : State} (kp_s : OnlyM M0 s0 s)
    (hm : Sub 0xC00000000000000000000000030110000000001880000000000000000000180000000000000000000B0800C M0 := by exact Sub.of hm rfl) :
    OnlyOut M0 s0 (execReadClear q off size s) := by
  unfold execReadClear
  repeat' first
    | (refine Sub.of hm ?_; exact Eq.refl _) | (refine Sub.bit hm ?_; exact Eq.refl _)
    | intro _ | with_reducible assumption
    | with_reducible apply State.readReg_only | with_reducible apply OnlyOut.next
    | with_reducible apply OnlyOut.fault | with_reducible apply OnlyOut.ite

theorem execRegisterWrite_only {M0 : Nat} {s0 : State} {q : Requester} {off : RegOff} {size : Nat} {w : Word} {s : State} (kp_s : OnlyM M0 s0 s)
    (hm : Sub 0x8C0801D97083452890000388FCBC3B00B909675B8A50F1679BE588A0CD5F1DADB5E080706C039E6132EFBEFD M0 := by exact Sub.of hm rfl) :
    OnlyOut M0 s0 (execRegisterWrite q off size w s) := by
  unfold execRegisterWrite
  repeat' first
    | (refine Sub.of hm ?_; exact Eq.refl _) | (refine Sub.bit hm ?_; exact Eq.refl _)
    | intro _ | with_reducible assumption
    | with_reducible apply State.writeReg_only | with_reducible apply OnlyOut.next
    | with_reducible apply OnlyOut.fault | with_reducible apply OnlyOut.ite

end Sys2Proof.Machine
end

