-- ==== Sys2Proof/Laws/OnlyEngineAccess.lean ====
section
/-! SUPPORT. Which parts each operation of `Machine/EngineAccess.lean` may change, and that it keeps what every command keeps: each
lemma follows the operation's own text, piece by piece, and gives the parts as a set of part numbers. -/

namespace Sys2Proof.Machine

theorem State.faultAt_only {M0 : Nat} {s0 : State} {s : State} {e a : Nat} (kp_s : OnlyM M0 s0 s)
    (hm : Sub 0x1000000000000000000000000000000000000000000008000 M0 := by exact Sub.of hm rfl) :
    OnlyM M0 s0 (State.faultAt s e a) := by
  unfold State.faultAt
  repeat' first
    | (refine Sub.of hm ?_; exact Eq.refl _) | (refine Sub.bit hm ?_; exact Eq.refl _)
    | with_reducible refine State.set_only (ENG_TVAL_VAL_holds ..) ?_ ?_
    | intro _ | with_reducible assumption
    | with_reducible apply State.modEngine_only
    | with_reducible apply OnlyM.ite
    | split

theorem State.deviceAccess_only {M0 : Nat} {s0 : State} {s : State} {e len off : Nat} {r : HallReq} (kp_s : OnlyM M0 s0 s)
    (hm : Sub 0x8C0801D97083452890000388FCBC3B00B909675B8A50F1679BE588A0CD5F1DADB5E080706C039E6132FFBEFD M0 := by exact Sub.of hm rfl) :
    OnlyM M0 s0 (State.deviceAccess s e len off r) := by
  unfold State.deviceAccess
  repeat' first
    | (refine Sub.of hm ?_; exact Eq.refl _) | (refine Sub.bit hm ?_; exact Eq.refl _)
    | (refine Or.inl (Sub.bit hm ?_); exact Eq.refl _) | with_reducible exact Or.inr rfl
    | intro _ | with_reducible assumption
    | with_reducible apply State.modEngine_only | with_reducible apply State.accTrap_only
    | with_reducible apply State.readReg_only | with_reducible apply State.faultAt_only
    | with_reducible apply State.writeReg_only | with_reducible apply OnlyOpt.none
    | with_reducible apply OnlyOpt.some | with_reducible apply OnlyM.ite
    | (extract_lets +onlyGivenNames x; refine OnlyM.cut (M0 := M0) (s0 := s0) x ?_ ?_ <;> first | (intro hx; clear_value x) | unfold x)
    | (extract_lets +onlyGivenNames x; clear_value x)
    | split | with_reducible apply OnlyM.update

theorem State.engineBus_only {M0 : Nat} {s0 : State} {s : State} {e len : Nat} {r : HallReq} (kp_s : OnlyM M0 s0 s)
    (hm : Sub 0x8C0801D97083452890000388FCBC3B00B909675B8A50F1679BE588A0CD5F1DADB5E080706C039E6132FFBEFD M0 := by exact Sub.of hm rfl) :
    OnlyM M0 s0 (State.engineBus s e len r) := by
  unfold State.engineBus
  repeat' first
    | (refine Sub.of hm ?_; exact Eq.refl _) | (refine Sub.bit hm ?_; exact Eq.refl _)
    | (refine Or.inl (Sub.bit hm ?_); exact Eq.refl _) | with_reducible exact Or.inr rfl
    | intro _ | with_reducible assumption
    | with_reducible apply State.deviceAccess_only | with_reducible apply State.engineAccess_only
    | with_reducible apply OnlyOpt.none | with_reducible apply OnlyOpt.some
    | split | with_reducible apply OnlyM.update

theorem execHallAccess_only {M0 : Nat} {s0 : State} {r : HallReq} {s : State} (kp_s : OnlyM M0 s0 s)
    (hm : Sub 0x8C0801D97083452890000388FCBC3B00B909675B8A50F1679BE588A0CD5F1DADB5E080706C039E6132FFBEFD M0 := by exact Sub.of hm rfl) :
    OnlyOut M0 s0 (execHallAccess r s) := by
  unfold execHallAccess
  repeat' first
    | (refine Sub.of hm ?_; exact Eq.refl _) | (refine Sub.bit hm ?_; exact Eq.refl _)
    | (refine Or.inl (Sub.bit hm ?_); exact Eq.refl _) | with_reducible exact Or.inr rfl
    | intro _ | with_reducible assumption
    | with_reducible apply State.engineBus_only | with_reducible apply State.hallAccess_only
    | with_reducible apply OnlyOut.next | with_reducible apply OnlyOut.fault
    | with_reducible apply OnlyOut.ite | with_reducible apply OnlyM.ite
    | split | with_reducible apply OnlyM.update

end Sys2Proof.Machine
end

