-- ==== Sys2Proof/Laws/OnlyXfly.lean ====
section
/-! SUPPORT. Which parts each operation of `Machine/Xfly.lean` may change, and that it keeps what every command keeps: each
lemma follows the operation's own text, piece by piece, and gives the parts as a set of part numbers. -/

namespace Sys2Proof.Machine

theorem State.setXcsr_only {M0 : Nat} {s0 : State} {s : State} {e c : Nat} {w : Word} (kp_s : OnlyM M0 s0 s)
    (hm : Sub 0x8000 M0 := by exact Sub.of hm rfl) :
    OnlyM M0 s0 (State.setXcsr s e c w) := by
  unfold State.setXcsr
  repeat' first
    | (refine Sub.of hm ?_; exact Eq.refl _) | (refine Sub.bit hm ?_; exact Eq.refl _)
    | intro _ | with_reducible assumption
    | with_reducible apply State.modEngine_only

theorem State.xAccess_only {M0 : Nat} {s0 : State} {s : State} {e a len : Nat} {acc : HallAcc} (kp_s : OnlyM M0 s0 s)
    (hm : Sub 0x8C0801D97083452890000388FCBC3B00B909675B8A50F1679BE588A0CD5F1DADB5E080706C039E6132FFBEFD M0 := by exact Sub.of hm rfl) :
    OnlyRes M0 s0 (State.xAccess s e a len acc).1 := by
  unfold State.xAccess
  try dsimp only
  repeat' first
    | (refine Sub.of hm ?_; exact Eq.refl _) | (refine Sub.bit hm ?_; exact Eq.refl _)
    | (refine Or.inl (Sub.bit hm ?_); exact Eq.refl _) | with_reducible exact Or.inr rfl
    | intro _ | with_reducible assumption
    | with_reducible apply State.engineBus_only | with_reducible apply OnlyRes.go
    | with_reducible apply OnlyRes.done | with_reducible apply OnlyRes.trapped
    | with_reducible apply OnlyRes.waits | with_reducible apply OnlyM.ite
    | split | with_reducible apply OnlyM.update

theorem xBind_only {M0 : Nat} {s0 : State} {r : XfRes × Nat} {f : State → Nat → XfRes} (h : OnlyRes M0 s0 r.1)
    (hf : ∀ t w, OnlyM M0 s0 t → OnlyRes M0 s0 (f t w)) (hm : Sub 0x0 M0 := by exact Sub.of hm rfl) : OnlyRes M0 s0 (xBind r f) := by
  obtain ⟨r, n⟩ := r
  cases r with
  | go s => exact hf s n h
  | done s rd => exact h
  | trapped s => exact h
  | waits => exact trivial

theorem State.xLoad_only {M0 : Nat} {s0 : State} {s : State} {e a n : Nat} (kp_s : OnlyM M0 s0 s)
    (hm : Sub 0x8C0801D97083452890000388FCBC3B00B909675B8A50F1679BE588A0CD5F1DADB5E080706C039E6132FFBEFD M0 := by exact Sub.of hm rfl) :
    OnlyRes M0 s0 (State.xLoad s e a n).1 := by
  unfold State.xLoad
  repeat' first
    | (refine Sub.of hm ?_; exact Eq.refl _) | (refine Sub.bit hm ?_; exact Eq.refl _)
    | intro _ | with_reducible assumption
    | with_reducible apply State.xAccess_only | with_reducible apply OnlyRes.go
    | with_reducible apply OnlyRes.done | with_reducible apply OnlyRes.trapped
    | with_reducible apply OnlyRes.waits
    | with_reducible (refine OnlyRes.elimGo ?_ (by assumption))
    | with_reducible (refine OnlyRes.elimDone ?_ (by assumption))
    | with_reducible (refine OnlyRes.elimTrapped ?_ (by assumption))

theorem State.xStore_only {M0 : Nat} {s0 : State} {s : State} {e a : Nat} {bs : List Byte} (kp_s : OnlyM M0 s0 s)
    (hm : Sub 0x8C0801D97083452890000388FCBC3B00B909675B8A50F1679BE588A0CD5F1DADB5E080706C039E6132FFBEFD M0 := by exact Sub.of hm rfl) :
    OnlyRes M0 s0 (State.xStore s e a bs).1 := by
  unfold State.xStore
  repeat' first
    | (refine Sub.of hm ?_; exact Eq.refl _) | (refine Sub.bit hm ?_; exact Eq.refl _)
    | intro _ | with_reducible assumption
    | with_reducible apply State.xAccess_only | with_reducible apply OnlyRes.go
    | with_reducible apply OnlyRes.done | with_reducible apply OnlyRes.trapped
    | with_reducible apply OnlyRes.waits
    | with_reducible (refine OnlyRes.elimGo ?_ (by assumption))
    | with_reducible (refine OnlyRes.elimDone ?_ (by assumption))
    | with_reducible (refine OnlyRes.elimTrapped ?_ (by assumption))

theorem State.xAdvance_only {M0 : Nat} {s0 : State} {s : State} {e step : Nat} (kp_s : OnlyM M0 s0 s)
    (hm : Sub 0x8000 M0 := by exact Sub.of hm rfl) :
    OnlyM M0 s0 (State.xAdvance s e step) := by
  unfold State.xAdvance
  repeat' first
    | (refine Sub.of hm ?_; exact Eq.refl _) | (refine Sub.bit hm ?_; exact Eq.refl _)
    | intro _ | with_reducible assumption
    | with_reducible apply State.modEngine_only | with_reducible apply State.setXcsr_only
    | (extract_lets +onlyGivenNames x; refine OnlyM.cut (M0 := M0) (s0 := s0) x ?_ ?_ <;> first | (intro hx; clear_value x) | unfold x)
    | (extract_lets +onlyGivenNames x; clear_value x)

theorem State.scanElem_only {M0 : Nat} {s0 : State} {s : State} {e size : Nat} (kp_s : OnlyM M0 s0 s)
    (hm : Sub 0x8C0801D97083452890000388FCBC3B00B909675B8A50F1679BE588A0CD5F1DADB5E080706C039E6132FFBEFD M0 := by exact Sub.of hm rfl) :
    OnlyRes M0 s0 (State.scanElem s e size) := by
  unfold State.scanElem
  repeat' first
    | (refine Sub.of hm ?_; exact Eq.refl _) | (refine Sub.bit hm ?_; exact Eq.refl _)
    | intro _ | with_reducible assumption
    | with_reducible apply xBind_only | with_reducible apply State.xLoad_only
    | with_reducible apply State.hit_only | with_reducible apply State.xAdvance_only
    | with_reducible apply OnlyRes.go | with_reducible apply OnlyRes.done
    | with_reducible apply OnlyRes.trapped | with_reducible apply OnlyRes.waits
    | with_reducible apply OnlyM.ite
    | (extract_lets +onlyGivenNames x; refine OnlyM.cut (M0 := M0) (s0 := s0) x ?_ ?_ <;> first | (intro hx; clear_value x) | unfold x)
    | (extract_lets +onlyGivenNames x; clear_value x)
    | with_reducible (refine OnlyRes.elimGo ?_ (by assumption))
    | with_reducible (refine OnlyRes.elimDone ?_ (by assumption))
    | with_reducible (refine OnlyRes.elimTrapped ?_ (by assumption))
    | split

theorem State.copyElem_only {M0 : Nat} {s0 : State} {s : State} {e size : Nat} (kp_s : OnlyM M0 s0 s)
    (hm : Sub 0x8C0801D97083452890000388FCBC3B00B909675B8A50F1679BE588A0CD5F1DADB5E080706C039E6132FFBEFD M0 := by exact Sub.of hm rfl) :
    OnlyRes M0 s0 (State.copyElem s e size) := by
  unfold State.copyElem
  repeat' first
    | (refine Sub.of hm ?_; exact Eq.refl _) | (refine Sub.bit hm ?_; exact Eq.refl _)
    | intro _ | with_reducible assumption
    | with_reducible apply xBind_only | with_reducible apply State.xLoad_only
    | with_reducible apply State.xStore_only | with_reducible apply State.xAdvance_only
    | with_reducible apply State.setXcsr_only | with_reducible apply OnlyRes.go
    | with_reducible apply OnlyRes.done | with_reducible apply OnlyRes.trapped
    | with_reducible apply OnlyRes.waits
    | (extract_lets +onlyGivenNames x; refine OnlyM.cut (M0 := M0) (s0 := s0) x ?_ ?_ <;> first | (intro hx; clear_value x) | unfold x)
    | (extract_lets +onlyGivenNames x; clear_value x)
    | with_reducible (refine OnlyRes.elimGo ?_ (by assumption))
    | with_reducible (refine OnlyRes.elimDone ?_ (by assumption))
    | with_reducible (refine OnlyRes.elimTrapped ?_ (by assumption))

theorem State.setXMac_only {M0 : Nat} {s0 : State} {s : State} {e : Nat} {m : List Byte} (kp_s : OnlyM M0 s0 s)
    (hm : Sub 0x8000 M0 := by exact Sub.of hm rfl) :
    OnlyM M0 s0 (State.setXMac s e m) := by
  unfold State.setXMac
  repeat' first
    | (refine Sub.of hm ?_; exact Eq.refl _) | (refine Sub.bit hm ?_; exact Eq.refl _)
    | intro _ | with_reducible assumption
    | with_reducible apply State.setXcsr_only | with_reducible apply State.each_only

theorem State.xKeyFault_only {M0 : Nat} {s0 : State} {s : State} {e : Nat} (kp_s : OnlyM M0 s0 s)
    (hm : Sub 0x1880000000000000000000000000000000000000000008000 M0 := by exact Sub.of hm rfl) :
    OnlyRes M0 s0 (State.xKeyFault s e) := by
  unfold State.xKeyFault
  repeat' first
    | (refine Sub.of hm ?_; exact Eq.refl _) | (refine Sub.bit hm ?_; exact Eq.refl _)
    | intro _ | with_reducible assumption
    | with_reducible apply State.trap_only | with_reducible apply OnlyRes.go
    | with_reducible apply OnlyRes.done | with_reducible apply OnlyRes.trapped
    | with_reducible apply OnlyRes.waits

theorem State.cmacElem_only {M0 : Nat} {s0 : State} {s : State} {e : Nat} (kp_s : OnlyM M0 s0 s)
    (hm : Sub 0x8C0801D97083452890000388FCBC3B00B909675B8A50F1679BE588A0CD5F1DADB5E080706C039E6132FFBEFD M0 := by exact Sub.of hm rfl) :
    OnlyRes M0 s0 (State.cmacElem s e) := by
  unfold State.cmacElem
  repeat' first
    | (refine Sub.of hm ?_; exact Eq.refl _) | (refine Sub.bit hm ?_; exact Eq.refl _)
    | intro _ | with_reducible assumption
    | with_reducible apply State.xKeyFault_only | with_reducible apply xBind_only
    | with_reducible apply State.xLoad_only | with_reducible apply State.setXMac_only
    | with_reducible apply State.xAdvance_only | with_reducible apply OnlyRes.go
    | with_reducible apply OnlyRes.done | with_reducible apply OnlyRes.trapped
    | with_reducible apply OnlyRes.waits | with_reducible apply OnlyM.ite
    | (extract_lets +onlyGivenNames x; refine OnlyM.cut (M0 := M0) (s0 := s0) x ?_ ?_ <;> first | (intro hx; clear_value x) | unfold x)
    | (extract_lets +onlyGivenNames x; clear_value x)
    | with_reducible (refine OnlyRes.elimGo ?_ (by assumption))
    | with_reducible (refine OnlyRes.elimDone ?_ (by assumption))
    | with_reducible (refine OnlyRes.elimTrapped ?_ (by assumption))
    | split

theorem State.cmacFinElem_only {M0 : Nat} {s0 : State} {s : State} {e : Nat} (kp_s : OnlyM M0 s0 s)
    (hm : Sub 0x8C0801D97083452890000388FCBC3B00B909675B8A50F1679BE588A0CD5F1DADB5E080706C039E6132FFBEFD M0 := by exact Sub.of hm rfl) :
    OnlyRes M0 s0 (State.cmacFinElem s e) := by
  unfold State.cmacFinElem
  try dsimp only
  repeat' first
    | (refine Sub.of hm ?_; exact Eq.refl _) | (refine Sub.bit hm ?_; exact Eq.refl _)
    | intro _ | with_reducible assumption
    | with_reducible apply State.xKeyFault_only | with_reducible apply State.xLoad_only
    | with_reducible apply xBind_only | with_reducible apply State.setXMac_only
    | with_reducible apply State.setXcsr_only | with_reducible apply State.modEngine_only
    | with_reducible apply OnlyRes.go | with_reducible apply OnlyRes.done
    | with_reducible apply OnlyRes.trapped | with_reducible apply OnlyRes.waits
    | with_reducible apply OnlyM.ite
    | with_reducible (refine OnlyRes.elimGo ?_ (by assumption))
    | with_reducible (refine OnlyRes.elimDone ?_ (by assumption))
    | with_reducible (refine OnlyRes.elimTrapped ?_ (by assumption))
    | split

theorem State.signalEnd_only {M0 : Nat} {s0 : State} {s : State} {e : Nat} (kp_s : OnlyM M0 s0 s)
    (hm : Sub 0x0 M0 := by exact Sub.of hm rfl) :
    OnlyRes M0 s0 (State.signalEnd s e) := by
  unfold State.signalEnd
  repeat' first
    | (refine Sub.of hm ?_; exact Eq.refl _) | (refine Sub.bit hm ?_; exact Eq.refl _)
    | intro _ | with_reducible assumption
    | with_reducible apply OnlyRes.go | with_reducible apply OnlyRes.done
    | with_reducible apply OnlyRes.trapped | with_reducible apply OnlyRes.waits

theorem State.xBytes_only {M0 : Nat} {s0 s : State} {e : Nat} {as acc : List Nat} {f : State → List Nat → XfRes}
    (hs : OnlyM M0 s0 s) (hf : ∀ t l, OnlyM M0 s0 t → OnlyRes M0 s0 (f t l)) (hm : Sub 0x8C0801D97083452890000388FCBC3B00B909675B8A50F1679BE588A0CD5F1DADB5E080706C039E6132FFBEFD M0 := by exact Sub.of hm rfl) : OnlyRes M0 s0 (s.xBytes e as acc f) := by
  induction as generalizing s acc with
  | nil => exact hf s _ hs
  | cons a as ih => exact xBind_only (State.xLoad_only hs) fun t w ht => ih ht

theorem State.xPutBytes_only {M0 : Nat} {s0 s : State} {e : Nat} {as : List (Nat × Nat)} {f : State → XfRes}
    (hs : OnlyM M0 s0 s) (hf : ∀ t, OnlyM M0 s0 t → OnlyRes M0 s0 (f t)) (hm : Sub 0x8C0801D97083452890000388FCBC3B00B909675B8A50F1679BE588A0CD5F1DADB5E080706C039E6132FFBEFD M0 := by exact Sub.of hm rfl) : OnlyRes M0 s0 (s.xPutBytes e as f) := by
  induction as generalizing s with
  | nil => exact hf s hs
  | cons a as ih =>
    obtain ⟨a, v⟩ := a
    exact xBind_only (State.xStore_only hs) fun t w ht => ih ht

theorem State.signal_only {M0 : Nat} {s0 : State} {s : State} {e : Nat} {f : State → Nat → Nat → List Nat → XfRes} (kp_s : OnlyM M0 s0 s) (kp_f : ∀ t a b l, OnlyM M0 s0 t → OnlyRes M0 s0 (f t a b l))
    (hm : Sub 0x8C0801D97083452890000388FCBC3B00B909675B8A50F1679BE588A0CD5F1DADB5E080706C039E6132FFBEFD M0 := by exact Sub.of hm rfl) :
    OnlyRes M0 s0 (State.signal s e f) := by
  unfold State.signal
  repeat' first
    | (refine Sub.of hm ?_; exact Eq.refl _) | (refine Sub.bit hm ?_; exact Eq.refl _)
    | (refine Or.inl (Sub.bit hm ?_); exact Eq.refl _) | with_reducible exact Or.inr rfl
    | intro _ | with_reducible assumption
    | with_reducible apply kp_f | with_reducible apply xBind_only | with_reducible apply State.xLoad_only
    | with_reducible apply State.signalEnd_only | with_reducible apply OnlyRes.go
    | with_reducible apply OnlyRes.done | with_reducible apply OnlyRes.trapped
    | with_reducible apply OnlyRes.waits
    | (extract_lets +onlyGivenNames x; refine OnlyM.cut (M0 := M0) (s0 := s0) x ?_ ?_ <;> first | (intro hx; clear_value x) | unfold x)
    | (extract_lets +onlyGivenNames x; clear_value x)
    | with_reducible (refine OnlyRes.elimGo ?_ (by assumption))
    | with_reducible (refine OnlyRes.elimDone ?_ (by assumption))
    | with_reducible (refine OnlyRes.elimTrapped ?_ (by assumption))
    | split | with_reducible apply OnlyM.update

theorem State.packElem_only {M0 : Nat} {s0 : State} {s : State} {e : Nat} (kp_s : OnlyM M0 s0 s)
    (hm : Sub 0x8C0801D97083452890000388FCBC3B00B909675B8A50F1679BE588A0CD5F1DADB5E080706C039E6132FFBEFD M0 := by exact Sub.of hm rfl) :
    OnlyRes M0 s0 (State.packElem s e) := by
  unfold State.packElem
  repeat' first
    | (refine Sub.of hm ?_; exact Eq.refl _) | (refine Sub.bit hm ?_; exact Eq.refl _)
    | intro _ | with_reducible assumption
    | with_reducible apply State.signal_only | with_reducible apply State.trap_only
    | with_reducible apply xBind_only | with_reducible apply State.xLoad_only
    | with_reducible apply State.xBytes_only | with_reducible apply State.xPutBytes_only
    | with_reducible apply State.xAdvance_only | with_reducible apply OnlyRes.go
    | with_reducible apply OnlyRes.done | with_reducible apply OnlyRes.trapped
    | with_reducible apply OnlyRes.waits | with_reducible apply foldl_only | with_reducible apply OnlyM.ite
    | (extract_lets +onlyGivenNames x; refine OnlyM.cut (M0 := M0) (s0 := s0) x ?_ ?_ <;> first | (intro hx; clear_value x) | unfold x)
    | (extract_lets +onlyGivenNames x; clear_value x)
    | with_reducible (refine OnlyRes.elimGo ?_ (by assumption))
    | with_reducible (refine OnlyRes.elimDone ?_ (by assumption))
    | with_reducible (refine OnlyRes.elimTrapped ?_ (by assumption))
    | split

theorem State.unpackElem_only {M0 : Nat} {s0 : State} {s : State} {e : Nat} (kp_s : OnlyM M0 s0 s)
    (hm : Sub 0x8C0801D97083452890000388FCBC3B00B909675B8A50F1679BE588A0CD5F1DADB5E080706C039E6132FFBEFD M0 := by exact Sub.of hm rfl) :
    OnlyRes M0 s0 (State.unpackElem s e) := by
  unfold State.unpackElem
  repeat' first
    | (refine Sub.of hm ?_; exact Eq.refl _) | (refine Sub.bit hm ?_; exact Eq.refl _)
    | intro _ | with_reducible assumption
    | with_reducible apply State.signal_only | with_reducible apply State.trap_only
    | with_reducible apply State.xBytes_only | with_reducible apply xBind_only
    | with_reducible apply State.xStore_only | with_reducible apply State.xAdvance_only
    | with_reducible apply OnlyRes.go | with_reducible apply OnlyRes.done
    | with_reducible apply OnlyRes.trapped | with_reducible apply OnlyRes.waits
    | with_reducible apply foldl_only | with_reducible apply OnlyM.ite
    | (extract_lets +onlyGivenNames x; refine OnlyM.cut (M0 := M0) (s0 := s0) x ?_ ?_ <;> first | (intro hx; clear_value x) | unfold x)
    | (extract_lets +onlyGivenNames x; clear_value x)
    | with_reducible (refine OnlyRes.elimGo ?_ (by assumption))
    | with_reducible (refine OnlyRes.elimDone ?_ (by assumption))
    | with_reducible (refine OnlyRes.elimTrapped ?_ (by assumption))
    | split

theorem State.xFinish_only {M0 : Nat} {s0 : State} {s : State} {e rd : Nat} {w : Word} (kp_s : OnlyM M0 s0 s)
    (hm : Sub 0x80000000000000000000000000000000000000000008000 M0 := by exact Sub.of hm rfl) :
    OnlyM M0 s0 (State.xFinish s e rd w) := by
  unfold State.xFinish
  repeat' first
    | (refine Sub.of hm ?_; exact Eq.refl _) | (refine Sub.bit hm ?_; exact Eq.refl _)
    | intro _ | with_reducible assumption
    | with_reducible apply State.modEngine_only | with_reducible apply State.xactive_only
    | with_reducible apply State.retire_only
    | (extract_lets +onlyGivenNames x; refine OnlyM.cut (M0 := M0) (s0 := s0) x ?_ ?_ <;> first | (intro hx; clear_value x) | unfold x)
    | (extract_lets +onlyGivenNames x; clear_value x)

theorem State.xIntr_only {M0 : Nat} {s0 : State} {s : State} {e : Nat} (kp_s : OnlyM M0 s0 s)
    (hm : Sub 0x1880000000000000000000000000000000000000000008000 M0 := by exact Sub.of hm rfl) :
    OnlyOpt M0 s0 (State.xIntr s e) := by
  unfold State.xIntr
  repeat' first
    | (refine Sub.of hm ?_; exact Eq.refl _) | (refine Sub.bit hm ?_; exact Eq.refl _)
    | intro _ | with_reducible assumption
    | with_reducible apply State.trap_only | with_reducible apply OnlyOpt.some
    | with_reducible apply OnlyOpt.none | with_reducible apply OnlyOpt.ite | with_reducible apply OnlyM.ite
    | (extract_lets +onlyGivenNames x; refine OnlyM.cut (M0 := M0) (s0 := s0) x ?_ ?_ <;> first | (intro hx; clear_value x) | unfold x)
    | (extract_lets +onlyGivenNames x; clear_value x)
    | split

theorem State.xRun_only {M0 : Nat} {s0 s : State} {elem : State → XfRes} {e rd k n : Nat} {last : State → Word} {stop : XfStop}
    (hs : OnlyM M0 s0 s) (he : ∀ t, OnlyM M0 s0 t → OnlyRes M0 s0 (elem t)) (hm : Sub 0x1880000000000000000000000000000000000000000008000 M0 := by exact Sub.of hm rfl) :
    OnlyM M0 s0 (State.xRun elem e rd last stop k n s) := by
  induction k generalizing s n with
  | zero => exact State.xFinish_only hs
  | succ k ih =>
    unfold State.xRun
    extract_lets next
    have hn : OnlyM M0 s0 next := by
      have h := he s hs
      unfold next
      cases r : elem s with
      | go t =>
        have ht := OnlyRes.elimGo h r
        refine OnlyM.ite ht (OnlyM.ite (State.xFinish_only ht) ?_)
        split
        · exact OnlyOpt.elim (State.xIntr_only ht) (by assumption)
        · exact ih ht
      | done t w => exact State.xFinish_only (OnlyRes.elimDone h r)
      | trapped t => exact State.xactive_only (OnlyRes.elimTrapped h r)
      | waits => exact hs
    clear_value next
    split
    · exact OnlyM.ite hs hn
    · exact OnlyM.ite hs hn
    · exact hn

theorem State.xStop_only {M0 : Nat} {s0 : State} {s : State} {e : Nat} {stop : XfStop} (kp_s : OnlyM M0 s0 s)
    (hm : Sub 0x3011000000000208000000000000000000000000000000000000000000800C M0 := by exact Sub.of hm rfl) :
    OnlyM M0 s0 (State.xStop s e stop) := by
  unfold State.xStop
  repeat' first
    | (refine Sub.of hm ?_; exact Eq.refl _) | (refine Sub.bit hm ?_; exact Eq.refl _)
    | (refine Or.inl (Sub.bit hm ?_); exact Eq.refl _) | with_reducible exact Or.inr rfl
    | intro _ | with_reducible assumption
    | with_reducible apply State.engineHalt_only
    | split | with_reducible apply OnlyM.update

theorem State.xBegin_only {M0 : Nat} {s0 : State} {s : State} {e op size cnt src : Nat} {arg : Word} {argCsr : Nat} (kp_s : OnlyM M0 s0 s)
    (hm : Sub 0x80000000000000000000000000000000000000000008000 M0 := by exact Sub.of hm rfl) :
    OnlyOpt M0 s0 (State.xBegin s e op size cnt src arg argCsr) := by
  unfold State.xBegin
  repeat' first
    | (refine Sub.of hm ?_; exact Eq.refl _) | (refine Sub.bit hm ?_; exact Eq.refl _)
    | intro _ | with_reducible assumption
    | with_reducible apply State.setXcsr_only | with_reducible apply State.xactive_only
    | with_reducible apply OnlyOpt.some | with_reducible apply OnlyOpt.none
    | with_reducible apply OnlyOpt.ite | with_reducible apply OnlyM.ite
    | (extract_lets +onlyGivenNames x; refine OnlyM.cut (M0 := M0) (s0 := s0) x ?_ ?_ <;> first | (intro hx; clear_value x) | unfold x)
    | (extract_lets +onlyGivenNames x; clear_value x)
    | split

theorem State.xfly_only {M0 : Nat} {s0 : State} {s : State} {e op size rd rs1 rs2 argCsr : Nat} {bad : Bool} {aligned : State → Option (Nat × Word)} {elem : State → XfRes} {last : State → Word} {stop : XfStop} (kp_s : OnlyM M0 s0 s) (kp_elem : ∀ t, OnlyM M0 s0 t → OnlyRes M0 s0 (elem t))
    (hm : Sub 0x3011000000000388000000000000000000000000000000000000000000800C M0 := by exact Sub.of hm rfl) :
    OnlyM M0 s0 (State.xfly s e op size rd rs1 rs2 argCsr bad aligned elem last stop) := by
  unfold State.xfly
  repeat' first
    | (refine Sub.of hm ?_; exact Eq.refl _) | (refine Sub.bit hm ?_; exact Eq.refl _)
    | (refine Or.inl (Sub.bit hm ?_); exact Eq.refl _) | with_reducible exact Or.inr rfl
    | intro _ | with_reducible assumption
    | with_reducible apply kp_elem | with_reducible apply State.trap_only
    | with_reducible apply State.xBegin_only | with_reducible apply State.xactive_only
    | with_reducible apply State.xRun_only | with_reducible apply State.xStop_only
    | with_reducible apply OnlyOpt.none | with_reducible apply OnlyOpt.some
    | with_reducible apply OnlyM.ite
    | (extract_lets +onlyGivenNames x; refine OnlyM.cut (M0 := M0) (s0 := s0) x ?_ ?_ <;> first | (intro hx; clear_value x) | unfold x)
    | (extract_lets +onlyGivenNames x; clear_value x)
    | with_reducible (refine OnlyOpt.elim ?_ (by assumption))
    | with_reducible (refine OnlyRes.elimGo ?_ (by assumption))
    | with_reducible (refine OnlyRes.elimDone ?_ (by assumption))
    | with_reducible (refine OnlyRes.elimTrapped ?_ (by assumption))
    | split | with_reducible apply OnlyM.update

theorem execXfScan_only {M0 : Nat} {s0 : State} {e : EngNo} {size : Fin 3} {rd rs1 rs2 : Fin 32} {stop : XfStop} {s : State} (kp_s : OnlyM M0 s0 s)
    (hm : Sub 0x8C0801D97083452890000388FCBC3B00B909675B8A50F1679BE588A0CD5F1DADB5E080706C039E6132FFBEFD M0 := by exact Sub.of hm rfl) :
    OnlyOut M0 s0 (execXfScan e size rd rs1 rs2 stop s) := by
  unfold execXfScan
  repeat' first
    | (refine Sub.of hm ?_; exact Eq.refl _) | (refine Sub.bit hm ?_; exact Eq.refl _)
    | intro _ | with_reducible assumption
    | with_reducible apply State.xfly_only | with_reducible apply State.scanElem_only
    | with_reducible apply OnlyOut.next | with_reducible apply OnlyOut.fault
    | with_reducible apply OnlyOut.ite
    | with_reducible (refine OnlyRes.elimGo ?_ (by assumption))
    | with_reducible (refine OnlyRes.elimDone ?_ (by assumption))
    | with_reducible (refine OnlyRes.elimTrapped ?_ (by assumption))

theorem execXfCopy_only {M0 : Nat} {s0 : State} {e : EngNo} {size : Fin 4} {rd rs1 rs2 : Fin 32} {stop : XfStop} {s : State} (kp_s : OnlyM M0 s0 s)
    (hm : Sub 0x8C0801D97083452890000388FCBC3B00B909675B8A50F1679BE588A0CD5F1DADB5E080706C039E6132FFBEFD M0 := by exact Sub.of hm rfl) :
    OnlyOut M0 s0 (execXfCopy e size rd rs1 rs2 stop s) := by
  unfold execXfCopy
  repeat' first
    | (refine Sub.of hm ?_; exact Eq.refl _) | (refine Sub.bit hm ?_; exact Eq.refl _)
    | (refine Or.inl (Sub.bit hm ?_); exact Eq.refl _) | with_reducible exact Or.inr rfl
    | intro _ | with_reducible assumption
    | with_reducible apply State.xfly_only | with_reducible apply State.copyElem_only
    | with_reducible apply OnlyOut.next | with_reducible apply OnlyOut.fault
    | with_reducible apply OnlyOut.ite | with_reducible apply OnlyOpt.none
    | with_reducible apply OnlyOpt.some | with_reducible apply OnlyM.ite
    | with_reducible (refine OnlyRes.elimGo ?_ (by assumption))
    | with_reducible (refine OnlyRes.elimDone ?_ (by assumption))
    | with_reducible (refine OnlyRes.elimTrapped ?_ (by assumption))
    | split | with_reducible apply OnlyM.update

theorem execXfCmacStep_only {M0 : Nat} {s0 : State} {e : EngNo} {rd rs1 rs2 : Fin 32} {stop : XfStop} {s : State} (kp_s : OnlyM M0 s0 s)
    (hm : Sub 0x8C0801D97083452890000388FCBC3B00B909675B8A50F1679BE588A0CD5F1DADB5E080706C039E6132FFBEFD M0 := by exact Sub.of hm rfl) :
    OnlyOut M0 s0 (execXfCmacStep e rd rs1 rs2 stop s) := by
  unfold execXfCmacStep
  repeat' first
    | (refine Sub.of hm ?_; exact Eq.refl _) | (refine Sub.bit hm ?_; exact Eq.refl _)
    | intro _ | with_reducible assumption
    | with_reducible apply State.xfly_only | with_reducible apply State.cmacElem_only
    | with_reducible apply OnlyOut.next | with_reducible apply OnlyOut.fault
    | with_reducible apply OnlyOut.ite
    | with_reducible (refine OnlyRes.elimGo ?_ (by assumption))
    | with_reducible (refine OnlyRes.elimDone ?_ (by assumption))
    | with_reducible (refine OnlyRes.elimTrapped ?_ (by assumption))

theorem execXfCmacFin_only {M0 : Nat} {s0 : State} {e : EngNo} {rd rs1 rs2 : Fin 32} {stop : XfStop} {s : State} (kp_s : OnlyM M0 s0 s)
    (hm : Sub 0x8C0801D97083452890000388FCBC3B00B909675B8A50F1679BE588A0CD5F1DADB5E080706C039E6132FFBEFD M0 := by exact Sub.of hm rfl) :
    OnlyOut M0 s0 (execXfCmacFin e rd rs1 rs2 stop s) := by
  unfold execXfCmacFin
  repeat' first
    | (refine Sub.of hm ?_; exact Eq.refl _) | (refine Sub.bit hm ?_; exact Eq.refl _)
    | intro _ | with_reducible assumption
    | with_reducible apply State.xfly_only | with_reducible apply State.cmacFinElem_only
    | with_reducible apply OnlyOut.next | with_reducible apply OnlyOut.fault
    | with_reducible apply OnlyOut.ite | with_reducible apply OnlyM.ite
    | with_reducible (refine OnlyRes.elimGo ?_ (by assumption))
    | with_reducible (refine OnlyRes.elimDone ?_ (by assumption))
    | with_reducible (refine OnlyRes.elimTrapped ?_ (by assumption))
    | split

theorem execXfPack_only {M0 : Nat} {s0 : State} {e : EngNo} {rd rs1 rs2 : Fin 32} {stop : XfStop} {s : State} (kp_s : OnlyM M0 s0 s)
    (hm : Sub 0x8C0801D97083452890000388FCBC3B00B909675B8A50F1679BE588A0CD5F1DADB5E080706C039E6132FFBEFD M0 := by exact Sub.of hm rfl) :
    OnlyOut M0 s0 (execXfPack e rd rs1 rs2 stop s) := by
  unfold execXfPack
  repeat' first
    | (refine Sub.of hm ?_; exact Eq.refl _) | (refine Sub.bit hm ?_; exact Eq.refl _)
    | intro _ | with_reducible assumption
    | with_reducible apply State.xfly_only | with_reducible apply State.packElem_only
    | with_reducible apply OnlyOut.next | with_reducible apply OnlyOut.fault
    | with_reducible apply OnlyOut.ite
    | with_reducible (refine OnlyRes.elimGo ?_ (by assumption))
    | with_reducible (refine OnlyRes.elimDone ?_ (by assumption))
    | with_reducible (refine OnlyRes.elimTrapped ?_ (by assumption))

theorem execXfUnpack_only {M0 : Nat} {s0 : State} {e : EngNo} {rd rs1 rs2 : Fin 32} {stop : XfStop} {s : State} (kp_s : OnlyM M0 s0 s)
    (hm : Sub 0x8C0801D97083452890000388FCBC3B00B909675B8A50F1679BE588A0CD5F1DADB5E080706C039E6132FFBEFD M0 := by exact Sub.of hm rfl) :
    OnlyOut M0 s0 (execXfUnpack e rd rs1 rs2 stop s) := by
  unfold execXfUnpack
  repeat' first
    | (refine Sub.of hm ?_; exact Eq.refl _) | (refine Sub.bit hm ?_; exact Eq.refl _)
    | intro _ | with_reducible assumption
    | with_reducible apply State.xfly_only | with_reducible apply State.unpackElem_only
    | with_reducible apply OnlyOut.next | with_reducible apply OnlyOut.fault
    | with_reducible apply OnlyOut.ite
    | with_reducible (refine OnlyRes.elimGo ?_ (by assumption))
    | with_reducible (refine OnlyRes.elimDone ?_ (by assumption))
    | with_reducible (refine OnlyRes.elimTrapped ?_ (by assumption))

end Sys2Proof.Machine
end

