-- ==== Sys2Proof/Laws/OnlyRv32.lean ====
section
/-! SUPPORT. Which parts each operation of `Machine/Rv32.lean` may change, and that it keeps what every command keeps: each
lemma follows the operation's own text, piece by piece, and gives the parts as a set of part numbers. -/

namespace Sys2Proof.Machine

theorem State.csrWrite_only {M0 : Nat} {s0 : State} {s : State} {e c : Nat} {w : Word} (kp_s : OnlyM M0 s0 s)
    (hm : Sub 0x80000000000000000000000000000000000000000008000 M0 := by exact Sub.of hm rfl) :
    OnlyM M0 s0 (State.csrWrite s e c w) := by
  unfold State.csrWrite
  repeat' first
    | (refine Sub.of hm ?_; exact Eq.refl _) | (refine Sub.bit hm ?_; exact Eq.refl _)
    | intro _ | with_reducible assumption
    | with_reducible apply State.modEngine_only | with_reducible apply State.xactive_only
    | with_reducible apply OnlyM.ite
    | (extract_lets +onlyGivenNames x; refine OnlyM.cut (M0 := M0) (s0 := s0) x ?_ ?_ <;> first | (intro hx; clear_value x) | unfold x)
    | (extract_lets +onlyGivenNames x; clear_value x)
    | split

theorem State.rvDone_only {M0 : Nat} {s0 : State} {s : State} {e rd : Nat} {w pc : Word} (kp_s : OnlyM M0 s0 s)
    (hm : Sub 0x8000 M0 := by exact Sub.of hm rfl) :
    OnlyM M0 s0 (State.rvDone s e rd w pc) := by
  unfold State.rvDone
  repeat' first
    | (refine Sub.of hm ?_; exact Eq.refl _) | (refine Sub.bit hm ?_; exact Eq.refl _)
    | (refine Or.inl (Sub.bit hm ?_); exact Eq.refl _) | with_reducible exact Or.inr rfl
    | intro _ | with_reducible assumption
    | with_reducible apply State.modEngine_only
    | with_reducible apply OnlyM.update

theorem State.rvLoad_only {M0 : Nat} {s0 : State} {s : State} {e a n rd len : Nat} {signed : Bool} (kp_s : OnlyM M0 s0 s)
    (hm : Sub 0x8C0801D97083452890000388FCBC3B00B909675B8A50F1679BE588A0CD5F1DADB5E080706C039E6132FFBEFD M0 := by exact Sub.of hm rfl) :
    OnlyRes M0 s0 (State.rvLoad s e a n rd len signed) := by
  unfold State.rvLoad
  repeat' first
    | (refine Sub.of hm ?_; exact Eq.refl _) | (refine Sub.bit hm ?_; exact Eq.refl _)
    | intro _ | with_reducible assumption
    | with_reducible apply xBind_only | with_reducible apply State.xAccess_only
    | with_reducible apply State.rvDone_only | with_reducible apply OnlyRes.go
    | with_reducible apply OnlyRes.done | with_reducible apply OnlyRes.trapped
    | with_reducible apply OnlyRes.waits | with_reducible apply OnlyM.ite
    | with_reducible (refine OnlyRes.elimGo ?_ (by assumption))
    | with_reducible (refine OnlyRes.elimDone ?_ (by assumption))
    | with_reducible (refine OnlyRes.elimTrapped ?_ (by assumption))
    | split

theorem State.rvStore_only {M0 : Nat} {s0 : State} {s : State} {e a len : Nat} {bs : List Byte} (kp_s : OnlyM M0 s0 s)
    (hm : Sub 0x8C0801D97083452890000388FCBC3B00B909675B8A50F1679BE588A0CD5F1DADB5E080706C039E6132FFBEFD M0 := by exact Sub.of hm rfl) :
    OnlyRes M0 s0 (State.rvStore s e a len bs) := by
  unfold State.rvStore
  repeat' first
    | (refine Sub.of hm ?_; exact Eq.refl _) | (refine Sub.bit hm ?_; exact Eq.refl _)
    | intro _ | with_reducible assumption
    | with_reducible apply xBind_only | with_reducible apply State.xAccess_only
    | with_reducible apply State.modEngine_only | with_reducible apply State.rvDone_only
    | with_reducible apply OnlyRes.go | with_reducible apply OnlyRes.done
    | with_reducible apply OnlyRes.trapped | with_reducible apply OnlyRes.waits
    | with_reducible apply OnlyM.ite
    | with_reducible (refine OnlyRes.elimGo ?_ (by assumption))
    | with_reducible (refine OnlyRes.elimDone ?_ (by assumption))
    | with_reducible (refine OnlyRes.elimTrapped ?_ (by assumption))
    | split

theorem State.rvCsr_only {M0 : Nat} {s0 : State} {s : State} {e c f3 rd len : Nat} {src : Word} {noWrite : Bool} (kp_s : OnlyM M0 s0 s)
    (hm : Sub 0x1880000000000000000000000000000000000000000218001 M0 := by exact Sub.of hm rfl) :
    OnlyOpt M0 s0 (State.rvCsr s e c f3 rd len src noWrite) := by
  unfold State.rvCsr
  repeat' first
    | (refine Sub.of hm ?_; exact Eq.refl _) | (refine Sub.bit hm ?_; exact Eq.refl _)
    | (refine Or.inl (Sub.bit hm ?_); exact Eq.refl _) | with_reducible exact Or.inr rfl
    | intro _ | with_reducible assumption
    | with_reducible apply State.after_only | with_reducible apply execXcclean_only
    | with_reducible apply State.modEngine_only | with_reducible apply execXcflush_only
    | with_reducible apply State.csrWrite_only | with_reducible apply State.rvDone_only
    | with_reducible apply OnlyOpt.some | with_reducible apply OnlyOpt.none
    | with_reducible apply OnlyOpt.ite | with_reducible apply OnlyM.ite
    | (extract_lets +onlyGivenNames x; refine OnlyM.cut (M0 := M0) (s0 := s0) x ?_ ?_ <;> first | (intro hx; clear_value x) | unfold x)
    | (extract_lets +onlyGivenNames x; clear_value x)
    | split | with_reducible apply OnlyM.update

theorem State.rvXfly_only {M0 : Nat} {s0 : State} {s : State} {e w : Nat} (kp_s : OnlyM M0 s0 s)
    (hm : Sub 0x8C0801D97083452890000388FCBC3B00B909675B8A50F1679BE588A0CD5F1DADB5E080706C039E6132FFBEFD M0 := by exact Sub.of hm rfl) :
    OnlyOpt M0 s0 (State.rvXfly s e w) := by
  unfold State.rvXfly
  repeat' first
    | (refine Sub.of hm ?_; exact Eq.refl _) | (refine Sub.bit hm ?_; exact Eq.refl _)
    | (refine Or.inl (Sub.bit hm ?_); exact Eq.refl _) | with_reducible exact Or.inr rfl
    | intro _ | with_reducible assumption
    | with_reducible apply State.after_only | with_reducible apply execXfScan_only
    | with_reducible apply execXfCopy_only | with_reducible apply execXfCmacStep_only
    | with_reducible apply execXfCmacFin_only | with_reducible apply execXfPack_only
    | with_reducible apply execXfUnpack_only | with_reducible apply OnlyOpt.some
    | with_reducible apply OnlyOpt.none | with_reducible apply OnlyOpt.ite | with_reducible apply OnlyM.ite
    | (extract_lets +onlyGivenNames x; refine OnlyM.cut (M0 := M0) (s0 := s0) x ?_ ?_ <;> first | (intro hx; clear_value x) | unfold x)
    | (extract_lets +onlyGivenNames x; clear_value x)
    | split | with_reducible apply OnlyM.update

theorem State.rvSystem_only {M0 : Nat} {s0 : State} {s : State} {e w len : Nat} (kp_s : OnlyM M0 s0 s)
    (hm : Sub 0x8000000000000008000000000010200000000001880000000000000000000000000000000000000000618005 M0 := by exact Sub.of hm rfl) :
    OnlyOptRes M0 s0 (State.rvSystem s e w len) := by
  unfold State.rvSystem
  repeat' first
    | (refine Sub.of hm ?_; exact Eq.refl _) | (refine Sub.bit hm ?_; exact Eq.refl _)
    | intro _ | with_reducible assumption
    | with_reducible apply State.trap_only | with_reducible apply State.after_only
    | with_reducible apply execMret_only | with_reducible apply execWfi_only
    | with_reducible apply State.rvCsr_only | with_reducible apply OnlyOptRes.mapGo
    | with_reducible apply OnlyOptRes.map | with_reducible apply OnlyOptRes.some
    | with_reducible apply OnlyOptRes.none | with_reducible apply OnlyRes.go
    | with_reducible apply OnlyRes.done | with_reducible apply OnlyRes.trapped
    | with_reducible apply OnlyRes.waits | with_reducible apply OnlyM.ite
    | (extract_lets +onlyGivenNames x; refine OnlyM.cut (M0 := M0) (s0 := s0) x ?_ ?_ <;> first | (intro hx; clear_value x) | unfold x)
    | (extract_lets +onlyGivenNames x; clear_value x)
    | with_reducible (refine OnlyOpt.elim ?_ (by assumption))
    | split

theorem State.rvAtomic_only {M0 : Nat} {s0 : State} {s : State} {e w len : Nat} (kp_s : OnlyM M0 s0 s)
    (hm : Sub 0x8C0801D97083452890000388FCBC3B00B909675B8A50F1679BE588A0CD5F1DADB5E080706C039E6132FFBEFD M0 := by exact Sub.of hm rfl) :
    OnlyOptRes M0 s0 (State.rvAtomic s e w len) := by
  unfold State.rvAtomic
  repeat' first
    | (refine Sub.of hm ?_; exact Eq.refl _) | (refine Sub.bit hm ?_; exact Eq.refl _)
    | intro _ | with_reducible assumption
    | with_reducible apply xBind_only | with_reducible apply State.xAccess_only
    | with_reducible apply State.rvDone_only | with_reducible apply OnlyOptRes.mapGo
    | with_reducible apply OnlyOptRes.map | with_reducible apply OnlyOptRes.some
    | with_reducible apply OnlyOptRes.none | with_reducible apply OnlyRes.go
    | with_reducible apply OnlyRes.done | with_reducible apply OnlyRes.trapped
    | with_reducible apply OnlyRes.waits | with_reducible apply OnlyM.ite
    | (extract_lets +onlyGivenNames x; refine OnlyM.cut (M0 := M0) (s0 := s0) x ?_ ?_ <;> first | (intro hx; clear_value x) | unfold x)
    | (extract_lets +onlyGivenNames x; clear_value x)
    | with_reducible (refine OnlyRes.elimGo ?_ (by assumption))
    | with_reducible (refine OnlyRes.elimDone ?_ (by assumption))
    | with_reducible (refine OnlyRes.elimTrapped ?_ (by assumption))
    | split

theorem State.rvExec_only {M0 : Nat} {s0 : State} {s : State} {e w len : Nat} (kp_s : OnlyM M0 s0 s)
    (hm : Sub 0x8C0801D97083452890000388FCBC3B00B909675B8A50F1679BE588A0CD5F1DADB5E080706C039E6132FFBEFD M0 := by exact Sub.of hm rfl) :
    OnlyOptRes M0 s0 (State.rvExec s e w len) := by
  unfold State.rvExec
  try dsimp only
  repeat' first
    | (refine Sub.of hm ?_; exact Eq.refl _) | (refine Sub.bit hm ?_; exact Eq.refl _)
    | (refine Or.inl (Sub.bit hm ?_); exact Eq.refl _) | with_reducible exact Or.inr rfl
    | intro _ | with_reducible assumption
    | with_reducible apply State.rvDone_only | with_reducible apply State.rvLoad_only
    | with_reducible apply State.rvStore_only | with_reducible apply State.rvAtomic_only
    | with_reducible apply State.rvSystem_only | with_reducible apply State.rvXfly_only
    | with_reducible apply OnlyOptRes.mapGo | with_reducible apply OnlyOptRes.map
    | with_reducible apply OnlyOptRes.some | with_reducible apply OnlyOptRes.none
    | with_reducible apply OnlyRes.go | with_reducible apply OnlyRes.done
    | with_reducible apply OnlyRes.trapped | with_reducible apply OnlyRes.waits
    | with_reducible apply OnlyM.ite
    | with_reducible (refine OnlyOpt.elim ?_ (by assumption))
    | with_reducible (refine OnlyRes.elimGo ?_ (by assumption))
    | with_reducible (refine OnlyRes.elimDone ?_ (by assumption))
    | with_reducible (refine OnlyRes.elimTrapped ?_ (by assumption))
    | split | with_reducible apply OnlyM.update

theorem XfRes.state_only {M0 : Nat} {s0 s : State} {r : XfRes} (hs : OnlyM M0 s0 s) (hr : OnlyRes M0 s0 r)
    (hm : Sub 0x0 M0 := by exact Sub.of hm rfl) : OnlyM M0 s0 (r.state s) := by
  cases r with
  | waits => exact hs
  | _ => exact hr

theorem State.rvStep_only {M0 : Nat} {s0 s : State} {e : Nat} (hs : OnlyM M0 s0 s)
    (hm : Sub 0x8C0801D97083452890000388FCBC3B00B909675B8A50F1679BE588A0CD5F1DADB5E080706C039E6132FFBEFD M0 := by exact Sub.of hm rfl) : OnlyM M0 s0 (s.rvStep e) := by
  have run : ∀ (t : State) (w raw len : Nat), OnlyM M0 s0 t →
      OnlyRes M0 s0 ((t.rvExec e w len).getD (.trapped (t.trap e 2 (BitVec.ofNat 32 raw) false))) := by
    intro t w raw len h
    have hx := State.rvExec_only (e := e) (w := w) (len := len) h
    cases r : t.rvExec e w len with
    | none => exact OnlyRes.trapped (State.trap_only h)
    | some x => rw [r] at hx; exact hx
  unfold State.rvStep
  refine XfRes.state_only hs (xBind_only (State.xAccess_only hs) fun t lo ht => ?_)
  dsimp only
  split
  · exact xBind_only (State.xAccess_only ht) fun t hi ht => run t _ _ _ ht
  · split
    · exact run t _ _ _ ht
    · exact OnlyRes.trapped (State.trap_only ht)

theorem State.runEngine_only {M0 : Nat} {s0 : State} {s : State} {e : Nat} (kp_s : OnlyM M0 s0 s)
    (hm : Sub 0x8C0801D97083452890000388FCBC3B00B909675B8A50F1679BE588A0CD5F1DADB5E080706C039E6132FFBEFD M0 := by exact Sub.of hm rfl) :
    OnlyM M0 s0 (State.runEngine s e) := by
  unfold State.runEngine
  repeat' first
    | (refine Sub.of hm ?_; exact Eq.refl _) | (refine Sub.bit hm ?_; exact Eq.refl _)
    | (refine Or.inl (Sub.bit hm ?_); exact Eq.refl _) | with_reducible exact Or.inr rfl
    | intro _ | with_reducible assumption
    | with_reducible apply State.modEngine_only | with_reducible apply State.interrupt_only
    | with_reducible apply State.rvStep_only | with_reducible apply OnlyM.ite
    | (extract_lets +onlyGivenNames x; refine OnlyM.cut (M0 := M0) (s0 := s0) x ?_ ?_ <;> first | (intro hx; clear_value x) | unfold x)
    | (extract_lets +onlyGivenNames x; clear_value x)
    | split | with_reducible apply OnlyM.update

theorem State.idle_only {M0 : Nat} {s0 : State} {s : State} (kp_s : OnlyM M0 s0 s)
    (hm : Sub 0x8C0801D97083452890000388FCBC3B00B909675B8A50F1679BE588A0CD5F1DADB5E080706C039E6132FFBEFD M0 := by exact Sub.of hm rfl) :
    OnlyM M0 s0 (State.idle s) := by
  unfold State.idle
  repeat' first
    | (refine Sub.of hm ?_; exact Eq.refl _) | (refine Sub.bit hm ?_; exact Eq.refl _)
    | intro _ | with_reducible assumption
    | with_reducible apply State.tick_only | with_reducible apply State.runEngine_only
    | with_reducible apply State.each_only

end Sys2Proof.Machine
end

