-- ==== Sys2Proof/Laws/OnlyService.lean ====
section
/-! SUPPORT. Which parts each operation of `Machine/Service.lean` may change, and that it keeps what every command keeps: each
lemma follows the operation's own text, piece by piece, and gives the parts as a set of part numbers. -/

namespace Sys2Proof.Machine

theorem State.svc_only {M0 : Nat} {s0 : State} {s : State} {f : State → State} (kp_s : OnlyM M0 s0 s) (kp_f : ∀ t, OnlyM M0 s0 t → OnlyM M0 s0 (f t))
    (hm : Sub 0x10000000000000000000000000000000000000000000000000000000000000000000000000 M0 := by exact Sub.of hm rfl) :
    OnlyM M0 s0 (State.svc s f) := by
  unfold State.svc
  repeat' first
    | (refine Sub.of hm ?_; exact Eq.refl _) | (refine Sub.bit hm ?_; exact Eq.refl _)
    | with_reducible refine State.set_only SVC_STAT_STATE_holds ?_ ?_
    | intro _ | with_reducible assumption
    | with_reducible apply kp_f | with_reducible apply OnlyM.ite
    | split

theorem State.svcAnswer_only {M0 : Nat} {s0 : State} {s : State} {op : Nat} {r : SvcReq} {status : Nat} {data : List Word} (kp_s : OnlyM M0 s0 s)
    (hm : Sub 0x10000000000000000000000000000000000000000000000000000000000000000000400000 M0 := by exact Sub.of hm rfl) :
    OnlyM M0 s0 (State.svcAnswer s op r status data) := by
  unfold State.svcAnswer
  repeat' first
    | (refine Sub.of hm ?_; exact Eq.refl _) | (refine Sub.bit hm ?_; exact Eq.refl _)
    | (refine Or.inl (Sub.bit hm ?_); exact Eq.refl _) | with_reducible exact Or.inr rfl
    | intro _ | with_reducible assumption
    | with_reducible apply State.svc_only
    | (extract_lets +onlyGivenNames x; refine OnlyM.cut (M0 := M0) (s0 := s0) x ?_ ?_ <;> first | (intro hx; clear_value x) | unfold x)
    | (extract_lets +onlyGivenNames x; clear_value x)
    | with_reducible apply OnlyM.update

theorem State.svcReadRegs_only {M0 : Nat} {s0 s : State} {as : List Nat} {acc : List Word} (hs : OnlyM M0 s0 s)
    (hm : Sub 0xC00000000000000000000000030110000000001880000000000000000000180000000000000000000B0800C M0 := by exact Sub.of hm rfl) :
    OnlyM M0 s0 (s.svcReadRegs as acc).1 := by
  induction as generalizing s acc with
  | nil => exact hs
  | cons a as ih =>
    unfold State.svcReadRegs
    have h := State.readReg_only (q := .host) (off := a) (size := 4) hs
    dsimp only
    split
    · exact ih h
    · exact h

theorem State.svcReadHall_only {M0 : Nat} {s0 s : State} {as : List Nat} {acc : List Word} (hs : OnlyM M0 s0 s)
    (hm : Sub 0x3011000000261988000000000000000000000000000000000000000021800D M0 := by exact Sub.of hm rfl) :
    OnlyM M0 s0 (s.svcReadHall as acc).1 := by
  induction as generalizing s acc with
  | nil => exact hs
  | cons a as ih =>
    unfold State.svcReadHall
    have h := State.hallAccess_only (r := { master := .host, addr := a, acc := .read 4 }) hs
    dsimp only
    split
    · exact ih h
    · exact ih h
    · exact h

theorem execSvcRead_only {M0 : Nat} {s0 : State} {r : SvcReq} {s : State} (kp_s : OnlyM M0 s0 s)
    (hm : Sub 0xC00000000000010000000000030110000002619880000000000000000000180000000000000000000F1800D M0 := by exact Sub.of hm rfl) :
    OnlyOut M0 s0 (execSvcRead r s) := by
  unfold execSvcRead
  repeat' first
    | (refine Sub.of hm ?_; exact Eq.refl _) | (refine Sub.bit hm ?_; exact Eq.refl _)
    | (refine Or.inl (Sub.bit hm ?_); exact Eq.refl _) | with_reducible exact Or.inr rfl
    | intro _ | with_reducible assumption
    | with_reducible apply State.svc_only | with_reducible apply State.svcAnswer_only
    | with_reducible apply State.svcReadHall_only | with_reducible apply State.svcReadRegs_only
    | with_reducible apply OnlyOut.next | with_reducible apply OnlyOut.fault
    | with_reducible apply OnlyOut.ite | with_reducible apply OnlyOpt.none
    | with_reducible apply OnlyOpt.some | with_reducible apply OnlyM.ite
    | (extract_lets +onlyGivenNames x; refine OnlyM.cut (M0 := M0) (s0 := s0) x ?_ ?_ <;> first | (intro hx; clear_value x) | unfold x)
    | (extract_lets +onlyGivenNames x; clear_value x)
    | with_reducible (refine OnlyM.pairL ?_ (by assumption))
    | split | with_reducible apply OnlyM.update

theorem State.svcWriteRegs_only {M0 : Nat} {s0 s : State} {as : List (Nat × Word)} (hs : OnlyM M0 s0 s)
    (hm : Sub 0x8C0801D97083452890000388FCBC3B00B909675B8A50F1679BE588A0CD5F1DADB5E080706C039E6132EFBEFD M0 := by exact Sub.of hm rfl) :
    OnlyM M0 s0 (s.svcWriteRegs as).1 := by
  induction as generalizing s with
  | nil => exact hs
  | cons a as ih =>
    obtain ⟨a, w⟩ := a
    unfold State.svcWriteRegs
    have h := State.writeReg_only (q := .host) (off := a) (size := 4) (w := w) hs
    dsimp only
    split
    · exact h
    · exact ih h

theorem execSvcWrite_only {M0 : Nat} {s0 : State} {r : SvcReq} {ws : List Word} {s : State} (kp_s : OnlyM M0 s0 s)
    (hm : Sub 0x8C0801D97083453890000388FCBC3B00B909675B8A50F1679BE588A0CD5F1DADB5E080706C039E6132EFBEFD M0 := by exact Sub.of hm rfl) :
    OnlyOut M0 s0 (execSvcWrite r ws s) := by
  unfold execSvcWrite
  repeat' first
    | (refine Sub.of hm ?_; exact Eq.refl _) | (refine Sub.bit hm ?_; exact Eq.refl _)
    | (refine Or.inl (Sub.bit hm ?_); exact Eq.refl _) | with_reducible exact Or.inr rfl
    | intro _ | with_reducible assumption
    | with_reducible apply State.svc_only | with_reducible apply State.svcAnswer_only
    | with_reducible apply State.svcWriteRegs_only | with_reducible apply OnlyOut.next
    | with_reducible apply OnlyOut.fault | with_reducible apply OnlyOut.ite
    | with_reducible apply OnlyM.ite
    | with_reducible (refine OnlyM.pairL ?_ (by assumption))
    | split | with_reducible apply OnlyM.update

theorem execSvcChallenge_only {M0 : Nat} {s0 : State} {r : SvcReq} {s : State} (kp_s : OnlyM M0 s0 s)
    (hm : Sub 0x90000000000000000000000000000000000000000000000000000000000000000000480000 M0 := by exact Sub.of hm rfl) :
    OnlyOut M0 s0 (execSvcChallenge r s) := by
  unfold execSvcChallenge
  repeat' first
    | (refine Sub.of hm ?_; exact Eq.refl _) | (refine Sub.bit hm ?_; exact Eq.refl _)
    | (refine Or.inl (Sub.bit hm ?_); exact Eq.refl _) | with_reducible exact Or.inr rfl
    | with_reducible refine State.setWord64_only (Part.holds.own SVC_CHAL_CHAL_holds) SVC_CHAL_CHAL_next ?_ ?_
    | intro _ | with_reducible assumption
    | with_reducible apply State.svc_only | with_reducible apply State.svcAnswer_only
    | with_reducible apply State.draw_only
    | with_reducible apply OnlyOut.next | with_reducible apply OnlyOut.fault
    | with_reducible apply OnlyOut.ite | with_reducible apply OnlyM.ite
    | (extract_lets +onlyGivenNames x; refine OnlyM.cut (M0 := M0) (s0 := s0) x ?_ ?_ <;> first | (intro hx; clear_value x) | unfold x)
    | (extract_lets +onlyGivenNames x; clear_value x)
    | with_reducible (refine OnlyM.pair ?_ (by assumption))
    | split | with_reducible apply OnlyM.update

theorem execSvcUnlock_only {M0 : Nat} {s0 : State} {r : SvcReq} {s : State} (kp_s : OnlyM M0 s0 s)
    (hm : Sub 0x400000B000000000003011000000000000000000000000000000000000000000000000000048000C M0 := by exact Sub.of hm rfl) :
    OnlyOut M0 s0 (execSvcUnlock r s) := by
  unfold execSvcUnlock
  repeat' first
    | (refine Sub.of hm ?_; exact Eq.refl _) | (refine Sub.bit hm ?_; exact Eq.refl _)
    | with_reducible refine State.put_only SVC_DBG_UNLOCKED_holds ?_ ?_
    | with_reducible refine State.setWord64_only (Part.holds.own SVC_CHAL_CHAL_holds) SVC_CHAL_CHAL_next ?_ ?_
    | intro _ | with_reducible assumption
    | with_reducible apply State.svc_only | with_reducible apply State.svcAnswer_only | with_reducible apply State.raise_only
    | with_reducible apply State.report_only | with_reducible apply State.tlog_only | with_reducible apply OnlyOut.next
    | with_reducible apply OnlyOut.fault | with_reducible apply OnlyOut.ite
    | with_reducible apply OnlyM.ite
    | split

theorem execRelock_only {M0 : Nat} {s0 : State} {q : Requester} {s : State} (kp_s : OnlyM M0 s0 s)
    (hm : Sub 0x40000000000002000000000003011000000000188000000000000000000000000000000000000000020800C M0 := by exact Sub.of hm rfl) :
    OnlyOut M0 s0 (execRelock q s) := by
  unfold execRelock
  repeat' first
    | (refine Sub.of hm ?_; exact Eq.refl _) | (refine Sub.bit hm ?_; exact Eq.refl _)
    | intro _ | with_reducible assumption
    | with_reducible apply State.hostWrite_only | with_reducible apply State.withdrawUnlock_only
    | with_reducible apply OnlyOut.next | with_reducible apply OnlyOut.fault
    | with_reducible apply OnlyOut.ite

theorem State.svcEngine_only {M0 : Nat} {s0 : State} {s : State} {r : SvcReq} {f : State → Nat → State × Option (List Word)} (kp_s : OnlyM M0 s0 s) (kp_f : ∀ t k, OnlyM M0 s0 t → OnlyM M0 s0 (f t k).1)
    (hm : Sub 0x10000000000000000000000000000000000000000000000000000000000000000000400000 M0 := by exact Sub.of hm rfl) :
    OnlyM M0 s0 (State.svcEngine s r f) := by
  unfold State.svcEngine
  repeat' first
    | (refine Sub.of hm ?_; exact Eq.refl _) | (refine Sub.bit hm ?_; exact Eq.refl _)
    | (refine Or.inl (Sub.bit hm ?_); exact Eq.refl _) | with_reducible exact Or.inr rfl
    | intro _ | with_reducible assumption
    | with_reducible apply kp_f | with_reducible apply State.svc_only
    | with_reducible apply State.svcAnswer_only | with_reducible apply OnlyOpt.none
    | with_reducible apply OnlyOpt.some | with_reducible apply OnlyM.ite
    | with_reducible (refine OnlyM.pairL ?_ (by assumption))
    | split | with_reducible apply OnlyM.update

theorem execDbgHalt_only {M0 : Nat} {s0 : State} {r : SvcReq} {s : State} (kp_s : OnlyM M0 s0 s)
    (hm : Sub 0x1000000000003011000000000208000000000000000000000000000000000000000040800C M0 := by exact Sub.of hm rfl) :
    OnlyOut M0 s0 (execDbgHalt r s) := by
  unfold execDbgHalt
  repeat' first
    | (refine Sub.of hm ?_; exact Eq.refl _) | (refine Sub.bit hm ?_; exact Eq.refl _)
    | intro _ | with_reducible assumption
    | with_reducible apply State.svcEngine_only | with_reducible apply State.engineHalt_only
    | with_reducible apply OnlyOut.next | with_reducible apply OnlyOut.fault
    | with_reducible apply OnlyOut.ite

theorem State.debugStep_only {M0 : Nat} {s0 : State} {s : State} {e : Nat} (kp_s : OnlyM M0 s0 s)
    (hm : Sub 0x8C0801D97083452890000388FCBC3B00B909675B8A50F1679BE588A0CD5F1DADB5E080706C039E6132FFBEFD M0 := by exact Sub.of hm rfl) :
    OnlyM M0 s0 (State.debugStep s e) := by
  unfold State.debugStep
  repeat' first
    | (refine Sub.of hm ?_; exact Eq.refl _) | (refine Sub.bit hm ?_; exact Eq.refl _)
    | (refine Or.inl (Sub.bit hm ?_); exact Eq.refl _) | with_reducible exact Or.inr rfl
    | with_reducible refine State.set_only (ENG_STAT_STATE_holds ..) ?_ ?_
    | intro _ | with_reducible assumption | with_reducible apply State.rvStep_only
    | with_reducible apply State.showEngine_only | with_reducible apply OnlyM.ite
    | (extract_lets +onlyGivenNames x; refine OnlyM.cut (M0 := M0) (s0 := s0) x ?_ ?_ <;> first | (intro hx; clear_value x) | unfold x)
    | (extract_lets +onlyGivenNames x; clear_value x)
    | split | with_reducible apply OnlyM.update

theorem execDbgStep_only {M0 : Nat} {s0 : State} {r : SvcReq} {s : State} (kp_s : OnlyM M0 s0 s)
    (hm : Sub 0x8C0801D97083453890000388FCBC3B00B909675B8A50F1679BE588A0CD5F1DADB5E080706C039E6132FFBEFD M0 := by exact Sub.of hm rfl) :
    OnlyOut M0 s0 (execDbgStep r s) := by
  unfold execDbgStep
  repeat' first
    | (refine Sub.of hm ?_; exact Eq.refl _) | (refine Sub.bit hm ?_; exact Eq.refl _)
    | intro _ | with_reducible assumption
    | with_reducible apply State.svcEngine_only | with_reducible apply State.debugStep_only
    | with_reducible apply OnlyOut.next | with_reducible apply OnlyOut.fault
    | with_reducible apply OnlyOut.ite

theorem State.debugResume_only {M0 : Nat} {s0 : State} {s : State} {e : Nat} (kp_s : OnlyM M0 s0 s)
    (hm : Sub 0x1880000000000000000000000000000000000000000008000 M0 := by exact Sub.of hm rfl) :
    OnlyM M0 s0 (State.debugResume s e) := by
  unfold State.debugResume
  repeat' first
    | (refine Sub.of hm ?_; exact Eq.refl _) | (refine Sub.bit hm ?_; exact Eq.refl _)
    | with_reducible refine State.set_only (ENG_STAT_STATE_holds ..) ?_ ?_
    | intro _ | with_reducible assumption | with_reducible apply State.interrupt_only
    | with_reducible apply OnlyM.ite
    | split

theorem execDbgResume_only {M0 : Nat} {s0 : State} {r : SvcReq} {s : State} (kp_s : OnlyM M0 s0 s)
    (hm : Sub 0x10000000000000000000000001880000000000000000000000000000000000000000408000 M0 := by exact Sub.of hm rfl) :
    OnlyOut M0 s0 (execDbgResume r s) := by
  unfold execDbgResume
  repeat' first
    | (refine Sub.of hm ?_; exact Eq.refl _) | (refine Sub.bit hm ?_; exact Eq.refl _)
    | intro _ | with_reducible assumption
    | with_reducible apply State.svcEngine_only | with_reducible apply State.debugResume_only
    | with_reducible apply OnlyOut.next | with_reducible apply OnlyOut.fault
    | with_reducible apply OnlyOut.ite

theorem execDbgReadReg_only {M0 : Nat} {s0 : State} {r : SvcReq} {reg : DbgReg} {s : State} (kp_s : OnlyM M0 s0 s)
    (hm : Sub 0x10000000000000000000000000000000000000000000000000000000000000000000400000 M0 := by exact Sub.of hm rfl) :
    OnlyOut M0 s0 (execDbgReadReg r reg s) := by
  unfold execDbgReadReg
  repeat' first
    | (refine Sub.of hm ?_; exact Eq.refl _) | (refine Sub.bit hm ?_; exact Eq.refl _)
    | (refine Or.inl (Sub.bit hm ?_); exact Eq.refl _) | with_reducible exact Or.inr rfl
    | intro _ | with_reducible assumption
    | with_reducible apply State.svcEngine_only | with_reducible apply OnlyOut.next
    | with_reducible apply OnlyOut.fault | with_reducible apply OnlyOut.ite
    | split | with_reducible apply OnlyM.update

theorem execDbgWriteReg_only {M0 : Nat} {s0 : State} {r : SvcReq} {reg : DbgReg} {w : Word} {s : State} (kp_s : OnlyM M0 s0 s)
    (hm : Sub 0x10000000000000000000000000080000000000000000000000000000000000000000408000 M0 := by exact Sub.of hm rfl) :
    OnlyOut M0 s0 (execDbgWriteReg r reg w s) := by
  unfold execDbgWriteReg
  repeat' first
    | (refine Sub.of hm ?_; exact Eq.refl _) | (refine Sub.bit hm ?_; exact Eq.refl _)
    | (refine Or.inl (Sub.bit hm ?_); exact Eq.refl _) | with_reducible exact Or.inr rfl
    | intro _ | with_reducible assumption
    | with_reducible apply State.svcEngine_only | with_reducible apply State.modEngine_only
    | with_reducible apply State.csrWrite_only | with_reducible apply OnlyOut.next
    | with_reducible apply OnlyOut.fault | with_reducible apply OnlyOut.ite
    | with_reducible apply OnlyOpt.none | with_reducible apply OnlyOpt.some
    | with_reducible apply OnlyM.ite
    | split | with_reducible apply OnlyM.update

theorem execDfuDetach_only {M0 : Nat} {s0 : State} {s : State} (kp_s : OnlyM M0 s0 s)
    (hm : Sub 0x10000005000000000003011000000000000000000000000000000000000000000000000000000000C M0 := by exact Sub.of hm rfl) :
    OnlyOut M0 s0 (execDfuDetach s) := by
  unfold execDfuDetach
  repeat' first
    | (refine Sub.of hm ?_; exact Eq.refl _) | (refine Sub.bit hm ?_; exact Eq.refl _)
    | intro _ | with_reducible assumption
    | with_reducible apply State.svc_only | with_reducible apply State.ramorny_only
    | with_reducible apply OnlyOut.next | with_reducible apply OnlyOut.fault
    | with_reducible apply OnlyOut.ite | with_reducible apply OnlyM.ite
    | split

end Sys2Proof.Machine
end

