-- ==== Sys2Proof/WellFormed.lean ====
section
/-! DEFINITION. Well-formed commands: operands that an event of the package can carry (R150, R162, R263, R312, R421, R468,
R476). An ill-formed command names no event; its meaning is still total. -/

namespace Sys2Proof

/-- A CAN or Ethernet frame with as many data bytes as it declares (R162). -/
def Frame.wf (f : Frame) : Bool :=
  f.data.length == (if f.rmt then 0 else f.len) && (f.fmt == 3 || Machine.lengthRules f)

/-- A reception: a well-formed frame, and edges between bits that the front end sampled (R131). -/
def Reception.wf (r : Reception) : Bool :=
  r.frame.wf && (match r.wp with
    | some w => w.edges.all fun e => 1 ≤ e.bit && e.bit < w.bits.length
    | none => true)

/-- A hall access touches 1 byte or more; fetches, atomics, load-reserve and store-conditional are engines' (R271, R312). -/
def HallReq.wf (r : HallReq) : Bool :=
  match r.acc with
  | .read n => 1 ≤ n
  | .write bs => 1 ≤ bs.length
  | .fetch n => n == 2 && (match r.master with | .engine _ => true | _ => false)
  | _ => match r.master with
    | .engine _ => true
    | _ => false

/-- The converter samples of at most one packet: 1,024 samples of up to 2^3 each (R149, R150). -/
def Packet.wf (p : Packet) : Bool := p.volts.length ≤ 8192

/-- An ACF message carries a CAN CC or CAN FD frame (R263). -/
def AcfMsg.wf (m : AcfMsg) : Bool := m.data.length ≤ (if m.fdf then 64 else 8) && m.id < 2 ^ 29

/-- An AGREE message: an agreement digest of 16 bytes (R476). -/
def Agree.wf (a : Agree) : Bool := a.ad.length == 16

/-- Operands that an event of the package can carry. -/
def Instr.wf (i : Instr) : Bool :=
  match i with
  | .frameReception _ r => r.wf
  | .catalogueSearch _ _ f => f.wf
  | .xlCandidateComplete _ f => f.wf && f.fmt == 2
  | .frameMessageReceive m => m.frame.wf
  | .wakeDetected _ (.frame f dlc) => f.wf && f.fmt == 0 && dlc < 16 && f.len == min dlc 8
  | .hallAccess r => r.wf
  | .specimenPacket _ p => p.wf
  | .soundingAnalysisDone _ recs => recs.all fun r => r.length == 256
  | .tunnelAvtpduReceived _ _ a => a.msgs.all AcfMsg.wf
  | .agreeReceive _ a _ _ _ => a.wf
  | .svcWrite r ws => ws.length == r.count.toNat
  | .dfuDnload _ bs _ => bs.length ≤ 4096
  | _ => true

end Sys2Proof
end

