-- ==== Sys2Proof/Tests/Slice0.lean ====
section
/-! SUPPORT. Tests: for every statement with hypotheses a witness, a concrete state and operands that meet them, clause by
clause (`witness_<statement>`); ill-formed commands that `Instr.wf` refuses; and worked examples of the spec. -/

open Sys2Proof Sys2Proof.Machine

namespace Sys2Proof.Tests

set_option Elab.async false

/-- The state after power-on reset with some register fields set. -/
def st (l : List (Loc × Nat)) : State := l.foldl (fun s x => s.set x.1 x.2) State.reset

/-- The same with every function and every region ready. -/
def up (l : List (Loc × Nat)) : State := st ([(⟨0x10, 0, 32⟩, 0xFFFFFFFF), (⟨0x18, 0, 16⟩, 0xFFFF)] ++ l)

theorem test_up_serves : (up []).ended = false ∧ (List.range 24).all (up []).ready = true ∧ (up []).rgnReady 15 = true := by
  decide +kernel

/-! ## The step, frames and register accesses -/

/-- A register word that the host reaches in `s` at an offset (`State.Reaches`), with a property of its row. -/
def reached (s : State) (off : Nat) (p : RegRow → Bool) : Bool :=
  match rowAt off with
  | some r => off % 4 == 0 && (isramAt off).isNone && canonical off == off && s.blkReady r.blk off && !s.ended && p r
  | none => false

theorem witness_StepRunsFrontCommand : ({ State.reset with pending := [.checkDone] } : State).pending = .checkDone :: [] := rfl

theorem witness_IdleStepIsOneTick :
    (State.reset.pending = [] ∧ State.reset.ready 4 = false ∧ State.reset.running = []) ∧ (up []).pending = [] ∧
    (up []).ready 4 = true ∧ (up [(ENG_STAT_STATE 1023, 2)]).running ≠ [] := by
  decide +kernel

theorem witness_CommandsKeepQueue : ∃ t, exec .checkDone State.reset = .next t := ⟨_, rfl⟩

theorem witness_StepKeepsCanonical : State.reset.Canonical ∧ ∃ t, step State.reset = .next t :=
  ⟨by constructor <;> decide +kernel, _, rfl⟩

/-- Witnesses of CountersOnlyIncrease and of TamperLogNeverGoesBack. -/
theorem witness_VaultHistoryOnlyGrows : ∃ t, step State.reset = .next t := ⟨_, rfl⟩

theorem witness_CommandsGoOn :
    (st [(LP_CFG_MODE 0, 1)]).get (LP_CFG_MODE 0) ≠ 0 ∧
    rxWellFormed ((st [(LP_CFG_MODE 0, 1)]).isEth 0) { fmt := 0, id := 1, len := 9, data := [] } = false ∧
    rxWellFormed ((st [(LP_CFG_MODE 0, 1)]).isEth 0) { fmt := 0, id := 0x7FF, len := 8, data := List.replicate 8 0xFF } = true ∧
    State.reset.get (LP_CFG_MODE 127) = 0 := by decide +kernel

/-- R6, R7: the low and the high word of TIME.NSO, a latched high word, and CHIP.READY. Witnesses of LowWordReadLatchesHighWord and of ReadReturnsLatchOrLiveWord. -/
theorem witness_RegisterReads :
    (reached (up []) 0x5200028 fun _ => true) = true ∧ ((rowAt 0x520002C).map (·.hi)) = some true ∧
    (up []).latch .host = none ∧
    (reached (up []) 0x520002C fun _ => true) = true ∧
    ({ up [] with latches := [(0, some (0x520002C, 7))] } : State).latch .host = some (0x520002C, 7) ∧
    (reached (up []) 0x10 fun _ => true) = true ∧ ((rowAt 0x14).map (·.hi)) = some false := by decide +kernel

/-- R11: LP[0].WUF_ID, a word of RWL bits that starts no action. -/
theorem witness_WriteFollowsAccessTypes :
    (reached (up []) 0x01000028 fun r => r.rwl == 0x1FFFFFFF) = true ∧
    ∀ u : State, u.action .host 0x01000028 5 = none ∧ u.afterWrite 0x01000028 5 = u :=
  ⟨by decide +kernel, fun _ => ⟨rfl, rfl⟩⟩

/-- Witnesses of BadWidthIsRefused and of NotReadyAccessChangesNothing. -/
theorem witness_RefusedAccesses :
    ((2 : Nat) ≠ 4 ∨ 0x10 % 4 ≠ 0) ∧ ((4 : Nat) ≠ 4 ∨ 0x11 % 4 ≠ 0) ∧
    ((rowAt 0x01000028).map fun r => State.reset.blkReady r.blk 0x01000028) = some false ∧
    isramAt 0x01000028 = none ∧ canonical 0x01000028 = 0x01000028 ∧ State.reset.ended = false ∧
    ∀ u : State, u.action .host 0x01000028 5 = none :=
  ⟨by decide, by decide, by decide +kernel, by decide, by decide, by decide +kernel, fun _ => rfl⟩

/-- R491: the last word of the space, an offset in the open CHIP block, one in the descriptor range, and a record that is held. -/
theorem witness_UndecodedOffsetIsRecorded :
    ((rowAt (canonical 0x7FFFFFC)).isNone && (isramAt 0x7FFFFFC).isNone && (rowAt (canonical 0x1000)).isNone
      && (rowAt (canonical 0x2600000)).isNone) = true ∧ State.reset.ended = false ∧
    State.reset.engineOpen 1023 0x1000 false = true ∧ State.reset.engineOpen 0 0x2600000 true = true ∧
    State.reset.regPmp 1023 0x1000 false = true ∧ State.reset.regPmp 0 0x2600000 true = true ∧
    State.reset.flag CHIP_UNMAP_VALID = false ∧ (st [(CHIP_UNMAP_VALID, 1)]).flag CHIP_UNMAP_VALID = true := by decide +kernel

/-! ## Die links, readiness and the ledger -/

/-- Witnesses of DieLinkCommands and of ReadinessCommands. -/
theorem witness_DieLinksAndReadiness :
    (let s : State := { State.reset with links := [(0, { up := true }), (2, { up := true })], time := { ticks := 500 } };
     (s.link 0).up = true ∧ (s.link 2).up = true ∧ (s.link 2).lastTick + 500 ≤ s.time.ticks) ∧
    (1802, 0x38) ∉ State.reset.cur.live ∧ State.reset.usable = true ∧
    (State.reset.ready 4 = false ∧ State.reset.readyWhen 4 = true) ∧ (up []).ready 22 = true ∧
    (up [(RGN_STAT_CLUSTERS 15, 1)]).get (RGN_STAT_CLUSTERS 15) ≠ 0 ∧ (up [(RGN_STAT_CLUSTERS 15, 1)]).flag (RGN_OPP_BUSY 15) = false ∧
    (up []).get (RGN_STAT_CLUSTERS 0) = 0 ∧ (up [(RGN_OPP_BUSY 0, 1)]).flag (RGN_OPP_BUSY 0) = true := by decide +kernel

/-- An LATCH source of ring 0 with a state, and an EACH source. -/
def src (n sense state : Nat) : State :=
  up [(LEDG_SRC_EN n, 1), (LEDG_SRC_SENSE n, sense), (LEDG_SRC_STATE n, state), (LEDG_RING_CFG_EN 0, 1)]

/-- Witnesses of RaiseFollowsSenseAndState and of LevelSourceFollowsCondition. -/
theorem witness_RaisesAndLevels :
    (namedSource 0 && !isLevelSource 0 && !(src 0 0 0).asleep && (src 0 0 0).flag (LEDG_SRC_EN 0)) = true ∧
    ((src 0 0 0).get (LEDG_SRC_SENSE 0) = 0 ∧ (src 0 0 0).flag (LEDG_RING_CFG_EN ((src 0 0 0).get (LEDG_SRC_RING 0))) = true ∧
      (src 0 0 0).led.stagedCount < 8192) ∧
    ((src 0 1 0).get (LEDG_SRC_SENSE 0) ≠ 0 ∧ (src 0 1 0).get (LEDG_SRC_STATE 0) = 0) ∧
    (src 0 1 1).get (LEDG_SRC_STATE 0) = 1 ∧ (src 0 1 2).get (LEDG_SRC_STATE 0) = 2 ∧ (src 0 1 3).get (LEDG_SRC_STATE 0) = 3 ∧
    (let s := (src 1824 2 0).set ⟨0x14, 0, 32⟩ 1
     isLevelSource 1824 = true ∧ s.levelCondition 1824 = true ∧ s.flag (LEDG_SRC_LIVE 1824) = false ∧
      s.flag (LEDG_SRC_EN 1824) = true ∧ s.get (LEDG_SRC_STATE 1824) = 0) ∧
    (src 1824 2 2).get (LEDG_SRC_STATE 1824) = 2 ∧ (src 1824 2 0).levelCondition 1824 = false := by decide +kernel

/-- A record that waits for ring 63. -/
def waits : State :=
  { up [(LEDG_RING_CFG_EN 63, 1), (LEDG_RING_CFG_L 63, 4), (LEDG_RING_CFG_TARGET 63, 1024), (LEDG_RING_CFG_IEN 63, 1),
      (LEDG_RING_TAIL_TAIL 63, 31), (LEDG_RING_HEAD_HEAD 63, 16)] with
    led := { queue := [{ ring := 63, staged := false, body := .event 5 1 9, tick := 0, nso := 0 }] } }

/-- Witnesses of DeliveryWritesRecordAtTail and of HoldAndModeration. -/
theorem witness_DeliveryAndSignals :
    (waits.flag LEDG_HOLD_ON = false ∧ waits.asleep = false ∧ waits.flag (LEDG_RING_CFG_EN 63) = true ∧
      waits.ringFull 63 = false ∧ (waits.ringHid 63).lost = 0 ∧ (takeRec 63 waits.led.queue).isSome = true ∧
      isLevelSource 5 = false) ∧
    (up [(LEDG_HOLD_ON, 1)]).flag LEDG_HOLD_ON = true ∧
    (let s : State := { up [(LEDG_HOLD_ON, 1)] with led := { holdSince := some 0 }, time := { ticks := ticksOfMs 10 } }
     s.led.holdSince = some 0 ∧ s.flag LEDG_HOLD_ON = true ∧
      0 + ticksOfMs (if s.get LEDG_HOLD_MAX = 0 then 10 else s.get LEDG_HOLD_MAX) ≤ s.ticks) ∧
    ((waits.ringHid 63).armed = true ∧ waits.flag (LEDG_RING_CFG_IEN 63) = true ∧ waits.ringLen 63 ≠ 0 ∧
      waits.get (LEDG_RING_CFG_TARGET 63) = 1024 ∧ waits.moderated 63 = false ∧
      (waits.setWord (0x5418000 + 16 * 63 + 12) 0).serves 3) ∧
    (let s : State := { up [] with led := { rate := [(4223, { start := 0 })] }, time := { ticks := 500000 } }
     (s.led.rate.lookup 4223).isSome = true) ∧
    (let s := ((src 1824 2 0).put (LEDG_SRC_EN 1824) false).put (LEDG_SRC_LIVE 1824) true
     s.flag (LEDG_SRC_EN 1824) = false ∧ s.flag (LEDG_SRC_LIVE 1824) = true ∧ s.get (LEDG_SRC_STATE 1824) = 0) := by
  refine ⟨by decide +kernel, by decide +kernel, by decide +kernel, ?_, by decide +kernel, by decide +kernel⟩
  refine ⟨?_, ?_, ?_, ?_, ?_, ?_, ?_⟩ <;> decide +kernel

/-- Engines 0 and 1023 of station 5, and the ring of source 7 directed at engine 0. -/
def mine (state : Nat) : State :=
  up [(CLU_CFG_ASSIGNED 0, 1), (CLU_CFG_STATION 0, 5), (CLU_CFG_ASSIGNED 127, 1), (CLU_CFG_STATION 127, 5),
    (LEDG_RING_CFG_TARGET 0, 0), (LEDG_RING_CFG_EN 0, 1), (LEDG_RING_CFG_L 0, 4), (LEDG_RING_TAIL_TAIL 0, 16),
    (LEDG_SRC_STATE 7, state), (LEDG_SRC_STATE 1824, state)]

theorem witness_EoiAcknowledges :
    ((mine 2).stationOf 1023).isSome = true ∧ (mine 2).stationOf 1023 = (mine 2).stationOf 0 ∧
    (mine 2).get (LEDG_RING_CFG_TARGET ((mine 2).get (LEDG_SRC_RING 7))) < 1024 ∧
    ((mine 2).stationOf 8).isSome = false ∧
    (mine 1).get (LEDG_SRC_STATE 7) < 2 ∧ (mine 2).get (LEDG_SRC_STATE 7) = 2 ∧ (mine 3).get (LEDG_SRC_STATE 7) = 3 ∧
    (mine 3).flag (LEDG_RING_CFG_EN ((mine 3).get (LEDG_SRC_RING 7))) = true ∧
    2 ≤ (mine 2).get (LEDG_SRC_STATE 1824) ∧ (mine 2).flag (LEDG_SRC_LIVE 1824) = false ∧
    ((mine 2).put (LEDG_SRC_LIVE 1824) true).flag (LEDG_SRC_LIVE 1824) = true ∧
    (mine 2).ready 3 = true ∧ (mine 2).ended = false ∧ (mine 2).regPmp 1023 LEDG_EOI_SRC.addr true = true ∧
    (mine 2).flag (LEDG_SRC_EN 7) = false ∧ ((mine 3).put (LEDG_SRC_EN 7) true).flag (LEDG_SRC_EN 7) = true ∧
    ((mine 2).put LEDG_ERR_VALID true).flag LEDG_ERR_VALID = true := by decide +kernel

theorem witness_HeadWriteFreesRecords :
    (16 < 2 ^ ((mine 2).get (LEDG_RING_CFG_L 0) + 1) ∧
      ringDist ((mine 2).get (LEDG_RING_CFG_L 0)) ((mine 2).get (LEDG_RING_HEAD_HEAD 0)) 16 ≤ (mine 2).ringLen 0) ∧
    ¬ringDist ((mine 2).get (LEDG_RING_CFG_L 0)) ((mine 2).get (LEDG_RING_HEAD_HEAD 0)) 17 ≤ (mine 2).ringLen 0 ∧
    ((mine 2).stationOf 8).isSome = false ∧ (mine 2).regPmp 1023 (LEDG_RING_HEAD_HEAD 0).addr true = true := by decide +kernel

/-! ## Images and epochs -/

theorem witness_ImageCommands :
    ((up []).serves 12 ∧ (up []).flag UPD_STAT_PREP = false ∧ (up []).inPhase [0, 2, 6] = true) ∧
    (up [(IMG_STATUS_PHASE, 2)]).inPhase [2] = true ∧ (up [(IMG_STATUS_PHASE, 4)]).inPhase [4] = true ∧
    (up [(IMG_STATUS_PHASE, 6)]).inPhase [2, 3, 4, 6] = true ∧
    (let s : State := { up [(IMG_STATUS_PHASE, 3)] with img := { copy1 := some { seq := 2, state := 1 : JCopy }.withCrc } }
     s.inPhase [2, 3, 4, 6] = true ∧ s.journal.state = 1) ∧ (up []).journal.state = 0 ∧
    (up [(UPD_STAT_PREP, 1)]).flag UPD_STAT_PREP = true ∧ (up [(IMG_STATUS_PHASE, 1)]).inPhase [0, 2, 6] = false ∧
    (up []).inPhase [2] = false ∧ (up []).inPhase [4] = false ∧ (up []).inPhase [2, 3, 4, 6] = false := by
  refine ⟨⟨⟨by decide +kernel, by decide +kernel⟩, by decide +kernel, by decide +kernel⟩, ?_⟩; decide +kernel

/-- Witnesses of ImageWorkEnds and of SwitchInstantNewImageGoverns. -/
theorem witness_ImageWorkAndSwitch :
    (up [(IMG_STATUS_PHASE, 1)]).inPhase [1] = true ∧
    (up [(IMG_STATUS_PHASE, 1)]).formatFails (up [(IMG_STATUS_PHASE, 1)]).img.shadow 0 ≠ [] ∧
    (up [(IMG_STATUS_PHASE, 3)]).inPhase [3] = true ∧
    (let s : State := { up [(IMG_STATUS_PHASE, 5)] with img := { writing := some { seq := 3, state := 3 } } }
     smapWf resetWord s.regs = true ∧ Memory.wf s.mem = true ∧ s.get IMG_STATUS_PHASE = 5 ∧ s.img.writing.isSome = true ∧
      s.ready 2 = true ∧ s.asleep = false) := by decide +kernel

/-- Witnesses of PortEntersNewEpoch and of RestoreOutcome. -/
theorem witness_EpochMovesAndRestore :
    (let s : State := { up [(IMG_TRANS_PORT 3, 2 ^ 31)] with time := { ticks := ticksOfMs 100 } }
     smapWf resetWord s.regs = true ∧ Memory.wf s.mem = true ∧ s.inTransit 127 = true ∧ s.asleep = false ∧
      (s.port 127).attempt = none ∧ s.img.switchTick + ticksOfMs (max 1 (s.get IMG_TRANS_LIMIT_MS)) ≤ s.ticks ∧
      s.ready (lineBit 127) = true ∧ s.ended = false) ∧
    ((up []).usable = true ∧ (up []).ready 2 = true ∧ (up []).img.restored = false ∧ (up []).ended = false) ∧
    ({ up [] with img := { copy0 := none, copy1 := none } } : State).img.journal = none ∧
    ((up []).img.valid0.isSome = true ∧ (up []).img.journal.map (fun j => (j.state, j.govValid)) = some (0, false)) ∧
    (let c : JCopy := { seq := 9, state := 3 : JCopy }.withCrc
     ({ up [] with img := { copy0 := some c } } : State).img.journal = some c ∧ c.state = 3 ∧
      ({ up [] with img := { copy0 := some { c with state := 1 } } } : State).img.valid0 = none) ∧
    (let c : JCopy := { seq := 9, govValid := true : JCopy }.withCrc
     ({ up [] with img := { copy0 := some c } } : State).img.journal = some c ∧ c.govValid = true) := by
  refine ⟨?_, ?_, ?_, ?_, ?_, ?_⟩ <;> decide +kernel

/-! ## Ports -/

/-- A state of the package with one port's hidden half. -/
def prt (n : Nat) (p : Port) (l : List (Loc × Nat)) : State := { up l with ports := [(n, p)] }

/-- The fields of an ACTIVE port of a mode. -/
def active (n mode : Nat) : List (Loc × Nat) :=
  [(LP_CFG_MODE n, mode), (LP_STATE_PSTATE n, 1), (LP_STATE_DRV n, 1)]

theorem witness_FaultEventsAndRetries :
    ((up (active 0 1)).flag (LP_STATE_DRV 0) = true ∧ ((up (active 0 1)).port 0).event = none) ∧
    (let s := prt 127 { event := some 1 } (active 127 1 ++ [(LP_STATE_RETRY 127, 5)])
     (s.port 127).event = some 1 ∧ s.get (LP_STATE_PSTATE 127) = 1 ∧ s.pstateNow 127 = 1 ∧ s.get (LP_STATE_RETRY 127) = 5) ∧
    (prt 127 { event := some 1 } (active 127 1 ++ [(LP_STATE_RETRY 127, 4)])).get (LP_STATE_RETRY 127) ≠ 5 ∧
    (let s : State := { prt 0 { faultOff := some 0 } [(LP_CFG_MODE 0, 1), (LP_STATE_PSTATE 0, 2)] with
        time := { ticks := ticksOfMs 10 } }
     (s.port 0).faultOff = some 0 ∧ 0 + ticksOfMs 10 ≤ s.ticks ∧ s.get (LP_STATE_PSTATE 0) = 2 ∧ s.pstateNow 0 = 2) ∧
    (let s := up (active 0 1 ++ [(LP_STATE_PENDING 0, 1)])
     s.flag (LP_STATE_PENDING 0) = true ∧ s.flag (LP_STATE_DRV 0) = true ∧ (s.port 0).event = none) := by decide +kernel

/-- Witnesses of PortControlCommands and of WireChecksAndWakes. -/
theorem witness_PortControlAndWireChecks :
    (let s := up (active 127 5)
     s.ready (lineBit 127) = true ∧ s.ended = false ∧ s.get (LP_STATE_PSTATE 127) = 1 ∧ s.pstateNow 127 = 1 ∧
      (s.port 127).event = none ∧ s.inTransit 127 = false) ∧
    (let s := up [(LP_CFG_MODE 0, 1), (LP_STATE_PSTATE 0, 4), (LP_CTRL_DRV_DIS 0, 1)]
     s.get (LP_STATE_PSTATE 0) = 4 ∧ s.pstateNow 0 = 4 ∧ (s.port 0).faultOff = none) ∧
    (let s := prt 0 { latched := true } [(LP_CFG_MODE 0, 1), (LP_STATE_PSTATE 0, 3)]
     s.get (LP_STATE_PSTATE 0) = 3 ∧ s.pstateNow 0 = 3 ∧ s.flag (LP_CTRL_DRV_DIS 0) = false) ∧
    (stopsEngine ((up (active 0 1)).get (LP_STATE_PSTATE 0)) = false ∧ (up (active 0 1)).recording 0 = false) ∧
    (let s := prt 0 { wakeErrs := 31 } [(LP_STATE_PSTATE 0, 7), (LP_WAKE_CFG_KIND 0, 1)]
     s.get (LP_STATE_PSTATE 0) = 7 ∧ s.get (LP_WAKE_CFG_KIND 0) = 1 ∧ 31 ≤ (s.port 0).wakeErrs) ∧
    (let s := up [(LP_STATE_PSTATE 127, 7), (LP_WAKE_CFG_KIND 127, 2)]
     s.get (LP_STATE_PSTATE 127) = 7 ∧ s.wakes 127 .activity = true) := by decide +kernel

/-- A port whose selected slot is in a state. -/
def sending (n mode slot state : Nat) : List (Loc × Nat) :=
  active n mode ++ [(MOP_PORTHEAD_VALID n, 1), (MOP_PORTHEAD_SLOT n, slot), (MOP_DESC_STATE slot, state)]

theorem witness_GovernorAdmitsDefersFlags :
    (let s := up (sending 0 1 65535 slotQueued)
     s.headSlot 0 = some 65535 ∧ s.canSend 0 = true ∧ s.get (MOP_DESC_STATE 65535) = slotQueued ∧ (s.port 0).deferTick = none ∧
      (s.govOf (dieOf 0)).queue = [] ∧ s.windowSum (dieOf 0) + s.reservationFor 0 65535 ≤ s.budget (dieOf 0)) ∧
    (({ up (sending 0 1 65535 slotQueued) with gov := [(0, { queue := [5] })] } : State).govOf 0).queue ≠ [] ∧
    (let s : State := { up [] with time := { ticks := 50000 } }
     (s.govOf 1).bucket < s.ticks / 50000 ∧ (s.govOf 1).queue = []) ∧
    (let s : State := { prt 0 { deferTick := some 0 } (sending 0 1 7 slotQueued) with time := { ticks := ticksOfMs 2 } }
     (s.port 0).deferTick = some 0 ∧ s.headSlot 0 = some 7 ∧ (s.port 0).deferFlagged = false ∧ 0 + ticksOfMs 2 ≤ s.ticks) := by
  decide +kernel

/-! ## Bit engines -/

/-- Witnesses of ReceptionOutcomes and of DetectedErrorCounts. -/
theorem witness_ReceptionsAndErrors :
    (let s := up (active 0 1 ++ [(BT_STAT_BSTATE 0, 2)])
     s.receives 0 5 = true ∧ sofSeen { frame := { fmt := 0, id := 5, len := 0 }, sof := 0, endNs := 0, age := 5 } = true ∧
      (s.bstate 0 = 2 ∧ s.flag (ECF_STAT_QPEND 0) = false) ∧ s.isEth 0 = false ∧
      rxWellFormed false { fmt := 0, id := 5, len := 0 } = true ∧ s.portCarries 0 0 = true ∧
      s.portCarries 0 1 = false ∧ (s.foreign 0 { fmt := 1, len := 0 }).isRight = true ∧
      ((s.put (BT_CFG_PEX_CC 0) true).foreign 0 { fmt := 1, len := 0 }).isLeft = true) ∧
    (let s := up (active 127 6 ++ [(BT_STAT_BSTATE 127, 2)])
     s.receives 127 0 = true ∧ s.isEth 127 = true ∧ s.portCarries 127 3 = true ∧
      rxWellFormed true { fmt := 3, len := 60, data := List.replicate 60 0 } = true ∧
      rxWellFormed true { fmt := 3, len := 59, data := List.replicate 59 0 } = true ∧ crc32 (List.replicate 60 0) ≠ 0) ∧
    (let s := up (active 0 1 ++ [(BT_STAT_BSTATE 0, 4), (ECF_CNT_TEC 0, 247)])
     let t := prt 0 { attempt := some { beacon := false, slot := 1, sof := 0 } } (active 0 1 ++ [(BT_STAT_BSTATE 0, 4)])
     s.isCan 0 = true ∧ s.bstate 0 = 4 ∧ (s.port 0).attempt.isSome = false ∧ (t.port 0).attempt.isSome = true ∧
      s.get (ECF_STAT_ESTATE 0) < 2 ∧ (s.port 0).opMode ≠ 1 ∧ s.get (ECF_CNT_TEC 0) < 248 ∧
      t.tecExempt 0 { type := 1, tx := true, field := 2, pos := 3 } = false ∧
      (up (active 0 1 ++ [(BT_STAT_BSTATE 0, 3)])).bstate 0 = 3 ∧ s.flag (BT_STAT_RXONLY 0) = false ∧ (s.port 0).opMode = 0) := by decide +kernel

theorem witness_TransmitAttempts :
    (let s := prt 0 { beaconWait := some 3 } (active 0 1 ++ [(BT_STAT_BSTATE 0, 2)])
     s.bstate 0 = 2 ∧ s.canSend 0 = true ∧ (s.port 0).attempt = none ∧ s.isEth 0 = false ∧ (s.port 0).beaconWait = some 3) ∧
    (let s := up (sending 127 1 9 slotArb ++ [(BT_STAT_BSTATE 127, 2)])
     s.canSend 127 = true ∧ (s.port 127).beaconWait = none ∧ s.headSlot 127 = some 9 ∧ s.get (MOP_DESC_STATE 9) = slotArb ∧
      s.flag (MOP_DESC_DL_EN 9) = false ∧ (wordsOf (s.bufOf 9) (s.slotFrame 9).data.length).filter s.isPoison = []) ∧
    (let s := prt 0 { attempt := some { beacon := false, slot := 9, sof := 0 } } (active 0 1 ++ [(BT_STAT_BSTATE 0, 4)])
     s.bstate 0 = 4 ∧ (s.port 0).attempt = some { beacon := false, slot := 9, sof := 0 } ∧ s.isEth 0 = false ∧
      (s.slotHid 9).stop = none ∧ s.flag (MOP_DESC_DL_EN 9) = false) ∧
    (let a : Attempt := { beacon := true, slot := 3, sof := 0 }
     let s := prt 0 { attempt := some a, beaconWait := some 3 } (active 0 1 ++ [(BT_STAT_BSTATE 0, 4)])
     (s.port 0).attempt = some a ∧ s.isEth 0 = false ∧ (s.port 0).beaconWait = some a.slot ∧
      switched (s.attemptFrame 0 a) = false) ∧
    (let a : Attempt := { beacon := false, slot := 9, sof := 0 }
     let s := prt 0 { attempt := some a } (active 0 3 ++ [(BT_STAT_BSTATE 0, 4), (MOP_DESC_FMT 9, 1), (MOP_DESC_BRS 9, 1),
       (BT_CFG_BRS_EN 0, 1), (BT_TDC_TDCF 0, 8), (BT_TDC_VMAX 0, 8)])
     (s.port 0).attempt = some a ∧ switched (s.attemptFrame 0 a) = true ∧ s.isEth 0 = false ∧ s.flag (BT_STAT_PHASE 0) = false ∧
      [7, 8].find? (fun v => decide (s.get (BT_TDC_TDCF 0) ≤ v)) = some 8 ∧ 8 ≤ s.get (BT_TDC_VMAX 0)) := by decide +kernel

theorem witness_EngineEvents :
    (let s := up (active 0 1 ++ [(BT_STAT_BSTATE 0, 6)])
     s.bstate 0 = 6 ∧ (s.port 0).opPending = none ∧ s.flag (ECF_STAT_QPEND 0) = false) ∧
    (up (active 0 1 ++ [(BT_STAT_BSTATE 0, 1)])).bstate 0 = 1 ∧ (up (active 0 1)).isEth 0 = false ∧
    (let s := prt 0 { beaconNext := some 0 } [(BT_BCN_CFG_EN 0, 1)]
     (s.port 0).beaconNext = some 0 ∧ 0 ≤ s.now ∧ s.flag (BT_BCN_CFG_EN 0) = true ∧ (s.port 0).beaconWait = none) ∧
    (let s := up (active 127 6 ++ [(BT_PLCA_NODE_ID 127, 1)])
     s.plca 127 = true ∧ s.get (BT_PLCA_NODE_ID 127) ≠ 0 ∧ s.flag (BT_PLCA_STAT_OK 127) ≠ true) ∧
    (let s := up (active 127 6 ++ [(BT_STAT_BSTATE 127, 2), (BT_PLCA_NODE_ID 127, 0)])
     s.plca 127 = true ∧ s.get (BT_PLCA_NODE_ID 127) = 0 ∧ s.bstate 127 ≠ 0) ∧
    (let s := prt 0 { attempt := some { beacon := false, slot := 9, sof := 0 }, collisions := 14 }
        (active 0 6 ++ [(LP_CFG_P2P 0, 1)])
     (s.port 0).attempt.isSome = true ∧ s.isEth 0 = true ∧ s.flag (LP_CFG_P2P 0) = true ∧ (s.port 0).collisions < 15 ∧
      (s.port 0).opPending = none ∧ s.flag (ECF_STAT_QPEND 0) = false ∧
      (s.slotHid 9).stop = none ∧ s.flag (MOP_DESC_DL_EN 9) = false) ∧
    ((up []).ready (lineBit 127) = true ∧ (up []).bstate 127 = 0 ∧ 2 ≤ (up [(BT_STAT_BSTATE 127, 2)]).bstate 127) ∧
    (let s := prt 0 { opPending := some 2 } [(BT_STAT_BSTATE 0, 3)]
     (s.port 0).opPending = some 2 ∧ (s.port 0).attempt = none ∧ s.bstate 0 = 3 ∧ s.flag (ECF_STAT_QPEND 0) = false) := by decide +kernel

/-- Witnesses of RecoverySteps and of QuarantineAndSlope. -/
theorem witness_RecoveryAndQuarantine :
    (let s := up (active 0 1 ++ [(ECF_STAT_RSTEP 0, 1)])
     s.get (ECF_STAT_RSTEP 0) = 1 ∧ (s.port 0).holdEnd ≤ s.ticks ∧ s.get (LP_WIRE_LIVE 0) = 0 ∧ s.get (LP_STATE_PSTATE 0) = 1) ∧
    (let s := up (active 127 1 ++ [(ECF_STAT_ESTATE 127, 2), (ECF_STAT_RSTEP 127, 3)])
     s.isCan 127 = true ∧ s.get (ECF_STAT_ESTATE 127) = 2 ∧ s.get (ECF_STAT_RSTEP 127) = 3 ∧ s.ready (lineBit 127) = true) ∧
    (up (active 0 6)).isCan 0 = false ∧ (up (active 0 1)).get (ECF_STAT_ESTATE 0) ≠ 2 ∧
    (up [(ECF_STAT_SEQ 0, 126)]).get (ECF_STAT_SEQ 0) < 127 ∧
    (let s := up (active 0 1 ++ [(ECF_STAT_RSTEP 0, 2), (BT_STAT_BSTATE 0, 7), (ECF_STAT_SEQ 0, 127)])
     s.get (ECF_STAT_RSTEP 0) = 2 ∧ s.get (ECF_STAT_SEQ 0) = 127 ∧ s.bstate 0 = 7 ∧ s.flag (ECF_STAT_QPEND 0) = false ∧ (s.port 0).opPending = none) ∧
    (let s := up (active 0 1 ++ [(BT_STAT_BSTATE 0, 2)])
     s.isCan 0 = true ∧ s.flag (ECF_STAT_QPEND 0) = false ∧ s.get (ECF_STAT_RSTEP 0) ≠ 4 ∧ s.bstate 0 = 2) ∧
    (up (active 0 1 ++ [(BT_STAT_BSTATE 0, 3)])).bstate 0 = 3 ∧
    (let s := up (active 0 1 ++ [(ECF_STAT_QPEND 0, 1), (BT_STAT_BSTATE 0, 3)])
     s.flag (ECF_STAT_QPEND 0) = true ∧ s.bstate 0 ≠ 0 ∧ (s.port 0).attempt = none ∧ (s.port 0).opPending = none) ∧
    ((up []).slopeSum 0 ((0 :: ((up []).port 0).slopeT).take 256) < max 1 ((up []).get (ECF_SLOPE_TH 0) / 2)) ∧
    (let s := prt 0 { slopeT := [1] } [(ECF_SLOPE_WIN 0, 2)]
     max 1 (s.get (ECF_SLOPE_TH 0) / 2) ≤ s.slopeSum 0 ((0 :: (s.port 0).slopeT).take 256)) := by decide +kernel

/-! ## Line observation and the store -/

theorem witness_ObservationCommands :
    ((up []).serves 18 ∧ (up []).ready (lineBit 127) = true) ∧
    (let s := up (active 127 1 ++ [(OBS_CFG_NSLOT 127, 32)])
     s.get (OBS_STAT_CEN 127) ≠ 1 ∧ s.get (OBS_CFG_NSLOT 127) ≠ 0 ∧ s.frontEnd 127 = true ∧ s.sndBusy 127 = false ∧
      s.sndPermitted 127 = true ∧ s.get (OBS_STAT_ENR 127) ≠ 1 ∧ s.capOn 127 = false ∧ s.get (OBS_CAP_STAT_STATE 127) = 0) ∧
    ((up []).get (OBS_CFG_NSLOT 0) = 0 ∧ (up []).sndPermitted 0 = false) ∧
    (let s := up [(OBS_STAT_CEN 0, 1), (OBS_SND_STAT_STATE 0, 3), (OBS_STAT_ENR 0, 1), (OBS_CAP_CFG_MODE 0, 2),
        (OBS_CAP_STAT_STATE 0, 1), (OBS_CAP_CFG_TRIG 0, 32)]
     s.get (OBS_STAT_CEN 0) = 1 ∧ s.sndBusy 0 = true ∧ s.get (OBS_STAT_ENR 0) = 1 ∧ s.get (OBS_CAP_CFG_MODE 0) = 2 ∧
      s.get (OBS_CAP_STAT_STATE 0) = 1 ∧ (s.get (OBS_CAP_CFG_TRIG 0)).testBit 5 = true) ∧
    (let s := up [(OBS_CAP_CFG_MODE 0, 1)]
     s.capOn 0 = true ∧ s.get (OBS_CAP_STAT_STATE 0) = 0) ∧
    2 ≤ (up [(OBS_CAP_STAT_STATE 0, 2)]).get (OBS_CAP_STAT_STATE 0) := by
  refine ⟨⟨⟨by decide +kernel, by decide +kernel⟩, by decide +kernel⟩, ?_⟩; decide +kernel

/-- A state with one port's observation and one die's sounding units. -/
def obs (n : Nat) (o : ObsPort) (d : Nat) (u : Sounding) (l : List (Loc × Nat)) : State :=
  { up l with obs := { ports := [(n, o)], dies := [(d, u)] } }

/-- Witnesses of SoundingRuns and of CensusAndCapture. -/
theorem witness_SoundingCensusCapture :
    (let s := obs 0 {} 1 { queue := [(7, 127), (9, 126)], units := [(0, some (64, 1)), (1, some (65, 1)), (2, some (66, 1))] } []
     (s.sounding 1).queue = (7, 127) :: [(9, 126)] ∧ (s.sounding 1).unit 3 = none ∧ ∀ j < 3, (s.sounding 1).unit j ≠ none) ∧
    (let s := obs 0 {} 1 { units := [(3, some (127, 0))], traces := [(3, { count := 31 })] } [(OBS_SND_STAT_STATE 127, 2)]
     let s := { s with time := { ticks := 500000000 } }
     (s.sounding (dieOf 127)).unitOf 127 = some 3 ∧ s.get (OBS_SND_STAT_STATE 127) = 2 ∧
      ((s.sounding (dieOf 127)).trace 3).count + [List.replicate 256 (0 : Int)].length ≤ ((s.sounding (dieOf 127)).trace 3).whole ∧
      (s.sounding (dieOf 127)).unit 3 = some (127, 0) ∧ 0 + 500000000 ≤ s.ticks) ∧
    (up [(OBS_SND_STAT_STATE 127, 3)]).get (OBS_SND_STAT_STATE 127) = 3 ∧
    (let s := up [(OBS_STAT_CEN 127, 1), (OBS_CEN_STAT_SLOT 127, 30), (OBS_CFG_NSLOT 127, 32), (OBS_CFG_DWELL 127, 0)]
     s.get (OBS_STAT_CEN 127) = 1 ∧ s.get (OBS_CEN_STAT_SLOT 127) = 30 ∧ 30 + 1 < s.get (OBS_CFG_NSLOT 127) ∧
      s.get (OBS_CFG_NSLOT 127) ≤ 32 ∧ s.cenTime 127 30 ≤ s.now ∧ s.seen 127 30 = [] ∧
      s.receivingFrom 127 (s.cenTime 127 30) = false) ∧
    (let s := obs 0 { seen := [(0, [5, 3])] } 0 {} [(OBS_STAT_CEN 0, 1), (OBS_CFG_NSLOT 0, 2), (OBS_CFG_DWELL 0, 1), (OBS_CEN_RES_PREV 0 0, 3),
        (OBS_CEN_RES_SILENCE 0 0, 1)]
     let s := { s with time := { ns := 1000000 } }
     s.get (OBS_CEN_STAT_SLOT 0) = 0 ∧ 0 + 1 < s.get (OBS_CFG_NSLOT 0) ∧ s.cenTime 0 0 ≤ s.now ∧ s.seen 0 0 = 5 :: [3] ∧
      5 ≤ s.cenTime 0 0 ∧ s.cenTime 0 0 ≤ 5 + s.get (OBS_CEN_RES_SILENCE 0 0) * 1000000 ∧ s.get (OBS_CEN_RES_PREV 0 0) = 3) ∧
    (let s := up [(OBS_CAP_STAT_STATE 0, 2), (OBS_CAP_CFG_MODE 0, 1)]
     2 ≤ s.get (OBS_CAP_STAT_STATE 0) ∧ s.capStream 0 = false ∧ (s.obsPort 0).capStop = false ∧ s.get (OBS_CAP_CFG_MODE 0) = 1 ∧
      s.frontEnd 0 = false) ∧
    (let s := obs 0 { capLeft := 1 } 0 {} (active 0 1 ++ [(OBS_CAP_STAT_STATE 0, 2), (OBS_CAP_CFG_MODE 0, 2), (OBS_CAP_CFG_DEC 0, 3)])
     s.frontEnd 0 = true ∧ 2 ≤ s.get (OBS_CAP_STAT_STATE 0) ∧ 2 ^ s.get (OBS_CAP_CFG_DEC 0) ≤ (List.replicate 8 (0 : Int)).length ∧
      s.get (OBS_CAP_CFG_MODE 0) = 2 ∧ 0 < (s.obsPort 0).capLeft) := by decide +kernel

/-- Pool 1023 of a kind and an owner, over slots 65520 to 65535, the last one in a state, on port 127. -/
def pool (kind owner state : Nat) (l : List (Loc × Nat)) : State :=
  up ([(MOP_POOL_CFG0_BASE 1023, 65520), (MOP_POOL_CFG0_COUNT_M1 1023, 15), (MOP_POOL_CFG1_KIND 1023, kind),
    (MOP_POOL_CFG1_OWNER 1023, owner), (MOP_POOL_CFG1_PORT 1023, 127), (MOP_DESC_STATE 65535, state)] ++ l)

theorem witness_DescriptorWrites :
    ((up []).serves 14 ∧ (up []).poolOf 0 = none) ∧
    ((pool 3 63 0 []).poolOf 65535 = some 1023 ∧ (pool 3 63 0 []).get (MOP_POOL_CFG1_OWNER 1023) ≠ 64) ∧
    (let s := pool 3 64 4 []
     s.poolOf 65535 = some 1023 ∧ s.get (MOP_POOL_CFG1_OWNER 1023) = 64 ∧ s.get (MOP_POOL_CFG1_KIND 1023) = 3 ∧
      2 ≤ s.get (MOP_DESC_STATE 65535) ∧ s.get (MOP_DESC_STATE 65535) ≤ 4) ∧
    (pool 3 64 1 []).get (MOP_DESC_STATE 65535) < 2 ∧ 4 < (pool 3 64 5 []).get (MOP_DESC_STATE 65535) ∧
    (up [(MOP_ERR_VALID, 1)]).flag MOP_ERR_VALID = true ∧ (up []).flag MOP_ERR_VALID = false := by
  refine ⟨⟨⟨by decide +kernel, by decide +kernel⟩, by decide +kernel⟩, ?_⟩; decide +kernel

theorem witness_SlotCommands :
    ((up []).serves 14 ∧ (up []).poolOf 0 = none ∧ (pool 3 63 0 []).get (MOP_POOL_CFG1_OWNER 1023) ≠ 64) ∧
    (let s := pool 1 64 5 []
     s.poolOf 65535 = some 1023 ∧ s.get (MOP_POOL_CFG1_KIND 1023) ≠ 3 ∧ s.get (MOP_DESC_STATE 65535) = 5) ∧
    (let s := pool 3 64 1 []
     s.poolOf 65535 = some 1023 ∧ s.copyOf 65535 = none ∧ s.get (MOP_DESC_STATE 65535) = 1 ∧ s.awaitsLayout 1023 = false ∧
      (s.queueCheck 1023 65535).isSome = true) ∧
    (let s := pool 3 64 1 [(LP_CFG_MODE 127, 1), (MOP_DESC_TAG 65535, 9)]
     let w (x : Tag) : State := { s with store := { tags := [(1023, [x])] } }
     s.queueCheck 1023 65535 = none ∧ s.findTag 1023 65535 = none ∧ s.copyOf 65535 = none ∧ s.awaitsLayout 1023 = false ∧
      (w { tag := 9, slot := 65520 }).findTag 1023 65535 = some { tag := 9, slot := 65520 } ∧
      (w { tag := 9, slot := 65520, result := some (7, 255, 0, 0) }).findTag 1023 65535 =
        some { tag := 9, slot := 65520, result := some (7, 255, 0, 0) } ∧
      (w { tag := 9, slot := 65520 }).queueCheck 1023 65535 = none) ∧
    (let s := pool 3 64 2 []
     s.get (MOP_DESC_STATE 65535) = 2 ∧ s.copyOf 65535 = none ∧ (List.range 128).all (fun n => s.headSlot n != some 65535) = true) ∧
    (let s : State := { pool 3 64 4 [(MOP_DESC_PORT 65535, 127)] with
        ports := [(127, { attempt := some { beacon := false, slot := 65535, sof := 0 } })] }
     s.get (MOP_DESC_STATE 65535) = 4 ∧ s.idleSlot 65535 = false) := by
  refine ⟨⟨⟨by decide +kernel, by decide +kernel⟩, by decide +kernel⟩, ?_⟩; decide +kernel

theorem witness_SelectionAndMonitors :
    (let s := pool 3 64 2 (active 127 1 ++ [(BT_STAT_BSTATE 127, 2)])
     s.ready 14 = true ∧ s.bstate 127 = 2 ∧ s.canSend 127 = true ∧ s.flag (MOP_PORTHEAD_VALID 127) = false ∧ (s.port 127).attempt = none ∧
      s.nextRequest 127 = some 65535) ∧
    (let s := pool 3 64 2 [(MOP_DESC_DL_EN 65535, 1)]
     s.flag (MOP_DESC_DL_EN 65535) = true ∧ s.get (MOP_DESC_STATE 65535) = 2 ∧ dueAt s.now (s.slotStamp32 65535) = true ∧
      (s.slotHid 65535).dupOf = none ∧ (List.range 128).all (fun n => s.headSlot n != some 65535) = true ∧
      s.copyOf 65535 = none) ∧
    (let s := up [(MOP_DESC_DL_EN 0, 1), (MOP_DESC_STATE 0, 2), (MOP_DESC_W 0 6, 1)]
     s.flag (MOP_DESC_DL_EN 0) = true ∧ s.get (MOP_DESC_STATE 0) = 2 ∧ dueAt s.now (s.slotStamp32 0) = false) ∧
    (pool 2 64 0 []).ownMailbox .host 65535 = true ∧ (up []).ownMailbox .host 0 = false ∧
    (let s := pool 2 64 0 [(MOP_MON_CFG_EN 4095, 1), (MOP_MON_CFG_SLOT 4095, 65535)]
     s.flag (MOP_MON_CFG_EN 4095) = true ∧ s.monNext 4095 ≤ s.now ∧ s.monHeld 4095 = false ∧ s.poolOf (s.get (MOP_MON_CFG_SLOT 4095)) = some 1023 ∧
      s.flag (MOP_MON_CFG_ONESHOT 4095) = false) ∧
    (let s : State := { pool 3 64 0 [(MOP_POOL_CFG1_FSP 1023, 255)] with store := { relayout := [(255, 1, 2, 3, [0])] } }
     s.store.relayout.find? (·.1 == 255) = some (255, 1, 2, 3, [0]) ∧ s.inTransit (s.get (MOP_POOL_CFG1_PORT 1023)) = false ∧
      s.inTransit 0 = false ∧ s.bufsBack 255 = true ∧
      (s.put (transLoc 127) true).inTransit ((s.put (transLoc 127) true).get (MOP_POOL_CFG1_PORT 1023)) = true) := by decide +kernel

/-! ## Catalogue and gateway -/

/-- Witnesses of CatalogueSearches and of LiveUpdateInstant. -/
theorem witness_SearchesAndUpdateInstants :
    ((up []).fallback (dieOf 127) = false ∧ (up (active 127 5)).portCarries 127 fmtXL = true ∧
      ({ fmt := fmtXL, id := 5, len := 8 } : Frame).fmt ≠ fmtEth) ∧
    (let sr : Search := { sof := 4, cands := [{ fmt := fmtXL, rmt := false, entry := none }] }
     let s := prt 127 { search := some sr } (active 127 5)
     s.fallback (dieOf 127) = false ∧ (s.port 127).search = some sr) ∧
    (let c : CatCmd := { req := 64, code := 1, table := 255, idx := 32767, words := List.replicate 8 5 }
     let s : State := { up [] with cat := { order := [c] } }
     let t : State := { up [] with cat := { order := [c], applied := some (9, 32767, []) } }
     s.cat.order = c :: [] ∧ c.idx < 32768 ∧ c.req ≤ 64 ∧ s.cat.applied = none ∧ t.cat.applied = some (9, 32767, [])) ∧
    (let sr : Search := { sof := 4, cands := [], xl := true }
     (prt 127 { search := some sr } (active 127 5)).port 127 = { search := some sr } ∧ sr.xl = true) := by
  decide +kernel

/-- Table 255 of the host, with 8 ordered entries at the end of the store or one bucket of 4 entries at index 0. -/
def table (hash : Nat) (l : List (Loc × Nat)) : State :=
  up ([(CAT_TBL_CFG0_VALID 255, 1), (CAT_TBL_CFG1_UPD_OWNER 255, 64), (CAT_TBL_CFG0_HASH 255, hash),
    (CAT_TBL_CFG0_BASE 255, if hash = 1 then 0 else 32760), (CAT_TBL_CFG1_NORD 255, if hash = 1 then 0 else 8),
    (CLU_CFG_ASSIGNED 0, 1), (CAT_UPD_IDX_INDEX 64, 32767), (CAT_UPD_W_W 64 0, 1), (CAT_UPD_W_W 64 6, 3 * 2 ^ 16)] ++ l)

theorem witness_LiveUpdateCommands :
    ((up []).ready 13 = true ∧ (up []).ended = false ∧ (∀ c ∈ (up []).cat.order, c.req ≤ 64) ∧
      (∀ c ∈ (up []).cat.order, c.req ≠ 64) ∧ (up []).catCommon 64 255 = some 2 ∧ 2 < 16) ∧
    (let s : State := { up [] with cat := { order := [{ req := 64, code := 1, table := 0, idx := 0, words := [] }] } }
     (∀ c ∈ s.cat.order, c.req ≤ 64) ∧ (s.cat.order.any fun c => c.req == 64) = true) ∧
    (let s := table 0 []
     s.catCommon 64 255 = none ∧ (s.tableOf 255).inTable 32767 = true ∧ (s.tableOf 255).inTable 32759 = false ∧
      (s.tableOf 255).inOrdered 32767 = true ∧ s.get (CAT_ENTRY_KIND 32767) = 0 ∧
      s.entryCheck (s.tableOf 255) 32767 (s.staged 64) = none ∧
      ¬(bitsOf (s.staged 64 0) 0 3 = 1 ∧ (s.tableOf 255).hash = true)) ∧
    ((table 0 [(CAT_UPD_W_W 64 6, 0)]).entryCheck ((table 0 []).tableOf 255) 32767
      ((table 0 [(CAT_UPD_W_W 64 6, 0)]).staged 64) = some 0x0505) ∧
    ((table 0 [(CAT_ENTRY_KIND 32767, 1)]).get (CAT_ENTRY_KIND 32767) = 1 ∧ 1 < (table 0 [(CAT_ENTRY_KIND 32767, 2)]).get (CAT_ENTRY_KIND 32767) ∧
      bitsOf ((table 0 [(CAT_UPD_W_W 64 0, 2)]).staged 64 0) 0 3 ≠ 1) ∧
    (let s := table 1 [(CAT_ENTRY_KIND 0, 2)]
     s.catCommon 64 255 = none ∧ bitsOf (s.staged 64 0) 0 3 = 1 ∧ (s.tableOf 255).hash = true ∧
      s.entryCheck (s.tableOf 255) 32768 (s.staged 64) = none ∧
      (s.tableOf 255).ways (bitsOf (s.staged 64 0) 7 1 = 1) (bitsOf (s.staged 64 1) 0 29) = [0] ++ 1 :: [2, 3] ∧
      (∀ x ∈ [0], s.get (CAT_ENTRY_KIND x) ≠ 0) ∧ s.get (CAT_ENTRY_KIND 1) = 0) ∧
    (let s := table 1 [(CAT_ENTRY_KIND 0, 2), (CAT_ENTRY_KIND 1, 2), (CAT_ENTRY_KIND 2, 2), (CAT_ENTRY_KIND 3, 2)]
     ∀ j ∈ [0, 1, 2, 3], s.get (CAT_ENTRY_KIND j) ≠ 0) := by
  decide +kernel

/-- A frame that waits in slot 65535 of RX pool 1023, of route 1023 with the one leg 1023 into TX pool 0 (slot 0). -/
def inbound (dup : Bool) (l : List (Loc × Nat)) : State :=
  { pool 1 65 5 ([(GW_RT_LEGS_FIRST 1023, 1023), (GW_LEG_CFG_KIND 1023, 1), (GW_LEG_CFG_POOL 1023, 0),
      (MOP_POOL_CFG1_KIND 0, 3), (MOP_POOL_CFG1_OWNER 0, 65), (GW_RT_H_NS 1023, 1000)] ++ l) with
    gw := { waiting := [{ slot := 65535, route := 1023, port := 127, dup := dup, sof := 0 }] } }

def tun (l : List (Loc × Nat)) (m : Nat) : State :=
  { up ([(GW_TUN_CFG_IN 63, 1), (GW_TUN_SID_SID 63, 7)] ++ l) with gw := { tunMap := [(63, m)] } }

/-- Witnesses of IngressSteps and of TunnelWindow. -/
theorem witness_IngressAndTunnels :
    (let s := inbound true [(MOP_DESC_TAINT 65535, 1), (GW_RT_CFG_DUP_EOF 1023, 1)]
     s.gw.waiting.find? (·.slot == 65535) = some { slot := 65535, route := 1023, port := 127, dup := true, sof := 0 } ∧
      s.gwUsable = true ∧ (∀ v ∈ s.gw.waiting, 0 ≤ v.sof) ∧
      s.poolOf 65535 = some 1023 ∧ s.flag (MOP_DESC_TAINT 65535) = true ∧ s.flag (GW_RT_CFG_TAINT_OK 1023) = false ∧
      s.flag (GW_RT_CFG_DUP_EOF 1023) = true ∧ 1023 ∉ s.gw.notStarted) ∧
    (let s := inbound false [(GW_RT_H_NS 1023, 0)]
     s.flag (MOP_DESC_TAINT 65535) = false ∧ s.windowM 1023 ≤ 0) ∧
    (inbound false [(⟨0x10, 14, 1⟩, 0)]).gwUsable = false ∧
    (let s := inbound false []
     s.poolOf 65535 = some 1023 ∧ s.windowM 1023 = 1 ∧ smapFind (fun _ => []) s.gw.accepted 1023 = [] ∧ s.gw.copies = [] ∧
      s.legsOf 1023 = [1023] ∧ s.get (GW_LEG_CFG_KIND 1023) = 1 ∧
      s.legSlot (s.copyFor 1023 1023 (s.slotFrame 65535) 0 127 0 false false false) = some 0 ∧
      s.late (0 + s.get (GW_RT_H_NS 1023)) = false) ∧
    ((up []).gwUsable = true ∧ (up [(⟨0x10, 15, 1⟩, 0)]).gwUsable = false ∧ (tun [] 0).flag (GW_TUN_SEQ_HV 63) = false ∧ (tun [] 0).flag (GW_TUN_CFG_IN 63) = true ∧
      (tun [] 0).get (GW_TUN_SID_SID 63) = 7 ∧ (tun [] 0).get (GW_TUN_SID_SID 62) ≠ 7) ∧
    (let s := tun [(GW_TUN_SEQ_HV 63, 1), (GW_TUN_SEQ_HI 63, 255)] (2 ^ 63 + 1)
     s.flag (GW_TUN_SEQ_HV 63) = true ∧ s.get (GW_TUN_SEQ_HI 63) = 255 ∧ (s.tunMap 63).testBit 63 = true ∧
      (s.tunMap 63).testBit 62 = false ∧ (126 + 256 - 255) % 256 = 127 ∧ (192 + 256 - 255) % 256 = 193 ∧
      (255 + 256 - 192) % 256 = 63 ∧ (255 + 256 - 191) % 256 = 64 ∧
      smapFind (fun _ => 0) s.gw.tunTick 63 + 50000000 ≤ ({ s with time := { ticks := 50000000 } } : State).ticks ∧
      s.ticks < smapFind (fun _ => 0) s.gw.tunTick 63 + 50000000) := by
  refine ⟨?_, ?_, ?_, ?_, ?_, ?_⟩ <;> decide +kernel

/-- One copy of a leg. -/
def copying (c : Copy) (l : List (Loc × Nat)) : State := { pool 3 65 1 l with gw := { copies := [c] } }

theorem witness_ReleaseAndBreachWindows :
    (up []).gw.copies.filter (fun c => c.target == 199) = [] ∧
    (let c : Copy := {
        route := 1, leg := 1023, attr := { kind := 1, pool := 1023 }, idx := 0, target := 127, release := 0, stamp := 0,
        source := 0, key := 0, slot := some 65535, frame := { fmt := 0, id := 1, len := 0 }, state := .staged }
     let s := copying c [(LP_CFG_MODE 127, 1)]
     (s.gw.copies.filter fun c => s.gwUsable && c.target == 127 && c.state == .staged && !c.isRemote && s.released c) = [c] ∧
      s.awaitsLayout c.attr.pool = false ∧ s.queueCheck c.attr.pool 65535 = none ∧
      s.get (MOP_POOL_CFG1_OWNER c.attr.pool) = 65) ∧
    (let c : Copy := {
        route := 1, leg := 0, attr := { kind := 2 }, idx := 0, target := 191, release := 0, stamp := 0, source := 0, key := 0,
        frame := { fmt := 0, id := 1, len := 0 }, state := .staged }
     let s := copying c []
     (s.gw.copies.filter fun c => s.gwUsable && c.target == 191 && c.state == .staged && !c.isRemote && s.released c) = [c]) ∧
    (let c : Copy := {
        route := 1, leg := 1023, attr := { kind := 2, depth := 1 }, idx := 0, target := 191, release := 1, stamp := 0,
        source := 0, key := 0, frame := { fmt := 0, id := 1, len := 0 }, state := .waiting, breached := true }
     let s := copying c []
     (s.gw.copies.find? fun c => c.leg == 1023 && c.state == .waiting) = some c ∧ s.gwUsable = true ∧
      s.get (GW_LEG_Q_INUSE 1023) < c.attr.depth ∧ s.released c = false ∧
      c.attr.depth ≤ (copying c [(GW_LEG_Q_INUSE 1023, 1)]).get (GW_LEG_Q_INUSE 1023) ∧
      ∀ c ∈ s.gw.copies, c.leg ≠ 0 ∨ c.state ≠ .waiting) ∧
    (let s := up [(GW_EQ_STAT_BRW 199, 1)]
     s.flag (GW_EQ_STAT_BRW 199) = true ∧ s.holdsWindow 199 = false) ∧ (up []).flag (GW_EQ_STAT_BRW 0) = false := by
  decide +kernel

/-! ## Engines and halls -/

/-- One engine in a state, with its hidden half; clusters 0 and 127 belong to station 5. -/
def eng (e state : Nat) (v : Engine) (l : List (Loc × Nat)) : State :=
  { up ([(ENG_STAT_STATE e, state), (CLU_CFG_ASSIGNED 0, 1), (CLU_CFG_STATION 0, 5), (CLU_CFG_ASSIGNED 127, 1),
      (CLU_CFG_STATION 127, 5)] ++ l) with cores := { engines := [(e, v)] } }

/-- Witnesses of EngineCommands and of InterruptsAndReturns. -/
theorem witness_EnginesRunAndTrap :
    ((up []).rgnReady (1023 / 64) = true ∧ (up []).ended = false ∧ (eng 1023 1 {} []).estate 1023 = 1 ∧
      (eng 1023 3 {} []).estate 1023 = 3 ∧ (eng 1023 4 {} []).estate 1023 = 4 ∧ (up []).estate 1023 = 0 ∧
      (eng 1023 1 {} []).sameStation (.engine 8) 1023 = false) ∧
    (let s := eng 1023 3 { csr := [(csrMstatus, 8), (csrMie, 128)] } [(ENG_CFG_TEN 1023, 1)]
     s.flag (ENG_CFG_TEN 1023) = true ∧ dueAt s.now (s.get (ENG_TCMP_NS 1023)) = true ∧
      s.mip 1023 &&& ((s.engine 1023).getCsr csrMie).toNat = 128 ∧ s.estate 1023 = 3 ∧
      bitsOf ((s.engine 1023).getCsr csrMstatus) 3 1 = 1) ∧
    (let s := eng 0 2 { user := true, csr := [(csrMstatus, 0x200000)] } []
     s.estate 0 = 2 ∧ (s.engine 0).user = true ∧ bitsOf ((s.engine 0).getCsr csrMstatus) 21 1 = 1) ∧
    (let s := eng 0 2 {} [(LEDG_RING_CFG_TARGET 0, 1024)]
     s.estate 0 = 2 ∧ (s.engine 0).user = false ∧ s.mip 0 &&& ((s.engine 0).getCsr csrMie).toNat = 0) ∧
    (let s := eng 1023 2 {} []
     ∀ k < 64, s.get (LEDG_RING_CFG_TARGET k) ≠ 1023) ∧ (up []).rgnReady (127 / 8) = true := by decide +kernel

/-- Witnesses of ClusterLocksAndSram and of CacheCommands. -/
theorem witness_LocksSramAndCaches :
    ((up []).rgnReady (127 / 8) = true ∧ (up []).ended = false ∧ 1023 / 8 = 127 ∧
      (up []).regPmp 1023 (CLU_LOCK_CMD 127 63).addr true = true) ∧
    ((up []).holds 127 63 7 = false ∧ (up []).waitsFor 127 63 7 = false ∧ (up []).flag (CLU_LOCK_HELD 127 63) = false ∧
      (up []).get (CLU_LOCK_WAIT 127 63) = 0 ∧ (up []).clusterHalted 127 = true) ∧
    (let s := up [(CLU_LOCK_HELD 127 63, 1), (CLU_LOCK_HOLDER 127 63, 7), (CLU_LOCK_BROKEN 127 63, 1)]
     s.holds 127 63 7 = true ∧ s.get (CLU_LOCK_WAIT 127 63) = 0 ∧ s.flag (CLU_LOCK_BROKEN 127 63) = true ∧
      s.holds 127 63 0 = false ∧ s.waitsFor 127 63 0 = false ∧ s.flag (CLU_LOCK_HELD 127 63) = true) ∧
    (let s := up [(CLU_LOCK_HELD 0 0, 1), (CLU_LOCK_WAIT 0 0, 129)]
     s.holds 0 0 0 = true ∧ s.get (CLU_LOCK_WAIT 0 0) ≠ 0 ∧ s.waitsFor 0 0 7 = true) ∧
    (eng 1023 2 {} []).clusterHalted 127 = false ∧
    (let v : L1Line := { mesi := 2, data := List.replicate 64 3 }
     let s := eng 0 2 { l1 := [(0x3FFFFC0, some v)] } [(CLU_WIN_A_VALID 0 7, 1), (CLU_WIN_A_R 0 7, 1),
        (CLU_WIN_A_GROUPS 0 7, 255), (CLU_WIN_B_LAST 0 7, 0x3FFF)]
     s.estate 0 = 2 ∧ s.cleanTarget 0 0x83FFFFFF = some 0x3FFFFC0 ∧ s.l1 0 0x3FFFFC0 = some v ∧ v.mesi = 2 ∧
      v.data.length = 64 ∧ s.cleanTarget 0 0x84000000 = none) ∧
    (roundRobin ((up []).region 15).lastWinner [63, 0]).length = 2 ∧ (roundRobin 0 [63]).length < 2 := by decide +kernel

/-- An access of an Xfly instruction of engine 0 that is answered at once and leaves the instruction in progress, from a state
that loading the CSRs gives. -/
def loads (b : Option State) (acc : State → XfRes × Nat) : Bool :=
  match b with
  | some s => match acc s with
    | (.go u, _) => u.xBusy 0
    | _ => false
  | none => false

/-- Witnesses of XflyStartAndEnd and of XflyElements. -/
theorem witness_XflyInstructions :
    (let s := eng 1023 2 {} []
     s.estate 1023 = 2 ∧ bitsOf (s.xcsr 1023 csrXFST) 0 1 = 0 ∧ ((s.engine 1023).getX 31).toNat % 2 ^ 3 = 0 ∧
      (s.engine 1023).getX 31 = 0) ∧
    (let s := eng 0 2 { x := [(10, 16), (11, 0x11000000), (12, 0x11000000)] } []
     (s.engine 0).getX 10 ≠ 0 ∧ ((s.engine 0).getX 10).toNat ≤ 16 ∧ ((s.engine 0).getX 11).toNat % 8 = 0) ∧
    (let s := eng 0 2 { x := [(1, 17), (2, 1)] } []
     16 < ((s.engine 0).getX 1).toNat ∧ ((s.engine 0).getX 2).toNat % 2 ^ 1 ≠ 0 ∧ ((s.engine 0).getX 2).toNat % 4 ≠ 0) ∧
    (let s := eng 0 2 { csr := [(csrXFST, 1)] } []
     bitsOf (s.xcsr 0 csrXFST) 0 1 = 1 ∧ bitsOf (s.xcsr 0 csrXFST) 2 3 ≠ 4 ∧ bitsOf (s.xcsr 0 csrXFST) 5 2 ≠ 2) ∧
    (let s := eng 0 2 { x := [(10, 1), (11, 0x1101FFF8), (12, 0x11000000)] } []
     let src := ((s.engine 0).getX 11).toNat
     src % 2 ^ 3 = 0 ∧ ((s.engine 0).getX 12).toNat % 2 ^ 3 = 0 ∧ (s.engine 0).getX 10 = 1 ∧
      loads (s.xBegin 0 0 2 1 src 7 csrXFARG) (fun t => t.xLoad 0 src 4) = true ∧
      loads (s.xBegin 0 1 3 1 src ((s.engine 0).getX 12) csrXFDST) (fun t => match t.xLoad 0 src 8 with
        | (.go u, w) => u.xStore 0 (u.xcsr 0 csrXFDST).toNat (leBytes 8 w)
        | r => r) = true) ∧
    (let s := eng 0 2 { x := [(10, 16), (11, 0x11000000), (12, 255)] } [(VIT_SLOT_STATE 255, 1), (VIT_SLOT_LC 255, 31),
        (VIT_SLOT_USE 255, 1), (VIT_SLOT_WORLD 255, 255), (VIT_SLOT_STN 255, 5)]
     let src := ((s.engine 0).getX 11).toNat
     loads (s.xBegin 0 2 1 16 src 255 csrXFARG) (fun t => if t.xKeyOk 0 then t.xLoad 0 src 16 else (.waits, 0)) = true ∧
      loads (s.xBegin 0 2 0 1 src 254 csrXFARG) (fun t => if t.xKeyOk 0 then (.waits, 0) else t.xLoad 0 src 16) = true) := by
  decide +kernel

/-- A line of which no cache holds a copy is left alone by a snoop, region by region. -/
theorem snoop_of_uncached (s : State) (l : Nat) (h : ∀ r < 16, (s.cleanRegion r l).dropLine r l = s) : s.snoop l = s := by
  have fold : ∀ rs : List Nat, (∀ r ∈ rs, r < 16) → s.each rs (fun s r => (s.cleanRegion r l).dropLine r l) = s := by
    intro rs
    induction rs with
    | nil => intro _; rfl
    | cons r rs ih =>
      intro hr
      unfold State.each at ih ⊢
      rw [List.foldl_cons, h r (hr r (by simp))]
      exact ih fun x hx => hr x (by simp [hx])
  exact fold _ fun r hr => List.mem_range.mp hr
/-- Word 1 of the halls is poisoned. -/
def poisoned : State := { up [] with halls := { poison := [(1, true)] } }

theorem poisoned_snoop : poisoned.snoop 0 = poisoned := snoop_of_uncached _ _ (by decide +kernel)
theorem up_snoop : (up []).snoop 0 = up [] := snoop_of_uncached _ _ (by decide +kernel)

theorem witness_HallAccesses :
    (let s := up []
     s.ended = false ∧ s.ready (8 + hallOf 0x3FFFFFF) = true ∧ (∀ w ∈ wordsOf 0x3FFFFFF 1, s.verdict (some 64) (max 0x3FFFFFF (w * 8)) false = 0) ∧
      (∀ w ∈ wordsOf 0x3FFFFFF 1, s.isPoison w = false) ∧
      (∀ w ∈ wordsOf 7 16, s.verdict (some 64) (max 7 (w * 8)) true = 0) ∧
      ∀ w ∈ wordsOf 7 16, s.isPoison w = false) ∧ (up []).snoop 0 = up [] ∧ poisoned.snoop 0 = poisoned ∧
    (linesOf 7 16 = [0] ∧ linesOf 8 4 = [0]) ∧
    (let s := poisoned
     (∀ w ∈ wordsOf 8 8, s.verdict (some 64) (max 8 (w * 8)) false = 0) ∧ s.firstPoison 8 8 = some 1 ∧
      s.isPoison (8 / 8) = true ∧ 8 % 8 + 4 ≤ 8) ∧
    (let s := up [(HALL_OWN_CUR 0, 127)]
     (∀ w ∈ wordsOf 0 8, s.verdict (some 64) (max 0 (w * 8)) true = 2) ∧ s.flag HALL_ERR_VALID = false ∧
      wordsOf 500 16 = [62, 63, 64] ∧ (∀ w ∈ [62, 63, 64], s.verdict (some 64) (max 500 (w * 8)) false ≠ 1 ∧ s.isPoison w = false) ∧
      s.verdict (some 64) 500 false = 0 ∧ s.verdict (some 64) 512 false = 2) ∧
    (let s := up [(HALL_OWN_CLEARING 0, 1)]
     (∀ w ∈ wordsOf 0 8, s.verdict (some 64) (max 0 (w * 8)) true = 1) ∧ s.ready (8 + hallOf 0) = true) ∧
    (st []).ready (8 + hallOf 0) = false ∧
    (let s := eng 0 2 {} [(CLU_WIN_A_VALID 0 0, 1), (CLU_WIN_A_R 0 0, 1), (CLU_WIN_A_GROUPS 0 0, 1), (HALL_OWN_CUR 0, 5)]
     s.ended = false ∧ s.ready (8 + hallOf 0) = true ∧ s.outstanding 0 = 0 ∧
      ({ s with halls := { held := [{ req := { master := .engine 1, addr := 0xA0000000, acc := .read 4 } }] } } : State).outstanding 0 = 1 ∧
      (s.set (RGN_PART_CRED 0 0) 1).get (RGN_PART_CRED 0 0) = 1 ∧
      s.estate 0 = 2 ∧ s.engineMay 0 0 1 = true ∧ s.engineMay 0 3 1 = true ∧ s.engineMay 0 64 1 = false ∧
      (s.engine 0).pmpOk 0xA0000000 4 1 = true ∧ s.stationOf 0 = some 5 ∧ s.verdict (s.stationOf 0) 0 false = 0 ∧
      s.isPoison 0 = false ∧ (s.set (HALL_OWN_CUR 0) 6).verdict (some 5) 0 false = 2) := by
  refine ⟨by decide +kernel, up_snoop, poisoned_snoop, ?_, ?_, ?_, ?_, ?_, ?_⟩ <;> decide +kernel

theorem witness_HandoverAndRevocation :
    (let s := up []
     s.ended = false ∧ s.get CHIP_READY_HALL ≠ 0 ∧ s.halls.handover = none ∧ s.halls.revoke = none ∧ 4095 < 4033 + 63) ∧
    ({ up [] with halls := { handover := some (0, 1, true) } } : State).halls.handover.isSome = true ∧
    (let s := up [(HALL_OWN_ALT 4095, 6), (HALL_OWN_ALT 4094, 127), (HALL_OWN_ALT 4093, 6), (HALL_OWN_CLEARING 4093, 1)]
     s.get (HALL_OWN_ALT 4095) ≠ 127 ∧ s.get (HALL_OWN_ALT 4094) = 127 ∧ s.flag (HALL_OWN_CLEARING 4095) = false ∧
      s.flag (HALL_OWN_CLEARING 4093) = true ∧ s.get (HALL_OWN_ALT 4093) ≠ 127 ∧ s.get IMG_STATUS_PHASE = 0 ∧
      (s.set IMG_STATUS_PHASE 5).get IMG_STATUS_PHASE = 5) ∧
    (let s : State := { up [] with halls := { handover := some (4095, 1, true) } }
     s.halls.handover = some (4095, 1, true) ∧ s.halls.held = [] ∧ 4095 + 1 ≤ 4096) ∧
    (let s : State := { up [] with halls := { revoke := some (64, 125, [4095]) } }
     s.halls.revoke = some (64, 125, [4095]) ∧ s.halls.held = []) ∧
    ((up [(HALL_OWN_CLEARING 0, 1)]).flag (HALL_OWN_CLEARING 0) = true ∧ (up []).flag (HALL_OWN_CLEARING 4095) = false) ∧
    (let s : State := { up [(HALL_TEST_CFG_EN 3, 1), (HALL_TEST_STAT_POS 3, 2097151)] with halls := { spares := [(255, 3)] } }
     s.flag (HALL_TEST_CFG_EN 3) = true ∧ s.testDue 3 = true ∧
      ({ s with halls := { tested := [(3, some 0)] } } : State).testDue 3 = false ∧ s.ready 11 = true ∧ s.pwr.state = .a0 ∧ s.get (HALL_TEST_STAT_POS 3) = 2097151 ∧
      s.flag (HALL_OWN_CLEARING (unitOf (8388607 * 8))) = false ∧
      smapFind (fun _ => 0) s.halls.spares (64 * 3 + 8388607 % 64) < 4 ∧
      4 ≤ smapFind (fun _ => 0) [(255, 4)] 255) ∧ (up []).flag (HALL_TEST_CFG_EN 0) = false := by
  refine ⟨?_, ?_, ?_, ?_, ?_, ?_, ?_, ?_⟩ <;> decide +kernel

/-! ## Time, curator, power -/

/-- A state of the package with its time unit. -/
def timed (u : TimeUnit) (l : List (Loc × Nat)) : State := { up l with time := u }

theorem witness_ClockCommands :
    ((up []).ended = false ∧ (up []).ready 4 = true ∧ (up []).time.stepReq = none) ∧
    (let s := eng 1023 2 {} [(TIME_CFG_TSTN_EN, 1), (TIME_CFG_TSTN, 5)]
     s.flag TIME_CFG_TSTN_EN = true ∧ s.stationOf 1023 = some (s.get TIME_CFG_TSTN) ∧ s.ended = false ∧ s.ready 4 = true ∧
      ∀ off ∈ [TIME_INC_INC.addr, TIME_INC_INC.addr + 4, TIME_CTRL_CMD.addr], s.regPmp 1023 off true = true) ∧ (up []).flag TIME_CFG_TSTN_EN = false ∧
    (timed { stepReq := some (5, false) } []).time.stepReq.isSome = true ∧
    (let s := up [(TIME_OFFS_NS, 1000)]
     0 ≤ (s.now : Int) + s.getInt TIME_OFFS_NS ∧ (s.now : Int) + s.getInt TIME_OFFS_NS < 2 ^ 48 * 1000000000 ∧
      (s.getInt TIME_OFFS_NS).natAbs ≤ 1000 ∧ s.get TIME_STAT_SYNC = 0 ∧ s.get TIME_STAT_TRUST ≠ 1 ∧ s.nonceValid = false) ∧
    (1000 < ((up [(TIME_OFFS_NS, 1001)]).getInt TIME_OFFS_NS).natAbs ∧
      ¬(0 ≤ ((up []).now : Int) + ((up []).setInt TIME_OFFS_NS (-1)).getInt TIME_OFFS_NS) ∧
      (up [(TIME_STAT_SYNC, 1)]).get TIME_STAT_SYNC ≠ 0) := by decide +kernel

theorem witness_ClockEvents :
    ((up []).time.stepReq = none ∧ (timed { ns := 5, stepReq := some (-5, true) } []).time.stepReq = some (-5, true) ∧
      0 ≤ ((timed { ns := 5, stepReq := some (-5, true) } []).now : Int) + (-5) ∧
      (timed { ns := 5, stepReq := some (5, false) } []).time.stepReq = some (5, false)) ∧
    (let s := timed { ticks := 500000 } [(TIME_STAT_SYNC, 1), (TIME_CFG_SYNC_TMO, 1)]
     s.get TIME_STAT_SYNC = 1 ∧ s.time.lockTick + 500000 * s.get TIME_CFG_SYNC_TMO ≤ s.ticks ∧ s.get TIME_CFG_SYNC_TMO = 1) ∧
    ((up []).get TIME_STAT_SYNC = 0 ∧ (timed { ticks := 499999 } [(TIME_STAT_SYNC, 1)]).ticks < 0 + 500000 * 2000) ∧
    (let s := timed { ticks := 50000000, nonceTick := some 0 } []
     s.time.nonceTick = some 0 ∧ 0 + 50000000 ≤ s.ticks) ∧
    (timed { ticks := 49999999, nonceTick := some 0 } []).ticks < 0 + 50000000 ∧
    (let s := timed { ns := 1000000000 } [(TIME_STAT_TRUST, 1), (TIME_SEC_HOLD_S, 1)]
     s.get TIME_STAT_TRUST = 1 ∧ s.get TIME_SEC_HOLD_S = 1 ∧
      s.get TIME_SEC_LAST_SEC * 1000000000 + s.get TIME_SEC_LAST_NS + s.get TIME_SEC_HOLD_S * 1000000000 ≤
        secOf s.now % 2 ^ 32 * 1000000000 + nsOf s.now) ∧ (up []).get TIME_STAT_TRUST ≠ 1 ∧
    (let s := timed { ns := 1000000000 } []
     s.ready 4 = true ∧ secOf s.before ≠ secOf s.now) ∧ secOf (up []).before = secOf (up []).now ∧
    ((st []).ready 4 = false ∧ (st []).asleep = false ∧ (st [(TIME_VT_VALID, 1)]).flag TIME_VT_VALID = true) := by decide +kernel

/-- Reports that wait at the curator. -/
def reported (fs : List FaultReport) (l : List (Loc × Nat)) : State := { up l with cur := { inbox := fs } }

theorem witness_FaultOccurrences :
    (let f : FaultReport := { src := 2047, kind := 255 }
     let s : State := { up [(CUR_WRULE0_N 63, 1), (CUR_WRULE0_KIND 63, 255), (CUR_WRULE0_SRC 63, 2047), (CUR_WRULE0_ESC 63, 3)] with
        cur := { occ := [(255, 2047, 0)] } }
     s.flag (CUR_KIND_FIXED 255) = false ∧ s.get (CUR_WRULE0_N 63) ≠ 0 ∧ s.get (CUR_WRULE0_KIND 63) = f.kind ∧
      s.get (CUR_WRULE0_SRC 63) = 2047 ∧ s.get (CUR_WRULE0_N 63) ≤ (s.cur.occ.filter fun o => o.1 = f.kind ∧
        (s.get (CUR_WRULE0_SRC 63) = 2047 ∨ o.2.1 = s.get (CUR_WRULE0_SRC 63)) ∧ o.2.2 ≤ f.nso ∧
        f.nso < o.2.2 + max 1 (s.get (CUR_WRULE1_WIN 63)) * 1000000).length ∧ s.flag (CUR_KIND_FIXED 0x60) = true ∧
      s.severity f = 3) ∧
    (up []).cur.inbox = [] ∧
    (let f : FaultReport := { src := 2047, kind := 0x41 }
     let s := reported [f] []
     s.cur.inbox = [f] ∧ f.src < 2048 ∧ f.kind < 256 ∧ f.master < 2048 ∧ f.acc < 8 ∧ s.flag CUR_FIRST_VALID = false ∧
      s.severity f = 3 ∧ s.aftFind 2047 0x41 = none ∧ s.aftValid 0 = false ∧
      (reported [f] [(CUR_AFT_VALID 255, 1), (CUR_AFT_SRC 255, 2047), (CUR_AFT_KIND 255, 0x41)]).aftFind 2047 0x41 = some 255 ∧
      (reported [f] [(CUR_FIRST_VALID, 1)]).flag CUR_FIRST_VALID = true) ∧
    (let f : FaultReport := { src := 9, kind := 0x41 }
     let g : FaultReport := { src := 2, kind := 0x40 }
     let s := reported [f, g] []
     s.cur.inbox = [f, g] ∧ f.tick = g.tick ∧ s.flag CUR_FIRST_VALID = false ∧ s.severity f ≠ 0 ∧ s.severity g ≠ 0 ∧
      s.severity g < s.severity f) ∧
    (((up []).ready 2 = true ∧ (up []).ended = false) ∧ (up [(VIT_STAT_LC, 1)]).get VIT_STAT_LC ≠ 0 ∧ (up []).get VIT_STAT_LC = 0) := by
  refine ⟨?_, ?_, ?_, ?_, ⟨?_, ?_⟩, ?_⟩ <;> decide +kernel

theorem witness_CuratorCommands :
    ((up []).ready 2 = true ∧ (up []).ended = false ∧ (up []).cur.inbox = []) ∧
    (let f : FaultReport := { src := 2047, kind := 0x41 }
     let s := reported [f] [(CUR_AFT_VALID 255, 1), (CUR_AFT_SRC 255, 2047), (CUR_AFT_KIND 255, 0x41)]
     s.cur.inbox = [f] ∧ f.src < 2048 ∧ f.kind < 256 ∧ s.aftFind f.src f.kind = some 255 ∧
      ({ s with cur := { s.cur with inbox := [], occ := (f.kind, f.src, f.nso) :: s.cur.occ } } : State).severity f ≠ 0) ∧
    (let s := up [(CUR_AFT_VALID 255, 1), (CUR_AFT_KIND 255, 0x10)]
     s.aftValid 255 = true ∧ s.flag (CUR_AFT_LIVE 255) = false ∧ s.get (CUR_AFT_KIND 255) ≠ 0x60 ∧ s.aftValid 0 = false) ∧
    ((up []).cur.reclaim = none ∧
      (let s : State := { up [] with cur := { reclaim := some 63 } }
       s.cur.reclaim = some 63 ∧ s.cur.reclaimQueue = [] ∧ s.halls.revoke = none ∧ s.halls.handover = none ∧ s.halls.held = [])) ∧
    (let s := eng 1023 1 {} [(HALL_OWN_REVOKED 4095, 1), (HALL_OWN_OWNER 4095, 5), (HALL_OWN_CUR 4095, 127)]
     s.stationEngines 5 = List.range 8 ++ (List.range 8).map (1016 + ·) ∧ (∀ e ∈ s.stationEngines 5, s.estate e ≠ 2 ∧ s.estate e ≠ 3) ∧
      s.flag (HALL_OWN_REVOKED 4095) = true ∧ s.get (HALL_OWN_OWNER 4095) = 5 ∧ s.get (HALL_OWN_CUR 4095) = 127) ∧
    (eng 1023 3 {} []).estate 1023 = 3 ∧
    (let s := timed { ticks := 500000 } [(CUR_KIND_AUTO 0x10, 1), (CUR_AFT_VALID 255, 1), (CUR_AFT_KIND 255, 0x10), (CUR_CFG_QUIET, 1)]
     s.flag (CUR_KIND_AUTO (s.get (CUR_AFT_KIND 255))) = true ∧ s.aftValid 255 = true ∧ s.flag (CUR_AFT_LIVE 255) = false ∧
      s.get CUR_CFG_QUIET = 1 ∧ smapFind (fun _ => 0) s.cur.quietFrom 255 + 500000 * 1 ≤ s.ticks ∧
      s.flag (CUR_AFT_SAFE 255) = false) := by
  refine ⟨?_, ?_, ?_, ?_, ?_, ?_, ?_⟩ <;> decide +kernel

/-- Region 15 with its hidden half. -/
def rgn (g : Region) (t : Nat) (l : List (Loc × Nat)) : State :=
  { up l with cores := { regions := [(15, g)] }, time := { ticks := t } }

theorem witness_OperatingPoints :
    ((up []).ended = false ∧ (up []).rgnReady 15 = true ∧ (up [(RGN_OPP_BUSY 15, 1)]).flag (RGN_OPP_BUSY 15) = true ∧
      (up []).flag (RGN_OPP_BUSY 15) = false ∧ ((up []).region 15).bridge = false ∧
      (up []).get (RGN_OPP_CURRENT 15) = min 0 ((up []).get (RGN_OPP_MAX 15)) ∧ (up []).thermal = false) ∧
    ((rgn { bridge := true } 0 []).region 15).bridge = true ∧ ((rgn { stage := 3 } 0 []).region 15).stage = 3 ∧
    (let s := rgn { stage := 2, changing := some 7 } 40960 []
     (s.region 15).stage = 2 ∧ (s.region 15).changing = some 7 ∧ (s.region 15).pllTick + 40960 ≤ s.ticks ∧
      s.get (RGN_OPP_CURRENT 15) ≤ 7 ∧ 6 < (s.set (RGN_OPP_CURRENT 15) 7).get (RGN_OPP_CURRENT 15)) ∧
    (let s := rgn { stage := 2, pllFails := 2 } 250000 []
     (s.region 15).stage = 2 ∧ (s.region 15).pllTick + 250000 ≤ s.ticks ∧ 2 ≤ (s.region 15).pllFails ∧
      (s.region 15).nextTarget = none) ∧ ((rgn { pllFails := 1 } 0 []).region 15).pllFails < 2 ∧
    (let s := rgn { stage := 4, changing := some 2 } 0 [(RGN_OPP_TARGET 15, 2), (RGN_OPP_MAX 15, 2)]
     (s.region 15).stage = 4 ∧ (s.region 15).changing = some 2 ∧ 2 ≤ s.goalOf 15) ∧
    (let s : State := { up [(RGN_OPP_CURRENT 15, 3)] with cur := { live := [(1829, 0x44)] } }
     s.thermal = true ∧ 715 < 716 ∧ s.get (RGN_OPP_CURRENT 15) ≠ min (s.get (RGN_OPP_TARGET 15)) (s.get (RGN_OPP_MAX 15)) ∧
      s.flag (RGN_OPP_BUSY 15) = false ∧ (s.region 15).bridge = false) ∧
    (2 < (up [(RGN_OPP_CURRENT 15, 3)]).get (RGN_OPP_CURRENT 15) ∧ 736 < 737) := by decide +kernel

/-- A state with every interface asleep, with a permission. -/
def restful (allow : Nat) : State := { up [(PWR_CTRL_ALLOW, allow)] with spine := { perst := true } }

/-- A power state. -/
def slept (p : Power) (l : List (Loc × Nat)) : State := { up l with pwr := p }

theorem witness_SleepAndWake :
    ((up []).ended = false ∧ (slept { state := .a1 } []).pwr.state = .a1 ∧ (up []).pwr.state ≠ .a1) ∧
    ((restful 1).pwr.held = false ∧ (restful 1).pwr.state = .a0 ∧ (restful 1).blockOf 1 = 0 ∧ (restful 1).blockOf 2 ≠ 0 ∧
      (restful 1).blockOf 3 ≠ 0) ∧ ((restful 2).blockOf 2 = 0 ∧ (restful 2).blockOf 3 ≠ 0) ∧ (restful 3).blockOf 3 = 0 ∧
    (slept { state := .a1 } []).get PWR_CTRL_ALLOW = 0 ∧
    (let s := slept { state := .a2, wakeTick := some 0 } []
     s.pwr.held = false ∧ s.pwr.wakeTick = some 0 ∧ 0 ≤ s.ticks ∧ s.pwr.state = .a2) ∧
    ((slept { state := .a3, wakeTick := some 1 } []).pwr.wakeTick = some 1 ∧ (slept { state := .a3 } []).ticks < 1) ∧
    (let s : State := { slept { state := .a3 } [(LEDG_WAKE_TIMER, 1)] with led := { wakes := [(1825, 0, 0)] } }
     (∃ w ∈ s.led.wakes, s.wakeEnabled w.1 = true) ∧ s.pwr.state = .a3) ∧ (up []).led.wakes = [] ∧
    (let s := up [(WATCH_TMR_EN 3, 1), (TIME_VT_VALID, 1)]
     s.flag (WATCH_TMR_EN 3) = true ∧ s.flag TIME_VT_VALID = true ∧ s.timerUnits 3 ≤ s.vaultUnits) ∧
    (let s : State := { slept { state := .a2 } [] with time := { ticks := 2000000000 } }
     s.pwr.state = .a2 ∧ s.pwr.refreshTick + 2000000000 ≤ s.ticks) := by decide +kernel

theorem witness_SuppliesAndResets :
    (State.reset.Canonical ∧ State.reset.pwr.vbatOk = true ∧ State.reset.pwr.state ≠ .off) ∧
    ((slept { vbatOk := false } []).pwr.vbatOk = false ∧ (slept { vbatOk := false } []).pwr.vbkWindow = none) ∧
    (let s : State := { slept { state := .off, rails := 4, inWindow := 3 } [] with time := { ticks := 1000000 } }
     s.pwr.state = .off ∧ s.pwr.rails = 3 + 1 ∧ s.pwr.inWindow = 3 ∧ s.pwr.railTick + 50000 ≤ s.ticks ∧
      s.pwr.railTick + 1000000 ≤ s.ticks ∧ s.get WATCH_SUPPLY_RAILFAIL < 3) ∧
    (railsOn (up []).pwr.state = 4 ∧ railsOn PowerState.a3 ≤ 0) ∧
    ((slept { retryAt := some 0 } []).pwr.retryAt = some 0 ∧ (slept { retryAt := some 1 } []).ticks < 1) ∧
    ((1826, 0x40) ∉ (up []).cur.live ∧ (1826, 0x45) ∈ ({ up [] with cur := { live := [(1826, 0x45)] } } : State).cur.live) ∧
    (let s : State := { slept { vbatOk := false, vbkWindow := some 0 } [] with time := { ticks := 15000 } }
     s.pwr.vbkWindow = some 0 ∧ s.ticks ≤ 0 + 15000 ∧ 0 + 15000 ≤ s.ticks) ∧
    ((up []).flag WATCH_STAT_XTAL = false ∧ (up []).usable = true ∧ (slept { vtHeld := true } []).pwr.vtHeld = true ∧
      (up [(WATCH_STAT_XTAL, 1)]).flag WATCH_STAT_XTAL = true) ∧
    ((up []).pwr.inWindow = 4 ∧ (slept { held := true } []).pwr.held = true ∧ (slept { state := .off } []).pwr.state = .off) := by
  refine ⟨⟨?_, by decide +kernel, by decide +kernel⟩, ?_⟩
  · constructor <;> decide +kernel
  · decide +kernel

/-! ## Spine, host and service interfaces -/

/-- Lanes and streams, with the tick. -/
def spine (ls : SMap Lane) (ss : SMap Stream) (t : Nat) (l : List (Loc × Nat)) : State :=
  { up l with spine := { lanes := ls, streams := ss }, time := { ticks := t } }

/-- A state whose Spine die link is up since tick 0. -/
def linked (s : State) : State := { s with links := [(2, { up := true })] }

theorem witness_LanesAndStreams :
    ((up []).laneReady 3 = false ∧ (up [(SPN_LANE_CFG_MODE 3, 1)]).laneReady 3 = true ∧
      (up [(SPN_LANE_CFG_MODE 3, 1)]).linkUp 3 = false ∧ (up [(SPN_LANE_CFG_MODE 3, 1)]).isEthLane 3 = true) ∧
    (let s := spine [(0, { lastValid := some 0 })] [] 10000 [(SPN_LANE_CFG_MODE 0, 3)]
     s.laneReady 0 = true ∧ s.isEthLane 0 = false ∧ (s.lane 0).lastValid = some 0 ∧ s.ticks ≤ 0 + 10000 ∧
      ¬(spine [] [] 10001 []).ticks ≤ 0 + 10000) ∧
    (let s := spine [(3, { started := some 63 })] [] 0 [(SPN_LANE_CFG_MODE 3, 1), (SPN_LANE_STAT_LINK 3, 1), (SPN_LANE_CFG_MODE 0, 1),
        (SPN_LANE_STAT_LINK 0, 1), (SPN_STR_CFG_KIND 63, 1), (SPN_STR_CFG_LANE 63, 3), (SPN_STR_STAT_RUN 63, 1),
        (SPN_STR_STAT_ACTIVE 63, 3), (SPN_STR_CFG_ALT_EN 63, 1), (SPN_STR_CFG_ALT 63, 0), (SPN_STR_CFG_KIND 0, 1),
        (SPN_STR_CFG_LANE 0, 3)]
     s.linkUp 3 = true ∧ (s.lane 3).started = some 63 ∧ s.declared 63 = true ∧ s.get (SPN_STR_CFG_LANE 63) = 3 ∧
      s.flag (SPN_STR_STAT_RUN 63) = true ∧ s.get (SPN_STR_STAT_ACTIVE 63) = 3 ∧ s.flag (SPN_STR_STAT_ON_ALT 63) = false ∧
      s.altLane 63 = some 0 ∧ s.linkUp 0 = true ∧ s.declared 0 = true ∧ s.flag (SPN_STR_STAT_RUN 0) = false ∧ s.altLane 0 = none) ∧
    (let s := spine [(3, { upSince := some 0 })] [] 500000 [(SPN_STR_STAT_RUN 63, 1), (SPN_STR_STAT_ON_ALT 63, 1), (SPN_STR_CFG_LANE 63, 3),
        (SPN_LANE_STAT_LINK 3, 1), (SPN_STAT_FAILBACK, 1)]
     s.flag (SPN_STR_STAT_RUN 63) = true ∧ s.flag (SPN_STR_STAT_ON_ALT 63) = true ∧ s.linkUp (s.get (SPN_STR_CFG_LANE 63)) = true ∧
      (s.lane 3).upSince = some 0 ∧ 0 + 500000 * s.get SPN_STAT_FAILBACK ≤ s.ticks) ∧
    (let s := linked (spine [] [] 500000000 [(SPN_LANE_CFG_MODE 0, 3), (SPN_LANE_STAT_TRAIN 0, 2)])
     s.laneReady 0 = true ∧ (s.link 2).up = true ∧ s.linkUp 0 = false ∧ (s.lane 0).retryFrom + 500000000 ≤ s.ticks ∧ s.get (SPN_LANE_CFG_MODE 0) = 3 ∧
      s.get (SPN_LANE_STAT_TRAIN 0) = 2 ∧ (s.lane 0).lastSent + 5000 ≤ s.ticks) ∧
    (up []).spineStamped 0 = false ∧ (nativePayload [] = none ∧ (nativePayload (nativeFrame 3 0 0 0 [])).isSome = true ∧
      beField (nativeFrame 3 0 0 0 []) 0 1 % 16 ≠ 2) := by decide +kernel

/-- Lane 3 up in a mode. -/
def lane3 (mode : Nat) (l : List (Loc × Nat)) : State :=
  up ([(SPN_LANE_CFG_MODE 3, mode), (SPN_LANE_STAT_LINK 3, 1)] ++ l)

theorem witness_LaneFrames :
    ((up []).link 2).up = false ∧ ((linked (lane3 1 [])).link 2).up = true ∧
    ((linked (lane3 1 [])).link 2).upTick + ((linked (lane3 1 [])).now - 0) / 2 ≤ (linked (lane3 1 [])).ticks ∧
    (let s := { linked (lane3 1 []) with time := { ns := 4, ticks := 1 } }
     (s.link 2).up = true ∧ s.ticks < (s.link 2).upTick + (s.now - 0) / 2) ∧
    (let s := linked ((lane3 1 [(SPN_HQ_PTR_TX_HEAD 3, 31), (SPN_HQ_PTR_TX_TAIL 3, 0)]).setBytes (32768 + 2048 * 15) (leBytes 4 2032))
     (s.link 2).up = true ∧ s.laneReady 3 = true ∧ s.linkUp 3 = true ∧ s.isEthLane 3 = true ∧ s.get (SPN_HQ_PTR_TX_TAIL 3) = (31 + 1) % 32 ∧
      s.get (SPN_HQ_PTR_TX_HEAD 3) = 31 ∧ (s.memWord (s.get (SPN_HQ_BASE_BASE 3) * 65536 + 32768 + 2048 * (31 % 16))).toNat % 4096 = 2032 ∧
      s.flag (SPN_LANE_CFG_MACSEC 3) = false ∧ s.flag (TIME_PTP_RECOG 131) = false) ∧
    (let s := lane3 1 []
     s.get (SPN_HQ_PTR_TX_TAIL 3) = s.get (SPN_HQ_PTR_TX_HEAD 3) ∧ s.nextStream 3 = none) ∧
    (let x : SpineItem := .tunnel 7 { subtype := 5, sid := 0, seq := 0, msgs := [] }
     let s : State := { lane3 1 [(SPN_STR_STAT_RUN 63, 1), (SPN_STR_STAT_ACTIVE 63, 3)] with spine := { streams := [(63, { queue := [x] })] } }
     s.nextStream 3 = some (63, x) ∧ s.flag (SPN_LANE_CFG_MACSEC 3) = false) ∧
    (let s : State := { lane3 3 [(SPN_STR_STAT_RUN 0, 1), (SPN_STR_STAT_ACTIVE 0, 3)] with
        spine := { streams := [(0, { queue := [.specimen [1, 2]] })] } }
     s.nextStream 3 = some (0, .specimen [1, 2]) ∧ s.isEthLane 3 = false) ∧
    ((up []).ended = false ∧ (up []).spnReady = true ∧ (up []).halls.poison = [] ∧
      ((up []).memWord ((up []).get (SPN_HQ_BASE_BASE 3) * 65536 + 32768)).toNat % 4096 < 60) ∧
    (let f : List Byte := List.replicate 6 0xFF ++ List.replicate 6 0 ++ [0x88, 0xF7] ++ List.replicate 46 0
     let g : List Byte := List.replicate 6 0xFF ++ List.replicate 6 0 ++ [0x22, 0xF0] ++ List.replicate 46 0
     60 ≤ f.length ∧ f.length ≤ 9212 ∧ (beField f 0 6).testBit 40 = true ∧ beField f 12 2 = 0x88F7 ∧ beField g 12 2 = 0x22F0 ∧
      (lane3 1 []).get (SPN_HQ_PTR_RX_TAIL 3) = 0 ∧ (0 + 32 - (lane3 1 [(SPN_HQ_PTR_RX_HEAD 3, 16)]).get (SPN_HQ_PTR_RX_HEAD 3)) % 32 = 16 ∧
      (lane3 1 [(SPN_LANE_CFG_MACSEC 3, 1)]).flag (SPN_LANE_CFG_MACSEC 3) = true) := by decide +kernel

theorem witness_HostAndServicePort :
    ((3 : Fin 5).val ≠ 0 ∧ (up []).asleep = false ∧ (slept { state := .a3 } []).asleep = true ∧ (up []).ready 6 = true ∧
      (st []).ready 6 = false ∧ (up [(PCIE_PEND_PEND, 2 ^ 63)]).get PCIE_PEND_PEND = 2 ^ 63) ∧
    (let s : State := { up [] with spine := { vbus := true } }
     s.spine.vbus = true ∧ s.flag SVC_STAT_SUSPEND ≠ true) ∧ (up []).spine.vbus = false := by decide +kernel

/-- A state with VBUS. -/
def usb (l : List (Loc × Nat)) : State := { up l with spine := { vbus := true } }

theorem witness_ServiceRequests :
    ((up []).spine.vbus = false ∧ (usb []).spine.vbus = true ∧ (usb []).ready 7 = true ∧ (usb []).flag SVC_STAT_RAMORNY = false ∧
      (usb [(SVC_STAT_RAMORNY, 1)]).flag SVC_STAT_RAMORNY = true) ∧
    (let v := (usb []).set SVC_STAT_STATE 3
     0x10 + 4 ≤ 0x8000000 ∧ v.svcReadOk 0x10 = true ∧ v.svcNotReady 0x10 = false ∧
      (match (v.readReg .host 0x10 4).resp with
        | some (.data _) => true
        | _ => false) = true ∧ (v.writeReg .host 0x10 4 0).resp ≠ some .abort ∧
      (({ spine := { vbus := true } : State }).set SVC_STAT_STATE 3).svcNotReady 0x01000028 = true) ∧
    ((usb [(VIT_STAT_LC, 4)]).get VIT_STAT_LC = 4 ∧ ((usb [(VIT_STAT_LC, 2)]).set SVC_STAT_STATE 3).svcReadOk 0x01000028 = false ∧
      (usb []).get VIT_STAT_LC = 0 ∧ (usb [(VIT_STAT_LC, 2)]).flag SVC_DBG_UNLOCKED = false) ∧
    (let v := (usb []).set SVC_STAT_STATE 3
     v.ready (8 + hallOf 0x3FFFFFC) = true ∧ (∀ x ∈ wordsOf 0x3FFFFFC 4, v.verdict (some 64) (max 0x3FFFFFC (x * 8)) false = 0) ∧
      (match (v.hallAccess { master := .host, addr := 0x3FFFFFC, acc := .read 4 }).resp with
        | some (.data _) => true
        | _ => false) = true ∧ v.unlockOk 0 = false) ∧
    ((up []).rgnReady (1023 / 64) = true ∧ (eng 1023 3 {} []).estate 1023 = 3 ∧ (eng 1023 1 {} []).estate 1023 = 1 ∧
      (eng 1023 1 {} []).mip 1023 &&& (((eng 1023 1 {} []).engine 1023).getCsr csrMie).toNat = 0 ∧
      ((up []).csrRead 1023 csrMie).isSome = true ∧ (up []).csrRead 1023 0xFFF = none ∧
      ((up []).get (UPD_MAP_BITS 0)).testBit 0 = false ∧ (up []).serves 7) := by
  refine ⟨?_, ?_, ?_, ?_, ?_, ?_, ?_, ?_, ?_, ?_, ?_, ?_, ?_⟩ <;> decide +kernel

/-! ## Vitrine and vault -/

/-- A slot that every world may use for everything in every life-cycle state. -/
def usable (h : Nat) : List (Loc × Nat) :=
  [(VIT_SLOT_STATE h, 1), (VIT_SLOT_LC h, 31), (VIT_SLOT_USE h, 255), (VIT_SLOT_WORLD h, 255), (VIT_SLOT_STN h, 64)]

/-- A state with some keys of 16 zero bytes. -/
def keyed (hs : List Nat) (l : List (Loc × Nat)) : State :=
  { up l with vault := { keys := hs.map fun h => (h, List.replicate 16 0) } }

/-- The blob of a 16-byte key for slot 224, wrapped by the key of slot 255, without its tag. -/
def blob (l : List (Loc × Nat)) : State :=
  (keyed [255] (usable 255 ++ [(VIT_STAT_LC, 1)] ++ l)).setBytes 0 ([1, 224, 255] ++ List.replicate 17 0 ++ [16] ++ List.replicate 19 0)

/-- The same with the tag that its wrapping key gives. -/
def wrapped : State :=
  let s := blob []
  s.setBytes 40 (gcmTag (s.keyOf 255) (s.bytes 8 12) (s.bytes 0 24 ++ s.deviceIdentity) (s.bytes 24 16))

theorem setBytes_eq (s : State) (a : Nat) (bs : List Byte) : s.setBytes a bs = { s with mem := (s.setBytes a bs).mem } := by
  induction bs generalizing s a with
  | nil => rfl
  | cons b bs ih => exact (ih (s.setByte a b) (a + 1)).trans rfl

theorem witness_KeyCommands :
    ((up []).serves 5 ∧ (up []).vault.job = none ∧ ({ up [] with vault := { job := some (6, 15) } } : State).vault.job = some (6, 15)) ∧
    ((up [(VIT_STAT_LC, 2)]).get VIT_STAT_LC = 2 ∧ (up []).get VIT_STAT_LC < 2 ∧ (up []).get VIT_KATTR_KIND < 2 ∧
      (up [(VIT_KATTR_KIND, 2)]).get VIT_KATTR_KIND = 2 ∧
      ¬((up []).flag (VIT_SLOT_ONCE 223) = true ∧ (up []).get (VIT_SLOT_STATE 223) = 1)) ∧
    ((up [(VIT_STAT_LC, 4)]).get VIT_STAT_LC = 4 ∧ (up []).useOk 0 2 .host = false ∧ (keyed [255] (usable 255)).useOk 255 2 .host = true) ∧
    ((blob []).get VIT_STAT_LC = 1 ∧ ¬(blobKind (leNat ((up []).bytes 0 1)) 0 0 = true) ∧
      blobKind (leNat ((blob []).bytes 0 1)) (leNat ((blob []).bytes 20 4)) (bitsOf (BitVec.ofNat 32 (leNat ((blob []).bytes 4 4))) 2 2) = true ∧
      leNat ((blob []).bytes 1 1) = 224 ∧ leNat ((blob []).bytes 2 1) = 255 ∧
      (∀ w ∈ wordsOf 0 56, (blob []).verdict (some 64) (w * 8) false = 0) ∧ (blob []).useOk 255 3 .host = true) ∧
    ((up [(VIT_STAT_LC, 2)]).get VIT_STAT_LC = 2 ∧ (0 : Nat) ≤ 4 ∧
      (let s : State := { up [] with vault := { cr := some [] } }
       s.get VIT_STAT_LC = 0 ∧ s.vault.cr.isSome = true) ∧
      (let s := up (usable 255 ++ [(VIT_STAT_LC, 1)])
       s.get (VIT_SLOT_STATE (224 + 31)) = 1 ∧ (s.get (VIT_SLOT_USE (224 + 31))).testBit 5 = true) ∧
      (up [(SVC_DBG_UNLOCKED, 1)]).flag SVC_DBG_UNLOCKED = true ∧ (up []).vault.cr = none) := by
  refine ⟨⟨⟨by decide +kernel, by decide +kernel⟩, by decide +kernel, by decide +kernel⟩, ?_⟩
  decide +kernel

/-- The blob's own tag: IMPORT_KEY's last condition is met by it. -/
theorem witness_KeyCommands_tag :
    gcmTag (wrapped.keyOf 255) (wrapped.bytes 8 12) (wrapped.bytes 0 24 ++ wrapped.deviceIdentity) (wrapped.bytes 24 16) =
      wrapped.bytes 40 16 ∧ wrapped.regs = (blob []).regs ∧ wrapped.halls = (blob []).halls ∧ wrapped.vault = (blob []).vault := by
  have len : (gcmTag ((blob []).keyOf 255) ((blob []).bytes 8 12) ((blob []).bytes 0 24 ++ (blob []).deviceIdentity)
      ((blob []).bytes 24 16)).length = 16 := by decide +kernel
  have head : ∀ a n, a + n ≤ 40 → wrapped.bytes a n = (blob []).bytes a n := by
    intro a n h
    refine List.map_congr_left fun i hi => State.byte_setBytes_outside _ _ _ _ (Or.inl ?_)
    have := List.mem_range.mp hi
    omega
  have same := setBytes_eq (blob []) 40 (gcmTag ((blob []).keyOf 255) ((blob []).bytes 8 12)
    ((blob []).bytes 0 24 ++ (blob []).deviceIdentity) ((blob []).bytes 24 16))
  have hv : wrapped.vault = (blob []).vault := by rw [wrapped, same]
  have hr : wrapped.regs = (blob []).regs := by rw [wrapped, same]
  have hh : wrapped.halls = (blob []).halls := by rw [wrapped, same]
  refine ⟨?_, hr, hh, hv⟩
  rw [head 8 12 (by decide), head 0 24 (by decide), head 24 16 (by decide), show wrapped.keyOf 255 = (blob []).keyOf 255 by
    unfold State.keyOf; rw [hv], show wrapped.deviceIdentity = (blob []).deviceIdentity by
    unfold State.deviceIdentity State.chipId State.word; rw [hr]]
  refine List.ext_getElem (by rw [len]; simp [State.bytes]) fun i h1 h2 => ?_
  simp only [State.bytes, List.getElem_map, List.getElem_range]
  exact (State.byte_setBytes_inside (blob []) 40 i _ h1).symm

/-- The answer to challenge 1 under an unlock key of zeros (R421): SVC_UNLOCK's success is met. -/
theorem witness_ServiceRequests_unlock :
    (let s : State := { usb (usable 224 ++ [(SVC_CHAL_CHAL, 1)]) with vault := { keys := [(224, List.replicate 16 0)] } }
     (s.set SVC_STAT_STATE 3).unlockOk 12221525516086656164 = true ∧ s.get VIT_STAT_LC ≠ 4) := by decide +kernel

/-- Binding 1023 of the host, with one byte of freshness and a MAC of four bytes. -/
def bound (dir : Nat) (l : List (Loc × Nat)) : State :=
  keyed [255] (usable 255 ++ [(VIT_BIND0_VALID 1023, 1), (VIT_BIND0_OWNER 1023, 64), (VIT_BIND0_DIR 1023, dir),
    (VIT_BIND0_SLOT 1023, 255), (VIT_BIND0_FVLEN 1023, 1)] ++ l)

theorem witness_AuthenticatorAndVault :
    ((up []).serves 5 ∧ (up []).serves 1) ∧
    ((bound 0 []).ownerCode .host = some 64 ∧ (bound 0 []).get (VIT_AU_STAT_STATE 64) ≠ 1 ∧
      (up []).flag (VIT_BIND0_VALID 0) = false) ∧
    (let s := bound 0 []
     s.flag (VIT_BIND0_VALID 1023) = true ∧ s.get (VIT_BIND0_OWNER 1023) = 64 ∧ s.get (VIT_BIND0_DIR 1023) = 0 ∧
      s.useOk (s.get (VIT_BIND0_SLOT 1023)) 6 (s.worldOf .host) = true ∧ s.fvLen 1023 + s.macLen 1023 = 5 ∧
      s.bufferOk .host (s.get (VIT_AU_BUF_OFFSET 64)) (0 + 5) = true ∧ s.halls.poison = [] ∧
      s.flag (VAULT_FV_RDONLY 1023) = false ∧ (s.counter (64 + 1023)).value + 1 < 2 ^ 64 ∧ 2048 < 2044 + 5 ∧
      (s.put (VAULT_FV_RDONLY 1023) true).flag (VAULT_FV_RDONLY 1023) = true ∧
      ((s.set (VIT_AU_BUF_OFFSET 64) 0x3FFFFFE).bufferOk .host 0x3FFFFFE 5 = false)) ∧
    ((bound 1 []).get (VIT_BIND0_DIR 1023) = 1 ∧ (up [(VIT_BIND0_VALID 0, 1)]).useOk 0 6 .host = false ∧
      rebuildFv 0 1 (beNat ((bound 1 []).bytes 0 1)) = 256 ∧ ¬(256 - 0 ≤ max 1 ((bound 1 []).get (VIT_BIND2_W 1023)))) ∧
    (let s := (bound 1 []).setBytes 0 [1, 211, 79, 24, 61]
     let fv := rebuildFv (s.counter (64 + 1023)).value (s.fvLen 1023) (beNat (s.bytes 0 (s.fvLen 1023)))
     fv = 1 ∧ s.get (VIT_BIND0_ALG 1023) = 0 ∧ s.bufferOk .host (s.get (VIT_AU_BUF_OFFSET 64)) 5 = true ∧
      (s.protect 1023 (s.bytes 0 0) fv).2 = s.bytes (0 + s.fvLen 1023) (s.macLen 1023)) ∧
    (let s := up [(VAULT_MC_OWNER 63, 64), (VAULT_MC_ARG_VALUE, 1), (VAULT_MC_OWNER 7, 64)]
     8 ≤ 63 ∧ s.ownerCode .host = some (s.get (VAULT_MC_OWNER 63)) ∧ s.flag (VAULT_MC_RDONLY 63) = false ∧
      (s.counter 63).value + 1 < 2 ^ 56 ∧ (s.counter 63).value < s.get VAULT_MC_ARG_VALUE ∧
      (up []).get VAULT_MC_ARG_VALUE ≤ (s.counter 63).value ∧ (s.put (VAULT_MC_RDONLY 63) true).flag (VAULT_MC_RDONLY 63) = true) ∧
    (let s := eng 1023 2 {} [(VAULT_TLOG_CFG_APP_EN, 1), (VAULT_TLOG_CFG_APPEND, 5)]
     s.flag VAULT_TLOG_CFG_APP_EN = true ∧ s.stationOf 1023 = some (s.get VAULT_TLOG_CFG_APPEND) ∧
      s.ownerCode (.engine 1023) = some 5 ∧
      ∀ off ∈ [0x5300020, VAULT_MC_CMD_CMD.addr, VAULT_TLOG_APP_DATA.addr], s.regPmp 1023 off true = true) ∧
    (let s := up [(VAULT_TAMPER_CFG_EN, 1), (VAULT_TAMPER_CFG_ZERO, 1)]
     s.flag VAULT_TAMPER_CFG_EN = true ∧ s.vault.tamperHeld = false ∧ s.flag (VAULT_MC_RDONLY 3) = false ∧ s.vaultRails = true ∧
      s.flag VAULT_TAMPER_CFG_ZERO = true) ∧ (up []).flag VAULT_TAMPER_CFG_EN = false := by
  refine ⟨⟨⟨by decide +kernel, by decide +kernel⟩, ⟨by decide +kernel, by decide +kernel⟩⟩, by decide +kernel, by decide +kernel,
    by decide +kernel, by decide +kernel, ?_, ?_, ?_, ?_⟩ <;> decide +kernel

/-! ## Firmware update -/

theorem shaRound_length (v : List (BitVec 64)) (k : BitVec 64) (h : v.length = 8) : (shaRound v k).length = 8 := by
  unfold shaRound
  split
  · rfl
  · exact h

theorem shaBlock_length (h : List (BitVec 64)) (b : List Byte) (hl : h.length = 8) : (shaBlock h b).length = 8 := by
  have fold : ∀ (ks v : List (BitVec 64)), v.length = 8 → (ks.foldl shaRound v).length = 8 := by
    intro ks
    induction ks with
    | nil => exact fun _ hv => hv
    | cons k ks ih => exact fun v hv => ih _ (shaRound_length v k hv)
  simp [shaBlock, hl, fold]

theorem shaBlocks_length (n : Nat) (h : List (BitVec 64)) (m : List Byte) (hl : h.length = 8) : (shaBlocks n h m).length = 8 := by
  induction n generalizing h m with
  | zero => exact hl
  | succ n ih => exact ih _ _ (shaBlock_length h _ hl)

theorem sha384_length (m : List Byte) : (sha384 m).length = 48 := by
  have each : ∀ ws : List (BitVec 64), (ws.flatMap fun w => beBytes 8 w.toNat).length = 8 * ws.length := by
    intro ws
    induction ws with
    | nil => rfl
    | cons w ws ih =>
      rw [List.flatMap_cons, List.length_append, ih, show (beBytes 8 w.toNat).length = 8 by rfl, List.length_cons]
      omega
  have blocks := fun n m => shaBlocks_length n sha384Init m rfl
  unfold sha384
  simp only [each, List.length_take, blocks]
  rfl

/-- A manifest of one chunk without signature, with the hash of that chunk. -/
def manifestOf (d : List Byte) : List Byte :=
  ([0x49, 0x4E, 0x53, 0x54, 1, 0, 0x40, 0x96, 1, 0, 1, 0] ++ List.replicate 2036 0) ++ (d ++ List.replicate 12344 0)

theorem manifestOf_hash (d : List Byte) (h : d.length = 48) : ((manifestOf d).drop (0x800 + 48 * (1 - 1))).take 48 = d := by
  unfold manifestOf
  rw [List.drop_left' (by rw [List.length_append, List.length_replicate]; rfl), List.take_left' h]

theorem manifest_whole (d : List Byte) (h : d.length = 48) : (manifestOf d).take manifestSize = manifestOf d :=
  List.take_of_length_le (by
    unfold manifestOf
    rw [List.length_append, List.length_append, List.length_append, List.length_replicate, List.length_replicate, h]
    decide)

/-- A state whose update journal is in a state, with the chunks of slot 1. -/
def updating (j : UCopy) (cs : SMap (List Byte)) (l : List (Loc × Nat)) : State :=
  { up l with upd := { chunks := cs, copy0 := some j.withCrc } }

/-- That journal is the valid copy with the higher sequence number. -/
theorem updating_journal (j : UCopy) (cs : SMap (List Byte)) (l : List (Loc × Nat)) (hs : j.state ≤ 5) :
    (updating j cs l).updJournal = j.withCrc := by
  have v0 : (updating j cs l).upd.valid0 = some j.withCrc := by
    have : j.withCrc.valid = true := by simp [UCopy.valid, UCopy.withCrc, UCopy.body, hs]
    simp [updating, Update.valid0, Option.filter, this]
  have v1 : (updating j cs l).upd.valid1 = some { crc := 0x15D70E0C } := by
    have : ({ crc := 0x15D70E0C } : UCopy).valid = true := by decide +kernel
    simp [updating, Update.valid1, Option.filter, this]
  simp [State.updJournal, Update.journal, v0, v1]

theorem witness_FirmwareDelivery :
    (up []).serves 21 ∧
    ((up []).flag UPD_STAT_BUSY = false ∧ (up []).get UPD_STAT_STATE = 0 ∧ (up [(UPD_STAT_BUSY, 1)]).flag UPD_STAT_BUSY = true ∧
      (up [(UPD_STAT_STATE, 3)]).get UPD_STAT_STATE = 3 ∧ (up [(UPD_STAT_STATE, 2), (UPD_STAT_PREP, 1)]).flag UPD_STAT_PREP = true) ∧
    ((up [(UPD_SRC_OFFSET, 0x7FFFFF)]).updSource manifestSize = none) ∧
    (let s := (up []).setBytes 0 [0x49, 0x4E, 0x53, 0x54, 1, 0, 0x40, 0x96, 1, 0, 1, 0]
     (match s.updSource manifestSize with
      | some m => s.manifestCheck m == 0
      | none => false) = true ∧ s.flag (mapLoc 0) = false) ∧
    (match (up []).updSource manifestSize with
      | some m => (up []).manifestCheck m == 2
      | none => false) = true ∧
    (∀ p : List Byte, (updating { seq := 2, prefix8 := p } [] [(mapLoc 0, 1)]).updJournal.prefix8 = p) ∧
    (up [(mapLoc 0, 1)]).flag (mapLoc 0) = true := by
  refine ⟨⟨by decide +kernel, by decide +kernel⟩, by decide +kernel, by decide +kernel, by decide +kernel, by decide +kernel,
    fun p => by rw [updating_journal _ _ _ (show (0 : Nat) ≤ 5 by decide)]; rfl, by decide +kernel⟩

/-- The chunk of CHUNK's last case: 65536 bytes whose hash the manifest in flash holds. -/
theorem witness_FirmwareDelivery_chunk :
    let s := updating { seq := 2, state := 1, imagoValid := true } [(256, manifestOf (sha384 ((up []).bytes 0 65536)))] [(UPD_STAT_STATE, 1), (mapLoc 0, 1)]
    s.updSource 65536 = some (s.bytes 0 65536) ∧ s.updJournal.spare = true ∧
    sha384 (s.bytes 0 65536) = ((s.manifest true).drop (0x800 + 48 * (1 - 1))).take 48 ∧
    s.flag (mapLoc 1) = false ∧ s.get UPD_STAT_STATE = 1 := by
  intro s
  have zero : s.get UPD_SRC_OFFSET * 8 = 0 := by decide +kernel
  have units : (decide (0 + 65536 ≤ 0x4000000) && (unitsIn 0 (0 + 65536 - 1)).all fun u => decide (s.get (HALL_OWN_CUR u) = 64)) = true := by
    decide +kernel
  have src : s.updSource 65536 = some (s.bytes 0 65536) := by
    unfold State.updSource
    simp only [zero, units, if_true]
  have man : s.manifest true = manifestOf (sha384 ((up []).bytes 0 65536)) :=
    manifest_whole _ (sha384_length _)
  have zero : s.get UPD_SRC_OFFSET * 8 = 0 := by decide +kernel
  have units : (decide (0 + 65536 ≤ 0x4000000) && (unitsIn 0 (0 + 65536 - 1)).all fun u => decide (s.get (HALL_OWN_CUR u) = 64)) = true := by
    decide +kernel
  have src : s.updSource 65536 = some (s.bytes 0 65536) := by
    unfold State.updSource
    simp only [zero, units, if_true]
  have man : s.manifest true = manifestOf (sha384 ((up []).bytes 0 65536)) :=
    List.take_of_length_le (by
      have : ∀ d : List Byte, d.length = 48 → (manifestOf d).length ≤ manifestSize := by
        intro d h
        unfold manifestOf
        rw [List.length_append, List.length_append, List.length_append, List.length_replicate, List.length_replicate, h]
        decide
      exact this _ (sha384_length _))
  have journal : s.updJournal = ({ seq := 2, state := 1, imagoValid := true } : UCopy).withCrc := updating_journal _ _ _ (by decide)
  refine ⟨src, by rw [journal]; rfl, ?_, by decide +kernel, by decide +kernel⟩
  rw [man, manifestOf_hash _ (sha384_length _)]
  rfl

theorem witness_FirmwareHandover :
    ((up []).serves 21 ∧ (up [(UPD_STAT_STATE, 2)]).get UPD_STAT_STATE = 2 ∧ (up []).get IMG_STATUS_PHASE = 0) ∧
    (let s := updating { seq := 2, state := 2, imagoValid := true } [(256, manifestOf (sha384 []))] [(UPD_STAT_STATE, 2)]
     s.flag UPD_STAT_BUSY = false ∧ s.get UPD_STAT_STATE = 2 ∧ s.manifestCheck (s.manifest s.updJournal.spare) = 0 ∧
      ∀ i < nchunk (s.manifest s.updJournal.spare), sha384 (s.chunk s.updJournal.spare (i + 1)) =
        ((s.manifest s.updJournal.spare).drop (0x800 + 48 * i)).take 48) ∧
    (let s := updating { seq := 2, state := 2, imagoValid := true } [(256, manifestOf (List.replicate 48 0))] [(UPD_STAT_STATE, 2)]
     sha384 (s.chunk s.updJournal.spare 1) ≠ ((s.manifest s.updJournal.spare).drop 0x800).take 48) ∧
    (let s := eng 1023 2 {} [(UPD_STAT_STATE, 2), (UPD_STAT_PREP, 1)]
     let s : State := { s with upd := { chrysalis := (0, 64) } }
     s.flag UPD_STAT_PREP = true ∧ s.stationRuns 5 = true ∧ (s.clustersOf 5).head? = some 0 ∧ s.upd.chrysalis.1 % 64 = 0 ∧
      s.upd.chrysalis.2 % 64 = 0 ∧ 0 < s.upd.chrysalis.2 ∧ s.halls.poison = [] ∧ s.stationRuns 0 = false) ∧
    (let s : State := { up [(UPD_STAT_STATE, 3)] with upd := { hoTick := some 0 }, time := { ticks := ticksOfMs 10 } }
     s.handingOver = true ∧ s.upd.hoTick = some 0 ∧ 0 + ticksOfMs s.chryMs ≤ s.ticks ∧ s.chryMs = 10) ∧
    (let s : State := { up [(UPD_STAT_STATE, 3), (IMG_STATUS_PHASE, 4)] with upd := { hoTick := some 0 } }
     s.handingOver = true ∧ s.get IMG_STATUS_PHASE = 4 ∧ (List.range 1024).all (fun e => s.estate e ≤ 1) = true) ∧
    (let s : State := { up [(UPD_STAT_STATE, 3)] with upd := { committing := true, job := some (4, none) } }
     s.get UPD_STAT_STATE = 3 ∧ s.upd.committing = true ∧ s.img.writing = none ∧ s.upd.job = some (4, none)) := by
  refine ⟨⟨⟨by decide +kernel, by decide +kernel⟩, by decide +kernel, by decide +kernel⟩, by decide +kernel, by decide +kernel,
    by decide +kernel, by decide +kernel, by decide +kernel, by decide +kernel⟩

/-- A package whose governing image is one byte, with a journal. -/
def governed (j : UCopy) (l : List (Loc × Nat)) : State :=
  { up l with upd := { copy0 := some j.withCrc }, img := { restored := true, gov := [0] } }

theorem witness_FirmwareOutcomes :
    ((up []).serves 21 ∧ (up [(UPD_STAT_STATE, 4)]).get UPD_STAT_STATE = 4 ∧ (up []).flag (VAULT_MC_RDONLY 1) = false ∧
      (leAt ((up []).manifest (up []).updJournal.imago) 0x10 4).testBit 0 = false ∧
      (leAt (List.replicate 16 0 ++ [1]) 0x10 4).testBit 0 = true ∧ (up [(UPD_STAT_STATE, 1)]).get UPD_STAT_STATE = 1) ∧
    (let s := updating { seq := 2, state := 4, imagoValid := true, lwy1 := imageDigest [] } [] [(UPD_STAT_STATE, 4)]
     s.updJournal.spare = true ∧ imageDigest (s.img.area s.journal.other) = s.updJournal.lwy s.updJournal.spare ∧
      s.get IMG_STATUS_PHASE = 0) ∧
    (let s : State := { up [(UPD_STAT_STATE, 4), (UPD_CFG_TRIAL_S, 1)] with upd := { trialTick := some 0 }, time := { ticks := 500000000 } }
     s.get UPD_STAT_STATE = 4 ∧ s.upd.trialTick = some 0 ∧ 0 + s.trialS * 500000000 ≤ s.ticks) ∧
    (let s := governed { seq := 2, state := 4, imagoValid := true, tries := 3, lwy0 := imageDigest [0] } [(UPD_CFG_MAXTRY, 3)]
     s.usable = true ∧ s.img.restored = true ∧ s.upd.booted = false ∧ s.img.gov ≠ [] ∧ s.updJournal.imagoValid = true ∧
      s.updJournal.lwy s.updJournal.imago = imageDigest s.img.gov ∧ s.updJournal.state = 4 ∧ s.get UPD_CFG_MAXTRY = 3 ∧
      s.get UPD_CFG_MAXTRY ≤ s.updJournal.tries) ∧
    (let s := governed { seq := 2, state := 3, imagoValid := true, lwy1 := imageDigest [0] } []
     s.updJournal.lwy s.updJournal.imago ≠ imageDigest s.img.gov ∧ s.updJournal.lwy s.updJournal.spare = imageDigest s.img.gov ∧
      s.updJournal.state = 3) ∧
    (let s := governed { seq := 2 } []
     s.updJournal.imagoValid = false ∧ s.updJournal.lwy s.updJournal.spare ≠ imageDigest s.img.gov ∧ s.get SVC_STAT_RAMORNY = 0) ∧
    (let s := updating { seq := 2, state := 1, imagoValid := true } [(256, manifestOf (sha384 []))] [(SVC_STAT_RAMORNY, 1), (SVC_DFU_NEXT_BLOCK, 31),
        (UPD_STAT_STATE, 1)]
     s.flag SVC_STAT_RAMORNY = true ∧ s.get SVC_DFU_NEXT_BLOCK = 31 ∧ s.get UPD_STAT_STATE ≤ 1 ∧
      31 / 16 ≤ nchunk (s.manifest s.updJournal.spare) ∧ s.flag (mapLoc 1) = false) ∧
    ((up [(SVC_STAT_RAMORNY, 1)]).ended = false ∧ (up [(VIT_STAT_LC, 4)]).ended = true ∧
      (up [(SVC_STAT_RAMORNY, 1)]).get IMG_STATUS_PHASE ≠ 5 ∧ (up [(SVC_STAT_RAMORNY, 1)]).get SVC_DFU_NEXT_BLOCK = 0 ∧ (up []).flag SVC_STAT_RAMORNY = false ∧
      (up []).manifestCheck [] ≠ 0 ∧ (up [(SVC_STAT_RAMORNY, 1)]).img.writing = none ∧
      (up [(UPD_STAT_IMAGO_VALID, 1)]).flag UPD_STAT_IMAGO_VALID = true) := by
  refine ⟨⟨⟨by decide +kernel, by decide +kernel⟩, by decide +kernel, by decide +kernel, by decide +kernel, by decide +kernel,
    by decide +kernel⟩, by decide +kernel, by decide +kernel, by decide +kernel, by decide +kernel, by decide +kernel,
    by decide +kernel, by decide +kernel⟩

/-- The DFU block that completes a chunk whose hash the manifest in flash holds. -/
theorem witness_FirmwareOutcomes_block :
    let block : List Byte := (([] : List Byte) ++ List.replicate (4096 - ([] : List Byte).length) 0).take 4096
    let s := updating { seq := 2, state := 1, imagoValid := true } [(256, manifestOf (sha384 block))] [(SVC_STAT_RAMORNY, 1)]
    s.updJournal.spare = true ∧ sha384 (s.upd.dfu ++ block) = ((s.manifest true).drop (0x800 + 48 * (1 - 1))).take 48 := by
  intro block s
  have man : s.manifest true = manifestOf (sha384 block) := manifest_whole _ (sha384_length _)
  have journal : s.updJournal = ({ seq := 2, state := 1, imagoValid := true } : UCopy).withCrc := updating_journal _ _ _ (by decide)
  exact ⟨by rw [journal]; rfl, by rw [man, manifestOf_hash _ (sha384_length _)]; rfl⟩
/-! ## A whole PREPARE -/

/-- A structure image with empty DEVICE, PORTS and POOLS sections. -/
def bare : List Byte :=
  [0x4C, 0x57, 0x59, 0x31, 1, 0, 0, 0, 0x40, 0x96, 1, 0, 0, 0, 0, 0, 112, 0, 0, 0, 3, 0, 1] ++ List.replicate 41 0
    ++ [1, 3, 4].flatMap fun t => [t, 0, 1, 0, 112] ++ List.replicate 11 0

theorem failsAt_nil (code t : Nat) (p : Config.Decl → Nat → Bool) : failsAt code t [] p = [] := rfl

/-- Nothing fails in that image, under a reader of section contents that finds no declaration in it. -/
theorem bare_passes (hd : ∀ t b, Config.sectionDecls t b = []) (hf : ∀ lc b, Config.forbiddenFeatures lc b = []) (s : State)
    (hg : s.img.gov = []) (hlc : s.get VIT_STAT_LC = 0) (hm : s.get IMG_SVER_MAX_SVER = 1) (hc : (s.counter 0).value = 0) :
    s.allFails bare bare.length = [] := by
  have none : ∀ t, decls bare t = [] := fun t => by unfold decls; split; exact hd _ _; rfl
  have head : s.headerFails bare bare.length = [] := by
    simp only [State.headerFails, holding, show leAt bare 0x06 2 = 0 by decide, show leAt bare 0x0B 1 = 0 by decide,
      Nat.not_lt_zero, decide_false]
    decide
  have table : s.tableFails bare = [] := by
    simp only [State.tableFails, requiredTypes, none, List.flatMap_nil, List.append_nil, hm]
    decide
  have usable : tableUsable bare = true := by decide
  have sig : hasSection bare sSignature = false := by decide
  have con : hasSection bare sConstellation = false := by decide
  have lcm : (imgLcMask bare).testBit 0 = true := by decide
  simp [State.allFails, State.formatFails, head, table, usable, hg, State.allocFails, State.portFails, State.routeFails,
    State.entryFails, State.hallFails, State.securityFails, State.powerFails, State.memberFails, valueFails, none, failsAt_nil,
    holding, sig, con, lcm, hlc, hf, hc]

/-- The manifest of a slot with that image as its one chunk: no areas, no code, and every chrysalis format read. -/
def bareManifest : List Byte :=
  ([0x49, 0x4E, 0x53, 0x54, 1, 0, 0x40, 0x96, 1, 0, 1, 0] ++ List.replicate 12 0 ++ [112, 0, 0, 0]) ++ (List.replicate 1252 0 ++
    ((List.range 64).flatMap (fun _ => [0, 0, 0, 0, 0xFF, 0xFF, 0, 0]) ++ (List.replicate 256 0 ++
      (sha384 bare ++ List.replicate 12344 0))))

theorem leAt_append (a b : List Byte) (i n : Nat) : leAt (a ++ b) (a.length + i) n = leAt b i n := by
  rw [leAt, List.drop_append, List.drop_eq_nil_of_le (by omega), Nat.add_sub_cancel_left]
  rfl

theorem leAt_zeros (k i n : Nat) (b : List Byte) (h : i + n ≤ k) : leAt (List.replicate k 0 ++ b) i n = 0 := by
  have : ∀ n, leNat (List.replicate n 0) = 0 := by
    intro n
    induction n with
    | zero => rfl
    | succ n ih => rw [List.replicate_succ, leNat, ih]; rfl
  rw [leAt, List.drop_append_of_le_length (by simp; omega), List.drop_replicate, List.take_append_of_le_length (by simp; omega),
    List.take_replicate, this]

theorem bareManifest_code : codeTable bareManifest = [] := by
  refine List.filter_eq_nil_iff.mpr fun x hx => ?_
  obtain ⟨c, hc, rfl⟩ := List.mem_map.mp hx
  have := List.mem_range.mp hc
  have : leAt bareManifest (0x104 + 8 * c) 4 = 0 := by
    rw [bareManifest, show 0x104 + 8 * c = 28 + (232 + 8 * c) by omega]
    exact (leAt_append _ _ _ _).trans (leAt_zeros _ _ _ _ (by omega))
  simp [this]

theorem bareManifest_reads (st : Nat) (h : st < 64) :
    leAt bareManifest (0x502 + 8 * st) 2 = 0 ∧ leAt bareManifest (0x504 + 8 * st) 2 = 65535 := by
  have at_ : ∀ i, leAt bareManifest (1280 + i) 2 = leAt ((List.range 64).flatMap (fun _ => ([0, 0, 0, 0, 0xFF, 0xFF, 0, 0] : List Byte)) ++
      (List.replicate 256 0 ++ (sha384 bare ++ List.replicate 12344 0))) i 2 := by
    intro i
    have inner := leAt_append (List.replicate 1252 0) ((List.range 64).flatMap (fun _ => ([0, 0, 0, 0, 0xFF, 0xFF, 0, 0] : List Byte)) ++
      (List.replicate 256 0 ++ (sha384 bare ++ List.replicate 12344 0))) i 2
    rw [List.length_replicate] at inner
    rw [bareManifest, show 1280 + i = 28 + (1252 + i) by omega, ← inner]
    exact leAt_append _ _ _ _
  have all : ∀ st < 64, leAt ((List.range 64).flatMap (fun _ => ([0, 0, 0, 0, 0xFF, 0xFF, 0, 0] : List Byte)) ++
      (List.replicate 256 0 ++ (sha384 bare ++ List.replicate 12344 0))) (2 + 8 * st) 2 = 0 ∧
      leAt ((List.range 64).flatMap (fun _ => ([0, 0, 0, 0, 0xFF, 0xFF, 0, 0] : List Byte)) ++
      (List.replicate 256 0 ++ (sha384 bare ++ List.replicate 12344 0))) (4 + 8 * st) 2 = 65535 := by decide +kernel
  rw [show 0x502 + 8 * st = 1280 + (2 + 8 * st) by omega, show 0x504 + 8 * st = 1280 + (4 + 8 * st) by omega, at_, at_]
  exact all st h

theorem bareManifest_hash : (bareManifest.drop 0x800).take 48 = sha384 bare := by
  rw [bareManifest, ← List.append_assoc, ← List.append_assoc, ← List.append_assoc, List.drop_left' (by decide +kernel),
    List.take_left' (sha384_length _)]

theorem bareManifest_whole : bareManifest.take manifestSize = bareManifest :=
  List.take_of_length_le (by
    rw [bareManifest, ← List.append_assoc, ← List.append_assoc, ← List.append_assoc, List.length_append,
      List.length_append (as := sha384 bare), sha384_length, List.length_replicate]
    decide +kernel)

/-- The slot staged, with nothing prepared. -/
def staged : State :=
  updating { seq := 2, state := 2, imagoValid := true } [(256, bareManifest), (257, bare)] [(UPD_STAT_STATE, 2)]

theorem bareManifest_areas (s c : State) : s.areasOk c bareManifest = true ∧ s.formatsOk c bareManifest = true := by
  have part : leAt bareManifest 0x20 4 = 0 := by decide +kernel
  have base : leAt bareManifest 0x1C 4 = 0 ∧ leAt bareManifest 0x24 4 = 0 := by decide +kernel
  constructor
  · simp [State.areasOk, bareManifest_code, part, base, State.tractsOwned]
  · simp only [State.formatsOk, bareManifest_code, List.all_nil, Bool.and_true, List.all_eq_true]
    intro st h
    have two : ∀ (b : List Byte) i, leAt b i 2 ≤ 65535 := by
      intro b i
      have : ∀ l : List Byte, l.length ≤ 2 → leNat l ≤ 65535 := by
        intro l hl
        match l, hl with
        | [], _ => decide
        | [x], _ => simp [leNat]; omega
        | [x, y], _ => simp [leNat]; omega
      exact this _ (List.length_take_le _ _)
    simp [bareManifest_reads st (List.mem_range.mp h), two]

theorem bareManifest_passes : staged.manifestCheck bareManifest = 0 := by
  have one : nchunk bareManifest = 1 := by decide +kernel
  simp only [State.manifestCheck, bareManifest_code, one]
  decide +kernel

theorem prepareImage_passes (s : State) (b : List Byte) (flags : (imgFlags b).testBit 1 = false)
    (good : (s.modImg fun i => { i with shadow := b }).allFails b b.length = []) : (s.prepareImage b true).1 = 0 := by
  have check : ((s.modImg fun i => { i with shadow := b }).runCheck b b.length).1 = true := by
    simp only [State.runCheck, good, firstFound]
  simp [State.prepareImage, check, flags]

/-- PREPARE's success, under a reader of section contents that finds no declaration in that image: the content of sections has
no layout in the spec (`Config.sectionDecls`). -/
theorem witness_AttemptsAndHandoversComplete_prepare (hd : ∀ t b, Config.sectionDecls t b = [])
    (hf : ∀ lc b, Config.forbiddenFeatures lc b = []) :
    let b := staged.updJournal.spare
    let m := staged.manifest b
    let image := staged.slotImage b
    (staged.ready 21 = true ∧ staged.ended = false) ∧ staged.flag UPD_STAT_BUSY = false ∧ staged.get UPD_STAT_STATE = 2 ∧
    staged.get IMG_STATUS_PHASE = 0 ∧ staged.manifestCheck m = 0 ∧
    (∀ i < nchunk m, sha384 (staged.chunk b (i + 1)) = (m.drop (0x800 + 48 * i)).take 48) ∧
    ∃ v, (staged.imageToHall m image).prepareImage image true = (0, v) ∧ v.areasOk (v.candidate image) m = true ∧
      v.formatsOk (v.candidate image) m = true := by
  have spare : staged.updJournal.spare = true := by rw [staged, updating_journal _ _ _ (by decide)]; rfl
  have man : staged.manifest true = bareManifest := bareManifest_whole
  have one : nchunk bareManifest = 1 := by decide +kernel
  have chunk : staged.chunk true 1 = bare := rfl
  have img : staged.slotImage true = bare := by
    have at0 : leAt bareManifest 0x14 4 = 0 ∧ leAt bareManifest 0x18 4 = 112 := by decide +kernel
    simp only [State.slotImage, State.payloadAt, State.payload, man, one, at0]
    decide +kernel
  have keep : staged.imageToHall bareManifest bare = staged := by
    have : staged.tractsOwned (leAt bareManifest 0x24 4) bare.length = false := by decide +kernel
    simp [State.imageToHall, this]
  simp only [spare, man, img, keep]
  have good := bare_passes hd hf (staged.modImg fun i => { i with shadow := bare }) (show staged.img.gov = [] from rfl)
    (show staged.get VIT_STAT_LC = 0 by decide +kernel) (show staged.get IMG_SVER_MAX_SVER = 1 by decide +kernel)
    (show (staged.counter 0).value = 0 by decide +kernel)
  have first := prepareImage_passes staged bare (by decide) good
  have hashes : ∀ i < nchunk bareManifest,
      sha384 (staged.chunk true (i + 1)) = (bareManifest.drop (0x800 + 48 * i)).take 48 := by
    intro i h
    rw [one] at h
    obtain rfl : i = 0 := by omega
    rw [chunk]
    exact bareManifest_hash.symm
  have pair : ∀ p : Nat × State, p.1 = 0 → p = (0, p.2) := fun p h => by rw [← h]
  refine ⟨?_, ?_, ?_, ?_, bareManifest_passes, hashes, (staged.prepareImage bare true).2, pair _ first, bareManifest_areas _ _⟩
    <;> decide +kernel

theorem witness_AttemptsAndHandoversComplete :
    (let a : Attempt := { beacon := false, slot := 9, sof := 0 }
     let s := prt 0 { attempt := some a } (active 0 1 ++ [(BT_STAT_BSTATE 0, 4)])
     s.bstate 0 = 4 ∧ (s.port 0).attempt = some a ∧ a.beacon = false ∧ a.slot < 65536 ∧ s.isEth 0 = false ∧
      switched (s.attemptFrame 0 a) = false ∧ s.flag (ECF_STAT_QPEND 0) = false ∧ (s.port 0).opPending = none ∧
      s.dupsOf a.slot = [] ∧ s.gw.copies.find? (·.slot == some a.slot) = none ∧ (s.govOf (dieOf 0)).queue = []) ∧
    (let s := up [(UPD_STAT_STATE, 2), (UPD_STAT_PREP, 1)]
     s.ready 21 = true ∧ s.ended = false ∧ s.flag UPD_STAT_BUSY = false ∧ s.get UPD_STAT_STATE = 2 ∧ s.flag UPD_STAT_PREP = true) ∧
    (let s : State := { up [(UPD_STAT_STATE, 3)] with upd := { hoTick := some 0 }, time := { ticks := ticksOfMs 10 } }
     s.get UPD_STAT_STATE = 3 ∧ s.upd.committing = false ∧ s.upd.hoTick = some 0 ∧ 0 + ticksOfMs s.chryMs ≤ s.ticks) ∧
    (let s : State := { up [(UPD_STAT_STATE, 3), (IMG_STATUS_PHASE, 4)] with upd := { hoTick := some 0 } }
     s.get UPD_STAT_STATE = 3 ∧ s.upd.hoTick.isSome = true ∧ s.upd.committing = false ∧ s.get IMG_STATUS_PHASE = 4 ∧
      (List.range 1024).all (fun e => s.estate e ≤ 1) = true) ∧
    (let s : State := { up [(UPD_STAT_STATE, 3)] with upd := { committing := true } }
     s.get UPD_STAT_STATE = 3 ∧ s.upd.committing = true ∧ s.img.writing = none) := by
  refine ⟨?_, ?_, ?_, ?_, ?_⟩ <;> decide +kernel

/-! ## Constellation -/

/-- Member 0 of a constellation with member 7, the reference being `tref`, at a tick, agreed as given. -/
def member (tref t agreed : Nat) (c : Con) (l : List (Loc × Nat)) : State :=
  { up ([(CON_STAT_MEMBER, 1), (CON_PEER_CFG_DECL 7, 1), (CON_CFG_TREF, tref), (CON_PEER_STAT_AGREED 7, agreed)] ++ l) with
    con := c, time := { ticks := t } }

/-- Witnesses of ConstellationAgreement and of ConstellationFrames. -/
theorem witness_Constellations :
    ((up []).member = false ∧ (member 0 0 0 {} []).member = true ∧ 7 ∈ (member 0 0 0 {} []).peersOf ∧ 6 ∉ (member 0 0 0 {} []).peersOf ∧
      (member 0 0 0 {} []).self = 0) ∧
    (let s := member 0 50000 0 {} []
     s.con.periodTick + s.period ≤ s.ticks ∧ ¬0 + s.period ≤ 49999 ∧ s.mustFence = false) ∧
    ((member 7 0 1 {} [(CON_THETA_NS, 1001)]).mustFence = true ∧
      (member 0 0 0 {} [(CON_STAT_FENCED, 1)]).flag CON_STAT_FENCED = true) ∧
    (let s := member 7 0 1 {} []
     s.get CON_CFG_TREF = 7 ∧ s.flag (CON_PEER_STAT_AGREED 7) = true ∧ (member 0 0 1 {} []).get CON_CFG_TREF ≠ 7) ∧
    ((member 0 0 1 {} []).silent 7 = true ∧ (member 0 0 1 { peers := [(7, { lastTick := some 0 })] } []).silent 7 = false) ∧
    ((member 7 500001 1 {} []).thetaStale = true ∧ (member 7 500000 1 {} []).thetaStale = false) ∧
    (let s := up [(CON_DIS_VALID, 1), (CON_DIS_NOTICE, 1), (CON_DIS_J, 7)]
     s.flag CON_DIS_NOTICE = true ∧ s.con.disTick = s.ticks ∧ s.get CON_DIS_I = s.self ∧ s.get CON_DIS_J = 7) ∧
    ((up [(CON_DIS_VALID, 1)]).flag CON_DIS_VALID = true ∧ (up []).flag CON_DIS_VALID = false) ∧
    (member 0 0 1 {} [(⟨0x10, 15, 1⟩, 0)]).ready 15 = false ∧
    (let s := member 0 0 1 { peers := [(7, { lastTick := some 0 })] } [(GW_RT_CFG_VALID 1023, 1), (GW_RT_LEGS_FIRST 1023, 1023), (GW_LEG_CFG_KIND 1023, 1)]
     s.member = true ∧ s.ready 14 = true ∧ s.ready 15 = true ∧ s.silent 7 = false ∧ s.mustFence = false ∧ 7 ∈ s.peersOf ∧ s.flag (CON_PEER_STAT_AGREED 7) = true ∧
      s.flag (GW_RT_CFG_VALID 1023) = true ∧ 1023 ∉ s.gw.notStarted ∧ s.get (GW_RT_CFG_NLEG_M1 1023) = 0 ∧
      s.get (GW_LEG_CFG_KIND (s.get (GW_RT_LEGS_FIRST 1023))) ≠ 3 ∧ (up []).flag (GW_RT_CFG_VALID 0) = false) := by
  refine ⟨?_, ?_, ?_, ?_, ?_, ?_, ?_, ?_, ?_, ?_⟩ <;> decide +kernel

/-! ## Well-formed commands: each check refuses an ill-formed one -/

/-- A CAN frame with one data byte too few. -/
def short : Frame := { fmt := 0, id := 1, len := 1 }

theorem test_wf_frames :
    (Instr.frameReception 0 { frame := short, sof := 0, endNs := 0 }).wf = false ∧
    (Instr.frameReception 0 { frame := { short with len := 0 }, sof := 0, endNs := 0, wp := some { bits := [], edges := [⟨1, 0, 0, [], []⟩] } }).wf = false ∧
    (Instr.catalogueSearch 0 0 { short with len := 9, data := List.replicate 9 0 }).wf = false ∧
    (Instr.xlCandidateComplete 0 { short with len := 0 }).wf = false ∧
    (Instr.frameMessageReceive { src := 0, release := 0, stamp := 0, key := 0, route := 0, ingress := 0, msg := 0, idx := 0, taint := false, frame := short }).wf = false ∧
    (Instr.wakeDetected 0 (.frame { fmt := 1, id := 1, len := 0 } 0)).wf = false ∧
    (Instr.wakeDetected 0 (.frame { fmt := 0, id := 1, len := 0 } 9)).wf = false := by decide

theorem test_wf_accesses :
    (Instr.hallAccess { master := .host, addr := 0, acc := .read 0 }).wf = false ∧
    (Instr.hallAccess { master := .host, addr := 0, acc := .write [] }).wf = false ∧
    (Instr.hallAccess { master := .engine 0, addr := 0, acc := .fetch 4 }).wf = false ∧
    (Instr.hallAccess { master := .host, addr := 0, acc := .lr }).wf = false := by decide

theorem test_wf_messages :
    (Instr.specimenPacket 0 { time := 0, volts := List.replicate 8193 0 }).wf = false ∧
    (Instr.soundingAnalysisDone 0 [[0]]).wf = false ∧
    (Instr.tunnelAvtpduReceived 0 0 { subtype := 5, sid := 0, seq := 0, msgs := [
      { bus := 0, eff := false, rtr := false, fdf := false, brs := false, id := 0, data := List.replicate 9 0 }] }).wf = false ∧
    (Instr.agreeReceive 0 { fenced := false, thetaOk := false, version := 0, epoch := 0, ad := [], echo := (0, 0, 0), theta := 0 } 0 0 0).wf = false ∧
    (Instr.svcWrite { addr := 0 } []).wf = false ∧
    (Instr.dfuDnload 0 (List.replicate 4097 0) .ok).wf = false := by decide +kernel

theorem test_wf_accepts : (Instr.frameReception 0 { frame := { short with data := [7] }, sof := 0, endNs := 0 }).wf = true ∧
    (Instr.hallAccess { master := .engine 0, addr := 0, acc := .fetch 2 }).wf = true := by decide

/-! ## Worked examples of the spec and of the standards it names -/

/-- The bucket of extended identifier 0x0A3B_5C21 (chapter 07, R199). -/
theorem test_catHash_example : catHash true 0x0A3B5C21 = 0x162 := by decide

/-- XF.UNPACK a0, a1, a2 (chapter 10, R276). -/
theorem test_xfWord_example : xfWord 4 0 10 11 12 = 0x08C5850B := by decide

/-- The unit of hall offset 0x0234_5678 (chapter 11, R302). -/
theorem test_unitOf_example : unitOf 0x02345678 = 2255 := by decide

/-- A target 1 µs ahead across the wrap of the 32-bit nanosecond counter (chapter 12, R325). -/
theorem test_signedDiff32_example : signedDiff32 0xFFFFFED8 0x000002C0 = 1000 ∧ dueAt 0xFFFFFED8 0x000002C0 = false := by decide

/-- The two words of INC for 12.5 ppm (chapter 12, R323). -/
theorem test_inc_example : (match exec (.incLowWrite .host 0x0001A36E) (up []) with
    | .next s => (match exec (.incHighWrite .host 2) s with
      | .next t => t.get TIME_INC_INC == 0x20001A36E
      | _ => false)
    | _ => false) = true := by decide +kernel

/-- The handover of units 2,240 to 2,247 from station 3 to station 7 (chapter 11, R306). -/
theorem test_handover_example : (match exec (.hallHandover .host 2240 7 false)
      (up ((List.range 8).flatMap fun i => [(HALL_OWN_OWNER (2240 + i), 3), (HALL_OWN_CUR (2240 + i), 3), (HALL_OWN_ALT (2240 + i), 7)])) with
    | .next s => (match exec .handoverDone s with
      | .next t => (List.range 8).all fun i => t.get (HALL_OWN_CUR (2240 + i)) == 7
      | _ => false)
    | _ => false) = true := by decide +kernel

/-- AES-CMAC of the empty message (RFC 4493, example 1). -/
theorem test_cmac_empty : (cmac (beBytes 16 0x2b7e151628aed2a6abf7158809cf4f3c) []).take 4 = [0xbb, 0x1d, 0x69, 0x29] := by decide +kernel

/-- SHA-384 of "abc" (FIPS 180-4). -/
theorem test_sha384_abc : (sha384 (ascii "abc")).take 4 = [0xcb, 0x00, 0x75, 0x3f] := by decide +kernel

/-- No row of the table gives bits, so no word spells a command. -/
theorem test_no_words : decodeTableWord 32 0 = none := rfl

end Sys2Proof.Tests
end

/-! # The frame of every command, and the canonical form (O4, O5, O6)

The laws under `Laws/Only*` give, for each command, a set of parts outside which nothing changes, together with what every
command keeps (`OnlyM`, whose last field is `Keeps`). Here each such set is held against the list of `mayChange`: one lemma
over the commands, from which the frame and the canonical form both follow. -/

section

namespace Sys2Proof.Machine

/-- The set `m` lies within the set of a list of parts, as a computation. -/
def within (m : Nat) (l : List Part) : Bool := (m ||| maskOf l) == maskOf l

theorem Sub.of_within {m : Nat} {l : List Part} (h : within m l = true) : Sub m (maskOf l) := eq_of_beq h

/-- The same for the frame of a command, whose operands do not matter to the list: the list is computed first, so that what
is left to decide is closed. -/
theorem Sub.mayChange {m : Nat} {c : Instr}
    (h : within m (mayChange c) = true := by (conv in Machine.mayChange _ => whnf); decide +kernel) :
    Sub m (maskOf (Machine.mayChange c)) := Sub.of_within h

/-- What a command may change lies within its frame, and a command keeps what every command keeps. -/
theorem exec_only (s : State) (c : Instr) : OnlyOut (maskOf (mayChange c)) s (exec c s) := by
  cases c with
  | lowWordRead => exact execLowWordRead_only .refl Sub.mayChange
  | readClear => exact execReadClear_only .refl Sub.mayChange
  | registerWrite => exact execRegisterWrite_only .refl Sub.mayChange
  | dieLinkTransfer => exact execDieLinkTransfer_only .refl Sub.mayChange
  | heartbeatLoss => exact execHeartbeatLoss_only .refl Sub.mayChange
  | dieLinkRetrained => exact execDieLinkRetrained_only .refl Sub.mayChange
  | functionReady => exact execFunctionReady_only .refl Sub.mayChange
  | functionNotReady => exact execFunctionNotReady_only .refl Sub.mayChange
  | imgCheck => exact execImgCheck_only .refl Sub.mayChange
  | checkDone => exact execCheckDone_only .refl Sub.mayChange
  | imgStage => exact execImgStage_only .refl Sub.mayChange
  | stageDone => exact execStageDone_only .refl Sub.mayChange
  | imgCommit => exact execImgCommit_only .refl Sub.mayChange
  | imgAbort => exact execImgAbort_only .refl Sub.mayChange
  | imgCmdIgnored => exact execImgCmdIgnored_only .refl Sub.mayChange
  | switchInstant => exact execSwitchInstant_only .refl Sub.mayChange
  | portMove => exact execPortMove_only .refl Sub.mayChange
  | portForced => exact execPortForced_only .refl Sub.mayChange
  | imageRestore => exact execImageRestore_only .refl Sub.mayChange
  | shortDetected => exact execShortDetected_only .refl Sub.mayChange
  | faultEventEnd => exact execFaultEventEnd_only .refl Sub.mayChange
  | energyCutoff => exact execEnergyCutoff_only .refl Sub.mayChange
  | faultWaitExpiry => exact execFaultWaitExpiry_only .refl Sub.mayChange
  | retrySuccess => exact execRetrySuccess_only .refl Sub.mayChange
  | driverDisable => exact execDriverDisable_only .refl Sub.mayChange
  | driverEnable => exact execDriverEnable_only .refl Sub.mayChange
  | unlatch => exact execUnlatch_only .refl Sub.mayChange
  | portReset => exact execPortReset_only .refl Sub.mayChange
  | biasCheck => exact execBiasCheck_only .refl Sub.mayChange
  | governorSubmit => exact execGovernorSubmit_only .refl Sub.mayChange
  | governorBucket => exact execGovernorBucket_only .refl Sub.mayChange
  | deferralFlag => exact execDeferralFlag_only .refl Sub.mayChange
  | wakeDetected => exact execWakeDetected_only .refl Sub.mayChange
  | frameReception => exact execFrameReception_only .refl Sub.mayChange
  | exceptionEnd => exact execExceptionEnd_only .refl Sub.mayChange
  | integrationComplete => exact execIntegrationComplete_only .refl Sub.mayChange
  | transmitAttempt => exact execTransmitAttempt_only .refl Sub.mayChange
  | errorDetected => exact execErrorDetected_only .refl Sub.mayChange
  | beaconDue => exact execBeaconDue_only .refl Sub.mayChange
  | plcaStatusChange => exact execPlcaStatusChange_only .refl Sub.mayChange
  | plcaForeignBeacon => exact execPlcaForeignBeacon_only .refl Sub.mayChange
  | collision => exact execCollision_only .refl Sub.mayChange
  | opmodeWrite => exact execOpmodeWrite_only .refl Sub.mayChange
  | opmodeApply => exact execOpmodeApply_only .refl Sub.mayChange
  | cenStart => exact execCenStart_only .refl Sub.mayChange
  | cenStop => exact execCenStop_only .refl Sub.mayChange
  | sndStart => exact execSndStart_only .refl Sub.mayChange
  | sndAbort => exact execSndAbort_only .refl Sub.mayChange
  | enrStart => exact execEnrStart_only .refl Sub.mayChange
  | enrAbort => exact execEnrAbort_only .refl Sub.mayChange
  | capStart => exact execCapStart_only .refl Sub.mayChange
  | capStop => exact execCapStop_only .refl Sub.mayChange
  | capTrig => exact execCapTrig_only .refl Sub.mayChange
  | obsCmdIgnored => exact execObsCmdIgnored_only .refl Sub.mayChange
  | soundingUnitStart => exact execSoundingUnitStart_only .refl Sub.mayChange
  | soundingRecordDiscard => exact execSoundingRecordDiscard_only .refl Sub.mayChange
  | soundingAnalysisDone => exact execSoundingAnalysisDone_only .refl Sub.mayChange
  | soundingTimeout => exact execSoundingTimeout_only .refl Sub.mayChange
  | censusSlotDecision => exact execCensusSlotDecision_only .refl Sub.mayChange
  | specimenPacket => exact execSpecimenPacket_only .refl Sub.mayChange
  | descriptorWrite => exact execDescriptorWrite_only .refl Sub.mayChange
  | queue => exact execQueue_only .refl Sub.mayChange
  | cancel => exact execCancel_only .refl Sub.mayChange
  | release => exact execRelease_only .refl Sub.mayChange
  | abandon => exact execAbandon_only .refl Sub.mayChange
  | doorbellIgnored => exact execDoorbellIgnored_only .refl Sub.mayChange
  | portSelect n => rw [exec_portSelect]; exact execPortSelect_only .refl Sub.mayChange
  | txDeadline => exact execTxDeadline_only .refl Sub.mayChange
  | monitorArm => exact execMonitorArm_only .refl Sub.mayChange
  | monitorDeadline => exact execMonitorDeadline_only .refl Sub.mayChange
  | fspRelayout => exact execFspRelayout_only .refl Sub.mayChange
  | catalogueSearch => exact execCatalogueSearch_only .refl Sub.mayChange
  | xlCandidateComplete => exact execXlCandidateComplete_only .refl Sub.mayChange
  | insert => exact execInsert_only .refl Sub.mayChange
  | delete => exact execDelete_only .refl Sub.mayChange
  | replace => exact execReplace_only .refl Sub.mayChange
  | updCmdUnknown => exact execUpdCmdUnknown_only .refl Sub.mayChange
  | catUpdateApply => exact execCatUpdateApply_only .refl Sub.mayChange
  | catUpdateDone => exact execCatUpdateDone_only .refl Sub.mayChange
  | holdoffEnd => exact execHoldoffEnd_only .refl Sub.mayChange
  | recoveryComplete => exact execRecoveryComplete_only .refl Sub.mayChange
  | recover => exact execRecover_only .refl Sub.mayChange
  | quar => exact execQuar_only .refl Sub.mayChange
  | quarantineEffect => exact execQuarantineEffect_only .refl Sub.mayChange
  | slopeBucket => exact execSlopeBucket_only .refl Sub.mayChange
  | gatewayIngress => exact execGatewayIngress_only .refl Sub.mayChange
  | tunnelAvtpduReceived => exact execTunnelAvtpduReceived_only .refl Sub.mayChange
  | releaseInstant => exact execReleaseInstant_only .refl Sub.mayChange
  | waitingCopySlot => exact execWaitingCopySlot_only .refl Sub.mayChange
  | waitingCopyExpire => exact execWaitingCopyExpire_only .refl Sub.mayChange
  | breachWindowClose => exact execBreachWindowClose_only .refl Sub.mayChange
  | tunnelWindowTimeout => exact execTunnelWindowTimeout_only .refl Sub.mayChange
  | engineStart => exact execEngineStart_only .refl Sub.mayChange
  | engineHalt => exact execEngineHalt_only .refl Sub.mayChange
  | engineReset => exact execEngineReset_only .refl Sub.mayChange
  | engineCmdIgnored => exact execEngineCmdIgnored_only .refl Sub.mayChange
  | xfScan => exact execXfScan_only .refl Sub.mayChange
  | xfCopy => exact execXfCopy_only .refl Sub.mayChange
  | xfCmacStep => exact execXfCmacStep_only .refl Sub.mayChange
  | xfCmacFin => exact execXfCmacFin_only .refl Sub.mayChange
  | xfPack => exact execXfPack_only .refl Sub.mayChange
  | xfUnpack => exact execXfUnpack_only .refl Sub.mayChange
  | xcclean => exact execXcclean_only .refl Sub.mayChange
  | xcflush => exact execXcflush_only .refl Sub.mayChange
  | ownershipRequest => exact execOwnershipRequest_only .refl Sub.mayChange
  | timerCompare => exact execTimerCompare_only .refl Sub.mayChange
  | cluDoorbell => exact execCluDoorbell_only .refl Sub.mayChange
  | cluDoorack => exact execCluDoorack_only .refl Sub.mayChange
  | acq => exact execAcq_only .refl Sub.mayChange
  | tryLock => exact execTry_only .refl Sub.mayChange
  | rel => exact execRel_only .refl Sub.mayChange
  | fix => exact execFix_only .refl Sub.mayChange
  | withdraw => exact execWithdraw_only .refl Sub.mayChange
  | lockCmdIgnored => exact execLockCmdIgnored_only .refl Sub.mayChange
  | isramWrite => exact execIsramWrite_only .refl Sub.mayChange
  | oppTargetWrite => exact execOppTargetWrite_only .refl Sub.mayChange
  | regulatorGood => exact execRegulatorGood_only .refl Sub.mayChange
  | pllLockStable => exact execPllLockStable_only .refl Sub.mayChange
  | pllLockTimeout => exact execPllLockTimeout_only .refl Sub.mayChange
  | oppChangeDone => exact execOppChangeDone_only .refl Sub.mayChange
  | hallAccess => exact execHallAccess_only .refl Sub.mayChange
  | eccWriteback => exact execEccWriteback_only .refl Sub.mayChange
  | hallHandover => exact execHallHandover_only .refl Sub.mayChange
  | handoverDone => exact execHandoverDone_only .refl Sub.mayChange
  | hallRevoke => exact execHallRevoke_only .refl Sub.mayChange
  | revocationDone => exact execRevocationDone_only .refl Sub.mayChange
  | unitClearDone => exact execUnitClearDone_only .refl Sub.mayChange
  | testWord => exact execTestWord_only .refl Sub.mayChange
  | incLowWrite => exact execIncLowWrite_only .refl Sub.mayChange
  | incHighWrite => exact execIncHighWrite_only .refl Sub.mayChange
  | step => exact execStep_only .refl Sub.mayChange
  | stepForced => exact execStepForced_only .refl Sub.mayChange
  | stepApply => exact execStepApply_only .refl Sub.mayChange
  | lock => exact execLock_only .refl Sub.mayChange
  | unlock => exact execUnlock_only .refl Sub.mayChange
  | nonce => exact execNonce_only .refl Sub.mayChange
  | token => exact execToken_only .refl Sub.mayChange
  | timeCmdIgnored => exact execTimeCmdIgnored_only .refl Sub.mayChange
  | syncTimeout => exact execSyncTimeout_only .refl Sub.mayChange
  | nonceExpiry => exact execNonceExpiry_only .refl Sub.mayChange
  | trustExpiry => exact execTrustExpiry_only .refl Sub.mayChange
  | vaultTimeLoad => exact execVaultTimeLoad_only .refl Sub.mayChange
  | localTimeRestore => exact execLocalTimeRestore_only .refl Sub.mayChange
  | sourceRaise => exact execSourceRaise_only .refl Sub.mayChange
  | levelAssert => exact execLevelAssert_only .refl Sub.mayChange
  | levelDeassert => exact execLevelDeassert_only .refl Sub.mayChange
  | recordDelivery => exact execRecordDelivery_only .refl Sub.mayChange
  | eoi => exact execEoi_only .refl Sub.mayChange
  | headWrite => exact execHeadWrite_only .refl Sub.mayChange
  | moderationExpiry => exact execModerationExpiry_only .refl Sub.mayChange
  | holdOn => exact execHoldOn_only .refl Sub.mayChange
  | holdOff => exact execHoldOff_only .refl Sub.mayChange
  | holdExpiry => exact execHoldExpiry_only .refl Sub.mayChange
  | rateIntervalEnd => exact execRateIntervalEnd_only .refl Sub.mayChange
  | srcEnable => exact execSrcEnable_only .refl Sub.mayChange
  | faultOccurrence => exact execFaultOccurrence_only .refl Sub.mayChange
  | faultConditionEnd => exact execFaultConditionEnd_only .refl Sub.mayChange
  | clear => exact execClear_only .refl Sub.mayChange
  | clearAll => exact execClearAll_only .refl Sub.mayChange
  | enter => exact execEnter_only .refl Sub.mayChange
  | reclaim => exact execReclaim_only .refl Sub.mayChange
  | unlockRlock => exact execUnlockRlock_only .refl Sub.mayChange
  | returnStn => exact execReturn_only .refl Sub.mayChange
  | curCmdIgnored => exact execCurCmdIgnored_only .refl Sub.mayChange
  | autoClear => exact execAutoClear_only .refl Sub.mayChange
  | reclaimComplete => rw [exec_reclaimComplete]; exact execReclaimComplete_only .refl Sub.mayChange
  | curatorSelf => exact execCuratorSelf_only .refl Sub.mayChange
  | faultInject => exact execFaultInject_only .refl Sub.mayChange
  | vbatOkRise => exact execVbatOkRise_only .refl Sub.mayChange
  | vbatOkFall => exact execVbatOkFall_only .refl Sub.mayChange
  | railInWindow => exact execRailInWindow_only .refl Sub.mayChange
  | railFailure => exact execRailFailure_only .refl Sub.mayChange
  | railRetry => exact execRailRetry_only .refl Sub.mayChange
  | crystalStable => exact execCrystalStable_only .refl Sub.mayChange
  | clockLoss => exact execClockLoss_only .refl Sub.mayChange
  | enterA1 => exact execEnterA1_only .refl Sub.mayChange
  | enterA2 => exact execEnterA2_only .refl Sub.mayChange
  | enterA3 => exact execEnterA3_only .refl Sub.mayChange
  | wakeFromA1 => rw [exec_wakeFromA1]; exact execWakeFromA1_only .refl Sub.mayChange
  | wakeLead => exact execWakeLead_only .refl Sub.mayChange
  | wakeSource => exact execWakeSource_only .refl Sub.mayChange
  | watchTimerDue => exact execWatchTimerDue_only .refl Sub.mayChange
  | allowWrite => exact execAllowWrite_only .refl Sub.mayChange
  | hallRefresh => exact execHallRefresh_only .refl Sub.mayChange
  | vbkLowWindowOpen => exact execVbkLowWindowOpen_only .refl Sub.mayChange
  | lapseDecision => exact execLapseDecision_only .refl Sub.mayChange
  | thermalOnset => exact execThermalOnset_only .refl Sub.mayChange
  | thermalEnd => exact execThermalEnd_only .refl Sub.mayChange
  | laneLinkUp => exact execLaneLinkUp_only .refl Sub.mayChange
  | laneLinkDown => exact execLaneLinkDown_only .refl Sub.mayChange
  | streamFailback => exact execStreamFailback_only .refl Sub.mayChange
  | trainingRetry => exact execTrainingRetry_only .refl Sub.mayChange
  | keepaliveSend => exact execKeepaliveSend_only .refl Sub.mayChange
  | laneFrameSend => exact execLaneFrameSend_only .refl Sub.mayChange
  | laneFrameReceived => exact execLaneFrameReceived_only .refl Sub.mayChange
  | nativeFrameReceived => exact execNativeFrameReceived_only .refl Sub.mayChange
  | txAnWrite => exact execTxAnWrite_only .refl Sub.mayChange
  | hqTxTailWrite => exact execHqTxTailWrite_only .refl Sub.mayChange
  | hqRxHeadWrite => exact execHqRxHeadWrite_only .refl Sub.mayChange
  | pcieReset => exact execPcieReset_only .refl Sub.mayChange
  | pcieLinkUp => exact execPcieLinkUp_only .refl Sub.mayChange
  | msixUnmask => exact execMsixUnmask_only .refl Sub.mayChange
  | usbBusReset => exact execUsbBusReset_only .refl Sub.mayChange
  | usbSuspend => exact execUsbSuspend_only .refl Sub.mayChange
  | svcRead => exact execSvcRead_only .refl Sub.mayChange
  | svcWrite => exact execSvcWrite_only .refl Sub.mayChange
  | svcChallenge => exact execSvcChallenge_only .refl Sub.mayChange
  | svcUnlock => exact execSvcUnlock_only .refl Sub.mayChange
  | dbgHalt => exact execDbgHalt_only .refl Sub.mayChange
  | dbgStep => exact execDbgStep_only .refl Sub.mayChange
  | dbgResume => exact execDbgResume_only .refl Sub.mayChange
  | dbgReadReg => exact execDbgReadReg_only .refl Sub.mayChange
  | dbgWriteReg => exact execDbgWriteReg_only .refl Sub.mayChange
  | dfuDetach => exact execDfuDetach_only .refl Sub.mayChange
  | relock => exact execRelock_only .refl Sub.mayChange
  | keyWrite => exact execKeyWrite_only .refl Sub.mayChange
  | importKey => exact execImport_only .refl Sub.mayChange
  | derive => exact execDerive_only .refl Sub.mayChange
  | erase => exact execErase_only .refl Sub.mayChange
  | lc => exact execLc_only .refl Sub.mayChange
  | root => exact execRoot_only .refl Sub.mayChange
  | keyCommandDone => exact execKeyCommandDone_only .refl Sub.mayChange
  | sign => exact execSign_only .refl Sub.mayChange
  | verify => exact execVerify_only .refl Sub.mayChange
  | inc => exact execInc_only .refl Sub.mayChange
  | raise => exact execRaise_only .refl Sub.mayChange
  | tlogAppend => exact execTlogAppend_only .refl Sub.mayChange
  | tamperEvent => exact execTamperEvent_only .refl Sub.mayChange
  | manifest => exact execManifest_only .refl Sub.mayChange
  | chunk => exact execChunk_only .refl Sub.mayChange
  | prepare => exact execPrepare_only .refl Sub.mayChange
  | handover => exact execHandover_only .refl Sub.mayChange
  | confirm => exact execConfirm_only .refl Sub.mayChange
  | fallback => exact execFallback_only .refl Sub.mayChange
  | discard => exact execDiscard_only .refl Sub.mayChange
  | updCmdIgnored => exact execUpdCmdIgnored_only .refl Sub.mayChange
  | updCommandDone => exact execUpdCommandDone_only .refl Sub.mayChange
  | chrysalisDeadline => exact execChrysalisDeadline_only .refl Sub.mayChange
  | handoverCodeLoad => exact execHandoverCodeLoad_only .refl Sub.mayChange
  | trialJournal => exact execTrialJournal_only .refl Sub.mayChange
  | trialExpiry => exact execTrialExpiry_only .refl Sub.mayChange
  | updateBoot => exact execUpdateBoot_only .refl Sub.mayChange
  | dfuDnload => exact execDfuDnload_only .refl Sub.mayChange
  | dfuDnloadEnd => exact execDfuDnloadEnd_only .refl Sub.mayChange
  | agreeSend => exact execAgreeSend_only .refl Sub.mayChange
  | agreeReceive => exact execAgreeReceive_only .refl Sub.mayChange
  | peerSilence => exact execPeerSilence_only .refl Sub.mayChange
  | thetaStale => exact execThetaStale_only .refl Sub.mayChange
  | noticeReceive => exact execNoticeReceive_only .refl Sub.mayChange
  | frameMessageReceive => exact execFrameMessageReceive_only .refl Sub.mayChange
  | powerOnReset => exact execPowerOnReset_only .refl Sub.mayChange
  | packageReset => exact execPackageReset_only .refl Sub.mayChange
  | resetRelease => exact execResetRelease_only .refl Sub.mayChange
  | vbatLowChange => exact execVbatLowChange_only .refl Sub.mayChange
  | vbkLowChange => exact execVbkLowChange_only .refl Sub.mayChange
  | railWindowLoss => exact execRailWindowLoss_only .refl Sub.mayChange
  | wfi => exact execWfi_only .refl Sub.mayChange
  | mret => exact execMret_only .refl Sub.mayChange
  | usbVbusChange => exact execUsbVbusChange_only .refl Sub.mayChange
  | pcieL2Entry => exact execPcieL2Entry_only .refl Sub.mayChange
  | tamperRearm => exact execTamperRearm_only .refl Sub.mayChange

/-- A step keeps what every command keeps, but for the queue, which is the step's own: the front command runs on the queue's
rest `cs`, or with an empty queue a tick passes. -/
theorem step_keeps {s t : State} (h : step s = .next t) : ∃ cs, Keeps { s with pending := cs } t := by
  unfold step at h
  split at h
  · obtain rfl : s.idle = t := by injection h
    exact ⟨s.pending, (State.idle_only .refl (Sub.refl _)).keeps⟩
  · exact ⟨_, ((exec_only _ _).elim h).keeps⟩

end Sys2Proof.Machine

open Sys2Proof.Machine

/-- Settles O4, by the laws of each command. -/
theorem frameOfEveryCommand : Obligations.FrameOfEveryCommand :=
  fun c s _ h => ((exec_only s c).elim h).only (Sub.refl _)

/-- Settles O5: the canonical form is among what every step keeps. -/
theorem stepKeepsCanonical : Obligations.StepKeepsCanonical := by
  intro s t ⟨hregs, hmem⟩ h
  obtain ⟨cs, k⟩ := step_keeps h
  exact ⟨k.regs hregs, k.mem hmem⟩

/-- Settles O6: both tables are empty. -/
theorem resetIsCanonical : Obligations.ResetIsCanonical := ⟨⟨rfl, rfl⟩, rfl⟩

end

/-! # Accesses of the register space: words, latches, widths and readiness (O9, O10, O11) -/

section

namespace Sys2Proof.Machine

/-! ## What an access writes -/

/-- From the parts that change to what is written: the register words by themselves, and of the parts only those listed, or
such as say nothing of a field of the state. -/
theorem OnlyM.writes {s t : State} {l fs : List Part} {ws : List Nat} (h : OnlyM (maskOf l) s t)
    (hw : ∀ a, a ∉ ws → t.word a = s.word a) (hl : ∀ p ∈ l, p ∈ fs ∨ p.same s t) : Writes ws fs s t where
  words := hw
  fields p hp := by
    by_cases hpl : p ∈ l
    · exact (hl p hpl).resolve_left hp
    · exact (h.only (Sub.refl _)).parts p hpl

/-- An answer alone writes nothing. -/
theorem State.resp_writes (s : State) (x : Option Resp) : Writes [] [.resp] s { s with resp := x } :=
  OnlyM.writes (l := [.resp]) (OnlyM.respTo .refl rfl) (fun _ _ => rfl) (by simp)

section

variable {s t : State} {q : Requester} {off : RegOff} {size : Nat} {P : State → Prop}

theorem answers_readClear (h : s.readReg q off size = t) (hp : P t) : Answers (.readClear q off size) s P :=
  ⟨t, congrArg _ h, hp⟩

theorem answers_lowWordRead (h : s.readReg q off size = t) (hp : P t) : Answers (.lowWordRead q off size) s P :=
  ⟨t, congrArg _ h, hp⟩

theorem answers_registerWrite {w : Word} (h : s.writeReg q off size w = t) (hp : P t) :
    Answers (.registerWrite q off size w) s P :=
  ⟨t, congrArg _ h, hp⟩

end

/-! ## Which word a requester reaches -/

theorem State.copyAt_host (s : State) (r : RegRow) (a : Nat) :
    s.copyAt .host r a = if r.perReq then perRequester 64 + a else a := rfl

/-- The copies of two words of the register space that lie 4 apart are never the same word. -/
theorem State.copyAt_host_add_four_ne (s : State) (r h : RegRow) (a : Nat) :
    s.copyAt .host h (a + 4) ≠ s.copyAt .host r a := by
  have hp : perRequester 64 = 0x4100000000 := rfl
  rw [State.copyAt_host, State.copyAt_host, hp]
  split <;> split <;> omega

/-! ## The holding latch and RC fields (R6, R7) -/

theorem State.latch_setLatch (s : State) (q : Requester) (k : Nat) (v : Option (Nat × Word)) :
    (s.setLatch k v).latch q = if latchOf q = k then v else s.latch q := smapFind_put _ _ _ _ _

@[simp] theorem State.latch_answer (s : State) (q : Requester) (w : Nat) : (s.answer w).latch q = s.latch q := rfl

@[simp] theorem State.word_setLatch (s : State) (k : Nat) (v : Option (Nat × Word)) (a : Nat) : (s.setLatch k v).word a = s.word a :=
  rfl

theorem State.word_readClears (s : State) (r : RegRow) (c a : Nat) :
    (s.readClears r c).word a = if a = c then (s.word c &&& ~~~r.rc) ||| (resetWord c &&& r.rc) else s.word a := by
  unfold State.readClears
  split
  · rename_i hrc
    split
    · rename_i hac
      rw [hac, hrc]
      show s.word c = (s.word c &&& BitVec.allOnes 32) ||| (resetWord c &&& 0#32)
      rw [BitVec.and_zero, BitVec.or_zero, BitVec.and_allOnes]
    · rfl
  · rw [State.word_setWord]

/-- The read of a word that no high word of a 64-bit register follows latches nothing. -/
theorem State.latchHigh_eq_self (s : State) (q : Requester) {a : Nat} (h : ∀ r, rowAt (a + 4) = some r → r.hi = false) :
    s.latchHigh q a = s := by
  unfold State.latchHigh
  split
  · rename_i r hr
    simp [h r hr]
  · rfl

section

variable (s : State) (q : Requester) {a : Nat} {h : RegRow} (hrow : rowAt (a + 4) = some h) (hhi : h.hi = true)
include hrow hhi

/-- The read of a low word latches the high word as it reads. -/
theorem State.latch_latchHigh :
    (s.latchHigh q a).latch q = some (a + 4, s.readValue h (s.copyAt q h (a + 4))) := by
  have hk : latchOf q ≠ latchOf q + 2048 := by omega
  have hl (u : State) (r : RegRow) (c : Nat) : (u.readClears r c).latch q = u.latch q := by
    unfold State.readClears
    split <;> rfl
  simp only [State.latchHigh, hrow, hhi, if_true]
  split
  · rw [State.latch_setLatch, if_neg hk, hl, State.latch_setLatch, if_pos rfl]
  · rw [hl, State.latch_setLatch, if_pos rfl]

/-- The read of a low word counts as the read of the high word's RC fields. -/
theorem State.word_latchHigh (b : Nat) :
    (s.latchHigh q a).word b = (s.readClears h (s.copyAt q h (a + 4))).word b := by
  simp only [State.latchHigh, hrow, hhi, if_true]
  split <;> simp only [State.word_setLatch, State.word_readClears]

end

/-- The read of a word that the requester's latch holds returns the latched value and frees the latch. -/
theorem State.readRow_latched {s : State} {q : Requester} {r : RegRow} {a : Nat} {v : Word}
    (hn : a ≠ TIME_NOW_HI_SEC_HI.addr) (hl : s.latch q = some (a, v)) :
    s.readRow q r a = (s.setLatch (latchOf q) none).answer v.toNat := by
  unfold State.latch at hl
  simp [State.readRow, hn, hl]

/-- The read of a word that the requester's latch does not hold. -/
theorem State.readRow_live {s : State} {q : Requester} {r : RegRow} {a : Nat} (hn : a ≠ TIME_NOW_HI_SEC_HI.addr)
    (hl : ∀ v, s.latch q ≠ some (a, v)) :
    s.readRow q r a
      = ((s.readClears r (s.copyAt q r a)).latchHigh q a).answer (s.readValue r (s.copyAt q r a)).toNat := by
  unfold State.latch at hl
  simp only [State.readRow, if_neg hn]
  split
  · rename_i b v hb
    rw [if_neg fun e : b = a => hl v (e ▸ hb)]
  · rfl

/-! ## Accesses that reach their word -/

section

variable {s : State} {off : Nat} {r : RegRow} (h : s.Reaches off r)
include h

theorem State.Reaches.readReg_eq : s.readReg .host off 4 = s.readRow .host r off := by
  obtain ⟨hal, ⟨hisram, hcan, hrow⟩, hrdy, hend⟩ := h
  simp [State.readReg, State.readDecoded, State.access_host, *]

theorem State.Reaches.writeReg_eq {w : Word} (ha : s.action .host off w = none) :
    s.writeReg .host off 4 w = s.writeRow .host r off w := by
  obtain ⟨hal, ⟨hisram, hcan, hrow⟩, hrdy, hend⟩ := h
  simp [State.writeReg, State.access_host, *]

end

/-- The access types of R7, bit by bit. -/
theorem getLsbD_writeBits (r : RegRow) (governed : Bool) (old w : Word) {i : Nat} (hi : i < 32) :
    (writeBits r governed old w).getLsbD i =
      if r.w1s.getLsbD i && w.getLsbD i then true
      else if r.w1c.getLsbD i && w.getLsbD i then false
      else if r.rw.getLsbD i || r.wo.getLsbD i || (r.rwl.getLsbD i && !governed) then w.getLsbD i
      else old.getLsbD i := by
  have hrwl : (if governed then 0 else r.rwl : Word).getLsbD i = (r.rwl.getLsbD i && !governed) := by
    cases governed <;> simp
  simp only [writeBits, BitVec.getLsbD_or, BitVec.getLsbD_and, BitVec.getLsbD_not, hrwl, hi, decide_true, Bool.true_and]
  generalize (r.rw.getLsbD i || r.wo.getLsbD i || (r.rwl.getLsbD i && !governed)) = takes
  cases w.getLsbD i with
  | false => cases takes <;> simp
  | true => cases r.w1s.getLsbD i <;> cases r.w1c.getLsbD i <;> cases takes <;> simp

/-! ## Refused accesses (R5, R34) -/

theorem State.readReg_badWidth (s : State) (q : Requester) {off size : Nat} (h : size ≠ 4 ∨ off % 4 ≠ 0) :
    s.readReg q off size = s.badWidth q off false := by
  simp [State.readReg, h]

theorem State.writeReg_badWidth (s : State) (q : Requester) {off size : Nat} (w : Word) (h : size ≠ 4 ∨ off % 4 ≠ 0) :
    s.writeReg q off size w = s.badWidth q off true := by
  simp [State.writeReg, h]

section

variable {s : State} {off : Nat} {r : RegRow} (hal : off % 4 = 0) (hisram : isramAt off = none) (hcan : canonical off = off)
  (hrow : rowAt off = some r) (hrdy : s.blkReady r.blk off = false) (hend : s.ended = false)
include hal hisram hcan hrow hrdy hend

/-- A host read of a function that is not ready answers 0. -/
theorem State.readReg_notReady : s.readReg .host off 4 = (s.recordNracc off .host).answer 0 := by
  simp [State.readReg, State.readDecoded, State.access, *]

/-- A host write to a function that is not ready is discarded. -/
theorem State.writeReg_notReady {w : Word} (ha : s.action .host off w = none) :
    s.writeReg .host off 4 w = (s.recordNracc off .host).answerDone := by
  simp [State.writeReg, State.access, *]

end

/-- The record of a refused access, with its answer, writes CHIP.NRACC alone. -/
theorem State.recordNracc_resp_writes (s : State) (off : Nat) (q : Requester) (x : Option Resp) :
    Writes [0x1C] [.resp] s { s.recordNracc off q with resp := x } := by
  have h : OnlyM (maskOf [.resp, .CHIP_NRACC]) s { s.recordNracc off q with resp := x } :=
    OnlyM.respTo (State.recordNracc_only .refl (Sub.of_within (by decide +kernel))) rfl
  refine h.writes (fun a ha => (h.only (Sub.refl _)).words a fun p hp => ?_) (by simp [Part.same])
  simp only [List.mem_cons, List.not_mem_nil, or_false] at hp
  rcases hp with rfl | rfl
  · exact fun ho => ho
  · exact fun ho => ha (List.mem_singleton.mpr ho)

theorem State.recordNracc_valid (s : State) (off : Nat) (q : Requester) :
    (s.recordNracc off q).flag CHIP_NRACC_VALID = true := by
  unfold State.recordNracc
  split
  · assumption
  · exact State.flag_put_self _ _ _ (by decide) rfl

/-- A record that VALID holds stays. -/
theorem State.recordNracc_held {s : State} (off : Nat) (q : Requester) (h : s.flag CHIP_NRACC_VALID = true) :
    s.recordNracc off q = s := if_pos h

section

variable {s : State} (off : Nat) (q : Requester) (h : s.flag CHIP_NRACC_VALID = false)
include h

theorem State.recordNracc_src : (s.recordNracc off q).flag CHIP_NRACC_SRC = (q != .host) := by
  simp only [State.recordNracc, h, Bool.false_eq_true, if_false]
  rw [State.flag_put_apart _ _ _ _ (by unfold Loc.apart; decide), State.flag_put_self _ _ _ (by decide) rfl]

theorem State.recordNracc_waddr : (s.recordNracc off q).get CHIP_NRACC_WADDR = off / 4 % 2 ^ 25 := by
  simp only [State.recordNracc, h, Bool.false_eq_true, if_false]
  rw [State.get_put_apart _ _ _ _ (by unfold Loc.apart; decide), State.get_put_apart _ _ _ _ (by unfold Loc.apart; decide),
    State.get_set_self _ _ _ (by decide)]
  exact Nat.mod_mod _ _

end

end Sys2Proof.Machine

open Sys2Proof Sys2Proof.Machine

/-- Settles O9: a read of a low word, of a latched word and of any other word, each by the one thing that `readRow` does
there. -/
theorem registerReads : Obligations.RegisterReads := by
  refine ⟨?_, ?_, ?_⟩
  · intro s off r h hr hrow hhi hl
    have hn : off.val ≠ TIME_NOW_HI_SEC_HI.addr := by
      intro e
      have hnone : rowAt (TIME_NOW_HI_SEC_HI.addr + 4) = none := by decide +kernel
      rw [e, hnone] at hrow
      cases hrow
    have hc : (s.readClears r (s.copyAt .host r off)).copyAt .host h (off + 4) = s.copyAt .host h (off + 4) := rfl
    refine answers_lowWordRead (hr.readReg_eq.trans (State.readRow_live hn hl)) ⟨rfl, ?_, ?_⟩
    · rw [State.latch_answer, State.latch_latchHigh _ _ hrow hhi, hc]
    · rw [State.answer_word, State.word_latchHigh _ _ hrow hhi, hc, State.word_readClears, if_pos rfl,
        State.word_readClears, if_neg (State.copyAt_host_add_four_ne s r h off)]
  · intro s off r v hr hn hl
    refine answers_readClear (hr.readReg_eq.trans (State.readRow_latched hn hl)) ⟨rfl, ?_, ?_⟩
    · rw [State.latch_answer, State.latch_setLatch, if_pos rfl]
    · exact OnlyM.writes (l := [.latches, .resp])
        (State.answer_only (State.setLatch_only .refl (Sub.of_within (by decide +kernel))) (Sub.of_within (by decide +kernel)))
        (fun _ _ => rfl) (by simp)
  · intro s off r hr hn hl hlow
    have ht := hr.readReg_eq.trans (State.readRow_live hn hl)
    rw [State.latchHigh_eq_self _ _ hlow] at ht
    refine answers_readClear ht ⟨rfl, ?_, ?_⟩
    · rw [State.answer_word, State.word_readClears, if_pos rfl]
    · refine OnlyM.writes (l := [.resp, .anyReg])
        (State.answer_only (State.readClears_only .refl (Sub.of_within (by decide +kernel))) (Sub.of_within (by decide +kernel)))
        (fun a ha => ?_) (by simp [Part.same])
      rw [State.answer_word, State.word_readClears, if_neg (by simpa using ha)]

/-- Settles O10: the write of a word without an action is `writeBits` at the host's copy of it, and an answer. -/
theorem writeFollowsAccessTypes : Obligations.WriteFollowsAccessTypes := by
  intro s off r w hr hidle
  have ht : s.writeReg .host off 4 w
      = (s.setWord (s.copyAt .host r off) (writeBits r (!s.img.gov.isEmpty) (s.word (s.copyAt .host r off)) w)).answerDone := by
    rw [hr.writeReg_eq (hidle s).1]
    exact congrArg State.answerDone (hidle _).2
  refine answers_registerWrite ht ⟨rfl, fun i hi => ?_, ?_⟩
  · rw [State.answerDone_word, State.word_setWord, if_pos rfl, getLsbD_writeBits _ _ _ _ hi, Bool.not_not]
  · refine OnlyM.writes (l := [.resp, .anyReg])
      (State.answerDone_only (State.setWord_any_only .refl rfl) (Sub.of_within (by decide +kernel))) (fun a ha => ?_)
      (by simp [Part.same])
    rw [State.answerDone_word, State.word_setWord, if_neg (by simpa using ha)]

/-- Settles O11: the width is checked before anything else (R5); a function that is not ready leaves CHIP.NRACC (R34). -/
theorem refusedAccesses : Obligations.RefusedAccesses := by
  refine ⟨fun s off size w h => ?_, fun s off r hal hisram hcan hrow hrdy hend => ⟨?_, fun w ha => ?_⟩⟩
  · have hread (q : Requester) := State.readReg_badWidth s q h
    have hwrite (q : Requester) := State.writeReg_badWidth s q w h
    exact ⟨answers_registerWrite (hwrite .host) ⟨rfl, s.resp_writes _⟩, answers_readClear (hread .host) ⟨rfl, s.resp_writes _⟩,
      answers_lowWordRead (hread .host) ⟨rfl, s.resp_writes _⟩,
      fun e => ⟨answers_registerWrite (hwrite (.engine e)) rfl, answers_readClear (hread (.engine e)) rfl⟩⟩
  · refine answers_readClear (State.readReg_notReady hal hisram hcan hrow hrdy hend)
      ⟨rfl, State.recordNracc_resp_writes _ _ _ _, ?_, fun hv => State.recordNracc_src _ _ hv, State.recordNracc_valid _ _ _⟩
    rw [State.answer_get]
    cases hv : s.flag CHIP_NRACC_VALID with
    | true => rw [State.recordNracc_held _ _ hv, if_pos rfl]
    | false =>
      have := off.isLt
      rw [State.recordNracc_waddr _ _ hv, Nat.mod_eq_of_lt (by omega)]
      rfl
  · exact answers_registerWrite (State.writeReg_notReady hal hisram hcan hrow hrdy hend (ha s))
      ⟨rfl, State.recordNracc_resp_writes _ _ _ _⟩

end


/-! # Line ports: physical states, fault events, wire checks and the driver power governor (O22, O23, O24) -/

section

namespace Sys2Proof.Machine

/-! ## The hidden halves of a port and of a governor -/

section

variable (s : State) (n m : Nat) (f : Port → Port)

theorem State.port_modPort : (s.modPort n f).port m = if m = n then f (s.port n) else s.port m := smapFind_put _ _ _ _ _

@[simp] theorem State.port_modPort_self : (s.modPort n f).port n = f (s.port n) := by
  rw [State.port_modPort, if_pos rfl]

@[simp] theorem State.get_modPort (l : Loc) : (s.modPort n f).get l = s.get l := rfl
@[simp] theorem State.flag_modPort (l : Loc) : (s.modPort n f).flag l = s.flag l := rfl

@[simp] theorem State.port_setWord (a : Nat) (w : Word) : (s.setWord a w).port n = s.port n := rfl

@[simp] theorem State.port_set (l : Loc) (v : Nat) : (s.set l v).port n = s.port n := by
  unfold State.port; rw [State.set_ports]

@[simp] theorem State.port_put (l : Loc) (b : Bool) : (s.put l b).port n = s.port n := State.port_set ..
@[simp] theorem State.port_inc (l : Loc) : (s.inc l).port n = s.port n := State.port_set ..

@[simp] theorem State.port_endCond (a b : Nat) : (s.endCond a b).port n = s.port n := rfl

theorem State.port_of_ports {s t : State} (h : t.ports = s.ports) (n : Nat) : t.port n = s.port n := by
  unfold State.port; rw [h]

theorem State.govOf_setGov (d d' : Nat) (g : Governor) :
    (s.setGov d g).govOf d' = if d' = d then g else s.govOf d' := smapFind_put _ _ _ _ _

@[simp] theorem State.govOf_setGov_self (d : Nat) (g : Governor) : (s.setGov d g).govOf d = g := by
  rw [State.govOf_setGov, if_pos rfl]

theorem State.govOf_of_gov {s t : State} (h : t.gov = s.gov) (d : Nat) : t.govOf d = s.govOf d := by
  unfold State.govOf; rw [h]

end

/-- Two fields end in their words, and their bits lie apart. -/
def Loc.apartBits (a b : Loc) : Bool :=
  decide (a.lo + a.len ≤ 32) && decide (b.lo + b.len ≤ 32) &&
    (decide (a.lo + a.len ≤ b.lo) || decide (b.lo + b.len ≤ a.lo))

theorem Loc.apart_of_bits {a b : Loc} (h : a.apartBits b = true) : a.apart b := by
  simp only [Loc.apartBits, Bool.and_eq_true, Bool.or_eq_true, decide_eq_true_eq] at h
  exact ⟨h.1.1, h.1.2, .inr h.2⟩

theorem Loc.apart_of_addr {a b : Loc} (ha : a.lo + a.len ≤ 32) (hb : b.lo + b.len ≤ 32) (h : a.addr ≠ b.addr) : a.apart b :=
  ⟨ha, hb, .inl h⟩

theorem Loc.apart.symm {a b : Loc} (h : a.apart b) : b.apart a := by
  obtain ⟨ha, hb, hd⟩ := h
  exact ⟨hb, ha, hd.imp Ne.symm Or.symm⟩

/-! ## What goes on around a port's physical state

An attempt that ends, the governor, the bit engine, a sounding: none of them touches a port's physical state, its driver, its
retries or its fault event. `Around` says so once, and each operation has one lemma. -/

/-- What changes only parts of a set changes only parts of a larger one. -/
theorem OnlyM.mono {m m' : Nat} {s t : State} (h : OnlyM m s t) (k : Sub m m') : OnlyM m' s t where
  words a ha := h.words a fun p hp => ha p (k.bit hp)
  mem := h.mem.imp_left k.bit
  pending := h.pending.imp_left k.bit
  led := h.led.imp_left k.bit
  cur := h.cur.imp_left k.bit
  time := h.time.imp_left k.bit
  pwr := h.pwr.imp_left k.bit
  ports := h.ports.imp_left k.bit
  obs := h.obs.imp_left k.bit
  links := h.links.imp_left k.bit
  gov := h.gov.imp_left k.bit
  store := h.store.imp_left k.bit
  cat := h.cat.imp_left k.bit
  gw := h.gw.imp_left k.bit
  spine := h.spine.imp_left k.bit
  con := h.con.imp_left k.bit
  cores := h.cores.imp_left k.bit
  halls := h.halls.imp_left k.bit
  img := h.img.imp_left k.bit
  upd := h.upd.imp_left k.bit
  vault := h.vault.imp_left k.bit
  latches := h.latches.imp_left k.bit
  resp := h.resp.imp_left k.bit
  out := h.out.imp_left k.bit
  keeps := h.keeps

/-- The parts that may change around the physical states of the ports. -/
def aroundParts : List Part :=
  raiseParts ++ hallParts ++ slotParts ++ fspParts ++ portParts ++ busParts ++
    [.cores, .LP_EMETER, .LP_GOV_CNT, .OBS_STAT, .OBS_CAP_STAT, .ECF_MISC]

/-- The set of `aroundParts`. -/
abbrev aroundMask : Nat := 0x301100000002000000302403C58080010F1804040080005C041000000196CD

/-- The same without the ports' hidden halves and LP.STATE. -/
abbrev besideMask : Nat := 0x301100000002000000302403C58080010F1804040080005C0400000001968D

theorem aroundMask_eq : aroundMask = maskOf aroundParts := by decide +kernel

/-- `aroundMask` and LP.FAULT. -/
abbrev faultMask : Nat := 0x301100000002000000302403C58080010F1804040080005C051000000196CD

/-- `aroundMask` and LP.WIRE. -/
abbrev wireMask : Nat := 0x301100000002000000302403C58080010F1804040080005C049000000196CD

/-- The first words of LP.CTRL, CFG, WIRE, FAULT, MEAS, DEFER, WAKE_STAT and BT.TDC, which stay around the physical states. -/
def keptRegs : List Nat :=
  [0x01000000, 0x01000008, 0x01000010, 0x01000014, 0x01000018, 0x01000020, 0x01000038, 0x0100011C]

theorem aroundMask_away : (keptRegs.all fun c => awayFam aroundMask c 0x1000 128) = true := by decide +kernel

/-- Of these, what a fault event leaves alone: CTRL and CFG; and the conditions that all ports share. -/
theorem faultMask_away : ([0x01000000, 0x01000008].all fun c => awayFam faultMask c 0x1000 128) = true ∧
    away faultMask CUR_STAT_SAFE.addr = true ∧ away faultMask 0x10 = true := by decide +kernel

/-- Of these, what a wire check leaves alone: FAULT and MEAS. -/
theorem wireMask_away : ([0x01000014, 0x01000018].all fun c => awayFam wireMask c 0x1000 128) = true := by decide +kernel

/-- The fields of LP[n].STATE but DEFERRED, which is the governor's (R92). -/
def physicalFields (n : Nat) : List Loc :=
  [LP_STATE_PSTATE n, LP_STATE_FOLDED n, LP_STATE_RETRY n, LP_STATE_DRV n, LP_STATE_PENDING n]

/-- The fault event in progress, the latch and the wait of a port (R81 to R84). -/
abbrev Port.faults (p : Port) : Option Nat × Bool × Option Nat := (p.event, p.latched, p.faultOff)

/-- From `s` to `t` no port's physical state, driver, retries, fault event, latch or wait changes. -/
structure SamePhysics (s t : State) : Prop where
  field : ∀ n, ∀ l ∈ physicalFields n, t.get l = s.get l
  port : ∀ n, (t.port n).faults = (s.port n).faults

/-- The same, and nothing changes that has nothing to do with the ports' traffic. -/
structure Around (s t : State) : Prop extends SamePhysics s t where
  only : OnlyM aroundMask s t

/-- The set leaves the ports' hidden halves alone, and LP.STATE, whose first word is at 0x01000004. -/
def besidePhysics (m : Nat) : Bool := awayFam m 0x01000004 0x1000 128 && !m.testBit Part.ports.ctorIdx

theorem besideMask_physics : besidePhysics besideMask = true := by decide +kernel

theorem lpWire_physics : besidePhysics (maskOf [.LP_WIRE]) = true := by decide +kernel

theorem physicalFields_word {n : Nat} {l : Loc} (h : l ∈ physicalFields n) :
    l.addr = 0x01000004 + 0x1000 * (n % 128) ∧ l.lo + l.len ≤ 32 := by
  simp only [physicalFields, List.mem_cons, List.not_mem_nil, or_false] at h
  rcases h with rfl | rfl | rfl | rfl | rfl <;> exact ⟨rfl, of_decide_eq_true rfl⟩

/-- A field of LP.FAULT lies in another word. -/
theorem physicalFields_apart {n : Nat} {l m : Loc} (h : l ∈ physicalFields n) (hm : m.addr = 0x01000014 + 0x1000 * (n % 128))
    (hw : m.lo + m.len ≤ 32) : m.apart l := by
  obtain ⟨ha, hl⟩ := physicalFields_word h
  exact Loc.apart_of_addr hw hl (by omega)

section

variable {s0 s t : State} {n m d k b c v e : Nat}

/-- A field of a register of the line ports that the parts leave alone. -/
theorem OnlyM.lineField {c : Nat} {rs : List Nat} {l : Loc} (h : OnlyM m s t)
    (hm : (rs.all fun c => awayFam m c 0x1000 128) = true) (hl : l.addr = c + 0x1000 * (n % 128)) (hc : c ∈ rs)
    (hw : l.lo + l.len ≤ 32) : t.get l = s.get l :=
  h.getAway l (hl ▸ awayFam_spec (by decide) (List.all_eq_true.mp hm c hc)) (.inl hw)

/-- A field of a register that stays around the physical states. -/
theorem OnlyM.kept {c : Nat} {l : Loc} (h : OnlyM aroundMask s t) (hl : l.addr = c + 0x1000 * (n % 128))
    (hw : l.lo + l.len ≤ 32 := by exact of_decide_eq_true rfl) (hc : c ∈ keptRegs := by decide) : t.get l = s.get l :=
  h.lineField aroundMask_away hl hc hw

theorem OnlyM.keptFlag {c : Nat} {l : Loc} (h : OnlyM aroundMask s t) (hl : l.addr = c + 0x1000 * (n % 128))
    (hw : l.lo + l.len ≤ 32 := by exact of_decide_eq_true rfl) (hc : c ∈ keptRegs := by decide) : t.flag l = s.flag l :=
  congrArg (decide <| · = 1) (h.kept hl hw hc)

theorem OnlyM.ports_eq (h : OnlyM m s t) (hm : m.testBit Part.ports.ctorIdx = false) : t.ports = s.ports :=
  h.ports.resolve_left (by rw [show (6 : Nat) = Part.ports.ctorIdx from rfl, hm]; decide)

theorem OnlyM.port (h : OnlyM m s t) (hm : m.testBit Part.ports.ctorIdx = false) (n : Nat) : t.port n = s.port n :=
  State.port_of_ports (h.ports_eq hm) n

theorem SamePhysics.trans (h : SamePhysics s0 s) (h' : SamePhysics s t) : SamePhysics s0 t where
  field n l hl := (h'.field n l hl).trans (h.field n l hl)
  port n := (h'.port n).trans (h.port n)

section

variable (h : SamePhysics s t) (n : Nat)
include h

theorem SamePhysics.event : (t.port n).event = (s.port n).event := congrArg (·.1) (h.port n)
theorem SamePhysics.latched : (t.port n).latched = (s.port n).latched := congrArg (·.2.1) (h.port n)
theorem SamePhysics.faultOff : (t.port n).faultOff = (s.port n).faultOff := congrArg (·.2.2) (h.port n)

theorem SamePhysics.pstate : t.get (LP_STATE_PSTATE n) = s.get (LP_STATE_PSTATE n) :=
  h.field n _ (by simp [physicalFields])

theorem SamePhysics.retry : t.get (LP_STATE_RETRY n) = s.get (LP_STATE_RETRY n) :=
  h.field n _ (by simp [physicalFields])

theorem SamePhysics.drv : t.flag (LP_STATE_DRV n) = s.flag (LP_STATE_DRV n) :=
  congrArg (decide <| · = 1) (h.field n (LP_STATE_DRV n) (by simp [physicalFields]))

theorem SamePhysics.pending : t.flag (LP_STATE_PENDING n) = s.flag (LP_STATE_PENDING n) :=
  congrArg (decide <| · = 1) (h.field n (LP_STATE_PENDING n) (by simp [physicalFields]))

theorem SamePhysics.folded : t.flag (LP_STATE_FOLDED n) = s.flag (LP_STATE_FOLDED n) :=
  congrArg (decide <| · = 1) (h.field n (LP_STATE_FOLDED n) (by simp [physicalFields]))

end

/-- A change of parts beside the ports' hidden halves and LP.STATE. -/
theorem OnlyM.samePhysics (o : OnlyM m s t) (hm : besidePhysics m = true) : SamePhysics s t := by
  simp only [besidePhysics, Bool.and_eq_true, Bool.not_eq_true'] at hm
  obtain ⟨hs, hp⟩ := hm
  refine ⟨fun n l hl => ?_, fun n => by rw [o.port hp]⟩
  obtain ⟨ha, hlen⟩ := physicalFields_word hl
  exact o.getAway l (ha ▸ awayFam_spec (by decide) hs) (.inl hlen)

theorem SamePhysics.beside (h : SamePhysics s0 s) (o : OnlyM m s t) (hm : besidePhysics m = true) : SamePhysics s0 t :=
  h.trans (o.samePhysics hm)

theorem SamePhysics.modPort {f : Port → Port} (h : SamePhysics s0 s)
    (hf : ∀ p, (f p).faults = p.faults := by intro _; rfl) : SamePhysics s0 (s.modPort n f) := by
  refine h.trans ⟨fun _ _ _ => rfl, fun m => ?_⟩
  rw [State.port_modPort]
  split
  · subst m; exact hf _
  · rfl

theorem Around.refl : Around s s := ⟨⟨fun _ _ _ => rfl, fun _ => rfl⟩, .refl⟩

theorem Around.trans (h : Around s0 s) (h' : Around s t) : Around s0 t :=
  ⟨h.toSamePhysics.trans h'.toSamePhysics, h.only.trans h'.only⟩

theorem Around.beside (h : Around s0 s) (o : OnlyM besideMask s t) : Around s0 t :=
  ⟨h.toSamePhysics.beside o besideMask_physics, h.only.trans (o.mono rfl)⟩

theorem Around.modPort {f : Port → Port} (h : Around s0 s) (hf : ∀ p, (f p).faults = p.faults := by intro _; rfl) :
    Around s0 (s.modPort n f) :=
  ⟨h.toSamePhysics.modPort hf, State.modPort_only h.only rfl⟩

theorem Around.putDeferred {v : Bool} (h : Around s0 s) : Around s0 (s.put (LP_STATE_DEFERRED n) v) := by
  refine h.trans ⟨⟨fun m l hl => ?_, fun _ => by simp⟩, State.put_only (LP_STATE_DEFERRED_holds _) .refl rfl⟩
  refine State.get_put_apart _ _ _ _ ?_
  simp only [physicalFields, List.mem_cons, List.not_mem_nil, or_false] at hl
  rcases hl with rfl | rfl | rfl | rfl | rfl <;> exact Loc.apart_of_bits rfl

theorem Around.when {b : Bool} {f : State → State} (h : Around s0 s) (hf : Around s0 s → Around s0 (f s)) :
    Around s0 (s.when b f) := by
  unfold State.when
  split
  · exact hf h
  · exact h

/-! ### The operations -/

theorem Around.govStat (h : Around s0 s) : Around s0 (s.govStat d) :=
  h.beside (State.govStat_only .refl rfl)

theorem Around.setGov {g : Governor} (h : Around s0 s) : Around s0 (s.setGov d g) :=
  h.beside (State.setGov_only .refl rfl)

theorem Around.lpCause (h : Around s0 s) : Around s0 (s.lpCause n c b) :=
  h.beside (State.lpCause_only .refl rfl)

theorem Around.btCause (h : Around s0 s) : Around s0 (s.btCause n c b) :=
  h.beside (State.btCause_only .refl rfl)

theorem Around.report (h : Around s0 s) : Around s0 (s.report n c) :=
  h.beside (State.report_only .refl rfl)

theorem Around.occur (h : Around s0 s) : Around s0 (s.occur n c) :=
  h.beside (State.occur_only .refl rfl)

theorem Around.endCond (h : Around s0 s) : Around s0 (s.endCond n c) :=
  h.beside (State.endCond_only .refl rfl)

theorem Around.setB (h : Around s0 s) : Around s0 (s.setB n b) :=
  h.beside (State.setB_only .refl rfl)

theorem Around.rxOnly (h : Around s0 s) : Around s0 (s.rxOnly n) :=
  h.beside (State.rxOnly_only .refl rfl)

theorem Around.requeue (h : Around s0 s) : Around s0 (s.requeue n) :=
  h.beside (State.requeue_only .refl rfl)

theorem Around.setSlotState (h : Around s0 s) : Around s0 (s.setSlotState k v) :=
  h.beside (State.setSlotState_only .refl rfl)

theorem Around.sndRequest (h : Around s0 s) : Around s0 (s.sndRequest n) :=
  h.beside (State.sndRequest_only .refl rfl)

theorem Around.sndEnd (h : Around s0 s) : Around s0 (s.sndEnd n v) :=
  h.beside (State.sndEnd_only .refl rfl)

theorem Around.sndAbort (h : Around s0 s) : Around s0 (s.sndAbort n) :=
  h.beside (State.sndAbort_only .refl rfl)

theorem Around.cenAbort (h : Around s0 s) : Around s0 (s.cenAbort n) :=
  h.beside (State.cenAbort_only .refl rfl)

theorem Around.enrAbort (h : Around s0 s) : Around s0 (s.enrAbort n) :=
  h.beside (State.enrAbort_only .refl rfl)

/-- A write of a field of another register. -/
theorem Around.set {p : Part} {l : Loc} (h : Around s0 s) (hl : p.holds l)
    (hp : besideMask.testBit p.ctorIdx = true := by rfl) : Around s0 (s.set l v) :=
  h.beside (State.set_only hl .refl hp)

theorem Around.put {p : Part} {l : Loc} {x : Bool} (h : Around s0 s) (hl : p.holds l)
    (hp : besideMask.testBit p.ctorIdx = true := by rfl) : Around s0 (s.put l x) := h.set hl hp

theorem Around.add {p : Part} {l : Loc} (h : Around s0 s) (hl : p.holds l)
    (hp : besideMask.testBit p.ctorIdx = true := by rfl) : Around s0 (s.add l v) := h.set hl hp

theorem Around.inc {p : Part} {l : Loc} (h : Around s0 s) (hl : p.holds l)
    (hp : besideMask.testBit p.ctorIdx = true := by rfl) : Around s0 (s.inc l) := h.set hl hp

theorem Around.meter (h : Around s0 s) : Around s0 (s.meter n e) := by
  unfold State.meter
  exact (h.setGov.modPort.add (LP_EMETER_E_holds _)).govStat

theorem Around.admitPort (h : Around s0 s) : Around s0 (s.admitPort n k) := by
  unfold State.admitPort
  exact (h.modPort).putDeferred.setSlotState.govStat

theorem Around.undefer (h : Around s0 s) : Around s0 (s.undefer n) := by
  unfold State.undefer
  exact h.setGov.modPort.putDeferred.govStat

theorem Around.admitHeads (h : Around s0 s) : Around s0 (s.admitHeads d k) := by
  induction k generalizing s with
  | zero => exact h
  | succ k ih =>
    unfold State.admitHeads
    split
    · exact h
    · split
      · exact ih h.undefer
      · split
        · exact ih h.undefer.admitPort
        · exact h

theorem Around.releaseReservation (h : Around s0 s) : Around s0 (s.releaseReservation n) := by
  unfold State.releaseReservation
  split
  · exact h
  · exact (h.modPort).admitHeads.govStat

theorem Around.dropAttempt (h : Around s0 s) : Around s0 (s.dropAttempt n) := by
  unfold State.dropAttempt
  exact (h.modPort).requeue.releaseReservation

theorem Around.abandonAttempt (h : Around s0 s) : Around s0 (s.abandonAttempt n) := by
  unfold State.abandonAttempt
  exact (h.when fun h => h.inc (ECF_MISC_ABANDON_holds _)).dropAttempt

theorem Around.applyOpmode (h : Around s0 s) : Around s0 (s.applyOpmode n) := by
  unfold State.applyOpmode
  split
  · exact h
  · dsimp only
    split
    · exact h.modPort.rxOnly
    · exact h.modPort.dropAttempt.undefer.rxOnly

theorem Around.recoveryStep (h : Around s0 s) : Around s0 (s.recoveryStep n) := by
  unfold State.recoveryStep
  split
  · exact h.set (ECF_STAT_RSTEP_holds _)
  · dsimp only
    split
    · exact ((h.set (ECF_STAT_RSTEP_holds _)).put (ECF_BO_ESC_holds _)).btCause.report
    · exact (h.modPort).set (ECF_STAT_RSTEP_holds _)
  · exact h.set (ECF_STAT_RSTEP_holds _)

/-- The instant of a bus-off. -/
theorem Around.setBusOffTime (h : Around s0 s) : Around s0 (s.setStamp (ECF_BO_T_NS n).addr v) :=
  h.beside (State.setStamp_only (ECF_BO_T_NS_holds _).own (ECF_BO_T_NS_next _) .refl rfl)

theorem Around.enterBusOff {quar : Bool} (h : Around s0 s) : Around s0 (s.enterBusOff n quar) := by
  unfold State.enterBusOff
  extract_lets s1 s2 s3 s4 s5 s6 s7 s8 s9
  have h2 : Around s0 s2 := h.dropAttempt.undefer.put (MOP_PORTHEAD_VALID_holds _)
  have h3 : Around s0 s3 := by
    unfold s3
    split
    · exact h2
    · exact h2.setBusOffTime
  have h5 : Around s0 s5 :=
    ((((h3.set (ECF_STAT_ESTATE_holds _)).inc (ECF_BO_TOTAL_holds _)).put (ECF_BO_CAUSE_holds _)).put
      (ECF_BO_ESC_holds _)).set (ECF_STAT_SEQ_holds _) |>.put (ECF_STAT_QPEND_holds _)
  have h7 : Around s0 s7 :=
    ((h5.modPort).when fun h => h.setB).put (BT_STAT_PHASE_holds _)
  have h9 : Around s0 s9 := by
    unfold s9
    split
    · exact h7.btCause.occur.set (ECF_STAT_RSTEP_holds _)
    · exact h7.btCause.occur.recoveryStep
  exact h9.when fun h => h.sndRequest

theorem Around.integrate (h : Around s0 s) : Around s0 (s.integrate n) := by
  unfold State.integrate
  extract_lets rx s1 s2
  have h2 : Around s0 s2 := ((h.modPort).setB.put (BT_STAT_PHASE_holds _)).applyOpmode
  split
  · exact h2.enterBusOff
  · exact h2

theorem Around.startEngine (h : Around s0 s) : Around s0 (s.startEngine n) := by
  unfold State.startEngine
  exact h.integrate.when fun h => h.setB

theorem Around.modObs {f : ObsPort → ObsPort} (h : Around s0 s) : Around s0 (s.modObs n f) :=
  h.beside { (OnlyM.refl : OnlyM besideMask s s) with words := fun _ _ => rfl, obs := .inl rfl, keeps := Keeps.upd .rfl }

theorem Around.capTrigger (h : Around s0 s) : Around s0 (s.capTrigger n b) := by
  unfold State.capTrigger
  split
  · extract_lets post pre armed s1
    have h1 : Around s0 s1 := h.modObs
    split
    · exact h1.set (OBS_CAP_STAT_STATE_holds _)
    · exact h1
  · exact h

end

/-! ## The physical state by its conditions (R76) -/

/-- None of the conditions that come before the latch holds: mode OFF, a sleeping package, SAFE, the local fallback (R76). -/
def State.operational (s : State) (n : Nat) : Bool :=
  s.get (LP_CFG_MODE n) != 0 && !s.asleep && !(s.flag CUR_STAT_SAFE || s.fallback (dieOf n))

section

variable {s t : State} {n p : Nat}

theorem State.pstateNow_operational (h : s.operational n = true) :
    s.pstateNow n = if (s.port n).latched then 3 else if s.flag (LP_CTRL_DRV_DIS n) then 4
      else if (s.port n).faultOff.isSome then 2 else 1 := by
  simp only [State.operational, Bool.and_eq_true, bne_iff_ne, Bool.not_eq_true'] at h
  obtain ⟨⟨hmode, hasleep⟩, hsafe⟩ := h
  simp [State.pstateNow, hmode, hasleep, hsafe]

/-- A port in ACTIVE, FAULT_WAIT, LATCHED or DISABLED is operational. -/
theorem State.operational_of_pstateNow (h : s.pstateNow n = p) (h1 : 1 ≤ p) (h4 : p ≤ 4) : s.operational n = true := by
  unfold State.pstateNow at h
  split at h
  · omega
  · split at h
    · split at h <;> omega
    · split at h
      · omega
      · simp_all [State.operational]

/-- The conditions of the physical state that lie outside the port. -/
theorem OnlyM.operational (h : OnlyM faultMask s t) (n : Nat) : t.operational n = s.operational n := by
  have emode : t.get (LP_CFG_MODE n) = s.get (LP_CFG_MODE n) :=
    h.lineField faultMask_away.1 rfl (by decide) (of_decide_eq_true rfl)
  have esafe := h.flagAway CUR_STAT_SAFE faultMask_away.2.1 (.inl (by decide))
  have epwr : t.pwr = s.pwr := h.pwr.resolve_left (by decide)
  have elinks : t.links = s.links := h.links.resolve_left (by decide)
  simp only [State.operational, State.asleep, State.fallback, State.link, emode, esafe, epwr, elinks]

theorem OnlyM.drvDis (h : OnlyM faultMask s t) (n : Nat) : t.flag (LP_CTRL_DRV_DIS n) = s.flag (LP_CTRL_DRV_DIS n) :=
  congrArg (decide <| · = 1)
    (h.lineField (n := n) (l := LP_CTRL_DRV_DIS n) faultMask_away.1 rfl (by decide) (of_decide_eq_true rfl))

/-- Readiness does not follow the ports. -/
theorem OnlyM.ready (h : OnlyM faultMask s t) (b : Nat) : t.ready b = s.ready b := by
  unfold State.ready
  rw [h.getAway (readyLoc b) faultMask_away.2.2 (.inl (by show b % 32 + 1 ≤ 32; omega))]

/-- What stays around the physical states stays with fault events. -/
theorem OnlyM.withFaults (h : OnlyM aroundMask s t) : OnlyM faultMask s t := h.mono rfl

end

/-! ## Changes among ACTIVE, FAULT_WAIT, LATCHED and DISABLED (R75 to R80) -/

theorem State.driver_flag_drv (s : State) (n : Nat) :
    (s.driver n).flag (LP_STATE_DRV n) = (decide (s.get (LP_STATE_PSTATE n) = 1) && s.ready 2) := by
  unfold State.driver
  split
  · rename_i h
    rw [State.flag_put_apart _ _ _ _ (Loc.apart_of_bits rfl), State.flag_put_self _ _ _ (of_decide_eq_true rfl) rfl, h]
  · rename_i h
    rw [State.flag_put_self _ _ _ (of_decide_eq_true rfl) rfl, Bool.eq_false_iff.mpr h]

/-- The driver touches DRV and FOLDED alone. -/
theorem State.get_driver (s : State) {n : Nat} {l : Loc} (hd : (LP_STATE_DRV n).apart l) (hf : (LP_STATE_FOLDED n).apart l) :
    (s.driver n).get l = s.get l := by
  unfold State.driver
  split
  · rw [State.get_put_apart _ _ _ _ hf, State.get_put_apart _ _ _ _ hd]
  · exact State.get_put_apart _ _ _ _ hd

theorem State.flag_driver (s : State) {n : Nat} {l : Loc} (hd : (LP_STATE_DRV n).apart l) (hf : (LP_STATE_FOLDED n).apart l) :
    (s.driver n).flag l = s.flag l := by
  unfold State.flag; rw [s.get_driver hd hf]

@[simp] theorem State.port_driver (s : State) (n m : Nat) : (s.driver n).port m = s.port m := by
  unfold State.driver
  split <;> simp

@[simp] theorem State.when_false (s : State) (f : State → State) : s.when false f = s := rfl

/-- What follows the change of STATE to `new`, one of 1 to 4, and comes before the driver: a bit engine that runs integrates
on the way to ACTIVE, and a sounding that the new state does not permit ends (R118, R143). -/
def State.afterMove (s : State) (n new : Nat) : State :=
  let s := s.when (new = 1 && 2 ≤ s.bstate n && s.bstate n ≤ 5) fun s => s.integrate n
  s.when (s.sndBusy n && !s.sndPermitted n) fun s => s.sndEnd n 5

/-- A port after a change to physical state `p`: the driver follows, and everything else that decides about the port's faults is
as before. -/
structure MovesTo (n p : Nat) (s t : State) : Prop where
  pstate : t.get (LP_STATE_PSTATE n) = p
  drv : t.flag (LP_STATE_DRV n) = (decide (p = 1) && s.ready 2)
  retry : t.get (LP_STATE_RETRY n) = s.get (LP_STATE_RETRY n)
  pending : t.flag (LP_STATE_PENDING n) = s.flag (LP_STATE_PENDING n)
  faults : (t.port n).faults = (s.port n).faults
  lastE : t.get (LP_FAULT_LAST_E n) = s.get (LP_FAULT_LAST_E n)

section

variable {s s0 t u : State} {n p old new : Nat}

theorem Around.afterMove (h : Around s0 s) : Around s0 (s.afterMove n new) := by
  unfold State.afterMove
  exact (h.when fun h => h.integrate).when fun h => h.sndEnd

theorem Around.ready (h : Around s t) (b : Nat) : t.ready b = s.ready b := h.only.withFaults.ready b

theorem Around.ticks (h : Around s t) : t.ticks = s.ticks := congrArg TimeUnit.ticks (h.only.time.resolve_left (by decide))

theorem Around.lastE (h : Around s t) (n : Nat) : t.get (LP_FAULT_LAST_E n) = s.get (LP_FAULT_LAST_E n) := h.only.kept rfl

/-- STATE changes, and what follows. -/
theorem State.movesTo_set (s : State) (hp : p < 8) :
    MovesTo n p s ((((s.set (LP_STATE_PSTATE n) p).afterMove n p).driver n).rxOnly n) := by
  have hset : OnlyM aroundMask s (s.set (LP_STATE_PSTATE n) p) :=
    State.set_only (LP_STATE_PSTATE_holds n) .refl rfl
  have hps : (s.set (LP_STATE_PSTATE n) p).get (LP_STATE_PSTATE n) = p := by
    rw [State.get_set_self _ _ _ (of_decide_eq_true rfl)]
    exact Nat.mod_eq_of_lt hp
  have h : Around (s.set (LP_STATE_PSTATE n) p) ((s.set (LP_STATE_PSTATE n) p).afterMove n p) := Around.refl.afterMove
  have hdrv := State.driver_only (n := n) (hset.trans h.only) rfl
  have hrx : Around (((s.set (LP_STATE_PSTATE n) p).afterMove n p).driver n) _ := Around.refl.rxOnly (n := n)
  constructor
  case pstate => rw [hrx.pstate, State.get_driver _ (Loc.apart_of_bits rfl) (Loc.apart_of_bits rfl), h.pstate, hps]
  case drv => rw [hrx.drv, State.driver_flag_drv, h.pstate, hps, h.ready, hset.withFaults.ready 2]
  case retry =>
    rw [hrx.retry, State.get_driver _ (Loc.apart_of_bits rfl) (Loc.apart_of_bits rfl), h.retry,
      State.get_set_apart _ _ _ _ (Loc.apart_of_bits rfl)]
  case pending =>
    rw [hrx.pending, State.flag_driver _ (Loc.apart_of_bits rfl) (Loc.apart_of_bits rfl), h.pending,
      State.flag_set_apart _ _ _ _ (Loc.apart_of_bits rfl)]
  case faults => rw [hrx.port, State.port_driver, h.port, State.port_set]
  case lastE => exact (hdrv.trans hrx.only).kept rfl

/-- A change among the states 1 to 4: the driver's turn-off of a port that leaves ACTIVE comes first (R79, R80). -/
theorem State.refreshPort_eq (hold : s.get (LP_STATE_PSTATE n) = old) (ho : 1 ≤ old ∧ old ≤ 4)
    (hu : u = s.when (old = 1 && s.pstateNow n != 1) fun s => s.leaveActive n) (hnew : u.pstateNow n = new)
    (hn : 1 ≤ new ∧ new ≤ 4) (hne : new ≠ old) (h2 : new = 2 → old = 1) :
    s.refreshPort n = (((u.set (LP_STATE_PSTATE n) new).afterMove n new).driver n).rxOnly n := by
  have hstop : ∀ p, 1 ≤ p ∧ p ≤ 4 → stopsEngine p = false := by
    intro p hp
    simp only [stopsEngine, Bool.or_eq_false_iff, decide_eq_false_iff_not]
    omega
  have hwait : (decide (new = 2) && old != 1) = false := by
    by_cases h : new = 2
    · simp [h2 h]
    · simp [h]
  have hint (x : State) :
      (decide (new = 1) && decide (2 ≤ old) && decide (old ≤ 5) && decide (2 ≤ x.bstate n) && decide (x.bstate n ≤ 5)) =
      (decide (new = 1) && decide (2 ≤ x.bstate n) && decide (x.bstate n ≤ 5)) := by
    by_cases h : new = 1
    · have : 2 ≤ old ∧ old ≤ 5 := by omega
      simp [this]
    · simp [h]
  have h7 : new ≠ 7 := by omega
  have h5 : new ≠ 5 := by omega
  have h5' : old ≠ 5 := by omega
  subst hu
  unfold State.refreshPort State.afterMove
  simp only [hold, hnew, hne, if_false, hwait, hint, hstop _ ho, hstop _ hn, h7, h5, h5', decide_false,
    Bool.false_and, State.when_false]

theorem State.refreshPort_movesTo (hold : s.get (LP_STATE_PSTATE n) = old) (ho : 1 ≤ old ∧ old ≤ 4)
    (hu : u = s.when (old = 1 && s.pstateNow n != 1) fun s => s.leaveActive n) (hnew : u.pstateNow n = new)
    (hn : 1 ≤ new ∧ new ≤ 4) (hne : new ≠ old) (h2 : new = 2 → old = 1) : MovesTo n new u (s.refreshPort n) := by
  rw [State.refreshPort_eq hold ho hu hnew hn hne h2]
  exact u.movesTo_set (by omega)

/-- A port that was outside ACTIVE becomes ACTIVE (R80, R83, R84). -/
theorem State.refreshPort_active (hold : s.get (LP_STATE_PSTATE n) = old) (ho : 2 ≤ old ∧ old ≤ 4)
    (hnew : s.pstateNow n = 1) : MovesTo n 1 s (s.refreshPort n) :=
  State.refreshPort_movesTo hold (by omega) (by simp [State.when, hnew]) hnew (by omega) (by omega) (by omega)

theorem State.endEvent_none (h : (s.port n).event = none) : s.endEvent n = s := by
  unfold State.endEvent
  rw [h]

end

section

variable {s s0 t u : State} {n p e x : Nat}

/-! ## The port leaves ACTIVE (R79, R80) -/

/-- What the state of an operational port says about its conditions (R76). -/
theorem State.pstateNow_conditions (h : s.pstateNow n = p) (hp : 1 ≤ p ∧ p ≤ 4) :
    s.operational n = true ∧ (s.port n).latched = decide (p = 3) ∧
      (p ≠ 3 → s.flag (LP_CTRL_DRV_DIS n) = decide (p = 4)) ∧ (p = 1 → (s.port n).faultOff = none) := by
  have ho := State.operational_of_pstateNow h hp.1 hp.2
  rw [State.pstateNow_operational ho] at h
  refine ⟨ho, ?_⟩
  subst h
  cases (s.port n).latched <;> cases s.flag (LP_CTRL_DRV_DIS n) <;> cases (s.port n).faultOff <;> simp

/-- Without a fault event the driver turns off, and nothing that decides about faults changes. -/
theorem State.leaveActive_quiet (he : (s.port n).event = none) :
    ∃ w, Around s w ∧ Around (w.put (LP_STATE_DRV n) false) (s.leaveActive n) := by
  have hw : Around s ((s.abandonAttempt n).undefer n) := Around.refl.abandonAttempt.undefer
  refine ⟨_, hw, ?_⟩
  have hcut : Around (((s.abandonAttempt n).undefer n).put (LP_STATE_DRV n) false)
      ((((s.abandonAttempt n).undefer n).put (LP_STATE_DRV n) false).cut n) := Around.refl.modPort
  unfold State.leaveActive
  dsimp only
  rw [State.endEvent_none (by rw [hcut.event, State.port_put, hw.event, he])]
  exact hcut.when fun h => h.setB

/-- An operational port's state depends on the latch, DRV_DIS and the wait. -/
theorem State.pstateNow_congr (ho : s.operational n = true) (ho' : t.operational n = s.operational n)
    (hd : t.flag (LP_CTRL_DRV_DIS n) = s.flag (LP_CTRL_DRV_DIS n)) (hf : (t.port n).faults = (s.port n).faults) :
    t.pstateNow n = s.pstateNow n := by
  have hl : (t.port n).latched = (s.port n).latched := congrArg (·.2.1) hf
  have hw : (t.port n).faultOff = (s.port n).faultOff := congrArg (·.2.2) hf
  rw [State.pstateNow_operational ho, State.pstateNow_operational (ho'.trans ho), hl, hd, hw]

/-- A port without a fault event in progress leaves ACTIVE for FAULT_WAIT, LATCHED or DISABLED. -/
theorem State.refreshPort_inactive (hold : s.get (LP_STATE_PSTATE n) = 1) (he : (s.port n).event = none)
    (hnew : s.pstateNow n = p) (hp : 2 ≤ p ∧ p ≤ 4) : MovesTo n p s (s.refreshPort n) := by
  obtain ⟨w, hw, hu⟩ := State.leaveActive_quiet he
  have hput : OnlyM aroundMask w (w.put (LP_STATE_DRV n) false) :=
    State.put_only (LP_STATE_DRV_holds n) .refl rfl
  have ho := State.operational_of_pstateNow hnew (by omega) (by omega)
  have hport : ((s.leaveActive n).port n).faults = (s.port n).faults := by rw [hu.port, State.port_put, hw.port]
  have honly : OnlyM aroundMask s (s.leaveActive n) := (hw.only.trans hput).trans hu.only
  have hnow : (s.leaveActive n).pstateNow n = p :=
    (State.pstateNow_congr ho (honly.withFaults.operational n) (honly.keptFlag rfl) hport).trans hnew
  have hm := State.refreshPort_movesTo hold (by decide) (u := s.leaveActive n)
    (by simp [State.when, hnew]; omega) hnow (by omega) (by omega) (fun _ => rfl)
  constructor
  case pstate => exact hm.pstate
  case drv => rw [hm.drv, honly.withFaults.ready 2]
  case retry => rw [hm.retry, hu.retry, State.get_put_apart _ _ _ _ (Loc.apart_of_bits rfl), hw.retry]
  case pending => rw [hm.pending, hu.pending, State.flag_put_apart _ _ _ _ (Loc.apart_of_bits rfl), hw.pending]
  case faults => rw [hm.faults, hport]
  case lastE => rw [hm.lastE, honly.kept rfl]

/-- DRV_DIS turns the driver of an ACTIVE port off, whether or not a fault event was in progress (R80). -/
theorem State.refreshPort_disabled (hold : s.get (LP_STATE_PSTATE n) = 1) (ho : s.operational n = true)
    (hd : s.flag (LP_CTRL_DRV_DIS n) = true) : (s.refreshPort n).flag (LP_STATE_DRV n) = false := by
  have hu : OnlyM faultMask s (s.leaveActive n) := State.leaveActive_only .refl rfl
  have hdu : (s.leaveActive n).flag (LP_CTRL_DRV_DIS n) = true := (hu.drvDis n).trans hd
  have hnow (v : State) (hov : v.operational n = true) (hdv : v.flag (LP_CTRL_DRV_DIS n) = true) :
      v.pstateNow n = if (v.port n).latched then 3 else 4 := by
    rw [State.pstateNow_operational hov, hdv, if_pos rfl]
  have hs := hnow s ho hd
  have hm := State.refreshPort_movesTo hold (by decide) (u := s.leaveActive n)
    (by simp only [State.when, hs]; split <;> simp) (hnow _ ((hu.operational n).trans ho) hdu)
    (by split <;> omega) (by split <;> omega) (fun _ => rfl)
  rw [hm.drv]
  split <;> rfl

/-! ## Fault events end (R81 to R84) -/

theorem State.get_lastEnergy (s : State) (n e : Nat) {l : Loc} (h : l ∈ physicalFields n) :
    (s.lastEnergy n e).get l = s.get l :=
  State.get_set_apart _ _ _ _ (physicalFields_apart h rfl (of_decide_eq_true rfl))

@[simp] theorem State.port_lastEnergy (s : State) (n m e : Nat) : (s.lastEnergy n e).port m = s.port m := State.port_set ..

theorem State.lastEnergy_self (s : State) (n e : Nat) :
    (s.lastEnergy n e).get (LP_FAULT_LAST_E n) = min (e / 1600000) 65535 := by
  unfold State.lastEnergy
  rw [State.get_set_self _ _ _ (of_decide_eq_true rfl)]
  exact Nat.mod_eq_of_lt (by show _ < 2 ^ 16; omega)

@[simp] theorem State.ticks_lastEnergy (s : State) (n e : Nat) : (s.lastEnergy n e).ticks = s.ticks := by
  unfold State.lastEnergy State.ticks
  rw [State.set_time]

/-- What the end of a fault event of energy `e` leaves, before the physical state follows. -/
structure EventEnds (n e : Nat) (s t : State) : Prop where
  event : (t.port n).event = none
  lastE : t.get (LP_FAULT_LAST_E n) = min (e / 1600000) 65535
  pstate : t.get (LP_STATE_PSTATE n) = s.get (LP_STATE_PSTATE n)
  retry : t.get (LP_STATE_RETRY n) = s.get (LP_STATE_RETRY n)
  fifth : s.get (LP_STATE_RETRY n) = 5 → (t.port n).latched = true ∧ t.flag (LP_STATE_PENDING n) = false
  wait : s.get (LP_STATE_RETRY n) ≠ 5 → (t.port n).latched = (s.port n).latched ∧ (t.port n).faultOff = some s.ticks

theorem State.get_endEvent_base (s : State) (n e : Nat) (f g : Port → Port) {l : Loc} (hl : l ∈ physicalFields n) :
    (((s.modPort n f).lastEnergy n e).modPort n g).get l = s.get l := by
  rw [State.get_modPort, State.get_lastEnergy _ _ _ hl, State.get_modPort]

theorem State.endEvent_ends (he : (s.port n).event = some e) : EventEnds n e s (s.endEvent n) := by
  have hretry : ((s.modPort n fun p => { p with event := none }).lastEnergy n e).get (LP_STATE_RETRY n) =
      s.get (LP_STATE_RETRY n) :=
    s.get_endEvent_base n e _ id (by simp [physicalFields])
  unfold State.endEvent
  simp only [he, hretry]
  split
  next h5 =>
    generalize hv : ((s.modPort n fun p => { p with event := none }).lastEnergy n e).modPort n
      (fun p => { p with latched := true, faultOff := none }) = v
    have h : Around (v.put (LP_STATE_PENDING n) false) (((v.put (LP_STATE_PENDING n) false).lpCause n 3 0).occur (4 * n) 3) :=
      Around.refl.lpCause.occur
    constructor
    case event => rw [h.event, State.port_put, ← hv]; simp
    case lastE =>
      have happart : (LP_STATE_PENDING n).apart (LP_FAULT_LAST_E n) :=
        (physicalFields_apart (by simp [physicalFields]) rfl (of_decide_eq_true rfl)).symm
      rw [h.lastE, State.get_put_apart _ _ _ _ happart, ← hv, State.get_modPort, State.lastEnergy_self]
    case pstate =>
      rw [h.pstate, State.get_put_apart _ _ _ _ (Loc.apart_of_bits rfl), ← hv,
        State.get_endEvent_base _ _ _ _ _ (by simp [physicalFields])]
    case retry =>
      rw [h.retry, State.get_put_apart _ _ _ _ (Loc.apart_of_bits rfl), ← hv,
        State.get_endEvent_base _ _ _ _ _ (by simp [physicalFields])]
    case fifth =>
      intro _
      rw [h.latched, State.port_put, h.pending, State.flag_put_self _ _ _ (of_decide_eq_true rfl) rfl, ← hv]
      simp
    case wait => exact fun h => absurd h5 h
  next h5 =>
    constructor
    case event => simp
    case lastE => rw [State.get_modPort, State.lastEnergy_self]
    case pstate => exact State.get_endEvent_base _ _ _ _ _ (by simp [physicalFields])
    case retry => exact State.get_endEvent_base _ _ _ _ _ (by simp [physicalFields])
    case fifth => exact fun h => absurd h h5
    case wait =>
      intro _
      rw [State.port_modPort_self, State.port_lastEnergy, State.port_modPort_self, State.ticks_lastEnergy]
      exact ⟨rfl, rfl⟩

/-- The end of a fault event with energy `e` metered before and `pj` given at its end: the driver is off, and the port waits, or
is latched when the event was the fifth failed retry (R81 to R84). -/
theorem State.finishEvent_ends {pj : Nat} (he : (s.port n).event = some e) (hold : s.get (LP_STATE_PSTATE n) = 1)
    (hnow : s.pstateNow n = 1) : ∃ u, EventEnds n (max e (pj * 16)) s u ∧
      MovesTo n (if s.get (LP_STATE_RETRY n) = 5 then 3 else 2) u (s.finishEvent n pj) := by
  obtain ⟨ho, hlatched, hdis, -⟩ := State.pstateNow_conditions hnow (by decide)
  replace hdis := hdis (by decide)
  let v := s.modPort n fun p => { p with event := some (max e (pj * 16)) }
  let w := v.meter n (pj * 16 - e)
  have hvw : Around v w := Around.refl.meter
  have hsv : OnlyM aroundMask s v := State.modPort_only .refl rfl
  have hsw : OnlyM aroundMask s w := hsv.trans hvw.only
  have hwu : OnlyM faultMask w (w.endEvent n) := State.endEvent_only .refl rfl
  have hw := State.endEvent_ends (s := w) (n := n) (e := max e (pj * 16)) (by rw [hvw.event, State.port_modPort_self])
  have hu : EventEnds n (max e (pj * 16)) s (w.endEvent n) := by
    have hretry : w.get (LP_STATE_RETRY n) = s.get (LP_STATE_RETRY n) := hvw.retry n
    have hlatch : (w.port n).latched = (s.port n).latched := by rw [hvw.latched, State.port_modPort_self]
    exact ⟨hw.event, hw.lastE, hw.pstate.trans (hvw.pstate n), hw.retry.trans hretry, fun h5 => hw.fifth (hretry.trans h5),
      fun h5 => hlatch ▸ hvw.ticks ▸ hw.wait (hretry ▸ h5)⟩
  have hou : (w.endEvent n).operational n = true :=
    ((hwu.operational n).trans (hsw.withFaults.operational n)).trans ho
  have hdu : (w.endEvent n).flag (LP_CTRL_DRV_DIS n) = false :=
    ((hwu.drvDis n).trans (hsw.withFaults.drvDis n)).trans hdis
  have hnowu : (w.endEvent n).pstateNow n = if s.get (LP_STATE_RETRY n) = 5 then 3 else 2 := by
    rw [State.pstateNow_operational hou, hdu]
    by_cases h5 : s.get (LP_STATE_RETRY n) = 5
    · rw [if_pos h5, (hu.fifth h5).1]; rfl
    · rw [if_neg h5, (hu.wait h5).1, (hu.wait h5).2, hlatched]; rfl
  have hfin : s.finishEvent n pj = (w.endEvent n).refreshPort n := by
    unfold State.finishEvent
    rw [he]
  exact ⟨_, hu, hfin ▸ State.refreshPort_inactive (hu.pstate.trans hold) hu.event hnowu (by split <;> omega)⟩

end

section

variable {s s0 t u : State} {n b b' : Nat} {fail : Bool}

/-! ## Wire checks (R86) -/

/-- The failing and the passing checks in a row of a wire condition. -/
def State.wireRun (s : State) (n b : Nat) : Nat × Nat := smapFind (fun _ => (0, 0)) (s.port n).streak b

/-- The runs after one more check. -/
def nextRun (run : Nat × Nat) (fail : Bool) : Nat × Nat := if fail then (min (run.1 + 1) 3, 0) else (0, min (run.2 + 1) 3)

/-- The check is counted. -/
def State.countCheck (s : State) (n b : Nat) (fail : Bool) : State :=
  s.modPort n fun q => { q with streak := smapPut (fun _ => (0, 0)) q.streak b (nextRun (s.wireRun n b) fail) }

/-- A condition is confirmed. -/
def State.confirmWire (s : State) (n b : Nat) : State :=
  (((s.put (wireSeenLoc n b) true).put (wireLiveLoc n b) true).lpCause n 0x04 b).occur (4 * n) 0x02

/-- A condition is cleared. -/
def State.clearWire (s : State) (n b : Nat) : State :=
  let s := (s.put (wireLiveLoc n b) false).lpCause n 0x05 b
  if s.get (LP_WIRE_LIVE n) = 0 then s.endCond (4 * n) 0x02 else s

/-- A check is counted, and the third failing or passing one in a row confirms or clears the condition. -/
theorem State.wireCheck_eq (s : State) (n b : Nat) (fail : Bool) : s.wireCheck n b fail =
    if fail && decide (2 ≤ (s.wireRun n b).1) && !s.flag (wireLiveLoc n b) then (s.countCheck n b fail).confirmWire n b
    else if !fail && decide (2 ≤ (s.wireRun n b).2) && s.flag (wireLiveLoc n b) then (s.countCheck n b fail).clearWire n b
    else s.countCheck n b fail := by
  have h3 (k : Nat) : (min (k + 1) 3 = 3) = (2 ≤ k) := propext (by omega)
  cases fail <;>
    simp only [State.wireCheck, State.countCheck, State.confirmWire, State.clearWire, State.wireRun, nextRun, h3,
      State.flag_modPort, Bool.not_true, Bool.not_false, Bool.true_and, Bool.false_and, Bool.false_eq_true, if_true, if_false] <;> rfl

theorem SamePhysics.countCheck (h : SamePhysics s0 s) : SamePhysics s0 (s.countCheck n b fail) := h.modPort

theorem SamePhysics.putWire {l : Loc} {v : Bool} (h : SamePhysics s0 s) (hl : Part.LP_WIRE.holds l) :
    SamePhysics s0 (s.put l v) :=
  h.beside (State.put_only hl .refl (by decide)) lpWire_physics

theorem SamePhysics.confirmWire (h : SamePhysics s0 s) : SamePhysics s0 (s.confirmWire n b) :=
  ((h.putWire (wireSeenLoc_holds ..)).putWire (wireLiveLoc_holds ..)).trans (Around.refl.lpCause.occur).toSamePhysics

/-- What clears a condition beside its bit. -/
theorem State.clearWire_around (s : State) (n b : Nat) : Around (s.put (wireLiveLoc n b) false) (s.clearWire n b) := by
  unfold State.clearWire
  dsimp only
  split
  · exact Around.refl.lpCause.endCond
  · exact Around.refl.lpCause

/-- A wire check leaves the physical states alone. -/
theorem SamePhysics.wireCheck (h : SamePhysics s0 s) : SamePhysics s0 (s.wireCheck n b fail) := by
  rw [State.wireCheck_eq]
  split
  · exact h.countCheck.confirmWire
  · split
    · exact (h.countCheck.putWire (wireLiveLoc_holds ..)).trans (State.clearWire_around ..).toSamePhysics
    · exact h.countCheck

/-! ## Shorts (R81, R83) -/

/-- The limit folds back, the event is counted, and a retry that waits fails (R81, R83). -/
def State.foldBack (s : State) (n : Nat) : State :=
  let s := (s.inc (LP_FAULT_EVENTS n)).put (LP_STATE_FOLDED n) true
  if s.flag (LP_STATE_PENDING n) then
    (s.put (LP_STATE_PENDING n) false).set (LP_STATE_RETRY n) (min 5 (s.get (LP_STATE_RETRY n) + 1))
  else s

theorem events_apart {l : Loc} (h : l ∈ physicalFields n := by simp [physicalFields]) : (LP_FAULT_EVENTS n).apart l :=
  physicalFields_apart h rfl (of_decide_eq_true rfl)

/-- What `foldBack` leaves at the port. -/
structure FoldsBack (n : Nat) (s t : State) : Prop where
  port : t.port n = s.port n
  folded : t.flag (LP_STATE_FOLDED n) = true
  events : t.get (LP_FAULT_EVENTS n) = min (s.get (LP_FAULT_EVENTS n) + 1) (2 ^ 16 - 1)
  pending : t.flag (LP_STATE_PENDING n) = false
  retry : t.get (LP_STATE_RETRY n) =
    if s.flag (LP_STATE_PENDING n) then min 5 (s.get (LP_STATE_RETRY n) + 1) else s.get (LP_STATE_RETRY n)

theorem State.foldBack_spec (s : State) (n : Nat) : FoldsBack n s (s.foldBack n) := by
  have hp : ((s.inc (LP_FAULT_EVENTS n)).put (LP_STATE_FOLDED n) true).flag (LP_STATE_PENDING n) =
      s.flag (LP_STATE_PENDING n) := by
    rw [State.flag_put_apart _ _ _ _ (Loc.apart_of_bits rfl), State.flag_inc_apart _ _ _ events_apart]
  have hr : ((s.inc (LP_FAULT_EVENTS n)).put (LP_STATE_FOLDED n) true).get (LP_STATE_RETRY n) = s.get (LP_STATE_RETRY n) := by
    rw [State.get_put_apart _ _ _ _ (Loc.apart_of_bits rfl), State.get_inc_apart _ _ _ events_apart]
  have hf : ((s.inc (LP_FAULT_EVENTS n)).put (LP_STATE_FOLDED n) true).flag (LP_STATE_FOLDED n) = true :=
    State.flag_put_self _ _ _ (of_decide_eq_true rfl) rfl
  have he : ((s.inc (LP_FAULT_EVENTS n)).put (LP_STATE_FOLDED n) true).get (LP_FAULT_EVENTS n) =
      min (s.get (LP_FAULT_EVENTS n) + 1) (2 ^ 16 - 1) := by
    rw [State.get_put_apart _ _ _ _ (events_apart).symm, State.get_inc_self _ _ (of_decide_eq_true rfl)]
    rfl
  unfold State.foldBack
  simp only [hp, hr]
  split
  next h =>
    constructor
    case port => simp
    case folded =>
      rw [State.flag_set_apart _ _ _ _ (Loc.apart_of_bits rfl), State.flag_put_apart _ _ _ _ (Loc.apart_of_bits rfl), hf]
    case events =>
      rw [State.get_set_apart _ _ _ _ (events_apart).symm,
        State.get_put_apart _ _ _ _ (events_apart).symm, he]
    case pending =>
      rw [State.flag_set_apart _ _ _ _ (Loc.apart_of_bits rfl), State.flag_put_self _ _ _ (of_decide_eq_true rfl) rfl]
    case retry =>
      rw [State.get_set_self _ _ _ (of_decide_eq_true rfl), if_pos h]
      exact Nat.mod_eq_of_lt (by show _ < 2 ^ 3; omega)
  next h => exact ⟨by simp, hf, he, by rw [hp, Bool.eq_false_iff.mpr h], by rw [hr, if_neg h]⟩

/-- SHORT_DETECTED, with the driver on and no fault event in progress. -/
theorem State.shortDetected_spec (s : State) (n : PortNo) (within : Bool) (pj : Nat) (hd : s.flag (LP_STATE_DRV n) = true)
    (he : (s.port n).event = none) : ∃ t u, execShortDetected n within pj s = .next t ∧
      Around (s.modPort n fun p => { p with event := some (pj * 16), cutEvent := none }) u ∧
      SamePhysics (u.foldBack n) t ∧ t.get (LP_FAULT_EVENTS n) = (u.foldBack n).get (LP_FAULT_EVENTS n) := by
  let v := s.modPort n fun p => { p with event := some (pj * 16), cutEvent := none }
  let u := v.meter n (pj * 16)
  let f := u.foldBack n
  have hrun : execShortDetected n within pj s =
      .next ((((f.lpCause n 1 0).report (4 * n) 1).wireCheck n 4 within).capTrigger n 1) := by
    simp only [execShortDetected, hd, he, Option.isNone_none, Bool.and_self, if_true]
    rfl
  have hm : OnlyM wireMask ((f.lpCause n 1 0).report (4 * n) 1)
      ((((f.lpCause n 1 0).report (4 * n) 1).wireCheck n 4 within).capTrigger n 1) :=
    State.capTrigger_only (State.wireCheck_only .refl rfl) rfl
  have hc : Around f ((f.lpCause n 1 0).report (4 * n) 1) := Around.refl.lpCause.report
  refine ⟨_, u, hrun, Around.refl.meter, hc.toSamePhysics.wireCheck.trans Around.refl.capTrigger.toSamePhysics, ?_⟩
  rw [hm.lineField wireMask_away rfl (by decide) (of_decide_eq_true rfl), hc.only.kept rfl]

end

section

variable {s s0 t u : State} {n b b' : Nat} {fail : Bool}

/-! ## The bits and the runs of the wire conditions (R86) -/

theorem wireLiveLoc_apart (h : b' ≠ b) (hb : b < 8) (hb' : b' < 8) : (wireLiveLoc n b).apart (wireLiveLoc n b') := by
  refine ⟨?_, ?_, .inr ?_⟩ <;> simp only [wireLiveLoc] <;> omega

theorem wireSeenLoc_apart : (wireSeenLoc n b).apart (wireLiveLoc n b') := by
  refine ⟨?_, ?_, .inr ?_⟩ <;> simp only [wireLiveLoc, wireSeenLoc] <;> omega

theorem wireLiveLoc_fits : (wireLiveLoc n b).lo + (wireLiveLoc n b).len ≤ 32 := by simp only [wireLiveLoc]; omega

/-- A condition's bit is written, and other bits stay. -/
theorem State.flag_put_wireLive (s : State) {v : Bool} (hb : b < 8) (hb' : b' < 8) :
    (s.put (wireLiveLoc n b) v).flag (wireLiveLoc n b') = if b' = b then v else s.flag (wireLiveLoc n b') := by
  split
  next h => rw [h, State.flag_put_self _ _ _ wireLiveLoc_fits rfl]
  next h => exact State.flag_put_apart _ _ _ _ (wireLiveLoc_apart h hb hb')

/-- What goes on around the physical states leaves the wire conditions alone. -/
theorem Around.wireLive (h : Around s t) : t.flag (wireLiveLoc n b) = s.flag (wireLiveLoc n b) :=
  h.only.keptFlag rfl wireLiveLoc_fits

theorem State.confirmWire_live (s : State) (hb : b < 8) (hb' : b' < 8) :
    (s.confirmWire n b).flag (wireLiveLoc n b') = if b' = b then true else s.flag (wireLiveLoc n b') := by
  have h : Around ((s.put (wireSeenLoc n b) true).put (wireLiveLoc n b) true) (s.confirmWire n b) := Around.refl.lpCause.occur
  rw [h.wireLive, State.flag_put_wireLive _ hb hb', State.flag_put_apart _ _ _ _ wireSeenLoc_apart]

theorem State.clearWire_live (s : State) (hb : b < 8) (hb' : b' < 8) :
    (s.clearWire n b).flag (wireLiveLoc n b') = if b' = b then false else s.flag (wireLiveLoc n b') := by
  rw [(s.clearWire_around n b).wireLive, State.flag_put_wireLive _ hb hb']

/-- Neither touches the ports' hidden halves. -/
theorem State.confirmWire_port (s : State) (n b m : Nat) : (s.confirmWire n b).port m = s.port m := by
  have h : OnlyM besideMask ((s.put (wireSeenLoc n b) true).put (wireLiveLoc n b) true) (s.confirmWire n b) :=
    State.occur_only (State.lpCause_only .refl rfl) rfl
  rw [h.port rfl, State.port_put, State.port_put]

theorem State.clearWire_port (s : State) (n b m : Nat) : (s.clearWire n b).port m = s.port m := by
  have h : OnlyM besideMask (s.put (wireLiveLoc n b) false) ((s.put (wireLiveLoc n b) false).lpCause n 0x05 b) :=
    State.lpCause_only .refl rfl
  unfold State.clearWire
  dsimp only
  split
  · rw [State.port_endCond, h.port rfl, State.port_put]
  · rw [h.port rfl, State.port_put]

theorem State.wireRun_countCheck : (s.countCheck n b fail).wireRun n b' =
    if b' = b then nextRun (s.wireRun n b) fail else s.wireRun n b' := by
  unfold State.wireRun State.countCheck
  rw [State.port_modPort_self]
  exact smapFind_put ..

/-- The runs after a check. -/
theorem State.wireRun_wireCheck (s : State) (n b b' : Nat) (fail : Bool) : (s.wireCheck n b fail).wireRun n b' =
    if b' = b then nextRun (s.wireRun n b) fail else s.wireRun n b' := by
  have hport : (s.wireCheck n b fail).port n = (s.countCheck n b fail).port n := by
    rw [State.wireCheck_eq]
    split
    · exact State.confirmWire_port ..
    · split
      · exact State.clearWire_port ..
      · rfl
  rw [← State.wireRun_countCheck]
  unfold State.wireRun
  rw [hport]

/-- A condition's bit after a check, from the runs before it. -/
def liveAfter (run : Nat × Nat) (live fail : Bool) : Bool :=
  if fail && decide (2 ≤ run.1) then true else if !fail && decide (2 ≤ run.2) then false else live

/-- The bits after a check. -/
theorem State.wireLive_wireCheck (s : State) (n : Nat) (fail : Bool) (hb : b < 8) (hb' : b' < 8) :
    (s.wireCheck n b fail).flag (wireLiveLoc n b') =
      if b' = b then liveAfter (s.wireRun n b) (s.flag (wireLiveLoc n b)) fail else s.flag (wireLiveLoc n b') := by
  have hcount : (s.countCheck n b fail).flag (wireLiveLoc n b') = s.flag (wireLiveLoc n b') := rfl
  rw [State.wireCheck_eq]
  split
  next h =>
    simp only [Bool.and_eq_true, Bool.not_eq_true'] at h
    rw [State.confirmWire_live _ hb hb', hcount]
    simp [liveAfter, h]
  next h =>
    split
    next h' =>
      simp only [Bool.and_eq_true, Bool.not_eq_true'] at h'
      rw [State.clearWire_live _ hb hb', hcount]
      simp [liveAfter, h']
    next h' =>
      rw [hcount]
      split
      next e =>
        subst e
        simp only [liveAfter]
        cases fail <;> cases hl : s.flag (wireLiveLoc n b') <;> simp_all
      next => rfl

/-- The four bias checks (R86). -/
def State.biasChecks (s : State) (n : Nat) (vh vl : Int) : State :=
  ((s.wireCheck n 0 (decide (vh < 500))).wireCheck n 1 (decide (6000 < vh))).wireCheck n 2 (decide (vl < 500))
    |>.wireCheck n 3 (decide (6000 < vl))

/-- Whether check `b` fails. -/
def biasFails (vh vl : Int) (b : Nat) : Bool :=
  [decide (vh < 500), decide (6000 < vh), decide (vl < 500), decide (6000 < vl)].getD b false

theorem State.biasChecks_spec (s : State) (n : Nat) (vh vl : Int) (hb : b < 4) :
    (s.biasChecks n vh vl).wireRun n b = nextRun (s.wireRun n b) (biasFails vh vl b) ∧
      (s.biasChecks n vh vl).flag (wireLiveLoc n b) =
        liveAfter (s.wireRun n b) (s.flag (wireLiveLoc n b)) (biasFails vh vl b) := by
  unfold State.biasChecks
  have h4 : b = 0 ∨ b = 1 ∨ b = 2 ∨ b = 3 := by omega
  rcases h4 with rfl | rfl | rfl | rfl <;>
    simp [State.wireRun_wireCheck, State.wireLive_wireCheck, biasFails]

end

section

variable {s s0 t u : State} {n p : Nat}

/-! ## A port reset (R80) -/

/-- The first part of a port reset: attempt, search and fault state end. -/
def State.endFaults (s : State) (n : Nat) : State :=
  let s := (s.abandonAttempt n).undefer n
  let s := s.when ((s.port n).event.isSome) fun s => s.lastEnergy n ((s.port n).event.getD 0)
  let s := (s.cut n).cancelSearch n
  let s := s.modPort n fun p =>
    { p with latched := false, faultOff := none, event := none, streak := [], collisions := 0, lastRx := none }
  (s.endCond (4 * n) 0x03).endCond (4 * n) 0x02

/-- The second part: the registers take their reset values. -/
def State.clearPort (s : State) (n : Nat) : State :=
  let s := ((s.setWord (LP_STATE_PSTATE n).addr 0).set (LP_WIRE_LIVE n) 0).setWord (LP_MEAS_LOAD n).addr 0
  (s.setWord (BT_STAT_BSTATE n).addr 0).set (BT_TDC_TDCV n) 0

/-- The third part: observation ends, and the port starts in the state that its conditions give. -/
def State.restartPort (s : State) (n p : Nat) : State :=
  let s := ((s.sndAbort n).cenAbort n).clearTrackers n
  let s := s.enrAbort n
  let new := s.pstateNow n
  let s := s.set (LP_STATE_PSTATE n) new
  let s := s.when (p != 5 && new = 5) fun s => s.lpCause n 0x07 0
  let s := s.when (!stopsEngine new) fun s => s.startEngine n
  (s.driver n).rxOnly n

theorem State.endFaults_faults (s : State) (n : Nat) : ((s.endFaults n).port n).faults = (none, false, none) := by
  unfold State.endFaults
  dsimp only
  rw [State.port_endCond, State.port_endCond, State.port_modPort_self]

theorem State.get_eq_zero {l : Loc} (h : s.word l.addr = 0) (hw : l.lo + l.len ≤ 32) : s.get l = 0 := by
  unfold State.get
  rw [if_pos hw, h]
  simp [bitsOf]

/-- A port whose registers are reset. -/
structure Cleared (n : Nat) (s : State) : Prop where
  state : ∀ l ∈ physicalFields n, s.get l = 0
  meas : s.word (LP_MEAS_LOAD n).addr = 0
  live : s.get (LP_WIRE_LIVE n) = 0
  tdcv : s.get (BT_TDC_TDCV n) = 0

theorem State.clearPort_cleared (s : State) (n : Nat) : Cleared n (s.clearPort n) := by
  have htdc : (BT_TDC_TDCV n).addr = 0x0100011C + 0x1000 * (n % 128) := rfl
  have hbt : (BT_STAT_BSTATE n).addr = 0x01000104 + 0x1000 * (n % 128) := rfl
  have hmeas : (LP_MEAS_LOAD n).addr = 0x01000018 + 0x1000 * (n % 128) := rfl
  have hwire : (LP_WIRE_LIVE n).addr = 0x01000010 + 0x1000 * (n % 128) := rfl
  have hstate : (LP_STATE_PSTATE n).addr = 0x01000004 + 0x1000 * (n % 128) := rfl
  unfold State.clearPort
  dsimp only
  constructor
  case state =>
    intro l hl
    obtain ⟨ha, hw⟩ := physicalFields_word hl
    refine State.get_eq_zero ?_ hw
    rw [ha, ← hstate, State.word_set_narrow _ _ _ _ (of_decide_eq_true rfl) (by omega), State.word_setWord, if_neg (by omega),
      State.word_setWord, if_neg (by omega), State.word_set_narrow _ _ _ _ (of_decide_eq_true rfl) (by omega),
      State.word_setWord, if_pos rfl]
  case meas =>
    rw [State.word_set_narrow _ _ _ _ (of_decide_eq_true rfl) (by omega), State.word_setWord, if_neg (by omega),
      State.word_setWord, if_pos rfl]
  case live =>
    rw [State.get_congr (s := (s.setWord (LP_STATE_PSTATE n).addr 0).set (LP_WIRE_LIVE n) 0) ?_ ?_,
      State.get_set_self _ _ _ (of_decide_eq_true rfl)]
    · rfl
    · rw [State.word_set_narrow _ _ _ _ (of_decide_eq_true rfl) (by omega), State.word_setWord, if_neg (by omega),
        State.word_setWord, if_neg (by omega)]
    · exact fun h => absurd (of_decide_eq_true rfl : (LP_WIRE_LIVE n).lo + (LP_WIRE_LIVE n).len ≤ 32) (by omega)
  case tdcv => rw [State.get_set_self _ _ _ (of_decide_eq_true rfl)]; rfl

theorem State.flag_driver_folded (h : s.flag (LP_STATE_FOLDED n) = false) : (s.driver n).flag (LP_STATE_FOLDED n) = false := by
  unfold State.driver
  split
  · rw [State.flag_put_self _ _ _ (of_decide_eq_true rfl) rfl, h]
    rfl
  · rw [State.flag_put_apart _ _ _ _ (Loc.apart_of_bits rfl), h]

/-- What a restart leaves of the port's faults. -/
structure Restarts (n : Nat) (s t : State) : Prop where
  only : OnlyM aroundMask s t
  faults : (t.port n).faults = (s.port n).faults
  retry : t.get (LP_STATE_RETRY n) = s.get (LP_STATE_RETRY n)
  pending : t.flag (LP_STATE_PENDING n) = s.flag (LP_STATE_PENDING n)
  folded : s.flag (LP_STATE_FOLDED n) = false → t.flag (LP_STATE_FOLDED n) = false

theorem State.restartPort_restarts (s : State) (n p : Nat) : Restarts n s (s.restartPort n p) := by
  unfold State.restartPort
  extract_lets u v new w x y
  have hv : Around s v := (Around.refl.sndAbort.cenAbort.modObs).enrAbort
  have hw : OnlyM aroundMask v w := State.set_only (LP_STATE_PSTATE_holds n) .refl rfl
  have hy : Around w y := (Around.refl.when fun h => h.lpCause).when fun h => h.startEngine
  have hd : OnlyM aroundMask y (y.driver n) := State.driver_only .refl rfl
  have hr : Around (y.driver n) ((y.driver n).rxOnly n) := Around.refl.rxOnly
  constructor
  case only => exact hv.only.trans (hw.trans (hy.only.trans (hd.trans hr.only)))
  case faults => rw [hr.port, State.port_driver, hy.port, State.port_set, hv.port]
  case retry =>
    rw [hr.retry, State.get_driver _ (Loc.apart_of_bits rfl) (Loc.apart_of_bits rfl), hy.retry,
      State.get_set_apart _ _ _ _ (Loc.apart_of_bits rfl), hv.retry]
  case pending =>
    rw [hr.pending, State.flag_driver _ (Loc.apart_of_bits rfl) (Loc.apart_of_bits rfl), hy.pending,
      State.flag_set_apart _ _ _ _ (Loc.apart_of_bits rfl), hv.pending]
  case folded =>
    intro h
    rw [hr.folded, State.flag_driver_folded]
    rw [hy.folded, State.flag_set_apart _ _ _ _ (Loc.apart_of_bits rfl), hv.folded, h]

/-! ## LP[n].CTRL (R80, R84, R85) -/

/-- A command that is the host's write of a ready register has the write's effect. -/
theorem answers_hostWrite {c : Instr} {off : Nat} {rdy : Bool} {f : State → State} {P : State → Prop}
    (hc : exec c s = .next (s.hostWrite .host off rdy f)) (he : s.ended = false) (hr : rdy = true) (hp : P (f s.answerDone)) :
    Answers c s P := ⟨_, hc.trans (congrArg _ (s.hostWrite_host off rdy f he hr)), hp⟩

section

variable (s : State) (n : Nat) (v : Bool)

theorem ctrl_apart {l : Loc} (hl : l.lo + l.len ≤ 32) (h : l.addr ≠ 0x01000000 + 0x1000 * (n % 128)) :
    (LP_CTRL_DRV_DIS n).apart l :=
  Loc.apart_of_addr (of_decide_eq_true rfl) hl h.symm

theorem State.pstate_putDrvDis : (s.put (LP_CTRL_DRV_DIS n) v).get (LP_STATE_PSTATE n) = s.get (LP_STATE_PSTATE n) :=
  State.get_put_apart _ _ _ _ (ctrl_apart n (of_decide_eq_true rfl) (by simp only [LP_STATE_PSTATE]; omega))

theorem State.ready_putDrvDis (b : Nat) : (s.put (LP_CTRL_DRV_DIS n) v).ready b = s.ready b := by
  unfold State.ready
  rw [State.get_put_apart _ _ _ _ (ctrl_apart n ?_ ?_)] <;> simp only [readyLoc] <;> omega

theorem State.operational_putDrvDis : (s.put (LP_CTRL_DRV_DIS n) v).operational n = s.operational n := by
  have hmode := State.get_put_apart s _ (LP_CFG_MODE n) v
    (ctrl_apart n (of_decide_eq_true rfl) (by simp only [LP_CFG_MODE]; omega))
  have hsafe := State.flag_put_apart s _ CUR_STAT_SAFE v (ctrl_apart n (by decide) (by simp only [CUR_STAT_SAFE]; omega))
  simp only [State.operational, State.asleep, State.fallback, State.link, hmode, hsafe, State.put_pwr, State.put_links]

theorem State.drvDis_putDrvDis : (s.put (LP_CTRL_DRV_DIS n) v).flag (LP_CTRL_DRV_DIS n) = v :=
  State.flag_put_self _ _ _ (of_decide_eq_true rfl) rfl

end

/-- The physical states do not follow LP.CTRL by themselves. -/
theorem State.drvDis_refreshPort (s : State) (n : Nat) (v : Bool) :
    ((s.put (LP_CTRL_DRV_DIS n) v).refreshPort n).flag (LP_CTRL_DRV_DIS n) = v := by
  have h : OnlyM faultMask (s.put (LP_CTRL_DRV_DIS n) v) ((s.put (LP_CTRL_DRV_DIS n) v).refreshPort n) :=
    State.refreshPort_only .refl rfl
  rw [h.drvDis, State.drvDis_putDrvDis]

/-- DRV_DIS 1 in ACTIVE (R80). -/
theorem State.drvDisable_spec (hold : s.get (LP_STATE_PSTATE n) = 1) (hnow : s.pstateNow n = 1) :
    (s.drvDisable n).flag (LP_STATE_DRV n) = false ∧
      ((s.port n).event = none → (s.drvDisable n).get (LP_STATE_PSTATE n) = 4) := by
  obtain ⟨ho, hlatched, -, -⟩ := State.pstateNow_conditions hnow (by decide)
  have hou := (s.operational_putDrvDis n true).trans ho
  have hpu := (s.pstate_putDrvDis n true).trans hold
  have hd := s.drvDis_putDrvDis n true
  refine ⟨State.refreshPort_disabled hpu hou hd, fun he => ?_⟩
  refine (State.refreshPort_inactive (p := 4) hpu (by rw [State.port_put, he]) ?_ (by decide)).pstate
  rw [State.pstateNow_operational hou, hd, State.port_put, hlatched]
  rfl

/-- DRV_DIS 0 in DISABLED, with no wait pending (R80). -/
theorem State.drvEnable_movesTo (hold : s.get (LP_STATE_PSTATE n) = 4) (hnow : s.pstateNow n = 4)
    (hf : (s.port n).faultOff = none) : MovesTo n 1 (s.put (LP_CTRL_DRV_DIS n) false) (s.drvEnable n) := by
  obtain ⟨ho, hlatched, -, -⟩ := State.pstateNow_conditions hnow (by decide)
  refine State.refreshPort_active ((s.pstate_putDrvDis n false).trans hold) (by decide) ?_
  rw [State.pstateNow_operational ((s.operational_putDrvDis n false).trans ho), State.drvDis_putDrvDis,
    State.port_put, hlatched, hf]
  rfl

/-- The latch and the retries end (R84, R85). -/
def State.clearLatch (s : State) (n : Nat) : State :=
  let s := s.modPort n fun p => { p with latched := false, faultOff := none }
  ((s.set (LP_STATE_RETRY n) 0).put (LP_STATE_PENDING n) false).endCond (4 * n) 0x03

theorem State.clearLatch_only (s : State) (n : Nat) : OnlyM aroundMask s (s.clearLatch n) :=
  State.endCond_only (State.put_only (LP_STATE_PENDING_holds n) (State.set_only (LP_STATE_RETRY_holds n)
    (State.modPort_only .refl rfl) rfl) rfl) rfl

theorem State.port_clearLatch (s : State) (n : Nat) :
    (s.clearLatch n).port n = { s.port n with latched := false, faultOff := none } := by
  unfold State.clearLatch
  dsimp only
  rw [State.port_endCond, State.port_put, State.port_set, State.port_modPort_self]

theorem State.clearLatch_retry (s : State) (n : Nat) :
    (s.clearLatch n).get (LP_STATE_RETRY n) = 0 ∧ (s.clearLatch n).flag (LP_STATE_PENDING n) = false := by
  unfold State.clearLatch
  dsimp only
  have h {x : State} : Around x (x.endCond (4 * n) 3) := Around.refl.endCond
  rw [h.retry, h.pending, State.get_put_apart _ _ _ _ (Loc.apart_of_bits rfl), State.get_set_self _ _ _ (of_decide_eq_true rfl),
    State.flag_put_self _ _ _ (of_decide_eq_true rfl) rfl]
  exact ⟨rfl, rfl⟩

theorem State.clearLatch_pstate (s : State) (n : Nat) : (s.clearLatch n).get (LP_STATE_PSTATE n) = s.get (LP_STATE_PSTATE n) := by
  unfold State.clearLatch
  dsimp only
  have h {x : State} : Around x (x.endCond (4 * n) 3) := Around.refl.endCond
  rw [h.pstate, State.get_put_apart _ _ _ _ (Loc.apart_of_bits rfl), State.get_set_apart _ _ _ _ (Loc.apart_of_bits rfl),
    State.get_modPort]

/-- UNLATCH in LATCHED (R84, R85). -/
theorem State.unlatch_movesTo (hold : s.get (LP_STATE_PSTATE n) = 3) (hnow : s.pstateNow n = 3)
    (hd : s.flag (LP_CTRL_DRV_DIS n) = false) : MovesTo n 1 (s.clearLatch n) (s.unlatch n) := by
  obtain ⟨ho, hlatched, -, -⟩ := State.pstateNow_conditions hnow (by decide)
  have hrun : s.unlatch n = (s.clearLatch n).refreshPort n := by
    unfold State.unlatch
    rw [hlatched]
    rfl
  have hu := s.clearLatch_only n
  rw [hrun]
  refine State.refreshPort_active ((s.clearLatch_pstate n).trans hold) (by decide) ?_
  rw [State.pstateNow_operational ((hu.withFaults.operational n).trans ho), hu.withFaults.drvDis, hd,
    State.port_clearLatch]
  rfl

/-! ## Bias checks and wakes (R86, R94, R95) -/

theorem voltCode_lt (mv : Int) : voltCode mv < 2 ^ 8 := by
  unfold voltCode
  omega

/-- The pin voltages of a bias check. -/
def State.showBias (s : State) (n : Nat) (vh vl : Int) : State :=
  (s.set (LP_MEAS_VH n) (voltCode vh)).set (LP_MEAS_VL n) (voltCode vl)

theorem State.showBias_meas (s : State) (n : Nat) (vh vl : Int) :
    (s.showBias n vh vl).get (LP_MEAS_VH n) = voltCode vh ∧ (s.showBias n vh vl).get (LP_MEAS_VL n) = voltCode vl := by
  unfold State.showBias
  rw [State.get_set_apart _ _ _ _ (Loc.apart_of_bits rfl), State.get_set_self _ _ _ (of_decide_eq_true rfl),
    State.get_set_self _ _ _ (of_decide_eq_true rfl)]
  exact ⟨Nat.mod_eq_of_lt (voltCode_lt vh), Nat.mod_eq_of_lt (voltCode_lt vl)⟩

@[simp] theorem State.showBias_port (s : State) (n m : Nat) (vh vl : Int) :
    (s.showBias n vh vl).port m = s.port m := by
  unfold State.showBias
  rw [State.port_set, State.port_set]

theorem State.showBias_wireLive (s : State) (n b : Nat) (vh vl : Int) :
    (s.showBias n vh vl).flag (wireLiveLoc n b) = s.flag (wireLiveLoc n b) := by
  have h {l : Loc} (ha : l.addr = 0x01000018 + 0x1000 * (n % 128)) (hw : l.lo + l.len ≤ 32) : l.apart (wireLiveLoc n b) :=
    Loc.apart_of_addr hw wireLiveLoc_fits (by simp only [ha, wireLiveLoc, LP_WIRE_LIVE]; omega)
  unfold State.showBias
  rw [State.flag_set_apart _ _ _ _ (h rfl (of_decide_eq_true rfl)), State.flag_set_apart _ _ _ _ (h rfl (of_decide_eq_true rfl))]

theorem State.biasChecks_only (s : State) (n : Nat) (vh vl : Int) : OnlyM wireMask s (s.biasChecks n vh vl) :=
  State.wireCheck_only (State.wireCheck_only (State.wireCheck_only (State.wireCheck_only .refl rfl) rfl) rfl) rfl

/-- A wake shows in LP.WAKE_STAT (R95). -/
def State.showWake (s : State) (n : Nat) : State :=
  ((s.put (LP_WAKE_STAT_WOKE n) true).set (LP_WAKE_STAT_KIND n) (s.get (LP_WAKE_CFG_KIND n))).lpCause n 0x06 0

theorem State.showWake_stat (s : State) (n : Nat) :
    (s.showWake n).flag (LP_WAKE_STAT_WOKE n) = true ∧
      (s.showWake n).get (LP_WAKE_STAT_KIND n) = s.get (LP_WAKE_CFG_KIND n) := by
  have h {l : Loc} (ha : l.addr = 0x01000038 + 0x1000 * (n % 128)) (hw : l.lo + l.len ≤ 32) : (s.showWake n).get l = _ :=
    Around.refl.lpCause.only.kept ha hw
  constructor
  · unfold State.flag
    rw [h rfl (of_decide_eq_true rfl), State.get_set_apart _ _ _ _ (Loc.apart_of_bits rfl)]
    exact State.flag_put_self _ _ _ (of_decide_eq_true rfl) rfl
  · rw [h rfl (of_decide_eq_true rfl), State.get_set_self _ _ _ (of_decide_eq_true rfl)]
    exact Nat.mod_eq_of_lt (s.get_lt (LP_WAKE_CFG_KIND n))

end

section

variable {s s0 t u : State} {n k d : Nat}

/-! ## The governor's window (R88, R91, R92) -/

/-- The number of a governor's current bucket, and its buckets. -/
def Governor.window (g : Governor) : Nat × List Nat := (g.bucket, g.buckets)

theorem OnlyM.govOf {m : Nat} (h : OnlyM m s t) (hm : m.testBit Part.gov.ctorIdx = false) (d : Nat) : t.govOf d = s.govOf d :=
  State.govOf_of_gov (h.gov.resolve_left (by rw [show (9 : Nat) = Part.gov.ctorIdx from rfl, hm]; decide)) d

theorem State.govOf_govStat (s : State) (d d' : Nat) : (s.govStat d).govOf d' = s.govOf d' :=
  (State.govStat_only .refl (Sub.refl _)).govOf (by decide) d'

theorem State.govOf_admitPort (s : State) (n k d : Nat) : (s.admitPort n k).govOf d = s.govOf d :=
  (State.admitPort_only .refl (Sub.refl _)).govOf (by decide) d

/-- A port that leaves the queue changes no window. -/
theorem State.window_undefer (s : State) (n d : Nat) : ((s.undefer n).govOf d).window = (s.govOf d).window := by
  have h : (s.undefer n).govOf d = (s.setGov (dieOf n)
      { s.govOf (dieOf n) with queue := (s.govOf (dieOf n)).queue.filter (· != n) }).govOf d := by
    unfold State.undefer
    dsimp only
    rw [State.govOf_govStat]
    exact State.govOf_of_gov (by rw [State.put_gov]; rfl) d
  rw [h, State.govOf_setGov]
  split
  next e => rw [e]; rfl
  next => rfl

theorem State.window_admitHeads (s : State) (d k d' : Nat) : ((s.admitHeads d k).govOf d').window = (s.govOf d').window := by
  induction k generalizing s with
  | zero => rfl
  | succ k ih =>
    unfold State.admitHeads
    split
    · rfl
    · split
      · rw [ih, State.window_undefer]
      · split
        · rw [ih, State.govOf_admitPort, State.window_undefer]
        · rfl

theorem State.window_evaluate (s : State) (d d' : Nat) : ((s.evaluate d).govOf d').window = (s.govOf d').window := by
  unfold State.evaluate
  rw [State.govOf_govStat, State.window_admitHeads]

/-- With no port deferred the evaluation only shows the window sum. -/
theorem State.evaluate_of_empty (h : (s.govOf d).queue = []) : s.evaluate d = s.govStat d := by
  unfold State.evaluate State.admitHeads
  rw [h]

theorem State.bucket_drives (s : State) (n pj d : Nat) : ((s.drives n pj).govOf d).bucket = (s.govOf d).bucket := by
  unfold State.drives
  split
  · rfl
  · unfold State.meter
    dsimp only
    rw [State.govOf_govStat, State.govOf_of_gov (State.add_gov ..)]
    show ((State.setGov s _ _).govOf d).bucket = _
    rw [State.govOf_setGov]
    split
    next e => rw [e]
    next => rfl

/-- The energy that ports of die `d` drove beside their commands is metered (R91). -/
def State.drivesAll (s : State) (d : Nat) (rest : List (PortNo × Nat)) : State :=
  s.each rest fun s x => if dieOf x.1 = d then s.drives x.1 x.2 else s

theorem State.drivesAll_bucket (s : State) (d : Nat) (rest : List (PortNo × Nat)) :
    ((s.drivesAll d rest).govOf d).bucket = (s.govOf d).bucket ∧ (s.drivesAll d rest).ticks = s.ticks := by
  induction rest generalizing s with
  | nil => exact ⟨rfl, rfl⟩
  | cons x rest ih =>
    obtain ⟨hb, ht⟩ := ih (if dieOf x.1 = d then s.drives x.1 x.2 else s)
    refine ⟨hb.trans ?_, ht.trans ?_⟩
    · split
      · exact s.bucket_drives ..
      · rfl
    · split
      · exact congrArg TimeUnit.ticks ((State.drives_only .refl (Sub.refl _)).time.resolve_left (by decide))
      · rfl

/-- The window of governor `d` moves on to the bucket of the present (R88). -/
def State.slide (s : State) (d : Nat) : State :=
  s.setGov d { s.govOf d with
    bucket := s.ticks / 50000
    buckets := (List.replicate (min 100 (s.ticks / 50000 - (s.govOf d).bucket)) 0 ++ (s.govOf d).buckets).take 100 }

/-! ## Admission and deferral (R89, R90, R92) -/

/-- The parts that a deferral may change. -/
abbrev deferMask : Nat := 0x1C08100000000240

theorem deferMask_away : awayFam deferMask 0x02400000 0x20 65536 = true := by decide +kernel

theorem OnlyM.slotState (h : OnlyM deferMask s t) (k : Nat) : t.get (MOP_DESC_STATE k) = s.get (MOP_DESC_STATE k) := by
  have ha : away deferMask (MOP_DESC_STATE k).addr = true := by
    unfold MOP_DESC_STATE
    exact awayFam_spec (by decide) deferMask_away
  exact h.getAway _ ha (.inl (of_decide_eq_true rfl))

/-- What flags a deferral beside the counters of the gateway's legs. -/
theorem flagMask_away : awayFam (maskOf (raiseParts ++ [.ports, .LP_DEFER, .LP_GOV_CNT])) 0x0301000C 0x10 1024 = true := by
  decide +kernel

theorem OnlyM.legDefer (h : OnlyM (maskOf (raiseParts ++ [.ports, .LP_DEFER, .LP_GOV_CNT])) s t) (l : Nat) :
    t.get (GW_LEG_STAT_DEFER2 l) = s.get (GW_LEG_STAT_DEFER2 l) := by
  have ha : away (maskOf (raiseParts ++ [.ports, .LP_DEFER, .LP_GOV_CNT])) (GW_LEG_STAT_DEFER2 l).addr = true := by
    unfold GW_LEG_STAT_DEFER2
    exact awayFam_spec (by decide) flagMask_away
  exact h.getAway _ ha (.inl (of_decide_eq_true rfl))

theorem State.setSlotState_desc (s : State) (k : Nat) {v : Nat} (hv : v < 8) :
    (s.setSlotState k v).get (MOP_DESC_STATE k) = v := by
  have hset : (s.set (MOP_DESC_STATE k) v).get (MOP_DESC_STATE k) = v :=
    (State.get_set_self _ _ _ (of_decide_eq_true rfl)).trans (Nat.mod_eq_of_lt hv)
  have hfree (t : State) (f p : Nat) : (t.set (MOP_POOL_STAT_FREE p) f).get (MOP_DESC_STATE k) = t.get (MOP_DESC_STATE k) :=
    State.get_set_apart _ _ _ _ (Loc.apart_of_addr (of_decide_eq_true rfl) (of_decide_eq_true rfl)
      (by simp only [MOP_POOL_STAT_FREE, MOP_DESC_STATE]; omega))
  have hnq (p : Nat) : (MOP_PORTQ_NQ p).apart (MOP_DESC_STATE k) :=
    Loc.apart_of_addr (of_decide_eq_true rfl) (of_decide_eq_true rfl) (by simp only [MOP_PORTQ_NQ, MOP_DESC_STATE]; omega)
  unfold State.setSlotState
  dsimp only
  split
  · exact hset
  · split
    · rw [State.get_inc_apart _ _ _ (hnq _), hfree, hset]
    · split
      · rw [State.get_set_apart _ _ _ _ (hnq _), hfree, hset]
      · rw [hfree, hset]

/-- DEFERRED follows the governor's queue alone. -/
theorem OnlyM.deferred (h : OnlyM besideMask s t) (n : Nat) : t.flag (LP_STATE_DEFERRED n) = s.flag (LP_STATE_DEFERRED n) :=
  h.flagAway _ (awayFam_spec (c := 0x01000004) (k := 0x1000) (N := 128) (by decide)
    (Bool.and_eq_true_iff.mp besideMask_physics).1) (.inl (of_decide_eq_true rfl))

theorem State.admitPort_spec (s : State) (n k : Nat) : (s.admitPort n k).get (MOP_DESC_STATE k) = slotArb ∧
    ((s.admitPort n k).port n).reservation = s.reservationFor n k ∧ (s.admitPort n k).flag (LP_STATE_DEFERRED n) = false := by
  unfold State.admitPort
  extract_lets r u
  have hv : OnlyM besideMask (u.put (LP_STATE_DEFERRED n) false) ((u.put (LP_STATE_DEFERRED n) false).setSlotState k slotArb) :=
    State.setSlotState_only .refl rfl
  generalize hw : (u.put (LP_STATE_DEFERRED n) false).setSlotState k slotArb = w at hv ⊢
  have hg : OnlyM besideMask w (w.govStat (dieOf n)) := State.govStat_only .refl rfl
  have hslot : OnlyM deferMask w (w.govStat (dieOf n)) := State.govStat_only .refl rfl
  refine ⟨?_, ?_, ?_⟩
  · rw [hslot.slotState, ← hw, State.setSlotState_desc _ _ (by decide)]
  · rw [hg.port rfl, hv.port rfl, State.port_put, State.port_modPort_self]
  · rw [hg.deferred, hv.deferred, State.flag_put_self _ _ _ (of_decide_eq_true rfl) rfl]

/-- What a deferral leaves (R92). -/
structure Deferred (n : Nat) (s t : State) : Prop where
  flag : t.flag (LP_STATE_DEFERRED n) = true
  queued : n ∈ (t.govOf (dieOf n)).queue
  tick : (t.port n).deferTick = some s.ticks
  count : t.get (LP_DEFER_DEFERRALS n) = min (s.get (LP_DEFER_DEFERRALS n) + 1) (2 ^ 16 - 1)

theorem defer_apart_deferred (n : Nat) : (LP_DEFER_DEFERRALS n).apart (LP_STATE_DEFERRED n) :=
  Loc.apart_of_addr (of_decide_eq_true rfl) (of_decide_eq_true rfl) (by simp only [LP_DEFER_DEFERRALS, LP_STATE_DEFERRED]; omega)

theorem State.deferPort_spec (s : State) (n : Nat) : Deferred n s (s.deferPort n) := by
  unfold State.deferPort
  extract_lets d g u before v
  generalize hw : v.put (LP_STATE_DEFERRED n) true = w
  have hx : OnlyM besideMask (w.inc (LP_DEFER_DEFERRALS n))
      (((w.inc (LP_DEFER_DEFERRALS n)).inc (LP_GOV_CNT_DEFER d)).govStat d) :=
    State.govStat_only (State.inc_only (LP_GOV_CNT_DEFER_holds d) .refl rfl) rfl
  constructor
  case flag =>
    rw [hx.deferred, State.flag_inc_apart _ _ _ (defer_apart_deferred n), ← hw,
      State.flag_put_self _ _ _ (of_decide_eq_true rfl) rfl]
  case queued =>
    rw [State.govOf_govStat, State.govOf_of_gov (State.inc_gov ..), State.govOf_of_gov (State.inc_gov ..), ← hw,
      State.govOf_of_gov (State.put_gov ..), State.govOf_setGov_self]
    simp
  case tick =>
    rw [hx.port rfl, State.port_inc, ← hw, State.port_put]
    show (u.port n).deferTick = _
    rw [State.port_modPort_self]
  case count =>
    rw [(hx.mono rfl : OnlyM aroundMask _ _).kept rfl, State.get_inc_self _ _ (of_decide_eq_true rfl), ← hw,
      State.get_put_apart _ _ _ _ (defer_apart_deferred n).symm]
    rfl

/-! ## Flags (R93) -/

/-- A frame deferred for 2 ms is flagged (R93). -/
def State.flagDeferral (s : State) (n k : Nat) : State :=
  let s := s.modPort n fun p => { p with deferFlagged := true }
  ((s.raise (4 * n + 1) k).inc (LP_DEFER_FLAGGED n)).inc (LP_GOV_CNT_FLAG (dieOf n))

theorem State.flagDeferral_only (s : State) (n k : Nat) :
    OnlyM (maskOf (raiseParts ++ [.ports, .LP_DEFER, .LP_GOV_CNT])) s (s.flagDeferral n k) :=
  State.inc_only (LP_GOV_CNT_FLAG_holds _) (State.inc_only (LP_DEFER_FLAGGED_holds n) (State.raise_only
    (State.modPort_only .refl (Sub.of_within (by decide))) (Sub.of_within (by decide))) (by decide)) (by decide)

theorem State.flagDeferral_spec (s : State) (n k : Nat) : ((s.flagDeferral n k).port n).deferFlagged = true ∧
    (s.flagDeferral n k).get (LP_DEFER_FLAGGED n) = min (s.get (LP_DEFER_FLAGGED n) + 1) (2 ^ 16 - 1) := by
  unfold State.flagDeferral
  extract_lets u
  have hr : OnlyM besideMask u (u.raise (4 * n + 1) k) := State.raise_only .refl rfl
  generalize u.raise (4 * n + 1) k = w at hr ⊢
  have hc : OnlyM aroundMask (w.inc (LP_DEFER_FLAGGED n)) ((w.inc (LP_DEFER_FLAGGED n)).inc (LP_GOV_CNT_FLAG (dieOf n))) :=
    State.inc_only (LP_GOV_CNT_FLAG_holds _) .refl rfl
  constructor
  · rw [State.port_inc, State.port_inc, hr.port rfl, State.port_modPort_self]
  · rw [hc.kept rfl, State.get_inc_self _ _ (of_decide_eq_true rfl), (hr.mono rfl : OnlyM aroundMask _ _).kept rfl]
    rfl

/-- A gateway copy in a slot that is flagged raises source 1542 and is counted at its leg (R256). -/
def State.flagCopy (s : State) (k : Nat) : State :=
  match s.gw.copies.find? (·.slot == some k) with
  | some c => (s.raise 1542 c.route).inc (GW_LEG_STAT_DEFER2 c.leg)
  | none => s

/-- It leaves the ports and LP.DEFER alone. -/
theorem State.flagCopy_line (s : State) (n k : Nat) : (s.flagCopy k).port n = s.port n ∧
    (s.flagCopy k).get (LP_DEFER_FLAGGED n) = s.get (LP_DEFER_FLAGGED n) := by
  unfold State.flagCopy
  split
  next c _ =>
    have hr : OnlyM besideMask s (s.raise 1542 c.route) := State.raise_only .refl rfl
    rw [State.port_inc, hr.port rfl, State.get_inc_apart, (hr.mono rfl : OnlyM aroundMask _ _).kept rfl]
    · exact ⟨rfl, rfl⟩
    · exact Loc.apart_of_addr (of_decide_eq_true rfl) (of_decide_eq_true rfl)
        (by simp only [GW_LEG_STAT_DEFER2, LP_DEFER_FLAGGED]; omega)
  next => exact ⟨rfl, rfl⟩

theorem State.flagCopy_count {c : Copy} (h : s.gw.copies.find? (·.slot == some k) = some c) :
    (s.flagCopy k).get (GW_LEG_STAT_DEFER2 c.leg) =
      min (s.get (GW_LEG_STAT_DEFER2 c.leg) + 1) (2 ^ (GW_LEG_STAT_DEFER2 c.leg).len - 1) := by
  have hr : OnlyM (maskOf (raiseParts ++ [.ports, .LP_DEFER, .LP_GOV_CNT])) s (s.raise 1542 c.route) :=
    State.raise_only .refl (Sub.of_within (by decide))
  unfold State.flagCopy
  rw [h]
  dsimp only
  rw [State.get_inc_self _ _ (of_decide_eq_true rfl), hr.legDefer]

end

end Sys2Proof.Machine

open Sys2Proof Sys2Proof.Machine

/-- Settles O22: a short folds the limit back (`State.foldBack_spec`); an event's end is `State.endEvent_ends` and the change of the
physical state that follows from it; the wait and the retries end by changes of the port alone. -/
theorem faultEventsAndRetries : Obligations.FaultEventsAndRetries := by
  intro s n
  refine ⟨?short, ?ends, ?wait, ?success⟩
  case short =>
    intro within pj hd he
    obtain ⟨t, u, hrun, hu, ht, hev⟩ := s.shortDetected_spec n within pj hd he
    have hf := u.foldBack_spec n
    have hevents : u.get (LP_FAULT_EVENTS n) = s.get (LP_FAULT_EVENTS n) :=
      hu.only.kept rfl
    refine ⟨t, hrun, ?_, ?_, ?_, ?_, ?_⟩
    · rw [ht.event, hf.port, hu.event, State.port_modPort_self]
    · rw [ht.folded, hf.folded]
    · rw [hev, hf.events, hevents]
    · rw [ht.pending, hf.pending]
    · rw [ht.retry, hf.retry, hu.pending, hu.retry]; rfl
  case ends =>
    intro ends e he hold hnow
    have hends (pj : Nat) : ends (max e (pj * 16)) (s.finishEvent n pj) := by
      obtain ⟨u, hu, ht⟩ := State.finishEvent_ends (pj := pj) he hold hnow
      have hevent : ((s.finishEvent n pj).port n).event = (u.port n).event := congrArg (·.1) ht.faults
      have hlatched : ((s.finishEvent n pj).port n).latched = (u.port n).latched := congrArg (·.2.1) ht.faults
      have hwait : ((s.finishEvent n pj).port n).faultOff = (u.port n).faultOff := congrArg (·.2.2) ht.faults
      refine ⟨hevent.trans hu.event, ht.lastE.trans hu.lastE, ?_, ht.retry.trans hu.retry, fun h5 => ?_, fun h5 => ?_⟩
      · rw [ht.drv]
        split <;> rfl
      · rw [ht.pstate, if_pos h5, hlatched, ht.pending]
        exact ⟨rfl, hu.fifth h5⟩
      · rw [ht.pstate, if_neg h5, hwait]
        exact ⟨rfl, (hu.wait h5).2⟩
    exact ⟨fun pj => ⟨_, rfl, hends pj⟩, _, rfl, hends 1400000000⟩
  case wait =>
    intro t0 hf hdue hold hnow
    let u := (s.modPort n fun p => { p with faultOff := none }).put (LP_STATE_PENDING n) true
    have hrun : execFaultWaitExpiry n s = .next (u.refreshPort n) := by
      simp [execFaultWaitExpiry, hf, hold, hdue, u]
    have hsu : OnlyM aroundMask s u :=
      State.put_only (LP_STATE_PENDING_holds _) (State.modPort_only .refl rfl) rfl
    obtain ⟨ho, hlatched, hdis, -⟩ := State.pstateNow_conditions hnow (by decide)
    have hport : u.port n = { s.port n with faultOff := none } := by
      rw [State.port_put, State.port_modPort_self]
    have hnow' : u.pstateNow n = 1 := by
      rw [State.pstateNow_operational ((hsu.withFaults.operational n).trans ho), hsu.withFaults.drvDis,
        hdis (by decide), hport, hlatched]
      rfl
    have hm : MovesTo n 1 u (u.refreshPort n) := by
      refine State.refreshPort_active (old := 2) ?_ (by decide) hnow'
      rw [State.get_put_apart _ _ _ _ (Loc.apart_of_bits rfl), State.get_modPort, hold]
    refine ⟨_, hrun, hm.pstate, ?_, ?_, ?_, ?_⟩
    · rw [hm.pending, State.flag_put_self _ _ _ (of_decide_eq_true rfl) rfl]
    · rw [hm.drv, hsu.withFaults.ready 2]
      rfl
    · exact (congrArg (·.2.2) hm.faults).trans (by rw [hport])
    · rw [hm.retry, State.get_put_apart _ _ _ _ (Loc.apart_of_bits rfl), State.get_modPort]
  case success =>
    intro hp hd he
    let u := (s.put (LP_STATE_PENDING n) false).set (LP_STATE_RETRY n) 0
    have hrun : execRetrySuccess n s = .next (u.lpCause n 2 0) := by
      simp [execRetrySuccess, hp, hd, he, u]
    have h : Around u (u.lpCause n 2 0) := Around.refl.lpCause
    refine ⟨_, hrun, ?_, ?_⟩
    · rw [h.pending, State.flag_set_apart _ _ _ _ (Loc.apart_of_bits rfl), State.flag_put_self _ _ _ (of_decide_eq_true rfl) rfl]
    · rw [h.retry, State.get_set_self _ _ _ (of_decide_eq_true rfl)]
      rfl

/-- Settles O23: DRV_DIS, UNLATCH and the reset change the conditions of the physical state, which follows them (R76); the runs and
the bits of the wire conditions after a bias check are `State.biasChecks_spec`. -/
theorem portControlAndWireChecks : Obligations.PortControlAndWireChecks := by
  refine ⟨fun s n hs => ⟨?disable, ?enable, ?unlatch, ?reset⟩, fun s n => ⟨?bias, ?wake⟩⟩
  case disable =>
    intro hold hnow
    obtain ⟨hdrv, hstate⟩ := State.drvDisable_spec (s := s.answerDone) hold hnow
    exact answers_hostWrite rfl hs.1 hs.2 ⟨State.drvDis_refreshPort .., hdrv, hstate⟩
  case enable =>
    intro hold hnow hf
    have hm := State.drvEnable_movesTo (s := s.answerDone) hold hnow hf
    refine answers_hostWrite rfl hs.1 hs.2 ⟨State.drvDis_refreshPort .., hm.pstate, ?_⟩
    rw [hm.drv, State.ready_putDrvDis]
    rfl
  case unlatch =>
    intro hold hnow hd
    have hm := State.unlatch_movesTo (s := s.answerDone) hold hnow hd
    obtain ⟨hretry, hpending⟩ := s.answerDone.clearLatch_retry n
    have hlatched : ((s.answerDone.unlatch n).port n).latched = ((s.answerDone.clearLatch n).port n).latched :=
      congrArg (·.2.1) hm.faults
    refine answers_hostWrite rfl hs.1 hs.2 ⟨hm.pstate, ?_, hm.retry.trans hretry, hm.pending.trans hpending⟩
    rw [hlatched, State.port_clearLatch]
  case reset =>
    intro htr
    let u := s.answerDone.endFaults n
    have hrun : s.answerDone.resetPort n = (u.clearPort n).restartPort n (u.get (LP_STATE_PSTATE n)) := by
      unfold State.resetPort
      rw [show s.answerDone.inTransit n = false from htr]
      rfl
    have hc := u.clearPort_cleared n
    have ht := (u.clearPort n).restartPort_restarts n (u.get (LP_STATE_PSTATE n))
    have hfaults : (((u.clearPort n).restartPort n (u.get (LP_STATE_PSTATE n))).port n).faults = (none, false, none) := by
      rw [ht.faults, ← s.answerDone.endFaults_faults n]
      simp [State.clearPort, u]
    have hflag {l : Loc} (hl : l ∈ physicalFields n) : (u.clearPort n).flag l = false := by
      unfold State.flag
      rw [hc.state l hl]
      rfl
    refine answers_hostWrite rfl hs.1 hs.2 (hrun ▸ ⟨congrArg (·.2.1) hfaults, congrArg (·.2.2) hfaults,
      congrArg (·.1) hfaults, ?_, ?_, ?_, ?_, ?_, ?_⟩)
    · rw [ht.retry, hc.state _ (by simp [physicalFields])]
    · rw [ht.pending, hflag (by simp [physicalFields])]
    · exact ht.folded (hflag (by simp [physicalFields]))
    · have haway : away aroundMask (0x01000018 + 0x1000 * (n % 128)) = true :=
        awayFam_spec (by decide) (List.all_eq_true.mp aroundMask_away _ (by decide))
      exact (ht.only.word _ haway).trans hc.meas
    · rw [ht.only.kept rfl, hc.live]
    · rw [ht.only.kept rfl, hc.tdcv]
  case bias =>
    intro vh vl hstop hrec
    let u := s.showBias n vh vl
    have hrun : execBiasCheck n vh vl s = .next (u.biasChecks n vh vl) := by
      simp only [execBiasCheck, hstop, hrec]
      rfl
    have hc := u.biasChecks_only n vh vl
    obtain ⟨hvh, hvl⟩ := s.showBias_meas n vh vl
    refine ⟨_, hrun, ?_, ?_, fun b hb => ?_⟩
    · rw [hc.lineField wireMask_away rfl (by decide) (of_decide_eq_true rfl), hvh]
    · rw [hc.lineField wireMask_away rfl (by decide) (of_decide_eq_true rfl), hvl]
    · obtain ⟨hrun, hlive⟩ := u.biasChecks_spec n vh vl hb
      have hrun0 : u.wireRun n b = s.wireRun n b := by
        unfold State.wireRun
        rw [State.showBias_port]
      rw [hrun0] at hrun hlive
      exact ⟨hrun, hlive.trans (by rw [State.showBias_wireLive]; rfl)⟩
  case wake =>
    intro w hp hw
    let u := if w = .erroneous then s.modPort n fun p => { p with wakeErrs := p.wakeErrs + 1 } else s
    have hsees : u.wakes n w = true := by
      by_cases he : w = .erroneous
      · rw [if_pos he] at hw
        simp [u, he, State.wakes, hw.1]
        omega
      · rw [if_neg he] at hw
        simp [u, he, hw]
    have hrun : execWakeDetected n w s = .next (u.showWake n) := by
      simp only [execWakeDetected, hp, if_true]
      rw [if_pos hsees]
      rfl
    obtain ⟨hwoke, hkind⟩ := u.showWake_stat n
    refine ⟨_, hrun, hwoke, hkind.trans ?_⟩
    unfold u
    split <;> rfl

/-- Settles O24: admission and deferral are the two outcomes of the governor's test; what a bucket's boundary sets off beside the
move of the window leaves every window alone (`State.window_evaluate`); a flag counts at the port and at the copy's leg. -/
theorem governorAdmitsDefersFlags : Obligations.GovernorAdmitsDefersFlags := by
  refine ⟨fun s n k hk hcan hq htick => ⟨?admitted, ?deferred⟩, fun s d rest hb => ?bucket,
    fun s n t0 k ht0 hk hf hdue => ?flag⟩
  case admitted =>
    intro hopen
    have hrun : execGovernorSubmit n s = .next (s.admitPort n k) := by
      simp [execGovernorSubmit, hk, hcan, hq, htick, hopen.1, State.fits, hopen.2]
    exact ⟨_, hrun, s.admitPort_spec n k⟩
  case deferred =>
    intro hclosed
    have hrun : execGovernorSubmit n s = .next (s.deferPort n) := by
      have hgate : ((s.govOf (dieOf n)).queue.isEmpty && s.fits n k) = false := by
        rw [Bool.eq_false_iff]
        exact fun h => hclosed (by simpa [State.fits] using h)
      simp [execGovernorSubmit, hk, hcan, hq, htick, hgate]
    have h := s.deferPort_spec n
    have hd : OnlyM deferMask s (s.deferPort n) := State.deferPort_only .refl rfl
    exact ⟨_, hrun, (hd.slotState k).trans hq, h.flag, h.queued, h.tick, h.count⟩
  case bucket =>
    let u := s.drivesAll d rest
    obtain ⟨hbucket, hticks⟩ := s.drivesAll_bucket d rest
    have hrun : execGovernorBucket ⟨d, rest⟩ s = .next ((u.slide d).evaluate d) := by
      show Host.Outcome.next (if (u.govOf d).bucket < u.ticks / 50000 then (u.slide d).evaluate d else u) = _
      rw [if_pos (by rw [hbucket, hticks]; exact hb)]
    have hwindow : (((u.slide d).evaluate d).govOf d).window = ((u.slide d).govOf d).window := State.window_evaluate ..
    refine ⟨_, hrun, ?_, fun hrest => ⟨?_, fun hempty => ?_⟩⟩
    · rw [show (((u.slide d).evaluate d).govOf d).bucket = _ from congrArg (·.1) hwindow, State.slide,
        State.govOf_setGov_self, ← hticks]
      rfl
    · subst hrest
      rw [show (((u.slide d).evaluate d).govOf d).buckets = _ from congrArg (·.2) hwindow, State.slide, State.govOf_setGov_self]
      rfl
    · subst hrest
      have hnone : ((u.slide d).govOf d).queue = [] := by
        rw [State.slide, State.govOf_setGov_self]
        exact hempty
      rw [State.evaluate_of_empty hnone]
      exact OnlyM.only (State.govStat_only (State.setGov_only .refl (Sub.of_within (by decide))) (Sub.of_within (by decide)))
        (Sub.refl _)
  case flag =>
    let u := s.flagDeferral n k
    have hu := s.flagDeferral_only n k
    obtain ⟨hflag, hcount⟩ := s.flagDeferral_spec n k
    have hgw : u.gw = s.gw := hu.gw.resolve_left (by decide)
    have hrun : execDeferralFlag n s = .next (u.flagCopy k) := by
      simp only [execDeferralFlag, ht0, hk, hf, hdue]
      rfl
    obtain ⟨hport, hflagged⟩ := u.flagCopy_line n k
    refine ⟨_, hrun, by rw [hport, hflag], hflagged.trans hcount, fun c hc => ?_⟩
    rw [State.flagCopy_count (hgw ▸ hc), hu.legDefer]

end


/-! # Transmit attempts, bit-engine events, and where attempts and handovers complete (O26, O27, O60)

These sections are elaborated in one thread (`Elab.async false`, as the tests are), so that the text as a whole compiles within
the memory of its check. -/

section

set_option Elab.async false

namespace Sys2Proof.Machine

/-! ## Registers that the traffic of a port leaves alone -/

/-- What may change while attempts start, go on and end, beside the states of the bit engine: slots, the governor, the driver's
meter and the load check, the ledger. -/
abbrev trafficMask : Nat := 0x301100000002000000302403C00000010C1800000000000C069000000196CD

/-- The first words of LP.CFG, of BT.CTRL, STAT, CFG, TDC, PLCA_STAT, BCN_CFG, BCN_STAT and TXCNT, and of ECF.STAT and
ETH_COLL: these stay. -/
def engineRegs : List Nat :=
  [0x01000008, 0x01000100, 0x01000104, 0x01000108, 0x0100011C, 0x01000128, 0x01000130, 0x01000134, 0x0100013C, 0x01000204,
    0x01000244]

theorem trafficMask_away : (engineRegs.all fun c => awayFam trafficMask c 0x1000 128) = true := by decide +kernel

/-- What the driver's meter and the load check may change, which is no slot's descriptor. -/
abbrev meterMask : Nat := 0x30110000000000000000000000000000000000000000000C0680000000024C

theorem meterMask_away : ([0, 4, 8, 0x14].all fun c => awayFam meterMask (0x02400000 + c) 0x20 65536) = true := by
  decide +kernel

/-- What an engine's entry to IDLE and a change of its counters may change. -/
abbrev idleMask : Nat := 0x301100000002000000302403C18880010C1800040000004C001000000196CD

/-- Of the engine's registers, BT.CTRL, TXCNT and BCN_STAT stay even then. -/
theorem idleMask_away : ([0x01000100, 0x01000134, 0x0100013C].all fun c => awayFam idleMask c 0x1000 128) = true := by
  decide +kernel

section

variable {s t : State} {n c : Nat} {l : Loc}

/-- A field of an engine register that traffic leaves alone. -/
theorem OnlyM.engineField (h : OnlyM trafficMask s t) (hl : l.addr = c + 0x1000 * (n % 128))
    (hw : l.lo + l.len ≤ 32 := by exact of_decide_eq_true rfl) (hc : c ∈ engineRegs := by decide) : t.get l = s.get l :=
  h.lineField trafficMask_away hl hc hw

theorem OnlyM.engineFlag (h : OnlyM trafficMask s t) (hl : l.addr = c + 0x1000 * (n % 128))
    (hw : l.lo + l.len ≤ 32 := by exact of_decide_eq_true rfl) (hc : c ∈ engineRegs := by decide) : t.flag l = s.flag l :=
  congrArg (decide <| · = 1) (h.engineField hl hw hc)

theorem OnlyM.bstate (h : OnlyM trafficMask s t) (n : Nat) : t.bstate n = s.bstate n := h.engineField rfl

theorem OnlyM.isEth (h : OnlyM trafficMask s t) (n : Nat) : t.isEth n = s.isEth n :=
  congrArg (decide <| · = 6) (h.engineField (n := n) (l := LP_CFG_MODE n) rfl)

theorem OnlyM.quarPending (h : OnlyM trafficMask s t) (n : Nat) : t.flag (ECF_STAT_QPEND n) = s.flag (ECF_STAT_QPEND n) :=
  h.engineFlag rfl

/-- A field of a slot's descriptor that metering leaves alone. -/
theorem OnlyM.slotField {w k : Nat} (h : OnlyM meterMask s t) (hl : l.addr = 0x02400000 + w + 0x20 * (k % 65536))
    (hlen : l.lo + l.len ≤ 32 := by exact of_decide_eq_true rfl) (hw : w ∈ [0, 4, 8, 0x14] := by decide) : t.get l = s.get l :=
  h.getAway l (hl ▸ awayFam_spec (by decide) (List.all_eq_true.mp meterMask_away w hw)) (.inl hlen)

theorem OnlyM.slotFlag {w k : Nat} (h : OnlyM meterMask s t) (hl : l.addr = 0x02400000 + w + 0x20 * (k % 65536))
    (hlen : l.lo + l.len ≤ 32 := by exact of_decide_eq_true rfl) (hw : w ∈ [0, 4, 8, 0x14] := by decide) : t.flag l = s.flag l :=
  congrArg (decide <| · = 1) (h.slotField hl hlen hw)

/-- A field of BT.CTRL, TXCNT or BCN_STAT, whatever happens on the way to IDLE. -/
theorem OnlyM.countField (h : OnlyM idleMask s t) (hl : l.addr = c + 0x1000 * (n % 128))
    (hw : l.lo + l.len ≤ 32 := by exact of_decide_eq_true rfl)
    (hc : c ∈ [0x01000100, 0x01000134, 0x0100013C] := by decide) : t.get l = s.get l :=
  h.lineField idleMask_away hl hc hw

end

/-! ## The hidden slots -/

theorem State.slotHid_of_store {s t : State} (h : t.store = s.store) (k : Nat) : t.slotHid k = s.slotHid k := by
  unfold State.slotHid; rw [h]

theorem State.slotHid_setSlotState (s : State) (k st j : Nat) : (s.setSlotState k st).slotHid j = s.slotHid j :=
  State.slotHid_of_store ((State.setSlotState_only .refl (Sub.refl _)).store.resolve_left (by decide)) j

theorem State.port_setSlotState (s : State) (k st n : Nat) : (s.setSlotState k st).port n = s.port n :=
  (State.setSlotState_only .refl (Sub.refl _)).port (by decide) n

/-- DL_EN lies beside STATE in word 0 of a descriptor. -/
theorem State.dlEn_setSlotState (s : State) (k st : Nat) :
    (s.setSlotState k st).flag (MOP_DESC_DL_EN k) = s.flag (MOP_DESC_DL_EN k) := by
  have hset : (s.set (MOP_DESC_STATE k) st).flag (MOP_DESC_DL_EN k) = s.flag (MOP_DESC_DL_EN k) :=
    State.flag_set_apart _ _ _ _ (Loc.apart_of_bits rfl)
  have hfree (t : State) (f p : Nat) : (t.set (MOP_POOL_STAT_FREE p) f).flag (MOP_DESC_DL_EN k) = t.flag (MOP_DESC_DL_EN k) :=
    State.flag_set_apart _ _ _ _ (Loc.apart_of_addr (of_decide_eq_true rfl) (of_decide_eq_true rfl)
      (by simp only [MOP_POOL_STAT_FREE, MOP_DESC_DL_EN]; omega))
  have hnq (p : Nat) : (MOP_PORTQ_NQ p).apart (MOP_DESC_DL_EN k) :=
    Loc.apart_of_addr (of_decide_eq_true rfl) (of_decide_eq_true rfl) (by simp only [MOP_PORTQ_NQ, MOP_DESC_DL_EN]; omega)
  unfold State.setSlotState
  dsimp only
  split
  · exact hset
  · split
    · rw [State.flag_inc_apart _ _ _ (hnq _), hfree, hset]
    · split
      · rw [State.flag_set_apart _ _ _ _ (hnq _), hfree, hset]
      · rw [hfree, hset]

/-! ## Modes and beacons of the ports

OPMODE in effect, OPMODE pending and the waiting beacon: attempts, the governor, bus-off and the counters leave them alone. -/

/-- OPMODE in effect, OPMODE pending and the waiting beacon of a port. -/
def State.modes (s : State) (n : Nat) : Nat × Option Nat × Option Nat :=
  ((s.port n).opMode, (s.port n).opPending, (s.port n).beaconWait)

section

variable (s : State) (n m d k v : Nat)

theorem OnlyM.modes {s t : State} {m : Nat} (h : OnlyM m s t) (hm : m.testBit Part.ports.ctorIdx = false := by decide)
    (n : Nat) : t.modes n = s.modes n := by
  unfold State.modes; rw [h.port hm]

/-- A change of a port's hidden half beside its modes and its waiting beacon. -/
theorem State.modes_modPort {f : Port → Port}
    (hf : ∀ p, ((f p).opMode, (f p).opPending, (f p).beaconWait) = (p.opMode, p.opPending, p.beaconWait) := by intro _; rfl) :
    (s.modPort n f).modes m = s.modes m := by
  unfold State.modes
  rw [State.port_modPort]
  split
  next h => rw [h]; exact hf _
  next => rfl

@[simp] theorem State.modes_set (l : Loc) : (s.set l v).modes m = s.modes m := by unfold State.modes; rw [State.port_set]
@[simp] theorem State.modes_put (l : Loc) (b : Bool) : (s.put l b).modes m = s.modes m := State.modes_set ..
@[simp] theorem State.modes_inc (l : Loc) : (s.inc l).modes m = s.modes m := State.modes_set ..

theorem State.modes_admitPort : (s.admitPort n k).modes m = s.modes m := by
  unfold State.admitPort
  dsimp only
  rw [OnlyM.modes (State.govStat_only .refl (Sub.refl _)), OnlyM.modes (State.setSlotState_only .refl (Sub.refl _)),
    State.modes_put, State.modes_modPort]

theorem State.modes_undefer : (s.undefer n).modes m = s.modes m := by
  unfold State.undefer
  dsimp only
  rw [OnlyM.modes (State.govStat_only .refl (Sub.refl _)), State.modes_put, State.modes_modPort,
    OnlyM.modes (State.setGov_only .refl (Sub.refl _))]

theorem State.modes_admitHeads : (s.admitHeads d k).modes m = s.modes m := by
  induction k generalizing s with
  | zero => rfl
  | succ k ih =>
    unfold State.admitHeads
    split
    · rfl
    · split
      · rw [ih, State.modes_undefer]
      · split
        · rw [ih, State.modes_admitPort, State.modes_undefer]
        · rfl

theorem State.modes_releaseReservation : (s.releaseReservation n).modes m = s.modes m := by
  unfold State.releaseReservation State.evaluate
  split
  · rfl
  · rw [OnlyM.modes (State.govStat_only .refl (Sub.refl _)), State.modes_admitHeads, State.modes_modPort]

theorem State.modes_dropAttempt : (s.dropAttempt n).modes m = s.modes m := by
  unfold State.dropAttempt
  dsimp only
  rw [State.modes_releaseReservation, OnlyM.modes (State.requeue_only .refl (Sub.refl _)), State.modes_modPort]

theorem State.modes_recoveryStep : (s.recoveryStep n).modes m = s.modes m := by
  unfold State.recoveryStep
  split
  · exact State.modes_set ..
  · dsimp only
    split
    · rw [OnlyM.modes (State.report_only .refl (Sub.refl _)), OnlyM.modes (State.btCause_only .refl (Sub.refl _)),
        State.modes_put, State.modes_set]
    · rw [State.modes_set, State.modes_modPort]
  · exact State.modes_set ..

theorem State.modes_when {b : Bool} {f : State → State} (hf : (f s).modes m = s.modes m) : (s.when b f).modes m = s.modes m := by
  unfold State.when
  split
  · exact hf
  · rfl

theorem State.modes_enterBusOff (quar : Bool) : (s.enterBusOff n quar).modes m = s.modes m := by
  unfold State.enterBusOff
  extract_lets s1 s2 s3 s4 s5 s6 s7 s8 s9
  have h2 : s2.modes m = s.modes m := by
    rw [State.modes_put, State.modes_undefer, State.modes_dropAttempt]
  have h3 : s3.modes m = s2.modes m := by
    unfold s3
    split
    · rfl
    · unfold State.modes State.port
      rw [State.setStamp_ports]
  have h6 : s6.modes m = s3.modes m := by
    rw [State.modes_modPort]
    simp [s5, s4]
  have h8 : s8.modes m = s6.modes m := by
    rw [OnlyM.modes (State.occur_only .refl (Sub.refl _)), OnlyM.modes (State.btCause_only .refl (Sub.refl _)),
      State.modes_put, State.modes_when s6 m (f := fun s => s.setB n 7) (State.modes_set ..)]
  have h9 : s9.modes m = s8.modes m := by
    unfold s9
    split
    · exact State.modes_set ..
    · exact State.modes_recoveryStep ..
  have h10 : (s9.sndRequest n).modes m = s9.modes m := OnlyM.modes (State.sndRequest_only .refl (Sub.refl _)) (n := m)
  rw [State.modes_when s9 m (f := fun s => s.sndRequest n) h10, h9, h8, h6, h3, h2]

theorem State.modes_errorState (rec : Bool) : (s.errorState n rec).modes m = s.modes m := by
  unfold State.errorState
  extract_lets b tec rc s1 s2
  have h1 : s1.modes m = s.modes m := OnlyM.modes (State.warnState_only .refl (Sub.refl _)) (n := m)
  have h2 : s2.modes m = s1.modes m := by
    unfold s2
    split
    · rw [OnlyM.modes (State.btCause_only .refl (Sub.refl _)), State.modes_set]
    · split
      · rw [OnlyM.modes (State.btCause_only .refl (Sub.refl _)), State.modes_set]
      · rfl
  split
  · rw [State.modes_enterBusOff, h2, h1]
  · rw [h2, h1]

theorem State.modes_tecDown : (s.tecDown n).modes m = s.modes m := by
  unfold State.tecDown
  split
  · rfl
  · rw [State.modes_errorState, State.modes_set]

theorem State.modes_rxOnly : (s.rxOnly n).modes m = s.modes m := State.modes_put ..

end

/-! ## OPMODE takes effect (R119) -/

/-- A written OPMODE leaves the port's hidden half and the restrictions of the new mode; RXONLY follows. -/
theorem State.applyOpmode_spec {s : State} {n v : Nat} (hp : (s.port n).opPending = some v) :
    ∃ w, OnlyM trafficMask s w ∧ (w.port n).opMode = v ∧ (w.port n).opPending = none ∧
      (w.port n).beaconWait = (s.port n).beaconWait ∧ s.applyOpmode n = w.rxOnly n := by
  let u := s.modPort n fun p => { p with opMode := v, opPending := none }
  have hu : u.modes n = (v, none, (s.port n).beaconWait) := by
    unfold State.modes; rw [State.port_modPort_self]
  have ho : OnlyM trafficMask s u := State.modPort_only .refl rfl
  have hw : ∃ w, OnlyM trafficMask s w ∧ w.modes n = u.modes n ∧ s.applyOpmode n = w.rxOnly n := by
    unfold State.applyOpmode
    rw [hp]
    dsimp only
    split
    · exact ⟨u, ho, rfl, rfl⟩
    · exact ⟨_, State.undefer_only (State.dropAttempt_only ho rfl) rfl,
        by rw [State.modes_undefer, State.modes_dropAttempt], rfl⟩
  obtain ⟨w, hsw, hm, happ⟩ := hw
  obtain ⟨hmode, hrest⟩ := Prod.mk.inj (hm.trans hu)
  obtain ⟨hpend, hwait⟩ := Prod.mk.inj hrest
  exact ⟨w, hsw, hmode, hpend, hwait, happ⟩

theorem State.beaconWait_applyOpmode (s : State) (n : Nat) :
    ((s.applyOpmode n).port n).beaconWait = (s.port n).beaconWait := by
  cases hp : (s.port n).opPending with
  | none =>
    unfold State.applyOpmode
    rw [hp]
  | some v =>
    obtain ⟨w, -, -, -, hwait, happ⟩ := State.applyOpmode_spec hp
    rw [happ, State.rxOnly, State.port_put, hwait]

/-! ## Entry to IDLE (R117) -/

/-- The engine enters IDLE in itself. -/
def State.goIdle (s : State) (n : Nat) : State := (s.setB n 2).put (BT_STAT_PHASE n) false

section

variable (s : State) (n m : Nat)

@[simp] theorem State.port_goIdle : (s.goIdle n).port m = s.port m := by
  unfold State.goIdle State.setB; rw [State.port_put, State.port_set]

theorem State.bstate_goIdle : (s.goIdle n).bstate n = 2 := by
  unfold State.goIdle State.setB State.bstate
  rw [State.get_put_apart _ _ _ _ (Loc.apart_of_bits rfl), State.get_set_self _ _ _ (of_decide_eq_true rfl)]
  rfl

/-- It touches BT.STAT alone. -/
theorem State.word_goIdle {a : Nat} (h : a ≠ (BT_STAT_BSTATE n).addr) : (s.goIdle n).word a = s.word a := by
  unfold State.goIdle State.setB
  rw [State.put, State.word_set_narrow _ (BT_STAT_PHASE n) _ _ (of_decide_eq_true rfl) h,
    State.word_set_narrow _ _ _ _ (of_decide_eq_true rfl) h]

theorem State.get_goIdle {l : Loc} (hl : l.lo + l.len ≤ 32) (h : l.addr ≠ (BT_STAT_BSTATE n).addr) :
    (s.goIdle n).get l = s.get l :=
  State.get_congr (s.word_goIdle n h) (fun h => absurd hl (by omega))

theorem State.quarPending_goIdle : (s.goIdle n).flag (ECF_STAT_QPEND n) = s.flag (ECF_STAT_QPEND n) :=
  congrArg (decide <| · = 1)
    (s.get_goIdle n (l := ECF_STAT_QPEND n) (of_decide_eq_true rfl) (by simp only [ECF_STAT_QPEND, BT_STAT_BSTATE]; omega))

end

/-- Without a written OPMODE and without a pending quarantine nothing else happens. -/
theorem State.enterIdle_quiet {s : State} {n : Nat} (hp : (s.port n).opPending = none)
    (hq : s.flag (ECF_STAT_QPEND n) = false) : s.enterIdle n = s.goIdle n := by
  have happ : (s.goIdle n).applyOpmode n = s.goIdle n := by
    unfold State.applyOpmode
    rw [State.port_goIdle, hp]
  unfold State.enterIdle
  dsimp only
  rw [show (s.setB n 2).put (BT_STAT_PHASE n) false = s.goIdle n from rfl, happ, State.quarPending_goIdle, hq]
  rfl

/-- Whatever else happens on the way, the waiting beacon stays. -/
theorem State.beaconWait_enterIdle (s : State) (n : Nat) : ((s.enterIdle n).port n).beaconWait = (s.port n).beaconWait := by
  have happ : (((s.goIdle n).applyOpmode n).port n).beaconWait = (s.port n).beaconWait := by
    rw [State.beaconWait_applyOpmode, State.port_goIdle]
  unfold State.enterIdle
  dsimp only
  split
  · exact (congrArg (·.2.2) (State.modes_enterBusOff _ n n true)).trans happ
  · exact happ

/-- With a written OPMODE and without a pending quarantine (R119). -/
theorem State.enterIdle_applies {s : State} {n v : Nat} (hp : (s.port n).opPending = some v)
    (hq : s.flag (ECF_STAT_QPEND n) = false) : (s.enterIdle n).bstate n = 2 ∧ ((s.enterIdle n).port n).opMode = v ∧
      ((s.enterIdle n).port n).opPending = none := by
  obtain ⟨w, hw, hmode, hpend, -, happ⟩ := State.applyOpmode_spec (s := s.goIdle n) (by rw [State.port_goIdle, hp])
  have hrx : (w.rxOnly n).flag (ECF_STAT_QPEND n) = false := by
    rw [State.rxOnly, State.flag_put_apart _ _ _ _ (Loc.apart_of_addr (of_decide_eq_true rfl) (of_decide_eq_true rfl)
      (by simp only [BT_STAT_RXONLY, ECF_STAT_QPEND]; omega)), hw.quarPending, State.quarPending_goIdle, hq]
  have hidle : s.enterIdle n = w.rxOnly n := by
    unfold State.enterIdle
    dsimp only
    rw [show (s.setB n 2).put (BT_STAT_PHASE n) false = s.goIdle n from rfl, happ, hrx]
    rfl
  rw [hidle, State.rxOnly, State.port_put]
  refine ⟨?_, hmode, hpend⟩
  unfold State.bstate
  rw [State.get_put_apart _ _ _ _ (Loc.apart_of_bits rfl)]
  exact (hw.bstate n).trans (s.bstate_goIdle n)

end Sys2Proof.Machine

end

section

set_option Elab.async false

namespace Sys2Proof.Machine

/-! ## Metering (R91) -/

/-- The meter, and the load check of a frame that reached its end. -/
def State.metered (s : State) (n : Nat) (u : TxEnd) (load pj : Nat) : State :=
  if u = .success then (s.meter n (pj * 16)).loadCheck n load else s.meter n (pj * 16)

section

variable (s : State) (n m : Nat) (u : TxEnd) (load pj : Nat)

theorem State.metered_only : OnlyM meterMask s (s.metered n u load pj) := by
  unfold State.metered
  split
  · exact State.loadCheck_only (State.meter_only .refl rfl) rfl
  · exact State.meter_only .refl rfl

/-- What metering changes is traffic. -/
theorem State.metered_traffic : OnlyM trafficMask s (s.metered n u load pj) := (s.metered_only n u load pj).mono rfl

theorem State.attempt_meter (e : Nat) : ((s.meter n e).port m).attempt = (s.port m).attempt := by
  unfold State.meter
  dsimp only
  rw [OnlyM.port (State.govStat_only .refl (Sub.refl _)) (by decide), State.add, State.port_set, State.port_modPort]
  split
  next h => rw [h]; rfl
  next => rfl

theorem State.modes_meter (e : Nat) : (s.meter n e).modes m = s.modes m := by
  unfold State.meter
  dsimp only
  rw [OnlyM.modes (State.govStat_only .refl (Sub.refl _)), State.add, State.modes_set, State.modes_modPort,
    OnlyM.modes (State.setGov_only .refl (Sub.refl _))]

theorem State.attempt_metered {u : TxEnd} (hu : u ≠ .success) :
    ((s.metered n u load pj).port m).attempt = (s.port m).attempt := by
  rw [State.metered, if_neg hu, State.attempt_meter]

theorem State.modes_wireCheck (b : Nat) (fail : Bool) : (s.wireCheck n b fail).modes m = s.modes m := by
  have hcount : (s.countCheck n b fail).modes m = s.modes m := State.modes_modPort ..
  rw [State.wireCheck_eq, ← hcount]
  unfold State.modes
  split
  · rw [State.confirmWire_port]
  · split
    · rw [State.clearWire_port]
    · rfl

theorem State.modes_metered : (s.metered n u load pj).modes m = s.modes m := by
  unfold State.metered
  split
  · unfold State.loadCheck
    dsimp only
    rw [State.modes_wireCheck, State.modes_wireCheck, State.modes_set, State.modes_meter]
  · exact State.modes_meter ..

end

section

variable {s t w : State} {n : PortNo} {a : Attempt} {d : List Nat} {u : TxEnd} {load pj v : Nat}

/-- An attempt that has started, just now or before, goes on once its energy is metered. -/
theorem execTransmitAttempt_eq (hb : s.bstate n ≠ 5) (hw : (if (s.port n).attempt.isNone then s.startAttempt n else s) = w)
    (ha : (w.port n).attempt = some a) (he : w.isEth n = false) :
    execTransmitAttempt n u d load pj s = .next ((w.metered n u load pj).advanceAttempt n a u d) := by
  have hm : (w.metered n u load pj).isEth n = false := by rw [(w.metered_traffic ..).isEth, he]
  unfold State.metered at hm
  unfold execTransmitAttempt State.settle
  dsimp only
  rw [if_neg hb, hw, ha]
  dsimp only
  rw [hm, if_neg Bool.false_ne_true, hm, Bool.or_false]
  rfl

/-- The same for an attempt in progress. -/
theorem execTransmitAttempt_sending (hb : s.bstate n = 4) (ha : (s.port n).attempt = some a) (he : s.isEth n = false) :
    execTransmitAttempt n u d load pj s = .next ((s.metered n u load pj).advanceAttempt n a u d) :=
  execTransmitAttempt_eq (by rw [hb]; decide) (by simp [ha]) ha he

end

/-! ## The stages of an attempt (R106, R107, R117, R163, R169) -/

section

variable {s t : State} {n k v : Nat} {a : Attempt} {d : List Nat}

theorem State.advanceAttempt_started : s.advanceAttempt n a .started d = s := by
  simp [State.advanceAttempt, tdcBefore]

theorem State.advanceAttempt_won : s.advanceAttempt n a .won d = s.wonAttempt n a := by
  simp [State.advanceAttempt, tdcBefore]

theorem State.advanceAttempt_lost (hw : a.won = false) (he : s.isEth n = false) :
    s.advanceAttempt n a .lost d = s.attemptLost n := by
  simp [State.advanceAttempt, tdcBefore, hw, he]

theorem State.advanceAttempt_success (hs : switched (s.attemptFrame n a) = false) :
    s.advanceAttempt n a .success d = (s.wonAttempt n a).attemptOk n { a with won := true } := by
  simp [State.advanceAttempt, tdcBefore, hs]

theorem State.advanceAttempt_switched (hs : switched (s.attemptFrame n a) = true) (hp : s.flag (BT_STAT_PHASE n) = false)
    (ht : s.tdc n d = (true, t)) :
    s.advanceAttempt n a .switched d = (t.wonAttempt n a).put (BT_STAT_PHASE n) true := by
  simp [State.advanceAttempt, tdcBefore, hs, hp, ht]

/-- Whether the frame of an attempt has a switched data phase follows from BCN_CFG, BT.CFG and the slot's descriptor. -/
theorem OnlyM.switched (h : OnlyM meterMask s t) (n : Nat) (a : Attempt) :
    switched (t.attemptFrame n a) = switched (s.attemptFrame n a) := by
  have hr : OnlyM trafficMask s t := h.mono rfl
  have hen : t.flag (BT_CFG_BRS_EN n) = s.flag (BT_CFG_BRS_EN n) := hr.engineFlag rfl
  have hbfmt : t.get (BT_BCN_CFG_FRAME n) = s.get (BT_BCN_CFG_FRAME n) := hr.engineField rfl
  have hbbrs : t.flag (BT_BCN_CFG_BRS n) = s.flag (BT_BCN_CFG_BRS n) := hr.engineFlag rfl
  have hfmt : t.get (MOP_DESC_FMT a.slot) = s.get (MOP_DESC_FMT a.slot) := h.slotField (w := 8) rfl
  have hbrs : t.flag (MOP_DESC_BRS a.slot) = s.flag (MOP_DESC_BRS a.slot) := h.slotFlag (w := 4) rfl
  unfold State.attemptFrame Machine.switched State.txFrame
  cases a.beacon <;> simp [State.beaconFrame, State.slotFrame, hen, hbfmt, hbbrs, hfmt, hbrs]

/-- An attempt passes the end of its arbitration field (R163). -/
theorem State.wonAttempt_spec (s : State) (n : Nat) (hw : a.won = false) (hb : a.beacon = false) :
    ((s.wonAttempt n a).port n).attempt = some { a with won := true } ∧
      (s.wonAttempt n a).get (MOP_DESC_STATE a.slot) = slotOnWire := by
  unfold State.wonAttempt
  simp only [hw, hb, Bool.false_eq_true, if_false]
  exact ⟨by rw [State.port_setSlotState, State.port_modPort_self], State.setSlotState_desc _ _ (by decide)⟩

theorem State.modes_wonAttempt (s : State) (n m : Nat) (a : Attempt) : (s.wonAttempt n a).modes m = s.modes m := by
  unfold State.wonAttempt
  split
  · rfl
  · dsimp only
    split
    · exact State.modes_modPort ..
    · rw [OnlyM.modes (State.setSlotState_only .refl (Sub.refl _)), State.modes_modPort]

/-- The attempt of a request whose slot no CANCEL and no deadline ends goes back to ARBITRATING (R169). -/
theorem State.attemptFailed_eq (ha : (s.port n).attempt = some a) (hb : a.beacon = false)
    (hstop : (s.slotHid a.slot).stop = none) (hdl : s.flag (MOP_DESC_DL_EN a.slot) = false) :
    s.attemptFailed n = (s.modPort n fun p => { p with attempt := none }).setSlotState a.slot slotArb := by
  unfold State.attemptFailed
  rw [ha]
  dsimp only
  rw [hb, State.slotHid_setSlotState, State.dlEn_setSlotState, State.flag_modPort, hdl]
  simp [State.slotHid_of_store (show (s.modPort n _).store = s.store from rfl), hstop]

end

end Sys2Proof.Machine

end

section

set_option Elab.async false

namespace Sys2Proof.Machine

/-! ## Starts of attempts (R123, R175) -/

section

variable {s t : State} {n k q v : Nat} {a : Attempt} {d : List Nat}

/-- The attempt is the port's, and the engine is TRANSMITTING. -/
def State.transmit (s : State) (n : Nat) (a : Attempt) : State :=
  ((s.discardRecord n).modPort n fun p => { p with attempt := some a }).setB n 4

theorem State.transmit_attempt (s : State) (n : Nat) (a : Attempt) :
    ((s.transmit n a).port n).attempt = some a ∧ (s.transmit n a).bstate n = 4 := by
  unfold State.transmit State.setB State.bstate
  rw [State.port_set, State.port_modPort_self, State.get_set_self _ _ _ (of_decide_eq_true rfl)]
  exact ⟨rfl, rfl⟩

/-- A record that is discarded changes no register. -/
theorem State.get_discardRecord (s : State) (n : Nat) (l : Loc) : (s.discardRecord n).get l = s.get l := by
  have h : OnlyM (maskOf [.obs]) s (s.discardRecord n) := State.discardRecord_only .refl (Sub.of_within (by decide))
  have hw (a : Nat) : (s.discardRecord n).word a = s.word a :=
    h.words a fun p hp => by
      obtain rfl : p = .obs := List.mem_singleton.mp (mem_of_testBit_maskOf hp)
      exact fun ho => ho
  exact State.get_congr (hw _) fun _ => hw _

theorem State.get_transmit (s : State) {n : Nat} (a : Attempt) {l : Loc} (h : (BT_STAT_BSTATE n).apart l) :
    (s.transmit n a).get l = s.get l := by
  unfold State.transmit State.setB
  rw [State.get_set_apart _ _ _ _ h, State.get_modPort, State.get_discardRecord]

theorem State.isEth_transmit (s : State) (n : Nat) (a : Attempt) : (s.transmit n a).isEth n = s.isEth n :=
  congrArg (decide <| · = 6) (s.get_transmit a (l := LP_CFG_MODE n) (Loc.apart_of_addr (of_decide_eq_true rfl)
    (of_decide_eq_true rfl) (by simp only [BT_STAT_BSTATE, LP_CFG_MODE]; omega)))

/-- A waiting beacon goes first (R123). -/
theorem State.startAttempt_beacon (hb : s.bstate n = 2) (hc : s.canSend n = true) (ha : (s.port n).attempt = none)
    (hq : (s.port n).beaconWait = some q) :
    s.startAttempt n = s.transmit n { beacon := true, slot := q, sof := s.sofTime n } := by
  simp [State.startAttempt, hb, hc, ha, hq, State.transmit]

/-- Else the admitted request at the port's head (R175), whose attempt is counted. -/
theorem State.startAttempt_request (hb : s.bstate n = 2) (hc : s.canSend n = true) (ha : (s.port n).attempt = none)
    (hq : (s.port n).beaconWait = none) (hk : s.headSlot n = some k) (harb : s.get (MOP_DESC_STATE k) = slotArb)
    (hdl : s.flag (MOP_DESC_DL_EN k) = false)
    (hbad : (wordsOf (s.bufOf k) (s.slotFrame k).data.length).filter s.isPoison = []) :
    s.startAttempt n = (s.transmit n { beacon := false, slot := k, sof := s.sofTime n }).set (MOP_DESC_ATT k)
      (min 255 ((s.transmit n { beacon := false, slot := k, sof := s.sofTime n }).get (MOP_DESC_ATT k) + 1)) := by
  simp [State.startAttempt, State.startSlot, hb, hc, ha, hq, hk, harb, hdl, hbad, State.transmit]

end

/-! ## Ends of attempts (R123, R169) -/

section

variable {s : State} {n k v : Nat} {a : Attempt} {d : List Nat}

/-- The beacon that waits has been sent (R123). -/
def State.beaconSent (s : State) (n q : Nat) : State :=
  if (s.port n).beaconWait = some q then
    ((s.modPort n fun p => { p with beaconWait := none }).inc (BT_BCN_STAT_SENT n)).set (BT_BCN_STAT_SEQ n) q
  else s

/-- The frame is on the bus, and the attempt is over. -/
def State.frameSent (s : State) (n : Nat) (f : Frame) : State :=
  ((s.emit (.busFrame n f none)).inc (BT_TXCNT_COUNT n)).modPort n fun p => { p with attempt := none, collisions := 0 }

theorem State.attemptOk_beacon (he : s.isEth n = false) (hb : a.beacon = true) (t : State)
    (ht : ((s.frameSent n (s.attemptFrame n a)).beaconSent n a.slot) = t) :
    s.attemptOk n a = (if t.isCan n then t.tecDown n else t).enterIdle n := by
  subst ht
  unfold State.attemptOk
  simp only [he, hb, Bool.false_eq_true, if_false, if_true]
  rfl

/-- The counters of TXCNT and BCN_STAT, and the beacon that waits, after the success of a beacon's attempt. -/
theorem State.attemptOk_beacon_spec (he : s.isEth n = false) (hb : a.beacon = true) :
    (s.attemptOk n a).get (BT_TXCNT_COUNT n) = min (s.get (BT_TXCNT_COUNT n) + 1) (2 ^ 32 - 1) ∧
      ((s.port n).beaconWait = some a.slot → ((s.attemptOk n a).port n).beaconWait = none ∧
        (s.attemptOk n a).get (BT_BCN_STAT_SENT n) =
          min (s.get (BT_BCN_STAT_SENT n) + 1) (2 ^ (BT_BCN_STAT_SENT n).len - 1)) := by
  let f := s.frameSent n (s.attemptFrame n a)
  let t := f.beaconSent n a.slot
  have hend : s.attemptOk n a = (if t.isCan n then t.tecDown n else t).enterIdle n := State.attemptOk_beacon he hb t rfl
  have hcount : f.get (BT_TXCNT_COUNT n) = min (s.get (BT_TXCNT_COUNT n) + 1) (2 ^ 32 - 1) := by
    show ((s.emit _).inc (BT_TXCNT_COUNT n)).get (BT_TXCNT_COUNT n) = _
    rw [State.get_inc_self _ _ (of_decide_eq_true rfl)]
    rfl
  have hbcn {l : Loc} (hl : l.addr = 0x01000134 + 0x1000 * (n % 128)) (hw : l.lo + l.len ≤ 32) :
      (BT_TXCNT_COUNT n).apart l :=
    Loc.apart_of_addr (of_decide_eq_true rfl) hw (by simp only [hl, BT_TXCNT_COUNT]; omega)
  have hidle : OnlyM idleMask t (s.attemptOk n a) := by
    rw [hend]
    refine State.enterIdle_only ?_ rfl
    split
    · exact State.tecDown_only .refl rfl
    · exact .refl
  refine ⟨?_, fun hq => ?_⟩
  · rw [hidle.countField rfl, ← hcount]
    unfold t State.beaconSent
    split
    · rw [State.get_set_apart _ _ _ _ (hbcn rfl (of_decide_eq_true rfl)).symm,
        State.get_inc_apart _ _ _ (hbcn rfl (of_decide_eq_true rfl)).symm, State.get_modPort]
    · rfl
  · have hf : (f.port n).beaconWait = some a.slot := by
      show (((s.emit _).inc (BT_TXCNT_COUNT n)).modPort n _ |>.port n).beaconWait = _
      rw [State.port_modPort_self, State.port_inc]
      exact hq
    have ht : t = ((f.modPort n fun p => { p with beaconWait := none }).inc (BT_BCN_STAT_SENT n)).set (BT_BCN_STAT_SEQ n)
        a.slot := if_pos hf
    constructor
    · rw [hend, State.beaconWait_enterIdle]
      have htec : ((if t.isCan n then t.tecDown n else t).port n).beaconWait = (t.port n).beaconWait := by
        split
        · exact congrArg (·.2.2) (State.modes_tecDown t n n)
        · rfl
      rw [htec, ht, State.port_set, State.port_inc, State.port_modPort_self]
    · rw [hidle.countField rfl, ht, State.get_set_apart _ _ _ _ (Loc.apart_of_bits rfl),
        State.get_inc_self _ _ (of_decide_eq_true rfl), State.get_modPort]
      show min (((s.emit _).inc (BT_TXCNT_COUNT n)).get (BT_BCN_STAT_SENT n) + 1) _ = _
      rw [State.get_inc_apart _ _ _ (hbcn rfl (of_decide_eq_true rfl))]
      rfl

/-- A request's attempt that loses arbitration returns its slot to ARBITRATING, and the engine receives (R117, R169). -/
theorem State.attemptLost_spec (hb : s.bstate n = 4) (ha : (s.port n).attempt = some a) (hbcn : a.beacon = false)
    (hstop : (s.slotHid a.slot).stop = none) (hdl : s.flag (MOP_DESC_DL_EN a.slot) = false) :
    ((s.attemptLost n).port n).attempt = none ∧ (s.attemptLost n).get (MOP_DESC_STATE a.slot) = slotArb ∧
      (s.attemptLost n).bstate n = 3 := by
  have hf := State.attemptFailed_eq ha hbcn hstop hdl
  have hx : OnlyM trafficMask s (s.attemptFailed n) := State.attemptFailed_only .refl rfl
  have hlost : s.attemptLost n = (s.attemptFailed n).set (BT_STAT_BSTATE n) 3 := by
    unfold State.attemptLost State.setB
    dsimp only
    rw [if_pos ((hx.bstate n).trans hb)]
  rw [hlost]
  refine ⟨?_, ?_, State.get_set_self _ _ _ (of_decide_eq_true rfl)⟩
  · rw [State.port_set, hf, State.port_setSlotState, State.port_modPort_self]
  · rw [State.get_set_apart _ _ _ _ (Loc.apart_of_addr (of_decide_eq_true rfl) (of_decide_eq_true rfl)
      (by simp only [BT_STAT_BSTATE, MOP_DESC_STATE]; omega)), hf, State.setSlotState_desc _ _ (by decide)]

end

/-! ## The delay of the data phase (R107) -/

section

variable {s : State} {n v : Nat} {a : Attempt} {d : List Nat}

/-- The delay is measured. -/
def State.measured (s : State) (n v : Nat) : State := (s.set (LP_MEAS_LOOP n) v).set (BT_TDC_TDCV n) v

/-- The first edge that TDCF does not leave out gives the delay, when VMAX allows it. -/
theorem State.tdc_measured (hv : d.find? (fun v => decide (s.get (BT_TDC_TDCF n) ≤ v)) = some v)
    (hmax : v ≤ s.get (BT_TDC_VMAX n)) : s.tdc n d = (true, s.measured n v) := by
  have hlt : s.get (BT_TDC_VMAX n) < 2 ^ 8 := s.get_lt (BT_TDC_VMAX n)
  have hdelay : s.delayOf n d = some v := by
    unfold State.delayOf
    rw [hv]
    simp only [Option.filter]
    rw [if_pos (decide_eq_true (by omega))]
  have hloop : (s.set (LP_MEAS_LOOP n) v).get (BT_TDC_VMAX n) = s.get (BT_TDC_VMAX n) :=
    State.get_set_apart _ _ _ _ (Loc.apart_of_addr (of_decide_eq_true rfl) (of_decide_eq_true rfl)
      (by simp only [LP_MEAS_LOOP, BT_TDC_VMAX]; omega))
  unfold State.tdc
  rw [hdelay]
  dsimp only
  rw [hloop, if_neg (by omega)]
  rfl

theorem State.measured_spec (s : State) (n : Nat) (hv : v < 256) :
    (s.measured n v).get (BT_TDC_TDCV n) = v ∧ (s.measured n v).get (LP_MEAS_LOOP n) = v ∧
      (s.measured n v).bstate n = s.bstate n := by
  have hmeas {l : Loc} (hl : l.addr ≠ 0x0100011C + 0x1000 * (n % 128)) (hw : l.lo + l.len ≤ 32) : (BT_TDC_TDCV n).apart l :=
    Loc.apart_of_addr (of_decide_eq_true rfl) hw hl.symm
  have hbits : v % 2 ^ 8 = v := Nat.mod_eq_of_lt hv
  unfold State.measured State.bstate
  refine ⟨?_, ?_, ?_⟩
  · rw [State.get_set_self _ _ _ (of_decide_eq_true rfl)]
    exact hbits
  · rw [State.get_set_apart _ _ _ _ (hmeas (by simp only [LP_MEAS_LOOP]; omega) (of_decide_eq_true rfl)),
      State.get_set_self _ _ _ (of_decide_eq_true rfl)]
    exact hbits
  · rw [State.get_set_apart _ _ _ _ (hmeas (by simp only [BT_STAT_BSTATE]; omega) (of_decide_eq_true rfl)),
      State.get_set_apart _ _ _ _ (Loc.apart_of_addr (of_decide_eq_true rfl) (of_decide_eq_true rfl)
        (by simp only [LP_MEAS_LOOP, BT_STAT_BSTATE]; omega))]

end

end Sys2Proof.Machine

end

section

set_option Elab.async false

namespace Sys2Proof.Machine

section

variable {s : State} {n k : Nat} {a : Attempt}

theorem bstate_apart {l : Loc} (hl : l.lo + l.len ≤ 32) (h : l.addr ≠ 0x01000104 + 0x1000 * (n % 128)) :
    (BT_STAT_BSTATE n).apart l :=
  Loc.apart_of_addr (of_decide_eq_true rfl) hl h.symm

theorem phase_apart {l : Loc} (hl : l.lo + l.len ≤ 32) (h : l.addr ≠ 0x01000104 + 0x1000 * (n % 128)) :
    (BT_STAT_PHASE n).apart l :=
  Loc.apart_of_addr (of_decide_eq_true rfl) hl h.symm

theorem att_bstate_apart : (MOP_DESC_ATT k).apart (BT_STAT_BSTATE n) :=
  (bstate_apart (of_decide_eq_true rfl) (by simp only [MOP_DESC_ATT]; omega)).symm

/-- An attempt that has just started and is metered. -/
theorem State.started_spec (load pj : Nat) (ha : (s.port n).attempt = some a) (hb : s.bstate n = 4) :
    ((s.metered n .started load pj).port n).attempt = some a ∧ (s.metered n .started load pj).bstate n = 4 := by
  rw [State.attempt_metered _ _ _ _ _ (by decide), (s.metered_traffic n .started load pj).bstate]
  exact ⟨ha, hb⟩

end

end Sys2Proof.Machine

open Sys2Proof Sys2Proof.Machine

/-- Settles O26: each clause is one stage of an attempt after its energy is metered (`execTransmitAttempt_eq`). -/
theorem transmitAttempts : Obligations.TransmitAttempts := by
  refine ⟨fun s n d load pj hb hc ha he => ⟨?beacon, ?request⟩, fun s n a d load pj hb ha hw he hbcn => ⟨?won, ?lost⟩,
    ?success, ?switched⟩
  case beacon =>
    intro q hq
    obtain ⟨hatt, hstate⟩ := s.transmit_attempt n { beacon := true, slot := q, sof := s.sofTime n }
    refine ⟨_, execTransmitAttempt_eq (by rw [hb]; decide) (by rw [ha]; exact State.startAttempt_beacon hb hc ha hq) hatt
      ((s.isEth_transmit _ _).trans he), ?_⟩
    rw [State.advanceAttempt_started]
    exact State.started_spec load pj hatt hstate
  case request =>
    intro k hq hk harb hdl hbad
    let a : Attempt := { beacon := false, slot := k, sof := s.sofTime n }
    let w := (s.transmit n a).set (MOP_DESC_ATT k) (min 255 ((s.transmit n a).get (MOP_DESC_ATT k) + 1))
    obtain ⟨hatt, hstate⟩ := s.transmit_attempt n a
    have hw : (w.port n).attempt = some a := by rw [State.port_set, hatt]
    have hwb : w.bstate n = 4 := (State.get_set_apart _ _ _ _ att_bstate_apart).trans hstate
    have hwe : w.isEth n = false := by
      have hmode : w.get (LP_CFG_MODE n) = (s.transmit n a).get (LP_CFG_MODE n) :=
        State.get_set_apart _ _ _ _ (Loc.apart_of_addr (of_decide_eq_true rfl) (of_decide_eq_true rfl)
          (by simp only [MOP_DESC_ATT, LP_CFG_MODE]; omega))
      exact (congrArg (decide <| · = 6) hmode).trans ((s.isEth_transmit _ _).trans he)
    have hcount : w.get (MOP_DESC_ATT k) = min 255 (s.get (MOP_DESC_ATT k) + 1) := by
      rw [State.get_set_self _ _ _ (of_decide_eq_true rfl), s.get_transmit a att_bstate_apart.symm]
      exact Nat.mod_eq_of_lt (by show _ < 2 ^ 8; omega)
    refine ⟨_, execTransmitAttempt_eq (by rw [hb]; decide)
      (by rw [ha]; exact State.startAttempt_request hb hc ha hq hk harb hdl hbad) hw hwe, ?_⟩
    rw [State.advanceAttempt_started]
    obtain ⟨h1, h2⟩ := State.started_spec load pj hw hwb
    exact ⟨h1, h2, ((w.metered_only n .started load pj).slotField (w := 0x14) rfl).trans hcount⟩
  case won =>
    refine ⟨_, execTransmitAttempt_sending hb ha he, ?_⟩
    rw [State.advanceAttempt_won]
    obtain ⟨hatt, hslot⟩ := (s.metered n .won load pj).wonAttempt_spec n hw hbcn
    have hx : OnlyM trafficMask s _ := State.wonAttempt_only (n := n) (a := a) (s.metered_traffic n .won load pj) rfl
    exact ⟨hatt, hslot, (hx.bstate n).trans hb⟩
  case lost =>
    intro hstop hdl
    let m := s.metered n .lost load pj
    have hm : OnlyM meterMask s m := s.metered_only ..
    have hmt : OnlyM trafficMask s m := s.metered_traffic ..
    refine ⟨_, execTransmitAttempt_sending hb ha he, ?_⟩
    rw [State.advanceAttempt_lost hw ((hmt.isEth n).trans he)]
    refine State.attemptLost_spec ((hmt.bstate n).trans hb) ?_ hbcn ?_ ?_
    · rw [State.attempt_metered _ _ _ _ _ (by decide), ha]
    · rw [State.slotHid_of_store (hm.store.resolve_left (by decide)), hstop]
    · exact (hm.slotFlag (w := 0) rfl).trans hdl
  case success =>
    intro s n a d load pj hb ha hs he hbcn
    let m := s.metered n .success load pj
    have hm : OnlyM meterMask s m := s.metered_only ..
    have hx : OnlyM trafficMask s (m.wonAttempt n a) := State.wonAttempt_only (s.metered_traffic ..) rfl
    have hwait : ((m.wonAttempt n a).port n).beaconWait = (s.port n).beaconWait :=
      congrArg (·.2.2) ((m.modes_wonAttempt n n a).trans (s.modes_metered ..))
    refine ⟨_, execTransmitAttempt_sending hb ha he, ?_⟩
    rw [State.advanceAttempt_success ((hm.switched n a).trans hs)]
    obtain ⟨hcount, hsent⟩ := State.attemptOk_beacon_spec (a := { a with won := true }) ((hx.isEth n).trans he) hbcn
    rw [hx.engineField rfl] at hcount
    rw [hx.engineField rfl, hwait] at hsent
    exact ⟨hcount, hsent⟩
  case switched =>
    intro s n a d load pj v hb ha hs he hp hv hmax
    let m := s.metered n .switched load pj
    have hm : OnlyM meterMask s m := s.metered_only ..
    have hmt : OnlyM trafficMask s m := s.metered_traffic ..
    have htdcf : m.get (BT_TDC_TDCF n) = s.get (BT_TDC_TDCF n) := hmt.engineField rfl
    have hvmax : m.get (BT_TDC_VMAX n) = s.get (BT_TDC_VMAX n) := hmt.engineField rfl
    have hv8 : v < 256 := Nat.lt_of_le_of_lt hmax (s.get_lt (BT_TDC_VMAX n))
    have ht := State.tdc_measured (s := m) (by rw [htdcf]; exact hv) (hvmax ▸ hmax)
    obtain ⟨hdelay, hloop, hstate⟩ := m.measured_spec n hv8
    have hx : OnlyM trafficMask (m.measured n v) ((m.measured n v).wonAttempt n a) := State.wonAttempt_only .refl rfl
    refine ⟨_, execTransmitAttempt_sending hb ha he, ?_⟩
    rw [State.advanceAttempt_switched ((hm.switched n a).trans hs) ((hmt.engineFlag rfl).trans hp) ht]
    have hk : OnlyM aroundMask (m.measured n v) ((m.measured n v).wonAttempt n a) := State.wonAttempt_only .refl rfl
    refine ⟨?_, ?_, State.flag_put_self _ _ _ (of_decide_eq_true rfl) rfl, ?_⟩
    · rw [State.get_put_apart _ _ _ _ (phase_apart (of_decide_eq_true rfl) (by simp only [BT_TDC_TDCV]; omega)), hk.kept rfl,
        hdelay]
    · rw [State.get_put_apart _ _ _ _ (phase_apart (of_decide_eq_true rfl) (by simp only [LP_MEAS_LOOP]; omega)), hk.kept rfl,
        hloop]
    · exact (State.get_put_apart _ _ _ _ (Loc.apart_of_bits rfl)).trans ((hx.bstate n).trans (hstate.trans
        ((hmt.bstate n).trans hb)))

end

section

set_option Elab.async false

namespace Sys2Proof.Machine

/-! ## Causes, collisions and OPMODE of an engine (R114, R115, R119) -/

section

variable {s : State} {n v : Nat} {a : Attempt}

/-- A cause changes the ledger alone. -/
theorem State.btCause_traffic (s : State) (n c b : Nat) : OnlyM trafficMask s (s.btCause n c b) := State.btCause_only .refl rfl

theorem State.port_btCause (s : State) (n c b m : Nat) : (s.btCause n c b).port m = s.port m :=
  (State.btCause_only .refl (Sub.refl _)).port (by decide) m

theorem State.goIdle_writes (s : State) (n : Nat) : Writes [(BT_STAT_BSTATE n).addr] [] s (s.goIdle n) :=
  OnlyM.writes (l := [.BT_STAT])
    (State.put_only (BT_STAT_PHASE_holds n) (State.setB_only .refl (Sub.of_within (by decide))) (by decide))
    (fun _ ha => s.word_goIdle n fun h => ha (List.mem_singleton.mpr h)) (by simp [Part.same])

/-- A beacon that is still unsent is dropped and counted (R124). -/
def State.dropBeacon (s : State) (n : Nat) : State :=
  match (s.port n).beaconWait with
  | some q => (s.inc (BT_BCN_STAT_MISSED n)).btCause n 0x04 q
  | none => s

theorem State.dropBeacon_spec (s : State) (n : Nat) : (s.dropBeacon n).port n = s.port n ∧
    (s.dropBeacon n).get (BT_BCN_STAT_MISSED n) =
      if (s.port n).beaconWait = none then s.get (BT_BCN_STAT_MISSED n)
      else min (s.get (BT_BCN_STAT_MISSED n) + 1) (2 ^ (BT_BCN_STAT_MISSED n).len - 1) := by
  cases hq : (s.port n).beaconWait with
  | none =>
    have h : s.dropBeacon n = s := by rw [State.dropBeacon, hq]
    rw [h]
    exact ⟨rfl, (if_pos rfl).symm⟩
  | some q =>
    have h : s.dropBeacon n = (s.inc (BT_BCN_STAT_MISSED n)).btCause n 0x04 q := by rw [State.dropBeacon, hq]
    rw [h, State.port_btCause, State.port_inc, (State.btCause_traffic ..).engineField rfl,
      State.get_inc_self _ _ (of_decide_eq_true rfl)]
    exact ⟨rfl, (if_neg (by simp)).symm⟩

theorem execBeaconDue_eq {n : PortNo} {t0 : Nat} (hnext : (s.port n).beaconNext = some t0) (hdue : t0 ≤ s.now)
    (hen : s.flag (BT_BCN_CFG_EN n) = true) :
    execBeaconDue n s = .next ((s.dropBeacon n).modPort n fun p => { p with
      beaconWait := some p.beaconSeq, beaconSeq := (p.beaconSeq + 1) % 256,
      beaconNext := (s.dropBeacon n).nextDue n (s.dropBeacon n).now }) := by
  unfold execBeaconDue State.dropBeacon
  rw [hnext]
  dsimp only
  refine congrArg Host.Outcome.next ((if_pos ?_).trans ?_)
  · simp [hen, hdue]
  · cases (s.port n).beaconWait <;> rfl

/-- PLCA status of a port changes to `ok` (R114). -/
def State.plcaStatus (s : State) (n : Nat) (ok : Bool) : State :=
  if ok then (s.put (BT_PLCA_STAT_OK n) ok).btCause n 0x06 0
  else ((s.put (BT_PLCA_STAT_OK n) ok).inc (BT_PLCA_STAT_LOST n)).btCause n 0x05 0

theorem State.plcaStatus_spec (s : State) (n : Nat) (ok : Bool) : (s.plcaStatus n ok).flag (BT_PLCA_STAT_OK n) = ok ∧
    (s.plcaStatus n ok).get (BT_PLCA_STAT_LOST n) =
      if ok then s.get (BT_PLCA_STAT_LOST n)
      else min (s.get (BT_PLCA_STAT_LOST n) + 1) (2 ^ (BT_PLCA_STAT_LOST n).len - 1) := by
  have hok := State.flag_put_self s (BT_PLCA_STAT_OK n) ok (of_decide_eq_true rfl) rfl
  have hlost := State.get_put_apart s (BT_PLCA_STAT_OK n) (BT_PLCA_STAT_LOST n) ok (Loc.apart_of_bits rfl)
  unfold State.plcaStatus
  split
  · rw [(State.btCause_traffic ..).engineFlag rfl, (State.btCause_traffic ..).engineField rfl]
    exact ⟨hok, hlost⟩
  · rw [(State.btCause_traffic ..).engineFlag rfl, (State.btCause_traffic ..).engineField rfl,
      State.flag_inc_apart _ _ _ (Loc.apart_of_bits rfl), State.get_inc_self _ _ (of_decide_eq_true rfl), hlost]
    exact ⟨hok, rfl⟩

/-- A collision is counted at the port and in ETH_COLL (R115). -/
def State.collide (s : State) (n : Nat) : State :=
  (s.inc (ECF_ETH_COLL_COLL n)).modPort n fun p => { p with collisions := p.collisions + 1 }

theorem State.collide_port (s : State) (n : Nat) :
    (s.collide n).port n = { s.port n with collisions := (s.port n).collisions + 1 } := by
  unfold State.collide; rw [State.port_modPort_self, State.port_inc]

theorem ethColl_apart {l : Loc} (hl : l.lo + l.len ≤ 32) (h : l.addr ≠ 0x01000244 + 0x1000 * (n % 128)) :
    (ECF_ETH_COLL_COLL n).apart l :=
  Loc.apart_of_addr (of_decide_eq_true rfl) hl h.symm

theorem State.flag_collide (s : State) {n : Nat} {l : Loc} (hl : l.lo + l.len ≤ 32)
    (h : l.addr ≠ 0x01000244 + 0x1000 * (n % 128)) : (s.collide n).flag l = s.flag l := by
  unfold State.collide; rw [State.flag_modPort, State.flag_inc_apart _ _ _ (ethColl_apart hl h)]

/-- The attempt that a collision ended goes back to ARBITRATING (R115). -/
def State.collided (s : State) (n : Nat) (a : Attempt) : State :=
  ((s.collide n).modPort n fun p => { p with attempt := none }).setSlotState a.slot slotArb

theorem execCollision_eq {n : PortNo} (ha : (s.port n).attempt = some a) (he : s.isEth n = true)
    (hp2p : s.flag (LP_CFG_P2P n) = true) (hcoll : (s.port n).collisions < 15) (hbcn : a.beacon = false)
    (hstop : (s.slotHid a.slot).stop = none) (hdl : s.flag (MOP_DESC_DL_EN a.slot) = false) :
    execCollision n s = .next ((s.collided n a).enterIdle n) := by
  have hport := s.collide_port n
  have hslot : ((s.collide n).slotHid a.slot).stop = none := by
    rw [State.slotHid_of_store (show (s.collide n).store = s.store from State.set_store ..), hstop]
  have hflag : (s.collide n).flag (MOP_DESC_DL_EN a.slot) = false := by
    rw [s.flag_collide (of_decide_eq_true rfl) (by simp only [MOP_DESC_DL_EN]; omega), hdl]
  have hfailed := State.attemptFailed_eq (s := s.collide n) (n := n) (by rw [hport]; exact ha) hbcn hslot hflag
  have hfew : ¬ 16 ≤ ((s.collide n).port n).collisions := by rw [hport]; show ¬ 16 ≤ _ + 1; omega
  unfold execCollision
  rw [ha, he, hp2p]
  show Host.Outcome.next (if 16 ≤ ((s.collide n).port n).collisions then _ else ((s.collide n).attemptFailed n).enterIdle n) = _
  rw [if_neg hfew, hfailed]
  rfl

theorem State.collided_spec (s : State) (n : Nat) (a : Attempt) :
    (s.collided n a).port n = { s.port n with collisions := (s.port n).collisions + 1, attempt := none } ∧
      (s.collided n a).get (MOP_DESC_STATE a.slot) = slotArb ∧
      (s.collided n a).get (ECF_ETH_COLL_COLL n) = min (s.get (ECF_ETH_COLL_COLL n) + 1) (2 ^ (ECF_ETH_COLL_COLL n).len - 1) ∧
      (s.collided n a).flag (ECF_STAT_QPEND n) = s.flag (ECF_STAT_QPEND n) := by
  have h : OnlyM trafficMask (s.collide n) (s.collided n a) :=
    State.setSlotState_only (State.modPort_only .refl rfl) rfl
  refine ⟨?_, State.setSlotState_desc _ _ (by decide), ?_, ?_⟩
  · unfold State.collided
    rw [State.port_setSlotState, State.port_modPort_self, State.collide_port]
  · rw [h.engineField rfl, State.collide, State.get_modPort, State.get_inc_self _ _ (of_decide_eq_true rfl)]
  · rw [h.quarPending, s.flag_collide (of_decide_eq_true rfl) (by simp only [ECF_STAT_QPEND]; omega)]

/-- A written OPMODE is readable, and waits (R119). -/
def State.opmodeWritten (s : State) (n v : Nat) : State :=
  (s.set (BT_CTRL_OPMODE n) v).modPort n fun p => { p with opPending := some v }

theorem State.opmodeWrite_eq (hv : v ≠ 3) : s.opmodeWrite n v =
    if s.bstate n = 0 ∨ s.bstate n = 1 then (s.opmodeWritten n v).applyOpmode n else s.opmodeWritten n v := by
  have hb : (s.opmodeWritten n v).bstate n = s.bstate n :=
    State.get_set_apart _ _ _ _ (Loc.apart_of_addr (of_decide_eq_true rfl) (of_decide_eq_true rfl)
      (by simp only [BT_CTRL_OPMODE, BT_STAT_BSTATE]; omega))
  unfold State.opmodeWrite
  rw [if_neg hv]
  show (if ((s.opmodeWritten n v).bstate n = 0 || (s.opmodeWritten n v).bstate n = 1) = true then _ else _) = _
  simp only [hb, Bool.or_eq_true, decide_eq_true_eq]
  rfl

theorem State.opmodeWritten_spec (s : State) (n : Nat) (hv : v < 4) : (s.opmodeWritten n v).get (BT_CTRL_OPMODE n) = v ∧
    (s.opmodeWritten n v).port n = { s.port n with opPending := some v } := by
  unfold State.opmodeWritten
  rw [State.get_modPort, State.get_set_self _ _ _ (of_decide_eq_true rfl), State.port_modPort_self, State.port_set]
  exact ⟨Nat.mod_eq_of_lt hv, rfl⟩

theorem State.opmodeWrite_spec (s : State) (n : Nat) (hv : v < 3) : (s.opmodeWrite n v).get (BT_CTRL_OPMODE n) = v ∧
    (s.bstate n = 0 ∨ s.bstate n = 1 →
      ((s.opmodeWrite n v).port n).opMode = v ∧ ((s.opmodeWrite n v).port n).opPending = none) ∧
    (2 ≤ s.bstate n →
      ((s.opmodeWrite n v).port n).opMode = (s.port n).opMode ∧ ((s.opmodeWrite n v).port n).opPending = some v) := by
  obtain ⟨hreg, hport⟩ := s.opmodeWritten_spec n (show v < 4 by omega)
  rw [State.opmodeWrite_eq (by omega)]
  split
  next hb =>
    obtain ⟨w, hw, hmode, hpend, -, happ⟩ := State.applyOpmode_spec (s := s.opmodeWritten n v) (n := n) (v := v) (by rw [hport])
    rw [happ, State.rxOnly, State.port_put, State.get_put_apart _ _ _ _ (Loc.apart_of_addr (of_decide_eq_true rfl)
      (of_decide_eq_true rfl) (by simp only [BT_STAT_RXONLY, BT_CTRL_OPMODE]; omega)), hw.engineField rfl]
    exact ⟨hreg, fun _ => ⟨hmode, hpend⟩, fun h => absurd hb (by omega)⟩
  next hb => exact ⟨hreg, fun h => absurd h hb, fun _ => by rw [hport]; exact ⟨rfl, rfl⟩⟩

end

end Sys2Proof.Machine

open Sys2Proof Sys2Proof.Machine

/-- Settles O27: an engine that enters IDLE without a written OPMODE or a pending quarantine changes BT.STAT alone
(`State.enterIdle_quiet`); causes change the ledger alone. -/
theorem engineEvents : Obligations.EngineEvents := by
  intro s n
  refine ⟨?exception, ?integrated, ?beacon, ?plca, ?foreign, ?collision, ?write, ?apply⟩
  case exception =>
    intro hb hp hq
    have hrun : execExceptionEnd n s = .next (s.goIdle n) := by
      rw [execExceptionEnd, if_pos hb, State.enterIdle_quiet hp hq]
    exact ⟨_, hrun, s.bstate_goIdle n, s.goIdle_writes n⟩
  case integrated =>
    intro hb hp hq he
    let u := s.btCause n 0x01 0
    have hu : OnlyM trafficMask s u := s.btCause_traffic ..
    have hrun : execIntegrationComplete n s = .next (u.goIdle n) := by
      rw [execIntegrationComplete, if_pos hb, he,
        ← State.enterIdle_quiet (by rw [State.port_btCause, hp]) ((hu.quarPending n).trans hq)]
      rfl
    exact ⟨_, hrun, u.bstate_goIdle n⟩
  case beacon =>
    intro t0 hnext hdue hen
    obtain ⟨hport, hmissed⟩ := s.dropBeacon_spec n
    refine ⟨_, execBeaconDue_eq hnext hdue hen, ?_⟩
    dsimp only
    rw [State.port_modPort_self, hport]
    exact ⟨rfl, rfl, hmissed⟩
  case plca =>
    intro ok hplca hid hok
    have hrun : execPlcaStatusChange n ok s = .next (s.plcaStatus n ok) := by
      simp [execPlcaStatusChange, hplca, hid, hok, State.plcaStatus]
    exact ⟨_, hrun, s.plcaStatus_spec n ok⟩
  case foreign =>
    intro hplca hid hb
    exact ⟨_, by simp [execPlcaForeignBeacon, hplca, hid, hb], rfl⟩
  case collision =>
    intro a ha he hp2p hcoll hbcn hp hq hstop hdl
    obtain ⟨hport, hslot, hcount, hquar⟩ := s.collided_spec n a
    have hrun : execCollision n s = .next ((s.collided n a).goIdle n) := by
      rw [execCollision_eq ha he hp2p hcoll hbcn hstop hdl,
        State.enterIdle_quiet (by rw [hport]; exact hp) (hquar.trans hq)]
    refine ⟨_, hrun, ?_⟩
    dsimp only
    rw [State.port_goIdle, hport, State.get_goIdle _ _ (of_decide_eq_true rfl) (by simp only [MOP_DESC_STATE, BT_STAT_BSTATE]; omega),
      State.get_goIdle _ _ (of_decide_eq_true rfl) (by simp only [ECF_ETH_COLL_COLL, BT_STAT_BSTATE]; omega)]
    exact ⟨rfl, rfl, hslot, hcount⟩
  case write =>
    intro v hs hv
    exact answers_hostWrite rfl hs.1 hs.2 (s.answerDone.opmodeWrite_spec n (by omega))
  case apply =>
    intro v hp ha hq hb
    have hrun : execOpmodeApply n s = .next (s.enterIdle n) := by
      rcases hb with h | h | h <;> simp [execOpmodeApply, hp, ha, h]
    exact ⟨_, hrun, State.enterIdle_applies hp hq⟩

end

section

set_option Elab.async false

namespace Sys2Proof.Machine

/-! ## Engines outside the four states (R268, R463) -/

/-- What a halted station changes beside the registers of its engines: the cause of a HALT, and its chrysalis part. -/
def besideEngineParts : List Part := hallParts ++ raiseParts ++ [.cores, .UPD_FORCED]

theorem besideEngineParts_away : ((List.range 16).all fun j =>
    awayFam (maskOf besideEngineParts) (0x04020004 + 0x100000 * j) 0x100 64) = true := by
  decide +kernel

section

variable {s t : State} {e e' : Nat}

theorem OnlyM.estate (h : OnlyM (maskOf besideEngineParts) s t) (e : Nat) :
    t.estate e = s.estate e := by
  have ha : (ENG_STAT_STATE e).addr = 0x04020004 + 0x100 * (e % 64) + 0x100000 * (e / 64 % 16) := by
    simp only [ENG_STAT_STATE]; omega
  refine h.getAway _ (ha ▸ ?_) (.inl (of_decide_eq_true rfl))
  rw [Nat.add_right_comm]
  exact awayFam_spec (by decide) (List.all_eq_true.mp besideEngineParts_away _ (List.mem_range.mpr (Nat.mod_lt _ (by decide))))

/-- HALT acts on RUNNING and WAITING alone, so an engine in none of the four states stays as it is. -/
theorem State.estate_engineHalt (h : 3 < s.estate e) : (s.engineHalt e').estate e = s.estate e := by
  unfold State.engineHalt
  split
  next hrun =>
    have hne : (ENG_STAT_STATE e').addr ≠ (ENG_STAT_STATE e).addr := by
      intro ha
      have hsame : s.estate e' = s.estate e := congrArg s.get (congrArg (⟨·, 0, 3⟩ : Nat → Loc) ha)
      simp only [hsame, Bool.or_eq_true, decide_eq_true_eq] at hrun
      omega
    have hapart {l : Loc} (hl : l.lo + l.len ≤ 32) (ha : l.addr = (ENG_STAT_STATE e').addr) : l.apart (ENG_STAT_STATE e) :=
      Loc.apart_of_addr hl (of_decide_eq_true rfl) (ha ▸ hne)
    have hpc : (ENG_PC_PC e').apart (ENG_STAT_STATE e) :=
      Loc.apart_of_addr (of_decide_eq_true rfl) (of_decide_eq_true rfl) (by simp only [ENG_PC_PC, ENG_STAT_STATE]; omega)
    extract_lets u
    have hc : OnlyM (maskOf besideEngineParts)
        ((((u.set (ENG_STAT_STATE e') 1).xactive e').showEngine e'))
        (((((u.set (ENG_STAT_STATE e') 1).xactive e').showEngine e')).engCause e' 0x04 0) :=
      State.engCause_only .refl (Sub.of_within (by decide +kernel))
    rw [hc.estate]
    unfold State.showEngine State.xactive State.estate
    dsimp only
    rw [State.get_put_apart _ (ENG_STAT_PRIV e') _ _ (hapart (of_decide_eq_true rfl) rfl),
      State.get_set_apart _ _ _ _ hpc,
      State.get_put_apart _ (ENG_STAT_XACTIVE e') _ _ (hapart (of_decide_eq_true rfl) rfl),
      State.get_set_apart _ _ _ _ (hapart (of_decide_eq_true rfl) rfl)]
    rfl
  next => rfl

/-- A sequence of steps none of which changes the STATE of an engine outside the four states. -/
theorem State.estate_each {α : Type} {f : State → α → State} (hf : ∀ u x, 3 < u.estate e → (f u x).estate e = u.estate e)
    (l : List α) (h : 3 < s.estate e) : (s.each l f).estate e = s.estate e := by
  induction l generalizing s with
  | nil => rfl
  | cons x l ih =>
    have hx := hf s x h
    exact (ih (hx ▸ h)).trans hx

/-- At the chrysalis deadline an engine outside the four states is not halted. -/
theorem State.estate_chrysalisDeadline (h : 3 < s.estate e) (ht : execChrysalisDeadline [] s = .next t) :
    t.estate e = s.estate e := by
  unfold execChrysalisDeadline at ht
  obtain rfl := Host.Outcome.next.inj ht
  split
  · split
    · refine State.estate_each (fun u k hu => ?_) _ h
      have hengines : (u.each (u.stationEngines k) fun s e => s.engineHalt e).estate e = u.estate e :=
        State.estate_each (fun _ _ => State.estate_engineHalt) _ hu
      have hpart : OnlyM (maskOf besideEngineParts) (u.each (u.stationEngines k) fun s e => s.engineHalt e)
          (((u.each (u.stationEngines k) fun s e => s.engineHalt e).setPartWord k 3 2).put (forcedLoc k) true) :=
        State.put_only (forcedLoc_holds k) (State.setPartWord_only .refl (Sub.of_within (by decide +kernel))) (by decide +kernel)
      exact (hpart.estate e).trans hengines
    · rfl
  · rfl

end

/-- A handover at its chrysalis deadline: station 0 has cluster 0, whose engine 0 is RUNNING and whose engine 1 shows code 4. -/
def strayEngine : State :=
  { (((State.reset.set UPD_STAT_STATE 3).put (CLU_CFG_ASSIGNED 0) true).set (ENG_STAT_STATE 0) 2).set (ENG_STAT_STATE 1) 4 with
    upd := { hoTick := some 0 }, time := { ticks := ticksOfMs 10 } }

theorem strayEngine_atDeadline : strayEngine.get UPD_STAT_STATE = 3 ∧ strayEngine.upd.committing = false ∧
    strayEngine.upd.hoTick = some 0 ∧ 0 + ticksOfMs strayEngine.chryMs ≤ strayEngine.ticks ∧
    strayEngine.stationRuns 0 = true ∧ 1 ∈ strayEngine.stationEngines 0 ∧ strayEngine.estate 1 = 4 := by decide +kernel

end Sys2Proof.Machine

open Sys2Proof Sys2Proof.Machine

/-- Refutes O60: ENG[e].STAT.STATE has three bits and the engine states are 0 to 3. The deadline halts RUNNING and WAITING engines
(R268, R463), so in `strayEngine` engine 1 of a station that runs keeps code 4, which is neither HALTED nor UNASSIGNED. The
statement lacks the hypothesis that every engine shows one of the four states. -/
theorem not_attemptsAndHandoversComplete : ¬ Obligations.AttemptsAndHandoversComplete := by
  rintro ⟨-, -, -, deadline, -, -⟩
  obtain ⟨hstate, hcommit, hsince, hdue, hruns, hmem, hstray⟩ := strayEngine_atDeadline
  obtain ⟨t, hrun, -, hhalted⟩ := deadline strayEngine [] 0 hstate hcommit hsince hdue
  rw [exec_chrysalisDeadline] at hrun
  have hkept := State.estate_chrysalisDeadline (e := 1) (hstray ▸ by decide) hrun
  have hle := (hhalted 0 (by decide) hruns).2 1 hmem
  rw [hkept, hstray] at hle
  exact absurd hle (by decide)

end

/-! # Line observation: commands, soundings, census decisions and specimen packets (O29, O30) -/

section

set_option Elab.async false

namespace Sys2Proof.Machine

/-! ## The hidden halves of ports' observation and of the sounding units -/

section

variable {s t : State} {m : Nat}

theorem State.obsPort_of_obs (h : t.obs = s.obs) (n : Nat) : t.obsPort n = s.obsPort n := by
  unfold State.obsPort; rw [h]

theorem State.sounding_of_obs (h : t.obs = s.obs) (d : Nat) : t.sounding d = s.sounding d := by
  unfold State.sounding; rw [h]

theorem OnlyM.obs_eq (h : OnlyM m s t) (hm : m.testBit Part.obs.ctorIdx = false) : t.obs = s.obs :=
  h.obs.resolve_left (by rw [show (7 : Nat) = Part.obs.ctorIdx from rfl, hm]; decide)

end

section

variable (s : State) (n m d : Nat) (f : ObsPort → ObsPort) (u : Sounding)

theorem State.obsPort_modObs : (s.modObs n f).obsPort m = if m = n then f (s.obsPort n) else s.obsPort m :=
  smapFind_put ..

@[simp] theorem State.obsPort_modObs_self : (s.modObs n f).obsPort n = f (s.obsPort n) := by
  rw [State.obsPort_modObs, if_pos rfl]

@[simp] theorem State.sounding_modObs : (s.modObs n f).sounding d = s.sounding d := rfl
@[simp] theorem State.get_modObs (l : Loc) : (s.modObs n f).get l = s.get l := rfl
@[simp] theorem State.get_setSounding (l : Loc) : (s.setSounding d u).get l = s.get l := rfl

@[simp] theorem State.sounding_setSounding_self : (s.setSounding d u).sounding d = u := by
  unfold State.sounding State.setSounding
  dsimp only
  rw [smapFind_put, if_pos rfl]

@[simp] theorem State.obsPort_set (l : Loc) (v : Nat) : (s.set l v).obsPort n = s.obsPort n :=
  State.obsPort_of_obs (State.set_obs ..) n

@[simp] theorem State.obsPort_setWord (a : Nat) (w : Word) : (s.setWord a w).obsPort n = s.obsPort n := rfl

@[simp] theorem State.sounding_set (l : Loc) (v : Nat) : (s.set l v).sounding d = s.sounding d :=
  State.sounding_of_obs (State.set_obs ..) d

@[simp] theorem State.obsPort_setStamp (a v : Nat) : (s.setStamp a v).obsPort n = s.obsPort n :=
  State.obsPort_of_obs (State.setStamp_obs ..) n

/-- A served command that changes the hidden half of a port's observation changes nothing else. -/
theorem State.modObs_answerDone_writes : Writes [] [.obs, .resp] s (s.answerDone.modObs n f) where
  words _ _ := rfl
  fields p hp := by
    cases p with
    | obs => exact absurd (by simp) hp
    | resp => exact absurd (by simp) hp
    | _ => trivial

end

namespace Sounding

variable (u : Sounding) (i j : Nat) (v : Option (Nat × Nat)) (t : Trace)

@[simp] theorem unit_setUnit_self : (u.setUnit i v).unit i = v := by
  unfold Sounding.unit Sounding.setUnit
  dsimp only
  rw [smapFind_put, if_pos rfl]

@[simp] theorem trace_setTrace_self : (u.setTrace i t).trace i = t := by
  unfold Sounding.trace Sounding.setTrace
  dsimp only
  rw [smapFind_put, if_pos rfl]

@[simp] theorem queue_setUnit : (u.setUnit i v).queue = u.queue := rfl
@[simp] theorem trace_setUnit : (u.setUnit i v).trace j = u.trace j := rfl
@[simp] theorem queue_setTrace : (u.setTrace i t).queue = u.queue := rfl

end Sounding

/-! ## Registers of line observation -/

/-- A field of a register of line observation, within one word. -/
def Loc.observed (l : Loc) : Prop := 0x01800000 ≤ l.addr ∧ l.addr < 0x01A10000 ∧ l.lo + l.len ≤ 32

/-- What a raise of a ledger source may change. -/
abbrev ledgerMask : Nat := 0x3011000000000000000000000000000000000000000000000000000000000C

theorem ledgerMask_away : awayIn ledgerMask 0x01800000 0x01A10000 = true := by decide +kernel

section

variable {s t : State} {n c c' b v : Nat} {l a : Loc}

/-- A field of a port's observation. -/
theorem Loc.observed_of_port (hl : l.addr = c + 0x1000 * (n % 128))
    (hw : l.lo + l.len ≤ 32 := by exact of_decide_eq_true rfl)
    (hc : 0x01800000 ≤ c ∧ c < 0x01801000 := by decide) : l.observed := by
  obtain ⟨hc, hc'⟩ := hc
  exact ⟨by omega, by omega, hw⟩

/-- Two fields of different registers of one port. -/
theorem Loc.apart_of_port (ha : a.addr = c + 0x1000 * (n % 128)) (hl : l.addr = c' + 0x1000 * (n % 128))
    (hc : c ≠ c' := by decide) (hwa : a.lo + a.len ≤ 32 := by exact of_decide_eq_true rfl)
    (hwl : l.lo + l.len ≤ 32 := by exact of_decide_eq_true rfl) : a.apart l :=
  Loc.apart_of_addr hwa hwl (by omega)

theorem OnlyM.observed (h : OnlyM ledgerMask s t) (hl : l.observed) : t.get l = s.get l := by
  obtain ⟨hlo, hhi, hw⟩ := hl
  exact h.getAway l (awayIn_spec ledgerMask_away hlo hhi) (.inl hw)

/-- A cause of a port's observation changes the ledger alone (R153). -/
theorem State.get_obsCause (s : State) (n c b v : Nat) (hl : l.observed) : (s.obsCause n c b v).get l = s.get l :=
  (State.obsCause_only .refl (Sub.refl _)).observed hl

theorem State.obs_obsCause (s : State) (n c b v : Nat) : (s.obsCause n c b v).obs = s.obs :=
  (State.obsCause_only .refl (Sub.refl _)).obs_eq (by decide)

/-- A field that a field write sets, of a value that fits. -/
theorem State.get_set_fits (s : State) (l : Loc) (hv : v < 2 ^ l.len := by exact of_decide_eq_true rfl)
    (hl : l.lo + l.len ≤ 64 := by exact of_decide_eq_true rfl) : (s.set l v).get l = v :=
  (State.get_set_self _ _ _ hl).trans (Nat.mod_eq_of_lt hv)

end

section

variable {α : Type} {f : State → α → State} {P : State → Prop} {s : State}

/-- A property that every step of a sequence keeps. -/
theorem State.each_keeps (l : List α) (h : P s) (hkeep : ∀ u x, P u → P (f u x)) : P (s.each l f) := by
  induction l generalizing s with
  | nil => exact h
  | cons x l ih => exact ih (hkeep s x h)

/-- A property that one step of a sequence establishes and every step keeps. -/
theorem State.each_establishes {x : α} {l : List α} (hx : x ∈ l) (hset : ∀ u, P (f u x)) (hkeep : ∀ u y, P u → P (f u y)) :
    P (s.each l f) := by
  induction l generalizing s with
  | nil => exact absurd hx List.not_mem_nil
  | cons y l ih =>
    rcases List.mem_cons.mp hx with rfl | hx
    · exact State.each_keeps l (hset s) hkeep
    · exact ih hx

end

/-! ## Commands of OBS[n].CTRL (R154) -/

section

variable {s t : State} {n : PortNo} {c : Instr} {cmd : Nat} {rep : Bool} {P : State → Prop}

/-- A permitted command has its effect. -/
theorem answers_obsCommand (hs : s.serves 18) (hl : s.ready (lineBit n) = true)
    (hc : exec c s = .next (s.obsWrite .host n cmd rep)) (he : s.answerDone.obsEffect n cmd rep = some t) (hp : P t) :
    Answers c s P := by
  refine answers_hostWrite hc hs.1 (by rw [hs.2, hl]; rfl) ?_
  rw [State.obsCommand, he]
  exact hp

theorem State.putCmderr_ignored (s : State) (n : Nat) :
    (s.answerDone.put (OBS_STAT_CMDERR n) true).flag (OBS_STAT_CMDERR n) = true ∧
      Writes [(OBS_STAT_CMDERR n).addr] [.resp] s (s.answerDone.put (OBS_STAT_CMDERR n) true) := by
  refine ⟨State.flag_put_self _ _ _ (of_decide_eq_true rfl) rfl, OnlyM.writes (l := [.resp, .OBS_STAT])
    (State.put_only (OBS_STAT_CMDERR_holds n) (State.answerDone_only .refl (Sub.of_within (by decide))) (by decide))
    (fun a ha => ?_) (by simp [Part.same])⟩
  exact State.word_set_narrow _ _ _ _ (of_decide_eq_true rfl) (fun h => ha (List.mem_singleton.mpr h))

/-- A command that is not permitted sets CMDERR alone. -/
theorem answers_obsIgnored (hs : s.serves 18) (hl : s.ready (lineBit n) = true)
    (hc : exec c s = .next (s.obsWrite .host n cmd rep)) (he : s.answerDone.obsEffect n cmd rep = none) :
    Answers c s fun t => t.flag (OBS_STAT_CMDERR n) = true ∧ Writes [(OBS_STAT_CMDERR n).addr] [.resp] s t := by
  refine answers_hostWrite hc hs.1 (by rw [hs.2, hl]; rfl) ?_
  rw [State.obsCommand, he]
  exact s.putCmderr_ignored n

end

/-! ### Census and enrolment (R137, R145, R148) -/

section

variable (s : State) (n : Nat)

theorem cenBegin_away : ([0x01800004, 0x01800200].all fun c =>
    awayFam (maskOf [.OBS_CEN_UNK, .OBS_CEN_UNK_T, .OBS_CEN_START]) c 0x1000 128) = true := by decide +kernel

theorem cenStamps_away : ([0x01800218].all fun c =>
    awayFam (maskOf [.OBS_CEN_UNK_T, .OBS_CEN_START]) c 0x1000 128) = true := by decide +kernel

theorem State.cenBegin_spec (t : Nat) (rep : Bool) :
    (s.cenBegin n t rep).get (OBS_STAT_CEN n) = 1 ∧ (s.cenBegin n t rep).get (OBS_CEN_STAT_SLOT n) = 0 ∧
      (s.cenBegin n t rep).get (OBS_CEN_STAT_UNK n) = 0 ∧ (s.cenBegin n t rep).flag (OBS_CEN_UNK_VALID n) = false ∧
      ((s.cenBegin n t rep).obsPort n).cenStart = t ∧ ((s.cenBegin n t rep).obsPort n).cenRepeat = rep := by
  unfold State.cenBegin
  extract_lets start s1 s2 s3 s4
  have h4 : OnlyM (maskOf [.OBS_CEN_UNK_T, .OBS_CEN_START]) (s3.setWord (OBS_CEN_UNK_ID n).addr 0)
      (s4.setStamp (OBS_CEN_START_NS n).addr t) :=
    State.setStamp_only (OBS_CEN_START_NS_holds n).own (OBS_CEN_START_NS_next n) (State.setStamp_only
      (OBS_CEN_UNK_T_NS_holds n).own (OBS_CEN_UNK_T_NS_next n) .refl (by decide)) (by decide)
  have h3 : OnlyM (maskOf [.OBS_CEN_UNK, .OBS_CEN_UNK_T, .OBS_CEN_START]) s3 (s4.setStamp (OBS_CEN_START_NS n).addr t) :=
    (State.setWord_only (OBS_CEN_UNK_ID_holds n).own .refl (by decide)).trans (h4.mono (Sub.of_within (by decide)))
  have hstat {l : Loc} (hl : l.addr = 0x01800004 + 0x1000 * (n % 128)) (hw : l.lo + l.len ≤ 32) :=
    h3.lineField cenBegin_away hl (by decide) hw
  have hcen {l : Loc} (hl : l.addr = 0x01800200 + 0x1000 * (n % 128)) (hw : l.lo + l.len ≤ 32) :=
    h3.lineField cenBegin_away hl (by decide) hw
  have hport : (s4.setStamp (OBS_CEN_START_NS n).addr t).obsPort n = s2.obsPort n := by
    rw [State.obsPort_setStamp, State.obsPort_setStamp, State.obsPort_setWord, State.obsPort_set, State.obsPort_set,
      State.obsPort_set]
  refine ⟨?_, ?_, ?_, ?_, ?_, ?_⟩
  · rw [hstat rfl (of_decide_eq_true rfl), State.get_set_apart _ _ _ _ (Loc.apart_of_port rfl rfl),
      State.get_set_apart _ _ _ _ (Loc.apart_of_port rfl rfl)]
    exact State.get_set_fits ..
  · rw [hcen rfl (of_decide_eq_true rfl), State.get_set_apart _ _ _ _ (Loc.apart_of_bits rfl)]
    exact State.get_set_fits ..
  · rw [hcen rfl (of_decide_eq_true rfl)]
    exact State.get_set_fits ..
  · have hword : (s3.setWord (OBS_CEN_UNK_ID n).addr 0).word (OBS_CEN_UNK_VALID n).addr = 0 := by
      rw [State.word_setWord]
      exact if_pos rfl
    unfold State.flag
    rw [h4.lineField cenStamps_away rfl (by decide) (of_decide_eq_true rfl),
      State.get_eq_zero hword (of_decide_eq_true rfl)]
    rfl
  · rw [hport, State.obsPort_modObs_self]
  · rw [hport, State.obsPort_modObs_self]

theorem State.cenAbort_state (h : s.get (OBS_STAT_CEN n) = 1) : (s.cenAbort n).get (OBS_STAT_CEN n) = 3 := by
  rw [State.cenAbort, if_pos h, State.get_obsCause _ _ _ _ _ (Loc.observed_of_port rfl)]
  exact State.get_set_fits ..

theorem State.enrAbort_state (h : s.get (OBS_STAT_ENR n) = 1) : (s.enrAbort n).get (OBS_STAT_ENR n) = 3 := by
  rw [State.enrAbort, if_pos h, State.get_obsCause _ _ _ _ _ (Loc.observed_of_port rfl)]
  exact State.get_set_fits ..

end

section

variable {u v : State} {n j k : Nat}

/-- The sums of feature `k` read 0. -/
def State.enrZero (u : State) (n k : Nat) : Prop := u.get (OBS_ENR_SUM_SUM n k) = 0 ∧ u.get (OBS_ENR_SQ_SQ n k) = 0

/-- The sums of a feature lie in three words. -/
theorem State.enrZero_congr (h : u.enrZero n k) (hsum : v.word (OBS_ENR_SUM_SUM n k).addr = u.word (OBS_ENR_SUM_SUM n k).addr)
    (hlo : v.word (OBS_ENR_SQ_SQ n k).addr = u.word (OBS_ENR_SQ_SQ n k).addr)
    (hhi : v.word ((OBS_ENR_SQ_SQ n k).addr + 4) = u.word ((OBS_ENR_SQ_SQ n k).addr + 4)) : v.enrZero n k := by
  obtain ⟨h1, h2⟩ := h
  have hw : (OBS_ENR_SUM_SUM n k).lo + (OBS_ENR_SUM_SUM n k).len ≤ 32 := of_decide_eq_true rfl
  exact ⟨(State.get_congr hsum fun h => absurd hw (by omega)).trans h1, (State.get_congr hlo fun _ => hhi).trans h2⟩

/-- The sums of feature `k` become 0. -/
def State.enrClear (u : State) (n k : Nat) : State := (u.set (OBS_ENR_SUM_SUM n k) 0).set (OBS_ENR_SQ_SQ n k) 0

theorem State.enrClear_zero (u : State) (n k : Nat) : (u.enrClear n k).enrZero n k := by
  refine ⟨?_, State.get_set_fits ..⟩
  have hw : (OBS_ENR_SUM_SUM n k).lo + (OBS_ENR_SUM_SUM n k).len ≤ 32 := of_decide_eq_true rfl
  have hword : (u.enrClear n k).word (OBS_ENR_SUM_SUM n k).addr =
      (u.set (OBS_ENR_SUM_SUM n k) 0).word (OBS_ENR_SUM_SUM n k).addr :=
    State.word_set_ne _ _ _ _ (by simp only [OBS_ENR_SUM_SUM, OBS_ENR_SQ_SQ]; omega)
      (by simp only [OBS_ENR_SUM_SUM, OBS_ENR_SQ_SQ]; omega)
  exact (State.get_congr hword fun h => absurd hw (by omega)).trans (State.get_set_fits ..)

/-- It leaves the sums of another feature alone. -/
theorem State.enrClear_keeps (h : u.enrZero n k) (j : Nat) : (u.enrClear n j).enrZero n k := by
  by_cases hj : j % 12 = k % 12
  · have hsum : OBS_ENR_SUM_SUM n j = OBS_ENR_SUM_SUM n k := by rw [OBS_ENR_SUM_SUM, hj]; rfl
    have hsq : OBS_ENR_SQ_SQ n j = OBS_ENR_SQ_SQ n k := by rw [OBS_ENR_SQ_SQ, hj]; rfl
    rw [State.enrClear, hsum, hsq]
    exact u.enrClear_zero n k
  · have hother {a : Nat} (hs : a ≠ (OBS_ENR_SUM_SUM n j).addr) (hl : a ≠ (OBS_ENR_SQ_SQ n j).addr)
        (hh : a ≠ (OBS_ENR_SQ_SQ n j).addr + 4) : (u.enrClear n j).word a = u.word a :=
      (State.word_set_ne _ _ _ _ hl hh).trans (State.word_set_narrow _ _ _ _ (of_decide_eq_true rfl) hs)
    refine State.enrZero_congr h (hother ?_ ?_ ?_) (hother ?_ ?_ ?_) (hother ?_ ?_ ?_) <;>
      (simp only [OBS_ENR_SUM_SUM, OBS_ENR_SQ_SQ]; omega)

/-- The sums of a port lie between two registers. -/
theorem State.enrZero_of_words (h : u.enrZero n k)
    (hw : ∀ a, 0x01800050 + 0x1000 * (n % 128) ≤ a → a < 0x018000E0 + 0x1000 * (n % 128) → v.word a = u.word a) : v.enrZero n k := by
  refine State.enrZero_congr h (hw _ ?_ ?_) (hw _ ?_ ?_) (hw _ ?_ ?_) <;>
    (simp only [OBS_ENR_SUM_SUM, OBS_ENR_SQ_SQ]; omega)

theorem State.enrZero_setWord {a : Nat} {w : Word} (h : u.enrZero n k)
    (ha : a < 0x01800050 + 0x1000 * (n % 128) ∨ 0x018000E0 + 0x1000 * (n % 128) ≤ a) : (u.setWord a w).enrZero n k :=
  State.enrZero_of_words h fun b hlo hhi => by rw [State.word_setWord, if_neg (by omega)]

/-- ENR_START (R137). -/
theorem State.enrBegin_spec (s : State) (n : Nat) : (s.enrBegin n).get (OBS_STAT_ENR n) = 1 ∧
    (s.enrBegin n).get (OBS_ENR_STAT_DONE n) = 0 ∧ ∀ k < 12, (s.enrBegin n).enrZero n k := by
  unfold State.enrBegin
  extract_lets s1 s2 s3
  refine ⟨State.get_set_fits .., ?_, fun k hk => ?_⟩
  · rw [State.get_set_apart _ _ _ _ (Loc.apart_of_port rfl rfl)]
    refine State.get_eq_zero ?_ (of_decide_eq_true rfl)
    rw [State.word_setWord]
    exact if_pos rfl
  · have h2 : s2.enrZero n k :=
      State.each_establishes (s := s1) (f := fun s k => s.enrClear n k) (P := fun u => u.enrZero n k) (List.mem_range.mpr hk)
        (fun u => u.enrClear_zero n k) (fun _ j h => State.enrClear_keeps h j)
    have h3 : s3.enrZero n k := State.each_keeps (P := fun u => u.enrZero n k) _ h2 fun u j h =>
      State.enrZero_setWord h (.inr (by simp only [OBS_ENR_USE_LO]; omega))
    have h4 := State.enrZero_setWord (a := (OBS_ENR_STAT_DONE n).addr) (w := 0) h3
      (.inl (by simp only [OBS_ENR_STAT_DONE]; omega))
    exact State.enrZero_of_words h4 fun a hlo _ =>
      State.word_set_narrow _ _ _ _ (of_decide_eq_true rfl) (by simp only [OBS_STAT_ENR]; omega)

end

/-! ### Soundings that are queued, leave and end (R139, R143) -/

section

variable (s : State) (n st i : Nat)

theorem mem_insertRequest (t n : Nat) (q : List (Nat × Nat)) : (t, n) ∈ insertRequest t n q := by
  induction q with
  | nil => exact List.mem_singleton_self _
  | cons x xs ih =>
    unfold insertRequest
    split
    · exact List.mem_cons_of_mem _ ih
    · exact List.mem_cons_self

/-- SND_START queues the port (R139). -/
theorem State.sndQueue_spec : (s.sndQueue n).get (OBS_SND_STAT_STATE n) = 1 ∧
    (∀ a, a ≠ (OBS_SND_STAT_STATE n).addr → (s.sndQueue n).word a = s.word a) ∧
    (s.ticks, n) ∈ ((s.sndQueue n).sounding (dieOf n)).queue := by
  unfold State.sndQueue
  refine ⟨State.get_set_fits .., fun a ha => State.word_set_narrow _ _ _ _ (of_decide_eq_true rfl) ha, ?_⟩
  rw [State.sounding_set, State.sounding_setSounding_self]
  exact mem_insertRequest ..

theorem State.queue_sndLeave :
    ((s.sndLeave n).sounding (dieOf n)).queue = (s.sounding (dieOf n)).queue.filter (·.2 != n) := by
  unfold State.sndLeave
  rw [State.sounding_setSounding_self]
  split <;> rfl

variable {s i} in
/-- The unit that the port's sounding holds becomes free. -/
theorem State.unit_sndLeave (h : (s.sounding (dieOf n)).unitOf n = some i) :
    ((s.sndLeave n).sounding (dieOf n)).unit i = none := by
  have hu (q : List (Nat × Nat)) : ({ s.sounding (dieOf n) with queue := q } : Sounding).unitOf n = some i := h
  unfold State.sndLeave
  simp [hu]

variable {s n st} in
/-- The end of a sounding without a result (R143). -/
theorem State.sndEnd_spec (hst : st < 8) : (s.sndEnd n st).get (OBS_SND_STAT_STATE n) = st ∧
    ∀ d, (s.sndEnd n st).sounding d = (s.sndLeave n).sounding d := by
  unfold State.sndEnd
  refine ⟨?_, fun d => ?_⟩
  · rw [State.get_obsCause _ _ _ _ _ (Loc.observed_of_port rfl)]
    exact State.get_set_fits _ _ hst
  · rw [State.sounding_of_obs (State.obs_obsCause ..), State.sounding_set]

variable {s n} in
/-- SND_ABORT ends the sounding of a port, queued or running. -/
theorem State.sndAbort_spec (h : s.sndBusy n = true) : (s.sndAbort n).get (OBS_SND_STAT_STATE n) = 5 ∧
    ∀ x ∈ ((s.sndAbort n).sounding (dieOf n)).queue, x.2 ≠ n := by
  obtain ⟨hstate, hsound⟩ := State.sndEnd_spec (s := s) (n := n) (st := 5) (by decide)
  rw [State.sndAbort, if_pos h, hsound, State.queue_sndLeave]
  refine ⟨hstate, fun x hx => ?_⟩
  simpa using (List.mem_filter.mp hx).2

end

/-! ### Capture commands and triggers (R149) -/

section

variable {s : State} {n b m : Nat}

theorem State.capBegin_spec (s : State) (n : Nat) : (s.capBegin n).get (OBS_CAP_SEQ_SEQ n) = 0 ∧
    (s.capBegin n).get (OBS_CAP_STAT_STATE n) = if s.get (OBS_CAP_CFG_MODE n) = 2 then 1 else if s.capStream n then 2 else 3 := by
  unfold State.capBegin
  refine ⟨?_, State.get_set_fits _ _ ?_⟩
  · rw [State.get_set_apart _ _ _ _ (Loc.apart_of_port rfl rfl)]
    exact State.get_set_fits ..
  · show _ < 4
    split
    · decide
    · split <;> decide

theorem State.capStopLater_armed (h : s.get (OBS_CAP_STAT_STATE n) = 1) :
    (s.capStopLater n).get (OBS_CAP_STAT_STATE n) = 0 := by
  rw [State.capStopLater, if_neg (by omega), if_pos h]
  exact State.get_set_fits ..

/-- A capture that streams stops after the packet in progress. -/
theorem State.capStopLater_streaming (h : 2 ≤ s.get (OBS_CAP_STAT_STATE n)) :
    s.capStopLater n = s.modObs n fun o => { o with capStop := true } := by
  rw [State.capStopLater, if_neg (by omega), if_neg (by omega)]

/-- The capture of a port after a trigger, of decimation exponent `d`, with `pre` samples kept of an armed buffer and `post` to
come. -/
def ObsPort.triggered (o : ObsPort) (armed : Bool) (pre post d : Nat) : ObsPort :=
  let o := if armed then o.capDrop (o.capBuf.length - pre) d else o
  { o with capLeft := max o.capLeft (o.capBuf.length + 1 + post), capTrigs := o.capTrigs ++ [o.capBuf.length] }

/-- A trigger that CAP_CFG enables: an armed capture runs from now on. -/
theorem State.capTrigger_enabled (hm : s.get (OBS_CAP_CFG_MODE n) = 2) (hs : s.get (OBS_CAP_STAT_STATE n) ≠ 0)
    (ht : (s.get (OBS_CAP_CFG_TRIG n)).testBit b = true) :
    s.capTrigger n b =
      let t := s.modObs n fun o => o.triggered (s.get (OBS_CAP_STAT_STATE n) = 1) (min 16 (s.get (OBS_CAP_CFG_PRE n)) * 256)
        (max 1 (s.get (OBS_CAP_CFG_POST n)) * 2560) (s.get (OBS_CAP_CFG_DEC n))
      if s.get (OBS_CAP_STAT_STATE n) = 1 then t.set (OBS_CAP_STAT_STATE n) 2 else t := by
  simp only [State.capTrigger, ObsPort.triggered, hm, ht, decide_true, bne_iff_ne, ne_eq, hs, not_false_eq_true,
    Bool.and_true, Bool.true_and, if_true, decide_eq_true_eq]

/-- Any other trigger has no effect. -/
theorem State.capTrigger_disabled (h : ¬(s.get (OBS_CAP_CFG_MODE n) = 2 ∧ s.get (OBS_CAP_STAT_STATE n) ≠ 0 ∧
    (s.get (OBS_CAP_CFG_TRIG n)).testBit b = true)) : s.capTrigger n b = s := by
  refine if_neg ?_
  simp only [Bool.and_eq_true, decide_eq_true_eq, bne_iff_ne, and_assoc]
  exact h

/-- CAP_TRIG in ARMED. -/
theorem State.capTrigger_armed (hm : s.get (OBS_CAP_CFG_MODE n) = 2) (hs : s.get (OBS_CAP_STAT_STATE n) = 1)
    (ht : (s.get (OBS_CAP_CFG_TRIG n)).testBit b = true) :
    let pre := min (s.obsPort n).capBuf.length (min 16 (s.get (OBS_CAP_CFG_PRE n)) * 256)
    (s.capTrigger n b).get (OBS_CAP_STAT_STATE n) = 2 ∧ ((s.capTrigger n b).obsPort n).capBuf.length = pre ∧
      ((s.capTrigger n b).obsPort n).capLeft =
        max (s.obsPort n).capLeft (pre + 1 + max 1 (s.get (OBS_CAP_CFG_POST n)) * 2560) := by
  have hlen (x : List CapSample) (k : Nat) : (x.drop (x.length - k)).length = min x.length k := by
    rw [List.length_drop]; omega
  rw [State.capTrigger_enabled hm (by omega) ht]
  dsimp only
  rw [if_pos hs]
  refine ⟨State.get_set_fits .., ?_, ?_⟩ <;>
    simp [ObsPort.triggered, ObsPort.capDrop, hs, hlen]

end

end Sys2Proof.Machine

end

section
set_option Elab.async false
open Sys2Proof Sys2Proof.Machine

/-- Settles O29: while OBS and the port's Line die are usable a write of OBS[n].CTRL is the command's effect when it is permitted
(`answers_obsCommand`), and CMDERR alone when it is not (`answers_obsIgnored`). -/
theorem observationCommands : Obligations.ObservationCommands := by
  intro s n hs hl ignored
  refine ⟨fun rep => ⟨fun hcen hslots hfe => ?cenStart, fun h => ?cenStart'⟩, ⟨fun h => ?cenStop, fun h => ?cenStop'⟩,
    ⟨fun hfree hmay => ?sndStart, fun h => ?sndStart'⟩, ⟨fun h => ?sndAbort, fun h => ?sndAbort'⟩,
    ⟨fun henr hfe => ?enrStart, fun h => ?enrStart'⟩, ⟨fun h => ?enrAbort, fun h => ?enrAbort'⟩,
    ⟨fun hon hidle => ?capStart, fun h => ?capStart'⟩, ⟨fun h => ?armed, fun h => ?streams, fun h => ?capStop'⟩,
    ⟨fun hmode hstate htrig => ?capTrig, fun h => ?capTrig'⟩, ?unknown⟩
  case cenStart =>
    have hmay : s.cenMay n = true := by simp [State.cenMay, hcen, hslots, hfe]
    exact answers_obsCommand hs hl rfl (if_pos hmay) (s.answerDone.cenBegin_spec n s.now rep)
  case cenStart' =>
    have hmay : ¬ s.cenMay n = true := by
      rcases h with h | h | h <;> simp [State.cenMay, h]
    exact answers_obsIgnored hs hl rfl (if_neg hmay)
  case cenStop => exact answers_obsCommand hs hl rfl (if_pos h) (s.answerDone.cenAbort_state n h)
  case cenStop' => exact answers_obsIgnored hs hl rfl (if_neg h)
  case sndStart =>
    obtain ⟨hstate, hwords, hqueue⟩ := s.answerDone.sndQueue_spec n
    refine answers_obsCommand hs hl rfl (if_pos (by simp [hfree, hmay] : (!s.sndBusy n && s.sndPermitted n) = true))
      ⟨hstate, ?_, hqueue⟩
    exact OnlyM.writes (l := [.obs, .resp, .OBS_SND_STAT])
      (State.sndQueue_only (State.answerDone_only .refl (Sub.of_within (by decide))) (Sub.of_within (by decide)))
      (fun a ha => hwords a (fun h => ha (List.mem_singleton.mpr h))) (by simp [Part.same])
  case sndStart' =>
    have hmay : ¬ (!s.sndBusy n && s.sndPermitted n) = true := by
      rcases h with h | h <;> simp [h]
    exact answers_obsIgnored hs hl rfl (if_neg hmay)
  case sndAbort => exact answers_obsCommand hs hl rfl (if_pos h) (State.sndAbort_spec (s := s.answerDone) h)
  case sndAbort' => exact answers_obsIgnored hs hl rfl (if_neg (by simp [h] : ¬ s.sndBusy n = true))
  case enrStart =>
    exact answers_obsCommand hs hl rfl (if_pos (by simp [henr, hfe] : (s.get (OBS_STAT_ENR n) != 1 && s.frontEnd n) = true))
      (s.answerDone.enrBegin_spec n)
  case enrStart' =>
    have hmay : ¬ (s.get (OBS_STAT_ENR n) != 1 && s.frontEnd n) = true := by
      rcases h with h | h <;> simp [h]
    exact answers_obsIgnored hs hl rfl (if_neg hmay)
  case enrAbort => exact answers_obsCommand hs hl rfl (if_pos h) (s.answerDone.enrAbort_state n h)
  case enrAbort' => exact answers_obsIgnored hs hl rfl (if_neg h)
  case capStart =>
    obtain ⟨hseq, hstate⟩ := s.answerDone.capBegin_spec n
    refine answers_obsCommand hs hl rfl
      (if_pos (by simp [hon, hidle] : (s.capOn n && decide (s.get (OBS_CAP_STAT_STATE n) = 0)) = true))
      ⟨hseq, fun hmode => hstate.trans (if_pos hmode), fun hmode => hstate.trans (if_neg ?_)⟩
    exact fun h => absurd (hmode.symm.trans h) (by decide)
  case capStart' =>
    have hmay : ¬ (s.capOn n && decide (s.get (OBS_CAP_STAT_STATE n) = 0)) = true := by
      rcases h with h | h <;> simp [h]
    exact answers_obsIgnored hs hl rfl (if_neg hmay)
  case armed =>
    exact answers_obsCommand hs hl rfl (if_pos (by simp [h] : (s.get (OBS_CAP_STAT_STATE n) != 0) = true))
      (State.capStopLater_armed (s := s.answerDone) h)
  case streams =>
    have hrun : (s.get (OBS_CAP_STAT_STATE n) != 0) = true := bne_iff_ne.mpr (by omega)
    refine answers_obsCommand hs hl rfl (if_pos hrun) ?_
    rw [State.capStopLater_streaming (s := s.answerDone) h, State.obsPort_modObs_self]
    exact ⟨rfl, s.modObs_answerDone_writes n _⟩
  case capStop' =>
    exact answers_obsIgnored hs hl rfl (if_neg (by simp [h] : ¬ (s.get (OBS_CAP_STAT_STATE n) != 0) = true))
  case capTrig =>
    exact answers_obsCommand hs hl rfl
      (if_pos (by simp [hmode, hstate] :
        (decide (s.get (OBS_CAP_CFG_MODE n) = 2) && s.get (OBS_CAP_STAT_STATE n) != 0) = true))
      (State.capTrigger_armed (s := s.answerDone) hmode hstate htrig)
  case capTrig' =>
    have hmay : ¬ (decide (s.get (OBS_CAP_CFG_MODE n) = 2) && s.get (OBS_CAP_STAT_STATE n) != 0) = true := by
      rcases h with h | h <;> simp [h]
    exact answers_obsIgnored hs hl rfl (if_neg hmay)
  case unknown => exact answers_hostWrite rfl hs.1 (by rw [hs.2, hl]; rfl) (s.putCmderr_ignored n)
end

section

set_option Elab.async false

namespace Sys2Proof.Machine

/-! ## What a trigger leaves alone (R149) -/

/-- When the census of a port started, and what its trackers saw. -/
def ObsPort.census (o : ObsPort) : Nat × SMap (List Nat) := (o.cenStart, o.seen)

section

variable (s : State) (n b m d : Nat)

/-- A trigger changes the port's capture, and its STATE, alone. -/
theorem State.capTrigger_cases : s.capTrigger n b = s ∨ ∃ f : ObsPort → ObsPort, (∀ o, (f o).census = o.census) ∧
    (s.capTrigger n b = s.modObs n f ∨ s.capTrigger n b = (s.modObs n f).set (OBS_CAP_STAT_STATE n) 2) := by
  by_cases h : s.get (OBS_CAP_CFG_MODE n) = 2 ∧ s.get (OBS_CAP_STAT_STATE n) ≠ 0 ∧
      (s.get (OBS_CAP_CFG_TRIG n)).testBit b = true
  · obtain ⟨hm, hs, ht⟩ := h
    rw [State.capTrigger_enabled hm hs ht]
    refine .inr ⟨fun o => o.triggered (s.get (OBS_CAP_STAT_STATE n) = 1) (min 16 (s.get (OBS_CAP_CFG_PRE n)) * 256)
      (max 1 (s.get (OBS_CAP_CFG_POST n)) * 2560) (s.get (OBS_CAP_CFG_DEC n)), fun o => ?_, ?_⟩
    · unfold ObsPort.triggered
      split <;> rfl
    · dsimp only
      split
      · exact .inr rfl
      · exact .inl rfl
  · exact .inl (State.capTrigger_disabled h)

theorem State.get_capTrigger {l : Loc} (h : (OBS_CAP_STAT_STATE n).apart l) : (s.capTrigger n b).get l = s.get l := by
  obtain e | ⟨f, -, e | e⟩ := s.capTrigger_cases n b <;> rw [e]
  · rfl
  · rw [State.get_set_apart _ _ _ _ h, State.get_modObs]

@[simp] theorem State.sounding_capTrigger : (s.capTrigger n b).sounding d = s.sounding d := by
  obtain e | ⟨f, -, e | e⟩ := s.capTrigger_cases n b <;> rw [e]
  · rfl
  · rw [State.sounding_set, State.sounding_modObs]

theorem State.census_capTrigger : ((s.capTrigger n b).obsPort m).census = (s.obsPort m).census := by
  have hmod {f : ObsPort → ObsPort} (hf : ∀ o, (f o).census = o.census) :
      ((s.modObs n f).obsPort m).census = (s.obsPort m).census := by
    rw [State.obsPort_modObs]
    split
    next h => rw [h]; exact hf _
    next => rfl
  obtain e | ⟨f, hf, e | e⟩ := s.capTrigger_cases n b <;> rw [e]
  · exact hmod hf
  · rw [State.obsPort_set, hmod hf]

end

/-- The trace windows lie behind the ports' registers. -/
theorem capState_apart_trace (n u j : Nat) : (OBS_CAP_STAT_STATE n).apart (OBS_TRACE_ACC u j) :=
  Loc.apart_of_addr (of_decide_eq_true rfl) (of_decide_eq_true rfl) (by simp only [OBS_CAP_STAT_STATE, OBS_TRACE_ACC]; omega)

/-! ## A unit starts (R139, R155) -/

theorem smapFind_filter_dropped {V : Type} {d : Nat → V} {m : SMap V} {p : Nat × V → Bool} {k : Nat}
    (h : ∀ v, p (k, v) = false) : smapFind d (m.filter p) k = d k := by
  induction m with
  | nil => rfl
  | cons e m ih =>
    obtain ⟨a, v⟩ := e
    rw [List.filter_cons]
    split
    next hp =>
      have hne : k ≠ a := by
        rintro rfl
        rw [h] at hp
        exact absurd hp (by decide)
      rw [smapFind, if_neg hne, ih]
    next => exact ih

theorem resetWord_trace {a : Nat} (h : 0x01A00000 ≤ a) (h' : a < 0x01A10000) : resetWord a = 0 := by
  unfold resetWord
  repeat rw [if_neg (by omega)]

section

variable {s : State} {n i : Nat} {rest : List (Nat × Nat)}

/-- The trace window of a unit that starts reads 0 (R155). -/
theorem State.get_clearTrace (s : State) (u j : Nat) : (s.clearTrace u).get (OBS_TRACE_ACC u j) = 0 := by
  refine State.get_eq_zero ?_ (of_decide_eq_true rfl)
  have ha : (OBS_TRACE_ACC u j).addr = 0x01A00000 + 0x2000 * (u % 8) + 4 * (j % 2048) := rfl
  have hz : (OBS_TRACE_ACC u 0).addr = 0x01A00000 + 0x2000 * (u % 8) := rfl
  refine (smapFind_filter_dropped fun v => ?_).trans (resetWord_trace (by omega) (by omega))
  simp only [Bool.not_eq_false', Bool.and_eq_true, decide_eq_true_eq]
  omega

/-- Unit `i` of a die takes the request of a port, the head of a queue that goes on with `rest`. -/
def State.unitTakes (s : State) (d n i : Nat) (rest : List (Nat × Nat)) : State :=
  let u := s.sounding d
  let v := { u with queue := rest, waiting := u.waiting.filter (· != i) }.setTrace i { cfg := s.sndCfg n }
  (((s.setSounding d (v.setUnit i (some (n, s.ticks)))).clearTrace (4 * d + i)).set (OBS_SND_STAT_STATE n) 2).set
    (OBS_SND_STAT_UNIT n) i

theorem execSoundingUnitStart_eq {d : Fin 2} {t0 : Nat} (hq : (s.sounding d).queue = (t0, n) :: rest) (hi : i < 4)
    (hfree : (s.sounding d).unit i = none) (hlow : ∀ j < i, (s.sounding d).unit j ≠ none) :
    execSoundingUnitStart d s = .next ((s.unitTakes d n i rest).capTrigger n 6) := by
  have hfind : (List.range 4).find? (fun i => ((s.sounding d).unit i).isNone) = some i := by
    rw [List.find?_range_eq_some]
    refine ⟨by simp [hfree], List.mem_range.mpr hi, fun j hj => ?_⟩
    simpa [Option.isSome_iff_ne_none] using hlow j hj
  unfold execSoundingUnitStart
  dsimp only
  rw [hq, hfind]
  rfl

theorem State.unitTakes_spec (s : State) (d n : Nat) (hi : i < 4) (rest : List (Nat × Nat)) :
    ((s.unitTakes d n i rest).sounding d).unit i = some (n, s.ticks) ∧
      ((s.unitTakes d n i rest).sounding d).queue = rest ∧
      (s.unitTakes d n i rest).get (OBS_SND_STAT_STATE n) = 2 ∧ (s.unitTakes d n i rest).get (OBS_SND_STAT_UNIT n) = i ∧
      ((s.unitTakes d n i rest).sounding d).trace i = { cfg := s.sndCfg n } ∧
      ∀ j, (s.unitTakes d n i rest).get (OBS_TRACE_ACC (4 * d + i) j) = 0 := by
  let u := s.sounding d
  let v := { u with queue := rest, waiting := u.waiting.filter (· != i) }.setTrace i { cfg := s.sndCfg n }
  have hsound : (s.unitTakes d n i rest).sounding d = v.setUnit i (some (n, s.ticks)) := by
    unfold State.unitTakes
    rw [State.sounding_set, State.sounding_set]
    exact State.sounding_setSounding_self ..
  rw [hsound]
  refine ⟨by simp, rfl, ?_, State.get_set_fits _ _ hi, by simp [v], fun j => ?_⟩
  · exact (State.get_set_apart _ _ _ _ (Loc.apart_of_bits rfl)).trans (State.get_set_fits ..)
  · have hapart {l : Loc} (hl : l.addr = 0x01800104 + 0x1000 * (n % 128)) (hw : l.lo + l.len ≤ 32) :
        l.apart (OBS_TRACE_ACC (4 * d + i) j) :=
      Loc.apart_of_addr hw (of_decide_eq_true rfl) (by simp only [hl, OBS_TRACE_ACC]; omega)
    unfold State.unitTakes
    dsimp only
    rw [State.get_set_apart _ _ _ _ (hapart rfl (of_decide_eq_true rfl)),
      State.get_set_apart _ _ _ _ (hapart rfl (of_decide_eq_true rfl)), State.get_clearTrace]

end

/-! ## Records and their analysis (R140 to R143) -/

section

variable {s : State} {n i : Nat}

/-- A record that an edge spoils sends the unit back to its quiet time. -/
theorem State.waiting_discardRecord (h : (s.sounding (dieOf n)).unitOf n = some i) (hs : s.get (OBS_SND_STAT_STATE n) = 2) :
    i ∈ ((s.discardRecord n).sounding (dieOf n)).waiting := by
  have hrec : s.recording n = !(s.sounding (dieOf n)).waiting.contains i := by
    simp [State.recording, h, hs]
  unfold State.discardRecord
  simp only [h, hrec]
  split
  next => rw [State.sounding_setSounding_self]; simp
  next hw => simpa using hw

theorem State.discardRecord_writes (s : State) (n : Nat) : Writes [] [.obs] s (s.discardRecord n) := by
  have h : OnlyM (maskOf [.obs]) s (s.discardRecord n) := State.discardRecord_only .refl (Sub.of_within (by decide))
  refine h.writes (fun a _ => (h.only (Sub.refl _)).words a fun p hp => ?_) (by simp)
  obtain rfl := List.mem_singleton.mp hp
  exact fun ho => ho

/-- Records add to the count of a trace, and keep its configuration. -/
theorem Trace.add_spec (t : Trace) (recs : List (List Int)) :
    (t.add recs).count = t.count + recs.length ∧ (t.add recs).whole = t.whole := by
  induction recs generalizing t with
  | nil => exact ⟨rfl, rfl⟩
  | cons r recs ih =>
    obtain ⟨hcount, hwhole⟩ := ih { t with
      count := t.count + 1,
      acc := addRecord t.cfg.2.1 (t.count / 2 ^ t.cfg.1) (if t.acc.isEmpty then List.replicate 2048 (0, false) else t.acc) r }
    refine ⟨hcount.trans ?_, hwhole⟩
    simp only [List.length_cons]
    omega

/-- Records are added to a trace; with the last of them the unit is ANALYSING (R141). -/
theorem State.sndAdd_spec (s : State) (n i : Nat) (recs : List (List Int)) :
    (((s.sndAdd n i recs).sounding (dieOf n)).trace i).count =
        ((s.sounding (dieOf n)).trace i).count + recs.length ∧
      (s.sndAdd n i recs).get (OBS_SND_STAT_STATE n) =
        if ((s.sounding (dieOf n)).trace i).count + recs.length = ((s.sounding (dieOf n)).trace i).whole then 3
        else s.get (OBS_SND_STAT_STATE n) := by
  obtain ⟨hcount, hwhole⟩ := ((s.sounding (dieOf n)).trace i).add_spec recs
  unfold State.sndAdd
  extract_lets d u t s1 s2
  have h1 : ((s1.sounding d).trace i).count = (u.trace i).count + recs.length := by
    rw [State.sounding_setSounding_self, Sounding.trace_setTrace_self, hcount]
  have h2 : OnlyM (maskOf [.OBS_TRACE]) s1 s2 :=
    State.each_only .refl fun _ x h => State.setInt_only (OBS_TRACE_ACC_holds _ x.2) h (by decide)
  rw [hcount, hwhole]
  split
  next => exact ⟨by rw [State.sounding_set, State.sounding_of_obs (h2.obs_eq (by decide)), h1], State.get_set_fits ..⟩
  next => exact ⟨h1, rfl⟩

/-- SND_STAT shows the number of reflections and of clipped points (R142). -/
def State.showCounts (s : State) (n refls : Nat) (more : Bool) (clipped : Nat) : State :=
  ((s.set (OBS_SND_STAT_NREFL n) refls).put (OBS_SND_STAT_MORE n) more).set (OBS_SND_STAT_CLIPPED n) clipped

/-- The end of an analysis reports the reflections and their counts, and frees the unit (R142). -/
theorem State.sndReport_eq (s : State) (n i : Nat) : ∃ (w : State) (x : Nat) (y : Bool) (z a b : Nat),
    OnlyM (maskOf [.OBS_SND_REFL]) s w ∧
    s.sndReport n i = (((w.showCounts n x y z).sndLeave n).set (OBS_SND_STAT_STATE n) 4).obsCause n 0x04 a b := by
  unfold State.sndReport
  refine ⟨_, _, _, _, _, _, State.each_only .refl fun u k h => ?_, rfl⟩
  split
  · exact State.setRefl_only h (Sub.of_within (by decide))
  · exact State.setWord_only (OBS_SND_REFL_DIST_holds n k).own h (by decide)

/-- The reflections lie beside SND_STAT. -/
theorem OnlyM.sndStat {t : State} (h : OnlyM (maskOf [.OBS_SND_REFL]) s t) :
    t.get (OBS_SND_STAT_UNIT n) = s.get (OBS_SND_STAT_UNIT n) := by
  refine State.get_congr ((h.only (Sub.refl _)).words _ fun p hp => ?_) fun hw => ?_
  · obtain rfl := List.mem_singleton.mp hp
    rintro ⟨m, hm, k, hk, ha⟩
    simp only [OBS_SND_STAT_UNIT] at ha
    omega
  · exact absurd (of_decide_eq_true rfl : (OBS_SND_STAT_UNIT n).lo + (OBS_SND_STAT_UNIT n).len ≤ 32) (by omega)

theorem State.unit_showCounts (s : State) (n x : Nat) (y : Bool) (z : Nat) :
    (s.showCounts n x y z).get (OBS_SND_STAT_UNIT n) = s.get (OBS_SND_STAT_UNIT n) := by
  unfold State.showCounts
  rw [State.get_set_apart _ _ _ _ (Loc.apart_of_bits rfl), State.get_put_apart _ _ _ _ (Loc.apart_of_bits rfl),
    State.get_set_apart _ _ _ _ (Loc.apart_of_bits rfl)]

theorem State.obs_showCounts (s : State) (n x : Nat) (y : Bool) (z : Nat) : (s.showCounts n x y z).obs = s.obs := by
  unfold State.showCounts
  rw [State.set_obs, State.put_obs, State.set_obs]

/-- The end of the analysis is DONE, and frees the unit (R142, R143). -/
theorem State.sndReport_spec (h : (s.sounding (dieOf n)).unitOf n = some i) :
    (s.sndReport n i).get (OBS_SND_STAT_STATE n) = 4 ∧ ((s.sndReport n i).sounding (dieOf n)).unit i = none ∧
      (s.sndReport n i).get (OBS_SND_STAT_UNIT n) = s.get (OBS_SND_STAT_UNIT n) := by
  obtain ⟨w, x, y, z, a, b, hw, heq⟩ := s.sndReport_eq n i
  let v := w.showCounts n x y z
  have hobs : v.obs = s.obs := (State.obs_showCounts ..).trans (hw.obs_eq (by decide))
  have hleave : (v.sndLeave n).get (OBS_SND_STAT_UNIT n) = v.get (OBS_SND_STAT_UNIT n) := State.get_setSounding ..
  rw [heq]
  refine ⟨?_, ?_, ?_⟩
  · rw [State.get_obsCause _ _ _ _ _ (Loc.observed_of_port rfl)]
    exact State.get_set_fits ..
  · rw [State.sounding_of_obs (State.obs_obsCause ..), State.sounding_set]
    exact State.unit_sndLeave n ((congrArg (·.unitOf n) (State.sounding_of_obs hobs _)).trans h)
  · rw [State.get_obsCause _ _ _ _ _ (Loc.observed_of_port rfl), State.get_set_apart _ _ _ _ (Loc.apart_of_bits rfl),
      hleave, State.unit_showCounts, hw.sndStat]

theorem execSoundingAnalysisDone_add {n : PortNo} {recs : List (List Int)} (h : (s.sounding (dieOf n)).unitOf n = some i)
    (hs : s.get (OBS_SND_STAT_STATE n) = 2) (hne : recs ≠ []) (hlen : ∀ r ∈ recs, r.length = 256)
    (hfew : ((s.sounding (dieOf n)).trace i).count + recs.length ≤ ((s.sounding (dieOf n)).trace i).whole) :
    execSoundingAnalysisDone n recs s = .next (s.sndAdd n i recs) := by
  have hall : recs.all (·.length == 256) = true := List.all_eq_true.mpr fun r hr => beq_iff_eq.mpr (hlen r hr)
  simp [execSoundingAnalysisDone, h, hs, hne, hall, hfew]

theorem execSoundingAnalysisDone_end {n : PortNo} (h : (s.sounding (dieOf n)).unitOf n = some i)
    (hs : s.get (OBS_SND_STAT_STATE n) = 3) : execSoundingAnalysisDone n [] s = .next (s.sndReport n i) := by
  simp [execSoundingAnalysisDone, h, hs]

theorem execSoundingTimeout_eq {n : PortNo} {m t0 : Nat} (h : (s.sounding (dieOf n)).unitOf n = some i)
    (hu : (s.sounding (dieOf n)).unit i = some (m, t0)) (hs : s.get (OBS_SND_STAT_STATE n) = 2)
    (hdue : t0 + 500000000 ≤ s.ticks) : execSoundingTimeout n s = .next (s.sndEnd n 6) := by
  simp [execSoundingTimeout, h, hu, hs, hdue]

end

/-! ## Census decisions (R145, R146, R148) -/

section

variable {s t : State} {n k st v : Nat} {w : Option Nat} {l : Loc}

/-- A stamp is two words. -/
theorem State.get_setStamp (s : State) (v : Nat) {a : Nat} (h : l.addr ≠ a) (h' : l.addr ≠ a + 4) (hl : l.lo + l.len ≤ 32) :
    (s.setStamp a v).get l = s.get l := by
  refine State.get_congr ?_ fun hw => absurd hl (by omega)
  rw [State.setStamp, State.word_setWord64, if_neg h', if_neg h]

/-- A field that the registers of a decision lie beside: it takes no part in the stamp of slot `k`, in its STATUS or in the
STATE of the capture. -/
structure BesideStatus (n k : Nat) (l : Loc) : Prop where
  observed : l.observed
  capture : (OBS_CAP_STAT_STATE n).apart l
  status : (OBS_CEN_RES_STATUS n k).apart l
  stamp : l.addr ≠ (OBS_CEN_RES_W n k 2).addr ∧ l.addr ≠ (OBS_CEN_RES_W n k 2).addr + 4

/-- The fields that the decision of slot `k` goes by. -/
def basisFields (n k : Nat) : List Loc :=
  [OBS_CFG_NSLOT n, OBS_CFG_DWELL n, OBS_CEN_RES_SILENCE n k, OBS_CEN_RES_PREV n k]

/-- A field of a register of the port before those of the slots. -/
theorem besideStatus_of_port {c : Nat} (k : Nat) (hl : l.addr = c + 0x1000 * (n % 128))
    (hw : l.lo + l.len ≤ 32 := by exact of_decide_eq_true rfl)
    (hc : 0x01800000 ≤ c ∧ c < 0x01800400 ∧ c ≠ 0x01800304 := by decide) : BesideStatus n k l := by
  obtain ⟨hc, hc', hcap⟩ := hc
  refine ⟨⟨by omega, by omega, hw⟩, Loc.apart_of_addr (of_decide_eq_true rfl) hw ?_,
    Loc.apart_of_addr (of_decide_eq_true rfl) hw ?_, ?_, ?_⟩ <;>
    simp only [hl, OBS_CAP_STAT_STATE, OBS_CEN_RES_STATUS, OBS_CEN_RES_W] <;> omega

theorem basisFields_beside (h : l ∈ basisFields n k) : BesideStatus n k l ∧ (OBS_CEN_STAT_SLOT n).apart l := by
  simp only [basisFields, List.mem_cons, List.not_mem_nil, or_false] at h
  rcases h with rfl | rfl | rfl | rfl
  case inl => exact ⟨besideStatus_of_port k rfl, Loc.apart_of_port rfl rfl⟩
  case inr.inl => exact ⟨besideStatus_of_port k rfl, Loc.apart_of_port rfl rfl⟩
  case inr.inr.inl =>
    refine ⟨⟨⟨?_, ?_, of_decide_eq_true rfl⟩, Loc.apart_of_addr (of_decide_eq_true rfl) (of_decide_eq_true rfl) ?_,
      Loc.apart_of_addr (of_decide_eq_true rfl) (of_decide_eq_true rfl) ?_, ?_, ?_⟩,
      Loc.apart_of_addr (of_decide_eq_true rfl) (of_decide_eq_true rfl) ?_⟩ <;>
      simp only [OBS_CEN_RES_SILENCE, OBS_CAP_STAT_STATE, OBS_CEN_RES_STATUS, OBS_CEN_RES_W, OBS_CEN_STAT_SLOT] <;> omega
  case inr.inr.inr =>
    refine ⟨⟨⟨?_, ?_, of_decide_eq_true rfl⟩, Loc.apart_of_addr (of_decide_eq_true rfl) (of_decide_eq_true rfl) ?_,
      Loc.apart_of_bits rfl, ?_, ?_⟩, Loc.apart_of_addr (of_decide_eq_true rfl) (of_decide_eq_true rfl) ?_⟩ <;>
      simp only [OBS_CEN_RES_PREV, OBS_CAP_STAT_STATE, OBS_CEN_RES_W, OBS_CEN_STAT_SLOT] <;> omega

/-- What the decision of slot `k` goes by is the same in two states. -/
structure SameBasis (n k : Nat) (s t : State) : Prop where
  field : ∀ l ∈ basisFields n k, t.get l = s.get l
  census : (t.obsPort n).census = (s.obsPort n).census

theorem SameBasis.trans {u : State} (h : SameBasis n k s t) (h' : SameBasis n k t u) : SameBasis n k s u :=
  ⟨fun l hl => (h'.field l hl).trans (h.field l hl), h'.census.trans h.census⟩

theorem SameBasis.seen (h : SameBasis n k s t) (j : Nat) : t.seen n j = s.seen n j := by
  unfold State.seen
  rw [show (t.obsPort n).seen = (s.obsPort n).seen from congrArg (·.2) h.census]

theorem SameBasis.nslot (h : SameBasis n k s t) : t.get (OBS_CFG_NSLOT n) = s.get (OBS_CFG_NSLOT n) :=
  h.field _ (by simp [basisFields])

theorem SameBasis.cenBase (h : SameBasis n k s t) : t.cenBase n k = s.cenBase n k := by
  have hstart : (t.obsPort n).cenStart = (s.obsPort n).cenStart := congrArg (·.1) h.census
  have hdwell := h.field (OBS_CFG_DWELL n) (by simp [basisFields])
  have hsilence := h.field (OBS_CEN_RES_SILENCE n k) (by simp [basisFields])
  have hprev := h.field (OBS_CEN_RES_PREV n k) (by simp [basisFields])
  unfold State.cenBase State.cenTime
  rw [hstart, hdwell, hsilence, hprev, h.seen]

/-- SLOT moves on. -/
theorem State.setSlot_basis (s : State) (n k v : Nat) : SameBasis n k s (s.set (OBS_CEN_STAT_SLOT n) v) :=
  ⟨fun _ hl => State.get_set_apart _ _ _ _ (basisFields_beside hl).2, by rw [State.obsPort_set]⟩

/-- A slot shows a status and its time. -/
def State.showStatus (s : State) (n k st : Nat) (w : Option Nat) : State :=
  (s.set (OBS_CEN_RES_STATUS n k) st).setStamp (OBS_CEN_RES_W n k 2).addr (w.getD 0)

theorem State.get_showStatus (s : State) (h : BesideStatus n k l) : (s.showStatus n k st w).get l = s.get l := by
  unfold State.showStatus
  rw [State.get_setStamp _ _ h.stamp.1 h.stamp.2 h.observed.2.2, State.get_set_apart _ _ _ _ h.status]

theorem State.status_setStamp (s : State) (n k v : Nat) :
    (s.setStamp (OBS_CEN_RES_W n k 2).addr v).get (OBS_CEN_RES_STATUS n k) = s.get (OBS_CEN_RES_STATUS n k) := by
  refine State.get_setStamp _ _ ?_ ?_ (of_decide_eq_true rfl) <;> simp only [OBS_CEN_RES_STATUS, OBS_CEN_RES_W] <;> omega

/-- What a new status sets off: a trigger, when it differs from the one before, and a cause, when it differs from the status in
the census before (R148, R149). -/
theorem State.cenStatus_eq (s : State) (n k st : Nat) (w : Option Nat) :
    ∃ b, s.cenStatus n k st w = (s.showStatus n k st w).when b (fun s => s.capTrigger n 4) ∨
      ∃ c, s.cenStatus n k st w = ((s.showStatus n k st w).when b fun s => s.capTrigger n 4).obsCause n c k 0 := by
  refine ⟨s.get (OBS_CEN_RES_STATUS n k) != st, ?_⟩
  unfold State.cenStatus
  dsimp only
  split
  · exact .inl rfl
  · split
    iterate 4 exact .inr ⟨_, rfl⟩
    exact .inl rfl

/-- These leave the registers of a decision alone. -/
theorem State.get_cenStatus (s : State) (n k st : Nat) (w : Option Nat) (ho : l.observed) (hc : (OBS_CAP_STAT_STATE n).apart l) :
    (s.cenStatus n k st w).get l = (s.showStatus n k st w).get l := by
  have hwhen (u : State) (b : Bool) : (u.when b fun s => s.capTrigger n 4).get l = u.get l := by
    cases b with
    | true => exact u.get_capTrigger n 4 hc
    | false => rfl
  obtain ⟨b, e | ⟨c, e⟩⟩ := s.cenStatus_eq n k st w <;> rw [e]
  · exact hwhen _ b
  · rw [State.get_obsCause _ _ _ _ _ ho, hwhen]

theorem State.census_cenStatus (s : State) (n k st : Nat) (w : Option Nat) :
    ((s.cenStatus n k st w).obsPort n).census = (s.obsPort n).census := by
  have hshow : ((s.showStatus n k st w).obsPort n).census = (s.obsPort n).census := by
    rw [State.showStatus, State.obsPort_setStamp, State.obsPort_set]
  have hwhen (u : State) (b : Bool) : ((u.when b fun s => s.capTrigger n 4).obsPort n).census = (u.obsPort n).census := by
    cases b with
    | true => exact u.census_capTrigger n 4 n
    | false => rfl
  obtain ⟨b, e | ⟨c, e⟩⟩ := s.cenStatus_eq n k st w <;> rw [e]
  · exact (hwhen _ b).trans hshow
  · rw [State.obsPort_of_obs (State.obs_obsCause ..), hwhen, hshow]

theorem State.cenStatus_basis (s : State) (n k st : Nat) (w : Option Nat) : SameBasis n k s (s.cenStatus n k st w) := by
  refine ⟨fun l hl => ?_, s.census_cenStatus n k st w⟩
  have h := (basisFields_beside hl).1
  rw [State.get_cenStatus _ _ _ _ _ h.observed h.capture, State.get_showStatus _ h]

theorem State.cenStatus_status (s : State) (n k : Nat) (w : Option Nat) (hst : st < 8) :
    (s.cenStatus n k st w).get (OBS_CEN_RES_STATUS n k) = st := by
  have ha : (OBS_CEN_RES_STATUS n k).addr = 0x01800404 + 0x1000 * (n % 128) + 0x10 * (k % 32) := rfl
  rw [State.get_cenStatus _ _ _ _ _ ⟨by omega, by omega, of_decide_eq_true rfl⟩
    (Loc.apart_of_addr (of_decide_eq_true rfl) (of_decide_eq_true rfl) (by rw [ha]; simp only [OBS_CAP_STAT_STATE]; omega)),
    State.showStatus, State.status_setStamp]
  exact State.get_set_fits _ _ hst

/-! ### The status at the decision time -/

theorem State.cenBase_unseen (h : s.seen n k = []) : s.cenBase n k = (3, none) := by
  simp [State.cenBase, h]

theorem State.cenBase_present {u : Nat} {us : List Nat} (h : s.seen n k = u :: us) (hu : u ≤ s.cenTime n k)
    (hs : s.cenTime n k ≤ u + s.get (OBS_CEN_RES_SILENCE n k) * 1000000) :
    s.cenBase n k = (let p := s.get (OBS_CEN_RES_PREV n k); if p = 3 ∨ p = 4 ∨ p = 5 then 2 else 1, some u) := by
  simp [State.cenBase, h, hu, hs, or_assoc]

/-- No later frame makes a slot LATE that was never seen. -/
theorem State.cenResult_unseen (h : s.seen n k = []) : s.cenResult n k = s.cenBase n k := by
  simp [State.cenResult, h]

/-- Nor one that is PRESENT or ARRIVED (R146). -/
theorem State.cenResult_present (h : s.cenBase n k = (st, w)) (h3 : st ≠ 3) (h4 : st ≠ 4) : s.cenResult n k = (st, w) := by
  unfold State.cenResult
  rw [h]
  extract_lets late
  split
  next e _ => exact absurd (congrArg (·.1) e) h3
  next e _ => exact absurd (congrArg (·.1) e) h4
  next => rfl

/-- A slot that no later frame can make LATE shows its status at its decision time, and SLOT moves on (R145). -/
theorem State.cenDecide_spec (hk : k < 31) (hb : s.cenBase n k = (st, w)) (hst : st < 8)
    (hlate : s.seen n k = [] ∨ (st ≠ 3 ∧ st ≠ 4)) :
    (s.cenDecide n k).get (OBS_CEN_RES_STATUS n k) = st ∧ (s.cenDecide n k).get (OBS_CEN_STAT_SLOT n) = k + 1 ∧
      (s.cenDecide n k).get (OBS_CFG_NSLOT n) = s.get (OBS_CFG_NSLOT n) := by
  let a := s.set (OBS_CEN_STAT_SLOT n) ((k + 1) % 32)
  let b := a.cenStatus n k st w
  have ha : SameBasis n k s a := s.setSlot_basis n k _
  have hb' : SameBasis n k s b := ha.trans (a.cenStatus_basis n k st w)
  have hstatus : b.get (OBS_CEN_RES_STATUS n k) = st := a.cenStatus_status n k w hst
  have hresult : b.cenResult n k = (st, w) := by
    have hbase := hb'.cenBase.trans hb
    rcases hlate with h | ⟨h3, h4⟩
    · exact (State.cenResult_unseen ((hb'.seen k).trans h)).trans hbase
    · exact State.cenResult_present hbase h3 h4
  have hdecide : s.cenDecide n k = b.setStamp (OBS_CEN_RES_W n k 2).addr (w.getD 0) := by
    unfold State.cenDecide
    dsimp only
    rw [ha.cenBase, hb]
    dsimp only
    rw [State.cenSettle, hresult]
    exact if_pos hstatus
  have hport {l : Loc} (h : BesideStatus n k l) : (s.cenDecide n k).get l = a.get l := by
    rw [hdecide, State.get_setStamp _ _ h.stamp.1 h.stamp.2 h.observed.2.2,
      State.get_cenStatus _ _ _ _ _ h.observed h.capture, State.get_showStatus _ h]
  refine ⟨?_, ?_, ?_⟩
  · rw [hdecide, State.status_setStamp, hstatus]
  · rw [hport (besideStatus_of_port k rfl), State.get_set_self _ _ _ (of_decide_eq_true rfl)]
    show (k + 1) % 32 % 32 = k + 1
    omega
  · rw [hport (besideStatus_of_port k rfl)]
    exact ha.nslot

/-- The next slot of a running census is decided at its time; the census goes on with another slot. -/
theorem execCensusSlotDecision_eq {n : PortNo} {k : Fin 32} (hcen : s.get (OBS_STAT_CEN n) = 1)
    (hslot : s.get (OBS_CEN_STAT_SLOT n) = k) (hmore : k.val + 1 < s.get (OBS_CFG_NSLOT n)) (htime : s.cenTime n k ≤ s.now)
    (hrec : s.receivingFrom n (s.cenTime n k) = false)
    (hn : (s.cenDecide n k).get (OBS_CFG_NSLOT n) = s.get (OBS_CFG_NSLOT n)) :
    execCensusSlotDecision n k s = .next (s.cenDecide n k) := by
  have hlt : k.val < s.get (OBS_CFG_NSLOT n) := by omega
  have hne : ¬ k.val + 1 = s.get (OBS_CFG_NSLOT n) := by omega
  simp [execCensusSlotDecision, State.cenRuns, hcen, hslot, hlt, htime, hrec, hn, hne]

end

/-! ## Specimen packets (R149 to R151) -/

section

variable {s : State} {n : Nat} {p : Packet}

/-- A capture that runs takes samples behind those it has. -/
theorem State.capFeed_running (s : State) {n : Nat} (p : Packet) (h : s.get (OBS_CAP_STAT_STATE n) ≠ 1) :
    ((s.capFeed n p).obsPort n).capBuf = (s.obsPort n).capBuf ++ samplesOf (s.get (OBS_CAP_CFG_DEC n)) p ∧
      ((s.capFeed n p).obsPort n).capLeft = (s.obsPort n).capLeft ∧
      ((s.capFeed n p).obsPort n).capStop = (s.obsPort n).capStop := by
  simp [State.capFeed, h]

theorem length_samplesOf (d : Nat) (p : Packet) : (samplesOf d p).length = p.volts.length / 2 ^ d := by
  simp [samplesOf]

/-- With a whole group of converter samples there is a packet to send. -/
theorem State.nextPacket_ne_nil (hs : s.get (OBS_CAP_STAT_STATE n) ≠ 1)
    (hlen : 2 ^ s.get (OBS_CAP_CFG_DEC n) ≤ p.volts.length)
    (hleft : s.get (OBS_CAP_CFG_MODE n) = 2 → 0 < (s.obsPort n).capLeft) : (s.capFeed n p).nextPacket n ≠ [] := by
  obtain ⟨hbuf, hl, -⟩ := s.capFeed_running p hs
  have hpos : 0 < p.volts.length / 2 ^ s.get (OBS_CAP_CFG_DEC n) := Nat.div_pos hlen (Nat.two_pow_pos _)
  have hmode : (s.capFeed n p).get (OBS_CAP_CFG_MODE n) = s.get (OBS_CAP_CFG_MODE n) := rfl
  rw [← List.length_pos_iff, State.nextPacket, List.length_take, hbuf, hl, hmode, List.length_append, length_samplesOf]
  split
  next h => have := hleft h; omega
  next => omega

theorem execSpecimenPacket_eq {n : PortNo} (h2 : 2 ≤ s.get (OBS_CAP_STAT_STATE n)) (hfe : s.frontEnd n = true)
    (hlen : 2 ^ s.get (OBS_CAP_CFG_DEC n) ≤ p.volts.length)
    (hleft : s.get (OBS_CAP_CFG_MODE n) = 2 → 0 < (s.obsPort n).capLeft) :
    execSpecimenPacket n p s = .next ((s.capFeed n p).packet n ((s.capFeed n p).nextPacket n) p.full) := by
  have hne := State.nextPacket_ne_nil (s := s) (n := n) (p := p) (by omega) hlen hleft
  have hstate : ¬ (s.capFeed n p).get (OBS_CAP_STAT_STATE n) < 2 := Nat.not_lt.mpr h2
  have hrun : (s.capFeed n p).capRun n p.full = (s.capFeed n p).packet n ((s.capFeed n p).nextPacket n) p.full := by
    simp [State.capRun, hstate, hne]
  rw [← hrun, execSpecimenPacket, if_neg (by omega), hfe, Bool.true_or, if_pos rfl]

/-- Every packet counts SEQ on (R150). -/
theorem State.packet_seq (s : State) (n : Nat) (xs : List CapSample) (full : Bool) :
    (s.packet n xs full).get (OBS_CAP_SEQ_SEQ n) = (s.get (OBS_CAP_SEQ_SEQ n) + 1) % 2 ^ 32 := by
  unfold State.packet
  dsimp only
  rw [State.get_set_apart _ _ _ _ (Loc.apart_of_port rfl rfl), State.get_modObs]
  exact State.get_set_fits _ _ (Nat.mod_lt _ (by decide))

/-- A packet of a stream that does not run is dropped and counted, and the capture is in NOLANE (R150, R151). -/
theorem State.packet_dropped (xs : List CapSample) (full : Bool) (hrun : s.capStream n = false)
    (hstop : (s.obsPort n).capStop = false) (hmode : s.get (OBS_CAP_CFG_MODE n) = 1) :
    (s.packet n xs full).get (OBS_CAP_STAT_STATE n) = 3 ∧
      (s.packet n xs full).get (OBS_CAP_CNT_DROP n) = min (s.get (OBS_CAP_CNT_DROP n) + 1) (2 ^ 16 - 1) ∧
      (s.packet n xs full).out = s.out := by
  refine ⟨?_, ?_, (State.packet_only .refl (Sub.refl _)).out.resolve_left (by decide)⟩ <;>
    simp only [State.packet, hrun, hstop, hmode, Bool.false_and, Bool.false_eq_true, if_false]
  · exact State.get_set_fits ..
  · have hcount (u : State) (a b c : Nat) : (u.countPerMs a b c).get (OBS_CAP_CNT_DROP n) = u.get (OBS_CAP_CNT_DROP n) :=
      (State.countPerMs_only .refl (Sub.refl _)).observed (Loc.observed_of_port rfl)
    rw [State.get_set_apart _ _ _ _ (Loc.apart_of_port rfl rfl), State.get_modObs,
      State.get_set_apart _ _ _ _ (Loc.apart_of_port rfl rfl), hcount, State.get_modObs,
      State.get_inc_self _ _ (of_decide_eq_true rfl), State.get_add_apart _ _ _ _ (Loc.apart_of_bits rfl)]
    rfl

end

end Sys2Proof.Machine

end

section

set_option Elab.async false

open Sys2Proof Sys2Proof.Machine

/-- Settles O30: soundings, census decisions and specimen packets, each by what its function leaves in the registers and in the
hidden half (`unitTakes_spec`, `sndAdd_spec`, `sndReport_spec`, `sndEnd_spec`, `cenDecide_spec`, `packet_seq`,
`packet_dropped`). -/
theorem soundingCensusCapture : Obligations.SoundingCensusCapture := by
  refine ⟨⟨fun s d t0 n i rest hq _ hi hfree hlow => ?start, fun s n i hu => ⟨fun hs => ?discard,
      fun recs hs hne hlen hfew => ?add, fun hs => ?done, fun m t0 hunit hs hdue => ?timeout⟩⟩,
    fun s n k hcen hslot hmore hmax htime hrec => ⟨fun hseen => ?unseen, fun u us hseen hu hrecent => ?seen⟩,
    fun s n p h2 => ⟨fun hfe hlen hleft => ⟨?seq, fun hrun hstop hmode => ?dropped⟩, fun hfe hstop => ?stopped⟩⟩
  case start =>
    refine ⟨_, execSoundingUnitStart_eq hq hi hfree hlow, ?_⟩
    obtain ⟨hunit, hqueue, hstate, hno, htrace, hacc⟩ := s.unitTakes_spec d n hi rest
    rw [State.sounding_capTrigger, State.get_capTrigger _ _ _ (Loc.apart_of_port rfl rfl),
      State.get_capTrigger _ _ _ (Loc.apart_of_port rfl rfl)]
    refine ⟨hunit, hqueue, hstate, hno, htrace, fun j _ => ?_⟩
    rw [State.get_capTrigger _ _ _ (capState_apart_trace ..), hacc]
  case discard => exact ⟨_, rfl, State.waiting_discardRecord hu hs, s.discardRecord_writes n⟩
  case add =>
    have h := s.sndAdd_spec n i recs
    rw [hs] at h
    exact ⟨_, execSoundingAnalysisDone_add hu hs hne hlen hfew, h⟩
  case done => exact ⟨_, execSoundingAnalysisDone_end hu hs, State.sndReport_spec hu⟩
  case timeout =>
    obtain ⟨hstate, hsound⟩ := State.sndEnd_spec (s := s) (n := n) (st := 6) (by decide)
    exact ⟨_, execSoundingTimeout_eq hu hunit hs hdue, hstate, by rw [hsound, State.unit_sndLeave _ hu]⟩
  case unseen =>
    obtain ⟨hstatus, hnext, hn⟩ :=
      State.cenDecide_spec (n := n) (k := k) (by omega) (State.cenBase_unseen hseen) (by decide) (.inl hseen)
    exact ⟨_, execCensusSlotDecision_eq hcen hslot hmore htime hrec hn, hstatus, hnext⟩
  case seen =>
    have hbase := State.cenBase_present hseen hu hrecent
    obtain ⟨hstatus, hnext, hn⟩ :=
      State.cenDecide_spec (n := n) (k := k) (by omega) hbase (by dsimp only; split <;> decide)
        (.inr (by dsimp only; split <;> decide))
    exact ⟨_, execCensusSlotDecision_eq hcen hslot hmore htime hrec hn, hnext, hstatus⟩
  case seq => exact ⟨_, execSpecimenPacket_eq h2 hfe hlen hleft, State.packet_seq ..⟩
  case dropped =>
    have hfeed : ((s.capFeed n p).obsPort n).capStop = false := by
      rw [(s.capFeed_running p (by omega)).2.2, hstop]
    exact ⟨_, execSpecimenPacket_eq h2 hfe hlen hleft, State.packet_dropped _ _ hrun hfeed hmode⟩
  case stopped =>
    have hne : s.get (OBS_CAP_STAT_STATE n) ≠ 0 := by omega
    exact ⟨s, by simp [execSpecimenPacket, hne, hfe, hstop], rfl⟩

end

/-! # Message operations: descriptor writes, doorbell commands, selection and monitors (O31, O32, O33) -/

section

namespace Sys2Proof.Machine

/-! ## Fields of descriptors (R161) -/

/-- A field within one word of a descriptor. -/
def Loc.described (l : Loc) : Prop := 0x02400000 ≤ l.addr ∧ l.addr < 0x02600000 ∧ l.lo + l.len ≤ 32

/-- What the operations on a slot that carries no gateway copy change beside descriptors. -/
def besideDescParts : List Part :=
  raiseParts ++ hallParts ++ fspParts ++
    [.store, .ports, .cores, .resp, .MOP_ERR, .MOP_ERR_SLOT, .MOP_POOL_STAT, .MOP_POOL_CNT, .MOP_PORTQ, .MOP_PORTHEAD]

/-- The set of `besideDescParts`. -/
abbrev besideDesc : Nat := maskOf besideDescParts

theorem besideDesc_away : awayIn besideDesc 0x02400000 0x02600000 = true := by decide +kernel

section

variable {s t : State} {k c c' : Nat} {a l : Loc}

/-- A field of slot `k`'s descriptor. -/
theorem Loc.described_of_slot (hl : l.addr = c + 0x20 * (k % 65536))
    (hc : 0x02400000 ≤ c ∧ c < 0x02400020 := by decide) (hw : l.lo + l.len ≤ 32 := by exact of_decide_eq_true rfl) :
    l.described :=
  ⟨by omega, by omega, hw⟩

/-- Two fields of different words of one descriptor. -/
theorem Loc.apart_of_slot (ha : a.addr = c + 0x20 * (k % 65536)) (hl : l.addr = c' + 0x20 * (k % 65536))
    (hc : c ≠ c' := by decide) (hwa : a.lo + a.len ≤ 32 := by exact of_decide_eq_true rfl)
    (hwl : l.lo + l.len ≤ 32 := by exact of_decide_eq_true rfl) : a.apart l :=
  Loc.apart_of_addr hwa hwl (by omega)

theorem OnlyM.described (h : OnlyM besideDesc s t) (hl : l.described) : t.get l = s.get l := by
  obtain ⟨hlo, hhi, hw⟩ := hl
  exact h.getAway l (awayIn_spec besideDesc_away hlo hhi) (.inl hw)

theorem OnlyM.describedFlag (h : OnlyM besideDesc s t) (hl : l.described) : t.flag l = s.flag l :=
  congrArg (decide <| · = 1) (h.described hl)

theorem OnlyM.descWord (h : OnlyM besideDesc s t) (k j : Nat) :
    t.word (MOP_DESC_W k j).addr = s.word (MOP_DESC_W k j).addr :=
  h.word _ (awayIn_spec besideDesc_away (by simp only [MOP_DESC_W]; omega) (by simp only [MOP_DESC_W]; omega))

/-- A gateway copy stays in its slot. -/
theorem OnlyM.copyOf (h : OnlyM (maskOf (.MOP_DESC :: besideDescParts)) s t) : t.copyOf k = s.copyOf k := by
  unfold State.copyOf
  rw [h.gw.resolve_left (by decide)]

/-- Two slots whose numbers agree modulo the number of slots have one descriptor. -/
theorem desc_congr {d : Nat} (h : d % 65536 = k % 65536) : MOP_DESC_STATE d = MOP_DESC_STATE k ∧ MOP_DESC_CODE d = MOP_DESC_CODE k := by
  simp only [MOP_DESC_STATE, MOP_DESC_CODE, h, and_self]

end

/-! ## States of slots (R163) -/

section

variable (s : State) (k st : Nat) {l : Loc}

/-- Beside the STATE of its slot a move changes the counters of pools and ports alone. -/
theorem State.setSlotState_counts : OnlyM besideDesc (s.set (MOP_DESC_STATE k) st) (s.setSlotState k st) := by
  have hfree (p v : Nat) :
      OnlyM besideDesc (s.set (MOP_DESC_STATE k) st) ((s.set (MOP_DESC_STATE k) st).set (MOP_POOL_STAT_FREE p) v) :=
    State.set_only (MOP_POOL_STAT_FREE_holds p) .refl (by decide)
  unfold State.setSlotState
  dsimp only
  split
  next => exact .refl
  next =>
    split
    · exact State.inc_only (MOP_PORTQ_NQ_holds _) (hfree ..) (by decide)
    · split
      · exact State.set_only (MOP_PORTQ_NQ_holds _) (hfree ..) (by decide)
      · exact hfree ..

theorem State.get_setSlotState (hl : l.described) (ha : (MOP_DESC_STATE k).apart l) : (s.setSlotState k st).get l = s.get l :=
  ((s.setSlotState_counts k st).described hl).trans (State.get_set_apart _ _ _ _ ha)

theorem State.flag_setSlotState (hl : l.described) (ha : (MOP_DESC_STATE k).apart l) :
    (s.setSlotState k st).flag l = s.flag l :=
  congrArg (decide <| · = 1) (s.get_setSlotState k st hl ha)

end

/-! ## Completions (R164, R172, R173) -/

/-- The fields of a descriptor that a completion sets: STATE, CODE, and words 6 and 7 (R164, R178). -/
def State.endFields (s : State) (k st code : Nat) (stamp : Option (Word × Word)) : State :=
  let s := (s.setSlotState k st).set (MOP_DESC_CODE k) code
  match stamp with
  | some (ns, sec) => (s.setWord (MOP_DESC_W k 6).addr ns).setWord (MOP_DESC_W k 7).addr sec
  | none =>
    if s.flag (MOP_DESC_DL_EN k) then s
    else (s.setWord (MOP_DESC_W k 6).addr 0).setWord (MOP_DESC_W k 7).addr 0

/-- The descriptor of slot `k` shows a completion. -/
def State.completedAs (s : State) (k st code : Nat) : Prop := s.get (MOP_DESC_STATE k) = st ∧ s.get (MOP_DESC_CODE k) = code

section

variable (s : State) {t : State} (k : Nat) {d st code : Nat} (stamp : Option (Word × Word)) {l : Loc}

/-- What else a completion does, it does beside descriptors. -/
theorem State.endSlot_after : OnlyM besideDesc (s.endFields k st code stamp) (s.endSlot k st code stamp) := by
  unfold State.endSlot
  extract_lets s1 s2 store s3 s4
  have h3 : OnlyM besideDesc (s.endFields k st code stamp) s3 :=
    { (OnlyM.refl : OnlyM besideDesc s2 s2) with words := fun _ _ => rfl, store := .inl rfl, keeps := Keeps.upd .rfl }
  have h4 : OnlyM besideDesc (s.endFields k st code stamp) s4 := State.modSlot_only h3 (Sub.of_within (by decide))
  clear_value s4
  split
  next => exact h4
  next p _ =>
    have h5 (x : Nat) : OnlyM besideDesc (s.endFields k st code stamp) ((s4.countCompletion p st code).post k p code x 0) :=
      State.post_only (State.countCompletion_only h4 (Sub.of_within (by decide))) (Sub.of_within (by decide))
    exact OnlyM.ite (State.zeroBuf_only (h5 _) (Sub.of_within (by decide))) (h5 _)

theorem State.get_endFields (h6 : l.addr ≠ (MOP_DESC_W k 6).addr) (h7 : l.addr ≠ (MOP_DESC_W k 7).addr) (hw : l.lo + l.len ≤ 32) :
    (s.endFields k st code stamp).get l = ((s.setSlotState k st).set (MOP_DESC_CODE k) code).get l := by
  have hset (u : State) (x y : Word) : ((u.setWord (MOP_DESC_W k 6).addr x).setWord (MOP_DESC_W k 7).addr y).get l = u.get l :=
    State.get_congr (by rw [State.word_setWord, if_neg h7, State.word_setWord, if_neg h6]) (by omega)
  unfold State.endFields
  dsimp only
  split
  · exact hset ..
  · split
    · rfl
    · exact hset ..

/-- A field that is neither STATE nor CODE nor in words 6 and 7 of the slot stays. -/
theorem State.get_endSlot (hl : l.described) (hst : (MOP_DESC_STATE k).apart l) (hcode : (MOP_DESC_CODE k).apart l)
    (h6 : l.addr ≠ (MOP_DESC_W k 6).addr) (h7 : l.addr ≠ (MOP_DESC_W k 7).addr) :
    (s.endSlot k st code stamp).get l = s.get l := by
  rw [(s.endSlot_after k stamp).described hl, s.get_endFields k stamp h6 h7 hl.2.2, State.get_set_apart _ _ _ _ hcode,
    s.get_setSlotState k st hl hst]

theorem State.endSlot_completed (hst : st < 8) (hcode : code < 256) : (s.endSlot k st code stamp).completedAs k st code := by
  have hoff {l : Loc} (hl : l.addr = 0x02400000 + 0x20 * (k % 65536)) :
      l.addr ≠ (MOP_DESC_W k 6).addr ∧ l.addr ≠ (MOP_DESC_W k 7).addr := by
    simp only [MOP_DESC_W]; omega
  have h := s.endSlot_after (st := st) (code := code) k stamp
  constructor
  · rw [h.described (Loc.described_of_slot rfl), s.get_endFields k stamp (hoff rfl).1 (hoff rfl).2 (of_decide_eq_true rfl),
      State.get_set_apart _ _ _ _ (Loc.apart_of_bits rfl), State.setSlotState_desc _ _ hst]
  · rw [h.described (Loc.described_of_slot rfl), s.get_endFields k stamp (hoff rfl).1 (hoff rfl).2 (of_decide_eq_true rfl)]
    exact State.get_set_fits _ _ hcode

/-- The completion of a slot leaves the STATE and the CODE of every other slot. -/
theorem State.completedAs_endSlot_ne {x c : Nat} (h : k % 65536 ≠ d % 65536) (hs : s.completedAs d x c) :
    (s.endSlot k st code stamp).completedAs d x c := by
  have hfar {l : Loc} (hl : l.addr = 0x02400000 + 0x20 * (d % 65536)) (hw : l.lo + l.len ≤ 32 := by exact of_decide_eq_true rfl) :
      (s.endSlot k st code stamp).get l = s.get l := by
    refine s.get_endSlot k stamp (Loc.described_of_slot hl (hw := hw)) ?_ ?_ ?_ ?_
    · exact Loc.apart_of_addr (of_decide_eq_true rfl) hw (by simp only [MOP_DESC_STATE]; omega)
    · exact Loc.apart_of_addr (of_decide_eq_true rfl) hw (by simp only [MOP_DESC_CODE]; omega)
    · simp only [MOP_DESC_W]; omega
    · simp only [MOP_DESC_W]; omega
  exact ⟨(hfar rfl).trans hs.1, (hfar rfl).trans hs.2⟩

/-- Once a slot shows a completion, a further one of the same kind, of whatever slot, leaves it so. -/
theorem State.completedAs.endSlot {s : State} {k : Nat} (h : s.completedAs k st code) (d : Nat) (hst : st < 8) (hcode : code < 256) :
    (s.endSlot d st code stamp).completedAs k st code := by
  by_cases hd : d % 65536 = k % 65536
  · have hnew := s.endSlot_completed d stamp hst hcode
    unfold State.completedAs at hnew ⊢
    rwa [(desc_congr hd).1, (desc_congr hd).2] at hnew
  · exact s.completedAs_endSlot_ne d stamp hd h

theorem State.completedAs.beside {s t : State} {k : Nat} (h : s.completedAs k st code) (ho : OnlyM besideDesc s t) :
    t.completedAs k st code :=
  ⟨(ho.described (Loc.described_of_slot rfl)).trans h.1, (ho.described (Loc.described_of_slot rfl)).trans h.2⟩

theorem State.gatewayEnd_eq_self {s : State} {k : Nat} {b : Bool} (h : s.copyOf k = none) : s.gatewayEnd k code b = s := by
  unfold State.copyOf at h
  simp only [State.gatewayEnd, h]

/-- A request that carries no gateway copy completes in its slot (R164). -/
theorem State.completeTx_completed {s : State} {k : Nat} (hst : st < 8) (hcode : code < 256) (hcopy : s.copyOf k = none)
    (sent : Option Nat) : (s.completeTx k st code sent).completedAs k st code := by
  unfold State.completeTx
  extract_lets submitted w dups s1 r s2 n s3
  have h1 : s1.completedAs k st code :=
    (s.endSlot_completed k w hst hcode).beside (State.tagDone_only .refl (Sub.of_within (by decide)))
  have h2 : s2.completedAs k st code := State.each_keeps (P := (·.completedAs k st code)) dups h1 fun u d hu => hu.endSlot (some r) d hst hcode
  have h3 : s3.completedAs k st code := by
    unfold s3
    split
    · exact h2.beside (State.put_only (MOP_PORTHEAD_VALID_holds _) .refl (by decide))
    · exact h2
  have hframe : OnlyM (maskOf (.MOP_DESC :: besideDescParts)) s s3 := by
    have hs2 : OnlyM (maskOf (.MOP_DESC :: besideDescParts)) s s2 :=
      State.each_only (State.tagDone_only (State.endSlot_only .refl (Sub.of_within (by decide))) (Sub.of_within (by decide)))
        fun _ _ hu => State.endSlot_only hu (Sub.of_within (by decide))
    unfold s3
    split
    · exact State.put_only (MOP_PORTHEAD_VALID_holds _) hs2 (by decide)
    · exact hs2
  rw [State.gatewayEnd_eq_self (hframe.copyOf.trans hcopy)]
  exact h3

/-- A request that is no port's head ends with its completion alone. -/
theorem State.endRequest_completed {s : State} {k : Nat} (hcode : code < 256) (hcopy : s.copyOf k = none)
    (hhead : ∀ n, s.headSlot n ≠ some k) : (s.endRequest k code).completedAs k slotAborted code := by
  simp only [State.endRequest, beq_false_of_ne (hhead _), Bool.false_eq_true, if_false]
  exact State.completeTx_completed (by decide) hcode hcopy none

end

/-! ## MOP.ERR (R158, R165) -/

/-- The first refusal in MOP.ERR and MOP.ERR_SLOT, as a refusal of the host's command. -/
def State.recordMopErr (s : State) (reason cmd k : Nat) : State :=
  (((((s.set MOP_ERR_REASON reason).set MOP_ERR_CMD cmd).put MOP_ERR_SRC false).set MOP_ERR_SLOT_SLOT k).set
    MOP_ERR_SLOT_ENGINE 0).put MOP_ERR_VALID true

/-- From `s` to `t` a command of the host for slot `k` is refused: its descriptor stays, and MOP.ERR holds this refusal, or an
earlier one. -/
def State.refuses (s t : State) (cmd reason k : Nat) : Prop :=
  (∀ j < 8, t.word (MOP_DESC_W k j).addr = s.word (MOP_DESC_W k j).addr) ∧ t.flag MOP_ERR_VALID = true ∧
    (s.flag MOP_ERR_VALID = false → t.get MOP_ERR_REASON = reason ∧ t.get MOP_ERR_CMD = cmd ∧ t.flag MOP_ERR_SRC = false ∧
      t.get MOP_ERR_SLOT_SLOT = k)

theorem ledgerMask_mopErr : awayIn ledgerMask 0x02000000 0x02600000 = true := by decide +kernel

section

variable (s : State) {reason cmd k : Nat}

theorem State.mopErr_first (h : s.flag MOP_ERR_VALID = false) :
    s.mopErr reason cmd .host k = (s.recordMopErr reason cmd k).raise 1594 reason := by
  simp only [State.mopErr, h, Bool.false_eq_true, if_false]
  rfl

/-- The raise of source 1594 leaves the record. -/
theorem State.get_mopErr_first (h : s.flag MOP_ERR_VALID = false) {l : Loc} (ha : 0x02000000 ≤ l.addr ∧ l.addr < 0x02600000 := by decide)
    (hw : l.lo + l.len ≤ 32 := by decide) : (s.mopErr reason cmd .host k).get l = (s.recordMopErr reason cmd k).get l := by
  rw [s.mopErr_first h]
  exact (State.raise_only .refl (Sub.refl _)).getAway l (awayIn_spec ledgerMask_mopErr ha.1 ha.2) (.inl hw)

theorem State.recordMopErr_spec (hr : reason < 16) (hc : cmd < 16) (hk : k < 65536) :
    let t := s.recordMopErr reason cmd k
    t.get MOP_ERR_VALID = 1 ∧ t.get MOP_ERR_REASON = reason ∧ t.get MOP_ERR_CMD = cmd ∧ t.get MOP_ERR_SRC = 0 ∧
      t.get MOP_ERR_SLOT_SLOT = k := by
  have hslot {l : Loc} (hl : l.addr ≠ MOP_ERR_SLOT_SLOT.addr) (hw : l.lo + l.len ≤ 32) (u : State) :
      ((u.set MOP_ERR_SLOT_SLOT k).set MOP_ERR_SLOT_ENGINE 0).get l = u.get l := by
    rw [State.get_set_apart _ MOP_ERR_SLOT_ENGINE _ _ (Loc.apart_of_addr (by decide) hw hl.symm),
      State.get_set_apart _ MOP_ERR_SLOT_SLOT _ _ (Loc.apart_of_addr (by decide) hw hl.symm)]
  unfold State.recordMopErr
  refine ⟨State.get_set_fits .., ?_, ?_, ?_, ?_⟩
  · rw [State.get_put_apart _ _ _ _ (Loc.apart_of_bits rfl), hslot (by decide) (by decide),
      State.get_put_apart _ _ _ _ (Loc.apart_of_bits rfl), State.get_set_apart _ _ _ _ (Loc.apart_of_bits rfl)]
    exact State.get_set_fits _ _ hr
  · rw [State.get_put_apart _ _ _ _ (Loc.apart_of_bits rfl), hslot (by decide) (by decide),
      State.get_put_apart _ _ _ _ (Loc.apart_of_bits rfl)]
    exact State.get_set_fits _ _ hc
  · rw [State.get_put_apart _ _ _ _ (Loc.apart_of_bits rfl), hslot (by decide) (by decide)]
    exact State.get_set_fits ..
  · rw [State.get_put_apart _ _ _ _ (Loc.apart_of_addr (by decide) (by decide) (by decide)), State.get_set_apart _ _ _ _ (Loc.apart_of_bits rfl)]
    exact State.get_set_fits _ _ hk

theorem State.mopErr_refuses (hr : reason < 16) (hc : cmd < 16) (hk : k < 65536) :
    s.refuses (s.mopErr reason cmd .host k) cmd reason k := by
  obtain ⟨hvalid, hreason, hcmd, hsrc, hslot⟩ := s.recordMopErr_spec hr hc hk
  refine ⟨fun j _ => OnlyM.descWord (State.mopErr_only .refl (Sub.of_within (by decide))) k j, ?_, fun h => ⟨?_, ?_, ?_, ?_⟩⟩
  · cases h : s.flag MOP_ERR_VALID with
    | true => rw [State.mopErr, if_pos h, h]
    | false => exact decide_eq_true ((s.get_mopErr_first h).trans hvalid)
  · exact (s.get_mopErr_first h).trans hreason
  · exact (s.get_mopErr_first h).trans hcmd
  · exact decide_eq_false (by rw [s.get_mopErr_first h, hsrc]; decide)
  · exact (s.get_mopErr_first h).trans hslot

end

end Sys2Proof.Machine

end

section

namespace Sys2Proof.Machine

/-! ## Descriptor writes of the owner (R161, R163, R167) -/

section

variable {n : Nat} (old v m : BitVec n) {lo len : Nat}

/-- A field outside the mask stays. -/
theorem bitsOf_masked_kept (hw : lo + len ≤ n) (h : bitsOf m lo len = 0) :
    bitsOf ((old &&& ~~~m) ||| (v &&& m)) lo len = bitsOf old lo len := by
  refine Nat.eq_of_testBit_eq fun i => ?_
  have hi := testBit_bitsOf m lo len i
  rw [h, Nat.zero_testBit] at hi
  rw [testBit_bitsOf, testBit_bitsOf]
  by_cases hlt : i < len
  · rw [decide_eq_true hlt, Bool.true_and] at hi
    simp only [BitVec.getLsbD_or, BitVec.getLsbD_and, BitVec.getLsbD_not, ← hi, show lo + i < n by omega, decide_true,
      Bool.not_false, Bool.and_true, Bool.and_false, Bool.or_false]
  · simp [hlt]

/-- A field within the mask takes the value written. -/
theorem bitsOf_masked_taken (h : bitsOf m lo len = 2 ^ len - 1) :
    bitsOf ((old &&& ~~~m) ||| (v &&& m)) lo len = bitsOf v lo len := by
  refine Nat.eq_of_testBit_eq fun i => ?_
  have hi := testBit_bitsOf m lo len i
  rw [h, Nat.testBit_two_pow_sub_one] at hi
  rw [testBit_bitsOf, testBit_bitsOf]
  by_cases hlt : i < len
  · rw [decide_eq_true hlt, Bool.true_and] at hi
    simp only [BitVec.getLsbD_or, BitVec.getLsbD_and, BitVec.getLsbD_not, ← hi, Bool.not_true, Bool.and_true, Bool.and_false,
      Bool.false_or]
  · simp [hlt]

/-- A field of one bit, as a truth value. -/
theorem decide_bitsOf_one (lo : Nat) : decide (bitsOf v lo 1 = 1) = v.getLsbD lo := by
  have h := testBit_bitsOf v lo 1 0
  have hlt := bitsOf_lt v lo 1
  rw [Nat.testBit_zero] at h
  have e : bitsOf v lo 1 % 2 = bitsOf v lo 1 := Nat.mod_eq_of_lt hlt
  rw [e] at h
  simpa using h

end

/-- The word that the owner writes takes its RW fields, and DIR becomes 1. -/
def State.takeWord (s : State) (k w : Nat) (v : Word) : State :=
  (s.setWord (MOP_DESC_W k w).addr ((s.word (MOP_DESC_W k w).addr &&& ~~~descMask w) ||| (v &&& descMask w))).put
    (MOP_DESC_DIR k) true

section

variable {s t : State} {k w p st : Nat} {v : Word} {l : Loc}

theorem State.descWrite_queued (hkind : s.get (MOP_POOL_CFG1_KIND p) = kindTX) (h2 : 2 ≤ s.get (MOP_DESC_STATE k))
    (h4 : s.get (MOP_DESC_STATE k) ≤ 4) : s.descWrite .host p k w v = (s.mopErr 2 0 .host k).answerDone := by
  have hst : s.get (MOP_DESC_STATE k) = 2 ∨ s.get (MOP_DESC_STATE k) = 3 ∨ s.get (MOP_DESC_STATE k) = 4 := by omega
  rcases hst with hst | hst | hst <;> simp [State.descWrite, hkind, slotQueued, slotArb, slotOnWire, hst]

theorem State.descWrite_staged (hkind : s.get (MOP_POOL_CFG1_KIND p) = kindTX)
    (h : s.get (MOP_DESC_STATE k) < 2 ∨ 4 < s.get (MOP_DESC_STATE k)) :
    s.descWrite .host p k w v = ((s.takeWord k w v).setSlotState k slotStaged).answerDone := by
  obtain ⟨h2, h3, h4⟩ : s.get (MOP_DESC_STATE k) ≠ 2 ∧ s.get (MOP_DESC_STATE k) ≠ 3 ∧ s.get (MOP_DESC_STATE k) ≠ 4 := by omega
  simp [State.descWrite, hkind, slotQueued, slotArb, slotOnWire, h2, h3, h4, State.takeWord]

/-- A field of a register in front of the descriptors, when descriptors alone change. -/
theorem OnlyM.beforeDesc (h : OnlyM (maskOf [.MOP_DESC]) s t) (ha : l.addr < 0x02400000) (hw : l.lo + l.len ≤ 32) :
    t.get l = s.get l :=
  h.getAway l (awayIn_spec (lo := 0) (hi := 0x02400000) (by decide +kernel) (Nat.zero_le _) ha) (.inl hw)

/-- A slot then stays in its pool. -/
theorem OnlyM.poolOf (h : OnlyM (maskOf [.MOP_DESC]) s t) (k : Nat) : t.poolOf k = s.poolOf k := by
  have hrevoked : t.store.revoked = s.store.revoked := by rw [h.store.resolve_left (by decide)]
  have hkind (p : Nat) : t.get (MOP_POOL_CFG1_KIND p) = s.get (MOP_POOL_CFG1_KIND p) :=
    h.beforeDesc (by simp only [MOP_POOL_CFG1_KIND]; omega) (of_decide_eq_true rfl)
  have hport (p : Nat) : t.get (MOP_POOL_CFG1_PORT p) = s.get (MOP_POOL_CFG1_PORT p) :=
    h.beforeDesc (by simp only [MOP_POOL_CFG1_PORT]; omega) (of_decide_eq_true rfl)
  have hbase (p : Nat) : t.get (MOP_POOL_CFG0_BASE p) = s.get (MOP_POOL_CFG0_BASE p) :=
    h.beforeDesc (by simp only [MOP_POOL_CFG0_BASE]; omega) (of_decide_eq_true rfl)
  have hcount (p : Nat) : t.get (MOP_POOL_CFG0_COUNT_M1 p) = s.get (MOP_POOL_CFG0_COUNT_M1 p) :=
    h.beforeDesc (by simp only [MOP_POOL_CFG0_COUNT_M1]; omega) (of_decide_eq_true rfl)
  have hphase : t.get IMG_STATUS_PHASE = s.get IMG_STATUS_PHASE := h.beforeDesc (of_decide_eq_true rfl) (of_decide_eq_true rfl)
  have htransit (n : Nat) : t.inTransit n = s.inTransit n :=
    congrArg (decide <| · = 1) (h.beforeDesc (l := transLoc n) (by simp only [transLoc, IMG_TRANS_PORT]; omega)
      (by simp only [transLoc]; omega))
  have hcovers (p k : Nat) : t.covers p k = s.covers p k := by
    simp only [State.covers, hkind, hbase, hcount]
  simp only [State.poolOf, State.inPool, State.lent, hcovers, hphase, htransit, hport, hrevoked]

/-- A move between states that no port queues: the pool counts its free slots, and no port's NQ changes (R163). -/
theorem State.setSlotState_unqueued (hp : s.poolOf k = some p) (hold : s.get (MOP_DESC_STATE k) ≠ 2 ∧ s.get (MOP_DESC_STATE k) ≠ 3)
    (hst : st ≠ 2 ∧ st ≠ 3) : s.setSlotState k st = (s.set (MOP_DESC_STATE k) st).set (MOP_POOL_STAT_FREE p)
      (min ((s.set (MOP_DESC_STATE k) st).freeSlots p) 65535) := by
  have hpool : (s.set (MOP_DESC_STATE k) st).poolOf k = some p := by
    rw [OnlyM.poolOf (State.set_only (MOP_DESC_STATE_holds k) .refl (by decide)) k, hp]
  have hwas : (decide (s.get (MOP_DESC_STATE k) = slotQueued) || decide (s.get (MOP_DESC_STATE k) = slotArb)) = false := by
    simp [slotQueued, slotArb, hold]
  have his : (decide (st = slotQueued) || decide (st = slotArb)) = false := by simp [slotQueued, slotArb, hst]
  unfold State.setSlotState
  dsimp only
  rw [hpool, hwas, his]
  rfl

theorem State.word_setSlotState_unqueued (hp : s.poolOf k = some p)
    (hold : s.get (MOP_DESC_STATE k) ≠ 2 ∧ s.get (MOP_DESC_STATE k) ≠ 3) (hst : st ≠ 2 ∧ st ≠ 3) {a : Nat}
    (ha : a ≠ (MOP_DESC_STATE k).addr) (ha' : a ≠ (MOP_POOL_STAT_FREE p).addr) : (s.setSlotState k st).word a = s.word a := by
  rw [State.setSlotState_unqueued hp hold hst, State.word_set_narrow _ _ _ _ (of_decide_eq_true rfl) ha',
    State.word_set_narrow _ _ _ _ (of_decide_eq_true rfl) ha]

/-! ### What the written word leaves -/

theorem State.get_takeWord_other (hl : l.addr ≠ (MOP_DESC_W k w).addr) (hd : (MOP_DESC_DIR k).apart l) :
    (s.takeWord k w v).get l = s.get l := by
  have hw : l.lo + l.len ≤ 32 := hd.2.1
  rw [State.takeWord, State.get_put_apart _ _ _ _ hd]
  exact State.get_congr (by rw [State.word_setWord, if_neg hl]) (by omega)

theorem State.get_takeWord_same (hl : l.addr = (MOP_DESC_W k w).addr) (hd : (MOP_DESC_DIR k).apart l) :
    (s.takeWord k w v).get l =
      bitsOf ((s.word (MOP_DESC_W k w).addr &&& ~~~descMask w) ||| (v &&& descMask w)) l.lo l.len := by
  rw [State.takeWord, State.get_put_apart _ _ _ _ hd, State.get, if_pos hd.2.1, State.word_setWord, if_pos hl]

/-- A field of word 0 beside DIR that no RW bit covers stays, whichever word is written. -/
theorem State.get_takeWord_kept (hw : w < 8) (hl : l.addr = (MOP_DESC_W k 0).addr) (hd : (MOP_DESC_DIR k).apart l)
    (hm : bitsOf (descMask 0) l.lo l.len = 0) : (s.takeWord k w v).get l = s.get l := by
  by_cases h0 : w = 0
  · subst h0
    rw [State.get_takeWord_same hl hd, bitsOf_masked_kept _ _ _ hd.2.1 hm, State.get, if_pos hd.2.1, hl]
  · exact State.get_takeWord_other (by rw [hl]; simp only [MOP_DESC_W]; omega) hd

/-- A field of word 0 that RW bits cover takes its bits of the word written to word 0. -/
theorem State.get_takeWord_taken (hl : l.addr = (MOP_DESC_W k 0).addr) (hd : (MOP_DESC_DIR k).apart l)
    (hm : bitsOf (descMask 0) l.lo l.len = 2 ^ l.len - 1) : (s.takeWord k 0 v).get l = bitsOf v l.lo l.len := by
  rw [State.get_takeWord_same hl hd, bitsOf_masked_taken _ _ _ hm]

theorem State.word_takeWord (hw : w < 8) (h0 : w ≠ 0) : (s.takeWord k w v).word (MOP_DESC_W k w).addr =
    (s.word (MOP_DESC_W k w).addr &&& ~~~descMask w) ||| (v &&& descMask w) := by
  rw [State.takeWord, State.put, State.word_set_narrow _ _ _ _ (of_decide_eq_true rfl)
    (by simp only [MOP_DESC_W, MOP_DESC_DIR]; omega), State.word_setWord, if_pos rfl]

theorem State.word_takeWord_ne {a : Nat} (h0 : a ≠ (MOP_DESC_W k 0).addr) (hw : a ≠ (MOP_DESC_W k w).addr) :
    (s.takeWord k w v).word a = s.word a := by
  rw [State.takeWord, State.put, State.word_set_narrow _ (MOP_DESC_DIR k) _ _ (of_decide_eq_true rfl) h0, State.word_setWord,
    if_neg hw]

theorem State.takeWord_only : OnlyM (maskOf [.MOP_DESC]) s (s.takeWord k w v) :=
  State.put_only (MOP_DESC_DIR_holds k) (State.setWord_only (MOP_DESC_W_holds k w).own .refl (by decide)) (by decide)

end

section

variable {s : State} {k w p : Nat} {v : Word} (hs : s.serves 14)
include hs

theorem State.descAccess_noPool (hp : s.poolOf k = none) : s.descAccess .host k w v = (s.mopErr 4 0 .host k).answerDone := by
  rw [State.descAccess, State.access_host _ _ _ _ _ _ hs.1 hs.2, hp]
  rfl

theorem State.descAccess_other (hp : s.poolOf k = some p) (ho : s.get (MOP_POOL_CFG1_OWNER p) ≠ 64) :
    s.descAccess .host k w v = (s.mopErr 1 0 .host k).answerDone := by
  rw [State.descAccess, State.access_host _ _ _ _ _ _ hs.1 hs.2, hp]
  exact if_neg fun h => ho (Option.some.inj (eq_of_beq h)).symm

theorem State.descAccess_own (hp : s.poolOf k = some p) (ho : s.get (MOP_POOL_CFG1_OWNER p) = 64) :
    s.descAccess .host k w v = s.descWrite .host p k w v := by
  rw [State.descAccess, State.access_host _ _ _ _ _ _ hs.1 hs.2, hp]
  exact if_pos (by rw [ho]; rfl)

end

section

variable {s : State} {k : SlotNo} {w : Fin 8} {v : Word} {p : Nat}

theorem answers_descriptorWrite {t : State} {P : State → Prop} (h : s.descAccess .host k w v = t) (hp : P t) :
    Answers (.descriptorWrite .host k w v) s P :=
  ⟨t, congrArg Host.Outcome.next h, hp⟩

/-- What the owner's write of a TX slot that is not queued leaves (R161, R163). -/
theorem State.staged_spec (hp : s.poolOf k = some p) (hst : s.get (MOP_DESC_STATE k) < 2 ∨ 4 < s.get (MOP_DESC_STATE k)) :
    let t := (s.takeWord k w v).setSlotState k slotStaged
    t.get (MOP_DESC_STATE k) = 1 ∧ t.flag (MOP_DESC_DIR k) = true ∧
      (w.val ≠ 0 → t.word (MOP_DESC_W k w).addr = (s.word (MOP_DESC_W k w).addr &&& ~~~descMask w) ||| (v &&& descMask w)) ∧
      (w.val = 0 → t.get (MOP_DESC_TAG k) = v.toNat / 2 ^ 16 ∧ t.flag (MOP_DESC_DL_EN k) = v.getLsbD 7 ∧
        t.get (MOP_DESC_CODE k) = s.get (MOP_DESC_CODE k)) ∧
      ∀ a, a ≠ (MOP_DESC_W k 0).addr → a ≠ (MOP_DESC_W k w).addr → a ≠ (MOP_POOL_STAT_FREE p).addr → t.word a = s.word a := by
  have hkept (l : Loc) (hl : l.addr = (MOP_DESC_W k 0).addr) (hd : (MOP_DESC_DIR k).apart l) (hm : bitsOf (descMask 0) l.lo l.len = 0) :
      (s.takeWord k w v).get l = s.get l := State.get_takeWord_kept w.isLt hl hd hm
  have hstate := hkept (MOP_DESC_STATE k) rfl (Loc.apart_of_bits rfl) (show bitsOf (descMask 0) 0 3 = 0 from rfl)
  have hword {a : Nat} (ha : a ≠ (MOP_DESC_W k 0).addr) (ha' : a ≠ (MOP_POOL_STAT_FREE p).addr) :
      ((s.takeWord k w v).setSlotState k slotStaged).word a = (s.takeWord k w v).word a :=
    State.word_setSlotState_unqueued ((State.takeWord_only.poolOf k).trans hp) (by rw [hstate]; omega) (by decide) ha ha'
  have hfield (l : Loc) (hl : l.addr = (MOP_DESC_W k 0).addr) (ha : (MOP_DESC_STATE k).apart l) :
      ((s.takeWord k w v).setSlotState k slotStaged).get l = (s.takeWord k w v).get l :=
    State.get_setSlotState _ _ _ (Loc.described_of_slot hl (hw := ha.2.1)) ha
  refine ⟨State.setSlotState_desc _ _ (by decide), ?_, fun hw => ?_, fun hw => ⟨?_, ?_, ?_⟩, fun a h0 haw hf => ?_⟩
  · rw [State.flag, hfield (MOP_DESC_DIR k) rfl (Loc.apart_of_bits rfl)]
    exact State.flag_put_self _ _ _ (of_decide_eq_true rfl) rfl
  · rw [hword, State.word_takeWord w.isLt hw]
    · simp only [MOP_DESC_W]; omega
    · simp only [MOP_DESC_W, MOP_POOL_STAT_FREE]; omega
  · rw [hfield (MOP_DESC_TAG k) rfl (Loc.apart_of_bits rfl), hw,
      State.get_takeWord_taken (l := MOP_DESC_TAG k) rfl (Loc.apart_of_bits rfl) (show bitsOf (descMask 0) 16 16 = 2 ^ 16 - 1 from rfl)]
    simp only [bitsOf, MOP_DESC_TAG, Nat.shiftRight_eq_div_pow]
    have := v.isLt
    omega
  · rw [State.flag, hfield (MOP_DESC_DL_EN k) rfl (Loc.apart_of_bits rfl), hw,
      State.get_takeWord_taken (l := MOP_DESC_DL_EN k) rfl (Loc.apart_of_bits rfl) (show bitsOf (descMask 0) 7 1 = 2 ^ 1 - 1 from rfl)]
    exact decide_bitsOf_one v 7
  · rw [hfield (MOP_DESC_CODE k) rfl (Loc.apart_of_bits rfl),
      hkept (MOP_DESC_CODE k) rfl (Loc.apart_of_bits rfl) (show bitsOf (descMask 0) 8 8 = 0 from rfl)]
  · rw [hword h0 hf, State.word_takeWord_ne h0 haw]

end

end Sys2Proof.Machine

open Sys2Proof Sys2Proof.Machine

/-- Settles O31: a descriptor write is refused in MOP.ERR (`State.mopErr_refuses`) or, of a TX slot that is not queued, takes
the RW fields of its word and moves the slot to STAGED (`State.staged_spec`). -/
theorem descriptorWrites : Obligations.DescriptorWrites := by
  refine fun s k w v hs => ⟨fun hp => ?nopool, fun p hp => ⟨fun ho => ?other, fun ho hkind => ⟨fun h2 h4 => ?queued,
    fun hst => ?staged⟩⟩⟩
  case nopool => exact answers_descriptorWrite (State.descAccess_noPool hs hp) (s.mopErr_refuses (by decide) (by decide) k.isLt)
  case other => exact answers_descriptorWrite (State.descAccess_other hs hp ho) (s.mopErr_refuses (by decide) (by decide) k.isLt)
  case queued =>
    exact answers_descriptorWrite ((State.descAccess_own hs hp ho).trans (State.descWrite_queued hkind h2 h4))
      (s.mopErr_refuses (by decide) (by decide) k.isLt)
  case staged =>
    obtain ⟨hstate, hdir, hother, hzero, hwords⟩ := State.staged_spec (w := w) (v := v) hp hst
    have ht := (State.descAccess_own hs hp ho).trans (State.descWrite_staged (w := w) (v := v) hkind hst)
    have honly : OnlyM (maskOf [.resp, .MOP_DESC, .MOP_POOL_STAT, .MOP_PORTQ]) s ((s.takeWord k w v).setSlotState k slotStaged) :=
      State.setSlotState_only (State.takeWord_only.mono (Sub.of_within (by decide))) (Sub.of_within (by decide))
    refine answers_descriptorWrite ht ⟨rfl, ?_⟩
    simp only [State.answerDone_get, State.answerDone_flag, State.answerDone_word]
    refine ⟨hstate, hdir, hother, hzero, OnlyM.writes (State.answerDone_only honly (Sub.of_within (by decide)))
      (fun a ha => ?_) (by simp [Part.same])⟩
    simp only [List.mem_cons, List.not_mem_nil, or_false, not_or] at ha
    rw [State.answerDone_word]
    exact hwords a ha.1 ha.2.1 ha.2.2

end

section

namespace Sys2Proof.Machine

/-! ## Doorbell commands (R165) -/

section

variable {s : State} {k cmd p : Nat} {f : Nat → State → Option State} (hs : s.serves 14)
include hs

theorem State.doorbellCmd_noPool (hp : s.poolOf k = none) : s.doorbellCmd .host k cmd f = s.answerDone.mopErr 4 cmd .host k := by
  have hp' : s.answerDone.poolOf k = none := hp
  rw [State.doorbellCmd, State.openWrite_host _ _ _ _ hs.1 hs.2, hp']

theorem State.doorbellCmd_other (hp : s.poolOf k = some p) (ho : s.get (MOP_POOL_CFG1_OWNER p) ≠ 64) :
    s.doorbellCmd .host k cmd f = s.answerDone.mopErr 1 cmd .host k := by
  have hp' : s.answerDone.poolOf k = some p := hp
  rw [State.doorbellCmd, State.openWrite_host _ _ _ _ hs.1 hs.2, hp']
  exact if_neg fun h => ho (Option.some.inj (eq_of_beq h)).symm

theorem State.doorbellCmd_own (hp : s.poolOf k = some p) (ho : s.get (MOP_POOL_CFG1_OWNER p) = 64) :
    s.doorbellCmd .host k cmd f = (f p s.answerDone).getD (s.answerDone.mopErr 3 cmd .host k) := by
  have hp' : s.answerDone.poolOf k = some p := hp
  rw [State.doorbellCmd, State.openWrite_host _ _ _ _ hs.1 hs.2, hp']
  exact if_pos (by rw [State.answerDone_get, ho]; rfl)

end

/-! ### What each command does with a slot of its owner -/

section

variable {s : State} {k p : Nat}

theorem State.mopQueue_none (h : s.get (MOP_POOL_CFG1_KIND p) ≠ 3 ∨ s.get (MOP_DESC_STATE k) ≠ 1) : s.mopQueue p k = none := by
  rcases h with h | h <;> simp [State.mopQueue, kindTX, slotStaged, h]

theorem State.mopAbandon_none (h : s.get (MOP_POOL_CFG1_KIND p) ≠ 3 ∨ s.get (MOP_DESC_STATE k) ≠ 1) : s.mopAbandon p k = none := by
  rcases h with h | h <;> simp [State.mopAbandon, kindTX, slotStaged, h]

theorem State.mopCancel_none (h : s.get (MOP_POOL_CFG1_KIND p) ≠ 3 ∨ s.get (MOP_DESC_STATE k) < 2 ∨ 4 < s.get (MOP_DESC_STATE k)) :
    s.mopCancel p k = none := by
  rcases h with h | h
  · simp [State.mopCancel, kindTX, h]
  · obtain ⟨h2, h3, h4⟩ : s.get (MOP_DESC_STATE k) ≠ 2 ∧ s.get (MOP_DESC_STATE k) ≠ 3 ∧ s.get (MOP_DESC_STATE k) ≠ 4 := by omega
    simp [State.mopCancel, slotQueued, slotArb, slotOnWire, h2, h3, h4]

theorem State.mopRelease_none (h : s.get (MOP_DESC_STATE k) ≠ 5 ∧ s.get (MOP_DESC_STATE k) ≠ 6) : s.mopRelease p k = none := by
  simp [State.mopRelease, slotDone, slotAborted, h]

theorem State.mopRelease_ended (h : s.get (MOP_DESC_STATE k) = 5 ∨ s.get (MOP_DESC_STATE k) = 6) :
    s.mopRelease p k = some (s.releaseRx p k) := by
  rcases h with h | h <;> simp [State.mopRelease, slotDone, slotAborted, h]

theorem State.mopAbandon_staged (hkind : s.get (MOP_POOL_CFG1_KIND p) = 3) (h : s.get (MOP_DESC_STATE k) = 1) :
    s.mopAbandon p k = some (s.setSlotState k slotFree) := by
  simp [State.mopAbandon, kindTX, slotStaged, hkind, h]

theorem State.mopCancel_waiting (hkind : s.get (MOP_POOL_CFG1_KIND p) = 3) (h : s.get (MOP_DESC_STATE k) = 2) :
    s.mopCancel p k = some (s.endRequest k codeCancelled) := by
  simp [State.mopCancel, kindTX, slotQueued, hkind, h]

theorem State.mopCancel_sending (hkind : s.get (MOP_POOL_CFG1_KIND p) = 3)
    (h : s.get (MOP_DESC_STATE k) = 3 ∨ s.get (MOP_DESC_STATE k) = 4) (hidle : s.idleSlot k = false) :
    s.mopCancel p k = some (s.modSlot k fun x => { x with stop := some codeCancelled }) := by
  rcases h with h | h <;> simp [State.mopCancel, kindTX, slotQueued, slotArb, slotOnWire, hkind, h, hidle]

theorem State.mopQueue_staged (hkind : s.get (MOP_POOL_CFG1_KIND p) = 3) (h : s.get (MOP_DESC_STATE k) = 1)
    (hlayout : s.awaitsLayout p = false) (hcopy : s.copyOf k = none) : s.mopQueue p k = some (s.queueSlot p k s.now) := by
  simp [State.mopQueue, kindTX, slotStaged, hkind, h, hlayout, hcopy]

/-- Beside STATE, RELEASE returns a buffer (R181). -/
theorem State.releaseRx_after : OnlyM besideDesc (s.setSlotState k slotFree) (s.releaseRx p k) := by
  unfold State.releaseRx
  dsimp only
  split
  · split
    · have hport (n : Nat) (g : Port → Port) :
          OnlyM besideDesc (s.setSlotState k slotFree) ((s.setSlotState k slotFree).modPort n g) :=
        State.modPort_only .refl (Sub.of_within (by decide))
      exact OnlyM.ite (State.returnBuf_only (hport ..) (Sub.of_within (by decide))) (hport ..)
    · exact State.returnBuf_only .refl (Sub.of_within (by decide))
  · exact .refl

theorem State.releaseRx_free : (s.releaseRx p k).get (MOP_DESC_STATE k) = 0 :=
  (State.releaseRx_after.described (Loc.described_of_slot rfl)).trans (State.setSlotState_desc _ _ (by decide))

theorem State.releaseRx_resp : (s.releaseRx p k).resp = s.resp :=
  (State.releaseRx_only .refl (Sub.refl _)).resp.resolve_left (by decide)

theorem State.slotHid_modSlot (f : Slot → Slot) : (s.modSlot k f).slotHid k = f (s.slotHid k) := by
  unfold State.modSlot State.slotHid
  dsimp only
  rw [smapFind_put, if_pos rfl]

end

/-! ### QUEUE (R170 to R173) -/

section

variable {s : State} {k p : Nat} {b : Bool}

/-- DUP lies in word 5 of a descriptor. -/
theorem State.get_putDup {c : Nat} {l : Loc} (hl : l.addr = c + 0x20 * (k % 65536)) (hc : c ≠ 0x02400014 := by decide)
    (hw : l.lo + l.len ≤ 32 := by exact of_decide_eq_true rfl) : (s.put (MOP_DESC_DUP k) b).get l = s.get l :=
  State.get_put_apart _ _ _ _ (Loc.apart_of_slot (k := k) rfl hl hc.symm (hwl := hw))

theorem State.get_putDup_before {l : Loc} (hl : l.addr < 0x02400000) (hw : l.lo + l.len ≤ 32 := by exact of_decide_eq_true rfl) :
    (s.put (MOP_DESC_DUP k) b).get l = s.get l :=
  OnlyM.beforeDesc (State.put_only (MOP_DESC_DUP_holds k) .refl (by decide)) hl hw

theorem State.slotFrame_putDup : (s.put (MOP_DESC_DUP k) b).slotFrame k = s.slotFrame k := by
  simp only [State.slotFrame, State.flag, State.bufOf, State.get_putDup (l := MOP_DESC_LEN k) rfl,
    State.get_putDup (l := MOP_DESC_RMT k) rfl, State.get_putDup (l := MOP_DESC_FMT k) rfl, State.get_putDup (l := MOP_DESC_ID k) rfl,
    State.get_putDup (l := MOP_DESC_IDE k) rfl, State.get_putDup (l := MOP_DESC_BRS k) rfl, State.get_putDup (l := MOP_DESC_ESI k) rfl,
    State.get_putDup (l := MOP_DESC_SEC k) rfl, State.get_putDup (l := MOP_DESC_SDT k) rfl, State.get_putDup (l := MOP_DESC_VCID k) rfl,
    State.get_putDup (l := MOP_DESC_AF k) rfl, State.get_putDup (l := MOP_DESC_BUF k) rfl, State.bytes, State.byte, State.put_mem]
  rfl

/-- The checks of QUEUE do not read DUP. -/
theorem State.queueCheck_putDup : (s.put (MOP_DESC_DUP k) b).queueCheck p k = s.queueCheck p k := by
  have hmode (n : Nat) : (s.put (MOP_DESC_DUP k) b).get (LP_CFG_MODE n) = s.get (LP_CFG_MODE n) :=
    State.get_putDup_before (by simp only [LP_CFG_MODE]; omega)
  have hfdxl (n : Nat) : (s.put (MOP_DESC_DUP k) b).get (BT_CFG_FD_IN_XL n) = s.get (BT_CFG_FD_IN_XL n) :=
    State.get_putDup_before (by simp only [BT_CFG_FD_IN_XL]; omega)
  have hport : (s.put (MOP_DESC_DUP k) b).get (MOP_POOL_CFG1_PORT p) = s.get (MOP_POOL_CFG1_PORT p) :=
    State.get_putDup_before (by simp only [MOP_POOL_CFG1_PORT]; omega)
  have hclass : (s.put (MOP_DESC_DUP k) b).get (MOP_POOL_CFG1_BUFCLASS p) = s.get (MOP_POOL_CFG1_BUFCLASS p) :=
    State.get_putDup_before (by simp only [MOP_POOL_CFG1_BUFCLASS]; omega)
  have hword (j : Nat) (hj : j % 8 ≠ 5) : (s.put (MOP_DESC_DUP k) b).get (MOP_DESC_W k j) = s.get (MOP_DESC_W k j) :=
    State.get_put_apart _ _ _ _ (Loc.apart_of_addr (of_decide_eq_true rfl) (of_decide_eq_true rfl)
      (by simp only [MOP_DESC_DUP, MOP_DESC_W]; omega))
  simp only [State.queueCheck, State.portCarries, State.slotFrame_putDup, State.flag, State.now, State.put_time, hmode, hfdxl, hport,
    hclass, hword 6 (by decide), hword 7 (by decide), State.get_putDup (l := MOP_DESC_DL_EN k) rfl]
  rfl

theorem State.findTag_putDup : (s.put (MOP_DESC_DUP k) b).findTag p k = s.findTag p k := by
  have howner : (s.put (MOP_DESC_DUP k) b).get (MOP_POOL_CFG1_OWNER p) = s.get (MOP_POOL_CFG1_OWNER p) :=
    State.get_putDup_before (by simp only [MOP_POOL_CFG1_OWNER]; omega)
  simp only [State.findTag, howner, State.put_store, State.get_putDup (l := MOP_DESC_TAG k) rfl]

theorem State.copyOf_putDup : (s.put (MOP_DESC_DUP k) b).copyOf k = s.copyOf k := by
  simp only [State.copyOf, State.put_gw]

/-- The codes of the checks of QUEUE fit CODE (R164). -/
theorem State.queueCheck_lt {code : Nat} (h : s.queueCheck p k = some code) : code < 256 := by
  unfold State.queueCheck at h
  dsimp only at h
  repeat' split at h
  all_goals cases h <;> decide

/-- A STAGED slot that fails a check is ABORTED with its code (R171). -/
theorem State.queueSlot_aborted {code t : Nat} (hcheck : s.queueCheck p k = some code) (hcopy : s.copyOf k = none) :
    (s.queueSlot p k t).completedAs k slotAborted code := by
  simp only [State.queueSlot, State.queueCheck_putDup, hcheck]
  exact State.completeTx_completed (by decide) (State.queueCheck_lt hcheck) (State.copyOf_putDup.trans hcopy) none

/-- A STAGED slot that passes the checks and is no duplicate is queued (R170). -/
theorem State.queueSlot_queued {t : Nat} (hcheck : s.queueCheck p k = none) (htag : s.findTag p k = none) :
    (s.queueSlot p k t).get (MOP_DESC_STATE k) = 2 ∧ (s.queueSlot p k t).flag (MOP_DESC_DUP k) = false ∧
      ((s.queueSlot p k t).slotHid k).qtime = t ∧ ((s.queueSlot p k t).slotHid k).dupOf = none := by
  simp only [State.queueSlot, State.queueCheck_putDup, hcheck, State.findTag_putDup, htag]
  generalize hu : (s.put (MOP_DESC_DUP k) false).setSlotState k slotQueued = u
  have hstate : u.get (MOP_DESC_STATE k) = 2 := hu ▸ State.setSlotState_desc _ _ (by decide)
  have hdup : u.flag (MOP_DESC_DUP k) = false := by
    rw [← hu, State.flag_setSlotState _ _ _ (Loc.described_of_slot rfl) (Loc.apart_of_slot (k := k) rfl rfl)]
    exact State.flag_put_self _ _ _ (of_decide_eq_true rfl) rfl
  generalize hv : (u.modSlot k fun h => { h with qtime := t, dupOf := none }) = v
  have hhid : (v.enterTag p k).slotHid k = v.slotHid k := by
    unfold State.enterTag
    dsimp only
    split <;> rfl
  have honly : OnlyM besideDesc u (v.enterTag p k) :=
    State.enterTag_only (hv ▸ State.modSlot_only .refl (Sub.of_within (by decide))) (Sub.of_within (by decide))
  refine ⟨(honly.described (Loc.described_of_slot rfl)).trans hstate, (honly.describedFlag (Loc.described_of_slot rfl)).trans hdup, ?_, ?_⟩ <;>
    rw [hhid, ← hv, State.slotHid_modSlot]

/-- A duplicate is queued with DUP 1 (R173). -/
theorem State.queueDup_spec :
    let u := ((s.put (MOP_DESC_DUP k) false).setSlotState k slotQueued).put (MOP_DESC_DUP k) true
    u.get (MOP_DESC_STATE k) = 2 ∧ u.flag (MOP_DESC_DUP k) = true := by
  refine ⟨?_, State.flag_put_self _ _ _ (of_decide_eq_true rfl) rfl⟩
  rw [State.get_putDup (l := MOP_DESC_STATE k) rfl]
  exact State.setSlotState_desc _ _ (by decide)

/-- A duplicate of a request that still waits stays behind it (R173). -/
theorem State.queueSlot_behind {t : Nat} {g : Tag} (hcheck : s.queueCheck p k = none) (htag : s.findTag p k = some g)
    (hg : g.result = none) : (s.queueSlot p k t).get (MOP_DESC_STATE k) = 2 ∧ (s.queueSlot p k t).flag (MOP_DESC_DUP k) = true ∧
      ((s.queueSlot p k t).slotHid k).dupOf = some g.slot := by
  simp only [State.queueSlot, State.queueCheck_putDup, hcheck, State.findTag_putDup, htag, hg]
  obtain ⟨hstate, hdup⟩ := State.queueDup_spec (s := s) (k := k)
  generalize ((s.put (MOP_DESC_DUP k) false).setSlotState k slotQueued).put (MOP_DESC_DUP k) true = u at hstate hdup ⊢
  exact ⟨hstate, hdup, by rw [State.slotHid_modSlot]⟩

/-- A duplicate of a completed request takes its completion at once (R172, R173). -/
theorem State.queueSlot_completed {t x c : Nat} {g : Tag} {ns sec : Word} (hcheck : s.queueCheck p k = none)
    (htag : s.findTag p k = some g) (hg : g.result = some (x, c, ns, sec)) (hx : x < 8) (hc : c < 256) :
    (s.queueSlot p k t).completedAs k x c ∧ (s.queueSlot p k t).flag (MOP_DESC_DUP k) = true ∧
      (s.queueSlot p k t).word (MOP_DESC_W k 6).addr = ns ∧ (s.queueSlot p k t).word (MOP_DESC_W k 7).addr = sec := by
  simp only [State.queueSlot, State.queueCheck_putDup, hcheck, State.findTag_putDup, htag, hg]
  obtain ⟨-, hdup⟩ := State.queueDup_spec (s := s) (k := k)
  generalize ((s.put (MOP_DESC_DUP k) false).setSlotState k slotQueued).put (MOP_DESC_DUP k) true = u at hdup ⊢
  refine ⟨u.endSlot_completed k _ hx hc, ?_, ?_, ?_⟩
  · have h := u.get_endSlot (st := x) (code := c) k (some (ns, sec)) (l := MOP_DESC_DUP k) (Loc.described_of_slot rfl)
      (Loc.apart_of_slot (k := k) rfl rfl) (Loc.apart_of_slot (k := k) rfl rfl) (by simp only [MOP_DESC_DUP, MOP_DESC_W]; omega)
      (by simp only [MOP_DESC_DUP, MOP_DESC_W]; omega)
    rwa [State.flag, h]
  · rw [(u.endSlot_after k _).descWord, State.endFields]
    simp only [State.word_setWord, MOP_DESC_W]
    rw [if_neg (by omega), if_pos trivial]
  · rw [(u.endSlot_after k _).descWord, State.endFields]
    simp only [State.word_setWord, if_true]

end

/-! ### Answers of doorbell commands -/

section

variable {s t : State} {k : SlotNo} {cmd p reason : Nat} {f : Nat → State → Option State} {c : Instr} {P : State → Prop}

/-- A refused doorbell command (R165). -/
theorem answers_refused (hc : exec c s = .next (s.doorbellCmd .host k cmd f))
    (h : s.doorbellCmd .host k cmd f = s.answerDone.mopErr reason cmd .host k) (hr : reason < 16) (hcmd : cmd < 16) :
    Answers c s fun u => s.refuses u cmd reason k :=
  ⟨_, hc.trans (congrArg _ h), s.answerDone.mopErr_refuses hr hcmd k.isLt⟩

/-- Whatever the command, it is refused for a slot that the host does not own (R158, R165). -/
theorem answers_refusedAll (h : ∀ cmd f, s.doorbellCmd .host k cmd f = s.answerDone.mopErr reason cmd .host k) (hr : reason < 16) :
    (Answers (.queue .host k) s fun u => s.refuses u 1 reason k) ∧ (Answers (.cancel .host k) s fun u => s.refuses u 2 reason k) ∧
      (Answers (.release .host k) s fun u => s.refuses u 3 reason k) ∧
      (Answers (.abandon .host k) s fun u => s.refuses u 4 reason k) ∧
      ∀ cmd : Fin 16, Answers (.doorbellIgnored .host k cmd) s fun u => s.refuses u cmd reason k :=
  ⟨answers_refused rfl (h ..) hr (by decide), answers_refused rfl (h ..) hr (by decide), answers_refused rfl (h ..) hr (by decide),
    answers_refused rfl (h ..) hr (by decide), fun cmd => answers_refused rfl (h ..) hr cmd.isLt⟩

variable (hs : s.serves 14) (hp : s.poolOf k = some p) (ho : s.get (MOP_POOL_CFG1_OWNER p) = 64)
include hs hp ho

/-- A command of the owner that the slot's state or kind does not permit (R165). -/
theorem answers_notPermitted (hc : exec c s = .next (s.doorbellCmd .host k cmd f)) (hf : f p s.answerDone = none) (hcmd : cmd < 16) :
    Answers c s fun u => s.refuses u cmd 3 k :=
  answers_refused hc ((State.doorbellCmd_own hs hp ho).trans (by rw [hf]; rfl)) (by decide) hcmd

/-- A command of the owner that has its effect. -/
theorem answers_permitted (hc : exec c s = .next (s.doorbellCmd .host k cmd f)) (hf : f p s.answerDone = some t) (ht : P t) :
    Answers c s P :=
  ⟨t, hc.trans (congrArg _ ((State.doorbellCmd_own hs hp ho).trans (by rw [hf]; rfl))), ht⟩

end

end Sys2Proof.Machine

open Sys2Proof Sys2Proof.Machine

/-- Settles O32: a command is refused in MOP.ERR (`answers_refusedAll`, `answers_notPermitted`), or has the effect of its
function on the slot (`answers_permitted`): the four outcomes of QUEUE, a completion (`State.endRequest_completed`), or a free
slot. -/
theorem slotCommands : Obligations.SlotCommands := by
  refine fun s k hs => ⟨fun hp => ?nopool, fun p hp => ⟨fun ho => ?other, fun ho => ⟨fun h => ?notStaged, fun h => ?notQueued,
    fun h => ?notEnded, fun cmd => ?unknown, fun h => ?release, fun hkind hcopy => ⟨fun hst => ?abandon, fun hst hlayout => ?queue,
      fun hst hhead => ?cancel, fun hst hidle => ?stop⟩⟩⟩⟩
  case nopool => exact answers_refusedAll (fun _ _ => State.doorbellCmd_noPool hs hp) (by decide)
  case other => exact answers_refusedAll (fun _ _ => State.doorbellCmd_other hs hp ho) (by decide)
  case notStaged =>
    exact ⟨answers_notPermitted hs hp ho rfl (State.mopQueue_none h) (by decide),
      answers_notPermitted hs hp ho rfl (State.mopAbandon_none h) (by decide)⟩
  case notQueued => exact answers_notPermitted hs hp ho rfl (State.mopCancel_none h) (by decide)
  case notEnded => exact answers_notPermitted hs hp ho rfl (State.mopRelease_none h) (by decide)
  case unknown => exact answers_notPermitted hs hp ho rfl rfl cmd.isLt
  case release =>
    exact answers_permitted hs hp ho rfl (State.mopRelease_ended h) ⟨State.releaseRx_free, State.releaseRx_resp⟩
  case abandon =>
    refine answers_permitted hs hp ho rfl (State.mopAbandon_staged hkind hst) ⟨State.setSlotState_desc _ _ (by decide),
      OnlyM.writes (l := [.resp, .MOP_DESC, .MOP_POOL_STAT, .MOP_PORTQ])
        (State.setSlotState_only (State.answerDone_only .refl (Sub.of_within (by decide))) (Sub.of_within (by decide)))
        (fun a ha => ?_) (by simp [Part.same])⟩
    simp only [List.mem_cons, List.not_mem_nil, or_false, not_or] at ha
    exact State.word_setSlotState_unqueued (s := s.answerDone) hp (by rw [State.answerDone_get, hst]; decide) (by decide) ha.1 ha.2
  case queue =>
    have hqueue := State.mopQueue_staged (s := s.answerDone) hkind hst hlayout hcopy
    refine ⟨fun code hcheck => ?_, fun hcheck => ⟨fun htag => ?_, fun g htag hg => ?_, fun g x c ns sec htag hg hx hc => ?_⟩⟩
    · exact answers_permitted hs hp ho rfl hqueue (State.queueSlot_aborted hcheck hcopy)
    · exact answers_permitted hs hp ho rfl hqueue (State.queueSlot_queued hcheck htag)
    · exact answers_permitted hs hp ho rfl hqueue (State.queueSlot_behind hcheck htag hg)
    · obtain ⟨⟨hstate, hcode⟩, hrest⟩ := State.queueSlot_completed (s := s.answerDone) (t := s.now) hcheck htag hg hx hc
      exact answers_permitted hs hp ho rfl hqueue ⟨hstate, hcode, hrest⟩
  case cancel =>
    exact answers_permitted hs hp ho rfl (State.mopCancel_waiting hkind hst) (State.endRequest_completed (by decide) hcopy hhead)
  case stop =>
    refine answers_permitted hs hp ho rfl (State.mopCancel_sending hkind hst hidle) ⟨by rw [State.slotHid_modSlot]; rfl,
      OnlyM.writes (l := [.store, .resp])
        (State.modSlot_only (State.answerDone_only .refl (Sub.of_within (by decide))) (Sub.of_within (by decide)))
        (fun _ _ => rfl) (by simp)⟩

end

section

namespace Sys2Proof.Machine

/-! ## Monitors (R184) -/

/-- A mailbox in slot 0, of a pool of the host, at one second of local time. -/
def mailboxAtSecond : State :=
  { ((State.reset.set (readyLoc 14) 1).set (MOP_POOL_CFG1_KIND 0) kindMBX).set (MOP_POOL_CFG1_OWNER 0) 64 with
    time := { ns := 1000000000 } }

theorem mailboxAtSecond_serves : mailboxAtSecond.serves 14 ∧ mailboxAtSecond.ownMailbox .host 0 = true := by
  unfold State.serves; decide +kernel

/-- Arming monitor 0 for that mailbox writes the second word of MON_NEXT too, at +4: its first deadline has 1 in SEC. -/
theorem mailboxAtSecond_arm : Answers (.monitorArm .host 0 0 false false) mailboxAtSecond fun t =>
    t.word ((MOP_MON_NEXT_NS 0).addr + 4) ≠ mailboxAtSecond.word ((MOP_MON_NEXT_NS 0).addr + 4) :=
  ⟨_, rfl, by decide +kernel⟩

end Sys2Proof.Machine

open Sys2Proof Sys2Proof.Machine

/-- Refutes O33: the frame of MONITOR_ARM lists `(MOP_MON_NEXT_SEC m).addr`, which is the offset of the register's low word, as
`(MOP_MON_NEXT_NS m).addr` is. SEC lies in the word at +4 (R5, R188), which the list lacks, and arming sets it to the seconds of
the first deadline (R184): in `mailboxAtSecond` from 0 to 1. -/
theorem not_selectionAndMonitors : ¬ Obligations.SelectionAndMonitors := by
  rintro ⟨-, -, arming, -, -⟩
  obtain ⟨hserves, hmailbox⟩ := mailboxAtSecond_serves
  obtain ⟨t, hrun, hwritten⟩ := mailboxAtSecond_arm
  obtain ⟨u, hrun', -, -, -, -, -, -, hwrites⟩ := (arming mailboxAtSecond 0 0 false false hserves).1 hmailbox
  obtain rfl := Host.Outcome.next.inj (hrun.symm.trans hrun')
  exact hwritten (hwrites.words _ (by decide))

end

/-! # Acceptance catalogue: searches, update instants and update commands (O34, O35) -/

section

set_option Elab.async false

namespace Sys2Proof.Machine

/-! ## What a search reads (R190, R191, R200)

Before a search reads the tables, the engine may leave IDLE, a sounding record may be spoilt, and the search that it replaces gives
back its slot and buffer. None of it touches what the search reads. -/

/-- What is moved before a search, or before the CAN XL candidate is completed. -/
def searchParts : List Part := [.ports, .obs, .store, .BT_STAT] ++ fspParts

/-- The set of `searchParts`. -/
abbrev searchMask : Nat := maskOf searchParts

theorem searchMask_tables : awayIn searchMask 0x02800000 0x02A00000 = true := by decide +kernel

theorem searchMask_modes : ([0x01000008, 0x01000108].all fun c => awayFam searchMask c 0x1000 128) = true := by decide +kernel

section

variable {s t : State} (h : OnlyM searchMask s t)
include h

/-- A field of the catalogue's registers that all requesters share. -/
theorem OnlyM.tableField {l : Loc} (ha : 0x02800000 ≤ l.addr ∧ l.addr < 0x02A00000) (hw : l.lo + l.len ≤ 32) :
    t.get l = s.get l :=
  h.getAway l (awayIn_spec searchMask_tables ha.1 ha.2) (.inl hw)

theorem OnlyM.entryWord : t.entryWord = s.entryWord := by
  have hcat : t.cat = s.cat := h.cat.resolve_left (by decide)
  have hword (i w : Nat) : t.word (CAT_ENTRY_W i w).addr = s.word (CAT_ENTRY_W i w).addr :=
    h.word _ (awayIn_spec searchMask_tables (by simp only [CAT_ENTRY_W]; omega) (by simp only [CAT_ENTRY_W]; omega))
  funext sof i w
  simp only [State.entryWord, hcat, hword]

theorem OnlyM.catLookup : t.catLookup = s.catLookup := by
  have hcat : t.cat = s.cat := h.cat.resolve_left (by decide)
  funext n sof k
  simp only [State.catLookup, hcat, h.entryWord]

theorem OnlyM.candOf : t.candOf = s.candOf := by
  funext sof fmt rmt e
  simp only [State.candOf, h.entryWord]

theorem OnlyM.presented (n : Nat) (f : Frame) : t.presented n f = s.presented n f := by
  simp only [State.presented, State.flag,
    h.tableField (l := CAT_PADDR_HI_ADDR n) (by simp only [CAT_PADDR_HI_ADDR]; omega) (of_decide_eq_true rfl),
    h.tableField (l := CAT_PADDR_LO_ADDR n) (by simp only [CAT_PADDR_LO_ADDR]; omega) (of_decide_eq_true rfl),
    h.tableField (l := CAT_PBIND_PROMISC n) (by simp only [CAT_PBIND_PROMISC]; omega) (of_decide_eq_true rfl)]

theorem OnlyM.portCarries (n fmt : Nat) : t.portCarries n fmt = s.portCarries n fmt := by
  simp only [State.portCarries, State.flag,
    h.lineField (n := n) (l := LP_CFG_MODE n) searchMask_modes rfl (by decide) (of_decide_eq_true rfl),
    h.lineField (n := n) (l := BT_CFG_FD_IN_XL n) searchMask_modes rfl (by decide) (of_decide_eq_true rfl)]

theorem OnlyM.fallback (d : Nat) : t.fallback d = s.fallback d := by
  unfold State.fallback State.link
  rw [h.links.resolve_left (by decide)]

end

/-! ## The search at the end of the identifier field (R191) -/

/-- The combinations of format and remote flag that a frame can still take. -/
def State.combos (s : State) (n : Nat) (f : Frame) : List (Nat × Bool) :=
  if f.fmt == fmtEth then [(fmtEth, false)]
  else [(fmtCC, false), (fmtCC, true), (fmtFD, false), (fmtXL, false)].filter fun c => s.portCarries n c.1

/-- The candidate of a combination: none yet of CAN XL, none of an Ethernet frame that is not presented. -/
def State.searchCand (s : State) (n sof : Nat) (f : Frame) (c : Nat × Bool) : Cand :=
  s.candOf sof c.1 c.2 (if c.1 == fmtXL || (c.1 == fmtEth && !s.presented n f) then none
    else s.catLookup n sof { catKey f with fmt := c.1, rmt := c.2 })

section

variable (s : State) (n sof : Nat) (f : Frame)

theorem State.mem_combos {fmt : Nat} {rmt : Bool} (hf : f.fmt ≠ fmtEth) (hfmt : fmt ≤ fmtXL) (hc : s.portCarries n fmt = true)
    (hr : rmt = false ∨ fmt = fmtCC) : (fmt, rmt) ∈ s.combos n f := by
  have hcan : (f.fmt == fmtEth) = false := by simpa using hf
  simp only [State.combos, hcan, Bool.false_eq_true, if_false, List.mem_filter, hc, and_true]
  simp only [fmtXL] at hfmt
  simp only [fmtCC, fmtFD, fmtXL, List.mem_cons, Prod.mk.injEq, List.not_mem_nil, or_false]
  rcases hr with rfl | rfl
  · simp only [and_true, Bool.false_eq_true, and_false, false_or]
    omega
  · cases rmt <;> simp [fmtCC]

/-- The words of a candidate are those of its entry, as the search meets them (R201). -/
theorem State.words_candOf {fmt i : Nat} {rmt : Bool} {e : Option Nat} (h : e = some i) :
    (s.candOf sof fmt rmt e).words = (List.range 8).map (s.entryWord sof i) := by
  subst h; rfl

theorem State.entry_searchCand (c : Nat × Bool) : (s.searchCand n sof f c).entry =
    if c.1 = fmtXL ∨ (c.1 = fmtEth ∧ s.presented n f = false) then none
    else s.catLookup n sof { catKey f with fmt := c.1, rmt := c.2 } := by
  simp only [State.searchCand, State.candOf, Bool.or_eq_true, Bool.and_eq_true, beq_iff_eq, Bool.not_eq_true']

theorem State.search_modPort (p : Port → Option Search) :
    (((s.modPort n fun q => { q with search := p q }).port n).search) = p (s.port n) := by
  rw [State.port_modPort_self]

/-- Whatever becomes of the frame's own combination, the search holds every candidate. -/
theorem State.searchFrame_cands : ∃ sr, ((s.searchFrame n sof f).port n).search = some sr ∧ sr.sof = sof ∧
    sr.cands = ((s.cancelSearch n).combos n f).map ((s.cancelSearch n).searchCand n sof f) := by
  unfold State.searchFrame
  dsimp only
  split
  · exact ⟨_, State.search_modPort .., rfl, rfl⟩
  · split
    · exact ⟨_, State.search_modPort .., rfl, rfl⟩
    · exact ⟨_, State.search_modPort .., rfl, rfl⟩

/-- The engine in IDLE is receiving, and its sounding record is spoilt (R117, R142). -/
def State.beginReception : State := (if s.bstate n = 2 then s.setB n 3 else s).discardRecord n

theorem State.beginReception_only : OnlyM searchMask s (s.beginReception n) := by
  unfold State.beginReception
  exact State.discardRecord_only (.ite (State.setB_only .refl (Sub.of_within (by decide))) .refl) (Sub.of_within (by decide))

/-- The candidates of a search are those that the state before it gives. -/
theorem execCatalogueSearch_spec (n : PortNo) (hfb : s.fallback (dieOf n) = false) :
    ∃ t sr, execCatalogueSearch n sof f s = .next t ∧ (t.port n).search = some sr ∧ sr.sof = sof ∧
      sr.cands = (s.combos n f).map (s.searchCand n sof f) := by
  let u := s.beginReception n
  have hu : OnlyM searchMask s (u.cancelSearch n) :=
    State.cancelSearch_only (s.beginReception_only n) (Sub.of_within (by decide))
  have hrun : execCatalogueSearch n sof f s = .next (u.searchFrame n sof f) :=
    congrArg Host.Outcome.next (if_neg (Bool.eq_false_iff.mp (((s.beginReception_only n).fallback _).trans hfb)))
  obtain ⟨sr, hsr, hsof, hcands⟩ := u.searchFrame_cands n sof f
  refine ⟨_, sr, hrun, hsr, hsof, ?_⟩
  have hcombos : (u.cancelSearch n).combos n f = s.combos n f := by simp only [State.combos, hu.portCarries]
  have hcand : (u.cancelSearch n).searchCand n sof f = s.searchCand n sof f := by
    funext c
    simp only [State.searchCand, hu.candOf, hu.presented, hu.catLookup]
  rw [hcands, hcombos, hcand]

end

/-! ## The CAN XL candidate (R191) -/

section

variable {s : State} {n : Nat} {f : Frame} {sr : Search}

/-- The candidate of CAN XL once SDT, VCID and AF are known. -/
def State.xlCand (s : State) (n sof : Nat) (f : Frame) : Cand := s.candOf sof fmtXL false (s.catLookup n sof (catKey f))

theorem State.completeXl_waiting (h : (s.port n).search = some sr) (hxl : sr.xl = false) :
    ∃ sr', ((s.completeXl n f).port n).search = some sr' ∧ sr'.sof = sr.sof ∧ sr'.xl = true ∧
      sr'.cands = sr.cands.map fun d => if d.fmt == fmtXL then s.xlCand n sr.sof f else d := by
  unfold State.completeXl
  simp only [h, hxl, Bool.false_eq_true, if_false]
  split
  · exact ⟨_, State.search_modPort .., rfl, rfl, rfl⟩
  · exact ⟨_, State.search_modPort .., rfl, rfl, rfl⟩

theorem State.completeXl_complete (h : (s.port n).search = some sr) (hxl : sr.xl = true) : s.completeXl n f = s := by
  simp only [State.completeXl, h, hxl, if_true]

/-- The fields known lie in the data phase (R106). -/
def State.beginData (s : State) (n : Nat) : State := s.when (s.bstate n = 3) fun s => s.put (BT_STAT_PHASE n) true

theorem State.beginData_only (s : State) (n : Nat) : OnlyM (maskOf [.BT_STAT]) s (s.beginData n) :=
  State.when_only .refl fun _ h => State.put_only (BT_STAT_PHASE_holds n) h (by decide)

theorem execXlCandidateComplete_eq {n : PortNo} (hfb : s.fallback (dieOf n) = false) (hf : f.fmt = fmtXL) :
    execXlCandidateComplete n f s = .next ((s.beginData n).completeXl n f) := by
  have hfb' : (s.beginData n).fallback (dieOf n) = false :=
    (OnlyM.fallback ((s.beginData_only n).mono (Sub.of_within (by decide))) _).trans hfb
  unfold execXlCandidateComplete
  rw [if_neg (by simp [hf])]
  exact congrArg Host.Outcome.next (if_neg (Bool.eq_false_iff.mp hfb'))

end

/-! ## Status and entries of an update (R204, R206) -/

/-- What an update's acceptance, refusal and end change. -/
def updateParts : List Part := raiseParts ++ [.cat, .CAT_UPD_STAT, .CAT_UPD_IDX]

theorem updateMask_entries : awayIn (maskOf updateParts) 0x02900000 0x02A00000 = true := by decide +kernel

theorem raiseMask_status : awayFam (maskOf raiseParts) 0x102800004 0x100000000 128 = true := by decide +kernel

/-- The content of the store is the same in both states. -/
def SameEntries (s t : State) : Prop := ∀ j < 32768, ∀ k < 8, t.word (CAT_ENTRY_W j k).addr = s.word (CAT_ENTRY_W j k).addr

/-- CAT.UPD_STAT of a requester reads a state, a code and a reason. -/
def State.updStat (s : State) (q state code reason : Nat) : Prop :=
  s.get (CAT_UPD_STAT_STATE q) = state ∧ s.get (CAT_UPD_STAT_REFUSE q) = code ∧ s.get (CAT_UPD_STAT_REASON q) = reason

/-- CAT.UPD_STAT of a requester is set. -/
def State.setUpdStat (s : State) (q state code reason : Nat) : State :=
  ((s.set (CAT_UPD_STAT_STATE q) state).set (CAT_UPD_STAT_REFUSE q) code).set (CAT_UPD_STAT_REASON q) reason

section

variable {s t : State} {q state code reason : Nat}

theorem OnlyM.entries (h : OnlyM (maskOf updateParts) s t) : SameEntries s t := fun _ _ _ _ =>
  h.word _ (awayIn_spec updateMask_entries (by simp only [CAT_ENTRY_W]; omega) (by simp only [CAT_ENTRY_W]; omega))

/-- A ledger record leaves the status alone. -/
theorem OnlyM.updStat (h : OnlyM (maskOf raiseParts) s t) (hs : s.updStat q state code reason) : t.updStat q state code reason := by
  have field (l : Loc) (hl : l.addr = perRequester q + 0x02800004) (hw : l.lo + l.len ≤ 32) : t.get l = s.get l :=
    h.getAway l (by
      rw [hl, show perRequester q + 0x02800004 = 0x102800004 + 0x100000000 * (q % 128) by unfold perRequester; omega]
      exact awayFam_spec (by decide) raiseMask_status) (.inl hw)
  obtain ⟨hstate, hcode, hreason⟩ := hs
  exact ⟨(field _ rfl (of_decide_eq_true rfl)).trans hstate, (field _ rfl (of_decide_eq_true rfl)).trans hcode,
    (field _ rfl (of_decide_eq_true rfl)).trans hreason⟩

theorem State.setUpdStat_reads (s : State) (q reason : Nat) (hs : state < 4) (hc : code < 16) :
    (s.setUpdStat q state code reason).updStat q state code (reason % 65536) := by
  unfold State.setUpdStat
  refine ⟨?_, ?_, ?_⟩
  · rw [State.get_set_apart _ _ _ _ (Loc.apart_of_bits rfl), State.get_set_apart _ _ _ _ (Loc.apart_of_bits rfl),
      State.get_set_self _ _ _ (of_decide_eq_true rfl)]
    exact Nat.mod_eq_of_lt hs
  · rw [State.get_set_apart _ _ _ _ (Loc.apart_of_bits rfl), State.get_set_self _ _ _ (of_decide_eq_true rfl)]
    exact Nat.mod_eq_of_lt hc
  · exact State.get_set_self _ _ _ (of_decide_eq_true rfl)

theorem State.setUpdStat_only (s : State) (q state code reason : Nat) :
    OnlyM (maskOf [.CAT_UPD_STAT]) s (s.setUpdStat q state code reason) :=
  State.set_only (CAT_UPD_STAT_REASON_holds q) (State.set_only (CAT_UPD_STAT_REFUSE_holds q)
    (State.set_only (CAT_UPD_STAT_STATE_holds q) .refl (by decide)) (by decide)) (by decide)

theorem State.raise_raiseMask (s : State) (src detail : Nat) : OnlyM (maskOf raiseParts) s (s.raise src detail) :=
  State.raise_only .refl (Sub.of_within (by decide))

end

/-! ## The instant of an update (R206, R207) -/

section

variable {s t : State}

/-- A run of writes to distinct words leaves each with its own value. -/
theorem State.word_each_setWord (s : State) {addr : Nat → Nat} {val : Nat → Word} {n k : Nat} (hk : k < n)
    (hinj : ∀ x < n, addr k = addr x → k = x) :
    (s.each (List.range n) fun s x => s.setWord (addr x) (val x)).word (addr k) = val k := by
  induction n with
  | zero => omega
  | succ n ih =>
    simp only [State.each, List.range_succ, List.foldl_append, List.foldl_cons, List.foldl_nil, State.word_setWord]
    split
    next h => rw [hinj n (by omega) h]
    next h => exact ih (by have : k ≠ n := (h <| congrArg addr ·); omega) fun x hx => hinj x (by omega)

theorem State.word_setEntry {i k : Nat} (ws : List Word) (hk : k < 8) :
    (s.setEntry i ws).word (CAT_ENTRY_W i k).addr = ws.getD k 0 :=
  s.word_each_setWord (addr := fun w => (CAT_ENTRY_W i w).addr) (val := fun w => ws.getD w 0) hk fun x hx h => by
    simp only [CAT_ENTRY_W] at h
    omega

/-- An entry is written in its own words. -/
theorem State.word_setEntry_ne {i a : Nat} (ws : List Word) (h : ∀ w, a ≠ (CAT_ENTRY_W i w).addr) :
    (s.setEntry i ws).word a = s.word a :=
  State.each_keeps (P := fun u : State => u.word a = s.word a) _ rfl fun u w hu => by
    rw [State.word_setWord, if_neg (h w), hu]

/-- A stamp reads as the instant. -/
theorem State.get_stamp_self (s : State) (a v : Nat) :
    (s.setStamp a v).get ⟨a, 0, 32⟩ = nsOf v ∧ (s.setStamp a v).get ⟨a, 32, 32⟩ = secOf v % 2 ^ 32 := by
  have hns : nsOf v < 1000000000 := Nat.mod_lt _ (by decide)
  have hsec : secOf v % 2 ^ 32 < 2 ^ 32 := Nat.mod_lt _ (by decide)
  have hv : (BitVec.ofNat 64 (stampWord v)).toNat = nsOf v + secOf v % 2 ^ 32 * 2 ^ 32 := by
    rw [BitVec.toNat_ofNat]
    exact Nat.mod_eq_of_lt (by unfold stampWord; omega)
  constructor
  · simp only [State.get, State.setStamp, State.word_setWord64, bitsOf, Nat.zero_add, Nat.le_refl, if_true]
    rw [if_neg (by omega), BitVec.extractLsb'_toNat, hv]
    simp only [Nat.shiftRight_zero]
    omega
  · simp only [State.get, State.setStamp, State.word64_setWord64, bitsOf, hv]
    rw [if_neg (by decide), Nat.shiftRight_eq_div_pow]
    omega

/-- The head of the order takes effect: its words are stored, and U is recorded. -/
def State.takeEffect (s : State) (c : CatCmd) : State :=
  let u := (s.setEntry c.idx c.words).setStamp (CAT_UPD_T_NS c.req).addr s.now
  { u with cat := { u.cat with
      applied := some (u.now, c.idx, (List.range 8).map fun w => s.word (CAT_ENTRY_W c.idx w).addr)
      updated := smapPut (fun _ => 0) u.cat.updated c.idx u.now } }

/-- Beside that, only the count of the entries in use follows. -/
theorem execCatUpdateApply_takesEffect {c : CatCmd} {r : List CatCmd} (ho : s.cat.order = c :: r) (ha : s.cat.applied = none) :
    ∃ t, execCatUpdateApply s = .next t ∧ OnlyM (maskOf [.CAT_USE]) (s.takeEffect c) t := by
  unfold execCatUpdateApply State.takeEffect
  rw [ho, ha]
  dsimp only
  split
  · exact ⟨_, rfl, State.set_only CAT_USE_USED_holds .refl (by decide)⟩
  · split
    · exact ⟨_, rfl, State.set_only CAT_USE_USED_holds .refl (by decide)⟩
    · exact ⟨_, rfl, .refl⟩

theorem State.takeEffect_cat (s : State) (c : CatCmd) : (s.takeEffect c).cat.order = s.cat.order ∧
    (s.takeEffect c).cat.applied = some (s.now, c.idx, (List.range 8).map fun w => s.word (CAT_ENTRY_W c.idx w).addr) := by
  have h : OnlyM (maskOf [.CAT_ENTRY]) s (s.setEntry c.idx c.words) := State.setEntry_only .refl (Sub.of_within (by decide))
  simp only [State.takeEffect, State.now, State.setStamp_cat, State.setStamp_time, h.cat.resolve_left (by decide),
    h.time.resolve_left (by decide), and_self]

theorem entryW_below_updT (j k q : Nat) : (CAT_ENTRY_W j k).addr < (CAT_UPD_T_NS q).addr := by
  have hlow : (CAT_ENTRY_W j k).addr < 0x100000000 := by
    simp only [CAT_ENTRY_W]
    omega
  have hhigh : 0x100000000 ≤ (CAT_UPD_T_NS q).addr := by
    simp only [CAT_UPD_T_NS, perRequester]
    omega
  exact Nat.lt_of_lt_of_le hlow hhigh

theorem State.word_setStamp_below (s : State) {a b : Nat} (v : Nat) (h : b < a) : (s.setStamp a v).word b = s.word b := by
  rw [State.setStamp, State.word_setWord64, if_neg (by omega), if_neg (by omega)]

theorem State.word_takeEffect (s : State) (c : CatCmd) (j k : Nat) :
    (s.takeEffect c).word (CAT_ENTRY_W j k).addr = (s.setEntry c.idx c.words).word (CAT_ENTRY_W j k).addr := by
  unfold State.takeEffect
  rw [State.word_mk, State.smapFind_regs, State.word_setStamp_below _ _ (entryW_below_updT j k c.req)]

theorem State.stamp_takeEffect (s : State) (c : CatCmd) : (s.takeEffect c).get (CAT_UPD_T_NS c.req) = nsOf s.now ∧
    (s.takeEffect c).get (CAT_UPD_T_SEC c.req) = secOf s.now % 2 ^ 32 := by
  unfold State.takeEffect
  rw [State.get_mk, State.get_mk, State.regsGet_regs, State.regsGet_regs]
  exact (s.setEntry c.idx c.words).get_stamp_self (CAT_UPD_T_NS c.req).addr s.now

/-- At the index of the command in progress a frame before U sees the words kept from before it, any other the stored ones. -/
theorem State.entryWord_applied {u i sof k : Nat} {old : List Word} (h : s.cat.applied = some (u, i, old)) :
    s.entryWord sof i k = if sof < u then old.getD k 0 else s.word (CAT_ENTRY_W i k).addr := by
  simp [State.entryWord, h]

theorem useMask_catalogue : awayIn (maskOf [.CAT_USE]) 0x02900000 0x9000000000 = true := by decide +kernel

/-- The command in progress ends (R206, R211). -/
theorem execCatUpdateDone_eq {c : CatCmd} {r : List CatCmd} {a : Nat × Nat × List Word} (ho : s.cat.order = c :: r)
    (ha : s.cat.applied = some a) : execCatUpdateDone s =
      .next (({ s with cat := { s.cat with order := r, applied := none } }.setUpdStat c.req 2 0 0).raise 1588 c.req) := by
  unfold execCatUpdateDone
  rw [ho, ha]
  rfl

end

end Sys2Proof.Machine

open Sys2Proof Sys2Proof.Machine

/-- Settles O34: a search holds the candidates that the tables give before it (`execCatalogueSearch_spec`), the CAN XL candidate
is completed once (`State.completeXl_waiting`, `State.completeXl_complete`), and the head of the order takes effect at the present
instant, from which `State.entryWord` tells the frames apart. -/
theorem searchesAndUpdateInstants : Obligations.SearchesAndUpdateInstants := by
  refine ⟨⟨fun s n sof f hfb => ?search, fun s n f sr hfb hf hsr => ⟨fun hxl => ?completes, fun hxl => ?complete⟩⟩,
    fun s c r ho hidx hreq => ⟨fun ha => ?applies, fun a ha => ⟨?inProgress, ?done⟩⟩⟩
  case search =>
    obtain ⟨t, sr, hrun, hsr, hsof, hcands⟩ := execCatalogueSearch_spec s sof f n hfb
    refine ⟨t, hrun, sr, hsr, hsof, fun hf fmt rmt hfmt hc hr => ?_, fun c hc => ?_, fun c hc i hi => ?_⟩
    · exact ⟨_, hcands ▸ List.mem_map_of_mem (s.mem_combos n f hf hfmt hc hr), rfl, rfl⟩
    · obtain ⟨x, -, rfl⟩ := List.mem_map.mp (hcands ▸ hc)
      exact s.entry_searchCand n sof f x
    · obtain ⟨x, -, rfl⟩ := List.mem_map.mp (hcands ▸ hc)
      exact s.words_candOf sof hi
  case completes =>
    let u := s.beginData n
    have hu : OnlyM searchMask s u := (s.beginData_only n).mono (Sub.of_within (by decide))
    have hport : u.port n = s.port n := (s.beginData_only n).port (by decide) n
    obtain ⟨sr', hsr', hsof, hxl', hcands⟩ := State.completeXl_waiting (s := u) (f := f) (hport ▸ hsr) hxl
    refine ⟨_, execXlCandidateComplete_eq hfb hf, sr', hsr', hsof, hxl', fun c hc hfmt => ?_⟩
    obtain ⟨d, -, rfl⟩ := List.mem_map.mp (hcands ▸ hc)
    have hcand : u.xlCand n sr.sof f = s.xlCand n sr.sof f := by
      simp only [State.xlCand, hu.candOf, hu.catLookup]
    split at hfmt
    next h => rw [if_pos h, hcand]; exact ⟨rfl, fun i hi => s.words_candOf sr.sof hi⟩
    next h => exact absurd (beq_iff_eq.mpr hfmt) h
  case complete =>
    have hu := s.beginData_only n
    have hport : (s.beginData n).port n = s.port n := hu.port (by decide) n
    refine ⟨_, execXlCandidateComplete_eq hfb hf, ?_⟩
    rw [State.completeXl_complete (hport ▸ hsr) hxl]
    exact hu.ports_eq (by decide)
  case applies =>
    obtain ⟨t, hrun, ht⟩ := execCatUpdateApply_takesEffect ho ha
    obtain ⟨horder, happlied⟩ := s.takeEffect_cat c
    obtain ⟨hns, hsec⟩ := s.stamp_takeEffect c
    rw [← ht.cat.resolve_left (by decide)] at horder happlied
    have hword (j k : Nat) : t.word (CAT_ENTRY_W j k).addr = (s.setEntry c.idx c.words).word (CAT_ENTRY_W j k).addr :=
      (ht.word _ (awayIn_spec useMask_catalogue (by simp only [CAT_ENTRY_W]; omega) (by simp only [CAT_ENTRY_W]; omega))).trans
        (s.word_takeEffect c j k)
    have hstamp (l : Loc) (hl : l.addr = perRequester c.req + 0x02800010) : t.get l = (s.takeEffect c).get l := by
      unfold perRequester at hl
      exact ht.getAway l (awayIn_spec useMask_catalogue (by omega) (by omega))
        (.inr (awayIn_spec useMask_catalogue (by omega) (by omega)))
    refine ⟨t, hrun, fun k hk => ⟨?_, fun sof hsof => ?_, fun sof hsof => ?_⟩, (hstamp (CAT_UPD_T_NS c.req) rfl).trans hns,
      (hstamp (CAT_UPD_T_SEC c.req) rfl).trans hsec, horder, fun j hj hne k hk => ?_⟩
    · rw [hword, State.word_setEntry _ hk]
    · rw [State.entryWord_applied happlied, if_neg (by omega), hword, State.word_setEntry _ hk]
    · rw [State.entryWord_applied happlied, if_pos hsof]
      simp [hk]
    · rw [hword, State.word_setEntry_ne]
      intro w
      simp only [CAT_ENTRY_W]
      omega
  case inProgress => exact ⟨s, by rw [exec_catUpdateApply]; unfold execCatUpdateApply; rw [ho, ha], rfl⟩
  case done =>
    let u : State := { s with cat := { s.cat with order := r, applied := none } }
    have hraise := (u.setUpdStat c.req 2 0 0).raise_raiseMask 1588 c.req
    obtain ⟨hstate, hcode, -⟩ := hraise.updStat (u.setUpdStat_reads c.req 0 (state := 2) (code := 0) (by decide) (by decide))
    have hcat : (u.setUpdStat c.req 2 0 0).cat = u.cat := (u.setUpdStat_only ..).cat.resolve_left (by decide)
    exact ⟨_, execCatUpdateDone_eq ho ha, hstate, hcode, (hraise.cat.resolve_left (by decide)).trans hcat⟩

end

section

set_option Elab.async false

namespace Sys2Proof.Machine

/-! ## Refusal and acceptance of an update command (R204 to R207) -/

/-- From `s` to `t` a requester's command is refused with a code and a reason, and nothing else of the catalogue changes. -/
def CatRefused (s t : State) (q code reason : Nat) : Prop :=
  t.updStat q 3 code (reason % 65536) ∧ t.cat = s.cat ∧ SameEntries s t

/-- From `s` to `t` a command is accepted behind all others: it is PENDING, with an index in CAT.UPD_IDX. -/
def CatAccepted (s t : State) (c : CatCmd) : Prop :=
  t.get (CAT_UPD_STAT_STATE c.req) = 1 ∧ t.get (CAT_UPD_IDX_INDEX c.req) = c.idx % 32768 ∧
    t.cat = { s.cat with order := s.cat.order ++ [{ c with tick := s.ticks }] } ∧ SameEntries s t

section

variable (s : State) {q code idx : Nat} {c : CatCmd}

theorem State.catRefuse_refused (reason : Nat) (hc : code < 16) : CatRefused s (s.catRefuse q code reason) q code reason := by
  have hraise := (s.setUpdStat q 3 code reason).raise_raiseMask 1589 (q + code * 256)
  have hcat : (s.setUpdStat q 3 code reason).cat = s.cat := (s.setUpdStat_only ..).cat.resolve_left (by decide)
  have hentries : OnlyM (maskOf updateParts) s (s.catRefuse q code reason) := State.catRefuse_only .refl (Sub.of_within (by decide))
  exact ⟨hraise.updStat (s.setUpdStat_reads q reason (by decide) hc), (hraise.cat.resolve_left (by decide)).trans hcat,
    hentries.entries⟩

/-- A command of the highest requester number comes behind all others (R207). -/
theorem insertCmd_last {l : List CatCmd} (h : ∀ d ∈ l, d.req ≤ c.req) : insertCmd c l = l ++ [c] := by
  induction l with
  | nil => rfl
  | cons d ds ih =>
    have hd : ¬ c.req < d.req := Nat.not_lt.mpr (h d List.mem_cons_self)
    simp only [insertCmd, hd, decide_false, Bool.and_false, Bool.false_eq_true, if_false, List.cons_append]
    rw [ih fun e he => h e (List.mem_cons_of_mem _ he)]

theorem updIdx_apart (q : Nat) {l : Loc} (hl : l.addr = perRequester q + 0x02800004) (hw : l.lo + l.len ≤ 32) :
    l.apart (CAT_UPD_IDX_INDEX q) :=
  Loc.apart_of_addr hw (of_decide_eq_true rfl) (by simp only [CAT_UPD_IDX_INDEX]; omega)

theorem State.index_setUpdStat (state reason : Nat) :
    (s.setUpdStat q state code reason).get (CAT_UPD_IDX_INDEX q) = s.get (CAT_UPD_IDX_INDEX q) := by
  unfold State.setUpdStat
  rw [State.get_set_apart _ _ _ _ (updIdx_apart q rfl (of_decide_eq_true rfl)),
    State.get_set_apart _ _ _ _ (updIdx_apart q rfl (of_decide_eq_true rfl)),
    State.get_set_apart _ _ _ _ (updIdx_apart q rfl (of_decide_eq_true rfl))]

theorem State.catAccept_accepted (hlast : ∀ d ∈ s.cat.order, d.req ≤ c.req)
    (hidx : s.get (CAT_UPD_IDX_INDEX c.req) = c.idx % 32768) : CatAccepted s (s.catAccept c) c := by
  have hstat := s.setUpdStat_only c.req 1 0 0
  have hcat : (s.setUpdStat c.req 1 0 0).cat = s.cat := hstat.cat.resolve_left (by decide)
  have hticks : (s.setUpdStat c.req 1 0 0).ticks = s.ticks := congrArg TimeUnit.ticks (hstat.time.resolve_left (by decide))
  have hentries : OnlyM (maskOf updateParts) s (s.catAccept c) := State.catAccept_only .refl (Sub.of_within (by decide))
  have hget (l : Loc) : (s.catAccept c).get l = (s.setUpdStat c.req 1 0 0).get l := by
    unfold State.catAccept
    rw [State.get_mk, State.regsGet_regs]
    rfl
  refine ⟨(hget _).trans (s.setUpdStat_reads c.req 0 (state := 1) (code := 0) (by decide) (by decide)).1,
    (hget _).trans ((s.index_setUpdStat 1 0).trans hidx), ?_, hentries.entries⟩
  have horder (n : Nat) : s.cat.order.take n ++ insertCmd { c with tick := s.ticks } (s.cat.order.drop n) =
      s.cat.order ++ [{ c with tick := s.ticks }] := by
    rw [insertCmd_last (c := { c with tick := s.ticks }) fun d hd => hlast d (List.mem_of_mem_drop hd), ← List.append_assoc,
      List.take_append_drop]
  rw [← horder, ← hticks, ← hcat]
  rfl

/-- The way chosen stands in CAT.UPD_IDX (R205). -/
theorem State.catAccept_chosen (hlast : ∀ d ∈ s.cat.order, d.req ≤ c.req) :
    CatAccepted s ((s.set (CAT_UPD_IDX_INDEX c.req) c.idx).catAccept c) c := by
  have hset : OnlyM (maskOf updateParts) s (s.set (CAT_UPD_IDX_INDEX c.req) c.idx) :=
    State.set_only (CAT_UPD_IDX_INDEX_holds _) .refl (by decide)
  obtain ⟨hstate, hidx, hcat, hentries⟩ := (s.set (CAT_UPD_IDX_INDEX c.req) c.idx).catAccept_accepted (c := c)
    (by rwa [State.set_cat]) (State.get_set_self _ _ _ (of_decide_eq_true rfl))
  refine ⟨hstate, hidx, ?_, fun j hj k hk => (hentries j hj k hk).trans (hset.entries j hj k hk)⟩
  simpa only [State.set_cat, State.ticks, State.set_time] using hcat

end

/-! ## What each command does (R204, R205) -/

section

variable {s : State} {q t r : Nat}

/-! ### A code that names no command -/

theorem State.catUnknown_pending (h : ∃ c ∈ s.cat.order, c.req = q) : s.catUnknown q = s.catRefuse q 1 0 := by
  have hany : s.cat.order.any (·.req == q) = true := by simpa using h
  unfold State.catUnknown
  rw [hany, if_pos rfl]

theorem State.catUnknown_idle (h : ∀ c ∈ s.cat.order, c.req ≠ q) : s.catUnknown q = s.catRefuse q 3 0 := by
  have hany : s.cat.order.any (·.req == q) = false := by simpa using h
  unfold State.catUnknown
  rw [hany, if_neg Bool.false_ne_true]

/-! ### The conditions of every command -/

theorem State.catInsert_common (h : s.catCommon q t = some r) : s.catInsert q t = s.catRefuse q r 0 := by
  unfold State.catInsert; rw [h]

theorem State.catDelete_common (h : s.catCommon q t = some r) : s.catDelete q t = s.catRefuse q r 0 := by
  unfold State.catDelete; rw [h]

theorem State.catReplace_common (h : s.catCommon q t = some r) : s.catReplace q t = s.catRefuse q r 0 := by
  unfold State.catReplace; rw [h]

variable (hcommon : s.catCommon q t = none)
include hcommon

/-! ### DELETE and REPLACE -/

section

variable {i : Nat} (hidx : s.get (CAT_UPD_IDX_INDEX q) = i)
include hidx

theorem State.catDelete_outside (h : (s.tableOf t).inTable i = false) :
    s.catDelete q t = s.catRefuse q 3 0 := by
  simp [State.catDelete, hcommon, hidx, h]

theorem State.catReplace_outside (h : (s.tableOf t).inTable i = false) :
    s.catReplace q t = s.catRefuse q 3 0 := by
  simp [State.catReplace, hcommon, hidx, h]

section

variable (hin : (s.tableOf t).inTable i = true)
include hin

theorem State.catDelete_empty (h : s.get (CAT_ENTRY_KIND i) = 0) :
    s.catDelete q t = s.catRefuse q 5 0 := by
  simp [State.catDelete, hcommon, hidx, hin, h]

theorem State.catDelete_accepts (h : s.get (CAT_ENTRY_KIND i) ≠ 0) :
    s.catDelete q t = s.catAccept
      { req := q, code := 2, table := t, idx := i, words := List.replicate 8 0 } := by
  simp [State.catDelete, hcommon, hidx, hin, h]

theorem State.catReplace_empty (h : s.get (CAT_ENTRY_KIND i) = 0) :
    s.catReplace q t = s.catRefuse q 5 0 := by
  simp [State.catReplace, hcommon, hidx, hin, h]

theorem State.catReplace_exact (h : s.get (CAT_ENTRY_KIND i) = 1)
    (hkind : bitsOf (s.staged q 0) 0 3 ≠ 1) : s.catReplace q t = s.catRefuse q 6 0 := by
  simp [State.catReplace, hcommon, hidx, hin, h, hkind]

theorem State.catReplace_fails (h : 1 < s.get (CAT_ENTRY_KIND i))
    (hcheck : s.entryCheck (s.tableOf t) i (s.staged q) = some r) :
    s.catReplace q t = s.catRefuse q 8 r := by
  simp [State.catReplace, hcommon, hidx, hin, hcheck, Nat.ne_of_gt h, Nat.ne_of_gt (Nat.zero_lt_of_lt h)]

theorem State.catReplace_accepts (h : 1 < s.get (CAT_ENTRY_KIND i))
    (hcheck : s.entryCheck (s.tableOf t) i (s.staged q) = none) :
    s.catReplace q t = s.catAccept
      { req := q, code := 3, table := t, idx := i, words := s.liveWords q } := by
  simp [State.catReplace, hcommon, hidx, hin, hcheck, Nat.ne_of_gt h, Nat.ne_of_gt (Nat.zero_lt_of_lt h)]

end

/-! ### INSERT at an index of the ordered area -/

section

variable (hord : ¬(bitsOf (s.staged q 0) 0 3 = 1 ∧ (s.tableOf t).hash = true))
include hord

theorem State.catInsert_outside (h : (s.tableOf t).inOrdered i = false) :
    s.catInsert q t = s.catRefuse q 3 0 := by
  simp [State.catInsert, hcommon, hidx, hord, h]

variable (hin : (s.tableOf t).inOrdered i = true)
include hin

theorem State.catInsert_taken (h : s.get (CAT_ENTRY_KIND i) ≠ 0) :
    s.catInsert q t = s.catRefuse q 4 0 := by
  simp [State.catInsert, hcommon, hidx, hord, hin, h]

theorem State.catInsert_fails (h : s.get (CAT_ENTRY_KIND i) = 0)
    (hcheck : s.entryCheck (s.tableOf t) i (s.staged q) = some r) :
    s.catInsert q t = s.catRefuse q 8 r := by
  simp [State.catInsert, hcommon, hidx, hord, hin, h, hcheck]

theorem State.catInsert_accepts (h : s.get (CAT_ENTRY_KIND i) = 0)
    (hcheck : s.entryCheck (s.tableOf t) i (s.staged q) = none) :
    s.catInsert q t = s.catAccept
      { req := q, code := 1, table := t, idx := i, words := s.liveWords q } := by
  simp [State.catInsert, hcommon, hidx, hord, hin, h, hcheck]

end

end

/-! ### INSERT into the bucket of an exact key -/

section

/-- The ways of the bucket that the staged entry's key selects. -/
def State.stagedWays (s : State) (q t : Nat) : List Nat :=
  (s.tableOf t).ways (bitsOf (s.staged q 0) 7 1 = 1) (bitsOf (s.staged q 1) 0 29)

variable (hexact : bitsOf (s.staged q 0) 0 3 = 1 ∧ (s.tableOf t).hash = true)
  (hcheck : s.entryCheck (s.tableOf t) 32768 (s.staged q) = none)
include hexact hcheck

theorem State.catInsert_full (h : ∀ j ∈ s.stagedWays q t, s.get (CAT_ENTRY_KIND j) ≠ 0) :
    s.catInsert q t = s.catRefuse q 8 0x0205 := by
  have hnone : (s.stagedWays q t).find? (fun i => decide (s.get (CAT_ENTRY_KIND i) = 0)) = none :=
    List.find?_eq_none.mpr fun j hj => by simpa using h j hj
  unfold State.stagedWays at hnone
  simp [State.catInsert, hcommon, hexact, hcheck, hnone]

theorem State.catInsert_way {a b : List Nat} {j : Nat} (hways : s.stagedWays q t = a ++ j :: b)
    (ha : ∀ x ∈ a, s.get (CAT_ENTRY_KIND x) ≠ 0) (hj : s.get (CAT_ENTRY_KIND j) = 0) :
    s.catInsert q t = (s.set (CAT_UPD_IDX_INDEX q) j).catAccept
      { req := q, code := 1, table := t, idx := j, words := s.liveWords q } := by
  have hsome : (s.stagedWays q t).find? (fun i => decide (s.get (CAT_ENTRY_KIND i) = 0)) = some j :=
    List.find?_eq_some_iff_append.mpr ⟨by simpa using hj, a, b, hways, fun x hx => by simpa using ha x hx⟩
  unfold State.stagedWays at hsome
  simp [State.catInsert, hcommon, hexact, hcheck, hsome]

end

end

/-! ## The host's commands -/

section

variable {s u : State} {c : Instr} {f : Nat → State → State} {code reason : Nat}

/-- The answer to the write takes no part in the check of the staged entry. -/
theorem State.answerDone_entryCheck (s : State) : s.answerDone.entryCheck = s.entryCheck := by
  have hget : s.answerDone.get = s.get := rfl
  have hflag : s.answerDone.flag = s.flag := rfl
  have hword : s.answerDone.word = s.word := rfl
  have hpool : s.answerDone.poolOf = s.poolOf := rfl
  have hrx : s.answerDone.rxPool = s.rxPool := rfl
  have hports : s.answerDone.boundPorts = s.boundPorts := rfl
  unfold State.entryCheck State.entryFaults State.destDeclared State.destExists
  rw [hget, hflag, hword, hpool, hrx, hports]

/-- The host reaches its own bank (R203). -/
theorem State.catBank_host (hs : s.serves 13) (f : Nat → State → State) : s.catBank .host f = f 64 s.answerDone :=
  s.openWrite_host 0x02800000 _ (f 64) hs.1 hs.2

theorem answers_catRefused (hs : s.serves 13) (hc : exec c s = .next (s.catBank .host f)) (hcode : code < 16)
    (hf : f 64 s.answerDone = s.answerDone.catRefuse 64 code reason) :
    Answers c s fun u => u.get (CAT_UPD_STAT_STATE 64) = 3 ∧ u.get (CAT_UPD_STAT_REFUSE 64) = code ∧
      u.get (CAT_UPD_STAT_REASON 64) = reason % 65536 ∧ u.cat = s.cat ∧ SameEntries s u := by
  obtain ⟨⟨hstate, hrefuse, hreason⟩, hcat, hentries⟩ := s.answerDone.catRefuse_refused (q := 64) reason hcode
  exact ⟨_, by rw [hc, State.catBank_host hs, hf], hstate, hrefuse, hreason, hcat, hentries⟩

theorem answers_catAccepted {cmd : CatCmd} (hs : s.serves 13) (hc : exec c s = .next (s.catBank .host f))
    (hf : f 64 s.answerDone = u) (h : CatAccepted s.answerDone u cmd) :
    Answers c s fun u => CatAccepted s u cmd :=
  ⟨u, by rw [hc, State.catBank_host hs, hf], h⟩

end

end Sys2Proof.Machine

open Sys2Proof Sys2Proof.Machine

/-- Settles O35: a command that a condition refuses leaves what `State.catRefuse_refused` says, and any other stands behind all
others (`State.catAccept_accepted`, `State.catAccept_chosen`): no requester's number is above the host's. -/
theorem liveUpdateCommands : Obligations.LiveUpdateCommands := by
  intro s t hs hlast i w0 kind exactHash refused accepted
  have refuses {c : Instr} {f : Nat → State → State} {code reason : Nat} (hc : exec c s = .next (s.catBank .host f))
      (hf : f 64 s.answerDone = s.answerDone.catRefuse 64 code reason) (hcode : code < 16) : refused c code reason :=
    answers_catRefused hs hc hcode hf
  have accepts {c : Instr} {f : Nat → State → State} {u : State} {code idx : Nat} {ws : List Word}
      (hc : exec c s = .next (s.catBank .host f)) (hf : f 64 s.answerDone = u)
      (h : CatAccepted s.answerDone u { req := 64, code, table := t, idx, words := ws }) : accepted c code idx ws :=
    answers_catAccepted hs hc hf h
  have hlt : i = i % 32768 := (Nat.mod_eq_of_lt (s.get_lt (CAT_UPD_IDX_INDEX 64))).symm
  rw [← s.answerDone_entryCheck]
  have hidx : s.answerDone.get (CAT_UPD_IDX_INDEX 64) = i := State.answerDone_get ..
  refine ⟨fun hpending => refuses rfl (State.catUnknown_pending (s := s.answerDone) hpending) (by decide),
    fun hidle => refuses rfl (State.catUnknown_idle (s := s.answerDone) hidle) (by decide),
    fun r hr hr16 => ⟨refuses rfl (State.catInsert_common (s := s.answerDone) hr) hr16,
      refuses rfl (State.catDelete_common (s := s.answerDone) hr) hr16,
      refuses rfl (State.catReplace_common (s := s.answerDone) hr) hr16⟩,
    fun hcommon => ⟨fun hin => ?outside, fun hin => ⟨fun hk => ?empty, fun hk => ?delete, fun hk hkind => ?exact,
        fun hk => ⟨fun r hr => ?replaceFails, fun hr => ?replace⟩⟩,
      fun hord => ⟨fun hin => ?insertOutside, fun hin => ⟨fun hk => ?taken,
        fun hk => ⟨fun r hr => ?insertFails, fun hr => ?insert⟩⟩⟩,
      fun hexact hcheck => ⟨fun hfull => ?full, fun a b j hways ha hj => ?way⟩⟩⟩
  case outside =>
    exact ⟨refuses rfl (State.catDelete_outside (s := s.answerDone) hcommon hidx hin) (by decide),
      refuses rfl (State.catReplace_outside (s := s.answerDone) hcommon hidx hin) (by decide)⟩
  case empty =>
    exact ⟨refuses rfl (State.catDelete_empty (s := s.answerDone) hcommon hidx hin hk) (by decide),
      refuses rfl (State.catReplace_empty (s := s.answerDone) hcommon hidx hin hk) (by decide)⟩
  case delete =>
    exact accepts rfl (State.catDelete_accepts (s := s.answerDone) hcommon hidx hin hk)
      (s.answerDone.catAccept_accepted hlast (hidx.trans hlt))
  case exact => exact refuses rfl (State.catReplace_exact (s := s.answerDone) hcommon hidx hin hk hkind) (by decide)
  case replaceFails => exact refuses rfl (State.catReplace_fails (s := s.answerDone) hcommon hidx hin hk hr) (by decide)
  case replace =>
    exact accepts rfl (State.catReplace_accepts (s := s.answerDone) hcommon hidx hin hk hr)
      (s.answerDone.catAccept_accepted hlast (hidx.trans hlt))
  case insertOutside => exact refuses rfl (State.catInsert_outside (s := s.answerDone) hcommon hidx hord hin) (by decide)
  case taken => exact refuses rfl (State.catInsert_taken (s := s.answerDone) hcommon hidx hord hin hk) (by decide)
  case insertFails => exact refuses rfl (State.catInsert_fails (s := s.answerDone) hcommon hidx hord hin hk hr) (by decide)
  case insert =>
    exact accepts rfl (State.catInsert_accepts (s := s.answerDone) hcommon hidx hord hin hk hr)
      (s.answerDone.catAccept_accepted hlast (hidx.trans hlt))
  case full => exact refuses rfl (State.catInsert_full (s := s.answerDone) hcommon hexact hcheck hfull) (by decide)
  case way =>
    exact accepts rfl (State.catInsert_way (s := s.answerDone) hcommon hexact hcheck hways ha hj)
      (State.catAccept_chosen (c := { req := 64, code := 1, table := t, idx := j, words := s.liveWords 64 }) s.answerDone hlast)

end

/-! # Recovery from bus-off, quarantine and the slope warning (O28)

A quarantine sets a few fields of BT.STAT, ECF.STAT and ECF.BO; all else that an entry to BUS_OFF does (the attempt ends, the
port leaves the governor's queue, causes and reports, a sounding) is beside error confinement (`Beside`). -/

section

namespace Sys2Proof.Machine

/-! ## Writes of fields -/

section

variable {s t u : State} {ws : List Nat} {fs : List Part}

theorem Part.same.trans {p : Part} (h : p.same s t) (k : p.same t u) : p.same s u := by
  cases p <;> simp_all [Part.same]

theorem Writes.trans (h : Writes ws fs s t) (k : Writes ws fs t u) : Writes ws fs s u where
  words a ha := (k.words a ha).trans (h.words a ha)
  fields p hp := (h.fields p hp).trans (k.fields p hp)

theorem Writes.set {l : Loc} {v : Nat} (h : Writes ws fs s t) (hl : l.addr ∈ ws := by exact List.mem_cons_self)
    (hw : l.lo + l.len ≤ 32 := by exact of_decide_eq_true rfl) : Writes ws fs s (t.set l v) :=
  h.trans <| OnlyM.writes (l := [.anyReg]) (State.set_only (p := .anyReg) ⟨trivial, fun _ => trivial⟩ .refl (by decide))
    (fun a ha => State.word_set_narrow _ _ _ _ hw fun e => ha (e ▸ hl)) (by simp [Part.same])

theorem Writes.put {l : Loc} {b : Bool} (h : Writes ws fs s t) (hl : l.addr ∈ ws := by exact List.mem_cons_self)
    (hw : l.lo + l.len ≤ 32 := by exact of_decide_eq_true rfl) : Writes ws fs s (t.put l b) := h.set hl hw

theorem Writes.inc {l : Loc} (h : Writes ws fs s t) (hl : l.addr ∈ ws := by exact List.mem_cons_self)
    (hw : l.lo + l.len ≤ 32 := by exact of_decide_eq_true rfl) : Writes ws fs s (t.inc l) := h.set hl hw

theorem Writes.refl : Writes ws fs s s where
  words _ _ := rfl
  fields _ _ := (OnlyM.refl.only (Sub.refl (maskOf []))).parts _ List.not_mem_nil

theorem State.answerDone_writes : Writes ws [.resp] s s.answerDone where
  words _ _ := rfl
  fields p hp := (s.resp_writes (some .done)).fields p hp

theorem State.modPort_writes {n : Nat} {f : Port → Port} : Writes ws [.ports] s (s.modPort n f) :=
  OnlyM.writes (l := [.ports]) (State.modPort_only .refl rfl) (fun _ _ => rfl) (by simp)

/-- Fields of the registers of one port that share no bit. -/
theorem Loc.apart_of_line {a b : Loc} {x c d : Nat} (ha : a.addr = c + x) (hb : b.addr = d + x)
    (h : (decide (a.lo + a.len ≤ 32) && decide (b.lo + b.len ≤ 32) &&
      (decide (c ≠ d) || decide (a.lo + a.len ≤ b.lo) || decide (b.lo + b.len ≤ a.lo))) = true) : a.apart b := by
  simp only [Bool.and_eq_true, Bool.or_eq_true, decide_eq_true_eq] at h
  obtain ⟨⟨hwa, hwb⟩, hd⟩ := h
  exact ⟨hwa, hwb, by omega⟩

end

/-! ## Beside error confinement -/

/-- What an entry to BUS_OFF may change beside BT.STAT, ECF.STAT and ECF.BO. -/
abbrev besideConfinementMask : Nat := 0x301100000002000000302403C10000010C1800040000000C001000000196CD

/-- The first words of BT.STAT and of ECF.STAT, CNT, BO and BO_DUR. -/
def confinementRegs : List Nat := [0x01000104, 0x01000204, 0x01000214, 0x0100022C, 0x01000238]

theorem besideConfinementMask_away : (confinementRegs.all fun c => awayFam besideConfinementMask c 0x1000 128) = true := by
  decide +kernel

/-- From `s` to `t` no register of error confinement changes, and no port's bus-off history. -/
structure Beside (s t : State) : Prop where
  only : OnlyM besideConfinementMask s t
  history : ∀ m, (t.port m).boTicks = (s.port m).boTicks

section

variable {s0 s t : State} {n d k c b m : Nat}

theorem Beside.field {l : Loc} (h : Beside s t) (hl : l.addr = c + 0x1000 * (n % 128) := by rfl)
    (hw : l.lo + l.len ≤ 32 := by exact of_decide_eq_true rfl) (hc : c ∈ confinementRegs := by decide) : t.get l = s.get l :=
  h.only.lineField besideConfinementMask_away hl hc hw

theorem Beside.flag {l : Loc} (h : Beside s t) (hl : l.addr = c + 0x1000 * (n % 128) := by rfl)
    (hw : l.lo + l.len ≤ 32 := by exact of_decide_eq_true rfl) (hc : c ∈ confinementRegs := by decide) : t.flag l = s.flag l :=
  congrArg (decide <| · = 1) (h.field hl hw hc)

theorem Beside.refl : Beside s s := ⟨.refl, fun _ => rfl⟩

theorem Beside.trans (h : Beside s0 s) (k : Beside s t) : Beside s0 t :=
  ⟨h.only.trans k.only, fun m => (k.history m).trans (h.history m)⟩

/-- A change of parts among which the ports' hidden halves are not. -/
theorem Beside.off (h : Beside s0 s) (o : OnlyM m s t) (hp : m.testBit Part.ports.ctorIdx = false := by decide)
    (hm : Sub m besideConfinementMask := by rfl) : Beside s0 t :=
  h.trans ⟨o.mono hm, fun n => by rw [o.port hp]⟩

theorem Beside.modPort {f : Port → Port} (h : Beside s0 s) (hf : ∀ p, (f p).boTicks = p.boTicks := by intro _; rfl) :
    Beside s0 (s.modPort n f) := by
  refine h.trans ⟨State.modPort_only .refl rfl, fun m => ?_⟩
  rw [State.port_modPort]
  split
  next e => rw [e]; exact hf _
  next => rfl

theorem Beside.put {p : Part} {l : Loc} {v : Bool} (h : Beside s0 s) (hl : p.holds l)
    (hp : besideConfinementMask.testBit p.ctorIdx = true := by rfl) : Beside s0 (s.put l v) :=
  h.trans ⟨State.put_only hl .refl hp, fun n => by rw [State.port_put]⟩

theorem Beside.govStat (h : Beside s0 s) : Beside s0 (s.govStat d) := h.off (State.govStat_only .refl (Sub.refl _))

theorem Beside.admitPort (h : Beside s0 s) : Beside s0 (s.admitPort n k) :=
  (((h.modPort).put (LP_STATE_DEFERRED_holds n)).off (State.setSlotState_only .refl (Sub.refl _))).govStat

theorem Beside.undefer (h : Beside s0 s) : Beside s0 (s.undefer n) :=
  ((h.off (State.setGov_only .refl (Sub.refl _))).modPort.put (LP_STATE_DEFERRED_holds n)).govStat

theorem Beside.admitHeads (h : Beside s0 s) : Beside s0 (s.admitHeads d k) := by
  induction k generalizing s with
  | zero => exact h
  | succ k ih =>
    unfold State.admitHeads
    split
    · exact h
    · split
      · exact ih h.undefer
      · split
        · exact ih h.undefer.admitPort
        · exact h

theorem Beside.releaseReservation (h : Beside s0 s) : Beside s0 (s.releaseReservation n) := by
  unfold State.releaseReservation
  split
  · exact h
  · exact (h.modPort).admitHeads.govStat

theorem Beside.dropAttempt (h : Beside s0 s) : Beside s0 (s.dropAttempt n) :=
  ((h.modPort).off (State.requeue_only .refl (Sub.refl _))).releaseReservation

theorem Beside.btCause (h : Beside s0 s) : Beside s0 (s.btCause n c b) := h.off (State.btCause_only .refl (Sub.refl _))

theorem Beside.occur (h : Beside s0 s) : Beside s0 (s.occur c b) := h.off (State.occur_only .refl (Sub.refl _))

theorem Beside.endCond (h : Beside s0 s) : Beside s0 (s.endCond c b) := h.off (State.endCond_only .refl (Sub.refl _))

/-- The instant of a bus-off, which a port without a die link does not have (R28). -/
theorem Beside.busOffTime (h : Beside s0 s) {x : Bool} {v : Nat} :
    Beside s0 (if x then s else s.setStamp (ECF_BO_T_NS n).addr v) := by
  split
  · exact h
  · exact h.trans ⟨State.setStamp_only (ECF_BO_T_NS_holds n).own (ECF_BO_T_NS_next n) .refl rfl, fun m => by
      rw [State.port_of_ports (State.setStamp_ports ..)]⟩

theorem Beside.sounds (h : Beside s0 s) {x : Bool} : Beside s0 (s.when x fun s => s.sndRequest n) := by
  cases x
  · exact h
  · exact h.off (State.sndRequest_only .refl (Sub.refl _))

end

/-! ## A quarantine takes effect (R227) -/

section

variable {s : State} {n : Nat}

/-- The fields of ECF.STAT and ECF.BO that an entry to BUS_OFF by QUAR sets before its cause is raised. -/
def State.showQuarantine (s : State) (n : Nat) : State :=
  ((((s.set (ECF_STAT_ESTATE n) 2).inc (ECF_BO_TOTAL n)).put (ECF_BO_CAUSE n) true).put (ECF_BO_ESC n) false).set
    (ECF_STAT_SEQ n) 0 |>.put (ECF_STAT_QPEND n) false

theorem State.showQuarantine_spec (s : State) (n : Nat) : (s.showQuarantine n).get (ECF_STAT_ESTATE n) = 2 ∧
    (s.showQuarantine n).flag (ECF_BO_CAUSE n) = true ∧ (s.showQuarantine n).flag (ECF_STAT_QPEND n) = false ∧
    (s.showQuarantine n).get (ECF_CNT_TEC n) = s.get (ECF_CNT_TEC n) ∧
    (s.showQuarantine n).get (ECF_CNT_REC n) = s.get (ECF_CNT_REC n) ∧
    (s.showQuarantine n).get (ECF_BO_TOTAL n) = min (s.get (ECF_BO_TOTAL n) + 1) (2 ^ 16 - 1) := by
  unfold State.showQuarantine
  simp (disch := exact Loc.apart_of_line rfl rfl rfl) only [State.get_set_apart, State.get_put_apart, State.get_inc_apart,
    State.flag_set_apart, State.flag_put_apart]
  refine ⟨State.get_set_fits _ _, State.flag_put_self _ _ _ (of_decide_eq_true rfl) rfl,
    State.flag_put_self _ _ _ (of_decide_eq_true rfl) rfl, trivial, trivial, ?_⟩
  rw [State.get_inc_self _ _ (of_decide_eq_true rfl), State.get_set_apart _ _ _ _ (Loc.apart_of_line rfl rfl rfl)]
  rfl

theorem State.bstate_showQuarantine (s : State) (n : Nat) : (s.showQuarantine n).bstate n = s.bstate n := by
  unfold State.showQuarantine State.bstate
  simp (disch := exact Loc.apart_of_line rfl rfl rfl) only [State.get_set_apart, State.get_put_apart, State.get_inc_apart]

theorem State.port_showQuarantine (s : State) (n m : Nat) : (s.showQuarantine n).port m = s.port m := by
  unfold State.showQuarantine
  simp only [State.port_put, State.port_set, State.port_inc]

/-- A quarantine that takes effect, step by step: what it does beside error confinement, the fields of ECF, BT.STAT, RSTEP. -/
theorem State.quarantine_stages (hb : s.bstate n ≠ 0) : ∃ u v w, Beside s u ∧ Beside (u.showQuarantine n) v ∧
    Beside ((v.setB n 7).put (BT_STAT_PHASE n) false) w ∧ Beside (w.set (ECF_STAT_RSTEP n) 4) (s.quarantine n) := by
  unfold State.quarantine State.enterBusOff
  extract_lets s1 s2 s3 s4 s5 s6 s7 s8 s9
  have h3 : Beside s s3 := (Beside.refl.dropAttempt.undefer.put (MOP_PORTHEAD_VALID_holds n)).busOffTime
  have h6 : Beside s5 s6 := Beside.refl.modPort
  have hb6 : s6.bstate n = s.bstate n := h6.field.trans ((s3.bstate_showQuarantine n).trans h3.field)
  have h7 : s7 = (s6.setB n 7).put (BT_STAT_PHASE n) false := by
    unfold s7 State.when
    rw [if_pos (by simpa [hb6] using hb)]
  exact ⟨s3, s6, s8, h3, h6, h7 ▸ Beside.refl.btCause.occur, Beside.refl.sounds⟩

/-- A port that a quarantine took off the bus, from a state `s`. -/
def Quarantined (n : Nat) (s t : State) : Prop :=
  t.get (ECF_STAT_ESTATE n) = 2 ∧ t.get (ECF_STAT_RSTEP n) = 4 ∧ t.flag (ECF_BO_CAUSE n) = true ∧
    t.flag (ECF_STAT_QPEND n) = false ∧ t.bstate n = 7 ∧ t.get (ECF_CNT_TEC n) = s.get (ECF_CNT_TEC n) ∧
    t.get (ECF_CNT_REC n) = s.get (ECF_CNT_REC n) ∧
    t.get (ECF_BO_TOTAL n) = min (s.get (ECF_BO_TOTAL n) + 1) (2 ^ 16 - 1) ∧ (t.port n).boTicks = (s.port n).boTicks

theorem State.quarantine_spec (hb : s.bstate n ≠ 0) : Quarantined n s (s.quarantine n) := by
  obtain ⟨u, v, w, hu, hv, hw, hq⟩ := State.quarantine_stages hb
  have ecf {l : Loc} {c : Nat} (hr : (ECF_STAT_RSTEP n).apart l := by exact Loc.apart_of_line rfl rfl rfl)
      (hl : l.addr = c + 0x1000 * (n % 128) := by rfl) (hc : c ∈ confinementRegs ∧ c ≠ 0x01000104 := by decide) :
      (s.quarantine n).get l = (u.showQuarantine n).get l := by
    have hbt {m : Loc} (hm : m.addr = 0x01000104 + 0x1000 * (n % 128)) (hwm : m.lo + m.len ≤ 32) : m.apart l :=
      Loc.apart_of_addr hwm hr.2.1 (by omega)
    calc (s.quarantine n).get l
      _ = w.get l := (hq.field hl hr.2.1 hc.1).trans (State.get_set_apart _ _ _ _ hr)
      _ = (v.setB n 7).get l := (hw.field hl hr.2.1 hc.1).trans
        (State.get_put_apart _ _ _ _ (hbt rfl (of_decide_eq_true rfl)))
      _ = (u.showQuarantine n).get l :=
        (State.get_set_apart _ _ _ _ (hbt rfl (of_decide_eq_true rfl))).trans (hv.field hl hr.2.1 hc.1)
  have hbstate : (s.quarantine n).bstate n = 7 := by
    calc (s.quarantine n).bstate n
      _ = w.bstate n := hq.field.trans (State.get_set_apart _ _ _ _ (Loc.apart_of_line rfl rfl rfl))
      _ = (v.setB n 7).bstate n := hw.field.trans (State.get_put_apart _ _ _ _ (Loc.apart_of_line rfl rfl rfl))
      _ = 7 := State.get_set_fits _ _
  have hhist : ((s.quarantine n).port n).boTicks = (s.port n).boTicks := by
    rw [hq.history, State.port_set, hw.history, State.port_put, State.setB, State.port_set, hv.history,
      State.port_showQuarantine, hu.history]
  obtain ⟨hestate, hcause, hpending, htec, hrec, htotal⟩ := u.showQuarantine_spec n
  have hcause' : (s.quarantine n).flag (ECF_BO_CAUSE n) = (u.showQuarantine n).flag (ECF_BO_CAUSE n) :=
    congrArg (decide <| · = 1) ecf
  have hpending' : (s.quarantine n).flag (ECF_STAT_QPEND n) = (u.showQuarantine n).flag (ECF_STAT_QPEND n) :=
    congrArg (decide <| · = 1) ecf
  rw [hu.field] at htec hrec htotal
  exact ⟨Eq.trans ecf hestate, hq.field.trans (State.get_set_fits _ _), hcause'.trans hcause, hpending'.trans hpending, hbstate,
    Eq.trans ecf htec, Eq.trans ecf hrec, Eq.trans ecf htotal, hhist⟩

theorem Quarantined.from_same {u t : State} (h : Quarantined n u t) (htec : u.get (ECF_CNT_TEC n) = s.get (ECF_CNT_TEC n))
    (hrec : u.get (ECF_CNT_REC n) = s.get (ECF_CNT_REC n)) (htotal : u.get (ECF_BO_TOTAL n) = s.get (ECF_BO_TOTAL n))
    (hport : u.port n = s.port n) : Quarantined n s t := by
  unfold Quarantined at h ⊢
  rwa [htec, hrec, htotal, hport] at h

/-- The engine enters IDLE with a quarantine pending and no OPMODE written. -/
theorem State.enterIdle_quarantined (hp : (s.port n).opPending = none) (hq : s.flag (ECF_STAT_QPEND n) = true) :
    Quarantined n s (s.enterIdle n) := by
  have hidle : s.enterIdle n = (s.goIdle n).quarantine n := by
    have happ : (s.goIdle n).applyOpmode n = s.goIdle n := by
      unfold State.applyOpmode
      rw [State.port_goIdle, hp]
    unfold State.enterIdle
    dsimp only
    rw [show (s.setB n 2).put (BT_STAT_PHASE n) false = s.goIdle n from rfl, happ, State.quarPending_goIdle, hq]
    exact if_pos rfl
  have hget {l : Loc} {c : Nat} (hl : l.addr = c + 0x1000 * (n % 128) := by rfl)
      (hw : l.lo + l.len ≤ 32 := by exact of_decide_eq_true rfl) (hc : c ≠ 0x01000104 := by decide) :
      (s.goIdle n).get l = s.get l := s.get_goIdle n hw (by simp only [BT_STAT_BSTATE]; omega)
  rw [hidle]
  exact (State.quarantine_spec (by rw [State.bstate_goIdle]; decide)).from_same hget hget hget (State.port_goIdle ..)

end

/-! ## Commands of ECF[n].CTRL (R222, R223, R226) -/

section

variable {s : State} {n : Nat}

/-- The host's write of ECF[n].CTRL has the write's effect. -/
theorem answers_ecfWrite {c : Instr} {f : State → State} {P : State → Prop} (hs : s.serves (lineBit n))
    (hc : exec c s = .next (s.ecfWrite .host n f)) (hp : P (f s.answerDone)) : Answers c s P := by
  have hw : s.ecfWrite .host n f = f s.answerDone := 
    s.access_host (ECF_CTRL_RECOVER n).addr true _ true (fun s => f s.answerDone) hs.1 hs.2
  exact ⟨_, hc.trans (congrArg _ hw), hp⟩

/-- A command that is not permitted sets CMDERR alone (R223). -/
theorem State.ecfErr_spec (s : State) (n : Nat) : (s.answerDone.ecfErr n).flag (ECF_STAT_CMDERR n) = true ∧
    (s.answerDone.ecfErr n).get (ECF_STAT_RSTEP n) = s.get (ECF_STAT_RSTEP n) ∧
    Writes [(ECF_STAT_CMDERR n).addr] [.resp] s (s.answerDone.ecfErr n) :=
  ⟨State.flag_put_self _ _ _ (of_decide_eq_true rfl) rfl, State.get_put_apart _ _ _ _ (Loc.apart_of_bits rfl),
    State.answerDone_writes.put⟩

theorem State.startCounting_spec (s : State) (n : Nat) :
    (s.startCounting n).get (ECF_STAT_RSTEP n) = 2 ∧ (s.startCounting n).get (ECF_STAT_SEQ n) = 0 := by
  unfold State.startCounting
  rw [State.get_set_apart _ _ _ _ (Loc.apart_of_bits rfl)]
  exact ⟨State.get_set_fits _ _, State.get_set_fits _ _⟩

theorem State.recover_permitted (hcan : s.isCan n = true) (he : s.get (ECF_STAT_ESTATE n) = 2)
    (hr : s.get (ECF_STAT_RSTEP n) = 3 ∨ s.get (ECF_STAT_RSTEP n) = 4) :
    s.recover n = (s.startCounting n).put (ECF_BO_ESC n) false := by
  unfold State.recover
  rw [if_pos (by simp [hcan, he, hr])]

theorem State.recover_refused (h : s.isCan n = false ∨ s.get (ECF_STAT_ESTATE n) ≠ 2 ∨
    (s.get (ECF_STAT_RSTEP n) ≠ 3 ∧ s.get (ECF_STAT_RSTEP n) ≠ 4)) : s.recover n = s.ecfErr n := by
  unfold State.recover
  refine if_neg fun hc => ?_
  simp only [Bool.and_eq_true, Bool.or_eq_true, decide_eq_true_eq] at hc
  obtain ⟨⟨hcan, he⟩, hr⟩ := hc
  rcases h with h | h | h
  · exact absurd (hcan.symm.trans h) (by decide)
  · exact h he
  · exact hr.elim h.1 h.2

theorem State.quar_refused (h : s.isCan n = false ∨ s.flag (ECF_STAT_QPEND n) = true ∨ s.get (ECF_STAT_RSTEP n) = 4) :
    s.quar n = s.ecfErr n := by
  unfold State.quar
  rw [if_pos (by simpa [or_assoc] using h)]

theorem State.quar_permitted (hcan : s.isCan n = true) (hq : s.flag (ECF_STAT_QPEND n) = false)
    (hr : s.get (ECF_STAT_RSTEP n) ≠ 4) : s.quar n =
      if s.bstate n = 1 ∨ s.bstate n = 2 ∨ s.bstate n = 6 ∨ s.bstate n = 7 then
        (s.put (ECF_STAT_QPEND n) true).quarantine n else s.put (ECF_STAT_QPEND n) true := by
  have hb : (s.put (ECF_STAT_QPEND n) true).bstate n = s.bstate n :=
    State.get_put_apart _ _ _ _ (Loc.apart_of_line rfl rfl rfl)
  unfold State.quar
  rw [if_neg (by simp [hcan, hq, hr])]
  simp only [hb, Bool.or_eq_true, decide_eq_true_eq, or_assoc]

theorem State.quar_immediate (s : State) (hb : s.bstate n ≠ 0) :
    Quarantined n s ((s.put (ECF_STAT_QPEND n) true).quarantine n) := by
  have hget {l : Loc} (hl : (ECF_STAT_QPEND n).apart l) : (s.put (ECF_STAT_QPEND n) true).get l = s.get l :=
    State.get_put_apart _ _ _ _ hl
  refine (State.quarantine_spec ?_).from_same (hget (Loc.apart_of_line rfl rfl rfl)) (hget (Loc.apart_of_line rfl rfl rfl))
    (hget (Loc.apart_of_line rfl rfl rfl)) (State.port_put ..)
  rw [State.bstate, hget (Loc.apart_of_line rfl rfl rfl)]
  exact hb

end

/-! ## The 128th occurrence (R220) -/

section

variable {s : State} {n : Nat}

/-- The engine enters INTEGRATING in itself. -/
def State.goIntegrating (s : State) (n : Nat) : State :=
  let rx := s.bstate n = 2 || s.bstate n = 3
  ((s.modPort n fun p => { p with intTick := if rx then some s.ticks else none }).setB n 1).put (BT_STAT_PHASE n) false

theorem State.get_goIntegrating (s : State) (n : Nat) {l : Loc} (hl : l.lo + l.len ≤ 32)
    (h : l.addr ≠ (BT_STAT_BSTATE n).addr) : (s.goIntegrating n).get l = s.get l := by
  unfold State.goIntegrating State.setB
  dsimp only
  rw [State.get_put_apart _ (BT_STAT_PHASE n) _ _ (Loc.apart_of_addr (of_decide_eq_true rfl) hl h.symm),
    State.get_set_apart _ (BT_STAT_BSTATE n) _ _ (Loc.apart_of_addr (of_decide_eq_true rfl) hl h.symm), State.get_modPort]

theorem State.opPending_goIntegrating (s : State) (n : Nat) :
    ((s.goIntegrating n).port n).opPending = (s.port n).opPending := by
  unfold State.goIntegrating State.setB
  dsimp only
  rw [State.port_put, State.port_set, State.port_modPort_self]

/-- Without a written OPMODE and without a pending quarantine nothing else happens. -/
theorem State.integrate_quiet (hp : (s.port n).opPending = none) (hq : s.flag (ECF_STAT_QPEND n) = false) :
    s.integrate n = s.goIntegrating n := by
  have happ : (s.goIntegrating n).applyOpmode n = s.goIntegrating n := by
    unfold State.applyOpmode
    rw [State.opPending_goIntegrating, hp]
  have hpend : (s.goIntegrating n).flag (ECF_STAT_QPEND n) = false := by
    rw [State.flag, State.get_goIntegrating _ _ (of_decide_eq_true rfl) (by simp only [ECF_STAT_QPEND, BT_STAT_BSTATE]; omega)]
    exact hq
  have hint : s.integrate n = if ((s.goIntegrating n).applyOpmode n).flag (ECF_STAT_QPEND n) then
      ((s.goIntegrating n).applyOpmode n).quarantine n else (s.goIntegrating n).applyOpmode n := rfl
  rw [hint, happ, hpend]
  exact if_neg (by decide)

/-- The fields of ECF that the end of a recovery sets. -/
def State.showRecovered (s : State) (n : Nat) : State :=
  let s := (((s.set (ECF_CNT_TEC n) 0).set (ECF_CNT_REC n) 0).set (ECF_STAT_ESTATE n) 0).put (ECF_STAT_WARN n) false
  let s := (s.set (ECF_STAT_RSTEP n) 0).set (ECF_STAT_SEQ n) 0
  let us := (s.ticks - (s.port n).boTick) / 500
  s.set (ECF_BO_DUR_US n) (min us (2 ^ (ECF_BO_DUR_US n).len - 1))

theorem State.port_showRecovered (s : State) (n : Nat) : (s.showRecovered n).port n = s.port n := by
  unfold State.showRecovered
  simp only [State.port_set, State.port_put]

theorem State.showRecovered_spec (s : State) (n : Nat) : (s.showRecovered n).get (ECF_CNT_TEC n) = 0 ∧
    (s.showRecovered n).get (ECF_CNT_REC n) = 0 ∧ (s.showRecovered n).get (ECF_STAT_ESTATE n) = 0 ∧
    (s.showRecovered n).get (ECF_STAT_RSTEP n) = 0 ∧
    (s.showRecovered n).get (ECF_BO_DUR_US n) = min ((s.ticks - (s.port n).boTick) / 500) (2 ^ 32 - 1) ∧
    (s.showRecovered n).flag (ECF_STAT_QPEND n) = s.flag (ECF_STAT_QPEND n) := by
  unfold State.showRecovered State.ticks
  simp (disch := exact Loc.apart_of_line rfl rfl rfl) only [State.get_set_apart, State.get_put_apart, State.flag_set_apart,
    State.flag_put_apart, State.set_time, State.put_time, State.port_set, State.port_put]
  refine ⟨State.get_set_fits _ _, State.get_set_fits _ _, State.get_set_fits _ _, State.get_set_fits _ _,
    State.get_set_fits _ _ (Nat.lt_of_le_of_lt (Nat.min_le_right ..) (of_decide_eq_true rfl)), trivial⟩

/-- The end of a recovery, without a written OPMODE and without a pending quarantine. -/
theorem execRecoveryComplete_spec {n : PortNo} (hr : s.get (ECF_STAT_RSTEP n) = 2) (hb : s.bstate n = 7)
    (hseq : s.get (ECF_STAT_SEQ n) = 127) (hq : s.flag (ECF_STAT_QPEND n) = false) (hp : (s.port n).opPending = none) :
    ∃ u, Beside (s.showRecovered n) u ∧ execRecoveryComplete n s = .next (((u.goIntegrating n).btCause n 0x01 0).goIdle n) := by
  obtain ⟨-, -, -, -, -, hqs⟩ := s.showRecovered_spec n
  let u := ((s.showRecovered n).endCond (4 * n + 2) 0x04).btCause n 0x24 (min ((s.showRecovered n).boCount n) 255)
  have hu : Beside (s.showRecovered n) u := Beside.refl.endCond.btCause
  have hpu : (u.port n).opPending = none := by
    rw [State.port_btCause, State.port_endCond, State.port_showRecovered, hp]
  have hqu : u.flag (ECF_STAT_QPEND n) = false := hu.flag.trans (hqs.trans hq)
  have hqi : ((u.goIntegrating n).btCause n 0x01 0).flag (ECF_STAT_QPEND n) = false := by
    rw [Beside.refl.btCause.flag, State.flag, State.get_goIntegrating _ _ (of_decide_eq_true rfl)
      (by simp only [ECF_STAT_QPEND, BT_STAT_BSTATE]; omega)]
    exact hqu
  refine ⟨u, hu, ?_⟩
  rw [← State.enterIdle_quiet (by rw [State.port_btCause, State.opPending_goIntegrating, hpu]) hqi,
    ← State.integrate_quiet hpu hqu, execRecoveryComplete, if_pos (by simp [hr, hb, hseq])]
  rfl

end

/-! ## The slope warning (R228, R229) -/

/-- The buckets of a port's slopes move on by one. -/
def State.slideSlopes (s : State) (n : Nat) : State :=
  s.modPort n fun p => { p with slopeT := (0 :: p.slopeT).take 256, slopeR := (0 :: p.slopeR).take 256 }

theorem execSlopeBucket_eq (s : State) (n : PortNo) : execSlopeBucket n s =
    .next (if s.slopeSum n ((0 :: (s.port n).slopeT).take 256) < max 1 (s.get (ECF_SLOPE_TH n) / 2) ∧
        s.slopeSum n ((0 :: (s.port n).slopeR).take 256) < max 1 (s.get (ECF_SLOPE_TH n) / 2) then
      (s.slideSlopes n).put (ECF_STAT_SLOPE n) false else s.slideSlopes n) := by
  unfold execSlopeBucket
  simp only [State.port_modPort_self, State.get_modPort, State.slopeSum, Bool.and_eq_true, decide_eq_true_eq]
  rfl

end Sys2Proof.Machine

open Sys2Proof Sys2Proof.Machine

/-- Settles O28: a quarantine takes effect as `State.quarantine_spec` says, whatever the port did before; the end of a recovery is
`execRecoveryComplete_spec`; the other commands write a field or two. -/
theorem recoveryAndQuarantine : Obligations.RecoveryAndQuarantine := by
  refine ⟨fun s n => ⟨?holdoff, fun hs => ⟨?recover, ?recoverRefused⟩, ?counts, ?completes⟩,
    fun s n => ⟨fun hs => ⟨fun hcan hq hr => ⟨?quarNow, ?quarLater⟩, ?quarRefused⟩, ?effect, ?slopeClears, ?slopeStays⟩⟩
  case holdoff =>
    intro hr hdue hlive hps
    obtain ⟨hrstep, hseq⟩ := s.startCounting_spec n
    have hrun : execHoldoffEnd n s = .next (s.startCounting n) := by simp [execHoldoffEnd, hr, hdue, hlive, hps]
    exact ⟨_, hrun, hrstep, hseq, Writes.refl.set.set⟩
  case recover =>
    intro hcan he hr
    obtain ⟨hrstep, hseq⟩ := s.answerDone.startCounting_spec n
    refine answers_ecfWrite hs rfl ?_
    rw [State.recover_permitted (s := s.answerDone) hcan he hr, State.get_put_apart _ _ _ _ (Loc.apart_of_line rfl rfl rfl),
      State.get_put_apart _ _ _ _ (Loc.apart_of_line rfl rfl rfl)]
    exact ⟨hrstep, hseq, State.flag_put_self _ _ _ (of_decide_eq_true rfl) rfl, 
      State.answerDone_writes.set.set.put (List.mem_cons_of_mem _ List.mem_cons_self)⟩
  case recoverRefused =>
    intro h
    refine answers_ecfWrite hs rfl ?_
    rw [State.recover_refused (s := s.answerDone) h]
    exact s.ecfErr_spec n
  case counts =>
    intro hr hb hseq
    have hrun : execIntegrationComplete n s = .next (s.inc (ECF_STAT_SEQ n)) := by
      simp [execIntegrationComplete, hb, State.countOccurrence, hr, hseq]
    refine ⟨_, hrun, ?_, Writes.refl.inc⟩
    rw [State.get_inc_self _ _ (of_decide_eq_true rfl)]
    exact Nat.min_eq_left (show _ ≤ 255 by omega)
  case completes =>
    intro hr hb hseq hq hp
    obtain ⟨u, hu, hrun⟩ := execRecoveryComplete_spec hr hb hseq hq hp
    obtain ⟨htec, hrec, hestate, hrstep, hdur, -⟩ := s.showRecovered_spec n
    have hget {l : Loc} {c : Nat} (hl : l.addr = c + 0x1000 * (n % 128) := by rfl)
        (hw : l.lo + l.len ≤ 32 := by exact of_decide_eq_true rfl)
        (hc : c ∈ confinementRegs ∧ c ≠ 0x01000104 := by decide) :
        (((u.goIntegrating n).btCause n 0x01 0).goIdle n).get l = (s.showRecovered n).get l := by
      have hne : l.addr ≠ (BT_STAT_BSTATE n).addr := by simp only [BT_STAT_BSTATE]; omega
      rw [State.get_goIdle _ _ hw hne, Beside.refl.btCause.field hl hw hc.1, State.get_goIntegrating _ _ hw hne,
        hu.field hl hw hc.1]
    exact ⟨_, hrun, Eq.trans hget htec, Eq.trans hget hrec, Eq.trans hget hestate, Eq.trans hget hrstep,
      State.bstate_goIdle .., Eq.trans hget hdur⟩
  case quarNow =>
    intro hb
    refine answers_ecfWrite hs rfl ?_
    rw [(State.quar_permitted (s := s.answerDone) hcan hq hr).trans (if_pos hb)]
    exact s.answerDone.quar_immediate (by show s.bstate n ≠ 0; omega)
  case quarLater =>
    intro hb
    have hbusy : ¬ (s.bstate n = 1 ∨ s.bstate n = 2 ∨ s.bstate n = 6 ∨ s.bstate n = 7) := by omega
    refine answers_ecfWrite hs rfl ?_
    rw [(State.quar_permitted (s := s.answerDone) hcan hq hr).trans (if_neg hbusy)]
    exact ⟨State.flag_put_self _ _ _ (of_decide_eq_true rfl) rfl, State.answerDone_writes.put⟩
  case quarRefused =>
    intro h
    obtain ⟨hcmderr, -, hwrites⟩ := s.ecfErr_spec n
    refine answers_ecfWrite hs rfl ?_
    rw [State.quar_refused (s := s.answerDone) h]
    exact ⟨hcmderr, hwrites⟩
  case effect =>
    intro hq hb ha hp
    have hrun : execQuarantineEffect n s = .next (s.enterIdle n) := by simp [execQuarantineEffect, hq, hb, ha]
    exact ⟨_, hrun, State.enterIdle_quarantined hp hq⟩
  case slopeClears =>
    intro hT hR
    refine ⟨_, (execSlopeBucket_eq s n).trans (congrArg _ (if_pos ⟨hT, hR⟩)), ?_, State.modPort_writes.put⟩
    exact State.flag_put_self _ _ _ (of_decide_eq_true rfl) rfl
  case slopeStays =>
    intro h
    refine ⟨_, (execSlopeBucket_eq s n).trans (congrArg _ (if_neg ?_)), rfl, State.modPort_writes⟩
    rintro ⟨hT, hR⟩
    exact h.elim (Nat.not_le.mpr hT) (Nat.not_le.mpr hR)

end
